-- ==== Sys2Proof/Word.lean ====
section
/-! DEFINITION. The word types of the MRM-X16: registers are 64 bits wide (R5), memory is bytes. -/

namespace Sys2Proof

/-- A register or operand word: 64 bits (R5). -/
abbrev Word := BitVec 64

/-- One byte of memory. -/
abbrev Byte := BitVec 8

/-- A field of a register: the register's BAR0 offset, the field's lowest bit and its width. -/
structure RegField where
  off : Nat
  lo : Nat
  width : Nat
deriving DecidableEq, Repr

end Sys2Proof
end

