-- ==== Sys2Proof/Syntax.lean ====
section
/-! DEFINITION. The commands of the block: one constructor of `Instr` per row of the opcode table, each with what the
row takes from outside (a command block, a message, a written value, a measured quantity). -/

namespace Sys2Proof

/-- Who issued a command. Queue `q` is tenant queue `q % 16` of tenant `q / 16` for `q < 4096`, and the management queue of
port `q - 4096` from there on (R386, R389). A Hub instruction names its context slot and thread (R293). -/
inductive Issuer where
  | queue (q : Nat)
  | hub (slot unit : Nat)
  | device
deriving DecidableEq, Repr

/-- A 64-byte command (R395), its issuer, and what the outside answers while it runs: the bytes that host memory returns for
the command's reads, in the order of the reads, and, where the host bus fails, after how many bytes it fails (R400). -/
structure Cmd where
  issuer : Issuer
  flags : BitVec 8
  tag : BitVec 16
  seq : BitVec 32
  handle : Word
  addrA : Word
  addrB : Word
  ops : BitVec 256
  data : List Byte
  busFail : Option Nat
deriving DecidableEq, Repr

/-- A register write arriving on a host port: the value, and for a 32-bit access which half it covers (R5). -/
structure RegWrite where
  port : Nat
  half : Option Bool
  value : Word
deriving DecidableEq, Repr

/-- Which request of the device to host memory has reached its completion timeout (R394, R400). -/
inductive HostRequest where
  | fetch (q : Nat)
  | record (q : Nat)
  | data (c : Cmd)
deriving DecidableEq, Repr

/-- The stop matcher's state (R165). -/
structure StopState where
  held : Nat := 0
  lastStop : Nat := 0xFF
  inCall : Nat := 0
  callBytes : Nat := 0
  callId : Nat := 0
  heldBytes : List Byte := []
deriving DecidableEq, Repr

/-- The states of a stall (R39). -/
inductive StallState where
  | free | hot | running | waiting | parked | remote | moving | orphaned | retired
deriving DecidableEq, Repr

/-- The stall header (R34), field for field; the flags of R37 are `flags` bits. -/
structure Header where
  handle : Nat := 0
  kind : Nat := 0
  tenant : Nat := 0
  priority : Nat := 0
  flags : Nat := 0
  deadPolicy : Nat := 0
  homeHive : Nat := 0
  committedLen : Nat := 0
  specLen : Nat := 0
  step : Nat := 0
  lengthCap : Nat := 0
  endToken : Nat := 0
  seed : Nat := 0
  sampleCtr : Nat := 0
  ndStall : Nat := 0
  grImage : Nat := 0
  grState : Nat := 0
  grSp : Nat := 0
  grStack : List Nat := []
  stopSet : Nat := 0
  epoch : Nat := 0
  prepEpoch : Nat := 0
  leaseExpiry : Nat := 0
  ownerDev : Nat := 0
  peerDev : Nat := 0
  migRole : Nat := 0
  migPhase : Nat := 0
  priorState : Nat := 0
  shedPorts : Nat := 0
  shedRoot : Nat := 0
  ptRoot : Nat := 0
  waitTimeout : Nat := 0
  waitStart : Nat := 0
  toolCallId : Nat := 0
  journalLen : Nat := 0
  journalSeq : Nat := 0
  dirtyBytes : Nat := 0
  budgetAccount : Nat := 0
  stepReserve : Nat := 0
  budgetUsed : Nat := 0
  createdYt : Nat := 0
  lastStepYt : Nat := 0
  orphanSince : Nat := 0
  replaySig : Nat := 0
  shapeDims : Nat := 0
  layerMap : List Nat := []
  spill : List Byte := []
  stop : StopState := {}
  notes : List Byte := []
deriving DecidableEq, Repr

/-- A run of records of one page (R110). -/
structure JRun where
  firstToken : Nat
  count : Nat
  pageScale : Nat
  layer : Nat
  size : Nat
  pageMin : Nat
  pageMax : Nat
  shape : Nat
  spread : Nat
  nextInput : Nat
  bytes : List Byte
deriving DecidableEq, Repr

/-- What a journal record carries (R57): latent runs, the header, input bytes with BASE (R160) and whether they are a framed tool
result, or the seal. -/
inductive JPayload where
  | latent (runs : List JRun)
  | header (h : Header)
  | input (base : Nat) (framed : Bool) (bytes : List Byte)
  | seal (newest : Nat)
deriving DecidableEq, Repr

/-- A journal record (R57), the Shed address of the extent that holds it, the SAMPLE_CTR it brings the stall to (R126), the address of the extent before it
(PREV, R136), the keys of the Shed domain it was written under (R121), and the status that a read of it has been found to end in, if it is damaged. -/
structure JRecord where
  handle : Nat
  epoch : Nat
  step : Nat
  seq : Nat
  payload : JPayload
  extent : Nat
  sampleCtr : Nat
  prev : Nat := 0
  keyed : List Byte := []
  damage : Option Nat := none
deriving DecidableEq, Repr

/-- An MST message (R421, R422), whole: its header fields, its payload bytes, and for PREPARE the header and the journal records
that its payload spells. `replayInexact` is FLAGS bit 2. -/
structure Msg where
  type : Nat
  src : Nat
  dst : Nat
  tenant : Nat := 0
  handle : Nat := 0
  msgId : Nat := 0
  step : Nat := 0
  aux : Nat := 0
  epoch : Nat := 0
  replayInexact : Bool := false
  payload : List Byte := []
  image : Option (Header × List JRecord) := none
deriving DecidableEq, Repr

/-- A PTP message as the device uses it (R334), by its IEEE 1588-2019 fields: the Announce of a master with its rank under the best master
clock algorithm (the lower the better); a Sync with its origin time where it is one-step, and the Follow_Up that gives that time where it
is two-step; the answer to a delay request with the master's receipt time; a peer's delay request; a peer's answer with its receipt
time where it is two-step (a one-step answer gives the turnaround in the correction) and the Follow_Up that gives its sending time; any
other message. Times and corrections are in ns. -/
inductive PtpBody where
  | announce (master rank : Nat)
  | sync (master seq : Nat) (origin : Option Nat) (correction : Int)
  | followUp (master seq origin : Nat) (correction : Int)
  | delayResp (master seq receipt : Nat) (correction : Int)
  | peerRequest (seq : Nat)
  | peerResp (seq : Nat) (receipt : Option Nat) (correction : Int)
  | peerFollowUp (seq sent : Nat) (correction : Int)
  | other
deriving DecidableEq, Repr

/-- A PTP message received on a network port, with its domain and whether it came over IEEE 802.3 Ethernet. -/
structure PtpMsg where
  port : Nat
  domain : Nat
  ethernet : Bool
  body : PtpBody
deriving DecidableEq, Repr

/-- A physical unit that the repair logic can find failed (R502, R563 to R565): a Cell of a global Comb, a tally, a Groom pair, a
key-engine instance, a Hub sequencer, another engine by ENGINE kind and instance, a host port, the Aisle link of a Hive. -/
inductive Part where
  | cell (comb physical : Nat)
  | tally (physical : Nat)
  | groom (pair : Nat)
  | key (physical : Nat)
  | sequencer (i : Nat)
  | engine (kind i : Nat)
  | hostPort (n : Nat)
  | aisle (hive : Nat)
deriving DecidableEq, Repr

/-- A run of a checkpoint shard (R580): Tier 1 address, granules, domain, owning tenant, the stall whose index storage it is, and
its bytes. -/
structure CpRun where
  addr : Nat
  len : Nat
  domain : Nat
  tenant : Nat
  stall : Option Nat
  bytes : List Byte
deriving DecidableEq, Repr

/-- A shard of a checkpoint (R580): the HIVE and STEP of its shard-table entry, the STEP of its shard header, its runs. -/
structure CpShard where
  hive : Nat
  step : Nat
  headerStep : Nat
  runs : List CpRun
deriving DecidableEq, Repr

/-- A stall directory entry as a checkpoint holds it (R33, R582), with its header where that lies in the header pool. -/
structure CpEntry where
  index : Nat
  gen : Nat
  state : StallState
  location : Nat
  ownerDev : Nat
  epoch : Nat
  leaseExpiry : Nat
  headerAt : Nat
  shedPorts : Nat
  handle : Nat
  poolSlot : Option Nat
  shape : Nat
  pageMin : Nat
  pageMax : Nat
  spread : Nat
  vsCap : Nat := 0
  header : Header
deriving DecidableEq, Repr

/-- A checkpoint in its slot (R579, R580): the commit record, whether MAGIC, tags and TABLE_DIGEST hold, the shards, the stall
directory and the Yard map of the Hub shard, and the promoted ranges (R594). -/
structure CpImage where
  good : Bool
  serial : Nat
  step : Nat
  seq : Nat
  yt : Nat
  dirBase : Nat
  dirBase2 : Nat
  hdrPool : Nat
  hdrSlots : Nat
  marks : List (Nat × Nat)
  shards : List CpShard
  dir : List CpEntry
  yard : List Byte
  redirects : List (Nat × Nat × Nat)
deriving DecidableEq, Repr

/-- What port training finds on a Shed port (R132, R139, R510, R578, R590): whether it answers and trains, whether its interface is NV-LPDDR4, the part's
figures (page and spare bytes, read-retry levels and bytes per channel among them), its good and its bad erase blocks (channel, erases), the journal records its extents hold with the journal band sequence of each, and the checkpoint
slots whose commit area lies on it. -/
structure ShedFound where
  ok : Bool
  lpddr4 : Bool
  pageBytes : Nat
  spareBytes : Nat
  retryLevels : Nat
  channelBytes : Nat
  pages : Nat
  trUs : Nat
  targets : Nat
  luns : Nat
  planes : Nat
  blocks : List (Nat × Nat)
  badBlocks : List (Nat × Nat)
  journal : List (Nat × JRecord)
  slots : List (Nat × CpImage)
deriving DecidableEq, Repr

/-- An SPDM request as the responder uses it (R451, DSP0274); `finish` brings the SHA-384 of the requester's leaf public key where mutual
authentication succeeded and whether the exchange verified; `ideKey` is an IDE_KM message, whether it sets a stream's last key. -/
inductive SpdmBody where
  | getVersion
  | getCapabilities
  | negotiateAlgorithms
  | getDigests
  | getCertificate (slot offset length : Nat)
  | challenge (slot : Nat) (nonce : List Byte)
  | getMeasurements (index : Nat) (signed : Bool) (nonce : List Byte)
  | keyExchange (slot : Nat)
  | finish (requester : Option (List Byte)) (ok : Bool)
  | heartbeat
  | keyUpdate
  | endSession
  | ideKey (go : Bool)
  | other
deriving DecidableEq, Repr

/-- An SPDM request over the DOE mailbox of a host port, and the session that carries it. -/
structure SpdmReq where
  port : Nat
  session : Option Nat
  body : SpdmBody
deriving DecidableEq, Repr

/-- A frame received on a network port as MACsec sees it (R468): an MKA message of a peer, whether it verifies under the CAK; a protected
frame, whether its ICV verifies; an unprotected frame. A peer is named by its SCI. -/
inductive MacFrame where
  | mka (sci : Word) (ok : Bool)
  | sealed (sci : Word) (ok : Bool)
  | plain
deriving DecidableEq, Repr

/-- What a monitor window counts and shows (R518 to R523): the cycles of sources 0 to 4, the sources that have passed the stability count
since they failed, the fallback's trim code and its error against the crystal. -/
structure MonitorWindow where
  counts : List Nat
  stable : List Nat
  trim : Nat
  errPpm : Int
deriving DecidableEq, Repr

/-- What state ROM finds (R496, R519, R545): whether the crystal is stable, whether the fuses read, the sources 0 to 2 that are not stable, the AVSBus
buses that do not answer, and the trim code. -/
structure RomResult where
  crystal : Bool
  fuses : Bool
  lost : List Nat
  silent : List Nat
  trim : Nat
deriving DecidableEq, Repr

/-- A telemetry reading of one rail (R547): rails 0 to 16 are the pace domains', 17 to 21 the rails of PW_XRAIL; millivolts, current in
0.1 A, the AVSBus status word, and whether it holds a fault bit. -/
structure RailReading where
  rail : Nat
  mv : Nat
  deciAmps : Nat
  status : Nat
  fault : Bool
deriving DecidableEq, Repr

/-- A layer of a round: the round's tenant and the layer's number (R144). -/
structure RoundLayer where
  tenant : Nat
  layer : Nat
deriving DecidableEq, Repr

/-- A unit found failed in TRAIN or TEST, as a repair entry names it (R502), with its test code. -/
structure FoundUnit where
  kind : Nat
  hive : Nat
  unit : Nat
  reason : Nat
deriving DecidableEq, Repr

/-- A Trondi instruction as the row's mnemonic takes it (R269): the context slot and unit that fetch it, PRED, FLAGS, the operand
codes D, A, B and C, FMT and IMM; then what the check bits of the SRAM words it reads show: 0 nothing, 1 a corrected word, 2 an
uncorrectable word (R565). -/
structure Insn where
  slot : Nat
  unit : Nat
  pred : BitVec 4
  flags : BitVec 8
  d : BitVec 8
  a : BitVec 8
  b : BitVec 8
  c : BitVec 8
  fmt : BitVec 4
  imm : Word
  ecc : Nat
deriving DecidableEq, Repr

/-- The commands of the block, one constructor per row of the opcode table. -/
inductive Instr where
  /-- STALL_CREATE (R46): Host or Hub command that takes the lowest FREE directory slot, checks fields, enables and resources, and makes a HOT stall with page 0 of every layer. -/
  | stallCreate (c : Cmd)
  /-- STALL_QUERY (R38): Command that writes a 4 KiB copy of a stall's header, or its directory entry, to address A and returns state, EPOCH and COMMITTED_LEN. -/
  | stallQuery (c : Cmd)
  /-- STALL_CONFIG (R45): Command that applies the header fields selected by its mask to a stall. -/
  | stallConfig (c : Cmd)
  /-- STALL_PARK (R48): Command that starts a park: sets PARKING and writes the dirty remainder, header and seal records. -/
  | stallPark (c : Cmd)
  /-- PARK_WRITES_DONE (R48): The park's journal writes end; the directory entry moves to the Shed, pages go to quarantine and the stall becomes PARKED. -/
  | parkWritesDone (i : Nat)
  /-- STALL_REVIVE (R50): Command that starts a revive of a PARKED stall, or sends FETCH for a REMOTE stall with FETCH set. -/
  | stallRevive (c : Cmd)
  /-- REVIVE_READS_DONE (R50): The revive's header check and extent reads end; REVIVING clears and the stall enters HOT or WAITING. -/
  | reviveReadsDone (i : Nat) (bad : Option Nat) (tagOk : Bool)
  /-- REVIVE_RETRY (R51): Expiry of STL_REVIVE_RETRY for a revive deferred for lack of room; the revive is tried again. -/
  | reviveRetry (i : Nat)
  /-- STALL_MIGRATE (R62): Command that puts a stall in MOVING, sets the PREPARE lease and sends PREPARE with the header and image. -/
  | stallMigrate (c : Cmd)
  /-- STALL_RESUME (R44): Command that tokenises held and supplied input, clears HOST_PAUSE and makes a WAITING stall HOT. -/
  | stallResume (c : Cmd)
  /-- STALL_RETIRE (R40): Command that retires a HOT, WAITING or PARKED stall, keeping its header until freed. -/
  | stallRetire (c : Cmd)
  /-- STALL_FREE (R40): Command that returns a RETIRED slot to FREE and increments its generation. -/
  | stallFree (c : Cmd)
  /-- RETIRE_HOLD_EXPIRY (R40): Expiry of STL_RETIRE_HOLD for a RETIRED stall, which the stall engine then frees. -/
  | retireHoldExpiry (i : Nat)
  /-- STALL_FORGET (R40): Command that frees the directory entry of a REMOTE stall. -/
  | stallForget (c : Cmd)
  /-- BOOKS_AUDIT (R47): Long operation that stops allocation and budget reservation and waits for the transient terms to drain. -/
  | booksAudit (c : Cmd)
  /-- BOOKS_AUDIT_COMPARE (R47): Once every in-hand and in-flight term has drained, the audit compares each book and ends DONE or FAILED. -/
  | booksAuditCompare (slot : Nat)
  /-- WAIT_TIMEOUT (R52): The YT count reaches WAIT_START + WAIT_TIMEOUT for an unpinned WAITING stall, which then starts a park. -/
  | waitTimeout (i : Nat)
  /-- JOURNAL_RECORD_WRITE (R56): The stall engine writes a journal record of committed changes to the stall's Shed ports, reducing DIRTY_BYTES. -/
  | journalRecordWrite (i tokens : Nat) (bad : Option (Nat × Nat))
  /-- COMPOSITION_POINT (R371): At a round's composition point the scheduler orders candidates and applies the cap, dirty, pages and budget passes. -/
  | compositionPoint (t : Nat) (drafts : List (Nat × List Nat))
  /-- LAYER_RELOCATE_DONE (R90): A layer copy ends; LAYER_MAP and the layer entry are updated, old pages quarantined and EV_KV_LAYER_MOVED raised. -/
  | layerRelocateDone (i layer : Nat)
  /-- ROUND_LAUNCH (R339): The YT count reaches a round's launch count and the round's Cell context and stalls start their steps. -/
  | roundLaunch (t : Nat)
  /-- ROUND_END (R369): The round's context has halted or faulted and every stall has left RUNNING; DONE_TALLY is signalled and latency goals applied. -/
  | roundEnd (t : Nat)
  /-- RESULT_RECEIVED (R55): A tool RESULT message arrives; its input record is journalled, it is accepted, the stall revived if PARKED and the result tokenised. -/
  | resultReceived (m : Msg)
  /-- ANNOUNCE_RECEIVED (R54): An MST ANNOUNCE for TOOL_CALL_ID revives a PARKED stall to WAITING when REVIVE_ON_ANNOUNCE is set. -/
  | announceReceived (m : Msg)
  /-- PREPARE_RECEIVED (R62): A destination takes a FREE slot, enters MOVING with PREP_EPOCH e, rebuilds the copy and replies PREPARED, or refuses. -/
  | prepareReceived (m : Msg) (tagOk : Bool)
  /-- PREPARED_RECEIVED (R62): The source sets MIG_PHASE 3, sets the COMMIT lease and sends COMMIT. -/
  | preparedReceived (m : Msg)
  /-- COMMIT_RECEIVED (R62): The destination writes EPOCH e + 1, takes ownership, enters the carried state, publishes itself and replies COMMITTED. -/
  | commitReceived (m : Msg)
  /-- COMMITTED_RECEIVED (R62): The source enters REMOTE, maps the old handle, releases its pages and ends the migration DONE. -/
  | committedReceived (m : Msg)
  /-- ABORT_RECEIVED (R64): An ABORT ends a migration: the destination frees its copy or the source returns to PRIOR_STATE. -/
  | abortReceived (m : Msg)
  /-- SOURCE_PREP_LEASE_EXPIRY (R64): The source reaches its LEASE_EXPIRY without PREPARED, sends ABORT and returns to PRIOR_STATE. -/
  | sourcePrepLeaseExpiry (i : Nat)
  /-- SOURCE_COMMIT_LEASE_EXPIRY (R64): The source reaches its LEASE_EXPIRY after COMMIT without COMMITTED and acts by the destination's answer or down state. -/
  | sourceCommitLeaseExpiry (i : Nat)
  /-- DEST_LEASE_EXPIRY (R64): The destination reaches its LEASE_EXPIRY without COMMIT and sends OWNER_QUERY, promoting if the source is down. -/
  | destLeaseExpiry (i : Nat)
  /-- OWNER_QUERY_RETRY (R64): Every STL_LEASE_PREP ÷ 4 a waiting migration party sends OWNER_QUERY again. -/
  | ownerQueryRetry (i : Nat)
  /-- LEASE_RENEW_SEND (R65): While a migration is suspended the source renews both leases every STL_LEASE_PREP ÷ 4. -/
  | leaseRenewSend (i : Nat)
  /-- LEASE_RENEW_RECEIVED (R65): The destination takes the new LEASE_EXPIRY. -/
  | leaseRenewReceived (m : Msg)
  /-- FETCH_RECEIVED (R66): The owner answers a FETCH by migrating the stall to the requester or refusing. -/
  | fetchReceived (m : Msg)
  /-- FETCH_REFUSED_RECEIVED (R66): The requester completes its STALL_REVIVE with CS_NOT_OWNER and the carried reason. -/
  | fetchRefusedReceived (m : Msg)
  /-- REDIRECT_RECEIVED (R66): The requester updates its directory entry to the named pair and resends to it. -/
  | redirectReceived (m : Msg)
  /-- OWNER_QUERY_RECEIVED (R64): A device answers an ownership query with OWNER_ANSWER for the handle. -/
  | ownerQueryReceived (m : Msg)
  /-- OWNER_ANSWER_RECEIVED (R69): An ORPHANED or waiting holder uses the answer to drop its copy or settle a migration. -/
  | ownerAnswerReceived (m : Msg)
  /-- ORPHAN_TIMEOUT (R69): The YT count reaches ORPHAN_SINCE + STL_ORPHAN_TIMEOUT and the holders compare copies; the winner claims the stall. -/
  | orphanTimeout (i : Nat)
  /-- OWNER_NOTICE_RECEIVED (R429): A member holding a directory entry for the old pair updates it to the new owner. -/
  | ownerNoticeReceived (m : Msg)
  /-- ST_CMD (R293): Hub instruction that performs the stall command in a 64-byte block. -/
  | stCmd (n : Insn)
  /-- ST_QUANT (R96): Cell instruction that quantises an FP32 latent into a staged SF4 record, setting PAGE_SCALE for record 0. -/
  | stQuant (n : Insn)
  /-- ST_APPEND (R95): Cell instruction that scatters a staged record into its page and increments the layer's FILLED after its checks. -/
  | stAppend (n : Insn)
  /-- ST_RD (R295): Cell instruction that reads records and page scales into scratch, optionally to every Cell of the frame. -/
  | stRd (n : Insn)
  /-- ST_LEN (R293): Instruction that returns COMMITTED_LEN, SPEC_LEN, FILLED or STEP of a stall. -/
  | stLen (n : Insn)
  /-- ST_COMMIT (R97): Hub instruction that ends a step: sets lengths and NEXT_INPUT, queues refunds and applies the state transition. -/
  | stCommit (n : Insn)
  /-- ST_ABANDON (R99): Hub instruction that abandons a stall's step. -/
  | stAbandon (n : Insn)
  /-- GR_MASK_READY (R177): A mask that selection waited for becomes ready; the wait is added to GR_LATE_NS. -/
  | grMaskReady (i pos : Nat)
  /-- OUTPUT_QUEUE_ROOM (R430): A step held at step 9 because the tenant's output queue was full proceeds once the queue has room. -/
  | outputQueueRoom (i : Nat)
  /-- TEXT_BIND (R181): Command that replaces a stall's grammar, its stop set, or both. -/
  | textBind (c : Cmd)
  /-- TX_CFG_WRITE (R152): A write to a tenant's TX_CFG checks a table-mode configuration and stores VALID. -/
  | txCfgWrite (w : RegWrite) (t : Nat)
  /-- TX_T_WRITE (R152): A write to another TX_T register is discarded under a live session or rechecks the configuration. -/
  | txTWrite (w : RegWrite) (t j : Nat)
  /-- SELECT (R197): Command that merges sorted lists in Tier 1 and writes the top K, with optional payload gather. -/
  | select (c : Cmd)
  /-- VS_INIT (R227): Command that allocates an index's storage and loads an optional graph image. -/
  | vsInit (c : Cmd)
  /-- VS_INSERT (R220): Command that writes codes, metadata and side-list entries and then advances GEN. -/
  | vsInsert (c : Cmd)
  /-- VS_DELETE (R220): Command that marks IDs deleted at GEN + 1 and then advances GEN. -/
  | vsDelete (c : Cmd)
  /-- VS_QUERY (R222): Command that scans side lists, walks each shard's graph with the Strainers and merges the shard results. -/
  | vsQuery (c : Cmd)
  /-- VS_MERGE (R229): Long operation that builds the inactive graph slot from the active graph and side list. -/
  | vsMerge (c : Cmd)
  /-- VS_MERGE_START (R231): A QUEUED merge starts once every query using the inactive slot has ended. -/
  | vsMergeStart (slot : Nat)
  /-- VS_MERGE_COMMIT (R230): The build ends and one write switches ACTIVE, MERGE_GEN and the side lists. -/
  | vsMergeCommit (slot : Nat)
  /-- MEM_SCRUB (R147): Long operation that runs one patrol pass now. -/
  | memScrub (c : Cmd)
  /-- SHED_COMPACT (R141): Long operation that consolidates stalls' journals from the fullest-stale bands. -/
  | shedCompact (c : Cmd)
  /-- MEM_SPARE (R130): Long operation that starts sparing a named logical channel. -/
  | memSpare (c : Cmd)
  /-- PATROL_SCRUB_BLOCK (R128): The base die reads and decodes the next block of its pass and writes back corrections. -/
  | patrolScrubBlock (src : Option Nat) (h p : Nat) (bad : Option (Nat × Nat))
  /-- CHANNEL_COPY_DONE (R130): The channel copy ends and the logical channel is bound to the spare at the next composition point. -/
  | channelCopyDone (h : Nat)
  /-- EVAC_TIME_EXPIRY (R131): HB_EVAC_TIME elapses; the channel is retired and the page book total falls. -/
  | evacTimeExpiry (h ch : Nat)
  /-- SHED_PORT_TRAIN (R510): Shed port training starts once SH_CTRL.COMMIT and domain 545 are both set. -/
  | shedPortTrain
  /-- SHED_PORT_TRAIN_DONE (R132): A port ends training in service or out of it; STL_DIRTY_MAX is recomputed. -/
  | shedPortTrainDone (p : Nat) (found : ShedFound)
  /-- SHED_WEAR_MOVE (R137): Erase-count spread exceeds SH_WEAR_SPREAD and the port moves a block, raising EV_SH_RELOCATED. -/
  | shedWearMove (p : Nat)
  /-- SHED_READ_DISTURB_MOVE (R138): A block reaches SH_RD_LIMIT or many corrections and is moved. -/
  | shedReadDisturbMove (p k reads : Nat) (corrected : Bool)
  /-- SHED_SCRUB (R138): Per SH_SCRUB_PERIOD every valid block is read and failing blocks are moved. -/
  | shedScrub (p : Nat) (failing : List Nat)
  /-- PF_ENABLE (R144): Setting PF_CTRL.EN reads pinned objects into Tier 1. -/
  | pfEnable (w : RegWrite)
  /-- PF_LAYER_START (R144): When layer n starts, streamed objects of layer n + PF_DISTANCE are read into buffers. -/
  | pfLayerStart (n : RoundLayer) (selected : List Nat)
  /-- PF_OBJECT_ARRIVED (R144): A prefetch read completes and a waiting layer proceeds, adding to PF_WAIT_NS. -/
  | pfObjectArrived (k : Nat) (stripes : List (Nat × List Byte))
  /-- CTX_LOAD (R250): Command that copies a program image into a context slot and allocates its save area. -/
  | ctxLoad (c : Cmd)
  /-- CTX_LAUNCH (R253): Command that arms a context for a launch YT count. -/
  | ctxLaunch (c : Cmd)
  /-- CTX_STOP (R237): Command that disarms or stops a context. -/
  | ctxStop (c : Cmd)
  /-- CTX_QUERY (R252): Command that writes a context's 256-byte status block. -/
  | ctxQuery (c : Cmd)
  /-- CTX_FREE (R237): Command that frees a LOADED, HALTED, STOPPED or FAULTED context. -/
  | ctxFree (c : Cmd)
  /-- CONTEXT_LAUNCH_AT (R253): The launch YT count arrives and an ARMED context starts RUNNING. -/
  | contextLaunchAt (slot : Nat)
  /-- RUN_LIMIT_EXPIRY (R255): The YT count reaches launch + run limit and the context faults with RUN_LIMIT. -/
  | runLimitExpiry (slot : Nat)
  /-- SLICE_ENTRY_START (R362): A partition's slice entry begins and the chosen ready context runs. -/
  | sliceEntryStart (p : Nat)
  /-- SWITCH_WINDOW_OPEN (R363): The switch window opens; the outgoing context is stopped and saved and the incoming restored. -/
  | switchWindowOpen (p : Nat)
  /-- CT_NOP (R280): No operation. -/
  | ctNop (n : Insn)
  /-- CT_BR (R280): Relative branch. -/
  | ctBr (n : Insn)
  /-- CT_JMP (R280): Jump to a register address. -/
  | ctJmp (n : Insn)
  /-- CT_CALL (R280): Push return address and branch. -/
  | ctCall (n : Insn)
  /-- CT_RET (R280): Pop the return stack into PC. -/
  | ctRet (n : Insn)
  /-- CT_LOOP (R280): Decrement a register and branch while non-zero. -/
  | ctLoop (n : Insn)
  /-- CT_HALT (R281): Halt the Cell or thread; the context halts when all have halted. -/
  | ctHalt (n : Insn)
  /-- CT_TRAP (R280): Fault the context with cause TRAP. -/
  | ctTrap (n : Insn)
  /-- CT_CMP (R280): Compare and write a predicate. -/
  | ctCmp (n : Insn)
  /-- CT_PLOG (R280): Logical operation on predicates. -/
  | ctPlog (n : Insn)
  /-- SY_FENCE (R245): Wait until every earlier write is visible to later readers. -/
  | syFence (n : Insn)
  /-- SY_SIG (R345): Signal a tally B times. -/
  | sySig (n : Insn)
  /-- SY_WAIT (R345): Join a tally's queue and take B signals when at the head. -/
  | syWait (n : Insn)
  /-- TALLY_WAIT_TIMEOUT (R345): A tally wait's deadline passes and it completes with CS_TIMEOUT taking nothing. -/
  | tallyWaitTimeout (k : Nat)
  /-- SY_AT (R282): Wait until the YT count reaches a value. -/
  | syAt (n : Insn)
  /-- SY_AT_RESUME (R339): The YT count reaches the sy.at count and the Cell or thread resumes. -/
  | syAtResume (slot unit : Nat)
  /-- SY_YT (R282): Read the current YT count. -/
  | syYt (n : Insn)
  /-- MV_LI (R283): Load an immediate. -/
  | mvLi (n : Insn)
  /-- MV_MOV (R283): Copy a register of the same kind. -/
  | mvMov (n : Insn)
  /-- MV_ADD (R284): Scalar add modulo 2^64. -/
  | mvAdd (n : Insn)
  /-- MV_SUB (R284): Scalar subtract modulo 2^64. -/
  | mvSub (n : Insn)
  /-- MV_MUL (R284): Low 64 bits of a product. -/
  | mvMul (n : Insn)
  /-- MV_AND (R284): Bitwise AND. -/
  | mvAnd (n : Insn)
  /-- MV_OR (R284): Bitwise OR. -/
  | mvOr (n : Insn)
  /-- MV_XOR (R284): Bitwise XOR. -/
  | mvXor (n : Insn)
  /-- MV_SHL (R284): Shift left. -/
  | mvShl (n : Insn)
  /-- MV_SHR (R284): Logical shift right. -/
  | mvShr (n : Insn)
  /-- MV_SRA (R284): Arithmetic shift right. -/
  | mvSra (n : Insn)
  /-- MV_MINU (R284): Unsigned minimum. -/
  | mvMinu (n : Insn)
  /-- MV_MAXU (R284): Unsigned maximum. -/
  | mvMaxu (n : Insn)
  /-- MV_MINS (R284): Signed minimum. -/
  | mvMins (n : Insn)
  /-- MV_MAXS (R284): Signed maximum. -/
  | mvMaxs (n : Insn)
  /-- MV_LD (R285): Load of a selected width from a memory space. -/
  | mvLd (n : Insn)
  /-- MV_ST (R285): Store of a selected width to a memory space. -/
  | mvSt (n : Insn)
  /-- MV_TILE (R283): Build a tile descriptor from two scalars. -/
  | mvTile (n : Insn)
  /-- MV_TGET (R283): Read half of a tile descriptor. -/
  | mvTget (n : Insn)
  /-- MV_COPY (R283): Copy a tile with format conversion. -/
  | mvCopy (n : Insn)
  /-- MV_BCAST (R283): Broadcast a scalar to every lane. -/
  | mvBcast (n : Insn)
  /-- MV_GETL (R283): Read one vector lane. -/
  | mvGetl (n : Insn)
  /-- MV_SETL (R283): Write one vector lane. -/
  | mvSetl (n : Insn)
  /-- MV_SEND (R286): Send an Aisle message once credits are held. -/
  | mvSend (n : Insn)
  /-- MV_RECV (R286): Receive the next Aisle message from a sender, copying or adding it. -/
  | mvRecv (n : Insn)
  /-- AISLE_MESSAGE_ARRIVE (R286): An Aisle message reaches a waiting receiver, which completes its mv.recv. -/
  | aisleMessageArrive (k : Nat)
  /-- MX_MMA (R288): Matrix multiply-accumulate into an accumulator. -/
  | mxMma (n : Insn)
  /-- MX_LD (R287): Load a tile into an accumulator. -/
  | mxLd (n : Insn)
  /-- MX_ST (R287): Store an accumulator to a tile with conversion. -/
  | mxSt (n : Insn)
  /-- MX_ZERO (R287): Clear an accumulator. -/
  | mxZero (n : Insn)
  /-- VX_FMA (R289): Lane-wise fused multiply-add. -/
  | vxFma (n : Insn)
  /-- VX_ADD (R290): Lane-wise FP32 add. -/
  | vxAdd (n : Insn)
  /-- VX_SUB (R290): Lane-wise FP32 subtract. -/
  | vxSub (n : Insn)
  /-- VX_MUL (R290): Lane-wise FP32 multiply. -/
  | vxMul (n : Insn)
  /-- VX_MAX (R290): Lane-wise FP32 maximum. -/
  | vxMax (n : Insn)
  /-- VX_MIN (R290): Lane-wise FP32 minimum. -/
  | vxMin (n : Insn)
  /-- VX_NEG (R290): Lane-wise sign flip. -/
  | vxNeg (n : Insn)
  /-- VX_ABS (R290): Lane-wise absolute value. -/
  | vxAbs (n : Insn)
  /-- VX_EXP (R316): Lane-wise correctly rounded exponential. -/
  | vxExp (n : Insn)
  /-- VX_LOG (R316): Lane-wise correctly rounded logarithm. -/
  | vxLog (n : Insn)
  /-- VX_RCP (R316): Lane-wise reciprocal. -/
  | vxRcp (n : Insn)
  /-- VX_RSQRT (R316): Lane-wise reciprocal square root. -/
  | vxRsqrt (n : Insn)
  /-- VX_RED_SUM (R322): Sum of lanes in the fixed tree order. -/
  | vxRedSum (n : Insn)
  /-- VX_RED_MAX (R322): Maximum of lanes in the fixed tree order. -/
  | vxRedMax (n : Insn)
  /-- VX_RED_MIN (R322): Minimum of lanes in the fixed tree order. -/
  | vxRedMin (n : Insn)
  /-- VX_CVT (R291): Pack FP32 lanes into a format or unpack them. -/
  | vxCvt (n : Insn)
  /-- VX_RA (R289): Read 64 accumulator elements into a vector. -/
  | vxRa (n : Insn)
  /-- VX_WA (R289): Write a vector into 64 accumulator elements. -/
  | vxWa (n : Insn)
  /-- VX_INS (R189): Offer 64 values to the Cell's top list. -/
  | vxIns (n : Insn)
  /-- VX_LMERGE (R190): Merge another Cell's list into this Cell's list. -/
  | vxLmerge (n : Insn)
  /-- VX_LGET (R289): Write the list as 64 entries to scratch. -/
  | vxLget (n : Insn)
  /-- VX_LNEXT (R292): Set the floor to the last entry and clear the list. -/
  | vxLnext (n : Insn)
  /-- VX_LCLR (R289): Clear the list and floor. -/
  | vxLclr (n : Insn)
  /-- TX_TOK (R297): Tokenise bytes or a tool-result message into a stall's input queue. -/
  | txTok (n : Insn)
  /-- TX_DETOK (R297): Write a token's bytes to a buffer. -/
  | txDetok (n : Insn)
  /-- TX_STOP (R166): Run the stop matcher on a token for a stall. -/
  | txStop (n : Insn)
  /-- TX_CALL (R168): Apply tool-call opening, fragmenting and closing to a token. -/
  | txCall (n : Insn)
  /-- TX_BIND (R297): Perform TEXT_BIND from a command block. -/
  | txBind (n : Insn)
  /-- GR_MASK (R175): Compute the grammar mask at a draw position and hand it to selection. -/
  | grMask (n : Insn)
  /-- GR_ADV (R174): Advance the committed grammar configuration by a token. -/
  | grAdv (n : Insn)
  /-- SL_MERGE (R299): Merge lists under a SELECT-style request block. -/
  | slMerge (n : Insn)
  /-- SL_GATHER (R196): Gather payload rows for a result's slots. -/
  | slGather (n : Insn)
  /-- SL_DRAW (R299): Select the token at a draft position from a logit row or list. -/
  | slDraw (n : Insn) (late : Bool)
  /-- SL_RAND (R204): Return the Seedwheel pair for a key, counter and stream word. -/
  | slRand (n : Insn)
  /-- VS_CMD (R301): Perform a vector search command from a command block. -/
  | vsCmd (n : Insn)
  /-- NW_SEND (R302): Send a tenant MST message under its traffic accounts. -/
  | nwSend (n : Insn)
  /-- NW_RECV (R303): Take the next message from the tenant's inbox. -/
  | nwRecv (n : Insn)
  /-- NW_RECV_TIMEOUT (R303): An nw.recv deadline passes with no message and it completes with CS_TIMEOUT. -/
  | nwRecvTimeout (slot unit : Nat)
  /-- SC_LAUNCH (R304): Arm a Cell context of the same tenant for a launch count. -/
  | scLaunch (n : Insn)
  /-- SC_ROUND (R368): Check a round descriptor and schedule its composition and launch. -/
  | scRound (n : Insn)
  /-- SC_STOP (R304): Stop a context of the same tenant. -/
  | scStop (n : Insn)
  /-- E_REQUEST_COMPLETE (R278): An engine finishes an E-class request and writes its destination registers. -/
  | eRequestComplete (k : Nat)
  /-- TENANT_TEARDOWN (R378): Long operation that disables a tenant and removes its contexts, stalls, tallies, threads, pages and account. -/
  | tenantTeardown (c : Cmd)
  /-- TN_CTRL_WRITE (R355): A write to TN_CTRL stores EN only with a valid partition and installed keys. -/
  | tnCtrlWrite (w : RegWrite) (t : Nat)
  /-- SCH_PART_WRITE (R358): A write to SCH_PART checks the Comb set before storing VALID. -/
  | schPartWrite (w : RegWrite) (p : Nat)
  /-- SCH_SLICE_WRITE (R361): A write to a slice table entry or start takes effect at the next cycle start. -/
  | schSliceWrite (w : RegWrite) (p : Nat) (e : Option Nat)
  /-- SCH_LATENCY_WRITE (R372): A write of GOAL 0 resets SCH_CAP to 65,535. -/
  | schLatencyWrite (w : RegWrite) (t : Nat)
  /-- ACCOUNT_PERIOD_END (R373): An accounting period ends: refunds applied, CONSUMED copied and every account regranted. -/
  | accountPeriodEnd
  /-- TN_PERIOD_WRITE (R373): A write to TN_PERIOD takes effect at the end of the period in progress. -/
  | tnPeriodWrite (w : RegWrite)
  /-- TN_GRANT_WRITE (R373): A write to TN_GRANT takes effect at the next period end. -/
  | tnGrantWrite (w : RegWrite) (t : Nat)
  /-- NOP (R398): Command that returns the YT count. -/
  | nop (c : Cmd)
  /-- OP_QUERY (R398): Command that returns a long operation's state and progress. -/
  | opQuery (c : Cmd)
  /-- OP_SUSPEND (R637): Command that suspends a long operation at its next safe point. -/
  | opSuspend (c : Cmd)
  /-- OP_RESUME (R407): Command that resumes a suspended long operation. -/
  | opResume (c : Cmd)
  /-- OP_CANCEL (R637): Command that cancels a long operation where its rules allow. -/
  | opCancel (c : Cmd)
  /-- OP_RELEASE (R410): Command that frees an ended operation's slot. -/
  | opRelease (c : Cmd)
  /-- OP_SAFE_POINT (R407): A SUSPENDING operation reaches its safe point and enters SUSPENDED or CANCELLING. -/
  | opSafePoint (slot : Nat)
  /-- OP_HOLD_EXPIRY (R410): GC_OP_HOLD elapses after an operation's end and its slot becomes FREE. -/
  | opHoldExpiry (slot : Nat)
  /-- TIER1_ALLOC (R399): Command that allocates a contiguous run of granules to the tenant. -/
  | tier1Alloc (c : Cmd)
  /-- TIER1_FREE (R399): Command that releases the tenant's granules to quarantine. -/
  | tier1Free (c : Cmd)
  /-- TIER1_WRITE (R400): Command that copies host bytes into Tier 1. -/
  | tier1Write (c : Cmd)
  /-- TIER1_READ (R400): Command that copies Tier 1 bytes to host memory. -/
  | tier1Read (c : Cmd)
  /-- PORT_DETACH (R412): Long operation that stops a port's queues, drains requests and frees the port for another host. -/
  | portDetach (c : Cmd)
  /-- SQ_TAIL_DOORBELL (R391): A write of a new submission tail, or ERROR for an invalid value. -/
  | sqTailDoorbell (port q value : Nat)
  /-- CQ_HEAD_DOORBELL (R391): A write of a new completion head that consumes records. -/
  | cqHeadDoorbell (port q value : Nat)
  /-- Q_CTRL_WRITE (R388): A write to Q_CTRL enables a queue after its checks or disables it. -/
  | qCtrlWrite (w : RegWrite) (q : Nat)
  /-- QUEUE_IDLE (R390): A disabled queue's last fetched command writes its first record and IDLE becomes 1. -/
  | queueIdle (q : Nat)
  /-- COMMAND_FETCH (R392): The device fetches the next command round-robin once the completion ring has room. -/
  | commandFetch (port : Nat) (block : Option (List Byte))
  /-- MSIX_COALESCE_EXPIRY (R405): COAL_US passes since the first unsignalled record and MSI-X is sent. -/
  | msixCoalesceExpiry (q : Nat)
  /-- GC_PORT_BIND_WRITE (R387): A write to a port's tenant set unbinds queues or is refused under a locked TDI. -/
  | gcPortBindWrite (w : RegWrite) (n word : Nat)
  /-- HOST_LINK_UP (R411): A host port's link trains and EV_HQ_LINK_UP is raised. -/
  | hostLinkUp (n width rate : Nat)
  /-- HOST_LINK_LOSS (R413): A link loss, PERST_N or hot reset performs detach steps 1 to 4 keeping bindings. -/
  | hostLinkLoss (n : Nat)
  /-- FUNCTION_LEVEL_RESET (R413): FLR performs detach steps 1 to 4 with the link kept up. -/
  | functionLevelReset (n : Nat)
  /-- D3HOT_ENTRY (R413): Entry to D3hot performs detach steps 1 and 2. -/
  | d3hotEntry (n : Nat)
  /-- D0_RETURN (R413): Return to D0 acts as a function level reset. -/
  | d0Return (n : Nat)
  /-- FATAL_EVENT (R414): A FATAL event asserts FATAL_N and silences every host and network port. -/
  | fatalEvent (code : Nat)
  /-- SPDM_REQUEST (R451): An SPDM request over a port's DOE mailbox is answered by the responder. -/
  | spdmRequest (r : SpdmReq)
  /-- TDISP_LOCK_INTERFACE (R452): LOCK_INTERFACE locks the port's TDI and its GC_PORT_BIND. -/
  | tdispLockInterface (n : Nat)
  /-- MST_DATAGRAM_RECEIVE (R427): A received MST datagram is checked, policed and passed to its consumer or discarded. -/
  | mstDatagramReceive (p : Nat) (b : List Byte)
  /-- ACK_RECEIVED (R425): An ACK releases acknowledged datagrams and returns credits by FREED. -/
  | ackReceived (m : Msg)
  /-- ACCEPT_RECEIVED (R424): An ACCEPT completes an Accept-type message at its sender. -/
  | acceptReceived (m : Msg)
  /-- RETRANSMIT_TIMER (R423): NW_RETX elapses for an unacknowledged datagram, which is sent again. -/
  | retransmitTimer (k q : Nat)
  /-- ACCEPT_TIMER (R424): NW_ACCEPT elapses without ACCEPT and a tenant message is sent again. -/
  | acceptTimer (k : Nat)
  /-- ENDPOINT_TIMEOUT (R426): No endpoint datagram is acknowledged for NW_EP_TIMEOUT and the flow is reset. -/
  | endpointTimeout (t : Nat) (tool : Bool)
  /-- WAGGLE_RECEIVED (R340): A Waggle is accepted and the share armed, or refused as late with WAGGLE_REFUSE. -/
  | waggleReceived (m : Msg)
  /-- WAGGLE_REFUSE_RECEIVED (R341): The announcer learns a participant refused the round. -/
  | waggleRefuseReceived (m : Msg)
  /-- HELLO_SEND (R432): Every NW_HELLO.PERIOD a member sends HELLO to every other member. -/
  | helloSend
  /-- HELLO_RECEIVED (R432): A member's HELLO updates its marks of other members. -/
  | helloReceived (m : Msg)
  /-- MEMBER_MISS_TIMEOUT (R432): No datagram from a member for MISS × PERIOD and it is marked not present. -/
  | memberMissTimeout (d : Nat)
  /-- PORT_TRANSMIT (R435): A port idle for transmission sends control traffic or the eligible head with the smallest finish time. -/
  | portTransmit (p : Nat)
  /-- TS_REFILL_TICK (R436): Every TS_REFILL the committed and peak buckets are refilled. -/
  | tsRefillTick
  /-- TS_RATE_WRITE (R437): A write to TS_RATE or TS_DEPTH takes effect at the next refill. -/
  | tsRateWrite (w : RegWrite) (p t k : Nat) (depth : Bool)
  /-- GATE_ENTRY_BOUNDARY (R438): The active gate list moves to its next entry. -/
  | gateEntryBoundary (p : Nat)
  /-- GATE_LOAD (R439): Setting LOAD marks the pending gate list and start PENDING. -/
  | gateLoad (w : RegWrite) (p : Nat)
  /-- GATE_CANCEL (R439): CANCEL clears PENDING before takeover. -/
  | gateCancel (w : RegWrite) (p : Nat)
  /-- GATE_TAKEOVER (R439): At the takeover count the pending list replaces the active one. -/
  | gateTakeover (p : Nat)
  /-- MAP_SET (R441): Management command that writes Yard map entries and increments NW_MAP_GEN. -/
  | mapSet (c : Cmd)
  /-- LANE_SPARE (R441): Management command that spares a named network lane. -/
  | laneSpare (c : Cmd)
  /-- NET_LANE_FAIL (R419): A lane fails training, loses signal or exceeds FEC errors; the port goes down and a wired spare is bound. -/
  | netLaneFail (p i : Nat)
  /-- NET_LINK_UP (R443): A network port's link comes up. -/
  | netLinkUp (p : Nat)
  /-- NET_LINK_DOWN (R443): A network port's link goes down. -/
  | netLinkDown (p : Nat)
  /-- NEIGHBOR_SOLICITATION (R420): An IPv6 neighbour solicitation for the device's address is answered. -/
  | neighborSolicitation (p : Nat) (target : BitVec 128)
  /-- ICMP_ECHO_REQUEST (R420): An ICMPv6 echo request is answered. -/
  | icmpEchoRequest (p : Nat) (dest : BitVec 128) (b : List Byte)
  /-- PTP_MESSAGE (R334): A PTP message is timestamped and used for source selection and offset measurement. -/
  | ptpMessage (m : PtpMsg)
  /-- MACSEC_FRAME (R468): A received frame is verified by its SecY, or dropped as unprotected or from a 65th peer. -/
  | macsecFrame (p : Nat) (f : MacFrame)
  /-- YT_RUN (R331): Setting YT_CTRL.RUN starts the count at YT_SET. -/
  | ytRun (w : RegWrite)
  /-- YT_TICK (R332): Each timebase tick adds 1 + RATE × 10^−9 to the count. -/
  | ytTick
  /-- PPS_EDGE (R335): A YT_PPS rising edge latches YT_PPS_STAMP and disciplines the count. -/
  | ppsEdge
  /-- PPS_MISSING (R335): No PPS edge for 1.5 s sets HOLDOVER and raises EV_YT_PPS_MISSING. -/
  | ppsMissing
  /-- TL_HOST_SIG (R345): A host write to TL_HOST_SIG signals a tally. -/
  | tlHostSig (w : RegWrite)
  /-- TL_BIND_WRITE (R344): A binding change cancels pending waits and zeroes the tally. -/
  | tlBindWrite (w : RegWrite) (k : Nat)
  /-- TL_SNAP_SEL_WRITE (R349): A write latches a tally's COUNT, SIG, TAKEN and waiters. -/
  | tlSnapSelWrite (w : RegWrite)
  /-- NW_FLOW_SEL_WRITE (R425): A write latches the three credit terms of a flow. -/
  | nwFlowSelWrite (w : RegWrite)
  /-- SEC_KEY_LOAD (R457): Command that opens a key blob and installs its keys. -/
  | secKeyLoad (c : Cmd)
  /-- SEC_KEY_CLEAR (R459): Command that erases a target's keys. -/
  | secKeyClear (c : Cmd)
  /-- SEC_MODEL_IMPORT (R463): Long operation that decrypts import chunks and stripes the model into the Shed. -/
  | secModelImport (c : Cmd)
  /-- SEC_CERT_LOAD (R448): Command that loads the certificate chain or a debug token. -/
  | secCertLoad (c : Cmd)
  /-- SEC_SCRUB_CERT (R473): Command that copies a tenant's scrub certificate to host memory. -/
  | secScrubCert (c : Cmd)
  /-- SEC_RANDOM (R466): Command that writes random bytes to host memory. -/
  | secRandom (c : Cmd)
  /-- ENTROPY_HEALTH_FAIL (R465): The entropy source fails a health test, raising the FATAL EV_SEC_ENTROPY_FAIL. -/
  | entropyHealthFail
  /-- SEC_COMMIT (R449): Setting SEC_CTRL.COMMIT fixes measurements 1 to 9 and takes measurement 7. -/
  | secCommit (w : RegWrite)
  /-- STL_COMMIT (R632): Setting STL_CTRL.COMMIT checks and counts the directory and header-pool ranges. -/
  | stlCommit (w : RegWrite)
  /-- SCH_CTX_COMMIT (R632): Setting SCH_CTX_CTRL.COMMIT checks and counts the context table range. -/
  | schCtxCommit (w : RegWrite)
  /-- NW_COMMIT (R632): Setting NW_CTRL.COMMIT checks the Yard map range and locks network LCK fields. -/
  | nwCommit (w : RegWrite)
  /-- SH_COMMIT (R510): Setting SH_CTRL.COMMIT locks PORT_EN and enables Shed training. -/
  | shCommit (w : RegWrite)
  /-- PF_COMMIT (R148): Setting PF_CTRL.COMMIT locks the prefetch object table. -/
  | pfCommit (w : RegWrite)
  /-- GC_PORT_COMMIT (R494): Setting GC_PORT_CTRL.COMMIT locks port configuration and ends bring-up port rights. -/
  | gcPortCommit (w : RegWrite)
  /-- YT_COMMIT (R352): Setting YT_CTRL.COMMIT locks YT_SET. -/
  | ytCommit (w : RegWrite)
  /-- CK_COMMIT (R531): Setting CK_CTRL.COMMIT locks the pace table and monitor configuration. -/
  | ckCommit (w : RegWrite)
  /-- PW_COMMIT (R561): Setting PW_CTRL.COMMIT locks FIXED_W and PW_AVS. -/
  | pwCommit (w : RegWrite)
  /-- CP_COMMIT (R596): Setting CP_CTRL.COMMIT locks CP_SLOT_CFG. -/
  | cpCommit (w : RegWrite)
  /-- STL_DIRTY_LIMIT_WRITE (R60): A write keeps a new dirty limit, raised to 64 MiB, capped by STL_DIRTY_MAX. -/
  | stlDirtyLimitWrite (w : RegWrite)
  /-- KV_SHAPE_WRITE (R77): A write to a latent shape is discarded while in use or stored with VALID checked. -/
  | kvShapeWrite (w : RegWrite) (n : Nat)
  /-- DEV_RST_RELEASE (R495): DEV_RST_N is released with PWRGD_IN high and bring-up starts in ROM. -/
  | devRstRelease
  /-- ROM_DONE (R496): Clocks, fuses and the security engine pass; identity keys are derived and the device enters LOAD. -/
  | romDone (r : RomResult)
  /-- BU_LOAD_START (R498): Setting START reads an image of the given kind from host memory. -/
  | buLoadStart (w : RegWrite)
  /-- BU_LOAD_DONE (R503): An image read ends; it is checked and LOADED set or BU_ERR recorded. -/
  | buLoadDone (b : Option (List Byte))
  /-- BU_GO (R504): GO takes measurements, starts firmware and enters TRAIN, or in COMPARE accepts the digest. -/
  | buGo (w : RegWrite)
  /-- BU_TRAIN_DONE (R505): Every channel and Aisle link has trained or failed and the quick test starts. -/
  | buTrainDone (l : List FoundUnit)
  /-- BU_TEST_DONE (R506): The quick test ends; logical units are bound, the Survey built and the digest compared. -/
  | buTestDone (l : List FoundUnit) (engines : List Nat)
  /-- BU_READY_REQ (R511): READY_REQ enters READY when every condition holds. -/
  | buReadyReq (w : RegWrite)
  /-- BU_STEP_TIMEOUT (R513): A device step runs past twice its maximum and bring-up enters FAILED. -/
  | buStepTimeout (k : Nat)
  /-- MONITOR_WINDOW_END (R521): A monitor window ends; counts are written and failed sources judged. -/
  | monitorWindowEnd (x : MonitorWindow)
  /-- MISSING_EDGE (R521): A source shows no edge for 1 µs and fails at once. -/
  | missingEdge (k : Nat)
  /-- CK_RETURN (R523): Writing CK_CTRL.RETURN moves consumers back to returned sources. -/
  | ckReturn (w : RegWrite)
  /-- CK_RATE_CLR (R532): Writing RATE_CLR resets every MIN_KHZ. -/
  | ckRateClr (w : RegWrite)
  /-- FMEAS_START (R525): Setting START begins a frequency count over the gate. -/
  | fmeasStart (w : RegWrite)
  /-- FMEAS_DONE (R525): The gate ends and CK_FMEAS_COUNT holds the count. -/
  | fmeasDone (count : Nat)
  /-- CK_PACE_WRITE (R526): A write to a pace level is stored only if the table stays monotonic. -/
  | ckPaceWrite (w : RegWrite) (l : Nat)
  /-- PACE_TARGET_CHANGE (R529): A change of REQ, LIMIT or DEV_LIMIT starts a pace move of the domain. -/
  | paceTargetChange (w : RegWrite) (d : Nat)
  /-- PACE_POLL (R529): Every POLL_US the rail read-back is checked and the cap raised once within tolerance. -/
  | pacePoll (d mv : Nat)
  /-- PACE_SETTLE_TIMEOUT (R530): The read-back stays outside TOL_MV for MAX_US and VFAIL is set. -/
  | paceSettleTimeout (d : Nat)
  /-- AVSBUS_DONE (R545): An AVSBus transaction completes or fails. -/
  | avsbusDone (d : Nat) (ok : Bool)
  /-- GATE_IDLE_SLEEP (R534): A group idle for SLEEP_NS enters sleep. -/
  | gateIdleSleep (g : Nat)
  /-- GATE_IDLE_DEEP (R534): A group idle for DEEP_NS enters deep sleep. -/
  | gateIdleDeep (g : Nat)
  /-- GATE_WAKE (R534): A request wakes a sleeping group, served after the wake time. -/
  | gateWake (g : Nat)
  /-- GATE_SCHEDULED_WAKE (R535): A group is woken at a stated YT count less its wake time. -/
  | gateScheduledWake (g : Nat)
  /-- PWARN_ASSERT (R555): PWARN_N is latched; rounds stop and the emergency park begins. -/
  | pwarnAssert
  /-- POWER_SAFE (R557): Every dirty remainder and seal is written; SAFE is set and EV_PW_SAFE raised. -/
  | powerSafe
  /-- PARK_LATE (R557): SAFE not reached 9.5 ms after the warning raises EV_PW_PARK_LATE. -/
  | parkLate
  /-- PWARN_DEASSERT (R558): PWARN_N goes high and the resume wait starts. -/
  | pwarnDeassert
  /-- PW_RESUME_EXPIRY (R558): PWARN_N stays high for PW_RESUME and the device resumes rounds and maintenance. -/
  | pwResumeExpiry
  /-- PWRGD_FALL (R559): PWRGD_IN falls; flash programming stops and the device resets within 20 µs. -/
  | pwrgdFall
  /-- TELEMETRY_SAMPLE (R547): Every PW_TELEM the rails are read, PW_POWER updated and the power limit applied. -/
  | telemetrySample (l : List RailReading)
  /-- DROOP_SAMPLE (R548): Every 100 ns the droop sensors sample; sustained sag raises the SUPPLY limit. -/
  | droopSample (l : List (Nat × Nat))
  /-- SUPPLY_LIMIT_RELAX (R548): After 100 ms with no sag or overvoltage the SUPPLY limit falls one level. -/
  | supplyLimitRelax (d : Nat)
  /-- OVERVOLT (R550): A core rail above VID_AT + 100 mV for 10 µs sets SUPPLY to 7. -/
  | overvolt (d : Nat)
  /-- BROWNOUT (R549): A core rail below 0.45 V for 1 µs raises the FATAL EV_PW_BROWNOUT. -/
  | brownout (d : Nat)
  /-- THERMAL_STEP (R552): Every PW_TJ.STEP_US each domain's THERM limit rises or falls; 110 °C trips. -/
  | thermalStep (l : List (Nat × Int))
  /-- HANDSHAKE_TIMEOUT (R565): A handshake step does not complete within 100 µs and the unit is judged failed. -/
  | handshakeTimeout (u : Part)
  /-- REPAIR_WINDOW_RESTART (R565): Corrected-word counters restart at each multiple of RP_WINDOW. -/
  | repairWindowRestart
  /-- SELF_TEST_PERIOD (R571): Every RP_TEST_PERIOD free spares are tested. -/
  | selfTestPeriod (bad : List Part)
  /-- RP_RETIRE (R575): Management command that retires a named physical unit. -/
  | rpRetire (c : Cmd)
  /-- SELF_TEST (R575): Long operation that tests selected free units. -/
  | selfTest (c : Cmd)
  /-- RP_LOG_ACK_WRITE (R573): A write acknowledges repair log entries, capped at WRITTEN. -/
  | rpLogAckWrite (w : RegWrite)
  /-- CP_TAKE (R583): Management long operation that takes a checkpoint into the older slot. -/
  | cpTake (c : Cmd)
  /-- CP_PERIODIC_TRIGGER (R583): A whole multiple of CP_PERIOD starts or skips a checkpoint. -/
  | cpPeriodicTrigger
  /-- CP_FREEZE_DONE (R585): Rounds have ended and contexts are switched out; the journal drain starts. -/
  | cpFreezeDone
  /-- CP_DRAIN_DONE (R585): STL_DIRTY_NOW reaches 0; bands close, BAND_MARK is taken and shards are written. -/
  | cpDrainDone
  /-- CP_WRITE_DONE (R585): Shards and table are written and the commit record is written last. -/
  | cpWriteDone
  /-- CP_RESTORE (R587): Management long operation that checks and reads a slot back into Tier 1. -/
  | cpRestore (c : Cmd)
  /-- CP_RESTORE_READS_DONE (R588): The last run is read and the restored state becomes live in one window. -/
  | cpRestoreReadsDone (bad : Option (Nat × Bool))
  /-- CP_MIRROR (R591): Command that pairs a primary range with a mirror and copies it. -/
  | cpMirror (c : Cmd)
  /-- CP_UNMIRROR (R595): Command that dissolves a mirror pair. -/
  | cpUnmirror (c : Cmd)
  /-- RING_HEAD_WRITE (R605): A write to RING_HEAD consumes event ring entries. -/
  | ringHeadWrite (w : RegWrite) (r : Nat)
  /-- RING_CTRL_WRITE (R603): A write to RING_CTRL enables an event ring after its checks. -/
  | ringCtrlWrite (w : RegWrite) (r : Nat)
  /-- EV_MASK_WRITE (R599): A write sets event masks, ignoring FATAL, NMI and reserved bits. -/
  | evMaskWrite (w : RegWrite) (k : Nat)
  /-- FLAG_CLEAR (R609): A 64-bit W1C write clears flags; a simultaneous set wins. -/
  | flagClear (w : RegWrite) (off : Nat)
  /-- RING_COALESCE_EXPIRY (R607): A ring's COAL_US passes and its MSI-X is sent. -/
  | ringCoalesceExpiry (r : Nat)
  /-- I3C_READ (R629): An I3C private write of an offset and read returns an always-on register. -/
  | i3cRead (off : Nat)
  /-- REGISTER_WRITE (R6): A write to a register without a row of its own, applied by its access code. -/
  | registerWrite (w : RegWrite) (off : Nat)
  /-- DEV_RST_ASSERT (R495): Assertion of DEV_RST_N resets the whole device, whatever bring-up state it is in, including FAILED. -/
  | devRstAssert
  /-- QUARANTINE_SCRUB_DONE (R49): Groom firmware finishes scrubbing a quarantined page, which returns to the free list. -/
  | quarantineScrubDone (start len : Nat)
  /-- AISLE_LINK_FAIL (R568): A Hive's Aisle link fails in service and the Hive becomes ABSENT, with mirror promotion and stall recovery. -/
  | aisleLinkFail (h : Nat)
  /-- DRAM_CHANNEL_TRAIN_FAIL (R129): A DRAM channel fails link training while the device is in service, starting sparing or retirement. -/
  | dramChannelTrainFail (h p : Nat) (readable : Bool)
  /-- SHED_PORT_DOWN (R132): A trained Shed port stops answering, leaves service and raises EV_SH_PORT_DOWN, changing STL_DIRTY_MAX. -/
  | shedPortDown (p : Nat)
  /-- GROOM_PAIR_DISAGREE (R565): The two lockstep cores of a Groom pair disagree, and pair 1 takes over under R566. -/
  | groomPairDisagree (p : Nat)
  /-- TDISP_START_INTERFACE (R453): A TDISP START_INTERFACE request moves a port's TDI from CONFIG_LOCKED to RUN, which can add the port to SEC_CONF PORTS. -/
  | tdispStartInterface (n : Nat)
  /-- TDISP_STOP_INTERFACE (R452): A TDISP STOP_INTERFACE request returns a port's TDI to CONFIG_UNLOCKED, removing it from SEC_CONF PORTS. -/
  | tdispStopInterface (n : Nat)
  /-- PTP_SOURCE_LOSS (R333): The selected PTP time source is lost, and with SRC 3 YT_PPS disciplines the count in holdover. -/
  | ptpSourceLoss
  /-- MKA_LIVE_PEER_LOSS (R468): A SecY loses its last live MKA peer and raises EV_SEC_MACSEC_DOWN. -/
  | mkaLivePeerLoss (p : Nat)
  /-- HOST_COMPLETION_TIMEOUT (R412): A device-issued host memory request reaches the PCIe completion timeout, failing the command or putting a queue in ERROR. -/
  | hostCompletionTimeout (r : HostRequest)
  /-- CP_MIRROR_COPY_DONE (R591): The primary-to-mirror copy of a pair ends, the pair becomes mirrored and CP_MIRROR completes. -/
  | cpMirrorCopyDone (num : Nat)
  /-- SELF_TEST_UNIT_DONE (R575): The test of one unit by a SELF_TEST operation ends, recording findings and letting the operation end DONE after the last unit. -/
  | selfTestUnitDone (slot : Nat) (u : Part) (bad : Bool)
  /-- MODEL_IMPORT_CHUNK_DONE (R463): One import chunk has been read, authenticated and striped into the Shed; after the last chunk the import ends DONE, or FAILED on a bad tag. -/
  | modelImportChunkDone (slot : Nat) (b : Option (List Byte))
  /-- COMPACT_STALL_DONE (R141): The consolidated journal of one stall is written and supersedes its old extents, ending compaction after the last stall. -/
  | compactStallDone (src : Option Nat) (i : Nat)
deriving DecidableEq, Repr

end Sys2Proof
end

