-- ==== Sys2Proof/Decode.lean ====
section
/-! DEFINITION. The command a table word spells. The opcode table gives no row any bits: a command comes as an operand record
and not as a word. -/

namespace Sys2Proof

/-- The command that the `nbits` bits of `w` spell. No row of the table has bits, so none does. -/
def decodeTableWord (_nbits _w : Nat) : Option Instr := none

end Sys2Proof
end

