-- ==== Sys2Proof/Config.lean ====
section
/-! DEFINITION. What an implementation fixes, and the values the spec leaves open. Every constant here is opaque: nothing can
evaluate it, so a statement that holds, holds whatever its value. -/

namespace Sys2Proof

/-- The ordering code of the device (R2): true for the MRM-X16-K48, false for the MRM-X16-K32. -/
opaque Config.isK48 : Bool

/-- A free value: what stands where the spec states no value, drawn with a counter of the state. -/
opaque Config.freeValue : Nat → Word

/-- The device's serial number, from its fuses (R446). -/
opaque Config.serial : Word

/-- One less than the Aisle messages that a receiver's buffer takes (R15); the spec gives no number. -/
opaque Config.aisleCredits : Nat

/-- The silicon revision (R478, SV_PART). -/
opaque Config.revision : Nat

/-- The bring-up port straps as sampled (R494): a two-bit port number. -/
opaque Config.strapPort : Fin 4

/-- The number by which EV_HQ_QUEUE_ERROR reports a reason of R394; the spec gives the reasons no numbers. -/
opaque Config.queueErrorReason : Nat → Nat

/-- AES-256-XTS of one data unit (R122): encryption key, tweak, plaintext to ciphertext. -/
opaque Config.xtsEncrypt : (key tweak : List Byte) → List Byte → List Byte

/-- AES-256-CMAC (R122): integrity key and message to the 128 bits of the tag. -/
opaque Config.cmacBits : (key message : List Byte) → BitVec 128

/-- The 16 bytes of an AES-256-CMAC. -/
def Config.cmac (key message : List Byte) : List Byte := (List.range 16).map (fun i => (Config.cmacBits key message).extractLsb' (8 * i) 8)

/-- SHA-384 (R449, R489): the digest's 384 bits. -/
opaque Config.sha384Bits : List Byte → BitVec 384

/-- The digest's 48 bytes. -/
def Config.sha384 (b : List Byte) : List Byte := (List.range 48).map (fun i => (Config.sha384Bits b).extractLsb' (8 * i) 8)

/-- The integrity tag over bytes under a domain's keys (R36, R57); the spec names no algorithm for it. -/
opaque Config.mac : (keys : List Byte) → List Byte → Nat

/-- ECDSA P-384 by the identity key over SHA-384 of a message (R447): r and s, 96 bytes. -/
opaque Config.sign : List Byte → List Byte

/-- AES-256-GCM opened (R455, R463, R469): key, nonce, additional data, ciphertext and tag to the plaintext; none where the tag fails. -/
opaque Config.gcmOpen : (key nonce aad cipher tag : List Byte) → Option (List Byte)

/-- AES-256-GCM sealing (R469): the ciphertext by byte, and the tag. -/
opaque Config.gcmByte : (key nonce plain : List Byte) → Nat → Byte
opaque Config.gcmTag : (key nonce aad plain : List Byte) → BitVec 128

/-- A key blob opened with the key-agreement key (R455): the 96 bytes of KEYS; none where TAG fails. -/
opaque Config.unwrapBlob : List Byte → Option (List Byte)

/-- Whether a certificate chain's leaf holds the identity public key and the serial number (R448). -/
opaque Config.chainOk : List Byte → Bool

/-- Whether a debug token is signed by Uhlell for this serial number (R474). -/
opaque Config.tokenOk : List Byte → Bool

/-- Whether a bring-up image's signature verifies under the Uhlell key in the boot ROM (R499, R500). -/
opaque Config.imageSigned : List Byte → Bool

/-- Whether the SIGNATURE of a repair image is one of the Uhlell repair key over a message (R501). -/
opaque Config.repairSigned : (message sig : List Byte) → Bool

/-- The bytes of the boot ROM (R449). -/
opaque Config.bootRom : List Byte

/-- The key-agreement public key, X then Y, 96 bytes (R446, R449). -/
opaque Config.agreementKey : List Byte

end Sys2Proof
end

