-- ==== Sys2Proof/Machine/Bits.lean ====
section
/-! DEFINITION. Bit fields, byte order (R5: little-endian) and sign extension, written once. -/

namespace Sys2Proof.Machine

/-- Bits [lo+width-1:lo] of `v`, as a number. -/
def fieldGet (v : Word) (lo width : Nat) : Nat := (v.extractLsb' lo width).toNat

/-- The mask of bits [lo+width-1:lo]. -/
def fieldMask (lo width : Nat) : Word := (BitVec.allOnes width).setWidth 64 <<< lo

/-- `v` with bits [lo+width-1:lo] replaced by the low `width` bits of `x`. -/
def fieldSet (v : Word) (lo width x : Nat) : Word :=
  (v &&& ~~~ fieldMask lo width) ||| ((BitVec.ofNat width x).setWidth 64 <<< lo)

/-- Bit `i` of `v`. -/
def bitOf (v : Word) (i : Nat) : Bool := v.toNat.testBit i

/-- A word with the bits of `m` taken from `new` and the others from `old`. -/
def blend (old new m : Word) : Word := (old &&& ~~~m) ||| (new &&& m)

/-- `n` bytes of the number `v`, least significant first. -/
def bytesOf : (n : Nat) → (v : Nat) → List Byte
  | 0, _ => []
  | n + 1, v => BitVec.ofNat 8 v :: bytesOf n (v / 256)

/-- The number that bytes spell, least significant first. -/
def natOfBytes : List Byte → Nat
  | [] => 0
  | b :: bs => b.toNat + 256 * natOfBytes bs

/-- Little-endian field of a byte record: `n` bytes from byte `at_`. -/
def recGet (r : List Byte) (at_ n : Nat) : Nat := natOfBytes ((r.drop at_).take n)

/-- `x` as a signed number of `w` bits (two's complement). -/
def signedOf (w x : Nat) : Int := if x % 2 ^ w < 2 ^ (w - 1) then (x % 2 ^ w : Nat) else (x % 2 ^ w : Nat) - (2 ^ w : Nat)

/-- The two's complement code of `i` in `w` bits. -/
def unsignedOf (w : Nat) (i : Int) : Nat := (i % (2 ^ w : Nat)).toNat

/-- `x` clipped to the range from `lo` to `hi`. -/
def clip (lo hi x : Nat) : Nat := max lo (min hi x)

/-- Quotient rounded up. -/
def ceilDiv (a b : Nat) : Nat := (a + b - 1) / b

/-- The first `n` entries of `f 0, f 1, …`. -/
def tabulate {α : Type} (n : Nat) (f : Nat → α) : List α := (List.range n).map f

/-- The smallest index from `i` on, among the next `n`, at which `p` holds. -/
def searchFrom (p : Nat → Bool) (i : Nat) : (n : Nat) → Option Nat
  | 0 => none
  | n + 1 => if p i then some i else searchFrom p (i + 1) n

/-- The smallest index below `n` at which `p` holds. -/
def firstBelow (p : Nat → Bool) (n : Nat) : Option Nat := searchFrom p 0 n

/-- The number of bits set among the low `n` of `v`. -/
def popCount : (n : Nat) → (v : Nat) → Nat
  | 0, _ => 0
  | n + 1, v => v % 2 + popCount n (v / 2)

end Sys2Proof.Machine
end

