-- ==== Sys2Proof/Machine/Regs.lean ====
section
/-! DEFINITION. The register map of BAR0 (R613): the offset of every register of the register tables, its fields, and
for each register its value after power-up (R8) and which bits each access code of R6 covers. -/

namespace Sys2Proof.Machine

/-! Offsets of the registers, by the spec's names. -/
abbrev Reg.STL_CTRL : Nat := 0x01800000
abbrev Reg.STL_HDR_POOL : Nat := 0x01800008
abbrev Reg.STL_HDR_SLOTS : Nat := 0x01800010
abbrev Reg.STL_DIR_BASE : Nat := 0x01800018
abbrev Reg.STL_DIRTY_LIMIT : Nat := 0x01800020
abbrev Reg.STL_DIRTY_MAX : Nat := 0x01800028
abbrev Reg.STL_DIRTY_NOW : Nat := 0x01800030
abbrev Reg.STL_JOURNAL_PORTS : Nat := 0x01800038
abbrev Reg.STL_WAIT_DEFAULT : Nat := 0x01800040
abbrev Reg.STL_LEASE_PREP : Nat := 0x01800048
abbrev Reg.STL_LEASE_COMMIT : Nat := 0x01800050
abbrev Reg.STL_ORPHAN_TIMEOUT : Nat := 0x01800058
abbrev Reg.STL_RETIRE_HOLD : Nat := 0x01800060
abbrev Reg.STL_REVIVE_RETRY : Nat := 0x01800068
abbrev Reg.STL_FLAGS : Nat := 0x01800070
abbrev Reg.STL_FLAG_COUNT : Nat := 0x01800078
abbrev Reg.STL_FLAG_COUNT2 : Nat := 0x01800080
abbrev Reg.STL_DIR_BASE2 : Nat := 0x01800088
abbrev Reg.STL_STATE_CNT (i : Nat) : Nat := 0x01800100 + 0x8 * i
abbrev Reg.STL_PG (i : Nat) (j : Nat) : Nat := 0x01800200 + 0x40 * i + 0x8 * j
abbrev Reg.KV_CTRL : Nat := 0x01810000
abbrev Reg.KV_HEADROOM : Nat := 0x01810008
abbrev Reg.KV_STEP_TOKENS : Nat := 0x01810010
abbrev Reg.KV_CHUNK_MIN : Nat := 0x01810018
abbrev Reg.KV_FLAGS : Nat := 0x01810020
abbrev Reg.KV_FLAG_COUNT : Nat := 0x01810028
abbrev Reg.KV_SAT_CNT : Nat := 0x01810030
abbrev Reg.KV_NONFINITE_CNT : Nat := 0x01810038
abbrev Reg.KV_TSHAPE (i : Nat) : Nat := 0x01810040 + 0x8 * i
abbrev Reg.KV_SHAPE (i : Nat) : Nat := 0x01810100 + 0x8 * i
abbrev Reg.KV_SHAPE_CAP (i : Nat) : Nat := 0x01810180 + 0x8 * i
abbrev Reg.KV_SHAPE_USE (i : Nat) : Nat := 0x01810200 + 0x8 * i
abbrev Reg.KV_FRAMES (i : Nat) : Nat := 0x01810280 + 0x8 * i
abbrev Reg.HB_CTRL : Nat := 0x01000000
abbrev Reg.HB_SCRUB_PERIOD : Nat := 0x01000008
abbrev Reg.HB_SPARE_THRESH : Nat := 0x01000010
abbrev Reg.HB_SPARE_RATE : Nat := 0x01000018
abbrev Reg.HB_EVAC_TIME : Nat := 0x01000020
abbrev Reg.HB_FLAGS : Nat := 0x01000028
abbrev Reg.HB_FLAG_COUNT : Nat := 0x01000030
abbrev Reg.HB_CH (i : Nat) (j : Nat) : Nat := 0x01000100 + 0x100 * i + 0x8 * j
abbrev Reg.HB_POISON (i : Nat) : Nat := 0x01001100 + 0x8 * i
abbrev Reg.SH_CTRL : Nat := 0x01200000
abbrev Reg.SH_WEAR_SPREAD : Nat := 0x01200008
abbrev Reg.SH_RD_LIMIT : Nat := 0x01200010
abbrev Reg.SH_SCRUB_PERIOD : Nat := 0x01200018
abbrev Reg.SH_GC_LOW : Nat := 0x01200020
abbrev Reg.SH_FLAGS : Nat := 0x01200028
abbrev Reg.SH_FLAG_COUNT : Nat := 0x01200030
abbrev Reg.SH_PORT_INFO (i : Nat) : Nat := 0x01200100 + 0x8 * i
abbrev Reg.SH_BOOK (i : Nat) (j : Nat) : Nat := 0x01200200 + 0x40 * i + 0x8 * j
abbrev Reg.SH_WEAR (i : Nat) : Nat := 0x01200400 + 0x8 * i
abbrev Reg.PF_CTRL : Nat := 0x01400000
abbrev Reg.PF_OBJ_BASE : Nat := 0x01400008
abbrev Reg.PF_OBJ_COUNT : Nat := 0x01400010
abbrev Reg.PF_DISTANCE : Nat := 0x01400018
abbrev Reg.PF_POOL : Nat := 0x01400020
abbrev Reg.PF_PROMOTE : Nat := 0x01400028
abbrev Reg.PF_HIT : Nat := 0x01400030
abbrev Reg.PF_MISS : Nat := 0x01400038
abbrev Reg.PF_WAIT_NS : Nat := 0x01400040
abbrev Reg.PF_FLAGS : Nat := 0x01400048
abbrev Reg.PF_FLAG_COUNT : Nat := 0x01400050
abbrev Reg.TX_CTRL : Nat := 0x01820000
abbrev Reg.TX_INPUT_BYTES : Nat := 0x01820008
abbrev Reg.TX_CALL_MAX : Nat := 0x01820010
abbrev Reg.TX_FLAGS : Nat := 0x01820018
abbrev Reg.TX_FLAG_COUNT : Nat := 0x01820020
abbrev Reg.TX_CACHE_HIT : Nat := 0x01820028
abbrev Reg.TX_CACHE_MISS : Nat := 0x01820030
abbrev Reg.TX_CFG (i : Nat) : Nat := 0x01821000 + 0x40 * i
abbrev Reg.TX_VOCAB (i : Nat) : Nat := 0x01821008 + 0x40 * i
abbrev Reg.TX_POOL (i : Nat) : Nat := 0x01821010 + 0x40 * i
abbrev Reg.TX_TABLES (i : Nat) : Nat := 0x01821018 + 0x40 * i
abbrev Reg.TX_MERGE (i : Nat) : Nat := 0x01821020 + 0x40 * i
abbrev Reg.TX_TOOLTOK (i : Nat) : Nat := 0x01821028 + 0x40 * i
abbrev Reg.TX_RESTOK (i : Nat) : Nat := 0x01821030 + 0x40 * i
abbrev Reg.GR_CTRL : Nat := 0x01830000
abbrev Reg.GR_FLAGS : Nat := 0x01830008
abbrev Reg.GR_FLAG_COUNT : Nat := 0x01830010
abbrev Reg.GR_DEAD_CNT : Nat := 0x01830018
abbrev Reg.GR_SLOW_CNT : Nat := 0x01830020
abbrev Reg.GR_LATE_CNT : Nat := 0x01830028
abbrev Reg.GR_LATE_NS : Nat := 0x01830030
abbrev Reg.SEL_CTRL : Nat := 0x01840000
abbrev Reg.SEL_SHARD_BASE : Nat := 0x01840008
abbrev Reg.SEL_FLAGS : Nat := 0x01840010
abbrev Reg.SEL_FLAG_COUNT : Nat := 0x01840018
abbrev Reg.SEL_DUP_CNT : Nat := 0x01840020
abbrev Reg.SEL_FEWER_CNT : Nat := 0x01840028
abbrev Reg.SEL_NAN_CNT : Nat := 0x01840030
abbrev Reg.SEL_DRAWS : Nat := 0x01840038
abbrev Reg.SEL_PROF (i : Nat) : Nat := 0x01841000 + 0x8 * i
abbrev Reg.VS_CTRL : Nat := 0x01850000
abbrev Reg.VS_PREFETCH : Nat := 0x01850008
abbrev Reg.VS_MERGE_AT : Nat := 0x01850010
abbrev Reg.VS_FLAGS : Nat := 0x01850018
abbrev Reg.VS_FLAG_COUNT : Nat := 0x01850020
abbrev Reg.VS_QUERIES : Nat := 0x01850028
abbrev Reg.VS_COMPARES : Nat := 0x01850030
abbrev Reg.VS_CODE_FAIL_CNT : Nat := 0x01850038
abbrev Reg.VS_CAP_USED : Nat := 0x01850040
abbrev Reg.SCH_CTX_CTRL : Nat := 0x02F00000
abbrev Reg.SCH_CTX_BASE : Nat := 0x02F00008
abbrev Reg.SCH_CTX_SLOTS : Nat := 0x02F00010
abbrev Reg.SCH_CTX_LIVE : Nat := 0x02F00018
abbrev Reg.SCH_CTX_FAULTS : Nat := 0x02F00020
abbrev Reg.SCH_CTX_FLAGS : Nat := 0x02F00028
abbrev Reg.SCH_CTX_FLAG_COUNT : Nat := 0x02F00030
abbrev Reg.GC_ARITH_CTRL : Nat := 0x00408000
abbrev Reg.GC_ND_COUNT : Nat := 0x00408008
abbrev Reg.GC_SAT_CNT : Nat := 0x00408010
abbrev Reg.YT_CTRL : Nat := 0x00600000
abbrev Reg.YT_SET : Nat := 0x00600008
abbrev Reg.YT_NOW : Nat := 0x00600010
abbrev Reg.YT_STATUS : Nat := 0x00600018
abbrev Reg.YT_RATE : Nat := 0x00600020
abbrev Reg.YT_OFFSET : Nat := 0x00600028
abbrev Reg.YT_LOCK_LIMIT : Nat := 0x00600030
abbrev Reg.YT_PTP : Nat := 0x00600038
abbrev Reg.YT_PPS_STAMP : Nat := 0x00600040
abbrev Reg.YT_WAGGLE_LEAD : Nat := 0x00600048
abbrev Reg.YT_FLAGS : Nat := 0x00600050
abbrev Reg.YT_FLAG_COUNT : Nat := 0x00600058
abbrev Reg.TL_CTRL : Nat := 0x00700000
abbrev Reg.TL_HOST_SIG : Nat := 0x00700008
abbrev Reg.TL_INFLIGHT : Nat := 0x00700010
abbrev Reg.TL_SNAP_SEL : Nat := 0x00700018
abbrev Reg.TL_SNAP_COUNT : Nat := 0x00700020
abbrev Reg.TL_SNAP_SIG : Nat := 0x00700028
abbrev Reg.TL_SNAP_TAKEN : Nat := 0x00700030
abbrev Reg.TL_SNAP_WAITERS : Nat := 0x00700038
abbrev Reg.TL_TIMEOUT_CNT : Nat := 0x00700040
abbrev Reg.TL_FLAGS : Nat := 0x00700048
abbrev Reg.TL_FLAG_COUNT : Nat := 0x00700050
abbrev Reg.TL_BIND (i : Nat) : Nat := 0x00710000 + 0x8 * i
abbrev Reg.SCH_CTRL : Nat := 0x02000000
abbrev Reg.SCH_ROUNDS : Nat := 0x02000008
abbrev Reg.SCH_STARVE : Nat := 0x02000010
abbrev Reg.SCH_FLAGS : Nat := 0x02000018
abbrev Reg.SCH_FLAG_COUNT : Nat := 0x02000020
abbrev Reg.SCH_LEFT (i : Nat) : Nat := 0x02000040 + 0x8 * i
abbrev Reg.SCH_HUBTHR (i : Nat) : Nat := 0x02001000 + 0x8 * i
abbrev Reg.SCH_PART (i : Nat) : Nat := 0x02010000 + 0x100 * i
abbrev Reg.SCH_SLICE_START (i : Nat) : Nat := 0x02010008 + 0x100 * i
abbrev Reg.SCH_SWITCH (i : Nat) : Nat := 0x02010010 + 0x100 * i
abbrev Reg.SCH_SLICE (i : Nat) (j : Nat) : Nat := 0x02010040 + 0x100 * i + 0x8 * j
abbrev Reg.SCH_ROUND_CFG (i : Nat) : Nat := 0x02020000 + 0x20 * i
abbrev Reg.SCH_LATENCY (i : Nat) : Nat := 0x02020008 + 0x20 * i
abbrev Reg.SCH_CAP (i : Nat) : Nat := 0x02020010 + 0x20 * i
abbrev Reg.SCH_LAST (i : Nat) : Nat := 0x02020018 + 0x20 * i
abbrev Reg.TN_PERIOD : Nat := 0x02100000
abbrev Reg.TN_PERIOD_NO : Nat := 0x02100008
abbrev Reg.TN_CTRL (i : Nat) : Nat := 0x02110000 + 0x80 * i
abbrev Reg.TN_QUOTA (i : Nat) : Nat := 0x02110008 + 0x80 * i
abbrev Reg.TN_USE (i : Nat) : Nat := 0x02110010 + 0x80 * i
abbrev Reg.TN_GRANT (i : Nat) : Nat := 0x02110018 + 0x80 * i
abbrev Reg.TN_GRANTED (i : Nat) : Nat := 0x02110020 + 0x80 * i
abbrev Reg.TN_CONSUMED (i : Nat) : Nat := 0x02110028 + 0x80 * i
abbrev Reg.TN_REFUNDED (i : Nat) : Nat := 0x02110030 + 0x80 * i
abbrev Reg.TN_REMAINING (i : Nat) : Nat := 0x02110038 + 0x80 * i
abbrev Reg.TN_QUEUED (i : Nat) : Nat := 0x02110040 + 0x80 * i
abbrev Reg.TN_LAST_CONSUMED (i : Nat) : Nat := 0x02110048 + 0x80 * i
abbrev Reg.TN_FAULTS (i : Nat) : Nat := 0x02110050 + 0x80 * i
abbrev Reg.GC_PORT_CFG (i : Nat) : Nat := 0x0040A000 + 0x100 * i
abbrev Reg.GC_PORT_STATE (i : Nat) : Nat := 0x0040A008 + 0x100 * i
abbrev Reg.GC_PORT_BIND (i : Nat) (j : Nat) : Nat := 0x0040A010 + 0x100 * i + 0x8 * j
abbrev Reg.GC_PORT_DROP (i : Nat) : Nat := 0x0040A030 + 0x100 * i
abbrev Reg.GC_PORT_DENIED (i : Nat) : Nat := 0x0040A038 + 0x100 * i
abbrev Reg.GC_PORT_CTRL : Nat := 0x0040A800
abbrev Reg.GC_OP_HOLD : Nat := 0x0040A808
abbrev Reg.GC_OP_LIVE : Nat := 0x0040A810
abbrev Reg.GC_HOST_FLAGS : Nat := 0x0040A818
abbrev Reg.GC_HOST_FLAG_COUNT : Nat := 0x0040A820
abbrev Reg.NW_CTRL : Nat := 0x00C00000
abbrev Reg.NW_DEV : Nat := 0x00C00008
abbrev Reg.NW_MAP_BASE : Nat := 0x00C00010
abbrev Reg.NW_MAP_GEN : Nat := 0x00C00018
abbrev Reg.NW_HELLO : Nat := 0x00C00020
abbrev Reg.NW_RETX : Nat := 0x00C00028
abbrev Reg.NW_ACCEPT : Nat := 0x00C00030
abbrev Reg.NW_RX_BASE : Nat := 0x00C00038
abbrev Reg.NW_CREDITS : Nat := 0x00C00040
abbrev Reg.NW_INBOX : Nat := 0x00C00048
abbrev Reg.NW_EP_TIMEOUT : Nat := 0x00C00050
abbrev Reg.NW_FLAGS : Nat := 0x00C00058
abbrev Reg.NW_FLAG_COUNT : Nat := 0x00C00060
abbrev Reg.NW_FLAG_COUNT2 : Nat := 0x00C00068
abbrev Reg.NW_STAT (i : Nat) : Nat := 0x00C00100 + 0x8 * i
abbrev Reg.NW_FLOW_SEL : Nat := 0x00C00200
abbrev Reg.NW_FLOW_CREDITS : Nat := 0x00C00208
abbrev Reg.NW_FLOW_INFLIGHT : Nat := 0x00C00210
abbrev Reg.NW_FLOW_FREE : Nat := 0x00C00218
abbrev Reg.NW_PORT_CFG (i : Nat) : Nat := 0x00C10000 + 0x100 * i
abbrev Reg.NW_PORT_IP_HI (i : Nat) : Nat := 0x00C10008 + 0x100 * i
abbrev Reg.NW_PORT_IP_LO (i : Nat) : Nat := 0x00C10010 + 0x100 * i
abbrev Reg.NW_PORT_NEXTHOP (i : Nat) : Nat := 0x00C10018 + 0x100 * i
abbrev Reg.NW_PORT_STATE (i : Nat) : Nat := 0x00C10020 + 0x100 * i
abbrev Reg.NW_PORT_FEC (i : Nat) : Nat := 0x00C10028 + 0x100 * i
abbrev Reg.NW_LANE (i : Nat) : Nat := 0x00C20000 + 0x8 * i
abbrev Reg.NW_GW_IP_HI (i : Nat) : Nat := 0x00C30000 + 0x40 * i
abbrev Reg.NW_GW_IP_LO (i : Nat) : Nat := 0x00C30008 + 0x40 * i
abbrev Reg.NW_TOOL_IP_HI (i : Nat) : Nat := 0x00C30010 + 0x40 * i
abbrev Reg.NW_TOOL_IP_LO (i : Nat) : Nat := 0x00C30018 + 0x40 * i
abbrev Reg.NW_EP_PORTS (i : Nat) : Nat := 0x00C30020 + 0x40 * i
abbrev Reg.TS_CTRL : Nat := 0x00E00000
abbrev Reg.TS_REFILL : Nat := 0x00E00008
abbrev Reg.TS_DSCP : Nat := 0x00E00010
abbrev Reg.TS_FLAGS : Nat := 0x00E00018
abbrev Reg.TS_FLAG_COUNT : Nat := 0x00E00020
abbrev Reg.TS_QBYTES : Nat := 0x00E00028
abbrev Reg.TS_TCLASS (i : Nat) : Nat := 0x00E01000 + 0x8 * i
abbrev Reg.TS_POLICE (i : Nat) (j : Nat) : Nat := 0x00E20000 + 0x800 * i + 0x8 * j
abbrev Reg.TS_POLICE_DROP (i : Nat) : Nat := 0x00E28000 + 0x8 * i
abbrev Reg.TS_GATE_CTRL (i : Nat) : Nat := 0x00E30000 + 0x1000 * i
abbrev Reg.TS_GATE_START (i : Nat) : Nat := 0x00E30008 + 0x1000 * i
abbrev Reg.TS_GATE_STATE (i : Nat) : Nat := 0x00E30010 + 0x1000 * i
abbrev Reg.TS_GATE_ENTRY (i : Nat) (j : Nat) : Nat := 0x00E30800 + 0x1000 * i + 0x8 * j
abbrev Reg.TS_WEIGHT (i : Nat) (j : Nat) (k : Nat) : Nat := 0x00E80000 + 0x10000 * i + 0x100 * j + 0x20 * k
abbrev Reg.TS_RATE (i : Nat) (j : Nat) (k : Nat) : Nat := 0x00E80008 + 0x10000 * i + 0x100 * j + 0x20 * k
abbrev Reg.TS_DEPTH (i : Nat) (j : Nat) (k : Nat) : Nat := 0x00E80010 + 0x10000 * i + 0x100 * j + 0x20 * k
abbrev Reg.TS_TOKENS (i : Nat) (j : Nat) (k : Nat) : Nat := 0x00E80018 + 0x10000 * i + 0x100 * j + 0x20 * k
abbrev Reg.SEC_CTRL : Nat := 0x00A00000
abbrev Reg.SEC_SERIAL : Nat := 0x00A00008
abbrev Reg.SEC_STATE : Nat := 0x00A00010
abbrev Reg.SEC_NET : Nat := 0x00A00018
abbrev Reg.SEC_BLOB_FAIL : Nat := 0x00A00020
abbrev Reg.SEC_FLAGS : Nat := 0x00A00028
abbrev Reg.SEC_FLAG_COUNT : Nat := 0x00A00030
abbrev Reg.SEC_MEAS_GEN : Nat := 0x00A00038
abbrev Reg.SEC_MACSEC (i : Nat) : Nat := 0x00A00100 + 0x8 * i
abbrev Reg.SEC_DOM (i : Nat) : Nat := 0x00A08000 + 0x8 * i
abbrev Reg.SEC_JOB (i : Nat) : Nat := 0x00A02000 + 0x8 * i
abbrev Reg.SEC_TNET (i : Nat) : Nat := 0x00A03000 + 0x8 * i
abbrev Reg.SEC_CONF (i : Nat) : Nat := 0x00A04000 + 0x8 * i
abbrev Reg.SV_ID : Nat := 0x00000000
abbrev Reg.SV_GEN : Nat := 0x00000008
abbrev Reg.SV_PART : Nat := 0x00000010
abbrev Reg.SV_RECORDS : Nat := 0x00000018
abbrev Reg.SV_SERIAL : Nat := 0x00000020
abbrev Reg.SV_CHANGED_YT : Nat := 0x00000028
abbrev Reg.SV_TOPO (i : Nat) : Nat := 0x00000040 + 0x8 * i
abbrev Reg.SV_DIR (i : Nat) : Nat := 0x00000080 + 0x8 * i
abbrev Reg.BU_STATE : Nat := 0x00440000
abbrev Reg.BU_CTRL : Nat := 0x00440008
abbrev Reg.BU_ERR : Nat := 0x00440010
abbrev Reg.BU_LOAD_SRC : Nat := 0x00440018
abbrev Reg.BU_LOAD_LEN : Nat := 0x00440020
abbrev Reg.BU_LOAD_CMD : Nat := 0x00440028
abbrev Reg.BU_STRAP : Nat := 0x00440030
abbrev Reg.BU_TOPO_EXP (i : Nat) : Nat := 0x00440040 + 0x8 * i
abbrev Reg.BU_STEP_US (i : Nat) : Nat := 0x00440080 + 0x8 * i
abbrev Reg.BU_FOUND_COUNT : Nat := 0x00440100
abbrev Reg.BU_FOUND (i : Nat) : Nat := 0x00441000 + 0x8 * i
abbrev Reg.CK_CTRL : Nat := 0x00500000
abbrev Reg.CK_MON_CFG : Nat := 0x00500008
abbrev Reg.CK_MON_STATUS : Nat := 0x00500010
abbrev Reg.CK_FB_TRIM : Nat := 0x00500018
abbrev Reg.CK_FMEAS_CTRL : Nat := 0x00500020
abbrev Reg.CK_FMEAS_COUNT : Nat := 0x00500028
abbrev Reg.CK_FLAGS : Nat := 0x00500030
abbrev Reg.CK_FLAG_COUNT : Nat := 0x00500038
abbrev Reg.CK_MON_COUNT (i : Nat) : Nat := 0x00500040 + 0x8 * i
abbrev Reg.CK_PACE_SETTLE : Nat := 0x00500080
abbrev Reg.CK_IDLE : Nat := 0x00500088
abbrev Reg.CK_PACE (i : Nat) : Nat := 0x00500100 + 0x8 * i
abbrev Reg.CK_PACE_CTL (i : Nat) : Nat := 0x00500200 + 0x20 * i
abbrev Reg.CK_PACE_STATE (i : Nat) : Nat := 0x00500208 + 0x20 * i
abbrev Reg.CK_RATE (i : Nat) : Nat := 0x00500210 + 0x20 * i
abbrev Reg.CK_GATE (i : Nat) : Nat := 0x00500800 + 0x8 * i
abbrev Reg.PW_CTRL : Nat := 0x00580000
abbrev Reg.PW_STATUS : Nat := 0x00580008
abbrev Reg.PW_WARN_YT : Nat := 0x00580010
abbrev Reg.PW_SAFE_YT : Nat := 0x00580018
abbrev Reg.PW_RESUME : Nat := 0x00580020
abbrev Reg.PW_CAP : Nat := 0x00580028
abbrev Reg.PW_POWER : Nat := 0x00580030
abbrev Reg.PW_TELEM : Nat := 0x00580038
abbrev Reg.PW_TJ : Nat := 0x00580040
abbrev Reg.PW_SAG : Nat := 0x00580048
abbrev Reg.PW_AVS : Nat := 0x00580050
abbrev Reg.PW_FLAGS : Nat := 0x00580058
abbrev Reg.PW_FLAG_COUNT : Nat := 0x00580060
abbrev Reg.PW_RAIL (i : Nat) : Nat := 0x00580100 + 0x20 * i
abbrev Reg.PW_TEMP (i : Nat) : Nat := 0x00580108 + 0x20 * i
abbrev Reg.PW_LIMITS (i : Nat) : Nat := 0x00580110 + 0x20 * i
abbrev Reg.PW_DROOP_CNT (i : Nat) : Nat := 0x00580118 + 0x20 * i
abbrev Reg.PW_XRAIL (i : Nat) : Nat := 0x00580400 + 0x8 * i
abbrev Reg.RP_CTRL : Nat := 0x00900000
abbrev Reg.RP_WINDOW : Nat := 0x00900008
abbrev Reg.RP_THRESH : Nat := 0x00900010
abbrev Reg.RP_TEST_PERIOD : Nat := 0x00900018
abbrev Reg.RP_SPARE_LOW : Nat := 0x00900020
abbrev Reg.RP_LOG_COUNT : Nat := 0x00900028
abbrev Reg.RP_LOG_ACK : Nat := 0x00900030
abbrev Reg.RP_FLAGS : Nat := 0x00900038
abbrev Reg.RP_FLAG_COUNT : Nat := 0x00900040
abbrev Reg.RP_FLAG_COUNT2 : Nat := 0x00900048
abbrev Reg.RP_LOG (i : Nat) : Nat := 0x00901000 + 0x8 * i
abbrev Reg.RP_CELL_CORR (i : Nat) : Nat := 0x00920000 + 0x8 * i
abbrev Reg.CP_CTRL : Nat := 0x00880000
abbrev Reg.CP_SLOT_CFG : Nat := 0x00880008
abbrev Reg.CP_TRIG : Nat := 0x00880010
abbrev Reg.CP_PERIOD : Nat := 0x00880018
abbrev Reg.CP_MIN_GAP : Nat := 0x00880020
abbrev Reg.CP_STATUS : Nat := 0x00880028
abbrev Reg.CP_OP : Nat := 0x00880030
abbrev Reg.CP_SKIP_CNT : Nat := 0x00880038
abbrev Reg.CP_MIRRORS : Nat := 0x00880040
abbrev Reg.CP_FLAGS : Nat := 0x00880048
abbrev Reg.CP_FLAG_COUNT : Nat := 0x00880050
abbrev Reg.CP_SLOT_STATE (i : Nat) : Nat := 0x00880100 + 0x10 * i
abbrev Reg.CP_SLOT_STEP (i : Nat) : Nat := 0x00880108 + 0x10 * i
abbrev Reg.EV_TOTAL : Nat := 0x00800008
abbrev Reg.EV_NMI : Nat := 0x00800010
abbrev Reg.EV_FATAL : Nat := 0x00800018
abbrev Reg.EV_FATAL_YT : Nat := 0x00800020
abbrev Reg.EV_FLAGS : Nat := 0x00800028
abbrev Reg.EV_FLAG_COUNT : Nat := 0x00800030
abbrev Reg.EV_MASK (i : Nat) : Nat := 0x00800100 + 0x8 * i
abbrev Reg.EV_MR_RING_BASE (i : Nat) : Nat := 0x00801000 + 0x100 * i
abbrev Reg.HQ_EV_RING_BASE (i : Nat) : Nat := 0x03008000 + 0x10000 * i
abbrev Reg.EV_MR_RING_CFG (i : Nat) : Nat := 0x00801008 + 0x100 * i
abbrev Reg.HQ_EV_RING_CFG (i : Nat) : Nat := 0x03008008 + 0x10000 * i
abbrev Reg.EV_MR_RING_CTRL (i : Nat) : Nat := 0x00801010 + 0x100 * i
abbrev Reg.HQ_EV_RING_CTRL (i : Nat) : Nat := 0x03008010 + 0x10000 * i
abbrev Reg.EV_MR_RING_HEAD (i : Nat) : Nat := 0x00801018 + 0x100 * i
abbrev Reg.HQ_EV_RING_HEAD (i : Nat) : Nat := 0x03008018 + 0x10000 * i
abbrev Reg.EV_MR_RING_TAIL (i : Nat) : Nat := 0x00801020 + 0x100 * i
abbrev Reg.HQ_EV_RING_TAIL (i : Nat) : Nat := 0x03008020 + 0x10000 * i
abbrev Reg.EV_MR_RING_LOST (i : Nat) : Nat := 0x00801028 + 0x100 * i
abbrev Reg.HQ_EV_RING_LOST (i : Nat) : Nat := 0x03008028 + 0x10000 * i
abbrev Reg.HQ_SQ_BASE (i : Nat) (j : Nat) : Nat := 0x03000000 + 0x10000 * i + 0x400 * j
abbrev Reg.GC_MQ_SQ_BASE (i : Nat) : Nat := 0x0040B000 + 0x100 * i
abbrev Reg.HQ_CQ_BASE (i : Nat) (j : Nat) : Nat := 0x03000008 + 0x10000 * i + 0x400 * j
abbrev Reg.GC_MQ_CQ_BASE (i : Nat) : Nat := 0x0040B008 + 0x100 * i
abbrev Reg.HQ_Q_CFG (i : Nat) (j : Nat) : Nat := 0x03000010 + 0x10000 * i + 0x400 * j
abbrev Reg.GC_MQ_CFG (i : Nat) : Nat := 0x0040B010 + 0x100 * i
abbrev Reg.HQ_Q_CTRL (i : Nat) (j : Nat) : Nat := 0x03000018 + 0x10000 * i + 0x400 * j
abbrev Reg.GC_MQ_CTRL (i : Nat) : Nat := 0x0040B018 + 0x100 * i
abbrev Reg.HQ_Q_STATE (i : Nat) (j : Nat) : Nat := 0x03000020 + 0x10000 * i + 0x400 * j
abbrev Reg.GC_MQ_STATE (i : Nat) : Nat := 0x0040B020 + 0x100 * i
abbrev Reg.HQ_MBOX (i : Nat) (j : Nat) (k : Nat) : Nat := 0x03000028 + 0x10000 * i + 0x400 * j + 0x8 * k
abbrev Reg.GC_MQ_MBOX (i : Nat) (j : Nat) : Nat := 0x0040B028 + 0x100 * i + 0x8 * j
abbrev Reg.HQ_Q_DONE (i : Nat) (j : Nat) : Nat := 0x03000048 + 0x10000 * i + 0x400 * j
abbrev Reg.GC_MQ_DONE (i : Nat) : Nat := 0x0040B048 + 0x100 * i

/-! Fields of the registers, by the spec's names. -/
abbrev Fld.STL_CTRL_EN : RegField := ⟨Reg.STL_CTRL, 0, 1⟩
abbrev Fld.STL_CTRL_COMMIT : RegField := ⟨Reg.STL_CTRL, 1, 1⟩
abbrev Fld.STL_CTRL_HOLD_CREATE : RegField := ⟨Reg.STL_CTRL, 2, 1⟩
abbrev Fld.STL_HDR_POOL_BASE : RegField := ⟨Reg.STL_HDR_POOL, 0, 48⟩
abbrev Fld.STL_HDR_SLOTS_SLOTS : RegField := ⟨Reg.STL_HDR_SLOTS, 0, 23⟩
abbrev Fld.STL_DIR_BASE_BASE : RegField := ⟨Reg.STL_DIR_BASE, 0, 48⟩
abbrev Fld.STL_DIRTY_LIMIT_LIMIT : RegField := ⟨Reg.STL_DIRTY_LIMIT, 0, 48⟩
abbrev Fld.STL_DIRTY_MAX_MAX : RegField := ⟨Reg.STL_DIRTY_MAX, 0, 48⟩
abbrev Fld.STL_DIRTY_NOW_NOW : RegField := ⟨Reg.STL_DIRTY_NOW, 0, 48⟩
abbrev Fld.STL_JOURNAL_PORTS_PORTS : RegField := ⟨Reg.STL_JOURNAL_PORTS, 0, 8⟩
abbrev Fld.STL_WAIT_DEFAULT_NS : RegField := ⟨Reg.STL_WAIT_DEFAULT, 0, 64⟩
abbrev Fld.STL_LEASE_PREP_NS : RegField := ⟨Reg.STL_LEASE_PREP, 0, 64⟩
abbrev Fld.STL_LEASE_COMMIT_NS : RegField := ⟨Reg.STL_LEASE_COMMIT, 0, 64⟩
abbrev Fld.STL_ORPHAN_TIMEOUT_NS : RegField := ⟨Reg.STL_ORPHAN_TIMEOUT, 0, 64⟩
abbrev Fld.STL_RETIRE_HOLD_NS : RegField := ⟨Reg.STL_RETIRE_HOLD, 0, 64⟩
abbrev Fld.STL_REVIVE_RETRY_NS : RegField := ⟨Reg.STL_REVIVE_RETRY, 0, 64⟩
abbrev Fld.STL_FLAGS_DIRTY_THROTTLE : RegField := ⟨Reg.STL_FLAGS, 0, 1⟩
abbrev Fld.STL_FLAGS_REVIVE_DEFERRED : RegField := ⟨Reg.STL_FLAGS, 1, 1⟩
abbrev Fld.STL_FLAGS_ORPHAN : RegField := ⟨Reg.STL_FLAGS, 2, 1⟩
abbrev Fld.STL_FLAGS_PROMOTED : RegField := ⟨Reg.STL_FLAGS, 3, 1⟩
abbrev Fld.STL_FLAGS_BOOKS_IMBALANCE : RegField := ⟨Reg.STL_FLAGS, 4, 1⟩
abbrev Fld.STL_FLAGS_GEN_WRAP : RegField := ⟨Reg.STL_FLAGS, 5, 1⟩
abbrev Fld.STL_FLAGS_CLAIMED : RegField := ⟨Reg.STL_FLAGS, 6, 1⟩
abbrev Fld.STL_FLAGS_DROPPED : RegField := ⟨Reg.STL_FLAGS, 7, 1⟩
abbrev Fld.STL_FLAGS_HOST_PAUSE : RegField := ⟨Reg.STL_FLAGS, 8, 1⟩
abbrev Fld.STL_FLAG_COUNT_COUNTS : RegField := ⟨Reg.STL_FLAG_COUNT, 0, 64⟩
abbrev Fld.STL_FLAG_COUNT2_COUNT_8 : RegField := ⟨Reg.STL_FLAG_COUNT2, 0, 8⟩
abbrev Fld.STL_DIR_BASE2_BASE : RegField := ⟨Reg.STL_DIR_BASE2, 0, 48⟩
abbrev Fld.STL_STATE_CNT_COUNT (i : Nat) : RegField := ⟨(Reg.STL_STATE_CNT i), 0, 23⟩
abbrev Fld.STL_PG_GRANULES (i : Nat) (j : Nat) : RegField := ⟨(Reg.STL_PG i j), 0, 32⟩
abbrev Fld.KV_CTRL_EN : RegField := ⟨Reg.KV_CTRL, 0, 1⟩
abbrev Fld.KV_HEADROOM_H : RegField := ⟨Reg.KV_HEADROOM, 0, 4⟩
abbrev Fld.KV_STEP_TOKENS_TOKENS : RegField := ⟨Reg.KV_STEP_TOKENS, 0, 13⟩
abbrev Fld.KV_CHUNK_MIN_TOKENS : RegField := ⟨Reg.KV_CHUNK_MIN, 0, 17⟩
abbrev Fld.KV_FLAGS_SATURATED : RegField := ⟨Reg.KV_FLAGS, 0, 1⟩
abbrev Fld.KV_FLAGS_NONFINITE : RegField := ⟨Reg.KV_FLAGS, 1, 1⟩
abbrev Fld.KV_FLAGS_LENGTH_LIMIT : RegField := ⟨Reg.KV_FLAGS, 2, 1⟩
abbrev Fld.KV_FLAGS_PAGE_SHORT : RegField := ⟨Reg.KV_FLAGS, 3, 1⟩
abbrev Fld.KV_FLAGS_LAYER_MOVED : RegField := ⟨Reg.KV_FLAGS, 4, 1⟩
abbrev Fld.KV_FLAGS_SHAPE_REFUSED : RegField := ⟨Reg.KV_FLAGS, 5, 1⟩
abbrev Fld.KV_FLAG_COUNT_COUNTS : RegField := ⟨Reg.KV_FLAG_COUNT, 0, 64⟩
abbrev Fld.KV_SAT_CNT_BLOCKS : RegField := ⟨Reg.KV_SAT_CNT, 0, 64⟩
abbrev Fld.KV_NONFINITE_CNT_ELEMENTS : RegField := ⟨Reg.KV_NONFINITE_CNT, 0, 64⟩
abbrev Fld.KV_TSHAPE_SHAPES (i : Nat) : RegField := ⟨(Reg.KV_TSHAPE i), 0, 64⟩
abbrev Fld.KV_SHAPE_LAT_WIDTH (i : Nat) : RegField := ⟨(Reg.KV_SHAPE i), 0, 12⟩
abbrev Fld.KV_SHAPE_POS_WIDTH (i : Nat) : RegField := ⟨(Reg.KV_SHAPE i), 12, 9⟩
abbrev Fld.KV_SHAPE_HEADS (i : Nat) : RegField := ⟨(Reg.KV_SHAPE i), 21, 8⟩
abbrev Fld.KV_SHAPE_LAYERS (i : Nat) : RegField := ⟨(Reg.KV_SHAPE i), 29, 9⟩
abbrev Fld.KV_SHAPE_PAGE_MIN (i : Nat) : RegField := ⟨(Reg.KV_SHAPE i), 38, 4⟩
abbrev Fld.KV_SHAPE_PAGE_MAX (i : Nat) : RegField := ⟨(Reg.KV_SHAPE i), 42, 4⟩
abbrev Fld.KV_SHAPE_MODE (i : Nat) : RegField := ⟨(Reg.KV_SHAPE i), 46, 1⟩
abbrev Fld.KV_SHAPE_SPEC_MAX (i : Nat) : RegField := ⟨(Reg.KV_SHAPE i), 48, 4⟩
abbrev Fld.KV_SHAPE_SPREAD_LOG2 (i : Nat) : RegField := ⟨(Reg.KV_SHAPE i), 52, 3⟩
abbrev Fld.KV_SHAPE_VALID (i : Nat) : RegField := ⟨(Reg.KV_SHAPE i), 63, 1⟩
abbrev Fld.KV_SHAPE_CAP_CAP (i : Nat) : RegField := ⟨(Reg.KV_SHAPE_CAP i), 0, 22⟩
abbrev Fld.KV_SHAPE_CAP_REC_BYTES (i : Nat) : RegField := ⟨(Reg.KV_SHAPE_CAP i), 32, 11⟩
abbrev Fld.KV_SHAPE_USE_COUNT (i : Nat) : RegField := ⟨(Reg.KV_SHAPE_USE i), 0, 23⟩
abbrev Fld.KV_FRAMES_F (i : Nat) : RegField := ⟨(Reg.KV_FRAMES i), 0, 7⟩
abbrev Fld.HB_CTRL_SCRUB_EN : RegField := ⟨Reg.HB_CTRL, 0, 1⟩
abbrev Fld.HB_CTRL_SPARE_AUTO : RegField := ⟨Reg.HB_CTRL, 1, 1⟩
abbrev Fld.HB_SCRUB_PERIOD_NS : RegField := ⟨Reg.HB_SCRUB_PERIOD, 0, 64⟩
abbrev Fld.HB_SPARE_THRESH_CORR : RegField := ⟨Reg.HB_SPARE_THRESH, 0, 32⟩
abbrev Fld.HB_SPARE_THRESH_UNCORR : RegField := ⟨Reg.HB_SPARE_THRESH, 32, 16⟩
abbrev Fld.HB_SPARE_THRESH_POISON : RegField := ⟨Reg.HB_SPARE_THRESH, 48, 10⟩
abbrev Fld.HB_SPARE_RATE_RATE : RegField := ⟨Reg.HB_SPARE_RATE, 0, 8⟩
abbrev Fld.HB_EVAC_TIME_NS : RegField := ⟨Reg.HB_EVAC_TIME, 0, 64⟩
abbrev Fld.HB_FLAGS_EVENTS : RegField := ⟨Reg.HB_FLAGS, 0, 7⟩
abbrev Fld.HB_FLAG_COUNT_COUNTS : RegField := ⟨Reg.HB_FLAG_COUNT, 0, 64⟩
abbrev Fld.HB_CH_LOGICAL (i : Nat) (j : Nat) : RegField := ⟨(Reg.HB_CH i j), 0, 5⟩
abbrev Fld.HB_CH_STATE (i : Nat) (j : Nat) : RegField := ⟨(Reg.HB_CH i j), 5, 3⟩
abbrev Fld.HB_CH_CORR (i : Nat) (j : Nat) : RegField := ⟨(Reg.HB_CH i j), 8, 32⟩
abbrev Fld.HB_CH_UNCORR (i : Nat) (j : Nat) : RegField := ⟨(Reg.HB_CH i j), 40, 16⟩
abbrev Fld.HB_POISON_ENTRIES (i : Nat) : RegField := ⟨(Reg.HB_POISON i), 0, 11⟩
abbrev Fld.SH_CTRL_PORT_EN : RegField := ⟨Reg.SH_CTRL, 0, 8⟩
abbrev Fld.SH_CTRL_COMMIT : RegField := ⟨Reg.SH_CTRL, 8, 1⟩
abbrev Fld.SH_WEAR_SPREAD_ERASES : RegField := ⟨Reg.SH_WEAR_SPREAD, 0, 16⟩
abbrev Fld.SH_RD_LIMIT_READS : RegField := ⟨Reg.SH_RD_LIMIT, 0, 32⟩
abbrev Fld.SH_SCRUB_PERIOD_NS : RegField := ⟨Reg.SH_SCRUB_PERIOD, 0, 64⟩
abbrev Fld.SH_GC_LOW_PERCENT : RegField := ⟨Reg.SH_GC_LOW, 0, 7⟩
abbrev Fld.SH_FLAGS_EVENTS : RegField := ⟨Reg.SH_FLAGS, 0, 6⟩
abbrev Fld.SH_FLAG_COUNT_COUNTS : RegField := ⟨Reg.SH_FLAG_COUNT, 0, 64⟩
abbrev Fld.SH_PORT_INFO_PAGES (i : Nat) : RegField := ⟨(Reg.SH_PORT_INFO i), 0, 16⟩
abbrev Fld.SH_PORT_INFO_TR_US (i : Nat) : RegField := ⟨(Reg.SH_PORT_INFO i), 16, 16⟩
abbrev Fld.SH_PORT_INFO_TARGETS (i : Nat) : RegField := ⟨(Reg.SH_PORT_INFO i), 32, 3⟩
abbrev Fld.SH_PORT_INFO_LUNS (i : Nat) : RegField := ⟨(Reg.SH_PORT_INFO i), 35, 4⟩
abbrev Fld.SH_PORT_INFO_PLANES (i : Nat) : RegField := ⟨(Reg.SH_PORT_INFO i), 39, 3⟩
abbrev Fld.SH_PORT_INFO_IN_SERVICE (i : Nat) : RegField := ⟨(Reg.SH_PORT_INFO i), 42, 1⟩
abbrev Fld.SH_PORT_INFO_READ_ONLY (i : Nat) : RegField := ⟨(Reg.SH_PORT_INFO i), 43, 1⟩
abbrev Fld.SH_BOOK_BLOCKS (i : Nat) (j : Nat) : RegField := ⟨(Reg.SH_BOOK i j), 0, 32⟩
abbrev Fld.SH_WEAR_MIN (i : Nat) : RegField := ⟨(Reg.SH_WEAR i), 0, 16⟩
abbrev Fld.SH_WEAR_MAX (i : Nat) : RegField := ⟨(Reg.SH_WEAR i), 16, 16⟩
abbrev Fld.SH_WEAR_OP_PERMILLE (i : Nat) : RegField := ⟨(Reg.SH_WEAR i), 32, 16⟩
abbrev Fld.PF_CTRL_EN : RegField := ⟨Reg.PF_CTRL, 0, 1⟩
abbrev Fld.PF_CTRL_COMMIT : RegField := ⟨Reg.PF_CTRL, 1, 1⟩
abbrev Fld.PF_OBJ_BASE_BASE : RegField := ⟨Reg.PF_OBJ_BASE, 0, 48⟩
abbrev Fld.PF_OBJ_COUNT_COUNT : RegField := ⟨Reg.PF_OBJ_COUNT, 0, 24⟩
abbrev Fld.PF_DISTANCE_LAYERS : RegField := ⟨Reg.PF_DISTANCE, 0, 4⟩
abbrev Fld.PF_POOL_GRANULES : RegField := ⟨Reg.PF_POOL, 0, 32⟩
abbrev Fld.PF_PROMOTE_USES : RegField := ⟨Reg.PF_PROMOTE, 0, 16⟩
abbrev Fld.PF_PROMOTE_WINDOW : RegField := ⟨Reg.PF_PROMOTE, 16, 16⟩
abbrev Fld.PF_HIT_COUNT : RegField := ⟨Reg.PF_HIT, 0, 64⟩
abbrev Fld.PF_MISS_COUNT : RegField := ⟨Reg.PF_MISS, 0, 64⟩
abbrev Fld.PF_WAIT_NS_NS : RegField := ⟨Reg.PF_WAIT_NS, 0, 64⟩
abbrev Fld.PF_FLAGS_WAIT : RegField := ⟨Reg.PF_FLAGS, 0, 1⟩
abbrev Fld.PF_FLAG_COUNT_COUNTS : RegField := ⟨Reg.PF_FLAG_COUNT, 0, 64⟩
abbrev Fld.TX_CTRL_EN : RegField := ⟨Reg.TX_CTRL, 0, 1⟩
abbrev Fld.TX_INPUT_BYTES_BYTES : RegField := ⟨Reg.TX_INPUT_BYTES, 0, 32⟩
abbrev Fld.TX_CALL_MAX_BYTES : RegField := ⟨Reg.TX_CALL_MAX, 0, 32⟩
abbrev Fld.TX_FLAGS_INPUT_TRUNC : RegField := ⟨Reg.TX_FLAGS, 0, 1⟩
abbrev Fld.TX_FLAGS_CALL_OVERFLOW : RegField := ⟨Reg.TX_FLAGS, 1, 1⟩
abbrev Fld.TX_FLAGS_CONFIG_BAD : RegField := ⟨Reg.TX_FLAGS, 2, 1⟩
abbrev Fld.TX_FLAGS_BAD_TOKEN : RegField := ⟨Reg.TX_FLAGS, 3, 1⟩
abbrev Fld.TX_FLAG_COUNT_COUNTS : RegField := ⟨Reg.TX_FLAG_COUNT, 0, 64⟩
abbrev Fld.TX_CACHE_HIT_COUNT : RegField := ⟨Reg.TX_CACHE_HIT, 0, 64⟩
abbrev Fld.TX_CACHE_MISS_COUNT : RegField := ⟨Reg.TX_CACHE_MISS, 0, 64⟩
abbrev Fld.TX_CFG_VOCAB_COUNT (i : Nat) : RegField := ⟨(Reg.TX_CFG i), 0, 21⟩
abbrev Fld.TX_CFG_MODE (i : Nat) : RegField := ⟨(Reg.TX_CFG i), 21, 1⟩
abbrev Fld.TX_CFG_VALID (i : Nat) : RegField := ⟨(Reg.TX_CFG i), 22, 1⟩
abbrev Fld.TX_VOCAB_BASE (i : Nat) : RegField := ⟨(Reg.TX_VOCAB i), 0, 48⟩
abbrev Fld.TX_POOL_BASE (i : Nat) : RegField := ⟨(Reg.TX_POOL i), 0, 48⟩
abbrev Fld.TX_TABLES_BASE (i : Nat) : RegField := ⟨(Reg.TX_TABLES i), 0, 48⟩
abbrev Fld.TX_TABLES_SPLIT_EN (i : Nat) : RegField := ⟨(Reg.TX_TABLES i), 48, 1⟩
abbrev Fld.TX_MERGE_BASE (i : Nat) : RegField := ⟨(Reg.TX_MERGE i), 0, 48⟩
abbrev Fld.TX_MERGE_LOG2_SLOTS (i : Nat) : RegField := ⟨(Reg.TX_MERGE i), 48, 5⟩
abbrev Fld.TX_TOOLTOK_TOOL_OPEN (i : Nat) : RegField := ⟨(Reg.TX_TOOLTOK i), 0, 21⟩
abbrev Fld.TX_TOOLTOK_TOOL_CLOSE (i : Nat) : RegField := ⟨(Reg.TX_TOOLTOK i), 21, 21⟩
abbrev Fld.TX_RESTOK_RESULT_OPEN (i : Nat) : RegField := ⟨(Reg.TX_RESTOK i), 0, 21⟩
abbrev Fld.TX_RESTOK_RESULT_CLOSE (i : Nat) : RegField := ⟨(Reg.TX_RESTOK i), 21, 21⟩
abbrev Fld.GR_CTRL_EN : RegField := ⟨Reg.GR_CTRL, 0, 1⟩
abbrev Fld.GR_FLAGS_DEAD : RegField := ⟨Reg.GR_FLAGS, 0, 1⟩
abbrev Fld.GR_FLAGS_IMAGE_BAD : RegField := ⟨Reg.GR_FLAGS, 1, 1⟩
abbrev Fld.GR_FLAGS_SLOW_MASK : RegField := ⟨Reg.GR_FLAGS, 2, 1⟩
abbrev Fld.GR_FLAGS_MASK_LATE : RegField := ⟨Reg.GR_FLAGS, 3, 1⟩
abbrev Fld.GR_FLAG_COUNT_COUNTS : RegField := ⟨Reg.GR_FLAG_COUNT, 0, 64⟩
abbrev Fld.GR_DEAD_CNT_COUNT : RegField := ⟨Reg.GR_DEAD_CNT, 0, 64⟩
abbrev Fld.GR_SLOW_CNT_COUNT : RegField := ⟨Reg.GR_SLOW_CNT, 0, 64⟩
abbrev Fld.GR_LATE_CNT_COUNT : RegField := ⟨Reg.GR_LATE_CNT, 0, 64⟩
abbrev Fld.GR_LATE_NS_NS : RegField := ⟨Reg.GR_LATE_NS, 0, 64⟩
abbrev Fld.SEL_CTRL_EN : RegField := ⟨Reg.SEL_CTRL, 0, 1⟩
abbrev Fld.SEL_SHARD_BASE_BASE : RegField := ⟨Reg.SEL_SHARD_BASE, 0, 32⟩
abbrev Fld.SEL_FLAGS_FEWER : RegField := ⟨Reg.SEL_FLAGS, 0, 1⟩
abbrev Fld.SEL_FLAGS_DUP : RegField := ⟨Reg.SEL_FLAGS, 1, 1⟩
abbrev Fld.SEL_FLAGS_NAN : RegField := ⟨Reg.SEL_FLAGS, 2, 1⟩
abbrev Fld.SEL_FLAGS_PROFILE_BAD : RegField := ⟨Reg.SEL_FLAGS, 3, 1⟩
abbrev Fld.SEL_FLAG_COUNT_COUNTS : RegField := ⟨Reg.SEL_FLAG_COUNT, 0, 64⟩
abbrev Fld.SEL_DUP_CNT_COUNT : RegField := ⟨Reg.SEL_DUP_CNT, 0, 64⟩
abbrev Fld.SEL_FEWER_CNT_COUNT : RegField := ⟨Reg.SEL_FEWER_CNT, 0, 64⟩
abbrev Fld.SEL_NAN_CNT_COUNT : RegField := ⟨Reg.SEL_NAN_CNT, 0, 64⟩
abbrev Fld.SEL_DRAWS_COUNT : RegField := ⟨Reg.SEL_DRAWS, 0, 64⟩
abbrev Fld.SEL_PROF_BASE (i : Nat) : RegField := ⟨(Reg.SEL_PROF i), 0, 48⟩
abbrev Fld.SEL_PROF_COUNT (i : Nat) : RegField := ⟨(Reg.SEL_PROF i), 48, 9⟩
abbrev Fld.VS_CTRL_EN : RegField := ⟨Reg.VS_CTRL, 0, 1⟩
abbrev Fld.VS_CTRL_AUTO_MERGE : RegField := ⟨Reg.VS_CTRL, 1, 1⟩
abbrev Fld.VS_PREFETCH_CANDIDATES : RegField := ⟨Reg.VS_PREFETCH, 0, 4⟩
abbrev Fld.VS_MERGE_AT_PERCENT : RegField := ⟨Reg.VS_MERGE_AT, 0, 7⟩
abbrev Fld.VS_FLAGS_SIDE_FULL : RegField := ⟨Reg.VS_FLAGS, 0, 1⟩
abbrev Fld.VS_FLAGS_VISIT_FULL : RegField := ⟨Reg.VS_FLAGS, 1, 1⟩
abbrev Fld.VS_FLAGS_CODE_FAIL : RegField := ⟨Reg.VS_FLAGS, 2, 1⟩
abbrev Fld.VS_FLAGS_MERGED : RegField := ⟨Reg.VS_FLAGS, 3, 1⟩
abbrev Fld.VS_FLAGS_IMAGE_BAD : RegField := ⟨Reg.VS_FLAGS, 4, 1⟩
abbrev Fld.VS_FLAG_COUNT_COUNTS : RegField := ⟨Reg.VS_FLAG_COUNT, 0, 64⟩
abbrev Fld.VS_QUERIES_COUNT : RegField := ⟨Reg.VS_QUERIES, 0, 64⟩
abbrev Fld.VS_COMPARES_COUNT : RegField := ⟨Reg.VS_COMPARES, 0, 64⟩
abbrev Fld.VS_CODE_FAIL_CNT_COUNT : RegField := ⟨Reg.VS_CODE_FAIL_CNT, 0, 64⟩
abbrev Fld.VS_CAP_USED_CODES : RegField := ⟨Reg.VS_CAP_USED, 0, 33⟩
abbrev Fld.SCH_CTX_CTRL_EN : RegField := ⟨Reg.SCH_CTX_CTRL, 0, 1⟩
abbrev Fld.SCH_CTX_CTRL_COMMIT : RegField := ⟨Reg.SCH_CTX_CTRL, 1, 1⟩
abbrev Fld.SCH_CTX_BASE_BASE : RegField := ⟨Reg.SCH_CTX_BASE, 0, 48⟩
abbrev Fld.SCH_CTX_SLOTS_SLOTS : RegField := ⟨Reg.SCH_CTX_SLOTS, 0, 13⟩
abbrev Fld.SCH_CTX_LIVE_COUNT : RegField := ⟨Reg.SCH_CTX_LIVE, 0, 13⟩
abbrev Fld.SCH_CTX_FAULTS_COUNT : RegField := ⟨Reg.SCH_CTX_FAULTS, 0, 64⟩
abbrev Fld.SCH_CTX_FLAGS_FAULT : RegField := ⟨Reg.SCH_CTX_FLAGS, 0, 1⟩
abbrev Fld.SCH_CTX_FLAGS_HALT : RegField := ⟨Reg.SCH_CTX_FLAGS, 1, 1⟩
abbrev Fld.SCH_CTX_FLAGS_STOPPED : RegField := ⟨Reg.SCH_CTX_FLAGS, 2, 1⟩
abbrev Fld.SCH_CTX_FLAG_COUNT_COUNTS : RegField := ⟨Reg.SCH_CTX_FLAG_COUNT, 0, 64⟩
abbrev Fld.GC_ARITH_CTRL_FREE_ORDER_EN : RegField := ⟨Reg.GC_ARITH_CTRL, 0, 1⟩
abbrev Fld.GC_ND_COUNT_COUNT : RegField := ⟨Reg.GC_ND_COUNT, 0, 64⟩
abbrev Fld.GC_SAT_CNT_COUNT : RegField := ⟨Reg.GC_SAT_CNT, 0, 64⟩
abbrev Fld.YT_CTRL_RUN : RegField := ⟨Reg.YT_CTRL, 0, 1⟩
abbrev Fld.YT_CTRL_SRC : RegField := ⟨Reg.YT_CTRL, 1, 2⟩
abbrev Fld.YT_CTRL_BARRIER_EN : RegField := ⟨Reg.YT_CTRL, 3, 1⟩
abbrev Fld.YT_CTRL_COMMIT : RegField := ⟨Reg.YT_CTRL, 4, 1⟩
abbrev Fld.YT_SET_NS : RegField := ⟨Reg.YT_SET, 0, 64⟩
abbrev Fld.YT_NOW_NS : RegField := ⟨Reg.YT_NOW, 0, 64⟩
abbrev Fld.YT_STATUS_LOCKED : RegField := ⟨Reg.YT_STATUS, 0, 1⟩
abbrev Fld.YT_STATUS_HOLDOVER : RegField := ⟨Reg.YT_STATUS, 1, 1⟩
abbrev Fld.YT_STATUS_PTP_SOURCE : RegField := ⟨Reg.YT_STATUS, 2, 1⟩
abbrev Fld.YT_STATUS_FALLBACK : RegField := ⟨Reg.YT_STATUS, 3, 1⟩
abbrev Fld.YT_RATE_PPB : RegField := ⟨Reg.YT_RATE, 0, 32⟩
abbrev Fld.YT_OFFSET_NS : RegField := ⟨Reg.YT_OFFSET, 0, 64⟩
abbrev Fld.YT_LOCK_LIMIT_NS : RegField := ⟨Reg.YT_LOCK_LIMIT, 0, 16⟩
abbrev Fld.YT_PTP_DOMAIN : RegField := ⟨Reg.YT_PTP, 0, 8⟩
abbrev Fld.YT_PTP_PORTS : RegField := ⟨Reg.YT_PTP, 8, 8⟩
abbrev Fld.YT_PTP_DELAY : RegField := ⟨Reg.YT_PTP, 16, 1⟩
abbrev Fld.YT_PTP_TRANSPORT : RegField := ⟨Reg.YT_PTP, 17, 1⟩
abbrev Fld.YT_PPS_STAMP_NS : RegField := ⟨Reg.YT_PPS_STAMP, 0, 64⟩
abbrev Fld.YT_WAGGLE_LEAD_NS : RegField := ⟨Reg.YT_WAGGLE_LEAD, 0, 32⟩
abbrev Fld.YT_FLAGS_EVENTS : RegField := ⟨Reg.YT_FLAGS, 0, 5⟩
abbrev Fld.YT_FLAG_COUNT_COUNTS : RegField := ⟨Reg.YT_FLAG_COUNT, 0, 64⟩
abbrev Fld.TL_CTRL_EN : RegField := ⟨Reg.TL_CTRL, 0, 1⟩
abbrev Fld.TL_HOST_SIG_TALLY : RegField := ⟨Reg.TL_HOST_SIG, 0, 13⟩
abbrev Fld.TL_HOST_SIG_COUNT : RegField := ⟨Reg.TL_HOST_SIG, 16, 16⟩
abbrev Fld.TL_INFLIGHT_SIGNALS : RegField := ⟨Reg.TL_INFLIGHT, 0, 32⟩
abbrev Fld.TL_SNAP_SEL_TALLY : RegField := ⟨Reg.TL_SNAP_SEL, 0, 13⟩
abbrev Fld.TL_SNAP_COUNT_COUNT : RegField := ⟨Reg.TL_SNAP_COUNT, 0, 32⟩
abbrev Fld.TL_SNAP_SIG_SIG : RegField := ⟨Reg.TL_SNAP_SIG, 0, 64⟩
abbrev Fld.TL_SNAP_TAKEN_TAKEN : RegField := ⟨Reg.TL_SNAP_TAKEN, 0, 64⟩
abbrev Fld.TL_SNAP_WAITERS_WAITERS : RegField := ⟨Reg.TL_SNAP_WAITERS, 0, 14⟩
abbrev Fld.TL_TIMEOUT_CNT_COUNT : RegField := ⟨Reg.TL_TIMEOUT_CNT, 0, 64⟩
abbrev Fld.TL_FLAGS_OVERFLOW : RegField := ⟨Reg.TL_FLAGS, 0, 1⟩
abbrev Fld.TL_FLAGS_CANCELLED : RegField := ⟨Reg.TL_FLAGS, 1, 1⟩
abbrev Fld.TL_FLAGS_HOST_SIG_FAIL : RegField := ⟨Reg.TL_FLAGS, 2, 1⟩
abbrev Fld.TL_FLAG_COUNT_COUNTS : RegField := ⟨Reg.TL_FLAG_COUNT, 0, 64⟩
abbrev Fld.TL_BIND_TENANT (i : Nat) : RegField := ⟨(Reg.TL_BIND i), 0, 8⟩
abbrev Fld.TL_BIND_EN (i : Nat) : RegField := ⟨(Reg.TL_BIND i), 8, 1⟩
abbrev Fld.TL_BIND_ABSENT (i : Nat) : RegField := ⟨(Reg.TL_BIND i), 9, 1⟩
abbrev Fld.SCH_CTRL_EN : RegField := ⟨Reg.SCH_CTRL, 0, 1⟩
abbrev Fld.SCH_ROUNDS_COUNT : RegField := ⟨Reg.SCH_ROUNDS, 0, 64⟩
abbrev Fld.SCH_STARVE_COMPOSITIONS : RegField := ⟨Reg.SCH_STARVE, 0, 16⟩
abbrev Fld.SCH_FLAGS_EVENTS : RegField := ⟨Reg.SCH_FLAGS, 0, 7⟩
abbrev Fld.SCH_FLAG_COUNT_COUNTS : RegField := ⟨Reg.SCH_FLAG_COUNT, 0, 64⟩
abbrev Fld.SCH_LEFT_COUNT (i : Nat) : RegField := ⟨(Reg.SCH_LEFT i), 0, 64⟩
abbrev Fld.SCH_HUBTHR_TENANT (i : Nat) : RegField := ⟨(Reg.SCH_HUBTHR i), 0, 8⟩
abbrev Fld.SCH_HUBTHR_BOUND (i : Nat) : RegField := ⟨(Reg.SCH_HUBTHR i), 8, 1⟩
abbrev Fld.SCH_PART_COMBS (i : Nat) : RegField := ⟨(Reg.SCH_PART i), 0, 32⟩
abbrev Fld.SCH_PART_VALID (i : Nat) : RegField := ⟨(Reg.SCH_PART i), 32, 1⟩
abbrev Fld.SCH_SLICE_START_NS (i : Nat) : RegField := ⟨(Reg.SCH_SLICE_START i), 0, 64⟩
abbrev Fld.SCH_SWITCH_NS (i : Nat) : RegField := ⟨(Reg.SCH_SWITCH i), 0, 32⟩
abbrev Fld.SCH_SLICE_TENANT (i : Nat) (j : Nat) : RegField := ⟨(Reg.SCH_SLICE i j), 0, 8⟩
abbrev Fld.SCH_SLICE_DURATION (i : Nat) (j : Nat) : RegField := ⟨(Reg.SCH_SLICE i j), 32, 32⟩
abbrev Fld.SCH_ROUND_CFG_PERIOD (i : Nat) : RegField := ⟨(Reg.SCH_ROUND_CFG i), 0, 32⟩
abbrev Fld.SCH_ROUND_CFG_LEAD (i : Nat) : RegField := ⟨(Reg.SCH_ROUND_CFG i), 32, 32⟩
abbrev Fld.SCH_LATENCY_GOAL (i : Nat) : RegField := ⟨(Reg.SCH_LATENCY i), 0, 32⟩
abbrev Fld.SCH_LATENCY_PROTECT (i : Nat) : RegField := ⟨(Reg.SCH_LATENCY i), 32, 3⟩
abbrev Fld.SCH_LATENCY_MIN_CAP (i : Nat) : RegField := ⟨(Reg.SCH_LATENCY i), 36, 16⟩
abbrev Fld.SCH_CAP_CAP (i : Nat) : RegField := ⟨(Reg.SCH_CAP i), 0, 16⟩
abbrev Fld.SCH_LAST_DURATION (i : Nat) : RegField := ⟨(Reg.SCH_LAST i), 0, 32⟩
abbrev Fld.SCH_LAST_ROUND_ID (i : Nat) : RegField := ⟨(Reg.SCH_LAST i), 32, 32⟩
abbrev Fld.TN_PERIOD_NS : RegField := ⟨Reg.TN_PERIOD, 0, 48⟩
abbrev Fld.TN_PERIOD_NO_COUNT : RegField := ⟨Reg.TN_PERIOD_NO, 0, 64⟩
abbrev Fld.TN_CTRL_EN (i : Nat) : RegField := ⟨(Reg.TN_CTRL i), 0, 1⟩
abbrev Fld.TN_CTRL_PARTITION (i : Nat) : RegField := ⟨(Reg.TN_CTRL i), 1, 5⟩
abbrev Fld.TN_CTRL_MODEL (i : Nat) : RegField := ⟨(Reg.TN_CTRL i), 6, 5⟩
abbrev Fld.TN_CTRL_MODEL_EN (i : Nat) : RegField := ⟨(Reg.TN_CTRL i), 11, 1⟩
abbrev Fld.TN_QUOTA_STALLS (i : Nat) : RegField := ⟨(Reg.TN_QUOTA i), 0, 23⟩
abbrev Fld.TN_QUOTA_CONTEXTS (i : Nat) : RegField := ⟨(Reg.TN_QUOTA i), 32, 13⟩
abbrev Fld.TN_USE_STALLS (i : Nat) : RegField := ⟨(Reg.TN_USE i), 0, 23⟩
abbrev Fld.TN_USE_CONTEXTS (i : Nat) : RegField := ⟨(Reg.TN_USE i), 32, 13⟩
abbrev Fld.TN_GRANT_TOKENS (i : Nat) : RegField := ⟨(Reg.TN_GRANT i), 0, 48⟩
abbrev Fld.TN_GRANT_UNLIMITED (i : Nat) : RegField := ⟨(Reg.TN_GRANT i), 63, 1⟩
abbrev Fld.TN_GRANTED_TOKENS (i : Nat) : RegField := ⟨(Reg.TN_GRANTED i), 0, 48⟩
abbrev Fld.TN_CONSUMED_TOKENS (i : Nat) : RegField := ⟨(Reg.TN_CONSUMED i), 0, 48⟩
abbrev Fld.TN_REFUNDED_TOKENS (i : Nat) : RegField := ⟨(Reg.TN_REFUNDED i), 0, 48⟩
abbrev Fld.TN_REMAINING_TOKENS (i : Nat) : RegField := ⟨(Reg.TN_REMAINING i), 0, 48⟩
abbrev Fld.TN_QUEUED_TOKENS (i : Nat) : RegField := ⟨(Reg.TN_QUEUED i), 0, 48⟩
abbrev Fld.TN_LAST_CONSUMED_TOKENS (i : Nat) : RegField := ⟨(Reg.TN_LAST_CONSUMED i), 0, 48⟩
abbrev Fld.TN_FAULTS_COUNT (i : Nat) : RegField := ⟨(Reg.TN_FAULTS i), 0, 64⟩
abbrev Fld.GC_PORT_CFG_MGMT (i : Nat) : RegField := ⟨(Reg.GC_PORT_CFG i), 0, 1⟩
abbrev Fld.GC_PORT_CFG_IDE_REQ (i : Nat) : RegField := ⟨(Reg.GC_PORT_CFG i), 1, 1⟩
abbrev Fld.GC_PORT_STATE_LINK (i : Nat) : RegField := ⟨(Reg.GC_PORT_STATE i), 0, 3⟩
abbrev Fld.GC_PORT_STATE_WIDTH (i : Nat) : RegField := ⟨(Reg.GC_PORT_STATE i), 3, 5⟩
abbrev Fld.GC_PORT_STATE_RATE (i : Nat) : RegField := ⟨(Reg.GC_PORT_STATE i), 8, 3⟩
abbrev Fld.GC_PORT_STATE_IDE (i : Nat) : RegField := ⟨(Reg.GC_PORT_STATE i), 11, 1⟩
abbrev Fld.GC_PORT_STATE_TDI (i : Nat) : RegField := ⟨(Reg.GC_PORT_STATE i), 12, 2⟩
abbrev Fld.GC_PORT_BIND_TENANTS (i : Nat) (j : Nat) : RegField := ⟨(Reg.GC_PORT_BIND i j), 0, 64⟩
abbrev Fld.GC_PORT_DROP_COUNT (i : Nat) : RegField := ⟨(Reg.GC_PORT_DROP i), 0, 64⟩
abbrev Fld.GC_PORT_DENIED_COUNT (i : Nat) : RegField := ⟨(Reg.GC_PORT_DENIED i), 0, 64⟩
abbrev Fld.GC_PORT_CTRL_COMMIT : RegField := ⟨Reg.GC_PORT_CTRL, 0, 1⟩
abbrev Fld.GC_OP_HOLD_NS : RegField := ⟨Reg.GC_OP_HOLD, 0, 64⟩
abbrev Fld.GC_OP_LIVE_COUNT : RegField := ⟨Reg.GC_OP_LIVE, 0, 13⟩
abbrev Fld.GC_HOST_FLAGS_EVENTS : RegField := ⟨Reg.GC_HOST_FLAGS, 0, 8⟩
abbrev Fld.GC_HOST_FLAG_COUNT_COUNTS : RegField := ⟨Reg.GC_HOST_FLAG_COUNT, 0, 64⟩
abbrev Fld.NW_CTRL_EN : RegField := ⟨Reg.NW_CTRL, 0, 1⟩
abbrev Fld.NW_CTRL_COMMIT : RegField := ⟨Reg.NW_CTRL, 1, 1⟩
abbrev Fld.NW_DEV_DEV_ID : RegField := ⟨Reg.NW_DEV, 0, 12⟩
abbrev Fld.NW_DEV_MST_UDP : RegField := ⟨Reg.NW_DEV, 16, 16⟩
abbrev Fld.NW_MAP_BASE_BASE : RegField := ⟨Reg.NW_MAP_BASE, 0, 48⟩
abbrev Fld.NW_MAP_GEN_GEN : RegField := ⟨Reg.NW_MAP_GEN, 0, 32⟩
abbrev Fld.NW_HELLO_PERIOD : RegField := ⟨Reg.NW_HELLO, 0, 32⟩
abbrev Fld.NW_HELLO_MISS : RegField := ⟨Reg.NW_HELLO, 32, 8⟩
abbrev Fld.NW_RETX_NS : RegField := ⟨Reg.NW_RETX, 0, 32⟩
abbrev Fld.NW_ACCEPT_NS : RegField := ⟨Reg.NW_ACCEPT, 0, 32⟩
abbrev Fld.NW_RX_BASE_BASE : RegField := ⟨Reg.NW_RX_BASE, 0, 48⟩
abbrev Fld.NW_CREDITS_CREDITS : RegField := ⟨Reg.NW_CREDITS, 0, 16⟩
abbrev Fld.NW_INBOX_BYTES : RegField := ⟨Reg.NW_INBOX, 0, 32⟩
abbrev Fld.NW_EP_TIMEOUT_NS : RegField := ⟨Reg.NW_EP_TIMEOUT, 0, 64⟩
abbrev Fld.NW_FLAGS_EVENTS : RegField := ⟨Reg.NW_FLAGS, 0, 9⟩
abbrev Fld.NW_FLAG_COUNT_COUNTS : RegField := ⟨Reg.NW_FLAG_COUNT, 0, 64⟩
abbrev Fld.NW_FLAG_COUNT2_COUNT_8 : RegField := ⟨Reg.NW_FLAG_COUNT2, 0, 8⟩
abbrev Fld.NW_STAT_COUNT (i : Nat) : RegField := ⟨(Reg.NW_STAT i), 0, 64⟩
abbrev Fld.NW_FLOW_SEL_PEER : RegField := ⟨Reg.NW_FLOW_SEL, 0, 16⟩
abbrev Fld.NW_FLOW_SEL_TENANT : RegField := ⟨Reg.NW_FLOW_SEL, 16, 8⟩
abbrev Fld.NW_FLOW_CREDITS_COUNT : RegField := ⟨Reg.NW_FLOW_CREDITS, 0, 16⟩
abbrev Fld.NW_FLOW_INFLIGHT_COUNT : RegField := ⟨Reg.NW_FLOW_INFLIGHT, 0, 16⟩
abbrev Fld.NW_FLOW_FREE_COUNT : RegField := ⟨Reg.NW_FLOW_FREE, 0, 16⟩
abbrev Fld.NW_PORT_CFG_MAC (i : Nat) : RegField := ⟨(Reg.NW_PORT_CFG i), 0, 48⟩
abbrev Fld.NW_PORT_CFG_PHY (i : Nat) : RegField := ⟨(Reg.NW_PORT_CFG i), 48, 3⟩
abbrev Fld.NW_PORT_CFG_EN (i : Nat) : RegField := ⟨(Reg.NW_PORT_CFG i), 51, 1⟩
abbrev Fld.NW_PORT_IP_HI_ADDR (i : Nat) : RegField := ⟨(Reg.NW_PORT_IP_HI i), 0, 64⟩
abbrev Fld.NW_PORT_IP_LO_ADDR (i : Nat) : RegField := ⟨(Reg.NW_PORT_IP_LO i), 0, 64⟩
abbrev Fld.NW_PORT_NEXTHOP_MAC (i : Nat) : RegField := ⟨(Reg.NW_PORT_NEXTHOP i), 0, 48⟩
abbrev Fld.NW_PORT_STATE_LINK (i : Nat) : RegField := ⟨(Reg.NW_PORT_STATE i), 0, 2⟩
abbrev Fld.NW_PORT_STATE_SPARED (i : Nat) : RegField := ⟨(Reg.NW_PORT_STATE i), 2, 4⟩
abbrev Fld.NW_PORT_FEC_CORR (i : Nat) : RegField := ⟨(Reg.NW_PORT_FEC i), 0, 32⟩
abbrev Fld.NW_PORT_FEC_UNCORR (i : Nat) : RegField := ⟨(Reg.NW_PORT_FEC i), 32, 32⟩
abbrev Fld.NW_LANE_PORT (i : Nat) : RegField := ⟨(Reg.NW_LANE i), 0, 4⟩
abbrev Fld.NW_LANE_LANE (i : Nat) : RegField := ⟨(Reg.NW_LANE i), 4, 2⟩
abbrev Fld.NW_LANE_STATE (i : Nat) : RegField := ⟨(Reg.NW_LANE i), 6, 2⟩
abbrev Fld.NW_LANE_WIRED (i : Nat) : RegField := ⟨(Reg.NW_LANE i), 8, 2⟩
abbrev Fld.NW_GW_IP_HI_ADDR (i : Nat) : RegField := ⟨(Reg.NW_GW_IP_HI i), 0, 64⟩
abbrev Fld.NW_GW_IP_LO_ADDR (i : Nat) : RegField := ⟨(Reg.NW_GW_IP_LO i), 0, 64⟩
abbrev Fld.NW_TOOL_IP_HI_ADDR (i : Nat) : RegField := ⟨(Reg.NW_TOOL_IP_HI i), 0, 64⟩
abbrev Fld.NW_TOOL_IP_LO_ADDR (i : Nat) : RegField := ⟨(Reg.NW_TOOL_IP_LO i), 0, 64⟩
abbrev Fld.NW_EP_PORTS_GW_UDP (i : Nat) : RegField := ⟨(Reg.NW_EP_PORTS i), 0, 16⟩
abbrev Fld.NW_EP_PORTS_TOOL_UDP (i : Nat) : RegField := ⟨(Reg.NW_EP_PORTS i), 16, 16⟩
abbrev Fld.NW_EP_PORTS_GW_EN (i : Nat) : RegField := ⟨(Reg.NW_EP_PORTS i), 32, 1⟩
abbrev Fld.NW_EP_PORTS_TOOL_EN (i : Nat) : RegField := ⟨(Reg.NW_EP_PORTS i), 33, 1⟩
abbrev Fld.TS_CTRL_EN : RegField := ⟨Reg.TS_CTRL, 0, 1⟩
abbrev Fld.TS_REFILL_NS : RegField := ⟨Reg.TS_REFILL, 0, 32⟩
abbrev Fld.TS_DSCP_DSCP : RegField := ⟨Reg.TS_DSCP, 0, 48⟩
abbrev Fld.TS_FLAGS_EVENTS : RegField := ⟨Reg.TS_FLAGS, 0, 4⟩
abbrev Fld.TS_FLAG_COUNT_COUNTS : RegField := ⟨Reg.TS_FLAG_COUNT, 0, 64⟩
abbrev Fld.TS_QBYTES_BYTES : RegField := ⟨Reg.TS_QBYTES, 0, 48⟩
abbrev Fld.TS_TCLASS_OUTPUT (i : Nat) : RegField := ⟨(Reg.TS_TCLASS i), 0, 3⟩
abbrev Fld.TS_TCLASS_CALL (i : Nat) : RegField := ⟨(Reg.TS_TCLASS i), 3, 3⟩
abbrev Fld.TS_TCLASS_MIGRATE (i : Nat) : RegField := ⟨(Reg.TS_TCLASS i), 6, 3⟩
abbrev Fld.TS_TCLASS_SEND (i : Nat) : RegField := ⟨(Reg.TS_TCLASS i), 9, 3⟩
abbrev Fld.TS_POLICE_RATE (i : Nat) (j : Nat) : RegField := ⟨(Reg.TS_POLICE i j), 0, 20⟩
abbrev Fld.TS_POLICE_BURST (i : Nat) (j : Nat) : RegField := ⟨(Reg.TS_POLICE i j), 20, 24⟩
abbrev Fld.TS_POLICE_EN (i : Nat) (j : Nat) : RegField := ⟨(Reg.TS_POLICE i j), 63, 1⟩
abbrev Fld.TS_POLICE_DROP_COUNT (i : Nat) : RegField := ⟨(Reg.TS_POLICE_DROP i), 0, 64⟩
abbrev Fld.TS_GATE_CTRL_LOAD (i : Nat) : RegField := ⟨(Reg.TS_GATE_CTRL i), 0, 1⟩
abbrev Fld.TS_GATE_CTRL_CANCEL (i : Nat) : RegField := ⟨(Reg.TS_GATE_CTRL i), 1, 1⟩
abbrev Fld.TS_GATE_CTRL_PENDING (i : Nat) : RegField := ⟨(Reg.TS_GATE_CTRL i), 2, 1⟩
abbrev Fld.TS_GATE_START_NS (i : Nat) : RegField := ⟨(Reg.TS_GATE_START i), 0, 64⟩
abbrev Fld.TS_GATE_STATE_LENGTH (i : Nat) : RegField := ⟨(Reg.TS_GATE_STATE i), 0, 9⟩
abbrev Fld.TS_GATE_STATE_INDEX (i : Nat) : RegField := ⟨(Reg.TS_GATE_STATE i), 9, 8⟩
abbrev Fld.TS_GATE_ENTRY_OPEN (i : Nat) (j : Nat) : RegField := ⟨(Reg.TS_GATE_ENTRY i j), 0, 8⟩
abbrev Fld.TS_GATE_ENTRY_NS (i : Nat) (j : Nat) : RegField := ⟨(Reg.TS_GATE_ENTRY i j), 8, 32⟩
abbrev Fld.TS_WEIGHT_W (i : Nat) (j : Nat) (k : Nat) : RegField := ⟨(Reg.TS_WEIGHT i j k), 0, 16⟩
abbrev Fld.TS_RATE_CIR (i : Nat) (j : Nat) (k : Nat) : RegField := ⟨(Reg.TS_RATE i j k), 0, 20⟩
abbrev Fld.TS_RATE_PIR (i : Nat) (j : Nat) (k : Nat) : RegField := ⟨(Reg.TS_RATE i j k), 20, 20⟩
abbrev Fld.TS_DEPTH_CBS (i : Nat) (j : Nat) (k : Nat) : RegField := ⟨(Reg.TS_DEPTH i j k), 0, 24⟩
abbrev Fld.TS_DEPTH_PBS (i : Nat) (j : Nat) (k : Nat) : RegField := ⟨(Reg.TS_DEPTH i j k), 24, 24⟩
abbrev Fld.TS_DEPTH_SHAPE_EN (i : Nat) (j : Nat) (k : Nat) : RegField := ⟨(Reg.TS_DEPTH i j k), 63, 1⟩
abbrev Fld.TS_TOKENS_COMMITTED (i : Nat) (j : Nat) (k : Nat) : RegField := ⟨(Reg.TS_TOKENS i j k), 0, 32⟩
abbrev Fld.TS_TOKENS_PEAK (i : Nat) (j : Nat) (k : Nat) : RegField := ⟨(Reg.TS_TOKENS i j k), 32, 32⟩
abbrev Fld.SEC_CTRL_COMMIT : RegField := ⟨Reg.SEC_CTRL, 0, 1⟩
abbrev Fld.SEC_SERIAL_SERIAL : RegField := ⟨Reg.SEC_SERIAL, 0, 64⟩
abbrev Fld.SEC_STATE_CERT_LOADED : RegField := ⟨Reg.SEC_STATE, 0, 1⟩
abbrev Fld.SEC_STATE_COMMITTED : RegField := ⟨Reg.SEC_STATE, 1, 1⟩
abbrev Fld.SEC_STATE_DEBUG_OPEN : RegField := ⟨Reg.SEC_STATE, 2, 1⟩
abbrev Fld.SEC_STATE_DRBG_OK : RegField := ⟨Reg.SEC_STATE, 3, 1⟩
abbrev Fld.SEC_NET_MODE : RegField := ⟨Reg.SEC_NET, 0, 2⟩
abbrev Fld.SEC_BLOB_FAIL_COUNT : RegField := ⟨Reg.SEC_BLOB_FAIL, 0, 64⟩
abbrev Fld.SEC_FLAGS_EVENTS : RegField := ⟨Reg.SEC_FLAGS, 0, 8⟩
abbrev Fld.SEC_FLAG_COUNT_COUNTS : RegField := ⟨Reg.SEC_FLAG_COUNT, 0, 64⟩
abbrev Fld.SEC_MEAS_GEN_COUNT : RegField := ⟨Reg.SEC_MEAS_GEN, 0, 64⟩
abbrev Fld.SEC_MACSEC_EN (i : Nat) : RegField := ⟨(Reg.SEC_MACSEC i), 0, 1⟩
abbrev Fld.SEC_MACSEC_REQUIRE (i : Nat) : RegField := ⟨(Reg.SEC_MACSEC i), 1, 1⟩
abbrev Fld.SEC_MACSEC_CAK_LOADED (i : Nat) : RegField := ⟨(Reg.SEC_MACSEC i), 2, 1⟩
abbrev Fld.SEC_MACSEC_SECURED (i : Nat) : RegField := ⟨(Reg.SEC_MACSEC i), 3, 1⟩
abbrev Fld.SEC_MACSEC_KS_PRIORITY (i : Nat) : RegField := ⟨(Reg.SEC_MACSEC i), 4, 8⟩
abbrev Fld.SEC_MACSEC_RX_SC (i : Nat) : RegField := ⟨(Reg.SEC_MACSEC i), 12, 7⟩
abbrev Fld.SEC_DOM_INSTALLED (i : Nat) : RegField := ⟨(Reg.SEC_DOM i), 0, 1⟩
abbrev Fld.SEC_DOM_ALLOW (i : Nat) : RegField := ⟨(Reg.SEC_DOM i), 1, 1⟩
abbrev Fld.SEC_JOB_INSTALLED (i : Nat) : RegField := ⟨(Reg.SEC_JOB i), 0, 1⟩
abbrev Fld.SEC_JOB_TENANT (i : Nat) : RegField := ⟨(Reg.SEC_JOB i), 8, 8⟩
abbrev Fld.SEC_JOB_USES (i : Nat) : RegField := ⟨(Reg.SEC_JOB i), 16, 32⟩
abbrev Fld.SEC_TNET_SEL (i : Nat) : RegField := ⟨(Reg.SEC_TNET i), 0, 8⟩
abbrev Fld.SEC_TNET_PROTECT (i : Nat) : RegField := ⟨(Reg.SEC_TNET i), 8, 1⟩
abbrev Fld.SEC_TNET_REQUIRE (i : Nat) : RegField := ⟨(Reg.SEC_TNET i), 9, 1⟩
abbrev Fld.SEC_CONF_CONFIDENTIAL (i : Nat) : RegField := ⟨(Reg.SEC_CONF i), 0, 1⟩
abbrev Fld.SEC_CONF_PORTS (i : Nat) : RegField := ⟨(Reg.SEC_CONF i), 1, 4⟩
abbrev Fld.SV_ID_MAGIC : RegField := ⟨Reg.SV_ID, 0, 32⟩
abbrev Fld.SV_ID_MAJOR : RegField := ⟨Reg.SV_ID, 32, 16⟩
abbrev Fld.SV_ID_MINOR : RegField := ⟨Reg.SV_ID, 48, 16⟩
abbrev Fld.SV_GEN_GENERATION : RegField := ⟨Reg.SV_GEN, 0, 63⟩
abbrev Fld.SV_GEN_UPDATING : RegField := ⟨Reg.SV_GEN, 63, 1⟩
abbrev Fld.SV_PART_MEMBER : RegField := ⟨Reg.SV_PART, 0, 16⟩
abbrev Fld.SV_PART_REVISION : RegField := ⟨Reg.SV_PART, 16, 8⟩
abbrev Fld.SV_PART_VARIANT : RegField := ⟨Reg.SV_PART, 24, 8⟩
abbrev Fld.SV_RECORDS_OFFSET : RegField := ⟨Reg.SV_RECORDS, 0, 32⟩
abbrev Fld.SV_RECORDS_COUNT : RegField := ⟨Reg.SV_RECORDS, 32, 32⟩
abbrev Fld.SV_SERIAL_SERIAL : RegField := ⟨Reg.SV_SERIAL, 0, 64⟩
abbrev Fld.SV_CHANGED_YT_NS : RegField := ⟨Reg.SV_CHANGED_YT, 0, 64⟩
abbrev Fld.SV_TOPO_DIGEST (i : Nat) : RegField := ⟨(Reg.SV_TOPO i), 0, 64⟩
abbrev Fld.SV_DIR_FIRST (i : Nat) : RegField := ⟨(Reg.SV_DIR i), 0, 32⟩
abbrev Fld.SV_DIR_COUNT (i : Nat) : RegField := ⟨(Reg.SV_DIR i), 32, 32⟩
abbrev Fld.BU_STATE_STATE : RegField := ⟨Reg.BU_STATE, 0, 4⟩
abbrev Fld.BU_CTRL_GO : RegField := ⟨Reg.BU_CTRL, 0, 1⟩
abbrev Fld.BU_CTRL_READY_REQ : RegField := ⟨Reg.BU_CTRL, 1, 1⟩
abbrev Fld.BU_ERR_CODE : RegField := ⟨Reg.BU_ERR, 0, 8⟩
abbrev Fld.BU_ERR_DETAIL : RegField := ⟨Reg.BU_ERR, 8, 32⟩
abbrev Fld.BU_LOAD_SRC_ADDR : RegField := ⟨Reg.BU_LOAD_SRC, 0, 64⟩
abbrev Fld.BU_LOAD_LEN_BYTES : RegField := ⟨Reg.BU_LOAD_LEN, 0, 25⟩
abbrev Fld.BU_LOAD_CMD_KIND : RegField := ⟨Reg.BU_LOAD_CMD, 0, 3⟩
abbrev Fld.BU_LOAD_CMD_START : RegField := ⟨Reg.BU_LOAD_CMD, 8, 1⟩
abbrev Fld.BU_LOAD_CMD_BUSY : RegField := ⟨Reg.BU_LOAD_CMD, 9, 1⟩
abbrev Fld.BU_LOAD_CMD_LOADED : RegField := ⟨Reg.BU_LOAD_CMD, 10, 3⟩
abbrev Fld.BU_STRAP_PORT : RegField := ⟨Reg.BU_STRAP, 0, 2⟩
abbrev Fld.BU_TOPO_EXP_DIGEST (i : Nat) : RegField := ⟨(Reg.BU_TOPO_EXP i), 0, 64⟩
abbrev Fld.BU_STEP_US_US (i : Nat) : RegField := ⟨(Reg.BU_STEP_US i), 0, 32⟩
abbrev Fld.BU_FOUND_COUNT_COUNT : RegField := ⟨Reg.BU_FOUND_COUNT, 0, 9⟩
abbrev Fld.BU_FOUND_COUNT_OVERFLOW : RegField := ⟨Reg.BU_FOUND_COUNT, 9, 1⟩
abbrev Fld.BU_FOUND_ENTRY (i : Nat) : RegField := ⟨(Reg.BU_FOUND i), 0, 64⟩
abbrev Fld.CK_CTRL_COMMIT : RegField := ⟨Reg.CK_CTRL, 0, 1⟩
abbrev Fld.CK_CTRL_RATE_CLR : RegField := ⟨Reg.CK_CTRL, 1, 1⟩
abbrev Fld.CK_CTRL_RETURN : RegField := ⟨Reg.CK_CTRL, 2, 1⟩
abbrev Fld.CK_CTRL_AUTO_RETURN : RegField := ⟨Reg.CK_CTRL, 3, 1⟩
abbrev Fld.CK_MON_CFG_TOL_PPM : RegField := ⟨Reg.CK_MON_CFG, 0, 16⟩
abbrev Fld.CK_MON_CFG_WINDOW : RegField := ⟨Reg.CK_MON_CFG, 16, 32⟩
abbrev Fld.CK_MON_CFG_GOOD_WINDOWS : RegField := ⟨Reg.CK_MON_CFG, 48, 8⟩
abbrev Fld.CK_MON_STATUS_FAILED : RegField := ⟨Reg.CK_MON_STATUS, 0, 5⟩
abbrev Fld.CK_MON_STATUS_FALLBACK : RegField := ⟨Reg.CK_MON_STATUS, 5, 3⟩
abbrev Fld.CK_MON_STATUS_MON_FB : RegField := ⟨Reg.CK_MON_STATUS, 8, 1⟩
abbrev Fld.CK_MON_STATUS_TRIM_FROZEN : RegField := ⟨Reg.CK_MON_STATUS, 9, 1⟩
abbrev Fld.CK_FB_TRIM_CODE : RegField := ⟨Reg.CK_FB_TRIM, 0, 16⟩
abbrev Fld.CK_FB_TRIM_ERR_PPM : RegField := ⟨Reg.CK_FB_TRIM, 16, 32⟩
abbrev Fld.CK_FMEAS_CTRL_SRC : RegField := ⟨Reg.CK_FMEAS_CTRL, 0, 3⟩
abbrev Fld.CK_FMEAS_CTRL_GATE_REF : RegField := ⟨Reg.CK_FMEAS_CTRL, 3, 1⟩
abbrev Fld.CK_FMEAS_CTRL_START : RegField := ⟨Reg.CK_FMEAS_CTRL, 4, 1⟩
abbrev Fld.CK_FMEAS_CTRL_DONE : RegField := ⟨Reg.CK_FMEAS_CTRL, 5, 1⟩
abbrev Fld.CK_FMEAS_CTRL_GATE : RegField := ⟨Reg.CK_FMEAS_CTRL, 8, 40⟩
abbrev Fld.CK_FMEAS_COUNT_COUNT : RegField := ⟨Reg.CK_FMEAS_COUNT, 0, 64⟩
abbrev Fld.CK_FLAGS_EVENTS : RegField := ⟨Reg.CK_FLAGS, 0, 3⟩
abbrev Fld.CK_FLAG_COUNT_COUNTS : RegField := ⟨Reg.CK_FLAG_COUNT, 0, 64⟩
abbrev Fld.CK_MON_COUNT_COUNT (i : Nat) : RegField := ⟨(Reg.CK_MON_COUNT i), 0, 32⟩
abbrev Fld.CK_PACE_SETTLE_MAX_US : RegField := ⟨Reg.CK_PACE_SETTLE, 0, 16⟩
abbrev Fld.CK_PACE_SETTLE_TOL_MV : RegField := ⟨Reg.CK_PACE_SETTLE, 16, 8⟩
abbrev Fld.CK_PACE_SETTLE_POLL_US : RegField := ⟨Reg.CK_PACE_SETTLE, 24, 8⟩
abbrev Fld.CK_IDLE_SLEEP_NS : RegField := ⟨Reg.CK_IDLE, 0, 32⟩
abbrev Fld.CK_IDLE_DEEP_NS : RegField := ⟨Reg.CK_IDLE, 32, 32⟩
abbrev Fld.CK_PACE_VID_MV (i : Nat) : RegField := ⟨(Reg.CK_PACE i), 0, 12⟩
abbrev Fld.CK_PACE_CAP (i : Nat) : RegField := ⟨(Reg.CK_PACE i), 16, 12⟩
abbrev Fld.CK_PACE_CTL_REQ (i : Nat) : RegField := ⟨(Reg.CK_PACE_CTL i), 0, 3⟩
abbrev Fld.CK_PACE_CTL_LIMIT (i : Nat) : RegField := ⟨(Reg.CK_PACE_CTL i), 4, 3⟩
abbrev Fld.CK_PACE_STATE_CUR (i : Nat) : RegField := ⟨(Reg.CK_PACE_STATE i), 0, 3⟩
abbrev Fld.CK_PACE_STATE_TARGET (i : Nat) : RegField := ⟨(Reg.CK_PACE_STATE i), 3, 3⟩
abbrev Fld.CK_PACE_STATE_BUSY (i : Nat) : RegField := ⟨(Reg.CK_PACE_STATE i), 6, 1⟩
abbrev Fld.CK_PACE_STATE_VFAIL (i : Nat) : RegField := ⟨(Reg.CK_PACE_STATE i), 7, 1⟩
abbrev Fld.CK_PACE_STATE_VID_AT (i : Nat) : RegField := ⟨(Reg.CK_PACE_STATE i), 8, 12⟩
abbrev Fld.CK_PACE_STATE_DEV_LIMIT (i : Nat) : RegField := ⟨(Reg.CK_PACE_STATE i), 20, 3⟩
abbrev Fld.CK_RATE_KHZ (i : Nat) : RegField := ⟨(Reg.CK_RATE i), 0, 32⟩
abbrev Fld.CK_RATE_MIN_KHZ (i : Nat) : RegField := ⟨(Reg.CK_RATE i), 32, 32⟩
abbrev Fld.CK_GATE_RUN_EN (i : Nat) : RegField := ⟨(Reg.CK_GATE i), 0, 1⟩
abbrev Fld.CK_GATE_SLEEP_EN (i : Nat) : RegField := ⟨(Reg.CK_GATE i), 1, 1⟩
abbrev Fld.CK_GATE_DEEP_EN (i : Nat) : RegField := ⟨(Reg.CK_GATE i), 2, 1⟩
abbrev Fld.CK_GATE_STATE (i : Nat) : RegField := ⟨(Reg.CK_GATE i), 3, 2⟩
abbrev Fld.PW_CTRL_CAP_EN : RegField := ⟨Reg.PW_CTRL, 0, 1⟩
abbrev Fld.PW_CTRL_SAG_EN : RegField := ⟨Reg.PW_CTRL, 1, 1⟩
abbrev Fld.PW_CTRL_COMMIT : RegField := ⟨Reg.PW_CTRL, 2, 1⟩
abbrev Fld.PW_STATUS_WARN : RegField := ⟨Reg.PW_STATUS, 0, 1⟩
abbrev Fld.PW_STATUS_PARKING : RegField := ⟨Reg.PW_STATUS, 1, 1⟩
abbrev Fld.PW_STATUS_SAFE : RegField := ⟨Reg.PW_STATUS, 2, 1⟩
abbrev Fld.PW_STATUS_HOLD : RegField := ⟨Reg.PW_STATUS, 3, 1⟩
abbrev Fld.PW_WARN_YT_NS : RegField := ⟨Reg.PW_WARN_YT, 0, 64⟩
abbrev Fld.PW_SAFE_YT_NS : RegField := ⟨Reg.PW_SAFE_YT, 0, 64⟩
abbrev Fld.PW_RESUME_NS : RegField := ⟨Reg.PW_RESUME, 0, 32⟩
abbrev Fld.PW_CAP_W : RegField := ⟨Reg.PW_CAP, 0, 16⟩
abbrev Fld.PW_CAP_FIXED_W : RegField := ⟨Reg.PW_CAP, 16, 16⟩
abbrev Fld.PW_POWER_W : RegField := ⟨Reg.PW_POWER, 0, 16⟩
abbrev Fld.PW_POWER_PEAK_W : RegField := ⟨Reg.PW_POWER, 16, 16⟩
abbrev Fld.PW_TELEM_US : RegField := ⟨Reg.PW_TELEM, 0, 16⟩
abbrev Fld.PW_TJ_WARN_C : RegField := ⟨Reg.PW_TJ, 0, 8⟩
abbrev Fld.PW_TJ_HYST_C : RegField := ⟨Reg.PW_TJ, 8, 8⟩
abbrev Fld.PW_TJ_TRIP_C : RegField := ⟨Reg.PW_TJ, 16, 8⟩
abbrev Fld.PW_TJ_STEP_US : RegField := ⟨Reg.PW_TJ, 24, 24⟩
abbrev Fld.PW_SAG_MV : RegField := ⟨Reg.PW_SAG, 0, 8⟩
abbrev Fld.PW_SAG_COUNT : RegField := ⟨Reg.PW_SAG, 8, 16⟩
abbrev Fld.PW_AVS_MHZ : RegField := ⟨Reg.PW_AVS, 0, 6⟩
abbrev Fld.PW_FLAGS_EVENTS : RegField := ⟨Reg.PW_FLAGS, 0, 8⟩
abbrev Fld.PW_FLAG_COUNT_COUNTS : RegField := ⟨Reg.PW_FLAG_COUNT, 0, 64⟩
abbrev Fld.PW_RAIL_MV (i : Nat) : RegField := ⟨(Reg.PW_RAIL i), 0, 16⟩
abbrev Fld.PW_RAIL_DA (i : Nat) : RegField := ⟨(Reg.PW_RAIL i), 16, 16⟩
abbrev Fld.PW_RAIL_STATUS (i : Nat) : RegField := ⟨(Reg.PW_RAIL i), 32, 16⟩
abbrev Fld.PW_TEMP_DECI_C (i : Nat) : RegField := ⟨(Reg.PW_TEMP i), 0, 16⟩
abbrev Fld.PW_TEMP_MAX_DECI_C (i : Nat) : RegField := ⟨(Reg.PW_TEMP i), 16, 16⟩
abbrev Fld.PW_LIMITS_POWER (i : Nat) : RegField := ⟨(Reg.PW_LIMITS i), 0, 3⟩
abbrev Fld.PW_LIMITS_THERM (i : Nat) : RegField := ⟨(Reg.PW_LIMITS i), 3, 3⟩
abbrev Fld.PW_LIMITS_SUPPLY (i : Nat) : RegField := ⟨(Reg.PW_LIMITS i), 6, 3⟩
abbrev Fld.PW_DROOP_CNT_COUNT (i : Nat) : RegField := ⟨(Reg.PW_DROOP_CNT i), 0, 64⟩
abbrev Fld.PW_XRAIL_MV (i : Nat) : RegField := ⟨(Reg.PW_XRAIL i), 0, 16⟩
abbrev Fld.PW_XRAIL_DA (i : Nat) : RegField := ⟨(Reg.PW_XRAIL i), 16, 16⟩
abbrev Fld.PW_XRAIL_STATUS (i : Nat) : RegField := ⟨(Reg.PW_XRAIL i), 32, 16⟩
abbrev Fld.RP_CTRL_AUTO : RegField := ⟨Reg.RP_CTRL, 0, 1⟩
abbrev Fld.RP_CTRL_TEST_EN : RegField := ⟨Reg.RP_CTRL, 1, 1⟩
abbrev Fld.RP_WINDOW_NS : RegField := ⟨Reg.RP_WINDOW, 0, 64⟩
abbrev Fld.RP_THRESH_CELL_CORR : RegField := ⟨Reg.RP_THRESH, 0, 16⟩
abbrev Fld.RP_THRESH_TALLY_CORR : RegField := ⟨Reg.RP_THRESH, 16, 16⟩
abbrev Fld.RP_TEST_PERIOD_NS : RegField := ⟨Reg.RP_TEST_PERIOD, 0, 64⟩
abbrev Fld.RP_SPARE_LOW_CELLS : RegField := ⟨Reg.RP_SPARE_LOW, 0, 5⟩
abbrev Fld.RP_LOG_COUNT_WRITTEN : RegField := ⟨Reg.RP_LOG_COUNT, 0, 32⟩
abbrev Fld.RP_LOG_COUNT_OVERFLOW : RegField := ⟨Reg.RP_LOG_COUNT, 32, 1⟩
abbrev Fld.RP_LOG_ACK_COUNT : RegField := ⟨Reg.RP_LOG_ACK, 0, 32⟩
abbrev Fld.RP_FLAGS_EVENTS : RegField := ⟨Reg.RP_FLAGS, 0, 9⟩
abbrev Fld.RP_FLAG_COUNT_COUNTS : RegField := ⟨Reg.RP_FLAG_COUNT, 0, 64⟩
abbrev Fld.RP_FLAG_COUNT2_COUNT_8 : RegField := ⟨Reg.RP_FLAG_COUNT2, 0, 8⟩
abbrev Fld.RP_LOG_ENTRY (i : Nat) : RegField := ⟨(Reg.RP_LOG i), 0, 64⟩
abbrev Fld.RP_CELL_CORR_COUNT (i : Nat) : RegField := ⟨(Reg.RP_CELL_CORR i), 0, 32⟩
abbrev Fld.CP_CTRL_EN : RegField := ⟨Reg.CP_CTRL, 0, 1⟩
abbrev Fld.CP_CTRL_COMMIT : RegField := ⟨Reg.CP_CTRL, 1, 1⟩
abbrev Fld.CP_SLOT_CFG_PORTS : RegField := ⟨Reg.CP_SLOT_CFG, 0, 8⟩
abbrev Fld.CP_SLOT_CFG_BANDS : RegField := ⟨Reg.CP_SLOT_CFG, 8, 24⟩
abbrev Fld.CP_TRIG_PERIODIC : RegField := ⟨Reg.CP_TRIG, 0, 1⟩
abbrev Fld.CP_TRIG_HB_SPARING : RegField := ⟨Reg.CP_TRIG, 1, 1⟩
abbrev Fld.CP_TRIG_SPARES_LOW : RegField := ⟨Reg.CP_TRIG, 2, 1⟩
abbrev Fld.CP_TRIG_THERMAL : RegField := ⟨Reg.CP_TRIG, 3, 1⟩
abbrev Fld.CP_TRIG_SAG : RegField := ⟨Reg.CP_TRIG, 4, 1⟩
abbrev Fld.CP_TRIG_OVERVOLT : RegField := ⟨Reg.CP_TRIG, 5, 1⟩
abbrev Fld.CP_TRIG_OP_LOW : RegField := ⟨Reg.CP_TRIG, 6, 1⟩
abbrev Fld.CP_PERIOD_NS : RegField := ⟨Reg.CP_PERIOD, 0, 64⟩
abbrev Fld.CP_MIN_GAP_NS : RegField := ⟨Reg.CP_MIN_GAP, 0, 64⟩
abbrev Fld.CP_STATUS_PHASE : RegField := ⟨Reg.CP_STATUS, 0, 3⟩
abbrev Fld.CP_STATUS_FROZEN : RegField := ⟨Reg.CP_STATUS, 3, 1⟩
abbrev Fld.CP_OP_HANDLE : RegField := ⟨Reg.CP_OP, 0, 64⟩
abbrev Fld.CP_SKIP_CNT_COUNT : RegField := ⟨Reg.CP_SKIP_CNT, 0, 64⟩
abbrev Fld.CP_MIRRORS_PAIRS : RegField := ⟨Reg.CP_MIRRORS, 0, 13⟩
abbrev Fld.CP_FLAGS_EVENTS : RegField := ⟨Reg.CP_FLAGS, 0, 7⟩
abbrev Fld.CP_FLAG_COUNT_COUNTS : RegField := ⟨Reg.CP_FLAG_COUNT, 0, 64⟩
abbrev Fld.CP_SLOT_STATE_VALID (i : Nat) : RegField := ⟨(Reg.CP_SLOT_STATE i), 0, 1⟩
abbrev Fld.CP_SLOT_STATE_WRITING (i : Nat) : RegField := ⟨(Reg.CP_SLOT_STATE i), 1, 1⟩
abbrev Fld.CP_SLOT_STATE_SEQ (i : Nat) : RegField := ⟨(Reg.CP_SLOT_STATE i), 8, 56⟩
abbrev Fld.CP_SLOT_STEP_STEP (i : Nat) : RegField := ⟨(Reg.CP_SLOT_STEP i), 0, 64⟩
abbrev Fld.EV_TOTAL_COUNT : RegField := ⟨Reg.EV_TOTAL, 0, 64⟩
abbrev Fld.EV_NMI_CLOCK : RegField := ⟨Reg.EV_NMI, 0, 1⟩
abbrev Fld.EV_NMI_POWER : RegField := ⟨Reg.EV_NMI, 1, 1⟩
abbrev Fld.EV_FATAL_CODE : RegField := ⟨Reg.EV_FATAL, 0, 16⟩
abbrev Fld.EV_FATAL_VALID : RegField := ⟨Reg.EV_FATAL, 16, 1⟩
abbrev Fld.EV_FATAL_YT_NS : RegField := ⟨Reg.EV_FATAL_YT, 0, 64⟩
abbrev Fld.EV_FLAGS_SURVEY_CHANGED : RegField := ⟨Reg.EV_FLAGS, 0, 1⟩
abbrev Fld.EV_FLAGS_RING_LOST : RegField := ⟨Reg.EV_FLAGS, 1, 1⟩
abbrev Fld.EV_FLAG_COUNT_COUNTS : RegField := ⟨Reg.EV_FLAG_COUNT, 0, 64⟩
abbrev Fld.EV_MASK_MASK (i : Nat) : RegField := ⟨(Reg.EV_MASK i), 0, 64⟩
abbrev Fld.EV_MR_RING_BASE_ADDR (i : Nat) : RegField := ⟨(Reg.EV_MR_RING_BASE i), 0, 64⟩
abbrev Fld.HQ_EV_RING_BASE_ADDR (i : Nat) : RegField := ⟨(Reg.HQ_EV_RING_BASE i), 0, 64⟩
abbrev Fld.EV_MR_RING_CFG_LOG2 (i : Nat) : RegField := ⟨(Reg.EV_MR_RING_CFG i), 0, 5⟩
abbrev Fld.EV_MR_RING_CFG_CLASSES (i : Nat) : RegField := ⟨(Reg.EV_MR_RING_CFG i), 8, 4⟩
abbrev Fld.EV_MR_RING_CFG_VECTOR (i : Nat) : RegField := ⟨(Reg.EV_MR_RING_CFG i), 16, 11⟩
abbrev Fld.EV_MR_RING_CFG_COAL_COUNT (i : Nat) : RegField := ⟨(Reg.EV_MR_RING_CFG i), 32, 16⟩
abbrev Fld.EV_MR_RING_CFG_COAL_US (i : Nat) : RegField := ⟨(Reg.EV_MR_RING_CFG i), 48, 16⟩
abbrev Fld.HQ_EV_RING_CFG_LOG2 (i : Nat) : RegField := ⟨(Reg.HQ_EV_RING_CFG i), 0, 5⟩
abbrev Fld.HQ_EV_RING_CFG_CLASSES (i : Nat) : RegField := ⟨(Reg.HQ_EV_RING_CFG i), 8, 4⟩
abbrev Fld.HQ_EV_RING_CFG_VECTOR (i : Nat) : RegField := ⟨(Reg.HQ_EV_RING_CFG i), 16, 11⟩
abbrev Fld.HQ_EV_RING_CFG_COAL_COUNT (i : Nat) : RegField := ⟨(Reg.HQ_EV_RING_CFG i), 32, 16⟩
abbrev Fld.HQ_EV_RING_CFG_COAL_US (i : Nat) : RegField := ⟨(Reg.HQ_EV_RING_CFG i), 48, 16⟩
abbrev Fld.EV_MR_RING_CTRL_EN (i : Nat) : RegField := ⟨(Reg.EV_MR_RING_CTRL i), 0, 1⟩
abbrev Fld.EV_MR_RING_CTRL_IRQ_EN (i : Nat) : RegField := ⟨(Reg.EV_MR_RING_CTRL i), 1, 1⟩
abbrev Fld.EV_MR_RING_CTRL_PHASE (i : Nat) : RegField := ⟨(Reg.EV_MR_RING_CTRL i), 2, 1⟩
abbrev Fld.EV_MR_RING_CTRL_PORT (i : Nat) : RegField := ⟨(Reg.EV_MR_RING_CTRL i), 3, 2⟩
abbrev Fld.HQ_EV_RING_CTRL_EN (i : Nat) : RegField := ⟨(Reg.HQ_EV_RING_CTRL i), 0, 1⟩
abbrev Fld.HQ_EV_RING_CTRL_IRQ_EN (i : Nat) : RegField := ⟨(Reg.HQ_EV_RING_CTRL i), 1, 1⟩
abbrev Fld.HQ_EV_RING_CTRL_PHASE (i : Nat) : RegField := ⟨(Reg.HQ_EV_RING_CTRL i), 2, 1⟩
abbrev Fld.HQ_EV_RING_CTRL_PORT (i : Nat) : RegField := ⟨(Reg.HQ_EV_RING_CTRL i), 3, 2⟩
abbrev Fld.EV_MR_RING_HEAD_HEAD (i : Nat) : RegField := ⟨(Reg.EV_MR_RING_HEAD i), 0, 16⟩
abbrev Fld.HQ_EV_RING_HEAD_HEAD (i : Nat) : RegField := ⟨(Reg.HQ_EV_RING_HEAD i), 0, 16⟩
abbrev Fld.EV_MR_RING_TAIL_TAIL (i : Nat) : RegField := ⟨(Reg.EV_MR_RING_TAIL i), 0, 16⟩
abbrev Fld.HQ_EV_RING_TAIL_TAIL (i : Nat) : RegField := ⟨(Reg.HQ_EV_RING_TAIL i), 0, 16⟩
abbrev Fld.EV_MR_RING_LOST_COUNT (i : Nat) : RegField := ⟨(Reg.EV_MR_RING_LOST i), 0, 64⟩
abbrev Fld.HQ_EV_RING_LOST_COUNT (i : Nat) : RegField := ⟨(Reg.HQ_EV_RING_LOST i), 0, 64⟩
abbrev Fld.HQ_SQ_BASE_ADDR (i : Nat) (j : Nat) : RegField := ⟨(Reg.HQ_SQ_BASE i j), 0, 64⟩
abbrev Fld.GC_MQ_SQ_BASE_ADDR (i : Nat) : RegField := ⟨(Reg.GC_MQ_SQ_BASE i), 0, 64⟩
abbrev Fld.HQ_CQ_BASE_ADDR (i : Nat) (j : Nat) : RegField := ⟨(Reg.HQ_CQ_BASE i j), 0, 64⟩
abbrev Fld.GC_MQ_CQ_BASE_ADDR (i : Nat) : RegField := ⟨(Reg.GC_MQ_CQ_BASE i), 0, 64⟩
abbrev Fld.HQ_Q_CFG_SQ_LOG2 (i : Nat) (j : Nat) : RegField := ⟨(Reg.HQ_Q_CFG i j), 0, 5⟩
abbrev Fld.HQ_Q_CFG_CQ_LOG2 (i : Nat) (j : Nat) : RegField := ⟨(Reg.HQ_Q_CFG i j), 8, 5⟩
abbrev Fld.HQ_Q_CFG_VECTOR (i : Nat) (j : Nat) : RegField := ⟨(Reg.HQ_Q_CFG i j), 16, 11⟩
abbrev Fld.HQ_Q_CFG_COAL_COUNT (i : Nat) (j : Nat) : RegField := ⟨(Reg.HQ_Q_CFG i j), 32, 16⟩
abbrev Fld.HQ_Q_CFG_COAL_US (i : Nat) (j : Nat) : RegField := ⟨(Reg.HQ_Q_CFG i j), 48, 16⟩
abbrev Fld.GC_MQ_CFG_SQ_LOG2 (i : Nat) : RegField := ⟨(Reg.GC_MQ_CFG i), 0, 5⟩
abbrev Fld.GC_MQ_CFG_CQ_LOG2 (i : Nat) : RegField := ⟨(Reg.GC_MQ_CFG i), 8, 5⟩
abbrev Fld.GC_MQ_CFG_VECTOR (i : Nat) : RegField := ⟨(Reg.GC_MQ_CFG i), 16, 11⟩
abbrev Fld.GC_MQ_CFG_COAL_COUNT (i : Nat) : RegField := ⟨(Reg.GC_MQ_CFG i), 32, 16⟩
abbrev Fld.GC_MQ_CFG_COAL_US (i : Nat) : RegField := ⟨(Reg.GC_MQ_CFG i), 48, 16⟩
abbrev Fld.HQ_Q_CTRL_EN (i : Nat) (j : Nat) : RegField := ⟨(Reg.HQ_Q_CTRL i j), 0, 1⟩
abbrev Fld.HQ_Q_CTRL_IRQ_EN (i : Nat) (j : Nat) : RegField := ⟨(Reg.HQ_Q_CTRL i j), 1, 1⟩
abbrev Fld.HQ_Q_CTRL_PORT (i : Nat) (j : Nat) : RegField := ⟨(Reg.HQ_Q_CTRL i j), 2, 2⟩
abbrev Fld.HQ_Q_CTRL_IDLE (i : Nat) (j : Nat) : RegField := ⟨(Reg.HQ_Q_CTRL i j), 4, 1⟩
abbrev Fld.HQ_Q_CTRL_ERROR (i : Nat) (j : Nat) : RegField := ⟨(Reg.HQ_Q_CTRL i j), 5, 1⟩
abbrev Fld.HQ_Q_CTRL_CQ_PHASE (i : Nat) (j : Nat) : RegField := ⟨(Reg.HQ_Q_CTRL i j), 6, 1⟩
abbrev Fld.GC_MQ_CTRL_EN (i : Nat) : RegField := ⟨(Reg.GC_MQ_CTRL i), 0, 1⟩
abbrev Fld.GC_MQ_CTRL_IRQ_EN (i : Nat) : RegField := ⟨(Reg.GC_MQ_CTRL i), 1, 1⟩
abbrev Fld.GC_MQ_CTRL_PORT (i : Nat) : RegField := ⟨(Reg.GC_MQ_CTRL i), 2, 2⟩
abbrev Fld.GC_MQ_CTRL_IDLE (i : Nat) : RegField := ⟨(Reg.GC_MQ_CTRL i), 4, 1⟩
abbrev Fld.GC_MQ_CTRL_ERROR (i : Nat) : RegField := ⟨(Reg.GC_MQ_CTRL i), 5, 1⟩
abbrev Fld.GC_MQ_CTRL_CQ_PHASE (i : Nat) : RegField := ⟨(Reg.GC_MQ_CTRL i), 6, 1⟩
abbrev Fld.HQ_Q_STATE_SQ_HEAD (i : Nat) (j : Nat) : RegField := ⟨(Reg.HQ_Q_STATE i j), 0, 16⟩
abbrev Fld.HQ_Q_STATE_SQ_TAIL (i : Nat) (j : Nat) : RegField := ⟨(Reg.HQ_Q_STATE i j), 16, 16⟩
abbrev Fld.HQ_Q_STATE_CQ_HEAD (i : Nat) (j : Nat) : RegField := ⟨(Reg.HQ_Q_STATE i j), 32, 16⟩
abbrev Fld.HQ_Q_STATE_CQ_TAIL (i : Nat) (j : Nat) : RegField := ⟨(Reg.HQ_Q_STATE i j), 48, 16⟩
abbrev Fld.GC_MQ_STATE_SQ_HEAD (i : Nat) : RegField := ⟨(Reg.GC_MQ_STATE i), 0, 16⟩
abbrev Fld.GC_MQ_STATE_SQ_TAIL (i : Nat) : RegField := ⟨(Reg.GC_MQ_STATE i), 16, 16⟩
abbrev Fld.GC_MQ_STATE_CQ_HEAD (i : Nat) : RegField := ⟨(Reg.GC_MQ_STATE i), 32, 16⟩
abbrev Fld.GC_MQ_STATE_CQ_TAIL (i : Nat) : RegField := ⟨(Reg.GC_MQ_STATE i), 48, 16⟩
abbrev Fld.HQ_MBOX_RECORD (i : Nat) (j : Nat) (k : Nat) : RegField := ⟨(Reg.HQ_MBOX i j k), 0, 64⟩
abbrev Fld.GC_MQ_MBOX_RECORD (i : Nat) (j : Nat) : RegField := ⟨(Reg.GC_MQ_MBOX i j), 0, 64⟩
abbrev Fld.HQ_Q_DONE_COUNT (i : Nat) (j : Nat) : RegField := ⟨(Reg.HQ_Q_DONE i j), 0, 64⟩
abbrev Fld.GC_MQ_DONE_COUNT (i : Nat) : RegField := ⟨(Reg.GC_MQ_DONE i), 0, 64⟩

/-- One register, or array of registers, of the map: where its instances lie, and the bits of each access code (R6).
`commit` names the register and bit after whose setting the LCK bits no longer change. -/
structure RegRow where
  base : Nat
  dims : List (Nat × Nat)
  rw : Nat
  lck : Nat
  w1c : Nat
  w1s : Nat
  commit : Option (Nat × Nat)
deriving DecidableEq, Repr

/-- Whether what is left of an offset falls on an instance, over the strides and counts of an array. -/
def coversDims : (dims : List (Nat × Nat)) → (rest : Nat) → Bool
  | [], rest => rest == 0
  | (stride, count) :: ds, rest => decide (rest / stride < count) && coversDims ds (rest % stride)

/-- Whether the offset is one of the row's registers. -/
def RegRow.covers (r : RegRow) (off : Nat) : Bool := decide (r.base ≤ off) && coversDims r.dims (off - r.base)

def regRows0 : List RegRow := [
  ⟨0x01800000, [], 0x5, 0x0, 0x0, 0x2, none⟩, -- STL_CTRL
  ⟨0x01800008, [], 0x0, 0xFFFFFFFFFFFF, 0x0, 0x0, some (0x01800000, 1)⟩, -- STL_HDR_POOL
  ⟨0x01800010, [], 0x0, 0x7FFFFF, 0x0, 0x0, some (0x01800000, 1)⟩, -- STL_HDR_SLOTS
  ⟨0x01800018, [], 0x0, 0xFFFFFFFFFFFF, 0x0, 0x0, some (0x01800000, 1)⟩, -- STL_DIR_BASE
  ⟨0x01800020, [], 0xFFFFFFFFFFFF, 0x0, 0x0, 0x0, none⟩, -- STL_DIRTY_LIMIT
  ⟨0x01800028, [], 0x0, 0x0, 0x0, 0x0, none⟩, -- STL_DIRTY_MAX
  ⟨0x01800030, [], 0x0, 0x0, 0x0, 0x0, none⟩, -- STL_DIRTY_NOW
  ⟨0x01800038, [], 0xFF, 0x0, 0x0, 0x0, none⟩, -- STL_JOURNAL_PORTS
  ⟨0x01800040, [], 0xFFFFFFFFFFFFFFFF, 0x0, 0x0, 0x0, none⟩, -- STL_WAIT_DEFAULT
  ⟨0x01800048, [], 0xFFFFFFFFFFFFFFFF, 0x0, 0x0, 0x0, none⟩, -- STL_LEASE_PREP
  ⟨0x01800050, [], 0xFFFFFFFFFFFFFFFF, 0x0, 0x0, 0x0, none⟩, -- STL_LEASE_COMMIT
  ⟨0x01800058, [], 0xFFFFFFFFFFFFFFFF, 0x0, 0x0, 0x0, none⟩, -- STL_ORPHAN_TIMEOUT
  ⟨0x01800060, [], 0xFFFFFFFFFFFFFFFF, 0x0, 0x0, 0x0, none⟩, -- STL_RETIRE_HOLD
  ⟨0x01800068, [], 0xFFFFFFFFFFFFFFFF, 0x0, 0x0, 0x0, none⟩, -- STL_REVIVE_RETRY
  ⟨0x01800070, [], 0x0, 0x0, 0x1FF, 0x0, none⟩, -- STL_FLAGS
  ⟨0x01800078, [], 0x0, 0x0, 0x0, 0x0, none⟩, -- STL_FLAG_COUNT
  ⟨0x01800080, [], 0x0, 0x0, 0x0, 0x0, none⟩, -- STL_FLAG_COUNT2
  ⟨0x01800088, [], 0x0, 0xFFFFFFFFFFFF, 0x0, 0x0, some (0x01800000, 1)⟩, -- STL_DIR_BASE2
  ⟨0x01800100, [(0x8, 9)], 0x0, 0x0, 0x0, 0x0, none⟩, -- STL_STATE_CNT
  ⟨0x01800200, [(0x40, 16), (0x8, 5)], 0x0, 0x0, 0x0, 0x0, none⟩, -- STL_PG
  ⟨0x01810000, [], 0x1, 0x0, 0x0, 0x0, none⟩, -- KV_CTRL
  ⟨0x01810008, [], 0xF, 0x0, 0x0, 0x0, none⟩, -- KV_HEADROOM
  ⟨0x01810010, [], 0x1FFF, 0x0, 0x0, 0x0, none⟩, -- KV_STEP_TOKENS
  ⟨0x01810018, [], 0x1FFFF, 0x0, 0x0, 0x0, none⟩, -- KV_CHUNK_MIN
  ⟨0x01810020, [], 0x0, 0x0, 0x3F, 0x0, none⟩, -- KV_FLAGS
  ⟨0x01810028, [], 0x0, 0x0, 0x0, 0x0, none⟩, -- KV_FLAG_COUNT
  ⟨0x01810030, [], 0x0, 0x0, 0x0, 0x0, none⟩, -- KV_SAT_CNT
  ⟨0x01810038, [], 0x0, 0x0, 0x0, 0x0, none⟩, -- KV_NONFINITE_CNT
  ⟨0x01810040, [(0x8, 16)], 0xFFFFFFFFFFFFFFFF, 0x0, 0x0, 0x0, none⟩, -- KV_TSHAPE
  ⟨0x01810100, [(0x8, 16)], 0x807F7FFFFFFFFFFF, 0x0, 0x0, 0x0, none⟩, -- KV_SHAPE
  ⟨0x01810180, [(0x8, 16)], 0x0, 0x0, 0x0, 0x0, none⟩, -- KV_SHAPE_CAP
  ⟨0x01810200, [(0x8, 16)], 0x0, 0x0, 0x0, 0x0, none⟩, -- KV_SHAPE_USE
  ⟨0x01810280, [(0x8, 16)], 0x0, 0x0, 0x0, 0x0, none⟩, -- KV_FRAMES
  ⟨0x01000000, [], 0x3, 0x0, 0x0, 0x0, none⟩, -- HB_CTRL
  ⟨0x01000008, [], 0xFFFFFFFFFFFFFFFF, 0x0, 0x0, 0x0, none⟩, -- HB_SCRUB_PERIOD
  ⟨0x01000010, [], 0x3FFFFFFFFFFFFFF, 0x0, 0x0, 0x0, none⟩, -- HB_SPARE_THRESH
  ⟨0x01000018, [], 0xFF, 0x0, 0x0, 0x0, none⟩, -- HB_SPARE_RATE
  ⟨0x01000020, [], 0xFFFFFFFFFFFFFFFF, 0x0, 0x0, 0x0, none⟩, -- HB_EVAC_TIME
  ⟨0x01000028, [], 0x0, 0x0, 0x7F, 0x0, none⟩, -- HB_FLAGS
  ⟨0x01000030, [], 0x0, 0x0, 0x0, 0x0, none⟩ -- HB_FLAG_COUNT
]

def regRows1 : List RegRow := [
  ⟨0x01000100, [(0x100, 16), (0x8, 17)], 0x0, 0x0, 0x0, 0x0, none⟩, -- HB_CH
  ⟨0x01001100, [(0x8, 16)], 0x0, 0x0, 0x0, 0x0, none⟩, -- HB_POISON
  ⟨0x01200000, [], 0x0, 0xFF, 0x0, 0x100, some (0x01200000, 8)⟩, -- SH_CTRL
  ⟨0x01200008, [], 0xFFFF, 0x0, 0x0, 0x0, none⟩, -- SH_WEAR_SPREAD
  ⟨0x01200010, [], 0xFFFFFFFF, 0x0, 0x0, 0x0, none⟩, -- SH_RD_LIMIT
  ⟨0x01200018, [], 0xFFFFFFFFFFFFFFFF, 0x0, 0x0, 0x0, none⟩, -- SH_SCRUB_PERIOD
  ⟨0x01200020, [], 0x7F, 0x0, 0x0, 0x0, none⟩, -- SH_GC_LOW
  ⟨0x01200028, [], 0x0, 0x0, 0x3F, 0x0, none⟩, -- SH_FLAGS
  ⟨0x01200030, [], 0x0, 0x0, 0x0, 0x0, none⟩, -- SH_FLAG_COUNT
  ⟨0x01200100, [(0x8, 8)], 0x0, 0x0, 0x0, 0x0, none⟩, -- SH_PORT_INFO
  ⟨0x01200200, [(0x40, 8), (0x8, 5)], 0x0, 0x0, 0x0, 0x0, none⟩, -- SH_BOOK
  ⟨0x01200400, [(0x8, 8)], 0x0, 0x0, 0x0, 0x0, none⟩, -- SH_WEAR
  ⟨0x01400000, [], 0x1, 0x0, 0x0, 0x2, none⟩, -- PF_CTRL
  ⟨0x01400008, [], 0x0, 0xFFFFFFFFFFFF, 0x0, 0x0, some (0x01400000, 1)⟩, -- PF_OBJ_BASE
  ⟨0x01400010, [], 0x0, 0xFFFFFF, 0x0, 0x0, some (0x01400000, 1)⟩, -- PF_OBJ_COUNT
  ⟨0x01400018, [], 0xF, 0x0, 0x0, 0x0, none⟩, -- PF_DISTANCE
  ⟨0x01400020, [], 0xFFFFFFFF, 0x0, 0x0, 0x0, none⟩, -- PF_POOL
  ⟨0x01400028, [], 0xFFFFFFFF, 0x0, 0x0, 0x0, none⟩, -- PF_PROMOTE
  ⟨0x01400030, [], 0x0, 0x0, 0x0, 0x0, none⟩, -- PF_HIT
  ⟨0x01400038, [], 0x0, 0x0, 0x0, 0x0, none⟩, -- PF_MISS
  ⟨0x01400040, [], 0x0, 0x0, 0x0, 0x0, none⟩, -- PF_WAIT_NS
  ⟨0x01400048, [], 0x0, 0x0, 0x1, 0x0, none⟩, -- PF_FLAGS
  ⟨0x01400050, [], 0x0, 0x0, 0x0, 0x0, none⟩, -- PF_FLAG_COUNT
  ⟨0x01820000, [], 0x1, 0x0, 0x0, 0x0, none⟩, -- TX_CTRL
  ⟨0x01820008, [], 0xFFFFFFFF, 0x0, 0x0, 0x0, none⟩, -- TX_INPUT_BYTES
  ⟨0x01820010, [], 0xFFFFFFFF, 0x0, 0x0, 0x0, none⟩, -- TX_CALL_MAX
  ⟨0x01820018, [], 0x0, 0x0, 0xF, 0x0, none⟩, -- TX_FLAGS
  ⟨0x01820020, [], 0x0, 0x0, 0x0, 0x0, none⟩, -- TX_FLAG_COUNT
  ⟨0x01820028, [], 0x0, 0x0, 0x0, 0x0, none⟩, -- TX_CACHE_HIT
  ⟨0x01820030, [], 0x0, 0x0, 0x0, 0x0, none⟩, -- TX_CACHE_MISS
  ⟨0x01821000, [(0x40, 256)], 0x7FFFFF, 0x0, 0x0, 0x0, none⟩, -- TX_CFG
  ⟨0x01821008, [(0x40, 256)], 0xFFFFFFFFFFFF, 0x0, 0x0, 0x0, none⟩, -- TX_VOCAB
  ⟨0x01821010, [(0x40, 256)], 0xFFFFFFFFFFFF, 0x0, 0x0, 0x0, none⟩, -- TX_POOL
  ⟨0x01821018, [(0x40, 256)], 0x1FFFFFFFFFFFF, 0x0, 0x0, 0x0, none⟩, -- TX_TABLES
  ⟨0x01821020, [(0x40, 256)], 0x1FFFFFFFFFFFFF, 0x0, 0x0, 0x0, none⟩, -- TX_MERGE
  ⟨0x01821028, [(0x40, 256)], 0x3FFFFFFFFFF, 0x0, 0x0, 0x0, none⟩, -- TX_TOOLTOK
  ⟨0x01821030, [(0x40, 256)], 0x3FFFFFFFFFF, 0x0, 0x0, 0x0, none⟩, -- TX_RESTOK
  ⟨0x01830000, [], 0x1, 0x0, 0x0, 0x0, none⟩, -- GR_CTRL
  ⟨0x01830008, [], 0x0, 0x0, 0xF, 0x0, none⟩, -- GR_FLAGS
  ⟨0x01830010, [], 0x0, 0x0, 0x0, 0x0, none⟩ -- GR_FLAG_COUNT
]

def regRows2 : List RegRow := [
  ⟨0x01830018, [], 0x0, 0x0, 0x0, 0x0, none⟩, -- GR_DEAD_CNT
  ⟨0x01830020, [], 0x0, 0x0, 0x0, 0x0, none⟩, -- GR_SLOW_CNT
  ⟨0x01830028, [], 0x0, 0x0, 0x0, 0x0, none⟩, -- GR_LATE_CNT
  ⟨0x01830030, [], 0x0, 0x0, 0x0, 0x0, none⟩, -- GR_LATE_NS
  ⟨0x01840000, [], 0x1, 0x0, 0x0, 0x0, none⟩, -- SEL_CTRL
  ⟨0x01840008, [], 0xFFFFFFFF, 0x0, 0x0, 0x0, none⟩, -- SEL_SHARD_BASE
  ⟨0x01840010, [], 0x0, 0x0, 0xF, 0x0, none⟩, -- SEL_FLAGS
  ⟨0x01840018, [], 0x0, 0x0, 0x0, 0x0, none⟩, -- SEL_FLAG_COUNT
  ⟨0x01840020, [], 0x0, 0x0, 0x0, 0x0, none⟩, -- SEL_DUP_CNT
  ⟨0x01840028, [], 0x0, 0x0, 0x0, 0x0, none⟩, -- SEL_FEWER_CNT
  ⟨0x01840030, [], 0x0, 0x0, 0x0, 0x0, none⟩, -- SEL_NAN_CNT
  ⟨0x01840038, [], 0x0, 0x0, 0x0, 0x0, none⟩, -- SEL_DRAWS
  ⟨0x01841000, [(0x8, 256)], 0x1FFFFFFFFFFFFFF, 0x0, 0x0, 0x0, none⟩, -- SEL_PROF
  ⟨0x01850000, [], 0x3, 0x0, 0x0, 0x0, none⟩, -- VS_CTRL
  ⟨0x01850008, [], 0xF, 0x0, 0x0, 0x0, none⟩, -- VS_PREFETCH
  ⟨0x01850010, [], 0x7F, 0x0, 0x0, 0x0, none⟩, -- VS_MERGE_AT
  ⟨0x01850018, [], 0x0, 0x0, 0x1F, 0x0, none⟩, -- VS_FLAGS
  ⟨0x01850020, [], 0x0, 0x0, 0x0, 0x0, none⟩, -- VS_FLAG_COUNT
  ⟨0x01850028, [], 0x0, 0x0, 0x0, 0x0, none⟩, -- VS_QUERIES
  ⟨0x01850030, [], 0x0, 0x0, 0x0, 0x0, none⟩, -- VS_COMPARES
  ⟨0x01850038, [], 0x0, 0x0, 0x0, 0x0, none⟩, -- VS_CODE_FAIL_CNT
  ⟨0x01850040, [], 0x0, 0x0, 0x0, 0x0, none⟩, -- VS_CAP_USED
  ⟨0x02F00000, [], 0x1, 0x0, 0x0, 0x2, none⟩, -- SCH_CTX_CTRL
  ⟨0x02F00008, [], 0x0, 0xFFFFFFFFFFFF, 0x0, 0x0, some (0x02F00000, 1)⟩, -- SCH_CTX_BASE
  ⟨0x02F00010, [], 0x0, 0x1FFF, 0x0, 0x0, some (0x02F00000, 1)⟩, -- SCH_CTX_SLOTS
  ⟨0x02F00018, [], 0x0, 0x0, 0x0, 0x0, none⟩, -- SCH_CTX_LIVE
  ⟨0x02F00020, [], 0x0, 0x0, 0x0, 0x0, none⟩, -- SCH_CTX_FAULTS
  ⟨0x02F00028, [], 0x0, 0x0, 0x7, 0x0, none⟩, -- SCH_CTX_FLAGS
  ⟨0x02F00030, [], 0x0, 0x0, 0x0, 0x0, none⟩, -- SCH_CTX_FLAG_COUNT
  ⟨0x00408000, [], 0x1, 0x0, 0x0, 0x0, none⟩, -- GC_ARITH_CTRL
  ⟨0x00408008, [], 0x0, 0x0, 0x0, 0x0, none⟩, -- GC_ND_COUNT
  ⟨0x00408010, [], 0x0, 0x0, 0x0, 0x0, none⟩, -- GC_SAT_CNT
  ⟨0x00600000, [], 0xE, 0x0, 0x0, 0x11, none⟩, -- YT_CTRL
  ⟨0x00600008, [], 0x0, 0xFFFFFFFFFFFFFFFF, 0x0, 0x0, some (0x00600000, 4)⟩, -- YT_SET
  ⟨0x00600010, [], 0x0, 0x0, 0x0, 0x0, none⟩, -- YT_NOW
  ⟨0x00600018, [], 0x0, 0x0, 0x0, 0x0, none⟩, -- YT_STATUS
  ⟨0x00600020, [], 0x0, 0x0, 0x0, 0x0, none⟩, -- YT_RATE
  ⟨0x00600028, [], 0x0, 0x0, 0x0, 0x0, none⟩, -- YT_OFFSET
  ⟨0x00600030, [], 0xFFFF, 0x0, 0x0, 0x0, none⟩, -- YT_LOCK_LIMIT
  ⟨0x00600038, [], 0x3FFFF, 0x0, 0x0, 0x0, none⟩ -- YT_PTP
]

def regRows3 : List RegRow := [
  ⟨0x00600040, [], 0x0, 0x0, 0x0, 0x0, none⟩, -- YT_PPS_STAMP
  ⟨0x00600048, [], 0xFFFFFFFF, 0x0, 0x0, 0x0, none⟩, -- YT_WAGGLE_LEAD
  ⟨0x00600050, [], 0x0, 0x0, 0x1F, 0x0, none⟩, -- YT_FLAGS
  ⟨0x00600058, [], 0x0, 0x0, 0x0, 0x0, none⟩, -- YT_FLAG_COUNT
  ⟨0x00700000, [], 0x1, 0x0, 0x0, 0x0, none⟩, -- TL_CTRL
  ⟨0x00700008, [], 0x0, 0x0, 0x0, 0x0, none⟩, -- TL_HOST_SIG
  ⟨0x00700010, [], 0x0, 0x0, 0x0, 0x0, none⟩, -- TL_INFLIGHT
  ⟨0x00700018, [], 0x1FFF, 0x0, 0x0, 0x0, none⟩, -- TL_SNAP_SEL
  ⟨0x00700020, [], 0x0, 0x0, 0x0, 0x0, none⟩, -- TL_SNAP_COUNT
  ⟨0x00700028, [], 0x0, 0x0, 0x0, 0x0, none⟩, -- TL_SNAP_SIG
  ⟨0x00700030, [], 0x0, 0x0, 0x0, 0x0, none⟩, -- TL_SNAP_TAKEN
  ⟨0x00700038, [], 0x0, 0x0, 0x0, 0x0, none⟩, -- TL_SNAP_WAITERS
  ⟨0x00700040, [], 0x0, 0x0, 0x0, 0x0, none⟩, -- TL_TIMEOUT_CNT
  ⟨0x00700048, [], 0x0, 0x0, 0x7, 0x0, none⟩, -- TL_FLAGS
  ⟨0x00700050, [], 0x0, 0x0, 0x0, 0x0, none⟩, -- TL_FLAG_COUNT
  ⟨0x00710000, [(0x8, 8192)], 0x1FF, 0x0, 0x0, 0x0, none⟩, -- TL_BIND
  ⟨0x02000000, [], 0x1, 0x0, 0x0, 0x0, none⟩, -- SCH_CTRL
  ⟨0x02000008, [], 0x0, 0x0, 0x0, 0x0, none⟩, -- SCH_ROUNDS
  ⟨0x02000010, [], 0xFFFF, 0x0, 0x0, 0x0, none⟩, -- SCH_STARVE
  ⟨0x02000018, [], 0x0, 0x0, 0x7F, 0x0, none⟩, -- SCH_FLAGS
  ⟨0x02000020, [], 0x0, 0x0, 0x0, 0x0, none⟩, -- SCH_FLAG_COUNT
  ⟨0x02000040, [(0x8, 4)], 0x0, 0x0, 0x0, 0x0, none⟩, -- SCH_LEFT
  ⟨0x02001000, [(0x8, 128)], 0x1FF, 0x0, 0x0, 0x0, none⟩, -- SCH_HUBTHR
  ⟨0x02010000, [(0x100, 32)], 0x1FFFFFFFF, 0x0, 0x0, 0x0, none⟩, -- SCH_PART
  ⟨0x02010008, [(0x100, 32)], 0xFFFFFFFFFFFFFFFF, 0x0, 0x0, 0x0, none⟩, -- SCH_SLICE_START
  ⟨0x02010010, [(0x100, 32)], 0x0, 0x0, 0x0, 0x0, none⟩, -- SCH_SWITCH
  ⟨0x02010040, [(0x100, 32), (0x8, 16)], 0xFFFFFFFF000000FF, 0x0, 0x0, 0x0, none⟩, -- SCH_SLICE
  ⟨0x02020000, [(0x20, 256)], 0xFFFFFFFFFFFFFFFF, 0x0, 0x0, 0x0, none⟩, -- SCH_ROUND_CFG
  ⟨0x02020008, [(0x20, 256)], 0xFFFF7FFFFFFFF, 0x0, 0x0, 0x0, none⟩, -- SCH_LATENCY
  ⟨0x02020010, [(0x20, 256)], 0x0, 0x0, 0x0, 0x0, none⟩, -- SCH_CAP
  ⟨0x02020018, [(0x20, 256)], 0x0, 0x0, 0x0, 0x0, none⟩, -- SCH_LAST
  ⟨0x02100000, [], 0xFFFFFFFFFFFF, 0x0, 0x0, 0x0, none⟩, -- TN_PERIOD
  ⟨0x02100008, [], 0x0, 0x0, 0x0, 0x0, none⟩, -- TN_PERIOD_NO
  ⟨0x02110000, [(0x80, 256)], 0xFFF, 0x0, 0x0, 0x0, none⟩, -- TN_CTRL
  ⟨0x02110008, [(0x80, 256)], 0x1FFF007FFFFF, 0x0, 0x0, 0x0, none⟩, -- TN_QUOTA
  ⟨0x02110010, [(0x80, 256)], 0x0, 0x0, 0x0, 0x0, none⟩, -- TN_USE
  ⟨0x02110018, [(0x80, 256)], 0x8000FFFFFFFFFFFF, 0x0, 0x0, 0x0, none⟩, -- TN_GRANT
  ⟨0x02110020, [(0x80, 256)], 0x0, 0x0, 0x0, 0x0, none⟩, -- TN_GRANTED
  ⟨0x02110028, [(0x80, 256)], 0x0, 0x0, 0x0, 0x0, none⟩, -- TN_CONSUMED
  ⟨0x02110030, [(0x80, 256)], 0x0, 0x0, 0x0, 0x0, none⟩ -- TN_REFUNDED
]

def regRows4 : List RegRow := [
  ⟨0x02110038, [(0x80, 256)], 0x0, 0x0, 0x0, 0x0, none⟩, -- TN_REMAINING
  ⟨0x02110040, [(0x80, 256)], 0x0, 0x0, 0x0, 0x0, none⟩, -- TN_QUEUED
  ⟨0x02110048, [(0x80, 256)], 0x0, 0x0, 0x0, 0x0, none⟩, -- TN_LAST_CONSUMED
  ⟨0x02110050, [(0x80, 256)], 0x0, 0x0, 0x0, 0x0, none⟩, -- TN_FAULTS
  ⟨0x0040A000, [(0x100, 4)], 0x0, 0x3, 0x0, 0x0, some (0x0040A800, 0)⟩, -- GC_PORT_CFG
  ⟨0x0040A008, [(0x100, 4)], 0x0, 0x0, 0x0, 0x0, none⟩, -- GC_PORT_STATE
  ⟨0x0040A010, [(0x100, 4), (0x8, 4)], 0xFFFFFFFFFFFFFFFF, 0x0, 0x0, 0x0, none⟩, -- GC_PORT_BIND
  ⟨0x0040A030, [(0x100, 4)], 0x0, 0x0, 0x0, 0x0, none⟩, -- GC_PORT_DROP
  ⟨0x0040A038, [(0x100, 4)], 0x0, 0x0, 0x0, 0x0, none⟩, -- GC_PORT_DENIED
  ⟨0x0040A800, [], 0x0, 0x0, 0x0, 0x1, none⟩, -- GC_PORT_CTRL
  ⟨0x0040A808, [], 0xFFFFFFFFFFFFFFFF, 0x0, 0x0, 0x0, none⟩, -- GC_OP_HOLD
  ⟨0x0040A810, [], 0x0, 0x0, 0x0, 0x0, none⟩, -- GC_OP_LIVE
  ⟨0x0040A818, [], 0x0, 0x0, 0xFF, 0x0, none⟩, -- GC_HOST_FLAGS
  ⟨0x0040A820, [], 0x0, 0x0, 0x0, 0x0, none⟩, -- GC_HOST_FLAG_COUNT
  ⟨0x00C00000, [], 0x1, 0x0, 0x0, 0x2, none⟩, -- NW_CTRL
  ⟨0x00C00008, [], 0x0, 0xFFFF0FFF, 0x0, 0x0, some (0x00C00000, 1)⟩, -- NW_DEV
  ⟨0x00C00010, [], 0x0, 0xFFFFFFFFFFFF, 0x0, 0x0, some (0x00C00000, 1)⟩, -- NW_MAP_BASE
  ⟨0x00C00018, [], 0x0, 0x0, 0x0, 0x0, none⟩, -- NW_MAP_GEN
  ⟨0x00C00020, [], 0xFFFFFFFFFF, 0x0, 0x0, 0x0, none⟩, -- NW_HELLO
  ⟨0x00C00028, [], 0xFFFFFFFF, 0x0, 0x0, 0x0, none⟩, -- NW_RETX
  ⟨0x00C00030, [], 0xFFFFFFFF, 0x0, 0x0, 0x0, none⟩, -- NW_ACCEPT
  ⟨0x00C00038, [], 0x0, 0xFFFFFFFFFFFF, 0x0, 0x0, some (0x00C00000, 1)⟩, -- NW_RX_BASE
  ⟨0x00C00040, [], 0x0, 0xFFFF, 0x0, 0x0, some (0x00C00000, 1)⟩, -- NW_CREDITS
  ⟨0x00C00048, [], 0xFFFFFFFF, 0x0, 0x0, 0x0, none⟩, -- NW_INBOX
  ⟨0x00C00050, [], 0xFFFFFFFFFFFFFFFF, 0x0, 0x0, 0x0, none⟩, -- NW_EP_TIMEOUT
  ⟨0x00C00058, [], 0x0, 0x0, 0x1FF, 0x0, none⟩, -- NW_FLAGS
  ⟨0x00C00060, [], 0x0, 0x0, 0x0, 0x0, none⟩, -- NW_FLAG_COUNT
  ⟨0x00C00068, [], 0x0, 0x0, 0x0, 0x0, none⟩, -- NW_FLAG_COUNT2
  ⟨0x00C00100, [(0x8, 8)], 0x0, 0x0, 0x0, 0x0, none⟩, -- NW_STAT
  ⟨0x00C00200, [], 0xFFFFFF, 0x0, 0x0, 0x0, none⟩, -- NW_FLOW_SEL
  ⟨0x00C00208, [], 0x0, 0x0, 0x0, 0x0, none⟩, -- NW_FLOW_CREDITS
  ⟨0x00C00210, [], 0x0, 0x0, 0x0, 0x0, none⟩, -- NW_FLOW_INFLIGHT
  ⟨0x00C00218, [], 0x0, 0x0, 0x0, 0x0, none⟩, -- NW_FLOW_FREE
  ⟨0x00C10000, [(0x100, 8)], 0x8000000000000, 0x7FFFFFFFFFFFF, 0x0, 0x0, some (0x00C00000, 1)⟩, -- NW_PORT_CFG
  ⟨0x00C10008, [(0x100, 8)], 0x0, 0xFFFFFFFFFFFFFFFF, 0x0, 0x0, some (0x00C00000, 1)⟩, -- NW_PORT_IP_HI
  ⟨0x00C10010, [(0x100, 8)], 0x0, 0xFFFFFFFFFFFFFFFF, 0x0, 0x0, some (0x00C00000, 1)⟩, -- NW_PORT_IP_LO
  ⟨0x00C10018, [(0x100, 8)], 0x0, 0xFFFFFFFFFFFF, 0x0, 0x0, some (0x00C00000, 1)⟩, -- NW_PORT_NEXTHOP
  ⟨0x00C10020, [(0x100, 8)], 0x0, 0x0, 0x0, 0x0, none⟩, -- NW_PORT_STATE
  ⟨0x00C10028, [(0x100, 8)], 0x0, 0x0, 0x0, 0x0, none⟩, -- NW_PORT_FEC
  ⟨0x00C20000, [(0x8, 36)], 0x0, 0x300, 0x0, 0x0, some (0x00C00000, 1)⟩ -- NW_LANE
]

def regRows5 : List RegRow := [
  ⟨0x00C30000, [(0x40, 256)], 0xFFFFFFFFFFFFFFFF, 0x0, 0x0, 0x0, none⟩, -- NW_GW_IP_HI
  ⟨0x00C30008, [(0x40, 256)], 0xFFFFFFFFFFFFFFFF, 0x0, 0x0, 0x0, none⟩, -- NW_GW_IP_LO
  ⟨0x00C30010, [(0x40, 256)], 0xFFFFFFFFFFFFFFFF, 0x0, 0x0, 0x0, none⟩, -- NW_TOOL_IP_HI
  ⟨0x00C30018, [(0x40, 256)], 0xFFFFFFFFFFFFFFFF, 0x0, 0x0, 0x0, none⟩, -- NW_TOOL_IP_LO
  ⟨0x00C30020, [(0x40, 256)], 0x3FFFFFFFF, 0x0, 0x0, 0x0, none⟩, -- NW_EP_PORTS
  ⟨0x00E00000, [], 0x1, 0x0, 0x0, 0x0, none⟩, -- TS_CTRL
  ⟨0x00E00008, [], 0xFFFFFFFF, 0x0, 0x0, 0x0, none⟩, -- TS_REFILL
  ⟨0x00E00010, [], 0xFFFFFFFFFFFF, 0x0, 0x0, 0x0, none⟩, -- TS_DSCP
  ⟨0x00E00018, [], 0x0, 0x0, 0xF, 0x0, none⟩, -- TS_FLAGS
  ⟨0x00E00020, [], 0x0, 0x0, 0x0, 0x0, none⟩, -- TS_FLAG_COUNT
  ⟨0x00E00028, [], 0xFFFFFFFFFFFF, 0x0, 0x0, 0x0, none⟩, -- TS_QBYTES
  ⟨0x00E01000, [(0x8, 256)], 0xFFF, 0x0, 0x0, 0x0, none⟩, -- TS_TCLASS
  ⟨0x00E20000, [(0x800, 8), (0x8, 256)], 0x80000FFFFFFFFFFF, 0x0, 0x0, 0x0, none⟩, -- TS_POLICE
  ⟨0x00E28000, [(0x8, 8)], 0x0, 0x0, 0x0, 0x0, none⟩, -- TS_POLICE_DROP
  ⟨0x00E30000, [(0x1000, 8)], 0x0, 0x0, 0x0, 0x3, none⟩, -- TS_GATE_CTRL
  ⟨0x00E30008, [(0x1000, 8)], 0xFFFFFFFFFFFFFFFF, 0x0, 0x0, 0x0, none⟩, -- TS_GATE_START
  ⟨0x00E30010, [(0x1000, 8)], 0x0, 0x0, 0x0, 0x0, none⟩, -- TS_GATE_STATE
  ⟨0x00E30800, [(0x1000, 8), (0x8, 256)], 0xFFFFFFFFFF, 0x0, 0x0, 0x0, none⟩, -- TS_GATE_ENTRY
  ⟨0x00E80000, [(0x10000, 8), (0x100, 256), (0x20, 8)], 0xFFFF, 0x0, 0x0, 0x0, none⟩, -- TS_WEIGHT
  ⟨0x00E80008, [(0x10000, 8), (0x100, 256), (0x20, 8)], 0xFFFFFFFFFF, 0x0, 0x0, 0x0, none⟩, -- TS_RATE
  ⟨0x00E80010, [(0x10000, 8), (0x100, 256), (0x20, 8)], 0x8000FFFFFFFFFFFF, 0x0, 0x0, 0x0, none⟩, -- TS_DEPTH
  ⟨0x00E80018, [(0x10000, 8), (0x100, 256), (0x20, 8)], 0x0, 0x0, 0x0, 0x0, none⟩, -- TS_TOKENS
  ⟨0x00A00000, [], 0x0, 0x0, 0x0, 0x1, none⟩, -- SEC_CTRL
  ⟨0x00A00008, [], 0x0, 0x0, 0x0, 0x0, none⟩, -- SEC_SERIAL
  ⟨0x00A00010, [], 0x0, 0x0, 0x0, 0x0, none⟩, -- SEC_STATE
  ⟨0x00A00018, [], 0x3, 0x0, 0x0, 0x0, none⟩, -- SEC_NET
  ⟨0x00A00020, [], 0x0, 0x0, 0x0, 0x0, none⟩, -- SEC_BLOB_FAIL
  ⟨0x00A00028, [], 0x0, 0x0, 0xFF, 0x0, none⟩, -- SEC_FLAGS
  ⟨0x00A00030, [], 0x0, 0x0, 0x0, 0x0, none⟩, -- SEC_FLAG_COUNT
  ⟨0x00A00038, [], 0x0, 0x0, 0x0, 0x0, none⟩, -- SEC_MEAS_GEN
  ⟨0x00A00100, [(0x8, 8)], 0xFF3, 0x0, 0x0, 0x0, none⟩, -- SEC_MACSEC
  ⟨0x00A08000, [(0x8, 546)], 0x0, 0x0, 0x0, 0x0, none⟩, -- SEC_DOM
  ⟨0x00A02000, [(0x8, 256)], 0x0, 0x0, 0x0, 0x0, none⟩, -- SEC_JOB
  ⟨0x00A03000, [(0x8, 256)], 0x3FF, 0x0, 0x0, 0x0, none⟩, -- SEC_TNET
  ⟨0x00A04000, [(0x8, 256)], 0x0, 0x0, 0x0, 0x0, none⟩, -- SEC_CONF
  ⟨0x00000000, [], 0x0, 0x0, 0x0, 0x0, none⟩, -- SV_ID
  ⟨0x00000008, [], 0x0, 0x0, 0x0, 0x0, none⟩, -- SV_GEN
  ⟨0x00000010, [], 0x0, 0x0, 0x0, 0x0, none⟩, -- SV_PART
  ⟨0x00000018, [], 0x0, 0x0, 0x0, 0x0, none⟩, -- SV_RECORDS
  ⟨0x00000020, [], 0x0, 0x0, 0x0, 0x0, none⟩ -- SV_SERIAL
]

def regRows6 : List RegRow := [
  ⟨0x00000028, [], 0x0, 0x0, 0x0, 0x0, none⟩, -- SV_CHANGED_YT
  ⟨0x00000040, [(0x8, 6)], 0x0, 0x0, 0x0, 0x0, none⟩, -- SV_TOPO
  ⟨0x00000080, [(0x8, 32)], 0x0, 0x0, 0x0, 0x0, none⟩, -- SV_DIR
  ⟨0x00440000, [], 0x0, 0x0, 0x0, 0x0, none⟩, -- BU_STATE
  ⟨0x00440008, [], 0x0, 0x0, 0x0, 0x3, none⟩, -- BU_CTRL
  ⟨0x00440010, [], 0x0, 0x0, 0x0, 0x0, none⟩, -- BU_ERR
  ⟨0x00440018, [], 0xFFFFFFFFFFFFFFFF, 0x0, 0x0, 0x0, none⟩, -- BU_LOAD_SRC
  ⟨0x00440020, [], 0x1FFFFFF, 0x0, 0x0, 0x0, none⟩, -- BU_LOAD_LEN
  ⟨0x00440028, [], 0x7, 0x0, 0x0, 0x100, none⟩, -- BU_LOAD_CMD
  ⟨0x00440030, [], 0x0, 0x0, 0x0, 0x0, none⟩, -- BU_STRAP
  ⟨0x00440040, [(0x8, 6)], 0xFFFFFFFFFFFFFFFF, 0x0, 0x0, 0x0, none⟩, -- BU_TOPO_EXP
  ⟨0x00440080, [(0x8, 9)], 0x0, 0x0, 0x0, 0x0, none⟩, -- BU_STEP_US
  ⟨0x00440100, [], 0x0, 0x0, 0x0, 0x0, none⟩, -- BU_FOUND_COUNT
  ⟨0x00441000, [(0x8, 256)], 0x0, 0x0, 0x0, 0x0, none⟩, -- BU_FOUND
  ⟨0x00500000, [], 0x8, 0x0, 0x0, 0x7, none⟩, -- CK_CTRL
  ⟨0x00500008, [], 0x0, 0xFFFFFFFFFFFFFF, 0x0, 0x0, some (0x00500000, 0)⟩, -- CK_MON_CFG
  ⟨0x00500010, [], 0x0, 0x0, 0x0, 0x0, none⟩, -- CK_MON_STATUS
  ⟨0x00500018, [], 0x0, 0x0, 0x0, 0x0, none⟩, -- CK_FB_TRIM
  ⟨0x00500020, [], 0xFFFFFFFFFF0F, 0x0, 0x0, 0x10, none⟩, -- CK_FMEAS_CTRL
  ⟨0x00500028, [], 0x0, 0x0, 0x0, 0x0, none⟩, -- CK_FMEAS_COUNT
  ⟨0x00500030, [], 0x0, 0x0, 0x7, 0x0, none⟩, -- CK_FLAGS
  ⟨0x00500038, [], 0x0, 0x0, 0x0, 0x0, none⟩, -- CK_FLAG_COUNT
  ⟨0x00500040, [(0x8, 5)], 0x0, 0x0, 0x0, 0x0, none⟩, -- CK_MON_COUNT
  ⟨0x00500080, [], 0xFFFFFFFF, 0x0, 0x0, 0x0, none⟩, -- CK_PACE_SETTLE
  ⟨0x00500088, [], 0xFFFFFFFFFFFFFFFF, 0x0, 0x0, 0x0, none⟩, -- CK_IDLE
  ⟨0x00500100, [(0x8, 8)], 0x0, 0xFFF0FFF, 0x0, 0x0, some (0x00500000, 0)⟩, -- CK_PACE
  ⟨0x00500200, [(0x20, 17)], 0x77, 0x0, 0x0, 0x0, none⟩, -- CK_PACE_CTL
  ⟨0x00500208, [(0x20, 17)], 0x0, 0x0, 0x0, 0x0, none⟩, -- CK_PACE_STATE
  ⟨0x00500210, [(0x20, 17)], 0x0, 0x0, 0x0, 0x0, none⟩, -- CK_RATE
  ⟨0x00500800, [(0x8, 37)], 0x7, 0x0, 0x0, 0x0, none⟩, -- CK_GATE
  ⟨0x00580000, [], 0x3, 0x0, 0x0, 0x4, none⟩, -- PW_CTRL
  ⟨0x00580008, [], 0x0, 0x0, 0x0, 0x0, none⟩, -- PW_STATUS
  ⟨0x00580010, [], 0x0, 0x0, 0x0, 0x0, none⟩, -- PW_WARN_YT
  ⟨0x00580018, [], 0x0, 0x0, 0x0, 0x0, none⟩, -- PW_SAFE_YT
  ⟨0x00580020, [], 0xFFFFFFFF, 0x0, 0x0, 0x0, none⟩, -- PW_RESUME
  ⟨0x00580028, [], 0xFFFF, 0xFFFF0000, 0x0, 0x0, some (0x00580000, 2)⟩, -- PW_CAP
  ⟨0x00580030, [], 0x0, 0x0, 0x0, 0x0, none⟩, -- PW_POWER
  ⟨0x00580038, [], 0xFFFF, 0x0, 0x0, 0x0, none⟩, -- PW_TELEM
  ⟨0x00580040, [], 0xFFFFFF00FFFF, 0x0, 0x0, 0x0, none⟩, -- PW_TJ
  ⟨0x00580048, [], 0xFFFFFF, 0x0, 0x0, 0x0, none⟩ -- PW_SAG
]

def regRows7 : List RegRow := [
  ⟨0x00580050, [], 0x0, 0x3F, 0x0, 0x0, some (0x00580000, 2)⟩, -- PW_AVS
  ⟨0x00580058, [], 0x0, 0x0, 0xFF, 0x0, none⟩, -- PW_FLAGS
  ⟨0x00580060, [], 0x0, 0x0, 0x0, 0x0, none⟩, -- PW_FLAG_COUNT
  ⟨0x00580100, [(0x20, 17)], 0x0, 0x0, 0x0, 0x0, none⟩, -- PW_RAIL
  ⟨0x00580108, [(0x20, 17)], 0x0, 0x0, 0x0, 0x0, none⟩, -- PW_TEMP
  ⟨0x00580110, [(0x20, 17)], 0x0, 0x0, 0x0, 0x0, none⟩, -- PW_LIMITS
  ⟨0x00580118, [(0x20, 17)], 0x0, 0x0, 0x0, 0x0, none⟩, -- PW_DROOP_CNT
  ⟨0x00580400, [(0x8, 5)], 0x0, 0x0, 0x0, 0x0, none⟩, -- PW_XRAIL
  ⟨0x00900000, [], 0x3, 0x0, 0x0, 0x0, none⟩, -- RP_CTRL
  ⟨0x00900008, [], 0xFFFFFFFFFFFFFFFF, 0x0, 0x0, 0x0, none⟩, -- RP_WINDOW
  ⟨0x00900010, [], 0xFFFFFFFF, 0x0, 0x0, 0x0, none⟩, -- RP_THRESH
  ⟨0x00900018, [], 0xFFFFFFFFFFFFFFFF, 0x0, 0x0, 0x0, none⟩, -- RP_TEST_PERIOD
  ⟨0x00900020, [], 0x1F, 0x0, 0x0, 0x0, none⟩, -- RP_SPARE_LOW
  ⟨0x00900028, [], 0x0, 0x0, 0x0, 0x0, none⟩, -- RP_LOG_COUNT
  ⟨0x00900030, [], 0xFFFFFFFF, 0x0, 0x0, 0x0, none⟩, -- RP_LOG_ACK
  ⟨0x00900038, [], 0x0, 0x0, 0x1FF, 0x0, none⟩, -- RP_FLAGS
  ⟨0x00900040, [], 0x0, 0x0, 0x0, 0x0, none⟩, -- RP_FLAG_COUNT
  ⟨0x00900048, [], 0x0, 0x0, 0x0, 0x0, none⟩, -- RP_FLAG_COUNT2
  ⟨0x00901000, [(0x8, 1024)], 0x0, 0x0, 0x0, 0x0, none⟩, -- RP_LOG
  ⟨0x00920000, [(0x8, 8192)], 0x0, 0x0, 0x0, 0x0, none⟩, -- RP_CELL_CORR
  ⟨0x00880000, [], 0x1, 0x0, 0x0, 0x2, none⟩, -- CP_CTRL
  ⟨0x00880008, [], 0x0, 0xFFFFFFFF, 0x0, 0x0, some (0x00880000, 1)⟩, -- CP_SLOT_CFG
  ⟨0x00880010, [], 0x7F, 0x0, 0x0, 0x0, none⟩, -- CP_TRIG
  ⟨0x00880018, [], 0xFFFFFFFFFFFFFFFF, 0x0, 0x0, 0x0, none⟩, -- CP_PERIOD
  ⟨0x00880020, [], 0xFFFFFFFFFFFFFFFF, 0x0, 0x0, 0x0, none⟩, -- CP_MIN_GAP
  ⟨0x00880028, [], 0x0, 0x0, 0x0, 0x0, none⟩, -- CP_STATUS
  ⟨0x00880030, [], 0x0, 0x0, 0x0, 0x0, none⟩, -- CP_OP
  ⟨0x00880038, [], 0x0, 0x0, 0x0, 0x0, none⟩, -- CP_SKIP_CNT
  ⟨0x00880040, [], 0x0, 0x0, 0x0, 0x0, none⟩, -- CP_MIRRORS
  ⟨0x00880048, [], 0x0, 0x0, 0x7F, 0x0, none⟩, -- CP_FLAGS
  ⟨0x00880050, [], 0x0, 0x0, 0x0, 0x0, none⟩, -- CP_FLAG_COUNT
  ⟨0x00880100, [(0x10, 2)], 0x0, 0x0, 0x0, 0x0, none⟩, -- CP_SLOT_STATE
  ⟨0x00880108, [(0x10, 2)], 0x0, 0x0, 0x0, 0x0, none⟩, -- CP_SLOT_STEP
  ⟨0x00800008, [], 0x0, 0x0, 0x0, 0x0, none⟩, -- EV_TOTAL
  ⟨0x00800010, [], 0x0, 0x0, 0x0, 0x0, none⟩, -- EV_NMI
  ⟨0x00800018, [], 0x0, 0x0, 0x0, 0x0, none⟩, -- EV_FATAL
  ⟨0x00800020, [], 0x0, 0x0, 0x0, 0x0, none⟩, -- EV_FATAL_YT
  ⟨0x00800028, [], 0x0, 0x0, 0x3, 0x0, none⟩, -- EV_FLAGS
  ⟨0x00800030, [], 0x0, 0x0, 0x0, 0x0, none⟩, -- EV_FLAG_COUNT
  ⟨0x00800100, [(0x8, 64)], 0xFFFFFFFFFFFFFFFF, 0x0, 0x0, 0x0, none⟩ -- EV_MASK
]

def regRows8 : List RegRow := [
  ⟨0x00801000, [(0x100, 4)], 0xFFFFFFFFFFFFFFFF, 0x0, 0x0, 0x0, none⟩, -- EV_MR_RING_BASE
  ⟨0x03008000, [(0x10000, 256)], 0xFFFFFFFFFFFFFFFF, 0x0, 0x0, 0x0, none⟩, -- HQ_EV_RING_BASE
  ⟨0x00801008, [(0x100, 4)], 0xFFFFFFFF07FF0F1F, 0x0, 0x0, 0x0, none⟩, -- EV_MR_RING_CFG
  ⟨0x03008008, [(0x10000, 256)], 0xFFFFFFFF07FF0F1F, 0x0, 0x0, 0x0, none⟩, -- HQ_EV_RING_CFG
  ⟨0x00801010, [(0x100, 4)], 0x3, 0x0, 0x0, 0x0, none⟩, -- EV_MR_RING_CTRL
  ⟨0x03008010, [(0x10000, 256)], 0x3, 0x0, 0x0, 0x0, none⟩, -- HQ_EV_RING_CTRL
  ⟨0x00801018, [(0x100, 4)], 0xFFFF, 0x0, 0x0, 0x0, none⟩, -- EV_MR_RING_HEAD
  ⟨0x03008018, [(0x10000, 256)], 0xFFFF, 0x0, 0x0, 0x0, none⟩, -- HQ_EV_RING_HEAD
  ⟨0x00801020, [(0x100, 4)], 0x0, 0x0, 0x0, 0x0, none⟩, -- EV_MR_RING_TAIL
  ⟨0x03008020, [(0x10000, 256)], 0x0, 0x0, 0x0, 0x0, none⟩, -- HQ_EV_RING_TAIL
  ⟨0x00801028, [(0x100, 4)], 0x0, 0x0, 0x0, 0x0, none⟩, -- EV_MR_RING_LOST
  ⟨0x03008028, [(0x10000, 256)], 0x0, 0x0, 0x0, 0x0, none⟩, -- HQ_EV_RING_LOST
  ⟨0x03000000, [(0x10000, 256), (0x400, 16)], 0xFFFFFFFFFFFFFFFF, 0x0, 0x0, 0x0, none⟩, -- HQ_SQ_BASE
  ⟨0x0040B000, [(0x100, 4)], 0xFFFFFFFFFFFFFFFF, 0x0, 0x0, 0x0, none⟩, -- GC_MQ_SQ_BASE
  ⟨0x03000008, [(0x10000, 256), (0x400, 16)], 0xFFFFFFFFFFFFFFFF, 0x0, 0x0, 0x0, none⟩, -- HQ_CQ_BASE
  ⟨0x0040B008, [(0x100, 4)], 0xFFFFFFFFFFFFFFFF, 0x0, 0x0, 0x0, none⟩, -- GC_MQ_CQ_BASE
  ⟨0x03000010, [(0x10000, 256), (0x400, 16)], 0xFFFFFFFF07FF1F1F, 0x0, 0x0, 0x0, none⟩, -- HQ_Q_CFG
  ⟨0x0040B010, [(0x100, 4)], 0xFFFFFFFF07FF1F1F, 0x0, 0x0, 0x0, none⟩, -- GC_MQ_CFG
  ⟨0x03000018, [(0x10000, 256), (0x400, 16)], 0x3, 0x0, 0x0, 0x0, none⟩, -- HQ_Q_CTRL
  ⟨0x0040B018, [(0x100, 4)], 0x3, 0x0, 0x0, 0x0, none⟩, -- GC_MQ_CTRL
  ⟨0x03000020, [(0x10000, 256), (0x400, 16)], 0x0, 0x0, 0x0, 0x0, none⟩, -- HQ_Q_STATE
  ⟨0x0040B020, [(0x100, 4)], 0x0, 0x0, 0x0, 0x0, none⟩, -- GC_MQ_STATE
  ⟨0x03000028, [(0x10000, 256), (0x400, 16), (0x8, 4)], 0x0, 0x0, 0x0, 0x0, none⟩, -- HQ_MBOX
  ⟨0x0040B028, [(0x100, 4), (0x8, 4)], 0x0, 0x0, 0x0, 0x0, none⟩, -- GC_MQ_MBOX
  ⟨0x03000048, [(0x10000, 256), (0x400, 16)], 0x0, 0x0, 0x0, 0x0, none⟩, -- HQ_Q_DONE
  ⟨0x0040B048, [(0x100, 4)], 0x0, 0x0, 0x0, 0x0, none⟩ -- GC_MQ_DONE
]

/-- Every register of the register tables. -/
def regRows : List RegRow :=
  regRows0 ++ regRows1 ++ regRows2 ++ regRows3 ++ regRows4 ++ regRows5 ++ regRows6 ++ regRows7 ++ regRows8

/-- The row an offset falls in; none is a reserved offset (R613). -/
def regRow? (off : Nat) : Option RegRow := regRows.find? (fun r => r.covers off)

def resetRows0 : List (Nat × List (Nat × Nat) × Nat) := [
  (0x0040B318, [], 0x5C), -- GC_MQ_CTRL[3]
  (0x00801310, [], 0x1C), -- EV_MR_RING_CTRL[3]
  (0x0040B218, [], 0x58), -- GC_MQ_CTRL[2]
  (0x00801210, [], 0x14), -- EV_MR_RING_CTRL[2]
  (0x0040B118, [], 0x54), -- GC_MQ_CTRL[1]
  (0x00801110, [], 0xC), -- EV_MR_RING_CTRL[1]
  (0x01800020, [], 0xC0000000), -- STL_DIRTY_LIMIT
  (0x01800038, [], 0xFF), -- STL_JOURNAL_PORTS
  (0x01800040, [], 0x6FC23AC00), -- STL_WAIT_DEFAULT
  (0x01800048, [], 0x77359400), -- STL_LEASE_PREP
  (0x01800050, [], 0x77359400), -- STL_LEASE_COMMIT
  (0x01800058, [], 0x2540BE400), -- STL_ORPHAN_TIMEOUT
  (0x01800060, [], 0xDF8475800), -- STL_RETIRE_HOLD
  (0x01800068, [], 0xF4240), -- STL_REVIVE_RETRY
  (0x01810008, [], 0x4), -- KV_HEADROOM
  (0x01810010, [], 0x1000), -- KV_STEP_TOKENS
  (0x01810018, [], 0x200), -- KV_CHUNK_MIN
  (0x01000008, [], 0x4E94914F0000), -- HB_SCRUB_PERIOD
  (0x01000010, [], 0x40001000001000), -- HB_SPARE_THRESH
  (0x01000018, [], 0x7D), -- HB_SPARE_RATE
  (0x01000020, [], 0x3B9ACA00), -- HB_EVAC_TIME
  (0x01000100, [(0x100, 16), (0x8, 17)], 0x1F), -- HB_CH
  (0x01200008, [], 0xC8), -- SH_WEAR_SPREAD
  (0x01200010, [], 0x186A0), -- SH_RD_LIMIT
  (0x01200018, [], 0x2260FF9290000), -- SH_SCRUB_PERIOD
  (0x01200020, [], 0x5), -- SH_GC_LOW
  (0x01400018, [], 0x2), -- PF_DISTANCE
  (0x01400028, [], 0x400004), -- PF_PROMOTE
  (0x01820008, [], 0x1000000), -- TX_INPUT_BYTES
  (0x01820010, [], 0x10000), -- TX_CALL_MAX
  (0x01821028, [(0x40, 256)], 0x3FFFFFFFFFF), -- TX_TOOLTOK
  (0x01821030, [(0x40, 256)], 0x3FFFFFFFFFF), -- TX_RESTOK
  (0x01850008, [], 0x4), -- VS_PREFETCH
  (0x01850010, [], 0x4B), -- VS_MERGE_AT
  (0x00600030, [], 0xB), -- YT_LOCK_LIMIT
  (0x00600048, [], 0x30D40), -- YT_WAGGLE_LEAD
  (0x02000010, [], 0x8), -- SCH_STARVE
  (0x02020000, [(0x20, 256)], 0xF424001312D00), -- SCH_ROUND_CFG
  (0x02020008, [(0x20, 256)], 0x10700000000), -- SCH_LATENCY
  (0x02020010, [(0x20, 256)], 0xFFFF) -- SCH_CAP
]

def resetRows1 : List (Nat × List (Nat × Nat) × Nat) := [
  (0x02100000, [], 0x3B9ACA00), -- TN_PERIOD
  (0x02110008, [(0x80, 256)], 0x100000400000), -- TN_QUOTA
  (0x02110018, [(0x80, 256)], 0x8000000000000000), -- TN_GRANT
  (0x0040A808, [], 0xDF8475800), -- GC_OP_HOLD
  (0x00C00008, [], 0x4D530000), -- NW_DEV
  (0x00C00020, [], 0xA05F5E100), -- NW_HELLO
  (0x00C00028, [], 0x30D40), -- NW_RETX
  (0x00C00030, [], 0xF4240), -- NW_ACCEPT
  (0x00C00040, [], 0x40), -- NW_CREDITS
  (0x00C00048, [], 0x100000), -- NW_INBOX
  (0x00C00050, [], 0x12A05F200), -- NW_EP_TIMEOUT
  (0x00E00008, [], 0x3E8), -- TS_REFILL
  (0x00E00028, [], 0x4000000), -- TS_QBYTES
  (0x00E01000, [(0x8, 256)], 0x66D), -- TS_TCLASS
  (0x00E80000, [(0x10000, 8), (0x100, 256), (0x20, 8)], 0x1), -- TS_WEIGHT
  (0x00A00100, [(0x8, 8)], 0x800), -- SEC_MACSEC
  (0x00500000, [], 0x8), -- CK_CTRL
  (0x00500008, [], 0xA0003D09003E8), -- CK_MON_CFG
  (0x00500020, [], 0x17D784020), -- CK_FMEAS_CTRL
  (0x00500080, [], 0xA0A01F4), -- CK_PACE_SETTLE
  (0x00500088, [], 0x98968000002710), -- CK_IDLE
  (0x00500200, [(0x20, 17)], 0x4), -- CK_PACE_CTL
  (0x00500208, [(0x20, 17)], 0x27), -- CK_PACE_STATE
  (0x00500210, [(0x20, 17)], 0xFFFFFFFF00000000), -- CK_RATE
  (0x00500800, [(0x8, 37)], 0x1), -- CK_GATE
  (0x00580000, [], 0x3), -- PW_CTRL
  (0x00580020, [], 0x5F5E100), -- PW_RESUME
  (0x00580028, [], 0xDA0C80), -- PW_CAP
  (0x00580038, [], 0x64), -- PW_TELEM
  (0x00580040, [], 0x3E86E055F), -- PW_TJ
  (0x00580048, [], 0x1028), -- PW_SAG
  (0x00580050, [], 0xA), -- PW_AVS
  (0x00900000, [], 0x3), -- RP_CTRL
  (0x00900008, [], 0x34630B8A000), -- RP_WINDOW
  (0x00900010, [], 0x100040), -- RP_THRESH
  (0x00900018, [], 0x4E94914F0000), -- RP_TEST_PERIOD
  (0x00900020, [], 0x4), -- RP_SPARE_LOW
  (0x00880020, [], 0x8BB2C97000), -- CP_MIN_GAP
  (0x00801008, [(0x100, 4)], 0xF00), -- EV_MR_RING_CFG
  (0x03008008, [(0x10000, 256)], 0xF00) -- HQ_EV_RING_CFG
]

def resetRows2 : List (Nat × List (Nat × Nat) × Nat) := [
  (0x00801010, [(0x100, 4)], 0x4), -- EV_MR_RING_CTRL
  (0x03008010, [(0x10000, 256)], 0x4), -- HQ_EV_RING_CTRL
  (0x03000018, [(0x10000, 256), (0x400, 16)], 0x50), -- HQ_Q_CTRL
  (0x0040B018, [(0x100, 4)], 0x50), -- GC_MQ_CTRL
  (0x00500100, [], 0x8340320), -- CK_PACE[0]
  (0x00500108, [], 0x79E02EE), -- CK_PACE[1]
  (0x00500110, [], 0x70802D0), -- CK_PACE[2]
  (0x00500118, [], 0x67202B2), -- CK_PACE[3]
  (0x00500120, [], 0x5DC0294), -- CK_PACE[4]
  (0x00500128, [], 0x5140276), -- CK_PACE[5]
  (0x00500130, [], 0x44C0258), -- CK_PACE[6]
  (0x00500138, [], 0x3200226), -- CK_PACE[7]
  (0x00C20000, [], 0x0), -- NW_LANE[0]
  (0x00C20008, [], 0x10), -- NW_LANE[1]
  (0x00C20010, [], 0x20), -- NW_LANE[2]
  (0x00C20018, [], 0x30), -- NW_LANE[3]
  (0x00C20020, [], 0x1), -- NW_LANE[4]
  (0x00C20028, [], 0x11), -- NW_LANE[5]
  (0x00C20030, [], 0x21), -- NW_LANE[6]
  (0x00C20038, [], 0x31), -- NW_LANE[7]
  (0x00C20040, [], 0x2), -- NW_LANE[8]
  (0x00C20048, [], 0x12), -- NW_LANE[9]
  (0x00C20050, [], 0x22), -- NW_LANE[10]
  (0x00C20058, [], 0x32), -- NW_LANE[11]
  (0x00C20060, [], 0x3), -- NW_LANE[12]
  (0x00C20068, [], 0x13), -- NW_LANE[13]
  (0x00C20070, [], 0x23), -- NW_LANE[14]
  (0x00C20078, [], 0x33), -- NW_LANE[15]
  (0x00C20080, [], 0x4), -- NW_LANE[16]
  (0x00C20088, [], 0x14), -- NW_LANE[17]
  (0x00C20090, [], 0x24), -- NW_LANE[18]
  (0x00C20098, [], 0x34), -- NW_LANE[19]
  (0x00C200A0, [], 0x5), -- NW_LANE[20]
  (0x00C200A8, [], 0x15), -- NW_LANE[21]
  (0x00C200B0, [], 0x25), -- NW_LANE[22]
  (0x00C200B8, [], 0x35), -- NW_LANE[23]
  (0x00C200C0, [], 0x6), -- NW_LANE[24]
  (0x00C200C8, [], 0x16), -- NW_LANE[25]
  (0x00C200D0, [], 0x26), -- NW_LANE[26]
  (0x00C200D8, [], 0x36) -- NW_LANE[27]
]

def resetRows3 : List (Nat × List (Nat × Nat) × Nat) := [
  (0x00C200E0, [], 0x7), -- NW_LANE[28]
  (0x00C200E8, [], 0x17), -- NW_LANE[29]
  (0x00C200F0, [], 0x27), -- NW_LANE[30]
  (0x00C200F8, [], 0x37), -- NW_LANE[31]
  (0x00C20100, [], 0x4F), -- NW_LANE[32]
  (0x00C20108, [], 0x4F), -- NW_LANE[33]
  (0x00C20110, [], 0x4F), -- NW_LANE[34]
  (0x00C20118, [], 0x4F) -- NW_LANE[35]
]

/-- The registers whose value after power-up is not 0, with that value. -/
def resetRows : List (Nat × List (Nat × Nat) × Nat) :=
  resetRows0 ++ resetRows1 ++ resetRows2 ++ resetRows3

/-- The value of a register after power-up (R8). -/
def regReset (off : Nat) : Word :=
  match resetRows.find? (fun r => decide (r.1 ≤ off) && coversDims r.2.1 (off - r.1)) with
  | some r => BitVec.ofNat 64 r.2.2
  | none => 0

end Sys2Proof.Machine
end

