-- ==== Sys2Proof/Machine/Sparse.lean ====
section
/-! DEFINITION. Sparse tables: a list of (key, value) pairs, an unlisted key holding its default.
The canonical form lists keys strictly rising and no value equal to its default. -/

namespace Sys2Proof.Machine

variable {α : Type}

/-- The value at key `k`; `d` where no pair lists it. -/
def sparseGet (d : α) : List (Nat × α) → Nat → α
  | [], _ => d
  | (j, v) :: t, k => if j = k then v else sparseGet d t k

/-- The list with (k, x) put in at its place, replacing the pair of key `k`. -/
def sparseInsert (k : Nat) (x : α) : List (Nat × α) → List (Nat × α)
  | [] => [(k, x)]
  | (j, v) :: t =>
    if k < j then (k, x) :: (j, v) :: t
    else if k = j then (k, x) :: t
    else (j, v) :: sparseInsert k x t

/-- The list without key `k`. -/
def sparseErase (k : Nat) (l : List (Nat × α)) : List (Nat × α) := l.filter (fun p => p.1 ≠ k)

/-- The list with `x` at key `k`; writing the default removes the pair. -/
def sparsePut [DecidableEq α] (d : α) (k : Nat) (x : α) (l : List (Nat × α)) : List (Nat × α) :=
  if x = d then sparseErase k l else sparseInsert k x l

/-- The canonical form, over a default that may depend on the key. -/
def sparseWf [DecidableEq α] (d : Nat → α) (l : List (Nat × α)) : Bool :=
  match l with
  | [] => true
  | (j, v) :: t => decide (v ≠ d j) && t.all (fun p => decide (j < p.1)) && sparseWf d t

/-- Every pair whose value passes `p`. -/
def sparseCount (p : α → Bool) (l : List (Nat × α)) : Nat := (l.filter (fun e => p e.2)).length

end Sys2Proof.Machine
end

