-- ==== Sys2Proof/Machine/State.lean ====
section
/-! DEFINITION. The state of the block: every register, queue, buffer, counter, mode and pin the spec gives it, as plain data,
and the queue of commands that wait. -/

namespace Sys2Proof.Machine

/-- What a command queue holds beside its registers (R388 to R405); `session` counts how often EN has become 1. -/
structure QueueX where
  inProgress : List Cmd := []
  longs : List Cmd := []
  reserved : Nat := 0
  records : List (Nat × Nat) := []
  lastSeq : Nat := 0
  unsignalled : Nat := 0
  firstUnsignalled : Nat := 0
  session : Nat := 0
deriving DecidableEq, Repr

/-- What an event ring holds beside its registers (R602 to R608). -/
structure RingX where
  gap : Bool := false
  unsignalled : Nat := 0
  firstUnsignalled : Nat := 0
deriving DecidableEq, Repr

/-- An SPDM response (R451). -/
inductive SpdmReply where
  | version (supported : List Nat)
  | capabilities
  | algorithms
  | digests (slot0 : List Byte)
  | certificate (portion : List Byte) (remainder : Nat)
  | challengeAuth (chainHash signature : List Byte)
  | measurements (blocks : List (Nat × List Byte)) (signature : List Byte)
  | keyExchange (session : Nat)
  | finish
  | ack
  | errorUnspecified
  | errorSessionLimit
  | errorInvalid
  | errorUnsupported
deriving DecidableEq, Repr

/-- What the block sends to the outside, newest first in `Io.out`. -/
inductive Out where
  | hostWrite (port addr : Nat) (bytes : List Byte)
  | msix (port vector : Nat)
  | datagram (port peer tenant nextHop : Nat) (dest : BitVec 128) (udp dscp : Nat) (bytes : List Byte)
  | neighborAdvert (port : Nat) (target : BitVec 128) (mac : Nat)
  | echoReply (port : Nat) (bytes : List Byte)
  | ptp (port : Nat) (bytes : List Byte)
  | i3c (value : Word)
  | spdm (port : Nat) (session : Option Nat) (reply : SpdmReply)
  | shedImage (addr offset domain : Nat) (bytes : List Byte)
  | avsbus (rail : Nat) (millivolts : Nat)
  | shedRead (addr bytes ports : Nat)
deriving DecidableEq, Repr

/-- The register file, the queues, the event rings, the detached commands (R412) with their ports, each port's place in the
round-robin (R392), the outputs, and whether FATAL_N is asserted. -/
structure Io where
  regs : List (Nat × Word) := []
  queues : List (Nat × QueueX) := []
  rings : List (Nat × RingX) := []
  detached : List (Nat × Cmd) := []
  turn : List (Nat × Nat) := []
  out : List Out := []
  fatal : Bool := false
deriving DecidableEq, Repr

/-- Who owns granules of Tier 1 (R243, R70, R632). -/
inductive Owner where
  /-- a tenant's object, in its own Tier 1 domain or in the model domain given (R399) -/
  | tenant (t : Nat) (model : Option Nat)
  /-- latent pages, page lists, root table or index storage of a stall (R88, R243) -/
  | stall (slot : Nat)
  /-- granules a stall's transfer holds and has not linked yet (R70) -/
  | inHand (slot : Nat)
  /-- a structure placed under R632, with its domain -/
  | device (domain : Nat)
  /-- the header pool (R632): the stall engine's, each slot in the tenant domain of the header it holds -/
  | headerPool
  /-- a context's image copy and save area (R250, R252) -/
  | context (slot : Nat)
  /-- a weight object's buffer or copy (R144) -/
  | prefetch (object : Nat)
  | quarantine
deriving DecidableEq, Repr

/-- A run of granules with one owner; `start` is the Tier 1 address divided by 4,096. Granules in no run are free. -/
structure Run where
  start : Nat
  len : Nat
  owner : Owner
deriving DecidableEq, Repr

/-- Tier 1. `bytes` holds the data bytes in canonical form, an unlisted byte reading 0; `domains` holds, by block, one more
than the domain the block was last written in, an unlisted block being a clear block (R120, R124), and `keyed` the keys that domain had then
(R121, R122); `errors` holds, by block, how many of its stored bytes are wrong and in how many bits its tag differs; `tagsCorrected` counts the corrected
tags (R120). -/
structure Tier1 where
  bytes : List Host.Cell := []
  domains : List (Nat × Nat) := []
  keyed : List (Nat × List Byte) := []
  errors : List (Nat × (Nat × Nat)) := []
  tagsCorrected : Nat := 0
  poison : List (Nat × List Nat) := []
  runs : List Run := []
  rotor : List (Nat × Nat) := []
  absent : Nat := 0xFFFF
  scrubAt : List (Nat × Nat) := []
deriving DecidableEq, Repr

/-- The state of an erase block (R135). -/
inductive BlockState where
  | free | valid | stale | bad
deriving DecidableEq, Repr

/-- One erase block of a Shed port: on which channel, how often erased, how often read since (R137, R138). -/
structure EraseBlock where
  channel : Nat
  state : BlockState
  erases : Nat
  reads : Nat
deriving DecidableEq, Repr

/-- A logical band (R134, R135): the blocks under it and its bytes written and still valid. -/
structure Band where
  blocks : List Nat := []
  written : Nat := 0
  valid : Nat := 0
deriving DecidableEq, Repr

/-- A Shed port's translation layer: whether its training has started and has ended; `journal` holds the journal records that training found on it, with their journal band
sequences, and `closed` the highest journal band sequence closed. -/
structure ShedPort where
  training : Bool := false
  trained : Bool := false
  blocks : List EraseBlock := []
  bands : List (Nat × Band) := []
  openBand : Option Nat := none
  spareGood : Nat := 0
  goodAtTrain : Nat := 0
  journal : List (Nat × JRecord) := []
  closed : Nat := 0
  scrubDue : Nat := 0
deriving DecidableEq, Repr

/-- A prefetch object's residency (R144, R145): its copies by Hive, whether it is being read, the tenants whose rounds still need its
buffer, and the rounds that used it. -/
structure Resident where
  copies : List (Nat × Nat) := []
  loading : Bool := false
  users : List Nat := []
  uses : List Nat := []
  lastUsed : Nat := 0
deriving DecidableEq, Repr

/-- A layer of a tenant's round that waits for weight objects (R144): since when, and for which. -/
structure PfWait where
  tenant : Nat
  layer : Nat
  since : Nat
  objects : List Nat
deriving DecidableEq, Repr

/-- The prefetch unit. -/
structure Prefetch where
  objects : List (Nat × Resident) := []
  waits : List PfWait := []
  round : Nat := 0
deriving DecidableEq, Repr

/-- One linked page (R83, R86): its address, size code, PAGE_SCALE and first position. -/
structure Page where
  addr : Nat
  size : Nat
  scale : Nat
  firstToken : Nat
deriving DecidableEq, Repr

/-- A layer entry (R85) with its page list (R86). -/
structure Layer where
  list : Nat
  pages : List Page
  filled : Nat
deriving DecidableEq, Repr

/-- The root table of a session stall (R84). -/
structure PageTable where
  addr : Nat
  shape : Nat
  pageMin : Nat
  pageMax : Nat
  shapeCap : Nat
  recBytes : Nat
  spread : Nat
  nextInput : Nat
  layers : List Layer
deriving DecidableEq, Repr

/-- A copy of a layer under way to another Hive (R90). -/
structure Reloc where
  layer : Nat
  hive : Nat
  list : Nat
  pages : List Page
deriving DecidableEq, Repr

/-- A park in progress (R48): the state it left, who asked, the ports named. -/
structure ParkX where
  prior : StallState
  cmd : Option Cmd
  ports : Nat
deriving DecidableEq, Repr

/-- Why a stall is being revived (R50, R51, R54, R55, R66): for a command, an announcement, an accepted tool result (`again` for a retry of R51), or input, whose bytes
are those given or are read at address A of the command. -/
inductive ReviveCause where
  | command (c : Cmd)
  | announce
  | result (again : Bool)
  | input (c : Cmd) (bytes : Option (List Byte))
deriving DecidableEq, Repr

/-- A revive in progress (R50). -/
structure ReviveX where
  cause : ReviveCause
  toHot : Bool
  hive : Nat
deriving DecidableEq, Repr

/-- A tool result journalled and accepted and not yet tokenised (R55): its MSG_ID, and the YT count of the next try of a deferred revive (R51). -/
structure ResultX where
  callId : Nat
  retryAt : Option Nat
deriving DecidableEq, Repr

/-- What waits for the end of a stall's step (R25, R41, R66), in the order it came: a command with its opcode (and for STALL_MIGRATE its operation slot above it), a
device's FETCH, a tool result with the request that delivered it, input of `tx.tok`. -/
inductive Deferred where
  | command (opcode : Nat) (c : Cmd)
  | fetch (device : Nat)
  | result (m : Msg) (c : Option Cmd)
  | input (c : Cmd) (bytes : List Byte)
deriving DecidableEq, Repr

/-- The end of a step whose tokens the journal does not cover yet: the length it committed, and NEXT_INPUT, STEP and SAMPLE_CTR as of it (R57, R110). -/
structure StepMark where
  len : Nat
  nextInput : Nat
  step : Nat
  sampleCtr : Nat
deriving DecidableEq, Repr

/-- A token selected at a step's position (R203). -/
structure Draw where
  pos : Nat
  token : Nat
deriving DecidableEq, Repr

/-- What the text and grammar engines hold of a stall while its step runs (R165, R174, R180): the header takes it when the step
commits. The stack has its newest return state first. -/
structure TextState where
  grState : Nat
  grStack : List Nat
  stop : StopState
  spill : List Byte
  callId : Nat
deriving DecidableEq, Repr

/-- An `st.commit` held at step 9 because the tenant's output queue is full (R430): accepted drafts, drawn token, step status,
and the request that answers. -/
structure HeldCommit where
  accepted : Nat
  token : Nat
  status : Nat
  slot : Nat
  unit : Nat
  cmd : Cmd
deriving DecidableEq, Repr

/-- A draw that waits for its mask (R177): the request that answers, the position, the row's address and whether it is a list, the
profile read at issue, none for greedy decoding, and when the wait began. -/
structure DrawWait where
  slot : Nat
  unit : Nat
  cmd : Cmd
  pos : Nat
  row : Nat
  list : Bool
  profile : Option (List Byte)
  since : Nat
deriving DecidableEq, Repr

/-- The step a RUNNING stall is in (R92, R93): its round, the tokens it appends before drafts, how many of them are queued input,
the drafts, whether R100 ends it at the limit, the profile copied at composition and its address (R200), the positions at which a
token was selected, the masks handed to selection (position, tokens allowed; R298), whether a position was dead (R178), the engines' working state, the messages
that leave when it commits, the timing-dependent choices it holds (R326), and the draws that wait for their masks. -/
structure StepX where
  round : Nat
  appended : List Nat
  inputTokens : Nat
  drafts : List Nat
  limitHit : Bool
  profileAt : Nat
  profile : Option (List Byte)
  draws : List Draw
  masks : List (Nat × List Nat)
  dead : Bool
  text : TextState
  out : List Msg
  nd : Nat
  held : Option HeldCommit
  waits : List DrawWait := []
deriving DecidableEq, Repr

/-- A copy of a stall that a holder in doubt has learnt of (R69). -/
structure CopyInfo where
  device : Nat
  handle : Nat
  epoch : Nat
  committed : Bool
deriving DecidableEq, Repr

/-- A migration at its source (R62, R65, R66): the operation, if a command started it, and the destination state asked. -/
structure MigX where
  op : Option Nat
  parkAtDest : Bool
  lastRenew : Nat
  lastQuery : Nat
  destHandle : Nat
deriving DecidableEq, Repr

/-- One slot of the stall directory (R33) with all that belongs to the stall in it: `heldInput` is input not yet tokenised, each with the position of its first token,
whether it is framed as a tool result, and its bytes (R634); `inputHead` counts the appended tokens in the first granule of the input queue (R159); `origin` is the pair
the stall came from (R62). -/
structure Stall where
  gen : Nat := 1
  state : StallState := .free
  location : Nat := 0
  ownerDev : Nat := 0
  epoch : Nat := 0
  leaseExpiry : Nat := 0
  headerAt : Nat := 0
  shedPorts : Nat := 0
  handle : Nat := 0
  poolSlot : Option Nat := none
  hdr : Header := {}
  table : Option PageTable := none
  journal : List JRecord := []
  extents : List (Nat × Nat) := []
  shape : Nat := 0
  pageMin : Nat := 0
  pageMax : Nat := 0
  spread : Nat := 0
  deferred : List Deferred := []
  park : Option ParkX := none
  revive : Option ReviveX := none
  result : Option ResultX := none
  marks : List StepMark := []
  queued : List Nat := []
  heldInput : List (Nat × Bool × List Byte) := []
  inputGranules : List Nat := []
  inputHead : Nat := 0
  relocs : List Reloc := []
  leftOut : Nat := 0
  step : Option StepX := none
  copies : List CopyInfo := []
  mig : Option MigX := none
  origin : Option (Nat × Nat) := none
  fetchCmd : Option Cmd := none
  retiredAt : Nat := 0
  vsCap : Nat := 0
deriving DecidableEq, Repr

/-- The states of a long operation (R407). -/
inductive OpState where
  | queued | running | suspending | suspended | resuming | cancelling | done | cancelled | failed
deriving DecidableEq, Repr

/-- An operation slot (R406 to R410). `cmd` is the starting command, `args` what the operation names. -/
structure OpSlot where
  gen : Nat := 1
  live : Bool := false
  st : OpState := .queued
  opcode : Nat := 0
  cmd : Option Cmd := none
  session : Nat := 0
  owner : Nat := 0
  args : List Nat := []
  progress : Nat := 0
  phase : Nat := 0
  started : Bool := false
  changedYt : Nat := 0
  endYt : Nat := 0
  suspendCmd : Option Cmd := none
  cancelCmd : Option Cmd := none
deriving DecidableEq, Repr

/-- Yard Time (R331 to R337): the count, its fraction in units of 10^-9 ns, and what the servo has seen; the PTP
time source with its rank; `lastPps` the count at the last pulse, or at which the count started. Of the PTP exchanges: a two-step Sync
awaiting its Follow_Up (sequence, receipt), master-to-device time of the last Sync, the last delay request (sequence, sending), a peer's
answer awaiting its Follow_Up (its receipt of the request, receipt here), and the path delay last measured. -/
structure YardTime where
  count : Nat := 0
  frac : Nat := 0
  lastPps : Option Nat := none
  lockRun : Nat := 0
  unlockRun : Nat := 0
  ptpMaster : Option (Nat × Nat) := none
  ptpSync : Option (Nat × Nat) := none
  ptpSpan : Int := 0
  ptpAsked : Option (Nat × Nat) := none
  ptpPeer : Option (Nat × Nat) := none
  ptpPath : Int := 0
deriving DecidableEq, Repr

/-- A mirror pair (R591): its number, the job stall's slot, a primary range kept equal on a mirror range; `ready` once the copy has
ended, which completes `cmd`. -/
structure Mirror where
  num : Nat
  job : Nat
  tenant : Nat
  primary : Nat
  mirror : Nat
  len : Nat
  ready : Bool
  cmd : Option Cmd
deriving DecidableEq, Repr


/-- A checkpoint or restore in progress (R583 to R588): its operation slot, the checkpoint slot, STEP and SEQ, the YT count of the
freeze, the band marks, the contexts that the freeze switched out; the YT count at which the last checkpoint ended DONE, the multiple of
CP_PERIOD last acted on, and SKIP_ABSENT of a restore. -/
structure CpX where
  op : Option Nat := none
  slot : Nat := 0
  step : Nat := 0
  seq : Nat := 0
  yt : Nat := 0
  marks : List (Nat × Nat) := []
  switched : List Nat := []
  lastDone : Option Nat := none
  periodAt : Nat := 0
  skipAbsent : Bool := false
deriving DecidableEq, Repr

/-- An engine's answer to a Hub thread's request, waiting to be written to the thread's registers (R278). -/
structure Answer where
  slot : Nat
  unit : Nat
  cmd : Cmd
  status : Nat
  r0 : Nat
  r1 : Nat
  r2 : Nat
deriving DecidableEq, Repr

/-- An E-class request of a Hub thread without its answer (R278): its destination register, whether that is a pair (R274), the
command that carries it, and where its completion record goes (R293, R301). -/
structure Request where
  d : Nat
  pair : Bool
  cmd : Cmd
  recordAt : Option Nat
deriving DecidableEq, Repr

/-- What a Cell or thread waits on: a tally (R345), a YT count (R282), the tenant's inbox (R303), or an Aisle message, with the `mv.recv` that
waits (R286). -/
inductive UnitWait where
  | tally (n count deadline d : Nat)
  | at_ (count d : Nat)
  | inbox (buffer len deadline d : Nat)
  | aisle (n : Insn)
deriving DecidableEq, Repr

/-- The architectural state of one Cell or Hub thread of a context (R238): scalar registers, vector lanes by 64 × register +
lane, tile descriptors, predicates p1 to p15, PC, the return stack with its newest entry first, the scratchpad or local store, the
accumulator memory; then whether it has halted and with which code, its wait, its pending requests, and which accumulators hold
INT32 (R321). -/
structure UnitX where
  s : List (Nat × Word) := []
  v : List (Nat × BitVec 32) := []
  t : List (Nat × BitVec 128) := []
  p : Nat := 0
  pc : Nat := 0
  ret : List Nat := []
  mem : List Host.Cell := []
  acc : List Host.Cell := []
  halted : Option Nat := none
  wait : Option UnitWait := none
  reqs : List Request := []
  accInt : Nat := 0
deriving DecidableEq, Repr

/-- The states of a context (R237). -/
inductive CtxState where
  | free | loaded | armed | running | switched | halted | stopped | faulted
deriving DecidableEq, Repr

/-- What the status block records of a fault (R252). -/
structure CtxFault where
  cause : Nat := 0
  status : Nat := 0
  unit : Nat := 0
  pc : Nat := 0
  word : Nat := 0
  addr : Nat := 0
  yt : Nat := 0
  further : Nat := 0
deriving DecidableEq, Repr

/-- A context slot (R235 to R265). `saves` gives each unit's save area; `onCells` holds while it has its Cells, `ready` while its
state stands restored on them for the next slice entry (R363); `digest` is its image digest, `weighted` whether it has read weights
(R461, R462). -/
structure Context where
  gen : Nat := 1
  state : CtxState := .free
  tenant : Nat := 0
  hub : Bool := false
  partition : Nat := 0
  thread : Nat := 0
  share : Bool := false
  image : Nat := 0
  codeAt : Nat := 0
  codeBytes : Nat := 0
  entry : Nat := 0
  sharedBytes : Nat := 0
  saves : List (Nat × Nat) := []
  units : List (Nat × UnitX) := []
  launchYt : Nat := 0
  runLimit : Nat := 0
  arg : Nat := 0
  barrier : Bool := false
  waitCmd : Option Cmd := none
  fault : CtxFault := {}
  haltCode : Nat := 0
  retired : Nat := 0
  lastRun : Nat := 0
  onCells : Bool := false
  ready : Bool := false
  digest : List Byte := []
  weighted : Bool := false
deriving DecidableEq, Repr

/-- A shared window of Hub SRAM (R246): whose image it belongs to, its place in 64 KiB units, the contexts that map it, its
bytes. A window awaiting its scrub has no users. -/
structure Window where
  tenant : Nat
  image : Nat
  shared : Bool
  start : Nat
  units : Nat
  users : List Nat
  bytes : List Host.Cell
deriving DecidableEq, Repr

/-- A wait on a tally (R345, R346). -/
structure TallyWait where
  slot : Nat
  unit : Nat
  count : Nat
  deadline : Nat
deriving DecidableEq, Repr

/-- A tally (R343 to R349): SIG and TAKEN since its binding, and its queue, first in first; COUNT is SIG − TAKEN. -/
structure Tally where
  sig : Nat := 0
  taken : Nat := 0
  queue : List TallyWait := []
deriving DecidableEq, Repr

/-- An Aisle message (R286): its tenant, sender and receiver (context slot and unit), whether the sender is a Hub thread, channel,
bytes, and whether it has arrived. -/
structure AisleMsg where
  tenant : Nat
  hub : Bool
  fromSlot : Nat
  fromUnit : Nat
  toSlot : Nat
  toUnit : Nat
  channel : Nat
  bytes : List Byte
  arrived : Bool
deriving DecidableEq, Repr

/-- A round waiting for composition (R368): the Hub thread and request that issued it, where its descriptor lies, the launch count, and the
descriptor's bytes and peers as read at issue (R367). -/
structure RoundWait where
  slot : Nat
  unit : Nat
  cmd : Cmd
  desc : Nat
  launch : Nat
  body : List Byte
  peers : List Nat
deriving DecidableEq, Repr

/-- A round composed and not yet ended (R369). -/
structure Flight where
  id : Nat
  launch : Nat
  ctx : Nat
  stalls : List Nat
  capLeft : Bool
  freeOrder : Bool
  doneTally : Nat
  abandoned : Bool
deriving DecidableEq, Repr

/-- A tenant's rounds. -/
structure RoundX where
  waiting : Option RoundWait := none
  flight : Option Flight := none
deriving DecidableEq, Repr

/-- A partition's slices (R361 to R365): the table in force with its first start and where the cycle stands. `entries` holds (tenant, duration);
`freedBy` is the tenant whose context halted in the entry that runs and left the Cells idle. -/
structure PartX where
  entries : List (Nat × Nat) := []
  start : Nat := 0
  cycleAt : Nat := 0
  entry : Nat := 0
  begun : Bool := false
  freedBy : Option Nat := none
deriving DecidableEq, Repr

/-- A datagram of a flow (R421, R423, R469): its SEQ and segment, the message, the bytes of the IPv6 packet that carries it, its key
slot where it is protected, whether it stands on a port, how often it was sent and when last, and its UDP payload once it was sent. -/
structure Datagram where
  peer : Nat
  tenant : Nat
  seq : Nat
  seg : Nat
  last : Bool
  msg : Msg
  bytes : Nat
  key : Option Nat := none
  queued : Bool := false
  tries : Nat := 0
  sentAt : Option Nat := none
  wire : List Byte := []
deriving DecidableEq, Repr

/-- A flow (R423 to R426), both directions: the next SEQ, the datagrams sent since its start, the FREED received, those sent and
not acknowledged, those that wait for a credit; the SEQ values seen, the datagrams moved out of the receive buffer, the segments
of messages not yet whole, and the YT count of the last acknowledgement. -/
structure Flow where
  nextSeq : Nat := 0
  sent : Nat := 0
  freedIn : Nat := 0
  unacked : List Datagram := []
  waiting : List Datagram := []
  seen : List Nat := []
  freed : Nat := 0
  parts : List Datagram := []
  lastAck : Nat := 0
deriving DecidableEq, Repr

/-- One traffic queue (R434 to R437): its datagrams, the start and finish time of its head, the finish time of its previous head,
and its buckets in units of 1/8000 byte. -/
structure TQueue where
  items : List Datagram := []
  head : Option (Nat × Nat) := none
  lastF : Nat := 0
  committed : Nat := 0
  peak : Nat := 0
deriving DecidableEq, Repr

/-- A gate list (R438, R439): the active entries (classes open, duration) and the count it began at. -/
structure GateX where
  entries : List (Nat × Nat) := []
  start : Nat := 0
deriving DecidableEq, Repr

/-- What this device knows of another member of the Yard (R432, R433): when its last datagram arrived, whether this device marks
it not present, the members its last HELLO marks not present, and whether it is down. -/
structure MemberX where
  heard : Nat := 0
  absent : Bool := false
  marks : List Nat := []
  down : Bool := false
deriving DecidableEq, Repr

/-- The network side: flows by peer (device ID, or 65,536 × (tenant + 1) + endpoint), the traffic queues by 2,048 × port + 8 ×
tenant + class, control traffic and virtual time by port, the tenants' inboxes with the `nw.recv` waits in order of issue (tenant,
slot, unit), tenant messages not accepted with the count of their last sending, the members, the count at which NW_CTRL.EN was set
and that of the last HELLO, the gate lists, the policing buckets (in units of 1/8000 byte) by 256 × port + tenant with the count of their
last event, the rounds accepted or refused (announcer, round), the shares armed (announcer, round, launch), the refusals of this device's own
rounds (round, device), the LANE_SPARE commands by port, and the count of the last refill. -/
structure Net where
  flows : List (Nat × Flow) := []
  queues : List (Nat × TQueue) := []
  control : List (Nat × List Datagram) := []
  virtual : List (Nat × Nat) := []
  inbox : List (Nat × List Msg) := []
  recvWaits : List (Nat × Nat × Nat) := []
  unaccepted : List (Msg × Nat) := []
  members : List (Nat × MemberX) := []
  helloStart : Option Nat := none
  helloSent : Option Nat := none
  gates : List (Nat × GateX) := []
  police : List (Nat × Nat) := []
  policedAt : List (Nat × Nat) := []
  rounds : List (Nat × Nat) := []
  shares : List (Nat × Nat × Nat) := []
  refusals : List (Nat × Nat) := []
  laneCmd : List (Nat × Cmd) := []
  refillAt : Nat := 0
deriving DecidableEq, Repr

/-- A pace move of a domain (R529): the level whose voltage was written, that voltage in mV, whether the cap is still to be raised, and
whether the AVSBus write has ended. -/
structure PaceMove where
  level : Nat
  mv : Nat
  faster : Bool
  written : Bool
deriving DecidableEq, Repr

/-- The clock monitor and the pace sequencer: for each failed source that has passed the stability count, how many windows it has been
in tolerance since; the moves in progress by domain; the voltage and cap of the level in force, by domain (R523, R529, R531). -/
structure Clocks where
  good : List (Nat × Nat) := []
  moves : List (Nat × PaceMove) := []
  force : List (Nat × (Nat × Nat)) := []
deriving DecidableEq, Repr

/-- The droop samples of a domain (R548): the YT millisecond counted, how many were low in it, and the YT count at which the limit
last had cause to stand. -/
structure SagX where
  ms : Nat := 0
  low : Nat := 0
  stood : Nat := 0
deriving DecidableEq, Repr

/-- The power block (R548 to R558): telemetry samples in a row below 0.9 × PW_CAP.W, the droop samples by domain, the YT count at
which PWARN_N rose, and the pin THERM_TRIP_N. -/
structure Power where
  lowRun : Nat := 0
  sag : List (Nat × SagX) := []
  roseAt : Nat := 0
  thermTrip : Bool := false
deriving DecidableEq, Repr

/-- Bring-up (R498 to R508): the load in progress (kind, source, length), the images loaded by kind, the entries of the repair image and of
the units found failed, as kind, Hive, unit. -/
structure BringUp where
  loading : Option (Nat × Nat × Nat) := none
  images : List (Nat × List Byte) := []
  repairs : List (Nat × Nat × Nat) := []
  found : List (Nat × Nat × Nat) := []
deriving DecidableEq, Repr

/-- An import of a model image (R463): its operation slot, domain, source, length, how many bytes are written, its bands (port, band),
and whether it has ended. -/
structure ModelImport where
  op : Nat
  domain : Nat
  source : Nat
  len : Nat
  written : Nat
  bands : List (Nat × Nat)
  ended : Bool
deriving DecidableEq, Repr

/-- A secured SPDM session of a host port (R451): whether its handshake is finished, and the SHA-384 of the requester's leaf public key where the session was opened with
mutual authentication. -/
structure SpdmSession where
  id : Nat
  established : Bool
  requester : Option (List Byte)
deriving DecidableEq, Repr

/-- The security engine (R446 to R474). Keys, allow digests and allow lists stand by target: a domain below 1,024, 1,024 + job
slot, 2,048 + port for MACsec. `measured` holds the measurement values by index, `images` the digests of what bring-up loaded;
`sessions` by port; `peers` the receive SCIs of each network port; `certs` the scrub certificates by tenant, `teardowns` how many
there were; `exhausted` the slots whose keys are used up. -/
structure SecX where
  keys : List (Nat × List Byte) := []
  allowDigest : List (Nat × List Byte) := []
  allow : List (Nat × List (List Byte)) := []
  chain : List Byte := []
  measured : List (Nat × List Byte) := []
  images : List (Nat × List Byte) := []
  sessions : List (Nat × List SpdmSession) := []
  peers : List (Nat × List Nat) := []
  certs : List (Nat × List Byte) := []
  teardowns : Nat := 0
  exhausted : List Nat := []
  imports : List ModelImport := []
deriving DecidableEq, Repr

/-- A teardown in progress (R378, R473): its operation slot, the tenant, KEEP, the YT count of its start, whether its stalls are gone,
and what it released: runs of granules, how many of them, Cell save areas, KiB of Hub SRAM. -/
structure Teardown where
  op : Nat
  tenant : Nat
  keep : Bool
  start : Nat
  swept : Bool
  released : List (Nat × Nat)
  granules : Nat
  saves : Nat
  hubKiB : Nat
deriving DecidableEq, Repr

/-- A SELF_TEST operation (R575): its slot, the units still to be tested, how many were tested and how many of those failed. -/
structure SelfTest where
  op : Nat
  left : List Part
  tested : Nat
  failed : Nat
deriving DecidableEq, Repr

/-- Which physical units serve (R9 to R11, R506, R563 to R569). Cells: the global logical Cells that are ABSENT, those bound to
another physical Cell of their Comb than the one of their own number, how often each was rebound, and the physical Cells (272 ×
global Comb + physical Cell) found failed. Tallies, key-engine instances, SerDes lanes and the Groom pair likewise; `enginesLost`
names ENGINE records (kind × 256 + instance) whose unit is lost, `hostLost` host ports as a bit set. `badChannels` holds 17 × Hive +
physical channel, `lowRaised` the Combs, and 32 + Hives, whose EV_RP_SPARES_LOW was raised; `copied` holds 16 × Hive + logical
channel whose copy to the spare has ended (R130); `corrAt` and `testAt` the whole multiples of RP_WINDOW and RP_TEST_PERIOD last acted
on (R565, R571). -/
structure Units where
  absentCells : List Nat := []
  rebound : List (Nat × Nat) := []
  rebinds : List (Nat × Nat) := []
  badCells : List Nat := []
  tallyAt : List (Nat × Nat) := []
  badTallies : List Nat := []
  keyAt : List (Nat × Nat) := []
  badKeys : List Nat := []
  absentKeys : List Nat := []
  laneAt : List (Nat × Nat) := []
  badLanes : List Nat := []
  absentLanes : List Nat := []
  groom : Option Nat := some 0
  badGroom : List Nat := []
  enginesLost : List Nat := []
  hostLost : Nat := 0
  badChannels : List Nat := []
  evacuating : List (Nat × Nat) := []
  lowRaised : List Nat := []
  tallyCorr : List (Nat × Nat) := []
  copied : List Nat := []
  corrAt : Nat := 0
  testAt : Nat := 0
deriving DecidableEq, Repr

/-- The state of the block. `pending` is the queue of waiting commands, first in, first out; `freeIdx` counts the free values
drawn so far; `textCache` holds the lines of the vocabulary cache as (tenant, address ÷ 64), the most recently used first (R158); `redirects` holds the promoted ranges (R593): primary, mirror, bytes. -/
structure State where
  io : Io := {}
  yt : YardTime := {}
  t1 : Tier1 := {}
  shed : List (Nat × ShedPort) := []
  prefetch : Prefetch := {}
  stalls : List (Nat × Stall) := []
  units : Units := {}
  ops : List (Nat × OpSlot) := []
  mirrors : List Mirror := []
  redirects : List (Nat × Nat × Nat) := []
  cp : CpX := {}
  cpSlots : List (Nat × CpImage) := []
  contexts : List (Nat × Context) := []
  answers : List Answer := []
  windows : List Window := []
  tallies : List (Nat × Tally) := []
  aisle : List AisleMsg := []
  textCache : List (Nat × Nat) := []
  rounds : List (Nat × RoundX) := []
  parts : List (Nat × PartX) := []
  svChanged : List (Nat × Nat) := []
  periodEnd : Nat := 0
  emptyRaised : List Nat := []
  satPages : List Nat := []
  net : Net := {}
  sec : SecX := {}
  ck : Clocks := {}
  pw : Power := {}
  bu : BringUp := {}
  tear : List Teardown := []
  tests : List SelfTest := []
  allocStopped : Bool := false
  freeIdx : Nat := 0
  pending : List Instr := []
deriving DecidableEq, Repr

/-- Why the machine stops with a fault. -/
inductive Fault where
  /-- never raised: every command of the block ends in a next state (safe) -/
  | none
deriving DecidableEq, Repr

/-- Why the machine refuses a command. -/
inductive Refusal where
  /-- the command of this mnemonic has no meaning in the model yet; raised by the dispatch only (safe) -/
  | notModelled (mnemonic : String)
deriving DecidableEq, Repr

/-- The block right after reset: every register reads its value after power-up (R8), memory lists nothing, no slot is taken, no
command waits. -/
def State.reset : State := {}

end Sys2Proof.Machine
end

