-- ==== Sys2Proof/Machine/Ops.lean ====
section
/-! DEFINITION. The named operations over registers, events, queues and long operations that every meaning is written with. -/

namespace Sys2Proof.Machine

/-! ### Completion statuses (R611) -/

abbrev CS.ok : Nat := 0x00
abbrev CS.fewer : Nat := 0x01
abbrev CS.stopped : Nat := 0x02
abbrev CS.grammarDead : Nat := 0x03
abbrev CS.lengthLimit : Nat := 0x04
abbrev CS.budget : Nat := 0x05
abbrev CS.paused : Nat := 0x06
abbrev CS.suspended : Nat := 0x07
abbrev CS.cancelled : Nat := 0x08
abbrev CS.badCommand : Nat := 0x10
abbrev CS.badHandle : Nat := 0x11
abbrev CS.staleGeneration : Nat := 0x12
abbrev CS.notOwner : Nat := 0x13
abbrev CS.stepMismatch : Nat := 0x14
abbrev CS.integrity : Nat := 0x15
abbrev CS.uncorrectable : Nat := 0x16
abbrev CS.noResource : Nat := 0x17
abbrev CS.fault : Nat := 0x18
abbrev CS.illegalContext : Nat := 0x19
abbrev CS.timeout : Nat := 0x1A
abbrev CS.orphaned : Nat := 0x1B
abbrev CS.absentUnit : Nat := 0x1C
abbrev CS.notReady : Nat := 0x1D

/-! ### Registers -/

/-- The stored value of a register. -/
def Io.reg (io : Io) (off : Nat) : Word := sparseGet (regReset off) io.regs off

/-- A register set whole. -/
def Io.setReg (off : Nat) (v : Word) (io : Io) : Io := { io with regs := sparsePut (regReset off) off v io.regs }

/-- A field of a register, as a number. -/
def Io.get (io : Io) (f : RegField) : Nat := fieldGet (io.reg f.off) f.lo f.width

/-- A field of a register set; a value beyond the field's width loses its high bits. -/
def Io.put (f : RegField) (x : Nat) (io : Io) : Io := io.setReg f.off (fieldSet (io.reg f.off) f.lo f.width x)

/-- A counting register moved on by `n`, wrapping at its width. -/
def Io.bump (f : RegField) (n : Nat) (io : Io) : Io := io.put f (io.get f + n)

/-- Whether an output goes through a host or network port. -/
def Out.onPort : Out → Bool
  | .hostWrite .. | .msix .. | .datagram .. | .neighborAdvert .. | .echoReply .. | .ptp .. | .spdm .. => true
  | _ => false

/-- The host port that issues a memory request, and whether it is data or a record, not an interrupt. -/
def Out.request : Out → Option (Nat × Bool)
  | .hostWrite p .. => some (p, true)
  | .msix p .. => some (p, false)
  | _ => none

/-- Whether a port that IDE_REQ binds to IDE streams has none (R385). -/
def Io.noStream (io : Io) (n : Nat) : Bool := decide (io.get (Fld.GC_PORT_CFG_IDE_REQ n) = 1) && decide (io.get (Fld.GC_PORT_STATE_IDE n) ≠ 1)

/-- An output sent; after a fatal event no host or network port transmits (R414). A port that issues requests only inside an IDE stream
issues none without one: what it would write is discarded, and counted in GC_PORT_DROP (R385, R416). -/
def Io.emit (o : Out) (io : Io) : Io :=
  if io.fatal && o.onPort then io
  else match o.request with
  | some p => if !io.noStream p.1 then { io with out := o :: io.out } else if p.2 then io.bump (Fld.GC_PORT_DROP_COUNT p.1) 1 else io
  | none => { io with out := o :: io.out }

/-! ### Events (R598 to R612) -/

/-- The classes of events (R598). -/
inductive EventClass where
  | info | warn | error | fatal | nmi
deriving DecidableEq, Repr

def EventClass.code : EventClass → Nat
  | .info => 0 | .warn => 1 | .error => 2 | .fatal => 3 | .nmi => 4

/-- The bit of a ring's CLASSES field for a class (R614); FATAL has none. -/
def EventClass.ringBit : EventClass → Option Nat
  | .info => some 0 | .warn => some 1 | .error => some 2 | .nmi => some 3 | .fatal => none

def eventsInfo : List Nat := [0x0001, 0x0102, 0x0202, 0x0204, 0x0301, 0x0307, 0x0403, 0x0404, 0x0501, 0x0604, 0x0606,
  0x0609, 0x0703, 0x0705, 0x0801, 0x0803, 0x0901, 0x0902, 0x0982, 0x0984, 0x0A02, 0x0A03, 0x0A07, 0x0A82, 0x0A83,
  0x0B01, 0x0B03, 0x0B06, 0x0B09, 0x0B0A, 0x0B0B, 0x0C07, 0x0D01, 0x0D03, 0x0E01, 0x0E03, 0x0E04, 0x0F01, 0x0F03, 0x0F08]
def eventsWarn : List Nat := [0x0002, 0x0103, 0x0205, 0x0207, 0x0302, 0x0303, 0x0304, 0x0305, 0x0401, 0x0406, 0x0407,
  0x0502, 0x0503, 0x0507, 0x0601, 0x0602, 0x0603, 0x0605, 0x0608, 0x0701, 0x0702, 0x0704, 0x0804, 0x0805, 0x0806,
  0x0903, 0x0904, 0x0981, 0x0A01, 0x0A04, 0x0A05, 0x0B02, 0x0B05, 0x0B07, 0x0B08, 0x0B0C, 0x0B0D, 0x0C01, 0x0C03, 0x0C04,
  0x0C05, 0x0C06, 0x0D04, 0x0D05, 0x0D06, 0x0D07, 0x0D09, 0x0E05, 0x0E06, 0x0E07, 0x0F02, 0x0F05, 0x0F06, 0x0F07]
def eventsError : List Nat := [0x0203, 0x0206, 0x0208, 0x0306, 0x0402, 0x0405, 0x0504, 0x0505, 0x0506, 0x0607, 0x0706,
  0x0802, 0x0807, 0x0808, 0x0983, 0x0985, 0x0A06, 0x0A81, 0x0B04, 0x0C02, 0x0D02, 0x0D08, 0x0E02, 0x0F04]
def eventsFatal : List Nat := [0x0209, 0x020A, 0x0C08, 0x0D0A]
def eventsNmi : List Nat := [0x0101, 0x0201]

/-- The class of an event code (R612); none for a reserved code. -/
def eventClass (code : Nat) : Option EventClass :=
  if eventsInfo.contains code then some .info
  else if eventsWarn.contains code then some .warn
  else if eventsError.contains code then some .error
  else if eventsFatal.contains code then some .fatal
  else if eventsNmi.contains code then some .nmi
  else none

/-- What an event names (R602, R604). -/
structure Event where
  code : Nat
  tenant : Option Nat := none
  subject : Nat := 0xFFFF
  object : Nat := 0
  detail : List Nat := []
deriving DecidableEq, Repr

/-- The flag register of an event, its bit, and the register of its 8-bit occurrence counter with the counter's byte. -/
def eventFlag (code : Nat) : Option (Nat × Nat × Nat × Nat) :=
  let run (first : Nat) (n : Nat) (flags count : Nat) : Option (Nat × Nat × Nat × Nat) :=
    if first ≤ code ∧ code < first + n then some (flags, code - first, count, code - first) else none
  let stall (bit : Nat) : Option (Nat × Nat × Nat × Nat) := some (Reg.STL_FLAGS, bit, Reg.STL_FLAG_COUNT, bit)
  match code with
  | 0x0306 => some (Reg.TL_FLAGS, 0, Reg.TL_FLAG_COUNT, 0)
  | 0x0307 => some (Reg.TL_FLAGS, 1, Reg.TL_FLAG_COUNT, 1)
  | 0x0507 => some (Reg.PF_FLAGS, 0, Reg.PF_FLAG_COUNT, 0)
  | 0x0601 => stall 0
  | 0x0602 => stall 1
  | 0x0603 => stall 2
  | 0x0605 => stall 3
  | 0x0607 => stall 4
  | 0x0606 => stall 5
  | 0x0604 => stall 6
  | 0x0608 => stall 7
  | 0x0609 => some (Reg.STL_FLAGS, 8, Reg.STL_FLAG_COUNT2, 0)
  | 0x0B09 => some (Reg.NW_FLAGS, 8, Reg.NW_FLAG_COUNT2, 0)
  | 0x0D09 => some (Reg.RP_FLAGS, 8, Reg.RP_FLAG_COUNT2, 0)
  | _ =>
    (run 0x0001 2 Reg.EV_FLAGS Reg.EV_FLAG_COUNT) <|> (run 0x0101 3 Reg.CK_FLAGS Reg.CK_FLAG_COUNT)
    <|> (run 0x0201 8 Reg.PW_FLAGS Reg.PW_FLAG_COUNT) <|> (run 0x0301 5 Reg.YT_FLAGS Reg.YT_FLAG_COUNT)
    <|> (run 0x0401 7 Reg.HB_FLAGS Reg.HB_FLAG_COUNT) <|> (run 0x0501 6 Reg.SH_FLAGS Reg.SH_FLAG_COUNT)
    <|> (run 0x0701 6 Reg.KV_FLAGS Reg.KV_FLAG_COUNT) <|> (run 0x0801 4 Reg.GR_FLAGS Reg.GR_FLAG_COUNT)
    <|> (run 0x0805 4 Reg.TX_FLAGS Reg.TX_FLAG_COUNT) <|> (run 0x0901 4 Reg.SEL_FLAGS Reg.SEL_FLAG_COUNT)
    <|> (run 0x0981 5 Reg.VS_FLAGS Reg.VS_FLAG_COUNT) <|> (run 0x0A01 7 Reg.SCH_FLAGS Reg.SCH_FLAG_COUNT)
    <|> (run 0x0A81 3 Reg.SCH_CTX_FLAGS Reg.SCH_CTX_FLAG_COUNT) <|> (run 0x0B01 8 Reg.NW_FLAGS Reg.NW_FLAG_COUNT)
    <|> (run 0x0B0A 4 Reg.TS_FLAGS Reg.TS_FLAG_COUNT) <|> (run 0x0C01 8 Reg.SEC_FLAGS Reg.SEC_FLAG_COUNT)
    <|> (run 0x0D01 8 Reg.RP_FLAGS Reg.RP_FLAG_COUNT) <|> (run 0x0E01 7 Reg.CP_FLAGS Reg.CP_FLAG_COUNT)
    <|> (run 0x0F01 8 Reg.GC_HOST_FLAGS Reg.GC_HOST_FLAG_COUNT)

/-- A flag bit set and its occurrence counter moved on, wrapping at 256 (R609). -/
def Io.setFlag (flags bit count byte : Nat) (io : Io) : Io :=
  (io.put ⟨flags, bit, 1⟩ 1).bump ⟨count, 8 * byte, 8⟩ 1

/-- Ring `r`: management ring of port `r` for `r < 4`, else the ring of tenant `r - 4`. The offset of its register block. -/
def ringBase (r : Nat) : Nat := if r < 4 then Reg.EV_MR_RING_BASE r else Reg.HQ_EV_RING_BASE (r - 4)

/-- Fields of a ring's registers (R614). -/
def ringAddr (r : Nat) : RegField := ⟨ringBase r, 0, 64⟩
def ringLog2 (r : Nat) : RegField := ⟨ringBase r + 8, 0, 5⟩
def ringClasses (r : Nat) : RegField := ⟨ringBase r + 8, 8, 4⟩
def ringVector (r : Nat) : RegField := ⟨ringBase r + 8, 16, 11⟩
def ringCoalCount (r : Nat) : RegField := ⟨ringBase r + 8, 32, 16⟩
def ringCoalUs (r : Nat) : RegField := ⟨ringBase r + 8, 48, 16⟩
def ringEn (r : Nat) : RegField := ⟨ringBase r + 16, 0, 1⟩
def ringIrqEn (r : Nat) : RegField := ⟨ringBase r + 16, 1, 1⟩
def ringPhase (r : Nat) : RegField := ⟨ringBase r + 16, 2, 1⟩
def ringPort (r : Nat) : RegField := ⟨ringBase r + 16, 3, 2⟩
def ringHead (r : Nat) : RegField := ⟨ringBase r + 24, 0, 16⟩
def ringTail (r : Nat) : RegField := ⟨ringBase r + 32, 0, 16⟩
def ringLost (r : Nat) : RegField := ⟨ringBase r + 40, 0, 64⟩

def Io.ring (io : Io) (r : Nat) : RingX := sparseGet {} io.rings r
def Io.setRing (r : Nat) (x : RingX) (io : Io) : Io := { io with rings := sparsePut {} r x io.rings }

/-- Whether an event code is masked (R599): FATAL, NMI and reserved codes never are. -/
def Io.masked (io : Io) (code : Nat) : Bool := bitOf (io.reg (Reg.EV_MASK (code / 64))) (code % 64)

/-- Whether tenant `t` is confidential (R453). -/
def Io.confidential (io : Io) (t : Nat) : Bool := io.get (Fld.SEC_CONF_CONFIDENTIAL t) = 1

/-- The 64 bytes of a ring entry (R604). `hidden` blanks OBJECT and DETAIL (R602). -/
def ringEntry (e : Event) (seq now : Nat) (cls : EventClass) (phase : Nat) (gap hidden : Bool) : List Byte :=
  let flags := phase + (if gap then 2 else 0) + (if hidden then 4 else 0) + (if e.tenant.isSome then 8 else 0)
  let word (i : Nat) : Nat := if hidden then 0 else e.detail.getD i 0
  bytesOf 4 seq ++ bytesOf 2 e.code ++ bytesOf 1 cls.code ++ bytesOf 1 flags ++ bytesOf 8 now ++
    bytesOf 1 (e.tenant.getD 0) ++ bytesOf 1 0 ++ bytesOf 2 e.subject ++ bytesOf 4 0 ++
    bytesOf 8 (if hidden then 0 else e.object) ++ bytesOf 8 (word 0) ++ bytesOf 8 (word 1) ++ bytesOf 8 (word 2) ++
    bytesOf 8 (word 3)

/-- The MSI-X message of a ring or queue under the coalescing of R405: `atOnce` skips the coalescing (R607). Answers whether
the message is sent, the count of unsignalled records and the count at which the first of them was written. -/
def coalesce (irqEn atOnce : Bool) (coalCount unsignalled firstAt now : Nat) : Bool × Nat × Nat :=
  let n := unsignalled + 1
  let first := if unsignalled = 0 then now else firstAt
  if irqEn && (atOnce || decide (coalCount ≤ n)) then (true, 0, 0) else (false, n, first)

/-- An entry written to ring `r` (R605), or dropped and counted when the ring is full. -/
def Io.ringWrite (e : Event) (cls : EventClass) (seq now r : Nat) (hidden : Bool) (io : Io) : Io :=
  let size := 2 ^ io.get (ringLog2 r)
  let tail := io.get (ringTail r)
  let x := io.ring r
  if (tail + 1) % size = io.get (ringHead r) then
    (io.bump (ringLost r) 1).setRing r { x with gap := true }
  else
    let phase := io.get (ringPhase r)
    let io := io.emit (.hostWrite (io.get (ringPort r)) (io.get (ringAddr r) + 64 * tail)
      (ringEntry e seq now cls phase x.gap hidden))
    let c := coalesce (io.get (ringIrqEn r) == 1) (cls == .error || cls == .nmi) (io.get (ringCoalCount r)) x.unsignalled
      x.firstUnsignalled now
    let io := if c.1 then io.emit (.msix (io.get (ringPort r)) (io.get (ringVector r))) else io
    let io := io.setRing r { gap := false, unsignalled := c.2.1, firstUnsignalled := c.2.2 }
    let next := (tail + 1) % size
    let io := io.put (ringTail r) next
    if next = 0 then io.put (ringPhase r) (1 - phase) else io

/-- Whether ring `r` takes entries of a class (R602). -/
def Io.ringTakes (io : Io) (cls : EventClass) (r : Nat) : Bool :=
  match cls.ringBit with
  | none => false
  | some b => io.get (ringEn r) = 1 && (io.get (ringClasses r)).testBit b

/-- The entries of an event on the four management rings (R602). -/
def Io.toManagement (e : Event) (cls : EventClass) (seq now : Nat) (io : Io) : Io :=
  let hidden := match e.tenant with | some t => io.confidential t | none => false
  (List.range 4).foldl (fun io r => if io.ringTakes cls r then io.ringWrite e cls seq now r hidden else io) io

/-- An event counted and flagged (R606, R609); answers its sequence number. -/
def Io.note (code : Nat) (io : Io) : Io :=
  let io := io.bump Fld.EV_TOTAL_COUNT 1
  match eventFlag code with
  | some (flags, bit, count, byte) => io.setFlag flags bit count byte
  | none => io

/-- EV_RING_LOST for the ring of tenant `t` (R608): to the management rings only. -/
def Io.ringLostEvent (now t : Nat) (io : Io) : Io :=
  let seq := io.get Fld.EV_TOTAL_COUNT % 2 ^ 32
  let io := io.note 0x0002
  if io.masked 0x0002 then io
  else io.toManagement { code := 0x0002, tenant := some t, detail := [io.get (ringLost (t + 4))] } .warn seq now

/-- The entry of an event on the ring of tenant `t`; the first entry dropped after a written one raises EV_RING_LOST. -/
def Io.toTenant (e : Event) (cls : EventClass) (seq now t : Nat) (io : Io) : Io :=
  if io.ringTakes cls (t + 4) then
    let before := (io.ring (t + 4)).gap
    let io' := io.ringWrite e cls seq now (t + 4) false
    if !before && (io'.ring (t + 4)).gap then io'.ringLostEvent now t else io'
  else io

/-- FATAL_N asserted and the first fatal event latched (R414, R601). -/
def Io.latchFatal (code now : Nat) (io : Io) : Io :=
  let io := if io.get Fld.EV_FATAL_VALID = 1 then io
    else ((io.put Fld.EV_FATAL_CODE code).put Fld.EV_FATAL_VALID 1).put Fld.EV_FATAL_YT_NS now
  { io with fatal := true }

/-- An event raised (R598 to R609): counted, flagged, and, unless masked, written to the rings it goes to. After a fatal
event nothing is written to a ring (R414). -/
def Io.raise (now : Nat) (e : Event) (io : Io) : Io :=
  match eventClass e.code with
  | none => io
  | some cls =>
    let seq := io.get Fld.EV_TOTAL_COUNT % 2 ^ 32
    let silent := io.fatal
    let io := io.note e.code
    if cls = .fatal then io.latchFatal e.code now
    else if silent || io.masked e.code then io
    else
      let io := match e.tenant with
        | some t => io.toTenant e cls seq now t
        | none => if cls = EventClass.nmi then (List.range 256).foldl (fun io t => io.toTenant e cls seq now t) io else io
      io.toManagement e cls seq now

/-! ### Queues (R388 to R405) -/

/-- The offset of a queue's register block. -/
def queueBase (q : Nat) : Nat := if q < 4096 then Reg.HQ_SQ_BASE (q / 16) (q % 16) else Reg.GC_MQ_SQ_BASE (q - 4096)

def qSqBase (q : Nat) : RegField := ⟨queueBase q, 0, 64⟩
def qCqBase (q : Nat) : RegField := ⟨queueBase q + 0x08, 0, 64⟩
def qSqLog2 (q : Nat) : RegField := ⟨queueBase q + 0x10, 0, 5⟩
def qCqLog2 (q : Nat) : RegField := ⟨queueBase q + 0x10, 8, 5⟩
def qVector (q : Nat) : RegField := ⟨queueBase q + 0x10, 16, 11⟩
def qCoalCount (q : Nat) : RegField := ⟨queueBase q + 0x10, 32, 16⟩
def qCoalUs (q : Nat) : RegField := ⟨queueBase q + 0x10, 48, 16⟩
def qEn (q : Nat) : RegField := ⟨queueBase q + 0x18, 0, 1⟩
def qIrqEn (q : Nat) : RegField := ⟨queueBase q + 0x18, 1, 1⟩
def qPort (q : Nat) : RegField := ⟨queueBase q + 0x18, 2, 2⟩
def qIdle (q : Nat) : RegField := ⟨queueBase q + 0x18, 4, 1⟩
def qError (q : Nat) : RegField := ⟨queueBase q + 0x18, 5, 1⟩
def qPhase (q : Nat) : RegField := ⟨queueBase q + 0x18, 6, 1⟩
def qSqHead (q : Nat) : RegField := ⟨queueBase q + 0x20, 0, 16⟩
def qSqTail (q : Nat) : RegField := ⟨queueBase q + 0x20, 16, 16⟩
def qCqHead (q : Nat) : RegField := ⟨queueBase q + 0x20, 32, 16⟩
def qCqTail (q : Nat) : RegField := ⟨queueBase q + 0x20, 48, 16⟩
def qDone (q : Nat) : RegField := ⟨queueBase q + 0x48, 0, 64⟩

/-- The tenant of a tenant queue; a management queue has none (R389). -/
def queueTenant (q : Nat) : Option Nat := if q < 4096 then some (q / 16) else none

/-- The port a queue belongs to (R386): fixed for a management queue. -/
def Io.queuePort (io : Io) (q : Nat) : Nat := if q < 4096 then io.get (qPort q) else q - 4096

def Io.queue (io : Io) (q : Nat) : QueueX := sparseGet {} io.queues q
def Io.setQueue (q : Nat) (x : QueueX) (io : Io) : Io := { io with queues := sparsePut {} q x io.queues }

/-- A command without what the outside answered: what names a fetched command. -/
def coreOf (c : Cmd) : Cmd := { c with data := [], busFail := none }

/-- A completion record (R401), as a number of 256 bits. -/
def recordOf (c : Cmd) (status phase endBit r0 r1 r2 : Nat) : Nat :=
  c.seq.toNat + status % 256 * 2 ^ 32 + (phase + 2 * endBit) * 2 ^ 40 + c.tag.toNat * 2 ^ 48 +
    r0 % 2 ^ 64 * 2 ^ 64 + r1 % 2 ^ 64 * 2 ^ 128 + r2 % 2 ^ 64 * 2 ^ 192

/-- A record written at CQ_TAIL (R402), with the MSI-X of R405. -/
def Io.writeRecord (q : Nat) (c : Cmd) (status endBit r0 r1 r2 now : Nat) (io : Io) : Io :=
  let tail := io.get (qCqTail q)
  let phase := io.get (qPhase q)
  let port := io.queuePort q
  let rec_ := recordOf c status phase endBit r0 r1 r2
  let io := io.emit (.hostWrite port (io.get (qCqBase q) + 32 * tail) (bytesOf 32 rec_))
  let x := io.queue q
  let k := coalesce (io.get (qIrqEn q) == 1) false (io.get (qCoalCount q)) x.unsignalled x.firstUnsignalled now
  let io := if k.1 then io.emit (.msix port (io.get (qVector q))) else io
  let io := io.setQueue q { x with
    reserved := x.reserved - 1, records := x.records.filter (fun r => r.1 ≠ tail) ++ [(tail, rec_)],
    lastSeq := c.seq.toNat, unsignalled := k.2.1, firstUnsignalled := k.2.2 }
  let io := io.bump (qDone q) 1
  let next := (tail + 1) % 2 ^ io.get (qCqLog2 q)
  let io := io.put (qCqTail q) next
  if next = 0 then io.put (qPhase q) (1 - phase) else io

/-- Whether host port `n`'s link is up (R416). -/
def Io.portUp (io : Io) (n : Nat) : Bool := io.get (Fld.GC_PORT_STATE_LINK n) = 2

/-- A command's first completion record (R402): written while its queue can take it, else discarded and counted (R412).
A refused long-operation command gives back its second reserved entry, as does one completed with `release` (R393). -/
def Io.completeQueue (q : Nat) (c : Cmd) (release : Bool) (status r0 r1 r2 now : Nat) (io : Io) : Io :=
  let x := io.queue q
  let fetched := x.inProgress.contains (coreOf c)
  if io.fatal then io
  else match io.detached.find? (fun d => d.2 = coreOf c) with
  | some d => { io.bump (Fld.GC_PORT_DROP_COUNT d.1) 1 with detached := io.detached.erase d }
  | none =>
    if fetched || io.get (qEn q) = 1 then
      let io := io.setQueue q { x with
        inProgress := x.inProgress.erase (coreOf c), longs := x.longs.erase (coreOf c),
        reserved := if fetched && (release || (x.longs.contains (coreOf c) && decide (status ≠ CS.ok))) then x.reserved - 1 else x.reserved }
      io.writeRecord q c status 0 r0 r1 r2 now
    else io.bump (Fld.GC_PORT_DROP_COUNT (io.queuePort q)) 1

/-! ### The same over the whole state -/

/-- The Yard Time count (R331). -/
def State.now (s : State) : Nat := s.yt.count

def State.reg (s : State) (off : Nat) : Word := s.io.reg off
def State.get (s : State) (f : RegField) : Nat := s.io.get f
def State.put (s : State) (f : RegField) (x : Nat) : State := { s with io := s.io.put f x }
def State.setReg (s : State) (off : Nat) (v : Word) : State := { s with io := s.io.setReg off v }
def State.bump (s : State) (f : RegField) (n : Nat) : State := { s with io := s.io.bump f n }
def State.emit (s : State) (o : Out) : State := { s with io := s.io.emit o }
def State.raise (s : State) (e : Event) : State := { s with io := s.io.raise s.now e }

/-- A one-bit field read as a truth value. -/
def State.on (s : State) (f : RegField) : Bool := s.get f = 1

/-- A free value drawn: the value, and the state with the counter moved on. -/
def State.drawFree (s : State) : Word × State := (Config.freeValue s.freeIdx, { s with freeIdx := s.freeIdx + 1 })

/-- `n` words of free bytes. -/
def State.drawBytes (s : State) : (n : Nat) → List Byte × State
  | 0 => ([], s)
  | n + 1 =>
    let r := s.drawFree
    let q := r.2.drawBytes n
    (bytesOf 8 r.1.toNat ++ q.1, q.2)

/-- Operands of a command by byte offset 32 to 63 (R395). -/
def opByte (c : Cmd) (at_ : Nat) : Nat := (c.ops.extractLsb' (8 * (at_ - 32)) 8).toNat
def opU16 (c : Cmd) (at_ : Nat) : Nat := (c.ops.extractLsb' (8 * (at_ - 32)) 16).toNat
def opU32 (c : Cmd) (at_ : Nat) : Nat := (c.ops.extractLsb' (8 * (at_ - 32)) 32).toNat
def opU64 (c : Cmd) (at_ : Nat) : Nat := (c.ops.extractLsb' (8 * (at_ - 32)) 64).toNat
def opU128 (c : Cmd) (at_ : Nat) : Nat := (c.ops.extractLsb' (8 * (at_ - 32)) 128).toNat

/-- Whether bytes `lo` to `hi` of a command's operands are all 0 (reserved bytes, R44). -/
def opZero (c : Cmd) (lo hi : Nat) : Bool := (List.range (hi + 1 - lo)).all (fun i => opByte c (lo + i) = 0)
/-- The answer of a step that goes on: the next state. -/
abbrev next (s : State) : Host.Outcome State Fault Refusal := .next s

/-! ### Commands and their completion (R396, R401 to R410) -/

/-- A context slot. -/
def State.context (s : State) (i : Nat) : Context := sparseGet {} s.contexts i

/-- The tenant in whose name a command runs: that of its queue, or of the Hub context that issued it; a management queue has
none (R389). -/
def State.issuerTenant (s : State) (i : Issuer) : Option Nat :=
  match i with
  | .queue q => queueTenant q
  | .hub slot _ => some (s.context slot).tenant
  | .device => none

/-- A command completed with a status and its result words. A queue's command gets its record; a Hub thread's gets an answer
that E_REQUEST_COMPLETE writes to its registers (R278). `release` gives back a refused long operation's second entry. -/
def State.completeWith (s : State) (c : Cmd) (release : Bool) (status r0 r1 r2 : Nat) : State :=
  match c.issuer with
  | .queue q => { s with io := s.io.completeQueue q c release status r0 r1 r2 s.now }
  | .hub slot unit => { s with answers := s.answers ++ [⟨slot, unit, coreOf c, status, r0, r1, r2⟩] }
  | .device => s

def State.complete (s : State) (c : Cmd) (status : Nat) (r0 : Nat := 0) (r1 : Nat := 0) (r2 : Nat := 0) : State :=
  s.completeWith c false status r0 r1 r2

/-- A long-operation command refused (R393). -/
def State.refuse (s : State) (c : Cmd) (status : Nat) (r0 : Nat := 0) (r1 : Nat := 0) : State :=
  s.completeWith c true status r0 r1 0

/-- On which queues an opcode is allowed (R389, R398). -/
inductive QueueKind where
  | tenant | mgmt | both
deriving DecidableEq, Repr

/-- Whether a command of tenant `t` on port `n` meets R454: a confidential tenant's port must be in its PORTS. -/
def State.portAllowed (s : State) (t n : Nat) : Bool :=
  !s.io.confidential t || (s.get (Fld.SEC_CONF_PORTS t)).testBit n

/-- The first of the checks of R396 and R454 that a command fails. `enFree` marks the commands that R355 allows while
TN_CTRL.EN is 0. -/
def State.gate (s : State) (c : Cmd) (kind : QueueKind) (enFree : Bool) : Option Nat :=
  match c.issuer with
  | .queue q =>
    match queueTenant q with
    | some t =>
      if !s.on (Fld.TN_CTRL_EN t) && !enFree then some CS.notReady
      else if !s.portAllowed t (s.io.queuePort q) then some CS.notOwner
      else if kind = .mgmt then some CS.badCommand
      else if c.flags.toNat / 2 ≠ 0 then some CS.badCommand
      else none
    | none =>
      if kind = .tenant then some CS.badCommand
      else if c.flags.toNat / 2 ≠ 0 then some CS.badCommand
      else none
  | _ => none

/-- Whether a command of a queue still waits: a FENCE for every earlier command of its queue, and any command, since commands of
one queue start in submission order, for a FENCE that waits before it (R392). -/
def State.fenceWaits (s : State) (c : Cmd) : Bool :=
  match c.issuer with
  | .queue q =>
      (match (s.io.queue q).inProgress with
       | [] => false
       | first :: rest => decide (first ≠ coreOf c) && (c.flags.toNat.testBit 0 ||
           rest.contains (coreOf c) && (rest.takeWhile (· ≠ coreOf c)).any (·.flags.toNat.testBit 0)))
  | _ => false

/-- A command that failed a check of R396 or R454 completed, with EV_SEC_CONF_REFUSED for the latter. -/
def State.turnAway (s : State) (c : Cmd) (long : Bool) (st : Nat) : State :=
  let port := match c.issuer with | .queue q => s.io.queuePort q | _ => 0xFFFF
  let s := if st = CS.notOwner then s.raise { code := 0x0C06, tenant := s.issuerTenant c.issuer, subject := port } else s
  s.completeWith c long st 0 0 0

/-- A command run: nothing while its FENCE waits; else refused at the first failing check of R396, else its own effect. -/
def State.runCmd (s : State) (c : Cmd) (kind : QueueKind) (enFree : Bool) (body : State → State) : State :=
  if s.fenceWaits c then s
  else match s.gate c kind enFree with
  | some st => s.turnAway c false st
  | none => body s

/-- Whether the units outside the always-on block run: from ROM to READY (R495, R514). -/
def State.unitsRun (s : State) : Bool := decide (1 ≤ s.get Fld.BU_STATE_STATE) && decide (s.get Fld.BU_STATE_STATE ≤ 7)

/-- Whether a checkpoint is in a phase in which what R585 names waits. -/
def State.freezing (s : State) : Bool := decide (1 ≤ s.get Fld.CP_STATUS_PHASE) && decide (s.get Fld.CP_STATUS_PHASE ≤ 4)

/-- The same for a command that waits in its queue while a checkpoint is taken (R585); a request of a Hub thread goes on. -/
def State.runHeld (s : State) (c : Cmd) (kind : QueueKind) (enFree : Bool) (body : State → State) : State :=
  match c.issuer with
  | .queue _ => if s.freezing then s else s.runCmd c kind enFree body
  | _ => s.runCmd c kind enFree body

/-! ### Long operations (R406 to R410) -/

def State.op (s : State) (i : Nat) : OpSlot := sparseGet {} s.ops i
def State.setOp (s : State) (i : Nat) (o : OpSlot) : State := { s with ops := sparsePut {} i o s.ops }

def OpState.code : OpState → Nat
  | .queued => 0 | .running => 1 | .suspending => 2 | .suspended => 3 | .resuming => 4 | .cancelling => 5
  | .done => 6 | .cancelled => 7 | .failed => 8

def OpState.ended : OpState → Bool
  | .done | .cancelled | .failed => true
  | _ => false

/-- The handle of the operation in slot `i` (R406). -/
def State.opHandle (s : State) (i : Nat) : Nat :=
  i + (s.op i).gen * 2 ^ 12 + (s.op i).owner * 2 ^ 44

/-- The bits of an operation handle from 44 on (R406): the tenant of the issuer, and MGMT where a management queue, or no command, starts it. -/
def State.opOwner (s : State) : Option Cmd → Nat
  | none => 256
  | some c => match c.issuer with
    | .queue q => if 4096 ≤ q then 256 else q / 16
    | i => (s.issuerTenant i).getD 0

/-- An operation's state changed, with the YT count of the change (OP_QUERY word 2). -/
def State.moveOp (s : State) (i : Nat) (st : OpState) : State :=
  s.setOp i { s.op i with st := st, changedYt := s.now, started := (s.op i).started || decide (st = .running) }

/-- A long operation started in the lowest FREE slot, QUEUED; none when all 4,096 are taken (R406). One that no command starts has
MGMT 1 and no queue (R583). -/
def State.newOpFor (s : State) (c : Option Cmd) (opcode : Nat) (args : List Nat) : Option (Nat × State) :=
  match firstBelow (fun i => !(s.op i).live) 4096 with
  | none => none
  | some i => some (i, s.setOp i { (s.op i) with
      live := true, st := .queued, opcode := opcode, cmd := c, args := args,
      session := match c.map Cmd.issuer with | some (.queue q) => (s.io.queue q).session | _ => 0, owner := s.opOwner c, progress := 0, phase := 0,
      started := false, changedYt := s.now, endYt := 0, suspendCmd := none, cancelCmd := none })

def State.newOp (s : State) (c : Cmd) (opcode : Nat) (args : List Nat) : Option (Nat × State) := s.newOpFor (some c) opcode args

/-- The end record of an operation (R408): on the queue that started it, or discarded and counted. -/
def Io.endRecord (q session : Nat) (c : Cmd) (status r0 r1 r2 now : Nat) (io : Io) : Io :=
  if io.fatal then io
  else if io.get (qEn q) = 1 && (io.queue q).session = session && io.portUp (io.queuePort q) then io.writeRecord q c status 1 r0 r1 r2 now
  else (io.bump (Fld.GC_PORT_DROP_COUNT (io.queuePort q)) 1).raise now
    { code := 0x0F08, tenant := queueTenant q, subject := io.queuePort q, detail := [q, c.tag.toNat] }

/-- An operation ends (R408, R409): its end record is written, and an OP_ command that waited for another transition
completes with CS_NOT_READY and the state reached. -/
def State.endOp (s : State) (i : Nat) (st : OpState) (status : Nat) (r0 : Nat := 0) (r1 : Nat := 0) (r2 : Nat := 0) : State :=
  let o := s.op i
  let s := s.setOp i { o with st := st, changedYt := s.now, endYt := s.now, suspendCmd := none, cancelCmd := none }
  let s := match o.cmd with
    | some c => (match c.issuer with
      | .queue q => { s with io := s.io.endRecord q o.session c status r0 r1 r2 s.now }
      | _ => s)
    | none => s
  let s := match o.suspendCmd with
    | some c => s.complete c CS.notReady st.code
    | none => s
  match o.cancelCmd with
  | some c => if st = .cancelled then s.complete c CS.cancelled else s.complete c CS.notReady st.code
  | none => s

/-- A long-operation command accepted: started, its handle answered, and set RUNNING unless `wait` (R406, R407). -/
def State.beginOp (s : State) (c : Cmd) (opcode : Nat) (args : List Nat) (wait : Bool) (body : Nat → State → State) : State :=
  match s.newOp c opcode args with
  | none => s.refuse c CS.noResource
  | some (i, s) =>
    let s := if wait then s else s.moveOp i .running
    let s := s.complete c CS.ok (s.opHandle i)
    body i s

/-- Check of an operation handle (R406): its slot, or the status of the first failing check. -/
def State.checkOpHandle (s : State) (c : Cmd) : Except Nat Nat :=
  let h := c.handle.toNat
  let slot := h % 4096
  let gen := h / 2 ^ 12 % 2 ^ 32
  let nameable := match c.issuer with
    | .queue q => if 4096 ≤ q then true else decide (h / 2 ^ 44 % 256 = q / 16 ∧ h / 2 ^ 52 % 2 = 0)
    | i => decide (some (h / 2 ^ 44 % 256) = s.issuerTenant i ∧ h / 2 ^ 52 % 2 = 0)
  if h / 2 ^ 53 ≠ 0 || gen = 0 || !nameable then .error CS.badHandle
  else if !(s.op slot).live || (s.op slot).gen ≠ gen || s.opHandle slot ≠ h then .error CS.staleGeneration
  else .ok slot

/-- A slot freed (R410): its generation moves on, never to 0 (R406). -/
def State.freeOp (s : State) (i : Nat) : State :=
  s.setOp i { gen := (if (s.op i).gen + 1 = 2 ^ 32 then 1 else (s.op i).gen + 1) }

end Sys2Proof.Machine
end

