-- ==== Sys2Proof/Machine/RegOps.lean ====
section
/-! DEFINITION. Register writes from a host port: which port reaches which register (R384, R494), which half a write covers (R5),
and what each access code does (R6, R7). -/

namespace Sys2Proof.Machine

/-- The bits that a write covers (R5). -/
def writeMask (w : RegWrite) : Word :=
  match w.half with
  | none => BitVec.allOnes 64
  | some false => 0xFFFFFFFF
  | some true => 0xFFFFFFFF00000000

/-- The written value, each bit at its place; 0 outside the half a 32-bit write covers. -/
def writeBits (w : RegWrite) : Word :=
  match w.half with
  | none => w.value
  | some false => w.value &&& 0xFFFFFFFF
  | some true => w.value <<< 32

/-- Whether port `n` has the management right: MGMT, or, until GC_PORT_CTRL.COMMIT is set, being the bring-up port (R384,
R494). -/
def State.portMgmt (s : State) (n : Nat) : Bool :=
  if s.on Fld.GC_PORT_CTRL_COMMIT then s.on (Fld.GC_PORT_CFG_MGMT n)
  else s.on (Fld.GC_PORT_CFG_MGMT n) || decide (n = Config.strapPort.val)

/-- Whether tenant `t` is bound to port `n` (R386). -/
def State.bound (s : State) (n t : Nat) : Bool := (s.get (Fld.GC_PORT_BIND_TENANTS n (t / 64))).testBit (t % 64)

/-- Whether port `n` reaches an offset of BAR0 (R384). -/
def State.reaches (s : State) (n off : Nat) : Bool :=
  s.portMgmt n || decide (off < 0x400000) ||
    (decide (0x3000000 ≤ off) && decide (off < 0x4000000) && s.bound n ((off - 0x3000000) / 0x10000))

/-- An access or doorbell discarded and counted (R384, R391). -/
def State.deny (s : State) (n : Nat) : State := s.bump (Fld.GC_PORT_DENIED_COUNT n) 1

/-- Whether the bits that an LCK code covers are still open to writes. -/
def State.lockOpen (s : State) (r : RegRow) : Bool :=
  match r.commit with
  | some (off, bit) => !(s.reg off).toNat.testBit bit
  | none => true

/-- The value a register takes from a write under its access codes (R6): RW and open LCK bits take the written bit, W1C bits
clear, W1S bits set, all others stay. A 32-bit write clears no W1C bit (R5). -/
def State.codedWrite (s : State) (r : RegRow) (old : Word) (w : RegWrite) : Word :=
  let bits := writeBits w
  let set := (BitVec.ofNat 64 r.rw ||| (if s.lockOpen r then BitVec.ofNat 64 r.lck else 0)) &&& writeMask w
  let v := blend old bits set
  let v := if w.half = none then v &&& ~~~ (bits &&& BitVec.ofNat 64 r.w1c) else v
  v ||| (bits &&& BitVec.ofNat 64 r.w1s)

/-- Whether a 32-bit write to a W1C register, which is discarded whole (R5, R610). -/
def halfOfW1c (r : RegRow) (w : RegWrite) : Bool := decide (r.w1c ≠ 0) && w.half.isSome

/-- A write stored under the access codes alone. -/
def State.store (s : State) (w : RegWrite) (off : Nat) : State :=
  match regRow? off with
  | none => s
  | some r => if halfOfW1c r w then s else s.setReg off (s.codedWrite r (s.reg off) w)

/-- The value that `store` would leave in a register. -/
def State.stored (s : State) (w : RegWrite) (off : Nat) : Word :=
  match regRow? off with
  | none => 0
  | some r => if halfOfW1c r w then s.reg off else s.codedWrite r (s.reg off) w

/-- Whether port `n` answers memory requests with Unsupported Request: IDE_REQ is 1 and no IDE stream is active (R385). After a fatal event no
request reaches a port, whose link is idle (R414). -/
def State.ideBlocked (s : State) (n : Nat) : Bool := s.io.fatal || s.io.noStream n

/-- A write that its port may make; one it may not is discarded and counted (R384). In FAILED
only the BU_ registers and the Survey are reached (R514). -/
def State.fromPort (s : State) (w : RegWrite) (off : Nat) (f : State → State) : State :=
  if s.ideBlocked w.port then s
  else if s.get Fld.BU_STATE_STATE = 8 && !(decide (off < 0x400000) || (decide (0x440000 ≤ off) && decide (off < 0x450000))) then s
  else if s.reaches w.port off then f s
  else s.deny w.port

/-- A field of the value a write would store. -/
def State.wouldGet (s : State) (w : RegWrite) (f : RegField) : Nat := fieldGet (s.stored w f.off) f.lo f.width

/-- A write stored and then one field of the register put to a value. -/
def State.storePut (s : State) (w : RegWrite) (f : RegField) (x : Nat) : State := (s.store w f.off).put f x

/-- A write of an EN field while BU_STATE is not READY stores 0 (R497). -/
def State.enGate (s : State) (en : RegField) : State := if s.get Fld.BU_STATE_STATE = 7 then s else s.put en 0

end Sys2Proof.Machine
end

