-- ==== Sys2Proof/Machine/HostOps.lean ====
section
/-! DEFINITION. Queues, ports and detach: what the host interface's meanings share (R381 to R414). -/

namespace Sys2Proof.Machine

/-- The queue in whose register block an offset lies. -/
def queueOfOff (off : Nat) : Option Nat :=
  if 0x3000000 ≤ off ∧ off < 0x4000000 then
    let r := (off - 0x3000000) % 0x10000
    if r < 0x4000 ∧ r % 0x400 < 0x50 then some ((off - 0x3000000) / 0x10000 * 16 + r / 0x400) else none
  else if 0x40B000 ≤ off ∧ off < 0x40B400 ∧ off % 0x100 < 0x50 then some (4096 + (off - 0x40B000) / 0x100)
  else none

/-- The queues of which some register does not hold its value after power-up, or that hold commands, in rising order. -/
def Io.knownQueues (io : Io) : List Nat :=
  ((io.regs.filterMap (fun e => queueOfOff e.1)) ++ io.queues.map (·.1)).foldl (fun l q =>
    if l.contains q then l else l.filter (· < q) ++ [q] ++ l.filter (q < ·)) []

/-- The enabled queues of a port, in rising order. -/
def Io.enabledQueues (io : Io) (n : Nat) : List Nat :=
  io.knownQueues.filter (fun q => io.get (qEn q) = 1 && io.queuePort q = n)

/-- A queue that stops as though its EN had been cleared (R387, R390). -/
def Io.stopQueue (q : Nat) (io : Io) : Io :=
  let io := io.put (qEn q) 0
  if (io.queue q).inProgress.isEmpty then io.put (qIdle q) 1 else io

/-- A ring that stops as though its EN had been cleared (R603). -/
def Io.stopRing (r : Nat) (io : Io) : Io := io.put (ringEn r) 0

/-- The rings that are enabled on a port: management ring n and tenant rings. -/
def Io.portRings (io : Io) (n : Nat) : List Nat :=
  (io.regs.filterMap (fun e =>
    let r : Option Nat :=
      if 0x3008010 ≤ e.1 ∧ e.1 < 0x4000000 ∧ e.1 % 0x10000 = 0x8010 then some ((e.1 - 0x3000000) / 0x10000 + 4)
      else if 0x801010 ≤ e.1 ∧ e.1 < 0x801400 ∧ e.1 % 0x100 = 0x10 then some ((e.1 - 0x801000) / 0x100) else none
    r.filter (fun r => io.get (ringEn r) = 1 && io.get (ringPort r) = n)))

/-- The commands in progress of a queue detached from its port (R412 step 2). -/
def Io.detachQueue (n q : Nat) (io : Io) : Io :=
  let x := io.queue q
  { io with detached := io.detached ++ x.inProgress.map (fun c => (n, c)) }.setQueue q { x with inProgress := [], longs := [], reserved := 0 }

/-- A queue's registers back at their values after power-up (R412 step 4). -/
def Io.resetQueue (q : Nat) (io : Io) : Io :=
  let io := { io with regs := io.regs.filter (fun e => queueOfOff e.1 ≠ some q) }
  io.setQueue q { session := (io.queue q).session }

/-- Steps 1 and 2 of R412: every queue of the port stops, and its commands in progress are detached; the port's rings stop. -/
def Io.detachCommands (n : Nat) (io : Io) : Io :=
  let qs := io.knownQueues.filter (fun q => io.queuePort q = n)
  let io := qs.foldl (fun io q => (io.stopQueue q).detachQueue n q) io
  (io.portRings n).foldl (fun io r => io.stopRing r) io

/-- Steps 1 to 4 of R412, but for the binding: the queues are reset, IDE keys discarded, and the TDI left (R413). -/
def Io.detachPort (n : Nat) (io : Io) : Io :=
  let qs := io.knownQueues.filter (fun q => io.queuePort q = n)
  let io := io.detachCommands n
  let io := qs.foldl (fun io q => io.resetQueue q) io
  let tdi := io.get (Fld.GC_PORT_STATE_TDI n)
  (io.put (Fld.GC_PORT_STATE_IDE n) 0).put (Fld.GC_PORT_STATE_TDI n) (if tdi = 1 ∨ tdi = 2 then 3 else 0)

/-- The SPDM sessions and confidential grants of a port end with its link (R451, R453). -/
def State.endSessions (s : State) (n : Nat) : State :=
  { s with
    sec := { s.sec with sessions := sparsePut [] n [] s.sec.sessions }
    io := (List.range 256).foldl (fun io t =>
      let ports := io.get (Fld.SEC_CONF_PORTS t)
      if ports.testBit n then io.put (Fld.SEC_CONF_PORTS t) (ports - 2 ^ n) else io) s.io }

/-- Steps 1 to 4 of R412 over the whole state. -/
def State.detachPort (s : State) (n : Nat) : State := { s with io := s.io.detachPort n }.endSessions n

/-- Every word of GC_PORT_BIND[n] cleared. -/
def State.clearBinding (s : State) (n : Nat) : State :=
  (List.range 4).foldl (fun s w => s.setReg (Reg.GC_PORT_BIND n w) 0) s

/-- A queue enters ERROR (R394); the reason is the model's own number for one of the three cases. -/
def State.queueError (s : State) (q reason tag : Nat) : State :=
  (s.put (qError q) 1).raise { code := 0x0F04, tenant := queueTenant q, subject := s.io.queuePort q,
                               detail := [q, tag, Config.queueErrorReason reason] }

/-- Opcodes that start long operations (R637). -/
def longOpcodes : List Nat := [0x0C, 0x25, 0x2A, 0x30, 0x31, 0x32, 0x64, 0x80, 0x90, 0x91, 0xA2, 0xC1]

/-- Opcodes allowed on tenant queues and on management queues (R389, R397, R398 and the chapters' own tables). -/
def tenantOpcodes : List Nat := [0x00, 0x01, 0x02, 0x03, 0x04, 0x05, 0x08, 0x09, 0x0A, 0x0B, 0x20, 0x21, 0x22, 0x23, 0x24, 0x25,
  0x26, 0x27, 0x28, 0x29, 0x2A, 0x30, 0x31, 0x32, 0x40, 0x50, 0x60, 0x61, 0x62, 0x63, 0x64, 0x70, 0x71, 0x72, 0x73, 0x74, 0x92, 0x93, 0xA0, 0xA5]
def mgmtOpcodes : List Nat := [0x00, 0x01, 0x02, 0x03, 0x04, 0x05, 0x0C, 0x80, 0x90, 0x91, 0xA0, 0xA1, 0xA2, 0xA3,
  0xA4, 0xA5, 0xB0, 0xB1, 0xC0, 0xC1]

/-- The free, unreserved entries of a completion ring (R393). -/
def Io.cqRoom (io : Io) (q : Nat) : Nat :=
  let size := 2 ^ io.get (qCqLog2 q)
  size - 1 - (io.get (qCqTail q) + size - io.get (qCqHead q)) % size - (io.queue q).reserved

/-- Whether the next command of a queue can be fetched (R392, R393). -/
def Io.canFetch (io : Io) (q : Nat) : Bool :=
  io.get (qEn q) = 1 && io.get (qError q) = 0 && io.get (qSqHead q) ≠ io.get (qSqTail q) && decide (2 ≤ io.cqRoom q)

/-- The queue whose turn it is on a port: the next after the last one served, going round (R392). -/
def Io.nextQueue (io : Io) (n : Nat) : Option Nat :=
  let ready := (io.enabledQueues n).filter io.canFetch
  let last := sparseGet 0 io.turn n
  (ready.find? (fun q => last < q + 1)) <|> ready.head?

/-- A fetched block as a command of queue `q` (R395). -/
def commandOf (q : Nat) (b : List Byte) : Cmd :=
  { issuer := .queue q, flags := BitVec.ofNat 8 (recGet b 1 1), tag := BitVec.ofNat 16 (recGet b 2 2), seq := BitVec.ofNat 32 (recGet b 4 4)
    handle := BitVec.ofNat 64 (recGet b 8 8), addrA := BitVec.ofNat 64 (recGet b 16 8), addrB := BitVec.ofNat 64 (recGet b 24 8)
    ops := BitVec.ofNat 256 (recGet b 32 32), data := [], busFail := none }

/-- One command fetched (R392, R393, R396): its entries reserved and SQ_HEAD moved on. A command whose opcode is reserved or not
allowed on its kind of queue completes here with the first failing check of R396; any other waits as in progress for its own
row. -/
def State.fetch (s : State) (q : Nat) (b : List Byte) : State :=
  let c := commandOf q b
  let opcode := recGet b 0 1
  let x := s.io.queue q
  let size := 2 ^ s.get (qSqLog2 q)
  let long := longOpcodes.contains opcode
  let s := { s with io := s.io.setQueue q { x with
    inProgress := x.inProgress ++ [c], longs := if long then x.longs ++ [c] else x.longs, reserved := x.reserved + (if long then 2 else 1) } }
  let s := s.put (qSqHead q) ((s.get (qSqHead q) + 1) % size)
  let allowed := (if q < 4096 then tenantOpcodes else mgmtOpcodes).contains opcode
  if allowed then s
  else match s.gate c .both false with
    | some st => s.turnAway c long (if st = CS.notReady ∨ st = CS.notOwner then st else CS.badCommand)
    | none => s.turnAway c long CS.badCommand

/-- The mailbox of a queue (R403): the record at CQ_HEAD once written in this lap, else READY 0 with the last sequence. -/
def Io.mailbox (io : Io) (q : Nat) : Nat :=
  let head := io.get (qCqHead q)
  if head = io.get (qCqTail q) then (io.queue q).lastSeq
  else match (io.queue q).records.find? (fun r => r.1 = head) with
    | some r => r.2 / 2 ^ 41 * 2 ^ 41 + 2 ^ 40 + r.2 % 2 ^ 40
    | none => (io.queue q).lastSeq

end Sys2Proof.Machine
end

