-- ==== Sys2Proof/Machine/MemOps.lean ====
section
/-! DEFINITION. Tier 1: addresses, the stall code and its outcomes, key domains, the granule owner table and the page books
(R116 to R127, R70, R71, R243, R632). -/

namespace Sys2Proof.Machine

/-! ### Addresses (R116, R117) -/

/-- The data bytes of one channel: 3 GiB on a K48, 2 GiB on a K32 (R117). -/
def channelBytes : Nat := if Config.isK48 then 3 * 2 ^ 30 else 2 * 2 ^ 30

/-- The granules of one channel. -/
def channelGranules : Nat := channelBytes / 4096

/-- The data bytes of one Hive: 16 channels (R2). -/
def hiveBytes : Nat := 16 * channelBytes

def hiveOf (addr : Nat) : Nat := addr / 2 ^ 36 % 16
def offsetOf (addr : Nat) : Nat := addr % 2 ^ 36
def channelOf (addr : Nat) : Nat := offsetOf addr / channelBytes

/-- Whether a Hive is ABSENT. -/
def State.hiveAbsent (s : State) (h : Nat) : Bool := s.t1.absent.testBit h

/-- The Cells of Comb `c` (0 to 31) that are not ABSENT. -/
def State.cellsInComb (s : State) (c : Nat) : Nat :=
  if s.hiveAbsent (c / 2) then 0 else 256 - (s.units.absentCells.filter (fun n => n / 256 = c)).length

/-- The physical channel that serves logical channel `c` of Hive `h` (R130): in use or copying out. -/
def State.physicalChannel (s : State) (h c : Nat) : Option Nat :=
  firstBelow (fun p => s.get (Fld.HB_CH_LOGICAL h p) = c ∧
    (s.get (Fld.HB_CH_STATE h p) = 0 ∨ s.get (Fld.HB_CH_STATE h p) = 2)) 17

/-- The logical channels of a Hive in use. -/
def State.channelsInUse (s : State) (h : Nat) : Nat := ((List.range 16).filter (fun c => (s.physicalChannel h c).isSome)).length

/-- Where a Tier 1 address is served: in the mirror range once its pair is promoted (R593), else where it is. -/
def State.servedAt (s : State) (addr : Nat) : Nat :=
  match s.redirects.find? (fun r => decide (r.1 ≤ addr) && decide (addr < r.1 + r.2.2)) with
  | some r => r.2.1 + (addr - r.1)
  | none => addr

/-- Whether `n` bytes from `addr`, as served, lie in the data space of a Hive that is not ABSENT (R116). -/
def State.addrOk (s : State) (addr n : Nat) : Bool :=
  let ok (a m : Nat) : Bool := decide (a / 2 ^ 40 = 0) && decide (offsetOf a + m ≤ hiveBytes) && !s.hiveAbsent (hiveOf a)
  if s.redirects.isEmpty then ok addr n
  else decide (offsetOf addr + n ≤ hiveBytes) &&
    (List.range (if n = 0 then 1 else (addr + n - 1) / 4096 - addr / 4096 + 1)).all (fun i => ok (s.servedAt (addr / 4096 * 4096 + 4096 * i)) 0)

/-! ### The stall code (R118 to R120) -/

/-- Product in GF(2^8) with the polynomial 0x11D, by shift and add over the low `n` bits of `b` (R119). -/
def gfMul : (n : Nat) → (a b : Nat) → Nat
  | 0, _, _ => 0
  | n + 1, a, b =>
    let rest := gfMul n (if a < 128 then 2 * a else (2 * a) ^^^ 0x11D) (b / 2)
    if b % 2 = 1 then a ^^^ rest else rest

/-- The coefficients of g(x) below x^4, highest first: the product of (x + α^0) to (x + α^3) (R119). -/
def rsGenerator : List Nat :=
  let step (g : List Nat) (a : Nat) : List Nat := List.zipWith (· ^^^ ·) (g ++ [0]) (0 :: g.map (fun c => gfMul 8 c a))
  ([1, 2, 4, 8].foldl step [1]).drop 1

/-- The four check symbols of 64 data bytes (R119): the remainder of m(x)·x^4 by g(x), the first byte the highest. -/
def rsChecks (data : List Byte) : List Nat :=
  data.foldl (fun rem b =>
    let lead := b.toNat ^^^ rem.headD 0
    List.zipWith (· ^^^ ·) (rem.drop 1 ++ [0]) (rsGenerator.map (fun g => gfMul 8 lead g))) [0, 0, 0, 0]

/-- The keys of a domain (R121): the 256-bit encryption key, then the 256-bit integrity key; none installed reads as no bytes. -/
def State.domainKeys (s : State) (domain : Nat) : List Byte := (sparseGet [] s.sec.keys domain).take 64

/-- The tweak of a block (R122): its address, the domain and 6 zero bytes. -/
def blockTweak (domain addr : Nat) : List Byte := bytesOf 8 addr ++ bytesOf 2 domain ++ bytesOf 6 0

/-- The 72 stored bytes of a block (R118, R122): ciphertext, check symbols, the first 4 bytes of the CMAC; a clear block stores zeros. -/
def storedBlock (keys : List Byte) (domain : Option Nat) (addr : Nat) (data : List Byte) : List Byte :=
  match domain with
  | none => List.replicate 72 0
  | some d =>
    let c := Config.xtsEncrypt (keys.take 32) (blockTweak d addr) data
    c ++ (rsChecks c).map (BitVec.ofNat 8) ++ (Config.cmac (keys.drop 32) (blockTweak d addr ++ c)).take 4

/-- The outcome of one block's read (R120). -/
inductive BlockRead where
  | clear | data | corrected | tagCorrected | poisoned | newlyPoisoned | integrity
deriving DecidableEq, Repr

/-- The domain a block was last written in; none for a clear block. -/
def State.blockDomain (s : State) (blk : Nat) : Option Nat :=
  let d := sparseGet 0 s.t1.domains blk
  if d = 0 then none else some (d - 1)

/-- Whether a block is in its Hive's poison table (R125). -/
def State.isPoisoned (s : State) (blk : Nat) : Bool := (sparseGet [] s.t1.poison (hiveOf (64 * blk))).contains (64 * blk)

/-- What a read of block `blk` in a domain ends in, the rows of R120 in order: the tag is right where the domain and its keys are those the block was
written under. A block of a channel that is bound nowhere cannot be corrected. -/
def State.blockRead (s : State) (domain blk : Nat) : BlockRead :=
  let err := sparseGet (0, 0) s.t1.errors blk
  if (s.physicalChannel (hiveOf (64 * blk)) (channelOf (64 * blk))).isNone then .poisoned
  else match s.blockDomain blk with
  | none =>
    if err.1 = 0 ∧ err.2 = 0 then .clear
    else if s.isPoisoned blk then .poisoned
    else if 2 < err.1 then .newlyPoisoned
    else .integrity
  | some d =>
    if s.isPoisoned blk then .poisoned
    else if 2 < err.1 then .newlyPoisoned
    else if d ≠ domain || sparseGet [] s.t1.keyed blk ≠ s.domainKeys domain || 2 ≤ err.2 then .integrity
    else if err.2 = 1 then .tagCorrected
    else if err.1 ≠ 0 then .corrected
    else .data

/-- The status a block's read gives its reader, if it fails. -/
def BlockRead.status : BlockRead → Option Nat
  | .poisoned | .newlyPoisoned => some CS.uncorrectable
  | .integrity => some CS.integrity
  | _ => none

/-- The blocks that `n` bytes from `addr` touch. -/
def blocksOf (addr n : Nat) : List Nat :=
  if n = 0 then [] else (List.range ((addr + n - 1) / 64 - addr / 64 + 1)).map (fun i => addr / 64 + i)

/-- The data bytes stored, whatever domain reads them. -/
def State.rawBytes (s : State) (addr n : Nat) : List Byte := tabulate n (fun i => sparseGet 0 s.t1.bytes (addr + i))

/-- The block of the mirror range that holds a copy of block `blk` of a ready pair's primary range (R592). -/
def State.mirrorBlock (s : State) (blk : Nat) : Option Nat :=
  (s.mirrors.find? (fun m => m.ready && decide (m.primary ≤ 64 * blk) && decide (64 * blk < m.primary + m.len))).map (fun m =>
    (m.mirror + (64 * blk - m.primary)) / 64)

/-- The block that a read of block `blk` is served from (R592, R593). -/
def State.sourceBlock (s : State) (domain blk : Nat) : Nat :=
  let b := s.servedAt (64 * blk) / 64
  if (s.blockRead domain b).status = some CS.uncorrectable then (s.mirrorBlock blk).getD b else b

/-- What a read of a block answers its reader. -/
def State.blockStatus (s : State) (domain blk : Nat) : Option Nat := (s.blockRead domain (s.sourceBlock domain blk)).status

/-- The data bytes that a read of `n` bytes from `addr` delivers. -/
def State.servedBytes (s : State) (domain addr n : Nat) : List Byte :=
  if s.redirects.isEmpty && s.mirrors.isEmpty then s.rawBytes addr n
  else tabulate n (fun i => sparseGet 0 s.t1.bytes (64 * s.sourceBlock domain ((addr + i) / 64) + (addr + i) % 64))

/-- The length of the prefix of blocks whose reads deliver, in bytes from a block-aligned address (R400). -/
def State.goodPrefix (s : State) (domain : Nat) (blocks : List Nat) : Nat :=
  64 * (blocks.takeWhile (fun b => (s.blockStatus domain b).isNone)).length

/-- A read of `n` bytes in a domain (R120, R123) that nothing forbids: the bytes, or the status of the first block that fails;
CS_BAD_COMMAND where the address breaks R116 (R633). -/
def State.readBlocks (s : State) (domain addr n : Nat) : Except Nat (List Byte) :=
  if !s.addrOk addr n then .error CS.badCommand
  else match (blocksOf addr n).findSome? (s.blockStatus domain) with
  | some st => .error st
  | none => .ok (s.servedBytes domain addr n)

/-- Bytes of one save block (R250). -/
def saveBytes (hub : Bool) : Nat := if hub then 0x12000 else 0x52000

/-- Whether a range touches the save area of a WEIGHTED context (R462). -/
def State.overWeights (s : State) (addr n : Nat) : Bool :=
  s.contexts.any (fun e => e.2.weighted && e.2.saves.any (fun v =>
    decide (v.2 < addr + n) && decide (addr < v.2 + saveBytes e.2.hub)))

/-- A read by a command or a context: the save area of a WEIGHTED context is read by none (R462). -/
def State.readT1 (s : State) (domain addr n : Nat) : Except Nat (List Byte) :=
  if s.overWeights addr n then .error CS.badCommand else s.readBlocks domain addr n

/-- A poison entry made (R125): the block enters its Hive's table of 1,024, raising EV_HB_POISON; EV_HB_POISON_FULL where that fills the table, or
finds it full. -/
def State.addPoison (s : State) (blk : Nat) : State :=
  let h := hiveOf (64 * blk)
  let table := sparseGet [] s.t1.poison h
  if table.contains (64 * blk) then s
  else if table.length < 1024 then
    let s := { s with t1 := { s.t1 with poison := sparsePut [] h (table ++ [64 * blk]) s.t1.poison } }
    let s := s.raise { code := 0x0401, subject := 256 * h + channelOf (64 * blk), object := 64 * blk }
    if table.length = 1023 then s.raise { code := 0x0402, subject := 256 * h + channelOf (64 * blk), object := 64 * blk } else s
  else s.raise { code := 0x0402, subject := 256 * h + channelOf (64 * blk), object := 64 * blk }

/-- Bytes put into Tier 1: each changes one cell. -/
def putBytes (addr : Nat) : (bytes : List Byte) → List Host.Cell → List Host.Cell
  | [], m => m
  | b :: bs, m => putBytes (addr + 1) bs (sparsePut 0 addr b m)

/-- The canonical form of Tier 1's bytes: addresses strictly rising, and no entry equal to the 0 that an unlisted byte reads as. -/
def Memory.wf (m : List Host.Cell) : Bool := sparseWf (fun _ => 0) m

/-- A write of bytes in a domain with its keys, at one address: the blocks touched are rewritten whole (R244), so they take the domain and the keys and
lose their errors; a block all of whose bytes are written leaves the poison table (R125). -/
def Tier1.write (t : Tier1) (domain : Nat) (keys : List Byte) (addr : Nat) (bytes : List Byte) : Tier1 :=
  let n := bytes.length
  let blocks := blocksOf addr n
  let whole := blocks.filter (fun b => addr ≤ 64 * b ∧ 64 * b + 64 ≤ addr + n)
  { t with
    bytes := putBytes addr bytes t.bytes
    domains := blocks.foldl (fun m b => sparsePut 0 b (domain + 1) m) t.domains
    keyed := blocks.foldl (fun m b => sparsePut [] b keys m) t.keyed
    errors := blocks.foldl (fun m b => sparseErase b m) t.errors
    poison := whole.foldl (fun m b =>
      sparsePut [] (hiveOf (64 * b)) ((sparseGet [] m (hiveOf (64 * b))).filter (· ≠ 64 * b)) m) t.poison }

/-- What a read of block `blk` with outcome `r` does besides delivering (R120): it writes back what it corrected, counting a corrected tag, poisons what it cannot
correct, and raises EV_HB_TAG_FAIL for a tag that differs. -/
def State.noteBlock (s : State) (blk : Nat) (r : BlockRead) : State :=
  match r with
  | .corrected => { s with t1 := { s.t1 with errors := sparseErase blk s.t1.errors } }
  | .tagCorrected => { s with t1 := { s.t1 with errors := sparseErase blk s.t1.errors, tagsCorrected := s.t1.tagsCorrected + 1 } }
  | .newlyPoisoned => s.addPoison blk
  | .integrity => s.raise { code := 0x0406, subject := 256 * hiveOf (64 * blk) + channelOf (64 * blk), object := 64 * blk }
  | _ => s

def State.afterBlock (s : State) (domain blk : Nat) : State := s.noteBlock blk (s.blockRead domain blk)

/-- The same for a block as it is served: a primary block that its mirror served is rewritten from it (R592). -/
def State.afterBlockRead (s : State) (domain blk : Nat) : State :=
  let b := s.servedAt (64 * blk) / 64
  let src := s.sourceBlock domain blk
  let s := s.afterBlock domain b
  if src = b then s
  else
    let s := s.afterBlock domain src
    if (s.blockRead domain src).status.isNone then { s with t1 := s.t1.write domain (s.domainKeys domain) (64 * b) (s.rawBytes (64 * src) 64) } else s

/-- The same for every block of a range, whichever of them fail. -/
def State.afterRead (s : State) (domain addr n : Nat) : State :=
  (blocksOf addr n).foldl (fun s b => s.afterBlockRead domain b) s

/-- The addresses at which a byte is kept: where it is served, and in the mirror range of its pair (R591, R592). -/
def State.targets (s : State) (addr : Nat) : List Nat :=
  let a := s.servedAt addr
  a :: s.mirrors.filterMap (fun m => if m.primary ≤ addr ∧ addr < m.primary + m.len then some (m.mirror + (addr - m.primary)) else none)

/-- The blocks that a write of `n` bytes at `addr` covers in part: each is read to be rewritten whole (R244). -/
def partBlocks (addr n : Nat) : List Nat := (blocksOf addr n).filter (fun b => decide (64 * b < addr) || decide (addr + n < 64 * b + 64))

/-- The status in which the read half of a write ends, if one fails: the block cannot be rewritten. -/
def State.writeStatus (s : State) (domain addr n : Nat) : Option Nat := (partBlocks addr n).findSome? (s.blockStatus domain)

/-- A write to Tier 1, and to the mirror of a mirrored range (R592), block by block. A block covered in part whose read fails stays as it is. -/
def State.writeT1 (s : State) (domain addr : Nat) (bytes : List Byte) : State :=
  if s.redirects.isEmpty && s.mirrors.isEmpty && (s.writeStatus domain addr bytes.length).isNone then
    { s with t1 := s.t1.write domain (s.domainKeys domain) addr bytes }
  else (blocksOf addr bytes.length).foldl (fun s b =>
    let lo := max addr (64 * b)
    let hi := min (addr + bytes.length) (64 * b + 64)
    if hi - lo < 64 && (s.blockStatus domain b).isSome then s
    else { s with t1 := (s.targets lo).foldl (fun t a => t.write domain (s.domainKeys domain) a ((bytes.drop (lo - addr)).take (hi - lo))) s.t1 }) s

/-- Granules scrubbed (R124): every block of them becomes a clear block and leaves the poison table. -/
def Tier1.clear (t : Tier1) (start len : Nat) : Tier1 :=
  let lo := 4096 * start
  let hi := 4096 * (start + len)
  { t with
    bytes := t.bytes.filter (fun c => !(decide (lo ≤ c.1) && decide (c.1 < hi)))
    domains := t.domains.filter (fun c => !(decide (lo ≤ 64 * c.1) && decide (64 * c.1 < hi)))
    keyed := t.keyed.filter (fun c => !(decide (lo ≤ 64 * c.1) && decide (64 * c.1 < hi)))
    errors := t.errors.filter (fun c => !(decide (lo ≤ 64 * c.1) && decide (64 * c.1 < hi)))
    poison := (t.poison.map (fun p => (p.1, p.2.filter (fun a => !(decide (lo ≤ a) && decide (a < hi)))))).filter
      (fun p => !p.2.isEmpty) }

/-! ### The granule owner table and the page books (R70, R71, R243) -/

/-- The owner of a granule; none for a free granule. -/
def Tier1.ownerOf (t : Tier1) (g : Nat) : Option Owner :=
  (t.runs.find? (fun r => decide (r.start ≤ g) && decide (g < r.start + r.len))).map (·.owner)

/-- The runs of granules `start … start+len-1` taken out of a run. -/
def cutRun (start len : Nat) (r : Run) : List Run :=
  let hi := start + len
  let rhi := r.start + r.len
  (if r.start < min rhi start then [{ r with len := min rhi start - r.start }] else []) ++
    (if max r.start hi < rhi then [{ r with start := max r.start hi, len := rhi - max r.start hi }] else [])

/-- Granules made free. -/
def Tier1.free (t : Tier1) (start len : Nat) : Tier1 := { t with runs := t.runs.flatMap (cutRun start len) }

/-- Granules given an owner. -/
def Tier1.own (t : Tier1) (start len : Nat) (o : Owner) : Tier1 :=
  if len = 0 then t else { t.free start len with runs := ⟨start, len, o⟩ :: (t.free start len).runs }

/-- Whether granules `start … start+len-1` are all free. -/
def Tier1.allFree (t : Tier1) (start len : Nat) : Bool :=
  t.runs.all (fun r => decide (r.start + r.len ≤ start) || decide (start + len ≤ r.start))

/-- Whether every granule of a range has an owner that passes `p`. -/
def Tier1.allOwned (t : Tier1) (p : Owner → Bool) (start len : Nat) : Bool :=
  (List.range len).all (fun i => match t.ownerOf (start + i) with | some o => p o | none => false)

/-- The granules of a Hive whose owner passes `p`. -/
def Tier1.countOwned (t : Tier1) (p : Owner → Bool) (h : Nat) : Nat :=
  ((t.runs.filter (fun r => p r.owner && decide (hiveOf (4096 * r.start) = h))).map (·.len)).foldl (· + ·) 0

def Owner.isQuarantine : Owner → Bool | .quarantine => true | _ => false
def Owner.isInHand : Owner → Bool | .inHand _ => true | _ => false
def Owner.isAllocated (o : Owner) : Bool := !o.isQuarantine && !o.isInHand

/-- The granules of a Hive whose owner passes `p`, in channels in use: those of a retired channel are in no book (R117, R131). -/
def State.countBooked (s : State) (p : Owner → Bool) (h : Nat) : Nat :=
  ((s.t1.runs.filter (fun r => p r.owner && decide (hiveOf (4096 * r.start) = h) &&
    (s.physicalChannel h (channelOf (4096 * r.start))).isSome)).map (·.len)).foldl (· + ·) 0

/-- The terms of a Hive's page book (R70): total, free, allocated, quarantined, in hand. An ABSENT Hive reads 0 in each. -/
def State.pageBook (s : State) (h j : Nat) : Nat :=
  if s.hiveAbsent h then 0
  else
    let total := s.channelsInUse h * channelGranules
    let alloc := s.countBooked Owner.isAllocated h
    let quar := s.countBooked Owner.isQuarantine h
    let hand := s.countBooked Owner.isInHand h
    match j with
    | 0 => total | 1 => total - alloc - quar - hand | 2 => alloc | 3 => quar | 4 => hand | _ => 0

def State.freeGranules (s : State) (h : Nat) : Nat := s.pageBook h 1

/-- `x` rounded up to a multiple of `a`. -/
def alignUp (a x : Nat) : Nat := if a = 0 then x else (x + a - 1) / a * a

/-- The lowest place for `n` free granules, aligned to `align`, within logical channel `c` of Hive `h`. -/
def State.placeInChannel (s : State) (h c n align : Nat) : Option Nat :=
  let lo := (h * 2 ^ 36 + c * channelBytes) / 4096
  let hi := lo + channelGranules
  let starts := (lo :: s.t1.runs.map (fun r => r.start + r.len)).map (alignUp align)
  let fit := starts.filter (fun a => lo ≤ a ∧ a + n ≤ hi ∧ s.t1.allFree a n)
  fit.foldl (fun best a => match best with | none => some a | some b => some (min a b)) none

/-- A contiguous run of `n` free granules of Hive `h`, from the channels in rotation (R117). DESIGN CHOICE: none from a channel
being evacuated. -/
def State.place (s : State) (h n align : Nat) : Option Nat :=
  if s.hiveAbsent h then none
  else
    let first := sparseGet 0 s.t1.rotor h
    (List.range 16).findSome? (fun i =>
      let c := (first + i) % 16
      if (s.physicalChannel h c).isSome && !s.units.evacuating.any (fun e => e.1 = 16 * h + c) then s.placeInChannel h c n align else none)

/-- The lowest place for `n` contiguous free granules of Hive `h`, over as many of its channels as they take; none in a channel that serves nothing or is being evacuated. -/
def State.placeWide (s : State) (h n : Nat) : Option Nat :=
  let lo := h * 2 ^ 36 / 4096
  let open_ (c : Nat) : Bool := (s.physicalChannel h c).isSome && !s.units.evacuating.any (fun e => e.1 = 16 * h + c)
  let first := (List.range 16).map (fun c => lo + c * channelGranules)
  let fit := (first ++ s.t1.runs.map (fun r => r.start + r.len)).filter (fun a =>
    decide (lo ≤ a ∧ a + n ≤ lo + 16 * channelGranules) && s.t1.allFree a n &&
      (List.range 16).all (fun c => open_ c || decide (a + n ≤ lo + c * channelGranules) || decide (lo + (c + 1) * channelGranules ≤ a)))
  if s.hiveAbsent h then none else fit.foldl (fun best a => match best with | none => some a | some b => some (min a b)) none

/-- Granules taken for an owner: the first granule, and the state with the books and the rotation moved on. -/
def State.alloc (s : State) (h n align : Nat) (o : Owner) : Option (Nat × State) :=
  match s.place h n align with
  | none => none
  | some g => some (g, { s with t1 := { s.t1.own g n o with
      rotor := sparsePut 0 h ((channelOf (4096 * g) + 1) % 16) s.t1.rotor } })

/-- Granules taken for an area that need not lie in one channel: in one where it fits, as `alloc` takes them, else over several. -/
def State.allocWide (s : State) (h n : Nat) (o : Owner) : Option (Nat × State) :=
  (s.alloc h n 1 o) <|> ((s.placeWide h n).map (fun g => (g, { s with t1 := s.t1.own g n o })))

/-- Granules released to quarantine (R49). -/
def State.quarantine (s : State) (start len : Nat) : State := { s with t1 := s.t1.own start len .quarantine }

/-- Every run whose owner passes `p` released to quarantine. -/
def State.quarantineOwned (s : State) (p : Owner → Bool) : State :=
  { s with t1 := { s.t1 with runs := s.t1.runs.map (fun r => if p r.owner then { r with owner := .quarantine } else r) } }

/-- Every run whose owner passes `p` returned to the free list (through the in-hand term, R51, R91). -/
def State.freeOwned (s : State) (p : Owner → Bool) : State :=
  { s with t1 := { s.t1 with runs := s.t1.runs.filter (fun r => !p r.owner) } }

/-! ### Tenants and the Hives of their partition (R356, R358 to R360) -/

/-- The Combs of a tenant's partition, as a bit set over 2 × Hive + Comb. -/
def State.tenantCombs (s : State) (t : Nat) : Nat := s.get (Fld.SCH_PART_COMBS (s.get (Fld.TN_CTRL_PARTITION t)))

/-- Whether Hive `h` is a Hive of the tenant's partition (R359). -/
def State.partitionHive (s : State) (t h : Nat) : Bool :=
  (s.tenantCombs t).testBit (2 * h) || (s.tenantCombs t).testBit (2 * h + 1)

/-- Whether Hive `h` is a full Hive of the tenant's partition (R359). -/
def State.fullHive (s : State) (t h : Nat) : Bool :=
  (s.tenantCombs t).testBit (2 * h) && (s.tenantCombs t).testBit (2 * h + 1)

/-- Among the Hives that pass `p`, the one with the most free granules, the lower number on a tie (R44, R399). -/
def State.roomiest (s : State) (p : Nat → Bool) : Option Nat :=
  ((List.range 16).filter p).foldl (fun best h =>
    match best with
    | none => some h
    | some b => if s.freeGranules b < s.freeGranules h then some h else some b) none

/-! ### Prefetch objects (R143, R144) -/

/-- An entry of the prefetch object table (R143). -/
structure PfEntry where
  shed : Nat
  tier1 : Nat
  bytes : Nat
  layer : Nat
  cls : Nat
  expert : Nat
  hives : Nat
  model : Nat
  ports : Nat
deriving DecidableEq, Repr

/-- Entry `k` of the object table, read in the device domain. -/
def State.pfEntry (s : State) (k : Nat) : Option PfEntry :=
  if s.get Fld.PF_OBJ_COUNT_COUNT ≤ k then none
  else match s.readT1 544 (s.get Fld.PF_OBJ_BASE_BASE + 32 * k) 32 with
  | .ok r => some ⟨recGet r 0 8, recGet r 8 8, recGet r 16 4, recGet r 20 1, recGet r 21 1, recGet r 22 2, recGet r 24 2, recGet r 26 1, recGet r 27 1⟩
  | .error _ => none

def State.resident (s : State) (k : Nat) : Resident := sparseGet {} s.prefetch.objects k
def State.setResident (s : State) (k : Nat) (r : Resident) : State :=
  { s with prefetch := { s.prefetch with objects := sparsePut {} k r s.prefetch.objects } }

/-- Granules of an entry in one Hive. -/
def PfEntry.granules (e : PfEntry) : Nat := ceilDiv e.bytes 4096

/-- The Hives that hold a stripe of an entry and are not ABSENT. -/
def State.pfHives (s : State) (e : PfEntry) : List Nat := (List.range 16).filter (fun h => e.hives.testBit h && !s.hiveAbsent h)

/-- Whether an object is in Tier 1: read, with a copy in each of its Hives. -/
def State.pfReady (s : State) (k : Nat) : Bool :=
  let r := s.resident k
  !r.loading && !r.copies.isEmpty && (s.pfEntry k).all (fun e => (s.pfHives e).all (fun h => r.copies.any (fun c => c.1 = h)))

/-- An object's copy dropped (R144, R145): a buffer goes back to the page book; nothing is written. -/
def State.pfDrop (s : State) (k : Nat) : State :=
  let r := s.resident k
  (s.quarantineOwned (fun o => o = .prefetch k)).setResident k { r with copies := [], loading := false }

/-- The read of an object's Shed image requested (R143, R144): its copies take what arrives. -/
def State.pfRead (s : State) (k : Nat) (e : PfEntry) (copies : List (Nat × Nat)) : State :=
  (s.setResident k { s.resident k with copies := copies, loading := true }).emit (.shedRead e.shed e.bytes e.ports)

/-- The copies of prefetch objects with a granule that passes `p` dropped (R131): their buffers leave the page book's objects. -/
def State.dropCopies (s : State) (p : Nat → Bool) : State :=
  s.prefetch.objects.foldl (fun s o =>
    let n := ((s.pfEntry o.1).map PfEntry.granules).getD 1
    let hit (c : Nat × Nat) : Bool := (List.range n).any (fun g => p (c.2 + 4096 * g))
    let r := s.resident o.1
    let s := (r.copies.filter hit).foldl (fun s c =>
      if s.t1.ownerOf (c.2 / 4096) = some (.prefetch o.1) then s.quarantine (c.2 / 4096) n else s) s
    s.setResident o.1 { r with copies := r.copies.filter (fun c => !hit c) }) s

/-- The weight object with a Shed image whose copy holds an address, to be read again (R126). -/
def State.rereadWeight (s : State) (addr : Nat) : Option State :=
  (s.prefetch.objects.findSome? (fun o => (s.pfEntry o.1).bind (fun e =>
    if o.2.copies.any (fun c => decide (c.2 ≤ addr) && decide (addr < c.2 + e.bytes)) then some (o.1, e) else none))).map (fun k =>
    if (s.resident k.1).loading then s else s.pfRead k.1 k.2 (s.resident k.1).copies)

end Sys2Proof.Machine
end

