-- ==== Sys2Proof/Machine/Operands.lean ====
section
/-! DEFINITION. How a command reads and writes what its addresses A and B name: host memory for a command from a queue, Tier 1
for a command that a Hub thread issues (R38, R279, R395, R400). -/

namespace Sys2Proof.Machine

/-- Whether a granule belongs to tenant `t`'s Tier 1 domain and is no stall engine's (R243): its objects, and the save areas of
its contexts (R250). -/
def State.granuleOf (s : State) (t g : Nat) : Bool :=
  match s.t1.ownerOf g with
  | some (.tenant u none) => decide (u = t)
  | some (.context slot) => decide ((s.context slot).tenant = t)
  | _ => false

/-- Whether every granule that `n` bytes from `addr` touch belongs to tenant `t`'s Tier 1 domain (R243, R400). -/
def State.tenantOwns (s : State) (t addr n : Nat) : Bool :=
  s.addrOk addr n && (List.range ((addr + n + 4095) / 4096 - addr / 4096)).all (fun i => s.granuleOf t (addr / 4096 + i))

/-- A host-bus failure of a command's transfer (R400): EV_HQ_DMA_FAULT with the address. -/
def State.busFault (s : State) (c : Cmd) (addr : Nat) : State :=
  match c.issuer with
  | .queue q => s.raise { code := 0x0F07, tenant := s.issuerTenant c.issuer, subject := s.io.queuePort q, object := addr, detail := [q, c.tag.toNat] }
  | _ => s.raise { code := 0x0F07, tenant := s.issuerTenant c.issuer, object := addr }

/-- Whether a command was detached from its port (R412): its host reads fail and its host writes are discarded. -/
def State.isDetached (s : State) (c : Cmd) : Bool := s.io.detached.any (fun d => d.2 = coreOf c)

/-- `n` bytes that a command reads at an address: from host memory, as the bytes the bus returned from offset `done` of what
the command reads; or from Tier 1 in the tenant's domain for a Hub thread. The status where the read fails. -/
def State.readIn (s : State) (c : Cmd) (addr done n : Nat) : Except Nat (List Byte) :=
  match c.issuer with
  | .hub slot _ =>
    let t := (s.context slot).tenant
    if s.tenantOwns t addr n then s.readT1 t addr n else .error CS.badCommand
  | _ =>
    if s.isDetached c then .error CS.fault
    else match c.busFail with
    | some k => if k < done + n then .error CS.fault else .ok (tabulate n (fun i => c.data.getD (done + i) 0))
    | none => .ok (tabulate n (fun i => c.data.getD (done + i) 0))

/-- The effect of a failed read beside the command's status. -/
def State.readInFault (s : State) (c : Cmd) (addr st : Nat) : State := if st = CS.fault then s.busFault c addr else s

/-- What a Hub thread's read of a block of its command leaves behind in Tier 1 (R120, R125): counts, corrections, poison entries. -/
def State.readNoted (s : State) (c : Cmd) (addr n : Nat) : State :=
  match c.issuer with
  | .hub slot _ => if s.tenantOwns (s.context slot).tenant addr n then s.afterRead (s.context slot).tenant addr n else s
  | _ => s

/-- Bytes that a command writes at an address, in host memory or, for a Hub thread, in Tier 1: the state after, or the status
where the write fails. Address 0 writes nothing where the command says so. -/
def State.writeOut (s : State) (c : Cmd) (addr : Nat) (bytes : List Byte) : Except Nat State :=
  match c.issuer with
  | .hub slot _ =>
    let t := (s.context slot).tenant
    if !s.tenantOwns t addr bytes.length then .error CS.badCommand
    else match s.writeStatus t addr bytes.length with
    | some st => .error st
    | none => .ok (s.writeT1 t addr bytes)
  | .queue q =>
    if s.isDetached c then .ok (s.bump (Fld.GC_PORT_DROP_COUNT (s.io.queuePort q)) 1)
    else match c.busFail with
    | some k => if k < bytes.length then .error CS.fault else .ok (s.emit (.hostWrite (s.io.queuePort q) addr bytes))
    | none => .ok (s.emit (.hostWrite (s.io.queuePort q) addr bytes))
  | .device => .ok s

end Sys2Proof.Machine
end

