-- ==== Sys2Proof/Machine/NetOps.lean ====
section
/-! DEFINITION. The network's shared operations: the Yard map, which members are down, the flows and their datagrams, the traffic
queues, and sending an MST message (R420 to R436). -/

namespace Sys2Proof.Machine

/-- This device's ID (R23). -/
def State.deviceId (s : State) : Nat := s.get Fld.NW_DEV_DEV_ID

/-! ### The Yard map (R431 to R433) -/

/-- The 32 bytes of a Yard map entry. Before NW_CTRL.COMMIT there is no map. -/
def State.mapEntry (s : State) (d : Nat) : List Byte :=
  if s.on Fld.NW_CTRL_COMMIT then s.rawBytes (s.get Fld.NW_MAP_BASE_BASE + 32 * d) 32 else List.replicate 32 0

def State.isMember (s : State) (d : Nat) : Bool := (recGet (s.mapEntry d) 19 1).testBit 0

/-- The members of the Yard map. -/
def State.yardMembers (s : State) : List Nat :=
  if s.on Fld.NW_CTRL_COMMIT then (List.range 4096).filter (fun d => s.isMember d) else []

/-- The members of the Yard map, this device apart. -/
def State.otherMembers (s : State) : List Nat := s.yardMembers.filter (· ≠ s.deviceId)

def State.member (s : State) (d : Nat) : MemberX := sparseGet {} s.net.members d
def State.setMember (s : State) (d : Nat) (x : MemberX) : State :=
  { s with net := { s.net with members := sparsePut {} d x s.net.members } }

/-- Whether member `m` marks device `d` not present: this device by its own mark, another by its latest HELLO (R432). -/
def State.marksAbsent (s : State) (d m : Nat) : Bool :=
  if m = s.deviceId then (s.member d).absent else (s.member m).marks.contains d

/-- The members other than `d`, and how many of them mark it not present (R433). -/
def State.markCount (s : State) (d : Nat) : Nat × Nat :=
  let others := s.yardMembers.filter (· ≠ d)
  (others.length, (others.filter (s.marksAbsent d)).length)

/-- Whether a majority of the other members mark device `d` not present (R433). -/
def State.isDown (s : State) (d : Nat) : Bool := (s.member d).down

/-! ### Flows (R423 to R426) -/

/-- The key of the flow with a party: a device, or an endpoint of a tenant. -/
def flowKey (peer tenant : Nat) : Nat := if peer < 0xF000 then peer else 65536 * (tenant + 1) + peer

def State.flow (s : State) (k : Nat) : Flow := sparseGet {} s.net.flows k
def State.setFlow (s : State) (k : Nat) (x : Flow) : State :=
  { s with net := { s.net with flows := sparsePut {} k x s.net.flows } }

/-- The sender's credits (R425). -/
def State.credits (s : State) (x : Flow) : Nat := s.get Fld.NW_CREDITS_CREDITS + x.freedIn - x.sent

/-- Control traffic (R434). -/
def isControl (type : Nat) : Bool :=
  (decide (0x02 ≤ type) && decide (type ≤ 0x0C)) || [0x13, 0x15, 0x20, 0x21, 0x30, 0x40].contains type

/-- The traffic class of a message (R434): that of TS_TCLASS for its kind; 0 for control traffic. -/
def State.msgClass (s : State) (m : Msg) : Nat :=
  if isControl m.type then 0
  else if m.type = 0x16 then s.get (Fld.TS_TCLASS_OUTPUT m.tenant)
  else if m.type = 0x01 then s.get (Fld.TS_TCLASS_MIGRATE m.tenant)
  else if m.type < 0x20 then s.get (Fld.TS_TCLASS_CALL m.tenant)
  else s.get (Fld.TS_TCLASS_SEND m.tenant)

/-- The key slot of a message's datagrams (R467, R470); none where they go unprotected. -/
def State.msgKey (s : State) (m : Msg) : Option Nat :=
  if s.get Fld.SEC_NET_MODE < 2 then none
  else if [0x20, 0x21, 0x30, 0x40].contains m.type then (if s.on (Fld.SEC_JOB_INSTALLED 255) then some 255 else none)
  else if s.on (Fld.SEC_TNET_PROTECT m.tenant) then some (s.get (Fld.SEC_TNET_SEL m.tenant))
  else none

/-- Whether a network port is up. -/
def State.netUp (s : State) (p : Nat) : Bool := s.get (Fld.NW_PORT_STATE_LINK p) = 2

/-! ### Traffic queues (R420, R434 to R436) -/

/-- The queue of a port, tenant and class. -/
def queueKey (port tenant cls : Nat) : Nat := 2048 * port + 8 * tenant + cls

def State.tqueue (s : State) (k : Nat) : TQueue := sparseGet {} s.net.queues k
def State.setTQueue (s : State) (k : Nat) (x : TQueue) : State :=
  { s with net := { s.net with queues := sparsePut {} k x s.net.queues } }

def State.controlOf (s : State) (p : Nat) : List Datagram := sparseGet [] s.net.control p
def State.setControl (s : State) (p : Nat) (l : List Datagram) : State :=
  { s with net := { s.net with control := sparsePut [] p l s.net.control } }

def datagramBytes (l : List Datagram) : Nat := (l.map (·.bytes)).foldl (· + ·) 0

/-- The bytes queued on a port. -/
def State.portQueued (s : State) (p : Nat) : Nat :=
  datagramBytes (s.controlOf p) + ((s.net.queues.filter (fun q => q.1 / 2048 = p)).map (fun q => datagramBytes q.2.items)).foldl (· + ·) 0

/-- The port for a datagram to a party (R420): among the ports that are up, and set in a peer's PORTS, the one with the fewest
bytes queued, the lower number on a tie. -/
def State.choosePort (s : State) (peer : Nat) : Option Nat :=
  let allowed (p : Nat) : Bool :=
    s.netUp p && (decide (0xF000 ≤ peer) || (recGet (s.mapEntry peer) 18 1).testBit p)
  ((List.range 8).filter allowed).foldl (fun best p => match best with
    | none => some p
    | some b => if s.portQueued p < s.portQueued b then some p else some b) none

/-- The weight of a queue (R435). -/
def State.queueWeight (s : State) (k : Nat) : Nat := s.get (Fld.TS_WEIGHT_W (k / 2048) (k / 8 % 256) (k % 8))

/-- The start and finish time of a datagram that reaches the front of queue `k` at virtual time `start` (R435). -/
def State.headTimes (s : State) (k start : Nat) (d : Datagram) : Nat × Nat :=
  (start, start + ceilDiv (d.bytes * 256) (s.queueWeight k))

/-- The port's virtual time. -/
def State.virtualTime (s : State) (p : Nat) : Nat := sparseGet 0 s.net.virtual p

/-- The datagrams of a queue set. A new head behind another gets S = max(V, F of the queue's previous head), in a queue that was empty
S = V (R435). -/
def State.setItems (s : State) (k : Nat) (items : List Datagram) : State :=
  let q := s.tqueue k
  let v := s.virtualTime (k / 2048)
  let head : Option (Nat × Nat) := match items, q.items with
    | [], _ => none
    | d :: _, [] => some (s.headTimes k v d)
    | d :: _, e :: _ => if d = e then q.head else some (s.headTimes k (max v q.lastF) d)
  s.setTQueue k { q with items := items, head := head }

/-! ### Datagrams on their way (R421, R423, R425) -/

/-- What the flow holds of an unacknowledged datagram changed. -/
def State.updDatagram (s : State) (d : Datagram) (f : Datagram → Datagram) : State :=
  let k := flowKey d.peer d.tenant
  let x := s.flow k
  if d.msg.type = 0x40 then s
  else s.setFlow k { x with unacked := x.unacked.map (fun e => if e.seq = d.seq then f e else e) }

/-- A datagram put on a port: behind the control traffic of the port, or in its queue (R434). With no port up towards its party
it waits (R423). -/
def State.enqueue (s : State) (d : Datagram) : State :=
  match s.choosePort d.peer with
  | none => s
  | some p =>
    let mark (e : Datagram) : Datagram := { e with queued := true }
    let s := s.updDatagram d mark
    if isControl d.msg.type then s.setControl p (s.controlOf p ++ [mark d])
    else
      let k := queueKey p d.msg.tenant (s.msgClass d.msg)
      s.setItems k ((s.tqueue k).items ++ [mark d])

/-- Whether a message is the image of a migration whose operation is SUSPENDED (R65): its transfer pauses. -/
def State.transferPaused (s : State) (m : Msg) : Bool :=
  decide (m.type = 0x01) && s.stalls.any (fun e => decide (e.2.handle = m.msgId) &&
    (e.2.mig.bind (·.op)).any (fun op => decide ((s.op op).st = .suspended)))

/-- Datagrams of a flow that wait for credits put on ports as credits allow (R425), those of a paused transfer apart (R65). -/
def State.pump (s : State) (k : Nat) : State :=
  let x := s.flow k
  let go := (x.waiting.filter (fun d => !s.transferPaused d.msg)).take (s.credits x)
  let s := s.setFlow k { x with waiting := x.waiting.filter (fun d => !go.contains d), sent := x.sent + go.length, unacked := x.unacked ++ go }
  go.foldl (fun s d => s.enqueue d) s

/-- The payload bytes of a message; a PREPARE carries a header, which `payload` gives, and records. -/
def msgPayloadBytes (m : Msg) : Nat :=
  m.payload.length + (match m.image with
    | some i => (i.2.map (fun r => 64 + (match r.payload with
        | .latent runs => (runs.map (fun x => 32 + x.bytes.length)).foldl (· + ·) 0
        | .header _ => 4096
        | .input _ _ b => 8 + b.length
        | .seal _ => 8))).foldl (· + ·) 0
    | none => 0)

/-- The plaintext bytes that one segment carries at most (R421, R469). -/
def segmentCap (key : Option Nat) : Nat := if key.isSome then 8180 else 8192

/-- The segments of a message (R421). -/
def msgSegments (m : Msg) (key : Option Nat) : Nat := max 1 (ceilDiv (msgPayloadBytes m) (segmentCap key))

/-- The bytes of the IPv6 packet that carries one segment: IPv6 and UDP headers, the MST header, the payload, and with protection the
nonce and the tag. -/
def msgSegmentBytes (m : Msg) (key : Option Nat) (i : Nat) : Nat :=
  112 + (if key.isSome then 28 else 0) + min (segmentCap key) (msgPayloadBytes m - segmentCap key * i)

/-- The datagrams of a message on its flow. -/
def msgDatagrams (m : Msg) (key : Option Nat) (peer firstSeq : Nat) : List Datagram :=
  (List.range (msgSegments m key)).map (fun i =>
    { peer := peer, tenant := m.tenant, seq := firstSeq + i, seg := i, last := decide (i + 1 = msgSegments m key), msg := m,
      bytes := msgSegmentBytes m key i, key := key })

/-- A message sent (R421 to R425): segmented, each segment given the next SEQ of its flow and held until it has a credit. An
acknowledgement is no datagram of the sequence. Nothing is sent while NW_CTRL.EN is 0, nor to an endpoint that is not
configured. -/
def State.send (s : State) (m : Msg) : State :=
  let configured := if m.dst = 0xF000 then s.on (Fld.NW_EP_PORTS_GW_EN m.tenant)
    else if m.dst = 0xF001 then s.on (Fld.NW_EP_PORTS_TOOL_EN m.tenant) else true
  if !s.on Fld.NW_CTRL_EN || !configured then s
  else
    let k := flowKey m.dst m.tenant
    let x := s.flow k
    let key := s.msgKey m
    if m.type = 0x40 then (msgDatagrams m key m.dst 0).foldl (fun s d => s.enqueue d) s
    else
      let ds := msgDatagrams m key m.dst x.nextSeq
      let started := if x.unacked.isEmpty && x.waiting.isEmpty then s.now else x.lastAck
      (s.setFlow k { x with nextSeq := x.nextSeq + ds.length, waiting := x.waiting ++ ds, lastAck := started }).pump k

/-- A device message to another device (R422). -/
def State.sendDevice (s : State) (type dst tenant handle msgId aux : Nat) : State :=
  s.send { type := type, src := s.deviceId, dst := dst, tenant := tenant, handle := handle, msgId := msgId, aux := aux }

/-- OWNER_NOTICE to every other member of the Yard map and to the tenant's gateway and tool endpoint (R429). -/
def State.publishOwner (s : State) (tenant newHandle epoch oldDev oldHandle : Nat) : State :=
  (s.otherMembers ++ [0xF000, 0xF001]).foldl (fun s d =>
    s.send { type := 0x0B, src := s.deviceId, dst := d, tenant := tenant, msgId := newHandle, aux := epoch,
             payload := bytesOf 2 s.deviceId ++ bytesOf 2 oldDev ++ bytesOf 8 oldHandle }) s

/-- Datagrams taken off every port. -/
def State.unqueue (s : State) (gone : Datagram → Bool) : State :=
  let s := s.net.control.foldl (fun s e => s.setControl e.1 (e.2.filter (fun d => !gone d))) s
  s.net.queues.foldl (fun s e => if e.2.items.any gone then s.setItems e.1 (e.2.items.filter (fun d => !gone d)) else s) s

/-- A migration's image transfer paused (R65): its datagrams that were never sent leave the ports. -/
def State.pauseTransfer (s : State) (dst : Nat) : State :=
  let mine (d : Datagram) : Bool := decide (d.tries = 0) && s.transferPaused d.msg
  let s := s.unqueue mine
  let k := flowKey dst 0
  let x := s.flow k
  s.setFlow k { x with unacked := x.unacked.map (fun d => if mine d then { d with queued := false } else d) }

/-- It goes on from where it stopped (R65). -/
def State.resumeTransfer (s : State) (dst : Nat) : State :=
  let k := flowKey dst 0
  let s := ((s.flow k).unacked.filter (fun d => decide (d.msg.type = 0x01 ∧ d.tries = 0) && !d.queued)).foldl (fun s d => s.enqueue d) s
  s.pump k

/-- A flow reset (R426): what it has not acknowledged is discarded, credits and SEQ start again. -/
def State.resetFlow (s : State) (k : Nat) : State :=
  let s := s.unqueue (fun d => decide (flowKey d.peer d.tenant = k))
  { s with net := { s.net with
      flows := sparseErase k s.net.flows
      unaccepted := s.net.unaccepted.filter (fun u => flowKey u.1.dst u.1.tenant ≠ k) } }

end Sys2Proof.Machine
end

