-- ==== Sys2Proof/Machine/ShedOps.lean ====
section
/-! DEFINITION. The Shed: ports in service, Shed addresses and bands, the block books, and the dirty limit (R56, R60, R132 to
R139). -/

namespace Sys2Proof.Machine

def State.shedPort (s : State) (p : Nat) : ShedPort := sparseGet {} s.shed p
def State.setShedPort (s : State) (p : Nat) (x : ShedPort) : State := { s with shed := sparsePut {} p x s.shed }

/-- Whether port `p` is in write service (R132, R139). -/
def State.portWritable (s : State) (p : Nat) : Bool := s.on (Fld.SH_PORT_INFO_IN_SERVICE p)

/-- Whether port `p` can be read: in service, or trained and read-only (R139). -/
def State.portReadable (s : State) (p : Nat) : Bool := s.portWritable p || s.on (Fld.SH_PORT_INFO_READ_ONLY p)

/-- The ports in write service, as a bit set. -/
def State.writablePorts (s : State) : Nat :=
  ((List.range 8).filter (fun p => s.portWritable p)).foldl (fun m p => m + 2 ^ p) 0

/-- STL_DIRTY_MAX for the ports in write service (R60): the largest multiple of 64 MiB not above N × 409,600,000 B. -/
def State.dirtyMaxNow (s : State) : Nat := popCount 8 s.writablePorts * 409600000 / 2 ^ 26 * 2 ^ 26

/-- STL_DIRTY_MAX recomputed after a port entered or left write service (R60). -/
def State.recomputeDirtyMax (s : State) : State := s.put Fld.STL_DIRTY_MAX_MAX s.dirtyMaxNow

/-- The dirty limit in force (R60): the smaller of the value kept and STL_DIRTY_MAX. -/
def State.dirtyLimit (s : State) : Nat := min (s.get Fld.STL_DIRTY_LIMIT_LIMIT) (s.get Fld.STL_DIRTY_MAX_MAX)

/-- The ports a journal is written on (R56): those of the mask in write service, else those of STL_JOURNAL_PORTS in write
service, else every port in write service. -/
def State.journalPorts (s : State) (mask : Nat) : Nat :=
  let w := s.writablePorts
  if mask &&& w ≠ 0 then mask &&& w
  else if s.get Fld.STL_JOURNAL_PORTS_PORTS &&& w ≠ 0 then s.get Fld.STL_JOURNAL_PORTS_PORTS &&& w
  else w

/-- The data bytes of one band of port `p` (R133, R135): 16 channels' blocks of 16 KiB pages, at most 32,768 pages (R134). -/
def State.bandBytes (s : State) (p : Nat) : Nat := min (16 * s.get (Fld.SH_PORT_INFO_PAGES p)) 32768 * 16384

/-- The free block with the lowest erase count on a channel (R137), by its index in the port's list. -/
def freshBlock (blocks : List EraseBlock) (ch : Nat) : Option Nat :=
  ((List.range blocks.length).filter (fun i => match blocks[i]? with
    | some b => b.channel = ch && b.state = .free
    | none => false)).foldl (fun best i => match best with
      | none => some i
      | some j => match blocks[i]?, blocks[j]? with
        | some b, some c => if b.erases < c.erases then some i else some j
        | _, _ => some j) none

/-- Blocks of the list at the given places set to a state. -/
def setBlocks (st : BlockState) (idx : List Nat) (blocks : List EraseBlock) : List EraseBlock :=
  (List.range blocks.length).filterMap (fun i => (blocks[i]?).map (fun b => if idx.contains i then { b with state := st } else b))

/-- The over-provisioning that training holds back: 12% of the good blocks, rounded up (R139). -/
def heldBack (good : Nat) : Nat := ceilDiv (12 * good) 100

/-- The bands that a port's capacity holds (R139). -/
def ShedPort.capacity (x : ShedPort) : Nat := (x.goodAtTrain - heldBack x.goodAtTrain) / 16

/-- The bands of port `p` withheld for the checkpoint slots: 1 to this number (R578). -/
def State.withheldBands (s : State) (p : Nat) : Nat :=
  if (s.get Fld.CP_SLOT_CFG_PORTS).testBit p then 2 * s.get Fld.CP_SLOT_CFG_BANDS else 0

/-- Stale blocks erased (R135): each counts one erase more and is free. -/
def eraseStale (blocks : List EraseBlock) : List EraseBlock :=
  blocks.map (fun b => if b.state = .stale then { b with state := .free, erases := b.erases + 1, reads := 0 } else b)

/-- Band `b` bound to one free block of each channel (R135, R137); none where a channel has no free block. -/
def ShedPort.bindBand (b : Nat) (x : ShedPort) : Option ShedPort :=
  let picks := (List.range 16).map (freshBlock x.blocks)
  if picks.any (·.isNone) then none
  else
    let idx := picks.filterMap id
    some { x with blocks := setBlocks .valid idx x.blocks, bands := sparseInsert b { blocks := idx } x.bands }

/-- The bands without valid data that are not open count as stale (R135). -/
def ShedPort.dropEmpty (x : ShedPort) : ShedPort :=
  let gone (b : Nat × Band) : Bool := decide (b.2.valid = 0) && decide (x.openBand ≠ some b.1)
  { x with bands := x.bands.filter (fun b => !gone b), blocks := setBlocks .stale ((x.bands.filter gone).flatMap (fun b => b.2.blocks)) x.blocks }

/-- A new band opened (R135, R137): its number is the lowest that no band has and no slot withholds; none beyond the port's
capacity. Stale blocks are erased first where a channel has no free block; the band that was open counts as stale where it holds no valid data. -/
def ShedPort.openNew (withheld : Nat) (x : ShedPort) : Option ShedPort :=
  if x.capacity ≤ x.bands.length + withheld then none
  else match firstBelow (fun b => !(x.bands.any (fun e => e.1 = b)) && (b = 0 || decide (withheld < b))) (2 ^ 30) with
  | none => none
  | some b =>
    ((x.bindBand b) <|> ({ x with blocks := eraseStale x.blocks }.bindBand b)).map (fun y => { y with openBand := some b }.dropEmpty)

/-- Room for an extent of `len` bytes on port `p`: its Shed address (R134, R136), the port's open band extended. -/
def State.shedTake (s : State) (p len : Nat) : Option (Nat × State) :=
  let x := s.shedPort p
  let fresh := (x.openNew (s.withheldBands p)).bind (fun y => y.openBand.map (·, y))
  let ready := match x.openBand with
    | some b => if (sparseGet ({} : Band) x.bands b).written + len ≤ s.bandBytes p then some (b, x) else fresh
    | none => fresh
  match ready with
  | none => none
  | some (b, y) =>
    let band := sparseGet ({} : Band) y.bands b
    let addr := p * 2 ^ 59 + b * 2 ^ 29 + band.written
    some (addr, s.setShedPort p { y with
      bands := sparseInsert b { band with written := band.written + len, valid := band.valid + len } y.bands })

/-- Bytes of a band superseded (R135): a band whose last valid data is superseded counts as stale. -/
def State.shedRelease (s : State) (addr len : Nat) : State :=
  let p := addr / 2 ^ 59 % 8
  let b := addr / 2 ^ 29 % 2 ^ 30
  let x := s.shedPort p
  let band := sparseGet ({} : Band) x.bands b
  s.setShedPort p { x with bands := sparseInsert b { band with valid := band.valid - len } x.bands }.dropEmpty

/-- The Shed address of the first page that lies on block `k` of port `p` (R134, R135): page n of a band lies on channel n mod 16. -/
def ShedPort.blockAddress (p k : Nat) (x : ShedPort) : Option Nat :=
  (x.bands.find? (fun b => b.2.blocks.contains k)).map (fun b => p * 2 ^ 59 + b.1 * 2 ^ 29 + b.2.blocks.findIdx (fun j => j = k) * 2 ^ 14)

/-- The erase block that holds a Shed address, and the page in it (R135). -/
def State.blockAt (s : State) (addr : Nat) : Option (Nat × Nat) :=
  let page := addr / 2 ^ 14 % 2 ^ 15
  let band := sparseGet ({} : Band) (s.shedPort (addr / 2 ^ 59 % 8)).bands (addr / 2 ^ 29 % 2 ^ 30)
  (band.blocks[page % 16]?).map (fun k => (k, page / 16))

/-- The 18,432 bytes stored in the flash page at a Shed address (R133): 256 blocks of the stall code, each in the domain of the data it holds and under that domain's
keys; `data` is the page's 16 KiB. -/
def State.flashPage (s : State) (domain : Nat → Option Nat) (addr : Nat) (data : List Byte) : List Byte :=
  (List.range 256).flatMap (fun i =>
    storedBlock (s.domainKeys ((domain i).getD 0)) (domain i) (addr + 64 * i) ((data.drop (64 * i) ++ List.replicate 64 0).take 64))
/-- A port's block book (R135): total, free, valid, stale, bad. -/
def ShedPort.book (x : ShedPort) (j : Nat) : Nat :=
  let n (st : BlockState) : Nat := (x.blocks.filter (fun b => b.state = st)).length
  match j with
  | 0 => x.blocks.length | 1 => n .free | 2 => n .valid | 3 => n .stale | 4 => n .bad | _ => 0

end Sys2Proof.Machine
end

