-- ==== Sys2Proof/Machine/TextOps.lean ====
section
/-! DEFINITION. The text and grammar engines as functions over Tier 1 (R150 to R176): configuration checks, tokenising,
detokenising, stop strings, grammar walks and masks. -/

namespace Sys2Proof.Machine

/-- Fields of `n` bytes read in a domain as a little-endian number. -/
def State.readNat (s : State) (domain addr n : Nat) : Except Nat Nat := (s.readT1 domain addr n).map natOfBytes

/-! ### Vocabulary (R153 to R155) -/

/-- Whether tenant `t` uses table mode (R150). -/
def State.tableMode (s : State) (t : Nat) : Bool := s.on (Fld.TX_CFG_MODE t)

/-- The vocabulary size (R163): VOCAB_COUNT in table mode, 320 in byte mode. -/
def State.vocabSize (s : State) (t : Nat) : Nat := if s.tableMode t then s.get (Fld.TX_CFG_VOCAB_COUNT t) else 320

/-- A vocabulary entry (R154). -/
structure VocabEntry where
  offset : Nat
  length : Nat
  special : Bool
deriving DecidableEq, Repr

def State.vocabEntry (s : State) (t tok : Nat) : Except Nat VocabEntry :=
  (s.readNat t (s.get (Fld.TX_VOCAB_BASE t) + 8 * tok) 8).map (fun v =>
    ⟨v % 2 ^ 40, v / 2 ^ 40 % 256, v / 2 ^ 48 % 2 = 1⟩)

/-- A token's bytes (R162), or the status of the read that failed. -/
def State.tokenBytes (s : State) (t tok : Nat) : Except Nat (List Byte) :=
  if s.tableMode t then
    match s.vocabEntry t tok with
    | .error e => .error e
    | .ok v => if v.length = 0 then .ok [] else s.readT1 t (s.get (Fld.TX_POOL_BASE t) + v.offset) v.length
  else .ok (if tok < 256 then [BitVec.ofNat 8 tok] else [])

/-- Entry `b` of BYTE_MAP (R155). -/
def State.byteMap (s : State) (t b : Nat) : Except Nat Nat := s.readNat t (s.get (Fld.TX_TABLES_BASE t) + 4 * b) 4

/-- The framing and call tokens of a tenant (R153, R152): a value at or above 0x10_0000 means none. -/
def State.callToken (s : State) (t : Nat) (byteSymbol : Nat) (f : RegField) : Option Nat :=
  if s.tableMode t then (if s.get f < 0x100000 then some (s.get f) else none) else some byteSymbol

def State.toolOpen (s : State) (t : Nat) : Option Nat := s.callToken t 257 (Fld.TX_TOOLTOK_TOOL_OPEN t)
def State.toolClose (s : State) (t : Nat) : Option Nat := s.callToken t 258 (Fld.TX_TOOLTOK_TOOL_CLOSE t)
def State.resultOpen (s : State) (t : Nat) : Option Nat := s.callToken t 259 (Fld.TX_RESTOK_RESULT_OPEN t)
def State.resultClose (s : State) (t : Nat) : Option Nat := s.callToken t 260 (Fld.TX_RESTOK_RESULT_CLOSE t)

/-- The checks of R152 on a table-mode configuration. -/
def State.textConfigOk (s : State) (t : Nat) : Bool :=
  let n := s.get (Fld.TX_CFG_VOCAB_COUNT t)
  let slots := s.get (Fld.TX_MERGE_LOG2_SLOTS t)
  let tokOk (f : RegField) : Bool := decide (s.get f < n) || decide (0x100000 ≤ s.get f)
  decide (1 ≤ n ∧ n ≤ 1048576) && decide (10 ≤ slots ∧ slots ≤ 26) &&
    tokOk (Fld.TX_TOOLTOK_TOOL_OPEN t) && tokOk (Fld.TX_TOOLTOK_TOOL_CLOSE t) &&
    tokOk (Fld.TX_RESTOK_RESULT_OPEN t) && tokOk (Fld.TX_RESTOK_RESULT_CLOSE t) &&
    (List.range 256).all (fun b =>
      match s.byteMap t b with
      | .error _ => false
      | .ok tok => decide (tok < n) &&
        (match s.vocabEntry t tok with
         | .error _ => false
         | .ok v => decide (v.length = 1) && !v.special &&
           (match s.readT1 t (s.get (Fld.TX_POOL_BASE t) + v.offset) 1 with
            | .ok [x] => decide (x.toNat = b)
            | _ => false)))

/-! ### Tokenising (R156, R157) -/

/-- What a lookup of a pair in the merge table finds: nothing, a usable merge (rank, result), or a merge whose RESULT is at or
above VOCAB_COUNT, which raises EV_TX_BAD_TOKEN. -/
inductive MergeFound where
  | absent | merge (rank result : Nat) | badToken
deriving DecidableEq, Repr

/-- The probe of the merge table from slot `i`, at most `fuel` slots (R156). -/
def State.mergeProbe (s : State) (t x y : Nat) : (fuel i : Nat) → Except Nat MergeFound
  | 0, _ => .ok .absent
  | fuel + 1, i =>
    let size := 2 ^ s.get (Fld.TX_MERGE_LOG2_SLOTS t)
    match s.readNat t (s.get (Fld.TX_MERGE_BASE t) + 16 * (i % size)) 16 with
    | .error e => .error e
    | .ok v =>
      if v / 2 ^ 96 = 0xFFFFFFFF then .ok .absent
      else if v % 2 ^ 32 = x ∧ v / 2 ^ 32 % 2 ^ 32 = y then
        let result := v / 2 ^ 64 % 2 ^ 32
        if s.get (Fld.TX_CFG_VOCAB_COUNT t) ≤ result then .ok .badToken
        else match s.vocabEntry t result with
          | .error e => .error e
          | .ok e => if e.special then .ok .absent else .ok (.merge (v / 2 ^ 96) result)
      else s.mergeProbe t x y fuel (i + 1)

/-- A pair's merge, from its home slot (R156). -/
def State.mergeOf (s : State) (t x y : Nat) : Except Nat MergeFound :=
  let k := s.get (Fld.TX_MERGE_LOG2_SLOTS t)
  let home := ((x * 2 ^ 20 + y) * 0x9E3779B97F4A7C15 % 2 ^ 64) / 2 ^ (64 - k)
  s.mergeProbe t x y (2 ^ k) home

/-- A token of the sequence being merged, with the first and last input byte it stands for. -/
structure Piece where
  tok : Nat
  first : Nat
  last : Nat
deriving DecidableEq, Repr

/-- Whether a boundary lies between byte values `x` and `y` (R155). -/
def State.splitBetween (s : State) (t x y : Nat) : Except Nat Bool :=
  let base := s.get (Fld.TX_TABLES_BASE t)
  match s.readNat t (base + 1024 + x) 1, s.readNat t (base + 1024 + y) 1 with
  | .ok cx, .ok cy => (s.readNat t (base + 1280 + 2 * (cx % 16)) 2).map (fun row => row.testBit (cy % 16))
  | .error e, _ => .error e
  | _, .error e => .error e

/-- The merge of an adjacent pair, if it may be considered (R157 steps 2 and 3). -/
def State.pairMerge (s : State) (t : Nat) (a b : Piece) : Except Nat MergeFound :=
  if s.on (Fld.TX_TABLES_SPLIT_EN t) then
    match s.splitBetween t a.last b.first with
    | .error e => .error e
    | .ok true => .ok .absent
    | .ok false => s.mergeOf t a.tok b.tok
  else s.mergeOf t a.tok b.tok

/-- The lowest-ranked merge of the sequence, the leftmost on a tie: its rank, index and result, and whether a bad token was
met. -/
def State.bestMerge (s : State) (t : Nat) : (i : Nat) → List Piece → Except Nat (Option (Nat × Nat × Nat) × Bool)
  | i, a :: b :: rest =>
    match s.pairMerge t a b, s.bestMerge t (i + 1) (b :: rest) with
    | .error e, _ => .error e
    | _, .error e => .error e
    | .ok .absent, .ok r => .ok r
    | .ok .badToken, .ok r => .ok (r.1, true)
    | .ok (.merge rank result), .ok (none, bad) => .ok (some (rank, i, result), bad)
    | .ok (.merge rank result), .ok (some m, bad) =>
      if m.1 < rank then .ok (some m, bad) else .ok (some (rank, i, result), bad)
  | _, _ => .ok (none, false)

/-- The pair at index `i` replaced by one token. -/
def mergeAt (result : Nat) : (i : Nat) → List Piece → List Piece
  | 0, a :: b :: rest => ⟨result, a.first, b.last⟩ :: rest
  | i + 1, a :: rest => a :: mergeAt result i rest
  | _, l => l

/-- The merging of R157 step 2, at most `fuel` merges. -/
def State.mergeAll (s : State) (t : Nat) : (fuel : Nat) → List Piece → Bool → Except Nat (List Piece × Bool)
  | 0, l, bad => .ok (l, bad)
  | fuel + 1, l, bad =>
    match s.bestMerge t 0 l with
    | .error e => .error e
    | .ok (none, b) => .ok (l, bad || b)
    | .ok (some (_, i, result), b) => s.mergeAll t fuel (mergeAt result i l) (bad || b)

/-- The BYTE_MAP tokens of input bytes (R157 step 1). -/
def State.byteTokens (s : State) (t : Nat) : List Byte → Except Nat (List Piece)
  | [] => .ok []
  | b :: bs =>
    match s.byteMap t b.toNat, s.byteTokens t bs with
    | .ok tok, .ok rest => .ok (⟨tok, b.toNat, b.toNat⟩ :: rest)
    | .error e, _ => .error e
    | _, .error e => .error e

/-- Input bytes tokenised (R153, R157): the tokens, and whether a merge named a token at or above VOCAB_COUNT; or the status of
the read that could not be completed (R634). -/
def State.tokenise (s : State) (t : Nat) (bytes : List Byte) : Except Nat (List Nat × Bool) :=
  if s.tableMode t then
    match s.byteTokens t bytes with
    | .error e => .error e
    | .ok l => (s.mergeAll t l.length l false).map (fun r => (r.1.map (·.tok), r.2))
  else .ok (bytes.map (·.toNat), false)

/-! ### Stop strings (R164 to R166) -/

/-- The stop set at an address (R164): its strings; CS_BAD_COMMAND for a malformed set, else the status of its read. -/
def State.stopSet (s : State) (t addr : Nat) : Except Nat (List (List Byte)) :=
  match s.readT1 t addr 64 with
  | .error e => .error e
  | .ok hd =>
    let count := recGet hd 4 1
    if recGet hd 0 4 ≠ 0x53544F50 || count = 0 || 64 < count then .error CS.badCommand
    else match s.readT1 t (addr + 64) (64 * count) with
      | .error e => .error e
      | .ok body =>
        let entry (i : Nat) : List Byte := (body.drop (64 * i)).take 64
        if (List.range count).all (fun i => decide (1 ≤ recGet (entry i) 0 1 ∧ recGet (entry i) 0 1 ≤ 48)) then
          .ok ((List.range count).map (fun i => ((entry i).drop 16).take (recGet (entry i) 0 1)))
        else .error CS.badCommand

/-- Whether string `p` ends the candidate stream's first `e` bytes. -/
def endsAt (stream p : List Byte) (e : Nat) : Bool := decide (p.length ≤ e) && (stream.take e).drop (e - p.length) == p

/-- The match that ends earliest, and among those ending at one byte the longest (R166 rule 1): the string's index and where it
ends. A match ends at a byte of the current token, past the `held` bytes. -/
def stopMatch (strings : List (List Byte)) (stream : List Byte) (held : Nat) : Option (Nat × Nat) :=
  ((List.range (stream.length - held)).map (fun i => held + 1 + i)).findSome? (fun e =>
    ((List.range strings.length).filter (fun i => endsAt stream (strings.getD i []) e)).foldl
      (fun best i => match best with
        | none => some (i, e)
        | some b => if (strings.getD b.1 []).length < (strings.getD i []).length then some (i, e) else some b) none)

/-- The length of the longest suffix of the stream that is a proper prefix of some string (R166 rule 3). -/
def heldLength (strings : List (List Byte)) (stream : List Byte) : Nat :=
  ((List.range (min 47 stream.length)).map (fun i => min 47 stream.length - i)).findSome? (fun k =>
    if strings.any (fun p => decide (k < p.length) && p.take k == stream.drop (stream.length - k)) then some k else none)
    |>.getD 0

/-! ### Grammar (R170 to R176) -/

/-- The checked header of a grammar image (R170). -/
structure GrammarImage where
  base : Nat
  states : Nat
  start : Nat
  vocab : Nat
  maxPush : Nat
  stateOff : Nat
  transOff : Nat
  bytes : Nat
deriving DecidableEq, Repr

/-- The header of the image at an address, checked under R173. -/
def State.grammarImage (s : State) (t addr : Nat) : Except Nat GrammarImage :=
  match s.readT1 t addr 64 with
  | .error e => .error e
  | .ok h =>
    let g : GrammarImage := ⟨addr, recGet h 4 4, recGet h 8 4, recGet h 12 4, recGet h 16 4, recGet h 24 8, recGet h 32 8,
      recGet h 40 8⟩
    if recGet h 0 4 ≠ 0x47524D31 || g.states = 0 || 16777216 < g.states || g.states ≤ g.start || g.vocab ≠ s.vocabSize t ||
      hiveBytes < offsetOf addr + g.bytes then .error CS.badCommand
    else .ok g

/-- Bytes of an image at an offset: none where any of them lies beyond IMAGE_BYTES or cannot be read (R173). -/
def State.imageBytes (s : State) (t : Nat) (g : GrammarImage) (off n : Nat) : Option (List Byte) :=
  if n = 0 then some []
  else if g.bytes < off + n then none
  else match s.readT1 t (g.base + off) n with
    | .ok b => some b
    | .error _ => none

/-- A transition (R172). -/
structure Transition where
  lo : Nat
  hi : Nat
  call : Bool
  target : Nat
  ret : Nat
deriving DecidableEq, Repr

/-- A state record with its transitions (R171, R172). -/
structure GrammarState where
  transitions : List Transition
  accept : Bool
  exits : Bool
  specialsOk : Bool
  maskForm : Nat
  maskOff : Nat
  maskCount : Nat
  depCount : Nat
  depOff : Nat
deriving DecidableEq, Repr

/-- A transition read and checked; none where it is malformed (R173). -/
def State.grammarTransition (s : State) (t : Nat) (g : GrammarImage) (i : Nat) : Option Transition :=
  match s.imageBytes t g (g.transOff + 16 * i) 16 with
  | none => none
  | some b =>
    let tr : Transition := ⟨recGet b 0 1, recGet b 1 1, recGet b 2 1 = 1, recGet b 4 4, recGet b 8 4⟩
    if 1 < recGet b 2 1 || g.states ≤ tr.target || (tr.call && decide (g.states ≤ tr.ret)) then none else some tr

/-- A state record read and checked with its transitions; none where anything is malformed (R173). -/
def State.grammarState (s : State) (t : Nat) (g : GrammarImage) (q : Nat) : Option GrammarState :=
  match s.imageBytes t g (g.stateOff + 32 * q) 32 with
  | none => none
  | some b =>
    let count := recGet b 4 2
    if g.states ≤ q || 256 < count || 2 < recGet b 7 1 then none
    else match ((List.range count).map (fun i => s.grammarTransition t g (recGet b 0 4 + i))).foldr
        (fun o acc => match o, acc with | some x, some l => some (x :: l) | _, _ => none) (some []) with
      | none => none
      | some trs => some ⟨trs, (recGet b 6 1).testBit 0, (recGet b 6 1).testBit 1, (recGet b 6 1).testBit 2, recGet b 7 1,
          recGet b 8 8, recGet b 16 4, recGet b 20 4, recGet b 24 8⟩

/-- A grammar configuration: the state and the stack, the newest return state first. -/
structure GrammarConfig where
  q : Nat
  stack : List Nat
deriving DecidableEq, Repr

/-- How a walk ends (R174). -/
inductive Walk where
  | at_ (c : GrammarConfig) | fails | malformed
deriving DecidableEq, Repr

/-- One byte of a walk, with at most `fuel` pops (R174). -/
def State.walkByte (s : State) (t : Nat) (g : GrammarImage) (b : Nat) : (fuel : Nat) → GrammarConfig → Walk
  | 0, _ => .fails
  | fuel + 1, c =>
    match s.grammarState t g c.q with
    | none => .malformed
    | some st =>
      match st.transitions.find? (fun tr => decide (tr.lo ≤ b ∧ b ≤ tr.hi)) with
      | some tr =>
        if tr.call then (if 256 ≤ c.stack.length then .fails else .at_ ⟨tr.target, tr.ret :: c.stack⟩)
        else .at_ ⟨tr.target, c.stack⟩
      | none =>
        match st.exits, c.stack with
        | true, r :: rest => s.walkByte t g b fuel ⟨r, rest⟩
        | _, _ => .fails

/-- A walk over bytes (R174). -/
def State.walk (s : State) (t : Nat) (g : GrammarImage) : List Byte → GrammarConfig → Walk
  | [], c => .at_ c
  | b :: bs, c =>
    match s.walkByte t g b.toNat 257 c with
    | .at_ c' => s.walk t g bs c'
    | w => w

/-- Popping return states while the state has EXIT reaches ACCEPT with an empty stack (R175, END_TOKEN). -/
def State.acceptsEnd (s : State) (t : Nat) (g : GrammarImage) : (fuel : Nat) → GrammarConfig → Option Bool
  | 0, _ => some false
  | fuel + 1, c =>
    match s.grammarState t g c.q with
    | none => none
    | some st =>
      match c.stack with
      | [] => some st.accept
      | r :: rest => if st.exits then s.acceptsEnd t g fuel ⟨r, rest⟩ else some false

/-- Whether a token list is strictly ascending and below the vocabulary size (R171). -/
def tokenListOk (vocab : Nat) : List Nat → Bool
  | [] => true
  | [a] => decide (a < vocab)
  | a :: b :: rest => decide (a < b) && tokenListOk vocab (b :: rest)

/-- A token list of an image; none where malformed (R173). -/
def State.tokenList (s : State) (t : Nat) (g : GrammarImage) (off count : Nat) : Option (List Nat) :=
  match s.imageBytes t g off (4 * count) with
  | none => none
  | some b =>
    let l := (List.range count).map (fun i => recGet b (4 * i) 4)
    if tokenListOk g.vocab l then some l else none

/-- A state's mask and dependent list, read in full (R173): which tokens the mask names, and the dependent list. -/
def State.stateMask (s : State) (t : Nat) (g : GrammarImage) (st : GrammarState) : Option ((Nat → Bool) × List Nat) :=
  match s.tokenList t g st.depOff st.depCount with
  | none => none
  | some dep =>
    if st.maskForm = 0 then
      (s.imageBytes t g st.maskOff ((g.vocab + 7) / 8)).map (fun b =>
        ((fun tok => (recGet b (tok / 8) 1).testBit (tok % 8)), dep))
    else
      (s.tokenList t g st.maskOff st.maskCount).map (fun l =>
        ((fun tok => if st.maskForm = 1 then l.contains tok else !l.contains tok), dep))

/-- A position's mask (R175, R176): the tokens allowed, whether it was built on the slow path, and whether something was
malformed, which makes it empty (R173). -/
structure Mask where
  allowed : List Nat
  slow : Bool
  malformed : Bool
deriving DecidableEq, Repr

/-- Whether one token is allowed at a configuration by the rows of R175; none where a record used is malformed. -/
def State.tokenAllowed (s : State) (t : Nat) (g : GrammarImage) (c : GrammarConfig) (st : GrammarState)
    (mask : Nat → Bool) (dep : List Nat) (slow : Bool) (endToken tok : Nat) : Option Bool :=
  let walks (bytes : List Byte) : Option Bool :=
    match s.walk t g bytes c with
    | .at_ _ => some true
    | .fails => some false
    | .malformed => none
  match s.tokenBytes t tok with
  | .error _ => some (!dep.contains tok && !slow && mask tok)
  | .ok bytes =>
    if tok = endToken then s.acceptsEnd t g 258 c
    else if bytes.isEmpty then some st.specialsOk
    else if dep.contains tok then walks bytes
    else if mask tok then (if slow then walks bytes else some true)
    else some false

/-- The mask at a configuration. -/
def State.maskAt (s : State) (t : Nat) (g : GrammarImage) (c : GrammarConfig) (endToken : Nat) : Mask :=
  match s.grammarState t g c.q with
  | none => ⟨[], false, true⟩
  | some st =>
    match s.stateMask t g st with
    | none => ⟨[], false, true⟩
    | some (mask, dep) =>
      let slow := decide (256 < c.stack.length + g.maxPush)
      let judged := (List.range g.vocab).map (fun tok => (tok, s.tokenAllowed t g c st mask dep slow endToken tok))
      if judged.any (fun j => j.2 = none) then ⟨[], false, true⟩
      else ⟨(judged.filter (fun j => j.2 = some true)).map (·.1), slow, false⟩

/-! ### The vocabulary cache (R158)

An operation of the text and grammar engines looks up the 64-byte lines of the entries that it consults, in the order in which its definition does. -/

/-- The lines that `n` bytes from an address lie in. -/
def linesAt (addr n : Nat) : List Nat := blocksOf addr n

/-- The lines of a token's vocabulary entry and bytes. -/
def State.tokenLines (s : State) (t tok : Nat) : List Nat :=
  if !s.tableMode t then []
  else linesAt (s.get (Fld.TX_VOCAB_BASE t) + 8 * tok) 8 ++ (match s.vocabEntry t tok with
    | .ok v => linesAt (s.get (Fld.TX_POOL_BASE t) + v.offset) v.length
    | .error _ => [])

/-- The lines of the merge slots that a probe reads, and of the entry of the merge it finds (R156). -/
def State.probeLines (s : State) (t x y : Nat) : (fuel i : Nat) → List Nat
  | 0, _ => []
  | fuel + 1, i =>
    let at_ := s.get (Fld.TX_MERGE_BASE t) + 16 * (i % 2 ^ s.get (Fld.TX_MERGE_LOG2_SLOTS t))
    linesAt at_ 16 ++ (match s.readNat t at_ 16 with
      | .error _ => []
      | .ok v =>
        if v / 2 ^ 96 = 0xFFFFFFFF then []
        else if v % 2 ^ 32 = x ∧ v / 2 ^ 32 % 2 ^ 32 = y then linesAt (s.get (Fld.TX_VOCAB_BASE t) + 8 * (v / 2 ^ 64 % 2 ^ 32)) 8
        else s.probeLines t x y fuel (i + 1))

/-- The lines consulted for an adjacent pair (R155, R157). -/
def State.pairLines (s : State) (t : Nat) (a b : Piece) : List Nat :=
  let k := s.get (Fld.TX_MERGE_LOG2_SLOTS t)
  let base := s.get (Fld.TX_TABLES_BASE t)
  (if s.on (Fld.TX_TABLES_SPLIT_EN t) then linesAt (base + 1024 + a.last) 1 ++ linesAt (base + 1024 + b.first) 1 ++ linesAt (base + 1280) 32 else []) ++
    s.probeLines t a.tok b.tok (2 ^ k) (((a.tok * 2 ^ 20 + b.tok) * 0x9E3779B97F4A7C15 % 2 ^ 64) / 2 ^ (64 - k))

/-- The lines consulted by the merging of R157, at most `fuel` merges. -/
def State.mergeLines (s : State) (t : Nat) : (fuel : Nat) → List Piece → List Nat
  | 0, _ => []
  | fuel + 1, l =>
    (List.zip l (l.drop 1)).flatMap (fun p => s.pairLines t p.1 p.2) ++ (match s.bestMerge t 0 l with
      | .ok (some (_, i, result), _) => s.mergeLines t fuel (mergeAt result i l)
      | _ => [])

/-- The lines consulted by tokenising bytes. -/
def State.tokeniseLines (s : State) (t : Nat) (bytes : List Byte) : List Nat :=
  if !s.tableMode t then []
  else bytes.flatMap (fun b => linesAt (s.get (Fld.TX_TABLES_BASE t) + 4 * b.toNat) 4) ++ (match s.byteTokens t bytes with
    | .ok l => s.mergeLines t l.length l
    | .error _ => [])

/-- One lookup (R158): a hit makes the line the most recently used; a miss reads the line into the cache, where it takes the place of the least recently used of its 131,072 lines. -/
def State.lookLine (s : State) (t line : Nat) : State :=
  if s.textCache.contains (t, line) then
    let s := s.bump Fld.TX_CACHE_HIT_COUNT 1
    { s with textCache := (t, line) :: s.textCache.filter (· ≠ (t, line)) }
  else
    let bad := (s.blockStatus t line).isSome
    let s := (s.bump Fld.TX_CACHE_MISS_COUNT 1).afterBlockRead t line
    if bad then s else { s with textCache := ((t, line) :: s.textCache).take 131072 }

/-- The lookups of an operation. -/
def State.lookUp (s : State) (t : Nat) (lines : List Nat) : State := lines.foldl (fun s l => s.lookLine t l) s

/-- Every line of a tenant dropped. -/
def State.dropText (s : State) (t : Nat) : State := { s with textCache := s.textCache.filter (fun e => e.1 ≠ t) }

end Sys2Proof.Machine
end

