-- ==== Sys2Proof/Machine/StallOps.lean ====
section
/-! DEFINITION. What the stall engine's meanings are written with: handles, the header and directory formats, the journal, page
tables, placement, and the transitions between states (R28 to R72, R79 to R113, R636). -/

namespace Sys2Proof.Machine

/-! ### Slots and handles (R28 to R31, R39) -/

/-- Slots of the stall directory (R33). -/
def stallSlots : Nat := 4194304

def State.stall (s : State) (i : Nat) : Stall := sparseGet {} s.stalls i
def State.setStall (s : State) (i : Nat) (x : Stall) : State := { s with stalls := sparsePut {} i x s.stalls }
def State.updHdr (s : State) (i : Nat) (f : Header → Header) : State :=
  s.setStall i { s.stall i with hdr := f (s.stall i).hdr }

/-- State codes (R39). -/
def stateCode : StallState → Nat
  | .free => 0 | .hot => 1 | .running => 2 | .waiting => 3 | .parked => 4 | .remote => 5 | .moving => 6 | .orphaned => 7
  | .retired => 8

/-- The state a code names; FREE for a reserved code. -/
def stallStateOf (n : Nat) : StallState :=
  match n with
  | 1 => .hot | 2 => .running | 3 => .waiting | 4 => .parked | 5 => .remote | 6 => .moving | 7 => .orphaned | 8 => .retired
  | _ => .free

/-- A stall handle (R28). -/
def stallHandle (index gen tenant kind : Nat) : Nat := index + gen * 2 ^ 22 + tenant * 2 ^ 54 + kind * 2 ^ 62

def handleIndex (h : Nat) : Nat := h % 2 ^ 22
def handleGen (h : Nat) : Nat := h / 2 ^ 22 % 2 ^ 32
def handleTenant (h : Nat) : Nat := h / 2 ^ 54 % 256
def handleKind (h : Nat) : Nat := h / 2 ^ 62 % 4

/-- The checks of R29 on a handle in tenant `t`'s name: the slot, or the status with result words 0 and 1. -/
def State.checkHandle (s : State) (t h : Nat) (remoteOk : Bool) : Except (Nat × Nat × Nat) Nat :=
  let i := handleIndex h
  let x := s.stall i
  if handleKind h = 3 || handleTenant h ≠ t then .error (CS.badHandle, 0, 0)
  else if x.state = .free || x.gen ≠ handleGen h || x.handle ≠ h then .error (CS.staleGeneration, 0, 0)
  else if x.state = .remote && !remoteOk then .error (CS.notOwner, x.ownerDev, x.headerAt)
  else .ok i

/-- The slot a message's handle names on this device, FREE and other generations apart. -/
def State.slotOf (s : State) (h : Nat) : Option Nat :=
  let i := handleIndex h
  if (s.stall i).state ≠ .free && (s.stall i).handle = h then some i else none

def State.stallTenant (s : State) (i : Nat) : Nat := (s.stall i).hdr.tenant

/-- The slots of the directory in a state. -/
def State.slotsIn (s : State) (st : StallState) : Nat :=
  if st = .free then stallSlots - sparseCount (fun x => decide (x.state ≠ .free)) s.stalls
  else sparseCount (fun x => decide (x.state = st)) s.stalls

/-- The slots of a tenant that are not FREE (R357). -/
def State.tenantStalls (s : State) (t : Nat) : Nat :=
  sparseCount (fun x => decide (x.state ≠ .free) && decide (x.hdr.tenant = t)) s.stalls

/-- Session stalls with shape `i` in every state except FREE and REMOTE (R78). -/
def State.shapeUse (s : State) (i : Nat) : Nat :=
  sparseCount (fun x => decide (x.state ≠ .free ∧ x.state ≠ .remote ∧ x.hdr.kind = 0 ∧ x.shape = i)) s.stalls

/-- Flags of the header (R37). -/
def flagOn (x : Stall) (b : Nat) : Bool := x.hdr.flags.testBit b
def setFlagBit (b : Nat) (v : Bool) (flags : Nat) : Nat :=
  if flags.testBit b = v then flags else if v then flags + 2 ^ b else flags - 2 ^ b

/-- A stall event naming its handle (R74). -/
def State.stallEvent (s : State) (code i : Nat) (detail : List Nat := []) : State :=
  s.raise { code := code, tenant := some (s.stallTenant i), object := (s.stall i).handle, detail := detail }

/-! ### Header and directory bytes (R33, R34) -/

/-- The 64 bytes of STOP_STATE (R165). -/
def stopBytes (x : StopState) : List Byte :=
  bytesOf 1 x.held ++ bytesOf 1 x.lastStop ++ bytesOf 1 x.inCall ++ bytesOf 1 0 ++ bytesOf 4 x.callBytes ++
    bytesOf 8 x.callId ++ (x.heldBytes ++ List.replicate 48 0).take 48

/-- A header's bytes 0x000 to 0xFEF (R34), with the STATE byte given. -/
def headerBody (h : Header) (state : Nat) : List Byte :=
  bytesOf 8 h.handle ++ bytesOf 1 state ++ bytesOf 1 h.kind ++ bytesOf 1 h.tenant ++ bytesOf 1 h.priority ++
  bytesOf 2 h.flags ++ bytesOf 1 h.deadPolicy ++ bytesOf 1 h.homeHive ++ bytesOf 8 h.committedLen ++ bytesOf 8 h.specLen ++
  bytesOf 8 h.step ++ bytesOf 4 h.lengthCap ++ bytesOf 4 h.endToken ++ bytesOf 16 h.seed ++ bytesOf 8 h.sampleCtr ++
  bytesOf 8 h.ndStall ++ bytesOf 8 h.grImage ++ bytesOf 4 h.grState ++ bytesOf 4 h.grSp ++ bytesOf 8 h.stopSet ++
  bytesOf 8 h.epoch ++ bytesOf 8 h.prepEpoch ++ bytesOf 8 h.leaseExpiry ++ bytesOf 2 h.ownerDev ++ bytesOf 2 h.peerDev ++
  bytesOf 1 h.migRole ++ bytesOf 1 h.migPhase ++ bytesOf 1 h.priorState ++ bytesOf 1 h.shedPorts ++ bytesOf 8 h.shedRoot ++
  bytesOf 8 h.ptRoot ++ bytesOf 8 h.waitTimeout ++ bytesOf 8 h.waitStart ++ bytesOf 8 h.toolCallId ++ bytesOf 8 h.journalLen ++
  bytesOf 8 h.journalSeq ++ bytesOf 8 h.dirtyBytes ++ bytesOf 2 h.budgetAccount ++ bytesOf 2 0 ++ bytesOf 4 h.stepReserve ++
  bytesOf 8 h.budgetUsed ++ bytesOf 8 h.createdYt ++ bytesOf 8 h.lastStepYt ++ bytesOf 8 h.orphanSince ++
  bytesOf 8 h.replaySig ++ bytesOf 8 h.shapeDims ++
  ((h.layerMap.map (BitVec.ofNat 8)) ++ List.replicate 256 0xFF).take 256 ++
  (bytesOf 2 h.spill.length ++ h.spill ++ List.replicate 254 0).take 256 ++ stopBytes h.stop ++
  List.replicate 0xC0 0 ++ (h.grStack.flatMap (bytesOf 4) ++ List.replicate 1024 0).take 1024 ++
  (h.notes ++ List.replicate 1792 0).take 1792 ++ List.replicate 0xF0 0

/-- The 4,096 bytes of a header with its tag under the tenant's keys (R34, R36). -/
def headerBytes (keys : List Byte) (h : Header) (state : Nat) : List Byte :=
  headerBody h state ++ bytesOf 16 (Config.mac keys (headerBody h state))

/-- The keys of tenant `t`'s Shed domain (R121). -/
def State.shedKeys (s : State) (t : Nat) : List Byte := s.domainKeys (256 + t)

/-- The 64 bytes of a directory entry (R33). -/
def directoryEntry (x : Stall) : List Byte :=
  bytesOf 8 x.handle ++ bytesOf 1 (stateCode x.state) ++ bytesOf 1 x.location ++ bytesOf 2 x.ownerDev ++ bytesOf 4 0 ++
    bytesOf 8 x.epoch ++ bytesOf 8 x.leaseExpiry ++ bytesOf 8 x.headerAt ++ bytesOf 1 x.shedPorts ++ List.replicate 23 0

/-! ### Shapes and pages (R75 to R88) -/

/-- Bytes of a record of shape `i`: 9 × E ÷ 16 (R79). -/
def State.shapeRec (s : State) (i : Nat) : Nat :=
  9 * (s.get (Fld.KV_SHAPE_LAT_WIDTH i) + s.get (Fld.KV_SHAPE_POS_WIDTH i)) / 16

/-- The tenant's latent shape index (R76). -/
def State.tenantShape (s : State) (t : Nat) : Nat := s.get (Fld.KV_TSHAPE_SHAPES (t / 16)) / 16 ^ (t % 16) % 16

/-- SHAPE_DIMS of a shape (R34). -/
def State.shapeDims (s : State) (shape : Nat) : Nat :=
  s.get (Fld.KV_SHAPE_LAT_WIDTH shape) + s.get (Fld.KV_SHAPE_POS_WIDTH shape) * 2 ^ 16 + s.get (Fld.KV_SHAPE_LAYERS shape) * 2 ^ 32

/-- The size code of page `j` (R82). -/
def pageCode (pageMin pageMax j : Nat) : Nat := min (pageMin + j) pageMax

/-- Records a page of a size code holds (R83). -/
def pageRecords (recBytes code : Nat) : Nat := if recBytes = 0 then 0 else (4096 * 2 ^ code - 64) / recBytes

/-- The records that the first `n` pages of a layer hold (R82, R83). -/
def recordsIn (pageMin pageMax recBytes : Nat) : (n : Nat) → Nat
  | 0 => 0
  | n + 1 => recordsIn pageMin pageMax recBytes n + pageRecords recBytes (pageCode pageMin pageMax n)

/-- SHAPE_CAP (R87). -/
def shapeCapOf (pageMin pageMax recBytes : Nat) : Nat := min 2097152 (recordsIn pageMin pageMax recBytes 512)

/-- The page and the record within it that hold position `t`, searching from page `j` with `base` records before it (R83). -/
def locate (pageMin pageMax recBytes t : Nat) : (fuel j base : Nat) → Option (Nat × Nat)
  | 0, _, _ => none
  | fuel + 1, j, base =>
    let cap := pageRecords recBytes (pageCode pageMin pageMax j)
    if t < base + cap then some (j, t - base) else locate pageMin pageMax recBytes t fuel (j + 1) (base + cap)

def PageTable.locate (p : PageTable) (t : Nat) : Option (Nat × Nat) :=
  Sys2Proof.Machine.locate p.pageMin p.pageMax p.recBytes t 512 0 0

/-- Pages that `n` positions need in a layer: the page of the last position, and one more. -/
def pagesFor (pageMin pageMax recBytes n : Nat) : Nat :=
  if n = 0 then 1
  else match locate pageMin pageMax recBytes (n - 1) 512 0 0 with
    | some (j, _) => j + 1
    | none => 512

/-- Granules of a page (R71, R81). -/
def pageGranules (code : Nat) : Nat := 2 ^ code

/-- The token limit N of a stall (R87). -/
def tokenLimit (x : Stall) : Nat :=
  match x.table with
  | some p => min x.hdr.lengthCap p.shapeCap
  | none => x.hdr.lengthCap

/-- The header bytes a page begins with (R83). -/
def pageHeader (handle scale first layer size shape : Nat) : List Byte :=
  bytesOf 8 handle ++ bytesOf 4 scale ++ bytesOf 4 first ++ bytesOf 1 layer ++ bytesOf 1 size ++ bytesOf 1 shape ++
    List.replicate 45 0

/-- Pages from number `j` on, `n` of them, taken on Hive `h` for owner `o` (R82, R89): none where one finds no room. -/
def State.takePages (s : State) (h : Nat) (o : Owner) (pageMin pageMax recBytes : Nat) :
    (n j : Nat) → Option (List Page × State)
  | 0, _ => some ([], s)
  | n + 1, j =>
    let code := pageCode pageMin pageMax j
    match s.alloc h (pageGranules code) (pageGranules code) o with
    | none => none
    | some (g, s') =>
      match s'.takePages h o pageMin pageMax recBytes n (j + 1) with
      | none => none
      | some (ps, s'') => some (⟨4096 * g, code, 0, recordsIn pageMin pageMax recBytes j⟩ :: ps, s'')

/-- A layer placed on Hive `h`: its page list and its pages for `n` positions (R86, R88). -/
def State.takeLayer (s : State) (h : Nat) (o : Owner) (pageMin pageMax recBytes n filled : Nat) : Option (Layer × State) :=
  match s.alloc h 1 1 o with
  | none => none
  | some (g, s') =>
    (s'.takePages h o pageMin pageMax recBytes (pagesFor pageMin pageMax recBytes n) 0).map (fun r =>
      (⟨4096 * g, r.1, filled⟩, r.2))

/-- Layers placed, each on the Hive its map entry names, or, where that Hive is no full Hive of the tenant's partition or has no
room, on Hive `pref` if it is one and has room, else on the full Hive with the most free pages (R51, R636). Answers the layers
and the map written. -/
def State.takeLayers (s : State) (t : Nat) (pref : Nat) (o : Owner) (pageMin pageMax recBytes n : Nat) :
    List Nat → Option (List Layer × List Nat × State)
  | [] => some ([], [], s)
  | h :: hs =>
    let try_ (k : Nat) : Option (Nat × Layer × State) :=
      if s.fullHive t k then (s.takeLayer k o pageMin pageMax recBytes n n).map (fun r => (k, r.1, r.2)) else none
    match (if h < 16 then try_ h else none) <|> (if pref < 16 then try_ pref else none) <|>
        ((s.roomiest (s.fullHive t)).bind try_) with
    | none => none
    | some (k, layer, s') =>
      (s'.takeLayers t pref o pageMin pageMax recBytes n hs).map (fun r => (layer :: r.1, k :: r.2.1, r.2.2))

/-- A session's root table and layers placed for `n` committed positions (R636): the table, HOME_HIVE and LAYER_MAP as
written. -/
def State.placeTable (s : State) (i pref n : Nat) (home : Nat) (map : List Nat) (recBytes : Nat) :
    Option (PageTable × Nat × List Nat × State) :=
  let x := s.stall i
  let t := x.hdr.tenant
  let o := Owner.stall i
  let rootOn (h : Nat) : Option (Nat × Nat × State) :=
    if s.fullHive t h then (s.alloc h 2 2 o).map (fun r => (h, r.1, r.2)) else none
  match (if home < 16 then rootOn home else none) <|> ((s.roomiest (s.fullHive t)).bind rootOn) with
  | none => none
  | some (h, g, s') =>
    (s'.takeLayers t pref o x.pageMin x.pageMax recBytes n map).map (fun r =>
      (⟨4096 * g, x.shape, x.pageMin, x.pageMax, shapeCapOf x.pageMin x.pageMax recBytes, recBytes, x.spread, 0xFFFFFFFF,
        r.1⟩, h, r.2.1, r.2.2))

/-- Every page of a stall's table given its header in Tier 1 (R83). -/
def State.writePageHeaders (s : State) (i : Nat) : State :=
  let x := s.stall i
  match x.table with
  | none => s
  | some p =>
    (p.layers.zipIdx).foldl (fun s l =>
      l.1.pages.foldl (fun s pg =>
        s.writeT1 x.hdr.tenant pg.addr (pageHeader x.handle pg.scale pg.firstToken l.2 pg.size p.shape)) s) s

/-- The bytes of the record at position `pos` of a layer (R83). -/
def State.recordBytes (s : State) (p : PageTable) (l : Layer) (pos : Nat) : List Byte :=
  match p.locate pos with
  | some (j, k) => match l.pages[j]? with
    | some pg => s.rawBytes (pg.addr + 64 + k * p.recBytes) p.recBytes
    | none => []
  | none => []

/-! ### Tables and lists in Tier 1 (R84 to R86)

What the stall engine keeps in Tier 1 is held once, as data; these functions lay out the bytes in which it stands there. -/

/-- A layer entry (R85). -/
def layerEntry (l : Layer) : List Byte := bytesOf 8 (l.list + l.pages.length * 2 ^ 48) ++ bytesOf 4 l.filled ++ bytesOf 4 0

/-- The 8,192 bytes of a root table (R84). -/
def rootTable (handle : Nat) (p : PageTable) : List Byte :=
  (bytesOf 8 handle ++ bytesOf 1 p.shape ++ bytesOf 1 (p.layers.length - 1) ++ bytesOf 1 p.pageMin ++ bytesOf 1 p.pageMax ++ bytesOf 4 p.shapeCap ++
    bytesOf 2 p.recBytes ++ bytesOf 1 p.spread ++ bytesOf 1 0 ++ bytesOf 4 p.nextInput ++ List.replicate 40 0 ++
    p.layers.flatMap layerEntry ++ List.replicate 8192 0).take 8192

/-- The 4,096 bytes of a layer's page list (R86). -/
def pageList (l : Layer) : List Byte :=
  (l.pages.flatMap (fun (g : Page) => bytesOf 8 (g.addr + g.size * 2 ^ 48 + 2 ^ 52)) ++ List.replicate 4096 0).take 4096

/-- The structures of the stall engine that stand in Tier 1, each with its address and the domain it is in (R84 to R86, R146): a stall's header in the pool, its
root table and its page lists. -/
def State.stallObjects (s : State) (i : Nat) : List (Nat × Nat × List Byte) :=
  let x := s.stall i
  let t := x.hdr.tenant
  (if x.poolSlot.isSome then [(x.headerAt, t, headerBytes (s.domainKeys t) x.hdr (stateCode x.state))] else []) ++
    (match x.table with
     | some p => (p.addr, t, rootTable x.handle p) :: p.layers.map (fun l => (l.list, t, pageList l))
     | none => [])

/-- The two copies of a slot's directory entry (R33, R146). -/
def State.directoryObjects (s : State) (i : Nat) : List (Nat × Nat × List Byte) :=
  [s.get Fld.STL_DIR_BASE_BASE, s.get Fld.STL_DIR_BASE2_BASE].map (fun b => (b + 64 * i, 544, directoryEntry (s.stall i)))

/-- The 72 bytes stored for block `blk` where the stall engine's structures stand (R118, R122); none elsewhere. -/
def State.engineBlock (s : State) (blk : Nat) : Option (List Byte) :=
  let all := (s.stalls.map (·.1)).flatMap (fun i => s.stallObjects i ++ if s.on Fld.STL_CTRL_COMMIT then s.directoryObjects i else [])
  (all.find? (fun o => decide (o.1 ≤ 64 * blk) && decide (64 * blk < o.1 + o.2.2.length))).map (fun o =>
    storedBlock (s.domainKeys o.2.1) (some o.2.1) (64 * blk) ((o.2.2.drop (64 * blk - o.1)).take 64))

/-- The stall's Tier 1 granules released to quarantine (R48, R49). -/
def State.releasePages (s : State) (i : Nat) : State :=
  let s := s.quarantineOwned (fun o => o = .stall i || o = .inHand i)
  s.setStall i { s.stall i with table := none, relocs := [], inputGranules := [], inputHead := 0, vsCap := 0 }

/-- Relocations abandoned (R91): their granules return to the free list. -/
def State.dropRelocs (s : State) (i : Nat) : State :=
  let s := s.freeOwned (fun o => o = .inHand i)
  s.setStall i { s.stall i with relocs := [] }

/-! ### Header pool (R32) -/

/-- The lowest header-pool slot that no stall holds. -/
def State.freePoolSlot (s : State) : Option Nat :=
  firstBelow (fun k => !(s.stalls.any (fun e => e.2.poolSlot = some k))) (s.get Fld.STL_HDR_SLOTS_SLOTS)

/-- A stall given a header-pool slot: LOCATION 0 and HEADER_AT its pool address (R33). -/
def State.takePoolSlot (s : State) (i k : Nat) : State :=
  s.setStall i { s.stall i with
    poolSlot := some k, location := 0, headerAt := s.get Fld.STL_HDR_POOL_BASE + 4096 * k }

/-! ### The journal (R56 to R58, R110, R136) -/

/-- Payload bytes of a journal record (R57, R110, R160). A seal's payload is the address it names. -/
def payloadLength : JPayload → Nat
  | .latent runs => (runs.map (fun r => 32 + r.bytes.length)).foldl (· + ·) 0
  | .header _ => 4096
  | .input _ _ bytes => 8 + bytes.length
  | .seal _ => 8

/-- The bytes a record takes: its 64-byte record header and its payload. -/
def recordLength (r : JRecord) : Nat := 64 + payloadLength r.payload

/-- The bytes of an extent that holds one record: the 64-byte extent header and the record, a multiple of 4,096 (R136). -/
def extentLength (payload : JPayload) : Nat := alignUp 4096 (64 + 64 + payloadLength payload)

/-- A run's bytes (R110). -/
def runBytes (r : JRun) : List Byte :=
  bytesOf 4 r.firstToken ++ bytesOf 4 r.count ++ bytesOf 4 r.pageScale ++ bytesOf 1 r.layer ++ bytesOf 1 r.size ++ bytesOf 1 r.pageMin ++
    bytesOf 1 r.pageMax ++ bytesOf 1 r.shape ++ bytesOf 1 r.spread ++ bytesOf 2 0 ++ bytesOf 4 r.nextInput ++ bytesOf 8 0 ++ r.bytes

/-- A record's payload bytes (R57, R110, R160), a header as of a PARKED stall. -/
def payloadBytes (keys : List Byte) : JPayload → List Byte
  | .latent runs => runs.flatMap runBytes
  | .header h => headerBytes keys h (stateCode .parked)
  | .input base _ bytes => bytesOf 8 base ++ bytes
  | .seal newest => bytesOf 8 newest

/-- TYPE of a record (R57). -/
def recordType : JPayload → Nat
  | .latent _ => 0 | .header _ => 1 | .input .. => 2 | .seal _ => 3

/-- A journal record's bytes (R57): its 64-byte header, with TAG over the header and the payload, and the payload. -/
def journalRecord (r : JRecord) : List Byte :=
  let body := payloadBytes r.keyed r.payload
  let head := bytesOf 8 r.handle ++ bytesOf 8 r.epoch ++ bytesOf 8 r.step ++ bytesOf 8 r.seq ++ bytesOf 4 body.length ++
    bytesOf 1 (recordType r.payload) ++ bytesOf 3 0
  head ++ bytesOf 16 (Config.mac r.keyed (head ++ body)) ++ bytesOf 8 0 ++ body

/-- The data bytes of a record's extent (R136): MAGIC, LENGTH, HANDLE, PREV, FIRST_SEQ, then the record. -/
def extentBytes (r : JRecord) : List Byte :=
  let len := extentLength r.payload
  (bytesOf 4 0x48455854 ++ bytesOf 4 len ++ bytesOf 8 r.handle ++ bytesOf 8 r.prev ++ bytesOf 8 r.seq ++ bytesOf 32 0 ++ journalRecord r ++
    List.replicate len 0).take len

/-- The stored bytes of a record's extent (R57, R118): blocks of the stall code, encrypted with the tenant's Shed key. -/
def extentStored (r : JRecord) : List Byte :=
  let data := extentBytes r
  (List.range (data.length / 64)).flatMap (fun k =>
    storedBlock r.keyed (some (256 + handleTenant r.handle)) (r.extent + 64 * k) ((data.drop (64 * k)).take 64))

/-- A journal record written (R56, R57, R136), as the record that brings the stall to STEP `step` and SAMPLE_CTR `ctr`: in an extent of its own on one of the journal's
ports, which are those of `mask` or, where that is 0, of the stall's SHED_PORTS; each port used is added to SHED_PORTS. None where no port in write service has room. -/
def State.journalAt (s : State) (i mask step ctr : Nat) (payload : JPayload) : Option State :=
  let x := s.stall i
  let ports := s.journalPorts (if mask = 0 then x.hdr.shedPorts else mask)
  let seq := x.hdr.journalSeq + 1
  let list := (List.range 8).filter (fun p => ports.testBit p)
  let len := extentLength payload
  let turn := seq % list.length
  match (list.drop turn ++ list.take turn).findSome? (fun p => (s.shedTake p len).map (p, ·)) with
  | none => none
  | some (p, addr, s) =>
    let used := x.hdr.shedPorts ||| 2 ^ p
    some (s.setStall i { x with
      journal := x.journal ++ [{ handle := x.handle, epoch := x.hdr.epoch, step := step, seq := seq, payload := payload, extent := addr,
                                 sampleCtr := ctr, prev := x.hdr.shedRoot, keyed := s.shedKeys x.hdr.tenant }]
      extents := (addr, len) :: x.extents, shedPorts := used
      hdr := { x.hdr with journalSeq := seq, shedRoot := addr, shedPorts := used } })

/-- A journal record of the stall's committed state. -/
def State.journalIf (s : State) (i mask : Nat) (payload : JPayload) : Option State :=
  s.journalAt i mask (s.stall i).hdr.step (s.stall i).hdr.sampleCtr payload

/-- The same, without effect where there is no room. -/
def State.journal (s : State) (i mask : Nat) (payload : JPayload) : State := (s.journalIf i mask payload).getD s

/-- The runs that cover positions `lo … hi-1` of a session, one per page and layer (R110, R111), with NEXT_INPUT `next`. -/
def State.runsOf (s : State) (i lo hi next : Nat) : List JRun :=
  let x := s.stall i
  match x.table with
  | none => []
  | some p =>
    (p.layers.zipIdx).flatMap (fun l =>
      (l.1.pages.zipIdx).filterMap (fun pg =>
        let base := recordsIn p.pageMin p.pageMax p.recBytes pg.2
        let a := max lo base
        let b := min hi (base + pageRecords p.recBytes pg.1.size)
        if a < b then some ⟨a, b - a, pg.1.scale, l.2, pg.1.size, p.pageMin, p.pageMax, p.shape, p.spread, next,
          (List.range (b - a)).flatMap (fun k => s.recordBytes p l.1 (a + k))⟩
        else none))

/-- Bytes a committed token adds to DIRTY_BYTES: rec × LAYERS (R111). -/
def tokenDirt (x : Stall) : Nat :=
  match x.table with
  | some p => p.recBytes * p.layers.length
  | none => 0

/-- DIRTY_BYTES of a stall changed, and STL_DIRTY_NOW with it (R56). -/
def State.setDirty (s : State) (i n : Nat) : State :=
  let old := (s.stall i).hdr.dirtyBytes
  let s := s.put Fld.STL_DIRTY_NOW_NOW (s.get Fld.STL_DIRTY_NOW_NOW + n - old)
  s.updHdr i (fun h => { h with dirtyBytes := n })

/-- NEXT_INPUT of a stall; none where it has none (R84). -/
def nextInputOf (x : Stall) : Nat := match x.table with | some p => p.nextInput | none => 0xFFFFFFFF

/-- The end of a stall's last step, as its header stands. -/
def lastMark (x : Stall) : StepMark := ⟨x.hdr.committedLen, nextInputOf x, x.hdr.step, x.hdr.sampleCtr⟩

/-- The last end of a step that committed at most `len` positions: up to it one record can bring the journal. -/
def markFor (x : Stall) (len : Nat) : Option StepMark := ((x.marks ++ [lastMark x]).filter (fun m => decide (m.len ≤ len))).reverse.head?

/-- The journal brought up to the last step that ends within `len` committed positions (R56, R57, R110): one latent-append record; DIRTY_BYTES falls by what it covers.
None where a record is needed and finds no room. -/
def State.journalUpTo (s : State) (i mask len : Nat) : Option State :=
  let x := s.stall i
  match markFor x len with
  | none => some s
  | some m =>
    if m.len ≤ x.hdr.journalLen then some s
    else (s.journalAt i mask m.step m.sampleCtr (.latent (s.runsOf i x.hdr.journalLen m.len m.nextInput))).map (fun s =>
      let y := s.stall i
      (s.setStall i { y with marks := y.marks.filter (fun k => decide (m.len < k.len)), hdr := { y.hdr with journalLen := m.len } }).setDirty i
        ((x.hdr.committedLen - m.len) * tokenDirt x))

/-- The page a run's records lie in, by the run's own sizes (R82, R83, R112). -/
def runPage (r : JRun) : Option Nat :=
  (locate r.pageMin r.pageMax (if r.count = 0 then 1 else r.bytes.length / r.count) r.firstToken 512 0 0).map (·.1)

/-- Whether a record's runs agree with R82 and with the scales of earlier runs of the same page (R112). -/
def runsFit (earlier : List JRun) : List JRun → Bool
  | [] => true
  | r :: rest =>
    let sizeOk := match runPage r with | some j => decide (r.size = pageCode r.pageMin r.pageMax j) | none => false
    let scaleOk := earlier.all (fun e =>
      !(decide (e.layer = r.layer) && decide (runPage e = runPage r)) || decide (e.pageScale = r.pageScale))
    sizeOk && scaleOk && runsFit (earlier ++ [r]) rest

/-- The runs a record holds. -/
def recordRuns (r : JRecord) : List JRun := match r.payload with | .latent runs => runs | _ => []

/-- The records of a journal that a reader uses (R58, R112): in SEQ order up to the first that is missing, unreadable or failing; a record whose EPOCH is below an
earlier one's is passed over. -/
def usableRecords (readable : JRecord → Bool) (seq epoch : Nat) (earlier : List JRun) : List JRecord → List JRecord
  | [] => []
  | r :: rest =>
    if (seq ≠ 0 ∧ r.seq ≠ seq) || !readable r || !runsFit earlier (recordRuns r) then []
    else if r.epoch < epoch then usableRecords readable (r.seq + 1) epoch earlier rest
    else r :: usableRecords readable (r.seq + 1) r.epoch (earlier ++ recordRuns r) rest

/-- What a read of a record in the Shed ends in (R120, R133, R140): none where its port can be read, nothing of it is damaged, and its tenant's Shed keys are those it
was written under. -/
def State.recordStatus (s : State) (r : JRecord) : Option Nat :=
  if !s.portReadable (r.extent / 2 ^ 59 % 8) then some CS.uncorrectable
  else match r.damage with
    | some st => some st
    | none => if r.keyed = s.shedKeys (handleTenant r.handle) then none else some CS.integrity

/-- The extents from the one at `at_` back to the first, by PREV (R136), among records of SEQ below `bound`; oldest first. -/
def chainBack (records : List JRecord) : (fuel at_ bound : Nat) → List JRecord
  | 0, _, _ => []
  | fuel + 1, at_, bound =>
    match records.find? (fun r => decide (r.extent = at_ ∧ r.seq < bound)) with
    | none => []
    | some r => chainBack records fuel r.prev r.seq ++ [r]

/-- The records of a stall's journal that a reader uses: the chain that SHED_ROOT and PREV give (R136), as far as R58 lets it be read. -/
def State.usable (s : State) (i : Nat) : List JRecord :=
  let x := s.stall i
  usableRecords (fun r => (s.recordStatus r).isNone) 0 0 [] (chainBack x.journal x.journal.length x.hdr.shedRoot (x.hdr.journalSeq + 1))

/-- The record that holds the header of a stall whose header lies in the Shed. -/
def headerRecord (x : Stall) : Option JRecord :=
  x.journal.reverse.find? (fun r => match r.payload with | .header _ => true | _ => false)

/-- What reading the header of a stall ends in (R36, R38): none for a header in the pool, or one in the Shed whose record can be read and whose tag holds. -/
def State.headerStatus (s : State) (i : Nat) : Option Nat :=
  let x := s.stall i
  if x.location ≠ 1 then none else (headerRecord x).bind s.recordStatus

/-- EV_SH_UNCORRECTABLE for a record, naming its port and its Shed address (R140, R149). -/
def State.recordLost (s : State) (r : JRecord) : State :=
  s.raise { code := 0x0505, tenant := some (handleTenant r.handle), subject := r.extent / 2 ^ 59 % 8, object := r.extent }

/-- Records found damaged: a later read of them ends in the status given. -/
def State.damageRecords (s : State) (i status : Nat) (p : JRecord → Bool) : State :=
  s.setStall i { s.stall i with journal := (s.stall i).journal.map (fun r => if p r then { r with damage := some status } else r) }

/-- The bytes of runs written into the pages of a stall's table, with the page scales (R112). -/
def State.writeRuns (s : State) (i : Nat) (runs : List JRun) : State :=
  runs.foldl (fun s r =>
    let x := s.stall i
    match x.table with
    | none => s
    | some p =>
      match p.layers[r.layer]?, p.locate r.firstToken with
      | some l, some (j, k) =>
        match l.pages[j]? with
        | none => s
        | some pg =>
          let pg' := { pg with scale := r.pageScale }
          let s := s.writeT1 x.hdr.tenant pg.addr (pageHeader x.handle r.pageScale pg.firstToken r.layer pg.size p.shape)
          let s := s.writeT1 x.hdr.tenant (pg.addr + 64 + k * p.recBytes) r.bytes
          s.setStall i { x with table := some { p with
            nextInput := r.nextInput, layers := p.layers.set r.layer { l with pages := l.pages.set j pg' } } }
      | _, _ => s) s

/-! ### Input (R159 to R161, R634) -/

/-- Input bytes tokenised, framed by the result tokens where they answer a call (R159); engines that are not enabled tokenise nothing (R183). -/
def State.tokeniseInput (s : State) (t : Nat) (framed : Bool) (bytes : List Byte) : Except Nat (List Nat × Bool) :=
  if !s.on Fld.TX_CTRL_EN then .error CS.notReady
  else (s.tokenise t bytes).map (fun r =>
    if framed then ((s.resultOpen t).toList ++ r.1 ++ (s.resultClose t).toList, r.2) else r)

/-- Granules a queue of `n` tokens takes, four bytes a token (R159). -/
def queueGranules (n : Nat) : Nat := (n + 1023) / 1024

/-- `n` granules of the home Hive added to the input queue (R159, R359); none where the Hive is no Hive of the tenant's partition or has no room, or where an audit
stops allocation (R47). -/
def State.growQueue (s : State) (i : Nat) : (n : Nat) → Option State
  | 0 => some s
  | n + 1 =>
    let x := s.stall i
    if s.allocStopped || !s.partitionHive x.hdr.tenant x.hdr.homeHive then none
    else match s.alloc x.hdr.homeHive 1 1 (.stall i) with
    | none => none
    | some (g, s) => (s.setStall i { s.stall i with inputGranules := x.inputGranules ++ [g] }).growQueue i n

/-- Tokens put at the end of the input queue, in granules of their own where those held are full (R159); none where a granule is needed and finds no room. -/
def State.queueTokens (s : State) (i : Nat) (toks : List Nat) : Option State :=
  let x := s.stall i
  let need := queueGranules (x.inputHead + x.queued.length + toks.length)
  (s.growQueue i (need - x.inputGranules.length)).map (fun s => s.setStall i { s.stall i with queued := x.queued ++ toks })

/-- The first `n` tokens of the input queue taken off it: a granule all of whose tokens are appended, or dropped, is released (R93, R100, R159). -/
def State.takeInput (s : State) (i n : Nat) : State :=
  let x := s.stall i
  let head := x.inputHead + n
  let gone := if x.queued.length ≤ n then x.inputGranules.length else head / 1024
  let s := (x.inputGranules.take gone).foldl (fun s g => s.quarantine g 1) s
  s.setStall i { s.stall i with queued := x.queued.drop n, inputGranules := x.inputGranules.drop gone,
                                inputHead := if x.queued.length ≤ n then 0 else head % 1024 }

/-- The position at which input queued now begins (R160). -/
def State.inputBase (s : State) (i : Nat) : Nat :=
  let x := s.stall i
  x.hdr.committedLen + (if nextInputOf x = 0xFFFFFFFF then 0 else 1) + x.queued.length

/-! ### Entering states (R40, R52, R53) -/

/-- A stall enters HOT. -/
def State.enterHot (s : State) (i : Nat) : State := s.setStall i { s.stall i with state := .hot, leftOut := 0 }

/-- A stall enters WAITING, with WAIT_START (R52); with HOST_PAUSE set, EV_STALL_HOST_PAUSE (R74). -/
def State.enterWaiting (s : State) (i : Nat) : State :=
  let x := s.stall i
  let s := s.setStall i { x with state := .waiting, hdr := { x.hdr with waitStart := s.now } }
  if flagOn x 5 then s.stallEvent 0x0609 i else s

/-- A stall enters a state at the end of a migration, promotion or claim. -/
def State.enterState (s : State) (i : Nat) (st : StallState) : State :=
  match st with
  | .waiting => s.enterWaiting i
  | st => s.setStall i { s.stall i with state := st, leftOut := 0 }

/-! ### Freeing (R30, R40) -/

/-- A slot returned to FREE: its generation moves on, wrapping to 1 with EV_STALL_GEN_WRAP (R30). -/
def State.freeSlot (s : State) (i : Nat) : State :=
  let x := s.stall i
  let wraps := decide (x.gen = 0xFFFFFFFF)
  let s := if wraps then s.stallEvent 0x0606 i else s
  let s := s.releasePages i
  let s := (x.extents).foldl (fun s e => s.shedRelease e.1 e.2) s
  let s := s.setDirty i 0
  s.setStall i { gen := if wraps then 1 else x.gen + 1 }

/-! ### An index on a lost Hive (R568) -/

/-- Whether stall `i` is an index with storage on an ABSENT Hive. -/
def State.indexLost (s : State) (i : Nat) : Bool :=
  decide ((s.stall i).hdr.kind = 1) && s.t1.runs.any (fun r => decide (r.owner = .stall i) && s.hiveAbsent (hiveOf (4096 * r.start)))

/-! ### Mirrors (R591) -/

def State.setMirrors (s : State) (l : List Mirror) : State := { s with mirrors := l }.put Fld.CP_MIRRORS_PAIRS l.length

/-- The pairs of a job, or of a tenant, dissolved (R591): a command that waits for its copy is cancelled. -/
def State.dissolve (s : State) (p : Mirror → Bool) : State :=
  let gone := s.mirrors.filter p
  let s := s.setMirrors (s.mirrors.filter (fun m => !p m))
  gone.foldl (fun s m => match m.cmd with | some c => s.complete c CS.cancelled | none => s) s

/-! ### Replay signature (R34, R67) -/

/-- REPLAY_SIG of this device's units for tenant `t` (R34): COMBS, the Cells not ABSENT in each Comb, KV_CHUNK_MIN. -/
def State.replaySig (s : State) (t : Nat) : Nat :=
  natOfBytes ((Config.sha384 (bytesOf 4 (s.tenantCombs t) ++
    (List.range 32).flatMap (fun c => bytesOf 2 (s.cellsInComb c)) ++ bytesOf 4 (s.get Fld.KV_CHUNK_MIN_TOKENS))).take 8)

end Sys2Proof.Machine
end

