-- ==== Sys2Proof/Machine/StallXfer.lean ====
section
/-! DEFINITION. How stalls are parked, revived, given input, migrated and fought over: the operations that the stall commands,
the stall engine's own events and the MST messages share (R40 to R69, R161, R634, R635). -/

namespace Sys2Proof.Machine

/-! ### Input into a stall -/

/-- EV_TX_CONFIG_BAD for a stall whose input cannot be tokenised (R634); engines that do not run raise nothing. -/
def State.textConfigBad (s : State) (i : Nat) : State := if s.on Fld.TX_CTRL_EN then s.stallEvent 0x0807 i else s

/-- EV_TX_BAD_TOKEN where a merge named a token beyond the vocabulary (R156). -/
def State.noteBadToken (s : State) (i : Nat) (bad : Bool) : State := if bad then s.stallEvent 0x0808 i else s

/-- What is rebuilt of an input queue (R160, R634): its tokens, whether a merge named a token beyond the vocabulary, the input that stays untokenised from the first that
cannot be tokenised on, and the status of the read that failed. -/
structure Rebuilt where
  tokens : List Nat
  bad : Bool
  held : List (Nat × Bool × List Byte)
  status : Option Nat

/-- Inputs tokenised again, each at its BASE or behind the one before it, whichever is higher: the tokens from position `from_` on (R160). -/
def State.rebuild (s : State) (t from_ : Nat) : (at_ : Nat) → List (Nat × Bool × List Byte) → Rebuilt
  | _, [] => ⟨[], false, [], none⟩
  | at_, (base, framed, bytes) :: rest =>
    let pos := max at_ base
    match s.tokeniseInput t framed bytes with
    | .error st => ⟨[], false, (pos, framed, bytes) :: rest, some st⟩
    | .ok (toks, bad) =>
      let r := s.rebuild t from_ (pos + toks.length) rest
      ⟨toks.drop (from_ - pos) ++ r.tokens, bad || r.bad, r.held, r.status⟩

/-- Input held untokenised, with HOST_PAUSE set (R634): a WAITING stall stays WAITING and raises EV_STALL_HOST_PAUSE. -/
def State.holdInput (s : State) (i : Nat) (held : List (Nat × Bool × List Byte)) : State :=
  let s := s.textConfigBad i
  let x := s.stall i
  let s := s.setStall i { x with heldInput := held, hdr := { x.hdr with flags := setFlagBit 5 true x.hdr.flags } }
  if x.state = .waiting then s.stallEvent 0x0609 i else s

/-- The input of a journal record, with the position of its first token and whether it is framed, where it is an input record. -/
def inputOf (r : JRecord) : Option (Nat × Bool × List Byte) :=
  match r.payload with
  | .input base framed bytes => some (base, framed, bytes)
  | _ => none

/-- The inputs that may still have tokens to append at `from_`: those before an input that begins at or below it are appended whole. -/
def liveInputs (from_ : Nat) : List (Nat × Bool × List Byte) → List (Nat × Bool × List Byte)
  | a :: b :: rest => if b.1 ≤ from_ then liveInputs from_ (b :: rest) else a :: b :: rest
  | l => l

/-- The lookups of tokenising inputs (R158). -/
def State.lookInput (s : State) (t : Nat) (inputs : List (List Byte)) : State :=
  if s.on Fld.TX_CTRL_EN then inputs.foldl (fun s b => s.lookUp t (s.tokeniseLines t b)) s else s

/-- The input queue rebuilt from journal records (R160): where a record cannot be tokenised, its input and all later input is held, with HOST_PAUSE set (R634). None where the queue
finds no room; else the status of the read that failed, if one did. -/
def State.rebuildQueue (s : State) (i : Nat) (records : List JRecord) : Option (State × Option Nat) :=
  let x := s.stall i
  let inputs := liveInputs x.hdr.committedLen (records.filterMap inputOf)
  let r := s.rebuild x.hdr.tenant x.hdr.committedLen 0 inputs
  let s := s.lookInput x.hdr.tenant (inputs.map (·.2.2))
  ((s.setStall i { x with queued := [], heldInput := [] }).queueTokens i r.tokens).map (fun s =>
    let s := s.noteBadToken i r.bad
    (if r.status.isSome then s.holdInput i r.held else s, r.status))

/-- Input taken behind what is held (R159 to R161, R634): both tokenised, the input journalled at its BASE, their tokens queued. Where something cannot be tokenised, or finds
no room in the Shed or in Tier 1, only the event of R634 happens; the status says which. -/
def State.giveInput (s : State) (i : Nat) (input : List (List Byte)) : State × Nat :=
  let x := s.stall i
  let t := x.hdr.tenant
  let held := s.rebuild t x.hdr.committedLen 0 x.heldInput
  let tokens := input.mapM (s.tokeniseInput t false)
  let s := s.lookInput t (x.heldInput.map (·.2.2) ++ input)
  match held.status, tokens with
  | some st, _ => (s.textConfigBad i, st)
  | _, .error st => (s.textConfigBad i, st)
  | none, .ok own =>
    let put (r : Option State) (e : List Byte × List Nat × Bool) : Option State :=
      r.bind (fun s => (s.journalIf i 0 (.input (s.inputBase i) false e.1)).bind (fun s => s.queueTokens i e.2.1))
    match (input.zip own).foldl put (s.queueTokens i held.tokens) with
    | none => (s, CS.noResource)
    | some s' => ((s'.setStall i { s'.stall i with heldInput := [] }).noteBadToken i (held.bad || own.any (·.2)), CS.ok)

/-! ### Parking (R48) -/

/-- The opcode of the state-changing command in progress on a stall (R41). -/
def busyOpcode (x : Stall) : Option Nat :=
  if flagOn x 6 then some 0x23
  else if flagOn x 7 || x.fetchCmd.isSome then some 0x24
  else if x.state = .moving && x.hdr.migRole = 1 then some 0x25
  else none

/-- A park started (R48 step 1); a relocation under way is abandoned (R91). -/
def State.startPark (s : State) (i ports : Nat) (c : Option Cmd) : State :=
  let s := s.dropRelocs i
  let x := s.stall i
  s.setStall i { x with
    park := some ⟨x.state, c, if ports = 0 then x.hdr.shedPorts else ports⟩
    hdr := { x.hdr with flags := setFlagBit 6 true x.hdr.flags } }

/-- A park abandoned (R41): its command completes with CS_CANCELLED and the stall has the state it had, a WAITING one entered anew. -/
def State.abandonPark (s : State) (i : Nat) : State :=
  let x := s.stall i
  match x.park with
  | none => s
  | some p =>
    let s := s.setStall i { x with park := none, hdr := { x.hdr with flags := setFlagBit 6 false x.hdr.flags } }
    let s := if p.prior = .waiting then s.enterWaiting i else s
    match p.cmd with
    | some c => s.complete c CS.cancelled
    | none => s

/-- The Shed address of the newest header record of a stall's journal. -/
def shedHeaderAt (x : Stall) : Nat := ((headerRecord x).map (·.extent)).getD 0

/-- The header and the seal written (R48 steps 3 and 4), the stall's image in the Shed, its header-pool slot free and its
pages in quarantine (steps 5 and 6). None where the Shed has no room. -/
def State.sealImage (s : State) (i ports : Nat) : Option State :=
  let s := s.updHdr i (fun h => { h with flags := setFlagBit 6 false (setFlagBit 8 false h.flags) })
  ((s.journalIf i ports (.header (s.stall i).hdr)).bind (fun s => s.journalIf i ports (.seal (s.stall i).hdr.shedRoot))).map (fun s =>
    let x := s.stall i
    (s.setStall i { x with location := 1, headerAt := shedHeaderAt x, poolSlot := none, park := none }).releasePages i)

/-- The bytes of the records of a journal: what a park has written and a revive has read, without the padding of extents and the stall code. -/
def journalBytes (records : List JRecord) : Nat := (records.map recordLength).foldl (· + ·) 0

/-- A park's writes ended (R48 steps 2 to 7). Nothing happens while no Shed port takes them. -/
def State.finishPark (s : State) (i : Nat) : State :=
  let x := s.stall i
  match x.park with
  | none => s
  | some p =>
    match (s.journalUpTo i p.ports x.hdr.committedLen).bind (fun s => s.sealImage i p.ports) with
    | none => s
    | some s =>
      let s := s.setStall i { s.stall i with state := .parked, queued := [], heldInput := [], marks := [] }
      match p.cmd with
      | some c => s.complete c CS.ok (journalBytes (s.stall i).journal - journalBytes x.journal)
      | none => s

/-! ### Reviving (R50, R51) -/

/-- A revive's command completed. -/
def State.reviveAnswer (s : State) (cause : ReviveCause) (status r0 : Nat) : State :=
  match cause with
  | .command c => s.complete c status r0
  | .input c _ => s.complete c status r0
  | _ => s

/-- A revive that finds no room (R51): the stall stays PARKED. One started by a tool result is tried again later; a retry that fails raises
EV_STALL_REVIVE_DEFERRED. -/
def State.reviveNoRoom (s : State) (i : Nat) (r : ReviveX) : State :=
  let s := s.setStall i { s.stall i with revive := none }
  match r.cause with
  | .result again =>
    let s := s.setStall i { s.stall i with
      result := (s.stall i).result.map (fun w => { w with retryAt := some (s.now + s.get Fld.STL_REVIVE_RETRY_NS) }) }
    if again then s.stallEvent 0x0602 i else s
  | cause => s.reviveAnswer cause CS.noResource 0

/-- The header-pool slot of a stall that comes back from the Shed (R50 step 1). -/
def State.takeSlot (s : State) (i : Nat) : Option State := s.freePoolSlot.map (fun k => s.takePoolSlot i k)

/-- Tier 1 room taken for a session that comes back from the Shed: its root table and pages (R50 step 3, R636); none while an audit stops allocation (R47). -/
def State.takeTable (s : State) (i pref : Nat) : Option State :=
  let x := s.stall i
  if x.hdr.kind ≠ 0 then some s
  else if s.allocStopped then none
  else (s.placeTable i pref x.hdr.committedLen x.hdr.homeHive (x.hdr.layerMap.take (x.hdr.shapeDims / 2 ^ 32 % 2 ^ 16)) (s.shapeRec x.shape)).map
    (fun r => r.2.2.2.setStall i { r.2.2.2.stall i with
      table := some r.1, hdr := { (r.2.2.2.stall i).hdr with homeHive := r.2.1, layerMap := r.2.2.1, ptRoot := r.1.addr } })

/-- A revive given up: its pages return to the free list and the stall stays PARKED. -/
def State.undoRevive (s : State) (i : Nat) : State :=
  let s := s.freeOwned (fun o => o = .stall i || o = .inHand i)
  let x := s.stall i
  s.setStall i { x with
    table := none, inputGranules := [], inputHead := 0, queued := [], heldInput := [], poolSlot := none, location := 1, headerAt := shedHeaderAt x, revive := none
    hdr := { x.hdr with flags := setFlagBit 7 false x.hdr.flags } }

/-- A revive started (R50 steps 1 to 3): a header-pool slot, the header as far as it is known to be readable, the root table and the pages. -/
def State.startRevive (s : State) (i : Nat) (r : ReviveX) : State :=
  let bad := s.headerStatus i
  match s.takeSlot i with
  | none => s.reviveNoRoom i r
  | some s' =>
    match bad with
    | some st => s.reviveAnswer r.cause st 0
    | none => match s'.takeTable i r.hive with
      | none => s.reviveNoRoom i r
      | some s =>
        let x := s.stall i
        s.setStall i { x with revive := some r, hdr := { x.hdr with flags := setFlagBit 7 true x.hdr.flags } }

/-- The committed length that records cover. -/
def coverage (records : List JRecord) : Nat :=
  ((records.flatMap recordRuns).map (fun r => r.firstToken + r.count)).foldl max 0

/-- The pages of a stall filled from journal records (R112), up to `len` committed positions. -/
def State.fillPages (s : State) (i len : Nat) (records : List JRecord) : State :=
  let s := s.writePageHeaders i
  let s := s.writeRuns i (records.flatMap recordRuns)
  let x := s.stall i
  match x.table with
  | none => s
  | some p => s.setStall i { x with table := some { p with layers := p.layers.map (fun l => { l with filled := len }) } }

/-- The header that usable records bring a stall to (R58): the newest header among them where the records behind it fail, else
the header as it stands. -/
def usableHeader (x : Stall) (usable : List JRecord) : Header :=
  if usable.length = x.journal.length then x.hdr
  else
    let h := usable.foldl (fun a r => match r.payload with | .header h => h | _ => a) x.hdr
    { h with committedLen := min h.committedLen (coverage usable) }

/-! ### Journals written anew (R140, R141) -/

/-- Runs of one page joined, in the order of their positions (R141). -/
def joinRuns (runs : List JRun) : List JRun :=
  runs.foldl (fun out r =>
    match out.findIdx? (fun e => decide (e.layer = r.layer) && decide (runPage e = runPage r) && decide (e.firstToken + e.count = r.firstToken)) with
    | some k => out.modify k (fun e => { e with count := e.count + r.count, bytes := e.bytes ++ r.bytes, nextInput := r.nextInput })
    | none => out ++ [r]) []

/-- A stall's journal written anew (R140, R141): one run per page, from Tier 1 or, for a stall that has no table there, from the journal; the input that waits (R160); the
header; the seal. The old extents are superseded once all of it is written. None where the Shed has no room. -/
def State.consolidate (s : State) (i : Nat) : Option State :=
  let x := s.stall i
  let usable := s.usable i
  let runs := if x.table.isNone then joinRuns (usable.flatMap recordRuns) else s.runsOf i 0 x.hdr.committedLen (nextInputOf x)
  let inputs := (liveInputs x.hdr.committedLen (usable.filterMap inputOf)).map (fun e => JPayload.input e.1 e.2.1 e.2.2)
  let body := (if runs.isEmpty then [] else [JPayload.latent runs]) ++ inputs ++ [.header x.hdr]
  let fresh := s.setStall i { x with journal := [], extents := [], hdr := { x.hdr with shedRoot := 0 } }
  ((body.foldl (fun (r : Option State) p => r.bind (fun s => s.journalIf i 0 p)) (some fresh)).bind (fun s =>
    s.journalIf i 0 (.seal (s.stall i).hdr.shedRoot))).map (fun s =>
      let s := x.extents.foldl (fun s e => s.shedRelease e.1 e.2) s
      if x.table.isNone then s.setStall i { s.stall i with headerAt := if x.location = 1 then shedHeaderAt (s.stall i) else x.headerAt }
      else (s.setStall i { s.stall i with marks := [], hdr := { (s.stall i).hdr with journalLen := x.hdr.committedLen } }).setDirty i 0)

/-- The journal of a stall whose committed state is in Tier 1 written anew where a record of it is lost (R140). -/
def State.rewriteLost (s : State) (i : Nat) : State :=
  let x := s.stall i
  if x.table.isSome && x.journal.any (fun r => (s.recordStatus r).isSome) then (s.consolidate i).getD s else s

/-! ### Reading what comes back -/

/-- The stall's image read (R50 step 4), its input queue rebuilt (R160, R634); none where the queue finds no room. -/
def State.reviveImage (s : State) (i : Nat) (usable : List JRecord) : Option (State × Option Nat) :=
  let x := s.stall i
  let h := usableHeader x usable
  let len := h.committedLen
  let s := s.setStall i { x with revive := none, hdr := { h with
    handle := x.hdr.handle, flags := setFlagBit 7 false h.flags, committedLen := len, specLen := len, homeHive := x.hdr.homeHive
    layerMap := x.hdr.layerMap, ptRoot := x.hdr.ptRoot, shedPorts := x.hdr.shedPorts, shedRoot := x.hdr.shedRoot
    journalSeq := x.hdr.journalSeq, journalLen := len } }
  (s.fillPages i len usable).rebuildQueue i usable

/-! ### Recovery of what a stall has in Tier 1 (R126) -/

/-- What the stall engine's read of a block that holds its own structures or pages ends in (R120). -/
def State.engineRead (s : State) (blk : Nat) : BlockRead :=
  let err := sparseGet (0, 0) s.t1.errors blk
  if s.isPoisoned blk then .poisoned
  else if 2 < err.1 then .newlyPoisoned
  else if 2 ≤ err.2 then .integrity
  else if err.2 = 1 then .tagCorrected
  else if err.1 ≠ 0 then .corrected
  else .data

/-- The blocks of `n` bytes from `addr` that have wrong bytes or tag bits, or are poisoned. -/
def State.suspects (s : State) (addr n : Nat) : List Nat :=
  let wrong : List Nat := s.t1.errors.map (fun e => e.1)
  let poisoned : List Nat := s.t1.poison.flatMap (fun e => e.2.map (fun a => a / 64))
  (wrong ++ poisoned).filter (fun b => decide (addr ≤ 64 * b + 63) && decide (64 * b < addr + n))

/-- Whether the stall engine cannot read `n` bytes from `addr`. -/
def State.unreadable (s : State) (addr n : Nat) : Bool := (s.suspects addr n).any (fun b => (s.engineRead b).status.isSome)

/-- What the stall engine's read of `n` bytes from `addr` does besides delivering (R120). -/
def State.engineLook (s : State) (addr n : Nat) : State := (s.suspects addr n).foldl (fun s b => s.noteBlock b (s.engineRead b)) s

/-- `n` bytes from `addr` written back whole by the stall engine: nothing in them is wrong or poisoned any longer. -/
def State.renew (s : State) (addr n : Nat) : State :=
  let inIt (a : Nat) : Bool := decide (addr ≤ a) && decide (a < addr + n)
  { s with t1 := { s.t1 with
      errors := s.t1.errors.filter (fun e => !inIt (64 * e.1))
      poison := (s.t1.poison.map (fun p => (p.1, p.2.filter (fun a => !inIt a)))).filter (fun p => !p.2.isEmpty) } }

/-- The values a stall falls back to where its journal covers `len` positions, fewer than it had committed: those of its last record of runs. -/
def rolledBack (records : List JRecord) (len : Nat) (h : Header) : Header :=
  match records.reverse.find? (fun r => !(recordRuns r).isEmpty) with
  | some r => { h with committedLen := len, specLen := len, journalLen := len, step := r.step, sampleCtr := r.sampleCtr }
  | none => { h with committedLen := 0, specLen := 0, journalLen := 0, step := 0, sampleCtr := 0 }

/-- A stall's committed length brought down to what its journal covers (R126), with EV_HB_ROLLBACK; its input queue follows. -/
def State.rollBack (s : State) (i : Nat) (records : List JRecord) : State :=
  let x := s.stall i
  let len := min x.hdr.journalLen (coverage records)
  if x.hdr.committedLen ≤ len then s
  else
    let next := ((records.flatMap recordRuns).reverse.head?.map (·.nextInput)).getD 0xFFFFFFFF
    let s := (s.setDirty i 0).updHdr i (rolledBack records len)
    let y := s.stall i
    let s := s.setStall i { y with
      marks := [], table := y.table.map (fun p => { p with nextInput := next, layers := p.layers.map (fun l => { l with filled := len }) }) }
    let s := s.stallEvent 0x0407 i [x.hdr.committedLen, len]
    ((s.rebuildQueue i records).map (·.1)).getD s

/-- A stall that cannot be placed again, PARKED: its image is the one in the Shed. -/
def State.parkUnplaced (s : State) (i : Nat) : State :=
  let x := s.stall i
  let bare := s.setStall i { x with location := 1, headerAt := shedHeaderAt x, poolSlot := none, park := none }
  let s := (s.sealImage i 0).getD bare
  let s := s.setStall i { s.stall i with state := .parked, queued := [], heldInput := [], marks := [] }
  match x.park.bind (·.cmd) with
  | some c => s.complete c CS.ok
  | none => s

/-- A session's pages, page lists and root table rebuilt from its journal (R126): its granules go to quarantine, its committed length falls to JOURNAL_LEN where it was
longer. With no room left in its partition the stall is PARKED. -/
def State.rebuildTable (s : State) (i : Nat) : State :=
  let s := s.dropRelocs i
  let records := s.usable i
  if (s.stall i).table.isNone then s
  else
    let s := (s.rollBack i records).quarantineOwned (fun o => o = .stall i || o = .inHand i)
    let s := s.setStall i { s.stall i with table := none, relocs := [], inputGranules := [], inputHead := 0 }
    match (s.takeTable i 0xFF).bind (fun s => (s.fillPages i (s.stall i).hdr.committedLen records).rebuildQueue i records) with
    | some r => r.1
    | none => s.parkUnplaced i

/-- The header of a stall rebuilt from the newest header record and the runs (R126): its places, its journal and its ownership are those the directory and the journal give. -/
def State.rebuildHeader (s : State) (i : Nat) : State :=
  let x := s.stall i
  let records := s.usable i
  let h := records.foldl (fun a r => match r.payload with | .header h => h | _ => a) x.hdr
  let s := s.setStall i { x with hdr := { h with
    handle := x.handle, homeHive := x.hdr.homeHive, layerMap := x.hdr.layerMap, ptRoot := x.hdr.ptRoot, shedPorts := x.hdr.shedPorts, shedRoot := x.hdr.shedRoot
    journalSeq := x.hdr.journalSeq, journalLen := x.hdr.journalLen, dirtyBytes := x.hdr.dirtyBytes, committedLen := x.hdr.committedLen, specLen := x.hdr.specLen
    epoch := x.epoch, ownerDev := x.ownerDev } }
  s.rollBack i records

/-- The two copies of a directory entry read (R126): one that cannot be read is written anew from the other. -/
def State.healDirectory (s : State) (i : Nat) : State :=
  if !s.on Fld.STL_CTRL_COMMIT then s
  else
    let a := s.get Fld.STL_DIR_BASE_BASE + 64 * i
    let b := s.get Fld.STL_DIR_BASE2_BASE + 64 * i
    let s := (s.engineLook a 64).engineLook b 64
    match s.unreadable a 64, s.unreadable b 64 with
    | true, false => s.renew a 64
    | false, true => s.renew b 64
    | _, _ => s

/-- The header in the pool read, and rebuilt where it cannot be (R126). -/
def State.healHeader (s : State) (i : Nat) : State :=
  let s := s.healDirectory i
  let x := s.stall i
  if x.poolSlot.isNone then s
  else
    let s := s.engineLook x.headerAt 4096
    if s.unreadable x.headerAt 4096 then (s.rebuildHeader i).renew x.headerAt 4096 else s

/-- The root table and the page lists of a table, each with its length. -/
def tableRanges (p : PageTable) : List (Nat × Nat) := (p.addr, 8192) :: p.layers.map (fun l => (l.list, 4096))

/-- The pages of a table that hold records at positions below `len`, each with its layer, its number, its address and the bytes in use. -/
def usedPages (p : PageTable) (len : Nat) : List (Nat × Nat × Nat × Nat) :=
  (p.layers.zipIdx).flatMap (fun l => (l.1.pages.zipIdx).filterMap (fun g =>
    let base := recordsIn p.pageMin p.pageMax p.recBytes g.2
    if base < len then some (l.2, g.2, g.1.addr, 64 + min (len - base) (pageRecords p.recBytes g.1.size) * p.recBytes) else none))

/-- Pages of a stall rewritten from its journal (R126): the records below JOURNAL_LEN from its runs. Where one at or above JOURNAL_LEN is lost (`above`), the committed length falls to
JOURNAL_LEN first. -/
def State.rewritePages (s : State) (i : Nat) (pages : List (Nat × Nat × Nat × Nat)) (above : Bool) : State :=
  let records := s.usable i
  let x := s.stall i
  let back := above || decide (coverage records < x.hdr.journalLen)
  let s := if back then s.rollBack i records else s
  let next := nextInputOf (s.stall i)
  let s := pages.foldl (fun s g =>
    { s with t1 := s.t1.write x.hdr.tenant (s.domainKeys x.hdr.tenant) (g.2.2.1 / 64 * 64) (s.rawBytes (g.2.2.1 / 64 * 64) (alignUp 64 g.2.2.2)) }) s
  let s := s.writeRuns i ((records.flatMap recordRuns).filter (fun r => pages.any (fun g => decide (g.1 = r.layer) && decide (some g.2.1 = runPage r))))
  s.setStall i { s.stall i with table := (s.stall i).table.map (fun p => { p with nextInput := next }) }

/-- Pages of a stall that cannot be read rewritten (R126): `fails` says which bytes cannot be. -/
def State.healPages (s : State) (i : Nat) (fails : Nat → Nat → Bool) : State :=
  let x := s.stall i
  match x.table with
  | none => s
  | some p =>
    let bad := (usedPages p x.hdr.committedLen).filter (fun g => fails g.2.2.1 g.2.2.2)
    let above := bad.any (fun g =>
      let base := recordsIn p.pageMin p.pageMax p.recBytes g.2.1
      (List.range (g.2.2.2 / p.recBytes)).any (fun k => decide (x.hdr.journalLen ≤ base + k ∧ base + k < x.hdr.committedLen) &&
        fails (g.2.2.1 + 64 + k * p.recBytes) p.recBytes))
    if bad.isEmpty then s else s.rewritePages i bad above

/-- Whether something that the stall engine reads of a stall in Tier 1 cannot be read. -/
def State.hurt (s : State) (i : Nat) : Bool :=
  let x := s.stall i
  (x.poolSlot.isSome && s.unreadable x.headerAt 4096) ||
    x.table.any (fun p => (tableRanges p).any (fun r => s.unreadable r.1 r.2) || (usedPages p x.hdr.committedLen).any (fun g => s.unreadable g.2.2.1 g.2.2.2))

/-- What the stall engine reads of a stall that is not RUNNING (R120, R126, R140): its directory entry, its header, its tables, its records and its journal, each recovered where it
cannot be read. -/
def State.heal (s : State) (i : Nat) : State :=
  let s := s.healHeader i
  match (s.stall i).table with
  | none => s
  | some p =>
    let s := (tableRanges p).foldl (fun s r => s.engineLook r.1 r.2) s
    let s := (usedPages p (s.stall i).hdr.committedLen).foldl (fun s g => s.engineLook g.2.2.1 g.2.2.2) s
    let s := if (tableRanges p).any (fun r => s.unreadable r.1 r.2) then s.rebuildTable i else s.healPages i s.unreadable
    s.rewriteLost i

/-- A STALL_RESUME's effect on a WAITING stall (R44, R159, R634): the held input and then its own tokenised and queued, its own
journalled, HOST_PAUSE cleared, the stall HOT. `fail` undoes what led here where that cannot be done. -/
def State.resumeWith (s : State) (i : Nat) (c : Cmd) (input : List (List Byte)) (fail : State → State) : State :=
  let r := s.giveInput i input
  if r.2 ≠ CS.ok then (fail r.1).complete c r.2
  else
    let y := r.1.stall i
    (r.1.setStall i { y with state := .hot, leftOut := 0, hdr := { y.hdr with flags := setFlagBit 5 false y.hdr.flags } }).complete c CS.ok
      y.hdr.committedLen

/-- The bytes of an input given by a command: those given with it, or those at address A of a STALL_RESUME. -/
def State.resumeInput (s : State) (c : Cmd) (bytes : Option (List Byte)) : Except Nat (List (List Byte)) :=
  match bytes with
  | some b => .ok [b]
  | none => if opU32 c 32 = 0 then .ok [] else (s.readIn c c.addrA.toNat 0 (opU32 c 32)).map (fun b => [b])

/-- What reading a STALL_RESUME's input leaves behind. -/
def State.resumeRead (s : State) (c : Cmd) (bytes : Option (List Byte)) : State :=
  if bytes.isSome || opU32 c 32 = 0 then s else s.readNoted c c.addrA.toNat (opU32 c 32)

/-- A revive's reads: the records that came back bad are damaged from then on. -/
def State.readRevive (s : State) (i : Nat) (bad : Option Nat) (tagOk : Bool) : State :=
  let x := s.stall i
  let s := if tagOk then s else s.damageRecords i CS.integrity (fun q => some q = headerRecord x)
  match bad with
  | some b => s.damageRecords i CS.uncorrectable (fun q => q.seq = b)
  | none => s

/-- A revive's reads, and the records they lost reported (R140). -/
def State.loseRevive (s : State) (i : Nat) (bad : Option Nat) (tagOk : Bool) : State :=
  let s := s.readRevive i bad tagOk
  ((s.stall i).journal.filter (fun q => (s.recordStatus q).isSome)).foldl (fun s q => s.recordLost q) s

/-- The input of the STALL_RESUME that started a revive, given to the revived stall `i`; `s0` is the state with the stall still PARKED. -/
def State.reviveInput (s s0 : State) (i : Nat) (c : Cmd) (bytes : Option (List Byte)) : State :=
  match s.resumeInput c bytes with
  | .error st => (((s0.undoRevive i).resumeRead c bytes).readInFault c c.addrA.toNat st).complete c st
  | .ok input => ((s.enterWaiting i).resumeRead c bytes).resumeWith i c input (fun _ => (s0.undoRevive i).textConfigBad i)

/-- A revived stall `i` enters its state and the revive's command is answered: `failed` is the status of a tool result whose read failed,
`accepted` says that a result waited for the revive, `read` counts the bytes read from the Shed (R50, R55). -/
def State.enterRevived (s s0 : State) (i : Nat) (r : ReviveX) (failed : Option Nat) (accepted : Bool) (read : Nat) : State :=
  let s := if accepted then (s.setStall i { s.stall i with result := none }).updHdr i (fun h => { h with toolCallId := 0 }) else s
  match failed, r.cause with
  | some st, .input c _ => (s.enterWaiting i).complete c st
  | some _, cause => (s.enterWaiting i).reviveAnswer cause CS.ok read
  | none, .input c bytes => s.reviveInput s0 i c bytes
  | none, .announce => if accepted then s.enterHot i else s.enterWaiting i
  | none, .result _ => s.enterHot i
  | none, .command _ => (if accepted || r.toHot then s.enterHot i else s.enterWaiting i).reviveAnswer r.cause CS.ok read

/-- A revive's reads ended (R50): `bad` is the SEQ of a record found unreadable, `tagOk` whether the header's tag held. A stall for which a tool
result was accepted enters HOT, its TOOL_CALL_ID cleared (R55); one whose input cannot be tokenised enters WAITING (R634). -/
def State.finishRevive (s : State) (i : Nat) (bad : Option Nat) (tagOk : Bool) : State :=
  let x := s.stall i
  match x.revive with
  | none => s
  | some r =>
    let chain := (s.readRevive i bad tagOk).usable i
    let s := s.loseRevive i bad tagOk
    match (headerRecord (s.stall i)).bind s.recordStatus with
    | some st => (s.undoRevive i).reviveAnswer r.cause st 0
    | none =>
      match s.reviveImage i chain with
      | none => ((s.setStall i { s.stall i with revive := some r }).undoRevive i).reviveNoRoom i r
      | some (t, failed) => t.enterRevived (s.setStall i { s.stall i with revive := some r }) i r failed x.result.isSome (journalBytes chain)

/-! ### Tool results and input that arrives (R55, R159, R161) -/

/-- A result discarded without ACCEPT and counted in NW_STAT: as a stray (R55, R424), or for a MOVING stall (R63). -/
def State.countRefused (s : State) (k : Nat) : State := s.bump (Fld.NW_STAT_COUNT k) 1

/-- ACCEPT sent for a message of a stall (R422, R424). -/
def State.sendAccept (s : State) (m : Msg) (i : Nat) : State :=
  let x := s.stall i
  s.send { type := 0x15, src := s.deviceId, dst := m.src, tenant := x.hdr.tenant, handle := x.handle, msgId := m.msgId,
           step := x.hdr.step, epoch := x.hdr.epoch, replayInexact := flagOn x 8 }

/-- An accepted tool result put into a stall that is not PARKED, its first token at `base` (R55, R159, R634): queued, or held where it cannot be tokenised, finds no room or
other input is held before it. -/
def State.takeResult (s : State) (i base : Nat) (bytes : List Byte) : State :=
  let x := s.stall i
  let s := s.updHdr i (fun h => { h with toolCallId := 0 })
  if !x.heldInput.isEmpty then s.setStall i { s.stall i with heldInput := x.heldInput ++ [(base, true, bytes)] }
  else match s.tokeniseInput x.hdr.tenant true bytes with
  | .error _ => (s.lookInput x.hdr.tenant [bytes]).holdInput i [(base, true, bytes)]
  | .ok (toks, bad) => match (s.lookInput x.hdr.tenant [bytes]).queueTokens i toks with
    | none => s.setStall i { s.stall i with heldInput := [(base, true, bytes)], hdr := { (s.stall i).hdr with flags := setFlagBit 5 true x.hdr.flags } }
    | some s => (fun s => if x.state = .waiting then s.enterHot i else s) (s.noteBadToken i bad)

/-- A tool result for a stall that is not RUNNING applied (R55): journalled, accepted, and then tokenised, the stall revived first if PARKED. A repeat of a result that is
accepted and not yet tokenised has no effect, nor has one whose input record finds no room. Answers with a completion status for the instruction that delivers it. -/
def State.applyResult (s : State) (i : Nat) (m : Msg) : State × Nat :=
  let x := s.stall i
  if x.state = .moving then (s.countRefused 7, CS.notReady)
  else if x.state = .orphaned then (s, CS.orphaned)
  else if x.state = .retired then (s, CS.notReady)
  else if x.hdr.toolCallId = 0 || x.hdr.toolCallId ≠ m.msgId then (s.countRefused 0, CS.badCommand)
  else if x.result.any (fun w => w.callId = m.msgId) then (s, CS.notReady)
  else
    let limit := s.get Fld.TX_INPUT_BYTES_BYTES
    let bytes := m.payload.take limit
    let base := s.inputBase i
    let s0 := if flagOn x 6 then s.abandonPark i else s
    match s0.journalIf i 0 (.input base true bytes) with
    | none => (s, CS.notReady)
    | some s =>
      let s := (if limit < m.payload.length then s.stallEvent 0x0805 i [m.payload.length] else s).sendAccept m i
      let x := s.stall i
      if x.state = .parked then
        let s := s.setStall i { x with result := some ⟨m.msgId, none⟩ }
        (if x.revive.isSome then s else s.startRevive i ⟨.result false, true, 0xFF⟩, CS.ok)
      else (s.takeResult i base bytes, CS.ok)

/-- Input of `tx.tok` for a stall that is not RUNNING (R40, R41, R159), in a state that takes input: a park is abandoned, a PARKED stall revived with it, a WAITING one HOT once it is queued. -/
def State.applyInput (s : State) (i : Nat) (c : Cmd) (bytes : List Byte) : State :=
  let s := if flagOn (s.stall i) 6 && (s.stall i).state ≠ .orphaned then s.abandonPark i else s
  let x := s.stall i
  if x.state = .orphaned then s.complete c CS.orphaned
  else if flagOn x 7 || !([StallState.hot, .waiting, .parked].contains x.state) then s.complete c CS.notReady
  else if x.state = .parked then (if s.allocStopped then s else s.startRevive i ⟨.input c (some bytes), true, 0xFF⟩)
  else if !x.heldInput.isEmpty then s.complete c CS.notReady
  else
    let r := s.giveInput i [bytes]
    (if r.2 = CS.ok && x.state = .waiting then r.1.enterHot i else r.1).complete c r.2

/-! ### Directory changes of ownership -/

/-- A slot becomes REMOTE, naming the owner's pair (R31, R62 step 6): pages, header and journal extents are released. -/
def State.becomeRemote (s : State) (i dev handle epoch : Nat) : State :=
  let s := s.releasePages i
  let s := ((s.stall i).extents).foldl (fun s e => s.shedRelease e.1 e.2) s
  let s := s.setDirty i 0
  let x := s.stall i
  s.setStall i { gen := x.gen, handle := x.handle, state := .remote, location := 2, ownerDev := dev, headerAt := handle, epoch := epoch,
                 shape := x.shape, fetchCmd := x.fetchCmd, hdr := { handle := x.handle, kind := x.hdr.kind, tenant := x.hdr.tenant } }

/-- The MOVING fields of a stall cleared and its PRIOR_STATE entered (R62, R64); a stall that returns to PARKED leaves the header pool for the header in the Shed (R32). -/
def State.backToPrior (s : State) (i : Nat) : State :=
  let x := s.stall i
  let parked := decide (x.hdr.priorState = stateCode .parked)
  let s := s.setStall i { x with mig := none, leaseExpiry := 0, copies := []
                                 poolSlot := if parked then none else x.poolSlot
                                 location := if parked then 1 else x.location
                                 headerAt := if parked then shedHeaderAt x else x.headerAt
                                 hdr := { x.hdr with migRole := 0, migPhase := 0, leaseExpiry := 0, peerDev := 0, orphanSince := 0 } }
  s.enterState i (stallStateOf x.hdr.priorState)

/-- The operation of a source's migration ends. -/
def State.endMig (s : State) (i : Nat) (st : OpState) (status r0 r1 : Nat) : State :=
  match (s.stall i).mig with
  | some m => match m.op with
    | some op => if (s.op op).live && !(s.op op).st.ended then s.endOp op st status r0 r1 else s
    | none => s
  | none => s

/-- EPOCH written in header and directory, with a header record in the journal (R62, R64, R67, R69). -/
def State.raiseEpoch (s : State) (i epoch : Nat) : State :=
  let x := s.stall i
  let s := s.setStall i { x with epoch := epoch, ownerDev := s.deviceId, hdr := { x.hdr with
    epoch := epoch, prepEpoch := 0, ownerDev := s.deviceId } }
  s.journal i 0 (.header (s.stall i).hdr)

/-- REPLAY_INEXACT set where a resume cannot be assured bit-identical (R67); one that did not raise EPOCH already raises it. -/
def State.replayResume (s : State) (i : Nat) (raised : Bool) : State :=
  let x := s.stall i
  if x.hdr.replaySig ≠ s.replaySig x.hdr.tenant || flagOn x 2 || x.hdr.ndStall ≠ 0 then
    let s := s.updHdr i (fun h => { h with flags := setFlagBit 8 true h.flags })
    if raised then s else s.raiseEpoch i (x.epoch + 1)
  else s

/-! ### Migration (R62 to R66) -/

/-- The image that PREPARE carries (R62 step 2): for a PARKED stall the records in the Shed; for one in Tier 1 the runs of its pages, and the input of the journal that is not
appended whole. -/
def State.prepareImage (s : State) (i : Nat) : List JRecord :=
  let x := s.stall i
  if x.state = .parked then s.usable i
  else
    let inputs := (liveInputs x.hdr.committedLen ((s.usable i).filterMap inputOf)).map (fun e => JPayload.input e.1 e.2.1 e.2.2)
    let body := (if x.hdr.committedLen = 0 then [] else [JPayload.latent (s.runsOf i 0 x.hdr.committedLen (nextInputOf x))]) ++ inputs
    body.zipIdx.map (fun p => { handle := x.handle, epoch := x.epoch, step := x.hdr.step, seq := p.2 + 1, payload := p.1, extent := 0, sampleCtr := x.hdr.sampleCtr })

/-- A stall about to be MOVING, its header in the pool (R32): that of a PARKED stall is read from the Shed and checked (R36). The status where that cannot be done. -/
def State.intoPool (s : State) (i : Nat) : Except Nat State :=
  let s := s.heal i
  match s.headerStatus i, if (s.stall i).state = .parked then s.takeSlot i else some s with
  | some st, _ => .error st
  | none, none => .error CS.noResource
  | none, some s => .ok s

/-- A migration started at its source (R62 steps 1 and 2). -/
def State.startMigration (s : State) (i : Nat) (op : Option Nat) (dest : Nat) (park : Bool) : State :=
  let s := s.dropRelocs i
  let x := s.stall i
  let lease := s.now + s.get Fld.STL_LEASE_PREP_NS
  let image := s.prepareImage i
  let h := { x.hdr with priorState := stateCode x.state, migRole := 1, migPhase := 1, peerDev := dest, leaseExpiry := lease }
  let s := s.setStall i { x with state := .moving, leaseExpiry := lease, hdr := h
                                 mig := some ⟨op, park, s.now, s.now, 0⟩ }
  s.send { type := 0x01, src := s.deviceId, dst := dest, tenant := h.tenant, msgId := x.handle, aux := lease
           payload := headerBytes (s.domainKeys h.tenant) h (if park then 4 else stateCode x.state), image := some (h, image) }

/-- ABORT sent for a source handle (R64). -/
def State.sendAbort (s : State) (dst tenant srcHandle reason : Nat) : State := s.sendDevice 0x05 dst tenant 0 srcHandle reason

/-- A source gives a migration up (R64): it returns to PRIOR_STATE at its epoch and the operation ends. -/
def State.cancelSource (s : State) (i : Nat) (st : OpState) (status : Nat) : State :=
  let s := s.endMig i st status 0 0
  s.backToPrior i

/-- COMMIT sent (R62 step 4). -/
def State.sendCommit (s : State) (i : Nat) : State :=
  let x := s.stall i
  match x.mig with
  | none => s
  | some m =>
    let lease := s.now + s.get Fld.STL_LEASE_COMMIT_NS
    let s := s.setStall i { x with leaseExpiry := lease, hdr := { x.hdr with migPhase := 3, leaseExpiry := lease } }
    s.sendDevice 0x03 x.hdr.peerDev x.hdr.tenant m.destHandle x.handle lease

/-- The source has learnt that the destination committed (R62 step 6). -/
def State.sourceDone (s : State) (i newHandle epoch : Nat) : State :=
  let dest := (s.stall i).hdr.peerDev
  let s := s.endMig i .done CS.ok newHandle dest
  s.becomeRemote i dest newHandle epoch

/-- The slot that holds the copy of the stall that device `dev` calls `handle`, as a destination. -/
def State.destCopy (s : State) (dev handle : Nat) : Option Nat :=
  (s.stalls.find? (fun e => decide (e.2.hdr.migRole = 2 ∧ e.2.hdr.peerDev = dev) &&
    (match e.2.mig with | some m => decide (m.destHandle = handle) | none => false))).map (·.1)

/-- The REMOTE slot whose owner is the pair given and on which a fetch waits. -/
def State.fetchSlot (s : State) (dev handle : Nat) : Option Nat :=
  (s.stalls.find? (fun e => decide (e.2.state = .remote ∧ e.2.ownerDev = dev ∧ e.2.headerAt = handle) && e.2.fetchCmd.isSome)).map (·.1)

/-- A fetch that ends without the stall's arrival (R66). -/
def State.failFetch (s : State) (dev handle reason : Nat) : State :=
  match s.fetchSlot dev handle with
  | none => s
  | some k =>
    let c := (s.stall k).fetchCmd
    let s := s.setStall k { s.stall k with fetchCmd := none }
    match c with
    | some c => s.complete c CS.notOwner dev handle reason
    | none => s

/-- A destination's copy freed (R64). -/
def State.freeCopy (s : State) (i reason : Nat) : State :=
  let x := s.stall i
  let dev := x.hdr.peerDev
  let handle := match x.mig with | some m => m.destHandle | none => 0
  (s.freeSlot i).failFetch dev handle reason

/-- A destination refuses a PREPARE (R36, R113, R636). -/
def State.refusePrepare (s : State) (m : Msg) (reason : Nat) : State :=
  (s.sendAbort m.src m.tenant m.msgId reason).failFetch m.src m.msgId reason

/-- A fetch whose stall has arrived in slot `j` (R66): the old entry names the new pair, and the command completes or, for a
stall that arrived PARKED, waits for its revive. -/
def State.fetchArrived (s : State) (dev handle j : Nat) : State :=
  match s.fetchSlot dev handle with
  | none => s
  | some k =>
    let c := (s.stall k).fetchCmd
    let s := s.setStall k { s.stall k with fetchCmd := none, ownerDev := s.deviceId, headerAt := (s.stall j).handle, epoch := (s.stall j).epoch }
    match c with
    | none => s
    | some c =>
      if (s.stall j).state = .parked then s.startRevive j ⟨.command c, decide (opByte c 32 = 0), opByte c 34⟩
      else s.complete c CS.ok 0

/-- The pair by which others know a stall whose ownership this holder takes: the source's, for a copy held as a destination, else its own. -/
def State.knownPair (s : State) (x : Stall) : Nat × Nat :=
  match x.mig with
  | some m => if x.hdr.migRole = 2 then (x.hdr.peerDev, m.destHandle) else (s.deviceId, x.handle)
  | none => (s.deviceId, x.handle)

/-- A holder takes ownership at an epoch (R62 step 5, R64, R69): EPOCH written, a destination's PARKED image sealed, the state entered that PRIOR_STATE gives, and the owner published.
None where the Shed has no room for the seal. -/
def State.takeOwnership (s : State) (j epoch : Nat) : Option State :=
  let x := s.stall j
  let known := s.knownPair x
  let s := (s.raiseEpoch j epoch).setDirty j ((x.hdr.committedLen - x.hdr.journalLen) * tokenDirt x)
  (if x.hdr.migRole = 2 && x.hdr.priorState = stateCode .parked then s.sealImage j 0 else some s).map (fun s =>
    (s.backToPrior j).publishOwner x.hdr.tenant x.handle epoch known.1 known.2)

/-- The destination commits (R62 step 5), entering the state that PREPARE carried, and replies COMMITTED. Nothing happens while the Shed has no room for the seal of a PARKED image. -/
def State.commitDest (s : State) (j epoch : Nat) : State :=
  let x := s.stall j
  let src := s.knownPair x
  match s.takeOwnership j epoch with
  | none => s
  | some s => (s.sendDevice 0x04 src.1 x.hdr.tenant src.2 src.2 epoch).fetchArrived src.1 src.2 j

/-- PREPARE at its destination (R62 step 3, R112, R113, R636). -/
def State.receivePrepare (s : State) (m : Msg) (h : Header) (records : List JRecord) (dest : Nat) : State :=
  let t := m.tenant
  let shape := s.tenantShape t
  let dims := s.shapeDims shape
  if h.kind = 0 && h.shapeDims ≠ dims then (s.raise { code := 0x0706, tenant := some t, object := m.msgId }).refusePrepare m CS.badCommand
  else match firstBelow (fun i => decide ((s.stall i).state = .free)) stallSlots with
  | none => s.refusePrepare m CS.noResource
  | some j =>
    let gen := (s.stall j).gen
    let handle := stallHandle j gen t h.kind
    let runs := records.flatMap recordRuns
    let first := runs.headD ⟨0, 0, 0, 0, 0, s.get (Fld.KV_SHAPE_PAGE_MIN shape), s.get (Fld.KV_SHAPE_PAGE_MAX shape), shape,
      s.get (Fld.KV_SHAPE_SPREAD_LOG2 shape), 0, []⟩
    let usable := usableRecords (fun _ => true) 0 0 [] records
    let s1 := s.setStall j { gen := gen, state := .moving, handle := handle, ownerDev := s.deviceId, epoch := h.epoch, leaseExpiry := m.aux
                             origin := some (m.src, m.msgId)
                             shape := shape, pageMin := first.pageMin, pageMax := first.pageMax, spread := first.spread
                             mig := some ⟨none, false, s.now, s.now, m.msgId⟩
                             hdr := { h with handle := handle, migRole := 2, migPhase := 2, peerDev := m.src, prepEpoch := h.epoch
                                             priorState := dest, leaseExpiry := m.aux, journalLen := 0, journalSeq := 0, dirtyBytes := 0
                                             shedRoot := 0, ptRoot := 0, ownerDev := m.src } }
    let store (s : Option State) (r : JRecord) : Option State := s.bind (fun s => s.journalAt j 0 r.step r.sampleCtr r.payload)
    let ready : Option State := (s1.takeSlot j).bind (fun s2 =>
      if dest = stateCode .parked then
        (usable.foldl store (some s2)).map (fun s => s.updHdr j (fun y => { y with journalLen := h.committedLen }))
      else
        (s2.takeTable j 0xFF).bind (fun s3 =>
          ((s3.fillPages j h.committedLen usable).rebuildQueue j usable).map (fun r =>
            if r.2.isNone then r.1 else r.1.updHdr j (fun y => { y with priorState := stateCode .waiting }))))
    match ready with
    | none => s.refusePrepare m CS.noResource
    | some s' => s'.send { type := 0x02, src := s'.deviceId, dst := m.src, tenant := t, handle := m.msgId, msgId := m.msgId, aux := handle }

/-- An OWNER_QUERY about the peer's handle of a stall (R64, R68). -/
def State.askOwner (s : State) (i dev handle : Nat) : State :=
  let x := s.stall i
  let s := s.setStall i { x with mig := x.mig.map (fun m => { m with lastQuery := s.now }) }
  s.sendDevice 0x08 dev x.hdr.tenant handle handle 0

/-- A destination promotes (R64): it commits without its source. -/
def State.promoteDest (s : State) (j : Nat) : State :=
  let s' := s.commitDest j ((s.stall j).hdr.prepEpoch + 1)
  if (s'.stall j).mig.isSome then s else (s'.stallEvent 0x0605 j).replayResume j true

/-- A source takes the stall back from a destination that is down (R64): EPOCH e + 2. -/
def State.promoteSource (s : State) (i : Nat) : State :=
  let x := s.stall i
  let s := (s.endMig i .failed CS.timeout 0 0)
  (((s.takeOwnership i (x.epoch + 2)).getD s).stallEvent 0x0605 i).replayResume i true

/-! ### Commands on a stall, at once or at the end of its step (R25, R41, R42) -/

/-- A stall command refused by its stall's state (R41, R42, R69). -/
def State.stallRefuses (s : State) (c : Cmd) (i : Nat) (release : Bool) : State :=
  let x := s.stall i
  if x.state = .orphaned then s.completeWith c release CS.orphaned 0 0 0
  else match busyOpcode x with
    | some op => s.completeWith c release CS.notReady (stateCode x.state) op 0
    | none => s.completeWith c release CS.notReady (stateCode x.state) 0 0

/-- Whether a stall is in one of the states given with no state-changing command in progress. -/
def stallReady (x : Stall) (states : List StallState) : Bool := (busyOpcode x).isNone && states.contains x.state

/-- STALL_PARK in effect. -/
def State.doPark (s : State) (c : Cmd) (i : Nat) : State :=
  if stallReady (s.stall i) [.hot, .waiting] then s.startPark i (opByte c 32) (some (coreOf c))
  else s.stallRefuses c i false

/-- STALL_REVIVE without FETCH in effect. While an audit stops allocation (R47) a command that would revive a stall waits. -/
def State.doRevive (s : State) (c : Cmd) (i : Nat) : State :=
  let x := s.stall i
  if flagOn x 6 && x.state ≠ .orphaned then (s.abandonPark i).complete c CS.ok 0
  else if stallReady x [.parked] then (if s.allocStopped then s else s.startRevive i ⟨.command (coreOf c), decide (opByte c 32 = 0), opByte c 34⟩)
  else s.stallRefuses c i false

/-- STALL_RESUME in effect (R44, R179). -/
def State.doResume (s : State) (c : Cmd) (i : Nat) : State :=
  let s := if flagOn (s.stall i) 6 && (s.stall i).state ≠ .orphaned && opU32 c 32 ≠ 0 then s.abandonPark i else s
  let x := s.stall i
  if stallReady x [.waiting] then
    match s.resumeInput c none with
    | .error st => ((s.resumeRead c none).readInFault c c.addrA.toNat st).complete c st
    | .ok input => (s.resumeRead c none).resumeWith i c input (fun s => s)
  else if stallReady x [.parked] && opU32 c 32 ≠ 0 then (if s.allocStopped then s else s.startRevive i ⟨.input (coreOf c) none, true, 0xFF⟩)
  else s.stallRefuses c i false

/-- Whether a merge of the index in slot `i` has not ended. -/
def State.merging (s : State) (i : Nat) : Bool :=
  s.ops.any (fun e => e.2.live && decide (e.2.opcode = 0x64) && !e.2.st.ended && decide (e.2.args.head? = some i) &&
    decide (e.2.args.getD 3 0 = (s.stall i).handle))

/-- STALL_RETIRE in effect (R40): the state released, the header kept; the pairs of a job dissolve (R591). The storage of an index stays until an accepted merge ends (R227). -/
def State.doRetire (s : State) (c : Cmd) (i : Nat) : State :=
  let x := s.stall i
  if stallReady x [.hot, .waiting, .parked] then
    let s := ((s.dissolve (fun m => m.job = i)).dropRelocs i).setDirty i 0
    let s := if s.merging i then s else s.releasePages i
    let y := s.stall i
    let s := s.setStall i { y with state := .retired, retiredAt := s.now, queued := [], heldInput := [], result := none, marks := [] }
    s.complete c CS.ok x.hdr.committedLen x.hdr.step
  else s.stallRefuses c i false

/-- STALL_FREE in effect (R40). -/
def State.doFree (s : State) (c : Cmd) (i : Nat) : State :=
  if stallReady (s.stall i) [.retired] && !s.merging i then (s.freeSlot i).complete c CS.ok else s.stallRefuses c i false

/-- STALL_FORGET in effect (R40). -/
def State.doForget (s : State) (c : Cmd) (i : Nat) : State :=
  if stallReady (s.stall i) [.remote] then (s.freeSlot i).complete c CS.ok else s.stallRefuses c i false

/-- STALL_MIGRATE in effect for an operation already started (R62). -/
def State.doMigrate (s : State) (op : Nat) (c : Cmd) (i : Nat) : State :=
  let x := s.stall i
  if (s.op op).st ≠ .queued then s
  else if stallReady x [.hot, .waiting, .parked] then
    match s.intoPool i with
    | .error st => s.endOp op .failed st
    | .ok s => (s.moveOp op .running).startMigration i (some op) (opU16 c 32) (decide (opByte c 34 = 1))
  else s.endOp op .failed (if x.state = .orphaned then CS.orphaned else CS.notReady) (stateCode x.state)

/-- The new header of a STALL_CONFIG (R45), NOTES and SEED as read. -/
def configHeader (c : Cmd) (notes : List Byte) (seed : Nat) (h : Header) : Header :=
  let on (b : Nat) : Bool := (opU16 c 32).testBit b
  { h with
    priority := if on 0 then opByte c 40 else h.priority
    deadPolicy := if on 1 then opByte c 41 else h.deadPolicy
    flags := if on 2 then h.flags / 32 * 32 + opU16 c 42 % 32 else h.flags
    lengthCap := if on 3 then opU32 c 44 else h.lengthCap
    waitTimeout := if on 4 then opU64 c 48 else h.waitTimeout
    endToken := if on 5 then opU32 c 56 else h.endToken
    notes := if on 6 then notes else h.notes
    seed := if on 7 then seed else h.seed }

/-- STALL_CONFIG in effect (R45): the selected fields; for a PARKED stall the header in the Shed is read and checked (R36), and written anew. -/
def State.doConfig (s : State) (c : Cmd) (i : Nat) : State :=
  let x := s.stall i
  let on (b : Nat) : Bool := (opU16 c 32).testBit b
  let capOk := !on 3 || decide (x.hdr.committedLen ≤ opU32 c 44)
  if x.state = .orphaned then s.complete c CS.orphaned
  else if !capOk then s.complete c CS.badCommand
  else if on 7 && x.hdr.step ≠ 0 then s.complete c CS.notReady (stateCode x.state)
  else match s.headerStatus i with
  | some st => s.complete c st
  | none =>
    match (if on 6 then s.readIn c c.addrA.toNat 0 1792 else .ok []) with
    | .error st => ((s.readNoted c c.addrA.toNat 1792).readInFault c c.addrA.toNat st).complete c st
    | .ok notes =>
      match (if on 7 then s.readIn c c.addrB.toNat notes.length 16 else .ok []) with
      | .error st => ((s.readNoted c c.addrB.toNat 16).readInFault c c.addrB.toNat st).complete c st
      | .ok seed =>
        let s := if on 6 then s.readNoted c c.addrA.toNat 1792 else s
        let s := if on 7 then s.readNoted c c.addrB.toNat 16 else s
        let s := s.updHdr i (configHeader c notes (natOfBytes seed))
        match (if (s.stall i).location = 1 then s.journalIf i 0 (.header (s.stall i).hdr) else some s) with
        | none => (s.setStall i x).complete c CS.noResource
        | some s =>
          (if (s.stall i).location = 1 then s.setStall i { s.stall i with headerAt := shedHeaderAt (s.stall i) } else s).complete c CS.ok (opU16 c 32)

/-- TEXT_BIND in effect (R181): the grammar, the stop set or both replaced. -/
def State.doTextBind (s : State) (c : Cmd) (i : Nat) : State :=
  let x := s.stall i
  let on (b : Nat) : Bool := (opByte c 32).testBit b
  let t := x.hdr.tenant
  let image := if on 0 && c.addrA ≠ 0 then some (s.grammarImage t c.addrA.toNat) else none
  let stops := if on 2 && c.addrB ≠ 0 then some (s.stopSet t c.addrB.toNat) else none
  if x.state = .orphaned then s.complete c CS.orphaned
  else match busyOpcode x with
  | some op => s.complete c CS.notReady (stateCode x.state) op
  | none =>
    match image, stops with
    | some (.error st), _ => (s.stallEvent 0x0802 i).complete c st
    | _, some (.error st) => s.complete c st
    | _, _ =>
      let g : Option GrammarImage := match image with | some (.ok g) => some g | _ => none
      let keep := on 1
      if on 0 && keep && (match g with | some g => decide (g.states ≤ x.hdr.grState) | none => false) then s.complete c CS.badCommand
      else
        let s := s.updHdr i (fun h =>
          let h := if on 0 then { h with
              grImage := c.addrA.toNat
              grState := if keep then h.grState else (match g with | some g => g.start | none => 0)
              grSp := if keep then h.grSp else 0
              grStack := if keep then h.grStack else [] } else h
          if on 2 then { h with stopSet := c.addrB.toNat } else h)
        s.complete c CS.ok

/-- A stall command in effect, by its opcode, and for STALL_MIGRATE its operation slot above it. -/
def State.doCommand (s : State) (i opcode : Nat) (c : Cmd) : State :=
  match opcode % 256 with
  | 0x22 => s.doConfig c i
  | 0x23 => s.doPark c i
  | 0x24 => s.doRevive c i
  | 0x25 => s.doMigrate (opcode / 256) c i
  | 0x26 => s.doResume c i
  | 0x27 => s.doRetire c i
  | 0x28 => s.doFree c i
  | 0x29 => s.doForget c i
  | 0x40 => s.doTextBind c i
  | _ => s

/-- An owner's answer to FETCH (R66). -/
def State.answerFetch (s : State) (i requester msgId : Nat) : State :=
  let x := s.stall i
  let refuse (st : Nat) : State := s.sendDevice 0x07 requester x.hdr.tenant 0 msgId st
  if x.hdr.kind = 1 then refuse CS.badCommand
  else if x.state = .orphaned then refuse CS.orphaned
  else if x.state = .running then s.setStall i { x with deferred := x.deferred ++ [.fetch requester] }
  else if stallReady x [.hot, .waiting, .parked] then
    match s.intoPool i with
    | .error st => refuse st
    | .ok s => s.startMigration i none requester false
  else refuse CS.notReady

/-- One thing that waited for the end of a stall's step. -/
def State.doDeferred (s : State) (i : Nat) : Deferred → State
  | .command op c => s.doCommand i op c
  | .fetch dev => s.answerFetch i dev (s.stall i).handle
  | .result m c =>
    let r := s.applyResult i m
    match c with | some c => r.1.complete c r.2 | none => r.1
  | .input c bytes => s.applyInput i c bytes

/-- What waited for the end of a stall's step takes effect (R25, R41, R66), in the order it came. -/
def State.applyDeferred (s : State) (i : Nat) : State :=
  let x := s.stall i
  x.deferred.foldl (fun s d => s.doDeferred i d) (s.setStall i { x with deferred := [] })

/-- Something for a stall: deferred while the stall is RUNNING, else in effect at once. -/
def State.soon (s : State) (i : Nat) (d : Deferred) : State :=
  let x := s.stall i
  if x.state = .running then s.setStall i { x with deferred := x.deferred ++ [d] } else s.doDeferred i d

/-- A state-changing command on a stall: deferred while the stall is RUNNING, else in effect at once. -/
def State.nowOrDeferred (s : State) (i opcode : Nat) (c : Cmd) : State := s.soon i (.command opcode c)

end Sys2Proof.Machine
end

