-- ==== Sys2Proof/Machine/StepOps.lean ====
section
/-! DEFINITION. What the step of a stall is written with: the engines' working state, refunds, committing and abandoning a step
(R72, R92, R97 to R102, R167, R326, R376). -/

namespace Sys2Proof.Machine

/-! ### Accounts (R373 to R376) -/

/-- EV_TN_BUDGET_EMPTY, the first time in a period that REMAINING reaches 0 (R374). -/
def State.noteEmpty (s : State) (t : Nat) : State :=
  if s.get (Fld.TN_REMAINING_TOKENS t) ≠ 0 || s.emptyRaised.contains t then s
  else { s with emptyRaised := t :: s.emptyRaised }.raise { code := 0x0A04, tenant := some t }

/-- What TN_GRANTED and TN_REMAINING read while nothing bounds an account. -/
def unlimitedTokens : Nat := 0xFFFFFFFFFFFF

/-- Whether no accounting period has ended yet: every account is then unlimited, for UNLIMITED is 1 after power-up (R379) and a write to TN_GRANT
takes effect at a period's end (R373). -/
def State.firstPeriod (s : State) : Bool := s.get Fld.TN_PERIOD_NO_COUNT = 0

/-- Whether a reservation of an account never fails (R373). -/
def State.unlimited (s : State) (t : Nat) : Bool := s.firstPeriod || s.get (Fld.TN_GRANTED_TOKENS t) = unlimitedTokens

/-- Tokens charged to an account (R72). -/
def State.charge (s : State) (t n : Nat) : State :=
  let s := s.bump (Fld.TN_CONSUMED_TOKENS t) n
  if s.firstPeriod then s
  else (s.put (Fld.TN_REMAINING_TOKENS t) (s.get (Fld.TN_REMAINING_TOKENS t) - n)).noteEmpty t

/-- A refund applied (R376): credited to the period in progress. -/
def State.refund (s : State) (t n : Nat) : State :=
  let s := s.bump (Fld.TN_REFUNDED_TOKENS t) n
  if s.firstPeriod then s else s.bump (Fld.TN_REMAINING_TOKENS t) n

/-! ### The engines' working state -/

/-- The working state of a header. -/
def textOf (h : Header) : TextState := ⟨h.grState, h.grStack.reverse, h.stop, h.spill, h.toolCallId⟩

/-- The header with a working state written. -/
def headerWithText (h : Header) (x : TextState) : Header :=
  { h with grState := x.grState, grSp := x.grStack.length, grStack := x.grStack.reverse, stop := x.stop, spill := x.spill,
           toolCallId := x.callId }

/-- The text and grammar state of a stall: that of its step, or of its header outside a step. -/
def State.text (s : State) (i : Nat) : TextState :=
  match (s.stall i).step with
  | some st => st.text
  | none => textOf (s.stall i).hdr

def State.setText (s : State) (i : Nat) (x : TextState) : State :=
  let st := s.stall i
  match st.step with
  | some p => s.setStall i { st with step := some { p with text := x } }
  | none => s.setStall i { st with hdr := headerWithText st.hdr x }

/-- A message of a stall's step (R421, R422): kept until the step commits; outside a step it leaves at once. -/
def State.stepSend (s : State) (i : Nat) (m : Msg) : State :=
  let x := s.stall i
  match x.step with
  | some p => s.setStall i { x with step := some { p with out := p.out ++ [m] } }
  | none => s.send m

/-- A message of types 0x10 to 0x16 about a stall (R421): it carries HANDLE, EPOCH, REPLAY_INEXACT and the number of the step being generated, which is STEP before that step
commits (R67). -/
def State.stallMsg (s : State) (i type dst msgId aux : Nat) (payload : List Byte) : Msg :=
  let x := s.stall i
  { type := type, src := s.deviceId, dst := dst, tenant := x.hdr.tenant, handle := x.handle, msgId := msgId, step := x.hdr.step,
    aux := aux, epoch := x.hdr.epoch, replayInexact := flagOn x 8, payload := payload }

/-- Output bytes (R162): an OUTPUT message for the gateway, unless there are none. -/
def State.emitBytes (s : State) (i : Nat) (bytes : List Byte) : State :=
  if bytes.isEmpty then s else s.stepSend i (s.stallMsg i 0x16 0xF000 0 0 bytes)

/-- The held-back bytes emitted and HELD 0 (R167). -/
def State.flushHeld (s : State) (i : Nat) : State :=
  let x := s.text i
  let bytes := x.stop.heldBytes.take x.stop.held
  (s.emitBytes i bytes).setText i { x with stop := { x.stop with held := 0 } }

/-- The end of a stall's output noted in LAST_STOP (R165). -/
def State.setLastStop (s : State) (i n : Nat) : State :=
  let x := s.text i
  s.setText i { x with stop := { x.stop with lastStop := n } }

/-- A draft that verification accepts continues the step; the tokens of a step's appended records, drafts left out. -/
def StepX.base (p : StepX) : Nat := p.appended.length

/-! ### Steps -/

/-- FILLED of every layer set (R92, R97, R99). -/
def State.setFilled (s : State) (i n : Nat) : State :=
  let x := s.stall i
  s.setStall i { x with table := x.table.map (fun p => { p with layers := p.layers.map (fun l => { l with filled := n }) }) }

/-- A step's reservation settled (R72): what was not generated is refunded and STEP_RESERVE cleared. -/
def State.settle (s : State) (i generated : Nat) : State :=
  let x := s.stall i
  let back := x.hdr.stepReserve - generated
  let s := s.setStall i { x with hdr := { x.hdr with stepReserve := 0, budgetUsed := x.hdr.budgetUsed - back } }
  s.refund x.hdr.tenant back

/-- A Hub thread's request answered. -/
def State.answerHub (s : State) (slot unit : Nat) (c : Cmd) (status r0 : Nat) : State :=
  { s with answers := s.answers ++ [⟨slot, unit, coreOf c, status, r0, 0, 0⟩] }

/-- A step stopped (R99): the length pointers return, the whole reservation is refunded, and the stall is HOT. An `st.commit` held at step 9 completes with CS_NOT_READY, and
so do the draws that wait for a mask. -/
def State.stopStep (s : State) (i : Nat) : State :=
  let x := s.stall i
  if x.state ≠ .running then s
  else
    let s := match x.step.bind (·.held) with
      | some h => s.answerHub h.slot h.unit h.cmd CS.notReady 0
      | none => s
    let s := ((x.step.map (·.waits)).getD []).foldl (fun s w => s.answerHub w.slot w.unit w.cmd CS.notReady 0xFFFFFFFF) s
    let s := s.settle i 0
    let x := s.stall i
    let s := s.setStall i { x with state := .hot, step := none, leftOut := 0, hdr := { x.hdr with specLen := x.hdr.committedLen } }
    s.setFilled i x.hdr.committedLen

/-- A step abandoned (R99): it is stopped, and what waited for its end takes effect. -/
def State.abandonStep (s : State) (i : Nat) : State :=
  if (s.stall i).state ≠ .running then s else (s.stopStep i).applyDeferred i

/-- A step abandoned because a token or the stop set cannot be used (R163, R164): PAUSED is set. -/
def State.abandonPaused (s : State) (i : Nat) : State :=
  let s := s.updHdr i (fun h => { h with flags := setFlagBit 3 true h.flags })
  s.abandonStep i

/-- Bytes queued for a tenant's traffic on all ports (R430). -/
def State.queuedBytes (s : State) (t : Nat) : Nat :=
  ((s.net.queues.filter (fun q => q.1 / 8 % 256 = t)).map (fun q => (q.2.items.map (·.bytes)).foldl (· + ·) 0)).foldl (· + ·) 0

/-- The last OUTPUT message of a list given the step's status and LAST_STOP (R422). -/
def markLast (status lastStop : Nat) (out : List Msg) : List Msg :=
  match out.reverse.findIdx? (fun m => m.type = 0x16) with
  | none => out
  | some k => out.modify (out.length - 1 - k) (fun m => { m with aux := status + 256 * lastStop })

/-- Whether a step ends at the token limit (R100): in its rows 1 and 2, or where its appends end exactly at N with the input
consumed and a token drawn. -/
def State.limitEnds (s : State) (i accepted token : Nat) : Bool :=
  let x := s.stall i
  match x.step with
  | none => false
  | some p => p.limitHit || (decide (token ≠ 0xFFFFFFFF) && decide (tokenLimit x ≤ x.hdr.committedLen + p.base + accepted))

/-- Whether a step's tool call has closed (R53). -/
def callClosed (x : Stall) (p : StepX) : Bool := decide (p.text.callId ≠ x.hdr.toolCallId) && decide (p.text.callId ≠ 0)

/-- The status a step ends with: CS_LENGTH_LIMIT where the limit ends a step whose outcome is CS_OK (R100, R101). -/
def State.finalStatus (s : State) (i accepted token status : Nat) : Nat :=
  let x := s.stall i
  match x.step with
  | none => status
  | some p => if status = CS.ok && !callClosed x p && s.limitEnds i accepted token then CS.lengthLimit else status

/-- The lengths, NEXT_INPUT, STEP, SAMPLE_CTR, ND_STALL and the time of the step moved on, and what the step emits sent (R97, R72). A step that appends nothing at the limit keeps
NEXT_INPUT (R100, R102). -/
def State.movePast (s : State) (i accepted token final : Nat) : State :=
  let x := s.stall i
  match x.step with
  | none => s
  | some p =>
    let len := x.hdr.committedLen + p.base + accepted
    let selected := accepted + (if token = 0xFFFFFFFF || p.dead then 0 else 1)
    let s := (markLast final p.text.stop.lastStop p.out).foldl (fun s m => s.send m) s
    let flags := if final = CS.paused ∧ x.hdr.deadPolicy = 2 then setFlagBit 5 true x.hdr.flags else x.hdr.flags
    let h := headerWithText x.hdr p.text
    (s.setStall i { x with
      step := none
      marks := if x.hdr.journalLen < x.hdr.committedLen then x.marks ++ [lastMark x] else x.marks
      table := x.table.map (fun q => { q with nextInput := if p.limitHit && p.appended.isEmpty then q.nextInput else token })
      hdr := { h with committedLen := len, specLen := len, step := h.step + 1, sampleCtr := h.sampleCtr + selected,
                      ndStall := h.ndStall + p.nd, lastStepYt := s.now, flags := flags
                      replaySig := s.replaySig h.tenant } }).setFilled i len

/-- A step committed (R97, R72, R100, R178, R326): the lengths, NEXT_INPUT, STEP, SAMPLE_CTR and ND_STALL move on, what the step
emits leaves, the refund is applied and the stall enters the state of R40 for the status. -/
def State.commitStep (s : State) (i accepted token status : Nat) : State :=
  let x := s.stall i
  match x.step with
  | none => s
  | some p =>
    let calls := callClosed x p
    let final := s.finalStatus i accepted token status
    let limit := decide (final = CS.lengthLimit)
    let dropped := if limit then x.queued.length - p.inputTokens else 0
    let s := ((if final ≠ CS.ok ∨ calls then s.flushHeld i else s).takeInput i (p.inputTokens + dropped)).movePast i accepted token final
    let s := s.settle i (accepted + (if token = 0xFFFFFFFF then 0 else 1))
    let s := s.setDirty i ((s.stall i).hdr.dirtyBytes + (p.base + accepted) * tokenDirt (s.stall i))
    let s := if limit then s.stallEvent 0x0703 i [dropped] else s
    (if final ≠ CS.ok ∨ calls then s.enterWaiting i else s.enterHot i).applyDeferred i

/-! ### Orphans (R68, R69) -/

/-- What a stall in doubt was doing set aside (R25, R68, R69): its step is stopped, a park or a revive given up with CS_ORPHANED. -/
def State.haltWork (s : State) (i : Nat) : State :=
  let s := s.stopStep i
  let x := s.stall i
  let s : State := match x.park with
    | some p =>
      let s := s.setStall i { x with park := none, hdr := { x.hdr with flags := setFlagBit 6 false x.hdr.flags } }
      (match p.cmd with | some c => s.complete c CS.orphaned | none => s)
    | none => s
  match x.revive with
  | some r => (s.undoRevive i).reviveAnswer r.cause CS.orphaned 0
  | none => s

/-- A stall put into ORPHANED (R68): PRIOR_STATE is the one it had, or for a migration the one kept. OWNER_DEV and PEER_DEV are asked about the stall: the owner of a REMOTE stall by its own handle,
the peer of a migration by the handle it gave, or by this device's while it has given none. What waited for the end of its step completes with CS_ORPHANED. -/
def State.orphan (s : State) (i : Nat) : State :=
  if (s.stall i).state = .orphaned then s
  else
    let s := (s.haltWork i).endMig i .failed CS.orphaned 0 0
    let x := s.stall i
    let prior := if x.state = .moving then x.hdr.priorState else stateCode x.state
    let s := s.setStall i { x with state := .orphaned, copies := [], hdr := { x.hdr with orphanSince := s.now, priorState := prior } }
    let s := s.stallEvent 0x0603 i
    let asked : List (Nat × Nat) := match x.state, x.mig with
      | .remote, _ => [(x.ownerDev, x.headerAt)]
      | _, some m => [(x.hdr.peerDev, if m.destHandle = 0 then x.handle else m.destHandle)]
      | _, none => []
    ((asked.filter (fun a => a.1 ≠ s.deviceId)).foldl (fun s a => s.sendDevice 0x08 a.1 x.hdr.tenant a.2 a.2 0) s).applyDeferred i

/-- A copy that an ORPHANED holder learns of (R69), in place of what it knew of that device's. -/
def State.learnCopy (s : State) (i : Nat) (c : CopyInfo) : State :=
  let x := s.stall i
  s.setStall i { x with copies := x.copies.filter (fun q => q.device ≠ c.device) ++ [c] }

/-- A holder drops its copy for a higher epoch (R69). -/
def State.dropCopy (s : State) (i dev handle epoch : Nat) : State :=
  (s.becomeRemote i dev handle epoch).stallEvent 0x0608 i

/-- Whether copy `a` wins over copy `b` (R69): higher epoch, committed over prepared, lower device. -/
def copyWins (a b : CopyInfo) : Bool :=
  if a.epoch ≠ b.epoch then decide (b.epoch < a.epoch)
  else if a.committed ≠ b.committed then a.committed
  else decide (a.device < b.device)

/-- Orphan resolution by comparison (R69): the winner claims the stall, a loser enters REMOTE. A holder whose PRIOR_STATE is REMOTE has no copy of its own: where it has learnt of none it
goes on as it was. Nothing happens while the Shed has no room for the seal of a winner's PARKED image. -/
def State.resolveOrphan (s : State) (i : Nat) : State :=
  let x := s.stall i
  let own : List CopyInfo := if x.hdr.priorState = stateCode .remote then [] else [⟨s.deviceId, x.handle, x.hdr.epoch, decide (x.hdr.prepEpoch = 0)⟩]
  match own ++ x.copies with
  | [] => s.becomeRemote i x.ownerDev x.headerAt x.epoch
  | c :: rest =>
    let best := rest.foldl (fun b c => if copyWins c b then c else b) c
    if best.device = s.deviceId then
      let top := x.copies.foldl (fun e c => max e c.epoch) x.hdr.epoch
      match s.takeOwnership i (top + 1) with
      | none => s
      | some s => (s.stallEvent 0x0604 i).replayResume i true
    else s.becomeRemote i best.device best.handle best.epoch

end Sys2Proof.Machine
end

