-- ==== Sys2Proof/Machine/SurveyOps.lean ====
section
/-! DEFINITION. The Survey (R478 to R491): its records as a view of the state, and the writing of a generation; which physical unit
serves each logical number (R9 to R11, R563). -/

namespace Sys2Proof.Machine

/-! ### Units and spares (R10, R563) -/

/-- Whether logical Cell `n` is ABSENT. -/
def State.cellAbsent (s : State) (n : Nat) : Bool := s.hiveAbsent (n / 512) || s.units.absentCells.contains n

/-- The physical Cell, within its Comb, that serves logical Cell `n`. -/
def State.physicalCell (s : State) (n : Nat) : Nat :=
  match s.units.rebound.find? (fun e => e.1 = n) with
  | some e => e.2
  | none => n % 256

/-- Whether physical Cell `p` of global Comb `c` has been found failed. -/
def State.cellBad (s : State) (c p : Nat) : Bool := s.units.badCells.contains (272 * c + p)

/-- The logical Cell that spare Cell 256 + k of Comb `c` serves. -/
def State.spareCellServes (s : State) (c k : Nat) : Option Nat :=
  (s.units.rebound.find? (fun e => decide (e.1 / 256 = c ∧ e.2 = 256 + k))).map (·.1)

/-- Whether spare Cell `k` of Comb `c` is FREE. -/
def State.spareCellFree (s : State) (c k : Nat) : Bool :=
  !s.hiveAbsent (c / 2) && !s.cellBad c (256 + k) && (s.spareCellServes c k).isNone

/-- The FREE spare Cells of a Comb. -/
def State.freeSpareCells (s : State) (c : Nat) : List Nat := (List.range 16).filter (s.spareCellFree c)

/-- The frames of a Hive with no ABSENT Cell (R105). -/
def State.usableFrames (s : State) (h : Nat) : Nat :=
  ((List.range 64).filter (fun f => (List.range 8).all (fun i => !s.cellAbsent (512 * h + 8 * f + i)))).length

/-- The physical tally that serves tally `n` (R350). -/
def State.physicalTally (s : State) (n : Nat) : Nat :=
  match s.units.tallyAt.find? (fun e => e.1 = n) with
  | some e => e.2
  | none => n

def State.tallyAbsent (s : State) (n : Nat) : Bool := s.on (Fld.TL_BIND_ABSENT n)

/-- The tally that spare tally 8,192 + k serves. -/
def State.spareTallyServes (s : State) (k : Nat) : Option Nat := (s.units.tallyAt.find? (fun e => e.2 = 8192 + k)).map (·.1)
def State.spareTallyFree (s : State) (k : Nat) : Bool := !s.units.badTallies.contains (8192 + k) && (s.spareTallyServes k).isNone

/-- Key-engine instances likewise. -/
def State.physicalKey (s : State) (n : Nat) : Nat :=
  match s.units.keyAt.find? (fun e => e.1 = n) with
  | some e => e.2
  | none => n
def State.spareKeyServes (s : State) (k : Nat) : Option Nat := (s.units.keyAt.find? (fun e => e.2 = 8 + k)).map (·.1)
def State.spareKeyFree (s : State) (k : Nat) : Bool := !s.units.badKeys.contains (8 + k) && (s.spareKeyServes k).isNone

/-- The SerDes lane that serves lane `n` = 4 × port + lane (R419). -/
def State.physicalLane (s : State) (n : Nat) : Nat :=
  match s.units.laneAt.find? (fun e => e.1 = n) with
  | some e => e.2
  | none => n
def State.spareLaneServes (s : State) (k : Nat) : Option Nat := (s.units.laneAt.find? (fun e => e.2 = 32 + k)).map (·.1)
def State.spareLaneFree (s : State) (k : Nat) : Bool := !s.units.badLanes.contains (32 + k) && (s.spareLaneServes k).isNone

/-- Whether the unit of an ENGINE record (kind × 256 + instance) is lost (R564). -/
def State.engineLost (s : State) (kind instance_ : Nat) : Bool := s.units.enginesLost.contains (256 * kind + instance_)

/-- Whether the last text, grammar or vector search engine (kinds 1 to 3, eight each) is lost (R564). -/
def State.kindLost (s : State) (kind : Nat) : Bool :=
  decide (1 ≤ kind ∧ kind ≤ 3) && (List.range 8).all (fun i => s.engineLost kind i)

/-! ### Records (R483 to R485) -/

/-- The index in the Survey of a record of each kind. -/
def svHive (h : Nat) : Nat := 32 + h
def svComb (c : Nat) : Nat := 48 + c
def svCell (n : Nat) : Nat := 80 + n
def svStack (h : Nat) : Nat := 8272 + h
def svChannel (h c : Nat) : Nat := 8288 + 16 * h + c
def svHostPort (n : Nat) : Nat := 8544 + n
def svNetPort (p : Nat) : Nat := 8548 + p
def svLane (n : Nat) : Nat := 8556 + n
def svShed (p : Nat) : Nat := 8588 + p
def svTally (n : Nat) : Nat := 8667 + n
def svSpareCell (c k : Nat) : Nat := 16859 + 16 * c + k
def svSpareChannel (h : Nat) : Nat := 17371 + h
def svSpareLane (k : Nat) : Nat := 17387 + k
def svSpareTally (k : Nat) : Nat := 17391 + k
def svSpareGroom : Nat := 17903
def svSpareKey (k : Nat) : Nat := 17904 + k

/-- The first ENGINE record of each kind, with how many there are (R485). -/
def engineKinds : List (Nat × Nat) := [(0, 32), (1, 8), (2, 8), (3, 8), (4, 1), (5, 1), (6, 1), (7, 1), (8, 8), (9, 1), (10, 1), (11, 1)]

/-- The kind and instance of the `j`-th ENGINE record. -/
def engineOf : (kinds : List (Nat × Nat)) → (j : Nat) → Nat × Nat
  | [], j => (0, j)
  | (k, n) :: t, j => if j < n then (k, j) else engineOf t (j - n)

/-- The index of an ENGINE record. -/
def svEngine (kind instance_ : Nat) : Nat :=
  8596 + ((engineKinds.filter (fun e => e.1 < kind)).map (·.2)).foldl (· + ·) 0 + instance_

/-- The member parameters in order of their IDs 0x0001 to 0x0020 (R486). -/
def memberParameters : List Nat := [0x16, 16, 2, 256, 16, 16, channelBytes, 262144, 65536, 1024, 64, 1950000000, 128, 100663296, 8, 8, 8,
  8, 8, 16, 8, 4, 256, 16, 8192, 4194304, 2097152, 1048576, 2 ^ 32, 4096, 32, 4096]

/-- A record's type, STATE, PARENT, LOGICAL, PHYSICAL and bytes 16 to 31. -/
structure Record where
  type : Nat
  state : Nat
  parent : Nat
  logical : Nat
  physical : Nat
  tail : Nat
deriving DecidableEq, Repr

/-- An ABSENT unit's record: no physical unit, and type-specific bytes 0. -/
def absentRecord (type parent logical : Nat) : Record := ⟨type, 1, parent, logical, 0xFFFFFFFF, 0⟩

/-- The partition with VALID 1 that holds a Comb, or 0xFF. -/
def State.combPartition (s : State) (c : Nat) : Nat :=
  (firstBelow (fun p => s.on (Fld.SCH_PART_VALID p) && (s.get (Fld.SCH_PART_COMBS p)).testBit c) 32).getD 0xFF

/-- The Cells of a Hive that are not ABSENT. -/
def State.cellsInHive (s : State) (h : Nat) : Nat := s.cellsInComb (2 * h) + s.cellsInComb (2 * h + 1)

/-- The physical channel of a Hive that is its FREE spare. -/
def State.spareChannel (s : State) (h : Nat) : Option Nat := firstBelow (fun p => s.get (Fld.HB_CH_STATE h p) = 1) 17

/-- The STATE of a spare: RETIRED once failed, BOUND while it serves, else FREE. -/
def spareRecord (parent index physical : Nat) (bad : Bool) (serves : Option Nat) : Record :=
  ⟨0x0D, if bad then 5 else if serves.isSome then 4 else 3, parent, index, physical, serves.getD 0xFFFFFFFF⟩

/-- The records of a Hive: HIVE and STACK. -/
def State.hiveRecord (s : State) (h : Nat) : Record :=
  if s.hiveAbsent h then absentRecord 2 0xFFFF h
  else ⟨2, 0, 0xFFFF, h, h, s.get (Fld.KV_FRAMES_F h) + s.channelsInUse h * 2 ^ 16 + s.cellsInHive h * 2 ^ 32 + s.channelsInUse h * channelBytes * 2 ^ 64⟩

def State.combRecord (s : State) (c : Nat) : Record :=
  if s.cellsInComb c = 0 then absentRecord 3 (c / 2) c
  else ⟨3, 0, c / 2, c, c % 2, s.cellsInComb c + (s.freeSpareCells c).length * 2 ^ 16 + s.combPartition c * 2 ^ 32⟩

def State.cellRecord (s : State) (n : Nat) : Record :=
  if s.cellAbsent n then absentRecord 4 (n / 256) n
  else ⟨4, 0, n / 256, n, s.physicalCell n, sparseGet 0 s.units.rebinds n⟩

def State.stackRecord (s : State) (h : Nat) : Record :=
  if s.hiveAbsent h then absentRecord 5 h h
  else ⟨5, 0, h, h, h, 17 * channelBytes + (s.spareChannel h).getD 0xFFFF * 2 ^ 64⟩

def State.channelRecord (s : State) (h c : Nat) : Record :=
  match s.hiveAbsent h, s.physicalChannel h c with
  | false, some p => ⟨6, 0, h, 16 * h + c, p, c * channelBytes + channelBytes * 2 ^ 64⟩
  | _, _ => absentRecord 6 h (16 * h + c)

def State.netPortRecord (s : State) (p : Nat) : Record :=
  if (List.range 4).all (fun i => s.units.absentLanes.contains (4 * p + i)) then absentRecord 8 0xFFFF p
  else ⟨8, if (List.range 4).any (fun i => 32 ≤ s.physicalLane (4 * p + i)) then 2 else 0, 0xFFFF, p, p, s.get (Fld.NW_PORT_CFG_PHY p)⟩

def State.laneRecord (s : State) (n : Nat) : Record :=
  if s.units.absentLanes.contains n then absentRecord 9 (n / 4) n else ⟨9, 0, n / 4, n, s.physicalLane n, 0⟩

/-- The data bytes of a Shed port: its bands' (R139) erase blocks of 16 KiB pages. -/
def State.shedRecord (s : State) (p : Nat) : Record :=
  let x := sparseGet ({} : ShedPort) s.shed p
  if !s.on (Fld.SH_PORT_INFO_IN_SERVICE p) && !s.on (Fld.SH_PORT_INFO_READ_ONLY p) then absentRecord 0x0A 0xFFFF p
  else ⟨0x0A, if s.on (Fld.SH_PORT_INFO_READ_ONLY p) then 2 else 0, 0xFFFF, p, p,
    (x.goodAtTrain - heldBack x.goodAtTrain) * s.get (Fld.SH_PORT_INFO_PAGES p) * 16384 + s.get (Fld.SH_PORT_INFO_TR_US p) * 2 ^ 64⟩

def State.engineRecord (s : State) (j : Nat) : Record :=
  let e := engineOf engineKinds j
  let physical : Option Nat :=
    if e.1 = 11 then s.units.groom
    else if e.1 = 8 then (if s.units.absentKeys.contains e.2 then none else some (s.physicalKey e.2))
    else if s.engineLost e.1 e.2 then none else some e.2
  match physical with
  | some p => ⟨0x0B, 0, 0xFFFF, 256 * e.1 + e.2, p, 0⟩
  | none => absentRecord 0x0B 0xFFFF (256 * e.1 + e.2)

def State.tallyRecord (s : State) (n : Nat) : Record :=
  if s.tallyAbsent n then absentRecord 0x0C 0xFFFF n else ⟨0x0C, 0, 0xFFFF, n, s.physicalTally n, 0⟩

def State.spareOf (s : State) (j : Nat) : Record :=
  if j < 512 then spareRecord (j / 16) j (256 + j % 16) (s.cellBad (j / 16) (256 + j % 16)) (s.spareCellServes (j / 16) (j % 16))
  else if j < 528 then
    let h := j - 512
    let c := s.get (Fld.HB_CH_LOGICAL h 16)
    spareRecord h (65536 + h) 16 (decide (4 ≤ s.get (Fld.HB_CH_STATE h 16))) (if c < 16 then some (16 * h + c) else none)
  else if j < 532 then
    spareRecord 0xFFFF (2 * 65536 + (j - 528)) (32 + (j - 528)) (s.units.badLanes.contains (32 + (j - 528))) (s.spareLaneServes (j - 528))
  else if j < 1044 then
    spareRecord 0xFFFF (3 * 65536 + (j - 532)) (8192 + (j - 532)) (s.units.badTallies.contains (8192 + (j - 532))) (s.spareTallyServes (j - 532))
  else if j = 1044 then
    spareRecord 0xFFFF (4 * 65536) 1 (s.units.badGroom.contains 1) (if s.units.groom = some 1 then some 0 else none)
  else spareRecord 0xFFFF (5 * 65536 + (j - 1045)) (8 + (j - 1045)) (s.units.badKeys.contains (8 + (j - 1045))) (s.spareKeyServes (j - 1045))

/-- Record `i` of the Survey. -/
def State.record (s : State) (i : Nat) : Record :=
  if i < 32 then ⟨1, 0, 0xFFFF, i + 1, 0xFFFFFFFF, memberParameters.getD i 0⟩
  else if i < 48 then s.hiveRecord (i - 32)
  else if i < 80 then s.combRecord (i - 48)
  else if i < 8272 then s.cellRecord (i - 80)
  else if i < 8288 then s.stackRecord (i - 8272)
  else if i < 8544 then s.channelRecord ((i - 8288) / 16) ((i - 8288) % 16)
  else if i < 8548 then (if s.units.hostLost.testBit (i - 8544) then absentRecord 7 0xFFFF (i - 8544) else ⟨7, 0, 0xFFFF, i - 8544, i - 8544, 0⟩)
  else if i < 8556 then s.netPortRecord (i - 8548)
  else if i < 8588 then s.laneRecord (i - 8556)
  else if i < 8596 then s.shedRecord (i - 8588)
  else if i < 8667 then s.engineRecord (i - 8596)
  else if i < 16859 then s.tallyRecord (i - 8667)
  else s.spareOf (i - 16859)

/-- The records of the Survey: 17,906 (R485). -/
def svCount : Nat := 17906

/-- The 32 bytes of a record, with the GEN_CHANGED given (R483). -/
def recordBytes32 (r : Record) (gen : Nat) : List Byte :=
  bytesOf 1 r.type ++ bytesOf 1 r.state ++ bytesOf 2 r.parent ++ bytesOf 4 r.logical ++ bytesOf 4 r.physical ++ bytesOf 4 gen ++ bytesOf 16 r.tail

/-- Record `i` as it reads. -/
def State.surveyRecord (s : State) (i : Nat) : List Byte := recordBytes32 (s.record i) (sparseGet 1 s.svChanged i)

/-- The topology digest (R489): SHA-384 over the records of types 0x02 to 0x0D, bytes 12 to 15 taken as 0. -/
def State.topology (s : State) : List Byte :=
  Config.sha384 ((List.range (svCount - 32)).flatMap (fun i => recordBytes32 (s.record (32 + i)) 0))

/-- SV_TOPO set to the topology digest. -/
def State.writeTopology (s : State) : State :=
  let d := s.topology
  (List.range 6).foldl (fun s k => s.put (Fld.SV_TOPO_DIGEST k) (recGet d (8 * k) 8)) s

/-- Whether the Survey has been built (R479). -/
def State.surveyBuilt (s : State) : Bool := s.get Fld.SV_ID_MAGIC = 0x53565259

/-- A generation written (R488, R489) for the records named; nothing before the Survey is built. KV_FRAMES follows the Cells. -/
def State.survey (s : State) (records : List Nat) : State :=
  let s := (List.range 16).foldl (fun s h => s.put (Fld.KV_FRAMES_F h) (if s.hiveAbsent h then 0 else s.usableFrames h)) s
  if !s.surveyBuilt then s
  else
    let old := s.get Fld.SV_GEN_GENERATION
    let s := { s with svChanged := records.foldl (fun m i => sparsePut 1 i ((old + 1) % 2 ^ 32) m) s.svChanged }
    let s := (s.writeTopology.put Fld.SV_CHANGED_YT_NS s.now).put Fld.SV_GEN_GENERATION (old + 1)
    s.raise { code := 0x0001, detail := [old, old + 1] }

end Sys2Proof.Machine
end

