-- ==== Sys2Proof/Machine/CtxOps.lean ====
section
/-! DEFINITION. Contexts (R235 to R265): their units and registers, save areas, tally waits, starting, switching, halting, stopping
and faulting. -/

namespace Sys2Proof.Machine

/-! ### Slots and units -/

def State.setContext (s : State) (i : Nat) (x : Context) : State := { s with contexts := sparsePut {} i x s.contexts }

/-- The handle of the context in slot `i` (R236). -/
def State.contextHandle (s : State) (i : Nat) : Nat := i + (s.context i).gen * 2 ^ 12 + (s.context i).tenant * 2 ^ 44

/-- Checks of a context handle for tenant `t`, in the order of R29 (R236): its slot, or the status of the first that fails. -/
def State.checkContext (s : State) (t h : Nat) : Except Nat Nat :=
  let slot := h % 4096
  let gen := h / 2 ^ 12 % 2 ^ 32
  if h / 2 ^ 52 ≠ 0 || gen = 0 || s.get Fld.SCH_CTX_SLOTS_SLOTS ≤ slot || h / 2 ^ 44 % 256 ≠ t then .error CS.badHandle
  else if (s.context slot).state = .free || (s.context slot).gen ≠ gen then .error CS.staleGeneration
  else .ok slot

def unitGet (x : Context) (u : Nat) : UnitX := sparseGet {} x.units u
def State.unit (s : State) (slot u : Nat) : UnitX := unitGet (s.context slot) u
def State.setUnit (s : State) (slot u : Nat) (x : UnitX) : State :=
  s.setContext slot { s.context slot with units := sparsePut {} u x (s.context slot).units }

/-- The Cells of a partition that are not ABSENT, in rising logical number (R235). -/
def State.partitionCells (s : State) (p : Nat) : List Nat :=
  ((List.range 32).filter (fun c => (s.get (Fld.SCH_PART_COMBS p)).testBit c)).flatMap (fun c =>
    ((List.range 256).map (256 * c + ·)).filter (fun n => !s.cellAbsent n))

/-- The Cells of a context, or its thread. -/
def State.contextUnits (s : State) (slot : Nat) : List Nat :=
  let x := s.context slot
  if x.hub then [x.thread] else s.partitionCells x.partition

/-- The state code of the status block (R252): ARMED 2, RUNNING 3. -/
def ctxStateCode : CtxState → Nat
  | .free => 0 | .loaded => 1 | .armed => 2 | .running => 3 | .switched => 4 | .halted => 5 | .stopped => 6 | .faulted => 7

/-- How many contexts a tenant has in any state except FREE (R354). -/
def State.tenantContexts (s : State) (t : Nat) : Nat :=
  (s.contexts.filter (fun e => decide (e.2.state ≠ .free ∧ e.2.tenant = t))).length

/-! ### Registers of a unit (R238) -/

def UnitX.sreg (x : UnitX) (i : Nat) : Word := sparseGet 0 x.s i
def UnitX.setS (x : UnitX) (i : Nat) (v : Word) : UnitX := { x with s := sparsePut 0 i v x.s }
def UnitX.vlane (x : UnitX) (r l : Nat) : BitVec 32 := sparseGet 0 x.v (64 * r + l)
def UnitX.setLane (x : UnitX) (r l : Nat) (v : BitVec 32) : UnitX := { x with v := sparsePut 0 (64 * r + l) v x.v }
def UnitX.setV (x : UnitX) (r : Nat) (f : Nat → BitVec 32) : UnitX := (List.range 64).foldl (fun x l => x.setLane r l (f l)) x
def UnitX.tile (x : UnitX) (i : Nat) : BitVec 128 := sparseGet 0 x.t i
def UnitX.setT (x : UnitX) (i : Nat) (v : BitVec 128) : UnitX := { x with t := sparsePut 0 i v x.t }
/-- Predicate `i`; p0 reads 1, and a write to it is discarded. -/
def UnitX.pred (x : UnitX) (i : Nat) : Bool := i = 0 || x.p.testBit i
def UnitX.setP (x : UnitX) (i : Nat) (v : Bool) : UnitX := if i = 0 then x else { x with p := setFlagBit i v x.p }

/-- The state of R240 for unit `u`. -/
def State.entryUnit (s : State) (slot u : Nat) : UnitX :=
  let x := s.context slot
  let cells := s.contextUnits slot
  let rank := if x.hub then 0 else (cells.filter (· < u)).length
  let regs : List Nat := [u, x.launchYt, x.arg, s.contextHandle slot, x.tenant, rank, cells.length]
  { s := (regs.zipIdx).foldl (fun m e => sparsePut 0 e.2 (BitVec.ofNat 64 e.1) m) [], pc := x.entry }

/-! ### Save areas (R250, R252) -/

/-- The register block of a unit. -/
def registerBlock (x : UnitX) : List Byte :=
  (List.range 32).flatMap (fun i => bytesOf 8 (x.sreg i).toNat) ++
  (List.range 1024).flatMap (fun i => bytesOf 4 (sparseGet (0 : BitVec 32) x.v i).toNat) ++
  (List.range 8).flatMap (fun i => bytesOf 16 (x.tile i).toNat) ++ bytesOf 8 (x.p / 2 * 2 + 1) ++ bytesOf 8 x.pc ++
  (List.range 16).flatMap (fun i => bytesOf 8 (x.ret.reverse.getD i 0)) ++ bytesOf 8 x.ret.length ++ List.replicate 3560 0

/-- Bytes of a unit's memory. -/
def memBytes (m : List Host.Cell) (addr n : Nat) : List Byte := tabulate n (fun i => sparseGet 0 m (addr + i))

/-- Where the register block lies in a save block. -/
def registerOffset (hub : Bool) : Nat := if hub then 0x10000 else 0x50000

/-- A save block of a unit. -/
def saveBlock (hub : Bool) (x : UnitX) : List Byte :=
  if hub then memBytes x.mem 0 0x10000 ++ registerBlock x else memBytes x.mem 0 0x40000 ++ memBytes x.acc 0 0x10000 ++ registerBlock x

/-- A memory from bytes. -/
def memOf (bytes : List Byte) : List Host.Cell := (bytes.zipIdx).foldl (fun m e => sparsePut 0 e.2 e.1 m) []

/-- A unit from a register block and its memories. -/
def unitOf (mem acc regs : List Byte) : UnitX :=
  { s := (List.range 32).foldl (fun m i => sparsePut 0 i (BitVec.ofNat 64 (recGet regs (8 * i) 8)) m) []
    v := (List.range 1024).foldl (fun m i => sparsePut 0 i (BitVec.ofNat 32 (recGet regs (0x100 + 4 * i) 4)) m) []
    t := (List.range 8).foldl (fun m i => sparsePut 0 i (BitVec.ofNat 128 (recGet regs (0x1100 + 16 * i) 16)) m) []
    p := recGet regs 0x1180 2 / 2 * 2, pc := recGet regs 0x1188 8
    ret := ((List.range (min 16 (recGet regs 0x1210 8))).map (fun i => recGet regs (0x1190 + 8 * i) 8)).reverse
    mem := memOf mem, acc := memOf acc }

/-- The address of a unit's save block. -/
def saveAddr (x : Context) (u : Nat) : Nat := ((x.saves.find? (fun e => e.1 = u)).map (·.2)).getD 0

/-- A unit's state written to its save block; what is no part of the block, whether it has halted, its pending requests and the accumulators' types,
stays with the context. -/
def State.saveUnit (s : State) (slot u : Nat) : State :=
  let x := s.context slot
  let y := unitGet x u
  let s := s.writeT1 x.tenant (saveAddr x u) (saveBlock x.hub y)
  s.setUnit slot u { halted := y.halted, reqs := y.reqs, accInt := y.accInt }

/-- A unit's state read from its save block, or the status in which the read ended. -/
def State.restoreUnit (s : State) (slot u : Nat) : Except Nat State :=
  let x := s.context slot
  let y := unitGet x u
  (s.readBlocks x.tenant (saveAddr x u) (saveBytes x.hub)).map (fun b =>
    let z := if x.hub then unitOf (b.take 0x10000) [] (b.drop 0x10000)
      else unitOf (b.take 0x40000) ((b.drop 0x40000).take 0x10000) (b.drop 0x50000)
    s.setUnit slot u { z with halted := y.halted, reqs := y.reqs, accInt := y.accInt })

/-! ### Tallies (R343 to R350) -/

def State.tally (s : State) (n : Nat) : Tally := sparseGet {} s.tallies n
def State.setTally (s : State) (n : Nat) (x : Tally) : State := { s with tallies := sparsePut {} n x s.tallies }

/-- COUNT of a tally: SIG − TAKEN (R349). -/
def Tally.count (x : Tally) : Nat := x.sig - x.taken

/-- The first check of R343 that an operation fails; TL_CTRL.EN 0 turns every operation away. -/
def State.tallyCheck (s : State) (t operand count : Nat) : Option Nat :=
  if !s.on Fld.TL_CTRL_EN then some CS.notReady
  else if 8192 ≤ operand || s.get (Fld.TL_BIND_TENANT operand) ≠ t then some CS.badHandle
  else if !s.on (Fld.TL_BIND_EN operand) then some CS.notReady
  else if s.tallyAbsent operand then some CS.absentUnit
  else if count = 0 || 65535 < count then some CS.badCommand
  else none

/-- The instruction a unit is at completed: the unit as it leaves it, at the next instruction's PC; it counts as retired. -/
def State.retire (s : State) (slot u pc : Nat) (x : UnitX) : State :=
  let s := s.setUnit slot u { x with pc := pc, wait := none }
  s.setContext slot { s.context slot with retired := (s.context slot).retired + 1 }

/-- A wait of a unit on a tally ended: its status in its destination, and the unit goes on behind the instruction. -/
def State.endWait (s : State) (slot u status : Nat) : State :=
  let x := s.unit slot u
  match x.wait with
  | some (.tally _ _ _ d) => s.retire slot u (x.pc + 16) (x.setS d (BitVec.ofNat 64 status))
  | _ => s

/-- The head of a queue served, and those behind it in turn (R345, R346): how much is taken then, the waits that end with their
statuses, and the waits left. -/
def serveQueue (now sig : Nat) : (taken : Nat) → List TallyWait → Nat × List (TallyWait × Nat) × List TallyWait
  | taken, [] => (taken, [], [])
  | taken, w :: ws =>
    if taken + w.count ≤ sig then
      let r := serveQueue now sig (taken + w.count) ws
      (r.1, (w, CS.ok) :: r.2.1, r.2.2)
    else if w.deadline ≠ 0 ∧ w.deadline ≤ now then
      let r := serveQueue now sig taken ws
      (r.1, (w, CS.timeout) :: r.2.1, r.2.2)
    else (taken, [], w :: ws)

/-- A tally's queue served. -/
def State.serveTally (s : State) (n : Nat) : State :=
  let x := s.tally n
  let r := serveQueue s.now x.sig x.taken x.queue
  let s := s.setTally n { x with taken := r.1, queue := r.2.2 }
  let s := s.bump Fld.TL_TIMEOUT_CNT_COUNT (r.2.1.filter (fun e => e.2 = CS.timeout)).length
  r.2.1.foldl (fun s e => s.endWait e.1.slot e.1.unit e.2) s

/-- Signals applied (R345): the status, and the state after. -/
def State.signal (s : State) (n count : Nat) : Nat × State :=
  let x := s.tally n
  if 0xFFFFFFFF < x.count + count then
    (CS.noResource, s.raise { code := 0x0306, tenant := some (s.get (Fld.TL_BIND_TENANT n)), subject := n })
  else (CS.ok, (s.setTally n { x with sig := x.sig + count }).serveTally n)

/-- Every wait pending on a tally ended with a status, its terms 0 (R344, R566). -/
def State.clearTally (s : State) (n status : Nat) : State :=
  let q := (s.tally n).queue
  (s.setTally n {}) |> fun s => q.foldl (fun s w => s.endWait w.slot w.unit status) s

/-- R344: what a changed binding or a cleared EN does. -/
def State.cancelTally (s : State) (n tenant : Nat) : State :=
  let any := !(s.tally n).queue.isEmpty
  let s := s.clearTally n CS.cancelled
  if any then s.raise { code := 0x0307, tenant := some tenant, subject := n } else s

/-- The waits of a context leave every tally's queue, taking nothing (R348); those behind them are served. -/
def State.leaveTallies (s : State) (slot : Nat) : State :=
  (s.tallies.filter (fun e => e.2.queue.any (fun w => w.slot = slot))).foldl (fun s e =>
    (s.setTally e.1 { s.tally e.1 with queue := (s.tally e.1).queue.filter (fun w => w.slot ≠ slot) }).serveTally e.1) s

/-! ### Leaving and taking units (R260, R363, R365) -/

/-- The waits of a context's units dropped: tally queues and the tenant's inbox are left; each instruction in progress is begun
again after a restore (R254, R348). -/
def State.dropWaits (s : State) (slot : Nat) : State :=
  let s := s.leaveTallies slot
  let s := { s with net := { s.net with recvWaits := s.net.recvWaits.filter (fun w => w.2.1 ≠ slot) } }
  let x := s.context slot
  s.setContext slot { x with units := x.units.map (fun e => (e.1, { e.2 with wait := none })) }

/-- A RUNNING context stopped and its units' save blocks written (R252); its units are released. -/
def State.saveContext (s : State) (slot : Nat) : State :=
  let s := s.dropWaits slot
  let s := (s.contextUnits slot).foldl (fun s u => s.saveUnit slot u) s
  s.setContext slot { s.context slot with onCells := false, ready := false }

/-- A RUNNING context switched out (R237, R363). -/
def State.switchOut (s : State) (slot : Nat) : State :=
  let s := s.saveContext slot
  s.setContext slot { s.context slot with state := .switched }

/-- The status of a fault cause (R259). -/
def causeStatus (cause : Nat) : Nat :=
  if cause = 2 ∨ cause = 3 then CS.illegalContext
  else if cause = 0x0A then CS.integrity
  else if cause = 0x0B then CS.uncorrectable
  else if cause = 0x0C then CS.absentUnit
  else if cause = 0x0E then CS.timeout
  else CS.fault

/-- The steps of a round abandoned because its model context faulted (R263, R370). -/
def State.abandonRound (s : State) (slot : Nat) : State :=
  let t := (s.context slot).tenant
  let r := sparseGet {} s.rounds t
  match r.flight with
  | none => s
  | some f =>
    if f.ctx ≠ slot || f.abandoned then s
    else
      let s := { s with rounds := sparsePut {} t { r with flight := some { f with abandoned := true } } s.rounds }
      let s := f.stalls.foldl (fun s i => s.abandonStep i) s
      s.raise { code := 0x0A06, tenant := some t, detail := [f.id] }

/-- The PC of a unit: its own, or that of its save block once the context is switched out. -/
def State.unitPc (s : State) (slot u : Nat) : Nat :=
  let x := s.context slot
  if x.state = .switched then recGet (s.rawBytes (saveAddr x u + registerOffset x.hub + 0x1188) 8) 0 8 else (unitGet x u).pc

/-- The fault of a context's unit recorded (R252, R260): state saved, FAULTED, EV_CTX_FAULT; a command that waits for its end
completes with the fault's status, and the round it runs is abandoned. Nothing happens to a context that does not run. -/
def State.faultContext (s : State) (slot u cause addr word : Nat) : State :=
  let x := s.context slot
  if x.state ≠ .running && x.state ≠ .switched then s
  else
    let status := causeStatus cause
    let pc := s.unitPc slot u
    let s := if x.state = .running then s.saveContext slot else s
    let y := s.context slot
    let s := s.setContext slot { y with
      state := .faulted, waitCmd := none, onCells := false, ready := false
      fault := { cause := cause, status := status, unit := u, pc := pc, word := word, addr := addr, yt := s.now } }
    let s := (s.bump Fld.SCH_CTX_FAULTS_COUNT 1).bump (Fld.TN_FAULTS_COUNT x.tenant) 1
    let s := s.raise { code := 0x0A81, tenant := some x.tenant, object := s.contextHandle slot, detail := [cause, u] }
    let s := s.abandonRound slot
    match x.waitCmd with
    | some c => s.complete c status x.launchYt 0
    | none => s

/-- A context started at its launch (R240, R253): RUNNING, every unit in the state of R240. A barrier launch is released now (R342). -/
def State.startContext (s : State) (slot : Nat) : State :=
  let s := if (s.context slot).barrier then s.setContext slot { s.context slot with launchYt := s.now } else s
  let units := (s.contextUnits slot).foldl (fun m u => sparsePut {} u (s.entryUnit slot u) m) []
  s.setContext slot { s.context slot with units := units, state := .running, onCells := !(s.context slot).hub, ready := false, lastRun := s.now }

/-- A SWITCHED context restored from its save blocks and RUNNING again (R363); a block that cannot be read faults the context
with its cause on that unit. -/
def State.resumeContext (s : State) (slot : Nat) : State :=
  let units := s.contextUnits slot
  let go := units.foldl (fun (r : State × Option (Nat × Nat)) u => match r.2 with
    | some _ => r
    | none => match r.1.restoreUnit slot u with
      | .ok s' => (s', none)
      | .error st => (r.1, some (u, st))) (s, none)
  match go.2 with
  | some (u, st) => go.1.faultContext slot u (if st = CS.integrity then 0x0A else 0x0B) (saveAddr (s.context slot) u) 0
  | none => go.1.setContext slot { go.1.context slot with state := .running, onCells := true, ready := false, lastRun := s.now }

/-- The context on a partition's Cells. -/
def State.onPartition (s : State) (p : Nat) : Option Nat :=
  (s.contexts.find? (fun e => decide (e.2.partition = p) && !e.2.hub && e.2.onCells)).map (·.1)

/-- Whether a Cell context of partition `p` is ready for an entry that ends at `until_` (R362). -/
def ctxReady (p until_ : Nat) (x : Context) : Bool :=
  !x.hub && decide (x.partition = p) && (decide (x.state = .switched) || (decide (x.state = .armed) && decide (x.launchYt ≤ until_)))

/-- Among the ready contexts that pass `q`, the one least recently run, the lower slot on a tie (R362). -/
def State.pickContext (s : State) (p until_ : Nat) (q : Context → Bool) : Option Nat :=
  ((s.contexts.filter (fun e => ctxReady p until_ e.2 && q e.2)).foldl (fun (best : Option (Nat × Nat)) e => match best with
    | none => some (e.1, e.2.lastRun)
    | some b => if e.2.lastRun < b.2 then some (e.1, e.2.lastRun) else some b) none).map (·.1)

/-- A ready context given its partition's Cells at once, by a switch without a window (R365, R361): RUNNING, or prepared until
its launch count. -/
def State.takeCells (s : State) (slot : Nat) : State :=
  let x := s.context slot
  if x.state = .switched then s.resumeContext slot
  else if x.launchYt ≤ s.now then s.startContext slot
  else s.setContext slot { x with onCells := true, ready := true }

/-- The count at which the slice entry that runs ends. -/
def entryEnd (x : PartX) : Nat := x.cycleAt + ((x.entries.take (x.entry + 1)).map (·.2)).foldl (· + ·) 0

/-- A context of a tenant has left its partition's Cells (R365): another context of the tenant that is ready by the entry's end takes them, now or as soon as it is
armed; with an empty slice table any ready context does (R361). -/
def State.cellsFreed (s : State) (p tenant : Nat) : State :=
  let y := sparseGet {} s.parts p
  let empty := y.entries.isEmpty
  if (s.onPartition p).isSome then s
  else match s.pickContext p (if empty || !y.begun then s.now else entryEnd y) (fun x => empty || decide (x.tenant = tenant)) with
  | some slot => s.takeCells slot
  | none => { s with parts := sparsePut {} p { y with freedBy := some tenant } s.parts }

/-- A context HALTED (R237, R281, R365). -/
def State.haltContext (s : State) (slot code : Nat) : State :=
  let x := s.context slot
  let s := s.saveContext slot
  let s := s.setContext slot { s.context slot with state := .halted, haltCode := code, waitCmd := none }
  let s := s.raise { code := 0x0A82, tenant := some x.tenant, object := s.contextHandle slot, detail := [code] }
  let s := match x.waitCmd with
    | some c => s.complete c CS.ok x.launchYt code
    | none => s
  if x.hub then s else s.cellsFreed x.partition x.tenant

/-- A unit halted with a code (R281): its context halts once every unit has. -/
def State.haltUnit (s : State) (slot u code : Nat) : State :=
  let s := s.setUnit slot u { s.unit slot u with halted := some code }
  let units := s.contextUnits slot
  if units.all (fun v => (s.unit slot v).halted.isSome) then s.haltContext slot (((s.unit slot (units.headD u)).halted).getD code)
  else s

/-- A context stopped (R237): ARMED returns to LOADED, RUNNING or SWITCHED ends STOPPED. -/
def State.stopContext (s : State) (slot : Nat) : State :=
  let x := s.context slot
  let cancel (s : State) : State := match x.waitCmd with
    | some c => s.complete c CS.cancelled x.launchYt 0
    | none => s
  match x.state with
  | .armed => cancel (s.setContext slot { x with state := .loaded, waitCmd := none, onCells := false, ready := false })
  | .running | .switched =>
    let s := if x.state = .running then s.saveContext slot else s
    let s := s.setContext slot { s.context slot with state := .stopped, waitCmd := none, onCells := false, ready := false }
    cancel (s.raise { code := 0x0A83, tenant := some x.tenant, object := s.contextHandle slot })
  | _ => s

/-- A context freed (R237): its granules go to quarantine, its shared window is released when the last context that maps it
goes (R246), and its slot's generation moves on, never to 0. -/
def State.freeContext (s : State) (slot : Nat) : State :=
  let x := s.context slot
  let s := s.quarantineOwned (fun o => o = .context slot)
  let s := s.quarantine (x.codeAt / 4096) (if x.codeBytes = 0 then 0 else ceilDiv x.codeBytes 4096)
  let s := { s with
    windows := (s.windows.map (fun (w : Window) => ({ w with users := w.users.filter (· ≠ slot) } : Window))).filter (fun w => !w.users.isEmpty)
    aisle := s.aisle.filter (fun m => m.toSlot ≠ slot) }
  s.setContext slot { gen := if x.gen + 1 = 2 ^ 32 then 1 else x.gen + 1 }

/-- Every context with a unit that passes `lost`, RUNNING or SWITCHED, faults with cause ABSENT on the lowest such unit, and the others are counted (R261,
R265, R568). -/
def State.faultOnCells (s : State) (lost : Nat → Bool) : State :=
  (s.contexts.filter (fun e => !e.2.hub && decide (e.2.state = .running ∨ e.2.state = .switched))).foldl (fun s e =>
    match (e.2.saves.map (·.1)).filter lost with
    | u :: us =>
      let s := s.faultContext e.1 u 0x0C 0 0
      let x := s.context e.1
      s.setContext e.1 { x with fault := { x.fault with further := us.length } }
    | [] => s) s

end Sys2Proof.Machine
end

