-- ==== Sys2Proof/Machine/RepairOps.lean ====
section
/-! DEFINITION. What follows from a failed unit: starting or skipping a checkpoint (R583), mirrors (R591 to R593), the recovery of
stalls (R126), channels (R129 to R131), and the remaps of the repair logic (R564 to R572). -/

namespace Sys2Proof.Machine

def State.updUnits (s : State) (f : Units → Units) : State := { s with units := f s.units }

/-! ### Starting and ending a checkpoint (R583, R584, R586) -/

def State.cpValid (s : State) (k : Nat) : Bool := s.on (Fld.CP_SLOT_STATE_VALID k)

/-- The target slot (R584): one that is not valid, else the one with the lower SEQ. -/
def State.cpTarget (s : State) : Nat :=
  if !s.cpValid 0 then 0 else if !s.cpValid 1 then 1
  else if s.get (Fld.CP_SLOT_STATE_SEQ 1) < s.get (Fld.CP_SLOT_STATE_SEQ 0) then 1 else 0

/-- The next STEP (R583). -/
def State.cpNextStep (s : State) : Nat := max (s.get (Fld.CP_SLOT_STEP_STEP 0)) (s.get (Fld.CP_SLOT_STEP_STEP 1)) + 1

/-- A checkpoint's first phase entered in operation slot `op` (R585). -/
def State.beginCheckpoint (s : State) (op slot step : Nat) : State :=
  let seq := max (s.get (Fld.CP_SLOT_STATE_SEQ 0)) (s.get (Fld.CP_SLOT_STATE_SEQ 1)) + 1
  let s := { s with cp := { s.cp with op := some op, slot := slot, step := step, seq := seq, yt := 0, marks := [], switched := [] } }
  let s := s.setOp op { s.op op with phase := 1 }
  ((s.put Fld.CP_OP_HANDLE (s.opHandle op)).put Fld.CP_STATUS_PHASE 1).put (Fld.CP_SLOT_STATE_WRITING slot) 1

/-- Everything that the freeze held goes on (R585, R586). -/
def State.endFreeze (s : State) : State :=
  let held := s.cp.switched
  let s := { s with cp := { s.cp with switched := [] } }
  let s := ((s.put Fld.CP_STATUS_PHASE 0).put Fld.CP_STATUS_FROZEN 0).put (Fld.CP_SLOT_STATE_WRITING s.cp.slot) 0
  held.foldl (fun s slot =>
    if (s.context slot).state = .switched && (s.onPartition (s.context slot).partition).isNone then s.resumeContext slot else s) s

/-- A slot's commit area cleared (R584): it is not valid. -/
def State.clearSlot (s : State) (k : Nat) : State :=
  let s := ((s.put (Fld.CP_SLOT_STATE_VALID k) 0).put (Fld.CP_SLOT_STATE_SEQ k) 0).put (Fld.CP_SLOT_STEP_STEP k) 0
  { s with cpSlots := sparseErase k s.cpSlots }

/-- A checkpoint stopped before its commit (R586): the freeze ends and the target is not valid. -/
def State.haltCheckpoint (s : State) : State := s.endFreeze.clearSlot s.cp.slot

/-- Whether a checkpoint, running or suspended, is in progress. -/
def State.cpBusy (s : State) : Bool := s.cp.op.isSome

/-- Whether a trigger is skipped (R583). -/
def State.cpSkips (s : State) : Bool :=
  s.cpBusy || s.on Fld.PW_STATUS_PARKING || !s.on Fld.CP_CTRL_EN ||
    (match s.cp.lastDone with | some t => decide (s.now < t + s.get Fld.CP_MIN_GAP_NS) | none => false)

/-- A trigger (R583): a checkpoint as a long operation with MGMT 1 and no queue, or skipped and counted. -/
def State.triggerCheckpoint (s : State) : State :=
  let skip (s : State) : State :=
    (s.bump Fld.CP_SKIP_CNT_COUNT 1).raise { code := 0x0E03, subject := s.cpTarget, detail := [s.cpNextStep] }
  if s.cpSkips then skip s
  else match s.newOpFor none 0x90 [s.cpTarget, s.cpNextStep] with
  | none => skip s
  | some (op, s) => (s.moveOp op .running).beginCheckpoint op s.cpTarget s.cpNextStep

/-- An event that starts a checkpoint where its bit of CP_TRIG is set (R583). -/
def State.cpTrigger (s : State) (bit : RegField) : State := if s.on bit then s.triggerCheckpoint else s

/-- A checkpoint in progress ended before its commit (R586): the target stays invalid. -/
def State.dropCheckpoint (s : State) (st : OpState) (status : Nat) : State :=
  match s.cp.op with
  | none => s
  | some op =>
    if (s.op op).opcode ≠ 0x90 then s
    else
      let s := { s with cp := { s.cp with op := none } }.haltCheckpoint
      let s := if st = .failed then s.raise { code := 0x0E02, subject := s.cp.slot, detail := [s.cp.step, status] } else s
      s.endOp op st status

/-! ### Mirrors (R591 to R593) -/

def State.setRedirects (s : State) (l : List (Nat × Nat × Nat)) : State := { s with redirects := l }

/-- What becomes of a pair when Tier 1 addresses are lost (R593): promoted where its primary is lost, dissolved where its mirror
is; a pair whose copy has not ended ends its command. -/
def State.loseMirror (s : State) (lost : Nat → Nat → Bool) (m : Mirror) : State :=
  let primaryLost := lost (s.servedAt m.primary) m.len
  let mirrorLost := lost m.mirror m.len
  if !primaryLost && !mirrorLost then s
  else
    let s := s.setMirrors (s.mirrors.filter (fun x => x.num ≠ m.num))
    if !m.ready then (match m.cmd with | some c => s.complete c CS.absentUnit | none => s)
    else if primaryLost then
      (s.setRedirects (s.redirects.filter (fun r => r.1 ≠ m.primary) ++ [(m.primary, m.mirror, m.len)])).raise
        { code := 0x0E06, tenant := some m.tenant, detail := [m.num] }
    else s.raise { code := 0x0E07, tenant := some m.tenant, detail := [m.num] }

def State.loseMirrors (s : State) (lost : Nat → Nat → Bool) : State := s.mirrors.foldl (fun s m => s.loseMirror lost m) s

/-! ### Recovery of stalls (R126) -/

/-- A stall's step stopped for something that is then done to the stall, before what waited for the end of the step takes effect (R99, R126). -/
def State.stopFor (s : State) (i : Nat) (f : State → State) : State :=
  if (s.stall i).state = .running then (f (s.stopStep i)).applyDeferred i else f s

/-- A session's pages, page lists and root table rebuilt from its journal (R126), its step abandoned. -/
def State.recoverStall (s : State) (i : Nat) : State := s.stopFor i (fun s => s.rebuildTable i)

/-- Whether a stall has its root table, a page list or a page in the granules that pass `p`. -/
def stallTouches (p : Nat → Bool) (x : Stall) : Bool :=
  match x.table with
  | none => false
  | some t => p t.addr || t.layers.any (fun l => p l.list || l.pages.any (fun g => p g.addr))

/-- Every session with something in a lost range recovered. -/
def State.recoverStalls (s : State) (p : Nat → Bool) : State :=
  ((s.stalls.filter (fun e => stallTouches p e.2)).map (·.1)).foldl (fun s i => s.recoverStall i) s

/-! ### The repair log (R502, R567, R572) -/

/-- A repair entry of SOURCE 2 (R502). -/
def repairEntry (kind hive unit reason : Nat) : Nat := kind + hive * 2 ^ 8 + unit * 2 ^ 16 + 2 * 2 ^ 32 + reason * 2 ^ 40

/-- An entry written to the repair log (R572). -/
def State.logRepair (s : State) (entry : Nat) : State :=
  let n := s.get Fld.RP_LOG_COUNT_WRITTEN
  let old := s.get (Fld.RP_LOG_ENTRY (n % 1024))
  let s := (s.put (Fld.RP_LOG_ENTRY (n % 1024)) entry).put Fld.RP_LOG_COUNT_WRITTEN (n + 1)
  if s.get Fld.RP_LOG_ACK_COUNT + 1024 < n + 1 then
    (s.put Fld.RP_LOG_COUNT_OVERFLOW 1).raise { code := 0x0D09, detail := [old] }
  else s

/-- An event of the repair logic, with its entry (R577). -/
def State.repairEvent (s : State) (code entry : Nat) : State := s.raise { code := code, detail := [entry] }

/-- The end of a remap (R567): a generation, the repair entry, the event. -/
def State.endRemap (s : State) (records : List Nat) (entry code : Nat) : State :=
  ((s.survey records).logRepair entry).repairEvent code entry

/-- EV_RP_SPARES_LOW, once for a Comb, or for a Hive by 32 + Hive (R569). -/
def State.sparesLow (s : State) (group entry : Nat) : State :=
  if s.units.lowRaised.contains group then s
  else ((s.updUnits (fun u => { u with lowRaised := group :: u.lowRaised })).repairEvent 0x0D07 entry).cpTrigger Fld.CP_TRIG_SPARES_LOW

/-- The check of R569 on a Comb's FREE spare Cells. -/
def State.combSparesLow (s : State) (c entry : Nat) : State :=
  if (s.freeSpareCells c).length < s.get Fld.RP_SPARE_LOW_CELLS then s.sparesLow c entry else s

/-! ### ABSENT units (R568) -/

/-- SCH_SWITCH of a partition (R364). -/
def State.switchWindow (s : State) (p : Nat) : Nat :=
  let combs := s.get (Fld.SCH_PART_COMBS p)
  let inHive (h : Nat) : Nat := ((List.range 2).filter (fun c => combs.testBit (2 * h + c))).foldl (fun n c => n + s.cellsInComb (2 * h + c)) 0
  let b := ((List.range 16).map (fun h => 335872 * inHive h)).foldl max 0
  1000 + 2 * ceilDiv b 2000

/-- SCH_SWITCH recomputed for every partition (R364). -/
def State.recomputeSwitch (s : State) : State :=
  (List.range 32).foldl (fun s p => if s.on (Fld.SCH_PART_VALID p) then s.put (Fld.SCH_SWITCH_NS p) (s.switchWindow p) else s) s

/-- Whether the smallest working set of R507 holds. -/
def State.workingSet (s : State) : Bool :=
  s.units.groom.isSome && !s.engineLost 7 0 && !s.engineLost 9 0 && !s.engineLost 10 0 &&
    (List.range 16).any (fun h => !s.hiveAbsent h && decide (4 ≤ s.channelsInUse h) &&
      (decide (16 ≤ s.cellsInComb (2 * h)) || decide (16 ≤ s.cellsInComb (2 * h + 1)))) &&
    (s.units.hostLost % 16 ≠ 15 || (List.range 8).any (fun p => (List.range 4).all (fun i => !s.units.absentLanes.contains (4 * p + i))))

/-- EV_RP_BELOW_MINIMUM where the smallest working set no longer holds (R568). -/
def State.checkMinimum (s : State) (entry : Nat) : State := if s.workingSet then s else s.repairEvent 0x0D0A entry

/-- The Survey records of a Hive made ABSENT (R488). -/
def hiveRecords (h : Nat) : List Nat :=
  svHive h :: svComb (2 * h) :: svComb (2 * h + 1) :: svStack h :: ((List.range 512).map (fun n => svCell (512 * h + n)) ++
    (List.range 16).map (svChannel h))

/-- A Hive made ABSENT (R568): mirrors promoted or dissolved first (R593), contexts on it fault, its stalls recover elsewhere, a
checkpoint before its commit fails (R586). -/
def State.loseHive (s : State) (h entry : Nat) : State :=
  if s.hiveAbsent h then s
  else
    let s := s.loseMirrors (fun a _ => hiveOf a = h)
    let s := s.faultOnCells (fun n => n / 512 = h)
    let s := { s with t1 := { s.t1 with absent := s.t1.absent ||| 2 ^ h } }
    let s : State := (List.range 17).foldl (fun s p => (s.put (Fld.HB_CH_LOGICAL h p) 31).put (Fld.HB_CH_STATE h p) 5) s
    let s := s.recoverStalls (fun a => hiveOf a = h)
    let s := if s.get Fld.CP_STATUS_PHASE = 4 then s else s.dropCheckpoint .failed CS.absentUnit
    let s := ((s.ops.filter (fun o => o.2.live && o.2.opcode = 0x32 && !o.2.st.ended && o.2.args.head? = some h)).map (·.1)).foldl (fun s o =>
      s.endOp o .failed CS.absentUnit) s
    let s := (s.survey (hiveRecords h)).repairEvent 0x0D02 entry
    s.recomputeSwitch.checkMinimum entry

/-- A Comb of fewer than 16 Cells taken out of service (R568), and its Hive with it when the other is out too. -/
def State.checkComb (s : State) (c entry : Nat) : State :=
  if 16 ≤ s.cellsInComb c then s
  else
    let s := if s.cellsInComb c = 0 then s
      else
        let s := s.faultOnCells (fun n => n / 256 = c)
        let s := (s.updUnits (fun u => { u with absentCells := u.absentCells.filter (fun n => n / 256 ≠ c) ++ (List.range 256).map (256 * c + ·) }))
        (s.survey (svHive (c / 2) :: svComb c :: (List.range 256).map (fun i => svCell (256 * c + i)))).repairEvent 0x0D02 entry
    if s.cellsInComb (c / 2 * 2) = 0 ∧ s.cellsInComb (c / 2 * 2 + 1) = 0 then s.loseHive (c / 2) entry else s

/-! ### Remaps (R566, R567) -/

/-- A logical Cell whose physical Cell has failed (R265, R566): bound to the lowest FREE spare of its Comb, or ABSENT. For reason
2 the context on it faults; else it is switched out and resumes. -/
def State.remapCell (s : State) (n reason : Nat) : State :=
  let c := n / 256
  let p := s.physicalCell n
  let entry := repairEntry 0 (c / 2) (272 * (c % 2) + p) reason
  let old := if 256 ≤ p then [svSpareCell c (p - 256)] else []
  let onIt := (s.contexts.find? (fun e => !e.2.hub && decide (e.2.state = .running) && (e.2.saves.map (·.1)).contains n)).map (·.1)
  let s := if reason = 2 then (match onIt with | some slot => s.faultContext slot n 0x0B 0 0 | none => s) else s
  match (s.freeSpareCells c).head? with
  | some k =>
    let s := match onIt with | some slot => if reason = 2 then s else s.switchOut slot | none => s
    let s := s.updUnits (fun u => { u with badCells := (272 * c + p) :: u.badCells, rebinds := sparsePut 0 n (sparseGet 0 u.rebinds n + 1) u.rebinds })
    let s := s.updUnits (fun u => { u with rebound := u.rebound.filter (fun e => e.1 ≠ n) ++ [(n, 256 + k)] })
    let s := s.put (Fld.RP_CELL_CORR_COUNT n) 0
    let s := match onIt with | some slot => if reason = 2 then s else s.resumeContext slot | none => s
    let s := (s.recomputeSwitch).endRemap ([svHive (c / 2), svComb c, svCell n, svSpareCell c k] ++ old) entry 0x0D01
    s.combSparesLow c entry
  | none =>
    let s := s.faultOnCells (fun m => m = n)
    let s := (s.updUnits (fun u => { u with badCells := (272 * c + p) :: u.badCells, absentCells := u.absentCells ++ [n] }))
    let s := s.endRemap ([svHive (c / 2), svComb c, svCell n] ++ old) entry 0x0D02
    (s.checkComb c entry).recomputeSwitch

/-- A tally whose physical tally has failed (R350, R566). -/
def State.remapTally (s : State) (n reason : Nat) : State :=
  let p := s.physicalTally n
  let entry := repairEntry 3 0xFF p reason
  let old := if 8192 ≤ p then [svSpareTally (p - 8192)] else []
  let s := (s.updUnits (fun u => { u with badTallies := p :: u.badTallies, tallyCorr := sparseErase n u.tallyCorr }))
  match firstBelow s.spareTallyFree 512 with
  | some k =>
    let s := (s.updUnits (fun u => { u with tallyAt := u.tallyAt.filter (fun e => e.1 ≠ n) ++ [(n, 8192 + k)] }))
    let s := if reason = 2 then (s.clearTally n CS.uncorrectable).repairEvent 0x0D08 entry else s
    s.endRemap ([svTally n, svSpareTally k] ++ old) entry 0x0D03
  | none => ((s.put (Fld.TL_BIND_ABSENT n) 1).clearTally n CS.absentUnit).endRemap ([svTally n] ++ old) entry 0x0D02

/-- The Groom pair in use has failed (R566). -/
def State.remapGroom (s : State) (reason : Nat) : State :=
  match s.units.groom with
  | none => s
  | some p =>
    let entry := repairEntry 4 0xFF p reason
    let s := (s.updUnits (fun u => { u with badGroom := p :: u.badGroom }))
    if p = 0 && !s.units.badGroom.contains 1 then
      (s.updUnits (fun u => { u with groom := some 1 })).endRemap [svEngine 11 0, svSpareGroom] entry 0x0D04
    else ((s.updUnits (fun u => { u with groom := none })).endRemap [svEngine 11 0, svSpareGroom] entry 0x0D02).checkMinimum entry

/-- A key-engine instance has failed (R566). -/
def State.remapKey (s : State) (n reason : Nat) : State :=
  let p := s.physicalKey n
  let entry := repairEntry 5 0xFF p reason
  let old := if 8 ≤ p then [svSpareKey (p - 8)] else []
  let s := (s.updUnits (fun u => { u with badKeys := p :: u.badKeys }))
  match firstBelow s.spareKeyFree 2 with
  | some k =>
    (s.updUnits (fun u => { u with keyAt := u.keyAt.filter (fun e => e.1 ≠ n) ++ [(n, 8 + k)] })).endRemap
      ([svEngine 8 n, svSpareKey k] ++ old) entry 0x0D05
  | none => (s.updUnits (fun u => { u with absentKeys := u.absentKeys ++ [n] })).endRemap ([svEngine 8 n] ++ old) entry 0x0D02

/-- An engine without a spare lost (R564). The security engine, the Yard Time unit and the other single units are fatal. -/
def State.loseEngine (s : State) (kind i : Nat) : State :=
  if s.engineLost kind i then s
  else
    let s := (s.updUnits (fun u => { u with enginesLost := (256 * kind + i) :: u.enginesLost }))
    let s := s.survey [svEngine kind i]
    let s := s.repairEvent 0x0D02 (256 * kind + i)
    if [4, 5, 6, 7, 9, 10].contains kind then s.repairEvent 0x0D0A (256 * kind + i) else s

/-- A Hub sequencer lost (R564): the contexts on its four threads fault, and the threads are unbound. -/
def State.loseSequencer (s : State) (i reason : Nat) : State :=
  if s.engineLost 0 i then s
  else
    let entry := repairEntry 6 0xFF i reason
    let threads := (List.range 4).map (4 * i + ·)
    let s := threads.foldl (fun s n =>
      let s := (s.contexts.filter (fun e => e.2.hub && decide (e.2.thread = n) && decide (e.2.state = .running))).foldl (fun s e =>
        s.faultContext e.1 n 0x0C 0 0) s
      s.put (Fld.SCH_HUBTHR_BOUND n) 0) s
    (s.updUnits (fun u => { u with enginesLost := i :: u.enginesLost })).endRemap [svEngine 0 i] entry 0x0D02

/-- A host port lost (R564): as a link loss under R413, permanently. -/
def State.loseHostPort (s : State) (n reason : Nat) : State :=
  if s.units.hostLost.testBit n then s
  else
    let entry := repairEntry 7 0xFF n reason
    let s := (s.updUnits (fun u => { u with hostLost := u.hostLost ||| 2 ^ n }))
    let s := ((s.detachPort n).put (Fld.GC_PORT_STATE_LINK n) 0).raise { code := 0x0F02, subject := n }
    (s.endRemap [svHostPort n] entry 0x0D02).checkMinimum entry

/-- A FREE spare found failed (R569): RETIRED. -/
def State.spareFailed (s : State) (records : List Nat) (entry : Nat) : State := s.endRemap records entry 0x0D06

/-- The logical Cell that physical Cell `p` of Comb `c` serves. -/
def State.cellServed (s : State) (c p : Nat) : Option Nat :=
  (if p < 256 then (if s.physicalCell (256 * c + p) = p then some (256 * c + p) else none) else s.spareCellServes c (p - 256)).filter
    (fun n => !s.cellAbsent n)

def State.tallyServed (s : State) (p : Nat) : Option Nat :=
  (if p < 8192 then (if s.physicalTally p = p then some p else none) else s.spareTallyServes (p - 8192)).filter (fun n => !s.tallyAbsent n)

def State.keyServed (s : State) (p : Nat) : Option Nat :=
  (if p < 8 then (if s.physicalKey p = p then some p else none) else s.spareKeyServes (p - 8)).filter (fun n => !s.units.absentKeys.contains n)

/-- Whether a failure is acted on while RP_CTRL.AUTO is 0 (R566). -/
def State.actsOn (s : State) (reason : Nat) : Bool := s.on Fld.RP_CTRL_AUTO || [2, 3, 5, 7].contains reason

/-- A unit judged failed (R565, R566): remapped, lost, or retired where it is a FREE spare; while AUTO is 0, the event alone for
the reasons that AUTO governs. A unit already out of service is left. -/
def State.judge (s : State) (u : Part) (reason : Nat) : State :=
  let act := s.actsOn reason
  match u with
  | .cell c p =>
    if s.cellBad c p || s.hiveAbsent (c / 2) || 32 ≤ c || 272 ≤ p then s
    else
      let entry := repairEntry 0 (c / 2) (272 * (c % 2) + p) reason
      match s.cellServed c p with
      | some n => if act then s.remapCell n reason else s.repairEvent 0x0D01 entry
      | none =>
        if 256 ≤ p then
          ((s.updUnits (fun u => { u with badCells := (272 * c + p) :: u.badCells })).spareFailed
            [svComb c, svSpareCell c (p - 256)] entry).combSparesLow c entry
        else s
  | .tally p =>
    if s.units.badTallies.contains p || 8704 ≤ p then s
    else
      let entry := repairEntry 3 0xFF p reason
      match s.tallyServed p with
      | some n => if act then s.remapTally n reason else s.repairEvent 0x0D03 entry
      | none =>
        if 8192 ≤ p then (s.updUnits (fun u => { u with badTallies := p :: u.badTallies })).spareFailed [svSpareTally (p - 8192)] entry
        else s
  | .groom p =>
    if s.units.badGroom.contains p || 2 ≤ p then s
    else
      let entry := repairEntry 4 0xFF p reason
      if s.units.groom = some p then (if act then s.remapGroom reason else s.repairEvent 0x0D04 entry)
      else if p = 1 then (s.updUnits (fun u => { u with badGroom := 1 :: u.badGroom })).spareFailed [svSpareGroom] entry
      else s
  | .key p =>
    if s.units.badKeys.contains p || 10 ≤ p then s
    else
      let entry := repairEntry 5 0xFF p reason
      match s.keyServed p with
      | some n => if act then s.remapKey n reason else s.repairEvent 0x0D05 entry
      | none =>
        if 8 ≤ p then (s.updUnits (fun u => { u with badKeys := p :: u.badKeys })).spareFailed [svSpareKey (p - 8)] entry else s
  | .sequencer i => if 32 ≤ i then s else s.loseSequencer i reason
  | .engine kind i => if engineKinds.any (fun e => e.1 = kind && decide (i < e.2)) && kind ≠ 0 && kind ≠ 8 && kind ≠ 11 then s.loseEngine kind i else s
  | .hostPort n => if 4 ≤ n then s else s.loseHostPort n reason
  | .aisle h => if 16 ≤ h then s else (s.logRepair (repairEntry 8 h 0 reason)).loseHive h (repairEntry 8 h 0 reason)

/-! ### Erase blocks (R137 to R139) -/

/-- One block of a band replaced by another. -/
def replaceBlock (old new : Nat) (bands : List (Nat × Band)) : List (Nat × Band) :=
  bands.map (fun e => (e.1, { e.2 with blocks := e.2.blocks.map (fun k => if k = old then new else k) }))

/-- The port with a free block on a channel: its stale blocks erased where it has none (R135). -/
def ShedPort.withFresh (ch : Nat) (x : ShedPort) : ShedPort := if (freshBlock x.blocks ch).isSome then x else { x with blocks := eraseStale x.blocks }

/-- The data of block `k` moved to block `j`, the old block taking state `left`. -/
def ShedPort.moveBlock (k j : Nat) (left : BlockState) (x : ShedPort) : ShedPort :=
  { x with blocks := setBlocks .valid [j] (setBlocks left [k] x.blocks), bands := replaceBlock k j x.bands }

/-- Over-provisioning left, in per mille of the good blocks at training (R139). -/
def ShedPort.permille (x : ShedPort) : Nat := if x.goodAtTrain = 0 then 0 else 1000 * x.spareGood / x.goodAtTrain

/-- A block that fails an erase or a program, or stays uncorrectable, becomes bad (R139): its data is moved and the
over-provisioning takes its place; low levels raise EV_SH_OP_LOW, then EV_SH_READ_ONLY with the port out of write service. -/
def State.badBlock (s : State) (p k : Nat) : State :=
  let x := s.shedPort p
  match x.blocks[k]? with
  | none => s
  | some b =>
    if b.state = .bad || !s.portReadable p then s
    else
      let before := x.permille
      let w := if b.state = .valid then x.withFresh b.channel else x
      let y := match b.state, freshBlock w.blocks b.channel with
        | .valid, some j => w.moveBlock k j .bad
        | _, _ => { w with blocks := setBlocks .bad [k] w.blocks }
      let y := { y with spareGood := y.spareGood - 1 }
      let after := y.permille
      let s := (s.setShedPort p y).raise { code := 0x0502, subject := p, object := (x.blockAddress p k).getD 0 }
      let s := if after < 80 ∧ 80 ≤ before then (s.raise { code := 0x0503, subject := p }).cpTrigger Fld.CP_TRIG_OP_LOW else s
      if after < 40 && s.portWritable p then
        let s := ((s.put (Fld.SH_PORT_INFO_IN_SERVICE p) 0).put (Fld.SH_PORT_INFO_READ_ONLY p) 1).recomputeDirtyMax
        (s.survey [svShed p]).raise { code := 0x0504, subject := p }
      else s

/-! ### Relocating a layer (R90) -/

/-- Room on Hive `h` for a layer of `n` pages, in hand for stall `i`: its page list and pages. -/
def State.relocRoom (s : State) (i h n : Nat) (p : PageTable) : Option (Nat × List Page × State) :=
  (s.alloc h 1 1 (.inHand i)).bind (fun r =>
    (r.2.takePages h (.inHand i) p.pageMin p.pageMax p.recBytes n 0).map (fun q => (4096 * r.1, q.1, q.2)))

/-- The copy of a layer to another Hive started (R90): the full Hive with the most free pages that holds its pages and `extra` more;
EV_KV_PAGE_SHORT where none does. -/
def State.startReloc (s : State) (i layer extra : Nat) : State :=
  let x := s.stall i
  match x.table with
  | none => s
  | some p =>
    match p.layers[layer]? with
    | none => s
    | some l =>
      if x.relocs.any (fun r => r.layer = layer) then s
      else
        let n := l.pages.length + extra
        let fits (h : Nat) : Bool := s.fullHive x.hdr.tenant h && (s.relocRoom i h n p).isSome
        match (s.roomiest fits).bind (fun h => (s.relocRoom i h n p).map (fun q => (h, q))) with
        | none => s.stallEvent 0x0704 i [layer]
        | some (h, list, pages, s) => s.setStall i { s.stall i with relocs := x.relocs ++ [⟨layer, h, list, pages⟩] }

/-- The layers of a stall with a page or page list in the addresses that pass `p`. -/
def layersIn (p : Nat → Bool) (x : Stall) : List Nat :=
  match x.table with
  | none => []
  | some t => (t.layers.zipIdx.filter (fun l => p l.1.list || l.1.pages.any (fun g => p g.addr))).map (·.2)

/-- Every layer of a stall in the addresses that pass `p` relocated. -/
def State.vacate (s : State) (p : Nat → Bool) (i : Nat) : State := (layersIn p (s.stall i)).foldl (fun s l => s.startReloc i l 0) s

/-- The same for every stall in Tier 1 between steps. -/
def State.vacateAll (s : State) (p : Nat → Bool) : State :=
  ((s.stalls.filter (fun e => [StallState.hot, .waiting].contains e.2.state && e.2.park.isNone)).map (·.1)).foldl (fun s i => s.vacate p i) s

/-! ### Channels (R129 to R131) -/

/-- The channel granules of a logical channel, by Tier 1 address. -/
def inChannel (h c a : Nat) : Bool := decide (hiveOf a = h) && decide (channelOf a = c)

/-- The poison entries of a logical channel. -/
def State.poisonIn (s : State) (h c : Nat) : Nat := ((sparseGet [] s.t1.poison h).filter (fun a => channelOf a = c)).length

/-- A channel retired with no spare (R131): mirrors first (R593), its granules leave the page book, what lay in it recovers or is
lost, and a Hive of fewer than 4 channels becomes ABSENT. -/
def State.retireChannel (s : State) (h c : Nat) : State :=
  match s.physicalChannel h c with
  | none => s
  | some p =>
    let entry := repairEntry 1 h p 8
    let lo := h * 2 ^ 36 + c * channelBytes
    let s := s.loseMirrors (fun a n => decide (a < lo + channelBytes) && decide (lo < a + n))
    let s := (s.put (Fld.HB_CH_STATE h p) 4).put (Fld.HB_CH_LOGICAL h p) 31
    let s := s.updUnits (fun u => { u with badChannels := (17 * h + p) :: u.badChannels, evacuating := u.evacuating.filter (fun e => e.1 ≠ 16 * h + c) })
    let s := s.recoverStalls (inChannel h c)
    let s := s.dropCopies (inChannel h c)
    let s := s.survey [svHive h, svStack h, svChannel h c, svSpareChannel h]
    let s := s.logRepair entry
    if s.channelsInUse h < 4 then s.loseHive h entry else s

/-- No spare is left for a channel (R131): one that can be read is evacuated within HB_EVAC_TIME, one that cannot is retired at
once; EV_HB_CHANNEL_LOST carries its range. -/
def State.loseChannel (s : State) (h c : Nat) (readable : Bool) : State :=
  let lost (s : State) : State := s.raise { code := 0x0405, subject := 256 * h + c, object := h * 2 ^ 36 + c * channelBytes,
                                            detail := [h * 2 ^ 36 + c * channelBytes, channelBytes] }
  if !readable then
    let lo := h * 2 ^ 36 + c * channelBytes
    lost (s.loseMirrors (fun a n => decide (a < lo + channelBytes) && decide (lo < a + n))) |>.retireChannel h c
  else if s.units.evacuating.any (fun e => e.1 = 16 * h + c) then s
  else
    let s := (s.updUnits (fun u => { u with evacuating := u.evacuating ++ [(16 * h + c, s.now + s.get Fld.HB_EVAC_TIME_NS)] }))
    let s := (s.dropCopies (inChannel h c)).vacateAll (inChannel h c)
    lost s

/-- Sparing of a logical channel started (R130 steps 1 and 2): the channel copies out, the spare copies in; EV_HB_SPARING. Answers
whether a spare was there. -/
def State.startSparing (s : State) (h c : Nat) : Option State :=
  match s.physicalChannel h c, s.spareChannel h with
  | some p, some q =>
    if s.get (Fld.HB_CH_STATE h p) ≠ 0 then none
    else
      let s := ((s.put (Fld.HB_CH_STATE h p) 2).put (Fld.HB_CH_STATE h q) 3).raise { code := 0x0403, subject := 256 * h + c, object := h * 2 ^ 36 + c * channelBytes }
      some ((s.cpTrigger Fld.CP_TRIG_HB_SPARING).sparesLow (32 + h) (repairEntry 1 h p 8))
  | _, _ => none

/-- A channel's copy dropped before step 4 (R147): the old channel stays in use. -/
def State.dropSparing (s : State) (h c : Nat) : State :=
  match s.physicalChannel h c, firstBelow (fun q => s.get (Fld.HB_CH_STATE h q) = 3) 17 with
  | some p, some q =>
    if s.get (Fld.HB_CH_STATE h p) = 2 then
      ((s.put (Fld.HB_CH_STATE h p) 0).put (Fld.HB_CH_STATE h q) 1).updUnits (fun u => { u with copied := u.copied.filter (· ≠ 16 * h + c) })
    else s
  | _, _ => s

/-- A copied channel bound to the spare (R130 steps 4 and 5), and a MEM_SPARE operation for it ended. -/
def State.bindSpare (s : State) (k : Nat) : State :=
  let h := k / 16
  let c := k % 16
  let s := s.updUnits (fun u => { u with copied := u.copied.filter (· ≠ k) })
  match s.physicalChannel h c, firstBelow (fun q => s.get (Fld.HB_CH_STATE h q) = 3) 17 with
  | some p, some q =>
    let s := (s.put (Fld.HB_CH_STATE h p) 4).put (Fld.HB_CH_LOGICAL h p) 31
    let s := (s.put (Fld.HB_CH_STATE h q) 0).put (Fld.HB_CH_LOGICAL h q) c
    let s := s.updUnits (fun u => { u with badChannels := (17 * h + p) :: u.badChannels })
    let s := (s.survey [svHive h, svStack h, svChannel h c, svSpareChannel h]).raise { code := 0x0404, subject := 256 * h + c, object := h * 2 ^ 36 + c * channelBytes }
    let s := s.logRepair (repairEntry 1 h p 8)
    ((s.ops.filter (fun o => o.2.live && o.2.opcode = 0x32 && !o.2.st.ended && o.2.args = [h, c])).map (·.1)).foldl (fun s o =>
      (s.setOp o { s.op o with phase := 4 }).endOp o .done CS.ok) s
  | _, _ => s

/-- The bindings made at a composition point (R130 step 4). -/
def State.bindSpares (s : State) : State := s.units.copied.foldl (fun s k => s.bindSpare k) s

/-- Sparing that starts by itself (R129), only while SPARE_AUTO is 1 and no warning of a power loss stands (R142). A channel that cannot be read is retired
whatever SPARE_AUTO is where no spare is left (R131). -/
def State.autoSpare (s : State) (h c : Nat) (readable : Bool) : State :=
  if s.on Fld.PW_STATUS_PARKING || (s.physicalChannel h c).isNone then s
  else if !s.on Fld.HB_CTRL_SPARE_AUTO then (if !readable && (s.spareChannel h).isNone then s.loseChannel h c false else s)
  else match s.physicalChannel h c with
  | none => s
  | some p =>
    if s.get (Fld.HB_CH_STATE h p) = 2 then s
    else match s.startSparing h c with
      | some s' => s'
      | none => s.loseChannel h c readable

/-- The starts of R125 and R129 for poison entries: a channel with more than HB_SPARE_THRESH.POISON, and the channel with the most in
a full table. -/
def State.checkPoison (s : State) : State :=
  s.t1.poison.foldl (fun s e =>
    let h := e.1
    let s := (List.range 16).foldl (fun s c => if s.get Fld.HB_SPARE_THRESH_POISON < s.poisonIn h c then s.autoSpare h c true else s) s
    if e.2.length < 1024 then s
    else match (List.range 16).foldl (fun best c => match best with
        | none => some c
        | some b => if s.poisonIn h b < s.poisonIn h c then some c else some b) (none : Option Nat) with
      | some c => s.autoSpare h c true
      | none => s) s

/-- The stall engine's reads of what stall `i` has in Tier 1, with the recovery of what cannot be read (R126); the step of a RUNNING stall is then abandoned. -/
def State.tend (s : State) (i : Nat) : State :=
  if (s.stall i).state = .running && !s.hurt i then s.healDirectory i else (s.stopFor i (fun s => s.heal i)).checkPoison

end Sys2Proof.Machine
end

