-- ==== Sys2Proof/Machine/TearOps.lean ====
section
/-! DEFINITION. Keys by their targets, and the teardown of a tenant (R378, R450, R456, R472, R473). -/

namespace Sys2Proof.Machine

/-! ### Keys (R449, R450, R456) -/

def State.setSec (s : State) (x : SecX) : State := { s with sec := x }

/-- Where a target's keys stand: a domain, a job slot, a port's MACsec key. -/
def keyOfDomain (d : Nat) : Nat := d
def keyOfJob (k : Nat) : Nat := 1024 + k
def keyOfMacsec (p : Nat) : Nat := 2048 + p

/-- Whether a domain's keys are installed. -/
def State.domainInstalled (s : State) (d : Nat) : Bool := s.on (Fld.SEC_DOM_INSTALLED d)

/-- A domain's keys erased. -/
def State.eraseDomain (s : State) (d : Nat) : State :=
  let s := s.setSec { s.sec with
    keys := sparsePut [] (keyOfDomain d) [] s.sec.keys, allowDigest := sparsePut [] d [] s.sec.allowDigest, allow := sparsePut [] d [] s.sec.allow }
  let s := (s.put (Fld.SEC_DOM_INSTALLED d) 0).put (Fld.SEC_DOM_ALLOW d) 0
  if d < 256 then s.setReg (Reg.SEC_CONF d) 0 else s

/-- A job slot's key erased. -/
def State.eraseJob (s : State) (k : Nat) : State :=
  (s.setSec { s.sec with keys := sparsePut [] (keyOfJob k) [] s.sec.keys, exhausted := s.sec.exhausted.filter (· ≠ k) }).setReg (Reg.SEC_JOB k) 0

/-- Every LCK field of BAR0, in ascending offset order, the lower bits first within a register (R449). -/
def lckFields : List RegField :=
  (List.range 4).flatMap (fun n => [Fld.GC_PORT_CFG_MGMT n, Fld.GC_PORT_CFG_IDE_REQ n]) ++
  [Fld.CK_MON_CFG_TOL_PPM, Fld.CK_MON_CFG_WINDOW, Fld.CK_MON_CFG_GOOD_WINDOWS] ++
  (List.range 8).flatMap (fun l => [Fld.CK_PACE_VID_MV l, Fld.CK_PACE_CAP l]) ++
  [Fld.PW_CAP_FIXED_W, Fld.PW_AVS_MHZ, Fld.YT_SET_NS, Fld.CP_SLOT_CFG_PORTS, Fld.CP_SLOT_CFG_BANDS, Fld.NW_DEV_DEV_ID, Fld.NW_DEV_MST_UDP,
   Fld.NW_MAP_BASE_BASE, Fld.NW_RX_BASE_BASE, Fld.NW_CREDITS_CREDITS] ++
  (List.range 8).flatMap (fun p => [Fld.NW_PORT_CFG_MAC p, Fld.NW_PORT_CFG_PHY p, Fld.NW_PORT_IP_HI_ADDR p, Fld.NW_PORT_IP_LO_ADDR p,
    Fld.NW_PORT_NEXTHOP_MAC p]) ++
  (List.range 4).map (fun k => Fld.NW_LANE_WIRED (32 + k)) ++
  [Fld.SH_CTRL_PORT_EN, Fld.PF_OBJ_BASE_BASE, Fld.PF_OBJ_COUNT_COUNT, Fld.STL_HDR_POOL_BASE, Fld.STL_HDR_SLOTS_SLOTS,
   Fld.STL_DIR_BASE_BASE, Fld.STL_DIR_BASE2_BASE, Fld.SCH_CTX_BASE_BASE, Fld.SCH_CTX_SLOTS_SLOTS]

/-- The value that a measurement index has at present (R449): indices 3 to 6 are what bring-up measured. -/
def State.presentMeasurement (s : State) (i : Nat) : List Byte :=
  match i with
  | 1 => bytesOf 8 (0x0016 + Config.revision % 256 * 2 ^ 16 + (if Config.isK48 then 0 else 2 ^ 24))
  | 2 => Config.sha384 Config.bootRom
  | 3 | 4 | 5 | 6 => sparseGet [] s.sec.images i
  | 7 => Config.sha384 (lckFields.flatMap (fun f => bytesOf 8 (s.get f)))
  | 8 => Config.agreementKey
  | 9 => bytesOf 1 (s.get Fld.SEC_STATE_DEBUG_OPEN)
  | 10 => Config.sha384 (((List.range 32).map (512 + ·)).flatMap (fun d =>
      if s.domainInstalled d then bytesOf 2 d ++ sparseGet [] s.sec.allowDigest d else []))
  | _ => []

/-- The reported value of a measurement index (R449): 1 to 9 stand as SEC_CTRL.COMMIT fixed them. -/
def State.measurement (s : State) (i : Nat) : List Byte :=
  if s.on Fld.SEC_STATE_COMMITTED && decide (i < 10) then sparseGet [] s.sec.measured i else s.presentMeasurement i

/-- The policy digest over a mask (R450). -/
def State.policyDigest (s : State) (mask : Nat) : List Byte :=
  Config.sha384 (((List.range 10).filter mask.testBit).flatMap s.measurement)

/-! ### Bands of imported models (R463, R464) -/

def ModelImport.live (x : ModelImport) : Bool := !x.ended

/-- A band's data superseded whole: its blocks are stale (R135). -/
def State.staleBand (s : State) (p b : Nat) : State :=
  let x := s.shedPort p
  s.setShedPort p { x with bands := sparseErase b x.bands, blocks := setBlocks .stale (sparseGet ({} : Band) x.bands b).blocks x.blocks }

/-- The bands of the imports that `f` names become stale, and the imports are forgotten. -/
def State.dropImports (s : State) (f : ModelImport → Bool) : State :=
  let gone := s.sec.imports.filter f
  let s := gone.foldl (fun s x => x.bands.foldl (fun s e => s.staleBand e.1 e.2) s) s
  s.setSec { s.sec with imports := s.sec.imports.filter (fun x => !f x) }

/-! ### Teardown (R378) -/

/-- Whether granules of an owner belong to a tenant. -/
def State.ownedByTenant (s : State) (t : Nat) (o : Owner) : Bool :=
  match o with
  | .tenant u _ => decide (u = t)
  | .stall i | .inHand i => decide ((s.stall i).hdr.tenant = t)
  | .context k => decide ((s.context k).tenant = t)
  | _ => false

/-- The slots of a tenant's stalls. -/
def State.stallsOf (s : State) (t : Nat) : List Nat := (s.stalls.filter (fun e => decide (e.2.state ≠ .free ∧ e.2.hdr.tenant = t))).map (·.1)

/-- A command pending on a stall ended. -/
def State.cancelCmd (s : State) (c : Option Cmd) : State :=
  match c with
  | some c => s.complete c CS.cancelled
  | none => s

/-- A migration in phase 1 or 2 aborted, and a revive given up (R378 step 3, R65). -/
def State.calmStall (s : State) (i : Nat) : State :=
  let x := s.stall i
  let s : State := if x.state = .moving && decide (x.hdr.migPhase < 3) then
      if x.hdr.migRole = 2 then s.freeCopy i CS.cancelled
      else (s.sendAbort x.hdr.peerDev x.hdr.tenant x.handle CS.cancelled).cancelSource i .cancelled CS.cancelled
    else s
  match (s.stall i).revive with
  | some r => (s.undoRevive i).reviveAnswer r.cause CS.cancelled 0
  | none => s

/-- Step 3 of R378 for one stall: parked, or retired and freed, or forgotten; a migration in phase 3 is left to its end. -/
def State.tearStall (s : State) (keep : Bool) (i : Nat) : State :=
  let s := s.calmStall i
  let x := s.stall i
  if x.state = .free || x.state = .moving then s
  else if keep then
    if x.hdr.kind = 0 && (x.state = .hot || x.state = .waiting) && x.park.isNone then s.startPark i 0 none else s
  else
    let s := (s.abandonPark i).cancelCmd x.fetchCmd
    (s.dropRelocs i).freeSlot i

/-- Whether the stalls of a teardown are where step 3 leaves them. -/
def State.stallsSettled (s : State) (t : Nat) (keep : Bool) : Bool :=
  (s.stallsOf t).all (fun i =>
    let x := s.stall i
    x.state ≠ .moving && (if keep then x.park.isNone && !(x.hdr.kind = 0 && (x.state = .hot || x.state = .waiting)) else false))

/-- Steps 4 and 5 of R378: tallies, threads and what granules are left. -/
def State.sweepTenant (s : State) (t : Nat) (keep : Bool) : State :=
  let s := (List.range 8192).foldl (fun s n =>
    if s.get (Fld.TL_BIND_TENANT n) = t && s.on (Fld.TL_BIND_EN n) then (s.put (Fld.TL_BIND_EN n) 0).cancelTally n t else s) s
  let s := (List.range 128).foldl (fun s n =>
    if s.get (Fld.SCH_HUBTHR_TENANT n) = t && s.on (Fld.SCH_HUBTHR_BOUND n) then s.put (Fld.SCH_HUBTHR_BOUND n) 0 else s) s
  let s := s.dissolve (fun m => m.tenant = t)
  s.quarantineOwned (fun o => match o with | .tenant u _ => decide (u = t) | .stall _ | .inHand _ => !keep && s.ownedByTenant t o | _ => false)

/-- The scrub certificate of a teardown (R473). -/
def State.scrubCert (s : State) (x : Teardown) : List Byte :=
  let body := bytesOf 4 0x53435254 ++ bytesOf 1 1 ++ bytesOf 1 x.tenant ++ bytesOf 1 (if x.keep then 1 else 0) ++ bytesOf 1 (if x.keep then 0 else 1) ++
    bytesOf 8 Config.serial.toNat ++ bytesOf 8 s.sec.teardowns ++ bytesOf 8 x.start ++ bytesOf 8 s.now ++ bytesOf 8 x.granules ++
    bytesOf 4 x.saves ++ bytesOf 4 x.hubKiB ++ bytesOf 8 0 ++ s.policyDigest 0x3FE ++ bytesOf 16 0
  body ++ Config.sign body ++ List.replicate 32 0

/-- Step 6 of R378 with R472 and R473: the account zeroed, keys erased without KEEP, the certificate written; the operation ends. -/
def State.endTeardown (s : State) (x : Teardown) : State :=
  let t := x.tenant
  let s := [Fld.TN_GRANTED_TOKENS t, Fld.TN_CONSUMED_TOKENS t, Fld.TN_REFUNDED_TOKENS t, Fld.TN_REMAINING_TOKENS t, Fld.TN_QUEUED_TOKENS t,
    Fld.TN_LAST_CONSUMED_TOKENS t].foldl (fun s f => s.put f 0) s
  let s := s.put (Fld.SCH_CAP_CAP t) 65535
  let s : State := if x.keep then s
    else
      let s := (s.eraseDomain t).eraseDomain (256 + t)
      let s := (List.range 255).foldl (fun s k =>
        if s.on (Fld.SEC_JOB_INSTALLED k) && s.get (Fld.SEC_JOB_TENANT k) = t then s.eraseJob k else s) s
      (s.setReg (Reg.SEC_CONF t) 0).setReg (Reg.SEC_TNET t) 0
  let s := s.setSec { s.sec with teardowns := s.sec.teardowns + 1 }
  let s := s.setSec { s.sec with certs := sparsePut [] t (s.scrubCert x) s.sec.certs }
  let s := (s.dropText t).raise { code := 0x0C07, tenant := some t }
  let s := s.raise { code := 0x0A07, tenant := some t }
  { s with tear := s.tear.filter (fun y => y.op ≠ x.op) }.endOp x.op .done CS.ok

/-- Whether none of a run's granules is in quarantine. -/
def Tier1.scrubbed (t : Tier1) (r : Nat × Nat) : Bool :=
  t.runs.all (fun q => !q.owner.isQuarantine || decide (q.start + q.len ≤ r.1) || decide (r.1 + r.2 ≤ q.start))

/-- A teardown replaced by what has become of it. -/
def State.putTear (s : State) (y : Teardown) : State := { s with tear := s.tear.map (fun z => if z.op = y.op then y else z) }

/-- A teardown moved on as far as it can be: steps 3 to 5 once its parks and migrations have ended, step 6 once what it released is
scrubbed. -/
def State.advanceTeardown (s : State) (x : Teardown) : State :=
  let t := x.tenant
  let s : State := if x.swept then s else (s.stallsOf t).foldl (fun s i => s.tearStall x.keep i) s
  if x.swept then if x.released.all s.t1.scrubbed then s.endTeardown x else s
  else if !s.stallsSettled t x.keep then s
  else
    let s := s.sweepTenant t x.keep
    let gone := x.released.filter (fun r => match s.t1.ownerOf r.1 with | some o => o.isQuarantine | none => true)
    let y := { x with swept := true, released := gone, granules := (gone.map (·.2)).foldl (· + ·) 0 }
    if gone.all s.t1.scrubbed then s.endTeardown y else s.putTear y

/-- Every teardown in progress moved on. -/
def State.advanceTeardowns (s : State) : State := s.tear.foldl (fun s x => s.advanceTeardown x) s

/-- The start of a teardown (R378 steps 1 to 3). -/
def State.beginTeardown (s : State) (op t : Nat) (keep : Bool) : State :=
  let s := s.put (Fld.TN_CTRL_EN t) 0
  let r := sparseGet {} s.rounds t
  let s : State := match r.waiting with
    | some w => s.answerHub w.slot w.unit w.cmd CS.cancelled 0
    | none => s
  let s := { s with rounds := sparsePut {} t {} s.rounds }
  let s := (s.stallsOf t).foldl (fun s i => s.abandonStep i) s
  let mine := (s.contexts.filter (fun e => decide (e.2.state ≠ .free ∧ e.2.tenant = t))).map (·.1)
  let runs := (s.t1.runs.filter (fun r => s.ownedByTenant t r.owner)).map (fun r => (r.start, r.len))
  let code := mine.map (fun k => ((s.context k).codeAt / 4096, ceilDiv (s.context k).codeBytes 4096))
  let windows := s.windows.filter (fun w => w.tenant = t)
  let cells := (mine.filter (fun k => !(s.context k).hub)).map (fun k => (s.context k).saves.length)
  let x : Teardown := {
    op := op, tenant := t, keep := keep, start := s.now, swept := false, released := runs ++ code, granules := 0,
    saves := cells.foldl (· + ·) 0, hubKiB := 64 * (mine.length - cells.length) + (windows.map (fun w => 64 * w.units)).foldl (· + ·) 0 }
  let s := mine.foldl (fun s k => (s.stopContext k).freeContext k) s
  { s with tear := s.tear ++ [x] }.advanceTeardown x

end Sys2Proof.Machine
end

