-- ==== Sys2Proof/Machine/VsOps.lean ====
section
/-! DEFINITION. An index in Tier 1: its root, its shards, what their areas hold, distances, the graph walk and the merge of the side list (R209 to
R217, R222 to R224, R229 to R231). -/

namespace Sys2Proof.Machine

/-! ### The root and the shards (R211 to R215) -/

/-- A shard entry (R213). -/
structure VsShard where
  hive : Nat
  cap : Nat
  count : Nat
  sideCount : Nat
  codes : Nat
  metaAt : Nat
  nbr : List Nat
  side : Nat
  entry : Nat
  entries : List Nat
deriving DecidableEq, Repr

/-- An index root (R212). -/
structure VsRoot where
  codeLog2 : Nat
  degree : Nat
  mask : Nat
  gen : Nat
  active : Nat
  sideCap : Nat
  mergeGen : Nat
  shards : List VsShard
deriving DecidableEq, Repr

def VsRoot.codeBytes (r : VsRoot) : Nat := 2 ^ r.codeLog2 / 8
def VsRoot.shard (r : VsRoot) (k : Nat) : VsShard := r.shards.getD k ⟨0, 0, 0, 0, 0, 0, [], 0, 0, []⟩

/-- The 128 bytes of a shard entry. -/
def vsShardBytes (h : VsShard) : List Byte :=
  bytesOf 1 h.hive ++ bytesOf 3 0 ++ bytesOf 4 h.cap ++ bytesOf 4 h.count ++ bytesOf 4 h.sideCount ++ bytesOf 8 h.codes ++ bytesOf 8 h.metaAt ++
    bytesOf 8 (h.nbr.getD 0 0) ++ bytesOf 8 (h.nbr.getD 1 0) ++ bytesOf 8 h.side ++ bytesOf 8 h.entry ++ bytesOf 2 (h.entries.getD 0 0) ++
    bytesOf 2 (h.entries.getD 1 0) ++ bytesOf 60 0

/-- The 4,096 bytes of an index root. -/
def vsRootBytes (r : VsRoot) : List Byte :=
  let b := bytesOf 4 0x56534958 ++ bytesOf 1 r.codeLog2 ++ bytesOf 1 r.degree ++ bytesOf 2 r.mask ++ bytesOf 8 r.gen ++ bytesOf 1 r.active ++
    bytesOf 1 r.shards.length ++ bytesOf 2 0 ++ bytesOf 4 r.sideCap ++ bytesOf 8 r.mergeGen ++ bytesOf 32 0 ++ r.shards.flatMap vsShardBytes
  b ++ List.replicate (4096 - b.length) 0

/-- The shard entry that bytes spell. -/
def vsShardOf (b : List Byte) : VsShard :=
  ⟨recGet b 0 1, recGet b 4 4, recGet b 8 4, recGet b 12 4, recGet b 16 8, recGet b 24 8, [recGet b 32 8, recGet b 40 8], recGet b 48 8,
    recGet b 56 8, [recGet b 64 2, recGet b 66 2]⟩

/-- The index root that bytes spell. -/
def vsRootOf (b : List Byte) : VsRoot :=
  { codeLog2 := recGet b 4 1, degree := recGet b 5 1, mask := recGet b 6 2, gen := recGet b 8 8, active := recGet b 16 1
    sideCap := recGet b 20 4, mergeGen := recGet b 24 8
    shards := (List.range (recGet b 17 1)).map (fun k => vsShardOf (b.drop (64 + 128 * k))) }

/-- The root of the index in slot `i`, or the status of its failed read. -/
def State.vsRoot (s : State) (i : Nat) : Except Nat VsRoot :=
  (s.readBlocks (s.stallTenant i) (s.stall i).hdr.ptRoot 4096).map vsRootOf

/-- The root of an index written. -/
def State.setVsRoot (s : State) (i : Nat) (r : VsRoot) : State :=
  s.writeT1 (s.stallTenant i) (s.stall i).hdr.ptRoot (vsRootBytes r)

/-- Whether a slot holds an initialised index. -/
def isIndex (x : Stall) : Bool := decide (x.hdr.kind = 1 ∧ x.state = .hot ∧ x.hdr.ptRoot ≠ 0)

/-- VS_CAP_USED: the sum of CAP over the shards of all indexes that hold storage (R211). -/
def State.vsCapUsed (s : State) : Nat := (s.stalls.map (fun e => e.2.vsCap)).foldl (· + ·) 0

/-- The ID of local number `n` of shard `k`. -/
def vsId (k n : Nat) : Nat := k * 2 ^ 28 + n

/-- A metadata entry (R215). -/
structure VsMeta where
  insGen : Nat
  delGen : Nat
  tags : Nat
  inGraph : Bool
deriving DecidableEq, Repr

/-- DEL_GEN of a live code. -/
abbrev vsLive : Nat := 2 ^ 64 - 1

def vsMetaBytes (x : VsMeta) : List Byte :=
  bytesOf 8 x.insGen ++ bytesOf 8 x.delGen ++ bytesOf 4 x.tags ++ bytesOf 1 (if x.inGraph then 1 else 0) ++ bytesOf 11 0
def vsMetaOf (b : List Byte) : VsMeta := ⟨recGet b 0 8, recGet b 8 8, recGet b 16 4, (recGet b 20 1).testBit 0⟩

/-- Whether a code is visible at a snapshot (R221). -/
def VsMeta.visible (x : VsMeta) (snap : Nat) : Bool := decide (x.insGen ≤ snap ∧ snap < x.delGen)

/-- The distance of two codes (R209). -/
def vsDistance (a b : List Byte) : Nat := (List.zipWith (fun x y => popCount 8 (x ^^^ y).toNat) a b).foldl (· + ·) 0

/-! ### Reads of an index -/

/-- The words of 4 bytes that a list of bytes spells. -/
def words4 (n : Nat) (b : List Byte) : List Nat := (List.range n).map (fun i => recGet b (4 * i) 4)

/-- The code of a local number. -/
def State.vsCode (s : State) (t : Nat) (r : VsRoot) (k n : Nat) : Except Nat (List Byte) :=
  s.readBlocks t ((r.shard k).codes + n * r.codeBytes) r.codeBytes

def State.vsMeta (s : State) (t : Nat) (r : VsRoot) (k n : Nat) : Except Nat VsMeta :=
  (s.readBlocks t ((r.shard k).metaAt + 32 * n) 32).map vsMetaOf

/-- The neighbour list of a node in a slot: local numbers, empty entries left out (R214). -/
def State.vsNbr (s : State) (t : Nat) (r : VsRoot) (k slot n : Nat) : Except Nat (List Nat) :=
  (s.readBlocks t ((r.shard k).nbr.getD slot 0 + 4 * r.degree * n) (4 * r.degree)).map (fun b =>
    ((words4 r.degree b).filter (· ≠ 0xFFFFFFFF)).map (· % 2 ^ 28))

/-- The side list of a shard. -/
def State.vsSide (s : State) (t : Nat) (r : VsRoot) (k : Nat) : Except Nat (List Nat) :=
  let h := r.shard k
  (s.readBlocks t h.side (4 * h.sideCount)).map (words4 h.sideCount)

/-- The entry points of a slot. -/
def State.vsEntry (s : State) (t : Nat) (r : VsRoot) (k slot : Nat) : Except Nat (List Nat) :=
  let h := r.shard k
  let n := h.entries.getD slot 0
  (s.readBlocks t (h.entry + 256 * slot) (4 * n)).map (fun b => (words4 n b).map (· % 2 ^ 28))

/-! ### Candidates by distance (R222, R229) -/

/-- A candidate: its distance, its local number. -/
abbrev VsCand := Nat × Nat

def vsBefore (a b : VsCand) : Bool := decide (a.1 < b.1) || (decide (a.1 = b.1) && decide (a.2 < b.2))

/-- A candidate put in its place. -/
def vsPut (a : VsCand) : List VsCand → List VsCand
  | [] => [a]
  | b :: l => if vsBefore a b then a :: b :: l else b :: vsPut a l

/-- A candidate offered to a list that keeps the best `n`. -/
def vsOffer (n : Nat) (a : VsCand) (l : List VsCand) : List VsCand := (vsPut a l).take n

/-! ### The merge (R229) -/

/-- A graph under construction: nodes with their lists of local numbers. -/
abbrev VsGraph := List (Nat × List Nat)

def nbrOf (g : VsGraph) (n : Nat) : List Nat := ((g.find? (fun e => e.1 = n)).map (·.2)).getD []

/-- The candidates of a list measured from a code; those without a readable code are left out. -/
def measured (code : Nat → Option (List Byte)) (from_ : List Byte) (l : List Nat) : List VsCand :=
  l.filterMap (fun n => (code n).map (fun c => (vsDistance from_ c, n)))

/-- The `degree` nearest of a list, by distance and then by lower ID. -/
def nearest (code : Nat → Option (List Byte)) (from_ : List Byte) (degree : Nat) (l : List Nat) : List Nat :=
  ((measured code from_ l.eraseDups).foldl (fun r c => vsOffer degree c r) []).map (·.2)

/-- A walk over a graph that only ranks (R222): the beam of at most `ef`, each entry with whether it is expanded, and the visited nodes. -/
def buildWalk (g : VsGraph) (code : Nat → Option (List Byte)) (from_ : List Byte) (ef : Nat) :
    (fuel : Nat) → List (VsCand × Bool) → List Nat → List (VsCand × Bool)
  | 0, beam, _ => beam
  | fuel + 1, beam, visited =>
    match beam.find? (fun e => !e.2) with
    | none => beam
    | some c =>
      let beam := beam.map (fun e => if e.1 = c.1 then (e.1, true) else e)
      let new := ((nbrOf g c.1.2).filter (fun n => !visited.contains n)).eraseDups
      let beam := (measured code from_ new).foldl (fun (b : List (VsCand × Bool)) x =>
        let place := b.takeWhile (fun e => vsBefore e.1 x)
        (place ++ (x, false) :: b.drop place.length).take ef) beam
      buildWalk g code from_ ef fuel beam (new ++ visited)

/-- The entry points of the new graph (R229 step 4): one left out gives way to its nearest remaining neighbour or is dropped; with none left, the
lowest-numbered node. -/
def newEntries (old : VsGraph) (g : VsGraph) (code : Nat → Option (List Byte)) (entries : List Nat) : List Nat :=
  let inside (n : Nat) : Bool := g.any (fun e => e.1 = n)
  let kept := entries.filterMap (fun e =>
    if inside e then some e
    else match code e with
      | none => none
      | some c => (nearest code c 1 ((nbrOf old e).filter inside)).head?)
  if kept.isEmpty then (match g.map (·.1) with | [] => [] | a :: l => [l.foldl min a]) else kept

/-- Step 1 and 2 of R229: the active graph without the nodes that are gone, the lists that pointed to them refilled. -/
def copyGraph (old : VsGraph) (gone : Nat → Bool) (code : Nat → Option (List Byte)) (degree : Nat) : VsGraph :=
  (old.filter (fun e => !gone e.1)).map (fun e =>
    if !e.2.any gone then e
    else
      let refill := e.2.flatMap (fun n => if gone n then (nbrOf old n).filter (fun m => !gone m && decide (m ≠ e.1)) else [n])
      match code e.1 with
      | some c => (e.1, nearest code c degree refill)
      | none => (e.1, e.2.filter (fun n => !gone n)))

/-- Step 3 of R229 for one side entry: linked to the nearest that a walk finds, and they to it under the same rule. -/
def linkNode (old : VsGraph) (entries : List Nat) (code : Nat → Option (List Byte)) (degree ef : Nat) (g : VsGraph) (n : Nat) : VsGraph :=
  match code n with
  | none => g ++ [(n, [])]
  | some c =>
    let start := newEntries old g code entries
    let beam := (measured code c start.eraseDups).foldl (fun r x => vsOffer ef x r) []
    let found := (buildWalk g code c ef (g.length + 1) (beam.map (fun x => (x, false))) start).map (·.1.2)
    let near := found.take degree
    let back (e : Nat × List Nat) : Nat × List Nat :=
      if !near.contains e.1 then e
      else match code e.1 with
        | some d => (e.1, nearest code d degree (e.2 ++ [n]))
        | none => e
    g.map back ++ [(n, near)]

/-! ### Merges as operations (R231) -/

/-- The merge that the device starts where a side list is full enough (R231). -/
def State.autoMerge (s : State) (i : Nat) : State :=
  if !s.on Fld.VS_CTRL_AUTO_MERGE || !s.on Fld.VS_CTRL_EN || !isIndex (s.stall i) || s.merging i then s
  else match s.vsRoot i with
  | .error _ => s
  | .ok r =>
    if r.shards.any (fun h => decide (s.get Fld.VS_MERGE_AT_PERCENT * r.sideCap ≤ 100 * h.sideCount) && decide (0 < h.sideCount)) then
      match s.newOpFor none 0x64 [i, 128, 0, (s.stall i).handle] with
      | none => s
      | some (_, s) => s
    else s

/-- The same for every index, when the percentage or the enables change or a restore brings indexes back. -/
def State.autoMerges (s : State) : State := s.stalls.foldl (fun s e => s.autoMerge e.1) s

/-- The index that a merge in operation slot `op` is of, while it is the one the merge was accepted for; one that has been retired since lets it run to its end (R227). -/
def State.mergeIndex (s : State) (op : Nat) : Option Nat :=
  let o := s.op op
  let i := o.args.headD 0
  let x := s.stall i
  if x.hdr.kind = 1 && x.hdr.ptRoot ≠ 0 && (x.state = .hot || x.state = .retired) && o.args.getD 3 0 = x.handle then some i else none

/-- A merge ended: a side list filled meanwhile starts the next; the storage of an index that was retired is released. -/
def State.endMerge (s : State) (slot : Nat) (st : OpState) (status : Nat) : State :=
  let i := s.mergeIndex slot
  let s := s.endOp slot st status
  match i with
  | none => s
  | some i => if (s.stall i).state = .retired then s.releasePages i else s.autoMerge i

end Sys2Proof.Machine
end

