-- ==== Sys2Proof/Machine/LongOps.lean ====
section
/-! DEFINITION. What each long operation's own rules say of suspending, resuming and cancelling it (R637 and the rules it
names). -/

namespace Sys2Proof.Machine

/-- The migration phase of the stall a STALL_MIGRATE operation moves. -/
def State.migPhaseOf (s : State) (slot : Nat) : Nat :=
  let x := s.stall ((s.op slot).args.headD 0)
  match x.mig with
  | some m => if m.op = some slot then x.hdr.migPhase else 0
  | none => 0

/-- Whether an operation has a safe point in the phase it has reached (R637). A migration is in MIG_PHASE 2 only while its operation, suspended in phase 1, holds COMMIT
back. -/
def State.opHasSafePoint (s : State) (slot : Nat) : Bool :=
  let o := s.op slot
  match o.opcode with
  | 0x25 => decide (s.migPhaseOf slot = 1 ∨ s.migPhaseOf slot = 2)
  | 0x2A | 0x30 | 0x31 | 0xA2 | 0xC1 => true
  | 0x64 => o.phase = 0
  | 0x90 => decide (o.phase < 4)
  | _ => false

/-- Whether OP_SUSPEND is refused in every state (R637). -/
def neverSuspended (opcode : Nat) : Bool := [0x0C, 0x80, 0x91].contains opcode

/-- Whether OP_CANCEL is allowed in the phase an operation has reached (R637). -/
def State.opCancellable (s : State) (slot : Nat) : Bool :=
  let o := s.op slot
  match o.opcode with
  | 0x0C | 0x80 | 0x91 => false
  | 0x25 => s.migPhaseOf slot ≠ 3
  | 0x32 | 0x90 => decide (o.phase < 4)
  | 0x64 => o.phase = 0
  | _ => true

/-- The end of a SELF_TEST (R575), with its findings: the units tested and those found failed. -/
def State.endTest (s : State) (slot : Nat) (st : OpState) (status : Nat) : State :=
  match s.tests.find? (fun t => t.op = slot) with
  | none => s.endOp slot st status
  | some t => ({ s with tests := s.tests.filter (fun t => t.op ≠ slot) }).endOp slot st status t.tested t.failed

/-- What reaching SUSPENDED changes beside the state: a suspended audit lets allocation go on (R47); a suspended checkpoint stops
writing and ends its freeze, its target invalid (R586); a suspended migration's transfer pauses (R65). -/
def State.opSuspended (s : State) (slot : Nat) : State :=
  match (s.op slot).opcode with
  | 0x25 => s.pauseTransfer (s.stall ((s.op slot).args.headD 0)).hdr.peerDev
  | 0x2A => { s with allocStopped := false }
  | 0x90 => s.haltCheckpoint
  | _ => s

/-- The state of a migration's stall when its operation is resumed (R65): both leases renewed, and COMMIT sent where PREPARED
came meanwhile; a migration that had not started is started, or waits for its stall's step again. -/
def State.migResumed (s : State) (slot : Nat) : State :=
  let o := s.op slot
  let i := o.args.headD 0
  let x := s.stall i
  let phase := s.migPhaseOf slot
  if phase = 1 ∨ phase = 2 then
    let lease := s.now + s.get Fld.STL_LEASE_PREP_NS
    let s := s.setStall i { x with
      leaseExpiry := lease, mig := x.mig.map (fun m => { m with lastRenew := s.now }), hdr := { x.hdr with leaseExpiry := lease } }
    let s := s.sendDevice 0x0C x.hdr.peerDev x.hdr.tenant 0 x.handle lease
    if phase = 2 then s.sendCommit i else s.resumeTransfer x.hdr.peerDev
  else if o.started then s
  else match o.cmd with
    | none => s
    | some c =>
      if x.state = .running then
        if x.deferred.any (fun d => match d with | .command op _ => decide (op = 0x25 + 256 * slot) | _ => false) then s
        else s.setStall i { x with deferred := x.deferred ++ [.command (0x25 + 256 * slot) c] }
      else s.doMigrate slot c i

/-- What resuming an operation changes beside its state. -/
def State.opResumed (s : State) (slot : Nat) : State :=
  match (s.op slot).opcode with
  | 0x2A => { s with allocStopped := true }
  | 0x25 => s.migResumed slot
  | 0x90 => s.beginCheckpoint slot s.cp.slot s.cp.step
  | _ => s

/-- What cancelling an operation undoes (R637): a migration sends ABORT and its stall returns to PRIOR_STATE (R65); an audit
lets allocation go on (R47). The operation then ends CANCELLED. -/
def State.cancelOp (s : State) (slot : Nat) : State :=
  let o := s.op slot
  match o.opcode with
  | 0x25 =>
    let i := o.args.headD 0
    let x := s.stall i
    if s.migPhaseOf slot = 0 then
      let s := s.setStall i { x with deferred := x.deferred.filter (fun d => match d with | .command op _ => decide (op ≠ 0x25 + 256 * slot) | _ => true) }
      s.endOp slot .cancelled CS.cancelled
    else (s.sendAbort x.hdr.peerDev x.hdr.tenant x.handle CS.cancelled).cancelSource i .cancelled CS.cancelled
  | 0x2A => { s with allocStopped := false }.endOp slot .cancelled CS.cancelled
  | 0x32 => (s.dropSparing (o.args.headD 0) (o.args.getD 1 0)).endOp slot .cancelled CS.cancelled
  | 0x64 => s.endMerge slot .cancelled CS.cancelled
  | 0xA2 => (s.dropImports (fun x => x.op = slot && x.live)).endOp slot .cancelled CS.cancelled
  | 0x90 => s.dropCheckpoint .cancelled CS.cancelled
  | 0xC1 => s.endTest slot .cancelled CS.cancelled
  | _ => s.endOp slot .cancelled CS.cancelled

end Sys2Proof.Machine
end

