-- ==== Sys2Proof/Machine/Host.lean ====
section
/-! DEFINITION. The commands of the queue interface, the doorbells, command fetch, and the events on the host ports (R381 to
R417, R637). -/

namespace Sys2Proof.Machine

/-! ### NOP and the commands on long operations (R398, R406 to R410) -/

/-- NOP (R398): the YT count. -/
def execNop (c : Cmd) (s : State) : Host.Outcome State Fault Refusal :=
  next (s.runCmd c .both true (fun s => s.complete c CS.ok s.now))

/-- A command on a long operation: its handle checked (R406), then its effect on the slot. -/
def State.opCmd (s : State) (c : Cmd) (body : Nat → State → State) : State :=
  s.runCmd c .both false (fun s =>
    match s.checkOpHandle c with
    | .error st => s.complete c st
    | .ok slot => body slot s)

/-- A command on an operation refused in its present state (R407). -/
def State.opRefuses (s : State) (c : Cmd) (slot : Nat) : State := s.complete c CS.notReady (s.op slot).st.code

/-- The progress that OP_QUERY reports, in per mille: a model import's by the bytes written; the estimate of any other operation is its own, which the
spec does not give: a free value. -/
def State.opProgress (s : State) (slot : Nat) : Nat × State :=
  if (s.op slot).opcode = 0xA2 then ((s.op slot).progress, s) else let f := s.drawFree; (f.1.toNat % 1001, f.2)

/-- OP_QUERY (R398). -/
def execOpQuery (c : Cmd) (s : State) : Host.Outcome State Fault Refusal :=
  next (s.opCmd c (fun slot s =>
    let o := s.op slot
    let p := s.opProgress slot
    p.2.complete c CS.ok (o.st.code + 256 * o.opcode) p.1 o.changedYt))

/-- OP_SUSPEND (R407, R637): a RUNNING operation goes to its next safe point, a QUEUED one to SUSPENDED. -/
def execOpSuspend (c : Cmd) (s : State) : Host.Outcome State Fault Refusal :=
  next (s.opCmd c (fun slot s =>
    let o := s.op slot
    if neverSuspended o.opcode then s.opRefuses c slot
    else if o.st = .queued then (s.moveOp slot .suspended).complete c CS.suspended
    else if o.st = .running && s.opHasSafePoint slot then
      let s := s.moveOp slot .suspending
      s.setOp slot { s.op slot with suspendCmd := some (coreOf c) }
    else s.opRefuses c slot))

/-- OP_RESUME (R407): a SUSPENDED operation runs again, or is QUEUED where it had not started. -/
def execOpResume (c : Cmd) (s : State) : Host.Outcome State Fault Refusal :=
  next (s.opCmd c (fun slot s =>
    let o := s.op slot
    if o.st = .suspended then
      ((s.moveOp slot (if o.started then .running else .queued)).opResumed slot).complete c CS.ok
    else s.opRefuses c slot))

/-- OP_CANCEL (R407, R409, R637): the operation is cancelled where its rules allow; on a SUSPENDING operation the cancel is
judged at the safe point. -/
def execOpCancel (c : Cmd) (s : State) : Host.Outcome State Fault Refusal :=
  next (s.opCmd c (fun slot s =>
    let o := s.op slot
    let open_ := [OpState.queued, .running, .suspended, .resuming].contains o.st
    if o.st = .suspending && o.cancelCmd.isNone then s.setOp slot { o with cancelCmd := some (coreOf c) }
    else if open_ && s.opCancellable slot then
      (s.setOp slot { o with cancelCmd := some (coreOf c) }).cancelOp slot
    else s.opRefuses c slot))

/-- OP_RELEASE (R410): an ended operation's slot becomes FREE. -/
def execOpRelease (c : Cmd) (s : State) : Host.Outcome State Fault Refusal :=
  next (s.opCmd c (fun slot s =>
    if (s.op slot).st.ended then (s.freeOp slot).complete c CS.ok else s.opRefuses c slot))

/-- OP_SAFE_POINT (R407, R409): a SUSPENDING operation is cancelled where a cancel waits and may be taken, and is SUSPENDED
otherwise. -/
def execOpSafePoint (slot : Nat) (s : State) : Host.Outcome State Fault Refusal :=
  let o := s.op slot
  next (if o.live && o.st = .suspending && (s.opHasSafePoint slot || o.cancelCmd.isSome) then
      match o.cancelCmd with
      | some cc =>
        if s.opCancellable slot then
          let s := match o.suspendCmd with
            | some sc => s.complete sc CS.notReady OpState.cancelling.code
            | none => s
          (s.setOp slot { s.op slot with suspendCmd := none }).cancelOp slot
        else
          let s := s.moveOp slot .suspended
          let s := s.setOp slot { s.op slot with suspendCmd := none, cancelCmd := none }
          let s := s.complete cc CS.notReady OpState.suspended.code
          let s := match o.suspendCmd with | some sc => s.complete sc CS.suspended | none => s
          s.opSuspended slot
      | none =>
        let s := s.moveOp slot .suspended
        let s := s.setOp slot { s.op slot with suspendCmd := none }
        let s := match o.suspendCmd with | some sc => s.complete sc CS.suspended | none => s
        s.opSuspended slot
    else s)

/-- OP_HOLD_EXPIRY (R410): GC_OP_HOLD after its end an operation's slot becomes FREE. -/
def execOpHoldExpiry (slot : Nat) (s : State) : Host.Outcome State Fault Refusal :=
  let o := s.op slot
  next (if o.live && o.st.ended && o.endYt + s.get Fld.GC_OP_HOLD_NS ≤ s.now then s.freeOp slot else s)

/-! ### Tier 1 from the host (R399, R400) -/

/-- Whether a range touches a mirror range, or the primary range of a mirrored pair (R592). -/
def State.overMirror (s : State) (addr n : Nat) (primaryToo : Bool) : Bool :=
  s.mirrors.any (fun m =>
    let hits (base : Nat) : Bool := decide (addr < base + m.len) && decide (base < addr + n)
    hits m.mirror || (primaryToo && hits m.primary))

/-- TIER1_ALLOC (R399). -/
def execTier1Alloc (c : Cmd) (s : State) : Host.Outcome State Fault Refusal :=
  next (s.runHeld c .tenant false (fun s =>
    let t := (s.issuerTenant c.issuer).getD 0
    let n := opU32 c 36
    let model := (opByte c 33).testBit 0
    let hive := if opByte c 32 = 0xFF then s.roomiest (s.partitionHive t)
      else if opByte c 32 < 16 ∧ s.partitionHive t (opByte c 32) then some (opByte c 32) else none
    if s.allocStopped then s
    else if n = 0 ∨ channelGranules < n then s.complete c CS.badCommand
    else if model && !s.on (Fld.TN_CTRL_MODEL_EN t) then s.complete c CS.badCommand
    else match hive with
      | none => s.complete c CS.badCommand
      | some h =>
        match s.alloc h n 1 (.tenant t (if model then some (s.get (Fld.TN_CTRL_MODEL t)) else none)) with
        | none => s.complete c CS.noResource
        | some (g, s) => s.complete c CS.ok (4096 * g)))

/-- TIER1_FREE (R399). -/
def execTier1Free (c : Cmd) (s : State) : Host.Outcome State Fault Refusal :=
  next (s.runHeld c .tenant false (fun s =>
    let t := (s.issuerTenant c.issuer).getD 0
    let n := opU32 c 36
    let a := c.addrA.toNat
    let mine (o : Owner) : Bool := match o with | .tenant u _ => decide (u = t) | _ => false
    if a % 4096 ≠ 0 || n = 0 || !s.addrOk a (4096 * n) || !s.t1.allOwned mine (a / 4096) n || s.overMirror a (4096 * n) true then
      s.complete c CS.badCommand
    else (s.quarantine (a / 4096) n).complete c CS.ok))

/-- The length and alignment rules of R400. -/
def transferOk (c : Cmd) : Bool :=
  let n := opU32 c 32
  decide (64 ≤ n) && decide (n % 64 = 0) && decide (c.addrA.toNat % 64 = 0) && decide (c.addrB.toNat % 64 = 0)

/-- TIER1_WRITE (R400): host bytes into Tier 1; on a bus failure the prefix that came is written. -/
def execTier1Write (c : Cmd) (s : State) : Host.Outcome State Fault Refusal :=
  next (s.runHeld c .tenant false (fun s =>
    let t := (s.issuerTenant c.issuer).getD 0
    let n := opU32 c 32
    let b := c.addrB.toNat
    if !transferOk c || !s.tenantOwns t b n || s.overMirror b n false then s.complete c CS.badCommand
    else
      let got := if s.isDetached c then 0 else match c.busFail with | some k => min k n | none => n
      let moved := if got < n then got / 64 * 64 else n
      let s := s.writeT1 t b (tabulate moved (fun i => c.data.getD i 0))
      if moved < n then (s.busFault c c.addrA.toNat).complete c CS.fault moved else s.complete c CS.ok n))

/-- TIER1_READ (R400): Tier 1 bytes to host memory, up to the first block that cannot be read or the bus failure. -/
def execTier1Read (c : Cmd) (s : State) : Host.Outcome State Fault Refusal :=
  next (s.runHeld c .tenant false (fun s =>
    let t := (s.issuerTenant c.issuer).getD 0
    let n := opU32 c 32
    let a := c.addrA.toNat
    if !transferOk c || !s.tenantOwns t a n || s.overMirror a n false || s.overWeights a n then s.complete c CS.badCommand
    else
      let blocks := blocksOf a n
      let readable := s.goodPrefix t blocks
      let bus := match c.busFail with | some k => min k n / 64 * 64 | none => n
      let moved := min readable bus
      let bytes := s.servedBytes t a moved
      let failed := (blocks.findSome? (s.blockStatus t)).getD CS.ok
      let s := (s.afterRead t a (min n (readable + 64))).checkPoison
      let s := if moved = 0 then s
        else if s.isDetached c then s.bump (Fld.GC_PORT_DROP_COUNT (match c.issuer with | .queue q => s.io.queuePort q | _ => 0)) 1
        else s.emit (.hostWrite (match c.issuer with | .queue q => s.io.queuePort q | _ => 0) c.addrB.toNat bytes)
      if moved = n then s.complete c CS.ok n
      else if readable ≤ bus then s.complete c failed moved
      else (s.busFault c c.addrB.toNat).complete c CS.fault moved))

/-- PORT_DETACH (R412): its five steps, and the operation ends DONE. -/
def execPortDetach (c : Cmd) (s : State) : Host.Outcome State Fault Refusal :=
  next (s.runCmd c .mgmt false (fun s =>
    let n := opByte c 32
    let own := match c.issuer with | .queue q => decide (q - 4096 = n) | _ => false
    if 4 ≤ n || own then s.refuse c CS.badCommand
    else s.beginOp c 0x0C [n] false (fun slot s =>
      let s := s.put (Fld.GC_PORT_STATE_LINK n) 3
      let s := (s.detachPort n).clearBinding n
      let s := s.put (Fld.GC_PORT_STATE_LINK n) 0
      let s := s.raise { code := 0x0F03, subject := n }
      s.endOp slot .done CS.ok)))

/-! ### Doorbells and fetch (R388 to R394) -/

/-- Whether a doorbell on a port reaches a queue (R391). -/
def State.doorbellOk (s : State) (port q : Nat) : Bool :=
  s.get (qEn q) = 1 && s.io.queuePort q = port && s.io.portUp port &&
    (match queueTenant q with | some t => s.bound port t | none => true)

/-- SQ_TAIL_DOORBELL (R391): the new tail, or ERROR for a value the ring cannot have. -/
def execSqTailDoorbell (port q value : Nat) (s : State) : Host.Outcome State Fault Refusal :=
  next (if s.ideBlocked port then s
    else if !s.doorbellOk port q then s.deny port
    else if 2 ^ s.get (qSqLog2 q) ≤ value % 65536 then s.queueError q 0 0
    else s.put (qSqTail q) (value % 65536))

/-- CQ_HEAD_DOORBELL (R391, R404): the records up to the new head are consumed. -/
def execCqHeadDoorbell (port q value : Nat) (s : State) : Host.Outcome State Fault Refusal :=
  let v := value % 65536
  let size := 2 ^ s.get (qCqLog2 q)
  let head := s.get (qCqHead q)
  let tail := s.get (qCqTail q)
  next (if s.ideBlocked port then s
    else if !s.doorbellOk port q then s.deny port
    else if v < size ∧ (v + size - head) % size ≤ (tail + size - head) % size then
      let x := s.io.queue q
      let x := { x with records := x.records.filter (fun r => decide ((v + size - head) % size ≤ (r.1 + size - head) % size)) }
      { s with io := (s.io.put (qCqHead q) v).setQueue q x }
    else s.raise { code := 0x0F05, tenant := queueTenant q, subject := port, detail := [q] })

/-- A write to a queue's control register (R388, R390, R454): EN set after its checks, or cleared. -/
def State.writeQCtrl (s : State) (w : RegWrite) (q : Nat) : State :=
  let off := queueBase q + 0x18
  s.fromPort w off (fun s =>
    let v := blend (s.reg off) (writeBits w) (writeMask w)
    let en := fieldGet v 0 1
    let irq := fieldGet v 1 1
    let was := s.get (qEn q)
    if en = 1 ∧ was = 0 then
      let baseOk := s.get (qSqBase q) % 4096 = 0 && s.get (qCqBase q) % 4096 = 0
      let logOk (x : Nat) : Bool := decide (4 ≤ x) && decide (x ≤ 16)
      let owner := match queueTenant q with
        | some t => s.bound w.port t && s.portAllowed t w.port
        | none => decide (q - 4096 = w.port) && s.portMgmt w.port && decide (s.get Fld.BU_STATE_STATE = 6 ∨ s.get Fld.BU_STATE_STATE = 7)
      if baseOk && logOk (s.get (qSqLog2 q)) && logOk (s.get (qCqLog2 q)) && s.get (qIdle q) = 1 && owner then
        let io := s.io
        let io := io.setReg (queueBase q + 0x20) 0
        let io := io.setReg (queueBase q + 0x48) 0
        let io := ((((((io.put (qEn q) 1).put (qIrqEn q) irq).put (qPhase q) 1).put (qError q) 0).put (qIdle q) 0).put (qPort q) w.port)
        { s with io := io.setQueue q { session := (io.queue q).session + 1 } }
      else s
    else
      let s := s.put (qIrqEn q) irq
      if en = 0 ∧ was = 1 then { s with io := s.io.stopQueue q } else s)

/-- Q_CTRL_WRITE (R388, R390). -/
def execQCtrlWrite (w : RegWrite) (q : Nat) (s : State) : Host.Outcome State Fault Refusal :=
  next (if q < 4100 then s.writeQCtrl w q else s)

/-- QUEUE_IDLE (R390): no fetched command of a disabled queue remains without its first record. -/
def execQueueIdle (q : Nat) (s : State) : Host.Outcome State Fault Refusal :=
  next (if s.get (qEn q) = 0 && (s.io.queue q).inProgress.isEmpty then s.put (qIdle q) 1 else s)

/-- COMMAND_FETCH (R392, R393): the command at the next queue's SQ_HEAD, as the bytes that host memory holds there, or a fetch
that fails on the bus (R394). -/
def execCommandFetch (port : Nat) (block : Option (List Byte)) (s : State) : Host.Outcome State Fault Refusal :=
  next (if !s.io.portUp port || s.io.fatal || s.ideBlocked port then s
    else match s.io.nextQueue port with
      | none => s
      | some q =>
        let s := { s with io := { s.io with turn := sparsePut 0 port (q + 1) s.io.turn } }
        match block with
        | none => s.queueError q 1 0
        | some b => s.fetch q b)

/-- MSIX_COALESCE_EXPIRY (R405): COAL_US after the first record not signalled. -/
def execMsixCoalesceExpiry (q : Nat) (s : State) : Host.Outcome State Fault Refusal :=
  let x := s.io.queue q
  next (if s.get (qIrqEn q) = 1 && x.unsignalled ≠ 0 && x.firstUnsignalled + 1000 * s.get (qCoalUs q) ≤ s.now then
      { s with io := (s.io.emit (.msix (s.io.queuePort q) (s.get (qVector q)))).setQueue q { x with unsignalled := 0 } }
    else s)

/-! ### Binding and port events (R386, R387, R411 to R414) -/

/-- A write to a word of GC_PORT_BIND (R387). -/
def State.writePortBind (s : State) (w : RegWrite) (n word : Nat) : State :=
  let off := Reg.GC_PORT_BIND n word
  s.fromPort w off (fun s =>
    let tdi := s.get (Fld.GC_PORT_STATE_TDI n)
    if tdi = 1 ∨ tdi = 2 then s.raise { code := 0x0F06, subject := n }
    else
      let s := s.store w off
      let gone (t : Nat) : Bool := decide (t / 64 = word) && !s.bound n t
      let qs := (s.io.enabledQueues n).filter (fun q => match queueTenant q with | some t => gone t | none => false)
      let rs := (s.io.portRings n).filter (fun r => decide (4 ≤ r) && gone (r - 4))
      { s with io := rs.foldl (fun io r => io.stopRing r) (qs.foldl (fun io q => io.stopQueue q) s.io) })

/-- GC_PORT_BIND_WRITE (R386, R387). -/
def execGcPortBindWrite (w : RegWrite) (n word : Nat) (s : State) : Host.Outcome State Fault Refusal :=
  next (if n < 4 ∧ word < 4 then s.writePortBind w n word else s)

/-- HOST_LINK_UP (R411). -/
def execHostLinkUp (n width rate : Nat) (s : State) : Host.Outcome State Fault Refusal :=
  next (if 4 ≤ n || s.io.fatal || decide (2 ≤ s.get (Fld.GC_PORT_STATE_LINK n)) || (s.get Fld.CK_MON_STATUS_FAILED).testBit 0 || (s.get Fld.CK_MON_STATUS_FALLBACK).testBit 0 ||
      s.units.hostLost.testBit n || !s.on (Fld.CK_GATE_RUN_EN (17 + n)) || s.get Fld.BU_STATE_STATE = 0 ||
      (s.get Fld.BU_STATE_STATE = 8 && s.get Fld.BU_STRAP_PORT ≠ n) then s
    else
      let s := ((s.put (Fld.GC_PORT_STATE_LINK n) 2).put (Fld.GC_PORT_STATE_WIDTH n) width).put (Fld.GC_PORT_STATE_RATE n) rate
      s.raise { code := 0x0F01, subject := n })

/-- Steps 1 to 4 of R412 with the binding kept, and EV_HQ_LINK_DOWN (R413). -/
def State.portReset (s : State) (n link : Nat) : State :=
  ((s.detachPort n).put (Fld.GC_PORT_STATE_LINK n) link).raise { code := 0x0F02, subject := n }

/-- HOST_LINK_LOSS (R413): a link loss, PERST_N or hot reset; the port trains again. -/
def execHostLinkLoss (n : Nat) (s : State) : Host.Outcome State Fault Refusal :=
  next (if 4 ≤ n || s.get (Fld.GC_PORT_STATE_LINK n) = 0 then s else s.portReset n 1)

/-- FUNCTION_LEVEL_RESET (R413): the same with the link kept up. -/
def execFunctionLevelReset (n : Nat) (s : State) : Host.Outcome State Fault Refusal :=
  next (if 4 ≤ n || !s.io.portUp n then s else s.portReset n 2)

/-- D3HOT_ENTRY (R413): steps 1 and 2 of R412. -/
def execD3hotEntry (n : Nat) (s : State) : Host.Outcome State Fault Refusal :=
  next (if 4 ≤ n || !s.io.portUp n then s else { s with io := s.io.detachCommands n }.put (Fld.GC_PORT_STATE_LINK n) 3)

/-- D0_RETURN (R413): as a function level reset. -/
def execD0Return (n : Nat) (s : State) : Host.Outcome State Fault Refusal :=
  next (if 4 ≤ n || s.get (Fld.GC_PORT_STATE_LINK n) ≠ 3 then s else s.portReset n 2)

/-- FATAL_EVENT (R414, R601): FATAL_N asserted and the first code latched. -/
def execFatalEvent (code : Nat) (s : State) : Host.Outcome State Fault Refusal :=
  next (if eventClass code = some .fatal then s.raise { code := code } else s)

/-- HOST_COMPLETION_TIMEOUT (R382, R394, R400): a request to host memory that is not answered counts as failed on the bus. -/
def execHostCompletionTimeout (r : HostRequest) (s : State) : Host.Outcome State Fault Refusal :=
  next (match r with
    | .fetch q => if s.get (qEn q) = 1 then s.queueError q 1 0 else s
    | .record q => if s.get (qEn q) = 1 then s.queueError q 2 0 else s
    | .data c =>
      match c.issuer with
      | .queue q =>
        if (s.io.queue q).inProgress.contains (coreOf c) || s.isDetached c then (s.busFault c c.addrA.toNat).complete c CS.fault else s
      | _ => s)

end Sys2Proof.Machine
end

