-- ==== Sys2Proof/Machine/Memory.lean ====
section
/-! DEFINITION. The commands of the memory tiers: patrol scrub, sparing and evacuation of channels, the Shed ports, compaction,
prefetch, and the placing of the device's own structures (R116 to R149, R510, R632). -/

namespace Sys2Proof.Machine

/-! ### Long operations (R147) -/

/-- The physical channels of Hive `h` that a patrol pass reads (R128): in use, copying out, and the spare. -/
def State.patrolled (s : State) (h : Nat) : List Nat :=
  if s.hiveAbsent h then [] else (List.range 17).filter (fun p => s.get (Fld.HB_CH_STATE h p) ≤ 2)

/-- MEM_SCRUB (R147): one patrol pass of a Hive, or of all. -/
def execMemScrub (c : Cmd) (s : State) : Host.Outcome State Fault Refusal :=
  next (s.runCmd c .tenant false (fun s =>
    let h := opByte c 32
    if (16 ≤ h ∧ h ≠ 0xFF) || !opZero c 33 63 then s.refuse c CS.badCommand
    else
      let hives := if h = 0xFF then List.range 16 else [h]
      let keys := hives.flatMap (fun g => (s.patrolled g).map (17 * g + ·))
      if keys.isEmpty then s.refuse c CS.absentUnit
      else s.beginOp c 0x30 keys false (fun _ s =>
        { s with t1 := { s.t1 with scrubAt := keys.foldl (fun m k => sparseErase k m) s.t1.scrubAt } })))

/-- The full bands of port `p` with superseded data, the fewest valid bytes first (R141). -/
def State.staleBands (s : State) (p : Nat) : List (Nat × Nat × Nat) :=
  let x := s.shedPort p
  ((x.bands.filter (fun b => x.openBand ≠ some b.1 && decide (b.2.valid < b.2.written))).map (fun b => (b.2.valid, p, b.1)))

/-- The bands a compaction takes (R141): of the ports of `mask`, `n` of them or all. Each is named by port × 2^30 + band. -/
def State.compactionBands (s : State) (mask n : Nat) : List Nat :=
  let all := ((List.range 8).filter (fun p => mask.testBit p && s.portWritable p)).flatMap s.staleBands
  let sorted := all.mergeSort (fun a b => decide (a.1 ≤ b.1))
  (if n = 0 then sorted else sorted.take n).map (fun b => b.2.1 * 2 ^ 30 + b.2.2)

/-- The stalls with extents in the bands named. -/
def State.stallsIn (s : State) (bands : List Nat) : List Nat :=
  (s.stalls.filter (fun e => e.2.extents.any (fun x => bands.contains (x.1 / 2 ^ 59 % 8 * 2 ^ 30 + x.1 / 2 ^ 29 % 2 ^ 30)))).map (·.1)

/-- SHED_COMPACT (R141). -/
def execShedCompact (c : Cmd) (s : State) : Host.Outcome State Fault Refusal :=
  next (s.runCmd c .tenant false (fun s =>
    if !opZero c 35 63 then s.refuse c CS.badCommand
    else s.beginOp c 0x31 (s.compactionBands (opByte c 32) (opU16 c 33)) false (fun op s =>
      if (s.stallsIn (s.op op).args).isEmpty then s.endOp op .done CS.ok else s)))

/-- Whether port `p` compacts on its own (R141): its free bands below SH_GC_LOW percent of its bands. The bands held back (R139), withheld for the checkpoint slots
(R578), bound or stale are not free. -/
def State.gcLow (s : State) (p : Nat) : Bool :=
  let x := s.shedPort p
  decide (100 * (x.capacity - s.withheldBands p - x.bands.length - x.book 3 / 16) < s.get Fld.SH_GC_LOW_PERCENT * x.capacity)

/-- COMPACT_STALL_DONE (R141): one stall's consolidated journal is written, for an operation or for compaction on its own. Nothing
happens for a stall in a park, revive, migration or step, while a checkpoint is taken (R585), or while a warning of a power loss
stands (R142). -/
def execCompactStallDone (src : Option Nat) (i : Nat) (s : State) : Host.Outcome State Fault Refusal :=
  let x := s.stall i
  let still := [StallState.hot, .waiting, .parked, .orphaned].contains x.state && x.park.isNone && x.revive.isNone && x.mig.isNone
  let bands := match src with
    | some op => if (s.op op).live && (s.op op).opcode = 0x31 && (s.op op).st = .running then (s.op op).args else []
    | none => ((List.range 8).filter (fun p => s.portWritable p && s.gcLow p)).flatMap (fun p => s.compactionBands (2 ^ p) 0)
  next (if !still || s.freezing || s.on Fld.PW_STATUS_PARKING || !(s.stallsIn bands).contains i then s
    else
      let s := s.tend i
      let s := (s.consolidate i).getD s
      match src with
      | some op => if (s.stallsIn bands).isEmpty then s.endOp op .done CS.ok else s
      | none => s)

/-- MEM_SPARE (R130, R147): a named channel copied to its Hive's spare. With no spare the channel is evacuated (R131) and the
operation fails. While a warning of a power loss stands, the copy waits for the device to resume (R142). -/
def execMemSpare (c : Cmd) (s : State) : Host.Outcome State Fault Refusal :=
  next (s.runCmd c .tenant false (fun s =>
    let h := opByte c 32
    let ch := opByte c 33
    if 16 ≤ h || 16 ≤ ch || !opZero c 34 63 then s.refuse c CS.badCommand
    else if s.hiveAbsent h || (s.physicalChannel h ch).isNone then s.refuse c CS.absentUnit
    else if (s.physicalChannel h ch).any (fun p => s.get (Fld.HB_CH_STATE h p) = 2) then s.refuse c CS.notReady
    else s.beginOp c 0x32 [h, ch] false (fun op s =>
      if s.on Fld.PW_STATUS_PARKING then s
      else match s.startSparing h ch with
      | some s => s
      | none => (s.loseChannel h ch true).endOp op .failed CS.noResource)))

/-! ### Patrol scrub and channels (R128 to R131) -/

/-- The logical channel that a physical channel serves. -/
def State.servesChannel (s : State) (h p : Nat) : Option Nat :=
  if s.get (Fld.HB_CH_STATE h p) ≤ 2 ∧ s.get (Fld.HB_CH_LOGICAL h p) < 16 then some (s.get (Fld.HB_CH_LOGICAL h p)) else none

/-- One block of a channel decoded without its tag (R120, R128): corrected, or counted and poisoned. -/
def State.scrubBlock (s : State) (h p k : Nat) (bad : Option (Nat × Nat)) : State :=
  let count (s : State) (wrong : Nat) : State :=
    if wrong = 0 then s else if wrong ≤ 2 then s.bump (Fld.HB_CH_CORR h p) 1 else s.bump (Fld.HB_CH_UNCORR h p) 1
  match s.servesChannel h p with
  | none => count s (bad.getD (0, 0)).1
  | some c =>
    let blk := (h * 2 ^ 36 + c * channelBytes) / 64 + k
    let e := bad.getD (sparseGet (0, 0) s.t1.errors blk)
    let s := { s with t1 := { s.t1 with errors := sparsePut (0, 0) blk e s.t1.errors } }
    let s := count s e.1
    if 2 < e.1 then s.addPoison blk
    else { s with t1 := { s.t1 with errors := sparsePut (0, 0) blk (0, e.2) s.t1.errors } }

/-- The starts of R129 that a channel's counts give. -/
def State.checkChannel (s : State) (h p : Nat) : State :=
  match s.servesChannel h p with
  | none => s
  | some c =>
    if s.get Fld.HB_SPARE_THRESH_CORR < s.get (Fld.HB_CH_CORR h p) ∨ s.get Fld.HB_SPARE_THRESH_UNCORR < s.get (Fld.HB_CH_UNCORR h p) then
      s.autoSpare h c true
    else s

/-- PATROL_SCRUB_BLOCK (R128): the next block of physical channel `p` of Hive `h`, in the periodic pass or for a MEM_SCRUB in slot
`src`. `bad` gives the wrong bytes and wrong tag bits found in it, where they are more than the block is known to have. -/
def execPatrolScrubBlock (src : Option Nat) (h p : Nat) (bad : Option (Nat × Nat)) (s : State) : Host.Outcome State Fault Refusal :=
  let key := 17 * h + p
  let due := match src with
    | some op => (s.op op).live && (s.op op).opcode = 0x30 && decide ((s.op op).st = .running) && (s.op op).args.contains key
    | none => s.on Fld.HB_CTRL_SCRUB_EN
  next (if !due || 16 ≤ h || !(s.patrolled h).contains p || s.on Fld.PW_STATUS_PARKING || s.get (Fld.CK_GATE_STATE h) ≠ 0 then s
    else
      let k := sparseGet 0 s.t1.scrubAt key
      let s := if k = 0 then (s.put (Fld.HB_CH_CORR h p) 0).put (Fld.HB_CH_UNCORR h p) 0 else s
      let s := s.scrubBlock h p k bad
      let last := decide (channelBytes / 64 ≤ k + 1)
      let s := { s with t1 := { s.t1 with scrubAt := sparsePut 0 key (if last then 0 else k + 1) s.t1.scrubAt } }
      let s := (s.checkChannel h p).checkPoison
      match src with
      | some op =>
        let left := (s.op op).args.filter (fun a => !(last && decide (a = key)))
        let s := s.setOp op { s.op op with args := left }
        if left.isEmpty then s.endOp op .done CS.ok else s
      | none => s)

/-- CHANNEL_COPY_DONE (R130 step 3): the copier of Hive `h` has reached the end of the channel; blocks with at most two wrong bytes
are corrected on the way. The channel is bound at the next composition point. -/
def execChannelCopyDone (h : Nat) (s : State) : Host.Outcome State Fault Refusal :=
  next (if s.on Fld.PW_STATUS_PARKING || s.freezing then s
    else match firstBelow (fun p => s.get (Fld.HB_CH_STATE h p) = 2) 17 with
    | none => s
    | some p =>
      let c := s.get (Fld.HB_CH_LOGICAL h p)
      if s.units.copied.contains (16 * h + c) then s
      else
        let inIt (e : Nat × (Nat × Nat)) : Bool := inChannel h c (64 * e.1)
        let s := (s.t1.errors.filter (fun e => inIt e && decide (2 < e.2.1))).foldl (fun s e => s.addPoison e.1) s
        let fixed := s.t1.errors.foldl (fun m e => if inIt e && decide (e.2.1 ≤ 2) then sparsePut (0, 0) e.1 (0, e.2.2) m else m) s.t1.errors
        { s with t1 := { s.t1 with errors := fixed }, units := { s.units with copied := s.units.copied ++ [16 * h + c] } })

/-- EVAC_TIME_EXPIRY (R131). -/
def execEvacTimeExpiry (h ch : Nat) (s : State) : Host.Outcome State Fault Refusal :=
  next (if s.units.evacuating.any (fun e => decide (e.1 = 16 * h + ch) && decide (e.2 ≤ s.now)) then s.retireChannel h ch else s)

/-- DRAM_CHANNEL_TRAIN_FAIL (R129): physical channel `p` of Hive `h` fails link training in service; a FREE spare that fails is
retired (R569). -/
def execDramChannelTrainFail (h p : Nat) (readable : Bool) (s : State) : Host.Outcome State Fault Refusal :=
  next (if 16 ≤ h || s.hiveAbsent h then s
    else match s.servesChannel h p with
    | some c => s.autoSpare h c readable
    | none =>
      if s.get (Fld.HB_CH_STATE h p) = 1 then
        (s.put (Fld.HB_CH_STATE h p) 4).spareFailed [svStack h, svSpareChannel h] (repairEntry 1 h p 8)
      else s)

/-! ### Shed ports (R132 to R140, R510) -/

/-- SHED_PORT_TRAIN (R510): training starts on the ports of PORT_EN once SH_CTRL.COMMIT and domain 545 are set. -/
def execShedPortTrain (s : State) : Host.Outcome State Fault Refusal :=
  next (if s.on Fld.SH_CTRL_COMMIT && s.on (Fld.SEC_DOM_INSTALLED 545) then
      (List.range 8).foldl (fun s p =>
        if (s.get Fld.SH_CTRL_PORT_EN).testBit p then s.setShedPort p { s.shedPort p with training := true } else s) s
    else s)

/-- Whether a part is within the limits of R132. -/
def partFits (f : ShedFound) : Bool :=
  f.ok && f.lpddr4 && decide (f.pageBytes = 16384 ∧ 2048 ≤ f.spareBytes ∧ f.retryLevels ≤ 16 ∧ f.channelBytes ≤ 2 ^ 42) && decide (1 ≤ f.targets ∧ f.targets ≤ 4 ∧ 1 ≤ f.luns ∧ f.luns ≤ 8) && [1, 2, 4].contains f.planes &&
    decide (1 ≤ f.pages ∧ f.pages < 65536 ∧ f.trUs < 65536)

/-- The extents that a port's journal records lie in, each counted once. -/
def foundExtents (p : Nat) (journal : List (Nat × JRecord)) : List (Nat × Nat) :=
  (journal.filter (fun r => r.2.extent / 2 ^ 59 % 8 = p)).foldl (fun l r =>
    if l.any (fun e => e.1 = r.2.extent) then l else l ++ [(r.2.extent, extentLength r.2.payload)]) []

/-- A found extent's band bound, with its bytes written and valid. -/
def adoptExtent (x : ShedPort) (e : Nat × Nat) : ShedPort :=
  let b := e.1 / 2 ^ 29 % 2 ^ 30
  let x := if x.bands.any (fun k => k.1 = b) then x else (x.bindBand b).getD x
  let band := sparseGet ({} : Band) x.bands b
  { x with bands := sparseInsert b { band with written := max band.written (e.1 % 2 ^ 29 + e.2), valid := band.valid + e.2 } x.bands }

/-- The translation layer that training reads back (R139). -/
def trainedPort (p : Nat) (f : ShedFound) : ShedPort :=
  let good := f.blocks.map (fun b => ({ channel := b.1, state := .free, erases := b.2, reads := 0 } : EraseBlock))
  let bad := f.badBlocks.map (fun b => ({ channel := b.1, state := .bad, erases := b.2, reads := 0 } : EraseBlock))
  let x : ShedPort := { training := true, trained := true, blocks := good ++ bad, goodAtTrain := good.length,
                        spareGood := heldBack good.length, journal := f.journal, closed := (f.journal.map (·.1)).foldl max 0 }
  (foundExtents p f.journal).foldl adoptExtent x

/-- A checkpoint slot as training finds it (R578, R579). -/
def State.foundSlot (s : State) (e : Nat × CpImage) : State :=
  let s := { s with cpSlots := sparseInsert e.1 e.2 s.cpSlots }
  if e.2.good then
    ((s.put (Fld.CP_SLOT_STATE_VALID e.1) 1).put (Fld.CP_SLOT_STATE_SEQ e.1) e.2.seq).put (Fld.CP_SLOT_STEP_STEP e.1) e.2.step
  else ((s.put (Fld.CP_SLOT_STATE_VALID e.1) 0).put (Fld.CP_SLOT_STATE_SEQ e.1) 0).put (Fld.CP_SLOT_STEP_STEP e.1) 0

/-- SHED_PORT_TRAIN_DONE (R132, R139, R510): the port enters service with what it read back, or is out of it. -/
def execShedPortTrainDone (p : Nat) (found : ShedFound) (s : State) : Host.Outcome State Fault Refusal :=
  let x := s.shedPort p
  next (if 8 ≤ p || !x.training || x.trained then s
    else if !partFits found then (s.setShedPort p { x with trained := true }).raise { code := 0x0506, subject := p }
    else
      let s := s.setShedPort p (trainedPort p found)
      let s := (s.put (Fld.SH_PORT_INFO_PAGES p) found.pages).put (Fld.SH_PORT_INFO_TR_US p) found.trUs
      let s := ((s.put (Fld.SH_PORT_INFO_TARGETS p) found.targets).put (Fld.SH_PORT_INFO_LUNS p) found.luns).put (Fld.SH_PORT_INFO_PLANES p) found.planes
      let s := (s.put (Fld.SH_PORT_INFO_IN_SERVICE p) 1).recomputeDirtyMax
      let s := s.setShedPort p { s.shedPort p with scrubDue := s.now + s.get Fld.SH_SCRUB_PERIOD_NS }
      ((found.slots.filter (fun e => e.1 < 2)).foldl (fun s e => s.foundSlot e) s).survey [svShed p])

/-- SHED_PORT_DOWN (R132): a trained port stops answering. -/
def execShedPortDown (p : Nat) (s : State) : Host.Outcome State Fault Refusal :=
  next (if p < 8 && s.portReadable p then
      let s := ((s.put (Fld.SH_PORT_INFO_IN_SERVICE p) 0).put (Fld.SH_PORT_INFO_READ_ONLY p) 0).recomputeDirtyMax
      let s := (s.survey [svShed p]).raise { code := 0x0506, subject := p }
      (s.stalls.map (·.1)).foldl (fun s i => s.rewriteLost i) s
    else s)

/-- The blocks of a port in a state, as places in its list, by erase count: the first among those where `better a b` puts a before
b. -/
def ShedPort.best (x : ShedPort) (ok : EraseBlock → Bool) (better : Nat → Nat → Bool) : Option Nat :=
  (List.range x.blocks.length).foldl (fun best i =>
    match x.blocks[i]? with
    | none => best
    | some b =>
      if !ok b then best
      else match best.bind (fun j => x.blocks[j]?) with
        | none => some i
        | some c => if better b.erases c.erases then some i else best) none

/-- SHED_WEAR_MOVE (R137): the valid block with the lowest erase count moves onto the free block of its channel with the highest. -/
def execShedWearMove (p : Nat) (s : State) : Host.Outcome State Fault Refusal :=
  let x := s.shedPort p
  let counts := (x.blocks.filter (fun b => b.state ≠ .bad)).map (·.erases)
  let spread := counts.foldl max 0 - counts.foldl min (counts.headD 0)
  next (if !s.portWritable p || s.on Fld.PW_STATUS_PARKING || spread ≤ s.get Fld.SH_WEAR_SPREAD_ERASES then s
    else match x.best (fun b => b.state = .valid) (fun a b => decide (a < b)) with
    | none => s
    | some k =>
      let ch := ((x.blocks[k]?).map (·.channel)).getD 0
      match x.best (fun b => b.state = .free && b.channel = ch) (fun a b => decide (b < a)) with
      | none => s
      | some j => (s.setShedPort p (x.moveBlock k j .stale)).raise { code := 0x0501, subject := p, object := (x.blockAddress p k).getD 0 })

/-- A valid block moved onto a fresh one of its channel for read disturb (R138). -/
def State.disturbMove (s : State) (p k : Nat) : State :=
  let x := s.shedPort p
  match x.blocks[k]? with
  | none => s
  | some b =>
    let y := x.withFresh b.channel
    match freshBlock y.blocks b.channel with
    | none => s
    | some j =>
      if b.state = .valid then (s.setShedPort p (y.moveBlock k j .stale)).raise { code := 0x0501, subject := p, object := (x.blockAddress p k).getD 0 } else s

/-- SHED_READ_DISTURB_MOVE (R138): `reads` more reads of block `k`, or one that corrected more than 16 blocks of a page by more than a
byte (`corrected`); the block moves when its count reaches SH_RD_LIMIT, or on such a read. -/
def execShedReadDisturbMove (p k reads : Nat) (corrected : Bool) (s : State) : Host.Outcome State Fault Refusal :=
  next (if !s.portReadable p || s.on Fld.PW_STATUS_PARKING then s
    else
      let x := s.shedPort p
      let s := s.setShedPort p { x with blocks := x.blocks.modify k (fun b => { b with reads := b.reads + reads }) }
      match (s.shedPort p).blocks[k]? with
      | none => s
      | some b => if (decide (s.get Fld.SH_RD_LIMIT_READS ≤ b.reads) || corrected) && s.portWritable p then s.disturbMove p k else s)

/-- SHED_SCRUB (R138): every valid block read once per SH_SCRUB_PERIOD; those that meet the test of a read-disturb move are moved. -/
def execShedScrub (p : Nat) (failing : List Nat) (s : State) : Host.Outcome State Fault Refusal :=
  let x := s.shedPort p
  next (if !s.portWritable p || s.on Fld.PW_STATUS_PARKING || decide (s.now < x.scrubDue) then s
    else
      let s := s.setShedPort p { x with
        blocks := x.blocks.map (fun b => if b.state = .valid then { b with reads := b.reads + 1 } else b), scrubDue := s.now + s.get Fld.SH_SCRUB_PERIOD_NS }
      let limit := s.get Fld.SH_RD_LIMIT_READS
      ((List.range x.blocks.length).filter (fun k => failing.contains k || ((s.shedPort p).blocks[k]?).any (fun b => decide (limit ≤ b.reads)))).foldl
        (fun s k => s.disturbMove p k) s)

/-! ### Prefetch (R143 to R145) -/

/-- The place of an entry's copies (R143, R144): its own in each Hive, or a buffer from the page book. -/
def State.pfPlace (s : State) (k : Nat) (e : PfEntry) : Option (List (Nat × Nat) × State) :=
  (s.pfHives e).foldl (fun r h =>
    r.bind (fun q =>
      if e.tier1 ≠ 2 ^ 64 - 1 then some (q.1 ++ [(h, h * 2 ^ 36 + e.tier1)], q.2)
      else (q.2.alloc h e.granules 1 (.prefetch k)).map (fun a => (q.1 ++ [(h, 4096 * a.1)], a.2)))) (some ([], s))

/-- Granules of Hive `h` that promoted objects hold. -/
def State.poolUse (s : State) (h : Nat) : Nat :=
  (s.prefetch.objects.map (fun o => match s.pfEntry o.1 with
    | some e => if e.cls = 2 && o.2.copies.any (fun c => c.1 = h) then e.granules else 0
    | none => 0)).foldl (· + ·) 0

/-- The promoted object unused for the most rounds, the lower index on a tie (R145). -/
def State.poolVictim (s : State) : Option Nat :=
  (s.prefetch.objects.filter (fun o => !o.2.copies.isEmpty && !o.2.loading && (s.pfEntry o.1).any (fun e => e.cls = 2))).foldl (fun best o =>
    match best with
    | none => some o.1
    | some b => if o.2.lastUsed < (s.resident b).lastUsed then some o.1 else best) none

/-- Promoted objects dropped until the pool has room for an entry (R145), at most `n` of them. -/
def State.makePoolRoom (s : State) (e : PfEntry) : (n : Nat) → State
  | 0 => s
  | n + 1 =>
    if (List.range 16).all (fun h => !e.hives.testBit h || decide (s.poolUse h + e.granules ≤ s.get Fld.PF_POOL_GRANULES)) then s
    else match s.poolVictim with
      | some v => (s.pfDrop v).makePoolRoom e n
      | none => s

/-- The read of an object started, unless it is in Tier 1 or on its way; nothing is read where it finds no room. -/
def State.pfLoad (s : State) (k : Nat) : State :=
  if (s.resident k).loading || s.pfReady k then s
  else match s.pfEntry k with
  | none => s
  | some e =>
    let s := s.pfDrop k
    let s := if e.cls = 2 then s.makePoolRoom e s.prefetch.objects.length else s
    let room := e.cls ≠ 2 || (List.range 16).all (fun h => !e.hives.testBit h || decide (s.poolUse h + e.granules ≤ s.get Fld.PF_POOL_GRANULES))
    if 2 < e.cls || !room then s
    else match s.pfPlace k e with
    | some (copies, s) => s.pfRead k e copies
    | none => s

/-- The objects of the table, with their entries. -/
def State.pfObjects (s : State) : List (Nat × PfEntry) :=
  (List.range (s.get Fld.PF_OBJ_COUNT_COUNT)).filterMap (fun k => (s.pfEntry k).map (fun e => (k, e)))

/-- The object table read (R120): what the reads of its blocks do besides delivering. -/
def State.pfTableRead (s : State) : State := (s.afterRead 544 (s.get Fld.PF_OBJ_BASE_BASE) (32 * s.get Fld.PF_OBJ_COUNT_COUNT)).checkPoison

/-- A write to PF_CTRL (R144): setting EN reads the pinned objects. -/
def State.writePfCtrl (s : State) (w : RegWrite) : State :=
  s.fromPort w Reg.PF_CTRL (fun s =>
    let before := s.on Fld.PF_CTRL_EN
    let s := (s.store w Reg.PF_CTRL).enGate Fld.PF_CTRL_EN
    if before || !s.on Fld.PF_CTRL_EN || s.on Fld.PW_STATUS_PARKING then s
    else (s.pfObjects.filter (fun o => o.2.cls = 0)).foldl (fun s o => s.pfLoad o.1) s.pfTableRead)

/-- PF_ENABLE (R144). -/
def execPfEnable (w : RegWrite) (s : State) : Host.Outcome State Fault Refusal := next (s.writePfCtrl w)

/-- PF_COMMIT (R148): PF_OBJ_BASE and PF_OBJ_COUNT are locked. -/
def execPfCommit (w : RegWrite) (s : State) : Host.Outcome State Fault Refusal := next (s.writePfCtrl w)

/-- A streamed object's buffer needed by tenant `t`'s round, and read. -/
def State.pfStream (s : State) (t k : Nat) : State :=
  let s := s.pfLoad k
  let r := s.resident k
  s.setResident k { r with users := if r.users.contains t then r.users else t :: r.users }

/-- A streamed object's buffer needed no longer by tenant `t`'s round (R144): released once no round needs it. -/
def State.pfUnuse (s : State) (t k : Nat) : State :=
  let r := s.resident k
  if !r.users.contains t then s
  else
    let s := s.setResident k { r with users := r.users.filter (· ≠ t) }
    if (s.resident k).users.isEmpty then s.pfDrop k else s

/-- A promotable object selected (R145): read, which counts in PF_MISS, where it is not in Tier 1 nor on its way; each other use counts
in PF_HIT. -/
def State.pfSelect (s : State) (k : Nat) : State :=
  let there := (s.resident k).loading || s.pfReady k
  let s := s.pfLoad k
  let s := if there then s.bump Fld.PF_HIT_COUNT 1 else if (s.resident k).loading then s.bump Fld.PF_MISS_COUNT 1 else s
  let r := s.resident k
  s.setResident k { r with lastUsed := s.prefetch.round, uses := if r.uses.head? = some s.prefetch.round then r.uses else s.prefetch.round :: r.uses }

/-- PF_LAYER_START (R144, R145): layer `n` of a tenant's round starts; `selected` are the experts its router selects. Buffers of the round's
earlier layers are released; the layer waits for its objects that are not in Tier 1. -/
def execPfLayerStart (n : RoundLayer) (selected : List Nat) (s : State) : Host.Outcome State Fault Refusal :=
  next (if !s.on Fld.PF_CTRL_EN || s.on Fld.PW_STATUS_PARKING then s
    else
      let s := s.pfTableRead
      let objs := s.pfObjects.filter (fun o => o.2.model = s.get (Fld.TN_CTRL_MODEL n.tenant))
      let s := (objs.filter (fun o => o.2.cls = 1 && decide (o.2.layer < n.layer))).foldl (fun s o => s.pfUnuse n.tenant o.1) s
      let s := (objs.filter (fun o => o.2.cls = 1 && decide (o.2.layer = n.layer ∨ o.2.layer = n.layer + s.get Fld.PF_DISTANCE_LAYERS))).foldl (fun s o => s.pfStream n.tenant o.1) s
      let s := (objs.filter (fun o => o.2.cls = 0 && decide (o.2.layer = n.layer))).foldl (fun s o => s.pfLoad o.1) s
      let chosen := objs.filter (fun o => o.2.cls = 2 && decide (o.2.layer = n.layer) && selected.contains o.2.expert)
      let s := chosen.foldl (fun s o => s.pfSelect o.1) s
      let needed := ((objs.filter (fun o => decide (o.2.cls ≤ 1 ∧ o.2.layer = n.layer))) ++ chosen).map (·.1)
      let late := needed.filter (fun k => !s.pfReady k)
      if late.isEmpty then s else { s with prefetch := { s.prefetch with waits := s.prefetch.waits ++ [⟨n.tenant, n.layer, s.now, late⟩] } })

/-- An object's arrival ends the wait of every layer that waited for it last (R144): PF_WAIT_NS, and EV_PF_WAIT with the address of the copy. -/
def State.pfArrived (s : State) (k : Nat) : State :=
  let at_ := ((s.resident k).copies.head?.map (·.2)).getD 0
  let waits := s.prefetch.waits.map (fun w => { w with objects := w.objects.filter (· ≠ k) })
  let s := { s with prefetch := { s.prefetch with waits := waits.filter (fun w => !w.objects.isEmpty) } }
  (waits.filter (fun w => w.objects.isEmpty)).foldl (fun s w =>
    (s.bump Fld.PF_WAIT_NS_NS (s.now - w.since)).raise { code := 0x0507, subject := 256 * hiveOf at_ + channelOf at_, object := at_ }) s

/-- PF_OBJECT_ARRIVED (R144): an object's bytes, by Hive, are read from the Shed ports that hold its image; the layers that waited for it last go on. -/
def execPfObjectArrived (k : Nat) (stripes : List (Nat × List Byte)) (s : State) : Host.Outcome State Fault Refusal :=
  let r := s.resident k
  next (match s.pfEntry k with
    | none => s
    | some e =>
      if !r.loading || s.on Fld.PW_STATUS_PARKING || !(List.range 8).all (fun p => !e.ports.testBit p || s.portReadable p) then s
      else
        let s := r.copies.foldl (fun s c => match stripes.find? (fun d => d.1 = c.1) with
          | some d => s.writeT1 (512 + e.model) c.2 (d.2.take e.bytes)
          | none => s) s
        (s.setResident k { r with loading := false }).pfArrived k)

/-- The end of a round of tenant `t` for the prefetch unit (R144, R145): its streamed buffers are released, and a promoted object used too seldom is dropped;
objects still waited for are tried again. -/
def State.pfRoundEnd (s : State) (t : Nat) : State :=
  let round := s.prefetch.round
  let window := s.get Fld.PF_PROMOTE_WINDOW
  let s := { s with prefetch := { s.prefetch with waits := s.prefetch.waits.filter (fun w => w.tenant ≠ t) } }
  let s := s.prefetch.objects.foldl (fun s o =>
    match s.pfEntry o.1 with
    | none => s
    | some e =>
      let uses := o.2.uses.filter (fun u => decide (round < u + window))
      let s := (s.setResident o.1 { s.resident o.1 with uses := uses }).pfUnuse t o.1
      if e.cls = 2 && decide (uses.length < s.get Fld.PF_PROMOTE_USES) then s.pfDrop o.1 else s) s
  let s := { s with prefetch := { s.prefetch with round := round + 1 } }
  (s.prefetch.waits.flatMap (·.objects)).foldl (fun s k => s.pfLoad k) s

/-! ### Placing the device's structures (R632) -/

/-- Whether `n` bytes from `addr` lie in one Hive that is not ABSENT and are free granules of its page book. -/
def State.placeable (s : State) (addr n : Nat) : Bool :=
  decide (n ≠ 0) && decide (addr / 2 ^ 40 = 0) && decide (offsetOf addr + n ≤ hiveBytes) && !s.hiveAbsent (hiveOf addr) &&
    s.t1.allFree (addr / 4096) ((addr + n - 1) / 4096 - addr / 4096 + 1) &&
    (List.range 16).all (fun c =>
      let lo := hiveOf addr * 2 ^ 36 + c * channelBytes
      (s.physicalChannel (hiveOf addr) c).isSome || decide (addr + n ≤ lo) || decide (lo + channelBytes ≤ addr))

/-- The owner of the ranges of a commit: the header pool, the third of STL_CTRL.COMMIT, is the stall engine's; the others are the device's (R632). -/
def rangeOwner (commit : RegField) (k : Nat) : Owner := if commit = Fld.STL_CTRL_COMMIT ∧ k = 2 then .headerPool else .device 544

/-- The ranges of a commit checked and counted (R632): the bit stays 1, or goes back to 0. R73 and R148 ask aligned bases; a base that is not aligned is stored and placed as it
stands (DESIGN CHOICE: the spec names no outcome). -/
def State.placeRanges (s : State) (commit : RegField) (ranges : List (Nat × Nat)) : State :=
  let owner := rangeOwner commit
  let apart (a b : Nat × Nat) : Bool := decide ((a.1 + a.2 - 1) / 4096 < b.1 / 4096) || decide ((b.1 + b.2 - 1) / 4096 < a.1 / 4096)
  let distinct := (ranges.zipIdx).all (fun a => (ranges.zipIdx).all (fun b => decide (b.2 ≤ a.2) || apart a.1 b.1))
  if ranges.all (fun r => s.placeable r.1 r.2) && distinct then
    { s with t1 := (ranges.zipIdx).foldl (fun t r => t.own (r.1.1 / 4096) ((r.1.1 + r.1.2 - 1) / 4096 - r.1.1 / 4096 + 1) (owner r.2)) s.t1 }
  else s.put commit 0

/-- A write that may set a commit bit: the ranges are checked when it goes from 0 to 1. -/
def State.commitWrite (s : State) (w : RegWrite) (commit : RegField) (ranges : State → List (Nat × Nat)) : State :=
  let before := s.on commit
  let s := s.store w commit.off
  if before || !s.on commit then s else s.placeRanges commit (ranges s)

/-- Whether the two copies of the directory lie in one Hive, which STL_DIR_BASE2 excludes. -/
def State.directoriesTogether (s : State) : Bool := hiveOf (s.get Fld.STL_DIR_BASE_BASE) = hiveOf (s.get Fld.STL_DIR_BASE2_BASE)

/-- A write to STL_CTRL: EN stays 0 while the two copies of the directory lie in one Hive. -/
def State.writeStlCtrl (s : State) (w : RegWrite) : State :=
  s.fromPort w Reg.STL_CTRL (fun s =>
    let before := s.on Fld.STL_CTRL_EN
    let s := (s.commitWrite w Fld.STL_CTRL_COMMIT (fun s =>
      [(s.get Fld.STL_DIR_BASE_BASE, 2 ^ 28), (s.get Fld.STL_DIR_BASE2_BASE, 2 ^ 28),
       (s.get Fld.STL_HDR_POOL_BASE, 4096 * s.get Fld.STL_HDR_SLOTS_SLOTS)])).enGate Fld.STL_CTRL_EN
    if !before && s.directoriesTogether then s.put Fld.STL_CTRL_EN 0 else s)

/-- STL_COMMIT (R632): the two copies of the directory and the header pool. -/
def execStlCommit (w : RegWrite) (s : State) : Host.Outcome State Fault Refusal := next (s.writeStlCtrl w)

/-- A write to SCH_CTX_CTRL. -/
def State.writeSchCtxCtrl (s : State) (w : RegWrite) : State :=
  s.fromPort w Reg.SCH_CTX_CTRL (fun s =>
    (s.commitWrite w Fld.SCH_CTX_CTRL_COMMIT (fun s =>
      [(s.get Fld.SCH_CTX_BASE_BASE, alignUp 4096 (256 * s.get Fld.SCH_CTX_SLOTS_SLOTS))])).enGate Fld.SCH_CTX_CTRL_EN)

/-- SCH_CTX_COMMIT (R632): the context table. -/
def execSchCtxCommit (w : RegWrite) (s : State) : Host.Outcome State Fault Refusal := next (s.writeSchCtxCtrl w)

/-- SH_COMMIT (R148, R510): PORT_EN is locked and training may start. -/
def execShCommit (w : RegWrite) (s : State) : Host.Outcome State Fault Refusal :=
  next (s.fromPort w Reg.SH_CTRL (fun s => s.store w Reg.SH_CTRL))

end Sys2Proof.Machine
end

