-- ==== Sys2Proof/Machine/Float.lean ====
section
/-! DEFINITION. Floating-point formats and operations, bit for bit (R305, R311, R312, R315 to R317): exact values, one rounding to
nearest with ties to even, and the correctly rounded exponential, logarithm, reciprocal and reciprocal square root. -/

namespace Sys2Proof.Machine

/-- An exact value: NaN, an infinity, or (−1)^neg × m × 2^e. -/
inductive FVal where
  | nan
  | inf (neg : Bool)
  | num (neg : Bool) (m : Nat) (e : Int)
deriving DecidableEq, Repr

/-- What a format does beyond its finite values (R312): IEEE infinities, E4M3's single NaN with saturation, or no special code. -/
inductive FKind where
  | ieee | e4m3 | finite
deriving DecidableEq, Repr

/-- A floating-point format (R305). -/
structure FFmt where
  ebits : Nat
  mbits : Nat
  bias : Nat
  kind : FKind
deriving DecidableEq, Repr

def fp32 : FFmt := ⟨8, 23, 127, .ieee⟩
def bf16 : FFmt := ⟨8, 7, 127, .ieee⟩
def fp16 : FFmt := ⟨5, 10, 15, .ieee⟩
def fp8e4m3 : FFmt := ⟨4, 3, 7, .e4m3⟩
def fp8e5m2 : FFmt := ⟨5, 2, 15, .ieee⟩
def fp6e2m3 : FFmt := ⟨2, 3, 1, .finite⟩
def fp6e3m2 : FFmt := ⟨3, 2, 3, .finite⟩
def fp4e2m1 : FFmt := ⟨2, 1, 1, .finite⟩

/-- The value a code has in a format. -/
def FFmt.decode (f : FFmt) (c : Nat) : FVal :=
  let man := c % 2 ^ f.mbits
  let ex := c / 2 ^ f.mbits % 2 ^ f.ebits
  let neg := decide (c / 2 ^ (f.mbits + f.ebits) % 2 = 1)
  let top := decide (ex = 2 ^ f.ebits - 1)
  if f.kind = .ieee && top then (if man = 0 then .inf neg else .nan)
  else if f.kind = .e4m3 && top && decide (man = 2 ^ f.mbits - 1) then .nan
  else if ex = 0 then .num neg man (1 - (f.bias : Int) - f.mbits)
  else .num neg (2 ^ f.mbits + man) ((ex : Int) - f.bias - f.mbits)

/-- `m / 2^k` rounded to nearest, ties to even. -/
def rneShift (m k : Nat) : Nat :=
  let q := m / 2 ^ k
  let r := m % 2 ^ k
  if 2 ^ k < 2 * r || (2 * r = 2 ^ k && q % 2 = 1) then q + 1 else q

/-- The canonical NaN of a format (R312). -/
def FFmt.nanCode (f : FFmt) : Nat :=
  match f.kind with
  | .ieee => (2 ^ f.ebits - 1) * 2 ^ f.mbits + 2 ^ (f.mbits - 1)
  | .e4m3 => 2 ^ (f.ebits + f.mbits) - 1
  | .finite => 0

/-- What a magnitude beyond the largest finite value becomes (R312). -/
def FFmt.overCode (f : FFmt) : Nat :=
  match f.kind with
  | .ieee => (2 ^ f.ebits - 1) * 2 ^ f.mbits
  | .e4m3 => 2 ^ (f.ebits + f.mbits) - 2
  | .finite => 2 ^ (f.ebits + f.mbits) - 1

/-- The code of an exact value in a format, rounded once (R311, R312). -/
def FFmt.encode (f : FFmt) : FVal → Nat
  | .nan => f.nanCode
  | .inf neg => f.overCode + (if neg then 2 ^ (f.ebits + f.mbits) else 0)
  | .num neg m e =>
    let sign := if neg then 2 ^ (f.ebits + f.mbits) else 0
    if m = 0 then sign
    else
      let emin : Int := 1 - (f.bias : Int) - f.mbits
      let t : Int := max (e + Nat.log2 m + 1 - (f.mbits + 1)) emin
      let mant := if e ≤ t then rneShift m (t - e).toNat else m * 2 ^ (e - t).toNat
      let (mant, t) := if mant = 2 ^ (f.mbits + 1) then (2 ^ f.mbits, t + 1) else (mant, t)
      let ex := if mant < 2 ^ f.mbits then 0 else (t + f.bias + f.mbits).toNat
      let code := ex * 2 ^ f.mbits + mant % 2 ^ f.mbits
      sign + min code f.overCode

/-! ### Exact operations -/

def FVal.neg : FVal → FVal
  | .nan => .nan
  | .inf n => .inf (!n)
  | .num n m e => .num (!n) m e

def FVal.isNaN : FVal → Bool | .nan => true | _ => false
def FVal.isInf : FVal → Bool | .inf _ => true | _ => false
def FVal.isZero : FVal → Bool | .num _ 0 _ => true | _ => false

/-- The signed mantissa at exponent `e'`, not above the value's own. -/
def signedAt (neg : Bool) (m : Nat) (e e' : Int) : Int :=
  let x : Int := (m * 2 ^ (e - e').toNat : Nat)
  if neg then -x else x

/-- Exact sum. An exact zero sum of opposite signs is +0 (RNE). -/
def FVal.add : FVal → FVal → FVal
  | .nan, _ => .nan
  | _, .nan => .nan
  | .inf a, .inf b => if a = b then .inf a else .nan
  | .inf a, _ => .inf a
  | _, .inf b => .inf b
  | .num a m e, .num b n g =>
    let t := min e g
    let x := signedAt a m e t + signedAt b n g t
    if x = 0 then .num (if m = 0 ∧ n = 0 then a && b else false) 0 t else .num (decide (x < 0)) x.natAbs t

/-- Exact product. -/
def FVal.mul : FVal → FVal → FVal
  | .nan, _ => .nan
  | _, .nan => .nan
  | .inf a, .inf b => .inf (a != b)
  | .inf a, .num b n _ => if n = 0 then .nan else .inf (a != b)
  | .num a m _, .inf b => if m = 0 then .nan else .inf (a != b)
  | .num a m e, .num b n g => .num (a != b) (m * n) (e + g)

/-- Quotient, exact but for a last bit that stands for all below it; 64 bits are kept above that. -/
def FVal.div : FVal → FVal → FVal
  | .nan, _ => .nan
  | _, .nan => .nan
  | .inf _, .inf _ => .nan
  | .inf a, .num b _ _ => .inf (a != b)
  | .num a _ _, .inf b => .num (a != b) 0 0
  | .num a m e, .num b n g =>
    if n = 0 then (if m = 0 then .nan else .inf (a != b))
    else
      let k := Nat.log2 n + 66
      let q := m * 2 ^ k / n
      let sticky := if m * 2 ^ k % n = 0 then 0 else 1
      .num (a != b) (2 * q + sticky) (e - g - k - 1)

/-- Order of exact values; a NaN is below nothing. +0 and −0 are equal. -/
def FVal.lt : FVal → FVal → Bool
  | .nan, _ => false
  | _, .nan => false
  | .inf a, .inf b => a && !b
  | .inf a, .num .. => a
  | .num .., .inf b => !b
  | .num a m e, .num b n g => let t := min e g; decide (signedAt a m e t < signedAt b n g t)

/-! ### FP32 operations (R315 to R317) -/

def f32 (c : Nat) : FVal := fp32.decode c
def toF32 (v : FVal) : Nat := fp32.encode v

def f32Add (a b : Nat) : Nat := toF32 ((f32 a).add (f32 b))
def f32Sub (a b : Nat) : Nat := toF32 ((f32 a).add (f32 b).neg)
def f32Mul (a b : Nat) : Nat := toF32 ((f32 a).mul (f32 b))
def f32Div (a b : Nat) : Nat := toF32 ((f32 a).div (f32 b))
def f32Fma (a b c : Nat) : Nat := toF32 (((f32 a).mul (f32 b)).add (f32 c))
def f32Neg (a : Nat) : Nat := a % 2 ^ 32 ^^^ 2 ^ 31
def f32Abs (a : Nat) : Nat := a % 2 ^ 31
def f32NaN : Nat := 0x7FC00000
def f32NegInf : Nat := 0xFF800000

/-- Maximum and minimum (R317): a NaN gives way to a number; +0 is above −0. -/
def f32Max (a b : Nat) : Nat :=
  match f32 a, f32 b with
  | .nan, .nan => f32NaN
  | .nan, _ => b
  | _, .nan => a
  | x, y => if x.lt y then b else if y.lt x then a else if a = 2 ^ 31 then b else a

def f32Min (a b : Nat) : Nat :=
  match f32 a, f32 b with
  | .nan, .nan => f32NaN
  | .nan, _ => b
  | _, .nan => a
  | x, y => if x.lt y then a else if y.lt x then b else if b = 2 ^ 31 then b else a

/-- Integer square root, over the low `n` bits of the root. -/
def isqrt (x : Nat) : (n r : Nat) → Nat
  | 0, r => r
  | n + 1, r => if (r + 2 ^ n) * (r + 2 ^ n) ≤ x then isqrt x n (r + 2 ^ n) else isqrt x n r

/-- Reciprocal (R316). -/
def f32Rcp (a : Nat) : Nat := toF32 ((FVal.num false 1 0).div (f32 a))

/-- Reciprocal square root (R316). The root of 2^k ÷ m is taken to 65 bits or more, with a last bit for all below it. -/
def f32Rsqrt (a : Nat) : Nat :=
  match f32 a with
  | .nan => f32NaN
  | .inf neg => if neg then f32NaN else 0
  | .num neg m e =>
    if m = 0 then toF32 (.inf neg)
    else if neg then f32NaN
    else
      let odd := decide (e % 2 ≠ 0)
      let m' := if odd then 2 * m else m
      let e' := if odd then e - 1 else e
      let x := 2 ^ 200 / m'
      let r := isqrt x 101 0
      let sticky := if r * r * m' = 2 ^ 200 then 0 else 1
      toF32 (.num false (2 * r + sticky) (-(e' / 2) - 100 - 1))

/-- Bounds of exp(y) × 2^p for y = n ÷ 2^q at most 1/2: `k` terms of its series from term `i`, the last term given. -/
def expTerms (n q : Nat) : (k i term sum : Nat) → Nat
  | 0, _, _, sum => sum
  | k + 1, i, term, sum =>
    let t := term * n / (2 ^ q * i)
    expTerms n q k (i + 1) t (sum + t)

/-- Bounds of a value squared `k` times, at scale 2^p. -/
def squareBounds (p : Nat) : (k lo hi : Nat) → Nat × Nat
  | 0, lo, hi => (lo, hi)
  | k + 1, lo, hi => squareBounds p k (lo * lo / 2 ^ p) (hi * hi / 2 ^ p + 1)

/-- Bounds of exp(m × 2^e) × 2^p for a magnitude below 128: the argument is divided by 256, so that it is below 1/2, and the
result squared eight times. -/
def expBounds (p m : Nat) (e : Int) : Nat × Nat :=
  let q := (8 - e).toNat
  let n := if 8 - e < 0 then m * 2 ^ (e - 8).toNat else m
  let lo := expTerms n q p 1 (2 ^ p) (2 ^ p)
  squareBounds p 8 lo (lo + p + 2)

/-- The FP32 code on which both bounds of a positive value agree, at scale 2^p, else the result at a higher precision. -/
def agree (p : Nat) (neg : Bool) (b : Nat × Nat) (more : Nat) : Nat :=
  let x := toF32 (.num neg b.1 (-(p : Int)))
  let y := toF32 (.num neg b.2 (-(p : Int)))
  if x = y then x else more

/-- exp of a finite value at precision `p`. -/
def expAt (p : Nat) (neg : Bool) (m : Nat) (e : Int) : Nat × Nat :=
  let b := expBounds p m e
  if neg then (2 ^ (2 * p) / b.2, 2 ^ (2 * p) / b.1 + 1) else b

/-- Exponential (R316), correctly rounded: the precision rises until the bounds round alike. -/
def f32Exp (a : Nat) : Nat :=
  match f32 a with
  | .nan => f32NaN
  | .inf neg => if neg then 0 else toF32 (.inf false)
  | .num neg m e =>
    if m = 0 then 0x3F800000
    else if !(FVal.num false m e).lt (.num false 128 0) then (if neg then 0 else toF32 (.inf false))
    else if (FVal.num false m e).lt (.num false 1 (-40)) then 0x3F800000
    else agree 256 false (expAt 256 neg m e) (agree 512 false (expAt 512 neg m e)
      (let b := expAt 1024 neg m e; toF32 (.num false b.1 (-1024))))

/-- Bounds of atanh(n ÷ d) × 2^p for n ÷ d at most 1/3: `k` terms of its series. -/
def atanhTerms (n d : Nat) : (k i power sum : Nat) → Nat
  | 0, _, _, sum => sum
  | k + 1, i, power, sum =>
    let pw := power * n * n / (d * d)
    atanhTerms n d k (i + 2) pw (sum + pw / i)

def atanhBounds (p n d : Nat) : Nat × Nat :=
  let first := 2 ^ p * n / d
  let lo := atanhTerms n d p 3 first first
  (lo, lo + 2 * p + 4)

/-- Bounds of |ln(m × 2^e)| × 2^p with the sign: the value is taken as 2^k × z with z from 3/4 to 3/2. -/
def logAt (p m : Nat) (e : Int) : Bool × (Nat × Nat) :=
  let l := Nat.log2 m
  let big := decide (3 * 2 ^ l ≤ 2 * m)
  let k : Int := e + l + (if big then 1 else 0)
  let one := if big then 2 ^ (l + 1) else 2 ^ l
  let zneg := decide (m < one)
  let az := atanhBounds p (if zneg then one - m else m - one) (m + one)
  let a2 := atanhBounds p 1 3
  let zlo : Int := if zneg then -(2 * az.2 : Nat) else (2 * az.1 : Nat)
  let zhi : Int := if zneg then -(2 * az.1 : Nat) else (2 * az.2 : Nat)
  let lo : Int := zlo + (if 0 ≤ k then k * (2 * a2.1 : Nat) else k * (2 * a2.2 : Nat))
  let hi : Int := zhi + (if 0 ≤ k then k * (2 * a2.2 : Nat) else k * (2 * a2.1 : Nat))
  if lo < 0 then (true, (hi.natAbs, lo.natAbs)) else (false, (lo.natAbs, hi.natAbs))

/-- Natural logarithm (R316), correctly rounded. -/
def f32Log (a : Nat) : Nat :=
  match f32 a with
  | .nan => f32NaN
  | .inf neg => if neg then f32NaN else toF32 (.inf false)
  | .num neg m e =>
    if m = 0 then toF32 (.inf true)
    else if neg then f32NaN
    else if (FVal.num false m e).add (.num true 1 0) = .num false 0 (min e 0) then 0
    else
      let at_ (p : Nat) : Bool × (Nat × Nat) := logAt p m e
      agree 256 (at_ 256).1 (at_ 256).2 (agree 512 (at_ 512).1 (at_ 512).2
        (toF32 (.num (at_ 1024).1 (at_ 1024).2.1 (-1024))))

/-! ### Fixed reduction order (R322) -/

/-- One level of the tree: operands combined with their neighbours at distance 2^k of the ranking, an operand without one going
on alone. -/
def combinePairs {α : Type} (op : α → α → α) : List α → List α
  | a :: b :: rest => op a b :: combinePairs op rest
  | l => l

/-- The fixed reduction of at most 2^`fuel` operands (R322): at each level the operands left are the ranks that are multiples of
2^k, in ascending order, and neighbours combine. -/
def treeReduce {α : Type} (op : α → α → α) : (fuel : Nat) → List α → List α
  | 0, l => l
  | fuel + 1, l => treeReduce op fuel (combinePairs op l)

/-! ### Integer conversions (R312) -/

/-- An exact value rounded to an integer, ties to even; none for NaN, and the sign alone for an infinity. -/
def FVal.toInt : FVal → Option Int
  | .num neg m e =>
    let x : Nat := if 0 ≤ e then m * 2 ^ e.toNat else rneShift m (-e).toNat
    some (if neg then -(x : Int) else x)
  | _ => none

/-- A conversion to a signed integer of `w` bits: the code, and whether it was clamped or came from a NaN (counted in
GC_SAT_CNT). -/
def toSignedInt (w : Nat) (v : FVal) : Nat × Bool :=
  let lo : Int := -(2 ^ (w - 1) : Nat)
  let hi : Int := (2 ^ (w - 1) : Nat) - 1
  match v with
  | .nan => (0, true)
  | .inf neg => (unsignedOf w (if neg then lo else hi), true)
  | v => match v.toInt with
    | some i => if i < lo then (unsignedOf w lo, true) else if hi < i then (unsignedOf w hi, true) else (unsignedOf w i, false)
    | none => (0, true)

/-- A signed integer as an exact value. -/
def FVal.ofInt (i : Int) : FVal := .num (decide (i < 0)) i.natAbs 0

end Sys2Proof.Machine
end

