-- ==== Sys2Proof/Machine/TrondiOps.lean ====
section
/-! DEFINITION. How a Trondi instruction is issued: its static checks, its predicate, its operands, its memory accesses, engine
requests and their answers (R241 to R244, R256 to R259, R269 to R279). -/

namespace Sys2Proof.Machine

/-! ### Operand codes and static checks (R271 to R275) -/

/-- The kind of operand that an instruction's table states for a field. -/
inductive OpKind where
  | unused | s | sPair | v | t | a | p | sOrI | vOrS
deriving DecidableEq, Repr

/-- The contexts that a class, or an instruction's table, allows. -/
inductive CtxSide where
  | cell | hub | both
deriving DecidableEq, Repr

/-- What R275 checks of an instruction's word: the kinds of its fields, the FLAGS bits it defines, its format codes, whether it uses
IMM, and what else makes its encoding reserved. -/
structure Shape where
  side : CtxSide := .both
  d : OpKind := .unused
  a : OpKind := .unused
  b : OpKind := .unused
  c : OpKind := .unused
  flags : Nat := 0
  fmts : List Nat := [0]
  imm : Bool := false
  ok : Bool := true
deriving DecidableEq, Repr

/-- Whether an operand code is of a kind (R272). -/
def kindFits (hub : Bool) (k : OpKind) (code : Nat) : Bool :=
  let s := decide (code < 0x20)
  let v := decide (0x20 ≤ code ∧ code < 0x30)
  match k with
  | .unused => code = 0xFF
  | .s => s
  | .sPair => decide (code < 0x1F)
  | .v => v
  | .t => decide (0x30 ≤ code ∧ code < 0x38)
  | .a => decide (0x38 ≤ code ∧ code < 0x3C) && !hub
  | .p => decide (0x40 ≤ code ∧ code < 0x50)
  | .sOrI => s || code = 0xFE
  | .vOrS => v || s

/-- Check 4 of R275. -/
def staticOk (hub : Bool) (sh : Shape) (n : Insn) : Bool :=
  let immediate := sh.imm || n.a.toNat = 0xFE || n.b.toNat = 0xFE
  sh.ok && sh.fmts.contains n.fmt.toNat && decide (n.flags.toNat % 128 &&& (127 - sh.flags) = 0) &&
    kindFits hub sh.d n.d.toNat && kindFits hub sh.a n.a.toNat && kindFits hub sh.b n.b.toNat && kindFits hub sh.c n.c.toNat &&
    (immediate || n.imm = 0)

/-- Check 2 of R275. -/
def sideOk (hub : Bool) : CtxSide → Bool
  | .cell => !hub
  | .hub => hub
  | .both => true

/-- The instruction's word (R269). -/
def insnWord (cls op : Nat) (n : Insn) : Nat :=
  n.imm.toNat + 2 ^ 64 * (n.fmt.toNat + n.c.toNat * 2 ^ 4 + n.b.toNat * 2 ^ 12 + n.a.toNat * 2 ^ 20 + n.d.toNat * 2 ^ 28 +
    n.flags.toNat * 2 ^ 36 + n.pred.toNat * 2 ^ 44 + op * 2 ^ 48 + cls * 2 ^ 58)

/-- The instruction with the FLAGS bits that select its operation, the low `w` of them, as its mnemonic has them. -/
def withSub (w sub : Nat) (n : Insn) : Insn := { n with flags := BitVec.ofNat 8 (n.flags.toNat / 2 ^ w * 2 ^ w + sub) }

/-- Bit `i` of an instruction's FLAGS. -/
def flagBit (n : Insn) (i : Nat) : Bool := n.flags.toNat.testBit i

/-- A scalar source, or the immediate (R272). -/
def UnitX.src (x : UnitX) (n : Insn) (code : BitVec 8) : Word := if code.toNat = 0xFE then n.imm else x.sreg code.toNat

/-- A scalar source as a number. -/
def UnitX.num (x : UnitX) (n : Insn) (code : BitVec 8) : Nat := (x.src n code).toNat

/-- A number written to a scalar register. -/
def UnitX.put (x : UnitX) (code : BitVec 8) (v : Nat) : UnitX := x.setS code.toNat (BitVec.ofNat 64 v)

/-- The scalar registers that an instruction names. -/
def touched (sh : Shape) (n : Insn) : List Nat :=
  ([n.d, n.a, n.b, n.c].map BitVec.toNat).filter (· < 32) ++ (if sh.d = .sPair then [n.d.toNat + 1] else [])

/-- The scalar registers that a request will write. -/
def pendingRegs (r : Request) : List Nat := if r.pair then [r.d, r.d + 1] else [r.d]

/-! ### Corrected and uncorrectable words (R565) -/

/-- What a read of a Cell's SRAM shows of its check bits. -/
def State.cellEcc (s : State) (u ecc : Nat) : State :=
  let part := Part.cell (u / 256) (s.physicalCell u)
  if ecc = 1 then
    let s := s.bump (Fld.RP_CELL_CORR_COUNT u) 1
    if s.get Fld.RP_THRESH_CELL_CORR < s.get (Fld.RP_CELL_CORR_COUNT u) then s.judge part 1 else s
  else if 2 ≤ ecc then s.judge part 2
  else s

/-- The same for a tally. -/
def State.tallyEcc (s : State) (k ecc : Nat) : State :=
  let part := Part.tally (s.physicalTally k)
  if ecc = 1 then
    let count := sparseGet 0 s.units.tallyCorr k + 1
    let s := s.updUnits (fun u => { u with tallyCorr := sparsePut 0 k count u.tallyCorr })
    if s.get Fld.RP_THRESH_TALLY_CORR < count then s.judge part 1 else s
  else if 2 ≤ ecc then s.judge part 2
  else s

/-! ### Issue (R254 to R260, R275 to R278) -/

/-- What becomes of an instruction: it completes, with its unit's registers and, for a branch, the next PC; it waits or has not
issued; or it faults. -/
inductive Did where
  | done (s : State) (x : UnitX) (pc : Option Nat)
  | hold (s : State)
  | fault (s : State) (cause addr : Nat)

/-- Whether a unit can issue an instruction: its context RUNNING, the unit one of its own, not halted, not waiting; a Hub thread with
no request left holds while a checkpoint is taken (R585). -/
def State.canIssue (s : State) (n : Insn) : Bool :=
  let x := s.context n.slot
  let y := unitGet x n.unit
  decide (x.state = .running) && (s.contextUnits n.slot).contains n.unit && y.halted.isNone && y.wait.isNone &&
    !(x.hub && s.freezing && y.reqs.isEmpty)

/-- Whether an instruction executes under its predicate (R256). -/
def predicateOn (x : UnitX) (n : Insn) : Bool := x.pred n.pred.toNat != n.flags.toNat.testBit 7

/-- The contexts in which a class is allowed (R271); none for a reserved class. -/
def classSide (cls : Nat) : Option CtxSide :=
  if cls = 0x01 ∨ cls = 0x02 ∨ cls = 0x04 ∨ cls = 0x10 then some .both
  else if cls = 0x08 ∨ cls = 0x09 then some .cell
  else if (0x18 ≤ cls ∧ cls ≤ 0x1B) ∨ cls = 0x20 ∨ cls = 0x21 then some .hub
  else none

/-- Whether a class gives an opcode an instruction (the tables of R280 to R304). -/
def opDefined (cls op : Nat) : Bool :=
  match cls with
  | 0x01 => decide (op ≤ 9)
  | 0x02 => decide (op ≤ 4)
  | 0x04 => decide (op ≤ 12)
  | 0x08 => decide (op ≤ 3)
  | 0x09 => decide (op ≤ 6) || decide (0x10 ≤ op ∧ op ≤ 0x14)
  | 0x10 => decide (op ≤ 6)
  | 0x18 => decide (op ≤ 4)
  | 0x19 => decide (op ≤ 1)
  | 0x1A => decide (op ≤ 3)
  | 0x1B => op = 0
  | 0x20 => decide (op ≤ 1)
  | 0x21 => decide (op ≤ 2)
  | _ => false

/-- Whether the FLAGS bits that select an operation of a shared opcode select a reserved one (R284, R290, R322). -/
def subReserved (cls op flags : Nat) : Bool :=
  (cls = 4 && op = 2 && decide (12 < flags % 16)) || (cls = 9 && op = 1 && flags % 8 = 7) || (cls = 9 && op = 3 && flags % 4 = 3)

/-- The cause of a fault that a read ends in by its status (R259). -/
def readCause (status : Nat) : Nat := if status = CS.integrity then 0x0A else if status = CS.absentUnit then 0x0C else 0x0B

/-- No fault: the instruction waits for a weight object that is read again from the Shed (R126). -/
def rereadWait : Nat := 0x100

/-- The instruction word at a unit's PC in its context's code copy (R248, R270), or the cause of the fault of a read that fails. -/
def State.fetchWord (s : State) (slot u : Nat) : Except Nat Nat :=
  match s.readT1 544 ((s.context slot).codeAt + (s.unit slot u).pc) 16 with
  | .ok b => .ok (recGet b 0 16)
  | .error st => .error (readCause st)

/-- A unit at whose PC another instruction stands than the command names: the checks of R275 on CLASS, on OPCODE and on a reserved
operation of a shared opcode, which no row of the table carries; else its own row runs it. -/
def State.otherWord (s : State) (n : Insn) (word : Nat) : State :=
  let cls := word / 2 ^ 122
  match classSide cls with
  | none => s.faultContext n.slot n.unit 0x01 0 word
  | some side =>
    if !sideOk (s.context n.slot).hub side then s.faultContext n.slot n.unit 0x02 0 word
    else if !opDefined cls (word / 2 ^ 112 % 2 ^ 10) || subReserved cls (word / 2 ^ 112 % 2 ^ 10) (word / 2 ^ 100 % 2 ^ 8) then
      s.faultContext n.slot n.unit 0x01 0 word
    else s

/-- An instruction run whole: fetch, the checks of R275, the predicate, then its own effect. -/
def State.runInsn (s : State) (n : Insn) (cls op : Nat) (sh : Shape) (body : State → UnitX → Did) : State :=
  if !s.canIssue n then s
  else
    let x := s.context n.slot
    let y := unitGet x n.unit
    let word := insnWord cls op n
    if x.codeBytes < y.pc + 16 || y.pc % 16 ≠ 0 then s.faultContext n.slot n.unit 0x10 y.pc 0
    else match s.fetchWord n.slot n.unit with
    | .error cause => s.faultContext n.slot n.unit cause (x.codeAt + y.pc) 0
    | .ok fetched =>
      if fetched ≠ word then s.otherWord n fetched
      else if !sideOk x.hub sh.side then s.faultContext n.slot n.unit 0x02 0 word
      else if !staticOk x.hub sh n then s.faultContext n.slot n.unit 0x01 0 word
      else if !predicateOn y n then s.retire n.slot n.unit (y.pc + 16) y
      else if (touched sh n).any (fun r => y.reqs.any (fun q => (pendingRegs q).contains r)) then s
      else
        let s := if x.hub || n.ecc = 0 || cls = 2 then s else s.cellEcc n.unit n.ecc
        if (s.context n.slot).state ≠ .running then s
        else
          let y := s.unit n.slot n.unit
          match body s y with
          | .done s z pc => s.retire n.slot n.unit (pc.getD (y.pc + 16)) z
          | .hold s => s
          | .fault s cause addr => if cause = rereadWait then s else s.faultContext n.slot n.unit cause addr word

/-- The next PC of a relative branch (R280). -/
def branchTo (y : UnitX) (n : Insn) : Nat := (BitVec.ofNat 64 (y.pc + 16) + n.imm).toNat

/-! ### Engine requests (R278, R279) -/

/-- The command that carries a Hub thread's request. -/
def State.hubCmd (s : State) (n : Insn) : Cmd :=
  { issuer := .hub n.slot n.unit, flags := 0, tag := 0, seq := BitVec.ofNat 32 (s.context n.slot).retired, handle := 0, addrA := 0,
    addrB := 0, ops := 0, data := [], busFail := none }

/-- A command spelt by a 64-byte block (R395), issued by a Hub thread. -/
def blockCmd (n : Insn) (b : List Byte) : Cmd :=
  { issuer := .hub n.slot n.unit, flags := BitVec.ofNat 8 (recGet b 1 1), tag := BitVec.ofNat 16 (recGet b 2 2), seq := BitVec.ofNat 32 (recGet b 4 4),
    handle := BitVec.ofNat 64 (recGet b 8 8), addrA := BitVec.ofNat 64 (recGet b 16 8), addrB := BitVec.ofNat 64 (recGet b 24 8),
    ops := BitVec.ofNat 256 (recGet b 32 32), data := [], busFail := none }

/-- An engine request issued: at most 8 are pending; the engine acts, and its answer comes with E_REQUEST_COMPLETE. -/
def State.request (s : State) (n : Insn) (y : UnitX) (pair : Bool) (c : Cmd) (recordAt : Option Nat) (act : State → State) : Did :=
  if 8 ≤ y.reqs.length then .hold s
  else
    let z := { y with reqs := y.reqs ++ [⟨n.d.toNat, pair, coreOf c, recordAt⟩] }
    let s := act (s.setUnit n.slot n.unit z)
    .done s (s.unit n.slot n.unit) none

/-- An answer written to its registers, or, for a context that no longer runs, into its save area (R278); with its completion record
where the request asks for one (R293, R301). -/
def State.deliverAnswer (s : State) (w : Answer) : State :=
  let x := s.context w.slot
  let y := unitGet x w.unit
  match y.reqs.find? (fun r => r.cmd = w.cmd) with
  | none => s
  | some r =>
    let y := { y with reqs := y.reqs.erase r }
    let z := y.setS r.d (BitVec.ofNat 64 w.status)
    let z := if r.pair then z.setS (r.d + 1) (BitVec.ofNat 64 w.r0) else z
    let s := match r.recordAt with
      | some a => s.writeT1 x.tenant a (bytesOf 32 (recordOf r.cmd w.status 0 0 w.r0 w.r1 w.r2))
      | none => s
    if x.state = .running then s.setUnit w.slot w.unit z
    else
      let at_ := saveAddr x w.unit + registerOffset x.hub + 8 * r.d
      let s := s.writeT1 x.tenant at_ (bytesOf 8 w.status)
      let s := if r.pair then s.writeT1 x.tenant (at_ + 8) (bytesOf 8 w.r0) else s
      s.setUnit w.slot w.unit y

/-- E_REQUEST_COMPLETE (R278): the engine's `k`-th answer that waits is written. -/
def execERequestComplete (k : Nat) (s : State) : Host.Outcome State Fault Refusal :=
  next (match s.answers[k]? with
    | none => s
    | some w => { s with answers := s.answers.eraseIdx k }.deliverAnswer w)

/-! ### Memory accesses (R241 to R244) -/

/-- Where an access goes. -/
inductive Place where
  | tier1 (addr domain : Nat)
  | own (off : Nat)
  | acc (off : Nat)
  | ring (unit off : Nat)
  | shared (off : Nat)
deriving DecidableEq, Repr

/-- The shared window of a Hub context (R246). -/
def State.windowOf (s : State) (slot : Nat) : Option Window := s.windows.find? (fun w => w.users.contains slot)

/-- The model domain bound to a tenant (R356). -/
def State.modelDomain (s : State) (t : Nat) : Option Nat :=
  if s.on (Fld.TN_CTRL_MODEL_EN t) then some (512 + s.get (Fld.TN_CTRL_MODEL t)) else none

/-- Whether a granule is the tenant's own, or a model-domain granule of the tenant's (R243). -/
def State.modelGranule (s : State) (t g : Nat) : Bool :=
  match s.t1.ownerOf g with
  | some (.tenant u _) => decide (u = t)
  | _ => false

/-- The checks of a TIER1 access, and the domain it is made in (R242, R243, R356, R461, R462). -/
def State.tier1Access (s : State) (n : Insn) (lo len align : Nat) (write weight : Bool) : Except Nat Place :=
  let x := s.context n.slot
  let granules := (List.range ((lo + len + 4095) / 4096 - lo / 4096)).map (lo / 4096 + ·)
  if 2 ^ 48 ≤ lo || !s.addrOk lo len then .error 0x04
  else if lo % align ≠ 0 then .error 0x05
  else if !x.hub && hiveOf lo ≠ n.unit / 512 then .error 0x06
  else if weight then
    if write then .error 0x08
    else match s.modelDomain x.tenant with
      | none => .error 0x07
      | some d =>
        if granules.all (s.modelGranule x.tenant) && (sparseGet [] s.sec.allow d).contains x.digest then .ok (.tier1 lo d) else .error 0x07
  else if !write && s.overWeights lo len then .error 0x07
  else if granules.all (s.granuleOf x.tenant) then
    match (if write then s.writeStatus x.tenant lo len else none) with
    | some st => .error (readCause st)
    | none => .ok (.tier1 lo x.tenant)
  else .error 0x07

/-- The checks of an access of `len` bytes at offset `lo` of a space: where it goes, or the cause of its fault. Where several causes
hold, the first in the order of R259 is given. -/
def State.accessIn (s : State) (n : Insn) (space lo len align : Nat) (write weight : Bool) : Except Nat Place :=
  let hub := (s.context n.slot).hub
  let near (size : Nat) (p : Place) : Except Nat Place :=
    if size < lo + len then .error 0x04 else if lo % align ≠ 0 then .error 0x05 else .ok p
  match space, hub with
  | 0, _ => s.tier1Access n lo len align write weight
  | 1, false => near 0x40000 (.own lo)
  | 2, false => near 0x10000 (.acc lo)
  | 3, false =>
    let cell := lo / 2 ^ 32 % 256
    let off := lo % 2 ^ 18
    let u := n.unit / 256 * 256 + cell
    if lo / 2 ^ 40 ≠ 0 || lo % 2 ^ 32 / 2 ^ 18 ≠ 0 || 0x40000 < off + len then .error 0x04
    else if off % align ≠ 0 then .error 0x05
    else if !(s.contextUnits n.slot).contains u then .error 0x0C
    else if u = n.unit then .ok (.own off)
    else .ok (.ring u off)
  | 4, true => near 0x10000 (.own lo)
  | 5, true => match s.windowOf n.slot with
    | some w => near (65536 * w.units) (.shared lo)
    | none => .error 0x04
  | _, _ => .error 0x03

/-- The same for a 64-bit address, with the space in bits [63:60]. -/
def State.access (s : State) (n : Insn) (addr : Word) (len align : Nat) (write : Bool) : Except Nat Place :=
  s.accessIn n (addr.toNat / 2 ^ 60) (addr.toNat % 2 ^ 60) len align write false

/-- The bytes at a place, or the cause of the fault, with the state after the read. A weight object that cannot be corrected is read again from the Shed where it has an
image, and the instruction waits (R126). -/
def State.readPlace (s : State) (n : Insn) (y : UnitX) (p : Place) (len : Nat) : State × Except Nat (List Byte) :=
  match p with
  | .tier1 addr domain =>
    let s := if 512 ≤ domain then s.setContext n.slot { s.context n.slot with weighted := true } else s
    let r := s.readT1 domain addr len
    let s := (s.afterRead domain addr len).checkPoison
    match r with
    | .ok bytes => (s, .ok bytes)
    | .error st => match (if 512 ≤ domain && st = CS.uncorrectable then s.rereadWeight addr else none) with
      | some s => (s, .error rereadWait)
      | none => (s, .error (readCause st))
  | .own off => (s, .ok (memBytes y.mem off len))
  | .acc off => (s, .ok (memBytes y.acc off len))
  | .ring u off => (s, .ok (memBytes (s.unit n.slot u).mem off len))
  | .shared off => (s, .ok (memBytes (((s.windowOf n.slot).map (·.bytes)).getD []) off len))

/-- Bytes written at a place: the state and the issuing unit after. -/
def State.writePlace (s : State) (n : Insn) (y : UnitX) (p : Place) (bytes : List Byte) : State × UnitX :=
  match p with
  | .tier1 addr domain => (s.writeT1 domain addr bytes, y)
  | .own off => (s, { y with mem := putBytes off bytes y.mem })
  | .acc off => (s, { y with acc := putBytes off bytes y.acc })
  | .ring u off => (s.setUnit n.slot u { s.unit n.slot u with mem := putBytes off bytes (s.unit n.slot u).mem }, y)
  | .shared off =>
    let put (w : Window) : Window := if w.users.contains n.slot then { w with bytes := putBytes off bytes w.bytes } else w
    ({ s with windows := s.windows.map put }, y)

/-- A read at an address, and what to do with its bytes. -/
def State.reading (s : State) (n : Insn) (y : UnitX) (addr : Word) (len align : Nat) (k : State → List Byte → Did) : Did :=
  match s.access n addr len align false with
  | .error cause => .fault s cause addr.toNat
  | .ok p => match s.readPlace n y p len with
    | (s, .error cause) => .fault s cause addr.toNat
    | (s, .ok bytes) => k s bytes

/-- What the failing read half of a narrow write to Tier 1 leaves behind (R120, R244). -/
def State.writeNoted (s : State) (n : Insn) (addr : Word) (len : Nat) : State :=
  ((partBlocks addr.toNat len).foldl (fun s b => s.afterBlockRead (s.context n.slot).tenant b) s).checkPoison

/-- A write at an address, which ends the instruction. -/
def State.writing (s : State) (n : Insn) (y : UnitX) (addr : Word) (align : Nat) (bytes : List Byte) : Did :=
  match s.access n addr bytes.length align true with
  | .error cause => .fault (if cause = 0x0A ∨ cause = 0x0B then s.writeNoted n addr bytes.length else s) cause addr.toNat
  | .ok p => let r := s.writePlace n y p bytes; .done r.1 r.2 none

end Sys2Proof.Machine
end

