-- ==== Sys2Proof/Machine/TileOps.lean ====
section
/-! DEFINITION. Tiles (R239, R305 to R314): descriptors, the elements of their rows, and the conversions that write them. -/

namespace Sys2Proof.Machine

/-- A tile descriptor's fields (R239). -/
structure Tile where
  base : Nat
  format : Nat
  space : Nat
  weight : Bool
  rows : Nat
  cols : Nat
  stride : Nat
deriving DecidableEq, Repr

/-- The fields of a descriptor. -/
def tileOf (d : BitVec 128) : Tile :=
  let x := d.toNat
  ⟨x % 2 ^ 48, x / 2 ^ 48 % 16, x / 2 ^ 52 % 16, x.testBit 56, x / 2 ^ 64 % 2 ^ 16, x / 2 ^ 80 % 2 ^ 16, x / 2 ^ 96⟩

/-- The bits of an element, by format code (R305). -/
def elementBits (format : Nat) : Nat :=
  match format with
  | 0 => 32 | 1 => 16 | 2 => 16 | 3 => 8 | 4 => 8 | 5 => 8 | 6 => 6 | 7 => 6 | 8 => 4 | 9 => 8 | 10 => 4 | 11 => 1 | _ => 4

/-- The elements under one scale byte; 0 for a format without (R305, R308). -/
def blockSize (format : Nat) : Nat := if 5 ≤ format ∧ format ≤ 8 then 32 else if format = 12 then 16 else 0

/-- The bytes of a row's elements (R306). -/
def packedBytes (format cols : Nat) : Nat := ceilDiv (elementBits format * cols) 8

/-- The bytes of a row: its elements, then its scale bytes (R308). -/
def rowBytes (format cols : Nat) : Nat := packedBytes format cols + (if blockSize format = 0 then 0 else cols / blockSize format)

/-- The spaces that a descriptor may name in a context (R239, R241). -/
def tileSpace (hub : Bool) (space : Nat) : Bool :=
  space = 0 || (if hub then decide (space = 4 ∨ space = 5) else decide (space = 1 ∨ space = 2 ∨ space = 3))

/-- Whether a descriptor can be used (R239, R308). -/
def tileValid (hub : Bool) (t : Tile) : Bool :=
  tileSpace hub t.space && decide (t.format < 13) && decide (1 ≤ t.rows ∧ t.rows ≤ 4096 ∧ 1 ≤ t.cols ∧ t.cols ≤ 4096) &&
    (blockSize t.format = 0 || (t.cols % blockSize t.format = 0 && decide (rowBytes t.format t.cols ≤ t.stride)))

/-- The places of a tile's rows, or the first fault: its cause and address. -/
def State.tileRows (s : State) (n : Insn) (t : Tile) (write : Bool) : Except (Nat × Nat) (List Place) :=
  let base := t.space * 2 ^ 60 + t.base
  if !tileValid (s.context n.slot).hub t then .error (0x09, 0)
  else if t.stride % (if t.space = 0 then 64 else 16) ≠ 0 then .error (0x05, base)
  else (List.range t.rows).mapM (fun r =>
    let at_ := t.base + r * t.stride
    match s.accessIn n t.space at_ (rowBytes t.format t.cols) (if t.space = 0 then 64 else 1) write t.weight with
    | .error cause => .error (cause, t.space * 2 ^ 60 + at_)
    | .ok p => if write && t.weight then .error (0x08, t.space * 2 ^ 60 + at_) else .ok p)

/-- The bytes of rows, read in order. -/
def State.readRows (s : State) (n : Insn) (y : UnitX) (len : Nat) (rows : List Place) : State × Except Nat (List (List Byte)) :=
  rows.foldl (fun r p => match r.2 with
    | .error c => (r.1, .error c)
    | .ok done => let q := r.1.readPlace n y p len; (q.1, q.2.map (fun b => done ++ [b]))) (s, .ok [])

/-- Rows written in order. -/
def State.writeRows (s : State) (n : Insn) (y : UnitX) (rows : List (Place × List Byte)) : State × UnitX :=
  rows.foldl (fun r e => r.1.writePlace n r.2 e.1 e.2) (s, y)

/-! ### Elements -/

/-- The float format of an element code; none for integers and UB1 (R305). -/
def elementFmt (format : Nat) : Option FFmt :=
  match format with
  | 0 => some fp32 | 1 => some bf16 | 2 => some fp16 | 3 => some fp8e4m3 | 4 => some fp8e5m2 | 5 => some fp8e4m3
  | 6 => some fp6e2m3 | 7 => some fp6e3m2 | 8 => some fp4e2m1 | 12 => some fp4e2m1 | _ => none

/-- The codes packed in a row's elements (R306). -/
def unpackCodes (w n : Nat) (bytes : List Byte) : List Nat :=
  let x := natOfBytes bytes
  (List.range n).map (fun i => x / 2 ^ (w * i) % 2 ^ w)

/-- Codes packed as a bit string; bits of the last byte past the last element are those of `fill`. -/
def packCodes (w : Nat) (codes : List Nat) (fill : Nat) : List Byte :=
  let x := codes.foldr (fun c acc => c % 2 ^ w + 2 ^ w * acc) fill
  bytesOf (ceilDiv (w * codes.length) 8) x

/-- The value of a block scale byte (R309, R310). -/
def scaleValue (format b : Nat) : FVal :=
  if format = 12 then (if 0x7F ≤ b then .nan else fp8e4m3.decode b)
  else if b = 0xFF then .nan else .num false 1 ((b : Int) - 127)

/-- The values of a row. -/
def rowValues (format cols : Nat) (bytes : List Byte) : List FVal :=
  let w := elementBits format
  let codes := unpackCodes w cols (bytes.take (packedBytes format cols))
  let scales := bytes.drop (packedBytes format cols)
  match elementFmt format with
  | none => codes.map (fun c => FVal.ofInt (signedOf w c))
  | some f =>
    if blockSize format = 0 then codes.map f.decode
    else codes.zipIdx.map (fun e => (f.decode e.1).mul (scaleValue format ((scales.getD (e.2 / blockSize format) 0).toNat)))

/-! ### Conversions (R311 to R314, R96) -/

/-- The magnitude of an exact value. -/
def FVal.abs : FVal → FVal
  | .num _ m e => .num false m e
  | .inf _ => .inf false
  | .nan => .nan

def FVal.finite : FVal → Bool
  | .num .. => true
  | _ => false

/-- The largest magnitude among the finite values of a list (R96, R313). -/
def maxFinite (l : List FVal) : FVal := (l.filter FVal.finite).foldl (fun a v => if a.lt v.abs then v.abs else a) (.num false 0 0)

/-- A code without the sign of a zero. -/
def plusZero (f : FFmt) (c : Nat) : Nat := if c % 2 ^ (f.ebits + f.mbits) = 0 then 0 else c

/-- A block of codes 5 to 8: its element codes and its scale byte (R313). -/
def mxBlock (f : FFmt) (emax : Int) (l : List FVal) : List Nat × Nat :=
  if !l.all FVal.finite then (l.map (fun _ => 0), 0xFF)
  else match maxFinite l with
  | .num _ m x =>
    if m = 0 then (l.map (fun _ => 0), 0)
    else
      let e : Int := max (-127) (min 127 (x + Nat.log2 m - emax))
      (l.map (fun v => plusZero f (f.encode (v.mul (.num false 1 (-e))))), (e + 127).toNat)
  | _ => (l.map (fun _ => 0), 0xFF)

/-- A block of SF4 under a page scale (R96 steps 2 to 4): its element codes, its scale byte, whether the quotient exceeded 448. -/
def sf4Block (page : FVal) (l : List FVal) : List Nat × Nat × Bool :=
  let m := maxFinite l
  let six := FVal.mul (.num false 6 0) page
  let fits (c : Nat) : Bool := !(((fp8e4m3.decode c).mul six).lt m)
  let scale := if m.isZero then 0 else (searchFrom fits 1 126).getD 0x7E
  let unit := (fp8e4m3.decode scale).mul page
  (l.map (fun v => if !v.finite || v.isZero then 0 else plusZero fp4e2m1 (fp4e2m1.encode (v.div unit))), scale,
    !m.isZero && (searchFrom fits 1 126).isNone)

/-- A list cut into pieces of `k`; `fuel` bounds their number. -/
def pieces {α : Type} (k : Nat) : (fuel : Nat) → List α → List (List α)
  | 0, _ => []
  | fuel + 1, l => if l.isEmpty then [] else l.take k :: pieces k fuel (l.drop k)

/-- `emax` of an element format (R313). -/
def emaxOf (format : Nat) : Int := match format with | 5 => 8 | 7 => 4 | _ => 2

/-- A row converted to a format: its bytes, and how many conversions were clamped (R312). -/
def encodeRow (format fill : Nat) (l : List FVal) : List Byte × Nat :=
  let w := elementBits format
  match elementFmt format with
  | none =>
    let r := l.map (toSignedInt w)
    (packCodes w (r.map (·.1)) fill, (r.filter (·.2)).length)
  | some f =>
    if blockSize format = 0 then (packCodes w (l.map f.encode) fill, 0)
    else
      let blocks := (pieces (blockSize format) l.length l).map (fun b =>
        if format = 12 then let r := sf4Block (.num false 1 0) b; (r.1, r.2.1) else mxBlock f (emaxOf format) b)
      (packCodes w (blocks.flatMap (·.1)) fill ++ blocks.map (fun b => BitVec.ofNat 8 b.2), 0)

/-- What fills the bits of a row's last byte that no element has: 0 bits to fill, or a free value. -/
def State.tileFill (s : State) (t : Tile) : Nat × State :=
  if elementBits t.format * t.cols % 8 = 0 then (0, s) else let r := s.drawFree; (r.1.toNat, r.2)

/-- A tile written from values, row by row. -/
def State.writeTile (s : State) (n : Insn) (y : UnitX) (t : Tile) (rows : List Place) (values : List (List FVal)) : Did :=
  let f := s.tileFill t
  let coded := values.map (encodeRow t.format f.1)
  let s := f.2.bump Fld.GC_SAT_CNT_COUNT ((coded.map (·.2)).foldl (· + ·) 0)
  let r := s.writeRows n y (rows.zip (coded.map (·.1)))
  .done r.1 r.2 none

end Sys2Proof.Machine
end

