-- ==== Sys2Proof/Machine/SelOps.lean ====
section
/-! DEFINITION. Selection (R185 to R206): entries, ranking, merging, gathering, the sampler and Seedwheel. -/

namespace Sys2Proof.Machine

/-! ### Entries (R185, R186) -/

/-- An entry: its FP32 code, index and shard. -/
structure Entry where
  value : Nat
  index : Nat
  shard : Nat
deriving DecidableEq, Repr

/-- Whether an entry is valid. -/
def Entry.valid (e : Entry) : Bool := decide (e.value ≠ f32NegInf) && !(f32 e.value).isNaN && decide (e.index ≠ 0xFFFFFFFF)

/-- Whether an entry ranks before another. -/
def Entry.before (a b : Entry) : Bool :=
  if (f32 b.value).lt (f32 a.value) then true
  else if (f32 a.value).lt (f32 b.value) then false
  else decide (a.index < b.index ∨ (a.index = b.index ∧ a.shard < b.shard))

/-- An entry's 16 bytes. -/
def entryBytes (e : Entry) : List Byte := bytesOf 4 e.value ++ bytesOf 4 e.index ++ bytesOf 4 e.shard ++ bytesOf 4 0

/-- The entry that bytes spell. -/
def entryOf (b : List Byte) : Entry := ⟨recGet b 0 4, recGet b 4 4, recGet b 8 4⟩

/-- A padding slot (R194). -/
def padding : Entry := ⟨f32NegInf, 0xFFFFFFFF, 0xFFFFFFFF⟩

/-- The entries of a list of `n`. -/
def entriesOf (n : Nat) (b : List Byte) : List Entry := (List.range n).map (fun i => entryOf (b.drop (16 * i)))

/-- An entry put in its place in a ranked list, behind those equal to it. -/
def rankInsert (e : Entry) : List Entry → List Entry
  | [] => [e]
  | a :: l => if e.before a then e :: a :: l else a :: rankInsert e l

/-- The valid entries of a list, ranked. -/
def ranked (l : List Entry) : List Entry := (l.filter Entry.valid).foldl (fun r e => rankInsert e r) []

/-- A ranked list cut or padded to `k` slots (R194). -/
def padTo (k : Nat) (l : List Entry) : List Entry := l.take k ++ List.replicate (k - l.length) padding

/-- NaN values met: counted, and an event raised for each (R186), which names the stall's handle, or else the queue tag in `tag` (R208). -/
def State.noteNaN (s : State) (values : List Nat) (tenant : Nat) (object : Nat) (tag : List Nat := []) : State :=
  ((values.filter (fun v => (f32 v).isNaN)).foldl (fun (s : State) _ =>
    (s.bump Fld.SEL_NAN_CNT_COUNT 1).raise { code := 0x0903, tenant := some tenant, object := object, detail := tag }) s)

/-! ### Merging (R193, R194) -/

/-- Whether two entries are the same element. -/
def sameElement (loc : Bool) (a b : Entry) : Bool := decide (a.index = b.index) && (!loc || decide (a.shard = b.shard))

/-- The occurrences kept, one of each element: that of the lowest shard, the first in list order within a shard. `done` holds those
before the rest. -/
def keepFirst (loc : Bool) (done : List Entry) : List Entry → List Entry
  | [] => []
  | e :: l =>
    let beaten := done.any (fun a => sameElement loc a e && decide (a.shard ≤ e.shard)) ||
      l.any (fun a => sameElement loc a e && decide (a.shard < e.shard))
    if beaten then keepFirst loc (done ++ [e]) l else e :: keepFirst loc (done ++ [e]) l

/-- The result of a merge: the ranked entries, at most `k`, and how many occurrences were dropped. -/
def mergeEntries (loc : Bool) (k : Nat) (l : List Entry) : List Entry × Nat :=
  let valid := l.filter Entry.valid
  let kept := keepFirst loc [] valid
  ((ranked kept).take k, valid.length - kept.length)

/-- Whether a list is sorted (R198): no entry ranks before its predecessor, and invalid entries, which are never ranked, stand behind
the valid ones. -/
def sortedList : List Entry → Bool
  | a :: b :: l => (if b.valid then a.valid && !b.before a else true) && sortedList (b :: l)
  | _ => true

/-- The counters and events of a merge's result (R193, R194), which name the request's queue tag (R208). -/
def State.noteMerge (s : State) (tenant : Option Nat) (tag dup : Nat) (fewer : Bool) : State :=
  let s := s.bump Fld.SEL_DUP_CNT_COUNT dup
  let s := if dup = 0 then s else s.raise { code := 0x0902, tenant := tenant, detail := [tag, dup] }
  if fewer then (s.bump Fld.SEL_FEWER_CNT_COUNT 1).raise { code := 0x0901, tenant := tenant, detail := [tag] } else s

/-! ### List descriptors and requests (R196, R197) -/

/-- A list descriptor. -/
structure ListDesc where
  addr : Nat
  payload : Nat
  shard : Nat
  count : Nat
deriving DecidableEq, Repr

/-- The descriptors that bytes spell. -/
def listDescs (n : Nat) (b : List Byte) : List ListDesc :=
  (List.range n).map (fun i => ⟨recGet b (32 * i) 8, recGet b (32 * i + 8) 8, recGet b (32 * i + 16) 4, recGet b (32 * i + 20) 4⟩)

/-- A Tier 1 read as a state change: the bytes, or its failure. -/
def State.reading1 (s : State) (domain addr n : Nat) : State × Except Nat (List Byte) :=
  ((s.afterRead domain addr n).checkPoison, s.readT1 domain addr n)

/-- The lists that descriptors name, read in order, each entry with the shard of its descriptor. -/
def State.readLists (s : State) (t : Nat) (ds : List ListDesc) : State × Except Nat (List (List Entry)) :=
  ds.foldl (fun r d => match r.2 with
    | .error e => (r.1, .error e)
    | .ok done =>
      let q := r.1.reading1 t d.addr (16 * d.count)
      (q.1, q.2.map (fun b => done ++ [(entriesOf d.count b).map (fun e => { e with shard := d.shard })]))) (s, .ok [])

/-- The payload row of a result slot, and the status of a read that failed (R196): zeros for a padding slot or a row that cannot be
read. The row is that of the first descriptor of the slot's shard. -/
def State.gatherRow (s : State) (t : Nat) (ds : List ListDesc) (rowLen : Nat) (e : Entry) : State × List Byte × Option Nat :=
  let zeros := List.replicate rowLen 0
  if !e.valid then (s, zeros, none)
  else match ds.find? (fun d => d.shard = e.shard) with
  | none => (s, zeros, none)
  | some d =>
    let at_ := d.payload + e.index * rowLen
    if !s.tenantOwns t at_ rowLen then (s, zeros, some CS.badCommand)
    else match s.reading1 t at_ rowLen with
    | (s, .ok b) => (s, b, none)
    | (s, .error st) => (s, zeros, some st)

/-- The payload rows of a result, and the status of the first read that failed. -/
def State.gatherRows (s : State) (t : Nat) (ds : List ListDesc) (rowLen : Nat) (l : List Entry) : State × List Byte × Option Nat :=
  l.foldl (fun r e => let q := r.1.gatherRow t ds rowLen e; (q.1, r.2.1 ++ q.2.1, r.2.2 <|> q.2.2)) (s, [], none)

/-- Whether a ROW_BYTES is allowed (R196). -/
def rowBytesOk (n : Nat) : Bool := decide (16 ≤ n ∧ n ≤ 4096 ∧ n % 16 = 0)

/-! ### Seedwheel (R204, R205) -/

/-- The rounds of Seedwheel from round `r`. -/
def seedRounds (k0 k1 : Word) : (fuel r : Nat) → (x0 x1 : Word) → Word × Word
  | 0, _, x0, x1 => (x0, x1)
  | fuel + 1, r, x0, x1 =>
    let t := (x0 ^^^ (x0 >>> 31)) * 0xC4F32D19A85B7E61
    seedRounds k0 k1 fuel (r + 1) (x1 ^^^ t.rotateLeft (17 + 2 * r)) (t + (if r % 2 = 1 then k1 else k0) + BitVec.ofNat 64 r)

/-- Seedwheel (R204). -/
def seedwheel (k0 k1 ctr w : Word) : Word × Word :=
  let x := seedRounds k0 k1 8 0 (ctr ^^^ k0) (w ^^^ k1)
  ((x.1 ^^^ (x.2 >>> 29)) * 0x8F1B6C3DE5A294B7, x.2)

/-- The draw uniform as a multiple of 2^−53 (R205). -/
def drawUniform (seed ctr : Nat) : Nat :=
  ((seedwheel (BitVec.ofNat 64 seed) (BitVec.ofNat 64 (seed / 2 ^ 64)) (BitVec.ofNat 64 ctr) 0).1 >>> 11).toNat

/-! ### The sampler (R199, R200, R202) -/

/-- A sampling profile. -/
structure Profile where
  temp : Nat
  topK : Nat
  topP : Nat
  minP : Nat
deriving DecidableEq, Repr

/-- The profile that bytes spell; none where it gives greedy decoding with EV_SEL_PROFILE_BAD. -/
def profileOf (b : List Byte) : Option Profile :=
  let t := recGet b 0 4
  let bad := match f32 t with
    | .num neg m _ => neg && decide (m ≠ 0)
    | _ => true
  if !(recGet b 16 1).testBit 0 || bad then none else some ⟨t, recGet b 4 4, recGet b 8 4, recGet b 12 4⟩

/-- Whether a code is a number in (0, 1), or in (0, 1] with `closed`. -/
def inUnit (closed : Bool) (c : Nat) : Bool :=
  let one := FVal.num false 1 0
  (FVal.num false 0 0).lt (f32 c) && ((f32 c).lt one || (closed && !one.lt (f32 c) && !(f32 c).isNaN))

/-- A code at least another as numbers. -/
def f32Ge (a b : FVal) : Bool := !a.lt b && !a.isNaN && !b.isNaN

/-- The weights of candidates from their scaled logits (R202 step 5). -/
def weights (ys : List Nat) : List Nat :=
  let top := ys.foldl f32Max f32NegInf
  match f32 top with
  | .inf false => ys.map (fun y => if y = top then 0x3F800000 else 0)
  | .inf true => ys.zipIdx.map (fun e => if e.2 = 0 then 0x3F800000 else 0)
  | _ => ys.map (fun y => f32Exp (f32Sub y top))

/-- Running FP32 sums. -/
def runningSums : (acc : Nat) → List Nat → List Nat
  | _, [] => []
  | acc, w :: l => let a := f32Add acc w; a :: runningSums a l

/-- The running sums from the first weight. -/
def prefixSums : List Nat → List Nat
  | [] => []
  | w :: l => w :: runningSums w l

/-- Steps 3 to 8 of R202 over a ranked row: the token drawn. -/
def drawFrom (p : Profile) (vocab u : Nat) (row : List Entry) : Option Nat :=
  let k := if p.topK = 0 then vocab else min p.topK 1048576
  let cand := row.take k
  let ws := weights (cand.map (fun e => f32Div e.value p.temp))
  let pairs := (cand.map (·.index)).zip ws
  let top := ws.foldl f32Max 0
  let pairs := if inUnit true p.minP then
      pairs.zipIdx.filterMap (fun e => if e.2 = 0 || !(f32 e.1.2).lt ((f32 p.minP).mul (f32 top)) then some e.1 else none)
    else pairs
  let pairs := if inUnit false p.topP then
      let sums := prefixSums (pairs.map (·.2))
      let s := sums.getLastD 0
      let n := (sums.findIdx (fun c => f32Ge (f32 c) ((f32 p.topP).mul (f32 s)))) + 1
      pairs.take (max 1 n)
    else pairs
  let sums := prefixSums (pairs.map (·.2))
  let t := f32 (sums.getLastD 0)
  let goal := t.mul (.num false u (-53))
  match (pairs.zip sums).find? (fun e => goal.lt (f32 e.2)) with
  | some e => some e.1.1
  | none => (pairs.getLast?).map (·.1)

/-- A token selected from a masked row (R202): the argmax under greedy decoding, else a draw; none where the row holds no valid
entry. -/
def selectToken (p : Option Profile) (vocab u : Nat) (masked : List Entry) : Option Nat :=
  let row := ranked masked
  match row with
  | [] => none
  | e :: _ => match p with
    | none => some e.index
    | some p => if (f32 p.temp).isZero then some e.index else drawFrom p vocab u row

end Sys2Proof.Machine
end

