-- ==== Sys2Proof/Machine/Stall.lean ====
section
/-! DEFINITION. The commands of the stall engine and the events and messages it acts on (R28 to R74, R90, R91, R635). -/

namespace Sys2Proof.Machine

/-- A stall command run: the checks of R396, the handle checks of R29, the command's fields, STL_CTRL.EN, then its effect on the
slot (R635). `held` marks the commands that wait while a checkpoint is taken (R585), `retire` STALL_RETIRE, the one command that an index
with a shard on an ABSENT Hive still takes (R568). -/
def State.stallCmdOn (s : State) (c : Cmd) (long held remoteOk retire : Bool) (fieldsOk : Nat → Bool) (body : Nat → State → State) : State :=
  (if held then s.runHeld c .tenant false else s.runCmd c .tenant false) (fun s =>
    match s.checkHandle ((s.issuerTenant c.issuer).getD 0) c.handle.toNat remoteOk with
    | .error (st, r0, r1) => s.completeWith c long st r0 r1 0
    | .ok i =>
      if !fieldsOk i then s.completeWith c long CS.badCommand 0 0 0
      else if !s.on Fld.STL_CTRL_EN then s.completeWith c long CS.notReady 0 0 0
      else if !retire && s.indexLost i then s.completeWith c long CS.absentUnit 0 0 0
      else body i s)

def State.stallCmd (s : State) (c : Cmd) (long held remoteOk : Bool) (fieldsOk : Nat → Bool) (body : Nat → State → State) : State :=
  s.stallCmdOn c long held remoteOk false fieldsOk body

/-! ### STALL_CREATE (R44, R46, R635) -/

/-- Step 3 of R635 for STALL_CREATE: its own fields. -/
def State.createFieldsOk (s : State) (c : Cmd) (t : Nat) : Bool :=
  let kind := opByte c 32
  let home := opByte c 35
  decide (kind ≤ 2) && decide (opByte c 33 ≤ 7) && decide (opByte c 34 ≤ 3) && decide (opU32 c 40 ≤ 2097152) &&
    decide (opU16 c 44 < 32) && decide (opByte c 47 = 0) &&
    (decide (home = 0xFF) || (decide (home < 16) && (if kind = 0 then s.fullHive t home else s.partitionHive t home)))

/-- Step 4 of R635 for STALL_CREATE: the enables. -/
def State.createEnabled (s : State) (c : Cmd) (t : Nat) : Bool :=
  s.on Fld.STL_CTRL_EN && (decide (opByte c 32 ≠ 0) ||
    (s.on Fld.KV_CTRL_EN && s.on (Fld.KV_SHAPE_VALID (s.tenantShape t)) && s.on Fld.TX_CTRL_EN && s.on (Fld.TX_CFG_VALID t) &&
      s.on Fld.SEL_CTRL_EN && (decide (c.addrA = 0) || s.on Fld.GR_CTRL_EN) && decide (s.get Fld.STL_DIRTY_MAX_MAX ≠ 0)))

/-- The SEED of a new stall: the command's, or one drawn from the generator when it is zero (R466). -/
def State.createSeed (s : State) (c : Cmd) : Nat × State :=
  if opU128 c 48 ≠ 0 then (opU128 c 48, s)
  else
    let (a, s) := s.drawFree
    let (b, s) := s.drawFree
    (a.toNat + b.toNat * 2 ^ 64, s)

/-- The layers of a new session, each with its page list and page 0, all on Hive `h` (R46, R88). -/
def State.newLayers (s : State) (i h pageMin pageMax recBytes : Nat) : (n : Nat) → Option (List Layer × State)
  | 0 => some ([], s)
  | n + 1 =>
    match s.takeLayer h (.stall i) pageMin pageMax recBytes 0 0 with
    | none => none
    | some (l, s) => (s.newLayers i h pageMin pageMax recBytes n).map (fun r => (l :: r.1, r.2))

/-- The Tier 1 structures of a new session on its home Hive (R84, R88). -/
def State.newTable (s : State) (i h shape : Nat) : Option (PageTable × State) :=
  let pmin := s.get (Fld.KV_SHAPE_PAGE_MIN shape)
  let pmax := s.get (Fld.KV_SHAPE_PAGE_MAX shape)
  let recBytes := s.shapeRec shape
  match s.alloc h 2 2 (.stall i) with
  | none => none
  | some (g, s) => (s.newLayers i h pmin pmax recBytes (s.get (Fld.KV_SHAPE_LAYERS shape))).map (fun r =>
      (⟨4096 * g, shape, pmin, pmax, shapeCapOf pmin pmax recBytes, recBytes, s.get (Fld.KV_SHAPE_SPREAD_LOG2 shape), 0xFFFFFFFF,
        r.1⟩, r.2))

/-- The header of a new stall (R34, R44, R46). -/
def State.newHeader (s : State) (c : Cmd) (t handle home seed grStart : Nat) : Header :=
  let session := opByte c 32 = 0
  { handle := handle, kind := opByte c 32, tenant := t, priority := opByte c 33, deadPolicy := opByte c 34, flags := opU16 c 44
    homeHive := home, lengthCap := if opU32 c 40 = 0 then 2097152 else opU32 c 40, endToken := opU32 c 36, seed := seed
    grImage := if session then c.addrA.toNat else 0, grState := grStart, stopSet := if session then c.addrB.toNat else 0
    epoch := 1, ownerDev := s.deviceId, shedPorts := if opByte c 46 = 0 then s.get Fld.STL_JOURNAL_PORTS_PORTS else opByte c 46
    budgetAccount := t, createdYt := s.now, shapeDims := if session then s.shapeDims (s.tenantShape t) else 0 }

/-- The resources of STALL_CREATE in the order of R635 step 7, and the stall made HOT. -/
def State.createStall (s : State) (c : Cmd) (t grStart : Nat) : State :=
  let kind := opByte c 32
  let quota := s.get (Fld.TN_QUOTA_STALLS t)
  if s.on Fld.STL_CTRL_HOLD_CREATE then s.complete c CS.noResource
  else if quota ≤ s.tenantStalls t then (s.raise { code := 0x0A05, tenant := some t }).complete c CS.noResource
  else match firstBelow (fun i => decide ((s.stall i).state = .free)) stallSlots, s.freePoolSlot with
  | some i, some k =>
    let home : Option Nat :=
      if opByte c 35 ≠ 0xFF then some (opByte c 35)
      else s.roomiest (if kind = 0 then s.fullHive t else s.partitionHive t)
    match home with
    | none => s.complete c CS.noResource
    | some h =>
      if kind = 0 && !(List.range 16).any (s.fullHive t) then s.complete c CS.noResource
      else
        let gen := (s.stall i).gen
        let handle := stallHandle i gen t kind
        let shape := s.tenantShape t
        let (seed, s1) := s.createSeed c
        let base : Stall := { gen := gen, state := .hot, ownerDev := s.deviceId, epoch := 1, handle := handle, shape := shape
                              pageMin := s.get (Fld.KV_SHAPE_PAGE_MIN shape), pageMax := s.get (Fld.KV_SHAPE_PAGE_MAX shape)
                              spread := s.get (Fld.KV_SHAPE_SPREAD_LOG2 shape), hdr := s.newHeader c t handle h seed grStart }
        let base := { base with shedPorts := base.hdr.shedPorts }
        if kind ≠ 0 then ((s1.setStall i base).takePoolSlot i k).complete c CS.ok handle
        else match s1.newTable i h shape with
          | none => s.complete c CS.noResource
          | some (table, s2) =>
            let layers := table.layers.length
            let s3 := s2.setStall i { base with table := some table, hdr := { base.hdr with
              ptRoot := table.addr, layerMap := List.replicate layers h } }
            ((s3.takePoolSlot i k).writePageHeaders i).complete c CS.ok handle
  | _, _ => s.complete c CS.noResource

/-- What the next command does, whoever issues it. -/
def State.stallCreate (s : State) (c : Cmd) : State :=
  s.runHeld c .tenant false (fun s =>
    let t := (s.issuerTenant c.issuer).getD 0
    let session := opByte c 32 = 0
    if s.allocStopped then s
    else if !s.createFieldsOk c t then s.complete c CS.badCommand
    else if !s.createEnabled c t then s.complete c CS.notReady
    else
      match (if session && c.addrA ≠ 0 then (s.grammarImage t c.addrA.toNat).map (·.start) else .ok 0) with
      | .error st => (s.raise { code := 0x0802, tenant := some t }).complete c st
      | .ok start =>
        match (if session && c.addrB ≠ 0 then (s.stopSet t c.addrB.toNat).map (fun _ => ()) else .ok ()) with
        | .error st => s.complete c st
        | .ok () => s.createStall c t start)

/-- STALL_CREATE (R44, R46, R635). -/
def execStallCreate (c : Cmd) (s : State) : Host.Outcome State Fault Refusal := next (s.stallCreate c)

/-! ### The other commands of R43 -/

/-- The 4,096 bytes that STALL_QUERY writes at address A (R38): the header as it stands; for a REMOTE stall its directory entry. -/
def State.queryBytes (s : State) (i : Nat) : List Byte :=
  let x := s.stall i
  if x.state = .remote then directoryEntry x ++ List.replicate 4032 0 else headerBytes (s.domainKeys x.hdr.tenant) x.hdr (stateCode x.state)

/-- The root of an initialised index written at address B, unless B is 0 (R212). -/
def State.queryRoot (s : State) (c : Cmd) (i : Nat) : State × Nat :=
  let x := s.stall i
  if c.addrB = 0 || x.hdr.kind ≠ 1 || x.hdr.ptRoot = 0 || x.state ≠ .hot then (s, CS.ok)
  else
    let t := x.hdr.tenant
    match s.readBlocks t x.hdr.ptRoot 4096 with
    | .error st => ((s.afterRead t x.hdr.ptRoot 4096).checkPoison, st)
    | .ok b => match (s.afterRead t x.hdr.ptRoot 4096).writeOut c c.addrB.toNat b with
      | .error st => (s.readInFault c c.addrB.toNat st, st)
      | .ok s => (s, CS.ok)

/-- What the next command does, whoever issues it. -/
def State.stallQuery (s : State) (c : Cmd) : State :=
  s.stallCmd c false false true (fun _ => opZero c 32 63) (fun i s =>
    let s := if (s.stall i).state = .running then s else (s.healHeader i).checkPoison
    let x := s.stall i
    match s.headerStatus i with
    | some st => s.complete c st
    | none =>
    let bytes := s.queryBytes i
    match (if c.addrA = 0 then .ok s else s.writeOut c c.addrA.toNat bytes) with
    | .error st => (s.readInFault c c.addrA.toNat st).complete c st
    | .ok s =>
      let r := s.queryRoot c i
      if r.2 ≠ CS.ok then r.1.complete c r.2 else r.1.complete c CS.ok (stateCode x.state) x.epoch x.hdr.committedLen)

/-- STALL_QUERY (R38, R212): the header, or a REMOTE stall's directory entry, written at address A unless A is 0; a PARKED stall's header is read from the Shed and checked (R36). -/
def execStallQuery (c : Cmd) (s : State) : Host.Outcome State Fault Refusal := next (s.stallQuery c)

/-- What the next command does, whoever issues it. -/
def State.stallConfig (s : State) (c : Cmd) : State :=
  s.stallCmd c false true false (fun i =>
      let on (b : Nat) : Bool := (opU16 c 32).testBit b
      decide (opU16 c 32 < 256) && opZero c 34 39 && opZero c 60 63 && (!on 0 || decide (opByte c 40 ≤ 7)) &&
        (!on 1 || decide (opByte c 41 ≤ 3)) && (!on 2 || decide (opU16 c 42 < 32)) &&
        (!on 3 || decide ((s.stall i).hdr.committedLen ≤ opU32 c 44 ∧ opU32 c 44 ≤ 2097152)))
    (fun i s => s.nowOrDeferred i 0x22 c)

/-- STALL_CONFIG (R45); on a RUNNING stall it takes effect when the step ends (R25, R38). -/
def execStallConfig (c : Cmd) (s : State) : Host.Outcome State Fault Refusal := next (s.stallConfig c)

/-- What the next command does, whoever issues it. -/
def State.stallPark (s : State) (c : Cmd) : State :=
  s.stallCmd c false true false (fun i => opZero c 33 63 && decide ((s.stall i).hdr.kind ≠ 1))
    (fun i s => s.nowOrDeferred i 0x23 c)

/-- STALL_PARK (R48): the park starts, or is deferred to the end of the step. -/
def execStallPark (c : Cmd) (s : State) : Host.Outcome State Fault Refusal := next (s.stallPark c)

/-- PARK_WRITES_DONE (R48 steps 2 to 7). -/
def execParkWritesDone (i : Nat) (s : State) : Host.Outcome State Fault Refusal :=
  next ((if (s.stall i).park.isSome then s.tend i else s).finishPark i).advanceTeardowns

/-- What the next command does, whoever issues it. -/
def State.stallRevive (s : State) (c : Cmd) : State :=
  let fetch := (opByte c 33).testBit 0
  s.stallCmd c false true fetch (fun i =>
      decide (opByte c 32 ≤ 1) && decide (opByte c 33 ≤ 1) && (decide (opByte c 34 < 16) || decide (opByte c 34 = 0xFF)) &&
        opZero c 35 63 && (!fetch || decide ((s.stall i).state = .remote)))
    (fun i s =>
      let x := s.stall i
      if x.state = .remote then
        if x.fetchCmd.isSome then s.complete c CS.notReady (stateCode x.state) 0x24
        else (s.setStall i { x with fetchCmd := some (coreOf c) }).sendDevice 0x06 x.ownerDev x.hdr.tenant x.headerAt x.headerAt 0
      else s.nowOrDeferred i 0x24 c)

/-- STALL_REVIVE (R50); with FETCH on a REMOTE stall it sends FETCH to the owner (R66). -/
def execStallRevive (c : Cmd) (s : State) : Host.Outcome State Fault Refusal := next (s.stallRevive c)

/-- REVIVE_READS_DONE (R50 steps 2, 4 and 5, R58, R112, R160). Nothing is read while a warning of a power loss stands (R142), and nothing placed while an audit stops allocation (R47). -/
def execReviveReadsDone (i : Nat) (bad : Option Nat) (tagOk : Bool) (s : State) : Host.Outcome State Fault Refusal :=
  next (if s.allocStopped || s.on Fld.PW_STATUS_PARKING then s else s.finishRevive i bad tagOk)

/-- REVIVE_RETRY (R51): a deferred revive tried again; one that fails again raises EV_STALL_REVIVE_DEFERRED. -/
def execReviveRetry (i : Nat) (s : State) : Host.Outcome State Fault Refusal :=
  let x := s.stall i
  next (match x.result with
    | some w =>
      if w.retryAt.any (fun t => decide (t ≤ s.now)) && stallReady x [.parked] && !s.on Fld.PW_STATUS_PARKING then
        (s.setStall i { x with result := some { w with retryAt := none } }).startRevive i ⟨.result true, true, 0xFF⟩
      else s
    | none => s)

/-- What the next command does, whoever issues it. -/
def State.stallMigrate (s : State) (c : Cmd) : State :=
  s.stallCmd c true true false (fun i =>
      decide (opU16 c 32 < 4096) && decide (opByte c 34 ≤ 1) && opZero c 35 63 && decide ((s.stall i).hdr.kind ≠ 1))
    (fun i s =>
      let x := s.stall i
      if x.state ≠ .running && !stallReady x [.hot, .waiting, .parked] then s.stallRefuses c i true
      else match (if x.state = .running then .ok s else s.intoPool i) with
      | .error st => s.completeWith c true st 0 0 0
      | .ok _ => s.beginOp c 0x25 [i] true (fun op s =>
        if x.state = .running then s.nowOrDeferred i (0x25 + 256 * op) c else s.doMigrate op c i))

/-- STALL_MIGRATE (R62): a long operation; on a RUNNING stall it stays QUEUED until the step ends. -/
def execStallMigrate (c : Cmd) (s : State) : Host.Outcome State Fault Refusal := next (s.stallMigrate c)

/-- What the next command does, whoever issues it. -/
def State.stallResume (s : State) (c : Cmd) : State :=
  s.stallCmd c false true false (fun i =>
      opZero c 36 63 && (decide (opU32 c 32 = 0) || (decide ((s.stall i).hdr.kind = 0) && decide (opU32 c 32 ≤ s.get Fld.TX_INPUT_BYTES_BYTES))))
    (fun i s => s.nowOrDeferred i 0x26 c)

/-- STALL_RESUME (R44, R161, R179, R634). -/
def execStallResume (c : Cmd) (s : State) : Host.Outcome State Fault Refusal := next (s.stallResume c)

/-- What the next command does, whoever issues it. -/
def State.stallRetire (s : State) (c : Cmd) : State :=
  s.stallCmdOn c false true false true (fun _ => opZero c 32 63) (fun i s => s.nowOrDeferred i 0x27 c)

/-- STALL_RETIRE (R40). -/
def execStallRetire (c : Cmd) (s : State) : Host.Outcome State Fault Refusal := next (s.stallRetire c)

/-- What the next command does, whoever issues it. -/
def State.stallFree (s : State) (c : Cmd) : State :=
  s.stallCmd c false true false (fun _ => opZero c 32 63) (fun i s => s.nowOrDeferred i 0x28 c)

/-- STALL_FREE (R40). -/
def execStallFree (c : Cmd) (s : State) : Host.Outcome State Fault Refusal := next (s.stallFree c)

/-- RETIRE_HOLD_EXPIRY (R40): STL_RETIRE_HOLD after its retirement a stall's slot returns to FREE. -/
def execRetireHoldExpiry (i : Nat) (s : State) : Host.Outcome State Fault Refusal :=
  let x := s.stall i
  next (if x.state = .retired && x.retiredAt + s.get Fld.STL_RETIRE_HOLD_NS ≤ s.now && !s.merging i then s.freeSlot i else s)

/-- What the next command does, whoever issues it. -/
def State.stallForget (s : State) (c : Cmd) : State :=
  s.stallCmd c false true true (fun _ => opZero c 32 63) (fun i s => s.nowOrDeferred i 0x29 c)

/-- STALL_FORGET (R40). -/
def execStallForget (c : Cmd) (s : State) : Host.Outcome State Fault Refusal := next (s.stallForget c)

/-- What the next command does, whoever issues it. The command names no stall: its handle is 0 (R395) and takes no checks of R29. -/
def State.booksAudit (s : State) (c : Cmd) : State :=
  s.runHeld c .tenant false (fun s =>
    if !opZero c 32 63 then s.refuse c CS.badCommand
    else if !s.on Fld.STL_CTRL_EN then s.refuse c CS.notReady
    else s.beginOp c 0x2A [] false (fun _ s => { s with allocStopped := true }))

/-- BOOKS_AUDIT (R47): allocation and reservation stop until the audit ends. -/
def execBooksAudit (c : Cmd) (s : State) : Host.Outcome State Fault Refusal := next (s.booksAudit c)

/-- Granules by which the page books do not balance (R70), the sum over the Hives of how far each is out. -/
def State.pageImbalance (s : State) : Nat :=
  ((List.range 16).map (fun h =>
    let sum := s.pageBook h 1 + s.pageBook h 2 + s.pageBook h 3 + s.pageBook h 4
    if sum ≤ s.pageBook h 0 then s.pageBook h 0 - sum else sum - s.pageBook h 0)).foldl (· + ·) 0

/-- Tokens by which the budget books do not balance (R70): granted − consumed + refunded = remaining; the sum over the accounts of how far each is out. -/
def State.budgetImbalance (s : State) : Nat :=
  (if s.firstPeriod then [] else (List.range 256).map (fun t =>
    let want := s.get (Fld.TN_GRANTED_TOKENS t) + s.get (Fld.TN_REFUNDED_TOKENS t)
    let have_ := s.get (Fld.TN_CONSUMED_TOKENS t) + s.get (Fld.TN_REMAINING_TOKENS t)
    if want ≤ have_ then have_ - want else want - have_)).foldl (· + ·) 0

/-- Whether every in-hand and in-flight term of the books is 0 (R47). -/
def State.booksQuiet (s : State) : Bool :=
  (List.range 16).all (fun h => s.pageBook h 4 = 0) && (List.range 256).all (fun t => s.get (Fld.TN_QUEUED_TOKENS t) = 0)

/-- BOOKS_AUDIT_COMPARE (R47): once nothing is in hand or in flight, the books are compared and the audit ends; a book that does not balance ends it FAILED with CS_INTEGRITY. -/
def execBooksAuditCompare (slot : Nat) (s : State) : Host.Outcome State Fault Refusal :=
  let o := s.op slot
  next (if o.live && o.opcode = 0x2A && o.st = .running && s.booksQuiet then
      let pages := s.pageImbalance
      let tokens := s.budgetImbalance
      let s := { s with allocStopped := false }
      if pages = 0 && tokens = 0 then s.endOp slot .done CS.ok 0 0
      else (s.raise { code := 0x0607, detail := [pages, tokens] }).endOp slot .failed CS.integrity pages tokens
    else s)

/-! ### Timers and the engine's own work -/

/-- WAIT_TIMEOUT (R52): a WAITING stall whose time is up is parked; a result that it holds untokenised has cancelled the timeout. -/
def execWaitTimeout (i : Nat) (s : State) : Host.Outcome State Fault Refusal :=
  let x := s.stall i
  let t := if x.hdr.waitTimeout = 0 then s.get Fld.STL_WAIT_DEFAULT_NS else x.hdr.waitTimeout
  next (if x.state = .waiting && !flagOn x 4 && (busyOpcode x).isNone && x.hdr.kind ≠ 1 && t ≠ 0xFFFFFFFFFFFFFFFF &&
      x.heldInput.isEmpty && x.hdr.waitStart + t ≤ s.now then s.startPark i 0 none else s)

/-- JOURNAL_RECORD_WRITE (R56, R57, R111): the journal catches up with a stall's committed positions, and with its header. `bad`
names a port and an erase block that failed on the way (R139). -/
def execJournalRecordWrite (i tokens : Nat) (bad : Option (Nat × Nat)) (s : State) : Host.Outcome State Fault Refusal :=
  let x := s.stall i
  let owning := [StallState.hot, .running, .waiting].contains x.state && x.hdr.kind ≠ 1
  next (if owning && s.writablePorts ≠ 0 then
      let s := (match bad with | some b => s.badBlock b.1 b.2 | none => s).tend i
      (s.journalUpTo i 0 tokens).elim s (fun s => s.journal i 0 (.header (s.stall i).hdr))
    else s)

/-- LAYER_RELOCATE_DONE (R90): a layer's copy ends; its entry and LAYER_MAP name the new Hive and the old pages go to
quarantine. -/
def execLayerRelocateDone (i layer : Nat) (s : State) : Host.Outcome State Fault Refusal :=
  let s := s.tend i
  let x := s.stall i
  next (match x.relocs.find? (fun r => r.layer = layer), x.table with
    | some r, some p =>
      match p.layers[layer]? with
      | none => s
      | some old =>
        let t := x.hdr.tenant
        let copied := (List.zip old.pages r.pages).foldl (fun s pp =>
          s.writeT1 t pp.2.addr (s.rawBytes pp.1.addr (4096 * 2 ^ pp.1.size))) s
        let released := old.pages.foldl (fun s pg => s.quarantine (pg.addr / 4096) (pageGranules pg.size))
          (copied.quarantine (old.list / 4096) 1)
        let owned := r.pages.foldl (fun s pg => { s with t1 := s.t1.own (pg.addr / 4096) (pageGranules pg.size) (.stall i) })
          { released with t1 := released.t1.own (r.list / 4096) 1 (.stall i) }
        let fresh : Layer := ⟨r.list, (List.range r.pages.length).filterMap (fun j =>
          (r.pages[j]?).map (fun pg => { pg with scale := ((old.pages[j]?).map (·.scale)).getD 0 })), old.filled⟩
        let owned := (r.pages.drop old.pages.length).foldl (fun s pg =>
          s.writeT1 t pg.addr (pageHeader x.handle pg.scale pg.firstToken layer pg.size p.shape)) owned
        let s := owned.setStall i { x with
          table := some { p with layers := p.layers.set layer fresh }
          relocs := x.relocs.filter (fun q => q.layer ≠ layer)
          hdr := { x.hdr with layerMap := x.hdr.layerMap.set layer r.hive } }
        s.stallEvent 0x0705 i [layer]
    | _, _ => s)

/-- QUARANTINE_SCRUB_DONE (R49, R124): quarantined granules are clear blocks and free. -/
def execQuarantineScrubDone (start len : Nat) (s : State) : Host.Outcome State Fault Refusal :=
  next (if s.t1.allOwned Owner.isQuarantine start len then { s with t1 := (s.t1.clear start len).free start len }.advanceTeardowns else s)

/-! ### Tool results and announcements (R54, R55, R161) -/

/-- A message of types 0x01 to 0x0C, or a RESULT, is held while a checkpoint is taken (R585): it has no effect until it is repeated. -/
def State.heldMsg (s : State) (f : State → State) : State := if s.freezing then s else f s

/-- A message for a REMOTE stall answered with REDIRECT (R63). -/
def State.redirect (s : State) (m : Msg) (i : Nat) : State :=
  let x := s.stall i
  (s.send { type := 0x0A, src := s.deviceId, dst := m.src, tenant := x.hdr.tenant, msgId := x.handle, aux := x.headerAt,
            payload := bytesOf 2 x.ownerDev }).bump (Fld.NW_STAT_COUNT 5) 1

/-- RESULT_RECEIVED (R55, R63). -/
def execResultReceived (m : Msg) (s : State) : Host.Outcome State Fault Refusal :=
  next (s.heldMsg (fun s =>
    (match s.slotOf m.handle with
      | none => s
      | some i => if (s.stall i).state = .remote then s.redirect m i else s.soon i (.result m none))))

/-- ANNOUNCE_RECEIVED (R54). -/
def execAnnounceReceived (m : Msg) (s : State) : Host.Outcome State Fault Refusal :=
  next (match s.slotOf m.handle with
    | none => s
    | some i =>
      let x := s.stall i
      if x.state = .remote then s.redirect m i
      else if stallReady x [.parked] && flagOn x 1 && x.hdr.toolCallId ≠ 0 && x.hdr.toolCallId = m.msgId && x.result.isNone then
        s.startRevive i ⟨.announce, false, 0xFF⟩
      else s)

/-! ### Migration messages (R62 to R66) -/

/-- PREPARE_RECEIVED (R62 step 3): the copy is taken, or refused with ABORT. -/
def execPrepareReceived (m : Msg) (tagOk : Bool) (s : State) : Host.Outcome State Fault Refusal :=
  next (s.heldMsg (fun s =>
    (match m.image with
      | none => s
      | some (h, records) =>
        if (s.destCopy m.src m.msgId).isSome then s
        else if !tagOk then s.refusePrepare m CS.integrity
        else if s.allocStopped then s
        else if !s.on Fld.STL_CTRL_EN then s.refusePrepare m CS.notReady
        else s.receivePrepare m h records (recGet m.payload 8 1))))

/-- PREPARED_RECEIVED (R62 step 4): COMMIT is sent, unless the operation is suspended (R65). -/
def execPreparedReceived (m : Msg) (s : State) : Host.Outcome State Fault Refusal :=
  next (s.heldMsg (fun s =>
    (match s.slotOf m.msgId with
      | none => s.sendAbort m.src m.tenant m.msgId CS.timeout
      | some i =>
        let x := s.stall i
        match x.mig with
        | some mg =>
          if x.state = .moving && x.hdr.migRole = 1 && x.hdr.migPhase = 1 && x.hdr.peerDev = m.src then
            let s := s.setStall i { x with mig := some { mg with destHandle := m.aux }, hdr := { x.hdr with migPhase := 2 } }
            let held : Bool := match mg.op with
              | some op => (s.op op).st = .suspending || (s.op op).st = .suspended
              | none => false
            if held then s else s.sendCommit i
          else s.sendAbort m.src m.tenant m.msgId CS.timeout
        | none => s.sendAbort m.src m.tenant m.msgId CS.timeout)))

/-- COMMIT_RECEIVED (R62 step 5); a copy no longer held is answered with ABORT (R64). -/
def execCommitReceived (m : Msg) (s : State) : Host.Outcome State Fault Refusal :=
  next (s.heldMsg (fun s =>
    (match s.destCopy m.src m.msgId with
      | none => s.sendAbort m.src m.tenant m.msgId CS.timeout
      | some j => if (s.stall j).state = .moving then s.commitDest j ((s.stall j).hdr.prepEpoch + 1) else s)))

/-- COMMITTED_RECEIVED (R62 step 6). -/
def execCommittedReceived (m : Msg) (s : State) : Host.Outcome State Fault Refusal :=
  next (s.heldMsg (fun s =>
    State.advanceTeardowns (match s.slotOf m.msgId with
      | none => s
      | some i =>
        let x := s.stall i
        if x.state = .moving && x.hdr.migRole = 1 && x.hdr.migPhase = 3 && x.hdr.peerDev = m.src then
          s.sourceDone i (match x.mig with | some mg => mg.destHandle | none => 0) m.aux
        else s)))

/-- ABORT_RECEIVED (R64, R113): a source returns to PRIOR_STATE, a destination frees its copy, a fetch ends. -/
def execAbortReceived (m : Msg) (s : State) : Host.Outcome State Fault Refusal :=
  next (s.heldMsg (fun s =>
    let reason := m.aux % 256
    let asSource : Option Nat := (s.slotOf m.msgId).filter (fun i =>
      let x := s.stall i
      x.state = .moving && x.hdr.migRole = 1 && x.hdr.peerDev = m.src)
    State.advanceTeardowns (match asSource with
      | some i => s.cancelSource i .failed reason
      | none => match s.destCopy m.src m.msgId with
        | some j => if (s.stall j).state = .moving then s.freeCopy j reason else s
        | none => s.failFetch m.src m.msgId reason)))

/-- SOURCE_PREP_LEASE_EXPIRY (R64): no PREPARED came in time. -/
def execSourcePrepLeaseExpiry (i : Nat) (s : State) : Host.Outcome State Fault Refusal :=
  let x := s.stall i
  next (if x.state = .moving && x.hdr.migRole = 1 && x.hdr.migPhase = 1 && x.leaseExpiry ≤ s.now then
      (s.sendAbort x.hdr.peerDev x.hdr.tenant x.handle CS.timeout).cancelSource i .failed CS.timeout
    else s)

/-- SOURCE_COMMIT_LEASE_EXPIRY (R64): no COMMITTED came in time. -/
def execSourceCommitLeaseExpiry (i : Nat) (s : State) : Host.Outcome State Fault Refusal :=
  let x := s.stall i
  next <| State.advanceTeardowns (match x.mig with
    | some mg =>
      if x.state = .moving && x.hdr.migRole = 1 && x.hdr.migPhase = 3 && x.leaseExpiry ≤ s.now then
        if s.isDown x.hdr.peerDev then s.promoteSource i else s.askOwner i x.hdr.peerDev mg.destHandle
      else s
    | none => s)

/-- DEST_LEASE_EXPIRY (R64): no COMMIT came in time. -/
def execDestLeaseExpiry (i : Nat) (s : State) : Host.Outcome State Fault Refusal :=
  let x := s.stall i
  next (match x.mig with
    | some mg =>
      if x.state = .moving && x.hdr.migRole = 2 && x.leaseExpiry ≤ s.now then
        if s.isDown x.hdr.peerDev then s.promoteDest i else s.askOwner i x.hdr.peerDev mg.destHandle
      else s
    | none => s)

/-- OWNER_QUERY_RETRY (R64): STL_LEASE_PREP ÷ 4 after the last query, the party in doubt checks and asks again. -/
def execOwnerQueryRetry (i : Nat) (s : State) : Host.Outcome State Fault Refusal :=
  let x := s.stall i
  next <| State.advanceTeardowns (match x.mig with
    | some mg =>
      if x.state = .moving && x.leaseExpiry ≤ s.now && mg.lastQuery + s.get Fld.STL_LEASE_PREP_NS / 4 ≤ s.now then
        if x.hdr.migRole = 2 then
          if s.isDown x.hdr.peerDev then s.promoteDest i else s.askOwner i x.hdr.peerDev mg.destHandle
        else if x.hdr.migRole = 1 && x.hdr.migPhase = 3 then
          if s.isDown x.hdr.peerDev then s.promoteSource i else s.askOwner i x.hdr.peerDev mg.destHandle
        else s
      else s
    | none => s)

/-- The leases of a migration renewed from its source (R65). -/
def State.renewLease (s : State) (i : Nat) : State :=
  let x := s.stall i
  let lease := s.now + s.get Fld.STL_LEASE_PREP_NS
  let s := s.setStall i { x with
    leaseExpiry := lease, mig := x.mig.map (fun m => { m with lastRenew := s.now }), hdr := { x.hdr with leaseExpiry := lease } }
  s.sendDevice 0x0C x.hdr.peerDev x.hdr.tenant 0 x.handle lease

/-- LEASE_RENEW_SEND (R65): while the operation is SUSPENDING or SUSPENDED, every STL_LEASE_PREP ÷ 4. -/
def execLeaseRenewSend (i : Nat) (s : State) : Host.Outcome State Fault Refusal :=
  let x := s.stall i
  next (match x.mig with
    | some mg =>
      let held : Bool := match mg.op with
        | some op => (s.op op).st = .suspending || (s.op op).st = .suspended
        | none => false
      if x.state = .moving && x.hdr.migRole = 1 && held && mg.lastRenew + s.get Fld.STL_LEASE_PREP_NS / 4 ≤ s.now then s.renewLease i else s
    | none => s)

/-- LEASE_RENEW_RECEIVED (R65). -/
def execLeaseRenewReceived (m : Msg) (s : State) : Host.Outcome State Fault Refusal :=
  next (s.heldMsg (fun s =>
    (match s.destCopy m.src m.msgId with
      | some j =>
        let x := s.stall j
        if x.state = .moving then s.setStall j { x with leaseExpiry := m.aux, hdr := { x.hdr with leaseExpiry := m.aux } } else s
      | none => s)))

/-- FETCH_RECEIVED (R66): the owner's answer. -/
def execFetchReceived (m : Msg) (s : State) : Host.Outcome State Fault Refusal :=
  next (s.heldMsg (fun s =>
    (match s.slotOf m.msgId with
      | none => s.sendDevice 0x07 m.src m.tenant 0 m.msgId CS.staleGeneration
      | some i => if (s.stall i).state = .remote then s.redirect m i else s.answerFetch i m.src m.msgId)))

/-- FETCH_REFUSED_RECEIVED (R66). -/
def execFetchRefusedReceived (m : Msg) (s : State) : Host.Outcome State Fault Refusal :=
  next (s.heldMsg (fun s =>
    (s.failFetch m.src m.msgId (m.aux % 256))))

/-- The REMOTE entries that name a pair made to name another (R66, R429). -/
def State.repoint (s : State) (dev handle dev' handle' : Nat) (epoch : Option Nat) : State :=
  { s with stalls := s.stalls.map (fun e =>
      if e.2.state = .remote ∧ e.2.ownerDev = dev ∧ e.2.headerAt = handle then
        (e.1, { e.2 with ownerDev := dev', headerAt := handle', epoch := epoch.getD e.2.epoch })
      else e) }

/-- REDIRECT_RECEIVED (R66): entries follow the redirect, and a fetch goes on to the owner named. -/
def execRedirectReceived (m : Msg) (s : State) : Host.Outcome State Fault Refusal :=
  next (s.heldMsg (fun s =>
    let owner := recGet m.payload 0 2
    let k := s.fetchSlot m.src m.msgId
    let s := s.repoint m.src m.msgId owner m.aux none
    (match k with
      | some k => s.sendDevice 0x06 owner (s.stallTenant k) m.aux m.aux 0
      | none => s)))

/-! ### Ownership in doubt (R64, R68, R69, R429) -/

/-- The slot that an OWNER_QUERY asks about: by this device's handle, or by the source's where a destination's copy came from the sender under it. -/
def State.askedSlot (s : State) (m : Msg) : Option Nat := (s.slotOf m.msgId) <|> (s.destCopy m.src m.msgId)

/-- OWNER_QUERY_RECEIVED: answered with this device's epoch, state and kind of copy; a query from the very device that this one
takes for the owner puts the stall in doubt (R68). -/
def execOwnerQueryReceived (m : Msg) (s : State) : Host.Outcome State Fault Refusal :=
  next (s.heldMsg (fun s =>
    (match s.askedSlot m with
      | none => s.send { type := 0x09, src := s.deviceId, dst := m.src, tenant := m.tenant, handle := m.msgId, msgId := m.msgId,
                         payload := bytesOf 1 0 ++ bytesOf 1 2 }
      | some i =>
        let x := s.stall i
        let s := if x.state = .remote && x.ownerDev = m.src then s.orphan i else s
        let remote := decide (x.state = .remote) || (decide (x.state = .orphaned) && decide (x.hdr.priorState = stateCode .remote))
        let kind := if remote then 2 else if x.hdr.prepEpoch ≠ 0 then 1 else 0
        s.send { type := 0x09, src := s.deviceId, dst := m.src, tenant := m.tenant, handle := m.msgId, msgId := m.msgId, aux := x.epoch,
                 payload := bytesOf 1 (stateCode (s.stall i).state) ++ bytesOf 1 kind })))

/-- Whether a stall's other holder is the pair given: the peer of its migration, the owner its directory entry names, or the pair it came from. -/
def Stall.knows (x : Stall) (dev handle : Nat) : Bool :=
  (decide (x.hdr.peerDev = dev) && (match x.mig with | some m => decide (m.destHandle = handle ∨ (m.destHandle = 0 ∧ x.handle = handle)) | none => false)) ||
    (decide (x.location = 2) && decide (x.ownerDev = dev ∧ x.headerAt = handle)) || decide (x.origin = some (dev, handle))

/-- The slot whose stall device `dev` knows by `handle`. -/
def State.peerSlot (s : State) (dev handle : Nat) : Option Nat :=
  (s.stalls.find? (fun e => decide (e.2.state ≠ .free) && e.2.knows dev handle)).map (·.1)

/-- OWNER_ANSWER_RECEIVED (R64, R69). -/
def execOwnerAnswerReceived (m : Msg) (s : State) : Host.Outcome State Fault Refusal :=
  next (s.heldMsg (fun s =>
    let state := recGet m.payload 0 1
    let kind := recGet m.payload 1 1
    State.advanceTeardowns (match s.peerSlot m.src m.msgId with
      | none => s
      | some i =>
        let x := s.stall i
        if x.state = .orphaned then
          if state ≠ 7 && kind = 0 && x.hdr.epoch < m.aux then s.dropCopy i m.src m.msgId m.aux
          else if kind = 2 then s
          else s.learnCopy i ⟨m.src, m.msgId, m.aux, decide (kind = 0)⟩
        else if x.state = .moving && x.leaseExpiry ≤ s.now then
          if x.hdr.migRole = 1 && x.hdr.migPhase = 3 then
            if m.aux = x.epoch + 1 && kind = 0 then s.sourceDone i m.msgId m.aux
            else (s.sendAbort m.src x.hdr.tenant x.handle CS.timeout).cancelSource i .failed CS.timeout
          else if x.hdr.migRole = 2 then (if state = 5 then s.orphan i else s.freeCopy i CS.timeout)
          else s
        else s)))

/-- ORPHAN_TIMEOUT (R69). -/
def execOrphanTimeout (i : Nat) (s : State) : Host.Outcome State Fault Refusal :=
  let x := s.stall i
  next <| State.advanceTeardowns (if x.state = .orphaned && x.hdr.orphanSince + s.get Fld.STL_ORPHAN_TIMEOUT_NS ≤ s.now then s.resolveOrphan i else s)

/-- The slot of the stall that an OWNER_NOTICE is about: one that this device holds as the old or the new pair, or whose other holder is one of them. -/
def State.noticeSlot (s : State) (owner handle oldDev oldHandle : Nat) : Option Nat :=
  let held (dev h : Nat) : Option Nat := if dev = s.deviceId then s.slotOf h else s.peerSlot dev h
  held oldDev oldHandle <|> held owner handle

/-- OWNER_NOTICE_RECEIVED (R429): entries for the old pair follow; a holder that takes itself for the owner and learns of a claim
at an epoch not below its own puts the stall in doubt (R68), and a holder in doubt keeps the claim or, where its epoch is higher, drops its copy (R69). -/
def execOwnerNoticeReceived (m : Msg) (s : State) : Host.Outcome State Fault Refusal :=
  next (s.heldMsg (fun s =>
    let owner := recGet m.payload 0 2
    let oldDev := recGet m.payload 2 2
    let oldHandle := recGet m.payload 4 8
    let s := s.repoint oldDev oldHandle owner m.msgId (some m.aux)
    let claim : CopyInfo := ⟨owner, m.msgId, m.aux, true⟩
    match (if owner = s.deviceId then none else s.noticeSlot owner m.msgId oldDev oldHandle) with
    | none => s
    | some i =>
      let x := s.stall i
      if x.state = .remote then
        if x.epoch ≤ m.aux then s.setStall i { x with ownerDev := owner, headerAt := m.msgId, epoch := m.aux } else s
      else if x.state = .orphaned then
        if x.hdr.epoch < m.aux then s.dropCopy i owner m.msgId m.aux else s.learnCopy i claim
      else if x.state = .moving && x.hdr.migRole = 1 && x.hdr.peerDev = owner then s
      else if x.state ≠ .retired && x.epoch ≤ m.aux then (s.orphan i).learnCopy i claim
      else s))

end Sys2Proof.Machine
end

