-- ==== Sys2Proof/Machine/EngineOps.lean ====
section
/-! DEFINITION. What the text, grammar and selection engines do for a stall's step, whoever asks: stop matching, tool calls, masks and draws
(R162 to R180, R202, R203), and how a Hub instruction hands a request to an engine (R279). -/

namespace Sys2Proof.Machine

/-! ### Requests of Hub instructions (R278, R279) -/

/-- A request to an engine that its enable allows; without it the answer is CS_NOT_READY, and CS_ABSENT_UNIT once the last engine of its
ENGINE kind is lost (R564). -/
def State.engine (s : State) (n : Insn) (y : UnitX) (pair : Bool) (kind : Nat) (en : RegField) (act : State → Cmd → State) : Did :=
  let c := s.hubCmd n
  s.request n y pair c none (fun s =>
    if s.kindLost kind then s.complete c CS.absentUnit else if s.on en then act s c else s.complete c CS.notReady)

/-- A request spelt by a 64-byte block at A, with its completion record at `record` where one is asked for: an unreadable block answers with the
read's status, an opcode that does not fit or a record address that is not the tenant's with CS_BAD_COMMAND. -/
def State.blockRequest (s : State) (n : Insn) (y : UnitX) (pair : Bool) (record : Option Nat) (opOk : Nat → Bool)
    (act : State → Nat → Cmd → State) : Did :=
  let h := s.hubCmd n
  let t := (s.context n.slot).tenant
  let at_ := y.num n n.a
  match s.readIn h at_ 0 64 with
  | .error st => s.request n y pair h none (fun s => (s.afterRead t at_ 64).checkPoison.complete h st)
  | .ok b =>
    let s := (s.afterRead t at_ 64).checkPoison
    let c := blockCmd n b
    let op := recGet b 0 1
    let recordOk := match record with | some a => s.tenantOwns t a 32 | none => true
    if !recordOk || !opOk op then s.request n y pair c none (fun s => s.complete c CS.badCommand)
    else s.request n y pair c record (fun s => act s op c)

/-- The stall that an engine request names, RUNNING, or the status that answers the request (R258, R293). -/
def State.runningStall (s : State) (c : Cmd) (h : Nat) : Except Nat Nat :=
  match s.checkHandle ((s.issuerTenant c.issuer).getD 0) h false with
  | .error e => .error e.1
  | .ok i =>
    if (s.stall i).state = .orphaned then .error CS.orphaned
    else if (s.stall i).state = .running then .ok i
    else .error CS.notReady

/-- The same for a stall whose header is in the pool: HOT, RUNNING or WAITING with no state-changing command in progress. -/
def State.liveStall (s : State) (c : Cmd) (h : Nat) : Except Nat Nat :=
  match s.checkHandle ((s.issuerTenant c.issuer).getD 0) h false with
  | .error e => .error e.1
  | .ok i =>
    if (s.stall i).state = .orphaned then .error CS.orphaned
    else if (s.stall i).state = .running || stallReady (s.stall i) [.hot, .waiting] then .ok i
    else .error CS.notReady

/-! ### Text (R162 to R169) -/

/-- A token's bytes, or the event and the status with which it is refused (R163). -/
def State.usableToken (s : State) (i tok : Nat) : Except (Nat × Nat) (List Byte) :=
  let t := s.stallTenant i
  if s.vocabSize t ≤ tok then .error (0x0808, CS.badCommand)
  else (s.tokenBytes t tok).mapError (fun st => (0x0807, st))

/-- The lookups of a token's bytes (R158). -/
def State.lookToken (s : State) (i tok : Nat) : State := s.lookUp (s.stallTenant i) (s.tokenLines (s.stallTenant i) tok)

/-- A token refused (R163): the event, PAUSED set, the step abandoned. -/
def State.refuseToken (s : State) (i code : Nat) : State := (s.stallEvent code i).abandonPaused i

/-- Whether a token is the stall's END_TOKEN; one at or above the vocabulary size means none (R34). -/
def State.isEnd (s : State) (i tok : Nat) : Bool :=
  decide (tok = (s.stall i).hdr.endToken) && decide (tok < s.vocabSize (s.stallTenant i))

/-- The strings of a stall's stop set; none where it has none (R164). -/
def State.stopStrings (s : State) (i : Nat) : Except Nat (List (List Byte)) :=
  let h := (s.stall i).hdr
  if h.stopSet = 0 then .ok [] else s.stopSet h.tenant h.stopSet

/-- A token's bytes put through the stop matcher (R166, R167): the state, the status, and how many bytes were emitted. -/
def State.matchStops (s : State) (i : Nat) (strings : List (List Byte)) (bytes : List Byte) : State × Nat × Nat :=
  let x := s.text i
  let held := x.stop.heldBytes.take x.stop.held
  let stream := held ++ bytes
  match stopMatch strings stream held.length with
  | some (k, e) =>
    let out := stream.take (e - (strings.getD k []).length)
    let s := s.emitBytes i out
    (s.setText i { x with spill := stream.drop e, stop := { x.stop with held := 0, heldBytes := [], lastStop := k } }, CS.stopped, out.length)
  | none =>
    let k := heldLength strings stream
    let out := stream.take (stream.length - k)
    let s := s.emitBytes i out
    (s.setText i { x with stop := { x.stop with held := k, heldBytes := stream.drop (stream.length - k) } }, CS.ok, out.length)

/-- `tx.stop` on a token (R166, R167, R180). Inside a call the stop matcher does not run; TOOL_CLOSE outside one has no bytes (R169), and TOOL_OPEN none unless they complete a
stop string (R180). -/
def State.runStop (s : State) (i tok : Nat) : State × Nat × Nat :=
  let t := s.stallTenant i
  let x := s.text i
  if x.stop.inCall = 1 then (s, CS.ok, 0)
  else if s.isEnd i tok then ((s.flushHeld i).setLastStop i 0xFE, CS.stopped, x.stop.held)
  else if s.toolClose t = some tok then (s, CS.ok, 0)
  else match s.usableToken i tok with
  | .error e => ((s.lookToken i tok).refuseToken i e.1, e.2, 0)
  | .ok bytes => match s.stopStrings i with
    | .error st => ((s.lookToken i tok).refuseToken i 0x0807, st, 0)
    | .ok strings =>
      let held := x.stop.heldBytes.take x.stop.held
      if s.toolOpen t = some tok && (stopMatch strings (held ++ bytes) held.length).isNone then (s.lookToken i tok, CS.ok, 0)
      else (s.lookToken i tok).matchStops i strings bytes

/-- A tool call's message (R422), carrying CALL_ID. -/
def State.callSend (s : State) (i type aux : Nat) (bytes : List Byte) : State :=
  s.stepSend i (s.stallMsg i type 0xF001 (s.text i).stop.callId aux bytes)

/-- A call ended by an abort fragment, with LAST_STOP (R169). -/
def State.abortCall (s : State) (i lastStop : Nat) : State :=
  let s := s.callSend i 0x12 lastStop []
  let x := s.text i
  s.setText i { x with stop := { x.stop with inCall := 0, lastStop := lastStop } }

/-- CALL_ID of a call that opens (R168). -/
def State.newCallId (s : State) (i : Nat) : Nat :=
  let step := ((s.stall i).hdr.step + 1) % 2 ^ 30
  s.deviceId * 2 ^ 52 + i * 2 ^ 30 + (if step = 0 then 0x3FFFFFFF else step)

/-- `tx.call` on a token (R168, R169, R180): the state, the status, and whether TOOL_CLOSE closed the call. -/
def State.runCall (s : State) (i tok : Nat) : State × Nat × Nat :=
  let t := s.stallTenant i
  let x := s.text i
  if x.stop.inCall = 0 then
    if s.toolOpen t = some tok then
      let s := s.flushHeld i
      let x := s.text i
      (s.setText i { x with stop := { x.stop with inCall := 1, callBytes := 0, callId := s.newCallId i } }, CS.ok, 0)
    else (s, CS.ok, 0)
  else if s.isEnd i tok then (s.abortCall i 0xFE, CS.stopped, 0)
  else if s.toolClose t = some tok then
    let s := s.callSend i 0x11 x.stop.callBytes []
    let x := s.text i
    (s.setText i { x with callId := x.stop.callId, stop := { x.stop with inCall := 0 } }, CS.ok, 1)
  else if s.toolOpen t = some tok then (s, CS.ok, 0)
  else match s.usableToken i tok with
  | .error e => ((s.lookToken i tok).refuseToken i e.1, e.2, 0)
  | .ok bytes =>
    let s := s.lookToken i tok
    if bytes.isEmpty then (s, CS.ok, 0)
    else if s.get Fld.TX_CALL_MAX_BYTES < x.stop.callBytes + bytes.length then
      ((s.abortCall i 0xFD).stallEvent 0x0806 i, CS.stopped, 0)
    else
      let s := s.callSend i 0x10 x.stop.callBytes bytes
      let x := s.text i
      (s.setText i { x with stop := { x.stop with callBytes := x.stop.callBytes + bytes.length } }, CS.ok, 0)

/-! ### Masks (R173 to R177) -/

/-- A walk over tokens, each by its bytes (R174); a token that cannot be read fails it. -/
def State.walkTokens (s : State) (t : Nat) (g : GrammarImage) : List Nat → GrammarConfig → Walk
  | [], c => .at_ c
  | tok :: rest, c =>
    match s.tokenBytes t tok with
    | .error _ => .fails
    | .ok b => match s.walk t g b c with
      | .at_ c => s.walkTokens t g rest c
      | w => w

/-- The mask of position `j` of a stall's step: every token for a stall without a grammar, else that of the committed configuration moved
through the drafts before the position (R177). -/
def State.positionMask (s : State) (i j : Nat) : Mask :=
  let x := s.stall i
  let t := x.hdr.tenant
  if x.hdr.grImage = 0 then ⟨List.range (s.vocabSize t), false, false⟩
  else
    let drafts := ((x.step.map (·.drafts)).getD []).take j
    let c := textOf x.hdr
    match s.grammarImage t x.hdr.grImage with
    | .error _ => ⟨[], false, true⟩
    | .ok g => match s.walkTokens t g drafts ⟨c.grState, c.grStack⟩ with
      | .at_ c => s.maskAt t g c x.hdr.endToken
      | .fails => ⟨[], false, false⟩
      | .malformed => ⟨[], false, true⟩

/-- A position's mask handed to selection, the first in a step with its events and GR_SLOW_CNT (R173, R176, R298). The mask walks the drafts before its position and the vocabulary. -/
def State.noteMask (s : State) (i j : Nat) (m : Mask) : State :=
  let x := s.stall i
  match x.step with
  | none => s
  | some p =>
    if x.hdr.grImage = 0 then s
    else if p.masks.any (fun e => e.1 = j) then
      s.setStall i { x with step := some { p with masks := (j, m.allowed) :: p.masks.filter (fun e => e.1 ≠ j) } }
    else
      let s := s.setStall i { x with step := some { p with masks := (j, m.allowed) :: p.masks } }
      let s := (p.drafts.take j ++ List.range (s.vocabSize x.hdr.tenant)).foldl (fun s tok => s.lookToken i tok) s
      let s := if m.malformed then s.stallEvent 0x0802 i else s
      if m.slow then (s.bump Fld.GR_SLOW_CNT_COUNT 1).stallEvent 0x0803 i else s

/-! ### Draws (R199 to R203) -/

/-- The row of a draw: every logit of the vocabulary, or the entries of a ranked list with its header (R299, R300). -/
def State.drawRow (s : State) (t addr : Nat) (list : Bool) : State × Except Nat (List Entry) :=
  if list then
    if !s.tenantOwns t addr 16 then (s, .error CS.badCommand)
    else match s.reading1 t addr 16 with
    | (s, .error st) => (s, .error st)
    | (s, .ok h) =>
      let n := recGet h 0 4
      if !s.tenantOwns t addr (16 + 16 * n) then (s, .error CS.badCommand)
      else let r := s.reading1 t (addr + 16) (16 * n); (r.1, r.2.map (entriesOf n))
  else
    let n := s.vocabSize t
    if !s.tenantOwns t addr (4 * n) then (s, .error CS.badCommand)
    else
      let r := s.reading1 t addr (4 * n)
      (r.1, r.2.map (fun b => (List.range n).map (fun k => ⟨recGet b (4 * k) 4, k, 0⟩)))

/-- A position with no token to select (R178): counted, the event raised, and what policy 1 forces, with LAST_STOP. -/
def State.grammarDead (s : State) (i : Nat) : State × Nat :=
  let x := s.stall i
  let forced := decide (x.hdr.deadPolicy = 1 ∧ x.hdr.endToken < s.vocabSize x.hdr.tenant)
  let s := s.setStall i { x with step := x.step.map (fun p => { p with dead := true }) }
  let s := (s.bump Fld.GR_DEAD_CNT_COUNT 1).stallEvent 0x0801 i [if x.hdr.grImage = 0 then 0 else x.hdr.grState]
  if forced then (s.setLastStop i 0xFE, x.hdr.endToken) else (s, 0xFFFFFFFF)

/-- `gr.adv` (R174): the configuration moved on by a token; the status. Something malformed is handled as dead grammar (R173). -/
def State.advanceGrammar (s : State) (i tok : Nat) : State × Nat :=
  let x := s.stall i
  let t := x.hdr.tenant
  if x.hdr.grImage = 0 then (s, CS.ok)
  else match s.usableToken i tok with
  | .error e => ((s.lookToken i tok).refuseToken i e.1, e.2)
  | .ok bytes =>
    let s := s.lookToken i tok
    let bad : State × Nat := (((s.stallEvent 0x0802 i).grammarDead i).1, CS.grammarDead)
    match s.grammarImage t x.hdr.grImage with
    | .error _ => bad
    | .ok g =>
      let c := s.text i
      match s.walk t g bytes ⟨c.grState, c.grStack⟩ with
      | .at_ d => (s.setText i { c with grState := d.q, grStack := d.stack }, CS.ok)
      | .fails => (s, CS.grammarDead)
      | .malformed => bad

/-- The token of position `j` selected (R202, R203): the state, the status and the token. -/
def State.drawAt (s : State) (i j row : Nat) (list : Bool) (profile : Option (List Byte)) : State × Nat × Nat :=
  let x := s.stall i
  let t := x.hdr.tenant
  match s.drawRow t row list with
  | (s, .error st) => (s, st, 0xFFFFFFFF)
  | (s, .ok entries) =>
    let kept := (x.step.bind (fun p => p.masks.find? (fun e => e.1 = j))).map (·.2)
    let m := s.positionMask i j
    let s := if kept.isSome then s else s.noteMask i j m
    let tokens := kept.getD m.allowed
    let allowed := entries.filter (fun e => tokens.contains e.index)
    let s := s.noteNaN (allowed.map (·.value)) t x.handle
    match selectToken (profile.bind profileOf) (s.vocabSize t) (drawUniform x.hdr.seed (x.hdr.sampleCtr + j)) allowed with
    | none => let d := s.grammarDead i; (d.1, CS.grammarDead, d.2)
    | some tok =>
      let s := s.bump Fld.SEL_DRAWS_COUNT 1
      let y := s.stall i
      (s.setStall i { y with step := y.step.map (fun p => { p with draws := p.draws ++ [⟨j, tok⟩] }) }, CS.ok, tok)

/-- The profile of a draw (R200, R299): where the address is that of the stall's profile, the copy of the composition point, so that a write to the table takes effect from the
next step on; else the 32 bytes read at issue, with EV_SEL_PROFILE_BAD where they give greedy decoding. -/
def State.drawProfile (s : State) (i addr : Nat) : State × Option (List Byte) :=
  let x := s.stall i
  match x.step with
  | none => (s, none)
  | some p =>
    if addr = p.profileAt then (s, p.profile)
    else
      let r := s.reading1 x.hdr.tenant addr 32
      let b : Option (List Byte) := match r.2 with | .ok b => some b | .error _ => none
      (if (b.bind profileOf).isNone then r.1.stallEvent 0x0904 i else r.1, b)

/-! ### Merging and gathering (R193 to R198) -/

/-- A merge as SELECT and `sl.merge` do it: with `header`, the result begins with the header of R300. Answers the status, the count of
valid entries and the DUP count. -/
def State.selectLists (s : State) (t tag : Nat) (header : Bool) (k lists flags rowLen at_ dest : Nat) : State × Nat × Nat × Nat :=
  let gather := flags.testBit 1
  let pre := if header then 16 else 0
  let len := pre + 16 * k + (if gather then k * rowLen else 0)
  if k = 0 || 1048576 < k || lists = 0 || 65536 < lists || 4 ≤ flags || (gather && !rowBytesOk rowLen) then (s, CS.badCommand, 0, 0)
  else if !s.on Fld.SEL_CTRL_EN then (s, CS.notReady, 0, 0)
  else if !s.tenantOwns t at_ (32 * lists) || !s.tenantOwns t dest len then (s, CS.badCommand, 0, 0)
  else match s.reading1 t at_ (32 * lists) with
  | (s, .error st) => (s, st, 0, 0)
  | (s, .ok db) =>
    let ds := listDescs lists db
    if !ds.all (fun d => d.count = 0 || s.tenantOwns t d.addr (16 * d.count)) then (s, CS.badCommand, 0, 0)
    else match s.readLists t (ds.filter (fun d => d.count ≠ 0)) with
    | (s, .error st) => (s, st, 0, 0)
    | (s, .ok ls) =>
      if !ls.all sortedList then (s, CS.badCommand, 0, 0)
      else
        let s := s.noteNaN (ls.flatten.map (·.value)) t 0 [tag]
        let m := mergeEntries (flags.testBit 0) k ls.flatten
        let count := m.1.length
        let fewer := decide (count < k)
        let slots := padTo k m.1
        let g := if gather then s.gatherRows t ds rowLen slots else (s, [], none)
        let status := g.2.2.getD (if fewer then CS.fewer else CS.ok)
        let head := if header then bytesOf 4 count ++ bytesOf 4 m.2 ++ bytesOf 8 status else []
        let s := g.1.writeT1 t dest (head ++ slots.flatMap entryBytes ++ g.2.1)
        (s.noteMerge (some t) tag m.2 fewer, status, count, m.2)

/-- The first list descriptor of a shard, from an address on, among at most `fuel`. -/
def State.findDesc (s : State) (t shard : Nat) : (fuel addr : Nat) → Except Nat ListDesc
  | 0, _ => .error CS.badCommand
  | fuel + 1, addr =>
    if !s.tenantOwns t addr 32 then .error CS.badCommand
    else match s.readT1 t addr 32 with
    | .error st => .error st
    | .ok b => match listDescs 1 b with
      | [d] => if d.shard = shard then .ok d else s.findDesc t shard fuel (addr + 32)
      | _ => .error CS.badCommand

/-- `sl.gather` (R196, R299): rows for the slots that a result's header counts. -/
def State.gatherResult (s : State) (t result dest descs rowLen : Nat) : State × Nat :=
  if !rowBytesOk rowLen || !s.tenantOwns t result 16 then (s, CS.badCommand)
  else match s.reading1 t result 16 with
  | (s, .error st) => (s, st)
  | (s, .ok h) =>
    let n := recGet h 0 4
    if !s.tenantOwns t result (16 + 16 * n) || !s.tenantOwns t dest (n * rowLen) then (s, CS.badCommand)
    else match s.reading1 t (result + 16) (16 * n) with
    | (s, .error st) => (s, st)
    | (s, .ok b) =>
      let slots := entriesOf n b
      match (slots.filter Entry.valid).mapM (fun e => s.findDesc t e.shard 65536 descs) with
      | .error st => (s, st)
      | .ok ds =>
        let g := s.gatherRows t ds rowLen slots
        (g.1.writeT1 t dest g.2.1, g.2.2.getD CS.ok)

end Sys2Proof.Machine
end

