-- ==== Sys2Proof/Machine/Network.lean ====
section
/-! DEFINITION. The session transport: the Trondi class NW, datagrams received and repeated, acknowledgement and acceptance, Waggles, the Yard
map and its members (R302, R303, R340, R341, R420 to R433, R440, R441). -/

namespace Sys2Proof.Machine

/-! ### `nw.send` (R302) -/

/-- A tenant message for a handle: a REMOTE stall's at its owner under its handle there (R31); otherwise the spec names no device, and the
destination is a free value. -/
def State.sendTarget (s : State) (h : Nat) : State × Nat × Nat :=
  match s.slotOf h with
  | some i =>
    let x := s.stall i
    if x.state = .remote then (s, x.ownerDev, x.headerAt) else let f := s.drawFree; (f.2, f.1.toNat % 4096, h)
  | none => let f := s.drawFree; (f.2, f.1.toNat % 4096, h)

/-- A message whose acceptance is awaited from now on. -/
def State.awaitAccept (s : State) (m : Msg) : State := { s with net := { s.net with unaccepted := s.net.unaccepted ++ [(m, s.now)] } }

/-- `nw.send` (R302, R422, R424): a message of a tenant type, sent under the class SEND of its tenant and kept until it is accepted. Its MSG_ID
is a free value. -/
def execNwSend (n : Insn) (s : State) : Host.Outcome State Fault Refusal :=
  next (s.runInsn n 0x20 0 { side := .hub, d := .s, a := .s, b := .sOrI, c := .s, imm := true } (fun s y =>
    s.engine n y false 6 Fld.NW_CTRL_EN (fun s c =>
      let t := (s.context n.slot).tenant
      let at_ := y.num n n.a
      let len := y.num n n.b
      let h := y.num n n.c
      let type := n.imm.toNat % 256
      let handleBad : Option Nat := if h = 0 then none else match s.checkHandle t h true with | .error e => some e.1 | .ok _ => none
      if type < 0x80 || 0xC0 ≤ type then s.complete c CS.badCommand
      else match handleBad, s.readIn c at_ 0 len with
      | some st, _ => s.complete c st
      | none, .error st => (s.afterRead t at_ len).checkPoison.complete c st
      | none, .ok b =>
        let s := (s.afterRead t at_ len).checkPoison
        let dest := s.sendTarget h
        let id := dest.1.drawFree
        let m : Msg := { type := type, src := s.deviceId, dst := dest.2.1, tenant := t, handle := dest.2.2, msgId := id.1.toNat, payload := b }
        ((id.2.send m).awaitAccept m).complete c CS.ok)))

/-! ### `nw.recv` (R303) -/

def State.inboxOf (s : State) (t : Nat) : List Msg := sparseGet [] s.net.inbox t
def State.setInbox (s : State) (t : Nat) (l : List Msg) : State := { s with net := { s.net with inbox := sparsePut [] t l s.net.inbox } }

/-- The bytes a message takes in an inbox and in the buffer of `nw.recv`: the header of its last segment, then the whole payload. -/
def deliveredBytes (m : Msg) : Nat := 64 + m.payload.length

/-- A message as `nw.recv` delivers it (R421): SEG and PAYLOAD_LEN give the payload's length as 8,192 × SEG + PAYLOAD_LEN; CLASS, KEY_SEL and
SEQ, which the message does not keep, are those of `free`. -/
def deliveredImage (m : Msg) (free : Word) : List Byte :=
  let n := m.payload.length
  bytesOf 1 1 ++ bytesOf 1 m.type ++ bytesOf 1 (free.toNat % 8) ++ bytesOf 1 (1 + (if m.replayInexact then 4 else 0)) ++ bytesOf 2 m.src ++
    bytesOf 2 m.dst ++ bytesOf 1 m.tenant ++ bytesOf 1 (free.toNat / 2 ^ 8 % 256) ++ bytesOf 2 (n % 8192) ++ bytesOf 4 (n / 8192) ++
    bytesOf 8 (free.toNat / 2 ^ 16) ++ bytesOf 8 m.handle ++ bytesOf 8 m.msgId ++ bytesOf 8 m.step ++ bytesOf 8 m.aux ++ bytesOf 8 m.epoch ++
    m.payload

/-- The status and the second result of a receive of the inbox's first message into a buffer, with the state after: a message that is too
long stays first (R303). -/
def State.takeMessage (s : State) (t buffer len : Nat) (m : Msg) (rest : List Msg) : State × Nat × Nat :=
  if len < deliveredBytes m then (s, CS.noResource, deliveredBytes m)
  else
    let f := s.drawFree
    ((f.2.writeT1 t buffer (deliveredImage m f.1)).setInbox t rest, CS.ok, deliveredBytes m)

/-- The unit's registers after `nw.recv`. -/
def recvResult (y : UnitX) (d status len : Nat) : UnitX := (y.setS d (BitVec.ofNat 64 status)).setS (d + 1) (BitVec.ofNat 64 len)

/-- `nw.recv` (R303): the first message, or a wait behind the waits that issued first, or at a deadline past CS_TIMEOUT with a free second
result. -/
def execNwRecv (n : Insn) (s : State) : Host.Outcome State Fault Refusal :=
  next (s.runInsn n 0x20 1 { side := .hub, d := .sPair, a := .s, b := .sOrI, c := .s } (fun s y =>
    let t := (s.context n.slot).tenant
    let buffer := y.num n n.a
    let len := y.num n n.b
    let deadline := y.num n n.c
    let d := n.d.toNat
    let waits := s.net.recvWaits.any (fun w => w.1 = t)
    if !s.tenantOwns t buffer len then .done s (recvResult y d CS.badCommand 0) none
    else match waits, s.inboxOf t with
    | false, m :: rest => let r := s.takeMessage t buffer len m rest; .done r.1 (recvResult y d r.2.1 r.2.2) none
    | _, _ =>
      if deadline ≠ 0 && decide (deadline ≤ s.now) then let f := s.drawFree; .done f.2 (recvResult y d CS.timeout f.1.toNat) none
      else
        let s := s.setUnit n.slot n.unit { y with wait := some (.inbox buffer len deadline d) }
        .hold { s with net := { s.net with recvWaits := s.net.recvWaits ++ [(t, n.slot, n.unit)] } }))

/-- A wait on the inbox ended with a status and a second result. -/
def State.endRecv (s : State) (slot unit d status len : Nat) : State :=
  let y := s.unit slot unit
  let s := { s with net := { s.net with recvWaits := s.net.recvWaits.filter (fun w => w.2 ≠ (slot, unit)) } }
  s.retire slot unit (y.pc + 16) { recvResult y d status len with wait := none }

/-- The waits of a tenant's inbox served in the order of their issue while it holds a message. -/
def State.serveInbox (s : State) (t : Nat) : State :=
  (s.net.recvWaits.filter (fun w => w.1 = t)).foldl (fun s w =>
    match (s.unit w.2.1 w.2.2).wait, s.inboxOf t with
    | some (.inbox buffer len _ d), m :: rest =>
      let r := s.takeMessage t buffer len m rest
      r.1.endRecv w.2.1 w.2.2 d r.2.1 r.2.2
    | _, _ => s) s

/-- NW_RECV_TIMEOUT (R303): the deadline of a unit's `nw.recv` has come. -/
def execNwRecvTimeout (slot unit : Nat) (s : State) : Host.Outcome State Fault Refusal :=
  next (match (s.unit slot unit).wait with
    | some (.inbox _ _ deadline d) =>
      if deadline ≠ 0 && decide (deadline ≤ s.now) then let f := s.drawFree; f.2.endRecv slot unit d CS.timeout f.1.toNat else s
    | _ => s)

/-! ### Members (R432, R433) -/

/-- What the migrations with a device do when it goes down (R64): the waiting party takes the stall. -/
def State.settleWithDown (s : State) (d : Nat) : State :=
  s.stalls.foldl (fun s e =>
    let x := s.stall e.1
    if x.state ≠ .moving || x.hdr.peerDev ≠ d || s.now < x.leaseExpiry then s
    else if x.hdr.migRole = 2 then s.promoteDest e.1
    else if x.hdr.migRole = 1 && x.hdr.migPhase = 3 then s.promoteSource e.1
    else s) s

/-- A change of a device's standing (R433, R426, R68): another member's flow is reset when it goes down, every member's when this device does; this
device, once it is back, puts its MOVING stalls into ORPHANED. -/
def State.setDown (s : State) (d : Nat) (down : Bool) : State :=
  let s := s.setMember d { s.member d with down := down }
  if d = s.deviceId then
    (if down then s.otherMembers.foldl (fun s m => s.resetFlow (flowKey m 0)) s
     else s.stalls.foldl (fun s e => if (s.stall e.1).state = .moving then s.orphan e.1 else s) s)
  else
    let s := s.raise { code := if down then 0x0B05 else 0x0B06, detail := [d] }
    if down then (s.resetFlow (flowKey d 0)).settleWithDown d else s

/-- The marks of all members weighed again (R433). -/
def State.weighMarks (s : State) : State :=
  s.yardMembers.foldl (fun s d =>
    let c := s.markCount d
    let down := s.isDown d
    if !down && c.1 < 2 * c.2 then s.setDown d true
    else if down && c.1 < 2 * (c.1 - c.2) then s.setDown d false
    else s) s

/-- A datagram of a member has arrived (R432). -/
def State.hear (s : State) (d : Nat) : State :=
  if d = s.deviceId || !s.isMember d then s
  else
    let x := s.member d
    let s := s.setMember d { x with heard := s.now, absent := false }
    if x.absent then s.weighMarks else s

/-- The bitmap of the members that this device marks not present. -/
def State.absentBitmap (s : State) : List Byte :=
  let marked := s.otherMembers.filter (fun d => (s.member d).absent)
  tabulate 512 (fun i => BitVec.ofNat 8 (((List.range 8).map (fun b => if marked.contains (8 * i + b) then 2 ^ b else 0)).foldl (· + ·) 0))

/-- HELLO_SEND (R432): to every other member at the count at which NW_CTRL.EN was set and at each whole PERIOD after it. -/
def execHelloSend (s : State) : Host.Outcome State Fault Refusal :=
  let period := s.get Fld.NW_HELLO_PERIOD
  next (match s.net.helloStart with
    | none => s
    | some start =>
      let due := match s.net.helloSent with
        | none => true
        | some last => decide ((last - start) / period < (s.now - start) / period)
      if !due then s
      else
        let payload := s.absentBitmap
        let s := { s with net := { s.net with helloSent := some s.now } }
        s.otherMembers.foldl (fun s d =>
          s.send { type := 0x30, src := s.deviceId, dst := d, aux := s.get Fld.NW_MAP_GEN_GEN, payload := payload }) s)

/-- HELLO_RECEIVED (R432, R433): one with another NW_MAP_GEN is ignored. -/
def execHelloReceived (m : Msg) (s : State) : Host.Outcome State Fault Refusal :=
  let s := s.hear m.src
  next (if m.src = s.deviceId || !s.isMember m.src || m.aux ≠ s.get Fld.NW_MAP_GEN_GEN then s
    else
      let marks := (List.range 4096).filter (fun d => (recGet m.payload (d / 8) 1).testBit (d % 8))
      (s.setMember m.src { s.member m.src with marks := marks }).weighMarks)

/-- MEMBER_MISS_TIMEOUT (R432): nothing came from member `d` for MISS × PERIOD. -/
def execMemberMissTimeout (d : Nat) (s : State) : Host.Outcome State Fault Refusal :=
  let x := s.member d
  next (match s.net.helloStart with
    | none => s
    | some start =>
      if d = s.deviceId || !s.isMember d || x.absent ||
          decide (s.now < max x.heard start + s.get Fld.NW_HELLO_MISS * s.get Fld.NW_HELLO_PERIOD) then s
      else (s.setMember d { x with absent := true }).weighMarks)

/-- The Yard map written (R431, R441, R426): a device that is no member any more loses its flow and its marks; one that becomes a member counts as
heard now (R432). -/
def State.writeMap (s : State) (first count : Nat) (bytes : List Byte) : State :=
  let before := (List.range count).filter (fun k => s.isMember (first + k))
  let s := s.writeT1 544 (s.get Fld.NW_MAP_BASE_BASE + 32 * first) bytes
  let gone := (before.map (first + ·)).filter (fun d => !s.isMember d)
  let s := gone.foldl (fun s d => (s.resetFlow (flowKey d 0)).setMember d {}) s
  let new := (List.range count).filter (fun k => !before.contains k && s.isMember (first + k))
  let s := new.foldl (fun s k => s.setMember (first + k) { s.member (first + k) with heard := s.now }) s
  let gen := (s.get Fld.NW_MAP_GEN_GEN + 1) % 2 ^ 32
  ((s.put Fld.NW_MAP_GEN_GEN gen).raise { code := 0x0B09 }).weighMarks

/-- MAP_SET (R441). Before NW_CTRL.COMMIT places the map there is nothing to write: CS_NOT_READY. -/
def execMapSet (c : Cmd) (s : State) : Host.Outcome State Fault Refusal :=
  next (s.runCmd c .mgmt false (fun s =>
    let first := opU16 c 32
    let count := opU16 c 34
    if count = 0 || 4096 < count || 4096 < first + count then s.complete c CS.badCommand
    else if !s.on Fld.NW_CTRL_COMMIT then s.complete c CS.notReady
    else match s.readIn c c.addrA.toNat 0 (32 * count) with
    | .error st => (s.readInFault c c.addrA.toNat st).complete c st
    | .ok b =>
      let clean (k : Nat) : Bool := decide (recGet b (32 * k + 19) 1 < 2) && ((b.drop (32 * k + 20)).take 12).all (· = 0)
      if !(List.range count).all clean then s.complete c CS.badCommand
      else let s := s.writeMap first count b; s.complete c CS.ok (s.get Fld.NW_MAP_GEN_GEN)))

/-! ### Arrival (R421, R423, R427, R440, R469, R470) -/

/-- A datagram as it arrives (R421), opened: its header with the payload of the segment, and where it stands. -/
structure Arrived where
  seq : Nat
  seg : Nat
  last : Bool
  key : Option Nat
  msg : Msg

/-- Whether a TYPE is one of R422. -/
def typeKnown (t : Nat) : Bool :=
  decide (1 ≤ t ∧ t ≤ 0x0C) || decide (0x10 ≤ t ∧ t ≤ 0x16) || [0x20, 0x21, 0x30, 0x40].contains t || decide (0x80 ≤ t ∧ t < 0xC0)

/-- Whether a party's number is one of R421. -/
def partyKnown (p : Nat) : Bool := decide (p < 0x1000) || p = 0xF000 || p = 0xF001

/-- Whether a datagram's header keeps R421: VERSION, the reserved fields and values, PAYLOAD_LEN. -/
def headerOk (b : List Byte) : Bool :=
  let flags := recGet b 3 1
  let len := recGet b 10 2
  let sealed := flags.testBit 1
  decide (64 ≤ b.length) && decide (recGet b 0 1 = 1) && typeKnown (recGet b 1 1) && decide (recGet b 2 1 < 8) && decide (flags < 8) &&
    partyKnown (recGet b 4 2) && partyKnown (recGet b 6 2) && decide (len ≤ 8192) && (!sealed || decide (12 ≤ len)) &&
    decide (b.length = 64 + len + (if sealed then 16 else 0))

/-- A datagram's message with a payload. -/
def messageOf (b payload : List Byte) : Msg :=
  { type := recGet b 1 1, src := recGet b 4 2, dst := recGet b 6 2, tenant := recGet b 8 1, handle := recGet b 24 8, msgId := recGet b 32 8,
    step := recGet b 40 8, aux := recGet b 48 8, epoch := recGet b 56 8, replayInexact := (recGet b 3 1).testBit 2, payload := payload }

/-- Whether a type's datagrams take the Yard key (R470). -/
def yardType (t : Nat) : Bool := [0x20, 0x21, 0x30, 0x40].contains t

/-- A datagram opened (R469, R470); none where its protection fails. -/
def State.openDatagram (s : State) (b : List Byte) : Option Arrived :=
  let header := b.take 64
  let body := b.drop 64
  let len := recGet b 10 2
  let t := recGet b 8 1
  let type := recGet b 1 1
  let k := recGet b 9 1
  let arrived (key : Option Nat) (payload : List Byte) : Arrived :=
    ⟨recGet b 16 8, recGet b 12 4, (recGet b 3 1).testBit 0, key, messageOf b payload⟩
  if (recGet b 3 1).testBit 1 then
    if !s.on (Fld.SEC_JOB_INSTALLED k) || (k < 255 && s.get (Fld.SEC_JOB_TENANT k) ≠ t) then none
    else (Config.gcmOpen (sparseGet [] s.sec.keys (keyOfJob k)) (body.take 12) header ((body.take len).drop 12) (body.drop len)).map (arrived (some k))
  else if !yardType type && s.on (Fld.SEC_TNET_REQUIRE t) then none
  else some (arrived none (body.take len))

/-- A datagram discarded and counted under R427. -/
def State.badMessage (s : State) (p : Nat) (b : List Byte) : State :=
  (s.bump (Fld.NW_STAT_COUNT 2) 1).raise { code := 0x0B08, subject := p, detail := [recGet b 4 2] }

/-- The queue and port that a register offset of the traffic scheduler belongs to: TS_RATE of queue k, or TS_POLICE of bucket k. -/
def rateQueue (off : Nat) : Option Nat :=
  if 0xE80000 ≤ off ∧ off < 0xF00000 ∧ off % 0x20 = 8 then
    let r := off - 0xE80000
    some (2048 * (r / 0x10000) + 8 * (r % 0x10000 / 0x100) + r % 0x100 / 0x20)
  else none
def policeBucket (off : Nat) : Option Nat :=
  if 0xE20000 ≤ off ∧ off < 0xE24000 then some (256 * ((off - 0xE20000) / 0x800) + (off - 0xE20000) % 0x800 / 8) else none

/-- A queue's buckets at a refill (R436, R437), in units of 1/8000 byte: the rate of one interval added, then clipped to the depth. -/
def State.refillQueue (s : State) (k : Nat) : State :=
  let p := k / 2048
  let t := k / 8 % 256
  let c := k % 8
  let ns := s.get Fld.TS_REFILL_NS
  let depth := 64 * 8000
  let q := s.tqueue k
  s.setTQueue k { q with
    committed := min (s.get (Fld.TS_DEPTH_CBS p t c) * depth) (q.committed + s.get (Fld.TS_RATE_CIR p t c) * ns)
    peak := min (s.get (Fld.TS_DEPTH_PBS p t c) * depth) (q.peak + s.get (Fld.TS_RATE_PIR p t c) * ns) }

/-- A policing bucket at a refill (R440). -/
def State.refillPolice (s : State) (k : Nat) : State :=
  let p := k / 256
  let t := k % 256
  let held := sparseGet 0 s.net.police k
  let full := min (s.get (Fld.TS_POLICE_BURST p t) * 64 * 8000) (held + s.get (Fld.TS_POLICE_RATE p t) * s.get Fld.TS_REFILL_NS)
  { s with net := { s.net with police := sparsePut 0 k full s.net.police } }

/-- A refill of every bucket that holds tokens or has a rate, when its time has come: at whole multiples of TS_REFILL (R436). -/
def State.refillDue (s : State) : State :=
  let at_ := s.now / s.get Fld.TS_REFILL_NS * s.get Fld.TS_REFILL_NS
  if at_ ≤ s.net.refillAt then s
  else
    let rates := s.io.regs.filterMap (fun e => rateQueue e.1)
    let queues := rates ++ (s.net.queues.map (·.1)).filter (fun k => !rates.contains k)
    let buckets := s.io.regs.filterMap (fun e => policeBucket e.1)
    let others := (s.net.police.map (·.1)).filter (fun k => !buckets.contains k)
    let s := { s with net := { s.net with refillAt := at_ } }
    let s := queues.foldl (fun s k => s.refillQueue k) s
    (buckets ++ others).foldl (fun s k => s.refillPolice k) s

/-- Ingress policing (R440): whether the datagram is let through, and the state after. -/
def State.policed (s : State) (p : Nat) (b : List Byte) : State × Bool :=
  let t := recGet b 8 1
  if isControl (recGet b 1 1) || !s.on (Fld.TS_POLICE_EN p t) then (s, true)
  else
    let s := s.refillDue
    let k := 256 * p + t
    let held := sparseGet 0 s.net.police k
    let need := 8000 * (48 + b.length)
    if need ≤ held then ({ s with net := { s.net with police := sparsePut 0 k (held - need) s.net.police } }, true)
    else
      let s := s.bump (Fld.TS_POLICE_DROP_COUNT p) 1
      let quiet := s.net.policedAt.any (fun e => decide (e.1 = k ∧ s.now < e.2 + 1000000000))
      if quiet then (s, false)
      else
        let s := { s with net := { s.net with policedAt := (k, s.now) :: s.net.policedAt.filter (fun e => e.1 ≠ k) } }
        (s.raise { code := 0x0B0A, tenant := some t, subject := p }, false)

/-- An acknowledgement of one datagram (R423, R425). -/
def State.acknowledge (s : State) (a : Arrived) (k : Nat) : State :=
  let t := if a.msg.src < 0xF000 then 0 else a.msg.tenant
  s.send { type := 0x40, src := s.deviceId, dst := a.msg.src, tenant := t, aux := (s.flow k).freed, payload := bytesOf 8 a.seq }

/-- A message of the tenant's inbox (R424, R427): redirected, discarded, or put there and, of a tenant type, accepted. -/
def State.toInbox (s : State) (m : Msg) : State :=
  let t := m.tenant
  let state := (s.slotOf m.handle).map (fun i => ((s.stall i).state, i))
  let full := decide (s.get Fld.NW_INBOX_BYTES < ((s.inboxOf t).map deliveredBytes).foldl (· + ·) 0 + deliveredBytes m)
  match state with
  | some (.remote, i) => if m.type = 0x14 then s else s.redirect m i
  | some (.moving, _) => if m.type = 0x14 then s else s.bump (Fld.NW_STAT_COUNT 7) 1
  | _ =>
    if full then s.bump (Fld.NW_STAT_COUNT 4) 1
    else
      let s := s.setInbox t (s.inboxOf t ++ [m])
      let s := if m.type = 0x14 then s
        else match state with
          | some (_, i) => s.sendAccept m i
          | none => s.send { type := 0x15, src := s.deviceId, dst := m.src, tenant := t, handle := 0, msgId := m.msgId }
      s.serveInbox t

/-- A whole message passed on (R427): inbox messages to their inbox, types that no device accepts discarded and counted; those of other consumers
are handled by the commands of their own. -/
def State.consume (s : State) (p : Nat) (m : Msg) : State :=
  if m.type = 0x14 || 0x80 ≤ m.type then s.toInbox m
  else if [0x10, 0x11, 0x12, 0x16].contains m.type then
    (s.bump (Fld.NW_STAT_COUNT 2) 1).raise { code := 0x0B08, subject := p, detail := [m.src] }
  else s

/-- Whether two datagrams are segments of one message. -/
def sameMessage (a b : Msg) : Bool := decide (a.type = b.type ∧ a.msgId = b.msgId ∧ a.tenant = b.tenant ∧ a.handle = b.handle)

/-- A segment taken; the message passed on once every segment is present (R421). -/
def State.takeSegment (s : State) (p k : Nat) (a : Arrived) : State :=
  let x := s.flow k
  let d : Datagram := { peer := a.msg.src, tenant := a.msg.tenant, seq := a.seq, seg := a.seg, last := a.last, msg := a.msg, bytes := 0 }
  let parts := x.parts ++ [d]
  let mine := parts.filter (fun e => sameMessage e.msg a.msg)
  match mine.find? (·.last) with
  | none => s.setFlow k { x with parts := parts }
  | some l =>
    if !(List.range (l.seg + 1)).all (fun i => mine.any (fun e => e.seg = i)) then s.setFlow k { x with parts := parts }
    else
      let payload := (List.range (l.seg + 1)).flatMap (fun i => ((mine.find? (fun e => e.seg = i)).map (·.msg.payload)).getD [])
      (s.setFlow k { x with parts := parts.filter (fun e => !sameMessage e.msg a.msg) }).consume p { a.msg with payload := payload }

/-- Whether a segment's index lies beyond the last segment of its message (R421). -/
def State.segmentBad (s : State) (k : Nat) (a : Arrived) : Bool :=
  (s.flow k).parts.any (fun e => sameMessage e.msg a.msg && e.last && decide (e.seg < a.seg))

/-- A datagram that passed its checks: heard, acknowledged once it is moved out of its buffer, a repeat discarded (R423). While a
checkpoint is taken, types 0x01 to 0x0C and RESULT are held unacknowledged (R585). -/
def State.accept (s : State) (p : Nat) (a : Arrived) : State :=
  let s := s.hear a.msg.src
  let k := flowKey a.msg.src a.msg.tenant
  if a.msg.type = 0x40 then s
  else if s.freezing && (decide (1 ≤ a.msg.type ∧ a.msg.type ≤ 0x0C) || decide (a.msg.type = 0x14)) then s
  else
    let x := s.flow k
    if x.seen.contains a.seq then (s.bump (Fld.NW_STAT_COUNT 1) 1).acknowledge a k
    else
      let s := s.setFlow k { x with seen := (a.seq :: x.seen).take 65536, freed := x.freed + 1 }
      (s.takeSegment p k a).acknowledge a k

/-- MST_DATAGRAM_RECEIVE (R427, R440): the UDP payload `b` of a datagram that came on port `p`. -/
def execMstDatagramReceive (p : Nat) (b : List Byte) (s : State) : Host.Outcome State Fault Refusal :=
  next (if !s.on Fld.NW_CTRL_EN || !s.netUp p then s
    else if !headerOk b then s.badMessage p b
    else
      let r := s.policed p b
      if !r.2 then r.1
      else
        let s := r.1
        match s.openDatagram b with
        | none => s.badMessage p b
        | some a =>
          if a.msg.dst ≠ s.deviceId || s.segmentBad (flowKey a.msg.src a.msg.tenant) a then s.badMessage p b
          else if !yardType a.msg.type && !s.on (Fld.TN_CTRL_EN a.msg.tenant) then s.bump (Fld.NW_STAT_COUNT 3) 1
          else s.accept p a)

/-! ### Acknowledgement, acceptance, repetition (R423 to R426) -/

/-- ACK_RECEIVED (R423, R425): the datagrams named leave the flow, and FREED returns credits. -/
def execAckReceived (m : Msg) (s : State) : Host.Outcome State Fault Refusal :=
  let s := s.hear m.src
  let k := flowKey m.src m.tenant
  let x := s.flow k
  let named := (List.range (m.payload.length / 8)).map (fun i => recGet m.payload (8 * i) 8)
  let left := x.unacked.filter (fun d => !named.contains d.seq)
  let s := s.unqueue (fun d => decide (flowKey d.peer d.tenant = k) && named.contains d.seq && decide (d.msg.type ≠ 0x40))
  next ((s.setFlow k { x with unacked := left, freedIn := max x.freedIn (min m.aux x.sent),
                              lastAck := if left.length < x.unacked.length then s.now else x.lastAck }).pump k)

/-- ACCEPT_RECEIVED (R424): the tenant message it names is complete. -/
def execAcceptReceived (m : Msg) (s : State) : Host.Outcome State Fault Refusal :=
  let s := s.hear m.src
  next { s with net := { s.net with
    unaccepted := s.net.unaccepted.filter (fun u => !(decide (u.1.dst = m.src ∧ u.1.msgId = m.msgId ∧ u.1.tenant = m.tenant))) } }

/-- Whether an unacknowledged datagram is due to be sent again (R423). -/
def State.retxDue (s : State) (d : Datagram) : Bool :=
  !d.queued && (match d.sentAt with | none => !s.transferPaused d.msg | some t => decide (t + s.get Fld.NW_RETX_NS ≤ s.now))

/-- RETRANSMIT_TIMER (R423): datagram `q` of flow `k` is unacknowledged NW_RETX after it was last sent. -/
def execRetransmitTimer (k q : Nat) (s : State) : Host.Outcome State Fault Refusal :=
  next (match (s.flow k).unacked.find? (fun d => d.seq = q) with
    | none => s
    | some d => if s.retxDue d then s.enqueue d else s)

/-- ACCEPT_TIMER (R424): the `k`-th tenant message without ACCEPT is sent again, whole. -/
def execAcceptTimer (k : Nat) (s : State) : Host.Outcome State Fault Refusal :=
  next (match s.net.unaccepted[k]? with
    | none => s
    | some u =>
      if s.now < u.2 + s.get Fld.NW_ACCEPT_NS then s
      else ({ s with net := { s.net with unaccepted := s.net.unaccepted.set k (u.1, s.now) } }).send u.1)

/-- ENDPOINT_TIMEOUT (R426): no datagram to a tenant's gateway or tool endpoint was acknowledged for NW_EP_TIMEOUT. -/
def execEndpointTimeout (t : Nat) (tool : Bool) (s : State) : Host.Outcome State Fault Refusal :=
  let peer := if tool then 0xF001 else 0xF000
  let k := flowKey peer t
  let x := s.flow k
  next (if (x.unacked.isEmpty && x.waiting.isEmpty) || decide (s.now < x.lastAck + s.get Fld.NW_EP_TIMEOUT_NS) then s
    else (s.resetFlow k).raise { code := 0x0B07, tenant := some t, detail := [peer] })

/-- NW_FLOW_SEL written (R425): the terms of a flow latched. The receive buffers are free, a datagram being moved out as it arrives. -/
def State.writeFlowSel (s : State) (w : RegWrite) : State :=
  s.fromPort w Reg.NW_FLOW_SEL (fun s =>
    let s := s.store w Reg.NW_FLOW_SEL
    let x := s.flow (flowKey (s.get Fld.NW_FLOW_SEL_PEER) (s.get Fld.NW_FLOW_SEL_TENANT))
    ((s.put Fld.NW_FLOW_CREDITS_COUNT (s.credits x)).put Fld.NW_FLOW_INFLIGHT_COUNT (x.sent - x.freedIn)).put Fld.NW_FLOW_FREE_COUNT
      (s.get Fld.NW_CREDITS_CREDITS))

/-- NW_FLOW_SEL_WRITE (R425). -/
def execNwFlowSelWrite (w : RegWrite) (s : State) : Host.Outcome State Fault Refusal := next (s.writeFlowSel w)

/-! ### Waggles (R340, R341, R428) -/

/-- WAGGLE_RECEIVED (R340, R341, R428): accepted where it comes early enough, else refused; a copy of a round already judged is discarded. -/
def execWaggleReceived (m : Msg) (s : State) : Host.Outcome State Fault Refusal :=
  let s := s.hear m.src
  next (if s.net.rounds.contains (m.src, m.msgId) then s
    else
      let s := { s with net := { s.net with rounds := (m.src, m.msgId) :: s.net.rounds } }
      if s.now + s.get Fld.YT_WAGGLE_LEAD_NS ≤ m.aux then
        { s with net := { s.net with shares := s.net.shares ++ [(m.src, m.msgId, m.aux)] } }
      else
        (s.sendDevice 0x21 m.src 0 0 m.msgId s.now).raise { code := 0x0305, detail := [m.msgId, m.src] })

/-- WAGGLE_REFUSE_RECEIVED (R341): a participant has refused this device's round, which goes on elsewhere. -/
def execWaggleRefuseReceived (m : Msg) (s : State) : Host.Outcome State Fault Refusal :=
  let s := s.hear m.src
  next { s with net := { s.net with refusals := s.net.refusals ++ [(m.msgId, m.src)] } }

end Sys2Proof.Machine
end

