-- ==== Sys2Proof/Machine/Traffic.lean ====
section
/-! DEFINITION. Traffic control, gate lists, ports and lanes (R418 to R420, R434 to R439, R441, R443, R470, R471). -/

namespace Sys2Proof.Machine

/-! ### Keys of datagrams sent (R470, R471) -/

/-- Whether a datagram can be sent under its key: one already sent is repeated unchanged; else the slot is installed, for its tenant, and not
used up. -/
def State.keyReady (s : State) (d : Datagram) : Bool :=
  match d.key with
  | none => true
  | some k => decide (0 < d.tries) ||
      (s.on (Fld.SEC_JOB_INSTALLED k) && (k = 255 || decide (s.get (Fld.SEC_JOB_TENANT k) = d.msg.tenant)) && !s.sec.exhausted.contains k)

/-- One more datagram sent under a slot's key (R471): USES wraps at the 2^32th, which uses the key up. -/
def State.useKey (s : State) (k : Nat) : State :=
  let s := s.bump (Fld.SEC_JOB_USES k) 1
  if s.get (Fld.SEC_JOB_USES k) ≠ 0 then s
  else (s.setSec { s.sec with exhausted := s.sec.exhausted ++ [k] }).raise { code := 0x0C05, tenant := if k = 255 then none else some (s.get (Fld.SEC_JOB_TENANT k)), subject := k }

/-- A message's payload (R422): a PREPARE carries the journal records behind its header. -/
def msgPlain (m : Msg) : List Byte := m.payload ++ (match m.image with | some i => i.2.flatMap journalRecord | none => [])

/-- The MST header of a datagram whose payload field holds `len` bytes (R421). AUX of OUTPUT stands on the last segment. -/
def State.mstHeader (s : State) (d : Datagram) (len : Nat) : List Byte :=
  let m := d.msg
  let flags := (if d.last then 1 else 0) + (if d.key.isSome then 2 else 0) + (if m.replayInexact then 4 else 0)
  bytesOf 1 1 ++ bytesOf 1 m.type ++ bytesOf 1 (s.msgClass m) ++ bytesOf 1 flags ++ bytesOf 2 m.src ++ bytesOf 2 m.dst ++ bytesOf 1 m.tenant ++
    bytesOf 1 (d.key.getD 0) ++ bytesOf 2 len ++ bytesOf 4 d.seg ++ bytesOf 8 d.seq ++ bytesOf 8 m.handle ++ bytesOf 8 m.msgId ++ bytesOf 8 m.step ++
    bytesOf 8 (if m.type = 0x16 && !d.last then 0 else m.aux) ++ bytesOf 8 m.epoch

/-- The UDP payload of a datagram sent for the first time (R421, R469): header, payload, and with protection a nonce from the generator, the
ciphertext and the tag. -/
def State.sealDatagram (s : State) (d : Datagram) : List Byte × State :=
  let plain := ((msgPlain d.msg).drop (segmentCap d.key * d.seg)).take (segmentCap d.key)
  match d.key with
  | none => (s.mstHeader d plain.length ++ plain, s)
  | some k =>
    let f := s.drawBytes 2
    let nonce := f.1.take 12
    let key := sparseGet [] s.sec.keys (keyOfJob k)
    let head := s.mstHeader d (12 + plain.length)
    (head ++ nonce ++ tabulate plain.length (Config.gcmByte key nonce plain) ++ bytesOf 16 (Config.gcmTag key nonce head plain).toNat, f.2)

/-- Where a party is reached (R420, R431, R442): its IPv6 address and UDP port. -/
def State.partyAt (s : State) (peer tenant : Nat) : BitVec 128 × Nat :=
  if peer = 0xF000 then
    (BitVec.ofNat 128 (s.get (Fld.NW_GW_IP_LO_ADDR tenant) * 2 ^ 64 + s.get (Fld.NW_GW_IP_HI_ADDR tenant)), s.get (Fld.NW_EP_PORTS_GW_UDP tenant))
  else if peer = 0xF001 then
    (BitVec.ofNat 128 (s.get (Fld.NW_TOOL_IP_LO_ADDR tenant) * 2 ^ 64 + s.get (Fld.NW_TOOL_IP_HI_ADDR tenant)), s.get (Fld.NW_EP_PORTS_TOOL_UDP tenant))
  else (BitVec.ofNat 128 (recGet (s.mapEntry peer) 0 16), recGet (s.mapEntry peer) 16 2)

/-- A datagram transmitted on a port (R420, R423, R434, R471): to the next hop, with the code point of its class; one sent again is unchanged. -/
def State.transmit (s : State) (p : Nat) (d : Datagram) : State :=
  let r := if 0 < d.tries then (d.wire, s) else s.sealDatagram d
  let s := r.2
  let party := s.partyAt d.peer d.tenant
  let dscp := s.get Fld.TS_DSCP_DSCP / 2 ^ (6 * s.msgClass d.msg) % 64
  let s := s.emit (.datagram p d.peer d.tenant (s.get (Fld.NW_PORT_NEXTHOP_MAC p)) party.1 party.2 dscp r.1)
  let s := if 0 < d.tries then s.bump (Fld.NW_STAT_COUNT 6) 1 else match d.key with | some k => s.useKey k | none => s
  s.updDatagram d (fun e => { e with queued := false, sentAt := some s.now, tries := e.tries + 1, wire := r.1 })

/-! ### Which head a port sends (R434 to R438) -/

/-- The entry of a gate list in force at a count, and the count at which it ends; none for an empty list (R438). -/
def gateAt (g : GateX) (now : Nat) : Option (Nat × Nat × Nat) :=
  let cycle := (g.entries.map (·.2)).foldl (· + ·) 0
  let pos := (now - g.start) % cycle
  let rec go (i : Nat) (base : Nat) : List (Nat × Nat) → Option (Nat × Nat × Nat)
    | [] => none
    | e :: es => if pos < base + e.2 then some (i, e.1, now - pos + (base + e.2)) else go (i + 1) (base + e.2) es
  if g.entries.isEmpty then none else go 0 0 g.entries

def State.gateOf (s : State) (p : Nat) : GateX := sparseGet {} s.net.gates p
def State.setGate (s : State) (p : Nat) (g : GateX) : State := { s with net := { s.net with gates := sparsePut {} p g s.net.gates } }

/-- Whether a class is open on a port for a packet of `len` bytes (R438): its transmission at 800 Gbit/s with 38 bytes of framing ends before the
entry does. -/
def State.gateOpen (s : State) (p cls len : Nat) : Bool :=
  match gateAt (s.gateOf p) s.now with
  | none => true
  | some e => e.2.1.testBit cls && decide (100 * s.now + (len + 38) < 100 * e.2.2)

/-- Whether a queue's head is sendable, and whether it is in profile (R436). -/
def State.headProfile (s : State) (k : Nat) (q : TQueue) (d : Datagram) : Option Bool :=
  let need := 8000 * d.bytes
  if !s.on (Fld.TS_DEPTH_SHAPE_EN (k / 2048) (k / 8 % 256) (k % 8)) then some true
  else if q.peak < need then none
  else some (decide (need ≤ q.committed))

/-- The rank of an eligible head: weight 0 last, then out of profile, then the finish time; the queue's number breaks ties (R435). -/
def State.headRank (s : State) (p : Nat) (e : Nat × TQueue) : Option (Nat × Nat × Nat × Bool) :=
  match e.2.items with
  | [] => none
  | d :: _ =>
    if e.1 / 2048 ≠ p || !s.gateOpen p (e.1 % 8) d.bytes || !s.keyReady d then none
    else (s.headProfile e.1 e.2 d).map (fun inside =>
      if s.queueWeight e.1 = 0 then (2, 0, e.1, inside) else (if inside then 0 else 1, (e.2.head.getD (0, 0)).2, e.1, inside))

/-- Whether one rank goes before another. -/
def rankBefore (a b : Nat × Nat × Nat × Bool) : Bool :=
  decide (a.1 < b.1) || (decide (a.1 = b.1) && (decide (a.2.1 < b.2.1) || (decide (a.2.1 = b.2.1) && decide (a.2.2.1 < b.2.2.1))))

/-- The head a port sends: its queue, and whether it is in profile. -/
def State.nextHead (s : State) (p : Nat) : Option (Nat × Bool) :=
  let ranks := s.net.queues.filterMap (s.headRank p)
  (ranks.foldl (fun best r => match best with
    | none => some r
    | some b => if rankBefore r b then some r else some b) none).map (fun r => (r.2.2.1, r.2.2.2))

/-- A queue's head sent (R435, R436): virtual time, finish time and buckets move on. -/
def State.sendHead (s : State) (p k : Nat) (inside : Bool) : State :=
  let q := s.tqueue k
  match q.items with
  | [] => s
  | d :: rest =>
    let times := q.head.getD (0, 0)
    let need := if s.on (Fld.TS_DEPTH_SHAPE_EN p (k / 8 % 256) (k % 8)) then 8000 * d.bytes else 0
    let s := { s with net := { s.net with virtual := sparsePut 0 p (max (s.virtualTime p) times.1) s.net.virtual } }
    let s := s.setTQueue k { q with lastF := times.2, peak := q.peak - need, committed := if inside then q.committed - need else q.committed }
    (s.setItems k rest).transmit p d

/-- PORT_TRANSMIT (R434, R435): an idle port sends control traffic first, else, while TS_CTRL.EN is 1, the best eligible head. -/
def execPortTransmit (p : Nat) (s : State) : Host.Outcome State Fault Refusal :=
  next (if !s.netUp p then s
    else match (s.controlOf p).find? s.keyReady with
    | some d => (s.setControl p ((s.controlOf p).erase d)).transmit p d
    | none =>
      if !s.on Fld.TS_CTRL_EN then s
      else match s.nextHead p with
      | some h => s.sendHead p h.1 h.2
      | none => s)

/-- TS_REFILL_TICK (R436). -/
def execTsRefillTick (s : State) : Host.Outcome State Fault Refusal := next s.refillDue

/-- TS_RATE and TS_DEPTH written (R437): in force from the next refill, or from the refill at whose count the write falls. -/
def State.writeRate (s : State) (w : RegWrite) (p t c : Nat) (depth : Bool) : State :=
  let off := if depth then Reg.TS_DEPTH p t c else Reg.TS_RATE p t c
  s.fromPort w off (fun s => (if s.now % s.get Fld.TS_REFILL_NS = 0 then s else s.refillDue).store w off)

/-- TS_RATE_WRITE (R437). -/
def execTsRateWrite (w : RegWrite) (p t k : Nat) (depth : Bool) (s : State) : Host.Outcome State Fault Refusal :=
  next (if p < 8 ∧ t < 256 ∧ k < 8 then s.writeRate w p t k depth else s)

/-! ### Gate lists (R438, R439) -/

/-- The pending entries of a port's gate list, up to the first whose duration is 0. -/
def State.pendingGate (s : State) (p : Nat) : List (Nat × Nat) :=
  ((List.range 256).map (fun e => (s.get (Fld.TS_GATE_ENTRY_OPEN p e), s.get (Fld.TS_GATE_ENTRY_NS p e)))).takeWhile (fun e => e.2 ≠ 0)

/-- The takeover of a pending list, once its count has come (R339, R439). -/
def State.gateTakeover (s : State) (p : Nat) : State :=
  if !s.on (Fld.TS_GATE_CTRL_PENDING p) || decide (s.now < s.get (Fld.TS_GATE_START_NS p)) then s
  else
    let entries := s.pendingGate p
    let s := s.setGate p ⟨entries, s.get (Fld.TS_GATE_START_NS p)⟩
    let index := ((gateAt (s.gateOf p) s.now).map (·.1)).getD 0
    let s := ((s.put (Fld.TS_GATE_STATE_LENGTH p) entries.length).put (Fld.TS_GATE_STATE_INDEX p) index).put (Fld.TS_GATE_CTRL_PENDING p) 0
    s.raise { code := 0x0B0B, subject := p }

/-- TS_GATE_CTRL written (R439). A CANCEL once the takeover count has come meets its takeover. -/
def State.writeGateCtrl (s : State) (w : RegWrite) (p : Nat) : State :=
  s.fromPort w (Reg.TS_GATE_CTRL p) (fun s =>
    let bits := (writeBits w).toNat
    let s := s.store w (Reg.TS_GATE_CTRL p)
    let s := if !bits.testBit 1 || !s.on (Fld.TS_GATE_CTRL_PENDING p) then s
      else if s.get (Fld.TS_GATE_START_NS p) ≤ s.now then s.raise { code := 0x0B0C, subject := p }
      else s.put (Fld.TS_GATE_CTRL_PENDING p) 0
    if bits.testBit 0 && !s.on (Fld.TS_GATE_CTRL_PENDING p) then (s.put (Fld.TS_GATE_CTRL_PENDING p) 1).gateTakeover p else s)

/-- GATE_LOAD (R439): the pending list waits for its count; one already past takes over at once. -/
def execGateLoad (w : RegWrite) (p : Nat) (s : State) : Host.Outcome State Fault Refusal := next (if p < 8 then s.writeGateCtrl w p else s)

/-- GATE_CANCEL (R439). -/
def execGateCancel (w : RegWrite) (p : Nat) (s : State) : Host.Outcome State Fault Refusal := next (if p < 8 then s.writeGateCtrl w p else s)

/-- GATE_TAKEOVER (R439). -/
def execGateTakeover (p : Nat) (s : State) : Host.Outcome State Fault Refusal := next (if p < 8 then s.gateTakeover p else s)

/-- GATE_ENTRY_BOUNDARY (R438): the active list of port `p` moves to the entry in force. -/
def execGateEntryBoundary (p : Nat) (s : State) : Host.Outcome State Fault Refusal :=
  next (match gateAt (s.gateOf p) s.now with
    | some e => s.put (Fld.TS_GATE_STATE_INDEX p) e.1
    | none => s)

/-! ### Links (R418, R423, R443) -/

/-- Datagrams due that stand on no port put on one (R423). -/
def State.resume (s : State) : State :=
  s.net.flows.foldl (fun s e => ((s.flow e.1).unacked.filter s.retxDue).foldl (fun s d => s.enqueue d) s) s

/-- What stands on a port that goes down moves to the others (R419, R420). -/
def State.moveOff (s : State) (p : Nat) : State :=
  let control := s.controlOf p
  let queued := (s.net.queues.filter (fun q => q.1 / 2048 = p)).flatMap (fun q => q.2.items)
  let s := s.setControl p []
  let s := s.net.queues.foldl (fun s q => if q.1 / 2048 = p then s.setItems q.1 [] else s) s
  (control ++ queued).foldl (fun s d =>
    let off (e : Datagram) : Datagram := { e with queued := false }
    (s.updDatagram d off).enqueue (off d)) s

/-- A port's link gone (R419): it trains again while NW_PORT_CFG.EN is 1. -/
def State.linkLost (s : State) (p : Nat) (train : Bool) : State :=
  let up := s.netUp p
  let s := s.put (Fld.NW_PORT_STATE_LINK p) (if train && s.on (Fld.NW_PORT_CFG_EN p) then 1 else 0)
  let s := s.put (Fld.SEC_MACSEC_SECURED p) 0
  if up then (s.raise { code := 0x0B02, subject := p }).moveOff p else s

/-- NET_LINK_DOWN (R443). -/
def execNetLinkDown (p : Nat) (s : State) : Host.Outcome State Fault Refusal := next (if p < 8 then s.linkLost p true else s)

/-- NET_LINK_UP (R418, R423, R441, R443): a port that trains comes up, unless a lane of it is lost. -/
def execNetLinkUp (p : Nat) (s : State) : Host.Outcome State Fault Refusal :=
  next (if 8 ≤ p || s.get (Fld.NW_PORT_STATE_LINK p) ≠ 1 || (s.get Fld.CK_MON_STATUS_FAILED).testBit 1 || (s.get Fld.CK_MON_STATUS_FALLBACK).testBit 1 || (List.range 4).any (fun i => s.units.absentLanes.contains (4 * p + i)) then s
    else
      let s := (s.put (Fld.NW_PORT_STATE_LINK p) 2).raise { code := 0x0B01, subject := p }
      let done := s.net.laneCmd.filter (fun e => e.1 = p)
      let s := { s with net := { s.net with laneCmd := s.net.laneCmd.filter (fun e => e.1 ≠ p) } }
      (done.foldl (fun s e => s.complete e.2 CS.ok) s).resume)

/-! ### Lanes (R419) -/

/-- The wired spare that is free for a lane of port `p` (R419). -/
def State.laneSpare (s : State) (p : Nat) : Option Nat :=
  let l := 32 + p / 2
  if (s.get (Fld.NW_LANE_WIRED l)).testBit (p % 2) && decide (s.get (Fld.NW_LANE_STATE l) = 1) then some l else none

/-- A lane of NW_LANE retired: it serves no port. -/
def State.retireLane (s : State) (l : Nat) : State :=
  ((s.put (Fld.NW_LANE_PORT l) 15).put (Fld.NW_LANE_LANE l) 0).put (Fld.NW_LANE_STATE l) 2

/-- The failed or named lane `i` of port `p` replaced by spare `l` (R419). -/
def State.spareLane (s : State) (p i l : Nat) : State :=
  let n := 4 * p + i
  let old := s.physicalLane n
  let s := s.linkLost p true
  let s := s.updUnits (fun u => { u with
    laneAt := u.laneAt.filter (fun e => e.1 ≠ n) ++ [(n, l)], absentLanes := u.absentLanes.filter (· ≠ n)
    badLanes := u.badLanes.filter (· ≠ old) ++ [old] })
  let s := ((s.retireLane old).put (Fld.NW_LANE_PORT l) p).put (Fld.NW_LANE_LANE l) i
  let s := (s.put (Fld.NW_LANE_STATE l) 0).put (Fld.NW_PORT_STATE_SPARED p) (s.get (Fld.NW_PORT_STATE_SPARED p) ||| 2 ^ i)
  let s := s.raise { code := 0x0B03, subject := p, detail := [i] }
  (s.survey [svLane n, svNetPort p, svSpareLane (l - 32)]).logRepair (repairEntry 2 0xFF old 8)

/-- NET_LANE_FAIL (R419): lane `i` of port `p` fails training, loses signal or counts too many errors. -/
def execNetLaneFail (p i : Nat) (s : State) : Host.Outcome State Fault Refusal :=
  next (if 8 ≤ p || 4 ≤ i || (s.units.absentLanes.contains (4 * p + i) && (s.laneSpare p).isNone) then s
    else match s.laneSpare p with
    | some l => s.spareLane p i l
    | none =>
      let n := 4 * p + i
      let old := s.physicalLane n
      let s := s.linkLost p false
      let s := s.updUnits (fun u => { u with
        absentLanes := u.absentLanes ++ [n], badLanes := u.badLanes.filter (· ≠ old) ++ [old], laneAt := u.laneAt.filter (fun e => e.1 ≠ n) })
      let spared := s.get (Fld.NW_PORT_STATE_SPARED p)
      let s := s.put (Fld.NW_PORT_STATE_SPARED p) (if spared.testBit i then spared - 2 ^ i else spared)
      let s := (s.retireLane old).raise { code := 0x0B04, subject := p, detail := [i] }
      let failed := s.net.laneCmd.filter (fun e => e.1 = p)
      let s := { s with net := { s.net with laneCmd := s.net.laneCmd.filter (fun e => e.1 ≠ p) } }
      let s := failed.foldl (fun s e => s.complete e.2 CS.noResource) s
      let entry := repairEntry 2 0xFF old 8
      ((s.survey ([svLane n, svNetPort p] ++ (if 32 ≤ old then [svSpareLane (old - 32)] else []))).logRepair entry).checkMinimum entry)

/-- LANE_SPARE (R419, R441): it completes when the port is up again. -/
def execLaneSpare (c : Cmd) (s : State) : Host.Outcome State Fault Refusal :=
  next (s.runCmd c .mgmt false (fun s =>
    let p := opByte c 32
    let i := opByte c 33
    if 8 ≤ p || 4 ≤ i then s.complete c CS.badCommand
    else match s.laneSpare p with
    | none => s.complete c CS.noResource
    | some l =>
      let s := s.spareLane p i l
      { s with net := { s.net with laneCmd := s.net.laneCmd ++ [(p, c)] } }))

/-! ### What a port answers (R420), and the block's commit (R632) -/

/-- The IPv6 address of a network port. -/
def State.portAddr (s : State) (p : Nat) : BitVec 128 :=
  BitVec.ofNat 128 (s.get (Fld.NW_PORT_IP_LO_ADDR p) * 2 ^ 64 + s.get (Fld.NW_PORT_IP_HI_ADDR p))

/-- The port whose address this is. -/
def State.ownAddress (s : State) (a : BitVec 128) : Option Nat := (List.range 8).find? (fun p => s.portAddr p = a)

/-- NEIGHBOR_SOLICITATION (R420): answered for an address of the device. -/
def execNeighborSolicitation (p : Nat) (target : BitVec 128) (s : State) : Host.Outcome State Fault Refusal :=
  next (if !s.netUp p then s
    else match s.ownAddress target with
    | some q => s.emit (.neighborAdvert p target (s.get (Fld.NW_PORT_CFG_MAC q)))
    | none => s)

/-- ICMP_ECHO_REQUEST (R420): answered with its bytes. -/
def execIcmpEchoRequest (p : Nat) (dest : BitVec 128) (b : List Byte) (s : State) : Host.Outcome State Fault Refusal :=
  next (if s.netUp p && (s.ownAddress dest).isSome then s.emit (.echoReply p b) else s)

/-- NW_CTRL written (R432, R497, R632): COMMIT places the Yard map; the count at which EN is set starts the HELLOs. -/
def State.writeNwCtrl (s : State) (w : RegWrite) : State :=
  s.fromPort w Reg.NW_CTRL (fun s =>
    let before := s.on Fld.NW_CTRL_EN
    let s := (s.commitWrite w Fld.NW_CTRL_COMMIT (fun s => [(s.get Fld.NW_MAP_BASE_BASE, 131072)])).enGate Fld.NW_CTRL_EN
    let start := if s.on Fld.NW_CTRL_EN then (if before then s.net.helloStart else some s.now) else none
    { s with net := { s.net with helloStart := start, helloSent := if before && s.on Fld.NW_CTRL_EN then s.net.helloSent else none } })

/-- NW_COMMIT (R632). -/
def execNwCommit (w : RegWrite) (s : State) : Host.Outcome State Fault Refusal := next (s.writeNwCtrl w)

end Sys2Proof.Machine
end

