-- ==== Sys2Proof/Machine/YardTime.lean ====
section
/-! DEFINITION. The Yard Time unit and the tally registers (R331 to R337, R343 to R349, R352). -/

namespace Sys2Proof.Machine

def State.setYt (s : State) (y : YardTime) : State := { s with yt := y }

/-! ### The servo (R332 to R337) -/

/-- The largest correction of the servo, in ppb (R332). -/
abbrev rateLimit : Nat := 1000000

/-- YT_RATE as a signed number. -/
def State.ratePpb (s : State) : Int := (BitVec.ofNat 32 (s.get Fld.YT_RATE_PPB)).toInt

/-- A signed number as the bits of a field. -/
def signedBits (w : Nat) (x : Int) : Nat := (BitVec.ofInt w x).toNat

/-- The correction the servo chooses after a measurement: the full rate against an offset above 1 ms (R336); else a value the spec does not give,
within the limits of R332. -/
def State.steer (s : State) (offset : Int) : State :=
  if s.get Fld.YT_CTRL_SRC = 0 then s.put Fld.YT_RATE_PPB 0
  else if 1000000 < offset.natAbs then s.put Fld.YT_RATE_PPB (signedBits 32 (if 0 < offset then (rateLimit : Int) else -rateLimit))
  else
    let f := s.drawFree
    f.2.put Fld.YT_RATE_PPB (signedBits 32 ((f.1.toNat % (2 * rateLimit + 1) : Nat) - (rateLimit : Int)))

/-- LOCKED set or cleared, with its event (R336, R337). -/
def State.setLocked (s : State) (v : Bool) : State :=
  if s.on Fld.YT_STATUS_LOCKED = v then s
  else (s.put Fld.YT_STATUS_LOCKED (if v then 1 else 0)).raise { code := if v then 0x0301 else 0x0302 }

/-- A measurement of the offset from the source (R336): the source's time less the count, below 0 where the count is ahead. While YT_REF is
failed, or the timebase still runs on the fallback oscillator, LOCKED stays 0 (R337). -/
def State.measure (s : State) (offset : Int) : State :=
  let s := s.put Fld.YT_OFFSET_NS (signedBits 64 offset)
  let inside := decide (offset.natAbs ≤ s.get Fld.YT_LOCK_LIMIT_NS)
  let y := s.yt
  let s := s.setYt { y with lockRun := if inside then y.lockRun + 1 else 0, unlockRun := if inside then 0 else y.unlockRun + 1 }
  let s := if s.on Fld.YT_STATUS_FALLBACK || (s.get Fld.CK_MON_STATUS_FAILED).testBit 2 then s
    else if 16 ≤ s.yt.lockRun then s.setLocked true
    else if 4 ≤ s.yt.unlockRun then s.setLocked false
    else s
  let s := if 1000000 < offset.natAbs then s.raise { code := 0x0303 } else s
  s.steer offset

/-- YT_TICK (R332): one tick of the 1 GHz timebase. -/
def execYtTick (s : State) : Host.Outcome State Fault Refusal :=
  next (if !s.on Fld.YT_CTRL_RUN then s
    else
      let total := (s.yt.frac : Int) + 1000000000 + s.ratePpb
      let n := total.toNat
      s.setYt { s.yt with count := s.yt.count + n / 1000000000, frac := n % 1000000000 })

/-- PPS_EDGE (R333, R335, R336). -/
def execPpsEdge (s : State) : Host.Outcome State Fault Refusal :=
  let src := s.get Fld.YT_CTRL_SRC
  let phase := s.now % 1000000000
  let offset : Int := if phase ≤ 500000000 then -(phase : Int) else 1000000000 - (phase : Int)
  let s := (s.put Fld.YT_PPS_STAMP_NS s.now).setYt { s.yt with lastPps := some s.now }
  let s := s.put Fld.YT_STATUS_HOLDOVER 0
  next (if src = 1 || (src = 3 && s.yt.ptpMaster.isNone) then s.measure offset else s)

/-- PPS_MISSING (R335): 1.5 s without an edge. -/
def execPpsMissing (s : State) : Host.Outcome State Fault Refusal :=
  let last := s.yt.lastPps.getD (s.get Fld.YT_SET_NS)
  next (if (s.get Fld.YT_CTRL_SRC = 1 || s.get Fld.YT_CTRL_SRC = 3) && s.on Fld.YT_CTRL_RUN && !s.on Fld.YT_STATUS_HOLDOVER &&
      decide (last + 1500000000 ≤ s.now) then
      (s.put Fld.YT_STATUS_HOLDOVER 1).raise { code := 0x0304 }
    else s)

/-- A PTP message as it leaves (R334): its IEEE 1588 type (1 Delay_Req, 2 Pdelay_Req, 3 Pdelay_Resp), sequence number and the count at its
sending. No other type is ever sent: the device is slave-only. -/
def ptpBytes (type seq now : Nat) : List Byte := bytesOf 1 type ++ bytesOf 2 seq ++ bytesOf 8 now

/-- The delay request that follows a Sync on its port, of the mechanism YT_PTP.DELAY selects (R334). -/
def State.askDelay (s : State) (port : Nat) : State :=
  let seq := match s.yt.ptpAsked with | some a => (a.1 + 1) % 65536 | none => 0
  (s.setYt { s.yt with ptpAsked := some (seq, s.now), ptpPeer := none }).emit (.ptp port (ptpBytes (if s.on Fld.YT_PTP_DELAY then 2 else 1) seq s.now))

/-- A Sync whose origin time is known (R334, R336): sent at `origin`, received here at count `at_`; a measurement, then a delay request. -/
def State.syncAt (s : State) (port origin at_ : Nat) (correction : Int) : State :=
  let span : Int := at_ - origin - correction
  ((s.setYt { s.yt with ptpSync := none, ptpSpan := span }).measure (s.yt.ptpPath - span)).askDelay port

/-- What a message other than an Announce does (R334): each counts only where it belongs to the selected master or answers the last request. -/
def State.ptpUse (s : State) (port : Nat) : PtpBody → State
  | .sync master seq origin correction =>
    if (s.yt.ptpMaster.map (·.1)) ≠ some master then s
    else match origin with
      | some o => s.syncAt port o s.now correction
      | none => s.setYt { s.yt with ptpSync := some (seq, s.now) }
  | .followUp master seq origin correction =>
    match s.yt.ptpSync with
    | some w => if (s.yt.ptpMaster.map (·.1)) = some master && w.1 = seq then s.syncAt port origin w.2 correction else s
    | none => s
  | .delayResp master seq receipt correction =>
    match s.yt.ptpAsked with
    | some a =>
      if (s.yt.ptpMaster.map (·.1)) = some master && a.1 = seq && !s.on Fld.YT_PTP_DELAY then
        s.setYt { s.yt with ptpPath := (s.yt.ptpSpan + ((receipt : Int) - a.2 - correction)) / 2 }
      else s
    | none => s
  | .peerRequest seq => if s.on Fld.YT_PTP_DELAY then s.emit (.ptp port (ptpBytes 3 seq s.now)) else s
  | .peerResp seq receipt correction =>
    match s.yt.ptpAsked with
    | some a =>
      if a.1 ≠ seq || !s.on Fld.YT_PTP_DELAY then s
      else match receipt with
        | some r => s.setYt { s.yt with ptpPeer := some (r, s.now) }
        | none => s.setYt { s.yt with ptpPath := ((s.now : Int) - a.2 - correction) / 2 }
    | none => s
  | .peerFollowUp seq sent correction =>
    match s.yt.ptpAsked, s.yt.ptpPeer with
    | some a, some p =>
      if a.1 = seq && s.on Fld.YT_PTP_DELAY then
        s.setYt { s.yt with ptpPeer := none, ptpPath := (((p.2 : Int) - a.2) - ((sent : Int) - p.1) - correction) / 2 }
      else s
    | _, _ => s
  | .announce _ _ | .other => s

/-- The PTP time source selected, or none: what was measured to another source goes. -/
def State.selectSource (s : State) (master : Option (Nat × Nat)) : State :=
  let y := s.yt
  let same := decide (y.ptpMaster.map (·.1) = master.map (·.1))
  let s := s.setYt (if same then { y with ptpMaster := master }
    else { y with ptpMaster := master, ptpSync := none, ptpSpan := 0, ptpAsked := none, ptpPeer := none, ptpPath := 0 })
  s.put Fld.YT_STATUS_PTP_SOURCE (if master.isSome then 1 else 0)

/-- PTP_MESSAGE (R334, R336): Announce messages select the best master, a Sync of the selected master is a measurement, delay requests give
the path delay, a peer's delay request is answered with the count. -/
def execPtpMessage (m : PtpMsg) (s : State) : Host.Outcome State Fault Refusal :=
  let src := s.get Fld.YT_CTRL_SRC
  let heard := (src = 2 || src = 3) && !(s.get Fld.CK_MON_STATUS_FALLBACK).testBit 1 && !(s.get Fld.CK_MON_STATUS_FAILED).testBit 1 && (s.get Fld.YT_PTP_PORTS).testBit m.port && decide (m.domain = s.get Fld.YT_PTP_DOMAIN) &&
    decide (s.on Fld.YT_PTP_TRANSPORT = m.ethernet)
  next (if !heard then s
    else match m.body with
    | .announce master rank =>
      let better : Bool := match s.yt.ptpMaster with
        | none => true
        | some q => decide (q.1 = master) || decide (rank < q.2)
      if better then s.selectSource (some (master, rank)) else s
    | b => s.ptpUse m.port b)

/-- PTP_SOURCE_LOSS (R333): no time source is selected any more. -/
def execPtpSourceLoss (s : State) : Host.Outcome State Fault Refusal :=
  next (s.selectSource none)

/-! ### Its registers (R331, R352) -/

/-- YT_CTRL written: RUN starts the count at YT_SET, and with it the first accounting period (R331, R373). -/
def State.writeYtCtrl (s : State) (w : RegWrite) : State :=
  s.fromPort w Reg.YT_CTRL (fun s =>
    let ran := s.on Fld.YT_CTRL_RUN
    let s := s.store w Reg.YT_CTRL
    let s := if s.get Fld.YT_CTRL_SRC = 0 then s.put Fld.YT_RATE_PPB 0 else s
    if ran || !s.on Fld.YT_CTRL_RUN then s
    else
      let start := s.get Fld.YT_SET_NS
      { s.setYt { s.yt with count := start, frac := 0, lastPps := some start } with periodEnd := start + s.get Fld.TN_PERIOD_NS })

/-- YT_RUN (R331). -/
def execYtRun (w : RegWrite) (s : State) : Host.Outcome State Fault Refusal := next (s.writeYtCtrl w)

/-- YT_COMMIT (R352): YT_SET is locked. -/
def execYtCommit (w : RegWrite) (s : State) : Host.Outcome State Fault Refusal := next (s.writeYtCtrl w)

/-- YT_LOCK_LIMIT written (R352). -/
def State.writeLockLimit (s : State) (w : RegWrite) : State :=
  s.fromPort w Reg.YT_LOCK_LIMIT (fun s => s.storePut w Fld.YT_LOCK_LIMIT_NS (max 1 (s.wouldGet w Fld.YT_LOCK_LIMIT_NS)))

/-! ### Tally registers (R343 to R345, R349) -/

/-- TL_HOST_SIG written (R345): a signal from the host, which has no tenant of its own. -/
def State.writeHostSig (s : State) (w : RegWrite) : State :=
  s.fromPort w Reg.TL_HOST_SIG (fun s =>
    let v := (writeBits w).toNat
    let n := v % 8192
    let count := v / 2 ^ 16 % 65536
    let fail (s : State) : State := { s with io := s.io.setFlag Reg.TL_FLAGS 2 Reg.TL_FLAG_COUNT 2 }
    match s.tallyCheck (s.get (Fld.TL_BIND_TENANT n)) n count with
    | some _ => fail s
    | none => let r := s.signal n count; if r.1 = CS.ok then r.2 else fail r.2)

/-- TL_HOST_SIG (R345). -/
def execTlHostSig (w : RegWrite) (s : State) : Host.Outcome State Fault Refusal := next (s.writeHostSig w)

/-- TL_BIND[n] written (R344). -/
def State.writeBind (s : State) (w : RegWrite) (n : Nat) : State :=
  s.fromPort w (Reg.TL_BIND n) (fun s =>
    let old := s.get (Fld.TL_BIND_TENANT n)
    let cleared := s.on (Fld.TL_BIND_EN n) && decide (s.wouldGet w (Fld.TL_BIND_EN n) = 0)
    let s := if cleared || s.wouldGet w (Fld.TL_BIND_TENANT n) ≠ old then s.cancelTally n old else s
    s.store w (Reg.TL_BIND n))

/-- TL_BIND_WRITE (R344). -/
def execTlBindWrite (w : RegWrite) (k : Nat) (s : State) : Host.Outcome State Fault Refusal := next (if k < 8192 then s.writeBind w k else s)

/-- TL_SNAP_SEL written (R349): the tally's terms latched. -/
def State.writeSnapSel (s : State) (w : RegWrite) : State :=
  s.fromPort w Reg.TL_SNAP_SEL (fun s =>
    let s := s.store w Reg.TL_SNAP_SEL
    let x := s.tally (s.get Fld.TL_SNAP_SEL_TALLY)
    (((s.put Fld.TL_SNAP_COUNT_COUNT x.count).put Fld.TL_SNAP_SIG_SIG x.sig).put Fld.TL_SNAP_TAKEN_TAKEN x.taken).put
      Fld.TL_SNAP_WAITERS_WAITERS x.queue.length)

/-- TL_SNAP_SEL_WRITE (R349). -/
def execTlSnapSelWrite (w : RegWrite) (s : State) : Host.Outcome State Fault Refusal := next (s.writeSnapSel w)

end Sys2Proof.Machine
end

