-- ==== Sys2Proof/Machine/ClockOps.lean ====
section
/-! DEFINITION. Clock sources that fail and return, pace moves, and the gating groups (R517 to R535). -/

namespace Sys2Proof.Machine

def State.setCk (s : State) (x : Clocks) : State := { s with ck := x }

/-! ### Sources (R522, R523) -/

def State.sourceFailed (s : State) (k : Nat) : Bool := (s.get Fld.CK_MON_STATUS_FAILED).testBit k

/-- Whether the consumers of source `k` are on the fallback. -/
def State.onFallback (s : State) (k : Nat) : Bool := (s.get Fld.CK_MON_STATUS_FALLBACK).testBit k

/-- A bit of a bit set put to a value. -/
def putBit (m k : Nat) (v : Bool) : Nat := if m.testBit k then (if v then m else m - 2 ^ k) else (if v then m + 2 ^ k else m)

/-- The consumers of a failed source (R522): the links of a PHY reference go down, the timebase runs on, the fallback gates the monitor.
Nothing moves to the fallback while that has failed. -/
def State.loseConsumers (s : State) (k : Nat) : State :=
  let spare := !s.sourceFailed 4
  let moved (s : State) : State :=
    if spare && decide (k < 3) then s.put Fld.CK_MON_STATUS_FALLBACK (putBit (s.get Fld.CK_MON_STATUS_FALLBACK) k true) else s
  match k with
  | 0 => (List.range 4).foldl (fun s n => if s.get (Fld.GC_PORT_STATE_LINK n) = 0 then s else s.portReset n 1) (moved s)
  | 1 => (List.range 8).foldl (fun s p => if s.get (Fld.NW_PORT_STATE_LINK p) = 0 then s else s.linkLost p true) (moved s)
  | 2 => ((moved s).put Fld.YT_STATUS_FALLBACK (if spare then 1 else 0)).setLocked false |> fun s => s.setYt { s.yt with lockRun := 0 }
  | 3 =>
    let s := (s.put Fld.CK_MON_STATUS_MON_FB (if spare then 1 else 0)).put Fld.CK_MON_STATUS_TRIM_FROZEN 1
    s.setCk { s.ck with good := s.ck.good.map (fun e => (e.1, 0)) }
  | _ => s

/-- A source fails (R522, R524): one event, and its consumers change. -/
def State.loseSource (s : State) (k : Nat) : State :=
  if 5 ≤ k || s.sourceFailed k then s
  else
    let s := s.put Fld.CK_MON_STATUS_FAILED (putBit (s.get Fld.CK_MON_STATUS_FAILED) k true)
    let s := s.setCk { s.ck with good := s.ck.good.filter (fun e => e.1 ≠ k) }
    (s.raise { code := 0x0101, subject := k, detail := [k] }).loseConsumers k

/-- The consumers of a returned source move back (R523): the ports that its failure took down wait in training and may come up. -/
def State.moveBack (s : State) (k : Nat) : State :=
  let cleared := s.put Fld.CK_MON_STATUS_FALLBACK (putBit (s.get Fld.CK_MON_STATUS_FALLBACK) k false)
  match k with
  | 0 | 1 => cleared
  | 2 => cleared.put Fld.YT_STATUS_FALLBACK 0
  | 3 => (s.put Fld.CK_MON_STATUS_MON_FB 0).put Fld.CK_MON_STATUS_TRIM_FROZEN 0
  | _ => s

/-- A failed source returns (R523). -/
def State.sourceReturns (s : State) (k : Nat) : State :=
  let s := s.put Fld.CK_MON_STATUS_FAILED (putBit (s.get Fld.CK_MON_STATUS_FAILED) k false)
  let s := s.setCk { s.ck with good := s.ck.good.filter (fun e => e.1 ≠ k) }
  let s := s.raise { code := 0x0102, subject := k }
  if s.on Fld.CK_CTRL_AUTO_RETURN then s.moveBack k else s

/-- CK_CTRL.RETURN (R523): the consumers of every source that is not failed move back. -/
def State.returnAll (s : State) : State := (List.range 4).foldl (fun s k => if s.sourceFailed k then s else s.moveBack k) s

/-! ### The monitor (R520, R521) -/

/-- Four times the expected count of sources 0 to 2, and of the crystal as the fallback sees it, per gate cycle. -/
def nominal4 (k : Nat) : Nat := match k with | 0 => 16 | 1 => 25 | _ => 4

/-- Whether a count is out of a tolerance in ppm, and whether it is high. -/
def outOfTol (window k count ppm : Nat) : Bool × Bool :=
  let want := window * nominal4 k
  let got := 4 * count
  (decide (want * ppm < 1000000 * (if want ≤ got then got - want else want - got)), decide (want < got))

/-- The sources that a window condemns (R521): the crystal where two or more references stray the same way, else each that strays; the
fallback beyond ±5% of the crystal. -/
def judgeWindow (tol window : Nat) (monFb : Bool) (live : List Nat) (counts : List Nat) : List Nat :=
  let stray := (live.filter (· < 3)).filter (fun k => (outOfTol window k (counts.getD k 0) tol).1)
  let high := stray.map (fun k => (outOfTol window k (counts.getD k 0) tol).2)
  let crystal := decide (2 ≤ stray.length) && (high.all id || high.all (fun h => !h))
  let refs := if crystal then (if live.contains 3 then [3] else []) else stray
  if !monFb && live.contains 4 && (outOfTol window 4 (counts.getD 4 0) 50000).1 then refs ++ [4] else refs

/-- A failed source's windows in tolerance counted on (R523). -/
def State.countGood (s : State) (tol window : Nat) (x : MonitorWindow) (k : Nat) : State :=
  let inTol := if k = 4 then !(outOfTol window 4 (x.counts.getD 4 0) 50000).1 else !(outOfTol window k (x.counts.getD k 0) tol).1
  match s.ck.good.find? (fun e => e.1 = k) with
  | none => if x.stable.contains k then s.setCk { s.ck with good := s.ck.good ++ [(k, 0)] } else s
  | some e =>
    let n := if inTol then e.2 + 1 else 0
    if s.get Fld.CK_MON_CFG_GOOD_WINDOWS ≤ n then s.sourceReturns k
    else s.setCk { s.ck with good := s.ck.good.map (fun g => if g.1 = k then (k, n) else g) }

/-- The counts, the judgement, the returns and the trim of a window's end. -/
def State.windowEnd (s : State) (x : MonitorWindow) : State :=
  let monFb := s.on Fld.CK_MON_STATUS_MON_FB
  let window := s.get Fld.CK_MON_CFG_WINDOW
  let tol := s.get Fld.CK_MON_CFG_TOL_PPM + (if monFb then 2000 else 0)
  let s := [0, 1, 2].foldl (fun s k => s.put (Fld.CK_MON_COUNT_COUNT k) (x.counts.getD k 0)) s
  let s := if monFb then s.put (Fld.CK_MON_COUNT_COUNT 4) window
    else (s.put (Fld.CK_MON_COUNT_COUNT 4) (x.counts.getD 4 0)).put (Fld.CK_MON_COUNT_COUNT 3) window
  let was := (List.range 5).filter s.sourceFailed
  let live := (List.range 5).filter (fun k => !s.sourceFailed k)
  let lost := judgeWindow tol window monFb live x.counts
  let s := lost.foldl (fun s k => s.loseSource k) s
  let s := if lost.contains 3 then s else was.foldl (fun s k => s.countGood tol window x k) s
  if s.on Fld.CK_MON_STATUS_TRIM_FROZEN || s.sourceFailed 4 then s
  else (s.put Fld.CK_FB_TRIM_CODE x.trim).put Fld.CK_FB_TRIM_ERR_PPM (signedBits 32 x.errPpm)

/-! ### Pace (R526 to R531) -/

/-- The effective target of a domain (R528). -/
def State.paceTarget (s : State) (d : Nat) : Nat :=
  max (s.get (Fld.CK_PACE_CTL_REQ d)) (max (s.get (Fld.CK_PACE_CTL_LIMIT d)) (s.get (Fld.CK_PACE_STATE_DEV_LIMIT d)))

def State.paceMove (s : State) (d : Nat) : Option PaceMove := (s.ck.moves.find? (fun e => e.1 = d)).map (·.2)
def State.setMove (s : State) (d : Nat) (m : Option PaceMove) : State :=
  s.setCk { s.ck with moves := s.ck.moves.filter (fun e => e.1 ≠ d) ++ (m.map (fun m => (d, m))).toList }

/-- VID_MV and CAP of level `l` for domain `d` (R531): those in force while the domain is at that level, else the table's of now. Before its first move
a domain holds P7 as after power-up (R526). -/
def State.levelValues (s : State) (d l : Nat) : Nat × Nat :=
  if s.get (Fld.CK_PACE_STATE_CUR d) ≠ l then (s.get (Fld.CK_PACE_VID_MV l), s.get (Fld.CK_PACE_CAP l))
  else match s.ck.force.find? (fun e => e.1 = d) with
  | some e => e.2
  | none => (550, 800)

/-- A level's cap put in force in a domain: CUR, with the level's values (R531). -/
def State.forceLevel (s : State) (d l : Nat) : State :=
  let v := s.levelValues d l
  (s.setCk { s.ck with force := s.ck.force.filter (fun e => e.1 ≠ d) ++ [(d, v)] }).put (Fld.CK_PACE_STATE_CUR d) l

/-- A level's voltage written over AVSBus (R529). -/
def State.writeVoltage (s : State) (d l : Nat) (faster : Bool) : State :=
  let v := (s.levelValues d l).1
  ((s.emit (.avsbus d v)).setMove d (some { level := l, mv := v, faster := faster, written := false })).put (Fld.CK_PACE_STATE_BUSY d) 1

/-- A slower move (R529): the cap first, then the voltage. -/
def State.slowDown (s : State) (d l : Nat) : State := (s.forceLevel d l).writeVoltage d l false

/-- The target shown, and a move begun towards it where none is in progress (R529). Where the last move failed and the target is the level in force, the
voltage of that level is written again (R530). -/
def State.startPace (s : State) (d : Nat) : State :=
  let t := s.paceTarget d
  let c := s.get (Fld.CK_PACE_STATE_CUR d)
  let s := s.put (Fld.CK_PACE_STATE_TARGET d) t
  if (s.paceMove d).isSome || (t = c && !s.on (Fld.CK_PACE_STATE_VFAIL d)) then s
  else if t < c then s.writeVoltage d t true
  else s.slowDown d t

/-- A move ended; a target that changed meanwhile is taken up. -/
def State.endMove (s : State) (d : Nat) : State := ((s.setMove d none).put (Fld.CK_PACE_STATE_BUSY d) 0).startPace d

/-- The rail's read-back within TOL_MV of the voltage written (R529): a faster move raises the cap, to no more than the present target. -/
def State.confirmPace (s : State) (d mv : Nat) (m : PaceMove) : State :=
  let s := (s.put (Fld.CK_PACE_STATE_VID_AT d) mv).put (Fld.CK_PACE_STATE_VFAIL d) 0
  if !m.faster then s.endMove d
  else
    let t := s.paceTarget d
    let c := s.get (Fld.CK_PACE_STATE_CUR d)
    let s := s.put (Fld.CK_PACE_STATE_TARGET d) t
    if t < c then
      let l := max m.level t
      if l = m.level then (s.forceLevel d l).endMove d else (s.forceLevel d l).writeVoltage d l false
    else s.slowDown d t

/-- A voltage not confirmed (R530). -/
def State.failPace (s : State) (d : Nat) (m : PaceMove) : State :=
  let s := ((s.setMove d none).put (Fld.CK_PACE_STATE_BUSY d) 0).put (Fld.CK_PACE_STATE_VFAIL d) 1
  s.raise { code := 0x0103, subject := d, detail := [d, m.level, s.get (Fld.CK_PACE_STATE_VID_AT d)] }

/-- DEV_LIMIT of a domain recomputed (R553); a change starts a move (R528, R530). -/
def State.recomputeLimit (s : State) (d : Nat) : State :=
  let l := max (s.get (Fld.PW_LIMITS_POWER d)) (max (s.get (Fld.PW_LIMITS_THERM d)) (s.get (Fld.PW_LIMITS_SUPPLY d)))
  if l = s.get (Fld.CK_PACE_STATE_DEV_LIMIT d) then s else (s.put (Fld.CK_PACE_STATE_DEV_LIMIT d) l).startPace d

/-- Whether a pace table with level `l` as given is one that R526 stores. -/
def State.paceTableOk (s : State) (l vid cap : Nat) : Bool :=
  let v (k : Nat) : Nat := if k = l then vid else s.get (Fld.CK_PACE_VID_MV k)
  let c (k : Nat) : Nat := if k = l then cap else s.get (Fld.CK_PACE_CAP k)
  (List.range 8).all (fun k => decide (500 ≤ v k ∧ v k ≤ 900 ∧ 100 ≤ c k ∧ c k ≤ 2400)) &&
    (List.range 7).all (fun k => decide (v (k + 1) ≤ v k ∧ c (k + 1) ≤ c k))

/-! ### Gating groups (R533, R534) -/

/-- Whether a group has sleep, and deep sleep (R533). -/
def gateSleeps (g : Nat) : Bool := decide (g ≤ 16) || decide (29 ≤ g)
def gateDeep (g : Nat) : Bool := decide (g < 16) || decide (29 ≤ g)

/-- Whether RUN_EN 0 is accepted for a group (R533). -/
def State.gateMayStop (s : State) (g : Nat) : Bool :=
  if g < 16 then
    s.t1.countOwned (fun o => o.isAllocated) g = 0 &&
      (List.range 32).all (fun p => !(s.on (Fld.SCH_PART_VALID p) && decide (s.get (Fld.SCH_PART_COMBS p) / 4 ^ g % 4 ≠ 0)))
  else if g = 16 then false
  else if g < 21 then s.get (Fld.GC_PORT_STATE_LINK (g - 17)) = 0 && s.get Fld.BU_STRAP_PORT ≠ g - 17
  else if g < 29 then !s.on (Fld.NW_PORT_CFG_EN (g - 21))
  else !(s.get Fld.SH_CTRL_PORT_EN).testBit (g - 29)

/-- A write to CK_GATE[g] (R533): an enable that is not available stays 0, and RUN_EN stays 1 where 0 is not accepted. -/
def State.writeGate (s : State) (w : RegWrite) (g : Nat) : State :=
  s.fromPort w (Reg.CK_GATE g) (fun s =>
    let may := s.gateMayStop g
    let s := s.store w (Reg.CK_GATE g)
    let s := if gateSleeps g then s else s.put (Fld.CK_GATE_SLEEP_EN g) 0
    let s := if gateDeep g then s else s.put (Fld.CK_GATE_DEEP_EN g) 0
    let s := if s.on (Fld.CK_GATE_RUN_EN g) || may then s else s.put (Fld.CK_GATE_RUN_EN g) 1
    if !s.on (Fld.CK_GATE_RUN_EN g) then s.put (Fld.CK_GATE_STATE g) 3
    else if s.get (Fld.CK_GATE_STATE g) = 3 then s.put (Fld.CK_GATE_STATE g) 0 else s)

/-- A sleeping group woken (R534). -/
def State.wakeGroup (s : State) (g : Nat) : State :=
  if g < 37 && (s.get (Fld.CK_GATE_STATE g) = 1 || s.get (Fld.CK_GATE_STATE g) = 2) then s.put (Fld.CK_GATE_STATE g) 0 else s

end Sys2Proof.Machine
end

