-- ==== Sys2Proof/Machine/Context.lean ====
section
/-! DEFINITION. The context commands, launches, run limits, slices and their switch windows (R236, R237, R246 to R255, R261, R304,
R342, R361 to R365). -/

namespace Sys2Proof.Machine

/-! ### CTX_LOAD (R246 to R250, R357, R366, R461) -/

/-- A program image's header (R247): KIND, CODE_BYTES, ENTRY, SHARED_BYTES, CODE_OFF; none where it breaks R247. -/
def imageHeader (b : List Byte) : Option (Nat × Nat × Nat × Nat × Nat) :=
  let kind := recGet b 4 1
  let code := recGet b 8 4
  let entry := recGet b 12 4
  let shared := recGet b 16 4
  let off := recGet b 24 8
  if recGet b 0 4 = 0x54524E44 ∧ kind ≤ 1 ∧ recGet b 5 1 = 1 ∧ code % 16 = 0 ∧ 16 ≤ code ∧ code ≤ 2 ^ 24 ∧ entry % 16 = 0 ∧ entry < code ∧
      (if kind = 1 then shared % 65536 = 0 ∧ shared ≤ 2 ^ 25 else shared = 0) ∧ off % 64 = 0 then
    some (kind, code, entry, shared, off)
  else none

/-- Whether a thread is bound to a tenant (R366). -/
def State.threadBound (s : State) (t n : Nat) : Bool := s.on (Fld.SCH_HUBTHR_BOUND n) && decide (s.get (Fld.SCH_HUBTHR_TENANT n) = t)

/-- Whether a context is loaded for a thread. -/
def State.threadInUse (s : State) (n : Nat) : Bool := s.contexts.any (fun e => e.2.hub && decide (e.2.state ≠ .free ∧ e.2.thread = n))

/-- Whether a context holds a thread: from its launch to its end (R235). -/
def State.threadHeld (s : State) (n : Nat) : Bool :=
  s.contexts.any (fun e => e.2.hub && decide (e.2.thread = n) && [CtxState.armed, .running, .switched].contains e.2.state)

/-- Save blocks taken for units, each in the Hive that `hive` gives (R250). -/
def State.takeSaves (s : State) (slot granules : Nat) (hive : Nat → Option Nat) : List Nat → Option (List (Nat × Nat) × State)
  | [] => some ([], s)
  | u :: us => match (hive u).bind (fun h => s.alloc h granules 1 (.context slot)) with
    | none => none
    | some (g, s) => (s.takeSaves slot granules hive us).map (fun r => ((u, 4096 * g) :: r.1, r.2))

/-- The shared window of a Hub context (R246): that of its image where SHARE is set, else a fresh one of zeros, the lowest place of
the 512 units that has room. -/
def State.takeWindow (s : State) (slot tenant image units : Nat) (share : Bool) : Option State :=
  if units = 0 then some s
  else
    let mine (w : Window) : Bool := share && w.shared && decide (w.tenant = tenant ∧ w.image = image)
    let join (w : Window) : Window := if mine w then { w with users := slot :: w.users } else w
    if s.windows.any mine then some { s with windows := s.windows.map join }
    else
      let clear (a : Nat) : Bool := s.windows.all (fun w => decide (w.start + w.units ≤ a) || decide (a + units ≤ w.start))
      (firstBelow clear (513 - units)).map (fun a => { s with windows := ⟨tenant, image, share, a, units, [slot], []⟩ :: s.windows })

/-- What a context is loaded from. -/
structure LoadSpec where
  tenant : Nat
  image : Nat
  kind : Nat
  code : Nat
  entry : Nat
  shared : Nat
  share : Bool
  place : Nat
  header : List Byte
  bytes : List Byte
deriving DecidableEq, Repr

/-- A context loaded into a slot: code copy, save areas and window taken, or nothing kept (R248, R250). -/
def State.loadInto (s : State) (slot : Nat) (l : LoadSpec) : Option State :=
  let hub := decide (l.kind = 1)
  let units := if hub then [l.place] else s.partitionCells l.place
  let hive (u : Nat) : Option Nat := if hub then s.roomiest (s.partitionHive l.tenant) else some (u / 512)
  match s.alloc (hiveOf l.image) (ceilDiv l.code 4096) 1 (.device 544) with
  | none => none
  | some (g, s) => match s.takeSaves slot (saveBytes hub / 4096) hive units with
    | none => none
    | some (saves, s) => (s.takeWindow slot l.tenant l.image (l.shared / 65536) l.share).map (fun s =>
      (s.writeT1 544 (4096 * g) l.bytes).setContext slot
        { gen := (s.context slot).gen, state := .loaded, tenant := l.tenant, hub := hub, partition := if hub then 0 else l.place,
          thread := if hub then l.place else 0, share := l.share, image := l.image, codeAt := 4096 * g, codeBytes := l.code,
          entry := l.entry, sharedBytes := l.shared, saves := saves, digest := Config.sha384 (l.header ++ l.bytes) })

/-- CTX_LOAD once its image is read. -/
def State.loadContext (s : State) (c : Cmd) (l : LoadSpec) : State :=
  let used := s.tenantContexts l.tenant
  if s.allocStopped then s
  else if s.get (Fld.TN_QUOTA_CONTEXTS l.tenant) < used + 1 then
    (s.raise { code := 0x0A05, tenant := some l.tenant }).complete c CS.noResource
  else match firstBelow (fun i => decide ((s.context i).state = .free)) (s.get Fld.SCH_CTX_SLOTS_SLOTS) with
  | none => s.complete c CS.noResource
  | some slot => match s.loadInto slot l with
    | none => s.complete c CS.noResource
    | some s => s.complete c CS.ok (s.contextHandle slot)

/-- The place of an image: its partition, or its thread; the status where there is none (R250, R366). -/
def State.loadPlace (s : State) (c : Cmd) (t kind : Nat) : Except Nat Nat :=
  let p := opByte c 32
  let n := opU16 c 34
  if kind = 0 then
    if (opByte c 36).testBit 0 || 32 ≤ p || p ≠ s.get (Fld.TN_CTRL_PARTITION t) || !s.on (Fld.SCH_PART_VALID p) then .error CS.badCommand
    else .ok p
  else if n = 0xFFFF then
    match firstBelow (fun k => s.threadBound t k && !s.threadInUse k) 128 with
    | some k => .ok k
    | none => .error (if (List.range 128).any (s.threadBound t) then CS.noResource else CS.badCommand)
  else if 128 ≤ n || !s.threadBound t n then .error CS.badCommand
  else if s.threadInUse n then .error CS.noResource
  else .ok n

def State.ctxLoad (s : State) (c : Cmd) : State :=
  s.runHeld c .tenant false (fun s =>
    let t := (s.issuerTenant c.issuer).getD 0
    let a := c.addrA.toNat
    if !s.on Fld.SCH_CTX_CTRL_EN then s.complete c CS.notReady
    else if !s.tenantOwns t a 64 then s.complete c CS.badCommand
    else match s.readT1 t a 64 with
    | .error st => (s.afterRead t a 64).checkPoison.complete c st
    | .ok header =>
      let s := (s.afterRead t a 64).checkPoison
      match imageHeader header with
      | none => s.complete c CS.badCommand
      | some (kind, code, entry, shared, off) =>
        if !s.tenantOwns t (a + off) code then s.complete c CS.badCommand
        else match s.loadPlace c t kind with
        | .error st => s.complete c st
        | .ok place => match s.readT1 t (a + off) code with
          | .error st => (s.afterRead t (a + off) code).checkPoison.complete c st
          | .ok bytes =>
            (s.afterRead t (a + off) code).checkPoison.loadContext c
              ⟨t, a, kind, code, entry, shared, (opByte c 36).testBit 0, place, header, bytes⟩)

/-- CTX_LOAD (R250). -/
def execCtxLoad (c : Cmd) (s : State) : Host.Outcome State Fault Refusal := next (s.ctxLoad c)

/-! ### Launching and stopping (R237, R251, R253, R342) -/

/-- The launch count of a barrier launch (R342). -/
abbrev barrierCount : Nat := 0xFFFFFFFFFFFFFFFF

/-- Launch counts accepted (R253, R342): the count, or the status of the refusal. -/
def State.launchCount (s : State) (slot l : Nat) : Except Nat Nat :=
  if l = barrierCount then if s.on Fld.YT_CTRL_BARRIER_EN && !(s.context slot).hub then .ok s.now else .error CS.badCommand
  else if l = 0 then .ok (s.now + 2000)
  else if l < s.now + 2000 then .error CS.timeout
  else .ok l

/-- A context ARMED for a launch (R237); or the status and state that refuse it. -/
def State.arm (s : State) (slot l limit arg : Nat) (wait : Option Cmd) : Except (Nat × Nat) (State × Nat) :=
  let x := s.context slot
  if !([CtxState.loaded, .halted, .stopped].contains x.state) then .error (CS.notReady, ctxStateCode x.state)
  else if x.hub && !s.threadBound x.tenant x.thread then .error (CS.badCommand, 0)
  else match s.launchCount slot l with
  | .error st => .error (st, 0)
  | .ok at_ =>
    .ok (s.setContext slot { x with
      state := .armed, launchYt := at_, runLimit := limit, arg := arg, barrier := decide (l = barrierCount), waitCmd := wait,
      fault := {}, haltCode := 0, onCells := false, ready := false, weighted := x.weighted }, if l = barrierCount then l else at_)

/-- CTX_LAUNCH and `sc.launch`. -/
def State.launch (s : State) (c : Cmd) (t h l limit arg : Nat) (wait cellOnly : Bool) : State :=
  if !s.on Fld.SCH_CTX_CTRL_EN then s.complete c CS.notReady
  else match s.checkContext t h with
  | .error st => s.complete c st
  | .ok slot =>
    if cellOnly && (s.context slot).hub then s.complete c CS.badCommand
    else match s.arm slot l limit arg (if wait then some c else none) with
    | .error e => s.complete c e.1 e.2
    | .ok (s, at_) => if wait then s else s.complete c CS.ok at_

/-- CTX_LAUNCH (R253). -/
def State.ctxLaunch (s : State) (c : Cmd) : State :=
  s.runHeld c .tenant false (fun s =>
    s.launch c ((s.issuerTenant c.issuer).getD 0) c.handle.toNat (opU64 c 32) (opU64 c 40) c.addrA.toNat ((opByte c 48).testBit 0) false)

def execCtxLaunch (c : Cmd) (s : State) : Host.Outcome State Fault Refusal := next (s.ctxLaunch c)

/-- `sc.launch` (R304). -/
def execScLaunch (n : Insn) (s : State) : Host.Outcome State Fault Refusal :=
  next (s.runInsn n 0x21 0 { side := .hub, d := .sPair, a := .s, b := .sOrI, c := .s } (fun s y =>
    let c := s.hubCmd n
    s.request n y true c none (fun s =>
      s.launch c (s.context n.slot).tenant (y.num n n.a) (y.num n n.b) 0 (y.num n n.c) false true)))

/-- CTX_STOP and `sc.stop` (R237). -/
def State.stop (s : State) (c : Cmd) (t h : Nat) : State :=
  if !s.on Fld.SCH_CTX_CTRL_EN then s.complete c CS.notReady
  else match s.checkContext t h with
  | .error st => s.complete c st
  | .ok slot =>
    let x := s.context slot
    if !([CtxState.armed, .running, .switched].contains x.state) then s.complete c CS.notReady (ctxStateCode x.state)
    else
      let s := s.stopContext slot
      let s := if !x.hub && x.onCells && (sparseGet {} s.parts x.partition).entries.isEmpty then s.cellsFreed x.partition x.tenant else s
      s.complete c CS.ok

/-- CTX_STOP (R237). -/
def State.ctxStop (s : State) (c : Cmd) : State :=
  s.runHeld c .tenant false (fun s => s.stop c ((s.issuerTenant c.issuer).getD 0) c.handle.toNat)

def execCtxStop (c : Cmd) (s : State) : Host.Outcome State Fault Refusal := next (s.ctxStop c)

/-- `sc.stop` (R304). -/
def execScStop (n : Insn) (s : State) : Host.Outcome State Fault Refusal :=
  next (s.runInsn n 0x21 2 { side := .hub, d := .s, a := .s } (fun s y =>
    let c := s.hubCmd n
    s.request n y false c none (fun s => s.stop c (s.context n.slot).tenant (y.num n n.a))))

/-- The 256-byte status block (R252, R462). -/
def State.statusBlock (s : State) (slot : Nat) : List Byte :=
  let x := s.context slot
  let saveAt := if x.weighted then 0 else saveAddr x ((x.saves.map (·.1)).headD 0)
  bytesOf 8 (s.contextHandle slot) ++ bytesOf 1 (ctxStateCode x.state) ++ bytesOf 1 (if x.hub then 1 else 0) ++
    bytesOf 1 x.fault.cause ++ bytesOf 1 x.fault.status ++ bytesOf 4 x.fault.unit ++ bytesOf 8 x.fault.pc ++ bytesOf 16 x.fault.word ++
    bytesOf 8 x.fault.addr ++ bytesOf 8 x.fault.yt ++ bytesOf 4 x.fault.further ++ bytesOf 4 x.haltCode ++ bytesOf 8 saveAt ++
    bytesOf 8 x.retired ++ List.replicate 176 0

/-- CTX_QUERY (R252). -/
def State.ctxQuery (s : State) (c : Cmd) : State :=
  s.runCmd c .tenant false (fun s =>
    if !s.on Fld.SCH_CTX_CTRL_EN then s.complete c CS.notReady
    else match s.checkContext ((s.issuerTenant c.issuer).getD 0) c.handle.toNat with
    | .error st => s.complete c st
    | .ok slot => match s.writeOut c c.addrA.toNat (s.statusBlock slot) with
      | .error st => (s.readInFault c c.addrA.toNat st).complete c st
      | .ok s => s.complete c CS.ok (ctxStateCode (s.context slot).state))

def execCtxQuery (c : Cmd) (s : State) : Host.Outcome State Fault Refusal := next (s.ctxQuery c)

/-- CTX_FREE (R237, R251). -/
def State.ctxFree (s : State) (c : Cmd) : State :=
  s.runHeld c .tenant false (fun s =>
    if !s.on Fld.SCH_CTX_CTRL_EN then s.complete c CS.notReady
    else match s.checkContext ((s.issuerTenant c.issuer).getD 0) c.handle.toNat with
    | .error st => s.complete c st
    | .ok slot =>
      let st := (s.context slot).state
      if [CtxState.loaded, .halted, .stopped, .faulted].contains st then (s.freeContext slot).complete c CS.ok
      else s.complete c CS.notReady (ctxStateCode st))

def execCtxFree (c : Cmd) (s : State) : Host.Outcome State Fault Refusal := next (s.ctxFree c)

/-! ### Slices (R254, R361 to R365) -/

def State.part (s : State) (p : Nat) : PartX := sparseGet {} s.parts p
def State.setPart (s : State) (p : Nat) (x : PartX) : State := { s with parts := sparsePut {} p x s.parts }

/-- The slice table that the registers hold: up to the first DURATION 0 (R361). -/
def State.sliceTable (s : State) (p : Nat) : List (Nat × Nat) :=
  ((List.range 16).map (fun e => (s.get (Fld.SCH_SLICE_TENANT p e), s.get (Fld.SCH_SLICE_DURATION p e)))).takeWhile (fun e => e.2 ≠ 0)

def cycleOf (l : List (Nat × Nat)) : Nat := (l.map (·.2)).foldl (· + ·) 0

/-- The table of the registers taken over at a count (R361): its first cycle is the first at or after that count. -/
def State.reloadSlices (s : State) (p at_ : Nat) : PartX :=
  let l := s.sliceTable p
  let first := s.get (Fld.SCH_SLICE_START_NS p)
  let cycle := cycleOf l
  { entries := l, start := first, entry := 0, begun := false
    cycleAt := if l.isEmpty ∨ at_ ≤ first then first else first + ceilDiv (at_ - first) cycle * cycle }

/-- The next boundary of a partition's slices: the state it brings and its count. A cycle's start takes the table of the registers. -/
def State.nextEntry (s : State) (p : Nat) : Option (PartX × Nat) :=
  let x := s.part p
  let cycleStart (at_ : Nat) : PartX × Nat := let y := s.reloadSlices p at_; ({ y with begun := !y.entries.isEmpty && decide (y.cycleAt = at_) }, at_)
  if x.entries.isEmpty then none
  else if !x.begun then some (cycleStart x.cycleAt)
  else if x.entry + 1 < x.entries.length then some ({ x with entry := x.entry + 1, freedBy := none }, x.cycleAt + cycleOf (x.entries.take (x.entry + 1)))
  else some (cycleStart (x.cycleAt + cycleOf x.entries))

/-- The tenant of the entry that runs. -/
def entryTenant (x : PartX) : Option Nat := if x.begun then (x.entries[x.entry]?).map (·.1) else none

/-- A ready context brought onto its partition's Cells, the one on them switched out (R363 steps 1 to 3). -/
def State.prepare (s : State) (p slot : Nat) : State :=
  let s : State := match s.onPartition p with
    | none => s
    | some old =>
      let x := s.context old
      if x.state = CtxState.running then s.switchOut old else s.setContext old { x with onCells := false, ready := false }
  s.setContext slot { s.context slot with onCells := true, ready := true }

/-- A context prepared on its Cells runs: restored, or started once its launch count has come (R363, R254). -/
def State.runPrepared (s : State) (slot : Nat) : State :=
  let x := s.context slot
  if x.state = .switched then s.resumeContext slot
  else if x.state = .armed && decide (x.launchYt ≤ s.now) then
    s.startContext slot
  else s

/-- SWITCH_WINDOW_OPEN (R363): before the next entry's start, its tenant's context is brought onto the Cells. -/
def execSwitchWindowOpen (p : Nat) (s : State) : Host.Outcome State Fault Refusal :=
  next (match s.nextEntry p with
    | none => s
    | some (x, at_) =>
      if s.freezing || s.now + s.get (Fld.SCH_SWITCH_NS p) < at_ then s
      else match entryTenant x with
        | none => s
        | some t => match s.pickContext p (entryEnd x) (fun y => decide (y.tenant = t)) with
          | some slot => if (s.context slot).onCells then s else s.prepare p slot
          | none => s)

/-- SLICE_ENTRY_START (R361, R362): at its count the next entry begins, and the context prepared for it runs. With an empty table, or with Cells
idle, a ready context takes them. -/
def execSliceEntryStart (p : Nat) (s : State) : Host.Outcome State Fault Refusal :=
  next (if s.freezing then s
    else match s.nextEntry p with
    | none => if (s.onPartition p).isSome then s else s.cellsFreed p 0
    | some (x, at_) =>
      if s.now < at_ then s
      else
        let s := s.setPart p x
        match entryTenant x with
        | none => s
        | some t =>
          let prepared := (s.onPartition p).filter (fun slot => (s.context slot).ready)
          let s := if prepared.isSome then s
            else match s.pickContext p (entryEnd x) (fun y => decide (y.tenant = t)) with
              | some slot => if (s.context slot).onCells then s else s.prepare p slot
              | none => s
          match s.onPartition p with
          | some slot => if (s.context slot).ready then s.runPrepared slot else s
          | none => s)

/-- CONTEXT_LAUNCH_AT (R253, R254, R339): the launch count of an ARMED context has come. A Cell context starts where it is prepared
on its Cells, or where they are idle and the slice is its tenant's or a context of its tenant left them so (R365); a Hub context on a thread that is still
bound to its tenant (R366). -/
def State.launchAt (s : State) (slot : Nat) : State :=
  let x := s.context slot
  if x.state ≠ .armed || s.now < x.launchYt || s.freezing then s
  else if x.hub then (if s.threadBound x.tenant x.thread then s.startContext slot else s)
  else if x.onCells && x.ready then s.runPrepared slot
  else
    let y := s.part x.partition
    if (s.onPartition x.partition).isNone && (y.entries.isEmpty || [entryTenant y, y.freedBy].contains (some x.tenant)) then
      (s.prepare x.partition slot).runPrepared slot
    else s

def execContextLaunchAt (slot : Nat) (s : State) : Host.Outcome State Fault Refusal := next (s.launchAt slot)

/-- RUN_LIMIT_EXPIRY (R255). -/
def execRunLimitExpiry (slot : Nat) (s : State) : Host.Outcome State Fault Refusal :=
  let x := s.context slot
  next (if [CtxState.running, CtxState.switched].contains x.state && x.runLimit ≠ 0 && decide (x.launchYt + x.runLimit ≤ s.now) then
      s.faultContext slot ((s.contextUnits slot).headD 0) 0x0E 0 0
    else s)

end Sys2Proof.Machine
end

