-- ==== Sys2Proof/Machine/Rounds.lean ====
section
/-! DEFINITION. Rounds: their issue, composition, launch and end (R59, R72, R87 to R93, R100, R324, R340, R367 to R376). -/

namespace Sys2Proof.Machine

def State.roundOf (s : State) (t : Nat) : RoundX := sparseGet {} s.rounds t
def State.setRound (s : State) (t : Nat) (r : RoundX) : State := { s with rounds := sparsePut {} t r s.rounds }

/-! ### Issue (R367, R368) -/

/-- Whether a round descriptor keeps R367, its list and peers lying in the tenant's domain. -/
def State.roundFieldsOk (s : State) (t : Nat) (b : List Byte) : Bool :=
  let stalls := recGet b 8 4
  let peers := recGet b 12 2
  let tally := recGet b 32 4
  decide (1 ≤ stalls ∧ stalls ≤ 65535 ∧ peers ≤ 4095) && (decide (tally < 8192) || decide (tally = 0xFFFFFFFF)) &&
    s.tenantOwns t (recGet b 16 8) (8 * stalls) && (peers = 0 || s.tenantOwns t (recGet b 24 8) (2 * peers))

/-- The launch count of a round: as given, or the first whole multiple of PERIOD at least LEAD + 2,000 ns ahead. -/
def State.roundLaunchCount (s : State) (t l : Nat) : Nat :=
  let period := s.get (Fld.SCH_ROUND_CFG_PERIOD t)
  if l = 0 then ceilDiv (s.now + s.get (Fld.SCH_ROUND_CFG_LEAD t) + 2000) period * period else l

/-- The peers of a round. -/
def State.roundPeers (s : State) (t : Nat) (b : List Byte) : Except Nat (List Nat) :=
  let n := recGet b 12 2
  if n = 0 then .ok [] else (s.readT1 t (recGet b 24 8) (2 * n)).map (fun p => (List.range n).map (fun k => recGet p (2 * k) 2))

/-- A round's descriptor checked in the order of R368, and the round set to wait for its composition. -/
def State.issueRound (s : State) (w : RoundWait) (t : Nat) (b : List Byte) : State :=
  let deny (st : Nat) : State := s.answerHub w.slot w.unit w.cmd st 0
  if !s.roundFieldsOk t b then deny CS.badCommand
  else match s.checkContext t (recGet b 0 8), s.roundPeers t b with
  | .error _, _ => deny CS.badCommand
  | .ok _, .error st => deny st
  | .ok ctx, .ok peers =>
    let x := s.context ctx
    let launch := s.roundLaunchCount t w.launch
    if x.hub then deny CS.badCommand
    else if x.state = .faulted then deny CS.fault
    else if launch < s.now + 2000 + s.get (Fld.SCH_ROUND_CFG_LEAD t) then deny CS.timeout
    else if (s.roundOf t).waiting.isSome then deny CS.notReady
    else s.setRound t { s.roundOf t with waiting := some { w with launch := launch, body := b, peers := peers } }

/-- `sc.round` (R304, R368): it completes when its composition closes. -/
def execScRound (n : Insn) (s : State) : Host.Outcome State Fault Refusal :=
  next (s.runInsn n 0x21 1 { side := .hub, d := .sPair, a := .s, b := .sOrI } (fun s y =>
    let c := s.hubCmd n
    let t := (s.context n.slot).tenant
    let a := y.num n n.a
    s.request n y true c none (fun s =>
      if !s.on Fld.SCH_CTRL_EN then s.complete c CS.notReady
      else if !s.tenantOwns t a 64 then s.complete c CS.badCommand
      else match s.readT1 t a 64 with
      | .error st => (s.afterRead t a 64).checkPoison.complete c st
      | .ok b => (s.afterRead t a 64).checkPoison.issueRound ⟨n.slot, n.unit, coreOf c, a, y.num n n.b, [], []⟩ t b)))

/-! ### Candidates (R371) and what their steps append (R93, R100) -/

/-- A candidate and what its step would append: NEXT_INPUT, a number of queued tokens, drafts; `limit` in rows 1 and 2 of R100. -/
structure Cand where
  i : Nat
  next : List Nat
  input : Nat
  drafts : List Nat
  limit : Bool
deriving DecidableEq, Repr

/-- A, the records a candidate's step appends. -/
def Cand.size (c : Cand) : Nat := c.next.length + c.input + c.drafts.length

/-- Whether a stall is a candidate of its tenant's round (R371). -/
def isCandidate (t : Nat) (x : Stall) : Bool :=
  decide (x.state = .hot ∧ x.hdr.kind = 0 ∧ x.hdr.tenant = t) && !flagOn x 3 && !flagOn x 5 && !flagOn x 6

/-- An element put into a list before the first that `before` says it goes ahead of. -/
def insertBy (before : Nat → Nat → Bool) (a : Nat) : List Nat → List Nat
  | [] => [a]
  | b :: bs => if before a b then a :: b :: bs else b :: insertBy before a bs

/-- The candidates of a tenant in the order of R371, and which of them were left out too often; sessions are not stepped while KV_CTRL.EN is 0 (R114). -/
def State.candidates (s : State) (t : Nat) : List Nat × List Nat :=
  let all := if s.on Fld.KV_CTRL_EN then (s.stalls.filter (fun e => isCandidate t e.2)).map (·.1) else []
  let starved := all.filter (fun i => decide (s.get Fld.SCH_STARVE_COMPOSITIONS ≤ (s.stall i).leftOut))
  let rest := all.filter (fun i => !starved.contains i)
  let before (a b : Nat) : Bool :=
    let pa := (s.stall a).hdr.priority
    let pb := (s.stall b).hdr.priority
    decide (pb < pa) || (decide (pa = pb) && decide (a < b))
  (starved.foldr (insertBy (fun a b => decide (a < b))) [] ++ rest.foldr (insertBy before) [], starved)

/-- What a stall's step appends (R93), within the token limit (R100). -/
def State.candOf (s : State) (drafts : List (Nat × List Nat)) (i : Nat) : Cand :=
  let x := s.stall i
  let next := match x.table with | some p => if p.nextInput = 0xFFFFFFFF then [] else [p.nextInput] | none => []
  let room := tokenLimit x - x.hdr.committedLen
  let input := min x.queued.length (s.get Fld.KV_STEP_TOKENS_TOKENS - next.length)
  let spec := if input = 0 && flagOn x 0 then (((drafts.find? (fun d => d.1 = i)).map (·.2)).getD []).take (s.get (Fld.KV_SHAPE_SPEC_MAX x.shape)) else []
  if room = 0 then ⟨i, [], 0, [], true⟩
  else if room < next.length + input then ⟨i, next, room - next.length, [], true⟩
  else ⟨i, next, input, spec.take (room - next.length - input), false⟩

/-- A candidate clipped to at most `m` records: drafts first, then queued input (R59). -/
def Cand.clip (m : Nat) (c : Cand) : Cand :=
  if c.size ≤ m then c
  else
    let base := c.next.length + c.input
    if base ≤ m then { c with drafts := c.drafts.take (m - base) }
    else { c with drafts := [], input := m - c.next.length, limit := false }

/-! ### The four passes (R371) -/

/-- The cap pass: the candidates kept. -/
def State.capPass (s : State) (t maxStalls : Nat) (order : List Nat) : List Nat :=
  let cap := s.get (Fld.SCH_CAP_CAP t)
  let protect := s.get (Fld.SCH_LATENCY_PROTECT t)
  ((order.zipIdx.filter (fun e => decide (e.2 < cap) || decide (protect ≤ (s.stall e.1).hdr.priority))).map (·.1)).take maxStalls

/-- Bytes a candidate's append would make dirty (R111). -/
def State.candDirt (s : State) (c : Cand) : Nat := c.size * tokenDirt (s.stall c.i)

/-- The longest prefix of candidates whose appends fit within the room left (R59). -/
def State.dirtyFit (s : State) : (room : Nat) → List Cand → List Cand
  | _, [] => []
  | room, c :: cs => if s.candDirt c ≤ room then c :: s.dirtyFit (room - s.candDirt c) cs else []

/-- The dirty pass (R59, R60). -/
def State.dirtyPass (s : State) (cs : List Cand) : List Cand :=
  let limit := s.dirtyLimit
  let clipped := cs.map (fun c => let d := tokenDirt (s.stall c.i); if d = 0 then c else c.clip (max 1 (limit / d)))
  if limit = 0 || limit < s.get Fld.STL_DIRTY_NOW_NOW then []
  else s.dirtyFit (limit - s.get Fld.STL_DIRTY_NOW_NOW) clipped

/-- A layer's pages for `n` positions linked on its Hive (R89), or none where the Hive has no room or is none of the tenant's partition (R359). -/
def State.linkPages (s : State) (i layer n : Nat) : Option State :=
  let x := s.stall i
  match x.table with
  | none => some s
  | some p => match p.layers[layer]? with
    | none => some s
    | some l =>
      let need := pagesFor p.pageMin p.pageMax p.recBytes n
      let have_ := l.pages.length
      if need ≤ have_ then some s
      else if s.allocStopped || !s.partitionHive x.hdr.tenant (hiveOf l.list) then none
      else (s.takePages (hiveOf l.list) (.stall i) p.pageMin p.pageMax p.recBytes (need - have_) have_).map (fun r =>
        let s := r.1.foldl (fun s pg => s.writeT1 x.hdr.tenant pg.addr (pageHeader x.handle pg.scale pg.firstToken layer pg.size p.shape)) r.2
        s.setStall i { s.stall i with table := some { p with layers := p.layers.modify layer (fun l => { l with pages := l.pages ++ r.1 }) } })

/-- One layer in the pages pass: its pages linked, or its relocation started (R89, R90); whether the stall can still be taken. -/
def State.pageLayer (s : State) (i n layer : Nat) (ok : Bool) : State × Bool :=
  match s.linkPages i layer n with
  | some s => (s, ok)
  | none =>
    let extra := match (s.stall i).table with
      | some p => pagesFor p.pageMin p.pageMax p.recBytes n - ((p.layers[layer]?).map (fun l => l.pages.length)).getD 0
      | none => 0
    (if s.allocStopped then s else s.startReloc i layer extra, false)

/-- The pages pass for one stall (R89, R90): one whose layers move, or lie in a channel being evacuated, is left out. -/
def State.pagesOk (s : State) (c : Cand) : State × Bool :=
  let leaving (a : Nat) : Bool := s.units.evacuating.any (fun e => inChannel (e.1 / 16) (e.1 % 16) a)
  let s := if (layersIn leaving (s.stall c.i)).isEmpty then s else s.vacate leaving c.i
  let x := s.stall c.i
  if !x.relocs.isEmpty then (s, false)
  else
    let n := x.hdr.committedLen + c.size
    let layers := (x.table.map (fun p => p.layers.length)).getD 0
    (List.range layers).foldl (fun r l => r.1.pageLayer c.i n l r.2) (s, true)

/-- The pages pass: the state and the candidates kept. -/
def State.pagesPass (s : State) : List Cand → State × List Cand
  | [] => (s, [])
  | c :: cs =>
    let r := s.pagesOk c
    let q := r.1.pagesPass cs
    (q.1, if r.2 then c :: q.2 else q.2)

/-- The budget pass for one stall (R72, R374): the tokens reserved, with drafts clipped; none where the account is empty, or while an audit stops reservation (R47). -/
def State.reserve (s : State) (c : Cand) : Option (State × Cand) :=
  let t := s.stallTenant c.i
  let left := s.get (Fld.TN_REMAINING_TOKENS t)
  let c := if s.unlimited t || c.drafts.length < left then c else { c with drafts := c.drafts.take (left - 1) }
  if s.allocStopped || (!s.unlimited t && left = 0) then none
  else
    let r := 1 + c.drafts.length
    some ((s.charge t r).updHdr c.i (fun h => { h with stepReserve := r, budgetUsed := h.budgetUsed + r }), c)

def State.budgetPass (s : State) : List Cand → State × List Cand
  | [] => (s, [])
  | c :: cs => match s.reserve c with
    | none => s.budgetPass cs
    | some (s, c) => let q := s.budgetPass cs; (q.1, c :: q.2)

/-! ### Composition (R200, R368 to R371, R375) -/

/-- The profile a composition point copies for a stall (R199 to R201), with EV_SEL_PROFILE_BAD where it is greedy decoding. -/
def State.copyProfile (s : State) (i : Nat) : State × Nat × Option (List Byte) :=
  let x := s.stall i
  let t := x.hdr.tenant
  let k := (x.hdr.notes.headD 0).toNat
  let at_ := s.get (Fld.SEL_PROF_BASE t) + 32 * k
  if s.get (Fld.SEL_PROF_COUNT t) ≤ k then (s.stallEvent 0x0904 i, at_, none)
  else
    let r := s.reading1 t at_ 32
    let b : Option (List Byte) := match r.2 with | .ok b => some b | .error _ => none
    (if (b.bind profileOf).isNone then r.1.stallEvent 0x0904 i else r.1, at_, b)

/-- A stall taken into a round: RUNNING, in its step (R92, R93, R167). -/
def State.takeStall (s : State) (id : Nat) (c : Cand) : State :=
  let p := s.copyProfile c.i
  let s := p.1
  let x := s.stall c.i
  let h := { x.hdr with specLen := x.hdr.committedLen + c.size, spill := [] }
  let s := s.setStall c.i { x with
    state := .running, leftOut := 0, hdr := h
    step := some { round := id, appended := c.next ++ x.queued.take c.input, inputTokens := c.input, drafts := c.drafts, limitHit := c.limit,
                   profileAt := p.2.1, profile := p.2.2, draws := [], masks := [], dead := false, text := textOf h, out := [], nd := 0,
                   held := none, waits := [] } }
  if c.input = 0 then s else s.flushHeld c.i

/-- A candidate left out: its count moves on. -/
def State.leaveOut (s : State) (i : Nat) : State := s.setStall i { s.stall i with leftOut := (s.stall i).leftOut + 1 }

/-- What the passes leave. -/
structure Composed where
  s : State
  taken : List Cand
  total : Nat
  capLeft : Bool
  budgetLeft : Bool

/-- The passes of R371 over a tenant's candidates, with the counts of those left out. The stall engine reads what they have in Tier 1 first (R126). EV_STALL_DIRTY_THROTTLE names the
last candidate, the first that the dirty pass leaves out. -/
def State.passes (s : State) (t id maxStalls : Nat) (drafts : List (Nat × List Nat)) : Composed :=
  let s := (s.candidates t).1.foldl (fun s i => s.tend i) s
  let order := s.candidates t
  let s := order.2.foldl (fun s i => s.stallEvent 0x0A03 i [id]) s
  let kept := s.capPass t maxStalls order.1
  let cands := kept.map (s.candOf drafts)
  let dirty := s.dirtyPass cands
  let s := if dirty.length < cands.length then (cands.reverse.head?).elim s (fun c => s.stallEvent 0x0601 c.i) else s
  let pages := s.pagesPass dirty
  let s := pages.1
  let budget := s.budgetPass pages.2
  let s := budget.1
  let s := s.bump (Fld.SCH_LEFT_COUNT 0) (order.1.length - kept.length)
  let s := s.bump (Fld.SCH_LEFT_COUNT 1) (cands.length - dirty.length)
  let s := s.bump (Fld.SCH_LEFT_COUNT 2) (dirty.length - pages.2.length)
  let s := s.bump (Fld.SCH_LEFT_COUNT 3) (pages.2.length - budget.2.length)
  let taken := budget.2.map (·.i)
  let s := (order.1.filter (fun i => !taken.contains i)).foldl (fun s i => s.leaveOut i) s
  ⟨s, budget.2, order.1.length, decide (kept.length < order.1.length), decide (budget.2.length < pages.2.length)⟩

/-- A round composed (R368): its stalls taken, its descriptor and list written, its context armed, its Waggles sent, `sc.round`
answered. -/
def State.compose (s : State) (t : Nat) (w : RoundWait) (ctx : Nat) (drafts : List (Nat × List Nat)) : State :=
  let s := s.bindSpares
  let id := (s.get Fld.SCH_ROUNDS_COUNT + 1) % 2 ^ 32
  let r := s.passes t id (recGet w.body 8 4) drafts
  let s := r.s.bump Fld.SCH_ROUNDS_COUNT 1
  let s := r.taken.foldl (fun s c => s.takeStall id c) s
  let stalls := r.taken.map (·.i)
  let n := stalls.length
  let s := s.writeT1 t (w.desc + 36) (bytesOf 4 id ++ bytesOf 4 n ++ bytesOf 4 (r.total - n))
  let s := if n = 0 then s else s.writeT1 t (recGet w.body 16 8) (stalls.flatMap (fun i => bytesOf 8 (s.stall i).handle))
  let s := s.setContext ctx { s.context ctx with
    state := .armed, launchYt := w.launch, runLimit := 0, arg := w.desc, barrier := false, waitCmd := none, fault := {}, haltCode := 0,
    onCells := false, ready := false }
  let free := s.on Fld.GC_ARITH_CTRL_FREE_ORDER_EN && stalls.all (fun i => flagOn (s.stall i) 2)
  let s := s.setRound t { waiting := none, flight := some ⟨id, w.launch, ctx, stalls, r.capLeft, free, recGet w.body 32 4, false⟩ }
  let s := w.peers.foldl (fun s d =>
    s.send { type := 0x20, src := s.deviceId, dst := d, tenant := 0, handle := 0, msgId := id, aux := w.launch, payload := bytesOf 2 (w.peers.length + 1) }) s
  s.answerHub w.slot w.unit w.cmd (if r.budgetLeft then CS.budget else CS.ok) n

/-- A round not composed: `sc.round` answered with a status. -/
def State.refuseRound (s : State) (t : Nat) (w : RoundWait) (status : Nat) : State :=
  (s.setRound t { s.roundOf t with waiting := none }).answerHub w.slot w.unit w.cmd status 0

/-- COMPOSITION_POINT (R368, R371): tenant `t`'s waiting round is composed at L − LEAD; `drafts` are the draft tokens of its stalls. -/
def execCompositionPoint (t : Nat) (drafts : List (Nat × List Nat)) (s : State) : Host.Outcome State Fault Refusal :=
  next (match (s.roundOf t).waiting with
    | none => s
    | some w =>
      if s.now + s.get (Fld.SCH_ROUND_CFG_LEAD t) < w.launch || s.freezing || s.on Fld.PW_STATUS_PARKING || s.on Fld.PW_STATUS_SAFE then s
      else if w.launch < s.now then s.refuseRound t w CS.timeout
      else match (s.roundOf t).flight with
      | some f => (s.refuseRound t w CS.notReady).raise { code := 0x0A01, tenant := some t, detail := [f.id] }
      | none => match s.checkContext t (recGet w.body 0 8) with
        | .error _ => s.refuseRound t w CS.badCommand
        | .ok ctx =>
          let st := (s.context ctx).state
          if st = .faulted then s.refuseRound t w CS.fault
          else if [CtxState.loaded, .halted, .stopped].contains st then s.compose t w ctx drafts
          else s.refuseRound t w CS.notReady)

/-! ### Launch and end (R339, R369, R372) -/

/-- The shares of accepted Waggles whose launch count has come (R340): each leaves the list, and the contexts armed for that count start. -/
def State.launchShares (s : State) : State :=
  let due := s.net.shares.filter (fun x => decide (x.2.2 ≤ s.now))
  let s := { s with net := { s.net with shares := s.net.shares.filter (fun x => decide (s.now < x.2.2)) } }
  due.foldl (fun s x => (s.contexts.map (·.1)).foldl (fun s i =>
    if decide ((s.context i).state = .armed) && decide ((s.context i).launchYt = x.2.2) then s.launchAt i else s) s) s

/-- ROUND_LAUNCH (R339, R340): the launch count of tenant `t`'s round has come, or that of a share of another device's round. -/
def execRoundLaunch (t : Nat) (s : State) : Host.Outcome State Fault Refusal :=
  let s := if s.on Fld.PW_STATUS_PARKING then s else s.launchShares
  next (match (s.roundOf t).flight with
    | some f => if s.now < f.launch || s.on Fld.PW_STATUS_PARKING then s else s.launchAt f.ctx
    | none => s)

/-- The cap adjusted at the end of round `id` (R372). -/
def State.adjustCap (s : State) (t id d : Nat) (capLeft : Bool) : State :=
  let goal := s.get (Fld.SCH_LATENCY_GOAL t)
  let cap := s.get (Fld.SCH_CAP_CAP t)
  if goal = 0 then s
  else if goal < d then
    let c := max (s.get (Fld.SCH_LATENCY_MIN_CAP t)) (cap - max 1 (cap / 8))
    (s.put (Fld.SCH_CAP_CAP t) c).raise { code := 0x0A02, tenant := some t, detail := [id, c] }
  else if decide (4 * d < 3 * goal) && capLeft then s.put (Fld.SCH_CAP_CAP t) (min 65535 (cap + max 1 (cap / 16)))
  else s

/-- Whether a round has ended (R369): its context has left its run and none of its stalls is in its step. -/
def State.roundOver (s : State) (f : Flight) : Bool :=
  [CtxState.halted, .faulted, .stopped, .free, .loaded].contains (s.context f.ctx).state &&
    f.stalls.all (fun i => match (s.stall i).step with | some p => decide (p.round ≠ f.id) | none => true)

/-- ROUND_END (R369, R372): tenant `t`'s round has ended. -/
def execRoundEnd (t : Nat) (s : State) : Host.Outcome State Fault Refusal :=
  next (match (s.roundOf t).flight with
    | none => s
    | some f =>
      if !s.roundOver f then s
      else
        let d := s.now - f.launch
        let s := s.setRound t { s.roundOf t with flight := none }
        let s := if f.doneTally = 0xFFFFFFFF || (s.tallyCheck t f.doneTally 1).isSome then s else (s.signal f.doneTally 1).2
        let s := (s.put (Fld.SCH_LAST_DURATION t) (min d 0xFFFFFFFF)).put (Fld.SCH_LAST_ROUND_ID t) f.id
        (s.adjustCap t f.id d f.capLeft).pfRoundEnd t)

end Sys2Proof.Machine
end

