-- ==== Sys2Proof/Machine/PowerOps.lean ====
section
/-! DEFINITION. Supply and heat limits, the emergency park and the reset of the device (R61, R495, R547 to R559). -/

namespace Sys2Proof.Machine

def State.setPw (s : State) (x : Power) : State := { s with pw := x }

/-! ### Reset of the device (R495, R559, R601) -/

/-- The whole device reset: every register and every state as after power-up, but for the latched FATAL event. What has left the
device and the counter of the free values stand. -/
def State.deviceReset (s : State) : State :=
  let kept := [Reg.EV_FATAL, Reg.EV_FATAL_YT]
  { State.reset with
    io := { regs := s.io.regs.filter (fun e => kept.contains e.1), out := s.io.out }
    freeIdx := s.freeIdx, pending := s.pending }

/-! ### Limits (R548, R551 to R553) -/

def State.sagOf (s : State) (d : Nat) : SagX := sparseGet {} s.pw.sag d
def State.setSag (s : State) (d : Nat) (x : SagX) : State := s.setPw { s.pw with sag := sparsePut {} d x s.pw.sag }

/-- The SUPPLY limit of a domain set. -/
def State.setSupply (s : State) (d l : Nat) : State := (s.put (Fld.PW_LIMITS_SUPPLY d) l).recomputeLimit d

/-- The POWER limit, one value for all domains (R551). -/
def State.setPowerLimit (s : State) (l : Nat) : State :=
  let s := (List.range 17).foldl (fun s d => s.put (Fld.PW_LIMITS_POWER d) l) s
  (List.range 17).foldl (fun s d => s.recomputeLimit d) s

/-- The registers of a telemetry rail: the pace domains' first, then those of PW_XRAIL (R547). -/
def railMv (r : Nat) : RegField := if r < 17 then Fld.PW_RAIL_MV r else Fld.PW_XRAIL_MV (r - 17)
def railDa (r : Nat) : RegField := if r < 17 then Fld.PW_RAIL_DA r else Fld.PW_XRAIL_DA (r - 17)
def railStatus (r : Nat) : RegField := if r < 17 then Fld.PW_RAIL_STATUS r else Fld.PW_XRAIL_STATUS (r - 17)

/-- One rail of a sample (R547): its registers, or EV_PW_RAIL_FAULT where it could not be read; a fault bit of its status raises it too. -/
def State.readRail (s : State) (l : List RailReading) (r : Nat) : State :=
  let faulty (s : State) : State := s.raise { code := 0x0208, subject := r }
  match l.find? (fun x => x.rail = r) with
  | none => faulty s
  | some x =>
    let s := ((s.put (railMv r) x.mv).put (railDa r) x.deciAmps).put (railStatus r) x.status
    if x.fault then faulty s else s

/-- PW_POWER of a sample in watts: the 22 rails and FIXED_W (R547), rounded down. -/
def State.sampledWatts (s : State) : Nat :=
  ((List.range 22).map (fun r => s.get (railMv r) * s.get (railDa r))).foldl (· + ·) 0 / 10000 + s.get Fld.PW_CAP_FIXED_W

/-- What a sample does to the POWER limit (R551). -/
def State.capPower (s : State) (watts : Nat) : State :=
  let cap := s.get Fld.PW_CAP_W
  let l := s.get (Fld.PW_LIMITS_POWER 0)
  if !s.on Fld.PW_CTRL_CAP_EN then s
  else if cap < watts then
    let s := (s.setPw { s.pw with lowRun := 0 }).setPowerLimit (min 7 (l + 1))
    if l = 0 then s.raise { code := 0x0207, detail := [0] } else s
  else if 10 * watts < 9 * cap then
    if s.pw.lowRun + 1 < 10 then s.setPw { s.pw with lowRun := s.pw.lowRun + 1 }
    else (s.setPw { s.pw with lowRun := 0 }).setPowerLimit (l - 1)
  else s.setPw { s.pw with lowRun := 0 }

/-- A droop sample of one domain (R548). -/
def State.droop (s : State) (d mv : Nat) : State :=
  if s.get (Fld.CK_PACE_STATE_VID_AT d) ≤ mv + s.get Fld.PW_SAG_MV then s
  else
    let s := s.bump (Fld.PW_DROOP_CNT_COUNT d) 1
    let ms := s.now / 1000000
    let x := s.sagOf d
    let low := if x.ms = ms then x.low + 1 else 1
    let enough := decide (low = s.get Fld.PW_SAG_COUNT + 1)
    let s := s.setSag d { ms := ms, low := low, stood := if s.get Fld.PW_SAG_COUNT < low then s.now else x.stood }
    if enough && s.on Fld.PW_CTRL_SAG_EN then
      ((s.setSupply d (min 7 (s.get (Fld.PW_LIMITS_SUPPLY d) + 1))).raise { code := 0x0205, subject := d }).cpTrigger Fld.CP_TRIG_SAG
    else s

/-- A signed 16-bit field. -/
def signedOf16 (x : Nat) : Int := if x < 2 ^ 15 then x else (x : Int) - 2 ^ 16

/-- The hottest sensor of a domain, in 0.1 °C, as PW_TEMP shows it (R552, R561). -/
def State.noteTemp (s : State) (d : Nat) (t : Int) : State :=
  let s := s.put (Fld.PW_TEMP_DECI_C d) (signedBits 16 t)
  if signedOf16 (s.get (Fld.PW_TEMP_MAX_DECI_C d)) < t then s.put (Fld.PW_TEMP_MAX_DECI_C d) (signedBits 16 t) else s

/-- The THERM limit of a domain stepped (R552). -/
def State.stepTherm (s : State) (d : Nat) (t : Int) : State :=
  let warn : Int := 10 * (s.get Fld.PW_TJ_WARN_C : Int)
  let hyst : Int := 10 * (s.get Fld.PW_TJ_HYST_C : Int)
  let l := s.get (Fld.PW_LIMITS_THERM d)
  if warn ≤ t then
    let s := s.put (Fld.PW_LIMITS_THERM d) (min 7 (l + 1))
    if l = 0 then (s.raise { code := 0x0207, subject := d, detail := [1] }).cpTrigger Fld.CP_TRIG_THERMAL else s
  else if t < warn - hyst then s.put (Fld.PW_LIMITS_THERM d) (l - 1)
  else s

/-- A thermal step of one domain (R552): the limit only while the power block runs, the trip also in FAILED (R514). -/
def State.thermal (s : State) (d : Nat) (t : Int) : State :=
  let s := s.noteTemp d t
  let s := if s.unitsRun then s.stepTherm d t else s
  if 1100 ≤ t then (s.setPw { s.pw with thermTrip := true }).raise { code := 0x020A, subject := d } else s

/-! ### The emergency park (R61, R555 to R558, R560) -/

/-- Whether a step has begun emitting its bytes: its `st.commit` is held for room (R61, R97). -/
def emitting (x : Stall) : Bool := match x.step with | some p => p.held.isSome | none => false

/-- Steps that have not begun emitting abandoned (R61). -/
def State.abandonSteps (s : State) : State :=
  ((s.stalls.filter (fun e => decide (e.2.state = .running) && !emitting e.2)).map (·.1)).foldl (fun s i => s.abandonStep i) s

/-- A composed round not yet launched: it is not launched (R560). -/
def State.dropFlight (s : State) (t : Nat) : State :=
  match (s.roundOf t).flight with
  | none => s
  | some f =>
    if (s.context f.ctx).state = .armed then
      (s.setContext f.ctx { s.context f.ctx with state := .loaded }).setRound t { s.roundOf t with flight := none }
    else s

/-- The sequence that a latched warning starts (R61, R556). -/
def State.beginParking (s : State) : State :=
  let s := s.put Fld.PW_STATUS_PARKING 1
  let s := s.abandonSteps
  let s := (s.rounds.map (·.1)).foldl (fun s t => s.dropFlight t) s
  s.dropCheckpoint .cancelled CS.cancelled

/-- The stalls whose journals the sequence seals: those whose header is in the pool, whatever their state, RETIRED ones apart; a park under way seals its own. -/
def State.toSeal (s : State) : List Nat :=
  (s.stalls.filter (fun e => e.2.poolSlot.isSome && decide (e.2.state ≠ .retired ∧ e.2.hdr.kind ≠ 1) && e.2.park.isNone)).map (·.1)

/-- The dirty remainder, the header record and the seal record of a stall written (R61), as far as the Shed has room. -/
def State.sealStall (s : State) (i : Nat) : State :=
  match s.journalUpTo i 0 (s.stall i).hdr.committedLen with
  | none => s
  | some s =>
    let s := s.journal i 0 (.header (s.stall i).hdr)
    s.journal i 0 (.seal (s.stall i).hdr.shedRoot)

end Sys2Proof.Machine
end

