-- ==== Sys2Proof/Machine/BringOps.lean ====
section
/-! DEFINITION. Bring-up: repair images, the binding of units and the building of the Survey (R494 to R514). -/

namespace Sys2Proof.Machine

def State.setBu (s : State) (x : BringUp) : State := { s with bu := x }

/-- BU_ERR (R516). -/
def State.buErr (s : State) (code detail : Nat) : State := (s.put Fld.BU_ERR_CODE code).put Fld.BU_ERR_DETAIL detail

/-- The length of a step that has ended (R513): measured against the crystal; the spec fixes no value. -/
def State.stepEnded (s : State) (k : Nat) : State :=
  let x := s.drawFree
  x.2.put (Fld.BU_STEP_US_US k) (x.1.toNat % 2 ^ 32)

def State.enterBu (s : State) (st : Nat) : State := s.put Fld.BU_STATE_STATE st

/-! ### FAILED (R514) -/

/-- The registers that keep their values in FAILED: the Survey's and those it is a view of, the BU_ registers, the bring-up port's, and the
always-on block's. -/
def keptInFailed (off : Nat) : Bool :=
  decide (off < 0x450000) || decide (0x1000100 ≤ off ∧ off < 0x1001100) || decide (0x1200100 ≤ off ∧ off < 0x1200140) ||
    decide (0x710000 ≤ off ∧ off < 0x720000) || decide (0x2010000 ≤ off ∧ off < 0x2012000) || decide (0x1810280 ≤ off ∧ off < 0x1810300) ||
    decide (0xC10000 ≤ off ∧ off < 0xC10800) || [Reg.EV_FATAL, Reg.EV_FATAL_YT, Reg.PW_STATUS, Reg.PW_POWER].contains off ||
    (List.range 17).any (fun d => off = Reg.PW_TEMP d)

/-- FAILED entered (R514): every unit but those of R514 is held in reset. -/
def State.failBringUp (s : State) (code detail : Nat) : State :=
  let s : State := { State.reset with
    io := { regs := s.io.regs.filter (fun e => keptInFailed e.1), out := s.io.out }
    units := s.units, t1 := { s.t1 with runs := [] }, shed := s.shed, svChanged := s.svChanged, bu := s.bu
    freeIdx := s.freeIdx, pending := s.pending }
  let s := (List.range 4).foldl (fun s n => if n = s.get Fld.BU_STRAP_PORT then s else s.put (Fld.GC_PORT_STATE_LINK n) 0) s
  (s.enterBu 8).buErr code detail

/-! ### Loading images (R498 to R503) -/

/-- The first byte from `lo` to `hi - 1` that is not 0. -/
def firstNonZero (b : List Byte) (lo hi : Nat) : Option Nat := ((List.range (hi - lo)).map (lo + ·)).find? (fun i => b.getD i 0 ≠ 0)

/-- The first fault of a repair entry (R502), by its offset. -/
def entryFault (b : List Byte) (at_ : Nat) : Option Nat :=
  let kind := recGet b at_ 1
  let hive := recGet b (at_ + 1) 1
  let unit := recGet b (at_ + 2) 2
  let top := [544, 17, 36, 8704, 2, 10, 32, 4, 1].getD kind 0
  if 8 < kind then some at_
  else if (if kind = 0 ∨ kind = 1 ∨ kind = 8 then 16 ≤ hive else hive ≠ 0xFF) then some (at_ + 1)
  else if top ≤ unit then some (at_ + 2)
  else if 2 < recGet b (at_ + 4) 1 then some (at_ + 4)
  else firstNonZero b (at_ + 6) (at_ + 8)

/-- The offsets of the entries of a repair image: the factory's, then the field's (R501). -/
def factoryAt (b : List Byte) : List Nat := (List.range (recGet b 16 4)).map (fun i => 64 + 8 * i)
def fieldAt (b : List Byte) : List Nat := (List.range (recGet b 20 4)).map (fun i => 160 + 8 * recGet b 16 4 + 8 * i)

/-- The first fault of a repair image against R501 and R502, by its offset. -/
def imageFault (b : List Byte) : Option Nat :=
  let f := recGet b 16 4
  let g := recGet b 20 4
  if recGet b 0 4 ≠ 0x52455052 then some 0
  else if recGet b 4 1 ≠ 1 then some 4
  else (firstNonZero b 5 8) <|>
    (if 65536 < f + g || b.length ≠ alignUp 64 (160 + 8 * f + 8 * g) then some 16
     else (firstNonZero b 24 64) <|> ((factoryAt b).findSome? (entryFault b)) <|> ((fieldAt b).findSome? (entryFault b)) <|>
       firstNonZero b (160 + 8 * f + 8 * g) b.length)

/-- The entries of a repair image: kind, Hive, unit. -/
def repairEntries (b : List Byte) : List (Nat × Nat × Nat) :=
  (factoryAt b ++ fieldAt b).map (fun o => (recGet b o 1, recGet b (o + 1) 1, recGet b (o + 2) 2))

/-- The outcome of a load's checks (R500, R503): none, or the code and detail of BU_ERR. -/
def loadFault (kind : Nat) (b : List Byte) : Option (Nat × Nat) :=
  if kind < 2 then (if Config.imageSigned b then none else some (0x01, kind))
  else match imageFault b with
  | some off => some (0x03, off)
  | none =>
    let f := recGet b 16 4
    if recGet b 8 8 ≠ Config.serial.toNat then some (0x02, kind)
    else if Config.repairSigned (b.take 20 ++ (b.drop 64).take (8 * f)) ((b.drop (64 + 8 * f)).take 96) then none
    else some (0x01, kind)

/-! ### Binding (R506) -/

/-- Whether a unit counts as good: no repair entry names it and it was not found failed. -/
def State.unitGood (s : State) (kind hive unit : Nat) : Bool := !s.bu.repairs.contains (kind, hive, unit) && !s.bu.found.contains (kind, hive, unit)

/-- Logical numbers below `n` whose default is not good bound to the good spares in order: who is bound to which, and who to none. -/
def bindSpareUnits (n : Nat) (good : Nat → Bool) (spares : List Nat) : List (Nat × Nat) × List Nat :=
  let failing := (List.range n).filter (fun i => !good i)
  let free := spares.filter good
  (List.zip failing free, failing.drop free.length)

/-- The Cells of a Comb bound (R506 steps 1 and 2): who serves on a spare and who is ABSENT; a Comb of fewer than 16 is out of service. -/
def State.bindComb (s : State) (c : Nat) : List (Nat × Nat) × List Nat :=
  let r := bindSpareUnits 256 (fun p => s.unitGood 0 (c / 2) (272 * (c % 2) + p)) ((List.range 16).map (256 + ·))
  if r.2.length ≤ 240 then r else ([], List.range 256)

/-- Whether a Comb is out of service. -/
def State.combOut (s : State) (c : Nat) : Bool := decide ((s.bindComb c).2.length = 256)

/-- The channels of a Hive bound, with HB_CH (R506). -/
def State.bindChannels (s : State) (h : Nat) : State :=
  let good (p : Nat) : Bool := s.unitGood 1 h p
  let r := bindSpareUnits 16 good [16]
  let s := (List.range 16).foldl (fun s p =>
    if good p then (s.put (Fld.HB_CH_LOGICAL h p) p).put (Fld.HB_CH_STATE h p) 0
    else (s.put (Fld.HB_CH_LOGICAL h p) 31).put (Fld.HB_CH_STATE h p) 4) s
  match r.1, good 16 with
  | (c, _) :: _, _ => (s.put (Fld.HB_CH_LOGICAL h 16) c).put (Fld.HB_CH_STATE h 16) 0
  | [], true => (s.put (Fld.HB_CH_LOGICAL h 16) 31).put (Fld.HB_CH_STATE h 16) 1
  | [], false => (s.put (Fld.HB_CH_LOGICAL h 16) 31).put (Fld.HB_CH_STATE h 16) 4

/-- The physical units of a kind that are not good, numbered by `f` of Hive and unit. -/
def State.badUnits (s : State) (kind : Nat) (f : Nat → Nat → Nat) : List Nat :=
  (((s.bu.repairs ++ s.bu.found).filter (fun e => e.1 = kind)).map (fun e => f e.2.1 e.2.2)).eraseDups

/-- Whether a Hive is ABSENT after binding (R506 step 3): its Aisle link, its channels, its Combs. -/
def State.hiveDead (s : State) (h : Nat) : Bool :=
  !s.unitGood 8 h 0 || !decide (4 ≤ s.channelsInUse h) || (s.combOut (2 * h) && s.combOut (2 * h + 1))

/-- Every logical unit bound (R506). -/
def State.bindUnits (s : State) (engines : List Nat) : State :=
  let s := (List.range 16).foldl (fun s h => s.bindChannels h) s
  let combs := (List.range 32).map (fun c => (c, s.bindComb c))
  let tallies := bindSpareUnits 8192 (fun p => s.unitGood 3 0xFF p) ((List.range 512).map (fun k => 8192 + k))
  let keys := bindSpareUnits 8 (fun p => s.unitGood 5 0xFF p) [8, 9]
  let badLanes := s.badUnits 2 (fun _ u => u)
  let units : Units := {
    absentCells := combs.flatMap (fun c => c.2.2.map (256 * c.1 + ·))
    rebound := combs.flatMap (fun c => c.2.1.map (fun e => (256 * c.1 + e.1, e.2)))
    badCells := s.badUnits 0 (fun h u => 544 * h + u)
    tallyAt := tallies.1, badTallies := s.badUnits 3 (fun _ u => u)
    keyAt := keys.1, badKeys := s.badUnits 5 (fun _ u => u), absentKeys := keys.2
    badLanes := badLanes, absentLanes := badLanes.filter (· < 32)
    groom := if s.unitGood 4 0xFF 0 then some 0 else if s.unitGood 4 0xFF 1 then some 1 else none
    badGroom := s.badUnits 4 (fun _ u => u)
    enginesLost := (s.badUnits 6 (fun _ u => u) ++ engines).eraseDups
    hostLost := (s.badUnits 7 (fun _ u => u)).foldl (fun m n => m + 2 ^ n) 0
    badChannels := s.badUnits 1 (fun h u => 17 * h + u) }
  let s := s.updUnits (fun _ => units)
  let s := tallies.2.foldl (fun s n => s.put (Fld.TL_BIND_ABSENT n) 1) s
  let s := badLanes.foldl (fun s l => s.retireLane l) s
  let dead := (List.range 16).filter s.hiveDead
  let s := dead.foldl (fun s h => (List.range 17).foldl (fun s p => (s.put (Fld.HB_CH_LOGICAL h p) 31).put (Fld.HB_CH_STATE h p) 5) s) s
  { s with t1 := { s.t1 with absent := dead.foldl (fun m h => m + 2 ^ h) 0 } }

/-- The conditions of R507 that do not hold, as the bits of DETAIL. -/
def State.belowMinimum (s : State) : Nat :=
  let bu := s.get Fld.BU_STRAP_PORT
  let port (n : Nat) : Bool := !s.units.hostLost.testBit n && (n ≠ bu || s.io.portUp n)
  let net (p : Nat) : Bool := (List.range 4).all (fun i => !s.units.absentLanes.contains (4 * p + i))
  let hive (h : Nat) : Bool := !s.hiveAbsent h && decide (4 ≤ s.channelsInUse h) &&
    (decide (16 ≤ s.cellsInComb (2 * h)) || decide (16 ≤ s.cellsInComb (2 * h + 1)))
  let bad := [s.units.groom.isNone, s.engineLost 7 0, s.engineLost 9 0, s.engineLost 10 0, !(List.range 16).any hive,
    !((List.range 4).any port || (List.range 8).any net)]
  (bad.zipIdx).foldl (fun m e => if e.1 then m + 2 ^ e.2 else m) 0

/-- Units found failed recorded (R508): the first 256 in BU_FOUND, the rest counted as overflow. -/
def State.recordFound (s : State) (l : List FoundUnit) : State :=
  l.foldl (fun s x =>
    let s := s.setBu { s.bu with found := s.bu.found ++ [(x.kind, x.hive, x.unit)] }
    let n := s.get Fld.BU_FOUND_COUNT_COUNT
    if 256 ≤ n then s.put Fld.BU_FOUND_COUNT_OVERFLOW 1
    else (s.put (Fld.BU_FOUND_ENTRY n) (x.kind + x.hive * 2 ^ 8 + x.unit * 2 ^ 16 + 2 ^ 32 + x.reason * 2 ^ 40)).put Fld.BU_FOUND_COUNT_COUNT (n + 1)) s

/-! ### The Survey at generation 1 (R479, R481, R485, R509) -/

/-- The first index and the count of the records of each type (R485). -/
def svDirectory : List (Nat × Nat × Nat) := [(1, 0, 32), (2, 32, 16), (3, 48, 32), (4, 80, 8192), (5, 8272, 16), (6, 8288, 256), (7, 8544, 4),
  (8, 8548, 8), (9, 8556, 32), (10, 8588, 8), (11, 8596, 71), (12, 8667, 8192), (13, 16859, 1047)]

/-- The Survey built. -/
def State.buildSurvey (s : State) : State :=
  let s := s.survey []
  let s := (s.put Fld.SV_ID_MAGIC 0x53565259).put Fld.SV_ID_MAJOR 1
  let s := (s.put Fld.SV_GEN_GENERATION 1).put Fld.SV_PART_MEMBER 0x16
  let s := (s.put Fld.SV_PART_REVISION Config.revision).put Fld.SV_PART_VARIANT (if Config.isK48 then 0 else 1)
  let s := (s.put Fld.SV_RECORDS_OFFSET 0x1000).put Fld.SV_RECORDS_COUNT svCount
  let s := (s.setReg Reg.SV_SERIAL Config.serial).put Fld.SV_CHANGED_YT_NS s.now
  let s := svDirectory.foldl (fun s y => (s.put (Fld.SV_DIR_FIRST y.1) y.2.1).put (Fld.SV_DIR_COUNT y.1) y.2.2) s
  s.writeTopology

/-- Whether BU_TOPO_EXP equals SV_TOPO. -/
def State.topologyAccepted (s : State) : Bool := (List.range 6).all (fun k => s.reg (Reg.BU_TOPO_EXP k) = s.reg (Reg.SV_TOPO k))

/-- The digest compared (R509): measurement 6 and CONFIG, or TOPO_MISMATCH. -/
def State.compareTopology (s : State) : State :=
  if s.topologyAccepted then
    let digest := (List.range 6).flatMap (fun k => bytesOf 8 (s.reg (Reg.BU_TOPO_EXP k)).toNat)
    ((s.setSec { s.sec with images := sparsePut [] 6 digest s.sec.images }).enterBu 6).buErr 0 0
  else s.buErr 0x06 0

end Sys2Proof.Machine
end

