-- ==== Sys2Proof/Machine/BringUp.lean ====
section
/-! DEFINITION. The meanings of the bring-up family (R494 to R516, R621). -/

namespace Sys2Proof.Machine

/-- DEV_RST_ASSERT (R495): the whole device is reset. -/
def execDevRstAssert (s : State) : Host.Outcome State Fault Refusal := next s.deviceReset

/-- DEV_RST_RELEASE (R494, R495): bring-up starts from ROM, whatever state it had reached; the straps are sampled. -/
def execDevRstRelease (s : State) : Host.Outcome State Fault Refusal :=
  next ((s.deviceReset.enterBu 1).put Fld.BU_STRAP_PORT Config.strapPort.val)

/-- The buses of AVSBus whose domains R531 moves to P4 in ROM. -/
def busOf (d : Nat) : Nat := if d < 8 then 0 else if d < 16 then 1 else 2

/-- ROM passed (R446, R458, R519, R531, R545). -/
def State.romPassed (s : State) (r : RomResult) : State :=
  let s := (s.enterBu 2).stepEnded 0
  let s := s.put Fld.CK_FB_TRIM_CODE r.trim
  let s := ((List.range 3).filter r.lost.contains).foldl (fun s k => s.loseSource k) s
  let s := (s.put Fld.SEC_STATE_DRBG_OK 1).put (Fld.SEC_DOM_INSTALLED 544) 1
  let k := s.drawBytes 8
  let s := k.2.setSec { k.2.sec with keys := sparsePut [] (keyOfDomain 544) k.1 k.2.sec.keys }
  (List.range 17).foldl (fun s d => if r.silent.contains (busOf d) then s else s.startPace d)
    (((List.range 3).filter r.silent.contains).foldl (fun s b => s.raise { code := 0x0208, subject := b }) s)

/-- ROM_DONE (R496, R519). -/
def execRomDone (r : RomResult) (s : State) : Host.Outcome State Fault Refusal :=
  next (if s.get Fld.BU_STATE_STATE ≠ 1 then s
    else if !r.crystal then s.failBringUp 0x0A 0
    else if !r.fuses then s.failBringUp 0x0A 1
    else s.romPassed r)

/-- A write to BU_LOAD_CMD (R498): START begins a load in state LOAD; a START while BUSY is discarded with LOAD_BUSY. -/
def State.writeLoadCmd (s : State) (w : RegWrite) : State :=
  s.fromPort w Reg.BU_LOAD_CMD (fun s =>
    let start := (writeBits w).toNat.testBit 8
    let was := s.get Fld.BU_LOAD_CMD_START
    let s := s.storePut w Fld.BU_LOAD_CMD_START was
    let kind := s.get Fld.BU_LOAD_CMD_KIND
    let len := s.get Fld.BU_LOAD_LEN_BYTES
    if !start || s.get Fld.BU_STATE_STATE ≠ 2 then s
    else match s.bu.loading with
    | some l => s.buErr 0x0B l.1
    | none =>
      if 2 < kind then s
      else if len < 64 || decide (2 ^ 24 < len) || len % 64 ≠ 0 then s.buErr 0x03 0
      else
        let s := (s.put Fld.BU_LOAD_CMD_START 1).put Fld.BU_LOAD_CMD_BUSY 1
        s.setBu { s.bu with loading := some (kind, s.get Fld.BU_LOAD_SRC_ADDR, len) })

/-- BU_LOAD_START (R498). -/
def execBuLoadStart (w : RegWrite) (s : State) : Host.Outcome State Fault Refusal := next (s.writeLoadCmd w)

/-- BU_LOAD_DONE (R498 to R503): the bytes that host memory returned for the image, or none where the bus failed. -/
def execBuLoadDone (b : Option (List Byte)) (s : State) : Host.Outcome State Fault Refusal :=
  next (match s.bu.loading with
    | none => s
    | some (kind, _, len) =>
      let s := (s.setBu { s.bu with loading := none }).put Fld.BU_LOAD_CMD_BUSY 0
      match b with
      | none => s.buErr 0x04 kind
      | some b =>
        let b := tabulate len (fun i => b.getD i 0)
        match loadFault kind b with
        | some e => s.buErr e.1 e.2
        | none =>
          let s := s.put Fld.BU_LOAD_CMD_LOADED (putBit (s.get Fld.BU_LOAD_CMD_LOADED) kind true)
          (s.setBu { s.bu with images := sparsePut [] kind b s.bu.images }).buErr 0 0)

/-- A GO in LOAD (R449, R504) or in COMPARE (R509); in any other state it is discarded. -/
def State.buGo (s : State) : State :=
  let image (k : Nat) : List Byte := sparseGet [] s.bu.images k
  match s.get Fld.BU_STATE_STATE with
  | 2 =>
    match s.bu.loading with
    | some l => s.buErr 0x0B l.1
    | none =>
      let loaded := s.get Fld.BU_LOAD_CMD_LOADED
      if loaded ≠ 7 then s.buErr 0x05 loaded
      else
        let s := s.put Fld.BU_CTRL_GO 1
        let s := s.setSec { s.sec with images := [(3, Config.sha384 (image 0)), (4, Config.sha384 (image 1)), (5, Config.sha384 (image 2))] }
        let s := s.setBu { s.bu with repairs := repairEntries (image 2) }
        ((s.enterBu 3).stepEnded 1).buErr 0 0
  | 5 => (if s.topologyAccepted then s.put Fld.BU_CTRL_GO 1 else s).compareTopology
  | _ => s

/-- The conditions of R511 that do not hold, as the bits of DETAIL. -/
def State.readyMissing (s : State) : Nat :=
  let bad := [!(s.on Fld.GC_PORT_CTRL_COMMIT && (List.range 4).any (fun n => s.on (Fld.GC_PORT_CFG_MGMT n))),
    !s.on Fld.SEC_CTRL_COMMIT, !s.on Fld.YT_CTRL_RUN, !s.on Fld.SH_CTRL_COMMIT,
    !(List.range 8).all (fun p => !(s.get Fld.SH_CTRL_PORT_EN).testBit p || (s.shedPort p).trained)]
  (bad.zipIdx).foldl (fun m e => if e.1 then m + 2 ^ e.2 else m) 0

/-- READY_REQ (R511). -/
def State.buReady (s : State) : State :=
  if s.get Fld.BU_STATE_STATE ≠ 6 then s
  else if s.readyMissing ≠ 0 then s.buErr 0x07 s.readyMissing
  else (((((s.put Fld.BU_CTRL_READY_REQ 1).enterBu 7).stepEnded 6).stepEnded 7).stepEnded 8).buErr 0 0

/-- A write to BU_CTRL (R504, R509, R511). -/
def State.writeBuCtrl (s : State) (w : RegWrite) : State :=
  s.fromPort w Reg.BU_CTRL (fun s =>
    let bits := (writeBits w).toNat
    let s := if bits.testBit 0 then s.buGo else s
    if bits.testBit 1 then s.buReady else s)

/-- BU_GO (R504, R509). -/
def execBuGo (w : RegWrite) (s : State) : Host.Outcome State Fault Refusal := next (s.writeBuCtrl w)

/-- BU_READY_REQ (R511). -/
def execBuReadyReq (w : RegWrite) (s : State) : Host.Outcome State Fault Refusal := next (s.writeBuCtrl w)

/-- BU_TRAIN_DONE (R505, R508): the units that failed to train. -/
def execBuTrainDone (l : List FoundUnit) (s : State) : Host.Outcome State Fault Refusal :=
  next (if s.get Fld.BU_STATE_STATE ≠ 3 then s
    else
      let s := s.recordFound l
      let s := (List.range 16).foldl (fun s h => s.bindChannels h) s
      ((s.stepEnded 2).stepEnded 3).enterBu 4)

/-- BU_TEST_DONE (R505 to R509): the units that failed the quick test, and the ENGINE numbers (kind × 256 + instance) of the engines that did. -/
def execBuTestDone (l : List FoundUnit) (engines : List Nat) (s : State) : Host.Outcome State Fault Refusal :=
  next (if s.get Fld.BU_STATE_STATE ≠ 4 then s
    else
      let s := ((s.recordFound l).bindUnits engines).stepEnded 4
      if s.belowMinimum ≠ 0 then s.failBringUp 0x08 s.belowMinimum
      else ((s.buildSurvey.enterBu 5).stepEnded 5).compareTopology)

/-- Whether bring-up is in a device's step (R513). -/
def State.inStep (s : State) (k : Nat) : Bool :=
  let st := s.get Fld.BU_STATE_STATE
  match k with
  | 0 => decide (st = 1)
  | 2 | 3 => decide (st = 3)
  | 4 | 5 => decide (st = 4)
  | 7 => decide (st = 6) && (List.range 8).any (fun p => (s.shedPort p).training && !(s.shedPort p).trained)
  | _ => false

/-- BU_STEP_TIMEOUT (R513, R514): a device step past twice its maximum. -/
def execBuStepTimeout (k : Nat) (s : State) : Host.Outcome State Fault Refusal := next (if s.inStep k then s.failBringUp 0x09 k else s)

/-- A write to GC_PORT_CTRL (R494, R603): at COMMIT the queue and ring of a port left without MGMT stop. -/
def State.writePortCtrl (s : State) (w : RegWrite) : State :=
  s.fromPort w Reg.GC_PORT_CTRL (fun s =>
    let before := s.on Fld.GC_PORT_CTRL_COMMIT
    let s := s.store w Reg.GC_PORT_CTRL
    if before || !s.on Fld.GC_PORT_CTRL_COMMIT then s
    else { s with
      io := (List.range 4).foldl (fun io n =>
        if io.get (Fld.GC_PORT_CFG_MGMT n) = 1 then io
        else
          let io := if io.get (qEn (4096 + n)) = 1 then io.stopQueue (4096 + n) else io
          if io.get (ringEn n) = 1 then io.stopRing n else io) s.io })

/-- GC_PORT_COMMIT (R494). -/
def execGcPortCommit (w : RegWrite) (s : State) : Host.Outcome State Fault Refusal := next (s.writePortCtrl w)

end Sys2Proof.Machine
end

