-- ==== Sys2Proof/Machine/CpOps.lean ====
section
/-! DEFINITION. What a checkpoint writes and what a restore brings back (R578 to R590, R594). -/

namespace Sys2Proof.Machine

/-! ### Writing (R580 to R582, R585) -/

/-- The ranges, as granules, that no shard holds: mirror ranges (R582), and primary ranges that a mirror serves (R594). -/
def State.heldOut (s : State) : List (Nat × Nat) :=
  s.mirrors.map (fun m => (m.mirror / 4096, m.len / 4096)) ++ s.redirects.map (fun r => (r.1 / 4096, r.2.2 / 4096))

/-- Whether a checkpoint holds the granules of an owner: those of TIER1_ALLOC and the storage of indexes (R582). -/
def State.cpHolds (s : State) (o : Owner) : Bool :=
  match o with
  | .tenant .. => true
  | .stall i => decide ((s.stall i).hdr.kind = 1)
  | _ => false

/-- A run as a shard holds it: in the tenant's Shed domain, or in the model domain (R581). -/
def State.cpRun (s : State) (r : Run) : CpRun :=
  let bytes := s.rawBytes (4096 * r.start) (4096 * r.len)
  match r.owner with
  | .tenant t (some m) => ⟨4096 * r.start, r.len, 512 + m, t, none, bytes⟩
  | .stall i => ⟨4096 * r.start, r.len, 256 + s.stallTenant i, s.stallTenant i, some i, bytes⟩
  | .tenant t none => ⟨4096 * r.start, r.len, 256 + t, t, none, bytes⟩
  | _ => ⟨4096 * r.start, r.len, 545, 0, none, bytes⟩

/-- The runs of Hive `h` in channels in use that a checkpoint holds. -/
def State.cpRuns (s : State) (h : Nat) : List Run :=
  let mine := s.t1.runs.filter (fun r => s.cpHolds r.owner && decide (hiveOf (4096 * r.start) = h) &&
    (s.physicalChannel h (channelOf (4096 * r.start))).isSome)
  s.heldOut.foldl (fun l e => l.flatMap (cutRun e.1 e.2)) mine

/-- The shards of the Hives that are not ABSENT (R579). -/
def State.cpShards (s : State) : List CpShard :=
  ((List.range 16).filter (fun h => !s.hiveAbsent h)).map (fun h => ⟨h, s.cp.step, s.cp.step, (s.cpRuns h).map s.cpRun⟩)

/-- A directory entry as the Hub shard holds it, with its header where that lies in the header pool (R582). -/
def cpEntry (i : Nat) (x : Stall) : CpEntry :=
  { index := i, gen := x.gen, state := x.state, location := x.location, ownerDev := x.ownerDev, epoch := x.epoch, leaseExpiry := x.leaseExpiry
    headerAt := x.headerAt, shedPorts := x.shedPorts, handle := x.handle, poolSlot := x.poolSlot, shape := x.shape, pageMin := x.pageMin
    pageMax := x.pageMax, spread := x.spread, vsCap := x.vsCap
    header := if x.poolSlot.isSome then x.hdr else { handle := x.handle, kind := x.hdr.kind, tenant := x.hdr.tenant } }

/-- The checkpoint as it stands at the freeze. -/
def State.cpImage (s : State) : CpImage :=
  { good := true, serial := Config.serial.toNat, step := s.cp.step, seq := s.cp.seq, yt := s.cp.yt, dirBase := s.get Fld.STL_DIR_BASE_BASE
    dirBase2 := s.get Fld.STL_DIR_BASE2_BASE, hdrPool := s.get Fld.STL_HDR_POOL_BASE, hdrSlots := s.get Fld.STL_HDR_SLOTS_SLOTS
    marks := s.cp.marks, shards := s.cpShards, dir := s.stalls.map (fun e => cpEntry e.1 e.2)
    yard := if s.on Fld.NW_CTRL_COMMIT then s.rawBytes (s.get Fld.NW_MAP_BASE_BASE) 131072 else [], redirects := s.redirects }

/-- The bytes that a checkpoint takes: commit area, shard table, Hub shard, Hive shards (R579, R580). -/
def State.cpBytes (s : State) : Nat :=
  let shard (h : Nat) : Nat := 64 + ((s.cpRuns h).map (fun r => 32 + 4096 * r.len)).foldl (· + ·) 0
  let hives := (List.range 16).filter (fun h => !s.hiveAbsent h)
  let pool := (s.stalls.filter (fun e => e.2.poolSlot.isSome)).length
  4096 + 32 * (hives.length + 1) + (64 + 268435456 + 4096 * pool + 131072) + (hives.map shard).foldl (· + ·) 0

/-- The bytes that a slot takes: BANDS bands on each of its ports in write service (R578). -/
def State.slotRoom (s : State) : Nat :=
  (((List.range 8).filter (fun p => (s.get Fld.CP_SLOT_CFG_PORTS).testBit p && s.portWritable p)).map
    (fun p => s.get Fld.CP_SLOT_CFG_BANDS * s.bandBytes p)).foldl (· + ·) 0

/-- Each port's open journal band closed; later extents go to new bands (R585). -/
def State.closeBands (s : State) : State :=
  (List.range 8).foldl (fun s p =>
    let x := s.shedPort p
    if x.openBand.isSome then s.setShedPort p { x with openBand := none, closed := x.closed + 1 } else s) s

/-! ### Checks of a restore (R587) -/

/-- The slot that a restore names: 1 A, 2 B, 0 the valid slot of higher SEQ. -/
def State.restoreSlot (s : State) (n : Nat) : Option Nat :=
  if n = 1 then some 0 else if n = 2 then some 1
  else if s.cpValid 0 && s.cpValid 1 then
    some (if s.get (Fld.CP_SLOT_STATE_SEQ 0) < s.get (Fld.CP_SLOT_STATE_SEQ 1) then 1 else 0)
  else if s.cpValid 0 then some 0 else if s.cpValid 1 then some 1 else none

/-- The shards of a checkpoint that a restore reads. -/
def State.readShards (s : State) (skip : Bool) (i : CpImage) : List CpShard :=
  if skip then i.shards.filter (fun h => !s.hiveAbsent h.hive) else i.shards

/-- Whether something stands in the way of a restore: a stall, a context, a granule of TIER1_ALLOC, a checkpoint in progress. -/
def State.notFresh (s : State) : Bool :=
  s.stalls.any (fun e => e.2.state ≠ .free) || s.contexts.any (fun e => e.2.state ≠ .free) ||
    s.t1.runs.any (fun r => match r.owner with | .tenant .. => true | _ => false) || s.cpBusy

/-- The checks on a checkpoint itself, in order: the first failure's status with result words 1 and 2. -/
def State.imageFails (s : State) (slot expect : Nat) (skip : Bool) (i : CpImage) : Option (Nat × Nat × Nat) :=
  let other := (i.shards.flatMap (fun h => [h.step, h.headerStep])).find? (fun n => n ≠ i.step)
  let lost := i.shards.find? (fun h => s.hiveAbsent h.hive)
  let bare := ((s.readShards skip i).flatMap (·.runs)).find? (fun r => !s.on (Fld.SEC_DOM_INSTALLED r.domain))
  if i.serial ≠ Config.serial.toNat then some (CS.integrity, slot, 0)
  else if expect ≠ 0 && decide (expect ≠ i.step) then some (CS.stepMismatch, i.step, expect)
  else match other with
  | some n => some (CS.stepMismatch, i.step, n)
  | none =>
    if i.dirBase ≠ s.get Fld.STL_DIR_BASE_BASE || i.dirBase2 ≠ s.get Fld.STL_DIR_BASE2_BASE || i.hdrPool ≠ s.get Fld.STL_HDR_POOL_BASE ||
        i.hdrSlots ≠ s.get Fld.STL_HDR_SLOTS_SLOTS then some (CS.badCommand, 0, 0)
    else match (if skip then none else lost), bare with
    | some h, _ => some (CS.absentUnit, h.hive, 0)
    | none, some r => some (CS.notReady, r.domain, 0)
    | none, none => none

/-! ### Journals found (R590) -/

/-- A record put into a list in SEQ order. -/
def insertRecord (r : JRecord) : List JRecord → List JRecord
  | [] => [r]
  | x :: t => if r.seq ≤ x.seq then r :: x :: t else x :: insertRecord r t

/-- The records that training found, each with its port and the sequence of its journal band. -/
def State.foundRecords (s : State) : List (Nat × Nat × JRecord) :=
  (List.range 8).flatMap (fun p => (s.shedPort p).journal.map (fun r => (p, r.1, r.2)))

/-- The found records in bands above the marks. -/
def State.newRecords (s : State) (marks : List (Nat × Nat)) : List JRecord :=
  (s.foundRecords.filter (fun r => decide (sparseGet 0 marks r.1 < r.2.1))).map (·.2.2)

/-- The chain of a handle up to SEQ `top`, oldest first. -/
def State.chainOf (s : State) (handle top : Nat) : List JRecord :=
  (s.foundRecords.filter (fun r => decide (r.2.2.handle = handle ∧ r.2.2.seq ≤ top))).foldl (fun l r => insertRecord r.2.2 l) []

/-- The highest SEQ of a handle among records; 0 where it has none. -/
def newestSeq (handle : Nat) (l : List JRecord) : Nat := ((l.filter (fun r => r.handle = handle)).map (·.seq)).foldl max 0

/-- The newest header record of a chain, with its SEQ. -/
def chainHeader (l : List JRecord) : Option (Nat × Header) :=
  l.foldl (fun a r => match r.payload with | .header h => some (r.seq, h) | _ => a) none

/-- The header that a session comes back with: the pool's, or a newer header record of its chain. -/
def baseHeader (pool : Option Header) (chain : List JRecord) : Option Header :=
  match pool, chainHeader chain with
  | some p, some (q, h) => some (if p.journalSeq < q then h else p)
  | some p, none => some p
  | none, some (_, h) => some h
  | none, none => none

/-- A session put into its slot with the chain found for it (R58, R589, R590): its image lies in the Shed. A copy that was MOVING is not resumed before it is claimed (R67, R69). -/
def State.putSession (s : State) (i : Nat) (st : StallState) (x : Stall) (base : Header) (chain : List JRecord) : State :=
  let len := coverage chain
  let newest := chain.reverse.head?
  let ports := chain.foldl (fun m r => m ||| 2 ^ (r.extent / 2 ^ 59 % 8)) 0
  let epoch := chain.foldl (fun m r => max m r.epoch) (max x.epoch base.epoch)
  let h := { base with
    handle := x.handle, committedLen := len, specLen := len, journalLen := len, dirtyBytes := 0, epoch := epoch, ownerDev := s.deviceId
    step := (newest.map (·.step)).getD base.step, sampleCtr := (newest.map (·.sampleCtr)).getD base.sampleCtr
    journalSeq := (newest.map (·.seq)).getD 0, shedRoot := (newest.map (·.extent)).getD 0, shedPorts := ports
    flags := setFlagBit 6 false (setFlagBit 7 false base.flags), ptRoot := 0, stepReserve := 0 }
  let s := s.setStall i { x with
    state := st, location := 1, ownerDev := s.deviceId, epoch := epoch, shedPorts := ports, poolSlot := none, journal := chain, hdr := h
    extents := chain.map (fun r => (r.extent, extentLength r.payload)) }
  let s := if (chainHeader chain).isNone then s.journal i 0 (.header h) else s
  let s := s.setStall i { s.stall i with headerAt := shedHeaderAt (s.stall i) }
  if st = .moving then s else s.replayResume i false

/-- A session whose journal cannot be read is freed (R590). -/
def State.loseSession (s : State) (i : Nat) (x : Stall) : State :=
  let s := s.setStall i { x with state := .parked }
  (s.raise { code := 0x0E05, tenant := some x.hdr.tenant, object := x.handle }).freeSlot i

/-- A directory entry brought back (R589): what the slot holds before its state is chosen. -/
def entryStall (e : CpEntry) : Stall :=
  { gen := e.gen, state := e.state, location := e.location, ownerDev := e.ownerDev, epoch := e.epoch, leaseExpiry := e.leaseExpiry
    headerAt := e.headerAt, shedPorts := e.shedPorts, handle := e.handle, poolSlot := e.poolSlot, shape := e.shape, pageMin := e.pageMin
    pageMax := e.pageMax, spread := e.spread, vsCap := e.vsCap, hdr := e.header }

/-- The state that a restored stall takes (R589), its journal found as in R590. -/
def State.restoreEntry (s : State) (fresh : List JRecord) (e : CpEntry) : State :=
  let x := entryStall e
  if e.state = .free then s.setStall e.index { gen := e.gen }
  else if x.hdr.kind = 1 then s.setStall e.index { x with state := .hot }
  else if x.hdr.kind = 2 || e.state = .remote then s.setStall e.index x
  else
    let pool := if e.poolSlot.isSome then some e.header else none
    let top := max e.header.journalSeq (newestSeq e.handle fresh)
    let chain := s.chainOf e.handle (if e.poolSlot.isSome then top else 2 ^ 64)
    let usable := usableRecords (fun r => (s.recordStatus r).isNone) 0 0 [] chain
    match usable, baseHeader pool usable with
    | _ :: _, some base =>
      if e.state = .moving then
        (s.putSession e.index .moving { x with mig := some ⟨none, false, 0, 0, e.handle⟩, leaseExpiry := 0 }
          { base with priorState := stateCode .parked } usable).orphan e.index
      else s.putSession e.index .parked { x with leaseExpiry := 0 } { base with migRole := 0, migPhase := 0, leaseExpiry := 0 } usable
    | _, _ => s.loseSession e.index x

/-- The slot a new handle is created in again (R590): FREE, and named by no higher generation among the handles found. -/
def State.createsAgain (s : State) (fresh : List JRecord) (h : Nat) : Bool :=
  (s.stall (handleIndex h)).state = .free && handleKind h ≠ 3 &&
    fresh.all (fun r => handleIndex r.handle ≠ handleIndex h || decide (handleGen r.handle ≤ handleGen h))

/-- A session created after the checkpoint, created again PARKED (R590). -/
def State.recreate (s : State) (fresh : List JRecord) (h : Nat) : State :=
  let chain := s.chainOf h (newestSeq h fresh)
  let usable := usableRecords (fun r => (s.recordStatus r).isNone) 0 0 [] chain
  match usable, chainHeader usable with
  | _ :: _, some (_, base) =>
    let run := (usable.flatMap recordRuns).head?
    let shape := (run.map (·.shape)).getD (s.tenantShape base.tenant)
    s.putSession (handleIndex h) .parked
      { gen := handleGen h, handle := h, shape := shape, pageMin := (run.map (·.pageMin)).getD (s.get (Fld.KV_SHAPE_PAGE_MIN shape))
        pageMax := (run.map (·.pageMax)).getD (s.get (Fld.KV_SHAPE_PAGE_MAX shape))
        spread := (run.map (·.spread)).getD (s.get (Fld.KV_SHAPE_SPREAD_LOG2 shape)) }
      { base with migRole := 0, migPhase := 0, leaseExpiry := 0 } usable
  | _, _ => s

/-! ### The restore itself (R588, R594) -/

/-- The owner of a restored run. -/
def runOwner (r : CpRun) : Owner :=
  match r.stall with
  | some i => .stall i
  | none => .tenant r.tenant (if 512 ≤ r.domain then some (r.domain - 512) else none)

/-- A run read into Tier 1. -/
def State.placeRun (s : State) (r : CpRun) : State :=
  let domain := if 512 ≤ r.domain then r.domain else r.tenant
  { s with t1 := (s.t1.own (r.addr / 4096) r.len (runOwner r)).write domain (s.domainKeys domain) r.addr r.bytes }

/-- A promoted range taken for its tenant again (R594). -/
def State.placeRedirect (s : State) (r : Nat × Nat × Nat) : State :=
  match s.t1.ownerOf (r.2.1 / 4096) with
  | some o => { s with t1 := s.t1.own (r.1 / 4096) (r.2.2 / 4096) o }
  | none => s

/-- Everything a restore makes live (R588 to R590). -/
def State.restoreImage (s : State) (skip : Bool) (i : CpImage) : State :=
  let fresh := s.newRecords i.marks
  let s := ((s.readShards skip i).flatMap (·.runs)).foldl (fun s r => s.placeRun r) s
  let s := (i.redirects.foldl (fun s r => s.placeRedirect r) s).setRedirects i.redirects
  let s := if s.on Fld.NW_CTRL_COMMIT && !i.yard.isEmpty then s.writeT1 544 (s.get Fld.NW_MAP_BASE_BASE) i.yard else s
  let s := i.dir.foldl (fun s e => s.restoreEntry fresh e) { s with stalls := [] }
  ((fresh.map (·.handle)).eraseDups).foldl (fun s h => if s.createsAgain fresh h then s.recreate fresh h else s) s

end Sys2Proof.Machine
end

