-- ==== Sys2Proof/Machine/Checkpoint.lean ====
section
/-! DEFINITION. The meanings of the checkpoint family (R578 to R597). -/

namespace Sys2Proof.Machine

/-- What a write to CP_CTRL does: COMMIT locks CP_SLOT_CFG. -/
def State.writeCpCtrl (s : State) (w : RegWrite) : State := s.fromPort w Reg.CP_CTRL (fun s => s.store w Reg.CP_CTRL)

/-- CP_COMMIT (R596). -/
def execCpCommit (w : RegWrite) (s : State) : Host.Outcome State Fault Refusal := next (s.writeCpCtrl w)

/-! ### Taking a checkpoint (R583 to R586) -/

/-- CP_TAKE (R583, R595). -/
def execCpTake (c : Cmd) (s : State) : Host.Outcome State Fault Refusal :=
  next (s.runCmd c .mgmt false (fun s =>
    if !opZero c 40 63 then s.refuse c CS.badCommand
    else if s.cpBusy || s.on Fld.PW_STATUS_PARKING || !s.on Fld.CP_CTRL_EN then s.refuse c CS.notReady
    else
      let slot := s.cpTarget
      let step := if opU64 c 32 = 0 then s.cpNextStep else opU64 c 32
      s.beginOp c 0x90 [slot, step] false (fun op s => s.beginCheckpoint op slot step)))

/-- CP_PERIODIC_TRIGGER (R583): at each whole multiple of CP_PERIOD.NS. -/
def execCpPeriodicTrigger (s : State) : Host.Outcome State Fault Refusal :=
  let period := s.get Fld.CP_PERIOD_NS
  let at_ := s.now / period * period
  next (if !s.on Fld.CP_TRIG_PERIODIC || period = 0 || decide (at_ ≤ s.cp.periodAt) then s
    else ({ s with cp := { s.cp with periodAt := at_ } }).triggerCheckpoint)

/-- Whether a checkpoint's freeze has taken effect: no round in flight, no step running, no request of a Hub context still to be
answered (R585). -/
def State.frozen (s : State) : Bool :=
  s.rounds.all (fun r => r.2.flight.isNone) && s.stalls.all (fun e => e.2.state ≠ .running) && s.answers.isEmpty

/-- CP_FREEZE_DONE (R585 phase 1): Cell contexts are switched out and the drain starts. -/
def execCpFreezeDone (s : State) : Host.Outcome State Fault Refusal :=
  next (if s.get Fld.CP_STATUS_PHASE ≠ 1 || !s.frozen then s
    else
      let on := (s.contexts.filter (fun e => decide (e.2.state = .running) && !e.2.hub)).map (·.1)
      let s := on.foldl (fun s slot => s.switchOut slot) s
      let s : State := { s with cp := { s.cp with switched := on, yt := s.now } }
      (s.put Fld.CP_STATUS_FROZEN 1).put Fld.CP_STATUS_PHASE 2)

/-- CP_DRAIN_DONE (R585 phase 2): once STL_DIRTY_NOW is 0 the open bands close, BAND_MARK is taken, and the target's commit area is
cleared (R584). -/
def execCpDrainDone (s : State) : Host.Outcome State Fault Refusal :=
  next (if s.get Fld.CP_STATUS_PHASE ≠ 2 || s.get Fld.STL_DIRTY_NOW_NOW ≠ 0 then s
    else
      let s := s.closeBands
      let marks := (List.range 8).map (fun p => (p, (s.shedPort p).closed))
      let s : State := { s with cp := { s.cp with marks := marks } }
      (s.clearSlot s.cp.slot).put Fld.CP_STATUS_PHASE 3)

/-- CP_WRITE_DONE (R585 phases 3 and 4): the shards and the table are written and the commit record follows; a checkpoint that does
not fit its slot ends FAILED. -/
def execCpWriteDone (s : State) : Host.Outcome State Fault Refusal :=
  next (match s.cp.op with
    | none => s
    | some op =>
      if s.get Fld.CP_STATUS_PHASE ≠ 3 then s
      else if s.slotRoom < s.cpBytes then s.dropCheckpoint .failed CS.noResource
      else
        let k := s.cp.slot
        let step := s.cp.step
        let s : State := { s with cpSlots := sparseInsert k s.cpImage s.cpSlots }
        let s := ((s.put (Fld.CP_SLOT_STATE_VALID k) 1).put (Fld.CP_SLOT_STATE_SEQ k) s.cp.seq).put (Fld.CP_SLOT_STEP_STEP k) step
        let s : State := { s with cp := { s.cp with op := none, lastDone := some s.now } }
        (s.endFreeze.raise { code := 0x0E01, subject := k, detail := [step] }).endOp op .done CS.ok step k)

/-! ### Restore (R587 to R590) -/

/-- A restore that ends FAILED, with EV_CP_FAILED. -/
def State.failRestore (s : State) (op slot step status r1 r2 : Nat) : State :=
  (s.raise { code := 0x0E02, subject := slot, detail := [step, status] }).endOp op .failed status 0 r1 r2

/-- A restore's checks (R587); when they pass the shards are read. Where SLOT names the newest slot and none is valid, result word 1 is a
free value. -/
def State.startRestore (s : State) (op which expect : Nat) (skip : Bool) : State :=
  if s.notFresh then s.failRestore op 0 0 CS.notReady 0 0
  else match s.restoreSlot which with
  | none =>
    let f := s.drawFree
    f.2.failRestore op 0 0 CS.integrity f.1.toNat 0
  | some k =>
    match (if s.cpValid k then s.cpSlots.find? (fun e => e.1 = k) else none) with
    | none => s.failRestore op k 0 CS.integrity k 0
    | some e =>
      match s.imageFails k expect skip e.2 with
      | some (st, r1, r2) => s.failRestore op k e.2.step st r1 r2
      | none =>
        let s : State := { s with cp := { s.cp with op := some op, slot := k, step := e.2.step, skipAbsent := skip } }
        (s.put Fld.CP_OP_HANDLE (s.opHandle op)).put Fld.CP_STATUS_PHASE 5

/-- CP_RESTORE (R587, R595). -/
def execCpRestore (c : Cmd) (s : State) : Host.Outcome State Fault Refusal :=
  next (s.runCmd c .mgmt false (fun s =>
    let which := opByte c 32
    if 3 ≤ which || 2 ≤ opByte c 33 || !opZero c 34 39 || !opZero c 48 63 then s.refuse c CS.badCommand
    else s.beginOp c 0x91 [which] false (fun op s => s.startRestore op which (opU64 c 40) (opByte c 33 = 1))))

/-- CP_RESTORE_READS_DONE (R588 to R590): the last run is read; or, with `bad`, after that many runs a read ended in CS_UNCORRECTABLE
(true) or CS_INTEGRITY, and the granules read so far go to quarantine. -/
def execCpRestoreReadsDone (bad : Option (Nat × Bool)) (s : State) : Host.Outcome State Fault Refusal :=
  next (match s.cp.op, s.cpSlots.find? (fun e => e.1 = s.cp.slot) with
    | some op, some e =>
      if s.get Fld.CP_STATUS_PHASE ≠ 5 then s
      else
        let skip := s.cp.skipAbsent
        let s : State := ({ s with cp := { s.cp with op := none } }).put Fld.CP_STATUS_PHASE 0
        match bad with
        | some (n, uncorrectable) =>
          let read := ((s.readShards skip e.2).flatMap (·.runs)).take n
          let s := read.foldl (fun s r => s.quarantine (r.addr / 4096) r.len) s
          s.failRestore op e.1 e.2.step (if uncorrectable then CS.uncorrectable else CS.integrity) 0 0
        | none =>
          let skipped := e.2.shards.length - (s.readShards skip e.2).length
          ((s.restoreImage skip e.2).autoMerges.raise { code := 0x0E04, subject := e.1, detail := [e.2.step] }).endOp op .done CS.ok e.2.step skipped
    | _, _ => s)

/-! ### Mirrors (R591, R595) -/

/-- Whether a range is a granule-aligned run of the tenant's own TIER1_ALLOC granules, in its Tier 1 domain and within one Hive as it
is served. -/
def State.mirrorRange (s : State) (t addr n : Nat) : Bool :=
  decide (addr % 4096 = 0) && s.addrOk addr (4096 * n) && s.t1.allOwned (fun o => o = .tenant t none) (addr / 4096) n &&
    decide (hiveOf (s.servedAt addr) = hiveOf (s.servedAt (addr + 4096 * n - 1)))

/-- CP_MIRROR (R591): the pair exists from here on, its copy under way; it completes when the copy ends. -/
def execCpMirror (c : Cmd) (s : State) : Host.Outcome State Fault Refusal :=
  next (s.runCmd c .tenant false (fun s =>
    let t := (s.issuerTenant c.issuer).getD 0
    let a := c.addrA.toNat
    let b := c.addrB.toNat
    let n := opU32 c 36
    let clear (x : Nat) : Bool := s.mirrors.all (fun m =>
      let apart (y : Nat) : Bool := decide (x + 4096 * n ≤ y) || decide (y + m.len ≤ x)
      apart m.primary && apart m.mirror)
    match s.checkHandle t c.handle.toNat false with
    | .error e => s.complete c e.1 e.2.1 e.2.2
    | .ok i =>
      if (s.stall i).hdr.kind ≠ 2 || !opZero c 32 35 || !opZero c 40 63 || n = 0 || 262144 < n || !s.mirrorRange t a n || !s.mirrorRange t b n ||
          hiveOf (s.servedAt a) = hiveOf (s.servedAt b) || !clear a || !clear b then s.complete c CS.badCommand
      else if 4096 ≤ s.mirrors.length then s.complete c CS.noResource
      else
        let num := (firstBelow (fun k => !s.mirrors.any (fun m => m.num = k)) 4096).getD 0
        s.setMirrors (s.mirrors ++ [⟨num, i, t, a, b, 4096 * n, false, some (coreOf c)⟩])))

/-- The blocks of a pair copied from its primary, as it is served, to its mirror; what cannot be read stays unreadable. -/
def State.copyMirror (s : State) (m : Mirror) : State :=
  (List.range (m.len / 64)).foldl (fun s j =>
    let src := s.servedAt (m.primary + 64 * j) / 64
    let dst := m.mirror / 64 + j
    let err := sparseGet (0, 0) s.t1.errors src
    let s : State := { s with t1 := { s.t1 with
      bytes := putBytes (64 * dst) (s.rawBytes (64 * src) 64) s.t1.bytes
      domains := sparsePut 0 dst (sparseGet 0 s.t1.domains src) s.t1.domains
      keyed := sparsePut [] dst (sparseGet [] s.t1.keyed src) s.t1.keyed
      errors := sparsePut (0, 0) dst (if 2 < err.1 then err else (0, 0)) s.t1.errors } }
    if s.isPoisoned src || decide (2 < err.1) then s.addPoison dst else s) s

/-- CP_MIRROR_COPY_DONE (R591): the pair is mirrored and its command completes with the pair number. -/
def execCpMirrorCopyDone (num : Nat) (s : State) : Host.Outcome State Fault Refusal :=
  next (match s.mirrors.find? (fun m => decide (m.num = num) && !m.ready) with
    | none => s
    | some m =>
      let s := s.copyMirror m
      let s := s.setMirrors (s.mirrors.map (fun x : Mirror => if x.num = num then { x with ready := true, cmd := none } else x))
      match m.cmd with
      | some c => s.complete c CS.ok num
      | none => s)

/-- CP_UNMIRROR (R591, R595): a pair of the tenant dissolves. -/
def execCpUnmirror (c : Cmd) (s : State) : Host.Outcome State Fault Refusal :=
  next (s.runCmd c .tenant false (fun s =>
    let t := (s.issuerTenant c.issuer).getD 0
    let num := opU32 c 32
    if !opZero c 36 63 || !s.mirrors.any (fun m => decide (m.num = num ∧ m.tenant = t)) then s.complete c CS.badCommand
    else (s.dissolve (fun m => m.num = num)).complete c CS.ok))

end Sys2Proof.Machine
end

