-- ==== Sys2Proof/Machine/Clock.lean ====
section
/-! DEFINITION. The meanings of the clock family: the monitor, the frequency counter, pace and gating (R517 to R537). -/

namespace Sys2Proof.Machine

/-- Whether the monitor runs: after ROM, not in FAILED (R514, R520). -/
def State.monitorRuns (s : State) : Bool := decide (2 ≤ s.get Fld.BU_STATE_STATE) && decide (s.get Fld.BU_STATE_STATE ≤ 7)

/-- MONITOR_WINDOW_END (R520, R521, R523). -/
def execMonitorWindowEnd (x : MonitorWindow) (s : State) : Host.Outcome State Fault Refusal := next (if s.monitorRuns then s.windowEnd x else s)

/-- MISSING_EDGE (R521): a source of 0 to 3 has failed at once. -/
def execMissingEdge (k : Nat) (s : State) : Host.Outcome State Fault Refusal := next (if s.monitorRuns && decide (k < 4) then s.loseSource k else s)

/-- The cap in force in domain `d`, in kHz (R21, R526), 1% lower while the fallback gates the monitor (R522). -/
def State.rateCap (s : State) (d : Nat) : Nat :=
  (if s.on Fld.CK_MON_STATUS_MON_FB then 990 else 1000) * (s.levelValues d (s.get (Fld.CK_PACE_STATE_CUR d))).2

/-- Every MIN_KHZ at the rate of now (R532). The rate is measured: a free value at or below the cap of the level in force (R21, R527). -/
def State.clearRates (s : State) : State :=
  (List.range 17).foldl (fun s d =>
    let x := s.drawFree
    let rate := x.1.toNat % (s.rateCap d + 1)
    (x.2.put (Fld.CK_RATE_KHZ d) rate).put (Fld.CK_RATE_MIN_KHZ d) rate) s

/-- A write to CK_CTRL (R523, R531, R532). -/
def State.writeCkCtrl (s : State) (w : RegWrite) : State :=
  s.fromPort w Reg.CK_CTRL (fun s =>
    let bits := (writeBits w).toNat
    let s := s.store w Reg.CK_CTRL
    let s := if bits.testBit 1 then s.clearRates else s
    if bits.testBit 2 then s.returnAll else s)

/-- CK_RETURN (R523). -/
def execCkReturn (w : RegWrite) (s : State) : Host.Outcome State Fault Refusal := next (s.writeCkCtrl w)

/-- CK_RATE_CLR (R532). -/
def execCkRateClr (w : RegWrite) (s : State) : Host.Outcome State Fault Refusal := next (s.writeCkCtrl w)

/-- CK_COMMIT (R531). -/
def execCkCommit (w : RegWrite) (s : State) : Host.Outcome State Fault Refusal := next (s.writeCkCtrl w)

/-- A write to CK_FMEAS_CTRL (R525): a START while DONE is 0 is discarded; a GATE of 0 stores 1. -/
def State.writeFmeas (s : State) (w : RegWrite) : State :=
  s.fromPort w Reg.CK_FMEAS_CTRL (fun s =>
    let start := (writeBits w).toNat.testBit 4
    let idle := s.on Fld.CK_FMEAS_CTRL_DONE
    let was := s.get Fld.CK_FMEAS_CTRL_START
    let s := s.store w Reg.CK_FMEAS_CTRL
    let s := if s.get Fld.CK_FMEAS_CTRL_GATE = 0 then s.put Fld.CK_FMEAS_CTRL_GATE 1 else s
    if start && idle then s.put Fld.CK_FMEAS_CTRL_DONE 0 else s.put Fld.CK_FMEAS_CTRL_START was)

/-- FMEAS_START (R525). -/
def execFmeasStart (w : RegWrite) (s : State) : Host.Outcome State Fault Refusal := next (s.writeFmeas w)

/-- FMEAS_DONE (R525): the count as far as it got. -/
def execFmeasDone (count : Nat) (s : State) : Host.Outcome State Fault Refusal :=
  next (if s.on Fld.CK_FMEAS_CTRL_DONE then s else (s.put Fld.CK_FMEAS_COUNT_COUNT count).put Fld.CK_FMEAS_CTRL_DONE 1)

/-- A write to CK_PACE[l] (R526): stored only where the table stays one that R526 allows. -/
def State.writePace (s : State) (w : RegWrite) (l : Nat) : State :=
  s.fromPort w (Reg.CK_PACE l) (fun s =>
    if s.paceTableOk l (s.wouldGet w (Fld.CK_PACE_VID_MV l)) (s.wouldGet w (Fld.CK_PACE_CAP l)) then s.store w (Reg.CK_PACE l) else s)

/-- CK_PACE_WRITE (R526, R531). -/
def execCkPaceWrite (w : RegWrite) (l : Nat) (s : State) : Host.Outcome State Fault Refusal := next (if l < 8 then s.writePace w l else s)

/-- A write to CK_PACE_CTL[d] (R528, R530): it takes up the target, also after a failed move. -/
def State.writePaceCtl (s : State) (w : RegWrite) (d : Nat) : State :=
  s.fromPort w (Reg.CK_PACE_CTL d) (fun s => (s.store w (Reg.CK_PACE_CTL d)).startPace d)

/-- PACE_TARGET_CHANGE (R528, R529). -/
def execPaceTargetChange (w : RegWrite) (d : Nat) (s : State) : Host.Outcome State Fault Refusal := next (if d < 17 then s.writePaceCtl w d else s)

/-- PACE_POLL (R529): the rail's read-back in mV. -/
def execPacePoll (d mv : Nat) (s : State) : Host.Outcome State Fault Refusal :=
  next (match s.paceMove d with
    | none => s
    | some m =>
      let tol := s.get Fld.CK_PACE_SETTLE_TOL_MV
      if m.written && decide (mv ≤ m.mv + tol) && decide (m.mv ≤ mv + tol) then s.confirmPace d mv m else s)

/-- PACE_SETTLE_TIMEOUT (R530). -/
def execPaceSettleTimeout (d : Nat) (s : State) : Host.Outcome State Fault Refusal :=
  next (match s.paceMove d with
    | none => s
    | some m => if m.written then s.failPace d m else s)

/-- AVSBUS_DONE (R530, R545): the voltage write of a domain's move has ended, or has failed. -/
def execAvsbusDone (d : Nat) (ok : Bool) (s : State) : Host.Outcome State Fault Refusal :=
  next (match s.paceMove d with
    | none => s
    | some m => if m.written then s else if ok then s.setMove d (some { m with written := true }) else s.failPace d m)

/-- GATE_IDLE_SLEEP (R534): a group without work for SLEEP_NS. -/
def execGateIdleSleep (g : Nat) (s : State) : Host.Outcome State Fault Refusal :=
  next (if g < 37 && s.on (Fld.CK_GATE_RUN_EN g) && s.on (Fld.CK_GATE_SLEEP_EN g) && s.get (Fld.CK_GATE_STATE g) = 0 then s.put (Fld.CK_GATE_STATE g) 1 else s)

/-- GATE_IDLE_DEEP (R534): a group without work for DEEP_NS. -/
def execGateIdleDeep (g : Nat) (s : State) : Host.Outcome State Fault Refusal :=
  next (if g < 37 && s.on (Fld.CK_GATE_RUN_EN g) && s.on (Fld.CK_GATE_DEEP_EN g) && decide (s.get (Fld.CK_GATE_STATE g) ≤ 1) then s.put (Fld.CK_GATE_STATE g) 2 else s)

/-- GATE_WAKE (R534): a request for a sleeping group. -/
def execGateWake (g : Nat) (s : State) : Host.Outcome State Fault Refusal := next (s.wakeGroup g)

/-- GATE_SCHEDULED_WAKE (R535): woken at a stated count less the wake time. -/
def execGateScheduledWake (g : Nat) (s : State) : Host.Outcome State Fault Refusal := next (s.wakeGroup g)

end Sys2Proof.Machine
end

