-- ==== Sys2Proof/Machine/Events.lean ====
section
/-! DEFINITION. Writes to the event registers, flag clearing, ring coalescing and the I3C sideband (R599 to R610, R629). -/

namespace Sys2Proof.Machine

/-- The tenant of a tenant ring. -/
def ringTenant (r : Nat) : Option Nat := if r < 4 then none else some (r - 4)

/-- A write to a ring's HEAD (R605): one outside the range from HEAD to TAIL is ignored. -/
def State.writeRingHead (s : State) (w : RegWrite) (r : Nat) : State :=
  s.fromPort w (ringBase r + 24) (fun s =>
    let size := 2 ^ s.get (ringLog2 r)
    let head := s.get (ringHead r)
    let v := fieldGet (blend (s.reg (ringBase r + 24)) (writeBits w) (writeMask w)) 0 16
    if v < size ∧ (v + size - head) % size ≤ (s.get (ringTail r) + size - head) % size then s.put (ringHead r) v else s)

/-- RING_HEAD_WRITE (R605). -/
def execRingHeadWrite (w : RegWrite) (r : Nat) (s : State) : Host.Outcome State Fault Refusal :=
  next (if r < 260 then s.writeRingHead w r else s)

/-- A write to a ring's CTRL (R603): EN set after its checks, or cleared. -/
def State.writeRingCtrl (s : State) (w : RegWrite) (r : Nat) : State :=
  s.fromPort w (ringBase r + 16) (fun s =>
    let v := blend (s.reg (ringBase r + 16)) (writeBits w) (writeMask w)
    let en := fieldGet v 0 1
    let s := s.put (ringIrqEn r) (fieldGet v 1 1)
    if en = 1 ∧ s.get (ringEn r) = 0 then
      let owner := match ringTenant r with
        | some t => s.bound w.port t && s.portAllowed t w.port
        | none => decide (r = w.port) && s.portMgmt w.port
      if s.get (ringAddr r) % 4096 = 0 && decide (6 ≤ s.get (ringLog2 r)) && decide (s.get (ringLog2 r) ≤ 16) && owner then
        let io := (((((s.io.put (ringHead r) 0).put (ringTail r) 0).put (ringLost r) 0).put (ringPhase r) 1).put (ringPort r) w.port).put (ringEn r) 1
        { s with io := io.setRing r {} }
      else s
    else s.put (ringEn r) (min en (s.get (ringEn r))))

/-- RING_CTRL_WRITE (R603). -/
def execRingCtrlWrite (w : RegWrite) (r : Nat) (s : State) : Host.Outcome State Fault Refusal :=
  next (if r < 260 then s.writeRingCtrl w r else s)

/-- Whether an event code may be masked (R599). -/
def maskable (code : Nat) : Bool :=
  match eventClass code with
  | some .info | some .warn | some .error => true
  | _ => false

/-- The bits of EV_MASK[k] that can be set. -/
def maskBits (k : Nat) : Nat := ((List.range 64).filter (fun i => maskable (64 * k + i))).foldl (fun m i => m + 2 ^ i) 0

/-- A write to EV_MASK[k] (R599). -/
def State.writeEvMask (s : State) (w : RegWrite) (k : Nat) : State :=
  s.fromPort w (Reg.EV_MASK k) (fun s =>
    let old := s.reg (Reg.EV_MASK k)
    s.setReg (Reg.EV_MASK k) (blend old (writeBits w) (writeMask w) &&& BitVec.ofNat 64 (maskBits k)))

/-- EV_MASK_WRITE (R599). -/
def execEvMaskWrite (w : RegWrite) (k : Nat) (s : State) : Host.Outcome State Fault Refusal :=
  next (if k < 64 then s.writeEvMask w k else s)

/-- FLAG_CLEAR (R5, R600, R609, R610): a 64-bit write to a flag register clears the flags written as 1; occurrence counters keep
their counts. -/
def execFlagClear (w : RegWrite) (off : Nat) (s : State) : Host.Outcome State Fault Refusal :=
  next (match regRow? off with
    | some r => if r.w1c ≠ 0 then s.fromPort w off (fun s => s.store w off) else s
    | none => s)

/-- RING_COALESCE_EXPIRY (R607): COAL_US after the first entry not signalled. -/
def execRingCoalesceExpiry (r : Nat) (s : State) : Host.Outcome State Fault Refusal :=
  let x := s.io.ring r
  next (if s.get (ringIrqEn r) = 1 && x.unsignalled ≠ 0 && x.firstUnsignalled + 1000 * s.get (ringCoalUs r) ≤ s.now then
      { s with io := (s.io.emit (.msix (s.get (ringPort r)) (s.get (ringVector r)))).setRing r { x with unsignalled := 0 } }
    else s)

/-- EV_NMI (R600): which of the two sources drives NMI_N. -/
def State.nmi (s : State) : Word := BitVec.ofNat 64 (s.get ⟨Reg.CK_FLAGS, 0, 1⟩ + 2 * s.get ⟨Reg.PW_FLAGS, 0, 1⟩)

/-- Whether NMI_N is low (R600). -/
def State.nmiLow (s : State) : Bool := decide (s.nmi ≠ 0)

/-- The registers that the I3C target reads (R629). -/
def i3cReadable (off : Nat) : Bool :=
  [Reg.BU_STATE, Reg.BU_ERR, Reg.EV_FATAL, Reg.EV_FATAL_YT, Reg.EV_NMI, Reg.PW_STATUS, Reg.PW_POWER, Reg.SEC_SERIAL].contains off ||
    (List.range 17).any (fun i => off = Reg.PW_TEMP i)

/-- What the I3C target answers for an offset. -/
def State.i3cValue (s : State) (off : Nat) : Word :=
  if !i3cReadable off then 0
  else if off = Reg.EV_NMI then s.nmi
  else if off = Reg.SEC_SERIAL then Config.serial
  else s.reg off

/-- I3C_READ (R629): the target answers from ROM onwards. -/
def execI3cRead (off : Nat) (s : State) : Host.Outcome State Fault Refusal :=
  next (if s.get Fld.BU_STATE_STATE = 0 then s else s.emit (.i3c (s.i3cValue off)))

end Sys2Proof.Machine
end

