-- ==== Sys2Proof/Machine/Matrix.lean ====
section
/-! DEFINITION. The tile copy `mv.copy` and the Trondi class MX (R283, R287, R288, R305 to R321). -/

namespace Sys2Proof.Machine

/-- A tile's row places and rows read, or the fault. -/
def State.withTile (s : State) (n : Insn) (y : UnitX) (t : Tile) (k : State → List (List Byte) → Did) : Did :=
  match s.tileRows n t false with
  | .error f => .fault s f.1 f.2
  | .ok rows => match s.readRows n y (rowBytes t.format t.cols) rows with
    | (s, .error cause) => .fault s cause (t.space * 2 ^ 60 + t.base)
    | (s, .ok bytes) => k s bytes

/-- `mv.copy` (R283, R307, R311 to R314). Tiles of one format are copied as they are. -/
def execMvCopy (n : Insn) (s : State) : Host.Outcome State Fault Refusal :=
  next (s.runInsn n 4 7 { d := .t, a := .t } (fun s y =>
    let d := tileOf (y.tile (n.d.toNat - 0x30))
    let a := tileOf (y.tile (n.a.toNat - 0x30))
    match s.tileRows n a false, s.tileRows n d true with
    | .error f, _ => .fault s f.1 f.2
    | _, .error f => .fault s f.1 f.2
    | .ok _, .ok dest =>
      if a.rows ≠ d.rows || a.cols ≠ d.cols || (a.format ≠ d.format && (a.format = 11 || d.format = 11)) then .fault s 0x09 0
      else s.withTile n y a (fun s rows =>
        if a.format = d.format then let r := s.writeRows n y (dest.zip rows); .done r.1 r.2 none
        else s.writeTile n y d dest (rows.map (rowValues a.format a.cols)))))

/-! ### Accumulators (R238, R287) -/

/-- Byte offset of element `e` of accumulator `i`. -/
def accAt (i e : Nat) : Nat := 0x4000 * i + 4 * e

/-- Element `e` of accumulator `i`. -/
def UnitX.accGet (y : UnitX) (i e : Nat) : Nat := recGet (memBytes y.acc (accAt i e) 4) 0 4

/-- Elements of an accumulator written from element `e` on. -/
def UnitX.accPut (y : UnitX) (i e : Nat) (values : List Nat) : UnitX :=
  { y with acc := putBytes (accAt i e) (values.flatMap (bytesOf 4)) y.acc }

/-- Which type an accumulator holds (R288, R321). -/
def UnitX.accType (y : UnitX) (i : Nat) (isInt : Bool) : UnitX := { y with accInt := setFlagBit i isInt y.accInt }

/-- An accumulator set to 0. -/
def UnitX.accZero (y : UnitX) (i : Nat) : UnitX := y.accPut i 0 (List.replicate 4096 0)

/-- The value of an accumulator element. -/
def UnitX.accValue (y : UnitX) (i e : Nat) : FVal :=
  if y.accInt.testBit i then FVal.ofInt (signedOf 32 (y.accGet i e)) else f32 (y.accGet i e)

/-! ### Products (R288, R318, R319) -/

/-- For a pair of formats, the products of a group and whether the accumulator is INT32; none for a pair not in the table. -/
def mmaPair (a b : Nat) : Option (Nat × Bool) :=
  if (a = 8 ∨ a = 12) ∧ (b = 8 ∨ b = 12) then some (32, false)
  else if a = 10 ∧ b = 10 then some (32, true)
  else if 3 ≤ a ∧ a ≤ 7 ∧ ((3 ≤ b ∧ b ≤ 8) ∨ b = 12) then some (16, false)
  else if a = 9 ∧ (b = 9 ∨ b = 10) then some (16, true)
  else if (a = 1 ∨ a = 2) ∧ (b = 1 ∨ b = 2) then some (8, false)
  else none

/-- An exact sum. -/
def exactSum : List FVal → FVal
  | [] => .num false 0 0
  | v :: l => l.foldl FVal.add v

/-- One group added to an accumulator element: its code, and whether it was clamped. -/
def accumulate (isInt : Bool) (acc : Nat) (group : List FVal) : Nat × Bool :=
  if isInt then
    toSignedInt 32 ((FVal.ofInt (signedOf 32 acc)).add (exactSum group))
  else (toF32 ((f32 acc).add (exactSum group)), false)

/-- An output element: its groups taken in ascending k; how often it was clamped. -/
def mmaElement (isInt : Bool) (g acc : Nat) (row col : List FVal) : Nat × Nat :=
  (pieces g row.length (List.zipWith FVal.mul row col)).foldl (fun r group =>
    let x := accumulate isInt r.1 group
    (x.1, r.2 + (if x.2 then 1 else 0))) (acc, 0)

/-- The columns of rows of `n` elements. -/
def columns (n : Nat) (rows : List (List FVal)) : List (List FVal) :=
  (List.range n).map (fun c => rows.map (fun r => r.getD c .nan))

/-- What R288, R307 and R320 require of the tiles of a product in SCR: its group size and accumulator type. -/
def mmaTiles (n : Insn) (a b : Tile) (transB : Bool) : Option (Nat × Bool) :=
  let k := if transB then b.cols else b.rows
  let m := if transB then b.rows else b.cols
  if a.format ≠ n.fmt.toNat || a.cols ≠ k || 4096 < a.rows * m || (!transB && blockSize b.format ≠ 0) then none
  else mmaPair a.format b.format

/-- `mx.mma` (R287, R288, R318 to R320). -/
def execMxMma (n : Insn) (s : State) : Host.Outcome State Fault Refusal :=
  next (s.runInsn n 8 0 { side := .cell, d := .a, a := .t, b := .t, flags := 3, fmts := [1, 2, 3, 4, 5, 6, 7, 8, 9, 10, 12] } (fun s y =>
    let a := tileOf (y.tile (n.a.toNat - 0x30))
    let b := tileOf (y.tile (n.b.toNat - 0x30))
    let i := n.d.toNat - 0x38
    let transB := flagBit n 1
    if a.space ≠ 1 || b.space ≠ 1 then .fault s 0x09 0
    else match s.tileRows n a false, s.tileRows n b false with
    | .error f, _ => .fault s f.1 f.2
    | _, .error f => .fault s f.1 f.2
    | .ok _, .ok _ => match mmaTiles n a b transB with
      | none => .fault s 0x09 0
      | some (g, isInt) =>
        s.withTile n y a (fun s rowsA => s.withTile n y b (fun s rowsB =>
          let left := rowsA.map (rowValues a.format a.cols)
          let right := if transB then rowsB.map (rowValues b.format b.cols) else columns b.cols (rowsB.map (rowValues b.format b.cols))
          let y := (if flagBit n 0 then y.accZero i else y).accType i isInt
          let out := (left.flatMap (fun r => right.map (fun c => (r, c)))).zipIdx.map (fun e => mmaElement isInt g (y.accGet i e.2) e.1.1 e.1.2)
          .done (s.bump Fld.GC_SAT_CNT_COUNT ((out.map (·.2)).foldl (· + ·) 0)) (y.accPut i 0 (out.map (·.1))) none))))

/-- Whether a tile in SCR can be loaded to or stored from an accumulator (R287, R307). -/
def accTile (t : Tile) : Bool := decide (t.format ≠ 11) && decide (t.rows * t.cols ≤ 4096)

/-- `mx.ld` (R287, R321). -/
def execMxLd (n : Insn) (s : State) : Host.Outcome State Fault Refusal :=
  next (s.runInsn n 8 1 { side := .cell, d := .a, a := .t } (fun s y =>
    let a := tileOf (y.tile (n.a.toNat - 0x30))
    let i := n.d.toNat - 0x38
    let isInt := decide (a.format = 9 ∨ a.format = 10)
    if a.space ≠ 1 then .fault s 0x09 0
    else match s.tileRows n a false with
    | .error f => .fault s f.1 f.2
    | .ok _ =>
      if !accTile a then .fault s 0x09 0
      else s.withTile n y a (fun s rows =>
        let values := (rows.flatMap (rowValues a.format a.cols)).map (fun v => if isInt then (toSignedInt 32 v).1 else toF32 v)
        .done s ((y.accType i isInt).accPut i 0 values) none)))

/-- `mx.st` (R287, R321). -/
def execMxSt (n : Insn) (s : State) : Host.Outcome State Fault Refusal :=
  next (s.runInsn n 8 2 { side := .cell, d := .t, a := .a } (fun s y =>
    let d := tileOf (y.tile (n.d.toNat - 0x30))
    let i := n.a.toNat - 0x38
    if d.space ≠ 1 then .fault s 0x09 0
    else match s.tileRows n d true with
    | .error f => .fault s f.1 f.2
    | .ok dest =>
      if !accTile d then .fault s 0x09 0
      else s.writeTile n y d dest ((List.range d.rows).map (fun r => (List.range d.cols).map (fun c => y.accValue i (r * d.cols + c))))))

/-- `mx.zero`. -/
def execMxZero (n : Insn) (s : State) : Host.Outcome State Fault Refusal :=
  next (s.runInsn n 8 3 { side := .cell, d := .a } (fun s y =>
    let i := n.d.toNat - 0x38
    .done s ((y.accType i false).accZero i) none))

end Sys2Proof.Machine
end

