-- ==== Sys2Proof/Machine/Power.lean ====
section
/-! DEFINITION. The meanings of the power family (R545 to R562). -/

namespace Sys2Proof.Machine

/-- PWARN_ASSERT (R555, R556, R558): the warning is latched; no second sequence starts before the device has resumed. -/
def execPwarnAssert (s : State) : Host.Outcome State Fault Refusal :=
  next (if !s.unitsRun || s.on Fld.PW_STATUS_WARN then s
    else
      let s := ((s.put Fld.PW_STATUS_WARN 1).put Fld.PW_STATUS_HOLD 0).put Fld.PW_WARN_YT_NS s.now
      let s := s.raise { code := 0x0201 }
      if s.on Fld.PW_STATUS_PARKING then s else s.beginParking)

/-- POWER_SAFE (R557): every dirty remainder, header record and seal record has been written. -/
def execPowerSafe (s : State) : Host.Outcome State Fault Refusal :=
  next (if !s.on Fld.PW_STATUS_PARKING || s.on Fld.PW_STATUS_SAFE || s.stalls.any (fun e => emitting e.2) then s
    else
      let s := s.toSeal.foldl (fun s i => s.sealStall i) s
      if s.get Fld.STL_DIRTY_NOW_NOW ≠ 0 then s
      else ((s.put Fld.PW_STATUS_SAFE 1).put Fld.PW_SAFE_YT_NS s.now).raise { code := 0x0202 })

/-- PARK_LATE (R557): SAFE not reached 9.5 ms after the warning. -/
def execParkLate (s : State) : Host.Outcome State Fault Refusal :=
  next (if s.on Fld.PW_STATUS_PARKING && !s.on Fld.PW_STATUS_SAFE && decide (s.get Fld.PW_WARN_YT_NS + 9500000 ≤ s.now) then s.raise { code := 0x0203 } else s)

/-- PWARN_DEASSERT (R558): the wait of PW_RESUME runs from the rising edge. -/
def execPwarnDeassert (s : State) : Host.Outcome State Fault Refusal :=
  next (if !s.unitsRun || !s.on Fld.PW_STATUS_WARN then s
    else ((s.put Fld.PW_STATUS_WARN 0).put Fld.PW_STATUS_HOLD 1).setPw { s.pw with roseAt := s.now })

/-- The copies of MEM_SPARE operations that waited for the device to resume (R142). -/
def State.startSpares (s : State) : State :=
  (s.ops.filter (fun o => o.2.live && o.2.opcode = 0x32 && o.2.st = .running)).foldl (fun s o => match o.2.args with
    | [h, ch] =>
      if (s.physicalChannel h ch).any (fun p => s.get (Fld.HB_CH_STATE h p) = 2) then s
      else (match s.startSparing h ch with
        | some s => s
        | none => (s.loseChannel h ch true).endOp o.1 .failed CS.noResource)
    | _ => s) s

/-- PW_RESUME_EXPIRY (R558): PWARN_N has stayed high for PW_RESUME.NS, and the sequence has reached SAFE. -/
def execPwResumeExpiry (s : State) : Host.Outcome State Fault Refusal :=
  next (if !s.on Fld.PW_STATUS_HOLD || !s.on Fld.PW_STATUS_SAFE || decide (s.now < s.pw.roseAt + s.get Fld.PW_RESUME_NS) then s
    else
      let s := ((s.put Fld.PW_STATUS_HOLD 0).put Fld.PW_STATUS_PARKING 0).put Fld.PW_STATUS_SAFE 0
      s.startSpares.raise { code := 0x0204 })

/-- PWRGD_FALL (R559): as DEV_RST_N asserted. -/
def execPwrgdFall (s : State) : Host.Outcome State Fault Refusal := next s.deviceReset

/-- TELEMETRY_SAMPLE (R547, R551). -/
def execTelemetrySample (l : List RailReading) (s : State) : Host.Outcome State Fault Refusal :=
  next (if !(2 ≤ s.get Fld.BU_STATE_STATE ∧ s.get Fld.BU_STATE_STATE ≤ 7) then s
    else
      let s := (List.range 22).foldl (fun s r => s.readRail l r) s
      let watts := s.sampledWatts
      let s := (s.put Fld.PW_POWER_W watts).put Fld.PW_POWER_PEAK_W (max watts (s.get Fld.PW_POWER_PEAK_W))
      s.capPower watts)

/-- DROOP_SAMPLE (R548): the die voltage of the domains given, in mV. -/
def execDroopSample (l : List (Nat × Nat)) (s : State) : Host.Outcome State Fault Refusal :=
  next (if s.unitsRun then l.foldl (fun s e => if e.1 < 17 then s.droop e.1 e.2 else s) s else s)

/-- SUPPLY_LIMIT_RELAX (R548, R550): 100 ms without cause lower the limit by one level. -/
def execSupplyLimitRelax (d : Nat) (s : State) : Host.Outcome State Fault Refusal :=
  next (if 17 ≤ d || s.get (Fld.PW_LIMITS_SUPPLY d) = 0 || decide (s.now < (s.sagOf d).stood + 100000000) then s
    else (s.setSag d { s.sagOf d with stood := s.now }).setSupply d (s.get (Fld.PW_LIMITS_SUPPLY d) - 1))

/-- OVERVOLT (R550). -/
def execOvervolt (d : Nat) (s : State) : Host.Outcome State Fault Refusal :=
  next (if 17 ≤ d || !s.unitsRun then s
    else (((s.setSag d { s.sagOf d with stood := s.now }).raise { code := 0x0206, subject := d }).cpTrigger Fld.CP_TRIG_OVERVOLT).setSupply d 7)

/-- BROWNOUT (R549): a FATAL event. -/
def execBrownout (d : Nat) (s : State) : Host.Outcome State Fault Refusal := next (if 17 ≤ d || !s.unitsRun then s else s.raise { code := 0x0209, subject := d })

/-- THERMAL_STEP (R552, R553): the hottest sensor of each domain given; the limits are all applied before the sequencer reads them. -/
def execThermalStep (l : List (Nat × Int)) (s : State) : Host.Outcome State Fault Refusal :=
  next (if s.get Fld.BU_STATE_STATE = 0 then s
    else
      let l := l.filter (fun e => decide (e.1 < 17))
      let s := l.foldl (fun s e => s.thermal e.1 e.2) s
      if s.unitsRun then l.foldl (fun s e => s.recomputeLimit e.1) s else s)

/-- A write to PW_CTRL (R548, R551, R561). -/
def State.writePwCtrl (s : State) (w : RegWrite) : State := s.fromPort w Reg.PW_CTRL (fun s => s.store w Reg.PW_CTRL)

/-- PW_COMMIT (R561). -/
def execPwCommit (w : RegWrite) (s : State) : Host.Outcome State Fault Refusal := next (s.writePwCtrl w)

end Sys2Proof.Machine
end

