-- ==== Sys2Proof/Machine/Repair.lean ====
section
/-! DEFINITION. The meanings of the repair family (R563 to R577). -/

namespace Sys2Proof.Machine

/-! ### Units judged failed (R564 to R568) -/

/-- Whether reason 3 can be the verdict on a unit (R565): a Cell, a Hub sequencer, an engine, the link logic of a host port. -/
def handshakes : Part → Bool
  | .cell .. | .sequencer _ | .engine .. | .hostPort _ => true
  | _ => false

/-- Whether the device has come up far enough for the repair logic to act: the Groom firmware runs (R566, R499). -/
def State.inService (s : State) : Bool := s.get Fld.BU_STATE_STATE = 6 || s.get Fld.BU_STATE_STATE = 7

/-- HANDSHAKE_TIMEOUT (R565 reason 3). -/
def execHandshakeTimeout (u : Part) (s : State) : Host.Outcome State Fault Refusal :=
  next (if handshakes u && s.inService then s.judge u 3 else s)

/-- GROOM_PAIR_DISAGREE (R565 reason 5). -/
def execGroomPairDisagree (p : Nat) (s : State) : Host.Outcome State Fault Refusal := next (if s.inService then s.judge (.groom p) 5 else s)

/-- AISLE_LINK_FAIL (R568): the Hive is ABSENT. Its repair entry's test code is a free value: R565 gives the Aisle link no reason. -/
def execAisleLinkFail (h : Nat) (s : State) : Host.Outcome State Fault Refusal :=
  next (if !s.inService || decide (16 ≤ h) || s.hiveAbsent h then s
    else
      let f := s.drawFree
      f.2.judge (.aisle h) (f.1.toNat % 256))

/-- The counts of corrected words at 0 (R565). -/
def State.clearCorrected (s : State) : State :=
  let last := Reg.RP_CELL_CORR 8191
  let kept (e : Nat × Word) : Bool := !(decide (Reg.RP_CELL_CORR 0 ≤ e.1) && decide (e.1 ≤ last))
  { s with io := { s.io with regs := s.io.regs.filter kept }, units := { s.units with tallyCorr := [] } }

/-- REPAIR_WINDOW_RESTART (R565): at each whole multiple of RP_WINDOW.NS. -/
def execRepairWindowRestart (s : State) : Host.Outcome State Fault Refusal :=
  let at_ := s.now / s.get Fld.RP_WINDOW_NS * s.get Fld.RP_WINDOW_NS
  next (if at_ ≤ s.units.corrAt then s else s.clearCorrected.updUnits (fun u => { u with corrAt := at_ }))

/-! ### Self-test (R571, R575) -/

/-- The FREE spares of the kinds a mask names: Cells, tallies, the Groom pair, key-engine instances (R575). -/
def State.freeSpares (s : State) (mask : Nat) : List Part :=
  (if mask.testBit 0 then (List.range 32).flatMap (fun c => (s.freeSpareCells c).map (fun k => Part.cell c (256 + k))) else []) ++
  (if mask.testBit 1 then ((List.range 512).filter s.spareTallyFree).map (fun k => Part.tally (8192 + k)) else []) ++
  (if mask.testBit 2 && s.units.groom = some 0 && !s.units.badGroom.contains 1 then [Part.groom 1] else []) ++
  (if mask.testBit 3 then ((List.range 2).filter s.spareKeyFree).map (fun k => Part.key (8 + k)) else [])

/-- The bound Cells of the Combs that are in no partition whose VALID is 1 (R571). -/
def State.idleCells (s : State) : List Part :=
  ((List.range 32).filter (fun c => s.combPartition c = 0xFF)).flatMap (fun c =>
    (((List.range 256).map (256 * c + ·)).filter (fun n => !s.cellAbsent n)).map (fun n => Part.cell c (s.physicalCell n)))

/-- SELF_TEST_PERIOD (R571): every FREE spare is tested; those in `bad` are found failed. -/
def execSelfTestPeriod (bad : List Part) (s : State) : Host.Outcome State Fault Refusal :=
  let period := max 1 (s.get Fld.RP_TEST_PERIOD_NS)
  let at_ := s.now / period * period
  next (if !s.inService || !s.on Fld.RP_CTRL_TEST_EN || decide (at_ ≤ s.units.testAt) then s
    else
      let tested := s.freeSpares 15
      ((bad.filter (fun u => tested.contains u)).foldl (fun s u => s.judge u 4) s).updUnits (fun u => { u with testAt := at_ }))

/-- SELF_TEST (R575): ends at once where nothing is selected. -/
def execSelfTest (c : Cmd) (s : State) : Host.Outcome State Fault Refusal :=
  next (s.runCmd c .mgmt false (fun s =>
    let mask := opByte c 32
    if 32 ≤ mask || !opZero c 33 63 then s.refuse c CS.badCommand
    else
      let left := s.freeSpares mask ++ (if mask.testBit 4 then s.idleCells else [])
      s.beginOp c 0xC1 [mask] false (fun op s =>
        if left.isEmpty then s.endOp op .done CS.ok
        else { s with tests := s.tests ++ [⟨op, left, 0, 0⟩] })))

/-- SELF_TEST_UNIT_DONE (R575): one unit of a RUNNING self-test; the last ends the operation DONE with its findings. -/
def execSelfTestUnitDone (slot : Nat) (u : Part) (bad : Bool) (s : State) : Host.Outcome State Fault Refusal :=
  next (match s.tests.find? (fun t => t.op = slot) with
    | none => s
    | some t =>
      if (s.op slot).st ≠ .running || !t.left.contains u then s
      else
        let t : SelfTest := { t with left := t.left.erase u, tested := t.tested + 1, failed := t.failed + (if bad then 1 else 0) }
        let s : State := { s with tests := s.tests.filter (fun x => x.op ≠ slot) ++ [t] }
        let s : State := if bad then s.judge u 4 else s
        if t.left.isEmpty then s.endTest slot .done CS.ok else s)

/-! ### RP_RETIRE and the repair log (R572, R573, R575) -/

/-- The unit that a repair entry of RP_RETIRE names (R502, R575); none for another kind or an entry out of range. -/
def retiredUnit (c : Cmd) : Option Part :=
  let hive := opByte c 33
  let unit := opU16 c 34
  if 3 ≤ opByte c 36 then none
  else match opByte c 32 with
  | 0 => if hive < 16 ∧ unit < 544 then some (.cell (2 * hive + unit / 272) (unit % 272)) else none
  | 3 => if hive = 0xFF ∧ unit < 8704 then some (.tally unit) else none
  | 4 => if hive = 0xFF ∧ unit < 2 then some (.groom unit) else none
  | 5 => if hive = 0xFF ∧ unit < 10 then some (.key unit) else none
  | _ => none

/-- The logical number that a physical unit serves, if it is in service. -/
def State.served (s : State) (u : Part) : Option Nat :=
  match u with
  | .cell c p => if s.hiveAbsent (c / 2) || s.cellBad c p then none else s.cellServed c p
  | .tally p => if s.units.badTallies.contains p then none else s.tallyServed p
  | .groom p => if s.units.groom = some p then some 0 else none
  | .key p => if s.units.badKeys.contains p then none else s.keyServed p
  | _ => none

/-- The physical unit bound to a logical number, as R502 writes it; 0xFFFF_FFFF where it is ABSENT. -/
def State.boundUnit (s : State) (u : Part) (n : Nat) : Nat :=
  match u with
  | .cell .. => if s.cellAbsent n then 0xFFFFFFFF else 272 * (n / 256 % 2) + s.physicalCell n
  | .tally _ => if s.tallyAbsent n then 0xFFFFFFFF else s.physicalTally n
  | .groom _ => s.units.groom.getD 0xFFFFFFFF
  | .key _ => if s.units.absentKeys.contains n then 0xFFFFFFFF else s.physicalKey n
  | _ => 0xFFFFFFFF

/-- RP_RETIRE (R566, R569, R575). A retirement that would break R507 changes nothing. What result word 0 holds for a unit that serves
no number is a free value. -/
def execRpRetire (c : Cmd) (s : State) : Host.Outcome State Fault Refusal :=
  next (s.runCmd c .mgmt false (fun s =>
    match retiredUnit c with
    | none => s.complete c CS.badCommand
    | some u =>
      if !opZero c 38 63 then s.complete c CS.badCommand
      else
        let after := s.judge u 7
        if s.workingSet && !after.workingSet then s.complete c CS.noResource
        else match s.served u with
        | some n => after.complete c CS.ok (after.boundUnit u n)
        | none =>
          let f := after.drawFree
          f.2.complete c CS.ok f.1.toNat))

/-- What a write to RP_LOG_ACK does (R573): a value above WRITTEN stores WRITTEN. -/
def State.writeLogAck (s : State) (w : RegWrite) : State :=
  s.fromPort w Reg.RP_LOG_ACK (fun s =>
    s.storePut w Fld.RP_LOG_ACK_COUNT (min (s.wouldGet w Fld.RP_LOG_ACK_COUNT) (s.get Fld.RP_LOG_COUNT_WRITTEN)))

/-- RP_LOG_ACK_WRITE (R573). -/
def execRpLogAckWrite (w : RegWrite) (s : State) : Host.Outcome State Fault Refusal := next (s.writeLogAck w)

end Sys2Proof.Machine
end

