-- ==== Sys2Proof/Machine/Search.lean ====
section
/-! DEFINITION. Vector search: the opcodes 0x60 to 0x64, the merge's start and commit, and `vs.cmd` (R210, R216 to R231, R301). -/

namespace Sys2Proof.Machine

/-! ### What every command checks (R227) -/

/-- A vector search command: the checks of R396, the enable, the handle, the kind, the fields, the stall's state. `init` tells VS_INIT, which
takes an index without storage; the others take one that has it. -/
def State.vsCommand (s : State) (c : Cmd) (init : Bool) (fields : Bool) (body : Nat → State → State) : State :=
  s.runHeld c .tenant false (fun s =>
    if !s.on Fld.VS_CTRL_EN then s.complete c CS.notReady
    else match s.checkHandle ((s.issuerTenant c.issuer).getD 0) c.handle.toNat false with
    | .error e => s.complete c e.1 e.2.1 e.2.2
    | .ok i =>
      let x := s.stall i
      if x.hdr.kind ≠ 1 then s.complete c CS.badHandle
      else if !fields then s.complete c CS.badCommand
      else if s.kindLost 3 || s.indexLost i then s.complete c CS.absentUnit
      else if x.state ≠ .hot || (decide (x.hdr.ptRoot = 0) != init) then s.complete c CS.notReady
      else body i s)

/-- The same for a command that reads the index's root. -/
def State.vsOnRoot (s : State) (c : Cmd) (fields : Bool) (body : Nat → VsRoot → State → State) : State :=
  s.vsCommand c false fields (fun i s =>
    match s.vsRoot i with
    | .error st => (s.afterRead (s.stallTenant i) (s.stall i).hdr.ptRoot 4096).checkPoison.complete c st
    | .ok r => body i r s)

/-! ### VS_INIT (R211 to R213, R227, R228) -/

/-- Whether the fields of a VS_INIT are in range for its tenant. -/
def State.vsInitFields (s : State) (c : Cmd) : Bool :=
  let t := (s.issuerTenant c.issuer).getD 0
  let mask := opU16 c 34
  let cap := opU32 c 36
  let degree := opByte c 33
  decide (6 ≤ opByte c 32 ∧ opByte c 32 ≤ 12) && decide (8 ≤ degree ∧ degree ≤ 64 ∧ degree % 8 = 0) && decide (mask ≠ 0) &&
    (List.range 16).all (fun h => !mask.testBit h || s.partitionHive t h) &&
    decide (1 ≤ cap) && decide (cap ≤ if mask = 0xFFFF then 0x0FFFFFFE else 0x0FFFFFFF)

/-- Granules for `n` bytes of an index on Hive `h`: the address. -/
def State.vsArea (s : State) (i h n : Nat) : Option (Nat × State) :=
  (s.allocWide h (max 1 (ceilDiv n 4096)) (.stall i)).map (fun r => (4096 * r.1, r.2))

/-- The areas of one shard. -/
def State.vsShardAreas (s : State) (i h cap sideCap code degree : Nat) : Option (VsShard × State) :=
  (s.vsArea i h (cap * code)).bind fun a => (a.2.vsArea i h (32 * cap)).bind fun b => (b.2.vsArea i h (4 * degree * cap)).bind fun n0 =>
    (n0.2.vsArea i h (4 * degree * cap)).bind fun n1 => (n1.2.vsArea i h (4 * sideCap)).bind fun sd => (sd.2.vsArea i h 512).map fun e =>
      (⟨h, cap, 0, 0, a.1, b.1, [n0.1, n1.1], sd.1, e.1, [0, 0]⟩, e.2)

/-- The shards of an index, one on each Hive. -/
def State.vsShards (s : State) (i cap sideCap code degree : Nat) : List Nat → Option (List VsShard × State)
  | [] => some ([], s)
  | h :: hs => (s.vsShardAreas i h cap sideCap code degree).bind fun a =>
      (a.2.vsShards i cap sideCap code degree hs).map fun r => (a.1 :: r.1, r.2)

/-- A shard of a graph image, as read (R228). -/
structure VsPart where
  count : Nat
  codes : List Byte
  lists : List (List Nat)
  tags : List Nat
  entries : List Nat

/-- Why a graph image does not load: the status, and whether it is refused as bad. -/
abbrev VsBad := Nat × Bool

/-- Bytes of an image, which lies in its tenant's domain. -/
def State.vsImageBytes (s : State) (t addr n : Nat) : Except VsBad (List Byte) :=
  if !s.tenantOwns t addr n then .error (CS.badCommand, true) else (s.readT1 t addr n).mapError (fun st => (st, false))

/-- Whether an ID names a node of shard `k` with `count` nodes. -/
def idInside (k count id : Nat) : Bool := decide (id / 2 ^ 28 = k ∧ id % 2 ^ 28 < count)

/-- Whether a neighbour list keeps R214 and R228. -/
def listOk (k count : Nat) (l : List Nat) : Bool :=
  let used := l.takeWhile (· ≠ 0xFFFFFFFF)
  used.all (idInside k count) && (l.drop used.length).all (· = 0xFFFFFFFF)

/-- Shard `k` of a graph image. -/
def State.imageShard (s : State) (t base k cap code degree : Nat) : Except VsBad VsPart :=
  match s.vsImageBytes t (base + 64 + 32 * k) 32 with
  | .error e => .error e
  | .ok d =>
    let count := recGet d 0 4
    let n := recGet d 4 2
    if cap < count || n = 0 || 64 < n then .error (CS.badCommand, true)
    else match s.vsImageBytes t (base + recGet d 8 8) (count * code), s.vsImageBytes t (base + recGet d 16 8) (4 * degree * count),
        s.vsImageBytes t (base + recGet d 24 8) (4 * count + 4 * n) with
    | .error e, _, _ => .error e
    | _, .error e, _ => .error e
    | _, _, .error e => .error e
    | .ok codes, .ok nbr, .ok tail =>
      let lists := (List.range count).map (fun j => words4 degree (nbr.drop (4 * degree * j)))
      let entries := words4 n (tail.drop (4 * count))
      if lists.all (listOk k count) && entries.all (idInside k count) then .ok ⟨count, codes, lists, words4 count tail, entries⟩
      else .error (CS.badCommand, true)

/-- A whole graph image (R228). -/
def State.graphImage (s : State) (t base log2 cap degree shards : Nat) : Except VsBad (List VsPart) :=
  match s.vsImageBytes t base 64 with
  | .error e => .error e
  | .ok h =>
    if recGet h 0 4 ≠ 0x56475231 || recGet h 4 1 ≠ log2 || recGet h 5 1 ≠ degree || recGet h 6 1 ≠ shards then .error (CS.badCommand, true)
    else (List.range shards).mapM (fun k => s.imageShard t base k cap (2 ^ log2 / 8) degree)

/-- A shard's part of an image stored: its nodes, in slot 0 and with INS_GEN 1. -/
def State.storePart (s : State) (t : Nat) (h : VsShard) (p : VsPart) : State :=
  let s := s.writeT1 t h.codes p.codes
  let s := s.writeT1 t h.metaAt (p.tags.flatMap (fun g => vsMetaBytes ⟨1, vsLive, g, true⟩))
  let s := s.writeT1 t (h.nbr.getD 0 0) (p.lists.flatMap (fun l => l.flatMap (bytesOf 4)))
  s.writeT1 t h.entry (p.entries.flatMap (bytesOf 4))

/-- What VS_INIT does. -/
def State.vsInit (s : State) (c : Cmd) : State :=
  s.vsCommand c true (s.vsInitFields c) (fun i s =>
    if s.allocStopped then s
    else
      let t := s.stallTenant i
      let log2 := opByte c 32
      let degree := opByte c 33
      let mask := opU16 c 34
      let cap := opU32 c 36
      let sideCap := opU32 c 40
      let hives := (List.range 16).filter mask.testBit
      let base := c.addrA.toNat
      match (if base = 0 then .ok [] else s.graphImage t base log2 cap degree hives.length) with
      | .error (st, bad) => (if bad then s.stallEvent 0x0985 i else s).complete c st
      | .ok parts =>
        if 2 ^ 32 < s.vsCapUsed + cap * hives.length then s.complete c CS.noResource
        else match (s.vsArea i (s.stall i).hdr.homeHive 4096).bind (fun a =>
            (a.2.vsShards i cap sideCap (2 ^ log2 / 8) degree hives).map (fun r => (a.1, r.1, r.2))) with
        | none => s.complete c CS.noResource
        | some (at_, shards, s) =>
          let loaded := shards.zipIdx.map (fun e => match parts[e.2]? with
            | some p => { e.1 with count := p.count, entries := [p.entries.length, 0] }
            | none => e.1)
          let s := (loaded.zip parts).foldl (fun s e => s.storePart t e.1 e.2) s
          let s := s.setStall i { s.stall i with vsCap := cap * hives.length, hdr := { (s.stall i).hdr with ptRoot := at_ } }
          let s := s.setVsRoot i ⟨log2, degree, mask, 1, 0, sideCap, 1, loaded⟩
          s.complete c CS.ok ((parts.map (·.count)).foldl (· + ·) 0))

/-- VS_INIT (R227, R228). -/
def execVsInit (c : Cmd) (s : State) : Host.Outcome State Fault Refusal := next (s.vsInit c)

/-! ### VS_INSERT and VS_DELETE (R219, R220, R227) -/

/-- The shard an insert goes to: as named, or the one with the fewest issued IDs. -/
def insertShard (r : VsRoot) (named : Nat) : Option Nat :=
  if named = 0xFF then
    (List.range r.shards.length).foldl (fun best k => match best with
      | none => some k
      | some b => if (r.shard k).count < (r.shard b).count then some k else some b) none
  else if named < r.shards.length then some named else none

/-- What VS_INSERT does. -/
def State.vsInsert (s : State) (c : Cmd) : State :=
  let n := opU32 c 32
  s.vsOnRoot c (decide (1 ≤ n ∧ n ≤ 65536)) (fun i r s =>
    let t := s.stallTenant i
    match insertShard r (opByte c 36) with
    | none => s.complete c CS.badCommand
    | some k =>
      let h := r.shard k
      if h.cap < h.count + n then s.complete c CS.noResource
      else if r.sideCap < h.sideCount + n then (s.stallEvent 0x0981 i).complete c CS.noResource
      else match s.readIn c c.addrA.toNat 0 (n * r.codeBytes),
          (if c.addrB = 0 then .ok (List.replicate (4 * n) 0) else s.readIn c c.addrB.toNat (n * r.codeBytes) (4 * n)) with
      | .error st, _ => ((s.readNoted c c.addrA.toNat (n * r.codeBytes)).checkPoison.readInFault c c.addrA.toNat st).complete c st
      | _, .error st => (((s.readNoted c c.addrA.toNat (n * r.codeBytes)).readNoted c c.addrB.toNat (4 * n)).checkPoison.readInFault c c.addrB.toNat st).complete c st
      | .ok codes, .ok tags =>
        let s := s.readNoted c c.addrA.toNat (n * r.codeBytes)
        let s := (if c.addrB = 0 then s else s.readNoted c c.addrB.toNat (4 * n)).checkPoison
        let s := s.writeT1 t (h.codes + h.count * r.codeBytes) codes
        let s := s.writeT1 t (h.metaAt + 32 * h.count) ((words4 n tags).flatMap (fun g => vsMetaBytes ⟨r.gen + 1, vsLive, g, false⟩))
        let s := s.writeT1 t (h.side + 4 * h.sideCount) ((List.range n).flatMap (fun j => bytesOf 4 (h.count + j)))
        let h' := { h with count := h.count + n, sideCount := h.sideCount + n }
        let s := s.setVsRoot i { r with gen := r.gen + 1, shards := r.shards.set k h' }
        (s.autoMerge i).complete c CS.ok (vsId k h.count) (r.gen + 1))

/-- VS_INSERT (R220, R227). -/
def execVsInsert (c : Cmd) (s : State) : Host.Outcome State Fault Refusal := next (s.vsInsert c)

/-- Whether an ID was issued (R211). -/
def VsRoot.issued (r : VsRoot) (id : Nat) : Bool := decide (id / 2 ^ 28 < r.shards.length) && decide (id % 2 ^ 28 < (r.shard (id / 2 ^ 28)).count)

/-- What reading the metadata of the issued IDs of a list does besides delivering. -/
def State.readMetas (s : State) (t : Nat) (r : VsRoot) (ids : List Nat) : State :=
  ((ids.filter r.issued).foldl (fun s id => s.afterRead t ((r.shard (id / 2 ^ 28)).metaAt + 32 * (id % 2 ^ 28)) 32) s).checkPoison

/-- The status in which such a read ends, if one fails (R633). -/
def State.metasFail (s : State) (t : Nat) (r : VsRoot) (ids : List Nat) : Option Nat :=
  (ids.filter r.issued).findSome? (fun id => match s.vsMeta t r (id / 2 ^ 28) (id % 2 ^ 28) with | .error st => some st | .ok _ => none)

/-- One ID deleted at a generation, if it was issued and is live: the state, and whether it was. -/
def State.vsDeleteOne (s : State) (t : Nat) (r : VsRoot) (gen id : Nat) : State × Bool :=
  let k := id / 2 ^ 28
  let n := id % 2 ^ 28
  if !r.issued id then (s, false)
  else match s.vsMeta t r k n with
  | .error _ => (s, false)
  | .ok x =>
    if x.delGen ≠ vsLive then (s, false)
    else (s.writeT1 t ((r.shard k).metaAt + 32 * n) (vsMetaBytes { x with delGen := gen }), true)

/-- What VS_DELETE does. Where an ID's metadata cannot be read, nothing is deleted. -/
def State.vsDelete (s : State) (c : Cmd) : State :=
  let n := opU32 c 32
  s.vsOnRoot c (decide (1 ≤ n ∧ n ≤ 65536)) (fun i r s =>
    let t := s.stallTenant i
    match s.readIn c c.addrA.toNat 0 (4 * n) with
    | .error st => ((s.readNoted c c.addrA.toNat (4 * n)).checkPoison.readInFault c c.addrA.toNat st).complete c st
    | .ok b =>
      let s := (s.readNoted c c.addrA.toNat (4 * n)).checkPoison
      let ids := words4 n b
      let failed := s.metasFail t r ids
      let s := s.readMetas t r ids
      match failed with
      | some st => s.complete c st
      | none =>
      let q := ids.foldl (fun (a : State × Nat) id =>
        let d := a.1.vsDeleteOne t r (r.gen + 1) id
        (d.1, if d.2 then a.2 + 1 else a.2)) (s, 0)
      (q.1.setVsRoot i { r with gen := r.gen + 1 }).complete c CS.ok q.2 (r.gen + 1))

/-- VS_DELETE (R220, R227). -/
def execVsDelete (c : Cmd) (s : State) : Host.Outcome State Fault Refusal := next (s.vsDelete c)

/-! ### VS_QUERY (R216, R217, R221 to R226) -/

/-- What a query asks: its index, snapshot, code, K, EF and filter. -/
structure VsAsk where
  i : Nat
  t : Nat
  r : VsRoot
  snap : Nat
  code : List Byte
  k : Nat
  ef : Nat
  mask : Nat
  match_ : Nat

/-- Whether a code's TAGS pass the filter (R224); a TAG_MASK of 0 passes every code, whatever TAG_MATCH holds. -/
def VsAsk.passes (q : VsAsk) (tags : Nat) : Bool := decide (q.mask = 0) || decide (tags &&& q.mask = q.match_)

/-- A query under way: the state, the first failure, how many codes were compared, whether a walk met the visited limit, and the best `k` of the
shard it is on. -/
structure VsRun where
  s : State
  failed : Option Nat
  evals : Nat
  full : Bool
  best : List VsCand

/-- A code that a Strainer cannot read (R217): not visible, counted, an event with its ID. -/
def VsRun.miss (a : VsRun) (q : VsAsk) (id st : Nat) : VsRun :=
  { a with s := (a.s.bump Fld.VS_CODE_FAIL_CNT_COUNT 1).stallEvent 0x0983 q.i [id], failed := a.failed <|> some st }

/-- One code compared (R216), and offered to the result where it is visible and passes the filter: the distance, if it was read. -/
def VsRun.strain (a : VsRun) (q : VsAsk) (k n : Nat) : VsRun × Option Nat :=
  let h := q.r.shard k
  let at_ := h.codes + n * q.r.codeBytes
  let code := a.s.vsCode q.t q.r k n
  let info := a.s.vsMeta q.t q.r k n
  let a := { a with s := ((a.s.afterRead q.t at_ q.r.codeBytes).afterRead q.t (h.metaAt + 32 * n) 32).checkPoison }
  match code, info with
  | .error st, _ => (a.miss q (vsId k n) st, none)
  | _, .error st => (a.miss q (vsId k n) st, none)
  | .ok c, .ok x =>
    let d := vsDistance q.code c
    let hit := x.visible q.snap && q.passes x.tags
    ({ a with evals := a.evals + 1, best := if hit then vsOffer q.k (d, n) a.best else a.best }, some d)

/-- Codes compared one after another. -/
def VsRun.scan (a : VsRun) (q : VsAsk) (k : Nat) (l : List Nat) : VsRun := l.foldl (fun a n => (a.strain q k n).1) a

/-- The neighbours of an expanded node taken in list order: until the visited set is full. The beam keeps the EF best. -/
def VsRun.spread (q : VsAsk) (k : Nat) : (l : List Nat) → VsRun → List (VsCand × Bool) → List Nat → VsRun × List (VsCand × Bool) × List Nat
  | [], a, beam, visited => (a, beam, visited)
  | n :: l, a, beam, visited =>
    if visited.contains n then VsRun.spread q k l a beam visited
    else if 65536 ≤ visited.length then ({ a with full := true, s := a.s.stallEvent 0x0982 q.i }, beam, visited)
    else match a.strain q k n with
    | (a, none) => VsRun.spread q k l a beam (n :: visited)
    | (a, some d) =>
      let place := beam.takeWhile (fun e => vsBefore e.1 (d, n))
      VsRun.spread q k l a ((place ++ ((d, n), false) :: beam.drop place.length).take q.ef) (n :: visited)

/-- The walk of one shard (R222), at most `fuel` expansions. -/
def VsRun.walk (q : VsAsk) (k : Nat) : (fuel : Nat) → VsRun → List (VsCand × Bool) → List Nat → VsRun
  | 0, a, _, _ => a
  | fuel + 1, a, beam, visited =>
    match beam.find? (fun e => !e.2) with
    | none => a
    | some c =>
      let beam := beam.map (fun e => if e.1 = c.1 then (e.1, true) else e)
      match a.s.vsNbr q.t q.r k q.r.active c.1.2 with
      | .error st => VsRun.walk q k fuel { a with failed := a.failed <|> some st } beam visited
      | .ok l =>
        let z := VsRun.spread q k l a beam visited
        if z.1.full then z.1 else VsRun.walk q k fuel z.1 z.2.1 z.2.2

/-- One shard of a query (R222, R223): its side list, then the walk from its entry points; or every code of it (EXACT). The result as entries of
R185 with VALUE −d. -/
def VsRun.shard (a : VsRun) (q : VsAsk) (exact : Bool) (k : Nat) : VsRun × List Entry :=
  let a := { a with best := [], full := false }
  let z : VsRun :=
    if exact then a.scan q k (List.range (q.r.shard k).count)
    else match a.s.vsSide q.t q.r k, a.s.vsEntry q.t q.r k q.r.active with
    | .error st, _ => { a with failed := a.failed <|> some st }
    | _, .error st => { a with failed := a.failed <|> some st }
    | .ok side, .ok entries =>
      let start := entries.eraseDups.foldl (fun (p : VsRun × List (VsCand × Bool)) n =>
        match p.1.strain q k n with
        | (b, none) => (b, p.2)
        | (b, some d) =>
          let place := p.2.takeWhile (fun e => vsBefore e.1 (d, n))
          (b, (place ++ ((d, n), false) :: p.2.drop place.length).take q.ef)) (a.scan q k side, [])
      VsRun.walk q k 65537 start.1 start.2 entries.eraseDups
  (z, z.best.map (fun e => ⟨toF32 (FVal.ofInt (-(e.1 : Int))), vsId k e.2, k⟩))

/-- What VS_QUERY does. The query is accepted and answered in one step, at the snapshot GEN. -/
def State.vsQuery (s : State) (c : Cmd) : State :=
  let k := opU32 c 32
  let ef := opU32 c 36
  s.vsOnRoot c (decide (1 ≤ k ∧ k ≤ 1024 ∧ 16 ≤ ef ∧ ef ≤ 4096)) (fun i r s =>
    let t := s.stallTenant i
    match s.readIn c c.addrA.toNat 0 r.codeBytes with
    | .error st => ((s.readNoted c c.addrA.toNat r.codeBytes).checkPoison.readInFault c c.addrA.toNat st).complete c st
    | .ok code =>
      let s := (s.readNoted c c.addrA.toNat r.codeBytes).checkPoison
      let q : VsAsk := ⟨i, t, r, r.gen, code, k, ef, opU32 c 40, opU32 c 44⟩
      let exact := (opByte c 48).testBit 0
      let z := (List.range r.shards.length).foldl (fun (p : VsRun × List Entry × Bool) j =>
        let y := p.1.shard q exact j
        (y.1, p.2.1 ++ y.2, p.2.2 || y.1.full)) (⟨s, none, 0, false, []⟩, [], false)
      let best := (mergeEntries false k z.2.1).1
      let fewer := decide (best.length < k)
      let s := (z.1.s.bump Fld.VS_QUERIES_COUNT 1).bump Fld.VS_COMPARES_COUNT z.1.evals
      let s := s.noteMerge (some t) c.tag.toNat 0 fewer
      match s.writeOut c c.addrB.toNat ((padTo k best).flatMap entryBytes) with
      | .error st => (s.readInFault c c.addrB.toNat st).complete c st
      | .ok s => s.complete c (z.1.failed.getD (if fewer then CS.fewer else CS.ok)) best.length r.gen
          (z.1.evals % 2 ^ 32 + (if z.2.2 then 2 ^ 63 else 0)))

/-- VS_QUERY (R222 to R227). -/
def execVsQuery (c : Cmd) (s : State) : Host.Outcome State Fault Refusal := next (s.vsQuery c)

/-! ### VS_MERGE (R229 to R231) -/

/-- What VS_MERGE does: the operation waits in QUEUED. -/
def State.vsMerge (s : State) (c : Cmd) : State :=
  let ef := opU32 c 32
  s.runHeld c .tenant false (fun s =>
    if !s.on Fld.VS_CTRL_EN then s.refuse c CS.notReady
    else match s.checkHandle ((s.issuerTenant c.issuer).getD 0) c.handle.toNat false with
    | .error e => s.refuse c e.1 e.2.1 e.2.2
    | .ok i =>
      let x := s.stall i
      if x.hdr.kind ≠ 1 then s.refuse c CS.badHandle
      else if ef < 16 || 4096 < ef then s.refuse c CS.badCommand
      else if s.kindLost 3 || s.indexLost i then s.refuse c CS.absentUnit
      else if !isIndex x || s.merging i then s.refuse c CS.notReady
      else s.beginOp c 0x64 [i, ef, 0, x.handle] true (fun _ s => s))

/-- VS_MERGE (R231). -/
def execVsMerge (c : Cmd) (s : State) : Host.Outcome State Fault Refusal := next (s.vsMerge c)

/-- VS_MERGE_START (R229, R231): queries being answered at once, none uses the inactive slot; the merge runs and fixes M = GEN. -/
def execVsMergeStart (slot : Nat) (s : State) : Host.Outcome State Fault Refusal :=
  let o := s.op slot
  next (if !o.live || o.opcode ≠ 0x64 || o.st ≠ .queued then s
    else
      match s.mergeIndex slot with
      | none => s.endOp slot .failed CS.notReady
      | some i => match s.vsRoot i with
        | .error st => s.endMerge slot .failed st
        | .ok r =>
          let s := s.moveOp slot .running
          s.setOp slot { s.op slot with args := [i, o.args.getD 1 128, r.gen, (s.stall i).handle] })

/-- The merge of one shard (R229, R230): the new graph in the inactive slot, IN_GRAPH and the side list; the shard entry after, or the status of a
read that failed. -/
def State.mergeShard (s : State) (t m ef k : Nat) (r : VsRoot) : Except Nat (VsShard × State) :=
  let h := r.shard k
  let all := List.range h.count
  match s.vsSide t r k, s.vsEntry t r k r.active, all.mapM (fun n => s.vsMeta t r k n), all.mapM (fun n => s.vsNbr t r k r.active n) with
  | .error st, _, _, _ => .error st
  | _, .error st, _, _ => .error st
  | _, _, .error st, _ => .error st
  | _, _, _, .error st => .error st
  | .ok side, .ok entries, .ok infos, .ok lists =>
    let info (n : Nat) : VsMeta := infos.getD n ⟨0, 0, 0, false⟩
    let code (n : Nat) : Option (List Byte) := (s.vsCode t r k n).toOption
    let old : VsGraph := (all.filter (fun n => (info n).inGraph)).map (fun n => (n, lists.getD n []))
    let gone (n : Nat) : Bool := decide ((info n).delGen ≤ m)
    let fold := side.filter (fun n => decide ((info n).insGen ≤ m ∧ m < (info n).delGen))
    let g := fold.foldl (linkNode old entries code r.degree ef) (copyGraph old gone code r.degree)
    let entries' := (newEntries old g code entries).take 64
    let left := side.filter (fun n => decide (m < (info n).insGen))
    let slot := 1 - r.active
    let s := g.foldl (fun s e =>
      let ids := e.2.map (vsId k)
      s.writeT1 t (h.nbr.getD slot 0 + 4 * r.degree * e.1) ((ids ++ List.replicate (r.degree - ids.length) 0xFFFFFFFF).flatMap (bytesOf 4))) s
    let s := s.writeT1 t (h.entry + 256 * slot) ((entries'.map (vsId k)).flatMap (bytesOf 4))
    let s := all.foldl (fun s n => s.writeT1 t (h.metaAt + 32 * n) (vsMetaBytes { info n with inGraph := g.any (fun e => e.1 = n) })) s
    let s := s.writeT1 t h.side (left.flatMap (bytesOf 4))
    .ok ({ h with sideCount := left.length, entries := h.entries.set slot entries'.length }, s)

/-- The merges of all shards. -/
def State.mergeShards (s : State) (t m ef : Nat) (r : VsRoot) : List Nat → Except Nat (List VsShard × State)
  | [] => .ok ([], s)
  | k :: ks => match s.mergeShard t m ef k r with
    | .error st => .error st
    | .ok (h, s) => (s.mergeShards t m ef r ks).map (fun q => (h :: q.1, q.2))

/-- VS_MERGE_COMMIT (R229, R230): the build ends; one write switches ACTIVE, MERGE_GEN, IN_GRAPH and the side lists. -/
def execVsMergeCommit (slot : Nat) (s : State) : Host.Outcome State Fault Refusal :=
  let o := s.op slot
  next (if !o.live || o.opcode ≠ 0x64 || o.st ≠ .running then s
    else
      let m := o.args.getD 2 0
      match s.mergeIndex slot with
      | none => s.endOp slot .failed CS.notReady
      | some i => match s.vsRoot i with
        | .error st => s.endMerge slot .failed st
        | .ok r => match s.mergeShards (s.stallTenant i) m (o.args.getD 1 128) r (List.range r.shards.length) with
          | .error st => s.endMerge slot .failed st
          | .ok (shards, s) =>
            let s := s.setVsRoot i { r with active := 1 - r.active, mergeGen := m, shards := shards }
            (s.stallEvent 0x0984 i [m]).endMerge slot .done CS.ok)

/-- VS_CTRL written (R231): with AUTO_MERGE, the indexes whose side lists are full enough start their merges. -/
def State.writeVsCtrl (s : State) (w : RegWrite) : State :=
  s.fromPort w Reg.VS_CTRL (fun s =>
    let s := (s.store w Reg.VS_CTRL).enGate Fld.VS_CTRL_EN
    s.autoMerges)

/-- VS_MERGE_AT written (R231, R233): an index whose side lists are at the new percentage starts its merge. -/
def State.writeMergeAt (s : State) (w : RegWrite) : State :=
  s.fromPort w Reg.VS_MERGE_AT (fun s =>
    let s := s.store w Reg.VS_MERGE_AT
    (s.put Fld.VS_MERGE_AT_PERCENT (min 100 (max 1 (s.get Fld.VS_MERGE_AT_PERCENT)))).autoMerges)

/-! ### `vs.cmd` (R301) -/

/-- A vector search command by its opcode. -/
def State.vsOpcode (s : State) (op : Nat) (c : Cmd) : State :=
  match op with
  | 0x60 => s.vsInit c
  | 0x61 => s.vsInsert c
  | 0x62 => s.vsDelete c
  | 0x63 => s.vsQuery c
  | _ => s.vsMerge c

/-- `vs.cmd` (R301). -/
def execVsCmd (n : Insn) (s : State) : Host.Outcome State Fault Refusal :=
  next (s.runInsn n 0x1B 0 { side := .hub, d := .sPair, a := .s, b := .s } (fun s y =>
    s.blockRequest n y true (some (y.num n n.b)) (fun op => decide (0x60 ≤ op ∧ op ≤ 0x64)) (fun s op c => s.vsOpcode op c)))

end Sys2Proof.Machine
end

