-- ==== Sys2Proof/Machine/Security.lean ====
section
/-! DEFINITION. Attestation, keys, imports and network protection: the meanings of the security family (R444 to R477). -/

namespace Sys2Proof.Machine

/-! ### Confidential tenants (R453, R454) -/

def State.sessionsOf (s : State) (n : Nat) : List SpdmSession := sparseGet [] s.sec.sessions n
def State.setSessions (s : State) (n : Nat) (l : List SpdmSession) : State := s.setSec { s.sec with sessions := sparsePut [] n l s.sec.sessions }

/-- Whether port `n` belongs in SEC_CONF[t].PORTS (R453). -/
def State.confPort (s : State) (t n : Nat) : Bool :=
  s.io.confidential t && s.get (Fld.GC_PORT_STATE_TDI n) = 2 &&
    (s.sessionsOf n).any (fun x => x.established && x.requester = some (sparseGet [] s.sec.allowDigest t))

/-- SEC_CONF[t].PORTS bit `n` as R453 has it; the queues of a tenant whose port leaves stop fetching (R454). -/
def State.refreshConfOf (s : State) (t n : Nat) : State :=
  let ports := s.get (Fld.SEC_CONF_PORTS t)
  if s.confPort t n then (if ports.testBit n then s else s.put (Fld.SEC_CONF_PORTS t) (ports + 2 ^ n))
  else if ports.testBit n then
    let s := s.put (Fld.SEC_CONF_PORTS t) (ports - 2 ^ n)
    let qs := (s.io.enabledQueues n).filter (fun q => queueTenant q = some t)
    { s with io := qs.foldl (fun io q => io.stopQueue q) s.io }
  else s

/-- The same for every tenant. -/
def State.refreshConf (s : State) (n : Nat) : State := (List.range 256).foldl (fun s t => s.refreshConfOf t n) s

/-- A change of a port's TDI state. -/
def State.moveTdi (s : State) (n tdi : Nat) : State := (s.put (Fld.GC_PORT_STATE_TDI n) tdi).refreshConf n

/-- TDISP_LOCK_INTERFACE (R387, R452): CONFIG_UNLOCKED to CONFIG_LOCKED. -/
def execTdispLockInterface (n : Nat) (s : State) : Host.Outcome State Fault Refusal :=
  next (if n < 4 && s.get (Fld.GC_PORT_STATE_TDI n) = 0 then s.moveTdi n 1 else s)

/-- TDISP_START_INTERFACE (R453): CONFIG_LOCKED to RUN. -/
def execTdispStartInterface (n : Nat) (s : State) : Host.Outcome State Fault Refusal :=
  next (if n < 4 && s.get (Fld.GC_PORT_STATE_TDI n) = 1 then s.moveTdi n 2 else s)

/-- TDISP_STOP_INTERFACE (R452): back to CONFIG_UNLOCKED. -/
def execTdispStopInterface (n : Nat) (s : State) : Host.Outcome State Fault Refusal :=
  next (if n < 4 then s.moveTdi n 0 else s)

/-! ### SPDM (R447, R451) -/

/-- A response sent on a port's mailbox, in the session of the request. -/
def State.spdmAnswer (s : State) (r : SpdmReq) (a : SpdmReply) : State := s.emit (.spdm r.port r.session a)

/-- A signature of the identity key over what DSP0274 makes the responder sign (R447). -/
def State.spdmSign (s : State) : List Byte × State :=
  let x := s.drawFree
  (Config.sign (bytesOf 8 x.1.toNat), x.2)

/-- The measurement indices that a request reads: one, or all with 255 (R449). -/
def measureIndices (i : Nat) : List Nat := if i = 255 then (List.range 10).map (· + 1) else if 1 ≤ i ∧ i ≤ 10 then [i] else []

/-- Whether a request is answered with ERROR Unspecified before CERT_LOADED (R451). -/
def needsCert : SpdmBody → Bool
  | .getCertificate .. | .challenge .. | .keyExchange .. => true
  | .getMeasurements _ signed _ => signed
  | _ => false

/-- The lowest session number not in use. -/
def freeSession (l : List SpdmSession) : Nat := (firstBelow (fun i => !(l.any (fun x : SpdmSession => decide (x.id = i)))) 4).getD 0

/-- The answer to an SPDM request, and what it changes. -/
def State.spdm (s : State) (r : SpdmReq) : State :=
  let n := r.port
  let mine := s.sessionsOf n
  let inSession : Option SpdmSession := match r.session with
    | some k => mine.find? (fun x => x.id = k)
    | none => none
  let live : Bool := match inSession with
    | some x => x.established
    | none => false
  if r.session.isSome && inSession.isNone then s.spdmAnswer r .errorInvalid
  else if needsCert r.body && !s.on Fld.SEC_STATE_CERT_LOADED then s.spdmAnswer r .errorUnspecified
  else match r.body with
  | .getVersion => s.spdmAnswer r (.version [0x12, 0x13])
  | .getCapabilities => s.spdmAnswer r .capabilities
  | .negotiateAlgorithms => s.spdmAnswer r .algorithms
  | .getDigests => s.spdmAnswer r (.digests (if s.on Fld.SEC_STATE_CERT_LOADED then Config.sha384 s.sec.chain else []))
  | .getCertificate slot off len =>
    if slot ≠ 0 || decide (s.sec.chain.length ≤ off) then s.spdmAnswer r .errorInvalid
    else
      let part := (s.sec.chain.drop off).take len
      s.spdmAnswer r (.certificate part (s.sec.chain.length - off - part.length))
  | .challenge slot _ =>
    if slot ≠ 0 then s.spdmAnswer r .errorInvalid
    else
      let x := s.spdmSign
      x.2.spdmAnswer r (.challengeAuth (Config.sha384 s.sec.chain) x.1)
  | .getMeasurements i signed _ =>
    let blocks := (measureIndices i).map (fun k => (k, s.measurement k))
    if i ≠ 0 && blocks.isEmpty then s.spdmAnswer r .errorInvalid
    else if signed then
      let x := s.spdmSign
      x.2.spdmAnswer r (.measurements blocks x.1)
    else s.spdmAnswer r (.measurements blocks [])
  | .keyExchange slot =>
    if slot ≠ 0 then s.spdmAnswer r .errorInvalid
    else if 4 ≤ mine.length then s.spdmAnswer r .errorSessionLimit
    else
      let k := freeSession mine
      (s.setSessions n (mine ++ [{ id := k, established := false, requester := none }])).spdmAnswer r (.keyExchange k)
  | .finish requester ok =>
    match inSession with
    | none => s.spdmAnswer r .errorInvalid
    | some x =>
      if x.established then s.spdmAnswer r .errorInvalid
      else if ok then
        let l := mine.map (fun (y : SpdmSession) => if y.id = x.id then ({ y with established := true, requester := requester } : SpdmSession) else y)
        ((s.setSessions n l).refreshConf n).spdmAnswer r .finish
      else (s.setSessions n (mine.filter (fun y => y.id ≠ x.id))).spdmAnswer r .errorInvalid
  | .heartbeat | .keyUpdate => if live then s.spdmAnswer r .ack else s.spdmAnswer r .errorInvalid
  | .endSession =>
    match inSession with
    | none => s.spdmAnswer r .errorInvalid
    | some x => if live then ((s.setSessions n (mine.filter (fun y => y.id ≠ x.id))).refreshConf n).spdmAnswer r .ack else s.spdmAnswer r .errorInvalid
  | .ideKey go =>
    if live then (if go then s.put (Fld.GC_PORT_STATE_IDE n) 1 else s).spdmAnswer r .ack else s.spdmAnswer r .errorUnsupported
  | .other => s.spdmAnswer r .errorUnsupported

/-- SPDM_REQUEST (R451): over the DOE mailbox of a port whose link is up. -/
def execSpdmRequest (r : SpdmReq) (s : State) : Host.Outcome State Fault Refusal :=
  next (if 4 ≤ r.port || !s.io.portUp r.port then s else s.spdm r)

/-! ### MACsec (R467, R468) -/

def State.peersOf (s : State) (p : Nat) : List Nat := sparseGet [] s.sec.peers p

/-- The receive secure channels of a port, with their count in RX_SC. -/
def State.setPeers (s : State) (p : Nat) (l : List Nat) : State :=
  (s.setSec { s.sec with peers := sparsePut [] p l s.sec.peers }).put (Fld.SEC_MACSEC_RX_SC p) l.length

/-- Whether the SecY of a port works: MACsec is in SEC_NET.MODE, EN is 1 and the port has its CAK. -/
def State.secyRuns (s : State) (p : Nat) : Bool :=
  (s.get Fld.SEC_NET_MODE = 1 || s.get Fld.SEC_NET_MODE = 3) && s.on (Fld.SEC_MACSEC_EN p) && s.on (Fld.SEC_MACSEC_CAK_LOADED p)

/-- A verified frame of a peer: it takes a receive SC, or is dropped from a 65th peer. -/
def State.hearPeer (s : State) (p sci : Nat) (mka : Bool) : State :=
  let peers := s.peersOf p
  let live (s : State) : State := if mka then s.put (Fld.SEC_MACSEC_SECURED p) 1 else s
  if peers.contains sci then live s
  else if 64 ≤ peers.length then s.raise { code := 0x0C04, subject := p, detail := [sci] }
  else live (s.setPeers p (peers ++ [sci]))

/-- MACSEC_FRAME (R468). A frame that does not verify, or an unprotected one under REQUIRE, is dropped; what an accepted frame carries
arrives by its own row. -/
def execMacsecFrame (p : Nat) (f : MacFrame) (s : State) : Host.Outcome State Fault Refusal :=
  next (if 8 ≤ p || !s.secyRuns p then s
    else match f with
    | .mka sci ok => if ok then s.hearPeer p sci.toNat true else s
    | .sealed sci ok => if ok then s.hearPeer p sci.toNat false else s
    | .plain => s)

/-- A SecY without peers: no SA is live and no receive SC is in use. -/
def State.dropPeers (s : State) (p : Nat) : State := (s.setPeers p []).put (Fld.SEC_MACSEC_SECURED p) 0

/-- MKA_LIVE_PEER_LOSS (R468). -/
def execMkaLivePeerLoss (p : Nat) (s : State) : Host.Outcome State Fault Refusal :=
  next (if 8 ≤ p || !s.secyRuns p || (s.peersOf p).isEmpty then s else (s.dropPeers p).raise { code := 0x0C03, subject := p })

/-- A write to SEC_MACSEC[p]: with EN 0 the SecY runs no MKA. -/
def State.writeSecMacsec (s : State) (w : RegWrite) (p : Nat) : State :=
  s.fromPort w (Reg.SEC_MACSEC p) (fun s =>
    let s := s.store w (Reg.SEC_MACSEC p)
    if s.on (Fld.SEC_MACSEC_EN p) then s else s.dropPeers p)

/-- A write to SEC_TNET[t]: a SEL of 255 stores 254 (R476). -/
def State.writeSecTnet (s : State) (w : RegWrite) (t : Nat) : State :=
  s.fromPort w (Reg.SEC_TNET t) (fun s =>
    let s := s.store w (Reg.SEC_TNET t)
    if s.get (Fld.SEC_TNET_SEL t) = 255 then s.put (Fld.SEC_TNET_SEL t) 254 else s)

/-! ### Key blobs (R455 to R461) -/

/-- The domain that a kind and target name (R456), for the kinds that install one. -/
def blobDomain (kind target : Nat) : Option Nat :=
  match kind with
  | 0 => some target
  | 1 => some (256 + target)
  | 2 => some (512 + target)
  | 3 => some 545
  | _ => none

/-- Whether a TARGET is one of its KIND's (R456). -/
def blobTargetOk (kind target : Nat) : Bool :=
  match kind with
  | 0 | 1 => decide (target < 256)
  | 2 => decide (target < 32)
  | 3 => decide (target = 0)
  | 4 => decide (target < 8 ∨ target = 0xFF)
  | 5 => decide (target % 256 < 255)
  | 6 => decide (target = 255)
  | _ => false

/-- Reason 1 of R457: a blob whose form is wrong. -/
def blobMalformed (b : List Byte) : Bool :=
  let kind := recGet b 5 1
  let mask := recGet b 16 8
  recGet b 0 4 ≠ 0x4B424C42 || recGet b 4 1 ≠ 1 || !blobTargetOk kind (recGet b 6 2) || recGet b 228 4 ≠ 0 ||
    mask &&& 0x3FE ≠ mask || (kind ≠ 0 && kind ≠ 2 && recGet b 72 48 ≠ 0)

/-- The ports that a MACSEC target names. -/
def macsecPorts (target : Nat) : List Nat := if target = 0xFF then List.range 8 else [target]

/-- Measurement 10 changed (R449). -/
def State.modelsChanged (s : State) : State := s.bump Fld.SEC_MEAS_GEN_COUNT 1

/-- A key put at its place. -/
def State.keepKey (s : State) (at_ : Nat) (k : List Byte) : State := s.setSec { s.sec with keys := sparsePut [] at_ k s.sec.keys }

/-- A domain's keys installed, with its ALLOW_DIGEST. -/
def State.installDomain (s : State) (d : Nat) (k allow : List Byte) : State :=
  let s := (s.keepKey (keyOfDomain d) k).put (Fld.SEC_DOM_INSTALLED d) 1
  let s := s.put (Fld.SEC_DOM_ALLOW d) (if natOfBytes allow = 0 then 0 else 1)
  s.setSec { s.sec with allowDigest := sparsePut [] d allow s.sec.allowDigest }

/-- A job slot's or the Yard's key installed (R458, R471). -/
def State.installJob (s : State) (k t : Nat) (key : List Byte) : State :=
  let s := s.setSec { s.sec with keys := sparsePut [] (keyOfJob k) key s.sec.keys, exhausted := s.sec.exhausted.filter (· ≠ k) }
  ((s.put (Fld.SEC_JOB_INSTALLED k) 1).put (Fld.SEC_JOB_TENANT k) t).put (Fld.SEC_JOB_USES k) 0

/-- A blob that passed its checks installs its keys (R453, R456, R461). -/
def State.installBlob (s : State) (b keys : List Byte) (list : List Byte) (count : Nat) : State :=
  let target := recGet b 6 2
  let allow := (b.drop 72).take 48
  match recGet b 5 1 with
  | 0 =>
    let s := s.installDomain target keys allow
    let s := s.put (Fld.SEC_CONF_CONFIDENTIAL target) (if natOfBytes allow = 0 then 0 else 1)
    (List.range 4).foldl (fun s n => s.refreshConfOf target n) s
  | 1 => s.installDomain (256 + target) keys allow
  | 2 =>
    let s := s.installDomain (512 + target) keys allow
    let digests := tabulate count (fun i => (list.drop (48 * i)).take 48)
    (s.setSec { s.sec with allow := sparsePut [] (512 + target) digests s.sec.allow }).modelsChanged
  | 3 => s.installDomain 545 keys allow
  | 4 => (macsecPorts target).foldl (fun s p => (s.keepKey (keyOfMacsec p) keys).put (Fld.SEC_MACSEC_CAK_LOADED p) 1) s
  | 5 => s.installJob (target % 256) (target / 256) (keys.take 32)
  | _ => s.installJob 255 0 (keys.take 32)

/-- Whether a tenant queue may load a kind for a target (R457). -/
def blobAllowed (tenant : Option Nat) (kind target : Nat) : Bool :=
  match tenant with
  | none => true
  | some t =>
    match kind with
    | 0 | 1 => decide (target = t)
    | 5 => decide (target / 256 = t)
    | _ => false

/-- A blob refused (R457). -/
def State.refuseBlob (s : State) (c : Cmd) (b : List Byte) (reason status : Nat) : State :=
  let s := s.bump Fld.SEC_BLOB_FAIL_COUNT 1
  let s := s.raise { code := 0x0C01, tenant := s.issuerTenant c.issuer, subject := recGet b 6 2, detail := [reason] }
  s.complete c status reason

/-- Whether the target is installed and may not be loaded again (reason 6 of R457). -/
def State.blobTaken (s : State) (kind target : Nat) : Bool :=
  match blobDomain kind target with
  | some d => s.domainInstalled d
  | none => false

/-- The checks of R457 in order, and the installing of a blob that passes. -/
def State.openBlob (s : State) (c : Cmd) (b : List Byte) : State :=
  let kind := recGet b 5 1
  let target := recGet b 6 2
  let count := opByte c 32
  if blobMalformed b then s.refuseBlob c b 1 CS.badCommand
  else if !blobAllowed (s.issuerTenant c.issuer) kind target then s.complete c CS.badCommand
  else if kind = 2 && (count = 0 || decide (16 < count)) then s.complete c CS.badCommand
  else if recGet b 8 8 ≠ Config.serial.toNat then s.refuseBlob c b 2 CS.integrity
  else if !s.on Fld.SEC_CTRL_COMMIT || (b.drop 24).take 48 ≠ s.policyDigest (recGet b 16 8) then s.refuseBlob c b 3 CS.integrity
  else match Config.unwrapBlob b with
  | none => s.refuseBlob c b 4 CS.integrity
  | some keys =>
    match (if kind = 2 then s.readIn c c.addrB.toNat 344 (48 * count) else .ok []) with
    | .error st => (s.readInFault c c.addrB.toNat st).complete c st
    | .ok list =>
      if kind = 2 && Config.sha384 list ≠ (b.drop 72).take 48 then s.refuseBlob c b 5 CS.integrity
      else if s.blobTaken kind target then s.refuseBlob c b 6 CS.notReady
      else (s.installBlob b keys list count).complete c CS.ok

/-- SEC_KEY_LOAD (R355, R455 to R458): a load of kind 0, 1 or 5 for the tenant runs while the tenant's EN is 0. -/
def execSecKeyLoad (c : Cmd) (s : State) : Host.Outcome State Fault Refusal :=
  let own := match s.readIn c c.addrA.toNat 0 344 with
    | .ok b => blobAllowed (s.issuerTenant c.issuer) (recGet b 5 1) (recGet b 6 2)
    | .error _ => true
  next (s.runCmd c .both own (fun s =>
    match s.readIn c c.addrA.toNat 0 344 with
    | .error st => (s.readInFault c c.addrA.toNat st).complete c st
    | .ok b => s.openBlob c b))

/-! ### Model imports (R463, R464) -/

/-- `n` bands opened on a port, apart from the port's open band. -/
def State.takeBands : (n : Nat) → (p len : Nat) → (got : List (Nat × Nat)) → State → Option (List (Nat × Nat) × State)
  | 0, _, _, got, s => some (got, s)
  | n + 1, p, len, got, s =>
    let x := s.shedPort p
    match x.openNew (s.withheldBands p) with
    | none => none
    | some y =>
      match y.openBand with
      | none => none
      | some b =>
        let here := min len (s.bandBytes p)
        let band := sparseGet ({} : Band) y.bands b
        let y := { y with openBand := x.openBand, bands := sparseInsert b { band with written := here, valid := here } y.bands }
        takeBands n p (len - here) (got ++ [(p, b)]) (s.setShedPort p y)

/-- Bands for `len` bytes striped over the ports given. -/
def State.takeStripes (s : State) (ports : List Nat) (len : Nat) : Option (List (Nat × Nat) × State) :=
  let share := ceilDiv len (max 1 ports.length)
  ports.foldl (fun r p => r.bind (fun (x : List (Nat × Nat) × State) =>
    takeBandsOf x p share)) (some ([], s))
where
  takeBandsOf (x : List (Nat × Nat) × State) (p share : Nat) : Option (List (Nat × Nat) × State) :=
    State.takeBands (ceilDiv share (max 1 (x.2.bandBytes p))) p share x.1 x.2

/-- SEC_MODEL_IMPORT (R463): the import starts with its bands allocated. -/
def execSecModelImport (c : Cmd) (s : State) : Host.Outcome State Fault Refusal :=
  next (s.runHeld c .mgmt false (fun s =>
    let d := opU16 c 32
    let mask := opByte c 34
    let len := opU64 c 40
    let ports := (List.range 8).filter mask.testBit
    if len = 0 || len % 64 ≠ 0 || ports.isEmpty || decide (d < 512) || decide (543 < d) then s.refuse c CS.badCommand
    else if !s.domainInstalled d then s.refuse c CS.notReady
    else if !ports.all s.portWritable then s.refuse c CS.absentUnit
    else match s.takeStripes ports len with
    | none => s.refuse c CS.noResource
    | some (bands, s) =>
      s.beginOp c 0xA2 [d] false (fun op s =>
        s.setSec { s.sec with imports := s.sec.imports ++ [{ op := op, domain := d, source := c.addrA.toNat, len := len, written := 0, bands := bands, ended := false }] })))

/-- The Shed address of an import's image: its first band on its lowest port (R134). -/
def ModelImport.addr (x : ModelImport) : Nat := match x.bands with | (p, b) :: _ => p * 2 ^ 59 + b * 2 ^ 29 | [] => 0

/-- An import ended FAILED: its bands are stale (R464). -/
def State.failImport (s : State) (x : ModelImport) (status : Nat) : State :=
  (s.dropImports (fun y => y.op = x.op && y.live)).endOp x.op .failed status

/-- One chunk of an import read from host memory, or a read that failed on the bus (R463, R464). -/
def State.importChunk (s : State) (x : ModelImport) (b : Option (List Byte)) : State :=
  match b with
  | none => s.failImport x CS.fault
  | some b =>
    let n := min (2 ^ 20) (x.len - x.written)
    let i := x.written / 2 ^ 20
    let key := ((sparseGet [] s.sec.keys (keyOfDomain x.domain)).drop 64).take 32
    match (if !s.domainInstalled x.domain then none else Config.gcmOpen key (bytesOf 4 0 ++ bytesOf 8 i) (bytesOf 2 x.domain ++ bytesOf 8 i ++ bytesOf 8 x.len) (b.take n) ((b.drop n).take 16)) with
    | none => (s.raise { code := 0x0C02, subject := x.domain }).failImport x CS.integrity
    | some plain =>
      let s := s.emit (.shedImage x.addr x.written x.domain plain)
      let done := x.written + n
      let y := { x with written := done, ended := decide (x.len ≤ done) }
      let s := s.setSec { s.sec with imports := s.sec.imports.map (fun z => if z.op = x.op && z.live then y else z) }
      let s := s.setOp x.op { s.op x.op with progress := 1000 * done / x.len }
      if y.ended then s.endOp x.op .done CS.ok x.addr done else s

/-- MODEL_IMPORT_CHUNK_DONE (R463, R464): not while the import is suspended, nor while PWARN_N is asserted (R142). -/
def execModelImportChunkDone (slot : Nat) (b : Option (List Byte)) (s : State) : Host.Outcome State Fault Refusal :=
  next (match s.sec.imports.find? (fun x => x.op = slot && x.live) with
    | none => s
    | some x =>
      if s.on Fld.PW_STATUS_PARKING || !((s.op slot).st = .running || (s.op slot).st = .suspending) then s
      else s.importChunk x b)

/-! ### Clearing keys (R459) -/

/-- Whether R459 keeps a target's keys from being cleared. -/
def State.keyInUse (s : State) (kind target : Nat) : Bool :=
  match kind with
  | 0 | 1 =>
    s.on (Fld.TN_CTRL_EN target) || !(s.stallsOf target).isEmpty ||
      s.contexts.any (fun e => decide (e.2.state ≠ .free ∧ e.2.tenant = target)) || s.t1.runs.any (fun r => s.ownedByTenant target r.owner)
  | 2 =>
    (List.range 256).any (fun t => s.on (Fld.TN_CTRL_MODEL_EN t) && s.get (Fld.TN_CTRL_MODEL t) = target) &&
      s.on Fld.PF_CTRL_EN && s.pfObjects.any (fun o => o.2.model = target)
  | 3 => (List.range 8).any (fun p => s.portReadable p)
  | _ => false

/-- The keys of one target erased; a model domain's imported bands become stale, and an import still running finds no key for its next
chunk; a SecY without its CAK holds no live SA. -/
def State.clearTarget (s : State) (kind target : Nat) : State :=
  match kind with
  | 2 =>
    let was := s.domainInstalled (512 + target)
    let s := (s.eraseDomain (512 + target)).dropImports (fun x => x.domain = 512 + target && x.ended)
    if was then s.modelsChanged else s
  | 4 => (macsecPorts target).foldl (fun s p => ((s.keepKey (keyOfMacsec p) []).put (Fld.SEC_MACSEC_CAK_LOADED p) 0).dropPeers p) s
  | 5 => s.eraseJob (target % 256)
  | 6 => s.eraseJob 255
  | _ => match blobDomain kind target with
    | some d => s.eraseDomain d
    | none => s

/-- SEC_KEY_CLEAR (R459). -/
def execSecKeyClear (c : Cmd) (s : State) : Host.Outcome State Fault Refusal :=
  next (s.runCmd c .mgmt false (fun s =>
    let kind := opByte c 32
    let target := opU16 c 33
    if !blobTargetOk kind target then s.complete c CS.badCommand
    else if s.keyInUse kind target then s.complete c CS.notReady
    else (s.clearTarget kind target).complete c CS.ok))

/-! ### Certificates, random numbers, COMMIT (R448, R449, R465, R466, R473, R474) -/

/-- SEC_CERT_LOAD (R448, R474): the certificate chain, or a debug token before SEC_CTRL.COMMIT. -/
def execSecCertLoad (c : Cmd) (s : State) : Host.Outcome State Fault Refusal :=
  next (s.runCmd c .mgmt false (fun s =>
    let which := opByte c 32
    if 1 < which then s.complete c CS.badCommand
    else if which = 1 && s.on Fld.SEC_CTRL_COMMIT then s.complete c CS.notReady
    else match s.readIn c c.addrA.toNat 0 (opU32 c 36) with
    | .error st => (s.readInFault c c.addrA.toNat st).complete c st
    | .ok b =>
      if which = 1 then
        if Config.tokenOk b then (s.put Fld.SEC_STATE_DEBUG_OPEN 1).complete c CS.ok else s.complete c CS.integrity
      else if Config.chainOk b then ((s.setSec { s.sec with chain := b }).put Fld.SEC_STATE_CERT_LOADED 1).complete c CS.ok
      else s.complete c CS.integrity))

/-- SEC_SCRUB_CERT (R473). -/
def execSecScrubCert (c : Cmd) (s : State) : Host.Outcome State Fault Refusal :=
  next (s.runCmd c .mgmt false (fun s =>
    match sparseGet [] s.sec.certs (opByte c 32) with
    | [] => s.complete c CS.notReady
    | cert =>
      match s.writeOut c c.addrA.toNat cert with
      | .error st => (s.readInFault c c.addrA.toNat st).complete c st
      | .ok s => s.complete c CS.ok))

/-- `n` words of the random generator: free values. -/
def State.drawRandom : (n : Nat) → (got : List Byte) → State → List Byte × State
  | 0, got, s => (got, s)
  | n + 1, got, s =>
    let x := s.drawFree
    drawRandom n (got ++ bytesOf 8 x.1.toNat) x.2

/-- SEC_RANDOM (R466). -/
def execSecRandom (c : Cmd) (s : State) : Host.Outcome State Fault Refusal :=
  next (s.runCmd c .both false (fun s =>
    let n := opU32 c 36
    if n < 16 || decide (4096 < n) || n % 16 ≠ 0 then s.complete c CS.badCommand
    else
      let x := s.drawRandom (n / 8) []
      match x.2.writeOut c c.addrA.toNat x.1 with
      | .error st => (x.2.readInFault c c.addrA.toNat st).complete c st
      | .ok s => s.complete c CS.ok))

/-- ENTROPY_HEALTH_FAIL (R465): a FATAL event. -/
def execEntropyHealthFail (s : State) : Host.Outcome State Fault Refusal := next (if s.unitsRun then s.raise { code := 0x0C08 } else s)

/-- A write to SEC_CTRL (R449): COMMIT fixes measurements 1 to 9. -/
def State.writeSecCtrl (s : State) (w : RegWrite) : State :=
  s.fromPort w Reg.SEC_CTRL (fun s =>
    if s.wouldGet w Fld.SEC_CTRL_COMMIT = 1 && !s.on Fld.SEC_CTRL_COMMIT then
      let s := s.setSec { s.sec with measured := (List.range 9).map (fun i => (i + 1, s.presentMeasurement (i + 1))) }
      (s.put Fld.SEC_CTRL_COMMIT 1).put Fld.SEC_STATE_COMMITTED 1
    else s)

/-- SEC_COMMIT (R449). -/
def execSecCommit (w : RegWrite) (s : State) : Host.Outcome State Fault Refusal := next (s.writeSecCtrl w)

end Sys2Proof.Machine
end

