-- ==== Sys2Proof/Machine/StallInsn.lean ====
section
/-! DEFINITION. The Trondi class ST and the registers of the latent store (R77, R78, R92 to R101, R293 to R296, R430). -/

namespace Sys2Proof.Machine

/-! ### Commands of a Hub thread (R293) -/

/-- The stall command that an opcode names, issued by a Hub thread. -/
def State.stallOpcode (s : State) (op : Nat) (c : Cmd) : State :=
  match op with
  | 0x20 => s.stallCreate c
  | 0x21 => s.stallQuery c
  | 0x22 => s.stallConfig c
  | 0x23 => s.stallPark c
  | 0x24 => s.stallRevive c
  | 0x25 => s.stallMigrate c
  | 0x26 => s.stallResume c
  | 0x27 => s.stallRetire c
  | 0x28 => s.stallFree c
  | 0x29 => s.stallForget c
  | _ => s.booksAudit c

/-- `st.cmd`. -/
def execStCmd (n : Insn) (s : State) : Host.Outcome State Fault Refusal :=
  next (s.runInsn n 0x10 0 { side := .hub, d := .sPair, a := .s, b := .s } (fun s y =>
    s.blockRequest n y true (some (y.num n n.b)) (fun op => decide (0x20 ≤ op ∧ op ≤ 0x2A)) (fun s op c => s.stallOpcode op c)))

/-! ### Records (R79, R94 to R96, R294, R295) -/

/-- A scratchpad address read; another space faults with SPACE. -/
def State.readScr (s : State) (n : Insn) (y : UnitX) (addr : Word) (len : Nat) (k : State → List Byte → Did) : Did :=
  if addr.toNat / 2 ^ 60 ≠ 1 then .fault s 0x03 addr.toNat else s.reading n y addr len 1 k

/-- Bytes written to the scratchpad, and a status to the destination. -/
def State.writeScr (s : State) (n : Insn) (y : UnitX) (addr : Word) (bytes : List Byte) (status : Nat) : Did :=
  if addr.toNat / 2 ^ 60 ≠ 1 then .fault s 0x03 addr.toNat
  else match s.writing n y addr 1 bytes with
  | .done s z pc => .done s (z.put n.d status) pc
  | r => r

/-- A Cell's instruction on a stall's layer: the status of the first check that fails, else the stall, its table and the layer. -/
def State.stallLayer (s : State) (n : Insn) (h layer : Nat) : Except Nat (Nat × PageTable × Layer) :=
  match s.checkHandle (s.context n.slot).tenant h false with
  | .error e => .error e.1
  | .ok i =>
    let x := s.stall i
    if x.state ≠ .running then .error CS.notReady
    else match x.table with
    | none => .error CS.notReady
    | some p => match p.layers[layer]? with
      | none => .error CS.badCommand
      | some l => .ok (i, p, l)

/-- The page and record of a position, where its page is linked. -/
def linkedPage (p : PageTable) (l : Layer) (pos : Nat) : Option (Page × Nat × Nat) :=
  (p.locate pos).bind (fun r => (l.pages[r.1]?).map (fun g => (g, r.1, r.2)))

/-- PAGE_SCALE as the quantiser sets it: the exponent of the smallest power of two not below a × 2^H ÷ 2,688, at least −149 (R96 step 1). -/
def newPageScale (headroom : Nat) (l : List FVal) : FVal :=
  match maxFinite l with
  | .num _ m e =>
    if m = 0 then .num false 1 0
    else
      let goal := FVal.num false m (e + headroom)
      let fits (k : Nat) : Bool := !(FVal.num false 2688 ((k : Int) - 149)).lt goal
      .num false 1 (((searchFrom fits 0 277).getD 276 : Int) - 149)
  | _ => .num false 1 0

/-- A record quantised under a page scale: its bytes, and how many blocks saturated (R79, R96 steps 2 to 4). -/
def quantise (page : FVal) (l : List FVal) : List Byte × Nat :=
  let blocks := (pieces 16 l.length l).map (sf4Block page)
  (packCodes 4 (blocks.flatMap (·.1)) 0 ++ blocks.map (fun b => BitVec.ofNat 8 b.2.1), (blocks.filter (fun b => b.2.2)).length)

/-- The counters and events of a quantised record (R96). -/
def State.noteQuantised (s : State) (i layer page saturated nonFinite : Nat) : State :=
  let key := (s.stall i).handle * 2 ^ 20 + layer * 2 ^ 10 + page
  let s := s.bump Fld.KV_SAT_CNT_BLOCKS saturated
  let s := if saturated = 0 || s.satPages.contains key then s
    else { s with satPages := key :: s.satPages }.stallEvent 0x0701 i
  let s := s.bump Fld.KV_NONFINITE_CNT_ELEMENTS nonFinite
  if nonFinite = 0 then s else s.stallEvent 0x0702 i

/-- `st.quant` (R96, R293, R294). -/
def execStQuant (n : Insn) (s : State) : Host.Outcome State Fault Refusal :=
  next (s.runInsn n 0x10 1 { side := .cell, d := .s, a := .s, b := .s, c := .s, imm := true } (fun s y =>
    let layer := n.imm.toNat % 256
    let pos := n.imm.toNat / 256 % 2 ^ 22
    match s.stallLayer n (y.num n n.c) layer with
    | .error st => .done s (y.put n.d st) none
    | .ok (i, p, l) =>
      if tokenLimit (s.stall i) ≤ pos then .done s (y.put n.d CS.lengthLimit) none
      else match linkedPage p l pos with
      | none => .done s (y.put n.d CS.noResource) none
      | some (g, j, k) =>
        let width := p.recBytes * 16 / 9
        s.readScr n y (y.sreg n.a.toNat) (4 * width) (fun s b =>
          let values := (List.range width).map (fun e => f32 (recGet b (4 * e) 4))
          let page := if k = 0 then newPageScale (s.get Fld.KV_HEADROOM_H) values else f32 g.scale
          let q := quantise page values
          let trailer := bytesOf 4 (if k = 0 then toF32 page else g.scale) ++ bytesOf 4 pos ++ bytesOf 1 layer ++ bytesOf 7 (if k = 0 then 1 else 0)
          match s.writeScr n y (y.sreg n.b.toNat) (q.1 ++ trailer) CS.ok with
          | .done s z pc => .done (s.noteQuantised i layer j q.2 (values.filter (fun v => !v.finite)).length) z pc
          | r => r)))

/-- A layer of a stall changed. -/
def State.updLayer (s : State) (i layer : Nat) (f : Layer → Layer) : State :=
  let x := s.stall i
  s.setStall i { x with table := x.table.map (fun p => { p with layers := p.layers.modify layer f }) }

/-- A staged record scattered into its page, with its scale where it is new, and FILLED moved on (R94). -/
def State.scatter (s : State) (i layer : Nat) (p : PageTable) (g : Page) (j k scale : Nat) (fresh : Bool) (rec_ : List Byte) : State :=
  let t := s.stallTenant i
  let s := s.writeT1 t (g.addr + 64 + k * p.recBytes) rec_
  let s := if fresh then s.writeT1 t (g.addr + 8) (bytesOf 4 scale) else s
  s.updLayer i layer (fun l => { l with
    filled := l.filled + 1, pages := if fresh then l.pages.modify j (fun q => { q with scale := scale }) else l.pages })

/-- `st.append` (R94, R95, R293). -/
def execStAppend (n : Insn) (s : State) : Host.Outcome State Fault Refusal :=
  next (s.runInsn n 0x10 2 { side := .cell, d := .s, a := .s, c := .s } (fun s y =>
    match s.stallLayer n (y.num n n.c) 0 with
    | .error st => .done s (y.put n.d st) none
    | .ok (i, p, _) =>
      s.readScr n y (y.sreg n.a.toNat) (p.recBytes + 16) (fun s b =>
        let trailer := b.drop p.recBytes
        let pos := recGet trailer 4 4
        let layer := recGet trailer 8 1
        match p.layers[layer]? with
        | none => .done s (y.put n.d CS.badCommand) none
        | some l =>
          if pos ≠ l.filled then .done s (y.put n.d CS.fault) none
          else if tokenLimit (s.stall i) ≤ pos then .done s (y.put n.d CS.lengthLimit) none
          else match linkedPage p l pos with
          | none => .done s (y.put n.d CS.noResource) none
          | some (g, j, k) =>
            .done (s.scatter i layer p g j k (recGet trailer 0 4) (recGet trailer 9 1 % 2 = 1) (b.take p.recBytes)) (y.put n.d CS.ok) none)))

/-- Records of a layer read in order, with their page scales (R295). -/
def State.readRecords (s : State) (t : Nat) (p : PageTable) (l : Layer) (first count : Nat) : State × Except Nat (List (List Byte) × List Nat) :=
  ((List.range count).map (first + ·)).foldl (fun r pos => match r.2 with
    | .error e => (r.1, .error e)
    | .ok done => match linkedPage p l pos with
      | none => (r.1, .error CS.noResource)
      | some (g, _, k) =>
        let at_ := g.addr + 64 + k * p.recBytes
        ((r.1.afterRead t at_ p.recBytes).checkPoison, (r.1.readT1 t at_ p.recBytes).map (fun b => (done.1 ++ [b], done.2 ++ [g.scale])))) (s, .ok ([], []))

/-- The Cells of the frame whose Cell 0 is `u` (R105). -/
def frameCells (u : Nat) : List Nat := (List.range 8).map (u + ·)

/-- The same bytes written at one scratchpad offset of every Cell of the issuing Cell's frame. -/
def State.writeFrame (s : State) (n : Insn) (y : UnitX) (addr : Word) (bytes : List Byte) (status : Nat) : Did :=
  if !(frameCells n.unit).all (fun u => (s.contextUnits n.slot).contains u) then .fault s 0x0C addr.toNat
  else match s.writeScr n y addr bytes status with
  | .done s z pc =>
    .done (((frameCells n.unit).filter (· ≠ n.unit)).foldl (fun s u =>
      (s.writePlace n z (.ring u (addr.toNat % 2 ^ 18)) bytes).1) s) z pc
  | r => r

/-- `st.rd` (R295). A record that cannot be read is recovered under R126, which abandons the step. -/
def execStRd (n : Insn) (s : State) : Host.Outcome State Fault Refusal :=
  next (s.runInsn n 0x10 3 { side := .cell, d := .s, a := .s, b := .s, c := .s, flags := 1, imm := true } (fun s y =>
    let layer := n.imm.toNat % 256
    let count := n.imm.toNat / 256 % 256
    let first := y.num n n.b
    match s.stallLayer n (y.num n n.c) layer with
    | .error st => .done s (y.put n.d st) none
    | .ok (i, p, l) =>
      if count = 0 || 64 < count || (flagBit n 0 && n.unit % 8 ≠ 0) then .done s (y.put n.d CS.badCommand) none
      else if l.filled < first + count then .done s (y.put n.d CS.fault) none
      else match s.readRecords (s.context n.slot).tenant p l first count with
      | (s, .error st) =>
        let t := (s.context n.slot).tenant
        let s := s.stopFor i (fun s => s.healPages i (fun a m => (blocksOf a m).any (fun b => (s.blockStatus t b).isSome)))
        .done s ((s.unit n.slot n.unit).put n.d st) none
      | (s, .ok (records, scales)) =>
        let slot := ceilDiv p.recBytes 16 * 16
        let bytes := records.flatMap (fun r => r ++ List.replicate (slot - p.recBytes) 0) ++ scales.flatMap (bytesOf 4)
        if flagBit n 0 then s.writeFrame n y (y.sreg n.a.toNat) bytes CS.ok else s.writeScr n y (y.sreg n.a.toNat) bytes CS.ok))

/-- `st.len`. -/
def execStLen (n : Insn) (s : State) : Host.Outcome State Fault Refusal :=
  next (s.runInsn n 0x10 4 { d := .sPair, c := .s, flags := 3, imm := true } (fun s y =>
    let answer (status v : Nat) : Did := .done s ((y.put n.d status).setS (n.d.toNat + 1) (BitVec.ofNat 64 v)) none
    match s.checkHandle (s.context n.slot).tenant (y.num n n.c) false with
    | .error e => answer e.1 0
    | .ok i =>
      let x := s.stall i
      match n.flags.toNat % 4 with
      | 0 => answer CS.ok x.hdr.committedLen
      | 1 => answer CS.ok x.hdr.specLen
      | 2 => match x.table with
        | none => answer CS.notReady 0
        | some p => match p.layers[n.imm.toNat % 256]? with
          | none => answer CS.badCommand 0
          | some l => answer CS.ok l.filled
      | _ => answer CS.ok x.hdr.step))

/-! ### The end of a step (R97 to R101, R430) -/

/-- Whether a tenant's output queue has room (R430). -/
def State.outputRoom (s : State) (t : Nat) : Bool := decide (s.queuedBytes t ≤ s.get Fld.TS_QBYTES_BYTES)

/-- A commit carried out, and its request answered. -/
def State.finishCommit (s : State) (i : Nat) (h : HeldCommit) : State :=
  let final := s.finalStatus i h.accepted h.token h.status
  (s.commitStep i h.accepted h.token h.status).answerHub h.slot h.unit h.cmd (if final = CS.lengthLimit then final else CS.ok) 0

/-- The step statuses of `st.commit`. -/
def stepStatuses : List Nat := [CS.ok, CS.stopped, CS.grammarDead, CS.paused, CS.lengthLimit]

/-- `st.commit` (R97, R293): held at step 9 while the tenant's output queue is full (R430). -/
def execStCommit (n : Insn) (s : State) : Host.Outcome State Fault Refusal :=
  next (s.runInsn n 0x10 5 { side := .hub, d := .s, a := .s, b := .s, c := .s, imm := true } (fun s y =>
    let c := s.hubCmd n
    s.request n y false c none (fun s =>
      match s.runningStall c (y.num n n.c) with
      | .error st => s.complete c st
      | .ok i => match (s.stall i).step with
        | none => s.complete c CS.notReady
        | some p =>
          let status := n.imm.toNat % 256
          let h : HeldCommit := ⟨y.num n n.a, y.num n n.b % 2 ^ 32, status, n.slot, n.unit, coreOf c⟩
          if p.held.isSome then s.complete c CS.notReady
          else if !stepStatuses.contains status || p.drafts.length < h.accepted then s.complete c CS.badCommand
          else if s.outputRoom (s.stallTenant i) then s.finishCommit i h
          else
            (s.setStall i { s.stall i with step := some { p with held := some h } }).raise
              { code := 0x0B0D, tenant := some (s.stallTenant i), object := (s.stall i).handle })))

/-- OUTPUT_QUEUE_ROOM (R430): the step of stall `i` held at step 9 goes on once its tenant's queue has room. -/
def execOutputQueueRoom (i : Nat) (s : State) : Host.Outcome State Fault Refusal :=
  next (match (s.stall i).step with
    | some p => match p.held with
      | some h =>
        if s.outputRoom (s.stallTenant i) then (s.setStall i { s.stall i with step := some { p with held := none } }).finishCommit i h
        else s
      | none => s
    | none => s)

/-- `st.abandon` (R99, R293). -/
def execStAbandon (n : Insn) (s : State) : Host.Outcome State Fault Refusal :=
  next (s.runInsn n 0x10 6 { side := .hub, d := .s, c := .s } (fun s y =>
    let c := s.hubCmd n
    s.request n y false c none (fun s =>
      match s.runningStall c (y.num n n.c) with
      | .error st => s.complete c st
      | .ok i => (s.abandonStep i).complete c CS.ok)))

/-! ### Registers (R60, R77, R78) -/

/-- Whether a shape as stored meets R77. -/
def State.shapeOk (s : State) (k : Nat) : Bool :=
  let lat := s.get (Fld.KV_SHAPE_LAT_WIDTH k)
  let pos := s.get (Fld.KV_SHAPE_POS_WIDTH k)
  let heads := s.get (Fld.KV_SHAPE_HEADS k)
  let layers := s.get (Fld.KV_SHAPE_LAYERS k)
  let lo := s.get (Fld.KV_SHAPE_PAGE_MIN k)
  let hi := s.get (Fld.KV_SHAPE_PAGE_MAX k)
  decide (lat % 16 = 0 ∧ 16 ≤ lat ∧ lat ≤ 2048 ∧ pos % 16 = 0 ∧ pos ≤ 256 ∧ lat + pos ≤ 2048 ∧ 1 ≤ heads ∧ heads ≤ 128 ∧ 1 ≤ layers ∧
    layers ≤ 256 ∧ lo ≤ hi ∧ hi ≤ 9 ∧ s.get (Fld.KV_SHAPE_SPREAD_LOG2 k) ≤ 6)

/-- A write to KV_SHAPE[k] (R77, R78). -/
def State.writeKvShape (s : State) (w : RegWrite) (k : Nat) : State :=
  s.fromPort w (Reg.KV_SHAPE k) (fun s =>
    if s.shapeUse k ≠ 0 then s
    else
      let s := s.store w (Reg.KV_SHAPE k)
      if s.shapeOk k then s else s.put (Fld.KV_SHAPE_VALID k) 0)

/-- KV_SHAPE_WRITE (R77, R78). -/
def execKvShapeWrite (w : RegWrite) (k : Nat) (s : State) : Host.Outcome State Fault Refusal :=
  next (if k < 16 then s.writeKvShape w k else s)

/-- A write to STL_DIRTY_LIMIT (R60): a value below 64 MiB stores 64 MiB. -/
def State.writeDirtyLimit (s : State) (w : RegWrite) : State :=
  s.fromPort w Reg.STL_DIRTY_LIMIT (fun s =>
    s.storePut w Fld.STL_DIRTY_LIMIT_LIMIT (max (s.wouldGet w Fld.STL_DIRTY_LIMIT_LIMIT / 2 ^ 26 * 2 ^ 26) 0x4000000))

/-- STL_DIRTY_LIMIT_WRITE (R60). -/
def execStlDirtyLimitWrite (w : RegWrite) (s : State) : Host.Outcome State Fault Refusal := next (s.writeDirtyLimit w)

end Sys2Proof.Machine
end

