-- ==== Sys2Proof/Machine/Tenancy.lean ====
section
/-! DEFINITION. Tenants, partitions and accounting periods: the teardown command and the registers of R379 (R355 to R358, R361, R364, R366,
R372 to R378, R460). -/

namespace Sys2Proof.Machine

/-- TENANT_TEARDOWN (R377, R378). -/
def execTenantTeardown (c : Cmd) (s : State) : Host.Outcome State Fault Refusal :=
  next (s.runCmd c .mgmt false (fun s =>
    let t := opByte c 32
    let keep := (opByte c 33).testBit 0
    s.beginOp c 0x80 [t] false (fun op s => s.beginTeardown op t keep)))

/-- TN_CTRL[t] written (R355, R356, R460): the partition and the model stay while the tenant has a context; MODEL_EN needs its domain's keys, EN
READY (R497), a valid partition and both of the tenant's domains. -/
def State.writeTnCtrl (s : State) (w : RegWrite) (t : Nat) : State :=
  s.fromPort w (Reg.TN_CTRL t) (fun s =>
    let new := s.wouldGet w
    let fixed := decide (0 < s.tenantContexts t)
    let pick (f : RegField) : Nat := if fixed then s.get f else new f
    let p := pick (Fld.TN_CTRL_PARTITION t)
    let m := pick (Fld.TN_CTRL_MODEL t)
    let modelEn := if fixed then s.get (Fld.TN_CTRL_MODEL_EN t) else if s.domainInstalled (512 + m) then new (Fld.TN_CTRL_MODEL_EN t) else 0
    let en := if s.on (Fld.SCH_PART_VALID p) && s.domainInstalled t && s.domainInstalled (256 + t) then new (Fld.TN_CTRL_EN t) else 0
    ((((s.put (Fld.TN_CTRL_PARTITION t) p).put (Fld.TN_CTRL_MODEL t) m).put (Fld.TN_CTRL_MODEL_EN t) modelEn).put (Fld.TN_CTRL_EN t) en).enGate
      (Fld.TN_CTRL_EN t))

/-- TN_CTRL_WRITE (R355). -/
def execTnCtrlWrite (w : RegWrite) (t : Nat) (s : State) : Host.Outcome State Fault Refusal := next (if t < 256 then s.writeTnCtrl w t else s)

/-- Whether a Comb set keeps the rules of R358 for partition `p`. -/
def State.combsOk (s : State) (p combs : Nat) : Bool :=
  decide (combs ≠ 0) && (List.range 32).all (fun q => q = p || !s.on (Fld.SCH_PART_VALID q) || decide (s.get (Fld.SCH_PART_COMBS q) &&& combs = 0)) &&
    (List.range 32).all (fun c => !combs.testBit c || !s.hiveAbsent (c / 2))

/-- SCH_PART[p] written (R358, R364): discarded while the partition is in use. A change of VALID changes the Survey's COMB records (R488). -/
def State.writePart (s : State) (w : RegWrite) (p : Nat) : State :=
  s.fromPort w (Reg.SCH_PART p) (fun s =>
    let used := s.contexts.any (fun e => !e.2.hub && decide (e.2.state ≠ .free ∧ e.2.partition = p)) ||
      (List.range 256).any (fun t => s.on (Fld.TN_CTRL_EN t) && decide (s.get (Fld.TN_CTRL_PARTITION t) = p))
    if used then s
    else
      let old := s.get (Fld.SCH_PART_COMBS p)
      let was := s.on (Fld.SCH_PART_VALID p)
      let combs := s.wouldGet w (Fld.SCH_PART_COMBS p)
      let valid := decide (s.wouldGet w (Fld.SCH_PART_VALID p) = 1) && s.combsOk p combs
      let s := (s.put (Fld.SCH_PART_COMBS p) combs).put (Fld.SCH_PART_VALID p) (if valid then 1 else 0)
      let s := if valid then s.put (Fld.SCH_SWITCH_NS p) (s.switchWindow p) else s
      if was || valid then
        s.survey (((List.range 32).filter (fun c => (was && old.testBit c) || (valid && combs.testBit c))).map svComb)
      else s)

/-- SCH_PART_WRITE (R358). -/
def execSchPartWrite (w : RegWrite) (p : Nat) (s : State) : Host.Outcome State Fault Refusal := next (if p < 32 then s.writePart w p else s)

/-- SCH_SLICE_START[p], or SCH_SLICE[p][e], written (R361, R379): taken over at the next start of a cycle; at once where no table is in force. -/
def State.writeSlice (s : State) (w : RegWrite) (p : Nat) (e : Option Nat) : State :=
  s.fromPort w (match e with | some k => Reg.SCH_SLICE p k | none => Reg.SCH_SLICE_START p) (fun s =>
    let s : State := match e with
      | none => s.store w (Reg.SCH_SLICE_START p)
      | some k =>
        let d := s.wouldGet w (Fld.SCH_SLICE_DURATION p k)
        s.storePut w (Fld.SCH_SLICE_DURATION p k) (if d = 0 then 0 else min 100000000 (max 50000 d))
    if (s.part p).entries.isEmpty then s.setPart p (s.reloadSlices p s.now) else s)

/-- SCH_SLICE_WRITE (R361). -/
def execSchSliceWrite (w : RegWrite) (p : Nat) (e : Option Nat) (s : State) : Host.Outcome State Fault Refusal :=
  next (if p < 32 && e.all (fun k => decide (k < 16)) then s.writeSlice w p e else s)

/-- SCH_LATENCY[t] written (R372, R379). -/
def State.writeLatency (s : State) (w : RegWrite) (t : Nat) : State :=
  s.fromPort w (Reg.SCH_LATENCY t) (fun s =>
    let s := s.storePut w (Fld.SCH_LATENCY_MIN_CAP t) (max 1 (s.wouldGet w (Fld.SCH_LATENCY_MIN_CAP t)))
    if s.get (Fld.SCH_LATENCY_GOAL t) = 0 then s.put (Fld.SCH_CAP_CAP t) 65535 else s)

/-- SCH_LATENCY_WRITE (R372). -/
def execSchLatencyWrite (w : RegWrite) (t : Nat) (s : State) : Host.Outcome State Fault Refusal := next (if t < 256 then s.writeLatency w t else s)

/-- SCH_ROUND_CFG[t] written (R379): PERIOD clipped, and LEAD against the stored PERIOD. -/
def State.writeRoundCfg (s : State) (w : RegWrite) (t : Nat) : State :=
  s.fromPort w (Reg.SCH_ROUND_CFG t) (fun s =>
    let period := min 50000000 (max 1000000 (s.wouldGet w (Fld.SCH_ROUND_CFG_PERIOD t)))
    let lead := min (period / 2) (max 50000 (s.wouldGet w (Fld.SCH_ROUND_CFG_LEAD t)))
    (s.put (Fld.SCH_ROUND_CFG_PERIOD t) period).put (Fld.SCH_ROUND_CFG_LEAD t) lead)

/-- SCH_STARVE written (R379). -/
def State.writeStarve (s : State) (w : RegWrite) : State :=
  s.fromPort w Reg.SCH_STARVE (fun s => s.storePut w Fld.SCH_STARVE_COMPOSITIONS (max 1 (s.wouldGet w Fld.SCH_STARVE_COMPOSITIONS)))

/-- SCH_HUBTHR[n] written (R366): discarded while a context holds the thread. -/
def State.writeHubThread (s : State) (w : RegWrite) (n : Nat) : State :=
  s.fromPort w (Reg.SCH_HUBTHR n) (fun s => if s.threadHeld n then s else s.store w (Reg.SCH_HUBTHR n))

/-- TN_PERIOD written (R373, R379): clipped; the period in progress ends as it was set. -/
def State.writePeriod (s : State) (w : RegWrite) : State :=
  s.fromPort w Reg.TN_PERIOD (fun s => s.storePut w Fld.TN_PERIOD_NS (max 1000000 (s.wouldGet w Fld.TN_PERIOD_NS)))

/-- TN_PERIOD_WRITE (R373). -/
def execTnPeriodWrite (w : RegWrite) (s : State) : Host.Outcome State Fault Refusal := next (s.writePeriod w)

/-- TN_GRANT_WRITE (R373): the grant stands in the register until a period's end takes it. -/
def execTnGrantWrite (w : RegWrite) (t : Nat) (s : State) : Host.Outcome State Fault Refusal :=
  next (if t < 256 then s.fromPort w (Reg.TN_GRANT t) (fun s => s.store w (Reg.TN_GRANT t)) else s)

/-- One account at a period's end (R373). -/
def State.regrant (s : State) (t : Nat) : State :=
  let granted := if s.on (Fld.TN_GRANT_UNLIMITED t) then unlimitedTokens else s.get (Fld.TN_GRANT_TOKENS t)
  let s := s.put (Fld.TN_LAST_CONSUMED_TOKENS t) (s.get (Fld.TN_CONSUMED_TOKENS t))
  let s := ((s.put (Fld.TN_GRANTED_TOKENS t) granted).put (Fld.TN_CONSUMED_TOKENS t) 0).put (Fld.TN_REFUNDED_TOKENS t) 0
  s.put (Fld.TN_REMAINING_TOKENS t) granted

/-- A new accounting period: its end, no EV_TN_BUDGET_EMPTY raised in it, and BUDGET_USED of every stall 0. -/
def State.newPeriod (s : State) : State :=
  { s with
    periodEnd := s.periodEnd + s.get Fld.TN_PERIOD_NS, emptyRaised := []
    stalls := s.stalls.map (fun e => (e.1, ({ e.2 with hdr := { e.2.hdr with budgetUsed := 0 } } : Stall))) }

/-- ACCOUNT_PERIOD_END (R373): once its count has come, every account is granted anew and the next period begins. -/
def execAccountPeriodEnd (s : State) : Host.Outcome State Fault Refusal :=
  next (if !s.on Fld.YT_CTRL_RUN || s.now < s.periodEnd then s
    else
      let s := (List.range 256).foldl (fun s t => s.regrant t) s
      (s.bump Fld.TN_PERIOD_NO_COUNT 1).newPeriod)

end Sys2Proof.Machine
end

