-- ==== Sys2Proof/Machine/Text.lean ====
section
/-! DEFINITION. Text and grammar: TEXT_BIND, the text registers, the Trondi classes TX and GR (R150 to R182, R297, R298). -/

namespace Sys2Proof.Machine

/-! ### TEXT_BIND (R181) -/

/-- What TEXT_BIND and `tx.bind` do. -/
def State.textBind (s : State) (c : Cmd) : State :=
  s.stallCmd c false true false (fun _ => decide (opByte c 32 < 8)) (fun i s =>
    if s.kindLost 1 then s.complete c CS.absentUnit
    else if (opByte c 32).testBit 0 && c.addrA ≠ 0 && !s.on Fld.GR_CTRL_EN then s.complete c CS.notReady
    else s.nowOrDeferred i 0x40 c)

/-- TEXT_BIND (R181); on a RUNNING stall it takes effect when the step ends (R41). -/
def execTextBind (c : Cmd) (s : State) : Host.Outcome State Fault Refusal := next (s.textBind c)

/-- `tx.bind`: its block holds a TEXT_BIND. -/
def execTxBind (n : Insn) (s : State) : Host.Outcome State Fault Refusal :=
  next (s.runInsn n 0x18 4 { side := .hub, d := .s, a := .s } (fun s y =>
    s.blockRequest n y false none (fun op => op = 0x40) (fun s _ c => s.textBind c)))

/-! ### Text registers (R151, R152) -/

/-- Whether a tenant has a session stall in a state other than FREE and REMOTE (R151). -/
def State.liveSession (s : State) (t : Nat) : Bool :=
  s.stalls.any (fun e => decide (e.2.hdr.tenant = t) && decide (e.2.hdr.kind = 0) && decide (e.2.state ≠ .free) && decide (e.2.state ≠ .remote))

/-- A table-mode configuration with VALID 1 checked; one that fails loses VALID. -/
def State.checkTextConfig (s : State) (t : Nat) : State :=
  if s.on (Fld.TX_CFG_VALID t) && s.tableMode t && !s.textConfigOk t then
    (s.put (Fld.TX_CFG_VALID t) 0).raise { code := 0x0807, tenant := some t }
  else s

/-- A write to register `off` of tenant `t`'s text configuration. -/
def State.writeText (s : State) (w : RegWrite) (t off : Nat) : State :=
  s.fromPort w off (fun s => if s.liveSession t then s else ((s.store w off).dropText t).checkTextConfig t)

/-- TX_CFG_WRITE (R151, R152). -/
def execTxCfgWrite (w : RegWrite) (t : Nat) (s : State) : Host.Outcome State Fault Refusal :=
  next (if t < 256 then s.writeText w t (Reg.TX_CFG t) else s)

/-- TX_T_WRITE (R151, R152): the write of register `j` of a tenant's block, TX_VOCAB to TX_RESTOK. -/
def execTxTWrite (w : RegWrite) (t j : Nat) (s : State) : Host.Outcome State Fault Refusal :=
  next (if t < 256 ∧ 1 ≤ j ∧ j ≤ 6 then s.writeText w t (Reg.TX_CFG t + 8 * j) else s)

/-! ### TX (R297) -/

/-- The MST message at an address as `nw.recv` delivers it: its type, sender, MSG_ID and payload. -/
def State.deliveredMsg (s : State) (t addr : Nat) : Except Nat Msg :=
  if !s.tenantOwns t addr 64 then .error CS.badCommand
  else match s.readT1 t addr 64 with
  | .error st => .error st
  | .ok h =>
    let n := 8192 * recGet h 12 4 + recGet h 10 2
    if !s.tenantOwns t addr (64 + n) then .error CS.badCommand
    else (s.readT1 t (addr + 64) n).map (fun b =>
      { type := recGet h 1 1, src := recGet h 4 2, dst := recGet h 6 2, tenant := t, handle := recGet h 24 8, msgId := recGet h 32 8,
        step := recGet h 40 8, aux := recGet h 48 8, epoch := recGet h 56 8, replayInexact := (recGet h 3 1).testBit 2, payload := b })

/-- The stall that input may be given to: HOT, RUNNING, WAITING or PARKED, whatever park is in progress (R40, R41); else the status. -/
def State.inputStall (s : State) (t h : Nat) : Except Nat Nat :=
  match s.checkHandle t h false with
  | .error e => .error e.1
  | .ok i =>
    let x := s.stall i
    if x.state = .orphaned then .error CS.orphaned
    else if x.hdr.kind ≠ 0 then .error CS.badCommand
    else if x.state = .running || (!flagOn x 7 && [StallState.hot, .waiting, .parked].contains x.state) then .ok i
    else .error CS.notReady

/-- `tx.tok` (R157, R159, R161, R55): a result, or input, for a stall; for one that is RUNNING it takes effect when the step ends. -/
def execTxTok (n : Insn) (s : State) : Host.Outcome State Fault Refusal :=
  next (s.runInsn n 0x18 0 { side := .hub, d := .s, a := .s, b := if flagBit n 0 then .unused else .sOrI, c := .s, flags := 1 } (fun s y =>
    s.engine n y false 1 Fld.TX_CTRL_EN (fun s c =>
      let t := (s.context n.slot).tenant
      let at_ := y.num n n.a
      let len := y.num n n.b
      if flagBit n 0 then
        match s.checkHandle t (y.num n n.c) false, s.deliveredMsg t at_ with
        | .error e, _ => s.complete c e.1
        | _, .error st => s.complete c st
        | .ok i, .ok m => if m.type ≠ 0x14 then s.complete c CS.badCommand else s.soon i (.result m (some (coreOf c)))
      else match s.inputStall t (y.num n n.c) with
      | .error st => s.complete c st
      | .ok i =>
        if s.get Fld.TX_INPUT_BYTES_BYTES < len then s.complete c CS.badCommand
        else match s.readIn c at_ 0 len with
        | .error st => (s.afterRead t at_ len).checkPoison.complete c st
        | .ok b => ((s.afterRead t at_ len).checkPoison).soon i (.input (coreOf c) b))))

/-- `tx.detok` (R162, R163). -/
def execTxDetok (n : Insn) (s : State) : Host.Outcome State Fault Refusal :=
  next (s.runInsn n 0x18 1 { side := .hub, d := .sPair, a := .s, b := .s, c := .s } (fun s y =>
    s.engine n y true 1 Fld.TX_CTRL_EN (fun s c =>
      let t := (s.context n.slot).tenant
      match s.liveStall c (y.num n n.c) with
      | .error st => s.complete c st
      | .ok i => match s.usableToken i (y.num n n.a) with
        | .error e => ((s.lookToken i (y.num n n.a)).refuseToken i e.1).complete c e.2
        | .ok b =>
          let s := s.lookToken i (y.num n n.a)
          if s.tenantOwns t (y.num n n.b) 255 then (s.writeT1 t (y.num n n.b) b).complete c CS.ok b.length
          else s.complete c CS.badCommand)))

/-- `tx.stop` (R166, R167). -/
def execTxStop (n : Insn) (s : State) : Host.Outcome State Fault Refusal :=
  next (s.runInsn n 0x18 2 { side := .hub, d := .sPair, a := .s, c := .s } (fun s y =>
    s.engine n y true 1 Fld.TX_CTRL_EN (fun s c =>
      match s.runningStall c (y.num n n.c) with
      | .error st => s.complete c st
      | .ok i => let r := s.runStop i (y.num n n.a); r.1.complete c r.2.1 r.2.2)))

/-- `tx.call` (R168, R169). -/
def execTxCall (n : Insn) (s : State) : Host.Outcome State Fault Refusal :=
  next (s.runInsn n 0x18 3 { side := .hub, d := .sPair, a := .s, c := .s } (fun s y =>
    s.engine n y true 1 Fld.TX_CTRL_EN (fun s c =>
      match s.runningStall c (y.num n n.c) with
      | .error st => s.complete c st
      | .ok i => let r := s.runCall i (y.num n n.a); r.1.complete c r.2.1 r.2.2)))

/-! ### GR (R298) -/

/-- The bitmap of a mask (R171). -/
def maskBitmap (vocab : Nat) (m : Mask) : List Byte :=
  (List.range ((vocab + 7) / 8)).map (fun k =>
    BitVec.ofNat 8 (((List.range 8).map (fun b => if m.allowed.contains (8 * k + b) then 2 ^ b else 0)).foldl (· + ·) 0))

/-- `gr.mask` (R175 to R177). -/
def execGrMask (n : Insn) (s : State) : Host.Outcome State Fault Refusal :=
  next (s.runInsn n 0x19 0 { side := .hub, d := .sPair, a := .s, b := .s, c := .s, flags := 1 } (fun s y =>
    s.engine n y true 2 Fld.GR_CTRL_EN (fun s c =>
      let t := (s.context n.slot).tenant
      let j := y.num n n.a
      match s.runningStall c (y.num n n.c) with
      | .error st => s.complete c st
      | .ok i =>
        let drafts := (((s.stall i).step.map (·.drafts)).getD []).length
        let bytes := (s.vocabSize t + 7) / 8
        if drafts < j || (flagBit n 0 && !s.tenantOwns t (y.num n n.b) bytes) then s.complete c CS.badCommand
        else
          let m := s.positionMask i j
          let s := s.noteMask i j m
          let s := if flagBit n 0 then s.writeT1 t (y.num n n.b) (maskBitmap (s.vocabSize t) m) else s
          s.complete c CS.ok m.allowed.length)))

/-- `gr.adv` (R174). -/
def execGrAdv (n : Insn) (s : State) : Host.Outcome State Fault Refusal :=
  next (s.runInsn n 0x19 1 { side := .hub, d := .s, a := .s, c := .s } (fun s y =>
    s.engine n y false 2 Fld.GR_CTRL_EN (fun s c =>
      match s.liveStall c (y.num n n.c) with
      | .error st => s.complete c st
      | .ok i => let r := s.advanceGrammar i (y.num n n.a); r.1.complete c r.2)))

end Sys2Proof.Machine
end

