-- ==== Sys2Proof/Machine/RegWrite.lean ====
section
/-! DEFINITION. A register write at any offset of BAR0 (R5 to R7, R497, R613): the registers whose writes do more than their access codes
say, those whose values are clipped, and all the others. -/

namespace Sys2Proof.Machine

/-- A write stored and then the named fields put to what their tables make of the stored values. -/
def State.writeClipped (s : State) (w : RegWrite) (off : Nat) (fs : List (RegField × (Nat → Nat))) : State :=
  s.fromPort w off (fun s => fs.foldl (fun s f => s.put f.1 (f.2 (s.get f.1))) (s.store w off))

/-- A value clipped to a range. -/
def clipTo (lo hi x : Nat) : Nat := min hi (max lo x)

/-- A write to a control register whose EN waits for READY (R497). -/
def State.writeEnable (s : State) (w : RegWrite) (en : RegField) : State := s.fromPort w en.off (fun s => (s.store w en.off).enGate en)

/-- A write that is discarded while a condition holds. -/
def State.writeUnless (s : State) (w : RegWrite) (off : Nat) (closed : State → Bool) : State :=
  s.fromPort w off (fun s => if closed s then s else s.store w off)

/-- The single registers whose fields have a range that writes are clipped to. -/
def clippedRegs : List (Nat × List (RegField × (Nat → Nat))) := [
  (Reg.KV_HEADROOM, [(Fld.KV_HEADROOM_H, min 8)]),
  (Reg.KV_STEP_TOKENS, [(Fld.KV_STEP_TOKENS_TOKENS, clipTo 1 4096)]),
  (Reg.KV_CHUNK_MIN, [(Fld.KV_CHUNK_MIN_TOKENS, fun x => x / 64 * 64)]),
  (Reg.HB_SPARE_RATE, [(Fld.HB_SPARE_RATE_RATE, max 1)]),
  (Reg.PF_DISTANCE, [(Fld.PF_DISTANCE_LAYERS, clipTo 1 8)]),
  (Reg.TX_INPUT_BYTES, [(Fld.TX_INPUT_BYTES_BYTES, clipTo 4096 0x10000000)]),
  (Reg.TX_CALL_MAX, [(Fld.TX_CALL_MAX_BYTES, clipTo 256 0x01000000)]),
  (Reg.VS_PREFETCH, [(Fld.VS_PREFETCH_CANDIDATES, min 8)]),
  (Reg.CK_MON_CFG, [(Fld.CK_MON_CFG_TOL_PPM, clipTo 50 20000), (Fld.CK_MON_CFG_WINDOW, clipTo 25000 25000000), (Fld.CK_MON_CFG_GOOD_WINDOWS, max 1)]),
  (Reg.CK_PACE_SETTLE, [(Fld.CK_PACE_SETTLE_MAX_US, max 1), (Fld.CK_PACE_SETTLE_POLL_US, max 1)]),
  (Reg.PW_RESUME, [(Fld.PW_RESUME_NS, clipTo 1000000 4000000000)]),
  (Reg.PW_CAP, [(Fld.PW_CAP_W, clipTo 1000 3200)]),
  (Reg.PW_TELEM, [(Fld.PW_TELEM_US, clipTo 50 10000)]),
  (Reg.PW_TJ, [(Fld.PW_TJ_WARN_C, clipTo 70 105), (Fld.PW_TJ_HYST_C, clipTo 1 20), (Fld.PW_TJ_STEP_US, max 1)]),
  (Reg.PW_AVS, [(Fld.PW_AVS_MHZ, clipTo 5 25)]),
  (Reg.RP_WINDOW, [(Fld.RP_WINDOW_NS, max 1)]),
  (Reg.NW_HELLO, [(Fld.NW_HELLO_MISS, max 1)]),
  (Reg.TS_REFILL, [(Fld.TS_REFILL_NS, clipTo 100 1000000)])]

/-- The control registers whose EN waits for READY and does nothing else of its own (R497). -/
def gatedEnables : List RegField :=
  [Fld.KV_CTRL_EN, Fld.TX_CTRL_EN, Fld.SEL_CTRL_EN, Fld.GR_CTRL_EN, Fld.SCH_CTRL_EN, Fld.TL_CTRL_EN, Fld.TS_CTRL_EN]

/-- The single registers whose writes have an effect of their own. -/
def effectRegs : List (Nat × (State → RegWrite → State)) := [
  (Reg.STL_CTRL, State.writeStlCtrl), (Reg.STL_DIRTY_LIMIT, State.writeDirtyLimit), (Reg.PF_CTRL, State.writePfCtrl),
  (Reg.VS_CTRL, State.writeVsCtrl), (Reg.VS_MERGE_AT, State.writeMergeAt), (Reg.SCH_CTX_CTRL, State.writeSchCtxCtrl), (Reg.SCH_STARVE, State.writeStarve), (Reg.TN_PERIOD, State.writePeriod),
  (Reg.GC_PORT_CTRL, State.writePortCtrl), (Reg.NW_CTRL, State.writeNwCtrl), (Reg.NW_FLOW_SEL, State.writeFlowSel), (Reg.YT_CTRL, State.writeYtCtrl),
  (Reg.YT_LOCK_LIMIT, State.writeLockLimit), (Reg.TL_HOST_SIG, State.writeHostSig), (Reg.TL_SNAP_SEL, State.writeSnapSel),
  (Reg.SEC_CTRL, State.writeSecCtrl), (Reg.BU_CTRL, State.writeBuCtrl), (Reg.BU_LOAD_CMD, State.writeLoadCmd), (Reg.CK_CTRL, State.writeCkCtrl),
  (Reg.CK_FMEAS_CTRL, State.writeFmeas), (Reg.PW_CTRL, State.writePwCtrl), (Reg.CP_CTRL, State.writeCpCtrl), (Reg.RP_LOG_ACK, State.writeLogAck)]

/-- A write to NW_PORT_CFG[p]: setting EN starts the training, clearing it takes the link down. -/
def State.writeNetPort (s : State) (w : RegWrite) (p : Nat) : State :=
  s.fromPort w (Reg.NW_PORT_CFG p) (fun s =>
    let before := s.on (Fld.NW_PORT_CFG_EN p)
    let s := s.store w (Reg.NW_PORT_CFG p)
    if before = s.on (Fld.NW_PORT_CFG_EN p) then s
    else if before then s.linkLost p false
    else s.put (Fld.NW_PORT_STATE_LINK p) 1)

/-- A write to NW_LANE[l]: WIRED belongs to the spare lanes, 32 to 35. -/
def State.writeLane (s : State) (w : RegWrite) (l : Nat) : State := s.writeUnless w (Reg.NW_LANE l) (fun _ => decide (l < 32))

/-- A write to SQ_BASE (0), CQ_BASE (8) or Q_CFG (16) of a queue: discarded while EN is 1 or IDLE is 0 (R388). Bits 11 to 0 of a base stay 0. -/
def State.writeQueueSetup (s : State) (w : RegWrite) (q x : Nat) : State :=
  let off := queueBase q + x
  s.fromPort w off (fun s =>
    if s.get (qEn q) = 1 || s.get (qIdle q) = 0 then s
    else
      let s := s.store w off
      if x < 16 then s.put ⟨off, 0, 12⟩ 0 else s)

/-- A write to RING_BASE (0), discarded while EN is 1, or RING_CFG (8), whose bit for class NMI reads 1 (R603, R614). -/
def State.writeRingSetup (s : State) (w : RegWrite) (r x : Nat) : State :=
  let off := ringBase r + x
  s.fromPort w off (fun s =>
    if x = 0 then (if s.get (ringEn r) = 1 then s else (s.store w off).put ⟨off, 0, 12⟩ 0)
    else (s.store w off).put ⟨off, 11, 1⟩ 1)

/-- A write at offset `x` of the registers of a queue. -/
def State.writeQueueReg (s : State) (w : RegWrite) (q x : Nat) : State :=
  if x < 24 then s.writeQueueSetup w q x
  else if x = 24 then s.writeQCtrl w q
  else s.fromPort w (queueBase q + x) (fun s => s)

/-- A write at offset `x` of the registers of a ring. -/
def State.writeRingReg (s : State) (w : RegWrite) (r x : Nat) : State :=
  if x < 16 then s.writeRingSetup w r x
  else if x = 16 then s.writeRingCtrl w r
  else if x = 24 then s.writeRingHead w r
  else s.fromPort w (ringBase r + x) (fun s => s)

/-- A write to an entry of a pending gate list, or to its start: discarded while PENDING is 1 (R439). -/
def State.writeGateList (s : State) (w : RegWrite) (p off : Nat) : State := s.writeUnless w off (fun s => s.on (Fld.TS_GATE_CTRL_PENDING p))

/-- The indices of the register at an offset, over the base, strides and counts of an array. -/
def arrayIndex : (dims : List (Nat × Nat)) → (rest : Nat) → Option (List Nat)
  | [], rest => if rest = 0 then some [] else none
  | (stride, count) :: ds, rest => if rest / stride < count then (arrayIndex ds (rest % stride)).map (rest / stride :: ·) else none

/-- The arrays of registers whose writes have an effect of their own: base, strides and counts, and the write for the indices. -/
def effectArrays : List (Nat × List (Nat × Nat) × (State → RegWrite → (Nat → Nat) → State)) := [
  (Reg.KV_SHAPE 0, [(8, 16)], fun s w i => s.writeKvShape w (i 0)),
  (Reg.TX_CFG 0, [(0x40, 256), (8, 7)], fun s w i => s.writeText w (i 0) (Reg.TX_CFG (i 0) + 8 * i 1)),
  (Reg.SEL_PROF 0, [(8, 256)], fun s w i => s.writeClipped w (Reg.SEL_PROF (i 0)) [(Fld.SEL_PROF_COUNT (i 0), min 256)]),
  (Reg.SCH_HUBTHR 0, [(8, 128)], fun s w i => s.writeHubThread w (i 0)),
  (Reg.SCH_PART 0, [(0x100, 32)], fun s w i => s.writePart w (i 0)),
  (Reg.SCH_SLICE_START 0, [(0x100, 32)], fun s w i => s.writeSlice w (i 0) none),
  (Reg.SCH_SLICE 0 0, [(0x100, 32), (8, 16)], fun s w i => s.writeSlice w (i 0) (some (i 1))),
  (Reg.SCH_ROUND_CFG 0, [(0x20, 256)], fun s w i => s.writeRoundCfg w (i 0)),
  (Reg.SCH_LATENCY 0, [(0x20, 256)], fun s w i => s.writeLatency w (i 0)),
  (Reg.TN_CTRL 0, [(0x80, 256)], fun s w i => s.writeTnCtrl w (i 0)),
  (Reg.GC_PORT_BIND 0 0, [(0x100, 4), (8, 4)], fun s w i => s.writePortBind w (i 0) (i 1)),
  (Reg.TL_BIND 0, [(8, 8192)], fun s w i => s.writeBind w (i 0)),
  (Reg.NW_PORT_CFG 0, [(0x100, 8)], fun s w i => s.writeNetPort w (i 0)),
  (Reg.NW_LANE 0, [(8, 36)], fun s w i => s.writeLane w (i 0)),
  (Reg.TS_GATE_CTRL 0, [(0x1000, 8)], fun s w i => s.writeGateCtrl w (i 0)),
  (Reg.TS_GATE_START 0, [(0x1000, 8)], fun s w i => s.writeGateList w (i 0) (Reg.TS_GATE_START (i 0))),
  (Reg.TS_GATE_ENTRY 0 0, [(0x1000, 8), (8, 256)], fun s w i => s.writeGateList w (i 0) (Reg.TS_GATE_ENTRY (i 0) (i 1))),
  (Reg.TS_RATE 0 0 0, [(0x10000, 8), (0x100, 256), (0x20, 8)], fun s w i => s.writeRate w (i 0) (i 1) (i 2) false),
  (Reg.TS_DEPTH 0 0 0, [(0x10000, 8), (0x100, 256), (0x20, 8)], fun s w i => s.writeRate w (i 0) (i 1) (i 2) true),
  (Reg.SEC_MACSEC 0, [(8, 8)], fun s w i => s.writeSecMacsec w (i 0)),
  (Reg.SEC_TNET 0, [(8, 256)], fun s w i => s.writeSecTnet w (i 0)),
  (Reg.BU_TOPO_EXP 0, [(8, 6)], fun s w i => s.writeUnless w (Reg.BU_TOPO_EXP (i 0)) (fun s => s.get Fld.BU_STATE_STATE ≠ 2 && s.get Fld.BU_STATE_STATE ≠ 5)),
  (Reg.CK_PACE 0, [(8, 8)], fun s w i => s.writePace w (i 0)),
  (Reg.CK_PACE_CTL 0, [(0x20, 17)], fun s w i => s.writePaceCtl w (i 0)),
  (Reg.CK_GATE 0, [(8, 37)], fun s w i => s.writeGate w (i 0)),
  (Reg.EV_MASK 0, [(8, 64)], fun s w i => s.writeEvMask w (i 0)),
  (Reg.EV_MR_RING_BASE 0, [(0x100, 4), (8, 6)], fun s w i => s.writeRingReg w (i 0) (8 * i 1)),
  (Reg.HQ_EV_RING_BASE 0, [(0x10000, 256), (8, 6)], fun s w i => s.writeRingReg w (4 + i 0) (8 * i 1)),
  (Reg.HQ_SQ_BASE 0 0, [(0x10000, 256), (0x400, 16), (8, 10)], fun s w i => s.writeQueueReg w (16 * i 0 + i 1) (8 * i 2)),
  (Reg.GC_MQ_SQ_BASE 0, [(0x100, 4), (8, 10)], fun s w i => s.writeQueueReg w (4096 + i 0) (8 * i 1))]

/-- A write to an array whose writes have an effect of their own. -/
def State.writeArrays (s : State) (w : RegWrite) (off : Nat) : Option State :=
  effectArrays.findSome? (fun a =>
    if off < a.1 then none else (arrayIndex a.2.1 (off - a.1)).map (fun i => a.2.2 s w (fun k => i.getD k 0)))

/-- A register write at any offset: one to no register is discarded (R613). -/
def State.writeRegister (s : State) (w : RegWrite) (off : Nat) : State :=
  match effectRegs.find? (fun e => e.1 = off) with
  | some e => e.2 s w
  | none => match clippedRegs.find? (fun e => e.1 = off) with
    | some e => s.writeClipped w off e.2
    | none => match gatedEnables.find? (fun f => f.off = off) with
      | some f => s.writeEnable w f
      | none => (s.writeArrays w off).getD (s.fromPort w off (fun s => s.store w off))

/-- REGISTER_WRITE (R6): by the register's access codes and what else its table says. -/
def execRegisterWrite (w : RegWrite) (off : Nat) (s : State) : Host.Outcome State Fault Refusal := next (s.writeRegister w off)

end Sys2Proof.Machine
end

