-- ==== Sys2Proof/Machine/Select.lean ====
section
/-! DEFINITION. SELECT and the Trondi class SL (R197, R198, R202 to R206, R299, R300). -/

namespace Sys2Proof.Machine

/-- SELECT (R197, R198). -/
def execSelect (c : Cmd) (s : State) : Host.Outcome State Fault Refusal :=
  next (s.runCmd c .tenant false (fun s =>
    let t := (s.issuerTenant c.issuer).getD 0
    let r := s.selectLists t c.tag.toNat false (opU32 c 32) (opU32 c 36) (opByte c 40) (opU32 c 44) c.addrA.toNat c.addrB.toNat
    r.1.complete c r.2.1 r.2.2.1 r.2.2.2))

/-- `sl.merge` (R299, R300). -/
def execSlMerge (n : Insn) (s : State) : Host.Outcome State Fault Refusal :=
  next (s.runInsn n 0x1A 0 { side := .hub, d := .sPair, a := .s } (fun s y =>
    s.blockRequest n y true none (fun _ => true) (fun s _ c =>
      let r := s.selectLists (s.context n.slot).tenant 0 true (opU32 c 32) (opU32 c 36) (opByte c 40) (opU32 c 44) c.addrA.toNat c.addrB.toNat
      r.1.complete c r.2.1 r.2.2.1)))

/-- `sl.gather` (R196, R299). -/
def execSlGather (n : Insn) (s : State) : Host.Outcome State Fault Refusal :=
  next (s.runInsn n 0x1A 1 { side := .hub, d := .s, a := .s, b := .s, c := .s, imm := true } (fun s y =>
    s.engine n y false 4 Fld.SEL_CTRL_EN (fun s c =>
      let r := s.gatherResult (s.context n.slot).tenant (y.num n n.a) (y.num n n.b) (y.num n n.c) (n.imm.toNat % 2 ^ 13)
      r.1.complete c r.2)))

/-- `sl.draw` (R202, R203, R299). `late` tells that the position's mask is not ready when selection needs it: the draw then waits (R177). -/
def execSlDraw (n : Insn) (late : Bool) (s : State) : Host.Outcome State Fault Refusal :=
  next (s.runInsn n 0x1A 2 { side := .hub, d := .sPair, a := .s, b := .s, c := .s, flags := 1, imm := true } (fun s y =>
    s.engine n y true 4 Fld.SEL_CTRL_EN (fun s c =>
      let j := n.imm.toNat % 16
      match s.runningStall c (y.num n n.c) with
      | .error st => s.complete c st 0xFFFFFFFF
      | .ok i =>
        let drafts := (((s.stall i).step.map (·.drafts)).getD []).length
        let copied := (s.stall i).step.any (fun p => p.profileAt = y.num n n.b)
        if drafts < j || (!copied && s.addrOk (y.num n n.b) 32 && !s.tenantOwns (s.context n.slot).tenant (y.num n n.b) 32) then
          s.complete c CS.badCommand 0xFFFFFFFF
        else
          let p := s.drawProfile i (y.num n n.b)
          let s := p.1
          let x := s.stall i
          if late && x.hdr.grImage ≠ 0 then
            let w : DrawWait := ⟨n.slot, n.unit, coreOf c, j, y.num n n.a, flagBit n 0, p.2, s.now⟩
            let s := s.setStall i { x with step := x.step.map (fun q => { q with waits := q.waits ++ [w] }) }
            (s.bump Fld.GR_LATE_CNT_COUNT 1).stallEvent 0x0804 i
          else
            let r := s.drawAt i j (y.num n n.a) (flagBit n 0) p.2
            r.1.complete c r.2.1 r.2.2)))

/-- GR_MASK_READY (R177): the mask of position `pos` is ready; the draws that wait for it go on, each wait added to GR_LATE_NS. -/
def execGrMaskReady (i pos : Nat) (s : State) : Host.Outcome State Fault Refusal :=
  next (match (s.stall i).step with
    | none => s
    | some p =>
      let s := s.setStall i { s.stall i with step := some { p with waits := p.waits.filter (fun w => w.pos ≠ pos) } }
      (p.waits.filter (fun w => w.pos = pos)).foldl (fun s w =>
        let s := s.bump Fld.GR_LATE_NS_NS (s.now - w.since)
        let r := s.drawAt i w.pos w.row w.list w.profile
        r.1.answerHub w.slot w.unit w.cmd r.2.1 r.2.2) s)

/-- `sl.rand` (R204, R206). -/
def execSlRand (n : Insn) (s : State) : Host.Outcome State Fault Refusal :=
  next (s.runInsn n 0x1A 3 { side := .hub, d := .sPair, a := .s, b := .s, c := .s, imm := true } (fun s y =>
    let r := seedwheel (y.sreg n.a.toNat) (y.sreg n.b.toNat) (y.sreg n.c.toNat) n.imm
    .done s ((y.setS n.d.toNat r.1).setS (n.d.toNat + 1) r.2) none))

end Sys2Proof.Machine
end

