-- ==== Sys2Proof/Machine/Trondi.lean ====
section
/-! DEFINITION. The Trondi classes CT, SY and MV (R280 to R286), and what completes their waits. -/

namespace Sys2Proof.Machine

/-! ### CT: control (R280, R281) -/

/-- `ct.nop`. -/
def execCtNop (n : Insn) (s : State) : Host.Outcome State Fault Refusal :=
  next (s.runInsn n 1 0 {} (fun s y => .done s y none))

/-- Whether a branch IMM has bits [3:0] 0 (R275). -/
def branchOk (n : Insn) : Bool := decide (n.imm.toNat % 16 = 0)

/-- `ct.br`. -/
def execCtBr (n : Insn) (s : State) : Host.Outcome State Fault Refusal :=
  next (s.runInsn n 1 1 { imm := true, ok := branchOk n } (fun s y => .done s y (some (branchTo y n))))

/-- `ct.jmp`. -/
def execCtJmp (n : Insn) (s : State) : Host.Outcome State Fault Refusal :=
  next (s.runInsn n 1 2 { a := .s } (fun s y => .done s y (some (y.num n n.a))))

/-- `ct.call`: the return address pushed; with 16 entries on the stack it faults with CALL_DEPTH. -/
def execCtCall (n : Insn) (s : State) : Host.Outcome State Fault Refusal :=
  next (s.runInsn n 1 3 { imm := true, ok := branchOk n } (fun s y =>
    if 16 ≤ y.ret.length then .fault s 0x0D 0 else .done s { y with ret := (y.pc + 16) :: y.ret } (some (branchTo y n))))

/-- `ct.ret`: with no entry on the stack it faults with CALL_DEPTH. -/
def execCtRet (n : Insn) (s : State) : Host.Outcome State Fault Refusal :=
  next (s.runInsn n 1 4 {} (fun s y => match y.ret with
    | [] => .fault s 0x0D 0
    | r :: rest => .done s { y with ret := rest } (some r)))

/-- `ct.loop`: the register counts down, and the branch is taken while it is not 0. -/
def execCtLoop (n : Insn) (s : State) : Host.Outcome State Fault Refusal :=
  next (s.runInsn n 1 5 { d := .s, imm := true, ok := branchOk n } (fun s y =>
    let v := y.sreg n.d.toNat - 1
    .done s (y.setS n.d.toNat v) (if v = 0 then none else some (branchTo y n))))

/-- `ct.halt` (R281): the unit stops with bits [31:0] of IMM as its halt code. -/
def execCtHalt (n : Insn) (s : State) : Host.Outcome State Fault Refusal :=
  next (s.runInsn n 1 6 { imm := true } (fun s y =>
    .hold ((s.retire n.slot n.unit (y.pc + 16) y).haltUnit n.slot n.unit (n.imm.toNat % 2 ^ 32))))

/-- `ct.trap`: a fault with cause TRAP; the fault address holds IMM. -/
def execCtTrap (n : Insn) (s : State) : Host.Outcome State Fault Refusal :=
  next (s.runInsn n 1 7 { imm := true } (fun s _ => .fault s 0x0F n.imm.toNat))

/-- The condition of `ct.cmp` that FLAGS [2:0] selects. -/
def compare (cond : Nat) (a b : Word) : Bool :=
  match cond with
  | 0 => a = b
  | 1 => a ≠ b
  | 2 => a.ult b
  | 3 => !b.ult a
  | 4 => a.slt b
  | _ => !b.slt a

/-- `ct.cmp`. -/
def execCtCmp (n : Insn) (s : State) : Host.Outcome State Fault Refusal :=
  let cond := n.flags.toNat % 8
  next (s.runInsn n 1 8 { d := .p, a := .s, b := .sOrI, flags := 7, ok := decide (cond < 6) } (fun s y =>
    .done s (y.setP (n.d.toNat - 0x40) (compare cond (y.src n n.a) (y.src n n.b))) none))

/-- `ct.plog`. -/
def execCtPlog (n : Insn) (s : State) : Host.Outcome State Fault Refusal :=
  next (s.runInsn n 1 9 { d := .p, a := .p, b := .p, flags := 3 } (fun s y =>
    let a := y.pred (n.a.toNat - 0x40)
    let b := y.pred (n.b.toNat - 0x40)
    let v := match n.flags.toNat % 4 with
      | 0 => a && b
      | 1 => a || b
      | 2 => a != b
      | _ => a && !b
    .done s (y.setP (n.d.toNat - 0x40) v) none))

/-! ### SY: sync (R245, R282, R343 to R346) -/

/-- `sy.fence` (R245): accesses take effect in order, so every earlier write can be seen. -/
def execSyFence (n : Insn) (s : State) : Host.Outcome State Fault Refusal :=
  next (s.runInsn n 2 0 {} (fun s y => .done s y none))

/-- `sy.sig` (R345). -/
def execSySig (n : Insn) (s : State) : Host.Outcome State Fault Refusal :=
  next (s.runInsn n 2 1 { d := .s, a := .s, b := .sOrI } (fun s y =>
    let k := y.num n n.a
    match s.tallyCheck (s.context n.slot).tenant k (y.num n n.b) with
    | some st => .done s (y.put n.d st) none
    | none =>
      let s := s.tallyEcc k n.ecc
      match s.tallyCheck (s.context n.slot).tenant k (y.num n n.b) with
      | some st => .done s (y.put n.d st) none
      | none =>
        let r := s.signal k (y.num n n.b)
        .done r.2 ((r.2.unit n.slot n.unit).put n.d r.1) none))

/-- `sy.wait` (R345, R346): the wait joins its tally's queue; it completes when it has taken its signals, or at its deadline. -/
def execSyWait (n : Insn) (s : State) : Host.Outcome State Fault Refusal :=
  next (s.runInsn n 2 2 { d := .s, a := .s, b := .sOrI, c := .s } (fun s y =>
    let k := y.num n n.a
    match s.tallyCheck (s.context n.slot).tenant k (y.num n n.b) with
    | some st => .done s (y.put n.d st) none
    | none =>
      let s := s.tallyEcc k n.ecc
      match s.tallyCheck (s.context n.slot).tenant k (y.num n n.b) with
      | some st => .done s (y.put n.d st) none
      | none =>
        let s := s.setUnit n.slot n.unit { y with wait := some (.tally k (y.num n n.b) (y.num n n.c) n.d.toNat) }
        let x := s.tally k
        .hold ((s.setTally k { x with queue := x.queue ++ [⟨n.slot, n.unit, y.num n n.b, y.num n n.c⟩] }).serveTally k)))

/-- TALLY_WAIT_TIMEOUT (R345): the deadline of tally `k`'s head wait has come. -/
def execTallyWaitTimeout (k : Nat) (s : State) : Host.Outcome State Fault Refusal := next (s.serveTally k)

/-- `sy.at` (R282, R339). -/
def execSyAt (n : Insn) (s : State) : Host.Outcome State Fault Refusal :=
  next (s.runInsn n 2 3 { d := .s, a := .sOrI } (fun s y =>
    if y.num n n.a ≤ s.now then .done s (y.put n.d s.now) none
    else .hold (s.setUnit n.slot n.unit { y with wait := some (.at_ (y.num n n.a) n.d.toNat) })))

/-- SY_AT_RESUME (R339): a unit's count has come; its register takes the count at resumption. -/
def execSyAtResume (slot unit : Nat) (s : State) : Host.Outcome State Fault Refusal :=
  let y := s.unit slot unit
  next (match y.wait with
    | some (.at_ count d) => if count ≤ s.now then s.retire slot unit (y.pc + 16) (y.setS d (BitVec.ofNat 64 s.now)) else s
    | _ => s)

/-- `sy.yt`. -/
def execSyYt (n : Insn) (s : State) : Host.Outcome State Fault Refusal :=
  next (s.runInsn n 2 4 { d := .s } (fun s y => .done s (y.put n.d s.now) none))

/-! ### MV: move (R283 to R285) -/

/-- `mv.li`. -/
def execMvLi (n : Insn) (s : State) : Host.Outcome State Fault Refusal :=
  next (s.runInsn n 4 0 { d := .s, imm := true } (fun s y => .done s (y.setS n.d.toNat n.imm) none))

/-- The kind of operand that both fields of `mv.mov` have: that of D's code. -/
def movKind (d : Nat) : OpKind := if d < 0x20 then .s else if d < 0x30 then .v else if d < 0x38 then .t else .p

/-- `mv.mov`. -/
def execMvMov (n : Insn) (s : State) : Host.Outcome State Fault Refusal :=
  let d := n.d.toNat
  let a := n.a.toNat
  next (s.runInsn n 4 1 { d := movKind d, a := movKind d } (fun s y =>
    .done s (match movKind d with
      | .s => y.setS d (y.sreg a)
      | .v => y.setV (d - 0x20) (y.vlane (a - 0x20))
      | .t => y.setT (d - 0x30) (y.tile (a - 0x30))
      | _ => y.setP (d - 0x40) (y.pred (a - 0x40))) none))

/-- The instructions of opcode 0x002, operation `sub` (R284). -/
def State.runAlu (s : State) (n : Insn) (sub : Nat) (f : Word → Word → Word) : State :=
  let n := withSub 4 sub n
  s.runInsn n 4 2 { d := .s, a := .s, b := .sOrI, flags := 15 } (fun s y =>
    .done s (y.setS n.d.toNat (f (y.src n n.a) (y.src n n.b))) none)

/-- `mv.add` (R284): the sum modulo 2^64. -/
def execMvAdd (n : Insn) (s : State) : Host.Outcome State Fault Refusal :=
  next (s.runAlu n 0 (fun a b => a + b))

/-- `mv.sub` (R284): the difference modulo 2^64. -/
def execMvSub (n : Insn) (s : State) : Host.Outcome State Fault Refusal :=
  next (s.runAlu n 1 (fun a b => a - b))

/-- `mv.mul` (R284): the low 64 bits of the product. -/
def execMvMul (n : Insn) (s : State) : Host.Outcome State Fault Refusal :=
  next (s.runAlu n 2 (fun a b => a * b))

/-- `mv.and` (R284): bitwise AND. -/
def execMvAnd (n : Insn) (s : State) : Host.Outcome State Fault Refusal :=
  next (s.runAlu n 3 (fun a b => a &&& b))

/-- `mv.or` (R284): bitwise OR. -/
def execMvOr (n : Insn) (s : State) : Host.Outcome State Fault Refusal :=
  next (s.runAlu n 4 (fun a b => a ||| b))

/-- `mv.xor` (R284): bitwise XOR. -/
def execMvXor (n : Insn) (s : State) : Host.Outcome State Fault Refusal :=
  next (s.runAlu n 5 (fun a b => a ^^^ b))

/-- `mv.shl` (R284): a left shift by bits [5:0] of B. -/
def execMvShl (n : Insn) (s : State) : Host.Outcome State Fault Refusal :=
  next (s.runAlu n 6 (fun a b => a <<< (b.toNat % 64)))

/-- `mv.shr` (R284): a right shift with zero fill. -/
def execMvShr (n : Insn) (s : State) : Host.Outcome State Fault Refusal :=
  next (s.runAlu n 7 (fun a b => a >>> (b.toNat % 64)))

/-- `mv.sra` (R284): a right shift with sign fill. -/
def execMvSra (n : Insn) (s : State) : Host.Outcome State Fault Refusal :=
  next (s.runAlu n 8 (fun a b => a.sshiftRight (b.toNat % 64)))

/-- `mv.minu` (R284): the unsigned minimum. -/
def execMvMinu (n : Insn) (s : State) : Host.Outcome State Fault Refusal :=
  next (s.runAlu n 9 (fun a b => if b.ult a then b else a))

/-- `mv.maxu` (R284): the unsigned maximum. -/
def execMvMaxu (n : Insn) (s : State) : Host.Outcome State Fault Refusal :=
  next (s.runAlu n 10 (fun a b => if a.ult b then b else a))

/-- `mv.mins` (R284): the signed minimum. -/
def execMvMins (n : Insn) (s : State) : Host.Outcome State Fault Refusal :=
  next (s.runAlu n 11 (fun a b => if b.slt a then b else a))

/-- `mv.maxs` (R284): the signed maximum. -/
def execMvMaxs (n : Insn) (s : State) : Host.Outcome State Fault Refusal :=
  next (s.runAlu n 12 (fun a b => if a.slt b then b else a))

/-- The bytes of an access width (R285). -/
def widthOf (code : Nat) : Nat := if code = 5 then 256 else 2 ^ code

/-- The address of a memory access (R283). -/
def memAddr (y : UnitX) (n : Insn) : Word := y.sreg n.a.toNat + n.imm

/-- A loaded value sign-extended from its width. -/
def signExtend (w v : Nat) : Nat := unsignedOf 64 (signedOf (8 * w) v)

/-- `mv.ld`. -/
def execMvLd (n : Insn) (s : State) : Host.Outcome State Fault Refusal :=
  let w := n.flags.toNat % 8
  next (s.runInsn n 4 3 { d := if w ≤ 3 then .s else .v, a := .s, imm := true, flags := if w ≤ 2 then 15 else 7, ok := decide (w < 6) } (fun s y =>
    s.reading n y (memAddr y n) (widthOf w) (widthOf w) (fun s b =>
      if w ≤ 3 then .done s (y.put n.d (if flagBit n 3 then signExtend (widthOf w) (natOfBytes b) else natOfBytes b)) none
      else .done s (y.setV (n.d.toNat - 0x20) (fun l => BitVec.ofNat 32 (recGet b (4 * l) 4))) none)))

/-- `mv.st`. -/
def execMvSt (n : Insn) (s : State) : Host.Outcome State Fault Refusal :=
  let w := n.flags.toNat % 8
  next (s.runInsn n 4 4 { a := .s, b := if w ≤ 3 then .s else .v, imm := true, flags := 7, ok := decide (w < 6) } (fun s y =>
    let bytes := if w ≤ 3 then bytesOf (widthOf w) (y.num n n.b)
      else (List.range (widthOf w / 4)).flatMap (fun l => bytesOf 4 (y.vlane (n.b.toNat - 0x20) l).toNat)
    s.writing n y (memAddr y n) (widthOf w) bytes))

/-- `mv.tile`. -/
def execMvTile (n : Insn) (s : State) : Host.Outcome State Fault Refusal :=
  next (s.runInsn n 4 5 { d := .t, a := .s, b := .s } (fun s y =>
    .done s (y.setT (n.d.toNat - 0x30) ((y.sreg n.b.toNat) ++ (y.sreg n.a.toNat))) none))

/-- `mv.tget`. -/
def execMvTget (n : Insn) (s : State) : Host.Outcome State Fault Refusal :=
  next (s.runInsn n 4 6 { d := .s, a := .t, flags := 1 } (fun s y =>
    .done s (y.setS n.d.toNat ((y.tile (n.a.toNat - 0x30)).extractLsb' (if flagBit n 0 then 64 else 0) 64)) none))

/-- `mv.bcast`. -/
def execMvBcast (n : Insn) (s : State) : Host.Outcome State Fault Refusal :=
  next (s.runInsn n 4 8 { d := .v, a := .s } (fun s y =>
    .done s (y.setV (n.d.toNat - 0x20) (fun _ => (y.sreg n.a.toNat).setWidth 32)) none))

/-- `mv.getl`. -/
def execMvGetl (n : Insn) (s : State) : Host.Outcome State Fault Refusal :=
  next (s.runInsn n 4 9 { d := .s, a := .v, imm := true, ok := decide (n.imm.toNat < 64) } (fun s y =>
    .done s (y.put n.d (y.vlane (n.a.toNat - 0x20) n.imm.toNat).toNat) none))

/-- `mv.setl`. -/
def execMvSetl (n : Insn) (s : State) : Host.Outcome State Fault Refusal :=
  next (s.runInsn n 4 10 { d := .v, a := .s, imm := true, ok := decide (n.imm.toNat < 64) } (fun s y =>
    .done s (y.setLane (n.d.toNat - 0x20) n.imm.toNat ((y.sreg n.a.toNat).setWidth 32)) none))

/-! ### Aisle messages (R286, R325) -/

/-- The context slot and unit that a destination or sender field names, RUNNING and of the tenant of `slot`. -/
def State.aislePeer (s : State) (slot field : Nat) : Option (Nat × Nat) :=
  let x := s.context slot
  if field < 2 ^ 31 then (if x.hub then none else ((s.contextUnits slot)[field]?).map (fun u => (slot, u)))
  else (s.contexts.find? (fun e => e.2.hub && decide (e.2.thread + 2 ^ 31 = field) && decide (e.2.state = .running) && decide (e.2.tenant = x.tenant))).map
    (fun e => (e.1, e.2.thread))

/-- Whether a message's length is allowed: 16 to 65,536, a multiple of 16. -/
def aisleLength (len : Nat) : Bool := decide (16 ≤ len ∧ len ≤ 65536 ∧ len % 16 = 0)

/-- Whether a sender holds a credit for a receiver's buffer (R15). DESIGN CHOICE: a credit stands for one message; how many a buffer takes is
the implementation's, and at least 1. -/
def State.aisleCredit (s : State) (slot unit : Nat) : Bool :=
  decide ((s.aisle.filter (fun m => decide (m.toSlot = slot ∧ m.toUnit = unit))).length ≤ Config.aisleCredits)

/-- `mv.send`: the message goes on its way once it holds its Aisle credits; until then the instruction waits. -/
def execMvSend (n : Insn) (s : State) : Host.Outcome State Fault Refusal :=
  next (s.runInsn n 4 11 { a := .s, b := .sOrI, c := .s } (fun s y =>
    let dest := y.num n n.c
    let len := y.num n n.b
    if dest / 2 ^ 60 ≠ 6 then .fault s 0x03 dest
    else if !aisleLength len || dest % 2 ^ 60 / 2 ^ 48 ≠ 0 then .fault s 0x04 dest
    else match s.aislePeer n.slot (dest / 2 ^ 16 % 2 ^ 32) with
    | none => .fault s 0x04 dest
    | some peer =>
      if !s.aisleCredit peer.1 peer.2 then .hold s
      else s.reading n y (y.sreg n.a.toNat) len 1 (fun s b =>
        .done { s with aisle := s.aisle ++
          [⟨(s.context n.slot).tenant, (s.context n.slot).hub, n.slot, n.unit, peer.1, peer.2, dest % 2 ^ 16, b, false⟩] } y none)))

/-- One timing-dependent receive counted (R325). -/
def State.countFreeReceive (s : State) (slot : Nat) : State :=
  let x := s.context slot
  let s := s.bump Fld.GC_ND_COUNT_COUNT 1
  match (sparseGet ({} : RoundX) s.rounds x.tenant).flight with
  | some f => if f.launch ≠ x.launchYt then s
    else f.stalls.foldl (fun s i => match (s.stall i).step with
      | some p => s.setStall i { s.stall i with step := some { p with nd := p.nd + 1 } }
      | none => s) s
  | none => s

/-- FP32 elements of a message added to those at its destination, in element order. -/
def addElements (old new : List Byte) : List Byte :=
  (List.range (new.length / 4)).flatMap (fun i => bytesOf 4 (f32Add (recGet old (4 * i) 4) (recGet new (4 * i) 4)))

/-! ### The reductions of the Aisle root (R15, R24, R323 to R325) -/

/-- An operand of a reduction: the logical Hive and, of an expert's output, the expert it comes from; the handshake window of its arrival; its FP32 elements. -/
structure AislePartial where
  hive : Nat
  expert : Nat
  window : Nat
  elements : List Nat
deriving DecidableEq, Repr

/-- The operands in the ranking of R323: by ascending expert, then ascending Hive; dense partials name no expert. -/
def rankPartials (l : List AislePartial) : List AislePartial :=
  l.mergeSort (fun a b => decide (a.expert < b.expert) || (decide (a.expert = b.expert) && decide (a.hive ≤ b.hive)))

/-- A reduction in the fixed order (R322, R323): element-wise, over the tree of the ranks. -/
def reduceFixed (l : List AislePartial) : List Nat :=
  (treeReduce (List.zipWith f32Add) l.length ((rankPartials l).map (·.elements))).headD []

/-- A reduction in the order of arrival (R324): one operand at a time, those of one handshake window by ascending Hive. -/
def reduceArrived (l : List AislePartial) : List Nat :=
  match (l.mergeSort (fun a b => decide (a.window < b.window) || (decide (a.window = b.window) && decide (a.hive ≤ b.hive)))).map (·.elements) with
  | [] => []
  | a :: rest => rest.foldl (List.zipWith f32Add) a

/-- One reduction at the Aisle root for tenant `t`'s round: ABSENT Hives contribute nothing (R323); one in a free-order round is counted (R325). -/
def State.rootReduction (s : State) (t : Nat) (l : List AislePartial) : State × List Nat :=
  let l := l.filter (fun p => !s.hiveAbsent p.hive)
  match (sparseGet ({} : RoundX) s.rounds t).flight with
  | some f =>
    if !f.freeOrder then (s, reduceFixed l)
    else (f.stalls.foldl (fun s i => match (s.stall i).step with
      | some p => s.setStall i { s.stall i with step := some { p with nd := p.nd + 1 } }
      | none => s) (s.bump Fld.GC_ND_COUNT_COUNT 1), reduceArrived l)
  | none => (s, reduceFixed l)

/-- Whether a message comes from the sender that a field names: a rank of the receiver's own Cell context, or a Hub thread of its tenant,
whether or not it still runs. -/
def State.fromSender (s : State) (slot field : Nat) (m : AisleMsg) : Bool :=
  if field < 2 ^ 31 then !m.hub && !(s.context slot).hub && decide (m.fromSlot = slot) && (s.contextUnits slot)[field]? == some m.fromUnit
  else m.hub && decide (m.fromUnit + 2 ^ 31 = field)

/-- Whether a message is one that a receiver waits for. -/
def aisleMatch (slot unit channel : Nat) (sender : AisleMsg → Bool) (m : AisleMsg) : Bool :=
  m.arrived && decide (m.toSlot = slot) && decide (m.toUnit = unit) && decide (m.channel = channel) && sender m

/-- `mv.recv` (R286): the next message from the sender on the channel of IMM, or a wait for it. -/
def State.aisleReceive (s : State) (n : Insn) (y : UnitX) : Did :=
  let who := y.num n n.c
  let len := y.num n n.b
  let any := decide (who = 2 ^ 64 - 1)
  let channel := n.imm.toNat % 2 ^ 16
  if !any && who / 2 ^ 60 ≠ 6 then .fault s 0x03 who
  else if !aisleLength len then .fault s 0x04 who
  else
    match s.aisle.findIdx? (aisleMatch n.slot n.unit channel (fun m => any || s.fromSender n.slot (who / 2 ^ 16 % 2 ^ 32) m)) with
    | none => .hold (s.setUnit n.slot n.unit { y with wait := some (.aisle n) })
    | some k =>
      let bytes := ((s.aisle[k]?).map (·.bytes)).getD []
      if bytes.length ≠ len then .fault s 0x04 who
      else
        let s := { s with aisle := s.aisle.eraseIdx k }
        let s := if any then s.countFreeReceive n.slot else s
        if flagBit n 0 then s.reading n y (y.sreg n.a.toNat) len 4 (fun s old => s.writing n y (y.sreg n.a.toNat) 4 (addElements old bytes))
        else s.writing n y (y.sreg n.a.toNat) 1 bytes

/-- `mv.recv`. -/
def execMvRecv (n : Insn) (s : State) : Host.Outcome State Fault Refusal :=
  next (s.runInsn n 4 12 { a := .s, b := .sOrI, c := .s, flags := 1, imm := true } (fun s y => s.aisleReceive n y))

/-- An arrived message handed to the `mv.recv` that waits for it on its unit. -/
def State.finishReceive (s : State) (m : AisleMsg) : State :=
  let y := s.unit m.toSlot m.toUnit
  match y.wait with
  | some (.aisle n) =>
    (match s.aisleReceive n { y with wait := none } with
    | .done s w _ => s.retire m.toSlot m.toUnit (y.pc + 16) w
    | .hold _ => s
    | .fault s cause a => s.faultContext m.toSlot m.toUnit cause a (insnWord 4 12 n))
  | _ => s

/-- AISLE_MESSAGE_ARRIVE (R286): the `k`-th message on the Aisle reaches its receiver; one sent before it by the same sender to the same
receiver on the same channel arrives first. A receiver that waits for it completes. -/
def execAisleMessageArrive (k : Nat) (s : State) : Host.Outcome State Fault Refusal :=
  next (match s.aisle[k]? with
    | none => s
    | some m =>
      let same (q : AisleMsg) : Bool := !q.arrived && decide (q.fromSlot = m.fromSlot ∧ q.fromUnit = m.fromUnit ∧ q.toSlot = m.toSlot ∧
        q.toUnit = m.toUnit ∧ q.channel = m.channel)
      if m.arrived || (s.aisle.take k).any same then s
      else { s with aisle := s.aisle.eraseIdx k ++ [{ m with arrived := true }] }.finishReceive m)

end Sys2Proof.Machine
end

