-- ==== Sys2Proof/Machine/Vector.lean ====
section
/-! DEFINITION. The Trondi class VX (R289 to R292, R306, R312, R315 to R317, R322, R189, R190). -/

namespace Sys2Proof.Machine

/-- Lane `l` of a vector or scalar source (R289). -/
def UnitX.lane (y : UnitX) (code : BitVec 8) (l : Nat) : Nat :=
  if code.toNat < 0x20 then (y.sreg code.toNat).toNat % 2 ^ 32 else (y.vlane (code.toNat - 0x20) l).toNat

/-- Every lane of a vector register written. -/
def UnitX.putLanes (y : UnitX) (code : BitVec 8) (f : Nat → Nat) : UnitX := y.setV (code.toNat - 0x20) (fun l => BitVec.ofNat 32 (f l))

/-- `vx.fma`. -/
def execVxFma (n : Insn) (s : State) : Host.Outcome State Fault Refusal :=
  next (s.runInsn n 9 0 { side := .cell, d := .v, a := .v, b := .vOrS, c := .v } (fun s y =>
    .done s (y.putLanes n.d (fun l => f32Fma (y.lane n.a l) (y.lane n.b l) (y.lane n.c l))) none))

/-- The two-operand lane operations of opcode 0x001, operation `sub` (R290). -/
def State.runLanes (s : State) (n : Insn) (sub : Nat) (f : Nat → Nat → Nat) : State :=
  let n := withSub 3 sub n
  s.runInsn n 9 1 { side := .cell, d := .v, a := .v, b := .vOrS, flags := 7 } (fun s y =>
    .done s (y.putLanes n.d (fun l => f (y.lane n.a l) (y.lane n.b l))) none)

/-- The one-operand lane operations of opcode `op`, operation `sub` in `w` bits of FLAGS (R290). -/
def State.runMap (s : State) (n : Insn) (op w sub : Nat) (f : Nat → Nat) : State :=
  let n := withSub w sub n
  s.runInsn n 9 op { side := .cell, d := .v, a := .v, flags := 2 ^ w - 1 } (fun s y =>
    .done s (y.putLanes n.d (fun l => f (y.lane n.a l))) none)

/-- `vx.add` (R290, R315). -/
def execVxAdd (n : Insn) (s : State) : Host.Outcome State Fault Refusal := next (s.runLanes n 0 f32Add)

/-- `vx.sub` (R290, R315). -/
def execVxSub (n : Insn) (s : State) : Host.Outcome State Fault Refusal := next (s.runLanes n 1 f32Sub)

/-- `vx.mul` (R290, R315). -/
def execVxMul (n : Insn) (s : State) : Host.Outcome State Fault Refusal := next (s.runLanes n 2 f32Mul)

/-- `vx.max` (R290, R317). -/
def execVxMax (n : Insn) (s : State) : Host.Outcome State Fault Refusal := next (s.runLanes n 3 f32Max)

/-- `vx.min` (R290, R317). -/
def execVxMin (n : Insn) (s : State) : Host.Outcome State Fault Refusal := next (s.runLanes n 4 f32Min)

/-- `vx.neg` (R290, R315). -/
def execVxNeg (n : Insn) (s : State) : Host.Outcome State Fault Refusal := next (s.runMap n 1 3 5 f32Neg)

/-- `vx.abs` (R290, R315). -/
def execVxAbs (n : Insn) (s : State) : Host.Outcome State Fault Refusal := next (s.runMap n 1 3 6 f32Abs)

/-- `vx.exp` (R290, R316). -/
def execVxExp (n : Insn) (s : State) : Host.Outcome State Fault Refusal := next (s.runMap n 2 2 0 f32Exp)

/-- `vx.log` (R290, R316). -/
def execVxLog (n : Insn) (s : State) : Host.Outcome State Fault Refusal := next (s.runMap n 2 2 1 f32Log)

/-- `vx.rcp` (R290, R316). -/
def execVxRcp (n : Insn) (s : State) : Host.Outcome State Fault Refusal := next (s.runMap n 2 2 2 f32Rcp)

/-- `vx.rsqrt` (R290, R316). -/
def execVxRsqrt (n : Insn) (s : State) : Host.Outcome State Fault Refusal := next (s.runMap n 2 2 3 f32Rsqrt)

/-- The reductions of opcode 0x003, operation `sub`, in the tree of R322 with the lane as rank. -/
def State.runReduce (s : State) (n : Insn) (sub : Nat) (f : Nat → Nat → Nat) : State :=
  let n := withSub 2 sub n
  s.runInsn n 9 3 { side := .cell, d := .s, a := .v, flags := 3 } (fun s y =>
    .done s (y.put n.d ((treeReduce f 6 ((List.range 64).map (y.lane n.a))).headD 0)) none)

/-- `vx.red`, sum (R322, R323). -/
def execVxRedSum (n : Insn) (s : State) : Host.Outcome State Fault Refusal := next (s.runReduce n 0 f32Add)

/-- `vx.red`, max (R317, R322). -/
def execVxRedMax (n : Insn) (s : State) : Host.Outcome State Fault Refusal := next (s.runReduce n 1 f32Max)

/-- `vx.red`, min (R317, R322). -/
def execVxRedMin (n : Insn) (s : State) : Host.Outcome State Fault Refusal := next (s.runReduce n 2 f32Min)

/-- The FP32 code of an element's value. -/
def elementToF32 (format code : Nat) : Nat :=
  match elementFmt format with
  | some f => toF32 (f.decode code)
  | none => toF32 (FVal.ofInt (signedOf (elementBits format) code))

/-- An element's code from an FP32 code, and whether it was clamped. -/
def elementFromF32 (format x : Nat) : Nat × Bool :=
  match elementFmt format with
  | some f => (f.encode (f32 x), false)
  | none => toSignedInt (elementBits format) (f32 x)

/-- `vx.cvt` (R291, R306, R312). -/
def execVxCvt (n : Insn) (s : State) : Host.Outcome State Fault Refusal :=
  next (s.runInsn n 9 4 { side := .cell, d := .v, a := .v, flags := 1, fmts := [1, 2, 3, 4, 9, 10] } (fun s y =>
    let format := n.fmt.toNat
    let w := elementBits format
    if flagBit n 0 then
      let codes := unpackCodes w 64 ((List.range 64).flatMap (fun l => bytesOf 4 (y.lane n.a l)))
      .done s (y.putLanes n.d (fun l => elementToF32 format (codes.getD l 0))) none
    else
      let r := (List.range 64).map (fun l => elementFromF32 format (y.lane n.a l))
      let bytes := packCodes w (r.map (·.1)) 0
      .done (s.bump Fld.GC_SAT_CNT_COUNT (r.filter (·.2)).length) (y.putLanes n.d (fun l => recGet bytes (4 * l) 4)) none))

/-- Whether 64 elements from an index lie in an accumulator (R289). -/
def accRange (e : Nat) : Bool := decide (e % 64 = 0 ∧ e + 64 ≤ 4096)

/-- `vx.ra`. -/
def execVxRa (n : Insn) (s : State) : Host.Outcome State Fault Refusal :=
  next (s.runInsn n 9 5 { side := .cell, d := .v, a := .a, b := .sOrI } (fun s y =>
    let e := y.num n n.b
    if !accRange e then .fault s 0x04 e
    else .done s (y.putLanes n.d (fun l => y.accGet (n.a.toNat - 0x38) (e + l))) none))

/-- `vx.wa`. -/
def execVxWa (n : Insn) (s : State) : Host.Outcome State Fault Refusal :=
  next (s.runInsn n 9 6 { side := .cell, d := .a, a := .v, b := .sOrI } (fun s y =>
    let e := y.num n n.b
    if !accRange e then .fault s 0x04 e
    else .done s (y.accPut (n.d.toNat - 0x38) e ((List.range 64).map (y.lane n.a))) none))

/-! ### The Cell's list (R189, R190, R292) -/

/-- The entries of a Cell's list. -/
def UnitX.list (y : UnitX) : List Entry := (entriesOf 64 (memBytes y.acc 0xFC00 1024)).filter Entry.valid

/-- A ranked list kept: its 64 best entries, the other slots padded. -/
def UnitX.putList (y : UnitX) (l : List Entry) : UnitX := { y with acc := putBytes 0xFC00 ((padTo 64 l).flatMap entryBytes) y.acc }

/-- The floor; an invalid entry stands for none. -/
def UnitX.floor (y : UnitX) : Entry := entryOf (memBytes y.acc 0xFBF0 16)
def UnitX.putFloor (y : UnitX) (e : Entry) : UnitX := { y with acc := putBytes 0xFBF0 (entryBytes e) y.acc }

/-- Whether an entry ranks below the floor, where one is set. -/
def UnitX.belowFloor (y : UnitX) (e : Entry) : Bool := !y.floor.valid || y.floor.before e

/-- `vx.ins` (R188, R189, R292). -/
def execVxIns (n : Insn) (s : State) : Host.Outcome State Fault Refusal :=
  next (s.runInsn n 9 0x10 { side := .cell, a := .v, b := .sOrI } (fun s y =>
    let shard := (s.get Fld.SEL_SHARD_BASE_BASE + n.unit) % 2 ^ 32
    let values := (List.range 64).map (y.lane n.a)
    let s := s.noteNaN values (s.context n.slot).tenant 0
    let offered : List Entry := values.zipIdx.map (fun e => ⟨e.1, min (y.num n n.b + e.2) 0xFFFFFFFF, shard⟩)
    .done s (y.putList (ranked (y.list ++ offered.filter (fun e => e.valid && y.belowFloor e)))) none))

/-- The lowest Cell of a context in a Comb: rank 0 of R190. -/
def State.combLead (s : State) (slot comb : Nat) : Option Nat := (s.contextUnits slot).find? (fun u => u / 256 = comb)

/-- Whether a Cell may merge another's list (R289): both in one Comb, or the two lowest of the Combs of a Hive. -/
def State.mergeAllowed (s : State) (slot u v : Nat) : Bool :=
  (s.contextUnits slot).contains v && decide (u / 512 = v / 512) &&
    (decide (u / 256 = v / 256) || (s.combLead slot (u / 256) == some u && s.combLead slot (v / 256) == some v))

/-- `vx.lmerge` (R190, R289): an ABSENT Cell of the partition in the same Hive faults with ABSENT, any other Cell that does not fit with
RANGE. -/
def execVxLmerge (n : Insn) (s : State) : Host.Outcome State Fault Refusal :=
  next (s.runInsn n 9 0x11 { side := .cell, a := .s } (fun s y =>
    let v := y.num n n.a
    let named := decide (v / 512 = n.unit / 512) && (s.get (Fld.SCH_PART_COMBS (s.context n.slot).partition)).testBit (v / 256)
    if named && s.cellAbsent v then .fault s 0x0C v
    else if !s.mergeAllowed n.slot n.unit v then .fault s 0x04 v
    else
      let other := if v = n.unit then y else s.unit n.slot v
      .done s (y.putList (ranked (y.list ++ other.list))) none))

/-- `vx.lget`. -/
def execVxLget (n : Insn) (s : State) : Host.Outcome State Fault Refusal :=
  next (s.runInsn n 9 0x12 { side := .cell, d := .s, a := .s } (fun s y =>
    let at_ := y.sreg n.a.toNat
    let l := ranked y.list
    if at_.toNat / 2 ^ 60 ≠ 1 then .fault s 0x03 at_.toNat
    else match s.writing n y at_ 1 ((padTo 64 l).flatMap entryBytes) with
    | .done s z pc => .done s (z.put n.d l.length) pc
    | r => r))

/-- `vx.lnext` (R292): the floor takes the list's last entry, and stays where the list is empty. -/
def execVxLnext (n : Insn) (s : State) : Host.Outcome State Fault Refusal :=
  next (s.runInsn n 9 0x13 { side := .cell } (fun s y =>
    .done s ((match (ranked y.list).getLast? with | some e => y.putFloor e | none => y).putList []) none))

/-- `vx.lclr`. -/
def execVxLclr (n : Insn) (s : State) : Host.Outcome State Fault Refusal :=
  next (s.runInsn n 9 0x14 { side := .cell } (fun s y => .done s ((y.putFloor padding).putList []) none))

end Sys2Proof.Machine
end

