-- ==== Sys2Proof/Machine/Dispatch.lean ====
section
/-! DEFINITION. The dispatch: one arm per constructor of Instr. -/

namespace Sys2Proof.Machine

def exec (i : Instr) (s : State) : Host.Outcome State Fault Refusal :=
  match i with
  | .stallCreate c => Sys2Proof.Machine.execStallCreate c s
  | .stallQuery c => Sys2Proof.Machine.execStallQuery c s
  | .stallConfig c => Sys2Proof.Machine.execStallConfig c s
  | .stallPark c => Sys2Proof.Machine.execStallPark c s
  | .parkWritesDone idx => Sys2Proof.Machine.execParkWritesDone idx s
  | .stallRevive c => Sys2Proof.Machine.execStallRevive c s
  | .reviveReadsDone idx bad tagOk => Sys2Proof.Machine.execReviveReadsDone idx bad tagOk s
  | .reviveRetry idx => Sys2Proof.Machine.execReviveRetry idx s
  | .stallMigrate c => Sys2Proof.Machine.execStallMigrate c s
  | .stallResume c => Sys2Proof.Machine.execStallResume c s
  | .stallRetire c => Sys2Proof.Machine.execStallRetire c s
  | .stallFree c => Sys2Proof.Machine.execStallFree c s
  | .retireHoldExpiry idx => Sys2Proof.Machine.execRetireHoldExpiry idx s
  | .stallForget c => Sys2Proof.Machine.execStallForget c s
  | .booksAudit c => Sys2Proof.Machine.execBooksAudit c s
  | .booksAuditCompare slot => Sys2Proof.Machine.execBooksAuditCompare slot s
  | .waitTimeout idx => Sys2Proof.Machine.execWaitTimeout idx s
  | .journalRecordWrite idx tokens bad => Sys2Proof.Machine.execJournalRecordWrite idx tokens bad s
  | .compositionPoint t drafts => Sys2Proof.Machine.execCompositionPoint t drafts s
  | .layerRelocateDone idx layer => Sys2Proof.Machine.execLayerRelocateDone idx layer s
  | .roundLaunch t => Sys2Proof.Machine.execRoundLaunch t s
  | .roundEnd t => Sys2Proof.Machine.execRoundEnd t s
  | .resultReceived m => Sys2Proof.Machine.execResultReceived m s
  | .announceReceived m => Sys2Proof.Machine.execAnnounceReceived m s
  | .prepareReceived m tagOk => Sys2Proof.Machine.execPrepareReceived m tagOk s
  | .preparedReceived m => Sys2Proof.Machine.execPreparedReceived m s
  | .commitReceived m => Sys2Proof.Machine.execCommitReceived m s
  | .committedReceived m => Sys2Proof.Machine.execCommittedReceived m s
  | .abortReceived m => Sys2Proof.Machine.execAbortReceived m s
  | .sourcePrepLeaseExpiry idx => Sys2Proof.Machine.execSourcePrepLeaseExpiry idx s
  | .sourceCommitLeaseExpiry idx => Sys2Proof.Machine.execSourceCommitLeaseExpiry idx s
  | .destLeaseExpiry idx => Sys2Proof.Machine.execDestLeaseExpiry idx s
  | .ownerQueryRetry idx => Sys2Proof.Machine.execOwnerQueryRetry idx s
  | .leaseRenewSend idx => Sys2Proof.Machine.execLeaseRenewSend idx s
  | .leaseRenewReceived m => Sys2Proof.Machine.execLeaseRenewReceived m s
  | .fetchReceived m => Sys2Proof.Machine.execFetchReceived m s
  | .fetchRefusedReceived m => Sys2Proof.Machine.execFetchRefusedReceived m s
  | .redirectReceived m => Sys2Proof.Machine.execRedirectReceived m s
  | .ownerQueryReceived m => Sys2Proof.Machine.execOwnerQueryReceived m s
  | .ownerAnswerReceived m => Sys2Proof.Machine.execOwnerAnswerReceived m s
  | .orphanTimeout idx => Sys2Proof.Machine.execOrphanTimeout idx s
  | .ownerNoticeReceived m => Sys2Proof.Machine.execOwnerNoticeReceived m s
  | .stCmd n => Sys2Proof.Machine.execStCmd n s
  | .stQuant n => Sys2Proof.Machine.execStQuant n s
  | .stAppend n => Sys2Proof.Machine.execStAppend n s
  | .stRd n => Sys2Proof.Machine.execStRd n s
  | .stLen n => Sys2Proof.Machine.execStLen n s
  | .stCommit n => Sys2Proof.Machine.execStCommit n s
  | .stAbandon n => Sys2Proof.Machine.execStAbandon n s
  | .grMaskReady idx pos => Sys2Proof.Machine.execGrMaskReady idx pos s
  | .outputQueueRoom idx => Sys2Proof.Machine.execOutputQueueRoom idx s
  | .textBind c => Sys2Proof.Machine.execTextBind c s
  | .txCfgWrite w t => Sys2Proof.Machine.execTxCfgWrite w t s
  | .txTWrite w t j => Sys2Proof.Machine.execTxTWrite w t j s
  | .select c => Sys2Proof.Machine.execSelect c s
  | .vsInit c => Sys2Proof.Machine.execVsInit c s
  | .vsInsert c => Sys2Proof.Machine.execVsInsert c s
  | .vsDelete c => Sys2Proof.Machine.execVsDelete c s
  | .vsQuery c => Sys2Proof.Machine.execVsQuery c s
  | .vsMerge c => Sys2Proof.Machine.execVsMerge c s
  | .vsMergeStart slot => Sys2Proof.Machine.execVsMergeStart slot s
  | .vsMergeCommit slot => Sys2Proof.Machine.execVsMergeCommit slot s
  | .memScrub c => Sys2Proof.Machine.execMemScrub c s
  | .shedCompact c => Sys2Proof.Machine.execShedCompact c s
  | .memSpare c => Sys2Proof.Machine.execMemSpare c s
  | .patrolScrubBlock src h p bad => Sys2Proof.Machine.execPatrolScrubBlock src h p bad s
  | .channelCopyDone h => Sys2Proof.Machine.execChannelCopyDone h s
  | .evacTimeExpiry h ch => Sys2Proof.Machine.execEvacTimeExpiry h ch s
  | .shedPortTrain => Sys2Proof.Machine.execShedPortTrain s
  | .shedPortTrainDone p found => Sys2Proof.Machine.execShedPortTrainDone p found s
  | .shedWearMove p => Sys2Proof.Machine.execShedWearMove p s
  | .shedReadDisturbMove p k reads corrected => Sys2Proof.Machine.execShedReadDisturbMove p k reads corrected s
  | .shedScrub p failing => Sys2Proof.Machine.execShedScrub p failing s
  | .pfEnable w => Sys2Proof.Machine.execPfEnable w s
  | .pfLayerStart n selected => Sys2Proof.Machine.execPfLayerStart n selected s
  | .pfObjectArrived k stripes => Sys2Proof.Machine.execPfObjectArrived k stripes s
  | .ctxLoad c => Sys2Proof.Machine.execCtxLoad c s
  | .ctxLaunch c => Sys2Proof.Machine.execCtxLaunch c s
  | .ctxStop c => Sys2Proof.Machine.execCtxStop c s
  | .ctxQuery c => Sys2Proof.Machine.execCtxQuery c s
  | .ctxFree c => Sys2Proof.Machine.execCtxFree c s
  | .contextLaunchAt slot => Sys2Proof.Machine.execContextLaunchAt slot s
  | .runLimitExpiry slot => Sys2Proof.Machine.execRunLimitExpiry slot s
  | .sliceEntryStart p => Sys2Proof.Machine.execSliceEntryStart p s
  | .switchWindowOpen p => Sys2Proof.Machine.execSwitchWindowOpen p s
  | .ctNop n => Sys2Proof.Machine.execCtNop n s
  | .ctBr n => Sys2Proof.Machine.execCtBr n s
  | .ctJmp n => Sys2Proof.Machine.execCtJmp n s
  | .ctCall n => Sys2Proof.Machine.execCtCall n s
  | .ctRet n => Sys2Proof.Machine.execCtRet n s
  | .ctLoop n => Sys2Proof.Machine.execCtLoop n s
  | .ctHalt n => Sys2Proof.Machine.execCtHalt n s
  | .ctTrap n => Sys2Proof.Machine.execCtTrap n s
  | .ctCmp n => Sys2Proof.Machine.execCtCmp n s
  | .ctPlog n => Sys2Proof.Machine.execCtPlog n s
  | .syFence n => Sys2Proof.Machine.execSyFence n s
  | .sySig n => Sys2Proof.Machine.execSySig n s
  | .syWait n => Sys2Proof.Machine.execSyWait n s
  | .tallyWaitTimeout k => Sys2Proof.Machine.execTallyWaitTimeout k s
  | .syAt n => Sys2Proof.Machine.execSyAt n s
  | .syAtResume slot unit => Sys2Proof.Machine.execSyAtResume slot unit s
  | .syYt n => Sys2Proof.Machine.execSyYt n s
  | .mvLi n => Sys2Proof.Machine.execMvLi n s
  | .mvMov n => Sys2Proof.Machine.execMvMov n s
  | .mvAdd n => Sys2Proof.Machine.execMvAdd n s
  | .mvSub n => Sys2Proof.Machine.execMvSub n s
  | .mvMul n => Sys2Proof.Machine.execMvMul n s
  | .mvAnd n => Sys2Proof.Machine.execMvAnd n s
  | .mvOr n => Sys2Proof.Machine.execMvOr n s
  | .mvXor n => Sys2Proof.Machine.execMvXor n s
  | .mvShl n => Sys2Proof.Machine.execMvShl n s
  | .mvShr n => Sys2Proof.Machine.execMvShr n s
  | .mvSra n => Sys2Proof.Machine.execMvSra n s
  | .mvMinu n => Sys2Proof.Machine.execMvMinu n s
  | .mvMaxu n => Sys2Proof.Machine.execMvMaxu n s
  | .mvMins n => Sys2Proof.Machine.execMvMins n s
  | .mvMaxs n => Sys2Proof.Machine.execMvMaxs n s
  | .mvLd n => Sys2Proof.Machine.execMvLd n s
  | .mvSt n => Sys2Proof.Machine.execMvSt n s
  | .mvTile n => Sys2Proof.Machine.execMvTile n s
  | .mvTget n => Sys2Proof.Machine.execMvTget n s
  | .mvCopy n => Sys2Proof.Machine.execMvCopy n s
  | .mvBcast n => Sys2Proof.Machine.execMvBcast n s
  | .mvGetl n => Sys2Proof.Machine.execMvGetl n s
  | .mvSetl n => Sys2Proof.Machine.execMvSetl n s
  | .mvSend n => Sys2Proof.Machine.execMvSend n s
  | .mvRecv n => Sys2Proof.Machine.execMvRecv n s
  | .aisleMessageArrive k => Sys2Proof.Machine.execAisleMessageArrive k s
  | .mxMma n => Sys2Proof.Machine.execMxMma n s
  | .mxLd n => Sys2Proof.Machine.execMxLd n s
  | .mxSt n => Sys2Proof.Machine.execMxSt n s
  | .mxZero n => Sys2Proof.Machine.execMxZero n s
  | .vxFma n => Sys2Proof.Machine.execVxFma n s
  | .vxAdd n => Sys2Proof.Machine.execVxAdd n s
  | .vxSub n => Sys2Proof.Machine.execVxSub n s
  | .vxMul n => Sys2Proof.Machine.execVxMul n s
  | .vxMax n => Sys2Proof.Machine.execVxMax n s
  | .vxMin n => Sys2Proof.Machine.execVxMin n s
  | .vxNeg n => Sys2Proof.Machine.execVxNeg n s
  | .vxAbs n => Sys2Proof.Machine.execVxAbs n s
  | .vxExp n => Sys2Proof.Machine.execVxExp n s
  | .vxLog n => Sys2Proof.Machine.execVxLog n s
  | .vxRcp n => Sys2Proof.Machine.execVxRcp n s
  | .vxRsqrt n => Sys2Proof.Machine.execVxRsqrt n s
  | .vxRedSum n => Sys2Proof.Machine.execVxRedSum n s
  | .vxRedMax n => Sys2Proof.Machine.execVxRedMax n s
  | .vxRedMin n => Sys2Proof.Machine.execVxRedMin n s
  | .vxCvt n => Sys2Proof.Machine.execVxCvt n s
  | .vxRa n => Sys2Proof.Machine.execVxRa n s
  | .vxWa n => Sys2Proof.Machine.execVxWa n s
  | .vxIns n => Sys2Proof.Machine.execVxIns n s
  | .vxLmerge n => Sys2Proof.Machine.execVxLmerge n s
  | .vxLget n => Sys2Proof.Machine.execVxLget n s
  | .vxLnext n => Sys2Proof.Machine.execVxLnext n s
  | .vxLclr n => Sys2Proof.Machine.execVxLclr n s
  | .txTok n => Sys2Proof.Machine.execTxTok n s
  | .txDetok n => Sys2Proof.Machine.execTxDetok n s
  | .txStop n => Sys2Proof.Machine.execTxStop n s
  | .txCall n => Sys2Proof.Machine.execTxCall n s
  | .txBind n => Sys2Proof.Machine.execTxBind n s
  | .grMask n => Sys2Proof.Machine.execGrMask n s
  | .grAdv n => Sys2Proof.Machine.execGrAdv n s
  | .slMerge n => Sys2Proof.Machine.execSlMerge n s
  | .slGather n => Sys2Proof.Machine.execSlGather n s
  | .slDraw n late => Sys2Proof.Machine.execSlDraw n late s
  | .slRand n => Sys2Proof.Machine.execSlRand n s
  | .vsCmd n => Sys2Proof.Machine.execVsCmd n s
  | .nwSend n => Sys2Proof.Machine.execNwSend n s
  | .nwRecv n => Sys2Proof.Machine.execNwRecv n s
  | .nwRecvTimeout slot unit => Sys2Proof.Machine.execNwRecvTimeout slot unit s
  | .scLaunch n => Sys2Proof.Machine.execScLaunch n s
  | .scRound n => Sys2Proof.Machine.execScRound n s
  | .scStop n => Sys2Proof.Machine.execScStop n s
  | .eRequestComplete k => Sys2Proof.Machine.execERequestComplete k s
  | .tenantTeardown c => Sys2Proof.Machine.execTenantTeardown c s
  | .tnCtrlWrite w t => Sys2Proof.Machine.execTnCtrlWrite w t s
  | .schPartWrite w p => Sys2Proof.Machine.execSchPartWrite w p s
  | .schSliceWrite w p e => Sys2Proof.Machine.execSchSliceWrite w p e s
  | .schLatencyWrite w t => Sys2Proof.Machine.execSchLatencyWrite w t s
  | .accountPeriodEnd => Sys2Proof.Machine.execAccountPeriodEnd s
  | .tnPeriodWrite w => Sys2Proof.Machine.execTnPeriodWrite w s
  | .tnGrantWrite w t => Sys2Proof.Machine.execTnGrantWrite w t s
  | .nop c => Sys2Proof.Machine.execNop c s
  | .opQuery c => Sys2Proof.Machine.execOpQuery c s
  | .opSuspend c => Sys2Proof.Machine.execOpSuspend c s
  | .opResume c => Sys2Proof.Machine.execOpResume c s
  | .opCancel c => Sys2Proof.Machine.execOpCancel c s
  | .opRelease c => Sys2Proof.Machine.execOpRelease c s
  | .opSafePoint slot => Sys2Proof.Machine.execOpSafePoint slot s
  | .opHoldExpiry slot => Sys2Proof.Machine.execOpHoldExpiry slot s
  | .tier1Alloc c => Sys2Proof.Machine.execTier1Alloc c s
  | .tier1Free c => Sys2Proof.Machine.execTier1Free c s
  | .tier1Write c => Sys2Proof.Machine.execTier1Write c s
  | .tier1Read c => Sys2Proof.Machine.execTier1Read c s
  | .portDetach c => Sys2Proof.Machine.execPortDetach c s
  | .sqTailDoorbell port q value => Sys2Proof.Machine.execSqTailDoorbell port q value s
  | .cqHeadDoorbell port q value => Sys2Proof.Machine.execCqHeadDoorbell port q value s
  | .qCtrlWrite w q => Sys2Proof.Machine.execQCtrlWrite w q s
  | .queueIdle q => Sys2Proof.Machine.execQueueIdle q s
  | .commandFetch port block => Sys2Proof.Machine.execCommandFetch port block s
  | .msixCoalesceExpiry q => Sys2Proof.Machine.execMsixCoalesceExpiry q s
  | .gcPortBindWrite w n word => Sys2Proof.Machine.execGcPortBindWrite w n word s
  | .hostLinkUp n width rate => Sys2Proof.Machine.execHostLinkUp n width rate s
  | .hostLinkLoss n => Sys2Proof.Machine.execHostLinkLoss n s
  | .functionLevelReset n => Sys2Proof.Machine.execFunctionLevelReset n s
  | .d3hotEntry n => Sys2Proof.Machine.execD3hotEntry n s
  | .d0Return n => Sys2Proof.Machine.execD0Return n s
  | .fatalEvent code => Sys2Proof.Machine.execFatalEvent code s
  | .spdmRequest r => Sys2Proof.Machine.execSpdmRequest r s
  | .tdispLockInterface n => Sys2Proof.Machine.execTdispLockInterface n s
  | .mstDatagramReceive p b => Sys2Proof.Machine.execMstDatagramReceive p b s
  | .ackReceived m => Sys2Proof.Machine.execAckReceived m s
  | .acceptReceived m => Sys2Proof.Machine.execAcceptReceived m s
  | .retransmitTimer k q => Sys2Proof.Machine.execRetransmitTimer k q s
  | .acceptTimer k => Sys2Proof.Machine.execAcceptTimer k s
  | .endpointTimeout t tool => Sys2Proof.Machine.execEndpointTimeout t tool s
  | .waggleReceived m => Sys2Proof.Machine.execWaggleReceived m s
  | .waggleRefuseReceived m => Sys2Proof.Machine.execWaggleRefuseReceived m s
  | .helloSend => Sys2Proof.Machine.execHelloSend s
  | .helloReceived m => Sys2Proof.Machine.execHelloReceived m s
  | .memberMissTimeout d => Sys2Proof.Machine.execMemberMissTimeout d s
  | .portTransmit p => Sys2Proof.Machine.execPortTransmit p s
  | .tsRefillTick => Sys2Proof.Machine.execTsRefillTick s
  | .tsRateWrite w p t k depth => Sys2Proof.Machine.execTsRateWrite w p t k depth s
  | .gateEntryBoundary p => Sys2Proof.Machine.execGateEntryBoundary p s
  | .gateLoad w p => Sys2Proof.Machine.execGateLoad w p s
  | .gateCancel w p => Sys2Proof.Machine.execGateCancel w p s
  | .gateTakeover p => Sys2Proof.Machine.execGateTakeover p s
  | .mapSet c => Sys2Proof.Machine.execMapSet c s
  | .laneSpare c => Sys2Proof.Machine.execLaneSpare c s
  | .netLaneFail p idx => Sys2Proof.Machine.execNetLaneFail p idx s
  | .netLinkUp p => Sys2Proof.Machine.execNetLinkUp p s
  | .netLinkDown p => Sys2Proof.Machine.execNetLinkDown p s
  | .neighborSolicitation p target => Sys2Proof.Machine.execNeighborSolicitation p target s
  | .icmpEchoRequest p dest b => Sys2Proof.Machine.execIcmpEchoRequest p dest b s
  | .ptpMessage m => Sys2Proof.Machine.execPtpMessage m s
  | .macsecFrame p f => Sys2Proof.Machine.execMacsecFrame p f s
  | .ytRun w => Sys2Proof.Machine.execYtRun w s
  | .ytTick => Sys2Proof.Machine.execYtTick s
  | .ppsEdge => Sys2Proof.Machine.execPpsEdge s
  | .ppsMissing => Sys2Proof.Machine.execPpsMissing s
  | .tlHostSig w => Sys2Proof.Machine.execTlHostSig w s
  | .tlBindWrite w k => Sys2Proof.Machine.execTlBindWrite w k s
  | .tlSnapSelWrite w => Sys2Proof.Machine.execTlSnapSelWrite w s
  | .nwFlowSelWrite w => Sys2Proof.Machine.execNwFlowSelWrite w s
  | .secKeyLoad c => Sys2Proof.Machine.execSecKeyLoad c s
  | .secKeyClear c => Sys2Proof.Machine.execSecKeyClear c s
  | .secModelImport c => Sys2Proof.Machine.execSecModelImport c s
  | .secCertLoad c => Sys2Proof.Machine.execSecCertLoad c s
  | .secScrubCert c => Sys2Proof.Machine.execSecScrubCert c s
  | .secRandom c => Sys2Proof.Machine.execSecRandom c s
  | .entropyHealthFail => Sys2Proof.Machine.execEntropyHealthFail s
  | .secCommit w => Sys2Proof.Machine.execSecCommit w s
  | .stlCommit w => Sys2Proof.Machine.execStlCommit w s
  | .schCtxCommit w => Sys2Proof.Machine.execSchCtxCommit w s
  | .nwCommit w => Sys2Proof.Machine.execNwCommit w s
  | .shCommit w => Sys2Proof.Machine.execShCommit w s
  | .pfCommit w => Sys2Proof.Machine.execPfCommit w s
  | .gcPortCommit w => Sys2Proof.Machine.execGcPortCommit w s
  | .ytCommit w => Sys2Proof.Machine.execYtCommit w s
  | .ckCommit w => Sys2Proof.Machine.execCkCommit w s
  | .pwCommit w => Sys2Proof.Machine.execPwCommit w s
  | .cpCommit w => Sys2Proof.Machine.execCpCommit w s
  | .stlDirtyLimitWrite w => Sys2Proof.Machine.execStlDirtyLimitWrite w s
  | .kvShapeWrite w n => Sys2Proof.Machine.execKvShapeWrite w n s
  | .devRstRelease => Sys2Proof.Machine.execDevRstRelease s
  | .romDone r => Sys2Proof.Machine.execRomDone r s
  | .buLoadStart w => Sys2Proof.Machine.execBuLoadStart w s
  | .buLoadDone b => Sys2Proof.Machine.execBuLoadDone b s
  | .buGo w => Sys2Proof.Machine.execBuGo w s
  | .buTrainDone l => Sys2Proof.Machine.execBuTrainDone l s
  | .buTestDone l engines => Sys2Proof.Machine.execBuTestDone l engines s
  | .buReadyReq w => Sys2Proof.Machine.execBuReadyReq w s
  | .buStepTimeout k => Sys2Proof.Machine.execBuStepTimeout k s
  | .monitorWindowEnd x => Sys2Proof.Machine.execMonitorWindowEnd x s
  | .missingEdge k => Sys2Proof.Machine.execMissingEdge k s
  | .ckReturn w => Sys2Proof.Machine.execCkReturn w s
  | .ckRateClr w => Sys2Proof.Machine.execCkRateClr w s
  | .fmeasStart w => Sys2Proof.Machine.execFmeasStart w s
  | .fmeasDone count => Sys2Proof.Machine.execFmeasDone count s
  | .ckPaceWrite w l => Sys2Proof.Machine.execCkPaceWrite w l s
  | .paceTargetChange w d => Sys2Proof.Machine.execPaceTargetChange w d s
  | .pacePoll d mv => Sys2Proof.Machine.execPacePoll d mv s
  | .paceSettleTimeout d => Sys2Proof.Machine.execPaceSettleTimeout d s
  | .avsbusDone d ok => Sys2Proof.Machine.execAvsbusDone d ok s
  | .gateIdleSleep g => Sys2Proof.Machine.execGateIdleSleep g s
  | .gateIdleDeep g => Sys2Proof.Machine.execGateIdleDeep g s
  | .gateWake g => Sys2Proof.Machine.execGateWake g s
  | .gateScheduledWake g => Sys2Proof.Machine.execGateScheduledWake g s
  | .pwarnAssert => Sys2Proof.Machine.execPwarnAssert s
  | .powerSafe => Sys2Proof.Machine.execPowerSafe s
  | .parkLate => Sys2Proof.Machine.execParkLate s
  | .pwarnDeassert => Sys2Proof.Machine.execPwarnDeassert s
  | .pwResumeExpiry => Sys2Proof.Machine.execPwResumeExpiry s
  | .pwrgdFall => Sys2Proof.Machine.execPwrgdFall s
  | .telemetrySample l => Sys2Proof.Machine.execTelemetrySample l s
  | .droopSample l => Sys2Proof.Machine.execDroopSample l s
  | .supplyLimitRelax d => Sys2Proof.Machine.execSupplyLimitRelax d s
  | .overvolt d => Sys2Proof.Machine.execOvervolt d s
  | .brownout d => Sys2Proof.Machine.execBrownout d s
  | .thermalStep l => Sys2Proof.Machine.execThermalStep l s
  | .handshakeTimeout u => Sys2Proof.Machine.execHandshakeTimeout u s
  | .repairWindowRestart => Sys2Proof.Machine.execRepairWindowRestart s
  | .selfTestPeriod bad => Sys2Proof.Machine.execSelfTestPeriod bad s
  | .rpRetire c => Sys2Proof.Machine.execRpRetire c s
  | .selfTest c => Sys2Proof.Machine.execSelfTest c s
  | .rpLogAckWrite w => Sys2Proof.Machine.execRpLogAckWrite w s
  | .cpTake c => Sys2Proof.Machine.execCpTake c s
  | .cpPeriodicTrigger => Sys2Proof.Machine.execCpPeriodicTrigger s
  | .cpFreezeDone => Sys2Proof.Machine.execCpFreezeDone s
  | .cpDrainDone => Sys2Proof.Machine.execCpDrainDone s
  | .cpWriteDone => Sys2Proof.Machine.execCpWriteDone s
  | .cpRestore c => Sys2Proof.Machine.execCpRestore c s
  | .cpRestoreReadsDone bad => Sys2Proof.Machine.execCpRestoreReadsDone bad s
  | .cpMirror c => Sys2Proof.Machine.execCpMirror c s
  | .cpUnmirror c => Sys2Proof.Machine.execCpUnmirror c s
  | .ringHeadWrite w r => Sys2Proof.Machine.execRingHeadWrite w r s
  | .ringCtrlWrite w r => Sys2Proof.Machine.execRingCtrlWrite w r s
  | .evMaskWrite w k => Sys2Proof.Machine.execEvMaskWrite w k s
  | .flagClear w off => Sys2Proof.Machine.execFlagClear w off s
  | .ringCoalesceExpiry r => Sys2Proof.Machine.execRingCoalesceExpiry r s
  | .i3cRead off => Sys2Proof.Machine.execI3cRead off s
  | .registerWrite w off => Sys2Proof.Machine.execRegisterWrite w off s
  | .devRstAssert => Sys2Proof.Machine.execDevRstAssert s
  | .quarantineScrubDone start len => Sys2Proof.Machine.execQuarantineScrubDone start len s
  | .aisleLinkFail h => Sys2Proof.Machine.execAisleLinkFail h s
  | .dramChannelTrainFail h p readable => Sys2Proof.Machine.execDramChannelTrainFail h p readable s
  | .shedPortDown p => Sys2Proof.Machine.execShedPortDown p s
  | .groomPairDisagree p => Sys2Proof.Machine.execGroomPairDisagree p s
  | .tdispStartInterface n => Sys2Proof.Machine.execTdispStartInterface n s
  | .tdispStopInterface n => Sys2Proof.Machine.execTdispStopInterface n s
  | .ptpSourceLoss => Sys2Proof.Machine.execPtpSourceLoss s
  | .mkaLivePeerLoss p => Sys2Proof.Machine.execMkaLivePeerLoss p s
  | .hostCompletionTimeout r => Sys2Proof.Machine.execHostCompletionTimeout r s
  | .cpMirrorCopyDone num => Sys2Proof.Machine.execCpMirrorCopyDone num s
  | .selfTestUnitDone slot u bad => Sys2Proof.Machine.execSelfTestUnitDone slot u bad s
  | .modelImportChunkDone slot b => Sys2Proof.Machine.execModelImportChunkDone slot b s
  | .compactStallDone src idx => Sys2Proof.Machine.execCompactStallDone src idx s

end Sys2Proof.Machine
end

