-- ==== Sys2Proof/WellFormed.lean ====
section
/-! DEFINITION. Which commands are well formed: every port, queue, tenant, slot and unit that a command names is one the device has. -/

namespace Sys2Proof

/-- The number of slots of the stall directory. -/
def stallLimit : Nat := 4194304

/-- Queues 0 to 4,095 of tenants and four management queues (R386, R389); 4,096 context slots (R249) and 128 Hub threads (R235). -/
def Issuer.wf : Issuer → Bool
  | .queue q => decide (q < 4100)
  | .hub slot unit => decide (slot < 4096) && decide (unit < 128)
  | .device => true

/-- A command of a queue or thread that the device has. -/
def Cmd.wf (c : Cmd) : Bool := c.issuer.wf

/-- A write on one of the four host ports (R381). -/
def RegWrite.wf (w : RegWrite) : Bool := decide (w.port < 4)

/-- An instruction of a context slot (R249) and of one of the 8,192 logical Cells or 128 Hub threads (R235). -/
def Insn.wf (n : Insn) : Bool := decide (n.slot < 4096) && decide (n.unit < 8192)

/-- A message whose header fields have their widths (R421). -/
def Msg.wf (m : Msg) : Bool := decide (m.type < 256) && decide (m.src < 65536) && decide (m.dst < 65536) && decide (m.tenant < 256)

/-- A PTP message on one of the eight network ports (R334, R417). -/
def PtpMsg.wf (m : PtpMsg) : Bool := decide (m.port < 8) && decide (m.domain < 256)

/-- A unit of the ranges of R502. -/
def Part.wf : Part → Bool
  | .cell comb physical => decide (comb < 32) && decide (physical < 272)
  | .tally physical => decide (physical < 8704)
  | .groom pair => decide (pair < 2)
  | .key physical => decide (physical < 10)
  | .sequencer i => decide (i < 32)
  | .engine kind i => decide (kind < 256) && decide (i < 256)
  | .hostPort n => decide (n < 4)
  | .aisle hive => decide (hive < 16)

/-- A unit as BU_FOUND names it (R502). -/
def FoundUnit.wf (u : FoundUnit) : Bool := decide (u.kind ≤ 8) && decide (u.hive < 16 ∨ u.hive = 0xFF) && decide (u.unit < 8704) && decide (u.reason < 256)

/-- Well-formed commands. -/
def Instr.wf : Instr → Bool
  | .stallCreate c => c.wf
  | .stallQuery c => c.wf
  | .stallConfig c => c.wf
  | .stallPark c => c.wf
  | .parkWritesDone i => decide (i < stallLimit)
  | .stallRevive c => c.wf
  | .reviveReadsDone i _ _ => decide (i < stallLimit)
  | .reviveRetry i => decide (i < stallLimit)
  | .stallMigrate c => c.wf
  | .stallResume c => c.wf
  | .stallRetire c => c.wf
  | .stallFree c => c.wf
  | .retireHoldExpiry i => decide (i < stallLimit)
  | .stallForget c => c.wf
  | .booksAudit c => c.wf
  | .booksAuditCompare slot => decide (slot < 4096)
  | .waitTimeout i => decide (i < stallLimit)
  | .journalRecordWrite i _ _ => decide (i < stallLimit)
  | .compositionPoint t drafts => decide (t < 256) && drafts.all (fun e => decide (e.1 < stallLimit) && decide (e.2.length ≤ 15))
  | .layerRelocateDone i layer => decide (i < stallLimit) && decide (layer < 256)
  | .roundLaunch t => decide (t < 256)
  | .roundEnd t => decide (t < 256)
  | .resultReceived m => m.wf
  | .announceReceived m => m.wf
  | .prepareReceived m _ => m.wf
  | .preparedReceived m => m.wf
  | .commitReceived m => m.wf
  | .committedReceived m => m.wf
  | .abortReceived m => m.wf
  | .sourcePrepLeaseExpiry i => decide (i < stallLimit)
  | .sourceCommitLeaseExpiry i => decide (i < stallLimit)
  | .destLeaseExpiry i => decide (i < stallLimit)
  | .ownerQueryRetry i => decide (i < stallLimit)
  | .leaseRenewSend i => decide (i < stallLimit)
  | .leaseRenewReceived m => m.wf
  | .fetchReceived m => m.wf
  | .fetchRefusedReceived m => m.wf
  | .redirectReceived m => m.wf
  | .ownerQueryReceived m => m.wf
  | .ownerAnswerReceived m => m.wf
  | .orphanTimeout i => decide (i < stallLimit)
  | .ownerNoticeReceived m => m.wf
  | .stCmd n => n.wf
  | .stQuant n => n.wf
  | .stAppend n => n.wf
  | .stRd n => n.wf
  | .stLen n => n.wf
  | .stCommit n => n.wf
  | .stAbandon n => n.wf
  | .grMaskReady i pos => decide (i < stallLimit) && decide (pos < 17)
  | .outputQueueRoom i => decide (i < stallLimit)
  | .textBind c => c.wf
  | .txCfgWrite w t => w.wf && decide (t < 256)
  | .txTWrite w t j => w.wf && decide (t < 256) && decide (1 ≤ j) && decide (j ≤ 6)
  | .select c => c.wf
  | .vsInit c => c.wf
  | .vsInsert c => c.wf
  | .vsDelete c => c.wf
  | .vsQuery c => c.wf
  | .vsMerge c => c.wf
  | .vsMergeStart slot => decide (slot < 4096)
  | .vsMergeCommit slot => decide (slot < 4096)
  | .memScrub c => c.wf
  | .shedCompact c => c.wf
  | .memSpare c => c.wf
  | .patrolScrubBlock src h p _ => src.all (fun slot => decide (slot < 4096)) && decide (h < 16) && decide (p < 17)
  | .channelCopyDone h => decide (h < 16)
  | .evacTimeExpiry h ch => decide (h < 16) && decide (ch < 16)
  | .shedPortTrain => true
  | .shedPortTrainDone p _ => decide (p < 8)
  | .shedWearMove p => decide (p < 8)
  | .shedReadDisturbMove p _ _ _ => decide (p < 8)
  | .shedScrub p _ => decide (p < 8)
  | .pfEnable w => w.wf
  | .pfLayerStart n _ => decide (n.tenant < 256 ∧ n.layer < 256)
  | .pfObjectArrived k _ => decide (k < 16777216)
  | .ctxLoad c => c.wf
  | .ctxLaunch c => c.wf
  | .ctxStop c => c.wf
  | .ctxQuery c => c.wf
  | .ctxFree c => c.wf
  | .contextLaunchAt slot => decide (slot < 4096)
  | .runLimitExpiry slot => decide (slot < 4096)
  | .sliceEntryStart p => decide (p < 32)
  | .switchWindowOpen p => decide (p < 32)
  | .ctNop n => n.wf
  | .ctBr n => n.wf
  | .ctJmp n => n.wf
  | .ctCall n => n.wf
  | .ctRet n => n.wf
  | .ctLoop n => n.wf
  | .ctHalt n => n.wf
  | .ctTrap n => n.wf
  | .ctCmp n => n.wf
  | .ctPlog n => n.wf
  | .syFence n => n.wf
  | .sySig n => n.wf
  | .syWait n => n.wf
  | .tallyWaitTimeout _ => true
  | .syAt n => n.wf
  | .syAtResume slot unit => decide (slot < 4096) && decide (unit < 8192)
  | .syYt n => n.wf
  | .mvLi n => n.wf
  | .mvMov n => n.wf
  | .mvAdd n => n.wf
  | .mvSub n => n.wf
  | .mvMul n => n.wf
  | .mvAnd n => n.wf
  | .mvOr n => n.wf
  | .mvXor n => n.wf
  | .mvShl n => n.wf
  | .mvShr n => n.wf
  | .mvSra n => n.wf
  | .mvMinu n => n.wf
  | .mvMaxu n => n.wf
  | .mvMins n => n.wf
  | .mvMaxs n => n.wf
  | .mvLd n => n.wf
  | .mvSt n => n.wf
  | .mvTile n => n.wf
  | .mvTget n => n.wf
  | .mvCopy n => n.wf
  | .mvBcast n => n.wf
  | .mvGetl n => n.wf
  | .mvSetl n => n.wf
  | .mvSend n => n.wf
  | .mvRecv n => n.wf
  | .aisleMessageArrive _ => true
  | .mxMma n => n.wf
  | .mxLd n => n.wf
  | .mxSt n => n.wf
  | .mxZero n => n.wf
  | .vxFma n => n.wf
  | .vxAdd n => n.wf
  | .vxSub n => n.wf
  | .vxMul n => n.wf
  | .vxMax n => n.wf
  | .vxMin n => n.wf
  | .vxNeg n => n.wf
  | .vxAbs n => n.wf
  | .vxExp n => n.wf
  | .vxLog n => n.wf
  | .vxRcp n => n.wf
  | .vxRsqrt n => n.wf
  | .vxRedSum n => n.wf
  | .vxRedMax n => n.wf
  | .vxRedMin n => n.wf
  | .vxCvt n => n.wf
  | .vxRa n => n.wf
  | .vxWa n => n.wf
  | .vxIns n => n.wf
  | .vxLmerge n => n.wf
  | .vxLget n => n.wf
  | .vxLnext n => n.wf
  | .vxLclr n => n.wf
  | .txTok n => n.wf
  | .txDetok n => n.wf
  | .txStop n => n.wf
  | .txCall n => n.wf
  | .txBind n => n.wf
  | .grMask n => n.wf
  | .grAdv n => n.wf
  | .slMerge n => n.wf
  | .slGather n => n.wf
  | .slDraw n _ => n.wf
  | .slRand n => n.wf
  | .vsCmd n => n.wf
  | .nwSend n => n.wf
  | .nwRecv n => n.wf
  | .nwRecvTimeout slot unit => decide (slot < 4096) && decide (unit < 8192)
  | .scLaunch n => n.wf
  | .scRound n => n.wf
  | .scStop n => n.wf
  | .eRequestComplete _ => true
  | .tenantTeardown c => c.wf
  | .tnCtrlWrite w t => w.wf && decide (t < 256)
  | .schPartWrite w p => w.wf && decide (p < 32)
  | .schSliceWrite w p e => w.wf && decide (p < 32) && e.all (fun k => decide (k < 16))
  | .schLatencyWrite w t => w.wf && decide (t < 256)
  | .accountPeriodEnd => true
  | .tnPeriodWrite w => w.wf
  | .tnGrantWrite w t => w.wf && decide (t < 256)
  | .nop c => c.wf
  | .opQuery c => c.wf
  | .opSuspend c => c.wf
  | .opResume c => c.wf
  | .opCancel c => c.wf
  | .opRelease c => c.wf
  | .opSafePoint slot => decide (slot < 4096)
  | .opHoldExpiry slot => decide (slot < 4096)
  | .tier1Alloc c => c.wf
  | .tier1Free c => c.wf
  | .tier1Write c => c.wf
  | .tier1Read c => c.wf
  | .portDetach c => c.wf
  | .sqTailDoorbell port q value => decide (port < 4) && decide (q < 4100) && decide (value < 4294967296)
  | .cqHeadDoorbell port q value => decide (port < 4) && decide (q < 4100) && decide (value < 4294967296)
  | .qCtrlWrite w q => w.wf && decide (q < 4100)
  | .queueIdle q => decide (q < 4100)
  | .commandFetch port block => decide (port < 4) && block.all (fun b => decide (b.length = 64))
  | .msixCoalesceExpiry q => decide (q < 4100)
  | .gcPortBindWrite w n word => w.wf && decide (n < 4) && decide (word < 4)
  | .hostLinkUp n width _ => decide (n < 4) && decide (width < 17)
  | .hostLinkLoss n => decide (n < 4)
  | .functionLevelReset n => decide (n < 4)
  | .d3hotEntry n => decide (n < 4)
  | .d0Return n => decide (n < 4)
  | .fatalEvent code => decide (code < 65536)
  | .spdmRequest r => decide (r.port < 4)
  | .tdispLockInterface n => decide (n < 4)
  | .mstDatagramReceive p b => decide (p < 8) && decide (b.length ≤ 8320)
  | .ackReceived m => m.wf
  | .acceptReceived m => m.wf
  | .retransmitTimer _ _ => true
  | .acceptTimer _ => true
  | .endpointTimeout t _ => decide (t < 256)
  | .waggleReceived m => m.wf
  | .waggleRefuseReceived m => m.wf
  | .helloSend => true
  | .helloReceived m => m.wf
  | .memberMissTimeout d => decide (d < 65536)
  | .portTransmit p => decide (p < 8)
  | .tsRefillTick => true
  | .tsRateWrite w p t k _ => w.wf && decide (p < 8) && decide (t < 256) && decide (k < 8)
  | .gateEntryBoundary p => decide (p < 8)
  | .gateLoad w p => w.wf && decide (p < 8)
  | .gateCancel w p => w.wf && decide (p < 8)
  | .gateTakeover p => decide (p < 8)
  | .mapSet c => c.wf
  | .laneSpare c => c.wf
  | .netLaneFail p i => decide (p < 8) && decide (i < 4)
  | .netLinkUp p => decide (p < 8)
  | .netLinkDown p => decide (p < 8)
  | .neighborSolicitation p _ => decide (p < 8)
  | .icmpEchoRequest p _ _ => decide (p < 8)
  | .ptpMessage m => m.wf
  | .macsecFrame p _ => decide (p < 8)
  | .ytRun w => w.wf
  | .ytTick => true
  | .ppsEdge => true
  | .ppsMissing => true
  | .tlHostSig w => w.wf
  | .tlBindWrite w k => w.wf && decide (k < 8192)
  | .tlSnapSelWrite w => w.wf
  | .nwFlowSelWrite w => w.wf
  | .secKeyLoad c => c.wf
  | .secKeyClear c => c.wf
  | .secModelImport c => c.wf
  | .secCertLoad c => c.wf
  | .secScrubCert c => c.wf
  | .secRandom c => c.wf
  | .entropyHealthFail => true
  | .secCommit w => w.wf
  | .stlCommit w => w.wf
  | .schCtxCommit w => w.wf
  | .nwCommit w => w.wf
  | .shCommit w => w.wf
  | .pfCommit w => w.wf
  | .gcPortCommit w => w.wf
  | .ytCommit w => w.wf
  | .ckCommit w => w.wf
  | .pwCommit w => w.wf
  | .cpCommit w => w.wf
  | .stlDirtyLimitWrite w => w.wf
  | .kvShapeWrite w n => w.wf && decide (n < 16)
  | .devRstRelease => true
  | .romDone r => r.lost.all (fun k => decide (k < 3)) && r.silent.all (fun b => decide (b < 3))
  | .buLoadStart w => w.wf
  | .buLoadDone _ => true
  | .buGo w => w.wf
  | .buTrainDone l => l.all FoundUnit.wf
  | .buTestDone l engines => l.all FoundUnit.wf && engines.all (fun e => decide (e < 65536))
  | .buReadyReq w => w.wf
  | .buStepTimeout k => decide (k < 9)
  | .monitorWindowEnd x => decide (x.counts.length = 5) && x.stable.all (fun k => decide (k < 5))
  | .missingEdge k => decide (k < 5)
  | .ckReturn w => w.wf
  | .ckRateClr w => w.wf
  | .fmeasStart w => w.wf
  | .fmeasDone count => decide (count < 18446744073709551616)
  | .ckPaceWrite w l => w.wf && decide (l < 8)
  | .paceTargetChange w d => w.wf && decide (d < 17)
  | .pacePoll d _ => decide (d < 17)
  | .paceSettleTimeout d => decide (d < 17)
  | .avsbusDone d _ => decide (d < 17)
  | .gateIdleSleep g => decide (g < 37)
  | .gateIdleDeep g => decide (g < 37)
  | .gateWake g => decide (g < 37)
  | .gateScheduledWake g => decide (g < 37)
  | .pwarnAssert => true
  | .powerSafe => true
  | .parkLate => true
  | .pwarnDeassert => true
  | .pwResumeExpiry => true
  | .pwrgdFall => true
  | .telemetrySample l => l.all (fun r => decide (r.rail < 22))
  | .droopSample l => l.all (fun e => decide (e.1 < 17))
  | .supplyLimitRelax d => decide (d < 17)
  | .overvolt d => decide (d < 17)
  | .brownout d => decide (d < 17)
  | .thermalStep l => l.all (fun e => decide (e.1 < 17))
  | .handshakeTimeout u => u.wf
  | .repairWindowRestart => true
  | .selfTestPeriod bad => bad.all Part.wf
  | .rpRetire c => c.wf
  | .selfTest c => c.wf
  | .rpLogAckWrite w => w.wf
  | .cpTake c => c.wf
  | .cpPeriodicTrigger => true
  | .cpFreezeDone => true
  | .cpDrainDone => true
  | .cpWriteDone => true
  | .cpRestore c => c.wf
  | .cpRestoreReadsDone _ => true
  | .cpMirror c => c.wf
  | .cpUnmirror c => c.wf
  | .ringHeadWrite w r => w.wf && decide (r < 260)
  | .ringCtrlWrite w r => w.wf && decide (r < 260)
  | .evMaskWrite w k => w.wf && decide (k < 64)
  | .flagClear w off => w.wf && decide (off < 268435456)
  | .ringCoalesceExpiry r => decide (r < 260)
  | .i3cRead off => decide (off < 268435456)
  | .registerWrite w off => w.wf && decide (off < 268435456)
  | .devRstAssert => true
  | .quarantineScrubDone start len => decide (0 < len) && decide (start + len ≤ 2 ^ 28)
  | .aisleLinkFail h => decide (h < 16)
  | .dramChannelTrainFail h p _ => decide (h < 16) && decide (p < 17)
  | .shedPortDown p => decide (p < 8)
  | .groomPairDisagree p => decide (p < 2)
  | .tdispStartInterface n => decide (n < 4)
  | .tdispStopInterface n => decide (n < 4)
  | .ptpSourceLoss => true
  | .mkaLivePeerLoss p => decide (p < 8)
  | .hostCompletionTimeout r => (match r with | .fetch q | .record q => decide (q < 4100) | .data c => c.wf)
  | .cpMirrorCopyDone _ => true
  | .selfTestUnitDone slot u _ => decide (slot < 4096) && u.wf
  | .modelImportChunkDone slot _ => decide (slot < 4096)
  | .compactStallDone src i => src.all (fun slot => decide (slot < 4096)) && decide (i < stallLimit)

end Sys2Proof
end

