-- ==== Sys2Proof/Safety.lean ====
section
/-! DEFINITION. What a safe step is, in the terms claims use: the canonical forms that the state keeps, and which fields of the state may
differ between two states. -/

namespace Sys2Proof.Safety

open Sys2Proof.Machine

/-- A step that goes on. -/
def Steps (s t : State) : Prop := step s = .next t

/-- The state after `n` steps; none where one of them stops. -/
def runFor : Nat → State → Option State
  | 0, s => some s
  | n + 1, s => match step s with
    | .next t => runFor n t
    | _ => none

/-- The register file and Tier 1's bytes in canonical form: keys strictly rising, and no entry equal to what an unlisted one reads as. -/
def Canonical (s : State) : Prop := sparseWf regReset s.io.regs = true ∧ Memory.wf s.t1.bytes = true

/-- Every waiting command is well formed. -/
def QueueWf (s : State) : Prop := ∀ c ∈ s.pending, Instr.wf c = true

/-- The fields of the state beside the queue of commands: its fields, by name. -/
inductive StateField where
  | io | yt | t1 | shed | prefetch | stalls | units | ops | mirrors | redirects | cp | cpSlots | contexts | answers | windows | tallies | aisle | textCache | rounds | parts | svChanged | periodEnd | emptyRaised | satPages | net | sec | ck | pw | bu | tear | tests | allocStopped | freeIdx
deriving DecidableEq, Repr

/-- Whether two states agree in a field. -/
def StateField.same (p : StateField) (s t : State) : Prop :=
  match p with
  | .io => t.io = s.io
  | .yt => t.yt = s.yt
  | .t1 => t.t1 = s.t1
  | .shed => t.shed = s.shed
  | .prefetch => t.prefetch = s.prefetch
  | .stalls => t.stalls = s.stalls
  | .units => t.units = s.units
  | .ops => t.ops = s.ops
  | .mirrors => t.mirrors = s.mirrors
  | .redirects => t.redirects = s.redirects
  | .cp => t.cp = s.cp
  | .cpSlots => t.cpSlots = s.cpSlots
  | .contexts => t.contexts = s.contexts
  | .answers => t.answers = s.answers
  | .windows => t.windows = s.windows
  | .tallies => t.tallies = s.tallies
  | .aisle => t.aisle = s.aisle
  | .textCache => t.textCache = s.textCache
  | .rounds => t.rounds = s.rounds
  | .parts => t.parts = s.parts
  | .svChanged => t.svChanged = s.svChanged
  | .periodEnd => t.periodEnd = s.periodEnd
  | .emptyRaised => t.emptyRaised = s.emptyRaised
  | .satPages => t.satPages = s.satPages
  | .net => t.net = s.net
  | .sec => t.sec = s.sec
  | .ck => t.ck = s.ck
  | .pw => t.pw = s.pw
  | .bu => t.bu = s.bu
  | .tear => t.tear = s.tear
  | .tests => t.tests = s.tests
  | .allocStopped => t.allocStopped = s.allocStopped
  | .freeIdx => t.freeIdx = s.freeIdx

/-- `t` differs from `s` in the fields of `l` only; the queue of commands is the same. -/
def Only (l : List StateField) (s t : State) : Prop := (∀ p, p ∉ l → p.same s t) ∧ t.pending = s.pending

/-! ### When a command or a register write goes on -/

/-- A command goes on to its own effect: its FENCE does not wait and it fails none of the checks of R396 and R454. -/
def Accepted (s : State) (c : Cmd) (kind : QueueKind) (enFree : Bool) : Prop := s.fenceWaits c = false ∧ s.gate c kind enFree = none

/-- The same for a command that a checkpoint holds in its queue (R585): where it came from a queue, none is being taken. -/
def AcceptedHeld (s : State) (c : Cmd) (kind : QueueKind) (enFree : Bool) : Prop :=
  Accepted s c kind enFree ∧ ((∃ q, c.issuer = .queue q) → s.freezing = false)

/-- A command on a stall gets as far as its effect on slot `i` (R635, steps 1, 2 and 4): it is accepted, its handle names the slot, the
stall engine is enabled, and the stall is no index with storage on an ABSENT Hive (R568). -/
def OnStall (s : State) (c : Cmd) (i : Nat) (remoteOk : Bool) : Prop :=
  AcceptedHeld s c .tenant false ∧ s.checkHandle ((s.issuerTenant c.issuer).getD 0) c.handle.toNat remoteOk = .ok i ∧
    s.on Fld.STL_CTRL_EN = true ∧ s.indexLost i = false

/-- A port may write a register: its memory requests are answered (R385), the register is open in the bring-up state (R514), and the port
reaches it (R384). -/
def MayWrite (s : State) (w : RegWrite) (off : Nat) : Prop :=
  s.ideBlocked w.port = false ∧ (s.get Fld.BU_STATE_STATE = 8 → off < 0x400000 ∨ (0x440000 ≤ off ∧ off < 0x450000)) ∧ s.reaches w.port off = true

/-! ### What a command may write -/

/-- A Trondi instruction: its unit, and what the fault or the end of its context releases: the fields that it may write. -/
abbrev touchesInsn : List StateField := [.io, .yt, .t1, .shed, .stalls, .units, .ops, .mirrors, .redirects, .cp, .cpSlots, .contexts, .answers, .tallies, .textCache, .rounds, .svChanged, .net, .sec]
/-- An engine of the Hub at work for a step: the fields that it may write. -/
abbrev touchesEngine : List StateField := [.io, .yt, .t1, .shed, .prefetch, .stalls, .units, .ops, .mirrors, .redirects, .cp, .cpSlots, .contexts, .answers, .tallies, .textCache, .rounds, .svChanged, .net]
/-- A message of a transfer of a stall: the fields that it may write. -/
abbrev touchesTransfer : List StateField := [.io, .t1, .shed, .stalls, .ops, .mirrors, .answers, .textCache, .net]
/-- A Trondi instruction that reaches memory: the fields that it may write. -/
abbrev touchesInsnMem : List StateField := [.io, .yt, .t1, .shed, .prefetch, .stalls, .units, .ops, .mirrors, .redirects, .cp, .cpSlots, .contexts, .answers, .tallies, .textCache, .rounds, .svChanged, .net, .sec]
/-- A command about a stall: the fields that it may write. -/
abbrev touchesStallCmd : List StateField := [.io, .t1, .shed, .stalls, .units, .ops, .mirrors, .contexts, .answers, .textCache, .net]
/-- The end of an exchange about a stall: the fields that it may write. -/
abbrev touchesStallEnd : List StateField := [.io, .t1, .shed, .stalls, .units, .ops, .mirrors, .contexts, .answers, .tallies, .textCache, .net, .sec, .tear]
/-- A reset, or the end of a training: the fields that it may write. -/
abbrev touchesAll : List StateField := [.io, .yt, .t1, .shed, .prefetch, .stalls, .units, .ops, .mirrors, .redirects, .cp, .cpSlots, .contexts, .answers, .windows, .tallies, .aisle, .textCache, .rounds, .parts, .svChanged, .periodEnd, .emptyRaised, .satPages, .net, .sec, .ck, .pw, .bu, .tear, .tests, .allocStopped, .freeIdx]
/-- A command whose reads may find and poison pages of a stall: the fields that it may write. -/
abbrev touchesReads : List StateField := [.io, .yt, .t1, .shed, .prefetch, .stalls, .units, .ops, .mirrors, .redirects, .cp, .cpSlots, .contexts, .answers, .tallies, .textCache, .rounds, .svChanged, .emptyRaised, .net]
/-- A launch or an end of a context: the fields that it may write. -/
abbrev touchesLaunch : List StateField := [.io, .t1, .shed, .stalls, .units, .ops, .mirrors, .contexts, .answers, .tallies, .textCache, .rounds, .net]
/-- A Trondi instruction that may also find or lose what a prefetch holds: the fields that it may write. -/
abbrev touchesInsnCell : List StateField := [.io, .yt, .t1, .shed, .prefetch, .stalls, .units, .ops, .mirrors, .redirects, .cp, .cpSlots, .contexts, .answers, .windows, .tallies, .textCache, .rounds, .svChanged, .net, .sec]
/-- The loss of a unit: the fields that it may write. -/
abbrev touchesLoss : List StateField := [.io, .yt, .t1, .shed, .stalls, .units, .ops, .mirrors, .redirects, .cp, .cpSlots, .contexts, .answers, .tallies, .textCache, .rounds, .svChanged, .net, .sec, .freeIdx]
/-- What the power of the chip does: the fields that it may write. -/
abbrev touchesSag : List StateField := [.io, .yt, .ops, .cp, .ck, .pw]

/-- The fields of the state that a command may write, by its row: every effect, completion, event and fault that the spec gives it is in them. -/
def touches : Instr → List StateField
  | .stallCreate _ => [.io, .t1, .stalls, .answers, .freeIdx]
  | .stallQuery _ => touchesEngine
  | .stallConfig _ => touchesStallCmd
  | .stallPark _ => touchesStallCmd
  | .parkWritesDone _ => [.io, .yt, .t1, .shed, .prefetch, .stalls, .units, .ops, .mirrors, .redirects, .cp, .cpSlots, .contexts, .answers, .tallies, .textCache, .rounds, .svChanged, .net, .sec, .tear]
  | .stallRevive _ => touchesStallCmd
  | .reviveReadsDone _ _ _ => [.io, .t1, .shed, .stalls, .answers, .textCache]
  | .reviveRetry _ => [.io, .t1, .stalls, .answers]
  | .stallMigrate _ => touchesStallCmd
  | .stallResume _ => touchesStallCmd
  | .stallRetire _ => touchesStallCmd
  | .stallFree _ => touchesStallCmd
  | .retireHoldExpiry _ => [.io, .t1, .shed, .stalls]
  | .stallForget _ => touchesStallCmd
  | .booksAudit _ => [.io, .ops, .answers, .allocStopped]
  | .booksAuditCompare _ => [.io, .ops, .answers, .allocStopped]
  | .waitTimeout _ => [.t1, .stalls]
  | .journalRecordWrite _ _ _ => touchesEngine
  | .compositionPoint _ _ => touchesReads
  | .layerRelocateDone _ _ => touchesEngine
  | .roundLaunch _ => touchesLaunch
  | .roundEnd _ => [.io, .t1, .prefetch, .units, .contexts, .answers, .tallies, .rounds]
  | .resultReceived _ => touchesTransfer
  | .announceReceived _ => [.io, .t1, .stalls, .answers, .net]
  | .prepareReceived _ _ => [.io, .t1, .shed, .stalls, .answers, .textCache, .net]
  | .preparedReceived _ => [.stalls, .net]
  | .commitReceived _ => [.io, .t1, .shed, .stalls, .answers, .net]
  | .committedReceived _ => touchesStallEnd
  | .abortReceived _ => touchesStallEnd
  | .sourcePrepLeaseExpiry _ => [.io, .stalls, .ops, .answers, .net]
  | .sourceCommitLeaseExpiry _ => touchesStallEnd
  | .destLeaseExpiry _ => [.io, .t1, .shed, .stalls, .answers, .net]
  | .ownerQueryRetry _ => touchesStallEnd
  | .leaseRenewSend _ => [.stalls, .net]
  | .leaseRenewReceived _ => [.stalls]
  | .fetchReceived _ => [.io, .t1, .shed, .stalls, .answers, .textCache, .net]
  | .fetchRefusedReceived _ => [.io, .stalls, .answers]
  | .redirectReceived _ => [.stalls, .net]
  | .ownerQueryReceived _ => touchesTransfer
  | .ownerAnswerReceived _ => touchesStallEnd
  | .orphanTimeout _ => touchesStallEnd
  | .ownerNoticeReceived _ => touchesTransfer
  | .stCmd _ => [.io, .yt, .t1, .shed, .prefetch, .stalls, .units, .ops, .mirrors, .redirects, .cp, .cpSlots, .contexts, .answers, .tallies, .textCache, .rounds, .svChanged, .net, .sec, .allocStopped, .freeIdx]
  | .stQuant _ => [.io, .yt, .t1, .shed, .prefetch, .stalls, .units, .ops, .mirrors, .redirects, .cp, .cpSlots, .contexts, .answers, .windows, .tallies, .textCache, .rounds, .svChanged, .satPages, .net, .sec]
  | .stAppend _ => touchesInsnMem
  | .stRd _ => touchesInsnCell
  | .stLen _ => touchesInsn
  | .stCommit _ => touchesInsn
  | .stAbandon _ => touchesInsn
  | .grMaskReady _ _ => touchesEngine
  | .outputQueueRoom _ => touchesTransfer
  | .textBind _ => touchesStallCmd
  | .txCfgWrite _ _ => [.io, .textCache]
  | .txTWrite _ _ _ => [.io, .textCache]
  | .select _ => touchesEngine
  | .vsInit _ => [.io, .t1, .stalls, .answers]
  | .vsInsert _ => touchesEngine
  | .vsDelete _ => touchesEngine
  | .vsQuery _ => touchesReads
  | .vsMerge _ => [.io, .ops, .answers]
  | .vsMergeStart _ => [.io, .t1, .stalls, .ops, .answers]
  | .vsMergeCommit _ => touchesReads
  | .memScrub _ => [.io, .t1, .ops, .answers]
  | .shedCompact _ => [.io, .ops, .answers]
  | .memSpare _ => touchesEngine
  | .patrolScrubBlock _ _ _ _ => touchesEngine
  | .channelCopyDone _ => [.io, .t1, .units]
  | .evacTimeExpiry _ _ => [.io, .t1, .shed, .prefetch, .stalls, .units, .ops, .mirrors, .redirects, .cp, .cpSlots, .contexts, .answers, .tallies, .textCache, .rounds, .svChanged, .net]
  | .shedPortTrain => [.shed]
  | .shedPortTrainDone _ _ => [.io, .shed, .cpSlots, .svChanged]
  | .shedWearMove _ => [.io, .t1, .shed]
  | .shedReadDisturbMove _ _ _ _ => [.io, .shed]
  | .shedScrub _ _ => [.io, .shed]
  | .pfEnable _ => touchesEngine
  | .pfLayerStart _ _ => touchesEngine
  | .pfObjectArrived _ _ => [.io, .t1, .prefetch]
  | .ctxLoad _ => [.io, .yt, .t1, .shed, .prefetch, .stalls, .units, .ops, .mirrors, .redirects, .cp, .cpSlots, .contexts, .answers, .windows, .tallies, .textCache, .rounds, .svChanged, .net]
  | .ctxLaunch _ => [.io, .contexts, .answers]
  | .ctxStop _ => [.io, .t1, .shed, .stalls, .units, .ops, .mirrors, .contexts, .answers, .tallies, .textCache, .rounds, .parts, .net]
  | .ctxQuery _ => [.io, .t1, .answers]
  | .ctxFree _ => [.io, .t1, .contexts, .answers, .windows, .aisle]
  | .contextLaunchAt _ => touchesLaunch
  | .runLimitExpiry _ => touchesLaunch
  | .sliceEntryStart _ => [.io, .t1, .shed, .stalls, .units, .ops, .mirrors, .contexts, .answers, .tallies, .textCache, .rounds, .parts, .net]
  | .switchWindowOpen _ => [.io, .t1, .units, .contexts, .tallies, .net]
  | .ctNop _ => touchesInsn
  | .ctBr _ => touchesInsn
  | .ctJmp _ => touchesInsn
  | .ctCall _ => touchesInsn
  | .ctRet _ => touchesInsn
  | .ctLoop _ => touchesInsn
  | .ctHalt _ => [.io, .yt, .t1, .shed, .stalls, .units, .ops, .mirrors, .redirects, .cp, .cpSlots, .contexts, .answers, .tallies, .textCache, .rounds, .parts, .svChanged, .net, .sec]
  | .ctTrap _ => touchesInsn
  | .ctCmp _ => touchesInsn
  | .ctPlog _ => touchesInsn
  | .syFence _ => touchesInsn
  | .sySig _ => touchesInsn
  | .syWait _ => touchesInsn
  | .tallyWaitTimeout _ => [.io, .units, .contexts, .tallies]
  | .syAt _ => touchesInsn
  | .syAtResume _ _ => [.units, .contexts]
  | .syYt _ => touchesInsn
  | .mvLi _ => touchesInsn
  | .mvMov _ => touchesInsn
  | .mvAdd _ => touchesInsn
  | .mvSub _ => touchesInsn
  | .mvMul _ => touchesInsn
  | .mvAnd _ => touchesInsn
  | .mvOr _ => touchesInsn
  | .mvXor _ => touchesInsn
  | .mvShl _ => touchesInsn
  | .mvShr _ => touchesInsn
  | .mvSra _ => touchesInsn
  | .mvMinu _ => touchesInsn
  | .mvMaxu _ => touchesInsn
  | .mvMins _ => touchesInsn
  | .mvMaxs _ => touchesInsn
  | .mvLd _ => touchesInsnMem
  | .mvSt _ => touchesInsnCell
  | .mvTile _ => touchesInsn
  | .mvTget _ => touchesInsn
  | .mvCopy _ => [.io, .yt, .t1, .shed, .prefetch, .stalls, .units, .ops, .mirrors, .redirects, .cp, .cpSlots, .contexts, .answers, .windows, .tallies, .textCache, .rounds, .svChanged, .net, .sec, .freeIdx]
  | .mvBcast _ => touchesInsn
  | .mvGetl _ => touchesInsn
  | .mvSetl _ => touchesInsn
  | .mvSend _ => [.io, .yt, .t1, .shed, .prefetch, .stalls, .units, .ops, .mirrors, .redirects, .cp, .cpSlots, .contexts, .answers, .tallies, .aisle, .textCache, .rounds, .svChanged, .net, .sec]
  | .mvRecv _ => [.io, .yt, .t1, .shed, .prefetch, .stalls, .units, .ops, .mirrors, .redirects, .cp, .cpSlots, .contexts, .answers, .windows, .tallies, .aisle, .textCache, .rounds, .svChanged, .net, .sec]
  | .aisleMessageArrive _ => [.io, .yt, .t1, .shed, .prefetch, .stalls, .units, .ops, .mirrors, .redirects, .cp, .cpSlots, .contexts, .answers, .windows, .tallies, .aisle, .textCache, .rounds, .svChanged, .net]
  | .mxMma _ => touchesInsnMem
  | .mxLd _ => touchesInsnMem
  | .mxSt _ => [.io, .yt, .t1, .shed, .stalls, .units, .ops, .mirrors, .redirects, .cp, .cpSlots, .contexts, .answers, .windows, .tallies, .textCache, .rounds, .svChanged, .net, .sec, .freeIdx]
  | .mxZero _ => touchesInsn
  | .vxFma _ => touchesInsn
  | .vxAdd _ => touchesInsn
  | .vxSub _ => touchesInsn
  | .vxMul _ => touchesInsn
  | .vxMax _ => touchesInsn
  | .vxMin _ => touchesInsn
  | .vxNeg _ => touchesInsn
  | .vxAbs _ => touchesInsn
  | .vxExp _ => touchesInsn
  | .vxLog _ => touchesInsn
  | .vxRcp _ => touchesInsn
  | .vxRsqrt _ => touchesInsn
  | .vxRedSum _ => touchesInsn
  | .vxRedMax _ => touchesInsn
  | .vxRedMin _ => touchesInsn
  | .vxCvt _ => touchesInsn
  | .vxRa _ => touchesInsn
  | .vxWa _ => touchesInsn
  | .vxIns _ => [.io, .yt, .t1, .shed, .prefetch, .stalls, .units, .ops, .mirrors, .redirects, .cp, .cpSlots, .contexts, .answers, .tallies, .textCache, .rounds, .svChanged, .emptyRaised, .net, .sec]
  | .vxLmerge _ => touchesInsn
  | .vxLget _ => touchesInsnCell
  | .vxLnext _ => touchesInsn
  | .vxLclr _ => touchesInsn
  | .txTok _ => touchesInsnMem
  | .txDetok _ => touchesInsn
  | .txStop _ => touchesInsn
  | .txCall _ => touchesInsn
  | .txBind _ => touchesInsnMem
  | .grMask _ => touchesInsn
  | .grAdv _ => touchesInsn
  | .slMerge _ => touchesInsnMem
  | .slGather _ => touchesInsnMem
  | .slDraw _ _ => touchesInsnMem
  | .slRand _ => touchesInsn
  | .vsCmd _ => [.io, .yt, .t1, .shed, .prefetch, .stalls, .units, .ops, .mirrors, .redirects, .cp, .cpSlots, .contexts, .answers, .tallies, .textCache, .rounds, .svChanged, .emptyRaised, .net, .sec]
  | .nwSend _ => [.io, .yt, .t1, .shed, .prefetch, .stalls, .units, .ops, .mirrors, .redirects, .cp, .cpSlots, .contexts, .answers, .tallies, .textCache, .rounds, .svChanged, .net, .sec, .freeIdx]
  | .nwRecv _ => touchesLoss
  | .nwRecvTimeout _ _ => [.units, .contexts, .net, .freeIdx]
  | .scLaunch _ => touchesInsn
  | .scRound _ => touchesInsnMem
  | .scStop _ => [.io, .yt, .t1, .shed, .stalls, .units, .ops, .mirrors, .redirects, .cp, .cpSlots, .contexts, .answers, .tallies, .textCache, .rounds, .parts, .svChanged, .net, .sec]
  | .eRequestComplete _ => [.t1, .units, .contexts, .answers]
  | .tenantTeardown _ => [.io, .t1, .shed, .stalls, .units, .ops, .mirrors, .contexts, .answers, .windows, .tallies, .aisle, .textCache, .rounds, .net, .sec, .tear]
  | .tnCtrlWrite _ _ => [.io]
  | .schPartWrite _ _ => [.io, .t1, .svChanged]
  | .schSliceWrite _ _ _ => [.io, .parts]
  | .schLatencyWrite _ _ => [.io]
  | .accountPeriodEnd => [.io, .stalls, .periodEnd, .emptyRaised]
  | .tnPeriodWrite _ => [.io]
  | .tnGrantWrite _ _ => [.io]
  | .nop _ => [.io, .answers]
  | .opQuery _ => [.io, .answers, .freeIdx]
  | .opSuspend _ => [.io, .ops, .answers]
  | .opResume _ => [.io, .yt, .t1, .shed, .stalls, .ops, .cp, .answers, .textCache, .net, .allocStopped]
  | .opCancel _ => [.io, .t1, .shed, .stalls, .units, .ops, .mirrors, .cp, .cpSlots, .contexts, .answers, .tallies, .textCache, .rounds, .net, .sec, .tests, .allocStopped]
  | .opRelease _ => [.io, .ops, .answers]
  | .opSafePoint _ => [.io, .t1, .shed, .stalls, .units, .ops, .mirrors, .cp, .cpSlots, .contexts, .answers, .tallies, .textCache, .rounds, .net, .sec, .tests, .allocStopped]
  | .opHoldExpiry _ => [.ops]
  | .tier1Alloc _ => [.io, .t1, .answers]
  | .tier1Free _ => [.io, .t1, .answers]
  | .tier1Write _ => [.io, .t1, .answers]
  | .tier1Read _ => touchesEngine
  | .portDetach _ => [.io, .t1, .ops, .answers, .sec]
  | .sqTailDoorbell _ _ _ => [.io]
  | .cqHeadDoorbell _ _ _ => [.io]
  | .qCtrlWrite _ _ => [.io]
  | .queueIdle _ => [.io]
  | .commandFetch _ _ => [.io, .answers]
  | .msixCoalesceExpiry _ => [.io]
  | .gcPortBindWrite _ _ _ => [.io]
  | .hostLinkUp _ _ _ => [.io]
  | .hostLinkLoss _ => [.io, .sec]
  | .functionLevelReset _ => [.io, .sec]
  | .d3hotEntry _ => [.io]
  | .d0Return _ => [.io, .sec]
  | .fatalEvent _ => [.io]
  | .spdmRequest _ => [.io, .sec, .freeIdx]
  | .tdispLockInterface _ => [.io]
  | .mstDatagramReceive _ _ => [.io, .t1, .shed, .stalls, .units, .ops, .mirrors, .contexts, .answers, .textCache, .parts, .net, .freeIdx]
  | .ackReceived _ => touchesTransfer
  | .acceptReceived _ => touchesTransfer
  | .retransmitTimer _ _ => [.net]
  | .acceptTimer _ => [.net]
  | .endpointTimeout _ _ => [.io, .net]
  | .waggleReceived _ => [.io, .t1, .shed, .stalls, .ops, .mirrors, .answers, .textCache, .rounds, .net]
  | .waggleRefuseReceived _ => touchesTransfer
  | .helloSend => [.net]
  | .helloReceived _ => touchesTransfer
  | .memberMissTimeout _ => touchesTransfer
  | .portTransmit _ => [.io, .net, .sec, .freeIdx]
  | .tsRefillTick => [.net]
  | .tsRateWrite _ _ _ _ _ => [.io, .net]
  | .gateEntryBoundary _ => [.io]
  | .gateLoad _ _ => [.io, .net]
  | .gateCancel _ _ => [.io, .net]
  | .gateTakeover _ => [.io, .net]
  | .mapSet _ => touchesTransfer
  | .laneSpare _ => [.io, .units, .answers, .svChanged, .net]
  | .netLaneFail _ _ => [.io, .units, .answers, .svChanged, .net]
  | .netLinkUp _ => [.io, .answers, .net]
  | .netLinkDown _ => [.io, .net]
  | .neighborSolicitation _ _ => [.io]
  | .icmpEchoRequest _ _ _ => [.io]
  | .ptpMessage _ => [.io, .yt, .freeIdx]
  | .macsecFrame _ _ => [.io, .sec]
  | .ytRun _ => [.io, .yt, .periodEnd]
  | .ytTick => [.yt]
  | .ppsEdge => [.io, .yt, .freeIdx]
  | .ppsMissing => [.io]
  | .tlHostSig _ => [.io, .units, .contexts, .tallies]
  | .tlBindWrite _ _ => [.io, .units, .contexts, .tallies]
  | .tlSnapSelWrite _ => [.io]
  | .nwFlowSelWrite _ => [.io]
  | .secKeyLoad _ => [.io, .t1, .answers, .sec]
  | .secKeyClear _ => [.io, .shed, .answers, .sec]
  | .secModelImport _ => [.io, .shed, .ops, .answers, .sec]
  | .secCertLoad _ => [.io, .answers, .sec]
  | .secScrubCert _ => [.io, .t1, .answers]
  | .secRandom _ => [.io, .t1, .answers, .freeIdx]
  | .entropyHealthFail => [.io]
  | .secCommit _ => [.io, .sec]
  | .stlCommit _ => [.io, .t1]
  | .schCtxCommit _ => [.io, .t1]
  | .nwCommit _ => [.io, .t1, .net]
  | .shCommit _ => [.io]
  | .pfCommit _ => touchesEngine
  | .gcPortCommit _ => [.io]
  | .ytCommit _ => [.io, .yt, .periodEnd]
  | .ckCommit _ => [.io, .freeIdx]
  | .pwCommit _ => [.io]
  | .cpCommit _ => [.io]
  | .stlDirtyLimitWrite _ => [.io]
  | .kvShapeWrite _ _ => [.io]
  | .devRstRelease => touchesAll
  | .romDone _ => touchesAll
  | .buLoadStart _ => [.io, .bu]
  | .buLoadDone _ => [.io, .bu]
  | .buGo _ => [.io, .sec, .bu, .freeIdx]
  | .buTrainDone _ => [.io, .bu, .freeIdx]
  | .buTestDone _ _ => touchesAll
  | .buReadyReq _ => [.io, .sec, .bu, .freeIdx]
  | .buStepTimeout _ => touchesAll
  | .monitorWindowEnd _ => [.io, .yt, .net, .sec, .ck]
  | .missingEdge _ => [.io, .yt, .net, .sec, .ck]
  | .ckReturn _ => [.io, .freeIdx]
  | .ckRateClr _ => [.io, .freeIdx]
  | .fmeasStart _ => [.io]
  | .fmeasDone _ => [.io]
  | .ckPaceWrite _ _ => [.io]
  | .paceTargetChange _ _ => [.io, .ck]
  | .pacePoll _ _ => [.io, .ck]
  | .paceSettleTimeout _ => [.io, .ck]
  | .avsbusDone _ _ => [.io, .ck]
  | .gateIdleSleep _ => [.io]
  | .gateIdleDeep _ => [.io]
  | .gateWake _ => [.io]
  | .gateScheduledWake _ => [.io]
  | .pwarnAssert => [.io, .t1, .shed, .stalls, .units, .ops, .mirrors, .cp, .cpSlots, .contexts, .answers, .tallies, .textCache, .rounds, .net]
  | .powerSafe => [.io, .shed, .stalls]
  | .parkLate => [.io]
  | .pwarnDeassert => [.io, .pw]
  | .pwResumeExpiry => touchesEngine
  | .pwrgdFall => touchesAll
  | .telemetrySample _ => [.io, .ck, .pw]
  | .droopSample _ => touchesSag
  | .supplyLimitRelax _ => [.io, .ck, .pw]
  | .overvolt _ => touchesSag
  | .brownout _ => [.io]
  | .thermalStep _ => touchesSag
  | .handshakeTimeout _ => touchesInsn
  | .repairWindowRestart => [.io, .units]
  | .selfTestPeriod _ => touchesInsn
  | .rpRetire _ => touchesLoss
  | .selfTest _ => [.io, .ops, .answers, .tests]
  | .rpLogAckWrite _ => [.io]
  | .cpTake _ => [.io, .yt, .ops, .cp, .answers]
  | .cpPeriodicTrigger => [.io, .yt, .ops, .cp]
  | .cpFreezeDone => [.io, .yt, .t1, .units, .cp, .contexts, .tallies, .net]
  | .cpDrainDone => [.io, .shed, .cp, .cpSlots]
  | .cpWriteDone => [.io, .t1, .shed, .stalls, .units, .ops, .mirrors, .cp, .cpSlots, .contexts, .answers, .tallies, .textCache, .rounds, .net]
  | .cpRestore _ => [.io, .ops, .cp, .answers, .freeIdx]
  | .cpRestoreReadsDone _ => [.io, .t1, .shed, .stalls, .ops, .mirrors, .redirects, .cp, .answers, .textCache, .net]
  | .cpMirror _ => [.io, .t1, .mirrors, .answers]
  | .cpUnmirror _ => [.io, .mirrors, .answers]
  | .ringHeadWrite _ _ => [.io]
  | .ringCtrlWrite _ _ => [.io]
  | .evMaskWrite _ _ => [.io]
  | .flagClear _ _ => [.io]
  | .ringCoalesceExpiry _ => [.io]
  | .i3cRead _ => [.io]
  | .registerWrite _ _ => [.io, .yt, .t1, .shed, .prefetch, .stalls, .units, .ops, .mirrors, .redirects, .cp, .cpSlots, .contexts, .answers, .tallies, .textCache, .rounds, .parts, .svChanged, .periodEnd, .net, .sec, .ck, .bu, .freeIdx]
  | .devRstAssert => touchesAll
  | .quarantineScrubDone _ _ => touchesStallEnd
  | .aisleLinkFail _ => touchesLoss
  | .dramChannelTrainFail _ _ _ => touchesEngine
  | .shedPortDown _ => [.io, .shed, .stalls, .svChanged]
  | .groomPairDisagree _ => touchesInsn
  | .tdispStartInterface _ => [.io]
  | .tdispStopInterface _ => [.io]
  | .ptpSourceLoss => [.io, .yt]
  | .mkaLivePeerLoss _ => [.io, .sec]
  | .hostCompletionTimeout _ => [.io, .answers]
  | .cpMirrorCopyDone _ => [.io, .t1, .mirrors, .answers]
  | .selfTestUnitDone _ _ _ => [.io, .yt, .t1, .shed, .stalls, .units, .ops, .mirrors, .redirects, .cp, .cpSlots, .contexts, .answers, .tallies, .textCache, .rounds, .svChanged, .net, .sec, .tests]
  | .modelImportChunkDone _ _ => [.io, .shed, .ops, .answers, .sec]
  | .compactStallDone _ _ => touchesEngine

/-! ### When a Trondi instruction executes -/

/-- The word, the class, the opcode and the operand kinds of a Trondi instruction, as the tables of R280 to R303 and R340 give them; none for
another command. -/
def trondi : Instr → Option (Insn × Nat × Nat × Shape)
  | .ctNop n => some (n, 0x01, 0, {})
  | .ctBr n => some (n, 0x01, 1, { imm := true, ok := branchOk n })
  | .ctJmp n => some (n, 0x01, 2, { a := .s })
  | .ctCall n => some (n, 0x01, 3, { imm := true, ok := branchOk n })
  | .ctRet n => some (n, 0x01, 4, {})
  | .ctLoop n => some (n, 0x01, 5, { d := .s, imm := true, ok := branchOk n })
  | .ctHalt n => some (n, 0x01, 6, { imm := true })
  | .ctTrap n => some (n, 0x01, 7, { imm := true })
  | .ctCmp n => some (n, 0x01, 8, { d := .p, a := .s, b := .sOrI, flags := 7, ok := decide (n.flags.toNat % 8 < 6) })
  | .ctPlog n => some (n, 0x01, 9, { d := .p, a := .p, b := .p, flags := 3 })
  | .syFence n => some (n, 0x02, 0, {})
  | .sySig n => some (n, 0x02, 1, { d := .s, a := .s, b := .sOrI })
  | .syWait n => some (n, 0x02, 2, { d := .s, a := .s, b := .sOrI, c := .s })
  | .syAt n => some (n, 0x02, 3, { d := .s, a := .sOrI })
  | .syYt n => some (n, 0x02, 4, { d := .s })
  | .mvLi n => some (n, 0x04, 0, { d := .s, imm := true })
  | .mvMov n => some (n, 0x04, 1, { d := movKind n.d.toNat, a := movKind n.d.toNat })
  | .mvAdd n => some (withSub 4 0 n, 0x04, 2, aluShape)
  | .mvSub n => some (withSub 4 1 n, 0x04, 2, aluShape)
  | .mvMul n => some (withSub 4 2 n, 0x04, 2, aluShape)
  | .mvAnd n => some (withSub 4 3 n, 0x04, 2, aluShape)
  | .mvOr n => some (withSub 4 4 n, 0x04, 2, aluShape)
  | .mvXor n => some (withSub 4 5 n, 0x04, 2, aluShape)
  | .mvShl n => some (withSub 4 6 n, 0x04, 2, aluShape)
  | .mvShr n => some (withSub 4 7 n, 0x04, 2, aluShape)
  | .mvSra n => some (withSub 4 8 n, 0x04, 2, aluShape)
  | .mvMinu n => some (withSub 4 9 n, 0x04, 2, aluShape)
  | .mvMaxu n => some (withSub 4 10 n, 0x04, 2, aluShape)
  | .mvMins n => some (withSub 4 11 n, 0x04, 2, aluShape)
  | .mvMaxs n => some (withSub 4 12 n, 0x04, 2, aluShape)
  | .mvLd n => some (n, 0x04, 3, { d := if n.flags.toNat % 8 ≤ 3 then .s else .v, a := .s, imm := true, flags := if n.flags.toNat % 8 ≤ 2 then 15 else 7, ok := decide (n.flags.toNat % 8 < 6) })
  | .mvSt n => some (n, 0x04, 4, { a := .s, b := if n.flags.toNat % 8 ≤ 3 then .s else .v, imm := true, flags := 7, ok := decide (n.flags.toNat % 8 < 6) })
  | .mvTile n => some (n, 0x04, 5, { d := .t, a := .s, b := .s })
  | .mvTget n => some (n, 0x04, 6, { d := .s, a := .t, flags := 1 })
  | .mvCopy n => some (n, 0x04, 7, { d := .t, a := .t })
  | .mvBcast n => some (n, 0x04, 8, { d := .v, a := .s })
  | .mvGetl n => some (n, 0x04, 9, { d := .s, a := .v, imm := true, ok := decide (n.imm.toNat < 64) })
  | .mvSetl n => some (n, 0x04, 10, { d := .v, a := .s, imm := true, ok := decide (n.imm.toNat < 64) })
  | .mvSend n => some (n, 0x04, 11, { a := .s, b := .sOrI, c := .s })
  | .mvRecv n => some (n, 0x04, 12, { a := .s, b := .sOrI, c := .s, flags := 1, imm := true })
  | .mxMma n => some (n, 0x08, 0, { side := .cell, d := .a, a := .t, b := .t, flags := 3, fmts := [1, 2, 3, 4, 5, 6, 7, 8, 9, 10, 12] })
  | .mxLd n => some (n, 0x08, 1, { side := .cell, d := .a, a := .t })
  | .mxSt n => some (n, 0x08, 2, { side := .cell, d := .t, a := .a })
  | .mxZero n => some (n, 0x08, 3, { side := .cell, d := .a })
  | .vxFma n => some (n, 0x09, 0, { side := .cell, d := .v, a := .v, b := .vOrS, c := .v })
  | .vxAdd n => some (withSub 3 0 n, 0x09, 1, laneShape)
  | .vxSub n => some (withSub 3 1 n, 0x09, 1, laneShape)
  | .vxMul n => some (withSub 3 2 n, 0x09, 1, laneShape)
  | .vxMax n => some (withSub 3 3 n, 0x09, 1, laneShape)
  | .vxMin n => some (withSub 3 4 n, 0x09, 1, laneShape)
  | .vxNeg n => some (withSub 3 5 n, 0x09, 1, { side := .cell, d := .v, a := .v, flags := 7 })
  | .vxAbs n => some (withSub 3 6 n, 0x09, 1, { side := .cell, d := .v, a := .v, flags := 7 })
  | .vxExp n => some (withSub 2 0 n, 0x09, 2, { side := .cell, d := .v, a := .v, flags := 3 })
  | .vxLog n => some (withSub 2 1 n, 0x09, 2, { side := .cell, d := .v, a := .v, flags := 3 })
  | .vxRcp n => some (withSub 2 2 n, 0x09, 2, { side := .cell, d := .v, a := .v, flags := 3 })
  | .vxRsqrt n => some (withSub 2 3 n, 0x09, 2, { side := .cell, d := .v, a := .v, flags := 3 })
  | .vxRedSum n => some (withSub 2 0 n, 0x09, 3, { side := .cell, d := .s, a := .v, flags := 3 })
  | .vxRedMax n => some (withSub 2 1 n, 0x09, 3, { side := .cell, d := .s, a := .v, flags := 3 })
  | .vxRedMin n => some (withSub 2 2 n, 0x09, 3, { side := .cell, d := .s, a := .v, flags := 3 })
  | .vxCvt n => some (n, 0x09, 4, { side := .cell, d := .v, a := .v, flags := 1, fmts := [1, 2, 3, 4, 9, 10] })
  | .vxRa n => some (n, 0x09, 5, { side := .cell, d := .v, a := .a, b := .sOrI })
  | .vxWa n => some (n, 0x09, 6, { side := .cell, d := .a, a := .v, b := .sOrI })
  | .vxIns n => some (n, 0x09, 0x10, { side := .cell, a := .v, b := .sOrI })
  | .vxLmerge n => some (n, 0x09, 0x11, { side := .cell, a := .s })
  | .vxLget n => some (n, 0x09, 0x12, { side := .cell, d := .s, a := .s })
  | .vxLnext n => some (n, 0x09, 0x13, { side := .cell })
  | .vxLclr n => some (n, 0x09, 0x14, { side := .cell })
  | .stCmd n => some (n, 0x10, 0, { side := .hub, d := .sPair, a := .s, b := .s })
  | .stQuant n => some (n, 0x10, 1, { side := .cell, d := .s, a := .s, b := .s, c := .s, imm := true })
  | .stAppend n => some (n, 0x10, 2, { side := .cell, d := .s, a := .s, c := .s })
  | .stRd n => some (n, 0x10, 3, { side := .cell, d := .s, a := .s, b := .s, c := .s, flags := 1, imm := true })
  | .stLen n => some (n, 0x10, 4, { d := .sPair, c := .s, flags := 3, imm := true })
  | .stCommit n => some (n, 0x10, 5, { side := .hub, d := .s, a := .s, b := .s, c := .s, imm := true })
  | .stAbandon n => some (n, 0x10, 6, { side := .hub, d := .s, c := .s })
  | .txTok n => some (n, 0x18, 0, { side := .hub, d := .s, a := .s, b := if flagBit n 0 then .unused else .sOrI, c := .s, flags := 1 })
  | .txDetok n => some (n, 0x18, 1, { side := .hub, d := .sPair, a := .s, b := .s, c := .s })
  | .txStop n => some (n, 0x18, 2, { side := .hub, d := .sPair, a := .s, c := .s })
  | .txCall n => some (n, 0x18, 3, { side := .hub, d := .sPair, a := .s, c := .s })
  | .txBind n => some (n, 0x18, 4, { side := .hub, d := .s, a := .s })
  | .grMask n => some (n, 0x19, 0, { side := .hub, d := .sPair, a := .s, b := .s, c := .s, flags := 1 })
  | .grAdv n => some (n, 0x19, 1, { side := .hub, d := .s, a := .s, c := .s })
  | .slMerge n => some (n, 0x1A, 0, { side := .hub, d := .sPair, a := .s })
  | .slGather n => some (n, 0x1A, 1, { side := .hub, d := .s, a := .s, b := .s, c := .s, imm := true })
  | .slDraw n _ => some (n, 0x1A, 2, { side := .hub, d := .sPair, a := .s, b := .s, c := .s, flags := 1, imm := true })
  | .slRand n => some (n, 0x1A, 3, { side := .hub, d := .sPair, a := .s, b := .s, c := .s, imm := true })
  | .vsCmd n => some (n, 0x1B, 0, { side := .hub, d := .sPair, a := .s, b := .s })
  | .nwSend n => some (n, 0x20, 0, { side := .hub, d := .s, a := .s, b := .sOrI, c := .s, imm := true })
  | .nwRecv n => some (n, 0x20, 1, { side := .hub, d := .sPair, a := .s, b := .sOrI, c := .s })
  | .scLaunch n => some (n, 0x21, 0, { side := .hub, d := .sPair, a := .s, b := .sOrI, c := .s })
  | .scRound n => some (n, 0x21, 1, { side := .hub, d := .sPair, a := .s, b := .sOrI })
  | .scStop n => some (n, 0x21, 2, { side := .hub, d := .s, a := .s })
  | _ => none
where
  aluShape : Shape := { d := .s, a := .s, b := .sOrI, flags := 15 }
  laneShape : Shape := { side := .cell, d := .v, a := .v, b := .vOrS, flags := 7 }

/-- What an instruction finds when it executes: the state after what the check bits of its unit's SRAM show (R565). -/
def seen (n : Insn) (cls : Nat) (s : State) : State :=
  if (s.context n.slot).hub || n.ecc = 0 || cls = 2 then s else s.cellEcc n.unit n.ecc

/-- A Trondi instruction gets past the fetch: its unit issues, the PC is inside the code, and the word there is this instruction's (R255, R269). -/
def Fetches (n : Insn) (cls op : Nat) (s : State) : Prop :=
  s.canIssue n = true ∧ (s.unit n.slot n.unit).pc + 16 ≤ (s.context n.slot).codeBytes ∧ (s.unit n.slot n.unit).pc % 16 = 0 ∧
    s.fetchWord n.slot n.unit = .ok (insnWord cls op n)

/-- A Trondi instruction executes: it is fetched, allowed in its context, encoded as its table says, its predicate holds, none of its registers
waits for an answer, and its unit's check bits show nothing that stops the context (R255, R256, R275, R278, R565). -/
def Executes (i : Instr) (s : State) : Prop :=
  match trondi i with
  | none => False
  | some (n, cls, op, sh) =>
    Fetches n cls op s ∧ sideOk (s.context n.slot).hub sh.side = true ∧ staticOk (s.context n.slot).hub sh n = true ∧
      predicateOn (s.unit n.slot n.unit) n = true ∧
      (touched sh n).any (fun r => (s.unit n.slot n.unit).reqs.any (fun q => (pendingRegs q).contains r)) = false ∧
      ((seen n cls s).context n.slot).state = .running

/-- What an instruction's own effect leaves: it retires, with the next PC after its word where it names none; it holds, also while a weight is read
again (R126); or its context faults. `y` is its unit when it executed (R255, R258, R276). -/
def didEnd (n : Insn) (cls op : Nat) (y : UnitX) : Did → State
  | .done t z pc => t.retire n.slot n.unit (pc.getD (y.pc + 16)) z
  | .hold t => t
  | .fault t cause addr => if cause = rereadWait then t else t.faultContext n.slot n.unit cause addr (insnWord cls op n)

/-- A Hub thread's unit `y` with one more engine request waiting for its answer (R278). -/
def asking (n : Insn) (y : UnitX) (pair : Bool) (c : Cmd) (recordAt : Option Nat) (s : State) : State :=
  s.setUnit n.slot n.unit { y with reqs := y.reqs ++ [⟨n.d.toNat, pair, coreOf c, recordAt⟩] }

/-- What an instruction that handed its request to an engine leaves, `y` its unit when it executed: it retires; the answer comes later. -/
def issuedAt (n : Insn) (y : UnitX) (s : State) : State := s.retire n.slot n.unit (y.pc + 16) (s.unit n.slot n.unit)

end Sys2Proof.Safety
end

