-- ==== Sys2Proof/Certificates/Slice0/Obligations.lean ====
section
/-! DEFINITION. The statements for the provers: what commands and the whole block do, by the rules of the spec. -/

open Sys2Proof Sys2Proof.Machine Sys2Proof.Safety

/-- The queue of commands: the front one runs with the rest; an empty queue idles (the model's own queue: log entry 1). -/
def Obligations.StepRunsFrontCommand : Prop :=
  (∀ (c : Instr) (rest : List Instr) (s : State), step { s with pending := c :: rest } = exec c { s with pending := rest }) ∧
    (∀ s : State, s.pending = [] → step s = .next s)

/-- Every step keeps the canonical forms, whichever of the 338 commands runs. -/
def Obligations.CanonicalFormsKept : Prop := ∀ s t : State, Canonical s → Steps s t → Canonical t

/-- From every canonical state the waiting commands are worked off, one a step, and none of them stops the block. -/
def Obligations.EveryQueueDrains : Prop :=
  ∀ s : State, Canonical s → ∃ t, runFor s.pending.length s = some t ∧ t.pending = [] ∧ Canonical t

/-- The frame of all 338 rows: what no row's list names is as before. -/
def Obligations.CommandsWriteTheirFieldsOnly : Prop := ∀ (c : Instr) (s t : State), exec c s = .next t → Only (touches c) s t

/-- The block never stops: a bad command is answered, a bad instruction faults its context, and both are next states. -/
def Obligations.NoCommandStops : Prop := ∀ (c : Instr) (s : State), ∃ t, exec c s = .next t

/-- A step takes the front command and leaves the queue's rest as it is. -/
def Obligations.StepTakesOneCommand : Prop :=
  ∀ s t : State, Steps s t → t.pending = s.pending.tail ∧ (QueueWf s → QueueWf t)

/-- The invariants hold at power-up. -/
def Obligations.CanonicalAtReset : Prop := Canonical State.reset ∧ QueueWf State.reset ∧ State.reset.pending = []

/-- The checks that every command of a queue meets before its own (R392, R396, R454). -/
def Obligations.QueueChecksInOrder : Prop :=
  ∀ (c : Cmd) (kind : QueueKind) (free : Bool) (body : State → State) (s : State) (q : Nat), c.issuer = .queue q →
    (s.fenceWaits c = true → s.runCmd c kind free body = s) ∧
    (s.fenceWaits c = false → q < 4096 → s.get (Fld.TN_CTRL_EN (q / 16)) = 0 → free = false → s.runCmd c kind free body = s.complete c CS.notReady) ∧
    (s.fenceWaits c = false → q < 4096 → (s.get (Fld.TN_CTRL_EN (q / 16)) = 1 ∨ free = true) → s.portAllowed (q / 16) (s.io.queuePort q) = false →
      s.runCmd c kind free body = (s.raise { code := 0x0C06, tenant := some (q / 16), subject := s.io.queuePort q }).complete c CS.notOwner) ∧
    (s.fenceWaits c = false → q < 4096 → (s.get (Fld.TN_CTRL_EN (q / 16)) = 1 ∨ free = true) → s.portAllowed (q / 16) (s.io.queuePort q) = true →
      (kind = .mgmt ∨ 2 ≤ c.flags.toNat) → s.runCmd c kind free body = s.complete c CS.badCommand) ∧
    (s.fenceWaits c = false → q < 4096 → (s.get (Fld.TN_CTRL_EN (q / 16)) = 1 ∨ free = true) → s.portAllowed (q / 16) (s.io.queuePort q) = true →
      kind ≠ .mgmt → c.flags.toNat < 2 → s.runCmd c kind free body = body s) ∧
    (s.fenceWaits c = false → 4096 ≤ q → (kind = .tenant ∨ 2 ≤ c.flags.toNat) → s.runCmd c kind free body = s.complete c CS.badCommand) ∧
    (s.fenceWaits c = false → 4096 ≤ q → kind ≠ .tenant → c.flags.toNat < 2 → s.runCmd c kind free body = body s)

/-- What a checkpoint holds (R585). -/
def Obligations.CheckpointHoldsQueuedCommands : Prop :=
  ∀ (c : Cmd) (kind : QueueKind) (free : Bool) (body : State → State) (s : State),
    (∀ q, c.issuer = .queue q → 1 ≤ s.get Fld.CP_STATUS_PHASE → s.get Fld.CP_STATUS_PHASE ≤ 4 → s.runHeld c kind free body = s) ∧
    ((s.get Fld.CP_STATUS_PHASE = 0 ∨ 4 < s.get Fld.CP_STATUS_PHASE) → s.runHeld c kind free body = s.runCmd c kind free body) ∧
    (∀ slot unit, c.issuer = .hub slot unit → s.runHeld c kind free body = s.runCmd c kind free body)

/-- NOP and the commands on long operations (R398, R407, R410). -/
def Obligations.OperationCommands : Prop :=
  ∀ (c : Cmd) (s : State) (k : Nat),
    (Accepted s c .both true → exec (.nop c) s = .next (s.complete c CS.ok s.now)) ∧
    (Accepted s c .both false → s.checkOpHandle c = .ok k →
      exec (.opQuery c) s = .next ((s.opProgress k).2.complete c CS.ok ((s.op k).st.code + 256 * (s.op k).opcode) (s.opProgress k).1 (s.op k).changedYt) ∧
      ((s.op k).opcode = 0xA2 → s.opProgress k = ((s.op k).progress, s)) ∧ ((s.op k).opcode ≠ 0xA2 → (s.opProgress k).1 ≤ 1000) ∧
      (neverSuspended (s.op k).opcode = false → (s.op k).st = .queued →
        exec (.opSuspend c) s = .next ((s.moveOp k .suspended).complete c CS.suspended)) ∧
      (neverSuspended (s.op k).opcode = false → (s.op k).st = .running → s.opHasSafePoint k = true → ∃ t, exec (.opSuspend c) s = .next t ∧
        (t.op k).st = .suspending ∧ (t.op k).suspendCmd = some (coreOf c) ∧ t.io = s.io) ∧
      ((neverSuspended (s.op k).opcode = true ∨ ((s.op k).st ≠ .queued ∧ (s.op k).st ≠ .running)) →
        exec (.opSuspend c) s = .next (s.complete c CS.notReady (s.op k).st.code)) ∧
      ((s.op k).st = .suspended → exec (.opResume c) s =
        .next (((s.moveOp k (if (s.op k).started then .running else .queued)).opResumed k).complete c CS.ok)) ∧
      ((s.op k).st ≠ .suspended → exec (.opResume c) s = .next (s.complete c CS.notReady (s.op k).st.code)) ∧
      ((s.op k).st = .suspending → (s.op k).cancelCmd = none →
        exec (.opCancel c) s = .next (s.setOp k { s.op k with cancelCmd := some (coreOf c) })) ∧
      ((s.op k).st ∈ [OpState.queued, .running, .suspended, .resuming] → s.opCancellable k = true →
        exec (.opCancel c) s = .next ((s.setOp k { s.op k with cancelCmd := some (coreOf c) }).cancelOp k)) ∧
      ((s.op k).st ∈ [OpState.queued, .running, .suspended, .resuming] → s.opCancellable k = false →
        exec (.opCancel c) s = .next (s.complete c CS.notReady (s.op k).st.code)) ∧
      ((s.op k).st ∈ [OpState.done, .cancelled, .failed] → exec (.opRelease c) s = .next ((s.freeOp k).complete c CS.ok)) ∧
      ((s.op k).st ∉ [OpState.done, .cancelled, .failed] → exec (.opRelease c) s = .next (s.complete c CS.notReady (s.op k).st.code))) ∧
    (∀ e, Accepted s c .both false → s.checkOpHandle c = .error e → ∀ i ∈ [Instr.opQuery c, .opSuspend c, .opResume c, .opCancel c, .opRelease c],
      exec i s = .next (s.complete c e)) ∧
    (∀ d, (s.op k).live = true → (s.op k).st = .suspending → s.opHasSafePoint k = true → (s.op k).cancelCmd = none → (s.op k).suspendCmd = some d →
      exec (.opSafePoint k) s = .next
        (((((s.moveOp k .suspended).setOp k { (s.moveOp k .suspended).op k with suspendCmd := none }).complete d CS.suspended)).opSuspended k)) ∧
    ((s.op k).live = true → (s.op k).st = .suspending → s.opHasSafePoint k = true → (s.op k).cancelCmd = none → (s.op k).suspendCmd = none →
      exec (.opSafePoint k) s = .next (((s.moveOp k .suspended).setOp k { (s.moveOp k .suspended).op k with suspendCmd := none }).opSuspended k)) ∧
    (∀ d, (s.op k).live = true → (s.op k).st = .suspending → (s.op k).cancelCmd = some d → s.opCancellable k = true →
      let v := match (s.op k).suspendCmd with | some e => s.complete e CS.notReady OpState.cancelling.code | none => s
      exec (.opSafePoint k) s = .next ((v.setOp k { v.op k with suspendCmd := none }).cancelOp k)) ∧
    ((s.op k).live = true → (s.op k).st.ended = true → (s.op k).endYt + s.get Fld.GC_OP_HOLD_NS ≤ s.now →
      exec (.opHoldExpiry k) s = .next (s.freeOp k)) ∧
    (((s.op k).st.ended = false ∨ s.now < (s.op k).endYt + s.get Fld.GC_OP_HOLD_NS) → exec (.opHoldExpiry k) s = .next s)

/-- Tier 1 from the host (R399, R400). -/
def Obligations.HostMemoryCommands : Prop :=
  ∀ (c : Cmd) (s : State), AcceptedHeld s c .tenant false →
    let t := (s.issuerTenant c.issuer).getD 0
    let a := c.addrA.toNat
    let b := c.addrB.toNat
    (∀ h, opByte c 32 = h → h < 16 → s.partitionHive t h = true → s.allocStopped = false → 0 < opU32 c 36 → opU32 c 36 ≤ channelGranules →
      (opByte c 33).testBit 0 = false →
      (∀ g u, s.alloc h (opU32 c 36) 1 (.tenant t none) = some (g, u) → exec (.tier1Alloc c) s = .next (u.complete c CS.ok (4096 * g))) ∧
      (s.alloc h (opU32 c 36) 1 (.tenant t none) = none → exec (.tier1Alloc c) s = .next (s.complete c CS.noResource))) ∧
    (s.allocStopped = false → 0 < opU32 c 36 → opU32 c 36 ≤ channelGranules →
      let model := (opByte c 33).testBit 0
      let owner := Owner.tenant t (if model = true then some (s.get (Fld.TN_CTRL_MODEL t)) else none)
      (model = true → s.get (Fld.TN_CTRL_MODEL_EN t) = 0 → exec (.tier1Alloc c) s = .next (s.complete c CS.badCommand)) ∧
      (∀ h, (model = true → s.get (Fld.TN_CTRL_MODEL_EN t) = 1) → (opByte c 32 = 0xFF ∧ s.roomiest (s.partitionHive t) = some h ∨
          opByte c 32 = h ∧ h < 16 ∧ s.partitionHive t h = true) →
        (∀ g u, s.alloc h (opU32 c 36) 1 owner = some (g, u) → exec (.tier1Alloc c) s = .next (u.complete c CS.ok (4096 * g))) ∧
        (s.alloc h (opU32 c 36) 1 owner = none → exec (.tier1Alloc c) s = .next (s.complete c CS.noResource)))) ∧
    (s.allocStopped = false → (opU32 c 36 = 0 ∨ channelGranules < opU32 c 36) → exec (.tier1Alloc c) s = .next (s.complete c CS.badCommand)) ∧
    (s.allocStopped = true → exec (.tier1Alloc c) s = .next s) ∧
    (a % 4096 = 0 → 0 < opU32 c 36 → s.addrOk a (4096 * opU32 c 36) = true →
      s.t1.allOwned (fun o => match o with | .tenant u _ => decide (u = t) | _ => false) (a / 4096) (opU32 c 36) = true →
      s.overMirror a (4096 * opU32 c 36) true = false →
      exec (.tier1Free c) s = .next ((s.quarantine (a / 4096) (opU32 c 36)).complete c CS.ok)) ∧
    (transferOk c = true → s.tenantOwns t b (opU32 c 32) = true → s.overMirror b (opU32 c 32) false = false → s.isDetached c = false →
      c.busFail = none → exec (.tier1Write c) s =
        .next ((s.writeT1 t b (tabulate (opU32 c 32) (fun i => c.data.getD i 0))).complete c CS.ok (opU32 c 32))) ∧
    ((transferOk c = false ∨ s.tenantOwns t b (opU32 c 32) = false) → exec (.tier1Write c) s = .next (s.complete c CS.badCommand)) ∧
    (∀ q n u, c.issuer = .queue q → opU32 c 32 = n → transferOk c = true → s.tenantOwns t a n = true → s.overMirror a n false = false →
      s.overWeights a n = false → c.busFail = none → s.goodPrefix t (blocksOf a n) = n → (s.afterRead t a n).checkPoison = u →
      u.isDetached c = false →
      exec (.tier1Read c) s = .next ((u.emit (.hostWrite (u.io.queuePort q) b (s.servedBytes t a n))).complete c CS.ok n)) ∧
    ((transferOk c = false ∨ s.tenantOwns t a (opU32 c 32) = false) → exec (.tier1Read c) s = .next (s.complete c CS.badCommand))

/-- Doorbells (R391). -/
def Obligations.QueueDoorbells : Prop :=
  ∀ (port q value : Nat) (s : State), s.ideBlocked port = false →
    let v := value % 65536
    let size := 2 ^ s.get (qCqLog2 q)
    (s.doorbellOk port q = true → v < 2 ^ s.get (qSqLog2 q) → exec (.sqTailDoorbell port q value) s = .next (s.put (qSqTail q) v)) ∧
    (s.doorbellOk port q = true → 2 ^ s.get (qSqLog2 q) ≤ v → exec (.sqTailDoorbell port q value) s = .next (s.queueError q 0 0)) ∧
    (s.doorbellOk port q = true → v < size → (v + size - s.get (qCqHead q)) % size ≤ (s.get (qCqTail q) + size - s.get (qCqHead q)) % size →
      ∃ t, exec (.cqHeadDoorbell port q value) s = .next t ∧ t.get (qCqHead q) = v ∧
        (t.io.queue q).records = (s.io.queue q).records.filter (fun r =>
          decide ((v + size - s.get (qCqHead q)) % size ≤ (r.1 + size - s.get (qCqHead q)) % size)) ∧
        (t.io.queue q).inProgress = (s.io.queue q).inProgress) ∧
    (s.doorbellOk port q = true →
      (size ≤ v ∨ (s.get (qCqTail q) + size - s.get (qCqHead q)) % size < (v + size - s.get (qCqHead q)) % size) →
      exec (.cqHeadDoorbell port q value) s =
        .next (s.raise { code := 0x0F05, tenant := queueTenant q, subject := port, detail := [q] })) ∧
    (s.doorbellOk port q = false → exec (.sqTailDoorbell port q value) s = .next (s.deny port) ∧
      exec (.cqHeadDoorbell port q value) s = .next (s.deny port))

/-- Enabling and disabling a queue (R388, R390). -/
def Obligations.QueueEnableAndIdle : Prop :=
  ∀ (w : RegWrite) (q : Nat) (s : State), q < 4100 → MayWrite s w (queueBase q + 0x18) →
    let v := blend (s.reg (queueBase q + 0x18)) (writeBits w) (writeMask w)
    let ready := s.get (qSqBase q) % 4096 = 0 ∧ s.get (qCqBase q) % 4096 = 0 ∧ 4 ≤ s.get (qSqLog2 q) ∧ s.get (qSqLog2 q) ≤ 16 ∧
      4 ≤ s.get (qCqLog2 q) ∧ s.get (qCqLog2 q) ≤ 16 ∧ s.get (qIdle q) = 1
    let owns := (q < 4096 ∧ s.bound w.port (q / 16) = true ∧ s.portAllowed (q / 16) w.port = true) ∨
      (4096 ≤ q ∧ q - 4096 = w.port ∧ s.portMgmt w.port = true ∧ (s.get Fld.BU_STATE_STATE = 6 ∨ s.get Fld.BU_STATE_STATE = 7))
    (fieldGet v 0 1 = 1 → s.get (qEn q) = 0 → ready → owns → ∃ t, exec (.qCtrlWrite w q) s = .next t ∧
      t.get (qEn q) = 1 ∧ t.get (qIrqEn q) = fieldGet v 1 1 ∧ t.get (qPhase q) = 1 ∧ t.get (qError q) = 0 ∧ t.get (qIdle q) = 0 ∧
      t.get (qPort q) = w.port % 4 ∧ t.get (qSqHead q) = 0 ∧ t.get (qSqTail q) = 0 ∧ t.get (qCqHead q) = 0 ∧ t.get (qCqTail q) = 0 ∧
      t.get (qDone q) = 0 ∧ (t.io.queue q).inProgress = [] ∧ (t.io.queue q).records = [] ∧
      (∀ off, off ≠ queueBase q + 0x18 → off ≠ queueBase q + 0x20 → off ≠ queueBase q + 0x48 → t.reg off = s.reg off)) ∧
    (fieldGet v 0 1 = 1 → s.get (qEn q) = 0 → ¬ (ready ∧ owns) → exec (.qCtrlWrite w q) s = .next s) ∧
    (fieldGet v 0 1 = 0 → s.get (qEn q) = 1 → (s.io.queue q).inProgress = [] → ∃ t, exec (.qCtrlWrite w q) s = .next t ∧
      t.get (qEn q) = 0 ∧ t.get (qIdle q) = 1 ∧ t.get (qIrqEn q) = fieldGet v 1 1 ∧ (∀ off, off ≠ queueBase q + 0x18 → t.reg off = s.reg off)) ∧
    (fieldGet v 0 1 = 0 → s.get (qEn q) = 1 → (s.io.queue q).inProgress ≠ [] → ∃ t, exec (.qCtrlWrite w q) s = .next t ∧
      t.get (qEn q) = 0 ∧ t.get (qIdle q) = s.get (qIdle q) ∧ (∀ off, off ≠ queueBase q + 0x18 → t.reg off = s.reg off)) ∧
    (s.get (qEn q) = 0 → (s.io.queue q).inProgress = [] → exec (.queueIdle q) s = .next (s.put (qIdle q) 1))

/-- Fetching (R392, R393) and the coalescing timer (R405). -/
def Obligations.CommandsFetchedInTurn : Prop :=
  ∀ (port q : Nat) (s : State), s.io.portUp port = true → s.io.fatal = false → s.ideBlocked port = false →
    (s.io.nextQueue port = none → ∀ b, exec (.commandFetch port b) s = .next s) ∧
    (s.io.nextQueue port = some q →
      exec (.commandFetch port none) s = .next ({ s with io := { s.io with turn := sparsePut 0 port (q + 1) s.io.turn } }.queueError q 1 0) ∧
      ∀ b, (if q < 4096 then tenantOpcodes else mgmtOpcodes).contains (recGet b 0 1) = true →
        ∃ t, exec (.commandFetch port (some b)) s = .next t ∧
          (t.io.queue q).inProgress = (s.io.queue q).inProgress ++ [commandOf q b] ∧
          (t.io.queue q).reserved = (s.io.queue q).reserved + (if longOpcodes.contains (recGet b 0 1) then 2 else 1) ∧
          t.get (qSqHead q) = (s.get (qSqHead q) + 1) % 2 ^ s.get (qSqLog2 q) % 65536 ∧ sparseGet 0 t.io.turn port = q + 1) ∧
    (s.io.noStream (s.io.queuePort q) = false → s.get (qIrqEn q) = 1 → (s.io.queue q).unsignalled ≠ 0 → (s.io.queue q).firstUnsignalled + 1000 * s.get (qCoalUs q) ≤ s.now →
      ∃ t, exec (.msixCoalesceExpiry q) s = .next t ∧ t.io.out = .msix (s.io.queuePort q) (s.get (qVector q)) :: s.io.out ∧
        (t.io.queue q).unsignalled = 0 ∧ t.io.regs = s.io.regs)

/-- A first completion record (R401, R402). -/
def Obligations.RecordsWrittenWithPhase : Prop :=
  ∀ (q : Nat) (c : Cmd) (release : Bool) (status r0 r1 r2 now : Nat) (io : Io), io.fatal = false →
    io.noStream (io.queuePort q) = false → io.detached.find? (fun d => d.2 = coreOf c) = none → ((io.queue q).inProgress.contains (coreOf c) = true ∨ io.get (qEn q) = 1) →
    let u := io.completeQueue q c release status r0 r1 r2 now
    let tail := io.get (qCqTail q)
    let nextTail := (tail + 1) % 2 ^ io.get (qCqLog2 q)
    (.hostWrite (io.queuePort q) (io.get (qCqBase q) + 32 * tail) (bytesOf 32 (recordOf c status (io.get (qPhase q)) 0 r0 r1 r2)) : Out) ∈ u.out ∧
    (nextTail < 65536 → u.get (qCqTail q) = nextTail) ∧
    u.get (qPhase q) = (if nextTail = 0 then 1 - io.get (qPhase q) else io.get (qPhase q)) ∧
    u.get (qDone q) = (io.get (qDone q) + 1) % 2 ^ 64 ∧
    (u.queue q).inProgress = (io.queue q).inProgress.erase (coreOf c) ∧
    (∀ off, off ≠ queueBase q + 0x18 → off ≠ queueBase q + 0x20 → off ≠ queueBase q + 0x48 → u.reg off = io.reg off)

/-- The host ports (R386, R387, R411 to R413). -/
def Obligations.PortsAttachAndDetach : Prop :=
  ∀ (s : State) (n : Nat), n < 4 →
    (∀ c q slot u, Accepted s c .mgmt false → c.issuer = .queue q → q - 4096 ≠ n → opByte c 32 = n → s.newOp c 0x0C [n] = some (slot, u) →
      let v := (u.moveOp slot .running).complete c CS.ok ((u.moveOp slot .running).opHandle slot)
      exec (.portDetach c) s = .next ((((((v.put (Fld.GC_PORT_STATE_LINK n) 3).detachPort n).clearBinding n).put
        (Fld.GC_PORT_STATE_LINK n) 0).raise { code := 0x0F03, subject := n }).endOp slot .done CS.ok)) ∧
    (∀ c q, Accepted s c .mgmt false → c.issuer = .queue q → (4 ≤ opByte c 32 ∨ q - 4096 = opByte c 32) →
      exec (.portDetach c) s = .next (s.refuse c CS.badCommand)) ∧
    (∀ width rate, s.io.fatal = false → (s.get Fld.CK_MON_STATUS_FAILED).testBit 0 = false → (s.get Fld.CK_MON_STATUS_FALLBACK).testBit 0 = false →
      s.units.hostLost.testBit n = false → s.on (Fld.CK_GATE_RUN_EN (17 + n)) = true → s.get Fld.BU_STATE_STATE ≠ 0 →
      s.get (Fld.GC_PORT_STATE_LINK n) < 2 → (s.get Fld.BU_STATE_STATE = 8 → s.get Fld.BU_STRAP_PORT = n) →
      exec (.hostLinkUp n width rate) s = .next ((((s.put (Fld.GC_PORT_STATE_LINK n) 2).put (Fld.GC_PORT_STATE_WIDTH n) width).put
        (Fld.GC_PORT_STATE_RATE n) rate).raise { code := 0x0F01, subject := n })) ∧
    (s.get (Fld.GC_PORT_STATE_LINK n) ≠ 0 → exec (.hostLinkLoss n) s =
      .next (((s.detachPort n).put (Fld.GC_PORT_STATE_LINK n) 1).raise { code := 0x0F02, subject := n })) ∧
    (s.get (Fld.GC_PORT_STATE_LINK n) = 2 → exec (.functionLevelReset n) s =
      .next (((s.detachPort n).put (Fld.GC_PORT_STATE_LINK n) 2).raise { code := 0x0F02, subject := n })) ∧
    (s.get (Fld.GC_PORT_STATE_LINK n) = 2 → exec (.d3hotEntry n) s =
      .next ({ s with io := s.io.detachCommands n }.put (Fld.GC_PORT_STATE_LINK n) 3)) ∧
    (s.get (Fld.GC_PORT_STATE_LINK n) = 3 → exec (.d0Return n) s =
      .next (((s.detachPort n).put (Fld.GC_PORT_STATE_LINK n) 2).raise { code := 0x0F02, subject := n })) ∧
    (∀ w word, word < 4 → MayWrite s w (Reg.GC_PORT_BIND n word) →
      ((s.get (Fld.GC_PORT_STATE_TDI n) = 1 ∨ s.get (Fld.GC_PORT_STATE_TDI n) = 2) →
        exec (.gcPortBindWrite w n word) s = .next (s.raise { code := 0x0F06, subject := n })) ∧
      (s.get (Fld.GC_PORT_STATE_TDI n) ≠ 1 → s.get (Fld.GC_PORT_STATE_TDI n) ≠ 2 →
        let u := s.store w (Reg.GC_PORT_BIND n word)
        let gone (t : Nat) : Bool := decide (t / 64 = word) && !u.bound n t
        let io := ((u.io.enabledQueues n).filter (fun q => match queueTenant q with | some t => gone t | none => false)).foldl
          (fun io q => io.stopQueue q) u.io
        exec (.gcPortBindWrite w n word) s = .next { u with
          io := ((u.io.portRings n).filter (fun r => decide (4 ≤ r) && gone (r - 4))).foldl (fun io r => io.stopRing r) io })) ∧
    (∀ q, s.get (qEn q) = 1 → exec (.hostCompletionTimeout (.fetch q)) s = .next (s.queueError q 1 0) ∧
      exec (.hostCompletionTimeout (.record q)) s = .next (s.queueError q 2 0)) ∧
    (∀ c q, c.issuer = .queue q → (s.io.queue q).inProgress.contains (coreOf c) = true →
      exec (.hostCompletionTimeout (.data c)) s = .next ((s.busFault c c.addrA.toNat).complete c CS.fault))

/-- Raising an event (R598 to R609, R414). -/
def Obligations.EventsCountedAndFlagged : Prop :=
  ∀ (s : State) (e : Event),
    (∀ flags bit count byte, eventFlag e.code = some (flags, bit, count, byte) →
      let u := s.io.note e.code
      u.get ⟨flags, bit, 1⟩ = 1 ∧ u.get ⟨count, 8 * byte, 8⟩ = (s.io.get ⟨count, 8 * byte, 8⟩ + 1) % 256 ∧
      u.get Fld.EV_TOTAL_COUNT = (s.io.get Fld.EV_TOTAL_COUNT + 1) % 2 ^ 64) ∧
    (∀ cls, eventClass e.code = some cls → cls ≠ .fatal → s.io.masked e.code = true → s.raise e = { s with io := s.io.note e.code }) ∧
    (eventClass e.code = none → s.raise e = s) ∧
    (eventClass e.code = some .fatal → ∃ t, exec (.fatalEvent e.code) s = .next t ∧ t.io.fatal = true ∧ t.get Fld.EV_FATAL_VALID = 1 ∧
      (s.get Fld.EV_FATAL_VALID = 0 → t.get Fld.EV_FATAL_CODE = e.code % 2 ^ 16 ∧ t.get Fld.EV_FATAL_YT_NS = s.now % 2 ^ 64) ∧
      (s.get Fld.EV_FATAL_VALID = 1 → t.get Fld.EV_FATAL_CODE = s.get Fld.EV_FATAL_CODE ∧
        t.get Fld.EV_FATAL_YT_NS = s.get Fld.EV_FATAL_YT_NS)) ∧
    (∀ code, eventClass code ≠ some .fatal → exec (.fatalEvent code) s = .next s)

/-- The event registers (R599 to R610) and the sideband (R629). -/
def Obligations.EventRegisterWrites : Prop :=
  ∀ (w : RegWrite) (s : State) (r : Nat), r < 260 →
    (MayWrite s w (ringBase r + 24) →
      let size := 2 ^ s.get (ringLog2 r)
      let v := fieldGet (blend (s.reg (ringBase r + 24)) (writeBits w) (writeMask w)) 0 16
      let inRange := v < size ∧ (v + size - s.get (ringHead r)) % size ≤ (s.get (ringTail r) + size - s.get (ringHead r)) % size
      (inRange → exec (.ringHeadWrite w r) s = .next (s.put (ringHead r) v)) ∧ (¬ inRange → exec (.ringHeadWrite w r) s = .next s)) ∧
    (MayWrite s w (ringBase r + 16) →
      let v := blend (s.reg (ringBase r + 16)) (writeBits w) (writeMask w)
      let u := s.put (ringIrqEn r) (fieldGet v 1 1)
      let owner := match ringTenant r with
        | some t => u.bound w.port t && u.portAllowed t w.port
        | none => decide (r = w.port) && u.portMgmt w.port
      let ready := u.get (ringAddr r) % 4096 = 0 ∧ 6 ≤ u.get (ringLog2 r) ∧ u.get (ringLog2 r) ≤ 16 ∧ owner = true
      (fieldGet v 0 1 = 1 → u.get (ringEn r) = 0 → ready → ∃ t, exec (.ringCtrlWrite w r) s = .next t ∧ t.get (ringEn r) = 1 ∧
        t.get (ringHead r) = 0 ∧ t.get (ringTail r) = 0 ∧ t.get (ringLost r) = 0 ∧ t.get (ringPhase r) = 1 ∧ t.get (ringPort r) = w.port % 4 ∧
        t.io.ring r = {}) ∧
      (fieldGet v 0 1 = 1 → u.get (ringEn r) = 0 → ¬ ready → exec (.ringCtrlWrite w r) s = .next u) ∧
      (fieldGet v 0 1 = 0 → exec (.ringCtrlWrite w r) s = .next (u.put (ringEn r) 0))) ∧
    (∀ k, k < 64 → MayWrite s w (Reg.EV_MASK k) → exec (.evMaskWrite w k) s =
      .next (s.setReg (Reg.EV_MASK k) (blend (s.reg (Reg.EV_MASK k)) (writeBits w) (writeMask w) &&& BitVec.ofNat 64 (maskBits k)))) ∧
    (∀ off row, regRow? off = some row → row.w1c ≠ 0 → MayWrite s w off →
      (w.half = none → exec (.flagClear w off) s = .next (s.setReg off (s.codedWrite row (s.reg off) w))) ∧
      (w.half ≠ none → exec (.flagClear w off) s = .next s)) ∧
    (s.io.fatal = false → s.io.noStream (s.get (ringPort r)) = false → s.get (ringIrqEn r) = 1 → (s.io.ring r).unsignalled ≠ 0 →
      (s.io.ring r).firstUnsignalled + 1000 * s.get (ringCoalUs r) ≤ s.now → ∃ t, exec (.ringCoalesceExpiry r) s = .next t ∧
        t.io.out = .msix (s.get (ringPort r)) (s.get (ringVector r)) :: s.io.out ∧ (t.io.ring r).unsignalled = 0 ∧ t.io.regs = s.io.regs) ∧
    (∀ off, s.get Fld.BU_STATE_STATE ≠ 0 → exec (.i3cRead off) s = .next (s.emit (.i3c (s.i3cValue off)))) ∧
    (∀ off, i3cReadable off = false → s.i3cValue off = 0) ∧
    (s.get Fld.BU_STATE_STATE = 0 → ∀ off, exec (.i3cRead off) s = .next s)

/-- The access codes (R6) and which port reaches a register (R384). -/
def Obligations.RegisterAccessCodes : Prop :=
  (∀ (s : State) (row : RegRow) (old : Word) (w : RegWrite) (i : Nat), i < 64 → w.half = none →
    let new := (s.codedWrite row old w).getLsbD i
    (row.rw.testBit i = true → row.w1c.testBit i = false → row.w1s.testBit i = false → new = w.value.getLsbD i) ∧
    (row.lck.testBit i = true → row.rw.testBit i = false → row.w1c.testBit i = false → row.w1s.testBit i = false →
      new = if s.lockOpen row then w.value.getLsbD i else old.getLsbD i) ∧
    (row.w1c.testBit i = true → row.rw.testBit i = false → row.lck.testBit i = false → row.w1s.testBit i = false →
      new = (old.getLsbD i && !w.value.getLsbD i)) ∧
    (row.w1s.testBit i = true → row.rw.testBit i = false → row.lck.testBit i = false → row.w1c.testBit i = false →
      new = (old.getLsbD i || w.value.getLsbD i)) ∧
    (row.rw.testBit i = false → row.lck.testBit i = false → row.w1c.testBit i = false → row.w1s.testBit i = false → new = old.getLsbD i)) ∧
  (∀ (s : State) (row : RegRow) (old : Word) (w : RegWrite) (i : Nat), i < 64 → w.half = some (decide (i < 32)) →
    (s.codedWrite row old w).getLsbD i = old.getLsbD i) ∧
  (∀ (s : State) (w : RegWrite) (off : Nat) (row : RegRow), effectRegs.find? (fun e => e.1 = off) = none → clippedRegs.find? (fun e => e.1 = off) = none →
    gatedEnables.find? (fun f => f.off = off) = none → s.writeArrays w off = none → regRow? off = some row →
    (MayWrite s w off → row.w1c = 0 → exec (.registerWrite w off) s = .next (s.setReg off (s.codedWrite row (s.reg off) w))) ∧
    (s.ideBlocked w.port = true → exec (.registerWrite w off) s = .next s) ∧
    (s.ideBlocked w.port = false → s.get Fld.BU_STATE_STATE ≠ 8 → s.reaches w.port off = false →
      exec (.registerWrite w off) s = .next (s.bump (Fld.GC_PORT_DENIED_COUNT w.port) 1)))

/-- CT (R280, R281): what each control instruction leaves, where it executes. -/
def Obligations.ControlInstructions : Prop :=
  ∀ (n : Insn) (s : State),
    let t := seen n 1 s
    let y := t.unit n.slot n.unit
    let gives (i : Instr) (f : State) : Prop := Executes i s → exec i s = .next f
    gives (.ctNop n) (t.retire n.slot n.unit (y.pc + 16) y) ∧
    gives (.ctBr n) (t.retire n.slot n.unit (BitVec.ofNat 64 (y.pc + 16) + n.imm).toNat y) ∧
    gives (.ctJmp n) (t.retire n.slot n.unit (y.src n n.a).toNat y) ∧
    gives (.ctCall n) (if 16 ≤ y.ret.length then t.faultContext n.slot n.unit 0x0D 0 (insnWord 1 3 n)
      else t.retire n.slot n.unit (BitVec.ofNat 64 (y.pc + 16) + n.imm).toNat { y with ret := (y.pc + 16) :: y.ret }) ∧
    gives (.ctRet n) (match y.ret with
      | [] => t.faultContext n.slot n.unit 0x0D 0 (insnWord 1 4 n)
      | r :: rest => t.retire n.slot n.unit r { y with ret := rest }) ∧
    gives (.ctLoop n) (t.retire n.slot n.unit
      (if y.sreg n.d.toNat - 1 = 0 then y.pc + 16 else (BitVec.ofNat 64 (y.pc + 16) + n.imm).toNat) (y.setS n.d.toNat (y.sreg n.d.toNat - 1))) ∧
    gives (.ctHalt n) ((t.retire n.slot n.unit (y.pc + 16) y).haltUnit n.slot n.unit (n.imm.toNat % 2 ^ 32)) ∧
    gives (.ctTrap n) (t.faultContext n.slot n.unit 0x0F n.imm.toNat (insnWord 1 7 n)) ∧
    gives (.ctCmp n) (t.retire n.slot n.unit (y.pc + 16) (y.setP (n.d.toNat - 0x40) (compare (n.flags.toNat % 8) (y.src n n.a) (y.src n n.b)))) ∧
    gives (.ctPlog n) (t.retire n.slot n.unit (y.pc + 16) (y.setP (n.d.toNat - 0x40) (
      let a := y.pred (n.a.toNat - 0x40)
      let b := y.pred (n.b.toNat - 0x40)
      match n.flags.toNat % 4 with | 0 => a && b | 1 => a || b | 2 => a != b | _ => a && !b)))

/-- How any Trondi instruction is issued (R255, R256, R275). -/
def Obligations.IssueChecksInOrder : Prop :=
  ∀ (i : Instr) (s : State) (n : Insn) (cls op : Nat) (sh : Shape), trondi i = some (n, cls, op, sh) →
    let x := s.context n.slot
    let y := s.unit n.slot n.unit
    (s.canIssue n = false → exec i s = .next s) ∧
    (s.canIssue n = true → (x.codeBytes < y.pc + 16 ∨ y.pc % 16 ≠ 0) → exec i s = .next (s.faultContext n.slot n.unit 0x10 y.pc 0)) ∧
    (Fetches n cls op s → sideOk x.hub sh.side = false → exec i s = .next (s.faultContext n.slot n.unit 0x02 0 (insnWord cls op n))) ∧
    (Fetches n cls op s → sideOk x.hub sh.side = true → staticOk x.hub sh n = false →
      exec i s = .next (s.faultContext n.slot n.unit 0x01 0 (insnWord cls op n))) ∧
    (∀ cause, s.canIssue n = true → y.pc + 16 ≤ x.codeBytes → y.pc % 16 = 0 → s.fetchWord n.slot n.unit = .error cause →
      exec i s = .next (s.faultContext n.slot n.unit cause (x.codeAt + y.pc) 0)) ∧
    (∀ w, s.canIssue n = true → y.pc + 16 ≤ x.codeBytes → y.pc % 16 = 0 → s.fetchWord n.slot n.unit = .ok w → w ≠ insnWord cls op n →
      (classSide (w / 2 ^ 122) = none → exec i s = .next (s.faultContext n.slot n.unit 0x01 0 w)) ∧
      (∀ side, classSide (w / 2 ^ 122) = some side →
        let reserved := opDefined (w / 2 ^ 122) (w / 2 ^ 112 % 2 ^ 10) = false ∨ subReserved (w / 2 ^ 122) (w / 2 ^ 112 % 2 ^ 10) (w / 2 ^ 100 % 2 ^ 8) = true
        (sideOk x.hub side = false → exec i s = .next (s.faultContext n.slot n.unit 0x02 0 w)) ∧
        (sideOk x.hub side = true → reserved → exec i s = .next (s.faultContext n.slot n.unit 0x01 0 w)) ∧
        (sideOk x.hub side = true → ¬ reserved → exec i s = .next s))) ∧
    (Fetches n cls op s → sideOk x.hub sh.side = true → staticOk x.hub sh n = true → predicateOn y n = false →
      exec i s = .next (s.retire n.slot n.unit (y.pc + 16) y)) ∧
    (Fetches n cls op s → sideOk x.hub sh.side = true → staticOk x.hub sh n = true → predicateOn y n = true →
      (touched sh n).any (fun r => y.reqs.any (fun q => (pendingRegs q).contains r)) = true → exec i s = .next s)

/-- SY (R282, R345) and the rows that end its waits (R339, R278). -/
def Obligations.SyncInstructions : Prop :=
  (∀ (n : Insn) (s : State),
    let t := seen n 2 s
    let y := t.unit n.slot n.unit
    let k := y.num n n.a
    let c := t.tallyCheck (t.context n.slot).tenant k (y.num n n.b)
    let u := t.tallyEcc k n.ecc
    let gives (i : Instr) (f : State) : Prop := Executes i s → exec i s = .next f
    gives (.syFence n) (t.retire n.slot n.unit (y.pc + 16) y) ∧
    (∀ st, c = some st → gives (.sySig n) (t.retire n.slot n.unit (y.pc + 16) (y.put n.d st)) ∧
      gives (.syWait n) (t.retire n.slot n.unit (y.pc + 16) (y.put n.d st))) ∧
    (c = none → u.tallyCheck (u.context n.slot).tenant k (y.num n n.b) = none →
      gives (.sySig n) ((u.signal k (y.num n n.b)).2.retire n.slot n.unit (y.pc + 16)
        (((u.signal k (y.num n n.b)).2.unit n.slot n.unit).put n.d (u.signal k (y.num n n.b)).1)) ∧
      gives (.syWait n) (let v := u.setUnit n.slot n.unit { y with wait := some (.tally k (y.num n n.b) (y.num n n.c) n.d.toNat) }
        (v.setTally k { v.tally k with queue := (v.tally k).queue ++ [⟨n.slot, n.unit, y.num n n.b, y.num n n.c⟩] }).serveTally k)) ∧
    (y.num n n.a ≤ t.now → gives (.syAt n) (t.retire n.slot n.unit (y.pc + 16) (y.put n.d t.now))) ∧
    (t.now < y.num n n.a → gives (.syAt n) (t.setUnit n.slot n.unit { y with wait := some (.at_ (y.num n n.a) n.d.toNat) })) ∧
    gives (.syYt n) (t.retire n.slot n.unit (y.pc + 16) (y.put n.d t.now))) ∧
  (∀ (k slot unit count d : Nat) (s : State),
    exec (.tallyWaitTimeout k) s = .next (s.serveTally k) ∧
    ((s.unit slot unit).wait = some (.at_ count d) → count ≤ s.now → exec (.syAtResume slot unit) s =
      .next (s.retire slot unit ((s.unit slot unit).pc + 16) ((s.unit slot unit).setS d (BitVec.ofNat 64 s.now)))) ∧
    ((s.unit slot unit).wait = some (.at_ count d) → s.now < count → exec (.syAtResume slot unit) s = .next s) ∧
    (∀ w, s.answers[k]? = some w → exec (.eRequestComplete k) s = .next ({ s with answers := s.answers.eraseIdx k }.deliverAnswer w)))

/-- The scalar moves and operations (R283, R284). -/
def Obligations.ScalarMoves : Prop :=
  ∀ (n : Insn) (s : State),
    let t := seen n 4 s
    let y := t.unit n.slot n.unit
    let a := y.src n n.a
    let b := y.src n n.b
    let leaves (i : Instr) (z : UnitX) : Prop := Executes i s → exec i s = .next (t.retire n.slot n.unit (y.pc + 16) z)
    leaves (.mvLi n) (y.setS n.d.toNat n.imm) ∧
    leaves (.mvMov n) (match movKind n.d.toNat with
      | .s => y.setS n.d.toNat (y.sreg n.a.toNat)
      | .v => y.setV (n.d.toNat - 0x20) (y.vlane (n.a.toNat - 0x20))
      | .t => y.setT (n.d.toNat - 0x30) (y.tile (n.a.toNat - 0x30))
      | _ => y.setP (n.d.toNat - 0x40) (y.pred (n.a.toNat - 0x40))) ∧
    leaves (.mvAdd n) (y.setS n.d.toNat (a + b)) ∧ leaves (.mvSub n) (y.setS n.d.toNat (a - b)) ∧
    leaves (.mvMul n) (y.setS n.d.toNat (a * b)) ∧ leaves (.mvAnd n) (y.setS n.d.toNat (a &&& b)) ∧
    leaves (.mvOr n) (y.setS n.d.toNat (a ||| b)) ∧ leaves (.mvXor n) (y.setS n.d.toNat (a ^^^ b)) ∧
    leaves (.mvShl n) (y.setS n.d.toNat (a <<< (b.toNat % 64))) ∧ leaves (.mvShr n) (y.setS n.d.toNat (a >>> (b.toNat % 64))) ∧
    leaves (.mvSra n) (y.setS n.d.toNat (a.sshiftRight (b.toNat % 64))) ∧
    leaves (.mvMinu n) (y.setS n.d.toNat (if b.ult a then b else a)) ∧ leaves (.mvMaxu n) (y.setS n.d.toNat (if a.ult b then b else a)) ∧
    leaves (.mvMins n) (y.setS n.d.toNat (if b.slt a then b else a)) ∧ leaves (.mvMaxs n) (y.setS n.d.toNat (if a.slt b then b else a)) ∧
    leaves (.mvTile n) (y.setT (n.d.toNat - 0x30) (y.sreg n.b.toNat ++ y.sreg n.a.toNat)) ∧
    leaves (.mvTget n) (y.setS n.d.toNat ((y.tile (n.a.toNat - 0x30)).extractLsb' (if flagBit n 0 then 64 else 0) 64)) ∧
    leaves (.mvBcast n) (y.setV (n.d.toNat - 0x20) (fun _ => (y.sreg n.a.toNat).setWidth 32)) ∧
    leaves (.mvGetl n) (y.setS n.d.toNat (BitVec.ofNat 64 (y.vlane (n.a.toNat - 0x20) n.imm.toNat).toNat)) ∧
    leaves (.mvSetl n) (y.setLane (n.d.toNat - 0x20) n.imm.toNat ((y.sreg n.a.toNat).setWidth 32))

/-- What writing a register leaves (R238). -/
def Obligations.RegisterFileFrames : Prop :=
  ∀ (y : UnitX) (i : Nat),
    (∀ v : Word, (y.setS i v).sreg i = v ∧ (∀ j, j ≠ i → (y.setS i v).sreg j = y.sreg j) ∧ { y.setS i v with s := y.s } = y) ∧
    (∀ v : BitVec 128, (y.setT i v).tile i = v ∧ (∀ j, j ≠ i → (y.setT i v).tile j = y.tile j) ∧ { y.setT i v with t := y.t } = y) ∧
    (∀ (f : Nat → BitVec 32), (∀ l, l < 64 → (y.setV i f).vlane i l = f l) ∧
      (∀ j l, j ≠ i → j < 16 → l < 64 → (y.setV i f).vlane j l = y.vlane j l) ∧ { y.setV i f with v := y.v } = y) ∧
    (∀ v : Bool, (i ≠ 0 → (y.setP i v).pred i = v) ∧ (∀ j, j ≠ i → (y.setP i v).pred j = y.pred j) ∧ { y.setP i v with p := y.p } = y) ∧
    (∀ v : Bool, y.setP 0 v = y) ∧ y.pred 0 = true

/-- The instructions that reach memory and the Aisle (R283, R285, R286). -/
def Obligations.MemoryInstructions : Prop :=
  (∀ (n : Insn) (s : State),
    let t := seen n 4 s
    let y := t.unit n.slot n.unit
    let w := n.flags.toNat % 8
    let len := widthOf w
    let a := memAddr y n
    let store : List Byte := if w ≤ 3 then bytesOf len (y.num n n.b)
      else (List.range (len / 4)).flatMap (fun l => bytesOf 4 (y.vlane (n.b.toNat - 0x20) l).toNat)
    let gives (i : Instr) (f : State) : Prop := Executes i s → exec i s = .next f
    (∀ p u b, t.access n a len len false = .ok p → t.readPlace n y p len = (u, .ok b) →
      gives (.mvLd n) (u.retire n.slot n.unit (y.pc + 16) (if w ≤ 3 then
        y.put n.d (if flagBit n 3 then signExtend len (natOfBytes b) else natOfBytes b)
        else y.setV (n.d.toNat - 0x20) (fun l => BitVec.ofNat 32 (recGet b (4 * l) 4))))) ∧
    (∀ cause, t.access n a len len false = .error cause → gives (.mvLd n) (t.faultContext n.slot n.unit cause a.toNat (insnWord 4 3 n))) ∧
    (∀ p u cause, t.access n a len len false = .ok p → t.readPlace n y p len = (u, .error cause) →
      gives (.mvLd n) (if cause = rereadWait then u else u.faultContext n.slot n.unit cause a.toNat (insnWord 4 3 n))) ∧
    (∀ p, t.access n a store.length len true = .ok p →
      gives (.mvSt n) ((t.writePlace n y p store).1.retire n.slot n.unit (y.pc + 16) (t.writePlace n y p store).2)) ∧
    (∀ cause, t.access n a store.length len true = .error cause →
      gives (.mvSt n) ((if cause = 0x0A ∨ cause = 0x0B then t.writeNoted n a store.length else t).faultContext n.slot n.unit cause a.toNat
        (insnWord 4 4 n))) ∧
    (∀ peer p u b, t.aisleCredit peer.1 peer.2 = true → y.num n n.c / 2 ^ 60 = 6 → aisleLength (y.num n n.b) = true → y.num n n.c % 2 ^ 60 / 2 ^ 48 = 0 →
      t.aislePeer n.slot (y.num n n.c / 2 ^ 16 % 2 ^ 32) = some peer → t.access n (y.sreg n.a.toNat) (y.num n n.b) 1 false = .ok p →
      t.readPlace n y p (y.num n n.b) = (u, .ok b) →
      gives (.mvSend n) ({ u with
        aisle := u.aisle ++ [(⟨(u.context n.slot).tenant, (u.context n.slot).hub, n.slot, n.unit, peer.1, peer.2, y.num n n.c % 2 ^ 16, b, false⟩ :
          AisleMsg)] }.retire n.slot n.unit (y.pc + 16) y)) ∧
    (∀ peer, y.num n n.c / 2 ^ 60 = 6 → aisleLength (y.num n n.b) = true → y.num n n.c % 2 ^ 60 / 2 ^ 48 = 0 →
      t.aislePeer n.slot (y.num n n.c / 2 ^ 16 % 2 ^ 32) = some peer → t.aisleCredit peer.1 peer.2 = false → gives (.mvSend n) t) ∧
    (y.num n n.c / 2 ^ 60 = 6 → aisleLength (y.num n n.b) = true → y.num n n.c ≠ 2 ^ 64 - 1 →
      let match? := t.aisle.findIdx? (aisleMatch n.slot n.unit (n.imm.toNat % 2 ^ 16) (t.fromSender n.slot (y.num n n.c / 2 ^ 16 % 2 ^ 32)))
      (match? = none → gives (.mvRecv n) (t.setUnit n.slot n.unit { y with wait := some (.aisle n) })) ∧
      (∀ k m p, match? = some k → t.aisle[k]? = some m → m.bytes.length = y.num n n.b → flagBit n 0 = false →
        { t with aisle := t.aisle.eraseIdx k }.access n (y.sreg n.a.toNat) m.bytes.length 1 true = .ok p →
        let r := { t with aisle := t.aisle.eraseIdx k }.writePlace n y p m.bytes
        gives (.mvRecv n) (r.1.retire n.slot n.unit (y.pc + 16) r.2)) ∧
      (∀ k m, match? = some k → t.aisle[k]? = some m → m.bytes.length ≠ y.num n n.b →
        gives (.mvRecv n) (t.faultContext n.slot n.unit 0x04 (y.num n n.c) (insnWord 4 12 n)))) ∧
    (∀ d b rs ds u rows, tileOf (y.tile (n.d.toNat - 0x30)) = d → tileOf (y.tile (n.a.toNat - 0x30)) = b → t.tileRows n b false = .ok rs →
      t.tileRows n d true = .ok ds → b.rows = d.rows → b.cols = d.cols → b.format = d.format →
      t.readRows n y (rowBytes b.format b.cols) rs = (u, .ok rows) →
      gives (.mvCopy n) ((u.writeRows n y (ds.zip rows)).1.retire n.slot n.unit (y.pc + 16) (u.writeRows n y (ds.zip rows)).2)) ∧
    (∀ d b rs ds u rows v z, tileOf (y.tile (n.d.toNat - 0x30)) = d → tileOf (y.tile (n.a.toNat - 0x30)) = b → t.tileRows n b false = .ok rs →
      t.tileRows n d true = .ok ds → b.rows = d.rows → b.cols = d.cols → b.format ≠ d.format → b.format ≠ 11 → d.format ≠ 11 →
      t.readRows n y (rowBytes b.format b.cols) rs = (u, .ok rows) →
      u.writeTile n y d ds (rows.map (rowValues b.format b.cols)) = .done v z none →
      gives (.mvCopy n) (v.retire n.slot n.unit (y.pc + 16) z)) ∧
    (∀ f, t.tileRows n (tileOf (y.tile (n.a.toNat - 0x30))) false = .error f →
      gives (.mvCopy n) (t.faultContext n.slot n.unit f.1 f.2 (insnWord 4 7 n)))) ∧
  (∀ (k : Nat) (s : State) (m : AisleMsg), s.aisle[k]? = some m → m.arrived = false →
    let same (q : AisleMsg) : Bool := !q.arrived && decide (q.fromSlot = m.fromSlot ∧ q.fromUnit = m.fromUnit ∧ q.toSlot = m.toSlot ∧
      q.toUnit = m.toUnit ∧ q.channel = m.channel)
    ((s.aisle.take k).any same = false → exec (.aisleMessageArrive k) s =
      .next ({ s with aisle := s.aisle.eraseIdx k ++ [{ m with arrived := true }] }.finishReceive m)) ∧
    ((s.aisle.take k).any same = true → exec (.aisleMessageArrive k) s = .next s))

/-- MX (R287, R288) and the accumulator and conversion rows of VX (R289, R291). -/
def Obligations.AccumulatorInstructions : Prop :=
  ∀ (n : Insn) (s : State),
    (let t := seen n 8 s
    let y := t.unit n.slot n.unit
    let a := tileOf (y.tile (n.a.toNat - 0x30))
    let b := tileOf (y.tile (n.b.toNat - 0x30))
    let d := tileOf (y.tile (n.d.toNat - 0x30))
    let i := n.d.toNat - 0x38
    let gives (x : Instr) (f : State) : Prop := Executes x s → exec x s = .next f
    gives (.mxZero n) (t.retire n.slot n.unit (y.pc + 16) ((y.accType i false).accZero i)) ∧
    (a.space ≠ 1 ∨ b.space ≠ 1 → gives (.mxMma n) (t.faultContext n.slot n.unit 0x09 0 (insnWord 8 0 n))) ∧
    (a.space ≠ 1 → gives (.mxLd n) (t.faultContext n.slot n.unit 0x09 0 (insnWord 8 1 n))) ∧
    (d.space ≠ 1 → gives (.mxSt n) (t.faultContext n.slot n.unit 0x09 0 (insnWord 8 2 n))) ∧
    (∀ ra rb u v rowsA rowsB g isInt, a.space = 1 → b.space = 1 → t.tileRows n a false = .ok ra → t.tileRows n b false = .ok rb →
      mmaTiles n a b (flagBit n 1) = some (g, isInt) → t.readRows n y (rowBytes a.format a.cols) ra = (u, .ok rowsA) →
      u.tileRows n b false = .ok rb → u.readRows n y (rowBytes b.format b.cols) rb = (v, .ok rowsB) →
      let left := rowsA.map (rowValues a.format a.cols)
      let right := if flagBit n 1 then rowsB.map (rowValues b.format b.cols) else columns b.cols (rowsB.map (rowValues b.format b.cols))
      let z := (if flagBit n 0 then y.accZero i else y).accType i isInt
      let out := (left.flatMap (fun r => right.map (fun c => (r, c)))).zipIdx.map (fun e => mmaElement isInt g (z.accGet i e.2) e.1.1 e.1.2)
      gives (.mxMma n) ((v.bump Fld.GC_SAT_CNT_COUNT ((out.map (·.2)).foldl (· + ·) 0)).retire n.slot n.unit (y.pc + 16)
        (z.accPut i 0 (out.map (·.1))))) ∧
    (∀ ra rb, a.space = 1 → b.space = 1 → t.tileRows n a false = .ok ra → t.tileRows n b false = .ok rb → mmaTiles n a b (flagBit n 1) = none →
      gives (.mxMma n) (t.faultContext n.slot n.unit 0x09 0 (insnWord 8 0 n))) ∧
    (∀ ra u rows, a.space = 1 → t.tileRows n a false = .ok ra → accTile a = true → t.readRows n y (rowBytes a.format a.cols) ra = (u, .ok rows) →
      let isInt := decide (a.format = 9 ∨ a.format = 10)
      gives (.mxLd n) (u.retire n.slot n.unit (y.pc + 16) ((y.accType i isInt).accPut i 0
        ((rows.flatMap (rowValues a.format a.cols)).map (fun v => if isInt then (toSignedInt 32 v).1 else toF32 v))))) ∧
    (∀ rd u z, d.space = 1 → t.tileRows n d true = .ok rd → accTile d = true →
      t.writeTile n y d rd ((List.range d.rows).map (fun r => (List.range d.cols).map (fun c => y.accValue (n.a.toNat - 0x38) (r * d.cols + c)))) =
        .done u z none → gives (.mxSt n) (u.retire n.slot n.unit (y.pc + 16) z)) ∧
    (∀ rd, d.space = 1 → t.tileRows n d true = .ok rd → accTile d = false →
      gives (.mxSt n) (t.faultContext n.slot n.unit 0x09 0 (insnWord 8 2 n)))) ∧
    (let t := seen n 9 s
    let y := t.unit n.slot n.unit
    let e := y.num n n.b
    let gives (x : Instr) (f : State) : Prop := Executes x s → exec x s = .next f
    (e % 64 = 0 → e + 64 ≤ 4096 →
      gives (.vxRa n) (t.retire n.slot n.unit (y.pc + 16) (y.putLanes n.d (fun l => y.accGet (n.a.toNat - 0x38) (e + l)))) ∧
      gives (.vxWa n) (t.retire n.slot n.unit (y.pc + 16) (y.accPut (n.d.toNat - 0x38) e ((List.range 64).map (y.lane n.a))))) ∧
    ((e % 64 ≠ 0 ∨ 4096 < e + 64) → gives (.vxRa n) (t.faultContext n.slot n.unit 0x04 e (insnWord 9 5 n)) ∧
      gives (.vxWa n) (t.faultContext n.slot n.unit 0x04 e (insnWord 9 6 n))) ∧
    (flagBit n 0 = true → gives (.vxCvt n) (t.retire n.slot n.unit (y.pc + 16) (y.putLanes n.d (fun l => elementToF32 n.fmt.toNat
      ((unpackCodes (elementBits n.fmt.toNat) 64 ((List.range 64).flatMap (fun l => bytesOf 4 (y.lane n.a l)))).getD l 0))))) ∧
    (flagBit n 0 = false → let r := (List.range 64).map (fun l => elementFromF32 n.fmt.toNat (y.lane n.a l))
      gives (.vxCvt n) ((t.bump Fld.GC_SAT_CNT_COUNT (r.filter (·.2)).length).retire n.slot n.unit (y.pc + 16)
        (y.putLanes n.d (fun l => recGet (packCodes (elementBits n.fmt.toNat) (r.map (·.1)) 0) (4 * l) 4)))))

/-- The lane operations and reductions (R289, R290, R322). -/
def Obligations.LaneInstructions : Prop :=
  ∀ (n : Insn) (s : State),
    let t := seen n 9 s
    let y := t.unit n.slot n.unit
    let a := y.lane n.a
    let b := y.lane n.b
    let lanes (i : Instr) (f : Nat → Nat) : Prop := Executes i s → exec i s = .next (t.retire n.slot n.unit (y.pc + 16) (y.putLanes n.d f))
    let reduces (i : Instr) (f : Nat → Nat → Nat) : Prop := Executes i s → exec i s =
      .next (t.retire n.slot n.unit (y.pc + 16) (y.put n.d ((treeReduce f 6 ((List.range 64).map a)).headD 0)))
    lanes (.vxFma n) (fun l => f32Fma (a l) (b l) (y.lane n.c l)) ∧
    lanes (.vxAdd n) (fun l => f32Add (a l) (b l)) ∧ lanes (.vxSub n) (fun l => f32Sub (a l) (b l)) ∧
    lanes (.vxMul n) (fun l => f32Mul (a l) (b l)) ∧ lanes (.vxMax n) (fun l => f32Max (a l) (b l)) ∧
    lanes (.vxMin n) (fun l => f32Min (a l) (b l)) ∧ lanes (.vxNeg n) (fun l => f32Neg (a l)) ∧ lanes (.vxAbs n) (fun l => f32Abs (a l)) ∧
    lanes (.vxExp n) (fun l => f32Exp (a l)) ∧ lanes (.vxLog n) (fun l => f32Log (a l)) ∧ lanes (.vxRcp n) (fun l => f32Rcp (a l)) ∧
    lanes (.vxRsqrt n) (fun l => f32Rsqrt (a l)) ∧
    reduces (.vxRedSum n) f32Add ∧ reduces (.vxRedMax n) f32Max ∧ reduces (.vxRedMin n) f32Min

/-- A Cell's list (R189, R190, R292). -/
def Obligations.ListInstructions : Prop :=
  ∀ (n : Insn) (s : State),
    let t := seen n 9 s
    let y := t.unit n.slot n.unit
    let v := y.num n n.a
    let shard := (t.get Fld.SEL_SHARD_BASE_BASE + n.unit) % 2 ^ 32
    let values := (List.range 64).map (y.lane n.a)
    let offered : List Entry := values.zipIdx.map (fun e => ⟨e.1, min (y.num n n.b + e.2) 0xFFFFFFFF, shard⟩)
    let gives (i : Instr) (f : State) : Prop := Executes i s → exec i s = .next f
    gives (.vxIns n) ((t.noteNaN values (t.context n.slot).tenant 0).retire n.slot n.unit (y.pc + 16)
      (y.putList (ranked (y.list ++ offered.filter (fun e => e.valid && y.belowFloor e))))) ∧
    (t.cellAbsent v = false → t.mergeAllowed n.slot n.unit v = true →
      gives (.vxLmerge n) (t.retire n.slot n.unit (y.pc + 16) (y.putList (ranked (y.list ++ (if v = n.unit then y else t.unit n.slot v).list))))) ∧
    (t.cellAbsent v = false → t.mergeAllowed n.slot n.unit v = false →
      gives (.vxLmerge n) (t.faultContext n.slot n.unit 0x04 v (insnWord 9 0x11 n))) ∧
    (v / 512 = n.unit / 512 → (t.get (Fld.SCH_PART_COMBS (t.context n.slot).partition)).testBit (v / 256) = true → t.cellAbsent v = true →
      gives (.vxLmerge n) (t.faultContext n.slot n.unit 0x0C v (insnWord 9 0x11 n))) ∧
    (∀ p, (y.sreg n.a.toNat).toNat / 2 ^ 60 = 1 →
      let bytes := (padTo 64 (ranked y.list)).flatMap entryBytes
      t.access n (y.sreg n.a.toNat) bytes.length 1 true = .ok p →
      gives (.vxLget n) ((t.writePlace n y p bytes).1.retire n.slot n.unit (y.pc + 16) ((t.writePlace n y p bytes).2.put n.d (ranked y.list).length))) ∧
    ((ranked y.list).getLast? = none → gives (.vxLnext n) (t.retire n.slot n.unit (y.pc + 16) (y.putList []))) ∧
    (∀ e, (ranked y.list).getLast? = some e → gives (.vxLnext n) (t.retire n.slot n.unit (y.pc + 16) ((y.putFloor e).putList []))) ∧
    gives (.vxLclr n) (t.retire n.slot n.unit (y.pc + 16) ((y.putFloor padding).putList []))

/-- The class ST (R293 to R295) and the room of the output queue (R430). -/
def Obligations.StallEngineInstructions : Prop :=
  (∀ (n : Insn) (s : State),
    let t := seen n 0x10 s
    let y := t.unit n.slot n.unit
    let h := y.num n n.c
    let layer := n.imm.toNat % 256
    let gives (i : Instr) (f : State) : Prop := Executes i s → exec i s = .next f
    (∀ i p l g j k u b v z, t.stallLayer n h layer = .ok (i, p, l) → n.imm.toNat / 256 % 2 ^ 22 < tokenLimit (t.stall i) →
      linkedPage p l (n.imm.toNat / 256 % 2 ^ 22) = some (g, j, k) → (y.sreg n.a.toNat).toNat / 2 ^ 60 = 1 →
      (∃ q, t.access n (y.sreg n.a.toNat) (4 * (p.recBytes * 16 / 9)) 1 false = .ok q ∧
        t.readPlace n y q (4 * (p.recBytes * 16 / 9)) = (u, .ok b)) →
      let values := (List.range (p.recBytes * 16 / 9)).map (fun e => f32 (recGet b (4 * e) 4))
      let page := if k = 0 then newPageScale (u.get Fld.KV_HEADROOM_H) values else f32 g.scale
      let q := quantise page values
      u.writeScr n y (y.sreg n.b.toNat) (q.1 ++ (bytesOf 4 (if k = 0 then toF32 page else g.scale) ++ bytesOf 4 (n.imm.toNat / 256 % 2 ^ 22) ++
        bytesOf 1 layer ++ bytesOf 7 (if k = 0 then 1 else 0))) CS.ok = .done v z none →
      gives (.stQuant n) ((v.noteQuantised i layer j q.2 (values.filter (fun v => !v.finite)).length).retire n.slot n.unit (y.pc + 16) z)) ∧
    (∀ st, t.stallLayer n h layer = .error st → gives (.stQuant n) (t.retire n.slot n.unit (y.pc + 16) (y.put n.d st)) ∧
      gives (.stRd n) (t.retire n.slot n.unit (y.pc + 16) (y.put n.d st))) ∧
    (∀ i p l0 l g j k u b, t.stallLayer n h 0 = .ok (i, p, l0) → (y.sreg n.a.toNat).toNat / 2 ^ 60 = 1 →
      (∃ q, t.access n (y.sreg n.a.toNat) (p.recBytes + 16) 1 false = .ok q ∧ t.readPlace n y q (p.recBytes + 16) = (u, .ok b)) →
      let trailer := b.drop p.recBytes
      let pos := recGet trailer 4 4
      p.layers[recGet trailer 8 1]? = some l → pos = l.filled → pos < tokenLimit (u.stall i) → linkedPage p l pos = some (g, j, k) →
      gives (.stAppend n) ((u.scatter i (recGet trailer 8 1) p g j k (recGet trailer 0 4) (recGet trailer 9 1 % 2 = 1) (b.take p.recBytes)).retire
        n.slot n.unit (y.pc + 16) (y.put n.d CS.ok))) ∧
    (∀ i p l u records scales v z, t.stallLayer n h layer = .ok (i, p, l) → 0 < n.imm.toNat / 256 % 256 → n.imm.toNat / 256 % 256 ≤ 64 →
      flagBit n 0 = false → y.num n n.b + n.imm.toNat / 256 % 256 ≤ l.filled →
      t.readRecords (t.context n.slot).tenant p l (y.num n n.b) (n.imm.toNat / 256 % 256) = (u, .ok (records, scales)) →
      u.writeScr n y (y.sreg n.a.toNat) (records.flatMap (fun r => r ++ List.replicate (ceilDiv p.recBytes 16 * 16 - p.recBytes) 0) ++
        scales.flatMap (bytesOf 4)) CS.ok = .done v z none →
      gives (.stRd n) (v.retire n.slot n.unit (y.pc + 16) z)) ∧
    (∀ i, t.checkHandle (t.context n.slot).tenant h false = .ok i →
      let answer (status v : Nat) : State := t.retire n.slot n.unit (y.pc + 16) ((y.put n.d status).setS (n.d.toNat + 1) (BitVec.ofNat 64 v))
      (n.flags.toNat % 4 = 0 → gives (.stLen n) (answer CS.ok (t.stall i).hdr.committedLen)) ∧
      (n.flags.toNat % 4 = 1 → gives (.stLen n) (answer CS.ok (t.stall i).hdr.specLen)) ∧
      (∀ p l, n.flags.toNat % 4 = 2 → (t.stall i).table = some p → p.layers[layer]? = some l → gives (.stLen n) (answer CS.ok l.filled)) ∧
      (n.flags.toNat % 4 = 3 → gives (.stLen n) (answer CS.ok (t.stall i).hdr.step))) ∧
    (∀ b u, y.reqs.length < 8 → t.readIn (t.hubCmd n) (y.num n n.a) 0 64 = .ok b →
      (t.afterRead (t.context n.slot).tenant (y.num n n.a) 64).checkPoison = u → u.tenantOwns (t.context n.slot).tenant (y.num n n.b) 32 = true →
      0x20 ≤ recGet b 0 1 → recGet b 0 1 ≤ 0x2A →
      gives (.stCmd n) (issuedAt n y ((asking n y true (blockCmd n b) (some (y.num n n.b)) u).stallOpcode (recGet b 0 1) (blockCmd n b)))) ∧
    (let c := t.hubCmd n
    let v := asking n y false c none t
    ∀ i, y.reqs.length < 8 → v.runningStall c h = .ok i →
      gives (.stAbandon n) (issuedAt n y ((v.abandonStep i).complete c CS.ok)) ∧
      (∀ p, (v.stall i).step = some p → p.held = none → stepStatuses.contains layer = true → y.num n n.a ≤ p.drafts.length →
        let k : HeldCommit := ⟨y.num n n.a, y.num n n.b % 2 ^ 32, layer, n.slot, n.unit, coreOf c⟩
        (v.outputRoom (v.stallTenant i) = true → gives (.stCommit n) (issuedAt n y (v.finishCommit i k))) ∧
        (v.outputRoom (v.stallTenant i) = false → gives (.stCommit n) (issuedAt n y ((v.setStall i { v.stall i with step := some { p with held := some k } }).raise
          { code := 0x0B0D, tenant := some (v.stallTenant i), object := (v.stall i).handle })))))) ∧
  (∀ (i : Nat) (s : State) (p : StepX) (h : HeldCommit), (s.stall i).step = some p → p.held = some h →
    (s.outputRoom (s.stallTenant i) = true → exec (.outputQueueRoom i) s =
      .next ((s.setStall i { s.stall i with step := some { p with held := none } }).finishCommit i h)) ∧
    (s.outputRoom (s.stallTenant i) = false → exec (.outputQueueRoom i) s = .next s))

/-- The classes TX and GR (R297, R298) and the mask that was late (R177). -/
def Obligations.TextAndGrammarInstructions : Prop :=
  ∀ (n : Insn) (s : State),
    (let t := seen n 0x18 s
    let y := t.unit n.slot n.unit
    let h := y.num n n.c
    let d := (t.context n.slot).tenant
    let c := t.hubCmd n
    let gives (i : Instr) (f : State) : Prop := Executes i s → exec i s = .next f
    y.reqs.length < 8 → t.kindLost 1 = false → t.on Fld.TX_CTRL_EN = true →
      (∀ i b, let v := asking n y false c none t
        flagBit n 0 = false → v.inputStall d h = .ok i → y.num n n.b ≤ v.get Fld.TX_INPUT_BYTES_BYTES →
        v.readIn c (y.num n n.a) 0 (y.num n n.b) = .ok b →
        let u := (v.afterRead d (y.num n n.a) (y.num n n.b)).checkPoison
        ((u.stall i).state ≠ .running → gives (.txTok n) (issuedAt n y (u.applyInput i (coreOf c) b))) ∧
        ((u.stall i).state = .running → gives (.txTok n) (issuedAt n y (u.setStall i { u.stall i with
          deferred := (u.stall i).deferred ++ [.input (coreOf c) b] })))) ∧
      (∀ i m, let v := asking n y false c none t
        flagBit n 0 = true → v.checkHandle d h false = .ok i → v.deliveredMsg d (y.num n n.a) = .ok m → m.type = 0x14 →
        ((v.stall i).state ≠ .running → gives (.txTok n) (issuedAt n y ((v.applyResult i m).1.complete (coreOf c) (v.applyResult i m).2))) ∧
        ((v.stall i).state = .running → gives (.txTok n) (issuedAt n y (v.setStall i { v.stall i with
          deferred := (v.stall i).deferred ++ [.result m (some (coreOf c))] })))) ∧
      (∀ i b, let v := asking n y true c none t
        v.liveStall c h = .ok i → v.usableToken i (y.num n n.a) = .ok b →
        let u := v.lookToken i (y.num n n.a)
        u.tenantOwns d (y.num n n.b) 255 = true → gives (.txDetok n) (issuedAt n y ((u.writeT1 d (y.num n n.b) b).complete c CS.ok b.length))) ∧
      (∀ i e, let v := asking n y true c none t
        v.liveStall c h = .ok i → v.usableToken i (y.num n n.a) = .error e →
        gives (.txDetok n) (issuedAt n y (((v.lookToken i (y.num n n.a)).refuseToken i e.1).complete c e.2))) ∧
      (∀ i, let v := asking n y true c none t
        v.runningStall c h = .ok i →
        gives (.txStop n) (issuedAt n y ((v.runStop i (y.num n n.a)).1.complete c (v.runStop i (y.num n n.a)).2.1 (v.runStop i (y.num n n.a)).2.2)) ∧
        gives (.txCall n) (issuedAt n y ((v.runCall i (y.num n n.a)).1.complete c (v.runCall i (y.num n n.a)).2.1 (v.runCall i (y.num n n.a)).2.2)))) ∧
    (let t := seen n 0x18 s
    let y := t.unit n.slot n.unit
    let c := t.hubCmd n
    let gives (i : Instr) (f : State) : Prop := Executes i s → exec i s = .next f
    (∀ b u, y.reqs.length < 8 → t.readIn c (y.num n n.a) 0 64 = .ok b → (t.afterRead (t.context n.slot).tenant (y.num n n.a) 64).checkPoison = u →
      recGet b 0 1 = 0x40 → gives (.txBind n) (issuedAt n y ((asking n y false (blockCmd n b) none u).textBind (blockCmd n b)))) ∧
    (y.reqs.length < 8 → t.kindLost 1 = false → t.on Fld.TX_CTRL_EN = false →
      gives (.txTok n) (issuedAt n y ((asking n y false c none t).complete c CS.notReady)) ∧
      gives (.txDetok n) (issuedAt n y ((asking n y true c none t).complete c CS.notReady))) ∧
    (8 ≤ y.reqs.length → gives (.txTok n) t ∧ gives (.txDetok n) t ∧ gives (.txStop n) t ∧ gives (.txCall n) t)) ∧
    (let t := seen n 0x19 s
    let y := t.unit n.slot n.unit
    let h := y.num n n.c
    let j := y.num n n.a
    let d := (t.context n.slot).tenant
    let c := t.hubCmd n
    let gives (i : Instr) (f : State) : Prop := Executes i s → exec i s = .next f
    y.reqs.length < 8 → t.kindLost 2 = false → t.on Fld.GR_CTRL_EN = true →
      (∀ i, let v := asking n y true c none t
        v.runningStall c h = .ok i → j ≤ (((v.stall i).step.map (·.drafts)).getD []).length →
        let u := v.noteMask i j (v.positionMask i j)
        (flagBit n 0 = false → gives (.grMask n) (issuedAt n y (u.complete c CS.ok (v.positionMask i j).allowed.length))) ∧
        (flagBit n 0 = true → v.tenantOwns d (y.num n n.b) ((v.vocabSize d + 7) / 8) = true → gives (.grMask n)
          (issuedAt n y ((u.writeT1 d (y.num n n.b) (maskBitmap (u.vocabSize d) (v.positionMask i j))).complete c CS.ok
            (v.positionMask i j).allowed.length)))) ∧
      (∀ i, let v := asking n y false c none t
        v.liveStall c h = .ok i → gives (.grAdv n) (issuedAt n y ((v.advanceGrammar i j).1.complete c (v.advanceGrammar i j).2)))) ∧
    (∀ (i pos : Nat) (p : StepX), (s.stall i).step = some p → exec (.grMaskReady i pos) s =
      .next ((p.waits.filter (fun w => w.pos = pos)).foldl (fun u w =>
        let r := (u.bump Fld.GR_LATE_NS_NS (u.now - w.since)).drawAt i w.pos w.row w.list w.profile
        r.1.answerHub w.slot w.unit w.cmd r.2.1 r.2.2)
        (s.setStall i { s.stall i with step := some { p with waits := p.waits.filter (fun w => w.pos ≠ pos) } })))

/-- Selection (R197 to R206, R299) and search requests (R301). -/
def Obligations.SelectionAndSearchInstructions : Prop :=
  (∀ (c : Cmd) (s : State), Accepted s c .tenant false →
    let r := s.selectLists ((s.issuerTenant c.issuer).getD 0) c.tag.toNat false (opU32 c 32) (opU32 c 36) (opByte c 40) (opU32 c 44) c.addrA.toNat c.addrB.toNat
    exec (.select c) s = .next (r.1.complete c r.2.1 r.2.2.1 r.2.2.2)) ∧
  (∀ (n : Insn) (s : State),
    (let t := seen n 0x1A s
    let y := t.unit n.slot n.unit
    let d := (t.context n.slot).tenant
    let c := t.hubCmd n
    let gives (i : Instr) (f : State) : Prop := Executes i s → exec i s = .next f
    (∀ b u, y.reqs.length < 8 → t.readIn c (y.num n n.a) 0 64 = .ok b → (t.afterRead d (y.num n n.a) 64).checkPoison = u →
      let k := blockCmd n b
      let v := asking n y true k none u
      let r := v.selectLists (v.context n.slot).tenant 0 true (opU32 k 32) (opU32 k 36) (opByte k 40) (opU32 k 44) k.addrA.toNat k.addrB.toNat
      gives (.slMerge n) (issuedAt n y (r.1.complete k r.2.1 r.2.2.1))) ∧
    (y.reqs.length < 8 → t.kindLost 4 = false → t.on Fld.SEL_CTRL_EN = true →
      (let v := asking n y false c none t
      let r := v.gatherResult (v.context n.slot).tenant (y.num n n.a) (y.num n n.b) (y.num n n.c) (n.imm.toNat % 2 ^ 13)
      gives (.slGather n) (issuedAt n y (r.1.complete c r.2))) ∧
      (∀ i late, let v := asking n y true c none t
        let j := n.imm.toNat % 16
        v.runningStall c (y.num n n.c) = .ok i → j ≤ (((v.stall i).step.map (·.drafts)).getD []).length →
        ((v.stall i).step.any (fun p => decide (p.profileAt = y.num n n.b)) = true ∨ v.addrOk (y.num n n.b) 32 = false ∨
          v.tenantOwns d (y.num n n.b) 32 = true) →
        let u := (v.drawProfile i (y.num n n.b)).1
        let w := (v.drawProfile i (y.num n n.b)).2
        ((late = false ∨ (u.stall i).hdr.grImage = 0) →
          let r := u.drawAt i j (y.num n n.a) (flagBit n 0) w
          gives (.slDraw n late) (issuedAt n y (r.1.complete c r.2.1 r.2.2))) ∧
        (late = true → (u.stall i).hdr.grImage ≠ 0 →
          let q : DrawWait := ⟨n.slot, n.unit, coreOf c, j, y.num n n.a, flagBit n 0, w, u.now⟩
          gives (.slDraw n late) (issuedAt n y (((u.setStall i { u.stall i with
            step := (u.stall i).step.map (fun p => { p with waits := p.waits ++ [q] }) }).bump Fld.GR_LATE_CNT_COUNT 1).stallEvent 0x0804 i))))) ∧
    (let r := seedwheel (y.sreg n.a.toNat) (y.sreg n.b.toNat) (y.sreg n.c.toNat) n.imm
    gives (.slRand n) (t.retire n.slot n.unit (y.pc + 16) ((y.setS n.d.toNat r.1).setS (n.d.toNat + 1) r.2)))) ∧
    (let t := seen n 0x1B s
    let y := t.unit n.slot n.unit
    ∀ b u, Executes (.vsCmd n) s → y.reqs.length < 8 → t.readIn (t.hubCmd n) (y.num n n.a) 0 64 = .ok b →
      (t.afterRead (t.context n.slot).tenant (y.num n n.a) 64).checkPoison = u → u.tenantOwns (t.context n.slot).tenant (y.num n n.b) 32 = true →
      0x60 ≤ recGet b 0 1 → recGet b 0 1 ≤ 0x64 → exec (.vsCmd n) s =
        .next (issuedAt n y ((asking n y true (blockCmd n b) (some (y.num n n.b)) u).vsOpcode (recGet b 0 1) (blockCmd n b)))))

/-- The classes NW and SC (R302 to R304). -/
def Obligations.NetworkAndSchedulerInstructions : Prop :=
  (∀ (n : Insn) (s : State),
    (let t := seen n 0x20 s
    let y := t.unit n.slot n.unit
    let d := (t.context n.slot).tenant
    let c := t.hubCmd n
    let gives (i : Instr) (f : State) : Prop := Executes i s → exec i s = .next f
    (∀ b, let v := asking n y false c none t
      let h := y.num n n.c
      y.reqs.length < 8 → t.kindLost 6 = false → t.on Fld.NW_CTRL_EN = true → 0x80 ≤ n.imm.toNat % 256 → n.imm.toNat % 256 < 0xC0 →
      (h = 0 ∨ ∃ i, v.checkHandle d h true = .ok i) → v.readIn c (y.num n n.a) 0 (y.num n n.b) = .ok b →
      let u := (v.afterRead d (y.num n n.a) (y.num n n.b)).checkPoison
      let dest := u.sendTarget h
      let id := dest.1.drawFree
      let m : Msg := { type := n.imm.toNat % 256, src := u.deviceId, dst := dest.2.1, tenant := d, handle := dest.2.2, msgId := id.1.toNat, payload := b }
      gives (.nwSend n) (issuedAt n y (((id.2.send m).awaitAccept m).complete c CS.ok))) ∧
    (t.tenantOwns d (y.num n n.a) (y.num n n.b) = true →
      (∀ m rest, t.net.recvWaits.any (fun w => w.1 = d) = false → t.inboxOf d = m :: rest →
        let r := t.takeMessage d (y.num n n.a) (y.num n n.b) m rest
        gives (.nwRecv n) (r.1.retire n.slot n.unit (y.pc + 16) (recvResult y n.d.toNat r.2.1 r.2.2))) ∧
      ((t.net.recvWaits.any (fun w => w.1 = d) = true ∨ t.inboxOf d = []) →
        (y.num n n.c ≠ 0 → y.num n n.c ≤ t.now → gives (.nwRecv n)
          (t.drawFree.2.retire n.slot n.unit (y.pc + 16) (recvResult y n.d.toNat CS.timeout t.drawFree.1.toNat))) ∧
        ((y.num n n.c = 0 ∨ t.now < y.num n n.c) →
          let u := t.setUnit n.slot n.unit { y with wait := some (.inbox (y.num n n.a) (y.num n n.b) (y.num n n.c) n.d.toNat) }
          gives (.nwRecv n) { u with net := { u.net with recvWaits := u.net.recvWaits ++ [(d, n.slot, n.unit)] } }))) ∧
    (t.tenantOwns d (y.num n n.a) (y.num n n.b) = false →
      gives (.nwRecv n) (t.retire n.slot n.unit (y.pc + 16) (recvResult y n.d.toNat CS.badCommand 0)))) ∧
    (let t := seen n 0x21 s
    let y := t.unit n.slot n.unit
    let d := (t.context n.slot).tenant
    let c := t.hubCmd n
    let gives (i : Instr) (f : State) : Prop := Executes i s → exec i s = .next f
    y.reqs.length < 8 →
      gives (.scLaunch n) (issuedAt n y ((asking n y true c none t).launch c ((asking n y true c none t).context n.slot).tenant
        (y.num n n.a) (y.num n n.b) 0 (y.num n n.c) false true)) ∧
      gives (.scStop n) (issuedAt n y ((asking n y false c none t).stop c ((asking n y false c none t).context n.slot).tenant (y.num n n.a))) ∧
      (∀ b, let v := asking n y true c none t
        v.on Fld.SCH_CTRL_EN = true → v.tenantOwns d (y.num n n.a) 64 = true → v.readT1 d (y.num n n.a) 64 = .ok b →
        gives (.scRound n) (issuedAt n y ((v.afterRead d (y.num n n.a) 64).checkPoison.issueRound
          ⟨n.slot, n.unit, coreOf c, y.num n n.a, y.num n n.b, [], []⟩ d b))))) ∧
  (∀ (slot unit a l d deadline : Nat) (s : State), (s.unit slot unit).wait = some (.inbox a l deadline d) →
    (deadline ≠ 0 → deadline ≤ s.now → exec (.nwRecvTimeout slot unit) s = .next (s.drawFree.2.endRecv slot unit d CS.timeout s.drawFree.1.toNat)) ∧
    ((deadline = 0 ∨ s.now < deadline) → exec (.nwRecvTimeout slot unit) s = .next s))

/-- STALL_CREATE (R44, R46, R635). -/
def Obligations.StallCreation : Prop :=
  ∀ (c : Cmd) (s : State) (start : Nat), AcceptedHeld s c .tenant false →
    let t := (s.issuerTenant c.issuer).getD 0
    let named := opByte c 32 = 0 → (c.addrA = 0 ∧ start = 0 ∨ c.addrA ≠ 0 ∧ ∃ g, s.grammarImage t c.addrA.toNat = .ok g ∧ g.start = start) ∧
      (c.addrB = 0 ∨ ∃ q, s.stopSet t c.addrB.toNat = .ok q)
    (s.allocStopped = true → exec (.stallCreate c) s = .next s) ∧
    (s.allocStopped = false → s.createFieldsOk c t = false → exec (.stallCreate c) s = .next (s.complete c CS.badCommand)) ∧
    (s.allocStopped = false → s.createFieldsOk c t = true → s.createEnabled c t = false →
      exec (.stallCreate c) s = .next (s.complete c CS.notReady)) ∧
    (s.allocStopped = false → s.createFieldsOk c t = true → s.createEnabled c t = true → named →
      (s.get Fld.STL_CTRL_HOLD_CREATE = 1 → exec (.stallCreate c) s = .next (s.complete c CS.noResource)) ∧
      (s.get Fld.STL_CTRL_HOLD_CREATE = 0 → s.get (Fld.TN_QUOTA_STALLS t) ≤ s.tenantStalls t →
        exec (.stallCreate c) s = .next ((s.raise { code := 0x0A05, tenant := some t }).complete c CS.noResource)) ∧
      (s.get Fld.STL_CTRL_HOLD_CREATE = 0 → s.tenantStalls t < s.get (Fld.TN_QUOTA_STALLS t) →
        ((∀ i < stallSlots, (s.stall i).state ≠ .free) ∨ s.freePoolSlot = none) → exec (.stallCreate c) s = .next (s.complete c CS.noResource)) ∧
      (∀ i k h, s.get Fld.STL_CTRL_HOLD_CREATE = 0 → s.tenantStalls t < s.get (Fld.TN_QUOTA_STALLS t) →
        i < stallSlots → (s.stall i).state = .free → (∀ j < i, (s.stall j).state ≠ .free) → s.freePoolSlot = some k →
        (opByte c 35 = h ∧ h ≠ 0xFF ∨ opByte c 35 = 0xFF ∧ s.roomiest (if opByte c 32 = 0 then s.fullHive t else s.partitionHive t) = some h) →
        (opByte c 32 = 0 → ∃ n, n < 16 ∧ s.fullHive t n = true) →
        (opByte c 32 = 0 → ((s.createSeed c).2.newTable i h (s.tenantShape t)).isSome = true) →
        ∃ u : State, exec (.stallCreate c) s = .next (u.complete c CS.ok (stallHandle i (s.stall i).gen t (opByte c 32))) ∧
          (u.stall i).state = .hot ∧ (u.stall i).handle = stallHandle i (s.stall i).gen t (opByte c 32) ∧ (u.stall i).epoch = 1 ∧
          (u.stall i).location = 0 ∧ (u.stall i).headerAt = s.get Fld.STL_HDR_POOL_BASE + 4096 * k ∧ (u.stall i).hdr.tenant = t ∧
          (u.stall i).hdr.priority = opByte c 33 ∧ (u.stall i).hdr.deadPolicy = opByte c 34 ∧ (u.stall i).hdr.flags = opU16 c 44 ∧
          (u.stall i).hdr.endToken = opU32 c 36 ∧ (u.stall i).hdr.homeHive = h ∧
          ((u.stall i).table.isSome = true ↔ opByte c 32 = 0) ∧ ∀ j, j ≠ i → u.stall j = s.stall j))

/-- The commands of R43 on a stall (R38, R40, R45, R48, R50). -/
def Obligations.StallStateCommands : Prop :=
  ∀ (c : Cmd) (s : State) (i : Nat),
    let x := s.stall i
    let later (op : Nat) := s.setStall i { x with deferred := x.deferred ++ [.command op c] }
    (let q := if x.state = .running then s else (s.healHeader i).checkPoison;
      OnStall s c i true → opZero c 32 63 = true → c.addrA = 0 → c.addrB = 0 →
      (∀ st, q.headerStatus i = some st → exec (.stallQuery c) s = .next (q.complete c st)) ∧
      (q.headerStatus i = none → exec (.stallQuery c) s = .next (q.complete c CS.ok (stateCode (q.stall i).state) (q.stall i).epoch (q.stall i).hdr.committedLen))) ∧
    (OnStall s c i true → x.state = .remote → opZero c 32 63 = true → busyOpcode x = none →
      ∃ t : State, exec (.stallForget c) s = .next (t.complete c CS.ok) ∧ (t.stall i).state = .free) ∧
    (OnStall s c i true → x.state ≠ .remote → x.state ≠ .running → x.state ≠ .orphaned → busyOpcode x = none → opZero c 32 63 = true →
      exec (.stallForget c) s = .next (s.complete c CS.notReady (stateCode x.state))) ∧
    (OnStall s c i false →
      (x.state = .running →
        (opZero c 33 63 = true → x.hdr.kind ≠ 1 → exec (.stallPark c) s = .next (later 0x23)) ∧
        (opByte c 32 ≤ 1 → opByte c 33 = 0 → (opByte c 34 < 16 ∨ opByte c 34 = 0xFF) → opZero c 35 63 = true →
          exec (.stallRevive c) s = .next (later 0x24)) ∧
        (opU32 c 32 = 0 → opZero c 36 63 = true → exec (.stallResume c) s = .next (later 0x26)) ∧
        (opZero c 32 63 = true → exec (.stallRetire c) s = .next (later 0x27) ∧ exec (.stallFree c) s = .next (later 0x28)) ∧
        (opU16 c 32 = 0 → opZero c 34 39 = true → opZero c 60 63 = true → exec (.stallConfig c) s = .next (later 0x22))) ∧
      (busyOpcode x = none → x.state ∈ [StallState.hot, .waiting] → opZero c 33 63 = true → x.hdr.kind ≠ 1 →
        ∃ t : State, exec (.stallPark c) s = .next t ∧ flagOn (t.stall i) 6 = true ∧ (t.stall i).state = x.state ∧
          (t.stall i).park = some ⟨x.state, some (coreOf c), if opByte c 32 = 0 then x.hdr.shedPorts else opByte c 32⟩ ∧ t.io = s.io) ∧
      (busyOpcode x = none → x.state = .parked → s.allocStopped = false → opByte c 32 ≤ 1 → opByte c 33 = 0 → opByte c 34 = 0xFF → opZero c 35 63 = true →
        (s.takeSlot i = none → ∃ t : State, exec (.stallRevive c) s = .next (t.complete c CS.noResource) ∧ (t.stall i).state = .parked ∧ t.t1 = s.t1) ∧
        (∀ u st, s.takeSlot i = some u → s.headerStatus i = some st → exec (.stallRevive c) s = .next (s.complete c st)) ∧
        (∀ u, s.takeSlot i = some u → s.headerStatus i = none → u.takeTable i 0xFF = none →
          ∃ t : State, exec (.stallRevive c) s = .next (t.complete c CS.noResource) ∧ (t.stall i).state = .parked ∧ t.t1 = s.t1) ∧
        (∀ u v, s.takeSlot i = some u → s.headerStatus i = none → u.takeTable i 0xFF = some v → ∃ t : State, exec (.stallRevive c) s = .next t ∧
          flagOn (t.stall i) 7 = true ∧ (t.stall i).revive = some ⟨.command (coreOf c), decide (opByte c 32 = 0), 0xFF⟩ ∧ t.io = v.io)) ∧
      (busyOpcode x = none → x.state ∈ [StallState.hot, .waiting, .parked] → s.merging i = false → opZero c 32 63 = true →
        ∃ t : State, exec (.stallRetire c) s = .next (t.complete c CS.ok x.hdr.committedLen x.hdr.step) ∧ (t.stall i).state = .retired ∧
          (t.stall i).retiredAt = s.now ∧ (t.stall i).table = none ∧ (t.stall i).queued = []) ∧
      (busyOpcode x = none → x.state = .retired → s.merging i = false → opZero c 32 63 = true →
        ∃ t : State, exec (.stallFree c) s = .next (t.complete c CS.ok) ∧ (t.stall i).state = .free ∧
          (t.stall i).gen = (if x.gen = 0xFFFFFFFF then 1 else x.gen + 1)) ∧
      (busyOpcode x = none → x.state = .waiting → opU32 c 32 = 0 → opZero c 36 63 = true → x.heldInput = [] →
        ∃ t : State, exec (.stallResume c) s = .next (t.complete c CS.ok x.hdr.committedLen) ∧ (t.stall i).state = .hot ∧ flagOn (t.stall i) 5 = false) ∧
      (x.state ∉ [StallState.running, .parked, .orphaned] → x.location ≠ 1 → s.headerStatus i = none → opU16 c 32 = 1 → opZero c 34 39 = true → opZero c 60 63 = true →
        opByte c 40 ≤ 7 → ∃ t : State, exec (.stallConfig c) s = .next (t.complete c CS.ok 1) ∧ (t.stall i).hdr = { x.hdr with priority := opByte c 40 } ∧ t.io = s.io) ∧
      (busyOpcode x = none → x.state ∉ [StallState.hot, .running, .waiting, .orphaned] → opZero c 33 63 = true → x.hdr.kind ≠ 1 →
        exec (.stallPark c) s = .next (s.complete c CS.notReady (stateCode x.state))) ∧
      (x.state = .orphaned → opZero c 33 63 = true → x.hdr.kind ≠ 1 → exec (.stallPark c) s = .next (s.complete c CS.orphaned)))

/-- The stall engine's own events (R40, R48 to R52, R56, R90); what it reads of a stall in Tier 1 is looked at first (R126). -/
def Obligations.StallEngineEvents : Prop :=
  ∀ (s : State) (i : Nat),
    let x := s.stall i
    let v := s.tend i
    (∀ p u w, x.park.isSome = true → (v.stall i).park = some p → v.journalUpTo i p.ports (v.stall i).hdr.committedLen = some u → u.sealImage i p.ports = some w →
      ∃ t : State, exec (.parkWritesDone i) s = .next t.advanceTeardowns ∧
        (t.stall i).state = .parked ∧ (t.stall i).location = 1 ∧ (t.stall i).poolSlot = none ∧ (t.stall i).table = none ∧ (t.stall i).queued = []) ∧
    (∀ r c bad ok, x.revive = some r → r.cause = .command c → s.allocStopped = false → s.on Fld.PW_STATUS_PARKING = false →
      let w := s.loseRevive i bad ok
      (∀ st, (headerRecord (w.stall i)).bind w.recordStatus = some st → exec (.reviveReadsDone i bad ok) s = .next ((w.undoRevive i).complete c st)) ∧
      (∀ u : State, (headerRecord (w.stall i)).bind w.recordStatus = none → x.result = none →
        w.reviveImage i ((s.readRevive i bad ok).usable i) = some (u, none) →
        exec (.reviveReadsDone i bad ok) s =
          .next ((if r.toHot then u.enterHot i else u.enterWaiting i).complete c CS.ok (journalBytes ((s.readRevive i bad ok).usable i))))) ∧
    (∀ r at_, x.result = some r → r.retryAt = some at_ → x.state = .parked → busyOpcode x = none →
      let w := s.setStall i { x with result := some { r with retryAt := none } }
      (s.now < at_ → exec (.reviveRetry i) s = .next s) ∧
      (∀ a u, at_ ≤ s.now → s.on Fld.PW_STATUS_PARKING = false → w.takeSlot i = some a → w.headerStatus i = none → a.takeTable i 0xFF = some u →
        ∃ t : State, exec (.reviveRetry i) s = .next t ∧ flagOn (t.stall i) 7 = true ∧ t.io = u.io) ∧
      (at_ ≤ s.now → s.on Fld.PW_STATUS_PARKING = false → w.takeSlot i = none → ∃ t : State, exec (.reviveRetry i) s = .next (t.stallEvent 0x0602 i) ∧
        (t.stall i).state = .parked ∧ (t.stall i).result = some { r with retryAt := some (s.now + s.get Fld.STL_REVIVE_RETRY_NS) })) ∧
    (x.state = .retired → s.merging i = false → x.retiredAt + s.get Fld.STL_RETIRE_HOLD_NS ≤ s.now → ∃ t : State, exec (.retireHoldExpiry i) s = .next t ∧
      (t.stall i).state = .free ∧ (t.stall i).gen = (if x.gen = 0xFFFFFFFF then 1 else x.gen + 1)) ∧
    ((x.state ≠ .retired ∨ s.merging i = true ∨ s.now < x.retiredAt + s.get Fld.STL_RETIRE_HOLD_NS) → exec (.retireHoldExpiry i) s = .next s) ∧
    (x.state = .waiting → flagOn x 4 = false → busyOpcode x = none → x.hdr.kind ≠ 1 → x.heldInput = [] →
      (∀ w, w = (if x.hdr.waitTimeout = 0 then s.get Fld.STL_WAIT_DEFAULT_NS else x.hdr.waitTimeout) →
        (w ≠ 0xFFFFFFFFFFFFFFFF → x.hdr.waitStart + w ≤ s.now → ∃ t : State, exec (.waitTimeout i) s = .next t ∧
          flagOn (t.stall i) 6 = true ∧ (t.stall i).state = .waiting ∧ (t.stall i).park = some ⟨.waiting, none, x.hdr.shedPorts⟩ ∧ t.io = s.io) ∧
        ((w = 0xFFFFFFFFFFFFFFFF ∨ s.now < x.hdr.waitStart + w) → exec (.waitTimeout i) s = .next s))) ∧
    (flagOn x 4 = true ∨ x.heldInput ≠ [] → exec (.waitTimeout i) s = .next s) ∧
    (∀ n m, x.state ∈ [StallState.hot, .running, .waiting] → x.hdr.kind ≠ 1 → s.writablePorts ≠ 0 →
      markFor (v.stall i) n = some m → (v.stall i).hdr.journalLen < m.len →
      (v.journalAt i 0 m.step m.sampleCtr (.latent (v.runsOf i (v.stall i).hdr.journalLen m.len m.nextInput))).isSome = true →
      ∃ t : State, exec (.journalRecordWrite i n none) s = .next t ∧ (t.stall i).hdr.journalLen = m.len ∧ t.t1 = v.t1) ∧
    (∀ n b, (x.state ∉ [StallState.hot, .running, .waiting] ∨ x.hdr.kind = 1 ∨ s.writablePorts = 0) →
      exec (.journalRecordWrite i n b) s = .next s) ∧
    (∀ layer r p l, (v.stall i).relocs.find? (fun q => decide (q.layer = layer)) = some r → (v.stall i).table = some p → p.layers[layer]? = some l →
      ∃ t : State, exec (.layerRelocateDone i layer) s = .next (t.stallEvent 0x0705 i [layer]) ∧
        (t.stall i).relocs = (v.stall i).relocs.filter (fun q => decide (q.layer ≠ layer)) ∧ (t.stall i).hdr.layerMap = (v.stall i).hdr.layerMap.set layer r.hive ∧
        (((t.stall i).table.bind (·.layers[layer]?)).map Layer.list) = some r.list) ∧
    (∀ start len, s.t1.allOwned Owner.isQuarantine start len = true → exec (.quarantineScrubDone start len) s =
      .next (State.advanceTeardowns { s with t1 := (s.t1.clear start len).free start len })) ∧
    (∀ start len, s.t1.allOwned Owner.isQuarantine start len = false → exec (.quarantineScrubDone start len) s = .next s)

/-- The audit of the books (R47, R70). -/
def Obligations.BooksAudit : Prop :=
  ∀ (c : Cmd) (s : State) (k : Nat),
    (AcceptedHeld s c .tenant false →
      (opZero c 32 63 = false → exec (.booksAudit c) s = .next (s.refuse c CS.badCommand)) ∧
      (opZero c 32 63 = true → s.get Fld.STL_CTRL_EN = 0 → exec (.booksAudit c) s = .next (s.refuse c CS.notReady)) ∧
      (opZero c 32 63 = true → s.get Fld.STL_CTRL_EN = 1 → (∀ j < 4096, (s.op j).live = true) →
        exec (.booksAudit c) s = .next (s.refuse c CS.noResource)) ∧
      (opZero c 32 63 = true → s.get Fld.STL_CTRL_EN = 1 → k < 4096 → (s.op k).live = false → (∀ j < k, (s.op j).live = true) →
        ∃ t u : State, exec (.booksAudit c) s = .next u ∧ u = { t.complete c CS.ok (t.opHandle k) with allocStopped := true } ∧
          (t.op k).live = true ∧ (t.op k).st = .running ∧ (t.op k).opcode = 0x2A ∧ t.io = s.io)) ∧
    ((s.op k).live = true → (s.op k).opcode = 0x2A → (s.op k).st = .running → s.booksQuiet = true →
      (s.pageImbalance = 0 → s.budgetImbalance = 0 → exec (.booksAuditCompare k) s =
        .next (({ s with allocStopped := false } : State).endOp k .done CS.ok)) ∧
      ((s.pageImbalance ≠ 0 ∨ s.budgetImbalance ≠ 0) → exec (.booksAuditCompare k) s =
        .next ((({ s with allocStopped := false } : State).raise { code := 0x0607, detail := [s.pageImbalance, s.budgetImbalance] }).endOp k .failed
          CS.integrity s.pageImbalance s.budgetImbalance))) ∧
    (s.booksQuiet = false → exec (.booksAuditCompare k) s = .next s)

/-- An MST announcement (R54). -/
def Obligations.AnnouncementRevives : Prop :=
  ∀ (m : Msg) (s : State) (i : Nat),
    let x := s.stall i
    (s.slotOf m.handle = some i → x.state = .parked → busyOpcode x = none → flagOn x 1 = true → x.hdr.toolCallId = m.msgId → m.msgId ≠ 0 → x.result = none →
      (∀ u v, s.takeSlot i = some u → s.headerStatus i = none → u.takeTable i 0xFF = some v → ∃ t : State, exec (.announceReceived m) s = .next t ∧
        flagOn (t.stall i) 7 = true ∧ (t.stall i).revive = some ⟨.announce, false, 0xFF⟩ ∧ t.io = v.io) ∧
      (∀ u st, s.takeSlot i = some u → s.headerStatus i = some st → exec (.announceReceived m) s = .next s) ∧
      (s.headerStatus i = none → (s.takeSlot i).bind (fun u => u.takeTable i 0xFF) = none → ∃ t : State, exec (.announceReceived m) s = .next t ∧
        (t.stall i).state = .parked ∧ (t.stall i).revive = none)) ∧
    (∀ r u, x.revive = some r → r.cause = .announce → s.allocStopped = false → s.on Fld.PW_STATUS_PARKING = false → x.result = none →
      let w := s.loseRevive i none true
      (headerRecord (w.stall i)).bind w.recordStatus = none → w.reviveImage i ((s.readRevive i none true).usable i) = some (u, none) →
      ∃ t : State, exec (.reviveReadsDone i none true) s = .next t ∧ (t.stall i).state = .waiting ∧ (t.stall i).hdr.waitStart = u.now) ∧
    (s.slotOf m.handle = some i → x.state ≠ .remote →
      (x.state ≠ .parked ∨ busyOpcode x ≠ none ∨ flagOn x 1 = false ∨ x.hdr.toolCallId ≠ m.msgId ∨ x.hdr.toolCallId = 0 ∨ x.result ≠ none) →
      exec (.announceReceived m) s = .next s)

/-- Results and the messages about ownership (R55, R63, R66, R429). -/
def Obligations.ToolResults : Prop :=
  ∀ (m : Msg) (s : State),
    (s.freezing = true → ∀ k ∈ [Instr.resultReceived m, .fetchReceived m, .fetchRefusedReceived m, .redirectReceived m, .ownerNoticeReceived m,
      .ownerQueryReceived m, .ownerAnswerReceived m, .leaseRenewReceived m], exec k s = .next s) ∧
    (s.freezing = false → s.slotOf m.handle = none → exec (.resultReceived m) s = .next s) ∧
    (∀ i, s.freezing = false → s.slotOf m.handle = some i →
      let x := s.stall i
      (x.state = .remote → exec (.resultReceived m) s = .next (s.redirect m i)) ∧
      (x.state = .moving → exec (.resultReceived m) s = .next (s.bump (Fld.NW_STAT_COUNT 7) 1)) ∧
      (x.state = .running → exec (.resultReceived m) s = .next (s.setStall i { x with deferred := x.deferred ++ [.result m none] })) ∧
      (x.state ∈ [StallState.hot, .waiting, .parked] → (x.hdr.toolCallId = 0 ∨ x.hdr.toolCallId ≠ m.msgId) →
        exec (.resultReceived m) s = .next (s.bump (Fld.NW_STAT_COUNT 0) 1)) ∧
      (∀ toks v u w, s.journalIf i 0 (.input (s.inputBase i) true m.payload) = some v → u = (v.sendAccept m i).updHdr i (fun h => { h with toolCallId := 0 }) →
        x.state = .waiting → flagOn x 6 = false → x.hdr.toolCallId = m.msgId → m.msgId ≠ 0 → x.result = none → x.heldInput = [] →
        m.payload.length ≤ s.get Fld.TX_INPUT_BYTES_BYTES → u.tokeniseInput x.hdr.tenant true m.payload = .ok (toks, false) →
        (u.lookInput x.hdr.tenant [m.payload]).queueTokens i toks = some w →
        exec (.resultReceived m) s = .next (w.enterHot i) ∧ ((w.enterHot i).stall i).hdr.toolCallId = 0 ∧ (w.stall i).queued = x.queued ++ toks)) ∧
    (s.freezing = false → s.slotOf m.msgId = none →
      exec (.fetchReceived m) s = .next (s.sendDevice 0x07 m.src m.tenant 0 m.msgId CS.staleGeneration)) ∧
    (∀ i, s.freezing = false → s.slotOf m.msgId = some i →
      let x := s.stall i
      (x.state = .remote → exec (.fetchReceived m) s = .next (s.redirect m i)) ∧
      (x.hdr.kind = 1 → x.state ≠ .remote → exec (.fetchReceived m) s = .next (s.sendDevice 0x07 m.src x.hdr.tenant 0 m.msgId CS.badCommand)) ∧
      (x.hdr.kind ≠ 1 → x.state = .running → exec (.fetchReceived m) s = .next (s.setStall i { x with deferred := x.deferred ++ [.fetch m.src] })) ∧
      (x.hdr.kind ≠ 1 → busyOpcode x = none → x.state ∈ [StallState.hot, .waiting, .parked] →
        (∀ u, s.intoPool i = .ok u → ∃ t : State, exec (.fetchReceived m) s = .next t ∧
          (t.stall i).state = .moving ∧ (t.stall i).hdr.peerDev = m.src ∧ (t.stall i).hdr.migPhase = 1 ∧ (t.stall i).hdr.priorState = stateCode (u.stall i).state) ∧
        (∀ st, s.intoPool i = .error st → exec (.fetchReceived m) s = .next (s.sendDevice 0x07 m.src x.hdr.tenant 0 m.msgId st)))) ∧
    (∀ k c, s.freezing = false → s.fetchSlot m.src m.msgId = some k → (s.stall k).fetchCmd = some c → exec (.fetchRefusedReceived m) s =
      .next ((s.setStall k { s.stall k with fetchCmd := none }).complete c CS.notOwner m.src m.msgId (m.aux % 256))) ∧
    (s.freezing = false → s.fetchSlot m.src m.msgId = none →
      exec (.redirectReceived m) s = .next (s.repoint m.src m.msgId (recGet m.payload 0 2) m.aux none) ∧
      exec (.fetchRefusedReceived m) s = .next s) ∧
    (s.freezing = false →
      let u := s.repoint (recGet m.payload 2 2) (recGet m.payload 4 8) (recGet m.payload 0 2) m.msgId (some m.aux)
      let k := u.noticeSlot (recGet m.payload 0 2) m.msgId (recGet m.payload 2 2) (recGet m.payload 4 8)
      (recGet m.payload 0 2 = u.deviceId ∨ k = none → exec (.ownerNoticeReceived m) s = .next u) ∧
      (∀ i, recGet m.payload 0 2 ≠ u.deviceId → k = some i → (u.stall i).state ∈ [StallState.hot, .running, .waiting, .parked] → (u.stall i).epoch ≤ m.aux →
        exec (.ownerNoticeReceived m) s = .next ((u.orphan i).learnCopy i ⟨recGet m.payload 0 2, m.msgId, m.aux, true⟩)))

/-- The migration of a stall (R62 to R66). -/
def Obligations.MigrationHandshake : Prop :=
  ∀ (s : State) (i : Nat),
    let x := s.stall i
    (∀ c k, OnStall s c i false → opU16 c 32 < 4096 → opByte c 34 ≤ 1 → opZero c 35 63 = true → x.hdr.kind ≠ 1 → k < 4096 →
      (s.op k).live = false → (∀ j < k, (s.op j).live = true) →
      (busyOpcode x = none → x.state ∈ [StallState.hot, .waiting, .parked] →
        (∀ st, s.intoPool i = .error st → exec (.stallMigrate c) s = .next (s.completeWith c true st 0 0 0)) ∧
        (∀ u, (s.intoPool i).toOption.isSome = true → (s.beginOp c 0x25 [i] true (fun _ t => t)).intoPool i = .ok u →
          ∃ t : State, exec (.stallMigrate c) s = .next t ∧
            (t.op k).st = .running ∧ (t.stall i).state = .moving ∧ (t.stall i).hdr.migRole = 1 ∧
            (t.stall i).hdr.migPhase = 1 ∧ (t.stall i).hdr.peerDev = opU16 c 32 ∧ (t.stall i).hdr.priorState = stateCode (u.stall i).state ∧
            (t.stall i).leaseExpiry = u.now + u.get Fld.STL_LEASE_PREP_NS)) ∧
      (x.state = .running → ∃ t : State, exec (.stallMigrate c) s = .next t ∧ (t.op k).st = .queued ∧ (t.stall i).state = .running ∧
        (t.stall i).deferred = x.deferred ++ [.command (0x25 + 256 * k) c])) ∧
    (∀ m image, s.freezing = false → m.image = some image →
      (s.destCopy m.src m.msgId = some i → ∀ b, exec (.prepareReceived m b) s = .next s) ∧
      (s.destCopy m.src m.msgId = none →
        exec (.prepareReceived m false) s = .next (s.refusePrepare m CS.integrity) ∧
        (s.allocStopped = true → exec (.prepareReceived m true) s = .next s) ∧
        (s.allocStopped = false → s.get Fld.STL_CTRL_EN = 0 → exec (.prepareReceived m true) s = .next (s.refusePrepare m CS.notReady)) ∧
        (s.allocStopped = false → s.get Fld.STL_CTRL_EN = 1 →
          exec (.prepareReceived m true) s = .next (s.receivePrepare m image.1 image.2 (recGet m.payload 8 1))))) ∧
    (∀ m mg, s.freezing = false → s.slotOf m.msgId = some i → x.mig = some mg → x.state = .moving → x.hdr.migRole = 1 → x.hdr.peerDev = m.src →
      (x.hdr.migPhase = 1 → mg.op = none → ∃ t : State, exec (.preparedReceived m) s = .next t ∧ (t.stall i).hdr.migPhase = 3 ∧
        (t.stall i).leaseExpiry = s.now + s.get Fld.STL_LEASE_COMMIT_NS ∧ (t.stall i).state = .moving) ∧
      (∀ op, x.hdr.migPhase = 1 → mg.op = some op → (s.op op).st = .suspended → ∃ t : State, exec (.preparedReceived m) s = .next t ∧
        (t.stall i).hdr.migPhase = 2 ∧ t.net = s.net) ∧
      (x.hdr.migPhase = 3 → ∃ t : State, exec (.committedReceived m) s = .next t.advanceTeardowns ∧ (t.stall i).state = .remote ∧
        (t.stall i).ownerDev = m.src ∧ (t.stall i).headerAt = mg.destHandle ∧ (t.stall i).epoch = m.aux) ∧
      (x.hdr.priorState = 1 → ∃ t : State, exec (.abortReceived m) s = .next t.advanceTeardowns ∧ (t.stall i).state = .hot ∧
        (t.stall i).epoch = x.epoch ∧ (t.stall i).hdr.migRole = 0)) ∧
    (∀ m, s.freezing = false → s.slotOf m.msgId = none → exec (.preparedReceived m) s = .next (s.sendAbort m.src m.tenant m.msgId CS.timeout)) ∧
    (∀ m, s.freezing = false → s.destCopy m.src m.msgId = none →
      exec (.commitReceived m) s = .next (s.sendAbort m.src m.tenant m.msgId CS.timeout)) ∧
    (∀ m, s.freezing = false → s.destCopy m.src m.msgId = some i → x.state = .moving →
      exec (.commitReceived m) s = .next (s.commitDest i (x.hdr.prepEpoch + 1)) ∧
      (s.slotOf m.msgId = none → exec (.abortReceived m) s = .next (s.freeCopy i (m.aux % 256)).advanceTeardowns))

/-- Leases, promotion and orphans (R64, R65, R68, R69). -/
def Obligations.LeasesAndOrphans : Prop :=
  ∀ (s : State) (i : Nat) (mg : MigX),
    let x := s.stall i
    (x.mig = some mg →
      (x.state = .moving → s.now < x.leaseExpiry → exec (.sourcePrepLeaseExpiry i) s = .next s ∧ exec (.destLeaseExpiry i) s = .next s) ∧
      (x.state = .moving → x.hdr.migRole = 1 → x.hdr.migPhase = 1 → x.leaseExpiry ≤ s.now → exec (.sourcePrepLeaseExpiry i) s =
        .next ((s.sendAbort x.hdr.peerDev x.hdr.tenant x.handle CS.timeout).cancelSource i .failed CS.timeout)) ∧
      (x.state = .moving → x.hdr.migRole = 1 → x.hdr.migPhase = 3 → x.leaseExpiry ≤ s.now →
        (s.isDown x.hdr.peerDev = false → exec (.sourceCommitLeaseExpiry i) s = .next (s.askOwner i x.hdr.peerDev mg.destHandle).advanceTeardowns ∧
          (mg.lastQuery + s.get Fld.STL_LEASE_PREP_NS / 4 ≤ s.now →
            exec (.ownerQueryRetry i) s = .next (s.askOwner i x.hdr.peerDev mg.destHandle).advanceTeardowns)) ∧
        (s.isDown x.hdr.peerDev = true → exec (.sourceCommitLeaseExpiry i) s = .next (s.promoteSource i).advanceTeardowns)) ∧
      (x.state = .moving → x.hdr.migRole = 2 → x.leaseExpiry ≤ s.now →
        (s.isDown x.hdr.peerDev = false → exec (.destLeaseExpiry i) s = .next (s.askOwner i x.hdr.peerDev mg.destHandle)) ∧
        (s.isDown x.hdr.peerDev = true → exec (.destLeaseExpiry i) s = .next (s.promoteDest i))) ∧
      (∀ op, x.state = .moving → x.hdr.migRole = 1 → mg.op = some op → (s.op op).st = .suspended →
        mg.lastRenew + s.get Fld.STL_LEASE_PREP_NS / 4 ≤ s.now → ∃ t : State, exec (.leaseRenewSend i) s = .next t ∧
        (t.stall i).leaseExpiry = s.now + s.get Fld.STL_LEASE_PREP_NS)) ∧
    (∀ m, s.freezing = false → s.destCopy m.src m.msgId = some i → x.state = .moving → ∃ t : State, exec (.leaseRenewReceived m) s = .next t ∧
      (t.stall i).leaseExpiry = m.aux ∧ (∀ j, j ≠ i → t.stall j = s.stall j) ∧ t.net = s.net) ∧
    (∀ m, s.freezing = false → s.askedSlot m = none → exec (.ownerQueryReceived m) s = .next (s.send { type := 0x09, src := s.deviceId, dst := m.src, tenant := m.tenant, handle := m.msgId, msgId := m.msgId, payload := bytesOf 1 0 ++ bytesOf 1 2 })) ∧
    (∀ m, s.freezing = false → s.askedSlot m = some i → x.state = .remote → x.ownerDev = m.src → x.deferred = [] →
      ∃ t : State, exec (.ownerQueryReceived m) s = .next t ∧ (t.stall i).state = .orphaned ∧ (t.stall i).hdr.orphanSince = s.now) ∧
    (∀ m, s.freezing = false → s.peerSlot m.src m.msgId = some i → x.state = .orphaned → recGet m.payload 0 1 ≠ 7 → recGet m.payload 1 1 = 0 →
      x.hdr.epoch < m.aux → ∃ t : State, exec (.ownerAnswerReceived m) s = .next t.advanceTeardowns ∧ (t.stall i).state = .remote ∧
        (t.stall i).ownerDev = m.src ∧ (t.stall i).headerAt = m.msgId ∧ (t.stall i).epoch = m.aux) ∧
    (x.state = .orphaned → s.now < x.hdr.orphanSince + s.get Fld.STL_ORPHAN_TIMEOUT_NS →
      exec (.orphanTimeout i) s = .next s.advanceTeardowns) ∧
    (x.state = .orphaned → x.hdr.orphanSince + s.get Fld.STL_ORPHAN_TIMEOUT_NS ≤ s.now → x.copies = [] → x.hdr.priorState = 4 →
      (s.takeOwnership i (x.hdr.epoch + 1)).isSome = true →
      ∃ t : State, exec (.orphanTimeout i) s = .next t.advanceTeardowns ∧ (t.stall i).state = .parked ∧
        (t.stall i).epoch = x.hdr.epoch + 1)

/-- The tag filter of a query (R224). -/
def Obligations.TagFilter : Prop :=
  ∀ (a : VsRun) (q : VsAsk) (k n : Nat) (code : List Byte) (x : VsMeta), a.s.vsCode q.t q.r k n = .ok code → a.s.vsMeta q.t q.r k n = .ok x →
    x.insGen ≤ q.snap → q.snap < x.delGen →
    (q.mask = 0 → (a.strain q k n).1.best = vsOffer q.k (vsDistance q.code code, n) a.best) ∧
    (x.tags &&& q.mask = q.match_ → (a.strain q k n).1.best = vsOffer q.k (vsDistance q.code code, n) a.best) ∧
    (q.mask ≠ 0 → x.tags &&& q.mask ≠ q.match_ → (a.strain q k n).1.best = a.best) ∧
    (a.strain q k n).2 = some (vsDistance q.code code)

/-- Vector search (R211 to R231). -/
def Obligations.VectorSearchCommands : Prop :=
  ∀ (c : Cmd) (s : State) (i : Nat) (r : VsRoot),
    let x := s.stall i
    let t := s.stallTenant i
    let n := opU32 c 32
    (AcceptedHeld s c .tenant false → s.get Fld.VS_CTRL_EN = 0 → ∀ k ∈ [Instr.vsInit c, .vsInsert c, .vsDelete c, .vsQuery c],
      exec k s = .next (s.complete c CS.notReady)) ∧
    (AcceptedHeld s c .tenant false → s.checkHandle ((s.issuerTenant c.issuer).getD 0) c.handle.toNat false = .ok i → x.hdr.kind = 1 →
      s.kindLost 3 = false → s.indexLost i = false → x.state = .hot → s.get Fld.VS_CTRL_EN = 1 →
      (x.hdr.ptRoot = 0 → 1 ≤ n → n ≤ 1024 → 16 ≤ opU32 c 36 → opU32 c 36 ≤ 4096 →
        ∀ k ∈ [Instr.vsInsert c, .vsDelete c, .vsQuery c], exec k s = .next (s.complete c CS.notReady)) ∧
      (x.hdr.ptRoot = 0 → s.vsInitFields c = true → s.allocStopped = false →
        let cap := opU32 c 36
        let hives := (List.range 16).filter (opU16 c 34).testBit
        let image := if c.addrA.toNat = 0 then .ok [] else s.graphImage t c.addrA.toNat (opByte c 32) cap (opByte c 33) hives.length
        (∀ st, image = .error (st, true) → exec (.vsInit c) s = .next ((s.stallEvent 0x0985 i).complete c st)) ∧
        (∀ parts, image = .ok parts → 2 ^ 32 < s.vsCapUsed + cap * hives.length → exec (.vsInit c) s = .next (s.complete c CS.noResource)) ∧
        (∀ parts root u shards v, image = .ok parts → s.vsCapUsed + cap * hives.length ≤ 2 ^ 32 → s.vsArea i x.hdr.homeHive 4096 = some (root, u) →
          u.vsShards i cap (opU32 c 40) (2 ^ opByte c 32 / 8) (opByte c 33) hives = some (shards, v) →
          let loaded := shards.zipIdx.map (fun e => match parts[e.2]? with
            | some p => { e.1 with count := p.count, entries := [p.entries.length, 0] }
            | none => e.1)
          let w := (loaded.zip parts).foldl (fun s e => s.storePart t e.1 e.2) v
          exec (.vsInit c) s = .next (((w.setStall i { w.stall i with vsCap := cap * hives.length, hdr := { (w.stall i).hdr with ptRoot := root } }).setVsRoot i
            ⟨opByte c 32, opByte c 33, opU16 c 34, 1, 0, opU32 c 40, 1, loaded⟩).complete c CS.ok ((parts.map (·.count)).foldl (· + ·) 0)))) ∧
      (x.hdr.ptRoot ≠ 0 → s.vsRoot i = .ok r →
        (∀ k (h h' : VsShard) (codes tags : List Byte), 1 ≤ n → n ≤ 65536 → insertShard r (opByte c 36) = some k → h = r.shard k →
          h' = { h with count := h.count + n, sideCount := h.sideCount + n } →
          (h.cap < h.count + n → exec (.vsInsert c) s = .next (s.complete c CS.noResource)) ∧
          (h.count + n ≤ h.cap → r.sideCap < h.sideCount + n → exec (.vsInsert c) s = .next ((s.stallEvent 0x0981 i).complete c CS.noResource)) ∧
          (h.count + n ≤ h.cap → h.sideCount + n ≤ r.sideCap → s.readIn c c.addrA.toNat 0 (n * r.codeBytes) = .ok codes →
            (if c.addrB = 0 then .ok (List.replicate (4 * n) 0) else s.readIn c c.addrB.toNat (n * r.codeBytes) (4 * n)) = .ok tags →
            let read := s.readNoted c c.addrA.toNat (n * r.codeBytes)
            let a := (if c.addrB = 0 then read else read.readNoted c c.addrB.toNat (4 * n)).checkPoison
            let w := ((a.writeT1 t (h.codes + h.count * r.codeBytes) codes).writeT1 t (h.metaAt + 32 * h.count)
              ((words4 n tags).flatMap (fun g => vsMetaBytes ⟨r.gen + 1, vsLive, g, false⟩))).writeT1 t (h.side + 4 * h.sideCount)
              ((List.range n).flatMap (fun j => bytesOf 4 (h.count + j)))
            exec (.vsInsert c) s = .next (((w.setVsRoot i { r with gen := r.gen + 1, shards := r.shards.set k h' }).autoMerge i).complete c CS.ok
              (vsId k h.count) (r.gen + 1)))) ∧
        (1 ≤ n → n ≤ 65536 → r.shards.length ≤ opByte c 36 → opByte c 36 ≠ 0xFF → exec (.vsInsert c) s = .next (s.complete c CS.badCommand)) ∧
        (∀ b, 1 ≤ n → n ≤ 65536 → s.readIn c c.addrA.toNat 0 (4 * n) = .ok b →
          let a := (s.readNoted c c.addrA.toNat (4 * n)).checkPoison
          let q := (words4 n b).foldl (fun (q : State × Nat) id =>
            let d := q.1.vsDeleteOne t r (r.gen + 1) id
            (d.1, if d.2 then q.2 + 1 else q.2)) (a.readMetas t r (words4 n b), 0)
          (a.metasFail t r (words4 n b) = none →
            exec (.vsDelete c) s = .next ((q.1.setVsRoot i { r with gen := r.gen + 1 }).complete c CS.ok q.2 (r.gen + 1))) ∧
          (∀ st, a.metasFail t r (words4 n b) = some st → exec (.vsDelete c) s = .next ((a.readMetas t r (words4 n b)).complete c st))) ∧
        (∀ code u, 1 ≤ n → n ≤ 1024 → 16 ≤ opU32 c 36 → opU32 c 36 ≤ 4096 → s.readIn c c.addrA.toNat 0 r.codeBytes = .ok code →
          let q : VsAsk := ⟨i, t, r, r.gen, code, n, opU32 c 36, opU32 c 40, opU32 c 44⟩
          let z := (List.range r.shards.length).foldl (fun (p : VsRun × List Entry × Bool) j =>
            let y := p.1.shard q ((opByte c 48).testBit 0) j
            (y.1, p.2.1 ++ y.2, p.2.2 || y.1.full)) (⟨(s.readNoted c c.addrA.toNat r.codeBytes).checkPoison, none, 0, false, []⟩, [], false)
          let best := (mergeEntries false n z.2.1).1
          let fewer := decide (best.length < n)
          let counted := (z.1.s.bump Fld.VS_QUERIES_COUNT 1).bump Fld.VS_COMPARES_COUNT z.1.evals
          (counted.noteMerge (some t) c.tag.toNat 0 fewer).writeOut c c.addrB.toNat ((padTo n best).flatMap entryBytes) = .ok u →
          exec (.vsQuery c) s = .next (u.complete c (z.1.failed.getD (if fewer then CS.fewer else CS.ok)) best.length r.gen
            (z.1.evals % 2 ^ 32 + (if z.2.2 then 2 ^ 63 else 0)))) ∧
        (∀ k, 16 ≤ n → n ≤ 4096 → s.merging i = false → k < 4096 → (s.op k).live = false → (∀ j < k, (s.op j).live = true) →
          ∃ w : State, exec (.vsMerge c) s = .next (w.complete c CS.ok (w.opHandle k)) ∧ (w.op k).live = true ∧ (w.op k).st = .queued ∧
            (w.op k).opcode = 0x64 ∧ (w.op k).args = [i, n, 0, x.handle] ∧ w.io = s.io))) ∧
    (∀ slot ef m, (s.op slot).live = true → (s.op slot).opcode = 0x64 → (s.op slot).args = [i, ef, m, x.handle] → s.mergeIndex slot = some i → s.vsRoot i = .ok r →
      ((s.op slot).st = .queued → ∃ w : State, exec (.vsMergeStart slot) s = .next w ∧ (w.op slot).st = .running ∧
        (w.op slot).args = [i, ef, r.gen, x.handle] ∧ w.io = s.io) ∧
      (∀ shards v, (s.op slot).st = .running → s.mergeShards t m ef r (List.range r.shards.length) = .ok (shards, v) →
        exec (.vsMergeCommit slot) s = .next (((v.setVsRoot i { r with active := 1 - r.active, mergeGen := m, shards := shards }).stallEvent 0x0984 i
          [m]).endMerge slot .done CS.ok))) ∧
    (∀ slot, (s.op slot).live = false → exec (.vsMergeStart slot) s = .next s ∧ exec (.vsMergeCommit slot) s = .next s)

/-- TEXT_BIND (R181), and guarded register writes of the text engine and the attention store (R60, R77, R78, R151). -/
def Obligations.TextAndShapeRegisters : Prop :=
  ∀ (w : RegWrite) (s : State) (t j k : Nat),
    (∀ c i, OnStall s c i false → opByte c 32 < 8 → s.kindLost 1 = false →
      let x := s.stall i
      let sel (b : Nat) : Bool := (opByte c 32).testBit b
      (sel 0 = true → c.addrA ≠ 0 → s.get Fld.GR_CTRL_EN = 0 → exec (.textBind c) s = .next (s.complete c CS.notReady)) ∧
      ((sel 0 = false ∨ c.addrA = 0 ∨ s.get Fld.GR_CTRL_EN = 1) →
        (x.state = .running → exec (.textBind c) s = .next (s.setStall i { x with deferred := x.deferred ++ [.command 0x40 c] })) ∧
        (x.state ≠ .running → x.state ≠ .orphaned → busyOpcode x = none →
          (∀ st, sel 0 = true → c.addrA ≠ 0 → s.grammarImage x.hdr.tenant c.addrA.toNat = .error st →
            exec (.textBind c) s = .next ((s.stallEvent 0x0802 i).complete c st)) ∧
          (∀ g q, (sel 0 = true → c.addrA ≠ 0 → s.grammarImage x.hdr.tenant c.addrA.toNat = .ok g) →
            (sel 2 = true → c.addrB ≠ 0 → s.stopSet x.hdr.tenant c.addrB.toNat = .ok q) →
            (sel 0 = true → c.addrA ≠ 0 → sel 1 = true → x.hdr.grState < g.states) →
            exec (.textBind c) s = .next ((s.setStall i { x with hdr := { x.hdr with
              grImage := if sel 0 then c.addrA.toNat else x.hdr.grImage
              grState := if sel 0 && !sel 1 then (if c.addrA = 0 then 0 else g.start) else x.hdr.grState
              grSp := if sel 0 && !sel 1 then 0 else x.hdr.grSp
              grStack := if sel 0 && !sel 1 then [] else x.hdr.grStack
              stopSet := if sel 2 then c.addrB.toNat else x.hdr.stopSet } }).complete c CS.ok))))) ∧
    (t < 256 → MayWrite s w (Reg.TX_CFG t) →
      let u := (s.store w (Reg.TX_CFG t)).dropText t
      (s.liveSession t = true → exec (.txCfgWrite w t) s = .next s) ∧
      (s.liveSession t = false → u.get (Fld.TX_CFG_VALID t) = 0 → exec (.txCfgWrite w t) s = .next u) ∧
      (s.liveSession t = false → u.get (Fld.TX_CFG_VALID t) = 1 → u.tableMode t = true → u.textConfigOk t = false →
        exec (.txCfgWrite w t) s = .next ((u.put (Fld.TX_CFG_VALID t) 0).raise { code := 0x0807, tenant := some t }))) ∧
    (t < 256 → 1 ≤ j → j ≤ 6 → MayWrite s w (Reg.TX_CFG t + 8 * j) →
      (s.liveSession t = true → exec (.txTWrite w t j) s = .next s) ∧
      (s.liveSession t = false → exec (.txTWrite w t j) s = .next (((s.store w (Reg.TX_CFG t + 8 * j)).dropText t).checkTextConfig t))) ∧
    (256 ≤ t → exec (.txCfgWrite w t) s = .next s ∧ exec (.txTWrite w t j) s = .next s) ∧
    (k < 16 → MayWrite s w (Reg.KV_SHAPE k) →
      (s.shapeUse k ≠ 0 → exec (.kvShapeWrite w k) s = .next s) ∧
      (s.shapeUse k = 0 → (s.store w (Reg.KV_SHAPE k)).shapeOk k = true → exec (.kvShapeWrite w k) s = .next (s.store w (Reg.KV_SHAPE k))) ∧
      (s.shapeUse k = 0 → (s.store w (Reg.KV_SHAPE k)).shapeOk k = false → ∃ u : State, exec (.kvShapeWrite w k) s = .next u ∧
        u.get (Fld.KV_SHAPE_VALID k) = 0)) ∧
    (16 ≤ k → exec (.kvShapeWrite w k) s = .next s) ∧
    (MayWrite s w Reg.STL_DIRTY_LIMIT → ∃ u : State, exec (.stlDirtyLimitWrite w) s = .next u ∧
      u = (s.store w Reg.STL_DIRTY_LIMIT).put Fld.STL_DIRTY_LIMIT_LIMIT
        (max (s.wouldGet w Fld.STL_DIRTY_LIMIT_LIMIT / 67108864 * 67108864) 67108864))

/-- The background work of Tier 1 and the Shed (R128 to R131, R141, R147). -/
def Obligations.MemoryTierCommands : Prop :=
  ∀ (c : Cmd) (s : State) (k h p : Nat),
    (Accepted s c .tenant false → k < 4096 → (s.op k).live = false → (∀ j < k, (s.op j).live = true) →
      (opByte c 32 = h → h < 16 → opZero c 33 63 = true →
        (s.patrolled h = [] → exec (.memScrub c) s = .next (s.refuse c CS.absentUnit)) ∧
        (s.patrolled h ≠ [] → ∃ t u : State, exec (.memScrub c) s = .next u ∧ u.io = (t.complete c CS.ok (t.opHandle k)).io ∧ t.io = s.io ∧
          (u.op k).st = .running ∧ (u.op k).opcode = 0x30 ∧ (u.op k).args = (s.patrolled h).map (17 * h + ·) ∧
          (∀ q ∈ s.patrolled h, sparseGet 0 u.t1.scrubAt (17 * h + q) = 0))) ∧
      ((16 ≤ opByte c 32 ∧ opByte c 32 ≠ 0xFF ∨ opZero c 33 63 = false) → exec (.memScrub c) s = .next (s.refuse c CS.badCommand)) ∧
      (opByte c 32 = 0xFF → opZero c 33 63 = true →
        let keys := (List.range 16).flatMap (fun g => (s.patrolled g).map (17 * g + ·))
        (keys = [] → exec (.memScrub c) s = .next (s.refuse c CS.absentUnit)) ∧
        (keys ≠ [] → exec (.memScrub c) s = .next (s.beginOp c 0x30 keys false (fun _ u =>
          { u with t1 := { u.t1 with scrubAt := keys.foldl (fun m k => sparseErase k m) u.t1.scrubAt } })))) ∧
      (opZero c 35 63 = false → exec (.shedCompact c) s = .next (s.refuse c CS.badCommand)) ∧
      (opZero c 35 63 = true → exec (.shedCompact c) s = .next (s.beginOp c 0x31 (s.compactionBands (opByte c 32) (opU16 c 33)) false (fun op u =>
        if u.stallsIn (u.op op).args = [] then u.endOp op .done CS.ok else u))) ∧
      (opZero c 35 63 = true → s.stallsIn (s.compactionBands (opByte c 32) (opU16 c 33)) ≠ [] → ∃ u : State, exec (.shedCompact c) s = .next u ∧
        (u.op k).st = .running ∧ (u.op k).opcode = 0x31 ∧ (u.op k).args = s.compactionBands (opByte c 32) (opU16 c 33) ∧ u.shed = s.shed) ∧
      (∀ ch q, opByte c 32 = h → h < 16 → opByte c 33 = ch → ch < 16 → opZero c 34 63 = true → s.hiveAbsent h = false →
        s.physicalChannel h ch = some q →
        (s.get (Fld.HB_CH_STATE h q) = 2 → exec (.memSpare c) s = .next (s.refuse c CS.notReady)) ∧
        (s.get (Fld.HB_CH_STATE h q) ≠ 2 → exec (.memSpare c) s = .next (s.beginOp c 0x32 [h, ch] false (fun op s =>
          if s.on Fld.PW_STATUS_PARKING then s else (s.startSparing h ch).getD ((s.loseChannel h ch true).endOp op .failed CS.noResource))))) ∧
      (∀ ch, opByte c 32 = h → h < 16 → opByte c 33 = ch → ch < 16 → opZero c 34 63 = true → s.hiveAbsent h = true →
        exec (.memSpare c) s = .next (s.refuse c CS.absentUnit))) ∧
    (∀ ch b n w, h < 16 → s.get Fld.HB_CTRL_SCRUB_EN = 1 → (s.patrolled h).contains p = true → s.get Fld.PW_STATUS_PARKING = 0 →
      s.get (Fld.CK_GATE_STATE h) = 0 → s.servesChannel h p = some ch → sparseGet 0 s.t1.scrubAt (17 * h + p) = n → n ≠ 0 → n + 1 < channelBytes / 64 →
      b = (h * 2 ^ 36 + ch * channelBytes) / 64 + n → sparseGet (0, 0) s.t1.errors b = w → 1 ≤ w.1 →
      ∃ u : State, exec (.patrolScrubBlock none h p none) s = .next (u.checkChannel h p).checkPoison ∧
          sparseGet 0 u.t1.scrubAt (17 * h + p) = n + 1 ∧
          (w.1 ≤ 2 → sparseGet (0, 0) u.t1.errors b = (0, w.2) ∧ u.get (Fld.HB_CH_CORR h p) = (s.get (Fld.HB_CH_CORR h p) + 1) % 2 ^ 32) ∧
          (2 < w.1 → ∃ v : State, v.get (Fld.HB_CH_UNCORR h p) = (s.get (Fld.HB_CH_UNCORR h p) + 1) % 2 ^ 16 ∧ v.t1.poison = s.t1.poison ∧
            u.t1.poison = (v.addPoison b).t1.poison ∧ u.io = (v.addPoison b).io)) ∧
    (∀ src bad, h < 16 → (s.patrolled h).contains p = true → s.get Fld.PW_STATUS_PARKING = 0 → s.get (Fld.CK_GATE_STATE h) = 0 →
      let key := 17 * h + p
      let n := sparseGet 0 s.t1.scrubAt key
      let last := decide (channelBytes / 64 ≤ n + 1)
      let v := (if n = 0 then (s.put (Fld.HB_CH_CORR h p) 0).put (Fld.HB_CH_UNCORR h p) 0 else s).scrubBlock h p n bad
      let x := ({ v with t1 := { v.t1 with scrubAt := sparsePut 0 key (if last = true then 0 else n + 1) v.t1.scrubAt } }.checkChannel h p).checkPoison
      (src = none → s.get Fld.HB_CTRL_SCRUB_EN = 1 → exec (.patrolScrubBlock src h p bad) s = .next x) ∧
      (∀ op, src = some op → (s.op op).live = true → (s.op op).opcode = 0x30 → (s.op op).st = .running → (s.op op).args.contains key = true →
        let left := (x.op op).args.filter (fun a => !(last && decide (a = key)))
        let y := x.setOp op { x.op op with args := left }
        exec (.patrolScrubBlock src h p bad) s = .next (if left = [] then y.endOp op .done CS.ok else y))) ∧
    (∀ src bad, (16 ≤ h ∨ s.get Fld.PW_STATUS_PARKING = 1) → exec (.patrolScrubBlock src h p bad) s = .next s) ∧
    ((∀ q < 17, s.get (Fld.HB_CH_STATE h q) ≠ 2) → exec (.channelCopyDone h) s = .next s) ∧
    (∀ q, q < 17 → s.get (Fld.HB_CH_STATE h q) = 2 → (∀ j < q, s.get (Fld.HB_CH_STATE h j) ≠ 2) → s.get Fld.PW_STATUS_PARKING = 0 → s.freezing = false →
      s.units.copied.contains (16 * h + s.get (Fld.HB_CH_LOGICAL h q)) = false →
      ∃ t : State, exec (.channelCopyDone h) s = .next t ∧ t.units.copied = s.units.copied ++ [16 * h + s.get (Fld.HB_CH_LOGICAL h q)]) ∧
    (∀ ch at_, (16 * h + ch, at_) ∈ s.units.evacuating → at_ ≤ s.now → exec (.evacTimeExpiry h ch) s = .next (s.retireChannel h ch)) ∧
    (∀ ch, (∀ e ∈ s.units.evacuating, e.1 = 16 * h + ch → s.now < e.2) → exec (.evacTimeExpiry h ch) s = .next s) ∧
    (∀ b ch, h < 16 → s.hiveAbsent h = false → s.servesChannel h p = some ch →
      exec (.dramChannelTrainFail h p b) s = .next (s.autoSpare h ch b)) ∧
    (∀ b, h < 16 → s.hiveAbsent h = false → s.servesChannel h p = none → s.get (Fld.HB_CH_STATE h p) = 1 → exec (.dramChannelTrainFail h p b) s =
      .next ((s.put (Fld.HB_CH_STATE h p) 4).spareFailed [svStack h, svSpareChannel h] (repairEntry 1 h p 8))) ∧
    (∀ src i, (s.freezing = true ∨ s.get Fld.PW_STATUS_PARKING = 1) → exec (.compactStallDone src i) s = .next s) ∧
    (∀ i,
      let bands := ((List.range 8).filter (fun p => s.portWritable p && s.gcLow p)).flatMap (fun p => s.compactionBands (2 ^ p) 0)
      (i ∉ s.stallsIn bands → exec (.compactStallDone none i) s = .next s) ∧
      (i ∈ s.stallsIn bands → (s.stall i).state ∈ [StallState.hot, .waiting, .parked, .orphaned] → (s.stall i).park = none → (s.stall i).revive = none →
        (s.stall i).mig = none → s.freezing = false → s.get Fld.PW_STATUS_PARKING = 0 →
        exec (.compactStallDone none i) s = .next (((s.tend i).consolidate i).getD (s.tend i)))) ∧
    (∀ op i, (s.op op).live = true → (s.op op).opcode = 0x31 → (s.op op).st = .running → (s.stall i).state ∈ [StallState.hot, .waiting, .parked, .orphaned] →
      (s.stall i).park = none → (s.stall i).revive = none → (s.stall i).mig = none → s.freezing = false → s.get Fld.PW_STATUS_PARKING = 0 →
      i ∈ s.stallsIn (s.op op).args →
      let t := ((s.tend i).consolidate i).getD (s.tend i)
      exec (.compactStallDone (some op) i) s = .next (if t.stallsIn (s.op op).args = [] then t.endOp op .done CS.ok else t))

/-- The Shed's ports (R132, R137 to R139, R510). -/
def Obligations.ShedPortEvents : Prop :=
  ∀ (s : State) (p : Nat),
    let x := s.shedPort p
    (s.get Fld.SH_CTRL_COMMIT = 1 → s.get (Fld.SEC_DOM_INSTALLED 545) = 1 → ∃ t : State, exec .shedPortTrain s = .next t ∧
      (p < 8 → (s.get Fld.SH_CTRL_PORT_EN).testBit p = true → t.shedPort p = { x with training := true }) ∧
      ((s.get Fld.SH_CTRL_PORT_EN).testBit p = false → t.shedPort p = x) ∧ t.io = s.io) ∧
    ((s.get Fld.SH_CTRL_COMMIT = 0 ∨ s.get (Fld.SEC_DOM_INSTALLED 545) = 0) → exec .shedPortTrain s = .next s) ∧
    (∀ f, p < 8 → x.training = true → x.trained = false →
      (partFits f = false → exec (.shedPortTrainDone p f) s =
        .next ((s.setShedPort p { x with trained := true }).raise { code := 0x0506, subject := p })) ∧
      (partFits f = true → ∃ t : State, exec (.shedPortTrainDone p f) s =
          .next (((f.slots.filter (fun e => decide (e.1 < 2))).foldl (fun u e => u.foundSlot e) t).survey [svShed p]) ∧
        t.get (Fld.SH_PORT_INFO_IN_SERVICE p) = 1 ∧ t.get Fld.STL_DIRTY_MAX_MAX = t.dirtyMaxNow % 2 ^ 48 ∧
        t.shedPort p = { trainedPort p f with scrubDue := s.now + s.get Fld.SH_SCRUB_PERIOD_NS })) ∧
    (∀ f, (8 ≤ p ∨ x.training = false ∨ x.trained = true) → exec (.shedPortTrainDone p f) s = .next s) ∧
    (p < 8 → s.portReadable p = true →
      let v := ((s.put (Fld.SH_PORT_INFO_IN_SERVICE p) 0).put (Fld.SH_PORT_INFO_READ_ONLY p) 0).recomputeDirtyMax
      let u := (v.survey [svShed p]).raise { code := 0x0506, subject := p }
      exec (.shedPortDown p) s = .next ((u.stalls.map (·.1)).foldl (fun s i => s.rewriteLost i) u) ∧
        v.portReadable p = false ∧ v.get Fld.STL_DIRTY_MAX_MAX = v.dirtyMaxNow % 2 ^ 48 ∧ v.shed = s.shed) ∧
    (s.portReadable p = false → exec (.shedPortDown p) s = .next s) ∧
    ((s.get Fld.PW_STATUS_PARKING = 1 ∨ ((x.blocks.filter (fun b => decide (b.state ≠ .bad))).map (·.erases)).foldl max 0 -
        ((x.blocks.filter (fun b => decide (b.state ≠ .bad))).map (·.erases)).foldl min (((x.blocks.filter (fun b => decide (b.state ≠ .bad))).map (·.erases)).headD 0) ≤
        s.get Fld.SH_WEAR_SPREAD_ERASES) → exec (.shedWearMove p) s = .next s) ∧
    (∀ k j b, s.get Fld.PW_STATUS_PARKING = 0 → s.portWritable p = true →
      s.get Fld.SH_WEAR_SPREAD_ERASES < ((x.blocks.filter (fun b => decide (b.state ≠ .bad))).map (·.erases)).foldl max 0 -
        ((x.blocks.filter (fun b => decide (b.state ≠ .bad))).map (·.erases)).foldl min (((x.blocks.filter (fun b => decide (b.state ≠ .bad))).map (·.erases)).headD 0) →
      x.best (fun b => decide (b.state = .valid)) (fun a b => decide (a < b)) = some k → x.blocks[k]? = some b →
      x.best (fun d => decide (d.state = .free) && decide (d.channel = b.channel)) (fun a b => decide (b < a)) = some j →
      exec (.shedWearMove p) s =
        .next ((s.setShedPort p (x.moveBlock k j .stale)).raise { code := 0x0501, subject := p, object := (x.blockAddress p k).getD 0 })) ∧
    (∀ k n bad, s.get Fld.PW_STATUS_PARKING = 0 → s.portReadable p = true →
      let u := s.setShedPort p { x with blocks := x.blocks.modify k (fun b => { b with reads := b.reads + n }) }
      (x.blocks[k]? = none → exec (.shedReadDisturbMove p k n bad) s = .next u) ∧
      (∀ b, x.blocks[k]? = some b → exec (.shedReadDisturbMove p k n bad) s = .next
        (if (s.get Fld.SH_RD_LIMIT_READS ≤ b.reads + n ∨ bad = true) ∧ s.portWritable p = true then u.disturbMove p k else u))) ∧
    (∀ k n b, s.get Fld.PW_STATUS_PARKING = 0 → s.portReadable p = true → x.blocks[k]? = some b → b.reads + n < s.get Fld.SH_RD_LIMIT_READS →
      ∃ t : State, exec (.shedReadDisturbMove p k n false) s = .next t ∧ (t.shedPort p).blocks[k]? = some { b with reads := b.reads + n } ∧ t.io = s.io) ∧
    (∀ k n b j bad, s.get Fld.PW_STATUS_PARKING = 0 → s.portWritable p = true → x.blocks[k]? = some b → b.state = .valid →
      (s.get Fld.SH_RD_LIMIT_READS ≤ b.reads + n ∨ bad = true) →
      let y := ({ x with blocks := x.blocks.modify k (fun b => { b with reads := b.reads + n }) } : ShedPort).withFresh b.channel
      freshBlock y.blocks b.channel = some j → ∃ t : State, t.io = s.io ∧ t.shedPort p = y.moveBlock k j .stale ∧
        exec (.shedReadDisturbMove p k n bad) s = .next (t.raise { code := 0x0501, subject := p, object := (x.blockAddress p k).getD 0 })) ∧
    (∀ l, s.get Fld.PW_STATUS_PARKING = 0 → s.portWritable p = true → x.scrubDue ≤ s.now →
      let blocks := x.blocks.map (fun b => if b.state = .valid then { b with reads := b.reads + 1 } else b)
      let u := s.setShedPort p { x with blocks := blocks, scrubDue := s.now + s.get Fld.SH_SCRUB_PERIOD_NS }
      exec (.shedScrub p l) s = .next (((List.range x.blocks.length).filter (fun k => l.contains k ||
        (blocks[k]?).any (fun b => decide (s.get Fld.SH_RD_LIMIT_READS ≤ b.reads)))).foldl (fun v k => v.disturbMove p k) u)) ∧
    (∀ l, (s.now < x.scrubDue ∨ s.get Fld.PW_STATUS_PARKING = 1) → exec (.shedScrub p l) s = .next s) ∧
    (s.get Fld.PW_STATUS_PARKING = 0 → s.portWritable p = true → x.scrubDue ≤ s.now → (∀ b ∈ x.blocks, b.reads + 1 < s.get Fld.SH_RD_LIMIT_READS) →
      ∃ t : State, exec (.shedScrub p []) s = .next t ∧ (t.shedPort p).scrubDue = s.now + s.get Fld.SH_SCRUB_PERIOD_NS ∧
        (t.shedPort p).blocks.map (·.state) = x.blocks.map (·.state) ∧ t.io = s.io)

/-- The prefetch unit (R143 to R145). -/
def Obligations.PrefetchUnit : Prop :=
  ∀ (s : State) (tn n k : Nat) (e : PfEntry) (d : List Byte) (a : Nat) (w : RegWrite),
    ((s.get Fld.PF_CTRL_EN = 0 ∨ s.get Fld.PW_STATUS_PARKING = 1) → ∀ l, exec (.pfLayerStart ⟨tn, n⟩ l) s = .next s) ∧
    (∀ l, s.get Fld.PF_CTRL_EN = 1 → s.get Fld.PW_STATUS_PARKING = 0 →
      let u := s.pfTableRead
      let objs := u.pfObjects.filter (fun o => decide (o.2.model = u.get (Fld.TN_CTRL_MODEL tn)))
      let ahead := n + ((objs.filter (fun o => decide (o.2.cls = 1) && decide (o.2.layer < n))).foldl (fun s o => s.pfUnuse tn o.1) u).get Fld.PF_DISTANCE_LAYERS
      let dropped := (objs.filter (fun o => decide (o.2.cls = 1) && decide (o.2.layer < n))).foldl (fun s o => s.pfUnuse tn o.1) u
      let streamed := (objs.filter (fun o => decide (o.2.cls = 1) && decide (o.2.layer = n ∨ o.2.layer = ahead))).foldl (fun s o => s.pfStream tn o.1) dropped
      let pinned := (objs.filter (fun o => decide (o.2.cls = 0) && decide (o.2.layer = n))).foldl (fun s o => s.pfLoad o.1) streamed
      let chosen := objs.filter (fun o => decide (o.2.cls = 2) && decide (o.2.layer = n) && l.contains o.2.expert)
      let v := chosen.foldl (fun s o => s.pfSelect o.1) pinned
      let late := ((((objs.filter (fun o => decide (o.2.cls ≤ 1 ∧ o.2.layer = n))) ++ chosen).map (·.1))).filter (fun k => !v.pfReady k)
      (late = [] → exec (.pfLayerStart ⟨tn, n⟩ l) s = .next v) ∧
      (late ≠ [] → ∃ t : State, exec (.pfLayerStart ⟨tn, n⟩ l) s = .next t ∧ t.prefetch.waits = v.prefetch.waits ++ [⟨tn, n, v.now, late⟩] ∧
        t.prefetch.objects = v.prefetch.objects ∧ t.io = v.io ∧ t.t1 = v.t1)) ∧
    ((s.resident k).loading = false → s.pfReady k = true →
      (s.pfSelect k).get Fld.PF_HIT_COUNT = (s.get Fld.PF_HIT_COUNT + 1) % 2 ^ 64 ∧ ((s.pfSelect k).resident k).lastUsed = s.prefetch.round) ∧
    ((s.resident k).loading = false → s.pfReady k = false → ((s.pfLoad k).resident k).loading = true →
      (s.pfSelect k).get Fld.PF_MISS_COUNT = ((s.pfLoad k).get Fld.PF_MISS_COUNT + 1) % 2 ^ 64 ∧
        ((s.pfSelect k).resident k).lastUsed = (s.pfLoad k).prefetch.round) ∧
    (∀ l, ((s.resident k).loading = false ∨ s.pfEntry k = none ∨ s.get Fld.PW_STATUS_PARKING = 1) → exec (.pfObjectArrived k l) s = .next s) ∧
    (∀ l, s.pfEntry k = some e → (s.resident k).loading = true → s.get Fld.PW_STATUS_PARKING = 0 →
      (∀ p < 8, e.ports.testBit p = true → s.portReadable p = true) →
      let t := (s.resident k).copies.foldl (fun u c => match l.find? (fun d => decide (d.1 = c.1)) with
        | some d => u.writeT1 (512 + e.model) c.2 (d.2.take e.bytes)
        | none => u) s
      exec (.pfObjectArrived k l) s = .next ((t.setResident k { s.resident k with loading := false }).pfArrived k)) ∧
    (s.pfEntry k = some e → (s.resident k).loading = true → s.get Fld.PW_STATUS_PARKING = 0 → (∀ p < 8, e.ports.testBit p = true → s.portReadable p = true) →
      (s.resident k).copies = [(n, a)] →
      let t := (s.writeT1 (512 + e.model) a (d.take e.bytes)).setResident k { s.resident k with loading := false }
      ((∀ x ∈ s.prefetch.waits, k ∉ x.objects ∧ x.objects ≠ []) → exec (.pfObjectArrived k [(n, d)]) s = .next t) ∧
      (∀ x, s.prefetch.waits = [x] → x.objects = [k] → ∃ v : State, v.prefetch.waits = [] ∧ v.t1 = t.t1 ∧
        v.get Fld.PF_WAIT_NS_NS = (t.get Fld.PF_WAIT_NS_NS + (t.now - x.since)) % 2 ^ 64 ∧
        exec (.pfObjectArrived k [(n, d)]) s = .next (v.raise { code := 0x0507, subject := 256 * hiveOf a + channelOf a, object := a }))) ∧
    (MayWrite s w Reg.PF_CTRL →
      let u := (s.store w Reg.PF_CTRL).enGate Fld.PF_CTRL_EN
      (s.get Fld.PF_CTRL_EN = 1 → exec (.pfEnable w) s = .next u) ∧
      (s.get Fld.PF_CTRL_EN = 0 → u.get Fld.PF_CTRL_EN = 1 → u.get Fld.PW_STATUS_PARKING = 0 → exec (.pfEnable w) s =
        .next ((u.pfObjects.filter (fun o => decide (o.2.cls = 0))).foldl (fun s o => s.pfLoad o.1) u.pfTableRead)) ∧
      (s.get Fld.PF_CTRL_EN = 0 → (u.get Fld.PF_CTRL_EN = 0 ∨ u.get Fld.PW_STATUS_PARKING = 1) → exec (.pfEnable w) s = .next u))

/-- Context commands that would make another transition (R251). -/
def Obligations.ContextTransitionsRefused : Prop :=
  ∀ (c : Cmd) (s : State) (k : Nat), AcceptedHeld s c .tenant false → s.get Fld.SCH_CTX_CTRL_EN = 1 →
    s.checkContext ((s.issuerTenant c.issuer).getD 0) c.handle.toNat = .ok k →
    ((s.context k).state ∉ [CtxState.loaded, .halted, .stopped] →
      exec (.ctxLaunch c) s = .next (s.complete c CS.notReady (ctxStateCode (s.context k).state))) ∧
    ((s.context k).state ∉ [CtxState.armed, .running, .switched] →
      exec (.ctxStop c) s = .next (s.complete c CS.notReady (ctxStateCode (s.context k).state))) ∧
    ((s.context k).state ∉ [CtxState.loaded, .halted, .stopped, .faulted] →
      exec (.ctxFree c) s = .next (s.complete c CS.notReady (ctxStateCode (s.context k).state))) ∧
    ((s.context k).state = .running → exec (.ctxFree c) s = .next (s.complete c CS.notReady 3))

/-- Contexts (R237, R250 to R255, R361 to R363). -/
def Obligations.ContextCommands : Prop :=
  ∀ (c : Cmd) (s : State) (k : Nat),
    let t := (s.issuerTenant c.issuer).getD 0
    let a := c.addrA.toNat
    (AcceptedHeld s c .tenant false → s.get Fld.SCH_CTX_CTRL_EN = 1 →
      (s.tenantOwns t a 64 = false → exec (.ctxLoad c) s = .next (s.complete c CS.badCommand)) ∧
      (∀ header bytes kind code entry shared off place v w, v = (s.afterRead t a 64).checkPoison → w = (v.afterRead t (a + off) code).checkPoison →
        s.tenantOwns t a 64 = true → s.readT1 t a 64 = .ok header → imageHeader header = some (kind, code, entry, shared, off) →
        v.tenantOwns t (a + off) code = true → v.loadPlace c t kind = .ok place → v.readT1 t (a + off) code = .ok bytes → w.allocStopped = false →
        w.tenantContexts t < w.get (Fld.TN_QUOTA_CONTEXTS t) → k < w.get Fld.SCH_CTX_SLOTS_SLOTS → (w.context k).state = .free →
        (∀ j < k, (w.context j).state ≠ .free) →
        (∀ u, w.loadInto k ⟨t, a, kind, code, entry, shared, (opByte c 36).testBit 0, place, header, bytes⟩ = some u →
          exec (.ctxLoad c) s = .next (u.complete c CS.ok (u.contextHandle k)) ∧ (u.context k).state = .loaded ∧ (u.context k).tenant = t ∧
            (u.context k).entry = entry ∧ (u.context k).gen = (w.context k).gen) ∧
        (w.loadInto k ⟨t, a, kind, code, entry, shared, (opByte c 36).testBit 0, place, header, bytes⟩ = none →
          exec (.ctxLoad c) s = .next (w.complete c CS.noResource))) ∧
      (s.checkContext t c.handle.toNat = .ok k →
        ((s.context k).state ∈ [CtxState.loaded, .halted, .stopped] → ((s.context k).hub = true → s.threadBound (s.context k).tenant (s.context k).thread = true) →
          (opByte c 48).testBit 0 = false →
          (opU64 c 32 = 0 → ∃ u : State, exec (.ctxLaunch c) s = .next (u.complete c CS.ok (s.now + 2000)) ∧ (u.context k).state = .armed ∧
            (u.context k).launchYt = s.now + 2000 ∧ (u.context k).runLimit = opU64 c 40 ∧ (u.context k).arg = a) ∧
          (s.now + 2000 ≤ opU64 c 32 → opU64 c 32 ≠ barrierCount → ∃ u : State, exec (.ctxLaunch c) s = .next (u.complete c CS.ok (opU64 c 32)) ∧
            (u.context k).state = .armed ∧ (u.context k).launchYt = opU64 c 32) ∧
          (0 < opU64 c 32 → opU64 c 32 < s.now + 2000 → opU64 c 32 ≠ barrierCount → exec (.ctxLaunch c) s = .next (s.complete c CS.timeout)) ∧
          (opU64 c 32 = barrierCount → s.get Fld.YT_CTRL_BARRIER_EN = 1 → (s.context k).hub = false → ∃ u : State,
            exec (.ctxLaunch c) s = .next (u.complete c CS.ok barrierCount) ∧ (u.context k).state = .armed ∧ (u.context k).barrier = true) ∧
          (opU64 c 32 = barrierCount → (s.get Fld.YT_CTRL_BARRIER_EN = 0 ∨ (s.context k).hub = true) →
            exec (.ctxLaunch c) s = .next (s.complete c CS.badCommand))) ∧
        ((s.context k).state ∈ [CtxState.loaded, .halted, .stopped] → ((s.context k).hub = true → s.threadBound (s.context k).tenant (s.context k).thread = true) →
          (opByte c 48).testBit 0 = true → (opU64 c 32 = 0 ∨ s.now + 2000 ≤ opU64 c 32 ∧ opU64 c 32 ≠ barrierCount) →
          ∃ u : State, exec (.ctxLaunch c) s = .next u ∧ (u.context k).state = .armed ∧ (u.context k).waitCmd = some c) ∧
        ((s.context k).state ∈ [CtxState.armed, .running, .switched] →
          exec (.ctxStop c) s = .next ((if (s.context k).hub = false ∧ (s.context k).onCells = true ∧ (s.part (s.context k).partition).entries = [] then
            (s.stopContext k).cellsFreed (s.context k).partition (s.context k).tenant else s.stopContext k).complete c CS.ok) ∧
          ((s.context k).state = .armed → ((s.stopContext k).context k).state = .loaded) ∧
          ((s.context k).state ∈ [CtxState.running, .switched] → ((s.stopContext k).context k).state = .stopped)) ∧
        (∀ u, s.writeOut c a (s.statusBlock k) = .ok u →
          exec (.ctxQuery c) s = .next (u.complete c CS.ok (ctxStateCode (u.context k).state))) ∧
        ((s.context k).state ∈ [CtxState.loaded, .halted, .stopped, .faulted] → ∃ u : State, exec (.ctxFree c) s = .next (u.complete c CS.ok) ∧
          (u.context k).state = .free ∧ (u.context k).gen = (if (s.context k).gen + 1 = 2 ^ 32 then 1 else (s.context k).gen + 1) ∧ u.io = s.io))) ∧
    ((s.context k).state = .armed → s.freezing = false →
      (s.now < (s.context k).launchYt → exec (.contextLaunchAt k) s = .next s) ∧
      ((s.context k).launchYt ≤ s.now → (s.context k).hub = true → s.threadBound (s.context k).tenant (s.context k).thread = false →
        exec (.contextLaunchAt k) s = .next s) ∧
      ((s.context k).launchYt ≤ s.now → (s.context k).hub = true → s.threadBound (s.context k).tenant (s.context k).thread = true →
        ∃ u : State, exec (.contextLaunchAt k) s = .next u ∧ (u.context k).state = .running ∧ u.io = s.io ∧ u.t1 = s.t1 ∧
        ((s.context k).barrier = false → unitGet (u.context k) (s.context k).thread = s.entryUnit k (s.context k).thread)) ∧
      ((s.context k).launchYt ≤ s.now → (s.context k).hub = false → (s.context k).onCells = true → (s.context k).ready = true →
        exec (.contextLaunchAt k) s = .next (s.startContext k) ∧ ((s.startContext k).context k).state = .running)) ∧
    ((s.context k).state ≠ .armed → exec (.contextLaunchAt k) s = .next s) ∧
    ((s.context k).state ∈ [CtxState.running, .switched] → (s.context k).runLimit ≠ 0 → (s.context k).launchYt + (s.context k).runLimit ≤ s.now →
      exec (.runLimitExpiry k) s = .next (s.faultContext k ((s.contextUnits k).headD 0) 0x0E 0 0)) ∧
    (((s.context k).state ∉ [CtxState.running, .switched] ∨ (s.context k).runLimit = 0 ∨ s.now < (s.context k).launchYt + (s.context k).runLimit) → exec (.runLimitExpiry k) s = .next s) ∧
    (∀ p, s.nextEntry p = none → exec (.switchWindowOpen p) s = .next s) ∧
    (∀ p x at_ tn, s.nextEntry p = some (x, at_) → entryTenant x = some tn → s.freezing = false →
      (s.now + s.get (Fld.SCH_SWITCH_NS p) < at_ → exec (.switchWindowOpen p) s = .next s) ∧
      (at_ ≤ s.now + s.get (Fld.SCH_SWITCH_NS p) → s.pickContext p (entryEnd x) (fun y => decide (y.tenant = tn)) = some k →
        ((s.context k).onCells = true → exec (.switchWindowOpen p) s = .next s) ∧
        ((s.context k).onCells = false → exec (.switchWindowOpen p) s = .next (s.prepare p k) ∧
          ((s.prepare p k).context k).onCells = true ∧ ((s.prepare p k).context k).ready = true)) ∧
      (s.now < at_ → exec (.sliceEntryStart p) s = .next s) ∧
      (at_ ≤ s.now → s.onPartition p = some k → (s.context k).ready = true → (s.context k).state = .switched →
        exec (.sliceEntryStart p) s = .next ((s.setPart p x).resumeContext k)) ∧
      (at_ ≤ s.now → s.onPartition p = some k → (s.context k).ready = true → (s.context k).state = .armed → (s.context k).launchYt ≤ s.now →
        exec (.sliceEntryStart p) s = .next ((s.setPart p x).startContext k)) ∧
      (at_ ≤ s.now → s.onPartition p = none → s.pickContext p (entryEnd x) (fun y => decide (y.tenant = tn)) = none →
        exec (.sliceEntryStart p) s = .next (s.setPart p x)))

/-- Rounds (R339, R368, R369, R372). -/
def Obligations.RoundEvents : Prop :=
  ∀ (t : Nat) (s : State) (drafts : List (Nat × List Nat)) (w : RoundWait) (f : Flight) (k : Nat),
    ((s.roundOf t).waiting = none → exec (.compositionPoint t drafts) s = .next s) ∧
    ((s.roundOf t).waiting = some w →
      ((s.now + s.get (Fld.SCH_ROUND_CFG_LEAD t) < w.launch ∨ s.freezing = true ∨ s.get Fld.PW_STATUS_PARKING = 1) →
        exec (.compositionPoint t drafts) s = .next s) ∧
      (s.freezing = false → s.get Fld.PW_STATUS_PARKING = 0 → s.get Fld.PW_STATUS_SAFE = 0 → w.launch ≤ s.now + s.get (Fld.SCH_ROUND_CFG_LEAD t) →
        (w.launch < s.now → exec (.compositionPoint t drafts) s = .next (s.refuseRound t w CS.timeout)) ∧
        (s.now ≤ w.launch → (s.roundOf t).flight = some f → exec (.compositionPoint t drafts) s =
          .next ((s.refuseRound t w CS.notReady).raise { code := 0x0A01, tenant := some t, detail := [f.id] })) ∧
        (s.now ≤ w.launch → (s.roundOf t).flight = none → s.checkContext t (recGet w.body 0 8) = .ok k →
          ((s.context k).state = .faulted → exec (.compositionPoint t drafts) s = .next (s.refuseRound t w CS.fault)) ∧
          ((s.context k).state ∈ [CtxState.loaded, .halted, .stopped] → exec (.compositionPoint t drafts) s = .next (s.compose t w k drafts)) ∧
          ((s.context k).state ∈ [CtxState.loaded, .halted, .stopped] → s.bindSpares = s → (∀ e ∈ s.stalls, isCandidate t e.2 = false) → w.peers = [] →
            ∃ u : State, exec (.compositionPoint t drafts) s = .next (u.answerHub w.slot w.unit w.cmd CS.ok 0) ∧ (u.context k).state = .armed ∧
              (u.context k).launchYt = w.launch ∧ (u.roundOf t).waiting = none ∧
              ((u.roundOf t).flight.map Flight.id) = some ((s.get Fld.SCH_ROUNDS_COUNT + 1) % 2 ^ 32) ∧
              ((u.roundOf t).flight.map Flight.stalls) = some [])))) ∧
    (s.get Fld.PW_STATUS_PARKING = 1 → exec (.roundLaunch t) s = .next s) ∧
    ((∀ x ∈ s.net.shares, s.now < x.2.2) → s.launchShares = s) ∧
    (s.get Fld.PW_STATUS_PARKING = 0 →
      (((s.launchShares).roundOf t).flight = none → exec (.roundLaunch t) s = .next s.launchShares) ∧
      (((s.launchShares).roundOf t).flight = some f →
        (s.launchShares.now < f.launch → exec (.roundLaunch t) s = .next s.launchShares) ∧
        (f.launch ≤ s.launchShares.now → exec (.roundLaunch t) s = .next (s.launchShares.launchAt f.ctx)))) ∧
    ((s.roundOf t).flight = none → exec (.roundEnd t) s = .next s) ∧
    ((s.roundOf t).flight = some f →
      (s.roundOver f = false → exec (.roundEnd t) s = .next s) ∧
      (s.roundOver f = true → ∃ u : State, exec (.roundEnd t) s = .next (u.pfRoundEnd t) ∧ (u.roundOf t).flight = none ∧
        u.get (Fld.SCH_LAST_ROUND_ID t) = f.id % 2 ^ 32 ∧ u.get (Fld.SCH_LAST_DURATION t) = min (s.now - f.launch) 0xFFFFFFFF) ∧
      (s.roundOver f = true → f.doneTally = 0xFFFFFFFF → ∃ u : State, exec (.roundEnd t) s = .next (u.pfRoundEnd t) ∧ (u.roundOf t).flight = none ∧
        u.get (Fld.SCH_LAST_ROUND_ID t) = f.id % 2 ^ 32 ∧ u.get (Fld.SCH_LAST_DURATION t) = min (s.now - f.launch) 0xFFFFFFFF ∧
        (s.get (Fld.SCH_LATENCY_GOAL t) = 0 → u.get (Fld.SCH_CAP_CAP t) = s.get (Fld.SCH_CAP_CAP t)) ∧
        (0 < s.get (Fld.SCH_LATENCY_GOAL t) → s.get (Fld.SCH_LATENCY_GOAL t) < s.now - f.launch → u.get (Fld.SCH_CAP_CAP t) =
          max (s.get (Fld.SCH_LATENCY_MIN_CAP t)) (s.get (Fld.SCH_CAP_CAP t) - max 1 (s.get (Fld.SCH_CAP_CAP t) / 8)) % 2 ^ 16)))

/-- Tenants, partitions and accounts (R355 to R379). -/
def Obligations.TenancyRegisters : Prop :=
  ∀ (w : RegWrite) (s : State) (t p e : Nat),
    (∀ c k, Accepted s c .mgmt false → opByte c 32 = t → k < 4096 → (s.op k).live = false → (∀ j < k, (s.op j).live = true) →
      ∃ u : State, exec (.tenantTeardown c) s = .next ((u.complete c CS.ok (u.opHandle k)).beginTeardown k t ((opByte c 33).testBit 0)) ∧
        (u.op k).st = .running ∧ (u.op k).opcode = 0x80 ∧ u.io = s.io) ∧
    (t < 256 → MayWrite s w (Reg.TN_CTRL t) → ∃ u : State, exec (.tnCtrlWrite w t) s = .next u ∧
      (0 < s.tenantContexts t → u.get (Fld.TN_CTRL_PARTITION t) = s.get (Fld.TN_CTRL_PARTITION t) ∧
        u.get (Fld.TN_CTRL_MODEL t) = s.get (Fld.TN_CTRL_MODEL t)) ∧
      (s.tenantContexts t = 0 → u.get (Fld.TN_CTRL_PARTITION t) = s.wouldGet w (Fld.TN_CTRL_PARTITION t) ∧
        u.get (Fld.TN_CTRL_MODEL t) = s.wouldGet w (Fld.TN_CTRL_MODEL t)) ∧
      ((s.domainInstalled t = false ∨ s.domainInstalled (256 + t) = false ∨ s.get Fld.BU_STATE_STATE ≠ 7) → u.get (Fld.TN_CTRL_EN t) = 0)) ∧
    (256 ≤ t → exec (.tnCtrlWrite w t) s = .next s ∧ exec (.schLatencyWrite w t) s = .next s ∧ exec (.tnGrantWrite w t) s = .next s) ∧
    (p < 32 → MayWrite s w (Reg.SCH_PART p) →
      ((∃ q < 256, s.get (Fld.TN_CTRL_EN q) = 1 ∧ s.get (Fld.TN_CTRL_PARTITION q) = p) → exec (.schPartWrite w p) s = .next s) ∧
      ((∀ x ∈ s.contexts, x.2.hub = true ∨ x.2.state = .free ∨ x.2.partition ≠ p) → (∀ q < 256, s.get (Fld.TN_CTRL_EN q) = 0 ∨ s.get (Fld.TN_CTRL_PARTITION q) ≠ p) →
        ∃ u : State, exec (.schPartWrite w p) s = .next u ∧ u.get (Fld.SCH_PART_VALID p) =
          (if s.wouldGet w (Fld.SCH_PART_VALID p) = 1 ∧ s.combsOk p (s.wouldGet w (Fld.SCH_PART_COMBS p)) = true then 1 else 0) ∧
          u.get (Fld.SCH_PART_COMBS p) = s.wouldGet w (Fld.SCH_PART_COMBS p))) ∧
    (32 ≤ p → exec (.schPartWrite w p) s = .next s ∧ exec (.schSliceWrite w p none) s = .next s ∧ exec (.schSliceWrite w p (some e)) s = .next s) ∧
    (p < 32 → e < 16 → MayWrite s w (Reg.SCH_SLICE p e) → ∃ u : State, exec (.schSliceWrite w p (some e)) s = .next u ∧
      (s.wouldGet w (Fld.SCH_SLICE_DURATION p e) = 0 → u.get (Fld.SCH_SLICE_DURATION p e) = 0) ∧
      (s.wouldGet w (Fld.SCH_SLICE_DURATION p e) ≠ 0 →
        u.get (Fld.SCH_SLICE_DURATION p e) = min 100000000 (max 50000 (s.wouldGet w (Fld.SCH_SLICE_DURATION p e)))) ∧ ((s.part p).entries ≠ [] → u.parts = s.parts)) ∧
    (p < 32 → MayWrite s w (Reg.SCH_SLICE_START p) → (s.part p).entries ≠ [] →
      exec (.schSliceWrite w p none) s = .next (s.store w (Reg.SCH_SLICE_START p))) ∧
    (p < 32 → MayWrite s w (Reg.SCH_SLICE_START p) → (s.part p).entries = [] → ∃ u, u = s.store w (Reg.SCH_SLICE_START p) ∧
      exec (.schSliceWrite w p none) s = .next (u.setPart p (u.reloadSlices p u.now))) ∧
    (t < 256 → MayWrite s w (Reg.SCH_LATENCY t) → ∃ u : State, exec (.schLatencyWrite w t) s = .next u ∧
      u.get (Fld.SCH_LATENCY_MIN_CAP t) = max 1 (s.wouldGet w (Fld.SCH_LATENCY_MIN_CAP t)) ∧
      (s.wouldGet w (Fld.SCH_LATENCY_GOAL t) = 0 → u.get (Fld.SCH_CAP_CAP t) = 65535) ∧
      (s.wouldGet w (Fld.SCH_LATENCY_GOAL t) ≠ 0 → u.get (Fld.SCH_CAP_CAP t) = s.get (Fld.SCH_CAP_CAP t))) ∧
    (MayWrite s w Reg.TN_PERIOD → ∃ u : State, exec (.tnPeriodWrite w) s = .next u ∧ u.get Fld.TN_PERIOD_NS = max 1000000 (s.wouldGet w Fld.TN_PERIOD_NS) ∧
      u.periodEnd = s.periodEnd) ∧
    (t < 256 → MayWrite s w (Reg.TN_GRANT t) → exec (.tnGrantWrite w t) s = .next (s.store w (Reg.TN_GRANT t))) ∧
    ((s.get Fld.YT_CTRL_RUN = 0 ∨ s.now < s.periodEnd) → exec .accountPeriodEnd s = .next s) ∧
    (s.get Fld.YT_CTRL_RUN = 1 → s.periodEnd ≤ s.now → t < 256 → ∃ u : State, exec .accountPeriodEnd s = .next u ∧
      u.periodEnd = s.periodEnd + s.get Fld.TN_PERIOD_NS ∧ u.get (Fld.TN_LAST_CONSUMED_TOKENS t) = s.get (Fld.TN_CONSUMED_TOKENS t) ∧
      u.get (Fld.TN_CONSUMED_TOKENS t) = 0 ∧ u.get (Fld.TN_REFUNDED_TOKENS t) = 0 ∧
      (s.get (Fld.TN_GRANT_UNLIMITED t) = 0 → u.get (Fld.TN_REMAINING_TOKENS t) = s.get (Fld.TN_GRANT_TOKENS t)) ∧
      (s.get (Fld.TN_GRANT_UNLIMITED t) = 1 → u.get (Fld.TN_REMAINING_TOKENS t) = 0xFFFFFFFFFFFF) ∧
      u.get (Fld.TN_GRANTED_TOKENS t) = u.get (Fld.TN_REMAINING_TOKENS t))

/-- The session transport (R421 to R428, R440, R340, R341). -/
def Obligations.SessionTransport : Prop :=
  ∀ (s : State),
    (∀ p b,
      let r := s.policed p b
      let bad (u : State) : State := (u.bump (Fld.NW_STAT_COUNT 2) 1).raise { code := 0x0B08, subject := p, detail := [recGet b 4 2] }
      ((s.get Fld.NW_CTRL_EN = 0 ∨ s.get (Fld.NW_PORT_STATE_LINK p) ≠ 2) → exec (.mstDatagramReceive p b) s = .next s) ∧
      ((isControl (recGet b 1 1) = true ∨ s.get (Fld.TS_POLICE_EN p (recGet b 8 1)) = 0) → r = (s, true)) ∧
      (s.get Fld.NW_CTRL_EN = 1 → s.get (Fld.NW_PORT_STATE_LINK p) = 2 →
        (headerOk b = false → exec (.mstDatagramReceive p b) s = .next (bad s)) ∧
        (headerOk b = true → r.2 = false → exec (.mstDatagramReceive p b) s = .next r.1) ∧
        (headerOk b = true → r.2 = true →
          (r.1.openDatagram b = none → exec (.mstDatagramReceive p b) s = .next (bad r.1)) ∧
          (∀ a, r.1.openDatagram b = some a →
            let k := flowKey a.msg.src a.msg.tenant
            let v := r.1.hear a.msg.src
            (a.msg.dst ≠ r.1.deviceId → exec (.mstDatagramReceive p b) s = .next (bad r.1)) ∧
            (r.1.segmentBad k a = true → exec (.mstDatagramReceive p b) s = .next (bad r.1)) ∧
            (a.msg.dst = r.1.deviceId → r.1.segmentBad k a = false →
              (yardType a.msg.type = false → r.1.get (Fld.TN_CTRL_EN a.msg.tenant) = 0 →
                exec (.mstDatagramReceive p b) s = .next (r.1.bump (Fld.NW_STAT_COUNT 3) 1)) ∧
              ((yardType a.msg.type = true ∨ r.1.get (Fld.TN_CTRL_EN a.msg.tenant) = 1) → exec (.mstDatagramReceive p b) s = .next (r.1.accept p a)) ∧
              (r.1.get (Fld.TN_CTRL_EN a.msg.tenant) = 1 → 1 ≤ a.msg.type → a.msg.type ≤ 0x0C → v.freezing = false →
                (a.seq ∈ (v.flow k).seen → exec (.mstDatagramReceive p b) s = .next ((v.bump (Fld.NW_STAT_COUNT 1) 1).acknowledge a k)) ∧
                (a.seq ∉ (v.flow k).seen → (v.flow k).parts = [] → a.last = true → a.seg = 0 → exec (.mstDatagramReceive p b) s =
                  .next ((v.setFlow k { v.flow k with seen := (a.seq :: (v.flow k).seen).take 65536, freed := (v.flow k).freed + 1, parts := [] }).acknowledge a k)))))))) ∧
    (∀ m : Msg,
      let v := s.hear m.src
      let k := flowKey m.src m.tenant
      let named := (List.range (m.payload.length / 8)).map (fun i => recGet m.payload (8 * i) 8)
      let left := (v.flow k).unacked.filter (fun d => !named.contains d.seq)
      let z := v.unqueue (fun d => decide (flowKey d.peer d.tenant = k) && named.contains d.seq && decide (d.msg.type ≠ 0x40))
      exec (.ackReceived m) s = .next ((z.setFlow k
        { v.flow k with unacked := left, freedIn := max (v.flow k).freedIn (min m.aux (v.flow k).sent),
                        lastAck := if left.length < (v.flow k).unacked.length then z.now else (v.flow k).lastAck }).pump k) ∧
      ((v.flow k).waiting = [] → ∃ u : State, exec (.ackReceived m) s = .next u ∧
        (u.flow k).unacked = left ∧
        (u.flow k).freedIn = max (v.flow k).freedIn (min m.aux (v.flow k).sent) ∧ (u.flow k).sent = (v.flow k).sent) ∧
      (∃ u : State, exec (.acceptReceived m) s = .next u ∧ (∀ e, e ∈ u.net.unaccepted ↔
        e ∈ v.net.unaccepted ∧ ¬ (e.1.dst = m.src ∧ e.1.msgId = m.msgId ∧ e.1.tenant = m.tenant))) ∧
      (v.net.rounds.contains (m.src, m.msgId) = true → exec (.waggleReceived m) s = .next v) ∧
      (v.net.rounds.contains (m.src, m.msgId) = false → v.now + v.get Fld.YT_WAGGLE_LEAD_NS ≤ m.aux → ∃ u : State, exec (.waggleReceived m) s = .next u ∧
        u.net.rounds = (m.src, m.msgId) :: v.net.rounds ∧ u.net.shares = v.net.shares ++ [(m.src, m.msgId, m.aux)] ∧ u.io = v.io) ∧
      (v.net.rounds.contains (m.src, m.msgId) = false → m.aux < v.now + v.get Fld.YT_WAGGLE_LEAD_NS → exec (.waggleReceived m) s =
        .next (({ v with net := { v.net with rounds := (m.src, m.msgId) :: v.net.rounds } }.sendDevice 0x21 m.src 0 0 m.msgId v.now).raise
          { code := 0x0305, detail := [m.msgId, m.src] })) ∧
      (∃ u : State, exec (.waggleRefuseReceived m) s = .next u ∧ u.net.refusals = v.net.refusals ++ [(m.msgId, m.src)] ∧ u.io = v.io)) ∧
    (∀ k q,
      ((∀ d ∈ (s.flow k).unacked, d.seq ≠ q) → exec (.retransmitTimer k q) s = .next s) ∧
      (∀ d, (s.flow k).unacked.find? (fun d => d.seq = q) = some d → d.sentAt = none →
        ((d.queued = true ∨ s.transferPaused d.msg = true) → exec (.retransmitTimer k q) s = .next s) ∧
        (d.queued = false → s.transferPaused d.msg = false → exec (.retransmitTimer k q) s = .next (s.enqueue d))) ∧
      (∀ d at_, (s.flow k).unacked.find? (fun d => d.seq = q) = some d → d.sentAt = some at_ →
        ((d.queued = true ∨ s.now < at_ + s.get Fld.NW_RETX_NS) → exec (.retransmitTimer k q) s = .next s) ∧
        (d.queued = false → at_ + s.get Fld.NW_RETX_NS ≤ s.now → exec (.retransmitTimer k q) s = .next (s.enqueue d)))) ∧
    (∀ k,
      (s.net.unaccepted.length ≤ k → exec (.acceptTimer k) s = .next s) ∧
      (∀ m at_, s.net.unaccepted[k]? = some (m, at_) →
        (s.now < at_ + s.get Fld.NW_ACCEPT_NS → exec (.acceptTimer k) s = .next s) ∧
        (at_ + s.get Fld.NW_ACCEPT_NS ≤ s.now →
          exec (.acceptTimer k) s = .next (({ s with net := { s.net with unaccepted := s.net.unaccepted.set k (m, s.now) } }).send m)))) ∧
    (∀ t tool,
      let peer := if tool = true then 0xF001 else 0xF000
      let x := s.flow (flowKey peer t)
      ((x.unacked = [] ∧ x.waiting = [] ∨ s.now < x.lastAck + s.get Fld.NW_EP_TIMEOUT_NS) → exec (.endpointTimeout t tool) s = .next s) ∧
      ((x.unacked ≠ [] ∨ x.waiting ≠ []) → x.lastAck + s.get Fld.NW_EP_TIMEOUT_NS ≤ s.now → exec (.endpointTimeout t tool) s =
        .next ((s.resetFlow (flowKey peer t)).raise { code := 0x0B07, tenant := some t, detail := [peer] }))) ∧
    (∀ w, MayWrite s w Reg.NW_FLOW_SEL →
      let v := s.store w Reg.NW_FLOW_SEL
      let x := v.flow (flowKey (v.get Fld.NW_FLOW_SEL_PEER) (v.get Fld.NW_FLOW_SEL_TENANT))
      exec (.nwFlowSelWrite w) s = .next (((v.put Fld.NW_FLOW_CREDITS_COUNT (v.credits x)).put Fld.NW_FLOW_INFLIGHT_COUNT (x.sent - x.freedIn)).put
        Fld.NW_FLOW_FREE_COUNT (v.get Fld.NW_CREDITS_CREDITS)))

/-- Members and the Yard map (R431 to R433, R441). -/
def Obligations.YardMembership : Prop :=
  ∀ (s : State),
    (s.net.helloStart = none → exec .helloSend s = .next s ∧ ∀ d, exec (.memberMissTimeout d) s = .next s) ∧
    (∀ start, s.net.helloStart = some start →
      let v : State := { s with net := { s.net with helloSent := some s.now } }
      (∀ last, s.net.helloSent = some last → (s.now - start) / s.get Fld.NW_HELLO_PERIOD ≤ (last - start) / s.get Fld.NW_HELLO_PERIOD →
        exec .helloSend s = .next s) ∧
      ((s.net.helloSent = none ∨ ∃ last, s.net.helloSent = some last ∧ (last - start) / s.get Fld.NW_HELLO_PERIOD < (s.now - start) / s.get Fld.NW_HELLO_PERIOD) →
        exec .helloSend s = .next (s.otherMembers.foldl (fun u d =>
          u.send { type := 0x30, src := u.deviceId, dst := d, aux := u.get Fld.NW_MAP_GEN_GEN, payload := s.absentBitmap }) v)) ∧
      (∀ d, (d = s.deviceId ∨ s.isMember d = false ∨ (s.member d).absent = true ∨
          s.now < max (s.member d).heard start + s.get Fld.NW_HELLO_MISS * s.get Fld.NW_HELLO_PERIOD) → exec (.memberMissTimeout d) s = .next s) ∧
      (∀ d, d ≠ s.deviceId → s.isMember d = true → (s.member d).absent = false →
          max (s.member d).heard start + s.get Fld.NW_HELLO_MISS * s.get Fld.NW_HELLO_PERIOD ≤ s.now →
        exec (.memberMissTimeout d) s = .next (s.setMember d { s.member d with absent := true }).weighMarks)) ∧
    (∀ m : Msg,
      let v := s.hear m.src
      ((m.src = v.deviceId ∨ v.isMember m.src = false ∨ m.aux ≠ v.get Fld.NW_MAP_GEN_GEN) → exec (.helloReceived m) s = .next v) ∧
      (m.src ≠ v.deviceId → v.isMember m.src = true → m.aux = v.get Fld.NW_MAP_GEN_GEN →
        exec (.helloReceived m) s = .next (v.setMember m.src { v.member m.src with
          marks := (List.range 4096).filter (fun d => (recGet m.payload (d / 8) 1).testBit (d % 8)) }).weighMarks)) ∧
    (∀ c : Cmd, Accepted s c .mgmt false →
      ((opU16 c 34 = 0 ∨ 4096 < opU16 c 32 + opU16 c 34) → exec (.mapSet c) s = .next (s.complete c CS.badCommand)) ∧
      (1 ≤ opU16 c 34 → opU16 c 32 + opU16 c 34 ≤ 4096 →
        (s.get Fld.NW_CTRL_COMMIT = 0 → exec (.mapSet c) s = .next (s.complete c CS.notReady)) ∧
        (s.get Fld.NW_CTRL_COMMIT = 1 → ∀ st, s.readIn c c.addrA.toNat 0 (32 * opU16 c 34) = .error st →
          exec (.mapSet c) s = .next ((s.readInFault c c.addrA.toNat st).complete c st)) ∧
        (s.get Fld.NW_CTRL_COMMIT = 1 → ∀ b, s.readIn c c.addrA.toNat 0 (32 * opU16 c 34) = .ok b →
          ((∃ k < opU16 c 34, 2 ≤ recGet b (32 * k + 19) 1 ∨ ∃ x ∈ (b.drop (32 * k + 20)).take 12, x ≠ 0) → exec (.mapSet c) s = .next (s.complete c CS.badCommand)) ∧
          ((∀ k < opU16 c 34, recGet b (32 * k + 19) 1 < 2 ∧ ((b.drop (32 * k + 20)).take 12).all (· = 0) = true) → exec (.mapSet c) s =
            .next ((s.writeMap (opU16 c 32) (opU16 c 34) b).complete c CS.ok ((s.writeMap (opU16 c 32) (opU16 c 34) b).get Fld.NW_MAP_GEN_GEN))))))

/-- Traffic control, gate lists, links and lanes (R418 to R420, R434 to R443). -/
def Obligations.TrafficAndLinks : Prop :=
  ∀ (s : State) (p : Nat),
    ((s.netUp p = false → exec (.portTransmit p) s = .next s) ∧
      (s.netUp p = true →
        (∀ d, (s.controlOf p).find? s.keyReady = some d → exec (.portTransmit p) s = .next ((s.setControl p ((s.controlOf p).erase d)).transmit p d)) ∧
        ((s.controlOf p).find? s.keyReady = none →
          (s.get Fld.TS_CTRL_EN = 0 → exec (.portTransmit p) s = .next s) ∧
          (s.get Fld.TS_CTRL_EN = 1 → s.nextHead p = none → exec (.portTransmit p) s = .next s) ∧
          (∀ k inside, s.get Fld.TS_CTRL_EN = 1 → s.nextHead p = some (k, inside) → exec (.portTransmit p) s = .next (s.sendHead p k inside) ∧
            ∃ r ∈ s.net.queues.filterMap (s.headRank p), r.2.2 = (k, inside) ∧ ∀ q ∈ s.net.queues.filterMap (s.headRank p), rankBefore q r = false)))) ∧
    ((s.now / s.get Fld.TS_REFILL_NS * s.get Fld.TS_REFILL_NS ≤ s.net.refillAt → exec .tsRefillTick s = .next s) ∧
      (s.net.refillAt < s.now / s.get Fld.TS_REFILL_NS * s.get Fld.TS_REFILL_NS → ∃ u : State, exec .tsRefillTick s = .next u ∧
        u.net.refillAt = s.now / s.get Fld.TS_REFILL_NS * s.get Fld.TS_REFILL_NS ∧ u.io = s.io) ∧
      (∀ t c, t < 256 → c < 8 →
        ((s.refillQueue (queueKey p t c)).tqueue (queueKey p t c)).committed =
          min (s.get (Fld.TS_DEPTH_CBS p t c) * (64 * 8000)) ((s.tqueue (queueKey p t c)).committed + s.get (Fld.TS_RATE_CIR p t c) * s.get Fld.TS_REFILL_NS) ∧
        ((s.refillQueue (queueKey p t c)).tqueue (queueKey p t c)).peak =
          min (s.get (Fld.TS_DEPTH_PBS p t c) * (64 * 8000)) ((s.tqueue (queueKey p t c)).peak + s.get (Fld.TS_RATE_PIR p t c) * s.get Fld.TS_REFILL_NS)) ∧
      (∀ w t c, p < 8 → t < 256 → c < 8 →
        (MayWrite s w (Reg.TS_RATE p t c) → exec (.tsRateWrite w p t c false) s = .next ((if s.now % s.get Fld.TS_REFILL_NS = 0 then s else s.refillDue).store w (Reg.TS_RATE p t c))) ∧
        (MayWrite s w (Reg.TS_DEPTH p t c) → exec (.tsRateWrite w p t c true) s = .next ((if s.now % s.get Fld.TS_REFILL_NS = 0 then s else s.refillDue).store w (Reg.TS_DEPTH p t c)))) ∧
      (∀ w t c d, (8 ≤ p ∨ 256 ≤ t ∨ 8 ≤ c) → exec (.tsRateWrite w p t c d) s = .next s)) ∧
    (8 ≤ p → ∀ w, exec (.gateLoad w p) s = .next s ∧ exec (.gateCancel w p) s = .next s ∧ exec (.gateTakeover p) s = .next s) ∧
    (∀ w, p < 8 → MayWrite s w (Reg.TS_GATE_CTRL p) → ∀ c ∈ [Instr.gateLoad w p, .gateCancel w p],
      let v := s.store w (Reg.TS_GATE_CTRL p)
      let load := (writeBits w).toNat.testBit 0
      let cancel := (writeBits w).toNat.testBit 1
      let late := v.raise { code := 0x0B0C, subject := p }
      (load = false → cancel = false → exec c s = .next v) ∧
      (load = true → v.get (Fld.TS_GATE_CTRL_PENDING p) = 0 →
        (v.now < v.get (Fld.TS_GATE_START_NS p) → exec c s = .next (v.put (Fld.TS_GATE_CTRL_PENDING p) 1)) ∧
        (v.get (Fld.TS_GATE_START_NS p) ≤ v.now → exec c s = .next ((v.put (Fld.TS_GATE_CTRL_PENDING p) 1).gateTakeover p))) ∧
      (load = true → cancel = false → v.get (Fld.TS_GATE_CTRL_PENDING p) = 1 → exec c s = .next v) ∧
      (load = false → cancel = true →
        (v.get (Fld.TS_GATE_CTRL_PENDING p) = 0 → exec c s = .next v) ∧
        (v.get (Fld.TS_GATE_CTRL_PENDING p) = 1 → v.now < v.get (Fld.TS_GATE_START_NS p) → exec c s = .next (v.put (Fld.TS_GATE_CTRL_PENDING p) 0))) ∧
      (cancel = true → v.get (Fld.TS_GATE_CTRL_PENDING p) = 1 →
        (v.get (Fld.TS_GATE_START_NS p) ≤ v.now → exec c s = .next late) ∧
        (load = true → v.now < v.get (Fld.TS_GATE_START_NS p) →
          exec c s = .next ((v.put (Fld.TS_GATE_CTRL_PENDING p) 0).put (Fld.TS_GATE_CTRL_PENDING p) 1)))) ∧
    ((p < 8 → (s.get (Fld.TS_GATE_CTRL_PENDING p) = 0 ∨ s.now < s.get (Fld.TS_GATE_START_NS p)) → exec (.gateTakeover p) s = .next s) ∧
      (p < 8 → s.get (Fld.TS_GATE_CTRL_PENDING p) = 1 → s.get (Fld.TS_GATE_START_NS p) ≤ s.now →
        let g : GateX := ⟨s.pendingGate p, s.get (Fld.TS_GATE_START_NS p)⟩
        exec (.gateTakeover p) s = .next (((((s.setGate p g).put (Fld.TS_GATE_STATE_LENGTH p) g.entries.length).put (Fld.TS_GATE_STATE_INDEX p)
          (((gateAt g s.now).map (·.1)).getD 0)).put (Fld.TS_GATE_CTRL_PENDING p) 0).raise { code := 0x0B0B, subject := p })) ∧
      (gateAt (s.gateOf p) s.now = none → exec (.gateEntryBoundary p) s = .next s) ∧
      (∀ i open_ until_, gateAt (s.gateOf p) s.now = some (i, open_, until_) →
        exec (.gateEntryBoundary p) s = .next (s.put (Fld.TS_GATE_STATE_INDEX p) i))) ∧
    ((8 ≤ p → exec (.netLinkDown p) s = .next s ∧ exec (.netLinkUp p) s = .next s ∧ ∀ i, exec (.netLaneFail p i) s = .next s) ∧
      (p < 8 →
        let v := (s.put (Fld.NW_PORT_STATE_LINK p) (if s.get (Fld.NW_PORT_CFG_EN p) = 1 then 1 else 0)).put (Fld.SEC_MACSEC_SECURED p) 0
        (s.netUp p = false → exec (.netLinkDown p) s = .next v) ∧
        (s.netUp p = true → exec (.netLinkDown p) s = .next ((v.raise { code := 0x0B02, subject := p }).moveOff p)) ∧
        (s.get (Fld.NW_PORT_STATE_LINK p) ≠ 1 → exec (.netLinkUp p) s = .next s) ∧
        (s.get (Fld.NW_PORT_STATE_LINK p) = 1 → (s.get Fld.CK_MON_STATUS_FAILED).testBit 1 = false → (s.get Fld.CK_MON_STATUS_FALLBACK).testBit 1 = false →
          (∀ i < 4, 4 * p + i ∉ s.units.absentLanes) →
          let w := (s.put (Fld.NW_PORT_STATE_LINK p) 2).raise { code := 0x0B01, subject := p }
          let x : State := { w with net := { w.net with laneCmd := w.net.laneCmd.filter (fun e => e.1 ≠ p) } }
          exec (.netLinkUp p) s = .next ((w.net.laneCmd.filter (fun e => e.1 = p)).foldl (fun u e => u.complete e.2 CS.ok) x).resume ∧
            x.get (Fld.NW_PORT_STATE_LINK p) = 2) ∧
        (((s.get Fld.CK_MON_STATUS_FAILED).testBit 1 = true ∨ (s.get Fld.CK_MON_STATUS_FALLBACK).testBit 1 = true ∨
          ∃ i < 4, 4 * p + i ∈ s.units.absentLanes) → exec (.netLinkUp p) s = .next s) ∧
        (∀ i, 4 ≤ i → exec (.netLaneFail p i) s = .next s) ∧
        (∀ i l, i < 4 → s.laneSpare p = some l → exec (.netLaneFail p i) s = .next (s.spareLane p i l)) ∧
        (∀ i, i < 4 → s.laneSpare p = none → 4 * p + i ∈ s.units.absentLanes → exec (.netLaneFail p i) s = .next s) ∧
        (∀ i, i < 4 → s.laneSpare p = none → 4 * p + i ∉ s.units.absentLanes → ∃ u : State,
          exec (.netLaneFail p i) s = .next u ∧ u.units.absentLanes = s.units.absentLanes ++ [4 * p + i] ∧
            u.units.badLanes = s.units.badLanes.filter (· ≠ s.physicalLane (4 * p + i)) ++ [s.physicalLane (4 * p + i)]))) ∧
    (∀ c : Cmd, Accepted s c .mgmt false →
      ((8 ≤ opByte c 32 ∨ 4 ≤ opByte c 33) → exec (.laneSpare c) s = .next (s.complete c CS.badCommand)) ∧
      (opByte c 32 < 8 → opByte c 33 < 4 → s.laneSpare (opByte c 32) = none → exec (.laneSpare c) s = .next (s.complete c CS.noResource)) ∧
      (∀ l, opByte c 32 < 8 → opByte c 33 < 4 → s.laneSpare (opByte c 32) = some l →
        let v := s.spareLane (opByte c 32) (opByte c 33) l
        exec (.laneSpare c) s = .next { v with net := { v.net with laneCmd := v.net.laneCmd ++ [(opByte c 32, c)] } })) ∧
    (∀ a b,
      (s.netUp p = false → exec (.neighborSolicitation p a) s = .next s ∧ exec (.icmpEchoRequest p a b) s = .next s) ∧
      (s.ownAddress a = none → exec (.neighborSolicitation p a) s = .next s ∧ exec (.icmpEchoRequest p a b) s = .next s) ∧
      (∀ q, s.netUp p = true → s.ownAddress a = some q →
        exec (.neighborSolicitation p a) s = .next (s.emit (.neighborAdvert p a (s.get (Fld.NW_PORT_CFG_MAC q)))) ∧
        exec (.icmpEchoRequest p a b) s = .next (s.emit (.echoReply p b))))

/-- The Yard Time unit and the tally registers (R331 to R336, R343 to R349, R352). -/
def Obligations.YardTimeAndTallyRegisters : Prop :=
  ∀ (s : State),
    (s.get Fld.YT_CTRL_RUN = 0 → exec .ytTick s = .next s) ∧
    (s.get Fld.YT_CTRL_RUN = 1 → -1000000000 ≤ s.ratePpb → ∃ u : State, exec .ytTick s = .next u ∧
      (u.yt.count * 1000000000 + u.yt.frac : Int) = s.yt.count * 1000000000 + s.yt.frac + 1000000000 + s.ratePpb ∧ u.yt.frac < 1000000000 ∧ u.io = s.io) ∧
    (∀ w, MayWrite s w Reg.YT_CTRL → ∀ c ∈ [Instr.ytRun w, .ytCommit w],
      let x := s.store w Reg.YT_CTRL
      let v := if x.get Fld.YT_CTRL_SRC = 0 then x.put Fld.YT_RATE_PPB 0 else x
      ((s.get Fld.YT_CTRL_RUN = 1 ∨ v.get Fld.YT_CTRL_RUN = 0) → exec c s = .next v) ∧
      (s.get Fld.YT_CTRL_RUN = 0 → v.get Fld.YT_CTRL_RUN = 1 → ∃ u : State, exec c s = .next u ∧ u.yt.count = v.get Fld.YT_SET_NS ∧ u.yt.frac = 0 ∧
        u.yt.lastPps = some (v.get Fld.YT_SET_NS) ∧ u.periodEnd = v.get Fld.YT_SET_NS + v.get Fld.TN_PERIOD_NS ∧ u.io = v.io)) ∧
    (let v := ((s.put Fld.YT_PPS_STAMP_NS s.now).setYt { s.yt with lastPps := some s.now }).put Fld.YT_STATUS_HOLDOVER 0
     let phase := s.now % 1000000000
     let source : Prop := s.get Fld.YT_CTRL_SRC = 1 ∨ (s.get Fld.YT_CTRL_SRC = 3 ∧ s.yt.ptpMaster = none)
     (¬ source → exec .ppsEdge s = .next v) ∧
      (source → phase ≤ 500000000 → exec .ppsEdge s = .next (v.measure (-(phase : Int)))) ∧
      (source → 500000000 < phase → exec .ppsEdge s = .next (v.measure (1000000000 - (phase : Int)))) ∧
      (source → phase ≤ 500000000 → phase ≤ v.get Fld.YT_LOCK_LIMIT_NS → phase ≤ 1000000 → s.yt.lockRun = 15 →
        s.get Fld.YT_STATUS_FALLBACK = 0 → (s.get Fld.CK_MON_STATUS_FAILED).testBit 2 = false → exec .ppsEdge s =
          .next ((((v.put Fld.YT_OFFSET_NS (signedBits 64 (-(phase : Int)))).setYt { v.yt with lockRun := 16, unlockRun := 0 }).setLocked true).steer
            (-(phase : Int))))) ∧
    (((s.get Fld.YT_CTRL_SRC = 1 ∨ s.get Fld.YT_CTRL_SRC = 3) → s.get Fld.YT_CTRL_RUN = 1 → s.get Fld.YT_STATUS_HOLDOVER = 0 →
        s.yt.lastPps.getD (s.get Fld.YT_SET_NS) + 1500000000 ≤ s.now →
        exec .ppsMissing s = .next ((s.put Fld.YT_STATUS_HOLDOVER 1).raise { code := 0x0304 })) ∧
      ((s.now < s.yt.lastPps.getD (s.get Fld.YT_SET_NS) + 1500000000 ∨ s.get Fld.YT_CTRL_SRC = 0 ∨ s.get Fld.YT_CTRL_SRC = 2 ∨ s.get Fld.YT_CTRL_RUN = 0 ∨
        s.get Fld.YT_STATUS_HOLDOVER = 1) → exec .ppsMissing s = .next s)) ∧
    (∀ m : PtpMsg,
      ((s.get Fld.YT_CTRL_SRC < 2 ∨ (s.get Fld.YT_PTP_PORTS).testBit m.port = false ∨ m.domain ≠ s.get Fld.YT_PTP_DOMAIN) →
        exec (.ptpMessage m) s = .next s) ∧
      ((s.get Fld.YT_CTRL_SRC = 2 ∨ s.get Fld.YT_CTRL_SRC = 3) → (s.get Fld.CK_MON_STATUS_FALLBACK).testBit 1 = false →
        (s.get Fld.CK_MON_STATUS_FAILED).testBit 1 = false → (s.get Fld.YT_PTP_PORTS).testBit m.port = true → m.domain = s.get Fld.YT_PTP_DOMAIN →
        (s.get Fld.YT_PTP_TRANSPORT = 1 ↔ m.ethernet = true) →
        (∀ master rank, m.body = .announce master rank →
          (∀ q, s.yt.ptpMaster = some q → q.1 = master ∨ rank < q.2) →
          exec (.ptpMessage m) s = .next (s.selectSource (some (master, rank))) ∧ (s.selectSource (some (master, rank))).yt.ptpMaster = some (master, rank)) ∧
        (∀ master other rank best, m.body = .announce master rank → s.yt.ptpMaster = some (other, best) → other ≠ master → best ≤ rank →
          exec (.ptpMessage m) s = .next s) ∧
        (∀ master seq origin correction, m.body = .sync master seq origin correction →
          (s.yt.ptpMaster.map (·.1) ≠ some master → exec (.ptpMessage m) s = .next s) ∧
          (s.yt.ptpMaster.map (·.1) = some master → origin = none →
            exec (.ptpMessage m) s = .next (s.setYt { s.yt with ptpSync := some (seq, s.now) })) ∧
          (∀ o, s.yt.ptpMaster.map (·.1) = some master → origin = some o →
            let span : Int := s.now - o - correction
            exec (.ptpMessage m) s =
              .next (((s.setYt { s.yt with ptpSync := none, ptpSpan := span }).measure (s.yt.ptpPath - span)).askDelay m.port))) ∧
        (∀ master seq origin correction, m.body = .followUp master seq origin correction →
          (∀ at_, s.yt.ptpMaster.map (·.1) = some master → s.yt.ptpSync = some (seq, at_) →
            let span : Int := at_ - origin - correction
            exec (.ptpMessage m) s =
              .next (((s.setYt { s.yt with ptpSync := none, ptpSpan := span }).measure (s.yt.ptpPath - span)).askDelay m.port)) ∧
          ((s.yt.ptpMaster.map (·.1) ≠ some master ∨ s.yt.ptpSync.map (·.1) ≠ some seq) → exec (.ptpMessage m) s = .next s)) ∧
        (∀ master seq receipt correction at_, m.body = .delayResp master seq receipt correction → s.yt.ptpMaster.map (·.1) = some master →
          s.yt.ptpAsked = some (seq, at_) → s.get Fld.YT_PTP_DELAY = 0 →
          exec (.ptpMessage m) s = .next (s.setYt { s.yt with ptpPath := (s.yt.ptpSpan + ((receipt : Int) - at_ - correction)) / 2 })) ∧
        (∀ seq, m.body = .peerRequest seq →
          (s.get Fld.YT_PTP_DELAY = 1 → exec (.ptpMessage m) s = .next (s.emit (.ptp m.port (bytesOf 1 3 ++ bytesOf 2 seq ++ bytesOf 8 s.now)))) ∧
          (s.get Fld.YT_PTP_DELAY = 0 → exec (.ptpMessage m) s = .next s)) ∧
        (∀ seq receipt correction at_, m.body = .peerResp seq receipt correction → s.yt.ptpAsked = some (seq, at_) → s.get Fld.YT_PTP_DELAY = 1 →
          (∀ r, receipt = some r → exec (.ptpMessage m) s = .next (s.setYt { s.yt with ptpPeer := some (r, s.now) })) ∧
          (receipt = none → exec (.ptpMessage m) s = .next (s.setYt { s.yt with ptpPath := ((s.now : Int) - at_ - correction) / 2 }))) ∧
        (∀ seq sent correction at_ p, m.body = .peerFollowUp seq sent correction → s.yt.ptpAsked = some (seq, at_) → s.yt.ptpPeer = some p →
          s.get Fld.YT_PTP_DELAY = 1 → exec (.ptpMessage m) s = .next (s.setYt { s.yt with
            ptpPeer := none, ptpPath := (((p.2 : Int) - at_) - ((sent : Int) - p.1) - correction) / 2 })) ∧
        (m.body = .other → exec (.ptpMessage m) s = .next s))) ∧
    (∃ u : State, exec .ptpSourceLoss s = .next u ∧ u.yt.ptpMaster = none ∧ u.get Fld.YT_STATUS_PTP_SOURCE = 0 ∧ u.yt.count = s.yt.count ∧
      (s.yt.ptpMaster ≠ none → u.yt.ptpPath = 0 ∧ u.yt.ptpSync = none ∧ u.yt.ptpAsked = none)) ∧
    (∀ w, MayWrite s w Reg.TL_HOST_SIG →
      let n := (writeBits w).toNat % 8192
      let k := (writeBits w).toNat / 2 ^ 16 % 65536
      (∀ e, s.tallyCheck (s.get (Fld.TL_BIND_TENANT n)) n k = some e → exec (.tlHostSig w) s =
        .next { s with io := s.io.setFlag Reg.TL_FLAGS 2 Reg.TL_FLAG_COUNT 2 }) ∧
      (s.tallyCheck (s.get (Fld.TL_BIND_TENANT n)) n k = none → (s.signal n k).1 ≠ CS.ok → exec (.tlHostSig w) s =
        .next { (s.signal n k).2 with io := (s.signal n k).2.io.setFlag Reg.TL_FLAGS 2 Reg.TL_FLAG_COUNT 2 }) ∧
      (s.tallyCheck (s.get (Fld.TL_BIND_TENANT n)) n k = none → (s.signal n k).1 = CS.ok → exec (.tlHostSig w) s = .next (s.signal n k).2)) ∧
    (∀ w n,
      (8192 ≤ n → exec (.tlBindWrite w n) s = .next s) ∧
      (n < 8192 → MayWrite s w (Reg.TL_BIND n) →
        ((s.wouldGet w (Fld.TL_BIND_TENANT n) ≠ s.get (Fld.TL_BIND_TENANT n) ∨ (s.get (Fld.TL_BIND_EN n) = 1 ∧ s.wouldGet w (Fld.TL_BIND_EN n) = 0)) →
          exec (.tlBindWrite w n) s = .next ((s.cancelTally n (s.get (Fld.TL_BIND_TENANT n))).store w (Reg.TL_BIND n))) ∧
        (s.wouldGet w (Fld.TL_BIND_TENANT n) = s.get (Fld.TL_BIND_TENANT n) → (s.get (Fld.TL_BIND_EN n) = 0 ∨ s.wouldGet w (Fld.TL_BIND_EN n) ≠ 0) →
          exec (.tlBindWrite w n) s = .next (s.store w (Reg.TL_BIND n))))) ∧
    (∀ w, MayWrite s w Reg.TL_SNAP_SEL →
      let v := s.store w Reg.TL_SNAP_SEL
      let x := v.tally (v.get Fld.TL_SNAP_SEL_TALLY)
      exec (.tlSnapSelWrite w) s = .next ((((v.put Fld.TL_SNAP_COUNT_COUNT x.count).put Fld.TL_SNAP_SIG_SIG x.sig).put Fld.TL_SNAP_TAKEN_TAKEN x.taken).put
        Fld.TL_SNAP_WAITERS_WAITERS x.queue.length))

/-- The security commands (R445 to R474). -/
def Obligations.SecurityCommands : Prop :=
  ∀ (s : State),
    (∀ r : SpdmReq,
      let l := s.sessionsOf r.port
      ((4 ≤ r.port ∨ s.io.portUp r.port = false) → exec (.spdmRequest r) s = .next s) ∧
      (r.port < 4 → s.io.portUp r.port = true →
        (∃ (u : State) (a : SpdmReply), exec (.spdmRequest r) s = .next (u.spdmAnswer r a) ∧ u.t1 = s.t1) ∧
        (∀ k, r.session = some k → (∀ x ∈ l, x.id ≠ k) → exec (.spdmRequest r) s = .next (s.spdmAnswer r .errorInvalid)) ∧
        (r.session = none →
          (needsCert r.body = true → s.get Fld.SEC_STATE_CERT_LOADED = 0 → exec (.spdmRequest r) s = .next (s.spdmAnswer r .errorUnspecified)) ∧
          (r.body = .getVersion → exec (.spdmRequest r) s = .next (s.spdmAnswer r (.version [0x12, 0x13]))) ∧
          (r.body = .getCapabilities → exec (.spdmRequest r) s = .next (s.spdmAnswer r .capabilities)) ∧
          (r.body = .getDigests → exec (.spdmRequest r) s =
            .next (s.spdmAnswer r (.digests (if s.get Fld.SEC_STATE_CERT_LOADED = 1 then Config.sha384 s.sec.chain else [])))) ∧
          (∀ i nonce, r.body = .getMeasurements i false nonce → (i = 0 ∨ measureIndices i ≠ []) → exec (.spdmRequest r) s =
            .next (s.spdmAnswer r (.measurements ((measureIndices i).map (fun k => (k, s.measurement k))) []))) ∧
          (r.body = .keyExchange 0 → s.get Fld.SEC_STATE_CERT_LOADED = 1 →
            (4 ≤ l.length → exec (.spdmRequest r) s = .next (s.spdmAnswer r .errorSessionLimit)) ∧
            (l.length < 4 → exec (.spdmRequest r) s = .next ((s.setSessions r.port (l ++ [{ id := freeSession l, established := false, requester := none }])).spdmAnswer r
              (.keyExchange (freeSession l)))))) ∧
        (∀ k x who, r.session = some k → l.find? (fun x => x.id = k) = some x → r.body = .finish who true → x.established = false →
          ∃ v : State, exec (.spdmRequest r) s = .next ((v.refreshConf r.port).spdmAnswer r .finish) ∧
            v.sessionsOf r.port = l.map (fun (y : SpdmSession) => if y.id = x.id then ({ y with established := true, requester := who } : SpdmSession) else y)) ∧
        (∀ k x, r.session = some k → l.find? (fun x => x.id = k) = some x → r.body = .endSession → x.established = true →
          exec (.spdmRequest r) s = .next (((s.setSessions r.port (l.filter (fun y => y.id ≠ x.id))).refreshConf r.port).spdmAnswer r .ack)) ∧
        (∀ k x go, r.session = some k → l.find? (fun x => x.id = k) = some x → r.body = .ideKey go → x.established = true →
          exec (.spdmRequest r) s = .next ((if go = true then s.put (Fld.GC_PORT_STATE_IDE r.port) 1 else s).spdmAnswer r .ack)))) ∧
    (∀ n, 4 ≤ n → exec (.tdispLockInterface n) s = .next s ∧ exec (.tdispStartInterface n) s = .next s ∧ exec (.tdispStopInterface n) s = .next s) ∧
    (∀ n, n < 4 →
      (s.get (Fld.GC_PORT_STATE_TDI n) = 0 → exec (.tdispLockInterface n) s = .next (s.moveTdi n 1) ∧ exec (.tdispStartInterface n) s = .next s) ∧
      (s.get (Fld.GC_PORT_STATE_TDI n) = 1 → exec (.tdispStartInterface n) s = .next (s.moveTdi n 2) ∧ exec (.tdispLockInterface n) s = .next s) ∧
      (s.get (Fld.GC_PORT_STATE_TDI n) = 2 → exec (.tdispStartInterface n) s = .next s ∧ exec (.tdispLockInterface n) s = .next s) ∧
      exec (.tdispStopInterface n) s = .next (s.moveTdi n 0)) ∧
    (∀ p,
      (s.secyRuns p = false → (∀ f, exec (.macsecFrame p f) s = .next s) ∧ exec (.mkaLivePeerLoss p) s = .next s) ∧
      (p < 8 → s.secyRuns p = true →
        (exec (.macsecFrame p .plain) s = .next s) ∧
        (∀ sci, exec (.macsecFrame p (.mka sci false)) s = .next s ∧ exec (.macsecFrame p (.sealed sci false)) s = .next s) ∧
        (∀ sci, sci.toNat ∉ s.peersOf p → (s.peersOf p).length < 64 →
          exec (.macsecFrame p (.mka sci true)) s = .next ((s.setPeers p (s.peersOf p ++ [sci.toNat])).put (Fld.SEC_MACSEC_SECURED p) 1) ∧
          exec (.macsecFrame p (.sealed sci true)) s = .next (s.setPeers p (s.peersOf p ++ [sci.toNat]))) ∧
        (∀ sci, sci.toNat ∉ s.peersOf p → 64 ≤ (s.peersOf p).length →
          exec (.macsecFrame p (.mka sci true)) s = .next (s.raise { code := 0x0C04, subject := p, detail := [sci.toNat] }) ∧
          exec (.macsecFrame p (.sealed sci true)) s = .next (s.raise { code := 0x0C04, subject := p, detail := [sci.toNat] })) ∧
        (∀ sci, sci.toNat ∈ s.peersOf p → exec (.macsecFrame p (.mka sci true)) s = .next (s.put (Fld.SEC_MACSEC_SECURED p) 1) ∧
          exec (.macsecFrame p (.sealed sci true)) s = .next s) ∧
        (s.peersOf p = [] → exec (.mkaLivePeerLoss p) s = .next s) ∧
        (s.peersOf p ≠ [] → exec (.mkaLivePeerLoss p) s = .next ((s.dropPeers p).raise { code := 0x0C03, subject := p })))) ∧
    (∀ (c : Cmd) (st : Nat), Accepted s c .both true → s.readIn c c.addrA.toNat 0 344 = .error st →
      exec (.secKeyLoad c) s = .next ((s.readInFault c c.addrA.toNat st).complete c st)) ∧
    (∀ (c : Cmd) (b : List Byte),
      let kind := recGet b 5 1
      let target := recGet b 6 2
      let n := opByte c 32
      Accepted s c .both (blobAllowed (s.issuerTenant c.issuer) kind target) → s.readIn c c.addrA.toNat 0 344 = .ok b →
      (blobMalformed b = true → exec (.secKeyLoad c) s = .next (s.refuseBlob c b 1 CS.badCommand)) ∧
      (blobMalformed b = false → blobAllowed (s.issuerTenant c.issuer) kind target = false → exec (.secKeyLoad c) s = .next (s.complete c CS.badCommand)) ∧
      (blobMalformed b = false → blobAllowed (s.issuerTenant c.issuer) kind target = true → kind = 2 → (n = 0 ∨ 16 < n) →
        exec (.secKeyLoad c) s = .next (s.complete c CS.badCommand)) ∧
      (blobMalformed b = false → blobAllowed (s.issuerTenant c.issuer) kind target = true → (kind = 2 → 1 ≤ n ∧ n ≤ 16) →
        (recGet b 8 8 ≠ Config.serial.toNat → exec (.secKeyLoad c) s = .next (s.refuseBlob c b 2 CS.integrity)) ∧
        (recGet b 8 8 = Config.serial.toNat →
          ((s.get Fld.SEC_CTRL_COMMIT = 0 ∨ (b.drop 24).take 48 ≠ s.policyDigest (recGet b 16 8)) →
            exec (.secKeyLoad c) s = .next (s.refuseBlob c b 3 CS.integrity)) ∧
          (s.get Fld.SEC_CTRL_COMMIT = 1 → (b.drop 24).take 48 = s.policyDigest (recGet b 16 8) →
            (Config.unwrapBlob b = none → exec (.secKeyLoad c) s = .next (s.refuseBlob c b 4 CS.integrity)) ∧
            (∀ keys, Config.unwrapBlob b = some keys →
              (∀ st, kind = 2 → s.readIn c c.addrB.toNat 344 (48 * n) = .error st →
                exec (.secKeyLoad c) s = .next ((s.readInFault c c.addrB.toNat st).complete c st)) ∧
              (∀ list, kind = 2 → s.readIn c c.addrB.toNat 344 (48 * n) = .ok list →
                (Config.sha384 list ≠ (b.drop 72).take 48 → exec (.secKeyLoad c) s = .next (s.refuseBlob c b 5 CS.integrity)) ∧
                (Config.sha384 list = (b.drop 72).take 48 → s.blobTaken kind target = true →
                  exec (.secKeyLoad c) s = .next (s.refuseBlob c b 6 CS.notReady)) ∧
                (Config.sha384 list = (b.drop 72).take 48 → s.blobTaken kind target = false →
                  exec (.secKeyLoad c) s = .next ((s.installBlob b keys list n).complete c CS.ok))) ∧
              (kind ≠ 2 →
                (s.blobTaken kind target = true → exec (.secKeyLoad c) s = .next (s.refuseBlob c b 6 CS.notReady)) ∧
                (s.blobTaken kind target = false → exec (.secKeyLoad c) s = .next ((s.installBlob b keys [] n).complete c CS.ok)))))))) ∧
    (∀ (c : Cmd), Accepted s c .mgmt false →
      (blobTargetOk (opByte c 32) (opU16 c 33) = false → exec (.secKeyClear c) s = .next (s.complete c CS.badCommand)) ∧
      (blobTargetOk (opByte c 32) (opU16 c 33) = true → s.keyInUse (opByte c 32) (opU16 c 33) = true → exec (.secKeyClear c) s = .next (s.complete c CS.notReady)) ∧
      (blobTargetOk (opByte c 32) (opU16 c 33) = true → s.keyInUse (opByte c 32) (opU16 c 33) = false →
        exec (.secKeyClear c) s = .next ((s.clearTarget (opByte c 32) (opU16 c 33)).complete c CS.ok)) ∧
      (1 < opByte c 32 → exec (.secCertLoad c) s = .next (s.complete c CS.badCommand)) ∧
      (opByte c 32 = 1 → s.get Fld.SEC_CTRL_COMMIT = 1 → exec (.secCertLoad c) s = .next (s.complete c CS.notReady)) ∧
      (∀ st, (opByte c 32 = 0 ∨ opByte c 32 = 1 ∧ s.get Fld.SEC_CTRL_COMMIT = 0) → s.readIn c c.addrA.toNat 0 (opU32 c 36) = .error st →
        exec (.secCertLoad c) s = .next ((s.readInFault c c.addrA.toNat st).complete c st)) ∧
      (∀ b, s.readIn c c.addrA.toNat 0 (opU32 c 36) = .ok b →
        (opByte c 32 = 0 → Config.chainOk b = true → exec (.secCertLoad c) s =
          .next (((s.setSec { s.sec with chain := b }).put Fld.SEC_STATE_CERT_LOADED 1).complete c CS.ok)) ∧
        (opByte c 32 = 0 → Config.chainOk b = false → exec (.secCertLoad c) s = .next (s.complete c CS.integrity)) ∧
        (opByte c 32 = 1 → s.get Fld.SEC_CTRL_COMMIT = 0 → Config.tokenOk b = true → exec (.secCertLoad c) s =
          .next ((s.put Fld.SEC_STATE_DEBUG_OPEN 1).complete c CS.ok)) ∧
        (opByte c 32 = 1 → s.get Fld.SEC_CTRL_COMMIT = 0 → Config.tokenOk b = false → exec (.secCertLoad c) s = .next (s.complete c CS.integrity))) ∧
      (sparseGet [] s.sec.certs (opByte c 32) = [] → exec (.secScrubCert c) s = .next (s.complete c CS.notReady)) ∧
      (∀ u, sparseGet [] s.sec.certs (opByte c 32) ≠ [] → s.writeOut c c.addrA.toNat (sparseGet [] s.sec.certs (opByte c 32)) = .ok u →
        exec (.secScrubCert c) s = .next (u.complete c CS.ok))) ∧
    (∀ (c : Cmd), Accepted s c .both false →
      ((opU32 c 36 < 16 ∨ 4096 < opU32 c 36 ∨ opU32 c 36 % 16 ≠ 0) → exec (.secRandom c) s = .next (s.complete c CS.badCommand)) ∧
      (∀ u, 16 ≤ opU32 c 36 → opU32 c 36 ≤ 4096 → opU32 c 36 % 16 = 0 →
        (s.drawRandom (opU32 c 36 / 8) []).2.writeOut c c.addrA.toNat (s.drawRandom (opU32 c 36 / 8) []).1 = .ok u →
        exec (.secRandom c) s = .next (u.complete c CS.ok))) ∧
    (∀ (c : Cmd) (k : Nat), AcceptedHeld s c .mgmt false →
      let d := opU16 c 32
      let ports := (List.range 8).filter (opByte c 34).testBit
      let len := opU64 c 40
      ((len = 0 ∨ len % 64 ≠ 0 ∨ ports = [] ∨ d < 512 ∨ 543 < d) → exec (.secModelImport c) s = .next (s.refuse c CS.badCommand)) ∧
      (0 < len → len % 64 = 0 → ports ≠ [] → 512 ≤ d → d ≤ 543 →
        (s.domainInstalled d = false → exec (.secModelImport c) s = .next (s.refuse c CS.notReady)) ∧
        (s.domainInstalled d = true → (∃ p ∈ ports, s.portWritable p = false) → exec (.secModelImport c) s = .next (s.refuse c CS.absentUnit)) ∧
        (s.domainInstalled d = true → (∀ p ∈ ports, s.portWritable p = true) →
          (s.takeStripes ports len = none → exec (.secModelImport c) s = .next (s.refuse c CS.noResource)) ∧
          (∀ bands v, s.takeStripes ports len = some (bands, v) → k < 4096 → (v.op k).live = false → (∀ j < k, (v.op j).live = true) →
            ∃ w : State, exec (.secModelImport c) s = .next ((w.complete c CS.ok (w.opHandle k)).setSec { v.sec with imports := v.sec.imports ++
                [{ op := k, domain := d, source := c.addrA.toNat, len := len, written := 0, bands := bands, ended := false }] }) ∧
              (w.op k).live = true ∧ (w.op k).opcode = 0xA2 ∧ (w.op k).st = .running ∧ w.sec = v.sec)))) ∧
    (∀ (slot : Nat) (x : ModelImport),
      (s.sec.imports.find? (fun x => x.op = slot && x.live) = none → ∀ b, exec (.modelImportChunkDone slot b) s = .next s) ∧
      (s.sec.imports.find? (fun x => x.op = slot && x.live) = some x → s.get Fld.PW_STATUS_PARKING = 1 → ∀ b, exec (.modelImportChunkDone slot b) s = .next s) ∧
      (s.sec.imports.find? (fun x => x.op = slot && x.live) = some x → s.get Fld.PW_STATUS_PARKING = 0 → (s.op slot).st ∈ [OpState.running, .suspending] →
        exec (.modelImportChunkDone slot none) s = .next (s.failImport x CS.fault) ∧
        (∀ b,
          let key := ((sparseGet [] s.sec.keys (keyOfDomain x.domain)).drop 64).take 32
          let n := min (2 ^ 20) (x.len - x.written)
          let i := x.written / 2 ^ 20
          let plain := if s.domainInstalled x.domain = false then none else Config.gcmOpen key (bytesOf 4 0 ++ bytesOf 8 i) (bytesOf 2 x.domain ++ bytesOf 8 i ++ bytesOf 8 x.len) (b.take n) ((b.drop n).take 16)
          (plain = none → exec (.modelImportChunkDone slot (some b)) s =
            .next ((s.raise { code := 0x0C02, subject := x.domain }).failImport x CS.integrity)) ∧
          (∀ p, plain = some p → x.len ≤ x.written + n → ∃ w : State, exec (.modelImportChunkDone slot (some b)) s =
            .next (w.endOp slot .done CS.ok x.addr (x.written + n)) ∧ w.io = (s.emit (.shedImage x.addr x.written x.domain p)).io) ∧
          (∀ p, plain = some p → x.written + n < x.len → ∃ w : State, exec (.modelImportChunkDone slot (some b)) s = .next w ∧
            (w.op slot).progress = 1000 * (x.written + n) / x.len ∧ w.io = (s.emit (.shedImage x.addr x.written x.domain p)).io)))) ∧
    ((s.unitsRun = true → exec .entropyHealthFail s = .next (s.raise { code := 0x0C08 })) ∧
      (s.unitsRun = false → exec .entropyHealthFail s = .next s))

/-- Commits and bring-up (R494 to R514, R632). -/
def Obligations.CommitsAndBringUp : Prop :=
  ∀ (s : State),
    (∀ f at_ size,
      (s.placeable at_ size = false → s.placeRanges f [(at_, size)] = s.put f 0) ∧
      (s.placeable at_ size = true → (s.placeRanges f [(at_, size)]).io = s.io ∧
        (s.placeRanges f [(at_, size)]).t1 = s.t1.own (at_ / 4096) ((at_ + size - 1) / 4096 - at_ / 4096 + 1) (.device 544))) ∧
    (∀ w, MayWrite s w Reg.STL_CTRL →
      let v := s.store w Reg.STL_CTRL
      let x := (if s.get Fld.STL_CTRL_COMMIT = 0 ∧ v.get Fld.STL_CTRL_COMMIT = 1 then v.placeRanges Fld.STL_CTRL_COMMIT
        [(v.get Fld.STL_DIR_BASE_BASE, 2 ^ 28), (v.get Fld.STL_DIR_BASE2_BASE, 2 ^ 28), (v.get Fld.STL_HDR_POOL_BASE, 4096 * v.get Fld.STL_HDR_SLOTS_SLOTS)]
        else v).enGate Fld.STL_CTRL_EN
      ((s.get Fld.STL_CTRL_EN = 1 ∨ x.directoriesTogether = false) → exec (.stlCommit w) s = .next x) ∧
      (s.get Fld.STL_CTRL_EN = 0 → x.directoriesTogether = true → exec (.stlCommit w) s = .next (x.put Fld.STL_CTRL_EN 0))) ∧
    (∀ w, MayWrite s w Reg.SCH_CTX_CTRL →
      let v := s.store w Reg.SCH_CTX_CTRL
      exec (.schCtxCommit w) s = .next ((if s.get Fld.SCH_CTX_CTRL_COMMIT = 0 ∧ v.get Fld.SCH_CTX_CTRL_COMMIT = 1 then v.placeRanges Fld.SCH_CTX_CTRL_COMMIT
        [(v.get Fld.SCH_CTX_BASE_BASE, alignUp 4096 (256 * v.get Fld.SCH_CTX_SLOTS_SLOTS))] else v).enGate Fld.SCH_CTX_CTRL_EN)) ∧
    (∀ w, MayWrite s w Reg.NW_CTRL →
      let v := s.store w Reg.NW_CTRL
      let x := (if s.get Fld.NW_CTRL_COMMIT = 0 ∧ v.get Fld.NW_CTRL_COMMIT = 1 then
        v.placeRanges Fld.NW_CTRL_COMMIT [(v.get Fld.NW_MAP_BASE_BASE, 131072)] else v).enGate Fld.NW_CTRL_EN
      ∃ u : State, exec (.nwCommit w) s = .next u ∧ u.io = x.io ∧ u.t1 = x.t1 ∧
        u.net.helloStart = (if x.get Fld.NW_CTRL_EN = 1 then (if s.get Fld.NW_CTRL_EN = 1 then x.net.helloStart else some x.now) else none)) ∧
    (∀ w,
      (MayWrite s w Reg.SH_CTRL → exec (.shCommit w) s = .next (s.store w Reg.SH_CTRL)) ∧
      (MayWrite s w Reg.PW_CTRL → exec (.pwCommit w) s = .next (s.store w Reg.PW_CTRL)) ∧
      (MayWrite s w Reg.CP_CTRL → exec (.cpCommit w) s = .next (s.store w Reg.CP_CTRL)) ∧
      (MayWrite s w Reg.CK_CTRL →
        let v := s.store w Reg.CK_CTRL
        let x := if (writeBits w).toNat.testBit 1 = true then v.clearRates else v
        exec (.ckCommit w) s = .next (if (writeBits w).toNat.testBit 2 = true then x.returnAll else x)) ∧
      (MayWrite s w Reg.PF_CTRL →
        let v := (s.store w Reg.PF_CTRL).enGate Fld.PF_CTRL_EN
        ((s.get Fld.PF_CTRL_EN = 1 ∨ v.get Fld.PF_CTRL_EN = 0 ∨ v.get Fld.PW_STATUS_PARKING = 1) → exec (.pfCommit w) s = .next v) ∧
        (s.get Fld.PF_CTRL_EN = 0 → v.get Fld.PF_CTRL_EN = 1 → v.get Fld.PW_STATUS_PARKING = 0 →
          exec (.pfCommit w) s = .next ((v.pfObjects.filter (fun o => o.2.cls = 0)).foldl (fun u o => u.pfLoad o.1) v.pfTableRead))) ∧
      (MayWrite s w Reg.GC_PORT_CTRL → let v := s.store w Reg.GC_PORT_CTRL
        (s.get Fld.GC_PORT_CTRL_COMMIT = 1 ∨ v.get Fld.GC_PORT_CTRL_COMMIT = 0 ∨
          ∀ n < 4, v.get (Fld.GC_PORT_CFG_MGMT n) = 1 ∨ (v.get (qEn (4096 + n)) ≠ 1 ∧ v.get (ringEn n) ≠ 1)) → exec (.gcPortCommit w) s = .next v) ∧
      (MayWrite s w Reg.GC_PORT_CTRL → let v := s.store w Reg.GC_PORT_CTRL
        s.get Fld.GC_PORT_CTRL_COMMIT = 0 → v.get Fld.GC_PORT_CTRL_COMMIT = 1 → exec (.gcPortCommit w) s = .next { v with
          io := (List.range 4).foldl (fun io n => if io.get (Fld.GC_PORT_CFG_MGMT n) = 1 then io
            else
              let io := if io.get (qEn (4096 + n)) = 1 then io.stopQueue (4096 + n) else io
              if io.get (ringEn n) = 1 then io.stopRing n else io) v.io }) ∧
      (MayWrite s w Reg.SEC_CTRL →
        ((s.get Fld.SEC_CTRL_COMMIT = 1 ∨ s.wouldGet w Fld.SEC_CTRL_COMMIT = 0) → exec (.secCommit w) s = .next s) ∧
        (s.get Fld.SEC_CTRL_COMMIT = 0 → s.wouldGet w Fld.SEC_CTRL_COMMIT = 1 → exec (.secCommit w) s =
          .next (((s.setSec { s.sec with measured := (List.range 9).map (fun i => (i + 1, s.presentMeasurement (i + 1))) }).put Fld.SEC_CTRL_COMMIT 1).put
            Fld.SEC_STATE_COMMITTED 1)))) ∧
    (let z : State := { State.reset with
       io := { regs := s.io.regs.filter (fun e => [Reg.EV_FATAL, Reg.EV_FATAL_YT].contains e.1), out := s.io.out }, freeIdx := s.freeIdx, pending := s.pending }
     exec .devRstAssert s = .next z ∧ exec .devRstRelease s = .next ((z.put Fld.BU_STATE_STATE 1).put Fld.BU_STRAP_PORT Config.strapPort.val)) ∧
    (∀ r : RomResult,
      (s.get Fld.BU_STATE_STATE ≠ 1 → exec (.romDone r) s = .next s) ∧
      (s.get Fld.BU_STATE_STATE = 1 → r.crystal = false → exec (.romDone r) s = .next (s.failBringUp 0x0A 0)) ∧
      (s.get Fld.BU_STATE_STATE = 1 → r.crystal = true → r.fuses = false → exec (.romDone r) s = .next (s.failBringUp 0x0A 1)) ∧
      (s.get Fld.BU_STATE_STATE = 1 → r.crystal = true → r.fuses = true → exec (.romDone r) s = .next (s.romPassed r))) ∧
    (∀ w, MayWrite s w Reg.BU_LOAD_CMD → (writeBits w).toNat.testBit 8 = false →
      exec (.buLoadStart w) s = .next (s.storePut w Fld.BU_LOAD_CMD_START (s.get Fld.BU_LOAD_CMD_START))) ∧
    (∀ w, MayWrite s w Reg.BU_LOAD_CMD → (writeBits w).toNat.testBit 8 = true →
      let v := s.storePut w Fld.BU_LOAD_CMD_START (s.get Fld.BU_LOAD_CMD_START)
      let kind := v.get Fld.BU_LOAD_CMD_KIND
      let len := v.get Fld.BU_LOAD_LEN_BYTES
      (v.get Fld.BU_STATE_STATE ≠ 2 → exec (.buLoadStart w) s = .next v) ∧
      (∀ l, v.get Fld.BU_STATE_STATE = 2 → s.bu.loading = some l → exec (.buLoadStart w) s = .next (v.buErr 0x0B l.1)) ∧
      (v.get Fld.BU_STATE_STATE = 2 → s.bu.loading = none → 2 < kind → exec (.buLoadStart w) s = .next v) ∧
      (v.get Fld.BU_STATE_STATE = 2 → s.bu.loading = none → kind ≤ 2 →
        ((len < 64 ∨ 2 ^ 24 < len ∨ len % 64 ≠ 0) → exec (.buLoadStart w) s = .next (v.buErr 0x03 0)) ∧
        (64 ≤ len → len ≤ 2 ^ 24 → len % 64 = 0 → ∃ u : State, exec (.buLoadStart w) s = .next u ∧
          u.io = ((v.put Fld.BU_LOAD_CMD_START 1).put Fld.BU_LOAD_CMD_BUSY 1).io ∧
          u.bu.loading = some (kind, ((v.put Fld.BU_LOAD_CMD_START 1).put Fld.BU_LOAD_CMD_BUSY 1).get Fld.BU_LOAD_SRC_ADDR, len)))) ∧
    (∀ b,
      (s.bu.loading = none → exec (.buLoadDone b) s = .next s) ∧
      (∀ kind src len, s.bu.loading = some (kind, src, len) →
        let v := (s.setBu { s.bu with loading := none }).put Fld.BU_LOAD_CMD_BUSY 0
        (b = none → exec (.buLoadDone b) s = .next (v.buErr 0x04 kind)) ∧
        (∀ a code detail, b = some a → loadFault kind (tabulate len (fun i => a.getD i 0)) = some (code, detail) →
          exec (.buLoadDone b) s = .next (v.buErr code detail)) ∧
        (∀ a, b = some a → loadFault kind (tabulate len (fun i => a.getD i 0)) = none →
          let y := v.put Fld.BU_LOAD_CMD_LOADED (putBit (v.get Fld.BU_LOAD_CMD_LOADED) kind true)
          exec (.buLoadDone b) s = .next ((y.setBu { y.bu with images := sparsePut [] kind (tabulate len (fun i => a.getD i 0)) y.bu.images }).buErr 0 0)))) ∧
    (∀ w, MayWrite s w Reg.BU_CTRL →
      let v := if (writeBits w).toNat.testBit 0 = true then s.buGo else s
      (∀ c ∈ [Instr.buGo w, .buReadyReq w], exec c s = .next (if (writeBits w).toNat.testBit 1 = true then v.buReady else v)) ∧
      ((writeBits w).toNat.testBit 0 = true → (writeBits w).toNat.testBit 1 = false →
        (s.get Fld.BU_STATE_STATE ≠ 2 → s.get Fld.BU_STATE_STATE ≠ 5 → exec (.buGo w) s = .next s) ∧
        (∀ l, s.get Fld.BU_STATE_STATE = 2 → s.bu.loading = some l → exec (.buGo w) s = .next (s.buErr 0x0B l.1)) ∧
        (s.get Fld.BU_STATE_STATE = 5 → s.topologyAccepted = true → exec (.buGo w) s = .next (s.put Fld.BU_CTRL_GO 1).compareTopology) ∧
        (s.get Fld.BU_STATE_STATE = 2 → s.bu.loading = none → s.get Fld.BU_LOAD_CMD_LOADED ≠ 7 →
          exec (.buGo w) s = .next (s.buErr 0x05 (s.get Fld.BU_LOAD_CMD_LOADED))) ∧
        (s.get Fld.BU_STATE_STATE = 2 → s.bu.loading = none → s.get Fld.BU_LOAD_CMD_LOADED = 7 → ∃ u : State,
          exec (.buGo w) s = .next (((u.put Fld.BU_STATE_STATE 3).stepEnded 1).buErr 0 0) ∧ u.io = (s.put Fld.BU_CTRL_GO 1).io ∧
            u.bu.repairs = repairEntries (sparseGet [] s.bu.images 2)) ∧
        (s.get Fld.BU_STATE_STATE = 5 → s.topologyAccepted = false → exec (.buGo w) s = .next (s.buErr 0x06 0))) ∧
      ((writeBits w).toNat.testBit 0 = false → (writeBits w).toNat.testBit 1 = true →
        (s.get Fld.BU_STATE_STATE ≠ 6 → exec (.buReadyReq w) s = .next s) ∧
        (s.get Fld.BU_STATE_STATE = 6 → s.readyMissing ≠ 0 → exec (.buReadyReq w) s = .next (s.buErr 0x07 s.readyMissing)) ∧
        (s.get Fld.BU_STATE_STATE = 6 → s.readyMissing = 0 → exec (.buReadyReq w) s =
          .next (((((s.put Fld.BU_CTRL_READY_REQ 1).put Fld.BU_STATE_STATE 7).stepEnded 6).stepEnded 7).stepEnded 8 |>.buErr 0 0)))) ∧
    (∀ l engines,
      (s.get Fld.BU_STATE_STATE ≠ 3 → exec (.buTrainDone l) s = .next s) ∧
      (s.get Fld.BU_STATE_STATE = 3 → exec (.buTrainDone l) s =
        .next (((((List.range 16).foldl (fun v h => v.bindChannels h) (s.recordFound l)).stepEnded 2).stepEnded 3).put Fld.BU_STATE_STATE 4)) ∧
      (s.get Fld.BU_STATE_STATE ≠ 4 → exec (.buTestDone l engines) s = .next s) ∧
      (s.get Fld.BU_STATE_STATE = 4 →
        let v := ((s.recordFound l).bindUnits engines).stepEnded 4
        (v.belowMinimum ≠ 0 → exec (.buTestDone l engines) s = .next (v.failBringUp 0x08 v.belowMinimum)) ∧
        (v.belowMinimum = 0 → exec (.buTestDone l engines) s = .next ((v.buildSurvey.put Fld.BU_STATE_STATE 5).stepEnded 5).compareTopology))) ∧
    (∀ k, (s.inStep k = true → exec (.buStepTimeout k) s = .next (s.failBringUp 0x09 k)) ∧ (s.inStep k = false → exec (.buStepTimeout k) s = .next s))

/-- Clocks and power (R520 to R535, R547 to R559). -/
def Obligations.ClocksAndPower : Prop :=
  ∀ (s : State),
    (∀ x k,
      (s.monitorRuns = false → exec (.monitorWindowEnd x) s = .next s ∧ exec (.missingEdge k) s = .next s) ∧
      (s.monitorRuns = true → exec (.monitorWindowEnd x) s = .next (s.windowEnd x)) ∧
      (4 ≤ k → exec (.missingEdge k) s = .next s) ∧
      (s.monitorRuns = true → k < 4 → s.sourceFailed k = true → exec (.missingEdge k) s = .next s) ∧
      (s.monitorRuns = true → k < 4 → s.sourceFailed k = false →
        let v := s.put Fld.CK_MON_STATUS_FAILED (putBit (s.get Fld.CK_MON_STATUS_FAILED) k true)
        exec (.missingEdge k) s = .next (((v.setCk { v.ck with good := v.ck.good.filter (fun e => e.1 ≠ k) }).raise
          { code := 0x0101, subject := k, detail := [k] }).loseConsumers k))) ∧
    (∀ w, MayWrite s w Reg.CK_CTRL →
      let v := s.store w Reg.CK_CTRL
      let x := if (writeBits w).toNat.testBit 1 = true then v.clearRates else v
      (∀ c ∈ [Instr.ckReturn w, .ckRateClr w], exec c s = .next (if (writeBits w).toNat.testBit 2 = true then x.returnAll else x)) ∧
      ((writeBits w).toNat.testBit 1 = false → (writeBits w).toNat.testBit 2 = true → exec (.ckReturn w) s = .next v.returnAll) ∧
      ((writeBits w).toNat.testBit 1 = true → (writeBits w).toNat.testBit 2 = false → exec (.ckRateClr w) s = .next v.clearRates)) ∧
    (∀ w, MayWrite s w Reg.CK_FMEAS_CTRL →
      let v := s.store w Reg.CK_FMEAS_CTRL
      let x := if v.get Fld.CK_FMEAS_CTRL_GATE = 0 then v.put Fld.CK_FMEAS_CTRL_GATE 1 else v
      ((writeBits w).toNat.testBit 4 = true → s.get Fld.CK_FMEAS_CTRL_DONE = 1 → exec (.fmeasStart w) s = .next (x.put Fld.CK_FMEAS_CTRL_DONE 0)) ∧
      (((writeBits w).toNat.testBit 4 = false ∨ s.get Fld.CK_FMEAS_CTRL_DONE = 0) → exec (.fmeasStart w) s =
        .next (x.put Fld.CK_FMEAS_CTRL_START (s.get Fld.CK_FMEAS_CTRL_START)))) ∧
    (∀ n, (s.get Fld.CK_FMEAS_CTRL_DONE = 1 → exec (.fmeasDone n) s = .next s) ∧
      (s.get Fld.CK_FMEAS_CTRL_DONE = 0 → exec (.fmeasDone n) s = .next ((s.put Fld.CK_FMEAS_COUNT_COUNT n).put Fld.CK_FMEAS_CTRL_DONE 1))) ∧
    (∀ w l, (8 ≤ l → exec (.ckPaceWrite w l) s = .next s) ∧
      (l < 8 → MayWrite s w (Reg.CK_PACE l) →
        let ok := s.paceTableOk l (s.wouldGet w (Fld.CK_PACE_VID_MV l)) (s.wouldGet w (Fld.CK_PACE_CAP l))
        (ok = true → exec (.ckPaceWrite w l) s = .next (s.store w (Reg.CK_PACE l))) ∧ (ok = false → exec (.ckPaceWrite w l) s = .next s))) ∧
    (∀ w d, (17 ≤ d → exec (.paceTargetChange w d) s = .next s) ∧
      (d < 17 → MayWrite s w (Reg.CK_PACE_CTL d) →
        let v := s.store w (Reg.CK_PACE_CTL d)
        let t := v.paceTarget d
        let x := v.put (Fld.CK_PACE_STATE_TARGET d) t
        ((v.paceMove d ≠ none ∨ t = v.get (Fld.CK_PACE_STATE_CUR d) ∧ x.get (Fld.CK_PACE_STATE_VFAIL d) = 0) → exec (.paceTargetChange w d) s = .next x) ∧
        (v.paceMove d = none → t < v.get (Fld.CK_PACE_STATE_CUR d) → exec (.paceTargetChange w d) s = .next (x.writeVoltage d t true)) ∧
        (v.paceMove d = none → (v.get (Fld.CK_PACE_STATE_CUR d) < t ∨ t = v.get (Fld.CK_PACE_STATE_CUR d) ∧ x.get (Fld.CK_PACE_STATE_VFAIL d) = 1) → exec (.paceTargetChange w d) s = .next ((x.forceLevel d t).writeVoltage d t false)))) ∧
    (∀ d mv m,
      (s.paceMove d = none → exec (.pacePoll d mv) s = .next s ∧ exec (.paceSettleTimeout d) s = .next s ∧ ∀ ok, exec (.avsbusDone d ok) s = .next s) ∧
      (s.paceMove d = some m → m.written = false → exec (.avsbusDone d true) s = .next (s.setMove d (some { m with written := true })) ∧
        exec (.avsbusDone d false) s = .next (s.failPace d m) ∧ exec (.paceSettleTimeout d) s = .next s ∧ exec (.pacePoll d mv) s = .next s) ∧
      (s.paceMove d = some m → m.written = true → exec (.paceSettleTimeout d) s = .next (s.failPace d m) ∧
        (mv ≤ m.mv + s.get Fld.CK_PACE_SETTLE_TOL_MV → m.mv ≤ mv + s.get Fld.CK_PACE_SETTLE_TOL_MV → exec (.pacePoll d mv) s = .next (s.confirmPace d mv m)) ∧
        ((m.mv + s.get Fld.CK_PACE_SETTLE_TOL_MV < mv ∨ mv + s.get Fld.CK_PACE_SETTLE_TOL_MV < m.mv) → exec (.pacePoll d mv) s = .next s))) ∧
    (∀ g,
      (37 ≤ g → exec (.gateIdleSleep g) s = .next s ∧ exec (.gateIdleDeep g) s = .next s ∧ exec (.gateWake g) s = .next s ∧ exec (.gateScheduledWake g) s = .next s) ∧
      (g < 37 → s.get (Fld.CK_GATE_RUN_EN g) = 1 →
        (s.get (Fld.CK_GATE_SLEEP_EN g) = 1 → s.get (Fld.CK_GATE_STATE g) = 0 → exec (.gateIdleSleep g) s = .next (s.put (Fld.CK_GATE_STATE g) 1)) ∧
        (s.get (Fld.CK_GATE_DEEP_EN g) = 1 → s.get (Fld.CK_GATE_STATE g) ≤ 1 → exec (.gateIdleDeep g) s = .next (s.put (Fld.CK_GATE_STATE g) 2))) ∧
      (g < 37 → (s.get (Fld.CK_GATE_STATE g) = 1 ∨ s.get (Fld.CK_GATE_STATE g) = 2) →
        exec (.gateWake g) s = .next (s.put (Fld.CK_GATE_STATE g) 0) ∧ exec (.gateScheduledWake g) s = .next (s.put (Fld.CK_GATE_STATE g) 0)) ∧
      (s.get (Fld.CK_GATE_STATE g) ≠ 1 → s.get (Fld.CK_GATE_STATE g) ≠ 2 → exec (.gateWake g) s = .next s ∧ exec (.gateScheduledWake g) s = .next s)) ∧
    (((s.unitsRun = false ∨ s.get Fld.PW_STATUS_WARN = 1) → exec .pwarnAssert s = .next s) ∧
      (s.unitsRun = true → s.get Fld.PW_STATUS_WARN = 0 →
        let v := (((s.put Fld.PW_STATUS_WARN 1).put Fld.PW_STATUS_HOLD 0).put Fld.PW_WARN_YT_NS s.now).raise { code := 0x0201 }
        (v.get Fld.PW_STATUS_PARKING = 1 → exec .pwarnAssert s = .next v) ∧
        (v.get Fld.PW_STATUS_PARKING = 0 → exec .pwarnAssert s = .next v.beginParking)) ∧
      ((s.get Fld.PW_STATUS_PARKING = 0 ∨ s.get Fld.PW_STATUS_SAFE = 1) → exec .powerSafe s = .next s ∧ exec .parkLate s = .next s) ∧
      (s.get Fld.PW_STATUS_PARKING = 1 → s.get Fld.PW_STATUS_SAFE = 0 →
        (s.stalls = [] → s.get Fld.STL_DIRTY_NOW_NOW = 0 → exec .powerSafe s =
          .next (((s.put Fld.PW_STATUS_SAFE 1).put Fld.PW_SAFE_YT_NS s.now).raise { code := 0x0202 })) ∧
        (s.stalls.any (fun e => emitting e.2) = false →
          let v := s.toSeal.foldl (fun u i => u.sealStall i) s
          (v.get Fld.STL_DIRTY_NOW_NOW ≠ 0 → exec .powerSafe s = .next v) ∧
          (v.get Fld.STL_DIRTY_NOW_NOW = 0 → exec .powerSafe s =
            .next (((v.put Fld.PW_STATUS_SAFE 1).put Fld.PW_SAFE_YT_NS v.now).raise { code := 0x0202 }))) ∧
        (s.stalls.any (fun e => emitting e.2) = true → exec .powerSafe s = .next s) ∧
        (s.get Fld.PW_WARN_YT_NS + 9500000 ≤ s.now → exec .parkLate s = .next (s.raise { code := 0x0203 })) ∧
        (s.now < s.get Fld.PW_WARN_YT_NS + 9500000 → exec .parkLate s = .next s)) ∧
      ((s.unitsRun = false ∨ s.get Fld.PW_STATUS_WARN = 0) → exec .pwarnDeassert s = .next s) ∧
      (s.unitsRun = true → s.get Fld.PW_STATUS_WARN = 1 → ∃ u : State, exec .pwarnDeassert s = .next u ∧ u.io = ((s.put Fld.PW_STATUS_WARN 0).put Fld.PW_STATUS_HOLD 1).io ∧
        u.pw.roseAt = s.now) ∧
      ((s.get Fld.PW_STATUS_HOLD = 0 ∨ s.get Fld.PW_STATUS_SAFE = 0 ∨ s.now < s.pw.roseAt + s.get Fld.PW_RESUME_NS) → exec .pwResumeExpiry s = .next s) ∧
      (s.get Fld.PW_STATUS_HOLD = 1 → s.get Fld.PW_STATUS_SAFE = 1 → s.pw.roseAt + s.get Fld.PW_RESUME_NS ≤ s.now → exec .pwResumeExpiry s =
        .next ((((s.put Fld.PW_STATUS_HOLD 0).put Fld.PW_STATUS_PARKING 0).put Fld.PW_STATUS_SAFE 0).startSpares.raise { code := 0x0204 })) ∧
      exec .pwrgdFall s = .next s.deviceReset) ∧
    (∀ l,
      ((s.get Fld.BU_STATE_STATE < 2 ∨ s.get Fld.BU_STATE_STATE = 8) → exec (.telemetrySample l) s = .next s) ∧
      (2 ≤ s.get Fld.BU_STATE_STATE → s.get Fld.BU_STATE_STATE ≤ 7 →
        let v := (List.range 22).foldl (fun v r => v.readRail l r) s
        exec (.telemetrySample l) s = .next (((v.put Fld.PW_POWER_W v.sampledWatts).put Fld.PW_POWER_PEAK_W
          (max v.sampledWatts (v.get Fld.PW_POWER_PEAK_W))).capPower v.sampledWatts))) ∧
    (∀ l : List (Nat × Nat), s.unitsRun = true →
      exec (.droopSample l) s = .next (l.foldl (fun u e => if e.1 < 17 then u.droop e.1 e.2 else u) s)) ∧
    (∀ l : List (Nat × Int), s.get Fld.BU_STATE_STATE ≠ 0 →
      let k := l.filter (fun e => decide (e.1 < 17))
      let v := k.foldl (fun u e => u.thermal e.1 e.2) s
      exec (.thermalStep l) s = .next (if v.unitsRun = true then k.foldl (fun u e => u.recomputeLimit e.1) v else v)) ∧
    (s.get Fld.BU_STATE_STATE = 0 → ∀ l, exec (.thermalStep l) s = .next s) ∧
    (s.unitsRun = false → ∀ d l, exec (.droopSample l) s = .next s ∧ exec (.overvolt d) s = .next s ∧ exec (.brownout d) s = .next s) ∧
    (∀ d mv,
      (17 ≤ d → exec (.droopSample [(d, mv)]) s = .next s ∧ exec (.supplyLimitRelax d) s = .next s ∧ exec (.overvolt d) s = .next s ∧ exec (.brownout d) s = .next s) ∧
      (d < 17 →
        (s.get (Fld.CK_PACE_STATE_VID_AT d) ≤ mv + s.get Fld.PW_SAG_MV → exec (.droopSample [(d, mv)]) s = .next s) ∧
        (mv + s.get Fld.PW_SAG_MV < s.get (Fld.CK_PACE_STATE_VID_AT d) → s.unitsRun = true → (s.sagOf d).ms ≠ s.now / 1000000 → 1 ≤ s.get Fld.PW_SAG_COUNT → ∃ u : State,
          exec (.droopSample [(d, mv)]) s = .next u ∧ u.io = (s.bump (Fld.PW_DROOP_CNT_COUNT d) 1).io ∧ (u.sagOf d).low = 1 ∧ (u.sagOf d).ms = s.now / 1000000) ∧
        ((s.get (Fld.PW_LIMITS_SUPPLY d) = 0 ∨ s.now < (s.sagOf d).stood + 100000000) → exec (.supplyLimitRelax d) s = .next s) ∧
        (0 < s.get (Fld.PW_LIMITS_SUPPLY d) → (s.sagOf d).stood + 100000000 ≤ s.now → exec (.supplyLimitRelax d) s =
          .next ((s.setSag d { s.sagOf d with stood := s.now }).setSupply d (s.get (Fld.PW_LIMITS_SUPPLY d) - 1))) ∧
        (s.unitsRun = true → exec (.overvolt d) s = .next ((((s.setSag d { s.sagOf d with stood := s.now }).raise { code := 0x0206, subject := d }).cpTrigger
          Fld.CP_TRIG_OVERVOLT).setSupply d 7)) ∧
        (s.unitsRun = true → exec (.brownout d) s = .next (s.raise { code := 0x0209, subject := d })) ∧
        (∀ t : Int, (s.thermal d t).unitsRun = true → s.get Fld.BU_STATE_STATE ≠ 0 →
          exec (.thermalStep [(d, t)]) s = .next ((s.thermal d t).recomputeLimit d)) ∧
        (∀ t : Int, s.unitsRun = true → t < 10 * (s.get Fld.PW_TJ_WARN_C : Int) - 10 * (s.get Fld.PW_TJ_HYST_C : Int) → t < 1100 →
          s.thermal d t =
            (let v := s.put (Fld.PW_TEMP_DECI_C d) (signedBits 16 t)
             let x := if signedOf16 (v.get (Fld.PW_TEMP_MAX_DECI_C d)) < t then v.put (Fld.PW_TEMP_MAX_DECI_C d) (signedBits 16 t) else v
             x.put (Fld.PW_LIMITS_THERM d) (x.get (Fld.PW_LIMITS_THERM d) - 1)))))

/-- Repair (R564 to R575). -/
def Obligations.RepairCommands : Prop :=
  ∀ (s : State),
    (∀ u p h,
      (s.inService = false → exec (.handshakeTimeout u) s = .next s ∧ exec (.groomPairDisagree p) s = .next s ∧ exec (.aisleLinkFail h) s = .next s) ∧
      (handshakes u = false → exec (.handshakeTimeout u) s = .next s) ∧
      (s.inService = true →
        (handshakes u = true → exec (.handshakeTimeout u) s = .next (s.judge u 3)) ∧ exec (.groomPairDisagree p) s = .next (s.judge (.groom p) 5) ∧
        ((16 ≤ h ∨ s.hiveAbsent h = true) → exec (.aisleLinkFail h) s = .next s) ∧
        (h < 16 → s.hiveAbsent h = false → exec (.aisleLinkFail h) s = .next (s.drawFree.2.judge (.aisle h) (s.drawFree.1.toNat % 256))))) ∧
    (let at_ := s.now / s.get Fld.RP_WINDOW_NS * s.get Fld.RP_WINDOW_NS
     (at_ ≤ s.units.corrAt → exec .repairWindowRestart s = .next s) ∧
     (s.units.corrAt < at_ → ∃ u : State, exec .repairWindowRestart s = .next u ∧ u.units.corrAt = at_ ∧ u.units.tallyCorr = [] ∧
        (∀ e ∈ u.io.regs, e.1 < Reg.RP_CELL_CORR 0 ∨ Reg.RP_CELL_CORR 8191 < e.1) ∧ u.t1 = s.t1 ∧ u.stalls = s.stalls)) ∧
    (∀ bad,
      let period := max 1 (s.get Fld.RP_TEST_PERIOD_NS)
      let at_ := s.now / period * period
      ((s.inService = false ∨ s.get Fld.RP_CTRL_TEST_EN = 0 ∨ at_ ≤ s.units.testAt) → exec (.selfTestPeriod bad) s = .next s) ∧
      (s.inService = true → s.get Fld.RP_CTRL_TEST_EN = 1 → s.units.testAt < at_ →
        exec (.selfTestPeriod bad) s = .next (((bad.filter (fun u => (s.freeSpares 15).contains u)).foldl (fun v u => v.judge u 4) s).updUnits
          (fun u => { u with testAt := at_ })))) ∧
    (∀ c : Cmd, Accepted s c .mgmt false →
      (retiredUnit c = none → exec (.rpRetire c) s = .next (s.complete c CS.badCommand)) ∧
      (∀ u, retiredUnit c = some u → opZero c 38 63 = false → exec (.rpRetire c) s = .next (s.complete c CS.badCommand)) ∧
      (∀ u, retiredUnit c = some u → opZero c 38 63 = true →
        (s.workingSet = true → (s.judge u 7).workingSet = false → exec (.rpRetire c) s = .next (s.complete c CS.noResource)) ∧
        ((s.workingSet = false ∨ (s.judge u 7).workingSet = true) →
          (∀ n, s.served u = some n → exec (.rpRetire c) s = .next ((s.judge u 7).complete c CS.ok ((s.judge u 7).boundUnit u n))) ∧
          (s.served u = none → exec (.rpRetire c) s = .next ((s.judge u 7).drawFree.2.complete c CS.ok (s.judge u 7).drawFree.1.toNat)))) ∧
      (let left := s.freeSpares (opByte c 32) ++ (if (opByte c 32).testBit 4 then s.idleCells else [])
       ((32 ≤ opByte c 32 ∨ opZero c 33 63 = false) → exec (.selfTest c) s = .next (s.refuse c CS.badCommand)) ∧
       (∀ k, opByte c 32 < 32 → opZero c 33 63 = true → k < 4096 → (s.op k).live = false → (∀ j < k, (s.op j).live = true) →
         ∃ w : State, (w.op k).live = true ∧ (w.op k).opcode = 0xC1 ∧ (w.op k).st = .running ∧ w.io = s.io ∧ w.tests = s.tests ∧
           (left = [] → exec (.selfTest c) s = .next ((w.complete c CS.ok (w.opHandle k)).endOp k .done CS.ok)) ∧
           (left ≠ [] → exec (.selfTest c) s = .next { w.complete c CS.ok (w.opHandle k) with tests := s.tests ++ [⟨k, left, 0, 0⟩] })))) ∧
    (∀ slot u bad,
      (s.tests.find? (fun t => t.op = slot) = none → exec (.selfTestUnitDone slot u bad) s = .next s) ∧
      (∀ t, s.tests.find? (fun t => t.op = slot) = some t →
        (((s.op slot).st ≠ .running ∨ u ∉ t.left) → exec (.selfTestUnitDone slot u bad) s = .next s) ∧
        ((s.op slot).st = .running → u ∈ t.left →
          let v : State := { s with tests := s.tests.filter (fun x => x.op ≠ slot) ++
            [{ t with left := t.left.erase u, tested := t.tested + 1, failed := t.failed + (if bad = true then 1 else 0) }] }
          let x := if bad = true then v.judge u 4 else v
          (t.left.erase u ≠ [] → exec (.selfTestUnitDone slot u bad) s = .next x) ∧
          (t.left.erase u = [] → exec (.selfTestUnitDone slot u bad) s = .next (x.endTest slot .done CS.ok))))) ∧
    (∀ w, MayWrite s w Reg.RP_LOG_ACK → exec (.rpLogAckWrite w) s = .next ((s.store w Reg.RP_LOG_ACK).put Fld.RP_LOG_ACK_COUNT
      (min (s.wouldGet w Fld.RP_LOG_ACK_COUNT) (s.get Fld.RP_LOG_COUNT_WRITTEN))))

/-- Checkpoints, restores and mirrors (R578 to R595). -/
def Obligations.CheckpointCommands : Prop :=
  ∀ (s : State),
    (∀ (c : Cmd) (k : Nat), Accepted s c .mgmt false →
      (opZero c 40 63 = false → exec (.cpTake c) s = .next (s.refuse c CS.badCommand)) ∧
      (opZero c 40 63 = true → (s.cp.op ≠ none ∨ s.get Fld.PW_STATUS_PARKING = 1 ∨ s.get Fld.CP_CTRL_EN = 0) →
        exec (.cpTake c) s = .next (s.refuse c CS.notReady)) ∧
      (opZero c 40 63 = true → s.cp.op = none → s.get Fld.PW_STATUS_PARKING = 0 → s.get Fld.CP_CTRL_EN = 1 → k < 4096 → (s.op k).live = false →
        (∀ j < k, (s.op j).live = true) →
        ∃ w : State, exec (.cpTake c) s = .next ((w.complete c CS.ok (w.opHandle k)).beginCheckpoint k s.cpTarget
            (if opU64 c 32 = 0 then s.cpNextStep else opU64 c 32)) ∧
          (w.op k).live = true ∧ (w.op k).opcode = 0x90 ∧ (w.op k).st = .running ∧ w.io = s.io ∧ w.cp = s.cp) ∧
      ((3 ≤ opByte c 32 ∨ 2 ≤ opByte c 33 ∨ opZero c 34 39 = false ∨ opZero c 48 63 = false) →
        exec (.cpRestore c) s = .next (s.refuse c CS.badCommand)) ∧
      (opByte c 32 < 3 → opByte c 33 < 2 → opZero c 34 39 = true → opZero c 48 63 = true → k < 4096 → (s.op k).live = false →
        (∀ j < k, (s.op j).live = true) →
        ∃ w : State, exec (.cpRestore c) s = .next ((w.complete c CS.ok (w.opHandle k)).startRestore k (opByte c 32) (opU64 c 40) (decide (opByte c 33 = 1))) ∧
          (w.op k).live = true ∧ (w.op k).opcode = 0x91 ∧ (w.op k).st = .running ∧ w.io = s.io ∧ w.stalls = s.stalls)) ∧
    (∀ op which expect skip,
      (s.notFresh = true → s.startRestore op which expect skip = (s.raise { code := 0x0E02, subject := 0, detail := [0, CS.notReady] }).endOp op .failed CS.notReady 0 0 0) ∧
      (∀ k i, s.notFresh = false → s.restoreSlot which = some k → s.cpValid k = true → s.cpSlots.find? (fun e => e.1 = k) = some (k, i) →
        s.imageFails k expect skip i = none → ∃ u : State, s.startRestore op which expect skip = (u.put Fld.CP_OP_HANDLE (u.opHandle op)).put Fld.CP_STATUS_PHASE 5 ∧
          u.io = s.io ∧ u.cp.op = some op ∧ u.cp.slot = k ∧ u.cp.step = i.step)) ∧
    (let period := s.get Fld.CP_PERIOD_NS
     let at_ := s.now / period * period
     ((s.get Fld.CP_TRIG_PERIODIC = 0 ∨ period = 0 ∨ at_ ≤ s.cp.periodAt) → exec .cpPeriodicTrigger s = .next s) ∧
     (s.get Fld.CP_TRIG_PERIODIC = 1 → 0 < period → s.cp.periodAt < at_ → exec .cpPeriodicTrigger s =
        .next ({ s with cp := { s.cp with periodAt := at_ } }).triggerCheckpoint)) ∧
    ((s.get Fld.CP_STATUS_PHASE ≠ 1 ∨ s.frozen = false) → exec .cpFreezeDone s = .next s) ∧
    (s.get Fld.CP_STATUS_PHASE = 1 → s.frozen = true → ∃ u : State, exec .cpFreezeDone s = .next ((u.put Fld.CP_STATUS_FROZEN 1).put Fld.CP_STATUS_PHASE 2) ∧
      u.cp.switched = (s.contexts.filter (fun e => decide (e.2.state = .running) && !e.2.hub)).map (·.1)) ∧
    ((s.get Fld.CP_STATUS_PHASE ≠ 2 ∨ s.get Fld.STL_DIRTY_NOW_NOW ≠ 0) → exec .cpDrainDone s = .next s) ∧
    (s.get Fld.CP_STATUS_PHASE = 2 → s.get Fld.STL_DIRTY_NOW_NOW = 0 → ∃ u : State, exec .cpDrainDone s =
      .next ((u.clearSlot u.cp.slot).put Fld.CP_STATUS_PHASE 3) ∧ u.io = s.io ∧ u.shed = s.closeBands.shed ∧ u.cp.slot = s.cp.slot) ∧
    (s.cp.op = none → exec .cpWriteDone s = .next s ∧ ∀ bad, exec (.cpRestoreReadsDone bad) s = .next s) ∧
    (∀ op, s.cp.op = some op →
      (s.get Fld.CP_STATUS_PHASE ≠ 3 → exec .cpWriteDone s = .next s) ∧
      (s.get Fld.CP_STATUS_PHASE = 3 → s.slotRoom < s.cpBytes → exec .cpWriteDone s = .next (s.dropCheckpoint .failed CS.noResource)) ∧
      (s.get Fld.CP_STATUS_PHASE = 3 → s.cpBytes ≤ s.slotRoom → ∃ u : State,
        exec .cpWriteDone s = .next ((u.endFreeze.raise { code := 0x0E01, subject := s.cp.slot, detail := [s.cp.step] }).endOp op .done CS.ok s.cp.step s.cp.slot) ∧
        u.io = (((s.put (Fld.CP_SLOT_STATE_VALID s.cp.slot) 1).put (Fld.CP_SLOT_STATE_SEQ s.cp.slot) s.cp.seq).put (Fld.CP_SLOT_STEP_STEP s.cp.slot) s.cp.step).io ∧
        u.cpSlots = sparseInsert s.cp.slot s.cpImage s.cpSlots ∧ u.cp.op = none ∧ u.cp.lastDone = some s.now) ∧
      (∀ bad, s.get Fld.CP_STATUS_PHASE ≠ 5 → exec (.cpRestoreReadsDone bad) s = .next s) ∧
      (∀ e, s.cpSlots.find? (fun e => e.1 = s.cp.slot) = some e → s.get Fld.CP_STATUS_PHASE = 5 →
        let v := ({ s with cp := { s.cp with op := none } }).put Fld.CP_STATUS_PHASE 0
        exec (.cpRestoreReadsDone none) s = .next
          (((v.restoreImage s.cp.skipAbsent e.2).autoMerges.raise { code := 0x0E04, subject := e.1, detail := [e.2.step] }).endOp op .done CS.ok e.2.step (e.2.shards.length - (v.readShards s.cp.skipAbsent e.2).length)) ∧
        (∀ n uncorrectable, exec (.cpRestoreReadsDone (some (n, uncorrectable))) s = .next ((((v.readShards s.cp.skipAbsent e.2).flatMap (·.runs)).take n).foldl
          (fun x r => x.quarantine (r.addr / 4096) r.len) v |>.failRestore op e.1 e.2.step
            (if uncorrectable = true then CS.uncorrectable else CS.integrity) 0 0)))) ∧
    (∀ (c : Cmd) (i : Nat), Accepted s c .tenant false →
      let t := (s.issuerTenant c.issuer).getD 0
      let a := c.addrA.toNat
      let b := c.addrB.toNat
      let n := opU32 c 36
      (s.checkHandle t c.handle.toNat false = .ok i →
        (((s.stall i).hdr.kind ≠ 2 ∨ n = 0 ∨ 262144 < n ∨ s.mirrorRange t a n = false ∨ s.mirrorRange t b n = false ∨
          hiveOf (s.servedAt a) = hiveOf (s.servedAt b)) → exec (.cpMirror c) s = .next (s.complete c CS.badCommand)) ∧
        ((s.stall i).hdr.kind = 2 → opZero c 32 35 = true → opZero c 40 63 = true → 1 ≤ n → n ≤ 262144 → s.mirrorRange t a n = true →
          s.mirrorRange t b n = true → hiveOf (s.servedAt a) ≠ hiveOf (s.servedAt b) →
          (∀ m ∈ s.mirrors, ∀ x ∈ [a, b], ∀ y ∈ [m.primary, m.mirror], x + 4096 * n ≤ y ∨ y + m.len ≤ x) →
          (4096 ≤ s.mirrors.length → exec (.cpMirror c) s = .next (s.complete c CS.noResource)) ∧
          (∀ num, s.mirrors.length < 4096 → num < 4096 → (∀ m ∈ s.mirrors, m.num ≠ num) → (∀ j < num, ∃ m ∈ s.mirrors, m.num = j) →
            exec (.cpMirror c) s = .next (s.setMirrors (s.mirrors ++ [⟨num, i, t, a, b, 4096 * n, false, some (coreOf c)⟩])))) ∧
        ((∃ m ∈ s.mirrors, ∃ x ∈ [a, b], ∃ y ∈ [m.primary, m.mirror], y < x + 4096 * n ∧ x < y + m.len) →
          exec (.cpMirror c) s = .next (s.complete c CS.badCommand))) ∧
      ((∀ m ∈ s.mirrors, m.num ≠ opU32 c 32 ∨ m.tenant ≠ t) → exec (.cpUnmirror c) s = .next (s.complete c CS.badCommand)) ∧
      (opZero c 36 63 = false → exec (.cpUnmirror c) s = .next (s.complete c CS.badCommand)) ∧
      (opZero c 36 63 = true → (∃ m ∈ s.mirrors, m.num = opU32 c 32 ∧ m.tenant = t) →
        exec (.cpUnmirror c) s = .next ((s.dissolve (fun m => m.num = opU32 c 32)).complete c CS.ok))) ∧
    (∀ num,
      (s.mirrors.find? (fun m => decide (m.num = num) && !m.ready) = none → exec (.cpMirrorCopyDone num) s = .next s) ∧
      (∀ m c, s.mirrors.find? (fun m => decide (m.num = num) && !m.ready) = some m → m.cmd = some c → ∃ u : State,
        exec (.cpMirrorCopyDone num) s = .next (u.complete c CS.ok num) ∧
        u.mirrors = (s.copyMirror m).mirrors.map (fun x : Mirror => if x.num = num then { x with ready := true, cmd := none } else x) ∧
        u.t1 = (s.copyMirror m).t1))

/-- The state after power-up (R8 and the register tables). The counter of the free values at 0 is the model's choice (log entry 2), as is the emptiness of state that is no register (log entry 3). -/
def Obligations.AfterPowerUp : Prop :=
  let s := State.reset
  (s.get Fld.STL_DIRTY_LIMIT_LIMIT = 0xC0000000 ∧ s.get Fld.STL_WAIT_DEFAULT_NS = 30000000000 ∧ s.get Fld.STL_CTRL_EN = 0 ∧ s.get Fld.STL_CTRL_COMMIT = 0) ∧
  (s.get Fld.HB_SPARE_THRESH_CORR = 4096 ∧ s.get Fld.HB_SPARE_THRESH_UNCORR = 16 ∧ s.get Fld.HB_SPARE_THRESH_POISON = 64 ∧ s.get Fld.SH_RD_LIMIT_READS = 100000 ∧
    (∀ h < 16, ∀ c < 17, s.get (Fld.HB_CH_LOGICAL h c) = 31 ∧ s.get (Fld.HB_CH_STATE h c) = 0)) ∧
  (s.get Fld.TX_INPUT_BYTES_BYTES = 16777216 ∧ s.get Fld.VS_MERGE_AT_PERCENT = 75 ∧ s.get Fld.YT_LOCK_LIMIT_NS = 11 ∧ s.get Fld.YT_WAGGLE_LEAD_NS = 200000 ∧
    s.get Fld.YT_CTRL_RUN = 0) ∧
  (s.get Fld.SCH_STARVE_COMPOSITIONS = 8 ∧ s.get Fld.TN_PERIOD_NS = 1000000000 ∧ (∀ t < 256, s.get (Fld.SCH_CAP_CAP t) = 65535 ∧
    s.get (Fld.TN_QUOTA_STALLS t) = 4194304 ∧ s.get (Fld.TN_QUOTA_CONTEXTS t) = 4096 ∧ s.get (Fld.TN_CTRL_EN t) = 0)) ∧
  (s.get Fld.NW_CREDITS_CREDITS = 64 ∧ s.get Fld.NW_RETX_NS = 200000 ∧ s.get Fld.TS_REFILL_NS = 1000 ∧
    (∀ l < 32, s.get (Fld.NW_LANE_PORT l) = l / 4 ∧ s.get (Fld.NW_LANE_LANE l) = l % 4 ∧ s.get (Fld.NW_LANE_STATE l) = 0) ∧
    (∀ l < 4, s.get (Fld.NW_LANE_PORT (32 + l)) = 15 ∧ s.get (Fld.NW_LANE_STATE (32 + l)) = 1) ∧
    (∀ p < 8, ∀ k < 8, s.get (Fld.TS_WEIGHT_W p 0 k) = 1 ∧ s.get (Fld.TS_WEIGHT_W p 255 k) = 1)) ∧
  ((∀ p < 8, s.get (Fld.SEC_MACSEC_KS_PRIORITY p) = 0x80 ∧ s.get (Fld.SEC_MACSEC_EN p) = 0) ∧ s.get Fld.SEC_CTRL_COMMIT = 0) ∧
  (s.get Fld.CK_MON_CFG_TOL_PPM = 1000 ∧ s.get Fld.CK_MON_CFG_WINDOW = 250000 ∧ s.get Fld.CK_MON_CFG_GOOD_WINDOWS = 10 ∧
    (List.range 8).map (fun l => (s.get (Fld.CK_PACE_VID_MV l), s.get (Fld.CK_PACE_CAP l))) =
      [(800, 2100), (750, 1950), (720, 1800), (690, 1650), (660, 1500), (630, 1300), (600, 1100), (550, 800)] ∧
    (∀ d < 17, s.get (Fld.CK_PACE_CTL_REQ d) = 4 ∧ s.get (Fld.CK_PACE_CTL_LIMIT d) = 0) ∧
    (∀ g < 37, s.get (Fld.CK_GATE_RUN_EN g) = 1 ∧ s.get (Fld.CK_GATE_SLEEP_EN g) = 0 ∧ s.get (Fld.CK_GATE_STATE g) = 0)) ∧
  (s.get Fld.PW_RESUME_NS = 100000000 ∧ s.get Fld.PW_TJ_WARN_C = 95 ∧ s.get Fld.PW_TJ_HYST_C = 5 ∧ s.get Fld.RP_THRESH_CELL_CORR = 64 ∧
    s.get Fld.RP_THRESH_TALLY_CORR = 16 ∧ s.get Fld.CP_MIN_GAP_NS = 600000000000 ∧ s.get Fld.BU_STATE_STATE = 0) ∧
  (s.stalls = [] ∧ s.contexts = [] ∧ s.ops = [] ∧ s.tests = [] ∧ s.mirrors = [] ∧ s.redirects = [] ∧ s.cpSlots = [] ∧ s.rounds = [] ∧ s.tallies = [] ∧
    s.t1.runs = [] ∧ s.t1.bytes = [] ∧ s.t1.poison = [] ∧ s.net.flows = [] ∧ s.net.queues = [] ∧ s.net.inbox = [] ∧ s.sec.sessions = [] ∧
    s.sec.keys = [] ∧ s.yt.count = 0 ∧ s.io.out = [] ∧ s.freeIdx = 0)
end

