-- ==== Sys2Proof/Laws/Sparse.lean ====
section
/-! SUPPORT. Sparse tables: what a put leaves at each key, and that the operations on them keep the canonical form. -/

namespace Sys2Proof.Laws

open Sys2Proof.Machine

variable {α : Type}

theorem sparseGet_insert_same (d : α) (k : Nat) (x : α) (l : List (Nat × α)) : sparseGet d (sparseInsert k x l) k = x := by
  induction l with
  | nil => simp [sparseInsert, sparseGet]
  | cons e t ih =>
    obtain ⟨j, v⟩ := e
    simp only [sparseInsert]
    split
    · simp [sparseGet]
    · split
      · simp [sparseGet]
      · simp only [sparseGet]; rw [if_neg (by omega)]; exact ih

theorem sparseGet_insert_other (d : α) (k j : Nat) (x : α) (l : List (Nat × α)) (h : j ≠ k) :
    sparseGet d (sparseInsert k x l) j = sparseGet d l j := by
  induction l with
  | nil => simp [sparseInsert, sparseGet, h.symm]
  | cons e t ih =>
    obtain ⟨i, v⟩ := e
    simp only [sparseInsert]
    split
    · rw [sparseGet, if_neg h.symm]
    · split
      · subst i; rw [sparseGet, if_neg h.symm, sparseGet, if_neg h.symm]
      · simp only [sparseGet, ih]

theorem sparseGet_erase_same (d : α) (k : Nat) (l : List (Nat × α)) : sparseGet d (sparseErase k l) k = d := by
  induction l with
  | nil => rfl
  | cons e t ih =>
    obtain ⟨j, v⟩ := e
    by_cases h : j = k
    · simpa [sparseErase, List.filter_cons, h] using ih
    · simp only [sparseErase, List.filter_cons, h, ne_eq, not_false_eq_true, decide_true, if_true, sparseGet]; exact ih

theorem sparseGet_erase_other (d : α) (k j : Nat) (l : List (Nat × α)) (h : j ≠ k) : sparseGet d (sparseErase k l) j = sparseGet d l j := by
  induction l with
  | nil => rfl
  | cons e t ih =>
    obtain ⟨i, v⟩ := e
    by_cases hi : i = k
    · subst i
      simp only [sparseErase, List.filter_cons, ne_eq, not_true_eq_false, decide_false, Bool.false_eq_true, if_false, sparseGet, if_neg h.symm]
      exact ih
    · simp only [sparseErase, List.filter_cons, hi, ne_eq, not_false_eq_true, decide_true, if_true, sparseGet]
      split
      · rfl
      · exact ih

/-- A key put reads as what was put. -/
@[simp] theorem sparseGet_put_same [DecidableEq α] (d : α) (k : Nat) (x : α) (l : List (Nat × α)) : sparseGet d (sparsePut d k x l) k = x := by
  unfold sparsePut
  split
  · rename_i h; rw [sparseGet_erase_same, h]
  · exact sparseGet_insert_same d k x l

/-- Every other key reads as before. -/
theorem sparseGet_put_other [DecidableEq α] (d d' : α) (k j : Nat) (x : α) (l : List (Nat × α)) (h : j ≠ k) :
    sparseGet d (sparsePut d' k x l) j = sparseGet d l j := by
  unfold sparsePut
  split
  · exact sparseGet_erase_other d k j l h
  · exact sparseGet_insert_other d k j x l h

theorem all_insert (j k : Nat) (x : α) (l : List (Nat × α)) (h : l.all (fun p => decide (j < p.1)) = true) (hj : j < k) :
    (sparseInsert k x l).all (fun p => decide (j < p.1)) = true := by
  induction l with
  | nil => simp [sparseInsert, hj]
  | cons e t ih =>
    obtain ⟨i, v⟩ := e
    simp only [List.all_cons, Bool.and_eq_true, decide_eq_true_eq] at h
    simp only [sparseInsert]
    split
    · simp only [List.all_cons, Bool.and_eq_true, decide_eq_true_eq]; exact ⟨hj, h.1, h.2⟩
    · split
      · simp only [List.all_cons, Bool.and_eq_true, decide_eq_true_eq]; exact ⟨hj, h.2⟩
      · simp only [List.all_cons, Bool.and_eq_true, decide_eq_true_eq]; exact ⟨h.1, ih h.2⟩

/-- Dropping pairs keeps the canonical form. -/
theorem sparseWf_filter [DecidableEq α] (d : Nat → α) (p : Nat × α → Bool) (l : List (Nat × α)) (h : sparseWf d l = true) :
    sparseWf d (l.filter p) = true := by
  induction l with
  | nil => rfl
  | cons e t ih =>
    obtain ⟨j, v⟩ := e
    simp only [sparseWf, Bool.and_eq_true] at h
    have ht := ih h.2
    rw [List.filter_cons]
    split
    · simp only [sparseWf, Bool.and_eq_true]
      refine ⟨⟨h.1.1, ?_⟩, ht⟩
      rw [List.all_eq_true] at h ⊢
      intro q hq
      exact h.1.2 q (List.mem_filter.mp hq).1
    · exact ht

/-- An insertion of a value other than its default keeps the canonical form. -/
theorem sparseWf_insert [DecidableEq α] (d : Nat → α) (k : Nat) (x : α) (l : List (Nat × α)) (hx : x ≠ d k) (h : sparseWf d l = true) :
    sparseWf d (sparseInsert k x l) = true := by
  induction l with
  | nil => simp [sparseInsert, sparseWf, hx]
  | cons e t ih =>
    obtain ⟨j, v⟩ := e
    have h0 := h
    simp only [sparseWf, Bool.and_eq_true, decide_eq_true_eq] at h
    simp only [sparseInsert]
    split
    · rename_i hk
      simp only [sparseWf, Bool.and_eq_true, decide_eq_true_eq, List.all_cons]
      refine ⟨⟨hx, hk, ?_⟩, h⟩
      rw [List.all_eq_true] at h ⊢
      intro q hq
      have := h.1.2 q hq
      simp only [decide_eq_true_eq] at this ⊢
      omega
    · split
      · rename_i _ hk
        subst hk
        simp only [sparseWf, Bool.and_eq_true, decide_eq_true_eq]
        exact ⟨⟨hx, h.1.2⟩, h.2⟩
      · simp only [sparseWf, Bool.and_eq_true, decide_eq_true_eq]
        exact ⟨⟨h.1.1, all_insert j k x t h.1.2 (by omega)⟩, ih h.2⟩

/-- A put keeps the canonical form. -/
theorem sparseWf_put [DecidableEq α] (d : Nat → α) (k : Nat) (x : α) (l : List (Nat × α)) (h : sparseWf d l = true) :
    sparseWf d (sparsePut (d k) k x l) = true := by
  unfold sparsePut
  split
  · exact sparseWf_filter d _ l h
  · rename_i hx; exact sparseWf_insert d k x l hx h

/-- Bytes put into Tier 1 keep its canonical form. -/
theorem putBytes_wf (addr : Nat) (bytes : List Byte) (m : List Host.Cell) (h : Memory.wf m = true) : Memory.wf (putBytes addr bytes m) = true := by
  induction bytes generalizing addr m with
  | nil => exact h
  | cons b bs ih => exact ih _ _ (sparseWf_put (fun _ => 0) addr b m h)

/-- Dropping cells keeps it. -/
theorem memory_wf_filter (p : Host.Cell → Bool) (m : List Host.Cell) (h : Memory.wf m = true) : Memory.wf (m.filter p) = true :=
  sparseWf_filter _ p m h

end Sys2Proof.Laws
end

