-- ==== Sys2Proof/Laws/Kept.lean ====
section
/-! SUPPORT. The relation that the frame lemma of every operation states: `Kept l s t` says that `t` differs from `s` in the fields of `l` only,
that the queue of commands is the same, and that the canonical forms are kept. -/

namespace Sys2Proof.Laws

open Sys2Proof.Machine Sys2Proof.Safety

/-- The canonical form of a register file kept. -/
structure IoKept (a b : Io) : Prop where
  keep : sparseWf regReset a.regs = true → sparseWf regReset b.regs = true

/-- The canonical form of Tier 1 kept. -/
structure T1Kept (a b : Tier1) : Prop where
  keep : Memory.wf a.bytes = true → Memory.wf b.bytes = true

/-- What an operation that writes the fields of `l` keeps. -/
def Kept (l : List StateField) (s t : State) : Prop := Only l s t ∧ IoKept s.io t.io ∧ T1Kept s.t1 t.t1

theorem IoKept.refl (a : Io) : IoKept a a := ⟨fun h => h⟩
theorem IoKept.trans {a b c : Io} (h : IoKept a b) (k : IoKept b c) : IoKept a c := ⟨fun x => k.keep (h.keep x)⟩
theorem IoKept.upd {a x : Io} {q r d t o f} (h : IoKept a x) : IoKept a ⟨x.regs, q, r, d, t, o, f⟩ := ⟨h.keep⟩
theorem IoKept.filter {a x : Io} {q r d t o f} {p : Nat × Word → Bool} (h : IoKept a x) : IoKept a ⟨x.regs.filter p, q, r, d, t, o, f⟩ :=
  ⟨fun w => sparseWf_filter _ p _ (h.keep w)⟩
theorem IoKept.ite {a x y : Io} {c : Prop} [Decidable c] (h : IoKept a x) (k : IoKept a y) : IoKept a (if c then x else y) := by
  split <;> assumption
theorem IoKept.put {a x : Io} {off : Nat} {v : Word} {q r d t o f} (h : IoKept a x) : IoKept a ⟨sparsePut (regReset off) off v x.regs, q, r, d, t, o, f⟩ :=
  ⟨fun w => sparseWf_put regReset off v _ (h.keep w)⟩
theorem IoKept.foldl {β : Type} {f : Io → β → Io} {l : List β} {a x : Io} (h : IoKept a x) (k : ∀ io b, IoKept io (f io b)) :
    IoKept a (l.foldl f x) := by
  induction l generalizing x with
  | nil => exact h
  | cons b t ih => exact ih (h.trans (k x b))

theorem T1Kept.refl (a : Tier1) : T1Kept a a := ⟨fun h => h⟩
theorem T1Kept.trans {a b c : Tier1} (h : T1Kept a b) (k : T1Kept b c) : T1Kept a c := ⟨fun x => k.keep (h.keep x)⟩
theorem T1Kept.upd {a x : Tier1} {d e p r t m u v w0} (h : T1Kept a x) : T1Kept a ⟨x.bytes, d, e, p, r, t, m, u, v, w0⟩ := ⟨h.keep⟩
theorem T1Kept.filter {a x : Tier1} {d e p r t m u v w0} {q : Host.Cell → Bool} (h : T1Kept a x) : T1Kept a ⟨x.bytes.filter q, d, e, p, r, t, m, u, v, w0⟩ :=
  ⟨fun w => memory_wf_filter q _ (h.keep w)⟩
theorem T1Kept.put {a x : Tier1} {d e p r t m u v w0} {addr : Nat} {b : List Byte} (h : T1Kept a x) :
    T1Kept a ⟨putBytes addr b x.bytes, d, e, p, r, t, m, u, v, w0⟩ := ⟨fun w => putBytes_wf addr b _ (h.keep w)⟩
theorem T1Kept.ite {a x y : Tier1} {c : Prop} [Decidable c] (h : T1Kept a x) (k : T1Kept a y) : T1Kept a (if c then x else y) := by
  split <;> assumption
theorem T1Kept.foldl {β : Type} {f : Tier1 → β → Tier1} {l : List β} {a x : Tier1} (h : T1Kept a x) (k : ∀ io b, T1Kept io (f io b)) :
    T1Kept a (l.foldl f x) := by
  induction l generalizing x with
  | nil => exact h
  | cons b t ih => exact ih (h.trans (k x b))

theorem Only.refl (l : List StateField) (s : State) : Only l s s := ⟨fun p _ => by cases p <;> rfl, rfl⟩
theorem Only.trans {l : List StateField} {s t u : State} (h : Only l s t) (k : Only l t u) : Only l s u := by
  refine ⟨fun p hp => ?_, k.2.trans h.2⟩
  have a := h.1 p hp
  have b := k.1 p hp
  cases p <;> exact Eq.trans b a
theorem Only.mono {l l' : List StateField} {s t : State} (h : Only l s t) (hl : l ⊆ l') : Only l' s t := ⟨fun p hp => h.1 p (fun x => hp (hl x)), h.2⟩

theorem Only.of {l : List StateField} {s t : State} (h : ∀ p, p ∉ l → p.same s t) (k : t.pending = s.pending) : Only l s t := ⟨h, k⟩
theorem sub {a b c : List StateField} (h : b ⊆ c) (k : a ⊆ b) : a ⊆ c := fun _ x => h (k x)

theorem Kept.refl {l : List StateField} (s : State) : Kept l s s := ⟨Only.refl l s, IoKept.refl _, T1Kept.refl _⟩
theorem Kept.trans {l : List StateField} {s t u : State} (h : Kept l s t) (k : Kept l t u) : Kept l s u :=
  ⟨Only.trans h.1 k.1, h.2.1.trans k.2.1, h.2.2.trans k.2.2⟩
theorem Kept.mono {l l' : List StateField} {s t : State} (h : Kept l s t) (hl : l ⊆ l') : Kept l' s t := ⟨Only.mono h.1 hl, h.2⟩
/-- One more operation on what is kept so far. -/
theorem Kept.after {l : List StateField} {s t u : State} (k : Kept l t u) (h : Kept l s t) : Kept l s u := h.trans k
theorem Kept.ite {l : List StateField} {s x y : State} {c : Prop} [Decidable c] (h : Kept l s x) (k : Kept l s y) : Kept l s (if c then x else y) := by
  split <;> assumption
/-- A choice whose second branch is what the first goes on from. -/
theorem Kept.iteL {l : List StateField} {s x y : State} {c : Prop} [Decidable c] (h : Kept l s y) (k : Kept l y x) : Kept l s (if c then x else y) := by
  split
  · exact h.trans k
  · exact h
theorem Kept.iteR {l : List StateField} {s x y : State} {c : Prop} [Decidable c] (h : Kept l s x) (k : Kept l x y) : Kept l s (if c then x else y) := by
  split
  · exact h
  · exact h.trans k
theorem Kept.foldl {β : Type} {l : List StateField} {f : State → β → State} {bs : List β} {s x : State} (h : Kept l s x) (k : ∀ t b, Kept l t (f t b)) :
    Kept l s (bs.foldl f x) := by
  induction bs generalizing x with
  | nil => exact h
  | cons b t ih => exact ih (h.trans (k x b))
theorem Kept.foldlFst {β γ : Type} {l : List StateField} {f : State × γ → β → State × γ} {bs : List β} {s : State} {x : State × γ} (h : Kept l s x.1)
    (k : ∀ t b, Kept l t.1 (f t b).1) : Kept l s (bs.foldl f x).1 := by
  induction bs generalizing x with
  | nil => exact h
  | cons b t ih => exact ih (h.trans (k x b))
theorem Kept.foldlSnd {β γ : Type} {l : List StateField} {f : γ × State → β → γ × State} {bs : List β} {s : State} {x : γ × State} (h : Kept l s x.2)
    (k : ∀ t b, Kept l t.2 (f t b).2) : Kept l s (bs.foldl f x).2 := by
  induction bs generalizing x with
  | nil => exact h
  | cons b t ih => exact ih (h.trans (k x b))
theorem orElse_some {α : Type} {a b : Option α} {c : α} (h : (a <|> b) = some c) : a = some c ∨ b = some c := by
  cases a with
  | none => exact Or.inr h
  | some x => exact Or.inl h
/-- A record update of `x`. -/
theorem Kept.upd {l : List StateField} {s x : State} {vio vyt vt1 vshed vprefetch vstalls vunits vops vmirrors vredirects vcp vcpSlots vcontexts vanswers vwindows vtallies vaisle vtextCache vrounds vparts vsvChanged vperiodEnd vemptyRaised vsatPages vnet vsec vck vpw vbu vtear vtests vallocStopped vfreeIdx}
    (ho : Only l x ⟨vio, vyt, vt1, vshed, vprefetch, vstalls, vunits, vops, vmirrors, vredirects, vcp, vcpSlots, vcontexts, vanswers, vwindows, vtallies, vaisle, vtextCache, vrounds, vparts, vsvChanged, vperiodEnd, vemptyRaised, vsatPages, vnet, vsec, vck, vpw, vbu, vtear, vtests, vallocStopped, vfreeIdx, x.pending⟩) (hi : IoKept x.io vio) (ht : T1Kept x.t1 vt1) (h : Kept l s x) :
    Kept l s ⟨vio, vyt, vt1, vshed, vprefetch, vstalls, vunits, vops, vmirrors, vredirects, vcp, vcpSlots, vcontexts, vanswers, vwindows, vtallies, vaisle, vtextCache, vrounds, vparts, vsvChanged, vperiodEnd, vemptyRaised, vsatPages, vnet, vsec, vck, vpw, vbu, vtear, vtests, vallocStopped, vfreeIdx, x.pending⟩ := h.trans ⟨ho, hi, ht⟩

/-- The state that an operation answers, or another where it answers none. -/
theorem Kept.getD {l : List StateField} {s d : State} {o : Option State} (h : Kept l s d) (k : ∀ t, o = some t → Kept l s t) : Kept l s (o.getD d) := by
  cases o with
  | none => exact h
  | some t => exact k t rfl

theorem Kept.elim {α : Type} {l : List StateField} {s d : State} {o : Option α} {f : α → State} (h : Kept l s d)
    (k : ∀ t, o = some t → Kept l s (f t)) : Kept l s (o.elim d f) := by
  cases o with
  | none => exact h
  | some t => exact k t rfl

/-- Operations each of which may answer none, one after the other. -/
theorem Kept.foldlBind {β : Type} {l : List StateField} {f : β → State → Option State} {xs : List β} {o : Option State} {s t : State}
    (h : xs.foldl (fun r e => r.bind (f e)) o = some t) (h0 : ∀ u, o = some u → Kept l s u) (k : ∀ a b e, f e a = some b → Kept l a b) :
    Kept l s t := by
  induction xs generalizing o with
  | nil => exact h0 t h
  | cons e xs ih =>
    refine ih h (fun u hu => ?_)
    rw [Option.bind_eq_some_iff] at hu
    obtain ⟨v, hv, hu⟩ := hu
    exact (h0 v hv).trans (k _ _ _ hu)

end Sys2Proof.Laws
end

