-- ==== Sys2Proof/Laws/KeptOps.lean ====
section
/-! SUPPORT. The frame lemma of every operation of Machine/Ops.lean: which fields of the state it may change, and that it keeps the canonical
forms. -/

set_option Elab.async false
set_option linter.unusedTactic false
set_option linter.unreachableTactic false
set_option linter.unusedVariables false

namespace Sys2Proof.Laws

open Sys2Proof Sys2Proof.Machine Sys2Proof.Safety

theorem Io.setReg_kept {off : Nat} {v : Word} {io : Io} {mz : Io} (mh : IoKept mz io) : IoKept mz (Io.setReg off v io) := by
  refine mh.trans ?_
  unfold Io.setReg
  try dsimp only
  repeat' first
    | with_reducible exact IoKept.refl _
    | with_reducible apply IoKept.ite
    | with_reducible apply IoKept.foldl
    | with_reducible apply IoKept.put
    | with_reducible apply IoKept.filter
    | (fail_if_no_progress with_reducible apply IoKept.upd)
    | intro _
    | dsimp only
    | split

theorem Io.put_kept {f : RegField} {x : Nat} {io : Io} {mz : Io} (mh : IoKept mz io) : IoKept mz (Io.put f x io) := by
  refine mh.trans ?_
  unfold Io.put
  try dsimp only
  repeat' first
    | with_reducible exact IoKept.refl _
    | with_reducible apply Laws.Io.setReg_kept
    | with_reducible apply IoKept.ite
    | with_reducible apply IoKept.foldl
    | with_reducible apply IoKept.put
    | with_reducible apply IoKept.filter
    | (fail_if_no_progress with_reducible apply IoKept.upd)
    | intro _
    | dsimp only
    | split

theorem Io.bump_kept {f : RegField} {n : Nat} {io : Io} {mz : Io} (mh : IoKept mz io) : IoKept mz (Io.bump f n io) := by
  refine mh.trans ?_
  unfold Io.bump
  try dsimp only
  repeat' first
    | with_reducible exact IoKept.refl _
    | with_reducible apply Laws.Io.put_kept
    | with_reducible apply IoKept.ite
    | with_reducible apply IoKept.foldl
    | with_reducible apply IoKept.put
    | with_reducible apply IoKept.filter
    | (fail_if_no_progress with_reducible apply IoKept.upd)
    | intro _
    | dsimp only
    | split

theorem Io.emit_kept {o : Out} {io : Io} {mz : Io} (mh : IoKept mz io) : IoKept mz (Io.emit o io) := by
  refine mh.trans ?_
  unfold Io.emit
  try dsimp only
  repeat' first
    | with_reducible exact IoKept.refl _
    | with_reducible apply Laws.Io.bump_kept
    | with_reducible apply IoKept.ite
    | with_reducible apply IoKept.foldl
    | with_reducible apply IoKept.put
    | with_reducible apply IoKept.filter
    | (fail_if_no_progress with_reducible apply IoKept.upd)
    | intro _
    | dsimp only
    | split

theorem Io.setFlag_kept {flags bit count byte : Nat} {io : Io} {mz : Io} (mh : IoKept mz io) : IoKept mz (Io.setFlag flags bit count byte io) := by
  refine mh.trans ?_
  unfold Io.setFlag
  try dsimp only
  repeat' first
    | with_reducible exact IoKept.refl _
    | with_reducible apply Laws.Io.bump_kept
    | with_reducible apply Laws.Io.put_kept
    | with_reducible apply IoKept.ite
    | with_reducible apply IoKept.foldl
    | with_reducible apply IoKept.put
    | with_reducible apply IoKept.filter
    | (fail_if_no_progress with_reducible apply IoKept.upd)
    | intro _
    | dsimp only
    | split

theorem Io.setRing_kept {r : Nat} {x : RingX} {io : Io} {mz : Io} (mh : IoKept mz io) : IoKept mz (Io.setRing r x io) := by
  refine mh.trans ?_
  unfold Io.setRing
  try dsimp only
  repeat' first
    | with_reducible exact IoKept.refl _
    | with_reducible apply IoKept.ite
    | with_reducible apply IoKept.foldl
    | with_reducible apply IoKept.put
    | with_reducible apply IoKept.filter
    | (fail_if_no_progress with_reducible apply IoKept.upd)
    | intro _
    | dsimp only
    | split

theorem Io.ringWrite_kept {e : Event} {cls : EventClass} {seq now r : Nat} {hidden : Bool} {io : Io} {mz : Io} (mh : IoKept mz io) : IoKept mz (Io.ringWrite e cls seq now r hidden io) := by
  refine mh.trans ?_
  unfold Io.ringWrite
  try dsimp only
  repeat' first
    | with_reducible exact IoKept.refl _
    | with_reducible apply Laws.Io.bump_kept
    | with_reducible apply Laws.Io.emit_kept
    | with_reducible apply Laws.Io.put_kept
    | with_reducible apply Laws.Io.setRing_kept
    | with_reducible apply IoKept.ite
    | with_reducible apply IoKept.foldl
    | with_reducible apply IoKept.put
    | with_reducible apply IoKept.filter
    | (fail_if_no_progress with_reducible apply IoKept.upd)
    | intro _
    | dsimp only
    | split

theorem Io.toManagement_kept {e : Event} {cls : EventClass} {seq now : Nat} {io : Io} {mz : Io} (mh : IoKept mz io) : IoKept mz (Io.toManagement e cls seq now io) := by
  refine mh.trans ?_
  unfold Io.toManagement
  try dsimp only
  repeat' first
    | with_reducible exact IoKept.refl _
    | with_reducible apply Laws.Io.ringWrite_kept
    | with_reducible apply IoKept.ite
    | with_reducible apply IoKept.foldl
    | with_reducible apply IoKept.put
    | with_reducible apply IoKept.filter
    | (fail_if_no_progress with_reducible apply IoKept.upd)
    | intro _
    | dsimp only
    | split

theorem Io.note_kept {code : Nat} {io : Io} {mz : Io} (mh : IoKept mz io) : IoKept mz (Io.note code io) := by
  refine mh.trans ?_
  unfold Io.note
  try dsimp only
  repeat' first
    | with_reducible exact IoKept.refl _
    | with_reducible apply Laws.Io.bump_kept
    | with_reducible apply Laws.Io.setFlag_kept
    | with_reducible apply IoKept.ite
    | with_reducible apply IoKept.foldl
    | with_reducible apply IoKept.put
    | with_reducible apply IoKept.filter
    | (fail_if_no_progress with_reducible apply IoKept.upd)
    | intro _
    | dsimp only
    | split

theorem Io.ringLostEvent_kept {now t : Nat} {io : Io} {mz : Io} (mh : IoKept mz io) : IoKept mz (Io.ringLostEvent now t io) := by
  refine mh.trans ?_
  unfold Io.ringLostEvent
  try dsimp only
  repeat' first
    | with_reducible exact IoKept.refl _
    | with_reducible apply Laws.Io.note_kept
    | with_reducible apply Laws.Io.toManagement_kept
    | with_reducible apply IoKept.ite
    | with_reducible apply IoKept.foldl
    | with_reducible apply IoKept.put
    | with_reducible apply IoKept.filter
    | (fail_if_no_progress with_reducible apply IoKept.upd)
    | intro _
    | dsimp only
    | split

theorem Io.toTenant_kept {e : Event} {cls : EventClass} {seq now t : Nat} {io : Io} {mz : Io} (mh : IoKept mz io) : IoKept mz (Io.toTenant e cls seq now t io) := by
  refine mh.trans ?_
  unfold Io.toTenant
  try dsimp only
  repeat' first
    | with_reducible exact IoKept.refl _
    | with_reducible apply Laws.Io.ringLostEvent_kept
    | with_reducible apply Laws.Io.ringWrite_kept
    | with_reducible apply IoKept.ite
    | with_reducible apply IoKept.foldl
    | with_reducible apply IoKept.put
    | with_reducible apply IoKept.filter
    | (fail_if_no_progress with_reducible apply IoKept.upd)
    | intro _
    | dsimp only
    | split

theorem Io.latchFatal_kept {code now : Nat} {io : Io} {mz : Io} (mh : IoKept mz io) : IoKept mz (Io.latchFatal code now io) := by
  refine mh.trans ?_
  unfold Io.latchFatal
  try dsimp only
  repeat' first
    | with_reducible exact IoKept.refl _
    | with_reducible apply Laws.Io.put_kept
    | with_reducible apply IoKept.ite
    | with_reducible apply IoKept.foldl
    | with_reducible apply IoKept.put
    | with_reducible apply IoKept.filter
    | (fail_if_no_progress with_reducible apply IoKept.upd)
    | intro _
    | dsimp only
    | split

theorem Io.raise_kept {now : Nat} {e : Event} {io : Io} {mz : Io} (mh : IoKept mz io) : IoKept mz (Io.raise now e io) := by
  refine mh.trans ?_
  unfold Io.raise
  try dsimp only
  repeat' first
    | with_reducible exact IoKept.refl _
    | with_reducible apply Laws.Io.latchFatal_kept
    | with_reducible apply Laws.Io.note_kept
    | with_reducible apply Laws.Io.toManagement_kept
    | with_reducible apply Laws.Io.toTenant_kept
    | with_reducible apply IoKept.ite
    | with_reducible apply IoKept.foldl
    | with_reducible apply IoKept.put
    | with_reducible apply IoKept.filter
    | (fail_if_no_progress with_reducible apply IoKept.upd)
    | intro _
    | dsimp only
    | split

theorem Io.setQueue_kept {q : Nat} {x : QueueX} {io : Io} {mz : Io} (mh : IoKept mz io) : IoKept mz (Io.setQueue q x io) := by
  refine mh.trans ?_
  unfold Io.setQueue
  try dsimp only
  repeat' first
    | with_reducible exact IoKept.refl _
    | with_reducible apply IoKept.ite
    | with_reducible apply IoKept.foldl
    | with_reducible apply IoKept.put
    | with_reducible apply IoKept.filter
    | (fail_if_no_progress with_reducible apply IoKept.upd)
    | intro _
    | dsimp only
    | split

theorem Io.writeRecord_kept {q : Nat} {c : Cmd} {status endBit r0 r1 r2 now : Nat} {io : Io} {mz : Io} (mh : IoKept mz io) : IoKept mz (Io.writeRecord q c status endBit r0 r1 r2 now io) := by
  refine mh.trans ?_
  unfold Io.writeRecord
  try dsimp only
  repeat' first
    | with_reducible exact IoKept.refl _
    | with_reducible apply Laws.Io.bump_kept
    | with_reducible apply Laws.Io.emit_kept
    | with_reducible apply Laws.Io.put_kept
    | with_reducible apply Laws.Io.setQueue_kept
    | with_reducible apply IoKept.ite
    | with_reducible apply IoKept.foldl
    | with_reducible apply IoKept.put
    | with_reducible apply IoKept.filter
    | (fail_if_no_progress with_reducible apply IoKept.upd)
    | intro _
    | dsimp only
    | split

theorem Io.completeQueue_kept {q : Nat} {c : Cmd} {release : Bool} {status r0 r1 r2 now : Nat} {io : Io} {mz : Io} (mh : IoKept mz io) : IoKept mz (Io.completeQueue q c release status r0 r1 r2 now io) := by
  refine mh.trans ?_
  unfold Io.completeQueue
  try dsimp only
  repeat' first
    | with_reducible exact IoKept.refl _
    | with_reducible apply Laws.Io.bump_kept
    | with_reducible apply Laws.Io.setQueue_kept
    | with_reducible apply Laws.Io.writeRecord_kept
    | with_reducible apply IoKept.ite
    | with_reducible apply IoKept.foldl
    | with_reducible apply IoKept.put
    | with_reducible apply IoKept.filter
    | (fail_if_no_progress with_reducible apply IoKept.upd)
    | intro _
    | dsimp only
    | split

theorem State.put_frame (s : State) (f : RegField) (x : Nat) : Kept [.io] s (State.put s f x) := by
  unfold State.put
  try dsimp only
  repeat' first
    | with_reducible exact Kept.refl _
    | with_reducible apply Kept.ite
    | (fail_if_no_progress ((with_reducible apply Kept.upd); (case ho => (refine Only.of (fun p hp => ?_) rfl; cases p <;> first | rfl | (refine absurd ?_ hp; decide))); (case hi => (repeat' first | with_reducible exact IoKept.refl _ | with_reducible apply Laws.Io.put_kept | with_reducible apply IoKept.ite | with_reducible apply IoKept.foldl | with_reducible apply IoKept.put | with_reducible apply IoKept.filter | (fail_if_no_progress with_reducible apply IoKept.upd) | intro _ | dsimp only | split)); (case ht => exact T1Kept.refl _)))
    | intro _
    | dsimp only
    | split
theorem State.put_kept {ml : List StateField} {mz : State} {s : State} {f : RegField} {x : Nat} (mhl : [.io] ⊆ ml) (mh : Kept ml mz s) : Kept ml mz (State.put s f x) :=
  Kept.after ((State.put_frame s f x).mono mhl) mh

theorem State.setReg_frame (s : State) (off : Nat) (v : Word) : Kept [.io] s (State.setReg s off v) := by
  unfold State.setReg
  try dsimp only
  repeat' first
    | with_reducible exact Kept.refl _
    | with_reducible apply Kept.ite
    | (fail_if_no_progress ((with_reducible apply Kept.upd); (case ho => (refine Only.of (fun p hp => ?_) rfl; cases p <;> first | rfl | (refine absurd ?_ hp; decide))); (case hi => (repeat' first | with_reducible exact IoKept.refl _ | with_reducible apply Laws.Io.setReg_kept | with_reducible apply IoKept.ite | with_reducible apply IoKept.foldl | with_reducible apply IoKept.put | with_reducible apply IoKept.filter | (fail_if_no_progress with_reducible apply IoKept.upd) | intro _ | dsimp only | split)); (case ht => exact T1Kept.refl _)))
    | intro _
    | dsimp only
    | split
theorem State.setReg_kept {ml : List StateField} {mz : State} {s : State} {off : Nat} {v : Word} (mhl : [.io] ⊆ ml) (mh : Kept ml mz s) : Kept ml mz (State.setReg s off v) :=
  Kept.after ((State.setReg_frame s off v).mono mhl) mh

theorem State.bump_frame (s : State) (f : RegField) (n : Nat) : Kept [.io] s (State.bump s f n) := by
  unfold State.bump
  try dsimp only
  repeat' first
    | with_reducible exact Kept.refl _
    | with_reducible apply Kept.ite
    | (fail_if_no_progress ((with_reducible apply Kept.upd); (case ho => (refine Only.of (fun p hp => ?_) rfl; cases p <;> first | rfl | (refine absurd ?_ hp; decide))); (case hi => (repeat' first | with_reducible exact IoKept.refl _ | with_reducible apply Laws.Io.bump_kept | with_reducible apply IoKept.ite | with_reducible apply IoKept.foldl | with_reducible apply IoKept.put | with_reducible apply IoKept.filter | (fail_if_no_progress with_reducible apply IoKept.upd) | intro _ | dsimp only | split)); (case ht => exact T1Kept.refl _)))
    | intro _
    | dsimp only
    | split
theorem State.bump_kept {ml : List StateField} {mz : State} {s : State} {f : RegField} {n : Nat} (mhl : [.io] ⊆ ml) (mh : Kept ml mz s) : Kept ml mz (State.bump s f n) :=
  Kept.after ((State.bump_frame s f n).mono mhl) mh

theorem State.emit_frame (s : State) (o : Out) : Kept [.io] s (State.emit s o) := by
  unfold State.emit
  try dsimp only
  repeat' first
    | with_reducible exact Kept.refl _
    | with_reducible apply Kept.ite
    | (fail_if_no_progress ((with_reducible apply Kept.upd); (case ho => (refine Only.of (fun p hp => ?_) rfl; cases p <;> first | rfl | (refine absurd ?_ hp; decide))); (case hi => (repeat' first | with_reducible exact IoKept.refl _ | with_reducible apply Laws.Io.emit_kept | with_reducible apply IoKept.ite | with_reducible apply IoKept.foldl | with_reducible apply IoKept.put | with_reducible apply IoKept.filter | (fail_if_no_progress with_reducible apply IoKept.upd) | intro _ | dsimp only | split)); (case ht => exact T1Kept.refl _)))
    | intro _
    | dsimp only
    | split
theorem State.emit_kept {ml : List StateField} {mz : State} {s : State} {o : Out} (mhl : [.io] ⊆ ml) (mh : Kept ml mz s) : Kept ml mz (State.emit s o) :=
  Kept.after ((State.emit_frame s o).mono mhl) mh

theorem State.raise_frame (s : State) (e : Event) : Kept [.io] s (State.raise s e) := by
  unfold State.raise
  try dsimp only
  repeat' first
    | with_reducible exact Kept.refl _
    | with_reducible apply Kept.ite
    | (fail_if_no_progress ((with_reducible apply Kept.upd); (case ho => (refine Only.of (fun p hp => ?_) rfl; cases p <;> first | rfl | (refine absurd ?_ hp; decide))); (case hi => (repeat' first | with_reducible exact IoKept.refl _ | with_reducible apply Laws.Io.raise_kept | with_reducible apply IoKept.ite | with_reducible apply IoKept.foldl | with_reducible apply IoKept.put | with_reducible apply IoKept.filter | (fail_if_no_progress with_reducible apply IoKept.upd) | intro _ | dsimp only | split)); (case ht => exact T1Kept.refl _)))
    | intro _
    | dsimp only
    | split
theorem State.raise_kept {ml : List StateField} {mz : State} {s : State} {e : Event} (mhl : [.io] ⊆ ml) (mh : Kept ml mz s) : Kept ml mz (State.raise s e) :=
  Kept.after ((State.raise_frame s e).mono mhl) mh

theorem State.drawFree_frame (s : State) : Kept [.freeIdx] s (State.drawFree s).2 := by
  unfold State.drawFree
  try dsimp only
  repeat' first
    | with_reducible exact Kept.refl _
    | with_reducible apply Kept.ite
    | (fail_if_no_progress ((with_reducible apply Kept.upd); (case ho => (refine Only.of (fun p hp => ?_) rfl; cases p <;> first | rfl | (refine absurd ?_ hp; decide))); (case hi => exact IoKept.refl _); (case ht => exact T1Kept.refl _)))
    | intro _
    | dsimp only
    | split
theorem State.drawFree_kept {ml : List StateField} {mz : State} {s : State} (mhl : [.freeIdx] ⊆ ml) (mh : Kept ml mz s) : Kept ml mz (State.drawFree s).2 :=
  Kept.after ((State.drawFree_frame s).mono mhl) mh
theorem State.drawFree_kept' {ml : List StateField} {mz : State} {s : State} {v0 : Word} {v1 : State} (mhl : [.freeIdx] ⊆ ml) (me : State.drawFree s = (v0, v1)) (mh : Kept ml mz s) : Kept ml mz v1 := by
  have mk := Kept.after ((State.drawFree_frame s).mono mhl) mh
  rw [me] at mk
  exact mk

theorem State.drawBytes_frame (s : State) (n : Nat) : Kept [.freeIdx] s (State.drawBytes s n).2 := by
  induction n generalizing s with
  | zero => exact Kept.refl _
  | succ n ih => exact Kept.after (ih _) (State.drawFree_kept (by decide) (Kept.refl _))
theorem State.drawBytes_kept {ml : List StateField} {mz : State} {s : State} {n : Nat} (mhl : [.freeIdx] ⊆ ml) (mh : Kept ml mz s) : Kept ml mz (State.drawBytes s n).2 :=
  Kept.after ((State.drawBytes_frame s n).mono mhl) mh
theorem State.drawBytes_kept' {ml : List StateField} {mz : State} {s : State} {n : Nat} {v0 : List Byte} {v1 : State} (mhl : [.freeIdx] ⊆ ml) (me : State.drawBytes s n = (v0, v1)) (mh : Kept ml mz s) : Kept ml mz v1 := by
  have mk := Kept.after ((State.drawBytes_frame s n).mono mhl) mh
  rw [me] at mk
  exact mk

theorem next_kept (s : State) : ∃ out, next s = .next out ∧ Kept [] s out := by
  unfold next
  try dsimp only
  refine ⟨_, rfl, ?_⟩
  try dsimp only
  repeat' first
    | with_reducible exact Kept.refl _
    | with_reducible apply Kept.ite
    | intro _
    | dsimp only
    | split

theorem State.completeWith_frame (s : State) (c : Cmd) (release : Bool) (status r0 r1 r2 : Nat) : Kept [.io, .answers] s (State.completeWith s c release status r0 r1 r2) := by
  unfold State.completeWith
  try dsimp only
  repeat' first
    | with_reducible exact Kept.refl _
    | with_reducible apply Kept.ite
    | (fail_if_no_progress ((with_reducible apply Kept.upd); (case ho => (refine Only.of (fun p hp => ?_) rfl; cases p <;> first | rfl | (refine absurd ?_ hp; decide))); (case hi => (repeat' first | with_reducible exact IoKept.refl _ | with_reducible apply Laws.Io.completeQueue_kept | with_reducible apply IoKept.ite | with_reducible apply IoKept.foldl | with_reducible apply IoKept.put | with_reducible apply IoKept.filter | (fail_if_no_progress with_reducible apply IoKept.upd) | intro _ | dsimp only | split)); (case ht => exact T1Kept.refl _)))
    | intro _
    | dsimp only
    | split
theorem State.completeWith_kept {ml : List StateField} {mz : State} {s : State} {c : Cmd} {release : Bool} {status r0 r1 r2 : Nat} (mhl : [.io, .answers] ⊆ ml) (mh : Kept ml mz s) : Kept ml mz (State.completeWith s c release status r0 r1 r2) :=
  Kept.after ((State.completeWith_frame s c release status r0 r1 r2).mono mhl) mh

theorem State.complete_frame (s : State) (c : Cmd) (status : Nat) (r0 : Nat) (r1 : Nat) (r2 : Nat) : Kept [.io, .answers] s (State.complete s c status r0 r1 r2) := by
  unfold State.complete
  try dsimp only
  repeat' first
    | with_reducible exact Kept.refl _
    | ((with_reducible apply Laws.State.completeWith_kept); (case mhl => decide))
    | with_reducible apply Kept.ite
    | intro _
    | dsimp only
    | split
theorem State.complete_kept {ml : List StateField} {mz : State} {s : State} {c : Cmd} {status : Nat} {r0 : Nat} {r1 : Nat} {r2 : Nat} (mhl : [.io, .answers] ⊆ ml) (mh : Kept ml mz s) : Kept ml mz (State.complete s c status r0 r1 r2) :=
  Kept.after ((State.complete_frame s c status r0 r1 r2).mono mhl) mh

theorem State.refuse_frame (s : State) (c : Cmd) (status : Nat) (r0 : Nat) (r1 : Nat) : Kept [.io, .answers] s (State.refuse s c status r0 r1) := by
  unfold State.refuse
  try dsimp only
  repeat' first
    | with_reducible exact Kept.refl _
    | ((with_reducible apply Laws.State.completeWith_kept); (case mhl => decide))
    | with_reducible apply Kept.ite
    | intro _
    | dsimp only
    | split
theorem State.refuse_kept {ml : List StateField} {mz : State} {s : State} {c : Cmd} {status : Nat} {r0 : Nat} {r1 : Nat} (mhl : [.io, .answers] ⊆ ml) (mh : Kept ml mz s) : Kept ml mz (State.refuse s c status r0 r1) :=
  Kept.after ((State.refuse_frame s c status r0 r1).mono mhl) mh

theorem State.turnAway_frame (s : State) (c : Cmd) (long : Bool) (st : Nat) : Kept [.io, .answers] s (State.turnAway s c long st) := by
  unfold State.turnAway
  try dsimp only
  repeat' first
    | with_reducible exact Kept.refl _
    | ((with_reducible apply Laws.State.completeWith_kept); (case mhl => decide))
    | ((with_reducible apply Laws.State.raise_kept); (case mhl => decide))
    | with_reducible apply Kept.ite
    | (fail_if_no_progress ((with_reducible apply Kept.upd); (case ho => (refine Only.of (fun p hp => ?_) rfl; cases p <;> first | rfl | (refine absurd ?_ hp; decide))); (case hi => (repeat' first | with_reducible exact IoKept.refl _ | with_reducible apply Laws.Io.raise_kept | with_reducible apply IoKept.ite | with_reducible apply IoKept.foldl | with_reducible apply IoKept.put | with_reducible apply IoKept.filter | (fail_if_no_progress with_reducible apply IoKept.upd) | intro _ | dsimp only | split)); (case ht => exact T1Kept.refl _)))
    | intro _
    | dsimp only
    | split
theorem State.turnAway_kept {ml : List StateField} {mz : State} {s : State} {c : Cmd} {long : Bool} {st : Nat} (mhl : [.io, .answers] ⊆ ml) (mh : Kept ml mz s) : Kept ml mz (State.turnAway s c long st) :=
  Kept.after ((State.turnAway_frame s c long st).mono mhl) mh

theorem State.runCmd_kept {ml : List StateField} {mz : State} {s : State} {c : Cmd} {kind : QueueKind} {enFree : Bool} {body : State → State} (mhl : [.io, .answers] ⊆ ml) (hbody : ∀ a0, Kept ml a0 (body a0)) (mh : Kept ml mz s) : Kept ml mz (State.runCmd s c kind enFree body) := by
  refine Kept.after ?_ mh
  unfold State.runCmd
  try dsimp only
  repeat' first
    | with_reducible exact Kept.refl _
    | (with_reducible apply Kept.after (hbody _))
    | ((with_reducible apply Laws.State.turnAway_kept); (case mhl => first | decide | (refine sub mhl ?_; decide)))
    | with_reducible apply Kept.ite
    | (fail_if_no_progress ((with_reducible apply Kept.upd); (case ho => (refine Only.of (fun p hp => ?_) rfl; cases p <;> first | rfl | (refine absurd (mhl ?_) hp; decide))); (case hi => (repeat' first | with_reducible exact IoKept.refl _ | with_reducible apply IoKept.ite | with_reducible apply IoKept.foldl | with_reducible apply IoKept.put | with_reducible apply IoKept.filter | (fail_if_no_progress with_reducible apply IoKept.upd) | intro _ | dsimp only | split)); (case ht => exact T1Kept.refl _)))
    | intro _
    | dsimp only
    | split

theorem State.runHeld_kept {ml : List StateField} {mz : State} {s : State} {c : Cmd} {kind : QueueKind} {enFree : Bool} {body : State → State} (mhl : [.io, .answers] ⊆ ml) (hbody : ∀ a0, Kept ml a0 (body a0)) (mh : Kept ml mz s) : Kept ml mz (State.runHeld s c kind enFree body) := by
  refine Kept.after ?_ mh
  unfold State.runHeld
  try dsimp only
  repeat' first
    | with_reducible exact Kept.refl _
    | (with_reducible apply Kept.after (hbody _))
    | ((with_reducible apply Laws.State.runCmd_kept); (case mhl => first | decide | (refine sub mhl ?_; decide)))
    | with_reducible apply Kept.ite
    | (fail_if_no_progress ((with_reducible apply Kept.upd); (case ho => (refine Only.of (fun p hp => ?_) rfl; cases p <;> first | rfl | (refine absurd (mhl ?_) hp; decide))); (case hi => (repeat' first | with_reducible exact IoKept.refl _ | with_reducible apply IoKept.ite | with_reducible apply IoKept.foldl | with_reducible apply IoKept.put | with_reducible apply IoKept.filter | (fail_if_no_progress with_reducible apply IoKept.upd) | intro _ | dsimp only | split)); (case ht => exact T1Kept.refl _)))
    | intro _
    | dsimp only
    | split

theorem State.setOp_frame (s : State) (i : Nat) (o : OpSlot) : Kept [.ops] s (State.setOp s i o) := by
  unfold State.setOp
  try dsimp only
  repeat' first
    | with_reducible exact Kept.refl _
    | with_reducible apply Kept.ite
    | (fail_if_no_progress ((with_reducible apply Kept.upd); (case ho => (refine Only.of (fun p hp => ?_) rfl; cases p <;> first | rfl | (refine absurd ?_ hp; decide))); (case hi => exact IoKept.refl _); (case ht => exact T1Kept.refl _)))
    | intro _
    | dsimp only
    | split
theorem State.setOp_kept {ml : List StateField} {mz : State} {s : State} {i : Nat} {o : OpSlot} (mhl : [.ops] ⊆ ml) (mh : Kept ml mz s) : Kept ml mz (State.setOp s i o) :=
  Kept.after ((State.setOp_frame s i o).mono mhl) mh

theorem State.moveOp_frame (s : State) (i : Nat) (st : OpState) : Kept [.ops] s (State.moveOp s i st) := by
  unfold State.moveOp
  try dsimp only
  repeat' first
    | with_reducible exact Kept.refl _
    | ((with_reducible apply Laws.State.setOp_kept); (case mhl => decide))
    | with_reducible apply Kept.ite
    | (fail_if_no_progress ((with_reducible apply Kept.upd); (case ho => (refine Only.of (fun p hp => ?_) rfl; cases p <;> first | rfl | (refine absurd ?_ hp; decide))); (case hi => exact IoKept.refl _); (case ht => exact T1Kept.refl _)))
    | intro _
    | dsimp only
    | split
theorem State.moveOp_kept {ml : List StateField} {mz : State} {s : State} {i : Nat} {st : OpState} (mhl : [.ops] ⊆ ml) (mh : Kept ml mz s) : Kept ml mz (State.moveOp s i st) :=
  Kept.after ((State.moveOp_frame s i st).mono mhl) mh

theorem State.newOpFor_frame (s : State) (c : Option Cmd) (opcode : Nat) (args : List Nat) {v0 : Nat} {v1 : State} (me : State.newOpFor s c opcode args = some (v0, v1)) : Kept [.ops] s v1 := by
  unfold State.newOpFor at me
  try dsimp only at me
  repeat' first
    | contradiction
    | (cases me; done)
    | cases me
    | (rw [Option.map_eq_some_iff] at me; obtain ⟨_, _, me⟩ := me; cases me)
    | (rw [Option.bind_eq_some_iff] at me; obtain ⟨_, _, me⟩ := me)
    | split at me
  all_goals
    repeat' first
      | with_reducible exact Kept.refl _
      | ((with_reducible apply Laws.State.setOp_kept); (case mhl => decide))
      | with_reducible apply Kept.ite
      | (fail_if_no_progress ((with_reducible apply Kept.upd); (case ho => (refine Only.of (fun p hp => ?_) rfl; cases p <;> first | rfl | (refine absurd ?_ hp; decide))); (case hi => exact IoKept.refl _); (case ht => exact T1Kept.refl _)))
      | intro _
      | dsimp only
      | split
theorem State.newOpFor_kept {ml : List StateField} {mz : State} {s : State} {c : Option Cmd} {opcode : Nat} {args : List Nat} {v0 : Nat} {v1 : State} (mhl : [.ops] ⊆ ml) (me : State.newOpFor s c opcode args = some (v0, v1)) (mh : Kept ml mz s) : Kept ml mz v1 :=
  Kept.after ((State.newOpFor_frame s c opcode args me).mono mhl) mh

theorem State.newOp_frame (s : State) (c : Cmd) (opcode : Nat) (args : List Nat) {v0 : Nat} {v1 : State} (me : State.newOp s c opcode args = some (v0, v1)) : Kept [.ops] s v1 := by
  unfold State.newOp at me
  try dsimp only at me
  repeat' first
    | contradiction
    | (cases me; done)
    | cases me
    | (rw [Option.map_eq_some_iff] at me; obtain ⟨_, _, me⟩ := me; cases me)
    | (rw [Option.bind_eq_some_iff] at me; obtain ⟨_, _, me⟩ := me)
    | split at me
  all_goals
    repeat' first
      | with_reducible exact Kept.refl _
      | ((with_reducible apply Laws.State.newOpFor_kept ?mhl (by assumption)); (case mhl => decide))
      | with_reducible apply Kept.ite
      | intro _
      | dsimp only
      | split
theorem State.newOp_kept {ml : List StateField} {mz : State} {s : State} {c : Cmd} {opcode : Nat} {args : List Nat} {v0 : Nat} {v1 : State} (mhl : [.ops] ⊆ ml) (me : State.newOp s c opcode args = some (v0, v1)) (mh : Kept ml mz s) : Kept ml mz v1 :=
  Kept.after ((State.newOp_frame s c opcode args me).mono mhl) mh

theorem Io.endRecord_kept {q session : Nat} {c : Cmd} {status r0 r1 r2 now : Nat} {io : Io} {mz : Io} (mh : IoKept mz io) : IoKept mz (Io.endRecord q session c status r0 r1 r2 now io) := by
  refine mh.trans ?_
  unfold Io.endRecord
  try dsimp only
  repeat' first
    | with_reducible exact IoKept.refl _
    | with_reducible apply Laws.Io.bump_kept
    | with_reducible apply Laws.Io.raise_kept
    | with_reducible apply Laws.Io.writeRecord_kept
    | with_reducible apply IoKept.ite
    | with_reducible apply IoKept.foldl
    | with_reducible apply IoKept.put
    | with_reducible apply IoKept.filter
    | (fail_if_no_progress with_reducible apply IoKept.upd)
    | intro _
    | dsimp only
    | split

theorem State.endOp_frame (s : State) (i : Nat) (st : OpState) (status : Nat) (r0 : Nat) (r1 : Nat) (r2 : Nat) : Kept [.io, .ops, .answers] s (State.endOp s i st status r0 r1 r2) := by
  unfold State.endOp
  try dsimp only
  repeat' first
    | with_reducible exact Kept.refl _
    | ((with_reducible apply Laws.State.complete_kept); (case mhl => decide))
    | ((with_reducible apply Laws.State.setOp_kept); (case mhl => decide))
    | with_reducible apply Kept.ite
    | (fail_if_no_progress ((with_reducible apply Kept.upd); (case ho => (refine Only.of (fun p hp => ?_) rfl; cases p <;> first | rfl | (refine absurd ?_ hp; decide))); (case hi => (repeat' first | with_reducible exact IoKept.refl _ | with_reducible apply Laws.Io.endRecord_kept | with_reducible apply IoKept.ite | with_reducible apply IoKept.foldl | with_reducible apply IoKept.put | with_reducible apply IoKept.filter | (fail_if_no_progress with_reducible apply IoKept.upd) | intro _ | dsimp only | split)); (case ht => exact T1Kept.refl _)))
    | intro _
    | dsimp only
    | split
theorem State.endOp_kept {ml : List StateField} {mz : State} {s : State} {i : Nat} {st : OpState} {status : Nat} {r0 : Nat} {r1 : Nat} {r2 : Nat} (mhl : [.io, .ops, .answers] ⊆ ml) (mh : Kept ml mz s) : Kept ml mz (State.endOp s i st status r0 r1 r2) :=
  Kept.after ((State.endOp_frame s i st status r0 r1 r2).mono mhl) mh

theorem State.beginOp_kept {ml : List StateField} {mz : State} {s : State} {c : Cmd} {opcode : Nat} {args : List Nat} {wait : Bool} {body : Nat → State → State} (mhl : [.io, .ops, .answers] ⊆ ml) (hbody : ∀ a0 a1, Kept ml a1 (body a0 a1)) (mh : Kept ml mz s) : Kept ml mz (State.beginOp s c opcode args wait body) := by
  refine Kept.after ?_ mh
  unfold State.beginOp
  try dsimp only
  repeat' first
    | with_reducible exact Kept.refl _
    | (with_reducible apply Kept.after (hbody _ _))
    | ((with_reducible apply Laws.State.complete_kept); (case mhl => first | decide | (refine sub mhl ?_; decide)))
    | ((with_reducible apply Laws.State.moveOp_kept); (case mhl => first | decide | (refine sub mhl ?_; decide)))
    | ((with_reducible apply Laws.State.newOp_kept ?mhl (by assumption)); (case mhl => first | decide | (refine sub mhl ?_; decide)))
    | ((with_reducible apply Laws.State.refuse_kept); (case mhl => first | decide | (refine sub mhl ?_; decide)))
    | with_reducible apply Kept.ite
    | (fail_if_no_progress ((with_reducible apply Kept.upd); (case ho => (refine Only.of (fun p hp => ?_) rfl; cases p <;> first | rfl | (refine absurd (mhl ?_) hp; decide))); (case hi => (repeat' first | with_reducible exact IoKept.refl _ | with_reducible apply IoKept.ite | with_reducible apply IoKept.foldl | with_reducible apply IoKept.put | with_reducible apply IoKept.filter | (fail_if_no_progress with_reducible apply IoKept.upd) | intro _ | dsimp only | split)); (case ht => exact T1Kept.refl _)))
    | intro _
    | dsimp only
    | split

theorem State.freeOp_frame (s : State) (i : Nat) : Kept [.ops] s (State.freeOp s i) := by
  unfold State.freeOp
  try dsimp only
  repeat' first
    | with_reducible exact Kept.refl _
    | ((with_reducible apply Laws.State.setOp_kept); (case mhl => decide))
    | with_reducible apply Kept.ite
    | intro _
    | dsimp only
    | split
theorem State.freeOp_kept {ml : List StateField} {mz : State} {s : State} {i : Nat} (mhl : [.ops] ⊆ ml) (mh : Kept ml mz s) : Kept ml mz (State.freeOp s i) :=
  Kept.after ((State.freeOp_frame s i).mono mhl) mh

end Sys2Proof.Laws
end

