-- ==== Sys2Proof/Laws/KeptRegOps.lean ====
section
/-! SUPPORT. The frame lemma of every operation of Machine/RegOps.lean: which fields of the state it may change, and that it keeps the canonical
forms. -/

set_option Elab.async false
set_option linter.unusedTactic false
set_option linter.unreachableTactic false
set_option linter.unusedVariables false

namespace Sys2Proof.Laws

open Sys2Proof Sys2Proof.Machine Sys2Proof.Safety

theorem State.deny_frame (s : State) (n : Nat) : Kept [.io] s (State.deny s n) := by
  unfold State.deny
  try dsimp only
  repeat' first
    | with_reducible exact Kept.refl _
    | ((with_reducible apply Laws.State.bump_kept); (case mhl => decide))
    | with_reducible apply Kept.ite
    | intro _
    | dsimp only
    | split
theorem State.deny_kept {ml : List StateField} {mz : State} {s : State} {n : Nat} (mhl : [.io] ⊆ ml) (mh : Kept ml mz s) : Kept ml mz (State.deny s n) :=
  Kept.after ((State.deny_frame s n).mono mhl) mh

theorem State.store_frame (s : State) (w : RegWrite) (off : Nat) : Kept [.io] s (State.store s w off) := by
  unfold State.store
  try dsimp only
  repeat' first
    | with_reducible exact Kept.refl _
    | ((with_reducible apply Laws.State.setReg_kept); (case mhl => decide))
    | with_reducible apply Kept.ite
    | (fail_if_no_progress ((with_reducible apply Kept.upd); (case ho => (refine Only.of (fun p hp => ?_) rfl; cases p <;> first | rfl | (refine absurd ?_ hp; decide))); (case hi => (repeat' first | with_reducible exact IoKept.refl _ | with_reducible apply Laws.Io.setReg_kept | with_reducible apply IoKept.ite | with_reducible apply IoKept.foldl | with_reducible apply IoKept.put | with_reducible apply IoKept.filter | (fail_if_no_progress with_reducible apply IoKept.upd) | intro _ | dsimp only | split)); (case ht => exact T1Kept.refl _)))
    | intro _
    | dsimp only
    | split
theorem State.store_kept {ml : List StateField} {mz : State} {s : State} {w : RegWrite} {off : Nat} (mhl : [.io] ⊆ ml) (mh : Kept ml mz s) : Kept ml mz (State.store s w off) :=
  Kept.after ((State.store_frame s w off).mono mhl) mh

theorem State.fromPort_kept {ml : List StateField} {mz : State} {s : State} {w : RegWrite} {off : Nat} {f : State → State} (mhl : [.io] ⊆ ml) (hf : ∀ a0, Kept ml a0 (f a0)) (mh : Kept ml mz s) : Kept ml mz (State.fromPort s w off f) := by
  refine Kept.after ?_ mh
  unfold State.fromPort
  try dsimp only
  repeat' first
    | with_reducible exact Kept.refl _
    | (with_reducible apply Kept.after (hf _))
    | ((with_reducible apply Laws.State.deny_kept); (case mhl => first | decide | (refine sub mhl ?_; decide)))
    | ((with_reducible apply Kept.iteL); case k => ((repeat' first | with_reducible exact Kept.refl _ | (with_reducible apply Kept.after (hf _)) | ((with_reducible apply Laws.State.deny_kept); (case mhl => first | decide | (refine sub mhl ?_; decide))) | with_reducible apply Kept.ite | intro _ | dsimp only | split); done))
    | ((with_reducible apply Kept.iteR); case k => ((repeat' first | with_reducible exact Kept.refl _ | (with_reducible apply Kept.after (hf _)) | ((with_reducible apply Laws.State.deny_kept); (case mhl => first | decide | (refine sub mhl ?_; decide))) | with_reducible apply Kept.ite | intro _ | dsimp only | split); done))
    | with_reducible apply Kept.ite
    | intro _
    | dsimp only
    | split

theorem State.storePut_frame (s : State) (w : RegWrite) (f : RegField) (x : Nat) : Kept [.io] s (State.storePut s w f x) := by
  unfold State.storePut
  try dsimp only
  repeat' first
    | with_reducible exact Kept.refl _
    | ((with_reducible apply Laws.State.put_kept); (case mhl => decide))
    | ((with_reducible apply Laws.State.store_kept); (case mhl => decide))
    | with_reducible apply Kept.ite
    | intro _
    | dsimp only
    | split
theorem State.storePut_kept {ml : List StateField} {mz : State} {s : State} {w : RegWrite} {f : RegField} {x : Nat} (mhl : [.io] ⊆ ml) (mh : Kept ml mz s) : Kept ml mz (State.storePut s w f x) :=
  Kept.after ((State.storePut_frame s w f x).mono mhl) mh

theorem State.enGate_frame (s : State) (en : RegField) : Kept [.io] s (State.enGate s en) := by
  unfold State.enGate
  try dsimp only
  repeat' first
    | with_reducible exact Kept.refl _
    | ((with_reducible apply Laws.State.put_kept); (case mhl => decide))
    | with_reducible apply Kept.ite
    | intro _
    | dsimp only
    | split
theorem State.enGate_kept {ml : List StateField} {mz : State} {s : State} {en : RegField} (mhl : [.io] ⊆ ml) (mh : Kept ml mz s) : Kept ml mz (State.enGate s en) :=
  Kept.after ((State.enGate_frame s en).mono mhl) mh

end Sys2Proof.Laws
end

