-- ==== Sys2Proof/Laws/KeptHostOps.lean ====
section
/-! SUPPORT. The frame lemma of every operation of Machine/HostOps.lean: which fields of the state it may change, and that it keeps the canonical
forms. -/

set_option Elab.async false
set_option linter.unusedTactic false
set_option linter.unreachableTactic false
set_option linter.unusedVariables false

namespace Sys2Proof.Laws

open Sys2Proof Sys2Proof.Machine Sys2Proof.Safety

theorem Io.stopQueue_kept {q : Nat} {io : Io} {mz : Io} (mh : IoKept mz io) : IoKept mz (Io.stopQueue q io) := by
  refine mh.trans ?_
  unfold Io.stopQueue
  try dsimp only
  repeat' first
    | with_reducible exact IoKept.refl _
    | with_reducible apply Laws.Io.put_kept
    | with_reducible apply IoKept.ite
    | with_reducible apply IoKept.foldl
    | with_reducible apply IoKept.put
    | with_reducible apply IoKept.filter
    | (fail_if_no_progress with_reducible apply IoKept.upd)
    | intro _
    | dsimp only
    | split

theorem Io.stopRing_kept {r : Nat} {io : Io} {mz : Io} (mh : IoKept mz io) : IoKept mz (Io.stopRing r io) := by
  refine mh.trans ?_
  unfold Io.stopRing
  try dsimp only
  repeat' first
    | with_reducible exact IoKept.refl _
    | with_reducible apply Laws.Io.put_kept
    | with_reducible apply IoKept.ite
    | with_reducible apply IoKept.foldl
    | with_reducible apply IoKept.put
    | with_reducible apply IoKept.filter
    | (fail_if_no_progress with_reducible apply IoKept.upd)
    | intro _
    | dsimp only
    | split

theorem Io.detachQueue_kept {n q : Nat} {io : Io} {mz : Io} (mh : IoKept mz io) : IoKept mz (Io.detachQueue n q io) := by
  refine mh.trans ?_
  unfold Io.detachQueue
  try dsimp only
  repeat' first
    | with_reducible exact IoKept.refl _
    | with_reducible apply Laws.Io.setQueue_kept
    | with_reducible apply IoKept.ite
    | with_reducible apply IoKept.foldl
    | with_reducible apply IoKept.put
    | with_reducible apply IoKept.filter
    | (fail_if_no_progress with_reducible apply IoKept.upd)
    | intro _
    | dsimp only
    | split

theorem Io.resetQueue_kept {q : Nat} {io : Io} {mz : Io} (mh : IoKept mz io) : IoKept mz (Io.resetQueue q io) := by
  refine mh.trans ?_
  unfold Io.resetQueue
  try dsimp only
  repeat' first
    | with_reducible exact IoKept.refl _
    | with_reducible apply Laws.Io.setQueue_kept
    | with_reducible apply IoKept.ite
    | with_reducible apply IoKept.foldl
    | with_reducible apply IoKept.put
    | with_reducible apply IoKept.filter
    | (fail_if_no_progress with_reducible apply IoKept.upd)
    | intro _
    | dsimp only
    | split

theorem Io.detachCommands_kept {n : Nat} {io : Io} {mz : Io} (mh : IoKept mz io) : IoKept mz (Io.detachCommands n io) := by
  refine mh.trans ?_
  unfold Io.detachCommands
  try dsimp only
  repeat' first
    | with_reducible exact IoKept.refl _
    | with_reducible apply Laws.Io.detachQueue_kept
    | with_reducible apply Laws.Io.stopQueue_kept
    | with_reducible apply Laws.Io.stopRing_kept
    | with_reducible apply IoKept.ite
    | with_reducible apply IoKept.foldl
    | with_reducible apply IoKept.put
    | with_reducible apply IoKept.filter
    | (fail_if_no_progress with_reducible apply IoKept.upd)
    | intro _
    | dsimp only
    | split

theorem Io.detachPort_kept {n : Nat} {io : Io} {mz : Io} (mh : IoKept mz io) : IoKept mz (Io.detachPort n io) := by
  refine mh.trans ?_
  unfold Io.detachPort
  try dsimp only
  repeat' first
    | with_reducible exact IoKept.refl _
    | with_reducible apply Laws.Io.detachCommands_kept
    | with_reducible apply Laws.Io.put_kept
    | with_reducible apply Laws.Io.resetQueue_kept
    | with_reducible apply IoKept.ite
    | with_reducible apply IoKept.foldl
    | with_reducible apply IoKept.put
    | with_reducible apply IoKept.filter
    | (fail_if_no_progress with_reducible apply IoKept.upd)
    | intro _
    | dsimp only
    | split

theorem State.endSessions_frame (s : State) (n : Nat) : Kept [.io, .sec] s (State.endSessions s n) := by
  unfold State.endSessions
  try dsimp only
  repeat' first
    | with_reducible exact Kept.refl _
    | ((with_reducible apply Laws.State.put_kept); (case mhl => decide))
    | with_reducible apply Kept.ite
    | with_reducible apply Kept.foldl
    | with_reducible apply Kept.foldlFst
    | with_reducible apply Kept.foldlSnd
    | (fail_if_no_progress ((with_reducible apply Kept.upd); (case ho => (refine Only.of (fun p hp => ?_) rfl; cases p <;> first | rfl | (refine absurd ?_ hp; decide))); (case hi => (repeat' first | with_reducible exact IoKept.refl _ | with_reducible apply Laws.Io.put_kept | with_reducible apply IoKept.ite | with_reducible apply IoKept.foldl | with_reducible apply IoKept.put | with_reducible apply IoKept.filter | (fail_if_no_progress with_reducible apply IoKept.upd) | intro _ | dsimp only | split)); (case ht => exact T1Kept.refl _)))
    | intro _
    | dsimp only
    | split
theorem State.endSessions_kept {ml : List StateField} {mz : State} {s : State} {n : Nat} (mhl : [.io, .sec] ⊆ ml) (mh : Kept ml mz s) : Kept ml mz (State.endSessions s n) :=
  Kept.after ((State.endSessions_frame s n).mono mhl) mh

theorem State.detachPort_frame (s : State) (n : Nat) : Kept [.io, .sec] s (State.detachPort s n) := by
  unfold State.detachPort
  try dsimp only
  repeat' first
    | with_reducible exact Kept.refl _
    | ((with_reducible apply Laws.State.endSessions_kept); (case mhl => decide))
    | with_reducible apply Kept.ite
    | (fail_if_no_progress ((with_reducible apply Kept.upd); (case ho => (refine Only.of (fun p hp => ?_) rfl; cases p <;> first | rfl | (refine absurd ?_ hp; decide))); (case hi => (repeat' first | with_reducible exact IoKept.refl _ | with_reducible apply Laws.Io.detachPort_kept | with_reducible apply IoKept.ite | with_reducible apply IoKept.foldl | with_reducible apply IoKept.put | with_reducible apply IoKept.filter | (fail_if_no_progress with_reducible apply IoKept.upd) | intro _ | dsimp only | split)); (case ht => exact T1Kept.refl _)))
    | intro _
    | dsimp only
    | split
theorem State.detachPort_kept {ml : List StateField} {mz : State} {s : State} {n : Nat} (mhl : [.io, .sec] ⊆ ml) (mh : Kept ml mz s) : Kept ml mz (State.detachPort s n) :=
  Kept.after ((State.detachPort_frame s n).mono mhl) mh

theorem State.clearBinding_frame (s : State) (n : Nat) : Kept [.io] s (State.clearBinding s n) := by
  unfold State.clearBinding
  try dsimp only
  repeat' first
    | with_reducible exact Kept.refl _
    | ((with_reducible apply Laws.State.setReg_kept); (case mhl => decide))
    | with_reducible apply Kept.ite
    | with_reducible apply Kept.foldl
    | with_reducible apply Kept.foldlFst
    | with_reducible apply Kept.foldlSnd
    | intro _
    | dsimp only
    | split
theorem State.clearBinding_kept {ml : List StateField} {mz : State} {s : State} {n : Nat} (mhl : [.io] ⊆ ml) (mh : Kept ml mz s) : Kept ml mz (State.clearBinding s n) :=
  Kept.after ((State.clearBinding_frame s n).mono mhl) mh

theorem State.queueError_frame (s : State) (q reason tag : Nat) : Kept [.io] s (State.queueError s q reason tag) := by
  unfold State.queueError
  try dsimp only
  repeat' first
    | with_reducible exact Kept.refl _
    | ((with_reducible apply Laws.State.put_kept); (case mhl => decide))
    | ((with_reducible apply Laws.State.raise_kept); (case mhl => decide))
    | with_reducible apply Kept.ite
    | intro _
    | dsimp only
    | split
theorem State.queueError_kept {ml : List StateField} {mz : State} {s : State} {q reason tag : Nat} (mhl : [.io] ⊆ ml) (mh : Kept ml mz s) : Kept ml mz (State.queueError s q reason tag) :=
  Kept.after ((State.queueError_frame s q reason tag).mono mhl) mh

theorem State.fetch_frame (s : State) (q : Nat) (b : List Byte) : Kept [.io, .answers] s (State.fetch s q b) := by
  unfold State.fetch
  try dsimp only
  repeat' first
    | with_reducible exact Kept.refl _
    | ((with_reducible apply Laws.State.put_kept); (case mhl => decide))
    | ((with_reducible apply Laws.State.turnAway_kept); (case mhl => decide))
    | ((with_reducible apply Kept.iteL); case k => ((repeat' first | with_reducible exact Kept.refl _ | ((with_reducible apply Laws.State.put_kept); (case mhl => decide)) | ((with_reducible apply Laws.State.turnAway_kept); (case mhl => decide)) | with_reducible apply Kept.ite | (fail_if_no_progress ((with_reducible apply Kept.upd); (case ho => (refine Only.of (fun p hp => ?_) rfl; cases p <;> first | rfl | (refine absurd ?_ hp; decide))); (case hi => (repeat' first | with_reducible exact IoKept.refl _ | with_reducible apply Laws.Io.put_kept | with_reducible apply Laws.Io.setQueue_kept | with_reducible apply IoKept.ite | with_reducible apply IoKept.foldl | with_reducible apply IoKept.put | with_reducible apply IoKept.filter | (fail_if_no_progress with_reducible apply IoKept.upd) | intro _ | dsimp only | split)); (case ht => exact T1Kept.refl _))) | intro _ | dsimp only | split); done))
    | ((with_reducible apply Kept.iteR); case k => ((repeat' first | with_reducible exact Kept.refl _ | ((with_reducible apply Laws.State.put_kept); (case mhl => decide)) | ((with_reducible apply Laws.State.turnAway_kept); (case mhl => decide)) | with_reducible apply Kept.ite | (fail_if_no_progress ((with_reducible apply Kept.upd); (case ho => (refine Only.of (fun p hp => ?_) rfl; cases p <;> first | rfl | (refine absurd ?_ hp; decide))); (case hi => (repeat' first | with_reducible exact IoKept.refl _ | with_reducible apply Laws.Io.put_kept | with_reducible apply Laws.Io.setQueue_kept | with_reducible apply IoKept.ite | with_reducible apply IoKept.foldl | with_reducible apply IoKept.put | with_reducible apply IoKept.filter | (fail_if_no_progress with_reducible apply IoKept.upd) | intro _ | dsimp only | split)); (case ht => exact T1Kept.refl _))) | intro _ | dsimp only | split); done))
    | with_reducible apply Kept.ite
    | (fail_if_no_progress ((with_reducible apply Kept.upd); (case ho => (refine Only.of (fun p hp => ?_) rfl; cases p <;> first | rfl | (refine absurd ?_ hp; decide))); (case hi => (repeat' first | with_reducible exact IoKept.refl _ | with_reducible apply Laws.Io.put_kept | with_reducible apply Laws.Io.setQueue_kept | with_reducible apply IoKept.ite | with_reducible apply IoKept.foldl | with_reducible apply IoKept.put | with_reducible apply IoKept.filter | (fail_if_no_progress with_reducible apply IoKept.upd) | intro _ | dsimp only | split)); (case ht => exact T1Kept.refl _)))
    | intro _
    | dsimp only
    | split
theorem State.fetch_kept {ml : List StateField} {mz : State} {s : State} {q : Nat} {b : List Byte} (mhl : [.io, .answers] ⊆ ml) (mh : Kept ml mz s) : Kept ml mz (State.fetch s q b) :=
  Kept.after ((State.fetch_frame s q b).mono mhl) mh

end Sys2Proof.Laws
end

