-- ==== Sys2Proof/Laws/KeptMemOps.lean ====
section
/-! SUPPORT. The frame lemma of every operation of Machine/MemOps.lean: which fields of the state it may change, and that it keeps the canonical
forms. -/

set_option Elab.async false
set_option linter.unusedTactic false
set_option linter.unreachableTactic false
set_option linter.unusedVariables false

namespace Sys2Proof.Laws

open Sys2Proof Sys2Proof.Machine Sys2Proof.Safety

theorem State.addPoison_frame (s : State) (blk : Nat) : Kept [.io, .t1] s (State.addPoison s blk) := by
  unfold State.addPoison
  try dsimp only
  repeat' first
    | with_reducible exact Kept.refl _
    | ((with_reducible apply Laws.State.raise_kept); (case mhl => decide))
    | ((with_reducible apply Kept.iteL); case k => ((repeat' first | with_reducible exact Kept.refl _ | ((with_reducible apply Laws.State.raise_kept); (case mhl => decide)) | with_reducible apply Kept.ite | (fail_if_no_progress ((with_reducible apply Kept.upd); (case ho => (refine Only.of (fun p hp => ?_) rfl; cases p <;> first | rfl | (refine absurd ?_ hp; decide))); (case hi => (repeat' first | with_reducible exact IoKept.refl _ | with_reducible apply Laws.Io.raise_kept | with_reducible apply IoKept.ite | with_reducible apply IoKept.foldl | with_reducible apply IoKept.put | with_reducible apply IoKept.filter | (fail_if_no_progress with_reducible apply IoKept.upd) | intro _ | dsimp only | split)); (case ht => (repeat' first | with_reducible exact T1Kept.refl _ | with_reducible apply T1Kept.ite | with_reducible apply T1Kept.foldl | with_reducible apply T1Kept.put | with_reducible apply T1Kept.filter | (fail_if_no_progress with_reducible apply T1Kept.upd) | intro _ | dsimp only | split)))) | intro _ | dsimp only | split); done))
    | ((with_reducible apply Kept.iteR); case k => ((repeat' first | with_reducible exact Kept.refl _ | ((with_reducible apply Laws.State.raise_kept); (case mhl => decide)) | with_reducible apply Kept.ite | (fail_if_no_progress ((with_reducible apply Kept.upd); (case ho => (refine Only.of (fun p hp => ?_) rfl; cases p <;> first | rfl | (refine absurd ?_ hp; decide))); (case hi => (repeat' first | with_reducible exact IoKept.refl _ | with_reducible apply Laws.Io.raise_kept | with_reducible apply IoKept.ite | with_reducible apply IoKept.foldl | with_reducible apply IoKept.put | with_reducible apply IoKept.filter | (fail_if_no_progress with_reducible apply IoKept.upd) | intro _ | dsimp only | split)); (case ht => (repeat' first | with_reducible exact T1Kept.refl _ | with_reducible apply T1Kept.ite | with_reducible apply T1Kept.foldl | with_reducible apply T1Kept.put | with_reducible apply T1Kept.filter | (fail_if_no_progress with_reducible apply T1Kept.upd) | intro _ | dsimp only | split)))) | intro _ | dsimp only | split); done))
    | with_reducible apply Kept.ite
    | (fail_if_no_progress ((with_reducible apply Kept.upd); (case ho => (refine Only.of (fun p hp => ?_) rfl; cases p <;> first | rfl | (refine absurd ?_ hp; decide))); (case hi => (repeat' first | with_reducible exact IoKept.refl _ | with_reducible apply Laws.Io.raise_kept | with_reducible apply IoKept.ite | with_reducible apply IoKept.foldl | with_reducible apply IoKept.put | with_reducible apply IoKept.filter | (fail_if_no_progress with_reducible apply IoKept.upd) | intro _ | dsimp only | split)); (case ht => (repeat' first | with_reducible exact T1Kept.refl _ | with_reducible apply T1Kept.ite | with_reducible apply T1Kept.foldl | with_reducible apply T1Kept.put | with_reducible apply T1Kept.filter | (fail_if_no_progress with_reducible apply T1Kept.upd) | intro _ | dsimp only | split))))
    | intro _
    | dsimp only
    | split
theorem State.addPoison_kept {ml : List StateField} {mz : State} {s : State} {blk : Nat} (mhl : [.io, .t1] ⊆ ml) (mh : Kept ml mz s) : Kept ml mz (State.addPoison s blk) :=
  Kept.after ((State.addPoison_frame s blk).mono mhl) mh

theorem Tier1.write_kept {t : Tier1} {domain : Nat} {keys : List Byte} {addr : Nat} {bytes : List Byte} {mz : Tier1} (mh : T1Kept mz t) : T1Kept mz (Tier1.write t domain keys addr bytes) := by
  refine mh.trans ?_
  unfold Tier1.write
  try dsimp only
  repeat' first
    | with_reducible exact T1Kept.refl _
    | with_reducible apply T1Kept.ite
    | with_reducible apply T1Kept.foldl
    | with_reducible apply T1Kept.put
    | with_reducible apply T1Kept.filter
    | (fail_if_no_progress with_reducible apply T1Kept.upd)
    | intro _
    | dsimp only
    | split

theorem State.noteBlock_frame (s : State) (blk : Nat) (r : BlockRead) : Kept [.io, .t1] s (State.noteBlock s blk r) := by
  unfold State.noteBlock
  try dsimp only
  repeat' first
    | with_reducible exact Kept.refl _
    | ((with_reducible apply Laws.State.addPoison_kept); (case mhl => decide))
    | ((with_reducible apply Laws.State.raise_kept); (case mhl => decide))
    | with_reducible apply Kept.ite
    | (fail_if_no_progress ((with_reducible apply Kept.upd); (case ho => (refine Only.of (fun p hp => ?_) rfl; cases p <;> first | rfl | (refine absurd ?_ hp; decide))); (case hi => (repeat' first | with_reducible exact IoKept.refl _ | with_reducible apply Laws.Io.raise_kept | with_reducible apply IoKept.ite | with_reducible apply IoKept.foldl | with_reducible apply IoKept.put | with_reducible apply IoKept.filter | (fail_if_no_progress with_reducible apply IoKept.upd) | intro _ | dsimp only | split)); (case ht => (repeat' first | with_reducible exact T1Kept.refl _ | with_reducible apply T1Kept.ite | with_reducible apply T1Kept.foldl | with_reducible apply T1Kept.put | with_reducible apply T1Kept.filter | (fail_if_no_progress with_reducible apply T1Kept.upd) | intro _ | dsimp only | split))))
    | intro _
    | dsimp only
    | split
theorem State.noteBlock_kept {ml : List StateField} {mz : State} {s : State} {blk : Nat} {r : BlockRead} (mhl : [.io, .t1] ⊆ ml) (mh : Kept ml mz s) : Kept ml mz (State.noteBlock s blk r) :=
  Kept.after ((State.noteBlock_frame s blk r).mono mhl) mh

theorem State.afterBlock_frame (s : State) (domain blk : Nat) : Kept [.io, .t1] s (State.afterBlock s domain blk) := by
  unfold State.afterBlock
  try dsimp only
  repeat' first
    | with_reducible exact Kept.refl _
    | ((with_reducible apply Laws.State.noteBlock_kept); (case mhl => decide))
    | with_reducible apply Kept.ite
    | intro _
    | dsimp only
    | split
theorem State.afterBlock_kept {ml : List StateField} {mz : State} {s : State} {domain blk : Nat} (mhl : [.io, .t1] ⊆ ml) (mh : Kept ml mz s) : Kept ml mz (State.afterBlock s domain blk) :=
  Kept.after ((State.afterBlock_frame s domain blk).mono mhl) mh

theorem State.afterBlockRead_frame (s : State) (domain blk : Nat) : Kept [.io, .t1] s (State.afterBlockRead s domain blk) := by
  unfold State.afterBlockRead
  try dsimp only
  repeat' first
    | with_reducible exact Kept.refl _
    | ((with_reducible apply Laws.State.afterBlock_kept); (case mhl => decide))
    | with_reducible apply Kept.ite
    | (fail_if_no_progress ((with_reducible apply Kept.upd); (case ho => (refine Only.of (fun p hp => ?_) rfl; cases p <;> first | rfl | (refine absurd ?_ hp; decide))); (case hi => (repeat' first | with_reducible exact IoKept.refl _ | with_reducible apply IoKept.ite | with_reducible apply IoKept.foldl | with_reducible apply IoKept.put | with_reducible apply IoKept.filter | (fail_if_no_progress with_reducible apply IoKept.upd) | intro _ | dsimp only | split)); (case ht => (repeat' first | with_reducible exact T1Kept.refl _ | with_reducible apply Laws.Tier1.write_kept | with_reducible apply T1Kept.ite | with_reducible apply T1Kept.foldl | with_reducible apply T1Kept.put | with_reducible apply T1Kept.filter | (fail_if_no_progress with_reducible apply T1Kept.upd) | intro _ | dsimp only | split))))
    | intro _
    | dsimp only
    | split
theorem State.afterBlockRead_kept {ml : List StateField} {mz : State} {s : State} {domain blk : Nat} (mhl : [.io, .t1] ⊆ ml) (mh : Kept ml mz s) : Kept ml mz (State.afterBlockRead s domain blk) :=
  Kept.after ((State.afterBlockRead_frame s domain blk).mono mhl) mh

theorem State.afterRead_frame (s : State) (domain addr n : Nat) : Kept [.io, .t1] s (State.afterRead s domain addr n) := by
  unfold State.afterRead
  try dsimp only
  repeat' first
    | with_reducible exact Kept.refl _
    | ((with_reducible apply Laws.State.afterBlockRead_kept); (case mhl => decide))
    | with_reducible apply Kept.ite
    | with_reducible apply Kept.foldl
    | with_reducible apply Kept.foldlFst
    | with_reducible apply Kept.foldlSnd
    | intro _
    | dsimp only
    | split
theorem State.afterRead_kept {ml : List StateField} {mz : State} {s : State} {domain addr n : Nat} (mhl : [.io, .t1] ⊆ ml) (mh : Kept ml mz s) : Kept ml mz (State.afterRead s domain addr n) :=
  Kept.after ((State.afterRead_frame s domain addr n).mono mhl) mh

theorem State.writeT1_frame (s : State) (domain addr : Nat) (bytes : List Byte) : Kept [.t1] s (State.writeT1 s domain addr bytes) := by
  unfold State.writeT1
  try dsimp only
  repeat' first
    | with_reducible exact Kept.refl _
    | with_reducible apply Kept.ite
    | with_reducible apply Kept.foldl
    | with_reducible apply Kept.foldlFst
    | with_reducible apply Kept.foldlSnd
    | (fail_if_no_progress ((with_reducible apply Kept.upd); (case ho => (refine Only.of (fun p hp => ?_) rfl; cases p <;> first | rfl | (refine absurd ?_ hp; decide))); (case hi => exact IoKept.refl _); (case ht => (repeat' first | with_reducible exact T1Kept.refl _ | with_reducible apply Laws.Tier1.write_kept | with_reducible apply T1Kept.ite | with_reducible apply T1Kept.foldl | with_reducible apply T1Kept.put | with_reducible apply T1Kept.filter | (fail_if_no_progress with_reducible apply T1Kept.upd) | intro _ | dsimp only | split))))
    | intro _
    | dsimp only
    | split
theorem State.writeT1_kept {ml : List StateField} {mz : State} {s : State} {domain addr : Nat} {bytes : List Byte} (mhl : [.t1] ⊆ ml) (mh : Kept ml mz s) : Kept ml mz (State.writeT1 s domain addr bytes) :=
  Kept.after ((State.writeT1_frame s domain addr bytes).mono mhl) mh

theorem Tier1.clear_kept {t : Tier1} {start len : Nat} {mz : Tier1} (mh : T1Kept mz t) : T1Kept mz (Tier1.clear t start len) := by
  refine mh.trans ?_
  unfold Tier1.clear
  try dsimp only
  repeat' first
    | with_reducible exact T1Kept.refl _
    | with_reducible apply T1Kept.ite
    | with_reducible apply T1Kept.foldl
    | with_reducible apply T1Kept.put
    | with_reducible apply T1Kept.filter
    | (fail_if_no_progress with_reducible apply T1Kept.upd)
    | intro _
    | dsimp only
    | split

theorem Tier1.free_kept {t : Tier1} {start len : Nat} {mz : Tier1} (mh : T1Kept mz t) : T1Kept mz (Tier1.free t start len) := by
  refine mh.trans ?_
  unfold Tier1.free
  try dsimp only
  repeat' first
    | with_reducible exact T1Kept.refl _
    | with_reducible apply T1Kept.ite
    | with_reducible apply T1Kept.foldl
    | with_reducible apply T1Kept.put
    | with_reducible apply T1Kept.filter
    | (fail_if_no_progress with_reducible apply T1Kept.upd)
    | intro _
    | dsimp only
    | split

theorem Tier1.own_kept {t : Tier1} {start len : Nat} {o : Owner} {mz : Tier1} (mh : T1Kept mz t) : T1Kept mz (Tier1.own t start len o) := by
  refine mh.trans ?_
  unfold Tier1.own
  try dsimp only
  repeat' first
    | with_reducible exact T1Kept.refl _
    | with_reducible apply Laws.Tier1.free_kept
    | with_reducible apply T1Kept.ite
    | with_reducible apply T1Kept.foldl
    | with_reducible apply T1Kept.put
    | with_reducible apply T1Kept.filter
    | (fail_if_no_progress with_reducible apply T1Kept.upd)
    | intro _
    | dsimp only
    | split

theorem State.alloc_frame (s : State) (h n align : Nat) (o : Owner) {v0 : Nat} {v1 : State} (me : State.alloc s h n align o = some (v0, v1)) : Kept [.t1] s v1 := by
  unfold State.alloc at me
  try dsimp only at me
  repeat' first
    | contradiction
    | (cases me; done)
    | cases me
    | (rw [Option.map_eq_some_iff] at me; obtain ⟨_, _, me⟩ := me; cases me)
    | (rw [Option.bind_eq_some_iff] at me; obtain ⟨_, _, me⟩ := me)
    | split at me
  all_goals
    repeat' first
      | with_reducible exact Kept.refl _
      | with_reducible apply Kept.ite
      | (fail_if_no_progress ((with_reducible apply Kept.upd); (case ho => (refine Only.of (fun p hp => ?_) rfl; cases p <;> first | rfl | (refine absurd ?_ hp; decide))); (case hi => exact IoKept.refl _); (case ht => (repeat' first | with_reducible exact T1Kept.refl _ | with_reducible apply Laws.Tier1.own_kept | with_reducible apply T1Kept.ite | with_reducible apply T1Kept.foldl | with_reducible apply T1Kept.put | with_reducible apply T1Kept.filter | (fail_if_no_progress with_reducible apply T1Kept.upd) | intro _ | dsimp only | split))))
      | intro _
      | dsimp only
      | split
theorem State.alloc_kept {ml : List StateField} {mz : State} {s : State} {h n align : Nat} {o : Owner} {v0 : Nat} {v1 : State} (mhl : [.t1] ⊆ ml) (me : State.alloc s h n align o = some (v0, v1)) (mh : Kept ml mz s) : Kept ml mz v1 :=
  Kept.after ((State.alloc_frame s h n align o me).mono mhl) mh

theorem State.allocWide_frame (s : State) (h n : Nat) (o : Owner) {v0 : Nat} {v1 : State} (me : State.allocWide s h n o = some (v0, v1)) : Kept [.t1] s v1 := by
  unfold State.allocWide at me
  cases ha : s.alloc h n 1 o with
  | some r =>
    rw [ha] at me
    cases me
    exact State.alloc_kept (by decide) ha (Kept.refl _)
  | none =>
    rw [ha] at me
    simp only [HOrElse.hOrElse, OrElse.orElse, Option.orElse] at me
    rw [Option.map_eq_some_iff] at me
    obtain ⟨g, _, me⟩ := me
    cases me
    exact Kept.upd (Only.of (fun p hp => by cases p <;> first | rfl | (refine absurd ?_ hp; decide)) rfl) (IoKept.refl _) (Tier1.own_kept (T1Kept.refl _)) (Kept.refl _)
theorem State.allocWide_kept {ml : List StateField} {mz : State} {s : State} {h n : Nat} {o : Owner} {v0 : Nat} {v1 : State} (mhl : [.t1] ⊆ ml) (me : State.allocWide s h n o = some (v0, v1)) (mh : Kept ml mz s) : Kept ml mz v1 :=
  Kept.after ((State.allocWide_frame s h n o me).mono mhl) mh

theorem State.quarantine_frame (s : State) (start len : Nat) : Kept [.t1] s (State.quarantine s start len) := by
  unfold State.quarantine
  try dsimp only
  repeat' first
    | with_reducible exact Kept.refl _
    | with_reducible apply Kept.ite
    | (fail_if_no_progress ((with_reducible apply Kept.upd); (case ho => (refine Only.of (fun p hp => ?_) rfl; cases p <;> first | rfl | (refine absurd ?_ hp; decide))); (case hi => exact IoKept.refl _); (case ht => (repeat' first | with_reducible exact T1Kept.refl _ | with_reducible apply Laws.Tier1.own_kept | with_reducible apply T1Kept.ite | with_reducible apply T1Kept.foldl | with_reducible apply T1Kept.put | with_reducible apply T1Kept.filter | (fail_if_no_progress with_reducible apply T1Kept.upd) | intro _ | dsimp only | split))))
    | intro _
    | dsimp only
    | split
theorem State.quarantine_kept {ml : List StateField} {mz : State} {s : State} {start len : Nat} (mhl : [.t1] ⊆ ml) (mh : Kept ml mz s) : Kept ml mz (State.quarantine s start len) :=
  Kept.after ((State.quarantine_frame s start len).mono mhl) mh

theorem State.quarantineOwned_frame (s : State) (p : Owner → Bool) : Kept [.t1] s (State.quarantineOwned s p) := by
  unfold State.quarantineOwned
  try dsimp only
  repeat' first
    | with_reducible exact Kept.refl _
    | ((with_reducible apply Laws.State.quarantine_kept); (case mhl => decide))
    | with_reducible apply Kept.ite
    | (fail_if_no_progress ((with_reducible apply Kept.upd); (case ho => (refine Only.of (fun p hp => ?_) rfl; cases p <;> first | rfl | (refine absurd ?_ hp; decide))); (case hi => exact IoKept.refl _); (case ht => (repeat' first | with_reducible exact T1Kept.refl _ | with_reducible apply T1Kept.ite | with_reducible apply T1Kept.foldl | with_reducible apply T1Kept.put | with_reducible apply T1Kept.filter | (fail_if_no_progress with_reducible apply T1Kept.upd) | intro _ | dsimp only | split))))
    | intro _
    | dsimp only
    | split
theorem State.quarantineOwned_kept {ml : List StateField} {mz : State} {s : State} {p : Owner → Bool} (mhl : [.t1] ⊆ ml) (mh : Kept ml mz s) : Kept ml mz (State.quarantineOwned s p) :=
  Kept.after ((State.quarantineOwned_frame s p).mono mhl) mh

theorem State.freeOwned_frame (s : State) (p : Owner → Bool) : Kept [.t1] s (State.freeOwned s p) := by
  unfold State.freeOwned
  try dsimp only
  repeat' first
    | with_reducible exact Kept.refl _
    | with_reducible apply Kept.ite
    | (fail_if_no_progress ((with_reducible apply Kept.upd); (case ho => (refine Only.of (fun p hp => ?_) rfl; cases p <;> first | rfl | (refine absurd ?_ hp; decide))); (case hi => exact IoKept.refl _); (case ht => (repeat' first | with_reducible exact T1Kept.refl _ | with_reducible apply T1Kept.ite | with_reducible apply T1Kept.foldl | with_reducible apply T1Kept.put | with_reducible apply T1Kept.filter | (fail_if_no_progress with_reducible apply T1Kept.upd) | intro _ | dsimp only | split))))
    | intro _
    | dsimp only
    | split
theorem State.freeOwned_kept {ml : List StateField} {mz : State} {s : State} {p : Owner → Bool} (mhl : [.t1] ⊆ ml) (mh : Kept ml mz s) : Kept ml mz (State.freeOwned s p) :=
  Kept.after ((State.freeOwned_frame s p).mono mhl) mh

theorem State.setResident_frame (s : State) (k : Nat) (r : Resident) : Kept [.prefetch] s (State.setResident s k r) := by
  unfold State.setResident
  try dsimp only
  repeat' first
    | with_reducible exact Kept.refl _
    | with_reducible apply Kept.ite
    | (fail_if_no_progress ((with_reducible apply Kept.upd); (case ho => (refine Only.of (fun p hp => ?_) rfl; cases p <;> first | rfl | (refine absurd ?_ hp; decide))); (case hi => exact IoKept.refl _); (case ht => exact T1Kept.refl _)))
    | intro _
    | dsimp only
    | split
theorem State.setResident_kept {ml : List StateField} {mz : State} {s : State} {k : Nat} {r : Resident} (mhl : [.prefetch] ⊆ ml) (mh : Kept ml mz s) : Kept ml mz (State.setResident s k r) :=
  Kept.after ((State.setResident_frame s k r).mono mhl) mh

theorem State.pfDrop_frame (s : State) (k : Nat) : Kept [.t1, .prefetch] s (State.pfDrop s k) := by
  unfold State.pfDrop
  try dsimp only
  repeat' first
    | with_reducible exact Kept.refl _
    | ((with_reducible apply Laws.State.quarantineOwned_kept); (case mhl => decide))
    | ((with_reducible apply Laws.State.setResident_kept); (case mhl => decide))
    | with_reducible apply Kept.ite
    | (fail_if_no_progress ((with_reducible apply Kept.upd); (case ho => (refine Only.of (fun p hp => ?_) rfl; cases p <;> first | rfl | (refine absurd ?_ hp; decide))); (case hi => exact IoKept.refl _); (case ht => (repeat' first | with_reducible exact T1Kept.refl _ | with_reducible apply T1Kept.ite | with_reducible apply T1Kept.foldl | with_reducible apply T1Kept.put | with_reducible apply T1Kept.filter | (fail_if_no_progress with_reducible apply T1Kept.upd) | intro _ | dsimp only | split))))
    | intro _
    | dsimp only
    | split
theorem State.pfDrop_kept {ml : List StateField} {mz : State} {s : State} {k : Nat} (mhl : [.t1, .prefetch] ⊆ ml) (mh : Kept ml mz s) : Kept ml mz (State.pfDrop s k) :=
  Kept.after ((State.pfDrop_frame s k).mono mhl) mh

theorem State.pfRead_frame (s : State) (k : Nat) (e : PfEntry) (copies : List (Nat × Nat)) : Kept [.io, .prefetch] s (State.pfRead s k e copies) := by
  unfold State.pfRead
  try dsimp only
  repeat' first
    | with_reducible exact Kept.refl _
    | ((with_reducible apply Laws.State.emit_kept); (case mhl => decide))
    | ((with_reducible apply Laws.State.setResident_kept); (case mhl => decide))
    | with_reducible apply Kept.ite
    | (fail_if_no_progress ((with_reducible apply Kept.upd); (case ho => (refine Only.of (fun p hp => ?_) rfl; cases p <;> first | rfl | (refine absurd ?_ hp; decide))); (case hi => (repeat' first | with_reducible exact IoKept.refl _ | with_reducible apply Laws.Io.emit_kept | with_reducible apply IoKept.ite | with_reducible apply IoKept.foldl | with_reducible apply IoKept.put | with_reducible apply IoKept.filter | (fail_if_no_progress with_reducible apply IoKept.upd) | intro _ | dsimp only | split)); (case ht => exact T1Kept.refl _)))
    | intro _
    | dsimp only
    | split
theorem State.pfRead_kept {ml : List StateField} {mz : State} {s : State} {k : Nat} {e : PfEntry} {copies : List (Nat × Nat)} (mhl : [.io, .prefetch] ⊆ ml) (mh : Kept ml mz s) : Kept ml mz (State.pfRead s k e copies) :=
  Kept.after ((State.pfRead_frame s k e copies).mono mhl) mh

theorem State.dropCopies_frame (s : State) (p : Nat → Bool) : Kept [.t1, .prefetch] s (State.dropCopies s p) := by
  unfold State.dropCopies
  try dsimp only
  repeat' first
    | with_reducible exact Kept.refl _
    | ((with_reducible apply Laws.State.quarantine_kept); (case mhl => decide))
    | ((with_reducible apply Laws.State.setResident_kept); (case mhl => decide))
    | with_reducible apply Kept.ite
    | with_reducible apply Kept.foldl
    | with_reducible apply Kept.foldlFst
    | with_reducible apply Kept.foldlSnd
    | with_reducible apply Kept.getD
    | (fail_if_no_progress ((with_reducible apply Kept.upd); (case ho => (refine Only.of (fun p hp => ?_) rfl; cases p <;> first | rfl | (refine absurd ?_ hp; decide))); (case hi => exact IoKept.refl _); (case ht => (repeat' first | with_reducible exact T1Kept.refl _ | with_reducible apply T1Kept.ite | with_reducible apply T1Kept.foldl | with_reducible apply T1Kept.put | with_reducible apply T1Kept.filter | (fail_if_no_progress with_reducible apply T1Kept.upd) | intro _ | dsimp only | split))))
    | intro _
    | dsimp only
    | split
theorem State.dropCopies_kept {ml : List StateField} {mz : State} {s : State} {p : Nat → Bool} (mhl : [.t1, .prefetch] ⊆ ml) (mh : Kept ml mz s) : Kept ml mz (State.dropCopies s p) :=
  Kept.after ((State.dropCopies_frame s p).mono mhl) mh

theorem State.rereadWeight_frame (s : State) (addr : Nat) {v0 : State} (me : State.rereadWeight s addr = some v0) : Kept [.io, .prefetch] s v0 := by
  unfold State.rereadWeight at me
  try dsimp only at me
  repeat' first
    | contradiction
    | (cases me; done)
    | cases me
    | (rw [Option.map_eq_some_iff] at me; obtain ⟨_, _, me⟩ := me; cases me)
    | (rw [Option.bind_eq_some_iff] at me; obtain ⟨_, _, me⟩ := me)
    | split at me
  all_goals
    repeat' first
      | with_reducible exact Kept.refl _
      | ((with_reducible apply Laws.State.pfRead_kept); (case mhl => decide))
      | with_reducible apply Kept.ite
      | intro _
      | dsimp only
      | split
theorem State.rereadWeight_kept {ml : List StateField} {mz : State} {s : State} {addr : Nat} {v0 : State} (mhl : [.io, .prefetch] ⊆ ml) (me : State.rereadWeight s addr = some v0) (mh : Kept ml mz s) : Kept ml mz v0 :=
  Kept.after ((State.rereadWeight_frame s addr me).mono mhl) mh

end Sys2Proof.Laws
end

