-- ==== Sys2Proof/Laws/KeptOperands.lean ====
section
/-! SUPPORT. The frame lemma of every operation of Machine/Operands.lean: which fields of the state it may change, and that it keeps the canonical
forms. -/

set_option Elab.async false
set_option linter.unusedTactic false
set_option linter.unreachableTactic false
set_option linter.unusedVariables false

namespace Sys2Proof.Laws

open Sys2Proof Sys2Proof.Machine Sys2Proof.Safety

theorem State.busFault_frame (s : State) (c : Cmd) (addr : Nat) : Kept [.io] s (State.busFault s c addr) := by
  unfold State.busFault
  try dsimp only
  repeat' first
    | with_reducible exact Kept.refl _
    | ((with_reducible apply Laws.State.raise_kept); (case mhl => decide))
    | with_reducible apply Kept.ite
    | (fail_if_no_progress ((with_reducible apply Kept.upd); (case ho => (refine Only.of (fun p hp => ?_) rfl; cases p <;> first | rfl | (refine absurd ?_ hp; decide))); (case hi => (repeat' first | with_reducible exact IoKept.refl _ | with_reducible apply Laws.Io.raise_kept | with_reducible apply IoKept.ite | with_reducible apply IoKept.foldl | with_reducible apply IoKept.put | with_reducible apply IoKept.filter | (fail_if_no_progress with_reducible apply IoKept.upd) | intro _ | dsimp only | split)); (case ht => exact T1Kept.refl _)))
    | intro _
    | dsimp only
    | split
theorem State.busFault_kept {ml : List StateField} {mz : State} {s : State} {c : Cmd} {addr : Nat} (mhl : [.io] ⊆ ml) (mh : Kept ml mz s) : Kept ml mz (State.busFault s c addr) :=
  Kept.after ((State.busFault_frame s c addr).mono mhl) mh

theorem State.readInFault_frame (s : State) (c : Cmd) (addr st : Nat) : Kept [.io] s (State.readInFault s c addr st) := by
  unfold State.readInFault
  try dsimp only
  repeat' first
    | with_reducible exact Kept.refl _
    | ((with_reducible apply Laws.State.busFault_kept); (case mhl => decide))
    | with_reducible apply Kept.ite
    | intro _
    | dsimp only
    | split
theorem State.readInFault_kept {ml : List StateField} {mz : State} {s : State} {c : Cmd} {addr st : Nat} (mhl : [.io] ⊆ ml) (mh : Kept ml mz s) : Kept ml mz (State.readInFault s c addr st) :=
  Kept.after ((State.readInFault_frame s c addr st).mono mhl) mh

theorem State.readNoted_frame (s : State) (c : Cmd) (addr n : Nat) : Kept [.io, .t1] s (State.readNoted s c addr n) := by
  unfold State.readNoted
  try dsimp only
  repeat' first
    | with_reducible exact Kept.refl _
    | ((with_reducible apply Laws.State.afterRead_kept); (case mhl => decide))
    | with_reducible apply Kept.ite
    | (fail_if_no_progress ((with_reducible apply Kept.upd); (case ho => (refine Only.of (fun p hp => ?_) rfl; cases p <;> first | rfl | (refine absurd ?_ hp; decide))); (case hi => (repeat' first | with_reducible exact IoKept.refl _ | with_reducible apply IoKept.ite | with_reducible apply IoKept.foldl | with_reducible apply IoKept.put | with_reducible apply IoKept.filter | (fail_if_no_progress with_reducible apply IoKept.upd) | intro _ | dsimp only | split)); (case ht => (repeat' first | with_reducible exact T1Kept.refl _ | with_reducible apply T1Kept.ite | with_reducible apply T1Kept.foldl | with_reducible apply T1Kept.put | with_reducible apply T1Kept.filter | (fail_if_no_progress with_reducible apply T1Kept.upd) | intro _ | dsimp only | split))))
    | intro _
    | dsimp only
    | split
theorem State.readNoted_kept {ml : List StateField} {mz : State} {s : State} {c : Cmd} {addr n : Nat} (mhl : [.io, .t1] ⊆ ml) (mh : Kept ml mz s) : Kept ml mz (State.readNoted s c addr n) :=
  Kept.after ((State.readNoted_frame s c addr n).mono mhl) mh

theorem State.writeOut_frame (s : State) (c : Cmd) (addr : Nat) (bytes : List Byte) {v0 : State} (me : State.writeOut s c addr bytes = .ok v0) : Kept [.io, .t1] s v0 := by
  unfold State.writeOut at me
  try dsimp only at me
  repeat' first
    | contradiction
    | (cases me; done)
    | cases me
    | (rw [Option.map_eq_some_iff] at me; obtain ⟨_, _, me⟩ := me; cases me)
    | (rw [Option.bind_eq_some_iff] at me; obtain ⟨_, _, me⟩ := me)
    | split at me
  all_goals
    repeat' first
      | with_reducible exact Kept.refl _
      | ((with_reducible apply Laws.State.bump_kept); (case mhl => decide))
      | ((with_reducible apply Laws.State.emit_kept); (case mhl => decide))
      | ((with_reducible apply Laws.State.writeT1_kept); (case mhl => decide))
      | ((with_reducible apply Kept.iteL); case k => ((repeat' first | with_reducible exact Kept.refl _ | ((with_reducible apply Laws.State.bump_kept); (case mhl => decide)) | ((with_reducible apply Laws.State.emit_kept); (case mhl => decide)) | ((with_reducible apply Laws.State.writeT1_kept); (case mhl => decide)) | with_reducible apply Kept.ite | (fail_if_no_progress ((with_reducible apply Kept.upd); (case ho => (refine Only.of (fun p hp => ?_) rfl; cases p <;> first | rfl | (refine absurd ?_ hp; decide))); (case hi => (repeat' first | with_reducible exact IoKept.refl _ | with_reducible apply Laws.Io.bump_kept | with_reducible apply Laws.Io.emit_kept | with_reducible apply IoKept.ite | with_reducible apply IoKept.foldl | with_reducible apply IoKept.put | with_reducible apply IoKept.filter | (fail_if_no_progress with_reducible apply IoKept.upd) | intro _ | dsimp only | split)); (case ht => (repeat' first | with_reducible exact T1Kept.refl _ | with_reducible apply T1Kept.ite | with_reducible apply T1Kept.foldl | with_reducible apply T1Kept.put | with_reducible apply T1Kept.filter | (fail_if_no_progress with_reducible apply T1Kept.upd) | intro _ | dsimp only | split)))) | intro _ | dsimp only | split); done))
      | ((with_reducible apply Kept.iteR); case k => ((repeat' first | with_reducible exact Kept.refl _ | ((with_reducible apply Laws.State.bump_kept); (case mhl => decide)) | ((with_reducible apply Laws.State.emit_kept); (case mhl => decide)) | ((with_reducible apply Laws.State.writeT1_kept); (case mhl => decide)) | with_reducible apply Kept.ite | (fail_if_no_progress ((with_reducible apply Kept.upd); (case ho => (refine Only.of (fun p hp => ?_) rfl; cases p <;> first | rfl | (refine absurd ?_ hp; decide))); (case hi => (repeat' first | with_reducible exact IoKept.refl _ | with_reducible apply Laws.Io.bump_kept | with_reducible apply Laws.Io.emit_kept | with_reducible apply IoKept.ite | with_reducible apply IoKept.foldl | with_reducible apply IoKept.put | with_reducible apply IoKept.filter | (fail_if_no_progress with_reducible apply IoKept.upd) | intro _ | dsimp only | split)); (case ht => (repeat' first | with_reducible exact T1Kept.refl _ | with_reducible apply T1Kept.ite | with_reducible apply T1Kept.foldl | with_reducible apply T1Kept.put | with_reducible apply T1Kept.filter | (fail_if_no_progress with_reducible apply T1Kept.upd) | intro _ | dsimp only | split)))) | intro _ | dsimp only | split); done))
      | with_reducible apply Kept.ite
      | (fail_if_no_progress ((with_reducible apply Kept.upd); (case ho => (refine Only.of (fun p hp => ?_) rfl; cases p <;> first | rfl | (refine absurd ?_ hp; decide))); (case hi => (repeat' first | with_reducible exact IoKept.refl _ | with_reducible apply Laws.Io.bump_kept | with_reducible apply Laws.Io.emit_kept | with_reducible apply IoKept.ite | with_reducible apply IoKept.foldl | with_reducible apply IoKept.put | with_reducible apply IoKept.filter | (fail_if_no_progress with_reducible apply IoKept.upd) | intro _ | dsimp only | split)); (case ht => (repeat' first | with_reducible exact T1Kept.refl _ | with_reducible apply T1Kept.ite | with_reducible apply T1Kept.foldl | with_reducible apply T1Kept.put | with_reducible apply T1Kept.filter | (fail_if_no_progress with_reducible apply T1Kept.upd) | intro _ | dsimp only | split))))
      | intro _
      | dsimp only
      | split
theorem State.writeOut_kept {ml : List StateField} {mz : State} {s : State} {c : Cmd} {addr : Nat} {bytes : List Byte} {v0 : State} (mhl : [.io, .t1] ⊆ ml) (me : State.writeOut s c addr bytes = .ok v0) (mh : Kept ml mz s) : Kept ml mz v0 :=
  Kept.after ((State.writeOut_frame s c addr bytes me).mono mhl) mh

end Sys2Proof.Laws
end

