-- ==== Sys2Proof/Laws/KeptNetOps.lean ====
section
/-! SUPPORT. The frame lemma of every operation of Machine/NetOps.lean: which fields of the state it may change, and that it keeps the canonical
forms. -/

set_option Elab.async false
set_option linter.unusedTactic false
set_option linter.unreachableTactic false
set_option linter.unusedVariables false

namespace Sys2Proof.Laws

open Sys2Proof Sys2Proof.Machine Sys2Proof.Safety

theorem State.setMember_frame (s : State) (d : Nat) (x : MemberX) : Kept [.net] s (State.setMember s d x) := by
  unfold State.setMember
  try dsimp only
  repeat' first
    | with_reducible exact Kept.refl _
    | with_reducible apply Kept.ite
    | (fail_if_no_progress ((with_reducible apply Kept.upd); (case ho => (refine Only.of (fun p hp => ?_) rfl; cases p <;> first | rfl | (refine absurd ?_ hp; decide))); (case hi => exact IoKept.refl _); (case ht => exact T1Kept.refl _)))
    | intro _
    | dsimp only
    | split
theorem State.setMember_kept {ml : List StateField} {mz : State} {s : State} {d : Nat} {x : MemberX} (mhl : [.net] ⊆ ml) (mh : Kept ml mz s) : Kept ml mz (State.setMember s d x) :=
  Kept.after ((State.setMember_frame s d x).mono mhl) mh

theorem State.setFlow_frame (s : State) (k : Nat) (x : Flow) : Kept [.net] s (State.setFlow s k x) := by
  unfold State.setFlow
  try dsimp only
  repeat' first
    | with_reducible exact Kept.refl _
    | with_reducible apply Kept.ite
    | (fail_if_no_progress ((with_reducible apply Kept.upd); (case ho => (refine Only.of (fun p hp => ?_) rfl; cases p <;> first | rfl | (refine absurd ?_ hp; decide))); (case hi => exact IoKept.refl _); (case ht => exact T1Kept.refl _)))
    | intro _
    | dsimp only
    | split
theorem State.setFlow_kept {ml : List StateField} {mz : State} {s : State} {k : Nat} {x : Flow} (mhl : [.net] ⊆ ml) (mh : Kept ml mz s) : Kept ml mz (State.setFlow s k x) :=
  Kept.after ((State.setFlow_frame s k x).mono mhl) mh

theorem State.setTQueue_frame (s : State) (k : Nat) (x : TQueue) : Kept [.net] s (State.setTQueue s k x) := by
  unfold State.setTQueue
  try dsimp only
  repeat' first
    | with_reducible exact Kept.refl _
    | with_reducible apply Kept.ite
    | (fail_if_no_progress ((with_reducible apply Kept.upd); (case ho => (refine Only.of (fun p hp => ?_) rfl; cases p <;> first | rfl | (refine absurd ?_ hp; decide))); (case hi => exact IoKept.refl _); (case ht => exact T1Kept.refl _)))
    | intro _
    | dsimp only
    | split
theorem State.setTQueue_kept {ml : List StateField} {mz : State} {s : State} {k : Nat} {x : TQueue} (mhl : [.net] ⊆ ml) (mh : Kept ml mz s) : Kept ml mz (State.setTQueue s k x) :=
  Kept.after ((State.setTQueue_frame s k x).mono mhl) mh

theorem State.setControl_frame (s : State) (p : Nat) (l : List Datagram) : Kept [.net] s (State.setControl s p l) := by
  unfold State.setControl
  try dsimp only
  repeat' first
    | with_reducible exact Kept.refl _
    | with_reducible apply Kept.ite
    | (fail_if_no_progress ((with_reducible apply Kept.upd); (case ho => (refine Only.of (fun p hp => ?_) rfl; cases p <;> first | rfl | (refine absurd ?_ hp; decide))); (case hi => exact IoKept.refl _); (case ht => exact T1Kept.refl _)))
    | intro _
    | dsimp only
    | split
theorem State.setControl_kept {ml : List StateField} {mz : State} {s : State} {p : Nat} {l : List Datagram} (mhl : [.net] ⊆ ml) (mh : Kept ml mz s) : Kept ml mz (State.setControl s p l) :=
  Kept.after ((State.setControl_frame s p l).mono mhl) mh

theorem State.setItems_frame (s : State) (k : Nat) (items : List Datagram) : Kept [.net] s (State.setItems s k items) := by
  unfold State.setItems
  try dsimp only
  repeat' first
    | with_reducible exact Kept.refl _
    | ((with_reducible apply Laws.State.setTQueue_kept); (case mhl => decide))
    | with_reducible apply Kept.ite
    | (fail_if_no_progress ((with_reducible apply Kept.upd); (case ho => (refine Only.of (fun p hp => ?_) rfl; cases p <;> first | rfl | (refine absurd ?_ hp; decide))); (case hi => exact IoKept.refl _); (case ht => exact T1Kept.refl _)))
    | intro _
    | dsimp only
    | split
theorem State.setItems_kept {ml : List StateField} {mz : State} {s : State} {k : Nat} {items : List Datagram} (mhl : [.net] ⊆ ml) (mh : Kept ml mz s) : Kept ml mz (State.setItems s k items) :=
  Kept.after ((State.setItems_frame s k items).mono mhl) mh

theorem State.updDatagram_frame (s : State) (d : Datagram) (f : Datagram → Datagram) : Kept [.net] s (State.updDatagram s d f) := by
  unfold State.updDatagram
  try dsimp only
  repeat' first
    | with_reducible exact Kept.refl _
    | ((with_reducible apply Laws.State.setFlow_kept); (case mhl => decide))
    | with_reducible apply Kept.ite
    | (fail_if_no_progress ((with_reducible apply Kept.upd); (case ho => (refine Only.of (fun p hp => ?_) rfl; cases p <;> first | rfl | (refine absurd ?_ hp; decide))); (case hi => exact IoKept.refl _); (case ht => exact T1Kept.refl _)))
    | intro _
    | dsimp only
    | split
theorem State.updDatagram_kept {ml : List StateField} {mz : State} {s : State} {d : Datagram} {f : Datagram → Datagram} (mhl : [.net] ⊆ ml) (mh : Kept ml mz s) : Kept ml mz (State.updDatagram s d f) :=
  Kept.after ((State.updDatagram_frame s d f).mono mhl) mh

theorem State.enqueue_frame (s : State) (d : Datagram) : Kept [.net] s (State.enqueue s d) := by
  unfold State.enqueue
  try dsimp only
  repeat' first
    | with_reducible exact Kept.refl _
    | ((with_reducible apply Laws.State.setControl_kept); (case mhl => decide))
    | ((with_reducible apply Laws.State.setItems_kept); (case mhl => decide))
    | ((with_reducible apply Laws.State.updDatagram_kept); (case mhl => decide))
    | with_reducible apply Kept.ite
    | (fail_if_no_progress ((with_reducible apply Kept.upd); (case ho => (refine Only.of (fun p hp => ?_) rfl; cases p <;> first | rfl | (refine absurd ?_ hp; decide))); (case hi => exact IoKept.refl _); (case ht => exact T1Kept.refl _)))
    | intro _
    | dsimp only
    | split
theorem State.enqueue_kept {ml : List StateField} {mz : State} {s : State} {d : Datagram} (mhl : [.net] ⊆ ml) (mh : Kept ml mz s) : Kept ml mz (State.enqueue s d) :=
  Kept.after ((State.enqueue_frame s d).mono mhl) mh

theorem State.pump_frame (s : State) (k : Nat) : Kept [.net] s (State.pump s k) := by
  unfold State.pump
  try dsimp only
  repeat' first
    | with_reducible exact Kept.refl _
    | ((with_reducible apply Laws.State.enqueue_kept); (case mhl => decide))
    | ((with_reducible apply Laws.State.setFlow_kept); (case mhl => decide))
    | with_reducible apply Kept.ite
    | with_reducible apply Kept.foldl
    | with_reducible apply Kept.foldlFst
    | with_reducible apply Kept.foldlSnd
    | (fail_if_no_progress ((with_reducible apply Kept.upd); (case ho => (refine Only.of (fun p hp => ?_) rfl; cases p <;> first | rfl | (refine absurd ?_ hp; decide))); (case hi => exact IoKept.refl _); (case ht => exact T1Kept.refl _)))
    | intro _
    | dsimp only
    | split
theorem State.pump_kept {ml : List StateField} {mz : State} {s : State} {k : Nat} (mhl : [.net] ⊆ ml) (mh : Kept ml mz s) : Kept ml mz (State.pump s k) :=
  Kept.after ((State.pump_frame s k).mono mhl) mh

theorem State.send_frame (s : State) (m : Msg) : Kept [.net] s (State.send s m) := by
  unfold State.send
  try dsimp only
  repeat' first
    | with_reducible exact Kept.refl _
    | ((with_reducible apply Laws.State.enqueue_kept); (case mhl => decide))
    | ((with_reducible apply Laws.State.pump_kept); (case mhl => decide))
    | ((with_reducible apply Laws.State.setFlow_kept); (case mhl => decide))
    | ((with_reducible apply Kept.iteL); case k => ((repeat' first | with_reducible exact Kept.refl _ | ((with_reducible apply Laws.State.enqueue_kept); (case mhl => decide)) | ((with_reducible apply Laws.State.pump_kept); (case mhl => decide)) | ((with_reducible apply Laws.State.setFlow_kept); (case mhl => decide)) | with_reducible apply Kept.foldl | with_reducible apply Kept.foldlFst | with_reducible apply Kept.foldlSnd | with_reducible apply Kept.ite | (fail_if_no_progress ((with_reducible apply Kept.upd); (case ho => (refine Only.of (fun p hp => ?_) rfl; cases p <;> first | rfl | (refine absurd ?_ hp; decide))); (case hi => exact IoKept.refl _); (case ht => exact T1Kept.refl _))) | intro _ | dsimp only | split); done))
    | ((with_reducible apply Kept.iteR); case k => ((repeat' first | with_reducible exact Kept.refl _ | ((with_reducible apply Laws.State.enqueue_kept); (case mhl => decide)) | ((with_reducible apply Laws.State.pump_kept); (case mhl => decide)) | ((with_reducible apply Laws.State.setFlow_kept); (case mhl => decide)) | with_reducible apply Kept.foldl | with_reducible apply Kept.foldlFst | with_reducible apply Kept.foldlSnd | with_reducible apply Kept.ite | (fail_if_no_progress ((with_reducible apply Kept.upd); (case ho => (refine Only.of (fun p hp => ?_) rfl; cases p <;> first | rfl | (refine absurd ?_ hp; decide))); (case hi => exact IoKept.refl _); (case ht => exact T1Kept.refl _))) | intro _ | dsimp only | split); done))
    | with_reducible apply Kept.ite
    | with_reducible apply Kept.foldl
    | with_reducible apply Kept.foldlFst
    | with_reducible apply Kept.foldlSnd
    | (fail_if_no_progress ((with_reducible apply Kept.upd); (case ho => (refine Only.of (fun p hp => ?_) rfl; cases p <;> first | rfl | (refine absurd ?_ hp; decide))); (case hi => exact IoKept.refl _); (case ht => exact T1Kept.refl _)))
    | intro _
    | dsimp only
    | split
theorem State.send_kept {ml : List StateField} {mz : State} {s : State} {m : Msg} (mhl : [.net] ⊆ ml) (mh : Kept ml mz s) : Kept ml mz (State.send s m) :=
  Kept.after ((State.send_frame s m).mono mhl) mh

theorem State.sendDevice_frame (s : State) (type dst tenant handle msgId aux : Nat) : Kept [.net] s (State.sendDevice s type dst tenant handle msgId aux) := by
  unfold State.sendDevice
  try dsimp only
  repeat' first
    | with_reducible exact Kept.refl _
    | ((with_reducible apply Laws.State.send_kept); (case mhl => decide))
    | with_reducible apply Kept.ite
    | intro _
    | dsimp only
    | split
theorem State.sendDevice_kept {ml : List StateField} {mz : State} {s : State} {type dst tenant handle msgId aux : Nat} (mhl : [.net] ⊆ ml) (mh : Kept ml mz s) : Kept ml mz (State.sendDevice s type dst tenant handle msgId aux) :=
  Kept.after ((State.sendDevice_frame s type dst tenant handle msgId aux).mono mhl) mh

theorem State.publishOwner_frame (s : State) (tenant newHandle epoch oldDev oldHandle : Nat) : Kept [.net] s (State.publishOwner s tenant newHandle epoch oldDev oldHandle) := by
  unfold State.publishOwner
  try dsimp only
  repeat' first
    | with_reducible exact Kept.refl _
    | ((with_reducible apply Laws.State.send_kept); (case mhl => decide))
    | with_reducible apply Kept.ite
    | with_reducible apply Kept.foldl
    | with_reducible apply Kept.foldlFst
    | with_reducible apply Kept.foldlSnd
    | intro _
    | dsimp only
    | split
theorem State.publishOwner_kept {ml : List StateField} {mz : State} {s : State} {tenant newHandle epoch oldDev oldHandle : Nat} (mhl : [.net] ⊆ ml) (mh : Kept ml mz s) : Kept ml mz (State.publishOwner s tenant newHandle epoch oldDev oldHandle) :=
  Kept.after ((State.publishOwner_frame s tenant newHandle epoch oldDev oldHandle).mono mhl) mh

theorem State.unqueue_frame (s : State) (gone : Datagram → Bool) : Kept [.net] s (State.unqueue s gone) := by
  unfold State.unqueue
  try dsimp only
  repeat' first
    | with_reducible exact Kept.refl _
    | ((with_reducible apply Laws.State.setControl_kept); (case mhl => decide))
    | ((with_reducible apply Laws.State.setItems_kept); (case mhl => decide))
    | with_reducible apply Kept.ite
    | with_reducible apply Kept.foldl
    | with_reducible apply Kept.foldlFst
    | with_reducible apply Kept.foldlSnd
    | intro _
    | dsimp only
    | split
theorem State.unqueue_kept {ml : List StateField} {mz : State} {s : State} {gone : Datagram → Bool} (mhl : [.net] ⊆ ml) (mh : Kept ml mz s) : Kept ml mz (State.unqueue s gone) :=
  Kept.after ((State.unqueue_frame s gone).mono mhl) mh

theorem State.pauseTransfer_frame (s : State) (dst : Nat) : Kept [.net] s (State.pauseTransfer s dst) := by
  unfold State.pauseTransfer
  try dsimp only
  repeat' first
    | with_reducible exact Kept.refl _
    | ((with_reducible apply Laws.State.setFlow_kept); (case mhl => decide))
    | ((with_reducible apply Laws.State.unqueue_kept); (case mhl => decide))
    | with_reducible apply Kept.ite
    | (fail_if_no_progress ((with_reducible apply Kept.upd); (case ho => (refine Only.of (fun p hp => ?_) rfl; cases p <;> first | rfl | (refine absurd ?_ hp; decide))); (case hi => exact IoKept.refl _); (case ht => exact T1Kept.refl _)))
    | intro _
    | dsimp only
    | split
theorem State.pauseTransfer_kept {ml : List StateField} {mz : State} {s : State} {dst : Nat} (mhl : [.net] ⊆ ml) (mh : Kept ml mz s) : Kept ml mz (State.pauseTransfer s dst) :=
  Kept.after ((State.pauseTransfer_frame s dst).mono mhl) mh

theorem State.resumeTransfer_frame (s : State) (dst : Nat) : Kept [.net] s (State.resumeTransfer s dst) := by
  unfold State.resumeTransfer
  try dsimp only
  repeat' first
    | with_reducible exact Kept.refl _
    | ((with_reducible apply Laws.State.enqueue_kept); (case mhl => decide))
    | ((with_reducible apply Laws.State.pump_kept); (case mhl => decide))
    | with_reducible apply Kept.ite
    | with_reducible apply Kept.foldl
    | with_reducible apply Kept.foldlFst
    | with_reducible apply Kept.foldlSnd
    | intro _
    | dsimp only
    | split
theorem State.resumeTransfer_kept {ml : List StateField} {mz : State} {s : State} {dst : Nat} (mhl : [.net] ⊆ ml) (mh : Kept ml mz s) : Kept ml mz (State.resumeTransfer s dst) :=
  Kept.after ((State.resumeTransfer_frame s dst).mono mhl) mh

theorem State.resetFlow_frame (s : State) (k : Nat) : Kept [.net] s (State.resetFlow s k) := by
  unfold State.resetFlow
  try dsimp only
  repeat' first
    | with_reducible exact Kept.refl _
    | ((with_reducible apply Laws.State.unqueue_kept); (case mhl => decide))
    | with_reducible apply Kept.ite
    | (fail_if_no_progress ((with_reducible apply Kept.upd); (case ho => (refine Only.of (fun p hp => ?_) rfl; cases p <;> first | rfl | (refine absurd ?_ hp; decide))); (case hi => exact IoKept.refl _); (case ht => exact T1Kept.refl _)))
    | intro _
    | dsimp only
    | split
theorem State.resetFlow_kept {ml : List StateField} {mz : State} {s : State} {k : Nat} (mhl : [.net] ⊆ ml) (mh : Kept ml mz s) : Kept ml mz (State.resetFlow s k) :=
  Kept.after ((State.resetFlow_frame s k).mono mhl) mh

end Sys2Proof.Laws
end

