-- ==== Sys2Proof/Laws/KeptShedOps.lean ====
section
/-! SUPPORT. The frame lemma of every operation of Machine/ShedOps.lean: which fields of the state it may change, and that it keeps the canonical
forms. -/

set_option Elab.async false
set_option linter.unusedTactic false
set_option linter.unreachableTactic false
set_option linter.unusedVariables false

namespace Sys2Proof.Laws

open Sys2Proof Sys2Proof.Machine Sys2Proof.Safety

theorem State.setShedPort_frame (s : State) (p : Nat) (x : ShedPort) : Kept [.shed] s (State.setShedPort s p x) := by
  unfold State.setShedPort
  try dsimp only
  repeat' first
    | with_reducible exact Kept.refl _
    | with_reducible apply Kept.ite
    | (fail_if_no_progress ((with_reducible apply Kept.upd); (case ho => (refine Only.of (fun p hp => ?_) rfl; cases p <;> first | rfl | (refine absurd ?_ hp; decide))); (case hi => exact IoKept.refl _); (case ht => exact T1Kept.refl _)))
    | intro _
    | dsimp only
    | split
theorem State.setShedPort_kept {ml : List StateField} {mz : State} {s : State} {p : Nat} {x : ShedPort} (mhl : [.shed] ⊆ ml) (mh : Kept ml mz s) : Kept ml mz (State.setShedPort s p x) :=
  Kept.after ((State.setShedPort_frame s p x).mono mhl) mh

theorem State.recomputeDirtyMax_frame (s : State) : Kept [.io] s (State.recomputeDirtyMax s) := by
  unfold State.recomputeDirtyMax
  try dsimp only
  repeat' first
    | with_reducible exact Kept.refl _
    | ((with_reducible apply Laws.State.put_kept); (case mhl => decide))
    | with_reducible apply Kept.ite
    | intro _
    | dsimp only
    | split
theorem State.recomputeDirtyMax_kept {ml : List StateField} {mz : State} {s : State} (mhl : [.io] ⊆ ml) (mh : Kept ml mz s) : Kept ml mz (State.recomputeDirtyMax s) :=
  Kept.after ((State.recomputeDirtyMax_frame s).mono mhl) mh

theorem State.shedTake_frame (s : State) (p len : Nat) {v0 : Nat} {v1 : State} (me : State.shedTake s p len = some (v0, v1)) : Kept [.shed] s v1 := by
  unfold State.shedTake at me
  try dsimp only at me
  repeat' first
    | contradiction
    | (cases me; done)
    | cases me
    | (rw [Option.map_eq_some_iff] at me; obtain ⟨_, _, me⟩ := me; cases me)
    | (rw [Option.bind_eq_some_iff] at me; obtain ⟨_, _, me⟩ := me)
    | split at me
  all_goals
    repeat' first
      | with_reducible exact Kept.refl _
      | ((with_reducible apply Laws.State.setShedPort_kept); (case mhl => decide))
      | with_reducible apply Kept.ite
      | (fail_if_no_progress ((with_reducible apply Kept.upd); (case ho => (refine Only.of (fun p hp => ?_) rfl; cases p <;> first | rfl | (refine absurd ?_ hp; decide))); (case hi => exact IoKept.refl _); (case ht => exact T1Kept.refl _)))
      | intro _
      | dsimp only
      | split
theorem State.shedTake_kept {ml : List StateField} {mz : State} {s : State} {p len : Nat} {v0 : Nat} {v1 : State} (mhl : [.shed] ⊆ ml) (me : State.shedTake s p len = some (v0, v1)) (mh : Kept ml mz s) : Kept ml mz v1 :=
  Kept.after ((State.shedTake_frame s p len me).mono mhl) mh

theorem State.shedRelease_frame (s : State) (addr len : Nat) : Kept [.shed] s (State.shedRelease s addr len) := by
  unfold State.shedRelease
  try dsimp only
  repeat' first
    | with_reducible exact Kept.refl _
    | ((with_reducible apply Laws.State.setShedPort_kept); (case mhl => decide))
    | with_reducible apply Kept.ite
    | (fail_if_no_progress ((with_reducible apply Kept.upd); (case ho => (refine Only.of (fun p hp => ?_) rfl; cases p <;> first | rfl | (refine absurd ?_ hp; decide))); (case hi => exact IoKept.refl _); (case ht => exact T1Kept.refl _)))
    | intro _
    | dsimp only
    | split
theorem State.shedRelease_kept {ml : List StateField} {mz : State} {s : State} {addr len : Nat} (mhl : [.shed] ⊆ ml) (mh : Kept ml mz s) : Kept ml mz (State.shedRelease s addr len) :=
  Kept.after ((State.shedRelease_frame s addr len).mono mhl) mh

end Sys2Proof.Laws
end

