-- ==== Sys2Proof/Laws/KeptTextOps.lean ====
section
/-! SUPPORT. The frame lemma of every operation of Machine/TextOps.lean: which fields of the state it may change, and that it keeps the canonical
forms. -/

set_option Elab.async false
set_option linter.unusedTactic false
set_option linter.unreachableTactic false
set_option linter.unusedVariables false

namespace Sys2Proof.Laws

open Sys2Proof Sys2Proof.Machine Sys2Proof.Safety

theorem State.lookLine_frame (s : State) (t line : Nat) : Kept [.io, .t1, .textCache] s (State.lookLine s t line) := by
  unfold State.lookLine
  try dsimp only
  repeat' first
    | with_reducible exact Kept.refl _
    | ((with_reducible apply Laws.State.afterBlockRead_kept); (case mhl => decide))
    | ((with_reducible apply Laws.State.bump_kept); (case mhl => decide))
    | with_reducible apply Kept.ite
    | (fail_if_no_progress ((with_reducible apply Kept.upd); (case ho => (refine Only.of (fun p hp => ?_) rfl; cases p <;> first | rfl | (refine absurd ?_ hp; decide))); (case hi => (repeat' first | with_reducible exact IoKept.refl _ | with_reducible apply Laws.Io.bump_kept | with_reducible apply IoKept.ite | with_reducible apply IoKept.foldl | with_reducible apply IoKept.put | with_reducible apply IoKept.filter | (fail_if_no_progress with_reducible apply IoKept.upd) | intro _ | dsimp only | split)); (case ht => (repeat' first | with_reducible exact T1Kept.refl _ | with_reducible apply T1Kept.ite | with_reducible apply T1Kept.foldl | with_reducible apply T1Kept.put | with_reducible apply T1Kept.filter | (fail_if_no_progress with_reducible apply T1Kept.upd) | intro _ | dsimp only | split))))
    | intro _
    | dsimp only
    | split
theorem State.lookLine_kept {ml : List StateField} {mz : State} {s : State} {t line : Nat} (mhl : [.io, .t1, .textCache] ⊆ ml) (mh : Kept ml mz s) : Kept ml mz (State.lookLine s t line) :=
  Kept.after ((State.lookLine_frame s t line).mono mhl) mh

theorem State.lookUp_frame (s : State) (t : Nat) (lines : List Nat) : Kept [.io, .t1, .textCache] s (State.lookUp s t lines) := by
  unfold State.lookUp
  try dsimp only
  repeat' first
    | with_reducible exact Kept.refl _
    | ((with_reducible apply Laws.State.lookLine_kept); (case mhl => decide))
    | with_reducible apply Kept.ite
    | with_reducible apply Kept.foldl
    | with_reducible apply Kept.foldlFst
    | with_reducible apply Kept.foldlSnd
    | intro _
    | dsimp only
    | split
theorem State.lookUp_kept {ml : List StateField} {mz : State} {s : State} {t : Nat} {lines : List Nat} (mhl : [.io, .t1, .textCache] ⊆ ml) (mh : Kept ml mz s) : Kept ml mz (State.lookUp s t lines) :=
  Kept.after ((State.lookUp_frame s t lines).mono mhl) mh

theorem State.dropText_frame (s : State) (t : Nat) : Kept [.textCache] s (State.dropText s t) := by
  unfold State.dropText
  try dsimp only
  repeat' first
    | with_reducible exact Kept.refl _
    | with_reducible apply Kept.ite
    | (fail_if_no_progress ((with_reducible apply Kept.upd); (case ho => (refine Only.of (fun p hp => ?_) rfl; cases p <;> first | rfl | (refine absurd ?_ hp; decide))); (case hi => exact IoKept.refl _); (case ht => exact T1Kept.refl _)))
    | intro _
    | dsimp only
    | split
theorem State.dropText_kept {ml : List StateField} {mz : State} {s : State} {t : Nat} (mhl : [.textCache] ⊆ ml) (mh : Kept ml mz s) : Kept ml mz (State.dropText s t) :=
  Kept.after ((State.dropText_frame s t).mono mhl) mh

end Sys2Proof.Laws
end

