-- ==== Sys2Proof/Laws/KeptStallOps.lean ====
section
/-! SUPPORT. The frame lemma of every operation of Machine/StallOps.lean: which fields of the state it may change, and that it keeps the canonical
forms. -/

set_option Elab.async false
set_option linter.unusedTactic false
set_option linter.unreachableTactic false
set_option linter.unusedVariables false

namespace Sys2Proof.Laws

open Sys2Proof Sys2Proof.Machine Sys2Proof.Safety

theorem State.setStall_frame (s : State) (i : Nat) (x : Stall) : Kept [.stalls] s (State.setStall s i x) := by
  unfold State.setStall
  try dsimp only
  repeat' first
    | with_reducible exact Kept.refl _
    | with_reducible apply Kept.ite
    | (fail_if_no_progress ((with_reducible apply Kept.upd); (case ho => (refine Only.of (fun p hp => ?_) rfl; cases p <;> first | rfl | (refine absurd ?_ hp; decide))); (case hi => exact IoKept.refl _); (case ht => exact T1Kept.refl _)))
    | intro _
    | dsimp only
    | split
theorem State.setStall_kept {ml : List StateField} {mz : State} {s : State} {i : Nat} {x : Stall} (mhl : [.stalls] ⊆ ml) (mh : Kept ml mz s) : Kept ml mz (State.setStall s i x) :=
  Kept.after ((State.setStall_frame s i x).mono mhl) mh

theorem State.updHdr_frame (s : State) (i : Nat) (f : Header → Header) : Kept [.stalls] s (State.updHdr s i f) := by
  unfold State.updHdr
  try dsimp only
  repeat' first
    | with_reducible exact Kept.refl _
    | ((with_reducible apply Laws.State.setStall_kept); (case mhl => decide))
    | with_reducible apply Kept.ite
    | (fail_if_no_progress ((with_reducible apply Kept.upd); (case ho => (refine Only.of (fun p hp => ?_) rfl; cases p <;> first | rfl | (refine absurd ?_ hp; decide))); (case hi => exact IoKept.refl _); (case ht => exact T1Kept.refl _)))
    | intro _
    | dsimp only
    | split
theorem State.updHdr_kept {ml : List StateField} {mz : State} {s : State} {i : Nat} {f : Header → Header} (mhl : [.stalls] ⊆ ml) (mh : Kept ml mz s) : Kept ml mz (State.updHdr s i f) :=
  Kept.after ((State.updHdr_frame s i f).mono mhl) mh

theorem State.stallEvent_frame (s : State) (code i : Nat) (detail : List Nat) : Kept [.io] s (State.stallEvent s code i detail) := by
  unfold State.stallEvent
  try dsimp only
  repeat' first
    | with_reducible exact Kept.refl _
    | ((with_reducible apply Laws.State.raise_kept); (case mhl => decide))
    | with_reducible apply Kept.ite
    | intro _
    | dsimp only
    | split
theorem State.stallEvent_kept {ml : List StateField} {mz : State} {s : State} {code i : Nat} {detail : List Nat} (mhl : [.io] ⊆ ml) (mh : Kept ml mz s) : Kept ml mz (State.stallEvent s code i detail) :=
  Kept.after ((State.stallEvent_frame s code i detail).mono mhl) mh

theorem State.takePages_frame (s : State) (h : Nat) (o : Owner) (pageMin pageMax recBytes : Nat) (n : Nat) (j : Nat) {v0 : List Page} {v1 : State} (me : State.takePages s h o pageMin pageMax recBytes n j = some (v0, v1)) : Kept [.t1] s v1 := by
  induction n generalizing s j v0 v1 with
  | zero => cases me; exact Kept.refl _
  | succ n ih =>
    unfold State.takePages at me
    dsimp only at me
    split at me
    · contradiction
    · next g s' ha =>
      split at me
      · contradiction
      · next ps s'' hp =>
        cases me
        exact (ih _ _ hp).after (State.alloc_kept (by decide) ha (Kept.refl _))
theorem State.takePages_kept {ml : List StateField} {mz : State} {s : State} {h : Nat} {o : Owner} {pageMin pageMax recBytes : Nat} {n : Nat} {j : Nat} {v0 : List Page} {v1 : State} (mhl : [.t1] ⊆ ml) (me : State.takePages s h o pageMin pageMax recBytes n j = some (v0, v1)) (mh : Kept ml mz s) : Kept ml mz v1 :=
  Kept.after ((State.takePages_frame s h o pageMin pageMax recBytes n j me).mono mhl) mh

theorem State.takeLayer_frame (s : State) (h : Nat) (o : Owner) (pageMin pageMax recBytes n filled : Nat) {v0 : Layer} {v1 : State} (me : State.takeLayer s h o pageMin pageMax recBytes n filled = some (v0, v1)) : Kept [.t1] s v1 := by
  unfold State.takeLayer at me
  split at me
  · contradiction
  · next g s' ha =>
    rw [Option.map_eq_some_iff] at me
    obtain ⟨r, hr, me⟩ := me
    cases me
    exact (State.takePages_frame _ _ _ _ _ _ _ _ hr).after (State.alloc_kept (by decide) ha (Kept.refl _))
theorem State.takeLayer_kept {ml : List StateField} {mz : State} {s : State} {h : Nat} {o : Owner} {pageMin pageMax recBytes n filled : Nat} {v0 : Layer} {v1 : State} (mhl : [.t1] ⊆ ml) (me : State.takeLayer s h o pageMin pageMax recBytes n filled = some (v0, v1)) (mh : Kept ml mz s) : Kept ml mz v1 :=
  Kept.after ((State.takeLayer_frame s h o pageMin pageMax recBytes n filled me).mono mhl) mh

theorem State.takeLayers_frame (s : State) (t pref : Nat) (o : Owner) (pageMin pageMax recBytes n : Nat) (l : List Nat) {v0 : List Layer} {v1 : List Nat} {v2 : State} (me : State.takeLayers s t pref o pageMin pageMax recBytes n l = some (v0, v1, v2)) : Kept [.t1] s v2 := by
  induction l generalizing s v0 v1 v2 with
  | nil => cases me; exact Kept.refl _
  | cons h hs ih =>
    unfold State.takeLayers at me
    dsimp only at me
    have tr : ∀ k r, (if s.fullHive t k then (s.takeLayer k o pageMin pageMax recBytes n n).map (fun r => (k, r.1, r.2)) else none) = some r → Kept [.t1] s r.2.2 := by
      intro k r hr
      split at hr
      · rw [Option.map_eq_some_iff] at hr
        obtain ⟨q, hq, hr⟩ := hr
        cases hr
        exact State.takeLayer_frame _ _ _ _ _ _ _ _ hq
      · contradiction
    split at me
    · contradiction
    · next k layer s' hk =>
      rw [Option.map_eq_some_iff] at me
      obtain ⟨q, hq, me⟩ := me
      cases me
      refine (ih _ hq).after ?_
      rcases orElse_some hk with hk | hk
      · split at hk
        · exact tr _ _ hk
        · contradiction
      · rcases orElse_some hk with hk | hk
        · split at hk
          · exact tr _ _ hk
          · contradiction
        · rw [Option.bind_eq_some_iff] at hk
          obtain ⟨a, _, hk⟩ := hk
          exact tr _ _ hk
theorem State.takeLayers_kept {ml : List StateField} {mz : State} {s : State} {t : Nat} {pref : Nat} {o : Owner} {pageMin pageMax recBytes n : Nat} {x0 : List Nat} {v0 : List Layer} {v1 : List Nat} {v2 : State} (mhl : [.t1] ⊆ ml) (me : State.takeLayers s t pref o pageMin pageMax recBytes n x0 = some (v0, v1, v2)) (mh : Kept ml mz s) : Kept ml mz v2 :=
  Kept.after ((State.takeLayers_frame s t pref o pageMin pageMax recBytes n x0 me).mono mhl) mh

theorem State.placeTable_frame (s : State) (i pref n home : Nat) (map : List Nat) (recBytes : Nat) {v0 : PageTable} {v1 : Nat} {v2 : List Nat} {v3 : State} (me : State.placeTable s i pref n home map recBytes = some (v0, v1, v2, v3)) : Kept [.t1] s v3 := by
  unfold State.placeTable at me
  dsimp only at me
  have tr : ∀ h r, (if s.fullHive (s.stall i).hdr.tenant h then (s.alloc h 2 2 (Owner.stall i)).map (fun r => (h, r.1, r.2)) else none) = some r → Kept [.t1] s r.2.2 := by
    intro k r hr
    split at hr
    · rw [Option.map_eq_some_iff] at hr
      obtain ⟨q, hq, hr⟩ := hr
      cases hr
      exact State.alloc_kept (by decide) hq (Kept.refl _)
    · contradiction
  split at me
  · contradiction
  · next k layer s' hk =>
    rw [Option.map_eq_some_iff] at me
    obtain ⟨q, hq, me⟩ := me
    cases me
    refine (State.takeLayers_frame _ _ _ _ _ _ _ _ _ hq).after ?_
    rcases orElse_some hk with hk | hk
    · split at hk
      · exact tr _ _ hk
      · contradiction
    · rw [Option.bind_eq_some_iff] at hk
      obtain ⟨a, _, hk⟩ := hk
      exact tr _ _ hk
theorem State.placeTable_kept {ml : List StateField} {mz : State} {s : State} {i pref n : Nat} {home : Nat} {map : List Nat} {recBytes : Nat} {v0 : PageTable} {v1 : Nat} {v2 : List Nat} {v3 : State} (mhl : [.t1] ⊆ ml) (me : State.placeTable s i pref n home map recBytes = some (v0, v1, v2, v3)) (mh : Kept ml mz s) : Kept ml mz v3 :=
  Kept.after ((State.placeTable_frame s i pref n home map recBytes me).mono mhl) mh

theorem State.writePageHeaders_frame (s : State) (i : Nat) : Kept [.t1] s (State.writePageHeaders s i) := by
  unfold State.writePageHeaders
  try dsimp only
  repeat' first
    | with_reducible exact Kept.refl _
    | ((with_reducible apply Laws.State.writeT1_kept); (case mhl => decide))
    | with_reducible apply Kept.ite
    | with_reducible apply Kept.foldl
    | with_reducible apply Kept.foldlFst
    | with_reducible apply Kept.foldlSnd
    | (fail_if_no_progress ((with_reducible apply Kept.upd); (case ho => (refine Only.of (fun p hp => ?_) rfl; cases p <;> first | rfl | (refine absurd ?_ hp; decide))); (case hi => exact IoKept.refl _); (case ht => (repeat' first | with_reducible exact T1Kept.refl _ | with_reducible apply T1Kept.ite | with_reducible apply T1Kept.foldl | with_reducible apply T1Kept.put | with_reducible apply T1Kept.filter | (fail_if_no_progress with_reducible apply T1Kept.upd) | intro _ | dsimp only | split))))
    | intro _
    | dsimp only
    | split
theorem State.writePageHeaders_kept {ml : List StateField} {mz : State} {s : State} {i : Nat} (mhl : [.t1] ⊆ ml) (mh : Kept ml mz s) : Kept ml mz (State.writePageHeaders s i) :=
  Kept.after ((State.writePageHeaders_frame s i).mono mhl) mh

theorem State.releasePages_frame (s : State) (i : Nat) : Kept [.t1, .stalls] s (State.releasePages s i) := by
  unfold State.releasePages
  try dsimp only
  repeat' first
    | with_reducible exact Kept.refl _
    | ((with_reducible apply Laws.State.quarantineOwned_kept); (case mhl => decide))
    | ((with_reducible apply Laws.State.setStall_kept); (case mhl => decide))
    | with_reducible apply Kept.ite
    | (fail_if_no_progress ((with_reducible apply Kept.upd); (case ho => (refine Only.of (fun p hp => ?_) rfl; cases p <;> first | rfl | (refine absurd ?_ hp; decide))); (case hi => exact IoKept.refl _); (case ht => (repeat' first | with_reducible exact T1Kept.refl _ | with_reducible apply T1Kept.ite | with_reducible apply T1Kept.foldl | with_reducible apply T1Kept.put | with_reducible apply T1Kept.filter | (fail_if_no_progress with_reducible apply T1Kept.upd) | intro _ | dsimp only | split))))
    | intro _
    | dsimp only
    | split
theorem State.releasePages_kept {ml : List StateField} {mz : State} {s : State} {i : Nat} (mhl : [.t1, .stalls] ⊆ ml) (mh : Kept ml mz s) : Kept ml mz (State.releasePages s i) :=
  Kept.after ((State.releasePages_frame s i).mono mhl) mh

theorem State.dropRelocs_frame (s : State) (i : Nat) : Kept [.t1, .stalls] s (State.dropRelocs s i) := by
  unfold State.dropRelocs
  try dsimp only
  repeat' first
    | with_reducible exact Kept.refl _
    | ((with_reducible apply Laws.State.freeOwned_kept); (case mhl => decide))
    | ((with_reducible apply Laws.State.setStall_kept); (case mhl => decide))
    | with_reducible apply Kept.ite
    | (fail_if_no_progress ((with_reducible apply Kept.upd); (case ho => (refine Only.of (fun p hp => ?_) rfl; cases p <;> first | rfl | (refine absurd ?_ hp; decide))); (case hi => exact IoKept.refl _); (case ht => (repeat' first | with_reducible exact T1Kept.refl _ | with_reducible apply T1Kept.ite | with_reducible apply T1Kept.foldl | with_reducible apply T1Kept.put | with_reducible apply T1Kept.filter | (fail_if_no_progress with_reducible apply T1Kept.upd) | intro _ | dsimp only | split))))
    | intro _
    | dsimp only
    | split
theorem State.dropRelocs_kept {ml : List StateField} {mz : State} {s : State} {i : Nat} (mhl : [.t1, .stalls] ⊆ ml) (mh : Kept ml mz s) : Kept ml mz (State.dropRelocs s i) :=
  Kept.after ((State.dropRelocs_frame s i).mono mhl) mh

theorem State.takePoolSlot_frame (s : State) (i k : Nat) : Kept [.stalls] s (State.takePoolSlot s i k) := by
  unfold State.takePoolSlot
  try dsimp only
  repeat' first
    | with_reducible exact Kept.refl _
    | ((with_reducible apply Laws.State.setStall_kept); (case mhl => decide))
    | with_reducible apply Kept.ite
    | (fail_if_no_progress ((with_reducible apply Kept.upd); (case ho => (refine Only.of (fun p hp => ?_) rfl; cases p <;> first | rfl | (refine absurd ?_ hp; decide))); (case hi => exact IoKept.refl _); (case ht => exact T1Kept.refl _)))
    | intro _
    | dsimp only
    | split
theorem State.takePoolSlot_kept {ml : List StateField} {mz : State} {s : State} {i k : Nat} (mhl : [.stalls] ⊆ ml) (mh : Kept ml mz s) : Kept ml mz (State.takePoolSlot s i k) :=
  Kept.after ((State.takePoolSlot_frame s i k).mono mhl) mh

theorem State.journalAt_frame (s : State) (i mask step ctr : Nat) (payload : JPayload) {v0 : State} (me : State.journalAt s i mask step ctr payload = some v0) : Kept [.shed, .stalls] s v0 := by
  unfold State.journalAt at me
  dsimp only at me
  split at me
  · contradiction
  · next p addr s1 hs =>
    cases me
    obtain ⟨q, _, hq⟩ := List.exists_of_findSome?_eq_some hs
    rw [Option.map_eq_some_iff] at hq
    obtain ⟨r, hr, e⟩ := hq
    cases e
    exact State.setStall_kept (by decide) (State.shedTake_kept (by decide) hr (Kept.refl _))
theorem State.journalAt_kept {ml : List StateField} {mz : State} {s : State} {i mask step ctr : Nat} {payload : JPayload} {v0 : State} (mhl : [.shed, .stalls] ⊆ ml) (me : State.journalAt s i mask step ctr payload = some v0) (mh : Kept ml mz s) : Kept ml mz v0 :=
  Kept.after ((State.journalAt_frame s i mask step ctr payload me).mono mhl) mh

theorem State.journalIf_frame (s : State) (i mask : Nat) (payload : JPayload) {v0 : State} (me : State.journalIf s i mask payload = some v0) : Kept [.shed, .stalls] s v0 := by
  unfold State.journalIf at me
  try dsimp only at me
  repeat' first
    | contradiction
    | (cases me; done)
    | cases me
    | (rw [Option.map_eq_some_iff] at me; obtain ⟨_, _, me⟩ := me; cases me)
    | (rw [Option.bind_eq_some_iff] at me; obtain ⟨_, _, me⟩ := me)
    | split at me
  all_goals
    repeat' first
      | with_reducible exact Kept.refl _
      | ((with_reducible apply Laws.State.journalAt_kept ?mhl (by assumption)); (case mhl => decide))
      | with_reducible apply Kept.ite
      | intro _
      | dsimp only
      | split
theorem State.journalIf_kept {ml : List StateField} {mz : State} {s : State} {i mask : Nat} {payload : JPayload} {v0 : State} (mhl : [.shed, .stalls] ⊆ ml) (me : State.journalIf s i mask payload = some v0) (mh : Kept ml mz s) : Kept ml mz v0 :=
  Kept.after ((State.journalIf_frame s i mask payload me).mono mhl) mh

theorem State.journal_frame (s : State) (i mask : Nat) (payload : JPayload) : Kept [.shed, .stalls] s (State.journal s i mask payload) :=
  Kept.getD (Kept.refl _) (fun _ h => State.journalIf_kept (by decide) h (Kept.refl _))
theorem State.journal_kept {ml : List StateField} {mz : State} {s : State} {i mask : Nat} {payload : JPayload} (mhl : [.shed, .stalls] ⊆ ml) (mh : Kept ml mz s) : Kept ml mz (State.journal s i mask payload) :=
  Kept.after ((State.journal_frame s i mask payload).mono mhl) mh

theorem State.setDirty_frame (s : State) (i n : Nat) : Kept [.io, .stalls] s (State.setDirty s i n) := by
  unfold State.setDirty
  try dsimp only
  repeat' first
    | with_reducible exact Kept.refl _
    | ((with_reducible apply Laws.State.put_kept); (case mhl => decide))
    | ((with_reducible apply Laws.State.updHdr_kept); (case mhl => decide))
    | with_reducible apply Kept.ite
    | (fail_if_no_progress ((with_reducible apply Kept.upd); (case ho => (refine Only.of (fun p hp => ?_) rfl; cases p <;> first | rfl | (refine absurd ?_ hp; decide))); (case hi => (repeat' first | with_reducible exact IoKept.refl _ | with_reducible apply Laws.Io.put_kept | with_reducible apply IoKept.ite | with_reducible apply IoKept.foldl | with_reducible apply IoKept.put | with_reducible apply IoKept.filter | (fail_if_no_progress with_reducible apply IoKept.upd) | intro _ | dsimp only | split)); (case ht => exact T1Kept.refl _)))
    | intro _
    | dsimp only
    | split
theorem State.setDirty_kept {ml : List StateField} {mz : State} {s : State} {i n : Nat} (mhl : [.io, .stalls] ⊆ ml) (mh : Kept ml mz s) : Kept ml mz (State.setDirty s i n) :=
  Kept.after ((State.setDirty_frame s i n).mono mhl) mh

theorem State.journalUpTo_frame (s : State) (i mask len : Nat) {v0 : State} (me : State.journalUpTo s i mask len = some v0) : Kept [.io, .shed, .stalls] s v0 := by
  unfold State.journalUpTo at me
  try dsimp only at me
  repeat' first
    | contradiction
    | (cases me; done)
    | cases me
    | (rw [Option.map_eq_some_iff] at me; obtain ⟨_, _, me⟩ := me; cases me)
    | (rw [Option.bind_eq_some_iff] at me; obtain ⟨_, _, me⟩ := me)
    | split at me
  all_goals
    repeat' first
      | with_reducible exact Kept.refl _
      | ((with_reducible apply Laws.State.journalAt_kept ?mhl (by assumption)); (case mhl => decide))
      | ((with_reducible apply Laws.State.setDirty_kept); (case mhl => decide))
      | ((with_reducible apply Laws.State.setStall_kept); (case mhl => decide))
      | with_reducible apply Kept.ite
      | (fail_if_no_progress ((with_reducible apply Kept.upd); (case ho => (refine Only.of (fun p hp => ?_) rfl; cases p <;> first | rfl | (refine absurd ?_ hp; decide))); (case hi => (repeat' first | with_reducible exact IoKept.refl _ | with_reducible apply IoKept.ite | with_reducible apply IoKept.foldl | with_reducible apply IoKept.put | with_reducible apply IoKept.filter | (fail_if_no_progress with_reducible apply IoKept.upd) | intro _ | dsimp only | split)); (case ht => exact T1Kept.refl _)))
      | intro _
      | dsimp only
      | split
theorem State.journalUpTo_kept {ml : List StateField} {mz : State} {s : State} {i mask len : Nat} {v0 : State} (mhl : [.io, .shed, .stalls] ⊆ ml) (me : State.journalUpTo s i mask len = some v0) (mh : Kept ml mz s) : Kept ml mz v0 :=
  Kept.after ((State.journalUpTo_frame s i mask len me).mono mhl) mh

theorem State.recordLost_frame (s : State) (r : JRecord) : Kept [.io] s (State.recordLost s r) := by
  unfold State.recordLost
  try dsimp only
  repeat' first
    | with_reducible exact Kept.refl _
    | ((with_reducible apply Laws.State.raise_kept); (case mhl => decide))
    | with_reducible apply Kept.ite
    | intro _
    | dsimp only
    | split
theorem State.recordLost_kept {ml : List StateField} {mz : State} {s : State} {r : JRecord} (mhl : [.io] ⊆ ml) (mh : Kept ml mz s) : Kept ml mz (State.recordLost s r) :=
  Kept.after ((State.recordLost_frame s r).mono mhl) mh

theorem State.damageRecords_frame (s : State) (i status : Nat) (p : JRecord → Bool) : Kept [.shed, .stalls] s (State.damageRecords s i status p) := by
  unfold State.damageRecords
  try dsimp only
  repeat' first
    | with_reducible exact Kept.refl _
    | ((with_reducible apply Laws.State.journal_kept); (case mhl => decide))
    | ((with_reducible apply Laws.State.setStall_kept); (case mhl => decide))
    | with_reducible apply Kept.ite
    | (fail_if_no_progress ((with_reducible apply Kept.upd); (case ho => (refine Only.of (fun p hp => ?_) rfl; cases p <;> first | rfl | (refine absurd ?_ hp; decide))); (case hi => exact IoKept.refl _); (case ht => exact T1Kept.refl _)))
    | intro _
    | dsimp only
    | split
theorem State.damageRecords_kept {ml : List StateField} {mz : State} {s : State} {i status : Nat} {p : JRecord → Bool} (mhl : [.shed, .stalls] ⊆ ml) (mh : Kept ml mz s) : Kept ml mz (State.damageRecords s i status p) :=
  Kept.after ((State.damageRecords_frame s i status p).mono mhl) mh

theorem State.writeRuns_frame (s : State) (i : Nat) (runs : List JRun) : Kept [.t1, .stalls] s (State.writeRuns s i runs) := by
  unfold State.writeRuns
  try dsimp only
  repeat' first
    | with_reducible exact Kept.refl _
    | ((with_reducible apply Laws.State.setStall_kept); (case mhl => decide))
    | ((with_reducible apply Laws.State.writeT1_kept); (case mhl => decide))
    | with_reducible apply Kept.ite
    | with_reducible apply Kept.foldl
    | with_reducible apply Kept.foldlFst
    | with_reducible apply Kept.foldlSnd
    | (fail_if_no_progress ((with_reducible apply Kept.upd); (case ho => (refine Only.of (fun p hp => ?_) rfl; cases p <;> first | rfl | (refine absurd ?_ hp; decide))); (case hi => exact IoKept.refl _); (case ht => (repeat' first | with_reducible exact T1Kept.refl _ | with_reducible apply T1Kept.ite | with_reducible apply T1Kept.foldl | with_reducible apply T1Kept.put | with_reducible apply T1Kept.filter | (fail_if_no_progress with_reducible apply T1Kept.upd) | intro _ | dsimp only | split))))
    | intro _
    | dsimp only
    | split
theorem State.writeRuns_kept {ml : List StateField} {mz : State} {s : State} {i : Nat} {runs : List JRun} (mhl : [.t1, .stalls] ⊆ ml) (mh : Kept ml mz s) : Kept ml mz (State.writeRuns s i runs) :=
  Kept.after ((State.writeRuns_frame s i runs).mono mhl) mh

theorem State.growQueue_frame (s : State) (i : Nat) (n : Nat) {v0 : State} (me : State.growQueue s i n = some v0) : Kept [.t1, .stalls] s v0 := by
  induction n generalizing s with
  | zero => cases me; exact Kept.refl _
  | succ n ih =>
    unfold State.growQueue at me
    dsimp only at me
    split at me
    · contradiction
    · split at me
      · contradiction
      · next g s1 hg => exact Kept.after (ih _ me) (State.setStall_kept (by decide) (State.alloc_kept (by decide) hg (Kept.refl _)))
theorem State.growQueue_kept {ml : List StateField} {mz : State} {s : State} {i : Nat} {n : Nat} {v0 : State} (mhl : [.t1, .stalls] ⊆ ml) (me : State.growQueue s i n = some v0) (mh : Kept ml mz s) : Kept ml mz v0 :=
  Kept.after ((State.growQueue_frame s i n me).mono mhl) mh

theorem State.queueTokens_frame (s : State) (i : Nat) (toks : List Nat) {v0 : State} (me : State.queueTokens s i toks = some v0) : Kept [.t1, .stalls] s v0 := by
  unfold State.queueTokens at me
  try dsimp only at me
  repeat' first
    | contradiction
    | (cases me; done)
    | cases me
    | (rw [Option.map_eq_some_iff] at me; obtain ⟨_, _, me⟩ := me; cases me)
    | (rw [Option.bind_eq_some_iff] at me; obtain ⟨_, _, me⟩ := me)
    | split at me
  all_goals
    repeat' first
      | with_reducible exact Kept.refl _
      | ((with_reducible apply Laws.State.growQueue_kept ?mhl (by assumption)); (case mhl => decide))
      | ((with_reducible apply Laws.State.setStall_kept); (case mhl => decide))
      | with_reducible apply Kept.ite
      | (fail_if_no_progress ((with_reducible apply Kept.upd); (case ho => (refine Only.of (fun p hp => ?_) rfl; cases p <;> first | rfl | (refine absurd ?_ hp; decide))); (case hi => exact IoKept.refl _); (case ht => (repeat' first | with_reducible exact T1Kept.refl _ | with_reducible apply T1Kept.ite | with_reducible apply T1Kept.foldl | with_reducible apply T1Kept.put | with_reducible apply T1Kept.filter | (fail_if_no_progress with_reducible apply T1Kept.upd) | intro _ | dsimp only | split))))
      | intro _
      | dsimp only
      | split
theorem State.queueTokens_kept {ml : List StateField} {mz : State} {s : State} {i : Nat} {toks : List Nat} {v0 : State} (mhl : [.t1, .stalls] ⊆ ml) (me : State.queueTokens s i toks = some v0) (mh : Kept ml mz s) : Kept ml mz v0 :=
  Kept.after ((State.queueTokens_frame s i toks me).mono mhl) mh

theorem State.takeInput_frame (s : State) (i n : Nat) : Kept [.t1, .stalls] s (State.takeInput s i n) := by
  unfold State.takeInput
  try dsimp only
  repeat' first
    | with_reducible exact Kept.refl _
    | ((with_reducible apply Laws.State.quarantine_kept); (case mhl => decide))
    | ((with_reducible apply Laws.State.setStall_kept); (case mhl => decide))
    | with_reducible apply Kept.ite
    | with_reducible apply Kept.foldl
    | with_reducible apply Kept.foldlFst
    | with_reducible apply Kept.foldlSnd
    | (fail_if_no_progress ((with_reducible apply Kept.upd); (case ho => (refine Only.of (fun p hp => ?_) rfl; cases p <;> first | rfl | (refine absurd ?_ hp; decide))); (case hi => exact IoKept.refl _); (case ht => (repeat' first | with_reducible exact T1Kept.refl _ | with_reducible apply T1Kept.ite | with_reducible apply T1Kept.foldl | with_reducible apply T1Kept.put | with_reducible apply T1Kept.filter | (fail_if_no_progress with_reducible apply T1Kept.upd) | intro _ | dsimp only | split))))
    | intro _
    | dsimp only
    | split
theorem State.takeInput_kept {ml : List StateField} {mz : State} {s : State} {i n : Nat} (mhl : [.t1, .stalls] ⊆ ml) (mh : Kept ml mz s) : Kept ml mz (State.takeInput s i n) :=
  Kept.after ((State.takeInput_frame s i n).mono mhl) mh

theorem State.enterHot_frame (s : State) (i : Nat) : Kept [.stalls] s (State.enterHot s i) := by
  unfold State.enterHot
  try dsimp only
  repeat' first
    | with_reducible exact Kept.refl _
    | ((with_reducible apply Laws.State.setStall_kept); (case mhl => decide))
    | with_reducible apply Kept.ite
    | (fail_if_no_progress ((with_reducible apply Kept.upd); (case ho => (refine Only.of (fun p hp => ?_) rfl; cases p <;> first | rfl | (refine absurd ?_ hp; decide))); (case hi => exact IoKept.refl _); (case ht => exact T1Kept.refl _)))
    | intro _
    | dsimp only
    | split
theorem State.enterHot_kept {ml : List StateField} {mz : State} {s : State} {i : Nat} (mhl : [.stalls] ⊆ ml) (mh : Kept ml mz s) : Kept ml mz (State.enterHot s i) :=
  Kept.after ((State.enterHot_frame s i).mono mhl) mh

theorem State.enterWaiting_frame (s : State) (i : Nat) : Kept [.io, .stalls] s (State.enterWaiting s i) := by
  unfold State.enterWaiting
  try dsimp only
  repeat' first
    | with_reducible exact Kept.refl _
    | ((with_reducible apply Laws.State.setStall_kept); (case mhl => decide))
    | ((with_reducible apply Laws.State.stallEvent_kept); (case mhl => decide))
    | with_reducible apply Kept.ite
    | (fail_if_no_progress ((with_reducible apply Kept.upd); (case ho => (refine Only.of (fun p hp => ?_) rfl; cases p <;> first | rfl | (refine absurd ?_ hp; decide))); (case hi => (repeat' first | with_reducible exact IoKept.refl _ | with_reducible apply IoKept.ite | with_reducible apply IoKept.foldl | with_reducible apply IoKept.put | with_reducible apply IoKept.filter | (fail_if_no_progress with_reducible apply IoKept.upd) | intro _ | dsimp only | split)); (case ht => exact T1Kept.refl _)))
    | intro _
    | dsimp only
    | split
theorem State.enterWaiting_kept {ml : List StateField} {mz : State} {s : State} {i : Nat} (mhl : [.io, .stalls] ⊆ ml) (mh : Kept ml mz s) : Kept ml mz (State.enterWaiting s i) :=
  Kept.after ((State.enterWaiting_frame s i).mono mhl) mh

theorem State.enterState_frame (s : State) (i : Nat) (st : StallState) : Kept [.io, .stalls] s (State.enterState s i st) := by
  unfold State.enterState
  try dsimp only
  repeat' first
    | with_reducible exact Kept.refl _
    | ((with_reducible apply Laws.State.enterWaiting_kept); (case mhl => decide))
    | ((with_reducible apply Laws.State.setStall_kept); (case mhl => decide))
    | with_reducible apply Kept.ite
    | (fail_if_no_progress ((with_reducible apply Kept.upd); (case ho => (refine Only.of (fun p hp => ?_) rfl; cases p <;> first | rfl | (refine absurd ?_ hp; decide))); (case hi => (repeat' first | with_reducible exact IoKept.refl _ | with_reducible apply IoKept.ite | with_reducible apply IoKept.foldl | with_reducible apply IoKept.put | with_reducible apply IoKept.filter | (fail_if_no_progress with_reducible apply IoKept.upd) | intro _ | dsimp only | split)); (case ht => exact T1Kept.refl _)))
    | intro _
    | dsimp only
    | split
theorem State.enterState_kept {ml : List StateField} {mz : State} {s : State} {i : Nat} {st : StallState} (mhl : [.io, .stalls] ⊆ ml) (mh : Kept ml mz s) : Kept ml mz (State.enterState s i st) :=
  Kept.after ((State.enterState_frame s i st).mono mhl) mh

theorem State.freeSlot_frame (s : State) (i : Nat) : Kept [.io, .t1, .shed, .stalls] s (State.freeSlot s i) := by
  unfold State.freeSlot
  try dsimp only
  repeat' first
    | with_reducible exact Kept.refl _
    | ((with_reducible apply Laws.State.releasePages_kept); (case mhl => decide))
    | ((with_reducible apply Laws.State.setDirty_kept); (case mhl => decide))
    | ((with_reducible apply Laws.State.setStall_kept); (case mhl => decide))
    | ((with_reducible apply Laws.State.shedRelease_kept); (case mhl => decide))
    | ((with_reducible apply Laws.State.stallEvent_kept); (case mhl => decide))
    | with_reducible apply Kept.ite
    | with_reducible apply Kept.foldl
    | with_reducible apply Kept.foldlFst
    | with_reducible apply Kept.foldlSnd
    | intro _
    | dsimp only
    | split
theorem State.freeSlot_kept {ml : List StateField} {mz : State} {s : State} {i : Nat} (mhl : [.io, .t1, .shed, .stalls] ⊆ ml) (mh : Kept ml mz s) : Kept ml mz (State.freeSlot s i) :=
  Kept.after ((State.freeSlot_frame s i).mono mhl) mh

theorem State.setMirrors_frame (s : State) (l : List Mirror) : Kept [.io, .mirrors] s (State.setMirrors s l) := by
  unfold State.setMirrors
  try dsimp only
  repeat' first
    | with_reducible exact Kept.refl _
    | ((with_reducible apply Laws.State.put_kept); (case mhl => decide))
    | with_reducible apply Kept.ite
    | (fail_if_no_progress ((with_reducible apply Kept.upd); (case ho => (refine Only.of (fun p hp => ?_) rfl; cases p <;> first | rfl | (refine absurd ?_ hp; decide))); (case hi => (repeat' first | with_reducible exact IoKept.refl _ | with_reducible apply Laws.Io.put_kept | with_reducible apply IoKept.ite | with_reducible apply IoKept.foldl | with_reducible apply IoKept.put | with_reducible apply IoKept.filter | (fail_if_no_progress with_reducible apply IoKept.upd) | intro _ | dsimp only | split)); (case ht => exact T1Kept.refl _)))
    | intro _
    | dsimp only
    | split
theorem State.setMirrors_kept {ml : List StateField} {mz : State} {s : State} {l : List Mirror} (mhl : [.io, .mirrors] ⊆ ml) (mh : Kept ml mz s) : Kept ml mz (State.setMirrors s l) :=
  Kept.after ((State.setMirrors_frame s l).mono mhl) mh

theorem State.dissolve_frame (s : State) (p : Mirror → Bool) : Kept [.io, .mirrors, .answers] s (State.dissolve s p) := by
  unfold State.dissolve
  try dsimp only
  repeat' first
    | with_reducible exact Kept.refl _
    | ((with_reducible apply Laws.State.complete_kept); (case mhl => decide))
    | ((with_reducible apply Laws.State.setMirrors_kept); (case mhl => decide))
    | with_reducible apply Kept.ite
    | with_reducible apply Kept.foldl
    | with_reducible apply Kept.foldlFst
    | with_reducible apply Kept.foldlSnd
    | (fail_if_no_progress ((with_reducible apply Kept.upd); (case ho => (refine Only.of (fun p hp => ?_) rfl; cases p <;> first | rfl | (refine absurd ?_ hp; decide))); (case hi => (repeat' first | with_reducible exact IoKept.refl _ | with_reducible apply IoKept.ite | with_reducible apply IoKept.foldl | with_reducible apply IoKept.put | with_reducible apply IoKept.filter | (fail_if_no_progress with_reducible apply IoKept.upd) | intro _ | dsimp only | split)); (case ht => exact T1Kept.refl _)))
    | intro _
    | dsimp only
    | split
theorem State.dissolve_kept {ml : List StateField} {mz : State} {s : State} {p : Mirror → Bool} (mhl : [.io, .mirrors, .answers] ⊆ ml) (mh : Kept ml mz s) : Kept ml mz (State.dissolve s p) :=
  Kept.after ((State.dissolve_frame s p).mono mhl) mh

end Sys2Proof.Laws
end

