-- ==== Sys2Proof/Laws/KeptStallXfer.lean ====
section
/-! SUPPORT. The frame lemma of every operation of Machine/StallXfer.lean: which fields of the state it may change, and that it keeps the canonical
forms. -/

set_option Elab.async false
set_option linter.unusedTactic false
set_option linter.unreachableTactic false
set_option linter.unusedVariables false

namespace Sys2Proof.Laws

open Sys2Proof Sys2Proof.Machine Sys2Proof.Safety

theorem State.textConfigBad_frame (s : State) (i : Nat) : Kept [.io] s (State.textConfigBad s i) := by
  unfold State.textConfigBad
  try dsimp only
  repeat' first
    | with_reducible exact Kept.refl _
    | ((with_reducible apply Laws.State.stallEvent_kept); (case mhl => decide))
    | with_reducible apply Kept.ite
    | intro _
    | dsimp only
    | split
theorem State.textConfigBad_kept {ml : List StateField} {mz : State} {s : State} {i : Nat} (mhl : [.io] ⊆ ml) (mh : Kept ml mz s) : Kept ml mz (State.textConfigBad s i) :=
  Kept.after ((State.textConfigBad_frame s i).mono mhl) mh

theorem State.noteBadToken_frame (s : State) (i : Nat) (bad : Bool) : Kept [.io] s (State.noteBadToken s i bad) := by
  unfold State.noteBadToken
  try dsimp only
  repeat' first
    | with_reducible exact Kept.refl _
    | ((with_reducible apply Laws.State.stallEvent_kept); (case mhl => decide))
    | with_reducible apply Kept.ite
    | intro _
    | dsimp only
    | split
theorem State.noteBadToken_kept {ml : List StateField} {mz : State} {s : State} {i : Nat} {bad : Bool} (mhl : [.io] ⊆ ml) (mh : Kept ml mz s) : Kept ml mz (State.noteBadToken s i bad) :=
  Kept.after ((State.noteBadToken_frame s i bad).mono mhl) mh

theorem State.holdInput_frame (s : State) (i : Nat) (held : List (Nat × Bool × List Byte)) : Kept [.io, .stalls] s (State.holdInput s i held) := by
  unfold State.holdInput
  try dsimp only
  repeat' first
    | with_reducible exact Kept.refl _
    | ((with_reducible apply Laws.State.setStall_kept); (case mhl => decide))
    | ((with_reducible apply Laws.State.stallEvent_kept); (case mhl => decide))
    | ((with_reducible apply Laws.State.textConfigBad_kept); (case mhl => decide))
    | with_reducible apply Kept.ite
    | (fail_if_no_progress ((with_reducible apply Kept.upd); (case ho => (refine Only.of (fun p hp => ?_) rfl; cases p <;> first | rfl | (refine absurd ?_ hp; decide))); (case hi => (repeat' first | with_reducible exact IoKept.refl _ | with_reducible apply IoKept.ite | with_reducible apply IoKept.foldl | with_reducible apply IoKept.put | with_reducible apply IoKept.filter | (fail_if_no_progress with_reducible apply IoKept.upd) | intro _ | dsimp only | split)); (case ht => exact T1Kept.refl _)))
    | intro _
    | dsimp only
    | split
theorem State.holdInput_kept {ml : List StateField} {mz : State} {s : State} {i : Nat} {held : List (Nat × Bool × List Byte)} (mhl : [.io, .stalls] ⊆ ml) (mh : Kept ml mz s) : Kept ml mz (State.holdInput s i held) :=
  Kept.after ((State.holdInput_frame s i held).mono mhl) mh

theorem State.lookInput_frame (s : State) (t : Nat) (inputs : List (List Byte)) : Kept [.io, .t1, .textCache] s (State.lookInput s t inputs) := by
  unfold State.lookInput
  try dsimp only
  repeat' first
    | with_reducible exact Kept.refl _
    | ((with_reducible apply Laws.State.lookUp_kept); (case mhl => decide))
    | with_reducible apply Kept.ite
    | with_reducible apply Kept.foldl
    | with_reducible apply Kept.foldlFst
    | with_reducible apply Kept.foldlSnd
    | intro _
    | dsimp only
    | split
theorem State.lookInput_kept {ml : List StateField} {mz : State} {s : State} {t : Nat} {inputs : List (List Byte)} (mhl : [.io, .t1, .textCache] ⊆ ml) (mh : Kept ml mz s) : Kept ml mz (State.lookInput s t inputs) :=
  Kept.after ((State.lookInput_frame s t inputs).mono mhl) mh

theorem State.rebuildQueue_frame (s : State) (i : Nat) (records : List JRecord) {v0 : State} {v1 : Option Nat} (me : State.rebuildQueue s i records = some (v0, v1)) : Kept [.io, .t1, .stalls, .textCache] s v0 := by
  unfold State.rebuildQueue at me
  try dsimp only at me
  repeat' first
    | contradiction
    | (cases me; done)
    | cases me
    | (rw [Option.map_eq_some_iff] at me; obtain ⟨_, _, me⟩ := me; cases me)
    | (rw [Option.bind_eq_some_iff] at me; obtain ⟨_, _, me⟩ := me)
    | split at me
  all_goals
    repeat' first
      | with_reducible exact Kept.refl _
      | ((with_reducible apply Laws.State.holdInput_kept); (case mhl => decide))
      | ((with_reducible apply Laws.State.lookInput_kept); (case mhl => decide))
      | ((with_reducible apply Laws.State.noteBadToken_kept); (case mhl => decide))
      | ((with_reducible apply Laws.State.queueTokens_kept ?mhl (by assumption)); (case mhl => decide))
      | ((with_reducible apply Laws.State.setStall_kept); (case mhl => decide))
      | with_reducible apply Kept.ite
      | (fail_if_no_progress ((with_reducible apply Kept.upd); (case ho => (refine Only.of (fun p hp => ?_) rfl; cases p <;> first | rfl | (refine absurd ?_ hp; decide))); (case hi => (repeat' first | with_reducible exact IoKept.refl _ | with_reducible apply IoKept.ite | with_reducible apply IoKept.foldl | with_reducible apply IoKept.put | with_reducible apply IoKept.filter | (fail_if_no_progress with_reducible apply IoKept.upd) | intro _ | dsimp only | split)); (case ht => (repeat' first | with_reducible exact T1Kept.refl _ | with_reducible apply T1Kept.ite | with_reducible apply T1Kept.foldl | with_reducible apply T1Kept.put | with_reducible apply T1Kept.filter | (fail_if_no_progress with_reducible apply T1Kept.upd) | intro _ | dsimp only | split))))
      | intro _
      | dsimp only
      | split
theorem State.rebuildQueue_kept {ml : List StateField} {mz : State} {s : State} {i : Nat} {records : List JRecord} {v0 : State} {v1 : Option Nat} (mhl : [.io, .t1, .stalls, .textCache] ⊆ ml) (me : State.rebuildQueue s i records = some (v0, v1)) (mh : Kept ml mz s) : Kept ml mz v0 :=
  Kept.after ((State.rebuildQueue_frame s i records me).mono mhl) mh

theorem State.giveInput_frame (s : State) (i : Nat) (input : List (List Byte)) : Kept [.io, .t1, .shed, .stalls, .textCache] s (State.giveInput s i input).1 := by
  unfold State.giveInput
  dsimp only
  split
  · exact State.textConfigBad_kept (by decide) (State.lookInput_kept (by decide) (Kept.refl _))
  · exact State.textConfigBad_kept (by decide) (State.lookInput_kept (by decide) (Kept.refl _))
  · split
    · exact State.lookInput_kept (by decide) (Kept.refl _)
    · next h =>
      refine State.noteBadToken_kept (by decide) (State.setStall_kept (by decide) (Kept.foldlBind h (fun u hu => ?_) (fun a b e he => ?_)))
      · exact State.queueTokens_kept (by decide) hu (State.lookInput_kept (by decide) (Kept.refl _))
      · rw [Option.bind_eq_some_iff] at he
        obtain ⟨v, hv, he⟩ := he
        exact State.queueTokens_kept (by decide) he (State.journalIf_kept (by decide) hv (Kept.refl _))
theorem State.giveInput_kept {ml : List StateField} {mz : State} {s : State} {i : Nat} {input : List (List Byte)} (mhl : [.io, .t1, .shed, .stalls, .textCache] ⊆ ml) (mh : Kept ml mz s) : Kept ml mz (State.giveInput s i input).1 :=
  Kept.after ((State.giveInput_frame s i input).mono mhl) mh
theorem State.giveInput_kept' {ml : List StateField} {mz : State} {s : State} {i : Nat} {input : List (List Byte)} {v0 : State} {v1 : Nat} (mhl : [.io, .t1, .shed, .stalls, .textCache] ⊆ ml) (me : State.giveInput s i input = (v0, v1)) (mh : Kept ml mz s) : Kept ml mz v0 := by
  have mk := Kept.after ((State.giveInput_frame s i input).mono mhl) mh
  rw [me] at mk
  exact mk

theorem State.startPark_frame (s : State) (i ports : Nat) (c : Option Cmd) : Kept [.t1, .stalls] s (State.startPark s i ports c) := by
  unfold State.startPark
  try dsimp only
  repeat' first
    | with_reducible exact Kept.refl _
    | ((with_reducible apply Laws.State.dropRelocs_kept); (case mhl => decide))
    | ((with_reducible apply Laws.State.setStall_kept); (case mhl => decide))
    | with_reducible apply Kept.ite
    | (fail_if_no_progress ((with_reducible apply Kept.upd); (case ho => (refine Only.of (fun p hp => ?_) rfl; cases p <;> first | rfl | (refine absurd ?_ hp; decide))); (case hi => exact IoKept.refl _); (case ht => (repeat' first | with_reducible exact T1Kept.refl _ | with_reducible apply T1Kept.ite | with_reducible apply T1Kept.foldl | with_reducible apply T1Kept.put | with_reducible apply T1Kept.filter | (fail_if_no_progress with_reducible apply T1Kept.upd) | intro _ | dsimp only | split))))
    | intro _
    | dsimp only
    | split
theorem State.startPark_kept {ml : List StateField} {mz : State} {s : State} {i ports : Nat} {c : Option Cmd} (mhl : [.t1, .stalls] ⊆ ml) (mh : Kept ml mz s) : Kept ml mz (State.startPark s i ports c) :=
  Kept.after ((State.startPark_frame s i ports c).mono mhl) mh

theorem State.abandonPark_frame (s : State) (i : Nat) : Kept [.io, .stalls, .answers] s (State.abandonPark s i) := by
  unfold State.abandonPark
  try dsimp only
  repeat' first
    | with_reducible exact Kept.refl _
    | ((with_reducible apply Laws.State.complete_kept); (case mhl => decide))
    | ((with_reducible apply Laws.State.enterWaiting_kept); (case mhl => decide))
    | ((with_reducible apply Laws.State.setStall_kept); (case mhl => decide))
    | with_reducible apply Kept.ite
    | (fail_if_no_progress ((with_reducible apply Kept.upd); (case ho => (refine Only.of (fun p hp => ?_) rfl; cases p <;> first | rfl | (refine absurd ?_ hp; decide))); (case hi => (repeat' first | with_reducible exact IoKept.refl _ | with_reducible apply IoKept.ite | with_reducible apply IoKept.foldl | with_reducible apply IoKept.put | with_reducible apply IoKept.filter | (fail_if_no_progress with_reducible apply IoKept.upd) | intro _ | dsimp only | split)); (case ht => exact T1Kept.refl _)))
    | intro _
    | dsimp only
    | split
theorem State.abandonPark_kept {ml : List StateField} {mz : State} {s : State} {i : Nat} (mhl : [.io, .stalls, .answers] ⊆ ml) (mh : Kept ml mz s) : Kept ml mz (State.abandonPark s i) :=
  Kept.after ((State.abandonPark_frame s i).mono mhl) mh

theorem State.sealImage_frame (s : State) (i ports : Nat) {v0 : State} (me : State.sealImage s i ports = some v0) : Kept [.t1, .shed, .stalls] s v0 := by
  unfold State.sealImage at me
  dsimp only at me
  rw [Option.map_eq_some_iff] at me
  obtain ⟨u, hu, me⟩ := me
  rw [Option.bind_eq_some_iff] at hu
  obtain ⟨v, hv, hu⟩ := hu
  rw [← me]
  exact State.releasePages_kept (by decide) (State.setStall_kept (by decide) (State.journalIf_kept (by decide) hu (State.journalIf_kept (by decide) hv
    (State.updHdr_kept (by decide) (Kept.refl _)))))
theorem State.sealImage_kept {ml : List StateField} {mz : State} {s : State} {i ports : Nat} {v0 : State} (mhl : [.t1, .shed, .stalls] ⊆ ml) (me : State.sealImage s i ports = some v0) (mh : Kept ml mz s) : Kept ml mz v0 :=
  Kept.after ((State.sealImage_frame s i ports me).mono mhl) mh

theorem State.finishPark_frame (s : State) (i : Nat) : Kept [.io, .t1, .shed, .stalls, .answers] s (State.finishPark s i) := by
  unfold State.finishPark
  dsimp only
  split
  · exact Kept.refl _
  split
  · exact Kept.refl _
  next h =>
  rw [Option.bind_eq_some_iff] at h
  obtain ⟨u, hu, hs⟩ := h
  have k : Kept [.io, .t1, .shed, .stalls, .answers] s _ := State.sealImage_kept (by decide) hs (State.journalUpTo_kept (by decide) hu (Kept.refl _))
  split
  · exact State.complete_kept (by decide) (State.setStall_kept (by decide) k)
  · exact State.setStall_kept (by decide) k
theorem State.finishPark_kept {ml : List StateField} {mz : State} {s : State} {i : Nat} (mhl : [.io, .t1, .shed, .stalls, .answers] ⊆ ml) (mh : Kept ml mz s) : Kept ml mz (State.finishPark s i) :=
  Kept.after ((State.finishPark_frame s i).mono mhl) mh

theorem State.reviveAnswer_frame (s : State) (cause : ReviveCause) (status r0 : Nat) : Kept [.io, .answers] s (State.reviveAnswer s cause status r0) := by
  unfold State.reviveAnswer
  try dsimp only
  repeat' first
    | with_reducible exact Kept.refl _
    | ((with_reducible apply Laws.State.complete_kept); (case mhl => decide))
    | with_reducible apply Kept.ite
    | (fail_if_no_progress ((with_reducible apply Kept.upd); (case ho => (refine Only.of (fun p hp => ?_) rfl; cases p <;> first | rfl | (refine absurd ?_ hp; decide))); (case hi => (repeat' first | with_reducible exact IoKept.refl _ | with_reducible apply IoKept.ite | with_reducible apply IoKept.foldl | with_reducible apply IoKept.put | with_reducible apply IoKept.filter | (fail_if_no_progress with_reducible apply IoKept.upd) | intro _ | dsimp only | split)); (case ht => exact T1Kept.refl _)))
    | intro _
    | dsimp only
    | split
theorem State.reviveAnswer_kept {ml : List StateField} {mz : State} {s : State} {cause : ReviveCause} {status r0 : Nat} (mhl : [.io, .answers] ⊆ ml) (mh : Kept ml mz s) : Kept ml mz (State.reviveAnswer s cause status r0) :=
  Kept.after ((State.reviveAnswer_frame s cause status r0).mono mhl) mh

theorem State.reviveNoRoom_frame (s : State) (i : Nat) (r : ReviveX) : Kept [.io, .stalls, .answers] s (State.reviveNoRoom s i r) := by
  unfold State.reviveNoRoom
  try dsimp only
  repeat' first
    | with_reducible exact Kept.refl _
    | ((with_reducible apply Laws.State.reviveAnswer_kept); (case mhl => decide))
    | ((with_reducible apply Laws.State.setStall_kept); (case mhl => decide))
    | ((with_reducible apply Laws.State.stallEvent_kept); (case mhl => decide))
    | with_reducible apply Kept.ite
    | (fail_if_no_progress ((with_reducible apply Kept.upd); (case ho => (refine Only.of (fun p hp => ?_) rfl; cases p <;> first | rfl | (refine absurd ?_ hp; decide))); (case hi => (repeat' first | with_reducible exact IoKept.refl _ | with_reducible apply IoKept.ite | with_reducible apply IoKept.foldl | with_reducible apply IoKept.put | with_reducible apply IoKept.filter | (fail_if_no_progress with_reducible apply IoKept.upd) | intro _ | dsimp only | split)); (case ht => exact T1Kept.refl _)))
    | intro _
    | dsimp only
    | split
theorem State.reviveNoRoom_kept {ml : List StateField} {mz : State} {s : State} {i : Nat} {r : ReviveX} (mhl : [.io, .stalls, .answers] ⊆ ml) (mh : Kept ml mz s) : Kept ml mz (State.reviveNoRoom s i r) :=
  Kept.after ((State.reviveNoRoom_frame s i r).mono mhl) mh

theorem State.takeSlot_frame (s : State) (i : Nat) {v0 : State} (me : State.takeSlot s i = some v0) : Kept [.stalls] s v0 := by
  unfold State.takeSlot at me
  try dsimp only at me
  repeat' first
    | contradiction
    | (cases me; done)
    | cases me
    | (rw [Option.map_eq_some_iff] at me; obtain ⟨_, _, me⟩ := me; cases me)
    | (rw [Option.bind_eq_some_iff] at me; obtain ⟨_, _, me⟩ := me)
    | split at me
  all_goals
    repeat' first
      | with_reducible exact Kept.refl _
      | ((with_reducible apply Laws.State.takePoolSlot_kept); (case mhl => decide))
      | with_reducible apply Kept.ite
      | intro _
      | dsimp only
      | split
theorem State.takeSlot_kept {ml : List StateField} {mz : State} {s : State} {i : Nat} {v0 : State} (mhl : [.stalls] ⊆ ml) (me : State.takeSlot s i = some v0) (mh : Kept ml mz s) : Kept ml mz v0 :=
  Kept.after ((State.takeSlot_frame s i me).mono mhl) mh

theorem State.takeTable_frame (s : State) (i pref : Nat) {v0 : State} (me : State.takeTable s i pref = some v0) : Kept [.t1, .stalls] s v0 := by
  unfold State.takeTable at me
  try dsimp only at me
  repeat' first
    | contradiction
    | (cases me; done)
    | cases me
    | (rw [Option.map_eq_some_iff] at me; obtain ⟨_, _, me⟩ := me; cases me)
    | (rw [Option.bind_eq_some_iff] at me; obtain ⟨_, _, me⟩ := me)
    | split at me
  all_goals
    repeat' first
      | with_reducible exact Kept.refl _
      | ((with_reducible apply Laws.State.placeTable_kept ?mhl (by assumption)); (case mhl => decide))
      | ((with_reducible apply Laws.State.setStall_kept); (case mhl => decide))
      | with_reducible apply Kept.ite
      | (fail_if_no_progress ((with_reducible apply Kept.upd); (case ho => (refine Only.of (fun p hp => ?_) rfl; cases p <;> first | rfl | (refine absurd ?_ hp; decide))); (case hi => exact IoKept.refl _); (case ht => (repeat' first | with_reducible exact T1Kept.refl _ | with_reducible apply T1Kept.ite | with_reducible apply T1Kept.foldl | with_reducible apply T1Kept.put | with_reducible apply T1Kept.filter | (fail_if_no_progress with_reducible apply T1Kept.upd) | intro _ | dsimp only | split))))
      | intro _
      | dsimp only
      | split
theorem State.takeTable_kept {ml : List StateField} {mz : State} {s : State} {i pref : Nat} {v0 : State} (mhl : [.t1, .stalls] ⊆ ml) (me : State.takeTable s i pref = some v0) (mh : Kept ml mz s) : Kept ml mz v0 :=
  Kept.after ((State.takeTable_frame s i pref me).mono mhl) mh

theorem State.undoRevive_frame (s : State) (i : Nat) : Kept [.t1, .stalls] s (State.undoRevive s i) := by
  unfold State.undoRevive
  try dsimp only
  repeat' first
    | with_reducible exact Kept.refl _
    | ((with_reducible apply Laws.State.freeOwned_kept); (case mhl => decide))
    | ((with_reducible apply Laws.State.setStall_kept); (case mhl => decide))
    | with_reducible apply Kept.ite
    | (fail_if_no_progress ((with_reducible apply Kept.upd); (case ho => (refine Only.of (fun p hp => ?_) rfl; cases p <;> first | rfl | (refine absurd ?_ hp; decide))); (case hi => exact IoKept.refl _); (case ht => (repeat' first | with_reducible exact T1Kept.refl _ | with_reducible apply T1Kept.ite | with_reducible apply T1Kept.foldl | with_reducible apply T1Kept.put | with_reducible apply T1Kept.filter | (fail_if_no_progress with_reducible apply T1Kept.upd) | intro _ | dsimp only | split))))
    | intro _
    | dsimp only
    | split
theorem State.undoRevive_kept {ml : List StateField} {mz : State} {s : State} {i : Nat} (mhl : [.t1, .stalls] ⊆ ml) (mh : Kept ml mz s) : Kept ml mz (State.undoRevive s i) :=
  Kept.after ((State.undoRevive_frame s i).mono mhl) mh

theorem State.startRevive_frame (s : State) (i : Nat) (r : ReviveX) : Kept [.io, .t1, .stalls, .answers] s (State.startRevive s i r) := by
  unfold State.startRevive
  try dsimp only
  repeat' first
    | with_reducible exact Kept.refl _
    | ((with_reducible apply Laws.State.reviveAnswer_kept); (case mhl => decide))
    | ((with_reducible apply Laws.State.reviveNoRoom_kept); (case mhl => decide))
    | ((with_reducible apply Laws.State.setStall_kept); (case mhl => decide))
    | ((with_reducible apply Laws.State.takeSlot_kept ?mhl (by assumption)); (case mhl => decide))
    | ((with_reducible apply Laws.State.takeTable_kept ?mhl (by assumption)); (case mhl => decide))
    | with_reducible apply Kept.ite
    | (fail_if_no_progress ((with_reducible apply Kept.upd); (case ho => (refine Only.of (fun p hp => ?_) rfl; cases p <;> first | rfl | (refine absurd ?_ hp; decide))); (case hi => (repeat' first | with_reducible exact IoKept.refl _ | with_reducible apply IoKept.ite | with_reducible apply IoKept.foldl | with_reducible apply IoKept.put | with_reducible apply IoKept.filter | (fail_if_no_progress with_reducible apply IoKept.upd) | intro _ | dsimp only | split)); (case ht => (repeat' first | with_reducible exact T1Kept.refl _ | with_reducible apply T1Kept.ite | with_reducible apply T1Kept.foldl | with_reducible apply T1Kept.put | with_reducible apply T1Kept.filter | (fail_if_no_progress with_reducible apply T1Kept.upd) | intro _ | dsimp only | split))))
    | intro _
    | dsimp only
    | split
theorem State.startRevive_kept {ml : List StateField} {mz : State} {s : State} {i : Nat} {r : ReviveX} (mhl : [.io, .t1, .stalls, .answers] ⊆ ml) (mh : Kept ml mz s) : Kept ml mz (State.startRevive s i r) :=
  Kept.after ((State.startRevive_frame s i r).mono mhl) mh

theorem State.fillPages_frame (s : State) (i len : Nat) (records : List JRecord) : Kept [.t1, .stalls] s (State.fillPages s i len records) := by
  unfold State.fillPages
  try dsimp only
  repeat' first
    | with_reducible exact Kept.refl _
    | ((with_reducible apply Laws.State.setStall_kept); (case mhl => decide))
    | ((with_reducible apply Laws.State.writePageHeaders_kept); (case mhl => decide))
    | ((with_reducible apply Laws.State.writeRuns_kept); (case mhl => decide))
    | with_reducible apply Kept.ite
    | (fail_if_no_progress ((with_reducible apply Kept.upd); (case ho => (refine Only.of (fun p hp => ?_) rfl; cases p <;> first | rfl | (refine absurd ?_ hp; decide))); (case hi => exact IoKept.refl _); (case ht => (repeat' first | with_reducible exact T1Kept.refl _ | with_reducible apply T1Kept.ite | with_reducible apply T1Kept.foldl | with_reducible apply T1Kept.put | with_reducible apply T1Kept.filter | (fail_if_no_progress with_reducible apply T1Kept.upd) | intro _ | dsimp only | split))))
    | intro _
    | dsimp only
    | split
theorem State.fillPages_kept {ml : List StateField} {mz : State} {s : State} {i len : Nat} {records : List JRecord} (mhl : [.t1, .stalls] ⊆ ml) (mh : Kept ml mz s) : Kept ml mz (State.fillPages s i len records) :=
  Kept.after ((State.fillPages_frame s i len records).mono mhl) mh

theorem State.consolidate_frame (s : State) (i : Nat) {v0 : State} (me : State.consolidate s i = some v0) : Kept [.io, .shed, .stalls] s v0 := by
  unfold State.consolidate at me
  dsimp only at me
  rw [Option.map_eq_some_iff] at me
  obtain ⟨u, hu, me⟩ := me
  rw [Option.bind_eq_some_iff] at hu
  obtain ⟨v, hv, hu⟩ := hu
  have k : Kept [.io, .shed, .stalls] s u := by
    refine State.journalIf_kept (by decide) hu (Kept.foldlBind hv (fun w hw => ?_) (fun a b e he => ?_))
    · cases hw; exact State.setStall_kept (by decide) (Kept.refl _)
    · exact State.journalIf_kept (by decide) he (Kept.refl _)
  have k2 : Kept [.io, .shed, .stalls] s ((s.stall i).extents.foldl (fun s e => s.shedRelease e.1 e.2) u) :=
    Kept.foldl k (fun t b => State.shedRelease_kept (by decide) (Kept.refl _))
  rw [← me]
  split
  · exact State.setStall_kept (by decide) k2
  · exact State.setDirty_kept (by decide) (State.setStall_kept (by decide) k2)
theorem State.consolidate_kept {ml : List StateField} {mz : State} {s : State} {i : Nat} {v0 : State} (mhl : [.io, .shed, .stalls] ⊆ ml) (me : State.consolidate s i = some v0) (mh : Kept ml mz s) : Kept ml mz v0 :=
  Kept.after ((State.consolidate_frame s i me).mono mhl) mh

theorem State.rewriteLost_frame (s : State) (i : Nat) : Kept [.io, .shed, .stalls] s (State.rewriteLost s i) := by
  unfold State.rewriteLost
  dsimp only
  exact Kept.ite (Kept.getD (Kept.refl _) (fun _ h => State.consolidate_kept (by decide) h (Kept.refl _))) (Kept.refl _)
theorem State.rewriteLost_kept {ml : List StateField} {mz : State} {s : State} {i : Nat} (mhl : [.io, .shed, .stalls] ⊆ ml) (mh : Kept ml mz s) : Kept ml mz (State.rewriteLost s i) :=
  Kept.after ((State.rewriteLost_frame s i).mono mhl) mh

theorem State.reviveImage_frame (s : State) (i : Nat) (usable : List JRecord) {v0 : State} {v1 : Option Nat} (me : State.reviveImage s i usable = some (v0, v1)) : Kept [.io, .t1, .stalls, .textCache] s v0 := by
  unfold State.reviveImage at me
  try dsimp only at me
  repeat' first
    | contradiction
    | (cases me; done)
    | cases me
    | (rw [Option.map_eq_some_iff] at me; obtain ⟨_, _, me⟩ := me; cases me)
    | (rw [Option.bind_eq_some_iff] at me; obtain ⟨_, _, me⟩ := me)
    | split at me
  all_goals
    repeat' first
      | with_reducible exact Kept.refl _
      | ((with_reducible apply Laws.State.fillPages_kept); (case mhl => decide))
      | ((with_reducible apply Laws.State.rebuildQueue_kept ?mhl (by assumption)); (case mhl => decide))
      | ((with_reducible apply Laws.State.setStall_kept); (case mhl => decide))
      | with_reducible apply Kept.ite
      | (fail_if_no_progress ((with_reducible apply Kept.upd); (case ho => (refine Only.of (fun p hp => ?_) rfl; cases p <;> first | rfl | (refine absurd ?_ hp; decide))); (case hi => (repeat' first | with_reducible exact IoKept.refl _ | with_reducible apply IoKept.ite | with_reducible apply IoKept.foldl | with_reducible apply IoKept.put | with_reducible apply IoKept.filter | (fail_if_no_progress with_reducible apply IoKept.upd) | intro _ | dsimp only | split)); (case ht => (repeat' first | with_reducible exact T1Kept.refl _ | with_reducible apply T1Kept.ite | with_reducible apply T1Kept.foldl | with_reducible apply T1Kept.put | with_reducible apply T1Kept.filter | (fail_if_no_progress with_reducible apply T1Kept.upd) | intro _ | dsimp only | split))))
      | intro _
      | dsimp only
      | split
theorem State.reviveImage_kept {ml : List StateField} {mz : State} {s : State} {i : Nat} {usable : List JRecord} {v0 : State} {v1 : Option Nat} (mhl : [.io, .t1, .stalls, .textCache] ⊆ ml) (me : State.reviveImage s i usable = some (v0, v1)) (mh : Kept ml mz s) : Kept ml mz v0 :=
  Kept.after ((State.reviveImage_frame s i usable me).mono mhl) mh

theorem State.engineLook_frame (s : State) (addr n : Nat) : Kept [.io, .t1] s (State.engineLook s addr n) := by
  unfold State.engineLook
  try dsimp only
  repeat' first
    | with_reducible exact Kept.refl _
    | ((with_reducible apply Laws.State.noteBlock_kept); (case mhl => decide))
    | with_reducible apply Kept.ite
    | with_reducible apply Kept.foldl
    | with_reducible apply Kept.foldlFst
    | with_reducible apply Kept.foldlSnd
    | intro _
    | dsimp only
    | split
theorem State.engineLook_kept {ml : List StateField} {mz : State} {s : State} {addr n : Nat} (mhl : [.io, .t1] ⊆ ml) (mh : Kept ml mz s) : Kept ml mz (State.engineLook s addr n) :=
  Kept.after ((State.engineLook_frame s addr n).mono mhl) mh

theorem State.renew_frame (s : State) (addr n : Nat) : Kept [.t1] s (State.renew s addr n) := by
  unfold State.renew
  try dsimp only
  repeat' first
    | with_reducible exact Kept.refl _
    | with_reducible apply Kept.ite
    | (fail_if_no_progress ((with_reducible apply Kept.upd); (case ho => (refine Only.of (fun p hp => ?_) rfl; cases p <;> first | rfl | (refine absurd ?_ hp; decide))); (case hi => exact IoKept.refl _); (case ht => (repeat' first | with_reducible exact T1Kept.refl _ | with_reducible apply T1Kept.ite | with_reducible apply T1Kept.foldl | with_reducible apply T1Kept.put | with_reducible apply T1Kept.filter | (fail_if_no_progress with_reducible apply T1Kept.upd) | intro _ | dsimp only | split))))
    | intro _
    | dsimp only
    | split
theorem State.renew_kept {ml : List StateField} {mz : State} {s : State} {addr n : Nat} (mhl : [.t1] ⊆ ml) (mh : Kept ml mz s) : Kept ml mz (State.renew s addr n) :=
  Kept.after ((State.renew_frame s addr n).mono mhl) mh

theorem State.rollBack_frame (s : State) (i : Nat) (records : List JRecord) : Kept [.io, .t1, .stalls, .textCache] s (State.rollBack s i records) := by
  unfold State.rollBack
  dsimp only
  refine Kept.ite (Kept.refl _) ?_
  have k (x : State) (h : Kept [.io, .t1, .stalls, .textCache] s x) : Kept [.io, .t1, .stalls, .textCache] s (((x.rebuildQueue i records).map (·.1)).getD x) := by
    refine Kept.getD h (fun t ht => ?_)
    rw [Option.map_eq_some_iff] at ht
    obtain ⟨⟨a, b⟩, h1, rfl⟩ := ht
    exact State.rebuildQueue_kept (by decide) h1 h
  exact k _ (State.stallEvent_kept (by decide) (State.setStall_kept (by decide) (State.updHdr_kept (by decide) (State.setDirty_kept (by decide) (Kept.refl _)))))
theorem State.rollBack_kept {ml : List StateField} {mz : State} {s : State} {i : Nat} {records : List JRecord} (mhl : [.io, .t1, .stalls, .textCache] ⊆ ml) (mh : Kept ml mz s) : Kept ml mz (State.rollBack s i records) :=
  Kept.after ((State.rollBack_frame s i records).mono mhl) mh

theorem State.parkUnplaced_frame (s : State) (i : Nat) : Kept [.io, .t1, .shed, .stalls, .answers] s (State.parkUnplaced s i) := by
  unfold State.parkUnplaced
  dsimp only
  have k : Kept [.io, .t1, .shed, .stalls, .answers] s ((s.sealImage i 0).getD (s.setStall i { s.stall i with location := 1, headerAt := shedHeaderAt (s.stall i), poolSlot := none, park := none })) :=
    Kept.getD (State.setStall_kept (by decide) (Kept.refl _)) (fun _ h => State.sealImage_kept (by decide) h (Kept.refl _))
  split
  · exact State.complete_kept (by decide) (State.setStall_kept (by decide) k)
  · exact State.setStall_kept (by decide) k
theorem State.parkUnplaced_kept {ml : List StateField} {mz : State} {s : State} {i : Nat} (mhl : [.io, .t1, .shed, .stalls, .answers] ⊆ ml) (mh : Kept ml mz s) : Kept ml mz (State.parkUnplaced s i) :=
  Kept.after ((State.parkUnplaced_frame s i).mono mhl) mh

theorem State.rebuildTable_frame (s : State) (i : Nat) : Kept [.io, .t1, .shed, .stalls, .answers, .textCache] s (State.rebuildTable s i) := by
  unfold State.rebuildTable
  dsimp only
  have k0 : Kept [.io, .t1, .shed, .stalls, .answers, .textCache] s (s.dropRelocs i) := State.dropRelocs_kept (by decide) (Kept.refl _)
  refine Kept.ite k0 ?_
  split
  · next h =>
    rw [Option.bind_eq_some_iff] at h
    obtain ⟨u, hu, h⟩ := h
    refine State.rebuildQueue_kept (by decide) (v0 := _) (v1 := _) h (State.fillPages_kept (by decide) (State.takeTable_kept (by decide) hu ?_))
    exact State.setStall_kept (by decide) (State.quarantineOwned_kept (by decide) (State.rollBack_kept (by decide) k0))
  · exact State.parkUnplaced_kept (by decide) (State.setStall_kept (by decide) (State.quarantineOwned_kept (by decide) (State.rollBack_kept (by decide) k0)))
theorem State.rebuildTable_kept {ml : List StateField} {mz : State} {s : State} {i : Nat} (mhl : [.io, .t1, .shed, .stalls, .answers, .textCache] ⊆ ml) (mh : Kept ml mz s) : Kept ml mz (State.rebuildTable s i) :=
  Kept.after ((State.rebuildTable_frame s i).mono mhl) mh

theorem State.rebuildHeader_frame (s : State) (i : Nat) : Kept [.io, .t1, .stalls, .textCache] s (State.rebuildHeader s i) := by
  unfold State.rebuildHeader
  try dsimp only
  repeat' first
    | with_reducible exact Kept.refl _
    | ((with_reducible apply Laws.State.rollBack_kept); (case mhl => decide))
    | ((with_reducible apply Laws.State.setStall_kept); (case mhl => decide))
    | with_reducible apply Kept.ite
    | with_reducible apply Kept.foldl
    | with_reducible apply Kept.foldlFst
    | with_reducible apply Kept.foldlSnd
    | (fail_if_no_progress ((with_reducible apply Kept.upd); (case ho => (refine Only.of (fun p hp => ?_) rfl; cases p <;> first | rfl | (refine absurd ?_ hp; decide))); (case hi => (repeat' first | with_reducible exact IoKept.refl _ | with_reducible apply IoKept.ite | with_reducible apply IoKept.foldl | with_reducible apply IoKept.put | with_reducible apply IoKept.filter | (fail_if_no_progress with_reducible apply IoKept.upd) | intro _ | dsimp only | split)); (case ht => (repeat' first | with_reducible exact T1Kept.refl _ | with_reducible apply T1Kept.ite | with_reducible apply T1Kept.foldl | with_reducible apply T1Kept.put | with_reducible apply T1Kept.filter | (fail_if_no_progress with_reducible apply T1Kept.upd) | intro _ | dsimp only | split))))
    | intro _
    | dsimp only
    | split
theorem State.rebuildHeader_kept {ml : List StateField} {mz : State} {s : State} {i : Nat} (mhl : [.io, .t1, .stalls, .textCache] ⊆ ml) (mh : Kept ml mz s) : Kept ml mz (State.rebuildHeader s i) :=
  Kept.after ((State.rebuildHeader_frame s i).mono mhl) mh

theorem State.healDirectory_frame (s : State) (i : Nat) : Kept [.io, .t1] s (State.healDirectory s i) := by
  unfold State.healDirectory
  refine Kept.ite (Kept.refl _) ?_
  extract_lets a b s1
  have h1 : Kept [.io, .t1] s s1 := State.engineLook_kept (by decide) (State.engineLook_kept (by decide) (Kept.refl _))
  clear_value s1
  split
  · exact State.renew_kept (by decide) h1
  · exact State.renew_kept (by decide) h1
  · exact h1
theorem State.healDirectory_kept {ml : List StateField} {mz : State} {s : State} {i : Nat} (mhl : [.io, .t1] ⊆ ml) (mh : Kept ml mz s) : Kept ml mz (State.healDirectory s i) :=
  Kept.after ((State.healDirectory_frame s i).mono mhl) mh

theorem State.healHeader_frame (s : State) (i : Nat) : Kept [.io, .t1, .stalls, .textCache] s (State.healHeader s i) := by
  unfold State.healHeader
  try dsimp only
  repeat' first
    | with_reducible exact Kept.refl _
    | ((with_reducible apply Laws.State.engineLook_kept); (case mhl => decide))
    | ((with_reducible apply Laws.State.healDirectory_kept); (case mhl => decide))
    | ((with_reducible apply Laws.State.rebuildHeader_kept); (case mhl => decide))
    | ((with_reducible apply Laws.State.renew_kept); (case mhl => decide))
    | with_reducible apply Kept.ite
    | intro _
    | dsimp only
    | split
theorem State.healHeader_kept {ml : List StateField} {mz : State} {s : State} {i : Nat} (mhl : [.io, .t1, .stalls, .textCache] ⊆ ml) (mh : Kept ml mz s) : Kept ml mz (State.healHeader s i) :=
  Kept.after ((State.healHeader_frame s i).mono mhl) mh

theorem State.rewritePages_frame (s : State) (i : Nat) (pages : List (Nat × Nat × Nat × Nat)) (above : Bool) : Kept [.io, .t1, .stalls, .textCache] s (State.rewritePages s i pages above) := by
  unfold State.rewritePages
  try dsimp only
  repeat' first
    | with_reducible exact Kept.refl _
    | ((with_reducible apply Laws.State.rollBack_kept); (case mhl => decide))
    | ((with_reducible apply Laws.State.setStall_kept); (case mhl => decide))
    | ((with_reducible apply Laws.State.writeRuns_kept); (case mhl => decide))
    | with_reducible apply Kept.ite
    | with_reducible apply Kept.foldl
    | with_reducible apply Kept.foldlFst
    | with_reducible apply Kept.foldlSnd
    | (fail_if_no_progress ((with_reducible apply Kept.upd); (case ho => (refine Only.of (fun p hp => ?_) rfl; cases p <;> first | rfl | (refine absurd ?_ hp; decide))); (case hi => (repeat' first | with_reducible exact IoKept.refl _ | with_reducible apply IoKept.ite | with_reducible apply IoKept.foldl | with_reducible apply IoKept.put | with_reducible apply IoKept.filter | (fail_if_no_progress with_reducible apply IoKept.upd) | intro _ | dsimp only | split)); (case ht => (repeat' first | with_reducible exact T1Kept.refl _ | with_reducible apply Laws.Tier1.write_kept | with_reducible apply T1Kept.ite | with_reducible apply T1Kept.foldl | with_reducible apply T1Kept.put | with_reducible apply T1Kept.filter | (fail_if_no_progress with_reducible apply T1Kept.upd) | intro _ | dsimp only | split))))
    | intro _
    | dsimp only
    | split
theorem State.rewritePages_kept {ml : List StateField} {mz : State} {s : State} {i : Nat} {pages : List (Nat × Nat × Nat × Nat)} {above : Bool} (mhl : [.io, .t1, .stalls, .textCache] ⊆ ml) (mh : Kept ml mz s) : Kept ml mz (State.rewritePages s i pages above) :=
  Kept.after ((State.rewritePages_frame s i pages above).mono mhl) mh

theorem State.healPages_frame (s : State) (i : Nat) (fails : Nat → Nat → Bool) : Kept [.io, .t1, .stalls, .textCache] s (State.healPages s i fails) := by
  unfold State.healPages
  try dsimp only
  repeat' first
    | with_reducible exact Kept.refl _
    | ((with_reducible apply Laws.State.rewritePages_kept); (case mhl => decide))
    | with_reducible apply Kept.ite
    | (fail_if_no_progress ((with_reducible apply Kept.upd); (case ho => (refine Only.of (fun p hp => ?_) rfl; cases p <;> first | rfl | (refine absurd ?_ hp; decide))); (case hi => (repeat' first | with_reducible exact IoKept.refl _ | with_reducible apply IoKept.ite | with_reducible apply IoKept.foldl | with_reducible apply IoKept.put | with_reducible apply IoKept.filter | (fail_if_no_progress with_reducible apply IoKept.upd) | intro _ | dsimp only | split)); (case ht => (repeat' first | with_reducible exact T1Kept.refl _ | with_reducible apply T1Kept.ite | with_reducible apply T1Kept.foldl | with_reducible apply T1Kept.put | with_reducible apply T1Kept.filter | (fail_if_no_progress with_reducible apply T1Kept.upd) | intro _ | dsimp only | split))))
    | intro _
    | dsimp only
    | split
theorem State.healPages_kept {ml : List StateField} {mz : State} {s : State} {i : Nat} {fails : Nat → Nat → Bool} (mhl : [.io, .t1, .stalls, .textCache] ⊆ ml) (mh : Kept ml mz s) : Kept ml mz (State.healPages s i fails) :=
  Kept.after ((State.healPages_frame s i fails).mono mhl) mh

theorem State.heal_frame (s : State) (i : Nat) : Kept [.io, .t1, .shed, .stalls, .answers, .textCache] s (State.heal s i) := by
  unfold State.heal
  try dsimp only
  repeat' first
    | with_reducible exact Kept.refl _
    | ((with_reducible apply Laws.State.engineLook_kept); (case mhl => decide))
    | ((with_reducible apply Laws.State.healHeader_kept); (case mhl => decide))
    | ((with_reducible apply Laws.State.healPages_kept); (case mhl => decide))
    | ((with_reducible apply Laws.State.rebuildTable_kept); (case mhl => decide))
    | ((with_reducible apply Laws.State.rewriteLost_kept); (case mhl => decide))
    | with_reducible apply Kept.ite
    | with_reducible apply Kept.foldl
    | with_reducible apply Kept.foldlFst
    | with_reducible apply Kept.foldlSnd
    | (fail_if_no_progress ((with_reducible apply Kept.upd); (case ho => (refine Only.of (fun p hp => ?_) rfl; cases p <;> first | rfl | (refine absurd ?_ hp; decide))); (case hi => (repeat' first | with_reducible exact IoKept.refl _ | with_reducible apply IoKept.ite | with_reducible apply IoKept.foldl | with_reducible apply IoKept.put | with_reducible apply IoKept.filter | (fail_if_no_progress with_reducible apply IoKept.upd) | intro _ | dsimp only | split)); (case ht => (repeat' first | with_reducible exact T1Kept.refl _ | with_reducible apply T1Kept.ite | with_reducible apply T1Kept.foldl | with_reducible apply T1Kept.put | with_reducible apply T1Kept.filter | (fail_if_no_progress with_reducible apply T1Kept.upd) | intro _ | dsimp only | split))))
    | intro _
    | dsimp only
    | split
theorem State.heal_kept {ml : List StateField} {mz : State} {s : State} {i : Nat} (mhl : [.io, .t1, .shed, .stalls, .answers, .textCache] ⊆ ml) (mh : Kept ml mz s) : Kept ml mz (State.heal s i) :=
  Kept.after ((State.heal_frame s i).mono mhl) mh

theorem State.resumeWith_kept {ml : List StateField} {mz : State} {s : State} {i : Nat} {c : Cmd} {input : List (List Byte)} {fail : State → State} (mhl : [.io, .t1, .shed, .stalls, .answers, .textCache] ⊆ ml) (hfail : ∀ a0, Kept ml a0 (fail a0)) (mh : Kept ml mz s) : Kept ml mz (State.resumeWith s i c input fail) := by
  unfold State.resumeWith
  dsimp only
  have k : Kept ml mz (s.giveInput i input).1 := State.giveInput_kept (sub mhl (by decide)) mh
  split
  · exact State.complete_kept (sub mhl (by decide)) (Kept.after (hfail _) k)
  · exact State.complete_kept (sub mhl (by decide)) (State.setStall_kept (sub mhl (by decide)) k)

theorem State.resumeRead_frame (s : State) (c : Cmd) (bytes : Option (List Byte)) : Kept [.io, .t1] s (State.resumeRead s c bytes) := by
  unfold State.resumeRead
  try dsimp only
  repeat' first
    | with_reducible exact Kept.refl _
    | ((with_reducible apply Laws.State.readNoted_kept); (case mhl => decide))
    | with_reducible apply Kept.ite
    | intro _
    | dsimp only
    | split
theorem State.resumeRead_kept {ml : List StateField} {mz : State} {s : State} {c : Cmd} {bytes : Option (List Byte)} (mhl : [.io, .t1] ⊆ ml) (mh : Kept ml mz s) : Kept ml mz (State.resumeRead s c bytes) :=
  Kept.after ((State.resumeRead_frame s c bytes).mono mhl) mh

theorem State.readRevive_frame (s : State) (i : Nat) (bad : Option Nat) (tagOk : Bool) : Kept [.shed, .stalls] s (State.readRevive s i bad tagOk) := by
  unfold State.readRevive
  try dsimp only
  repeat' first
    | with_reducible exact Kept.refl _
    | ((with_reducible apply Laws.State.damageRecords_kept); (case mhl => decide))
    | with_reducible apply Kept.ite
    | (fail_if_no_progress ((with_reducible apply Kept.upd); (case ho => (refine Only.of (fun p hp => ?_) rfl; cases p <;> first | rfl | (refine absurd ?_ hp; decide))); (case hi => exact IoKept.refl _); (case ht => exact T1Kept.refl _)))
    | intro _
    | dsimp only
    | split
theorem State.readRevive_kept {ml : List StateField} {mz : State} {s : State} {i : Nat} {bad : Option Nat} {tagOk : Bool} (mhl : [.shed, .stalls] ⊆ ml) (mh : Kept ml mz s) : Kept ml mz (State.readRevive s i bad tagOk) :=
  Kept.after ((State.readRevive_frame s i bad tagOk).mono mhl) mh

theorem State.loseRevive_frame (s : State) (i : Nat) (bad : Option Nat) (tagOk : Bool) : Kept [.io, .shed, .stalls] s (State.loseRevive s i bad tagOk) := by
  unfold State.loseRevive
  try dsimp only
  repeat' first
    | with_reducible exact Kept.refl _
    | ((with_reducible apply Laws.State.journal_kept); (case mhl => decide))
    | ((with_reducible apply Laws.State.readRevive_kept); (case mhl => decide))
    | ((with_reducible apply Laws.State.recordLost_kept); (case mhl => decide))
    | with_reducible apply Kept.ite
    | with_reducible apply Kept.foldl
    | with_reducible apply Kept.foldlFst
    | with_reducible apply Kept.foldlSnd
    | intro _
    | dsimp only
    | split
theorem State.loseRevive_kept {ml : List StateField} {mz : State} {s : State} {i : Nat} {bad : Option Nat} {tagOk : Bool} (mhl : [.io, .shed, .stalls] ⊆ ml) (mh : Kept ml mz s) : Kept ml mz (State.loseRevive s i bad tagOk) :=
  Kept.after ((State.loseRevive_frame s i bad tagOk).mono mhl) mh

theorem State.reviveInput_kept {ml : List StateField} {mz : State} {s s0 : State} {i : Nat} {c : Cmd} {bytes : Option (List Byte)} (mhl : [.io, .t1, .shed, .stalls, .answers, .textCache] ⊆ ml) (mh : Kept ml mz s) (m0 : Kept ml mz s0) : Kept ml mz (State.reviveInput s s0 i c bytes) := by
  unfold State.reviveInput
  split
  · exact State.complete_kept (sub mhl (by decide)) (State.readInFault_kept (sub mhl (by decide)) (State.resumeRead_kept (sub mhl (by decide)) (State.undoRevive_kept (sub mhl (by decide)) m0)))
  · unfold State.resumeWith
    dsimp only
    split
    · exact State.complete_kept (sub mhl (by decide)) (State.textConfigBad_kept (sub mhl (by decide)) (State.undoRevive_kept (sub mhl (by decide)) m0))
    · exact State.complete_kept (sub mhl (by decide)) (State.setStall_kept (sub mhl (by decide)) (State.giveInput_kept (sub mhl (by decide))
        (State.resumeRead_kept (sub mhl (by decide)) (State.enterWaiting_kept (sub mhl (by decide)) mh))))

theorem State.enterRevived_kept {ml : List StateField} {mz : State} {s s0 : State} {i : Nat} {r : ReviveX} {failed : Option Nat} {accepted : Bool} {read : Nat} (mhl : [.io, .t1, .shed, .stalls, .answers, .textCache] ⊆ ml) (mh : Kept ml mz s) (m0 : Kept ml mz s0) : Kept ml mz (State.enterRevived s s0 i r failed accepted read) := by
  unfold State.enterRevived
  have k : Kept ml mz (if accepted then (s.setStall i { s.stall i with result := none }).updHdr i (fun h => { h with toolCallId := 0 }) else s) :=
    Kept.ite (State.updHdr_kept (sub mhl (by decide)) (State.setStall_kept (sub mhl (by decide)) mh)) mh
  dsimp only at k ⊢
  generalize (if accepted = true then _ else s) = w at k ⊢
  have e := State.enterWaiting_kept (i := i) (sub mhl (by decide)) k
  have e' := State.enterHot_kept (i := i) (sub mhl (by decide)) k
  split
  · exact State.complete_kept (sub mhl (by decide)) e
  · exact State.reviveAnswer_kept (sub mhl (by decide)) e
  · exact State.reviveInput_kept (sub mhl (by decide)) k m0
  · exact Kept.ite e' e
  · exact e'
  · exact State.reviveAnswer_kept (sub mhl (by decide)) (Kept.ite e' e)

theorem State.finishRevive_frame (s : State) (i : Nat) (bad : Option Nat) (tagOk : Bool) : Kept [.io, .t1, .shed, .stalls, .answers, .textCache] s (State.finishRevive s i bad tagOk) := by
  unfold State.finishRevive
  dsimp only
  split
  · exact Kept.refl _
  have k : Kept [.io, .t1, .shed, .stalls, .answers, .textCache] s (s.loseRevive i bad tagOk) := State.loseRevive_kept (by decide) (Kept.refl _)
  split
  · exact State.reviveAnswer_kept (by decide) (State.undoRevive_kept (by decide) k)
  split
  · exact State.reviveNoRoom_kept (by decide) (State.undoRevive_kept (by decide) (State.setStall_kept (by decide) k))
  · next h => exact State.enterRevived_kept (by decide) (State.reviveImage_kept (by decide) h k) (State.setStall_kept (by decide) k)
theorem State.finishRevive_kept {ml : List StateField} {mz : State} {s : State} {i : Nat} {bad : Option Nat} {tagOk : Bool} (mhl : [.io, .t1, .shed, .stalls, .answers, .textCache] ⊆ ml) (mh : Kept ml mz s) : Kept ml mz (State.finishRevive s i bad tagOk) :=
  Kept.after ((State.finishRevive_frame s i bad tagOk).mono mhl) mh

theorem State.countRefused_frame (s : State) (k : Nat) : Kept [.io] s (State.countRefused s k) := by
  unfold State.countRefused
  try dsimp only
  repeat' first
    | with_reducible exact Kept.refl _
    | ((with_reducible apply Laws.State.bump_kept); (case mhl => decide))
    | with_reducible apply Kept.ite
    | intro _
    | dsimp only
    | split
theorem State.countRefused_kept {ml : List StateField} {mz : State} {s : State} {k : Nat} (mhl : [.io] ⊆ ml) (mh : Kept ml mz s) : Kept ml mz (State.countRefused s k) :=
  Kept.after ((State.countRefused_frame s k).mono mhl) mh

theorem State.sendAccept_frame (s : State) (m : Msg) (i : Nat) : Kept [.net] s (State.sendAccept s m i) := by
  unfold State.sendAccept
  try dsimp only
  repeat' first
    | with_reducible exact Kept.refl _
    | ((with_reducible apply Laws.State.send_kept); (case mhl => decide))
    | with_reducible apply Kept.ite
    | intro _
    | dsimp only
    | split
theorem State.sendAccept_kept {ml : List StateField} {mz : State} {s : State} {m : Msg} {i : Nat} (mhl : [.net] ⊆ ml) (mh : Kept ml mz s) : Kept ml mz (State.sendAccept s m i) :=
  Kept.after ((State.sendAccept_frame s m i).mono mhl) mh

theorem State.takeResult_frame (s : State) (i base : Nat) (bytes : List Byte) : Kept [.io, .t1, .stalls, .textCache] s (State.takeResult s i base bytes) := by
  unfold State.takeResult
  try dsimp only
  repeat' first
    | with_reducible exact Kept.refl _
    | ((with_reducible apply Laws.State.enterHot_kept); (case mhl => decide))
    | ((with_reducible apply Laws.State.holdInput_kept); (case mhl => decide))
    | ((with_reducible apply Laws.State.lookInput_kept); (case mhl => decide))
    | ((with_reducible apply Laws.State.noteBadToken_kept); (case mhl => decide))
    | ((with_reducible apply Laws.State.queueTokens_kept ?mhl (by assumption)); (case mhl => decide))
    | ((with_reducible apply Laws.State.setStall_kept); (case mhl => decide))
    | ((with_reducible apply Laws.State.updHdr_kept); (case mhl => decide))
    | with_reducible apply Kept.ite
    | (fail_if_no_progress ((with_reducible apply Kept.upd); (case ho => (refine Only.of (fun p hp => ?_) rfl; cases p <;> first | rfl | (refine absurd ?_ hp; decide))); (case hi => (repeat' first | with_reducible exact IoKept.refl _ | with_reducible apply IoKept.ite | with_reducible apply IoKept.foldl | with_reducible apply IoKept.put | with_reducible apply IoKept.filter | (fail_if_no_progress with_reducible apply IoKept.upd) | intro _ | dsimp only | split)); (case ht => (repeat' first | with_reducible exact T1Kept.refl _ | with_reducible apply T1Kept.ite | with_reducible apply T1Kept.foldl | with_reducible apply T1Kept.put | with_reducible apply T1Kept.filter | (fail_if_no_progress with_reducible apply T1Kept.upd) | intro _ | dsimp only | split))))
    | intro _
    | dsimp only
    | split
theorem State.takeResult_kept {ml : List StateField} {mz : State} {s : State} {i base : Nat} {bytes : List Byte} (mhl : [.io, .t1, .stalls, .textCache] ⊆ ml) (mh : Kept ml mz s) : Kept ml mz (State.takeResult s i base bytes) :=
  Kept.after ((State.takeResult_frame s i base bytes).mono mhl) mh

theorem State.applyResult_frame (s : State) (i : Nat) (m : Msg) : Kept [.io, .t1, .shed, .stalls, .answers, .textCache, .net] s (State.applyResult s i m).1 := by
  unfold State.applyResult
  dsimp only
  split
  · exact State.countRefused_kept (by decide) (Kept.refl _)
  split
  · exact Kept.refl _
  split
  · exact Kept.refl _
  split
  · exact State.countRefused_kept (by decide) (Kept.refl _)
  split
  · exact Kept.refl _
  split
  · exact Kept.refl _
  next u hu =>
  have k0 : Kept [.io, .t1, .shed, .stalls, .answers, .textCache, .net] s u := by
    refine State.journalIf_kept (by decide) hu ?_
    exact Kept.ite (State.abandonPark_kept (by decide) (Kept.refl _)) (Kept.refl _)
  have k : Kept [.io, .t1, .shed, .stalls, .answers, .textCache, .net] s ((if s.get Fld.TX_INPUT_BYTES_BYTES < m.payload.length then u.stallEvent 0x0805 i [m.payload.length] else u).sendAccept m i) :=
    State.sendAccept_kept (by decide) (Kept.ite (State.stallEvent_kept (by decide) k0) k0)
  generalize State.sendAccept _ m i = w at k ⊢
  split
  · exact Kept.ite (State.setStall_kept (by decide) k) (State.startRevive_kept (by decide) (State.setStall_kept (by decide) k))
  · exact State.takeResult_kept (by decide) k
theorem State.applyResult_kept {ml : List StateField} {mz : State} {s : State} {i : Nat} {m : Msg} (mhl : [.io, .t1, .shed, .stalls, .answers, .textCache, .net] ⊆ ml) (mh : Kept ml mz s) : Kept ml mz (State.applyResult s i m).1 :=
  Kept.after ((State.applyResult_frame s i m).mono mhl) mh
theorem State.applyResult_kept' {ml : List StateField} {mz : State} {s : State} {i : Nat} {m : Msg} {v0 : State} {v1 : Nat} (mhl : [.io, .t1, .shed, .stalls, .answers, .textCache, .net] ⊆ ml) (me : State.applyResult s i m = (v0, v1)) (mh : Kept ml mz s) : Kept ml mz v0 := by
  have mk := Kept.after ((State.applyResult_frame s i m).mono mhl) mh
  rw [me] at mk
  exact mk

theorem State.applyInput_frame (s : State) (i : Nat) (c : Cmd) (bytes : List Byte) : Kept [.io, .t1, .shed, .stalls, .answers, .textCache] s (State.applyInput s i c bytes) := by
  unfold State.applyInput
  try dsimp only
  repeat' first
    | with_reducible exact Kept.refl _
    | ((with_reducible apply Laws.State.abandonPark_kept); (case mhl => decide))
    | ((with_reducible apply Laws.State.complete_kept); (case mhl => decide))
    | ((with_reducible apply Laws.State.enterHot_kept); (case mhl => decide))
    | ((with_reducible apply Laws.State.giveInput_kept' ?mhl (by assumption)); (case mhl => decide))
    | ((with_reducible apply Laws.State.giveInput_kept); (case mhl => decide))
    | ((with_reducible apply Laws.State.startRevive_kept); (case mhl => decide))
    | ((with_reducible apply Kept.iteL); case k => ((repeat' first | with_reducible exact Kept.refl _ | ((with_reducible apply Laws.State.abandonPark_kept); (case mhl => decide)) | ((with_reducible apply Laws.State.complete_kept); (case mhl => decide)) | ((with_reducible apply Laws.State.enterHot_kept); (case mhl => decide)) | ((with_reducible apply Laws.State.giveInput_kept' ?mhl (by assumption)); (case mhl => decide)) | ((with_reducible apply Laws.State.giveInput_kept); (case mhl => decide)) | ((with_reducible apply Laws.State.startRevive_kept); (case mhl => decide)) | with_reducible apply Kept.ite | intro _ | dsimp only | split); done))
    | ((with_reducible apply Kept.iteR); case k => ((repeat' first | with_reducible exact Kept.refl _ | ((with_reducible apply Laws.State.abandonPark_kept); (case mhl => decide)) | ((with_reducible apply Laws.State.complete_kept); (case mhl => decide)) | ((with_reducible apply Laws.State.enterHot_kept); (case mhl => decide)) | ((with_reducible apply Laws.State.giveInput_kept' ?mhl (by assumption)); (case mhl => decide)) | ((with_reducible apply Laws.State.giveInput_kept); (case mhl => decide)) | ((with_reducible apply Laws.State.startRevive_kept); (case mhl => decide)) | with_reducible apply Kept.ite | intro _ | dsimp only | split); done))
    | with_reducible apply Kept.ite
    | intro _
    | dsimp only
    | split
theorem State.applyInput_kept {ml : List StateField} {mz : State} {s : State} {i : Nat} {c : Cmd} {bytes : List Byte} (mhl : [.io, .t1, .shed, .stalls, .answers, .textCache] ⊆ ml) (mh : Kept ml mz s) : Kept ml mz (State.applyInput s i c bytes) :=
  Kept.after ((State.applyInput_frame s i c bytes).mono mhl) mh

theorem State.becomeRemote_frame (s : State) (i dev handle epoch : Nat) : Kept [.io, .t1, .shed, .stalls] s (State.becomeRemote s i dev handle epoch) := by
  unfold State.becomeRemote
  try dsimp only
  repeat' first
    | with_reducible exact Kept.refl _
    | ((with_reducible apply Laws.State.releasePages_kept); (case mhl => decide))
    | ((with_reducible apply Laws.State.setDirty_kept); (case mhl => decide))
    | ((with_reducible apply Laws.State.setStall_kept); (case mhl => decide))
    | ((with_reducible apply Laws.State.shedRelease_kept); (case mhl => decide))
    | with_reducible apply Kept.ite
    | with_reducible apply Kept.foldl
    | with_reducible apply Kept.foldlFst
    | with_reducible apply Kept.foldlSnd
    | intro _
    | dsimp only
    | split
theorem State.becomeRemote_kept {ml : List StateField} {mz : State} {s : State} {i dev handle epoch : Nat} (mhl : [.io, .t1, .shed, .stalls] ⊆ ml) (mh : Kept ml mz s) : Kept ml mz (State.becomeRemote s i dev handle epoch) :=
  Kept.after ((State.becomeRemote_frame s i dev handle epoch).mono mhl) mh

theorem State.backToPrior_frame (s : State) (i : Nat) : Kept [.io, .stalls] s (State.backToPrior s i) := by
  unfold State.backToPrior
  try dsimp only
  repeat' first
    | with_reducible exact Kept.refl _
    | ((with_reducible apply Laws.State.enterState_kept); (case mhl => decide))
    | ((with_reducible apply Laws.State.setStall_kept); (case mhl => decide))
    | ((with_reducible apply Kept.iteL); case k => ((repeat' first | with_reducible exact Kept.refl _ | ((with_reducible apply Laws.State.enterState_kept); (case mhl => decide)) | ((with_reducible apply Laws.State.setStall_kept); (case mhl => decide)) | with_reducible apply Kept.ite | (fail_if_no_progress ((with_reducible apply Kept.upd); (case ho => (refine Only.of (fun p hp => ?_) rfl; cases p <;> first | rfl | (refine absurd ?_ hp; decide))); (case hi => (repeat' first | with_reducible exact IoKept.refl _ | with_reducible apply IoKept.ite | with_reducible apply IoKept.foldl | with_reducible apply IoKept.put | with_reducible apply IoKept.filter | (fail_if_no_progress with_reducible apply IoKept.upd) | intro _ | dsimp only | split)); (case ht => exact T1Kept.refl _))) | intro _ | dsimp only | split); done))
    | ((with_reducible apply Kept.iteR); case k => ((repeat' first | with_reducible exact Kept.refl _ | ((with_reducible apply Laws.State.enterState_kept); (case mhl => decide)) | ((with_reducible apply Laws.State.setStall_kept); (case mhl => decide)) | with_reducible apply Kept.ite | (fail_if_no_progress ((with_reducible apply Kept.upd); (case ho => (refine Only.of (fun p hp => ?_) rfl; cases p <;> first | rfl | (refine absurd ?_ hp; decide))); (case hi => (repeat' first | with_reducible exact IoKept.refl _ | with_reducible apply IoKept.ite | with_reducible apply IoKept.foldl | with_reducible apply IoKept.put | with_reducible apply IoKept.filter | (fail_if_no_progress with_reducible apply IoKept.upd) | intro _ | dsimp only | split)); (case ht => exact T1Kept.refl _))) | intro _ | dsimp only | split); done))
    | with_reducible apply Kept.ite
    | (fail_if_no_progress ((with_reducible apply Kept.upd); (case ho => (refine Only.of (fun p hp => ?_) rfl; cases p <;> first | rfl | (refine absurd ?_ hp; decide))); (case hi => (repeat' first | with_reducible exact IoKept.refl _ | with_reducible apply IoKept.ite | with_reducible apply IoKept.foldl | with_reducible apply IoKept.put | with_reducible apply IoKept.filter | (fail_if_no_progress with_reducible apply IoKept.upd) | intro _ | dsimp only | split)); (case ht => exact T1Kept.refl _)))
    | intro _
    | dsimp only
    | split
theorem State.backToPrior_kept {ml : List StateField} {mz : State} {s : State} {i : Nat} (mhl : [.io, .stalls] ⊆ ml) (mh : Kept ml mz s) : Kept ml mz (State.backToPrior s i) :=
  Kept.after ((State.backToPrior_frame s i).mono mhl) mh

theorem State.endMig_frame (s : State) (i : Nat) (st : OpState) (status r0 r1 : Nat) : Kept [.io, .ops, .answers] s (State.endMig s i st status r0 r1) := by
  unfold State.endMig
  try dsimp only
  repeat' first
    | with_reducible exact Kept.refl _
    | ((with_reducible apply Laws.State.endOp_kept); (case mhl => decide))
    | with_reducible apply Kept.ite
    | (fail_if_no_progress ((with_reducible apply Kept.upd); (case ho => (refine Only.of (fun p hp => ?_) rfl; cases p <;> first | rfl | (refine absurd ?_ hp; decide))); (case hi => (repeat' first | with_reducible exact IoKept.refl _ | with_reducible apply IoKept.ite | with_reducible apply IoKept.foldl | with_reducible apply IoKept.put | with_reducible apply IoKept.filter | (fail_if_no_progress with_reducible apply IoKept.upd) | intro _ | dsimp only | split)); (case ht => exact T1Kept.refl _)))
    | intro _
    | dsimp only
    | split
theorem State.endMig_kept {ml : List StateField} {mz : State} {s : State} {i : Nat} {st : OpState} {status r0 r1 : Nat} (mhl : [.io, .ops, .answers] ⊆ ml) (mh : Kept ml mz s) : Kept ml mz (State.endMig s i st status r0 r1) :=
  Kept.after ((State.endMig_frame s i st status r0 r1).mono mhl) mh

theorem State.raiseEpoch_frame (s : State) (i epoch : Nat) : Kept [.shed, .stalls] s (State.raiseEpoch s i epoch) := by
  unfold State.raiseEpoch
  try dsimp only
  repeat' first
    | with_reducible exact Kept.refl _
    | ((with_reducible apply Laws.State.journal_kept); (case mhl => decide))
    | ((with_reducible apply Laws.State.setStall_kept); (case mhl => decide))
    | with_reducible apply Kept.ite
    | (fail_if_no_progress ((with_reducible apply Kept.upd); (case ho => (refine Only.of (fun p hp => ?_) rfl; cases p <;> first | rfl | (refine absurd ?_ hp; decide))); (case hi => exact IoKept.refl _); (case ht => exact T1Kept.refl _)))
    | intro _
    | dsimp only
    | split
theorem State.raiseEpoch_kept {ml : List StateField} {mz : State} {s : State} {i epoch : Nat} (mhl : [.shed, .stalls] ⊆ ml) (mh : Kept ml mz s) : Kept ml mz (State.raiseEpoch s i epoch) :=
  Kept.after ((State.raiseEpoch_frame s i epoch).mono mhl) mh

theorem State.replayResume_frame (s : State) (i : Nat) (raised : Bool) : Kept [.shed, .stalls] s (State.replayResume s i raised) := by
  unfold State.replayResume
  try dsimp only
  repeat' first
    | with_reducible exact Kept.refl _
    | ((with_reducible apply Laws.State.raiseEpoch_kept); (case mhl => decide))
    | ((with_reducible apply Laws.State.updHdr_kept); (case mhl => decide))
    | with_reducible apply Kept.ite
    | (fail_if_no_progress ((with_reducible apply Kept.upd); (case ho => (refine Only.of (fun p hp => ?_) rfl; cases p <;> first | rfl | (refine absurd ?_ hp; decide))); (case hi => exact IoKept.refl _); (case ht => exact T1Kept.refl _)))
    | intro _
    | dsimp only
    | split
theorem State.replayResume_kept {ml : List StateField} {mz : State} {s : State} {i : Nat} {raised : Bool} (mhl : [.shed, .stalls] ⊆ ml) (mh : Kept ml mz s) : Kept ml mz (State.replayResume s i raised) :=
  Kept.after ((State.replayResume_frame s i raised).mono mhl) mh

theorem State.intoPool_frame (s : State) (i : Nat) {v0 : State} (me : State.intoPool s i = .ok v0) : Kept [.io, .t1, .shed, .stalls, .answers, .textCache] s v0 := by
  unfold State.intoPool at me
  dsimp only at me
  split at me
  · contradiction
  · contradiction
  · next h =>
    cases me
    split at h
    · exact State.takeSlot_kept (by decide) h (State.heal_kept (by decide) (Kept.refl _))
    · cases h; exact State.heal_kept (by decide) (Kept.refl _)
theorem State.intoPool_kept {ml : List StateField} {mz : State} {s : State} {i : Nat} {v0 : State} (mhl : [.io, .t1, .shed, .stalls, .answers, .textCache] ⊆ ml) (me : State.intoPool s i = .ok v0) (mh : Kept ml mz s) : Kept ml mz v0 :=
  Kept.after ((State.intoPool_frame s i me).mono mhl) mh

theorem State.startMigration_frame (s : State) (i : Nat) (op : Option Nat) (dest : Nat) (park : Bool) : Kept [.t1, .stalls, .net] s (State.startMigration s i op dest park) := by
  unfold State.startMigration
  try dsimp only
  repeat' first
    | with_reducible exact Kept.refl _
    | ((with_reducible apply Laws.State.dropRelocs_kept); (case mhl => decide))
    | ((with_reducible apply Laws.State.send_kept); (case mhl => decide))
    | ((with_reducible apply Laws.State.setStall_kept); (case mhl => decide))
    | with_reducible apply Kept.ite
    | (fail_if_no_progress ((with_reducible apply Kept.upd); (case ho => (refine Only.of (fun p hp => ?_) rfl; cases p <;> first | rfl | (refine absurd ?_ hp; decide))); (case hi => exact IoKept.refl _); (case ht => (repeat' first | with_reducible exact T1Kept.refl _ | with_reducible apply T1Kept.ite | with_reducible apply T1Kept.foldl | with_reducible apply T1Kept.put | with_reducible apply T1Kept.filter | (fail_if_no_progress with_reducible apply T1Kept.upd) | intro _ | dsimp only | split))))
    | intro _
    | dsimp only
    | split
theorem State.startMigration_kept {ml : List StateField} {mz : State} {s : State} {i : Nat} {op : Option Nat} {dest : Nat} {park : Bool} (mhl : [.t1, .stalls, .net] ⊆ ml) (mh : Kept ml mz s) : Kept ml mz (State.startMigration s i op dest park) :=
  Kept.after ((State.startMigration_frame s i op dest park).mono mhl) mh

theorem State.sendAbort_frame (s : State) (dst tenant srcHandle reason : Nat) : Kept [.net] s (State.sendAbort s dst tenant srcHandle reason) := by
  unfold State.sendAbort
  try dsimp only
  repeat' first
    | with_reducible exact Kept.refl _
    | ((with_reducible apply Laws.State.sendDevice_kept); (case mhl => decide))
    | with_reducible apply Kept.ite
    | intro _
    | dsimp only
    | split
theorem State.sendAbort_kept {ml : List StateField} {mz : State} {s : State} {dst tenant srcHandle reason : Nat} (mhl : [.net] ⊆ ml) (mh : Kept ml mz s) : Kept ml mz (State.sendAbort s dst tenant srcHandle reason) :=
  Kept.after ((State.sendAbort_frame s dst tenant srcHandle reason).mono mhl) mh

theorem State.cancelSource_frame (s : State) (i : Nat) (st : OpState) (status : Nat) : Kept [.io, .stalls, .ops, .answers] s (State.cancelSource s i st status) := by
  unfold State.cancelSource
  try dsimp only
  repeat' first
    | with_reducible exact Kept.refl _
    | ((with_reducible apply Laws.State.backToPrior_kept); (case mhl => decide))
    | ((with_reducible apply Laws.State.endMig_kept); (case mhl => decide))
    | with_reducible apply Kept.ite
    | intro _
    | dsimp only
    | split
theorem State.cancelSource_kept {ml : List StateField} {mz : State} {s : State} {i : Nat} {st : OpState} {status : Nat} (mhl : [.io, .stalls, .ops, .answers] ⊆ ml) (mh : Kept ml mz s) : Kept ml mz (State.cancelSource s i st status) :=
  Kept.after ((State.cancelSource_frame s i st status).mono mhl) mh

theorem State.sendCommit_frame (s : State) (i : Nat) : Kept [.stalls, .net] s (State.sendCommit s i) := by
  unfold State.sendCommit
  try dsimp only
  repeat' first
    | with_reducible exact Kept.refl _
    | ((with_reducible apply Laws.State.sendDevice_kept); (case mhl => decide))
    | ((with_reducible apply Laws.State.setStall_kept); (case mhl => decide))
    | with_reducible apply Kept.ite
    | (fail_if_no_progress ((with_reducible apply Kept.upd); (case ho => (refine Only.of (fun p hp => ?_) rfl; cases p <;> first | rfl | (refine absurd ?_ hp; decide))); (case hi => exact IoKept.refl _); (case ht => exact T1Kept.refl _)))
    | intro _
    | dsimp only
    | split
theorem State.sendCommit_kept {ml : List StateField} {mz : State} {s : State} {i : Nat} (mhl : [.stalls, .net] ⊆ ml) (mh : Kept ml mz s) : Kept ml mz (State.sendCommit s i) :=
  Kept.after ((State.sendCommit_frame s i).mono mhl) mh

theorem State.sourceDone_frame (s : State) (i newHandle epoch : Nat) : Kept [.io, .t1, .shed, .stalls, .ops, .answers] s (State.sourceDone s i newHandle epoch) := by
  unfold State.sourceDone
  try dsimp only
  repeat' first
    | with_reducible exact Kept.refl _
    | ((with_reducible apply Laws.State.becomeRemote_kept); (case mhl => decide))
    | ((with_reducible apply Laws.State.endMig_kept); (case mhl => decide))
    | with_reducible apply Kept.ite
    | intro _
    | dsimp only
    | split
theorem State.sourceDone_kept {ml : List StateField} {mz : State} {s : State} {i newHandle epoch : Nat} (mhl : [.io, .t1, .shed, .stalls, .ops, .answers] ⊆ ml) (mh : Kept ml mz s) : Kept ml mz (State.sourceDone s i newHandle epoch) :=
  Kept.after ((State.sourceDone_frame s i newHandle epoch).mono mhl) mh

theorem State.failFetch_frame (s : State) (dev handle reason : Nat) : Kept [.io, .stalls, .answers] s (State.failFetch s dev handle reason) := by
  unfold State.failFetch
  try dsimp only
  repeat' first
    | with_reducible exact Kept.refl _
    | ((with_reducible apply Laws.State.complete_kept); (case mhl => decide))
    | ((with_reducible apply Laws.State.setStall_kept); (case mhl => decide))
    | with_reducible apply Kept.ite
    | (fail_if_no_progress ((with_reducible apply Kept.upd); (case ho => (refine Only.of (fun p hp => ?_) rfl; cases p <;> first | rfl | (refine absurd ?_ hp; decide))); (case hi => (repeat' first | with_reducible exact IoKept.refl _ | with_reducible apply IoKept.ite | with_reducible apply IoKept.foldl | with_reducible apply IoKept.put | with_reducible apply IoKept.filter | (fail_if_no_progress with_reducible apply IoKept.upd) | intro _ | dsimp only | split)); (case ht => exact T1Kept.refl _)))
    | intro _
    | dsimp only
    | split
theorem State.failFetch_kept {ml : List StateField} {mz : State} {s : State} {dev handle reason : Nat} (mhl : [.io, .stalls, .answers] ⊆ ml) (mh : Kept ml mz s) : Kept ml mz (State.failFetch s dev handle reason) :=
  Kept.after ((State.failFetch_frame s dev handle reason).mono mhl) mh

theorem State.freeCopy_frame (s : State) (i reason : Nat) : Kept [.io, .t1, .shed, .stalls, .answers] s (State.freeCopy s i reason) := by
  unfold State.freeCopy
  try dsimp only
  repeat' first
    | with_reducible exact Kept.refl _
    | ((with_reducible apply Laws.State.failFetch_kept); (case mhl => decide))
    | ((with_reducible apply Laws.State.freeSlot_kept); (case mhl => decide))
    | with_reducible apply Kept.ite
    | (fail_if_no_progress ((with_reducible apply Kept.upd); (case ho => (refine Only.of (fun p hp => ?_) rfl; cases p <;> first | rfl | (refine absurd ?_ hp; decide))); (case hi => (repeat' first | with_reducible exact IoKept.refl _ | with_reducible apply IoKept.ite | with_reducible apply IoKept.foldl | with_reducible apply IoKept.put | with_reducible apply IoKept.filter | (fail_if_no_progress with_reducible apply IoKept.upd) | intro _ | dsimp only | split)); (case ht => (repeat' first | with_reducible exact T1Kept.refl _ | with_reducible apply T1Kept.ite | with_reducible apply T1Kept.foldl | with_reducible apply T1Kept.put | with_reducible apply T1Kept.filter | (fail_if_no_progress with_reducible apply T1Kept.upd) | intro _ | dsimp only | split))))
    | intro _
    | dsimp only
    | split
theorem State.freeCopy_kept {ml : List StateField} {mz : State} {s : State} {i reason : Nat} (mhl : [.io, .t1, .shed, .stalls, .answers] ⊆ ml) (mh : Kept ml mz s) : Kept ml mz (State.freeCopy s i reason) :=
  Kept.after ((State.freeCopy_frame s i reason).mono mhl) mh

theorem State.refusePrepare_frame (s : State) (m : Msg) (reason : Nat) : Kept [.io, .stalls, .answers, .net] s (State.refusePrepare s m reason) := by
  unfold State.refusePrepare
  try dsimp only
  repeat' first
    | with_reducible exact Kept.refl _
    | ((with_reducible apply Laws.State.failFetch_kept); (case mhl => decide))
    | ((with_reducible apply Laws.State.sendAbort_kept); (case mhl => decide))
    | with_reducible apply Kept.ite
    | intro _
    | dsimp only
    | split
theorem State.refusePrepare_kept {ml : List StateField} {mz : State} {s : State} {m : Msg} {reason : Nat} (mhl : [.io, .stalls, .answers, .net] ⊆ ml) (mh : Kept ml mz s) : Kept ml mz (State.refusePrepare s m reason) :=
  Kept.after ((State.refusePrepare_frame s m reason).mono mhl) mh

theorem State.fetchArrived_frame (s : State) (dev handle j : Nat) : Kept [.io, .t1, .stalls, .answers] s (State.fetchArrived s dev handle j) := by
  unfold State.fetchArrived
  try dsimp only
  repeat' first
    | with_reducible exact Kept.refl _
    | ((with_reducible apply Laws.State.complete_kept); (case mhl => decide))
    | ((with_reducible apply Laws.State.setStall_kept); (case mhl => decide))
    | ((with_reducible apply Laws.State.startRevive_kept); (case mhl => decide))
    | with_reducible apply Kept.ite
    | (fail_if_no_progress ((with_reducible apply Kept.upd); (case ho => (refine Only.of (fun p hp => ?_) rfl; cases p <;> first | rfl | (refine absurd ?_ hp; decide))); (case hi => (repeat' first | with_reducible exact IoKept.refl _ | with_reducible apply IoKept.ite | with_reducible apply IoKept.foldl | with_reducible apply IoKept.put | with_reducible apply IoKept.filter | (fail_if_no_progress with_reducible apply IoKept.upd) | intro _ | dsimp only | split)); (case ht => (repeat' first | with_reducible exact T1Kept.refl _ | with_reducible apply T1Kept.ite | with_reducible apply T1Kept.foldl | with_reducible apply T1Kept.put | with_reducible apply T1Kept.filter | (fail_if_no_progress with_reducible apply T1Kept.upd) | intro _ | dsimp only | split))))
    | intro _
    | dsimp only
    | split
theorem State.fetchArrived_kept {ml : List StateField} {mz : State} {s : State} {dev handle j : Nat} (mhl : [.io, .t1, .stalls, .answers] ⊆ ml) (mh : Kept ml mz s) : Kept ml mz (State.fetchArrived s dev handle j) :=
  Kept.after ((State.fetchArrived_frame s dev handle j).mono mhl) mh

theorem State.takeOwnership_frame (s : State) (j epoch : Nat) {v0 : State} (me : State.takeOwnership s j epoch = some v0) : Kept [.io, .t1, .shed, .stalls, .net] s v0 := by
  unfold State.takeOwnership at me
  dsimp only at me
  rw [Option.map_eq_some_iff] at me
  obtain ⟨u, hu, me⟩ := me
  rw [← me]
  refine State.publishOwner_kept (by decide) (State.backToPrior_kept (by decide) ?_)
  have k : Kept [.io, .t1, .shed, .stalls, .net] s ((s.raiseEpoch j epoch).setDirty j (((s.stall j).hdr.committedLen - (s.stall j).hdr.journalLen) * tokenDirt (s.stall j))) :=
    State.setDirty_kept (by decide) (State.raiseEpoch_kept (by decide) (Kept.refl _))
  split at hu
  · exact State.sealImage_kept (by decide) hu k
  · cases hu; exact k
theorem State.takeOwnership_kept {ml : List StateField} {mz : State} {s : State} {j epoch : Nat} {v0 : State} (mhl : [.io, .t1, .shed, .stalls, .net] ⊆ ml) (me : State.takeOwnership s j epoch = some v0) (mh : Kept ml mz s) : Kept ml mz v0 :=
  Kept.after ((State.takeOwnership_frame s j epoch me).mono mhl) mh

theorem State.commitDest_frame (s : State) (j epoch : Nat) : Kept [.io, .t1, .shed, .stalls, .answers, .net] s (State.commitDest s j epoch) := by
  unfold State.commitDest
  try dsimp only
  repeat' first
    | with_reducible exact Kept.refl _
    | ((with_reducible apply Laws.State.fetchArrived_kept); (case mhl => decide))
    | ((with_reducible apply Laws.State.sendDevice_kept); (case mhl => decide))
    | ((with_reducible apply Laws.State.takeOwnership_kept ?mhl (by assumption)); (case mhl => decide))
    | with_reducible apply Kept.ite
    | (fail_if_no_progress ((with_reducible apply Kept.upd); (case ho => (refine Only.of (fun p hp => ?_) rfl; cases p <;> first | rfl | (refine absurd ?_ hp; decide))); (case hi => (repeat' first | with_reducible exact IoKept.refl _ | with_reducible apply IoKept.ite | with_reducible apply IoKept.foldl | with_reducible apply IoKept.put | with_reducible apply IoKept.filter | (fail_if_no_progress with_reducible apply IoKept.upd) | intro _ | dsimp only | split)); (case ht => (repeat' first | with_reducible exact T1Kept.refl _ | with_reducible apply T1Kept.ite | with_reducible apply T1Kept.foldl | with_reducible apply T1Kept.put | with_reducible apply T1Kept.filter | (fail_if_no_progress with_reducible apply T1Kept.upd) | intro _ | dsimp only | split))))
    | intro _
    | dsimp only
    | split
theorem State.commitDest_kept {ml : List StateField} {mz : State} {s : State} {j epoch : Nat} (mhl : [.io, .t1, .shed, .stalls, .answers, .net] ⊆ ml) (mh : Kept ml mz s) : Kept ml mz (State.commitDest s j epoch) :=
  Kept.after ((State.commitDest_frame s j epoch).mono mhl) mh

theorem State.receivePrepare_frame (s : State) (m : Msg) (h : Header) (records : List JRecord) (dest : Nat) : Kept [.io, .t1, .shed, .stalls, .answers, .textCache, .net] s (State.receivePrepare s m h records dest) := by
  unfold State.receivePrepare
  extract_lets t shape dims
  split
  · exact State.refusePrepare_kept (by decide) (State.raise_kept (by decide) (Kept.refl _))
  split
  · exact State.refusePrepare_kept (by decide) (Kept.refl _)
  next j _ =>
  extract_lets gen handle s1 store ready
  have h1 : Kept [.io, .t1, .shed, .stalls, .answers, .textCache, .net] s s1 := State.setStall_kept (by decide) (Kept.refl _)
  clear_value s1
  cases hs : ready with
  | none => exact State.refusePrepare_kept (by decide) (Kept.refl _)
  | some s' =>
    apply State.send_kept (by decide)
    dsimp only [ready] at hs
    rw [Option.bind_eq_some_iff] at hs
    obtain ⟨s2, h2, hs⟩ := hs
    have k2 := State.takeSlot_kept (ml := [.io, .t1, .shed, .stalls, .answers, .textCache, .net]) (by decide) h2 h1
    split at hs
    · rw [Option.map_eq_some_iff] at hs
      obtain ⟨u, hu, hs⟩ := hs
      rw [← hs]
      refine State.updHdr_kept (by decide) (Kept.foldlBind hu (fun w hw => ?_) (fun a b e he => ?_))
      · cases hw; exact k2
      · exact State.journalAt_kept (by decide) he (Kept.refl _)
    · rw [Option.bind_eq_some_iff] at hs
      obtain ⟨s3, h3, hs⟩ := hs
      rw [Option.map_eq_some_iff] at hs
      obtain ⟨⟨a, b⟩, hr, hs⟩ := hs
      have k4 := State.rebuildQueue_kept (ml := [.io, .t1, .shed, .stalls, .answers, .textCache, .net]) (by decide) hr (State.fillPages_kept (by decide) (State.takeTable_kept (by decide) h3 k2))
      rw [← hs]
      exact Kept.ite k4 (State.updHdr_kept (by decide) k4)
theorem State.receivePrepare_kept {ml : List StateField} {mz : State} {s : State} {m : Msg} {h : Header} {records : List JRecord} {dest : Nat} (mhl : [.io, .t1, .shed, .stalls, .answers, .textCache, .net] ⊆ ml) (mh : Kept ml mz s) : Kept ml mz (State.receivePrepare s m h records dest) :=
  Kept.after ((State.receivePrepare_frame s m h records dest).mono mhl) mh

theorem State.askOwner_frame (s : State) (i dev handle : Nat) : Kept [.stalls, .net] s (State.askOwner s i dev handle) := by
  unfold State.askOwner
  try dsimp only
  repeat' first
    | with_reducible exact Kept.refl _
    | ((with_reducible apply Laws.State.sendDevice_kept); (case mhl => decide))
    | ((with_reducible apply Laws.State.setStall_kept); (case mhl => decide))
    | with_reducible apply Kept.ite
    | (fail_if_no_progress ((with_reducible apply Kept.upd); (case ho => (refine Only.of (fun p hp => ?_) rfl; cases p <;> first | rfl | (refine absurd ?_ hp; decide))); (case hi => exact IoKept.refl _); (case ht => exact T1Kept.refl _)))
    | intro _
    | dsimp only
    | split
theorem State.askOwner_kept {ml : List StateField} {mz : State} {s : State} {i dev handle : Nat} (mhl : [.stalls, .net] ⊆ ml) (mh : Kept ml mz s) : Kept ml mz (State.askOwner s i dev handle) :=
  Kept.after ((State.askOwner_frame s i dev handle).mono mhl) mh

theorem State.promoteDest_frame (s : State) (j : Nat) : Kept [.io, .t1, .shed, .stalls, .answers, .net] s (State.promoteDest s j) := by
  unfold State.promoteDest
  try dsimp only
  repeat' first
    | with_reducible exact Kept.refl _
    | ((with_reducible apply Laws.State.commitDest_kept); (case mhl => decide))
    | ((with_reducible apply Laws.State.replayResume_kept); (case mhl => decide))
    | ((with_reducible apply Laws.State.stallEvent_kept); (case mhl => decide))
    | with_reducible apply Kept.ite
    | intro _
    | dsimp only
    | split
theorem State.promoteDest_kept {ml : List StateField} {mz : State} {s : State} {j : Nat} (mhl : [.io, .t1, .shed, .stalls, .answers, .net] ⊆ ml) (mh : Kept ml mz s) : Kept ml mz (State.promoteDest s j) :=
  Kept.after ((State.promoteDest_frame s j).mono mhl) mh

theorem State.promoteSource_frame (s : State) (i : Nat) : Kept [.io, .t1, .shed, .stalls, .ops, .answers, .net] s (State.promoteSource s i) := by
  unfold State.promoteSource
  dsimp only
  have k : Kept [.io, .t1, .shed, .stalls, .ops, .answers, .net] s (s.endMig i .failed CS.timeout 0 0) := State.endMig_kept (by decide) (Kept.refl _)
  exact State.replayResume_kept (by decide) (State.stallEvent_kept (by decide) (Kept.getD k (fun _ h => State.takeOwnership_kept (by decide) h k)))
theorem State.promoteSource_kept {ml : List StateField} {mz : State} {s : State} {i : Nat} (mhl : [.io, .t1, .shed, .stalls, .ops, .answers, .net] ⊆ ml) (mh : Kept ml mz s) : Kept ml mz (State.promoteSource s i) :=
  Kept.after ((State.promoteSource_frame s i).mono mhl) mh

theorem State.stallRefuses_frame (s : State) (c : Cmd) (i : Nat) (release : Bool) : Kept [.io, .answers] s (State.stallRefuses s c i release) := by
  unfold State.stallRefuses
  try dsimp only
  repeat' first
    | with_reducible exact Kept.refl _
    | ((with_reducible apply Laws.State.completeWith_kept); (case mhl => decide))
    | with_reducible apply Kept.ite
    | (fail_if_no_progress ((with_reducible apply Kept.upd); (case ho => (refine Only.of (fun p hp => ?_) rfl; cases p <;> first | rfl | (refine absurd ?_ hp; decide))); (case hi => (repeat' first | with_reducible exact IoKept.refl _ | with_reducible apply IoKept.ite | with_reducible apply IoKept.foldl | with_reducible apply IoKept.put | with_reducible apply IoKept.filter | (fail_if_no_progress with_reducible apply IoKept.upd) | intro _ | dsimp only | split)); (case ht => exact T1Kept.refl _)))
    | intro _
    | dsimp only
    | split
theorem State.stallRefuses_kept {ml : List StateField} {mz : State} {s : State} {c : Cmd} {i : Nat} {release : Bool} (mhl : [.io, .answers] ⊆ ml) (mh : Kept ml mz s) : Kept ml mz (State.stallRefuses s c i release) :=
  Kept.after ((State.stallRefuses_frame s c i release).mono mhl) mh

theorem State.doPark_frame (s : State) (c : Cmd) (i : Nat) : Kept [.io, .t1, .stalls, .answers] s (State.doPark s c i) := by
  unfold State.doPark
  try dsimp only
  repeat' first
    | with_reducible exact Kept.refl _
    | ((with_reducible apply Laws.State.stallRefuses_kept); (case mhl => decide))
    | ((with_reducible apply Laws.State.startPark_kept); (case mhl => decide))
    | with_reducible apply Kept.ite
    | intro _
    | dsimp only
    | split
theorem State.doPark_kept {ml : List StateField} {mz : State} {s : State} {c : Cmd} {i : Nat} (mhl : [.io, .t1, .stalls, .answers] ⊆ ml) (mh : Kept ml mz s) : Kept ml mz (State.doPark s c i) :=
  Kept.after ((State.doPark_frame s c i).mono mhl) mh

theorem State.doRevive_frame (s : State) (c : Cmd) (i : Nat) : Kept [.io, .t1, .stalls, .answers] s (State.doRevive s c i) := by
  unfold State.doRevive
  try dsimp only
  repeat' first
    | with_reducible exact Kept.refl _
    | ((with_reducible apply Laws.State.abandonPark_kept); (case mhl => decide))
    | ((with_reducible apply Laws.State.complete_kept); (case mhl => decide))
    | ((with_reducible apply Laws.State.stallRefuses_kept); (case mhl => decide))
    | ((with_reducible apply Laws.State.startRevive_kept); (case mhl => decide))
    | ((with_reducible apply Kept.iteL); case k => ((repeat' first | with_reducible exact Kept.refl _ | ((with_reducible apply Laws.State.abandonPark_kept); (case mhl => decide)) | ((with_reducible apply Laws.State.complete_kept); (case mhl => decide)) | ((with_reducible apply Laws.State.stallRefuses_kept); (case mhl => decide)) | ((with_reducible apply Laws.State.startRevive_kept); (case mhl => decide)) | with_reducible apply Kept.ite | intro _ | dsimp only | split); done))
    | ((with_reducible apply Kept.iteR); case k => ((repeat' first | with_reducible exact Kept.refl _ | ((with_reducible apply Laws.State.abandonPark_kept); (case mhl => decide)) | ((with_reducible apply Laws.State.complete_kept); (case mhl => decide)) | ((with_reducible apply Laws.State.stallRefuses_kept); (case mhl => decide)) | ((with_reducible apply Laws.State.startRevive_kept); (case mhl => decide)) | with_reducible apply Kept.ite | intro _ | dsimp only | split); done))
    | with_reducible apply Kept.ite
    | intro _
    | dsimp only
    | split
theorem State.doRevive_kept {ml : List StateField} {mz : State} {s : State} {c : Cmd} {i : Nat} (mhl : [.io, .t1, .stalls, .answers] ⊆ ml) (mh : Kept ml mz s) : Kept ml mz (State.doRevive s c i) :=
  Kept.after ((State.doRevive_frame s c i).mono mhl) mh

theorem State.doResume_frame (s : State) (c : Cmd) (i : Nat) : Kept [.io, .t1, .shed, .stalls, .answers, .textCache] s (State.doResume s c i) := by
  unfold State.doResume
  try dsimp only
  repeat' first
    | with_reducible exact Kept.refl _
    | ((with_reducible apply Laws.State.abandonPark_kept); (case mhl => decide))
    | ((with_reducible apply Laws.State.complete_kept); (case mhl => decide))
    | ((with_reducible apply Laws.State.readInFault_kept); (case mhl => decide))
    | ((with_reducible apply Laws.State.resumeRead_kept); (case mhl => decide))
    | ((with_reducible apply Laws.State.resumeWith_kept); (case mhl => decide))
    | ((with_reducible apply Laws.State.stallRefuses_kept); (case mhl => decide))
    | ((with_reducible apply Laws.State.startRevive_kept); (case mhl => decide))
    | ((with_reducible apply Kept.iteL); case k => ((repeat' first | with_reducible exact Kept.refl _ | ((with_reducible apply Laws.State.abandonPark_kept); (case mhl => decide)) | ((with_reducible apply Laws.State.complete_kept); (case mhl => decide)) | ((with_reducible apply Laws.State.readInFault_kept); (case mhl => decide)) | ((with_reducible apply Laws.State.resumeRead_kept); (case mhl => decide)) | ((with_reducible apply Laws.State.resumeWith_kept); (case mhl => decide)) | ((with_reducible apply Laws.State.stallRefuses_kept); (case mhl => decide)) | ((with_reducible apply Laws.State.startRevive_kept); (case mhl => decide)) | with_reducible apply Kept.ite | (fail_if_no_progress ((with_reducible apply Kept.upd); (case ho => (refine Only.of (fun p hp => ?_) rfl; cases p <;> first | rfl | (refine absurd ?_ hp; decide))); (case hi => (repeat' first | with_reducible exact IoKept.refl _ | with_reducible apply IoKept.ite | with_reducible apply IoKept.foldl | with_reducible apply IoKept.put | with_reducible apply IoKept.filter | (fail_if_no_progress with_reducible apply IoKept.upd) | intro _ | dsimp only | split)); (case ht => (repeat' first | with_reducible exact T1Kept.refl _ | with_reducible apply T1Kept.ite | with_reducible apply T1Kept.foldl | with_reducible apply T1Kept.put | with_reducible apply T1Kept.filter | (fail_if_no_progress with_reducible apply T1Kept.upd) | intro _ | dsimp only | split)))) | intro _ | dsimp only | split); done))
    | ((with_reducible apply Kept.iteR); case k => ((repeat' first | with_reducible exact Kept.refl _ | ((with_reducible apply Laws.State.abandonPark_kept); (case mhl => decide)) | ((with_reducible apply Laws.State.complete_kept); (case mhl => decide)) | ((with_reducible apply Laws.State.readInFault_kept); (case mhl => decide)) | ((with_reducible apply Laws.State.resumeRead_kept); (case mhl => decide)) | ((with_reducible apply Laws.State.resumeWith_kept); (case mhl => decide)) | ((with_reducible apply Laws.State.stallRefuses_kept); (case mhl => decide)) | ((with_reducible apply Laws.State.startRevive_kept); (case mhl => decide)) | with_reducible apply Kept.ite | (fail_if_no_progress ((with_reducible apply Kept.upd); (case ho => (refine Only.of (fun p hp => ?_) rfl; cases p <;> first | rfl | (refine absurd ?_ hp; decide))); (case hi => (repeat' first | with_reducible exact IoKept.refl _ | with_reducible apply IoKept.ite | with_reducible apply IoKept.foldl | with_reducible apply IoKept.put | with_reducible apply IoKept.filter | (fail_if_no_progress with_reducible apply IoKept.upd) | intro _ | dsimp only | split)); (case ht => (repeat' first | with_reducible exact T1Kept.refl _ | with_reducible apply T1Kept.ite | with_reducible apply T1Kept.foldl | with_reducible apply T1Kept.put | with_reducible apply T1Kept.filter | (fail_if_no_progress with_reducible apply T1Kept.upd) | intro _ | dsimp only | split)))) | intro _ | dsimp only | split); done))
    | with_reducible apply Kept.ite
    | (fail_if_no_progress ((with_reducible apply Kept.upd); (case ho => (refine Only.of (fun p hp => ?_) rfl; cases p <;> first | rfl | (refine absurd ?_ hp; decide))); (case hi => (repeat' first | with_reducible exact IoKept.refl _ | with_reducible apply IoKept.ite | with_reducible apply IoKept.foldl | with_reducible apply IoKept.put | with_reducible apply IoKept.filter | (fail_if_no_progress with_reducible apply IoKept.upd) | intro _ | dsimp only | split)); (case ht => (repeat' first | with_reducible exact T1Kept.refl _ | with_reducible apply T1Kept.ite | with_reducible apply T1Kept.foldl | with_reducible apply T1Kept.put | with_reducible apply T1Kept.filter | (fail_if_no_progress with_reducible apply T1Kept.upd) | intro _ | dsimp only | split))))
    | intro _
    | dsimp only
    | split
theorem State.doResume_kept {ml : List StateField} {mz : State} {s : State} {c : Cmd} {i : Nat} (mhl : [.io, .t1, .shed, .stalls, .answers, .textCache] ⊆ ml) (mh : Kept ml mz s) : Kept ml mz (State.doResume s c i) :=
  Kept.after ((State.doResume_frame s c i).mono mhl) mh

theorem State.doRetire_frame (s : State) (c : Cmd) (i : Nat) : Kept [.io, .t1, .stalls, .mirrors, .answers] s (State.doRetire s c i) := by
  unfold State.doRetire
  try dsimp only
  repeat' first
    | with_reducible exact Kept.refl _
    | ((with_reducible apply Laws.State.complete_kept); (case mhl => decide))
    | ((with_reducible apply Laws.State.dissolve_kept); (case mhl => decide))
    | ((with_reducible apply Laws.State.dropRelocs_kept); (case mhl => decide))
    | ((with_reducible apply Laws.State.releasePages_kept); (case mhl => decide))
    | ((with_reducible apply Laws.State.setDirty_kept); (case mhl => decide))
    | ((with_reducible apply Laws.State.setStall_kept); (case mhl => decide))
    | ((with_reducible apply Laws.State.stallRefuses_kept); (case mhl => decide))
    | with_reducible apply Kept.ite
    | (fail_if_no_progress ((with_reducible apply Kept.upd); (case ho => (refine Only.of (fun p hp => ?_) rfl; cases p <;> first | rfl | (refine absurd ?_ hp; decide))); (case hi => (repeat' first | with_reducible exact IoKept.refl _ | with_reducible apply IoKept.ite | with_reducible apply IoKept.foldl | with_reducible apply IoKept.put | with_reducible apply IoKept.filter | (fail_if_no_progress with_reducible apply IoKept.upd) | intro _ | dsimp only | split)); (case ht => (repeat' first | with_reducible exact T1Kept.refl _ | with_reducible apply T1Kept.ite | with_reducible apply T1Kept.foldl | with_reducible apply T1Kept.put | with_reducible apply T1Kept.filter | (fail_if_no_progress with_reducible apply T1Kept.upd) | intro _ | dsimp only | split))))
    | intro _
    | dsimp only
    | split
theorem State.doRetire_kept {ml : List StateField} {mz : State} {s : State} {c : Cmd} {i : Nat} (mhl : [.io, .t1, .stalls, .mirrors, .answers] ⊆ ml) (mh : Kept ml mz s) : Kept ml mz (State.doRetire s c i) :=
  Kept.after ((State.doRetire_frame s c i).mono mhl) mh

theorem State.doFree_frame (s : State) (c : Cmd) (i : Nat) : Kept [.io, .t1, .shed, .stalls, .answers] s (State.doFree s c i) := by
  unfold State.doFree
  try dsimp only
  repeat' first
    | with_reducible exact Kept.refl _
    | ((with_reducible apply Laws.State.complete_kept); (case mhl => decide))
    | ((with_reducible apply Laws.State.freeSlot_kept); (case mhl => decide))
    | ((with_reducible apply Laws.State.stallRefuses_kept); (case mhl => decide))
    | with_reducible apply Kept.ite
    | intro _
    | dsimp only
    | split
theorem State.doFree_kept {ml : List StateField} {mz : State} {s : State} {c : Cmd} {i : Nat} (mhl : [.io, .t1, .shed, .stalls, .answers] ⊆ ml) (mh : Kept ml mz s) : Kept ml mz (State.doFree s c i) :=
  Kept.after ((State.doFree_frame s c i).mono mhl) mh

theorem State.doForget_frame (s : State) (c : Cmd) (i : Nat) : Kept [.io, .t1, .shed, .stalls, .answers] s (State.doForget s c i) := by
  unfold State.doForget
  try dsimp only
  repeat' first
    | with_reducible exact Kept.refl _
    | ((with_reducible apply Laws.State.complete_kept); (case mhl => decide))
    | ((with_reducible apply Laws.State.freeSlot_kept); (case mhl => decide))
    | ((with_reducible apply Laws.State.stallRefuses_kept); (case mhl => decide))
    | with_reducible apply Kept.ite
    | intro _
    | dsimp only
    | split
theorem State.doForget_kept {ml : List StateField} {mz : State} {s : State} {c : Cmd} {i : Nat} (mhl : [.io, .t1, .shed, .stalls, .answers] ⊆ ml) (mh : Kept ml mz s) : Kept ml mz (State.doForget s c i) :=
  Kept.after ((State.doForget_frame s c i).mono mhl) mh

theorem State.doMigrate_frame (s : State) (op : Nat) (c : Cmd) (i : Nat) : Kept [.io, .t1, .shed, .stalls, .ops, .answers, .textCache, .net] s (State.doMigrate s op c i) := by
  unfold State.doMigrate
  try dsimp only
  repeat' first
    | with_reducible exact Kept.refl _
    | ((with_reducible apply Laws.State.endOp_kept); (case mhl => decide))
    | ((with_reducible apply Laws.State.intoPool_kept ?mhl (by assumption)); (case mhl => decide))
    | ((with_reducible apply Laws.State.moveOp_kept); (case mhl => decide))
    | ((with_reducible apply Laws.State.startMigration_kept); (case mhl => decide))
    | ((with_reducible apply Kept.iteL); case k => ((repeat' first | with_reducible exact Kept.refl _ | ((with_reducible apply Laws.State.endOp_kept); (case mhl => decide)) | ((with_reducible apply Laws.State.intoPool_kept ?mhl (by assumption)); (case mhl => decide)) | ((with_reducible apply Laws.State.moveOp_kept); (case mhl => decide)) | ((with_reducible apply Laws.State.startMigration_kept); (case mhl => decide)) | with_reducible apply Kept.ite | (fail_if_no_progress ((with_reducible apply Kept.upd); (case ho => (refine Only.of (fun p hp => ?_) rfl; cases p <;> first | rfl | (refine absurd ?_ hp; decide))); (case hi => (repeat' first | with_reducible exact IoKept.refl _ | with_reducible apply IoKept.ite | with_reducible apply IoKept.foldl | with_reducible apply IoKept.put | with_reducible apply IoKept.filter | (fail_if_no_progress with_reducible apply IoKept.upd) | intro _ | dsimp only | split)); (case ht => (repeat' first | with_reducible exact T1Kept.refl _ | with_reducible apply T1Kept.ite | with_reducible apply T1Kept.foldl | with_reducible apply T1Kept.put | with_reducible apply T1Kept.filter | (fail_if_no_progress with_reducible apply T1Kept.upd) | intro _ | dsimp only | split)))) | intro _ | dsimp only | split); done))
    | ((with_reducible apply Kept.iteR); case k => ((repeat' first | with_reducible exact Kept.refl _ | ((with_reducible apply Laws.State.endOp_kept); (case mhl => decide)) | ((with_reducible apply Laws.State.intoPool_kept ?mhl (by assumption)); (case mhl => decide)) | ((with_reducible apply Laws.State.moveOp_kept); (case mhl => decide)) | ((with_reducible apply Laws.State.startMigration_kept); (case mhl => decide)) | with_reducible apply Kept.ite | (fail_if_no_progress ((with_reducible apply Kept.upd); (case ho => (refine Only.of (fun p hp => ?_) rfl; cases p <;> first | rfl | (refine absurd ?_ hp; decide))); (case hi => (repeat' first | with_reducible exact IoKept.refl _ | with_reducible apply IoKept.ite | with_reducible apply IoKept.foldl | with_reducible apply IoKept.put | with_reducible apply IoKept.filter | (fail_if_no_progress with_reducible apply IoKept.upd) | intro _ | dsimp only | split)); (case ht => (repeat' first | with_reducible exact T1Kept.refl _ | with_reducible apply T1Kept.ite | with_reducible apply T1Kept.foldl | with_reducible apply T1Kept.put | with_reducible apply T1Kept.filter | (fail_if_no_progress with_reducible apply T1Kept.upd) | intro _ | dsimp only | split)))) | intro _ | dsimp only | split); done))
    | with_reducible apply Kept.ite
    | (fail_if_no_progress ((with_reducible apply Kept.upd); (case ho => (refine Only.of (fun p hp => ?_) rfl; cases p <;> first | rfl | (refine absurd ?_ hp; decide))); (case hi => (repeat' first | with_reducible exact IoKept.refl _ | with_reducible apply IoKept.ite | with_reducible apply IoKept.foldl | with_reducible apply IoKept.put | with_reducible apply IoKept.filter | (fail_if_no_progress with_reducible apply IoKept.upd) | intro _ | dsimp only | split)); (case ht => (repeat' first | with_reducible exact T1Kept.refl _ | with_reducible apply T1Kept.ite | with_reducible apply T1Kept.foldl | with_reducible apply T1Kept.put | with_reducible apply T1Kept.filter | (fail_if_no_progress with_reducible apply T1Kept.upd) | intro _ | dsimp only | split))))
    | intro _
    | dsimp only
    | split
theorem State.doMigrate_kept {ml : List StateField} {mz : State} {s : State} {op : Nat} {c : Cmd} {i : Nat} (mhl : [.io, .t1, .shed, .stalls, .ops, .answers, .textCache, .net] ⊆ ml) (mh : Kept ml mz s) : Kept ml mz (State.doMigrate s op c i) :=
  Kept.after ((State.doMigrate_frame s op c i).mono mhl) mh

theorem State.doConfig_frame (s : State) (c : Cmd) (i : Nat) : Kept [.io, .t1, .shed, .stalls, .answers] s (State.doConfig s c i) := by
  unfold State.doConfig
  dsimp only
  split
  · exact State.complete_kept (by decide) (Kept.refl _)
  split
  · exact State.complete_kept (by decide) (Kept.refl _)
  split
  · exact State.complete_kept (by decide) (Kept.refl _)
  split
  · exact State.complete_kept (by decide) (Kept.refl _)
  split
  · exact State.complete_kept (by decide) (State.readInFault_kept (by decide) (State.readNoted_kept (by decide) (Kept.refl _)))
  split
  · exact State.complete_kept (by decide) (State.readInFault_kept (by decide) (State.readNoted_kept (by decide) (Kept.refl _)))
  next notes _ _ seed _ =>
  have k1 : Kept [.io, .t1, .shed, .stalls, .answers] s (if (opU16 c 32).testBit 6 then s.readNoted c c.addrA.toNat 1792 else s) :=
    Kept.ite (State.readNoted_kept (by decide) (Kept.refl _)) (Kept.refl _)
  generalize (if (opU16 c 32).testBit 6 = true then s.readNoted c c.addrA.toNat 1792 else s) = s1 at k1 ⊢
  have k2 : Kept [.io, .t1, .shed, .stalls, .answers] s (if (opU16 c 32).testBit 7 then s1.readNoted c c.addrB.toNat 16 else s1) :=
    Kept.ite (State.readNoted_kept (by decide) k1) k1
  generalize (if (opU16 c 32).testBit 7 = true then s1.readNoted c c.addrB.toNat 16 else s1) = s2 at k2 ⊢
  have k3 := State.updHdr_kept (i := i) (f := configHeader c notes (natOfBytes seed)) (by decide) k2
  generalize s2.updHdr i (configHeader c notes (natOfBytes seed)) = s3 at k3 ⊢
  split
  · exact State.complete_kept (by decide) (State.setStall_kept (by decide) k3)
  · next h =>
    have k4 : Kept [.io, .t1, .shed, .stalls, .answers] s _ := Kept.trans k3 (by
      split at h
      · exact State.journalIf_kept (by decide) h (Kept.refl _)
      · cases h; exact Kept.refl _)
    exact State.complete_kept (by decide) (Kept.ite (State.setStall_kept (by decide) k4) k4)
theorem State.doConfig_kept {ml : List StateField} {mz : State} {s : State} {c : Cmd} {i : Nat} (mhl : [.io, .t1, .shed, .stalls, .answers] ⊆ ml) (mh : Kept ml mz s) : Kept ml mz (State.doConfig s c i) :=
  Kept.after ((State.doConfig_frame s c i).mono mhl) mh

theorem State.doTextBind_frame (s : State) (c : Cmd) (i : Nat) : Kept [.io, .stalls, .answers] s (State.doTextBind s c i) := by
  unfold State.doTextBind
  try dsimp only
  repeat' first
    | with_reducible exact Kept.refl _
    | ((with_reducible apply Laws.State.complete_kept); (case mhl => decide))
    | ((with_reducible apply Laws.State.stallEvent_kept); (case mhl => decide))
    | ((with_reducible apply Laws.State.updHdr_kept); (case mhl => decide))
    | ((with_reducible apply Kept.iteL); case k => ((repeat' first | with_reducible exact Kept.refl _ | ((with_reducible apply Laws.State.complete_kept); (case mhl => decide)) | ((with_reducible apply Laws.State.stallEvent_kept); (case mhl => decide)) | ((with_reducible apply Laws.State.updHdr_kept); (case mhl => decide)) | with_reducible apply Kept.ite | (fail_if_no_progress ((with_reducible apply Kept.upd); (case ho => (refine Only.of (fun p hp => ?_) rfl; cases p <;> first | rfl | (refine absurd ?_ hp; decide))); (case hi => (repeat' first | with_reducible exact IoKept.refl _ | with_reducible apply IoKept.ite | with_reducible apply IoKept.foldl | with_reducible apply IoKept.put | with_reducible apply IoKept.filter | (fail_if_no_progress with_reducible apply IoKept.upd) | intro _ | dsimp only | split)); (case ht => exact T1Kept.refl _))) | intro _ | dsimp only | split); done))
    | ((with_reducible apply Kept.iteR); case k => ((repeat' first | with_reducible exact Kept.refl _ | ((with_reducible apply Laws.State.complete_kept); (case mhl => decide)) | ((with_reducible apply Laws.State.stallEvent_kept); (case mhl => decide)) | ((with_reducible apply Laws.State.updHdr_kept); (case mhl => decide)) | with_reducible apply Kept.ite | (fail_if_no_progress ((with_reducible apply Kept.upd); (case ho => (refine Only.of (fun p hp => ?_) rfl; cases p <;> first | rfl | (refine absurd ?_ hp; decide))); (case hi => (repeat' first | with_reducible exact IoKept.refl _ | with_reducible apply IoKept.ite | with_reducible apply IoKept.foldl | with_reducible apply IoKept.put | with_reducible apply IoKept.filter | (fail_if_no_progress with_reducible apply IoKept.upd) | intro _ | dsimp only | split)); (case ht => exact T1Kept.refl _))) | intro _ | dsimp only | split); done))
    | with_reducible apply Kept.ite
    | (fail_if_no_progress ((with_reducible apply Kept.upd); (case ho => (refine Only.of (fun p hp => ?_) rfl; cases p <;> first | rfl | (refine absurd ?_ hp; decide))); (case hi => (repeat' first | with_reducible exact IoKept.refl _ | with_reducible apply IoKept.ite | with_reducible apply IoKept.foldl | with_reducible apply IoKept.put | with_reducible apply IoKept.filter | (fail_if_no_progress with_reducible apply IoKept.upd) | intro _ | dsimp only | split)); (case ht => exact T1Kept.refl _)))
    | intro _
    | dsimp only
    | split
theorem State.doTextBind_kept {ml : List StateField} {mz : State} {s : State} {c : Cmd} {i : Nat} (mhl : [.io, .stalls, .answers] ⊆ ml) (mh : Kept ml mz s) : Kept ml mz (State.doTextBind s c i) :=
  Kept.after ((State.doTextBind_frame s c i).mono mhl) mh

theorem State.doCommand_frame (s : State) (i opcode : Nat) (c : Cmd) : Kept [.io, .t1, .shed, .stalls, .ops, .mirrors, .answers, .textCache, .net] s (State.doCommand s i opcode c) := by
  unfold State.doCommand
  try dsimp only
  repeat' first
    | with_reducible exact Kept.refl _
    | ((with_reducible apply Laws.State.doConfig_kept); (case mhl => decide))
    | ((with_reducible apply Laws.State.doForget_kept); (case mhl => decide))
    | ((with_reducible apply Laws.State.doFree_kept); (case mhl => decide))
    | ((with_reducible apply Laws.State.doMigrate_kept); (case mhl => decide))
    | ((with_reducible apply Laws.State.doPark_kept); (case mhl => decide))
    | ((with_reducible apply Laws.State.doResume_kept); (case mhl => decide))
    | ((with_reducible apply Laws.State.doRetire_kept); (case mhl => decide))
    | ((with_reducible apply Laws.State.doRevive_kept); (case mhl => decide))
    | ((with_reducible apply Laws.State.doTextBind_kept); (case mhl => decide))
    | with_reducible apply Kept.ite
    | (fail_if_no_progress ((with_reducible apply Kept.upd); (case ho => (refine Only.of (fun p hp => ?_) rfl; cases p <;> first | rfl | (refine absurd ?_ hp; decide))); (case hi => (repeat' first | with_reducible exact IoKept.refl _ | with_reducible apply IoKept.ite | with_reducible apply IoKept.foldl | with_reducible apply IoKept.put | with_reducible apply IoKept.filter | (fail_if_no_progress with_reducible apply IoKept.upd) | intro _ | dsimp only | split)); (case ht => (repeat' first | with_reducible exact T1Kept.refl _ | with_reducible apply T1Kept.ite | with_reducible apply T1Kept.foldl | with_reducible apply T1Kept.put | with_reducible apply T1Kept.filter | (fail_if_no_progress with_reducible apply T1Kept.upd) | intro _ | dsimp only | split))))
    | intro _
    | dsimp only
    | split
theorem State.doCommand_kept {ml : List StateField} {mz : State} {s : State} {i opcode : Nat} {c : Cmd} (mhl : [.io, .t1, .shed, .stalls, .ops, .mirrors, .answers, .textCache, .net] ⊆ ml) (mh : Kept ml mz s) : Kept ml mz (State.doCommand s i opcode c) :=
  Kept.after ((State.doCommand_frame s i opcode c).mono mhl) mh

theorem State.answerFetch_frame (s : State) (i requester msgId : Nat) : Kept [.io, .t1, .shed, .stalls, .answers, .textCache, .net] s (State.answerFetch s i requester msgId) := by
  unfold State.answerFetch
  try dsimp only
  repeat' first
    | with_reducible exact Kept.refl _
    | ((with_reducible apply Laws.State.fetch_kept); (case mhl => decide))
    | ((with_reducible apply Laws.State.intoPool_kept ?mhl (by assumption)); (case mhl => decide))
    | ((with_reducible apply Laws.State.refuse_kept); (case mhl => decide))
    | ((with_reducible apply Laws.State.sendDevice_kept); (case mhl => decide))
    | ((with_reducible apply Laws.State.setStall_kept); (case mhl => decide))
    | ((with_reducible apply Laws.State.startMigration_kept); (case mhl => decide))
    | ((with_reducible apply Kept.iteL); case k => ((repeat' first | with_reducible exact Kept.refl _ | ((with_reducible apply Laws.State.fetch_kept); (case mhl => decide)) | ((with_reducible apply Laws.State.intoPool_kept ?mhl (by assumption)); (case mhl => decide)) | ((with_reducible apply Laws.State.refuse_kept); (case mhl => decide)) | ((with_reducible apply Laws.State.sendDevice_kept); (case mhl => decide)) | ((with_reducible apply Laws.State.setStall_kept); (case mhl => decide)) | ((with_reducible apply Laws.State.startMigration_kept); (case mhl => decide)) | with_reducible apply Kept.ite | (fail_if_no_progress ((with_reducible apply Kept.upd); (case ho => (refine Only.of (fun p hp => ?_) rfl; cases p <;> first | rfl | (refine absurd ?_ hp; decide))); (case hi => (repeat' first | with_reducible exact IoKept.refl _ | with_reducible apply IoKept.ite | with_reducible apply IoKept.foldl | with_reducible apply IoKept.put | with_reducible apply IoKept.filter | (fail_if_no_progress with_reducible apply IoKept.upd) | intro _ | dsimp only | split)); (case ht => (repeat' first | with_reducible exact T1Kept.refl _ | with_reducible apply T1Kept.ite | with_reducible apply T1Kept.foldl | with_reducible apply T1Kept.put | with_reducible apply T1Kept.filter | (fail_if_no_progress with_reducible apply T1Kept.upd) | intro _ | dsimp only | split)))) | intro _ | dsimp only | split); done))
    | ((with_reducible apply Kept.iteR); case k => ((repeat' first | with_reducible exact Kept.refl _ | ((with_reducible apply Laws.State.fetch_kept); (case mhl => decide)) | ((with_reducible apply Laws.State.intoPool_kept ?mhl (by assumption)); (case mhl => decide)) | ((with_reducible apply Laws.State.refuse_kept); (case mhl => decide)) | ((with_reducible apply Laws.State.sendDevice_kept); (case mhl => decide)) | ((with_reducible apply Laws.State.setStall_kept); (case mhl => decide)) | ((with_reducible apply Laws.State.startMigration_kept); (case mhl => decide)) | with_reducible apply Kept.ite | (fail_if_no_progress ((with_reducible apply Kept.upd); (case ho => (refine Only.of (fun p hp => ?_) rfl; cases p <;> first | rfl | (refine absurd ?_ hp; decide))); (case hi => (repeat' first | with_reducible exact IoKept.refl _ | with_reducible apply IoKept.ite | with_reducible apply IoKept.foldl | with_reducible apply IoKept.put | with_reducible apply IoKept.filter | (fail_if_no_progress with_reducible apply IoKept.upd) | intro _ | dsimp only | split)); (case ht => (repeat' first | with_reducible exact T1Kept.refl _ | with_reducible apply T1Kept.ite | with_reducible apply T1Kept.foldl | with_reducible apply T1Kept.put | with_reducible apply T1Kept.filter | (fail_if_no_progress with_reducible apply T1Kept.upd) | intro _ | dsimp only | split)))) | intro _ | dsimp only | split); done))
    | with_reducible apply Kept.ite
    | (fail_if_no_progress ((with_reducible apply Kept.upd); (case ho => (refine Only.of (fun p hp => ?_) rfl; cases p <;> first | rfl | (refine absurd ?_ hp; decide))); (case hi => (repeat' first | with_reducible exact IoKept.refl _ | with_reducible apply IoKept.ite | with_reducible apply IoKept.foldl | with_reducible apply IoKept.put | with_reducible apply IoKept.filter | (fail_if_no_progress with_reducible apply IoKept.upd) | intro _ | dsimp only | split)); (case ht => (repeat' first | with_reducible exact T1Kept.refl _ | with_reducible apply T1Kept.ite | with_reducible apply T1Kept.foldl | with_reducible apply T1Kept.put | with_reducible apply T1Kept.filter | (fail_if_no_progress with_reducible apply T1Kept.upd) | intro _ | dsimp only | split))))
    | intro _
    | dsimp only
    | split
theorem State.answerFetch_kept {ml : List StateField} {mz : State} {s : State} {i requester msgId : Nat} (mhl : [.io, .t1, .shed, .stalls, .answers, .textCache, .net] ⊆ ml) (mh : Kept ml mz s) : Kept ml mz (State.answerFetch s i requester msgId) :=
  Kept.after ((State.answerFetch_frame s i requester msgId).mono mhl) mh

theorem State.doDeferred_frame (s : State) (i : Nat) (x0 : Deferred) : Kept [.io, .t1, .shed, .stalls, .ops, .mirrors, .answers, .textCache, .net] s (State.doDeferred s i x0) := by
  unfold State.doDeferred
  try dsimp only
  repeat' first
    | with_reducible exact Kept.refl _
    | ((with_reducible apply Laws.State.answerFetch_kept); (case mhl => decide))
    | ((with_reducible apply Laws.State.applyInput_kept); (case mhl => decide))
    | ((with_reducible apply Laws.State.applyResult_kept' ?mhl (by assumption)); (case mhl => decide))
    | ((with_reducible apply Laws.State.applyResult_kept); (case mhl => decide))
    | ((with_reducible apply Laws.State.complete_kept); (case mhl => decide))
    | ((with_reducible apply Laws.State.doCommand_kept); (case mhl => decide))
    | ((with_reducible apply Laws.State.fetch_kept); (case mhl => decide))
    | with_reducible apply Kept.ite
    | (fail_if_no_progress ((with_reducible apply Kept.upd); (case ho => (refine Only.of (fun p hp => ?_) rfl; cases p <;> first | rfl | (refine absurd ?_ hp; decide))); (case hi => (repeat' first | with_reducible exact IoKept.refl _ | with_reducible apply IoKept.ite | with_reducible apply IoKept.foldl | with_reducible apply IoKept.put | with_reducible apply IoKept.filter | (fail_if_no_progress with_reducible apply IoKept.upd) | intro _ | dsimp only | split)); (case ht => (repeat' first | with_reducible exact T1Kept.refl _ | with_reducible apply T1Kept.ite | with_reducible apply T1Kept.foldl | with_reducible apply T1Kept.put | with_reducible apply T1Kept.filter | (fail_if_no_progress with_reducible apply T1Kept.upd) | intro _ | dsimp only | split))))
    | intro _
    | dsimp only
    | split
theorem State.doDeferred_kept {ml : List StateField} {mz : State} {s : State} {i : Nat} {x0 : Deferred} (mhl : [.io, .t1, .shed, .stalls, .ops, .mirrors, .answers, .textCache, .net] ⊆ ml) (mh : Kept ml mz s) : Kept ml mz (State.doDeferred s i x0) :=
  Kept.after ((State.doDeferred_frame s i x0).mono mhl) mh

theorem State.applyDeferred_frame (s : State) (i : Nat) : Kept [.io, .t1, .shed, .stalls, .ops, .mirrors, .answers, .textCache, .net] s (State.applyDeferred s i) := by
  unfold State.applyDeferred
  try dsimp only
  repeat' first
    | with_reducible exact Kept.refl _
    | ((with_reducible apply Laws.State.doDeferred_kept); (case mhl => decide))
    | ((with_reducible apply Laws.State.setStall_kept); (case mhl => decide))
    | with_reducible apply Kept.ite
    | with_reducible apply Kept.foldl
    | with_reducible apply Kept.foldlFst
    | with_reducible apply Kept.foldlSnd
    | (fail_if_no_progress ((with_reducible apply Kept.upd); (case ho => (refine Only.of (fun p hp => ?_) rfl; cases p <;> first | rfl | (refine absurd ?_ hp; decide))); (case hi => (repeat' first | with_reducible exact IoKept.refl _ | with_reducible apply IoKept.ite | with_reducible apply IoKept.foldl | with_reducible apply IoKept.put | with_reducible apply IoKept.filter | (fail_if_no_progress with_reducible apply IoKept.upd) | intro _ | dsimp only | split)); (case ht => (repeat' first | with_reducible exact T1Kept.refl _ | with_reducible apply T1Kept.ite | with_reducible apply T1Kept.foldl | with_reducible apply T1Kept.put | with_reducible apply T1Kept.filter | (fail_if_no_progress with_reducible apply T1Kept.upd) | intro _ | dsimp only | split))))
    | intro _
    | dsimp only
    | split
theorem State.applyDeferred_kept {ml : List StateField} {mz : State} {s : State} {i : Nat} (mhl : [.io, .t1, .shed, .stalls, .ops, .mirrors, .answers, .textCache, .net] ⊆ ml) (mh : Kept ml mz s) : Kept ml mz (State.applyDeferred s i) :=
  Kept.after ((State.applyDeferred_frame s i).mono mhl) mh

theorem State.soon_frame (s : State) (i : Nat) (d : Deferred) : Kept [.io, .t1, .shed, .stalls, .ops, .mirrors, .answers, .textCache, .net] s (State.soon s i d) := by
  unfold State.soon
  try dsimp only
  repeat' first
    | with_reducible exact Kept.refl _
    | ((with_reducible apply Laws.State.doDeferred_kept); (case mhl => decide))
    | ((with_reducible apply Laws.State.setStall_kept); (case mhl => decide))
    | with_reducible apply Kept.ite
    | (fail_if_no_progress ((with_reducible apply Kept.upd); (case ho => (refine Only.of (fun p hp => ?_) rfl; cases p <;> first | rfl | (refine absurd ?_ hp; decide))); (case hi => (repeat' first | with_reducible exact IoKept.refl _ | with_reducible apply IoKept.ite | with_reducible apply IoKept.foldl | with_reducible apply IoKept.put | with_reducible apply IoKept.filter | (fail_if_no_progress with_reducible apply IoKept.upd) | intro _ | dsimp only | split)); (case ht => (repeat' first | with_reducible exact T1Kept.refl _ | with_reducible apply T1Kept.ite | with_reducible apply T1Kept.foldl | with_reducible apply T1Kept.put | with_reducible apply T1Kept.filter | (fail_if_no_progress with_reducible apply T1Kept.upd) | intro _ | dsimp only | split))))
    | intro _
    | dsimp only
    | split
theorem State.soon_kept {ml : List StateField} {mz : State} {s : State} {i : Nat} {d : Deferred} (mhl : [.io, .t1, .shed, .stalls, .ops, .mirrors, .answers, .textCache, .net] ⊆ ml) (mh : Kept ml mz s) : Kept ml mz (State.soon s i d) :=
  Kept.after ((State.soon_frame s i d).mono mhl) mh

theorem State.nowOrDeferred_frame (s : State) (i opcode : Nat) (c : Cmd) : Kept [.io, .t1, .shed, .stalls, .ops, .mirrors, .answers, .textCache, .net] s (State.nowOrDeferred s i opcode c) := by
  unfold State.nowOrDeferred
  try dsimp only
  repeat' first
    | with_reducible exact Kept.refl _
    | ((with_reducible apply Laws.State.soon_kept); (case mhl => decide))
    | with_reducible apply Kept.ite
    | intro _
    | dsimp only
    | split
theorem State.nowOrDeferred_kept {ml : List StateField} {mz : State} {s : State} {i opcode : Nat} {c : Cmd} (mhl : [.io, .t1, .shed, .stalls, .ops, .mirrors, .answers, .textCache, .net] ⊆ ml) (mh : Kept ml mz s) : Kept ml mz (State.nowOrDeferred s i opcode c) :=
  Kept.after ((State.nowOrDeferred_frame s i opcode c).mono mhl) mh

end Sys2Proof.Laws
end

