-- ==== Sys2Proof/Laws/KeptStepOps.lean ====
section
/-! SUPPORT. The frame lemma of every operation of Machine/StepOps.lean: which fields of the state it may change, and that it keeps the canonical
forms. -/

set_option Elab.async false
set_option linter.unusedTactic false
set_option linter.unreachableTactic false
set_option linter.unusedVariables false

namespace Sys2Proof.Laws

open Sys2Proof Sys2Proof.Machine Sys2Proof.Safety

theorem State.noteEmpty_frame (s : State) (t : Nat) : Kept [.io, .emptyRaised] s (State.noteEmpty s t) := by
  unfold State.noteEmpty
  try dsimp only
  repeat' first
    | with_reducible exact Kept.refl _
    | ((with_reducible apply Laws.State.raise_kept); (case mhl => decide))
    | with_reducible apply Kept.ite
    | (fail_if_no_progress ((with_reducible apply Kept.upd); (case ho => (refine Only.of (fun p hp => ?_) rfl; cases p <;> first | rfl | (refine absurd ?_ hp; decide))); (case hi => (repeat' first | with_reducible exact IoKept.refl _ | with_reducible apply Laws.Io.raise_kept | with_reducible apply IoKept.ite | with_reducible apply IoKept.foldl | with_reducible apply IoKept.put | with_reducible apply IoKept.filter | (fail_if_no_progress with_reducible apply IoKept.upd) | intro _ | dsimp only | split)); (case ht => exact T1Kept.refl _)))
    | intro _
    | dsimp only
    | split
theorem State.noteEmpty_kept {ml : List StateField} {mz : State} {s : State} {t : Nat} (mhl : [.io, .emptyRaised] ⊆ ml) (mh : Kept ml mz s) : Kept ml mz (State.noteEmpty s t) :=
  Kept.after ((State.noteEmpty_frame s t).mono mhl) mh

theorem State.charge_frame (s : State) (t n : Nat) : Kept [.io, .emptyRaised] s (State.charge s t n) := by
  unfold State.charge
  try dsimp only
  repeat' first
    | with_reducible exact Kept.refl _
    | ((with_reducible apply Laws.State.bump_kept); (case mhl => decide))
    | ((with_reducible apply Laws.State.noteEmpty_kept); (case mhl => decide))
    | ((with_reducible apply Laws.State.put_kept); (case mhl => decide))
    | with_reducible apply Kept.ite
    | intro _
    | dsimp only
    | split
theorem State.charge_kept {ml : List StateField} {mz : State} {s : State} {t n : Nat} (mhl : [.io, .emptyRaised] ⊆ ml) (mh : Kept ml mz s) : Kept ml mz (State.charge s t n) :=
  Kept.after ((State.charge_frame s t n).mono mhl) mh

theorem State.refund_frame (s : State) (t n : Nat) : Kept [.io] s (State.refund s t n) := by
  unfold State.refund
  try dsimp only
  repeat' first
    | with_reducible exact Kept.refl _
    | ((with_reducible apply Laws.State.bump_kept); (case mhl => decide))
    | with_reducible apply Kept.ite
    | intro _
    | dsimp only
    | split
theorem State.refund_kept {ml : List StateField} {mz : State} {s : State} {t n : Nat} (mhl : [.io] ⊆ ml) (mh : Kept ml mz s) : Kept ml mz (State.refund s t n) :=
  Kept.after ((State.refund_frame s t n).mono mhl) mh

theorem State.setText_frame (s : State) (i : Nat) (x : TextState) : Kept [.stalls] s (State.setText s i x) := by
  unfold State.setText
  try dsimp only
  repeat' first
    | with_reducible exact Kept.refl _
    | ((with_reducible apply Laws.State.setStall_kept); (case mhl => decide))
    | with_reducible apply Kept.ite
    | (fail_if_no_progress ((with_reducible apply Kept.upd); (case ho => (refine Only.of (fun p hp => ?_) rfl; cases p <;> first | rfl | (refine absurd ?_ hp; decide))); (case hi => exact IoKept.refl _); (case ht => exact T1Kept.refl _)))
    | intro _
    | dsimp only
    | split
theorem State.setText_kept {ml : List StateField} {mz : State} {s : State} {i : Nat} {x : TextState} (mhl : [.stalls] ⊆ ml) (mh : Kept ml mz s) : Kept ml mz (State.setText s i x) :=
  Kept.after ((State.setText_frame s i x).mono mhl) mh

theorem State.stepSend_frame (s : State) (i : Nat) (m : Msg) : Kept [.stalls, .net] s (State.stepSend s i m) := by
  unfold State.stepSend
  try dsimp only
  repeat' first
    | with_reducible exact Kept.refl _
    | ((with_reducible apply Laws.State.send_kept); (case mhl => decide))
    | ((with_reducible apply Laws.State.setStall_kept); (case mhl => decide))
    | with_reducible apply Kept.ite
    | (fail_if_no_progress ((with_reducible apply Kept.upd); (case ho => (refine Only.of (fun p hp => ?_) rfl; cases p <;> first | rfl | (refine absurd ?_ hp; decide))); (case hi => exact IoKept.refl _); (case ht => exact T1Kept.refl _)))
    | intro _
    | dsimp only
    | split
theorem State.stepSend_kept {ml : List StateField} {mz : State} {s : State} {i : Nat} {m : Msg} (mhl : [.stalls, .net] ⊆ ml) (mh : Kept ml mz s) : Kept ml mz (State.stepSend s i m) :=
  Kept.after ((State.stepSend_frame s i m).mono mhl) mh

theorem State.emitBytes_frame (s : State) (i : Nat) (bytes : List Byte) : Kept [.stalls, .net] s (State.emitBytes s i bytes) := by
  unfold State.emitBytes
  try dsimp only
  repeat' first
    | with_reducible exact Kept.refl _
    | ((with_reducible apply Laws.State.stepSend_kept); (case mhl => decide))
    | with_reducible apply Kept.ite
    | intro _
    | dsimp only
    | split
theorem State.emitBytes_kept {ml : List StateField} {mz : State} {s : State} {i : Nat} {bytes : List Byte} (mhl : [.stalls, .net] ⊆ ml) (mh : Kept ml mz s) : Kept ml mz (State.emitBytes s i bytes) :=
  Kept.after ((State.emitBytes_frame s i bytes).mono mhl) mh

theorem State.flushHeld_frame (s : State) (i : Nat) : Kept [.stalls, .net] s (State.flushHeld s i) := by
  unfold State.flushHeld
  try dsimp only
  repeat' first
    | with_reducible exact Kept.refl _
    | ((with_reducible apply Laws.State.emitBytes_kept); (case mhl => decide))
    | ((with_reducible apply Laws.State.setText_kept); (case mhl => decide))
    | with_reducible apply Kept.ite
    | (fail_if_no_progress ((with_reducible apply Kept.upd); (case ho => (refine Only.of (fun p hp => ?_) rfl; cases p <;> first | rfl | (refine absurd ?_ hp; decide))); (case hi => exact IoKept.refl _); (case ht => exact T1Kept.refl _)))
    | intro _
    | dsimp only
    | split
theorem State.flushHeld_kept {ml : List StateField} {mz : State} {s : State} {i : Nat} (mhl : [.stalls, .net] ⊆ ml) (mh : Kept ml mz s) : Kept ml mz (State.flushHeld s i) :=
  Kept.after ((State.flushHeld_frame s i).mono mhl) mh

theorem State.setLastStop_frame (s : State) (i n : Nat) : Kept [.stalls] s (State.setLastStop s i n) := by
  unfold State.setLastStop
  try dsimp only
  repeat' first
    | with_reducible exact Kept.refl _
    | ((with_reducible apply Laws.State.setText_kept); (case mhl => decide))
    | with_reducible apply Kept.ite
    | (fail_if_no_progress ((with_reducible apply Kept.upd); (case ho => (refine Only.of (fun p hp => ?_) rfl; cases p <;> first | rfl | (refine absurd ?_ hp; decide))); (case hi => exact IoKept.refl _); (case ht => exact T1Kept.refl _)))
    | intro _
    | dsimp only
    | split
theorem State.setLastStop_kept {ml : List StateField} {mz : State} {s : State} {i n : Nat} (mhl : [.stalls] ⊆ ml) (mh : Kept ml mz s) : Kept ml mz (State.setLastStop s i n) :=
  Kept.after ((State.setLastStop_frame s i n).mono mhl) mh

theorem State.setFilled_frame (s : State) (i n : Nat) : Kept [.stalls] s (State.setFilled s i n) := by
  unfold State.setFilled
  try dsimp only
  repeat' first
    | with_reducible exact Kept.refl _
    | ((with_reducible apply Laws.State.setStall_kept); (case mhl => decide))
    | with_reducible apply Kept.ite
    | (fail_if_no_progress ((with_reducible apply Kept.upd); (case ho => (refine Only.of (fun p hp => ?_) rfl; cases p <;> first | rfl | (refine absurd ?_ hp; decide))); (case hi => exact IoKept.refl _); (case ht => exact T1Kept.refl _)))
    | intro _
    | dsimp only
    | split
theorem State.setFilled_kept {ml : List StateField} {mz : State} {s : State} {i n : Nat} (mhl : [.stalls] ⊆ ml) (mh : Kept ml mz s) : Kept ml mz (State.setFilled s i n) :=
  Kept.after ((State.setFilled_frame s i n).mono mhl) mh

theorem State.settle_frame (s : State) (i generated : Nat) : Kept [.io, .stalls] s (State.settle s i generated) := by
  unfold State.settle
  try dsimp only
  repeat' first
    | with_reducible exact Kept.refl _
    | ((with_reducible apply Laws.State.refund_kept); (case mhl => decide))
    | ((with_reducible apply Laws.State.setStall_kept); (case mhl => decide))
    | with_reducible apply Kept.ite
    | (fail_if_no_progress ((with_reducible apply Kept.upd); (case ho => (refine Only.of (fun p hp => ?_) rfl; cases p <;> first | rfl | (refine absurd ?_ hp; decide))); (case hi => (repeat' first | with_reducible exact IoKept.refl _ | with_reducible apply IoKept.ite | with_reducible apply IoKept.foldl | with_reducible apply IoKept.put | with_reducible apply IoKept.filter | (fail_if_no_progress with_reducible apply IoKept.upd) | intro _ | dsimp only | split)); (case ht => exact T1Kept.refl _)))
    | intro _
    | dsimp only
    | split
theorem State.settle_kept {ml : List StateField} {mz : State} {s : State} {i generated : Nat} (mhl : [.io, .stalls] ⊆ ml) (mh : Kept ml mz s) : Kept ml mz (State.settle s i generated) :=
  Kept.after ((State.settle_frame s i generated).mono mhl) mh

theorem State.answerHub_frame (s : State) (slot unit : Nat) (c : Cmd) (status r0 : Nat) : Kept [.answers] s (State.answerHub s slot unit c status r0) := by
  unfold State.answerHub
  try dsimp only
  repeat' first
    | with_reducible exact Kept.refl _
    | with_reducible apply Kept.ite
    | (fail_if_no_progress ((with_reducible apply Kept.upd); (case ho => (refine Only.of (fun p hp => ?_) rfl; cases p <;> first | rfl | (refine absurd ?_ hp; decide))); (case hi => exact IoKept.refl _); (case ht => exact T1Kept.refl _)))
    | intro _
    | dsimp only
    | split
theorem State.answerHub_kept {ml : List StateField} {mz : State} {s : State} {slot unit : Nat} {c : Cmd} {status r0 : Nat} (mhl : [.answers] ⊆ ml) (mh : Kept ml mz s) : Kept ml mz (State.answerHub s slot unit c status r0) :=
  Kept.after ((State.answerHub_frame s slot unit c status r0).mono mhl) mh

theorem State.stopStep_frame (s : State) (i : Nat) : Kept [.io, .stalls, .answers] s (State.stopStep s i) := by
  unfold State.stopStep
  try dsimp only
  repeat' first
    | with_reducible exact Kept.refl _
    | ((with_reducible apply Laws.State.answerHub_kept); (case mhl => decide))
    | ((with_reducible apply Laws.State.setFilled_kept); (case mhl => decide))
    | ((with_reducible apply Laws.State.setStall_kept); (case mhl => decide))
    | ((with_reducible apply Laws.State.settle_kept); (case mhl => decide))
    | with_reducible apply Kept.ite
    | with_reducible apply Kept.foldl
    | with_reducible apply Kept.foldlFst
    | with_reducible apply Kept.foldlSnd
    | with_reducible apply Kept.getD
    | (fail_if_no_progress ((with_reducible apply Kept.upd); (case ho => (refine Only.of (fun p hp => ?_) rfl; cases p <;> first | rfl | (refine absurd ?_ hp; decide))); (case hi => (repeat' first | with_reducible exact IoKept.refl _ | with_reducible apply IoKept.ite | with_reducible apply IoKept.foldl | with_reducible apply IoKept.put | with_reducible apply IoKept.filter | (fail_if_no_progress with_reducible apply IoKept.upd) | intro _ | dsimp only | split)); (case ht => exact T1Kept.refl _)))
    | intro _
    | dsimp only
    | split
theorem State.stopStep_kept {ml : List StateField} {mz : State} {s : State} {i : Nat} (mhl : [.io, .stalls, .answers] ⊆ ml) (mh : Kept ml mz s) : Kept ml mz (State.stopStep s i) :=
  Kept.after ((State.stopStep_frame s i).mono mhl) mh

theorem State.abandonStep_frame (s : State) (i : Nat) : Kept [.io, .t1, .shed, .stalls, .ops, .mirrors, .answers, .textCache, .net] s (State.abandonStep s i) := by
  unfold State.abandonStep
  try dsimp only
  repeat' first
    | with_reducible exact Kept.refl _
    | ((with_reducible apply Laws.State.applyDeferred_kept); (case mhl => decide))
    | ((with_reducible apply Laws.State.stopStep_kept); (case mhl => decide))
    | with_reducible apply Kept.ite
    | intro _
    | dsimp only
    | split
theorem State.abandonStep_kept {ml : List StateField} {mz : State} {s : State} {i : Nat} (mhl : [.io, .t1, .shed, .stalls, .ops, .mirrors, .answers, .textCache, .net] ⊆ ml) (mh : Kept ml mz s) : Kept ml mz (State.abandonStep s i) :=
  Kept.after ((State.abandonStep_frame s i).mono mhl) mh

theorem State.abandonPaused_frame (s : State) (i : Nat) : Kept [.io, .t1, .shed, .stalls, .ops, .mirrors, .answers, .textCache, .net] s (State.abandonPaused s i) := by
  unfold State.abandonPaused
  try dsimp only
  repeat' first
    | with_reducible exact Kept.refl _
    | ((with_reducible apply Laws.State.abandonStep_kept); (case mhl => decide))
    | ((with_reducible apply Laws.State.updHdr_kept); (case mhl => decide))
    | with_reducible apply Kept.ite
    | (fail_if_no_progress ((with_reducible apply Kept.upd); (case ho => (refine Only.of (fun p hp => ?_) rfl; cases p <;> first | rfl | (refine absurd ?_ hp; decide))); (case hi => (repeat' first | with_reducible exact IoKept.refl _ | with_reducible apply IoKept.ite | with_reducible apply IoKept.foldl | with_reducible apply IoKept.put | with_reducible apply IoKept.filter | (fail_if_no_progress with_reducible apply IoKept.upd) | intro _ | dsimp only | split)); (case ht => (repeat' first | with_reducible exact T1Kept.refl _ | with_reducible apply T1Kept.ite | with_reducible apply T1Kept.foldl | with_reducible apply T1Kept.put | with_reducible apply T1Kept.filter | (fail_if_no_progress with_reducible apply T1Kept.upd) | intro _ | dsimp only | split))))
    | intro _
    | dsimp only
    | split
theorem State.abandonPaused_kept {ml : List StateField} {mz : State} {s : State} {i : Nat} (mhl : [.io, .t1, .shed, .stalls, .ops, .mirrors, .answers, .textCache, .net] ⊆ ml) (mh : Kept ml mz s) : Kept ml mz (State.abandonPaused s i) :=
  Kept.after ((State.abandonPaused_frame s i).mono mhl) mh

theorem State.movePast_frame (s : State) (i accepted token final : Nat) : Kept [.stalls, .net] s (State.movePast s i accepted token final) := by
  unfold State.movePast
  try dsimp only
  repeat' first
    | with_reducible exact Kept.refl _
    | ((with_reducible apply Laws.State.send_kept); (case mhl => decide))
    | ((with_reducible apply Laws.State.setFilled_kept); (case mhl => decide))
    | ((with_reducible apply Laws.State.setStall_kept); (case mhl => decide))
    | ((with_reducible apply Kept.iteL); case k => ((repeat' first | with_reducible exact Kept.refl _ | ((with_reducible apply Laws.State.send_kept); (case mhl => decide)) | ((with_reducible apply Laws.State.setFilled_kept); (case mhl => decide)) | ((with_reducible apply Laws.State.setStall_kept); (case mhl => decide)) | with_reducible apply Kept.foldl | with_reducible apply Kept.foldlFst | with_reducible apply Kept.foldlSnd | with_reducible apply Kept.ite | (fail_if_no_progress ((with_reducible apply Kept.upd); (case ho => (refine Only.of (fun p hp => ?_) rfl; cases p <;> first | rfl | (refine absurd ?_ hp; decide))); (case hi => exact IoKept.refl _); (case ht => exact T1Kept.refl _))) | intro _ | dsimp only | split); done))
    | ((with_reducible apply Kept.iteR); case k => ((repeat' first | with_reducible exact Kept.refl _ | ((with_reducible apply Laws.State.send_kept); (case mhl => decide)) | ((with_reducible apply Laws.State.setFilled_kept); (case mhl => decide)) | ((with_reducible apply Laws.State.setStall_kept); (case mhl => decide)) | with_reducible apply Kept.foldl | with_reducible apply Kept.foldlFst | with_reducible apply Kept.foldlSnd | with_reducible apply Kept.ite | (fail_if_no_progress ((with_reducible apply Kept.upd); (case ho => (refine Only.of (fun p hp => ?_) rfl; cases p <;> first | rfl | (refine absurd ?_ hp; decide))); (case hi => exact IoKept.refl _); (case ht => exact T1Kept.refl _))) | intro _ | dsimp only | split); done))
    | with_reducible apply Kept.ite
    | with_reducible apply Kept.foldl
    | with_reducible apply Kept.foldlFst
    | with_reducible apply Kept.foldlSnd
    | (fail_if_no_progress ((with_reducible apply Kept.upd); (case ho => (refine Only.of (fun p hp => ?_) rfl; cases p <;> first | rfl | (refine absurd ?_ hp; decide))); (case hi => exact IoKept.refl _); (case ht => exact T1Kept.refl _)))
    | intro _
    | dsimp only
    | split
theorem State.movePast_kept {ml : List StateField} {mz : State} {s : State} {i accepted token final : Nat} (mhl : [.stalls, .net] ⊆ ml) (mh : Kept ml mz s) : Kept ml mz (State.movePast s i accepted token final) :=
  Kept.after ((State.movePast_frame s i accepted token final).mono mhl) mh

theorem State.commitStep_frame (s : State) (i accepted token status : Nat) : Kept [.io, .t1, .shed, .stalls, .ops, .mirrors, .answers, .textCache, .net] s (State.commitStep s i accepted token status) := by
  unfold State.commitStep
  try dsimp only
  repeat' first
    | with_reducible exact Kept.refl _
    | ((with_reducible apply Laws.State.applyDeferred_kept); (case mhl => decide))
    | ((with_reducible apply Laws.State.enterHot_kept); (case mhl => decide))
    | ((with_reducible apply Laws.State.enterWaiting_kept); (case mhl => decide))
    | ((with_reducible apply Laws.State.flushHeld_kept); (case mhl => decide))
    | ((with_reducible apply Laws.State.movePast_kept); (case mhl => decide))
    | ((with_reducible apply Laws.State.setDirty_kept); (case mhl => decide))
    | ((with_reducible apply Laws.State.settle_kept); (case mhl => decide))
    | ((with_reducible apply Laws.State.stallEvent_kept); (case mhl => decide))
    | ((with_reducible apply Laws.State.takeInput_kept); (case mhl => decide))
    | ((with_reducible apply Kept.iteL); case k => ((repeat' first | with_reducible exact Kept.refl _ | ((with_reducible apply Laws.State.applyDeferred_kept); (case mhl => decide)) | ((with_reducible apply Laws.State.enterHot_kept); (case mhl => decide)) | ((with_reducible apply Laws.State.enterWaiting_kept); (case mhl => decide)) | ((with_reducible apply Laws.State.flushHeld_kept); (case mhl => decide)) | ((with_reducible apply Laws.State.movePast_kept); (case mhl => decide)) | ((with_reducible apply Laws.State.setDirty_kept); (case mhl => decide)) | ((with_reducible apply Laws.State.settle_kept); (case mhl => decide)) | ((with_reducible apply Laws.State.stallEvent_kept); (case mhl => decide)) | ((with_reducible apply Laws.State.takeInput_kept); (case mhl => decide)) | with_reducible apply Kept.ite | (fail_if_no_progress ((with_reducible apply Kept.upd); (case ho => (refine Only.of (fun p hp => ?_) rfl; cases p <;> first | rfl | (refine absurd ?_ hp; decide))); (case hi => (repeat' first | with_reducible exact IoKept.refl _ | with_reducible apply IoKept.ite | with_reducible apply IoKept.foldl | with_reducible apply IoKept.put | with_reducible apply IoKept.filter | (fail_if_no_progress with_reducible apply IoKept.upd) | intro _ | dsimp only | split)); (case ht => (repeat' first | with_reducible exact T1Kept.refl _ | with_reducible apply T1Kept.ite | with_reducible apply T1Kept.foldl | with_reducible apply T1Kept.put | with_reducible apply T1Kept.filter | (fail_if_no_progress with_reducible apply T1Kept.upd) | intro _ | dsimp only | split)))) | intro _ | dsimp only | split); done))
    | ((with_reducible apply Kept.iteR); case k => ((repeat' first | with_reducible exact Kept.refl _ | ((with_reducible apply Laws.State.applyDeferred_kept); (case mhl => decide)) | ((with_reducible apply Laws.State.enterHot_kept); (case mhl => decide)) | ((with_reducible apply Laws.State.enterWaiting_kept); (case mhl => decide)) | ((with_reducible apply Laws.State.flushHeld_kept); (case mhl => decide)) | ((with_reducible apply Laws.State.movePast_kept); (case mhl => decide)) | ((with_reducible apply Laws.State.setDirty_kept); (case mhl => decide)) | ((with_reducible apply Laws.State.settle_kept); (case mhl => decide)) | ((with_reducible apply Laws.State.stallEvent_kept); (case mhl => decide)) | ((with_reducible apply Laws.State.takeInput_kept); (case mhl => decide)) | with_reducible apply Kept.ite | (fail_if_no_progress ((with_reducible apply Kept.upd); (case ho => (refine Only.of (fun p hp => ?_) rfl; cases p <;> first | rfl | (refine absurd ?_ hp; decide))); (case hi => (repeat' first | with_reducible exact IoKept.refl _ | with_reducible apply IoKept.ite | with_reducible apply IoKept.foldl | with_reducible apply IoKept.put | with_reducible apply IoKept.filter | (fail_if_no_progress with_reducible apply IoKept.upd) | intro _ | dsimp only | split)); (case ht => (repeat' first | with_reducible exact T1Kept.refl _ | with_reducible apply T1Kept.ite | with_reducible apply T1Kept.foldl | with_reducible apply T1Kept.put | with_reducible apply T1Kept.filter | (fail_if_no_progress with_reducible apply T1Kept.upd) | intro _ | dsimp only | split)))) | intro _ | dsimp only | split); done))
    | with_reducible apply Kept.ite
    | (fail_if_no_progress ((with_reducible apply Kept.upd); (case ho => (refine Only.of (fun p hp => ?_) rfl; cases p <;> first | rfl | (refine absurd ?_ hp; decide))); (case hi => (repeat' first | with_reducible exact IoKept.refl _ | with_reducible apply IoKept.ite | with_reducible apply IoKept.foldl | with_reducible apply IoKept.put | with_reducible apply IoKept.filter | (fail_if_no_progress with_reducible apply IoKept.upd) | intro _ | dsimp only | split)); (case ht => (repeat' first | with_reducible exact T1Kept.refl _ | with_reducible apply T1Kept.ite | with_reducible apply T1Kept.foldl | with_reducible apply T1Kept.put | with_reducible apply T1Kept.filter | (fail_if_no_progress with_reducible apply T1Kept.upd) | intro _ | dsimp only | split))))
    | intro _
    | dsimp only
    | split
theorem State.commitStep_kept {ml : List StateField} {mz : State} {s : State} {i accepted token status : Nat} (mhl : [.io, .t1, .shed, .stalls, .ops, .mirrors, .answers, .textCache, .net] ⊆ ml) (mh : Kept ml mz s) : Kept ml mz (State.commitStep s i accepted token status) :=
  Kept.after ((State.commitStep_frame s i accepted token status).mono mhl) mh

theorem State.haltWork_frame (s : State) (i : Nat) : Kept [.io, .t1, .stalls, .answers] s (State.haltWork s i) := by
  unfold State.haltWork
  try dsimp only
  repeat' first
    | with_reducible exact Kept.refl _
    | ((with_reducible apply Laws.State.complete_kept); (case mhl => decide))
    | ((with_reducible apply Laws.State.reviveAnswer_kept); (case mhl => decide))
    | ((with_reducible apply Laws.State.setStall_kept); (case mhl => decide))
    | ((with_reducible apply Laws.State.stopStep_kept); (case mhl => decide))
    | ((with_reducible apply Laws.State.undoRevive_kept); (case mhl => decide))
    | with_reducible apply Kept.ite
    | (fail_if_no_progress ((with_reducible apply Kept.upd); (case ho => (refine Only.of (fun p hp => ?_) rfl; cases p <;> first | rfl | (refine absurd ?_ hp; decide))); (case hi => (repeat' first | with_reducible exact IoKept.refl _ | with_reducible apply IoKept.ite | with_reducible apply IoKept.foldl | with_reducible apply IoKept.put | with_reducible apply IoKept.filter | (fail_if_no_progress with_reducible apply IoKept.upd) | intro _ | dsimp only | split)); (case ht => (repeat' first | with_reducible exact T1Kept.refl _ | with_reducible apply T1Kept.ite | with_reducible apply T1Kept.foldl | with_reducible apply T1Kept.put | with_reducible apply T1Kept.filter | (fail_if_no_progress with_reducible apply T1Kept.upd) | intro _ | dsimp only | split))))
    | intro _
    | dsimp only
    | split
theorem State.haltWork_kept {ml : List StateField} {mz : State} {s : State} {i : Nat} (mhl : [.io, .t1, .stalls, .answers] ⊆ ml) (mh : Kept ml mz s) : Kept ml mz (State.haltWork s i) :=
  Kept.after ((State.haltWork_frame s i).mono mhl) mh

theorem State.orphan_frame (s : State) (i : Nat) : Kept [.io, .t1, .shed, .stalls, .ops, .mirrors, .answers, .textCache, .net] s (State.orphan s i) := by
  unfold State.orphan
  try dsimp only
  repeat' first
    | with_reducible exact Kept.refl _
    | ((with_reducible apply Laws.State.applyDeferred_kept); (case mhl => decide))
    | ((with_reducible apply Laws.State.endMig_kept); (case mhl => decide))
    | ((with_reducible apply Laws.State.haltWork_kept); (case mhl => decide))
    | ((with_reducible apply Laws.State.sendDevice_kept); (case mhl => decide))
    | ((with_reducible apply Laws.State.setStall_kept); (case mhl => decide))
    | ((with_reducible apply Laws.State.stallEvent_kept); (case mhl => decide))
    | ((with_reducible apply Kept.iteL); case k => ((repeat' first | with_reducible exact Kept.refl _ | ((with_reducible apply Laws.State.applyDeferred_kept); (case mhl => decide)) | ((with_reducible apply Laws.State.endMig_kept); (case mhl => decide)) | ((with_reducible apply Laws.State.haltWork_kept); (case mhl => decide)) | ((with_reducible apply Laws.State.sendDevice_kept); (case mhl => decide)) | ((with_reducible apply Laws.State.setStall_kept); (case mhl => decide)) | ((with_reducible apply Laws.State.stallEvent_kept); (case mhl => decide)) | with_reducible apply Kept.foldl | with_reducible apply Kept.foldlFst | with_reducible apply Kept.foldlSnd | with_reducible apply Kept.ite | (fail_if_no_progress ((with_reducible apply Kept.upd); (case ho => (refine Only.of (fun p hp => ?_) rfl; cases p <;> first | rfl | (refine absurd ?_ hp; decide))); (case hi => (repeat' first | with_reducible exact IoKept.refl _ | with_reducible apply IoKept.ite | with_reducible apply IoKept.foldl | with_reducible apply IoKept.put | with_reducible apply IoKept.filter | (fail_if_no_progress with_reducible apply IoKept.upd) | intro _ | dsimp only | split)); (case ht => (repeat' first | with_reducible exact T1Kept.refl _ | with_reducible apply T1Kept.ite | with_reducible apply T1Kept.foldl | with_reducible apply T1Kept.put | with_reducible apply T1Kept.filter | (fail_if_no_progress with_reducible apply T1Kept.upd) | intro _ | dsimp only | split)))) | intro _ | dsimp only | split); done))
    | ((with_reducible apply Kept.iteR); case k => ((repeat' first | with_reducible exact Kept.refl _ | ((with_reducible apply Laws.State.applyDeferred_kept); (case mhl => decide)) | ((with_reducible apply Laws.State.endMig_kept); (case mhl => decide)) | ((with_reducible apply Laws.State.haltWork_kept); (case mhl => decide)) | ((with_reducible apply Laws.State.sendDevice_kept); (case mhl => decide)) | ((with_reducible apply Laws.State.setStall_kept); (case mhl => decide)) | ((with_reducible apply Laws.State.stallEvent_kept); (case mhl => decide)) | with_reducible apply Kept.foldl | with_reducible apply Kept.foldlFst | with_reducible apply Kept.foldlSnd | with_reducible apply Kept.ite | (fail_if_no_progress ((with_reducible apply Kept.upd); (case ho => (refine Only.of (fun p hp => ?_) rfl; cases p <;> first | rfl | (refine absurd ?_ hp; decide))); (case hi => (repeat' first | with_reducible exact IoKept.refl _ | with_reducible apply IoKept.ite | with_reducible apply IoKept.foldl | with_reducible apply IoKept.put | with_reducible apply IoKept.filter | (fail_if_no_progress with_reducible apply IoKept.upd) | intro _ | dsimp only | split)); (case ht => (repeat' first | with_reducible exact T1Kept.refl _ | with_reducible apply T1Kept.ite | with_reducible apply T1Kept.foldl | with_reducible apply T1Kept.put | with_reducible apply T1Kept.filter | (fail_if_no_progress with_reducible apply T1Kept.upd) | intro _ | dsimp only | split)))) | intro _ | dsimp only | split); done))
    | with_reducible apply Kept.ite
    | with_reducible apply Kept.foldl
    | with_reducible apply Kept.foldlFst
    | with_reducible apply Kept.foldlSnd
    | (fail_if_no_progress ((with_reducible apply Kept.upd); (case ho => (refine Only.of (fun p hp => ?_) rfl; cases p <;> first | rfl | (refine absurd ?_ hp; decide))); (case hi => (repeat' first | with_reducible exact IoKept.refl _ | with_reducible apply IoKept.ite | with_reducible apply IoKept.foldl | with_reducible apply IoKept.put | with_reducible apply IoKept.filter | (fail_if_no_progress with_reducible apply IoKept.upd) | intro _ | dsimp only | split)); (case ht => (repeat' first | with_reducible exact T1Kept.refl _ | with_reducible apply T1Kept.ite | with_reducible apply T1Kept.foldl | with_reducible apply T1Kept.put | with_reducible apply T1Kept.filter | (fail_if_no_progress with_reducible apply T1Kept.upd) | intro _ | dsimp only | split))))
    | intro _
    | dsimp only
    | split
theorem State.orphan_kept {ml : List StateField} {mz : State} {s : State} {i : Nat} (mhl : [.io, .t1, .shed, .stalls, .ops, .mirrors, .answers, .textCache, .net] ⊆ ml) (mh : Kept ml mz s) : Kept ml mz (State.orphan s i) :=
  Kept.after ((State.orphan_frame s i).mono mhl) mh

theorem State.learnCopy_frame (s : State) (i : Nat) (c : CopyInfo) : Kept [.stalls] s (State.learnCopy s i c) := by
  unfold State.learnCopy
  try dsimp only
  repeat' first
    | with_reducible exact Kept.refl _
    | ((with_reducible apply Laws.State.setStall_kept); (case mhl => decide))
    | with_reducible apply Kept.ite
    | (fail_if_no_progress ((with_reducible apply Kept.upd); (case ho => (refine Only.of (fun p hp => ?_) rfl; cases p <;> first | rfl | (refine absurd ?_ hp; decide))); (case hi => exact IoKept.refl _); (case ht => exact T1Kept.refl _)))
    | intro _
    | dsimp only
    | split
theorem State.learnCopy_kept {ml : List StateField} {mz : State} {s : State} {i : Nat} {c : CopyInfo} (mhl : [.stalls] ⊆ ml) (mh : Kept ml mz s) : Kept ml mz (State.learnCopy s i c) :=
  Kept.after ((State.learnCopy_frame s i c).mono mhl) mh

theorem State.dropCopy_frame (s : State) (i dev handle epoch : Nat) : Kept [.io, .t1, .shed, .stalls] s (State.dropCopy s i dev handle epoch) := by
  unfold State.dropCopy
  try dsimp only
  repeat' first
    | with_reducible exact Kept.refl _
    | ((with_reducible apply Laws.State.becomeRemote_kept); (case mhl => decide))
    | ((with_reducible apply Laws.State.stallEvent_kept); (case mhl => decide))
    | with_reducible apply Kept.ite
    | intro _
    | dsimp only
    | split
theorem State.dropCopy_kept {ml : List StateField} {mz : State} {s : State} {i dev handle epoch : Nat} (mhl : [.io, .t1, .shed, .stalls] ⊆ ml) (mh : Kept ml mz s) : Kept ml mz (State.dropCopy s i dev handle epoch) :=
  Kept.after ((State.dropCopy_frame s i dev handle epoch).mono mhl) mh

theorem State.resolveOrphan_frame (s : State) (i : Nat) : Kept [.io, .t1, .shed, .stalls, .net] s (State.resolveOrphan s i) := by
  unfold State.resolveOrphan
  try dsimp only
  repeat' first
    | with_reducible exact Kept.refl _
    | ((with_reducible apply Laws.State.becomeRemote_kept); (case mhl => decide))
    | ((with_reducible apply Laws.State.replayResume_kept); (case mhl => decide))
    | ((with_reducible apply Laws.State.stallEvent_kept); (case mhl => decide))
    | ((with_reducible apply Laws.State.takeOwnership_kept ?mhl (by assumption)); (case mhl => decide))
    | ((with_reducible apply Kept.iteL); case k => ((repeat' first | with_reducible exact Kept.refl _ | ((with_reducible apply Laws.State.becomeRemote_kept); (case mhl => decide)) | ((with_reducible apply Laws.State.replayResume_kept); (case mhl => decide)) | ((with_reducible apply Laws.State.stallEvent_kept); (case mhl => decide)) | ((with_reducible apply Laws.State.takeOwnership_kept ?mhl (by assumption)); (case mhl => decide)) | with_reducible apply Kept.foldl | with_reducible apply Kept.foldlFst | with_reducible apply Kept.foldlSnd | with_reducible apply Kept.ite | (fail_if_no_progress ((with_reducible apply Kept.upd); (case ho => (refine Only.of (fun p hp => ?_) rfl; cases p <;> first | rfl | (refine absurd ?_ hp; decide))); (case hi => (repeat' first | with_reducible exact IoKept.refl _ | with_reducible apply IoKept.ite | with_reducible apply IoKept.foldl | with_reducible apply IoKept.put | with_reducible apply IoKept.filter | (fail_if_no_progress with_reducible apply IoKept.upd) | intro _ | dsimp only | split)); (case ht => (repeat' first | with_reducible exact T1Kept.refl _ | with_reducible apply Laws.Tier1.own_kept | with_reducible apply T1Kept.ite | with_reducible apply T1Kept.foldl | with_reducible apply T1Kept.put | with_reducible apply T1Kept.filter | (fail_if_no_progress with_reducible apply T1Kept.upd) | intro _ | dsimp only | split)))) | intro _ | dsimp only | split); done))
    | ((with_reducible apply Kept.iteR); case k => ((repeat' first | with_reducible exact Kept.refl _ | ((with_reducible apply Laws.State.becomeRemote_kept); (case mhl => decide)) | ((with_reducible apply Laws.State.replayResume_kept); (case mhl => decide)) | ((with_reducible apply Laws.State.stallEvent_kept); (case mhl => decide)) | ((with_reducible apply Laws.State.takeOwnership_kept ?mhl (by assumption)); (case mhl => decide)) | with_reducible apply Kept.foldl | with_reducible apply Kept.foldlFst | with_reducible apply Kept.foldlSnd | with_reducible apply Kept.ite | (fail_if_no_progress ((with_reducible apply Kept.upd); (case ho => (refine Only.of (fun p hp => ?_) rfl; cases p <;> first | rfl | (refine absurd ?_ hp; decide))); (case hi => (repeat' first | with_reducible exact IoKept.refl _ | with_reducible apply IoKept.ite | with_reducible apply IoKept.foldl | with_reducible apply IoKept.put | with_reducible apply IoKept.filter | (fail_if_no_progress with_reducible apply IoKept.upd) | intro _ | dsimp only | split)); (case ht => (repeat' first | with_reducible exact T1Kept.refl _ | with_reducible apply Laws.Tier1.own_kept | with_reducible apply T1Kept.ite | with_reducible apply T1Kept.foldl | with_reducible apply T1Kept.put | with_reducible apply T1Kept.filter | (fail_if_no_progress with_reducible apply T1Kept.upd) | intro _ | dsimp only | split)))) | intro _ | dsimp only | split); done))
    | with_reducible apply Kept.ite
    | with_reducible apply Kept.foldl
    | with_reducible apply Kept.foldlFst
    | with_reducible apply Kept.foldlSnd
    | (fail_if_no_progress ((with_reducible apply Kept.upd); (case ho => (refine Only.of (fun p hp => ?_) rfl; cases p <;> first | rfl | (refine absurd ?_ hp; decide))); (case hi => (repeat' first | with_reducible exact IoKept.refl _ | with_reducible apply IoKept.ite | with_reducible apply IoKept.foldl | with_reducible apply IoKept.put | with_reducible apply IoKept.filter | (fail_if_no_progress with_reducible apply IoKept.upd) | intro _ | dsimp only | split)); (case ht => (repeat' first | with_reducible exact T1Kept.refl _ | with_reducible apply Laws.Tier1.own_kept | with_reducible apply T1Kept.ite | with_reducible apply T1Kept.foldl | with_reducible apply T1Kept.put | with_reducible apply T1Kept.filter | (fail_if_no_progress with_reducible apply T1Kept.upd) | intro _ | dsimp only | split))))
    | intro _
    | dsimp only
    | split
theorem State.resolveOrphan_kept {ml : List StateField} {mz : State} {s : State} {i : Nat} (mhl : [.io, .t1, .shed, .stalls, .net] ⊆ ml) (mh : Kept ml mz s) : Kept ml mz (State.resolveOrphan s i) :=
  Kept.after ((State.resolveOrphan_frame s i).mono mhl) mh

end Sys2Proof.Laws
end

