-- ==== Sys2Proof/Laws/KeptSurveyOps.lean ====
section
/-! SUPPORT. The frame lemma of every operation of Machine/SurveyOps.lean: which fields of the state it may change, and that it keeps the canonical
forms. -/

set_option Elab.async false
set_option linter.unusedTactic false
set_option linter.unreachableTactic false
set_option linter.unusedVariables false

namespace Sys2Proof.Laws

open Sys2Proof Sys2Proof.Machine Sys2Proof.Safety

theorem State.writeTopology_frame (s : State) : Kept [.io] s (State.writeTopology s) := by
  unfold State.writeTopology
  try dsimp only
  repeat' first
    | with_reducible exact Kept.refl _
    | ((with_reducible apply Laws.State.put_kept); (case mhl => decide))
    | with_reducible apply Kept.ite
    | with_reducible apply Kept.foldl
    | with_reducible apply Kept.foldlFst
    | with_reducible apply Kept.foldlSnd
    | intro _
    | dsimp only
    | split
theorem State.writeTopology_kept {ml : List StateField} {mz : State} {s : State} (mhl : [.io] ⊆ ml) (mh : Kept ml mz s) : Kept ml mz (State.writeTopology s) :=
  Kept.after ((State.writeTopology_frame s).mono mhl) mh

theorem State.survey_frame (s : State) (records : List Nat) : Kept [.io, .svChanged] s (State.survey s records) := by
  unfold State.survey
  refine Kept.trans (t := (List.range 16).foldl (fun s h => s.put (Fld.KV_FRAMES_F h) (if s.hiveAbsent h then 0 else s.usableFrames h)) s) ?_ ?_
  · apply Kept.foldl (Kept.refl _)
    intro t b
    exact State.put_kept (by decide) (Kept.refl _)
  · generalize (List.range 16).foldl _ s = s1
    dsimp only
    split
    · exact Kept.refl _
    · apply State.raise_kept (by decide)
      apply State.put_kept (by decide)
      apply State.put_kept (by decide)
      apply State.writeTopology_kept (by decide)
      with_reducible apply Kept.upd
      case ho => exact Only.of (fun p hp => by cases p <;> first | rfl | exact absurd (by decide) hp) rfl
      case hi => exact IoKept.refl _
      case ht => exact T1Kept.refl _
      exact Kept.refl _
theorem State.survey_kept {ml : List StateField} {mz : State} {s : State} {records : List Nat} (mhl : [.io, .svChanged] ⊆ ml) (mh : Kept ml mz s) : Kept ml mz (State.survey s records) :=
  Kept.after ((State.survey_frame s records).mono mhl) mh

end Sys2Proof.Laws
end

