-- ==== Sys2Proof/Laws/KeptCtxOps.lean ====
section
/-! SUPPORT. The frame lemma of every operation of Machine/CtxOps.lean: which fields of the state it may change, and that it keeps the canonical
forms. -/

set_option Elab.async false
set_option linter.unusedTactic false
set_option linter.unreachableTactic false
set_option linter.unusedVariables false

namespace Sys2Proof.Laws

open Sys2Proof Sys2Proof.Machine Sys2Proof.Safety

theorem State.setContext_frame (s : State) (i : Nat) (x : Context) : Kept [.contexts] s (State.setContext s i x) := by
  unfold State.setContext
  try dsimp only
  repeat' first
    | with_reducible exact Kept.refl _
    | with_reducible apply Kept.ite
    | (fail_if_no_progress ((with_reducible apply Kept.upd); (case ho => (refine Only.of (fun p hp => ?_) rfl; cases p <;> first | rfl | (refine absurd ?_ hp; decide))); (case hi => exact IoKept.refl _); (case ht => exact T1Kept.refl _)))
    | intro _
    | dsimp only
    | split
theorem State.setContext_kept {ml : List StateField} {mz : State} {s : State} {i : Nat} {x : Context} (mhl : [.contexts] ⊆ ml) (mh : Kept ml mz s) : Kept ml mz (State.setContext s i x) :=
  Kept.after ((State.setContext_frame s i x).mono mhl) mh

theorem State.setUnit_frame (s : State) (slot u : Nat) (x : UnitX) : Kept [.units, .contexts] s (State.setUnit s slot u x) := by
  unfold State.setUnit
  try dsimp only
  repeat' first
    | with_reducible exact Kept.refl _
    | ((with_reducible apply Laws.State.setContext_kept); (case mhl => decide))
    | with_reducible apply Kept.ite
    | (fail_if_no_progress ((with_reducible apply Kept.upd); (case ho => (refine Only.of (fun p hp => ?_) rfl; cases p <;> first | rfl | (refine absurd ?_ hp; decide))); (case hi => exact IoKept.refl _); (case ht => exact T1Kept.refl _)))
    | intro _
    | dsimp only
    | split
theorem State.setUnit_kept {ml : List StateField} {mz : State} {s : State} {slot u : Nat} {x : UnitX} (mhl : [.units, .contexts] ⊆ ml) (mh : Kept ml mz s) : Kept ml mz (State.setUnit s slot u x) :=
  Kept.after ((State.setUnit_frame s slot u x).mono mhl) mh

theorem State.saveUnit_frame (s : State) (slot u : Nat) : Kept [.t1, .units, .contexts] s (State.saveUnit s slot u) := by
  unfold State.saveUnit
  try dsimp only
  repeat' first
    | with_reducible exact Kept.refl _
    | ((with_reducible apply Laws.State.setUnit_kept); (case mhl => decide))
    | ((with_reducible apply Laws.State.writeT1_kept); (case mhl => decide))
    | with_reducible apply Kept.ite
    | intro _
    | dsimp only
    | split
theorem State.saveUnit_kept {ml : List StateField} {mz : State} {s : State} {slot u : Nat} (mhl : [.t1, .units, .contexts] ⊆ ml) (mh : Kept ml mz s) : Kept ml mz (State.saveUnit s slot u) :=
  Kept.after ((State.saveUnit_frame s slot u).mono mhl) mh

theorem State.restoreUnit_frame (s : State) (slot u : Nat) {v0 : State} (me : State.restoreUnit s slot u = .ok v0) : Kept [.units, .contexts] s v0 := by
  unfold State.restoreUnit at me
  dsimp only at me
  generalize State.readBlocks _ _ _ _ = r at me
  cases r with
  | error e => contradiction
  | ok b =>
    cases me
    exact State.setUnit_kept (by decide) (Kept.refl _)
theorem State.restoreUnit_kept {ml : List StateField} {mz : State} {s : State} {slot u : Nat} {v0 : State} (mhl : [.units, .contexts] ⊆ ml) (me : State.restoreUnit s slot u = .ok v0) (mh : Kept ml mz s) : Kept ml mz v0 :=
  Kept.after ((State.restoreUnit_frame s slot u me).mono mhl) mh

theorem State.setTally_frame (s : State) (n : Nat) (x : Tally) : Kept [.tallies] s (State.setTally s n x) := by
  unfold State.setTally
  try dsimp only
  repeat' first
    | with_reducible exact Kept.refl _
    | with_reducible apply Kept.ite
    | (fail_if_no_progress ((with_reducible apply Kept.upd); (case ho => (refine Only.of (fun p hp => ?_) rfl; cases p <;> first | rfl | (refine absurd ?_ hp; decide))); (case hi => exact IoKept.refl _); (case ht => exact T1Kept.refl _)))
    | intro _
    | dsimp only
    | split
theorem State.setTally_kept {ml : List StateField} {mz : State} {s : State} {n : Nat} {x : Tally} (mhl : [.tallies] ⊆ ml) (mh : Kept ml mz s) : Kept ml mz (State.setTally s n x) :=
  Kept.after ((State.setTally_frame s n x).mono mhl) mh

theorem State.retire_frame (s : State) (slot u pc : Nat) (x : UnitX) : Kept [.units, .contexts] s (State.retire s slot u pc x) := by
  unfold State.retire
  try dsimp only
  repeat' first
    | with_reducible exact Kept.refl _
    | ((with_reducible apply Laws.State.setContext_kept); (case mhl => decide))
    | ((with_reducible apply Laws.State.setUnit_kept); (case mhl => decide))
    | with_reducible apply Kept.ite
    | (fail_if_no_progress ((with_reducible apply Kept.upd); (case ho => (refine Only.of (fun p hp => ?_) rfl; cases p <;> first | rfl | (refine absurd ?_ hp; decide))); (case hi => exact IoKept.refl _); (case ht => exact T1Kept.refl _)))
    | intro _
    | dsimp only
    | split
theorem State.retire_kept {ml : List StateField} {mz : State} {s : State} {slot u pc : Nat} {x : UnitX} (mhl : [.units, .contexts] ⊆ ml) (mh : Kept ml mz s) : Kept ml mz (State.retire s slot u pc x) :=
  Kept.after ((State.retire_frame s slot u pc x).mono mhl) mh

theorem State.endWait_frame (s : State) (slot u status : Nat) : Kept [.units, .contexts] s (State.endWait s slot u status) := by
  unfold State.endWait
  try dsimp only
  repeat' first
    | with_reducible exact Kept.refl _
    | ((with_reducible apply Laws.State.retire_kept); (case mhl => decide))
    | with_reducible apply Kept.ite
    | (fail_if_no_progress ((with_reducible apply Kept.upd); (case ho => (refine Only.of (fun p hp => ?_) rfl; cases p <;> first | rfl | (refine absurd ?_ hp; decide))); (case hi => exact IoKept.refl _); (case ht => exact T1Kept.refl _)))
    | intro _
    | dsimp only
    | split
theorem State.endWait_kept {ml : List StateField} {mz : State} {s : State} {slot u status : Nat} (mhl : [.units, .contexts] ⊆ ml) (mh : Kept ml mz s) : Kept ml mz (State.endWait s slot u status) :=
  Kept.after ((State.endWait_frame s slot u status).mono mhl) mh

theorem State.serveTally_frame (s : State) (n : Nat) : Kept [.io, .units, .contexts, .tallies] s (State.serveTally s n) := by
  unfold State.serveTally
  try dsimp only
  repeat' first
    | with_reducible exact Kept.refl _
    | ((with_reducible apply Laws.State.bump_kept); (case mhl => decide))
    | ((with_reducible apply Laws.State.endWait_kept); (case mhl => decide))
    | ((with_reducible apply Laws.State.setTally_kept); (case mhl => decide))
    | with_reducible apply Kept.ite
    | with_reducible apply Kept.foldl
    | with_reducible apply Kept.foldlFst
    | with_reducible apply Kept.foldlSnd
    | (fail_if_no_progress ((with_reducible apply Kept.upd); (case ho => (refine Only.of (fun p hp => ?_) rfl; cases p <;> first | rfl | (refine absurd ?_ hp; decide))); (case hi => (repeat' first | with_reducible exact IoKept.refl _ | with_reducible apply Laws.Io.bump_kept | with_reducible apply IoKept.ite | with_reducible apply IoKept.foldl | with_reducible apply IoKept.put | with_reducible apply IoKept.filter | (fail_if_no_progress with_reducible apply IoKept.upd) | intro _ | dsimp only | split)); (case ht => exact T1Kept.refl _)))
    | intro _
    | dsimp only
    | split
theorem State.serveTally_kept {ml : List StateField} {mz : State} {s : State} {n : Nat} (mhl : [.io, .units, .contexts, .tallies] ⊆ ml) (mh : Kept ml mz s) : Kept ml mz (State.serveTally s n) :=
  Kept.after ((State.serveTally_frame s n).mono mhl) mh

theorem State.signal_frame (s : State) (n count : Nat) : Kept [.io, .units, .contexts, .tallies] s (State.signal s n count).2 := by
  unfold State.signal
  try dsimp only
  repeat' first
    | with_reducible exact Kept.refl _
    | ((with_reducible apply Laws.State.raise_kept); (case mhl => decide))
    | ((with_reducible apply Laws.State.serveTally_kept); (case mhl => decide))
    | ((with_reducible apply Laws.State.setTally_kept); (case mhl => decide))
    | with_reducible apply Kept.ite
    | (fail_if_no_progress ((with_reducible apply Kept.upd); (case ho => (refine Only.of (fun p hp => ?_) rfl; cases p <;> first | rfl | (refine absurd ?_ hp; decide))); (case hi => (repeat' first | with_reducible exact IoKept.refl _ | with_reducible apply Laws.Io.raise_kept | with_reducible apply IoKept.ite | with_reducible apply IoKept.foldl | with_reducible apply IoKept.put | with_reducible apply IoKept.filter | (fail_if_no_progress with_reducible apply IoKept.upd) | intro _ | dsimp only | split)); (case ht => exact T1Kept.refl _)))
    | intro _
    | dsimp only
    | split
theorem State.signal_kept {ml : List StateField} {mz : State} {s : State} {n count : Nat} (mhl : [.io, .units, .contexts, .tallies] ⊆ ml) (mh : Kept ml mz s) : Kept ml mz (State.signal s n count).2 :=
  Kept.after ((State.signal_frame s n count).mono mhl) mh
theorem State.signal_kept' {ml : List StateField} {mz : State} {s : State} {n count : Nat} {v0 : Nat} {v1 : State} (mhl : [.io, .units, .contexts, .tallies] ⊆ ml) (me : State.signal s n count = (v0, v1)) (mh : Kept ml mz s) : Kept ml mz v1 := by
  have mk := Kept.after ((State.signal_frame s n count).mono mhl) mh
  rw [me] at mk
  exact mk

theorem State.clearTally_frame (s : State) (n status : Nat) : Kept [.units, .contexts, .tallies] s (State.clearTally s n status) := by
  unfold State.clearTally
  try dsimp only
  repeat' first
    | with_reducible exact Kept.refl _
    | ((with_reducible apply Laws.State.endWait_kept); (case mhl => decide))
    | ((with_reducible apply Laws.State.setTally_kept); (case mhl => decide))
    | with_reducible apply Kept.ite
    | with_reducible apply Kept.foldl
    | with_reducible apply Kept.foldlFst
    | with_reducible apply Kept.foldlSnd
    | intro _
    | dsimp only
    | split
theorem State.clearTally_kept {ml : List StateField} {mz : State} {s : State} {n status : Nat} (mhl : [.units, .contexts, .tallies] ⊆ ml) (mh : Kept ml mz s) : Kept ml mz (State.clearTally s n status) :=
  Kept.after ((State.clearTally_frame s n status).mono mhl) mh

theorem State.cancelTally_frame (s : State) (n tenant : Nat) : Kept [.io, .units, .contexts, .tallies] s (State.cancelTally s n tenant) := by
  unfold State.cancelTally
  try dsimp only
  repeat' first
    | with_reducible exact Kept.refl _
    | ((with_reducible apply Laws.State.clearTally_kept); (case mhl => decide))
    | ((with_reducible apply Laws.State.raise_kept); (case mhl => decide))
    | with_reducible apply Kept.ite
    | intro _
    | dsimp only
    | split
theorem State.cancelTally_kept {ml : List StateField} {mz : State} {s : State} {n tenant : Nat} (mhl : [.io, .units, .contexts, .tallies] ⊆ ml) (mh : Kept ml mz s) : Kept ml mz (State.cancelTally s n tenant) :=
  Kept.after ((State.cancelTally_frame s n tenant).mono mhl) mh

theorem State.leaveTallies_frame (s : State) (slot : Nat) : Kept [.io, .units, .contexts, .tallies] s (State.leaveTallies s slot) := by
  unfold State.leaveTallies
  try dsimp only
  repeat' first
    | with_reducible exact Kept.refl _
    | ((with_reducible apply Laws.State.serveTally_kept); (case mhl => decide))
    | ((with_reducible apply Laws.State.setTally_kept); (case mhl => decide))
    | with_reducible apply Kept.ite
    | with_reducible apply Kept.foldl
    | with_reducible apply Kept.foldlFst
    | with_reducible apply Kept.foldlSnd
    | (fail_if_no_progress ((with_reducible apply Kept.upd); (case ho => (refine Only.of (fun p hp => ?_) rfl; cases p <;> first | rfl | (refine absurd ?_ hp; decide))); (case hi => (repeat' first | with_reducible exact IoKept.refl _ | with_reducible apply IoKept.ite | with_reducible apply IoKept.foldl | with_reducible apply IoKept.put | with_reducible apply IoKept.filter | (fail_if_no_progress with_reducible apply IoKept.upd) | intro _ | dsimp only | split)); (case ht => exact T1Kept.refl _)))
    | intro _
    | dsimp only
    | split
theorem State.leaveTallies_kept {ml : List StateField} {mz : State} {s : State} {slot : Nat} (mhl : [.io, .units, .contexts, .tallies] ⊆ ml) (mh : Kept ml mz s) : Kept ml mz (State.leaveTallies s slot) :=
  Kept.after ((State.leaveTallies_frame s slot).mono mhl) mh

theorem State.dropWaits_frame (s : State) (slot : Nat) : Kept [.io, .units, .contexts, .tallies, .net] s (State.dropWaits s slot) := by
  unfold State.dropWaits
  try dsimp only
  repeat' first
    | with_reducible exact Kept.refl _
    | ((with_reducible apply Laws.State.leaveTallies_kept); (case mhl => decide))
    | ((with_reducible apply Laws.State.setContext_kept); (case mhl => decide))
    | with_reducible apply Kept.ite
    | (fail_if_no_progress ((with_reducible apply Kept.upd); (case ho => (refine Only.of (fun p hp => ?_) rfl; cases p <;> first | rfl | (refine absurd ?_ hp; decide))); (case hi => (repeat' first | with_reducible exact IoKept.refl _ | with_reducible apply IoKept.ite | with_reducible apply IoKept.foldl | with_reducible apply IoKept.put | with_reducible apply IoKept.filter | (fail_if_no_progress with_reducible apply IoKept.upd) | intro _ | dsimp only | split)); (case ht => exact T1Kept.refl _)))
    | intro _
    | dsimp only
    | split
theorem State.dropWaits_kept {ml : List StateField} {mz : State} {s : State} {slot : Nat} (mhl : [.io, .units, .contexts, .tallies, .net] ⊆ ml) (mh : Kept ml mz s) : Kept ml mz (State.dropWaits s slot) :=
  Kept.after ((State.dropWaits_frame s slot).mono mhl) mh

theorem State.saveContext_frame (s : State) (slot : Nat) : Kept [.io, .t1, .units, .contexts, .tallies, .net] s (State.saveContext s slot) := by
  unfold State.saveContext
  try dsimp only
  repeat' first
    | with_reducible exact Kept.refl _
    | ((with_reducible apply Laws.State.dropWaits_kept); (case mhl => decide))
    | ((with_reducible apply Laws.State.saveUnit_kept); (case mhl => decide))
    | ((with_reducible apply Laws.State.setContext_kept); (case mhl => decide))
    | with_reducible apply Kept.ite
    | with_reducible apply Kept.foldl
    | with_reducible apply Kept.foldlFst
    | with_reducible apply Kept.foldlSnd
    | (fail_if_no_progress ((with_reducible apply Kept.upd); (case ho => (refine Only.of (fun p hp => ?_) rfl; cases p <;> first | rfl | (refine absurd ?_ hp; decide))); (case hi => (repeat' first | with_reducible exact IoKept.refl _ | with_reducible apply IoKept.ite | with_reducible apply IoKept.foldl | with_reducible apply IoKept.put | with_reducible apply IoKept.filter | (fail_if_no_progress with_reducible apply IoKept.upd) | intro _ | dsimp only | split)); (case ht => (repeat' first | with_reducible exact T1Kept.refl _ | with_reducible apply T1Kept.ite | with_reducible apply T1Kept.foldl | with_reducible apply T1Kept.put | with_reducible apply T1Kept.filter | (fail_if_no_progress with_reducible apply T1Kept.upd) | intro _ | dsimp only | split))))
    | intro _
    | dsimp only
    | split
theorem State.saveContext_kept {ml : List StateField} {mz : State} {s : State} {slot : Nat} (mhl : [.io, .t1, .units, .contexts, .tallies, .net] ⊆ ml) (mh : Kept ml mz s) : Kept ml mz (State.saveContext s slot) :=
  Kept.after ((State.saveContext_frame s slot).mono mhl) mh

theorem State.switchOut_frame (s : State) (slot : Nat) : Kept [.io, .t1, .units, .contexts, .tallies, .net] s (State.switchOut s slot) := by
  unfold State.switchOut
  try dsimp only
  repeat' first
    | with_reducible exact Kept.refl _
    | ((with_reducible apply Laws.State.saveContext_kept); (case mhl => decide))
    | ((with_reducible apply Laws.State.setContext_kept); (case mhl => decide))
    | with_reducible apply Kept.ite
    | (fail_if_no_progress ((with_reducible apply Kept.upd); (case ho => (refine Only.of (fun p hp => ?_) rfl; cases p <;> first | rfl | (refine absurd ?_ hp; decide))); (case hi => (repeat' first | with_reducible exact IoKept.refl _ | with_reducible apply IoKept.ite | with_reducible apply IoKept.foldl | with_reducible apply IoKept.put | with_reducible apply IoKept.filter | (fail_if_no_progress with_reducible apply IoKept.upd) | intro _ | dsimp only | split)); (case ht => (repeat' first | with_reducible exact T1Kept.refl _ | with_reducible apply T1Kept.ite | with_reducible apply T1Kept.foldl | with_reducible apply T1Kept.put | with_reducible apply T1Kept.filter | (fail_if_no_progress with_reducible apply T1Kept.upd) | intro _ | dsimp only | split))))
    | intro _
    | dsimp only
    | split
theorem State.switchOut_kept {ml : List StateField} {mz : State} {s : State} {slot : Nat} (mhl : [.io, .t1, .units, .contexts, .tallies, .net] ⊆ ml) (mh : Kept ml mz s) : Kept ml mz (State.switchOut s slot) :=
  Kept.after ((State.switchOut_frame s slot).mono mhl) mh

theorem State.abandonRound_frame (s : State) (slot : Nat) : Kept [.io, .t1, .shed, .stalls, .ops, .mirrors, .answers, .textCache, .rounds, .net] s (State.abandonRound s slot) := by
  unfold State.abandonRound
  try dsimp only
  repeat' first
    | with_reducible exact Kept.refl _
    | ((with_reducible apply Laws.State.abandonStep_kept); (case mhl => decide))
    | ((with_reducible apply Laws.State.raise_kept); (case mhl => decide))
    | with_reducible apply Kept.ite
    | with_reducible apply Kept.foldl
    | with_reducible apply Kept.foldlFst
    | with_reducible apply Kept.foldlSnd
    | (fail_if_no_progress ((with_reducible apply Kept.upd); (case ho => (refine Only.of (fun p hp => ?_) rfl; cases p <;> first | rfl | (refine absurd ?_ hp; decide))); (case hi => (repeat' first | with_reducible exact IoKept.refl _ | with_reducible apply Laws.Io.raise_kept | with_reducible apply IoKept.ite | with_reducible apply IoKept.foldl | with_reducible apply IoKept.put | with_reducible apply IoKept.filter | (fail_if_no_progress with_reducible apply IoKept.upd) | intro _ | dsimp only | split)); (case ht => (repeat' first | with_reducible exact T1Kept.refl _ | with_reducible apply T1Kept.ite | with_reducible apply T1Kept.foldl | with_reducible apply T1Kept.put | with_reducible apply T1Kept.filter | (fail_if_no_progress with_reducible apply T1Kept.upd) | intro _ | dsimp only | split))))
    | intro _
    | dsimp only
    | split
theorem State.abandonRound_kept {ml : List StateField} {mz : State} {s : State} {slot : Nat} (mhl : [.io, .t1, .shed, .stalls, .ops, .mirrors, .answers, .textCache, .rounds, .net] ⊆ ml) (mh : Kept ml mz s) : Kept ml mz (State.abandonRound s slot) :=
  Kept.after ((State.abandonRound_frame s slot).mono mhl) mh

theorem State.faultContext_frame (s : State) (slot u cause addr word : Nat) : Kept [.io, .t1, .shed, .stalls, .units, .ops, .mirrors, .contexts, .answers, .tallies, .textCache, .rounds, .net] s (State.faultContext s slot u cause addr word) := by
  unfold State.faultContext
  try dsimp only
  repeat' first
    | with_reducible exact Kept.refl _
    | ((with_reducible apply Laws.State.abandonRound_kept); (case mhl => decide))
    | ((with_reducible apply Laws.State.bump_kept); (case mhl => decide))
    | ((with_reducible apply Laws.State.complete_kept); (case mhl => decide))
    | ((with_reducible apply Laws.State.raise_kept); (case mhl => decide))
    | ((with_reducible apply Laws.State.saveContext_kept); (case mhl => decide))
    | ((with_reducible apply Laws.State.setContext_kept); (case mhl => decide))
    | with_reducible apply Kept.ite
    | (fail_if_no_progress ((with_reducible apply Kept.upd); (case ho => (refine Only.of (fun p hp => ?_) rfl; cases p <;> first | rfl | (refine absurd ?_ hp; decide))); (case hi => (repeat' first | with_reducible exact IoKept.refl _ | with_reducible apply Laws.Io.bump_kept | with_reducible apply Laws.Io.raise_kept | with_reducible apply IoKept.ite | with_reducible apply IoKept.foldl | with_reducible apply IoKept.put | with_reducible apply IoKept.filter | (fail_if_no_progress with_reducible apply IoKept.upd) | intro _ | dsimp only | split)); (case ht => (repeat' first | with_reducible exact T1Kept.refl _ | with_reducible apply T1Kept.ite | with_reducible apply T1Kept.foldl | with_reducible apply T1Kept.put | with_reducible apply T1Kept.filter | (fail_if_no_progress with_reducible apply T1Kept.upd) | intro _ | dsimp only | split))))
    | intro _
    | dsimp only
    | split
theorem State.faultContext_kept {ml : List StateField} {mz : State} {s : State} {slot u cause addr word : Nat} (mhl : [.io, .t1, .shed, .stalls, .units, .ops, .mirrors, .contexts, .answers, .tallies, .textCache, .rounds, .net] ⊆ ml) (mh : Kept ml mz s) : Kept ml mz (State.faultContext s slot u cause addr word) :=
  Kept.after ((State.faultContext_frame s slot u cause addr word).mono mhl) mh

theorem State.startContext_frame (s : State) (slot : Nat) : Kept [.units, .contexts] s (State.startContext s slot) := by
  unfold State.startContext
  try dsimp only
  repeat' first
    | with_reducible exact Kept.refl _
    | ((with_reducible apply Laws.State.setContext_kept); (case mhl => decide))
    | with_reducible apply Kept.ite
    | with_reducible apply Kept.foldl
    | with_reducible apply Kept.foldlFst
    | with_reducible apply Kept.foldlSnd
    | (fail_if_no_progress ((with_reducible apply Kept.upd); (case ho => (refine Only.of (fun p hp => ?_) rfl; cases p <;> first | rfl | (refine absurd ?_ hp; decide))); (case hi => exact IoKept.refl _); (case ht => exact T1Kept.refl _)))
    | intro _
    | dsimp only
    | split
theorem State.startContext_kept {ml : List StateField} {mz : State} {s : State} {slot : Nat} (mhl : [.units, .contexts] ⊆ ml) (mh : Kept ml mz s) : Kept ml mz (State.startContext s slot) :=
  Kept.after ((State.startContext_frame s slot).mono mhl) mh

theorem State.resumeContext_frame (s : State) (slot : Nat) : Kept [.io, .t1, .shed, .stalls, .units, .ops, .mirrors, .contexts, .answers, .tallies, .textCache, .rounds, .net] s (State.resumeContext s slot) := by
  unfold State.resumeContext
  try dsimp only
  repeat' first
    | with_reducible exact Kept.refl _
    | ((with_reducible apply Laws.State.faultContext_kept); (case mhl => decide))
    | ((with_reducible apply Laws.State.restoreUnit_kept ?mhl (by assumption)); (case mhl => decide))
    | ((with_reducible apply Laws.State.setContext_kept); (case mhl => decide))
    | with_reducible apply Kept.ite
    | with_reducible apply Kept.foldl
    | with_reducible apply Kept.foldlFst
    | with_reducible apply Kept.foldlSnd
    | (fail_if_no_progress ((with_reducible apply Kept.upd); (case ho => (refine Only.of (fun p hp => ?_) rfl; cases p <;> first | rfl | (refine absurd ?_ hp; decide))); (case hi => (repeat' first | with_reducible exact IoKept.refl _ | with_reducible apply IoKept.ite | with_reducible apply IoKept.foldl | with_reducible apply IoKept.put | with_reducible apply IoKept.filter | (fail_if_no_progress with_reducible apply IoKept.upd) | intro _ | dsimp only | split)); (case ht => (repeat' first | with_reducible exact T1Kept.refl _ | with_reducible apply T1Kept.ite | with_reducible apply T1Kept.foldl | with_reducible apply T1Kept.put | with_reducible apply T1Kept.filter | (fail_if_no_progress with_reducible apply T1Kept.upd) | intro _ | dsimp only | split))))
    | intro _
    | dsimp only
    | split
theorem State.resumeContext_kept {ml : List StateField} {mz : State} {s : State} {slot : Nat} (mhl : [.io, .t1, .shed, .stalls, .units, .ops, .mirrors, .contexts, .answers, .tallies, .textCache, .rounds, .net] ⊆ ml) (mh : Kept ml mz s) : Kept ml mz (State.resumeContext s slot) :=
  Kept.after ((State.resumeContext_frame s slot).mono mhl) mh

theorem State.takeCells_frame (s : State) (slot : Nat) : Kept [.io, .t1, .shed, .stalls, .units, .ops, .mirrors, .contexts, .answers, .tallies, .textCache, .rounds, .net] s (State.takeCells s slot) := by
  unfold State.takeCells
  try dsimp only
  repeat' first
    | with_reducible exact Kept.refl _
    | ((with_reducible apply Laws.State.resumeContext_kept); (case mhl => decide))
    | ((with_reducible apply Laws.State.setContext_kept); (case mhl => decide))
    | ((with_reducible apply Laws.State.startContext_kept); (case mhl => decide))
    | with_reducible apply Kept.ite
    | (fail_if_no_progress ((with_reducible apply Kept.upd); (case ho => (refine Only.of (fun p hp => ?_) rfl; cases p <;> first | rfl | (refine absurd ?_ hp; decide))); (case hi => (repeat' first | with_reducible exact IoKept.refl _ | with_reducible apply IoKept.ite | with_reducible apply IoKept.foldl | with_reducible apply IoKept.put | with_reducible apply IoKept.filter | (fail_if_no_progress with_reducible apply IoKept.upd) | intro _ | dsimp only | split)); (case ht => (repeat' first | with_reducible exact T1Kept.refl _ | with_reducible apply T1Kept.ite | with_reducible apply T1Kept.foldl | with_reducible apply T1Kept.put | with_reducible apply T1Kept.filter | (fail_if_no_progress with_reducible apply T1Kept.upd) | intro _ | dsimp only | split))))
    | intro _
    | dsimp only
    | split
theorem State.takeCells_kept {ml : List StateField} {mz : State} {s : State} {slot : Nat} (mhl : [.io, .t1, .shed, .stalls, .units, .ops, .mirrors, .contexts, .answers, .tallies, .textCache, .rounds, .net] ⊆ ml) (mh : Kept ml mz s) : Kept ml mz (State.takeCells s slot) :=
  Kept.after ((State.takeCells_frame s slot).mono mhl) mh

theorem State.cellsFreed_frame (s : State) (p tenant : Nat) : Kept [.io, .t1, .shed, .stalls, .units, .ops, .mirrors, .contexts, .answers, .tallies, .textCache, .rounds, .parts, .net] s (State.cellsFreed s p tenant) := by
  unfold State.cellsFreed
  try dsimp only
  repeat' first
    | with_reducible exact Kept.refl _
    | ((with_reducible apply Laws.State.takeCells_kept); (case mhl => decide))
    | with_reducible apply Kept.ite
    | (fail_if_no_progress ((with_reducible apply Kept.upd); (case ho => (refine Only.of (fun p hp => ?_) rfl; cases p <;> first | rfl | (refine absurd ?_ hp; decide))); (case hi => (repeat' first | with_reducible exact IoKept.refl _ | with_reducible apply IoKept.ite | with_reducible apply IoKept.foldl | with_reducible apply IoKept.put | with_reducible apply IoKept.filter | (fail_if_no_progress with_reducible apply IoKept.upd) | intro _ | dsimp only | split)); (case ht => (repeat' first | with_reducible exact T1Kept.refl _ | with_reducible apply T1Kept.ite | with_reducible apply T1Kept.foldl | with_reducible apply T1Kept.put | with_reducible apply T1Kept.filter | (fail_if_no_progress with_reducible apply T1Kept.upd) | intro _ | dsimp only | split))))
    | intro _
    | dsimp only
    | split
theorem State.cellsFreed_kept {ml : List StateField} {mz : State} {s : State} {p tenant : Nat} (mhl : [.io, .t1, .shed, .stalls, .units, .ops, .mirrors, .contexts, .answers, .tallies, .textCache, .rounds, .parts, .net] ⊆ ml) (mh : Kept ml mz s) : Kept ml mz (State.cellsFreed s p tenant) :=
  Kept.after ((State.cellsFreed_frame s p tenant).mono mhl) mh

theorem State.haltContext_frame (s : State) (slot code : Nat) : Kept [.io, .t1, .shed, .stalls, .units, .ops, .mirrors, .contexts, .answers, .tallies, .textCache, .rounds, .parts, .net] s (State.haltContext s slot code) := by
  unfold State.haltContext
  try dsimp only
  repeat' first
    | with_reducible exact Kept.refl _
    | ((with_reducible apply Laws.State.cellsFreed_kept); (case mhl => decide))
    | ((with_reducible apply Laws.State.complete_kept); (case mhl => decide))
    | ((with_reducible apply Laws.State.raise_kept); (case mhl => decide))
    | ((with_reducible apply Laws.State.saveContext_kept); (case mhl => decide))
    | ((with_reducible apply Laws.State.setContext_kept); (case mhl => decide))
    | with_reducible apply Kept.ite
    | (fail_if_no_progress ((with_reducible apply Kept.upd); (case ho => (refine Only.of (fun p hp => ?_) rfl; cases p <;> first | rfl | (refine absurd ?_ hp; decide))); (case hi => (repeat' first | with_reducible exact IoKept.refl _ | with_reducible apply Laws.Io.raise_kept | with_reducible apply IoKept.ite | with_reducible apply IoKept.foldl | with_reducible apply IoKept.put | with_reducible apply IoKept.filter | (fail_if_no_progress with_reducible apply IoKept.upd) | intro _ | dsimp only | split)); (case ht => (repeat' first | with_reducible exact T1Kept.refl _ | with_reducible apply T1Kept.ite | with_reducible apply T1Kept.foldl | with_reducible apply T1Kept.put | with_reducible apply T1Kept.filter | (fail_if_no_progress with_reducible apply T1Kept.upd) | intro _ | dsimp only | split))))
    | intro _
    | dsimp only
    | split
theorem State.haltContext_kept {ml : List StateField} {mz : State} {s : State} {slot code : Nat} (mhl : [.io, .t1, .shed, .stalls, .units, .ops, .mirrors, .contexts, .answers, .tallies, .textCache, .rounds, .parts, .net] ⊆ ml) (mh : Kept ml mz s) : Kept ml mz (State.haltContext s slot code) :=
  Kept.after ((State.haltContext_frame s slot code).mono mhl) mh

theorem State.haltUnit_frame (s : State) (slot u code : Nat) : Kept [.io, .t1, .shed, .stalls, .units, .ops, .mirrors, .contexts, .answers, .tallies, .textCache, .rounds, .parts, .net] s (State.haltUnit s slot u code) := by
  unfold State.haltUnit
  try dsimp only
  repeat' first
    | with_reducible exact Kept.refl _
    | ((with_reducible apply Laws.State.haltContext_kept); (case mhl => decide))
    | ((with_reducible apply Laws.State.setUnit_kept); (case mhl => decide))
    | with_reducible apply Kept.ite
    | with_reducible apply Kept.getD
    | (fail_if_no_progress ((with_reducible apply Kept.upd); (case ho => (refine Only.of (fun p hp => ?_) rfl; cases p <;> first | rfl | (refine absurd ?_ hp; decide))); (case hi => (repeat' first | with_reducible exact IoKept.refl _ | with_reducible apply IoKept.ite | with_reducible apply IoKept.foldl | with_reducible apply IoKept.put | with_reducible apply IoKept.filter | (fail_if_no_progress with_reducible apply IoKept.upd) | intro _ | dsimp only | split)); (case ht => (repeat' first | with_reducible exact T1Kept.refl _ | with_reducible apply T1Kept.ite | with_reducible apply T1Kept.foldl | with_reducible apply T1Kept.put | with_reducible apply T1Kept.filter | (fail_if_no_progress with_reducible apply T1Kept.upd) | intro _ | dsimp only | split))))
    | intro _
    | dsimp only
    | split
theorem State.haltUnit_kept {ml : List StateField} {mz : State} {s : State} {slot u code : Nat} (mhl : [.io, .t1, .shed, .stalls, .units, .ops, .mirrors, .contexts, .answers, .tallies, .textCache, .rounds, .parts, .net] ⊆ ml) (mh : Kept ml mz s) : Kept ml mz (State.haltUnit s slot u code) :=
  Kept.after ((State.haltUnit_frame s slot u code).mono mhl) mh

theorem State.stopContext_frame (s : State) (slot : Nat) : Kept [.io, .t1, .units, .contexts, .answers, .tallies, .net] s (State.stopContext s slot) := by
  unfold State.stopContext
  try dsimp only
  repeat' first
    | with_reducible exact Kept.refl _
    | ((with_reducible apply Laws.State.complete_kept); (case mhl => decide))
    | ((with_reducible apply Laws.State.raise_kept); (case mhl => decide))
    | ((with_reducible apply Laws.State.saveContext_kept); (case mhl => decide))
    | ((with_reducible apply Laws.State.setContext_kept); (case mhl => decide))
    | with_reducible apply Kept.ite
    | (fail_if_no_progress ((with_reducible apply Kept.upd); (case ho => (refine Only.of (fun p hp => ?_) rfl; cases p <;> first | rfl | (refine absurd ?_ hp; decide))); (case hi => (repeat' first | with_reducible exact IoKept.refl _ | with_reducible apply Laws.Io.raise_kept | with_reducible apply IoKept.ite | with_reducible apply IoKept.foldl | with_reducible apply IoKept.put | with_reducible apply IoKept.filter | (fail_if_no_progress with_reducible apply IoKept.upd) | intro _ | dsimp only | split)); (case ht => (repeat' first | with_reducible exact T1Kept.refl _ | with_reducible apply T1Kept.ite | with_reducible apply T1Kept.foldl | with_reducible apply T1Kept.put | with_reducible apply T1Kept.filter | (fail_if_no_progress with_reducible apply T1Kept.upd) | intro _ | dsimp only | split))))
    | intro _
    | dsimp only
    | split
theorem State.stopContext_kept {ml : List StateField} {mz : State} {s : State} {slot : Nat} (mhl : [.io, .t1, .units, .contexts, .answers, .tallies, .net] ⊆ ml) (mh : Kept ml mz s) : Kept ml mz (State.stopContext s slot) :=
  Kept.after ((State.stopContext_frame s slot).mono mhl) mh

theorem State.freeContext_frame (s : State) (slot : Nat) : Kept [.t1, .contexts, .windows, .aisle] s (State.freeContext s slot) := by
  unfold State.freeContext
  try dsimp only
  repeat' first
    | with_reducible exact Kept.refl _
    | ((with_reducible apply Laws.State.quarantineOwned_kept); (case mhl => decide))
    | ((with_reducible apply Laws.State.quarantine_kept); (case mhl => decide))
    | ((with_reducible apply Laws.State.setContext_kept); (case mhl => decide))
    | with_reducible apply Kept.ite
    | (fail_if_no_progress ((with_reducible apply Kept.upd); (case ho => (refine Only.of (fun p hp => ?_) rfl; cases p <;> first | rfl | (refine absurd ?_ hp; decide))); (case hi => exact IoKept.refl _); (case ht => (repeat' first | with_reducible exact T1Kept.refl _ | with_reducible apply T1Kept.ite | with_reducible apply T1Kept.foldl | with_reducible apply T1Kept.put | with_reducible apply T1Kept.filter | (fail_if_no_progress with_reducible apply T1Kept.upd) | intro _ | dsimp only | split))))
    | intro _
    | dsimp only
    | split
theorem State.freeContext_kept {ml : List StateField} {mz : State} {s : State} {slot : Nat} (mhl : [.t1, .contexts, .windows, .aisle] ⊆ ml) (mh : Kept ml mz s) : Kept ml mz (State.freeContext s slot) :=
  Kept.after ((State.freeContext_frame s slot).mono mhl) mh

theorem State.faultOnCells_frame (s : State) (lost : Nat → Bool) : Kept [.io, .t1, .shed, .stalls, .units, .ops, .mirrors, .contexts, .answers, .tallies, .textCache, .rounds, .net] s (State.faultOnCells s lost) := by
  unfold State.faultOnCells
  try dsimp only
  repeat' first
    | with_reducible exact Kept.refl _
    | ((with_reducible apply Laws.State.faultContext_kept); (case mhl => decide))
    | ((with_reducible apply Laws.State.setContext_kept); (case mhl => decide))
    | with_reducible apply Kept.ite
    | with_reducible apply Kept.foldl
    | with_reducible apply Kept.foldlFst
    | with_reducible apply Kept.foldlSnd
    | (fail_if_no_progress ((with_reducible apply Kept.upd); (case ho => (refine Only.of (fun p hp => ?_) rfl; cases p <;> first | rfl | (refine absurd ?_ hp; decide))); (case hi => (repeat' first | with_reducible exact IoKept.refl _ | with_reducible apply IoKept.ite | with_reducible apply IoKept.foldl | with_reducible apply IoKept.put | with_reducible apply IoKept.filter | (fail_if_no_progress with_reducible apply IoKept.upd) | intro _ | dsimp only | split)); (case ht => (repeat' first | with_reducible exact T1Kept.refl _ | with_reducible apply T1Kept.ite | with_reducible apply T1Kept.foldl | with_reducible apply T1Kept.put | with_reducible apply T1Kept.filter | (fail_if_no_progress with_reducible apply T1Kept.upd) | intro _ | dsimp only | split))))
    | intro _
    | dsimp only
    | split
theorem State.faultOnCells_kept {ml : List StateField} {mz : State} {s : State} {lost : Nat → Bool} (mhl : [.io, .t1, .shed, .stalls, .units, .ops, .mirrors, .contexts, .answers, .tallies, .textCache, .rounds, .net] ⊆ ml) (mh : Kept ml mz s) : Kept ml mz (State.faultOnCells s lost) :=
  Kept.after ((State.faultOnCells_frame s lost).mono mhl) mh

end Sys2Proof.Laws
end

