-- ==== Sys2Proof/Laws/KeptRepairOps.lean ====
section
/-! SUPPORT. The frame lemma of every operation of Machine/RepairOps.lean: which fields of the state it may change, and that it keeps the canonical
forms. -/

set_option Elab.async false
set_option linter.unusedTactic false
set_option linter.unreachableTactic false
set_option linter.unusedVariables false

namespace Sys2Proof.Laws

open Sys2Proof Sys2Proof.Machine Sys2Proof.Safety

theorem State.updUnits_frame (s : State) (f : Units → Units) : Kept [.units] s (State.updUnits s f) := by
  unfold State.updUnits
  try dsimp only
  repeat' first
    | with_reducible exact Kept.refl _
    | with_reducible apply Kept.ite
    | (fail_if_no_progress ((with_reducible apply Kept.upd); (case ho => (refine Only.of (fun p hp => ?_) rfl; cases p <;> first | rfl | (refine absurd ?_ hp; decide))); (case hi => exact IoKept.refl _); (case ht => exact T1Kept.refl _)))
    | intro _
    | dsimp only
    | split
theorem State.updUnits_kept {ml : List StateField} {mz : State} {s : State} {f : Units → Units} (mhl : [.units] ⊆ ml) (mh : Kept ml mz s) : Kept ml mz (State.updUnits s f) :=
  Kept.after ((State.updUnits_frame s f).mono mhl) mh

theorem State.beginCheckpoint_frame (s : State) (op slot step : Nat) : Kept [.io, .yt, .ops, .cp] s (State.beginCheckpoint s op slot step) := by
  unfold State.beginCheckpoint
  try dsimp only
  repeat' first
    | with_reducible exact Kept.refl _
    | ((with_reducible apply Laws.State.put_kept); (case mhl => decide))
    | ((with_reducible apply Laws.State.setOp_kept); (case mhl => decide))
    | with_reducible apply Kept.ite
    | (fail_if_no_progress ((with_reducible apply Kept.upd); (case ho => (refine Only.of (fun p hp => ?_) rfl; cases p <;> first | rfl | (refine absurd ?_ hp; decide))); (case hi => (repeat' first | with_reducible exact IoKept.refl _ | with_reducible apply Laws.Io.put_kept | with_reducible apply IoKept.ite | with_reducible apply IoKept.foldl | with_reducible apply IoKept.put | with_reducible apply IoKept.filter | (fail_if_no_progress with_reducible apply IoKept.upd) | intro _ | dsimp only | split)); (case ht => exact T1Kept.refl _)))
    | intro _
    | dsimp only
    | split
theorem State.beginCheckpoint_kept {ml : List StateField} {mz : State} {s : State} {op slot step : Nat} (mhl : [.io, .yt, .ops, .cp] ⊆ ml) (mh : Kept ml mz s) : Kept ml mz (State.beginCheckpoint s op slot step) :=
  Kept.after ((State.beginCheckpoint_frame s op slot step).mono mhl) mh

theorem State.endFreeze_frame (s : State) : Kept [.io, .t1, .shed, .stalls, .units, .ops, .mirrors, .cp, .contexts, .answers, .tallies, .textCache, .rounds, .net] s (State.endFreeze s) := by
  unfold State.endFreeze
  try dsimp only
  repeat' first
    | with_reducible exact Kept.refl _
    | ((with_reducible apply Laws.State.put_kept); (case mhl => decide))
    | ((with_reducible apply Laws.State.resumeContext_kept); (case mhl => decide))
    | with_reducible apply Kept.ite
    | with_reducible apply Kept.foldl
    | with_reducible apply Kept.foldlFst
    | with_reducible apply Kept.foldlSnd
    | (fail_if_no_progress ((with_reducible apply Kept.upd); (case ho => (refine Only.of (fun p hp => ?_) rfl; cases p <;> first | rfl | (refine absurd ?_ hp; decide))); (case hi => (repeat' first | with_reducible exact IoKept.refl _ | with_reducible apply Laws.Io.put_kept | with_reducible apply IoKept.ite | with_reducible apply IoKept.foldl | with_reducible apply IoKept.put | with_reducible apply IoKept.filter | (fail_if_no_progress with_reducible apply IoKept.upd) | intro _ | dsimp only | split)); (case ht => (repeat' first | with_reducible exact T1Kept.refl _ | with_reducible apply T1Kept.ite | with_reducible apply T1Kept.foldl | with_reducible apply T1Kept.put | with_reducible apply T1Kept.filter | (fail_if_no_progress with_reducible apply T1Kept.upd) | intro _ | dsimp only | split))))
    | intro _
    | dsimp only
    | split
theorem State.endFreeze_kept {ml : List StateField} {mz : State} {s : State} (mhl : [.io, .t1, .shed, .stalls, .units, .ops, .mirrors, .cp, .contexts, .answers, .tallies, .textCache, .rounds, .net] ⊆ ml) (mh : Kept ml mz s) : Kept ml mz (State.endFreeze s) :=
  Kept.after ((State.endFreeze_frame s).mono mhl) mh

theorem State.clearSlot_frame (s : State) (k : Nat) : Kept [.io, .cpSlots] s (State.clearSlot s k) := by
  unfold State.clearSlot
  try dsimp only
  repeat' first
    | with_reducible exact Kept.refl _
    | ((with_reducible apply Laws.State.put_kept); (case mhl => decide))
    | with_reducible apply Kept.ite
    | (fail_if_no_progress ((with_reducible apply Kept.upd); (case ho => (refine Only.of (fun p hp => ?_) rfl; cases p <;> first | rfl | (refine absurd ?_ hp; decide))); (case hi => (repeat' first | with_reducible exact IoKept.refl _ | with_reducible apply Laws.Io.put_kept | with_reducible apply IoKept.ite | with_reducible apply IoKept.foldl | with_reducible apply IoKept.put | with_reducible apply IoKept.filter | (fail_if_no_progress with_reducible apply IoKept.upd) | intro _ | dsimp only | split)); (case ht => exact T1Kept.refl _)))
    | intro _
    | dsimp only
    | split
theorem State.clearSlot_kept {ml : List StateField} {mz : State} {s : State} {k : Nat} (mhl : [.io, .cpSlots] ⊆ ml) (mh : Kept ml mz s) : Kept ml mz (State.clearSlot s k) :=
  Kept.after ((State.clearSlot_frame s k).mono mhl) mh

theorem State.haltCheckpoint_frame (s : State) : Kept [.io, .t1, .shed, .stalls, .units, .ops, .mirrors, .cp, .cpSlots, .contexts, .answers, .tallies, .textCache, .rounds, .net] s (State.haltCheckpoint s) := by
  unfold State.haltCheckpoint
  try dsimp only
  repeat' first
    | with_reducible exact Kept.refl _
    | ((with_reducible apply Laws.State.clearSlot_kept); (case mhl => decide))
    | ((with_reducible apply Laws.State.endFreeze_kept); (case mhl => decide))
    | with_reducible apply Kept.ite
    | intro _
    | dsimp only
    | split
theorem State.haltCheckpoint_kept {ml : List StateField} {mz : State} {s : State} (mhl : [.io, .t1, .shed, .stalls, .units, .ops, .mirrors, .cp, .cpSlots, .contexts, .answers, .tallies, .textCache, .rounds, .net] ⊆ ml) (mh : Kept ml mz s) : Kept ml mz (State.haltCheckpoint s) :=
  Kept.after ((State.haltCheckpoint_frame s).mono mhl) mh

theorem State.triggerCheckpoint_frame (s : State) : Kept [.io, .yt, .ops, .cp] s (State.triggerCheckpoint s) := by
  unfold State.triggerCheckpoint
  try dsimp only
  repeat' first
    | with_reducible exact Kept.refl _
    | ((with_reducible apply Laws.State.beginCheckpoint_kept); (case mhl => decide))
    | ((with_reducible apply Laws.State.bump_kept); (case mhl => decide))
    | ((with_reducible apply Laws.State.moveOp_kept); (case mhl => decide))
    | ((with_reducible apply Laws.State.newOpFor_kept ?mhl (by assumption)); (case mhl => decide))
    | ((with_reducible apply Laws.State.raise_kept); (case mhl => decide))
    | with_reducible apply Kept.ite
    | (fail_if_no_progress ((with_reducible apply Kept.upd); (case ho => (refine Only.of (fun p hp => ?_) rfl; cases p <;> first | rfl | (refine absurd ?_ hp; decide))); (case hi => (repeat' first | with_reducible exact IoKept.refl _ | with_reducible apply Laws.Io.bump_kept | with_reducible apply Laws.Io.raise_kept | with_reducible apply IoKept.ite | with_reducible apply IoKept.foldl | with_reducible apply IoKept.put | with_reducible apply IoKept.filter | (fail_if_no_progress with_reducible apply IoKept.upd) | intro _ | dsimp only | split)); (case ht => exact T1Kept.refl _)))
    | intro _
    | dsimp only
    | split
theorem State.triggerCheckpoint_kept {ml : List StateField} {mz : State} {s : State} (mhl : [.io, .yt, .ops, .cp] ⊆ ml) (mh : Kept ml mz s) : Kept ml mz (State.triggerCheckpoint s) :=
  Kept.after ((State.triggerCheckpoint_frame s).mono mhl) mh

theorem State.cpTrigger_frame (s : State) (bit : RegField) : Kept [.io, .yt, .ops, .cp] s (State.cpTrigger s bit) := by
  unfold State.cpTrigger
  try dsimp only
  repeat' first
    | with_reducible exact Kept.refl _
    | ((with_reducible apply Laws.State.triggerCheckpoint_kept); (case mhl => decide))
    | with_reducible apply Kept.ite
    | intro _
    | dsimp only
    | split
theorem State.cpTrigger_kept {ml : List StateField} {mz : State} {s : State} {bit : RegField} (mhl : [.io, .yt, .ops, .cp] ⊆ ml) (mh : Kept ml mz s) : Kept ml mz (State.cpTrigger s bit) :=
  Kept.after ((State.cpTrigger_frame s bit).mono mhl) mh

theorem State.dropCheckpoint_frame (s : State) (st : OpState) (status : Nat) : Kept [.io, .t1, .shed, .stalls, .units, .ops, .mirrors, .cp, .cpSlots, .contexts, .answers, .tallies, .textCache, .rounds, .net] s (State.dropCheckpoint s st status) := by
  unfold State.dropCheckpoint
  try dsimp only
  repeat' first
    | with_reducible exact Kept.refl _
    | ((with_reducible apply Laws.State.endOp_kept); (case mhl => decide))
    | ((with_reducible apply Laws.State.haltCheckpoint_kept); (case mhl => decide))
    | ((with_reducible apply Laws.State.raise_kept); (case mhl => decide))
    | with_reducible apply Kept.ite
    | (fail_if_no_progress ((with_reducible apply Kept.upd); (case ho => (refine Only.of (fun p hp => ?_) rfl; cases p <;> first | rfl | (refine absurd ?_ hp; decide))); (case hi => (repeat' first | with_reducible exact IoKept.refl _ | with_reducible apply Laws.Io.raise_kept | with_reducible apply IoKept.ite | with_reducible apply IoKept.foldl | with_reducible apply IoKept.put | with_reducible apply IoKept.filter | (fail_if_no_progress with_reducible apply IoKept.upd) | intro _ | dsimp only | split)); (case ht => (repeat' first | with_reducible exact T1Kept.refl _ | with_reducible apply T1Kept.ite | with_reducible apply T1Kept.foldl | with_reducible apply T1Kept.put | with_reducible apply T1Kept.filter | (fail_if_no_progress with_reducible apply T1Kept.upd) | intro _ | dsimp only | split))))
    | intro _
    | dsimp only
    | split
theorem State.dropCheckpoint_kept {ml : List StateField} {mz : State} {s : State} {st : OpState} {status : Nat} (mhl : [.io, .t1, .shed, .stalls, .units, .ops, .mirrors, .cp, .cpSlots, .contexts, .answers, .tallies, .textCache, .rounds, .net] ⊆ ml) (mh : Kept ml mz s) : Kept ml mz (State.dropCheckpoint s st status) :=
  Kept.after ((State.dropCheckpoint_frame s st status).mono mhl) mh

theorem State.setRedirects_frame (s : State) (l : List (Nat × Nat × Nat)) : Kept [.redirects] s (State.setRedirects s l) := by
  unfold State.setRedirects
  try dsimp only
  repeat' first
    | with_reducible exact Kept.refl _
    | with_reducible apply Kept.ite
    | (fail_if_no_progress ((with_reducible apply Kept.upd); (case ho => (refine Only.of (fun p hp => ?_) rfl; cases p <;> first | rfl | (refine absurd ?_ hp; decide))); (case hi => exact IoKept.refl _); (case ht => exact T1Kept.refl _)))
    | intro _
    | dsimp only
    | split
theorem State.setRedirects_kept {ml : List StateField} {mz : State} {s : State} {l : List (Nat × Nat × Nat)} (mhl : [.redirects] ⊆ ml) (mh : Kept ml mz s) : Kept ml mz (State.setRedirects s l) :=
  Kept.after ((State.setRedirects_frame s l).mono mhl) mh

theorem State.loseMirror_frame (s : State) (lost : Nat → Nat → Bool) (m : Mirror) : Kept [.io, .mirrors, .redirects, .answers] s (State.loseMirror s lost m) := by
  unfold State.loseMirror
  try dsimp only
  repeat' first
    | with_reducible exact Kept.refl _
    | ((with_reducible apply Laws.State.complete_kept); (case mhl => decide))
    | ((with_reducible apply Laws.State.raise_kept); (case mhl => decide))
    | ((with_reducible apply Laws.State.setMirrors_kept); (case mhl => decide))
    | ((with_reducible apply Laws.State.setRedirects_kept); (case mhl => decide))
    | ((with_reducible apply Kept.iteL); case k => ((repeat' first | with_reducible exact Kept.refl _ | ((with_reducible apply Laws.State.complete_kept); (case mhl => decide)) | ((with_reducible apply Laws.State.raise_kept); (case mhl => decide)) | ((with_reducible apply Laws.State.setMirrors_kept); (case mhl => decide)) | ((with_reducible apply Laws.State.setRedirects_kept); (case mhl => decide)) | with_reducible apply Kept.ite | (fail_if_no_progress ((with_reducible apply Kept.upd); (case ho => (refine Only.of (fun p hp => ?_) rfl; cases p <;> first | rfl | (refine absurd ?_ hp; decide))); (case hi => (repeat' first | with_reducible exact IoKept.refl _ | with_reducible apply Laws.Io.raise_kept | with_reducible apply IoKept.ite | with_reducible apply IoKept.foldl | with_reducible apply IoKept.put | with_reducible apply IoKept.filter | (fail_if_no_progress with_reducible apply IoKept.upd) | intro _ | dsimp only | split)); (case ht => exact T1Kept.refl _))) | intro _ | dsimp only | split); done))
    | ((with_reducible apply Kept.iteR); case k => ((repeat' first | with_reducible exact Kept.refl _ | ((with_reducible apply Laws.State.complete_kept); (case mhl => decide)) | ((with_reducible apply Laws.State.raise_kept); (case mhl => decide)) | ((with_reducible apply Laws.State.setMirrors_kept); (case mhl => decide)) | ((with_reducible apply Laws.State.setRedirects_kept); (case mhl => decide)) | with_reducible apply Kept.ite | (fail_if_no_progress ((with_reducible apply Kept.upd); (case ho => (refine Only.of (fun p hp => ?_) rfl; cases p <;> first | rfl | (refine absurd ?_ hp; decide))); (case hi => (repeat' first | with_reducible exact IoKept.refl _ | with_reducible apply Laws.Io.raise_kept | with_reducible apply IoKept.ite | with_reducible apply IoKept.foldl | with_reducible apply IoKept.put | with_reducible apply IoKept.filter | (fail_if_no_progress with_reducible apply IoKept.upd) | intro _ | dsimp only | split)); (case ht => exact T1Kept.refl _))) | intro _ | dsimp only | split); done))
    | with_reducible apply Kept.ite
    | (fail_if_no_progress ((with_reducible apply Kept.upd); (case ho => (refine Only.of (fun p hp => ?_) rfl; cases p <;> first | rfl | (refine absurd ?_ hp; decide))); (case hi => (repeat' first | with_reducible exact IoKept.refl _ | with_reducible apply Laws.Io.raise_kept | with_reducible apply IoKept.ite | with_reducible apply IoKept.foldl | with_reducible apply IoKept.put | with_reducible apply IoKept.filter | (fail_if_no_progress with_reducible apply IoKept.upd) | intro _ | dsimp only | split)); (case ht => exact T1Kept.refl _)))
    | intro _
    | dsimp only
    | split
theorem State.loseMirror_kept {ml : List StateField} {mz : State} {s : State} {lost : Nat → Nat → Bool} {m : Mirror} (mhl : [.io, .mirrors, .redirects, .answers] ⊆ ml) (mh : Kept ml mz s) : Kept ml mz (State.loseMirror s lost m) :=
  Kept.after ((State.loseMirror_frame s lost m).mono mhl) mh

theorem State.loseMirrors_frame (s : State) (lost : Nat → Nat → Bool) : Kept [.io, .mirrors, .redirects, .answers] s (State.loseMirrors s lost) := by
  unfold State.loseMirrors
  try dsimp only
  repeat' first
    | with_reducible exact Kept.refl _
    | ((with_reducible apply Laws.State.loseMirror_kept); (case mhl => decide))
    | with_reducible apply Kept.ite
    | with_reducible apply Kept.foldl
    | with_reducible apply Kept.foldlFst
    | with_reducible apply Kept.foldlSnd
    | intro _
    | dsimp only
    | split
theorem State.loseMirrors_kept {ml : List StateField} {mz : State} {s : State} {lost : Nat → Nat → Bool} (mhl : [.io, .mirrors, .redirects, .answers] ⊆ ml) (mh : Kept ml mz s) : Kept ml mz (State.loseMirrors s lost) :=
  Kept.after ((State.loseMirrors_frame s lost).mono mhl) mh

theorem State.stopFor_kept {ml : List StateField} {mz : State} {s : State} {i : Nat} {f : State → State} (mhl : [.io, .t1, .shed, .stalls, .ops, .mirrors, .answers, .textCache, .net] ⊆ ml) (hf : ∀ a0, Kept ml a0 (f a0)) (mh : Kept ml mz s) : Kept ml mz (State.stopFor s i f) := by
  refine Kept.after ?_ mh
  unfold State.stopFor
  try dsimp only
  repeat' first
    | with_reducible exact Kept.refl _
    | (with_reducible apply Kept.after (hf _))
    | ((with_reducible apply Laws.State.applyDeferred_kept); (case mhl => first | decide | (refine sub mhl ?_; decide)))
    | ((with_reducible apply Laws.State.stopStep_kept); (case mhl => first | decide | (refine sub mhl ?_; decide)))
    | with_reducible apply Kept.ite
    | intro _
    | dsimp only
    | split

theorem State.recoverStall_frame (s : State) (i : Nat) : Kept [.io, .t1, .shed, .stalls, .ops, .mirrors, .answers, .textCache, .net] s (State.recoverStall s i) := by
  unfold State.recoverStall
  try dsimp only
  repeat' first
    | with_reducible exact Kept.refl _
    | ((with_reducible apply Laws.State.rebuildTable_kept); (case mhl => decide))
    | ((with_reducible apply Laws.State.stopFor_kept); (case mhl => decide))
    | with_reducible apply Kept.ite
    | intro _
    | dsimp only
    | split
theorem State.recoverStall_kept {ml : List StateField} {mz : State} {s : State} {i : Nat} (mhl : [.io, .t1, .shed, .stalls, .ops, .mirrors, .answers, .textCache, .net] ⊆ ml) (mh : Kept ml mz s) : Kept ml mz (State.recoverStall s i) :=
  Kept.after ((State.recoverStall_frame s i).mono mhl) mh

theorem State.recoverStalls_frame (s : State) (p : Nat → Bool) : Kept [.io, .t1, .shed, .stalls, .ops, .mirrors, .answers, .textCache, .net] s (State.recoverStalls s p) := by
  unfold State.recoverStalls
  try dsimp only
  repeat' first
    | with_reducible exact Kept.refl _
    | ((with_reducible apply Laws.State.recoverStall_kept); (case mhl => decide))
    | with_reducible apply Kept.ite
    | with_reducible apply Kept.foldl
    | with_reducible apply Kept.foldlFst
    | with_reducible apply Kept.foldlSnd
    | intro _
    | dsimp only
    | split
theorem State.recoverStalls_kept {ml : List StateField} {mz : State} {s : State} {p : Nat → Bool} (mhl : [.io, .t1, .shed, .stalls, .ops, .mirrors, .answers, .textCache, .net] ⊆ ml) (mh : Kept ml mz s) : Kept ml mz (State.recoverStalls s p) :=
  Kept.after ((State.recoverStalls_frame s p).mono mhl) mh

theorem State.logRepair_frame (s : State) (entry : Nat) : Kept [.io] s (State.logRepair s entry) := by
  unfold State.logRepair
  try dsimp only
  repeat' first
    | with_reducible exact Kept.refl _
    | ((with_reducible apply Laws.State.put_kept); (case mhl => decide))
    | ((with_reducible apply Laws.State.raise_kept); (case mhl => decide))
    | with_reducible apply Kept.ite
    | intro _
    | dsimp only
    | split
theorem State.logRepair_kept {ml : List StateField} {mz : State} {s : State} {entry : Nat} (mhl : [.io] ⊆ ml) (mh : Kept ml mz s) : Kept ml mz (State.logRepair s entry) :=
  Kept.after ((State.logRepair_frame s entry).mono mhl) mh

theorem State.repairEvent_frame (s : State) (code entry : Nat) : Kept [.io] s (State.repairEvent s code entry) := by
  unfold State.repairEvent
  try dsimp only
  repeat' first
    | with_reducible exact Kept.refl _
    | ((with_reducible apply Laws.State.raise_kept); (case mhl => decide))
    | with_reducible apply Kept.ite
    | intro _
    | dsimp only
    | split
theorem State.repairEvent_kept {ml : List StateField} {mz : State} {s : State} {code entry : Nat} (mhl : [.io] ⊆ ml) (mh : Kept ml mz s) : Kept ml mz (State.repairEvent s code entry) :=
  Kept.after ((State.repairEvent_frame s code entry).mono mhl) mh

theorem State.endRemap_frame (s : State) (records : List Nat) (entry code : Nat) : Kept [.io, .svChanged] s (State.endRemap s records entry code) := by
  unfold State.endRemap
  try dsimp only
  repeat' first
    | with_reducible exact Kept.refl _
    | ((with_reducible apply Laws.State.logRepair_kept); (case mhl => decide))
    | ((with_reducible apply Laws.State.repairEvent_kept); (case mhl => decide))
    | ((with_reducible apply Laws.State.survey_kept); (case mhl => decide))
    | with_reducible apply Kept.ite
    | intro _
    | dsimp only
    | split
theorem State.endRemap_kept {ml : List StateField} {mz : State} {s : State} {records : List Nat} {entry code : Nat} (mhl : [.io, .svChanged] ⊆ ml) (mh : Kept ml mz s) : Kept ml mz (State.endRemap s records entry code) :=
  Kept.after ((State.endRemap_frame s records entry code).mono mhl) mh

theorem State.sparesLow_frame (s : State) (group entry : Nat) : Kept [.io, .yt, .units, .ops, .cp] s (State.sparesLow s group entry) := by
  unfold State.sparesLow
  try dsimp only
  repeat' first
    | with_reducible exact Kept.refl _
    | ((with_reducible apply Laws.State.cpTrigger_kept); (case mhl => decide))
    | ((with_reducible apply Laws.State.repairEvent_kept); (case mhl => decide))
    | ((with_reducible apply Laws.State.updUnits_kept); (case mhl => decide))
    | with_reducible apply Kept.ite
    | (fail_if_no_progress ((with_reducible apply Kept.upd); (case ho => (refine Only.of (fun p hp => ?_) rfl; cases p <;> first | rfl | (refine absurd ?_ hp; decide))); (case hi => (repeat' first | with_reducible exact IoKept.refl _ | with_reducible apply IoKept.ite | with_reducible apply IoKept.foldl | with_reducible apply IoKept.put | with_reducible apply IoKept.filter | (fail_if_no_progress with_reducible apply IoKept.upd) | intro _ | dsimp only | split)); (case ht => exact T1Kept.refl _)))
    | intro _
    | dsimp only
    | split
theorem State.sparesLow_kept {ml : List StateField} {mz : State} {s : State} {group entry : Nat} (mhl : [.io, .yt, .units, .ops, .cp] ⊆ ml) (mh : Kept ml mz s) : Kept ml mz (State.sparesLow s group entry) :=
  Kept.after ((State.sparesLow_frame s group entry).mono mhl) mh

theorem State.combSparesLow_frame (s : State) (c entry : Nat) : Kept [.io, .yt, .units, .ops, .cp] s (State.combSparesLow s c entry) := by
  unfold State.combSparesLow
  try dsimp only
  repeat' first
    | with_reducible exact Kept.refl _
    | ((with_reducible apply Laws.State.sparesLow_kept); (case mhl => decide))
    | with_reducible apply Kept.ite
    | intro _
    | dsimp only
    | split
theorem State.combSparesLow_kept {ml : List StateField} {mz : State} {s : State} {c entry : Nat} (mhl : [.io, .yt, .units, .ops, .cp] ⊆ ml) (mh : Kept ml mz s) : Kept ml mz (State.combSparesLow s c entry) :=
  Kept.after ((State.combSparesLow_frame s c entry).mono mhl) mh

theorem State.recomputeSwitch_frame (s : State) : Kept [.io] s (State.recomputeSwitch s) := by
  unfold State.recomputeSwitch
  try dsimp only
  repeat' first
    | with_reducible exact Kept.refl _
    | ((with_reducible apply Laws.State.put_kept); (case mhl => decide))
    | with_reducible apply Kept.ite
    | with_reducible apply Kept.foldl
    | with_reducible apply Kept.foldlFst
    | with_reducible apply Kept.foldlSnd
    | intro _
    | dsimp only
    | split
theorem State.recomputeSwitch_kept {ml : List StateField} {mz : State} {s : State} (mhl : [.io] ⊆ ml) (mh : Kept ml mz s) : Kept ml mz (State.recomputeSwitch s) :=
  Kept.after ((State.recomputeSwitch_frame s).mono mhl) mh

theorem State.checkMinimum_frame (s : State) (entry : Nat) : Kept [.io] s (State.checkMinimum s entry) := by
  unfold State.checkMinimum
  try dsimp only
  repeat' first
    | with_reducible exact Kept.refl _
    | ((with_reducible apply Laws.State.repairEvent_kept); (case mhl => decide))
    | with_reducible apply Kept.ite
    | intro _
    | dsimp only
    | split
theorem State.checkMinimum_kept {ml : List StateField} {mz : State} {s : State} {entry : Nat} (mhl : [.io] ⊆ ml) (mh : Kept ml mz s) : Kept ml mz (State.checkMinimum s entry) :=
  Kept.after ((State.checkMinimum_frame s entry).mono mhl) mh

theorem State.loseHive_frame (s : State) (h entry : Nat) : Kept [.io, .t1, .shed, .stalls, .units, .ops, .mirrors, .redirects, .cp, .cpSlots, .contexts, .answers, .tallies, .textCache, .rounds, .svChanged, .net] s (State.loseHive s h entry) := by
  unfold State.loseHive
  try dsimp only
  repeat' first
    | with_reducible exact Kept.refl _
    | ((with_reducible apply Laws.State.checkMinimum_kept); (case mhl => decide))
    | ((with_reducible apply Laws.State.dropCheckpoint_kept); (case mhl => decide))
    | ((with_reducible apply Laws.State.endOp_kept); (case mhl => decide))
    | ((with_reducible apply Laws.State.faultOnCells_kept); (case mhl => decide))
    | ((with_reducible apply Laws.State.loseMirrors_kept); (case mhl => decide))
    | ((with_reducible apply Laws.State.put_kept); (case mhl => decide))
    | ((with_reducible apply Laws.State.recomputeSwitch_kept); (case mhl => decide))
    | ((with_reducible apply Laws.State.recoverStalls_kept); (case mhl => decide))
    | ((with_reducible apply Laws.State.repairEvent_kept); (case mhl => decide))
    | ((with_reducible apply Laws.State.survey_kept); (case mhl => decide))
    | with_reducible apply Kept.ite
    | with_reducible apply Kept.foldl
    | with_reducible apply Kept.foldlFst
    | with_reducible apply Kept.foldlSnd
    | (fail_if_no_progress ((with_reducible apply Kept.upd); (case ho => (refine Only.of (fun p hp => ?_) rfl; cases p <;> first | rfl | (refine absurd ?_ hp; decide))); (case hi => (repeat' first | with_reducible exact IoKept.refl _ | with_reducible apply Laws.Io.put_kept | with_reducible apply IoKept.ite | with_reducible apply IoKept.foldl | with_reducible apply IoKept.put | with_reducible apply IoKept.filter | (fail_if_no_progress with_reducible apply IoKept.upd) | intro _ | dsimp only | split)); (case ht => (repeat' first | with_reducible exact T1Kept.refl _ | with_reducible apply T1Kept.ite | with_reducible apply T1Kept.foldl | with_reducible apply T1Kept.put | with_reducible apply T1Kept.filter | (fail_if_no_progress with_reducible apply T1Kept.upd) | intro _ | dsimp only | split))))
    | intro _
    | dsimp only
    | split
theorem State.loseHive_kept {ml : List StateField} {mz : State} {s : State} {h entry : Nat} (mhl : [.io, .t1, .shed, .stalls, .units, .ops, .mirrors, .redirects, .cp, .cpSlots, .contexts, .answers, .tallies, .textCache, .rounds, .svChanged, .net] ⊆ ml) (mh : Kept ml mz s) : Kept ml mz (State.loseHive s h entry) :=
  Kept.after ((State.loseHive_frame s h entry).mono mhl) mh

theorem State.checkComb_frame (s : State) (c entry : Nat) : Kept [.io, .t1, .shed, .stalls, .units, .ops, .mirrors, .redirects, .cp, .cpSlots, .contexts, .answers, .tallies, .textCache, .rounds, .svChanged, .net] s (State.checkComb s c entry) := by
  unfold State.checkComb
  try dsimp only
  repeat' first
    | with_reducible exact Kept.refl _
    | ((with_reducible apply Laws.State.faultOnCells_kept); (case mhl => decide))
    | ((with_reducible apply Laws.State.loseHive_kept); (case mhl => decide))
    | ((with_reducible apply Laws.State.repairEvent_kept); (case mhl => decide))
    | ((with_reducible apply Laws.State.survey_kept); (case mhl => decide))
    | ((with_reducible apply Laws.State.updUnits_kept); (case mhl => decide))
    | ((with_reducible apply Kept.iteL); case k => ((repeat' first | with_reducible exact Kept.refl _ | ((with_reducible apply Laws.State.faultOnCells_kept); (case mhl => decide)) | ((with_reducible apply Laws.State.loseHive_kept); (case mhl => decide)) | ((with_reducible apply Laws.State.repairEvent_kept); (case mhl => decide)) | ((with_reducible apply Laws.State.survey_kept); (case mhl => decide)) | ((with_reducible apply Laws.State.updUnits_kept); (case mhl => decide)) | with_reducible apply Kept.ite | (fail_if_no_progress ((with_reducible apply Kept.upd); (case ho => (refine Only.of (fun p hp => ?_) rfl; cases p <;> first | rfl | (refine absurd ?_ hp; decide))); (case hi => (repeat' first | with_reducible exact IoKept.refl _ | with_reducible apply IoKept.ite | with_reducible apply IoKept.foldl | with_reducible apply IoKept.put | with_reducible apply IoKept.filter | (fail_if_no_progress with_reducible apply IoKept.upd) | intro _ | dsimp only | split)); (case ht => (repeat' first | with_reducible exact T1Kept.refl _ | with_reducible apply T1Kept.ite | with_reducible apply T1Kept.foldl | with_reducible apply T1Kept.put | with_reducible apply T1Kept.filter | (fail_if_no_progress with_reducible apply T1Kept.upd) | intro _ | dsimp only | split)))) | intro _ | dsimp only | split); done))
    | ((with_reducible apply Kept.iteR); case k => ((repeat' first | with_reducible exact Kept.refl _ | ((with_reducible apply Laws.State.faultOnCells_kept); (case mhl => decide)) | ((with_reducible apply Laws.State.loseHive_kept); (case mhl => decide)) | ((with_reducible apply Laws.State.repairEvent_kept); (case mhl => decide)) | ((with_reducible apply Laws.State.survey_kept); (case mhl => decide)) | ((with_reducible apply Laws.State.updUnits_kept); (case mhl => decide)) | with_reducible apply Kept.ite | (fail_if_no_progress ((with_reducible apply Kept.upd); (case ho => (refine Only.of (fun p hp => ?_) rfl; cases p <;> first | rfl | (refine absurd ?_ hp; decide))); (case hi => (repeat' first | with_reducible exact IoKept.refl _ | with_reducible apply IoKept.ite | with_reducible apply IoKept.foldl | with_reducible apply IoKept.put | with_reducible apply IoKept.filter | (fail_if_no_progress with_reducible apply IoKept.upd) | intro _ | dsimp only | split)); (case ht => (repeat' first | with_reducible exact T1Kept.refl _ | with_reducible apply T1Kept.ite | with_reducible apply T1Kept.foldl | with_reducible apply T1Kept.put | with_reducible apply T1Kept.filter | (fail_if_no_progress with_reducible apply T1Kept.upd) | intro _ | dsimp only | split)))) | intro _ | dsimp only | split); done))
    | with_reducible apply Kept.ite
    | (fail_if_no_progress ((with_reducible apply Kept.upd); (case ho => (refine Only.of (fun p hp => ?_) rfl; cases p <;> first | rfl | (refine absurd ?_ hp; decide))); (case hi => (repeat' first | with_reducible exact IoKept.refl _ | with_reducible apply IoKept.ite | with_reducible apply IoKept.foldl | with_reducible apply IoKept.put | with_reducible apply IoKept.filter | (fail_if_no_progress with_reducible apply IoKept.upd) | intro _ | dsimp only | split)); (case ht => (repeat' first | with_reducible exact T1Kept.refl _ | with_reducible apply T1Kept.ite | with_reducible apply T1Kept.foldl | with_reducible apply T1Kept.put | with_reducible apply T1Kept.filter | (fail_if_no_progress with_reducible apply T1Kept.upd) | intro _ | dsimp only | split))))
    | intro _
    | dsimp only
    | split
theorem State.checkComb_kept {ml : List StateField} {mz : State} {s : State} {c entry : Nat} (mhl : [.io, .t1, .shed, .stalls, .units, .ops, .mirrors, .redirects, .cp, .cpSlots, .contexts, .answers, .tallies, .textCache, .rounds, .svChanged, .net] ⊆ ml) (mh : Kept ml mz s) : Kept ml mz (State.checkComb s c entry) :=
  Kept.after ((State.checkComb_frame s c entry).mono mhl) mh

theorem State.remapCell_frame (s : State) (n reason : Nat) : Kept [.io, .yt, .t1, .shed, .stalls, .units, .ops, .mirrors, .redirects, .cp, .cpSlots, .contexts, .answers, .tallies, .textCache, .rounds, .svChanged, .net] s (State.remapCell s n reason) := by
  unfold State.remapCell
  try dsimp only
  repeat' first
    | with_reducible exact Kept.refl _
    | ((with_reducible apply Laws.State.checkComb_kept); (case mhl => decide))
    | ((with_reducible apply Laws.State.combSparesLow_kept); (case mhl => decide))
    | ((with_reducible apply Laws.State.endRemap_kept); (case mhl => decide))
    | ((with_reducible apply Laws.State.faultContext_kept); (case mhl => decide))
    | ((with_reducible apply Laws.State.faultOnCells_kept); (case mhl => decide))
    | ((with_reducible apply Laws.State.put_kept); (case mhl => decide))
    | ((with_reducible apply Laws.State.recomputeSwitch_kept); (case mhl => decide))
    | ((with_reducible apply Laws.State.resumeContext_kept); (case mhl => decide))
    | ((with_reducible apply Laws.State.switchOut_kept); (case mhl => decide))
    | ((with_reducible apply Laws.State.updUnits_kept); (case mhl => decide))
    | ((with_reducible apply Kept.iteL); case k => ((repeat' first | with_reducible exact Kept.refl _ | ((with_reducible apply Laws.State.checkComb_kept); (case mhl => decide)) | ((with_reducible apply Laws.State.combSparesLow_kept); (case mhl => decide)) | ((with_reducible apply Laws.State.endRemap_kept); (case mhl => decide)) | ((with_reducible apply Laws.State.faultContext_kept); (case mhl => decide)) | ((with_reducible apply Laws.State.faultOnCells_kept); (case mhl => decide)) | ((with_reducible apply Laws.State.put_kept); (case mhl => decide)) | ((with_reducible apply Laws.State.recomputeSwitch_kept); (case mhl => decide)) | ((with_reducible apply Laws.State.resumeContext_kept); (case mhl => decide)) | ((with_reducible apply Laws.State.switchOut_kept); (case mhl => decide)) | ((with_reducible apply Laws.State.updUnits_kept); (case mhl => decide)) | with_reducible apply Kept.ite | (fail_if_no_progress ((with_reducible apply Kept.upd); (case ho => (refine Only.of (fun p hp => ?_) rfl; cases p <;> first | rfl | (refine absurd ?_ hp; decide))); (case hi => (repeat' first | with_reducible exact IoKept.refl _ | with_reducible apply Laws.Io.put_kept | with_reducible apply IoKept.ite | with_reducible apply IoKept.foldl | with_reducible apply IoKept.put | with_reducible apply IoKept.filter | (fail_if_no_progress with_reducible apply IoKept.upd) | intro _ | dsimp only | split)); (case ht => (repeat' first | with_reducible exact T1Kept.refl _ | with_reducible apply T1Kept.ite | with_reducible apply T1Kept.foldl | with_reducible apply T1Kept.put | with_reducible apply T1Kept.filter | (fail_if_no_progress with_reducible apply T1Kept.upd) | intro _ | dsimp only | split)))) | intro _ | dsimp only | split); done))
    | ((with_reducible apply Kept.iteR); case k => ((repeat' first | with_reducible exact Kept.refl _ | ((with_reducible apply Laws.State.checkComb_kept); (case mhl => decide)) | ((with_reducible apply Laws.State.combSparesLow_kept); (case mhl => decide)) | ((with_reducible apply Laws.State.endRemap_kept); (case mhl => decide)) | ((with_reducible apply Laws.State.faultContext_kept); (case mhl => decide)) | ((with_reducible apply Laws.State.faultOnCells_kept); (case mhl => decide)) | ((with_reducible apply Laws.State.put_kept); (case mhl => decide)) | ((with_reducible apply Laws.State.recomputeSwitch_kept); (case mhl => decide)) | ((with_reducible apply Laws.State.resumeContext_kept); (case mhl => decide)) | ((with_reducible apply Laws.State.switchOut_kept); (case mhl => decide)) | ((with_reducible apply Laws.State.updUnits_kept); (case mhl => decide)) | with_reducible apply Kept.ite | (fail_if_no_progress ((with_reducible apply Kept.upd); (case ho => (refine Only.of (fun p hp => ?_) rfl; cases p <;> first | rfl | (refine absurd ?_ hp; decide))); (case hi => (repeat' first | with_reducible exact IoKept.refl _ | with_reducible apply Laws.Io.put_kept | with_reducible apply IoKept.ite | with_reducible apply IoKept.foldl | with_reducible apply IoKept.put | with_reducible apply IoKept.filter | (fail_if_no_progress with_reducible apply IoKept.upd) | intro _ | dsimp only | split)); (case ht => (repeat' first | with_reducible exact T1Kept.refl _ | with_reducible apply T1Kept.ite | with_reducible apply T1Kept.foldl | with_reducible apply T1Kept.put | with_reducible apply T1Kept.filter | (fail_if_no_progress with_reducible apply T1Kept.upd) | intro _ | dsimp only | split)))) | intro _ | dsimp only | split); done))
    | with_reducible apply Kept.ite
    | (fail_if_no_progress ((with_reducible apply Kept.upd); (case ho => (refine Only.of (fun p hp => ?_) rfl; cases p <;> first | rfl | (refine absurd ?_ hp; decide))); (case hi => (repeat' first | with_reducible exact IoKept.refl _ | with_reducible apply Laws.Io.put_kept | with_reducible apply IoKept.ite | with_reducible apply IoKept.foldl | with_reducible apply IoKept.put | with_reducible apply IoKept.filter | (fail_if_no_progress with_reducible apply IoKept.upd) | intro _ | dsimp only | split)); (case ht => (repeat' first | with_reducible exact T1Kept.refl _ | with_reducible apply T1Kept.ite | with_reducible apply T1Kept.foldl | with_reducible apply T1Kept.put | with_reducible apply T1Kept.filter | (fail_if_no_progress with_reducible apply T1Kept.upd) | intro _ | dsimp only | split))))
    | intro _
    | dsimp only
    | split
theorem State.remapCell_kept {ml : List StateField} {mz : State} {s : State} {n reason : Nat} (mhl : [.io, .yt, .t1, .shed, .stalls, .units, .ops, .mirrors, .redirects, .cp, .cpSlots, .contexts, .answers, .tallies, .textCache, .rounds, .svChanged, .net] ⊆ ml) (mh : Kept ml mz s) : Kept ml mz (State.remapCell s n reason) :=
  Kept.after ((State.remapCell_frame s n reason).mono mhl) mh

theorem State.remapTally_frame (s : State) (n reason : Nat) : Kept [.io, .units, .contexts, .tallies, .svChanged] s (State.remapTally s n reason) := by
  unfold State.remapTally
  try dsimp only
  repeat' first
    | with_reducible exact Kept.refl _
    | ((with_reducible apply Laws.State.clearTally_kept); (case mhl => decide))
    | ((with_reducible apply Laws.State.endRemap_kept); (case mhl => decide))
    | ((with_reducible apply Laws.State.put_kept); (case mhl => decide))
    | ((with_reducible apply Laws.State.repairEvent_kept); (case mhl => decide))
    | ((with_reducible apply Laws.State.updUnits_kept); (case mhl => decide))
    | with_reducible apply Kept.ite
    | (fail_if_no_progress ((with_reducible apply Kept.upd); (case ho => (refine Only.of (fun p hp => ?_) rfl; cases p <;> first | rfl | (refine absurd ?_ hp; decide))); (case hi => (repeat' first | with_reducible exact IoKept.refl _ | with_reducible apply Laws.Io.put_kept | with_reducible apply IoKept.ite | with_reducible apply IoKept.foldl | with_reducible apply IoKept.put | with_reducible apply IoKept.filter | (fail_if_no_progress with_reducible apply IoKept.upd) | intro _ | dsimp only | split)); (case ht => exact T1Kept.refl _)))
    | intro _
    | dsimp only
    | split
theorem State.remapTally_kept {ml : List StateField} {mz : State} {s : State} {n reason : Nat} (mhl : [.io, .units, .contexts, .tallies, .svChanged] ⊆ ml) (mh : Kept ml mz s) : Kept ml mz (State.remapTally s n reason) :=
  Kept.after ((State.remapTally_frame s n reason).mono mhl) mh

theorem State.remapGroom_frame (s : State) (reason : Nat) : Kept [.io, .units, .svChanged] s (State.remapGroom s reason) := by
  unfold State.remapGroom
  try dsimp only
  repeat' first
    | with_reducible exact Kept.refl _
    | ((with_reducible apply Laws.State.checkMinimum_kept); (case mhl => decide))
    | ((with_reducible apply Laws.State.endRemap_kept); (case mhl => decide))
    | ((with_reducible apply Laws.State.updUnits_kept); (case mhl => decide))
    | with_reducible apply Kept.ite
    | (fail_if_no_progress ((with_reducible apply Kept.upd); (case ho => (refine Only.of (fun p hp => ?_) rfl; cases p <;> first | rfl | (refine absurd ?_ hp; decide))); (case hi => (repeat' first | with_reducible exact IoKept.refl _ | with_reducible apply IoKept.ite | with_reducible apply IoKept.foldl | with_reducible apply IoKept.put | with_reducible apply IoKept.filter | (fail_if_no_progress with_reducible apply IoKept.upd) | intro _ | dsimp only | split)); (case ht => exact T1Kept.refl _)))
    | intro _
    | dsimp only
    | split
theorem State.remapGroom_kept {ml : List StateField} {mz : State} {s : State} {reason : Nat} (mhl : [.io, .units, .svChanged] ⊆ ml) (mh : Kept ml mz s) : Kept ml mz (State.remapGroom s reason) :=
  Kept.after ((State.remapGroom_frame s reason).mono mhl) mh

theorem State.remapKey_frame (s : State) (n reason : Nat) : Kept [.io, .units, .svChanged] s (State.remapKey s n reason) := by
  unfold State.remapKey
  try dsimp only
  repeat' first
    | with_reducible exact Kept.refl _
    | ((with_reducible apply Laws.State.endRemap_kept); (case mhl => decide))
    | ((with_reducible apply Laws.State.updUnits_kept); (case mhl => decide))
    | with_reducible apply Kept.ite
    | (fail_if_no_progress ((with_reducible apply Kept.upd); (case ho => (refine Only.of (fun p hp => ?_) rfl; cases p <;> first | rfl | (refine absurd ?_ hp; decide))); (case hi => (repeat' first | with_reducible exact IoKept.refl _ | with_reducible apply IoKept.ite | with_reducible apply IoKept.foldl | with_reducible apply IoKept.put | with_reducible apply IoKept.filter | (fail_if_no_progress with_reducible apply IoKept.upd) | intro _ | dsimp only | split)); (case ht => exact T1Kept.refl _)))
    | intro _
    | dsimp only
    | split
theorem State.remapKey_kept {ml : List StateField} {mz : State} {s : State} {n reason : Nat} (mhl : [.io, .units, .svChanged] ⊆ ml) (mh : Kept ml mz s) : Kept ml mz (State.remapKey s n reason) :=
  Kept.after ((State.remapKey_frame s n reason).mono mhl) mh

theorem State.loseEngine_frame (s : State) (kind i : Nat) : Kept [.io, .units, .svChanged] s (State.loseEngine s kind i) := by
  unfold State.loseEngine
  try dsimp only
  repeat' first
    | with_reducible exact Kept.refl _
    | ((with_reducible apply Laws.State.repairEvent_kept); (case mhl => decide))
    | ((with_reducible apply Laws.State.survey_kept); (case mhl => decide))
    | ((with_reducible apply Laws.State.updUnits_kept); (case mhl => decide))
    | with_reducible apply Kept.ite
    | (fail_if_no_progress ((with_reducible apply Kept.upd); (case ho => (refine Only.of (fun p hp => ?_) rfl; cases p <;> first | rfl | (refine absurd ?_ hp; decide))); (case hi => (repeat' first | with_reducible exact IoKept.refl _ | with_reducible apply IoKept.ite | with_reducible apply IoKept.foldl | with_reducible apply IoKept.put | with_reducible apply IoKept.filter | (fail_if_no_progress with_reducible apply IoKept.upd) | intro _ | dsimp only | split)); (case ht => exact T1Kept.refl _)))
    | intro _
    | dsimp only
    | split
theorem State.loseEngine_kept {ml : List StateField} {mz : State} {s : State} {kind i : Nat} (mhl : [.io, .units, .svChanged] ⊆ ml) (mh : Kept ml mz s) : Kept ml mz (State.loseEngine s kind i) :=
  Kept.after ((State.loseEngine_frame s kind i).mono mhl) mh

theorem State.loseSequencer_frame (s : State) (i reason : Nat) : Kept [.io, .t1, .shed, .stalls, .units, .ops, .mirrors, .contexts, .answers, .tallies, .textCache, .rounds, .svChanged, .net] s (State.loseSequencer s i reason) := by
  unfold State.loseSequencer
  try dsimp only
  repeat' first
    | with_reducible exact Kept.refl _
    | ((with_reducible apply Laws.State.endRemap_kept); (case mhl => decide))
    | ((with_reducible apply Laws.State.faultContext_kept); (case mhl => decide))
    | ((with_reducible apply Laws.State.put_kept); (case mhl => decide))
    | ((with_reducible apply Laws.State.updUnits_kept); (case mhl => decide))
    | with_reducible apply Kept.ite
    | with_reducible apply Kept.foldl
    | with_reducible apply Kept.foldlFst
    | with_reducible apply Kept.foldlSnd
    | (fail_if_no_progress ((with_reducible apply Kept.upd); (case ho => (refine Only.of (fun p hp => ?_) rfl; cases p <;> first | rfl | (refine absurd ?_ hp; decide))); (case hi => (repeat' first | with_reducible exact IoKept.refl _ | with_reducible apply Laws.Io.put_kept | with_reducible apply IoKept.ite | with_reducible apply IoKept.foldl | with_reducible apply IoKept.put | with_reducible apply IoKept.filter | (fail_if_no_progress with_reducible apply IoKept.upd) | intro _ | dsimp only | split)); (case ht => (repeat' first | with_reducible exact T1Kept.refl _ | with_reducible apply T1Kept.ite | with_reducible apply T1Kept.foldl | with_reducible apply T1Kept.put | with_reducible apply T1Kept.filter | (fail_if_no_progress with_reducible apply T1Kept.upd) | intro _ | dsimp only | split))))
    | intro _
    | dsimp only
    | split
theorem State.loseSequencer_kept {ml : List StateField} {mz : State} {s : State} {i reason : Nat} (mhl : [.io, .t1, .shed, .stalls, .units, .ops, .mirrors, .contexts, .answers, .tallies, .textCache, .rounds, .svChanged, .net] ⊆ ml) (mh : Kept ml mz s) : Kept ml mz (State.loseSequencer s i reason) :=
  Kept.after ((State.loseSequencer_frame s i reason).mono mhl) mh

theorem State.loseHostPort_frame (s : State) (n reason : Nat) : Kept [.io, .units, .svChanged, .sec] s (State.loseHostPort s n reason) := by
  unfold State.loseHostPort
  try dsimp only
  repeat' first
    | with_reducible exact Kept.refl _
    | ((with_reducible apply Laws.State.checkMinimum_kept); (case mhl => decide))
    | ((with_reducible apply Laws.State.detachPort_kept); (case mhl => decide))
    | ((with_reducible apply Laws.State.endRemap_kept); (case mhl => decide))
    | ((with_reducible apply Laws.State.put_kept); (case mhl => decide))
    | ((with_reducible apply Laws.State.raise_kept); (case mhl => decide))
    | ((with_reducible apply Laws.State.updUnits_kept); (case mhl => decide))
    | with_reducible apply Kept.ite
    | (fail_if_no_progress ((with_reducible apply Kept.upd); (case ho => (refine Only.of (fun p hp => ?_) rfl; cases p <;> first | rfl | (refine absurd ?_ hp; decide))); (case hi => (repeat' first | with_reducible exact IoKept.refl _ | with_reducible apply Laws.Io.detachPort_kept | with_reducible apply Laws.Io.put_kept | with_reducible apply Laws.Io.raise_kept | with_reducible apply IoKept.ite | with_reducible apply IoKept.foldl | with_reducible apply IoKept.put | with_reducible apply IoKept.filter | (fail_if_no_progress with_reducible apply IoKept.upd) | intro _ | dsimp only | split)); (case ht => exact T1Kept.refl _)))
    | intro _
    | dsimp only
    | split
theorem State.loseHostPort_kept {ml : List StateField} {mz : State} {s : State} {n reason : Nat} (mhl : [.io, .units, .svChanged, .sec] ⊆ ml) (mh : Kept ml mz s) : Kept ml mz (State.loseHostPort s n reason) :=
  Kept.after ((State.loseHostPort_frame s n reason).mono mhl) mh

theorem State.spareFailed_frame (s : State) (records : List Nat) (entry : Nat) : Kept [.io, .svChanged] s (State.spareFailed s records entry) := by
  unfold State.spareFailed
  try dsimp only
  repeat' first
    | with_reducible exact Kept.refl _
    | ((with_reducible apply Laws.State.endRemap_kept); (case mhl => decide))
    | with_reducible apply Kept.ite
    | intro _
    | dsimp only
    | split
theorem State.spareFailed_kept {ml : List StateField} {mz : State} {s : State} {records : List Nat} {entry : Nat} (mhl : [.io, .svChanged] ⊆ ml) (mh : Kept ml mz s) : Kept ml mz (State.spareFailed s records entry) :=
  Kept.after ((State.spareFailed_frame s records entry).mono mhl) mh

theorem State.judge_frame (s : State) (u : Part) (reason : Nat) : Kept [.io, .yt, .t1, .shed, .stalls, .units, .ops, .mirrors, .redirects, .cp, .cpSlots, .contexts, .answers, .tallies, .textCache, .rounds, .svChanged, .net, .sec] s (State.judge s u reason) := by
  unfold State.judge
  try dsimp only
  repeat' first
    | with_reducible exact Kept.refl _
    | ((with_reducible apply Laws.State.combSparesLow_kept); (case mhl => decide))
    | ((with_reducible apply Laws.State.logRepair_kept); (case mhl => decide))
    | ((with_reducible apply Laws.State.loseEngine_kept); (case mhl => decide))
    | ((with_reducible apply Laws.State.loseHive_kept); (case mhl => decide))
    | ((with_reducible apply Laws.State.loseHostPort_kept); (case mhl => decide))
    | ((with_reducible apply Laws.State.loseSequencer_kept); (case mhl => decide))
    | ((with_reducible apply Laws.State.remapCell_kept); (case mhl => decide))
    | ((with_reducible apply Laws.State.remapGroom_kept); (case mhl => decide))
    | ((with_reducible apply Laws.State.remapKey_kept); (case mhl => decide))
    | ((with_reducible apply Laws.State.remapTally_kept); (case mhl => decide))
    | ((with_reducible apply Laws.State.repairEvent_kept); (case mhl => decide))
    | ((with_reducible apply Laws.State.spareFailed_kept); (case mhl => decide))
    | ((with_reducible apply Laws.State.updUnits_kept); (case mhl => decide))
    | ((with_reducible apply Kept.iteL); case k => ((repeat' first | with_reducible exact Kept.refl _ | ((with_reducible apply Laws.State.combSparesLow_kept); (case mhl => decide)) | ((with_reducible apply Laws.State.logRepair_kept); (case mhl => decide)) | ((with_reducible apply Laws.State.loseEngine_kept); (case mhl => decide)) | ((with_reducible apply Laws.State.loseHive_kept); (case mhl => decide)) | ((with_reducible apply Laws.State.loseHostPort_kept); (case mhl => decide)) | ((with_reducible apply Laws.State.loseSequencer_kept); (case mhl => decide)) | ((with_reducible apply Laws.State.remapCell_kept); (case mhl => decide)) | ((with_reducible apply Laws.State.remapGroom_kept); (case mhl => decide)) | ((with_reducible apply Laws.State.remapKey_kept); (case mhl => decide)) | ((with_reducible apply Laws.State.remapTally_kept); (case mhl => decide)) | ((with_reducible apply Laws.State.repairEvent_kept); (case mhl => decide)) | ((with_reducible apply Laws.State.spareFailed_kept); (case mhl => decide)) | ((with_reducible apply Laws.State.updUnits_kept); (case mhl => decide)) | with_reducible apply Kept.ite | (fail_if_no_progress ((with_reducible apply Kept.upd); (case ho => (refine Only.of (fun p hp => ?_) rfl; cases p <;> first | rfl | (refine absurd ?_ hp; decide))); (case hi => (repeat' first | with_reducible exact IoKept.refl _ | with_reducible apply IoKept.ite | with_reducible apply IoKept.foldl | with_reducible apply IoKept.put | with_reducible apply IoKept.filter | (fail_if_no_progress with_reducible apply IoKept.upd) | intro _ | dsimp only | split)); (case ht => (repeat' first | with_reducible exact T1Kept.refl _ | with_reducible apply T1Kept.ite | with_reducible apply T1Kept.foldl | with_reducible apply T1Kept.put | with_reducible apply T1Kept.filter | (fail_if_no_progress with_reducible apply T1Kept.upd) | intro _ | dsimp only | split)))) | intro _ | dsimp only | split); done))
    | ((with_reducible apply Kept.iteR); case k => ((repeat' first | with_reducible exact Kept.refl _ | ((with_reducible apply Laws.State.combSparesLow_kept); (case mhl => decide)) | ((with_reducible apply Laws.State.logRepair_kept); (case mhl => decide)) | ((with_reducible apply Laws.State.loseEngine_kept); (case mhl => decide)) | ((with_reducible apply Laws.State.loseHive_kept); (case mhl => decide)) | ((with_reducible apply Laws.State.loseHostPort_kept); (case mhl => decide)) | ((with_reducible apply Laws.State.loseSequencer_kept); (case mhl => decide)) | ((with_reducible apply Laws.State.remapCell_kept); (case mhl => decide)) | ((with_reducible apply Laws.State.remapGroom_kept); (case mhl => decide)) | ((with_reducible apply Laws.State.remapKey_kept); (case mhl => decide)) | ((with_reducible apply Laws.State.remapTally_kept); (case mhl => decide)) | ((with_reducible apply Laws.State.repairEvent_kept); (case mhl => decide)) | ((with_reducible apply Laws.State.spareFailed_kept); (case mhl => decide)) | ((with_reducible apply Laws.State.updUnits_kept); (case mhl => decide)) | with_reducible apply Kept.ite | (fail_if_no_progress ((with_reducible apply Kept.upd); (case ho => (refine Only.of (fun p hp => ?_) rfl; cases p <;> first | rfl | (refine absurd ?_ hp; decide))); (case hi => (repeat' first | with_reducible exact IoKept.refl _ | with_reducible apply IoKept.ite | with_reducible apply IoKept.foldl | with_reducible apply IoKept.put | with_reducible apply IoKept.filter | (fail_if_no_progress with_reducible apply IoKept.upd) | intro _ | dsimp only | split)); (case ht => (repeat' first | with_reducible exact T1Kept.refl _ | with_reducible apply T1Kept.ite | with_reducible apply T1Kept.foldl | with_reducible apply T1Kept.put | with_reducible apply T1Kept.filter | (fail_if_no_progress with_reducible apply T1Kept.upd) | intro _ | dsimp only | split)))) | intro _ | dsimp only | split); done))
    | with_reducible apply Kept.ite
    | (fail_if_no_progress ((with_reducible apply Kept.upd); (case ho => (refine Only.of (fun p hp => ?_) rfl; cases p <;> first | rfl | (refine absurd ?_ hp; decide))); (case hi => (repeat' first | with_reducible exact IoKept.refl _ | with_reducible apply IoKept.ite | with_reducible apply IoKept.foldl | with_reducible apply IoKept.put | with_reducible apply IoKept.filter | (fail_if_no_progress with_reducible apply IoKept.upd) | intro _ | dsimp only | split)); (case ht => (repeat' first | with_reducible exact T1Kept.refl _ | with_reducible apply T1Kept.ite | with_reducible apply T1Kept.foldl | with_reducible apply T1Kept.put | with_reducible apply T1Kept.filter | (fail_if_no_progress with_reducible apply T1Kept.upd) | intro _ | dsimp only | split))))
    | intro _
    | dsimp only
    | split
theorem State.judge_kept {ml : List StateField} {mz : State} {s : State} {u : Part} {reason : Nat} (mhl : [.io, .yt, .t1, .shed, .stalls, .units, .ops, .mirrors, .redirects, .cp, .cpSlots, .contexts, .answers, .tallies, .textCache, .rounds, .svChanged, .net, .sec] ⊆ ml) (mh : Kept ml mz s) : Kept ml mz (State.judge s u reason) :=
  Kept.after ((State.judge_frame s u reason).mono mhl) mh

theorem State.badBlock_frame (s : State) (p k : Nat) : Kept [.io, .yt, .shed, .ops, .cp, .svChanged] s (State.badBlock s p k) := by
  unfold State.badBlock
  try dsimp only
  repeat' first
    | with_reducible exact Kept.refl _
    | ((with_reducible apply Laws.State.cpTrigger_kept); (case mhl => decide))
    | ((with_reducible apply Laws.State.put_kept); (case mhl => decide))
    | ((with_reducible apply Laws.State.raise_kept); (case mhl => decide))
    | ((with_reducible apply Laws.State.recomputeDirtyMax_kept); (case mhl => decide))
    | ((with_reducible apply Laws.State.setShedPort_kept); (case mhl => decide))
    | ((with_reducible apply Laws.State.survey_kept); (case mhl => decide))
    | ((with_reducible apply Kept.iteL); case k => ((repeat' first | with_reducible exact Kept.refl _ | ((with_reducible apply Laws.State.cpTrigger_kept); (case mhl => decide)) | ((with_reducible apply Laws.State.put_kept); (case mhl => decide)) | ((with_reducible apply Laws.State.raise_kept); (case mhl => decide)) | ((with_reducible apply Laws.State.recomputeDirtyMax_kept); (case mhl => decide)) | ((with_reducible apply Laws.State.setShedPort_kept); (case mhl => decide)) | ((with_reducible apply Laws.State.survey_kept); (case mhl => decide)) | with_reducible apply Kept.getD | with_reducible apply Kept.ite | (fail_if_no_progress ((with_reducible apply Kept.upd); (case ho => (refine Only.of (fun p hp => ?_) rfl; cases p <;> first | rfl | (refine absurd ?_ hp; decide))); (case hi => (repeat' first | with_reducible exact IoKept.refl _ | with_reducible apply Laws.Io.put_kept | with_reducible apply Laws.Io.raise_kept | with_reducible apply IoKept.ite | with_reducible apply IoKept.foldl | with_reducible apply IoKept.put | with_reducible apply IoKept.filter | (fail_if_no_progress with_reducible apply IoKept.upd) | intro _ | dsimp only | split)); (case ht => exact T1Kept.refl _))) | intro _ | dsimp only | split); done))
    | ((with_reducible apply Kept.iteR); case k => ((repeat' first | with_reducible exact Kept.refl _ | ((with_reducible apply Laws.State.cpTrigger_kept); (case mhl => decide)) | ((with_reducible apply Laws.State.put_kept); (case mhl => decide)) | ((with_reducible apply Laws.State.raise_kept); (case mhl => decide)) | ((with_reducible apply Laws.State.recomputeDirtyMax_kept); (case mhl => decide)) | ((with_reducible apply Laws.State.setShedPort_kept); (case mhl => decide)) | ((with_reducible apply Laws.State.survey_kept); (case mhl => decide)) | with_reducible apply Kept.getD | with_reducible apply Kept.ite | (fail_if_no_progress ((with_reducible apply Kept.upd); (case ho => (refine Only.of (fun p hp => ?_) rfl; cases p <;> first | rfl | (refine absurd ?_ hp; decide))); (case hi => (repeat' first | with_reducible exact IoKept.refl _ | with_reducible apply Laws.Io.put_kept | with_reducible apply Laws.Io.raise_kept | with_reducible apply IoKept.ite | with_reducible apply IoKept.foldl | with_reducible apply IoKept.put | with_reducible apply IoKept.filter | (fail_if_no_progress with_reducible apply IoKept.upd) | intro _ | dsimp only | split)); (case ht => exact T1Kept.refl _))) | intro _ | dsimp only | split); done))
    | with_reducible apply Kept.ite
    | with_reducible apply Kept.getD
    | (fail_if_no_progress ((with_reducible apply Kept.upd); (case ho => (refine Only.of (fun p hp => ?_) rfl; cases p <;> first | rfl | (refine absurd ?_ hp; decide))); (case hi => (repeat' first | with_reducible exact IoKept.refl _ | with_reducible apply Laws.Io.put_kept | with_reducible apply Laws.Io.raise_kept | with_reducible apply IoKept.ite | with_reducible apply IoKept.foldl | with_reducible apply IoKept.put | with_reducible apply IoKept.filter | (fail_if_no_progress with_reducible apply IoKept.upd) | intro _ | dsimp only | split)); (case ht => exact T1Kept.refl _)))
    | intro _
    | dsimp only
    | split
theorem State.badBlock_kept {ml : List StateField} {mz : State} {s : State} {p k : Nat} (mhl : [.io, .yt, .shed, .ops, .cp, .svChanged] ⊆ ml) (mh : Kept ml mz s) : Kept ml mz (State.badBlock s p k) :=
  Kept.after ((State.badBlock_frame s p k).mono mhl) mh

theorem State.relocRoom_frame (s : State) (i h n : Nat) (p : PageTable) {v0 : Nat} {v1 : List Page} {v2 : State} (me : State.relocRoom s i h n p = some (v0, v1, v2)) : Kept [.t1] s v2 := by
  unfold State.relocRoom at me
  rw [Option.bind_eq_some_iff] at me
  obtain ⟨r, hr, me⟩ := me
  rw [Option.map_eq_some_iff] at me
  obtain ⟨q, hq, me⟩ := me
  cases me
  exact State.takePages_kept (by decide) hq (State.alloc_kept (by decide) hr (Kept.refl _))
theorem State.relocRoom_kept {ml : List StateField} {mz : State} {s : State} {i h n : Nat} {p : PageTable} {v0 : Nat} {v1 : List Page} {v2 : State} (mhl : [.t1] ⊆ ml) (me : State.relocRoom s i h n p = some (v0, v1, v2)) (mh : Kept ml mz s) : Kept ml mz v2 :=
  Kept.after ((State.relocRoom_frame s i h n p me).mono mhl) mh

theorem State.startReloc_frame (s : State) (i layer extra : Nat) : Kept [.io, .t1, .stalls] s (State.startReloc s i layer extra) := by
  unfold State.startReloc
  extract_lets x
  split
  · exact Kept.refl _
  split
  · exact Kept.refl _
  split
  · exact Kept.refl _
  extract_lets n fits
  split
  · exact State.stallEvent_kept (by decide) (Kept.refl _)
  · next hq =>
    rw [Option.bind_eq_some_iff] at hq
    obtain ⟨a, _, hq⟩ := hq
    rw [Option.map_eq_some_iff] at hq
    obtain ⟨q, hr, hq⟩ := hq
    cases hq
    exact State.setStall_kept (by decide) (State.relocRoom_kept (by decide) hr (Kept.refl _))
theorem State.startReloc_kept {ml : List StateField} {mz : State} {s : State} {i layer extra : Nat} (mhl : [.io, .t1, .stalls] ⊆ ml) (mh : Kept ml mz s) : Kept ml mz (State.startReloc s i layer extra) :=
  Kept.after ((State.startReloc_frame s i layer extra).mono mhl) mh

theorem State.vacate_frame (s : State) (p : Nat → Bool) (i : Nat) : Kept [.io, .t1, .stalls] s (State.vacate s p i) := by
  unfold State.vacate
  try dsimp only
  repeat' first
    | with_reducible exact Kept.refl _
    | ((with_reducible apply Laws.State.startReloc_kept); (case mhl => decide))
    | with_reducible apply Kept.ite
    | with_reducible apply Kept.foldl
    | with_reducible apply Kept.foldlFst
    | with_reducible apply Kept.foldlSnd
    | intro _
    | dsimp only
    | split
theorem State.vacate_kept {ml : List StateField} {mz : State} {s : State} {p : Nat → Bool} {i : Nat} (mhl : [.io, .t1, .stalls] ⊆ ml) (mh : Kept ml mz s) : Kept ml mz (State.vacate s p i) :=
  Kept.after ((State.vacate_frame s p i).mono mhl) mh

theorem State.vacateAll_frame (s : State) (p : Nat → Bool) : Kept [.io, .t1, .stalls] s (State.vacateAll s p) := by
  unfold State.vacateAll
  try dsimp only
  repeat' first
    | with_reducible exact Kept.refl _
    | ((with_reducible apply Laws.State.vacate_kept); (case mhl => decide))
    | with_reducible apply Kept.ite
    | with_reducible apply Kept.foldl
    | with_reducible apply Kept.foldlFst
    | with_reducible apply Kept.foldlSnd
    | intro _
    | dsimp only
    | split
theorem State.vacateAll_kept {ml : List StateField} {mz : State} {s : State} {p : Nat → Bool} (mhl : [.io, .t1, .stalls] ⊆ ml) (mh : Kept ml mz s) : Kept ml mz (State.vacateAll s p) :=
  Kept.after ((State.vacateAll_frame s p).mono mhl) mh

theorem State.retireChannel_frame (s : State) (h c : Nat) : Kept [.io, .t1, .shed, .prefetch, .stalls, .units, .ops, .mirrors, .redirects, .cp, .cpSlots, .contexts, .answers, .tallies, .textCache, .rounds, .svChanged, .net] s (State.retireChannel s h c) := by
  unfold State.retireChannel
  try dsimp only
  repeat' first
    | with_reducible exact Kept.refl _
    | ((with_reducible apply Laws.State.dropCopies_kept); (case mhl => decide))
    | ((with_reducible apply Laws.State.logRepair_kept); (case mhl => decide))
    | ((with_reducible apply Laws.State.loseHive_kept); (case mhl => decide))
    | ((with_reducible apply Laws.State.loseMirrors_kept); (case mhl => decide))
    | ((with_reducible apply Laws.State.put_kept); (case mhl => decide))
    | ((with_reducible apply Laws.State.recoverStalls_kept); (case mhl => decide))
    | ((with_reducible apply Laws.State.survey_kept); (case mhl => decide))
    | ((with_reducible apply Laws.State.updUnits_kept); (case mhl => decide))
    | with_reducible apply Kept.ite
    | (fail_if_no_progress ((with_reducible apply Kept.upd); (case ho => (refine Only.of (fun p hp => ?_) rfl; cases p <;> first | rfl | (refine absurd ?_ hp; decide))); (case hi => (repeat' first | with_reducible exact IoKept.refl _ | with_reducible apply Laws.Io.put_kept | with_reducible apply IoKept.ite | with_reducible apply IoKept.foldl | with_reducible apply IoKept.put | with_reducible apply IoKept.filter | (fail_if_no_progress with_reducible apply IoKept.upd) | intro _ | dsimp only | split)); (case ht => (repeat' first | with_reducible exact T1Kept.refl _ | with_reducible apply T1Kept.ite | with_reducible apply T1Kept.foldl | with_reducible apply T1Kept.put | with_reducible apply T1Kept.filter | (fail_if_no_progress with_reducible apply T1Kept.upd) | intro _ | dsimp only | split))))
    | intro _
    | dsimp only
    | split
theorem State.retireChannel_kept {ml : List StateField} {mz : State} {s : State} {h c : Nat} (mhl : [.io, .t1, .shed, .prefetch, .stalls, .units, .ops, .mirrors, .redirects, .cp, .cpSlots, .contexts, .answers, .tallies, .textCache, .rounds, .svChanged, .net] ⊆ ml) (mh : Kept ml mz s) : Kept ml mz (State.retireChannel s h c) :=
  Kept.after ((State.retireChannel_frame s h c).mono mhl) mh

theorem State.loseChannel_frame (s : State) (h c : Nat) (readable : Bool) : Kept [.io, .t1, .shed, .prefetch, .stalls, .units, .ops, .mirrors, .redirects, .cp, .cpSlots, .contexts, .answers, .tallies, .textCache, .rounds, .svChanged, .net] s (State.loseChannel s h c readable) := by
  unfold State.loseChannel
  try dsimp only
  repeat' first
    | with_reducible exact Kept.refl _
    | ((with_reducible apply Laws.State.dropCopies_kept); (case mhl => decide))
    | ((with_reducible apply Laws.State.loseMirrors_kept); (case mhl => decide))
    | ((with_reducible apply Laws.State.raise_kept); (case mhl => decide))
    | ((with_reducible apply Laws.State.retireChannel_kept); (case mhl => decide))
    | ((with_reducible apply Laws.State.updUnits_kept); (case mhl => decide))
    | ((with_reducible apply Laws.State.vacateAll_kept); (case mhl => decide))
    | with_reducible apply Kept.ite
    | (fail_if_no_progress ((with_reducible apply Kept.upd); (case ho => (refine Only.of (fun p hp => ?_) rfl; cases p <;> first | rfl | (refine absurd ?_ hp; decide))); (case hi => (repeat' first | with_reducible exact IoKept.refl _ | with_reducible apply Laws.Io.raise_kept | with_reducible apply IoKept.ite | with_reducible apply IoKept.foldl | with_reducible apply IoKept.put | with_reducible apply IoKept.filter | (fail_if_no_progress with_reducible apply IoKept.upd) | intro _ | dsimp only | split)); (case ht => (repeat' first | with_reducible exact T1Kept.refl _ | with_reducible apply T1Kept.ite | with_reducible apply T1Kept.foldl | with_reducible apply T1Kept.put | with_reducible apply T1Kept.filter | (fail_if_no_progress with_reducible apply T1Kept.upd) | intro _ | dsimp only | split))))
    | intro _
    | dsimp only
    | split
theorem State.loseChannel_kept {ml : List StateField} {mz : State} {s : State} {h c : Nat} {readable : Bool} (mhl : [.io, .t1, .shed, .prefetch, .stalls, .units, .ops, .mirrors, .redirects, .cp, .cpSlots, .contexts, .answers, .tallies, .textCache, .rounds, .svChanged, .net] ⊆ ml) (mh : Kept ml mz s) : Kept ml mz (State.loseChannel s h c readable) :=
  Kept.after ((State.loseChannel_frame s h c readable).mono mhl) mh

theorem State.startSparing_frame (s : State) (h c : Nat) {v0 : State} (me : State.startSparing s h c = some v0) : Kept [.io, .yt, .units, .ops, .cp] s v0 := by
  unfold State.startSparing at me
  try dsimp only at me
  repeat' first
    | contradiction
    | (cases me; done)
    | cases me
    | (rw [Option.map_eq_some_iff] at me; obtain ⟨_, _, me⟩ := me; cases me)
    | (rw [Option.bind_eq_some_iff] at me; obtain ⟨_, _, me⟩ := me)
    | split at me
  all_goals
    repeat' first
      | with_reducible exact Kept.refl _
      | ((with_reducible apply Laws.State.cpTrigger_kept); (case mhl => decide))
      | ((with_reducible apply Laws.State.put_kept); (case mhl => decide))
      | ((with_reducible apply Laws.State.raise_kept); (case mhl => decide))
      | ((with_reducible apply Laws.State.sparesLow_kept); (case mhl => decide))
      | with_reducible apply Kept.ite
      | (fail_if_no_progress ((with_reducible apply Kept.upd); (case ho => (refine Only.of (fun p hp => ?_) rfl; cases p <;> first | rfl | (refine absurd ?_ hp; decide))); (case hi => (repeat' first | with_reducible exact IoKept.refl _ | with_reducible apply Laws.Io.put_kept | with_reducible apply Laws.Io.raise_kept | with_reducible apply IoKept.ite | with_reducible apply IoKept.foldl | with_reducible apply IoKept.put | with_reducible apply IoKept.filter | (fail_if_no_progress with_reducible apply IoKept.upd) | intro _ | dsimp only | split)); (case ht => exact T1Kept.refl _)))
      | intro _
      | dsimp only
      | split
theorem State.startSparing_kept {ml : List StateField} {mz : State} {s : State} {h c : Nat} {v0 : State} (mhl : [.io, .yt, .units, .ops, .cp] ⊆ ml) (me : State.startSparing s h c = some v0) (mh : Kept ml mz s) : Kept ml mz v0 :=
  Kept.after ((State.startSparing_frame s h c me).mono mhl) mh

theorem State.dropSparing_frame (s : State) (h c : Nat) : Kept [.io, .units] s (State.dropSparing s h c) := by
  unfold State.dropSparing
  try dsimp only
  repeat' first
    | with_reducible exact Kept.refl _
    | ((with_reducible apply Laws.State.put_kept); (case mhl => decide))
    | ((with_reducible apply Laws.State.updUnits_kept); (case mhl => decide))
    | with_reducible apply Kept.ite
    | (fail_if_no_progress ((with_reducible apply Kept.upd); (case ho => (refine Only.of (fun p hp => ?_) rfl; cases p <;> first | rfl | (refine absurd ?_ hp; decide))); (case hi => (repeat' first | with_reducible exact IoKept.refl _ | with_reducible apply Laws.Io.put_kept | with_reducible apply IoKept.ite | with_reducible apply IoKept.foldl | with_reducible apply IoKept.put | with_reducible apply IoKept.filter | (fail_if_no_progress with_reducible apply IoKept.upd) | intro _ | dsimp only | split)); (case ht => exact T1Kept.refl _)))
    | intro _
    | dsimp only
    | split
theorem State.dropSparing_kept {ml : List StateField} {mz : State} {s : State} {h c : Nat} (mhl : [.io, .units] ⊆ ml) (mh : Kept ml mz s) : Kept ml mz (State.dropSparing s h c) :=
  Kept.after ((State.dropSparing_frame s h c).mono mhl) mh

theorem State.bindSpare_frame (s : State) (k : Nat) : Kept [.io, .units, .ops, .answers, .svChanged] s (State.bindSpare s k) := by
  unfold State.bindSpare
  try dsimp only
  repeat' first
    | with_reducible exact Kept.refl _
    | ((with_reducible apply Laws.State.endOp_kept); (case mhl => decide))
    | ((with_reducible apply Laws.State.logRepair_kept); (case mhl => decide))
    | ((with_reducible apply Laws.State.put_kept); (case mhl => decide))
    | ((with_reducible apply Laws.State.raise_kept); (case mhl => decide))
    | ((with_reducible apply Laws.State.setOp_kept); (case mhl => decide))
    | ((with_reducible apply Laws.State.survey_kept); (case mhl => decide))
    | ((with_reducible apply Laws.State.updUnits_kept); (case mhl => decide))
    | with_reducible apply Kept.ite
    | with_reducible apply Kept.foldl
    | with_reducible apply Kept.foldlFst
    | with_reducible apply Kept.foldlSnd
    | (fail_if_no_progress ((with_reducible apply Kept.upd); (case ho => (refine Only.of (fun p hp => ?_) rfl; cases p <;> first | rfl | (refine absurd ?_ hp; decide))); (case hi => (repeat' first | with_reducible exact IoKept.refl _ | with_reducible apply Laws.Io.put_kept | with_reducible apply Laws.Io.raise_kept | with_reducible apply IoKept.ite | with_reducible apply IoKept.foldl | with_reducible apply IoKept.put | with_reducible apply IoKept.filter | (fail_if_no_progress with_reducible apply IoKept.upd) | intro _ | dsimp only | split)); (case ht => exact T1Kept.refl _)))
    | intro _
    | dsimp only
    | split
theorem State.bindSpare_kept {ml : List StateField} {mz : State} {s : State} {k : Nat} (mhl : [.io, .units, .ops, .answers, .svChanged] ⊆ ml) (mh : Kept ml mz s) : Kept ml mz (State.bindSpare s k) :=
  Kept.after ((State.bindSpare_frame s k).mono mhl) mh

theorem State.bindSpares_frame (s : State) : Kept [.io, .units, .ops, .answers, .svChanged] s (State.bindSpares s) := by
  unfold State.bindSpares
  try dsimp only
  repeat' first
    | with_reducible exact Kept.refl _
    | ((with_reducible apply Laws.State.bindSpare_kept); (case mhl => decide))
    | with_reducible apply Kept.ite
    | with_reducible apply Kept.foldl
    | with_reducible apply Kept.foldlFst
    | with_reducible apply Kept.foldlSnd
    | intro _
    | dsimp only
    | split
theorem State.bindSpares_kept {ml : List StateField} {mz : State} {s : State} (mhl : [.io, .units, .ops, .answers, .svChanged] ⊆ ml) (mh : Kept ml mz s) : Kept ml mz (State.bindSpares s) :=
  Kept.after ((State.bindSpares_frame s).mono mhl) mh

theorem State.autoSpare_frame (s : State) (h c : Nat) (readable : Bool) : Kept [.io, .yt, .t1, .shed, .prefetch, .stalls, .units, .ops, .mirrors, .redirects, .cp, .cpSlots, .contexts, .answers, .tallies, .textCache, .rounds, .svChanged, .net] s (State.autoSpare s h c readable) := by
  unfold State.autoSpare
  try dsimp only
  repeat' first
    | with_reducible exact Kept.refl _
    | ((with_reducible apply Laws.State.loseChannel_kept); (case mhl => decide))
    | ((with_reducible apply Laws.State.startSparing_kept ?mhl (by assumption)); (case mhl => decide))
    | ((with_reducible apply Kept.iteL); case k => ((repeat' first | with_reducible exact Kept.refl _ | ((with_reducible apply Laws.State.loseChannel_kept); (case mhl => decide)) | ((with_reducible apply Laws.State.startSparing_kept ?mhl (by assumption)); (case mhl => decide)) | with_reducible apply Kept.ite | (fail_if_no_progress ((with_reducible apply Kept.upd); (case ho => (refine Only.of (fun p hp => ?_) rfl; cases p <;> first | rfl | (refine absurd ?_ hp; decide))); (case hi => (repeat' first | with_reducible exact IoKept.refl _ | with_reducible apply IoKept.ite | with_reducible apply IoKept.foldl | with_reducible apply IoKept.put | with_reducible apply IoKept.filter | (fail_if_no_progress with_reducible apply IoKept.upd) | intro _ | dsimp only | split)); (case ht => (repeat' first | with_reducible exact T1Kept.refl _ | with_reducible apply T1Kept.ite | with_reducible apply T1Kept.foldl | with_reducible apply T1Kept.put | with_reducible apply T1Kept.filter | (fail_if_no_progress with_reducible apply T1Kept.upd) | intro _ | dsimp only | split)))) | intro _ | dsimp only | split); done))
    | ((with_reducible apply Kept.iteR); case k => ((repeat' first | with_reducible exact Kept.refl _ | ((with_reducible apply Laws.State.loseChannel_kept); (case mhl => decide)) | ((with_reducible apply Laws.State.startSparing_kept ?mhl (by assumption)); (case mhl => decide)) | with_reducible apply Kept.ite | (fail_if_no_progress ((with_reducible apply Kept.upd); (case ho => (refine Only.of (fun p hp => ?_) rfl; cases p <;> first | rfl | (refine absurd ?_ hp; decide))); (case hi => (repeat' first | with_reducible exact IoKept.refl _ | with_reducible apply IoKept.ite | with_reducible apply IoKept.foldl | with_reducible apply IoKept.put | with_reducible apply IoKept.filter | (fail_if_no_progress with_reducible apply IoKept.upd) | intro _ | dsimp only | split)); (case ht => (repeat' first | with_reducible exact T1Kept.refl _ | with_reducible apply T1Kept.ite | with_reducible apply T1Kept.foldl | with_reducible apply T1Kept.put | with_reducible apply T1Kept.filter | (fail_if_no_progress with_reducible apply T1Kept.upd) | intro _ | dsimp only | split)))) | intro _ | dsimp only | split); done))
    | with_reducible apply Kept.ite
    | (fail_if_no_progress ((with_reducible apply Kept.upd); (case ho => (refine Only.of (fun p hp => ?_) rfl; cases p <;> first | rfl | (refine absurd ?_ hp; decide))); (case hi => (repeat' first | with_reducible exact IoKept.refl _ | with_reducible apply IoKept.ite | with_reducible apply IoKept.foldl | with_reducible apply IoKept.put | with_reducible apply IoKept.filter | (fail_if_no_progress with_reducible apply IoKept.upd) | intro _ | dsimp only | split)); (case ht => (repeat' first | with_reducible exact T1Kept.refl _ | with_reducible apply T1Kept.ite | with_reducible apply T1Kept.foldl | with_reducible apply T1Kept.put | with_reducible apply T1Kept.filter | (fail_if_no_progress with_reducible apply T1Kept.upd) | intro _ | dsimp only | split))))
    | intro _
    | dsimp only
    | split
theorem State.autoSpare_kept {ml : List StateField} {mz : State} {s : State} {h c : Nat} {readable : Bool} (mhl : [.io, .yt, .t1, .shed, .prefetch, .stalls, .units, .ops, .mirrors, .redirects, .cp, .cpSlots, .contexts, .answers, .tallies, .textCache, .rounds, .svChanged, .net] ⊆ ml) (mh : Kept ml mz s) : Kept ml mz (State.autoSpare s h c readable) :=
  Kept.after ((State.autoSpare_frame s h c readable).mono mhl) mh

theorem State.checkPoison_frame (s : State) : Kept [.io, .yt, .t1, .shed, .prefetch, .stalls, .units, .ops, .mirrors, .redirects, .cp, .cpSlots, .contexts, .answers, .tallies, .textCache, .rounds, .svChanged, .net] s (State.checkPoison s) := by
  unfold State.checkPoison
  try dsimp only
  repeat' first
    | with_reducible exact Kept.refl _
    | ((with_reducible apply Laws.State.autoSpare_kept); (case mhl => decide))
    | ((with_reducible apply Kept.iteL); case k => ((repeat' first | with_reducible exact Kept.refl _ | ((with_reducible apply Laws.State.autoSpare_kept); (case mhl => decide)) | with_reducible apply Kept.foldl | with_reducible apply Kept.foldlFst | with_reducible apply Kept.foldlSnd | with_reducible apply Kept.ite | (fail_if_no_progress ((with_reducible apply Kept.upd); (case ho => (refine Only.of (fun p hp => ?_) rfl; cases p <;> first | rfl | (refine absurd ?_ hp; decide))); (case hi => (repeat' first | with_reducible exact IoKept.refl _ | with_reducible apply IoKept.ite | with_reducible apply IoKept.foldl | with_reducible apply IoKept.put | with_reducible apply IoKept.filter | (fail_if_no_progress with_reducible apply IoKept.upd) | intro _ | dsimp only | split)); (case ht => (repeat' first | with_reducible exact T1Kept.refl _ | with_reducible apply T1Kept.ite | with_reducible apply T1Kept.foldl | with_reducible apply T1Kept.put | with_reducible apply T1Kept.filter | (fail_if_no_progress with_reducible apply T1Kept.upd) | intro _ | dsimp only | split)))) | intro _ | dsimp only | split); done))
    | ((with_reducible apply Kept.iteR); case k => ((repeat' first | with_reducible exact Kept.refl _ | ((with_reducible apply Laws.State.autoSpare_kept); (case mhl => decide)) | with_reducible apply Kept.foldl | with_reducible apply Kept.foldlFst | with_reducible apply Kept.foldlSnd | with_reducible apply Kept.ite | (fail_if_no_progress ((with_reducible apply Kept.upd); (case ho => (refine Only.of (fun p hp => ?_) rfl; cases p <;> first | rfl | (refine absurd ?_ hp; decide))); (case hi => (repeat' first | with_reducible exact IoKept.refl _ | with_reducible apply IoKept.ite | with_reducible apply IoKept.foldl | with_reducible apply IoKept.put | with_reducible apply IoKept.filter | (fail_if_no_progress with_reducible apply IoKept.upd) | intro _ | dsimp only | split)); (case ht => (repeat' first | with_reducible exact T1Kept.refl _ | with_reducible apply T1Kept.ite | with_reducible apply T1Kept.foldl | with_reducible apply T1Kept.put | with_reducible apply T1Kept.filter | (fail_if_no_progress with_reducible apply T1Kept.upd) | intro _ | dsimp only | split)))) | intro _ | dsimp only | split); done))
    | with_reducible apply Kept.ite
    | with_reducible apply Kept.foldl
    | with_reducible apply Kept.foldlFst
    | with_reducible apply Kept.foldlSnd
    | (fail_if_no_progress ((with_reducible apply Kept.upd); (case ho => (refine Only.of (fun p hp => ?_) rfl; cases p <;> first | rfl | (refine absurd ?_ hp; decide))); (case hi => (repeat' first | with_reducible exact IoKept.refl _ | with_reducible apply IoKept.ite | with_reducible apply IoKept.foldl | with_reducible apply IoKept.put | with_reducible apply IoKept.filter | (fail_if_no_progress with_reducible apply IoKept.upd) | intro _ | dsimp only | split)); (case ht => (repeat' first | with_reducible exact T1Kept.refl _ | with_reducible apply T1Kept.ite | with_reducible apply T1Kept.foldl | with_reducible apply T1Kept.put | with_reducible apply T1Kept.filter | (fail_if_no_progress with_reducible apply T1Kept.upd) | intro _ | dsimp only | split))))
    | intro _
    | dsimp only
    | split
theorem State.checkPoison_kept {ml : List StateField} {mz : State} {s : State} (mhl : [.io, .yt, .t1, .shed, .prefetch, .stalls, .units, .ops, .mirrors, .redirects, .cp, .cpSlots, .contexts, .answers, .tallies, .textCache, .rounds, .svChanged, .net] ⊆ ml) (mh : Kept ml mz s) : Kept ml mz (State.checkPoison s) :=
  Kept.after ((State.checkPoison_frame s).mono mhl) mh

theorem State.tend_frame (s : State) (i : Nat) : Kept [.io, .yt, .t1, .shed, .prefetch, .stalls, .units, .ops, .mirrors, .redirects, .cp, .cpSlots, .contexts, .answers, .tallies, .textCache, .rounds, .svChanged, .net] s (State.tend s i) := by
  unfold State.tend
  try dsimp only
  repeat' first
    | with_reducible exact Kept.refl _
    | ((with_reducible apply Laws.State.checkPoison_kept); (case mhl => decide))
    | ((with_reducible apply Laws.State.healDirectory_kept); (case mhl => decide))
    | ((with_reducible apply Laws.State.heal_kept); (case mhl => decide))
    | ((with_reducible apply Laws.State.stopFor_kept); (case mhl => decide))
    | with_reducible apply Kept.ite
    | intro _
    | dsimp only
    | split
theorem State.tend_kept {ml : List StateField} {mz : State} {s : State} {i : Nat} (mhl : [.io, .yt, .t1, .shed, .prefetch, .stalls, .units, .ops, .mirrors, .redirects, .cp, .cpSlots, .contexts, .answers, .tallies, .textCache, .rounds, .svChanged, .net] ⊆ ml) (mh : Kept ml mz s) : Kept ml mz (State.tend s i) :=
  Kept.after ((State.tend_frame s i).mono mhl) mh

end Sys2Proof.Laws
end

