-- ==== Sys2Proof/Laws/KeptTearOps.lean ====
section
/-! SUPPORT. The frame lemma of every operation of Machine/TearOps.lean: which fields of the state it may change, and that it keeps the canonical
forms. -/

set_option Elab.async false
set_option linter.unusedTactic false
set_option linter.unreachableTactic false
set_option linter.unusedVariables false

namespace Sys2Proof.Laws

open Sys2Proof Sys2Proof.Machine Sys2Proof.Safety

theorem State.setSec_frame (s : State) (x : SecX) : Kept [.sec] s (State.setSec s x) := by
  unfold State.setSec
  try dsimp only
  repeat' first
    | with_reducible exact Kept.refl _
    | with_reducible apply Kept.ite
    | (fail_if_no_progress ((with_reducible apply Kept.upd); (case ho => (refine Only.of (fun p hp => ?_) rfl; cases p <;> first | rfl | (refine absurd ?_ hp; decide))); (case hi => exact IoKept.refl _); (case ht => exact T1Kept.refl _)))
    | intro _
    | dsimp only
    | split
theorem State.setSec_kept {ml : List StateField} {mz : State} {s : State} {x : SecX} (mhl : [.sec] ⊆ ml) (mh : Kept ml mz s) : Kept ml mz (State.setSec s x) :=
  Kept.after ((State.setSec_frame s x).mono mhl) mh

theorem State.eraseDomain_frame (s : State) (d : Nat) : Kept [.io, .sec] s (State.eraseDomain s d) := by
  unfold State.eraseDomain
  try dsimp only
  repeat' first
    | with_reducible exact Kept.refl _
    | ((with_reducible apply Laws.State.put_kept); (case mhl => decide))
    | ((with_reducible apply Laws.State.setReg_kept); (case mhl => decide))
    | ((with_reducible apply Laws.State.setSec_kept); (case mhl => decide))
    | with_reducible apply Kept.ite
    | (fail_if_no_progress ((with_reducible apply Kept.upd); (case ho => (refine Only.of (fun p hp => ?_) rfl; cases p <;> first | rfl | (refine absurd ?_ hp; decide))); (case hi => (repeat' first | with_reducible exact IoKept.refl _ | with_reducible apply Laws.Io.put_kept | with_reducible apply Laws.Io.setReg_kept | with_reducible apply IoKept.ite | with_reducible apply IoKept.foldl | with_reducible apply IoKept.put | with_reducible apply IoKept.filter | (fail_if_no_progress with_reducible apply IoKept.upd) | intro _ | dsimp only | split)); (case ht => exact T1Kept.refl _)))
    | intro _
    | dsimp only
    | split
theorem State.eraseDomain_kept {ml : List StateField} {mz : State} {s : State} {d : Nat} (mhl : [.io, .sec] ⊆ ml) (mh : Kept ml mz s) : Kept ml mz (State.eraseDomain s d) :=
  Kept.after ((State.eraseDomain_frame s d).mono mhl) mh

theorem State.eraseJob_frame (s : State) (k : Nat) : Kept [.io, .sec] s (State.eraseJob s k) := by
  unfold State.eraseJob
  try dsimp only
  repeat' first
    | with_reducible exact Kept.refl _
    | ((with_reducible apply Laws.State.setReg_kept); (case mhl => decide))
    | ((with_reducible apply Laws.State.setSec_kept); (case mhl => decide))
    | with_reducible apply Kept.ite
    | (fail_if_no_progress ((with_reducible apply Kept.upd); (case ho => (refine Only.of (fun p hp => ?_) rfl; cases p <;> first | rfl | (refine absurd ?_ hp; decide))); (case hi => (repeat' first | with_reducible exact IoKept.refl _ | with_reducible apply Laws.Io.setReg_kept | with_reducible apply IoKept.ite | with_reducible apply IoKept.foldl | with_reducible apply IoKept.put | with_reducible apply IoKept.filter | (fail_if_no_progress with_reducible apply IoKept.upd) | intro _ | dsimp only | split)); (case ht => exact T1Kept.refl _)))
    | intro _
    | dsimp only
    | split
theorem State.eraseJob_kept {ml : List StateField} {mz : State} {s : State} {k : Nat} (mhl : [.io, .sec] ⊆ ml) (mh : Kept ml mz s) : Kept ml mz (State.eraseJob s k) :=
  Kept.after ((State.eraseJob_frame s k).mono mhl) mh

theorem State.staleBand_frame (s : State) (p b : Nat) : Kept [.shed] s (State.staleBand s p b) := by
  unfold State.staleBand
  try dsimp only
  repeat' first
    | with_reducible exact Kept.refl _
    | ((with_reducible apply Laws.State.setShedPort_kept); (case mhl => decide))
    | with_reducible apply Kept.ite
    | (fail_if_no_progress ((with_reducible apply Kept.upd); (case ho => (refine Only.of (fun p hp => ?_) rfl; cases p <;> first | rfl | (refine absurd ?_ hp; decide))); (case hi => exact IoKept.refl _); (case ht => exact T1Kept.refl _)))
    | intro _
    | dsimp only
    | split
theorem State.staleBand_kept {ml : List StateField} {mz : State} {s : State} {p b : Nat} (mhl : [.shed] ⊆ ml) (mh : Kept ml mz s) : Kept ml mz (State.staleBand s p b) :=
  Kept.after ((State.staleBand_frame s p b).mono mhl) mh

theorem State.dropImports_frame (s : State) (f : ModelImport → Bool) : Kept [.shed, .sec] s (State.dropImports s f) := by
  unfold State.dropImports
  try dsimp only
  repeat' first
    | with_reducible exact Kept.refl _
    | ((with_reducible apply Laws.State.setSec_kept); (case mhl => decide))
    | ((with_reducible apply Laws.State.staleBand_kept); (case mhl => decide))
    | with_reducible apply Kept.ite
    | with_reducible apply Kept.foldl
    | with_reducible apply Kept.foldlFst
    | with_reducible apply Kept.foldlSnd
    | (fail_if_no_progress ((with_reducible apply Kept.upd); (case ho => (refine Only.of (fun p hp => ?_) rfl; cases p <;> first | rfl | (refine absurd ?_ hp; decide))); (case hi => exact IoKept.refl _); (case ht => exact T1Kept.refl _)))
    | intro _
    | dsimp only
    | split
theorem State.dropImports_kept {ml : List StateField} {mz : State} {s : State} {f : ModelImport → Bool} (mhl : [.shed, .sec] ⊆ ml) (mh : Kept ml mz s) : Kept ml mz (State.dropImports s f) :=
  Kept.after ((State.dropImports_frame s f).mono mhl) mh

theorem State.cancelCmd_frame (s : State) (c : Option Cmd) : Kept [.io, .answers] s (State.cancelCmd s c) := by
  unfold State.cancelCmd
  try dsimp only
  repeat' first
    | with_reducible exact Kept.refl _
    | ((with_reducible apply Laws.State.complete_kept); (case mhl => decide))
    | with_reducible apply Kept.ite
    | (fail_if_no_progress ((with_reducible apply Kept.upd); (case ho => (refine Only.of (fun p hp => ?_) rfl; cases p <;> first | rfl | (refine absurd ?_ hp; decide))); (case hi => (repeat' first | with_reducible exact IoKept.refl _ | with_reducible apply IoKept.ite | with_reducible apply IoKept.foldl | with_reducible apply IoKept.put | with_reducible apply IoKept.filter | (fail_if_no_progress with_reducible apply IoKept.upd) | intro _ | dsimp only | split)); (case ht => exact T1Kept.refl _)))
    | intro _
    | dsimp only
    | split
theorem State.cancelCmd_kept {ml : List StateField} {mz : State} {s : State} {c : Option Cmd} (mhl : [.io, .answers] ⊆ ml) (mh : Kept ml mz s) : Kept ml mz (State.cancelCmd s c) :=
  Kept.after ((State.cancelCmd_frame s c).mono mhl) mh

theorem State.calmStall_frame (s : State) (i : Nat) : Kept [.io, .t1, .shed, .stalls, .ops, .answers, .net] s (State.calmStall s i) := by
  unfold State.calmStall
  try dsimp only
  repeat' first
    | with_reducible exact Kept.refl _
    | ((with_reducible apply Laws.State.cancelSource_kept); (case mhl => decide))
    | ((with_reducible apply Laws.State.freeCopy_kept); (case mhl => decide))
    | ((with_reducible apply Laws.State.reviveAnswer_kept); (case mhl => decide))
    | ((with_reducible apply Laws.State.sendAbort_kept); (case mhl => decide))
    | ((with_reducible apply Laws.State.undoRevive_kept); (case mhl => decide))
    | with_reducible apply Kept.ite
    | (fail_if_no_progress ((with_reducible apply Kept.upd); (case ho => (refine Only.of (fun p hp => ?_) rfl; cases p <;> first | rfl | (refine absurd ?_ hp; decide))); (case hi => (repeat' first | with_reducible exact IoKept.refl _ | with_reducible apply IoKept.ite | with_reducible apply IoKept.foldl | with_reducible apply IoKept.put | with_reducible apply IoKept.filter | (fail_if_no_progress with_reducible apply IoKept.upd) | intro _ | dsimp only | split)); (case ht => (repeat' first | with_reducible exact T1Kept.refl _ | with_reducible apply T1Kept.ite | with_reducible apply T1Kept.foldl | with_reducible apply T1Kept.put | with_reducible apply T1Kept.filter | (fail_if_no_progress with_reducible apply T1Kept.upd) | intro _ | dsimp only | split))))
    | intro _
    | dsimp only
    | split
theorem State.calmStall_kept {ml : List StateField} {mz : State} {s : State} {i : Nat} (mhl : [.io, .t1, .shed, .stalls, .ops, .answers, .net] ⊆ ml) (mh : Kept ml mz s) : Kept ml mz (State.calmStall s i) :=
  Kept.after ((State.calmStall_frame s i).mono mhl) mh

theorem State.tearStall_frame (s : State) (keep : Bool) (i : Nat) : Kept [.io, .t1, .shed, .stalls, .ops, .answers, .net] s (State.tearStall s keep i) := by
  unfold State.tearStall
  try dsimp only
  repeat' first
    | with_reducible exact Kept.refl _
    | ((with_reducible apply Laws.State.abandonPark_kept); (case mhl => decide))
    | ((with_reducible apply Laws.State.calmStall_kept); (case mhl => decide))
    | ((with_reducible apply Laws.State.cancelCmd_kept); (case mhl => decide))
    | ((with_reducible apply Laws.State.dropRelocs_kept); (case mhl => decide))
    | ((with_reducible apply Laws.State.freeSlot_kept); (case mhl => decide))
    | ((with_reducible apply Laws.State.startPark_kept); (case mhl => decide))
    | ((with_reducible apply Kept.iteL); case k => ((repeat' first | with_reducible exact Kept.refl _ | ((with_reducible apply Laws.State.abandonPark_kept); (case mhl => decide)) | ((with_reducible apply Laws.State.calmStall_kept); (case mhl => decide)) | ((with_reducible apply Laws.State.cancelCmd_kept); (case mhl => decide)) | ((with_reducible apply Laws.State.dropRelocs_kept); (case mhl => decide)) | ((with_reducible apply Laws.State.freeSlot_kept); (case mhl => decide)) | ((with_reducible apply Laws.State.startPark_kept); (case mhl => decide)) | with_reducible apply Kept.ite | intro _ | dsimp only | split); done))
    | ((with_reducible apply Kept.iteR); case k => ((repeat' first | with_reducible exact Kept.refl _ | ((with_reducible apply Laws.State.abandonPark_kept); (case mhl => decide)) | ((with_reducible apply Laws.State.calmStall_kept); (case mhl => decide)) | ((with_reducible apply Laws.State.cancelCmd_kept); (case mhl => decide)) | ((with_reducible apply Laws.State.dropRelocs_kept); (case mhl => decide)) | ((with_reducible apply Laws.State.freeSlot_kept); (case mhl => decide)) | ((with_reducible apply Laws.State.startPark_kept); (case mhl => decide)) | with_reducible apply Kept.ite | intro _ | dsimp only | split); done))
    | with_reducible apply Kept.ite
    | intro _
    | dsimp only
    | split
theorem State.tearStall_kept {ml : List StateField} {mz : State} {s : State} {keep : Bool} {i : Nat} (mhl : [.io, .t1, .shed, .stalls, .ops, .answers, .net] ⊆ ml) (mh : Kept ml mz s) : Kept ml mz (State.tearStall s keep i) :=
  Kept.after ((State.tearStall_frame s keep i).mono mhl) mh

theorem State.sweepTenant_frame (s : State) (t : Nat) (keep : Bool) : Kept [.io, .t1, .units, .mirrors, .contexts, .answers, .tallies] s (State.sweepTenant s t keep) := by
  unfold State.sweepTenant
  try dsimp only
  repeat' first
    | with_reducible exact Kept.refl _
    | ((with_reducible apply Laws.State.cancelTally_kept); (case mhl => decide))
    | ((with_reducible apply Laws.State.dissolve_kept); (case mhl => decide))
    | ((with_reducible apply Laws.State.put_kept); (case mhl => decide))
    | ((with_reducible apply Laws.State.quarantineOwned_kept); (case mhl => decide))
    | with_reducible apply Kept.ite
    | with_reducible apply Kept.foldl
    | with_reducible apply Kept.foldlFst
    | with_reducible apply Kept.foldlSnd
    | (fail_if_no_progress ((with_reducible apply Kept.upd); (case ho => (refine Only.of (fun p hp => ?_) rfl; cases p <;> first | rfl | (refine absurd ?_ hp; decide))); (case hi => (repeat' first | with_reducible exact IoKept.refl _ | with_reducible apply Laws.Io.put_kept | with_reducible apply IoKept.ite | with_reducible apply IoKept.foldl | with_reducible apply IoKept.put | with_reducible apply IoKept.filter | (fail_if_no_progress with_reducible apply IoKept.upd) | intro _ | dsimp only | split)); (case ht => (repeat' first | with_reducible exact T1Kept.refl _ | with_reducible apply T1Kept.ite | with_reducible apply T1Kept.foldl | with_reducible apply T1Kept.put | with_reducible apply T1Kept.filter | (fail_if_no_progress with_reducible apply T1Kept.upd) | intro _ | dsimp only | split))))
    | intro _
    | dsimp only
    | split
theorem State.sweepTenant_kept {ml : List StateField} {mz : State} {s : State} {t : Nat} {keep : Bool} (mhl : [.io, .t1, .units, .mirrors, .contexts, .answers, .tallies] ⊆ ml) (mh : Kept ml mz s) : Kept ml mz (State.sweepTenant s t keep) :=
  Kept.after ((State.sweepTenant_frame s t keep).mono mhl) mh

theorem State.endTeardown_frame (s : State) (x : Teardown) : Kept [.io, .ops, .answers, .textCache, .sec, .tear] s (State.endTeardown s x) := by
  unfold State.endTeardown
  try dsimp only
  repeat' first
    | with_reducible exact Kept.refl _
    | ((with_reducible apply Laws.State.dropText_kept); (case mhl => decide))
    | ((with_reducible apply Laws.State.endOp_kept); (case mhl => decide))
    | ((with_reducible apply Laws.State.eraseDomain_kept); (case mhl => decide))
    | ((with_reducible apply Laws.State.eraseJob_kept); (case mhl => decide))
    | ((with_reducible apply Laws.State.put_kept); (case mhl => decide))
    | ((with_reducible apply Laws.State.raise_kept); (case mhl => decide))
    | ((with_reducible apply Laws.State.setReg_kept); (case mhl => decide))
    | ((with_reducible apply Laws.State.setSec_kept); (case mhl => decide))
    | with_reducible apply Kept.ite
    | with_reducible apply Kept.foldl
    | with_reducible apply Kept.foldlFst
    | with_reducible apply Kept.foldlSnd
    | (fail_if_no_progress ((with_reducible apply Kept.upd); (case ho => (refine Only.of (fun p hp => ?_) rfl; cases p <;> first | rfl | (refine absurd ?_ hp; decide))); (case hi => (repeat' first | with_reducible exact IoKept.refl _ | with_reducible apply Laws.Io.put_kept | with_reducible apply Laws.Io.raise_kept | with_reducible apply Laws.Io.setReg_kept | with_reducible apply IoKept.ite | with_reducible apply IoKept.foldl | with_reducible apply IoKept.put | with_reducible apply IoKept.filter | (fail_if_no_progress with_reducible apply IoKept.upd) | intro _ | dsimp only | split)); (case ht => exact T1Kept.refl _)))
    | intro _
    | dsimp only
    | split
theorem State.endTeardown_kept {ml : List StateField} {mz : State} {s : State} {x : Teardown} (mhl : [.io, .ops, .answers, .textCache, .sec, .tear] ⊆ ml) (mh : Kept ml mz s) : Kept ml mz (State.endTeardown s x) :=
  Kept.after ((State.endTeardown_frame s x).mono mhl) mh

theorem State.putTear_frame (s : State) (y : Teardown) : Kept [.tear] s (State.putTear s y) := by
  unfold State.putTear
  try dsimp only
  repeat' first
    | with_reducible exact Kept.refl _
    | with_reducible apply Kept.ite
    | (fail_if_no_progress ((with_reducible apply Kept.upd); (case ho => (refine Only.of (fun p hp => ?_) rfl; cases p <;> first | rfl | (refine absurd ?_ hp; decide))); (case hi => exact IoKept.refl _); (case ht => exact T1Kept.refl _)))
    | intro _
    | dsimp only
    | split
theorem State.putTear_kept {ml : List StateField} {mz : State} {s : State} {y : Teardown} (mhl : [.tear] ⊆ ml) (mh : Kept ml mz s) : Kept ml mz (State.putTear s y) :=
  Kept.after ((State.putTear_frame s y).mono mhl) mh

theorem State.advanceTeardown_frame (s : State) (x : Teardown) : Kept [.io, .t1, .shed, .stalls, .units, .ops, .mirrors, .contexts, .answers, .tallies, .textCache, .net, .sec, .tear] s (State.advanceTeardown s x) := by
  unfold State.advanceTeardown
  try dsimp only
  repeat' first
    | with_reducible exact Kept.refl _
    | ((with_reducible apply Laws.State.endTeardown_kept); (case mhl => decide))
    | ((with_reducible apply Laws.State.putTear_kept); (case mhl => decide))
    | ((with_reducible apply Laws.State.sweepTenant_kept); (case mhl => decide))
    | ((with_reducible apply Laws.State.tearStall_kept); (case mhl => decide))
    | ((with_reducible apply Kept.iteL); case k => ((repeat' first | with_reducible exact Kept.refl _ | ((with_reducible apply Laws.State.endTeardown_kept); (case mhl => decide)) | ((with_reducible apply Laws.State.putTear_kept); (case mhl => decide)) | ((with_reducible apply Laws.State.sweepTenant_kept); (case mhl => decide)) | ((with_reducible apply Laws.State.tearStall_kept); (case mhl => decide)) | with_reducible apply Kept.foldl | with_reducible apply Kept.foldlFst | with_reducible apply Kept.foldlSnd | with_reducible apply Kept.ite | (fail_if_no_progress ((with_reducible apply Kept.upd); (case ho => (refine Only.of (fun p hp => ?_) rfl; cases p <;> first | rfl | (refine absurd ?_ hp; decide))); (case hi => (repeat' first | with_reducible exact IoKept.refl _ | with_reducible apply IoKept.ite | with_reducible apply IoKept.foldl | with_reducible apply IoKept.put | with_reducible apply IoKept.filter | (fail_if_no_progress with_reducible apply IoKept.upd) | intro _ | dsimp only | split)); (case ht => (repeat' first | with_reducible exact T1Kept.refl _ | with_reducible apply T1Kept.ite | with_reducible apply T1Kept.foldl | with_reducible apply T1Kept.put | with_reducible apply T1Kept.filter | (fail_if_no_progress with_reducible apply T1Kept.upd) | intro _ | dsimp only | split)))) | intro _ | dsimp only | split); done))
    | ((with_reducible apply Kept.iteR); case k => ((repeat' first | with_reducible exact Kept.refl _ | ((with_reducible apply Laws.State.endTeardown_kept); (case mhl => decide)) | ((with_reducible apply Laws.State.putTear_kept); (case mhl => decide)) | ((with_reducible apply Laws.State.sweepTenant_kept); (case mhl => decide)) | ((with_reducible apply Laws.State.tearStall_kept); (case mhl => decide)) | with_reducible apply Kept.foldl | with_reducible apply Kept.foldlFst | with_reducible apply Kept.foldlSnd | with_reducible apply Kept.ite | (fail_if_no_progress ((with_reducible apply Kept.upd); (case ho => (refine Only.of (fun p hp => ?_) rfl; cases p <;> first | rfl | (refine absurd ?_ hp; decide))); (case hi => (repeat' first | with_reducible exact IoKept.refl _ | with_reducible apply IoKept.ite | with_reducible apply IoKept.foldl | with_reducible apply IoKept.put | with_reducible apply IoKept.filter | (fail_if_no_progress with_reducible apply IoKept.upd) | intro _ | dsimp only | split)); (case ht => (repeat' first | with_reducible exact T1Kept.refl _ | with_reducible apply T1Kept.ite | with_reducible apply T1Kept.foldl | with_reducible apply T1Kept.put | with_reducible apply T1Kept.filter | (fail_if_no_progress with_reducible apply T1Kept.upd) | intro _ | dsimp only | split)))) | intro _ | dsimp only | split); done))
    | with_reducible apply Kept.ite
    | with_reducible apply Kept.foldl
    | with_reducible apply Kept.foldlFst
    | with_reducible apply Kept.foldlSnd
    | (fail_if_no_progress ((with_reducible apply Kept.upd); (case ho => (refine Only.of (fun p hp => ?_) rfl; cases p <;> first | rfl | (refine absurd ?_ hp; decide))); (case hi => (repeat' first | with_reducible exact IoKept.refl _ | with_reducible apply IoKept.ite | with_reducible apply IoKept.foldl | with_reducible apply IoKept.put | with_reducible apply IoKept.filter | (fail_if_no_progress with_reducible apply IoKept.upd) | intro _ | dsimp only | split)); (case ht => (repeat' first | with_reducible exact T1Kept.refl _ | with_reducible apply T1Kept.ite | with_reducible apply T1Kept.foldl | with_reducible apply T1Kept.put | with_reducible apply T1Kept.filter | (fail_if_no_progress with_reducible apply T1Kept.upd) | intro _ | dsimp only | split))))
    | intro _
    | dsimp only
    | split
theorem State.advanceTeardown_kept {ml : List StateField} {mz : State} {s : State} {x : Teardown} (mhl : [.io, .t1, .shed, .stalls, .units, .ops, .mirrors, .contexts, .answers, .tallies, .textCache, .net, .sec, .tear] ⊆ ml) (mh : Kept ml mz s) : Kept ml mz (State.advanceTeardown s x) :=
  Kept.after ((State.advanceTeardown_frame s x).mono mhl) mh

theorem State.advanceTeardowns_frame (s : State) : Kept [.io, .t1, .shed, .stalls, .units, .ops, .mirrors, .contexts, .answers, .tallies, .textCache, .net, .sec, .tear] s (State.advanceTeardowns s) := by
  unfold State.advanceTeardowns
  try dsimp only
  repeat' first
    | with_reducible exact Kept.refl _
    | ((with_reducible apply Laws.State.advanceTeardown_kept); (case mhl => decide))
    | with_reducible apply Kept.ite
    | with_reducible apply Kept.foldl
    | with_reducible apply Kept.foldlFst
    | with_reducible apply Kept.foldlSnd
    | intro _
    | dsimp only
    | split
theorem State.advanceTeardowns_kept {ml : List StateField} {mz : State} {s : State} (mhl : [.io, .t1, .shed, .stalls, .units, .ops, .mirrors, .contexts, .answers, .tallies, .textCache, .net, .sec, .tear] ⊆ ml) (mh : Kept ml mz s) : Kept ml mz (State.advanceTeardowns s) :=
  Kept.after ((State.advanceTeardowns_frame s).mono mhl) mh

theorem State.beginTeardown_frame (s : State) (op t : Nat) (keep : Bool) : Kept [.io, .t1, .shed, .stalls, .units, .ops, .mirrors, .contexts, .answers, .windows, .tallies, .aisle, .textCache, .rounds, .net, .sec, .tear] s (State.beginTeardown s op t keep) := by
  unfold State.beginTeardown
  try dsimp only
  repeat' first
    | with_reducible exact Kept.refl _
    | ((with_reducible apply Laws.State.abandonStep_kept); (case mhl => decide))
    | ((with_reducible apply Laws.State.advanceTeardown_kept); (case mhl => decide))
    | ((with_reducible apply Laws.State.answerHub_kept); (case mhl => decide))
    | ((with_reducible apply Laws.State.freeContext_kept); (case mhl => decide))
    | ((with_reducible apply Laws.State.put_kept); (case mhl => decide))
    | ((with_reducible apply Laws.State.stopContext_kept); (case mhl => decide))
    | with_reducible apply Kept.ite
    | with_reducible apply Kept.foldl
    | with_reducible apply Kept.foldlFst
    | with_reducible apply Kept.foldlSnd
    | (fail_if_no_progress ((with_reducible apply Kept.upd); (case ho => (refine Only.of (fun p hp => ?_) rfl; cases p <;> first | rfl | (refine absurd ?_ hp; decide))); (case hi => (repeat' first | with_reducible exact IoKept.refl _ | with_reducible apply Laws.Io.put_kept | with_reducible apply IoKept.ite | with_reducible apply IoKept.foldl | with_reducible apply IoKept.put | with_reducible apply IoKept.filter | (fail_if_no_progress with_reducible apply IoKept.upd) | intro _ | dsimp only | split)); (case ht => (repeat' first | with_reducible exact T1Kept.refl _ | with_reducible apply Laws.Tier1.free_kept | with_reducible apply T1Kept.ite | with_reducible apply T1Kept.foldl | with_reducible apply T1Kept.put | with_reducible apply T1Kept.filter | (fail_if_no_progress with_reducible apply T1Kept.upd) | intro _ | dsimp only | split))))
    | intro _
    | dsimp only
    | split
theorem State.beginTeardown_kept {ml : List StateField} {mz : State} {s : State} {op t : Nat} {keep : Bool} (mhl : [.io, .t1, .shed, .stalls, .units, .ops, .mirrors, .contexts, .answers, .windows, .tallies, .aisle, .textCache, .rounds, .net, .sec, .tear] ⊆ ml) (mh : Kept ml mz s) : Kept ml mz (State.beginTeardown s op t keep) :=
  Kept.after ((State.beginTeardown_frame s op t keep).mono mhl) mh

end Sys2Proof.Laws
end

