-- ==== Sys2Proof/Laws/KeptVsOps.lean ====
section
/-! SUPPORT. The frame lemma of every operation of Machine/VsOps.lean: which fields of the state it may change, and that it keeps the canonical
forms. -/

set_option Elab.async false
set_option linter.unusedTactic false
set_option linter.unreachableTactic false
set_option linter.unusedVariables false

namespace Sys2Proof.Laws

open Sys2Proof Sys2Proof.Machine Sys2Proof.Safety

theorem State.setVsRoot_frame (s : State) (i : Nat) (r : VsRoot) : Kept [.t1] s (State.setVsRoot s i r) := by
  unfold State.setVsRoot
  try dsimp only
  repeat' first
    | with_reducible exact Kept.refl _
    | ((with_reducible apply Laws.State.writeT1_kept); (case mhl => decide))
    | with_reducible apply Kept.ite
    | intro _
    | dsimp only
    | split
theorem State.setVsRoot_kept {ml : List StateField} {mz : State} {s : State} {i : Nat} {r : VsRoot} (mhl : [.t1] ⊆ ml) (mh : Kept ml mz s) : Kept ml mz (State.setVsRoot s i r) :=
  Kept.after ((State.setVsRoot_frame s i r).mono mhl) mh

theorem State.autoMerge_frame (s : State) (i : Nat) : Kept [.ops] s (State.autoMerge s i) := by
  unfold State.autoMerge
  try dsimp only
  repeat' first
    | with_reducible exact Kept.refl _
    | ((with_reducible apply Laws.State.newOpFor_kept ?mhl (by assumption)); (case mhl => decide))
    | with_reducible apply Kept.ite
    | (fail_if_no_progress ((with_reducible apply Kept.upd); (case ho => (refine Only.of (fun p hp => ?_) rfl; cases p <;> first | rfl | (refine absurd ?_ hp; decide))); (case hi => exact IoKept.refl _); (case ht => exact T1Kept.refl _)))
    | intro _
    | dsimp only
    | split
theorem State.autoMerge_kept {ml : List StateField} {mz : State} {s : State} {i : Nat} (mhl : [.ops] ⊆ ml) (mh : Kept ml mz s) : Kept ml mz (State.autoMerge s i) :=
  Kept.after ((State.autoMerge_frame s i).mono mhl) mh

theorem State.autoMerges_frame (s : State) : Kept [.ops] s (State.autoMerges s) := by
  unfold State.autoMerges
  try dsimp only
  repeat' first
    | with_reducible exact Kept.refl _
    | ((with_reducible apply Laws.State.autoMerge_kept); (case mhl => decide))
    | with_reducible apply Kept.ite
    | with_reducible apply Kept.foldl
    | with_reducible apply Kept.foldlFst
    | with_reducible apply Kept.foldlSnd
    | intro _
    | dsimp only
    | split
theorem State.autoMerges_kept {ml : List StateField} {mz : State} {s : State} (mhl : [.ops] ⊆ ml) (mh : Kept ml mz s) : Kept ml mz (State.autoMerges s) :=
  Kept.after ((State.autoMerges_frame s).mono mhl) mh

theorem State.endMerge_frame (s : State) (slot : Nat) (st : OpState) (status : Nat) : Kept [.io, .t1, .stalls, .ops, .answers] s (State.endMerge s slot st status) := by
  unfold State.endMerge
  try dsimp only
  repeat' first
    | with_reducible exact Kept.refl _
    | ((with_reducible apply Laws.State.autoMerge_kept); (case mhl => decide))
    | ((with_reducible apply Laws.State.endOp_kept); (case mhl => decide))
    | ((with_reducible apply Laws.State.releasePages_kept); (case mhl => decide))
    | with_reducible apply Kept.ite
    | (fail_if_no_progress ((with_reducible apply Kept.upd); (case ho => (refine Only.of (fun p hp => ?_) rfl; cases p <;> first | rfl | (refine absurd ?_ hp; decide))); (case hi => (repeat' first | with_reducible exact IoKept.refl _ | with_reducible apply IoKept.ite | with_reducible apply IoKept.foldl | with_reducible apply IoKept.put | with_reducible apply IoKept.filter | (fail_if_no_progress with_reducible apply IoKept.upd) | intro _ | dsimp only | split)); (case ht => (repeat' first | with_reducible exact T1Kept.refl _ | with_reducible apply T1Kept.ite | with_reducible apply T1Kept.foldl | with_reducible apply T1Kept.put | with_reducible apply T1Kept.filter | (fail_if_no_progress with_reducible apply T1Kept.upd) | intro _ | dsimp only | split))))
    | intro _
    | dsimp only
    | split
theorem State.endMerge_kept {ml : List StateField} {mz : State} {s : State} {slot : Nat} {st : OpState} {status : Nat} (mhl : [.io, .t1, .stalls, .ops, .answers] ⊆ ml) (mh : Kept ml mz s) : Kept ml mz (State.endMerge s slot st status) :=
  Kept.after ((State.endMerge_frame s slot st status).mono mhl) mh

end Sys2Proof.Laws
end

