-- ==== Sys2Proof/Laws/KeptLongOps.lean ====
section
/-! SUPPORT. The frame lemma of every operation of Machine/LongOps.lean: which fields of the state it may change, and that it keeps the canonical
forms. -/

set_option Elab.async false
set_option linter.unusedTactic false
set_option linter.unreachableTactic false
set_option linter.unusedVariables false

namespace Sys2Proof.Laws

open Sys2Proof Sys2Proof.Machine Sys2Proof.Safety

theorem State.endTest_frame (s : State) (slot : Nat) (st : OpState) (status : Nat) : Kept [.io, .ops, .answers, .tests] s (State.endTest s slot st status) := by
  unfold State.endTest
  try dsimp only
  repeat' first
    | with_reducible exact Kept.refl _
    | ((with_reducible apply Laws.State.endOp_kept); (case mhl => decide))
    | with_reducible apply Kept.ite
    | (fail_if_no_progress ((with_reducible apply Kept.upd); (case ho => (refine Only.of (fun p hp => ?_) rfl; cases p <;> first | rfl | (refine absurd ?_ hp; decide))); (case hi => (repeat' first | with_reducible exact IoKept.refl _ | with_reducible apply IoKept.ite | with_reducible apply IoKept.foldl | with_reducible apply IoKept.put | with_reducible apply IoKept.filter | (fail_if_no_progress with_reducible apply IoKept.upd) | intro _ | dsimp only | split)); (case ht => exact T1Kept.refl _)))
    | intro _
    | dsimp only
    | split
theorem State.endTest_kept {ml : List StateField} {mz : State} {s : State} {slot : Nat} {st : OpState} {status : Nat} (mhl : [.io, .ops, .answers, .tests] ⊆ ml) (mh : Kept ml mz s) : Kept ml mz (State.endTest s slot st status) :=
  Kept.after ((State.endTest_frame s slot st status).mono mhl) mh

theorem State.opSuspended_frame (s : State) (slot : Nat) : Kept [.io, .t1, .shed, .stalls, .units, .ops, .mirrors, .cp, .cpSlots, .contexts, .answers, .tallies, .textCache, .rounds, .net, .allocStopped] s (State.opSuspended s slot) := by
  unfold State.opSuspended
  try dsimp only
  repeat' first
    | with_reducible exact Kept.refl _
    | ((with_reducible apply Laws.State.haltCheckpoint_kept); (case mhl => decide))
    | ((with_reducible apply Laws.State.pauseTransfer_kept); (case mhl => decide))
    | with_reducible apply Kept.ite
    | (fail_if_no_progress ((with_reducible apply Kept.upd); (case ho => (refine Only.of (fun p hp => ?_) rfl; cases p <;> first | rfl | (refine absurd ?_ hp; decide))); (case hi => (repeat' first | with_reducible exact IoKept.refl _ | with_reducible apply IoKept.ite | with_reducible apply IoKept.foldl | with_reducible apply IoKept.put | with_reducible apply IoKept.filter | (fail_if_no_progress with_reducible apply IoKept.upd) | intro _ | dsimp only | split)); (case ht => (repeat' first | with_reducible exact T1Kept.refl _ | with_reducible apply T1Kept.ite | with_reducible apply T1Kept.foldl | with_reducible apply T1Kept.put | with_reducible apply T1Kept.filter | (fail_if_no_progress with_reducible apply T1Kept.upd) | intro _ | dsimp only | split))))
    | intro _
    | dsimp only
    | split
theorem State.opSuspended_kept {ml : List StateField} {mz : State} {s : State} {slot : Nat} (mhl : [.io, .t1, .shed, .stalls, .units, .ops, .mirrors, .cp, .cpSlots, .contexts, .answers, .tallies, .textCache, .rounds, .net, .allocStopped] ⊆ ml) (mh : Kept ml mz s) : Kept ml mz (State.opSuspended s slot) :=
  Kept.after ((State.opSuspended_frame s slot).mono mhl) mh

theorem State.migResumed_frame (s : State) (slot : Nat) : Kept [.io, .t1, .shed, .stalls, .ops, .answers, .textCache, .net] s (State.migResumed s slot) := by
  unfold State.migResumed
  try dsimp only
  repeat' first
    | with_reducible exact Kept.refl _
    | ((with_reducible apply Laws.State.doMigrate_kept); (case mhl => decide))
    | ((with_reducible apply Laws.State.resumeTransfer_kept); (case mhl => decide))
    | ((with_reducible apply Laws.State.sendCommit_kept); (case mhl => decide))
    | ((with_reducible apply Laws.State.sendDevice_kept); (case mhl => decide))
    | ((with_reducible apply Laws.State.setStall_kept); (case mhl => decide))
    | ((with_reducible apply Kept.iteL); case k => ((repeat' first | with_reducible exact Kept.refl _ | ((with_reducible apply Laws.State.doMigrate_kept); (case mhl => decide)) | ((with_reducible apply Laws.State.resumeTransfer_kept); (case mhl => decide)) | ((with_reducible apply Laws.State.sendCommit_kept); (case mhl => decide)) | ((with_reducible apply Laws.State.sendDevice_kept); (case mhl => decide)) | ((with_reducible apply Laws.State.setStall_kept); (case mhl => decide)) | with_reducible apply Kept.ite | (fail_if_no_progress ((with_reducible apply Kept.upd); (case ho => (refine Only.of (fun p hp => ?_) rfl; cases p <;> first | rfl | (refine absurd ?_ hp; decide))); (case hi => (repeat' first | with_reducible exact IoKept.refl _ | with_reducible apply IoKept.ite | with_reducible apply IoKept.foldl | with_reducible apply IoKept.put | with_reducible apply IoKept.filter | (fail_if_no_progress with_reducible apply IoKept.upd) | intro _ | dsimp only | split)); (case ht => (repeat' first | with_reducible exact T1Kept.refl _ | with_reducible apply T1Kept.ite | with_reducible apply T1Kept.foldl | with_reducible apply T1Kept.put | with_reducible apply T1Kept.filter | (fail_if_no_progress with_reducible apply T1Kept.upd) | intro _ | dsimp only | split)))) | intro _ | dsimp only | split); done))
    | ((with_reducible apply Kept.iteR); case k => ((repeat' first | with_reducible exact Kept.refl _ | ((with_reducible apply Laws.State.doMigrate_kept); (case mhl => decide)) | ((with_reducible apply Laws.State.resumeTransfer_kept); (case mhl => decide)) | ((with_reducible apply Laws.State.sendCommit_kept); (case mhl => decide)) | ((with_reducible apply Laws.State.sendDevice_kept); (case mhl => decide)) | ((with_reducible apply Laws.State.setStall_kept); (case mhl => decide)) | with_reducible apply Kept.ite | (fail_if_no_progress ((with_reducible apply Kept.upd); (case ho => (refine Only.of (fun p hp => ?_) rfl; cases p <;> first | rfl | (refine absurd ?_ hp; decide))); (case hi => (repeat' first | with_reducible exact IoKept.refl _ | with_reducible apply IoKept.ite | with_reducible apply IoKept.foldl | with_reducible apply IoKept.put | with_reducible apply IoKept.filter | (fail_if_no_progress with_reducible apply IoKept.upd) | intro _ | dsimp only | split)); (case ht => (repeat' first | with_reducible exact T1Kept.refl _ | with_reducible apply T1Kept.ite | with_reducible apply T1Kept.foldl | with_reducible apply T1Kept.put | with_reducible apply T1Kept.filter | (fail_if_no_progress with_reducible apply T1Kept.upd) | intro _ | dsimp only | split)))) | intro _ | dsimp only | split); done))
    | with_reducible apply Kept.ite
    | (fail_if_no_progress ((with_reducible apply Kept.upd); (case ho => (refine Only.of (fun p hp => ?_) rfl; cases p <;> first | rfl | (refine absurd ?_ hp; decide))); (case hi => (repeat' first | with_reducible exact IoKept.refl _ | with_reducible apply IoKept.ite | with_reducible apply IoKept.foldl | with_reducible apply IoKept.put | with_reducible apply IoKept.filter | (fail_if_no_progress with_reducible apply IoKept.upd) | intro _ | dsimp only | split)); (case ht => (repeat' first | with_reducible exact T1Kept.refl _ | with_reducible apply T1Kept.ite | with_reducible apply T1Kept.foldl | with_reducible apply T1Kept.put | with_reducible apply T1Kept.filter | (fail_if_no_progress with_reducible apply T1Kept.upd) | intro _ | dsimp only | split))))
    | intro _
    | dsimp only
    | split
theorem State.migResumed_kept {ml : List StateField} {mz : State} {s : State} {slot : Nat} (mhl : [.io, .t1, .shed, .stalls, .ops, .answers, .textCache, .net] ⊆ ml) (mh : Kept ml mz s) : Kept ml mz (State.migResumed s slot) :=
  Kept.after ((State.migResumed_frame s slot).mono mhl) mh

theorem State.opResumed_frame (s : State) (slot : Nat) : Kept [.io, .yt, .t1, .shed, .stalls, .ops, .cp, .answers, .textCache, .net, .allocStopped] s (State.opResumed s slot) := by
  unfold State.opResumed
  try dsimp only
  repeat' first
    | with_reducible exact Kept.refl _
    | ((with_reducible apply Laws.State.beginCheckpoint_kept); (case mhl => decide))
    | ((with_reducible apply Laws.State.migResumed_kept); (case mhl => decide))
    | with_reducible apply Kept.ite
    | (fail_if_no_progress ((with_reducible apply Kept.upd); (case ho => (refine Only.of (fun p hp => ?_) rfl; cases p <;> first | rfl | (refine absurd ?_ hp; decide))); (case hi => (repeat' first | with_reducible exact IoKept.refl _ | with_reducible apply IoKept.ite | with_reducible apply IoKept.foldl | with_reducible apply IoKept.put | with_reducible apply IoKept.filter | (fail_if_no_progress with_reducible apply IoKept.upd) | intro _ | dsimp only | split)); (case ht => (repeat' first | with_reducible exact T1Kept.refl _ | with_reducible apply T1Kept.ite | with_reducible apply T1Kept.foldl | with_reducible apply T1Kept.put | with_reducible apply T1Kept.filter | (fail_if_no_progress with_reducible apply T1Kept.upd) | intro _ | dsimp only | split))))
    | intro _
    | dsimp only
    | split
theorem State.opResumed_kept {ml : List StateField} {mz : State} {s : State} {slot : Nat} (mhl : [.io, .yt, .t1, .shed, .stalls, .ops, .cp, .answers, .textCache, .net, .allocStopped] ⊆ ml) (mh : Kept ml mz s) : Kept ml mz (State.opResumed s slot) :=
  Kept.after ((State.opResumed_frame s slot).mono mhl) mh

theorem State.cancelOp_frame (s : State) (slot : Nat) : Kept [.io, .t1, .shed, .stalls, .units, .ops, .mirrors, .cp, .cpSlots, .contexts, .answers, .tallies, .textCache, .rounds, .net, .sec, .tests, .allocStopped] s (State.cancelOp s slot) := by
  unfold State.cancelOp
  try dsimp only
  repeat' first
    | with_reducible exact Kept.refl _
    | ((with_reducible apply Laws.State.cancelSource_kept); (case mhl => decide))
    | ((with_reducible apply Laws.State.dropCheckpoint_kept); (case mhl => decide))
    | ((with_reducible apply Laws.State.dropImports_kept); (case mhl => decide))
    | ((with_reducible apply Laws.State.dropSparing_kept); (case mhl => decide))
    | ((with_reducible apply Laws.State.endMerge_kept); (case mhl => decide))
    | ((with_reducible apply Laws.State.endOp_kept); (case mhl => decide))
    | ((with_reducible apply Laws.State.endTest_kept); (case mhl => decide))
    | ((with_reducible apply Laws.State.sendAbort_kept); (case mhl => decide))
    | ((with_reducible apply Laws.State.setStall_kept); (case mhl => decide))
    | with_reducible apply Kept.ite
    | with_reducible apply Kept.getD
    | (fail_if_no_progress ((with_reducible apply Kept.upd); (case ho => (refine Only.of (fun p hp => ?_) rfl; cases p <;> first | rfl | (refine absurd ?_ hp; decide))); (case hi => (repeat' first | with_reducible exact IoKept.refl _ | with_reducible apply IoKept.ite | with_reducible apply IoKept.foldl | with_reducible apply IoKept.put | with_reducible apply IoKept.filter | (fail_if_no_progress with_reducible apply IoKept.upd) | intro _ | dsimp only | split)); (case ht => (repeat' first | with_reducible exact T1Kept.refl _ | with_reducible apply T1Kept.ite | with_reducible apply T1Kept.foldl | with_reducible apply T1Kept.put | with_reducible apply T1Kept.filter | (fail_if_no_progress with_reducible apply T1Kept.upd) | intro _ | dsimp only | split))))
    | intro _
    | dsimp only
    | split
theorem State.cancelOp_kept {ml : List StateField} {mz : State} {s : State} {slot : Nat} (mhl : [.io, .t1, .shed, .stalls, .units, .ops, .mirrors, .cp, .cpSlots, .contexts, .answers, .tallies, .textCache, .rounds, .net, .sec, .tests, .allocStopped] ⊆ ml) (mh : Kept ml mz s) : Kept ml mz (State.cancelOp s slot) :=
  Kept.after ((State.cancelOp_frame s slot).mono mhl) mh

end Sys2Proof.Laws
end

