-- ==== Sys2Proof/Laws/KeptHost.lean ====
section
/-! SUPPORT. The frame lemma of every operation of Machine/Host.lean: which fields of the state it may change, and that it keeps the canonical
forms. -/

set_option Elab.async false
set_option linter.unusedTactic false
set_option linter.unreachableTactic false
set_option linter.unusedVariables false

namespace Sys2Proof.Laws

open Sys2Proof Sys2Proof.Machine Sys2Proof.Safety

theorem execNop_kept (c : Cmd) (s : State) : ∃ out, execNop c s = .next out ∧ Kept [.io, .answers] s out := by
  unfold execNop
  try dsimp only
  refine ⟨_, rfl, ?_⟩
  try dsimp only
  repeat' first
    | with_reducible exact Kept.refl _
    | ((with_reducible apply Laws.State.complete_kept); (case mhl => decide))
    | ((with_reducible apply Laws.State.runCmd_kept); (case mhl => decide))
    | with_reducible apply Kept.ite
    | intro _
    | dsimp only
    | split

theorem State.opCmd_kept {ml : List StateField} {mz : State} {s : State} {c : Cmd} {body : Nat → State → State} (mhl : [.io, .answers] ⊆ ml) (hbody : ∀ a0 a1, Kept ml a1 (body a0 a1)) (mh : Kept ml mz s) : Kept ml mz (State.opCmd s c body) := by
  refine Kept.after ?_ mh
  unfold State.opCmd
  try dsimp only
  repeat' first
    | with_reducible exact Kept.refl _
    | (with_reducible apply Kept.after (hbody _ _))
    | ((with_reducible apply Laws.State.complete_kept); (case mhl => first | decide | (refine sub mhl ?_; decide)))
    | ((with_reducible apply Laws.State.runCmd_kept); (case mhl => first | decide | (refine sub mhl ?_; decide)))
    | with_reducible apply Kept.ite
    | (fail_if_no_progress ((with_reducible apply Kept.upd); (case ho => (refine Only.of (fun p hp => ?_) rfl; cases p <;> first | rfl | (refine absurd (mhl ?_) hp; decide))); (case hi => (repeat' first | with_reducible exact IoKept.refl _ | with_reducible apply IoKept.ite | with_reducible apply IoKept.foldl | with_reducible apply IoKept.put | with_reducible apply IoKept.filter | (fail_if_no_progress with_reducible apply IoKept.upd) | intro _ | dsimp only | split)); (case ht => exact T1Kept.refl _)))
    | intro _
    | dsimp only
    | split

theorem State.opRefuses_frame (s : State) (c : Cmd) (slot : Nat) : Kept [.io, .answers] s (State.opRefuses s c slot) := by
  unfold State.opRefuses
  try dsimp only
  repeat' first
    | with_reducible exact Kept.refl _
    | ((with_reducible apply Laws.State.complete_kept); (case mhl => decide))
    | with_reducible apply Kept.ite
    | intro _
    | dsimp only
    | split
theorem State.opRefuses_kept {ml : List StateField} {mz : State} {s : State} {c : Cmd} {slot : Nat} (mhl : [.io, .answers] ⊆ ml) (mh : Kept ml mz s) : Kept ml mz (State.opRefuses s c slot) :=
  Kept.after ((State.opRefuses_frame s c slot).mono mhl) mh

theorem State.opProgress_frame (s : State) (slot : Nat) : Kept [.freeIdx] s (State.opProgress s slot).2 := by
  unfold State.opProgress
  try dsimp only
  repeat' first
    | with_reducible exact Kept.refl _
    | ((with_reducible apply Laws.State.drawFree_kept' ?mhl (by assumption)); (case mhl => decide))
    | ((with_reducible apply Laws.State.drawFree_kept); (case mhl => decide))
    | with_reducible apply Kept.ite
    | intro _
    | dsimp only
    | split
theorem State.opProgress_kept {ml : List StateField} {mz : State} {s : State} {slot : Nat} (mhl : [.freeIdx] ⊆ ml) (mh : Kept ml mz s) : Kept ml mz (State.opProgress s slot).2 :=
  Kept.after ((State.opProgress_frame s slot).mono mhl) mh
theorem State.opProgress_kept' {ml : List StateField} {mz : State} {s : State} {slot : Nat} {v0 : Nat} {v1 : State} (mhl : [.freeIdx] ⊆ ml) (me : State.opProgress s slot = (v0, v1)) (mh : Kept ml mz s) : Kept ml mz v1 := by
  have mk := Kept.after ((State.opProgress_frame s slot).mono mhl) mh
  rw [me] at mk
  exact mk

theorem execOpQuery_kept (c : Cmd) (s : State) : ∃ out, execOpQuery c s = .next out ∧ Kept [.io, .answers, .freeIdx] s out := by
  unfold execOpQuery
  try dsimp only
  refine ⟨_, rfl, ?_⟩
  try dsimp only
  repeat' first
    | with_reducible exact Kept.refl _
    | ((with_reducible apply Laws.State.complete_kept); (case mhl => decide))
    | ((with_reducible apply Laws.State.opCmd_kept); (case mhl => decide))
    | ((with_reducible apply Laws.State.opProgress_kept' ?mhl (by assumption)); (case mhl => decide))
    | ((with_reducible apply Laws.State.opProgress_kept); (case mhl => decide))
    | with_reducible apply Kept.ite
    | intro _
    | dsimp only
    | split

theorem execOpSuspend_kept (c : Cmd) (s : State) : ∃ out, execOpSuspend c s = .next out ∧ Kept [.io, .ops, .answers] s out := by
  unfold execOpSuspend
  try dsimp only
  refine ⟨_, rfl, ?_⟩
  try dsimp only
  repeat' first
    | with_reducible exact Kept.refl _
    | ((with_reducible apply Laws.State.complete_kept); (case mhl => decide))
    | ((with_reducible apply Laws.State.moveOp_kept); (case mhl => decide))
    | ((with_reducible apply Laws.State.opCmd_kept); (case mhl => decide))
    | ((with_reducible apply Laws.State.opRefuses_kept); (case mhl => decide))
    | ((with_reducible apply Laws.State.setOp_kept); (case mhl => decide))
    | ((with_reducible apply Kept.iteL); case k => ((repeat' first | with_reducible exact Kept.refl _ | ((with_reducible apply Laws.State.complete_kept); (case mhl => decide)) | ((with_reducible apply Laws.State.moveOp_kept); (case mhl => decide)) | ((with_reducible apply Laws.State.opCmd_kept); (case mhl => decide)) | ((with_reducible apply Laws.State.opRefuses_kept); (case mhl => decide)) | ((with_reducible apply Laws.State.setOp_kept); (case mhl => decide)) | with_reducible apply Kept.ite | (fail_if_no_progress ((with_reducible apply Kept.upd); (case ho => (refine Only.of (fun p hp => ?_) rfl; cases p <;> first | rfl | (refine absurd ?_ hp; decide))); (case hi => (repeat' first | with_reducible exact IoKept.refl _ | with_reducible apply IoKept.ite | with_reducible apply IoKept.foldl | with_reducible apply IoKept.put | with_reducible apply IoKept.filter | (fail_if_no_progress with_reducible apply IoKept.upd) | intro _ | dsimp only | split)); (case ht => exact T1Kept.refl _))) | intro _ | dsimp only | split); done))
    | ((with_reducible apply Kept.iteR); case k => ((repeat' first | with_reducible exact Kept.refl _ | ((with_reducible apply Laws.State.complete_kept); (case mhl => decide)) | ((with_reducible apply Laws.State.moveOp_kept); (case mhl => decide)) | ((with_reducible apply Laws.State.opCmd_kept); (case mhl => decide)) | ((with_reducible apply Laws.State.opRefuses_kept); (case mhl => decide)) | ((with_reducible apply Laws.State.setOp_kept); (case mhl => decide)) | with_reducible apply Kept.ite | (fail_if_no_progress ((with_reducible apply Kept.upd); (case ho => (refine Only.of (fun p hp => ?_) rfl; cases p <;> first | rfl | (refine absurd ?_ hp; decide))); (case hi => (repeat' first | with_reducible exact IoKept.refl _ | with_reducible apply IoKept.ite | with_reducible apply IoKept.foldl | with_reducible apply IoKept.put | with_reducible apply IoKept.filter | (fail_if_no_progress with_reducible apply IoKept.upd) | intro _ | dsimp only | split)); (case ht => exact T1Kept.refl _))) | intro _ | dsimp only | split); done))
    | with_reducible apply Kept.ite
    | (fail_if_no_progress ((with_reducible apply Kept.upd); (case ho => (refine Only.of (fun p hp => ?_) rfl; cases p <;> first | rfl | (refine absurd ?_ hp; decide))); (case hi => (repeat' first | with_reducible exact IoKept.refl _ | with_reducible apply IoKept.ite | with_reducible apply IoKept.foldl | with_reducible apply IoKept.put | with_reducible apply IoKept.filter | (fail_if_no_progress with_reducible apply IoKept.upd) | intro _ | dsimp only | split)); (case ht => exact T1Kept.refl _)))
    | intro _
    | dsimp only
    | split

theorem execOpResume_kept (c : Cmd) (s : State) : ∃ out, execOpResume c s = .next out ∧ Kept [.io, .yt, .t1, .shed, .stalls, .ops, .cp, .answers, .textCache, .net, .allocStopped] s out := by
  unfold execOpResume
  try dsimp only
  refine ⟨_, rfl, ?_⟩
  try dsimp only
  repeat' first
    | with_reducible exact Kept.refl _
    | ((with_reducible apply Laws.State.complete_kept); (case mhl => decide))
    | ((with_reducible apply Laws.State.moveOp_kept); (case mhl => decide))
    | ((with_reducible apply Laws.State.opCmd_kept); (case mhl => decide))
    | ((with_reducible apply Laws.State.opRefuses_kept); (case mhl => decide))
    | ((with_reducible apply Laws.State.opResumed_kept); (case mhl => decide))
    | with_reducible apply Kept.ite
    | intro _
    | dsimp only
    | split

theorem execOpCancel_kept (c : Cmd) (s : State) : ∃ out, execOpCancel c s = .next out ∧ Kept [.io, .t1, .shed, .stalls, .units, .ops, .mirrors, .cp, .cpSlots, .contexts, .answers, .tallies, .textCache, .rounds, .net, .sec, .tests, .allocStopped] s out := by
  unfold execOpCancel
  try dsimp only
  refine ⟨_, rfl, ?_⟩
  try dsimp only
  repeat' first
    | with_reducible exact Kept.refl _
    | ((with_reducible apply Laws.State.cancelCmd_kept); (case mhl => decide))
    | ((with_reducible apply Laws.State.cancelOp_kept); (case mhl => decide))
    | ((with_reducible apply Laws.State.opCmd_kept); (case mhl => decide))
    | ((with_reducible apply Laws.State.opRefuses_kept); (case mhl => decide))
    | ((with_reducible apply Laws.State.setOp_kept); (case mhl => decide))
    | with_reducible apply Kept.ite
    | (fail_if_no_progress ((with_reducible apply Kept.upd); (case ho => (refine Only.of (fun p hp => ?_) rfl; cases p <;> first | rfl | (refine absurd ?_ hp; decide))); (case hi => (repeat' first | with_reducible exact IoKept.refl _ | with_reducible apply IoKept.ite | with_reducible apply IoKept.foldl | with_reducible apply IoKept.put | with_reducible apply IoKept.filter | (fail_if_no_progress with_reducible apply IoKept.upd) | intro _ | dsimp only | split)); (case ht => (repeat' first | with_reducible exact T1Kept.refl _ | with_reducible apply T1Kept.ite | with_reducible apply T1Kept.foldl | with_reducible apply T1Kept.put | with_reducible apply T1Kept.filter | (fail_if_no_progress with_reducible apply T1Kept.upd) | intro _ | dsimp only | split))))
    | intro _
    | dsimp only
    | split

theorem execOpRelease_kept (c : Cmd) (s : State) : ∃ out, execOpRelease c s = .next out ∧ Kept [.io, .ops, .answers] s out := by
  unfold execOpRelease
  try dsimp only
  refine ⟨_, rfl, ?_⟩
  try dsimp only
  repeat' first
    | with_reducible exact Kept.refl _
    | ((with_reducible apply Laws.State.complete_kept); (case mhl => decide))
    | ((with_reducible apply Laws.State.freeOp_kept); (case mhl => decide))
    | ((with_reducible apply Laws.State.opCmd_kept); (case mhl => decide))
    | ((with_reducible apply Laws.State.opRefuses_kept); (case mhl => decide))
    | with_reducible apply Kept.ite
    | intro _
    | dsimp only
    | split

theorem execOpSafePoint_kept (slot : Nat) (s : State) : ∃ out, execOpSafePoint slot s = .next out ∧ Kept [.io, .t1, .shed, .stalls, .units, .ops, .mirrors, .cp, .cpSlots, .contexts, .answers, .tallies, .textCache, .rounds, .net, .sec, .tests, .allocStopped] s out := by
  unfold execOpSafePoint
  try dsimp only
  refine ⟨_, rfl, ?_⟩
  try dsimp only
  repeat' first
    | with_reducible exact Kept.refl _
    | ((with_reducible apply Laws.State.cancelCmd_kept); (case mhl => decide))
    | ((with_reducible apply Laws.State.cancelOp_kept); (case mhl => decide))
    | ((with_reducible apply Laws.State.complete_kept); (case mhl => decide))
    | ((with_reducible apply Laws.State.moveOp_kept); (case mhl => decide))
    | ((with_reducible apply Laws.State.opSuspended_kept); (case mhl => decide))
    | ((with_reducible apply Laws.State.setOp_kept); (case mhl => decide))
    | with_reducible apply Kept.ite
    | (fail_if_no_progress ((with_reducible apply Kept.upd); (case ho => (refine Only.of (fun p hp => ?_) rfl; cases p <;> first | rfl | (refine absurd ?_ hp; decide))); (case hi => (repeat' first | with_reducible exact IoKept.refl _ | with_reducible apply IoKept.ite | with_reducible apply IoKept.foldl | with_reducible apply IoKept.put | with_reducible apply IoKept.filter | (fail_if_no_progress with_reducible apply IoKept.upd) | intro _ | dsimp only | split)); (case ht => (repeat' first | with_reducible exact T1Kept.refl _ | with_reducible apply T1Kept.ite | with_reducible apply T1Kept.foldl | with_reducible apply T1Kept.put | with_reducible apply T1Kept.filter | (fail_if_no_progress with_reducible apply T1Kept.upd) | intro _ | dsimp only | split))))
    | intro _
    | dsimp only
    | split

theorem execOpHoldExpiry_kept (slot : Nat) (s : State) : ∃ out, execOpHoldExpiry slot s = .next out ∧ Kept [.ops] s out := by
  unfold execOpHoldExpiry
  try dsimp only
  refine ⟨_, rfl, ?_⟩
  try dsimp only
  repeat' first
    | with_reducible exact Kept.refl _
    | ((with_reducible apply Laws.State.freeOp_kept); (case mhl => decide))
    | with_reducible apply Kept.ite
    | intro _
    | dsimp only
    | split

theorem execTier1Alloc_kept (c : Cmd) (s : State) : ∃ out, execTier1Alloc c s = .next out ∧ Kept [.io, .t1, .answers] s out := by
  unfold execTier1Alloc
  try dsimp only
  refine ⟨_, rfl, ?_⟩
  try dsimp only
  repeat' first
    | with_reducible exact Kept.refl _
    | ((with_reducible apply Laws.State.alloc_kept ?mhl (by assumption)); (case mhl => decide))
    | ((with_reducible apply Laws.State.complete_kept); (case mhl => decide))
    | ((with_reducible apply Laws.State.runHeld_kept); (case mhl => decide))
    | ((with_reducible apply Kept.iteL); case k => ((repeat' first | with_reducible exact Kept.refl _ | ((with_reducible apply Laws.State.alloc_kept ?mhl (by assumption)); (case mhl => decide)) | ((with_reducible apply Laws.State.complete_kept); (case mhl => decide)) | ((with_reducible apply Laws.State.runHeld_kept); (case mhl => decide)) | with_reducible apply Kept.getD | with_reducible apply Kept.ite | (fail_if_no_progress ((with_reducible apply Kept.upd); (case ho => (refine Only.of (fun p hp => ?_) rfl; cases p <;> first | rfl | (refine absurd ?_ hp; decide))); (case hi => (repeat' first | with_reducible exact IoKept.refl _ | with_reducible apply IoKept.ite | with_reducible apply IoKept.foldl | with_reducible apply IoKept.put | with_reducible apply IoKept.filter | (fail_if_no_progress with_reducible apply IoKept.upd) | intro _ | dsimp only | split)); (case ht => (repeat' first | with_reducible exact T1Kept.refl _ | with_reducible apply T1Kept.ite | with_reducible apply T1Kept.foldl | with_reducible apply T1Kept.put | with_reducible apply T1Kept.filter | (fail_if_no_progress with_reducible apply T1Kept.upd) | intro _ | dsimp only | split)))) | intro _ | dsimp only | split); done))
    | ((with_reducible apply Kept.iteR); case k => ((repeat' first | with_reducible exact Kept.refl _ | ((with_reducible apply Laws.State.alloc_kept ?mhl (by assumption)); (case mhl => decide)) | ((with_reducible apply Laws.State.complete_kept); (case mhl => decide)) | ((with_reducible apply Laws.State.runHeld_kept); (case mhl => decide)) | with_reducible apply Kept.getD | with_reducible apply Kept.ite | (fail_if_no_progress ((with_reducible apply Kept.upd); (case ho => (refine Only.of (fun p hp => ?_) rfl; cases p <;> first | rfl | (refine absurd ?_ hp; decide))); (case hi => (repeat' first | with_reducible exact IoKept.refl _ | with_reducible apply IoKept.ite | with_reducible apply IoKept.foldl | with_reducible apply IoKept.put | with_reducible apply IoKept.filter | (fail_if_no_progress with_reducible apply IoKept.upd) | intro _ | dsimp only | split)); (case ht => (repeat' first | with_reducible exact T1Kept.refl _ | with_reducible apply T1Kept.ite | with_reducible apply T1Kept.foldl | with_reducible apply T1Kept.put | with_reducible apply T1Kept.filter | (fail_if_no_progress with_reducible apply T1Kept.upd) | intro _ | dsimp only | split)))) | intro _ | dsimp only | split); done))
    | with_reducible apply Kept.ite
    | with_reducible apply Kept.getD
    | (fail_if_no_progress ((with_reducible apply Kept.upd); (case ho => (refine Only.of (fun p hp => ?_) rfl; cases p <;> first | rfl | (refine absurd ?_ hp; decide))); (case hi => (repeat' first | with_reducible exact IoKept.refl _ | with_reducible apply IoKept.ite | with_reducible apply IoKept.foldl | with_reducible apply IoKept.put | with_reducible apply IoKept.filter | (fail_if_no_progress with_reducible apply IoKept.upd) | intro _ | dsimp only | split)); (case ht => (repeat' first | with_reducible exact T1Kept.refl _ | with_reducible apply T1Kept.ite | with_reducible apply T1Kept.foldl | with_reducible apply T1Kept.put | with_reducible apply T1Kept.filter | (fail_if_no_progress with_reducible apply T1Kept.upd) | intro _ | dsimp only | split))))
    | intro _
    | dsimp only
    | split

theorem execTier1Free_kept (c : Cmd) (s : State) : ∃ out, execTier1Free c s = .next out ∧ Kept [.io, .t1, .answers] s out := by
  unfold execTier1Free
  try dsimp only
  refine ⟨_, rfl, ?_⟩
  try dsimp only
  repeat' first
    | with_reducible exact Kept.refl _
    | ((with_reducible apply Laws.State.complete_kept); (case mhl => decide))
    | ((with_reducible apply Laws.State.quarantine_kept); (case mhl => decide))
    | ((with_reducible apply Laws.State.runHeld_kept); (case mhl => decide))
    | with_reducible apply Kept.ite
    | with_reducible apply Kept.getD
    | (fail_if_no_progress ((with_reducible apply Kept.upd); (case ho => (refine Only.of (fun p hp => ?_) rfl; cases p <;> first | rfl | (refine absurd ?_ hp; decide))); (case hi => (repeat' first | with_reducible exact IoKept.refl _ | with_reducible apply IoKept.ite | with_reducible apply IoKept.foldl | with_reducible apply IoKept.put | with_reducible apply IoKept.filter | (fail_if_no_progress with_reducible apply IoKept.upd) | intro _ | dsimp only | split)); (case ht => (repeat' first | with_reducible exact T1Kept.refl _ | with_reducible apply T1Kept.ite | with_reducible apply T1Kept.foldl | with_reducible apply T1Kept.put | with_reducible apply T1Kept.filter | (fail_if_no_progress with_reducible apply T1Kept.upd) | intro _ | dsimp only | split))))
    | intro _
    | dsimp only
    | split

theorem execTier1Write_kept (c : Cmd) (s : State) : ∃ out, execTier1Write c s = .next out ∧ Kept [.io, .t1, .answers] s out := by
  unfold execTier1Write
  try dsimp only
  refine ⟨_, rfl, ?_⟩
  try dsimp only
  repeat' first
    | with_reducible exact Kept.refl _
    | ((with_reducible apply Laws.State.busFault_kept); (case mhl => decide))
    | ((with_reducible apply Laws.State.complete_kept); (case mhl => decide))
    | ((with_reducible apply Laws.State.runHeld_kept); (case mhl => decide))
    | ((with_reducible apply Laws.State.writeT1_kept); (case mhl => decide))
    | ((with_reducible apply Kept.iteL); case k => ((repeat' first | with_reducible exact Kept.refl _ | ((with_reducible apply Laws.State.busFault_kept); (case mhl => decide)) | ((with_reducible apply Laws.State.complete_kept); (case mhl => decide)) | ((with_reducible apply Laws.State.runHeld_kept); (case mhl => decide)) | ((with_reducible apply Laws.State.writeT1_kept); (case mhl => decide)) | with_reducible apply Kept.getD | with_reducible apply Kept.ite | (fail_if_no_progress ((with_reducible apply Kept.upd); (case ho => (refine Only.of (fun p hp => ?_) rfl; cases p <;> first | rfl | (refine absurd ?_ hp; decide))); (case hi => (repeat' first | with_reducible exact IoKept.refl _ | with_reducible apply IoKept.ite | with_reducible apply IoKept.foldl | with_reducible apply IoKept.put | with_reducible apply IoKept.filter | (fail_if_no_progress with_reducible apply IoKept.upd) | intro _ | dsimp only | split)); (case ht => (repeat' first | with_reducible exact T1Kept.refl _ | with_reducible apply T1Kept.ite | with_reducible apply T1Kept.foldl | with_reducible apply T1Kept.put | with_reducible apply T1Kept.filter | (fail_if_no_progress with_reducible apply T1Kept.upd) | intro _ | dsimp only | split)))) | intro _ | dsimp only | split); done))
    | ((with_reducible apply Kept.iteR); case k => ((repeat' first | with_reducible exact Kept.refl _ | ((with_reducible apply Laws.State.busFault_kept); (case mhl => decide)) | ((with_reducible apply Laws.State.complete_kept); (case mhl => decide)) | ((with_reducible apply Laws.State.runHeld_kept); (case mhl => decide)) | ((with_reducible apply Laws.State.writeT1_kept); (case mhl => decide)) | with_reducible apply Kept.getD | with_reducible apply Kept.ite | (fail_if_no_progress ((with_reducible apply Kept.upd); (case ho => (refine Only.of (fun p hp => ?_) rfl; cases p <;> first | rfl | (refine absurd ?_ hp; decide))); (case hi => (repeat' first | with_reducible exact IoKept.refl _ | with_reducible apply IoKept.ite | with_reducible apply IoKept.foldl | with_reducible apply IoKept.put | with_reducible apply IoKept.filter | (fail_if_no_progress with_reducible apply IoKept.upd) | intro _ | dsimp only | split)); (case ht => (repeat' first | with_reducible exact T1Kept.refl _ | with_reducible apply T1Kept.ite | with_reducible apply T1Kept.foldl | with_reducible apply T1Kept.put | with_reducible apply T1Kept.filter | (fail_if_no_progress with_reducible apply T1Kept.upd) | intro _ | dsimp only | split)))) | intro _ | dsimp only | split); done))
    | with_reducible apply Kept.ite
    | with_reducible apply Kept.getD
    | (fail_if_no_progress ((with_reducible apply Kept.upd); (case ho => (refine Only.of (fun p hp => ?_) rfl; cases p <;> first | rfl | (refine absurd ?_ hp; decide))); (case hi => (repeat' first | with_reducible exact IoKept.refl _ | with_reducible apply IoKept.ite | with_reducible apply IoKept.foldl | with_reducible apply IoKept.put | with_reducible apply IoKept.filter | (fail_if_no_progress with_reducible apply IoKept.upd) | intro _ | dsimp only | split)); (case ht => (repeat' first | with_reducible exact T1Kept.refl _ | with_reducible apply T1Kept.ite | with_reducible apply T1Kept.foldl | with_reducible apply T1Kept.put | with_reducible apply T1Kept.filter | (fail_if_no_progress with_reducible apply T1Kept.upd) | intro _ | dsimp only | split))))
    | intro _
    | dsimp only
    | split

theorem execTier1Read_kept (c : Cmd) (s : State) : ∃ out, execTier1Read c s = .next out ∧ Kept [.io, .yt, .t1, .shed, .prefetch, .stalls, .units, .ops, .mirrors, .redirects, .cp, .cpSlots, .contexts, .answers, .tallies, .textCache, .rounds, .svChanged, .net] s out := by
  refine ⟨_, rfl, ?_⟩
  apply State.runHeld_kept (by decide) _ (Kept.refl _)
  intro r
  extract_lets t n a blocks readable bus moved bytes failed s1 s2
  split
  · exact State.complete_kept (by decide) (Kept.refl _)
  have h1 : Kept [.io, .yt, .t1, .shed, .prefetch, .stalls, .units, .ops, .mirrors, .redirects, .cp, .cpSlots, .contexts, .answers, .tallies, .textCache, .rounds, .svChanged, .net] r s1 := State.checkPoison_kept (by decide) (State.afterRead_kept (by decide) (Kept.refl _))
  clear_value s1
  have h2 : Kept [.io, .yt, .t1, .shed, .prefetch, .stalls, .units, .ops, .mirrors, .redirects, .cp, .cpSlots, .contexts, .answers, .tallies, .textCache, .rounds, .svChanged, .net] r s2 := Kept.ite h1 (Kept.ite (State.bump_kept (by decide) h1) (State.emit_kept (by decide) h1))
  clear_value s2
  exact Kept.ite (State.complete_kept (by decide) h2) (Kept.ite (State.complete_kept (by decide) h2)
    (State.complete_kept (by decide) (State.busFault_kept (by decide) h2)))

theorem execPortDetach_kept (c : Cmd) (s : State) : ∃ out, execPortDetach c s = .next out ∧ Kept [.io, .t1, .ops, .answers, .sec] s out := by
  unfold execPortDetach
  try dsimp only
  refine ⟨_, rfl, ?_⟩
  try dsimp only
  repeat' first
    | with_reducible exact Kept.refl _
    | ((with_reducible apply Laws.State.beginOp_kept); (case mhl => decide))
    | ((with_reducible apply Laws.State.clearBinding_kept); (case mhl => decide))
    | ((with_reducible apply Laws.State.detachPort_kept); (case mhl => decide))
    | ((with_reducible apply Laws.State.endOp_kept); (case mhl => decide))
    | ((with_reducible apply Laws.State.put_kept); (case mhl => decide))
    | ((with_reducible apply Laws.State.raise_kept); (case mhl => decide))
    | ((with_reducible apply Laws.State.refuse_kept); (case mhl => decide))
    | ((with_reducible apply Laws.State.runCmd_kept); (case mhl => decide))
    | with_reducible apply Kept.ite
    | (fail_if_no_progress ((with_reducible apply Kept.upd); (case ho => (refine Only.of (fun p hp => ?_) rfl; cases p <;> first | rfl | (refine absurd ?_ hp; decide))); (case hi => (repeat' first | with_reducible exact IoKept.refl _ | with_reducible apply Laws.Io.detachPort_kept | with_reducible apply Laws.Io.put_kept | with_reducible apply Laws.Io.raise_kept | with_reducible apply IoKept.ite | with_reducible apply IoKept.foldl | with_reducible apply IoKept.put | with_reducible apply IoKept.filter | (fail_if_no_progress with_reducible apply IoKept.upd) | intro _ | dsimp only | split)); (case ht => (repeat' first | with_reducible exact T1Kept.refl _ | with_reducible apply Laws.Tier1.own_kept | with_reducible apply T1Kept.ite | with_reducible apply T1Kept.foldl | with_reducible apply T1Kept.put | with_reducible apply T1Kept.filter | (fail_if_no_progress with_reducible apply T1Kept.upd) | intro _ | dsimp only | split))))
    | intro _
    | dsimp only
    | split

theorem execSqTailDoorbell_kept (port q value : Nat) (s : State) : ∃ out, execSqTailDoorbell port q value s = .next out ∧ Kept [.io] s out := by
  unfold execSqTailDoorbell
  try dsimp only
  refine ⟨_, rfl, ?_⟩
  try dsimp only
  repeat' first
    | with_reducible exact Kept.refl _
    | ((with_reducible apply Laws.State.deny_kept); (case mhl => decide))
    | ((with_reducible apply Laws.State.put_kept); (case mhl => decide))
    | ((with_reducible apply Laws.State.queueError_kept); (case mhl => decide))
    | ((with_reducible apply Kept.iteL); case k => ((repeat' first | with_reducible exact Kept.refl _ | ((with_reducible apply Laws.State.deny_kept); (case mhl => decide)) | ((with_reducible apply Laws.State.put_kept); (case mhl => decide)) | ((with_reducible apply Laws.State.queueError_kept); (case mhl => decide)) | with_reducible apply Kept.ite | intro _ | dsimp only | split); done))
    | ((with_reducible apply Kept.iteR); case k => ((repeat' first | with_reducible exact Kept.refl _ | ((with_reducible apply Laws.State.deny_kept); (case mhl => decide)) | ((with_reducible apply Laws.State.put_kept); (case mhl => decide)) | ((with_reducible apply Laws.State.queueError_kept); (case mhl => decide)) | with_reducible apply Kept.ite | intro _ | dsimp only | split); done))
    | with_reducible apply Kept.ite
    | intro _
    | dsimp only
    | split

theorem execCqHeadDoorbell_kept (port q value : Nat) (s : State) : ∃ out, execCqHeadDoorbell port q value s = .next out ∧ Kept [.io] s out := by
  unfold execCqHeadDoorbell
  try dsimp only
  refine ⟨_, rfl, ?_⟩
  try dsimp only
  repeat' first
    | with_reducible exact Kept.refl _
    | ((with_reducible apply Laws.State.deny_kept); (case mhl => decide))
    | ((with_reducible apply Laws.State.put_kept); (case mhl => decide))
    | ((with_reducible apply Laws.State.raise_kept); (case mhl => decide))
    | ((with_reducible apply Kept.iteL); case k => ((repeat' first | with_reducible exact Kept.refl _ | ((with_reducible apply Laws.State.deny_kept); (case mhl => decide)) | ((with_reducible apply Laws.State.put_kept); (case mhl => decide)) | ((with_reducible apply Laws.State.raise_kept); (case mhl => decide)) | with_reducible apply Kept.ite | (fail_if_no_progress ((with_reducible apply Kept.upd); (case ho => (refine Only.of (fun p hp => ?_) rfl; cases p <;> first | rfl | (refine absurd ?_ hp; decide))); (case hi => (repeat' first | with_reducible exact IoKept.refl _ | with_reducible apply Laws.Io.put_kept | with_reducible apply Laws.Io.raise_kept | with_reducible apply Laws.Io.setQueue_kept | with_reducible apply IoKept.ite | with_reducible apply IoKept.foldl | with_reducible apply IoKept.put | with_reducible apply IoKept.filter | (fail_if_no_progress with_reducible apply IoKept.upd) | intro _ | dsimp only | split)); (case ht => exact T1Kept.refl _))) | intro _ | dsimp only | split); done))
    | ((with_reducible apply Kept.iteR); case k => ((repeat' first | with_reducible exact Kept.refl _ | ((with_reducible apply Laws.State.deny_kept); (case mhl => decide)) | ((with_reducible apply Laws.State.put_kept); (case mhl => decide)) | ((with_reducible apply Laws.State.raise_kept); (case mhl => decide)) | with_reducible apply Kept.ite | (fail_if_no_progress ((with_reducible apply Kept.upd); (case ho => (refine Only.of (fun p hp => ?_) rfl; cases p <;> first | rfl | (refine absurd ?_ hp; decide))); (case hi => (repeat' first | with_reducible exact IoKept.refl _ | with_reducible apply Laws.Io.put_kept | with_reducible apply Laws.Io.raise_kept | with_reducible apply Laws.Io.setQueue_kept | with_reducible apply IoKept.ite | with_reducible apply IoKept.foldl | with_reducible apply IoKept.put | with_reducible apply IoKept.filter | (fail_if_no_progress with_reducible apply IoKept.upd) | intro _ | dsimp only | split)); (case ht => exact T1Kept.refl _))) | intro _ | dsimp only | split); done))
    | with_reducible apply Kept.ite
    | (fail_if_no_progress ((with_reducible apply Kept.upd); (case ho => (refine Only.of (fun p hp => ?_) rfl; cases p <;> first | rfl | (refine absurd ?_ hp; decide))); (case hi => (repeat' first | with_reducible exact IoKept.refl _ | with_reducible apply Laws.Io.put_kept | with_reducible apply Laws.Io.raise_kept | with_reducible apply Laws.Io.setQueue_kept | with_reducible apply IoKept.ite | with_reducible apply IoKept.foldl | with_reducible apply IoKept.put | with_reducible apply IoKept.filter | (fail_if_no_progress with_reducible apply IoKept.upd) | intro _ | dsimp only | split)); (case ht => exact T1Kept.refl _)))
    | intro _
    | dsimp only
    | split

theorem State.writeQCtrl_frame (s : State) (w : RegWrite) (q : Nat) : Kept [.io] s (State.writeQCtrl s w q) := by
  unfold State.writeQCtrl
  try dsimp only
  repeat' first
    | with_reducible exact Kept.refl _
    | ((with_reducible apply Laws.State.fromPort_kept); (case mhl => decide))
    | ((with_reducible apply Laws.State.put_kept); (case mhl => decide))
    | ((with_reducible apply Laws.State.setReg_kept); (case mhl => decide))
    | ((with_reducible apply Kept.iteL); case k => ((repeat' first | with_reducible exact Kept.refl _ | ((with_reducible apply Laws.State.fromPort_kept); (case mhl => decide)) | ((with_reducible apply Laws.State.put_kept); (case mhl => decide)) | ((with_reducible apply Laws.State.setReg_kept); (case mhl => decide)) | with_reducible apply Kept.ite | (fail_if_no_progress ((with_reducible apply Kept.upd); (case ho => (refine Only.of (fun p hp => ?_) rfl; cases p <;> first | rfl | (refine absurd ?_ hp; decide))); (case hi => (repeat' first | with_reducible exact IoKept.refl _ | with_reducible apply Laws.Io.put_kept | with_reducible apply Laws.Io.setQueue_kept | with_reducible apply Laws.Io.setReg_kept | with_reducible apply Laws.Io.stopQueue_kept | with_reducible apply IoKept.ite | with_reducible apply IoKept.foldl | with_reducible apply IoKept.put | with_reducible apply IoKept.filter | (fail_if_no_progress with_reducible apply IoKept.upd) | intro _ | dsimp only | split)); (case ht => exact T1Kept.refl _))) | intro _ | dsimp only | split); done))
    | ((with_reducible apply Kept.iteR); case k => ((repeat' first | with_reducible exact Kept.refl _ | ((with_reducible apply Laws.State.fromPort_kept); (case mhl => decide)) | ((with_reducible apply Laws.State.put_kept); (case mhl => decide)) | ((with_reducible apply Laws.State.setReg_kept); (case mhl => decide)) | with_reducible apply Kept.ite | (fail_if_no_progress ((with_reducible apply Kept.upd); (case ho => (refine Only.of (fun p hp => ?_) rfl; cases p <;> first | rfl | (refine absurd ?_ hp; decide))); (case hi => (repeat' first | with_reducible exact IoKept.refl _ | with_reducible apply Laws.Io.put_kept | with_reducible apply Laws.Io.setQueue_kept | with_reducible apply Laws.Io.setReg_kept | with_reducible apply Laws.Io.stopQueue_kept | with_reducible apply IoKept.ite | with_reducible apply IoKept.foldl | with_reducible apply IoKept.put | with_reducible apply IoKept.filter | (fail_if_no_progress with_reducible apply IoKept.upd) | intro _ | dsimp only | split)); (case ht => exact T1Kept.refl _))) | intro _ | dsimp only | split); done))
    | with_reducible apply Kept.ite
    | (fail_if_no_progress ((with_reducible apply Kept.upd); (case ho => (refine Only.of (fun p hp => ?_) rfl; cases p <;> first | rfl | (refine absurd ?_ hp; decide))); (case hi => (repeat' first | with_reducible exact IoKept.refl _ | with_reducible apply Laws.Io.put_kept | with_reducible apply Laws.Io.setQueue_kept | with_reducible apply Laws.Io.setReg_kept | with_reducible apply Laws.Io.stopQueue_kept | with_reducible apply IoKept.ite | with_reducible apply IoKept.foldl | with_reducible apply IoKept.put | with_reducible apply IoKept.filter | (fail_if_no_progress with_reducible apply IoKept.upd) | intro _ | dsimp only | split)); (case ht => exact T1Kept.refl _)))
    | intro _
    | dsimp only
    | split
theorem State.writeQCtrl_kept {ml : List StateField} {mz : State} {s : State} {w : RegWrite} {q : Nat} (mhl : [.io] ⊆ ml) (mh : Kept ml mz s) : Kept ml mz (State.writeQCtrl s w q) :=
  Kept.after ((State.writeQCtrl_frame s w q).mono mhl) mh

theorem execQCtrlWrite_kept (w : RegWrite) (q : Nat) (s : State) : ∃ out, execQCtrlWrite w q s = .next out ∧ Kept [.io] s out := by
  unfold execQCtrlWrite
  try dsimp only
  refine ⟨_, rfl, ?_⟩
  try dsimp only
  repeat' first
    | with_reducible exact Kept.refl _
    | ((with_reducible apply Laws.State.writeQCtrl_kept); (case mhl => decide))
    | with_reducible apply Kept.ite
    | intro _
    | dsimp only
    | split

theorem execQueueIdle_kept (q : Nat) (s : State) : ∃ out, execQueueIdle q s = .next out ∧ Kept [.io] s out := by
  unfold execQueueIdle
  try dsimp only
  refine ⟨_, rfl, ?_⟩
  try dsimp only
  repeat' first
    | with_reducible exact Kept.refl _
    | ((with_reducible apply Laws.State.put_kept); (case mhl => decide))
    | with_reducible apply Kept.ite
    | intro _
    | dsimp only
    | split

theorem execCommandFetch_kept (port : Nat) (block : Option (List Byte)) (s : State) : ∃ out, execCommandFetch port block s = .next out ∧ Kept [.io, .answers] s out := by
  unfold execCommandFetch
  try dsimp only
  refine ⟨_, rfl, ?_⟩
  try dsimp only
  repeat' first
    | with_reducible exact Kept.refl _
    | ((with_reducible apply Laws.State.fetch_kept); (case mhl => decide))
    | ((with_reducible apply Laws.State.queueError_kept); (case mhl => decide))
    | with_reducible apply Kept.ite
    | (fail_if_no_progress ((with_reducible apply Kept.upd); (case ho => (refine Only.of (fun p hp => ?_) rfl; cases p <;> first | rfl | (refine absurd ?_ hp; decide))); (case hi => (repeat' first | with_reducible exact IoKept.refl _ | with_reducible apply IoKept.ite | with_reducible apply IoKept.foldl | with_reducible apply IoKept.put | with_reducible apply IoKept.filter | (fail_if_no_progress with_reducible apply IoKept.upd) | intro _ | dsimp only | split)); (case ht => exact T1Kept.refl _)))
    | intro _
    | dsimp only
    | split

theorem execMsixCoalesceExpiry_kept (q : Nat) (s : State) : ∃ out, execMsixCoalesceExpiry q s = .next out ∧ Kept [.io] s out := by
  unfold execMsixCoalesceExpiry
  try dsimp only
  refine ⟨_, rfl, ?_⟩
  try dsimp only
  repeat' first
    | with_reducible exact Kept.refl _
    | ((with_reducible apply Laws.State.emit_kept); (case mhl => decide))
    | with_reducible apply Kept.ite
    | (fail_if_no_progress ((with_reducible apply Kept.upd); (case ho => (refine Only.of (fun p hp => ?_) rfl; cases p <;> first | rfl | (refine absurd ?_ hp; decide))); (case hi => (repeat' first | with_reducible exact IoKept.refl _ | with_reducible apply Laws.Io.emit_kept | with_reducible apply Laws.Io.setQueue_kept | with_reducible apply IoKept.ite | with_reducible apply IoKept.foldl | with_reducible apply IoKept.put | with_reducible apply IoKept.filter | (fail_if_no_progress with_reducible apply IoKept.upd) | intro _ | dsimp only | split)); (case ht => exact T1Kept.refl _)))
    | intro _
    | dsimp only
    | split

theorem State.writePortBind_frame (s : State) (w : RegWrite) (n word : Nat) : Kept [.io] s (State.writePortBind s w n word) := by
  unfold State.writePortBind
  try dsimp only
  repeat' first
    | with_reducible exact Kept.refl _
    | ((with_reducible apply Laws.State.fromPort_kept); (case mhl => decide))
    | ((with_reducible apply Laws.State.raise_kept); (case mhl => decide))
    | ((with_reducible apply Laws.State.store_kept); (case mhl => decide))
    | with_reducible apply Kept.ite
    | with_reducible apply Kept.foldl
    | with_reducible apply Kept.foldlFst
    | with_reducible apply Kept.foldlSnd
    | (fail_if_no_progress ((with_reducible apply Kept.upd); (case ho => (refine Only.of (fun p hp => ?_) rfl; cases p <;> first | rfl | (refine absurd ?_ hp; decide))); (case hi => (repeat' first | with_reducible exact IoKept.refl _ | with_reducible apply Laws.Io.raise_kept | with_reducible apply Laws.Io.stopQueue_kept | with_reducible apply Laws.Io.stopRing_kept | with_reducible apply IoKept.ite | with_reducible apply IoKept.foldl | with_reducible apply IoKept.put | with_reducible apply IoKept.filter | (fail_if_no_progress with_reducible apply IoKept.upd) | intro _ | dsimp only | split)); (case ht => exact T1Kept.refl _)))
    | intro _
    | dsimp only
    | split
theorem State.writePortBind_kept {ml : List StateField} {mz : State} {s : State} {w : RegWrite} {n word : Nat} (mhl : [.io] ⊆ ml) (mh : Kept ml mz s) : Kept ml mz (State.writePortBind s w n word) :=
  Kept.after ((State.writePortBind_frame s w n word).mono mhl) mh

theorem execGcPortBindWrite_kept (w : RegWrite) (n word : Nat) (s : State) : ∃ out, execGcPortBindWrite w n word s = .next out ∧ Kept [.io] s out := by
  unfold execGcPortBindWrite
  try dsimp only
  refine ⟨_, rfl, ?_⟩
  try dsimp only
  repeat' first
    | with_reducible exact Kept.refl _
    | ((with_reducible apply Laws.State.writePortBind_kept); (case mhl => decide))
    | with_reducible apply Kept.ite
    | intro _
    | dsimp only
    | split

theorem execHostLinkUp_kept (n width rate : Nat) (s : State) : ∃ out, execHostLinkUp n width rate s = .next out ∧ Kept [.io] s out := by
  unfold execHostLinkUp
  try dsimp only
  refine ⟨_, rfl, ?_⟩
  try dsimp only
  repeat' first
    | with_reducible exact Kept.refl _
    | ((with_reducible apply Laws.State.put_kept); (case mhl => decide))
    | ((with_reducible apply Laws.State.raise_kept); (case mhl => decide))
    | with_reducible apply Kept.ite
    | intro _
    | dsimp only
    | split

theorem State.portReset_frame (s : State) (n link : Nat) : Kept [.io, .sec] s (State.portReset s n link) := by
  unfold State.portReset
  try dsimp only
  repeat' first
    | with_reducible exact Kept.refl _
    | ((with_reducible apply Laws.State.detachPort_kept); (case mhl => decide))
    | ((with_reducible apply Laws.State.put_kept); (case mhl => decide))
    | ((with_reducible apply Laws.State.raise_kept); (case mhl => decide))
    | with_reducible apply Kept.ite
    | intro _
    | dsimp only
    | split
theorem State.portReset_kept {ml : List StateField} {mz : State} {s : State} {n link : Nat} (mhl : [.io, .sec] ⊆ ml) (mh : Kept ml mz s) : Kept ml mz (State.portReset s n link) :=
  Kept.after ((State.portReset_frame s n link).mono mhl) mh

theorem execHostLinkLoss_kept (n : Nat) (s : State) : ∃ out, execHostLinkLoss n s = .next out ∧ Kept [.io, .sec] s out := by
  unfold execHostLinkLoss
  try dsimp only
  refine ⟨_, rfl, ?_⟩
  try dsimp only
  repeat' first
    | with_reducible exact Kept.refl _
    | ((with_reducible apply Laws.State.portReset_kept); (case mhl => decide))
    | with_reducible apply Kept.ite
    | intro _
    | dsimp only
    | split

theorem execFunctionLevelReset_kept (n : Nat) (s : State) : ∃ out, execFunctionLevelReset n s = .next out ∧ Kept [.io, .sec] s out := by
  unfold execFunctionLevelReset
  try dsimp only
  refine ⟨_, rfl, ?_⟩
  try dsimp only
  repeat' first
    | with_reducible exact Kept.refl _
    | ((with_reducible apply Laws.State.portReset_kept); (case mhl => decide))
    | with_reducible apply Kept.ite
    | intro _
    | dsimp only
    | split

theorem execD3hotEntry_kept (n : Nat) (s : State) : ∃ out, execD3hotEntry n s = .next out ∧ Kept [.io] s out := by
  unfold execD3hotEntry
  try dsimp only
  refine ⟨_, rfl, ?_⟩
  try dsimp only
  repeat' first
    | with_reducible exact Kept.refl _
    | ((with_reducible apply Laws.State.put_kept); (case mhl => decide))
    | with_reducible apply Kept.ite
    | (fail_if_no_progress ((with_reducible apply Kept.upd); (case ho => (refine Only.of (fun p hp => ?_) rfl; cases p <;> first | rfl | (refine absurd ?_ hp; decide))); (case hi => (repeat' first | with_reducible exact IoKept.refl _ | with_reducible apply Laws.Io.detachCommands_kept | with_reducible apply Laws.Io.put_kept | with_reducible apply IoKept.ite | with_reducible apply IoKept.foldl | with_reducible apply IoKept.put | with_reducible apply IoKept.filter | (fail_if_no_progress with_reducible apply IoKept.upd) | intro _ | dsimp only | split)); (case ht => exact T1Kept.refl _)))
    | intro _
    | dsimp only
    | split

theorem execD0Return_kept (n : Nat) (s : State) : ∃ out, execD0Return n s = .next out ∧ Kept [.io, .sec] s out := by
  unfold execD0Return
  try dsimp only
  refine ⟨_, rfl, ?_⟩
  try dsimp only
  repeat' first
    | with_reducible exact Kept.refl _
    | ((with_reducible apply Laws.State.portReset_kept); (case mhl => decide))
    | with_reducible apply Kept.ite
    | intro _
    | dsimp only
    | split

theorem execFatalEvent_kept (code : Nat) (s : State) : ∃ out, execFatalEvent code s = .next out ∧ Kept [.io] s out := by
  unfold execFatalEvent
  try dsimp only
  refine ⟨_, rfl, ?_⟩
  try dsimp only
  repeat' first
    | with_reducible exact Kept.refl _
    | ((with_reducible apply Laws.State.raise_kept); (case mhl => decide))
    | with_reducible apply Kept.ite
    | intro _
    | dsimp only
    | split

theorem execHostCompletionTimeout_kept (r : HostRequest) (s : State) : ∃ out, execHostCompletionTimeout r s = .next out ∧ Kept [.io, .answers] s out := by
  unfold execHostCompletionTimeout
  try dsimp only
  refine ⟨_, rfl, ?_⟩
  try dsimp only
  repeat' first
    | with_reducible exact Kept.refl _
    | ((with_reducible apply Laws.State.busFault_kept); (case mhl => decide))
    | ((with_reducible apply Laws.State.complete_kept); (case mhl => decide))
    | ((with_reducible apply Laws.State.fetch_kept); (case mhl => decide))
    | ((with_reducible apply Laws.State.queueError_kept); (case mhl => decide))
    | ((with_reducible apply Kept.iteL); case k => ((repeat' first | with_reducible exact Kept.refl _ | ((with_reducible apply Laws.State.busFault_kept); (case mhl => decide)) | ((with_reducible apply Laws.State.complete_kept); (case mhl => decide)) | ((with_reducible apply Laws.State.fetch_kept); (case mhl => decide)) | ((with_reducible apply Laws.State.queueError_kept); (case mhl => decide)) | with_reducible apply Kept.ite | (fail_if_no_progress ((with_reducible apply Kept.upd); (case ho => (refine Only.of (fun p hp => ?_) rfl; cases p <;> first | rfl | (refine absurd ?_ hp; decide))); (case hi => (repeat' first | with_reducible exact IoKept.refl _ | with_reducible apply IoKept.ite | with_reducible apply IoKept.foldl | with_reducible apply IoKept.put | with_reducible apply IoKept.filter | (fail_if_no_progress with_reducible apply IoKept.upd) | intro _ | dsimp only | split)); (case ht => exact T1Kept.refl _))) | intro _ | dsimp only | split); done))
    | ((with_reducible apply Kept.iteR); case k => ((repeat' first | with_reducible exact Kept.refl _ | ((with_reducible apply Laws.State.busFault_kept); (case mhl => decide)) | ((with_reducible apply Laws.State.complete_kept); (case mhl => decide)) | ((with_reducible apply Laws.State.fetch_kept); (case mhl => decide)) | ((with_reducible apply Laws.State.queueError_kept); (case mhl => decide)) | with_reducible apply Kept.ite | (fail_if_no_progress ((with_reducible apply Kept.upd); (case ho => (refine Only.of (fun p hp => ?_) rfl; cases p <;> first | rfl | (refine absurd ?_ hp; decide))); (case hi => (repeat' first | with_reducible exact IoKept.refl _ | with_reducible apply IoKept.ite | with_reducible apply IoKept.foldl | with_reducible apply IoKept.put | with_reducible apply IoKept.filter | (fail_if_no_progress with_reducible apply IoKept.upd) | intro _ | dsimp only | split)); (case ht => exact T1Kept.refl _))) | intro _ | dsimp only | split); done))
    | with_reducible apply Kept.ite
    | (fail_if_no_progress ((with_reducible apply Kept.upd); (case ho => (refine Only.of (fun p hp => ?_) rfl; cases p <;> first | rfl | (refine absurd ?_ hp; decide))); (case hi => (repeat' first | with_reducible exact IoKept.refl _ | with_reducible apply IoKept.ite | with_reducible apply IoKept.foldl | with_reducible apply IoKept.put | with_reducible apply IoKept.filter | (fail_if_no_progress with_reducible apply IoKept.upd) | intro _ | dsimp only | split)); (case ht => exact T1Kept.refl _)))
    | intro _
    | dsimp only
    | split

end Sys2Proof.Laws
end

