-- ==== Sys2Proof/Laws/KeptMemory.lean ====
section
/-! SUPPORT. The frame lemma of every operation of Machine/Memory.lean: which fields of the state it may change, and that it keeps the canonical
forms. -/

set_option Elab.async false
set_option linter.unusedTactic false
set_option linter.unreachableTactic false
set_option linter.unusedVariables false

namespace Sys2Proof.Laws

open Sys2Proof Sys2Proof.Machine Sys2Proof.Safety

theorem execMemScrub_kept (c : Cmd) (s : State) : ∃ out, execMemScrub c s = .next out ∧ Kept [.io, .t1, .ops, .answers] s out := by
  unfold execMemScrub
  try dsimp only
  refine ⟨_, rfl, ?_⟩
  try dsimp only
  repeat' first
    | with_reducible exact Kept.refl _
    | ((with_reducible apply Laws.State.beginOp_kept); (case mhl => decide))
    | ((with_reducible apply Laws.State.refuse_kept); (case mhl => decide))
    | ((with_reducible apply Laws.State.runCmd_kept); (case mhl => decide))
    | ((with_reducible apply Kept.iteL); case k => ((repeat' first | with_reducible exact Kept.refl _ | ((with_reducible apply Laws.State.beginOp_kept); (case mhl => decide)) | ((with_reducible apply Laws.State.refuse_kept); (case mhl => decide)) | ((with_reducible apply Laws.State.runCmd_kept); (case mhl => decide)) | with_reducible apply Kept.foldl | with_reducible apply Kept.foldlFst | with_reducible apply Kept.foldlSnd | with_reducible apply Kept.ite | (fail_if_no_progress ((with_reducible apply Kept.upd); (case ho => (refine Only.of (fun p hp => ?_) rfl; cases p <;> first | rfl | (refine absurd ?_ hp; decide))); (case hi => (repeat' first | with_reducible exact IoKept.refl _ | with_reducible apply IoKept.ite | with_reducible apply IoKept.foldl | with_reducible apply IoKept.put | with_reducible apply IoKept.filter | (fail_if_no_progress with_reducible apply IoKept.upd) | intro _ | dsimp only | split)); (case ht => (repeat' first | with_reducible exact T1Kept.refl _ | with_reducible apply T1Kept.ite | with_reducible apply T1Kept.foldl | with_reducible apply T1Kept.put | with_reducible apply T1Kept.filter | (fail_if_no_progress with_reducible apply T1Kept.upd) | intro _ | dsimp only | split)))) | intro _ | dsimp only | split); done))
    | ((with_reducible apply Kept.iteR); case k => ((repeat' first | with_reducible exact Kept.refl _ | ((with_reducible apply Laws.State.beginOp_kept); (case mhl => decide)) | ((with_reducible apply Laws.State.refuse_kept); (case mhl => decide)) | ((with_reducible apply Laws.State.runCmd_kept); (case mhl => decide)) | with_reducible apply Kept.foldl | with_reducible apply Kept.foldlFst | with_reducible apply Kept.foldlSnd | with_reducible apply Kept.ite | (fail_if_no_progress ((with_reducible apply Kept.upd); (case ho => (refine Only.of (fun p hp => ?_) rfl; cases p <;> first | rfl | (refine absurd ?_ hp; decide))); (case hi => (repeat' first | with_reducible exact IoKept.refl _ | with_reducible apply IoKept.ite | with_reducible apply IoKept.foldl | with_reducible apply IoKept.put | with_reducible apply IoKept.filter | (fail_if_no_progress with_reducible apply IoKept.upd) | intro _ | dsimp only | split)); (case ht => (repeat' first | with_reducible exact T1Kept.refl _ | with_reducible apply T1Kept.ite | with_reducible apply T1Kept.foldl | with_reducible apply T1Kept.put | with_reducible apply T1Kept.filter | (fail_if_no_progress with_reducible apply T1Kept.upd) | intro _ | dsimp only | split)))) | intro _ | dsimp only | split); done))
    | with_reducible apply Kept.ite
    | with_reducible apply Kept.foldl
    | with_reducible apply Kept.foldlFst
    | with_reducible apply Kept.foldlSnd
    | (fail_if_no_progress ((with_reducible apply Kept.upd); (case ho => (refine Only.of (fun p hp => ?_) rfl; cases p <;> first | rfl | (refine absurd ?_ hp; decide))); (case hi => (repeat' first | with_reducible exact IoKept.refl _ | with_reducible apply IoKept.ite | with_reducible apply IoKept.foldl | with_reducible apply IoKept.put | with_reducible apply IoKept.filter | (fail_if_no_progress with_reducible apply IoKept.upd) | intro _ | dsimp only | split)); (case ht => (repeat' first | with_reducible exact T1Kept.refl _ | with_reducible apply T1Kept.ite | with_reducible apply T1Kept.foldl | with_reducible apply T1Kept.put | with_reducible apply T1Kept.filter | (fail_if_no_progress with_reducible apply T1Kept.upd) | intro _ | dsimp only | split))))
    | intro _
    | dsimp only
    | split

theorem execShedCompact_kept (c : Cmd) (s : State) : ∃ out, execShedCompact c s = .next out ∧ Kept [.io, .ops, .answers] s out := by
  unfold execShedCompact
  try dsimp only
  refine ⟨_, rfl, ?_⟩
  try dsimp only
  repeat' first
    | with_reducible exact Kept.refl _
    | ((with_reducible apply Laws.State.beginOp_kept); (case mhl => decide))
    | ((with_reducible apply Laws.State.endOp_kept); (case mhl => decide))
    | ((with_reducible apply Laws.State.refuse_kept); (case mhl => decide))
    | ((with_reducible apply Laws.State.runCmd_kept); (case mhl => decide))
    | with_reducible apply Kept.ite
    | intro _
    | dsimp only
    | split

theorem execCompactStallDone_kept (src : Option Nat) (i : Nat) (s : State) : ∃ out, execCompactStallDone src i s = .next out ∧ Kept [.io, .yt, .t1, .shed, .prefetch, .stalls, .units, .ops, .mirrors, .redirects, .cp, .cpSlots, .contexts, .answers, .tallies, .textCache, .rounds, .svChanged, .net] s out := by
  unfold execCompactStallDone
  try dsimp only
  refine ⟨_, rfl, ?_⟩
  try dsimp only
  repeat' first
    | with_reducible exact Kept.refl _
    | ((with_reducible apply Laws.State.consolidate_kept ?mhl (by assumption)); (case mhl => decide))
    | ((with_reducible apply Laws.State.endOp_kept); (case mhl => decide))
    | ((with_reducible apply Laws.State.tend_kept); (case mhl => decide))
    | ((with_reducible apply Kept.iteL); case k => ((repeat' first | with_reducible exact Kept.refl _ | ((with_reducible apply Laws.State.consolidate_kept ?mhl (by assumption)); (case mhl => decide)) | ((with_reducible apply Laws.State.endOp_kept); (case mhl => decide)) | ((with_reducible apply Laws.State.tend_kept); (case mhl => decide)) | with_reducible apply Kept.getD | with_reducible apply Kept.ite | (fail_if_no_progress ((with_reducible apply Kept.upd); (case ho => (refine Only.of (fun p hp => ?_) rfl; cases p <;> first | rfl | (refine absurd ?_ hp; decide))); (case hi => (repeat' first | with_reducible exact IoKept.refl _ | with_reducible apply IoKept.ite | with_reducible apply IoKept.foldl | with_reducible apply IoKept.put | with_reducible apply IoKept.filter | (fail_if_no_progress with_reducible apply IoKept.upd) | intro _ | dsimp only | split)); (case ht => (repeat' first | with_reducible exact T1Kept.refl _ | with_reducible apply T1Kept.ite | with_reducible apply T1Kept.foldl | with_reducible apply T1Kept.put | with_reducible apply T1Kept.filter | (fail_if_no_progress with_reducible apply T1Kept.upd) | intro _ | dsimp only | split)))) | intro _ | dsimp only | split); done))
    | ((with_reducible apply Kept.iteR); case k => ((repeat' first | with_reducible exact Kept.refl _ | ((with_reducible apply Laws.State.consolidate_kept ?mhl (by assumption)); (case mhl => decide)) | ((with_reducible apply Laws.State.endOp_kept); (case mhl => decide)) | ((with_reducible apply Laws.State.tend_kept); (case mhl => decide)) | with_reducible apply Kept.getD | with_reducible apply Kept.ite | (fail_if_no_progress ((with_reducible apply Kept.upd); (case ho => (refine Only.of (fun p hp => ?_) rfl; cases p <;> first | rfl | (refine absurd ?_ hp; decide))); (case hi => (repeat' first | with_reducible exact IoKept.refl _ | with_reducible apply IoKept.ite | with_reducible apply IoKept.foldl | with_reducible apply IoKept.put | with_reducible apply IoKept.filter | (fail_if_no_progress with_reducible apply IoKept.upd) | intro _ | dsimp only | split)); (case ht => (repeat' first | with_reducible exact T1Kept.refl _ | with_reducible apply T1Kept.ite | with_reducible apply T1Kept.foldl | with_reducible apply T1Kept.put | with_reducible apply T1Kept.filter | (fail_if_no_progress with_reducible apply T1Kept.upd) | intro _ | dsimp only | split)))) | intro _ | dsimp only | split); done))
    | with_reducible apply Kept.ite
    | with_reducible apply Kept.getD
    | (fail_if_no_progress ((with_reducible apply Kept.upd); (case ho => (refine Only.of (fun p hp => ?_) rfl; cases p <;> first | rfl | (refine absurd ?_ hp; decide))); (case hi => (repeat' first | with_reducible exact IoKept.refl _ | with_reducible apply IoKept.ite | with_reducible apply IoKept.foldl | with_reducible apply IoKept.put | with_reducible apply IoKept.filter | (fail_if_no_progress with_reducible apply IoKept.upd) | intro _ | dsimp only | split)); (case ht => (repeat' first | with_reducible exact T1Kept.refl _ | with_reducible apply T1Kept.ite | with_reducible apply T1Kept.foldl | with_reducible apply T1Kept.put | with_reducible apply T1Kept.filter | (fail_if_no_progress with_reducible apply T1Kept.upd) | intro _ | dsimp only | split))))
    | intro _
    | dsimp only
    | split

theorem execMemSpare_kept (c : Cmd) (s : State) : ∃ out, execMemSpare c s = .next out ∧ Kept [.io, .yt, .t1, .shed, .prefetch, .stalls, .units, .ops, .mirrors, .redirects, .cp, .cpSlots, .contexts, .answers, .tallies, .textCache, .rounds, .svChanged, .net] s out := by
  unfold execMemSpare
  try dsimp only
  refine ⟨_, rfl, ?_⟩
  try dsimp only
  repeat' first
    | with_reducible exact Kept.refl _
    | ((with_reducible apply Laws.State.beginOp_kept); (case mhl => decide))
    | ((with_reducible apply Laws.State.endOp_kept); (case mhl => decide))
    | ((with_reducible apply Laws.State.loseChannel_kept); (case mhl => decide))
    | ((with_reducible apply Laws.State.refuse_kept); (case mhl => decide))
    | ((with_reducible apply Laws.State.runCmd_kept); (case mhl => decide))
    | ((with_reducible apply Laws.State.startSparing_kept ?mhl (by assumption)); (case mhl => decide))
    | ((with_reducible apply Kept.iteL); case k => ((repeat' first | with_reducible exact Kept.refl _ | ((with_reducible apply Laws.State.beginOp_kept); (case mhl => decide)) | ((with_reducible apply Laws.State.endOp_kept); (case mhl => decide)) | ((with_reducible apply Laws.State.loseChannel_kept); (case mhl => decide)) | ((with_reducible apply Laws.State.refuse_kept); (case mhl => decide)) | ((with_reducible apply Laws.State.runCmd_kept); (case mhl => decide)) | ((with_reducible apply Laws.State.startSparing_kept ?mhl (by assumption)); (case mhl => decide)) | with_reducible apply Kept.ite | (fail_if_no_progress ((with_reducible apply Kept.upd); (case ho => (refine Only.of (fun p hp => ?_) rfl; cases p <;> first | rfl | (refine absurd ?_ hp; decide))); (case hi => (repeat' first | with_reducible exact IoKept.refl _ | with_reducible apply IoKept.ite | with_reducible apply IoKept.foldl | with_reducible apply IoKept.put | with_reducible apply IoKept.filter | (fail_if_no_progress with_reducible apply IoKept.upd) | intro _ | dsimp only | split)); (case ht => (repeat' first | with_reducible exact T1Kept.refl _ | with_reducible apply T1Kept.ite | with_reducible apply T1Kept.foldl | with_reducible apply T1Kept.put | with_reducible apply T1Kept.filter | (fail_if_no_progress with_reducible apply T1Kept.upd) | intro _ | dsimp only | split)))) | intro _ | dsimp only | split); done))
    | ((with_reducible apply Kept.iteR); case k => ((repeat' first | with_reducible exact Kept.refl _ | ((with_reducible apply Laws.State.beginOp_kept); (case mhl => decide)) | ((with_reducible apply Laws.State.endOp_kept); (case mhl => decide)) | ((with_reducible apply Laws.State.loseChannel_kept); (case mhl => decide)) | ((with_reducible apply Laws.State.refuse_kept); (case mhl => decide)) | ((with_reducible apply Laws.State.runCmd_kept); (case mhl => decide)) | ((with_reducible apply Laws.State.startSparing_kept ?mhl (by assumption)); (case mhl => decide)) | with_reducible apply Kept.ite | (fail_if_no_progress ((with_reducible apply Kept.upd); (case ho => (refine Only.of (fun p hp => ?_) rfl; cases p <;> first | rfl | (refine absurd ?_ hp; decide))); (case hi => (repeat' first | with_reducible exact IoKept.refl _ | with_reducible apply IoKept.ite | with_reducible apply IoKept.foldl | with_reducible apply IoKept.put | with_reducible apply IoKept.filter | (fail_if_no_progress with_reducible apply IoKept.upd) | intro _ | dsimp only | split)); (case ht => (repeat' first | with_reducible exact T1Kept.refl _ | with_reducible apply T1Kept.ite | with_reducible apply T1Kept.foldl | with_reducible apply T1Kept.put | with_reducible apply T1Kept.filter | (fail_if_no_progress with_reducible apply T1Kept.upd) | intro _ | dsimp only | split)))) | intro _ | dsimp only | split); done))
    | with_reducible apply Kept.ite
    | (fail_if_no_progress ((with_reducible apply Kept.upd); (case ho => (refine Only.of (fun p hp => ?_) rfl; cases p <;> first | rfl | (refine absurd ?_ hp; decide))); (case hi => (repeat' first | with_reducible exact IoKept.refl _ | with_reducible apply IoKept.ite | with_reducible apply IoKept.foldl | with_reducible apply IoKept.put | with_reducible apply IoKept.filter | (fail_if_no_progress with_reducible apply IoKept.upd) | intro _ | dsimp only | split)); (case ht => (repeat' first | with_reducible exact T1Kept.refl _ | with_reducible apply T1Kept.ite | with_reducible apply T1Kept.foldl | with_reducible apply T1Kept.put | with_reducible apply T1Kept.filter | (fail_if_no_progress with_reducible apply T1Kept.upd) | intro _ | dsimp only | split))))
    | intro _
    | dsimp only
    | split

theorem State.scrubBlock_frame (s : State) (h p k : Nat) (bad : Option (Nat × Nat)) : Kept [.io, .t1] s (State.scrubBlock s h p k bad) := by
  unfold State.scrubBlock
  try dsimp only
  repeat' first
    | with_reducible exact Kept.refl _
    | ((with_reducible apply Laws.State.addPoison_kept); (case mhl => decide))
    | ((with_reducible apply Laws.State.bump_kept); (case mhl => decide))
    | ((with_reducible apply Kept.iteL); case k => ((repeat' first | with_reducible exact Kept.refl _ | ((with_reducible apply Laws.State.addPoison_kept); (case mhl => decide)) | ((with_reducible apply Laws.State.bump_kept); (case mhl => decide)) | with_reducible apply Kept.getD | with_reducible apply Kept.ite | (fail_if_no_progress ((with_reducible apply Kept.upd); (case ho => (refine Only.of (fun p hp => ?_) rfl; cases p <;> first | rfl | (refine absurd ?_ hp; decide))); (case hi => (repeat' first | with_reducible exact IoKept.refl _ | with_reducible apply Laws.Io.bump_kept | with_reducible apply IoKept.ite | with_reducible apply IoKept.foldl | with_reducible apply IoKept.put | with_reducible apply IoKept.filter | (fail_if_no_progress with_reducible apply IoKept.upd) | intro _ | dsimp only | split)); (case ht => (repeat' first | with_reducible exact T1Kept.refl _ | with_reducible apply T1Kept.ite | with_reducible apply T1Kept.foldl | with_reducible apply T1Kept.put | with_reducible apply T1Kept.filter | (fail_if_no_progress with_reducible apply T1Kept.upd) | intro _ | dsimp only | split)))) | intro _ | dsimp only | split); done))
    | ((with_reducible apply Kept.iteR); case k => ((repeat' first | with_reducible exact Kept.refl _ | ((with_reducible apply Laws.State.addPoison_kept); (case mhl => decide)) | ((with_reducible apply Laws.State.bump_kept); (case mhl => decide)) | with_reducible apply Kept.getD | with_reducible apply Kept.ite | (fail_if_no_progress ((with_reducible apply Kept.upd); (case ho => (refine Only.of (fun p hp => ?_) rfl; cases p <;> first | rfl | (refine absurd ?_ hp; decide))); (case hi => (repeat' first | with_reducible exact IoKept.refl _ | with_reducible apply Laws.Io.bump_kept | with_reducible apply IoKept.ite | with_reducible apply IoKept.foldl | with_reducible apply IoKept.put | with_reducible apply IoKept.filter | (fail_if_no_progress with_reducible apply IoKept.upd) | intro _ | dsimp only | split)); (case ht => (repeat' first | with_reducible exact T1Kept.refl _ | with_reducible apply T1Kept.ite | with_reducible apply T1Kept.foldl | with_reducible apply T1Kept.put | with_reducible apply T1Kept.filter | (fail_if_no_progress with_reducible apply T1Kept.upd) | intro _ | dsimp only | split)))) | intro _ | dsimp only | split); done))
    | with_reducible apply Kept.ite
    | with_reducible apply Kept.getD
    | (fail_if_no_progress ((with_reducible apply Kept.upd); (case ho => (refine Only.of (fun p hp => ?_) rfl; cases p <;> first | rfl | (refine absurd ?_ hp; decide))); (case hi => (repeat' first | with_reducible exact IoKept.refl _ | with_reducible apply Laws.Io.bump_kept | with_reducible apply IoKept.ite | with_reducible apply IoKept.foldl | with_reducible apply IoKept.put | with_reducible apply IoKept.filter | (fail_if_no_progress with_reducible apply IoKept.upd) | intro _ | dsimp only | split)); (case ht => (repeat' first | with_reducible exact T1Kept.refl _ | with_reducible apply T1Kept.ite | with_reducible apply T1Kept.foldl | with_reducible apply T1Kept.put | with_reducible apply T1Kept.filter | (fail_if_no_progress with_reducible apply T1Kept.upd) | intro _ | dsimp only | split))))
    | intro _
    | dsimp only
    | split
theorem State.scrubBlock_kept {ml : List StateField} {mz : State} {s : State} {h p k : Nat} {bad : Option (Nat × Nat)} (mhl : [.io, .t1] ⊆ ml) (mh : Kept ml mz s) : Kept ml mz (State.scrubBlock s h p k bad) :=
  Kept.after ((State.scrubBlock_frame s h p k bad).mono mhl) mh

theorem State.checkChannel_frame (s : State) (h p : Nat) : Kept [.io, .yt, .t1, .shed, .prefetch, .stalls, .units, .ops, .mirrors, .redirects, .cp, .cpSlots, .contexts, .answers, .tallies, .textCache, .rounds, .svChanged, .net] s (State.checkChannel s h p) := by
  unfold State.checkChannel
  try dsimp only
  repeat' first
    | with_reducible exact Kept.refl _
    | ((with_reducible apply Laws.State.autoSpare_kept); (case mhl => decide))
    | with_reducible apply Kept.ite
    | (fail_if_no_progress ((with_reducible apply Kept.upd); (case ho => (refine Only.of (fun p hp => ?_) rfl; cases p <;> first | rfl | (refine absurd ?_ hp; decide))); (case hi => (repeat' first | with_reducible exact IoKept.refl _ | with_reducible apply IoKept.ite | with_reducible apply IoKept.foldl | with_reducible apply IoKept.put | with_reducible apply IoKept.filter | (fail_if_no_progress with_reducible apply IoKept.upd) | intro _ | dsimp only | split)); (case ht => (repeat' first | with_reducible exact T1Kept.refl _ | with_reducible apply T1Kept.ite | with_reducible apply T1Kept.foldl | with_reducible apply T1Kept.put | with_reducible apply T1Kept.filter | (fail_if_no_progress with_reducible apply T1Kept.upd) | intro _ | dsimp only | split))))
    | intro _
    | dsimp only
    | split
theorem State.checkChannel_kept {ml : List StateField} {mz : State} {s : State} {h p : Nat} (mhl : [.io, .yt, .t1, .shed, .prefetch, .stalls, .units, .ops, .mirrors, .redirects, .cp, .cpSlots, .contexts, .answers, .tallies, .textCache, .rounds, .svChanged, .net] ⊆ ml) (mh : Kept ml mz s) : Kept ml mz (State.checkChannel s h p) :=
  Kept.after ((State.checkChannel_frame s h p).mono mhl) mh

theorem execPatrolScrubBlock_kept (src : Option Nat) (h p : Nat) (bad : Option (Nat × Nat)) (s : State) : ∃ out, execPatrolScrubBlock src h p bad s = .next out ∧ Kept [.io, .yt, .t1, .shed, .prefetch, .stalls, .units, .ops, .mirrors, .redirects, .cp, .cpSlots, .contexts, .answers, .tallies, .textCache, .rounds, .svChanged, .net] s out := by
  unfold execPatrolScrubBlock
  try dsimp only
  refine ⟨_, rfl, ?_⟩
  try dsimp only
  repeat' first
    | with_reducible exact Kept.refl _
    | ((with_reducible apply Laws.State.checkChannel_kept); (case mhl => decide))
    | ((with_reducible apply Laws.State.checkPoison_kept); (case mhl => decide))
    | ((with_reducible apply Laws.State.endOp_kept); (case mhl => decide))
    | ((with_reducible apply Laws.State.put_kept); (case mhl => decide))
    | ((with_reducible apply Laws.State.scrubBlock_kept); (case mhl => decide))
    | ((with_reducible apply Laws.State.setOp_kept); (case mhl => decide))
    | ((with_reducible apply Kept.iteL); case k => ((repeat' first | with_reducible exact Kept.refl _ | ((with_reducible apply Laws.State.checkChannel_kept); (case mhl => decide)) | ((with_reducible apply Laws.State.checkPoison_kept); (case mhl => decide)) | ((with_reducible apply Laws.State.endOp_kept); (case mhl => decide)) | ((with_reducible apply Laws.State.put_kept); (case mhl => decide)) | ((with_reducible apply Laws.State.scrubBlock_kept); (case mhl => decide)) | ((with_reducible apply Laws.State.setOp_kept); (case mhl => decide)) | with_reducible apply Kept.ite | (fail_if_no_progress ((with_reducible apply Kept.upd); (case ho => (refine Only.of (fun p hp => ?_) rfl; cases p <;> first | rfl | (refine absurd ?_ hp; decide))); (case hi => (repeat' first | with_reducible exact IoKept.refl _ | with_reducible apply Laws.Io.put_kept | with_reducible apply IoKept.ite | with_reducible apply IoKept.foldl | with_reducible apply IoKept.put | with_reducible apply IoKept.filter | (fail_if_no_progress with_reducible apply IoKept.upd) | intro _ | dsimp only | split)); (case ht => (repeat' first | with_reducible exact T1Kept.refl _ | with_reducible apply T1Kept.ite | with_reducible apply T1Kept.foldl | with_reducible apply T1Kept.put | with_reducible apply T1Kept.filter | (fail_if_no_progress with_reducible apply T1Kept.upd) | intro _ | dsimp only | split)))) | intro _ | dsimp only | split); done))
    | ((with_reducible apply Kept.iteR); case k => ((repeat' first | with_reducible exact Kept.refl _ | ((with_reducible apply Laws.State.checkChannel_kept); (case mhl => decide)) | ((with_reducible apply Laws.State.checkPoison_kept); (case mhl => decide)) | ((with_reducible apply Laws.State.endOp_kept); (case mhl => decide)) | ((with_reducible apply Laws.State.put_kept); (case mhl => decide)) | ((with_reducible apply Laws.State.scrubBlock_kept); (case mhl => decide)) | ((with_reducible apply Laws.State.setOp_kept); (case mhl => decide)) | with_reducible apply Kept.ite | (fail_if_no_progress ((with_reducible apply Kept.upd); (case ho => (refine Only.of (fun p hp => ?_) rfl; cases p <;> first | rfl | (refine absurd ?_ hp; decide))); (case hi => (repeat' first | with_reducible exact IoKept.refl _ | with_reducible apply Laws.Io.put_kept | with_reducible apply IoKept.ite | with_reducible apply IoKept.foldl | with_reducible apply IoKept.put | with_reducible apply IoKept.filter | (fail_if_no_progress with_reducible apply IoKept.upd) | intro _ | dsimp only | split)); (case ht => (repeat' first | with_reducible exact T1Kept.refl _ | with_reducible apply T1Kept.ite | with_reducible apply T1Kept.foldl | with_reducible apply T1Kept.put | with_reducible apply T1Kept.filter | (fail_if_no_progress with_reducible apply T1Kept.upd) | intro _ | dsimp only | split)))) | intro _ | dsimp only | split); done))
    | with_reducible apply Kept.ite
    | (fail_if_no_progress ((with_reducible apply Kept.upd); (case ho => (refine Only.of (fun p hp => ?_) rfl; cases p <;> first | rfl | (refine absurd ?_ hp; decide))); (case hi => (repeat' first | with_reducible exact IoKept.refl _ | with_reducible apply Laws.Io.put_kept | with_reducible apply IoKept.ite | with_reducible apply IoKept.foldl | with_reducible apply IoKept.put | with_reducible apply IoKept.filter | (fail_if_no_progress with_reducible apply IoKept.upd) | intro _ | dsimp only | split)); (case ht => (repeat' first | with_reducible exact T1Kept.refl _ | with_reducible apply T1Kept.ite | with_reducible apply T1Kept.foldl | with_reducible apply T1Kept.put | with_reducible apply T1Kept.filter | (fail_if_no_progress with_reducible apply T1Kept.upd) | intro _ | dsimp only | split))))
    | intro _
    | dsimp only
    | split

theorem execChannelCopyDone_kept (h : Nat) (s : State) : ∃ out, execChannelCopyDone h s = .next out ∧ Kept [.io, .t1, .units] s out := by
  unfold execChannelCopyDone
  try dsimp only
  refine ⟨_, rfl, ?_⟩
  try dsimp only
  repeat' first
    | with_reducible exact Kept.refl _
    | ((with_reducible apply Laws.State.addPoison_kept); (case mhl => decide))
    | ((with_reducible apply Kept.iteL); case k => ((repeat' first | with_reducible exact Kept.refl _ | ((with_reducible apply Laws.State.addPoison_kept); (case mhl => decide)) | with_reducible apply Kept.foldl | with_reducible apply Kept.foldlFst | with_reducible apply Kept.foldlSnd | with_reducible apply Kept.ite | (fail_if_no_progress ((with_reducible apply Kept.upd); (case ho => (refine Only.of (fun p hp => ?_) rfl; cases p <;> first | rfl | (refine absurd ?_ hp; decide))); (case hi => (repeat' first | with_reducible exact IoKept.refl _ | with_reducible apply IoKept.ite | with_reducible apply IoKept.foldl | with_reducible apply IoKept.put | with_reducible apply IoKept.filter | (fail_if_no_progress with_reducible apply IoKept.upd) | intro _ | dsimp only | split)); (case ht => (repeat' first | with_reducible exact T1Kept.refl _ | with_reducible apply T1Kept.ite | with_reducible apply T1Kept.foldl | with_reducible apply T1Kept.put | with_reducible apply T1Kept.filter | (fail_if_no_progress with_reducible apply T1Kept.upd) | intro _ | dsimp only | split)))) | intro _ | dsimp only | split); done))
    | ((with_reducible apply Kept.iteR); case k => ((repeat' first | with_reducible exact Kept.refl _ | ((with_reducible apply Laws.State.addPoison_kept); (case mhl => decide)) | with_reducible apply Kept.foldl | with_reducible apply Kept.foldlFst | with_reducible apply Kept.foldlSnd | with_reducible apply Kept.ite | (fail_if_no_progress ((with_reducible apply Kept.upd); (case ho => (refine Only.of (fun p hp => ?_) rfl; cases p <;> first | rfl | (refine absurd ?_ hp; decide))); (case hi => (repeat' first | with_reducible exact IoKept.refl _ | with_reducible apply IoKept.ite | with_reducible apply IoKept.foldl | with_reducible apply IoKept.put | with_reducible apply IoKept.filter | (fail_if_no_progress with_reducible apply IoKept.upd) | intro _ | dsimp only | split)); (case ht => (repeat' first | with_reducible exact T1Kept.refl _ | with_reducible apply T1Kept.ite | with_reducible apply T1Kept.foldl | with_reducible apply T1Kept.put | with_reducible apply T1Kept.filter | (fail_if_no_progress with_reducible apply T1Kept.upd) | intro _ | dsimp only | split)))) | intro _ | dsimp only | split); done))
    | with_reducible apply Kept.ite
    | with_reducible apply Kept.foldl
    | with_reducible apply Kept.foldlFst
    | with_reducible apply Kept.foldlSnd
    | (fail_if_no_progress ((with_reducible apply Kept.upd); (case ho => (refine Only.of (fun p hp => ?_) rfl; cases p <;> first | rfl | (refine absurd ?_ hp; decide))); (case hi => (repeat' first | with_reducible exact IoKept.refl _ | with_reducible apply IoKept.ite | with_reducible apply IoKept.foldl | with_reducible apply IoKept.put | with_reducible apply IoKept.filter | (fail_if_no_progress with_reducible apply IoKept.upd) | intro _ | dsimp only | split)); (case ht => (repeat' first | with_reducible exact T1Kept.refl _ | with_reducible apply T1Kept.ite | with_reducible apply T1Kept.foldl | with_reducible apply T1Kept.put | with_reducible apply T1Kept.filter | (fail_if_no_progress with_reducible apply T1Kept.upd) | intro _ | dsimp only | split))))
    | intro _
    | dsimp only
    | split

theorem execEvacTimeExpiry_kept (h ch : Nat) (s : State) : ∃ out, execEvacTimeExpiry h ch s = .next out ∧ Kept [.io, .t1, .shed, .prefetch, .stalls, .units, .ops, .mirrors, .redirects, .cp, .cpSlots, .contexts, .answers, .tallies, .textCache, .rounds, .svChanged, .net] s out := by
  unfold execEvacTimeExpiry
  try dsimp only
  refine ⟨_, rfl, ?_⟩
  try dsimp only
  repeat' first
    | with_reducible exact Kept.refl _
    | ((with_reducible apply Laws.State.retireChannel_kept); (case mhl => decide))
    | with_reducible apply Kept.ite
    | intro _
    | dsimp only
    | split

theorem execDramChannelTrainFail_kept (h p : Nat) (readable : Bool) (s : State) : ∃ out, execDramChannelTrainFail h p readable s = .next out ∧ Kept [.io, .yt, .t1, .shed, .prefetch, .stalls, .units, .ops, .mirrors, .redirects, .cp, .cpSlots, .contexts, .answers, .tallies, .textCache, .rounds, .svChanged, .net] s out := by
  unfold execDramChannelTrainFail
  try dsimp only
  refine ⟨_, rfl, ?_⟩
  try dsimp only
  repeat' first
    | with_reducible exact Kept.refl _
    | ((with_reducible apply Laws.State.autoSpare_kept); (case mhl => decide))
    | ((with_reducible apply Laws.State.put_kept); (case mhl => decide))
    | ((with_reducible apply Laws.State.spareFailed_kept); (case mhl => decide))
    | with_reducible apply Kept.ite
    | (fail_if_no_progress ((with_reducible apply Kept.upd); (case ho => (refine Only.of (fun p hp => ?_) rfl; cases p <;> first | rfl | (refine absurd ?_ hp; decide))); (case hi => (repeat' first | with_reducible exact IoKept.refl _ | with_reducible apply Laws.Io.put_kept | with_reducible apply IoKept.ite | with_reducible apply IoKept.foldl | with_reducible apply IoKept.put | with_reducible apply IoKept.filter | (fail_if_no_progress with_reducible apply IoKept.upd) | intro _ | dsimp only | split)); (case ht => (repeat' first | with_reducible exact T1Kept.refl _ | with_reducible apply T1Kept.ite | with_reducible apply T1Kept.foldl | with_reducible apply T1Kept.put | with_reducible apply T1Kept.filter | (fail_if_no_progress with_reducible apply T1Kept.upd) | intro _ | dsimp only | split))))
    | intro _
    | dsimp only
    | split

theorem execShedPortTrain_kept (s : State) : ∃ out, execShedPortTrain s = .next out ∧ Kept [.shed] s out := by
  unfold execShedPortTrain
  try dsimp only
  refine ⟨_, rfl, ?_⟩
  try dsimp only
  repeat' first
    | with_reducible exact Kept.refl _
    | ((with_reducible apply Laws.State.setShedPort_kept); (case mhl => decide))
    | with_reducible apply Kept.ite
    | with_reducible apply Kept.foldl
    | with_reducible apply Kept.foldlFst
    | with_reducible apply Kept.foldlSnd
    | (fail_if_no_progress ((with_reducible apply Kept.upd); (case ho => (refine Only.of (fun p hp => ?_) rfl; cases p <;> first | rfl | (refine absurd ?_ hp; decide))); (case hi => exact IoKept.refl _); (case ht => exact T1Kept.refl _)))
    | intro _
    | dsimp only
    | split

theorem State.foundSlot_frame (s : State) (e : Nat × CpImage) : Kept [.io, .cpSlots] s (State.foundSlot s e) := by
  unfold State.foundSlot
  try dsimp only
  repeat' first
    | with_reducible exact Kept.refl _
    | ((with_reducible apply Laws.State.put_kept); (case mhl => decide))
    | with_reducible apply Kept.ite
    | (fail_if_no_progress ((with_reducible apply Kept.upd); (case ho => (refine Only.of (fun p hp => ?_) rfl; cases p <;> first | rfl | (refine absurd ?_ hp; decide))); (case hi => (repeat' first | with_reducible exact IoKept.refl _ | with_reducible apply Laws.Io.put_kept | with_reducible apply IoKept.ite | with_reducible apply IoKept.foldl | with_reducible apply IoKept.put | with_reducible apply IoKept.filter | (fail_if_no_progress with_reducible apply IoKept.upd) | intro _ | dsimp only | split)); (case ht => exact T1Kept.refl _)))
    | intro _
    | dsimp only
    | split
theorem State.foundSlot_kept {ml : List StateField} {mz : State} {s : State} {e : Nat × CpImage} (mhl : [.io, .cpSlots] ⊆ ml) (mh : Kept ml mz s) : Kept ml mz (State.foundSlot s e) :=
  Kept.after ((State.foundSlot_frame s e).mono mhl) mh

theorem execShedPortTrainDone_kept (p : Nat) (found : ShedFound) (s : State) : ∃ out, execShedPortTrainDone p found s = .next out ∧ Kept [.io, .shed, .cpSlots, .svChanged] s out := by
  unfold execShedPortTrainDone
  try dsimp only
  refine ⟨_, rfl, ?_⟩
  try dsimp only
  repeat' first
    | with_reducible exact Kept.refl _
    | ((with_reducible apply Laws.State.foundSlot_kept); (case mhl => decide))
    | ((with_reducible apply Laws.State.put_kept); (case mhl => decide))
    | ((with_reducible apply Laws.State.raise_kept); (case mhl => decide))
    | ((with_reducible apply Laws.State.recomputeDirtyMax_kept); (case mhl => decide))
    | ((with_reducible apply Laws.State.setShedPort_kept); (case mhl => decide))
    | ((with_reducible apply Laws.State.survey_kept); (case mhl => decide))
    | with_reducible apply Kept.ite
    | with_reducible apply Kept.foldl
    | with_reducible apply Kept.foldlFst
    | with_reducible apply Kept.foldlSnd
    | (fail_if_no_progress ((with_reducible apply Kept.upd); (case ho => (refine Only.of (fun p hp => ?_) rfl; cases p <;> first | rfl | (refine absurd ?_ hp; decide))); (case hi => (repeat' first | with_reducible exact IoKept.refl _ | with_reducible apply Laws.Io.put_kept | with_reducible apply Laws.Io.raise_kept | with_reducible apply IoKept.ite | with_reducible apply IoKept.foldl | with_reducible apply IoKept.put | with_reducible apply IoKept.filter | (fail_if_no_progress with_reducible apply IoKept.upd) | intro _ | dsimp only | split)); (case ht => exact T1Kept.refl _)))
    | intro _
    | dsimp only
    | split

theorem execShedPortDown_kept (p : Nat) (s : State) : ∃ out, execShedPortDown p s = .next out ∧ Kept [.io, .shed, .stalls, .svChanged] s out := by
  unfold execShedPortDown
  try dsimp only
  refine ⟨_, rfl, ?_⟩
  try dsimp only
  repeat' first
    | with_reducible exact Kept.refl _
    | ((with_reducible apply Laws.State.put_kept); (case mhl => decide))
    | ((with_reducible apply Laws.State.raise_kept); (case mhl => decide))
    | ((with_reducible apply Laws.State.recomputeDirtyMax_kept); (case mhl => decide))
    | ((with_reducible apply Laws.State.rewriteLost_kept); (case mhl => decide))
    | ((with_reducible apply Laws.State.survey_kept); (case mhl => decide))
    | with_reducible apply Kept.ite
    | with_reducible apply Kept.foldl
    | with_reducible apply Kept.foldlFst
    | with_reducible apply Kept.foldlSnd
    | intro _
    | dsimp only
    | split

theorem execShedWearMove_kept (p : Nat) (s : State) : ∃ out, execShedWearMove p s = .next out ∧ Kept [.io, .t1, .shed] s out := by
  unfold execShedWearMove
  try dsimp only
  refine ⟨_, rfl, ?_⟩
  try dsimp only
  repeat' first
    | with_reducible exact Kept.refl _
    | ((with_reducible apply Laws.State.raise_kept); (case mhl => decide))
    | ((with_reducible apply Laws.State.setShedPort_kept); (case mhl => decide))
    | with_reducible apply Kept.ite
    | with_reducible apply Kept.foldl
    | with_reducible apply Kept.foldlFst
    | with_reducible apply Kept.foldlSnd
    | with_reducible apply Kept.getD
    | (fail_if_no_progress ((with_reducible apply Kept.upd); (case ho => (refine Only.of (fun p hp => ?_) rfl; cases p <;> first | rfl | (refine absurd ?_ hp; decide))); (case hi => (repeat' first | with_reducible exact IoKept.refl _ | with_reducible apply Laws.Io.raise_kept | with_reducible apply IoKept.ite | with_reducible apply IoKept.foldl | with_reducible apply IoKept.put | with_reducible apply IoKept.filter | (fail_if_no_progress with_reducible apply IoKept.upd) | intro _ | dsimp only | split)); (case ht => (repeat' first | with_reducible exact T1Kept.refl _ | with_reducible apply Laws.Tier1.free_kept | with_reducible apply T1Kept.ite | with_reducible apply T1Kept.foldl | with_reducible apply T1Kept.put | with_reducible apply T1Kept.filter | (fail_if_no_progress with_reducible apply T1Kept.upd) | intro _ | dsimp only | split))))
    | intro _
    | dsimp only
    | split

theorem State.disturbMove_frame (s : State) (p k : Nat) : Kept [.io, .shed] s (State.disturbMove s p k) := by
  unfold State.disturbMove
  try dsimp only
  repeat' first
    | with_reducible exact Kept.refl _
    | ((with_reducible apply Laws.State.raise_kept); (case mhl => decide))
    | ((with_reducible apply Laws.State.setShedPort_kept); (case mhl => decide))
    | with_reducible apply Kept.ite
    | with_reducible apply Kept.getD
    | (fail_if_no_progress ((with_reducible apply Kept.upd); (case ho => (refine Only.of (fun p hp => ?_) rfl; cases p <;> first | rfl | (refine absurd ?_ hp; decide))); (case hi => (repeat' first | with_reducible exact IoKept.refl _ | with_reducible apply Laws.Io.raise_kept | with_reducible apply IoKept.ite | with_reducible apply IoKept.foldl | with_reducible apply IoKept.put | with_reducible apply IoKept.filter | (fail_if_no_progress with_reducible apply IoKept.upd) | intro _ | dsimp only | split)); (case ht => exact T1Kept.refl _)))
    | intro _
    | dsimp only
    | split
theorem State.disturbMove_kept {ml : List StateField} {mz : State} {s : State} {p k : Nat} (mhl : [.io, .shed] ⊆ ml) (mh : Kept ml mz s) : Kept ml mz (State.disturbMove s p k) :=
  Kept.after ((State.disturbMove_frame s p k).mono mhl) mh

theorem execShedReadDisturbMove_kept (p k reads : Nat) (corrected : Bool) (s : State) : ∃ out, execShedReadDisturbMove p k reads corrected s = .next out ∧ Kept [.io, .shed] s out := by
  unfold execShedReadDisturbMove
  try dsimp only
  refine ⟨_, rfl, ?_⟩
  try dsimp only
  repeat' first
    | with_reducible exact Kept.refl _
    | ((with_reducible apply Laws.State.disturbMove_kept); (case mhl => decide))
    | ((with_reducible apply Laws.State.setShedPort_kept); (case mhl => decide))
    | with_reducible apply Kept.ite
    | (fail_if_no_progress ((with_reducible apply Kept.upd); (case ho => (refine Only.of (fun p hp => ?_) rfl; cases p <;> first | rfl | (refine absurd ?_ hp; decide))); (case hi => (repeat' first | with_reducible exact IoKept.refl _ | with_reducible apply IoKept.ite | with_reducible apply IoKept.foldl | with_reducible apply IoKept.put | with_reducible apply IoKept.filter | (fail_if_no_progress with_reducible apply IoKept.upd) | intro _ | dsimp only | split)); (case ht => exact T1Kept.refl _)))
    | intro _
    | dsimp only
    | split

theorem execShedScrub_kept (p : Nat) (failing : List Nat) (s : State) : ∃ out, execShedScrub p failing s = .next out ∧ Kept [.io, .shed] s out := by
  unfold execShedScrub
  try dsimp only
  refine ⟨_, rfl, ?_⟩
  try dsimp only
  repeat' first
    | with_reducible exact Kept.refl _
    | ((with_reducible apply Laws.State.disturbMove_kept); (case mhl => decide))
    | ((with_reducible apply Laws.State.setShedPort_kept); (case mhl => decide))
    | with_reducible apply Kept.ite
    | with_reducible apply Kept.foldl
    | with_reducible apply Kept.foldlFst
    | with_reducible apply Kept.foldlSnd
    | (fail_if_no_progress ((with_reducible apply Kept.upd); (case ho => (refine Only.of (fun p hp => ?_) rfl; cases p <;> first | rfl | (refine absurd ?_ hp; decide))); (case hi => (repeat' first | with_reducible exact IoKept.refl _ | with_reducible apply IoKept.ite | with_reducible apply IoKept.foldl | with_reducible apply IoKept.put | with_reducible apply IoKept.filter | (fail_if_no_progress with_reducible apply IoKept.upd) | intro _ | dsimp only | split)); (case ht => exact T1Kept.refl _)))
    | intro _
    | dsimp only
    | split

theorem State.pfPlace_frame (s : State) (k : Nat) (e : PfEntry) {v0 : List (Nat × Nat)} {v1 : State} (me : State.pfPlace s k e = some (v0, v1)) : Kept [.t1] s v1 := by
  unfold State.pfPlace at me
  revert me
  generalize s.pfHives e = l
  have go : ∀ (l : List Nat) (r : Option (List (Nat × Nat) × State)), (∀ q, r = some q → Kept [.t1] s q.2) → ∀ q,
      l.foldl (fun r h => r.bind (fun q => if e.tier1 ≠ 2 ^ 64 - 1 then some (q.1 ++ [(h, h * 2 ^ 36 + e.tier1)], q.2)
        else (q.2.alloc h e.granules 1 (.prefetch k)).map (fun a => (q.1 ++ [(h, 4096 * a.1)], a.2)))) r = some q → Kept [.t1] s q.2 := by
    intro l
    induction l with
    | nil => intro r hr q hq; exact hr q hq
    | cons h t ih =>
      intro r hr q hq
      refine ih _ ?_ q hq
      intro p hp
      rw [Option.bind_eq_some_iff] at hp
      obtain ⟨a, ha, hp⟩ := hp
      split at hp
      · cases hp; exact hr a ha
      · rw [Option.map_eq_some_iff] at hp
        obtain ⟨b, hb, hp⟩ := hp
        cases hp
        exact State.alloc_kept (by decide) hb (hr a ha)
  intro me
  exact go l _ (fun q hq => by cases hq; exact Kept.refl _) _ me
theorem State.pfPlace_kept {ml : List StateField} {mz : State} {s : State} {k : Nat} {e : PfEntry} {v0 : List (Nat × Nat)} {v1 : State} (mhl : [.t1] ⊆ ml) (me : State.pfPlace s k e = some (v0, v1)) (mh : Kept ml mz s) : Kept ml mz v1 :=
  Kept.after ((State.pfPlace_frame s k e me).mono mhl) mh

theorem State.makePoolRoom_frame (s : State) (e : PfEntry) (n : Nat) : Kept [.t1, .prefetch] s (State.makePoolRoom s e n) := by
  induction n generalizing s with
  | zero => exact Kept.refl _
  | succ n ih =>
    unfold State.makePoolRoom
    split
    · exact Kept.refl _
    · split
      · exact (ih _).after (State.pfDrop_kept (by decide) (Kept.refl _))
      · exact Kept.refl _
theorem State.makePoolRoom_kept {ml : List StateField} {mz : State} {s : State} {e : PfEntry} {n : Nat} (mhl : [.t1, .prefetch] ⊆ ml) (mh : Kept ml mz s) : Kept ml mz (State.makePoolRoom s e n) :=
  Kept.after ((State.makePoolRoom_frame s e n).mono mhl) mh

theorem State.pfLoad_frame (s : State) (k : Nat) : Kept [.io, .t1, .prefetch] s (State.pfLoad s k) := by
  unfold State.pfLoad
  split
  · exact Kept.refl _
  split
  · exact Kept.refl _
  extract_lets s1 s2 room
  have h1 : Kept [.io, .t1, .prefetch] s s1 := State.pfDrop_kept (by decide) (Kept.refl _)
  clear_value s1
  have h2 : Kept [.io, .t1, .prefetch] s s2 := Kept.ite (State.makePoolRoom_kept (by decide) h1) h1
  clear_value s2
  split
  · exact h2
  split
  · next hp => exact State.pfRead_kept (by decide) (State.pfPlace_kept (by decide) hp h2)
  · exact h2
theorem State.pfLoad_kept {ml : List StateField} {mz : State} {s : State} {k : Nat} (mhl : [.io, .t1, .prefetch] ⊆ ml) (mh : Kept ml mz s) : Kept ml mz (State.pfLoad s k) :=
  Kept.after ((State.pfLoad_frame s k).mono mhl) mh

theorem State.pfTableRead_frame (s : State) : Kept [.io, .yt, .t1, .shed, .prefetch, .stalls, .units, .ops, .mirrors, .redirects, .cp, .cpSlots, .contexts, .answers, .tallies, .textCache, .rounds, .svChanged, .net] s (State.pfTableRead s) := by
  unfold State.pfTableRead
  try dsimp only
  repeat' first
    | with_reducible exact Kept.refl _
    | ((with_reducible apply Laws.State.afterRead_kept); (case mhl => decide))
    | ((with_reducible apply Laws.State.checkPoison_kept); (case mhl => decide))
    | with_reducible apply Kept.ite
    | intro _
    | dsimp only
    | split
theorem State.pfTableRead_kept {ml : List StateField} {mz : State} {s : State} (mhl : [.io, .yt, .t1, .shed, .prefetch, .stalls, .units, .ops, .mirrors, .redirects, .cp, .cpSlots, .contexts, .answers, .tallies, .textCache, .rounds, .svChanged, .net] ⊆ ml) (mh : Kept ml mz s) : Kept ml mz (State.pfTableRead s) :=
  Kept.after ((State.pfTableRead_frame s).mono mhl) mh

theorem State.writePfCtrl_frame (s : State) (w : RegWrite) : Kept [.io, .yt, .t1, .shed, .prefetch, .stalls, .units, .ops, .mirrors, .redirects, .cp, .cpSlots, .contexts, .answers, .tallies, .textCache, .rounds, .svChanged, .net] s (State.writePfCtrl s w) := by
  unfold State.writePfCtrl
  try dsimp only
  repeat' first
    | with_reducible exact Kept.refl _
    | ((with_reducible apply Laws.State.enGate_kept); (case mhl => decide))
    | ((with_reducible apply Laws.State.fromPort_kept); (case mhl => decide))
    | ((with_reducible apply Laws.State.pfLoad_kept); (case mhl => decide))
    | ((with_reducible apply Laws.State.pfTableRead_kept); (case mhl => decide))
    | ((with_reducible apply Laws.State.store_kept); (case mhl => decide))
    | with_reducible apply Kept.ite
    | with_reducible apply Kept.foldl
    | with_reducible apply Kept.foldlFst
    | with_reducible apply Kept.foldlSnd
    | intro _
    | dsimp only
    | split
theorem State.writePfCtrl_kept {ml : List StateField} {mz : State} {s : State} {w : RegWrite} (mhl : [.io, .yt, .t1, .shed, .prefetch, .stalls, .units, .ops, .mirrors, .redirects, .cp, .cpSlots, .contexts, .answers, .tallies, .textCache, .rounds, .svChanged, .net] ⊆ ml) (mh : Kept ml mz s) : Kept ml mz (State.writePfCtrl s w) :=
  Kept.after ((State.writePfCtrl_frame s w).mono mhl) mh

theorem execPfEnable_kept (w : RegWrite) (s : State) : ∃ out, execPfEnable w s = .next out ∧ Kept [.io, .yt, .t1, .shed, .prefetch, .stalls, .units, .ops, .mirrors, .redirects, .cp, .cpSlots, .contexts, .answers, .tallies, .textCache, .rounds, .svChanged, .net] s out := by
  unfold execPfEnable
  try dsimp only
  refine ⟨_, rfl, ?_⟩
  try dsimp only
  repeat' first
    | with_reducible exact Kept.refl _
    | ((with_reducible apply Laws.State.writePfCtrl_kept); (case mhl => decide))
    | with_reducible apply Kept.ite
    | intro _
    | dsimp only
    | split

theorem execPfCommit_kept (w : RegWrite) (s : State) : ∃ out, execPfCommit w s = .next out ∧ Kept [.io, .yt, .t1, .shed, .prefetch, .stalls, .units, .ops, .mirrors, .redirects, .cp, .cpSlots, .contexts, .answers, .tallies, .textCache, .rounds, .svChanged, .net] s out := by
  unfold execPfCommit
  try dsimp only
  refine ⟨_, rfl, ?_⟩
  try dsimp only
  repeat' first
    | with_reducible exact Kept.refl _
    | ((with_reducible apply Laws.State.writePfCtrl_kept); (case mhl => decide))
    | with_reducible apply Kept.ite
    | intro _
    | dsimp only
    | split

theorem State.pfStream_frame (s : State) (t k : Nat) : Kept [.io, .t1, .prefetch] s (State.pfStream s t k) := by
  unfold State.pfStream
  try dsimp only
  repeat' first
    | with_reducible exact Kept.refl _
    | ((with_reducible apply Laws.State.pfLoad_kept); (case mhl => decide))
    | ((with_reducible apply Laws.State.setResident_kept); (case mhl => decide))
    | with_reducible apply Kept.ite
    | (fail_if_no_progress ((with_reducible apply Kept.upd); (case ho => (refine Only.of (fun p hp => ?_) rfl; cases p <;> first | rfl | (refine absurd ?_ hp; decide))); (case hi => (repeat' first | with_reducible exact IoKept.refl _ | with_reducible apply IoKept.ite | with_reducible apply IoKept.foldl | with_reducible apply IoKept.put | with_reducible apply IoKept.filter | (fail_if_no_progress with_reducible apply IoKept.upd) | intro _ | dsimp only | split)); (case ht => (repeat' first | with_reducible exact T1Kept.refl _ | with_reducible apply T1Kept.ite | with_reducible apply T1Kept.foldl | with_reducible apply T1Kept.put | with_reducible apply T1Kept.filter | (fail_if_no_progress with_reducible apply T1Kept.upd) | intro _ | dsimp only | split))))
    | intro _
    | dsimp only
    | split
theorem State.pfStream_kept {ml : List StateField} {mz : State} {s : State} {t k : Nat} (mhl : [.io, .t1, .prefetch] ⊆ ml) (mh : Kept ml mz s) : Kept ml mz (State.pfStream s t k) :=
  Kept.after ((State.pfStream_frame s t k).mono mhl) mh

theorem State.pfUnuse_frame (s : State) (t k : Nat) : Kept [.t1, .prefetch] s (State.pfUnuse s t k) := by
  unfold State.pfUnuse
  try dsimp only
  repeat' first
    | with_reducible exact Kept.refl _
    | ((with_reducible apply Laws.State.pfDrop_kept); (case mhl => decide))
    | ((with_reducible apply Laws.State.setResident_kept); (case mhl => decide))
    | with_reducible apply Kept.ite
    | (fail_if_no_progress ((with_reducible apply Kept.upd); (case ho => (refine Only.of (fun p hp => ?_) rfl; cases p <;> first | rfl | (refine absurd ?_ hp; decide))); (case hi => exact IoKept.refl _); (case ht => (repeat' first | with_reducible exact T1Kept.refl _ | with_reducible apply T1Kept.ite | with_reducible apply T1Kept.foldl | with_reducible apply T1Kept.put | with_reducible apply T1Kept.filter | (fail_if_no_progress with_reducible apply T1Kept.upd) | intro _ | dsimp only | split))))
    | intro _
    | dsimp only
    | split
theorem State.pfUnuse_kept {ml : List StateField} {mz : State} {s : State} {t k : Nat} (mhl : [.t1, .prefetch] ⊆ ml) (mh : Kept ml mz s) : Kept ml mz (State.pfUnuse s t k) :=
  Kept.after ((State.pfUnuse_frame s t k).mono mhl) mh

theorem State.pfSelect_frame (s : State) (k : Nat) : Kept [.io, .t1, .prefetch] s (State.pfSelect s k) := by
  unfold State.pfSelect
  try dsimp only
  repeat' first
    | with_reducible exact Kept.refl _
    | ((with_reducible apply Laws.State.bump_kept); (case mhl => decide))
    | ((with_reducible apply Laws.State.pfLoad_kept); (case mhl => decide))
    | ((with_reducible apply Laws.State.setResident_kept); (case mhl => decide))
    | ((with_reducible apply Kept.iteL); case k => ((repeat' first | with_reducible exact Kept.refl _ | ((with_reducible apply Laws.State.bump_kept); (case mhl => decide)) | ((with_reducible apply Laws.State.pfLoad_kept); (case mhl => decide)) | ((with_reducible apply Laws.State.setResident_kept); (case mhl => decide)) | with_reducible apply Kept.ite | (fail_if_no_progress ((with_reducible apply Kept.upd); (case ho => (refine Only.of (fun p hp => ?_) rfl; cases p <;> first | rfl | (refine absurd ?_ hp; decide))); (case hi => (repeat' first | with_reducible exact IoKept.refl _ | with_reducible apply Laws.Io.bump_kept | with_reducible apply IoKept.ite | with_reducible apply IoKept.foldl | with_reducible apply IoKept.put | with_reducible apply IoKept.filter | (fail_if_no_progress with_reducible apply IoKept.upd) | intro _ | dsimp only | split)); (case ht => (repeat' first | with_reducible exact T1Kept.refl _ | with_reducible apply T1Kept.ite | with_reducible apply T1Kept.foldl | with_reducible apply T1Kept.put | with_reducible apply T1Kept.filter | (fail_if_no_progress with_reducible apply T1Kept.upd) | intro _ | dsimp only | split)))) | intro _ | dsimp only | split); done))
    | ((with_reducible apply Kept.iteR); case k => ((repeat' first | with_reducible exact Kept.refl _ | ((with_reducible apply Laws.State.bump_kept); (case mhl => decide)) | ((with_reducible apply Laws.State.pfLoad_kept); (case mhl => decide)) | ((with_reducible apply Laws.State.setResident_kept); (case mhl => decide)) | with_reducible apply Kept.ite | (fail_if_no_progress ((with_reducible apply Kept.upd); (case ho => (refine Only.of (fun p hp => ?_) rfl; cases p <;> first | rfl | (refine absurd ?_ hp; decide))); (case hi => (repeat' first | with_reducible exact IoKept.refl _ | with_reducible apply Laws.Io.bump_kept | with_reducible apply IoKept.ite | with_reducible apply IoKept.foldl | with_reducible apply IoKept.put | with_reducible apply IoKept.filter | (fail_if_no_progress with_reducible apply IoKept.upd) | intro _ | dsimp only | split)); (case ht => (repeat' first | with_reducible exact T1Kept.refl _ | with_reducible apply T1Kept.ite | with_reducible apply T1Kept.foldl | with_reducible apply T1Kept.put | with_reducible apply T1Kept.filter | (fail_if_no_progress with_reducible apply T1Kept.upd) | intro _ | dsimp only | split)))) | intro _ | dsimp only | split); done))
    | with_reducible apply Kept.ite
    | (fail_if_no_progress ((with_reducible apply Kept.upd); (case ho => (refine Only.of (fun p hp => ?_) rfl; cases p <;> first | rfl | (refine absurd ?_ hp; decide))); (case hi => (repeat' first | with_reducible exact IoKept.refl _ | with_reducible apply Laws.Io.bump_kept | with_reducible apply IoKept.ite | with_reducible apply IoKept.foldl | with_reducible apply IoKept.put | with_reducible apply IoKept.filter | (fail_if_no_progress with_reducible apply IoKept.upd) | intro _ | dsimp only | split)); (case ht => (repeat' first | with_reducible exact T1Kept.refl _ | with_reducible apply T1Kept.ite | with_reducible apply T1Kept.foldl | with_reducible apply T1Kept.put | with_reducible apply T1Kept.filter | (fail_if_no_progress with_reducible apply T1Kept.upd) | intro _ | dsimp only | split))))
    | intro _
    | dsimp only
    | split
theorem State.pfSelect_kept {ml : List StateField} {mz : State} {s : State} {k : Nat} (mhl : [.io, .t1, .prefetch] ⊆ ml) (mh : Kept ml mz s) : Kept ml mz (State.pfSelect s k) :=
  Kept.after ((State.pfSelect_frame s k).mono mhl) mh

theorem execPfLayerStart_kept (n : RoundLayer) (selected : List Nat) (s : State) : ∃ out, execPfLayerStart n selected s = .next out ∧ Kept [.io, .yt, .t1, .shed, .prefetch, .stalls, .units, .ops, .mirrors, .redirects, .cp, .cpSlots, .contexts, .answers, .tallies, .textCache, .rounds, .svChanged, .net] s out := by
  refine ⟨_, rfl, Kept.ite (Kept.refl _) ?_⟩
  extract_lets s1 objs s2 s3 s4 chosen s5 needed late
  have h1 : Kept [.io, .yt, .t1, .shed, .prefetch, .stalls, .units, .ops, .mirrors, .redirects, .cp, .cpSlots, .contexts, .answers, .tallies, .textCache, .rounds, .svChanged, .net] s s1 := State.pfTableRead_kept (by decide) (Kept.refl _)
  clear_value s1
  have h2 : Kept [.io, .yt, .t1, .shed, .prefetch, .stalls, .units, .ops, .mirrors, .redirects, .cp, .cpSlots, .contexts, .answers, .tallies, .textCache, .rounds, .svChanged, .net] s s2 := Kept.foldl h1 (fun _ _ => State.pfUnuse_kept (by decide) (Kept.refl _))
  clear_value s2
  have h3 : Kept [.io, .yt, .t1, .shed, .prefetch, .stalls, .units, .ops, .mirrors, .redirects, .cp, .cpSlots, .contexts, .answers, .tallies, .textCache, .rounds, .svChanged, .net] s s3 := Kept.foldl h2 (fun _ _ => State.pfStream_kept (by decide) (Kept.refl _))
  clear_value s3
  have h4 : Kept [.io, .yt, .t1, .shed, .prefetch, .stalls, .units, .ops, .mirrors, .redirects, .cp, .cpSlots, .contexts, .answers, .tallies, .textCache, .rounds, .svChanged, .net] s s4 := Kept.foldl h3 (fun _ _ => State.pfLoad_kept (by decide) (Kept.refl _))
  clear_value s4
  have h5 : Kept [.io, .yt, .t1, .shed, .prefetch, .stalls, .units, .ops, .mirrors, .redirects, .cp, .cpSlots, .contexts, .answers, .tallies, .textCache, .rounds, .svChanged, .net] s s5 := Kept.foldl h4 (fun _ _ => State.pfSelect_kept (by decide) (Kept.refl _))
  clear_value s5
  exact Kept.ite h5 (h5.upd (Only.of (fun p hp => by cases p <;> first | rfl | exact absurd (by decide) hp) rfl) (IoKept.refl _) (T1Kept.refl _))

theorem State.pfArrived_frame (s : State) (k : Nat) : Kept [.io, .prefetch] s (State.pfArrived s k) := by
  unfold State.pfArrived
  try dsimp only
  repeat' first
    | with_reducible exact Kept.refl _
    | ((with_reducible apply Laws.State.bump_kept); (case mhl => decide))
    | ((with_reducible apply Laws.State.raise_kept); (case mhl => decide))
    | with_reducible apply Kept.ite
    | with_reducible apply Kept.foldl
    | with_reducible apply Kept.foldlFst
    | with_reducible apply Kept.foldlSnd
    | with_reducible apply Kept.getD
    | (fail_if_no_progress ((with_reducible apply Kept.upd); (case ho => (refine Only.of (fun p hp => ?_) rfl; cases p <;> first | rfl | (refine absurd ?_ hp; decide))); (case hi => (repeat' first | with_reducible exact IoKept.refl _ | with_reducible apply Laws.Io.bump_kept | with_reducible apply Laws.Io.raise_kept | with_reducible apply IoKept.ite | with_reducible apply IoKept.foldl | with_reducible apply IoKept.put | with_reducible apply IoKept.filter | (fail_if_no_progress with_reducible apply IoKept.upd) | intro _ | dsimp only | split)); (case ht => exact T1Kept.refl _)))
    | intro _
    | dsimp only
    | split
theorem State.pfArrived_kept {ml : List StateField} {mz : State} {s : State} {k : Nat} (mhl : [.io, .prefetch] ⊆ ml) (mh : Kept ml mz s) : Kept ml mz (State.pfArrived s k) :=
  Kept.after ((State.pfArrived_frame s k).mono mhl) mh

theorem execPfObjectArrived_kept (k : Nat) (stripes : List (Nat × List Byte)) (s : State) : ∃ out, execPfObjectArrived k stripes s = .next out ∧ Kept [.io, .t1, .prefetch] s out := by
  unfold execPfObjectArrived
  try dsimp only
  refine ⟨_, rfl, ?_⟩
  try dsimp only
  repeat' first
    | with_reducible exact Kept.refl _
    | ((with_reducible apply Laws.State.pfArrived_kept); (case mhl => decide))
    | ((with_reducible apply Laws.State.setResident_kept); (case mhl => decide))
    | ((with_reducible apply Laws.State.writeT1_kept); (case mhl => decide))
    | with_reducible apply Kept.ite
    | with_reducible apply Kept.foldl
    | with_reducible apply Kept.foldlFst
    | with_reducible apply Kept.foldlSnd
    | (fail_if_no_progress ((with_reducible apply Kept.upd); (case ho => (refine Only.of (fun p hp => ?_) rfl; cases p <;> first | rfl | (refine absurd ?_ hp; decide))); (case hi => (repeat' first | with_reducible exact IoKept.refl _ | with_reducible apply IoKept.ite | with_reducible apply IoKept.foldl | with_reducible apply IoKept.put | with_reducible apply IoKept.filter | (fail_if_no_progress with_reducible apply IoKept.upd) | intro _ | dsimp only | split)); (case ht => (repeat' first | with_reducible exact T1Kept.refl _ | with_reducible apply T1Kept.ite | with_reducible apply T1Kept.foldl | with_reducible apply T1Kept.put | with_reducible apply T1Kept.filter | (fail_if_no_progress with_reducible apply T1Kept.upd) | intro _ | dsimp only | split))))
    | intro _
    | dsimp only
    | split

theorem State.pfRoundEnd_frame (s : State) (t : Nat) : Kept [.io, .t1, .prefetch] s (State.pfRoundEnd s t) := by
  unfold State.pfRoundEnd
  try dsimp only
  repeat' first
    | with_reducible exact Kept.refl _
    | ((with_reducible apply Laws.State.pfDrop_kept); (case mhl => decide))
    | ((with_reducible apply Laws.State.pfLoad_kept); (case mhl => decide))
    | ((with_reducible apply Laws.State.pfUnuse_kept); (case mhl => decide))
    | ((with_reducible apply Laws.State.setResident_kept); (case mhl => decide))
    | with_reducible apply Kept.ite
    | with_reducible apply Kept.foldl
    | with_reducible apply Kept.foldlFst
    | with_reducible apply Kept.foldlSnd
    | (fail_if_no_progress ((with_reducible apply Kept.upd); (case ho => (refine Only.of (fun p hp => ?_) rfl; cases p <;> first | rfl | (refine absurd ?_ hp; decide))); (case hi => (repeat' first | with_reducible exact IoKept.refl _ | with_reducible apply IoKept.ite | with_reducible apply IoKept.foldl | with_reducible apply IoKept.put | with_reducible apply IoKept.filter | (fail_if_no_progress with_reducible apply IoKept.upd) | intro _ | dsimp only | split)); (case ht => (repeat' first | with_reducible exact T1Kept.refl _ | with_reducible apply T1Kept.ite | with_reducible apply T1Kept.foldl | with_reducible apply T1Kept.put | with_reducible apply T1Kept.filter | (fail_if_no_progress with_reducible apply T1Kept.upd) | intro _ | dsimp only | split))))
    | intro _
    | dsimp only
    | split
theorem State.pfRoundEnd_kept {ml : List StateField} {mz : State} {s : State} {t : Nat} (mhl : [.io, .t1, .prefetch] ⊆ ml) (mh : Kept ml mz s) : Kept ml mz (State.pfRoundEnd s t) :=
  Kept.after ((State.pfRoundEnd_frame s t).mono mhl) mh

theorem State.placeRanges_frame (s : State) (commit : RegField) (ranges : List (Nat × Nat)) : Kept [.io, .t1] s (State.placeRanges s commit ranges) := by
  unfold State.placeRanges
  try dsimp only
  repeat' first
    | with_reducible exact Kept.refl _
    | ((with_reducible apply Laws.State.put_kept); (case mhl => decide))
    | with_reducible apply Kept.ite
    | with_reducible apply Kept.foldl
    | with_reducible apply Kept.foldlFst
    | with_reducible apply Kept.foldlSnd
    | (fail_if_no_progress ((with_reducible apply Kept.upd); (case ho => (refine Only.of (fun p hp => ?_) rfl; cases p <;> first | rfl | (refine absurd ?_ hp; decide))); (case hi => (repeat' first | with_reducible exact IoKept.refl _ | with_reducible apply Laws.Io.put_kept | with_reducible apply IoKept.ite | with_reducible apply IoKept.foldl | with_reducible apply IoKept.put | with_reducible apply IoKept.filter | (fail_if_no_progress with_reducible apply IoKept.upd) | intro _ | dsimp only | split)); (case ht => (repeat' first | with_reducible exact T1Kept.refl _ | with_reducible apply Laws.Tier1.own_kept | with_reducible apply T1Kept.ite | with_reducible apply T1Kept.foldl | with_reducible apply T1Kept.put | with_reducible apply T1Kept.filter | (fail_if_no_progress with_reducible apply T1Kept.upd) | intro _ | dsimp only | split))))
    | intro _
    | dsimp only
    | split
theorem State.placeRanges_kept {ml : List StateField} {mz : State} {s : State} {commit : RegField} {ranges : List (Nat × Nat)} (mhl : [.io, .t1] ⊆ ml) (mh : Kept ml mz s) : Kept ml mz (State.placeRanges s commit ranges) :=
  Kept.after ((State.placeRanges_frame s commit ranges).mono mhl) mh

theorem State.commitWrite_frame (s : State) (w : RegWrite) (commit : RegField) (ranges : State → List (Nat × Nat)) : Kept [.io, .t1] s (State.commitWrite s w commit ranges) := by
  unfold State.commitWrite
  try dsimp only
  repeat' first
    | with_reducible exact Kept.refl _
    | ((with_reducible apply Laws.State.placeRanges_kept); (case mhl => decide))
    | ((with_reducible apply Laws.State.store_kept); (case mhl => decide))
    | with_reducible apply Kept.ite
    | intro _
    | dsimp only
    | split
theorem State.commitWrite_kept {ml : List StateField} {mz : State} {s : State} {w : RegWrite} {commit : RegField} {ranges : State → List (Nat × Nat)} (mhl : [.io, .t1] ⊆ ml) (mh : Kept ml mz s) : Kept ml mz (State.commitWrite s w commit ranges) :=
  Kept.after ((State.commitWrite_frame s w commit ranges).mono mhl) mh

theorem State.writeStlCtrl_frame (s : State) (w : RegWrite) : Kept [.io, .t1] s (State.writeStlCtrl s w) := by
  unfold State.writeStlCtrl
  try dsimp only
  repeat' first
    | with_reducible exact Kept.refl _
    | ((with_reducible apply Laws.State.commitWrite_kept); (case mhl => decide))
    | ((with_reducible apply Laws.State.enGate_kept); (case mhl => decide))
    | ((with_reducible apply Laws.State.fromPort_kept); (case mhl => decide))
    | ((with_reducible apply Laws.State.put_kept); (case mhl => decide))
    | with_reducible apply Kept.ite
    | intro _
    | dsimp only
    | split
theorem State.writeStlCtrl_kept {ml : List StateField} {mz : State} {s : State} {w : RegWrite} (mhl : [.io, .t1] ⊆ ml) (mh : Kept ml mz s) : Kept ml mz (State.writeStlCtrl s w) :=
  Kept.after ((State.writeStlCtrl_frame s w).mono mhl) mh

theorem execStlCommit_kept (w : RegWrite) (s : State) : ∃ out, execStlCommit w s = .next out ∧ Kept [.io, .t1] s out := by
  unfold execStlCommit
  try dsimp only
  refine ⟨_, rfl, ?_⟩
  try dsimp only
  repeat' first
    | with_reducible exact Kept.refl _
    | ((with_reducible apply Laws.State.writeStlCtrl_kept); (case mhl => decide))
    | with_reducible apply Kept.ite
    | intro _
    | dsimp only
    | split

theorem State.writeSchCtxCtrl_frame (s : State) (w : RegWrite) : Kept [.io, .t1] s (State.writeSchCtxCtrl s w) := by
  unfold State.writeSchCtxCtrl
  try dsimp only
  repeat' first
    | with_reducible exact Kept.refl _
    | ((with_reducible apply Laws.State.commitWrite_kept); (case mhl => decide))
    | ((with_reducible apply Laws.State.enGate_kept); (case mhl => decide))
    | ((with_reducible apply Laws.State.fromPort_kept); (case mhl => decide))
    | with_reducible apply Kept.ite
    | intro _
    | dsimp only
    | split
theorem State.writeSchCtxCtrl_kept {ml : List StateField} {mz : State} {s : State} {w : RegWrite} (mhl : [.io, .t1] ⊆ ml) (mh : Kept ml mz s) : Kept ml mz (State.writeSchCtxCtrl s w) :=
  Kept.after ((State.writeSchCtxCtrl_frame s w).mono mhl) mh

theorem execSchCtxCommit_kept (w : RegWrite) (s : State) : ∃ out, execSchCtxCommit w s = .next out ∧ Kept [.io, .t1] s out := by
  unfold execSchCtxCommit
  try dsimp only
  refine ⟨_, rfl, ?_⟩
  try dsimp only
  repeat' first
    | with_reducible exact Kept.refl _
    | ((with_reducible apply Laws.State.writeSchCtxCtrl_kept); (case mhl => decide))
    | with_reducible apply Kept.ite
    | intro _
    | dsimp only
    | split

theorem execShCommit_kept (w : RegWrite) (s : State) : ∃ out, execShCommit w s = .next out ∧ Kept [.io] s out := by
  unfold execShCommit
  try dsimp only
  refine ⟨_, rfl, ?_⟩
  try dsimp only
  repeat' first
    | with_reducible exact Kept.refl _
    | ((with_reducible apply Laws.State.fromPort_kept); (case mhl => decide))
    | ((with_reducible apply Laws.State.store_kept); (case mhl => decide))
    | with_reducible apply Kept.ite
    | intro _
    | dsimp only
    | split

end Sys2Proof.Laws
end

