-- ==== Sys2Proof/Laws/KeptDid.lean ====
section
/-! SUPPORT. The same for what becomes of an instruction: it completes, holds or faults with a state that keeps what `Kept` says. -/

namespace Sys2Proof.Laws

open Sys2Proof Sys2Proof.Machine Sys2Proof.Safety

/-- The state that an instruction's outcome holds. -/
def didState : Did → State
  | .done s _ _ => s
  | .hold s => s
  | .fault s _ _ => s

/-- What an instruction's outcome keeps. -/
structure DidKept (l : List StateField) (s : State) (d : Did) : Prop where
  kept : Kept l s (didState d)

theorem DidKept.done {l : List StateField} {s t : State} {y : UnitX} {p : Option Nat} (h : Kept l s t) : DidKept l s (.done t y p) := ⟨h⟩
theorem DidKept.hold {l : List StateField} {s t : State} (h : Kept l s t) : DidKept l s (.hold t) := ⟨h⟩
theorem DidKept.fault {l : List StateField} {s t : State} {a b : Nat} (h : Kept l s t) : DidKept l s (.fault t a b) := ⟨h⟩
theorem DidKept.ite {l : List StateField} {s : State} {x y : Did} {c : Prop} [Decidable c] (h : DidKept l s x) (k : DidKept l s y) :
    DidKept l s (if c then x else y) := by
  split <;> assumption
theorem DidKept.after {l : List StateField} {s t : State} {d : Did} (k : DidKept l t d) (h : Kept l s t) : DidKept l s d := ⟨h.trans k.kept⟩
theorem DidKept.mono {l l' : List StateField} {s : State} {d : Did} (h : DidKept l s d) (hl : l ⊆ l') : DidKept l' s d := ⟨h.kept.mono hl⟩
theorem DidKept.ofDone {l : List StateField} {s t : State} {y : UnitX} {p : Option Nat} (h : DidKept l s (.done t y p)) : Kept l s t := h.kept
theorem DidKept.ofHold {l : List StateField} {s t : State} (h : DidKept l s (.hold t)) : Kept l s t := h.kept
theorem DidKept.ofFault {l : List StateField} {s t : State} {a b : Nat} (h : DidKept l s (.fault t a b)) : Kept l s t := h.kept

end Sys2Proof.Laws
end

