-- ==== Sys2Proof/Laws/KeptTrondiOps.lean ====
section
/-! SUPPORT. The frame lemma of every operation of Machine/TrondiOps.lean: which fields of the state it may change, and that it keeps the canonical
forms. -/

set_option Elab.async false
set_option linter.unusedTactic false
set_option linter.unreachableTactic false
set_option linter.unusedVariables false

namespace Sys2Proof.Laws

open Sys2Proof Sys2Proof.Machine Sys2Proof.Safety

theorem State.cellEcc_frame (s : State) (u ecc : Nat) : Kept [.io, .yt, .t1, .shed, .stalls, .units, .ops, .mirrors, .redirects, .cp, .cpSlots, .contexts, .answers, .tallies, .textCache, .rounds, .svChanged, .net, .sec] s (State.cellEcc s u ecc) := by
  unfold State.cellEcc
  try dsimp only
  repeat' first
    | with_reducible exact Kept.refl _
    | ((with_reducible apply Laws.State.bump_kept); (case mhl => decide))
    | ((with_reducible apply Laws.State.judge_kept); (case mhl => decide))
    | ((with_reducible apply Kept.iteL); case k => ((repeat' first | with_reducible exact Kept.refl _ | ((with_reducible apply Laws.State.bump_kept); (case mhl => decide)) | ((with_reducible apply Laws.State.judge_kept); (case mhl => decide)) | with_reducible apply Kept.ite | intro _ | dsimp only | split); done))
    | ((with_reducible apply Kept.iteR); case k => ((repeat' first | with_reducible exact Kept.refl _ | ((with_reducible apply Laws.State.bump_kept); (case mhl => decide)) | ((with_reducible apply Laws.State.judge_kept); (case mhl => decide)) | with_reducible apply Kept.ite | intro _ | dsimp only | split); done))
    | with_reducible apply Kept.ite
    | intro _
    | dsimp only
    | split
theorem State.cellEcc_kept {ml : List StateField} {mz : State} {s : State} {u ecc : Nat} (mhl : [.io, .yt, .t1, .shed, .stalls, .units, .ops, .mirrors, .redirects, .cp, .cpSlots, .contexts, .answers, .tallies, .textCache, .rounds, .svChanged, .net, .sec] ⊆ ml) (mh : Kept ml mz s) : Kept ml mz (State.cellEcc s u ecc) :=
  Kept.after ((State.cellEcc_frame s u ecc).mono mhl) mh

theorem State.tallyEcc_frame (s : State) (k ecc : Nat) : Kept [.io, .yt, .t1, .shed, .stalls, .units, .ops, .mirrors, .redirects, .cp, .cpSlots, .contexts, .answers, .tallies, .textCache, .rounds, .svChanged, .net, .sec] s (State.tallyEcc s k ecc) := by
  unfold State.tallyEcc
  try dsimp only
  repeat' first
    | with_reducible exact Kept.refl _
    | ((with_reducible apply Laws.State.judge_kept); (case mhl => decide))
    | ((with_reducible apply Laws.State.updUnits_kept); (case mhl => decide))
    | ((with_reducible apply Kept.iteL); case k => ((repeat' first | with_reducible exact Kept.refl _ | ((with_reducible apply Laws.State.judge_kept); (case mhl => decide)) | ((with_reducible apply Laws.State.updUnits_kept); (case mhl => decide)) | with_reducible apply Kept.ite | (fail_if_no_progress ((with_reducible apply Kept.upd); (case ho => (refine Only.of (fun p hp => ?_) rfl; cases p <;> first | rfl | (refine absurd ?_ hp; decide))); (case hi => (repeat' first | with_reducible exact IoKept.refl _ | with_reducible apply IoKept.ite | with_reducible apply IoKept.foldl | with_reducible apply IoKept.put | with_reducible apply IoKept.filter | (fail_if_no_progress with_reducible apply IoKept.upd) | intro _ | dsimp only | split)); (case ht => (repeat' first | with_reducible exact T1Kept.refl _ | with_reducible apply T1Kept.ite | with_reducible apply T1Kept.foldl | with_reducible apply T1Kept.put | with_reducible apply T1Kept.filter | (fail_if_no_progress with_reducible apply T1Kept.upd) | intro _ | dsimp only | split)))) | intro _ | dsimp only | split); done))
    | ((with_reducible apply Kept.iteR); case k => ((repeat' first | with_reducible exact Kept.refl _ | ((with_reducible apply Laws.State.judge_kept); (case mhl => decide)) | ((with_reducible apply Laws.State.updUnits_kept); (case mhl => decide)) | with_reducible apply Kept.ite | (fail_if_no_progress ((with_reducible apply Kept.upd); (case ho => (refine Only.of (fun p hp => ?_) rfl; cases p <;> first | rfl | (refine absurd ?_ hp; decide))); (case hi => (repeat' first | with_reducible exact IoKept.refl _ | with_reducible apply IoKept.ite | with_reducible apply IoKept.foldl | with_reducible apply IoKept.put | with_reducible apply IoKept.filter | (fail_if_no_progress with_reducible apply IoKept.upd) | intro _ | dsimp only | split)); (case ht => (repeat' first | with_reducible exact T1Kept.refl _ | with_reducible apply T1Kept.ite | with_reducible apply T1Kept.foldl | with_reducible apply T1Kept.put | with_reducible apply T1Kept.filter | (fail_if_no_progress with_reducible apply T1Kept.upd) | intro _ | dsimp only | split)))) | intro _ | dsimp only | split); done))
    | with_reducible apply Kept.ite
    | (fail_if_no_progress ((with_reducible apply Kept.upd); (case ho => (refine Only.of (fun p hp => ?_) rfl; cases p <;> first | rfl | (refine absurd ?_ hp; decide))); (case hi => (repeat' first | with_reducible exact IoKept.refl _ | with_reducible apply IoKept.ite | with_reducible apply IoKept.foldl | with_reducible apply IoKept.put | with_reducible apply IoKept.filter | (fail_if_no_progress with_reducible apply IoKept.upd) | intro _ | dsimp only | split)); (case ht => (repeat' first | with_reducible exact T1Kept.refl _ | with_reducible apply T1Kept.ite | with_reducible apply T1Kept.foldl | with_reducible apply T1Kept.put | with_reducible apply T1Kept.filter | (fail_if_no_progress with_reducible apply T1Kept.upd) | intro _ | dsimp only | split))))
    | intro _
    | dsimp only
    | split
theorem State.tallyEcc_kept {ml : List StateField} {mz : State} {s : State} {k ecc : Nat} (mhl : [.io, .yt, .t1, .shed, .stalls, .units, .ops, .mirrors, .redirects, .cp, .cpSlots, .contexts, .answers, .tallies, .textCache, .rounds, .svChanged, .net, .sec] ⊆ ml) (mh : Kept ml mz s) : Kept ml mz (State.tallyEcc s k ecc) :=
  Kept.after ((State.tallyEcc_frame s k ecc).mono mhl) mh

theorem State.otherWord_frame (s : State) (n : Insn) (word : Nat) : Kept [.io, .t1, .shed, .stalls, .units, .ops, .mirrors, .contexts, .answers, .tallies, .textCache, .rounds, .net] s (State.otherWord s n word) := by
  unfold State.otherWord
  try dsimp only
  repeat' first
    | with_reducible exact Kept.refl _
    | ((with_reducible apply Laws.State.faultContext_kept); (case mhl => decide))
    | with_reducible apply Kept.ite
    | (fail_if_no_progress ((with_reducible apply Kept.upd); (case ho => (refine Only.of (fun p hp => ?_) rfl; cases p <;> first | rfl | (refine absurd ?_ hp; decide))); (case hi => (repeat' first | with_reducible exact IoKept.refl _ | with_reducible apply IoKept.ite | with_reducible apply IoKept.foldl | with_reducible apply IoKept.put | with_reducible apply IoKept.filter | (fail_if_no_progress with_reducible apply IoKept.upd) | intro _ | dsimp only | split)); (case ht => (repeat' first | with_reducible exact T1Kept.refl _ | with_reducible apply T1Kept.ite | with_reducible apply T1Kept.foldl | with_reducible apply T1Kept.put | with_reducible apply T1Kept.filter | (fail_if_no_progress with_reducible apply T1Kept.upd) | intro _ | dsimp only | split))))
    | intro _
    | dsimp only
    | split
theorem State.otherWord_kept {ml : List StateField} {mz : State} {s : State} {n : Insn} {word : Nat} (mhl : [.io, .t1, .shed, .stalls, .units, .ops, .mirrors, .contexts, .answers, .tallies, .textCache, .rounds, .net] ⊆ ml) (mh : Kept ml mz s) : Kept ml mz (State.otherWord s n word) :=
  Kept.after ((State.otherWord_frame s n word).mono mhl) mh

theorem State.runInsn_kept {ml : List StateField} {mz : State} {s : State} {n : Insn} {cls op : Nat} {sh : Shape} {body : State → UnitX → Did} (mhl : [.io, .yt, .t1, .shed, .stalls, .units, .ops, .mirrors, .redirects, .cp, .cpSlots, .contexts, .answers, .tallies, .textCache, .rounds, .svChanged, .net, .sec] ⊆ ml) (hbody : ∀ a0 a1, DidKept ml a0 (body a0 a1)) (mh : Kept ml mz s) : Kept ml mz (State.runInsn s n cls op sh body) := by
  refine Kept.after ?_ mh
  have hf : ∀ u c a w, Kept ml s (s.faultContext n.slot u c a w) := fun _ _ _ _ => State.faultContext_kept (sub mhl (by decide)) (Kept.refl _)
  unfold State.runInsn
  extract_lets x y word s1 z
  refine Kept.ite (Kept.refl _) (Kept.ite (hf _ _ _ _) ?_)
  split
  · exact hf _ _ _ _
  refine Kept.ite (State.otherWord_kept (sub mhl (by decide)) (Kept.refl _)) (Kept.ite (hf _ _ _ _) (Kept.ite (hf _ _ _ _)
    (Kept.ite (State.retire_kept (sub mhl (by decide)) (Kept.refl _)) (Kept.ite (Kept.refl _) ?_))))
  have h1 : Kept ml s s1 := Kept.ite (Kept.refl _) (State.cellEcc_kept (sub mhl (by decide)) (Kept.refl _))
  refine Kept.ite h1 ?_
  have hb := (hbody s1 z).after h1
  split
  · next he => rw [he] at hb; exact State.retire_kept (sub mhl (by decide)) hb.ofDone
  · next he => rw [he] at hb; exact hb.ofHold
  · next he => rw [he] at hb; exact Kept.ite hb.ofFault (State.faultContext_kept (sub mhl (by decide)) hb.ofFault)

theorem State.request_kept {ml : List StateField} {mz : State} {s : State} {n : Insn} {y : UnitX} {pair : Bool} {c : Cmd} {recordAt : Option Nat} {act : State → State} (mhl : [.units, .contexts] ⊆ ml) (hact : ∀ a0, Kept ml a0 (act a0)) (mh : Kept ml mz s) : DidKept ml mz (State.request s n y pair c recordAt act) := by
  refine DidKept.after ?_ mh
  unfold State.request
  try dsimp only
  repeat' first
    | with_reducible exact Kept.refl _
    | with_reducible exact DidKept.refl _
    | with_reducible apply DidKept.done
    | with_reducible apply DidKept.hold
    | with_reducible apply DidKept.fault
    | with_reducible apply DidKept.ite
    | (with_reducible apply Kept.after (hact _))
    | ((with_reducible apply Laws.State.setUnit_kept); (case mhl => first | decide | (refine sub mhl ?_; decide)))
    | with_reducible apply Kept.ite
    | (fail_if_no_progress ((with_reducible apply Kept.upd); (case ho => (refine Only.of (fun p hp => ?_) rfl; cases p <;> first | rfl | (refine absurd (mhl ?_) hp; decide))); (case hi => exact IoKept.refl _); (case ht => exact T1Kept.refl _)))
    | intro _
    | dsimp only
    | split

theorem State.deliverAnswer_frame (s : State) (w : Answer) : Kept [.t1, .units, .contexts] s (State.deliverAnswer s w) := by
  unfold State.deliverAnswer
  try dsimp only
  repeat' first
    | with_reducible exact Kept.refl _
    | ((with_reducible apply Laws.State.setUnit_kept); (case mhl => decide))
    | ((with_reducible apply Laws.State.writeT1_kept); (case mhl => decide))
    | ((with_reducible apply Kept.iteL); case k => ((repeat' first | with_reducible exact Kept.refl _ | ((with_reducible apply Laws.State.setUnit_kept); (case mhl => decide)) | ((with_reducible apply Laws.State.writeT1_kept); (case mhl => decide)) | with_reducible apply Kept.ite | (fail_if_no_progress ((with_reducible apply Kept.upd); (case ho => (refine Only.of (fun p hp => ?_) rfl; cases p <;> first | rfl | (refine absurd ?_ hp; decide))); (case hi => exact IoKept.refl _); (case ht => (repeat' first | with_reducible exact T1Kept.refl _ | with_reducible apply T1Kept.ite | with_reducible apply T1Kept.foldl | with_reducible apply T1Kept.put | with_reducible apply T1Kept.filter | (fail_if_no_progress with_reducible apply T1Kept.upd) | intro _ | dsimp only | split)))) | intro _ | dsimp only | split); done))
    | ((with_reducible apply Kept.iteR); case k => ((repeat' first | with_reducible exact Kept.refl _ | ((with_reducible apply Laws.State.setUnit_kept); (case mhl => decide)) | ((with_reducible apply Laws.State.writeT1_kept); (case mhl => decide)) | with_reducible apply Kept.ite | (fail_if_no_progress ((with_reducible apply Kept.upd); (case ho => (refine Only.of (fun p hp => ?_) rfl; cases p <;> first | rfl | (refine absurd ?_ hp; decide))); (case hi => exact IoKept.refl _); (case ht => (repeat' first | with_reducible exact T1Kept.refl _ | with_reducible apply T1Kept.ite | with_reducible apply T1Kept.foldl | with_reducible apply T1Kept.put | with_reducible apply T1Kept.filter | (fail_if_no_progress with_reducible apply T1Kept.upd) | intro _ | dsimp only | split)))) | intro _ | dsimp only | split); done))
    | with_reducible apply Kept.ite
    | (fail_if_no_progress ((with_reducible apply Kept.upd); (case ho => (refine Only.of (fun p hp => ?_) rfl; cases p <;> first | rfl | (refine absurd ?_ hp; decide))); (case hi => exact IoKept.refl _); (case ht => (repeat' first | with_reducible exact T1Kept.refl _ | with_reducible apply T1Kept.ite | with_reducible apply T1Kept.foldl | with_reducible apply T1Kept.put | with_reducible apply T1Kept.filter | (fail_if_no_progress with_reducible apply T1Kept.upd) | intro _ | dsimp only | split))))
    | intro _
    | dsimp only
    | split
theorem State.deliverAnswer_kept {ml : List StateField} {mz : State} {s : State} {w : Answer} (mhl : [.t1, .units, .contexts] ⊆ ml) (mh : Kept ml mz s) : Kept ml mz (State.deliverAnswer s w) :=
  Kept.after ((State.deliverAnswer_frame s w).mono mhl) mh

theorem execERequestComplete_kept (k : Nat) (s : State) : ∃ out, execERequestComplete k s = .next out ∧ Kept [.t1, .units, .contexts, .answers] s out := by
  unfold execERequestComplete
  try dsimp only
  refine ⟨_, rfl, ?_⟩
  try dsimp only
  repeat' first
    | with_reducible exact Kept.refl _
    | ((with_reducible apply Laws.State.deliverAnswer_kept); (case mhl => decide))
    | with_reducible apply Kept.ite
    | (fail_if_no_progress ((with_reducible apply Kept.upd); (case ho => (refine Only.of (fun p hp => ?_) rfl; cases p <;> first | rfl | (refine absurd ?_ hp; decide))); (case hi => exact IoKept.refl _); (case ht => (repeat' first | with_reducible exact T1Kept.refl _ | with_reducible apply T1Kept.ite | with_reducible apply T1Kept.foldl | with_reducible apply T1Kept.put | with_reducible apply T1Kept.filter | (fail_if_no_progress with_reducible apply T1Kept.upd) | intro _ | dsimp only | split))))
    | intro _
    | dsimp only
    | split

theorem State.readPlace_frame (s : State) (n : Insn) (y : UnitX) (p : Place) (len : Nat) : Kept [.io, .yt, .t1, .shed, .prefetch, .stalls, .units, .ops, .mirrors, .redirects, .cp, .cpSlots, .contexts, .answers, .tallies, .textCache, .rounds, .svChanged, .net] s (State.readPlace s n y p len).1 := by
  unfold State.readPlace
  split
  · next addr domain =>
    extract_lets _ s1 r s2
    have h1 : Kept [.io, .yt, .t1, .shed, .prefetch, .stalls, .units, .ops, .mirrors, .redirects, .cp, .cpSlots, .contexts, .answers, .tallies, .textCache, .rounds, .svChanged, .net] s s1 := Kept.ite (State.setContext_kept (by decide) (Kept.refl _)) (Kept.refl _)
    clear_value s1
    have h2 : Kept [.io, .yt, .t1, .shed, .prefetch, .stalls, .units, .ops, .mirrors, .redirects, .cp, .cpSlots, .contexts, .answers, .tallies, .textCache, .rounds, .svChanged, .net] s s2 := State.checkPoison_kept (by decide) (State.afterRead_kept (by decide) h1)
    clear_value s2 r
    cases r with
    | ok b => exact h2
    | error st =>
      dsimp only
      split
      · next h =>
        split at h
        · exact State.rereadWeight_kept (by decide) h h2
        · contradiction
      · exact h2
  all_goals exact Kept.refl _
theorem State.readPlace_kept {ml : List StateField} {mz : State} {s : State} {n : Insn} {y : UnitX} {p : Place} {len : Nat} (mhl : [.io, .yt, .t1, .shed, .prefetch, .stalls, .units, .ops, .mirrors, .redirects, .cp, .cpSlots, .contexts, .answers, .tallies, .textCache, .rounds, .svChanged, .net] ⊆ ml) (mh : Kept ml mz s) : Kept ml mz (State.readPlace s n y p len).1 :=
  Kept.after ((State.readPlace_frame s n y p len).mono mhl) mh
theorem State.readPlace_kept' {ml : List StateField} {mz : State} {s : State} {n : Insn} {y : UnitX} {p : Place} {len : Nat} {v0 : State} {v1 : Except Nat (List Byte)} (mhl : [.io, .yt, .t1, .shed, .prefetch, .stalls, .units, .ops, .mirrors, .redirects, .cp, .cpSlots, .contexts, .answers, .tallies, .textCache, .rounds, .svChanged, .net] ⊆ ml) (me : State.readPlace s n y p len = (v0, v1)) (mh : Kept ml mz s) : Kept ml mz v0 := by
  have mk := Kept.after ((State.readPlace_frame s n y p len).mono mhl) mh
  rw [me] at mk
  exact mk

theorem State.writePlace_frame (s : State) (n : Insn) (y : UnitX) (p : Place) (bytes : List Byte) : Kept [.io, .t1, .units, .contexts, .windows] s (State.writePlace s n y p bytes).1 := by
  unfold State.writePlace
  try dsimp only
  repeat' first
    | with_reducible exact Kept.refl _
    | ((with_reducible apply Laws.State.put_kept); (case mhl => decide))
    | ((with_reducible apply Laws.State.setUnit_kept); (case mhl => decide))
    | ((with_reducible apply Laws.State.writeT1_kept); (case mhl => decide))
    | with_reducible apply Kept.ite
    | (fail_if_no_progress ((with_reducible apply Kept.upd); (case ho => (refine Only.of (fun p hp => ?_) rfl; cases p <;> first | rfl | (refine absurd ?_ hp; decide))); (case hi => (repeat' first | with_reducible exact IoKept.refl _ | with_reducible apply Laws.Io.put_kept | with_reducible apply IoKept.ite | with_reducible apply IoKept.foldl | with_reducible apply IoKept.put | with_reducible apply IoKept.filter | (fail_if_no_progress with_reducible apply IoKept.upd) | intro _ | dsimp only | split)); (case ht => (repeat' first | with_reducible exact T1Kept.refl _ | with_reducible apply Laws.Tier1.own_kept | with_reducible apply T1Kept.ite | with_reducible apply T1Kept.foldl | with_reducible apply T1Kept.put | with_reducible apply T1Kept.filter | (fail_if_no_progress with_reducible apply T1Kept.upd) | intro _ | dsimp only | split))))
    | intro _
    | dsimp only
    | split
theorem State.writePlace_kept {ml : List StateField} {mz : State} {s : State} {n : Insn} {y : UnitX} {p : Place} {bytes : List Byte} (mhl : [.io, .t1, .units, .contexts, .windows] ⊆ ml) (mh : Kept ml mz s) : Kept ml mz (State.writePlace s n y p bytes).1 :=
  Kept.after ((State.writePlace_frame s n y p bytes).mono mhl) mh
theorem State.writePlace_kept' {ml : List StateField} {mz : State} {s : State} {n : Insn} {y : UnitX} {p : Place} {bytes : List Byte} {v0 : State} {v1 : UnitX} (mhl : [.io, .t1, .units, .contexts, .windows] ⊆ ml) (me : State.writePlace s n y p bytes = (v0, v1)) (mh : Kept ml mz s) : Kept ml mz v0 := by
  have mk := Kept.after ((State.writePlace_frame s n y p bytes).mono mhl) mh
  rw [me] at mk
  exact mk

theorem State.reading_kept {ml : List StateField} {mz : State} {s : State} {n : Insn} {y : UnitX} {addr : Word} {len align : Nat} {k : State → List Byte → Did} (mhl : [.io, .yt, .t1, .shed, .prefetch, .stalls, .units, .ops, .mirrors, .redirects, .cp, .cpSlots, .contexts, .answers, .tallies, .textCache, .rounds, .svChanged, .net] ⊆ ml) (hk : ∀ a0 a1, DidKept ml a0 (k a0 a1)) (mh : Kept ml mz s) : DidKept ml mz (State.reading s n y addr len align k) := by
  refine DidKept.after ?_ mh
  unfold State.reading
  try dsimp only
  repeat' first
    | with_reducible exact Kept.refl _
    | with_reducible exact DidKept.refl _
    | with_reducible apply DidKept.done
    | with_reducible apply DidKept.hold
    | with_reducible apply DidKept.fault
    | with_reducible apply DidKept.ite
    | (with_reducible apply DidKept.after (hk _ _))
    | ((with_reducible apply Laws.State.readPlace_kept' ?mhl (by assumption)); (case mhl => first | decide | (refine sub mhl ?_; decide)))
    | ((with_reducible apply Laws.State.readPlace_kept); (case mhl => first | decide | (refine sub mhl ?_; decide)))
    | with_reducible apply Kept.ite
    | (fail_if_no_progress ((with_reducible apply Kept.upd); (case ho => (refine Only.of (fun p hp => ?_) rfl; cases p <;> first | rfl | (refine absurd (mhl ?_) hp; decide))); (case hi => (repeat' first | with_reducible exact IoKept.refl _ | with_reducible apply IoKept.ite | with_reducible apply IoKept.foldl | with_reducible apply IoKept.put | with_reducible apply IoKept.filter | (fail_if_no_progress with_reducible apply IoKept.upd) | intro _ | dsimp only | split)); (case ht => (repeat' first | with_reducible exact T1Kept.refl _ | with_reducible apply T1Kept.ite | with_reducible apply T1Kept.foldl | with_reducible apply T1Kept.put | with_reducible apply T1Kept.filter | (fail_if_no_progress with_reducible apply T1Kept.upd) | intro _ | dsimp only | split))))
    | intro _
    | dsimp only
    | split

theorem State.writeNoted_frame (s : State) (n : Insn) (addr : Word) (len : Nat) : Kept [.io, .yt, .t1, .shed, .prefetch, .stalls, .units, .ops, .mirrors, .redirects, .cp, .cpSlots, .contexts, .answers, .tallies, .textCache, .rounds, .svChanged, .net] s (State.writeNoted s n addr len) := by
  unfold State.writeNoted
  try dsimp only
  repeat' first
    | with_reducible exact Kept.refl _
    | ((with_reducible apply Laws.State.afterBlockRead_kept); (case mhl => decide))
    | ((with_reducible apply Laws.State.checkPoison_kept); (case mhl => decide))
    | with_reducible apply Kept.ite
    | with_reducible apply Kept.foldl
    | with_reducible apply Kept.foldlFst
    | with_reducible apply Kept.foldlSnd
    | intro _
    | dsimp only
    | split
theorem State.writeNoted_kept {ml : List StateField} {mz : State} {s : State} {n : Insn} {addr : Word} {len : Nat} (mhl : [.io, .yt, .t1, .shed, .prefetch, .stalls, .units, .ops, .mirrors, .redirects, .cp, .cpSlots, .contexts, .answers, .tallies, .textCache, .rounds, .svChanged, .net] ⊆ ml) (mh : Kept ml mz s) : Kept ml mz (State.writeNoted s n addr len) :=
  Kept.after ((State.writeNoted_frame s n addr len).mono mhl) mh

theorem State.writing_frame (s : State) (n : Insn) (y : UnitX) (addr : Word) (align : Nat) (bytes : List Byte) : DidKept [.io, .yt, .t1, .shed, .prefetch, .stalls, .units, .ops, .mirrors, .redirects, .cp, .cpSlots, .contexts, .answers, .windows, .tallies, .textCache, .rounds, .svChanged, .net] s (State.writing s n y addr align bytes) := by
  unfold State.writing
  try dsimp only
  repeat' first
    | with_reducible exact Kept.refl _
    | with_reducible exact DidKept.refl _
    | with_reducible apply DidKept.done
    | with_reducible apply DidKept.hold
    | with_reducible apply DidKept.fault
    | with_reducible apply DidKept.ite
    | ((with_reducible apply Laws.State.writeNoted_kept); (case mhl => decide))
    | ((with_reducible apply Laws.State.writePlace_kept' ?mhl (by assumption)); (case mhl => decide))
    | ((with_reducible apply Laws.State.writePlace_kept); (case mhl => decide))
    | with_reducible apply Kept.ite
    | (fail_if_no_progress ((with_reducible apply Kept.upd); (case ho => (refine Only.of (fun p hp => ?_) rfl; cases p <;> first | rfl | (refine absurd ?_ hp; decide))); (case hi => (repeat' first | with_reducible exact IoKept.refl _ | with_reducible apply IoKept.ite | with_reducible apply IoKept.foldl | with_reducible apply IoKept.put | with_reducible apply IoKept.filter | (fail_if_no_progress with_reducible apply IoKept.upd) | intro _ | dsimp only | split)); (case ht => (repeat' first | with_reducible exact T1Kept.refl _ | with_reducible apply T1Kept.ite | with_reducible apply T1Kept.foldl | with_reducible apply T1Kept.put | with_reducible apply T1Kept.filter | (fail_if_no_progress with_reducible apply T1Kept.upd) | intro _ | dsimp only | split))))
    | intro _
    | dsimp only
    | split
theorem State.writing_kept {ml : List StateField} {mz : State} {s : State} {n : Insn} {y : UnitX} {addr : Word} {align : Nat} {bytes : List Byte} (mhl : [.io, .yt, .t1, .shed, .prefetch, .stalls, .units, .ops, .mirrors, .redirects, .cp, .cpSlots, .contexts, .answers, .windows, .tallies, .textCache, .rounds, .svChanged, .net] ⊆ ml) (mh : Kept ml mz s) : DidKept ml mz (State.writing s n y addr align bytes) :=
  DidKept.after ((State.writing_frame s n y addr align bytes).mono mhl) mh
theorem State.writing_keptD {ml : List StateField} {mz : State} {s : State} {n : Insn} {y : UnitX} {addr : Word} {align : Nat} {bytes : List Byte} {o : State} {oy : UnitX} {op : Option Nat} (mhl : [.io, .yt, .t1, .shed, .prefetch, .stalls, .units, .ops, .mirrors, .redirects, .cp, .cpSlots, .contexts, .answers, .windows, .tallies, .textCache, .rounds, .svChanged, .net] ⊆ ml) (me : State.writing s n y addr align bytes = .done o oy op) (mh : Kept ml mz s) : Kept ml mz o := by
  have mk := DidKept.after ((State.writing_frame s n y addr align bytes).mono mhl) mh
  rw [me] at mk
  exact mk.ofDone

end Sys2Proof.Laws
end

