-- ==== Sys2Proof/Laws/KeptTileOps.lean ====
section
/-! SUPPORT. The frame lemma of every operation of Machine/TileOps.lean: which fields of the state it may change, and that it keeps the canonical
forms. -/

set_option Elab.async false
set_option linter.unusedTactic false
set_option linter.unreachableTactic false
set_option linter.unusedVariables false

namespace Sys2Proof.Laws

open Sys2Proof Sys2Proof.Machine Sys2Proof.Safety

theorem State.readRows_frame (s : State) (n : Insn) (y : UnitX) (len : Nat) (rows : List Place) : Kept [.io, .yt, .t1, .shed, .prefetch, .stalls, .units, .ops, .mirrors, .redirects, .cp, .cpSlots, .contexts, .answers, .tallies, .textCache, .rounds, .svChanged, .net] s (State.readRows s n y len rows).1 := by
  unfold State.readRows
  try dsimp only
  repeat' first
    | with_reducible exact Kept.refl _
    | ((with_reducible apply Laws.State.readPlace_kept' ?mhl (by assumption)); (case mhl => decide))
    | ((with_reducible apply Laws.State.readPlace_kept); (case mhl => decide))
    | with_reducible apply Kept.ite
    | with_reducible apply Kept.foldl
    | with_reducible apply Kept.foldlFst
    | with_reducible apply Kept.foldlSnd
    | (fail_if_no_progress ((with_reducible apply Kept.upd); (case ho => (refine Only.of (fun p hp => ?_) rfl; cases p <;> first | rfl | (refine absurd ?_ hp; decide))); (case hi => (repeat' first | with_reducible exact IoKept.refl _ | with_reducible apply IoKept.ite | with_reducible apply IoKept.foldl | with_reducible apply IoKept.put | with_reducible apply IoKept.filter | (fail_if_no_progress with_reducible apply IoKept.upd) | intro _ | dsimp only | split)); (case ht => (repeat' first | with_reducible exact T1Kept.refl _ | with_reducible apply T1Kept.ite | with_reducible apply T1Kept.foldl | with_reducible apply T1Kept.put | with_reducible apply T1Kept.filter | (fail_if_no_progress with_reducible apply T1Kept.upd) | intro _ | dsimp only | split))))
    | intro _
    | dsimp only
    | split
theorem State.readRows_kept {ml : List StateField} {mz : State} {s : State} {n : Insn} {y : UnitX} {len : Nat} {rows : List Place} (mhl : [.io, .yt, .t1, .shed, .prefetch, .stalls, .units, .ops, .mirrors, .redirects, .cp, .cpSlots, .contexts, .answers, .tallies, .textCache, .rounds, .svChanged, .net] ⊆ ml) (mh : Kept ml mz s) : Kept ml mz (State.readRows s n y len rows).1 :=
  Kept.after ((State.readRows_frame s n y len rows).mono mhl) mh
theorem State.readRows_kept' {ml : List StateField} {mz : State} {s : State} {n : Insn} {y : UnitX} {len : Nat} {rows : List Place} {v0 : State} {v1 : Except Nat (List (List Byte))} (mhl : [.io, .yt, .t1, .shed, .prefetch, .stalls, .units, .ops, .mirrors, .redirects, .cp, .cpSlots, .contexts, .answers, .tallies, .textCache, .rounds, .svChanged, .net] ⊆ ml) (me : State.readRows s n y len rows = (v0, v1)) (mh : Kept ml mz s) : Kept ml mz v0 := by
  have mk := Kept.after ((State.readRows_frame s n y len rows).mono mhl) mh
  rw [me] at mk
  exact mk

theorem State.writeRows_frame (s : State) (n : Insn) (y : UnitX) (rows : List (Place × List Byte)) : Kept [.io, .t1, .units, .contexts, .windows] s (State.writeRows s n y rows).1 := by
  unfold State.writeRows
  try dsimp only
  repeat' first
    | with_reducible exact Kept.refl _
    | ((with_reducible apply Laws.State.writePlace_kept' ?mhl (by assumption)); (case mhl => decide))
    | ((with_reducible apply Laws.State.writePlace_kept); (case mhl => decide))
    | with_reducible apply Kept.ite
    | with_reducible apply Kept.foldl
    | with_reducible apply Kept.foldlFst
    | with_reducible apply Kept.foldlSnd
    | intro _
    | dsimp only
    | split
theorem State.writeRows_kept {ml : List StateField} {mz : State} {s : State} {n : Insn} {y : UnitX} {rows : List (Place × List Byte)} (mhl : [.io, .t1, .units, .contexts, .windows] ⊆ ml) (mh : Kept ml mz s) : Kept ml mz (State.writeRows s n y rows).1 :=
  Kept.after ((State.writeRows_frame s n y rows).mono mhl) mh
theorem State.writeRows_kept' {ml : List StateField} {mz : State} {s : State} {n : Insn} {y : UnitX} {rows : List (Place × List Byte)} {v0 : State} {v1 : UnitX} (mhl : [.io, .t1, .units, .contexts, .windows] ⊆ ml) (me : State.writeRows s n y rows = (v0, v1)) (mh : Kept ml mz s) : Kept ml mz v0 := by
  have mk := Kept.after ((State.writeRows_frame s n y rows).mono mhl) mh
  rw [me] at mk
  exact mk

theorem State.tileFill_frame (s : State) (t : Tile) : Kept [.freeIdx] s (State.tileFill s t).2 := by
  unfold State.tileFill
  try dsimp only
  repeat' first
    | with_reducible exact Kept.refl _
    | ((with_reducible apply Laws.State.drawFree_kept' ?mhl (by assumption)); (case mhl => decide))
    | ((with_reducible apply Laws.State.drawFree_kept); (case mhl => decide))
    | with_reducible apply Kept.ite
    | intro _
    | dsimp only
    | split
theorem State.tileFill_kept {ml : List StateField} {mz : State} {s : State} {t : Tile} (mhl : [.freeIdx] ⊆ ml) (mh : Kept ml mz s) : Kept ml mz (State.tileFill s t).2 :=
  Kept.after ((State.tileFill_frame s t).mono mhl) mh
theorem State.tileFill_kept' {ml : List StateField} {mz : State} {s : State} {t : Tile} {v0 : Nat} {v1 : State} (mhl : [.freeIdx] ⊆ ml) (me : State.tileFill s t = (v0, v1)) (mh : Kept ml mz s) : Kept ml mz v1 := by
  have mk := Kept.after ((State.tileFill_frame s t).mono mhl) mh
  rw [me] at mk
  exact mk

theorem State.writeTile_frame (s : State) (n : Insn) (y : UnitX) (t : Tile) (rows : List Place) (values : List (List FVal)) : DidKept [.io, .t1, .units, .contexts, .windows, .freeIdx] s (State.writeTile s n y t rows values) := by
  unfold State.writeTile
  try dsimp only
  repeat' first
    | with_reducible exact Kept.refl _
    | with_reducible exact DidKept.refl _
    | with_reducible apply DidKept.done
    | with_reducible apply DidKept.hold
    | with_reducible apply DidKept.fault
    | with_reducible apply DidKept.ite
    | ((with_reducible apply Laws.State.bump_kept); (case mhl => decide))
    | ((with_reducible apply Laws.State.tileFill_kept' ?mhl (by assumption)); (case mhl => decide))
    | ((with_reducible apply Laws.State.tileFill_kept); (case mhl => decide))
    | ((with_reducible apply Laws.State.writeRows_kept' ?mhl (by assumption)); (case mhl => decide))
    | ((with_reducible apply Laws.State.writeRows_kept); (case mhl => decide))
    | with_reducible apply Kept.ite
    | with_reducible apply Kept.foldl
    | with_reducible apply Kept.foldlFst
    | with_reducible apply Kept.foldlSnd
    | intro _
    | dsimp only
    | split
theorem State.writeTile_kept {ml : List StateField} {mz : State} {s : State} {n : Insn} {y : UnitX} {t : Tile} {rows : List Place} {values : List (List FVal)} (mhl : [.io, .t1, .units, .contexts, .windows, .freeIdx] ⊆ ml) (mh : Kept ml mz s) : DidKept ml mz (State.writeTile s n y t rows values) :=
  DidKept.after ((State.writeTile_frame s n y t rows values).mono mhl) mh
theorem State.writeTile_keptD {ml : List StateField} {mz : State} {s : State} {n : Insn} {y : UnitX} {t : Tile} {rows : List Place} {values : List (List FVal)} {o : State} {oy : UnitX} {op : Option Nat} (mhl : [.io, .t1, .units, .contexts, .windows, .freeIdx] ⊆ ml) (me : State.writeTile s n y t rows values = .done o oy op) (mh : Kept ml mz s) : Kept ml mz o := by
  have mk := DidKept.after ((State.writeTile_frame s n y t rows values).mono mhl) mh
  rw [me] at mk
  exact mk.ofDone

end Sys2Proof.Laws
end

