-- ==== Sys2Proof/Laws/KeptSelOps.lean ====
section
/-! SUPPORT. The frame lemma of every operation of Machine/SelOps.lean: which fields of the state it may change, and that it keeps the canonical
forms. -/

set_option Elab.async false
set_option linter.unusedTactic false
set_option linter.unreachableTactic false
set_option linter.unusedVariables false

namespace Sys2Proof.Laws

open Sys2Proof Sys2Proof.Machine Sys2Proof.Safety

theorem State.noteNaN_frame (s : State) (values : List Nat) (tenant : Nat) (object : Nat) (tag : List Nat) : Kept [.io] s (State.noteNaN s values tenant object tag) := by
  unfold State.noteNaN
  try dsimp only
  repeat' first
    | with_reducible exact Kept.refl _
    | ((with_reducible apply Laws.State.bump_kept); (case mhl => decide))
    | ((with_reducible apply Laws.State.raise_kept); (case mhl => decide))
    | with_reducible apply Kept.ite
    | with_reducible apply Kept.foldl
    | with_reducible apply Kept.foldlFst
    | with_reducible apply Kept.foldlSnd
    | intro _
    | dsimp only
    | split
theorem State.noteNaN_kept {ml : List StateField} {mz : State} {s : State} {values : List Nat} {tenant : Nat} {object : Nat} {tag : List Nat} (mhl : [.io] ⊆ ml) (mh : Kept ml mz s) : Kept ml mz (State.noteNaN s values tenant object tag) :=
  Kept.after ((State.noteNaN_frame s values tenant object tag).mono mhl) mh

theorem State.noteMerge_frame (s : State) (tenant : Option Nat) (tag dup : Nat) (fewer : Bool) : Kept [.io] s (State.noteMerge s tenant tag dup fewer) := by
  unfold State.noteMerge
  try dsimp only
  repeat' first
    | with_reducible exact Kept.refl _
    | ((with_reducible apply Laws.State.bump_kept); (case mhl => decide))
    | ((with_reducible apply Laws.State.raise_kept); (case mhl => decide))
    | with_reducible apply Kept.ite
    | intro _
    | dsimp only
    | split
theorem State.noteMerge_kept {ml : List StateField} {mz : State} {s : State} {tenant : Option Nat} {tag dup : Nat} {fewer : Bool} (mhl : [.io] ⊆ ml) (mh : Kept ml mz s) : Kept ml mz (State.noteMerge s tenant tag dup fewer) :=
  Kept.after ((State.noteMerge_frame s tenant tag dup fewer).mono mhl) mh

theorem State.reading1_frame (s : State) (domain addr n : Nat) : Kept [.io, .yt, .t1, .shed, .prefetch, .stalls, .units, .ops, .mirrors, .redirects, .cp, .cpSlots, .contexts, .answers, .tallies, .textCache, .rounds, .svChanged, .net] s (State.reading1 s domain addr n).1 := by
  unfold State.reading1
  try dsimp only
  repeat' first
    | with_reducible exact Kept.refl _
    | ((with_reducible apply Laws.State.afterRead_kept); (case mhl => decide))
    | ((with_reducible apply Laws.State.checkPoison_kept); (case mhl => decide))
    | with_reducible apply Kept.ite
    | intro _
    | dsimp only
    | split
theorem State.reading1_kept {ml : List StateField} {mz : State} {s : State} {domain addr n : Nat} (mhl : [.io, .yt, .t1, .shed, .prefetch, .stalls, .units, .ops, .mirrors, .redirects, .cp, .cpSlots, .contexts, .answers, .tallies, .textCache, .rounds, .svChanged, .net] ⊆ ml) (mh : Kept ml mz s) : Kept ml mz (State.reading1 s domain addr n).1 :=
  Kept.after ((State.reading1_frame s domain addr n).mono mhl) mh
theorem State.reading1_kept' {ml : List StateField} {mz : State} {s : State} {domain addr n : Nat} {v0 : State} {v1 : Except Nat (List Byte)} (mhl : [.io, .yt, .t1, .shed, .prefetch, .stalls, .units, .ops, .mirrors, .redirects, .cp, .cpSlots, .contexts, .answers, .tallies, .textCache, .rounds, .svChanged, .net] ⊆ ml) (me : State.reading1 s domain addr n = (v0, v1)) (mh : Kept ml mz s) : Kept ml mz v0 := by
  have mk := Kept.after ((State.reading1_frame s domain addr n).mono mhl) mh
  rw [me] at mk
  exact mk

theorem State.readLists_frame (s : State) (t : Nat) (ds : List ListDesc) : Kept [.io, .yt, .t1, .shed, .prefetch, .stalls, .units, .ops, .mirrors, .redirects, .cp, .cpSlots, .contexts, .answers, .tallies, .textCache, .rounds, .svChanged, .net] s (State.readLists s t ds).1 := by
  unfold State.readLists
  try dsimp only
  repeat' first
    | with_reducible exact Kept.refl _
    | ((with_reducible apply Laws.State.reading1_kept' ?mhl (by assumption)); (case mhl => decide))
    | ((with_reducible apply Laws.State.reading1_kept); (case mhl => decide))
    | with_reducible apply Kept.ite
    | with_reducible apply Kept.foldl
    | with_reducible apply Kept.foldlFst
    | with_reducible apply Kept.foldlSnd
    | (fail_if_no_progress ((with_reducible apply Kept.upd); (case ho => (refine Only.of (fun p hp => ?_) rfl; cases p <;> first | rfl | (refine absurd ?_ hp; decide))); (case hi => (repeat' first | with_reducible exact IoKept.refl _ | with_reducible apply IoKept.ite | with_reducible apply IoKept.foldl | with_reducible apply IoKept.put | with_reducible apply IoKept.filter | (fail_if_no_progress with_reducible apply IoKept.upd) | intro _ | dsimp only | split)); (case ht => (repeat' first | with_reducible exact T1Kept.refl _ | with_reducible apply T1Kept.ite | with_reducible apply T1Kept.foldl | with_reducible apply T1Kept.put | with_reducible apply T1Kept.filter | (fail_if_no_progress with_reducible apply T1Kept.upd) | intro _ | dsimp only | split))))
    | intro _
    | dsimp only
    | split
theorem State.readLists_kept {ml : List StateField} {mz : State} {s : State} {t : Nat} {ds : List ListDesc} (mhl : [.io, .yt, .t1, .shed, .prefetch, .stalls, .units, .ops, .mirrors, .redirects, .cp, .cpSlots, .contexts, .answers, .tallies, .textCache, .rounds, .svChanged, .net] ⊆ ml) (mh : Kept ml mz s) : Kept ml mz (State.readLists s t ds).1 :=
  Kept.after ((State.readLists_frame s t ds).mono mhl) mh
theorem State.readLists_kept' {ml : List StateField} {mz : State} {s : State} {t : Nat} {ds : List ListDesc} {v0 : State} {v1 : Except Nat (List (List Entry))} (mhl : [.io, .yt, .t1, .shed, .prefetch, .stalls, .units, .ops, .mirrors, .redirects, .cp, .cpSlots, .contexts, .answers, .tallies, .textCache, .rounds, .svChanged, .net] ⊆ ml) (me : State.readLists s t ds = (v0, v1)) (mh : Kept ml mz s) : Kept ml mz v0 := by
  have mk := Kept.after ((State.readLists_frame s t ds).mono mhl) mh
  rw [me] at mk
  exact mk

theorem State.gatherRow_frame (s : State) (t : Nat) (ds : List ListDesc) (rowLen : Nat) (e : Entry) : Kept [.io, .yt, .t1, .shed, .prefetch, .stalls, .units, .ops, .mirrors, .redirects, .cp, .cpSlots, .contexts, .answers, .tallies, .textCache, .rounds, .svChanged, .net] s (State.gatherRow s t ds rowLen e).1 := by
  unfold State.gatherRow
  try dsimp only
  repeat' first
    | with_reducible exact Kept.refl _
    | ((with_reducible apply Laws.State.reading1_kept' ?mhl (by assumption)); (case mhl => decide))
    | ((with_reducible apply Laws.State.reading1_kept); (case mhl => decide))
    | with_reducible apply Kept.ite
    | (fail_if_no_progress ((with_reducible apply Kept.upd); (case ho => (refine Only.of (fun p hp => ?_) rfl; cases p <;> first | rfl | (refine absurd ?_ hp; decide))); (case hi => (repeat' first | with_reducible exact IoKept.refl _ | with_reducible apply IoKept.ite | with_reducible apply IoKept.foldl | with_reducible apply IoKept.put | with_reducible apply IoKept.filter | (fail_if_no_progress with_reducible apply IoKept.upd) | intro _ | dsimp only | split)); (case ht => (repeat' first | with_reducible exact T1Kept.refl _ | with_reducible apply T1Kept.ite | with_reducible apply T1Kept.foldl | with_reducible apply T1Kept.put | with_reducible apply T1Kept.filter | (fail_if_no_progress with_reducible apply T1Kept.upd) | intro _ | dsimp only | split))))
    | intro _
    | dsimp only
    | split
theorem State.gatherRow_kept {ml : List StateField} {mz : State} {s : State} {t : Nat} {ds : List ListDesc} {rowLen : Nat} {e : Entry} (mhl : [.io, .yt, .t1, .shed, .prefetch, .stalls, .units, .ops, .mirrors, .redirects, .cp, .cpSlots, .contexts, .answers, .tallies, .textCache, .rounds, .svChanged, .net] ⊆ ml) (mh : Kept ml mz s) : Kept ml mz (State.gatherRow s t ds rowLen e).1 :=
  Kept.after ((State.gatherRow_frame s t ds rowLen e).mono mhl) mh
theorem State.gatherRow_kept' {ml : List StateField} {mz : State} {s : State} {t : Nat} {ds : List ListDesc} {rowLen : Nat} {e : Entry} {v0 : State} {v1 : List Byte} {v2 : Option Nat} (mhl : [.io, .yt, .t1, .shed, .prefetch, .stalls, .units, .ops, .mirrors, .redirects, .cp, .cpSlots, .contexts, .answers, .tallies, .textCache, .rounds, .svChanged, .net] ⊆ ml) (me : State.gatherRow s t ds rowLen e = (v0, v1, v2)) (mh : Kept ml mz s) : Kept ml mz v0 := by
  have mk := Kept.after ((State.gatherRow_frame s t ds rowLen e).mono mhl) mh
  rw [me] at mk
  exact mk

theorem State.gatherRows_frame (s : State) (t : Nat) (ds : List ListDesc) (rowLen : Nat) (l : List Entry) : Kept [.io, .yt, .t1, .shed, .prefetch, .stalls, .units, .ops, .mirrors, .redirects, .cp, .cpSlots, .contexts, .answers, .tallies, .textCache, .rounds, .svChanged, .net] s (State.gatherRows s t ds rowLen l).1 := by
  unfold State.gatherRows
  try dsimp only
  repeat' first
    | with_reducible exact Kept.refl _
    | ((with_reducible apply Laws.State.gatherRow_kept' ?mhl (by assumption)); (case mhl => decide))
    | ((with_reducible apply Laws.State.gatherRow_kept); (case mhl => decide))
    | with_reducible apply Kept.ite
    | with_reducible apply Kept.foldl
    | with_reducible apply Kept.foldlFst
    | with_reducible apply Kept.foldlSnd
    | intro _
    | dsimp only
    | split
theorem State.gatherRows_kept {ml : List StateField} {mz : State} {s : State} {t : Nat} {ds : List ListDesc} {rowLen : Nat} {l : List Entry} (mhl : [.io, .yt, .t1, .shed, .prefetch, .stalls, .units, .ops, .mirrors, .redirects, .cp, .cpSlots, .contexts, .answers, .tallies, .textCache, .rounds, .svChanged, .net] ⊆ ml) (mh : Kept ml mz s) : Kept ml mz (State.gatherRows s t ds rowLen l).1 :=
  Kept.after ((State.gatherRows_frame s t ds rowLen l).mono mhl) mh
theorem State.gatherRows_kept' {ml : List StateField} {mz : State} {s : State} {t : Nat} {ds : List ListDesc} {rowLen : Nat} {l : List Entry} {v0 : State} {v1 : List Byte} {v2 : Option Nat} (mhl : [.io, .yt, .t1, .shed, .prefetch, .stalls, .units, .ops, .mirrors, .redirects, .cp, .cpSlots, .contexts, .answers, .tallies, .textCache, .rounds, .svChanged, .net] ⊆ ml) (me : State.gatherRows s t ds rowLen l = (v0, v1, v2)) (mh : Kept ml mz s) : Kept ml mz v0 := by
  have mk := Kept.after ((State.gatherRows_frame s t ds rowLen l).mono mhl) mh
  rw [me] at mk
  exact mk

end Sys2Proof.Laws
end

