-- ==== Sys2Proof/Laws/KeptStall.lean ====
section
/-! SUPPORT. The frame lemma of every operation of Machine/Stall.lean: which fields of the state it may change, and that it keeps the canonical
forms. -/

set_option Elab.async false
set_option linter.unusedTactic false
set_option linter.unreachableTactic false
set_option linter.unusedVariables false

namespace Sys2Proof.Laws

open Sys2Proof Sys2Proof.Machine Sys2Proof.Safety

theorem State.stallCmdOn_kept {ml : List StateField} {mz : State} {s : State} {c : Cmd} {long held remoteOk retire : Bool} {fieldsOk : Nat → Bool} {body : Nat → State → State} (mhl : [.io, .units, .contexts, .answers] ⊆ ml) (hbody : ∀ a0 a1, Kept ml a1 (body a0 a1)) (mh : Kept ml mz s) : Kept ml mz (State.stallCmdOn s c long held remoteOk retire fieldsOk body) := by
  refine Kept.after ?_ mh
  unfold State.stallCmdOn
  try dsimp only
  repeat' first
    | with_reducible exact Kept.refl _
    | (with_reducible apply Kept.after (hbody _ _))
    | ((with_reducible apply Laws.State.completeWith_kept); (case mhl => first | decide | (refine sub mhl ?_; decide)))
    | ((with_reducible apply Laws.State.retire_kept); (case mhl => first | decide | (refine sub mhl ?_; decide)))
    | ((with_reducible apply Laws.State.runCmd_kept); (case mhl => first | decide | (refine sub mhl ?_; decide)))
    | ((with_reducible apply Laws.State.runHeld_kept); (case mhl => first | decide | (refine sub mhl ?_; decide)))
    | ((with_reducible apply Kept.iteL); case k => ((repeat' first | with_reducible exact Kept.refl _ | (with_reducible apply Kept.after (hbody _ _)) | ((with_reducible apply Laws.State.completeWith_kept); (case mhl => first | decide | (refine sub mhl ?_; decide))) | ((with_reducible apply Laws.State.retire_kept); (case mhl => first | decide | (refine sub mhl ?_; decide))) | ((with_reducible apply Laws.State.runCmd_kept); (case mhl => first | decide | (refine sub mhl ?_; decide))) | ((with_reducible apply Laws.State.runHeld_kept); (case mhl => first | decide | (refine sub mhl ?_; decide))) | with_reducible apply Kept.getD | with_reducible apply Kept.ite | (fail_if_no_progress ((with_reducible apply Kept.upd); (case ho => (refine Only.of (fun p hp => ?_) rfl; cases p <;> first | rfl | (refine absurd (mhl ?_) hp; decide))); (case hi => (repeat' first | with_reducible exact IoKept.refl _ | with_reducible apply IoKept.ite | with_reducible apply IoKept.foldl | with_reducible apply IoKept.put | with_reducible apply IoKept.filter | (fail_if_no_progress with_reducible apply IoKept.upd) | intro _ | dsimp only | split)); (case ht => exact T1Kept.refl _))) | intro _ | dsimp only | split); done))
    | ((with_reducible apply Kept.iteR); case k => ((repeat' first | with_reducible exact Kept.refl _ | (with_reducible apply Kept.after (hbody _ _)) | ((with_reducible apply Laws.State.completeWith_kept); (case mhl => first | decide | (refine sub mhl ?_; decide))) | ((with_reducible apply Laws.State.retire_kept); (case mhl => first | decide | (refine sub mhl ?_; decide))) | ((with_reducible apply Laws.State.runCmd_kept); (case mhl => first | decide | (refine sub mhl ?_; decide))) | ((with_reducible apply Laws.State.runHeld_kept); (case mhl => first | decide | (refine sub mhl ?_; decide))) | with_reducible apply Kept.getD | with_reducible apply Kept.ite | (fail_if_no_progress ((with_reducible apply Kept.upd); (case ho => (refine Only.of (fun p hp => ?_) rfl; cases p <;> first | rfl | (refine absurd (mhl ?_) hp; decide))); (case hi => (repeat' first | with_reducible exact IoKept.refl _ | with_reducible apply IoKept.ite | with_reducible apply IoKept.foldl | with_reducible apply IoKept.put | with_reducible apply IoKept.filter | (fail_if_no_progress with_reducible apply IoKept.upd) | intro _ | dsimp only | split)); (case ht => exact T1Kept.refl _))) | intro _ | dsimp only | split); done))
    | with_reducible apply Kept.ite
    | with_reducible apply Kept.getD
    | (fail_if_no_progress ((with_reducible apply Kept.upd); (case ho => (refine Only.of (fun p hp => ?_) rfl; cases p <;> first | rfl | (refine absurd (mhl ?_) hp; decide))); (case hi => (repeat' first | with_reducible exact IoKept.refl _ | with_reducible apply IoKept.ite | with_reducible apply IoKept.foldl | with_reducible apply IoKept.put | with_reducible apply IoKept.filter | (fail_if_no_progress with_reducible apply IoKept.upd) | intro _ | dsimp only | split)); (case ht => exact T1Kept.refl _)))
    | intro _
    | dsimp only
    | split

theorem State.stallCmd_kept {ml : List StateField} {mz : State} {s : State} {c : Cmd} {long held remoteOk : Bool} {fieldsOk : Nat → Bool} {body : Nat → State → State} (mhl : [.io, .units, .contexts, .answers] ⊆ ml) (hbody : ∀ a0 a1, Kept ml a1 (body a0 a1)) (mh : Kept ml mz s) : Kept ml mz (State.stallCmd s c long held remoteOk fieldsOk body) := by
  refine Kept.after ?_ mh
  unfold State.stallCmd
  try dsimp only
  repeat' first
    | with_reducible exact Kept.refl _
    | (with_reducible apply Kept.after (hbody _ _))
    | ((with_reducible apply Laws.State.stallCmdOn_kept); (case mhl => first | decide | (refine sub mhl ?_; decide)))
    | with_reducible apply Kept.ite
    | intro _
    | dsimp only
    | split

theorem State.createSeed_frame (s : State) (c : Cmd) : Kept [.freeIdx] s (State.createSeed s c).2 := by
  unfold State.createSeed
  try dsimp only
  repeat' first
    | with_reducible exact Kept.refl _
    | ((with_reducible apply Laws.State.drawFree_kept' ?mhl (by assumption)); (case mhl => decide))
    | ((with_reducible apply Laws.State.drawFree_kept); (case mhl => decide))
    | with_reducible apply Kept.ite
    | intro _
    | dsimp only
    | split
theorem State.createSeed_kept {ml : List StateField} {mz : State} {s : State} {c : Cmd} (mhl : [.freeIdx] ⊆ ml) (mh : Kept ml mz s) : Kept ml mz (State.createSeed s c).2 :=
  Kept.after ((State.createSeed_frame s c).mono mhl) mh
theorem State.createSeed_kept' {ml : List StateField} {mz : State} {s : State} {c : Cmd} {v0 : Nat} {v1 : State} (mhl : [.freeIdx] ⊆ ml) (me : State.createSeed s c = (v0, v1)) (mh : Kept ml mz s) : Kept ml mz v1 := by
  have mk := Kept.after ((State.createSeed_frame s c).mono mhl) mh
  rw [me] at mk
  exact mk

theorem State.newLayers_frame (s : State) (i h pageMin pageMax recBytes : Nat) (n : Nat) {v0 : List Layer} {v1 : State} (me : State.newLayers s i h pageMin pageMax recBytes n = some (v0, v1)) : Kept [.t1] s v1 := by
  induction n generalizing s v0 v1 with
  | zero => cases me; exact Kept.refl _
  | succ n ih =>
    unfold State.newLayers at me
    split at me
    · contradiction
    · next l s' hl =>
      rw [Option.map_eq_some_iff] at me
      obtain ⟨q, hq, me⟩ := me
      cases me
      exact (ih _ hq).after (State.takeLayer_kept (by decide) hl (Kept.refl _))
theorem State.newLayers_kept {ml : List StateField} {mz : State} {s : State} {i h pageMin pageMax recBytes : Nat} {n : Nat} {v0 : List Layer} {v1 : State} (mhl : [.t1] ⊆ ml) (me : State.newLayers s i h pageMin pageMax recBytes n = some (v0, v1)) (mh : Kept ml mz s) : Kept ml mz v1 :=
  Kept.after ((State.newLayers_frame s i h pageMin pageMax recBytes n me).mono mhl) mh

theorem State.newTable_frame (s : State) (i h shape : Nat) {v0 : PageTable} {v1 : State} (me : State.newTable s i h shape = some (v0, v1)) : Kept [.t1] s v1 := by
  unfold State.newTable at me
  try dsimp only at me
  repeat' first
    | contradiction
    | (cases me; done)
    | cases me
    | (rw [Option.map_eq_some_iff] at me; obtain ⟨_, _, me⟩ := me; cases me)
    | (rw [Option.bind_eq_some_iff] at me; obtain ⟨_, _, me⟩ := me)
    | split at me
  all_goals
    repeat' first
      | with_reducible exact Kept.refl _
      | ((with_reducible apply Laws.State.alloc_kept ?mhl (by assumption)); (case mhl => decide))
      | ((with_reducible apply Laws.State.newLayers_kept ?mhl (by assumption)); (case mhl => decide))
      | with_reducible apply Kept.ite
      | (fail_if_no_progress ((with_reducible apply Kept.upd); (case ho => (refine Only.of (fun p hp => ?_) rfl; cases p <;> first | rfl | (refine absurd ?_ hp; decide))); (case hi => exact IoKept.refl _); (case ht => (repeat' first | with_reducible exact T1Kept.refl _ | with_reducible apply T1Kept.ite | with_reducible apply T1Kept.foldl | with_reducible apply T1Kept.put | with_reducible apply T1Kept.filter | (fail_if_no_progress with_reducible apply T1Kept.upd) | intro _ | dsimp only | split))))
      | intro _
      | dsimp only
      | split
theorem State.newTable_kept {ml : List StateField} {mz : State} {s : State} {i h shape : Nat} {v0 : PageTable} {v1 : State} (mhl : [.t1] ⊆ ml) (me : State.newTable s i h shape = some (v0, v1)) (mh : Kept ml mz s) : Kept ml mz v1 :=
  Kept.after ((State.newTable_frame s i h shape me).mono mhl) mh

theorem State.createStall_frame (s : State) (c : Cmd) (t grStart : Nat) : Kept [.io, .t1, .stalls, .answers, .freeIdx] s (State.createStall s c t grStart) := by
  unfold State.createStall
  try dsimp only
  repeat' first
    | with_reducible exact Kept.refl _
    | ((with_reducible apply Laws.State.complete_kept); (case mhl => decide))
    | ((with_reducible apply Laws.State.createSeed_kept' ?mhl (by assumption)); (case mhl => decide))
    | ((with_reducible apply Laws.State.createSeed_kept); (case mhl => decide))
    | ((with_reducible apply Laws.State.newTable_kept ?mhl (by assumption)); (case mhl => decide))
    | ((with_reducible apply Laws.State.raise_kept); (case mhl => decide))
    | ((with_reducible apply Laws.State.setStall_kept); (case mhl => decide))
    | ((with_reducible apply Laws.State.takePoolSlot_kept); (case mhl => decide))
    | ((with_reducible apply Laws.State.writePageHeaders_kept); (case mhl => decide))
    | ((with_reducible apply Kept.iteL); case k => ((repeat' first | with_reducible exact Kept.refl _ | ((with_reducible apply Laws.State.complete_kept); (case mhl => decide)) | ((with_reducible apply Laws.State.createSeed_kept' ?mhl (by assumption)); (case mhl => decide)) | ((with_reducible apply Laws.State.createSeed_kept); (case mhl => decide)) | ((with_reducible apply Laws.State.newTable_kept ?mhl (by assumption)); (case mhl => decide)) | ((with_reducible apply Laws.State.raise_kept); (case mhl => decide)) | ((with_reducible apply Laws.State.setStall_kept); (case mhl => decide)) | ((with_reducible apply Laws.State.takePoolSlot_kept); (case mhl => decide)) | ((with_reducible apply Laws.State.writePageHeaders_kept); (case mhl => decide)) | with_reducible apply Kept.ite | (fail_if_no_progress ((with_reducible apply Kept.upd); (case ho => (refine Only.of (fun p hp => ?_) rfl; cases p <;> first | rfl | (refine absurd ?_ hp; decide))); (case hi => (repeat' first | with_reducible exact IoKept.refl _ | with_reducible apply Laws.Io.raise_kept | with_reducible apply IoKept.ite | with_reducible apply IoKept.foldl | with_reducible apply IoKept.put | with_reducible apply IoKept.filter | (fail_if_no_progress with_reducible apply IoKept.upd) | intro _ | dsimp only | split)); (case ht => (repeat' first | with_reducible exact T1Kept.refl _ | with_reducible apply Laws.Tier1.free_kept | with_reducible apply T1Kept.ite | with_reducible apply T1Kept.foldl | with_reducible apply T1Kept.put | with_reducible apply T1Kept.filter | (fail_if_no_progress with_reducible apply T1Kept.upd) | intro _ | dsimp only | split)))) | intro _ | dsimp only | split); done))
    | ((with_reducible apply Kept.iteR); case k => ((repeat' first | with_reducible exact Kept.refl _ | ((with_reducible apply Laws.State.complete_kept); (case mhl => decide)) | ((with_reducible apply Laws.State.createSeed_kept' ?mhl (by assumption)); (case mhl => decide)) | ((with_reducible apply Laws.State.createSeed_kept); (case mhl => decide)) | ((with_reducible apply Laws.State.newTable_kept ?mhl (by assumption)); (case mhl => decide)) | ((with_reducible apply Laws.State.raise_kept); (case mhl => decide)) | ((with_reducible apply Laws.State.setStall_kept); (case mhl => decide)) | ((with_reducible apply Laws.State.takePoolSlot_kept); (case mhl => decide)) | ((with_reducible apply Laws.State.writePageHeaders_kept); (case mhl => decide)) | with_reducible apply Kept.ite | (fail_if_no_progress ((with_reducible apply Kept.upd); (case ho => (refine Only.of (fun p hp => ?_) rfl; cases p <;> first | rfl | (refine absurd ?_ hp; decide))); (case hi => (repeat' first | with_reducible exact IoKept.refl _ | with_reducible apply Laws.Io.raise_kept | with_reducible apply IoKept.ite | with_reducible apply IoKept.foldl | with_reducible apply IoKept.put | with_reducible apply IoKept.filter | (fail_if_no_progress with_reducible apply IoKept.upd) | intro _ | dsimp only | split)); (case ht => (repeat' first | with_reducible exact T1Kept.refl _ | with_reducible apply Laws.Tier1.free_kept | with_reducible apply T1Kept.ite | with_reducible apply T1Kept.foldl | with_reducible apply T1Kept.put | with_reducible apply T1Kept.filter | (fail_if_no_progress with_reducible apply T1Kept.upd) | intro _ | dsimp only | split)))) | intro _ | dsimp only | split); done))
    | with_reducible apply Kept.ite
    | (fail_if_no_progress ((with_reducible apply Kept.upd); (case ho => (refine Only.of (fun p hp => ?_) rfl; cases p <;> first | rfl | (refine absurd ?_ hp; decide))); (case hi => (repeat' first | with_reducible exact IoKept.refl _ | with_reducible apply Laws.Io.raise_kept | with_reducible apply IoKept.ite | with_reducible apply IoKept.foldl | with_reducible apply IoKept.put | with_reducible apply IoKept.filter | (fail_if_no_progress with_reducible apply IoKept.upd) | intro _ | dsimp only | split)); (case ht => (repeat' first | with_reducible exact T1Kept.refl _ | with_reducible apply Laws.Tier1.free_kept | with_reducible apply T1Kept.ite | with_reducible apply T1Kept.foldl | with_reducible apply T1Kept.put | with_reducible apply T1Kept.filter | (fail_if_no_progress with_reducible apply T1Kept.upd) | intro _ | dsimp only | split))))
    | intro _
    | dsimp only
    | split
theorem State.createStall_kept {ml : List StateField} {mz : State} {s : State} {c : Cmd} {t grStart : Nat} (mhl : [.io, .t1, .stalls, .answers, .freeIdx] ⊆ ml) (mh : Kept ml mz s) : Kept ml mz (State.createStall s c t grStart) :=
  Kept.after ((State.createStall_frame s c t grStart).mono mhl) mh

theorem State.stallCreate_frame (s : State) (c : Cmd) : Kept [.io, .t1, .stalls, .answers, .freeIdx] s (State.stallCreate s c) := by
  unfold State.stallCreate
  try dsimp only
  repeat' first
    | with_reducible exact Kept.refl _
    | ((with_reducible apply Laws.State.complete_kept); (case mhl => decide))
    | ((with_reducible apply Laws.State.createStall_kept); (case mhl => decide))
    | ((with_reducible apply Laws.State.raise_kept); (case mhl => decide))
    | ((with_reducible apply Laws.State.runHeld_kept); (case mhl => decide))
    | ((with_reducible apply Kept.iteL); case k => ((repeat' first | with_reducible exact Kept.refl _ | ((with_reducible apply Laws.State.complete_kept); (case mhl => decide)) | ((with_reducible apply Laws.State.createStall_kept); (case mhl => decide)) | ((with_reducible apply Laws.State.raise_kept); (case mhl => decide)) | ((with_reducible apply Laws.State.runHeld_kept); (case mhl => decide)) | with_reducible apply Kept.getD | with_reducible apply Kept.ite | (fail_if_no_progress ((with_reducible apply Kept.upd); (case ho => (refine Only.of (fun p hp => ?_) rfl; cases p <;> first | rfl | (refine absurd ?_ hp; decide))); (case hi => (repeat' first | with_reducible exact IoKept.refl _ | with_reducible apply Laws.Io.raise_kept | with_reducible apply IoKept.ite | with_reducible apply IoKept.foldl | with_reducible apply IoKept.put | with_reducible apply IoKept.filter | (fail_if_no_progress with_reducible apply IoKept.upd) | intro _ | dsimp only | split)); (case ht => (repeat' first | with_reducible exact T1Kept.refl _ | with_reducible apply T1Kept.ite | with_reducible apply T1Kept.foldl | with_reducible apply T1Kept.put | with_reducible apply T1Kept.filter | (fail_if_no_progress with_reducible apply T1Kept.upd) | intro _ | dsimp only | split)))) | intro _ | dsimp only | split); done))
    | ((with_reducible apply Kept.iteR); case k => ((repeat' first | with_reducible exact Kept.refl _ | ((with_reducible apply Laws.State.complete_kept); (case mhl => decide)) | ((with_reducible apply Laws.State.createStall_kept); (case mhl => decide)) | ((with_reducible apply Laws.State.raise_kept); (case mhl => decide)) | ((with_reducible apply Laws.State.runHeld_kept); (case mhl => decide)) | with_reducible apply Kept.getD | with_reducible apply Kept.ite | (fail_if_no_progress ((with_reducible apply Kept.upd); (case ho => (refine Only.of (fun p hp => ?_) rfl; cases p <;> first | rfl | (refine absurd ?_ hp; decide))); (case hi => (repeat' first | with_reducible exact IoKept.refl _ | with_reducible apply Laws.Io.raise_kept | with_reducible apply IoKept.ite | with_reducible apply IoKept.foldl | with_reducible apply IoKept.put | with_reducible apply IoKept.filter | (fail_if_no_progress with_reducible apply IoKept.upd) | intro _ | dsimp only | split)); (case ht => (repeat' first | with_reducible exact T1Kept.refl _ | with_reducible apply T1Kept.ite | with_reducible apply T1Kept.foldl | with_reducible apply T1Kept.put | with_reducible apply T1Kept.filter | (fail_if_no_progress with_reducible apply T1Kept.upd) | intro _ | dsimp only | split)))) | intro _ | dsimp only | split); done))
    | with_reducible apply Kept.ite
    | with_reducible apply Kept.getD
    | (fail_if_no_progress ((with_reducible apply Kept.upd); (case ho => (refine Only.of (fun p hp => ?_) rfl; cases p <;> first | rfl | (refine absurd ?_ hp; decide))); (case hi => (repeat' first | with_reducible exact IoKept.refl _ | with_reducible apply Laws.Io.raise_kept | with_reducible apply IoKept.ite | with_reducible apply IoKept.foldl | with_reducible apply IoKept.put | with_reducible apply IoKept.filter | (fail_if_no_progress with_reducible apply IoKept.upd) | intro _ | dsimp only | split)); (case ht => (repeat' first | with_reducible exact T1Kept.refl _ | with_reducible apply T1Kept.ite | with_reducible apply T1Kept.foldl | with_reducible apply T1Kept.put | with_reducible apply T1Kept.filter | (fail_if_no_progress with_reducible apply T1Kept.upd) | intro _ | dsimp only | split))))
    | intro _
    | dsimp only
    | split
theorem State.stallCreate_kept {ml : List StateField} {mz : State} {s : State} {c : Cmd} (mhl : [.io, .t1, .stalls, .answers, .freeIdx] ⊆ ml) (mh : Kept ml mz s) : Kept ml mz (State.stallCreate s c) :=
  Kept.after ((State.stallCreate_frame s c).mono mhl) mh

theorem execStallCreate_kept (c : Cmd) (s : State) : ∃ out, execStallCreate c s = .next out ∧ Kept [.io, .t1, .stalls, .answers, .freeIdx] s out := by
  unfold execStallCreate
  try dsimp only
  refine ⟨_, rfl, ?_⟩
  try dsimp only
  repeat' first
    | with_reducible exact Kept.refl _
    | ((with_reducible apply Laws.State.stallCreate_kept); (case mhl => decide))
    | with_reducible apply Kept.ite
    | intro _
    | dsimp only
    | split

theorem State.queryRoot_frame (s : State) (c : Cmd) (i : Nat) : Kept [.io, .yt, .t1, .shed, .prefetch, .stalls, .units, .ops, .mirrors, .redirects, .cp, .cpSlots, .contexts, .answers, .tallies, .textCache, .rounds, .svChanged, .net] s (State.queryRoot s c i).1 := by
  unfold State.queryRoot
  try dsimp only
  repeat' first
    | with_reducible exact Kept.refl _
    | ((with_reducible apply Laws.State.afterRead_kept); (case mhl => decide))
    | ((with_reducible apply Laws.State.checkPoison_kept); (case mhl => decide))
    | ((with_reducible apply Laws.State.readInFault_kept); (case mhl => decide))
    | ((with_reducible apply Laws.State.writeOut_kept ?mhl (by assumption)); (case mhl => decide))
    | with_reducible apply Kept.ite
    | (fail_if_no_progress ((with_reducible apply Kept.upd); (case ho => (refine Only.of (fun p hp => ?_) rfl; cases p <;> first | rfl | (refine absurd ?_ hp; decide))); (case hi => (repeat' first | with_reducible exact IoKept.refl _ | with_reducible apply IoKept.ite | with_reducible apply IoKept.foldl | with_reducible apply IoKept.put | with_reducible apply IoKept.filter | (fail_if_no_progress with_reducible apply IoKept.upd) | intro _ | dsimp only | split)); (case ht => (repeat' first | with_reducible exact T1Kept.refl _ | with_reducible apply T1Kept.ite | with_reducible apply T1Kept.foldl | with_reducible apply T1Kept.put | with_reducible apply T1Kept.filter | (fail_if_no_progress with_reducible apply T1Kept.upd) | intro _ | dsimp only | split))))
    | intro _
    | dsimp only
    | split
theorem State.queryRoot_kept {ml : List StateField} {mz : State} {s : State} {c : Cmd} {i : Nat} (mhl : [.io, .yt, .t1, .shed, .prefetch, .stalls, .units, .ops, .mirrors, .redirects, .cp, .cpSlots, .contexts, .answers, .tallies, .textCache, .rounds, .svChanged, .net] ⊆ ml) (mh : Kept ml mz s) : Kept ml mz (State.queryRoot s c i).1 :=
  Kept.after ((State.queryRoot_frame s c i).mono mhl) mh
theorem State.queryRoot_kept' {ml : List StateField} {mz : State} {s : State} {c : Cmd} {i : Nat} {v0 : State} {v1 : Nat} (mhl : [.io, .yt, .t1, .shed, .prefetch, .stalls, .units, .ops, .mirrors, .redirects, .cp, .cpSlots, .contexts, .answers, .tallies, .textCache, .rounds, .svChanged, .net] ⊆ ml) (me : State.queryRoot s c i = (v0, v1)) (mh : Kept ml mz s) : Kept ml mz v0 := by
  have mk := Kept.after ((State.queryRoot_frame s c i).mono mhl) mh
  rw [me] at mk
  exact mk

theorem State.stallQuery_frame (s : State) (c : Cmd) : Kept [.io, .yt, .t1, .shed, .prefetch, .stalls, .units, .ops, .mirrors, .redirects, .cp, .cpSlots, .contexts, .answers, .tallies, .textCache, .rounds, .svChanged, .net] s (State.stallQuery s c) := by
  unfold State.stallQuery
  apply State.stallCmd_kept (by decide) _ (Kept.refl _)
  intro i t
  have h1 : Kept [.io, .yt, .t1, .shed, .prefetch, .stalls, .units, .ops, .mirrors, .redirects, .cp, .cpSlots, .contexts, .answers, .tallies, .textCache, .rounds, .svChanged, .net] t (if (t.stall i).state = .running then t else (t.healHeader i).checkPoison) :=
    Kept.ite (Kept.refl _) (State.checkPoison_kept (by decide) (State.healHeader_kept (by decide) (Kept.refl _)))
  dsimp only
  generalize (if (t.stall i).state = .running then t else (t.healHeader i).checkPoison) = u at h1 ⊢
  split
  · exact State.complete_kept (by decide) h1
  split
  · exact State.complete_kept (by decide) (State.readInFault_kept (by decide) h1)
  next v hw =>
  have h2 : Kept [.io, .yt, .t1, .shed, .prefetch, .stalls, .units, .ops, .mirrors, .redirects, .cp, .cpSlots, .contexts, .answers, .tallies, .textCache, .rounds, .svChanged, .net] t v := by
    split at hw
    · cases hw; exact h1
    · exact State.writeOut_kept (by decide) hw h1
  have h3 := State.queryRoot_kept (c := c) (i := i) (by decide) h2
  exact Kept.ite (State.complete_kept (by decide) h3) (State.complete_kept (by decide) h3)
theorem State.stallQuery_kept {ml : List StateField} {mz : State} {s : State} {c : Cmd} (mhl : [.io, .yt, .t1, .shed, .prefetch, .stalls, .units, .ops, .mirrors, .redirects, .cp, .cpSlots, .contexts, .answers, .tallies, .textCache, .rounds, .svChanged, .net] ⊆ ml) (mh : Kept ml mz s) : Kept ml mz (State.stallQuery s c) :=
  Kept.after ((State.stallQuery_frame s c).mono mhl) mh

theorem execStallQuery_kept (c : Cmd) (s : State) : ∃ out, execStallQuery c s = .next out ∧ Kept [.io, .yt, .t1, .shed, .prefetch, .stalls, .units, .ops, .mirrors, .redirects, .cp, .cpSlots, .contexts, .answers, .tallies, .textCache, .rounds, .svChanged, .net] s out := by
  unfold execStallQuery
  try dsimp only
  refine ⟨_, rfl, ?_⟩
  try dsimp only
  repeat' first
    | with_reducible exact Kept.refl _
    | ((with_reducible apply Laws.State.stallQuery_kept); (case mhl => decide))
    | with_reducible apply Kept.ite
    | intro _
    | dsimp only
    | split

theorem State.stallConfig_frame (s : State) (c : Cmd) : Kept [.io, .t1, .shed, .stalls, .units, .ops, .mirrors, .contexts, .answers, .textCache, .net] s (State.stallConfig s c) := by
  unfold State.stallConfig
  try dsimp only
  repeat' first
    | with_reducible exact Kept.refl _
    | ((with_reducible apply Laws.State.nowOrDeferred_kept); (case mhl => decide))
    | ((with_reducible apply Laws.State.stallCmd_kept); (case mhl => decide))
    | with_reducible apply Kept.ite
    | intro _
    | dsimp only
    | split
theorem State.stallConfig_kept {ml : List StateField} {mz : State} {s : State} {c : Cmd} (mhl : [.io, .t1, .shed, .stalls, .units, .ops, .mirrors, .contexts, .answers, .textCache, .net] ⊆ ml) (mh : Kept ml mz s) : Kept ml mz (State.stallConfig s c) :=
  Kept.after ((State.stallConfig_frame s c).mono mhl) mh

theorem execStallConfig_kept (c : Cmd) (s : State) : ∃ out, execStallConfig c s = .next out ∧ Kept [.io, .t1, .shed, .stalls, .units, .ops, .mirrors, .contexts, .answers, .textCache, .net] s out := by
  unfold execStallConfig
  try dsimp only
  refine ⟨_, rfl, ?_⟩
  try dsimp only
  repeat' first
    | with_reducible exact Kept.refl _
    | ((with_reducible apply Laws.State.stallConfig_kept); (case mhl => decide))
    | with_reducible apply Kept.ite
    | intro _
    | dsimp only
    | split

theorem State.stallPark_frame (s : State) (c : Cmd) : Kept [.io, .t1, .shed, .stalls, .units, .ops, .mirrors, .contexts, .answers, .textCache, .net] s (State.stallPark s c) := by
  unfold State.stallPark
  try dsimp only
  repeat' first
    | with_reducible exact Kept.refl _
    | ((with_reducible apply Laws.State.nowOrDeferred_kept); (case mhl => decide))
    | ((with_reducible apply Laws.State.stallCmd_kept); (case mhl => decide))
    | with_reducible apply Kept.ite
    | intro _
    | dsimp only
    | split
theorem State.stallPark_kept {ml : List StateField} {mz : State} {s : State} {c : Cmd} (mhl : [.io, .t1, .shed, .stalls, .units, .ops, .mirrors, .contexts, .answers, .textCache, .net] ⊆ ml) (mh : Kept ml mz s) : Kept ml mz (State.stallPark s c) :=
  Kept.after ((State.stallPark_frame s c).mono mhl) mh

theorem execStallPark_kept (c : Cmd) (s : State) : ∃ out, execStallPark c s = .next out ∧ Kept [.io, .t1, .shed, .stalls, .units, .ops, .mirrors, .contexts, .answers, .textCache, .net] s out := by
  unfold execStallPark
  try dsimp only
  refine ⟨_, rfl, ?_⟩
  try dsimp only
  repeat' first
    | with_reducible exact Kept.refl _
    | ((with_reducible apply Laws.State.stallPark_kept); (case mhl => decide))
    | with_reducible apply Kept.ite
    | intro _
    | dsimp only
    | split

theorem execParkWritesDone_kept (i : Nat) (s : State) : ∃ out, execParkWritesDone i s = .next out ∧ Kept [.io, .yt, .t1, .shed, .prefetch, .stalls, .units, .ops, .mirrors, .redirects, .cp, .cpSlots, .contexts, .answers, .tallies, .textCache, .rounds, .svChanged, .net, .sec, .tear] s out := by
  unfold execParkWritesDone
  try dsimp only
  refine ⟨_, rfl, ?_⟩
  try dsimp only
  repeat' first
    | with_reducible exact Kept.refl _
    | ((with_reducible apply Laws.State.advanceTeardowns_kept); (case mhl => decide))
    | ((with_reducible apply Laws.State.finishPark_kept); (case mhl => decide))
    | ((with_reducible apply Laws.State.tend_kept); (case mhl => decide))
    | with_reducible apply Kept.ite
    | intro _
    | dsimp only
    | split

theorem State.stallRevive_frame (s : State) (c : Cmd) : Kept [.io, .t1, .shed, .stalls, .units, .ops, .mirrors, .contexts, .answers, .textCache, .net] s (State.stallRevive s c) := by
  unfold State.stallRevive
  try dsimp only
  repeat' first
    | with_reducible exact Kept.refl _
    | ((with_reducible apply Laws.State.complete_kept); (case mhl => decide))
    | ((with_reducible apply Laws.State.fetch_kept); (case mhl => decide))
    | ((with_reducible apply Laws.State.nowOrDeferred_kept); (case mhl => decide))
    | ((with_reducible apply Laws.State.sendDevice_kept); (case mhl => decide))
    | ((with_reducible apply Laws.State.setStall_kept); (case mhl => decide))
    | ((with_reducible apply Laws.State.stallCmd_kept); (case mhl => decide))
    | with_reducible apply Kept.ite
    | (fail_if_no_progress ((with_reducible apply Kept.upd); (case ho => (refine Only.of (fun p hp => ?_) rfl; cases p <;> first | rfl | (refine absurd ?_ hp; decide))); (case hi => (repeat' first | with_reducible exact IoKept.refl _ | with_reducible apply IoKept.ite | with_reducible apply IoKept.foldl | with_reducible apply IoKept.put | with_reducible apply IoKept.filter | (fail_if_no_progress with_reducible apply IoKept.upd) | intro _ | dsimp only | split)); (case ht => (repeat' first | with_reducible exact T1Kept.refl _ | with_reducible apply T1Kept.ite | with_reducible apply T1Kept.foldl | with_reducible apply T1Kept.put | with_reducible apply T1Kept.filter | (fail_if_no_progress with_reducible apply T1Kept.upd) | intro _ | dsimp only | split))))
    | intro _
    | dsimp only
    | split
theorem State.stallRevive_kept {ml : List StateField} {mz : State} {s : State} {c : Cmd} (mhl : [.io, .t1, .shed, .stalls, .units, .ops, .mirrors, .contexts, .answers, .textCache, .net] ⊆ ml) (mh : Kept ml mz s) : Kept ml mz (State.stallRevive s c) :=
  Kept.after ((State.stallRevive_frame s c).mono mhl) mh

theorem execStallRevive_kept (c : Cmd) (s : State) : ∃ out, execStallRevive c s = .next out ∧ Kept [.io, .t1, .shed, .stalls, .units, .ops, .mirrors, .contexts, .answers, .textCache, .net] s out := by
  unfold execStallRevive
  try dsimp only
  refine ⟨_, rfl, ?_⟩
  try dsimp only
  repeat' first
    | with_reducible exact Kept.refl _
    | ((with_reducible apply Laws.State.stallRevive_kept); (case mhl => decide))
    | with_reducible apply Kept.ite
    | intro _
    | dsimp only
    | split

theorem execReviveReadsDone_kept (i : Nat) (bad : Option Nat) (tagOk : Bool) (s : State) : ∃ out, execReviveReadsDone i bad tagOk s = .next out ∧ Kept [.io, .t1, .shed, .stalls, .answers, .textCache] s out := by
  unfold execReviveReadsDone
  try dsimp only
  refine ⟨_, rfl, ?_⟩
  try dsimp only
  repeat' first
    | with_reducible exact Kept.refl _
    | ((with_reducible apply Laws.State.finishRevive_kept); (case mhl => decide))
    | with_reducible apply Kept.ite
    | intro _
    | dsimp only
    | split

theorem execReviveRetry_kept (i : Nat) (s : State) : ∃ out, execReviveRetry i s = .next out ∧ Kept [.io, .t1, .stalls, .answers] s out := by
  unfold execReviveRetry
  try dsimp only
  refine ⟨_, rfl, ?_⟩
  try dsimp only
  repeat' first
    | with_reducible exact Kept.refl _
    | ((with_reducible apply Laws.State.setStall_kept); (case mhl => decide))
    | ((with_reducible apply Laws.State.startRevive_kept); (case mhl => decide))
    | with_reducible apply Kept.ite
    | (fail_if_no_progress ((with_reducible apply Kept.upd); (case ho => (refine Only.of (fun p hp => ?_) rfl; cases p <;> first | rfl | (refine absurd ?_ hp; decide))); (case hi => (repeat' first | with_reducible exact IoKept.refl _ | with_reducible apply IoKept.ite | with_reducible apply IoKept.foldl | with_reducible apply IoKept.put | with_reducible apply IoKept.filter | (fail_if_no_progress with_reducible apply IoKept.upd) | intro _ | dsimp only | split)); (case ht => (repeat' first | with_reducible exact T1Kept.refl _ | with_reducible apply T1Kept.ite | with_reducible apply T1Kept.foldl | with_reducible apply T1Kept.put | with_reducible apply T1Kept.filter | (fail_if_no_progress with_reducible apply T1Kept.upd) | intro _ | dsimp only | split))))
    | intro _
    | dsimp only
    | split

theorem State.stallMigrate_frame (s : State) (c : Cmd) : Kept [.io, .t1, .shed, .stalls, .units, .ops, .mirrors, .contexts, .answers, .textCache, .net] s (State.stallMigrate s c) := by
  unfold State.stallMigrate
  try dsimp only
  repeat' first
    | with_reducible exact Kept.refl _
    | ((with_reducible apply Laws.State.beginOp_kept); (case mhl => decide))
    | ((with_reducible apply Laws.State.completeWith_kept); (case mhl => decide))
    | ((with_reducible apply Laws.State.doMigrate_kept); (case mhl => decide))
    | ((with_reducible apply Laws.State.intoPool_kept ?mhl (by assumption)); (case mhl => decide))
    | ((with_reducible apply Laws.State.nowOrDeferred_kept); (case mhl => decide))
    | ((with_reducible apply Laws.State.stallCmd_kept); (case mhl => decide))
    | ((with_reducible apply Laws.State.stallRefuses_kept); (case mhl => decide))
    | ((with_reducible apply Kept.iteL); case k => ((repeat' first | with_reducible exact Kept.refl _ | ((with_reducible apply Laws.State.beginOp_kept); (case mhl => decide)) | ((with_reducible apply Laws.State.completeWith_kept); (case mhl => decide)) | ((with_reducible apply Laws.State.doMigrate_kept); (case mhl => decide)) | ((with_reducible apply Laws.State.intoPool_kept ?mhl (by assumption)); (case mhl => decide)) | ((with_reducible apply Laws.State.nowOrDeferred_kept); (case mhl => decide)) | ((with_reducible apply Laws.State.stallCmd_kept); (case mhl => decide)) | ((with_reducible apply Laws.State.stallRefuses_kept); (case mhl => decide)) | with_reducible apply Kept.ite | (fail_if_no_progress ((with_reducible apply Kept.upd); (case ho => (refine Only.of (fun p hp => ?_) rfl; cases p <;> first | rfl | (refine absurd ?_ hp; decide))); (case hi => (repeat' first | with_reducible exact IoKept.refl _ | with_reducible apply IoKept.ite | with_reducible apply IoKept.foldl | with_reducible apply IoKept.put | with_reducible apply IoKept.filter | (fail_if_no_progress with_reducible apply IoKept.upd) | intro _ | dsimp only | split)); (case ht => (repeat' first | with_reducible exact T1Kept.refl _ | with_reducible apply T1Kept.ite | with_reducible apply T1Kept.foldl | with_reducible apply T1Kept.put | with_reducible apply T1Kept.filter | (fail_if_no_progress with_reducible apply T1Kept.upd) | intro _ | dsimp only | split)))) | intro _ | dsimp only | split); done))
    | ((with_reducible apply Kept.iteR); case k => ((repeat' first | with_reducible exact Kept.refl _ | ((with_reducible apply Laws.State.beginOp_kept); (case mhl => decide)) | ((with_reducible apply Laws.State.completeWith_kept); (case mhl => decide)) | ((with_reducible apply Laws.State.doMigrate_kept); (case mhl => decide)) | ((with_reducible apply Laws.State.intoPool_kept ?mhl (by assumption)); (case mhl => decide)) | ((with_reducible apply Laws.State.nowOrDeferred_kept); (case mhl => decide)) | ((with_reducible apply Laws.State.stallCmd_kept); (case mhl => decide)) | ((with_reducible apply Laws.State.stallRefuses_kept); (case mhl => decide)) | with_reducible apply Kept.ite | (fail_if_no_progress ((with_reducible apply Kept.upd); (case ho => (refine Only.of (fun p hp => ?_) rfl; cases p <;> first | rfl | (refine absurd ?_ hp; decide))); (case hi => (repeat' first | with_reducible exact IoKept.refl _ | with_reducible apply IoKept.ite | with_reducible apply IoKept.foldl | with_reducible apply IoKept.put | with_reducible apply IoKept.filter | (fail_if_no_progress with_reducible apply IoKept.upd) | intro _ | dsimp only | split)); (case ht => (repeat' first | with_reducible exact T1Kept.refl _ | with_reducible apply T1Kept.ite | with_reducible apply T1Kept.foldl | with_reducible apply T1Kept.put | with_reducible apply T1Kept.filter | (fail_if_no_progress with_reducible apply T1Kept.upd) | intro _ | dsimp only | split)))) | intro _ | dsimp only | split); done))
    | with_reducible apply Kept.ite
    | (fail_if_no_progress ((with_reducible apply Kept.upd); (case ho => (refine Only.of (fun p hp => ?_) rfl; cases p <;> first | rfl | (refine absurd ?_ hp; decide))); (case hi => (repeat' first | with_reducible exact IoKept.refl _ | with_reducible apply IoKept.ite | with_reducible apply IoKept.foldl | with_reducible apply IoKept.put | with_reducible apply IoKept.filter | (fail_if_no_progress with_reducible apply IoKept.upd) | intro _ | dsimp only | split)); (case ht => (repeat' first | with_reducible exact T1Kept.refl _ | with_reducible apply T1Kept.ite | with_reducible apply T1Kept.foldl | with_reducible apply T1Kept.put | with_reducible apply T1Kept.filter | (fail_if_no_progress with_reducible apply T1Kept.upd) | intro _ | dsimp only | split))))
    | intro _
    | dsimp only
    | split
theorem State.stallMigrate_kept {ml : List StateField} {mz : State} {s : State} {c : Cmd} (mhl : [.io, .t1, .shed, .stalls, .units, .ops, .mirrors, .contexts, .answers, .textCache, .net] ⊆ ml) (mh : Kept ml mz s) : Kept ml mz (State.stallMigrate s c) :=
  Kept.after ((State.stallMigrate_frame s c).mono mhl) mh

theorem execStallMigrate_kept (c : Cmd) (s : State) : ∃ out, execStallMigrate c s = .next out ∧ Kept [.io, .t1, .shed, .stalls, .units, .ops, .mirrors, .contexts, .answers, .textCache, .net] s out := by
  unfold execStallMigrate
  try dsimp only
  refine ⟨_, rfl, ?_⟩
  try dsimp only
  repeat' first
    | with_reducible exact Kept.refl _
    | ((with_reducible apply Laws.State.stallMigrate_kept); (case mhl => decide))
    | with_reducible apply Kept.ite
    | intro _
    | dsimp only
    | split

theorem State.stallResume_frame (s : State) (c : Cmd) : Kept [.io, .t1, .shed, .stalls, .units, .ops, .mirrors, .contexts, .answers, .textCache, .net] s (State.stallResume s c) := by
  unfold State.stallResume
  try dsimp only
  repeat' first
    | with_reducible exact Kept.refl _
    | ((with_reducible apply Laws.State.nowOrDeferred_kept); (case mhl => decide))
    | ((with_reducible apply Laws.State.stallCmd_kept); (case mhl => decide))
    | with_reducible apply Kept.ite
    | intro _
    | dsimp only
    | split
theorem State.stallResume_kept {ml : List StateField} {mz : State} {s : State} {c : Cmd} (mhl : [.io, .t1, .shed, .stalls, .units, .ops, .mirrors, .contexts, .answers, .textCache, .net] ⊆ ml) (mh : Kept ml mz s) : Kept ml mz (State.stallResume s c) :=
  Kept.after ((State.stallResume_frame s c).mono mhl) mh

theorem execStallResume_kept (c : Cmd) (s : State) : ∃ out, execStallResume c s = .next out ∧ Kept [.io, .t1, .shed, .stalls, .units, .ops, .mirrors, .contexts, .answers, .textCache, .net] s out := by
  unfold execStallResume
  try dsimp only
  refine ⟨_, rfl, ?_⟩
  try dsimp only
  repeat' first
    | with_reducible exact Kept.refl _
    | ((with_reducible apply Laws.State.stallResume_kept); (case mhl => decide))
    | with_reducible apply Kept.ite
    | intro _
    | dsimp only
    | split

theorem State.stallRetire_frame (s : State) (c : Cmd) : Kept [.io, .t1, .shed, .stalls, .units, .ops, .mirrors, .contexts, .answers, .textCache, .net] s (State.stallRetire s c) := by
  unfold State.stallRetire
  try dsimp only
  repeat' first
    | with_reducible exact Kept.refl _
    | ((with_reducible apply Laws.State.nowOrDeferred_kept); (case mhl => decide))
    | ((with_reducible apply Laws.State.stallCmdOn_kept); (case mhl => decide))
    | with_reducible apply Kept.ite
    | intro _
    | dsimp only
    | split
theorem State.stallRetire_kept {ml : List StateField} {mz : State} {s : State} {c : Cmd} (mhl : [.io, .t1, .shed, .stalls, .units, .ops, .mirrors, .contexts, .answers, .textCache, .net] ⊆ ml) (mh : Kept ml mz s) : Kept ml mz (State.stallRetire s c) :=
  Kept.after ((State.stallRetire_frame s c).mono mhl) mh

theorem execStallRetire_kept (c : Cmd) (s : State) : ∃ out, execStallRetire c s = .next out ∧ Kept [.io, .t1, .shed, .stalls, .units, .ops, .mirrors, .contexts, .answers, .textCache, .net] s out := by
  unfold execStallRetire
  try dsimp only
  refine ⟨_, rfl, ?_⟩
  try dsimp only
  repeat' first
    | with_reducible exact Kept.refl _
    | ((with_reducible apply Laws.State.stallRetire_kept); (case mhl => decide))
    | with_reducible apply Kept.ite
    | intro _
    | dsimp only
    | split

theorem State.stallFree_frame (s : State) (c : Cmd) : Kept [.io, .t1, .shed, .stalls, .units, .ops, .mirrors, .contexts, .answers, .textCache, .net] s (State.stallFree s c) := by
  unfold State.stallFree
  try dsimp only
  repeat' first
    | with_reducible exact Kept.refl _
    | ((with_reducible apply Laws.State.nowOrDeferred_kept); (case mhl => decide))
    | ((with_reducible apply Laws.State.stallCmd_kept); (case mhl => decide))
    | with_reducible apply Kept.ite
    | intro _
    | dsimp only
    | split
theorem State.stallFree_kept {ml : List StateField} {mz : State} {s : State} {c : Cmd} (mhl : [.io, .t1, .shed, .stalls, .units, .ops, .mirrors, .contexts, .answers, .textCache, .net] ⊆ ml) (mh : Kept ml mz s) : Kept ml mz (State.stallFree s c) :=
  Kept.after ((State.stallFree_frame s c).mono mhl) mh

theorem execStallFree_kept (c : Cmd) (s : State) : ∃ out, execStallFree c s = .next out ∧ Kept [.io, .t1, .shed, .stalls, .units, .ops, .mirrors, .contexts, .answers, .textCache, .net] s out := by
  unfold execStallFree
  try dsimp only
  refine ⟨_, rfl, ?_⟩
  try dsimp only
  repeat' first
    | with_reducible exact Kept.refl _
    | ((with_reducible apply Laws.State.stallFree_kept); (case mhl => decide))
    | with_reducible apply Kept.ite
    | intro _
    | dsimp only
    | split

theorem execRetireHoldExpiry_kept (i : Nat) (s : State) : ∃ out, execRetireHoldExpiry i s = .next out ∧ Kept [.io, .t1, .shed, .stalls] s out := by
  unfold execRetireHoldExpiry
  try dsimp only
  refine ⟨_, rfl, ?_⟩
  try dsimp only
  repeat' first
    | with_reducible exact Kept.refl _
    | ((with_reducible apply Laws.State.freeSlot_kept); (case mhl => decide))
    | with_reducible apply Kept.ite
    | intro _
    | dsimp only
    | split

theorem State.stallForget_frame (s : State) (c : Cmd) : Kept [.io, .t1, .shed, .stalls, .units, .ops, .mirrors, .contexts, .answers, .textCache, .net] s (State.stallForget s c) := by
  unfold State.stallForget
  try dsimp only
  repeat' first
    | with_reducible exact Kept.refl _
    | ((with_reducible apply Laws.State.nowOrDeferred_kept); (case mhl => decide))
    | ((with_reducible apply Laws.State.stallCmd_kept); (case mhl => decide))
    | with_reducible apply Kept.ite
    | intro _
    | dsimp only
    | split
theorem State.stallForget_kept {ml : List StateField} {mz : State} {s : State} {c : Cmd} (mhl : [.io, .t1, .shed, .stalls, .units, .ops, .mirrors, .contexts, .answers, .textCache, .net] ⊆ ml) (mh : Kept ml mz s) : Kept ml mz (State.stallForget s c) :=
  Kept.after ((State.stallForget_frame s c).mono mhl) mh

theorem execStallForget_kept (c : Cmd) (s : State) : ∃ out, execStallForget c s = .next out ∧ Kept [.io, .t1, .shed, .stalls, .units, .ops, .mirrors, .contexts, .answers, .textCache, .net] s out := by
  unfold execStallForget
  try dsimp only
  refine ⟨_, rfl, ?_⟩
  try dsimp only
  repeat' first
    | with_reducible exact Kept.refl _
    | ((with_reducible apply Laws.State.stallForget_kept); (case mhl => decide))
    | with_reducible apply Kept.ite
    | intro _
    | dsimp only
    | split

theorem State.booksAudit_frame (s : State) (c : Cmd) : Kept [.io, .ops, .answers, .allocStopped] s (State.booksAudit s c) := by
  unfold State.booksAudit
  try dsimp only
  repeat' first
    | with_reducible exact Kept.refl _
    | ((with_reducible apply Laws.State.beginOp_kept); (case mhl => decide))
    | ((with_reducible apply Laws.State.refuse_kept); (case mhl => decide))
    | ((with_reducible apply Laws.State.runHeld_kept); (case mhl => decide))
    | with_reducible apply Kept.ite
    | (fail_if_no_progress ((with_reducible apply Kept.upd); (case ho => (refine Only.of (fun p hp => ?_) rfl; cases p <;> first | rfl | (refine absurd ?_ hp; decide))); (case hi => (repeat' first | with_reducible exact IoKept.refl _ | with_reducible apply IoKept.ite | with_reducible apply IoKept.foldl | with_reducible apply IoKept.put | with_reducible apply IoKept.filter | (fail_if_no_progress with_reducible apply IoKept.upd) | intro _ | dsimp only | split)); (case ht => exact T1Kept.refl _)))
    | intro _
    | dsimp only
    | split
theorem State.booksAudit_kept {ml : List StateField} {mz : State} {s : State} {c : Cmd} (mhl : [.io, .ops, .answers, .allocStopped] ⊆ ml) (mh : Kept ml mz s) : Kept ml mz (State.booksAudit s c) :=
  Kept.after ((State.booksAudit_frame s c).mono mhl) mh

theorem execBooksAudit_kept (c : Cmd) (s : State) : ∃ out, execBooksAudit c s = .next out ∧ Kept [.io, .ops, .answers, .allocStopped] s out := by
  unfold execBooksAudit
  try dsimp only
  refine ⟨_, rfl, ?_⟩
  try dsimp only
  repeat' first
    | with_reducible exact Kept.refl _
    | ((with_reducible apply Laws.State.booksAudit_kept); (case mhl => decide))
    | with_reducible apply Kept.ite
    | intro _
    | dsimp only
    | split

theorem execBooksAuditCompare_kept (slot : Nat) (s : State) : ∃ out, execBooksAuditCompare slot s = .next out ∧ Kept [.io, .ops, .answers, .allocStopped] s out := by
  unfold execBooksAuditCompare
  try dsimp only
  refine ⟨_, rfl, ?_⟩
  try dsimp only
  repeat' first
    | with_reducible exact Kept.refl _
    | ((with_reducible apply Laws.State.endOp_kept); (case mhl => decide))
    | ((with_reducible apply Laws.State.raise_kept); (case mhl => decide))
    | with_reducible apply Kept.ite
    | (fail_if_no_progress ((with_reducible apply Kept.upd); (case ho => (refine Only.of (fun p hp => ?_) rfl; cases p <;> first | rfl | (refine absurd ?_ hp; decide))); (case hi => (repeat' first | with_reducible exact IoKept.refl _ | with_reducible apply Laws.Io.raise_kept | with_reducible apply IoKept.ite | with_reducible apply IoKept.foldl | with_reducible apply IoKept.put | with_reducible apply IoKept.filter | (fail_if_no_progress with_reducible apply IoKept.upd) | intro _ | dsimp only | split)); (case ht => exact T1Kept.refl _)))
    | intro _
    | dsimp only
    | split

theorem execWaitTimeout_kept (i : Nat) (s : State) : ∃ out, execWaitTimeout i s = .next out ∧ Kept [.t1, .stalls] s out := by
  unfold execWaitTimeout
  try dsimp only
  refine ⟨_, rfl, ?_⟩
  try dsimp only
  repeat' first
    | with_reducible exact Kept.refl _
    | ((with_reducible apply Laws.State.startPark_kept); (case mhl => decide))
    | with_reducible apply Kept.ite
    | intro _
    | dsimp only
    | split

theorem execJournalRecordWrite_kept (i tokens : Nat) (bad : Option (Nat × Nat)) (s : State) : ∃ out, execJournalRecordWrite i tokens bad s = .next out ∧ Kept [.io, .yt, .t1, .shed, .prefetch, .stalls, .units, .ops, .mirrors, .redirects, .cp, .cpSlots, .contexts, .answers, .tallies, .textCache, .rounds, .svChanged, .net] s out := by
  unfold execJournalRecordWrite
  try dsimp only
  refine ⟨_, rfl, ?_⟩
  try dsimp only
  repeat' first
    | with_reducible exact Kept.refl _
    | ((with_reducible apply Laws.State.badBlock_kept); (case mhl => decide))
    | ((with_reducible apply Laws.State.journalUpTo_kept ?mhl (by assumption)); (case mhl => decide))
    | ((with_reducible apply Laws.State.journal_kept); (case mhl => decide))
    | ((with_reducible apply Laws.State.tend_kept); (case mhl => decide))
    | with_reducible apply Kept.ite
    | with_reducible apply Kept.elim
    | (fail_if_no_progress ((with_reducible apply Kept.upd); (case ho => (refine Only.of (fun p hp => ?_) rfl; cases p <;> first | rfl | (refine absurd ?_ hp; decide))); (case hi => (repeat' first | with_reducible exact IoKept.refl _ | with_reducible apply IoKept.ite | with_reducible apply IoKept.foldl | with_reducible apply IoKept.put | with_reducible apply IoKept.filter | (fail_if_no_progress with_reducible apply IoKept.upd) | intro _ | dsimp only | split)); (case ht => (repeat' first | with_reducible exact T1Kept.refl _ | with_reducible apply T1Kept.ite | with_reducible apply T1Kept.foldl | with_reducible apply T1Kept.put | with_reducible apply T1Kept.filter | (fail_if_no_progress with_reducible apply T1Kept.upd) | intro _ | dsimp only | split))))
    | intro _
    | dsimp only
    | split

theorem execLayerRelocateDone_kept (i layer : Nat) (s : State) : ∃ out, execLayerRelocateDone i layer s = .next out ∧ Kept [.io, .yt, .t1, .shed, .prefetch, .stalls, .units, .ops, .mirrors, .redirects, .cp, .cpSlots, .contexts, .answers, .tallies, .textCache, .rounds, .svChanged, .net] s out := by
  unfold execLayerRelocateDone
  try dsimp only
  refine ⟨_, rfl, ?_⟩
  try dsimp only
  repeat' first
    | with_reducible exact Kept.refl _
    | ((with_reducible apply Laws.State.quarantine_kept); (case mhl => decide))
    | ((with_reducible apply Laws.State.setStall_kept); (case mhl => decide))
    | ((with_reducible apply Laws.State.stallEvent_kept); (case mhl => decide))
    | ((with_reducible apply Laws.State.tend_kept); (case mhl => decide))
    | ((with_reducible apply Laws.State.writeT1_kept); (case mhl => decide))
    | with_reducible apply Kept.ite
    | with_reducible apply Kept.foldl
    | with_reducible apply Kept.foldlFst
    | with_reducible apply Kept.foldlSnd
    | with_reducible apply Kept.getD
    | (fail_if_no_progress ((with_reducible apply Kept.upd); (case ho => (refine Only.of (fun p hp => ?_) rfl; cases p <;> first | rfl | (refine absurd ?_ hp; decide))); (case hi => (repeat' first | with_reducible exact IoKept.refl _ | with_reducible apply IoKept.ite | with_reducible apply IoKept.foldl | with_reducible apply IoKept.put | with_reducible apply IoKept.filter | (fail_if_no_progress with_reducible apply IoKept.upd) | intro _ | dsimp only | split)); (case ht => (repeat' first | with_reducible exact T1Kept.refl _ | with_reducible apply Laws.Tier1.own_kept | with_reducible apply T1Kept.ite | with_reducible apply T1Kept.foldl | with_reducible apply T1Kept.put | with_reducible apply T1Kept.filter | (fail_if_no_progress with_reducible apply T1Kept.upd) | intro _ | dsimp only | split))))
    | intro _
    | dsimp only
    | split

theorem execQuarantineScrubDone_kept (start len : Nat) (s : State) : ∃ out, execQuarantineScrubDone start len s = .next out ∧ Kept [.io, .t1, .shed, .stalls, .units, .ops, .mirrors, .contexts, .answers, .tallies, .textCache, .net, .sec, .tear] s out := by
  unfold execQuarantineScrubDone
  try dsimp only
  refine ⟨_, rfl, ?_⟩
  try dsimp only
  repeat' first
    | with_reducible exact Kept.refl _
    | ((with_reducible apply Laws.State.advanceTeardowns_kept); (case mhl => decide))
    | with_reducible apply Kept.ite
    | (fail_if_no_progress ((with_reducible apply Kept.upd); (case ho => (refine Only.of (fun p hp => ?_) rfl; cases p <;> first | rfl | (refine absurd ?_ hp; decide))); (case hi => (repeat' first | with_reducible exact IoKept.refl _ | with_reducible apply IoKept.ite | with_reducible apply IoKept.foldl | with_reducible apply IoKept.put | with_reducible apply IoKept.filter | (fail_if_no_progress with_reducible apply IoKept.upd) | intro _ | dsimp only | split)); (case ht => (repeat' first | with_reducible exact T1Kept.refl _ | with_reducible apply Laws.Tier1.clear_kept | with_reducible apply Laws.Tier1.free_kept | with_reducible apply T1Kept.ite | with_reducible apply T1Kept.foldl | with_reducible apply T1Kept.put | with_reducible apply T1Kept.filter | (fail_if_no_progress with_reducible apply T1Kept.upd) | intro _ | dsimp only | split))))
    | intro _
    | dsimp only
    | split

theorem State.heldMsg_kept {ml : List StateField} {mz : State} {s : State} {f : State → State} (mhl : [] ⊆ ml) (hf : ∀ a0, Kept ml a0 (f a0)) (mh : Kept ml mz s) : Kept ml mz (State.heldMsg s f) := by
  refine Kept.after ?_ mh
  unfold State.heldMsg
  try dsimp only
  repeat' first
    | with_reducible exact Kept.refl _
    | (with_reducible apply Kept.after (hf _))
    | with_reducible apply Kept.ite
    | intro _
    | dsimp only
    | split

theorem State.redirect_frame (s : State) (m : Msg) (i : Nat) : Kept [.io, .net] s (State.redirect s m i) := by
  unfold State.redirect
  try dsimp only
  repeat' first
    | with_reducible exact Kept.refl _
    | ((with_reducible apply Laws.State.bump_kept); (case mhl => decide))
    | ((with_reducible apply Laws.State.send_kept); (case mhl => decide))
    | with_reducible apply Kept.ite
    | intro _
    | dsimp only
    | split
theorem State.redirect_kept {ml : List StateField} {mz : State} {s : State} {m : Msg} {i : Nat} (mhl : [.io, .net] ⊆ ml) (mh : Kept ml mz s) : Kept ml mz (State.redirect s m i) :=
  Kept.after ((State.redirect_frame s m i).mono mhl) mh

theorem execResultReceived_kept (m : Msg) (s : State) : ∃ out, execResultReceived m s = .next out ∧ Kept [.io, .t1, .shed, .stalls, .ops, .mirrors, .answers, .textCache, .net] s out := by
  unfold execResultReceived
  try dsimp only
  refine ⟨_, rfl, ?_⟩
  try dsimp only
  repeat' first
    | with_reducible exact Kept.refl _
    | ((with_reducible apply Laws.State.heldMsg_kept); (case mhl => decide))
    | ((with_reducible apply Laws.State.redirect_kept); (case mhl => decide))
    | ((with_reducible apply Laws.State.soon_kept); (case mhl => decide))
    | with_reducible apply Kept.ite
    | (fail_if_no_progress ((with_reducible apply Kept.upd); (case ho => (refine Only.of (fun p hp => ?_) rfl; cases p <;> first | rfl | (refine absurd ?_ hp; decide))); (case hi => (repeat' first | with_reducible exact IoKept.refl _ | with_reducible apply IoKept.ite | with_reducible apply IoKept.foldl | with_reducible apply IoKept.put | with_reducible apply IoKept.filter | (fail_if_no_progress with_reducible apply IoKept.upd) | intro _ | dsimp only | split)); (case ht => (repeat' first | with_reducible exact T1Kept.refl _ | with_reducible apply T1Kept.ite | with_reducible apply T1Kept.foldl | with_reducible apply T1Kept.put | with_reducible apply T1Kept.filter | (fail_if_no_progress with_reducible apply T1Kept.upd) | intro _ | dsimp only | split))))
    | intro _
    | dsimp only
    | split

theorem execAnnounceReceived_kept (m : Msg) (s : State) : ∃ out, execAnnounceReceived m s = .next out ∧ Kept [.io, .t1, .stalls, .answers, .net] s out := by
  unfold execAnnounceReceived
  try dsimp only
  refine ⟨_, rfl, ?_⟩
  try dsimp only
  repeat' first
    | with_reducible exact Kept.refl _
    | ((with_reducible apply Laws.State.redirect_kept); (case mhl => decide))
    | ((with_reducible apply Laws.State.startRevive_kept); (case mhl => decide))
    | with_reducible apply Kept.ite
    | (fail_if_no_progress ((with_reducible apply Kept.upd); (case ho => (refine Only.of (fun p hp => ?_) rfl; cases p <;> first | rfl | (refine absurd ?_ hp; decide))); (case hi => (repeat' first | with_reducible exact IoKept.refl _ | with_reducible apply IoKept.ite | with_reducible apply IoKept.foldl | with_reducible apply IoKept.put | with_reducible apply IoKept.filter | (fail_if_no_progress with_reducible apply IoKept.upd) | intro _ | dsimp only | split)); (case ht => (repeat' first | with_reducible exact T1Kept.refl _ | with_reducible apply T1Kept.ite | with_reducible apply T1Kept.foldl | with_reducible apply T1Kept.put | with_reducible apply T1Kept.filter | (fail_if_no_progress with_reducible apply T1Kept.upd) | intro _ | dsimp only | split))))
    | intro _
    | dsimp only
    | split

theorem execPrepareReceived_kept (m : Msg) (tagOk : Bool) (s : State) : ∃ out, execPrepareReceived m tagOk s = .next out ∧ Kept [.io, .t1, .shed, .stalls, .answers, .textCache, .net] s out := by
  unfold execPrepareReceived
  try dsimp only
  refine ⟨_, rfl, ?_⟩
  try dsimp only
  repeat' first
    | with_reducible exact Kept.refl _
    | ((with_reducible apply Laws.State.heldMsg_kept); (case mhl => decide))
    | ((with_reducible apply Laws.State.receivePrepare_kept); (case mhl => decide))
    | ((with_reducible apply Laws.State.refusePrepare_kept); (case mhl => decide))
    | ((with_reducible apply Kept.iteL); case k => ((repeat' first | with_reducible exact Kept.refl _ | ((with_reducible apply Laws.State.heldMsg_kept); (case mhl => decide)) | ((with_reducible apply Laws.State.receivePrepare_kept); (case mhl => decide)) | ((with_reducible apply Laws.State.refusePrepare_kept); (case mhl => decide)) | with_reducible apply Kept.ite | (fail_if_no_progress ((with_reducible apply Kept.upd); (case ho => (refine Only.of (fun p hp => ?_) rfl; cases p <;> first | rfl | (refine absurd ?_ hp; decide))); (case hi => (repeat' first | with_reducible exact IoKept.refl _ | with_reducible apply IoKept.ite | with_reducible apply IoKept.foldl | with_reducible apply IoKept.put | with_reducible apply IoKept.filter | (fail_if_no_progress with_reducible apply IoKept.upd) | intro _ | dsimp only | split)); (case ht => (repeat' first | with_reducible exact T1Kept.refl _ | with_reducible apply T1Kept.ite | with_reducible apply T1Kept.foldl | with_reducible apply T1Kept.put | with_reducible apply T1Kept.filter | (fail_if_no_progress with_reducible apply T1Kept.upd) | intro _ | dsimp only | split)))) | intro _ | dsimp only | split); done))
    | ((with_reducible apply Kept.iteR); case k => ((repeat' first | with_reducible exact Kept.refl _ | ((with_reducible apply Laws.State.heldMsg_kept); (case mhl => decide)) | ((with_reducible apply Laws.State.receivePrepare_kept); (case mhl => decide)) | ((with_reducible apply Laws.State.refusePrepare_kept); (case mhl => decide)) | with_reducible apply Kept.ite | (fail_if_no_progress ((with_reducible apply Kept.upd); (case ho => (refine Only.of (fun p hp => ?_) rfl; cases p <;> first | rfl | (refine absurd ?_ hp; decide))); (case hi => (repeat' first | with_reducible exact IoKept.refl _ | with_reducible apply IoKept.ite | with_reducible apply IoKept.foldl | with_reducible apply IoKept.put | with_reducible apply IoKept.filter | (fail_if_no_progress with_reducible apply IoKept.upd) | intro _ | dsimp only | split)); (case ht => (repeat' first | with_reducible exact T1Kept.refl _ | with_reducible apply T1Kept.ite | with_reducible apply T1Kept.foldl | with_reducible apply T1Kept.put | with_reducible apply T1Kept.filter | (fail_if_no_progress with_reducible apply T1Kept.upd) | intro _ | dsimp only | split)))) | intro _ | dsimp only | split); done))
    | with_reducible apply Kept.ite
    | (fail_if_no_progress ((with_reducible apply Kept.upd); (case ho => (refine Only.of (fun p hp => ?_) rfl; cases p <;> first | rfl | (refine absurd ?_ hp; decide))); (case hi => (repeat' first | with_reducible exact IoKept.refl _ | with_reducible apply IoKept.ite | with_reducible apply IoKept.foldl | with_reducible apply IoKept.put | with_reducible apply IoKept.filter | (fail_if_no_progress with_reducible apply IoKept.upd) | intro _ | dsimp only | split)); (case ht => (repeat' first | with_reducible exact T1Kept.refl _ | with_reducible apply T1Kept.ite | with_reducible apply T1Kept.foldl | with_reducible apply T1Kept.put | with_reducible apply T1Kept.filter | (fail_if_no_progress with_reducible apply T1Kept.upd) | intro _ | dsimp only | split))))
    | intro _
    | dsimp only
    | split

theorem execPreparedReceived_kept (m : Msg) (s : State) : ∃ out, execPreparedReceived m s = .next out ∧ Kept [.stalls, .net] s out := by
  unfold execPreparedReceived
  try dsimp only
  refine ⟨_, rfl, ?_⟩
  try dsimp only
  repeat' first
    | with_reducible exact Kept.refl _
    | ((with_reducible apply Laws.State.heldMsg_kept); (case mhl => decide))
    | ((with_reducible apply Laws.State.sendAbort_kept); (case mhl => decide))
    | ((with_reducible apply Laws.State.sendCommit_kept); (case mhl => decide))
    | ((with_reducible apply Laws.State.setStall_kept); (case mhl => decide))
    | with_reducible apply Kept.ite
    | (fail_if_no_progress ((with_reducible apply Kept.upd); (case ho => (refine Only.of (fun p hp => ?_) rfl; cases p <;> first | rfl | (refine absurd ?_ hp; decide))); (case hi => exact IoKept.refl _); (case ht => exact T1Kept.refl _)))
    | intro _
    | dsimp only
    | split

theorem execCommitReceived_kept (m : Msg) (s : State) : ∃ out, execCommitReceived m s = .next out ∧ Kept [.io, .t1, .shed, .stalls, .answers, .net] s out := by
  unfold execCommitReceived
  try dsimp only
  refine ⟨_, rfl, ?_⟩
  try dsimp only
  repeat' first
    | with_reducible exact Kept.refl _
    | ((with_reducible apply Laws.State.commitDest_kept); (case mhl => decide))
    | ((with_reducible apply Laws.State.heldMsg_kept); (case mhl => decide))
    | ((with_reducible apply Laws.State.sendAbort_kept); (case mhl => decide))
    | with_reducible apply Kept.ite
    | (fail_if_no_progress ((with_reducible apply Kept.upd); (case ho => (refine Only.of (fun p hp => ?_) rfl; cases p <;> first | rfl | (refine absurd ?_ hp; decide))); (case hi => (repeat' first | with_reducible exact IoKept.refl _ | with_reducible apply IoKept.ite | with_reducible apply IoKept.foldl | with_reducible apply IoKept.put | with_reducible apply IoKept.filter | (fail_if_no_progress with_reducible apply IoKept.upd) | intro _ | dsimp only | split)); (case ht => (repeat' first | with_reducible exact T1Kept.refl _ | with_reducible apply T1Kept.ite | with_reducible apply T1Kept.foldl | with_reducible apply T1Kept.put | with_reducible apply T1Kept.filter | (fail_if_no_progress with_reducible apply T1Kept.upd) | intro _ | dsimp only | split))))
    | intro _
    | dsimp only
    | split

theorem execCommittedReceived_kept (m : Msg) (s : State) : ∃ out, execCommittedReceived m s = .next out ∧ Kept [.io, .t1, .shed, .stalls, .units, .ops, .mirrors, .contexts, .answers, .tallies, .textCache, .net, .sec, .tear] s out := by
  unfold execCommittedReceived
  try dsimp only
  refine ⟨_, rfl, ?_⟩
  try dsimp only
  repeat' first
    | with_reducible exact Kept.refl _
    | ((with_reducible apply Laws.State.advanceTeardowns_kept); (case mhl => decide))
    | ((with_reducible apply Laws.State.heldMsg_kept); (case mhl => decide))
    | ((with_reducible apply Laws.State.sourceDone_kept); (case mhl => decide))
    | with_reducible apply Kept.ite
    | (fail_if_no_progress ((with_reducible apply Kept.upd); (case ho => (refine Only.of (fun p hp => ?_) rfl; cases p <;> first | rfl | (refine absurd ?_ hp; decide))); (case hi => (repeat' first | with_reducible exact IoKept.refl _ | with_reducible apply IoKept.ite | with_reducible apply IoKept.foldl | with_reducible apply IoKept.put | with_reducible apply IoKept.filter | (fail_if_no_progress with_reducible apply IoKept.upd) | intro _ | dsimp only | split)); (case ht => (repeat' first | with_reducible exact T1Kept.refl _ | with_reducible apply T1Kept.ite | with_reducible apply T1Kept.foldl | with_reducible apply T1Kept.put | with_reducible apply T1Kept.filter | (fail_if_no_progress with_reducible apply T1Kept.upd) | intro _ | dsimp only | split))))
    | intro _
    | dsimp only
    | split

theorem execAbortReceived_kept (m : Msg) (s : State) : ∃ out, execAbortReceived m s = .next out ∧ Kept [.io, .t1, .shed, .stalls, .units, .ops, .mirrors, .contexts, .answers, .tallies, .textCache, .net, .sec, .tear] s out := by
  unfold execAbortReceived
  try dsimp only
  refine ⟨_, rfl, ?_⟩
  try dsimp only
  repeat' first
    | with_reducible exact Kept.refl _
    | ((with_reducible apply Laws.State.advanceTeardowns_kept); (case mhl => decide))
    | ((with_reducible apply Laws.State.cancelSource_kept); (case mhl => decide))
    | ((with_reducible apply Laws.State.failFetch_kept); (case mhl => decide))
    | ((with_reducible apply Laws.State.freeCopy_kept); (case mhl => decide))
    | ((with_reducible apply Laws.State.heldMsg_kept); (case mhl => decide))
    | with_reducible apply Kept.ite
    | (fail_if_no_progress ((with_reducible apply Kept.upd); (case ho => (refine Only.of (fun p hp => ?_) rfl; cases p <;> first | rfl | (refine absurd ?_ hp; decide))); (case hi => (repeat' first | with_reducible exact IoKept.refl _ | with_reducible apply IoKept.ite | with_reducible apply IoKept.foldl | with_reducible apply IoKept.put | with_reducible apply IoKept.filter | (fail_if_no_progress with_reducible apply IoKept.upd) | intro _ | dsimp only | split)); (case ht => (repeat' first | with_reducible exact T1Kept.refl _ | with_reducible apply T1Kept.ite | with_reducible apply T1Kept.foldl | with_reducible apply T1Kept.put | with_reducible apply T1Kept.filter | (fail_if_no_progress with_reducible apply T1Kept.upd) | intro _ | dsimp only | split))))
    | intro _
    | dsimp only
    | split

theorem execSourcePrepLeaseExpiry_kept (i : Nat) (s : State) : ∃ out, execSourcePrepLeaseExpiry i s = .next out ∧ Kept [.io, .stalls, .ops, .answers, .net] s out := by
  unfold execSourcePrepLeaseExpiry
  try dsimp only
  refine ⟨_, rfl, ?_⟩
  try dsimp only
  repeat' first
    | with_reducible exact Kept.refl _
    | ((with_reducible apply Laws.State.cancelSource_kept); (case mhl => decide))
    | ((with_reducible apply Laws.State.sendAbort_kept); (case mhl => decide))
    | with_reducible apply Kept.ite
    | intro _
    | dsimp only
    | split

theorem execSourceCommitLeaseExpiry_kept (i : Nat) (s : State) : ∃ out, execSourceCommitLeaseExpiry i s = .next out ∧ Kept [.io, .t1, .shed, .stalls, .units, .ops, .mirrors, .contexts, .answers, .tallies, .textCache, .net, .sec, .tear] s out := by
  unfold execSourceCommitLeaseExpiry
  try dsimp only
  refine ⟨_, rfl, ?_⟩
  try dsimp only
  repeat' first
    | with_reducible exact Kept.refl _
    | ((with_reducible apply Laws.State.advanceTeardowns_kept); (case mhl => decide))
    | ((with_reducible apply Laws.State.askOwner_kept); (case mhl => decide))
    | ((with_reducible apply Laws.State.promoteSource_kept); (case mhl => decide))
    | with_reducible apply Kept.ite
    | (fail_if_no_progress ((with_reducible apply Kept.upd); (case ho => (refine Only.of (fun p hp => ?_) rfl; cases p <;> first | rfl | (refine absurd ?_ hp; decide))); (case hi => (repeat' first | with_reducible exact IoKept.refl _ | with_reducible apply IoKept.ite | with_reducible apply IoKept.foldl | with_reducible apply IoKept.put | with_reducible apply IoKept.filter | (fail_if_no_progress with_reducible apply IoKept.upd) | intro _ | dsimp only | split)); (case ht => (repeat' first | with_reducible exact T1Kept.refl _ | with_reducible apply T1Kept.ite | with_reducible apply T1Kept.foldl | with_reducible apply T1Kept.put | with_reducible apply T1Kept.filter | (fail_if_no_progress with_reducible apply T1Kept.upd) | intro _ | dsimp only | split))))
    | intro _
    | dsimp only
    | split

theorem execDestLeaseExpiry_kept (i : Nat) (s : State) : ∃ out, execDestLeaseExpiry i s = .next out ∧ Kept [.io, .t1, .shed, .stalls, .answers, .net] s out := by
  unfold execDestLeaseExpiry
  try dsimp only
  refine ⟨_, rfl, ?_⟩
  try dsimp only
  repeat' first
    | with_reducible exact Kept.refl _
    | ((with_reducible apply Laws.State.askOwner_kept); (case mhl => decide))
    | ((with_reducible apply Laws.State.promoteDest_kept); (case mhl => decide))
    | with_reducible apply Kept.ite
    | (fail_if_no_progress ((with_reducible apply Kept.upd); (case ho => (refine Only.of (fun p hp => ?_) rfl; cases p <;> first | rfl | (refine absurd ?_ hp; decide))); (case hi => (repeat' first | with_reducible exact IoKept.refl _ | with_reducible apply IoKept.ite | with_reducible apply IoKept.foldl | with_reducible apply IoKept.put | with_reducible apply IoKept.filter | (fail_if_no_progress with_reducible apply IoKept.upd) | intro _ | dsimp only | split)); (case ht => (repeat' first | with_reducible exact T1Kept.refl _ | with_reducible apply T1Kept.ite | with_reducible apply T1Kept.foldl | with_reducible apply T1Kept.put | with_reducible apply T1Kept.filter | (fail_if_no_progress with_reducible apply T1Kept.upd) | intro _ | dsimp only | split))))
    | intro _
    | dsimp only
    | split

theorem execOwnerQueryRetry_kept (i : Nat) (s : State) : ∃ out, execOwnerQueryRetry i s = .next out ∧ Kept [.io, .t1, .shed, .stalls, .units, .ops, .mirrors, .contexts, .answers, .tallies, .textCache, .net, .sec, .tear] s out := by
  unfold execOwnerQueryRetry
  try dsimp only
  refine ⟨_, rfl, ?_⟩
  try dsimp only
  repeat' first
    | with_reducible exact Kept.refl _
    | ((with_reducible apply Laws.State.advanceTeardowns_kept); (case mhl => decide))
    | ((with_reducible apply Laws.State.askOwner_kept); (case mhl => decide))
    | ((with_reducible apply Laws.State.promoteDest_kept); (case mhl => decide))
    | ((with_reducible apply Laws.State.promoteSource_kept); (case mhl => decide))
    | ((with_reducible apply Kept.iteL); case k => ((repeat' first | with_reducible exact Kept.refl _ | ((with_reducible apply Laws.State.advanceTeardowns_kept); (case mhl => decide)) | ((with_reducible apply Laws.State.askOwner_kept); (case mhl => decide)) | ((with_reducible apply Laws.State.promoteDest_kept); (case mhl => decide)) | ((with_reducible apply Laws.State.promoteSource_kept); (case mhl => decide)) | with_reducible apply Kept.ite | (fail_if_no_progress ((with_reducible apply Kept.upd); (case ho => (refine Only.of (fun p hp => ?_) rfl; cases p <;> first | rfl | (refine absurd ?_ hp; decide))); (case hi => (repeat' first | with_reducible exact IoKept.refl _ | with_reducible apply IoKept.ite | with_reducible apply IoKept.foldl | with_reducible apply IoKept.put | with_reducible apply IoKept.filter | (fail_if_no_progress with_reducible apply IoKept.upd) | intro _ | dsimp only | split)); (case ht => (repeat' first | with_reducible exact T1Kept.refl _ | with_reducible apply T1Kept.ite | with_reducible apply T1Kept.foldl | with_reducible apply T1Kept.put | with_reducible apply T1Kept.filter | (fail_if_no_progress with_reducible apply T1Kept.upd) | intro _ | dsimp only | split)))) | intro _ | dsimp only | split); done))
    | ((with_reducible apply Kept.iteR); case k => ((repeat' first | with_reducible exact Kept.refl _ | ((with_reducible apply Laws.State.advanceTeardowns_kept); (case mhl => decide)) | ((with_reducible apply Laws.State.askOwner_kept); (case mhl => decide)) | ((with_reducible apply Laws.State.promoteDest_kept); (case mhl => decide)) | ((with_reducible apply Laws.State.promoteSource_kept); (case mhl => decide)) | with_reducible apply Kept.ite | (fail_if_no_progress ((with_reducible apply Kept.upd); (case ho => (refine Only.of (fun p hp => ?_) rfl; cases p <;> first | rfl | (refine absurd ?_ hp; decide))); (case hi => (repeat' first | with_reducible exact IoKept.refl _ | with_reducible apply IoKept.ite | with_reducible apply IoKept.foldl | with_reducible apply IoKept.put | with_reducible apply IoKept.filter | (fail_if_no_progress with_reducible apply IoKept.upd) | intro _ | dsimp only | split)); (case ht => (repeat' first | with_reducible exact T1Kept.refl _ | with_reducible apply T1Kept.ite | with_reducible apply T1Kept.foldl | with_reducible apply T1Kept.put | with_reducible apply T1Kept.filter | (fail_if_no_progress with_reducible apply T1Kept.upd) | intro _ | dsimp only | split)))) | intro _ | dsimp only | split); done))
    | with_reducible apply Kept.ite
    | (fail_if_no_progress ((with_reducible apply Kept.upd); (case ho => (refine Only.of (fun p hp => ?_) rfl; cases p <;> first | rfl | (refine absurd ?_ hp; decide))); (case hi => (repeat' first | with_reducible exact IoKept.refl _ | with_reducible apply IoKept.ite | with_reducible apply IoKept.foldl | with_reducible apply IoKept.put | with_reducible apply IoKept.filter | (fail_if_no_progress with_reducible apply IoKept.upd) | intro _ | dsimp only | split)); (case ht => (repeat' first | with_reducible exact T1Kept.refl _ | with_reducible apply T1Kept.ite | with_reducible apply T1Kept.foldl | with_reducible apply T1Kept.put | with_reducible apply T1Kept.filter | (fail_if_no_progress with_reducible apply T1Kept.upd) | intro _ | dsimp only | split))))
    | intro _
    | dsimp only
    | split

theorem State.renewLease_frame (s : State) (i : Nat) : Kept [.stalls, .net] s (State.renewLease s i) := by
  unfold State.renewLease
  try dsimp only
  repeat' first
    | with_reducible exact Kept.refl _
    | ((with_reducible apply Laws.State.sendDevice_kept); (case mhl => decide))
    | ((with_reducible apply Laws.State.setStall_kept); (case mhl => decide))
    | with_reducible apply Kept.ite
    | (fail_if_no_progress ((with_reducible apply Kept.upd); (case ho => (refine Only.of (fun p hp => ?_) rfl; cases p <;> first | rfl | (refine absurd ?_ hp; decide))); (case hi => exact IoKept.refl _); (case ht => exact T1Kept.refl _)))
    | intro _
    | dsimp only
    | split
theorem State.renewLease_kept {ml : List StateField} {mz : State} {s : State} {i : Nat} (mhl : [.stalls, .net] ⊆ ml) (mh : Kept ml mz s) : Kept ml mz (State.renewLease s i) :=
  Kept.after ((State.renewLease_frame s i).mono mhl) mh

theorem execLeaseRenewSend_kept (i : Nat) (s : State) : ∃ out, execLeaseRenewSend i s = .next out ∧ Kept [.stalls, .net] s out := by
  unfold execLeaseRenewSend
  try dsimp only
  refine ⟨_, rfl, ?_⟩
  try dsimp only
  repeat' first
    | with_reducible exact Kept.refl _
    | ((with_reducible apply Laws.State.renewLease_kept); (case mhl => decide))
    | with_reducible apply Kept.ite
    | (fail_if_no_progress ((with_reducible apply Kept.upd); (case ho => (refine Only.of (fun p hp => ?_) rfl; cases p <;> first | rfl | (refine absurd ?_ hp; decide))); (case hi => exact IoKept.refl _); (case ht => exact T1Kept.refl _)))
    | intro _
    | dsimp only
    | split

theorem execLeaseRenewReceived_kept (m : Msg) (s : State) : ∃ out, execLeaseRenewReceived m s = .next out ∧ Kept [.stalls] s out := by
  unfold execLeaseRenewReceived
  try dsimp only
  refine ⟨_, rfl, ?_⟩
  try dsimp only
  repeat' first
    | with_reducible exact Kept.refl _
    | ((with_reducible apply Laws.State.heldMsg_kept); (case mhl => decide))
    | ((with_reducible apply Laws.State.setStall_kept); (case mhl => decide))
    | with_reducible apply Kept.ite
    | (fail_if_no_progress ((with_reducible apply Kept.upd); (case ho => (refine Only.of (fun p hp => ?_) rfl; cases p <;> first | rfl | (refine absurd ?_ hp; decide))); (case hi => exact IoKept.refl _); (case ht => exact T1Kept.refl _)))
    | intro _
    | dsimp only
    | split

theorem execFetchReceived_kept (m : Msg) (s : State) : ∃ out, execFetchReceived m s = .next out ∧ Kept [.io, .t1, .shed, .stalls, .answers, .textCache, .net] s out := by
  unfold execFetchReceived
  try dsimp only
  refine ⟨_, rfl, ?_⟩
  try dsimp only
  repeat' first
    | with_reducible exact Kept.refl _
    | ((with_reducible apply Laws.State.answerFetch_kept); (case mhl => decide))
    | ((with_reducible apply Laws.State.heldMsg_kept); (case mhl => decide))
    | ((with_reducible apply Laws.State.redirect_kept); (case mhl => decide))
    | ((with_reducible apply Laws.State.sendDevice_kept); (case mhl => decide))
    | with_reducible apply Kept.ite
    | (fail_if_no_progress ((with_reducible apply Kept.upd); (case ho => (refine Only.of (fun p hp => ?_) rfl; cases p <;> first | rfl | (refine absurd ?_ hp; decide))); (case hi => (repeat' first | with_reducible exact IoKept.refl _ | with_reducible apply IoKept.ite | with_reducible apply IoKept.foldl | with_reducible apply IoKept.put | with_reducible apply IoKept.filter | (fail_if_no_progress with_reducible apply IoKept.upd) | intro _ | dsimp only | split)); (case ht => (repeat' first | with_reducible exact T1Kept.refl _ | with_reducible apply T1Kept.ite | with_reducible apply T1Kept.foldl | with_reducible apply T1Kept.put | with_reducible apply T1Kept.filter | (fail_if_no_progress with_reducible apply T1Kept.upd) | intro _ | dsimp only | split))))
    | intro _
    | dsimp only
    | split

theorem execFetchRefusedReceived_kept (m : Msg) (s : State) : ∃ out, execFetchRefusedReceived m s = .next out ∧ Kept [.io, .stalls, .answers] s out := by
  unfold execFetchRefusedReceived
  try dsimp only
  refine ⟨_, rfl, ?_⟩
  try dsimp only
  repeat' first
    | with_reducible exact Kept.refl _
    | ((with_reducible apply Laws.State.failFetch_kept); (case mhl => decide))
    | ((with_reducible apply Laws.State.heldMsg_kept); (case mhl => decide))
    | with_reducible apply Kept.ite
    | intro _
    | dsimp only
    | split

theorem State.repoint_frame (s : State) (dev handle dev' handle' : Nat) (epoch : Option Nat) : Kept [.stalls] s (State.repoint s dev handle dev' handle' epoch) := by
  unfold State.repoint
  try dsimp only
  repeat' first
    | with_reducible exact Kept.refl _
    | with_reducible apply Kept.ite
    | with_reducible apply Kept.getD
    | (fail_if_no_progress ((with_reducible apply Kept.upd); (case ho => (refine Only.of (fun p hp => ?_) rfl; cases p <;> first | rfl | (refine absurd ?_ hp; decide))); (case hi => exact IoKept.refl _); (case ht => exact T1Kept.refl _)))
    | intro _
    | dsimp only
    | split
theorem State.repoint_kept {ml : List StateField} {mz : State} {s : State} {dev handle dev' handle' : Nat} {epoch : Option Nat} (mhl : [.stalls] ⊆ ml) (mh : Kept ml mz s) : Kept ml mz (State.repoint s dev handle dev' handle' epoch) :=
  Kept.after ((State.repoint_frame s dev handle dev' handle' epoch).mono mhl) mh

theorem execRedirectReceived_kept (m : Msg) (s : State) : ∃ out, execRedirectReceived m s = .next out ∧ Kept [.stalls, .net] s out := by
  unfold execRedirectReceived
  try dsimp only
  refine ⟨_, rfl, ?_⟩
  try dsimp only
  repeat' first
    | with_reducible exact Kept.refl _
    | ((with_reducible apply Laws.State.heldMsg_kept); (case mhl => decide))
    | ((with_reducible apply Laws.State.repoint_kept); (case mhl => decide))
    | ((with_reducible apply Laws.State.sendDevice_kept); (case mhl => decide))
    | with_reducible apply Kept.ite
    | (fail_if_no_progress ((with_reducible apply Kept.upd); (case ho => (refine Only.of (fun p hp => ?_) rfl; cases p <;> first | rfl | (refine absurd ?_ hp; decide))); (case hi => exact IoKept.refl _); (case ht => exact T1Kept.refl _)))
    | intro _
    | dsimp only
    | split

theorem execOwnerQueryReceived_kept (m : Msg) (s : State) : ∃ out, execOwnerQueryReceived m s = .next out ∧ Kept [.io, .t1, .shed, .stalls, .ops, .mirrors, .answers, .textCache, .net] s out := by
  unfold execOwnerQueryReceived
  try dsimp only
  refine ⟨_, rfl, ?_⟩
  try dsimp only
  repeat' first
    | with_reducible exact Kept.refl _
    | ((with_reducible apply Laws.State.heldMsg_kept); (case mhl => decide))
    | ((with_reducible apply Laws.State.orphan_kept); (case mhl => decide))
    | ((with_reducible apply Laws.State.send_kept); (case mhl => decide))
    | ((with_reducible apply Kept.iteL); case k => ((repeat' first | with_reducible exact Kept.refl _ | ((with_reducible apply Laws.State.heldMsg_kept); (case mhl => decide)) | ((with_reducible apply Laws.State.orphan_kept); (case mhl => decide)) | ((with_reducible apply Laws.State.send_kept); (case mhl => decide)) | with_reducible apply Kept.ite | (fail_if_no_progress ((with_reducible apply Kept.upd); (case ho => (refine Only.of (fun p hp => ?_) rfl; cases p <;> first | rfl | (refine absurd ?_ hp; decide))); (case hi => (repeat' first | with_reducible exact IoKept.refl _ | with_reducible apply IoKept.ite | with_reducible apply IoKept.foldl | with_reducible apply IoKept.put | with_reducible apply IoKept.filter | (fail_if_no_progress with_reducible apply IoKept.upd) | intro _ | dsimp only | split)); (case ht => (repeat' first | with_reducible exact T1Kept.refl _ | with_reducible apply T1Kept.ite | with_reducible apply T1Kept.foldl | with_reducible apply T1Kept.put | with_reducible apply T1Kept.filter | (fail_if_no_progress with_reducible apply T1Kept.upd) | intro _ | dsimp only | split)))) | intro _ | dsimp only | split); done))
    | ((with_reducible apply Kept.iteR); case k => ((repeat' first | with_reducible exact Kept.refl _ | ((with_reducible apply Laws.State.heldMsg_kept); (case mhl => decide)) | ((with_reducible apply Laws.State.orphan_kept); (case mhl => decide)) | ((with_reducible apply Laws.State.send_kept); (case mhl => decide)) | with_reducible apply Kept.ite | (fail_if_no_progress ((with_reducible apply Kept.upd); (case ho => (refine Only.of (fun p hp => ?_) rfl; cases p <;> first | rfl | (refine absurd ?_ hp; decide))); (case hi => (repeat' first | with_reducible exact IoKept.refl _ | with_reducible apply IoKept.ite | with_reducible apply IoKept.foldl | with_reducible apply IoKept.put | with_reducible apply IoKept.filter | (fail_if_no_progress with_reducible apply IoKept.upd) | intro _ | dsimp only | split)); (case ht => (repeat' first | with_reducible exact T1Kept.refl _ | with_reducible apply T1Kept.ite | with_reducible apply T1Kept.foldl | with_reducible apply T1Kept.put | with_reducible apply T1Kept.filter | (fail_if_no_progress with_reducible apply T1Kept.upd) | intro _ | dsimp only | split)))) | intro _ | dsimp only | split); done))
    | with_reducible apply Kept.ite
    | (fail_if_no_progress ((with_reducible apply Kept.upd); (case ho => (refine Only.of (fun p hp => ?_) rfl; cases p <;> first | rfl | (refine absurd ?_ hp; decide))); (case hi => (repeat' first | with_reducible exact IoKept.refl _ | with_reducible apply IoKept.ite | with_reducible apply IoKept.foldl | with_reducible apply IoKept.put | with_reducible apply IoKept.filter | (fail_if_no_progress with_reducible apply IoKept.upd) | intro _ | dsimp only | split)); (case ht => (repeat' first | with_reducible exact T1Kept.refl _ | with_reducible apply T1Kept.ite | with_reducible apply T1Kept.foldl | with_reducible apply T1Kept.put | with_reducible apply T1Kept.filter | (fail_if_no_progress with_reducible apply T1Kept.upd) | intro _ | dsimp only | split))))
    | intro _
    | dsimp only
    | split

theorem execOwnerAnswerReceived_kept (m : Msg) (s : State) : ∃ out, execOwnerAnswerReceived m s = .next out ∧ Kept [.io, .t1, .shed, .stalls, .units, .ops, .mirrors, .contexts, .answers, .tallies, .textCache, .net, .sec, .tear] s out := by
  unfold execOwnerAnswerReceived
  try dsimp only
  refine ⟨_, rfl, ?_⟩
  try dsimp only
  repeat' first
    | with_reducible exact Kept.refl _
    | ((with_reducible apply Laws.State.advanceTeardowns_kept); (case mhl => decide))
    | ((with_reducible apply Laws.State.cancelSource_kept); (case mhl => decide))
    | ((with_reducible apply Laws.State.dropCopy_kept); (case mhl => decide))
    | ((with_reducible apply Laws.State.freeCopy_kept); (case mhl => decide))
    | ((with_reducible apply Laws.State.heldMsg_kept); (case mhl => decide))
    | ((with_reducible apply Laws.State.learnCopy_kept); (case mhl => decide))
    | ((with_reducible apply Laws.State.orphan_kept); (case mhl => decide))
    | ((with_reducible apply Laws.State.sendAbort_kept); (case mhl => decide))
    | ((with_reducible apply Laws.State.sourceDone_kept); (case mhl => decide))
    | ((with_reducible apply Kept.iteL); case k => ((repeat' first | with_reducible exact Kept.refl _ | ((with_reducible apply Laws.State.advanceTeardowns_kept); (case mhl => decide)) | ((with_reducible apply Laws.State.cancelSource_kept); (case mhl => decide)) | ((with_reducible apply Laws.State.dropCopy_kept); (case mhl => decide)) | ((with_reducible apply Laws.State.freeCopy_kept); (case mhl => decide)) | ((with_reducible apply Laws.State.heldMsg_kept); (case mhl => decide)) | ((with_reducible apply Laws.State.learnCopy_kept); (case mhl => decide)) | ((with_reducible apply Laws.State.orphan_kept); (case mhl => decide)) | ((with_reducible apply Laws.State.sendAbort_kept); (case mhl => decide)) | ((with_reducible apply Laws.State.sourceDone_kept); (case mhl => decide)) | with_reducible apply Kept.ite | (fail_if_no_progress ((with_reducible apply Kept.upd); (case ho => (refine Only.of (fun p hp => ?_) rfl; cases p <;> first | rfl | (refine absurd ?_ hp; decide))); (case hi => (repeat' first | with_reducible exact IoKept.refl _ | with_reducible apply IoKept.ite | with_reducible apply IoKept.foldl | with_reducible apply IoKept.put | with_reducible apply IoKept.filter | (fail_if_no_progress with_reducible apply IoKept.upd) | intro _ | dsimp only | split)); (case ht => (repeat' first | with_reducible exact T1Kept.refl _ | with_reducible apply T1Kept.ite | with_reducible apply T1Kept.foldl | with_reducible apply T1Kept.put | with_reducible apply T1Kept.filter | (fail_if_no_progress with_reducible apply T1Kept.upd) | intro _ | dsimp only | split)))) | intro _ | dsimp only | split); done))
    | ((with_reducible apply Kept.iteR); case k => ((repeat' first | with_reducible exact Kept.refl _ | ((with_reducible apply Laws.State.advanceTeardowns_kept); (case mhl => decide)) | ((with_reducible apply Laws.State.cancelSource_kept); (case mhl => decide)) | ((with_reducible apply Laws.State.dropCopy_kept); (case mhl => decide)) | ((with_reducible apply Laws.State.freeCopy_kept); (case mhl => decide)) | ((with_reducible apply Laws.State.heldMsg_kept); (case mhl => decide)) | ((with_reducible apply Laws.State.learnCopy_kept); (case mhl => decide)) | ((with_reducible apply Laws.State.orphan_kept); (case mhl => decide)) | ((with_reducible apply Laws.State.sendAbort_kept); (case mhl => decide)) | ((with_reducible apply Laws.State.sourceDone_kept); (case mhl => decide)) | with_reducible apply Kept.ite | (fail_if_no_progress ((with_reducible apply Kept.upd); (case ho => (refine Only.of (fun p hp => ?_) rfl; cases p <;> first | rfl | (refine absurd ?_ hp; decide))); (case hi => (repeat' first | with_reducible exact IoKept.refl _ | with_reducible apply IoKept.ite | with_reducible apply IoKept.foldl | with_reducible apply IoKept.put | with_reducible apply IoKept.filter | (fail_if_no_progress with_reducible apply IoKept.upd) | intro _ | dsimp only | split)); (case ht => (repeat' first | with_reducible exact T1Kept.refl _ | with_reducible apply T1Kept.ite | with_reducible apply T1Kept.foldl | with_reducible apply T1Kept.put | with_reducible apply T1Kept.filter | (fail_if_no_progress with_reducible apply T1Kept.upd) | intro _ | dsimp only | split)))) | intro _ | dsimp only | split); done))
    | with_reducible apply Kept.ite
    | (fail_if_no_progress ((with_reducible apply Kept.upd); (case ho => (refine Only.of (fun p hp => ?_) rfl; cases p <;> first | rfl | (refine absurd ?_ hp; decide))); (case hi => (repeat' first | with_reducible exact IoKept.refl _ | with_reducible apply IoKept.ite | with_reducible apply IoKept.foldl | with_reducible apply IoKept.put | with_reducible apply IoKept.filter | (fail_if_no_progress with_reducible apply IoKept.upd) | intro _ | dsimp only | split)); (case ht => (repeat' first | with_reducible exact T1Kept.refl _ | with_reducible apply T1Kept.ite | with_reducible apply T1Kept.foldl | with_reducible apply T1Kept.put | with_reducible apply T1Kept.filter | (fail_if_no_progress with_reducible apply T1Kept.upd) | intro _ | dsimp only | split))))
    | intro _
    | dsimp only
    | split

theorem execOrphanTimeout_kept (i : Nat) (s : State) : ∃ out, execOrphanTimeout i s = .next out ∧ Kept [.io, .t1, .shed, .stalls, .units, .ops, .mirrors, .contexts, .answers, .tallies, .textCache, .net, .sec, .tear] s out := by
  unfold execOrphanTimeout
  try dsimp only
  refine ⟨_, rfl, ?_⟩
  try dsimp only
  repeat' first
    | with_reducible exact Kept.refl _
    | ((with_reducible apply Laws.State.advanceTeardowns_kept); (case mhl => decide))
    | ((with_reducible apply Laws.State.resolveOrphan_kept); (case mhl => decide))
    | with_reducible apply Kept.ite
    | intro _
    | dsimp only
    | split

theorem execOwnerNoticeReceived_kept (m : Msg) (s : State) : ∃ out, execOwnerNoticeReceived m s = .next out ∧ Kept [.io, .t1, .shed, .stalls, .ops, .mirrors, .answers, .textCache, .net] s out := by
  unfold execOwnerNoticeReceived
  try dsimp only
  refine ⟨_, rfl, ?_⟩
  try dsimp only
  repeat' first
    | with_reducible exact Kept.refl _
    | ((with_reducible apply Laws.State.dropCopy_kept); (case mhl => decide))
    | ((with_reducible apply Laws.State.heldMsg_kept); (case mhl => decide))
    | ((with_reducible apply Laws.State.learnCopy_kept); (case mhl => decide))
    | ((with_reducible apply Laws.State.orphan_kept); (case mhl => decide))
    | ((with_reducible apply Laws.State.repoint_kept); (case mhl => decide))
    | ((with_reducible apply Laws.State.setStall_kept); (case mhl => decide))
    | ((with_reducible apply Kept.iteL); case k => ((repeat' first | with_reducible exact Kept.refl _ | ((with_reducible apply Laws.State.dropCopy_kept); (case mhl => decide)) | ((with_reducible apply Laws.State.heldMsg_kept); (case mhl => decide)) | ((with_reducible apply Laws.State.learnCopy_kept); (case mhl => decide)) | ((with_reducible apply Laws.State.orphan_kept); (case mhl => decide)) | ((with_reducible apply Laws.State.repoint_kept); (case mhl => decide)) | ((with_reducible apply Laws.State.setStall_kept); (case mhl => decide)) | with_reducible apply Kept.ite | (fail_if_no_progress ((with_reducible apply Kept.upd); (case ho => (refine Only.of (fun p hp => ?_) rfl; cases p <;> first | rfl | (refine absurd ?_ hp; decide))); (case hi => (repeat' first | with_reducible exact IoKept.refl _ | with_reducible apply IoKept.ite | with_reducible apply IoKept.foldl | with_reducible apply IoKept.put | with_reducible apply IoKept.filter | (fail_if_no_progress with_reducible apply IoKept.upd) | intro _ | dsimp only | split)); (case ht => (repeat' first | with_reducible exact T1Kept.refl _ | with_reducible apply T1Kept.ite | with_reducible apply T1Kept.foldl | with_reducible apply T1Kept.put | with_reducible apply T1Kept.filter | (fail_if_no_progress with_reducible apply T1Kept.upd) | intro _ | dsimp only | split)))) | intro _ | dsimp only | split); done))
    | ((with_reducible apply Kept.iteR); case k => ((repeat' first | with_reducible exact Kept.refl _ | ((with_reducible apply Laws.State.dropCopy_kept); (case mhl => decide)) | ((with_reducible apply Laws.State.heldMsg_kept); (case mhl => decide)) | ((with_reducible apply Laws.State.learnCopy_kept); (case mhl => decide)) | ((with_reducible apply Laws.State.orphan_kept); (case mhl => decide)) | ((with_reducible apply Laws.State.repoint_kept); (case mhl => decide)) | ((with_reducible apply Laws.State.setStall_kept); (case mhl => decide)) | with_reducible apply Kept.ite | (fail_if_no_progress ((with_reducible apply Kept.upd); (case ho => (refine Only.of (fun p hp => ?_) rfl; cases p <;> first | rfl | (refine absurd ?_ hp; decide))); (case hi => (repeat' first | with_reducible exact IoKept.refl _ | with_reducible apply IoKept.ite | with_reducible apply IoKept.foldl | with_reducible apply IoKept.put | with_reducible apply IoKept.filter | (fail_if_no_progress with_reducible apply IoKept.upd) | intro _ | dsimp only | split)); (case ht => (repeat' first | with_reducible exact T1Kept.refl _ | with_reducible apply T1Kept.ite | with_reducible apply T1Kept.foldl | with_reducible apply T1Kept.put | with_reducible apply T1Kept.filter | (fail_if_no_progress with_reducible apply T1Kept.upd) | intro _ | dsimp only | split)))) | intro _ | dsimp only | split); done))
    | with_reducible apply Kept.ite
    | (fail_if_no_progress ((with_reducible apply Kept.upd); (case ho => (refine Only.of (fun p hp => ?_) rfl; cases p <;> first | rfl | (refine absurd ?_ hp; decide))); (case hi => (repeat' first | with_reducible exact IoKept.refl _ | with_reducible apply IoKept.ite | with_reducible apply IoKept.foldl | with_reducible apply IoKept.put | with_reducible apply IoKept.filter | (fail_if_no_progress with_reducible apply IoKept.upd) | intro _ | dsimp only | split)); (case ht => (repeat' first | with_reducible exact T1Kept.refl _ | with_reducible apply T1Kept.ite | with_reducible apply T1Kept.foldl | with_reducible apply T1Kept.put | with_reducible apply T1Kept.filter | (fail_if_no_progress with_reducible apply T1Kept.upd) | intro _ | dsimp only | split))))
    | intro _
    | dsimp only
    | split

end Sys2Proof.Laws
end

