-- ==== Sys2Proof/Laws/KeptEngineOps.lean ====
section
/-! SUPPORT. The frame lemma of every operation of Machine/EngineOps.lean: which fields of the state it may change, and that it keeps the canonical
forms. -/

set_option Elab.async false
set_option linter.unusedTactic false
set_option linter.unreachableTactic false
set_option linter.unusedVariables false

namespace Sys2Proof.Laws

open Sys2Proof Sys2Proof.Machine Sys2Proof.Safety

theorem State.engine_kept {ml : List StateField} {mz : State} {s : State} {n : Insn} {y : UnitX} {pair : Bool} {kind : Nat} {en : RegField} {act : State → Cmd → State} (mhl : [.io, .units, .contexts, .answers] ⊆ ml) (hact : ∀ a0 a1, Kept ml a0 (act a0 a1)) (mh : Kept ml mz s) : DidKept ml mz (State.engine s n y pair kind en act) := by
  refine DidKept.after ?_ mh
  unfold State.engine
  try dsimp only
  repeat' first
    | with_reducible exact Kept.refl _
    | with_reducible exact DidKept.refl _
    | with_reducible apply DidKept.done
    | with_reducible apply DidKept.hold
    | with_reducible apply DidKept.fault
    | with_reducible apply DidKept.ite
    | (with_reducible apply Kept.after (hact _ _))
    | ((with_reducible apply Laws.State.complete_kept); (case mhl => first | decide | (refine sub mhl ?_; decide)))
    | ((with_reducible apply Laws.State.request_kept); (case mhl => first | decide | (refine sub mhl ?_; decide)))
    | with_reducible apply Kept.ite
    | intro _
    | dsimp only
    | split

theorem State.blockRequest_kept {ml : List StateField} {mz : State} {s : State} {n : Insn} {y : UnitX} {pair : Bool} {record : Option Nat} {opOk : Nat → Bool} {act : State → Nat → Cmd → State} (mhl : [.io, .yt, .t1, .shed, .prefetch, .stalls, .units, .ops, .mirrors, .redirects, .cp, .cpSlots, .contexts, .answers, .tallies, .textCache, .rounds, .svChanged, .net] ⊆ ml) (hact : ∀ a0 a1 a2, Kept ml a0 (act a0 a1 a2)) (mh : Kept ml mz s) : DidKept ml mz (State.blockRequest s n y pair record opOk act) := by
  refine DidKept.after ?_ mh
  unfold State.blockRequest
  try dsimp only
  repeat' first
    | with_reducible exact Kept.refl _
    | with_reducible exact DidKept.refl _
    | with_reducible apply DidKept.done
    | with_reducible apply DidKept.hold
    | with_reducible apply DidKept.fault
    | with_reducible apply DidKept.ite
    | (with_reducible apply Kept.after (hact _ _ _))
    | ((with_reducible apply Laws.State.afterRead_kept); (case mhl => first | decide | (refine sub mhl ?_; decide)))
    | ((with_reducible apply Laws.State.checkPoison_kept); (case mhl => first | decide | (refine sub mhl ?_; decide)))
    | ((with_reducible apply Laws.State.complete_kept); (case mhl => first | decide | (refine sub mhl ?_; decide)))
    | ((with_reducible apply Laws.State.request_kept); (case mhl => first | decide | (refine sub mhl ?_; decide)))
    | with_reducible apply Kept.ite
    | (fail_if_no_progress ((with_reducible apply Kept.upd); (case ho => (refine Only.of (fun p hp => ?_) rfl; cases p <;> first | rfl | (refine absurd (mhl ?_) hp; decide))); (case hi => (repeat' first | with_reducible exact IoKept.refl _ | with_reducible apply IoKept.ite | with_reducible apply IoKept.foldl | with_reducible apply IoKept.put | with_reducible apply IoKept.filter | (fail_if_no_progress with_reducible apply IoKept.upd) | intro _ | dsimp only | split)); (case ht => (repeat' first | with_reducible exact T1Kept.refl _ | with_reducible apply T1Kept.ite | with_reducible apply T1Kept.foldl | with_reducible apply T1Kept.put | with_reducible apply T1Kept.filter | (fail_if_no_progress with_reducible apply T1Kept.upd) | intro _ | dsimp only | split))))
    | intro _
    | dsimp only
    | split

theorem State.lookToken_frame (s : State) (i tok : Nat) : Kept [.io, .t1, .textCache] s (State.lookToken s i tok) := by
  unfold State.lookToken
  try dsimp only
  repeat' first
    | with_reducible exact Kept.refl _
    | ((with_reducible apply Laws.State.lookUp_kept); (case mhl => decide))
    | with_reducible apply Kept.ite
    | intro _
    | dsimp only
    | split
theorem State.lookToken_kept {ml : List StateField} {mz : State} {s : State} {i tok : Nat} (mhl : [.io, .t1, .textCache] ⊆ ml) (mh : Kept ml mz s) : Kept ml mz (State.lookToken s i tok) :=
  Kept.after ((State.lookToken_frame s i tok).mono mhl) mh

theorem State.refuseToken_frame (s : State) (i code : Nat) : Kept [.io, .t1, .shed, .stalls, .ops, .mirrors, .answers, .textCache, .net] s (State.refuseToken s i code) := by
  unfold State.refuseToken
  try dsimp only
  repeat' first
    | with_reducible exact Kept.refl _
    | ((with_reducible apply Laws.State.abandonPaused_kept); (case mhl => decide))
    | ((with_reducible apply Laws.State.stallEvent_kept); (case mhl => decide))
    | with_reducible apply Kept.ite
    | intro _
    | dsimp only
    | split
theorem State.refuseToken_kept {ml : List StateField} {mz : State} {s : State} {i code : Nat} (mhl : [.io, .t1, .shed, .stalls, .ops, .mirrors, .answers, .textCache, .net] ⊆ ml) (mh : Kept ml mz s) : Kept ml mz (State.refuseToken s i code) :=
  Kept.after ((State.refuseToken_frame s i code).mono mhl) mh

theorem State.matchStops_frame (s : State) (i : Nat) (strings : List (List Byte)) (bytes : List Byte) : Kept [.stalls, .net] s (State.matchStops s i strings bytes).1 := by
  unfold State.matchStops
  try dsimp only
  repeat' first
    | with_reducible exact Kept.refl _
    | ((with_reducible apply Laws.State.emitBytes_kept); (case mhl => decide))
    | ((with_reducible apply Laws.State.setText_kept); (case mhl => decide))
    | with_reducible apply Kept.ite
    | with_reducible apply Kept.getD
    | (fail_if_no_progress ((with_reducible apply Kept.upd); (case ho => (refine Only.of (fun p hp => ?_) rfl; cases p <;> first | rfl | (refine absurd ?_ hp; decide))); (case hi => exact IoKept.refl _); (case ht => exact T1Kept.refl _)))
    | intro _
    | dsimp only
    | split
theorem State.matchStops_kept {ml : List StateField} {mz : State} {s : State} {i : Nat} {strings : List (List Byte)} {bytes : List Byte} (mhl : [.stalls, .net] ⊆ ml) (mh : Kept ml mz s) : Kept ml mz (State.matchStops s i strings bytes).1 :=
  Kept.after ((State.matchStops_frame s i strings bytes).mono mhl) mh
theorem State.matchStops_kept' {ml : List StateField} {mz : State} {s : State} {i : Nat} {strings : List (List Byte)} {bytes : List Byte} {v0 : State} {v1 : Nat} {v2 : Nat} (mhl : [.stalls, .net] ⊆ ml) (me : State.matchStops s i strings bytes = (v0, v1, v2)) (mh : Kept ml mz s) : Kept ml mz v0 := by
  have mk := Kept.after ((State.matchStops_frame s i strings bytes).mono mhl) mh
  rw [me] at mk
  exact mk

theorem State.runStop_frame (s : State) (i tok : Nat) : Kept [.io, .t1, .shed, .stalls, .ops, .mirrors, .answers, .textCache, .net] s (State.runStop s i tok).1 := by
  unfold State.runStop
  try dsimp only
  repeat' first
    | with_reducible exact Kept.refl _
    | ((with_reducible apply Laws.State.flushHeld_kept); (case mhl => decide))
    | ((with_reducible apply Laws.State.lookToken_kept); (case mhl => decide))
    | ((with_reducible apply Laws.State.matchStops_kept' ?mhl (by assumption)); (case mhl => decide))
    | ((with_reducible apply Laws.State.matchStops_kept); (case mhl => decide))
    | ((with_reducible apply Laws.State.refuseToken_kept); (case mhl => decide))
    | ((with_reducible apply Laws.State.setLastStop_kept); (case mhl => decide))
    | ((with_reducible apply Kept.iteL); case k => ((repeat' first | with_reducible exact Kept.refl _ | ((with_reducible apply Laws.State.flushHeld_kept); (case mhl => decide)) | ((with_reducible apply Laws.State.lookToken_kept); (case mhl => decide)) | ((with_reducible apply Laws.State.matchStops_kept' ?mhl (by assumption)); (case mhl => decide)) | ((with_reducible apply Laws.State.matchStops_kept); (case mhl => decide)) | ((with_reducible apply Laws.State.refuseToken_kept); (case mhl => decide)) | ((with_reducible apply Laws.State.setLastStop_kept); (case mhl => decide)) | with_reducible apply Kept.ite | (fail_if_no_progress ((with_reducible apply Kept.upd); (case ho => (refine Only.of (fun p hp => ?_) rfl; cases p <;> first | rfl | (refine absurd ?_ hp; decide))); (case hi => (repeat' first | with_reducible exact IoKept.refl _ | with_reducible apply IoKept.ite | with_reducible apply IoKept.foldl | with_reducible apply IoKept.put | with_reducible apply IoKept.filter | (fail_if_no_progress with_reducible apply IoKept.upd) | intro _ | dsimp only | split)); (case ht => (repeat' first | with_reducible exact T1Kept.refl _ | with_reducible apply T1Kept.ite | with_reducible apply T1Kept.foldl | with_reducible apply T1Kept.put | with_reducible apply T1Kept.filter | (fail_if_no_progress with_reducible apply T1Kept.upd) | intro _ | dsimp only | split)))) | intro _ | dsimp only | split); done))
    | ((with_reducible apply Kept.iteR); case k => ((repeat' first | with_reducible exact Kept.refl _ | ((with_reducible apply Laws.State.flushHeld_kept); (case mhl => decide)) | ((with_reducible apply Laws.State.lookToken_kept); (case mhl => decide)) | ((with_reducible apply Laws.State.matchStops_kept' ?mhl (by assumption)); (case mhl => decide)) | ((with_reducible apply Laws.State.matchStops_kept); (case mhl => decide)) | ((with_reducible apply Laws.State.refuseToken_kept); (case mhl => decide)) | ((with_reducible apply Laws.State.setLastStop_kept); (case mhl => decide)) | with_reducible apply Kept.ite | (fail_if_no_progress ((with_reducible apply Kept.upd); (case ho => (refine Only.of (fun p hp => ?_) rfl; cases p <;> first | rfl | (refine absurd ?_ hp; decide))); (case hi => (repeat' first | with_reducible exact IoKept.refl _ | with_reducible apply IoKept.ite | with_reducible apply IoKept.foldl | with_reducible apply IoKept.put | with_reducible apply IoKept.filter | (fail_if_no_progress with_reducible apply IoKept.upd) | intro _ | dsimp only | split)); (case ht => (repeat' first | with_reducible exact T1Kept.refl _ | with_reducible apply T1Kept.ite | with_reducible apply T1Kept.foldl | with_reducible apply T1Kept.put | with_reducible apply T1Kept.filter | (fail_if_no_progress with_reducible apply T1Kept.upd) | intro _ | dsimp only | split)))) | intro _ | dsimp only | split); done))
    | with_reducible apply Kept.ite
    | (fail_if_no_progress ((with_reducible apply Kept.upd); (case ho => (refine Only.of (fun p hp => ?_) rfl; cases p <;> first | rfl | (refine absurd ?_ hp; decide))); (case hi => (repeat' first | with_reducible exact IoKept.refl _ | with_reducible apply IoKept.ite | with_reducible apply IoKept.foldl | with_reducible apply IoKept.put | with_reducible apply IoKept.filter | (fail_if_no_progress with_reducible apply IoKept.upd) | intro _ | dsimp only | split)); (case ht => (repeat' first | with_reducible exact T1Kept.refl _ | with_reducible apply T1Kept.ite | with_reducible apply T1Kept.foldl | with_reducible apply T1Kept.put | with_reducible apply T1Kept.filter | (fail_if_no_progress with_reducible apply T1Kept.upd) | intro _ | dsimp only | split))))
    | intro _
    | dsimp only
    | split
theorem State.runStop_kept {ml : List StateField} {mz : State} {s : State} {i tok : Nat} (mhl : [.io, .t1, .shed, .stalls, .ops, .mirrors, .answers, .textCache, .net] ⊆ ml) (mh : Kept ml mz s) : Kept ml mz (State.runStop s i tok).1 :=
  Kept.after ((State.runStop_frame s i tok).mono mhl) mh
theorem State.runStop_kept' {ml : List StateField} {mz : State} {s : State} {i tok : Nat} {v0 : State} {v1 : Nat} {v2 : Nat} (mhl : [.io, .t1, .shed, .stalls, .ops, .mirrors, .answers, .textCache, .net] ⊆ ml) (me : State.runStop s i tok = (v0, v1, v2)) (mh : Kept ml mz s) : Kept ml mz v0 := by
  have mk := Kept.after ((State.runStop_frame s i tok).mono mhl) mh
  rw [me] at mk
  exact mk

theorem State.callSend_frame (s : State) (i type aux : Nat) (bytes : List Byte) : Kept [.stalls, .net] s (State.callSend s i type aux bytes) := by
  unfold State.callSend
  try dsimp only
  repeat' first
    | with_reducible exact Kept.refl _
    | ((with_reducible apply Laws.State.stepSend_kept); (case mhl => decide))
    | with_reducible apply Kept.ite
    | intro _
    | dsimp only
    | split
theorem State.callSend_kept {ml : List StateField} {mz : State} {s : State} {i type aux : Nat} {bytes : List Byte} (mhl : [.stalls, .net] ⊆ ml) (mh : Kept ml mz s) : Kept ml mz (State.callSend s i type aux bytes) :=
  Kept.after ((State.callSend_frame s i type aux bytes).mono mhl) mh

theorem State.abortCall_frame (s : State) (i lastStop : Nat) : Kept [.stalls, .net] s (State.abortCall s i lastStop) := by
  unfold State.abortCall
  try dsimp only
  repeat' first
    | with_reducible exact Kept.refl _
    | ((with_reducible apply Laws.State.callSend_kept); (case mhl => decide))
    | ((with_reducible apply Laws.State.setText_kept); (case mhl => decide))
    | with_reducible apply Kept.ite
    | (fail_if_no_progress ((with_reducible apply Kept.upd); (case ho => (refine Only.of (fun p hp => ?_) rfl; cases p <;> first | rfl | (refine absurd ?_ hp; decide))); (case hi => exact IoKept.refl _); (case ht => exact T1Kept.refl _)))
    | intro _
    | dsimp only
    | split
theorem State.abortCall_kept {ml : List StateField} {mz : State} {s : State} {i lastStop : Nat} (mhl : [.stalls, .net] ⊆ ml) (mh : Kept ml mz s) : Kept ml mz (State.abortCall s i lastStop) :=
  Kept.after ((State.abortCall_frame s i lastStop).mono mhl) mh

theorem State.runCall_frame (s : State) (i tok : Nat) : Kept [.io, .t1, .shed, .stalls, .ops, .mirrors, .answers, .textCache, .net] s (State.runCall s i tok).1 := by
  unfold State.runCall
  try dsimp only
  repeat' first
    | with_reducible exact Kept.refl _
    | ((with_reducible apply Laws.State.abortCall_kept); (case mhl => decide))
    | ((with_reducible apply Laws.State.callSend_kept); (case mhl => decide))
    | ((with_reducible apply Laws.State.flushHeld_kept); (case mhl => decide))
    | ((with_reducible apply Laws.State.lookToken_kept); (case mhl => decide))
    | ((with_reducible apply Laws.State.refuseToken_kept); (case mhl => decide))
    | ((with_reducible apply Laws.State.setText_kept); (case mhl => decide))
    | ((with_reducible apply Laws.State.stallEvent_kept); (case mhl => decide))
    | ((with_reducible apply Kept.iteL); case k => ((repeat' first | with_reducible exact Kept.refl _ | ((with_reducible apply Laws.State.abortCall_kept); (case mhl => decide)) | ((with_reducible apply Laws.State.callSend_kept); (case mhl => decide)) | ((with_reducible apply Laws.State.flushHeld_kept); (case mhl => decide)) | ((with_reducible apply Laws.State.lookToken_kept); (case mhl => decide)) | ((with_reducible apply Laws.State.refuseToken_kept); (case mhl => decide)) | ((with_reducible apply Laws.State.setText_kept); (case mhl => decide)) | ((with_reducible apply Laws.State.stallEvent_kept); (case mhl => decide)) | with_reducible apply Kept.ite | (fail_if_no_progress ((with_reducible apply Kept.upd); (case ho => (refine Only.of (fun p hp => ?_) rfl; cases p <;> first | rfl | (refine absurd ?_ hp; decide))); (case hi => (repeat' first | with_reducible exact IoKept.refl _ | with_reducible apply IoKept.ite | with_reducible apply IoKept.foldl | with_reducible apply IoKept.put | with_reducible apply IoKept.filter | (fail_if_no_progress with_reducible apply IoKept.upd) | intro _ | dsimp only | split)); (case ht => (repeat' first | with_reducible exact T1Kept.refl _ | with_reducible apply T1Kept.ite | with_reducible apply T1Kept.foldl | with_reducible apply T1Kept.put | with_reducible apply T1Kept.filter | (fail_if_no_progress with_reducible apply T1Kept.upd) | intro _ | dsimp only | split)))) | intro _ | dsimp only | split); done))
    | ((with_reducible apply Kept.iteR); case k => ((repeat' first | with_reducible exact Kept.refl _ | ((with_reducible apply Laws.State.abortCall_kept); (case mhl => decide)) | ((with_reducible apply Laws.State.callSend_kept); (case mhl => decide)) | ((with_reducible apply Laws.State.flushHeld_kept); (case mhl => decide)) | ((with_reducible apply Laws.State.lookToken_kept); (case mhl => decide)) | ((with_reducible apply Laws.State.refuseToken_kept); (case mhl => decide)) | ((with_reducible apply Laws.State.setText_kept); (case mhl => decide)) | ((with_reducible apply Laws.State.stallEvent_kept); (case mhl => decide)) | with_reducible apply Kept.ite | (fail_if_no_progress ((with_reducible apply Kept.upd); (case ho => (refine Only.of (fun p hp => ?_) rfl; cases p <;> first | rfl | (refine absurd ?_ hp; decide))); (case hi => (repeat' first | with_reducible exact IoKept.refl _ | with_reducible apply IoKept.ite | with_reducible apply IoKept.foldl | with_reducible apply IoKept.put | with_reducible apply IoKept.filter | (fail_if_no_progress with_reducible apply IoKept.upd) | intro _ | dsimp only | split)); (case ht => (repeat' first | with_reducible exact T1Kept.refl _ | with_reducible apply T1Kept.ite | with_reducible apply T1Kept.foldl | with_reducible apply T1Kept.put | with_reducible apply T1Kept.filter | (fail_if_no_progress with_reducible apply T1Kept.upd) | intro _ | dsimp only | split)))) | intro _ | dsimp only | split); done))
    | with_reducible apply Kept.ite
    | (fail_if_no_progress ((with_reducible apply Kept.upd); (case ho => (refine Only.of (fun p hp => ?_) rfl; cases p <;> first | rfl | (refine absurd ?_ hp; decide))); (case hi => (repeat' first | with_reducible exact IoKept.refl _ | with_reducible apply IoKept.ite | with_reducible apply IoKept.foldl | with_reducible apply IoKept.put | with_reducible apply IoKept.filter | (fail_if_no_progress with_reducible apply IoKept.upd) | intro _ | dsimp only | split)); (case ht => (repeat' first | with_reducible exact T1Kept.refl _ | with_reducible apply T1Kept.ite | with_reducible apply T1Kept.foldl | with_reducible apply T1Kept.put | with_reducible apply T1Kept.filter | (fail_if_no_progress with_reducible apply T1Kept.upd) | intro _ | dsimp only | split))))
    | intro _
    | dsimp only
    | split
theorem State.runCall_kept {ml : List StateField} {mz : State} {s : State} {i tok : Nat} (mhl : [.io, .t1, .shed, .stalls, .ops, .mirrors, .answers, .textCache, .net] ⊆ ml) (mh : Kept ml mz s) : Kept ml mz (State.runCall s i tok).1 :=
  Kept.after ((State.runCall_frame s i tok).mono mhl) mh
theorem State.runCall_kept' {ml : List StateField} {mz : State} {s : State} {i tok : Nat} {v0 : State} {v1 : Nat} {v2 : Nat} (mhl : [.io, .t1, .shed, .stalls, .ops, .mirrors, .answers, .textCache, .net] ⊆ ml) (me : State.runCall s i tok = (v0, v1, v2)) (mh : Kept ml mz s) : Kept ml mz v0 := by
  have mk := Kept.after ((State.runCall_frame s i tok).mono mhl) mh
  rw [me] at mk
  exact mk

theorem State.noteMask_frame (s : State) (i j : Nat) (m : Mask) : Kept [.io, .t1, .stalls, .textCache] s (State.noteMask s i j m) := by
  unfold State.noteMask
  try dsimp only
  repeat' first
    | with_reducible exact Kept.refl _
    | ((with_reducible apply Laws.State.bump_kept); (case mhl => decide))
    | ((with_reducible apply Laws.State.lookToken_kept); (case mhl => decide))
    | ((with_reducible apply Laws.State.setStall_kept); (case mhl => decide))
    | ((with_reducible apply Laws.State.stallEvent_kept); (case mhl => decide))
    | ((with_reducible apply Kept.iteL); case k => ((repeat' first | with_reducible exact Kept.refl _ | ((with_reducible apply Laws.State.bump_kept); (case mhl => decide)) | ((with_reducible apply Laws.State.lookToken_kept); (case mhl => decide)) | ((with_reducible apply Laws.State.setStall_kept); (case mhl => decide)) | ((with_reducible apply Laws.State.stallEvent_kept); (case mhl => decide)) | with_reducible apply Kept.foldl | with_reducible apply Kept.foldlFst | with_reducible apply Kept.foldlSnd | with_reducible apply Kept.ite | (fail_if_no_progress ((with_reducible apply Kept.upd); (case ho => (refine Only.of (fun p hp => ?_) rfl; cases p <;> first | rfl | (refine absurd ?_ hp; decide))); (case hi => (repeat' first | with_reducible exact IoKept.refl _ | with_reducible apply Laws.Io.bump_kept | with_reducible apply IoKept.ite | with_reducible apply IoKept.foldl | with_reducible apply IoKept.put | with_reducible apply IoKept.filter | (fail_if_no_progress with_reducible apply IoKept.upd) | intro _ | dsimp only | split)); (case ht => (repeat' first | with_reducible exact T1Kept.refl _ | with_reducible apply T1Kept.ite | with_reducible apply T1Kept.foldl | with_reducible apply T1Kept.put | with_reducible apply T1Kept.filter | (fail_if_no_progress with_reducible apply T1Kept.upd) | intro _ | dsimp only | split)))) | intro _ | dsimp only | split); done))
    | ((with_reducible apply Kept.iteR); case k => ((repeat' first | with_reducible exact Kept.refl _ | ((with_reducible apply Laws.State.bump_kept); (case mhl => decide)) | ((with_reducible apply Laws.State.lookToken_kept); (case mhl => decide)) | ((with_reducible apply Laws.State.setStall_kept); (case mhl => decide)) | ((with_reducible apply Laws.State.stallEvent_kept); (case mhl => decide)) | with_reducible apply Kept.foldl | with_reducible apply Kept.foldlFst | with_reducible apply Kept.foldlSnd | with_reducible apply Kept.ite | (fail_if_no_progress ((with_reducible apply Kept.upd); (case ho => (refine Only.of (fun p hp => ?_) rfl; cases p <;> first | rfl | (refine absurd ?_ hp; decide))); (case hi => (repeat' first | with_reducible exact IoKept.refl _ | with_reducible apply Laws.Io.bump_kept | with_reducible apply IoKept.ite | with_reducible apply IoKept.foldl | with_reducible apply IoKept.put | with_reducible apply IoKept.filter | (fail_if_no_progress with_reducible apply IoKept.upd) | intro _ | dsimp only | split)); (case ht => (repeat' first | with_reducible exact T1Kept.refl _ | with_reducible apply T1Kept.ite | with_reducible apply T1Kept.foldl | with_reducible apply T1Kept.put | with_reducible apply T1Kept.filter | (fail_if_no_progress with_reducible apply T1Kept.upd) | intro _ | dsimp only | split)))) | intro _ | dsimp only | split); done))
    | with_reducible apply Kept.ite
    | with_reducible apply Kept.foldl
    | with_reducible apply Kept.foldlFst
    | with_reducible apply Kept.foldlSnd
    | (fail_if_no_progress ((with_reducible apply Kept.upd); (case ho => (refine Only.of (fun p hp => ?_) rfl; cases p <;> first | rfl | (refine absurd ?_ hp; decide))); (case hi => (repeat' first | with_reducible exact IoKept.refl _ | with_reducible apply Laws.Io.bump_kept | with_reducible apply IoKept.ite | with_reducible apply IoKept.foldl | with_reducible apply IoKept.put | with_reducible apply IoKept.filter | (fail_if_no_progress with_reducible apply IoKept.upd) | intro _ | dsimp only | split)); (case ht => (repeat' first | with_reducible exact T1Kept.refl _ | with_reducible apply T1Kept.ite | with_reducible apply T1Kept.foldl | with_reducible apply T1Kept.put | with_reducible apply T1Kept.filter | (fail_if_no_progress with_reducible apply T1Kept.upd) | intro _ | dsimp only | split))))
    | intro _
    | dsimp only
    | split
theorem State.noteMask_kept {ml : List StateField} {mz : State} {s : State} {i j : Nat} {m : Mask} (mhl : [.io, .t1, .stalls, .textCache] ⊆ ml) (mh : Kept ml mz s) : Kept ml mz (State.noteMask s i j m) :=
  Kept.after ((State.noteMask_frame s i j m).mono mhl) mh

theorem State.drawRow_frame (s : State) (t addr : Nat) (list : Bool) : Kept [.io, .yt, .t1, .shed, .prefetch, .stalls, .units, .ops, .mirrors, .redirects, .cp, .cpSlots, .contexts, .answers, .tallies, .textCache, .rounds, .svChanged, .net] s (State.drawRow s t addr list).1 := by
  unfold State.drawRow
  try dsimp only
  repeat' first
    | with_reducible exact Kept.refl _
    | ((with_reducible apply Laws.State.reading1_kept' ?mhl (by assumption)); (case mhl => decide))
    | ((with_reducible apply Laws.State.reading1_kept); (case mhl => decide))
    | ((with_reducible apply Kept.iteL); case k => ((repeat' first | with_reducible exact Kept.refl _ | ((with_reducible apply Laws.State.reading1_kept' ?mhl (by assumption)); (case mhl => decide)) | ((with_reducible apply Laws.State.reading1_kept); (case mhl => decide)) | with_reducible apply Kept.ite | (fail_if_no_progress ((with_reducible apply Kept.upd); (case ho => (refine Only.of (fun p hp => ?_) rfl; cases p <;> first | rfl | (refine absurd ?_ hp; decide))); (case hi => (repeat' first | with_reducible exact IoKept.refl _ | with_reducible apply IoKept.ite | with_reducible apply IoKept.foldl | with_reducible apply IoKept.put | with_reducible apply IoKept.filter | (fail_if_no_progress with_reducible apply IoKept.upd) | intro _ | dsimp only | split)); (case ht => (repeat' first | with_reducible exact T1Kept.refl _ | with_reducible apply T1Kept.ite | with_reducible apply T1Kept.foldl | with_reducible apply T1Kept.put | with_reducible apply T1Kept.filter | (fail_if_no_progress with_reducible apply T1Kept.upd) | intro _ | dsimp only | split)))) | intro _ | dsimp only | split); done))
    | ((with_reducible apply Kept.iteR); case k => ((repeat' first | with_reducible exact Kept.refl _ | ((with_reducible apply Laws.State.reading1_kept' ?mhl (by assumption)); (case mhl => decide)) | ((with_reducible apply Laws.State.reading1_kept); (case mhl => decide)) | with_reducible apply Kept.ite | (fail_if_no_progress ((with_reducible apply Kept.upd); (case ho => (refine Only.of (fun p hp => ?_) rfl; cases p <;> first | rfl | (refine absurd ?_ hp; decide))); (case hi => (repeat' first | with_reducible exact IoKept.refl _ | with_reducible apply IoKept.ite | with_reducible apply IoKept.foldl | with_reducible apply IoKept.put | with_reducible apply IoKept.filter | (fail_if_no_progress with_reducible apply IoKept.upd) | intro _ | dsimp only | split)); (case ht => (repeat' first | with_reducible exact T1Kept.refl _ | with_reducible apply T1Kept.ite | with_reducible apply T1Kept.foldl | with_reducible apply T1Kept.put | with_reducible apply T1Kept.filter | (fail_if_no_progress with_reducible apply T1Kept.upd) | intro _ | dsimp only | split)))) | intro _ | dsimp only | split); done))
    | with_reducible apply Kept.ite
    | (fail_if_no_progress ((with_reducible apply Kept.upd); (case ho => (refine Only.of (fun p hp => ?_) rfl; cases p <;> first | rfl | (refine absurd ?_ hp; decide))); (case hi => (repeat' first | with_reducible exact IoKept.refl _ | with_reducible apply IoKept.ite | with_reducible apply IoKept.foldl | with_reducible apply IoKept.put | with_reducible apply IoKept.filter | (fail_if_no_progress with_reducible apply IoKept.upd) | intro _ | dsimp only | split)); (case ht => (repeat' first | with_reducible exact T1Kept.refl _ | with_reducible apply T1Kept.ite | with_reducible apply T1Kept.foldl | with_reducible apply T1Kept.put | with_reducible apply T1Kept.filter | (fail_if_no_progress with_reducible apply T1Kept.upd) | intro _ | dsimp only | split))))
    | intro _
    | dsimp only
    | split
theorem State.drawRow_kept {ml : List StateField} {mz : State} {s : State} {t addr : Nat} {list : Bool} (mhl : [.io, .yt, .t1, .shed, .prefetch, .stalls, .units, .ops, .mirrors, .redirects, .cp, .cpSlots, .contexts, .answers, .tallies, .textCache, .rounds, .svChanged, .net] ⊆ ml) (mh : Kept ml mz s) : Kept ml mz (State.drawRow s t addr list).1 :=
  Kept.after ((State.drawRow_frame s t addr list).mono mhl) mh
theorem State.drawRow_kept' {ml : List StateField} {mz : State} {s : State} {t addr : Nat} {list : Bool} {v0 : State} {v1 : Except Nat (List Entry)} (mhl : [.io, .yt, .t1, .shed, .prefetch, .stalls, .units, .ops, .mirrors, .redirects, .cp, .cpSlots, .contexts, .answers, .tallies, .textCache, .rounds, .svChanged, .net] ⊆ ml) (me : State.drawRow s t addr list = (v0, v1)) (mh : Kept ml mz s) : Kept ml mz v0 := by
  have mk := Kept.after ((State.drawRow_frame s t addr list).mono mhl) mh
  rw [me] at mk
  exact mk

theorem State.grammarDead_frame (s : State) (i : Nat) : Kept [.io, .stalls] s (State.grammarDead s i).1 := by
  unfold State.grammarDead
  try dsimp only
  repeat' first
    | with_reducible exact Kept.refl _
    | ((with_reducible apply Laws.State.bump_kept); (case mhl => decide))
    | ((with_reducible apply Laws.State.setLastStop_kept); (case mhl => decide))
    | ((with_reducible apply Laws.State.setStall_kept); (case mhl => decide))
    | ((with_reducible apply Laws.State.stallEvent_kept); (case mhl => decide))
    | with_reducible apply Kept.ite
    | (fail_if_no_progress ((with_reducible apply Kept.upd); (case ho => (refine Only.of (fun p hp => ?_) rfl; cases p <;> first | rfl | (refine absurd ?_ hp; decide))); (case hi => (repeat' first | with_reducible exact IoKept.refl _ | with_reducible apply Laws.Io.bump_kept | with_reducible apply IoKept.ite | with_reducible apply IoKept.foldl | with_reducible apply IoKept.put | with_reducible apply IoKept.filter | (fail_if_no_progress with_reducible apply IoKept.upd) | intro _ | dsimp only | split)); (case ht => exact T1Kept.refl _)))
    | intro _
    | dsimp only
    | split
theorem State.grammarDead_kept {ml : List StateField} {mz : State} {s : State} {i : Nat} (mhl : [.io, .stalls] ⊆ ml) (mh : Kept ml mz s) : Kept ml mz (State.grammarDead s i).1 :=
  Kept.after ((State.grammarDead_frame s i).mono mhl) mh
theorem State.grammarDead_kept' {ml : List StateField} {mz : State} {s : State} {i : Nat} {v0 : State} {v1 : Nat} (mhl : [.io, .stalls] ⊆ ml) (me : State.grammarDead s i = (v0, v1)) (mh : Kept ml mz s) : Kept ml mz v0 := by
  have mk := Kept.after ((State.grammarDead_frame s i).mono mhl) mh
  rw [me] at mk
  exact mk

theorem State.advanceGrammar_frame (s : State) (i tok : Nat) : Kept [.io, .t1, .shed, .stalls, .ops, .mirrors, .answers, .textCache, .net] s (State.advanceGrammar s i tok).1 := by
  unfold State.advanceGrammar
  try dsimp only
  repeat' first
    | with_reducible exact Kept.refl _
    | ((with_reducible apply Laws.State.grammarDead_kept' ?mhl (by assumption)); (case mhl => decide))
    | ((with_reducible apply Laws.State.grammarDead_kept); (case mhl => decide))
    | ((with_reducible apply Laws.State.lookToken_kept); (case mhl => decide))
    | ((with_reducible apply Laws.State.refuseToken_kept); (case mhl => decide))
    | ((with_reducible apply Laws.State.setText_kept); (case mhl => decide))
    | ((with_reducible apply Laws.State.stallEvent_kept); (case mhl => decide))
    | with_reducible apply Kept.ite
    | (fail_if_no_progress ((with_reducible apply Kept.upd); (case ho => (refine Only.of (fun p hp => ?_) rfl; cases p <;> first | rfl | (refine absurd ?_ hp; decide))); (case hi => (repeat' first | with_reducible exact IoKept.refl _ | with_reducible apply IoKept.ite | with_reducible apply IoKept.foldl | with_reducible apply IoKept.put | with_reducible apply IoKept.filter | (fail_if_no_progress with_reducible apply IoKept.upd) | intro _ | dsimp only | split)); (case ht => (repeat' first | with_reducible exact T1Kept.refl _ | with_reducible apply T1Kept.ite | with_reducible apply T1Kept.foldl | with_reducible apply T1Kept.put | with_reducible apply T1Kept.filter | (fail_if_no_progress with_reducible apply T1Kept.upd) | intro _ | dsimp only | split))))
    | intro _
    | dsimp only
    | split
theorem State.advanceGrammar_kept {ml : List StateField} {mz : State} {s : State} {i tok : Nat} (mhl : [.io, .t1, .shed, .stalls, .ops, .mirrors, .answers, .textCache, .net] ⊆ ml) (mh : Kept ml mz s) : Kept ml mz (State.advanceGrammar s i tok).1 :=
  Kept.after ((State.advanceGrammar_frame s i tok).mono mhl) mh
theorem State.advanceGrammar_kept' {ml : List StateField} {mz : State} {s : State} {i tok : Nat} {v0 : State} {v1 : Nat} (mhl : [.io, .t1, .shed, .stalls, .ops, .mirrors, .answers, .textCache, .net] ⊆ ml) (me : State.advanceGrammar s i tok = (v0, v1)) (mh : Kept ml mz s) : Kept ml mz v0 := by
  have mk := Kept.after ((State.advanceGrammar_frame s i tok).mono mhl) mh
  rw [me] at mk
  exact mk

theorem State.drawAt_frame (s : State) (i j row : Nat) (list : Bool) (profile : Option (List Byte)) : Kept [.io, .yt, .t1, .shed, .prefetch, .stalls, .units, .ops, .mirrors, .redirects, .cp, .cpSlots, .contexts, .answers, .tallies, .textCache, .rounds, .svChanged, .net] s (State.drawAt s i j row list profile).1 := by
  unfold State.drawAt
  try dsimp only
  repeat' first
    | with_reducible exact Kept.refl _
    | ((with_reducible apply Laws.State.bump_kept); (case mhl => decide))
    | ((with_reducible apply Laws.State.drawRow_kept' ?mhl (by assumption)); (case mhl => decide))
    | ((with_reducible apply Laws.State.drawRow_kept); (case mhl => decide))
    | ((with_reducible apply Laws.State.grammarDead_kept' ?mhl (by assumption)); (case mhl => decide))
    | ((with_reducible apply Laws.State.grammarDead_kept); (case mhl => decide))
    | ((with_reducible apply Laws.State.noteMask_kept); (case mhl => decide))
    | ((with_reducible apply Laws.State.noteNaN_kept); (case mhl => decide))
    | ((with_reducible apply Laws.State.setStall_kept); (case mhl => decide))
    | with_reducible apply Kept.ite
    | with_reducible apply Kept.getD
    | (fail_if_no_progress ((with_reducible apply Kept.upd); (case ho => (refine Only.of (fun p hp => ?_) rfl; cases p <;> first | rfl | (refine absurd ?_ hp; decide))); (case hi => (repeat' first | with_reducible exact IoKept.refl _ | with_reducible apply Laws.Io.bump_kept | with_reducible apply IoKept.ite | with_reducible apply IoKept.foldl | with_reducible apply IoKept.put | with_reducible apply IoKept.filter | (fail_if_no_progress with_reducible apply IoKept.upd) | intro _ | dsimp only | split)); (case ht => (repeat' first | with_reducible exact T1Kept.refl _ | with_reducible apply T1Kept.ite | with_reducible apply T1Kept.foldl | with_reducible apply T1Kept.put | with_reducible apply T1Kept.filter | (fail_if_no_progress with_reducible apply T1Kept.upd) | intro _ | dsimp only | split))))
    | intro _
    | dsimp only
    | split
theorem State.drawAt_kept {ml : List StateField} {mz : State} {s : State} {i j row : Nat} {list : Bool} {profile : Option (List Byte)} (mhl : [.io, .yt, .t1, .shed, .prefetch, .stalls, .units, .ops, .mirrors, .redirects, .cp, .cpSlots, .contexts, .answers, .tallies, .textCache, .rounds, .svChanged, .net] ⊆ ml) (mh : Kept ml mz s) : Kept ml mz (State.drawAt s i j row list profile).1 :=
  Kept.after ((State.drawAt_frame s i j row list profile).mono mhl) mh
theorem State.drawAt_kept' {ml : List StateField} {mz : State} {s : State} {i j row : Nat} {list : Bool} {profile : Option (List Byte)} {v0 : State} {v1 : Nat} {v2 : Nat} (mhl : [.io, .yt, .t1, .shed, .prefetch, .stalls, .units, .ops, .mirrors, .redirects, .cp, .cpSlots, .contexts, .answers, .tallies, .textCache, .rounds, .svChanged, .net] ⊆ ml) (me : State.drawAt s i j row list profile = (v0, v1, v2)) (mh : Kept ml mz s) : Kept ml mz v0 := by
  have mk := Kept.after ((State.drawAt_frame s i j row list profile).mono mhl) mh
  rw [me] at mk
  exact mk

theorem State.drawProfile_frame (s : State) (i addr : Nat) : Kept [.io, .yt, .t1, .shed, .prefetch, .stalls, .units, .ops, .mirrors, .redirects, .cp, .cpSlots, .contexts, .answers, .tallies, .textCache, .rounds, .svChanged, .net] s (State.drawProfile s i addr).1 := by
  unfold State.drawProfile
  try dsimp only
  repeat' first
    | with_reducible exact Kept.refl _
    | ((with_reducible apply Laws.State.reading1_kept' ?mhl (by assumption)); (case mhl => decide))
    | ((with_reducible apply Laws.State.reading1_kept); (case mhl => decide))
    | ((with_reducible apply Laws.State.stallEvent_kept); (case mhl => decide))
    | with_reducible apply Kept.ite
    | (fail_if_no_progress ((with_reducible apply Kept.upd); (case ho => (refine Only.of (fun p hp => ?_) rfl; cases p <;> first | rfl | (refine absurd ?_ hp; decide))); (case hi => (repeat' first | with_reducible exact IoKept.refl _ | with_reducible apply IoKept.ite | with_reducible apply IoKept.foldl | with_reducible apply IoKept.put | with_reducible apply IoKept.filter | (fail_if_no_progress with_reducible apply IoKept.upd) | intro _ | dsimp only | split)); (case ht => (repeat' first | with_reducible exact T1Kept.refl _ | with_reducible apply T1Kept.ite | with_reducible apply T1Kept.foldl | with_reducible apply T1Kept.put | with_reducible apply T1Kept.filter | (fail_if_no_progress with_reducible apply T1Kept.upd) | intro _ | dsimp only | split))))
    | intro _
    | dsimp only
    | split
theorem State.drawProfile_kept {ml : List StateField} {mz : State} {s : State} {i addr : Nat} (mhl : [.io, .yt, .t1, .shed, .prefetch, .stalls, .units, .ops, .mirrors, .redirects, .cp, .cpSlots, .contexts, .answers, .tallies, .textCache, .rounds, .svChanged, .net] ⊆ ml) (mh : Kept ml mz s) : Kept ml mz (State.drawProfile s i addr).1 :=
  Kept.after ((State.drawProfile_frame s i addr).mono mhl) mh
theorem State.drawProfile_kept' {ml : List StateField} {mz : State} {s : State} {i addr : Nat} {v0 : State} {v1 : Option (List Byte)} (mhl : [.io, .yt, .t1, .shed, .prefetch, .stalls, .units, .ops, .mirrors, .redirects, .cp, .cpSlots, .contexts, .answers, .tallies, .textCache, .rounds, .svChanged, .net] ⊆ ml) (me : State.drawProfile s i addr = (v0, v1)) (mh : Kept ml mz s) : Kept ml mz v0 := by
  have mk := Kept.after ((State.drawProfile_frame s i addr).mono mhl) mh
  rw [me] at mk
  exact mk

theorem State.selectLists_frame (s : State) (t tag : Nat) (header : Bool) (k lists flags rowLen at_ dest : Nat) : Kept [.io, .yt, .t1, .shed, .prefetch, .stalls, .units, .ops, .mirrors, .redirects, .cp, .cpSlots, .contexts, .answers, .tallies, .textCache, .rounds, .svChanged, .net] s (State.selectLists s t tag header k lists flags rowLen at_ dest).1 := by
  unfold State.selectLists
  try dsimp only
  repeat' first
    | with_reducible exact Kept.refl _
    | ((with_reducible apply Laws.State.gatherRows_kept' ?mhl (by assumption)); (case mhl => decide))
    | ((with_reducible apply Laws.State.gatherRows_kept); (case mhl => decide))
    | ((with_reducible apply Laws.State.noteMerge_kept); (case mhl => decide))
    | ((with_reducible apply Laws.State.noteNaN_kept); (case mhl => decide))
    | ((with_reducible apply Laws.State.readLists_kept' ?mhl (by assumption)); (case mhl => decide))
    | ((with_reducible apply Laws.State.readLists_kept); (case mhl => decide))
    | ((with_reducible apply Laws.State.reading1_kept' ?mhl (by assumption)); (case mhl => decide))
    | ((with_reducible apply Laws.State.reading1_kept); (case mhl => decide))
    | ((with_reducible apply Laws.State.writeT1_kept); (case mhl => decide))
    | ((with_reducible apply Kept.iteL); case k => ((repeat' first | with_reducible exact Kept.refl _ | ((with_reducible apply Laws.State.gatherRows_kept' ?mhl (by assumption)); (case mhl => decide)) | ((with_reducible apply Laws.State.gatherRows_kept); (case mhl => decide)) | ((with_reducible apply Laws.State.noteMerge_kept); (case mhl => decide)) | ((with_reducible apply Laws.State.noteNaN_kept); (case mhl => decide)) | ((with_reducible apply Laws.State.readLists_kept' ?mhl (by assumption)); (case mhl => decide)) | ((with_reducible apply Laws.State.readLists_kept); (case mhl => decide)) | ((with_reducible apply Laws.State.reading1_kept' ?mhl (by assumption)); (case mhl => decide)) | ((with_reducible apply Laws.State.reading1_kept); (case mhl => decide)) | ((with_reducible apply Laws.State.writeT1_kept); (case mhl => decide)) | with_reducible apply Kept.getD | with_reducible apply Kept.ite | (fail_if_no_progress ((with_reducible apply Kept.upd); (case ho => (refine Only.of (fun p hp => ?_) rfl; cases p <;> first | rfl | (refine absurd ?_ hp; decide))); (case hi => (repeat' first | with_reducible exact IoKept.refl _ | with_reducible apply IoKept.ite | with_reducible apply IoKept.foldl | with_reducible apply IoKept.put | with_reducible apply IoKept.filter | (fail_if_no_progress with_reducible apply IoKept.upd) | intro _ | dsimp only | split)); (case ht => (repeat' first | with_reducible exact T1Kept.refl _ | with_reducible apply T1Kept.ite | with_reducible apply T1Kept.foldl | with_reducible apply T1Kept.put | with_reducible apply T1Kept.filter | (fail_if_no_progress with_reducible apply T1Kept.upd) | intro _ | dsimp only | split)))) | intro _ | dsimp only | split); done))
    | ((with_reducible apply Kept.iteR); case k => ((repeat' first | with_reducible exact Kept.refl _ | ((with_reducible apply Laws.State.gatherRows_kept' ?mhl (by assumption)); (case mhl => decide)) | ((with_reducible apply Laws.State.gatherRows_kept); (case mhl => decide)) | ((with_reducible apply Laws.State.noteMerge_kept); (case mhl => decide)) | ((with_reducible apply Laws.State.noteNaN_kept); (case mhl => decide)) | ((with_reducible apply Laws.State.readLists_kept' ?mhl (by assumption)); (case mhl => decide)) | ((with_reducible apply Laws.State.readLists_kept); (case mhl => decide)) | ((with_reducible apply Laws.State.reading1_kept' ?mhl (by assumption)); (case mhl => decide)) | ((with_reducible apply Laws.State.reading1_kept); (case mhl => decide)) | ((with_reducible apply Laws.State.writeT1_kept); (case mhl => decide)) | with_reducible apply Kept.getD | with_reducible apply Kept.ite | (fail_if_no_progress ((with_reducible apply Kept.upd); (case ho => (refine Only.of (fun p hp => ?_) rfl; cases p <;> first | rfl | (refine absurd ?_ hp; decide))); (case hi => (repeat' first | with_reducible exact IoKept.refl _ | with_reducible apply IoKept.ite | with_reducible apply IoKept.foldl | with_reducible apply IoKept.put | with_reducible apply IoKept.filter | (fail_if_no_progress with_reducible apply IoKept.upd) | intro _ | dsimp only | split)); (case ht => (repeat' first | with_reducible exact T1Kept.refl _ | with_reducible apply T1Kept.ite | with_reducible apply T1Kept.foldl | with_reducible apply T1Kept.put | with_reducible apply T1Kept.filter | (fail_if_no_progress with_reducible apply T1Kept.upd) | intro _ | dsimp only | split)))) | intro _ | dsimp only | split); done))
    | with_reducible apply Kept.ite
    | with_reducible apply Kept.getD
    | (fail_if_no_progress ((with_reducible apply Kept.upd); (case ho => (refine Only.of (fun p hp => ?_) rfl; cases p <;> first | rfl | (refine absurd ?_ hp; decide))); (case hi => (repeat' first | with_reducible exact IoKept.refl _ | with_reducible apply IoKept.ite | with_reducible apply IoKept.foldl | with_reducible apply IoKept.put | with_reducible apply IoKept.filter | (fail_if_no_progress with_reducible apply IoKept.upd) | intro _ | dsimp only | split)); (case ht => (repeat' first | with_reducible exact T1Kept.refl _ | with_reducible apply T1Kept.ite | with_reducible apply T1Kept.foldl | with_reducible apply T1Kept.put | with_reducible apply T1Kept.filter | (fail_if_no_progress with_reducible apply T1Kept.upd) | intro _ | dsimp only | split))))
    | intro _
    | dsimp only
    | split
theorem State.selectLists_kept {ml : List StateField} {mz : State} {s : State} {t tag : Nat} {header : Bool} {k lists flags rowLen at_ dest : Nat} (mhl : [.io, .yt, .t1, .shed, .prefetch, .stalls, .units, .ops, .mirrors, .redirects, .cp, .cpSlots, .contexts, .answers, .tallies, .textCache, .rounds, .svChanged, .net] ⊆ ml) (mh : Kept ml mz s) : Kept ml mz (State.selectLists s t tag header k lists flags rowLen at_ dest).1 :=
  Kept.after ((State.selectLists_frame s t tag header k lists flags rowLen at_ dest).mono mhl) mh
theorem State.selectLists_kept' {ml : List StateField} {mz : State} {s : State} {t tag : Nat} {header : Bool} {k lists flags rowLen at_ dest : Nat} {v0 : State} {v1 : Nat} {v2 : Nat} {v3 : Nat} (mhl : [.io, .yt, .t1, .shed, .prefetch, .stalls, .units, .ops, .mirrors, .redirects, .cp, .cpSlots, .contexts, .answers, .tallies, .textCache, .rounds, .svChanged, .net] ⊆ ml) (me : State.selectLists s t tag header k lists flags rowLen at_ dest = (v0, v1, v2, v3)) (mh : Kept ml mz s) : Kept ml mz v0 := by
  have mk := Kept.after ((State.selectLists_frame s t tag header k lists flags rowLen at_ dest).mono mhl) mh
  rw [me] at mk
  exact mk

theorem State.gatherResult_frame (s : State) (t result dest descs rowLen : Nat) : Kept [.io, .yt, .t1, .shed, .prefetch, .stalls, .units, .ops, .mirrors, .redirects, .cp, .cpSlots, .contexts, .answers, .tallies, .textCache, .rounds, .svChanged, .net] s (State.gatherResult s t result dest descs rowLen).1 := by
  unfold State.gatherResult
  try dsimp only
  repeat' first
    | with_reducible exact Kept.refl _
    | ((with_reducible apply Laws.State.gatherRows_kept' ?mhl (by assumption)); (case mhl => decide))
    | ((with_reducible apply Laws.State.gatherRows_kept); (case mhl => decide))
    | ((with_reducible apply Laws.State.reading1_kept' ?mhl (by assumption)); (case mhl => decide))
    | ((with_reducible apply Laws.State.reading1_kept); (case mhl => decide))
    | ((with_reducible apply Laws.State.writeT1_kept); (case mhl => decide))
    | with_reducible apply Kept.ite
    | with_reducible apply Kept.getD
    | (fail_if_no_progress ((with_reducible apply Kept.upd); (case ho => (refine Only.of (fun p hp => ?_) rfl; cases p <;> first | rfl | (refine absurd ?_ hp; decide))); (case hi => (repeat' first | with_reducible exact IoKept.refl _ | with_reducible apply IoKept.ite | with_reducible apply IoKept.foldl | with_reducible apply IoKept.put | with_reducible apply IoKept.filter | (fail_if_no_progress with_reducible apply IoKept.upd) | intro _ | dsimp only | split)); (case ht => (repeat' first | with_reducible exact T1Kept.refl _ | with_reducible apply T1Kept.ite | with_reducible apply T1Kept.foldl | with_reducible apply T1Kept.put | with_reducible apply T1Kept.filter | (fail_if_no_progress with_reducible apply T1Kept.upd) | intro _ | dsimp only | split))))
    | intro _
    | dsimp only
    | split
theorem State.gatherResult_kept {ml : List StateField} {mz : State} {s : State} {t result dest descs rowLen : Nat} (mhl : [.io, .yt, .t1, .shed, .prefetch, .stalls, .units, .ops, .mirrors, .redirects, .cp, .cpSlots, .contexts, .answers, .tallies, .textCache, .rounds, .svChanged, .net] ⊆ ml) (mh : Kept ml mz s) : Kept ml mz (State.gatherResult s t result dest descs rowLen).1 :=
  Kept.after ((State.gatherResult_frame s t result dest descs rowLen).mono mhl) mh
theorem State.gatherResult_kept' {ml : List StateField} {mz : State} {s : State} {t result dest descs rowLen : Nat} {v0 : State} {v1 : Nat} (mhl : [.io, .yt, .t1, .shed, .prefetch, .stalls, .units, .ops, .mirrors, .redirects, .cp, .cpSlots, .contexts, .answers, .tallies, .textCache, .rounds, .svChanged, .net] ⊆ ml) (me : State.gatherResult s t result dest descs rowLen = (v0, v1)) (mh : Kept ml mz s) : Kept ml mz v0 := by
  have mk := Kept.after ((State.gatherResult_frame s t result dest descs rowLen).mono mhl) mh
  rw [me] at mk
  exact mk

end Sys2Proof.Laws
end

