-- ==== Sys2Proof/Laws/KeptNetwork.lean ====
section
/-! SUPPORT. The frame lemma of every operation of Machine/Network.lean: which fields of the state it may change, and that it keeps the canonical
forms. -/

set_option Elab.async false
set_option linter.unusedTactic false
set_option linter.unreachableTactic false
set_option linter.unusedVariables false

namespace Sys2Proof.Laws

open Sys2Proof Sys2Proof.Machine Sys2Proof.Safety

theorem State.sendTarget_frame (s : State) (h : Nat) : Kept [.freeIdx] s (State.sendTarget s h).1 := by
  unfold State.sendTarget
  try dsimp only
  repeat' first
    | with_reducible exact Kept.refl _
    | ((with_reducible apply Laws.State.drawFree_kept' ?mhl (by assumption)); (case mhl => decide))
    | ((with_reducible apply Laws.State.drawFree_kept); (case mhl => decide))
    | with_reducible apply Kept.ite
    | (fail_if_no_progress ((with_reducible apply Kept.upd); (case ho => (refine Only.of (fun p hp => ?_) rfl; cases p <;> first | rfl | (refine absurd ?_ hp; decide))); (case hi => exact IoKept.refl _); (case ht => exact T1Kept.refl _)))
    | intro _
    | dsimp only
    | split
theorem State.sendTarget_kept {ml : List StateField} {mz : State} {s : State} {h : Nat} (mhl : [.freeIdx] ⊆ ml) (mh : Kept ml mz s) : Kept ml mz (State.sendTarget s h).1 :=
  Kept.after ((State.sendTarget_frame s h).mono mhl) mh
theorem State.sendTarget_kept' {ml : List StateField} {mz : State} {s : State} {h : Nat} {v0 : State} {v1 : Nat} {v2 : Nat} (mhl : [.freeIdx] ⊆ ml) (me : State.sendTarget s h = (v0, v1, v2)) (mh : Kept ml mz s) : Kept ml mz v0 := by
  have mk := Kept.after ((State.sendTarget_frame s h).mono mhl) mh
  rw [me] at mk
  exact mk

theorem State.awaitAccept_frame (s : State) (m : Msg) : Kept [.net] s (State.awaitAccept s m) := by
  unfold State.awaitAccept
  try dsimp only
  repeat' first
    | with_reducible exact Kept.refl _
    | with_reducible apply Kept.ite
    | (fail_if_no_progress ((with_reducible apply Kept.upd); (case ho => (refine Only.of (fun p hp => ?_) rfl; cases p <;> first | rfl | (refine absurd ?_ hp; decide))); (case hi => exact IoKept.refl _); (case ht => exact T1Kept.refl _)))
    | intro _
    | dsimp only
    | split
theorem State.awaitAccept_kept {ml : List StateField} {mz : State} {s : State} {m : Msg} (mhl : [.net] ⊆ ml) (mh : Kept ml mz s) : Kept ml mz (State.awaitAccept s m) :=
  Kept.after ((State.awaitAccept_frame s m).mono mhl) mh

theorem execNwSend_kept (n : Insn) (s : State) : ∃ out, execNwSend n s = .next out ∧ Kept [.io, .yt, .t1, .shed, .prefetch, .stalls, .units, .ops, .mirrors, .redirects, .cp, .cpSlots, .contexts, .answers, .tallies, .textCache, .rounds, .svChanged, .net, .sec, .freeIdx] s out := by
  refine ⟨_, rfl, ?_⟩
  apply State.runInsn_kept (by decide) _ (Kept.refl _)
  intro t y
  apply State.engine_kept (by decide) _ (Kept.refl _)
  intro t c
  have h1 : ∀ a b e, Kept [.io, .yt, .t1, .shed, .prefetch, .stalls, .units, .ops, .mirrors, .redirects, .cp, .cpSlots, .contexts, .answers, .tallies, .textCache, .rounds, .svChanged, .net, .sec, .freeIdx] t (t.afterRead a b e).checkPoison :=
    fun a b e => State.checkPoison_kept (by decide) (State.afterRead_kept (by decide) (Kept.refl _))
  dsimp only
  refine Kept.ite (State.complete_kept (by decide) (Kept.refl _)) ?_
  split
  · exact State.complete_kept (by decide) (Kept.refl _)
  · exact State.complete_kept (by decide) (h1 _ _ _)
  · exact State.complete_kept (by decide) (State.awaitAccept_kept (by decide) (State.send_kept (by decide) (State.drawFree_kept (by decide) (State.sendTarget_kept (by decide) (h1 _ _ _)))))

theorem State.setInbox_frame (s : State) (t : Nat) (l : List Msg) : Kept [.net] s (State.setInbox s t l) := by
  unfold State.setInbox
  try dsimp only
  repeat' first
    | with_reducible exact Kept.refl _
    | with_reducible apply Kept.ite
    | (fail_if_no_progress ((with_reducible apply Kept.upd); (case ho => (refine Only.of (fun p hp => ?_) rfl; cases p <;> first | rfl | (refine absurd ?_ hp; decide))); (case hi => exact IoKept.refl _); (case ht => exact T1Kept.refl _)))
    | intro _
    | dsimp only
    | split
theorem State.setInbox_kept {ml : List StateField} {mz : State} {s : State} {t : Nat} {l : List Msg} (mhl : [.net] ⊆ ml) (mh : Kept ml mz s) : Kept ml mz (State.setInbox s t l) :=
  Kept.after ((State.setInbox_frame s t l).mono mhl) mh

theorem State.takeMessage_frame (s : State) (t buffer len : Nat) (m : Msg) (rest : List Msg) : Kept [.t1, .net, .freeIdx] s (State.takeMessage s t buffer len m rest).1 := by
  unfold State.takeMessage
  try dsimp only
  repeat' first
    | with_reducible exact Kept.refl _
    | ((with_reducible apply Laws.State.drawFree_kept' ?mhl (by assumption)); (case mhl => decide))
    | ((with_reducible apply Laws.State.drawFree_kept); (case mhl => decide))
    | ((with_reducible apply Laws.State.setInbox_kept); (case mhl => decide))
    | ((with_reducible apply Laws.State.writeT1_kept); (case mhl => decide))
    | with_reducible apply Kept.ite
    | intro _
    | dsimp only
    | split
theorem State.takeMessage_kept {ml : List StateField} {mz : State} {s : State} {t buffer len : Nat} {m : Msg} {rest : List Msg} (mhl : [.t1, .net, .freeIdx] ⊆ ml) (mh : Kept ml mz s) : Kept ml mz (State.takeMessage s t buffer len m rest).1 :=
  Kept.after ((State.takeMessage_frame s t buffer len m rest).mono mhl) mh
theorem State.takeMessage_kept' {ml : List StateField} {mz : State} {s : State} {t buffer len : Nat} {m : Msg} {rest : List Msg} {v0 : State} {v1 : Nat} {v2 : Nat} (mhl : [.t1, .net, .freeIdx] ⊆ ml) (me : State.takeMessage s t buffer len m rest = (v0, v1, v2)) (mh : Kept ml mz s) : Kept ml mz v0 := by
  have mk := Kept.after ((State.takeMessage_frame s t buffer len m rest).mono mhl) mh
  rw [me] at mk
  exact mk

theorem execNwRecv_kept (n : Insn) (s : State) : ∃ out, execNwRecv n s = .next out ∧ Kept [.io, .yt, .t1, .shed, .stalls, .units, .ops, .mirrors, .redirects, .cp, .cpSlots, .contexts, .answers, .tallies, .textCache, .rounds, .svChanged, .net, .sec, .freeIdx] s out := by
  unfold execNwRecv
  try dsimp only
  refine ⟨_, rfl, ?_⟩
  try dsimp only
  repeat' first
    | with_reducible exact Kept.refl _
    | with_reducible exact DidKept.refl _
    | with_reducible apply DidKept.done
    | with_reducible apply DidKept.hold
    | with_reducible apply DidKept.fault
    | with_reducible apply DidKept.ite
    | ((with_reducible apply Laws.State.drawFree_kept' ?mhl (by assumption)); (case mhl => decide))
    | ((with_reducible apply Laws.State.drawFree_kept); (case mhl => decide))
    | ((with_reducible apply Laws.State.runInsn_kept); (case mhl => decide))
    | ((with_reducible apply Laws.State.setUnit_kept); (case mhl => decide))
    | ((with_reducible apply Laws.State.takeMessage_kept' ?mhl (by assumption)); (case mhl => decide))
    | ((with_reducible apply Laws.State.takeMessage_kept); (case mhl => decide))
    | with_reducible apply Kept.ite
    | (fail_if_no_progress ((with_reducible apply Kept.upd); (case ho => (refine Only.of (fun p hp => ?_) rfl; cases p <;> first | rfl | (refine absurd ?_ hp; decide))); (case hi => (repeat' first | with_reducible exact IoKept.refl _ | with_reducible apply IoKept.ite | with_reducible apply IoKept.foldl | with_reducible apply IoKept.put | with_reducible apply IoKept.filter | (fail_if_no_progress with_reducible apply IoKept.upd) | intro _ | dsimp only | split)); (case ht => (repeat' first | with_reducible exact T1Kept.refl _ | with_reducible apply T1Kept.ite | with_reducible apply T1Kept.foldl | with_reducible apply T1Kept.put | with_reducible apply T1Kept.filter | (fail_if_no_progress with_reducible apply T1Kept.upd) | intro _ | dsimp only | split))))
    | intro _
    | dsimp only
    | split

theorem State.endRecv_frame (s : State) (slot unit d status len : Nat) : Kept [.units, .contexts, .net] s (State.endRecv s slot unit d status len) := by
  unfold State.endRecv
  try dsimp only
  repeat' first
    | with_reducible exact Kept.refl _
    | ((with_reducible apply Laws.State.retire_kept); (case mhl => decide))
    | with_reducible apply Kept.ite
    | (fail_if_no_progress ((with_reducible apply Kept.upd); (case ho => (refine Only.of (fun p hp => ?_) rfl; cases p <;> first | rfl | (refine absurd ?_ hp; decide))); (case hi => exact IoKept.refl _); (case ht => exact T1Kept.refl _)))
    | intro _
    | dsimp only
    | split
theorem State.endRecv_kept {ml : List StateField} {mz : State} {s : State} {slot unit d status len : Nat} (mhl : [.units, .contexts, .net] ⊆ ml) (mh : Kept ml mz s) : Kept ml mz (State.endRecv s slot unit d status len) :=
  Kept.after ((State.endRecv_frame s slot unit d status len).mono mhl) mh

theorem State.serveInbox_frame (s : State) (t : Nat) : Kept [.t1, .units, .contexts, .net, .freeIdx] s (State.serveInbox s t) := by
  unfold State.serveInbox
  try dsimp only
  repeat' first
    | with_reducible exact Kept.refl _
    | ((with_reducible apply Laws.State.endRecv_kept); (case mhl => decide))
    | ((with_reducible apply Laws.State.takeMessage_kept' ?mhl (by assumption)); (case mhl => decide))
    | ((with_reducible apply Laws.State.takeMessage_kept); (case mhl => decide))
    | with_reducible apply Kept.ite
    | with_reducible apply Kept.foldl
    | with_reducible apply Kept.foldlFst
    | with_reducible apply Kept.foldlSnd
    | (fail_if_no_progress ((with_reducible apply Kept.upd); (case ho => (refine Only.of (fun p hp => ?_) rfl; cases p <;> first | rfl | (refine absurd ?_ hp; decide))); (case hi => exact IoKept.refl _); (case ht => (repeat' first | with_reducible exact T1Kept.refl _ | with_reducible apply T1Kept.ite | with_reducible apply T1Kept.foldl | with_reducible apply T1Kept.put | with_reducible apply T1Kept.filter | (fail_if_no_progress with_reducible apply T1Kept.upd) | intro _ | dsimp only | split))))
    | intro _
    | dsimp only
    | split
theorem State.serveInbox_kept {ml : List StateField} {mz : State} {s : State} {t : Nat} (mhl : [.t1, .units, .contexts, .net, .freeIdx] ⊆ ml) (mh : Kept ml mz s) : Kept ml mz (State.serveInbox s t) :=
  Kept.after ((State.serveInbox_frame s t).mono mhl) mh

theorem execNwRecvTimeout_kept (slot unit : Nat) (s : State) : ∃ out, execNwRecvTimeout slot unit s = .next out ∧ Kept [.units, .contexts, .net, .freeIdx] s out := by
  unfold execNwRecvTimeout
  try dsimp only
  refine ⟨_, rfl, ?_⟩
  try dsimp only
  repeat' first
    | with_reducible exact Kept.refl _
    | ((with_reducible apply Laws.State.drawFree_kept' ?mhl (by assumption)); (case mhl => decide))
    | ((with_reducible apply Laws.State.drawFree_kept); (case mhl => decide))
    | ((with_reducible apply Laws.State.endRecv_kept); (case mhl => decide))
    | with_reducible apply Kept.ite
    | (fail_if_no_progress ((with_reducible apply Kept.upd); (case ho => (refine Only.of (fun p hp => ?_) rfl; cases p <;> first | rfl | (refine absurd ?_ hp; decide))); (case hi => exact IoKept.refl _); (case ht => exact T1Kept.refl _)))
    | intro _
    | dsimp only
    | split

theorem State.settleWithDown_frame (s : State) (d : Nat) : Kept [.io, .t1, .shed, .stalls, .ops, .answers, .net] s (State.settleWithDown s d) := by
  unfold State.settleWithDown
  try dsimp only
  repeat' first
    | with_reducible exact Kept.refl _
    | ((with_reducible apply Laws.State.promoteDest_kept); (case mhl => decide))
    | ((with_reducible apply Laws.State.promoteSource_kept); (case mhl => decide))
    | ((with_reducible apply Kept.iteL); case k => ((repeat' first | with_reducible exact Kept.refl _ | ((with_reducible apply Laws.State.promoteDest_kept); (case mhl => decide)) | ((with_reducible apply Laws.State.promoteSource_kept); (case mhl => decide)) | with_reducible apply Kept.foldl | with_reducible apply Kept.foldlFst | with_reducible apply Kept.foldlSnd | with_reducible apply Kept.ite | intro _ | dsimp only | split); done))
    | ((with_reducible apply Kept.iteR); case k => ((repeat' first | with_reducible exact Kept.refl _ | ((with_reducible apply Laws.State.promoteDest_kept); (case mhl => decide)) | ((with_reducible apply Laws.State.promoteSource_kept); (case mhl => decide)) | with_reducible apply Kept.foldl | with_reducible apply Kept.foldlFst | with_reducible apply Kept.foldlSnd | with_reducible apply Kept.ite | intro _ | dsimp only | split); done))
    | with_reducible apply Kept.ite
    | with_reducible apply Kept.foldl
    | with_reducible apply Kept.foldlFst
    | with_reducible apply Kept.foldlSnd
    | intro _
    | dsimp only
    | split
theorem State.settleWithDown_kept {ml : List StateField} {mz : State} {s : State} {d : Nat} (mhl : [.io, .t1, .shed, .stalls, .ops, .answers, .net] ⊆ ml) (mh : Kept ml mz s) : Kept ml mz (State.settleWithDown s d) :=
  Kept.after ((State.settleWithDown_frame s d).mono mhl) mh

theorem State.setDown_frame (s : State) (d : Nat) (down : Bool) : Kept [.io, .t1, .shed, .stalls, .ops, .mirrors, .answers, .textCache, .net] s (State.setDown s d down) := by
  unfold State.setDown
  try dsimp only
  repeat' first
    | with_reducible exact Kept.refl _
    | ((with_reducible apply Laws.State.orphan_kept); (case mhl => decide))
    | ((with_reducible apply Laws.State.raise_kept); (case mhl => decide))
    | ((with_reducible apply Laws.State.resetFlow_kept); (case mhl => decide))
    | ((with_reducible apply Laws.State.setMember_kept); (case mhl => decide))
    | ((with_reducible apply Laws.State.settleWithDown_kept); (case mhl => decide))
    | ((with_reducible apply Kept.iteL); case k => ((repeat' first | with_reducible exact Kept.refl _ | ((with_reducible apply Laws.State.orphan_kept); (case mhl => decide)) | ((with_reducible apply Laws.State.raise_kept); (case mhl => decide)) | ((with_reducible apply Laws.State.resetFlow_kept); (case mhl => decide)) | ((with_reducible apply Laws.State.setMember_kept); (case mhl => decide)) | ((with_reducible apply Laws.State.settleWithDown_kept); (case mhl => decide)) | with_reducible apply Kept.foldl | with_reducible apply Kept.foldlFst | with_reducible apply Kept.foldlSnd | with_reducible apply Kept.ite | (fail_if_no_progress ((with_reducible apply Kept.upd); (case ho => (refine Only.of (fun p hp => ?_) rfl; cases p <;> first | rfl | (refine absurd ?_ hp; decide))); (case hi => (repeat' first | with_reducible exact IoKept.refl _ | with_reducible apply Laws.Io.raise_kept | with_reducible apply IoKept.ite | with_reducible apply IoKept.foldl | with_reducible apply IoKept.put | with_reducible apply IoKept.filter | (fail_if_no_progress with_reducible apply IoKept.upd) | intro _ | dsimp only | split)); (case ht => (repeat' first | with_reducible exact T1Kept.refl _ | with_reducible apply T1Kept.ite | with_reducible apply T1Kept.foldl | with_reducible apply T1Kept.put | with_reducible apply T1Kept.filter | (fail_if_no_progress with_reducible apply T1Kept.upd) | intro _ | dsimp only | split)))) | intro _ | dsimp only | split); done))
    | ((with_reducible apply Kept.iteR); case k => ((repeat' first | with_reducible exact Kept.refl _ | ((with_reducible apply Laws.State.orphan_kept); (case mhl => decide)) | ((with_reducible apply Laws.State.raise_kept); (case mhl => decide)) | ((with_reducible apply Laws.State.resetFlow_kept); (case mhl => decide)) | ((with_reducible apply Laws.State.setMember_kept); (case mhl => decide)) | ((with_reducible apply Laws.State.settleWithDown_kept); (case mhl => decide)) | with_reducible apply Kept.foldl | with_reducible apply Kept.foldlFst | with_reducible apply Kept.foldlSnd | with_reducible apply Kept.ite | (fail_if_no_progress ((with_reducible apply Kept.upd); (case ho => (refine Only.of (fun p hp => ?_) rfl; cases p <;> first | rfl | (refine absurd ?_ hp; decide))); (case hi => (repeat' first | with_reducible exact IoKept.refl _ | with_reducible apply Laws.Io.raise_kept | with_reducible apply IoKept.ite | with_reducible apply IoKept.foldl | with_reducible apply IoKept.put | with_reducible apply IoKept.filter | (fail_if_no_progress with_reducible apply IoKept.upd) | intro _ | dsimp only | split)); (case ht => (repeat' first | with_reducible exact T1Kept.refl _ | with_reducible apply T1Kept.ite | with_reducible apply T1Kept.foldl | with_reducible apply T1Kept.put | with_reducible apply T1Kept.filter | (fail_if_no_progress with_reducible apply T1Kept.upd) | intro _ | dsimp only | split)))) | intro _ | dsimp only | split); done))
    | with_reducible apply Kept.ite
    | with_reducible apply Kept.foldl
    | with_reducible apply Kept.foldlFst
    | with_reducible apply Kept.foldlSnd
    | (fail_if_no_progress ((with_reducible apply Kept.upd); (case ho => (refine Only.of (fun p hp => ?_) rfl; cases p <;> first | rfl | (refine absurd ?_ hp; decide))); (case hi => (repeat' first | with_reducible exact IoKept.refl _ | with_reducible apply Laws.Io.raise_kept | with_reducible apply IoKept.ite | with_reducible apply IoKept.foldl | with_reducible apply IoKept.put | with_reducible apply IoKept.filter | (fail_if_no_progress with_reducible apply IoKept.upd) | intro _ | dsimp only | split)); (case ht => (repeat' first | with_reducible exact T1Kept.refl _ | with_reducible apply T1Kept.ite | with_reducible apply T1Kept.foldl | with_reducible apply T1Kept.put | with_reducible apply T1Kept.filter | (fail_if_no_progress with_reducible apply T1Kept.upd) | intro _ | dsimp only | split))))
    | intro _
    | dsimp only
    | split
theorem State.setDown_kept {ml : List StateField} {mz : State} {s : State} {d : Nat} {down : Bool} (mhl : [.io, .t1, .shed, .stalls, .ops, .mirrors, .answers, .textCache, .net] ⊆ ml) (mh : Kept ml mz s) : Kept ml mz (State.setDown s d down) :=
  Kept.after ((State.setDown_frame s d down).mono mhl) mh

theorem State.weighMarks_frame (s : State) : Kept [.io, .t1, .shed, .stalls, .ops, .mirrors, .answers, .textCache, .net] s (State.weighMarks s) := by
  unfold State.weighMarks
  try dsimp only
  repeat' first
    | with_reducible exact Kept.refl _
    | ((with_reducible apply Laws.State.setDown_kept); (case mhl => decide))
    | with_reducible apply Kept.ite
    | with_reducible apply Kept.foldl
    | with_reducible apply Kept.foldlFst
    | with_reducible apply Kept.foldlSnd
    | intro _
    | dsimp only
    | split
theorem State.weighMarks_kept {ml : List StateField} {mz : State} {s : State} (mhl : [.io, .t1, .shed, .stalls, .ops, .mirrors, .answers, .textCache, .net] ⊆ ml) (mh : Kept ml mz s) : Kept ml mz (State.weighMarks s) :=
  Kept.after ((State.weighMarks_frame s).mono mhl) mh

theorem State.hear_frame (s : State) (d : Nat) : Kept [.io, .t1, .shed, .stalls, .ops, .mirrors, .answers, .textCache, .net] s (State.hear s d) := by
  unfold State.hear
  try dsimp only
  repeat' first
    | with_reducible exact Kept.refl _
    | ((with_reducible apply Laws.State.setMember_kept); (case mhl => decide))
    | ((with_reducible apply Laws.State.weighMarks_kept); (case mhl => decide))
    | with_reducible apply Kept.ite
    | (fail_if_no_progress ((with_reducible apply Kept.upd); (case ho => (refine Only.of (fun p hp => ?_) rfl; cases p <;> first | rfl | (refine absurd ?_ hp; decide))); (case hi => (repeat' first | with_reducible exact IoKept.refl _ | with_reducible apply IoKept.ite | with_reducible apply IoKept.foldl | with_reducible apply IoKept.put | with_reducible apply IoKept.filter | (fail_if_no_progress with_reducible apply IoKept.upd) | intro _ | dsimp only | split)); (case ht => (repeat' first | with_reducible exact T1Kept.refl _ | with_reducible apply T1Kept.ite | with_reducible apply T1Kept.foldl | with_reducible apply T1Kept.put | with_reducible apply T1Kept.filter | (fail_if_no_progress with_reducible apply T1Kept.upd) | intro _ | dsimp only | split))))
    | intro _
    | dsimp only
    | split
theorem State.hear_kept {ml : List StateField} {mz : State} {s : State} {d : Nat} (mhl : [.io, .t1, .shed, .stalls, .ops, .mirrors, .answers, .textCache, .net] ⊆ ml) (mh : Kept ml mz s) : Kept ml mz (State.hear s d) :=
  Kept.after ((State.hear_frame s d).mono mhl) mh

theorem execHelloSend_kept (s : State) : ∃ out, execHelloSend s = .next out ∧ Kept [.net] s out := by
  unfold execHelloSend
  try dsimp only
  refine ⟨_, rfl, ?_⟩
  try dsimp only
  repeat' first
    | with_reducible exact Kept.refl _
    | ((with_reducible apply Laws.State.send_kept); (case mhl => decide))
    | with_reducible apply Kept.ite
    | with_reducible apply Kept.foldl
    | with_reducible apply Kept.foldlFst
    | with_reducible apply Kept.foldlSnd
    | (fail_if_no_progress ((with_reducible apply Kept.upd); (case ho => (refine Only.of (fun p hp => ?_) rfl; cases p <;> first | rfl | (refine absurd ?_ hp; decide))); (case hi => exact IoKept.refl _); (case ht => exact T1Kept.refl _)))
    | intro _
    | dsimp only
    | split

theorem execHelloReceived_kept (m : Msg) (s : State) : ∃ out, execHelloReceived m s = .next out ∧ Kept [.io, .t1, .shed, .stalls, .ops, .mirrors, .answers, .textCache, .net] s out := by
  unfold execHelloReceived
  try dsimp only
  refine ⟨_, rfl, ?_⟩
  try dsimp only
  repeat' first
    | with_reducible exact Kept.refl _
    | ((with_reducible apply Laws.State.hear_kept); (case mhl => decide))
    | ((with_reducible apply Laws.State.setMember_kept); (case mhl => decide))
    | ((with_reducible apply Laws.State.weighMarks_kept); (case mhl => decide))
    | with_reducible apply Kept.ite
    | (fail_if_no_progress ((with_reducible apply Kept.upd); (case ho => (refine Only.of (fun p hp => ?_) rfl; cases p <;> first | rfl | (refine absurd ?_ hp; decide))); (case hi => (repeat' first | with_reducible exact IoKept.refl _ | with_reducible apply IoKept.ite | with_reducible apply IoKept.foldl | with_reducible apply IoKept.put | with_reducible apply IoKept.filter | (fail_if_no_progress with_reducible apply IoKept.upd) | intro _ | dsimp only | split)); (case ht => (repeat' first | with_reducible exact T1Kept.refl _ | with_reducible apply T1Kept.ite | with_reducible apply T1Kept.foldl | with_reducible apply T1Kept.put | with_reducible apply T1Kept.filter | (fail_if_no_progress with_reducible apply T1Kept.upd) | intro _ | dsimp only | split))))
    | intro _
    | dsimp only
    | split

theorem execMemberMissTimeout_kept (d : Nat) (s : State) : ∃ out, execMemberMissTimeout d s = .next out ∧ Kept [.io, .t1, .shed, .stalls, .ops, .mirrors, .answers, .textCache, .net] s out := by
  unfold execMemberMissTimeout
  try dsimp only
  refine ⟨_, rfl, ?_⟩
  try dsimp only
  repeat' first
    | with_reducible exact Kept.refl _
    | ((with_reducible apply Laws.State.setMember_kept); (case mhl => decide))
    | ((with_reducible apply Laws.State.weighMarks_kept); (case mhl => decide))
    | with_reducible apply Kept.ite
    | (fail_if_no_progress ((with_reducible apply Kept.upd); (case ho => (refine Only.of (fun p hp => ?_) rfl; cases p <;> first | rfl | (refine absurd ?_ hp; decide))); (case hi => (repeat' first | with_reducible exact IoKept.refl _ | with_reducible apply IoKept.ite | with_reducible apply IoKept.foldl | with_reducible apply IoKept.put | with_reducible apply IoKept.filter | (fail_if_no_progress with_reducible apply IoKept.upd) | intro _ | dsimp only | split)); (case ht => (repeat' first | with_reducible exact T1Kept.refl _ | with_reducible apply T1Kept.ite | with_reducible apply T1Kept.foldl | with_reducible apply T1Kept.put | with_reducible apply T1Kept.filter | (fail_if_no_progress with_reducible apply T1Kept.upd) | intro _ | dsimp only | split))))
    | intro _
    | dsimp only
    | split

theorem State.writeMap_frame (s : State) (first count : Nat) (bytes : List Byte) : Kept [.io, .t1, .shed, .stalls, .ops, .mirrors, .answers, .textCache, .net] s (State.writeMap s first count bytes) := by
  unfold State.writeMap
  try dsimp only
  repeat' first
    | with_reducible exact Kept.refl _
    | ((with_reducible apply Laws.State.put_kept); (case mhl => decide))
    | ((with_reducible apply Laws.State.raise_kept); (case mhl => decide))
    | ((with_reducible apply Laws.State.resetFlow_kept); (case mhl => decide))
    | ((with_reducible apply Laws.State.setMember_kept); (case mhl => decide))
    | ((with_reducible apply Laws.State.weighMarks_kept); (case mhl => decide))
    | ((with_reducible apply Laws.State.writeT1_kept); (case mhl => decide))
    | with_reducible apply Kept.ite
    | with_reducible apply Kept.foldl
    | with_reducible apply Kept.foldlFst
    | with_reducible apply Kept.foldlSnd
    | (fail_if_no_progress ((with_reducible apply Kept.upd); (case ho => (refine Only.of (fun p hp => ?_) rfl; cases p <;> first | rfl | (refine absurd ?_ hp; decide))); (case hi => (repeat' first | with_reducible exact IoKept.refl _ | with_reducible apply Laws.Io.put_kept | with_reducible apply Laws.Io.raise_kept | with_reducible apply IoKept.ite | with_reducible apply IoKept.foldl | with_reducible apply IoKept.put | with_reducible apply IoKept.filter | (fail_if_no_progress with_reducible apply IoKept.upd) | intro _ | dsimp only | split)); (case ht => (repeat' first | with_reducible exact T1Kept.refl _ | with_reducible apply T1Kept.ite | with_reducible apply T1Kept.foldl | with_reducible apply T1Kept.put | with_reducible apply T1Kept.filter | (fail_if_no_progress with_reducible apply T1Kept.upd) | intro _ | dsimp only | split))))
    | intro _
    | dsimp only
    | split
theorem State.writeMap_kept {ml : List StateField} {mz : State} {s : State} {first count : Nat} {bytes : List Byte} (mhl : [.io, .t1, .shed, .stalls, .ops, .mirrors, .answers, .textCache, .net] ⊆ ml) (mh : Kept ml mz s) : Kept ml mz (State.writeMap s first count bytes) :=
  Kept.after ((State.writeMap_frame s first count bytes).mono mhl) mh

theorem execMapSet_kept (c : Cmd) (s : State) : ∃ out, execMapSet c s = .next out ∧ Kept [.io, .t1, .shed, .stalls, .ops, .mirrors, .answers, .textCache, .net] s out := by
  unfold execMapSet
  try dsimp only
  refine ⟨_, rfl, ?_⟩
  try dsimp only
  repeat' first
    | with_reducible exact Kept.refl _
    | ((with_reducible apply Laws.State.complete_kept); (case mhl => decide))
    | ((with_reducible apply Laws.State.readInFault_kept); (case mhl => decide))
    | ((with_reducible apply Laws.State.runCmd_kept); (case mhl => decide))
    | ((with_reducible apply Laws.State.writeMap_kept); (case mhl => decide))
    | ((with_reducible apply Kept.iteL); case k => ((repeat' first | with_reducible exact Kept.refl _ | ((with_reducible apply Laws.State.complete_kept); (case mhl => decide)) | ((with_reducible apply Laws.State.readInFault_kept); (case mhl => decide)) | ((with_reducible apply Laws.State.runCmd_kept); (case mhl => decide)) | ((with_reducible apply Laws.State.writeMap_kept); (case mhl => decide)) | with_reducible apply Kept.ite | (fail_if_no_progress ((with_reducible apply Kept.upd); (case ho => (refine Only.of (fun p hp => ?_) rfl; cases p <;> first | rfl | (refine absurd ?_ hp; decide))); (case hi => (repeat' first | with_reducible exact IoKept.refl _ | with_reducible apply IoKept.ite | with_reducible apply IoKept.foldl | with_reducible apply IoKept.put | with_reducible apply IoKept.filter | (fail_if_no_progress with_reducible apply IoKept.upd) | intro _ | dsimp only | split)); (case ht => (repeat' first | with_reducible exact T1Kept.refl _ | with_reducible apply T1Kept.ite | with_reducible apply T1Kept.foldl | with_reducible apply T1Kept.put | with_reducible apply T1Kept.filter | (fail_if_no_progress with_reducible apply T1Kept.upd) | intro _ | dsimp only | split)))) | intro _ | dsimp only | split); done))
    | ((with_reducible apply Kept.iteR); case k => ((repeat' first | with_reducible exact Kept.refl _ | ((with_reducible apply Laws.State.complete_kept); (case mhl => decide)) | ((with_reducible apply Laws.State.readInFault_kept); (case mhl => decide)) | ((with_reducible apply Laws.State.runCmd_kept); (case mhl => decide)) | ((with_reducible apply Laws.State.writeMap_kept); (case mhl => decide)) | with_reducible apply Kept.ite | (fail_if_no_progress ((with_reducible apply Kept.upd); (case ho => (refine Only.of (fun p hp => ?_) rfl; cases p <;> first | rfl | (refine absurd ?_ hp; decide))); (case hi => (repeat' first | with_reducible exact IoKept.refl _ | with_reducible apply IoKept.ite | with_reducible apply IoKept.foldl | with_reducible apply IoKept.put | with_reducible apply IoKept.filter | (fail_if_no_progress with_reducible apply IoKept.upd) | intro _ | dsimp only | split)); (case ht => (repeat' first | with_reducible exact T1Kept.refl _ | with_reducible apply T1Kept.ite | with_reducible apply T1Kept.foldl | with_reducible apply T1Kept.put | with_reducible apply T1Kept.filter | (fail_if_no_progress with_reducible apply T1Kept.upd) | intro _ | dsimp only | split)))) | intro _ | dsimp only | split); done))
    | with_reducible apply Kept.ite
    | (fail_if_no_progress ((with_reducible apply Kept.upd); (case ho => (refine Only.of (fun p hp => ?_) rfl; cases p <;> first | rfl | (refine absurd ?_ hp; decide))); (case hi => (repeat' first | with_reducible exact IoKept.refl _ | with_reducible apply IoKept.ite | with_reducible apply IoKept.foldl | with_reducible apply IoKept.put | with_reducible apply IoKept.filter | (fail_if_no_progress with_reducible apply IoKept.upd) | intro _ | dsimp only | split)); (case ht => (repeat' first | with_reducible exact T1Kept.refl _ | with_reducible apply T1Kept.ite | with_reducible apply T1Kept.foldl | with_reducible apply T1Kept.put | with_reducible apply T1Kept.filter | (fail_if_no_progress with_reducible apply T1Kept.upd) | intro _ | dsimp only | split))))
    | intro _
    | dsimp only
    | split

theorem State.badMessage_frame (s : State) (p : Nat) (b : List Byte) : Kept [.io] s (State.badMessage s p b) := by
  unfold State.badMessage
  try dsimp only
  repeat' first
    | with_reducible exact Kept.refl _
    | ((with_reducible apply Laws.State.bump_kept); (case mhl => decide))
    | ((with_reducible apply Laws.State.raise_kept); (case mhl => decide))
    | with_reducible apply Kept.ite
    | intro _
    | dsimp only
    | split
theorem State.badMessage_kept {ml : List StateField} {mz : State} {s : State} {p : Nat} {b : List Byte} (mhl : [.io] ⊆ ml) (mh : Kept ml mz s) : Kept ml mz (State.badMessage s p b) :=
  Kept.after ((State.badMessage_frame s p b).mono mhl) mh

theorem State.refillQueue_frame (s : State) (k : Nat) : Kept [.net] s (State.refillQueue s k) := by
  unfold State.refillQueue
  try dsimp only
  repeat' first
    | with_reducible exact Kept.refl _
    | ((with_reducible apply Laws.State.setTQueue_kept); (case mhl => decide))
    | with_reducible apply Kept.ite
    | (fail_if_no_progress ((with_reducible apply Kept.upd); (case ho => (refine Only.of (fun p hp => ?_) rfl; cases p <;> first | rfl | (refine absurd ?_ hp; decide))); (case hi => exact IoKept.refl _); (case ht => exact T1Kept.refl _)))
    | intro _
    | dsimp only
    | split
theorem State.refillQueue_kept {ml : List StateField} {mz : State} {s : State} {k : Nat} (mhl : [.net] ⊆ ml) (mh : Kept ml mz s) : Kept ml mz (State.refillQueue s k) :=
  Kept.after ((State.refillQueue_frame s k).mono mhl) mh

theorem State.refillPolice_frame (s : State) (k : Nat) : Kept [.net] s (State.refillPolice s k) := by
  unfold State.refillPolice
  try dsimp only
  repeat' first
    | with_reducible exact Kept.refl _
    | with_reducible apply Kept.ite
    | (fail_if_no_progress ((with_reducible apply Kept.upd); (case ho => (refine Only.of (fun p hp => ?_) rfl; cases p <;> first | rfl | (refine absurd ?_ hp; decide))); (case hi => exact IoKept.refl _); (case ht => exact T1Kept.refl _)))
    | intro _
    | dsimp only
    | split
theorem State.refillPolice_kept {ml : List StateField} {mz : State} {s : State} {k : Nat} (mhl : [.net] ⊆ ml) (mh : Kept ml mz s) : Kept ml mz (State.refillPolice s k) :=
  Kept.after ((State.refillPolice_frame s k).mono mhl) mh

theorem State.refillDue_frame (s : State) : Kept [.net] s (State.refillDue s) := by
  unfold State.refillDue
  try dsimp only
  repeat' first
    | with_reducible exact Kept.refl _
    | ((with_reducible apply Laws.State.refillPolice_kept); (case mhl => decide))
    | ((with_reducible apply Laws.State.refillQueue_kept); (case mhl => decide))
    | with_reducible apply Kept.ite
    | with_reducible apply Kept.foldl
    | with_reducible apply Kept.foldlFst
    | with_reducible apply Kept.foldlSnd
    | (fail_if_no_progress ((with_reducible apply Kept.upd); (case ho => (refine Only.of (fun p hp => ?_) rfl; cases p <;> first | rfl | (refine absurd ?_ hp; decide))); (case hi => exact IoKept.refl _); (case ht => exact T1Kept.refl _)))
    | intro _
    | dsimp only
    | split
theorem State.refillDue_kept {ml : List StateField} {mz : State} {s : State} (mhl : [.net] ⊆ ml) (mh : Kept ml mz s) : Kept ml mz (State.refillDue s) :=
  Kept.after ((State.refillDue_frame s).mono mhl) mh

theorem State.policed_frame (s : State) (p : Nat) (b : List Byte) : Kept [.io, .net] s (State.policed s p b).1 := by
  unfold State.policed
  try dsimp only
  repeat' first
    | with_reducible exact Kept.refl _
    | ((with_reducible apply Laws.State.bump_kept); (case mhl => decide))
    | ((with_reducible apply Laws.State.raise_kept); (case mhl => decide))
    | ((with_reducible apply Laws.State.refillDue_kept); (case mhl => decide))
    | ((with_reducible apply Kept.iteL); case k => ((repeat' first | with_reducible exact Kept.refl _ | ((with_reducible apply Laws.State.bump_kept); (case mhl => decide)) | ((with_reducible apply Laws.State.raise_kept); (case mhl => decide)) | ((with_reducible apply Laws.State.refillDue_kept); (case mhl => decide)) | with_reducible apply Kept.ite | (fail_if_no_progress ((with_reducible apply Kept.upd); (case ho => (refine Only.of (fun p hp => ?_) rfl; cases p <;> first | rfl | (refine absurd ?_ hp; decide))); (case hi => (repeat' first | with_reducible exact IoKept.refl _ | with_reducible apply Laws.Io.bump_kept | with_reducible apply Laws.Io.raise_kept | with_reducible apply IoKept.ite | with_reducible apply IoKept.foldl | with_reducible apply IoKept.put | with_reducible apply IoKept.filter | (fail_if_no_progress with_reducible apply IoKept.upd) | intro _ | dsimp only | split)); (case ht => exact T1Kept.refl _))) | intro _ | dsimp only | split); done))
    | ((with_reducible apply Kept.iteR); case k => ((repeat' first | with_reducible exact Kept.refl _ | ((with_reducible apply Laws.State.bump_kept); (case mhl => decide)) | ((with_reducible apply Laws.State.raise_kept); (case mhl => decide)) | ((with_reducible apply Laws.State.refillDue_kept); (case mhl => decide)) | with_reducible apply Kept.ite | (fail_if_no_progress ((with_reducible apply Kept.upd); (case ho => (refine Only.of (fun p hp => ?_) rfl; cases p <;> first | rfl | (refine absurd ?_ hp; decide))); (case hi => (repeat' first | with_reducible exact IoKept.refl _ | with_reducible apply Laws.Io.bump_kept | with_reducible apply Laws.Io.raise_kept | with_reducible apply IoKept.ite | with_reducible apply IoKept.foldl | with_reducible apply IoKept.put | with_reducible apply IoKept.filter | (fail_if_no_progress with_reducible apply IoKept.upd) | intro _ | dsimp only | split)); (case ht => exact T1Kept.refl _))) | intro _ | dsimp only | split); done))
    | with_reducible apply Kept.ite
    | (fail_if_no_progress ((with_reducible apply Kept.upd); (case ho => (refine Only.of (fun p hp => ?_) rfl; cases p <;> first | rfl | (refine absurd ?_ hp; decide))); (case hi => (repeat' first | with_reducible exact IoKept.refl _ | with_reducible apply Laws.Io.bump_kept | with_reducible apply Laws.Io.raise_kept | with_reducible apply IoKept.ite | with_reducible apply IoKept.foldl | with_reducible apply IoKept.put | with_reducible apply IoKept.filter | (fail_if_no_progress with_reducible apply IoKept.upd) | intro _ | dsimp only | split)); (case ht => exact T1Kept.refl _)))
    | intro _
    | dsimp only
    | split
theorem State.policed_kept {ml : List StateField} {mz : State} {s : State} {p : Nat} {b : List Byte} (mhl : [.io, .net] ⊆ ml) (mh : Kept ml mz s) : Kept ml mz (State.policed s p b).1 :=
  Kept.after ((State.policed_frame s p b).mono mhl) mh
theorem State.policed_kept' {ml : List StateField} {mz : State} {s : State} {p : Nat} {b : List Byte} {v0 : State} {v1 : Bool} (mhl : [.io, .net] ⊆ ml) (me : State.policed s p b = (v0, v1)) (mh : Kept ml mz s) : Kept ml mz v0 := by
  have mk := Kept.after ((State.policed_frame s p b).mono mhl) mh
  rw [me] at mk
  exact mk

theorem State.acknowledge_frame (s : State) (a : Arrived) (k : Nat) : Kept [.net] s (State.acknowledge s a k) := by
  unfold State.acknowledge
  try dsimp only
  repeat' first
    | with_reducible exact Kept.refl _
    | ((with_reducible apply Laws.State.send_kept); (case mhl => decide))
    | with_reducible apply Kept.ite
    | intro _
    | dsimp only
    | split
theorem State.acknowledge_kept {ml : List StateField} {mz : State} {s : State} {a : Arrived} {k : Nat} (mhl : [.net] ⊆ ml) (mh : Kept ml mz s) : Kept ml mz (State.acknowledge s a k) :=
  Kept.after ((State.acknowledge_frame s a k).mono mhl) mh

theorem State.toInbox_frame (s : State) (m : Msg) : Kept [.io, .t1, .units, .contexts, .net, .freeIdx] s (State.toInbox s m) := by
  unfold State.toInbox
  try dsimp only
  repeat' first
    | with_reducible exact Kept.refl _
    | ((with_reducible apply Laws.State.bump_kept); (case mhl => decide))
    | ((with_reducible apply Laws.State.redirect_kept); (case mhl => decide))
    | ((with_reducible apply Laws.State.sendAccept_kept); (case mhl => decide))
    | ((with_reducible apply Laws.State.send_kept); (case mhl => decide))
    | ((with_reducible apply Laws.State.serveInbox_kept); (case mhl => decide))
    | ((with_reducible apply Laws.State.setInbox_kept); (case mhl => decide))
    | ((with_reducible apply Kept.iteL); case k => ((repeat' first | with_reducible exact Kept.refl _ | ((with_reducible apply Laws.State.bump_kept); (case mhl => decide)) | ((with_reducible apply Laws.State.redirect_kept); (case mhl => decide)) | ((with_reducible apply Laws.State.sendAccept_kept); (case mhl => decide)) | ((with_reducible apply Laws.State.send_kept); (case mhl => decide)) | ((with_reducible apply Laws.State.serveInbox_kept); (case mhl => decide)) | ((with_reducible apply Laws.State.setInbox_kept); (case mhl => decide)) | with_reducible apply Kept.foldl | with_reducible apply Kept.foldlFst | with_reducible apply Kept.foldlSnd | with_reducible apply Kept.ite | (fail_if_no_progress ((with_reducible apply Kept.upd); (case ho => (refine Only.of (fun p hp => ?_) rfl; cases p <;> first | rfl | (refine absurd ?_ hp; decide))); (case hi => (repeat' first | with_reducible exact IoKept.refl _ | with_reducible apply Laws.Io.bump_kept | with_reducible apply IoKept.ite | with_reducible apply IoKept.foldl | with_reducible apply IoKept.put | with_reducible apply IoKept.filter | (fail_if_no_progress with_reducible apply IoKept.upd) | intro _ | dsimp only | split)); (case ht => (repeat' first | with_reducible exact T1Kept.refl _ | with_reducible apply T1Kept.ite | with_reducible apply T1Kept.foldl | with_reducible apply T1Kept.put | with_reducible apply T1Kept.filter | (fail_if_no_progress with_reducible apply T1Kept.upd) | intro _ | dsimp only | split)))) | intro _ | dsimp only | split); done))
    | ((with_reducible apply Kept.iteR); case k => ((repeat' first | with_reducible exact Kept.refl _ | ((with_reducible apply Laws.State.bump_kept); (case mhl => decide)) | ((with_reducible apply Laws.State.redirect_kept); (case mhl => decide)) | ((with_reducible apply Laws.State.sendAccept_kept); (case mhl => decide)) | ((with_reducible apply Laws.State.send_kept); (case mhl => decide)) | ((with_reducible apply Laws.State.serveInbox_kept); (case mhl => decide)) | ((with_reducible apply Laws.State.setInbox_kept); (case mhl => decide)) | with_reducible apply Kept.foldl | with_reducible apply Kept.foldlFst | with_reducible apply Kept.foldlSnd | with_reducible apply Kept.ite | (fail_if_no_progress ((with_reducible apply Kept.upd); (case ho => (refine Only.of (fun p hp => ?_) rfl; cases p <;> first | rfl | (refine absurd ?_ hp; decide))); (case hi => (repeat' first | with_reducible exact IoKept.refl _ | with_reducible apply Laws.Io.bump_kept | with_reducible apply IoKept.ite | with_reducible apply IoKept.foldl | with_reducible apply IoKept.put | with_reducible apply IoKept.filter | (fail_if_no_progress with_reducible apply IoKept.upd) | intro _ | dsimp only | split)); (case ht => (repeat' first | with_reducible exact T1Kept.refl _ | with_reducible apply T1Kept.ite | with_reducible apply T1Kept.foldl | with_reducible apply T1Kept.put | with_reducible apply T1Kept.filter | (fail_if_no_progress with_reducible apply T1Kept.upd) | intro _ | dsimp only | split)))) | intro _ | dsimp only | split); done))
    | with_reducible apply Kept.ite
    | with_reducible apply Kept.foldl
    | with_reducible apply Kept.foldlFst
    | with_reducible apply Kept.foldlSnd
    | (fail_if_no_progress ((with_reducible apply Kept.upd); (case ho => (refine Only.of (fun p hp => ?_) rfl; cases p <;> first | rfl | (refine absurd ?_ hp; decide))); (case hi => (repeat' first | with_reducible exact IoKept.refl _ | with_reducible apply Laws.Io.bump_kept | with_reducible apply IoKept.ite | with_reducible apply IoKept.foldl | with_reducible apply IoKept.put | with_reducible apply IoKept.filter | (fail_if_no_progress with_reducible apply IoKept.upd) | intro _ | dsimp only | split)); (case ht => (repeat' first | with_reducible exact T1Kept.refl _ | with_reducible apply T1Kept.ite | with_reducible apply T1Kept.foldl | with_reducible apply T1Kept.put | with_reducible apply T1Kept.filter | (fail_if_no_progress with_reducible apply T1Kept.upd) | intro _ | dsimp only | split))))
    | intro _
    | dsimp only
    | split
theorem State.toInbox_kept {ml : List StateField} {mz : State} {s : State} {m : Msg} (mhl : [.io, .t1, .units, .contexts, .net, .freeIdx] ⊆ ml) (mh : Kept ml mz s) : Kept ml mz (State.toInbox s m) :=
  Kept.after ((State.toInbox_frame s m).mono mhl) mh

theorem State.consume_frame (s : State) (p : Nat) (m : Msg) : Kept [.io, .t1, .units, .contexts, .net, .freeIdx] s (State.consume s p m) := by
  unfold State.consume
  try dsimp only
  repeat' first
    | with_reducible exact Kept.refl _
    | ((with_reducible apply Laws.State.bump_kept); (case mhl => decide))
    | ((with_reducible apply Laws.State.raise_kept); (case mhl => decide))
    | ((with_reducible apply Laws.State.toInbox_kept); (case mhl => decide))
    | with_reducible apply Kept.ite
    | intro _
    | dsimp only
    | split
theorem State.consume_kept {ml : List StateField} {mz : State} {s : State} {p : Nat} {m : Msg} (mhl : [.io, .t1, .units, .contexts, .net, .freeIdx] ⊆ ml) (mh : Kept ml mz s) : Kept ml mz (State.consume s p m) :=
  Kept.after ((State.consume_frame s p m).mono mhl) mh

theorem State.takeSegment_frame (s : State) (p k : Nat) (a : Arrived) : Kept [.io, .t1, .units, .contexts, .parts, .net, .freeIdx] s (State.takeSegment s p k a) := by
  unfold State.takeSegment
  try dsimp only
  repeat' first
    | with_reducible exact Kept.refl _
    | ((with_reducible apply Laws.State.consume_kept); (case mhl => decide))
    | ((with_reducible apply Laws.State.setFlow_kept); (case mhl => decide))
    | with_reducible apply Kept.ite
    | with_reducible apply Kept.getD
    | (fail_if_no_progress ((with_reducible apply Kept.upd); (case ho => (refine Only.of (fun p hp => ?_) rfl; cases p <;> first | rfl | (refine absurd ?_ hp; decide))); (case hi => (repeat' first | with_reducible exact IoKept.refl _ | with_reducible apply IoKept.ite | with_reducible apply IoKept.foldl | with_reducible apply IoKept.put | with_reducible apply IoKept.filter | (fail_if_no_progress with_reducible apply IoKept.upd) | intro _ | dsimp only | split)); (case ht => (repeat' first | with_reducible exact T1Kept.refl _ | with_reducible apply T1Kept.ite | with_reducible apply T1Kept.foldl | with_reducible apply T1Kept.put | with_reducible apply T1Kept.filter | (fail_if_no_progress with_reducible apply T1Kept.upd) | intro _ | dsimp only | split))))
    | intro _
    | dsimp only
    | split
theorem State.takeSegment_kept {ml : List StateField} {mz : State} {s : State} {p k : Nat} {a : Arrived} (mhl : [.io, .t1, .units, .contexts, .parts, .net, .freeIdx] ⊆ ml) (mh : Kept ml mz s) : Kept ml mz (State.takeSegment s p k a) :=
  Kept.after ((State.takeSegment_frame s p k a).mono mhl) mh

theorem State.accept_frame (s : State) (p : Nat) (a : Arrived) : Kept [.io, .t1, .shed, .stalls, .units, .ops, .mirrors, .contexts, .answers, .textCache, .parts, .net, .freeIdx] s (State.accept s p a) := by
  unfold State.accept
  try dsimp only
  repeat' first
    | with_reducible exact Kept.refl _
    | ((with_reducible apply Laws.State.acknowledge_kept); (case mhl => decide))
    | ((with_reducible apply Laws.State.bump_kept); (case mhl => decide))
    | ((with_reducible apply Laws.State.hear_kept); (case mhl => decide))
    | ((with_reducible apply Laws.State.setFlow_kept); (case mhl => decide))
    | ((with_reducible apply Laws.State.takeSegment_kept); (case mhl => decide))
    | ((with_reducible apply Kept.iteL); case k => ((repeat' first | with_reducible exact Kept.refl _ | ((with_reducible apply Laws.State.acknowledge_kept); (case mhl => decide)) | ((with_reducible apply Laws.State.bump_kept); (case mhl => decide)) | ((with_reducible apply Laws.State.hear_kept); (case mhl => decide)) | ((with_reducible apply Laws.State.setFlow_kept); (case mhl => decide)) | ((with_reducible apply Laws.State.takeSegment_kept); (case mhl => decide)) | with_reducible apply Kept.ite | (fail_if_no_progress ((with_reducible apply Kept.upd); (case ho => (refine Only.of (fun p hp => ?_) rfl; cases p <;> first | rfl | (refine absurd ?_ hp; decide))); (case hi => (repeat' first | with_reducible exact IoKept.refl _ | with_reducible apply Laws.Io.bump_kept | with_reducible apply IoKept.ite | with_reducible apply IoKept.foldl | with_reducible apply IoKept.put | with_reducible apply IoKept.filter | (fail_if_no_progress with_reducible apply IoKept.upd) | intro _ | dsimp only | split)); (case ht => (repeat' first | with_reducible exact T1Kept.refl _ | with_reducible apply T1Kept.ite | with_reducible apply T1Kept.foldl | with_reducible apply T1Kept.put | with_reducible apply T1Kept.filter | (fail_if_no_progress with_reducible apply T1Kept.upd) | intro _ | dsimp only | split)))) | intro _ | dsimp only | split); done))
    | ((with_reducible apply Kept.iteR); case k => ((repeat' first | with_reducible exact Kept.refl _ | ((with_reducible apply Laws.State.acknowledge_kept); (case mhl => decide)) | ((with_reducible apply Laws.State.bump_kept); (case mhl => decide)) | ((with_reducible apply Laws.State.hear_kept); (case mhl => decide)) | ((with_reducible apply Laws.State.setFlow_kept); (case mhl => decide)) | ((with_reducible apply Laws.State.takeSegment_kept); (case mhl => decide)) | with_reducible apply Kept.ite | (fail_if_no_progress ((with_reducible apply Kept.upd); (case ho => (refine Only.of (fun p hp => ?_) rfl; cases p <;> first | rfl | (refine absurd ?_ hp; decide))); (case hi => (repeat' first | with_reducible exact IoKept.refl _ | with_reducible apply Laws.Io.bump_kept | with_reducible apply IoKept.ite | with_reducible apply IoKept.foldl | with_reducible apply IoKept.put | with_reducible apply IoKept.filter | (fail_if_no_progress with_reducible apply IoKept.upd) | intro _ | dsimp only | split)); (case ht => (repeat' first | with_reducible exact T1Kept.refl _ | with_reducible apply T1Kept.ite | with_reducible apply T1Kept.foldl | with_reducible apply T1Kept.put | with_reducible apply T1Kept.filter | (fail_if_no_progress with_reducible apply T1Kept.upd) | intro _ | dsimp only | split)))) | intro _ | dsimp only | split); done))
    | with_reducible apply Kept.ite
    | (fail_if_no_progress ((with_reducible apply Kept.upd); (case ho => (refine Only.of (fun p hp => ?_) rfl; cases p <;> first | rfl | (refine absurd ?_ hp; decide))); (case hi => (repeat' first | with_reducible exact IoKept.refl _ | with_reducible apply Laws.Io.bump_kept | with_reducible apply IoKept.ite | with_reducible apply IoKept.foldl | with_reducible apply IoKept.put | with_reducible apply IoKept.filter | (fail_if_no_progress with_reducible apply IoKept.upd) | intro _ | dsimp only | split)); (case ht => (repeat' first | with_reducible exact T1Kept.refl _ | with_reducible apply T1Kept.ite | with_reducible apply T1Kept.foldl | with_reducible apply T1Kept.put | with_reducible apply T1Kept.filter | (fail_if_no_progress with_reducible apply T1Kept.upd) | intro _ | dsimp only | split))))
    | intro _
    | dsimp only
    | split
theorem State.accept_kept {ml : List StateField} {mz : State} {s : State} {p : Nat} {a : Arrived} (mhl : [.io, .t1, .shed, .stalls, .units, .ops, .mirrors, .contexts, .answers, .textCache, .parts, .net, .freeIdx] ⊆ ml) (mh : Kept ml mz s) : Kept ml mz (State.accept s p a) :=
  Kept.after ((State.accept_frame s p a).mono mhl) mh

theorem execMstDatagramReceive_kept (p : Nat) (b : List Byte) (s : State) : ∃ out, execMstDatagramReceive p b s = .next out ∧ Kept [.io, .t1, .shed, .stalls, .units, .ops, .mirrors, .contexts, .answers, .textCache, .parts, .net, .freeIdx] s out := by
  unfold execMstDatagramReceive
  try dsimp only
  refine ⟨_, rfl, ?_⟩
  try dsimp only
  repeat' first
    | with_reducible exact Kept.refl _
    | ((with_reducible apply Laws.State.accept_kept); (case mhl => decide))
    | ((with_reducible apply Laws.State.badMessage_kept); (case mhl => decide))
    | ((with_reducible apply Laws.State.bump_kept); (case mhl => decide))
    | ((with_reducible apply Laws.State.policed_kept' ?mhl (by assumption)); (case mhl => decide))
    | ((with_reducible apply Laws.State.policed_kept); (case mhl => decide))
    | ((with_reducible apply Kept.iteL); case k => ((repeat' first | with_reducible exact Kept.refl _ | ((with_reducible apply Laws.State.accept_kept); (case mhl => decide)) | ((with_reducible apply Laws.State.badMessage_kept); (case mhl => decide)) | ((with_reducible apply Laws.State.bump_kept); (case mhl => decide)) | ((with_reducible apply Laws.State.policed_kept' ?mhl (by assumption)); (case mhl => decide)) | ((with_reducible apply Laws.State.policed_kept); (case mhl => decide)) | with_reducible apply Kept.ite | (fail_if_no_progress ((with_reducible apply Kept.upd); (case ho => (refine Only.of (fun p hp => ?_) rfl; cases p <;> first | rfl | (refine absurd ?_ hp; decide))); (case hi => (repeat' first | with_reducible exact IoKept.refl _ | with_reducible apply Laws.Io.bump_kept | with_reducible apply IoKept.ite | with_reducible apply IoKept.foldl | with_reducible apply IoKept.put | with_reducible apply IoKept.filter | (fail_if_no_progress with_reducible apply IoKept.upd) | intro _ | dsimp only | split)); (case ht => (repeat' first | with_reducible exact T1Kept.refl _ | with_reducible apply T1Kept.ite | with_reducible apply T1Kept.foldl | with_reducible apply T1Kept.put | with_reducible apply T1Kept.filter | (fail_if_no_progress with_reducible apply T1Kept.upd) | intro _ | dsimp only | split)))) | intro _ | dsimp only | split); done))
    | ((with_reducible apply Kept.iteR); case k => ((repeat' first | with_reducible exact Kept.refl _ | ((with_reducible apply Laws.State.accept_kept); (case mhl => decide)) | ((with_reducible apply Laws.State.badMessage_kept); (case mhl => decide)) | ((with_reducible apply Laws.State.bump_kept); (case mhl => decide)) | ((with_reducible apply Laws.State.policed_kept' ?mhl (by assumption)); (case mhl => decide)) | ((with_reducible apply Laws.State.policed_kept); (case mhl => decide)) | with_reducible apply Kept.ite | (fail_if_no_progress ((with_reducible apply Kept.upd); (case ho => (refine Only.of (fun p hp => ?_) rfl; cases p <;> first | rfl | (refine absurd ?_ hp; decide))); (case hi => (repeat' first | with_reducible exact IoKept.refl _ | with_reducible apply Laws.Io.bump_kept | with_reducible apply IoKept.ite | with_reducible apply IoKept.foldl | with_reducible apply IoKept.put | with_reducible apply IoKept.filter | (fail_if_no_progress with_reducible apply IoKept.upd) | intro _ | dsimp only | split)); (case ht => (repeat' first | with_reducible exact T1Kept.refl _ | with_reducible apply T1Kept.ite | with_reducible apply T1Kept.foldl | with_reducible apply T1Kept.put | with_reducible apply T1Kept.filter | (fail_if_no_progress with_reducible apply T1Kept.upd) | intro _ | dsimp only | split)))) | intro _ | dsimp only | split); done))
    | with_reducible apply Kept.ite
    | (fail_if_no_progress ((with_reducible apply Kept.upd); (case ho => (refine Only.of (fun p hp => ?_) rfl; cases p <;> first | rfl | (refine absurd ?_ hp; decide))); (case hi => (repeat' first | with_reducible exact IoKept.refl _ | with_reducible apply Laws.Io.bump_kept | with_reducible apply IoKept.ite | with_reducible apply IoKept.foldl | with_reducible apply IoKept.put | with_reducible apply IoKept.filter | (fail_if_no_progress with_reducible apply IoKept.upd) | intro _ | dsimp only | split)); (case ht => (repeat' first | with_reducible exact T1Kept.refl _ | with_reducible apply T1Kept.ite | with_reducible apply T1Kept.foldl | with_reducible apply T1Kept.put | with_reducible apply T1Kept.filter | (fail_if_no_progress with_reducible apply T1Kept.upd) | intro _ | dsimp only | split))))
    | intro _
    | dsimp only
    | split

theorem execAckReceived_kept (m : Msg) (s : State) : ∃ out, execAckReceived m s = .next out ∧ Kept [.io, .t1, .shed, .stalls, .ops, .mirrors, .answers, .textCache, .net] s out := by
  unfold execAckReceived
  try dsimp only
  refine ⟨_, rfl, ?_⟩
  try dsimp only
  repeat' first
    | with_reducible exact Kept.refl _
    | ((with_reducible apply Laws.State.hear_kept); (case mhl => decide))
    | ((with_reducible apply Laws.State.pump_kept); (case mhl => decide))
    | ((with_reducible apply Laws.State.setFlow_kept); (case mhl => decide))
    | ((with_reducible apply Laws.State.unqueue_kept); (case mhl => decide))
    | with_reducible apply Kept.ite
    | (fail_if_no_progress ((with_reducible apply Kept.upd); (case ho => (refine Only.of (fun p hp => ?_) rfl; cases p <;> first | rfl | (refine absurd ?_ hp; decide))); (case hi => (repeat' first | with_reducible exact IoKept.refl _ | with_reducible apply IoKept.ite | with_reducible apply IoKept.foldl | with_reducible apply IoKept.put | with_reducible apply IoKept.filter | (fail_if_no_progress with_reducible apply IoKept.upd) | intro _ | dsimp only | split)); (case ht => (repeat' first | with_reducible exact T1Kept.refl _ | with_reducible apply T1Kept.ite | with_reducible apply T1Kept.foldl | with_reducible apply T1Kept.put | with_reducible apply T1Kept.filter | (fail_if_no_progress with_reducible apply T1Kept.upd) | intro _ | dsimp only | split))))
    | intro _
    | dsimp only
    | split

theorem execAcceptReceived_kept (m : Msg) (s : State) : ∃ out, execAcceptReceived m s = .next out ∧ Kept [.io, .t1, .shed, .stalls, .ops, .mirrors, .answers, .textCache, .net] s out := by
  unfold execAcceptReceived
  try dsimp only
  refine ⟨_, rfl, ?_⟩
  try dsimp only
  repeat' first
    | with_reducible exact Kept.refl _
    | ((with_reducible apply Laws.State.hear_kept); (case mhl => decide))
    | with_reducible apply Kept.ite
    | (fail_if_no_progress ((with_reducible apply Kept.upd); (case ho => (refine Only.of (fun p hp => ?_) rfl; cases p <;> first | rfl | (refine absurd ?_ hp; decide))); (case hi => (repeat' first | with_reducible exact IoKept.refl _ | with_reducible apply IoKept.ite | with_reducible apply IoKept.foldl | with_reducible apply IoKept.put | with_reducible apply IoKept.filter | (fail_if_no_progress with_reducible apply IoKept.upd) | intro _ | dsimp only | split)); (case ht => (repeat' first | with_reducible exact T1Kept.refl _ | with_reducible apply T1Kept.ite | with_reducible apply T1Kept.foldl | with_reducible apply T1Kept.put | with_reducible apply T1Kept.filter | (fail_if_no_progress with_reducible apply T1Kept.upd) | intro _ | dsimp only | split))))
    | intro _
    | dsimp only
    | split

theorem execRetransmitTimer_kept (k q : Nat) (s : State) : ∃ out, execRetransmitTimer k q s = .next out ∧ Kept [.net] s out := by
  unfold execRetransmitTimer
  try dsimp only
  refine ⟨_, rfl, ?_⟩
  try dsimp only
  repeat' first
    | with_reducible exact Kept.refl _
    | ((with_reducible apply Laws.State.enqueue_kept); (case mhl => decide))
    | with_reducible apply Kept.ite
    | (fail_if_no_progress ((with_reducible apply Kept.upd); (case ho => (refine Only.of (fun p hp => ?_) rfl; cases p <;> first | rfl | (refine absurd ?_ hp; decide))); (case hi => exact IoKept.refl _); (case ht => exact T1Kept.refl _)))
    | intro _
    | dsimp only
    | split

theorem execAcceptTimer_kept (k : Nat) (s : State) : ∃ out, execAcceptTimer k s = .next out ∧ Kept [.net] s out := by
  unfold execAcceptTimer
  try dsimp only
  refine ⟨_, rfl, ?_⟩
  try dsimp only
  repeat' first
    | with_reducible exact Kept.refl _
    | ((with_reducible apply Laws.State.send_kept); (case mhl => decide))
    | with_reducible apply Kept.ite
    | (fail_if_no_progress ((with_reducible apply Kept.upd); (case ho => (refine Only.of (fun p hp => ?_) rfl; cases p <;> first | rfl | (refine absurd ?_ hp; decide))); (case hi => exact IoKept.refl _); (case ht => exact T1Kept.refl _)))
    | intro _
    | dsimp only
    | split

theorem execEndpointTimeout_kept (t : Nat) (tool : Bool) (s : State) : ∃ out, execEndpointTimeout t tool s = .next out ∧ Kept [.io, .net] s out := by
  unfold execEndpointTimeout
  try dsimp only
  refine ⟨_, rfl, ?_⟩
  try dsimp only
  repeat' first
    | with_reducible exact Kept.refl _
    | ((with_reducible apply Laws.State.raise_kept); (case mhl => decide))
    | ((with_reducible apply Laws.State.resetFlow_kept); (case mhl => decide))
    | with_reducible apply Kept.ite
    | intro _
    | dsimp only
    | split

theorem State.writeFlowSel_frame (s : State) (w : RegWrite) : Kept [.io] s (State.writeFlowSel s w) := by
  unfold State.writeFlowSel
  try dsimp only
  repeat' first
    | with_reducible exact Kept.refl _
    | ((with_reducible apply Laws.State.fromPort_kept); (case mhl => decide))
    | ((with_reducible apply Laws.State.put_kept); (case mhl => decide))
    | ((with_reducible apply Laws.State.store_kept); (case mhl => decide))
    | with_reducible apply Kept.ite
    | intro _
    | dsimp only
    | split
theorem State.writeFlowSel_kept {ml : List StateField} {mz : State} {s : State} {w : RegWrite} (mhl : [.io] ⊆ ml) (mh : Kept ml mz s) : Kept ml mz (State.writeFlowSel s w) :=
  Kept.after ((State.writeFlowSel_frame s w).mono mhl) mh

theorem execNwFlowSelWrite_kept (w : RegWrite) (s : State) : ∃ out, execNwFlowSelWrite w s = .next out ∧ Kept [.io] s out := by
  unfold execNwFlowSelWrite
  try dsimp only
  refine ⟨_, rfl, ?_⟩
  try dsimp only
  repeat' first
    | with_reducible exact Kept.refl _
    | ((with_reducible apply Laws.State.writeFlowSel_kept); (case mhl => decide))
    | with_reducible apply Kept.ite
    | intro _
    | dsimp only
    | split

theorem execWaggleReceived_kept (m : Msg) (s : State) : ∃ out, execWaggleReceived m s = .next out ∧ Kept [.io, .t1, .shed, .stalls, .ops, .mirrors, .answers, .textCache, .rounds, .net] s out := by
  unfold execWaggleReceived
  try dsimp only
  refine ⟨_, rfl, ?_⟩
  try dsimp only
  repeat' first
    | with_reducible exact Kept.refl _
    | ((with_reducible apply Laws.State.hear_kept); (case mhl => decide))
    | ((with_reducible apply Laws.State.raise_kept); (case mhl => decide))
    | ((with_reducible apply Laws.State.sendDevice_kept); (case mhl => decide))
    | with_reducible apply Kept.ite
    | (fail_if_no_progress ((with_reducible apply Kept.upd); (case ho => (refine Only.of (fun p hp => ?_) rfl; cases p <;> first | rfl | (refine absurd ?_ hp; decide))); (case hi => (repeat' first | with_reducible exact IoKept.refl _ | with_reducible apply Laws.Io.raise_kept | with_reducible apply IoKept.ite | with_reducible apply IoKept.foldl | with_reducible apply IoKept.put | with_reducible apply IoKept.filter | (fail_if_no_progress with_reducible apply IoKept.upd) | intro _ | dsimp only | split)); (case ht => (repeat' first | with_reducible exact T1Kept.refl _ | with_reducible apply T1Kept.ite | with_reducible apply T1Kept.foldl | with_reducible apply T1Kept.put | with_reducible apply T1Kept.filter | (fail_if_no_progress with_reducible apply T1Kept.upd) | intro _ | dsimp only | split))))
    | intro _
    | dsimp only
    | split

theorem execWaggleRefuseReceived_kept (m : Msg) (s : State) : ∃ out, execWaggleRefuseReceived m s = .next out ∧ Kept [.io, .t1, .shed, .stalls, .ops, .mirrors, .answers, .textCache, .net] s out := by
  unfold execWaggleRefuseReceived
  try dsimp only
  refine ⟨_, rfl, ?_⟩
  try dsimp only
  repeat' first
    | with_reducible exact Kept.refl _
    | ((with_reducible apply Laws.State.hear_kept); (case mhl => decide))
    | with_reducible apply Kept.ite
    | (fail_if_no_progress ((with_reducible apply Kept.upd); (case ho => (refine Only.of (fun p hp => ?_) rfl; cases p <;> first | rfl | (refine absurd ?_ hp; decide))); (case hi => (repeat' first | with_reducible exact IoKept.refl _ | with_reducible apply IoKept.ite | with_reducible apply IoKept.foldl | with_reducible apply IoKept.put | with_reducible apply IoKept.filter | (fail_if_no_progress with_reducible apply IoKept.upd) | intro _ | dsimp only | split)); (case ht => (repeat' first | with_reducible exact T1Kept.refl _ | with_reducible apply T1Kept.ite | with_reducible apply T1Kept.foldl | with_reducible apply T1Kept.put | with_reducible apply T1Kept.filter | (fail_if_no_progress with_reducible apply T1Kept.upd) | intro _ | dsimp only | split))))
    | intro _
    | dsimp only
    | split

end Sys2Proof.Laws
end

