-- ==== Sys2Proof/Laws/KeptTraffic.lean ====
section
/-! SUPPORT. The frame lemma of every operation of Machine/Traffic.lean: which fields of the state it may change, and that it keeps the canonical
forms. -/

set_option Elab.async false
set_option linter.unusedTactic false
set_option linter.unreachableTactic false
set_option linter.unusedVariables false

namespace Sys2Proof.Laws

open Sys2Proof Sys2Proof.Machine Sys2Proof.Safety

theorem State.useKey_frame (s : State) (k : Nat) : Kept [.io, .sec] s (State.useKey s k) := by
  unfold State.useKey
  try dsimp only
  repeat' first
    | with_reducible exact Kept.refl _
    | ((with_reducible apply Laws.State.bump_kept); (case mhl => decide))
    | ((with_reducible apply Laws.State.raise_kept); (case mhl => decide))
    | ((with_reducible apply Laws.State.setSec_kept); (case mhl => decide))
    | with_reducible apply Kept.ite
    | (fail_if_no_progress ((with_reducible apply Kept.upd); (case ho => (refine Only.of (fun p hp => ?_) rfl; cases p <;> first | rfl | (refine absurd ?_ hp; decide))); (case hi => (repeat' first | with_reducible exact IoKept.refl _ | with_reducible apply Laws.Io.bump_kept | with_reducible apply Laws.Io.raise_kept | with_reducible apply IoKept.ite | with_reducible apply IoKept.foldl | with_reducible apply IoKept.put | with_reducible apply IoKept.filter | (fail_if_no_progress with_reducible apply IoKept.upd) | intro _ | dsimp only | split)); (case ht => exact T1Kept.refl _)))
    | intro _
    | dsimp only
    | split
theorem State.useKey_kept {ml : List StateField} {mz : State} {s : State} {k : Nat} (mhl : [.io, .sec] ⊆ ml) (mh : Kept ml mz s) : Kept ml mz (State.useKey s k) :=
  Kept.after ((State.useKey_frame s k).mono mhl) mh

theorem State.sealDatagram_frame (s : State) (d : Datagram) : Kept [.freeIdx] s (State.sealDatagram s d).2 := by
  unfold State.sealDatagram
  try dsimp only
  repeat' first
    | with_reducible exact Kept.refl _
    | ((with_reducible apply Laws.State.drawBytes_kept' ?mhl (by assumption)); (case mhl => decide))
    | ((with_reducible apply Laws.State.drawBytes_kept); (case mhl => decide))
    | with_reducible apply Kept.ite
    | (fail_if_no_progress ((with_reducible apply Kept.upd); (case ho => (refine Only.of (fun p hp => ?_) rfl; cases p <;> first | rfl | (refine absurd ?_ hp; decide))); (case hi => exact IoKept.refl _); (case ht => exact T1Kept.refl _)))
    | intro _
    | dsimp only
    | split
theorem State.sealDatagram_kept {ml : List StateField} {mz : State} {s : State} {d : Datagram} (mhl : [.freeIdx] ⊆ ml) (mh : Kept ml mz s) : Kept ml mz (State.sealDatagram s d).2 :=
  Kept.after ((State.sealDatagram_frame s d).mono mhl) mh
theorem State.sealDatagram_kept' {ml : List StateField} {mz : State} {s : State} {d : Datagram} {v0 : List Byte} {v1 : State} (mhl : [.freeIdx] ⊆ ml) (me : State.sealDatagram s d = (v0, v1)) (mh : Kept ml mz s) : Kept ml mz v1 := by
  have mk := Kept.after ((State.sealDatagram_frame s d).mono mhl) mh
  rw [me] at mk
  exact mk

theorem State.transmit_frame (s : State) (p : Nat) (d : Datagram) : Kept [.io, .net, .sec, .freeIdx] s (State.transmit s p d) := by
  unfold State.transmit
  try dsimp only
  repeat' first
    | with_reducible exact Kept.refl _
    | ((with_reducible apply Laws.State.bump_kept); (case mhl => decide))
    | ((with_reducible apply Laws.State.emit_kept); (case mhl => decide))
    | ((with_reducible apply Laws.State.sealDatagram_kept' ?mhl (by assumption)); (case mhl => decide))
    | ((with_reducible apply Laws.State.sealDatagram_kept); (case mhl => decide))
    | ((with_reducible apply Laws.State.updDatagram_kept); (case mhl => decide))
    | ((with_reducible apply Laws.State.useKey_kept); (case mhl => decide))
    | with_reducible apply Kept.ite
    | (fail_if_no_progress ((with_reducible apply Kept.upd); (case ho => (refine Only.of (fun p hp => ?_) rfl; cases p <;> first | rfl | (refine absurd ?_ hp; decide))); (case hi => (repeat' first | with_reducible exact IoKept.refl _ | with_reducible apply Laws.Io.bump_kept | with_reducible apply Laws.Io.emit_kept | with_reducible apply IoKept.ite | with_reducible apply IoKept.foldl | with_reducible apply IoKept.put | with_reducible apply IoKept.filter | (fail_if_no_progress with_reducible apply IoKept.upd) | intro _ | dsimp only | split)); (case ht => exact T1Kept.refl _)))
    | intro _
    | dsimp only
    | split
theorem State.transmit_kept {ml : List StateField} {mz : State} {s : State} {p : Nat} {d : Datagram} (mhl : [.io, .net, .sec, .freeIdx] ⊆ ml) (mh : Kept ml mz s) : Kept ml mz (State.transmit s p d) :=
  Kept.after ((State.transmit_frame s p d).mono mhl) mh

theorem State.setGate_frame (s : State) (p : Nat) (g : GateX) : Kept [.net] s (State.setGate s p g) := by
  unfold State.setGate
  try dsimp only
  repeat' first
    | with_reducible exact Kept.refl _
    | with_reducible apply Kept.ite
    | (fail_if_no_progress ((with_reducible apply Kept.upd); (case ho => (refine Only.of (fun p hp => ?_) rfl; cases p <;> first | rfl | (refine absurd ?_ hp; decide))); (case hi => exact IoKept.refl _); (case ht => exact T1Kept.refl _)))
    | intro _
    | dsimp only
    | split
theorem State.setGate_kept {ml : List StateField} {mz : State} {s : State} {p : Nat} {g : GateX} (mhl : [.net] ⊆ ml) (mh : Kept ml mz s) : Kept ml mz (State.setGate s p g) :=
  Kept.after ((State.setGate_frame s p g).mono mhl) mh

theorem State.sendHead_frame (s : State) (p k : Nat) (inside : Bool) : Kept [.io, .net, .sec, .freeIdx] s (State.sendHead s p k inside) := by
  unfold State.sendHead
  try dsimp only
  repeat' first
    | with_reducible exact Kept.refl _
    | ((with_reducible apply Laws.State.setItems_kept); (case mhl => decide))
    | ((with_reducible apply Laws.State.setTQueue_kept); (case mhl => decide))
    | ((with_reducible apply Laws.State.transmit_kept); (case mhl => decide))
    | with_reducible apply Kept.ite
    | with_reducible apply Kept.getD
    | (fail_if_no_progress ((with_reducible apply Kept.upd); (case ho => (refine Only.of (fun p hp => ?_) rfl; cases p <;> first | rfl | (refine absurd ?_ hp; decide))); (case hi => (repeat' first | with_reducible exact IoKept.refl _ | with_reducible apply IoKept.ite | with_reducible apply IoKept.foldl | with_reducible apply IoKept.put | with_reducible apply IoKept.filter | (fail_if_no_progress with_reducible apply IoKept.upd) | intro _ | dsimp only | split)); (case ht => exact T1Kept.refl _)))
    | intro _
    | dsimp only
    | split
theorem State.sendHead_kept {ml : List StateField} {mz : State} {s : State} {p k : Nat} {inside : Bool} (mhl : [.io, .net, .sec, .freeIdx] ⊆ ml) (mh : Kept ml mz s) : Kept ml mz (State.sendHead s p k inside) :=
  Kept.after ((State.sendHead_frame s p k inside).mono mhl) mh

theorem execPortTransmit_kept (p : Nat) (s : State) : ∃ out, execPortTransmit p s = .next out ∧ Kept [.io, .net, .sec, .freeIdx] s out := by
  unfold execPortTransmit
  try dsimp only
  refine ⟨_, rfl, ?_⟩
  try dsimp only
  repeat' first
    | with_reducible exact Kept.refl _
    | ((with_reducible apply Laws.State.sendHead_kept); (case mhl => decide))
    | ((with_reducible apply Laws.State.setControl_kept); (case mhl => decide))
    | ((with_reducible apply Laws.State.transmit_kept); (case mhl => decide))
    | with_reducible apply Kept.ite
    | (fail_if_no_progress ((with_reducible apply Kept.upd); (case ho => (refine Only.of (fun p hp => ?_) rfl; cases p <;> first | rfl | (refine absurd ?_ hp; decide))); (case hi => (repeat' first | with_reducible exact IoKept.refl _ | with_reducible apply IoKept.ite | with_reducible apply IoKept.foldl | with_reducible apply IoKept.put | with_reducible apply IoKept.filter | (fail_if_no_progress with_reducible apply IoKept.upd) | intro _ | dsimp only | split)); (case ht => exact T1Kept.refl _)))
    | intro _
    | dsimp only
    | split

theorem execTsRefillTick_kept (s : State) : ∃ out, execTsRefillTick s = .next out ∧ Kept [.net] s out := by
  unfold execTsRefillTick
  try dsimp only
  refine ⟨_, rfl, ?_⟩
  try dsimp only
  repeat' first
    | with_reducible exact Kept.refl _
    | ((with_reducible apply Laws.State.refillDue_kept); (case mhl => decide))
    | with_reducible apply Kept.ite
    | intro _
    | dsimp only
    | split

theorem State.writeRate_frame (s : State) (w : RegWrite) (p t c : Nat) (depth : Bool) : Kept [.io, .net] s (State.writeRate s w p t c depth) := by
  unfold State.writeRate
  try dsimp only
  repeat' first
    | with_reducible exact Kept.refl _
    | ((with_reducible apply Laws.State.fromPort_kept); (case mhl => decide))
    | ((with_reducible apply Laws.State.refillDue_kept); (case mhl => decide))
    | ((with_reducible apply Laws.State.store_kept); (case mhl => decide))
    | with_reducible apply Kept.ite
    | intro _
    | dsimp only
    | split
theorem State.writeRate_kept {ml : List StateField} {mz : State} {s : State} {w : RegWrite} {p t c : Nat} {depth : Bool} (mhl : [.io, .net] ⊆ ml) (mh : Kept ml mz s) : Kept ml mz (State.writeRate s w p t c depth) :=
  Kept.after ((State.writeRate_frame s w p t c depth).mono mhl) mh

theorem execTsRateWrite_kept (w : RegWrite) (p t k : Nat) (depth : Bool) (s : State) : ∃ out, execTsRateWrite w p t k depth s = .next out ∧ Kept [.io, .net] s out := by
  unfold execTsRateWrite
  try dsimp only
  refine ⟨_, rfl, ?_⟩
  try dsimp only
  repeat' first
    | with_reducible exact Kept.refl _
    | ((with_reducible apply Laws.State.writeRate_kept); (case mhl => decide))
    | with_reducible apply Kept.ite
    | intro _
    | dsimp only
    | split

theorem State.gateTakeover_frame (s : State) (p : Nat) : Kept [.io, .net] s (State.gateTakeover s p) := by
  unfold State.gateTakeover
  try dsimp only
  repeat' first
    | with_reducible exact Kept.refl _
    | ((with_reducible apply Laws.State.put_kept); (case mhl => decide))
    | ((with_reducible apply Laws.State.raise_kept); (case mhl => decide))
    | ((with_reducible apply Laws.State.setGate_kept); (case mhl => decide))
    | with_reducible apply Kept.ite
    | with_reducible apply Kept.getD
    | intro _
    | dsimp only
    | split
theorem State.gateTakeover_kept {ml : List StateField} {mz : State} {s : State} {p : Nat} (mhl : [.io, .net] ⊆ ml) (mh : Kept ml mz s) : Kept ml mz (State.gateTakeover s p) :=
  Kept.after ((State.gateTakeover_frame s p).mono mhl) mh

theorem State.writeGateCtrl_frame (s : State) (w : RegWrite) (p : Nat) : Kept [.io, .net] s (State.writeGateCtrl s w p) := by
  unfold State.writeGateCtrl
  try dsimp only
  repeat' first
    | with_reducible exact Kept.refl _
    | ((with_reducible apply Laws.State.fromPort_kept); (case mhl => decide))
    | ((with_reducible apply Laws.State.gateTakeover_kept); (case mhl => decide))
    | ((with_reducible apply Laws.State.put_kept); (case mhl => decide))
    | ((with_reducible apply Laws.State.raise_kept); (case mhl => decide))
    | ((with_reducible apply Laws.State.store_kept); (case mhl => decide))
    | ((with_reducible apply Kept.iteL); case k => ((repeat' first | with_reducible exact Kept.refl _ | ((with_reducible apply Laws.State.fromPort_kept); (case mhl => decide)) | ((with_reducible apply Laws.State.gateTakeover_kept); (case mhl => decide)) | ((with_reducible apply Laws.State.put_kept); (case mhl => decide)) | ((with_reducible apply Laws.State.raise_kept); (case mhl => decide)) | ((with_reducible apply Laws.State.store_kept); (case mhl => decide)) | with_reducible apply Kept.ite | intro _ | dsimp only | split); done))
    | ((with_reducible apply Kept.iteR); case k => ((repeat' first | with_reducible exact Kept.refl _ | ((with_reducible apply Laws.State.fromPort_kept); (case mhl => decide)) | ((with_reducible apply Laws.State.gateTakeover_kept); (case mhl => decide)) | ((with_reducible apply Laws.State.put_kept); (case mhl => decide)) | ((with_reducible apply Laws.State.raise_kept); (case mhl => decide)) | ((with_reducible apply Laws.State.store_kept); (case mhl => decide)) | with_reducible apply Kept.ite | intro _ | dsimp only | split); done))
    | with_reducible apply Kept.ite
    | intro _
    | dsimp only
    | split
theorem State.writeGateCtrl_kept {ml : List StateField} {mz : State} {s : State} {w : RegWrite} {p : Nat} (mhl : [.io, .net] ⊆ ml) (mh : Kept ml mz s) : Kept ml mz (State.writeGateCtrl s w p) :=
  Kept.after ((State.writeGateCtrl_frame s w p).mono mhl) mh

theorem execGateLoad_kept (w : RegWrite) (p : Nat) (s : State) : ∃ out, execGateLoad w p s = .next out ∧ Kept [.io, .net] s out := by
  unfold execGateLoad
  try dsimp only
  refine ⟨_, rfl, ?_⟩
  try dsimp only
  repeat' first
    | with_reducible exact Kept.refl _
    | ((with_reducible apply Laws.State.writeGateCtrl_kept); (case mhl => decide))
    | with_reducible apply Kept.ite
    | intro _
    | dsimp only
    | split

theorem execGateCancel_kept (w : RegWrite) (p : Nat) (s : State) : ∃ out, execGateCancel w p s = .next out ∧ Kept [.io, .net] s out := by
  unfold execGateCancel
  try dsimp only
  refine ⟨_, rfl, ?_⟩
  try dsimp only
  repeat' first
    | with_reducible exact Kept.refl _
    | ((with_reducible apply Laws.State.writeGateCtrl_kept); (case mhl => decide))
    | with_reducible apply Kept.ite
    | intro _
    | dsimp only
    | split

theorem execGateTakeover_kept (p : Nat) (s : State) : ∃ out, execGateTakeover p s = .next out ∧ Kept [.io, .net] s out := by
  unfold execGateTakeover
  try dsimp only
  refine ⟨_, rfl, ?_⟩
  try dsimp only
  repeat' first
    | with_reducible exact Kept.refl _
    | ((with_reducible apply Laws.State.gateTakeover_kept); (case mhl => decide))
    | with_reducible apply Kept.ite
    | intro _
    | dsimp only
    | split

theorem execGateEntryBoundary_kept (p : Nat) (s : State) : ∃ out, execGateEntryBoundary p s = .next out ∧ Kept [.io] s out := by
  unfold execGateEntryBoundary
  try dsimp only
  refine ⟨_, rfl, ?_⟩
  try dsimp only
  repeat' first
    | with_reducible exact Kept.refl _
    | ((with_reducible apply Laws.State.put_kept); (case mhl => decide))
    | with_reducible apply Kept.ite
    | (fail_if_no_progress ((with_reducible apply Kept.upd); (case ho => (refine Only.of (fun p hp => ?_) rfl; cases p <;> first | rfl | (refine absurd ?_ hp; decide))); (case hi => (repeat' first | with_reducible exact IoKept.refl _ | with_reducible apply Laws.Io.put_kept | with_reducible apply IoKept.ite | with_reducible apply IoKept.foldl | with_reducible apply IoKept.put | with_reducible apply IoKept.filter | (fail_if_no_progress with_reducible apply IoKept.upd) | intro _ | dsimp only | split)); (case ht => exact T1Kept.refl _)))
    | intro _
    | dsimp only
    | split

theorem State.resume_frame (s : State) : Kept [.net] s (State.resume s) := by
  unfold State.resume
  try dsimp only
  repeat' first
    | with_reducible exact Kept.refl _
    | ((with_reducible apply Laws.State.enqueue_kept); (case mhl => decide))
    | with_reducible apply Kept.ite
    | with_reducible apply Kept.foldl
    | with_reducible apply Kept.foldlFst
    | with_reducible apply Kept.foldlSnd
    | intro _
    | dsimp only
    | split
theorem State.resume_kept {ml : List StateField} {mz : State} {s : State} (mhl : [.net] ⊆ ml) (mh : Kept ml mz s) : Kept ml mz (State.resume s) :=
  Kept.after ((State.resume_frame s).mono mhl) mh

theorem State.moveOff_frame (s : State) (p : Nat) : Kept [.net] s (State.moveOff s p) := by
  unfold State.moveOff
  try dsimp only
  repeat' first
    | with_reducible exact Kept.refl _
    | ((with_reducible apply Laws.State.enqueue_kept); (case mhl => decide))
    | ((with_reducible apply Laws.State.setControl_kept); (case mhl => decide))
    | ((with_reducible apply Laws.State.setItems_kept); (case mhl => decide))
    | ((with_reducible apply Laws.State.updDatagram_kept); (case mhl => decide))
    | with_reducible apply Kept.ite
    | with_reducible apply Kept.foldl
    | with_reducible apply Kept.foldlFst
    | with_reducible apply Kept.foldlSnd
    | (fail_if_no_progress ((with_reducible apply Kept.upd); (case ho => (refine Only.of (fun p hp => ?_) rfl; cases p <;> first | rfl | (refine absurd ?_ hp; decide))); (case hi => exact IoKept.refl _); (case ht => exact T1Kept.refl _)))
    | intro _
    | dsimp only
    | split
theorem State.moveOff_kept {ml : List StateField} {mz : State} {s : State} {p : Nat} (mhl : [.net] ⊆ ml) (mh : Kept ml mz s) : Kept ml mz (State.moveOff s p) :=
  Kept.after ((State.moveOff_frame s p).mono mhl) mh

theorem State.linkLost_frame (s : State) (p : Nat) (train : Bool) : Kept [.io, .net] s (State.linkLost s p train) := by
  unfold State.linkLost
  try dsimp only
  repeat' first
    | with_reducible exact Kept.refl _
    | ((with_reducible apply Laws.State.moveOff_kept); (case mhl => decide))
    | ((with_reducible apply Laws.State.put_kept); (case mhl => decide))
    | ((with_reducible apply Laws.State.raise_kept); (case mhl => decide))
    | with_reducible apply Kept.ite
    | intro _
    | dsimp only
    | split
theorem State.linkLost_kept {ml : List StateField} {mz : State} {s : State} {p : Nat} {train : Bool} (mhl : [.io, .net] ⊆ ml) (mh : Kept ml mz s) : Kept ml mz (State.linkLost s p train) :=
  Kept.after ((State.linkLost_frame s p train).mono mhl) mh

theorem execNetLinkDown_kept (p : Nat) (s : State) : ∃ out, execNetLinkDown p s = .next out ∧ Kept [.io, .net] s out := by
  unfold execNetLinkDown
  try dsimp only
  refine ⟨_, rfl, ?_⟩
  try dsimp only
  repeat' first
    | with_reducible exact Kept.refl _
    | ((with_reducible apply Laws.State.linkLost_kept); (case mhl => decide))
    | with_reducible apply Kept.ite
    | intro _
    | dsimp only
    | split

theorem execNetLinkUp_kept (p : Nat) (s : State) : ∃ out, execNetLinkUp p s = .next out ∧ Kept [.io, .answers, .net] s out := by
  unfold execNetLinkUp
  try dsimp only
  refine ⟨_, rfl, ?_⟩
  try dsimp only
  repeat' first
    | with_reducible exact Kept.refl _
    | ((with_reducible apply Laws.State.complete_kept); (case mhl => decide))
    | ((with_reducible apply Laws.State.put_kept); (case mhl => decide))
    | ((with_reducible apply Laws.State.raise_kept); (case mhl => decide))
    | ((with_reducible apply Laws.State.resume_kept); (case mhl => decide))
    | with_reducible apply Kept.ite
    | with_reducible apply Kept.foldl
    | with_reducible apply Kept.foldlFst
    | with_reducible apply Kept.foldlSnd
    | (fail_if_no_progress ((with_reducible apply Kept.upd); (case ho => (refine Only.of (fun p hp => ?_) rfl; cases p <;> first | rfl | (refine absurd ?_ hp; decide))); (case hi => (repeat' first | with_reducible exact IoKept.refl _ | with_reducible apply Laws.Io.put_kept | with_reducible apply Laws.Io.raise_kept | with_reducible apply IoKept.ite | with_reducible apply IoKept.foldl | with_reducible apply IoKept.put | with_reducible apply IoKept.filter | (fail_if_no_progress with_reducible apply IoKept.upd) | intro _ | dsimp only | split)); (case ht => exact T1Kept.refl _)))
    | intro _
    | dsimp only
    | split

theorem State.retireLane_frame (s : State) (l : Nat) : Kept [.io] s (State.retireLane s l) := by
  unfold State.retireLane
  try dsimp only
  repeat' first
    | with_reducible exact Kept.refl _
    | ((with_reducible apply Laws.State.put_kept); (case mhl => decide))
    | with_reducible apply Kept.ite
    | intro _
    | dsimp only
    | split
theorem State.retireLane_kept {ml : List StateField} {mz : State} {s : State} {l : Nat} (mhl : [.io] ⊆ ml) (mh : Kept ml mz s) : Kept ml mz (State.retireLane s l) :=
  Kept.after ((State.retireLane_frame s l).mono mhl) mh

theorem State.spareLane_frame (s : State) (p i l : Nat) : Kept [.io, .units, .svChanged, .net] s (State.spareLane s p i l) := by
  unfold State.spareLane
  try dsimp only
  repeat' first
    | with_reducible exact Kept.refl _
    | ((with_reducible apply Laws.State.linkLost_kept); (case mhl => decide))
    | ((with_reducible apply Laws.State.logRepair_kept); (case mhl => decide))
    | ((with_reducible apply Laws.State.put_kept); (case mhl => decide))
    | ((with_reducible apply Laws.State.raise_kept); (case mhl => decide))
    | ((with_reducible apply Laws.State.retireLane_kept); (case mhl => decide))
    | ((with_reducible apply Laws.State.survey_kept); (case mhl => decide))
    | ((with_reducible apply Laws.State.updUnits_kept); (case mhl => decide))
    | with_reducible apply Kept.ite
    | (fail_if_no_progress ((with_reducible apply Kept.upd); (case ho => (refine Only.of (fun p hp => ?_) rfl; cases p <;> first | rfl | (refine absurd ?_ hp; decide))); (case hi => (repeat' first | with_reducible exact IoKept.refl _ | with_reducible apply Laws.Io.put_kept | with_reducible apply Laws.Io.raise_kept | with_reducible apply IoKept.ite | with_reducible apply IoKept.foldl | with_reducible apply IoKept.put | with_reducible apply IoKept.filter | (fail_if_no_progress with_reducible apply IoKept.upd) | intro _ | dsimp only | split)); (case ht => exact T1Kept.refl _)))
    | intro _
    | dsimp only
    | split
theorem State.spareLane_kept {ml : List StateField} {mz : State} {s : State} {p i l : Nat} (mhl : [.io, .units, .svChanged, .net] ⊆ ml) (mh : Kept ml mz s) : Kept ml mz (State.spareLane s p i l) :=
  Kept.after ((State.spareLane_frame s p i l).mono mhl) mh

theorem execNetLaneFail_kept (p i : Nat) (s : State) : ∃ out, execNetLaneFail p i s = .next out ∧ Kept [.io, .units, .answers, .svChanged, .net] s out := by
  refine ⟨_, rfl, Kept.ite (Kept.refl _) ?_⟩
  split
  · exact State.spareLane_kept (by decide) (Kept.refl _)
  extract_lets n old s1 s2 spared s3 s4 failed _ s5 s6 entry
  have h1 : Kept [.io, .units, .answers, .svChanged, .net] s s1 := State.linkLost_kept (by decide) (Kept.refl _)
  clear_value s1
  have h2 : Kept [.io, .units, .answers, .svChanged, .net] s s2 := State.updUnits_kept (by decide) h1
  clear_value s2
  have h3 : Kept [.io, .units, .answers, .svChanged, .net] s s3 := State.put_kept (by decide) h2
  clear_value s3
  have h4 : Kept [.io, .units, .answers, .svChanged, .net] s s4 := State.raise_kept (by decide) (State.retireLane_kept (by decide) h3)
  clear_value s4
  have h5 : Kept [.io, .units, .answers, .svChanged, .net] s s5 := h4.upd (Only.of (fun p hp => by cases p <;> first | rfl | exact absurd (by decide) hp) rfl) (IoKept.refl _) (T1Kept.refl _)
  clear_value s5
  have h6 : Kept [.io, .units, .answers, .svChanged, .net] s s6 := Kept.foldl h5 (fun _ _ => State.complete_kept (by decide) (Kept.refl _))
  clear_value s6
  exact State.checkMinimum_kept (by decide) (State.logRepair_kept (by decide) (State.survey_kept (by decide) h6))

theorem execLaneSpare_kept (c : Cmd) (s : State) : ∃ out, execLaneSpare c s = .next out ∧ Kept [.io, .units, .answers, .svChanged, .net] s out := by
  unfold execLaneSpare
  try dsimp only
  refine ⟨_, rfl, ?_⟩
  try dsimp only
  repeat' first
    | with_reducible exact Kept.refl _
    | ((with_reducible apply Laws.State.complete_kept); (case mhl => decide))
    | ((with_reducible apply Laws.State.runCmd_kept); (case mhl => decide))
    | ((with_reducible apply Laws.State.spareLane_kept); (case mhl => decide))
    | with_reducible apply Kept.ite
    | (fail_if_no_progress ((with_reducible apply Kept.upd); (case ho => (refine Only.of (fun p hp => ?_) rfl; cases p <;> first | rfl | (refine absurd ?_ hp; decide))); (case hi => (repeat' first | with_reducible exact IoKept.refl _ | with_reducible apply IoKept.ite | with_reducible apply IoKept.foldl | with_reducible apply IoKept.put | with_reducible apply IoKept.filter | (fail_if_no_progress with_reducible apply IoKept.upd) | intro _ | dsimp only | split)); (case ht => exact T1Kept.refl _)))
    | intro _
    | dsimp only
    | split

theorem execNeighborSolicitation_kept (p : Nat) (target : BitVec 128) (s : State) : ∃ out, execNeighborSolicitation p target s = .next out ∧ Kept [.io] s out := by
  unfold execNeighborSolicitation
  try dsimp only
  refine ⟨_, rfl, ?_⟩
  try dsimp only
  repeat' first
    | with_reducible exact Kept.refl _
    | ((with_reducible apply Laws.State.emit_kept); (case mhl => decide))
    | with_reducible apply Kept.ite
    | (fail_if_no_progress ((with_reducible apply Kept.upd); (case ho => (refine Only.of (fun p hp => ?_) rfl; cases p <;> first | rfl | (refine absurd ?_ hp; decide))); (case hi => (repeat' first | with_reducible exact IoKept.refl _ | with_reducible apply Laws.Io.emit_kept | with_reducible apply IoKept.ite | with_reducible apply IoKept.foldl | with_reducible apply IoKept.put | with_reducible apply IoKept.filter | (fail_if_no_progress with_reducible apply IoKept.upd) | intro _ | dsimp only | split)); (case ht => exact T1Kept.refl _)))
    | intro _
    | dsimp only
    | split

theorem execIcmpEchoRequest_kept (p : Nat) (dest : BitVec 128) (b : List Byte) (s : State) : ∃ out, execIcmpEchoRequest p dest b s = .next out ∧ Kept [.io] s out := by
  unfold execIcmpEchoRequest
  try dsimp only
  refine ⟨_, rfl, ?_⟩
  try dsimp only
  repeat' first
    | with_reducible exact Kept.refl _
    | ((with_reducible apply Laws.State.emit_kept); (case mhl => decide))
    | with_reducible apply Kept.ite
    | intro _
    | dsimp only
    | split

theorem State.writeNwCtrl_frame (s : State) (w : RegWrite) : Kept [.io, .t1, .net] s (State.writeNwCtrl s w) := by
  unfold State.writeNwCtrl
  try dsimp only
  repeat' first
    | with_reducible exact Kept.refl _
    | ((with_reducible apply Laws.State.commitWrite_kept); (case mhl => decide))
    | ((with_reducible apply Laws.State.enGate_kept); (case mhl => decide))
    | ((with_reducible apply Laws.State.fromPort_kept); (case mhl => decide))
    | ((with_reducible apply Kept.iteL); case k => ((repeat' first | with_reducible exact Kept.refl _ | ((with_reducible apply Laws.State.commitWrite_kept); (case mhl => decide)) | ((with_reducible apply Laws.State.enGate_kept); (case mhl => decide)) | ((with_reducible apply Laws.State.fromPort_kept); (case mhl => decide)) | with_reducible apply Kept.ite | (fail_if_no_progress ((with_reducible apply Kept.upd); (case ho => (refine Only.of (fun p hp => ?_) rfl; cases p <;> first | rfl | (refine absurd ?_ hp; decide))); (case hi => (repeat' first | with_reducible exact IoKept.refl _ | with_reducible apply IoKept.ite | with_reducible apply IoKept.foldl | with_reducible apply IoKept.put | with_reducible apply IoKept.filter | (fail_if_no_progress with_reducible apply IoKept.upd) | intro _ | dsimp only | split)); (case ht => (repeat' first | with_reducible exact T1Kept.refl _ | with_reducible apply T1Kept.ite | with_reducible apply T1Kept.foldl | with_reducible apply T1Kept.put | with_reducible apply T1Kept.filter | (fail_if_no_progress with_reducible apply T1Kept.upd) | intro _ | dsimp only | split)))) | intro _ | dsimp only | split); done))
    | ((with_reducible apply Kept.iteR); case k => ((repeat' first | with_reducible exact Kept.refl _ | ((with_reducible apply Laws.State.commitWrite_kept); (case mhl => decide)) | ((with_reducible apply Laws.State.enGate_kept); (case mhl => decide)) | ((with_reducible apply Laws.State.fromPort_kept); (case mhl => decide)) | with_reducible apply Kept.ite | (fail_if_no_progress ((with_reducible apply Kept.upd); (case ho => (refine Only.of (fun p hp => ?_) rfl; cases p <;> first | rfl | (refine absurd ?_ hp; decide))); (case hi => (repeat' first | with_reducible exact IoKept.refl _ | with_reducible apply IoKept.ite | with_reducible apply IoKept.foldl | with_reducible apply IoKept.put | with_reducible apply IoKept.filter | (fail_if_no_progress with_reducible apply IoKept.upd) | intro _ | dsimp only | split)); (case ht => (repeat' first | with_reducible exact T1Kept.refl _ | with_reducible apply T1Kept.ite | with_reducible apply T1Kept.foldl | with_reducible apply T1Kept.put | with_reducible apply T1Kept.filter | (fail_if_no_progress with_reducible apply T1Kept.upd) | intro _ | dsimp only | split)))) | intro _ | dsimp only | split); done))
    | with_reducible apply Kept.ite
    | (fail_if_no_progress ((with_reducible apply Kept.upd); (case ho => (refine Only.of (fun p hp => ?_) rfl; cases p <;> first | rfl | (refine absurd ?_ hp; decide))); (case hi => (repeat' first | with_reducible exact IoKept.refl _ | with_reducible apply IoKept.ite | with_reducible apply IoKept.foldl | with_reducible apply IoKept.put | with_reducible apply IoKept.filter | (fail_if_no_progress with_reducible apply IoKept.upd) | intro _ | dsimp only | split)); (case ht => (repeat' first | with_reducible exact T1Kept.refl _ | with_reducible apply T1Kept.ite | with_reducible apply T1Kept.foldl | with_reducible apply T1Kept.put | with_reducible apply T1Kept.filter | (fail_if_no_progress with_reducible apply T1Kept.upd) | intro _ | dsimp only | split))))
    | intro _
    | dsimp only
    | split
theorem State.writeNwCtrl_kept {ml : List StateField} {mz : State} {s : State} {w : RegWrite} (mhl : [.io, .t1, .net] ⊆ ml) (mh : Kept ml mz s) : Kept ml mz (State.writeNwCtrl s w) :=
  Kept.after ((State.writeNwCtrl_frame s w).mono mhl) mh

theorem execNwCommit_kept (w : RegWrite) (s : State) : ∃ out, execNwCommit w s = .next out ∧ Kept [.io, .t1, .net] s out := by
  unfold execNwCommit
  try dsimp only
  refine ⟨_, rfl, ?_⟩
  try dsimp only
  repeat' first
    | with_reducible exact Kept.refl _
    | ((with_reducible apply Laws.State.writeNwCtrl_kept); (case mhl => decide))
    | with_reducible apply Kept.ite
    | intro _
    | dsimp only
    | split

end Sys2Proof.Laws
end

