-- ==== Sys2Proof/Laws/KeptYardTime.lean ====
section
/-! SUPPORT. The frame lemma of every operation of Machine/YardTime.lean: which fields of the state it may change, and that it keeps the canonical
forms. -/

set_option Elab.async false
set_option linter.unusedTactic false
set_option linter.unreachableTactic false
set_option linter.unusedVariables false

namespace Sys2Proof.Laws

open Sys2Proof Sys2Proof.Machine Sys2Proof.Safety

theorem State.setYt_frame (s : State) (y : YardTime) : Kept [.yt] s (State.setYt s y) := by
  unfold State.setYt
  try dsimp only
  repeat' first
    | with_reducible exact Kept.refl _
    | with_reducible apply Kept.ite
    | (fail_if_no_progress ((with_reducible apply Kept.upd); (case ho => (refine Only.of (fun p hp => ?_) rfl; cases p <;> first | rfl | (refine absurd ?_ hp; decide))); (case hi => exact IoKept.refl _); (case ht => exact T1Kept.refl _)))
    | intro _
    | dsimp only
    | split
theorem State.setYt_kept {ml : List StateField} {mz : State} {s : State} {y : YardTime} (mhl : [.yt] ⊆ ml) (mh : Kept ml mz s) : Kept ml mz (State.setYt s y) :=
  Kept.after ((State.setYt_frame s y).mono mhl) mh

theorem State.steer_frame (s : State) (offset : Int) : Kept [.io, .freeIdx] s (State.steer s offset) := by
  unfold State.steer
  try dsimp only
  repeat' first
    | with_reducible exact Kept.refl _
    | ((with_reducible apply Laws.State.drawFree_kept' ?mhl (by assumption)); (case mhl => decide))
    | ((with_reducible apply Laws.State.drawFree_kept); (case mhl => decide))
    | ((with_reducible apply Laws.State.put_kept); (case mhl => decide))
    | ((with_reducible apply Kept.iteL); case k => ((repeat' first | with_reducible exact Kept.refl _ | ((with_reducible apply Laws.State.drawFree_kept' ?mhl (by assumption)); (case mhl => decide)) | ((with_reducible apply Laws.State.drawFree_kept); (case mhl => decide)) | ((with_reducible apply Laws.State.put_kept); (case mhl => decide)) | with_reducible apply Kept.ite | intro _ | dsimp only | split); done))
    | ((with_reducible apply Kept.iteR); case k => ((repeat' first | with_reducible exact Kept.refl _ | ((with_reducible apply Laws.State.drawFree_kept' ?mhl (by assumption)); (case mhl => decide)) | ((with_reducible apply Laws.State.drawFree_kept); (case mhl => decide)) | ((with_reducible apply Laws.State.put_kept); (case mhl => decide)) | with_reducible apply Kept.ite | intro _ | dsimp only | split); done))
    | with_reducible apply Kept.ite
    | intro _
    | dsimp only
    | split
theorem State.steer_kept {ml : List StateField} {mz : State} {s : State} {offset : Int} (mhl : [.io, .freeIdx] ⊆ ml) (mh : Kept ml mz s) : Kept ml mz (State.steer s offset) :=
  Kept.after ((State.steer_frame s offset).mono mhl) mh

theorem State.setLocked_frame (s : State) (v : Bool) : Kept [.io] s (State.setLocked s v) := by
  unfold State.setLocked
  try dsimp only
  repeat' first
    | with_reducible exact Kept.refl _
    | ((with_reducible apply Laws.State.put_kept); (case mhl => decide))
    | ((with_reducible apply Laws.State.raise_kept); (case mhl => decide))
    | ((with_reducible apply Kept.iteL); case k => ((repeat' first | with_reducible exact Kept.refl _ | ((with_reducible apply Laws.State.put_kept); (case mhl => decide)) | ((with_reducible apply Laws.State.raise_kept); (case mhl => decide)) | with_reducible apply Kept.ite | intro _ | dsimp only | split); done))
    | ((with_reducible apply Kept.iteR); case k => ((repeat' first | with_reducible exact Kept.refl _ | ((with_reducible apply Laws.State.put_kept); (case mhl => decide)) | ((with_reducible apply Laws.State.raise_kept); (case mhl => decide)) | with_reducible apply Kept.ite | intro _ | dsimp only | split); done))
    | with_reducible apply Kept.ite
    | intro _
    | dsimp only
    | split
theorem State.setLocked_kept {ml : List StateField} {mz : State} {s : State} {v : Bool} (mhl : [.io] ⊆ ml) (mh : Kept ml mz s) : Kept ml mz (State.setLocked s v) :=
  Kept.after ((State.setLocked_frame s v).mono mhl) mh

theorem State.measure_frame (s : State) (offset : Int) : Kept [.io, .yt, .freeIdx] s (State.measure s offset) := by
  unfold State.measure
  try dsimp only
  repeat' first
    | with_reducible exact Kept.refl _
    | ((with_reducible apply Laws.State.put_kept); (case mhl => decide))
    | ((with_reducible apply Laws.State.raise_kept); (case mhl => decide))
    | ((with_reducible apply Laws.State.setLocked_kept); (case mhl => decide))
    | ((with_reducible apply Laws.State.setYt_kept); (case mhl => decide))
    | ((with_reducible apply Laws.State.steer_kept); (case mhl => decide))
    | ((with_reducible apply Kept.iteL); case k => ((repeat' first | with_reducible exact Kept.refl _ | ((with_reducible apply Laws.State.put_kept); (case mhl => decide)) | ((with_reducible apply Laws.State.raise_kept); (case mhl => decide)) | ((with_reducible apply Laws.State.setLocked_kept); (case mhl => decide)) | ((with_reducible apply Laws.State.setYt_kept); (case mhl => decide)) | ((with_reducible apply Laws.State.steer_kept); (case mhl => decide)) | with_reducible apply Kept.ite | (fail_if_no_progress ((with_reducible apply Kept.upd); (case ho => (refine Only.of (fun p hp => ?_) rfl; cases p <;> first | rfl | (refine absurd ?_ hp; decide))); (case hi => (repeat' first | with_reducible exact IoKept.refl _ | with_reducible apply Laws.Io.put_kept | with_reducible apply Laws.Io.raise_kept | with_reducible apply IoKept.ite | with_reducible apply IoKept.foldl | with_reducible apply IoKept.put | with_reducible apply IoKept.filter | (fail_if_no_progress with_reducible apply IoKept.upd) | intro _ | dsimp only | split)); (case ht => exact T1Kept.refl _))) | intro _ | dsimp only | split); done))
    | ((with_reducible apply Kept.iteR); case k => ((repeat' first | with_reducible exact Kept.refl _ | ((with_reducible apply Laws.State.put_kept); (case mhl => decide)) | ((with_reducible apply Laws.State.raise_kept); (case mhl => decide)) | ((with_reducible apply Laws.State.setLocked_kept); (case mhl => decide)) | ((with_reducible apply Laws.State.setYt_kept); (case mhl => decide)) | ((with_reducible apply Laws.State.steer_kept); (case mhl => decide)) | with_reducible apply Kept.ite | (fail_if_no_progress ((with_reducible apply Kept.upd); (case ho => (refine Only.of (fun p hp => ?_) rfl; cases p <;> first | rfl | (refine absurd ?_ hp; decide))); (case hi => (repeat' first | with_reducible exact IoKept.refl _ | with_reducible apply Laws.Io.put_kept | with_reducible apply Laws.Io.raise_kept | with_reducible apply IoKept.ite | with_reducible apply IoKept.foldl | with_reducible apply IoKept.put | with_reducible apply IoKept.filter | (fail_if_no_progress with_reducible apply IoKept.upd) | intro _ | dsimp only | split)); (case ht => exact T1Kept.refl _))) | intro _ | dsimp only | split); done))
    | with_reducible apply Kept.ite
    | (fail_if_no_progress ((with_reducible apply Kept.upd); (case ho => (refine Only.of (fun p hp => ?_) rfl; cases p <;> first | rfl | (refine absurd ?_ hp; decide))); (case hi => (repeat' first | with_reducible exact IoKept.refl _ | with_reducible apply Laws.Io.put_kept | with_reducible apply Laws.Io.raise_kept | with_reducible apply IoKept.ite | with_reducible apply IoKept.foldl | with_reducible apply IoKept.put | with_reducible apply IoKept.filter | (fail_if_no_progress with_reducible apply IoKept.upd) | intro _ | dsimp only | split)); (case ht => exact T1Kept.refl _)))
    | intro _
    | dsimp only
    | split
theorem State.measure_kept {ml : List StateField} {mz : State} {s : State} {offset : Int} (mhl : [.io, .yt, .freeIdx] ⊆ ml) (mh : Kept ml mz s) : Kept ml mz (State.measure s offset) :=
  Kept.after ((State.measure_frame s offset).mono mhl) mh

theorem execYtTick_kept (s : State) : ∃ out, execYtTick s = .next out ∧ Kept [.yt] s out := by
  unfold execYtTick
  try dsimp only
  refine ⟨_, rfl, ?_⟩
  try dsimp only
  repeat' first
    | with_reducible exact Kept.refl _
    | ((with_reducible apply Laws.State.setYt_kept); (case mhl => decide))
    | with_reducible apply Kept.ite
    | (fail_if_no_progress ((with_reducible apply Kept.upd); (case ho => (refine Only.of (fun p hp => ?_) rfl; cases p <;> first | rfl | (refine absurd ?_ hp; decide))); (case hi => exact IoKept.refl _); (case ht => exact T1Kept.refl _)))
    | intro _
    | dsimp only
    | split

theorem execPpsEdge_kept (s : State) : ∃ out, execPpsEdge s = .next out ∧ Kept [.io, .yt, .freeIdx] s out := by
  unfold execPpsEdge
  try dsimp only
  refine ⟨_, rfl, ?_⟩
  try dsimp only
  repeat' first
    | with_reducible exact Kept.refl _
    | ((with_reducible apply Laws.State.measure_kept); (case mhl => decide))
    | ((with_reducible apply Laws.State.put_kept); (case mhl => decide))
    | ((with_reducible apply Laws.State.setYt_kept); (case mhl => decide))
    | with_reducible apply Kept.ite
    | (fail_if_no_progress ((with_reducible apply Kept.upd); (case ho => (refine Only.of (fun p hp => ?_) rfl; cases p <;> first | rfl | (refine absurd ?_ hp; decide))); (case hi => (repeat' first | with_reducible exact IoKept.refl _ | with_reducible apply Laws.Io.put_kept | with_reducible apply IoKept.ite | with_reducible apply IoKept.foldl | with_reducible apply IoKept.put | with_reducible apply IoKept.filter | (fail_if_no_progress with_reducible apply IoKept.upd) | intro _ | dsimp only | split)); (case ht => exact T1Kept.refl _)))
    | intro _
    | dsimp only
    | split

theorem execPpsMissing_kept (s : State) : ∃ out, execPpsMissing s = .next out ∧ Kept [.io] s out := by
  unfold execPpsMissing
  try dsimp only
  refine ⟨_, rfl, ?_⟩
  try dsimp only
  repeat' first
    | with_reducible exact Kept.refl _
    | ((with_reducible apply Laws.State.put_kept); (case mhl => decide))
    | ((with_reducible apply Laws.State.raise_kept); (case mhl => decide))
    | with_reducible apply Kept.ite
    | with_reducible apply Kept.getD
    | intro _
    | dsimp only
    | split

theorem State.askDelay_frame (s : State) (port : Nat) : Kept [.io, .yt] s (State.askDelay s port) := by
  unfold State.askDelay
  try dsimp only
  repeat' first
    | with_reducible exact Kept.refl _
    | ((with_reducible apply Laws.State.emit_kept); (case mhl => decide))
    | ((with_reducible apply Laws.State.setYt_kept); (case mhl => decide))
    | with_reducible apply Kept.ite
    | (fail_if_no_progress ((with_reducible apply Kept.upd); (case ho => (refine Only.of (fun p hp => ?_) rfl; cases p <;> first | rfl | (refine absurd ?_ hp; decide))); (case hi => (repeat' first | with_reducible exact IoKept.refl _ | with_reducible apply Laws.Io.emit_kept | with_reducible apply IoKept.ite | with_reducible apply IoKept.foldl | with_reducible apply IoKept.put | with_reducible apply IoKept.filter | (fail_if_no_progress with_reducible apply IoKept.upd) | intro _ | dsimp only | split)); (case ht => exact T1Kept.refl _)))
    | intro _
    | dsimp only
    | split
theorem State.askDelay_kept {ml : List StateField} {mz : State} {s : State} {port : Nat} (mhl : [.io, .yt] ⊆ ml) (mh : Kept ml mz s) : Kept ml mz (State.askDelay s port) :=
  Kept.after ((State.askDelay_frame s port).mono mhl) mh

theorem State.syncAt_frame (s : State) (port origin at_ : Nat) (correction : Int) : Kept [.io, .yt, .freeIdx] s (State.syncAt s port origin at_ correction) := by
  unfold State.syncAt
  try dsimp only
  repeat' first
    | with_reducible exact Kept.refl _
    | ((with_reducible apply Laws.State.askDelay_kept); (case mhl => decide))
    | ((with_reducible apply Laws.State.measure_kept); (case mhl => decide))
    | ((with_reducible apply Laws.State.setYt_kept); (case mhl => decide))
    | with_reducible apply Kept.ite
    | (fail_if_no_progress ((with_reducible apply Kept.upd); (case ho => (refine Only.of (fun p hp => ?_) rfl; cases p <;> first | rfl | (refine absurd ?_ hp; decide))); (case hi => (repeat' first | with_reducible exact IoKept.refl _ | with_reducible apply IoKept.ite | with_reducible apply IoKept.foldl | with_reducible apply IoKept.put | with_reducible apply IoKept.filter | (fail_if_no_progress with_reducible apply IoKept.upd) | intro _ | dsimp only | split)); (case ht => exact T1Kept.refl _)))
    | intro _
    | dsimp only
    | split
theorem State.syncAt_kept {ml : List StateField} {mz : State} {s : State} {port origin at_ : Nat} {correction : Int} (mhl : [.io, .yt, .freeIdx] ⊆ ml) (mh : Kept ml mz s) : Kept ml mz (State.syncAt s port origin at_ correction) :=
  Kept.after ((State.syncAt_frame s port origin at_ correction).mono mhl) mh

theorem State.ptpUse_frame (s : State) (port : Nat) (x0 : PtpBody) : Kept [.io, .yt, .freeIdx] s (State.ptpUse s port x0) := by
  unfold State.ptpUse
  try dsimp only
  repeat' first
    | with_reducible exact Kept.refl _
    | ((with_reducible apply Laws.State.emit_kept); (case mhl => decide))
    | ((with_reducible apply Laws.State.setYt_kept); (case mhl => decide))
    | ((with_reducible apply Laws.State.syncAt_kept); (case mhl => decide))
    | ((with_reducible apply Kept.iteL); case k => ((repeat' first | with_reducible exact Kept.refl _ | ((with_reducible apply Laws.State.emit_kept); (case mhl => decide)) | ((with_reducible apply Laws.State.setYt_kept); (case mhl => decide)) | ((with_reducible apply Laws.State.syncAt_kept); (case mhl => decide)) | with_reducible apply Kept.ite | (fail_if_no_progress ((with_reducible apply Kept.upd); (case ho => (refine Only.of (fun p hp => ?_) rfl; cases p <;> first | rfl | (refine absurd ?_ hp; decide))); (case hi => (repeat' first | with_reducible exact IoKept.refl _ | with_reducible apply Laws.Io.emit_kept | with_reducible apply IoKept.ite | with_reducible apply IoKept.foldl | with_reducible apply IoKept.put | with_reducible apply IoKept.filter | (fail_if_no_progress with_reducible apply IoKept.upd) | intro _ | dsimp only | split)); (case ht => exact T1Kept.refl _))) | intro _ | dsimp only | split); done))
    | ((with_reducible apply Kept.iteR); case k => ((repeat' first | with_reducible exact Kept.refl _ | ((with_reducible apply Laws.State.emit_kept); (case mhl => decide)) | ((with_reducible apply Laws.State.setYt_kept); (case mhl => decide)) | ((with_reducible apply Laws.State.syncAt_kept); (case mhl => decide)) | with_reducible apply Kept.ite | (fail_if_no_progress ((with_reducible apply Kept.upd); (case ho => (refine Only.of (fun p hp => ?_) rfl; cases p <;> first | rfl | (refine absurd ?_ hp; decide))); (case hi => (repeat' first | with_reducible exact IoKept.refl _ | with_reducible apply Laws.Io.emit_kept | with_reducible apply IoKept.ite | with_reducible apply IoKept.foldl | with_reducible apply IoKept.put | with_reducible apply IoKept.filter | (fail_if_no_progress with_reducible apply IoKept.upd) | intro _ | dsimp only | split)); (case ht => exact T1Kept.refl _))) | intro _ | dsimp only | split); done))
    | with_reducible apply Kept.ite
    | (fail_if_no_progress ((with_reducible apply Kept.upd); (case ho => (refine Only.of (fun p hp => ?_) rfl; cases p <;> first | rfl | (refine absurd ?_ hp; decide))); (case hi => (repeat' first | with_reducible exact IoKept.refl _ | with_reducible apply Laws.Io.emit_kept | with_reducible apply IoKept.ite | with_reducible apply IoKept.foldl | with_reducible apply IoKept.put | with_reducible apply IoKept.filter | (fail_if_no_progress with_reducible apply IoKept.upd) | intro _ | dsimp only | split)); (case ht => exact T1Kept.refl _)))
    | intro _
    | dsimp only
    | split
theorem State.ptpUse_kept {ml : List StateField} {mz : State} {s : State} {port : Nat} {x0 : PtpBody} (mhl : [.io, .yt, .freeIdx] ⊆ ml) (mh : Kept ml mz s) : Kept ml mz (State.ptpUse s port x0) :=
  Kept.after ((State.ptpUse_frame s port x0).mono mhl) mh

theorem State.selectSource_frame (s : State) (master : Option (Nat × Nat)) : Kept [.io, .yt] s (State.selectSource s master) := by
  unfold State.selectSource
  try dsimp only
  repeat' first
    | with_reducible exact Kept.refl _
    | ((with_reducible apply Laws.State.put_kept); (case mhl => decide))
    | ((with_reducible apply Laws.State.setYt_kept); (case mhl => decide))
    | with_reducible apply Kept.ite
    | (fail_if_no_progress ((with_reducible apply Kept.upd); (case ho => (refine Only.of (fun p hp => ?_) rfl; cases p <;> first | rfl | (refine absurd ?_ hp; decide))); (case hi => (repeat' first | with_reducible exact IoKept.refl _ | with_reducible apply Laws.Io.put_kept | with_reducible apply IoKept.ite | with_reducible apply IoKept.foldl | with_reducible apply IoKept.put | with_reducible apply IoKept.filter | (fail_if_no_progress with_reducible apply IoKept.upd) | intro _ | dsimp only | split)); (case ht => exact T1Kept.refl _)))
    | intro _
    | dsimp only
    | split
theorem State.selectSource_kept {ml : List StateField} {mz : State} {s : State} {master : Option (Nat × Nat)} (mhl : [.io, .yt] ⊆ ml) (mh : Kept ml mz s) : Kept ml mz (State.selectSource s master) :=
  Kept.after ((State.selectSource_frame s master).mono mhl) mh

theorem execPtpMessage_kept (m : PtpMsg) (s : State) : ∃ out, execPtpMessage m s = .next out ∧ Kept [.io, .yt, .freeIdx] s out := by
  unfold execPtpMessage
  try dsimp only
  refine ⟨_, rfl, ?_⟩
  try dsimp only
  repeat' first
    | with_reducible exact Kept.refl _
    | ((with_reducible apply Laws.State.ptpUse_kept); (case mhl => decide))
    | ((with_reducible apply Laws.State.selectSource_kept); (case mhl => decide))
    | with_reducible apply Kept.ite
    | (fail_if_no_progress ((with_reducible apply Kept.upd); (case ho => (refine Only.of (fun p hp => ?_) rfl; cases p <;> first | rfl | (refine absurd ?_ hp; decide))); (case hi => (repeat' first | with_reducible exact IoKept.refl _ | with_reducible apply IoKept.ite | with_reducible apply IoKept.foldl | with_reducible apply IoKept.put | with_reducible apply IoKept.filter | (fail_if_no_progress with_reducible apply IoKept.upd) | intro _ | dsimp only | split)); (case ht => exact T1Kept.refl _)))
    | intro _
    | dsimp only
    | split

theorem execPtpSourceLoss_kept (s : State) : ∃ out, execPtpSourceLoss s = .next out ∧ Kept [.io, .yt] s out := by
  unfold execPtpSourceLoss
  try dsimp only
  refine ⟨_, rfl, ?_⟩
  try dsimp only
  repeat' first
    | with_reducible exact Kept.refl _
    | ((with_reducible apply Laws.State.selectSource_kept); (case mhl => decide))
    | with_reducible apply Kept.ite
    | intro _
    | dsimp only
    | split

theorem State.writeYtCtrl_frame (s : State) (w : RegWrite) : Kept [.io, .yt, .periodEnd] s (State.writeYtCtrl s w) := by
  unfold State.writeYtCtrl
  try dsimp only
  repeat' first
    | with_reducible exact Kept.refl _
    | ((with_reducible apply Laws.State.fromPort_kept); (case mhl => decide))
    | ((with_reducible apply Laws.State.put_kept); (case mhl => decide))
    | ((with_reducible apply Laws.State.setYt_kept); (case mhl => decide))
    | ((with_reducible apply Laws.State.store_kept); (case mhl => decide))
    | with_reducible apply Kept.ite
    | (fail_if_no_progress ((with_reducible apply Kept.upd); (case ho => (refine Only.of (fun p hp => ?_) rfl; cases p <;> first | rfl | (refine absurd ?_ hp; decide))); (case hi => (repeat' first | with_reducible exact IoKept.refl _ | with_reducible apply Laws.Io.put_kept | with_reducible apply IoKept.ite | with_reducible apply IoKept.foldl | with_reducible apply IoKept.put | with_reducible apply IoKept.filter | (fail_if_no_progress with_reducible apply IoKept.upd) | intro _ | dsimp only | split)); (case ht => exact T1Kept.refl _)))
    | intro _
    | dsimp only
    | split
theorem State.writeYtCtrl_kept {ml : List StateField} {mz : State} {s : State} {w : RegWrite} (mhl : [.io, .yt, .periodEnd] ⊆ ml) (mh : Kept ml mz s) : Kept ml mz (State.writeYtCtrl s w) :=
  Kept.after ((State.writeYtCtrl_frame s w).mono mhl) mh

theorem execYtRun_kept (w : RegWrite) (s : State) : ∃ out, execYtRun w s = .next out ∧ Kept [.io, .yt, .periodEnd] s out := by
  unfold execYtRun
  try dsimp only
  refine ⟨_, rfl, ?_⟩
  try dsimp only
  repeat' first
    | with_reducible exact Kept.refl _
    | ((with_reducible apply Laws.State.writeYtCtrl_kept); (case mhl => decide))
    | with_reducible apply Kept.ite
    | intro _
    | dsimp only
    | split

theorem execYtCommit_kept (w : RegWrite) (s : State) : ∃ out, execYtCommit w s = .next out ∧ Kept [.io, .yt, .periodEnd] s out := by
  unfold execYtCommit
  try dsimp only
  refine ⟨_, rfl, ?_⟩
  try dsimp only
  repeat' first
    | with_reducible exact Kept.refl _
    | ((with_reducible apply Laws.State.writeYtCtrl_kept); (case mhl => decide))
    | with_reducible apply Kept.ite
    | intro _
    | dsimp only
    | split

theorem State.writeLockLimit_frame (s : State) (w : RegWrite) : Kept [.io] s (State.writeLockLimit s w) := by
  unfold State.writeLockLimit
  try dsimp only
  repeat' first
    | with_reducible exact Kept.refl _
    | ((with_reducible apply Laws.State.fromPort_kept); (case mhl => decide))
    | ((with_reducible apply Laws.State.storePut_kept); (case mhl => decide))
    | with_reducible apply Kept.ite
    | intro _
    | dsimp only
    | split
theorem State.writeLockLimit_kept {ml : List StateField} {mz : State} {s : State} {w : RegWrite} (mhl : [.io] ⊆ ml) (mh : Kept ml mz s) : Kept ml mz (State.writeLockLimit s w) :=
  Kept.after ((State.writeLockLimit_frame s w).mono mhl) mh

theorem State.writeHostSig_frame (s : State) (w : RegWrite) : Kept [.io, .units, .contexts, .tallies] s (State.writeHostSig s w) := by
  unfold State.writeHostSig
  try dsimp only
  repeat' first
    | with_reducible exact Kept.refl _
    | ((with_reducible apply Laws.State.fromPort_kept); (case mhl => decide))
    | ((with_reducible apply Laws.State.signal_kept' ?mhl (by assumption)); (case mhl => decide))
    | ((with_reducible apply Laws.State.signal_kept); (case mhl => decide))
    | with_reducible apply Kept.ite
    | (fail_if_no_progress ((with_reducible apply Kept.upd); (case ho => (refine Only.of (fun p hp => ?_) rfl; cases p <;> first | rfl | (refine absurd ?_ hp; decide))); (case hi => (repeat' first | with_reducible exact IoKept.refl _ | with_reducible apply Laws.Io.setFlag_kept | with_reducible apply IoKept.ite | with_reducible apply IoKept.foldl | with_reducible apply IoKept.put | with_reducible apply IoKept.filter | (fail_if_no_progress with_reducible apply IoKept.upd) | intro _ | dsimp only | split)); (case ht => exact T1Kept.refl _)))
    | intro _
    | dsimp only
    | split
theorem State.writeHostSig_kept {ml : List StateField} {mz : State} {s : State} {w : RegWrite} (mhl : [.io, .units, .contexts, .tallies] ⊆ ml) (mh : Kept ml mz s) : Kept ml mz (State.writeHostSig s w) :=
  Kept.after ((State.writeHostSig_frame s w).mono mhl) mh

theorem execTlHostSig_kept (w : RegWrite) (s : State) : ∃ out, execTlHostSig w s = .next out ∧ Kept [.io, .units, .contexts, .tallies] s out := by
  unfold execTlHostSig
  try dsimp only
  refine ⟨_, rfl, ?_⟩
  try dsimp only
  repeat' first
    | with_reducible exact Kept.refl _
    | ((with_reducible apply Laws.State.writeHostSig_kept); (case mhl => decide))
    | with_reducible apply Kept.ite
    | intro _
    | dsimp only
    | split

theorem State.writeBind_frame (s : State) (w : RegWrite) (n : Nat) : Kept [.io, .units, .contexts, .tallies] s (State.writeBind s w n) := by
  unfold State.writeBind
  try dsimp only
  repeat' first
    | with_reducible exact Kept.refl _
    | ((with_reducible apply Laws.State.cancelTally_kept); (case mhl => decide))
    | ((with_reducible apply Laws.State.fromPort_kept); (case mhl => decide))
    | ((with_reducible apply Laws.State.store_kept); (case mhl => decide))
    | with_reducible apply Kept.ite
    | intro _
    | dsimp only
    | split
theorem State.writeBind_kept {ml : List StateField} {mz : State} {s : State} {w : RegWrite} {n : Nat} (mhl : [.io, .units, .contexts, .tallies] ⊆ ml) (mh : Kept ml mz s) : Kept ml mz (State.writeBind s w n) :=
  Kept.after ((State.writeBind_frame s w n).mono mhl) mh

theorem execTlBindWrite_kept (w : RegWrite) (k : Nat) (s : State) : ∃ out, execTlBindWrite w k s = .next out ∧ Kept [.io, .units, .contexts, .tallies] s out := by
  unfold execTlBindWrite
  try dsimp only
  refine ⟨_, rfl, ?_⟩
  try dsimp only
  repeat' first
    | with_reducible exact Kept.refl _
    | ((with_reducible apply Laws.State.writeBind_kept); (case mhl => decide))
    | with_reducible apply Kept.ite
    | intro _
    | dsimp only
    | split

theorem State.writeSnapSel_frame (s : State) (w : RegWrite) : Kept [.io] s (State.writeSnapSel s w) := by
  unfold State.writeSnapSel
  try dsimp only
  repeat' first
    | with_reducible exact Kept.refl _
    | ((with_reducible apply Laws.State.fromPort_kept); (case mhl => decide))
    | ((with_reducible apply Laws.State.put_kept); (case mhl => decide))
    | ((with_reducible apply Laws.State.store_kept); (case mhl => decide))
    | with_reducible apply Kept.ite
    | intro _
    | dsimp only
    | split
theorem State.writeSnapSel_kept {ml : List StateField} {mz : State} {s : State} {w : RegWrite} (mhl : [.io] ⊆ ml) (mh : Kept ml mz s) : Kept ml mz (State.writeSnapSel s w) :=
  Kept.after ((State.writeSnapSel_frame s w).mono mhl) mh

theorem execTlSnapSelWrite_kept (w : RegWrite) (s : State) : ∃ out, execTlSnapSelWrite w s = .next out ∧ Kept [.io] s out := by
  unfold execTlSnapSelWrite
  try dsimp only
  refine ⟨_, rfl, ?_⟩
  try dsimp only
  repeat' first
    | with_reducible exact Kept.refl _
    | ((with_reducible apply Laws.State.writeSnapSel_kept); (case mhl => decide))
    | with_reducible apply Kept.ite
    | intro _
    | dsimp only
    | split

end Sys2Proof.Laws
end

