-- ==== Sys2Proof/Laws/KeptClockOps.lean ====
section
/-! SUPPORT. The frame lemma of every operation of Machine/ClockOps.lean: which fields of the state it may change, and that it keeps the canonical
forms. -/

set_option Elab.async false
set_option linter.unusedTactic false
set_option linter.unreachableTactic false
set_option linter.unusedVariables false

namespace Sys2Proof.Laws

open Sys2Proof Sys2Proof.Machine Sys2Proof.Safety

theorem State.setCk_frame (s : State) (x : Clocks) : Kept [.ck] s (State.setCk s x) := by
  unfold State.setCk
  try dsimp only
  repeat' first
    | with_reducible exact Kept.refl _
    | with_reducible apply Kept.ite
    | (fail_if_no_progress ((with_reducible apply Kept.upd); (case ho => (refine Only.of (fun p hp => ?_) rfl; cases p <;> first | rfl | (refine absurd ?_ hp; decide))); (case hi => exact IoKept.refl _); (case ht => exact T1Kept.refl _)))
    | intro _
    | dsimp only
    | split
theorem State.setCk_kept {ml : List StateField} {mz : State} {s : State} {x : Clocks} (mhl : [.ck] ⊆ ml) (mh : Kept ml mz s) : Kept ml mz (State.setCk s x) :=
  Kept.after ((State.setCk_frame s x).mono mhl) mh

theorem State.loseConsumers_frame (s : State) (k : Nat) : Kept [.io, .yt, .net, .sec, .ck] s (State.loseConsumers s k) := by
  unfold State.loseConsumers
  try dsimp only
  repeat' first
    | with_reducible exact Kept.refl _
    | ((with_reducible apply Laws.State.linkLost_kept); (case mhl => decide))
    | ((with_reducible apply Laws.State.portReset_kept); (case mhl => decide))
    | ((with_reducible apply Laws.State.put_kept); (case mhl => decide))
    | ((with_reducible apply Laws.State.setCk_kept); (case mhl => decide))
    | ((with_reducible apply Laws.State.setLocked_kept); (case mhl => decide))
    | ((with_reducible apply Laws.State.setYt_kept); (case mhl => decide))
    | ((with_reducible apply Kept.iteL); case k => ((repeat' first | with_reducible exact Kept.refl _ | ((with_reducible apply Laws.State.linkLost_kept); (case mhl => decide)) | ((with_reducible apply Laws.State.portReset_kept); (case mhl => decide)) | ((with_reducible apply Laws.State.put_kept); (case mhl => decide)) | ((with_reducible apply Laws.State.setCk_kept); (case mhl => decide)) | ((with_reducible apply Laws.State.setLocked_kept); (case mhl => decide)) | ((with_reducible apply Laws.State.setYt_kept); (case mhl => decide)) | with_reducible apply Kept.foldl | with_reducible apply Kept.foldlFst | with_reducible apply Kept.foldlSnd | with_reducible apply Kept.ite | (fail_if_no_progress ((with_reducible apply Kept.upd); (case ho => (refine Only.of (fun p hp => ?_) rfl; cases p <;> first | rfl | (refine absurd ?_ hp; decide))); (case hi => (repeat' first | with_reducible exact IoKept.refl _ | with_reducible apply Laws.Io.put_kept | with_reducible apply IoKept.ite | with_reducible apply IoKept.foldl | with_reducible apply IoKept.put | with_reducible apply IoKept.filter | (fail_if_no_progress with_reducible apply IoKept.upd) | intro _ | dsimp only | split)); (case ht => exact T1Kept.refl _))) | intro _ | dsimp only | split); done))
    | ((with_reducible apply Kept.iteR); case k => ((repeat' first | with_reducible exact Kept.refl _ | ((with_reducible apply Laws.State.linkLost_kept); (case mhl => decide)) | ((with_reducible apply Laws.State.portReset_kept); (case mhl => decide)) | ((with_reducible apply Laws.State.put_kept); (case mhl => decide)) | ((with_reducible apply Laws.State.setCk_kept); (case mhl => decide)) | ((with_reducible apply Laws.State.setLocked_kept); (case mhl => decide)) | ((with_reducible apply Laws.State.setYt_kept); (case mhl => decide)) | with_reducible apply Kept.foldl | with_reducible apply Kept.foldlFst | with_reducible apply Kept.foldlSnd | with_reducible apply Kept.ite | (fail_if_no_progress ((with_reducible apply Kept.upd); (case ho => (refine Only.of (fun p hp => ?_) rfl; cases p <;> first | rfl | (refine absurd ?_ hp; decide))); (case hi => (repeat' first | with_reducible exact IoKept.refl _ | with_reducible apply Laws.Io.put_kept | with_reducible apply IoKept.ite | with_reducible apply IoKept.foldl | with_reducible apply IoKept.put | with_reducible apply IoKept.filter | (fail_if_no_progress with_reducible apply IoKept.upd) | intro _ | dsimp only | split)); (case ht => exact T1Kept.refl _))) | intro _ | dsimp only | split); done))
    | with_reducible apply Kept.ite
    | with_reducible apply Kept.foldl
    | with_reducible apply Kept.foldlFst
    | with_reducible apply Kept.foldlSnd
    | (fail_if_no_progress ((with_reducible apply Kept.upd); (case ho => (refine Only.of (fun p hp => ?_) rfl; cases p <;> first | rfl | (refine absurd ?_ hp; decide))); (case hi => (repeat' first | with_reducible exact IoKept.refl _ | with_reducible apply Laws.Io.put_kept | with_reducible apply IoKept.ite | with_reducible apply IoKept.foldl | with_reducible apply IoKept.put | with_reducible apply IoKept.filter | (fail_if_no_progress with_reducible apply IoKept.upd) | intro _ | dsimp only | split)); (case ht => exact T1Kept.refl _)))
    | intro _
    | dsimp only
    | split
theorem State.loseConsumers_kept {ml : List StateField} {mz : State} {s : State} {k : Nat} (mhl : [.io, .yt, .net, .sec, .ck] ⊆ ml) (mh : Kept ml mz s) : Kept ml mz (State.loseConsumers s k) :=
  Kept.after ((State.loseConsumers_frame s k).mono mhl) mh

theorem State.loseSource_frame (s : State) (k : Nat) : Kept [.io, .yt, .net, .sec, .ck] s (State.loseSource s k) := by
  unfold State.loseSource
  try dsimp only
  repeat' first
    | with_reducible exact Kept.refl _
    | ((with_reducible apply Laws.State.loseConsumers_kept); (case mhl => decide))
    | ((with_reducible apply Laws.State.put_kept); (case mhl => decide))
    | ((with_reducible apply Laws.State.raise_kept); (case mhl => decide))
    | ((with_reducible apply Laws.State.setCk_kept); (case mhl => decide))
    | with_reducible apply Kept.ite
    | (fail_if_no_progress ((with_reducible apply Kept.upd); (case ho => (refine Only.of (fun p hp => ?_) rfl; cases p <;> first | rfl | (refine absurd ?_ hp; decide))); (case hi => (repeat' first | with_reducible exact IoKept.refl _ | with_reducible apply Laws.Io.put_kept | with_reducible apply Laws.Io.raise_kept | with_reducible apply IoKept.ite | with_reducible apply IoKept.foldl | with_reducible apply IoKept.put | with_reducible apply IoKept.filter | (fail_if_no_progress with_reducible apply IoKept.upd) | intro _ | dsimp only | split)); (case ht => exact T1Kept.refl _)))
    | intro _
    | dsimp only
    | split
theorem State.loseSource_kept {ml : List StateField} {mz : State} {s : State} {k : Nat} (mhl : [.io, .yt, .net, .sec, .ck] ⊆ ml) (mh : Kept ml mz s) : Kept ml mz (State.loseSource s k) :=
  Kept.after ((State.loseSource_frame s k).mono mhl) mh

theorem State.moveBack_frame (s : State) (k : Nat) : Kept [.io] s (State.moveBack s k) := by
  unfold State.moveBack
  try dsimp only
  repeat' first
    | with_reducible exact Kept.refl _
    | ((with_reducible apply Laws.State.put_kept); (case mhl => decide))
    | with_reducible apply Kept.ite
    | (fail_if_no_progress ((with_reducible apply Kept.upd); (case ho => (refine Only.of (fun p hp => ?_) rfl; cases p <;> first | rfl | (refine absurd ?_ hp; decide))); (case hi => (repeat' first | with_reducible exact IoKept.refl _ | with_reducible apply Laws.Io.put_kept | with_reducible apply IoKept.ite | with_reducible apply IoKept.foldl | with_reducible apply IoKept.put | with_reducible apply IoKept.filter | (fail_if_no_progress with_reducible apply IoKept.upd) | intro _ | dsimp only | split)); (case ht => exact T1Kept.refl _)))
    | intro _
    | dsimp only
    | split
theorem State.moveBack_kept {ml : List StateField} {mz : State} {s : State} {k : Nat} (mhl : [.io] ⊆ ml) (mh : Kept ml mz s) : Kept ml mz (State.moveBack s k) :=
  Kept.after ((State.moveBack_frame s k).mono mhl) mh

theorem State.sourceReturns_frame (s : State) (k : Nat) : Kept [.io, .ck] s (State.sourceReturns s k) := by
  unfold State.sourceReturns
  try dsimp only
  repeat' first
    | with_reducible exact Kept.refl _
    | ((with_reducible apply Laws.State.moveBack_kept); (case mhl => decide))
    | ((with_reducible apply Laws.State.put_kept); (case mhl => decide))
    | ((with_reducible apply Laws.State.raise_kept); (case mhl => decide))
    | ((with_reducible apply Laws.State.setCk_kept); (case mhl => decide))
    | with_reducible apply Kept.ite
    | (fail_if_no_progress ((with_reducible apply Kept.upd); (case ho => (refine Only.of (fun p hp => ?_) rfl; cases p <;> first | rfl | (refine absurd ?_ hp; decide))); (case hi => (repeat' first | with_reducible exact IoKept.refl _ | with_reducible apply Laws.Io.put_kept | with_reducible apply Laws.Io.raise_kept | with_reducible apply IoKept.ite | with_reducible apply IoKept.foldl | with_reducible apply IoKept.put | with_reducible apply IoKept.filter | (fail_if_no_progress with_reducible apply IoKept.upd) | intro _ | dsimp only | split)); (case ht => exact T1Kept.refl _)))
    | intro _
    | dsimp only
    | split
theorem State.sourceReturns_kept {ml : List StateField} {mz : State} {s : State} {k : Nat} (mhl : [.io, .ck] ⊆ ml) (mh : Kept ml mz s) : Kept ml mz (State.sourceReturns s k) :=
  Kept.after ((State.sourceReturns_frame s k).mono mhl) mh

theorem State.returnAll_frame (s : State) : Kept [.io] s (State.returnAll s) := by
  unfold State.returnAll
  try dsimp only
  repeat' first
    | with_reducible exact Kept.refl _
    | ((with_reducible apply Laws.State.moveBack_kept); (case mhl => decide))
    | with_reducible apply Kept.ite
    | with_reducible apply Kept.foldl
    | with_reducible apply Kept.foldlFst
    | with_reducible apply Kept.foldlSnd
    | intro _
    | dsimp only
    | split
theorem State.returnAll_kept {ml : List StateField} {mz : State} {s : State} (mhl : [.io] ⊆ ml) (mh : Kept ml mz s) : Kept ml mz (State.returnAll s) :=
  Kept.after ((State.returnAll_frame s).mono mhl) mh

theorem State.countGood_frame (s : State) (tol window : Nat) (x : MonitorWindow) (k : Nat) : Kept [.io, .ck] s (State.countGood s tol window x k) := by
  unfold State.countGood
  try dsimp only
  repeat' first
    | with_reducible exact Kept.refl _
    | ((with_reducible apply Laws.State.setCk_kept); (case mhl => decide))
    | ((with_reducible apply Laws.State.sourceReturns_kept); (case mhl => decide))
    | ((with_reducible apply Kept.iteL); case k => ((repeat' first | with_reducible exact Kept.refl _ | ((with_reducible apply Laws.State.setCk_kept); (case mhl => decide)) | ((with_reducible apply Laws.State.sourceReturns_kept); (case mhl => decide)) | with_reducible apply Kept.getD | with_reducible apply Kept.ite | (fail_if_no_progress ((with_reducible apply Kept.upd); (case ho => (refine Only.of (fun p hp => ?_) rfl; cases p <;> first | rfl | (refine absurd ?_ hp; decide))); (case hi => (repeat' first | with_reducible exact IoKept.refl _ | with_reducible apply IoKept.ite | with_reducible apply IoKept.foldl | with_reducible apply IoKept.put | with_reducible apply IoKept.filter | (fail_if_no_progress with_reducible apply IoKept.upd) | intro _ | dsimp only | split)); (case ht => exact T1Kept.refl _))) | intro _ | dsimp only | split); done))
    | ((with_reducible apply Kept.iteR); case k => ((repeat' first | with_reducible exact Kept.refl _ | ((with_reducible apply Laws.State.setCk_kept); (case mhl => decide)) | ((with_reducible apply Laws.State.sourceReturns_kept); (case mhl => decide)) | with_reducible apply Kept.getD | with_reducible apply Kept.ite | (fail_if_no_progress ((with_reducible apply Kept.upd); (case ho => (refine Only.of (fun p hp => ?_) rfl; cases p <;> first | rfl | (refine absurd ?_ hp; decide))); (case hi => (repeat' first | with_reducible exact IoKept.refl _ | with_reducible apply IoKept.ite | with_reducible apply IoKept.foldl | with_reducible apply IoKept.put | with_reducible apply IoKept.filter | (fail_if_no_progress with_reducible apply IoKept.upd) | intro _ | dsimp only | split)); (case ht => exact T1Kept.refl _))) | intro _ | dsimp only | split); done))
    | with_reducible apply Kept.ite
    | with_reducible apply Kept.getD
    | (fail_if_no_progress ((with_reducible apply Kept.upd); (case ho => (refine Only.of (fun p hp => ?_) rfl; cases p <;> first | rfl | (refine absurd ?_ hp; decide))); (case hi => (repeat' first | with_reducible exact IoKept.refl _ | with_reducible apply IoKept.ite | with_reducible apply IoKept.foldl | with_reducible apply IoKept.put | with_reducible apply IoKept.filter | (fail_if_no_progress with_reducible apply IoKept.upd) | intro _ | dsimp only | split)); (case ht => exact T1Kept.refl _)))
    | intro _
    | dsimp only
    | split
theorem State.countGood_kept {ml : List StateField} {mz : State} {s : State} {tol window : Nat} {x : MonitorWindow} {k : Nat} (mhl : [.io, .ck] ⊆ ml) (mh : Kept ml mz s) : Kept ml mz (State.countGood s tol window x k) :=
  Kept.after ((State.countGood_frame s tol window x k).mono mhl) mh

theorem State.windowEnd_frame (s : State) (x : MonitorWindow) : Kept [.io, .yt, .net, .sec, .ck] s (State.windowEnd s x) := by
  unfold State.windowEnd
  try dsimp only
  repeat' first
    | with_reducible exact Kept.refl _
    | ((with_reducible apply Laws.State.countGood_kept); (case mhl => decide))
    | ((with_reducible apply Laws.State.loseSource_kept); (case mhl => decide))
    | ((with_reducible apply Laws.State.put_kept); (case mhl => decide))
    | ((with_reducible apply Kept.iteL); case k => ((repeat' first | with_reducible exact Kept.refl _ | ((with_reducible apply Laws.State.countGood_kept); (case mhl => decide)) | ((with_reducible apply Laws.State.loseSource_kept); (case mhl => decide)) | ((with_reducible apply Laws.State.put_kept); (case mhl => decide)) | with_reducible apply Kept.foldl | with_reducible apply Kept.foldlFst | with_reducible apply Kept.foldlSnd | with_reducible apply Kept.getD | with_reducible apply Kept.ite | intro _ | dsimp only | split); done))
    | ((with_reducible apply Kept.iteR); case k => ((repeat' first | with_reducible exact Kept.refl _ | ((with_reducible apply Laws.State.countGood_kept); (case mhl => decide)) | ((with_reducible apply Laws.State.loseSource_kept); (case mhl => decide)) | ((with_reducible apply Laws.State.put_kept); (case mhl => decide)) | with_reducible apply Kept.foldl | with_reducible apply Kept.foldlFst | with_reducible apply Kept.foldlSnd | with_reducible apply Kept.getD | with_reducible apply Kept.ite | intro _ | dsimp only | split); done))
    | with_reducible apply Kept.ite
    | with_reducible apply Kept.foldl
    | with_reducible apply Kept.foldlFst
    | with_reducible apply Kept.foldlSnd
    | with_reducible apply Kept.getD
    | intro _
    | dsimp only
    | split
theorem State.windowEnd_kept {ml : List StateField} {mz : State} {s : State} {x : MonitorWindow} (mhl : [.io, .yt, .net, .sec, .ck] ⊆ ml) (mh : Kept ml mz s) : Kept ml mz (State.windowEnd s x) :=
  Kept.after ((State.windowEnd_frame s x).mono mhl) mh

theorem State.setMove_frame (s : State) (d : Nat) (m : Option PaceMove) : Kept [.ck] s (State.setMove s d m) := by
  unfold State.setMove
  try dsimp only
  repeat' first
    | with_reducible exact Kept.refl _
    | ((with_reducible apply Laws.State.setCk_kept); (case mhl => decide))
    | with_reducible apply Kept.ite
    | (fail_if_no_progress ((with_reducible apply Kept.upd); (case ho => (refine Only.of (fun p hp => ?_) rfl; cases p <;> first | rfl | (refine absurd ?_ hp; decide))); (case hi => exact IoKept.refl _); (case ht => exact T1Kept.refl _)))
    | intro _
    | dsimp only
    | split
theorem State.setMove_kept {ml : List StateField} {mz : State} {s : State} {d : Nat} {m : Option PaceMove} (mhl : [.ck] ⊆ ml) (mh : Kept ml mz s) : Kept ml mz (State.setMove s d m) :=
  Kept.after ((State.setMove_frame s d m).mono mhl) mh

theorem State.forceLevel_frame (s : State) (d l : Nat) : Kept [.io, .ck] s (State.forceLevel s d l) := by
  unfold State.forceLevel
  try dsimp only
  repeat' first
    | with_reducible exact Kept.refl _
    | ((with_reducible apply Laws.State.put_kept); (case mhl => decide))
    | ((with_reducible apply Laws.State.setCk_kept); (case mhl => decide))
    | with_reducible apply Kept.ite
    | (fail_if_no_progress ((with_reducible apply Kept.upd); (case ho => (refine Only.of (fun p hp => ?_) rfl; cases p <;> first | rfl | (refine absurd ?_ hp; decide))); (case hi => (repeat' first | with_reducible exact IoKept.refl _ | with_reducible apply Laws.Io.put_kept | with_reducible apply IoKept.ite | with_reducible apply IoKept.foldl | with_reducible apply IoKept.put | with_reducible apply IoKept.filter | (fail_if_no_progress with_reducible apply IoKept.upd) | intro _ | dsimp only | split)); (case ht => exact T1Kept.refl _)))
    | intro _
    | dsimp only
    | split
theorem State.forceLevel_kept {ml : List StateField} {mz : State} {s : State} {d l : Nat} (mhl : [.io, .ck] ⊆ ml) (mh : Kept ml mz s) : Kept ml mz (State.forceLevel s d l) :=
  Kept.after ((State.forceLevel_frame s d l).mono mhl) mh

theorem State.writeVoltage_frame (s : State) (d l : Nat) (faster : Bool) : Kept [.io, .ck] s (State.writeVoltage s d l faster) := by
  unfold State.writeVoltage
  try dsimp only
  repeat' first
    | with_reducible exact Kept.refl _
    | ((with_reducible apply Laws.State.emit_kept); (case mhl => decide))
    | ((with_reducible apply Laws.State.put_kept); (case mhl => decide))
    | ((with_reducible apply Laws.State.setMove_kept); (case mhl => decide))
    | with_reducible apply Kept.ite
    | intro _
    | dsimp only
    | split
theorem State.writeVoltage_kept {ml : List StateField} {mz : State} {s : State} {d l : Nat} {faster : Bool} (mhl : [.io, .ck] ⊆ ml) (mh : Kept ml mz s) : Kept ml mz (State.writeVoltage s d l faster) :=
  Kept.after ((State.writeVoltage_frame s d l faster).mono mhl) mh

theorem State.slowDown_frame (s : State) (d l : Nat) : Kept [.io, .ck] s (State.slowDown s d l) := by
  unfold State.slowDown
  try dsimp only
  repeat' first
    | with_reducible exact Kept.refl _
    | ((with_reducible apply Laws.State.forceLevel_kept); (case mhl => decide))
    | ((with_reducible apply Laws.State.writeVoltage_kept); (case mhl => decide))
    | with_reducible apply Kept.ite
    | intro _
    | dsimp only
    | split
theorem State.slowDown_kept {ml : List StateField} {mz : State} {s : State} {d l : Nat} (mhl : [.io, .ck] ⊆ ml) (mh : Kept ml mz s) : Kept ml mz (State.slowDown s d l) :=
  Kept.after ((State.slowDown_frame s d l).mono mhl) mh

theorem State.startPace_frame (s : State) (d : Nat) : Kept [.io, .ck] s (State.startPace s d) := by
  unfold State.startPace
  try dsimp only
  repeat' first
    | with_reducible exact Kept.refl _
    | ((with_reducible apply Laws.State.put_kept); (case mhl => decide))
    | ((with_reducible apply Laws.State.slowDown_kept); (case mhl => decide))
    | ((with_reducible apply Laws.State.writeVoltage_kept); (case mhl => decide))
    | with_reducible apply Kept.ite
    | intro _
    | dsimp only
    | split
theorem State.startPace_kept {ml : List StateField} {mz : State} {s : State} {d : Nat} (mhl : [.io, .ck] ⊆ ml) (mh : Kept ml mz s) : Kept ml mz (State.startPace s d) :=
  Kept.after ((State.startPace_frame s d).mono mhl) mh

theorem State.endMove_frame (s : State) (d : Nat) : Kept [.io, .ck] s (State.endMove s d) := by
  unfold State.endMove
  try dsimp only
  repeat' first
    | with_reducible exact Kept.refl _
    | ((with_reducible apply Laws.State.put_kept); (case mhl => decide))
    | ((with_reducible apply Laws.State.setMove_kept); (case mhl => decide))
    | ((with_reducible apply Laws.State.startPace_kept); (case mhl => decide))
    | with_reducible apply Kept.ite
    | intro _
    | dsimp only
    | split
theorem State.endMove_kept {ml : List StateField} {mz : State} {s : State} {d : Nat} (mhl : [.io, .ck] ⊆ ml) (mh : Kept ml mz s) : Kept ml mz (State.endMove s d) :=
  Kept.after ((State.endMove_frame s d).mono mhl) mh

theorem State.confirmPace_frame (s : State) (d mv : Nat) (m : PaceMove) : Kept [.io, .ck] s (State.confirmPace s d mv m) := by
  unfold State.confirmPace
  try dsimp only
  repeat' first
    | with_reducible exact Kept.refl _
    | ((with_reducible apply Laws.State.endMove_kept); (case mhl => decide))
    | ((with_reducible apply Laws.State.forceLevel_kept); (case mhl => decide))
    | ((with_reducible apply Laws.State.put_kept); (case mhl => decide))
    | ((with_reducible apply Laws.State.slowDown_kept); (case mhl => decide))
    | ((with_reducible apply Laws.State.writeVoltage_kept); (case mhl => decide))
    | ((with_reducible apply Kept.iteL); case k => ((repeat' first | with_reducible exact Kept.refl _ | ((with_reducible apply Laws.State.endMove_kept); (case mhl => decide)) | ((with_reducible apply Laws.State.forceLevel_kept); (case mhl => decide)) | ((with_reducible apply Laws.State.put_kept); (case mhl => decide)) | ((with_reducible apply Laws.State.slowDown_kept); (case mhl => decide)) | ((with_reducible apply Laws.State.writeVoltage_kept); (case mhl => decide)) | with_reducible apply Kept.ite | intro _ | dsimp only | split); done))
    | ((with_reducible apply Kept.iteR); case k => ((repeat' first | with_reducible exact Kept.refl _ | ((with_reducible apply Laws.State.endMove_kept); (case mhl => decide)) | ((with_reducible apply Laws.State.forceLevel_kept); (case mhl => decide)) | ((with_reducible apply Laws.State.put_kept); (case mhl => decide)) | ((with_reducible apply Laws.State.slowDown_kept); (case mhl => decide)) | ((with_reducible apply Laws.State.writeVoltage_kept); (case mhl => decide)) | with_reducible apply Kept.ite | intro _ | dsimp only | split); done))
    | with_reducible apply Kept.ite
    | intro _
    | dsimp only
    | split
theorem State.confirmPace_kept {ml : List StateField} {mz : State} {s : State} {d mv : Nat} {m : PaceMove} (mhl : [.io, .ck] ⊆ ml) (mh : Kept ml mz s) : Kept ml mz (State.confirmPace s d mv m) :=
  Kept.after ((State.confirmPace_frame s d mv m).mono mhl) mh

theorem State.failPace_frame (s : State) (d : Nat) (m : PaceMove) : Kept [.io, .ck] s (State.failPace s d m) := by
  unfold State.failPace
  try dsimp only
  repeat' first
    | with_reducible exact Kept.refl _
    | ((with_reducible apply Laws.State.put_kept); (case mhl => decide))
    | ((with_reducible apply Laws.State.raise_kept); (case mhl => decide))
    | ((with_reducible apply Laws.State.setMove_kept); (case mhl => decide))
    | with_reducible apply Kept.ite
    | intro _
    | dsimp only
    | split
theorem State.failPace_kept {ml : List StateField} {mz : State} {s : State} {d : Nat} {m : PaceMove} (mhl : [.io, .ck] ⊆ ml) (mh : Kept ml mz s) : Kept ml mz (State.failPace s d m) :=
  Kept.after ((State.failPace_frame s d m).mono mhl) mh

theorem State.recomputeLimit_frame (s : State) (d : Nat) : Kept [.io, .ck] s (State.recomputeLimit s d) := by
  unfold State.recomputeLimit
  try dsimp only
  repeat' first
    | with_reducible exact Kept.refl _
    | ((with_reducible apply Laws.State.put_kept); (case mhl => decide))
    | ((with_reducible apply Laws.State.startPace_kept); (case mhl => decide))
    | with_reducible apply Kept.ite
    | intro _
    | dsimp only
    | split
theorem State.recomputeLimit_kept {ml : List StateField} {mz : State} {s : State} {d : Nat} (mhl : [.io, .ck] ⊆ ml) (mh : Kept ml mz s) : Kept ml mz (State.recomputeLimit s d) :=
  Kept.after ((State.recomputeLimit_frame s d).mono mhl) mh

theorem State.writeGate_frame (s : State) (w : RegWrite) (g : Nat) : Kept [.io] s (State.writeGate s w g) := by
  unfold State.writeGate
  try dsimp only
  repeat' first
    | with_reducible exact Kept.refl _
    | ((with_reducible apply Laws.State.fromPort_kept); (case mhl => decide))
    | ((with_reducible apply Laws.State.put_kept); (case mhl => decide))
    | ((with_reducible apply Laws.State.store_kept); (case mhl => decide))
    | ((with_reducible apply Kept.iteL); case k => ((repeat' first | with_reducible exact Kept.refl _ | ((with_reducible apply Laws.State.fromPort_kept); (case mhl => decide)) | ((with_reducible apply Laws.State.put_kept); (case mhl => decide)) | ((with_reducible apply Laws.State.store_kept); (case mhl => decide)) | with_reducible apply Kept.ite | intro _ | dsimp only | split); done))
    | ((with_reducible apply Kept.iteR); case k => ((repeat' first | with_reducible exact Kept.refl _ | ((with_reducible apply Laws.State.fromPort_kept); (case mhl => decide)) | ((with_reducible apply Laws.State.put_kept); (case mhl => decide)) | ((with_reducible apply Laws.State.store_kept); (case mhl => decide)) | with_reducible apply Kept.ite | intro _ | dsimp only | split); done))
    | with_reducible apply Kept.ite
    | intro _
    | dsimp only
    | split
theorem State.writeGate_kept {ml : List StateField} {mz : State} {s : State} {w : RegWrite} {g : Nat} (mhl : [.io] ⊆ ml) (mh : Kept ml mz s) : Kept ml mz (State.writeGate s w g) :=
  Kept.after ((State.writeGate_frame s w g).mono mhl) mh

theorem State.wakeGroup_frame (s : State) (g : Nat) : Kept [.io] s (State.wakeGroup s g) := by
  unfold State.wakeGroup
  try dsimp only
  repeat' first
    | with_reducible exact Kept.refl _
    | ((with_reducible apply Laws.State.put_kept); (case mhl => decide))
    | with_reducible apply Kept.ite
    | intro _
    | dsimp only
    | split
theorem State.wakeGroup_kept {ml : List StateField} {mz : State} {s : State} {g : Nat} (mhl : [.io] ⊆ ml) (mh : Kept ml mz s) : Kept ml mz (State.wakeGroup s g) :=
  Kept.after ((State.wakeGroup_frame s g).mono mhl) mh

end Sys2Proof.Laws
end

