-- ==== Sys2Proof/Laws/KeptContext.lean ====
section
/-! SUPPORT. The frame lemma of every operation of Machine/Context.lean: which fields of the state it may change, and that it keeps the canonical
forms. -/

set_option Elab.async false
set_option linter.unusedTactic false
set_option linter.unreachableTactic false
set_option linter.unusedVariables false

namespace Sys2Proof.Laws

open Sys2Proof Sys2Proof.Machine Sys2Proof.Safety

theorem State.takeSaves_frame (s : State) (slot granules : Nat) (hive : Nat → Option Nat) (l : List Nat) {v0 : List (Nat × Nat)} {v1 : State} (me : State.takeSaves s slot granules hive l = some (v0, v1)) : Kept [.t1] s v1 := by
  induction l generalizing s v0 v1 with
  | nil => cases me; exact Kept.refl _
  | cons u us ih =>
    unfold State.takeSaves at me
    split at me
    · contradiction
    · next g s' hb =>
      rw [Option.bind_eq_some_iff] at hb
      obtain ⟨h, _, hb⟩ := hb
      rw [Option.map_eq_some_iff] at me
      obtain ⟨q, hq, me⟩ := me
      cases me
      exact (ih _ hq).after (State.alloc_kept (by decide) hb (Kept.refl _))
theorem State.takeSaves_kept {ml : List StateField} {mz : State} {s : State} {slot granules : Nat} {hive : Nat → Option Nat} {x0 : List Nat} {v0 : List (Nat × Nat)} {v1 : State} (mhl : [.t1] ⊆ ml) (me : State.takeSaves s slot granules hive x0 = some (v0, v1)) (mh : Kept ml mz s) : Kept ml mz v1 :=
  Kept.after ((State.takeSaves_frame s slot granules hive x0 me).mono mhl) mh

theorem State.takeWindow_frame (s : State) (slot tenant image units : Nat) (share : Bool) {v0 : State} (me : State.takeWindow s slot tenant image units share = some v0) : Kept [.t1, .windows] s v0 := by
  unfold State.takeWindow at me
  try dsimp only at me
  repeat' first
    | contradiction
    | (cases me; done)
    | cases me
    | (rw [Option.map_eq_some_iff] at me; obtain ⟨_, _, me⟩ := me; cases me)
    | (rw [Option.bind_eq_some_iff] at me; obtain ⟨_, _, me⟩ := me)
    | split at me
  all_goals
    repeat' first
      | with_reducible exact Kept.refl _
      | ((with_reducible apply Kept.iteL); case k => ((repeat' first | with_reducible exact Kept.refl _ | with_reducible apply Kept.ite | (fail_if_no_progress ((with_reducible apply Kept.upd); (case ho => (refine Only.of (fun p hp => ?_) rfl; cases p <;> first | rfl | (refine absurd ?_ hp; decide))); (case hi => exact IoKept.refl _); (case ht => (repeat' first | with_reducible exact T1Kept.refl _ | with_reducible apply Laws.Tier1.clear_kept | with_reducible apply T1Kept.ite | with_reducible apply T1Kept.foldl | with_reducible apply T1Kept.put | with_reducible apply T1Kept.filter | (fail_if_no_progress with_reducible apply T1Kept.upd) | intro _ | dsimp only | split)))) | intro _ | dsimp only | split); done))
      | ((with_reducible apply Kept.iteR); case k => ((repeat' first | with_reducible exact Kept.refl _ | with_reducible apply Kept.ite | (fail_if_no_progress ((with_reducible apply Kept.upd); (case ho => (refine Only.of (fun p hp => ?_) rfl; cases p <;> first | rfl | (refine absurd ?_ hp; decide))); (case hi => exact IoKept.refl _); (case ht => (repeat' first | with_reducible exact T1Kept.refl _ | with_reducible apply Laws.Tier1.clear_kept | with_reducible apply T1Kept.ite | with_reducible apply T1Kept.foldl | with_reducible apply T1Kept.put | with_reducible apply T1Kept.filter | (fail_if_no_progress with_reducible apply T1Kept.upd) | intro _ | dsimp only | split)))) | intro _ | dsimp only | split); done))
      | with_reducible apply Kept.ite
      | (fail_if_no_progress ((with_reducible apply Kept.upd); (case ho => (refine Only.of (fun p hp => ?_) rfl; cases p <;> first | rfl | (refine absurd ?_ hp; decide))); (case hi => exact IoKept.refl _); (case ht => (repeat' first | with_reducible exact T1Kept.refl _ | with_reducible apply Laws.Tier1.clear_kept | with_reducible apply T1Kept.ite | with_reducible apply T1Kept.foldl | with_reducible apply T1Kept.put | with_reducible apply T1Kept.filter | (fail_if_no_progress with_reducible apply T1Kept.upd) | intro _ | dsimp only | split))))
      | intro _
      | dsimp only
      | split
theorem State.takeWindow_kept {ml : List StateField} {mz : State} {s : State} {slot tenant image units : Nat} {share : Bool} {v0 : State} (mhl : [.t1, .windows] ⊆ ml) (me : State.takeWindow s slot tenant image units share = some v0) (mh : Kept ml mz s) : Kept ml mz v0 :=
  Kept.after ((State.takeWindow_frame s slot tenant image units share me).mono mhl) mh

theorem State.loadInto_frame (s : State) (slot : Nat) (l : LoadSpec) {v0 : State} (me : State.loadInto s slot l = some v0) : Kept [.t1, .contexts, .windows] s v0 := by
  unfold State.loadInto at me
  try dsimp only at me
  repeat' first
    | contradiction
    | (cases me; done)
    | cases me
    | (rw [Option.map_eq_some_iff] at me; obtain ⟨_, _, me⟩ := me; cases me)
    | (rw [Option.bind_eq_some_iff] at me; obtain ⟨_, _, me⟩ := me)
    | split at me
  all_goals
    repeat' first
      | with_reducible exact Kept.refl _
      | ((with_reducible apply Laws.State.alloc_kept ?mhl (by assumption)); (case mhl => decide))
      | ((with_reducible apply Laws.State.setContext_kept); (case mhl => decide))
      | ((with_reducible apply Laws.State.takeSaves_kept ?mhl (by assumption)); (case mhl => decide))
      | ((with_reducible apply Laws.State.takeWindow_kept ?mhl (by assumption)); (case mhl => decide))
      | ((with_reducible apply Laws.State.writeT1_kept); (case mhl => decide))
      | ((with_reducible apply Kept.iteL); case k => ((repeat' first | with_reducible exact Kept.refl _ | ((with_reducible apply Laws.State.alloc_kept ?mhl (by assumption)); (case mhl => decide)) | ((with_reducible apply Laws.State.setContext_kept); (case mhl => decide)) | ((with_reducible apply Laws.State.takeSaves_kept ?mhl (by assumption)); (case mhl => decide)) | ((with_reducible apply Laws.State.takeWindow_kept ?mhl (by assumption)); (case mhl => decide)) | ((with_reducible apply Laws.State.writeT1_kept); (case mhl => decide)) | with_reducible apply Kept.ite | (fail_if_no_progress ((with_reducible apply Kept.upd); (case ho => (refine Only.of (fun p hp => ?_) rfl; cases p <;> first | rfl | (refine absurd ?_ hp; decide))); (case hi => exact IoKept.refl _); (case ht => (repeat' first | with_reducible exact T1Kept.refl _ | with_reducible apply T1Kept.ite | with_reducible apply T1Kept.foldl | with_reducible apply T1Kept.put | with_reducible apply T1Kept.filter | (fail_if_no_progress with_reducible apply T1Kept.upd) | intro _ | dsimp only | split)))) | intro _ | dsimp only | split); done))
      | ((with_reducible apply Kept.iteR); case k => ((repeat' first | with_reducible exact Kept.refl _ | ((with_reducible apply Laws.State.alloc_kept ?mhl (by assumption)); (case mhl => decide)) | ((with_reducible apply Laws.State.setContext_kept); (case mhl => decide)) | ((with_reducible apply Laws.State.takeSaves_kept ?mhl (by assumption)); (case mhl => decide)) | ((with_reducible apply Laws.State.takeWindow_kept ?mhl (by assumption)); (case mhl => decide)) | ((with_reducible apply Laws.State.writeT1_kept); (case mhl => decide)) | with_reducible apply Kept.ite | (fail_if_no_progress ((with_reducible apply Kept.upd); (case ho => (refine Only.of (fun p hp => ?_) rfl; cases p <;> first | rfl | (refine absurd ?_ hp; decide))); (case hi => exact IoKept.refl _); (case ht => (repeat' first | with_reducible exact T1Kept.refl _ | with_reducible apply T1Kept.ite | with_reducible apply T1Kept.foldl | with_reducible apply T1Kept.put | with_reducible apply T1Kept.filter | (fail_if_no_progress with_reducible apply T1Kept.upd) | intro _ | dsimp only | split)))) | intro _ | dsimp only | split); done))
      | with_reducible apply Kept.ite
      | (fail_if_no_progress ((with_reducible apply Kept.upd); (case ho => (refine Only.of (fun p hp => ?_) rfl; cases p <;> first | rfl | (refine absurd ?_ hp; decide))); (case hi => exact IoKept.refl _); (case ht => (repeat' first | with_reducible exact T1Kept.refl _ | with_reducible apply T1Kept.ite | with_reducible apply T1Kept.foldl | with_reducible apply T1Kept.put | with_reducible apply T1Kept.filter | (fail_if_no_progress with_reducible apply T1Kept.upd) | intro _ | dsimp only | split))))
      | intro _
      | dsimp only
      | split
theorem State.loadInto_kept {ml : List StateField} {mz : State} {s : State} {slot : Nat} {l : LoadSpec} {v0 : State} (mhl : [.t1, .contexts, .windows] ⊆ ml) (me : State.loadInto s slot l = some v0) (mh : Kept ml mz s) : Kept ml mz v0 :=
  Kept.after ((State.loadInto_frame s slot l me).mono mhl) mh

theorem State.loadContext_frame (s : State) (c : Cmd) (l : LoadSpec) : Kept [.io, .t1, .contexts, .answers, .windows] s (State.loadContext s c l) := by
  unfold State.loadContext
  try dsimp only
  repeat' first
    | with_reducible exact Kept.refl _
    | ((with_reducible apply Laws.State.complete_kept); (case mhl => decide))
    | ((with_reducible apply Laws.State.loadInto_kept ?mhl (by assumption)); (case mhl => decide))
    | ((with_reducible apply Laws.State.raise_kept); (case mhl => decide))
    | with_reducible apply Kept.ite
    | (fail_if_no_progress ((with_reducible apply Kept.upd); (case ho => (refine Only.of (fun p hp => ?_) rfl; cases p <;> first | rfl | (refine absurd ?_ hp; decide))); (case hi => (repeat' first | with_reducible exact IoKept.refl _ | with_reducible apply Laws.Io.raise_kept | with_reducible apply IoKept.ite | with_reducible apply IoKept.foldl | with_reducible apply IoKept.put | with_reducible apply IoKept.filter | (fail_if_no_progress with_reducible apply IoKept.upd) | intro _ | dsimp only | split)); (case ht => (repeat' first | with_reducible exact T1Kept.refl _ | with_reducible apply Laws.Tier1.free_kept | with_reducible apply T1Kept.ite | with_reducible apply T1Kept.foldl | with_reducible apply T1Kept.put | with_reducible apply T1Kept.filter | (fail_if_no_progress with_reducible apply T1Kept.upd) | intro _ | dsimp only | split))))
    | intro _
    | dsimp only
    | split
theorem State.loadContext_kept {ml : List StateField} {mz : State} {s : State} {c : Cmd} {l : LoadSpec} (mhl : [.io, .t1, .contexts, .answers, .windows] ⊆ ml) (mh : Kept ml mz s) : Kept ml mz (State.loadContext s c l) :=
  Kept.after ((State.loadContext_frame s c l).mono mhl) mh

theorem State.ctxLoad_frame (s : State) (c : Cmd) : Kept [.io, .yt, .t1, .shed, .prefetch, .stalls, .units, .ops, .mirrors, .redirects, .cp, .cpSlots, .contexts, .answers, .windows, .tallies, .textCache, .rounds, .svChanged, .net] s (State.ctxLoad s c) := by
  unfold State.ctxLoad
  try dsimp only
  repeat' first
    | with_reducible exact Kept.refl _
    | ((with_reducible apply Laws.State.afterRead_kept); (case mhl => decide))
    | ((with_reducible apply Laws.State.checkPoison_kept); (case mhl => decide))
    | ((with_reducible apply Laws.State.complete_kept); (case mhl => decide))
    | ((with_reducible apply Laws.State.loadContext_kept); (case mhl => decide))
    | ((with_reducible apply Laws.State.runHeld_kept); (case mhl => decide))
    | ((with_reducible apply Kept.iteL); case k => ((repeat' first | with_reducible exact Kept.refl _ | ((with_reducible apply Laws.State.afterRead_kept); (case mhl => decide)) | ((with_reducible apply Laws.State.checkPoison_kept); (case mhl => decide)) | ((with_reducible apply Laws.State.complete_kept); (case mhl => decide)) | ((with_reducible apply Laws.State.loadContext_kept); (case mhl => decide)) | ((with_reducible apply Laws.State.runHeld_kept); (case mhl => decide)) | with_reducible apply Kept.getD | with_reducible apply Kept.ite | (fail_if_no_progress ((with_reducible apply Kept.upd); (case ho => (refine Only.of (fun p hp => ?_) rfl; cases p <;> first | rfl | (refine absurd ?_ hp; decide))); (case hi => (repeat' first | with_reducible exact IoKept.refl _ | with_reducible apply IoKept.ite | with_reducible apply IoKept.foldl | with_reducible apply IoKept.put | with_reducible apply IoKept.filter | (fail_if_no_progress with_reducible apply IoKept.upd) | intro _ | dsimp only | split)); (case ht => (repeat' first | with_reducible exact T1Kept.refl _ | with_reducible apply T1Kept.ite | with_reducible apply T1Kept.foldl | with_reducible apply T1Kept.put | with_reducible apply T1Kept.filter | (fail_if_no_progress with_reducible apply T1Kept.upd) | intro _ | dsimp only | split)))) | intro _ | dsimp only | split); done))
    | ((with_reducible apply Kept.iteR); case k => ((repeat' first | with_reducible exact Kept.refl _ | ((with_reducible apply Laws.State.afterRead_kept); (case mhl => decide)) | ((with_reducible apply Laws.State.checkPoison_kept); (case mhl => decide)) | ((with_reducible apply Laws.State.complete_kept); (case mhl => decide)) | ((with_reducible apply Laws.State.loadContext_kept); (case mhl => decide)) | ((with_reducible apply Laws.State.runHeld_kept); (case mhl => decide)) | with_reducible apply Kept.getD | with_reducible apply Kept.ite | (fail_if_no_progress ((with_reducible apply Kept.upd); (case ho => (refine Only.of (fun p hp => ?_) rfl; cases p <;> first | rfl | (refine absurd ?_ hp; decide))); (case hi => (repeat' first | with_reducible exact IoKept.refl _ | with_reducible apply IoKept.ite | with_reducible apply IoKept.foldl | with_reducible apply IoKept.put | with_reducible apply IoKept.filter | (fail_if_no_progress with_reducible apply IoKept.upd) | intro _ | dsimp only | split)); (case ht => (repeat' first | with_reducible exact T1Kept.refl _ | with_reducible apply T1Kept.ite | with_reducible apply T1Kept.foldl | with_reducible apply T1Kept.put | with_reducible apply T1Kept.filter | (fail_if_no_progress with_reducible apply T1Kept.upd) | intro _ | dsimp only | split)))) | intro _ | dsimp only | split); done))
    | with_reducible apply Kept.ite
    | with_reducible apply Kept.getD
    | (fail_if_no_progress ((with_reducible apply Kept.upd); (case ho => (refine Only.of (fun p hp => ?_) rfl; cases p <;> first | rfl | (refine absurd ?_ hp; decide))); (case hi => (repeat' first | with_reducible exact IoKept.refl _ | with_reducible apply IoKept.ite | with_reducible apply IoKept.foldl | with_reducible apply IoKept.put | with_reducible apply IoKept.filter | (fail_if_no_progress with_reducible apply IoKept.upd) | intro _ | dsimp only | split)); (case ht => (repeat' first | with_reducible exact T1Kept.refl _ | with_reducible apply T1Kept.ite | with_reducible apply T1Kept.foldl | with_reducible apply T1Kept.put | with_reducible apply T1Kept.filter | (fail_if_no_progress with_reducible apply T1Kept.upd) | intro _ | dsimp only | split))))
    | intro _
    | dsimp only
    | split
theorem State.ctxLoad_kept {ml : List StateField} {mz : State} {s : State} {c : Cmd} (mhl : [.io, .yt, .t1, .shed, .prefetch, .stalls, .units, .ops, .mirrors, .redirects, .cp, .cpSlots, .contexts, .answers, .windows, .tallies, .textCache, .rounds, .svChanged, .net] ⊆ ml) (mh : Kept ml mz s) : Kept ml mz (State.ctxLoad s c) :=
  Kept.after ((State.ctxLoad_frame s c).mono mhl) mh

theorem execCtxLoad_kept (c : Cmd) (s : State) : ∃ out, execCtxLoad c s = .next out ∧ Kept [.io, .yt, .t1, .shed, .prefetch, .stalls, .units, .ops, .mirrors, .redirects, .cp, .cpSlots, .contexts, .answers, .windows, .tallies, .textCache, .rounds, .svChanged, .net] s out := by
  unfold execCtxLoad
  try dsimp only
  refine ⟨_, rfl, ?_⟩
  try dsimp only
  repeat' first
    | with_reducible exact Kept.refl _
    | ((with_reducible apply Laws.State.ctxLoad_kept); (case mhl => decide))
    | with_reducible apply Kept.ite
    | intro _
    | dsimp only
    | split

theorem State.arm_frame (s : State) (slot l limit arg : Nat) (wait : Option Cmd) {v0 : State} {v1 : Nat} (me : State.arm s slot l limit arg wait = .ok (v0, v1)) : Kept [.contexts] s v0 := by
  unfold State.arm at me
  try dsimp only at me
  repeat' first
    | contradiction
    | (cases me; done)
    | cases me
    | (rw [Option.map_eq_some_iff] at me; obtain ⟨_, _, me⟩ := me; cases me)
    | (rw [Option.bind_eq_some_iff] at me; obtain ⟨_, _, me⟩ := me)
    | split at me
  all_goals
    repeat' first
      | with_reducible exact Kept.refl _
      | ((with_reducible apply Laws.State.setContext_kept); (case mhl => decide))
      | ((with_reducible apply Kept.iteL); case k => ((repeat' first | with_reducible exact Kept.refl _ | ((with_reducible apply Laws.State.setContext_kept); (case mhl => decide)) | with_reducible apply Kept.ite | (fail_if_no_progress ((with_reducible apply Kept.upd); (case ho => (refine Only.of (fun p hp => ?_) rfl; cases p <;> first | rfl | (refine absurd ?_ hp; decide))); (case hi => exact IoKept.refl _); (case ht => exact T1Kept.refl _))) | intro _ | dsimp only | split); done))
      | ((with_reducible apply Kept.iteR); case k => ((repeat' first | with_reducible exact Kept.refl _ | ((with_reducible apply Laws.State.setContext_kept); (case mhl => decide)) | with_reducible apply Kept.ite | (fail_if_no_progress ((with_reducible apply Kept.upd); (case ho => (refine Only.of (fun p hp => ?_) rfl; cases p <;> first | rfl | (refine absurd ?_ hp; decide))); (case hi => exact IoKept.refl _); (case ht => exact T1Kept.refl _))) | intro _ | dsimp only | split); done))
      | with_reducible apply Kept.ite
      | (fail_if_no_progress ((with_reducible apply Kept.upd); (case ho => (refine Only.of (fun p hp => ?_) rfl; cases p <;> first | rfl | (refine absurd ?_ hp; decide))); (case hi => exact IoKept.refl _); (case ht => exact T1Kept.refl _)))
      | intro _
      | dsimp only
      | split
theorem State.arm_kept {ml : List StateField} {mz : State} {s : State} {slot l limit arg : Nat} {wait : Option Cmd} {v0 : State} {v1 : Nat} (mhl : [.contexts] ⊆ ml) (me : State.arm s slot l limit arg wait = .ok (v0, v1)) (mh : Kept ml mz s) : Kept ml mz v0 :=
  Kept.after ((State.arm_frame s slot l limit arg wait me).mono mhl) mh

theorem State.launch_frame (s : State) (c : Cmd) (t h l limit arg : Nat) (wait cellOnly : Bool) : Kept [.io, .contexts, .answers] s (State.launch s c t h l limit arg wait cellOnly) := by
  unfold State.launch
  try dsimp only
  repeat' first
    | with_reducible exact Kept.refl _
    | ((with_reducible apply Laws.State.arm_kept ?mhl (by assumption)); (case mhl => decide))
    | ((with_reducible apply Laws.State.complete_kept); (case mhl => decide))
    | ((with_reducible apply Kept.iteL); case k => ((repeat' first | with_reducible exact Kept.refl _ | ((with_reducible apply Laws.State.arm_kept ?mhl (by assumption)); (case mhl => decide)) | ((with_reducible apply Laws.State.complete_kept); (case mhl => decide)) | with_reducible apply Kept.ite | (fail_if_no_progress ((with_reducible apply Kept.upd); (case ho => (refine Only.of (fun p hp => ?_) rfl; cases p <;> first | rfl | (refine absurd ?_ hp; decide))); (case hi => (repeat' first | with_reducible exact IoKept.refl _ | with_reducible apply IoKept.ite | with_reducible apply IoKept.foldl | with_reducible apply IoKept.put | with_reducible apply IoKept.filter | (fail_if_no_progress with_reducible apply IoKept.upd) | intro _ | dsimp only | split)); (case ht => exact T1Kept.refl _))) | intro _ | dsimp only | split); done))
    | ((with_reducible apply Kept.iteR); case k => ((repeat' first | with_reducible exact Kept.refl _ | ((with_reducible apply Laws.State.arm_kept ?mhl (by assumption)); (case mhl => decide)) | ((with_reducible apply Laws.State.complete_kept); (case mhl => decide)) | with_reducible apply Kept.ite | (fail_if_no_progress ((with_reducible apply Kept.upd); (case ho => (refine Only.of (fun p hp => ?_) rfl; cases p <;> first | rfl | (refine absurd ?_ hp; decide))); (case hi => (repeat' first | with_reducible exact IoKept.refl _ | with_reducible apply IoKept.ite | with_reducible apply IoKept.foldl | with_reducible apply IoKept.put | with_reducible apply IoKept.filter | (fail_if_no_progress with_reducible apply IoKept.upd) | intro _ | dsimp only | split)); (case ht => exact T1Kept.refl _))) | intro _ | dsimp only | split); done))
    | with_reducible apply Kept.ite
    | (fail_if_no_progress ((with_reducible apply Kept.upd); (case ho => (refine Only.of (fun p hp => ?_) rfl; cases p <;> first | rfl | (refine absurd ?_ hp; decide))); (case hi => (repeat' first | with_reducible exact IoKept.refl _ | with_reducible apply IoKept.ite | with_reducible apply IoKept.foldl | with_reducible apply IoKept.put | with_reducible apply IoKept.filter | (fail_if_no_progress with_reducible apply IoKept.upd) | intro _ | dsimp only | split)); (case ht => exact T1Kept.refl _)))
    | intro _
    | dsimp only
    | split
theorem State.launch_kept {ml : List StateField} {mz : State} {s : State} {c : Cmd} {t h l limit arg : Nat} {wait cellOnly : Bool} (mhl : [.io, .contexts, .answers] ⊆ ml) (mh : Kept ml mz s) : Kept ml mz (State.launch s c t h l limit arg wait cellOnly) :=
  Kept.after ((State.launch_frame s c t h l limit arg wait cellOnly).mono mhl) mh

theorem State.ctxLaunch_frame (s : State) (c : Cmd) : Kept [.io, .contexts, .answers] s (State.ctxLaunch s c) := by
  unfold State.ctxLaunch
  try dsimp only
  repeat' first
    | with_reducible exact Kept.refl _
    | ((with_reducible apply Laws.State.launch_kept); (case mhl => decide))
    | ((with_reducible apply Laws.State.runHeld_kept); (case mhl => decide))
    | with_reducible apply Kept.ite
    | with_reducible apply Kept.getD
    | intro _
    | dsimp only
    | split
theorem State.ctxLaunch_kept {ml : List StateField} {mz : State} {s : State} {c : Cmd} (mhl : [.io, .contexts, .answers] ⊆ ml) (mh : Kept ml mz s) : Kept ml mz (State.ctxLaunch s c) :=
  Kept.after ((State.ctxLaunch_frame s c).mono mhl) mh

theorem execCtxLaunch_kept (c : Cmd) (s : State) : ∃ out, execCtxLaunch c s = .next out ∧ Kept [.io, .contexts, .answers] s out := by
  unfold execCtxLaunch
  try dsimp only
  refine ⟨_, rfl, ?_⟩
  try dsimp only
  repeat' first
    | with_reducible exact Kept.refl _
    | ((with_reducible apply Laws.State.ctxLaunch_kept); (case mhl => decide))
    | with_reducible apply Kept.ite
    | intro _
    | dsimp only
    | split

theorem execScLaunch_kept (n : Insn) (s : State) : ∃ out, execScLaunch n s = .next out ∧ Kept [.io, .yt, .t1, .shed, .stalls, .units, .ops, .mirrors, .redirects, .cp, .cpSlots, .contexts, .answers, .tallies, .textCache, .rounds, .svChanged, .net, .sec] s out := by
  unfold execScLaunch
  try dsimp only
  refine ⟨_, rfl, ?_⟩
  try dsimp only
  repeat' first
    | with_reducible exact Kept.refl _
    | with_reducible exact DidKept.refl _
    | with_reducible apply DidKept.done
    | with_reducible apply DidKept.hold
    | with_reducible apply DidKept.fault
    | with_reducible apply DidKept.ite
    | ((with_reducible apply Laws.State.launch_kept); (case mhl => decide))
    | ((with_reducible apply Laws.State.request_kept); (case mhl => decide))
    | ((with_reducible apply Laws.State.runInsn_kept); (case mhl => decide))
    | with_reducible apply Kept.ite
    | intro _
    | dsimp only
    | split

theorem State.stop_frame (s : State) (c : Cmd) (t h : Nat) : Kept [.io, .t1, .shed, .stalls, .units, .ops, .mirrors, .contexts, .answers, .tallies, .textCache, .rounds, .parts, .net] s (State.stop s c t h) := by
  unfold State.stop
  try dsimp only
  repeat' first
    | with_reducible exact Kept.refl _
    | ((with_reducible apply Laws.State.cellsFreed_kept); (case mhl => decide))
    | ((with_reducible apply Laws.State.complete_kept); (case mhl => decide))
    | ((with_reducible apply Laws.State.stopContext_kept); (case mhl => decide))
    | ((with_reducible apply Kept.iteL); case k => ((repeat' first | with_reducible exact Kept.refl _ | ((with_reducible apply Laws.State.cellsFreed_kept); (case mhl => decide)) | ((with_reducible apply Laws.State.complete_kept); (case mhl => decide)) | ((with_reducible apply Laws.State.stopContext_kept); (case mhl => decide)) | with_reducible apply Kept.ite | (fail_if_no_progress ((with_reducible apply Kept.upd); (case ho => (refine Only.of (fun p hp => ?_) rfl; cases p <;> first | rfl | (refine absurd ?_ hp; decide))); (case hi => (repeat' first | with_reducible exact IoKept.refl _ | with_reducible apply IoKept.ite | with_reducible apply IoKept.foldl | with_reducible apply IoKept.put | with_reducible apply IoKept.filter | (fail_if_no_progress with_reducible apply IoKept.upd) | intro _ | dsimp only | split)); (case ht => (repeat' first | with_reducible exact T1Kept.refl _ | with_reducible apply T1Kept.ite | with_reducible apply T1Kept.foldl | with_reducible apply T1Kept.put | with_reducible apply T1Kept.filter | (fail_if_no_progress with_reducible apply T1Kept.upd) | intro _ | dsimp only | split)))) | intro _ | dsimp only | split); done))
    | ((with_reducible apply Kept.iteR); case k => ((repeat' first | with_reducible exact Kept.refl _ | ((with_reducible apply Laws.State.cellsFreed_kept); (case mhl => decide)) | ((with_reducible apply Laws.State.complete_kept); (case mhl => decide)) | ((with_reducible apply Laws.State.stopContext_kept); (case mhl => decide)) | with_reducible apply Kept.ite | (fail_if_no_progress ((with_reducible apply Kept.upd); (case ho => (refine Only.of (fun p hp => ?_) rfl; cases p <;> first | rfl | (refine absurd ?_ hp; decide))); (case hi => (repeat' first | with_reducible exact IoKept.refl _ | with_reducible apply IoKept.ite | with_reducible apply IoKept.foldl | with_reducible apply IoKept.put | with_reducible apply IoKept.filter | (fail_if_no_progress with_reducible apply IoKept.upd) | intro _ | dsimp only | split)); (case ht => (repeat' first | with_reducible exact T1Kept.refl _ | with_reducible apply T1Kept.ite | with_reducible apply T1Kept.foldl | with_reducible apply T1Kept.put | with_reducible apply T1Kept.filter | (fail_if_no_progress with_reducible apply T1Kept.upd) | intro _ | dsimp only | split)))) | intro _ | dsimp only | split); done))
    | with_reducible apply Kept.ite
    | (fail_if_no_progress ((with_reducible apply Kept.upd); (case ho => (refine Only.of (fun p hp => ?_) rfl; cases p <;> first | rfl | (refine absurd ?_ hp; decide))); (case hi => (repeat' first | with_reducible exact IoKept.refl _ | with_reducible apply IoKept.ite | with_reducible apply IoKept.foldl | with_reducible apply IoKept.put | with_reducible apply IoKept.filter | (fail_if_no_progress with_reducible apply IoKept.upd) | intro _ | dsimp only | split)); (case ht => (repeat' first | with_reducible exact T1Kept.refl _ | with_reducible apply T1Kept.ite | with_reducible apply T1Kept.foldl | with_reducible apply T1Kept.put | with_reducible apply T1Kept.filter | (fail_if_no_progress with_reducible apply T1Kept.upd) | intro _ | dsimp only | split))))
    | intro _
    | dsimp only
    | split
theorem State.stop_kept {ml : List StateField} {mz : State} {s : State} {c : Cmd} {t h : Nat} (mhl : [.io, .t1, .shed, .stalls, .units, .ops, .mirrors, .contexts, .answers, .tallies, .textCache, .rounds, .parts, .net] ⊆ ml) (mh : Kept ml mz s) : Kept ml mz (State.stop s c t h) :=
  Kept.after ((State.stop_frame s c t h).mono mhl) mh

theorem State.ctxStop_frame (s : State) (c : Cmd) : Kept [.io, .t1, .shed, .stalls, .units, .ops, .mirrors, .contexts, .answers, .tallies, .textCache, .rounds, .parts, .net] s (State.ctxStop s c) := by
  unfold State.ctxStop
  try dsimp only
  repeat' first
    | with_reducible exact Kept.refl _
    | ((with_reducible apply Laws.State.runHeld_kept); (case mhl => decide))
    | ((with_reducible apply Laws.State.stop_kept); (case mhl => decide))
    | with_reducible apply Kept.ite
    | with_reducible apply Kept.getD
    | intro _
    | dsimp only
    | split
theorem State.ctxStop_kept {ml : List StateField} {mz : State} {s : State} {c : Cmd} (mhl : [.io, .t1, .shed, .stalls, .units, .ops, .mirrors, .contexts, .answers, .tallies, .textCache, .rounds, .parts, .net] ⊆ ml) (mh : Kept ml mz s) : Kept ml mz (State.ctxStop s c) :=
  Kept.after ((State.ctxStop_frame s c).mono mhl) mh

theorem execCtxStop_kept (c : Cmd) (s : State) : ∃ out, execCtxStop c s = .next out ∧ Kept [.io, .t1, .shed, .stalls, .units, .ops, .mirrors, .contexts, .answers, .tallies, .textCache, .rounds, .parts, .net] s out := by
  unfold execCtxStop
  try dsimp only
  refine ⟨_, rfl, ?_⟩
  try dsimp only
  repeat' first
    | with_reducible exact Kept.refl _
    | ((with_reducible apply Laws.State.ctxStop_kept); (case mhl => decide))
    | with_reducible apply Kept.ite
    | intro _
    | dsimp only
    | split

theorem execScStop_kept (n : Insn) (s : State) : ∃ out, execScStop n s = .next out ∧ Kept [.io, .yt, .t1, .shed, .stalls, .units, .ops, .mirrors, .redirects, .cp, .cpSlots, .contexts, .answers, .tallies, .textCache, .rounds, .parts, .svChanged, .net, .sec] s out := by
  unfold execScStop
  try dsimp only
  refine ⟨_, rfl, ?_⟩
  try dsimp only
  repeat' first
    | with_reducible exact Kept.refl _
    | with_reducible exact DidKept.refl _
    | with_reducible apply DidKept.done
    | with_reducible apply DidKept.hold
    | with_reducible apply DidKept.fault
    | with_reducible apply DidKept.ite
    | ((with_reducible apply Laws.State.request_kept); (case mhl => decide))
    | ((with_reducible apply Laws.State.runInsn_kept); (case mhl => decide))
    | ((with_reducible apply Laws.State.stop_kept); (case mhl => decide))
    | with_reducible apply Kept.ite
    | intro _
    | dsimp only
    | split

theorem State.ctxQuery_frame (s : State) (c : Cmd) : Kept [.io, .t1, .answers] s (State.ctxQuery s c) := by
  unfold State.ctxQuery
  try dsimp only
  repeat' first
    | with_reducible exact Kept.refl _
    | ((with_reducible apply Laws.State.complete_kept); (case mhl => decide))
    | ((with_reducible apply Laws.State.readInFault_kept); (case mhl => decide))
    | ((with_reducible apply Laws.State.runCmd_kept); (case mhl => decide))
    | ((with_reducible apply Laws.State.writeOut_kept ?mhl (by assumption)); (case mhl => decide))
    | with_reducible apply Kept.ite
    | with_reducible apply Kept.getD
    | (fail_if_no_progress ((with_reducible apply Kept.upd); (case ho => (refine Only.of (fun p hp => ?_) rfl; cases p <;> first | rfl | (refine absurd ?_ hp; decide))); (case hi => (repeat' first | with_reducible exact IoKept.refl _ | with_reducible apply IoKept.ite | with_reducible apply IoKept.foldl | with_reducible apply IoKept.put | with_reducible apply IoKept.filter | (fail_if_no_progress with_reducible apply IoKept.upd) | intro _ | dsimp only | split)); (case ht => (repeat' first | with_reducible exact T1Kept.refl _ | with_reducible apply T1Kept.ite | with_reducible apply T1Kept.foldl | with_reducible apply T1Kept.put | with_reducible apply T1Kept.filter | (fail_if_no_progress with_reducible apply T1Kept.upd) | intro _ | dsimp only | split))))
    | intro _
    | dsimp only
    | split
theorem State.ctxQuery_kept {ml : List StateField} {mz : State} {s : State} {c : Cmd} (mhl : [.io, .t1, .answers] ⊆ ml) (mh : Kept ml mz s) : Kept ml mz (State.ctxQuery s c) :=
  Kept.after ((State.ctxQuery_frame s c).mono mhl) mh

theorem execCtxQuery_kept (c : Cmd) (s : State) : ∃ out, execCtxQuery c s = .next out ∧ Kept [.io, .t1, .answers] s out := by
  unfold execCtxQuery
  try dsimp only
  refine ⟨_, rfl, ?_⟩
  try dsimp only
  repeat' first
    | with_reducible exact Kept.refl _
    | ((with_reducible apply Laws.State.ctxQuery_kept); (case mhl => decide))
    | with_reducible apply Kept.ite
    | intro _
    | dsimp only
    | split

theorem State.ctxFree_frame (s : State) (c : Cmd) : Kept [.io, .t1, .contexts, .answers, .windows, .aisle] s (State.ctxFree s c) := by
  unfold State.ctxFree
  try dsimp only
  repeat' first
    | with_reducible exact Kept.refl _
    | ((with_reducible apply Laws.State.complete_kept); (case mhl => decide))
    | ((with_reducible apply Laws.State.freeContext_kept); (case mhl => decide))
    | ((with_reducible apply Laws.State.runHeld_kept); (case mhl => decide))
    | with_reducible apply Kept.ite
    | with_reducible apply Kept.getD
    | (fail_if_no_progress ((with_reducible apply Kept.upd); (case ho => (refine Only.of (fun p hp => ?_) rfl; cases p <;> first | rfl | (refine absurd ?_ hp; decide))); (case hi => (repeat' first | with_reducible exact IoKept.refl _ | with_reducible apply IoKept.ite | with_reducible apply IoKept.foldl | with_reducible apply IoKept.put | with_reducible apply IoKept.filter | (fail_if_no_progress with_reducible apply IoKept.upd) | intro _ | dsimp only | split)); (case ht => (repeat' first | with_reducible exact T1Kept.refl _ | with_reducible apply T1Kept.ite | with_reducible apply T1Kept.foldl | with_reducible apply T1Kept.put | with_reducible apply T1Kept.filter | (fail_if_no_progress with_reducible apply T1Kept.upd) | intro _ | dsimp only | split))))
    | intro _
    | dsimp only
    | split
theorem State.ctxFree_kept {ml : List StateField} {mz : State} {s : State} {c : Cmd} (mhl : [.io, .t1, .contexts, .answers, .windows, .aisle] ⊆ ml) (mh : Kept ml mz s) : Kept ml mz (State.ctxFree s c) :=
  Kept.after ((State.ctxFree_frame s c).mono mhl) mh

theorem execCtxFree_kept (c : Cmd) (s : State) : ∃ out, execCtxFree c s = .next out ∧ Kept [.io, .t1, .contexts, .answers, .windows, .aisle] s out := by
  unfold execCtxFree
  try dsimp only
  refine ⟨_, rfl, ?_⟩
  try dsimp only
  repeat' first
    | with_reducible exact Kept.refl _
    | ((with_reducible apply Laws.State.ctxFree_kept); (case mhl => decide))
    | with_reducible apply Kept.ite
    | intro _
    | dsimp only
    | split

theorem State.setPart_frame (s : State) (p : Nat) (x : PartX) : Kept [.parts] s (State.setPart s p x) := by
  unfold State.setPart
  try dsimp only
  repeat' first
    | with_reducible exact Kept.refl _
    | with_reducible apply Kept.ite
    | (fail_if_no_progress ((with_reducible apply Kept.upd); (case ho => (refine Only.of (fun p hp => ?_) rfl; cases p <;> first | rfl | (refine absurd ?_ hp; decide))); (case hi => exact IoKept.refl _); (case ht => exact T1Kept.refl _)))
    | intro _
    | dsimp only
    | split
theorem State.setPart_kept {ml : List StateField} {mz : State} {s : State} {p : Nat} {x : PartX} (mhl : [.parts] ⊆ ml) (mh : Kept ml mz s) : Kept ml mz (State.setPart s p x) :=
  Kept.after ((State.setPart_frame s p x).mono mhl) mh

theorem State.prepare_frame (s : State) (p slot : Nat) : Kept [.io, .t1, .units, .contexts, .tallies, .net] s (State.prepare s p slot) := by
  unfold State.prepare
  try dsimp only
  repeat' first
    | with_reducible exact Kept.refl _
    | ((with_reducible apply Laws.State.setContext_kept); (case mhl => decide))
    | ((with_reducible apply Laws.State.switchOut_kept); (case mhl => decide))
    | with_reducible apply Kept.ite
    | (fail_if_no_progress ((with_reducible apply Kept.upd); (case ho => (refine Only.of (fun p hp => ?_) rfl; cases p <;> first | rfl | (refine absurd ?_ hp; decide))); (case hi => (repeat' first | with_reducible exact IoKept.refl _ | with_reducible apply IoKept.ite | with_reducible apply IoKept.foldl | with_reducible apply IoKept.put | with_reducible apply IoKept.filter | (fail_if_no_progress with_reducible apply IoKept.upd) | intro _ | dsimp only | split)); (case ht => (repeat' first | with_reducible exact T1Kept.refl _ | with_reducible apply T1Kept.ite | with_reducible apply T1Kept.foldl | with_reducible apply T1Kept.put | with_reducible apply T1Kept.filter | (fail_if_no_progress with_reducible apply T1Kept.upd) | intro _ | dsimp only | split))))
    | intro _
    | dsimp only
    | split
theorem State.prepare_kept {ml : List StateField} {mz : State} {s : State} {p slot : Nat} (mhl : [.io, .t1, .units, .contexts, .tallies, .net] ⊆ ml) (mh : Kept ml mz s) : Kept ml mz (State.prepare s p slot) :=
  Kept.after ((State.prepare_frame s p slot).mono mhl) mh

theorem State.runPrepared_frame (s : State) (slot : Nat) : Kept [.io, .t1, .shed, .stalls, .units, .ops, .mirrors, .contexts, .answers, .tallies, .textCache, .rounds, .net] s (State.runPrepared s slot) := by
  unfold State.runPrepared
  try dsimp only
  repeat' first
    | with_reducible exact Kept.refl _
    | ((with_reducible apply Laws.State.resumeContext_kept); (case mhl => decide))
    | ((with_reducible apply Laws.State.startContext_kept); (case mhl => decide))
    | with_reducible apply Kept.ite
    | intro _
    | dsimp only
    | split
theorem State.runPrepared_kept {ml : List StateField} {mz : State} {s : State} {slot : Nat} (mhl : [.io, .t1, .shed, .stalls, .units, .ops, .mirrors, .contexts, .answers, .tallies, .textCache, .rounds, .net] ⊆ ml) (mh : Kept ml mz s) : Kept ml mz (State.runPrepared s slot) :=
  Kept.after ((State.runPrepared_frame s slot).mono mhl) mh

theorem execSwitchWindowOpen_kept (p : Nat) (s : State) : ∃ out, execSwitchWindowOpen p s = .next out ∧ Kept [.io, .t1, .units, .contexts, .tallies, .net] s out := by
  unfold execSwitchWindowOpen
  try dsimp only
  refine ⟨_, rfl, ?_⟩
  try dsimp only
  repeat' first
    | with_reducible exact Kept.refl _
    | ((with_reducible apply Laws.State.prepare_kept); (case mhl => decide))
    | with_reducible apply Kept.ite
    | (fail_if_no_progress ((with_reducible apply Kept.upd); (case ho => (refine Only.of (fun p hp => ?_) rfl; cases p <;> first | rfl | (refine absurd ?_ hp; decide))); (case hi => (repeat' first | with_reducible exact IoKept.refl _ | with_reducible apply IoKept.ite | with_reducible apply IoKept.foldl | with_reducible apply IoKept.put | with_reducible apply IoKept.filter | (fail_if_no_progress with_reducible apply IoKept.upd) | intro _ | dsimp only | split)); (case ht => (repeat' first | with_reducible exact T1Kept.refl _ | with_reducible apply T1Kept.ite | with_reducible apply T1Kept.foldl | with_reducible apply T1Kept.put | with_reducible apply T1Kept.filter | (fail_if_no_progress with_reducible apply T1Kept.upd) | intro _ | dsimp only | split))))
    | intro _
    | dsimp only
    | split

theorem execSliceEntryStart_kept (p : Nat) (s : State) : ∃ out, execSliceEntryStart p s = .next out ∧ Kept [.io, .t1, .shed, .stalls, .units, .ops, .mirrors, .contexts, .answers, .tallies, .textCache, .rounds, .parts, .net] s out := by
  unfold execSliceEntryStart
  try dsimp only
  refine ⟨_, rfl, ?_⟩
  try dsimp only
  repeat' first
    | with_reducible exact Kept.refl _
    | ((with_reducible apply Laws.State.cellsFreed_kept); (case mhl => decide))
    | ((with_reducible apply Laws.State.prepare_kept); (case mhl => decide))
    | ((with_reducible apply Laws.State.runPrepared_kept); (case mhl => decide))
    | ((with_reducible apply Laws.State.setPart_kept); (case mhl => decide))
    | ((with_reducible apply Kept.iteL); case k => ((repeat' first | with_reducible exact Kept.refl _ | ((with_reducible apply Laws.State.cellsFreed_kept); (case mhl => decide)) | ((with_reducible apply Laws.State.prepare_kept); (case mhl => decide)) | ((with_reducible apply Laws.State.runPrepared_kept); (case mhl => decide)) | ((with_reducible apply Laws.State.setPart_kept); (case mhl => decide)) | with_reducible apply Kept.ite | (fail_if_no_progress ((with_reducible apply Kept.upd); (case ho => (refine Only.of (fun p hp => ?_) rfl; cases p <;> first | rfl | (refine absurd ?_ hp; decide))); (case hi => (repeat' first | with_reducible exact IoKept.refl _ | with_reducible apply IoKept.ite | with_reducible apply IoKept.foldl | with_reducible apply IoKept.put | with_reducible apply IoKept.filter | (fail_if_no_progress with_reducible apply IoKept.upd) | intro _ | dsimp only | split)); (case ht => (repeat' first | with_reducible exact T1Kept.refl _ | with_reducible apply T1Kept.ite | with_reducible apply T1Kept.foldl | with_reducible apply T1Kept.put | with_reducible apply T1Kept.filter | (fail_if_no_progress with_reducible apply T1Kept.upd) | intro _ | dsimp only | split)))) | intro _ | dsimp only | split); done))
    | ((with_reducible apply Kept.iteR); case k => ((repeat' first | with_reducible exact Kept.refl _ | ((with_reducible apply Laws.State.cellsFreed_kept); (case mhl => decide)) | ((with_reducible apply Laws.State.prepare_kept); (case mhl => decide)) | ((with_reducible apply Laws.State.runPrepared_kept); (case mhl => decide)) | ((with_reducible apply Laws.State.setPart_kept); (case mhl => decide)) | with_reducible apply Kept.ite | (fail_if_no_progress ((with_reducible apply Kept.upd); (case ho => (refine Only.of (fun p hp => ?_) rfl; cases p <;> first | rfl | (refine absurd ?_ hp; decide))); (case hi => (repeat' first | with_reducible exact IoKept.refl _ | with_reducible apply IoKept.ite | with_reducible apply IoKept.foldl | with_reducible apply IoKept.put | with_reducible apply IoKept.filter | (fail_if_no_progress with_reducible apply IoKept.upd) | intro _ | dsimp only | split)); (case ht => (repeat' first | with_reducible exact T1Kept.refl _ | with_reducible apply T1Kept.ite | with_reducible apply T1Kept.foldl | with_reducible apply T1Kept.put | with_reducible apply T1Kept.filter | (fail_if_no_progress with_reducible apply T1Kept.upd) | intro _ | dsimp only | split)))) | intro _ | dsimp only | split); done))
    | with_reducible apply Kept.ite
    | (fail_if_no_progress ((with_reducible apply Kept.upd); (case ho => (refine Only.of (fun p hp => ?_) rfl; cases p <;> first | rfl | (refine absurd ?_ hp; decide))); (case hi => (repeat' first | with_reducible exact IoKept.refl _ | with_reducible apply IoKept.ite | with_reducible apply IoKept.foldl | with_reducible apply IoKept.put | with_reducible apply IoKept.filter | (fail_if_no_progress with_reducible apply IoKept.upd) | intro _ | dsimp only | split)); (case ht => (repeat' first | with_reducible exact T1Kept.refl _ | with_reducible apply T1Kept.ite | with_reducible apply T1Kept.foldl | with_reducible apply T1Kept.put | with_reducible apply T1Kept.filter | (fail_if_no_progress with_reducible apply T1Kept.upd) | intro _ | dsimp only | split))))
    | intro _
    | dsimp only
    | split

theorem State.launchAt_frame (s : State) (slot : Nat) : Kept [.io, .t1, .shed, .stalls, .units, .ops, .mirrors, .contexts, .answers, .tallies, .textCache, .rounds, .net] s (State.launchAt s slot) := by
  unfold State.launchAt
  try dsimp only
  repeat' first
    | with_reducible exact Kept.refl _
    | ((with_reducible apply Laws.State.prepare_kept); (case mhl => decide))
    | ((with_reducible apply Laws.State.runPrepared_kept); (case mhl => decide))
    | ((with_reducible apply Laws.State.startContext_kept); (case mhl => decide))
    | ((with_reducible apply Kept.iteL); case k => ((repeat' first | with_reducible exact Kept.refl _ | ((with_reducible apply Laws.State.prepare_kept); (case mhl => decide)) | ((with_reducible apply Laws.State.runPrepared_kept); (case mhl => decide)) | ((with_reducible apply Laws.State.startContext_kept); (case mhl => decide)) | with_reducible apply Kept.ite | intro _ | dsimp only | split); done))
    | ((with_reducible apply Kept.iteR); case k => ((repeat' first | with_reducible exact Kept.refl _ | ((with_reducible apply Laws.State.prepare_kept); (case mhl => decide)) | ((with_reducible apply Laws.State.runPrepared_kept); (case mhl => decide)) | ((with_reducible apply Laws.State.startContext_kept); (case mhl => decide)) | with_reducible apply Kept.ite | intro _ | dsimp only | split); done))
    | with_reducible apply Kept.ite
    | intro _
    | dsimp only
    | split
theorem State.launchAt_kept {ml : List StateField} {mz : State} {s : State} {slot : Nat} (mhl : [.io, .t1, .shed, .stalls, .units, .ops, .mirrors, .contexts, .answers, .tallies, .textCache, .rounds, .net] ⊆ ml) (mh : Kept ml mz s) : Kept ml mz (State.launchAt s slot) :=
  Kept.after ((State.launchAt_frame s slot).mono mhl) mh

theorem execContextLaunchAt_kept (slot : Nat) (s : State) : ∃ out, execContextLaunchAt slot s = .next out ∧ Kept [.io, .t1, .shed, .stalls, .units, .ops, .mirrors, .contexts, .answers, .tallies, .textCache, .rounds, .net] s out := by
  unfold execContextLaunchAt
  try dsimp only
  refine ⟨_, rfl, ?_⟩
  try dsimp only
  repeat' first
    | with_reducible exact Kept.refl _
    | ((with_reducible apply Laws.State.launchAt_kept); (case mhl => decide))
    | with_reducible apply Kept.ite
    | intro _
    | dsimp only
    | split

theorem execRunLimitExpiry_kept (slot : Nat) (s : State) : ∃ out, execRunLimitExpiry slot s = .next out ∧ Kept [.io, .t1, .shed, .stalls, .units, .ops, .mirrors, .contexts, .answers, .tallies, .textCache, .rounds, .net] s out := by
  unfold execRunLimitExpiry
  try dsimp only
  refine ⟨_, rfl, ?_⟩
  try dsimp only
  repeat' first
    | with_reducible exact Kept.refl _
    | ((with_reducible apply Laws.State.faultContext_kept); (case mhl => decide))
    | with_reducible apply Kept.ite
    | intro _
    | dsimp only
    | split

end Sys2Proof.Laws
end

