-- ==== Sys2Proof/Laws/KeptRounds.lean ====
section
/-! SUPPORT. The frame lemma of every operation of Machine/Rounds.lean: which fields of the state it may change, and that it keeps the canonical
forms. -/

set_option Elab.async false
set_option linter.unusedTactic false
set_option linter.unreachableTactic false
set_option linter.unusedVariables false

namespace Sys2Proof.Laws

open Sys2Proof Sys2Proof.Machine Sys2Proof.Safety

theorem State.setRound_frame (s : State) (t : Nat) (r : RoundX) : Kept [.rounds] s (State.setRound s t r) := by
  unfold State.setRound
  try dsimp only
  repeat' first
    | with_reducible exact Kept.refl _
    | with_reducible apply Kept.ite
    | (fail_if_no_progress ((with_reducible apply Kept.upd); (case ho => (refine Only.of (fun p hp => ?_) rfl; cases p <;> first | rfl | (refine absurd ?_ hp; decide))); (case hi => exact IoKept.refl _); (case ht => exact T1Kept.refl _)))
    | intro _
    | dsimp only
    | split
theorem State.setRound_kept {ml : List StateField} {mz : State} {s : State} {t : Nat} {r : RoundX} (mhl : [.rounds] ⊆ ml) (mh : Kept ml mz s) : Kept ml mz (State.setRound s t r) :=
  Kept.after ((State.setRound_frame s t r).mono mhl) mh

theorem State.issueRound_frame (s : State) (w : RoundWait) (t : Nat) (b : List Byte) : Kept [.io, .contexts, .answers, .rounds] s (State.issueRound s w t b) := by
  unfold State.issueRound
  try dsimp only
  repeat' first
    | with_reducible exact Kept.refl _
    | ((with_reducible apply Laws.State.answerHub_kept); (case mhl => decide))
    | ((with_reducible apply Laws.State.deny_kept); (case mhl => decide))
    | ((with_reducible apply Laws.State.launch_kept); (case mhl => decide))
    | ((with_reducible apply Laws.State.setRound_kept); (case mhl => decide))
    | ((with_reducible apply Kept.iteL); case k => ((repeat' first | with_reducible exact Kept.refl _ | ((with_reducible apply Laws.State.answerHub_kept); (case mhl => decide)) | ((with_reducible apply Laws.State.deny_kept); (case mhl => decide)) | ((with_reducible apply Laws.State.launch_kept); (case mhl => decide)) | ((with_reducible apply Laws.State.setRound_kept); (case mhl => decide)) | with_reducible apply Kept.ite | (fail_if_no_progress ((with_reducible apply Kept.upd); (case ho => (refine Only.of (fun p hp => ?_) rfl; cases p <;> first | rfl | (refine absurd ?_ hp; decide))); (case hi => (repeat' first | with_reducible exact IoKept.refl _ | with_reducible apply IoKept.ite | with_reducible apply IoKept.foldl | with_reducible apply IoKept.put | with_reducible apply IoKept.filter | (fail_if_no_progress with_reducible apply IoKept.upd) | intro _ | dsimp only | split)); (case ht => exact T1Kept.refl _))) | intro _ | dsimp only | split); done))
    | ((with_reducible apply Kept.iteR); case k => ((repeat' first | with_reducible exact Kept.refl _ | ((with_reducible apply Laws.State.answerHub_kept); (case mhl => decide)) | ((with_reducible apply Laws.State.deny_kept); (case mhl => decide)) | ((with_reducible apply Laws.State.launch_kept); (case mhl => decide)) | ((with_reducible apply Laws.State.setRound_kept); (case mhl => decide)) | with_reducible apply Kept.ite | (fail_if_no_progress ((with_reducible apply Kept.upd); (case ho => (refine Only.of (fun p hp => ?_) rfl; cases p <;> first | rfl | (refine absurd ?_ hp; decide))); (case hi => (repeat' first | with_reducible exact IoKept.refl _ | with_reducible apply IoKept.ite | with_reducible apply IoKept.foldl | with_reducible apply IoKept.put | with_reducible apply IoKept.filter | (fail_if_no_progress with_reducible apply IoKept.upd) | intro _ | dsimp only | split)); (case ht => exact T1Kept.refl _))) | intro _ | dsimp only | split); done))
    | with_reducible apply Kept.ite
    | (fail_if_no_progress ((with_reducible apply Kept.upd); (case ho => (refine Only.of (fun p hp => ?_) rfl; cases p <;> first | rfl | (refine absurd ?_ hp; decide))); (case hi => (repeat' first | with_reducible exact IoKept.refl _ | with_reducible apply IoKept.ite | with_reducible apply IoKept.foldl | with_reducible apply IoKept.put | with_reducible apply IoKept.filter | (fail_if_no_progress with_reducible apply IoKept.upd) | intro _ | dsimp only | split)); (case ht => exact T1Kept.refl _)))
    | intro _
    | dsimp only
    | split
theorem State.issueRound_kept {ml : List StateField} {mz : State} {s : State} {w : RoundWait} {t : Nat} {b : List Byte} (mhl : [.io, .contexts, .answers, .rounds] ⊆ ml) (mh : Kept ml mz s) : Kept ml mz (State.issueRound s w t b) :=
  Kept.after ((State.issueRound_frame s w t b).mono mhl) mh

theorem execScRound_kept (n : Insn) (s : State) : ∃ out, execScRound n s = .next out ∧ Kept [.io, .yt, .t1, .shed, .prefetch, .stalls, .units, .ops, .mirrors, .redirects, .cp, .cpSlots, .contexts, .answers, .tallies, .textCache, .rounds, .svChanged, .net, .sec] s out := by
  unfold execScRound
  try dsimp only
  refine ⟨_, rfl, ?_⟩
  try dsimp only
  repeat' first
    | with_reducible exact Kept.refl _
    | with_reducible exact DidKept.refl _
    | with_reducible apply DidKept.done
    | with_reducible apply DidKept.hold
    | with_reducible apply DidKept.fault
    | with_reducible apply DidKept.ite
    | ((with_reducible apply Laws.State.afterRead_kept); (case mhl => decide))
    | ((with_reducible apply Laws.State.checkPoison_kept); (case mhl => decide))
    | ((with_reducible apply Laws.State.complete_kept); (case mhl => decide))
    | ((with_reducible apply Laws.State.issueRound_kept); (case mhl => decide))
    | ((with_reducible apply Laws.State.request_kept); (case mhl => decide))
    | ((with_reducible apply Laws.State.runInsn_kept); (case mhl => decide))
    | with_reducible apply Kept.ite
    | (fail_if_no_progress ((with_reducible apply Kept.upd); (case ho => (refine Only.of (fun p hp => ?_) rfl; cases p <;> first | rfl | (refine absurd ?_ hp; decide))); (case hi => (repeat' first | with_reducible exact IoKept.refl _ | with_reducible apply IoKept.ite | with_reducible apply IoKept.foldl | with_reducible apply IoKept.put | with_reducible apply IoKept.filter | (fail_if_no_progress with_reducible apply IoKept.upd) | intro _ | dsimp only | split)); (case ht => (repeat' first | with_reducible exact T1Kept.refl _ | with_reducible apply T1Kept.ite | with_reducible apply T1Kept.foldl | with_reducible apply T1Kept.put | with_reducible apply T1Kept.filter | (fail_if_no_progress with_reducible apply T1Kept.upd) | intro _ | dsimp only | split))))
    | intro _
    | dsimp only
    | split

theorem State.linkPages_frame (s : State) (i layer n : Nat) {v0 : State} (me : State.linkPages s i layer n = some v0) : Kept [.t1, .stalls] s v0 := by
  unfold State.linkPages at me
  try dsimp only at me
  repeat' first
    | contradiction
    | (cases me; done)
    | cases me
    | (rw [Option.map_eq_some_iff] at me; obtain ⟨_, _, me⟩ := me; cases me)
    | (rw [Option.bind_eq_some_iff] at me; obtain ⟨_, _, me⟩ := me)
    | split at me
  all_goals
    repeat' first
      | with_reducible exact Kept.refl _
      | ((with_reducible apply Laws.State.setStall_kept); (case mhl => decide))
      | ((with_reducible apply Laws.State.takePages_kept ?mhl (by assumption)); (case mhl => decide))
      | ((with_reducible apply Laws.State.writeT1_kept); (case mhl => decide))
      | with_reducible apply Kept.ite
      | with_reducible apply Kept.foldl
      | with_reducible apply Kept.foldlFst
      | with_reducible apply Kept.foldlSnd
      | (fail_if_no_progress ((with_reducible apply Kept.upd); (case ho => (refine Only.of (fun p hp => ?_) rfl; cases p <;> first | rfl | (refine absurd ?_ hp; decide))); (case hi => exact IoKept.refl _); (case ht => (repeat' first | with_reducible exact T1Kept.refl _ | with_reducible apply T1Kept.ite | with_reducible apply T1Kept.foldl | with_reducible apply T1Kept.put | with_reducible apply T1Kept.filter | (fail_if_no_progress with_reducible apply T1Kept.upd) | intro _ | dsimp only | split))))
      | intro _
      | dsimp only
      | split
theorem State.linkPages_kept {ml : List StateField} {mz : State} {s : State} {i layer n : Nat} {v0 : State} (mhl : [.t1, .stalls] ⊆ ml) (me : State.linkPages s i layer n = some v0) (mh : Kept ml mz s) : Kept ml mz v0 :=
  Kept.after ((State.linkPages_frame s i layer n me).mono mhl) mh

theorem State.pageLayer_frame (s : State) (i n layer : Nat) (ok : Bool) : Kept [.io, .t1, .stalls] s (State.pageLayer s i n layer ok).1 := by
  unfold State.pageLayer
  try dsimp only
  repeat' first
    | with_reducible exact Kept.refl _
    | ((with_reducible apply Laws.State.linkPages_kept ?mhl (by assumption)); (case mhl => decide))
    | ((with_reducible apply Laws.State.startReloc_kept); (case mhl => decide))
    | with_reducible apply Kept.ite
    | with_reducible apply Kept.getD
    | (fail_if_no_progress ((with_reducible apply Kept.upd); (case ho => (refine Only.of (fun p hp => ?_) rfl; cases p <;> first | rfl | (refine absurd ?_ hp; decide))); (case hi => (repeat' first | with_reducible exact IoKept.refl _ | with_reducible apply IoKept.ite | with_reducible apply IoKept.foldl | with_reducible apply IoKept.put | with_reducible apply IoKept.filter | (fail_if_no_progress with_reducible apply IoKept.upd) | intro _ | dsimp only | split)); (case ht => (repeat' first | with_reducible exact T1Kept.refl _ | with_reducible apply T1Kept.ite | with_reducible apply T1Kept.foldl | with_reducible apply T1Kept.put | with_reducible apply T1Kept.filter | (fail_if_no_progress with_reducible apply T1Kept.upd) | intro _ | dsimp only | split))))
    | intro _
    | dsimp only
    | split
theorem State.pageLayer_kept {ml : List StateField} {mz : State} {s : State} {i n layer : Nat} {ok : Bool} (mhl : [.io, .t1, .stalls] ⊆ ml) (mh : Kept ml mz s) : Kept ml mz (State.pageLayer s i n layer ok).1 :=
  Kept.after ((State.pageLayer_frame s i n layer ok).mono mhl) mh
theorem State.pageLayer_kept' {ml : List StateField} {mz : State} {s : State} {i n layer : Nat} {ok : Bool} {v0 : State} {v1 : Bool} (mhl : [.io, .t1, .stalls] ⊆ ml) (me : State.pageLayer s i n layer ok = (v0, v1)) (mh : Kept ml mz s) : Kept ml mz v0 := by
  have mk := Kept.after ((State.pageLayer_frame s i n layer ok).mono mhl) mh
  rw [me] at mk
  exact mk

theorem State.pagesOk_frame (s : State) (c : Cand) : Kept [.io, .t1, .stalls] s (State.pagesOk s c).1 := by
  unfold State.pagesOk
  try dsimp only
  repeat' first
    | with_reducible exact Kept.refl _
    | ((with_reducible apply Laws.State.pageLayer_kept' ?mhl (by assumption)); (case mhl => decide))
    | ((with_reducible apply Laws.State.pageLayer_kept); (case mhl => decide))
    | ((with_reducible apply Laws.State.vacate_kept); (case mhl => decide))
    | with_reducible apply Kept.ite
    | with_reducible apply Kept.foldl
    | with_reducible apply Kept.foldlFst
    | with_reducible apply Kept.foldlSnd
    | with_reducible apply Kept.getD
    | intro _
    | dsimp only
    | split
theorem State.pagesOk_kept {ml : List StateField} {mz : State} {s : State} {c : Cand} (mhl : [.io, .t1, .stalls] ⊆ ml) (mh : Kept ml mz s) : Kept ml mz (State.pagesOk s c).1 :=
  Kept.after ((State.pagesOk_frame s c).mono mhl) mh
theorem State.pagesOk_kept' {ml : List StateField} {mz : State} {s : State} {c : Cand} {v0 : State} {v1 : Bool} (mhl : [.io, .t1, .stalls] ⊆ ml) (me : State.pagesOk s c = (v0, v1)) (mh : Kept ml mz s) : Kept ml mz v0 := by
  have mk := Kept.after ((State.pagesOk_frame s c).mono mhl) mh
  rw [me] at mk
  exact mk

theorem State.pagesPass_frame (s : State) (l : List Cand) : Kept [.io, .t1, .stalls] s (State.pagesPass s l).1 := by
  induction l generalizing s with
  | nil => exact Kept.refl _
  | cons c cs ih => exact (ih _).after (State.pagesOk_kept (by decide) (Kept.refl _))
theorem State.pagesPass_kept {ml : List StateField} {mz : State} {s : State} {x0 : List Cand} (mhl : [.io, .t1, .stalls] ⊆ ml) (mh : Kept ml mz s) : Kept ml mz (State.pagesPass s x0).1 :=
  Kept.after ((State.pagesPass_frame s x0).mono mhl) mh
theorem State.pagesPass_kept' {ml : List StateField} {mz : State} {s : State} {x0 : List Cand} {v0 : State} {v1 : List Cand} (mhl : [.io, .t1, .stalls] ⊆ ml) (me : State.pagesPass s x0 = (v0, v1)) (mh : Kept ml mz s) : Kept ml mz v0 := by
  have mk := Kept.after ((State.pagesPass_frame s x0).mono mhl) mh
  rw [me] at mk
  exact mk

theorem State.reserve_frame (s : State) (c : Cand) {v0 : State} {v1 : Cand} (me : State.reserve s c = some (v0, v1)) : Kept [.io, .stalls, .emptyRaised] s v0 := by
  unfold State.reserve at me
  try dsimp only at me
  repeat' first
    | contradiction
    | (cases me; done)
    | cases me
    | (rw [Option.map_eq_some_iff] at me; obtain ⟨_, _, me⟩ := me; cases me)
    | (rw [Option.bind_eq_some_iff] at me; obtain ⟨_, _, me⟩ := me)
    | split at me
  all_goals
    repeat' first
      | with_reducible exact Kept.refl _
      | ((with_reducible apply Laws.State.charge_kept); (case mhl => decide))
      | ((with_reducible apply Laws.State.updHdr_kept); (case mhl => decide))
      | with_reducible apply Kept.ite
      | (fail_if_no_progress ((with_reducible apply Kept.upd); (case ho => (refine Only.of (fun p hp => ?_) rfl; cases p <;> first | rfl | (refine absurd ?_ hp; decide))); (case hi => (repeat' first | with_reducible exact IoKept.refl _ | with_reducible apply IoKept.ite | with_reducible apply IoKept.foldl | with_reducible apply IoKept.put | with_reducible apply IoKept.filter | (fail_if_no_progress with_reducible apply IoKept.upd) | intro _ | dsimp only | split)); (case ht => exact T1Kept.refl _)))
      | intro _
      | dsimp only
      | split
theorem State.reserve_kept {ml : List StateField} {mz : State} {s : State} {c : Cand} {v0 : State} {v1 : Cand} (mhl : [.io, .stalls, .emptyRaised] ⊆ ml) (me : State.reserve s c = some (v0, v1)) (mh : Kept ml mz s) : Kept ml mz v0 :=
  Kept.after ((State.reserve_frame s c me).mono mhl) mh

theorem State.budgetPass_frame (s : State) (l : List Cand) : Kept [.io, .stalls, .emptyRaised] s (State.budgetPass s l).1 := by
  induction l generalizing s with
  | nil => exact Kept.refl _
  | cons c cs ih =>
    unfold State.budgetPass
    split
    · exact ih _
    · next hr => exact (ih _).after (State.reserve_kept (by decide) hr (Kept.refl _))
theorem State.budgetPass_kept {ml : List StateField} {mz : State} {s : State} {x0 : List Cand} (mhl : [.io, .stalls, .emptyRaised] ⊆ ml) (mh : Kept ml mz s) : Kept ml mz (State.budgetPass s x0).1 :=
  Kept.after ((State.budgetPass_frame s x0).mono mhl) mh
theorem State.budgetPass_kept' {ml : List StateField} {mz : State} {s : State} {x0 : List Cand} {v0 : State} {v1 : List Cand} (mhl : [.io, .stalls, .emptyRaised] ⊆ ml) (me : State.budgetPass s x0 = (v0, v1)) (mh : Kept ml mz s) : Kept ml mz v0 := by
  have mk := Kept.after ((State.budgetPass_frame s x0).mono mhl) mh
  rw [me] at mk
  exact mk

theorem State.copyProfile_frame (s : State) (i : Nat) : Kept [.io, .yt, .t1, .shed, .prefetch, .stalls, .units, .ops, .mirrors, .redirects, .cp, .cpSlots, .contexts, .answers, .tallies, .textCache, .rounds, .svChanged, .net] s (State.copyProfile s i).1 := by
  unfold State.copyProfile
  try dsimp only
  repeat' first
    | with_reducible exact Kept.refl _
    | ((with_reducible apply Laws.State.reading1_kept' ?mhl (by assumption)); (case mhl => decide))
    | ((with_reducible apply Laws.State.reading1_kept); (case mhl => decide))
    | ((with_reducible apply Laws.State.stallEvent_kept); (case mhl => decide))
    | with_reducible apply Kept.ite
    | (fail_if_no_progress ((with_reducible apply Kept.upd); (case ho => (refine Only.of (fun p hp => ?_) rfl; cases p <;> first | rfl | (refine absurd ?_ hp; decide))); (case hi => (repeat' first | with_reducible exact IoKept.refl _ | with_reducible apply IoKept.ite | with_reducible apply IoKept.foldl | with_reducible apply IoKept.put | with_reducible apply IoKept.filter | (fail_if_no_progress with_reducible apply IoKept.upd) | intro _ | dsimp only | split)); (case ht => (repeat' first | with_reducible exact T1Kept.refl _ | with_reducible apply T1Kept.ite | with_reducible apply T1Kept.foldl | with_reducible apply T1Kept.put | with_reducible apply T1Kept.filter | (fail_if_no_progress with_reducible apply T1Kept.upd) | intro _ | dsimp only | split))))
    | intro _
    | dsimp only
    | split
theorem State.copyProfile_kept {ml : List StateField} {mz : State} {s : State} {i : Nat} (mhl : [.io, .yt, .t1, .shed, .prefetch, .stalls, .units, .ops, .mirrors, .redirects, .cp, .cpSlots, .contexts, .answers, .tallies, .textCache, .rounds, .svChanged, .net] ⊆ ml) (mh : Kept ml mz s) : Kept ml mz (State.copyProfile s i).1 :=
  Kept.after ((State.copyProfile_frame s i).mono mhl) mh
theorem State.copyProfile_kept' {ml : List StateField} {mz : State} {s : State} {i : Nat} {v0 : State} {v1 : Nat} {v2 : Option (List Byte)} (mhl : [.io, .yt, .t1, .shed, .prefetch, .stalls, .units, .ops, .mirrors, .redirects, .cp, .cpSlots, .contexts, .answers, .tallies, .textCache, .rounds, .svChanged, .net] ⊆ ml) (me : State.copyProfile s i = (v0, v1, v2)) (mh : Kept ml mz s) : Kept ml mz v0 := by
  have mk := Kept.after ((State.copyProfile_frame s i).mono mhl) mh
  rw [me] at mk
  exact mk

theorem State.takeStall_frame (s : State) (id : Nat) (c : Cand) : Kept [.io, .yt, .t1, .shed, .prefetch, .stalls, .units, .ops, .mirrors, .redirects, .cp, .cpSlots, .contexts, .answers, .tallies, .textCache, .rounds, .svChanged, .net] s (State.takeStall s id c) := by
  unfold State.takeStall
  try dsimp only
  repeat' first
    | with_reducible exact Kept.refl _
    | ((with_reducible apply Laws.State.copyProfile_kept' ?mhl (by assumption)); (case mhl => decide))
    | ((with_reducible apply Laws.State.copyProfile_kept); (case mhl => decide))
    | ((with_reducible apply Laws.State.flushHeld_kept); (case mhl => decide))
    | ((with_reducible apply Laws.State.setStall_kept); (case mhl => decide))
    | with_reducible apply Kept.ite
    | (fail_if_no_progress ((with_reducible apply Kept.upd); (case ho => (refine Only.of (fun p hp => ?_) rfl; cases p <;> first | rfl | (refine absurd ?_ hp; decide))); (case hi => (repeat' first | with_reducible exact IoKept.refl _ | with_reducible apply IoKept.ite | with_reducible apply IoKept.foldl | with_reducible apply IoKept.put | with_reducible apply IoKept.filter | (fail_if_no_progress with_reducible apply IoKept.upd) | intro _ | dsimp only | split)); (case ht => (repeat' first | with_reducible exact T1Kept.refl _ | with_reducible apply T1Kept.ite | with_reducible apply T1Kept.foldl | with_reducible apply T1Kept.put | with_reducible apply T1Kept.filter | (fail_if_no_progress with_reducible apply T1Kept.upd) | intro _ | dsimp only | split))))
    | intro _
    | dsimp only
    | split
theorem State.takeStall_kept {ml : List StateField} {mz : State} {s : State} {id : Nat} {c : Cand} (mhl : [.io, .yt, .t1, .shed, .prefetch, .stalls, .units, .ops, .mirrors, .redirects, .cp, .cpSlots, .contexts, .answers, .tallies, .textCache, .rounds, .svChanged, .net] ⊆ ml) (mh : Kept ml mz s) : Kept ml mz (State.takeStall s id c) :=
  Kept.after ((State.takeStall_frame s id c).mono mhl) mh

theorem State.leaveOut_frame (s : State) (i : Nat) : Kept [.stalls] s (State.leaveOut s i) := by
  unfold State.leaveOut
  try dsimp only
  repeat' first
    | with_reducible exact Kept.refl _
    | ((with_reducible apply Laws.State.setStall_kept); (case mhl => decide))
    | with_reducible apply Kept.ite
    | (fail_if_no_progress ((with_reducible apply Kept.upd); (case ho => (refine Only.of (fun p hp => ?_) rfl; cases p <;> first | rfl | (refine absurd ?_ hp; decide))); (case hi => exact IoKept.refl _); (case ht => exact T1Kept.refl _)))
    | intro _
    | dsimp only
    | split
theorem State.leaveOut_kept {ml : List StateField} {mz : State} {s : State} {i : Nat} (mhl : [.stalls] ⊆ ml) (mh : Kept ml mz s) : Kept ml mz (State.leaveOut s i) :=
  Kept.after ((State.leaveOut_frame s i).mono mhl) mh

theorem State.passes_frame (s : State) (t id m : Nat) (drafts : List (Nat × List Nat)) : Kept [.io, .yt, .t1, .shed, .prefetch, .stalls, .units, .ops, .mirrors, .redirects, .cp, .cpSlots, .contexts, .answers, .tallies, .textCache, .rounds, .svChanged, .emptyRaised, .net] s (s.passes t id m drafts).s := by
  unfold State.passes
  extract_lets s0 order s1 kept cands dirty s2 pages s3 budget s4 s5 s6 s7 s8 taken s9
  have h0 : Kept [.io, .yt, .t1, .shed, .prefetch, .stalls, .units, .ops, .mirrors, .redirects, .cp, .cpSlots, .contexts, .answers, .tallies, .textCache, .rounds, .svChanged, .emptyRaised, .net] s s0 := Kept.foldl (Kept.refl _) (fun u b => State.tend_kept (by decide) (Kept.refl _))
  have h1 : Kept [.io, .yt, .t1, .shed, .prefetch, .stalls, .units, .ops, .mirrors, .redirects, .cp, .cpSlots, .contexts, .answers, .tallies, .textCache, .rounds, .svChanged, .emptyRaised, .net] s s1 := Kept.foldl h0 (fun u b => State.stallEvent_kept (by decide) (Kept.refl _))
  have h2 : Kept [.io, .yt, .t1, .shed, .prefetch, .stalls, .units, .ops, .mirrors, .redirects, .cp, .cpSlots, .contexts, .answers, .tallies, .textCache, .rounds, .svChanged, .emptyRaised, .net] s s2 := Kept.ite (Kept.elim h1 (fun _ _ => State.stallEvent_kept (by decide) h1)) h1
  have h3 : Kept [.io, .yt, .t1, .shed, .prefetch, .stalls, .units, .ops, .mirrors, .redirects, .cp, .cpSlots, .contexts, .answers, .tallies, .textCache, .rounds, .svChanged, .emptyRaised, .net] s s3 := State.pagesPass_kept (by decide) h2
  have h4 : Kept [.io, .yt, .t1, .shed, .prefetch, .stalls, .units, .ops, .mirrors, .redirects, .cp, .cpSlots, .contexts, .answers, .tallies, .textCache, .rounds, .svChanged, .emptyRaised, .net] s s4 := State.budgetPass_kept (by decide) h3
  have h5 : Kept [.io, .yt, .t1, .shed, .prefetch, .stalls, .units, .ops, .mirrors, .redirects, .cp, .cpSlots, .contexts, .answers, .tallies, .textCache, .rounds, .svChanged, .emptyRaised, .net] s s8 := State.bump_kept (by decide) (State.bump_kept (by decide) (State.bump_kept (by decide) (State.bump_kept (by decide) h4)))
  exact Kept.foldl h5 (fun u b => State.leaveOut_kept (by decide) (Kept.refl _))
theorem State.compose_frame (s : State) (t : Nat) (w : RoundWait) (ctx : Nat) (drafts : List (Nat × List Nat)) : Kept [.io, .yt, .t1, .shed, .prefetch, .stalls, .units, .ops, .mirrors, .redirects, .cp, .cpSlots, .contexts, .answers, .tallies, .textCache, .rounds, .svChanged, .emptyRaised, .net] s (State.compose s t w ctx drafts) := by
  unfold State.compose
  extract_lets s0 id r s1 s2 stalls n s3 s4 _ s5 free s6 s7
  have h1 : Kept [.io, .yt, .t1, .shed, .prefetch, .stalls, .units, .ops, .mirrors, .redirects, .cp, .cpSlots, .contexts, .answers, .tallies, .textCache, .rounds, .svChanged, .emptyRaised, .net] s s1 := State.bump_kept (by decide) ((State.passes_frame _ _ _ _ _).after (State.bindSpares_kept (by decide) (Kept.refl _)))
  clear_value s1
  have h2 : Kept [.io, .yt, .t1, .shed, .prefetch, .stalls, .units, .ops, .mirrors, .redirects, .cp, .cpSlots, .contexts, .answers, .tallies, .textCache, .rounds, .svChanged, .emptyRaised, .net] s s2 := Kept.foldl h1 (fun _ _ => State.takeStall_kept (by decide) (Kept.refl _))
  clear_value s2
  have h3 : Kept [.io, .yt, .t1, .shed, .prefetch, .stalls, .units, .ops, .mirrors, .redirects, .cp, .cpSlots, .contexts, .answers, .tallies, .textCache, .rounds, .svChanged, .emptyRaised, .net] s s3 := State.writeT1_kept (by decide) h2
  clear_value s3
  have h4 : Kept [.io, .yt, .t1, .shed, .prefetch, .stalls, .units, .ops, .mirrors, .redirects, .cp, .cpSlots, .contexts, .answers, .tallies, .textCache, .rounds, .svChanged, .emptyRaised, .net] s s4 := Kept.ite h3 (State.writeT1_kept (by decide) h3)
  clear_value s4
  have h5 : Kept [.io, .yt, .t1, .shed, .prefetch, .stalls, .units, .ops, .mirrors, .redirects, .cp, .cpSlots, .contexts, .answers, .tallies, .textCache, .rounds, .svChanged, .emptyRaised, .net] s s5 := State.setContext_kept (by decide) h4
  clear_value s5
  have h6 : Kept [.io, .yt, .t1, .shed, .prefetch, .stalls, .units, .ops, .mirrors, .redirects, .cp, .cpSlots, .contexts, .answers, .tallies, .textCache, .rounds, .svChanged, .emptyRaised, .net] s s6 := State.setRound_kept (by decide) h5
  clear_value s6
  exact State.answerHub_kept (by decide) (Kept.foldl h6 (fun _ _ => State.send_kept (by decide) (Kept.refl _)))
theorem State.compose_kept {ml : List StateField} {mz : State} {s : State} {t : Nat} {w : RoundWait} {ctx : Nat} {drafts : List (Nat × List Nat)} (mhl : [.io, .yt, .t1, .shed, .prefetch, .stalls, .units, .ops, .mirrors, .redirects, .cp, .cpSlots, .contexts, .answers, .tallies, .textCache, .rounds, .svChanged, .emptyRaised, .net] ⊆ ml) (mh : Kept ml mz s) : Kept ml mz (State.compose s t w ctx drafts) :=
  Kept.after ((State.compose_frame s t w ctx drafts).mono mhl) mh

theorem State.refuseRound_frame (s : State) (t : Nat) (w : RoundWait) (status : Nat) : Kept [.answers, .rounds] s (State.refuseRound s t w status) := by
  unfold State.refuseRound
  try dsimp only
  repeat' first
    | with_reducible exact Kept.refl _
    | ((with_reducible apply Laws.State.answerHub_kept); (case mhl => decide))
    | ((with_reducible apply Laws.State.setRound_kept); (case mhl => decide))
    | with_reducible apply Kept.ite
    | (fail_if_no_progress ((with_reducible apply Kept.upd); (case ho => (refine Only.of (fun p hp => ?_) rfl; cases p <;> first | rfl | (refine absurd ?_ hp; decide))); (case hi => exact IoKept.refl _); (case ht => exact T1Kept.refl _)))
    | intro _
    | dsimp only
    | split
theorem State.refuseRound_kept {ml : List StateField} {mz : State} {s : State} {t : Nat} {w : RoundWait} {status : Nat} (mhl : [.answers, .rounds] ⊆ ml) (mh : Kept ml mz s) : Kept ml mz (State.refuseRound s t w status) :=
  Kept.after ((State.refuseRound_frame s t w status).mono mhl) mh

theorem execCompositionPoint_kept (t : Nat) (drafts : List (Nat × List Nat)) (s : State) : ∃ out, execCompositionPoint t drafts s = .next out ∧ Kept [.io, .yt, .t1, .shed, .prefetch, .stalls, .units, .ops, .mirrors, .redirects, .cp, .cpSlots, .contexts, .answers, .tallies, .textCache, .rounds, .svChanged, .emptyRaised, .net] s out := by
  unfold execCompositionPoint
  try dsimp only
  refine ⟨_, rfl, ?_⟩
  try dsimp only
  repeat' first
    | with_reducible exact Kept.refl _
    | ((with_reducible apply Laws.State.compose_kept); (case mhl => decide))
    | ((with_reducible apply Laws.State.launch_kept); (case mhl => decide))
    | ((with_reducible apply Laws.State.raise_kept); (case mhl => decide))
    | ((with_reducible apply Laws.State.refuseRound_kept); (case mhl => decide))
    | ((with_reducible apply Kept.iteL); case k => ((repeat' first | with_reducible exact Kept.refl _ | ((with_reducible apply Laws.State.compose_kept); (case mhl => decide)) | ((with_reducible apply Laws.State.launch_kept); (case mhl => decide)) | ((with_reducible apply Laws.State.raise_kept); (case mhl => decide)) | ((with_reducible apply Laws.State.refuseRound_kept); (case mhl => decide)) | with_reducible apply Kept.ite | (fail_if_no_progress ((with_reducible apply Kept.upd); (case ho => (refine Only.of (fun p hp => ?_) rfl; cases p <;> first | rfl | (refine absurd ?_ hp; decide))); (case hi => (repeat' first | with_reducible exact IoKept.refl _ | with_reducible apply Laws.Io.raise_kept | with_reducible apply IoKept.ite | with_reducible apply IoKept.foldl | with_reducible apply IoKept.put | with_reducible apply IoKept.filter | (fail_if_no_progress with_reducible apply IoKept.upd) | intro _ | dsimp only | split)); (case ht => (repeat' first | with_reducible exact T1Kept.refl _ | with_reducible apply T1Kept.ite | with_reducible apply T1Kept.foldl | with_reducible apply T1Kept.put | with_reducible apply T1Kept.filter | (fail_if_no_progress with_reducible apply T1Kept.upd) | intro _ | dsimp only | split)))) | intro _ | dsimp only | split); done))
    | ((with_reducible apply Kept.iteR); case k => ((repeat' first | with_reducible exact Kept.refl _ | ((with_reducible apply Laws.State.compose_kept); (case mhl => decide)) | ((with_reducible apply Laws.State.launch_kept); (case mhl => decide)) | ((with_reducible apply Laws.State.raise_kept); (case mhl => decide)) | ((with_reducible apply Laws.State.refuseRound_kept); (case mhl => decide)) | with_reducible apply Kept.ite | (fail_if_no_progress ((with_reducible apply Kept.upd); (case ho => (refine Only.of (fun p hp => ?_) rfl; cases p <;> first | rfl | (refine absurd ?_ hp; decide))); (case hi => (repeat' first | with_reducible exact IoKept.refl _ | with_reducible apply Laws.Io.raise_kept | with_reducible apply IoKept.ite | with_reducible apply IoKept.foldl | with_reducible apply IoKept.put | with_reducible apply IoKept.filter | (fail_if_no_progress with_reducible apply IoKept.upd) | intro _ | dsimp only | split)); (case ht => (repeat' first | with_reducible exact T1Kept.refl _ | with_reducible apply T1Kept.ite | with_reducible apply T1Kept.foldl | with_reducible apply T1Kept.put | with_reducible apply T1Kept.filter | (fail_if_no_progress with_reducible apply T1Kept.upd) | intro _ | dsimp only | split)))) | intro _ | dsimp only | split); done))
    | with_reducible apply Kept.ite
    | (fail_if_no_progress ((with_reducible apply Kept.upd); (case ho => (refine Only.of (fun p hp => ?_) rfl; cases p <;> first | rfl | (refine absurd ?_ hp; decide))); (case hi => (repeat' first | with_reducible exact IoKept.refl _ | with_reducible apply Laws.Io.raise_kept | with_reducible apply IoKept.ite | with_reducible apply IoKept.foldl | with_reducible apply IoKept.put | with_reducible apply IoKept.filter | (fail_if_no_progress with_reducible apply IoKept.upd) | intro _ | dsimp only | split)); (case ht => (repeat' first | with_reducible exact T1Kept.refl _ | with_reducible apply T1Kept.ite | with_reducible apply T1Kept.foldl | with_reducible apply T1Kept.put | with_reducible apply T1Kept.filter | (fail_if_no_progress with_reducible apply T1Kept.upd) | intro _ | dsimp only | split))))
    | intro _
    | dsimp only
    | split

theorem State.launchShares_frame (s : State) : Kept [.io, .t1, .shed, .stalls, .units, .ops, .mirrors, .contexts, .answers, .tallies, .textCache, .rounds, .net] s (State.launchShares s) := by
  unfold State.launchShares
  try dsimp only
  repeat' first
    | with_reducible exact Kept.refl _
    | ((with_reducible apply Laws.State.launchAt_kept); (case mhl => decide))
    | with_reducible apply Kept.ite
    | with_reducible apply Kept.foldl
    | with_reducible apply Kept.foldlFst
    | with_reducible apply Kept.foldlSnd
    | (fail_if_no_progress ((with_reducible apply Kept.upd); (case ho => (refine Only.of (fun p hp => ?_) rfl; cases p <;> first | rfl | (refine absurd ?_ hp; decide))); (case hi => (repeat' first | with_reducible exact IoKept.refl _ | with_reducible apply IoKept.ite | with_reducible apply IoKept.foldl | with_reducible apply IoKept.put | with_reducible apply IoKept.filter | (fail_if_no_progress with_reducible apply IoKept.upd) | intro _ | dsimp only | split)); (case ht => (repeat' first | with_reducible exact T1Kept.refl _ | with_reducible apply T1Kept.ite | with_reducible apply T1Kept.foldl | with_reducible apply T1Kept.put | with_reducible apply T1Kept.filter | (fail_if_no_progress with_reducible apply T1Kept.upd) | intro _ | dsimp only | split))))
    | intro _
    | dsimp only
    | split
theorem State.launchShares_kept {ml : List StateField} {mz : State} {s : State} (mhl : [.io, .t1, .shed, .stalls, .units, .ops, .mirrors, .contexts, .answers, .tallies, .textCache, .rounds, .net] ⊆ ml) (mh : Kept ml mz s) : Kept ml mz (State.launchShares s) :=
  Kept.after ((State.launchShares_frame s).mono mhl) mh

theorem execRoundLaunch_kept (t : Nat) (s : State) : ∃ out, execRoundLaunch t s = .next out ∧ Kept [.io, .t1, .shed, .stalls, .units, .ops, .mirrors, .contexts, .answers, .tallies, .textCache, .rounds, .net] s out := by
  unfold execRoundLaunch
  try dsimp only
  refine ⟨_, rfl, ?_⟩
  try dsimp only
  repeat' first
    | with_reducible exact Kept.refl _
    | ((with_reducible apply Laws.State.launchAt_kept); (case mhl => decide))
    | ((with_reducible apply Laws.State.launchShares_kept); (case mhl => decide))
    | ((with_reducible apply Laws.State.launch_kept); (case mhl => decide))
    | with_reducible apply Kept.ite
    | (fail_if_no_progress ((with_reducible apply Kept.upd); (case ho => (refine Only.of (fun p hp => ?_) rfl; cases p <;> first | rfl | (refine absurd ?_ hp; decide))); (case hi => (repeat' first | with_reducible exact IoKept.refl _ | with_reducible apply IoKept.ite | with_reducible apply IoKept.foldl | with_reducible apply IoKept.put | with_reducible apply IoKept.filter | (fail_if_no_progress with_reducible apply IoKept.upd) | intro _ | dsimp only | split)); (case ht => (repeat' first | with_reducible exact T1Kept.refl _ | with_reducible apply T1Kept.ite | with_reducible apply T1Kept.foldl | with_reducible apply T1Kept.put | with_reducible apply T1Kept.filter | (fail_if_no_progress with_reducible apply T1Kept.upd) | intro _ | dsimp only | split))))
    | intro _
    | dsimp only
    | split

theorem State.adjustCap_frame (s : State) (t id d : Nat) (capLeft : Bool) : Kept [.io] s (State.adjustCap s t id d capLeft) := by
  unfold State.adjustCap
  try dsimp only
  repeat' first
    | with_reducible exact Kept.refl _
    | ((with_reducible apply Laws.State.put_kept); (case mhl => decide))
    | ((with_reducible apply Laws.State.raise_kept); (case mhl => decide))
    | ((with_reducible apply Kept.iteL); case k => ((repeat' first | with_reducible exact Kept.refl _ | ((with_reducible apply Laws.State.put_kept); (case mhl => decide)) | ((with_reducible apply Laws.State.raise_kept); (case mhl => decide)) | with_reducible apply Kept.ite | intro _ | dsimp only | split); done))
    | ((with_reducible apply Kept.iteR); case k => ((repeat' first | with_reducible exact Kept.refl _ | ((with_reducible apply Laws.State.put_kept); (case mhl => decide)) | ((with_reducible apply Laws.State.raise_kept); (case mhl => decide)) | with_reducible apply Kept.ite | intro _ | dsimp only | split); done))
    | with_reducible apply Kept.ite
    | intro _
    | dsimp only
    | split
theorem State.adjustCap_kept {ml : List StateField} {mz : State} {s : State} {t id d : Nat} {capLeft : Bool} (mhl : [.io] ⊆ ml) (mh : Kept ml mz s) : Kept ml mz (State.adjustCap s t id d capLeft) :=
  Kept.after ((State.adjustCap_frame s t id d capLeft).mono mhl) mh

theorem execRoundEnd_kept (t : Nat) (s : State) : ∃ out, execRoundEnd t s = .next out ∧ Kept [.io, .t1, .prefetch, .units, .contexts, .answers, .tallies, .rounds] s out := by
  unfold execRoundEnd
  try dsimp only
  refine ⟨_, rfl, ?_⟩
  try dsimp only
  repeat' first
    | with_reducible exact Kept.refl _
    | ((with_reducible apply Laws.State.adjustCap_kept); (case mhl => decide))
    | ((with_reducible apply Laws.State.launch_kept); (case mhl => decide))
    | ((with_reducible apply Laws.State.pfRoundEnd_kept); (case mhl => decide))
    | ((with_reducible apply Laws.State.put_kept); (case mhl => decide))
    | ((with_reducible apply Laws.State.setRound_kept); (case mhl => decide))
    | ((with_reducible apply Laws.State.signal_kept' ?mhl (by assumption)); (case mhl => decide))
    | ((with_reducible apply Laws.State.signal_kept); (case mhl => decide))
    | with_reducible apply Kept.ite
    | (fail_if_no_progress ((with_reducible apply Kept.upd); (case ho => (refine Only.of (fun p hp => ?_) rfl; cases p <;> first | rfl | (refine absurd ?_ hp; decide))); (case hi => (repeat' first | with_reducible exact IoKept.refl _ | with_reducible apply Laws.Io.put_kept | with_reducible apply IoKept.ite | with_reducible apply IoKept.foldl | with_reducible apply IoKept.put | with_reducible apply IoKept.filter | (fail_if_no_progress with_reducible apply IoKept.upd) | intro _ | dsimp only | split)); (case ht => (repeat' first | with_reducible exact T1Kept.refl _ | with_reducible apply T1Kept.ite | with_reducible apply T1Kept.foldl | with_reducible apply T1Kept.put | with_reducible apply T1Kept.filter | (fail_if_no_progress with_reducible apply T1Kept.upd) | intro _ | dsimp only | split))))
    | intro _
    | dsimp only
    | split

end Sys2Proof.Laws
end

