-- ==== Sys2Proof/Laws/KeptPowerOps.lean ====
section
/-! SUPPORT. The frame lemma of every operation of Machine/PowerOps.lean: which fields of the state it may change, and that it keeps the canonical
forms. -/

set_option Elab.async false
set_option linter.unusedTactic false
set_option linter.unreachableTactic false
set_option linter.unusedVariables false

namespace Sys2Proof.Laws

open Sys2Proof Sys2Proof.Machine Sys2Proof.Safety

theorem State.setPw_frame (s : State) (x : Power) : Kept [.pw] s (State.setPw s x) := by
  unfold State.setPw
  try dsimp only
  repeat' first
    | with_reducible exact Kept.refl _
    | with_reducible apply Kept.ite
    | (fail_if_no_progress ((with_reducible apply Kept.upd); (case ho => (refine Only.of (fun p hp => ?_) rfl; cases p <;> first | rfl | (refine absurd ?_ hp; decide))); (case hi => exact IoKept.refl _); (case ht => exact T1Kept.refl _)))
    | intro _
    | dsimp only
    | split
theorem State.setPw_kept {ml : List StateField} {mz : State} {s : State} {x : Power} (mhl : [.pw] ⊆ ml) (mh : Kept ml mz s) : Kept ml mz (State.setPw s x) :=
  Kept.after ((State.setPw_frame s x).mono mhl) mh

theorem State.deviceReset_frame (s : State) : Kept [.io, .yt, .t1, .shed, .prefetch, .stalls, .units, .ops, .mirrors, .redirects, .cp, .cpSlots, .contexts, .answers, .windows, .tallies, .aisle, .textCache, .rounds, .parts, .svChanged, .periodEnd, .emptyRaised, .satPages, .net, .sec, .ck, .pw, .bu, .tear, .tests, .allocStopped, .freeIdx] s (State.deviceReset s) :=
  ⟨Only.of (fun p hp => by cases p <;> exact absurd (by decide) hp) rfl, ⟨fun w => sparseWf_filter _ _ _ w⟩, ⟨fun _ => rfl⟩⟩
theorem State.deviceReset_kept {ml : List StateField} {mz : State} {s : State} (mhl : [.io, .yt, .t1, .shed, .prefetch, .stalls, .units, .ops, .mirrors, .redirects, .cp, .cpSlots, .contexts, .answers, .windows, .tallies, .aisle, .textCache, .rounds, .parts, .svChanged, .periodEnd, .emptyRaised, .satPages, .net, .sec, .ck, .pw, .bu, .tear, .tests, .allocStopped, .freeIdx] ⊆ ml) (mh : Kept ml mz s) : Kept ml mz (State.deviceReset s) :=
  Kept.after ((State.deviceReset_frame s).mono mhl) mh

theorem State.setSag_frame (s : State) (d : Nat) (x : SagX) : Kept [.pw] s (State.setSag s d x) := by
  unfold State.setSag
  try dsimp only
  repeat' first
    | with_reducible exact Kept.refl _
    | ((with_reducible apply Laws.State.setPw_kept); (case mhl => decide))
    | with_reducible apply Kept.ite
    | (fail_if_no_progress ((with_reducible apply Kept.upd); (case ho => (refine Only.of (fun p hp => ?_) rfl; cases p <;> first | rfl | (refine absurd ?_ hp; decide))); (case hi => exact IoKept.refl _); (case ht => exact T1Kept.refl _)))
    | intro _
    | dsimp only
    | split
theorem State.setSag_kept {ml : List StateField} {mz : State} {s : State} {d : Nat} {x : SagX} (mhl : [.pw] ⊆ ml) (mh : Kept ml mz s) : Kept ml mz (State.setSag s d x) :=
  Kept.after ((State.setSag_frame s d x).mono mhl) mh

theorem State.setSupply_frame (s : State) (d l : Nat) : Kept [.io, .ck] s (State.setSupply s d l) := by
  unfold State.setSupply
  try dsimp only
  repeat' first
    | with_reducible exact Kept.refl _
    | ((with_reducible apply Laws.State.put_kept); (case mhl => decide))
    | ((with_reducible apply Laws.State.recomputeLimit_kept); (case mhl => decide))
    | with_reducible apply Kept.ite
    | intro _
    | dsimp only
    | split
theorem State.setSupply_kept {ml : List StateField} {mz : State} {s : State} {d l : Nat} (mhl : [.io, .ck] ⊆ ml) (mh : Kept ml mz s) : Kept ml mz (State.setSupply s d l) :=
  Kept.after ((State.setSupply_frame s d l).mono mhl) mh

theorem State.setPowerLimit_frame (s : State) (l : Nat) : Kept [.io, .ck] s (State.setPowerLimit s l) := by
  unfold State.setPowerLimit
  try dsimp only
  repeat' first
    | with_reducible exact Kept.refl _
    | ((with_reducible apply Laws.State.put_kept); (case mhl => decide))
    | ((with_reducible apply Laws.State.recomputeLimit_kept); (case mhl => decide))
    | with_reducible apply Kept.ite
    | with_reducible apply Kept.foldl
    | with_reducible apply Kept.foldlFst
    | with_reducible apply Kept.foldlSnd
    | intro _
    | dsimp only
    | split
theorem State.setPowerLimit_kept {ml : List StateField} {mz : State} {s : State} {l : Nat} (mhl : [.io, .ck] ⊆ ml) (mh : Kept ml mz s) : Kept ml mz (State.setPowerLimit s l) :=
  Kept.after ((State.setPowerLimit_frame s l).mono mhl) mh

theorem State.readRail_frame (s : State) (l : List RailReading) (r : Nat) : Kept [.io] s (State.readRail s l r) := by
  unfold State.readRail
  try dsimp only
  repeat' first
    | with_reducible exact Kept.refl _
    | ((with_reducible apply Laws.State.put_kept); (case mhl => decide))
    | ((with_reducible apply Laws.State.raise_kept); (case mhl => decide))
    | with_reducible apply Kept.ite
    | (fail_if_no_progress ((with_reducible apply Kept.upd); (case ho => (refine Only.of (fun p hp => ?_) rfl; cases p <;> first | rfl | (refine absurd ?_ hp; decide))); (case hi => (repeat' first | with_reducible exact IoKept.refl _ | with_reducible apply Laws.Io.put_kept | with_reducible apply Laws.Io.raise_kept | with_reducible apply IoKept.ite | with_reducible apply IoKept.foldl | with_reducible apply IoKept.put | with_reducible apply IoKept.filter | (fail_if_no_progress with_reducible apply IoKept.upd) | intro _ | dsimp only | split)); (case ht => exact T1Kept.refl _)))
    | intro _
    | dsimp only
    | split
theorem State.readRail_kept {ml : List StateField} {mz : State} {s : State} {l : List RailReading} {r : Nat} (mhl : [.io] ⊆ ml) (mh : Kept ml mz s) : Kept ml mz (State.readRail s l r) :=
  Kept.after ((State.readRail_frame s l r).mono mhl) mh

theorem State.capPower_frame (s : State) (watts : Nat) : Kept [.io, .ck, .pw] s (State.capPower s watts) := by
  unfold State.capPower
  try dsimp only
  repeat' first
    | with_reducible exact Kept.refl _
    | ((with_reducible apply Laws.State.raise_kept); (case mhl => decide))
    | ((with_reducible apply Laws.State.setPowerLimit_kept); (case mhl => decide))
    | ((with_reducible apply Laws.State.setPw_kept); (case mhl => decide))
    | ((with_reducible apply Kept.iteL); case k => ((repeat' first | with_reducible exact Kept.refl _ | ((with_reducible apply Laws.State.raise_kept); (case mhl => decide)) | ((with_reducible apply Laws.State.setPowerLimit_kept); (case mhl => decide)) | ((with_reducible apply Laws.State.setPw_kept); (case mhl => decide)) | with_reducible apply Kept.ite | (fail_if_no_progress ((with_reducible apply Kept.upd); (case ho => (refine Only.of (fun p hp => ?_) rfl; cases p <;> first | rfl | (refine absurd ?_ hp; decide))); (case hi => (repeat' first | with_reducible exact IoKept.refl _ | with_reducible apply Laws.Io.raise_kept | with_reducible apply IoKept.ite | with_reducible apply IoKept.foldl | with_reducible apply IoKept.put | with_reducible apply IoKept.filter | (fail_if_no_progress with_reducible apply IoKept.upd) | intro _ | dsimp only | split)); (case ht => exact T1Kept.refl _))) | intro _ | dsimp only | split); done))
    | ((with_reducible apply Kept.iteR); case k => ((repeat' first | with_reducible exact Kept.refl _ | ((with_reducible apply Laws.State.raise_kept); (case mhl => decide)) | ((with_reducible apply Laws.State.setPowerLimit_kept); (case mhl => decide)) | ((with_reducible apply Laws.State.setPw_kept); (case mhl => decide)) | with_reducible apply Kept.ite | (fail_if_no_progress ((with_reducible apply Kept.upd); (case ho => (refine Only.of (fun p hp => ?_) rfl; cases p <;> first | rfl | (refine absurd ?_ hp; decide))); (case hi => (repeat' first | with_reducible exact IoKept.refl _ | with_reducible apply Laws.Io.raise_kept | with_reducible apply IoKept.ite | with_reducible apply IoKept.foldl | with_reducible apply IoKept.put | with_reducible apply IoKept.filter | (fail_if_no_progress with_reducible apply IoKept.upd) | intro _ | dsimp only | split)); (case ht => exact T1Kept.refl _))) | intro _ | dsimp only | split); done))
    | with_reducible apply Kept.ite
    | (fail_if_no_progress ((with_reducible apply Kept.upd); (case ho => (refine Only.of (fun p hp => ?_) rfl; cases p <;> first | rfl | (refine absurd ?_ hp; decide))); (case hi => (repeat' first | with_reducible exact IoKept.refl _ | with_reducible apply Laws.Io.raise_kept | with_reducible apply IoKept.ite | with_reducible apply IoKept.foldl | with_reducible apply IoKept.put | with_reducible apply IoKept.filter | (fail_if_no_progress with_reducible apply IoKept.upd) | intro _ | dsimp only | split)); (case ht => exact T1Kept.refl _)))
    | intro _
    | dsimp only
    | split
theorem State.capPower_kept {ml : List StateField} {mz : State} {s : State} {watts : Nat} (mhl : [.io, .ck, .pw] ⊆ ml) (mh : Kept ml mz s) : Kept ml mz (State.capPower s watts) :=
  Kept.after ((State.capPower_frame s watts).mono mhl) mh

theorem State.droop_frame (s : State) (d mv : Nat) : Kept [.io, .yt, .ops, .cp, .ck, .pw] s (State.droop s d mv) := by
  unfold State.droop
  try dsimp only
  repeat' first
    | with_reducible exact Kept.refl _
    | ((with_reducible apply Laws.State.bump_kept); (case mhl => decide))
    | ((with_reducible apply Laws.State.cpTrigger_kept); (case mhl => decide))
    | ((with_reducible apply Laws.State.raise_kept); (case mhl => decide))
    | ((with_reducible apply Laws.State.setSag_kept); (case mhl => decide))
    | ((with_reducible apply Laws.State.setSupply_kept); (case mhl => decide))
    | ((with_reducible apply Kept.iteL); case k => ((repeat' first | with_reducible exact Kept.refl _ | ((with_reducible apply Laws.State.bump_kept); (case mhl => decide)) | ((with_reducible apply Laws.State.cpTrigger_kept); (case mhl => decide)) | ((with_reducible apply Laws.State.raise_kept); (case mhl => decide)) | ((with_reducible apply Laws.State.setSag_kept); (case mhl => decide)) | ((with_reducible apply Laws.State.setSupply_kept); (case mhl => decide)) | with_reducible apply Kept.ite | intro _ | dsimp only | split); done))
    | ((with_reducible apply Kept.iteR); case k => ((repeat' first | with_reducible exact Kept.refl _ | ((with_reducible apply Laws.State.bump_kept); (case mhl => decide)) | ((with_reducible apply Laws.State.cpTrigger_kept); (case mhl => decide)) | ((with_reducible apply Laws.State.raise_kept); (case mhl => decide)) | ((with_reducible apply Laws.State.setSag_kept); (case mhl => decide)) | ((with_reducible apply Laws.State.setSupply_kept); (case mhl => decide)) | with_reducible apply Kept.ite | intro _ | dsimp only | split); done))
    | with_reducible apply Kept.ite
    | intro _
    | dsimp only
    | split
theorem State.droop_kept {ml : List StateField} {mz : State} {s : State} {d mv : Nat} (mhl : [.io, .yt, .ops, .cp, .ck, .pw] ⊆ ml) (mh : Kept ml mz s) : Kept ml mz (State.droop s d mv) :=
  Kept.after ((State.droop_frame s d mv).mono mhl) mh

theorem State.noteTemp_frame (s : State) (d : Nat) (t : Int) : Kept [.io] s (State.noteTemp s d t) := by
  unfold State.noteTemp
  try dsimp only
  repeat' first
    | with_reducible exact Kept.refl _
    | ((with_reducible apply Laws.State.put_kept); (case mhl => decide))
    | with_reducible apply Kept.ite
    | intro _
    | dsimp only
    | split
theorem State.noteTemp_kept {ml : List StateField} {mz : State} {s : State} {d : Nat} {t : Int} (mhl : [.io] ⊆ ml) (mh : Kept ml mz s) : Kept ml mz (State.noteTemp s d t) :=
  Kept.after ((State.noteTemp_frame s d t).mono mhl) mh

theorem State.stepTherm_frame (s : State) (d : Nat) (t : Int) : Kept [.io, .yt, .ops, .cp] s (State.stepTherm s d t) := by
  unfold State.stepTherm
  try dsimp only
  repeat' first
    | with_reducible exact Kept.refl _
    | ((with_reducible apply Laws.State.cpTrigger_kept); (case mhl => decide))
    | ((with_reducible apply Laws.State.put_kept); (case mhl => decide))
    | ((with_reducible apply Laws.State.raise_kept); (case mhl => decide))
    | ((with_reducible apply Kept.iteL); case k => ((repeat' first | with_reducible exact Kept.refl _ | ((with_reducible apply Laws.State.cpTrigger_kept); (case mhl => decide)) | ((with_reducible apply Laws.State.put_kept); (case mhl => decide)) | ((with_reducible apply Laws.State.raise_kept); (case mhl => decide)) | with_reducible apply Kept.ite | intro _ | dsimp only | split); done))
    | ((with_reducible apply Kept.iteR); case k => ((repeat' first | with_reducible exact Kept.refl _ | ((with_reducible apply Laws.State.cpTrigger_kept); (case mhl => decide)) | ((with_reducible apply Laws.State.put_kept); (case mhl => decide)) | ((with_reducible apply Laws.State.raise_kept); (case mhl => decide)) | with_reducible apply Kept.ite | intro _ | dsimp only | split); done))
    | with_reducible apply Kept.ite
    | intro _
    | dsimp only
    | split
theorem State.stepTherm_kept {ml : List StateField} {mz : State} {s : State} {d : Nat} {t : Int} (mhl : [.io, .yt, .ops, .cp] ⊆ ml) (mh : Kept ml mz s) : Kept ml mz (State.stepTherm s d t) :=
  Kept.after ((State.stepTherm_frame s d t).mono mhl) mh

theorem State.thermal_frame (s : State) (d : Nat) (t : Int) : Kept [.io, .yt, .ops, .cp, .pw] s (State.thermal s d t) := by
  unfold State.thermal
  try dsimp only
  repeat' first
    | with_reducible exact Kept.refl _
    | ((with_reducible apply Laws.State.noteTemp_kept); (case mhl => decide))
    | ((with_reducible apply Laws.State.raise_kept); (case mhl => decide))
    | ((with_reducible apply Laws.State.setPw_kept); (case mhl => decide))
    | ((with_reducible apply Laws.State.stepTherm_kept); (case mhl => decide))
    | with_reducible apply Kept.ite
    | (fail_if_no_progress ((with_reducible apply Kept.upd); (case ho => (refine Only.of (fun p hp => ?_) rfl; cases p <;> first | rfl | (refine absurd ?_ hp; decide))); (case hi => (repeat' first | with_reducible exact IoKept.refl _ | with_reducible apply Laws.Io.raise_kept | with_reducible apply IoKept.ite | with_reducible apply IoKept.foldl | with_reducible apply IoKept.put | with_reducible apply IoKept.filter | (fail_if_no_progress with_reducible apply IoKept.upd) | intro _ | dsimp only | split)); (case ht => exact T1Kept.refl _)))
    | intro _
    | dsimp only
    | split
theorem State.thermal_kept {ml : List StateField} {mz : State} {s : State} {d : Nat} {t : Int} (mhl : [.io, .yt, .ops, .cp, .pw] ⊆ ml) (mh : Kept ml mz s) : Kept ml mz (State.thermal s d t) :=
  Kept.after ((State.thermal_frame s d t).mono mhl) mh

theorem State.abandonSteps_frame (s : State) : Kept [.io, .t1, .shed, .stalls, .ops, .mirrors, .answers, .textCache, .net] s (State.abandonSteps s) := by
  unfold State.abandonSteps
  try dsimp only
  repeat' first
    | with_reducible exact Kept.refl _
    | ((with_reducible apply Laws.State.abandonStep_kept); (case mhl => decide))
    | with_reducible apply Kept.ite
    | with_reducible apply Kept.foldl
    | with_reducible apply Kept.foldlFst
    | with_reducible apply Kept.foldlSnd
    | intro _
    | dsimp only
    | split
theorem State.abandonSteps_kept {ml : List StateField} {mz : State} {s : State} (mhl : [.io, .t1, .shed, .stalls, .ops, .mirrors, .answers, .textCache, .net] ⊆ ml) (mh : Kept ml mz s) : Kept ml mz (State.abandonSteps s) :=
  Kept.after ((State.abandonSteps_frame s).mono mhl) mh

theorem State.dropFlight_frame (s : State) (t : Nat) : Kept [.contexts, .rounds] s (State.dropFlight s t) := by
  unfold State.dropFlight
  try dsimp only
  repeat' first
    | with_reducible exact Kept.refl _
    | ((with_reducible apply Laws.State.setContext_kept); (case mhl => decide))
    | ((with_reducible apply Laws.State.setRound_kept); (case mhl => decide))
    | with_reducible apply Kept.ite
    | (fail_if_no_progress ((with_reducible apply Kept.upd); (case ho => (refine Only.of (fun p hp => ?_) rfl; cases p <;> first | rfl | (refine absurd ?_ hp; decide))); (case hi => exact IoKept.refl _); (case ht => exact T1Kept.refl _)))
    | intro _
    | dsimp only
    | split
theorem State.dropFlight_kept {ml : List StateField} {mz : State} {s : State} {t : Nat} (mhl : [.contexts, .rounds] ⊆ ml) (mh : Kept ml mz s) : Kept ml mz (State.dropFlight s t) :=
  Kept.after ((State.dropFlight_frame s t).mono mhl) mh

theorem State.beginParking_frame (s : State) : Kept [.io, .t1, .shed, .stalls, .units, .ops, .mirrors, .cp, .cpSlots, .contexts, .answers, .tallies, .textCache, .rounds, .net] s (State.beginParking s) := by
  unfold State.beginParking
  try dsimp only
  repeat' first
    | with_reducible exact Kept.refl _
    | ((with_reducible apply Laws.State.abandonSteps_kept); (case mhl => decide))
    | ((with_reducible apply Laws.State.dropCheckpoint_kept); (case mhl => decide))
    | ((with_reducible apply Laws.State.dropFlight_kept); (case mhl => decide))
    | ((with_reducible apply Laws.State.put_kept); (case mhl => decide))
    | with_reducible apply Kept.ite
    | with_reducible apply Kept.foldl
    | with_reducible apply Kept.foldlFst
    | with_reducible apply Kept.foldlSnd
    | intro _
    | dsimp only
    | split
theorem State.beginParking_kept {ml : List StateField} {mz : State} {s : State} (mhl : [.io, .t1, .shed, .stalls, .units, .ops, .mirrors, .cp, .cpSlots, .contexts, .answers, .tallies, .textCache, .rounds, .net] ⊆ ml) (mh : Kept ml mz s) : Kept ml mz (State.beginParking s) :=
  Kept.after ((State.beginParking_frame s).mono mhl) mh

theorem State.sealStall_frame (s : State) (i : Nat) : Kept [.io, .shed, .stalls] s (State.sealStall s i) := by
  unfold State.sealStall
  try dsimp only
  repeat' first
    | with_reducible exact Kept.refl _
    | ((with_reducible apply Laws.State.journalUpTo_kept ?mhl (by assumption)); (case mhl => decide))
    | ((with_reducible apply Laws.State.journal_kept); (case mhl => decide))
    | with_reducible apply Kept.ite
    | (fail_if_no_progress ((with_reducible apply Kept.upd); (case ho => (refine Only.of (fun p hp => ?_) rfl; cases p <;> first | rfl | (refine absurd ?_ hp; decide))); (case hi => (repeat' first | with_reducible exact IoKept.refl _ | with_reducible apply IoKept.ite | with_reducible apply IoKept.foldl | with_reducible apply IoKept.put | with_reducible apply IoKept.filter | (fail_if_no_progress with_reducible apply IoKept.upd) | intro _ | dsimp only | split)); (case ht => exact T1Kept.refl _)))
    | intro _
    | dsimp only
    | split
theorem State.sealStall_kept {ml : List StateField} {mz : State} {s : State} {i : Nat} (mhl : [.io, .shed, .stalls] ⊆ ml) (mh : Kept ml mz s) : Kept ml mz (State.sealStall s i) :=
  Kept.after ((State.sealStall_frame s i).mono mhl) mh

end Sys2Proof.Laws
end

