-- ==== Sys2Proof/Laws/KeptBringOps.lean ====
section
/-! SUPPORT. The frame lemma of every operation of Machine/BringOps.lean: which fields of the state it may change, and that it keeps the canonical
forms. -/

set_option Elab.async false
set_option linter.unusedTactic false
set_option linter.unreachableTactic false
set_option linter.unusedVariables false

namespace Sys2Proof.Laws

open Sys2Proof Sys2Proof.Machine Sys2Proof.Safety

theorem State.setBu_frame (s : State) (x : BringUp) : Kept [.bu] s (State.setBu s x) := by
  unfold State.setBu
  try dsimp only
  repeat' first
    | with_reducible exact Kept.refl _
    | with_reducible apply Kept.ite
    | (fail_if_no_progress ((with_reducible apply Kept.upd); (case ho => (refine Only.of (fun p hp => ?_) rfl; cases p <;> first | rfl | (refine absurd ?_ hp; decide))); (case hi => exact IoKept.refl _); (case ht => exact T1Kept.refl _)))
    | intro _
    | dsimp only
    | split
theorem State.setBu_kept {ml : List StateField} {mz : State} {s : State} {x : BringUp} (mhl : [.bu] ⊆ ml) (mh : Kept ml mz s) : Kept ml mz (State.setBu s x) :=
  Kept.after ((State.setBu_frame s x).mono mhl) mh

theorem State.buErr_frame (s : State) (code detail : Nat) : Kept [.io] s (State.buErr s code detail) := by
  unfold State.buErr
  try dsimp only
  repeat' first
    | with_reducible exact Kept.refl _
    | ((with_reducible apply Laws.State.put_kept); (case mhl => decide))
    | with_reducible apply Kept.ite
    | intro _
    | dsimp only
    | split
theorem State.buErr_kept {ml : List StateField} {mz : State} {s : State} {code detail : Nat} (mhl : [.io] ⊆ ml) (mh : Kept ml mz s) : Kept ml mz (State.buErr s code detail) :=
  Kept.after ((State.buErr_frame s code detail).mono mhl) mh

theorem State.stepEnded_frame (s : State) (k : Nat) : Kept [.io, .freeIdx] s (State.stepEnded s k) := by
  unfold State.stepEnded
  try dsimp only
  repeat' first
    | with_reducible exact Kept.refl _
    | ((with_reducible apply Laws.State.drawFree_kept' ?mhl (by assumption)); (case mhl => decide))
    | ((with_reducible apply Laws.State.drawFree_kept); (case mhl => decide))
    | ((with_reducible apply Laws.State.put_kept); (case mhl => decide))
    | with_reducible apply Kept.ite
    | intro _
    | dsimp only
    | split
theorem State.stepEnded_kept {ml : List StateField} {mz : State} {s : State} {k : Nat} (mhl : [.io, .freeIdx] ⊆ ml) (mh : Kept ml mz s) : Kept ml mz (State.stepEnded s k) :=
  Kept.after ((State.stepEnded_frame s k).mono mhl) mh

theorem State.enterBu_frame (s : State) (st : Nat) : Kept [.io] s (State.enterBu s st) := by
  unfold State.enterBu
  try dsimp only
  repeat' first
    | with_reducible exact Kept.refl _
    | ((with_reducible apply Laws.State.put_kept); (case mhl => decide))
    | with_reducible apply Kept.ite
    | intro _
    | dsimp only
    | split
theorem State.enterBu_kept {ml : List StateField} {mz : State} {s : State} {st : Nat} (mhl : [.io] ⊆ ml) (mh : Kept ml mz s) : Kept ml mz (State.enterBu s st) :=
  Kept.after ((State.enterBu_frame s st).mono mhl) mh

theorem State.failBringUp_frame (s : State) (code detail : Nat) : Kept [.io, .yt, .t1, .shed, .prefetch, .stalls, .units, .ops, .mirrors, .redirects, .cp, .cpSlots, .contexts, .answers, .windows, .tallies, .aisle, .textCache, .rounds, .parts, .svChanged, .periodEnd, .emptyRaised, .satPages, .net, .sec, .ck, .pw, .bu, .tear, .tests, .allocStopped, .freeIdx] s (State.failBringUp s code detail) := by
  unfold State.failBringUp
  apply State.buErr_kept (by decide)
  apply State.enterBu_kept (by decide)
  refine Kept.foldl ?_ (fun u b => Kept.ite (Kept.refl _) (State.put_kept (by decide) (Kept.refl _)))
  exact ⟨Only.of (fun p hp => by cases p <;> exact absurd (by decide) hp) rfl, ⟨fun w => sparseWf_filter _ _ _ w⟩, ⟨fun w => w⟩⟩
theorem State.failBringUp_kept {ml : List StateField} {mz : State} {s : State} {code detail : Nat} (mhl : [.io, .yt, .t1, .shed, .prefetch, .stalls, .units, .ops, .mirrors, .redirects, .cp, .cpSlots, .contexts, .answers, .windows, .tallies, .aisle, .textCache, .rounds, .parts, .svChanged, .periodEnd, .emptyRaised, .satPages, .net, .sec, .ck, .pw, .bu, .tear, .tests, .allocStopped, .freeIdx] ⊆ ml) (mh : Kept ml mz s) : Kept ml mz (State.failBringUp s code detail) :=
  Kept.after ((State.failBringUp_frame s code detail).mono mhl) mh

theorem State.bindChannels_frame (s : State) (h : Nat) : Kept [.io] s (State.bindChannels s h) := by
  unfold State.bindChannels
  try dsimp only
  repeat' first
    | with_reducible exact Kept.refl _
    | ((with_reducible apply Laws.State.put_kept); (case mhl => decide))
    | with_reducible apply Kept.ite
    | with_reducible apply Kept.foldl
    | with_reducible apply Kept.foldlFst
    | with_reducible apply Kept.foldlSnd
    | (fail_if_no_progress ((with_reducible apply Kept.upd); (case ho => (refine Only.of (fun p hp => ?_) rfl; cases p <;> first | rfl | (refine absurd ?_ hp; decide))); (case hi => (repeat' first | with_reducible exact IoKept.refl _ | with_reducible apply Laws.Io.put_kept | with_reducible apply IoKept.ite | with_reducible apply IoKept.foldl | with_reducible apply IoKept.put | with_reducible apply IoKept.filter | (fail_if_no_progress with_reducible apply IoKept.upd) | intro _ | dsimp only | split)); (case ht => exact T1Kept.refl _)))
    | intro _
    | dsimp only
    | split
theorem State.bindChannels_kept {ml : List StateField} {mz : State} {s : State} {h : Nat} (mhl : [.io] ⊆ ml) (mh : Kept ml mz s) : Kept ml mz (State.bindChannels s h) :=
  Kept.after ((State.bindChannels_frame s h).mono mhl) mh

theorem State.bindUnits_frame (s : State) (engines : List Nat) : Kept [.io, .t1, .units] s (State.bindUnits s engines) := by
  unfold State.bindUnits
  extract_lets s1 combs tallies keys bad units s2 s3 s4 dead s5
  have h1 : Kept [.io, .t1, .units] s s1 := Kept.foldl (Kept.refl _) (fun u b => State.bindChannels_kept (by decide) (Kept.refl _))
  clear_value s1
  have h2 : Kept [.io, .t1, .units] s s2 := State.updUnits_kept (by decide) h1
  have h3 : Kept [.io, .t1, .units] s s3 := Kept.foldl h2 (fun u b => State.put_kept (by decide) (Kept.refl _))
  have h4 : Kept [.io, .t1, .units] s s4 := Kept.foldl h3 (fun u b => State.retireLane_kept (by decide) (Kept.refl _))
  clear_value s4
  have h5 : Kept [.io, .t1, .units] s s5 := Kept.foldl h4 (fun u b => Kept.foldl (Kept.refl _) (fun u b => State.put_kept (by decide) (State.put_kept (by decide) (Kept.refl _))))
  clear_value s5
  exact h5.trans ⟨Only.of (fun p hp => by cases p <;> first | rfl | exact absurd (by decide) hp) rfl, IoKept.refl _, ⟨fun w => w⟩⟩
theorem State.bindUnits_kept {ml : List StateField} {mz : State} {s : State} {engines : List Nat} (mhl : [.io, .t1, .units] ⊆ ml) (mh : Kept ml mz s) : Kept ml mz (State.bindUnits s engines) :=
  Kept.after ((State.bindUnits_frame s engines).mono mhl) mh

theorem State.recordFound_frame (s : State) (l : List FoundUnit) : Kept [.io, .bu] s (State.recordFound s l) := by
  unfold State.recordFound
  try dsimp only
  repeat' first
    | with_reducible exact Kept.refl _
    | ((with_reducible apply Laws.State.put_kept); (case mhl => decide))
    | ((with_reducible apply Laws.State.setBu_kept); (case mhl => decide))
    | with_reducible apply Kept.ite
    | with_reducible apply Kept.foldl
    | with_reducible apply Kept.foldlFst
    | with_reducible apply Kept.foldlSnd
    | (fail_if_no_progress ((with_reducible apply Kept.upd); (case ho => (refine Only.of (fun p hp => ?_) rfl; cases p <;> first | rfl | (refine absurd ?_ hp; decide))); (case hi => (repeat' first | with_reducible exact IoKept.refl _ | with_reducible apply Laws.Io.put_kept | with_reducible apply IoKept.ite | with_reducible apply IoKept.foldl | with_reducible apply IoKept.put | with_reducible apply IoKept.filter | (fail_if_no_progress with_reducible apply IoKept.upd) | intro _ | dsimp only | split)); (case ht => exact T1Kept.refl _)))
    | intro _
    | dsimp only
    | split
theorem State.recordFound_kept {ml : List StateField} {mz : State} {s : State} {l : List FoundUnit} (mhl : [.io, .bu] ⊆ ml) (mh : Kept ml mz s) : Kept ml mz (State.recordFound s l) :=
  Kept.after ((State.recordFound_frame s l).mono mhl) mh

theorem State.buildSurvey_frame (s : State) : Kept [.io, .svChanged] s (State.buildSurvey s) := by
  unfold State.buildSurvey
  try dsimp only
  repeat' first
    | with_reducible exact Kept.refl _
    | ((with_reducible apply Laws.State.put_kept); (case mhl => decide))
    | ((with_reducible apply Laws.State.setReg_kept); (case mhl => decide))
    | ((with_reducible apply Laws.State.survey_kept); (case mhl => decide))
    | ((with_reducible apply Laws.State.writeTopology_kept); (case mhl => decide))
    | with_reducible apply Kept.ite
    | with_reducible apply Kept.foldl
    | with_reducible apply Kept.foldlFst
    | with_reducible apply Kept.foldlSnd
    | intro _
    | dsimp only
    | split
theorem State.buildSurvey_kept {ml : List StateField} {mz : State} {s : State} (mhl : [.io, .svChanged] ⊆ ml) (mh : Kept ml mz s) : Kept ml mz (State.buildSurvey s) :=
  Kept.after ((State.buildSurvey_frame s).mono mhl) mh

theorem State.compareTopology_frame (s : State) : Kept [.io, .sec] s (State.compareTopology s) := by
  unfold State.compareTopology
  try dsimp only
  repeat' first
    | with_reducible exact Kept.refl _
    | ((with_reducible apply Laws.State.buErr_kept); (case mhl => decide))
    | ((with_reducible apply Laws.State.enterBu_kept); (case mhl => decide))
    | ((with_reducible apply Laws.State.setSec_kept); (case mhl => decide))
    | with_reducible apply Kept.ite
    | (fail_if_no_progress ((with_reducible apply Kept.upd); (case ho => (refine Only.of (fun p hp => ?_) rfl; cases p <;> first | rfl | (refine absurd ?_ hp; decide))); (case hi => (repeat' first | with_reducible exact IoKept.refl _ | with_reducible apply IoKept.ite | with_reducible apply IoKept.foldl | with_reducible apply IoKept.put | with_reducible apply IoKept.filter | (fail_if_no_progress with_reducible apply IoKept.upd) | intro _ | dsimp only | split)); (case ht => exact T1Kept.refl _)))
    | intro _
    | dsimp only
    | split
theorem State.compareTopology_kept {ml : List StateField} {mz : State} {s : State} (mhl : [.io, .sec] ⊆ ml) (mh : Kept ml mz s) : Kept ml mz (State.compareTopology s) :=
  Kept.after ((State.compareTopology_frame s).mono mhl) mh

end Sys2Proof.Laws
end

