-- ==== Sys2Proof/Laws/KeptBringUp.lean ====
section
/-! SUPPORT. The frame lemma of every operation of Machine/BringUp.lean: which fields of the state it may change, and that it keeps the canonical
forms. -/

set_option Elab.async false
set_option linter.unusedTactic false
set_option linter.unreachableTactic false
set_option linter.unusedVariables false

namespace Sys2Proof.Laws

open Sys2Proof Sys2Proof.Machine Sys2Proof.Safety

theorem execDevRstAssert_kept (s : State) : ∃ out, execDevRstAssert s = .next out ∧ Kept [.io, .yt, .t1, .shed, .prefetch, .stalls, .units, .ops, .mirrors, .redirects, .cp, .cpSlots, .contexts, .answers, .windows, .tallies, .aisle, .textCache, .rounds, .parts, .svChanged, .periodEnd, .emptyRaised, .satPages, .net, .sec, .ck, .pw, .bu, .tear, .tests, .allocStopped, .freeIdx] s out := by
  unfold execDevRstAssert
  try dsimp only
  refine ⟨_, rfl, ?_⟩
  try dsimp only
  repeat' first
    | with_reducible exact Kept.refl _
    | ((with_reducible apply Laws.State.deviceReset_kept); (case mhl => decide))
    | with_reducible apply Kept.ite
    | intro _
    | dsimp only
    | split

theorem execDevRstRelease_kept (s : State) : ∃ out, execDevRstRelease s = .next out ∧ Kept [.io, .yt, .t1, .shed, .prefetch, .stalls, .units, .ops, .mirrors, .redirects, .cp, .cpSlots, .contexts, .answers, .windows, .tallies, .aisle, .textCache, .rounds, .parts, .svChanged, .periodEnd, .emptyRaised, .satPages, .net, .sec, .ck, .pw, .bu, .tear, .tests, .allocStopped, .freeIdx] s out := by
  unfold execDevRstRelease
  try dsimp only
  refine ⟨_, rfl, ?_⟩
  try dsimp only
  repeat' first
    | with_reducible exact Kept.refl _
    | ((with_reducible apply Laws.State.deviceReset_kept); (case mhl => decide))
    | ((with_reducible apply Laws.State.enterBu_kept); (case mhl => decide))
    | ((with_reducible apply Laws.State.put_kept); (case mhl => decide))
    | with_reducible apply Kept.ite
    | intro _
    | dsimp only
    | split

theorem State.romPassed_frame (s : State) (r : RomResult) : Kept [.io, .yt, .net, .sec, .ck, .freeIdx] s (State.romPassed s r) := by
  unfold State.romPassed
  try dsimp only
  repeat' first
    | with_reducible exact Kept.refl _
    | ((with_reducible apply Laws.State.drawBytes_kept' ?mhl (by assumption)); (case mhl => decide))
    | ((with_reducible apply Laws.State.drawBytes_kept); (case mhl => decide))
    | ((with_reducible apply Laws.State.enterBu_kept); (case mhl => decide))
    | ((with_reducible apply Laws.State.loseSource_kept); (case mhl => decide))
    | ((with_reducible apply Laws.State.put_kept); (case mhl => decide))
    | ((with_reducible apply Laws.State.raise_kept); (case mhl => decide))
    | ((with_reducible apply Laws.State.setSec_kept); (case mhl => decide))
    | ((with_reducible apply Laws.State.startPace_kept); (case mhl => decide))
    | ((with_reducible apply Laws.State.stepEnded_kept); (case mhl => decide))
    | with_reducible apply Kept.ite
    | with_reducible apply Kept.foldl
    | with_reducible apply Kept.foldlFst
    | with_reducible apply Kept.foldlSnd
    | (fail_if_no_progress ((with_reducible apply Kept.upd); (case ho => (refine Only.of (fun p hp => ?_) rfl; cases p <;> first | rfl | (refine absurd ?_ hp; decide))); (case hi => (repeat' first | with_reducible exact IoKept.refl _ | with_reducible apply Laws.Io.put_kept | with_reducible apply Laws.Io.raise_kept | with_reducible apply IoKept.ite | with_reducible apply IoKept.foldl | with_reducible apply IoKept.put | with_reducible apply IoKept.filter | (fail_if_no_progress with_reducible apply IoKept.upd) | intro _ | dsimp only | split)); (case ht => exact T1Kept.refl _)))
    | intro _
    | dsimp only
    | split
theorem State.romPassed_kept {ml : List StateField} {mz : State} {s : State} {r : RomResult} (mhl : [.io, .yt, .net, .sec, .ck, .freeIdx] ⊆ ml) (mh : Kept ml mz s) : Kept ml mz (State.romPassed s r) :=
  Kept.after ((State.romPassed_frame s r).mono mhl) mh

theorem execRomDone_kept (r : RomResult) (s : State) : ∃ out, execRomDone r s = .next out ∧ Kept [.io, .yt, .t1, .shed, .prefetch, .stalls, .units, .ops, .mirrors, .redirects, .cp, .cpSlots, .contexts, .answers, .windows, .tallies, .aisle, .textCache, .rounds, .parts, .svChanged, .periodEnd, .emptyRaised, .satPages, .net, .sec, .ck, .pw, .bu, .tear, .tests, .allocStopped, .freeIdx] s out := by
  unfold execRomDone
  try dsimp only
  refine ⟨_, rfl, ?_⟩
  try dsimp only
  repeat' first
    | with_reducible exact Kept.refl _
    | ((with_reducible apply Laws.State.failBringUp_kept); (case mhl => decide))
    | ((with_reducible apply Laws.State.romPassed_kept); (case mhl => decide))
    | ((with_reducible apply Kept.iteL); case k => ((repeat' first | with_reducible exact Kept.refl _ | ((with_reducible apply Laws.State.failBringUp_kept); (case mhl => decide)) | ((with_reducible apply Laws.State.romPassed_kept); (case mhl => decide)) | with_reducible apply Kept.ite | intro _ | dsimp only | split); done))
    | ((with_reducible apply Kept.iteR); case k => ((repeat' first | with_reducible exact Kept.refl _ | ((with_reducible apply Laws.State.failBringUp_kept); (case mhl => decide)) | ((with_reducible apply Laws.State.romPassed_kept); (case mhl => decide)) | with_reducible apply Kept.ite | intro _ | dsimp only | split); done))
    | with_reducible apply Kept.ite
    | intro _
    | dsimp only
    | split

theorem State.writeLoadCmd_frame (s : State) (w : RegWrite) : Kept [.io, .bu] s (State.writeLoadCmd s w) := by
  unfold State.writeLoadCmd
  try dsimp only
  repeat' first
    | with_reducible exact Kept.refl _
    | ((with_reducible apply Laws.State.buErr_kept); (case mhl => decide))
    | ((with_reducible apply Laws.State.fromPort_kept); (case mhl => decide))
    | ((with_reducible apply Laws.State.put_kept); (case mhl => decide))
    | ((with_reducible apply Laws.State.setBu_kept); (case mhl => decide))
    | ((with_reducible apply Laws.State.storePut_kept); (case mhl => decide))
    | ((with_reducible apply Kept.iteL); case k => ((repeat' first | with_reducible exact Kept.refl _ | ((with_reducible apply Laws.State.buErr_kept); (case mhl => decide)) | ((with_reducible apply Laws.State.fromPort_kept); (case mhl => decide)) | ((with_reducible apply Laws.State.put_kept); (case mhl => decide)) | ((with_reducible apply Laws.State.setBu_kept); (case mhl => decide)) | ((with_reducible apply Laws.State.storePut_kept); (case mhl => decide)) | with_reducible apply Kept.ite | (fail_if_no_progress ((with_reducible apply Kept.upd); (case ho => (refine Only.of (fun p hp => ?_) rfl; cases p <;> first | rfl | (refine absurd ?_ hp; decide))); (case hi => (repeat' first | with_reducible exact IoKept.refl _ | with_reducible apply Laws.Io.put_kept | with_reducible apply IoKept.ite | with_reducible apply IoKept.foldl | with_reducible apply IoKept.put | with_reducible apply IoKept.filter | (fail_if_no_progress with_reducible apply IoKept.upd) | intro _ | dsimp only | split)); (case ht => exact T1Kept.refl _))) | intro _ | dsimp only | split); done))
    | ((with_reducible apply Kept.iteR); case k => ((repeat' first | with_reducible exact Kept.refl _ | ((with_reducible apply Laws.State.buErr_kept); (case mhl => decide)) | ((with_reducible apply Laws.State.fromPort_kept); (case mhl => decide)) | ((with_reducible apply Laws.State.put_kept); (case mhl => decide)) | ((with_reducible apply Laws.State.setBu_kept); (case mhl => decide)) | ((with_reducible apply Laws.State.storePut_kept); (case mhl => decide)) | with_reducible apply Kept.ite | (fail_if_no_progress ((with_reducible apply Kept.upd); (case ho => (refine Only.of (fun p hp => ?_) rfl; cases p <;> first | rfl | (refine absurd ?_ hp; decide))); (case hi => (repeat' first | with_reducible exact IoKept.refl _ | with_reducible apply Laws.Io.put_kept | with_reducible apply IoKept.ite | with_reducible apply IoKept.foldl | with_reducible apply IoKept.put | with_reducible apply IoKept.filter | (fail_if_no_progress with_reducible apply IoKept.upd) | intro _ | dsimp only | split)); (case ht => exact T1Kept.refl _))) | intro _ | dsimp only | split); done))
    | with_reducible apply Kept.ite
    | (fail_if_no_progress ((with_reducible apply Kept.upd); (case ho => (refine Only.of (fun p hp => ?_) rfl; cases p <;> first | rfl | (refine absurd ?_ hp; decide))); (case hi => (repeat' first | with_reducible exact IoKept.refl _ | with_reducible apply Laws.Io.put_kept | with_reducible apply IoKept.ite | with_reducible apply IoKept.foldl | with_reducible apply IoKept.put | with_reducible apply IoKept.filter | (fail_if_no_progress with_reducible apply IoKept.upd) | intro _ | dsimp only | split)); (case ht => exact T1Kept.refl _)))
    | intro _
    | dsimp only
    | split
theorem State.writeLoadCmd_kept {ml : List StateField} {mz : State} {s : State} {w : RegWrite} (mhl : [.io, .bu] ⊆ ml) (mh : Kept ml mz s) : Kept ml mz (State.writeLoadCmd s w) :=
  Kept.after ((State.writeLoadCmd_frame s w).mono mhl) mh

theorem execBuLoadStart_kept (w : RegWrite) (s : State) : ∃ out, execBuLoadStart w s = .next out ∧ Kept [.io, .bu] s out := by
  unfold execBuLoadStart
  try dsimp only
  refine ⟨_, rfl, ?_⟩
  try dsimp only
  repeat' first
    | with_reducible exact Kept.refl _
    | ((with_reducible apply Laws.State.writeLoadCmd_kept); (case mhl => decide))
    | with_reducible apply Kept.ite
    | intro _
    | dsimp only
    | split

theorem execBuLoadDone_kept (b : Option (List Byte)) (s : State) : ∃ out, execBuLoadDone b s = .next out ∧ Kept [.io, .bu] s out := by
  unfold execBuLoadDone
  try dsimp only
  refine ⟨_, rfl, ?_⟩
  try dsimp only
  repeat' first
    | with_reducible exact Kept.refl _
    | ((with_reducible apply Laws.State.buErr_kept); (case mhl => decide))
    | ((with_reducible apply Laws.State.put_kept); (case mhl => decide))
    | ((with_reducible apply Laws.State.setBu_kept); (case mhl => decide))
    | with_reducible apply Kept.ite
    | with_reducible apply Kept.getD
    | (fail_if_no_progress ((with_reducible apply Kept.upd); (case ho => (refine Only.of (fun p hp => ?_) rfl; cases p <;> first | rfl | (refine absurd ?_ hp; decide))); (case hi => (repeat' first | with_reducible exact IoKept.refl _ | with_reducible apply Laws.Io.put_kept | with_reducible apply IoKept.ite | with_reducible apply IoKept.foldl | with_reducible apply IoKept.put | with_reducible apply IoKept.filter | (fail_if_no_progress with_reducible apply IoKept.upd) | intro _ | dsimp only | split)); (case ht => exact T1Kept.refl _)))
    | intro _
    | dsimp only
    | split

theorem State.buGo_frame (s : State) : Kept [.io, .sec, .bu, .freeIdx] s (State.buGo s) := by
  unfold State.buGo
  try dsimp only
  repeat' first
    | with_reducible exact Kept.refl _
    | ((with_reducible apply Laws.State.buErr_kept); (case mhl => decide))
    | ((with_reducible apply Laws.State.compareTopology_kept); (case mhl => decide))
    | ((with_reducible apply Laws.State.enterBu_kept); (case mhl => decide))
    | ((with_reducible apply Laws.State.put_kept); (case mhl => decide))
    | ((with_reducible apply Laws.State.setBu_kept); (case mhl => decide))
    | ((with_reducible apply Laws.State.setSec_kept); (case mhl => decide))
    | ((with_reducible apply Laws.State.stepEnded_kept); (case mhl => decide))
    | with_reducible apply Kept.ite
    | (fail_if_no_progress ((with_reducible apply Kept.upd); (case ho => (refine Only.of (fun p hp => ?_) rfl; cases p <;> first | rfl | (refine absurd ?_ hp; decide))); (case hi => (repeat' first | with_reducible exact IoKept.refl _ | with_reducible apply Laws.Io.put_kept | with_reducible apply IoKept.ite | with_reducible apply IoKept.foldl | with_reducible apply IoKept.put | with_reducible apply IoKept.filter | (fail_if_no_progress with_reducible apply IoKept.upd) | intro _ | dsimp only | split)); (case ht => exact T1Kept.refl _)))
    | intro _
    | dsimp only
    | split
theorem State.buGo_kept {ml : List StateField} {mz : State} {s : State} (mhl : [.io, .sec, .bu, .freeIdx] ⊆ ml) (mh : Kept ml mz s) : Kept ml mz (State.buGo s) :=
  Kept.after ((State.buGo_frame s).mono mhl) mh

theorem State.buReady_frame (s : State) : Kept [.io, .freeIdx] s (State.buReady s) := by
  unfold State.buReady
  try dsimp only
  repeat' first
    | with_reducible exact Kept.refl _
    | ((with_reducible apply Laws.State.buErr_kept); (case mhl => decide))
    | ((with_reducible apply Laws.State.enterBu_kept); (case mhl => decide))
    | ((with_reducible apply Laws.State.put_kept); (case mhl => decide))
    | ((with_reducible apply Laws.State.stepEnded_kept); (case mhl => decide))
    | with_reducible apply Kept.ite
    | intro _
    | dsimp only
    | split
theorem State.buReady_kept {ml : List StateField} {mz : State} {s : State} (mhl : [.io, .freeIdx] ⊆ ml) (mh : Kept ml mz s) : Kept ml mz (State.buReady s) :=
  Kept.after ((State.buReady_frame s).mono mhl) mh

theorem State.writeBuCtrl_frame (s : State) (w : RegWrite) : Kept [.io, .sec, .bu, .freeIdx] s (State.writeBuCtrl s w) := by
  unfold State.writeBuCtrl
  try dsimp only
  repeat' first
    | with_reducible exact Kept.refl _
    | ((with_reducible apply Laws.State.buGo_kept); (case mhl => decide))
    | ((with_reducible apply Laws.State.buReady_kept); (case mhl => decide))
    | ((with_reducible apply Laws.State.fromPort_kept); (case mhl => decide))
    | with_reducible apply Kept.ite
    | intro _
    | dsimp only
    | split
theorem State.writeBuCtrl_kept {ml : List StateField} {mz : State} {s : State} {w : RegWrite} (mhl : [.io, .sec, .bu, .freeIdx] ⊆ ml) (mh : Kept ml mz s) : Kept ml mz (State.writeBuCtrl s w) :=
  Kept.after ((State.writeBuCtrl_frame s w).mono mhl) mh

theorem execBuGo_kept (w : RegWrite) (s : State) : ∃ out, execBuGo w s = .next out ∧ Kept [.io, .sec, .bu, .freeIdx] s out := by
  unfold execBuGo
  try dsimp only
  refine ⟨_, rfl, ?_⟩
  try dsimp only
  repeat' first
    | with_reducible exact Kept.refl _
    | ((with_reducible apply Laws.State.writeBuCtrl_kept); (case mhl => decide))
    | with_reducible apply Kept.ite
    | intro _
    | dsimp only
    | split

theorem execBuReadyReq_kept (w : RegWrite) (s : State) : ∃ out, execBuReadyReq w s = .next out ∧ Kept [.io, .sec, .bu, .freeIdx] s out := by
  unfold execBuReadyReq
  try dsimp only
  refine ⟨_, rfl, ?_⟩
  try dsimp only
  repeat' first
    | with_reducible exact Kept.refl _
    | ((with_reducible apply Laws.State.writeBuCtrl_kept); (case mhl => decide))
    | with_reducible apply Kept.ite
    | intro _
    | dsimp only
    | split

theorem execBuTrainDone_kept (l : List FoundUnit) (s : State) : ∃ out, execBuTrainDone l s = .next out ∧ Kept [.io, .bu, .freeIdx] s out := by
  unfold execBuTrainDone
  try dsimp only
  refine ⟨_, rfl, ?_⟩
  try dsimp only
  repeat' first
    | with_reducible exact Kept.refl _
    | ((with_reducible apply Laws.State.bindChannels_kept); (case mhl => decide))
    | ((with_reducible apply Laws.State.enterBu_kept); (case mhl => decide))
    | ((with_reducible apply Laws.State.recordFound_kept); (case mhl => decide))
    | ((with_reducible apply Laws.State.stepEnded_kept); (case mhl => decide))
    | with_reducible apply Kept.ite
    | with_reducible apply Kept.foldl
    | with_reducible apply Kept.foldlFst
    | with_reducible apply Kept.foldlSnd
    | intro _
    | dsimp only
    | split

theorem execBuTestDone_kept (l : List FoundUnit) (engines : List Nat) (s : State) : ∃ out, execBuTestDone l engines s = .next out ∧ Kept [.io, .yt, .t1, .shed, .prefetch, .stalls, .units, .ops, .mirrors, .redirects, .cp, .cpSlots, .contexts, .answers, .windows, .tallies, .aisle, .textCache, .rounds, .parts, .svChanged, .periodEnd, .emptyRaised, .satPages, .net, .sec, .ck, .pw, .bu, .tear, .tests, .allocStopped, .freeIdx] s out := by
  unfold execBuTestDone
  try dsimp only
  refine ⟨_, rfl, ?_⟩
  try dsimp only
  repeat' first
    | with_reducible exact Kept.refl _
    | ((with_reducible apply Laws.State.bindUnits_kept); (case mhl => decide))
    | ((with_reducible apply Laws.State.buildSurvey_kept); (case mhl => decide))
    | ((with_reducible apply Laws.State.compareTopology_kept); (case mhl => decide))
    | ((with_reducible apply Laws.State.enterBu_kept); (case mhl => decide))
    | ((with_reducible apply Laws.State.failBringUp_kept); (case mhl => decide))
    | ((with_reducible apply Laws.State.recordFound_kept); (case mhl => decide))
    | ((with_reducible apply Laws.State.stepEnded_kept); (case mhl => decide))
    | with_reducible apply Kept.ite
    | intro _
    | dsimp only
    | split

theorem execBuStepTimeout_kept (k : Nat) (s : State) : ∃ out, execBuStepTimeout k s = .next out ∧ Kept [.io, .yt, .t1, .shed, .prefetch, .stalls, .units, .ops, .mirrors, .redirects, .cp, .cpSlots, .contexts, .answers, .windows, .tallies, .aisle, .textCache, .rounds, .parts, .svChanged, .periodEnd, .emptyRaised, .satPages, .net, .sec, .ck, .pw, .bu, .tear, .tests, .allocStopped, .freeIdx] s out := by
  unfold execBuStepTimeout
  try dsimp only
  refine ⟨_, rfl, ?_⟩
  try dsimp only
  repeat' first
    | with_reducible exact Kept.refl _
    | ((with_reducible apply Laws.State.failBringUp_kept); (case mhl => decide))
    | with_reducible apply Kept.ite
    | intro _
    | dsimp only
    | split

theorem State.writePortCtrl_frame (s : State) (w : RegWrite) : Kept [.io] s (State.writePortCtrl s w) := by
  unfold State.writePortCtrl
  try dsimp only
  repeat' first
    | with_reducible exact Kept.refl _
    | ((with_reducible apply Laws.State.fromPort_kept); (case mhl => decide))
    | ((with_reducible apply Laws.State.store_kept); (case mhl => decide))
    | ((with_reducible apply Kept.iteL); case k => ((repeat' first | with_reducible exact Kept.refl _ | ((with_reducible apply Laws.State.fromPort_kept); (case mhl => decide)) | ((with_reducible apply Laws.State.store_kept); (case mhl => decide)) | with_reducible apply Kept.foldl | with_reducible apply Kept.foldlFst | with_reducible apply Kept.foldlSnd | with_reducible apply Kept.ite | (fail_if_no_progress ((with_reducible apply Kept.upd); (case ho => (refine Only.of (fun p hp => ?_) rfl; cases p <;> first | rfl | (refine absurd ?_ hp; decide))); (case hi => (repeat' first | with_reducible exact IoKept.refl _ | with_reducible apply Laws.Io.stopQueue_kept | with_reducible apply Laws.Io.stopRing_kept | with_reducible apply IoKept.ite | with_reducible apply IoKept.foldl | with_reducible apply IoKept.put | with_reducible apply IoKept.filter | (fail_if_no_progress with_reducible apply IoKept.upd) | intro _ | dsimp only | split)); (case ht => exact T1Kept.refl _))) | intro _ | dsimp only | split); done))
    | ((with_reducible apply Kept.iteR); case k => ((repeat' first | with_reducible exact Kept.refl _ | ((with_reducible apply Laws.State.fromPort_kept); (case mhl => decide)) | ((with_reducible apply Laws.State.store_kept); (case mhl => decide)) | with_reducible apply Kept.foldl | with_reducible apply Kept.foldlFst | with_reducible apply Kept.foldlSnd | with_reducible apply Kept.ite | (fail_if_no_progress ((with_reducible apply Kept.upd); (case ho => (refine Only.of (fun p hp => ?_) rfl; cases p <;> first | rfl | (refine absurd ?_ hp; decide))); (case hi => (repeat' first | with_reducible exact IoKept.refl _ | with_reducible apply Laws.Io.stopQueue_kept | with_reducible apply Laws.Io.stopRing_kept | with_reducible apply IoKept.ite | with_reducible apply IoKept.foldl | with_reducible apply IoKept.put | with_reducible apply IoKept.filter | (fail_if_no_progress with_reducible apply IoKept.upd) | intro _ | dsimp only | split)); (case ht => exact T1Kept.refl _))) | intro _ | dsimp only | split); done))
    | with_reducible apply Kept.ite
    | with_reducible apply Kept.foldl
    | with_reducible apply Kept.foldlFst
    | with_reducible apply Kept.foldlSnd
    | (fail_if_no_progress ((with_reducible apply Kept.upd); (case ho => (refine Only.of (fun p hp => ?_) rfl; cases p <;> first | rfl | (refine absurd ?_ hp; decide))); (case hi => (repeat' first | with_reducible exact IoKept.refl _ | with_reducible apply Laws.Io.stopQueue_kept | with_reducible apply Laws.Io.stopRing_kept | with_reducible apply IoKept.ite | with_reducible apply IoKept.foldl | with_reducible apply IoKept.put | with_reducible apply IoKept.filter | (fail_if_no_progress with_reducible apply IoKept.upd) | intro _ | dsimp only | split)); (case ht => exact T1Kept.refl _)))
    | intro _
    | dsimp only
    | split
theorem State.writePortCtrl_kept {ml : List StateField} {mz : State} {s : State} {w : RegWrite} (mhl : [.io] ⊆ ml) (mh : Kept ml mz s) : Kept ml mz (State.writePortCtrl s w) :=
  Kept.after ((State.writePortCtrl_frame s w).mono mhl) mh

theorem execGcPortCommit_kept (w : RegWrite) (s : State) : ∃ out, execGcPortCommit w s = .next out ∧ Kept [.io] s out := by
  unfold execGcPortCommit
  try dsimp only
  refine ⟨_, rfl, ?_⟩
  try dsimp only
  repeat' first
    | with_reducible exact Kept.refl _
    | ((with_reducible apply Laws.State.writePortCtrl_kept); (case mhl => decide))
    | with_reducible apply Kept.ite
    | intro _
    | dsimp only
    | split

end Sys2Proof.Laws
end

