-- ==== Sys2Proof/Laws/KeptCpOps.lean ====
section
/-! SUPPORT. The frame lemma of every operation of Machine/CpOps.lean: which fields of the state it may change, and that it keeps the canonical
forms. -/

set_option Elab.async false
set_option linter.unusedTactic false
set_option linter.unreachableTactic false
set_option linter.unusedVariables false

namespace Sys2Proof.Laws

open Sys2Proof Sys2Proof.Machine Sys2Proof.Safety

theorem State.closeBands_frame (s : State) : Kept [.shed] s (State.closeBands s) := by
  unfold State.closeBands
  try dsimp only
  repeat' first
    | with_reducible exact Kept.refl _
    | ((with_reducible apply Laws.State.setShedPort_kept); (case mhl => decide))
    | with_reducible apply Kept.ite
    | with_reducible apply Kept.foldl
    | with_reducible apply Kept.foldlFst
    | with_reducible apply Kept.foldlSnd
    | (fail_if_no_progress ((with_reducible apply Kept.upd); (case ho => (refine Only.of (fun p hp => ?_) rfl; cases p <;> first | rfl | (refine absurd ?_ hp; decide))); (case hi => exact IoKept.refl _); (case ht => exact T1Kept.refl _)))
    | intro _
    | dsimp only
    | split
theorem State.closeBands_kept {ml : List StateField} {mz : State} {s : State} (mhl : [.shed] ⊆ ml) (mh : Kept ml mz s) : Kept ml mz (State.closeBands s) :=
  Kept.after ((State.closeBands_frame s).mono mhl) mh

theorem State.putSession_frame (s : State) (i : Nat) (st : StallState) (x : Stall) (base : Header) (chain : List JRecord) : Kept [.shed, .stalls] s (State.putSession s i st x base chain) := by
  unfold State.putSession
  try dsimp only
  repeat' first
    | with_reducible exact Kept.refl _
    | ((with_reducible apply Laws.State.journal_kept); (case mhl => decide))
    | ((with_reducible apply Laws.State.replayResume_kept); (case mhl => decide))
    | ((with_reducible apply Laws.State.setStall_kept); (case mhl => decide))
    | with_reducible apply Kept.ite
    | with_reducible apply Kept.foldl
    | with_reducible apply Kept.foldlFst
    | with_reducible apply Kept.foldlSnd
    | with_reducible apply Kept.getD
    | (fail_if_no_progress ((with_reducible apply Kept.upd); (case ho => (refine Only.of (fun p hp => ?_) rfl; cases p <;> first | rfl | (refine absurd ?_ hp; decide))); (case hi => exact IoKept.refl _); (case ht => exact T1Kept.refl _)))
    | intro _
    | dsimp only
    | split
theorem State.putSession_kept {ml : List StateField} {mz : State} {s : State} {i : Nat} {st : StallState} {x : Stall} {base : Header} {chain : List JRecord} (mhl : [.shed, .stalls] ⊆ ml) (mh : Kept ml mz s) : Kept ml mz (State.putSession s i st x base chain) :=
  Kept.after ((State.putSession_frame s i st x base chain).mono mhl) mh

theorem State.loseSession_frame (s : State) (i : Nat) (x : Stall) : Kept [.io, .t1, .shed, .stalls] s (State.loseSession s i x) := by
  unfold State.loseSession
  try dsimp only
  repeat' first
    | with_reducible exact Kept.refl _
    | ((with_reducible apply Laws.State.freeSlot_kept); (case mhl => decide))
    | ((with_reducible apply Laws.State.raise_kept); (case mhl => decide))
    | ((with_reducible apply Laws.State.setStall_kept); (case mhl => decide))
    | with_reducible apply Kept.ite
    | (fail_if_no_progress ((with_reducible apply Kept.upd); (case ho => (refine Only.of (fun p hp => ?_) rfl; cases p <;> first | rfl | (refine absurd ?_ hp; decide))); (case hi => (repeat' first | with_reducible exact IoKept.refl _ | with_reducible apply Laws.Io.raise_kept | with_reducible apply IoKept.ite | with_reducible apply IoKept.foldl | with_reducible apply IoKept.put | with_reducible apply IoKept.filter | (fail_if_no_progress with_reducible apply IoKept.upd) | intro _ | dsimp only | split)); (case ht => (repeat' first | with_reducible exact T1Kept.refl _ | with_reducible apply T1Kept.ite | with_reducible apply T1Kept.foldl | with_reducible apply T1Kept.put | with_reducible apply T1Kept.filter | (fail_if_no_progress with_reducible apply T1Kept.upd) | intro _ | dsimp only | split))))
    | intro _
    | dsimp only
    | split
theorem State.loseSession_kept {ml : List StateField} {mz : State} {s : State} {i : Nat} {x : Stall} (mhl : [.io, .t1, .shed, .stalls] ⊆ ml) (mh : Kept ml mz s) : Kept ml mz (State.loseSession s i x) :=
  Kept.after ((State.loseSession_frame s i x).mono mhl) mh

theorem State.restoreEntry_frame (s : State) (fresh : List JRecord) (e : CpEntry) : Kept [.io, .t1, .shed, .stalls, .ops, .mirrors, .answers, .textCache, .net] s (State.restoreEntry s fresh e) := by
  unfold State.restoreEntry
  try dsimp only
  repeat' first
    | with_reducible exact Kept.refl _
    | ((with_reducible apply Laws.State.loseSession_kept); (case mhl => decide))
    | ((with_reducible apply Laws.State.orphan_kept); (case mhl => decide))
    | ((with_reducible apply Laws.State.putSession_kept); (case mhl => decide))
    | ((with_reducible apply Laws.State.setStall_kept); (case mhl => decide))
    | ((with_reducible apply Kept.iteL); case k => ((repeat' first | with_reducible exact Kept.refl _ | ((with_reducible apply Laws.State.loseSession_kept); (case mhl => decide)) | ((with_reducible apply Laws.State.orphan_kept); (case mhl => decide)) | ((with_reducible apply Laws.State.putSession_kept); (case mhl => decide)) | ((with_reducible apply Laws.State.setStall_kept); (case mhl => decide)) | with_reducible apply Kept.ite | (fail_if_no_progress ((with_reducible apply Kept.upd); (case ho => (refine Only.of (fun p hp => ?_) rfl; cases p <;> first | rfl | (refine absurd ?_ hp; decide))); (case hi => (repeat' first | with_reducible exact IoKept.refl _ | with_reducible apply IoKept.ite | with_reducible apply IoKept.foldl | with_reducible apply IoKept.put | with_reducible apply IoKept.filter | (fail_if_no_progress with_reducible apply IoKept.upd) | intro _ | dsimp only | split)); (case ht => (repeat' first | with_reducible exact T1Kept.refl _ | with_reducible apply Laws.Tier1.free_kept | with_reducible apply T1Kept.ite | with_reducible apply T1Kept.foldl | with_reducible apply T1Kept.put | with_reducible apply T1Kept.filter | (fail_if_no_progress with_reducible apply T1Kept.upd) | intro _ | dsimp only | split)))) | intro _ | dsimp only | split); done))
    | ((with_reducible apply Kept.iteR); case k => ((repeat' first | with_reducible exact Kept.refl _ | ((with_reducible apply Laws.State.loseSession_kept); (case mhl => decide)) | ((with_reducible apply Laws.State.orphan_kept); (case mhl => decide)) | ((with_reducible apply Laws.State.putSession_kept); (case mhl => decide)) | ((with_reducible apply Laws.State.setStall_kept); (case mhl => decide)) | with_reducible apply Kept.ite | (fail_if_no_progress ((with_reducible apply Kept.upd); (case ho => (refine Only.of (fun p hp => ?_) rfl; cases p <;> first | rfl | (refine absurd ?_ hp; decide))); (case hi => (repeat' first | with_reducible exact IoKept.refl _ | with_reducible apply IoKept.ite | with_reducible apply IoKept.foldl | with_reducible apply IoKept.put | with_reducible apply IoKept.filter | (fail_if_no_progress with_reducible apply IoKept.upd) | intro _ | dsimp only | split)); (case ht => (repeat' first | with_reducible exact T1Kept.refl _ | with_reducible apply Laws.Tier1.free_kept | with_reducible apply T1Kept.ite | with_reducible apply T1Kept.foldl | with_reducible apply T1Kept.put | with_reducible apply T1Kept.filter | (fail_if_no_progress with_reducible apply T1Kept.upd) | intro _ | dsimp only | split)))) | intro _ | dsimp only | split); done))
    | with_reducible apply Kept.ite
    | (fail_if_no_progress ((with_reducible apply Kept.upd); (case ho => (refine Only.of (fun p hp => ?_) rfl; cases p <;> first | rfl | (refine absurd ?_ hp; decide))); (case hi => (repeat' first | with_reducible exact IoKept.refl _ | with_reducible apply IoKept.ite | with_reducible apply IoKept.foldl | with_reducible apply IoKept.put | with_reducible apply IoKept.filter | (fail_if_no_progress with_reducible apply IoKept.upd) | intro _ | dsimp only | split)); (case ht => (repeat' first | with_reducible exact T1Kept.refl _ | with_reducible apply Laws.Tier1.free_kept | with_reducible apply T1Kept.ite | with_reducible apply T1Kept.foldl | with_reducible apply T1Kept.put | with_reducible apply T1Kept.filter | (fail_if_no_progress with_reducible apply T1Kept.upd) | intro _ | dsimp only | split))))
    | intro _
    | dsimp only
    | split
theorem State.restoreEntry_kept {ml : List StateField} {mz : State} {s : State} {fresh : List JRecord} {e : CpEntry} (mhl : [.io, .t1, .shed, .stalls, .ops, .mirrors, .answers, .textCache, .net] ⊆ ml) (mh : Kept ml mz s) : Kept ml mz (State.restoreEntry s fresh e) :=
  Kept.after ((State.restoreEntry_frame s fresh e).mono mhl) mh

theorem State.recreate_frame (s : State) (fresh : List JRecord) (h : Nat) : Kept [.shed, .stalls] s (State.recreate s fresh h) := by
  unfold State.recreate
  try dsimp only
  repeat' first
    | with_reducible exact Kept.refl _
    | ((with_reducible apply Laws.State.putSession_kept); (case mhl => decide))
    | with_reducible apply Kept.ite
    | with_reducible apply Kept.getD
    | (fail_if_no_progress ((with_reducible apply Kept.upd); (case ho => (refine Only.of (fun p hp => ?_) rfl; cases p <;> first | rfl | (refine absurd ?_ hp; decide))); (case hi => exact IoKept.refl _); (case ht => exact T1Kept.refl _)))
    | intro _
    | dsimp only
    | split
theorem State.recreate_kept {ml : List StateField} {mz : State} {s : State} {fresh : List JRecord} {h : Nat} (mhl : [.shed, .stalls] ⊆ ml) (mh : Kept ml mz s) : Kept ml mz (State.recreate s fresh h) :=
  Kept.after ((State.recreate_frame s fresh h).mono mhl) mh

theorem State.placeRun_frame (s : State) (r : CpRun) : Kept [.t1] s (State.placeRun s r) := by
  unfold State.placeRun
  try dsimp only
  repeat' first
    | with_reducible exact Kept.refl _
    | with_reducible apply Kept.ite
    | (fail_if_no_progress ((with_reducible apply Kept.upd); (case ho => (refine Only.of (fun p hp => ?_) rfl; cases p <;> first | rfl | (refine absurd ?_ hp; decide))); (case hi => exact IoKept.refl _); (case ht => (repeat' first | with_reducible exact T1Kept.refl _ | with_reducible apply Laws.Tier1.own_kept | with_reducible apply Laws.Tier1.write_kept | with_reducible apply T1Kept.ite | with_reducible apply T1Kept.foldl | with_reducible apply T1Kept.put | with_reducible apply T1Kept.filter | (fail_if_no_progress with_reducible apply T1Kept.upd) | intro _ | dsimp only | split))))
    | intro _
    | dsimp only
    | split
theorem State.placeRun_kept {ml : List StateField} {mz : State} {s : State} {r : CpRun} (mhl : [.t1] ⊆ ml) (mh : Kept ml mz s) : Kept ml mz (State.placeRun s r) :=
  Kept.after ((State.placeRun_frame s r).mono mhl) mh

theorem State.placeRedirect_frame (s : State) (r : Nat × Nat × Nat) : Kept [.t1] s (State.placeRedirect s r) := by
  unfold State.placeRedirect
  try dsimp only
  repeat' first
    | with_reducible exact Kept.refl _
    | with_reducible apply Kept.ite
    | (fail_if_no_progress ((with_reducible apply Kept.upd); (case ho => (refine Only.of (fun p hp => ?_) rfl; cases p <;> first | rfl | (refine absurd ?_ hp; decide))); (case hi => exact IoKept.refl _); (case ht => (repeat' first | with_reducible exact T1Kept.refl _ | with_reducible apply Laws.Tier1.own_kept | with_reducible apply T1Kept.ite | with_reducible apply T1Kept.foldl | with_reducible apply T1Kept.put | with_reducible apply T1Kept.filter | (fail_if_no_progress with_reducible apply T1Kept.upd) | intro _ | dsimp only | split))))
    | intro _
    | dsimp only
    | split
theorem State.placeRedirect_kept {ml : List StateField} {mz : State} {s : State} {r : Nat × Nat × Nat} (mhl : [.t1] ⊆ ml) (mh : Kept ml mz s) : Kept ml mz (State.placeRedirect s r) :=
  Kept.after ((State.placeRedirect_frame s r).mono mhl) mh

theorem State.restoreImage_frame (s : State) (skip : Bool) (i : CpImage) : Kept [.io, .t1, .shed, .stalls, .ops, .mirrors, .redirects, .answers, .textCache, .net] s (State.restoreImage s skip i) := by
  unfold State.restoreImage
  try dsimp only
  repeat' first
    | with_reducible exact Kept.refl _
    | ((with_reducible apply Laws.State.placeRedirect_kept); (case mhl => decide))
    | ((with_reducible apply Laws.State.placeRun_kept); (case mhl => decide))
    | ((with_reducible apply Laws.State.recreate_kept); (case mhl => decide))
    | ((with_reducible apply Laws.State.restoreEntry_kept); (case mhl => decide))
    | ((with_reducible apply Laws.State.setRedirects_kept); (case mhl => decide))
    | ((with_reducible apply Laws.State.writeT1_kept); (case mhl => decide))
    | with_reducible apply Kept.ite
    | with_reducible apply Kept.foldl
    | with_reducible apply Kept.foldlFst
    | with_reducible apply Kept.foldlSnd
    | (fail_if_no_progress ((with_reducible apply Kept.upd); (case ho => (refine Only.of (fun p hp => ?_) rfl; cases p <;> first | rfl | (refine absurd ?_ hp; decide))); (case hi => (repeat' first | with_reducible exact IoKept.refl _ | with_reducible apply IoKept.ite | with_reducible apply IoKept.foldl | with_reducible apply IoKept.put | with_reducible apply IoKept.filter | (fail_if_no_progress with_reducible apply IoKept.upd) | intro _ | dsimp only | split)); (case ht => (repeat' first | with_reducible exact T1Kept.refl _ | with_reducible apply T1Kept.ite | with_reducible apply T1Kept.foldl | with_reducible apply T1Kept.put | with_reducible apply T1Kept.filter | (fail_if_no_progress with_reducible apply T1Kept.upd) | intro _ | dsimp only | split))))
    | intro _
    | dsimp only
    | split
theorem State.restoreImage_kept {ml : List StateField} {mz : State} {s : State} {skip : Bool} {i : CpImage} (mhl : [.io, .t1, .shed, .stalls, .ops, .mirrors, .redirects, .answers, .textCache, .net] ⊆ ml) (mh : Kept ml mz s) : Kept ml mz (State.restoreImage s skip i) :=
  Kept.after ((State.restoreImage_frame s skip i).mono mhl) mh

end Sys2Proof.Laws
end

