-- ==== Sys2Proof/Laws/KeptCheckpoint.lean ====
section
/-! SUPPORT. The frame lemma of every operation of Machine/Checkpoint.lean: which fields of the state it may change, and that it keeps the canonical
forms. -/

set_option Elab.async false
set_option linter.unusedTactic false
set_option linter.unreachableTactic false
set_option linter.unusedVariables false

namespace Sys2Proof.Laws

open Sys2Proof Sys2Proof.Machine Sys2Proof.Safety

theorem State.writeCpCtrl_frame (s : State) (w : RegWrite) : Kept [.io] s (State.writeCpCtrl s w) := by
  unfold State.writeCpCtrl
  try dsimp only
  repeat' first
    | with_reducible exact Kept.refl _
    | ((with_reducible apply Laws.State.fromPort_kept); (case mhl => decide))
    | ((with_reducible apply Laws.State.store_kept); (case mhl => decide))
    | with_reducible apply Kept.ite
    | intro _
    | dsimp only
    | split
theorem State.writeCpCtrl_kept {ml : List StateField} {mz : State} {s : State} {w : RegWrite} (mhl : [.io] ⊆ ml) (mh : Kept ml mz s) : Kept ml mz (State.writeCpCtrl s w) :=
  Kept.after ((State.writeCpCtrl_frame s w).mono mhl) mh

theorem execCpCommit_kept (w : RegWrite) (s : State) : ∃ out, execCpCommit w s = .next out ∧ Kept [.io] s out := by
  unfold execCpCommit
  try dsimp only
  refine ⟨_, rfl, ?_⟩
  try dsimp only
  repeat' first
    | with_reducible exact Kept.refl _
    | ((with_reducible apply Laws.State.writeCpCtrl_kept); (case mhl => decide))
    | with_reducible apply Kept.ite
    | intro _
    | dsimp only
    | split

theorem execCpTake_kept (c : Cmd) (s : State) : ∃ out, execCpTake c s = .next out ∧ Kept [.io, .yt, .ops, .cp, .answers] s out := by
  unfold execCpTake
  try dsimp only
  refine ⟨_, rfl, ?_⟩
  try dsimp only
  repeat' first
    | with_reducible exact Kept.refl _
    | ((with_reducible apply Laws.State.beginCheckpoint_kept); (case mhl => decide))
    | ((with_reducible apply Laws.State.beginOp_kept); (case mhl => decide))
    | ((with_reducible apply Laws.State.refuse_kept); (case mhl => decide))
    | ((with_reducible apply Laws.State.runCmd_kept); (case mhl => decide))
    | ((with_reducible apply Kept.iteL); case k => ((repeat' first | with_reducible exact Kept.refl _ | ((with_reducible apply Laws.State.beginCheckpoint_kept); (case mhl => decide)) | ((with_reducible apply Laws.State.beginOp_kept); (case mhl => decide)) | ((with_reducible apply Laws.State.refuse_kept); (case mhl => decide)) | ((with_reducible apply Laws.State.runCmd_kept); (case mhl => decide)) | with_reducible apply Kept.ite | intro _ | dsimp only | split); done))
    | ((with_reducible apply Kept.iteR); case k => ((repeat' first | with_reducible exact Kept.refl _ | ((with_reducible apply Laws.State.beginCheckpoint_kept); (case mhl => decide)) | ((with_reducible apply Laws.State.beginOp_kept); (case mhl => decide)) | ((with_reducible apply Laws.State.refuse_kept); (case mhl => decide)) | ((with_reducible apply Laws.State.runCmd_kept); (case mhl => decide)) | with_reducible apply Kept.ite | intro _ | dsimp only | split); done))
    | with_reducible apply Kept.ite
    | intro _
    | dsimp only
    | split

theorem execCpPeriodicTrigger_kept (s : State) : ∃ out, execCpPeriodicTrigger s = .next out ∧ Kept [.io, .yt, .ops, .cp] s out := by
  unfold execCpPeriodicTrigger
  try dsimp only
  refine ⟨_, rfl, ?_⟩
  try dsimp only
  repeat' first
    | with_reducible exact Kept.refl _
    | ((with_reducible apply Laws.State.triggerCheckpoint_kept); (case mhl => decide))
    | with_reducible apply Kept.ite
    | (fail_if_no_progress ((with_reducible apply Kept.upd); (case ho => (refine Only.of (fun p hp => ?_) rfl; cases p <;> first | rfl | (refine absurd ?_ hp; decide))); (case hi => (repeat' first | with_reducible exact IoKept.refl _ | with_reducible apply IoKept.ite | with_reducible apply IoKept.foldl | with_reducible apply IoKept.put | with_reducible apply IoKept.filter | (fail_if_no_progress with_reducible apply IoKept.upd) | intro _ | dsimp only | split)); (case ht => exact T1Kept.refl _)))
    | intro _
    | dsimp only
    | split

theorem execCpFreezeDone_kept (s : State) : ∃ out, execCpFreezeDone s = .next out ∧ Kept [.io, .yt, .t1, .units, .cp, .contexts, .tallies, .net] s out := by
  unfold execCpFreezeDone
  try dsimp only
  refine ⟨_, rfl, ?_⟩
  try dsimp only
  repeat' first
    | with_reducible exact Kept.refl _
    | ((with_reducible apply Laws.State.put_kept); (case mhl => decide))
    | ((with_reducible apply Laws.State.switchOut_kept); (case mhl => decide))
    | with_reducible apply Kept.ite
    | with_reducible apply Kept.foldl
    | with_reducible apply Kept.foldlFst
    | with_reducible apply Kept.foldlSnd
    | (fail_if_no_progress ((with_reducible apply Kept.upd); (case ho => (refine Only.of (fun p hp => ?_) rfl; cases p <;> first | rfl | (refine absurd ?_ hp; decide))); (case hi => (repeat' first | with_reducible exact IoKept.refl _ | with_reducible apply Laws.Io.put_kept | with_reducible apply IoKept.ite | with_reducible apply IoKept.foldl | with_reducible apply IoKept.put | with_reducible apply IoKept.filter | (fail_if_no_progress with_reducible apply IoKept.upd) | intro _ | dsimp only | split)); (case ht => (repeat' first | with_reducible exact T1Kept.refl _ | with_reducible apply T1Kept.ite | with_reducible apply T1Kept.foldl | with_reducible apply T1Kept.put | with_reducible apply T1Kept.filter | (fail_if_no_progress with_reducible apply T1Kept.upd) | intro _ | dsimp only | split))))
    | intro _
    | dsimp only
    | split

theorem execCpDrainDone_kept (s : State) : ∃ out, execCpDrainDone s = .next out ∧ Kept [.io, .shed, .cp, .cpSlots] s out := by
  refine ⟨_, rfl, ?_⟩
  apply Kept.ite (Kept.refl _)
  extract_lets s1 marks src s2
  have h1 : Kept [.io, .shed, .cp, .cpSlots] s s1 := State.closeBands_kept (by decide) (Kept.refl _)
  clear_value s1
  have h2 : Kept [.io, .shed, .cp, .cpSlots] s s2 := by
    with_reducible apply Kept.upd
    case ho => exact Only.of (fun p hp => by cases p <;> first | rfl | exact absurd (by decide) hp) rfl
    case hi => exact IoKept.refl _
    case ht => exact T1Kept.refl _
    exact h1
  clear_value s2
  exact State.put_kept (by decide) (State.clearSlot_kept (by decide) h2)

theorem execCpWriteDone_kept (s : State) : ∃ out, execCpWriteDone s = .next out ∧ Kept [.io, .t1, .shed, .stalls, .units, .ops, .mirrors, .cp, .cpSlots, .contexts, .answers, .tallies, .textCache, .rounds, .net] s out := by
  unfold execCpWriteDone
  try dsimp only
  refine ⟨_, rfl, ?_⟩
  try dsimp only
  repeat' first
    | with_reducible exact Kept.refl _
    | ((with_reducible apply Laws.State.dropCheckpoint_kept); (case mhl => decide))
    | ((with_reducible apply Laws.State.endFreeze_kept); (case mhl => decide))
    | ((with_reducible apply Laws.State.endOp_kept); (case mhl => decide))
    | ((with_reducible apply Laws.State.put_kept); (case mhl => decide))
    | ((with_reducible apply Laws.State.raise_kept); (case mhl => decide))
    | with_reducible apply Kept.ite
    | (fail_if_no_progress ((with_reducible apply Kept.upd); (case ho => (refine Only.of (fun p hp => ?_) rfl; cases p <;> first | rfl | (refine absurd ?_ hp; decide))); (case hi => (repeat' first | with_reducible exact IoKept.refl _ | with_reducible apply Laws.Io.put_kept | with_reducible apply Laws.Io.raise_kept | with_reducible apply IoKept.ite | with_reducible apply IoKept.foldl | with_reducible apply IoKept.put | with_reducible apply IoKept.filter | (fail_if_no_progress with_reducible apply IoKept.upd) | intro _ | dsimp only | split)); (case ht => (repeat' first | with_reducible exact T1Kept.refl _ | with_reducible apply T1Kept.ite | with_reducible apply T1Kept.foldl | with_reducible apply T1Kept.put | with_reducible apply T1Kept.filter | (fail_if_no_progress with_reducible apply T1Kept.upd) | intro _ | dsimp only | split))))
    | intro _
    | dsimp only
    | split

theorem State.failRestore_frame (s : State) (op slot step status r1 r2 : Nat) : Kept [.io, .ops, .answers] s (State.failRestore s op slot step status r1 r2) := by
  unfold State.failRestore
  try dsimp only
  repeat' first
    | with_reducible exact Kept.refl _
    | ((with_reducible apply Laws.State.endOp_kept); (case mhl => decide))
    | ((with_reducible apply Laws.State.raise_kept); (case mhl => decide))
    | with_reducible apply Kept.ite
    | intro _
    | dsimp only
    | split
theorem State.failRestore_kept {ml : List StateField} {mz : State} {s : State} {op slot step status r1 r2 : Nat} (mhl : [.io, .ops, .answers] ⊆ ml) (mh : Kept ml mz s) : Kept ml mz (State.failRestore s op slot step status r1 r2) :=
  Kept.after ((State.failRestore_frame s op slot step status r1 r2).mono mhl) mh

theorem State.startRestore_frame (s : State) (op which expect : Nat) (skip : Bool) : Kept [.io, .ops, .cp, .answers, .freeIdx] s (State.startRestore s op which expect skip) := by
  unfold State.startRestore
  try dsimp only
  repeat' first
    | with_reducible exact Kept.refl _
    | ((with_reducible apply Laws.State.drawFree_kept' ?mhl (by assumption)); (case mhl => decide))
    | ((with_reducible apply Laws.State.drawFree_kept); (case mhl => decide))
    | ((with_reducible apply Laws.State.failRestore_kept); (case mhl => decide))
    | ((with_reducible apply Laws.State.put_kept); (case mhl => decide))
    | with_reducible apply Kept.ite
    | (fail_if_no_progress ((with_reducible apply Kept.upd); (case ho => (refine Only.of (fun p hp => ?_) rfl; cases p <;> first | rfl | (refine absurd ?_ hp; decide))); (case hi => (repeat' first | with_reducible exact IoKept.refl _ | with_reducible apply Laws.Io.put_kept | with_reducible apply IoKept.ite | with_reducible apply IoKept.foldl | with_reducible apply IoKept.put | with_reducible apply IoKept.filter | (fail_if_no_progress with_reducible apply IoKept.upd) | intro _ | dsimp only | split)); (case ht => exact T1Kept.refl _)))
    | intro _
    | dsimp only
    | split
theorem State.startRestore_kept {ml : List StateField} {mz : State} {s : State} {op which expect : Nat} {skip : Bool} (mhl : [.io, .ops, .cp, .answers, .freeIdx] ⊆ ml) (mh : Kept ml mz s) : Kept ml mz (State.startRestore s op which expect skip) :=
  Kept.after ((State.startRestore_frame s op which expect skip).mono mhl) mh

theorem execCpRestore_kept (c : Cmd) (s : State) : ∃ out, execCpRestore c s = .next out ∧ Kept [.io, .ops, .cp, .answers, .freeIdx] s out := by
  unfold execCpRestore
  try dsimp only
  refine ⟨_, rfl, ?_⟩
  try dsimp only
  repeat' first
    | with_reducible exact Kept.refl _
    | ((with_reducible apply Laws.State.beginOp_kept); (case mhl => decide))
    | ((with_reducible apply Laws.State.refuse_kept); (case mhl => decide))
    | ((with_reducible apply Laws.State.runCmd_kept); (case mhl => decide))
    | ((with_reducible apply Laws.State.startRestore_kept); (case mhl => decide))
    | with_reducible apply Kept.ite
    | intro _
    | dsimp only
    | split

theorem execCpRestoreReadsDone_kept (bad : Option (Nat × Bool)) (s : State) : ∃ out, execCpRestoreReadsDone bad s = .next out ∧ Kept [.io, .t1, .shed, .stalls, .ops, .mirrors, .redirects, .cp, .answers, .textCache, .net] s out := by
  unfold execCpRestoreReadsDone
  try dsimp only
  refine ⟨_, rfl, ?_⟩
  try dsimp only
  repeat' first
    | with_reducible exact Kept.refl _
    | ((with_reducible apply Laws.State.autoMerges_kept); (case mhl => decide))
    | ((with_reducible apply Laws.State.endOp_kept); (case mhl => decide))
    | ((with_reducible apply Laws.State.failRestore_kept); (case mhl => decide))
    | ((with_reducible apply Laws.State.put_kept); (case mhl => decide))
    | ((with_reducible apply Laws.State.quarantine_kept); (case mhl => decide))
    | ((with_reducible apply Laws.State.raise_kept); (case mhl => decide))
    | ((with_reducible apply Laws.State.restoreImage_kept); (case mhl => decide))
    | with_reducible apply Kept.ite
    | with_reducible apply Kept.foldl
    | with_reducible apply Kept.foldlFst
    | with_reducible apply Kept.foldlSnd
    | (fail_if_no_progress ((with_reducible apply Kept.upd); (case ho => (refine Only.of (fun p hp => ?_) rfl; cases p <;> first | rfl | (refine absurd ?_ hp; decide))); (case hi => (repeat' first | with_reducible exact IoKept.refl _ | with_reducible apply Laws.Io.put_kept | with_reducible apply Laws.Io.raise_kept | with_reducible apply IoKept.ite | with_reducible apply IoKept.foldl | with_reducible apply IoKept.put | with_reducible apply IoKept.filter | (fail_if_no_progress with_reducible apply IoKept.upd) | intro _ | dsimp only | split)); (case ht => (repeat' first | with_reducible exact T1Kept.refl _ | with_reducible apply T1Kept.ite | with_reducible apply T1Kept.foldl | with_reducible apply T1Kept.put | with_reducible apply T1Kept.filter | (fail_if_no_progress with_reducible apply T1Kept.upd) | intro _ | dsimp only | split))))
    | intro _
    | dsimp only
    | split

theorem execCpMirror_kept (c : Cmd) (s : State) : ∃ out, execCpMirror c s = .next out ∧ Kept [.io, .t1, .mirrors, .answers] s out := by
  unfold execCpMirror
  try dsimp only
  refine ⟨_, rfl, ?_⟩
  try dsimp only
  repeat' first
    | with_reducible exact Kept.refl _
    | ((with_reducible apply Laws.State.complete_kept); (case mhl => decide))
    | ((with_reducible apply Laws.State.runCmd_kept); (case mhl => decide))
    | ((with_reducible apply Laws.State.setMirrors_kept); (case mhl => decide))
    | with_reducible apply Kept.ite
    | with_reducible apply Kept.getD
    | (fail_if_no_progress ((with_reducible apply Kept.upd); (case ho => (refine Only.of (fun p hp => ?_) rfl; cases p <;> first | rfl | (refine absurd ?_ hp; decide))); (case hi => (repeat' first | with_reducible exact IoKept.refl _ | with_reducible apply IoKept.ite | with_reducible apply IoKept.foldl | with_reducible apply IoKept.put | with_reducible apply IoKept.filter | (fail_if_no_progress with_reducible apply IoKept.upd) | intro _ | dsimp only | split)); (case ht => (repeat' first | with_reducible exact T1Kept.refl _ | with_reducible apply Laws.Tier1.clear_kept | with_reducible apply T1Kept.ite | with_reducible apply T1Kept.foldl | with_reducible apply T1Kept.put | with_reducible apply T1Kept.filter | (fail_if_no_progress with_reducible apply T1Kept.upd) | intro _ | dsimp only | split))))
    | intro _
    | dsimp only
    | split

theorem State.copyMirror_frame (s : State) (m : Mirror) : Kept [.io, .t1] s (State.copyMirror s m) := by
  unfold State.copyMirror
  try dsimp only
  repeat' first
    | with_reducible exact Kept.refl _
    | ((with_reducible apply Laws.State.addPoison_kept); (case mhl => decide))
    | with_reducible apply Kept.ite
    | with_reducible apply Kept.foldl
    | with_reducible apply Kept.foldlFst
    | with_reducible apply Kept.foldlSnd
    | (fail_if_no_progress ((with_reducible apply Kept.upd); (case ho => (refine Only.of (fun p hp => ?_) rfl; cases p <;> first | rfl | (refine absurd ?_ hp; decide))); (case hi => (repeat' first | with_reducible exact IoKept.refl _ | with_reducible apply IoKept.ite | with_reducible apply IoKept.foldl | with_reducible apply IoKept.put | with_reducible apply IoKept.filter | (fail_if_no_progress with_reducible apply IoKept.upd) | intro _ | dsimp only | split)); (case ht => (repeat' first | with_reducible exact T1Kept.refl _ | with_reducible apply T1Kept.ite | with_reducible apply T1Kept.foldl | with_reducible apply T1Kept.put | with_reducible apply T1Kept.filter | (fail_if_no_progress with_reducible apply T1Kept.upd) | intro _ | dsimp only | split))))
    | intro _
    | dsimp only
    | split
theorem State.copyMirror_kept {ml : List StateField} {mz : State} {s : State} {m : Mirror} (mhl : [.io, .t1] ⊆ ml) (mh : Kept ml mz s) : Kept ml mz (State.copyMirror s m) :=
  Kept.after ((State.copyMirror_frame s m).mono mhl) mh

theorem execCpMirrorCopyDone_kept (num : Nat) (s : State) : ∃ out, execCpMirrorCopyDone num s = .next out ∧ Kept [.io, .t1, .mirrors, .answers] s out := by
  unfold execCpMirrorCopyDone
  try dsimp only
  refine ⟨_, rfl, ?_⟩
  try dsimp only
  repeat' first
    | with_reducible exact Kept.refl _
    | ((with_reducible apply Laws.State.complete_kept); (case mhl => decide))
    | ((with_reducible apply Laws.State.copyMirror_kept); (case mhl => decide))
    | ((with_reducible apply Laws.State.setMirrors_kept); (case mhl => decide))
    | with_reducible apply Kept.ite
    | (fail_if_no_progress ((with_reducible apply Kept.upd); (case ho => (refine Only.of (fun p hp => ?_) rfl; cases p <;> first | rfl | (refine absurd ?_ hp; decide))); (case hi => (repeat' first | with_reducible exact IoKept.refl _ | with_reducible apply IoKept.ite | with_reducible apply IoKept.foldl | with_reducible apply IoKept.put | with_reducible apply IoKept.filter | (fail_if_no_progress with_reducible apply IoKept.upd) | intro _ | dsimp only | split)); (case ht => (repeat' first | with_reducible exact T1Kept.refl _ | with_reducible apply T1Kept.ite | with_reducible apply T1Kept.foldl | with_reducible apply T1Kept.put | with_reducible apply T1Kept.filter | (fail_if_no_progress with_reducible apply T1Kept.upd) | intro _ | dsimp only | split))))
    | intro _
    | dsimp only
    | split

theorem execCpUnmirror_kept (c : Cmd) (s : State) : ∃ out, execCpUnmirror c s = .next out ∧ Kept [.io, .mirrors, .answers] s out := by
  unfold execCpUnmirror
  try dsimp only
  refine ⟨_, rfl, ?_⟩
  try dsimp only
  repeat' first
    | with_reducible exact Kept.refl _
    | ((with_reducible apply Laws.State.complete_kept); (case mhl => decide))
    | ((with_reducible apply Laws.State.dissolve_kept); (case mhl => decide))
    | ((with_reducible apply Laws.State.runCmd_kept); (case mhl => decide))
    | with_reducible apply Kept.ite
    | with_reducible apply Kept.getD
    | intro _
    | dsimp only
    | split

end Sys2Proof.Laws
end

