-- ==== Sys2Proof/Laws/KeptClock.lean ====
section
/-! SUPPORT. The frame lemma of every operation of Machine/Clock.lean: which fields of the state it may change, and that it keeps the canonical
forms. -/

set_option Elab.async false
set_option linter.unusedTactic false
set_option linter.unreachableTactic false
set_option linter.unusedVariables false

namespace Sys2Proof.Laws

open Sys2Proof Sys2Proof.Machine Sys2Proof.Safety

theorem execMonitorWindowEnd_kept (x : MonitorWindow) (s : State) : ∃ out, execMonitorWindowEnd x s = .next out ∧ Kept [.io, .yt, .net, .sec, .ck] s out := by
  unfold execMonitorWindowEnd
  try dsimp only
  refine ⟨_, rfl, ?_⟩
  try dsimp only
  repeat' first
    | with_reducible exact Kept.refl _
    | ((with_reducible apply Laws.State.windowEnd_kept); (case mhl => decide))
    | with_reducible apply Kept.ite
    | intro _
    | dsimp only
    | split

theorem execMissingEdge_kept (k : Nat) (s : State) : ∃ out, execMissingEdge k s = .next out ∧ Kept [.io, .yt, .net, .sec, .ck] s out := by
  unfold execMissingEdge
  try dsimp only
  refine ⟨_, rfl, ?_⟩
  try dsimp only
  repeat' first
    | with_reducible exact Kept.refl _
    | ((with_reducible apply Laws.State.loseSource_kept); (case mhl => decide))
    | with_reducible apply Kept.ite
    | intro _
    | dsimp only
    | split

theorem State.clearRates_frame (s : State) : Kept [.io, .freeIdx] s (State.clearRates s) := by
  unfold State.clearRates
  try dsimp only
  repeat' first
    | with_reducible exact Kept.refl _
    | ((with_reducible apply Laws.State.drawFree_kept' ?mhl (by assumption)); (case mhl => decide))
    | ((with_reducible apply Laws.State.drawFree_kept); (case mhl => decide))
    | ((with_reducible apply Laws.State.put_kept); (case mhl => decide))
    | with_reducible apply Kept.ite
    | with_reducible apply Kept.foldl
    | with_reducible apply Kept.foldlFst
    | with_reducible apply Kept.foldlSnd
    | intro _
    | dsimp only
    | split
theorem State.clearRates_kept {ml : List StateField} {mz : State} {s : State} (mhl : [.io, .freeIdx] ⊆ ml) (mh : Kept ml mz s) : Kept ml mz (State.clearRates s) :=
  Kept.after ((State.clearRates_frame s).mono mhl) mh

theorem State.writeCkCtrl_frame (s : State) (w : RegWrite) : Kept [.io, .freeIdx] s (State.writeCkCtrl s w) := by
  unfold State.writeCkCtrl
  try dsimp only
  repeat' first
    | with_reducible exact Kept.refl _
    | ((with_reducible apply Laws.State.clearRates_kept); (case mhl => decide))
    | ((with_reducible apply Laws.State.fromPort_kept); (case mhl => decide))
    | ((with_reducible apply Laws.State.returnAll_kept); (case mhl => decide))
    | ((with_reducible apply Laws.State.store_kept); (case mhl => decide))
    | with_reducible apply Kept.ite
    | intro _
    | dsimp only
    | split
theorem State.writeCkCtrl_kept {ml : List StateField} {mz : State} {s : State} {w : RegWrite} (mhl : [.io, .freeIdx] ⊆ ml) (mh : Kept ml mz s) : Kept ml mz (State.writeCkCtrl s w) :=
  Kept.after ((State.writeCkCtrl_frame s w).mono mhl) mh

theorem execCkReturn_kept (w : RegWrite) (s : State) : ∃ out, execCkReturn w s = .next out ∧ Kept [.io, .freeIdx] s out := by
  unfold execCkReturn
  try dsimp only
  refine ⟨_, rfl, ?_⟩
  try dsimp only
  repeat' first
    | with_reducible exact Kept.refl _
    | ((with_reducible apply Laws.State.writeCkCtrl_kept); (case mhl => decide))
    | with_reducible apply Kept.ite
    | intro _
    | dsimp only
    | split

theorem execCkRateClr_kept (w : RegWrite) (s : State) : ∃ out, execCkRateClr w s = .next out ∧ Kept [.io, .freeIdx] s out := by
  unfold execCkRateClr
  try dsimp only
  refine ⟨_, rfl, ?_⟩
  try dsimp only
  repeat' first
    | with_reducible exact Kept.refl _
    | ((with_reducible apply Laws.State.writeCkCtrl_kept); (case mhl => decide))
    | with_reducible apply Kept.ite
    | intro _
    | dsimp only
    | split

theorem execCkCommit_kept (w : RegWrite) (s : State) : ∃ out, execCkCommit w s = .next out ∧ Kept [.io, .freeIdx] s out := by
  unfold execCkCommit
  try dsimp only
  refine ⟨_, rfl, ?_⟩
  try dsimp only
  repeat' first
    | with_reducible exact Kept.refl _
    | ((with_reducible apply Laws.State.writeCkCtrl_kept); (case mhl => decide))
    | with_reducible apply Kept.ite
    | intro _
    | dsimp only
    | split

theorem State.writeFmeas_frame (s : State) (w : RegWrite) : Kept [.io] s (State.writeFmeas s w) := by
  unfold State.writeFmeas
  try dsimp only
  repeat' first
    | with_reducible exact Kept.refl _
    | ((with_reducible apply Laws.State.fromPort_kept); (case mhl => decide))
    | ((with_reducible apply Laws.State.put_kept); (case mhl => decide))
    | ((with_reducible apply Laws.State.store_kept); (case mhl => decide))
    | with_reducible apply Kept.ite
    | intro _
    | dsimp only
    | split
theorem State.writeFmeas_kept {ml : List StateField} {mz : State} {s : State} {w : RegWrite} (mhl : [.io] ⊆ ml) (mh : Kept ml mz s) : Kept ml mz (State.writeFmeas s w) :=
  Kept.after ((State.writeFmeas_frame s w).mono mhl) mh

theorem execFmeasStart_kept (w : RegWrite) (s : State) : ∃ out, execFmeasStart w s = .next out ∧ Kept [.io] s out := by
  unfold execFmeasStart
  try dsimp only
  refine ⟨_, rfl, ?_⟩
  try dsimp only
  repeat' first
    | with_reducible exact Kept.refl _
    | ((with_reducible apply Laws.State.writeFmeas_kept); (case mhl => decide))
    | with_reducible apply Kept.ite
    | intro _
    | dsimp only
    | split

theorem execFmeasDone_kept (count : Nat) (s : State) : ∃ out, execFmeasDone count s = .next out ∧ Kept [.io] s out := by
  unfold execFmeasDone
  try dsimp only
  refine ⟨_, rfl, ?_⟩
  try dsimp only
  repeat' first
    | with_reducible exact Kept.refl _
    | ((with_reducible apply Laws.State.put_kept); (case mhl => decide))
    | with_reducible apply Kept.ite
    | intro _
    | dsimp only
    | split

theorem State.writePace_frame (s : State) (w : RegWrite) (l : Nat) : Kept [.io] s (State.writePace s w l) := by
  unfold State.writePace
  try dsimp only
  repeat' first
    | with_reducible exact Kept.refl _
    | ((with_reducible apply Laws.State.fromPort_kept); (case mhl => decide))
    | ((with_reducible apply Laws.State.store_kept); (case mhl => decide))
    | with_reducible apply Kept.ite
    | intro _
    | dsimp only
    | split
theorem State.writePace_kept {ml : List StateField} {mz : State} {s : State} {w : RegWrite} {l : Nat} (mhl : [.io] ⊆ ml) (mh : Kept ml mz s) : Kept ml mz (State.writePace s w l) :=
  Kept.after ((State.writePace_frame s w l).mono mhl) mh

theorem execCkPaceWrite_kept (w : RegWrite) (l : Nat) (s : State) : ∃ out, execCkPaceWrite w l s = .next out ∧ Kept [.io] s out := by
  unfold execCkPaceWrite
  try dsimp only
  refine ⟨_, rfl, ?_⟩
  try dsimp only
  repeat' first
    | with_reducible exact Kept.refl _
    | ((with_reducible apply Laws.State.writePace_kept); (case mhl => decide))
    | with_reducible apply Kept.ite
    | intro _
    | dsimp only
    | split

theorem State.writePaceCtl_frame (s : State) (w : RegWrite) (d : Nat) : Kept [.io, .ck] s (State.writePaceCtl s w d) := by
  unfold State.writePaceCtl
  try dsimp only
  repeat' first
    | with_reducible exact Kept.refl _
    | ((with_reducible apply Laws.State.fromPort_kept); (case mhl => decide))
    | ((with_reducible apply Laws.State.startPace_kept); (case mhl => decide))
    | ((with_reducible apply Laws.State.store_kept); (case mhl => decide))
    | with_reducible apply Kept.ite
    | intro _
    | dsimp only
    | split
theorem State.writePaceCtl_kept {ml : List StateField} {mz : State} {s : State} {w : RegWrite} {d : Nat} (mhl : [.io, .ck] ⊆ ml) (mh : Kept ml mz s) : Kept ml mz (State.writePaceCtl s w d) :=
  Kept.after ((State.writePaceCtl_frame s w d).mono mhl) mh

theorem execPaceTargetChange_kept (w : RegWrite) (d : Nat) (s : State) : ∃ out, execPaceTargetChange w d s = .next out ∧ Kept [.io, .ck] s out := by
  unfold execPaceTargetChange
  try dsimp only
  refine ⟨_, rfl, ?_⟩
  try dsimp only
  repeat' first
    | with_reducible exact Kept.refl _
    | ((with_reducible apply Laws.State.writePaceCtl_kept); (case mhl => decide))
    | with_reducible apply Kept.ite
    | intro _
    | dsimp only
    | split

theorem execPacePoll_kept (d mv : Nat) (s : State) : ∃ out, execPacePoll d mv s = .next out ∧ Kept [.io, .ck] s out := by
  unfold execPacePoll
  try dsimp only
  refine ⟨_, rfl, ?_⟩
  try dsimp only
  repeat' first
    | with_reducible exact Kept.refl _
    | ((with_reducible apply Laws.State.confirmPace_kept); (case mhl => decide))
    | with_reducible apply Kept.ite
    | (fail_if_no_progress ((with_reducible apply Kept.upd); (case ho => (refine Only.of (fun p hp => ?_) rfl; cases p <;> first | rfl | (refine absurd ?_ hp; decide))); (case hi => (repeat' first | with_reducible exact IoKept.refl _ | with_reducible apply IoKept.ite | with_reducible apply IoKept.foldl | with_reducible apply IoKept.put | with_reducible apply IoKept.filter | (fail_if_no_progress with_reducible apply IoKept.upd) | intro _ | dsimp only | split)); (case ht => exact T1Kept.refl _)))
    | intro _
    | dsimp only
    | split

theorem execPaceSettleTimeout_kept (d : Nat) (s : State) : ∃ out, execPaceSettleTimeout d s = .next out ∧ Kept [.io, .ck] s out := by
  unfold execPaceSettleTimeout
  try dsimp only
  refine ⟨_, rfl, ?_⟩
  try dsimp only
  repeat' first
    | with_reducible exact Kept.refl _
    | ((with_reducible apply Laws.State.failPace_kept); (case mhl => decide))
    | with_reducible apply Kept.ite
    | (fail_if_no_progress ((with_reducible apply Kept.upd); (case ho => (refine Only.of (fun p hp => ?_) rfl; cases p <;> first | rfl | (refine absurd ?_ hp; decide))); (case hi => (repeat' first | with_reducible exact IoKept.refl _ | with_reducible apply IoKept.ite | with_reducible apply IoKept.foldl | with_reducible apply IoKept.put | with_reducible apply IoKept.filter | (fail_if_no_progress with_reducible apply IoKept.upd) | intro _ | dsimp only | split)); (case ht => exact T1Kept.refl _)))
    | intro _
    | dsimp only
    | split

theorem execAvsbusDone_kept (d : Nat) (ok : Bool) (s : State) : ∃ out, execAvsbusDone d ok s = .next out ∧ Kept [.io, .ck] s out := by
  unfold execAvsbusDone
  try dsimp only
  refine ⟨_, rfl, ?_⟩
  try dsimp only
  repeat' first
    | with_reducible exact Kept.refl _
    | ((with_reducible apply Laws.State.failPace_kept); (case mhl => decide))
    | ((with_reducible apply Laws.State.setMove_kept); (case mhl => decide))
    | with_reducible apply Kept.ite
    | (fail_if_no_progress ((with_reducible apply Kept.upd); (case ho => (refine Only.of (fun p hp => ?_) rfl; cases p <;> first | rfl | (refine absurd ?_ hp; decide))); (case hi => (repeat' first | with_reducible exact IoKept.refl _ | with_reducible apply IoKept.ite | with_reducible apply IoKept.foldl | with_reducible apply IoKept.put | with_reducible apply IoKept.filter | (fail_if_no_progress with_reducible apply IoKept.upd) | intro _ | dsimp only | split)); (case ht => exact T1Kept.refl _)))
    | intro _
    | dsimp only
    | split

theorem execGateIdleSleep_kept (g : Nat) (s : State) : ∃ out, execGateIdleSleep g s = .next out ∧ Kept [.io] s out := by
  unfold execGateIdleSleep
  try dsimp only
  refine ⟨_, rfl, ?_⟩
  try dsimp only
  repeat' first
    | with_reducible exact Kept.refl _
    | ((with_reducible apply Laws.State.put_kept); (case mhl => decide))
    | with_reducible apply Kept.ite
    | intro _
    | dsimp only
    | split

theorem execGateIdleDeep_kept (g : Nat) (s : State) : ∃ out, execGateIdleDeep g s = .next out ∧ Kept [.io] s out := by
  unfold execGateIdleDeep
  try dsimp only
  refine ⟨_, rfl, ?_⟩
  try dsimp only
  repeat' first
    | with_reducible exact Kept.refl _
    | ((with_reducible apply Laws.State.put_kept); (case mhl => decide))
    | with_reducible apply Kept.ite
    | intro _
    | dsimp only
    | split

theorem execGateWake_kept (g : Nat) (s : State) : ∃ out, execGateWake g s = .next out ∧ Kept [.io] s out := by
  unfold execGateWake
  try dsimp only
  refine ⟨_, rfl, ?_⟩
  try dsimp only
  repeat' first
    | with_reducible exact Kept.refl _
    | ((with_reducible apply Laws.State.wakeGroup_kept); (case mhl => decide))
    | with_reducible apply Kept.ite
    | intro _
    | dsimp only
    | split

theorem execGateScheduledWake_kept (g : Nat) (s : State) : ∃ out, execGateScheduledWake g s = .next out ∧ Kept [.io] s out := by
  unfold execGateScheduledWake
  try dsimp only
  refine ⟨_, rfl, ?_⟩
  try dsimp only
  repeat' first
    | with_reducible exact Kept.refl _
    | ((with_reducible apply Laws.State.wakeGroup_kept); (case mhl => decide))
    | with_reducible apply Kept.ite
    | intro _
    | dsimp only
    | split

end Sys2Proof.Laws
end

