-- ==== Sys2Proof/Laws/KeptEvents.lean ====
section
/-! SUPPORT. The frame lemma of every operation of Machine/Events.lean: which fields of the state it may change, and that it keeps the canonical
forms. -/

set_option Elab.async false
set_option linter.unusedTactic false
set_option linter.unreachableTactic false
set_option linter.unusedVariables false

namespace Sys2Proof.Laws

open Sys2Proof Sys2Proof.Machine Sys2Proof.Safety

theorem State.writeRingHead_frame (s : State) (w : RegWrite) (r : Nat) : Kept [.io] s (State.writeRingHead s w r) := by
  unfold State.writeRingHead
  try dsimp only
  repeat' first
    | with_reducible exact Kept.refl _
    | ((with_reducible apply Laws.State.fromPort_kept); (case mhl => decide))
    | ((with_reducible apply Laws.State.put_kept); (case mhl => decide))
    | with_reducible apply Kept.ite
    | intro _
    | dsimp only
    | split
theorem State.writeRingHead_kept {ml : List StateField} {mz : State} {s : State} {w : RegWrite} {r : Nat} (mhl : [.io] ⊆ ml) (mh : Kept ml mz s) : Kept ml mz (State.writeRingHead s w r) :=
  Kept.after ((State.writeRingHead_frame s w r).mono mhl) mh

theorem execRingHeadWrite_kept (w : RegWrite) (r : Nat) (s : State) : ∃ out, execRingHeadWrite w r s = .next out ∧ Kept [.io] s out := by
  unfold execRingHeadWrite
  try dsimp only
  refine ⟨_, rfl, ?_⟩
  try dsimp only
  repeat' first
    | with_reducible exact Kept.refl _
    | ((with_reducible apply Laws.State.writeRingHead_kept); (case mhl => decide))
    | with_reducible apply Kept.ite
    | intro _
    | dsimp only
    | split

theorem State.writeRingCtrl_frame (s : State) (w : RegWrite) (r : Nat) : Kept [.io] s (State.writeRingCtrl s w r) := by
  unfold State.writeRingCtrl
  try dsimp only
  repeat' first
    | with_reducible exact Kept.refl _
    | ((with_reducible apply Laws.State.fromPort_kept); (case mhl => decide))
    | ((with_reducible apply Laws.State.put_kept); (case mhl => decide))
    | with_reducible apply Kept.ite
    | (fail_if_no_progress ((with_reducible apply Kept.upd); (case ho => (refine Only.of (fun p hp => ?_) rfl; cases p <;> first | rfl | (refine absurd ?_ hp; decide))); (case hi => (repeat' first | with_reducible exact IoKept.refl _ | with_reducible apply Laws.Io.put_kept | with_reducible apply Laws.Io.setRing_kept | with_reducible apply IoKept.ite | with_reducible apply IoKept.foldl | with_reducible apply IoKept.put | with_reducible apply IoKept.filter | (fail_if_no_progress with_reducible apply IoKept.upd) | intro _ | dsimp only | split)); (case ht => exact T1Kept.refl _)))
    | intro _
    | dsimp only
    | split
theorem State.writeRingCtrl_kept {ml : List StateField} {mz : State} {s : State} {w : RegWrite} {r : Nat} (mhl : [.io] ⊆ ml) (mh : Kept ml mz s) : Kept ml mz (State.writeRingCtrl s w r) :=
  Kept.after ((State.writeRingCtrl_frame s w r).mono mhl) mh

theorem execRingCtrlWrite_kept (w : RegWrite) (r : Nat) (s : State) : ∃ out, execRingCtrlWrite w r s = .next out ∧ Kept [.io] s out := by
  unfold execRingCtrlWrite
  try dsimp only
  refine ⟨_, rfl, ?_⟩
  try dsimp only
  repeat' first
    | with_reducible exact Kept.refl _
    | ((with_reducible apply Laws.State.writeRingCtrl_kept); (case mhl => decide))
    | with_reducible apply Kept.ite
    | intro _
    | dsimp only
    | split

theorem State.writeEvMask_frame (s : State) (w : RegWrite) (k : Nat) : Kept [.io] s (State.writeEvMask s w k) := by
  unfold State.writeEvMask
  try dsimp only
  repeat' first
    | with_reducible exact Kept.refl _
    | ((with_reducible apply Laws.State.fromPort_kept); (case mhl => decide))
    | ((with_reducible apply Laws.State.setReg_kept); (case mhl => decide))
    | with_reducible apply Kept.ite
    | intro _
    | dsimp only
    | split
theorem State.writeEvMask_kept {ml : List StateField} {mz : State} {s : State} {w : RegWrite} {k : Nat} (mhl : [.io] ⊆ ml) (mh : Kept ml mz s) : Kept ml mz (State.writeEvMask s w k) :=
  Kept.after ((State.writeEvMask_frame s w k).mono mhl) mh

theorem execEvMaskWrite_kept (w : RegWrite) (k : Nat) (s : State) : ∃ out, execEvMaskWrite w k s = .next out ∧ Kept [.io] s out := by
  unfold execEvMaskWrite
  try dsimp only
  refine ⟨_, rfl, ?_⟩
  try dsimp only
  repeat' first
    | with_reducible exact Kept.refl _
    | ((with_reducible apply Laws.State.writeEvMask_kept); (case mhl => decide))
    | with_reducible apply Kept.ite
    | intro _
    | dsimp only
    | split

theorem execFlagClear_kept (w : RegWrite) (off : Nat) (s : State) : ∃ out, execFlagClear w off s = .next out ∧ Kept [.io] s out := by
  unfold execFlagClear
  try dsimp only
  refine ⟨_, rfl, ?_⟩
  try dsimp only
  repeat' first
    | with_reducible exact Kept.refl _
    | ((with_reducible apply Laws.State.fromPort_kept); (case mhl => decide))
    | ((with_reducible apply Laws.State.store_kept); (case mhl => decide))
    | with_reducible apply Kept.ite
    | (fail_if_no_progress ((with_reducible apply Kept.upd); (case ho => (refine Only.of (fun p hp => ?_) rfl; cases p <;> first | rfl | (refine absurd ?_ hp; decide))); (case hi => (repeat' first | with_reducible exact IoKept.refl _ | with_reducible apply IoKept.ite | with_reducible apply IoKept.foldl | with_reducible apply IoKept.put | with_reducible apply IoKept.filter | (fail_if_no_progress with_reducible apply IoKept.upd) | intro _ | dsimp only | split)); (case ht => exact T1Kept.refl _)))
    | intro _
    | dsimp only
    | split

theorem execRingCoalesceExpiry_kept (r : Nat) (s : State) : ∃ out, execRingCoalesceExpiry r s = .next out ∧ Kept [.io] s out := by
  unfold execRingCoalesceExpiry
  try dsimp only
  refine ⟨_, rfl, ?_⟩
  try dsimp only
  repeat' first
    | with_reducible exact Kept.refl _
    | ((with_reducible apply Laws.State.emit_kept); (case mhl => decide))
    | with_reducible apply Kept.ite
    | (fail_if_no_progress ((with_reducible apply Kept.upd); (case ho => (refine Only.of (fun p hp => ?_) rfl; cases p <;> first | rfl | (refine absurd ?_ hp; decide))); (case hi => (repeat' first | with_reducible exact IoKept.refl _ | with_reducible apply Laws.Io.emit_kept | with_reducible apply Laws.Io.setRing_kept | with_reducible apply IoKept.ite | with_reducible apply IoKept.foldl | with_reducible apply IoKept.put | with_reducible apply IoKept.filter | (fail_if_no_progress with_reducible apply IoKept.upd) | intro _ | dsimp only | split)); (case ht => exact T1Kept.refl _)))
    | intro _
    | dsimp only
    | split

theorem execI3cRead_kept (off : Nat) (s : State) : ∃ out, execI3cRead off s = .next out ∧ Kept [.io] s out := by
  unfold execI3cRead
  try dsimp only
  refine ⟨_, rfl, ?_⟩
  try dsimp only
  repeat' first
    | with_reducible exact Kept.refl _
    | ((with_reducible apply Laws.State.emit_kept); (case mhl => decide))
    | with_reducible apply Kept.ite
    | intro _
    | dsimp only
    | split

end Sys2Proof.Laws
end

