-- ==== Sys2Proof/Laws/KeptSearch.lean ====
section
/-! SUPPORT. The frame lemma of every operation of Machine/Search.lean: which fields of the state it may change, and that it keeps the canonical
forms. -/

set_option Elab.async false
set_option linter.unusedTactic false
set_option linter.unreachableTactic false
set_option linter.unusedVariables false

namespace Sys2Proof.Laws

open Sys2Proof Sys2Proof.Machine Sys2Proof.Safety

theorem State.vsCommand_kept {ml : List StateField} {mz : State} {s : State} {c : Cmd} {init : Bool} {fields : Bool} {body : Nat → State → State} (mhl : [.io, .answers] ⊆ ml) (hbody : ∀ a0 a1, Kept ml a1 (body a0 a1)) (mh : Kept ml mz s) : Kept ml mz (State.vsCommand s c init fields body) := by
  refine Kept.after ?_ mh
  unfold State.vsCommand
  try dsimp only
  repeat' first
    | with_reducible exact Kept.refl _
    | (with_reducible apply Kept.after (hbody _ _))
    | ((with_reducible apply Laws.State.complete_kept); (case mhl => first | decide | (refine sub mhl ?_; decide)))
    | ((with_reducible apply Laws.State.runHeld_kept); (case mhl => first | decide | (refine sub mhl ?_; decide)))
    | ((with_reducible apply Kept.iteL); case k => ((repeat' first | with_reducible exact Kept.refl _ | (with_reducible apply Kept.after (hbody _ _)) | ((with_reducible apply Laws.State.complete_kept); (case mhl => first | decide | (refine sub mhl ?_; decide))) | ((with_reducible apply Laws.State.runHeld_kept); (case mhl => first | decide | (refine sub mhl ?_; decide))) | with_reducible apply Kept.getD | with_reducible apply Kept.ite | (fail_if_no_progress ((with_reducible apply Kept.upd); (case ho => (refine Only.of (fun p hp => ?_) rfl; cases p <;> first | rfl | (refine absurd (mhl ?_) hp; decide))); (case hi => (repeat' first | with_reducible exact IoKept.refl _ | with_reducible apply IoKept.ite | with_reducible apply IoKept.foldl | with_reducible apply IoKept.put | with_reducible apply IoKept.filter | (fail_if_no_progress with_reducible apply IoKept.upd) | intro _ | dsimp only | split)); (case ht => exact T1Kept.refl _))) | intro _ | dsimp only | split); done))
    | ((with_reducible apply Kept.iteR); case k => ((repeat' first | with_reducible exact Kept.refl _ | (with_reducible apply Kept.after (hbody _ _)) | ((with_reducible apply Laws.State.complete_kept); (case mhl => first | decide | (refine sub mhl ?_; decide))) | ((with_reducible apply Laws.State.runHeld_kept); (case mhl => first | decide | (refine sub mhl ?_; decide))) | with_reducible apply Kept.getD | with_reducible apply Kept.ite | (fail_if_no_progress ((with_reducible apply Kept.upd); (case ho => (refine Only.of (fun p hp => ?_) rfl; cases p <;> first | rfl | (refine absurd (mhl ?_) hp; decide))); (case hi => (repeat' first | with_reducible exact IoKept.refl _ | with_reducible apply IoKept.ite | with_reducible apply IoKept.foldl | with_reducible apply IoKept.put | with_reducible apply IoKept.filter | (fail_if_no_progress with_reducible apply IoKept.upd) | intro _ | dsimp only | split)); (case ht => exact T1Kept.refl _))) | intro _ | dsimp only | split); done))
    | with_reducible apply Kept.ite
    | with_reducible apply Kept.getD
    | (fail_if_no_progress ((with_reducible apply Kept.upd); (case ho => (refine Only.of (fun p hp => ?_) rfl; cases p <;> first | rfl | (refine absurd (mhl ?_) hp; decide))); (case hi => (repeat' first | with_reducible exact IoKept.refl _ | with_reducible apply IoKept.ite | with_reducible apply IoKept.foldl | with_reducible apply IoKept.put | with_reducible apply IoKept.filter | (fail_if_no_progress with_reducible apply IoKept.upd) | intro _ | dsimp only | split)); (case ht => exact T1Kept.refl _)))
    | intro _
    | dsimp only
    | split

theorem State.vsOnRoot_kept {ml : List StateField} {mz : State} {s : State} {c : Cmd} {fields : Bool} {body : Nat → VsRoot → State → State} (mhl : [.io, .yt, .t1, .shed, .prefetch, .stalls, .units, .ops, .mirrors, .redirects, .cp, .cpSlots, .contexts, .answers, .tallies, .textCache, .rounds, .svChanged, .net] ⊆ ml) (hbody : ∀ a0 a1 a2, Kept ml a2 (body a0 a1 a2)) (mh : Kept ml mz s) : Kept ml mz (State.vsOnRoot s c fields body) := by
  refine Kept.after ?_ mh
  unfold State.vsOnRoot
  try dsimp only
  repeat' first
    | with_reducible exact Kept.refl _
    | (with_reducible apply Kept.after (hbody _ _ _))
    | ((with_reducible apply Laws.State.afterRead_kept); (case mhl => first | decide | (refine sub mhl ?_; decide)))
    | ((with_reducible apply Laws.State.checkPoison_kept); (case mhl => first | decide | (refine sub mhl ?_; decide)))
    | ((with_reducible apply Laws.State.complete_kept); (case mhl => first | decide | (refine sub mhl ?_; decide)))
    | ((with_reducible apply Laws.State.vsCommand_kept); (case mhl => first | decide | (refine sub mhl ?_; decide)))
    | with_reducible apply Kept.ite
    | (fail_if_no_progress ((with_reducible apply Kept.upd); (case ho => (refine Only.of (fun p hp => ?_) rfl; cases p <;> first | rfl | (refine absurd (mhl ?_) hp; decide))); (case hi => (repeat' first | with_reducible exact IoKept.refl _ | with_reducible apply IoKept.ite | with_reducible apply IoKept.foldl | with_reducible apply IoKept.put | with_reducible apply IoKept.filter | (fail_if_no_progress with_reducible apply IoKept.upd) | intro _ | dsimp only | split)); (case ht => (repeat' first | with_reducible exact T1Kept.refl _ | with_reducible apply T1Kept.ite | with_reducible apply T1Kept.foldl | with_reducible apply T1Kept.put | with_reducible apply T1Kept.filter | (fail_if_no_progress with_reducible apply T1Kept.upd) | intro _ | dsimp only | split))))
    | intro _
    | dsimp only
    | split

theorem State.vsArea_frame (s : State) (i h n : Nat) {v0 : Nat} {v1 : State} (me : State.vsArea s i h n = some (v0, v1)) : Kept [.t1] s v1 := by
  unfold State.vsArea at me
  try dsimp only at me
  repeat' first
    | contradiction
    | (cases me; done)
    | cases me
    | (rw [Option.map_eq_some_iff] at me; obtain ⟨_, _, me⟩ := me; cases me)
    | (rw [Option.bind_eq_some_iff] at me; obtain ⟨_, _, me⟩ := me)
    | split at me
  all_goals
    repeat' first
      | with_reducible exact Kept.refl _
      | ((with_reducible apply Laws.State.allocWide_kept ?mhl (by assumption)); (case mhl => decide))
      | with_reducible apply Kept.ite
      | intro _
      | dsimp only
      | split
theorem State.vsArea_kept {ml : List StateField} {mz : State} {s : State} {i h n : Nat} {v0 : Nat} {v1 : State} (mhl : [.t1] ⊆ ml) (me : State.vsArea s i h n = some (v0, v1)) (mh : Kept ml mz s) : Kept ml mz v1 :=
  Kept.after ((State.vsArea_frame s i h n me).mono mhl) mh

theorem State.vsShardAreas_frame (s : State) (i h cap sideCap code degree : Nat) {v0 : VsShard} {v1 : State} (me : State.vsShardAreas s i h cap sideCap code degree = some (v0, v1)) : Kept [.t1] s v1 := by
  unfold State.vsShardAreas at me
  try dsimp only at me
  repeat' first
    | contradiction
    | (cases me; done)
    | cases me
    | (rw [Option.map_eq_some_iff] at me; obtain ⟨_, _, me⟩ := me; cases me)
    | (rw [Option.bind_eq_some_iff] at me; obtain ⟨_, _, me⟩ := me)
    | split at me
  all_goals
    repeat' first
      | with_reducible exact Kept.refl _
      | ((with_reducible apply Laws.State.vsArea_kept ?mhl (by assumption)); (case mhl => decide))
      | with_reducible apply Kept.ite
      | intro _
      | dsimp only
      | split
theorem State.vsShardAreas_kept {ml : List StateField} {mz : State} {s : State} {i h cap sideCap code degree : Nat} {v0 : VsShard} {v1 : State} (mhl : [.t1] ⊆ ml) (me : State.vsShardAreas s i h cap sideCap code degree = some (v0, v1)) (mh : Kept ml mz s) : Kept ml mz v1 :=
  Kept.after ((State.vsShardAreas_frame s i h cap sideCap code degree me).mono mhl) mh

theorem State.vsShards_frame (s : State) (i cap sideCap code degree : Nat) (l : List Nat) {v0 : List VsShard} {v1 : State} (me : State.vsShards s i cap sideCap code degree l = some (v0, v1)) : Kept [.t1] s v1 := by
  induction l generalizing s v0 v1 with
  | nil => cases me; exact Kept.refl _
  | cons h hs ih =>
    unfold State.vsShards at me
    rw [Option.bind_eq_some_iff] at me
    obtain ⟨a, ha, me⟩ := me
    rw [Option.map_eq_some_iff] at me
    obtain ⟨q, hq, me⟩ := me
    cases me
    exact (ih _ hq).after (State.vsShardAreas_kept (by decide) ha (Kept.refl _))
theorem State.vsShards_kept {ml : List StateField} {mz : State} {s : State} {i cap sideCap code degree : Nat} {x0 : List Nat} {v0 : List VsShard} {v1 : State} (mhl : [.t1] ⊆ ml) (me : State.vsShards s i cap sideCap code degree x0 = some (v0, v1)) (mh : Kept ml mz s) : Kept ml mz v1 :=
  Kept.after ((State.vsShards_frame s i cap sideCap code degree x0 me).mono mhl) mh

theorem State.storePart_frame (s : State) (t : Nat) (h : VsShard) (p : VsPart) : Kept [.t1] s (State.storePart s t h p) := by
  unfold State.storePart
  try dsimp only
  repeat' first
    | with_reducible exact Kept.refl _
    | ((with_reducible apply Laws.State.writeT1_kept); (case mhl => decide))
    | with_reducible apply Kept.ite
    | with_reducible apply Kept.getD
    | intro _
    | dsimp only
    | split
theorem State.storePart_kept {ml : List StateField} {mz : State} {s : State} {t : Nat} {h : VsShard} {p : VsPart} (mhl : [.t1] ⊆ ml) (mh : Kept ml mz s) : Kept ml mz (State.storePart s t h p) :=
  Kept.after ((State.storePart_frame s t h p).mono mhl) mh

theorem State.vsInit_frame (s : State) (c : Cmd) : Kept [.io, .t1, .stalls, .answers] s (State.vsInit s c) := by
  unfold State.vsInit
  apply State.vsCommand_kept (by decide) _ (Kept.refl _)
  intro i t
  refine Kept.ite (Kept.refl _) ?_
  dsimp only
  split
  · exact State.complete_kept (by decide) (Kept.ite (State.stallEvent_kept (by decide) (Kept.refl _)) (Kept.refl _))
  refine Kept.ite (State.complete_kept (by decide) (Kept.refl _)) ?_
  split
  · exact State.complete_kept (by decide) (Kept.refl _)
  · next hp =>
    rw [Option.bind_eq_some_iff] at hp
    obtain ⟨a, ha, hp⟩ := hp
    rw [Option.map_eq_some_iff] at hp
    obtain ⟨q, hq, hp⟩ := hp
    cases hp
    apply State.complete_kept (by decide)
    apply State.setVsRoot_kept (by decide)
    apply State.setStall_kept (by decide)
    refine Kept.foldl (State.vsShards_kept (by decide) hq (State.vsArea_kept (by decide) ha (Kept.refl _))) ?_
    intro u e
    exact State.storePart_kept (by decide) (Kept.refl _)
theorem State.vsInit_kept {ml : List StateField} {mz : State} {s : State} {c : Cmd} (mhl : [.io, .t1, .stalls, .answers] ⊆ ml) (mh : Kept ml mz s) : Kept ml mz (State.vsInit s c) :=
  Kept.after ((State.vsInit_frame s c).mono mhl) mh

theorem execVsInit_kept (c : Cmd) (s : State) : ∃ out, execVsInit c s = .next out ∧ Kept [.io, .t1, .stalls, .answers] s out := by
  unfold execVsInit
  try dsimp only
  refine ⟨_, rfl, ?_⟩
  try dsimp only
  repeat' first
    | with_reducible exact Kept.refl _
    | ((with_reducible apply Laws.State.vsInit_kept); (case mhl => decide))
    | with_reducible apply Kept.ite
    | intro _
    | dsimp only
    | split

theorem State.vsInsert_frame (s : State) (c : Cmd) : Kept [.io, .yt, .t1, .shed, .prefetch, .stalls, .units, .ops, .mirrors, .redirects, .cp, .cpSlots, .contexts, .answers, .tallies, .textCache, .rounds, .svChanged, .net] s (State.vsInsert s c) := by
  unfold State.vsInsert
  try dsimp only
  repeat' first
    | with_reducible exact Kept.refl _
    | ((with_reducible apply Laws.State.autoMerge_kept); (case mhl => decide))
    | ((with_reducible apply Laws.State.checkPoison_kept); (case mhl => decide))
    | ((with_reducible apply Laws.State.complete_kept); (case mhl => decide))
    | ((with_reducible apply Laws.State.readInFault_kept); (case mhl => decide))
    | ((with_reducible apply Laws.State.readNoted_kept); (case mhl => decide))
    | ((with_reducible apply Laws.State.setVsRoot_kept); (case mhl => decide))
    | ((with_reducible apply Laws.State.stallEvent_kept); (case mhl => decide))
    | ((with_reducible apply Laws.State.vsOnRoot_kept); (case mhl => decide))
    | ((with_reducible apply Laws.State.writeT1_kept); (case mhl => decide))
    | ((with_reducible apply Kept.iteL); case k => ((repeat' first | with_reducible exact Kept.refl _ | ((with_reducible apply Laws.State.autoMerge_kept); (case mhl => decide)) | ((with_reducible apply Laws.State.checkPoison_kept); (case mhl => decide)) | ((with_reducible apply Laws.State.complete_kept); (case mhl => decide)) | ((with_reducible apply Laws.State.readInFault_kept); (case mhl => decide)) | ((with_reducible apply Laws.State.readNoted_kept); (case mhl => decide)) | ((with_reducible apply Laws.State.setVsRoot_kept); (case mhl => decide)) | ((with_reducible apply Laws.State.stallEvent_kept); (case mhl => decide)) | ((with_reducible apply Laws.State.vsOnRoot_kept); (case mhl => decide)) | ((with_reducible apply Laws.State.writeT1_kept); (case mhl => decide)) | with_reducible apply Kept.ite | (fail_if_no_progress ((with_reducible apply Kept.upd); (case ho => (refine Only.of (fun p hp => ?_) rfl; cases p <;> first | rfl | (refine absurd ?_ hp; decide))); (case hi => (repeat' first | with_reducible exact IoKept.refl _ | with_reducible apply IoKept.ite | with_reducible apply IoKept.foldl | with_reducible apply IoKept.put | with_reducible apply IoKept.filter | (fail_if_no_progress with_reducible apply IoKept.upd) | intro _ | dsimp only | split)); (case ht => (repeat' first | with_reducible exact T1Kept.refl _ | with_reducible apply T1Kept.ite | with_reducible apply T1Kept.foldl | with_reducible apply T1Kept.put | with_reducible apply T1Kept.filter | (fail_if_no_progress with_reducible apply T1Kept.upd) | intro _ | dsimp only | split)))) | intro _ | dsimp only | split); done))
    | ((with_reducible apply Kept.iteR); case k => ((repeat' first | with_reducible exact Kept.refl _ | ((with_reducible apply Laws.State.autoMerge_kept); (case mhl => decide)) | ((with_reducible apply Laws.State.checkPoison_kept); (case mhl => decide)) | ((with_reducible apply Laws.State.complete_kept); (case mhl => decide)) | ((with_reducible apply Laws.State.readInFault_kept); (case mhl => decide)) | ((with_reducible apply Laws.State.readNoted_kept); (case mhl => decide)) | ((with_reducible apply Laws.State.setVsRoot_kept); (case mhl => decide)) | ((with_reducible apply Laws.State.stallEvent_kept); (case mhl => decide)) | ((with_reducible apply Laws.State.vsOnRoot_kept); (case mhl => decide)) | ((with_reducible apply Laws.State.writeT1_kept); (case mhl => decide)) | with_reducible apply Kept.ite | (fail_if_no_progress ((with_reducible apply Kept.upd); (case ho => (refine Only.of (fun p hp => ?_) rfl; cases p <;> first | rfl | (refine absurd ?_ hp; decide))); (case hi => (repeat' first | with_reducible exact IoKept.refl _ | with_reducible apply IoKept.ite | with_reducible apply IoKept.foldl | with_reducible apply IoKept.put | with_reducible apply IoKept.filter | (fail_if_no_progress with_reducible apply IoKept.upd) | intro _ | dsimp only | split)); (case ht => (repeat' first | with_reducible exact T1Kept.refl _ | with_reducible apply T1Kept.ite | with_reducible apply T1Kept.foldl | with_reducible apply T1Kept.put | with_reducible apply T1Kept.filter | (fail_if_no_progress with_reducible apply T1Kept.upd) | intro _ | dsimp only | split)))) | intro _ | dsimp only | split); done))
    | with_reducible apply Kept.ite
    | (fail_if_no_progress ((with_reducible apply Kept.upd); (case ho => (refine Only.of (fun p hp => ?_) rfl; cases p <;> first | rfl | (refine absurd ?_ hp; decide))); (case hi => (repeat' first | with_reducible exact IoKept.refl _ | with_reducible apply IoKept.ite | with_reducible apply IoKept.foldl | with_reducible apply IoKept.put | with_reducible apply IoKept.filter | (fail_if_no_progress with_reducible apply IoKept.upd) | intro _ | dsimp only | split)); (case ht => (repeat' first | with_reducible exact T1Kept.refl _ | with_reducible apply T1Kept.ite | with_reducible apply T1Kept.foldl | with_reducible apply T1Kept.put | with_reducible apply T1Kept.filter | (fail_if_no_progress with_reducible apply T1Kept.upd) | intro _ | dsimp only | split))))
    | intro _
    | dsimp only
    | split
theorem State.vsInsert_kept {ml : List StateField} {mz : State} {s : State} {c : Cmd} (mhl : [.io, .yt, .t1, .shed, .prefetch, .stalls, .units, .ops, .mirrors, .redirects, .cp, .cpSlots, .contexts, .answers, .tallies, .textCache, .rounds, .svChanged, .net] ⊆ ml) (mh : Kept ml mz s) : Kept ml mz (State.vsInsert s c) :=
  Kept.after ((State.vsInsert_frame s c).mono mhl) mh

theorem execVsInsert_kept (c : Cmd) (s : State) : ∃ out, execVsInsert c s = .next out ∧ Kept [.io, .yt, .t1, .shed, .prefetch, .stalls, .units, .ops, .mirrors, .redirects, .cp, .cpSlots, .contexts, .answers, .tallies, .textCache, .rounds, .svChanged, .net] s out := by
  unfold execVsInsert
  try dsimp only
  refine ⟨_, rfl, ?_⟩
  try dsimp only
  repeat' first
    | with_reducible exact Kept.refl _
    | ((with_reducible apply Laws.State.vsInsert_kept); (case mhl => decide))
    | with_reducible apply Kept.ite
    | intro _
    | dsimp only
    | split

theorem State.readMetas_frame (s : State) (t : Nat) (r : VsRoot) (ids : List Nat) : Kept [.io, .yt, .t1, .shed, .prefetch, .stalls, .units, .ops, .mirrors, .redirects, .cp, .cpSlots, .contexts, .answers, .tallies, .textCache, .rounds, .svChanged, .net] s (State.readMetas s t r ids) := by
  unfold State.readMetas
  try dsimp only
  repeat' first
    | with_reducible exact Kept.refl _
    | ((with_reducible apply Laws.State.afterRead_kept); (case mhl => decide))
    | ((with_reducible apply Laws.State.checkPoison_kept); (case mhl => decide))
    | with_reducible apply Kept.ite
    | with_reducible apply Kept.foldl
    | with_reducible apply Kept.foldlFst
    | with_reducible apply Kept.foldlSnd
    | intro _
    | dsimp only
    | split
theorem State.readMetas_kept {ml : List StateField} {mz : State} {s : State} {t : Nat} {r : VsRoot} {ids : List Nat} (mhl : [.io, .yt, .t1, .shed, .prefetch, .stalls, .units, .ops, .mirrors, .redirects, .cp, .cpSlots, .contexts, .answers, .tallies, .textCache, .rounds, .svChanged, .net] ⊆ ml) (mh : Kept ml mz s) : Kept ml mz (State.readMetas s t r ids) :=
  Kept.after ((State.readMetas_frame s t r ids).mono mhl) mh

theorem State.vsDeleteOne_frame (s : State) (t : Nat) (r : VsRoot) (gen id : Nat) : Kept [.t1] s (State.vsDeleteOne s t r gen id).1 := by
  unfold State.vsDeleteOne
  try dsimp only
  repeat' first
    | with_reducible exact Kept.refl _
    | ((with_reducible apply Laws.State.writeT1_kept); (case mhl => decide))
    | with_reducible apply Kept.ite
    | (fail_if_no_progress ((with_reducible apply Kept.upd); (case ho => (refine Only.of (fun p hp => ?_) rfl; cases p <;> first | rfl | (refine absurd ?_ hp; decide))); (case hi => exact IoKept.refl _); (case ht => (repeat' first | with_reducible exact T1Kept.refl _ | with_reducible apply T1Kept.ite | with_reducible apply T1Kept.foldl | with_reducible apply T1Kept.put | with_reducible apply T1Kept.filter | (fail_if_no_progress with_reducible apply T1Kept.upd) | intro _ | dsimp only | split))))
    | intro _
    | dsimp only
    | split
theorem State.vsDeleteOne_kept {ml : List StateField} {mz : State} {s : State} {t : Nat} {r : VsRoot} {gen id : Nat} (mhl : [.t1] ⊆ ml) (mh : Kept ml mz s) : Kept ml mz (State.vsDeleteOne s t r gen id).1 :=
  Kept.after ((State.vsDeleteOne_frame s t r gen id).mono mhl) mh
theorem State.vsDeleteOne_kept' {ml : List StateField} {mz : State} {s : State} {t : Nat} {r : VsRoot} {gen id : Nat} {v0 : State} {v1 : Bool} (mhl : [.t1] ⊆ ml) (me : State.vsDeleteOne s t r gen id = (v0, v1)) (mh : Kept ml mz s) : Kept ml mz v0 := by
  have mk := Kept.after ((State.vsDeleteOne_frame s t r gen id).mono mhl) mh
  rw [me] at mk
  exact mk

theorem State.vsDelete_frame (s : State) (c : Cmd) : Kept [.io, .yt, .t1, .shed, .prefetch, .stalls, .units, .ops, .mirrors, .redirects, .cp, .cpSlots, .contexts, .answers, .tallies, .textCache, .rounds, .svChanged, .net] s (State.vsDelete s c) := by
  unfold State.vsDelete
  try dsimp only
  repeat' first
    | with_reducible exact Kept.refl _
    | ((with_reducible apply Laws.State.checkPoison_kept); (case mhl => decide))
    | ((with_reducible apply Laws.State.complete_kept); (case mhl => decide))
    | ((with_reducible apply Laws.State.readInFault_kept); (case mhl => decide))
    | ((with_reducible apply Laws.State.readMetas_kept); (case mhl => decide))
    | ((with_reducible apply Laws.State.readNoted_kept); (case mhl => decide))
    | ((with_reducible apply Laws.State.setVsRoot_kept); (case mhl => decide))
    | ((with_reducible apply Laws.State.vsDeleteOne_kept' ?mhl (by assumption)); (case mhl => decide))
    | ((with_reducible apply Laws.State.vsDeleteOne_kept); (case mhl => decide))
    | ((with_reducible apply Laws.State.vsOnRoot_kept); (case mhl => decide))
    | with_reducible apply Kept.ite
    | with_reducible apply Kept.foldl
    | with_reducible apply Kept.foldlFst
    | with_reducible apply Kept.foldlSnd
    | (fail_if_no_progress ((with_reducible apply Kept.upd); (case ho => (refine Only.of (fun p hp => ?_) rfl; cases p <;> first | rfl | (refine absurd ?_ hp; decide))); (case hi => (repeat' first | with_reducible exact IoKept.refl _ | with_reducible apply IoKept.ite | with_reducible apply IoKept.foldl | with_reducible apply IoKept.put | with_reducible apply IoKept.filter | (fail_if_no_progress with_reducible apply IoKept.upd) | intro _ | dsimp only | split)); (case ht => (repeat' first | with_reducible exact T1Kept.refl _ | with_reducible apply T1Kept.ite | with_reducible apply T1Kept.foldl | with_reducible apply T1Kept.put | with_reducible apply T1Kept.filter | (fail_if_no_progress with_reducible apply T1Kept.upd) | intro _ | dsimp only | split))))
    | intro _
    | dsimp only
    | split
theorem State.vsDelete_kept {ml : List StateField} {mz : State} {s : State} {c : Cmd} (mhl : [.io, .yt, .t1, .shed, .prefetch, .stalls, .units, .ops, .mirrors, .redirects, .cp, .cpSlots, .contexts, .answers, .tallies, .textCache, .rounds, .svChanged, .net] ⊆ ml) (mh : Kept ml mz s) : Kept ml mz (State.vsDelete s c) :=
  Kept.after ((State.vsDelete_frame s c).mono mhl) mh

theorem execVsDelete_kept (c : Cmd) (s : State) : ∃ out, execVsDelete c s = .next out ∧ Kept [.io, .yt, .t1, .shed, .prefetch, .stalls, .units, .ops, .mirrors, .redirects, .cp, .cpSlots, .contexts, .answers, .tallies, .textCache, .rounds, .svChanged, .net] s out := by
  unfold execVsDelete
  try dsimp only
  refine ⟨_, rfl, ?_⟩
  try dsimp only
  repeat' first
    | with_reducible exact Kept.refl _
    | ((with_reducible apply Laws.State.vsDelete_kept); (case mhl => decide))
    | with_reducible apply Kept.ite
    | intro _
    | dsimp only
    | split

theorem VsRun.miss_frame (a : VsRun) (q : VsAsk) (id st : Nat) : Kept [.io, .yt, .t1, .shed, .prefetch, .stalls, .units, .ops, .mirrors, .redirects, .cp, .cpSlots, .contexts, .answers, .tallies, .textCache, .rounds, .svChanged, .emptyRaised, .net] a.s (a.miss q id st).s :=
  State.stallEvent_kept (by decide) (State.bump_kept (by decide) (Kept.refl _))
theorem VsRun.strain_frame (a : VsRun) (q : VsAsk) (k n : Nat) : Kept [.io, .yt, .t1, .shed, .prefetch, .stalls, .units, .ops, .mirrors, .redirects, .cp, .cpSlots, .contexts, .answers, .tallies, .textCache, .rounds, .svChanged, .emptyRaised, .net] a.s (a.strain q k n).1.s := by
  have h : ∀ x y z, Kept [.io, .yt, .t1, .shed, .prefetch, .stalls, .units, .ops, .mirrors, .redirects, .cp, .cpSlots, .contexts, .answers, .tallies, .textCache, .rounds, .svChanged, .emptyRaised, .net] a.s ((((a.s.afterRead q.t x y).afterRead q.t z 32)).checkPoison) := fun x y z =>
    State.checkPoison_kept (by decide) (State.afterRead_kept (by decide) (State.afterRead_kept (by decide) (Kept.refl _)))
  unfold VsRun.strain
  dsimp only
  split
  · exact (VsRun.miss_frame _ _ _ _).after (h _ _ _)
  · exact (VsRun.miss_frame _ _ _ _).after (h _ _ _)
  · exact h _ _ _
theorem VsRun.strainTo_frame {a b : VsRun} {q : VsAsk} {k n : Nat} {d : Option Nat} (he : a.strain q k n = (b, d)) : Kept [.io, .yt, .t1, .shed, .prefetch, .stalls, .units, .ops, .mirrors, .redirects, .cp, .cpSlots, .contexts, .answers, .tallies, .textCache, .rounds, .svChanged, .emptyRaised, .net] a.s b.s := by
  have := VsRun.strain_frame a q k n
  rw [he] at this
  exact this
theorem VsRun.scan_frame (a : VsRun) (q : VsAsk) (k : Nat) (l : List Nat) : Kept [.io, .yt, .t1, .shed, .prefetch, .stalls, .units, .ops, .mirrors, .redirects, .cp, .cpSlots, .contexts, .answers, .tallies, .textCache, .rounds, .svChanged, .emptyRaised, .net] a.s (a.scan q k l).s := by
  unfold VsRun.scan
  induction l generalizing a with
  | nil => exact Kept.refl _
  | cons n t ih => exact (ih _).after (VsRun.strain_frame a q k n)
theorem VsRun.spread_frame (q : VsAsk) (k : Nat) (l : List Nat) (a : VsRun) (beam : List (VsCand × Bool)) (visited : List Nat) :
    Kept [.io, .yt, .t1, .shed, .prefetch, .stalls, .units, .ops, .mirrors, .redirects, .cp, .cpSlots, .contexts, .answers, .tallies, .textCache, .rounds, .svChanged, .emptyRaised, .net] a.s (VsRun.spread q k l a beam visited).1.s := by
  induction l generalizing a beam visited with
  | nil => exact Kept.refl _
  | cons n l ih =>
    unfold VsRun.spread
    split
    · exact ih _ _ _
    split
    · exact State.stallEvent_kept (by decide) (Kept.refl _)
    split
    · next he => exact (ih _ _ _).after (VsRun.strainTo_frame he)
    · next he => exact (ih _ _ _).after (VsRun.strainTo_frame he)
theorem VsRun.walk_frame (q : VsAsk) (k fuel : Nat) (a : VsRun) (beam : List (VsCand × Bool)) (visited : List Nat) :
    Kept [.io, .yt, .t1, .shed, .prefetch, .stalls, .units, .ops, .mirrors, .redirects, .cp, .cpSlots, .contexts, .answers, .tallies, .textCache, .rounds, .svChanged, .emptyRaised, .net] a.s (VsRun.walk q k fuel a beam visited).s := by
  induction fuel generalizing a beam visited with
  | zero => exact Kept.refl _
  | succ n ih =>
    unfold VsRun.walk
    split
    · exact Kept.refl _
    dsimp only
    split
    · exact ih _ _ _
    · split
      · exact VsRun.spread_frame _ _ _ _ _ _
      · exact (ih _ _ _).after (VsRun.spread_frame _ _ _ _ _ _)
theorem VsRun.start_frame (q : VsAsk) (k : Nat) (l : List Nat) (x : VsRun × List (VsCand × Bool)) :
    Kept [.io, .yt, .t1, .shed, .prefetch, .stalls, .units, .ops, .mirrors, .redirects, .cp, .cpSlots, .contexts, .answers, .tallies, .textCache, .rounds, .svChanged, .emptyRaised, .net] x.1.s (l.foldl (fun (p : VsRun × List (VsCand × Bool)) n =>
        match p.1.strain q k n with
        | (b, none) => (b, p.2)
        | (b, some d) =>
          let place := p.2.takeWhile (fun e => vsBefore e.1 (d, n))
          (b, (place ++ ((d, n), false) :: p.2.drop place.length).take q.ef)) x).1.s := by
  induction l generalizing x with
  | nil => exact Kept.refl _
  | cons n l ih =>
    refine (ih _).after ?_
    dsimp only
    split
    · next he => exact VsRun.strainTo_frame he
    · next he => exact VsRun.strainTo_frame he
theorem VsRun.shard_frame (a : VsRun) (q : VsAsk) (exact_ : Bool) (k : Nat) : Kept [.io, .yt, .t1, .shed, .prefetch, .stalls, .units, .ops, .mirrors, .redirects, .cp, .cpSlots, .contexts, .answers, .tallies, .textCache, .rounds, .svChanged, .emptyRaised, .net] a.s (a.shard q exact_ k).1.s := by
  unfold VsRun.shard
  dsimp only
  split
  · exact VsRun.scan_frame ⟨a.s, a.failed, a.evals, false, []⟩ q k _
  · split
    · exact Kept.refl _
    · exact Kept.refl _
    · exact (VsRun.walk_frame _ _ _ _ _ _).after ((VsRun.start_frame _ _ _ _).after (VsRun.scan_frame ⟨a.s, a.failed, a.evals, false, []⟩ q k _))
theorem VsRun.shards_frame (q : VsAsk) (exact_ : Bool) (l : List Nat) (x : VsRun × List Entry × Bool) :
    Kept [.io, .yt, .t1, .shed, .prefetch, .stalls, .units, .ops, .mirrors, .redirects, .cp, .cpSlots, .contexts, .answers, .tallies, .textCache, .rounds, .svChanged, .emptyRaised, .net] x.1.s (l.foldl (fun (p : VsRun × List Entry × Bool) j =>
        let y := p.1.shard q exact_ j
        (y.1, p.2.1 ++ y.2, p.2.2 || y.1.full)) x).1.s := by
  induction l generalizing x with
  | nil => exact Kept.refl _
  | cons n l ih => exact (ih _).after (VsRun.shard_frame x.1 q exact_ n)
theorem State.vsQuery_frame (s : State) (c : Cmd) : Kept [.io, .yt, .t1, .shed, .prefetch, .stalls, .units, .ops, .mirrors, .redirects, .cp, .cpSlots, .contexts, .answers, .tallies, .textCache, .rounds, .svChanged, .emptyRaised, .net] s (State.vsQuery s c) := by
  unfold State.vsQuery
  dsimp only
  apply State.vsOnRoot_kept (by decide) _ (Kept.refl _)
  intro i r t
  split
  · exact State.complete_kept (by decide) (State.readInFault_kept (by decide) (State.checkPoison_kept (by decide) (State.readNoted_kept (by decide) (Kept.refl _))))
  · next code hc =>
    have h0 : Kept [.io, .yt, .t1, .shed, .prefetch, .stalls, .units, .ops, .mirrors, .redirects, .cp, .cpSlots, .contexts, .answers, .tallies, .textCache, .rounds, .svChanged, .emptyRaised, .net] t (t.readNoted c c.addrA.toNat r.codeBytes).checkPoison :=
      State.checkPoison_kept (by decide) (State.readNoted_kept (by decide) (Kept.refl _))
    generalize (t.readNoted c c.addrA.toNat r.codeBytes).checkPoison = u at h0 ⊢
    have hz := VsRun.shards_frame ⟨i, t.stallTenant i, r, r.gen, code, opU32 c 32, opU32 c 36, opU32 c 40, opU32 c 44⟩ ((opByte c 48).testBit 0)
      (List.range r.shards.length) (⟨u, none, 0, false, []⟩, [], false)
    generalize List.foldl _ _ _ = z at hz ⊢
    have hs : ∀ n m b, Kept [.io, .yt, .t1, .shed, .prefetch, .stalls, .units, .ops, .mirrors, .redirects, .cp, .cpSlots, .contexts, .answers, .tallies, .textCache, .rounds, .svChanged, .emptyRaised, .net] t (((z.1.s.bump Fld.VS_QUERIES_COUNT 1).bump Fld.VS_COMPARES_COUNT n).noteMerge (some (t.stallTenant i)) m 0 b) :=
      fun n m b => State.noteMerge_kept (by decide) (State.bump_kept (by decide) (State.bump_kept (by decide) (hz.after h0)))
    split
    · exact State.complete_kept (by decide) (State.readInFault_kept (by decide) (hs _ _ _))
    · next hw => exact State.complete_kept (by decide) (State.writeOut_kept (by decide) hw (hs _ _ _))
theorem State.vsQuery_kept {ml : List StateField} {mz : State} {s : State} {c : Cmd} (mhl : [.io, .yt, .t1, .shed, .prefetch, .stalls, .units, .ops, .mirrors, .redirects, .cp, .cpSlots, .contexts, .answers, .tallies, .textCache, .rounds, .svChanged, .emptyRaised, .net] ⊆ ml) (mh : Kept ml mz s) : Kept ml mz (State.vsQuery s c) :=
  Kept.after ((State.vsQuery_frame s c).mono mhl) mh

theorem execVsQuery_kept (c : Cmd) (s : State) : ∃ out, execVsQuery c s = .next out ∧ Kept [.io, .yt, .t1, .shed, .prefetch, .stalls, .units, .ops, .mirrors, .redirects, .cp, .cpSlots, .contexts, .answers, .tallies, .textCache, .rounds, .svChanged, .emptyRaised, .net] s out := by
  unfold execVsQuery
  try dsimp only
  refine ⟨_, rfl, ?_⟩
  try dsimp only
  repeat' first
    | with_reducible exact Kept.refl _
    | ((with_reducible apply Laws.State.vsQuery_kept); (case mhl => decide))
    | with_reducible apply Kept.ite
    | intro _
    | dsimp only
    | split

theorem State.vsMerge_frame (s : State) (c : Cmd) : Kept [.io, .ops, .answers] s (State.vsMerge s c) := by
  unfold State.vsMerge
  try dsimp only
  repeat' first
    | with_reducible exact Kept.refl _
    | ((with_reducible apply Laws.State.beginOp_kept); (case mhl => decide))
    | ((with_reducible apply Laws.State.refuse_kept); (case mhl => decide))
    | ((with_reducible apply Laws.State.runHeld_kept); (case mhl => decide))
    | ((with_reducible apply Kept.iteL); case k => ((repeat' first | with_reducible exact Kept.refl _ | ((with_reducible apply Laws.State.beginOp_kept); (case mhl => decide)) | ((with_reducible apply Laws.State.refuse_kept); (case mhl => decide)) | ((with_reducible apply Laws.State.runHeld_kept); (case mhl => decide)) | with_reducible apply Kept.getD | with_reducible apply Kept.ite | (fail_if_no_progress ((with_reducible apply Kept.upd); (case ho => (refine Only.of (fun p hp => ?_) rfl; cases p <;> first | rfl | (refine absurd ?_ hp; decide))); (case hi => (repeat' first | with_reducible exact IoKept.refl _ | with_reducible apply IoKept.ite | with_reducible apply IoKept.foldl | with_reducible apply IoKept.put | with_reducible apply IoKept.filter | (fail_if_no_progress with_reducible apply IoKept.upd) | intro _ | dsimp only | split)); (case ht => exact T1Kept.refl _))) | intro _ | dsimp only | split); done))
    | ((with_reducible apply Kept.iteR); case k => ((repeat' first | with_reducible exact Kept.refl _ | ((with_reducible apply Laws.State.beginOp_kept); (case mhl => decide)) | ((with_reducible apply Laws.State.refuse_kept); (case mhl => decide)) | ((with_reducible apply Laws.State.runHeld_kept); (case mhl => decide)) | with_reducible apply Kept.getD | with_reducible apply Kept.ite | (fail_if_no_progress ((with_reducible apply Kept.upd); (case ho => (refine Only.of (fun p hp => ?_) rfl; cases p <;> first | rfl | (refine absurd ?_ hp; decide))); (case hi => (repeat' first | with_reducible exact IoKept.refl _ | with_reducible apply IoKept.ite | with_reducible apply IoKept.foldl | with_reducible apply IoKept.put | with_reducible apply IoKept.filter | (fail_if_no_progress with_reducible apply IoKept.upd) | intro _ | dsimp only | split)); (case ht => exact T1Kept.refl _))) | intro _ | dsimp only | split); done))
    | with_reducible apply Kept.ite
    | with_reducible apply Kept.getD
    | (fail_if_no_progress ((with_reducible apply Kept.upd); (case ho => (refine Only.of (fun p hp => ?_) rfl; cases p <;> first | rfl | (refine absurd ?_ hp; decide))); (case hi => (repeat' first | with_reducible exact IoKept.refl _ | with_reducible apply IoKept.ite | with_reducible apply IoKept.foldl | with_reducible apply IoKept.put | with_reducible apply IoKept.filter | (fail_if_no_progress with_reducible apply IoKept.upd) | intro _ | dsimp only | split)); (case ht => exact T1Kept.refl _)))
    | intro _
    | dsimp only
    | split
theorem State.vsMerge_kept {ml : List StateField} {mz : State} {s : State} {c : Cmd} (mhl : [.io, .ops, .answers] ⊆ ml) (mh : Kept ml mz s) : Kept ml mz (State.vsMerge s c) :=
  Kept.after ((State.vsMerge_frame s c).mono mhl) mh

theorem execVsMerge_kept (c : Cmd) (s : State) : ∃ out, execVsMerge c s = .next out ∧ Kept [.io, .ops, .answers] s out := by
  unfold execVsMerge
  try dsimp only
  refine ⟨_, rfl, ?_⟩
  try dsimp only
  repeat' first
    | with_reducible exact Kept.refl _
    | ((with_reducible apply Laws.State.vsMerge_kept); (case mhl => decide))
    | with_reducible apply Kept.ite
    | intro _
    | dsimp only
    | split

theorem execVsMergeStart_kept (slot : Nat) (s : State) : ∃ out, execVsMergeStart slot s = .next out ∧ Kept [.io, .t1, .stalls, .ops, .answers] s out := by
  unfold execVsMergeStart
  try dsimp only
  refine ⟨_, rfl, ?_⟩
  try dsimp only
  repeat' first
    | with_reducible exact Kept.refl _
    | ((with_reducible apply Laws.State.endMerge_kept); (case mhl => decide))
    | ((with_reducible apply Laws.State.endOp_kept); (case mhl => decide))
    | ((with_reducible apply Laws.State.moveOp_kept); (case mhl => decide))
    | ((with_reducible apply Laws.State.setOp_kept); (case mhl => decide))
    | with_reducible apply Kept.ite
    | with_reducible apply Kept.getD
    | (fail_if_no_progress ((with_reducible apply Kept.upd); (case ho => (refine Only.of (fun p hp => ?_) rfl; cases p <;> first | rfl | (refine absurd ?_ hp; decide))); (case hi => (repeat' first | with_reducible exact IoKept.refl _ | with_reducible apply IoKept.ite | with_reducible apply IoKept.foldl | with_reducible apply IoKept.put | with_reducible apply IoKept.filter | (fail_if_no_progress with_reducible apply IoKept.upd) | intro _ | dsimp only | split)); (case ht => (repeat' first | with_reducible exact T1Kept.refl _ | with_reducible apply T1Kept.ite | with_reducible apply T1Kept.foldl | with_reducible apply T1Kept.put | with_reducible apply T1Kept.filter | (fail_if_no_progress with_reducible apply T1Kept.upd) | intro _ | dsimp only | split))))
    | intro _
    | dsimp only
    | split

theorem State.mergeShard_frame (s : State) (t m ef k : Nat) (r : VsRoot) {v0 : VsShard} {v1 : State} (me : State.mergeShard s t m ef k r = .ok (v0, v1)) : Kept [.io, .yt, .t1, .shed, .prefetch, .stalls, .units, .ops, .mirrors, .redirects, .cp, .cpSlots, .contexts, .answers, .tallies, .textCache, .rounds, .svChanged, .emptyRaised, .net] s v1 := by
  unfold State.mergeShard at me
  try dsimp only at me
  repeat' first
    | contradiction
    | (cases me; done)
    | cases me
    | (rw [Option.map_eq_some_iff] at me; obtain ⟨_, _, me⟩ := me; cases me)
    | (rw [Option.bind_eq_some_iff] at me; obtain ⟨_, _, me⟩ := me)
    | split at me
  all_goals
    repeat' first
      | with_reducible exact Kept.refl _
      | ((with_reducible apply Laws.State.writeT1_kept); (case mhl => decide))
      | with_reducible apply Kept.ite
      | with_reducible apply Kept.foldl
      | with_reducible apply Kept.foldlFst
      | with_reducible apply Kept.foldlSnd
      | with_reducible apply Kept.getD
      | (fail_if_no_progress ((with_reducible apply Kept.upd); (case ho => (refine Only.of (fun p hp => ?_) rfl; cases p <;> first | rfl | (refine absurd ?_ hp; decide))); (case hi => (repeat' first | with_reducible exact IoKept.refl _ | with_reducible apply IoKept.ite | with_reducible apply IoKept.foldl | with_reducible apply IoKept.put | with_reducible apply IoKept.filter | (fail_if_no_progress with_reducible apply IoKept.upd) | intro _ | dsimp only | split)); (case ht => (repeat' first | with_reducible exact T1Kept.refl _ | with_reducible apply T1Kept.ite | with_reducible apply T1Kept.foldl | with_reducible apply T1Kept.put | with_reducible apply T1Kept.filter | (fail_if_no_progress with_reducible apply T1Kept.upd) | intro _ | dsimp only | split))))
      | intro _
      | dsimp only
      | split
theorem State.mergeShard_kept {ml : List StateField} {mz : State} {s : State} {t m ef k : Nat} {r : VsRoot} {v0 : VsShard} {v1 : State} (mhl : [.io, .yt, .t1, .shed, .prefetch, .stalls, .units, .ops, .mirrors, .redirects, .cp, .cpSlots, .contexts, .answers, .tallies, .textCache, .rounds, .svChanged, .emptyRaised, .net] ⊆ ml) (me : State.mergeShard s t m ef k r = .ok (v0, v1)) (mh : Kept ml mz s) : Kept ml mz v1 :=
  Kept.after ((State.mergeShard_frame s t m ef k r me).mono mhl) mh

theorem State.mergeShards_frame (s : State) (t m ef : Nat) (r : VsRoot) (l : List Nat) {v0 : List VsShard} {v1 : State} (me : State.mergeShards s t m ef r l = .ok (v0, v1)) : Kept [.io, .yt, .t1, .shed, .prefetch, .stalls, .units, .ops, .mirrors, .redirects, .cp, .cpSlots, .contexts, .answers, .tallies, .textCache, .rounds, .svChanged, .emptyRaised, .net] s v1 := by
  induction l generalizing s v0 v1 with
  | nil => cases me; exact Kept.refl _
  | cons k ks ih =>
    unfold State.mergeShards at me
    split at me
    · contradiction
    · next h s' hm =>
      generalize hq : State.mergeShards s' t m ef r ks = q at me
      cases q with
      | error e => contradiction
      | ok q =>
        cases me
        exact (ih _ hq).after (State.mergeShard_kept (by decide) hm (Kept.refl _))
theorem State.mergeShards_kept {ml : List StateField} {mz : State} {s : State} {t m ef : Nat} {r : VsRoot} {x0 : List Nat} {v0 : List VsShard} {v1 : State} (mhl : [.io, .yt, .t1, .shed, .prefetch, .stalls, .units, .ops, .mirrors, .redirects, .cp, .cpSlots, .contexts, .answers, .tallies, .textCache, .rounds, .svChanged, .emptyRaised, .net] ⊆ ml) (me : State.mergeShards s t m ef r x0 = .ok (v0, v1)) (mh : Kept ml mz s) : Kept ml mz v1 :=
  Kept.after ((State.mergeShards_frame s t m ef r x0 me).mono mhl) mh

theorem execVsMergeCommit_kept (slot : Nat) (s : State) : ∃ out, execVsMergeCommit slot s = .next out ∧ Kept [.io, .yt, .t1, .shed, .prefetch, .stalls, .units, .ops, .mirrors, .redirects, .cp, .cpSlots, .contexts, .answers, .tallies, .textCache, .rounds, .svChanged, .emptyRaised, .net] s out := by
  unfold execVsMergeCommit
  try dsimp only
  refine ⟨_, rfl, ?_⟩
  try dsimp only
  repeat' first
    | with_reducible exact Kept.refl _
    | ((with_reducible apply Laws.State.endMerge_kept); (case mhl => decide))
    | ((with_reducible apply Laws.State.endOp_kept); (case mhl => decide))
    | ((with_reducible apply Laws.State.mergeShards_kept ?mhl (by assumption)); (case mhl => decide))
    | ((with_reducible apply Laws.State.setVsRoot_kept); (case mhl => decide))
    | ((with_reducible apply Laws.State.stallEvent_kept); (case mhl => decide))
    | with_reducible apply Kept.ite
    | with_reducible apply Kept.getD
    | (fail_if_no_progress ((with_reducible apply Kept.upd); (case ho => (refine Only.of (fun p hp => ?_) rfl; cases p <;> first | rfl | (refine absurd ?_ hp; decide))); (case hi => (repeat' first | with_reducible exact IoKept.refl _ | with_reducible apply IoKept.ite | with_reducible apply IoKept.foldl | with_reducible apply IoKept.put | with_reducible apply IoKept.filter | (fail_if_no_progress with_reducible apply IoKept.upd) | intro _ | dsimp only | split)); (case ht => (repeat' first | with_reducible exact T1Kept.refl _ | with_reducible apply T1Kept.ite | with_reducible apply T1Kept.foldl | with_reducible apply T1Kept.put | with_reducible apply T1Kept.filter | (fail_if_no_progress with_reducible apply T1Kept.upd) | intro _ | dsimp only | split))))
    | intro _
    | dsimp only
    | split

theorem State.writeVsCtrl_frame (s : State) (w : RegWrite) : Kept [.io, .ops] s (State.writeVsCtrl s w) := by
  unfold State.writeVsCtrl
  try dsimp only
  repeat' first
    | with_reducible exact Kept.refl _
    | ((with_reducible apply Laws.State.autoMerges_kept); (case mhl => decide))
    | ((with_reducible apply Laws.State.enGate_kept); (case mhl => decide))
    | ((with_reducible apply Laws.State.fromPort_kept); (case mhl => decide))
    | ((with_reducible apply Laws.State.store_kept); (case mhl => decide))
    | with_reducible apply Kept.ite
    | intro _
    | dsimp only
    | split
theorem State.writeVsCtrl_kept {ml : List StateField} {mz : State} {s : State} {w : RegWrite} (mhl : [.io, .ops] ⊆ ml) (mh : Kept ml mz s) : Kept ml mz (State.writeVsCtrl s w) :=
  Kept.after ((State.writeVsCtrl_frame s w).mono mhl) mh

theorem State.writeMergeAt_frame (s : State) (w : RegWrite) : Kept [.io, .ops] s (State.writeMergeAt s w) := by
  unfold State.writeMergeAt
  try dsimp only
  repeat' first
    | with_reducible exact Kept.refl _
    | ((with_reducible apply Laws.State.autoMerges_kept); (case mhl => decide))
    | ((with_reducible apply Laws.State.fromPort_kept); (case mhl => decide))
    | ((with_reducible apply Laws.State.put_kept); (case mhl => decide))
    | ((with_reducible apply Laws.State.store_kept); (case mhl => decide))
    | with_reducible apply Kept.ite
    | intro _
    | dsimp only
    | split
theorem State.writeMergeAt_kept {ml : List StateField} {mz : State} {s : State} {w : RegWrite} (mhl : [.io, .ops] ⊆ ml) (mh : Kept ml mz s) : Kept ml mz (State.writeMergeAt s w) :=
  Kept.after ((State.writeMergeAt_frame s w).mono mhl) mh

theorem State.vsOpcode_frame (s : State) (op : Nat) (c : Cmd) : Kept [.io, .yt, .t1, .shed, .prefetch, .stalls, .units, .ops, .mirrors, .redirects, .cp, .cpSlots, .contexts, .answers, .tallies, .textCache, .rounds, .svChanged, .emptyRaised, .net] s (State.vsOpcode s op c) := by
  unfold State.vsOpcode
  try dsimp only
  repeat' first
    | with_reducible exact Kept.refl _
    | ((with_reducible apply Laws.State.vsDelete_kept); (case mhl => decide))
    | ((with_reducible apply Laws.State.vsInit_kept); (case mhl => decide))
    | ((with_reducible apply Laws.State.vsInsert_kept); (case mhl => decide))
    | ((with_reducible apply Laws.State.vsMerge_kept); (case mhl => decide))
    | ((with_reducible apply Laws.State.vsQuery_kept); (case mhl => decide))
    | with_reducible apply Kept.ite
    | (fail_if_no_progress ((with_reducible apply Kept.upd); (case ho => (refine Only.of (fun p hp => ?_) rfl; cases p <;> first | rfl | (refine absurd ?_ hp; decide))); (case hi => (repeat' first | with_reducible exact IoKept.refl _ | with_reducible apply IoKept.ite | with_reducible apply IoKept.foldl | with_reducible apply IoKept.put | with_reducible apply IoKept.filter | (fail_if_no_progress with_reducible apply IoKept.upd) | intro _ | dsimp only | split)); (case ht => (repeat' first | with_reducible exact T1Kept.refl _ | with_reducible apply T1Kept.ite | with_reducible apply T1Kept.foldl | with_reducible apply T1Kept.put | with_reducible apply T1Kept.filter | (fail_if_no_progress with_reducible apply T1Kept.upd) | intro _ | dsimp only | split))))
    | intro _
    | dsimp only
    | split
theorem State.vsOpcode_kept {ml : List StateField} {mz : State} {s : State} {op : Nat} {c : Cmd} (mhl : [.io, .yt, .t1, .shed, .prefetch, .stalls, .units, .ops, .mirrors, .redirects, .cp, .cpSlots, .contexts, .answers, .tallies, .textCache, .rounds, .svChanged, .emptyRaised, .net] ⊆ ml) (mh : Kept ml mz s) : Kept ml mz (State.vsOpcode s op c) :=
  Kept.after ((State.vsOpcode_frame s op c).mono mhl) mh

theorem execVsCmd_kept (n : Insn) (s : State) : ∃ out, execVsCmd n s = .next out ∧ Kept [.io, .yt, .t1, .shed, .prefetch, .stalls, .units, .ops, .mirrors, .redirects, .cp, .cpSlots, .contexts, .answers, .tallies, .textCache, .rounds, .svChanged, .emptyRaised, .net, .sec] s out := by
  unfold execVsCmd
  try dsimp only
  refine ⟨_, rfl, ?_⟩
  try dsimp only
  repeat' first
    | with_reducible exact Kept.refl _
    | with_reducible exact DidKept.refl _
    | with_reducible apply DidKept.done
    | with_reducible apply DidKept.hold
    | with_reducible apply DidKept.fault
    | with_reducible apply DidKept.ite
    | ((with_reducible apply Laws.State.blockRequest_kept); (case mhl => decide))
    | ((with_reducible apply Laws.State.runInsn_kept); (case mhl => decide))
    | ((with_reducible apply Laws.State.vsOpcode_kept); (case mhl => decide))
    | with_reducible apply Kept.ite
    | intro _
    | dsimp only
    | split

end Sys2Proof.Laws
end

