-- ==== Sys2Proof/Laws/KeptSecurity.lean ====
section
/-! SUPPORT. The frame lemma of every operation of Machine/Security.lean: which fields of the state it may change, and that it keeps the canonical
forms. -/

set_option Elab.async false
set_option linter.unusedTactic false
set_option linter.unreachableTactic false
set_option linter.unusedVariables false

namespace Sys2Proof.Laws

open Sys2Proof Sys2Proof.Machine Sys2Proof.Safety

theorem State.setSessions_frame (s : State) (n : Nat) (l : List SpdmSession) : Kept [.sec] s (State.setSessions s n l) := by
  unfold State.setSessions
  try dsimp only
  repeat' first
    | with_reducible exact Kept.refl _
    | ((with_reducible apply Laws.State.setSec_kept); (case mhl => decide))
    | with_reducible apply Kept.ite
    | (fail_if_no_progress ((with_reducible apply Kept.upd); (case ho => (refine Only.of (fun p hp => ?_) rfl; cases p <;> first | rfl | (refine absurd ?_ hp; decide))); (case hi => exact IoKept.refl _); (case ht => exact T1Kept.refl _)))
    | intro _
    | dsimp only
    | split
theorem State.setSessions_kept {ml : List StateField} {mz : State} {s : State} {n : Nat} {l : List SpdmSession} (mhl : [.sec] ⊆ ml) (mh : Kept ml mz s) : Kept ml mz (State.setSessions s n l) :=
  Kept.after ((State.setSessions_frame s n l).mono mhl) mh

theorem State.refreshConfOf_frame (s : State) (t n : Nat) : Kept [.io] s (State.refreshConfOf s t n) := by
  unfold State.refreshConfOf
  try dsimp only
  repeat' first
    | with_reducible exact Kept.refl _
    | ((with_reducible apply Laws.State.put_kept); (case mhl => decide))
    | ((with_reducible apply Kept.iteL); case k => ((repeat' first | with_reducible exact Kept.refl _ | ((with_reducible apply Laws.State.put_kept); (case mhl => decide)) | with_reducible apply Kept.foldl | with_reducible apply Kept.foldlFst | with_reducible apply Kept.foldlSnd | with_reducible apply Kept.ite | (fail_if_no_progress ((with_reducible apply Kept.upd); (case ho => (refine Only.of (fun p hp => ?_) rfl; cases p <;> first | rfl | (refine absurd ?_ hp; decide))); (case hi => (repeat' first | with_reducible exact IoKept.refl _ | with_reducible apply Laws.Io.put_kept | with_reducible apply Laws.Io.stopQueue_kept | with_reducible apply IoKept.ite | with_reducible apply IoKept.foldl | with_reducible apply IoKept.put | with_reducible apply IoKept.filter | (fail_if_no_progress with_reducible apply IoKept.upd) | intro _ | dsimp only | split)); (case ht => exact T1Kept.refl _))) | intro _ | dsimp only | split); done))
    | ((with_reducible apply Kept.iteR); case k => ((repeat' first | with_reducible exact Kept.refl _ | ((with_reducible apply Laws.State.put_kept); (case mhl => decide)) | with_reducible apply Kept.foldl | with_reducible apply Kept.foldlFst | with_reducible apply Kept.foldlSnd | with_reducible apply Kept.ite | (fail_if_no_progress ((with_reducible apply Kept.upd); (case ho => (refine Only.of (fun p hp => ?_) rfl; cases p <;> first | rfl | (refine absurd ?_ hp; decide))); (case hi => (repeat' first | with_reducible exact IoKept.refl _ | with_reducible apply Laws.Io.put_kept | with_reducible apply Laws.Io.stopQueue_kept | with_reducible apply IoKept.ite | with_reducible apply IoKept.foldl | with_reducible apply IoKept.put | with_reducible apply IoKept.filter | (fail_if_no_progress with_reducible apply IoKept.upd) | intro _ | dsimp only | split)); (case ht => exact T1Kept.refl _))) | intro _ | dsimp only | split); done))
    | with_reducible apply Kept.ite
    | with_reducible apply Kept.foldl
    | with_reducible apply Kept.foldlFst
    | with_reducible apply Kept.foldlSnd
    | (fail_if_no_progress ((with_reducible apply Kept.upd); (case ho => (refine Only.of (fun p hp => ?_) rfl; cases p <;> first | rfl | (refine absurd ?_ hp; decide))); (case hi => (repeat' first | with_reducible exact IoKept.refl _ | with_reducible apply Laws.Io.put_kept | with_reducible apply Laws.Io.stopQueue_kept | with_reducible apply IoKept.ite | with_reducible apply IoKept.foldl | with_reducible apply IoKept.put | with_reducible apply IoKept.filter | (fail_if_no_progress with_reducible apply IoKept.upd) | intro _ | dsimp only | split)); (case ht => exact T1Kept.refl _)))
    | intro _
    | dsimp only
    | split
theorem State.refreshConfOf_kept {ml : List StateField} {mz : State} {s : State} {t n : Nat} (mhl : [.io] ⊆ ml) (mh : Kept ml mz s) : Kept ml mz (State.refreshConfOf s t n) :=
  Kept.after ((State.refreshConfOf_frame s t n).mono mhl) mh

theorem State.refreshConf_frame (s : State) (n : Nat) : Kept [.io] s (State.refreshConf s n) := by
  unfold State.refreshConf
  try dsimp only
  repeat' first
    | with_reducible exact Kept.refl _
    | ((with_reducible apply Laws.State.refreshConfOf_kept); (case mhl => decide))
    | with_reducible apply Kept.ite
    | with_reducible apply Kept.foldl
    | with_reducible apply Kept.foldlFst
    | with_reducible apply Kept.foldlSnd
    | intro _
    | dsimp only
    | split
theorem State.refreshConf_kept {ml : List StateField} {mz : State} {s : State} {n : Nat} (mhl : [.io] ⊆ ml) (mh : Kept ml mz s) : Kept ml mz (State.refreshConf s n) :=
  Kept.after ((State.refreshConf_frame s n).mono mhl) mh

theorem State.moveTdi_frame (s : State) (n tdi : Nat) : Kept [.io] s (State.moveTdi s n tdi) := by
  unfold State.moveTdi
  try dsimp only
  repeat' first
    | with_reducible exact Kept.refl _
    | ((with_reducible apply Laws.State.put_kept); (case mhl => decide))
    | ((with_reducible apply Laws.State.refreshConf_kept); (case mhl => decide))
    | with_reducible apply Kept.ite
    | intro _
    | dsimp only
    | split
theorem State.moveTdi_kept {ml : List StateField} {mz : State} {s : State} {n tdi : Nat} (mhl : [.io] ⊆ ml) (mh : Kept ml mz s) : Kept ml mz (State.moveTdi s n tdi) :=
  Kept.after ((State.moveTdi_frame s n tdi).mono mhl) mh

theorem execTdispLockInterface_kept (n : Nat) (s : State) : ∃ out, execTdispLockInterface n s = .next out ∧ Kept [.io] s out := by
  unfold execTdispLockInterface
  try dsimp only
  refine ⟨_, rfl, ?_⟩
  try dsimp only
  repeat' first
    | with_reducible exact Kept.refl _
    | ((with_reducible apply Laws.State.moveTdi_kept); (case mhl => decide))
    | with_reducible apply Kept.ite
    | intro _
    | dsimp only
    | split

theorem execTdispStartInterface_kept (n : Nat) (s : State) : ∃ out, execTdispStartInterface n s = .next out ∧ Kept [.io] s out := by
  unfold execTdispStartInterface
  try dsimp only
  refine ⟨_, rfl, ?_⟩
  try dsimp only
  repeat' first
    | with_reducible exact Kept.refl _
    | ((with_reducible apply Laws.State.moveTdi_kept); (case mhl => decide))
    | with_reducible apply Kept.ite
    | intro _
    | dsimp only
    | split

theorem execTdispStopInterface_kept (n : Nat) (s : State) : ∃ out, execTdispStopInterface n s = .next out ∧ Kept [.io] s out := by
  unfold execTdispStopInterface
  try dsimp only
  refine ⟨_, rfl, ?_⟩
  try dsimp only
  repeat' first
    | with_reducible exact Kept.refl _
    | ((with_reducible apply Laws.State.moveTdi_kept); (case mhl => decide))
    | with_reducible apply Kept.ite
    | intro _
    | dsimp only
    | split

theorem State.spdmAnswer_frame (s : State) (r : SpdmReq) (a : SpdmReply) : Kept [.io] s (State.spdmAnswer s r a) := by
  unfold State.spdmAnswer
  try dsimp only
  repeat' first
    | with_reducible exact Kept.refl _
    | ((with_reducible apply Laws.State.emit_kept); (case mhl => decide))
    | with_reducible apply Kept.ite
    | intro _
    | dsimp only
    | split
theorem State.spdmAnswer_kept {ml : List StateField} {mz : State} {s : State} {r : SpdmReq} {a : SpdmReply} (mhl : [.io] ⊆ ml) (mh : Kept ml mz s) : Kept ml mz (State.spdmAnswer s r a) :=
  Kept.after ((State.spdmAnswer_frame s r a).mono mhl) mh

theorem State.spdmSign_frame (s : State) : Kept [.freeIdx] s (State.spdmSign s).2 := by
  unfold State.spdmSign
  try dsimp only
  repeat' first
    | with_reducible exact Kept.refl _
    | ((with_reducible apply Laws.State.drawFree_kept' ?mhl (by assumption)); (case mhl => decide))
    | ((with_reducible apply Laws.State.drawFree_kept); (case mhl => decide))
    | with_reducible apply Kept.ite
    | intro _
    | dsimp only
    | split
theorem State.spdmSign_kept {ml : List StateField} {mz : State} {s : State} (mhl : [.freeIdx] ⊆ ml) (mh : Kept ml mz s) : Kept ml mz (State.spdmSign s).2 :=
  Kept.after ((State.spdmSign_frame s).mono mhl) mh
theorem State.spdmSign_kept' {ml : List StateField} {mz : State} {s : State} {v0 : List Byte} {v1 : State} (mhl : [.freeIdx] ⊆ ml) (me : State.spdmSign s = (v0, v1)) (mh : Kept ml mz s) : Kept ml mz v1 := by
  have mk := Kept.after ((State.spdmSign_frame s).mono mhl) mh
  rw [me] at mk
  exact mk

theorem State.spdm_frame (s : State) (r : SpdmReq) : Kept [.io, .sec, .freeIdx] s (State.spdm s r) := by
  unfold State.spdm
  try dsimp only
  repeat' first
    | with_reducible exact Kept.refl _
    | ((with_reducible apply Laws.State.put_kept); (case mhl => decide))
    | ((with_reducible apply Laws.State.refreshConf_kept); (case mhl => decide))
    | ((with_reducible apply Laws.State.setSessions_kept); (case mhl => decide))
    | ((with_reducible apply Laws.State.spdmAnswer_kept); (case mhl => decide))
    | ((with_reducible apply Laws.State.spdmSign_kept' ?mhl (by assumption)); (case mhl => decide))
    | ((with_reducible apply Laws.State.spdmSign_kept); (case mhl => decide))
    | ((with_reducible apply Kept.iteL); case k => ((repeat' first | with_reducible exact Kept.refl _ | ((with_reducible apply Laws.State.put_kept); (case mhl => decide)) | ((with_reducible apply Laws.State.refreshConf_kept); (case mhl => decide)) | ((with_reducible apply Laws.State.setSessions_kept); (case mhl => decide)) | ((with_reducible apply Laws.State.spdmAnswer_kept); (case mhl => decide)) | ((with_reducible apply Laws.State.spdmSign_kept' ?mhl (by assumption)); (case mhl => decide)) | ((with_reducible apply Laws.State.spdmSign_kept); (case mhl => decide)) | with_reducible apply Kept.getD | with_reducible apply Kept.ite | (fail_if_no_progress ((with_reducible apply Kept.upd); (case ho => (refine Only.of (fun p hp => ?_) rfl; cases p <;> first | rfl | (refine absurd ?_ hp; decide))); (case hi => (repeat' first | with_reducible exact IoKept.refl _ | with_reducible apply Laws.Io.put_kept | with_reducible apply IoKept.ite | with_reducible apply IoKept.foldl | with_reducible apply IoKept.put | with_reducible apply IoKept.filter | (fail_if_no_progress with_reducible apply IoKept.upd) | intro _ | dsimp only | split)); (case ht => exact T1Kept.refl _))) | intro _ | dsimp only | split); done))
    | ((with_reducible apply Kept.iteR); case k => ((repeat' first | with_reducible exact Kept.refl _ | ((with_reducible apply Laws.State.put_kept); (case mhl => decide)) | ((with_reducible apply Laws.State.refreshConf_kept); (case mhl => decide)) | ((with_reducible apply Laws.State.setSessions_kept); (case mhl => decide)) | ((with_reducible apply Laws.State.spdmAnswer_kept); (case mhl => decide)) | ((with_reducible apply Laws.State.spdmSign_kept' ?mhl (by assumption)); (case mhl => decide)) | ((with_reducible apply Laws.State.spdmSign_kept); (case mhl => decide)) | with_reducible apply Kept.getD | with_reducible apply Kept.ite | (fail_if_no_progress ((with_reducible apply Kept.upd); (case ho => (refine Only.of (fun p hp => ?_) rfl; cases p <;> first | rfl | (refine absurd ?_ hp; decide))); (case hi => (repeat' first | with_reducible exact IoKept.refl _ | with_reducible apply Laws.Io.put_kept | with_reducible apply IoKept.ite | with_reducible apply IoKept.foldl | with_reducible apply IoKept.put | with_reducible apply IoKept.filter | (fail_if_no_progress with_reducible apply IoKept.upd) | intro _ | dsimp only | split)); (case ht => exact T1Kept.refl _))) | intro _ | dsimp only | split); done))
    | with_reducible apply Kept.ite
    | with_reducible apply Kept.getD
    | (fail_if_no_progress ((with_reducible apply Kept.upd); (case ho => (refine Only.of (fun p hp => ?_) rfl; cases p <;> first | rfl | (refine absurd ?_ hp; decide))); (case hi => (repeat' first | with_reducible exact IoKept.refl _ | with_reducible apply Laws.Io.put_kept | with_reducible apply IoKept.ite | with_reducible apply IoKept.foldl | with_reducible apply IoKept.put | with_reducible apply IoKept.filter | (fail_if_no_progress with_reducible apply IoKept.upd) | intro _ | dsimp only | split)); (case ht => exact T1Kept.refl _)))
    | intro _
    | dsimp only
    | split
theorem State.spdm_kept {ml : List StateField} {mz : State} {s : State} {r : SpdmReq} (mhl : [.io, .sec, .freeIdx] ⊆ ml) (mh : Kept ml mz s) : Kept ml mz (State.spdm s r) :=
  Kept.after ((State.spdm_frame s r).mono mhl) mh

theorem execSpdmRequest_kept (r : SpdmReq) (s : State) : ∃ out, execSpdmRequest r s = .next out ∧ Kept [.io, .sec, .freeIdx] s out := by
  unfold execSpdmRequest
  try dsimp only
  refine ⟨_, rfl, ?_⟩
  try dsimp only
  repeat' first
    | with_reducible exact Kept.refl _
    | ((with_reducible apply Laws.State.spdm_kept); (case mhl => decide))
    | with_reducible apply Kept.ite
    | intro _
    | dsimp only
    | split

theorem State.setPeers_frame (s : State) (p : Nat) (l : List Nat) : Kept [.io, .sec] s (State.setPeers s p l) := by
  unfold State.setPeers
  try dsimp only
  repeat' first
    | with_reducible exact Kept.refl _
    | ((with_reducible apply Laws.State.put_kept); (case mhl => decide))
    | ((with_reducible apply Laws.State.setSec_kept); (case mhl => decide))
    | with_reducible apply Kept.ite
    | (fail_if_no_progress ((with_reducible apply Kept.upd); (case ho => (refine Only.of (fun p hp => ?_) rfl; cases p <;> first | rfl | (refine absurd ?_ hp; decide))); (case hi => (repeat' first | with_reducible exact IoKept.refl _ | with_reducible apply Laws.Io.put_kept | with_reducible apply IoKept.ite | with_reducible apply IoKept.foldl | with_reducible apply IoKept.put | with_reducible apply IoKept.filter | (fail_if_no_progress with_reducible apply IoKept.upd) | intro _ | dsimp only | split)); (case ht => exact T1Kept.refl _)))
    | intro _
    | dsimp only
    | split
theorem State.setPeers_kept {ml : List StateField} {mz : State} {s : State} {p : Nat} {l : List Nat} (mhl : [.io, .sec] ⊆ ml) (mh : Kept ml mz s) : Kept ml mz (State.setPeers s p l) :=
  Kept.after ((State.setPeers_frame s p l).mono mhl) mh

theorem State.hearPeer_frame (s : State) (p sci : Nat) (mka : Bool) : Kept [.io, .sec] s (State.hearPeer s p sci mka) := by
  unfold State.hearPeer
  try dsimp only
  repeat' first
    | with_reducible exact Kept.refl _
    | ((with_reducible apply Laws.State.put_kept); (case mhl => decide))
    | ((with_reducible apply Laws.State.raise_kept); (case mhl => decide))
    | ((with_reducible apply Laws.State.setPeers_kept); (case mhl => decide))
    | ((with_reducible apply Kept.iteL); case k => ((repeat' first | with_reducible exact Kept.refl _ | ((with_reducible apply Laws.State.put_kept); (case mhl => decide)) | ((with_reducible apply Laws.State.raise_kept); (case mhl => decide)) | ((with_reducible apply Laws.State.setPeers_kept); (case mhl => decide)) | with_reducible apply Kept.ite | intro _ | dsimp only | split); done))
    | ((with_reducible apply Kept.iteR); case k => ((repeat' first | with_reducible exact Kept.refl _ | ((with_reducible apply Laws.State.put_kept); (case mhl => decide)) | ((with_reducible apply Laws.State.raise_kept); (case mhl => decide)) | ((with_reducible apply Laws.State.setPeers_kept); (case mhl => decide)) | with_reducible apply Kept.ite | intro _ | dsimp only | split); done))
    | with_reducible apply Kept.ite
    | intro _
    | dsimp only
    | split
theorem State.hearPeer_kept {ml : List StateField} {mz : State} {s : State} {p sci : Nat} {mka : Bool} (mhl : [.io, .sec] ⊆ ml) (mh : Kept ml mz s) : Kept ml mz (State.hearPeer s p sci mka) :=
  Kept.after ((State.hearPeer_frame s p sci mka).mono mhl) mh

theorem execMacsecFrame_kept (p : Nat) (f : MacFrame) (s : State) : ∃ out, execMacsecFrame p f s = .next out ∧ Kept [.io, .sec] s out := by
  unfold execMacsecFrame
  try dsimp only
  refine ⟨_, rfl, ?_⟩
  try dsimp only
  repeat' first
    | with_reducible exact Kept.refl _
    | ((with_reducible apply Laws.State.hearPeer_kept); (case mhl => decide))
    | ((with_reducible apply Kept.iteL); case k => ((repeat' first | with_reducible exact Kept.refl _ | ((with_reducible apply Laws.State.hearPeer_kept); (case mhl => decide)) | with_reducible apply Kept.ite | (fail_if_no_progress ((with_reducible apply Kept.upd); (case ho => (refine Only.of (fun p hp => ?_) rfl; cases p <;> first | rfl | (refine absurd ?_ hp; decide))); (case hi => (repeat' first | with_reducible exact IoKept.refl _ | with_reducible apply IoKept.ite | with_reducible apply IoKept.foldl | with_reducible apply IoKept.put | with_reducible apply IoKept.filter | (fail_if_no_progress with_reducible apply IoKept.upd) | intro _ | dsimp only | split)); (case ht => exact T1Kept.refl _))) | intro _ | dsimp only | split); done))
    | ((with_reducible apply Kept.iteR); case k => ((repeat' first | with_reducible exact Kept.refl _ | ((with_reducible apply Laws.State.hearPeer_kept); (case mhl => decide)) | with_reducible apply Kept.ite | (fail_if_no_progress ((with_reducible apply Kept.upd); (case ho => (refine Only.of (fun p hp => ?_) rfl; cases p <;> first | rfl | (refine absurd ?_ hp; decide))); (case hi => (repeat' first | with_reducible exact IoKept.refl _ | with_reducible apply IoKept.ite | with_reducible apply IoKept.foldl | with_reducible apply IoKept.put | with_reducible apply IoKept.filter | (fail_if_no_progress with_reducible apply IoKept.upd) | intro _ | dsimp only | split)); (case ht => exact T1Kept.refl _))) | intro _ | dsimp only | split); done))
    | with_reducible apply Kept.ite
    | (fail_if_no_progress ((with_reducible apply Kept.upd); (case ho => (refine Only.of (fun p hp => ?_) rfl; cases p <;> first | rfl | (refine absurd ?_ hp; decide))); (case hi => (repeat' first | with_reducible exact IoKept.refl _ | with_reducible apply IoKept.ite | with_reducible apply IoKept.foldl | with_reducible apply IoKept.put | with_reducible apply IoKept.filter | (fail_if_no_progress with_reducible apply IoKept.upd) | intro _ | dsimp only | split)); (case ht => exact T1Kept.refl _)))
    | intro _
    | dsimp only
    | split

theorem State.dropPeers_frame (s : State) (p : Nat) : Kept [.io, .sec] s (State.dropPeers s p) := by
  unfold State.dropPeers
  try dsimp only
  repeat' first
    | with_reducible exact Kept.refl _
    | ((with_reducible apply Laws.State.put_kept); (case mhl => decide))
    | ((with_reducible apply Laws.State.setPeers_kept); (case mhl => decide))
    | with_reducible apply Kept.ite
    | intro _
    | dsimp only
    | split
theorem State.dropPeers_kept {ml : List StateField} {mz : State} {s : State} {p : Nat} (mhl : [.io, .sec] ⊆ ml) (mh : Kept ml mz s) : Kept ml mz (State.dropPeers s p) :=
  Kept.after ((State.dropPeers_frame s p).mono mhl) mh

theorem execMkaLivePeerLoss_kept (p : Nat) (s : State) : ∃ out, execMkaLivePeerLoss p s = .next out ∧ Kept [.io, .sec] s out := by
  unfold execMkaLivePeerLoss
  try dsimp only
  refine ⟨_, rfl, ?_⟩
  try dsimp only
  repeat' first
    | with_reducible exact Kept.refl _
    | ((with_reducible apply Laws.State.dropPeers_kept); (case mhl => decide))
    | ((with_reducible apply Laws.State.raise_kept); (case mhl => decide))
    | with_reducible apply Kept.ite
    | intro _
    | dsimp only
    | split

theorem State.writeSecMacsec_frame (s : State) (w : RegWrite) (p : Nat) : Kept [.io, .sec] s (State.writeSecMacsec s w p) := by
  unfold State.writeSecMacsec
  try dsimp only
  repeat' first
    | with_reducible exact Kept.refl _
    | ((with_reducible apply Laws.State.dropPeers_kept); (case mhl => decide))
    | ((with_reducible apply Laws.State.fromPort_kept); (case mhl => decide))
    | ((with_reducible apply Laws.State.store_kept); (case mhl => decide))
    | with_reducible apply Kept.ite
    | intro _
    | dsimp only
    | split
theorem State.writeSecMacsec_kept {ml : List StateField} {mz : State} {s : State} {w : RegWrite} {p : Nat} (mhl : [.io, .sec] ⊆ ml) (mh : Kept ml mz s) : Kept ml mz (State.writeSecMacsec s w p) :=
  Kept.after ((State.writeSecMacsec_frame s w p).mono mhl) mh

theorem State.writeSecTnet_frame (s : State) (w : RegWrite) (t : Nat) : Kept [.io] s (State.writeSecTnet s w t) := by
  unfold State.writeSecTnet
  try dsimp only
  repeat' first
    | with_reducible exact Kept.refl _
    | ((with_reducible apply Laws.State.fromPort_kept); (case mhl => decide))
    | ((with_reducible apply Laws.State.put_kept); (case mhl => decide))
    | ((with_reducible apply Laws.State.store_kept); (case mhl => decide))
    | with_reducible apply Kept.ite
    | intro _
    | dsimp only
    | split
theorem State.writeSecTnet_kept {ml : List StateField} {mz : State} {s : State} {w : RegWrite} {t : Nat} (mhl : [.io] ⊆ ml) (mh : Kept ml mz s) : Kept ml mz (State.writeSecTnet s w t) :=
  Kept.after ((State.writeSecTnet_frame s w t).mono mhl) mh

theorem State.modelsChanged_frame (s : State) : Kept [.io] s (State.modelsChanged s) := by
  unfold State.modelsChanged
  try dsimp only
  repeat' first
    | with_reducible exact Kept.refl _
    | ((with_reducible apply Laws.State.bump_kept); (case mhl => decide))
    | with_reducible apply Kept.ite
    | intro _
    | dsimp only
    | split
theorem State.modelsChanged_kept {ml : List StateField} {mz : State} {s : State} (mhl : [.io] ⊆ ml) (mh : Kept ml mz s) : Kept ml mz (State.modelsChanged s) :=
  Kept.after ((State.modelsChanged_frame s).mono mhl) mh

theorem State.keepKey_frame (s : State) (at_ : Nat) (k : List Byte) : Kept [.sec] s (State.keepKey s at_ k) := by
  unfold State.keepKey
  try dsimp only
  repeat' first
    | with_reducible exact Kept.refl _
    | ((with_reducible apply Laws.State.setSec_kept); (case mhl => decide))
    | with_reducible apply Kept.ite
    | (fail_if_no_progress ((with_reducible apply Kept.upd); (case ho => (refine Only.of (fun p hp => ?_) rfl; cases p <;> first | rfl | (refine absurd ?_ hp; decide))); (case hi => exact IoKept.refl _); (case ht => exact T1Kept.refl _)))
    | intro _
    | dsimp only
    | split
theorem State.keepKey_kept {ml : List StateField} {mz : State} {s : State} {at_ : Nat} {k : List Byte} (mhl : [.sec] ⊆ ml) (mh : Kept ml mz s) : Kept ml mz (State.keepKey s at_ k) :=
  Kept.after ((State.keepKey_frame s at_ k).mono mhl) mh

theorem State.installDomain_frame (s : State) (d : Nat) (k allow : List Byte) : Kept [.io, .sec] s (State.installDomain s d k allow) := by
  unfold State.installDomain
  try dsimp only
  repeat' first
    | with_reducible exact Kept.refl _
    | ((with_reducible apply Laws.State.keepKey_kept); (case mhl => decide))
    | ((with_reducible apply Laws.State.put_kept); (case mhl => decide))
    | ((with_reducible apply Laws.State.setSec_kept); (case mhl => decide))
    | with_reducible apply Kept.ite
    | (fail_if_no_progress ((with_reducible apply Kept.upd); (case ho => (refine Only.of (fun p hp => ?_) rfl; cases p <;> first | rfl | (refine absurd ?_ hp; decide))); (case hi => (repeat' first | with_reducible exact IoKept.refl _ | with_reducible apply Laws.Io.put_kept | with_reducible apply IoKept.ite | with_reducible apply IoKept.foldl | with_reducible apply IoKept.put | with_reducible apply IoKept.filter | (fail_if_no_progress with_reducible apply IoKept.upd) | intro _ | dsimp only | split)); (case ht => exact T1Kept.refl _)))
    | intro _
    | dsimp only
    | split
theorem State.installDomain_kept {ml : List StateField} {mz : State} {s : State} {d : Nat} {k allow : List Byte} (mhl : [.io, .sec] ⊆ ml) (mh : Kept ml mz s) : Kept ml mz (State.installDomain s d k allow) :=
  Kept.after ((State.installDomain_frame s d k allow).mono mhl) mh

theorem State.installJob_frame (s : State) (k t : Nat) (key : List Byte) : Kept [.io, .sec] s (State.installJob s k t key) := by
  unfold State.installJob
  try dsimp only
  repeat' first
    | with_reducible exact Kept.refl _
    | ((with_reducible apply Laws.State.put_kept); (case mhl => decide))
    | ((with_reducible apply Laws.State.setSec_kept); (case mhl => decide))
    | with_reducible apply Kept.ite
    | (fail_if_no_progress ((with_reducible apply Kept.upd); (case ho => (refine Only.of (fun p hp => ?_) rfl; cases p <;> first | rfl | (refine absurd ?_ hp; decide))); (case hi => (repeat' first | with_reducible exact IoKept.refl _ | with_reducible apply Laws.Io.put_kept | with_reducible apply IoKept.ite | with_reducible apply IoKept.foldl | with_reducible apply IoKept.put | with_reducible apply IoKept.filter | (fail_if_no_progress with_reducible apply IoKept.upd) | intro _ | dsimp only | split)); (case ht => exact T1Kept.refl _)))
    | intro _
    | dsimp only
    | split
theorem State.installJob_kept {ml : List StateField} {mz : State} {s : State} {k t : Nat} {key : List Byte} (mhl : [.io, .sec] ⊆ ml) (mh : Kept ml mz s) : Kept ml mz (State.installJob s k t key) :=
  Kept.after ((State.installJob_frame s k t key).mono mhl) mh

theorem State.installBlob_frame (s : State) (b keys : List Byte) (list : List Byte) (count : Nat) : Kept [.io, .sec] s (State.installBlob s b keys list count) := by
  unfold State.installBlob
  try dsimp only
  repeat' first
    | with_reducible exact Kept.refl _
    | ((with_reducible apply Laws.State.installDomain_kept); (case mhl => decide))
    | ((with_reducible apply Laws.State.installJob_kept); (case mhl => decide))
    | ((with_reducible apply Laws.State.keepKey_kept); (case mhl => decide))
    | ((with_reducible apply Laws.State.modelsChanged_kept); (case mhl => decide))
    | ((with_reducible apply Laws.State.put_kept); (case mhl => decide))
    | ((with_reducible apply Laws.State.refreshConfOf_kept); (case mhl => decide))
    | ((with_reducible apply Laws.State.setSec_kept); (case mhl => decide))
    | with_reducible apply Kept.ite
    | with_reducible apply Kept.foldl
    | with_reducible apply Kept.foldlFst
    | with_reducible apply Kept.foldlSnd
    | (fail_if_no_progress ((with_reducible apply Kept.upd); (case ho => (refine Only.of (fun p hp => ?_) rfl; cases p <;> first | rfl | (refine absurd ?_ hp; decide))); (case hi => (repeat' first | with_reducible exact IoKept.refl _ | with_reducible apply Laws.Io.put_kept | with_reducible apply IoKept.ite | with_reducible apply IoKept.foldl | with_reducible apply IoKept.put | with_reducible apply IoKept.filter | (fail_if_no_progress with_reducible apply IoKept.upd) | intro _ | dsimp only | split)); (case ht => exact T1Kept.refl _)))
    | intro _
    | dsimp only
    | split
theorem State.installBlob_kept {ml : List StateField} {mz : State} {s : State} {b keys : List Byte} {list : List Byte} {count : Nat} (mhl : [.io, .sec] ⊆ ml) (mh : Kept ml mz s) : Kept ml mz (State.installBlob s b keys list count) :=
  Kept.after ((State.installBlob_frame s b keys list count).mono mhl) mh

theorem State.refuseBlob_frame (s : State) (c : Cmd) (b : List Byte) (reason status : Nat) : Kept [.io, .answers] s (State.refuseBlob s c b reason status) := by
  unfold State.refuseBlob
  try dsimp only
  repeat' first
    | with_reducible exact Kept.refl _
    | ((with_reducible apply Laws.State.bump_kept); (case mhl => decide))
    | ((with_reducible apply Laws.State.complete_kept); (case mhl => decide))
    | ((with_reducible apply Laws.State.raise_kept); (case mhl => decide))
    | with_reducible apply Kept.ite
    | intro _
    | dsimp only
    | split
theorem State.refuseBlob_kept {ml : List StateField} {mz : State} {s : State} {c : Cmd} {b : List Byte} {reason status : Nat} (mhl : [.io, .answers] ⊆ ml) (mh : Kept ml mz s) : Kept ml mz (State.refuseBlob s c b reason status) :=
  Kept.after ((State.refuseBlob_frame s c b reason status).mono mhl) mh

theorem State.openBlob_frame (s : State) (c : Cmd) (b : List Byte) : Kept [.io, .answers, .sec] s (State.openBlob s c b) := by
  unfold State.openBlob
  try dsimp only
  repeat' first
    | with_reducible exact Kept.refl _
    | ((with_reducible apply Laws.State.complete_kept); (case mhl => decide))
    | ((with_reducible apply Laws.State.installBlob_kept); (case mhl => decide))
    | ((with_reducible apply Laws.State.readInFault_kept); (case mhl => decide))
    | ((with_reducible apply Laws.State.refuseBlob_kept); (case mhl => decide))
    | ((with_reducible apply Kept.iteL); case k => ((repeat' first | with_reducible exact Kept.refl _ | ((with_reducible apply Laws.State.complete_kept); (case mhl => decide)) | ((with_reducible apply Laws.State.installBlob_kept); (case mhl => decide)) | ((with_reducible apply Laws.State.readInFault_kept); (case mhl => decide)) | ((with_reducible apply Laws.State.refuseBlob_kept); (case mhl => decide)) | with_reducible apply Kept.ite | (fail_if_no_progress ((with_reducible apply Kept.upd); (case ho => (refine Only.of (fun p hp => ?_) rfl; cases p <;> first | rfl | (refine absurd ?_ hp; decide))); (case hi => (repeat' first | with_reducible exact IoKept.refl _ | with_reducible apply IoKept.ite | with_reducible apply IoKept.foldl | with_reducible apply IoKept.put | with_reducible apply IoKept.filter | (fail_if_no_progress with_reducible apply IoKept.upd) | intro _ | dsimp only | split)); (case ht => exact T1Kept.refl _))) | intro _ | dsimp only | split); done))
    | ((with_reducible apply Kept.iteR); case k => ((repeat' first | with_reducible exact Kept.refl _ | ((with_reducible apply Laws.State.complete_kept); (case mhl => decide)) | ((with_reducible apply Laws.State.installBlob_kept); (case mhl => decide)) | ((with_reducible apply Laws.State.readInFault_kept); (case mhl => decide)) | ((with_reducible apply Laws.State.refuseBlob_kept); (case mhl => decide)) | with_reducible apply Kept.ite | (fail_if_no_progress ((with_reducible apply Kept.upd); (case ho => (refine Only.of (fun p hp => ?_) rfl; cases p <;> first | rfl | (refine absurd ?_ hp; decide))); (case hi => (repeat' first | with_reducible exact IoKept.refl _ | with_reducible apply IoKept.ite | with_reducible apply IoKept.foldl | with_reducible apply IoKept.put | with_reducible apply IoKept.filter | (fail_if_no_progress with_reducible apply IoKept.upd) | intro _ | dsimp only | split)); (case ht => exact T1Kept.refl _))) | intro _ | dsimp only | split); done))
    | with_reducible apply Kept.ite
    | (fail_if_no_progress ((with_reducible apply Kept.upd); (case ho => (refine Only.of (fun p hp => ?_) rfl; cases p <;> first | rfl | (refine absurd ?_ hp; decide))); (case hi => (repeat' first | with_reducible exact IoKept.refl _ | with_reducible apply IoKept.ite | with_reducible apply IoKept.foldl | with_reducible apply IoKept.put | with_reducible apply IoKept.filter | (fail_if_no_progress with_reducible apply IoKept.upd) | intro _ | dsimp only | split)); (case ht => exact T1Kept.refl _)))
    | intro _
    | dsimp only
    | split
theorem State.openBlob_kept {ml : List StateField} {mz : State} {s : State} {c : Cmd} {b : List Byte} (mhl : [.io, .answers, .sec] ⊆ ml) (mh : Kept ml mz s) : Kept ml mz (State.openBlob s c b) :=
  Kept.after ((State.openBlob_frame s c b).mono mhl) mh

theorem execSecKeyLoad_kept (c : Cmd) (s : State) : ∃ out, execSecKeyLoad c s = .next out ∧ Kept [.io, .t1, .answers, .sec] s out := by
  unfold execSecKeyLoad
  try dsimp only
  refine ⟨_, rfl, ?_⟩
  try dsimp only
  repeat' first
    | with_reducible exact Kept.refl _
    | ((with_reducible apply Laws.State.complete_kept); (case mhl => decide))
    | ((with_reducible apply Laws.State.openBlob_kept); (case mhl => decide))
    | ((with_reducible apply Laws.State.readInFault_kept); (case mhl => decide))
    | ((with_reducible apply Laws.State.runCmd_kept); (case mhl => decide))
    | with_reducible apply Kept.ite
    | (fail_if_no_progress ((with_reducible apply Kept.upd); (case ho => (refine Only.of (fun p hp => ?_) rfl; cases p <;> first | rfl | (refine absurd ?_ hp; decide))); (case hi => (repeat' first | with_reducible exact IoKept.refl _ | with_reducible apply IoKept.ite | with_reducible apply IoKept.foldl | with_reducible apply IoKept.put | with_reducible apply IoKept.filter | (fail_if_no_progress with_reducible apply IoKept.upd) | intro _ | dsimp only | split)); (case ht => (repeat' first | with_reducible exact T1Kept.refl _ | with_reducible apply Laws.Tier1.own_kept | with_reducible apply T1Kept.ite | with_reducible apply T1Kept.foldl | with_reducible apply T1Kept.put | with_reducible apply T1Kept.filter | (fail_if_no_progress with_reducible apply T1Kept.upd) | intro _ | dsimp only | split))))
    | intro _
    | dsimp only
    | split

theorem State.takeBands_frame (n p len : Nat) (got : List (Nat × Nat)) (s : State) {v0 : List (Nat × Nat)} {v1 : State} (me : State.takeBands n p len got s = some (v0, v1)) : Kept [.shed] s v1 := by
  induction n generalizing len got s v0 v1 with
  | zero => cases me; exact Kept.refl _
  | succ n ih =>
    unfold State.takeBands at me
    dsimp only at me
    split at me
    · contradiction
    · split at me
      · contradiction
      · exact (ih _ _ _ me).after (State.setShedPort_kept (by decide) (Kept.refl _))
theorem State.takeBands_kept {ml : List StateField} {mz : State}  {n : Nat} {p : Nat} {len : Nat} {got : List (Nat × Nat)} {x3 : State} {v0 : List (Nat × Nat)} {v1 : State} (mhl : [.shed] ⊆ ml) (me : State.takeBands  n p len got x3 = some (v0, v1)) (mh : Kept ml mz x3) : Kept ml mz v1 :=
  Kept.after ((State.takeBands_frame  n p len got x3 me).mono mhl) mh

theorem State.takeStripes_frame (s : State) (ports : List Nat) (len : Nat) {v0 : List (Nat × Nat)} {v1 : State} (me : State.takeStripes s ports len = some (v0, v1)) : Kept [.shed] s v1 := by
  unfold State.takeStripes at me
  dsimp only at me
  generalize ceilDiv len _ = share at me
  have go : ∀ (l : List Nat) (r : Option (List (Nat × Nat) × State)), (∀ q, r = some q → Kept [.shed] s q.2) → ∀ q,
      l.foldl (fun r p => r.bind (fun (x : List (Nat × Nat) × State) => State.takeStripes.takeBandsOf x p share)) r = some q → Kept [.shed] s q.2 := by
    intro l
    induction l with
    | nil => intro r hr q hq; exact hr q hq
    | cons h t ih =>
      intro r hr q hq
      refine ih _ ?_ q hq
      intro p hp
      rw [Option.bind_eq_some_iff] at hp
      obtain ⟨a, ha, hp⟩ := hp
      exact (State.takeBands_frame _ _ _ _ _ (v0 := p.1) (v1 := p.2) hp).after (hr a ha)
  exact go ports _ (fun q hq => by cases hq; exact Kept.refl _) _ me
theorem State.takeStripes_kept {ml : List StateField} {mz : State} {s : State} {ports : List Nat} {len : Nat} {v0 : List (Nat × Nat)} {v1 : State} (mhl : [.shed] ⊆ ml) (me : State.takeStripes s ports len = some (v0, v1)) (mh : Kept ml mz s) : Kept ml mz v1 :=
  Kept.after ((State.takeStripes_frame s ports len me).mono mhl) mh

theorem execSecModelImport_kept (c : Cmd) (s : State) : ∃ out, execSecModelImport c s = .next out ∧ Kept [.io, .shed, .ops, .answers, .sec] s out := by
  unfold execSecModelImport
  try dsimp only
  refine ⟨_, rfl, ?_⟩
  try dsimp only
  repeat' first
    | with_reducible exact Kept.refl _
    | ((with_reducible apply Laws.State.beginOp_kept); (case mhl => decide))
    | ((with_reducible apply Laws.State.refuse_kept); (case mhl => decide))
    | ((with_reducible apply Laws.State.runHeld_kept); (case mhl => decide))
    | ((with_reducible apply Laws.State.setSec_kept); (case mhl => decide))
    | ((with_reducible apply Laws.State.takeStripes_kept ?mhl (by assumption)); (case mhl => decide))
    | ((with_reducible apply Kept.iteL); case k => ((repeat' first | with_reducible exact Kept.refl _ | ((with_reducible apply Laws.State.beginOp_kept); (case mhl => decide)) | ((with_reducible apply Laws.State.refuse_kept); (case mhl => decide)) | ((with_reducible apply Laws.State.runHeld_kept); (case mhl => decide)) | ((with_reducible apply Laws.State.setSec_kept); (case mhl => decide)) | ((with_reducible apply Laws.State.takeStripes_kept ?mhl (by assumption)); (case mhl => decide)) | with_reducible apply Kept.ite | (fail_if_no_progress ((with_reducible apply Kept.upd); (case ho => (refine Only.of (fun p hp => ?_) rfl; cases p <;> first | rfl | (refine absurd ?_ hp; decide))); (case hi => (repeat' first | with_reducible exact IoKept.refl _ | with_reducible apply IoKept.ite | with_reducible apply IoKept.foldl | with_reducible apply IoKept.put | with_reducible apply IoKept.filter | (fail_if_no_progress with_reducible apply IoKept.upd) | intro _ | dsimp only | split)); (case ht => exact T1Kept.refl _))) | intro _ | dsimp only | split); done))
    | ((with_reducible apply Kept.iteR); case k => ((repeat' first | with_reducible exact Kept.refl _ | ((with_reducible apply Laws.State.beginOp_kept); (case mhl => decide)) | ((with_reducible apply Laws.State.refuse_kept); (case mhl => decide)) | ((with_reducible apply Laws.State.runHeld_kept); (case mhl => decide)) | ((with_reducible apply Laws.State.setSec_kept); (case mhl => decide)) | ((with_reducible apply Laws.State.takeStripes_kept ?mhl (by assumption)); (case mhl => decide)) | with_reducible apply Kept.ite | (fail_if_no_progress ((with_reducible apply Kept.upd); (case ho => (refine Only.of (fun p hp => ?_) rfl; cases p <;> first | rfl | (refine absurd ?_ hp; decide))); (case hi => (repeat' first | with_reducible exact IoKept.refl _ | with_reducible apply IoKept.ite | with_reducible apply IoKept.foldl | with_reducible apply IoKept.put | with_reducible apply IoKept.filter | (fail_if_no_progress with_reducible apply IoKept.upd) | intro _ | dsimp only | split)); (case ht => exact T1Kept.refl _))) | intro _ | dsimp only | split); done))
    | with_reducible apply Kept.ite
    | (fail_if_no_progress ((with_reducible apply Kept.upd); (case ho => (refine Only.of (fun p hp => ?_) rfl; cases p <;> first | rfl | (refine absurd ?_ hp; decide))); (case hi => (repeat' first | with_reducible exact IoKept.refl _ | with_reducible apply IoKept.ite | with_reducible apply IoKept.foldl | with_reducible apply IoKept.put | with_reducible apply IoKept.filter | (fail_if_no_progress with_reducible apply IoKept.upd) | intro _ | dsimp only | split)); (case ht => exact T1Kept.refl _)))
    | intro _
    | dsimp only
    | split

theorem State.failImport_frame (s : State) (x : ModelImport) (status : Nat) : Kept [.io, .shed, .ops, .answers, .sec] s (State.failImport s x status) := by
  unfold State.failImport
  try dsimp only
  repeat' first
    | with_reducible exact Kept.refl _
    | ((with_reducible apply Laws.State.dropImports_kept); (case mhl => decide))
    | ((with_reducible apply Laws.State.endOp_kept); (case mhl => decide))
    | with_reducible apply Kept.ite
    | intro _
    | dsimp only
    | split
theorem State.failImport_kept {ml : List StateField} {mz : State} {s : State} {x : ModelImport} {status : Nat} (mhl : [.io, .shed, .ops, .answers, .sec] ⊆ ml) (mh : Kept ml mz s) : Kept ml mz (State.failImport s x status) :=
  Kept.after ((State.failImport_frame s x status).mono mhl) mh

theorem State.importChunk_frame (s : State) (x : ModelImport) (b : Option (List Byte)) : Kept [.io, .shed, .ops, .answers, .sec] s (State.importChunk s x b) := by
  unfold State.importChunk
  try dsimp only
  repeat' first
    | with_reducible exact Kept.refl _
    | ((with_reducible apply Laws.State.emit_kept); (case mhl => decide))
    | ((with_reducible apply Laws.State.endOp_kept); (case mhl => decide))
    | ((with_reducible apply Laws.State.failImport_kept); (case mhl => decide))
    | ((with_reducible apply Laws.State.raise_kept); (case mhl => decide))
    | ((with_reducible apply Laws.State.setOp_kept); (case mhl => decide))
    | ((with_reducible apply Laws.State.setSec_kept); (case mhl => decide))
    | ((with_reducible apply Kept.iteL); case k => ((repeat' first | with_reducible exact Kept.refl _ | ((with_reducible apply Laws.State.emit_kept); (case mhl => decide)) | ((with_reducible apply Laws.State.endOp_kept); (case mhl => decide)) | ((with_reducible apply Laws.State.failImport_kept); (case mhl => decide)) | ((with_reducible apply Laws.State.raise_kept); (case mhl => decide)) | ((with_reducible apply Laws.State.setOp_kept); (case mhl => decide)) | ((with_reducible apply Laws.State.setSec_kept); (case mhl => decide)) | with_reducible apply Kept.ite | (fail_if_no_progress ((with_reducible apply Kept.upd); (case ho => (refine Only.of (fun p hp => ?_) rfl; cases p <;> first | rfl | (refine absurd ?_ hp; decide))); (case hi => (repeat' first | with_reducible exact IoKept.refl _ | with_reducible apply Laws.Io.emit_kept | with_reducible apply Laws.Io.raise_kept | with_reducible apply IoKept.ite | with_reducible apply IoKept.foldl | with_reducible apply IoKept.put | with_reducible apply IoKept.filter | (fail_if_no_progress with_reducible apply IoKept.upd) | intro _ | dsimp only | split)); (case ht => exact T1Kept.refl _))) | intro _ | dsimp only | split); done))
    | ((with_reducible apply Kept.iteR); case k => ((repeat' first | with_reducible exact Kept.refl _ | ((with_reducible apply Laws.State.emit_kept); (case mhl => decide)) | ((with_reducible apply Laws.State.endOp_kept); (case mhl => decide)) | ((with_reducible apply Laws.State.failImport_kept); (case mhl => decide)) | ((with_reducible apply Laws.State.raise_kept); (case mhl => decide)) | ((with_reducible apply Laws.State.setOp_kept); (case mhl => decide)) | ((with_reducible apply Laws.State.setSec_kept); (case mhl => decide)) | with_reducible apply Kept.ite | (fail_if_no_progress ((with_reducible apply Kept.upd); (case ho => (refine Only.of (fun p hp => ?_) rfl; cases p <;> first | rfl | (refine absurd ?_ hp; decide))); (case hi => (repeat' first | with_reducible exact IoKept.refl _ | with_reducible apply Laws.Io.emit_kept | with_reducible apply Laws.Io.raise_kept | with_reducible apply IoKept.ite | with_reducible apply IoKept.foldl | with_reducible apply IoKept.put | with_reducible apply IoKept.filter | (fail_if_no_progress with_reducible apply IoKept.upd) | intro _ | dsimp only | split)); (case ht => exact T1Kept.refl _))) | intro _ | dsimp only | split); done))
    | with_reducible apply Kept.ite
    | (fail_if_no_progress ((with_reducible apply Kept.upd); (case ho => (refine Only.of (fun p hp => ?_) rfl; cases p <;> first | rfl | (refine absurd ?_ hp; decide))); (case hi => (repeat' first | with_reducible exact IoKept.refl _ | with_reducible apply Laws.Io.emit_kept | with_reducible apply Laws.Io.raise_kept | with_reducible apply IoKept.ite | with_reducible apply IoKept.foldl | with_reducible apply IoKept.put | with_reducible apply IoKept.filter | (fail_if_no_progress with_reducible apply IoKept.upd) | intro _ | dsimp only | split)); (case ht => exact T1Kept.refl _)))
    | intro _
    | dsimp only
    | split
theorem State.importChunk_kept {ml : List StateField} {mz : State} {s : State} {x : ModelImport} {b : Option (List Byte)} (mhl : [.io, .shed, .ops, .answers, .sec] ⊆ ml) (mh : Kept ml mz s) : Kept ml mz (State.importChunk s x b) :=
  Kept.after ((State.importChunk_frame s x b).mono mhl) mh

theorem execModelImportChunkDone_kept (slot : Nat) (b : Option (List Byte)) (s : State) : ∃ out, execModelImportChunkDone slot b s = .next out ∧ Kept [.io, .shed, .ops, .answers, .sec] s out := by
  unfold execModelImportChunkDone
  try dsimp only
  refine ⟨_, rfl, ?_⟩
  try dsimp only
  repeat' first
    | with_reducible exact Kept.refl _
    | ((with_reducible apply Laws.State.importChunk_kept); (case mhl => decide))
    | with_reducible apply Kept.ite
    | (fail_if_no_progress ((with_reducible apply Kept.upd); (case ho => (refine Only.of (fun p hp => ?_) rfl; cases p <;> first | rfl | (refine absurd ?_ hp; decide))); (case hi => (repeat' first | with_reducible exact IoKept.refl _ | with_reducible apply IoKept.ite | with_reducible apply IoKept.foldl | with_reducible apply IoKept.put | with_reducible apply IoKept.filter | (fail_if_no_progress with_reducible apply IoKept.upd) | intro _ | dsimp only | split)); (case ht => exact T1Kept.refl _)))
    | intro _
    | dsimp only
    | split

theorem State.clearTarget_frame (s : State) (kind target : Nat) : Kept [.io, .shed, .sec] s (State.clearTarget s kind target) := by
  unfold State.clearTarget
  try dsimp only
  repeat' first
    | with_reducible exact Kept.refl _
    | ((with_reducible apply Laws.State.dropImports_kept); (case mhl => decide))
    | ((with_reducible apply Laws.State.dropPeers_kept); (case mhl => decide))
    | ((with_reducible apply Laws.State.eraseDomain_kept); (case mhl => decide))
    | ((with_reducible apply Laws.State.eraseJob_kept); (case mhl => decide))
    | ((with_reducible apply Laws.State.keepKey_kept); (case mhl => decide))
    | ((with_reducible apply Laws.State.modelsChanged_kept); (case mhl => decide))
    | ((with_reducible apply Laws.State.put_kept); (case mhl => decide))
    | with_reducible apply Kept.ite
    | with_reducible apply Kept.foldl
    | with_reducible apply Kept.foldlFst
    | with_reducible apply Kept.foldlSnd
    | (fail_if_no_progress ((with_reducible apply Kept.upd); (case ho => (refine Only.of (fun p hp => ?_) rfl; cases p <;> first | rfl | (refine absurd ?_ hp; decide))); (case hi => (repeat' first | with_reducible exact IoKept.refl _ | with_reducible apply Laws.Io.put_kept | with_reducible apply IoKept.ite | with_reducible apply IoKept.foldl | with_reducible apply IoKept.put | with_reducible apply IoKept.filter | (fail_if_no_progress with_reducible apply IoKept.upd) | intro _ | dsimp only | split)); (case ht => exact T1Kept.refl _)))
    | intro _
    | dsimp only
    | split
theorem State.clearTarget_kept {ml : List StateField} {mz : State} {s : State} {kind target : Nat} (mhl : [.io, .shed, .sec] ⊆ ml) (mh : Kept ml mz s) : Kept ml mz (State.clearTarget s kind target) :=
  Kept.after ((State.clearTarget_frame s kind target).mono mhl) mh

theorem execSecKeyClear_kept (c : Cmd) (s : State) : ∃ out, execSecKeyClear c s = .next out ∧ Kept [.io, .shed, .answers, .sec] s out := by
  unfold execSecKeyClear
  try dsimp only
  refine ⟨_, rfl, ?_⟩
  try dsimp only
  repeat' first
    | with_reducible exact Kept.refl _
    | ((with_reducible apply Laws.State.clearTarget_kept); (case mhl => decide))
    | ((with_reducible apply Laws.State.complete_kept); (case mhl => decide))
    | ((with_reducible apply Laws.State.runCmd_kept); (case mhl => decide))
    | with_reducible apply Kept.ite
    | intro _
    | dsimp only
    | split

theorem execSecCertLoad_kept (c : Cmd) (s : State) : ∃ out, execSecCertLoad c s = .next out ∧ Kept [.io, .answers, .sec] s out := by
  unfold execSecCertLoad
  try dsimp only
  refine ⟨_, rfl, ?_⟩
  try dsimp only
  repeat' first
    | with_reducible exact Kept.refl _
    | ((with_reducible apply Laws.State.complete_kept); (case mhl => decide))
    | ((with_reducible apply Laws.State.put_kept); (case mhl => decide))
    | ((with_reducible apply Laws.State.readInFault_kept); (case mhl => decide))
    | ((with_reducible apply Laws.State.runCmd_kept); (case mhl => decide))
    | ((with_reducible apply Laws.State.setSec_kept); (case mhl => decide))
    | ((with_reducible apply Kept.iteL); case k => ((repeat' first | with_reducible exact Kept.refl _ | ((with_reducible apply Laws.State.complete_kept); (case mhl => decide)) | ((with_reducible apply Laws.State.put_kept); (case mhl => decide)) | ((with_reducible apply Laws.State.readInFault_kept); (case mhl => decide)) | ((with_reducible apply Laws.State.runCmd_kept); (case mhl => decide)) | ((with_reducible apply Laws.State.setSec_kept); (case mhl => decide)) | with_reducible apply Kept.ite | (fail_if_no_progress ((with_reducible apply Kept.upd); (case ho => (refine Only.of (fun p hp => ?_) rfl; cases p <;> first | rfl | (refine absurd ?_ hp; decide))); (case hi => (repeat' first | with_reducible exact IoKept.refl _ | with_reducible apply Laws.Io.put_kept | with_reducible apply IoKept.ite | with_reducible apply IoKept.foldl | with_reducible apply IoKept.put | with_reducible apply IoKept.filter | (fail_if_no_progress with_reducible apply IoKept.upd) | intro _ | dsimp only | split)); (case ht => exact T1Kept.refl _))) | intro _ | dsimp only | split); done))
    | ((with_reducible apply Kept.iteR); case k => ((repeat' first | with_reducible exact Kept.refl _ | ((with_reducible apply Laws.State.complete_kept); (case mhl => decide)) | ((with_reducible apply Laws.State.put_kept); (case mhl => decide)) | ((with_reducible apply Laws.State.readInFault_kept); (case mhl => decide)) | ((with_reducible apply Laws.State.runCmd_kept); (case mhl => decide)) | ((with_reducible apply Laws.State.setSec_kept); (case mhl => decide)) | with_reducible apply Kept.ite | (fail_if_no_progress ((with_reducible apply Kept.upd); (case ho => (refine Only.of (fun p hp => ?_) rfl; cases p <;> first | rfl | (refine absurd ?_ hp; decide))); (case hi => (repeat' first | with_reducible exact IoKept.refl _ | with_reducible apply Laws.Io.put_kept | with_reducible apply IoKept.ite | with_reducible apply IoKept.foldl | with_reducible apply IoKept.put | with_reducible apply IoKept.filter | (fail_if_no_progress with_reducible apply IoKept.upd) | intro _ | dsimp only | split)); (case ht => exact T1Kept.refl _))) | intro _ | dsimp only | split); done))
    | with_reducible apply Kept.ite
    | (fail_if_no_progress ((with_reducible apply Kept.upd); (case ho => (refine Only.of (fun p hp => ?_) rfl; cases p <;> first | rfl | (refine absurd ?_ hp; decide))); (case hi => (repeat' first | with_reducible exact IoKept.refl _ | with_reducible apply Laws.Io.put_kept | with_reducible apply IoKept.ite | with_reducible apply IoKept.foldl | with_reducible apply IoKept.put | with_reducible apply IoKept.filter | (fail_if_no_progress with_reducible apply IoKept.upd) | intro _ | dsimp only | split)); (case ht => exact T1Kept.refl _)))
    | intro _
    | dsimp only
    | split

theorem execSecScrubCert_kept (c : Cmd) (s : State) : ∃ out, execSecScrubCert c s = .next out ∧ Kept [.io, .t1, .answers] s out := by
  unfold execSecScrubCert
  try dsimp only
  refine ⟨_, rfl, ?_⟩
  try dsimp only
  repeat' first
    | with_reducible exact Kept.refl _
    | ((with_reducible apply Laws.State.complete_kept); (case mhl => decide))
    | ((with_reducible apply Laws.State.readInFault_kept); (case mhl => decide))
    | ((with_reducible apply Laws.State.runCmd_kept); (case mhl => decide))
    | ((with_reducible apply Laws.State.writeOut_kept ?mhl (by assumption)); (case mhl => decide))
    | with_reducible apply Kept.ite
    | (fail_if_no_progress ((with_reducible apply Kept.upd); (case ho => (refine Only.of (fun p hp => ?_) rfl; cases p <;> first | rfl | (refine absurd ?_ hp; decide))); (case hi => (repeat' first | with_reducible exact IoKept.refl _ | with_reducible apply IoKept.ite | with_reducible apply IoKept.foldl | with_reducible apply IoKept.put | with_reducible apply IoKept.filter | (fail_if_no_progress with_reducible apply IoKept.upd) | intro _ | dsimp only | split)); (case ht => (repeat' first | with_reducible exact T1Kept.refl _ | with_reducible apply T1Kept.ite | with_reducible apply T1Kept.foldl | with_reducible apply T1Kept.put | with_reducible apply T1Kept.filter | (fail_if_no_progress with_reducible apply T1Kept.upd) | intro _ | dsimp only | split))))
    | intro _
    | dsimp only
    | split

theorem State.drawRandom_frame (n : Nat) (got : List Byte) (s : State) : Kept [.freeIdx] s (State.drawRandom n got s).2 := by
  induction n generalizing got s with
  | zero => exact Kept.refl _
  | succ n ih => exact (ih _ _).after (State.drawFree_kept (by decide) (Kept.refl _))
theorem State.drawRandom_kept {ml : List StateField} {mz : State}  {n : Nat} {got : List Byte} {x2 : State} (mhl : [.freeIdx] ⊆ ml) (mh : Kept ml mz x2) : Kept ml mz (State.drawRandom  n got x2).2 :=
  Kept.after ((State.drawRandom_frame  n got x2).mono mhl) mh
theorem State.drawRandom_kept' {ml : List StateField} {mz : State}  {n : Nat} {got : List Byte} {x2 : State} {v0 : List Byte} {v1 : State} (mhl : [.freeIdx] ⊆ ml) (me : State.drawRandom  n got x2 = (v0, v1)) (mh : Kept ml mz x2) : Kept ml mz v1 := by
  have mk := Kept.after ((State.drawRandom_frame  n got x2).mono mhl) mh
  rw [me] at mk
  exact mk

theorem execSecRandom_kept (c : Cmd) (s : State) : ∃ out, execSecRandom c s = .next out ∧ Kept [.io, .t1, .answers, .freeIdx] s out := by
  unfold execSecRandom
  try dsimp only
  refine ⟨_, rfl, ?_⟩
  try dsimp only
  repeat' first
    | with_reducible exact Kept.refl _
    | ((with_reducible apply Laws.State.complete_kept); (case mhl => decide))
    | ((with_reducible apply Laws.State.drawRandom_kept' ?mhl (by assumption)); (case mhl => decide))
    | ((with_reducible apply Laws.State.drawRandom_kept); (case mhl => decide))
    | ((with_reducible apply Laws.State.readInFault_kept); (case mhl => decide))
    | ((with_reducible apply Laws.State.runCmd_kept); (case mhl => decide))
    | ((with_reducible apply Laws.State.writeOut_kept ?mhl (by assumption)); (case mhl => decide))
    | with_reducible apply Kept.ite
    | (fail_if_no_progress ((with_reducible apply Kept.upd); (case ho => (refine Only.of (fun p hp => ?_) rfl; cases p <;> first | rfl | (refine absurd ?_ hp; decide))); (case hi => (repeat' first | with_reducible exact IoKept.refl _ | with_reducible apply IoKept.ite | with_reducible apply IoKept.foldl | with_reducible apply IoKept.put | with_reducible apply IoKept.filter | (fail_if_no_progress with_reducible apply IoKept.upd) | intro _ | dsimp only | split)); (case ht => (repeat' first | with_reducible exact T1Kept.refl _ | with_reducible apply T1Kept.ite | with_reducible apply T1Kept.foldl | with_reducible apply T1Kept.put | with_reducible apply T1Kept.filter | (fail_if_no_progress with_reducible apply T1Kept.upd) | intro _ | dsimp only | split))))
    | intro _
    | dsimp only
    | split

theorem execEntropyHealthFail_kept (s : State) : ∃ out, execEntropyHealthFail s = .next out ∧ Kept [.io] s out := by
  unfold execEntropyHealthFail
  try dsimp only
  refine ⟨_, rfl, ?_⟩
  try dsimp only
  repeat' first
    | with_reducible exact Kept.refl _
    | ((with_reducible apply Laws.State.raise_kept); (case mhl => decide))
    | with_reducible apply Kept.ite
    | intro _
    | dsimp only
    | split

theorem State.writeSecCtrl_frame (s : State) (w : RegWrite) : Kept [.io, .sec] s (State.writeSecCtrl s w) := by
  unfold State.writeSecCtrl
  try dsimp only
  repeat' first
    | with_reducible exact Kept.refl _
    | ((with_reducible apply Laws.State.fromPort_kept); (case mhl => decide))
    | ((with_reducible apply Laws.State.put_kept); (case mhl => decide))
    | ((with_reducible apply Laws.State.setSec_kept); (case mhl => decide))
    | with_reducible apply Kept.ite
    | (fail_if_no_progress ((with_reducible apply Kept.upd); (case ho => (refine Only.of (fun p hp => ?_) rfl; cases p <;> first | rfl | (refine absurd ?_ hp; decide))); (case hi => (repeat' first | with_reducible exact IoKept.refl _ | with_reducible apply Laws.Io.put_kept | with_reducible apply IoKept.ite | with_reducible apply IoKept.foldl | with_reducible apply IoKept.put | with_reducible apply IoKept.filter | (fail_if_no_progress with_reducible apply IoKept.upd) | intro _ | dsimp only | split)); (case ht => exact T1Kept.refl _)))
    | intro _
    | dsimp only
    | split
theorem State.writeSecCtrl_kept {ml : List StateField} {mz : State} {s : State} {w : RegWrite} (mhl : [.io, .sec] ⊆ ml) (mh : Kept ml mz s) : Kept ml mz (State.writeSecCtrl s w) :=
  Kept.after ((State.writeSecCtrl_frame s w).mono mhl) mh

theorem execSecCommit_kept (w : RegWrite) (s : State) : ∃ out, execSecCommit w s = .next out ∧ Kept [.io, .sec] s out := by
  unfold execSecCommit
  try dsimp only
  refine ⟨_, rfl, ?_⟩
  try dsimp only
  repeat' first
    | with_reducible exact Kept.refl _
    | ((with_reducible apply Laws.State.writeSecCtrl_kept); (case mhl => decide))
    | with_reducible apply Kept.ite
    | intro _
    | dsimp only
    | split

end Sys2Proof.Laws
end

