-- ==== Sys2Proof/Laws/KeptTenancy.lean ====
section
/-! SUPPORT. The frame lemma of every operation of Machine/Tenancy.lean: which fields of the state it may change, and that it keeps the canonical
forms. -/

set_option Elab.async false
set_option linter.unusedTactic false
set_option linter.unreachableTactic false
set_option linter.unusedVariables false

namespace Sys2Proof.Laws

open Sys2Proof Sys2Proof.Machine Sys2Proof.Safety

theorem execTenantTeardown_kept (c : Cmd) (s : State) : ∃ out, execTenantTeardown c s = .next out ∧ Kept [.io, .t1, .shed, .stalls, .units, .ops, .mirrors, .contexts, .answers, .windows, .tallies, .aisle, .textCache, .rounds, .net, .sec, .tear] s out := by
  unfold execTenantTeardown
  try dsimp only
  refine ⟨_, rfl, ?_⟩
  try dsimp only
  repeat' first
    | with_reducible exact Kept.refl _
    | ((with_reducible apply Laws.State.beginOp_kept); (case mhl => decide))
    | ((with_reducible apply Laws.State.beginTeardown_kept); (case mhl => decide))
    | ((with_reducible apply Laws.State.runCmd_kept); (case mhl => decide))
    | with_reducible apply Kept.ite
    | intro _
    | dsimp only
    | split

theorem State.writeTnCtrl_frame (s : State) (w : RegWrite) (t : Nat) : Kept [.io] s (State.writeTnCtrl s w t) := by
  unfold State.writeTnCtrl
  try dsimp only
  repeat' first
    | with_reducible exact Kept.refl _
    | ((with_reducible apply Laws.State.enGate_kept); (case mhl => decide))
    | ((with_reducible apply Laws.State.fromPort_kept); (case mhl => decide))
    | ((with_reducible apply Laws.State.put_kept); (case mhl => decide))
    | ((with_reducible apply Kept.iteL); case k => ((repeat' first | with_reducible exact Kept.refl _ | ((with_reducible apply Laws.State.enGate_kept); (case mhl => decide)) | ((with_reducible apply Laws.State.fromPort_kept); (case mhl => decide)) | ((with_reducible apply Laws.State.put_kept); (case mhl => decide)) | with_reducible apply Kept.ite | intro _ | dsimp only | split); done))
    | ((with_reducible apply Kept.iteR); case k => ((repeat' first | with_reducible exact Kept.refl _ | ((with_reducible apply Laws.State.enGate_kept); (case mhl => decide)) | ((with_reducible apply Laws.State.fromPort_kept); (case mhl => decide)) | ((with_reducible apply Laws.State.put_kept); (case mhl => decide)) | with_reducible apply Kept.ite | intro _ | dsimp only | split); done))
    | with_reducible apply Kept.ite
    | intro _
    | dsimp only
    | split
theorem State.writeTnCtrl_kept {ml : List StateField} {mz : State} {s : State} {w : RegWrite} {t : Nat} (mhl : [.io] ⊆ ml) (mh : Kept ml mz s) : Kept ml mz (State.writeTnCtrl s w t) :=
  Kept.after ((State.writeTnCtrl_frame s w t).mono mhl) mh

theorem execTnCtrlWrite_kept (w : RegWrite) (t : Nat) (s : State) : ∃ out, execTnCtrlWrite w t s = .next out ∧ Kept [.io] s out := by
  unfold execTnCtrlWrite
  try dsimp only
  refine ⟨_, rfl, ?_⟩
  try dsimp only
  repeat' first
    | with_reducible exact Kept.refl _
    | ((with_reducible apply Laws.State.writeTnCtrl_kept); (case mhl => decide))
    | with_reducible apply Kept.ite
    | intro _
    | dsimp only
    | split

theorem State.writePart_frame (s : State) (w : RegWrite) (p : Nat) : Kept [.io, .t1, .svChanged] s (State.writePart s w p) := by
  unfold State.writePart
  try dsimp only
  repeat' first
    | with_reducible exact Kept.refl _
    | ((with_reducible apply Laws.State.fromPort_kept); (case mhl => decide))
    | ((with_reducible apply Laws.State.put_kept); (case mhl => decide))
    | ((with_reducible apply Laws.State.survey_kept); (case mhl => decide))
    | ((with_reducible apply Kept.iteL); case k => ((repeat' first | with_reducible exact Kept.refl _ | ((with_reducible apply Laws.State.fromPort_kept); (case mhl => decide)) | ((with_reducible apply Laws.State.put_kept); (case mhl => decide)) | ((with_reducible apply Laws.State.survey_kept); (case mhl => decide)) | with_reducible apply Kept.ite | intro _ | dsimp only | split); done))
    | ((with_reducible apply Kept.iteR); case k => ((repeat' first | with_reducible exact Kept.refl _ | ((with_reducible apply Laws.State.fromPort_kept); (case mhl => decide)) | ((with_reducible apply Laws.State.put_kept); (case mhl => decide)) | ((with_reducible apply Laws.State.survey_kept); (case mhl => decide)) | with_reducible apply Kept.ite | intro _ | dsimp only | split); done))
    | with_reducible apply Kept.ite
    | intro _
    | dsimp only
    | split
theorem State.writePart_kept {ml : List StateField} {mz : State} {s : State} {w : RegWrite} {p : Nat} (mhl : [.io, .t1, .svChanged] ⊆ ml) (mh : Kept ml mz s) : Kept ml mz (State.writePart s w p) :=
  Kept.after ((State.writePart_frame s w p).mono mhl) mh

theorem execSchPartWrite_kept (w : RegWrite) (p : Nat) (s : State) : ∃ out, execSchPartWrite w p s = .next out ∧ Kept [.io, .t1, .svChanged] s out := by
  unfold execSchPartWrite
  try dsimp only
  refine ⟨_, rfl, ?_⟩
  try dsimp only
  repeat' first
    | with_reducible exact Kept.refl _
    | ((with_reducible apply Laws.State.writePart_kept); (case mhl => decide))
    | with_reducible apply Kept.ite
    | intro _
    | dsimp only
    | split

theorem State.writeSlice_frame (s : State) (w : RegWrite) (p : Nat) (e : Option Nat) : Kept [.io, .parts] s (State.writeSlice s w p e) := by
  unfold State.writeSlice
  try dsimp only
  repeat' first
    | with_reducible exact Kept.refl _
    | ((with_reducible apply Laws.State.fromPort_kept); (case mhl => decide))
    | ((with_reducible apply Laws.State.setPart_kept); (case mhl => decide))
    | ((with_reducible apply Laws.State.storePut_kept); (case mhl => decide))
    | ((with_reducible apply Laws.State.store_kept); (case mhl => decide))
    | with_reducible apply Kept.ite
    | (fail_if_no_progress ((with_reducible apply Kept.upd); (case ho => (refine Only.of (fun p hp => ?_) rfl; cases p <;> first | rfl | (refine absurd ?_ hp; decide))); (case hi => (repeat' first | with_reducible exact IoKept.refl _ | with_reducible apply IoKept.ite | with_reducible apply IoKept.foldl | with_reducible apply IoKept.put | with_reducible apply IoKept.filter | (fail_if_no_progress with_reducible apply IoKept.upd) | intro _ | dsimp only | split)); (case ht => exact T1Kept.refl _)))
    | intro _
    | dsimp only
    | split
theorem State.writeSlice_kept {ml : List StateField} {mz : State} {s : State} {w : RegWrite} {p : Nat} {e : Option Nat} (mhl : [.io, .parts] ⊆ ml) (mh : Kept ml mz s) : Kept ml mz (State.writeSlice s w p e) :=
  Kept.after ((State.writeSlice_frame s w p e).mono mhl) mh

theorem execSchSliceWrite_kept (w : RegWrite) (p : Nat) (e : Option Nat) (s : State) : ∃ out, execSchSliceWrite w p e s = .next out ∧ Kept [.io, .parts] s out := by
  unfold execSchSliceWrite
  try dsimp only
  refine ⟨_, rfl, ?_⟩
  try dsimp only
  repeat' first
    | with_reducible exact Kept.refl _
    | ((with_reducible apply Laws.State.writeSlice_kept); (case mhl => decide))
    | with_reducible apply Kept.ite
    | intro _
    | dsimp only
    | split

theorem State.writeLatency_frame (s : State) (w : RegWrite) (t : Nat) : Kept [.io] s (State.writeLatency s w t) := by
  unfold State.writeLatency
  try dsimp only
  repeat' first
    | with_reducible exact Kept.refl _
    | ((with_reducible apply Laws.State.fromPort_kept); (case mhl => decide))
    | ((with_reducible apply Laws.State.put_kept); (case mhl => decide))
    | ((with_reducible apply Laws.State.storePut_kept); (case mhl => decide))
    | with_reducible apply Kept.ite
    | intro _
    | dsimp only
    | split
theorem State.writeLatency_kept {ml : List StateField} {mz : State} {s : State} {w : RegWrite} {t : Nat} (mhl : [.io] ⊆ ml) (mh : Kept ml mz s) : Kept ml mz (State.writeLatency s w t) :=
  Kept.after ((State.writeLatency_frame s w t).mono mhl) mh

theorem execSchLatencyWrite_kept (w : RegWrite) (t : Nat) (s : State) : ∃ out, execSchLatencyWrite w t s = .next out ∧ Kept [.io] s out := by
  unfold execSchLatencyWrite
  try dsimp only
  refine ⟨_, rfl, ?_⟩
  try dsimp only
  repeat' first
    | with_reducible exact Kept.refl _
    | ((with_reducible apply Laws.State.writeLatency_kept); (case mhl => decide))
    | with_reducible apply Kept.ite
    | intro _
    | dsimp only
    | split

theorem State.writeRoundCfg_frame (s : State) (w : RegWrite) (t : Nat) : Kept [.io] s (State.writeRoundCfg s w t) := by
  unfold State.writeRoundCfg
  try dsimp only
  repeat' first
    | with_reducible exact Kept.refl _
    | ((with_reducible apply Laws.State.fromPort_kept); (case mhl => decide))
    | ((with_reducible apply Laws.State.put_kept); (case mhl => decide))
    | with_reducible apply Kept.ite
    | intro _
    | dsimp only
    | split
theorem State.writeRoundCfg_kept {ml : List StateField} {mz : State} {s : State} {w : RegWrite} {t : Nat} (mhl : [.io] ⊆ ml) (mh : Kept ml mz s) : Kept ml mz (State.writeRoundCfg s w t) :=
  Kept.after ((State.writeRoundCfg_frame s w t).mono mhl) mh

theorem State.writeStarve_frame (s : State) (w : RegWrite) : Kept [.io] s (State.writeStarve s w) := by
  unfold State.writeStarve
  try dsimp only
  repeat' first
    | with_reducible exact Kept.refl _
    | ((with_reducible apply Laws.State.fromPort_kept); (case mhl => decide))
    | ((with_reducible apply Laws.State.storePut_kept); (case mhl => decide))
    | with_reducible apply Kept.ite
    | intro _
    | dsimp only
    | split
theorem State.writeStarve_kept {ml : List StateField} {mz : State} {s : State} {w : RegWrite} (mhl : [.io] ⊆ ml) (mh : Kept ml mz s) : Kept ml mz (State.writeStarve s w) :=
  Kept.after ((State.writeStarve_frame s w).mono mhl) mh

theorem State.writeHubThread_frame (s : State) (w : RegWrite) (n : Nat) : Kept [.io] s (State.writeHubThread s w n) := by
  unfold State.writeHubThread
  try dsimp only
  repeat' first
    | with_reducible exact Kept.refl _
    | ((with_reducible apply Laws.State.fromPort_kept); (case mhl => decide))
    | ((with_reducible apply Laws.State.store_kept); (case mhl => decide))
    | with_reducible apply Kept.ite
    | intro _
    | dsimp only
    | split
theorem State.writeHubThread_kept {ml : List StateField} {mz : State} {s : State} {w : RegWrite} {n : Nat} (mhl : [.io] ⊆ ml) (mh : Kept ml mz s) : Kept ml mz (State.writeHubThread s w n) :=
  Kept.after ((State.writeHubThread_frame s w n).mono mhl) mh

theorem State.writePeriod_frame (s : State) (w : RegWrite) : Kept [.io] s (State.writePeriod s w) := by
  unfold State.writePeriod
  try dsimp only
  repeat' first
    | with_reducible exact Kept.refl _
    | ((with_reducible apply Laws.State.fromPort_kept); (case mhl => decide))
    | ((with_reducible apply Laws.State.storePut_kept); (case mhl => decide))
    | with_reducible apply Kept.ite
    | intro _
    | dsimp only
    | split
theorem State.writePeriod_kept {ml : List StateField} {mz : State} {s : State} {w : RegWrite} (mhl : [.io] ⊆ ml) (mh : Kept ml mz s) : Kept ml mz (State.writePeriod s w) :=
  Kept.after ((State.writePeriod_frame s w).mono mhl) mh

theorem execTnPeriodWrite_kept (w : RegWrite) (s : State) : ∃ out, execTnPeriodWrite w s = .next out ∧ Kept [.io] s out := by
  unfold execTnPeriodWrite
  try dsimp only
  refine ⟨_, rfl, ?_⟩
  try dsimp only
  repeat' first
    | with_reducible exact Kept.refl _
    | ((with_reducible apply Laws.State.writePeriod_kept); (case mhl => decide))
    | with_reducible apply Kept.ite
    | intro _
    | dsimp only
    | split

theorem execTnGrantWrite_kept (w : RegWrite) (t : Nat) (s : State) : ∃ out, execTnGrantWrite w t s = .next out ∧ Kept [.io] s out := by
  unfold execTnGrantWrite
  try dsimp only
  refine ⟨_, rfl, ?_⟩
  try dsimp only
  repeat' first
    | with_reducible exact Kept.refl _
    | ((with_reducible apply Laws.State.fromPort_kept); (case mhl => decide))
    | ((with_reducible apply Laws.State.store_kept); (case mhl => decide))
    | with_reducible apply Kept.ite
    | intro _
    | dsimp only
    | split

theorem State.regrant_frame (s : State) (t : Nat) : Kept [.io] s (State.regrant s t) := by
  unfold State.regrant
  try dsimp only
  repeat' first
    | with_reducible exact Kept.refl _
    | ((with_reducible apply Laws.State.put_kept); (case mhl => decide))
    | with_reducible apply Kept.ite
    | intro _
    | dsimp only
    | split
theorem State.regrant_kept {ml : List StateField} {mz : State} {s : State} {t : Nat} (mhl : [.io] ⊆ ml) (mh : Kept ml mz s) : Kept ml mz (State.regrant s t) :=
  Kept.after ((State.regrant_frame s t).mono mhl) mh

theorem State.newPeriod_frame (s : State) : Kept [.stalls, .periodEnd, .emptyRaised] s (State.newPeriod s) := by
  unfold State.newPeriod
  try dsimp only
  repeat' first
    | with_reducible exact Kept.refl _
    | with_reducible apply Kept.ite
    | (fail_if_no_progress ((with_reducible apply Kept.upd); (case ho => (refine Only.of (fun p hp => ?_) rfl; cases p <;> first | rfl | (refine absurd ?_ hp; decide))); (case hi => exact IoKept.refl _); (case ht => exact T1Kept.refl _)))
    | intro _
    | dsimp only
    | split
theorem State.newPeriod_kept {ml : List StateField} {mz : State} {s : State} (mhl : [.stalls, .periodEnd, .emptyRaised] ⊆ ml) (mh : Kept ml mz s) : Kept ml mz (State.newPeriod s) :=
  Kept.after ((State.newPeriod_frame s).mono mhl) mh

theorem execAccountPeriodEnd_kept (s : State) : ∃ out, execAccountPeriodEnd s = .next out ∧ Kept [.io, .stalls, .periodEnd, .emptyRaised] s out := by
  unfold execAccountPeriodEnd
  try dsimp only
  refine ⟨_, rfl, ?_⟩
  try dsimp only
  repeat' first
    | with_reducible exact Kept.refl _
    | ((with_reducible apply Laws.State.bump_kept); (case mhl => decide))
    | ((with_reducible apply Laws.State.newPeriod_kept); (case mhl => decide))
    | ((with_reducible apply Laws.State.regrant_kept); (case mhl => decide))
    | with_reducible apply Kept.ite
    | with_reducible apply Kept.foldl
    | with_reducible apply Kept.foldlFst
    | with_reducible apply Kept.foldlSnd
    | intro _
    | dsimp only
    | split

end Sys2Proof.Laws
end

