-- ==== Sys2Proof/Laws/KeptRegWrite.lean ====
section
/-! SUPPORT. The frame lemma of every operation of Machine/RegWrite.lean: which fields of the state it may change, and that it keeps the canonical
forms. -/

set_option Elab.async false
set_option linter.unusedTactic false
set_option linter.unreachableTactic false
set_option linter.unusedVariables false

namespace Sys2Proof.Laws

open Sys2Proof Sys2Proof.Machine Sys2Proof.Safety

theorem State.writeClipped_frame (s : State) (w : RegWrite) (off : Nat) (fs : List (RegField × (Nat → Nat))) : Kept [.io] s (State.writeClipped s w off fs) := by
  unfold State.writeClipped
  try dsimp only
  repeat' first
    | with_reducible exact Kept.refl _
    | ((with_reducible apply Laws.State.fromPort_kept); (case mhl => decide))
    | ((with_reducible apply Laws.State.put_kept); (case mhl => decide))
    | ((with_reducible apply Laws.State.store_kept); (case mhl => decide))
    | with_reducible apply Kept.ite
    | with_reducible apply Kept.foldl
    | with_reducible apply Kept.foldlFst
    | with_reducible apply Kept.foldlSnd
    | intro _
    | dsimp only
    | split
theorem State.writeClipped_kept {ml : List StateField} {mz : State} {s : State} {w : RegWrite} {off : Nat} {fs : List (RegField × (Nat → Nat))} (mhl : [.io] ⊆ ml) (mh : Kept ml mz s) : Kept ml mz (State.writeClipped s w off fs) :=
  Kept.after ((State.writeClipped_frame s w off fs).mono mhl) mh

theorem State.writeEnable_frame (s : State) (w : RegWrite) (en : RegField) : Kept [.io] s (State.writeEnable s w en) := by
  unfold State.writeEnable
  try dsimp only
  repeat' first
    | with_reducible exact Kept.refl _
    | ((with_reducible apply Laws.State.enGate_kept); (case mhl => decide))
    | ((with_reducible apply Laws.State.fromPort_kept); (case mhl => decide))
    | ((with_reducible apply Laws.State.store_kept); (case mhl => decide))
    | with_reducible apply Kept.ite
    | intro _
    | dsimp only
    | split
theorem State.writeEnable_kept {ml : List StateField} {mz : State} {s : State} {w : RegWrite} {en : RegField} (mhl : [.io] ⊆ ml) (mh : Kept ml mz s) : Kept ml mz (State.writeEnable s w en) :=
  Kept.after ((State.writeEnable_frame s w en).mono mhl) mh

theorem State.writeUnless_frame (s : State) (w : RegWrite) (off : Nat) (closed : State → Bool) : Kept [.io] s (State.writeUnless s w off closed) := by
  unfold State.writeUnless
  try dsimp only
  repeat' first
    | with_reducible exact Kept.refl _
    | ((with_reducible apply Laws.State.fromPort_kept); (case mhl => decide))
    | ((with_reducible apply Laws.State.store_kept); (case mhl => decide))
    | with_reducible apply Kept.ite
    | intro _
    | dsimp only
    | split
theorem State.writeUnless_kept {ml : List StateField} {mz : State} {s : State} {w : RegWrite} {off : Nat} {closed : State → Bool} (mhl : [.io] ⊆ ml) (mh : Kept ml mz s) : Kept ml mz (State.writeUnless s w off closed) :=
  Kept.after ((State.writeUnless_frame s w off closed).mono mhl) mh

theorem State.writeNetPort_frame (s : State) (w : RegWrite) (p : Nat) : Kept [.io, .net] s (State.writeNetPort s w p) := by
  unfold State.writeNetPort
  try dsimp only
  repeat' first
    | with_reducible exact Kept.refl _
    | ((with_reducible apply Laws.State.fromPort_kept); (case mhl => decide))
    | ((with_reducible apply Laws.State.linkLost_kept); (case mhl => decide))
    | ((with_reducible apply Laws.State.put_kept); (case mhl => decide))
    | ((with_reducible apply Laws.State.store_kept); (case mhl => decide))
    | with_reducible apply Kept.ite
    | intro _
    | dsimp only
    | split
theorem State.writeNetPort_kept {ml : List StateField} {mz : State} {s : State} {w : RegWrite} {p : Nat} (mhl : [.io, .net] ⊆ ml) (mh : Kept ml mz s) : Kept ml mz (State.writeNetPort s w p) :=
  Kept.after ((State.writeNetPort_frame s w p).mono mhl) mh

theorem State.writeLane_frame (s : State) (w : RegWrite) (l : Nat) : Kept [.io] s (State.writeLane s w l) := by
  unfold State.writeLane
  try dsimp only
  repeat' first
    | with_reducible exact Kept.refl _
    | ((with_reducible apply Laws.State.writeUnless_kept); (case mhl => decide))
    | with_reducible apply Kept.ite
    | intro _
    | dsimp only
    | split
theorem State.writeLane_kept {ml : List StateField} {mz : State} {s : State} {w : RegWrite} {l : Nat} (mhl : [.io] ⊆ ml) (mh : Kept ml mz s) : Kept ml mz (State.writeLane s w l) :=
  Kept.after ((State.writeLane_frame s w l).mono mhl) mh

theorem State.writeQueueSetup_frame (s : State) (w : RegWrite) (q x : Nat) : Kept [.io] s (State.writeQueueSetup s w q x) := by
  unfold State.writeQueueSetup
  try dsimp only
  repeat' first
    | with_reducible exact Kept.refl _
    | ((with_reducible apply Laws.State.fromPort_kept); (case mhl => decide))
    | ((with_reducible apply Laws.State.put_kept); (case mhl => decide))
    | ((with_reducible apply Laws.State.store_kept); (case mhl => decide))
    | with_reducible apply Kept.ite
    | intro _
    | dsimp only
    | split
theorem State.writeQueueSetup_kept {ml : List StateField} {mz : State} {s : State} {w : RegWrite} {q x : Nat} (mhl : [.io] ⊆ ml) (mh : Kept ml mz s) : Kept ml mz (State.writeQueueSetup s w q x) :=
  Kept.after ((State.writeQueueSetup_frame s w q x).mono mhl) mh

theorem State.writeRingSetup_frame (s : State) (w : RegWrite) (r x : Nat) : Kept [.io] s (State.writeRingSetup s w r x) := by
  unfold State.writeRingSetup
  try dsimp only
  repeat' first
    | with_reducible exact Kept.refl _
    | ((with_reducible apply Laws.State.fromPort_kept); (case mhl => decide))
    | ((with_reducible apply Laws.State.put_kept); (case mhl => decide))
    | ((with_reducible apply Laws.State.store_kept); (case mhl => decide))
    | with_reducible apply Kept.ite
    | intro _
    | dsimp only
    | split
theorem State.writeRingSetup_kept {ml : List StateField} {mz : State} {s : State} {w : RegWrite} {r x : Nat} (mhl : [.io] ⊆ ml) (mh : Kept ml mz s) : Kept ml mz (State.writeRingSetup s w r x) :=
  Kept.after ((State.writeRingSetup_frame s w r x).mono mhl) mh

theorem State.writeQueueReg_frame (s : State) (w : RegWrite) (q x : Nat) : Kept [.io] s (State.writeQueueReg s w q x) := by
  unfold State.writeQueueReg
  try dsimp only
  repeat' first
    | with_reducible exact Kept.refl _
    | ((with_reducible apply Laws.State.fromPort_kept); (case mhl => decide))
    | ((with_reducible apply Laws.State.writeQCtrl_kept); (case mhl => decide))
    | ((with_reducible apply Laws.State.writeQueueSetup_kept); (case mhl => decide))
    | with_reducible apply Kept.ite
    | intro _
    | dsimp only
    | split
theorem State.writeQueueReg_kept {ml : List StateField} {mz : State} {s : State} {w : RegWrite} {q x : Nat} (mhl : [.io] ⊆ ml) (mh : Kept ml mz s) : Kept ml mz (State.writeQueueReg s w q x) :=
  Kept.after ((State.writeQueueReg_frame s w q x).mono mhl) mh

theorem State.writeRingReg_frame (s : State) (w : RegWrite) (r x : Nat) : Kept [.io] s (State.writeRingReg s w r x) := by
  unfold State.writeRingReg
  try dsimp only
  repeat' first
    | with_reducible exact Kept.refl _
    | ((with_reducible apply Laws.State.fromPort_kept); (case mhl => decide))
    | ((with_reducible apply Laws.State.writeRingCtrl_kept); (case mhl => decide))
    | ((with_reducible apply Laws.State.writeRingHead_kept); (case mhl => decide))
    | ((with_reducible apply Laws.State.writeRingSetup_kept); (case mhl => decide))
    | ((with_reducible apply Kept.iteL); case k => ((repeat' first | with_reducible exact Kept.refl _ | ((with_reducible apply Laws.State.fromPort_kept); (case mhl => decide)) | ((with_reducible apply Laws.State.writeRingCtrl_kept); (case mhl => decide)) | ((with_reducible apply Laws.State.writeRingHead_kept); (case mhl => decide)) | ((with_reducible apply Laws.State.writeRingSetup_kept); (case mhl => decide)) | with_reducible apply Kept.ite | intro _ | dsimp only | split); done))
    | ((with_reducible apply Kept.iteR); case k => ((repeat' first | with_reducible exact Kept.refl _ | ((with_reducible apply Laws.State.fromPort_kept); (case mhl => decide)) | ((with_reducible apply Laws.State.writeRingCtrl_kept); (case mhl => decide)) | ((with_reducible apply Laws.State.writeRingHead_kept); (case mhl => decide)) | ((with_reducible apply Laws.State.writeRingSetup_kept); (case mhl => decide)) | with_reducible apply Kept.ite | intro _ | dsimp only | split); done))
    | with_reducible apply Kept.ite
    | intro _
    | dsimp only
    | split
theorem State.writeRingReg_kept {ml : List StateField} {mz : State} {s : State} {w : RegWrite} {r x : Nat} (mhl : [.io] ⊆ ml) (mh : Kept ml mz s) : Kept ml mz (State.writeRingReg s w r x) :=
  Kept.after ((State.writeRingReg_frame s w r x).mono mhl) mh

theorem State.writeGateList_frame (s : State) (w : RegWrite) (p off : Nat) : Kept [.io] s (State.writeGateList s w p off) := by
  unfold State.writeGateList
  try dsimp only
  repeat' first
    | with_reducible exact Kept.refl _
    | ((with_reducible apply Laws.State.writeUnless_kept); (case mhl => decide))
    | with_reducible apply Kept.ite
    | intro _
    | dsimp only
    | split
theorem State.writeGateList_kept {ml : List StateField} {mz : State} {s : State} {w : RegWrite} {p off : Nat} (mhl : [.io] ⊆ ml) (mh : Kept ml mz s) : Kept ml mz (State.writeGateList s w p off) :=
  Kept.after ((State.writeGateList_frame s w p off).mono mhl) mh

theorem effectArrays_kept : ∀ a ∈ effectArrays, ∀ s w i, Kept [.io, .t1, .units, .contexts, .tallies, .textCache, .parts, .svChanged, .net, .sec, .ck] s (a.2.2 s w i) := by
  unfold effectArrays
  refine List.forall_mem_cons.2 ⟨fun s w i => State.writeKvShape_kept (by decide) (Kept.refl _), ?_⟩
  refine List.forall_mem_cons.2 ⟨fun s w i => State.writeText_kept (by decide) (Kept.refl _), ?_⟩
  refine List.forall_mem_cons.2 ⟨fun s w i => State.writeClipped_kept (by decide) (Kept.refl _), ?_⟩
  refine List.forall_mem_cons.2 ⟨fun s w i => State.writeHubThread_kept (by decide) (Kept.refl _), ?_⟩
  refine List.forall_mem_cons.2 ⟨fun s w i => State.writePart_kept (by decide) (Kept.refl _), ?_⟩
  refine List.forall_mem_cons.2 ⟨fun s w i => State.writeSlice_kept (by decide) (Kept.refl _), ?_⟩
  refine List.forall_mem_cons.2 ⟨fun s w i => State.writeSlice_kept (by decide) (Kept.refl _), ?_⟩
  refine List.forall_mem_cons.2 ⟨fun s w i => State.writeRoundCfg_kept (by decide) (Kept.refl _), ?_⟩
  refine List.forall_mem_cons.2 ⟨fun s w i => State.writeLatency_kept (by decide) (Kept.refl _), ?_⟩
  refine List.forall_mem_cons.2 ⟨fun s w i => State.writeTnCtrl_kept (by decide) (Kept.refl _), ?_⟩
  refine List.forall_mem_cons.2 ⟨fun s w i => State.writePortBind_kept (by decide) (Kept.refl _), ?_⟩
  refine List.forall_mem_cons.2 ⟨fun s w i => State.writeBind_kept (by decide) (Kept.refl _), ?_⟩
  refine List.forall_mem_cons.2 ⟨fun s w i => State.writeNetPort_kept (by decide) (Kept.refl _), ?_⟩
  refine List.forall_mem_cons.2 ⟨fun s w i => State.writeLane_kept (by decide) (Kept.refl _), ?_⟩
  refine List.forall_mem_cons.2 ⟨fun s w i => State.writeGateCtrl_kept (by decide) (Kept.refl _), ?_⟩
  refine List.forall_mem_cons.2 ⟨fun s w i => State.writeGateList_kept (by decide) (Kept.refl _), ?_⟩
  refine List.forall_mem_cons.2 ⟨fun s w i => State.writeGateList_kept (by decide) (Kept.refl _), ?_⟩
  refine List.forall_mem_cons.2 ⟨fun s w i => State.writeRate_kept (by decide) (Kept.refl _), ?_⟩
  refine List.forall_mem_cons.2 ⟨fun s w i => State.writeRate_kept (by decide) (Kept.refl _), ?_⟩
  refine List.forall_mem_cons.2 ⟨fun s w i => State.writeSecMacsec_kept (by decide) (Kept.refl _), ?_⟩
  refine List.forall_mem_cons.2 ⟨fun s w i => State.writeSecTnet_kept (by decide) (Kept.refl _), ?_⟩
  refine List.forall_mem_cons.2 ⟨fun s w i => State.writeUnless_kept (by decide) (Kept.refl _), ?_⟩
  refine List.forall_mem_cons.2 ⟨fun s w i => State.writePace_kept (by decide) (Kept.refl _), ?_⟩
  refine List.forall_mem_cons.2 ⟨fun s w i => State.writePaceCtl_kept (by decide) (Kept.refl _), ?_⟩
  refine List.forall_mem_cons.2 ⟨fun s w i => State.writeGate_kept (by decide) (Kept.refl _), ?_⟩
  refine List.forall_mem_cons.2 ⟨fun s w i => State.writeEvMask_kept (by decide) (Kept.refl _), ?_⟩
  refine List.forall_mem_cons.2 ⟨fun s w i => State.writeRingReg_kept (by decide) (Kept.refl _), ?_⟩
  refine List.forall_mem_cons.2 ⟨fun s w i => State.writeRingReg_kept (by decide) (Kept.refl _), ?_⟩
  refine List.forall_mem_cons.2 ⟨fun s w i => State.writeQueueReg_kept (by decide) (Kept.refl _), ?_⟩
  refine List.forall_mem_cons.2 ⟨fun s w i => State.writeQueueReg_kept (by decide) (Kept.refl _), ?_⟩
  exact List.forall_mem_nil _
theorem State.writeArrays_frame (s : State) (w : RegWrite) (off : Nat) {v0 : State} (me : State.writeArrays s w off = some v0) : Kept [.io, .t1, .units, .contexts, .tallies, .textCache, .parts, .svChanged, .net, .sec, .ck] s v0 := by
  unfold State.writeArrays at me
  obtain ⟨a, ha, me⟩ := List.exists_of_findSome?_eq_some me
  split at me
  · contradiction
  · rw [Option.map_eq_some_iff] at me
    obtain ⟨i, _, me⟩ := me
    rw [← me]
    exact effectArrays_kept a ha s w _
theorem State.writeArrays_kept {ml : List StateField} {mz : State} {s : State} {w : RegWrite} {off : Nat} {v0 : State} (mhl : [.io, .t1, .units, .contexts, .tallies, .textCache, .parts, .svChanged, .net, .sec, .ck] ⊆ ml) (me : State.writeArrays s w off = some v0) (mh : Kept ml mz s) : Kept ml mz v0 :=
  Kept.after ((State.writeArrays_frame s w off me).mono mhl) mh

theorem effectRegs_kept : ∀ a ∈ effectRegs, ∀ s w, Kept [.io, .yt, .t1, .shed, .prefetch, .stalls, .units, .ops, .mirrors, .redirects, .cp, .cpSlots, .contexts, .answers, .tallies, .textCache, .rounds, .parts, .svChanged, .periodEnd, .net, .sec, .ck, .bu, .freeIdx] s (a.2 s w) := by
  unfold effectRegs
  refine List.forall_mem_cons.2 ⟨fun s w => State.writeStlCtrl_kept (by decide) (Kept.refl _), ?_⟩
  refine List.forall_mem_cons.2 ⟨fun s w => State.writeDirtyLimit_kept (by decide) (Kept.refl _), ?_⟩
  refine List.forall_mem_cons.2 ⟨fun s w => State.writePfCtrl_kept (by decide) (Kept.refl _), ?_⟩
  refine List.forall_mem_cons.2 ⟨fun s w => State.writeVsCtrl_kept (by decide) (Kept.refl _), ?_⟩
  refine List.forall_mem_cons.2 ⟨fun s w => State.writeMergeAt_kept (by decide) (Kept.refl _), ?_⟩
  refine List.forall_mem_cons.2 ⟨fun s w => State.writeSchCtxCtrl_kept (by decide) (Kept.refl _), ?_⟩
  refine List.forall_mem_cons.2 ⟨fun s w => State.writeStarve_kept (by decide) (Kept.refl _), ?_⟩
  refine List.forall_mem_cons.2 ⟨fun s w => State.writePeriod_kept (by decide) (Kept.refl _), ?_⟩
  refine List.forall_mem_cons.2 ⟨fun s w => State.writePortCtrl_kept (by decide) (Kept.refl _), ?_⟩
  refine List.forall_mem_cons.2 ⟨fun s w => State.writeNwCtrl_kept (by decide) (Kept.refl _), ?_⟩
  refine List.forall_mem_cons.2 ⟨fun s w => State.writeFlowSel_kept (by decide) (Kept.refl _), ?_⟩
  refine List.forall_mem_cons.2 ⟨fun s w => State.writeYtCtrl_kept (by decide) (Kept.refl _), ?_⟩
  refine List.forall_mem_cons.2 ⟨fun s w => State.writeLockLimit_kept (by decide) (Kept.refl _), ?_⟩
  refine List.forall_mem_cons.2 ⟨fun s w => State.writeHostSig_kept (by decide) (Kept.refl _), ?_⟩
  refine List.forall_mem_cons.2 ⟨fun s w => State.writeSnapSel_kept (by decide) (Kept.refl _), ?_⟩
  refine List.forall_mem_cons.2 ⟨fun s w => State.writeSecCtrl_kept (by decide) (Kept.refl _), ?_⟩
  refine List.forall_mem_cons.2 ⟨fun s w => State.writeBuCtrl_kept (by decide) (Kept.refl _), ?_⟩
  refine List.forall_mem_cons.2 ⟨fun s w => State.writeLoadCmd_kept (by decide) (Kept.refl _), ?_⟩
  refine List.forall_mem_cons.2 ⟨fun s w => State.writeCkCtrl_kept (by decide) (Kept.refl _), ?_⟩
  refine List.forall_mem_cons.2 ⟨fun s w => State.writeFmeas_kept (by decide) (Kept.refl _), ?_⟩
  refine List.forall_mem_cons.2 ⟨fun s w => State.writePwCtrl_kept (by decide) (Kept.refl _), ?_⟩
  refine List.forall_mem_cons.2 ⟨fun s w => State.writeCpCtrl_kept (by decide) (Kept.refl _), ?_⟩
  refine List.forall_mem_cons.2 ⟨fun s w => State.writeLogAck_kept (by decide) (Kept.refl _), ?_⟩
  exact List.forall_mem_nil _
theorem State.writeRegister_frame (s : State) (w : RegWrite) (off : Nat) : Kept [.io, .yt, .t1, .shed, .prefetch, .stalls, .units, .ops, .mirrors, .redirects, .cp, .cpSlots, .contexts, .answers, .tallies, .textCache, .rounds, .parts, .svChanged, .periodEnd, .net, .sec, .ck, .bu, .freeIdx] s (State.writeRegister s w off) := by
  unfold State.writeRegister
  split
  · next e he => exact effectRegs_kept e (List.mem_of_find?_eq_some he) s w
  split
  · exact State.writeClipped_kept (by decide) (Kept.refl _)
  split
  · exact State.writeEnable_kept (by decide) (Kept.refl _)
  · cases he : s.writeArrays w off with
    | none => exact State.fromPort_kept (by decide) (fun a => State.store_kept (by decide) (Kept.refl _)) (Kept.refl _)
    | some t => exact State.writeArrays_kept (by decide) he (Kept.refl _)
theorem State.writeRegister_kept {ml : List StateField} {mz : State} {s : State} {w : RegWrite} {off : Nat} (mhl : [.io, .yt, .t1, .shed, .prefetch, .stalls, .units, .ops, .mirrors, .redirects, .cp, .cpSlots, .contexts, .answers, .tallies, .textCache, .rounds, .parts, .svChanged, .periodEnd, .net, .sec, .ck, .bu, .freeIdx] ⊆ ml) (mh : Kept ml mz s) : Kept ml mz (State.writeRegister s w off) :=
  Kept.after ((State.writeRegister_frame s w off).mono mhl) mh

theorem execRegisterWrite_kept (w : RegWrite) (off : Nat) (s : State) : ∃ out, execRegisterWrite w off s = .next out ∧ Kept [.io, .yt, .t1, .shed, .prefetch, .stalls, .units, .ops, .mirrors, .redirects, .cp, .cpSlots, .contexts, .answers, .tallies, .textCache, .rounds, .parts, .svChanged, .periodEnd, .net, .sec, .ck, .bu, .freeIdx] s out := by
  unfold execRegisterWrite
  try dsimp only
  refine ⟨_, rfl, ?_⟩
  try dsimp only
  repeat' first
    | with_reducible exact Kept.refl _
    | ((with_reducible apply Laws.State.writeRegister_kept); (case mhl => decide))
    | with_reducible apply Kept.ite
    | intro _
    | dsimp only
    | split

end Sys2Proof.Laws
end

