-- ==== Sys2Proof/Laws/Exec.lean ====
section
/-! SUPPORT. Every command ends in a next state that differs in the fields of its row only and keeps the canonical forms. -/

namespace Sys2Proof.Laws

open Sys2Proof Sys2Proof.Machine Sys2Proof.Safety

/-- What every command does: it answers a next state, and writes the fields of its row only. -/
theorem exec_kept (c : Instr) (s : State) : ∃ t, exec c s = .next t ∧ Kept (touches c) s t := by
  cases c with
  | stallCreate x0 => exact execStallCreate_kept x0 s
  | stallQuery x0 => exact execStallQuery_kept x0 s
  | stallConfig x0 => exact execStallConfig_kept x0 s
  | stallPark x0 => exact execStallPark_kept x0 s
  | parkWritesDone x0 => exact execParkWritesDone_kept x0 s
  | stallRevive x0 => exact execStallRevive_kept x0 s
  | reviveReadsDone x0 x1 x2 => exact execReviveReadsDone_kept x0 x1 x2 s
  | reviveRetry x0 => exact execReviveRetry_kept x0 s
  | stallMigrate x0 => exact execStallMigrate_kept x0 s
  | stallResume x0 => exact execStallResume_kept x0 s
  | stallRetire x0 => exact execStallRetire_kept x0 s
  | stallFree x0 => exact execStallFree_kept x0 s
  | retireHoldExpiry x0 => exact execRetireHoldExpiry_kept x0 s
  | stallForget x0 => exact execStallForget_kept x0 s
  | booksAudit x0 => exact execBooksAudit_kept x0 s
  | booksAuditCompare x0 => exact execBooksAuditCompare_kept x0 s
  | waitTimeout x0 => exact execWaitTimeout_kept x0 s
  | journalRecordWrite x0 x1 x2 => exact execJournalRecordWrite_kept x0 x1 x2 s
  | compositionPoint x0 x1 => exact execCompositionPoint_kept x0 x1 s
  | layerRelocateDone x0 x1 => exact execLayerRelocateDone_kept x0 x1 s
  | roundLaunch x0 => exact execRoundLaunch_kept x0 s
  | roundEnd x0 => exact execRoundEnd_kept x0 s
  | resultReceived x0 => exact execResultReceived_kept x0 s
  | announceReceived x0 => exact execAnnounceReceived_kept x0 s
  | prepareReceived x0 x1 => exact execPrepareReceived_kept x0 x1 s
  | preparedReceived x0 => exact execPreparedReceived_kept x0 s
  | commitReceived x0 => exact execCommitReceived_kept x0 s
  | committedReceived x0 => exact execCommittedReceived_kept x0 s
  | abortReceived x0 => exact execAbortReceived_kept x0 s
  | sourcePrepLeaseExpiry x0 => exact execSourcePrepLeaseExpiry_kept x0 s
  | sourceCommitLeaseExpiry x0 => exact execSourceCommitLeaseExpiry_kept x0 s
  | destLeaseExpiry x0 => exact execDestLeaseExpiry_kept x0 s
  | ownerQueryRetry x0 => exact execOwnerQueryRetry_kept x0 s
  | leaseRenewSend x0 => exact execLeaseRenewSend_kept x0 s
  | leaseRenewReceived x0 => exact execLeaseRenewReceived_kept x0 s
  | fetchReceived x0 => exact execFetchReceived_kept x0 s
  | fetchRefusedReceived x0 => exact execFetchRefusedReceived_kept x0 s
  | redirectReceived x0 => exact execRedirectReceived_kept x0 s
  | ownerQueryReceived x0 => exact execOwnerQueryReceived_kept x0 s
  | ownerAnswerReceived x0 => exact execOwnerAnswerReceived_kept x0 s
  | orphanTimeout x0 => exact execOrphanTimeout_kept x0 s
  | ownerNoticeReceived x0 => exact execOwnerNoticeReceived_kept x0 s
  | stCmd x0 => exact execStCmd_kept x0 s
  | stQuant x0 => exact execStQuant_kept x0 s
  | stAppend x0 => exact execStAppend_kept x0 s
  | stRd x0 => exact execStRd_kept x0 s
  | stLen x0 => exact execStLen_kept x0 s
  | stCommit x0 => exact execStCommit_kept x0 s
  | stAbandon x0 => exact execStAbandon_kept x0 s
  | grMaskReady x0 x1 => exact execGrMaskReady_kept x0 x1 s
  | outputQueueRoom x0 => exact execOutputQueueRoom_kept x0 s
  | textBind x0 => exact execTextBind_kept x0 s
  | txCfgWrite x0 x1 => exact execTxCfgWrite_kept x0 x1 s
  | txTWrite x0 x1 x2 => exact execTxTWrite_kept x0 x1 x2 s
  | select x0 => exact execSelect_kept x0 s
  | vsInit x0 => exact execVsInit_kept x0 s
  | vsInsert x0 => exact execVsInsert_kept x0 s
  | vsDelete x0 => exact execVsDelete_kept x0 s
  | vsQuery x0 => exact execVsQuery_kept x0 s
  | vsMerge x0 => exact execVsMerge_kept x0 s
  | vsMergeStart x0 => exact execVsMergeStart_kept x0 s
  | vsMergeCommit x0 => exact execVsMergeCommit_kept x0 s
  | memScrub x0 => exact execMemScrub_kept x0 s
  | shedCompact x0 => exact execShedCompact_kept x0 s
  | memSpare x0 => exact execMemSpare_kept x0 s
  | patrolScrubBlock x0 x1 x2 x3 => exact execPatrolScrubBlock_kept x0 x1 x2 x3 s
  | channelCopyDone x0 => exact execChannelCopyDone_kept x0 s
  | evacTimeExpiry x0 x1 => exact execEvacTimeExpiry_kept x0 x1 s
  | shedPortTrain => exact execShedPortTrain_kept s
  | shedPortTrainDone x0 x1 => exact execShedPortTrainDone_kept x0 x1 s
  | shedWearMove x0 => exact execShedWearMove_kept x0 s
  | shedReadDisturbMove x0 x1 x2 x3 => exact execShedReadDisturbMove_kept x0 x1 x2 x3 s
  | shedScrub x0 x1 => exact execShedScrub_kept x0 x1 s
  | pfEnable x0 => exact execPfEnable_kept x0 s
  | pfLayerStart x0 x1 => exact execPfLayerStart_kept x0 x1 s
  | pfObjectArrived x0 x1 => exact execPfObjectArrived_kept x0 x1 s
  | ctxLoad x0 => exact execCtxLoad_kept x0 s
  | ctxLaunch x0 => exact execCtxLaunch_kept x0 s
  | ctxStop x0 => exact execCtxStop_kept x0 s
  | ctxQuery x0 => exact execCtxQuery_kept x0 s
  | ctxFree x0 => exact execCtxFree_kept x0 s
  | contextLaunchAt x0 => exact execContextLaunchAt_kept x0 s
  | runLimitExpiry x0 => exact execRunLimitExpiry_kept x0 s
  | sliceEntryStart x0 => exact execSliceEntryStart_kept x0 s
  | switchWindowOpen x0 => exact execSwitchWindowOpen_kept x0 s
  | ctNop x0 => exact execCtNop_kept x0 s
  | ctBr x0 => exact execCtBr_kept x0 s
  | ctJmp x0 => exact execCtJmp_kept x0 s
  | ctCall x0 => exact execCtCall_kept x0 s
  | ctRet x0 => exact execCtRet_kept x0 s
  | ctLoop x0 => exact execCtLoop_kept x0 s
  | ctHalt x0 => exact execCtHalt_kept x0 s
  | ctTrap x0 => exact execCtTrap_kept x0 s
  | ctCmp x0 => exact execCtCmp_kept x0 s
  | ctPlog x0 => exact execCtPlog_kept x0 s
  | syFence x0 => exact execSyFence_kept x0 s
  | sySig x0 => exact execSySig_kept x0 s
  | syWait x0 => exact execSyWait_kept x0 s
  | tallyWaitTimeout x0 => exact execTallyWaitTimeout_kept x0 s
  | syAt x0 => exact execSyAt_kept x0 s
  | syAtResume x0 x1 => exact execSyAtResume_kept x0 x1 s
  | syYt x0 => exact execSyYt_kept x0 s
  | mvLi x0 => exact execMvLi_kept x0 s
  | mvMov x0 => exact execMvMov_kept x0 s
  | mvAdd x0 => exact execMvAdd_kept x0 s
  | mvSub x0 => exact execMvSub_kept x0 s
  | mvMul x0 => exact execMvMul_kept x0 s
  | mvAnd x0 => exact execMvAnd_kept x0 s
  | mvOr x0 => exact execMvOr_kept x0 s
  | mvXor x0 => exact execMvXor_kept x0 s
  | mvShl x0 => exact execMvShl_kept x0 s
  | mvShr x0 => exact execMvShr_kept x0 s
  | mvSra x0 => exact execMvSra_kept x0 s
  | mvMinu x0 => exact execMvMinu_kept x0 s
  | mvMaxu x0 => exact execMvMaxu_kept x0 s
  | mvMins x0 => exact execMvMins_kept x0 s
  | mvMaxs x0 => exact execMvMaxs_kept x0 s
  | mvLd x0 => exact execMvLd_kept x0 s
  | mvSt x0 => exact execMvSt_kept x0 s
  | mvTile x0 => exact execMvTile_kept x0 s
  | mvTget x0 => exact execMvTget_kept x0 s
  | mvCopy x0 => exact execMvCopy_kept x0 s
  | mvBcast x0 => exact execMvBcast_kept x0 s
  | mvGetl x0 => exact execMvGetl_kept x0 s
  | mvSetl x0 => exact execMvSetl_kept x0 s
  | mvSend x0 => exact execMvSend_kept x0 s
  | mvRecv x0 => exact execMvRecv_kept x0 s
  | aisleMessageArrive x0 => exact execAisleMessageArrive_kept x0 s
  | mxMma x0 => exact execMxMma_kept x0 s
  | mxLd x0 => exact execMxLd_kept x0 s
  | mxSt x0 => exact execMxSt_kept x0 s
  | mxZero x0 => exact execMxZero_kept x0 s
  | vxFma x0 => exact execVxFma_kept x0 s
  | vxAdd x0 => exact execVxAdd_kept x0 s
  | vxSub x0 => exact execVxSub_kept x0 s
  | vxMul x0 => exact execVxMul_kept x0 s
  | vxMax x0 => exact execVxMax_kept x0 s
  | vxMin x0 => exact execVxMin_kept x0 s
  | vxNeg x0 => exact execVxNeg_kept x0 s
  | vxAbs x0 => exact execVxAbs_kept x0 s
  | vxExp x0 => exact execVxExp_kept x0 s
  | vxLog x0 => exact execVxLog_kept x0 s
  | vxRcp x0 => exact execVxRcp_kept x0 s
  | vxRsqrt x0 => exact execVxRsqrt_kept x0 s
  | vxRedSum x0 => exact execVxRedSum_kept x0 s
  | vxRedMax x0 => exact execVxRedMax_kept x0 s
  | vxRedMin x0 => exact execVxRedMin_kept x0 s
  | vxCvt x0 => exact execVxCvt_kept x0 s
  | vxRa x0 => exact execVxRa_kept x0 s
  | vxWa x0 => exact execVxWa_kept x0 s
  | vxIns x0 => exact execVxIns_kept x0 s
  | vxLmerge x0 => exact execVxLmerge_kept x0 s
  | vxLget x0 => exact execVxLget_kept x0 s
  | vxLnext x0 => exact execVxLnext_kept x0 s
  | vxLclr x0 => exact execVxLclr_kept x0 s
  | txTok x0 => exact execTxTok_kept x0 s
  | txDetok x0 => exact execTxDetok_kept x0 s
  | txStop x0 => exact execTxStop_kept x0 s
  | txCall x0 => exact execTxCall_kept x0 s
  | txBind x0 => exact execTxBind_kept x0 s
  | grMask x0 => exact execGrMask_kept x0 s
  | grAdv x0 => exact execGrAdv_kept x0 s
  | slMerge x0 => exact execSlMerge_kept x0 s
  | slGather x0 => exact execSlGather_kept x0 s
  | slDraw x0 x1 => exact execSlDraw_kept x0 x1 s
  | slRand x0 => exact execSlRand_kept x0 s
  | vsCmd x0 => exact execVsCmd_kept x0 s
  | nwSend x0 => exact execNwSend_kept x0 s
  | nwRecv x0 => exact execNwRecv_kept x0 s
  | nwRecvTimeout x0 x1 => exact execNwRecvTimeout_kept x0 x1 s
  | scLaunch x0 => exact execScLaunch_kept x0 s
  | scRound x0 => exact execScRound_kept x0 s
  | scStop x0 => exact execScStop_kept x0 s
  | eRequestComplete x0 => exact execERequestComplete_kept x0 s
  | tenantTeardown x0 => exact execTenantTeardown_kept x0 s
  | tnCtrlWrite x0 x1 => exact execTnCtrlWrite_kept x0 x1 s
  | schPartWrite x0 x1 => exact execSchPartWrite_kept x0 x1 s
  | schSliceWrite x0 x1 x2 => exact execSchSliceWrite_kept x0 x1 x2 s
  | schLatencyWrite x0 x1 => exact execSchLatencyWrite_kept x0 x1 s
  | accountPeriodEnd => exact execAccountPeriodEnd_kept s
  | tnPeriodWrite x0 => exact execTnPeriodWrite_kept x0 s
  | tnGrantWrite x0 x1 => exact execTnGrantWrite_kept x0 x1 s
  | nop x0 => exact execNop_kept x0 s
  | opQuery x0 => exact execOpQuery_kept x0 s
  | opSuspend x0 => exact execOpSuspend_kept x0 s
  | opResume x0 => exact execOpResume_kept x0 s
  | opCancel x0 => exact execOpCancel_kept x0 s
  | opRelease x0 => exact execOpRelease_kept x0 s
  | opSafePoint x0 => exact execOpSafePoint_kept x0 s
  | opHoldExpiry x0 => exact execOpHoldExpiry_kept x0 s
  | tier1Alloc x0 => exact execTier1Alloc_kept x0 s
  | tier1Free x0 => exact execTier1Free_kept x0 s
  | tier1Write x0 => exact execTier1Write_kept x0 s
  | tier1Read x0 => exact execTier1Read_kept x0 s
  | portDetach x0 => exact execPortDetach_kept x0 s
  | sqTailDoorbell x0 x1 x2 => exact execSqTailDoorbell_kept x0 x1 x2 s
  | cqHeadDoorbell x0 x1 x2 => exact execCqHeadDoorbell_kept x0 x1 x2 s
  | qCtrlWrite x0 x1 => exact execQCtrlWrite_kept x0 x1 s
  | queueIdle x0 => exact execQueueIdle_kept x0 s
  | commandFetch x0 x1 => exact execCommandFetch_kept x0 x1 s
  | msixCoalesceExpiry x0 => exact execMsixCoalesceExpiry_kept x0 s
  | gcPortBindWrite x0 x1 x2 => exact execGcPortBindWrite_kept x0 x1 x2 s
  | hostLinkUp x0 x1 x2 => exact execHostLinkUp_kept x0 x1 x2 s
  | hostLinkLoss x0 => exact execHostLinkLoss_kept x0 s
  | functionLevelReset x0 => exact execFunctionLevelReset_kept x0 s
  | d3hotEntry x0 => exact execD3hotEntry_kept x0 s
  | d0Return x0 => exact execD0Return_kept x0 s
  | fatalEvent x0 => exact execFatalEvent_kept x0 s
  | spdmRequest x0 => exact execSpdmRequest_kept x0 s
  | tdispLockInterface x0 => exact execTdispLockInterface_kept x0 s
  | mstDatagramReceive x0 x1 => exact execMstDatagramReceive_kept x0 x1 s
  | ackReceived x0 => exact execAckReceived_kept x0 s
  | acceptReceived x0 => exact execAcceptReceived_kept x0 s
  | retransmitTimer x0 x1 => exact execRetransmitTimer_kept x0 x1 s
  | acceptTimer x0 => exact execAcceptTimer_kept x0 s
  | endpointTimeout x0 x1 => exact execEndpointTimeout_kept x0 x1 s
  | waggleReceived x0 => exact execWaggleReceived_kept x0 s
  | waggleRefuseReceived x0 => exact execWaggleRefuseReceived_kept x0 s
  | helloSend => exact execHelloSend_kept s
  | helloReceived x0 => exact execHelloReceived_kept x0 s
  | memberMissTimeout x0 => exact execMemberMissTimeout_kept x0 s
  | portTransmit x0 => exact execPortTransmit_kept x0 s
  | tsRefillTick => exact execTsRefillTick_kept s
  | tsRateWrite x0 x1 x2 x3 x4 => exact execTsRateWrite_kept x0 x1 x2 x3 x4 s
  | gateEntryBoundary x0 => exact execGateEntryBoundary_kept x0 s
  | gateLoad x0 x1 => exact execGateLoad_kept x0 x1 s
  | gateCancel x0 x1 => exact execGateCancel_kept x0 x1 s
  | gateTakeover x0 => exact execGateTakeover_kept x0 s
  | mapSet x0 => exact execMapSet_kept x0 s
  | laneSpare x0 => exact execLaneSpare_kept x0 s
  | netLaneFail x0 x1 => exact execNetLaneFail_kept x0 x1 s
  | netLinkUp x0 => exact execNetLinkUp_kept x0 s
  | netLinkDown x0 => exact execNetLinkDown_kept x0 s
  | neighborSolicitation x0 x1 => exact execNeighborSolicitation_kept x0 x1 s
  | icmpEchoRequest x0 x1 x2 => exact execIcmpEchoRequest_kept x0 x1 x2 s
  | ptpMessage x0 => exact execPtpMessage_kept x0 s
  | macsecFrame x0 x1 => exact execMacsecFrame_kept x0 x1 s
  | ytRun x0 => exact execYtRun_kept x0 s
  | ytTick => exact execYtTick_kept s
  | ppsEdge => exact execPpsEdge_kept s
  | ppsMissing => exact execPpsMissing_kept s
  | tlHostSig x0 => exact execTlHostSig_kept x0 s
  | tlBindWrite x0 x1 => exact execTlBindWrite_kept x0 x1 s
  | tlSnapSelWrite x0 => exact execTlSnapSelWrite_kept x0 s
  | nwFlowSelWrite x0 => exact execNwFlowSelWrite_kept x0 s
  | secKeyLoad x0 => exact execSecKeyLoad_kept x0 s
  | secKeyClear x0 => exact execSecKeyClear_kept x0 s
  | secModelImport x0 => exact execSecModelImport_kept x0 s
  | secCertLoad x0 => exact execSecCertLoad_kept x0 s
  | secScrubCert x0 => exact execSecScrubCert_kept x0 s
  | secRandom x0 => exact execSecRandom_kept x0 s
  | entropyHealthFail => exact execEntropyHealthFail_kept s
  | secCommit x0 => exact execSecCommit_kept x0 s
  | stlCommit x0 => exact execStlCommit_kept x0 s
  | schCtxCommit x0 => exact execSchCtxCommit_kept x0 s
  | nwCommit x0 => exact execNwCommit_kept x0 s
  | shCommit x0 => exact execShCommit_kept x0 s
  | pfCommit x0 => exact execPfCommit_kept x0 s
  | gcPortCommit x0 => exact execGcPortCommit_kept x0 s
  | ytCommit x0 => exact execYtCommit_kept x0 s
  | ckCommit x0 => exact execCkCommit_kept x0 s
  | pwCommit x0 => exact execPwCommit_kept x0 s
  | cpCommit x0 => exact execCpCommit_kept x0 s
  | stlDirtyLimitWrite x0 => exact execStlDirtyLimitWrite_kept x0 s
  | kvShapeWrite x0 x1 => exact execKvShapeWrite_kept x0 x1 s
  | devRstRelease => exact execDevRstRelease_kept s
  | romDone x0 => exact execRomDone_kept x0 s
  | buLoadStart x0 => exact execBuLoadStart_kept x0 s
  | buLoadDone x0 => exact execBuLoadDone_kept x0 s
  | buGo x0 => exact execBuGo_kept x0 s
  | buTrainDone x0 => exact execBuTrainDone_kept x0 s
  | buTestDone x0 x1 => exact execBuTestDone_kept x0 x1 s
  | buReadyReq x0 => exact execBuReadyReq_kept x0 s
  | buStepTimeout x0 => exact execBuStepTimeout_kept x0 s
  | monitorWindowEnd x0 => exact execMonitorWindowEnd_kept x0 s
  | missingEdge x0 => exact execMissingEdge_kept x0 s
  | ckReturn x0 => exact execCkReturn_kept x0 s
  | ckRateClr x0 => exact execCkRateClr_kept x0 s
  | fmeasStart x0 => exact execFmeasStart_kept x0 s
  | fmeasDone x0 => exact execFmeasDone_kept x0 s
  | ckPaceWrite x0 x1 => exact execCkPaceWrite_kept x0 x1 s
  | paceTargetChange x0 x1 => exact execPaceTargetChange_kept x0 x1 s
  | pacePoll x0 x1 => exact execPacePoll_kept x0 x1 s
  | paceSettleTimeout x0 => exact execPaceSettleTimeout_kept x0 s
  | avsbusDone x0 x1 => exact execAvsbusDone_kept x0 x1 s
  | gateIdleSleep x0 => exact execGateIdleSleep_kept x0 s
  | gateIdleDeep x0 => exact execGateIdleDeep_kept x0 s
  | gateWake x0 => exact execGateWake_kept x0 s
  | gateScheduledWake x0 => exact execGateScheduledWake_kept x0 s
  | pwarnAssert => exact execPwarnAssert_kept s
  | powerSafe => exact execPowerSafe_kept s
  | parkLate => exact execParkLate_kept s
  | pwarnDeassert => exact execPwarnDeassert_kept s
  | pwResumeExpiry => exact execPwResumeExpiry_kept s
  | pwrgdFall => exact execPwrgdFall_kept s
  | telemetrySample x0 => exact execTelemetrySample_kept x0 s
  | droopSample x0 => exact execDroopSample_kept x0 s
  | supplyLimitRelax x0 => exact execSupplyLimitRelax_kept x0 s
  | overvolt x0 => exact execOvervolt_kept x0 s
  | brownout x0 => exact execBrownout_kept x0 s
  | thermalStep x0 => exact execThermalStep_kept x0 s
  | handshakeTimeout x0 => exact execHandshakeTimeout_kept x0 s
  | repairWindowRestart => exact execRepairWindowRestart_kept s
  | selfTestPeriod x0 => exact execSelfTestPeriod_kept x0 s
  | rpRetire x0 => exact execRpRetire_kept x0 s
  | selfTest x0 => exact execSelfTest_kept x0 s
  | rpLogAckWrite x0 => exact execRpLogAckWrite_kept x0 s
  | cpTake x0 => exact execCpTake_kept x0 s
  | cpPeriodicTrigger => exact execCpPeriodicTrigger_kept s
  | cpFreezeDone => exact execCpFreezeDone_kept s
  | cpDrainDone => exact execCpDrainDone_kept s
  | cpWriteDone => exact execCpWriteDone_kept s
  | cpRestore x0 => exact execCpRestore_kept x0 s
  | cpRestoreReadsDone x0 => exact execCpRestoreReadsDone_kept x0 s
  | cpMirror x0 => exact execCpMirror_kept x0 s
  | cpUnmirror x0 => exact execCpUnmirror_kept x0 s
  | ringHeadWrite x0 x1 => exact execRingHeadWrite_kept x0 x1 s
  | ringCtrlWrite x0 x1 => exact execRingCtrlWrite_kept x0 x1 s
  | evMaskWrite x0 x1 => exact execEvMaskWrite_kept x0 x1 s
  | flagClear x0 x1 => exact execFlagClear_kept x0 x1 s
  | ringCoalesceExpiry x0 => exact execRingCoalesceExpiry_kept x0 s
  | i3cRead x0 => exact execI3cRead_kept x0 s
  | registerWrite x0 x1 => exact execRegisterWrite_kept x0 x1 s
  | devRstAssert => exact execDevRstAssert_kept s
  | quarantineScrubDone x0 x1 => exact execQuarantineScrubDone_kept x0 x1 s
  | aisleLinkFail x0 => exact execAisleLinkFail_kept x0 s
  | dramChannelTrainFail x0 x1 x2 => exact execDramChannelTrainFail_kept x0 x1 x2 s
  | shedPortDown x0 => exact execShedPortDown_kept x0 s
  | groomPairDisagree x0 => exact execGroomPairDisagree_kept x0 s
  | tdispStartInterface x0 => exact execTdispStartInterface_kept x0 s
  | tdispStopInterface x0 => exact execTdispStopInterface_kept x0 s
  | ptpSourceLoss => exact execPtpSourceLoss_kept s
  | mkaLivePeerLoss x0 => exact execMkaLivePeerLoss_kept x0 s
  | hostCompletionTimeout x0 => exact execHostCompletionTimeout_kept x0 s
  | cpMirrorCopyDone x0 => exact execCpMirrorCopyDone_kept x0 s
  | selfTestUnitDone x0 x1 x2 => exact execSelfTestUnitDone_kept x0 x1 x2 s
  | modelImportChunkDone x0 x1 => exact execModelImportChunkDone_kept x0 x1 s
  | compactStallDone x0 x1 => exact execCompactStallDone_kept x0 x1 s

end Sys2Proof.Laws
end

