-- ==== Sys2Proof/Laws/State.lean ====
section
/-! SUPPORT. What the updates of the state leave in each of its fields, the registers among them: one lemma per field and update. -/

namespace Sys2Proof.Laws

open Sys2Proof Sys2Proof.Machine Sys2Proof.Safety

/-! ### The fields of the state -/

@[simp] theorem put_io (s : State) (f : RegField) (x : Nat) : (s.put f x).io = s.io.put f x := rfl
@[simp] theorem put_yt (s : State) (f : RegField) (x : Nat) : (s.put f x).yt = s.yt := rfl
@[simp] theorem put_t1 (s : State) (f : RegField) (x : Nat) : (s.put f x).t1 = s.t1 := rfl
@[simp] theorem put_shed (s : State) (f : RegField) (x : Nat) : (s.put f x).shed = s.shed := rfl
@[simp] theorem put_prefetch (s : State) (f : RegField) (x : Nat) : (s.put f x).prefetch = s.prefetch := rfl
@[simp] theorem put_stalls (s : State) (f : RegField) (x : Nat) : (s.put f x).stalls = s.stalls := rfl
@[simp] theorem put_units (s : State) (f : RegField) (x : Nat) : (s.put f x).units = s.units := rfl
@[simp] theorem put_ops (s : State) (f : RegField) (x : Nat) : (s.put f x).ops = s.ops := rfl
@[simp] theorem put_mirrors (s : State) (f : RegField) (x : Nat) : (s.put f x).mirrors = s.mirrors := rfl
@[simp] theorem put_redirects (s : State) (f : RegField) (x : Nat) : (s.put f x).redirects = s.redirects := rfl
@[simp] theorem put_cp (s : State) (f : RegField) (x : Nat) : (s.put f x).cp = s.cp := rfl
@[simp] theorem put_cpSlots (s : State) (f : RegField) (x : Nat) : (s.put f x).cpSlots = s.cpSlots := rfl
@[simp] theorem put_contexts (s : State) (f : RegField) (x : Nat) : (s.put f x).contexts = s.contexts := rfl
@[simp] theorem put_answers (s : State) (f : RegField) (x : Nat) : (s.put f x).answers = s.answers := rfl
@[simp] theorem put_windows (s : State) (f : RegField) (x : Nat) : (s.put f x).windows = s.windows := rfl
@[simp] theorem put_tallies (s : State) (f : RegField) (x : Nat) : (s.put f x).tallies = s.tallies := rfl
@[simp] theorem put_aisle (s : State) (f : RegField) (x : Nat) : (s.put f x).aisle = s.aisle := rfl
@[simp] theorem put_textCache (s : State) (f : RegField) (x : Nat) : (s.put f x).textCache = s.textCache := rfl
@[simp] theorem put_rounds (s : State) (f : RegField) (x : Nat) : (s.put f x).rounds = s.rounds := rfl
@[simp] theorem put_parts (s : State) (f : RegField) (x : Nat) : (s.put f x).parts = s.parts := rfl
@[simp] theorem put_svChanged (s : State) (f : RegField) (x : Nat) : (s.put f x).svChanged = s.svChanged := rfl
@[simp] theorem put_periodEnd (s : State) (f : RegField) (x : Nat) : (s.put f x).periodEnd = s.periodEnd := rfl
@[simp] theorem put_emptyRaised (s : State) (f : RegField) (x : Nat) : (s.put f x).emptyRaised = s.emptyRaised := rfl
@[simp] theorem put_satPages (s : State) (f : RegField) (x : Nat) : (s.put f x).satPages = s.satPages := rfl
@[simp] theorem put_net (s : State) (f : RegField) (x : Nat) : (s.put f x).net = s.net := rfl
@[simp] theorem put_sec (s : State) (f : RegField) (x : Nat) : (s.put f x).sec = s.sec := rfl
@[simp] theorem put_ck (s : State) (f : RegField) (x : Nat) : (s.put f x).ck = s.ck := rfl
@[simp] theorem put_pw (s : State) (f : RegField) (x : Nat) : (s.put f x).pw = s.pw := rfl
@[simp] theorem put_bu (s : State) (f : RegField) (x : Nat) : (s.put f x).bu = s.bu := rfl
@[simp] theorem put_tear (s : State) (f : RegField) (x : Nat) : (s.put f x).tear = s.tear := rfl
@[simp] theorem put_tests (s : State) (f : RegField) (x : Nat) : (s.put f x).tests = s.tests := rfl
@[simp] theorem put_allocStopped (s : State) (f : RegField) (x : Nat) : (s.put f x).allocStopped = s.allocStopped := rfl
@[simp] theorem put_freeIdx (s : State) (f : RegField) (x : Nat) : (s.put f x).freeIdx = s.freeIdx := rfl
@[simp] theorem put_pending (s : State) (f : RegField) (x : Nat) : (s.put f x).pending = s.pending := rfl
@[simp] theorem setReg_io (s : State) (off : Nat) (v : Word) : (s.setReg off v).io = s.io.setReg off v := rfl
@[simp] theorem setReg_yt (s : State) (off : Nat) (v : Word) : (s.setReg off v).yt = s.yt := rfl
@[simp] theorem setReg_t1 (s : State) (off : Nat) (v : Word) : (s.setReg off v).t1 = s.t1 := rfl
@[simp] theorem setReg_shed (s : State) (off : Nat) (v : Word) : (s.setReg off v).shed = s.shed := rfl
@[simp] theorem setReg_prefetch (s : State) (off : Nat) (v : Word) : (s.setReg off v).prefetch = s.prefetch := rfl
@[simp] theorem setReg_stalls (s : State) (off : Nat) (v : Word) : (s.setReg off v).stalls = s.stalls := rfl
@[simp] theorem setReg_units (s : State) (off : Nat) (v : Word) : (s.setReg off v).units = s.units := rfl
@[simp] theorem setReg_ops (s : State) (off : Nat) (v : Word) : (s.setReg off v).ops = s.ops := rfl
@[simp] theorem setReg_mirrors (s : State) (off : Nat) (v : Word) : (s.setReg off v).mirrors = s.mirrors := rfl
@[simp] theorem setReg_redirects (s : State) (off : Nat) (v : Word) : (s.setReg off v).redirects = s.redirects := rfl
@[simp] theorem setReg_cp (s : State) (off : Nat) (v : Word) : (s.setReg off v).cp = s.cp := rfl
@[simp] theorem setReg_cpSlots (s : State) (off : Nat) (v : Word) : (s.setReg off v).cpSlots = s.cpSlots := rfl
@[simp] theorem setReg_contexts (s : State) (off : Nat) (v : Word) : (s.setReg off v).contexts = s.contexts := rfl
@[simp] theorem setReg_answers (s : State) (off : Nat) (v : Word) : (s.setReg off v).answers = s.answers := rfl
@[simp] theorem setReg_windows (s : State) (off : Nat) (v : Word) : (s.setReg off v).windows = s.windows := rfl
@[simp] theorem setReg_tallies (s : State) (off : Nat) (v : Word) : (s.setReg off v).tallies = s.tallies := rfl
@[simp] theorem setReg_aisle (s : State) (off : Nat) (v : Word) : (s.setReg off v).aisle = s.aisle := rfl
@[simp] theorem setReg_textCache (s : State) (off : Nat) (v : Word) : (s.setReg off v).textCache = s.textCache := rfl
@[simp] theorem setReg_rounds (s : State) (off : Nat) (v : Word) : (s.setReg off v).rounds = s.rounds := rfl
@[simp] theorem setReg_parts (s : State) (off : Nat) (v : Word) : (s.setReg off v).parts = s.parts := rfl
@[simp] theorem setReg_svChanged (s : State) (off : Nat) (v : Word) : (s.setReg off v).svChanged = s.svChanged := rfl
@[simp] theorem setReg_periodEnd (s : State) (off : Nat) (v : Word) : (s.setReg off v).periodEnd = s.periodEnd := rfl
@[simp] theorem setReg_emptyRaised (s : State) (off : Nat) (v : Word) : (s.setReg off v).emptyRaised = s.emptyRaised := rfl
@[simp] theorem setReg_satPages (s : State) (off : Nat) (v : Word) : (s.setReg off v).satPages = s.satPages := rfl
@[simp] theorem setReg_net (s : State) (off : Nat) (v : Word) : (s.setReg off v).net = s.net := rfl
@[simp] theorem setReg_sec (s : State) (off : Nat) (v : Word) : (s.setReg off v).sec = s.sec := rfl
@[simp] theorem setReg_ck (s : State) (off : Nat) (v : Word) : (s.setReg off v).ck = s.ck := rfl
@[simp] theorem setReg_pw (s : State) (off : Nat) (v : Word) : (s.setReg off v).pw = s.pw := rfl
@[simp] theorem setReg_bu (s : State) (off : Nat) (v : Word) : (s.setReg off v).bu = s.bu := rfl
@[simp] theorem setReg_tear (s : State) (off : Nat) (v : Word) : (s.setReg off v).tear = s.tear := rfl
@[simp] theorem setReg_tests (s : State) (off : Nat) (v : Word) : (s.setReg off v).tests = s.tests := rfl
@[simp] theorem setReg_allocStopped (s : State) (off : Nat) (v : Word) : (s.setReg off v).allocStopped = s.allocStopped := rfl
@[simp] theorem setReg_freeIdx (s : State) (off : Nat) (v : Word) : (s.setReg off v).freeIdx = s.freeIdx := rfl
@[simp] theorem setReg_pending (s : State) (off : Nat) (v : Word) : (s.setReg off v).pending = s.pending := rfl
@[simp] theorem bump_io (s : State) (f : RegField) (n : Nat) : (s.bump f n).io = s.io.bump f n := rfl
@[simp] theorem bump_yt (s : State) (f : RegField) (n : Nat) : (s.bump f n).yt = s.yt := rfl
@[simp] theorem bump_t1 (s : State) (f : RegField) (n : Nat) : (s.bump f n).t1 = s.t1 := rfl
@[simp] theorem bump_shed (s : State) (f : RegField) (n : Nat) : (s.bump f n).shed = s.shed := rfl
@[simp] theorem bump_prefetch (s : State) (f : RegField) (n : Nat) : (s.bump f n).prefetch = s.prefetch := rfl
@[simp] theorem bump_stalls (s : State) (f : RegField) (n : Nat) : (s.bump f n).stalls = s.stalls := rfl
@[simp] theorem bump_units (s : State) (f : RegField) (n : Nat) : (s.bump f n).units = s.units := rfl
@[simp] theorem bump_ops (s : State) (f : RegField) (n : Nat) : (s.bump f n).ops = s.ops := rfl
@[simp] theorem bump_mirrors (s : State) (f : RegField) (n : Nat) : (s.bump f n).mirrors = s.mirrors := rfl
@[simp] theorem bump_redirects (s : State) (f : RegField) (n : Nat) : (s.bump f n).redirects = s.redirects := rfl
@[simp] theorem bump_cp (s : State) (f : RegField) (n : Nat) : (s.bump f n).cp = s.cp := rfl
@[simp] theorem bump_cpSlots (s : State) (f : RegField) (n : Nat) : (s.bump f n).cpSlots = s.cpSlots := rfl
@[simp] theorem bump_contexts (s : State) (f : RegField) (n : Nat) : (s.bump f n).contexts = s.contexts := rfl
@[simp] theorem bump_answers (s : State) (f : RegField) (n : Nat) : (s.bump f n).answers = s.answers := rfl
@[simp] theorem bump_windows (s : State) (f : RegField) (n : Nat) : (s.bump f n).windows = s.windows := rfl
@[simp] theorem bump_tallies (s : State) (f : RegField) (n : Nat) : (s.bump f n).tallies = s.tallies := rfl
@[simp] theorem bump_aisle (s : State) (f : RegField) (n : Nat) : (s.bump f n).aisle = s.aisle := rfl
@[simp] theorem bump_textCache (s : State) (f : RegField) (n : Nat) : (s.bump f n).textCache = s.textCache := rfl
@[simp] theorem bump_rounds (s : State) (f : RegField) (n : Nat) : (s.bump f n).rounds = s.rounds := rfl
@[simp] theorem bump_parts (s : State) (f : RegField) (n : Nat) : (s.bump f n).parts = s.parts := rfl
@[simp] theorem bump_svChanged (s : State) (f : RegField) (n : Nat) : (s.bump f n).svChanged = s.svChanged := rfl
@[simp] theorem bump_periodEnd (s : State) (f : RegField) (n : Nat) : (s.bump f n).periodEnd = s.periodEnd := rfl
@[simp] theorem bump_emptyRaised (s : State) (f : RegField) (n : Nat) : (s.bump f n).emptyRaised = s.emptyRaised := rfl
@[simp] theorem bump_satPages (s : State) (f : RegField) (n : Nat) : (s.bump f n).satPages = s.satPages := rfl
@[simp] theorem bump_net (s : State) (f : RegField) (n : Nat) : (s.bump f n).net = s.net := rfl
@[simp] theorem bump_sec (s : State) (f : RegField) (n : Nat) : (s.bump f n).sec = s.sec := rfl
@[simp] theorem bump_ck (s : State) (f : RegField) (n : Nat) : (s.bump f n).ck = s.ck := rfl
@[simp] theorem bump_pw (s : State) (f : RegField) (n : Nat) : (s.bump f n).pw = s.pw := rfl
@[simp] theorem bump_bu (s : State) (f : RegField) (n : Nat) : (s.bump f n).bu = s.bu := rfl
@[simp] theorem bump_tear (s : State) (f : RegField) (n : Nat) : (s.bump f n).tear = s.tear := rfl
@[simp] theorem bump_tests (s : State) (f : RegField) (n : Nat) : (s.bump f n).tests = s.tests := rfl
@[simp] theorem bump_allocStopped (s : State) (f : RegField) (n : Nat) : (s.bump f n).allocStopped = s.allocStopped := rfl
@[simp] theorem bump_freeIdx (s : State) (f : RegField) (n : Nat) : (s.bump f n).freeIdx = s.freeIdx := rfl
@[simp] theorem bump_pending (s : State) (f : RegField) (n : Nat) : (s.bump f n).pending = s.pending := rfl
@[simp] theorem emit_io (s : State) (o : Out) : (s.emit o).io = s.io.emit o := rfl
@[simp] theorem emit_yt (s : State) (o : Out) : (s.emit o).yt = s.yt := rfl
@[simp] theorem emit_t1 (s : State) (o : Out) : (s.emit o).t1 = s.t1 := rfl
@[simp] theorem emit_shed (s : State) (o : Out) : (s.emit o).shed = s.shed := rfl
@[simp] theorem emit_prefetch (s : State) (o : Out) : (s.emit o).prefetch = s.prefetch := rfl
@[simp] theorem emit_stalls (s : State) (o : Out) : (s.emit o).stalls = s.stalls := rfl
@[simp] theorem emit_units (s : State) (o : Out) : (s.emit o).units = s.units := rfl
@[simp] theorem emit_ops (s : State) (o : Out) : (s.emit o).ops = s.ops := rfl
@[simp] theorem emit_mirrors (s : State) (o : Out) : (s.emit o).mirrors = s.mirrors := rfl
@[simp] theorem emit_redirects (s : State) (o : Out) : (s.emit o).redirects = s.redirects := rfl
@[simp] theorem emit_cp (s : State) (o : Out) : (s.emit o).cp = s.cp := rfl
@[simp] theorem emit_cpSlots (s : State) (o : Out) : (s.emit o).cpSlots = s.cpSlots := rfl
@[simp] theorem emit_contexts (s : State) (o : Out) : (s.emit o).contexts = s.contexts := rfl
@[simp] theorem emit_answers (s : State) (o : Out) : (s.emit o).answers = s.answers := rfl
@[simp] theorem emit_windows (s : State) (o : Out) : (s.emit o).windows = s.windows := rfl
@[simp] theorem emit_tallies (s : State) (o : Out) : (s.emit o).tallies = s.tallies := rfl
@[simp] theorem emit_aisle (s : State) (o : Out) : (s.emit o).aisle = s.aisle := rfl
@[simp] theorem emit_textCache (s : State) (o : Out) : (s.emit o).textCache = s.textCache := rfl
@[simp] theorem emit_rounds (s : State) (o : Out) : (s.emit o).rounds = s.rounds := rfl
@[simp] theorem emit_parts (s : State) (o : Out) : (s.emit o).parts = s.parts := rfl
@[simp] theorem emit_svChanged (s : State) (o : Out) : (s.emit o).svChanged = s.svChanged := rfl
@[simp] theorem emit_periodEnd (s : State) (o : Out) : (s.emit o).periodEnd = s.periodEnd := rfl
@[simp] theorem emit_emptyRaised (s : State) (o : Out) : (s.emit o).emptyRaised = s.emptyRaised := rfl
@[simp] theorem emit_satPages (s : State) (o : Out) : (s.emit o).satPages = s.satPages := rfl
@[simp] theorem emit_net (s : State) (o : Out) : (s.emit o).net = s.net := rfl
@[simp] theorem emit_sec (s : State) (o : Out) : (s.emit o).sec = s.sec := rfl
@[simp] theorem emit_ck (s : State) (o : Out) : (s.emit o).ck = s.ck := rfl
@[simp] theorem emit_pw (s : State) (o : Out) : (s.emit o).pw = s.pw := rfl
@[simp] theorem emit_bu (s : State) (o : Out) : (s.emit o).bu = s.bu := rfl
@[simp] theorem emit_tear (s : State) (o : Out) : (s.emit o).tear = s.tear := rfl
@[simp] theorem emit_tests (s : State) (o : Out) : (s.emit o).tests = s.tests := rfl
@[simp] theorem emit_allocStopped (s : State) (o : Out) : (s.emit o).allocStopped = s.allocStopped := rfl
@[simp] theorem emit_freeIdx (s : State) (o : Out) : (s.emit o).freeIdx = s.freeIdx := rfl
@[simp] theorem emit_pending (s : State) (o : Out) : (s.emit o).pending = s.pending := rfl
@[simp] theorem raise_io (s : State) (e : Event) : (s.raise e).io = s.io.raise s.now e := rfl
@[simp] theorem raise_yt (s : State) (e : Event) : (s.raise e).yt = s.yt := rfl
@[simp] theorem raise_t1 (s : State) (e : Event) : (s.raise e).t1 = s.t1 := rfl
@[simp] theorem raise_shed (s : State) (e : Event) : (s.raise e).shed = s.shed := rfl
@[simp] theorem raise_prefetch (s : State) (e : Event) : (s.raise e).prefetch = s.prefetch := rfl
@[simp] theorem raise_stalls (s : State) (e : Event) : (s.raise e).stalls = s.stalls := rfl
@[simp] theorem raise_units (s : State) (e : Event) : (s.raise e).units = s.units := rfl
@[simp] theorem raise_ops (s : State) (e : Event) : (s.raise e).ops = s.ops := rfl
@[simp] theorem raise_mirrors (s : State) (e : Event) : (s.raise e).mirrors = s.mirrors := rfl
@[simp] theorem raise_redirects (s : State) (e : Event) : (s.raise e).redirects = s.redirects := rfl
@[simp] theorem raise_cp (s : State) (e : Event) : (s.raise e).cp = s.cp := rfl
@[simp] theorem raise_cpSlots (s : State) (e : Event) : (s.raise e).cpSlots = s.cpSlots := rfl
@[simp] theorem raise_contexts (s : State) (e : Event) : (s.raise e).contexts = s.contexts := rfl
@[simp] theorem raise_answers (s : State) (e : Event) : (s.raise e).answers = s.answers := rfl
@[simp] theorem raise_windows (s : State) (e : Event) : (s.raise e).windows = s.windows := rfl
@[simp] theorem raise_tallies (s : State) (e : Event) : (s.raise e).tallies = s.tallies := rfl
@[simp] theorem raise_aisle (s : State) (e : Event) : (s.raise e).aisle = s.aisle := rfl
@[simp] theorem raise_textCache (s : State) (e : Event) : (s.raise e).textCache = s.textCache := rfl
@[simp] theorem raise_rounds (s : State) (e : Event) : (s.raise e).rounds = s.rounds := rfl
@[simp] theorem raise_parts (s : State) (e : Event) : (s.raise e).parts = s.parts := rfl
@[simp] theorem raise_svChanged (s : State) (e : Event) : (s.raise e).svChanged = s.svChanged := rfl
@[simp] theorem raise_periodEnd (s : State) (e : Event) : (s.raise e).periodEnd = s.periodEnd := rfl
@[simp] theorem raise_emptyRaised (s : State) (e : Event) : (s.raise e).emptyRaised = s.emptyRaised := rfl
@[simp] theorem raise_satPages (s : State) (e : Event) : (s.raise e).satPages = s.satPages := rfl
@[simp] theorem raise_net (s : State) (e : Event) : (s.raise e).net = s.net := rfl
@[simp] theorem raise_sec (s : State) (e : Event) : (s.raise e).sec = s.sec := rfl
@[simp] theorem raise_ck (s : State) (e : Event) : (s.raise e).ck = s.ck := rfl
@[simp] theorem raise_pw (s : State) (e : Event) : (s.raise e).pw = s.pw := rfl
@[simp] theorem raise_bu (s : State) (e : Event) : (s.raise e).bu = s.bu := rfl
@[simp] theorem raise_tear (s : State) (e : Event) : (s.raise e).tear = s.tear := rfl
@[simp] theorem raise_tests (s : State) (e : Event) : (s.raise e).tests = s.tests := rfl
@[simp] theorem raise_allocStopped (s : State) (e : Event) : (s.raise e).allocStopped = s.allocStopped := rfl
@[simp] theorem raise_freeIdx (s : State) (e : Event) : (s.raise e).freeIdx = s.freeIdx := rfl
@[simp] theorem raise_pending (s : State) (e : Event) : (s.raise e).pending = s.pending := rfl
@[simp] theorem setOp_io (s : State) (i : Nat) (x : OpSlot) : (s.setOp i x).io = s.io := rfl
@[simp] theorem setOp_yt (s : State) (i : Nat) (x : OpSlot) : (s.setOp i x).yt = s.yt := rfl
@[simp] theorem setOp_t1 (s : State) (i : Nat) (x : OpSlot) : (s.setOp i x).t1 = s.t1 := rfl
@[simp] theorem setOp_shed (s : State) (i : Nat) (x : OpSlot) : (s.setOp i x).shed = s.shed := rfl
@[simp] theorem setOp_prefetch (s : State) (i : Nat) (x : OpSlot) : (s.setOp i x).prefetch = s.prefetch := rfl
@[simp] theorem setOp_stalls (s : State) (i : Nat) (x : OpSlot) : (s.setOp i x).stalls = s.stalls := rfl
@[simp] theorem setOp_units (s : State) (i : Nat) (x : OpSlot) : (s.setOp i x).units = s.units := rfl
@[simp] theorem setOp_ops (s : State) (i : Nat) (x : OpSlot) : (s.setOp i x).ops = sparsePut {} i x s.ops := rfl
@[simp] theorem setOp_mirrors (s : State) (i : Nat) (x : OpSlot) : (s.setOp i x).mirrors = s.mirrors := rfl
@[simp] theorem setOp_redirects (s : State) (i : Nat) (x : OpSlot) : (s.setOp i x).redirects = s.redirects := rfl
@[simp] theorem setOp_cp (s : State) (i : Nat) (x : OpSlot) : (s.setOp i x).cp = s.cp := rfl
@[simp] theorem setOp_cpSlots (s : State) (i : Nat) (x : OpSlot) : (s.setOp i x).cpSlots = s.cpSlots := rfl
@[simp] theorem setOp_contexts (s : State) (i : Nat) (x : OpSlot) : (s.setOp i x).contexts = s.contexts := rfl
@[simp] theorem setOp_answers (s : State) (i : Nat) (x : OpSlot) : (s.setOp i x).answers = s.answers := rfl
@[simp] theorem setOp_windows (s : State) (i : Nat) (x : OpSlot) : (s.setOp i x).windows = s.windows := rfl
@[simp] theorem setOp_tallies (s : State) (i : Nat) (x : OpSlot) : (s.setOp i x).tallies = s.tallies := rfl
@[simp] theorem setOp_aisle (s : State) (i : Nat) (x : OpSlot) : (s.setOp i x).aisle = s.aisle := rfl
@[simp] theorem setOp_textCache (s : State) (i : Nat) (x : OpSlot) : (s.setOp i x).textCache = s.textCache := rfl
@[simp] theorem setOp_rounds (s : State) (i : Nat) (x : OpSlot) : (s.setOp i x).rounds = s.rounds := rfl
@[simp] theorem setOp_parts (s : State) (i : Nat) (x : OpSlot) : (s.setOp i x).parts = s.parts := rfl
@[simp] theorem setOp_svChanged (s : State) (i : Nat) (x : OpSlot) : (s.setOp i x).svChanged = s.svChanged := rfl
@[simp] theorem setOp_periodEnd (s : State) (i : Nat) (x : OpSlot) : (s.setOp i x).periodEnd = s.periodEnd := rfl
@[simp] theorem setOp_emptyRaised (s : State) (i : Nat) (x : OpSlot) : (s.setOp i x).emptyRaised = s.emptyRaised := rfl
@[simp] theorem setOp_satPages (s : State) (i : Nat) (x : OpSlot) : (s.setOp i x).satPages = s.satPages := rfl
@[simp] theorem setOp_net (s : State) (i : Nat) (x : OpSlot) : (s.setOp i x).net = s.net := rfl
@[simp] theorem setOp_sec (s : State) (i : Nat) (x : OpSlot) : (s.setOp i x).sec = s.sec := rfl
@[simp] theorem setOp_ck (s : State) (i : Nat) (x : OpSlot) : (s.setOp i x).ck = s.ck := rfl
@[simp] theorem setOp_pw (s : State) (i : Nat) (x : OpSlot) : (s.setOp i x).pw = s.pw := rfl
@[simp] theorem setOp_bu (s : State) (i : Nat) (x : OpSlot) : (s.setOp i x).bu = s.bu := rfl
@[simp] theorem setOp_tear (s : State) (i : Nat) (x : OpSlot) : (s.setOp i x).tear = s.tear := rfl
@[simp] theorem setOp_tests (s : State) (i : Nat) (x : OpSlot) : (s.setOp i x).tests = s.tests := rfl
@[simp] theorem setOp_allocStopped (s : State) (i : Nat) (x : OpSlot) : (s.setOp i x).allocStopped = s.allocStopped := rfl
@[simp] theorem setOp_freeIdx (s : State) (i : Nat) (x : OpSlot) : (s.setOp i x).freeIdx = s.freeIdx := rfl
@[simp] theorem setOp_pending (s : State) (i : Nat) (x : OpSlot) : (s.setOp i x).pending = s.pending := rfl
@[simp] theorem setStall_io (s : State) (i : Nat) (x : Stall) : (s.setStall i x).io = s.io := rfl
@[simp] theorem setStall_yt (s : State) (i : Nat) (x : Stall) : (s.setStall i x).yt = s.yt := rfl
@[simp] theorem setStall_t1 (s : State) (i : Nat) (x : Stall) : (s.setStall i x).t1 = s.t1 := rfl
@[simp] theorem setStall_shed (s : State) (i : Nat) (x : Stall) : (s.setStall i x).shed = s.shed := rfl
@[simp] theorem setStall_prefetch (s : State) (i : Nat) (x : Stall) : (s.setStall i x).prefetch = s.prefetch := rfl
@[simp] theorem setStall_stalls (s : State) (i : Nat) (x : Stall) : (s.setStall i x).stalls = sparsePut {} i x s.stalls := rfl
@[simp] theorem setStall_units (s : State) (i : Nat) (x : Stall) : (s.setStall i x).units = s.units := rfl
@[simp] theorem setStall_ops (s : State) (i : Nat) (x : Stall) : (s.setStall i x).ops = s.ops := rfl
@[simp] theorem setStall_mirrors (s : State) (i : Nat) (x : Stall) : (s.setStall i x).mirrors = s.mirrors := rfl
@[simp] theorem setStall_redirects (s : State) (i : Nat) (x : Stall) : (s.setStall i x).redirects = s.redirects := rfl
@[simp] theorem setStall_cp (s : State) (i : Nat) (x : Stall) : (s.setStall i x).cp = s.cp := rfl
@[simp] theorem setStall_cpSlots (s : State) (i : Nat) (x : Stall) : (s.setStall i x).cpSlots = s.cpSlots := rfl
@[simp] theorem setStall_contexts (s : State) (i : Nat) (x : Stall) : (s.setStall i x).contexts = s.contexts := rfl
@[simp] theorem setStall_answers (s : State) (i : Nat) (x : Stall) : (s.setStall i x).answers = s.answers := rfl
@[simp] theorem setStall_windows (s : State) (i : Nat) (x : Stall) : (s.setStall i x).windows = s.windows := rfl
@[simp] theorem setStall_tallies (s : State) (i : Nat) (x : Stall) : (s.setStall i x).tallies = s.tallies := rfl
@[simp] theorem setStall_aisle (s : State) (i : Nat) (x : Stall) : (s.setStall i x).aisle = s.aisle := rfl
@[simp] theorem setStall_textCache (s : State) (i : Nat) (x : Stall) : (s.setStall i x).textCache = s.textCache := rfl
@[simp] theorem setStall_rounds (s : State) (i : Nat) (x : Stall) : (s.setStall i x).rounds = s.rounds := rfl
@[simp] theorem setStall_parts (s : State) (i : Nat) (x : Stall) : (s.setStall i x).parts = s.parts := rfl
@[simp] theorem setStall_svChanged (s : State) (i : Nat) (x : Stall) : (s.setStall i x).svChanged = s.svChanged := rfl
@[simp] theorem setStall_periodEnd (s : State) (i : Nat) (x : Stall) : (s.setStall i x).periodEnd = s.periodEnd := rfl
@[simp] theorem setStall_emptyRaised (s : State) (i : Nat) (x : Stall) : (s.setStall i x).emptyRaised = s.emptyRaised := rfl
@[simp] theorem setStall_satPages (s : State) (i : Nat) (x : Stall) : (s.setStall i x).satPages = s.satPages := rfl
@[simp] theorem setStall_net (s : State) (i : Nat) (x : Stall) : (s.setStall i x).net = s.net := rfl
@[simp] theorem setStall_sec (s : State) (i : Nat) (x : Stall) : (s.setStall i x).sec = s.sec := rfl
@[simp] theorem setStall_ck (s : State) (i : Nat) (x : Stall) : (s.setStall i x).ck = s.ck := rfl
@[simp] theorem setStall_pw (s : State) (i : Nat) (x : Stall) : (s.setStall i x).pw = s.pw := rfl
@[simp] theorem setStall_bu (s : State) (i : Nat) (x : Stall) : (s.setStall i x).bu = s.bu := rfl
@[simp] theorem setStall_tear (s : State) (i : Nat) (x : Stall) : (s.setStall i x).tear = s.tear := rfl
@[simp] theorem setStall_tests (s : State) (i : Nat) (x : Stall) : (s.setStall i x).tests = s.tests := rfl
@[simp] theorem setStall_allocStopped (s : State) (i : Nat) (x : Stall) : (s.setStall i x).allocStopped = s.allocStopped := rfl
@[simp] theorem setStall_freeIdx (s : State) (i : Nat) (x : Stall) : (s.setStall i x).freeIdx = s.freeIdx := rfl
@[simp] theorem setStall_pending (s : State) (i : Nat) (x : Stall) : (s.setStall i x).pending = s.pending := rfl
@[simp] theorem setContext_io (s : State) (i : Nat) (x : Context) : (s.setContext i x).io = s.io := rfl
@[simp] theorem setContext_yt (s : State) (i : Nat) (x : Context) : (s.setContext i x).yt = s.yt := rfl
@[simp] theorem setContext_t1 (s : State) (i : Nat) (x : Context) : (s.setContext i x).t1 = s.t1 := rfl
@[simp] theorem setContext_shed (s : State) (i : Nat) (x : Context) : (s.setContext i x).shed = s.shed := rfl
@[simp] theorem setContext_prefetch (s : State) (i : Nat) (x : Context) : (s.setContext i x).prefetch = s.prefetch := rfl
@[simp] theorem setContext_stalls (s : State) (i : Nat) (x : Context) : (s.setContext i x).stalls = s.stalls := rfl
@[simp] theorem setContext_units (s : State) (i : Nat) (x : Context) : (s.setContext i x).units = s.units := rfl
@[simp] theorem setContext_ops (s : State) (i : Nat) (x : Context) : (s.setContext i x).ops = s.ops := rfl
@[simp] theorem setContext_mirrors (s : State) (i : Nat) (x : Context) : (s.setContext i x).mirrors = s.mirrors := rfl
@[simp] theorem setContext_redirects (s : State) (i : Nat) (x : Context) : (s.setContext i x).redirects = s.redirects := rfl
@[simp] theorem setContext_cp (s : State) (i : Nat) (x : Context) : (s.setContext i x).cp = s.cp := rfl
@[simp] theorem setContext_cpSlots (s : State) (i : Nat) (x : Context) : (s.setContext i x).cpSlots = s.cpSlots := rfl
@[simp] theorem setContext_contexts (s : State) (i : Nat) (x : Context) : (s.setContext i x).contexts = sparsePut {} i x s.contexts := rfl
@[simp] theorem setContext_answers (s : State) (i : Nat) (x : Context) : (s.setContext i x).answers = s.answers := rfl
@[simp] theorem setContext_windows (s : State) (i : Nat) (x : Context) : (s.setContext i x).windows = s.windows := rfl
@[simp] theorem setContext_tallies (s : State) (i : Nat) (x : Context) : (s.setContext i x).tallies = s.tallies := rfl
@[simp] theorem setContext_aisle (s : State) (i : Nat) (x : Context) : (s.setContext i x).aisle = s.aisle := rfl
@[simp] theorem setContext_textCache (s : State) (i : Nat) (x : Context) : (s.setContext i x).textCache = s.textCache := rfl
@[simp] theorem setContext_rounds (s : State) (i : Nat) (x : Context) : (s.setContext i x).rounds = s.rounds := rfl
@[simp] theorem setContext_parts (s : State) (i : Nat) (x : Context) : (s.setContext i x).parts = s.parts := rfl
@[simp] theorem setContext_svChanged (s : State) (i : Nat) (x : Context) : (s.setContext i x).svChanged = s.svChanged := rfl
@[simp] theorem setContext_periodEnd (s : State) (i : Nat) (x : Context) : (s.setContext i x).periodEnd = s.periodEnd := rfl
@[simp] theorem setContext_emptyRaised (s : State) (i : Nat) (x : Context) : (s.setContext i x).emptyRaised = s.emptyRaised := rfl
@[simp] theorem setContext_satPages (s : State) (i : Nat) (x : Context) : (s.setContext i x).satPages = s.satPages := rfl
@[simp] theorem setContext_net (s : State) (i : Nat) (x : Context) : (s.setContext i x).net = s.net := rfl
@[simp] theorem setContext_sec (s : State) (i : Nat) (x : Context) : (s.setContext i x).sec = s.sec := rfl
@[simp] theorem setContext_ck (s : State) (i : Nat) (x : Context) : (s.setContext i x).ck = s.ck := rfl
@[simp] theorem setContext_pw (s : State) (i : Nat) (x : Context) : (s.setContext i x).pw = s.pw := rfl
@[simp] theorem setContext_bu (s : State) (i : Nat) (x : Context) : (s.setContext i x).bu = s.bu := rfl
@[simp] theorem setContext_tear (s : State) (i : Nat) (x : Context) : (s.setContext i x).tear = s.tear := rfl
@[simp] theorem setContext_tests (s : State) (i : Nat) (x : Context) : (s.setContext i x).tests = s.tests := rfl
@[simp] theorem setContext_allocStopped (s : State) (i : Nat) (x : Context) : (s.setContext i x).allocStopped = s.allocStopped := rfl
@[simp] theorem setContext_freeIdx (s : State) (i : Nat) (x : Context) : (s.setContext i x).freeIdx = s.freeIdx := rfl
@[simp] theorem setContext_pending (s : State) (i : Nat) (x : Context) : (s.setContext i x).pending = s.pending := rfl
@[simp] theorem setTally_io (s : State) (i : Nat) (x : Tally) : (s.setTally i x).io = s.io := rfl
@[simp] theorem setTally_yt (s : State) (i : Nat) (x : Tally) : (s.setTally i x).yt = s.yt := rfl
@[simp] theorem setTally_t1 (s : State) (i : Nat) (x : Tally) : (s.setTally i x).t1 = s.t1 := rfl
@[simp] theorem setTally_shed (s : State) (i : Nat) (x : Tally) : (s.setTally i x).shed = s.shed := rfl
@[simp] theorem setTally_prefetch (s : State) (i : Nat) (x : Tally) : (s.setTally i x).prefetch = s.prefetch := rfl
@[simp] theorem setTally_stalls (s : State) (i : Nat) (x : Tally) : (s.setTally i x).stalls = s.stalls := rfl
@[simp] theorem setTally_units (s : State) (i : Nat) (x : Tally) : (s.setTally i x).units = s.units := rfl
@[simp] theorem setTally_ops (s : State) (i : Nat) (x : Tally) : (s.setTally i x).ops = s.ops := rfl
@[simp] theorem setTally_mirrors (s : State) (i : Nat) (x : Tally) : (s.setTally i x).mirrors = s.mirrors := rfl
@[simp] theorem setTally_redirects (s : State) (i : Nat) (x : Tally) : (s.setTally i x).redirects = s.redirects := rfl
@[simp] theorem setTally_cp (s : State) (i : Nat) (x : Tally) : (s.setTally i x).cp = s.cp := rfl
@[simp] theorem setTally_cpSlots (s : State) (i : Nat) (x : Tally) : (s.setTally i x).cpSlots = s.cpSlots := rfl
@[simp] theorem setTally_contexts (s : State) (i : Nat) (x : Tally) : (s.setTally i x).contexts = s.contexts := rfl
@[simp] theorem setTally_answers (s : State) (i : Nat) (x : Tally) : (s.setTally i x).answers = s.answers := rfl
@[simp] theorem setTally_windows (s : State) (i : Nat) (x : Tally) : (s.setTally i x).windows = s.windows := rfl
@[simp] theorem setTally_tallies (s : State) (i : Nat) (x : Tally) : (s.setTally i x).tallies = sparsePut {} i x s.tallies := rfl
@[simp] theorem setTally_aisle (s : State) (i : Nat) (x : Tally) : (s.setTally i x).aisle = s.aisle := rfl
@[simp] theorem setTally_textCache (s : State) (i : Nat) (x : Tally) : (s.setTally i x).textCache = s.textCache := rfl
@[simp] theorem setTally_rounds (s : State) (i : Nat) (x : Tally) : (s.setTally i x).rounds = s.rounds := rfl
@[simp] theorem setTally_parts (s : State) (i : Nat) (x : Tally) : (s.setTally i x).parts = s.parts := rfl
@[simp] theorem setTally_svChanged (s : State) (i : Nat) (x : Tally) : (s.setTally i x).svChanged = s.svChanged := rfl
@[simp] theorem setTally_periodEnd (s : State) (i : Nat) (x : Tally) : (s.setTally i x).periodEnd = s.periodEnd := rfl
@[simp] theorem setTally_emptyRaised (s : State) (i : Nat) (x : Tally) : (s.setTally i x).emptyRaised = s.emptyRaised := rfl
@[simp] theorem setTally_satPages (s : State) (i : Nat) (x : Tally) : (s.setTally i x).satPages = s.satPages := rfl
@[simp] theorem setTally_net (s : State) (i : Nat) (x : Tally) : (s.setTally i x).net = s.net := rfl
@[simp] theorem setTally_sec (s : State) (i : Nat) (x : Tally) : (s.setTally i x).sec = s.sec := rfl
@[simp] theorem setTally_ck (s : State) (i : Nat) (x : Tally) : (s.setTally i x).ck = s.ck := rfl
@[simp] theorem setTally_pw (s : State) (i : Nat) (x : Tally) : (s.setTally i x).pw = s.pw := rfl
@[simp] theorem setTally_bu (s : State) (i : Nat) (x : Tally) : (s.setTally i x).bu = s.bu := rfl
@[simp] theorem setTally_tear (s : State) (i : Nat) (x : Tally) : (s.setTally i x).tear = s.tear := rfl
@[simp] theorem setTally_tests (s : State) (i : Nat) (x : Tally) : (s.setTally i x).tests = s.tests := rfl
@[simp] theorem setTally_allocStopped (s : State) (i : Nat) (x : Tally) : (s.setTally i x).allocStopped = s.allocStopped := rfl
@[simp] theorem setTally_freeIdx (s : State) (i : Nat) (x : Tally) : (s.setTally i x).freeIdx = s.freeIdx := rfl
@[simp] theorem setTally_pending (s : State) (i : Nat) (x : Tally) : (s.setTally i x).pending = s.pending := rfl
@[simp] theorem setRound_io (s : State) (i : Nat) (x : RoundX) : (s.setRound i x).io = s.io := rfl
@[simp] theorem setRound_yt (s : State) (i : Nat) (x : RoundX) : (s.setRound i x).yt = s.yt := rfl
@[simp] theorem setRound_t1 (s : State) (i : Nat) (x : RoundX) : (s.setRound i x).t1 = s.t1 := rfl
@[simp] theorem setRound_shed (s : State) (i : Nat) (x : RoundX) : (s.setRound i x).shed = s.shed := rfl
@[simp] theorem setRound_prefetch (s : State) (i : Nat) (x : RoundX) : (s.setRound i x).prefetch = s.prefetch := rfl
@[simp] theorem setRound_stalls (s : State) (i : Nat) (x : RoundX) : (s.setRound i x).stalls = s.stalls := rfl
@[simp] theorem setRound_units (s : State) (i : Nat) (x : RoundX) : (s.setRound i x).units = s.units := rfl
@[simp] theorem setRound_ops (s : State) (i : Nat) (x : RoundX) : (s.setRound i x).ops = s.ops := rfl
@[simp] theorem setRound_mirrors (s : State) (i : Nat) (x : RoundX) : (s.setRound i x).mirrors = s.mirrors := rfl
@[simp] theorem setRound_redirects (s : State) (i : Nat) (x : RoundX) : (s.setRound i x).redirects = s.redirects := rfl
@[simp] theorem setRound_cp (s : State) (i : Nat) (x : RoundX) : (s.setRound i x).cp = s.cp := rfl
@[simp] theorem setRound_cpSlots (s : State) (i : Nat) (x : RoundX) : (s.setRound i x).cpSlots = s.cpSlots := rfl
@[simp] theorem setRound_contexts (s : State) (i : Nat) (x : RoundX) : (s.setRound i x).contexts = s.contexts := rfl
@[simp] theorem setRound_answers (s : State) (i : Nat) (x : RoundX) : (s.setRound i x).answers = s.answers := rfl
@[simp] theorem setRound_windows (s : State) (i : Nat) (x : RoundX) : (s.setRound i x).windows = s.windows := rfl
@[simp] theorem setRound_tallies (s : State) (i : Nat) (x : RoundX) : (s.setRound i x).tallies = s.tallies := rfl
@[simp] theorem setRound_aisle (s : State) (i : Nat) (x : RoundX) : (s.setRound i x).aisle = s.aisle := rfl
@[simp] theorem setRound_textCache (s : State) (i : Nat) (x : RoundX) : (s.setRound i x).textCache = s.textCache := rfl
@[simp] theorem setRound_rounds (s : State) (i : Nat) (x : RoundX) : (s.setRound i x).rounds = sparsePut {} i x s.rounds := rfl
@[simp] theorem setRound_parts (s : State) (i : Nat) (x : RoundX) : (s.setRound i x).parts = s.parts := rfl
@[simp] theorem setRound_svChanged (s : State) (i : Nat) (x : RoundX) : (s.setRound i x).svChanged = s.svChanged := rfl
@[simp] theorem setRound_periodEnd (s : State) (i : Nat) (x : RoundX) : (s.setRound i x).periodEnd = s.periodEnd := rfl
@[simp] theorem setRound_emptyRaised (s : State) (i : Nat) (x : RoundX) : (s.setRound i x).emptyRaised = s.emptyRaised := rfl
@[simp] theorem setRound_satPages (s : State) (i : Nat) (x : RoundX) : (s.setRound i x).satPages = s.satPages := rfl
@[simp] theorem setRound_net (s : State) (i : Nat) (x : RoundX) : (s.setRound i x).net = s.net := rfl
@[simp] theorem setRound_sec (s : State) (i : Nat) (x : RoundX) : (s.setRound i x).sec = s.sec := rfl
@[simp] theorem setRound_ck (s : State) (i : Nat) (x : RoundX) : (s.setRound i x).ck = s.ck := rfl
@[simp] theorem setRound_pw (s : State) (i : Nat) (x : RoundX) : (s.setRound i x).pw = s.pw := rfl
@[simp] theorem setRound_bu (s : State) (i : Nat) (x : RoundX) : (s.setRound i x).bu = s.bu := rfl
@[simp] theorem setRound_tear (s : State) (i : Nat) (x : RoundX) : (s.setRound i x).tear = s.tear := rfl
@[simp] theorem setRound_tests (s : State) (i : Nat) (x : RoundX) : (s.setRound i x).tests = s.tests := rfl
@[simp] theorem setRound_allocStopped (s : State) (i : Nat) (x : RoundX) : (s.setRound i x).allocStopped = s.allocStopped := rfl
@[simp] theorem setRound_freeIdx (s : State) (i : Nat) (x : RoundX) : (s.setRound i x).freeIdx = s.freeIdx := rfl
@[simp] theorem setRound_pending (s : State) (i : Nat) (x : RoundX) : (s.setRound i x).pending = s.pending := rfl
@[simp] theorem setPart_io (s : State) (i : Nat) (x : PartX) : (s.setPart i x).io = s.io := rfl
@[simp] theorem setPart_yt (s : State) (i : Nat) (x : PartX) : (s.setPart i x).yt = s.yt := rfl
@[simp] theorem setPart_t1 (s : State) (i : Nat) (x : PartX) : (s.setPart i x).t1 = s.t1 := rfl
@[simp] theorem setPart_shed (s : State) (i : Nat) (x : PartX) : (s.setPart i x).shed = s.shed := rfl
@[simp] theorem setPart_prefetch (s : State) (i : Nat) (x : PartX) : (s.setPart i x).prefetch = s.prefetch := rfl
@[simp] theorem setPart_stalls (s : State) (i : Nat) (x : PartX) : (s.setPart i x).stalls = s.stalls := rfl
@[simp] theorem setPart_units (s : State) (i : Nat) (x : PartX) : (s.setPart i x).units = s.units := rfl
@[simp] theorem setPart_ops (s : State) (i : Nat) (x : PartX) : (s.setPart i x).ops = s.ops := rfl
@[simp] theorem setPart_mirrors (s : State) (i : Nat) (x : PartX) : (s.setPart i x).mirrors = s.mirrors := rfl
@[simp] theorem setPart_redirects (s : State) (i : Nat) (x : PartX) : (s.setPart i x).redirects = s.redirects := rfl
@[simp] theorem setPart_cp (s : State) (i : Nat) (x : PartX) : (s.setPart i x).cp = s.cp := rfl
@[simp] theorem setPart_cpSlots (s : State) (i : Nat) (x : PartX) : (s.setPart i x).cpSlots = s.cpSlots := rfl
@[simp] theorem setPart_contexts (s : State) (i : Nat) (x : PartX) : (s.setPart i x).contexts = s.contexts := rfl
@[simp] theorem setPart_answers (s : State) (i : Nat) (x : PartX) : (s.setPart i x).answers = s.answers := rfl
@[simp] theorem setPart_windows (s : State) (i : Nat) (x : PartX) : (s.setPart i x).windows = s.windows := rfl
@[simp] theorem setPart_tallies (s : State) (i : Nat) (x : PartX) : (s.setPart i x).tallies = s.tallies := rfl
@[simp] theorem setPart_aisle (s : State) (i : Nat) (x : PartX) : (s.setPart i x).aisle = s.aisle := rfl
@[simp] theorem setPart_textCache (s : State) (i : Nat) (x : PartX) : (s.setPart i x).textCache = s.textCache := rfl
@[simp] theorem setPart_rounds (s : State) (i : Nat) (x : PartX) : (s.setPart i x).rounds = s.rounds := rfl
@[simp] theorem setPart_parts (s : State) (i : Nat) (x : PartX) : (s.setPart i x).parts = sparsePut {} i x s.parts := rfl
@[simp] theorem setPart_svChanged (s : State) (i : Nat) (x : PartX) : (s.setPart i x).svChanged = s.svChanged := rfl
@[simp] theorem setPart_periodEnd (s : State) (i : Nat) (x : PartX) : (s.setPart i x).periodEnd = s.periodEnd := rfl
@[simp] theorem setPart_emptyRaised (s : State) (i : Nat) (x : PartX) : (s.setPart i x).emptyRaised = s.emptyRaised := rfl
@[simp] theorem setPart_satPages (s : State) (i : Nat) (x : PartX) : (s.setPart i x).satPages = s.satPages := rfl
@[simp] theorem setPart_net (s : State) (i : Nat) (x : PartX) : (s.setPart i x).net = s.net := rfl
@[simp] theorem setPart_sec (s : State) (i : Nat) (x : PartX) : (s.setPart i x).sec = s.sec := rfl
@[simp] theorem setPart_ck (s : State) (i : Nat) (x : PartX) : (s.setPart i x).ck = s.ck := rfl
@[simp] theorem setPart_pw (s : State) (i : Nat) (x : PartX) : (s.setPart i x).pw = s.pw := rfl
@[simp] theorem setPart_bu (s : State) (i : Nat) (x : PartX) : (s.setPart i x).bu = s.bu := rfl
@[simp] theorem setPart_tear (s : State) (i : Nat) (x : PartX) : (s.setPart i x).tear = s.tear := rfl
@[simp] theorem setPart_tests (s : State) (i : Nat) (x : PartX) : (s.setPart i x).tests = s.tests := rfl
@[simp] theorem setPart_allocStopped (s : State) (i : Nat) (x : PartX) : (s.setPart i x).allocStopped = s.allocStopped := rfl
@[simp] theorem setPart_freeIdx (s : State) (i : Nat) (x : PartX) : (s.setPart i x).freeIdx = s.freeIdx := rfl
@[simp] theorem setPart_pending (s : State) (i : Nat) (x : PartX) : (s.setPart i x).pending = s.pending := rfl
@[simp] theorem setShedPort_io (s : State) (i : Nat) (x : ShedPort) : (s.setShedPort i x).io = s.io := rfl
@[simp] theorem setShedPort_yt (s : State) (i : Nat) (x : ShedPort) : (s.setShedPort i x).yt = s.yt := rfl
@[simp] theorem setShedPort_t1 (s : State) (i : Nat) (x : ShedPort) : (s.setShedPort i x).t1 = s.t1 := rfl
@[simp] theorem setShedPort_shed (s : State) (i : Nat) (x : ShedPort) : (s.setShedPort i x).shed = sparsePut {} i x s.shed := rfl
@[simp] theorem setShedPort_prefetch (s : State) (i : Nat) (x : ShedPort) : (s.setShedPort i x).prefetch = s.prefetch := rfl
@[simp] theorem setShedPort_stalls (s : State) (i : Nat) (x : ShedPort) : (s.setShedPort i x).stalls = s.stalls := rfl
@[simp] theorem setShedPort_units (s : State) (i : Nat) (x : ShedPort) : (s.setShedPort i x).units = s.units := rfl
@[simp] theorem setShedPort_ops (s : State) (i : Nat) (x : ShedPort) : (s.setShedPort i x).ops = s.ops := rfl
@[simp] theorem setShedPort_mirrors (s : State) (i : Nat) (x : ShedPort) : (s.setShedPort i x).mirrors = s.mirrors := rfl
@[simp] theorem setShedPort_redirects (s : State) (i : Nat) (x : ShedPort) : (s.setShedPort i x).redirects = s.redirects := rfl
@[simp] theorem setShedPort_cp (s : State) (i : Nat) (x : ShedPort) : (s.setShedPort i x).cp = s.cp := rfl
@[simp] theorem setShedPort_cpSlots (s : State) (i : Nat) (x : ShedPort) : (s.setShedPort i x).cpSlots = s.cpSlots := rfl
@[simp] theorem setShedPort_contexts (s : State) (i : Nat) (x : ShedPort) : (s.setShedPort i x).contexts = s.contexts := rfl
@[simp] theorem setShedPort_answers (s : State) (i : Nat) (x : ShedPort) : (s.setShedPort i x).answers = s.answers := rfl
@[simp] theorem setShedPort_windows (s : State) (i : Nat) (x : ShedPort) : (s.setShedPort i x).windows = s.windows := rfl
@[simp] theorem setShedPort_tallies (s : State) (i : Nat) (x : ShedPort) : (s.setShedPort i x).tallies = s.tallies := rfl
@[simp] theorem setShedPort_aisle (s : State) (i : Nat) (x : ShedPort) : (s.setShedPort i x).aisle = s.aisle := rfl
@[simp] theorem setShedPort_textCache (s : State) (i : Nat) (x : ShedPort) : (s.setShedPort i x).textCache = s.textCache := rfl
@[simp] theorem setShedPort_rounds (s : State) (i : Nat) (x : ShedPort) : (s.setShedPort i x).rounds = s.rounds := rfl
@[simp] theorem setShedPort_parts (s : State) (i : Nat) (x : ShedPort) : (s.setShedPort i x).parts = s.parts := rfl
@[simp] theorem setShedPort_svChanged (s : State) (i : Nat) (x : ShedPort) : (s.setShedPort i x).svChanged = s.svChanged := rfl
@[simp] theorem setShedPort_periodEnd (s : State) (i : Nat) (x : ShedPort) : (s.setShedPort i x).periodEnd = s.periodEnd := rfl
@[simp] theorem setShedPort_emptyRaised (s : State) (i : Nat) (x : ShedPort) : (s.setShedPort i x).emptyRaised = s.emptyRaised := rfl
@[simp] theorem setShedPort_satPages (s : State) (i : Nat) (x : ShedPort) : (s.setShedPort i x).satPages = s.satPages := rfl
@[simp] theorem setShedPort_net (s : State) (i : Nat) (x : ShedPort) : (s.setShedPort i x).net = s.net := rfl
@[simp] theorem setShedPort_sec (s : State) (i : Nat) (x : ShedPort) : (s.setShedPort i x).sec = s.sec := rfl
@[simp] theorem setShedPort_ck (s : State) (i : Nat) (x : ShedPort) : (s.setShedPort i x).ck = s.ck := rfl
@[simp] theorem setShedPort_pw (s : State) (i : Nat) (x : ShedPort) : (s.setShedPort i x).pw = s.pw := rfl
@[simp] theorem setShedPort_bu (s : State) (i : Nat) (x : ShedPort) : (s.setShedPort i x).bu = s.bu := rfl
@[simp] theorem setShedPort_tear (s : State) (i : Nat) (x : ShedPort) : (s.setShedPort i x).tear = s.tear := rfl
@[simp] theorem setShedPort_tests (s : State) (i : Nat) (x : ShedPort) : (s.setShedPort i x).tests = s.tests := rfl
@[simp] theorem setShedPort_allocStopped (s : State) (i : Nat) (x : ShedPort) : (s.setShedPort i x).allocStopped = s.allocStopped := rfl
@[simp] theorem setShedPort_freeIdx (s : State) (i : Nat) (x : ShedPort) : (s.setShedPort i x).freeIdx = s.freeIdx := rfl
@[simp] theorem setShedPort_pending (s : State) (i : Nat) (x : ShedPort) : (s.setShedPort i x).pending = s.pending := rfl
@[simp] theorem setYt_io (s : State) (x : YardTime) : (s.setYt x).io = s.io := rfl
@[simp] theorem setYt_yt (s : State) (x : YardTime) : (s.setYt x).yt = x := rfl
@[simp] theorem setYt_t1 (s : State) (x : YardTime) : (s.setYt x).t1 = s.t1 := rfl
@[simp] theorem setYt_shed (s : State) (x : YardTime) : (s.setYt x).shed = s.shed := rfl
@[simp] theorem setYt_prefetch (s : State) (x : YardTime) : (s.setYt x).prefetch = s.prefetch := rfl
@[simp] theorem setYt_stalls (s : State) (x : YardTime) : (s.setYt x).stalls = s.stalls := rfl
@[simp] theorem setYt_units (s : State) (x : YardTime) : (s.setYt x).units = s.units := rfl
@[simp] theorem setYt_ops (s : State) (x : YardTime) : (s.setYt x).ops = s.ops := rfl
@[simp] theorem setYt_mirrors (s : State) (x : YardTime) : (s.setYt x).mirrors = s.mirrors := rfl
@[simp] theorem setYt_redirects (s : State) (x : YardTime) : (s.setYt x).redirects = s.redirects := rfl
@[simp] theorem setYt_cp (s : State) (x : YardTime) : (s.setYt x).cp = s.cp := rfl
@[simp] theorem setYt_cpSlots (s : State) (x : YardTime) : (s.setYt x).cpSlots = s.cpSlots := rfl
@[simp] theorem setYt_contexts (s : State) (x : YardTime) : (s.setYt x).contexts = s.contexts := rfl
@[simp] theorem setYt_answers (s : State) (x : YardTime) : (s.setYt x).answers = s.answers := rfl
@[simp] theorem setYt_windows (s : State) (x : YardTime) : (s.setYt x).windows = s.windows := rfl
@[simp] theorem setYt_tallies (s : State) (x : YardTime) : (s.setYt x).tallies = s.tallies := rfl
@[simp] theorem setYt_aisle (s : State) (x : YardTime) : (s.setYt x).aisle = s.aisle := rfl
@[simp] theorem setYt_textCache (s : State) (x : YardTime) : (s.setYt x).textCache = s.textCache := rfl
@[simp] theorem setYt_rounds (s : State) (x : YardTime) : (s.setYt x).rounds = s.rounds := rfl
@[simp] theorem setYt_parts (s : State) (x : YardTime) : (s.setYt x).parts = s.parts := rfl
@[simp] theorem setYt_svChanged (s : State) (x : YardTime) : (s.setYt x).svChanged = s.svChanged := rfl
@[simp] theorem setYt_periodEnd (s : State) (x : YardTime) : (s.setYt x).periodEnd = s.periodEnd := rfl
@[simp] theorem setYt_emptyRaised (s : State) (x : YardTime) : (s.setYt x).emptyRaised = s.emptyRaised := rfl
@[simp] theorem setYt_satPages (s : State) (x : YardTime) : (s.setYt x).satPages = s.satPages := rfl
@[simp] theorem setYt_net (s : State) (x : YardTime) : (s.setYt x).net = s.net := rfl
@[simp] theorem setYt_sec (s : State) (x : YardTime) : (s.setYt x).sec = s.sec := rfl
@[simp] theorem setYt_ck (s : State) (x : YardTime) : (s.setYt x).ck = s.ck := rfl
@[simp] theorem setYt_pw (s : State) (x : YardTime) : (s.setYt x).pw = s.pw := rfl
@[simp] theorem setYt_bu (s : State) (x : YardTime) : (s.setYt x).bu = s.bu := rfl
@[simp] theorem setYt_tear (s : State) (x : YardTime) : (s.setYt x).tear = s.tear := rfl
@[simp] theorem setYt_tests (s : State) (x : YardTime) : (s.setYt x).tests = s.tests := rfl
@[simp] theorem setYt_allocStopped (s : State) (x : YardTime) : (s.setYt x).allocStopped = s.allocStopped := rfl
@[simp] theorem setYt_freeIdx (s : State) (x : YardTime) : (s.setYt x).freeIdx = s.freeIdx := rfl
@[simp] theorem setYt_pending (s : State) (x : YardTime) : (s.setYt x).pending = s.pending := rfl
@[simp] theorem setBu_io (s : State) (x : BringUp) : (s.setBu x).io = s.io := rfl
@[simp] theorem setBu_yt (s : State) (x : BringUp) : (s.setBu x).yt = s.yt := rfl
@[simp] theorem setBu_t1 (s : State) (x : BringUp) : (s.setBu x).t1 = s.t1 := rfl
@[simp] theorem setBu_shed (s : State) (x : BringUp) : (s.setBu x).shed = s.shed := rfl
@[simp] theorem setBu_prefetch (s : State) (x : BringUp) : (s.setBu x).prefetch = s.prefetch := rfl
@[simp] theorem setBu_stalls (s : State) (x : BringUp) : (s.setBu x).stalls = s.stalls := rfl
@[simp] theorem setBu_units (s : State) (x : BringUp) : (s.setBu x).units = s.units := rfl
@[simp] theorem setBu_ops (s : State) (x : BringUp) : (s.setBu x).ops = s.ops := rfl
@[simp] theorem setBu_mirrors (s : State) (x : BringUp) : (s.setBu x).mirrors = s.mirrors := rfl
@[simp] theorem setBu_redirects (s : State) (x : BringUp) : (s.setBu x).redirects = s.redirects := rfl
@[simp] theorem setBu_cp (s : State) (x : BringUp) : (s.setBu x).cp = s.cp := rfl
@[simp] theorem setBu_cpSlots (s : State) (x : BringUp) : (s.setBu x).cpSlots = s.cpSlots := rfl
@[simp] theorem setBu_contexts (s : State) (x : BringUp) : (s.setBu x).contexts = s.contexts := rfl
@[simp] theorem setBu_answers (s : State) (x : BringUp) : (s.setBu x).answers = s.answers := rfl
@[simp] theorem setBu_windows (s : State) (x : BringUp) : (s.setBu x).windows = s.windows := rfl
@[simp] theorem setBu_tallies (s : State) (x : BringUp) : (s.setBu x).tallies = s.tallies := rfl
@[simp] theorem setBu_aisle (s : State) (x : BringUp) : (s.setBu x).aisle = s.aisle := rfl
@[simp] theorem setBu_textCache (s : State) (x : BringUp) : (s.setBu x).textCache = s.textCache := rfl
@[simp] theorem setBu_rounds (s : State) (x : BringUp) : (s.setBu x).rounds = s.rounds := rfl
@[simp] theorem setBu_parts (s : State) (x : BringUp) : (s.setBu x).parts = s.parts := rfl
@[simp] theorem setBu_svChanged (s : State) (x : BringUp) : (s.setBu x).svChanged = s.svChanged := rfl
@[simp] theorem setBu_periodEnd (s : State) (x : BringUp) : (s.setBu x).periodEnd = s.periodEnd := rfl
@[simp] theorem setBu_emptyRaised (s : State) (x : BringUp) : (s.setBu x).emptyRaised = s.emptyRaised := rfl
@[simp] theorem setBu_satPages (s : State) (x : BringUp) : (s.setBu x).satPages = s.satPages := rfl
@[simp] theorem setBu_net (s : State) (x : BringUp) : (s.setBu x).net = s.net := rfl
@[simp] theorem setBu_sec (s : State) (x : BringUp) : (s.setBu x).sec = s.sec := rfl
@[simp] theorem setBu_ck (s : State) (x : BringUp) : (s.setBu x).ck = s.ck := rfl
@[simp] theorem setBu_pw (s : State) (x : BringUp) : (s.setBu x).pw = s.pw := rfl
@[simp] theorem setBu_bu (s : State) (x : BringUp) : (s.setBu x).bu = x := rfl
@[simp] theorem setBu_tear (s : State) (x : BringUp) : (s.setBu x).tear = s.tear := rfl
@[simp] theorem setBu_tests (s : State) (x : BringUp) : (s.setBu x).tests = s.tests := rfl
@[simp] theorem setBu_allocStopped (s : State) (x : BringUp) : (s.setBu x).allocStopped = s.allocStopped := rfl
@[simp] theorem setBu_freeIdx (s : State) (x : BringUp) : (s.setBu x).freeIdx = s.freeIdx := rfl
@[simp] theorem setBu_pending (s : State) (x : BringUp) : (s.setBu x).pending = s.pending := rfl
@[simp] theorem setCk_io (s : State) (x : Clocks) : (s.setCk x).io = s.io := rfl
@[simp] theorem setCk_yt (s : State) (x : Clocks) : (s.setCk x).yt = s.yt := rfl
@[simp] theorem setCk_t1 (s : State) (x : Clocks) : (s.setCk x).t1 = s.t1 := rfl
@[simp] theorem setCk_shed (s : State) (x : Clocks) : (s.setCk x).shed = s.shed := rfl
@[simp] theorem setCk_prefetch (s : State) (x : Clocks) : (s.setCk x).prefetch = s.prefetch := rfl
@[simp] theorem setCk_stalls (s : State) (x : Clocks) : (s.setCk x).stalls = s.stalls := rfl
@[simp] theorem setCk_units (s : State) (x : Clocks) : (s.setCk x).units = s.units := rfl
@[simp] theorem setCk_ops (s : State) (x : Clocks) : (s.setCk x).ops = s.ops := rfl
@[simp] theorem setCk_mirrors (s : State) (x : Clocks) : (s.setCk x).mirrors = s.mirrors := rfl
@[simp] theorem setCk_redirects (s : State) (x : Clocks) : (s.setCk x).redirects = s.redirects := rfl
@[simp] theorem setCk_cp (s : State) (x : Clocks) : (s.setCk x).cp = s.cp := rfl
@[simp] theorem setCk_cpSlots (s : State) (x : Clocks) : (s.setCk x).cpSlots = s.cpSlots := rfl
@[simp] theorem setCk_contexts (s : State) (x : Clocks) : (s.setCk x).contexts = s.contexts := rfl
@[simp] theorem setCk_answers (s : State) (x : Clocks) : (s.setCk x).answers = s.answers := rfl
@[simp] theorem setCk_windows (s : State) (x : Clocks) : (s.setCk x).windows = s.windows := rfl
@[simp] theorem setCk_tallies (s : State) (x : Clocks) : (s.setCk x).tallies = s.tallies := rfl
@[simp] theorem setCk_aisle (s : State) (x : Clocks) : (s.setCk x).aisle = s.aisle := rfl
@[simp] theorem setCk_textCache (s : State) (x : Clocks) : (s.setCk x).textCache = s.textCache := rfl
@[simp] theorem setCk_rounds (s : State) (x : Clocks) : (s.setCk x).rounds = s.rounds := rfl
@[simp] theorem setCk_parts (s : State) (x : Clocks) : (s.setCk x).parts = s.parts := rfl
@[simp] theorem setCk_svChanged (s : State) (x : Clocks) : (s.setCk x).svChanged = s.svChanged := rfl
@[simp] theorem setCk_periodEnd (s : State) (x : Clocks) : (s.setCk x).periodEnd = s.periodEnd := rfl
@[simp] theorem setCk_emptyRaised (s : State) (x : Clocks) : (s.setCk x).emptyRaised = s.emptyRaised := rfl
@[simp] theorem setCk_satPages (s : State) (x : Clocks) : (s.setCk x).satPages = s.satPages := rfl
@[simp] theorem setCk_net (s : State) (x : Clocks) : (s.setCk x).net = s.net := rfl
@[simp] theorem setCk_sec (s : State) (x : Clocks) : (s.setCk x).sec = s.sec := rfl
@[simp] theorem setCk_ck (s : State) (x : Clocks) : (s.setCk x).ck = x := rfl
@[simp] theorem setCk_pw (s : State) (x : Clocks) : (s.setCk x).pw = s.pw := rfl
@[simp] theorem setCk_bu (s : State) (x : Clocks) : (s.setCk x).bu = s.bu := rfl
@[simp] theorem setCk_tear (s : State) (x : Clocks) : (s.setCk x).tear = s.tear := rfl
@[simp] theorem setCk_tests (s : State) (x : Clocks) : (s.setCk x).tests = s.tests := rfl
@[simp] theorem setCk_allocStopped (s : State) (x : Clocks) : (s.setCk x).allocStopped = s.allocStopped := rfl
@[simp] theorem setCk_freeIdx (s : State) (x : Clocks) : (s.setCk x).freeIdx = s.freeIdx := rfl
@[simp] theorem setCk_pending (s : State) (x : Clocks) : (s.setCk x).pending = s.pending := rfl
@[simp] theorem setPw_io (s : State) (x : Power) : (s.setPw x).io = s.io := rfl
@[simp] theorem setPw_yt (s : State) (x : Power) : (s.setPw x).yt = s.yt := rfl
@[simp] theorem setPw_t1 (s : State) (x : Power) : (s.setPw x).t1 = s.t1 := rfl
@[simp] theorem setPw_shed (s : State) (x : Power) : (s.setPw x).shed = s.shed := rfl
@[simp] theorem setPw_prefetch (s : State) (x : Power) : (s.setPw x).prefetch = s.prefetch := rfl
@[simp] theorem setPw_stalls (s : State) (x : Power) : (s.setPw x).stalls = s.stalls := rfl
@[simp] theorem setPw_units (s : State) (x : Power) : (s.setPw x).units = s.units := rfl
@[simp] theorem setPw_ops (s : State) (x : Power) : (s.setPw x).ops = s.ops := rfl
@[simp] theorem setPw_mirrors (s : State) (x : Power) : (s.setPw x).mirrors = s.mirrors := rfl
@[simp] theorem setPw_redirects (s : State) (x : Power) : (s.setPw x).redirects = s.redirects := rfl
@[simp] theorem setPw_cp (s : State) (x : Power) : (s.setPw x).cp = s.cp := rfl
@[simp] theorem setPw_cpSlots (s : State) (x : Power) : (s.setPw x).cpSlots = s.cpSlots := rfl
@[simp] theorem setPw_contexts (s : State) (x : Power) : (s.setPw x).contexts = s.contexts := rfl
@[simp] theorem setPw_answers (s : State) (x : Power) : (s.setPw x).answers = s.answers := rfl
@[simp] theorem setPw_windows (s : State) (x : Power) : (s.setPw x).windows = s.windows := rfl
@[simp] theorem setPw_tallies (s : State) (x : Power) : (s.setPw x).tallies = s.tallies := rfl
@[simp] theorem setPw_aisle (s : State) (x : Power) : (s.setPw x).aisle = s.aisle := rfl
@[simp] theorem setPw_textCache (s : State) (x : Power) : (s.setPw x).textCache = s.textCache := rfl
@[simp] theorem setPw_rounds (s : State) (x : Power) : (s.setPw x).rounds = s.rounds := rfl
@[simp] theorem setPw_parts (s : State) (x : Power) : (s.setPw x).parts = s.parts := rfl
@[simp] theorem setPw_svChanged (s : State) (x : Power) : (s.setPw x).svChanged = s.svChanged := rfl
@[simp] theorem setPw_periodEnd (s : State) (x : Power) : (s.setPw x).periodEnd = s.periodEnd := rfl
@[simp] theorem setPw_emptyRaised (s : State) (x : Power) : (s.setPw x).emptyRaised = s.emptyRaised := rfl
@[simp] theorem setPw_satPages (s : State) (x : Power) : (s.setPw x).satPages = s.satPages := rfl
@[simp] theorem setPw_net (s : State) (x : Power) : (s.setPw x).net = s.net := rfl
@[simp] theorem setPw_sec (s : State) (x : Power) : (s.setPw x).sec = s.sec := rfl
@[simp] theorem setPw_ck (s : State) (x : Power) : (s.setPw x).ck = s.ck := rfl
@[simp] theorem setPw_pw (s : State) (x : Power) : (s.setPw x).pw = x := rfl
@[simp] theorem setPw_bu (s : State) (x : Power) : (s.setPw x).bu = s.bu := rfl
@[simp] theorem setPw_tear (s : State) (x : Power) : (s.setPw x).tear = s.tear := rfl
@[simp] theorem setPw_tests (s : State) (x : Power) : (s.setPw x).tests = s.tests := rfl
@[simp] theorem setPw_allocStopped (s : State) (x : Power) : (s.setPw x).allocStopped = s.allocStopped := rfl
@[simp] theorem setPw_freeIdx (s : State) (x : Power) : (s.setPw x).freeIdx = s.freeIdx := rfl
@[simp] theorem setPw_pending (s : State) (x : Power) : (s.setPw x).pending = s.pending := rfl
@[simp] theorem setSec_io (s : State) (x : SecX) : (s.setSec x).io = s.io := rfl
@[simp] theorem setSec_yt (s : State) (x : SecX) : (s.setSec x).yt = s.yt := rfl
@[simp] theorem setSec_t1 (s : State) (x : SecX) : (s.setSec x).t1 = s.t1 := rfl
@[simp] theorem setSec_shed (s : State) (x : SecX) : (s.setSec x).shed = s.shed := rfl
@[simp] theorem setSec_prefetch (s : State) (x : SecX) : (s.setSec x).prefetch = s.prefetch := rfl
@[simp] theorem setSec_stalls (s : State) (x : SecX) : (s.setSec x).stalls = s.stalls := rfl
@[simp] theorem setSec_units (s : State) (x : SecX) : (s.setSec x).units = s.units := rfl
@[simp] theorem setSec_ops (s : State) (x : SecX) : (s.setSec x).ops = s.ops := rfl
@[simp] theorem setSec_mirrors (s : State) (x : SecX) : (s.setSec x).mirrors = s.mirrors := rfl
@[simp] theorem setSec_redirects (s : State) (x : SecX) : (s.setSec x).redirects = s.redirects := rfl
@[simp] theorem setSec_cp (s : State) (x : SecX) : (s.setSec x).cp = s.cp := rfl
@[simp] theorem setSec_cpSlots (s : State) (x : SecX) : (s.setSec x).cpSlots = s.cpSlots := rfl
@[simp] theorem setSec_contexts (s : State) (x : SecX) : (s.setSec x).contexts = s.contexts := rfl
@[simp] theorem setSec_answers (s : State) (x : SecX) : (s.setSec x).answers = s.answers := rfl
@[simp] theorem setSec_windows (s : State) (x : SecX) : (s.setSec x).windows = s.windows := rfl
@[simp] theorem setSec_tallies (s : State) (x : SecX) : (s.setSec x).tallies = s.tallies := rfl
@[simp] theorem setSec_aisle (s : State) (x : SecX) : (s.setSec x).aisle = s.aisle := rfl
@[simp] theorem setSec_textCache (s : State) (x : SecX) : (s.setSec x).textCache = s.textCache := rfl
@[simp] theorem setSec_rounds (s : State) (x : SecX) : (s.setSec x).rounds = s.rounds := rfl
@[simp] theorem setSec_parts (s : State) (x : SecX) : (s.setSec x).parts = s.parts := rfl
@[simp] theorem setSec_svChanged (s : State) (x : SecX) : (s.setSec x).svChanged = s.svChanged := rfl
@[simp] theorem setSec_periodEnd (s : State) (x : SecX) : (s.setSec x).periodEnd = s.periodEnd := rfl
@[simp] theorem setSec_emptyRaised (s : State) (x : SecX) : (s.setSec x).emptyRaised = s.emptyRaised := rfl
@[simp] theorem setSec_satPages (s : State) (x : SecX) : (s.setSec x).satPages = s.satPages := rfl
@[simp] theorem setSec_net (s : State) (x : SecX) : (s.setSec x).net = s.net := rfl
@[simp] theorem setSec_sec (s : State) (x : SecX) : (s.setSec x).sec = x := rfl
@[simp] theorem setSec_ck (s : State) (x : SecX) : (s.setSec x).ck = s.ck := rfl
@[simp] theorem setSec_pw (s : State) (x : SecX) : (s.setSec x).pw = s.pw := rfl
@[simp] theorem setSec_bu (s : State) (x : SecX) : (s.setSec x).bu = s.bu := rfl
@[simp] theorem setSec_tear (s : State) (x : SecX) : (s.setSec x).tear = s.tear := rfl
@[simp] theorem setSec_tests (s : State) (x : SecX) : (s.setSec x).tests = s.tests := rfl
@[simp] theorem setSec_allocStopped (s : State) (x : SecX) : (s.setSec x).allocStopped = s.allocStopped := rfl
@[simp] theorem setSec_freeIdx (s : State) (x : SecX) : (s.setSec x).freeIdx = s.freeIdx := rfl
@[simp] theorem setSec_pending (s : State) (x : SecX) : (s.setSec x).pending = s.pending := rfl
@[simp] theorem updUnits_io (s : State) (f : Units → Units) : (s.updUnits f).io = s.io := rfl
@[simp] theorem updUnits_yt (s : State) (f : Units → Units) : (s.updUnits f).yt = s.yt := rfl
@[simp] theorem updUnits_t1 (s : State) (f : Units → Units) : (s.updUnits f).t1 = s.t1 := rfl
@[simp] theorem updUnits_shed (s : State) (f : Units → Units) : (s.updUnits f).shed = s.shed := rfl
@[simp] theorem updUnits_prefetch (s : State) (f : Units → Units) : (s.updUnits f).prefetch = s.prefetch := rfl
@[simp] theorem updUnits_stalls (s : State) (f : Units → Units) : (s.updUnits f).stalls = s.stalls := rfl
@[simp] theorem updUnits_units (s : State) (f : Units → Units) : (s.updUnits f).units = f s.units := rfl
@[simp] theorem updUnits_ops (s : State) (f : Units → Units) : (s.updUnits f).ops = s.ops := rfl
@[simp] theorem updUnits_mirrors (s : State) (f : Units → Units) : (s.updUnits f).mirrors = s.mirrors := rfl
@[simp] theorem updUnits_redirects (s : State) (f : Units → Units) : (s.updUnits f).redirects = s.redirects := rfl
@[simp] theorem updUnits_cp (s : State) (f : Units → Units) : (s.updUnits f).cp = s.cp := rfl
@[simp] theorem updUnits_cpSlots (s : State) (f : Units → Units) : (s.updUnits f).cpSlots = s.cpSlots := rfl
@[simp] theorem updUnits_contexts (s : State) (f : Units → Units) : (s.updUnits f).contexts = s.contexts := rfl
@[simp] theorem updUnits_answers (s : State) (f : Units → Units) : (s.updUnits f).answers = s.answers := rfl
@[simp] theorem updUnits_windows (s : State) (f : Units → Units) : (s.updUnits f).windows = s.windows := rfl
@[simp] theorem updUnits_tallies (s : State) (f : Units → Units) : (s.updUnits f).tallies = s.tallies := rfl
@[simp] theorem updUnits_aisle (s : State) (f : Units → Units) : (s.updUnits f).aisle = s.aisle := rfl
@[simp] theorem updUnits_textCache (s : State) (f : Units → Units) : (s.updUnits f).textCache = s.textCache := rfl
@[simp] theorem updUnits_rounds (s : State) (f : Units → Units) : (s.updUnits f).rounds = s.rounds := rfl
@[simp] theorem updUnits_parts (s : State) (f : Units → Units) : (s.updUnits f).parts = s.parts := rfl
@[simp] theorem updUnits_svChanged (s : State) (f : Units → Units) : (s.updUnits f).svChanged = s.svChanged := rfl
@[simp] theorem updUnits_periodEnd (s : State) (f : Units → Units) : (s.updUnits f).periodEnd = s.periodEnd := rfl
@[simp] theorem updUnits_emptyRaised (s : State) (f : Units → Units) : (s.updUnits f).emptyRaised = s.emptyRaised := rfl
@[simp] theorem updUnits_satPages (s : State) (f : Units → Units) : (s.updUnits f).satPages = s.satPages := rfl
@[simp] theorem updUnits_net (s : State) (f : Units → Units) : (s.updUnits f).net = s.net := rfl
@[simp] theorem updUnits_sec (s : State) (f : Units → Units) : (s.updUnits f).sec = s.sec := rfl
@[simp] theorem updUnits_ck (s : State) (f : Units → Units) : (s.updUnits f).ck = s.ck := rfl
@[simp] theorem updUnits_pw (s : State) (f : Units → Units) : (s.updUnits f).pw = s.pw := rfl
@[simp] theorem updUnits_bu (s : State) (f : Units → Units) : (s.updUnits f).bu = s.bu := rfl
@[simp] theorem updUnits_tear (s : State) (f : Units → Units) : (s.updUnits f).tear = s.tear := rfl
@[simp] theorem updUnits_tests (s : State) (f : Units → Units) : (s.updUnits f).tests = s.tests := rfl
@[simp] theorem updUnits_allocStopped (s : State) (f : Units → Units) : (s.updUnits f).allocStopped = s.allocStopped := rfl
@[simp] theorem updUnits_freeIdx (s : State) (f : Units → Units) : (s.updUnits f).freeIdx = s.freeIdx := rfl
@[simp] theorem updUnits_pending (s : State) (f : Units → Units) : (s.updUnits f).pending = s.pending := rfl
@[simp] theorem setRedirects_io (s : State) (l : List (Nat × Nat × Nat)) : (s.setRedirects l).io = s.io := rfl
@[simp] theorem setRedirects_yt (s : State) (l : List (Nat × Nat × Nat)) : (s.setRedirects l).yt = s.yt := rfl
@[simp] theorem setRedirects_t1 (s : State) (l : List (Nat × Nat × Nat)) : (s.setRedirects l).t1 = s.t1 := rfl
@[simp] theorem setRedirects_shed (s : State) (l : List (Nat × Nat × Nat)) : (s.setRedirects l).shed = s.shed := rfl
@[simp] theorem setRedirects_prefetch (s : State) (l : List (Nat × Nat × Nat)) : (s.setRedirects l).prefetch = s.prefetch := rfl
@[simp] theorem setRedirects_stalls (s : State) (l : List (Nat × Nat × Nat)) : (s.setRedirects l).stalls = s.stalls := rfl
@[simp] theorem setRedirects_units (s : State) (l : List (Nat × Nat × Nat)) : (s.setRedirects l).units = s.units := rfl
@[simp] theorem setRedirects_ops (s : State) (l : List (Nat × Nat × Nat)) : (s.setRedirects l).ops = s.ops := rfl
@[simp] theorem setRedirects_mirrors (s : State) (l : List (Nat × Nat × Nat)) : (s.setRedirects l).mirrors = s.mirrors := rfl
@[simp] theorem setRedirects_redirects (s : State) (l : List (Nat × Nat × Nat)) : (s.setRedirects l).redirects = l := rfl
@[simp] theorem setRedirects_cp (s : State) (l : List (Nat × Nat × Nat)) : (s.setRedirects l).cp = s.cp := rfl
@[simp] theorem setRedirects_cpSlots (s : State) (l : List (Nat × Nat × Nat)) : (s.setRedirects l).cpSlots = s.cpSlots := rfl
@[simp] theorem setRedirects_contexts (s : State) (l : List (Nat × Nat × Nat)) : (s.setRedirects l).contexts = s.contexts := rfl
@[simp] theorem setRedirects_answers (s : State) (l : List (Nat × Nat × Nat)) : (s.setRedirects l).answers = s.answers := rfl
@[simp] theorem setRedirects_windows (s : State) (l : List (Nat × Nat × Nat)) : (s.setRedirects l).windows = s.windows := rfl
@[simp] theorem setRedirects_tallies (s : State) (l : List (Nat × Nat × Nat)) : (s.setRedirects l).tallies = s.tallies := rfl
@[simp] theorem setRedirects_aisle (s : State) (l : List (Nat × Nat × Nat)) : (s.setRedirects l).aisle = s.aisle := rfl
@[simp] theorem setRedirects_textCache (s : State) (l : List (Nat × Nat × Nat)) : (s.setRedirects l).textCache = s.textCache := rfl
@[simp] theorem setRedirects_rounds (s : State) (l : List (Nat × Nat × Nat)) : (s.setRedirects l).rounds = s.rounds := rfl
@[simp] theorem setRedirects_parts (s : State) (l : List (Nat × Nat × Nat)) : (s.setRedirects l).parts = s.parts := rfl
@[simp] theorem setRedirects_svChanged (s : State) (l : List (Nat × Nat × Nat)) : (s.setRedirects l).svChanged = s.svChanged := rfl
@[simp] theorem setRedirects_periodEnd (s : State) (l : List (Nat × Nat × Nat)) : (s.setRedirects l).periodEnd = s.periodEnd := rfl
@[simp] theorem setRedirects_emptyRaised (s : State) (l : List (Nat × Nat × Nat)) : (s.setRedirects l).emptyRaised = s.emptyRaised := rfl
@[simp] theorem setRedirects_satPages (s : State) (l : List (Nat × Nat × Nat)) : (s.setRedirects l).satPages = s.satPages := rfl
@[simp] theorem setRedirects_net (s : State) (l : List (Nat × Nat × Nat)) : (s.setRedirects l).net = s.net := rfl
@[simp] theorem setRedirects_sec (s : State) (l : List (Nat × Nat × Nat)) : (s.setRedirects l).sec = s.sec := rfl
@[simp] theorem setRedirects_ck (s : State) (l : List (Nat × Nat × Nat)) : (s.setRedirects l).ck = s.ck := rfl
@[simp] theorem setRedirects_pw (s : State) (l : List (Nat × Nat × Nat)) : (s.setRedirects l).pw = s.pw := rfl
@[simp] theorem setRedirects_bu (s : State) (l : List (Nat × Nat × Nat)) : (s.setRedirects l).bu = s.bu := rfl
@[simp] theorem setRedirects_tear (s : State) (l : List (Nat × Nat × Nat)) : (s.setRedirects l).tear = s.tear := rfl
@[simp] theorem setRedirects_tests (s : State) (l : List (Nat × Nat × Nat)) : (s.setRedirects l).tests = s.tests := rfl
@[simp] theorem setRedirects_allocStopped (s : State) (l : List (Nat × Nat × Nat)) : (s.setRedirects l).allocStopped = s.allocStopped := rfl
@[simp] theorem setRedirects_freeIdx (s : State) (l : List (Nat × Nat × Nat)) : (s.setRedirects l).freeIdx = s.freeIdx := rfl
@[simp] theorem setRedirects_pending (s : State) (l : List (Nat × Nat × Nat)) : (s.setRedirects l).pending = s.pending := rfl

/-! ### Bit fields -/

theorem fieldMask_bit (lo width i : Nat) (hi : i < 64) : (fieldMask lo width).getLsbD i = decide (lo ≤ i ∧ i < lo + width) := by
  simp only [fieldMask, BitVec.getLsbD_shiftLeft, BitVec.getLsbD_setWidth, BitVec.getLsbD_allOnes, hi, decide_true, Bool.true_and]
  by_cases h : lo ≤ i <;> by_cases k : i < lo + width <;> simp [h, k] <;> omega

/-- The bits of a word with a field set. -/
theorem fieldSet_bit (v : Word) (lo width x i : Nat) (hi : i < 64) :
    (fieldSet v lo width x).getLsbD i = if lo ≤ i ∧ i < lo + width then x.testBit (i - lo) else v.getLsbD i := by
  simp only [fieldSet, BitVec.getLsbD_or, BitVec.getLsbD_and, BitVec.getLsbD_not, fieldMask_bit _ _ _ hi, BitVec.getLsbD_shiftLeft,
    BitVec.getLsbD_setWidth, BitVec.getLsbD_ofNat, hi, decide_true, Bool.true_and]
  by_cases h : lo ≤ i <;> by_cases k : i < lo + width
  · have : i - lo < width := by omega
    have : i - lo < 64 := by omega
    simp [*, Nat.not_lt.mpr h]
  · have : ¬ i - lo < width := by omega
    simp [*]
  · simp [h, Nat.lt_of_not_le h]
  · simp [h, Nat.lt_of_not_le h]

/-- A field reads as what was set, cut to its width. -/
@[simp] theorem fieldGet_set_same (v : Word) (lo width x : Nat) (h : lo + width ≤ 64) : fieldGet (fieldSet v lo width x) lo width = x % 2 ^ width := by
  apply Nat.eq_of_testBit_eq
  intro i
  simp only [fieldGet, BitVec.testBit_toNat, BitVec.getLsbD_extractLsb', Nat.testBit_mod_two_pow]
  by_cases hi : i < width
  · rw [fieldSet_bit _ _ _ _ _ (by omega), if_pos (by omega)]
    simp [hi]
  · simp [hi]

/-- A field apart from the one set reads as before. -/
theorem fieldGet_set_other (v : Word) (lo width x lo' width' : Nat) (h : lo' + width' ≤ lo ∨ lo + width ≤ lo') :
    fieldGet (fieldSet v lo width x) lo' width' = fieldGet v lo' width' := by
  apply Nat.eq_of_testBit_eq
  intro i
  simp only [fieldGet, BitVec.testBit_toNat, BitVec.getLsbD_extractLsb']
  by_cases hi : i < width'
  · by_cases h64 : lo' + i < 64
    · rw [fieldSet_bit _ _ _ _ _ h64, if_neg (by omega)]
    · rw [BitVec.getLsbD_of_ge _ _ (by omega), BitVec.getLsbD_of_ge _ _ (by omega)]
  · simp [hi]

/-! ### Registers -/

@[simp] theorem reg_setReg_same (io : Io) (off : Nat) (v : Word) : (io.setReg off v).reg off = v := sparseGet_put_same _ _ _ _
theorem reg_setReg_other (io : Io) (off off' : Nat) (v : Word) (h : off' ≠ off) : (io.setReg off v).reg off' = io.reg off' :=
  sparseGet_put_other _ _ _ _ _ _ h

/-- A field set whole reads as what was set. -/
theorem get_put_same (io : Io) (f : RegField) (x : Nat) (h : f.lo + f.width ≤ 64) : (io.put f x).get f = x % 2 ^ f.width := by
  simp only [Io.get, Io.put, reg_setReg_same]; exact fieldGet_set_same _ _ _ _ h

/-- A field of another register, or of other bits, reads as before. -/
theorem get_put_other (io : Io) (f g : RegField) (x : Nat) (h : g.off ≠ f.off ∨ g.lo + g.width ≤ f.lo ∨ f.lo + f.width ≤ g.lo) :
    (io.put f x).get g = io.get g := by
  simp only [Io.get, Io.put]
  by_cases ho : g.off = f.off
  · rw [ho, reg_setReg_same]; exact fieldGet_set_other _ _ _ _ _ _ (by omega)
  · rw [reg_setReg_other _ _ _ _ ho]

theorem get_bump_same (io : Io) (f : RegField) (n : Nat) (h : f.lo + f.width ≤ 64) : (io.bump f n).get f = (io.get f + n) % 2 ^ f.width :=
  get_put_same io f _ h
theorem get_bump_other (io : Io) (f g : RegField) (n : Nat) (h : g.off ≠ f.off ∨ g.lo + g.width ≤ f.lo ∨ f.lo + f.width ≤ g.lo) :
    (io.bump f n).get g = io.get g := get_put_other io f g _ h

theorem reg_put_other (io : Io) (f : RegField) (x off : Nat) (h : off ≠ f.off) : (io.put f x).reg off = io.reg off :=
  reg_setReg_other _ _ _ _ h
theorem reg_bump_other (io : Io) (f : RegField) (x off : Nat) (h : off ≠ f.off) : (io.bump f x).reg off = io.reg off :=
  reg_setReg_other _ _ _ _ h
theorem get_setReg_other (io : Io) (off : Nat) (v : Word) (f : RegField) (h : f.off ≠ off) : (io.setReg off v).get f = io.get f := by
  simp only [Io.get]; rw [reg_setReg_other _ _ _ _ h]
theorem get_setReg_zero (io : Io) (off : Nat) (f : RegField) (h : f.off = off) : (io.setReg off 0).get f = 0 := by
  simp [Io.get, h, fieldGet]

/-- What `put`, `setReg`, `bump` and `emit` leave beside the registers. -/
@[simp] theorem put_queues (io : Io) (f : RegField) (x : Nat) : (io.put f x).queues = io.queues := rfl
@[simp] theorem put_queue (io : Io) (f : RegField) (x q : Nat) : (io.put f x).queue q = io.queue q := rfl
@[simp] theorem bump_queue (io : Io) (f : RegField) (x q : Nat) : (io.bump f x).queue q = io.queue q := rfl
@[simp] theorem setReg_queue (io : Io) (off : Nat) (v : Word) (q : Nat) : (io.setReg off v).queue q = io.queue q := rfl
@[simp] theorem emit_queue (io : Io) (o : Out) (q : Nat) : (io.emit o).queue q = io.queue q := by unfold Io.emit; (repeat' split) <;> rfl
@[simp] theorem setQueue_queue_same (io : Io) (q : Nat) (x : QueueX) : (io.setQueue q x).queue q = x := sparseGet_put_same _ _ _ _
theorem setQueue_queue_other (io : Io) (q r : Nat) (x : QueueX) (h : r ≠ q) : (io.setQueue q x).queue r = io.queue r := sparseGet_put_other _ _ _ _ _ _ h
@[simp] theorem setQueue_reg (io : Io) (q : Nat) (x : QueueX) (off : Nat) : (io.setQueue q x).reg off = io.reg off := rfl
@[simp] theorem setQueue_get (io : Io) (q : Nat) (x : QueueX) (f : RegField) : (io.setQueue q x).get f = io.get f := rfl
@[simp] theorem setQueue_out (io : Io) (q : Nat) (x : QueueX) : (io.setQueue q x).out = io.out := rfl
@[simp] theorem put_out (io : Io) (f : RegField) (x : Nat) : (io.put f x).out = io.out := rfl
@[simp] theorem bump_out (io : Io) (f : RegField) (x : Nat) : (io.bump f x).out = io.out := rfl
@[simp] theorem put_fatal (io : Io) (f : RegField) (x : Nat) : (io.put f x).fatal = io.fatal := rfl
@[simp] theorem bump_fatal (io : Io) (f : RegField) (x : Nat) : (io.bump f x).fatal = io.fatal := rfl
@[simp] theorem setQueue_fatal (io : Io) (q : Nat) (x : QueueX) : (io.setQueue q x).fatal = io.fatal := rfl
@[simp] theorem emit_fatal (io : Io) (o : Out) : (io.emit o).fatal = io.fatal := by unfold Io.emit; (repeat' split) <;> rfl

/-- An output leaves every register but the counters of writes discarded at a port without an IDE stream. -/
theorem emit_reg_other (io : Io) (o : Out) (off : Nat) (h : ∀ p, off ≠ (Fld.GC_PORT_DROP_COUNT p).off) : (io.emit o).reg off = io.reg off := by
  unfold Io.emit
  (repeat' split) <;> first | rfl | exact reg_bump_other _ _ _ _ (h _)
theorem emit_get_other (io : Io) (o : Out) (f : RegField) (h : ∀ p, f.off ≠ (Fld.GC_PORT_DROP_COUNT p).off) : (io.emit o).get f = io.get f := by
  simp only [Io.get, emit_reg_other _ _ _ h]

/-! ### Slots -/

@[simp] theorem op_setOp_same (s : State) (i : Nat) (x : OpSlot) : (s.setOp i x).op i = x := sparseGet_put_same _ _ _ _
theorem op_setOp_other (s : State) (i j : Nat) (x : OpSlot) (h : j ≠ i) : (s.setOp i x).op j = s.op j := sparseGet_put_other _ _ _ _ _ _ h
@[simp] theorem stall_setStall_same (s : State) (i : Nat) (x : Stall) : (s.setStall i x).stall i = x := sparseGet_put_same _ _ _ _
theorem stall_setStall_other (s : State) (i j : Nat) (x : Stall) (h : j ≠ i) : (s.setStall i x).stall j = s.stall j :=
  sparseGet_put_other _ _ _ _ _ _ h
@[simp] theorem context_setContext_same (s : State) (i : Nat) (x : Context) : (s.setContext i x).context i = x := sparseGet_put_same _ _ _ _
theorem context_setContext_other (s : State) (i j : Nat) (x : Context) (h : j ≠ i) : (s.setContext i x).context j = s.context j :=
  sparseGet_put_other _ _ _ _ _ _ h

/-! ### The checks of a command -/

/-- A command held by its FENCE has no effect. -/
theorem runCmd_waits {s : State} {c : Cmd} {k : QueueKind} {e : Bool} {body : State → State} (h : s.fenceWaits c = true) : s.runCmd c k e body = s := by
  simp [State.runCmd, h]

/-- A command that fails no check does its own effect. -/
theorem runCmd_accepts {s : State} {c : Cmd} {k : QueueKind} {e : Bool} {body : State → State} (h : s.fenceWaits c = false)
    (g : s.gate c k e = none) : s.runCmd c k e body = body s := by
  simp [State.runCmd, h, g]

/-- A command that fails a check completes with that check's status. -/
theorem runCmd_refuses {s : State} {c : Cmd} {k : QueueKind} {e : Bool} {body : State → State} {st : Nat} (h : s.fenceWaits c = false)
    (g : s.gate c k e = some st) (hn : st ≠ CS.notOwner) : s.runCmd c k e body = s.complete c st := by
  simp [State.runCmd, h, g, hn, State.turnAway, State.complete]

/-- A command that no checkpoint holds goes on. -/
theorem runHeld_accepts {s : State} {c : Cmd} {k : QueueKind} {e : Bool} {body : State → State} (h : AcceptedHeld s c k e) :
    s.runHeld c k e body = body s := by
  unfold State.runHeld
  split
  · rename_i q hq
    rw [h.2 ⟨q, hq⟩]; simp [runCmd_accepts h.1.1 h.1.2]
  · exact runCmd_accepts h.1.1 h.1.2

/-- A queue's command is held while a checkpoint is taken. -/
theorem runHeld_held {s : State} {c : Cmd} {k : QueueKind} {e : Bool} {body : State → State} {q : Nat} (h : c.issuer = .queue q)
    (f : s.freezing = true) : s.runHeld c k e body = s := by
  unfold State.runHeld; rw [h]; simp [f]

theorem runCmd_accepted {s : State} {c : Cmd} {k : QueueKind} {e : Bool} {body : State → State} (h : Accepted s c k e) : s.runCmd c k e body = body s :=
  runCmd_accepts h.1 h.2

/-- A register write that its port may make. -/
theorem fromPort_may {s : State} {w : RegWrite} {off : Nat} {f : State → State} (h : MayWrite s w off) : s.fromPort w off f = f s := by
  obtain ⟨h1, h2, h3⟩ := h
  unfold State.fromPort
  rw [h1]
  by_cases h8 : s.get Fld.BU_STATE_STATE = 8
  · have := h2 h8
    simp [h3, h8]
    intro a b; omega
  · simp [h3, h8]

end Sys2Proof.Laws
end

