-- ==== Sys2Proof/Laws/Insn.lean ====
section
/-! SUPPORT. What a step does with a Trondi instruction: where it executes, the outcome of its own effect alone decides; and what becomes of
one that is not fetched, not allowed, badly encoded or predicated off. -/

namespace Sys2Proof.Laws

open Sys2Proof Sys2Proof.Machine Sys2Proof.Safety

/-- An instruction that executes does its own effect. -/
theorem runInsn_executes {i : Instr} {s : State} {n : Insn} {cls op : Nat} {sh : Shape} (body : State → UnitX → Did) (he : Executes i s)
    (ht : trondi i = some (n, cls, op, sh)) :
    s.runInsn n cls op sh body = didEnd n cls op ((seen n cls s).unit n.slot n.unit) (body (seen n cls s) ((seen n cls s).unit n.slot n.unit)) := by
  unfold Executes at he
  rw [ht] at he
  obtain ⟨⟨h1, h2, h3, hw⟩, h4, h5, h6, h7, h8⟩ := he
  unfold State.unit at h2 h3 h6 h7
  have h2' : ¬ (s.context n.slot).codeBytes < (unitGet (s.context n.slot) n.unit).pc + 16 := by omega
  have hs : (if ((s.context n.slot).hub || decide (n.ecc = 0) || decide (cls = 2)) = true then s else s.cellEcc n.unit n.ecc) = seen n cls s := rfl
  unfold State.runInsn
  simp only [h1, h4, h5, h6, h7, h2', h3, hs, hw]
  generalize seen n cls s = t at h8 ⊢
  simp only [h8]
  simp only [Bool.not_true, Bool.false_eq_true, if_false, decide_false, Bool.or_self, ne_eq, not_true]
  cases body t (t.unit n.slot n.unit) <;> rfl

/-- An access that fails has a cause of R259. -/
theorem accessIn_cause {s : State} {n : Insn} {space lo len align : Nat} {write weight : Bool} {c : Nat}
    (h : s.accessIn n space lo len align write weight = .error c) : c ≠ rereadWait := by
  unfold State.accessIn State.tier1Access readCause at h
  dsimp only at h
  repeat' split at h
  all_goals first | (cases h; decide) | cases h

theorem access_cause {s : State} {n : Insn} {addr : Word} {len align : Nat} {write : Bool} {c : Nat}
    (h : s.access n addr len align write = .error c) : c ≠ rereadWait := accessIn_cause h

/-- The first error of a traversal is that of one of its elements. -/
theorem mapM_error {α β ε : Type} {f : α → Except ε β} {l : List α} {e : ε} (h : l.mapM f = .error e) : ∃ a ∈ l, f a = .error e := by
  induction l with
  | nil => cases h
  | cons a l ih =>
    rw [List.mapM_cons] at h
    cases hf : f a with
    | error x =>
      rw [hf] at h
      cases h
      exact ⟨a, List.mem_cons_self, hf⟩
    | ok b =>
      rw [hf] at h
      cases hl : l.mapM f with
      | error x =>
        obtain ⟨q, hq, he⟩ := ih (by
          change (do let bs ← l.mapM f; pure (b :: bs)) = Except.error e at h
          rw [hl] at h ⊢
          cases h
          rfl)
        exact ⟨q, List.mem_cons_of_mem _ hq, he⟩
      | ok bs =>
        change (do let bs ← l.mapM f; pure (b :: bs)) = Except.error e at h
        rw [hl] at h
        cases h

/-- A tile that fails has a cause of R259. -/
theorem tileRows_cause {s : State} {n : Insn} {t : Tile} {write : Bool} {f : Nat × Nat} (h : s.tileRows n t write = .error f) : f.1 ≠ rereadWait := by
  unfold State.tileRows at h
  dsimp only at h
  generalize (if t.space = 0 then 64 else 16) = q at h
  generalize (if t.space = 0 then 64 else 1) = q' at h
  split at h
  · cases h; decide
  split at h
  · cases h; exact (by decide : (0x05 : Nat) ≠ rereadWait)
  obtain ⟨r, _, hr⟩ := mapM_error h
  split at hr
  · next hc => cases hr; exact accessIn_cause hc
  · split at hr
    · cases hr; exact (by decide : (0x08 : Nat) ≠ rereadWait)
    · cases hr

/-- What `exec_trondi` says of an instruction. -/
def Issued (i : Instr) (s : State) : Prop :=
  match trondi i with
  | none => True
  | some (n, cls, op, sh) => ∃ body, exec i s = .next (s.runInsn n cls op sh body)

theorem issued_ctNop (n : Insn) (s : State) : Issued (.ctNop n) s := ⟨_, rfl⟩
theorem issued_ctBr (n : Insn) (s : State) : Issued (.ctBr n) s := ⟨_, rfl⟩
theorem issued_ctJmp (n : Insn) (s : State) : Issued (.ctJmp n) s := ⟨_, rfl⟩
theorem issued_ctCall (n : Insn) (s : State) : Issued (.ctCall n) s := ⟨_, rfl⟩
theorem issued_ctRet (n : Insn) (s : State) : Issued (.ctRet n) s := ⟨_, rfl⟩
theorem issued_ctLoop (n : Insn) (s : State) : Issued (.ctLoop n) s := ⟨_, rfl⟩
theorem issued_ctHalt (n : Insn) (s : State) : Issued (.ctHalt n) s := ⟨_, rfl⟩
theorem issued_ctTrap (n : Insn) (s : State) : Issued (.ctTrap n) s := ⟨_, rfl⟩
theorem issued_ctCmp (n : Insn) (s : State) : Issued (.ctCmp n) s := ⟨_, rfl⟩
theorem issued_ctPlog (n : Insn) (s : State) : Issued (.ctPlog n) s := ⟨_, rfl⟩
theorem issued_syFence (n : Insn) (s : State) : Issued (.syFence n) s := ⟨_, rfl⟩
theorem issued_sySig (n : Insn) (s : State) : Issued (.sySig n) s := ⟨_, rfl⟩
theorem issued_syWait (n : Insn) (s : State) : Issued (.syWait n) s := ⟨_, rfl⟩
theorem issued_syAt (n : Insn) (s : State) : Issued (.syAt n) s := ⟨_, rfl⟩
theorem issued_syYt (n : Insn) (s : State) : Issued (.syYt n) s := ⟨_, rfl⟩
theorem issued_mvLi (n : Insn) (s : State) : Issued (.mvLi n) s := ⟨_, rfl⟩
theorem issued_mvMov (n : Insn) (s : State) : Issued (.mvMov n) s := ⟨_, rfl⟩
theorem issued_mvAdd (n : Insn) (s : State) : Issued (.mvAdd n) s := by
  show ∃ body, execMvAdd n s = _
  unfold execMvAdd State.runAlu
  exact ⟨_, rfl⟩
theorem issued_mvSub (n : Insn) (s : State) : Issued (.mvSub n) s := by
  show ∃ body, execMvSub n s = _
  unfold execMvSub State.runAlu
  exact ⟨_, rfl⟩
theorem issued_mvMul (n : Insn) (s : State) : Issued (.mvMul n) s := by
  show ∃ body, execMvMul n s = _
  unfold execMvMul State.runAlu
  exact ⟨_, rfl⟩
theorem issued_mvAnd (n : Insn) (s : State) : Issued (.mvAnd n) s := by
  show ∃ body, execMvAnd n s = _
  unfold execMvAnd State.runAlu
  exact ⟨_, rfl⟩
theorem issued_mvOr (n : Insn) (s : State) : Issued (.mvOr n) s := by
  show ∃ body, execMvOr n s = _
  unfold execMvOr State.runAlu
  exact ⟨_, rfl⟩
theorem issued_mvXor (n : Insn) (s : State) : Issued (.mvXor n) s := by
  show ∃ body, execMvXor n s = _
  unfold execMvXor State.runAlu
  exact ⟨_, rfl⟩
theorem issued_mvShl (n : Insn) (s : State) : Issued (.mvShl n) s := by
  show ∃ body, execMvShl n s = _
  unfold execMvShl State.runAlu
  exact ⟨_, rfl⟩
theorem issued_mvShr (n : Insn) (s : State) : Issued (.mvShr n) s := by
  show ∃ body, execMvShr n s = _
  unfold execMvShr State.runAlu
  exact ⟨_, rfl⟩
theorem issued_mvSra (n : Insn) (s : State) : Issued (.mvSra n) s := by
  show ∃ body, execMvSra n s = _
  unfold execMvSra State.runAlu
  exact ⟨_, rfl⟩
theorem issued_mvMinu (n : Insn) (s : State) : Issued (.mvMinu n) s := by
  show ∃ body, execMvMinu n s = _
  unfold execMvMinu State.runAlu
  exact ⟨_, rfl⟩
theorem issued_mvMaxu (n : Insn) (s : State) : Issued (.mvMaxu n) s := by
  show ∃ body, execMvMaxu n s = _
  unfold execMvMaxu State.runAlu
  exact ⟨_, rfl⟩
theorem issued_mvMins (n : Insn) (s : State) : Issued (.mvMins n) s := by
  show ∃ body, execMvMins n s = _
  unfold execMvMins State.runAlu
  exact ⟨_, rfl⟩
theorem issued_mvMaxs (n : Insn) (s : State) : Issued (.mvMaxs n) s := by
  show ∃ body, execMvMaxs n s = _
  unfold execMvMaxs State.runAlu
  exact ⟨_, rfl⟩
theorem issued_mvLd (n : Insn) (s : State) : Issued (.mvLd n) s := ⟨_, rfl⟩
theorem issued_mvSt (n : Insn) (s : State) : Issued (.mvSt n) s := ⟨_, rfl⟩
theorem issued_mvTile (n : Insn) (s : State) : Issued (.mvTile n) s := ⟨_, rfl⟩
theorem issued_mvTget (n : Insn) (s : State) : Issued (.mvTget n) s := ⟨_, rfl⟩
theorem issued_mvCopy (n : Insn) (s : State) : Issued (.mvCopy n) s := ⟨_, rfl⟩
theorem issued_mvBcast (n : Insn) (s : State) : Issued (.mvBcast n) s := ⟨_, rfl⟩
theorem issued_mvGetl (n : Insn) (s : State) : Issued (.mvGetl n) s := ⟨_, rfl⟩
theorem issued_mvSetl (n : Insn) (s : State) : Issued (.mvSetl n) s := ⟨_, rfl⟩
theorem issued_mvSend (n : Insn) (s : State) : Issued (.mvSend n) s := ⟨_, rfl⟩
theorem issued_mvRecv (n : Insn) (s : State) : Issued (.mvRecv n) s := ⟨_, rfl⟩
theorem issued_mxMma (n : Insn) (s : State) : Issued (.mxMma n) s := ⟨_, rfl⟩
theorem issued_mxLd (n : Insn) (s : State) : Issued (.mxLd n) s := ⟨_, rfl⟩
theorem issued_mxSt (n : Insn) (s : State) : Issued (.mxSt n) s := ⟨_, rfl⟩
theorem issued_mxZero (n : Insn) (s : State) : Issued (.mxZero n) s := ⟨_, rfl⟩
theorem issued_vxFma (n : Insn) (s : State) : Issued (.vxFma n) s := ⟨_, rfl⟩
theorem issued_vxAdd (n : Insn) (s : State) : Issued (.vxAdd n) s := by
  show ∃ body, execVxAdd n s = _
  unfold execVxAdd State.runLanes
  exact ⟨_, rfl⟩
theorem issued_vxSub (n : Insn) (s : State) : Issued (.vxSub n) s := by
  show ∃ body, execVxSub n s = _
  unfold execVxSub State.runLanes
  exact ⟨_, rfl⟩
theorem issued_vxMul (n : Insn) (s : State) : Issued (.vxMul n) s := by
  show ∃ body, execVxMul n s = _
  unfold execVxMul State.runLanes
  exact ⟨_, rfl⟩
theorem issued_vxMax (n : Insn) (s : State) : Issued (.vxMax n) s := by
  show ∃ body, execVxMax n s = _
  unfold execVxMax State.runLanes
  exact ⟨_, rfl⟩
theorem issued_vxMin (n : Insn) (s : State) : Issued (.vxMin n) s := by
  show ∃ body, execVxMin n s = _
  unfold execVxMin State.runLanes
  exact ⟨_, rfl⟩
theorem issued_vxNeg (n : Insn) (s : State) : Issued (.vxNeg n) s := by
  show ∃ body, execVxNeg n s = _
  unfold execVxNeg State.runMap
  exact ⟨_, rfl⟩
theorem issued_vxAbs (n : Insn) (s : State) : Issued (.vxAbs n) s := by
  show ∃ body, execVxAbs n s = _
  unfold execVxAbs State.runMap
  exact ⟨_, rfl⟩
theorem issued_vxExp (n : Insn) (s : State) : Issued (.vxExp n) s := by
  show ∃ body, execVxExp n s = _
  unfold execVxExp State.runMap
  exact ⟨_, rfl⟩
theorem issued_vxLog (n : Insn) (s : State) : Issued (.vxLog n) s := by
  show ∃ body, execVxLog n s = _
  unfold execVxLog State.runMap
  exact ⟨_, rfl⟩
theorem issued_vxRcp (n : Insn) (s : State) : Issued (.vxRcp n) s := by
  show ∃ body, execVxRcp n s = _
  unfold execVxRcp State.runMap
  exact ⟨_, rfl⟩
theorem issued_vxRsqrt (n : Insn) (s : State) : Issued (.vxRsqrt n) s := by
  show ∃ body, execVxRsqrt n s = _
  unfold execVxRsqrt State.runMap
  exact ⟨_, rfl⟩
theorem issued_vxRedSum (n : Insn) (s : State) : Issued (.vxRedSum n) s := by
  show ∃ body, execVxRedSum n s = _
  unfold execVxRedSum State.runReduce
  exact ⟨_, rfl⟩
theorem issued_vxRedMax (n : Insn) (s : State) : Issued (.vxRedMax n) s := by
  show ∃ body, execVxRedMax n s = _
  unfold execVxRedMax State.runReduce
  exact ⟨_, rfl⟩
theorem issued_vxRedMin (n : Insn) (s : State) : Issued (.vxRedMin n) s := by
  show ∃ body, execVxRedMin n s = _
  unfold execVxRedMin State.runReduce
  exact ⟨_, rfl⟩
theorem issued_vxCvt (n : Insn) (s : State) : Issued (.vxCvt n) s := ⟨_, rfl⟩
theorem issued_vxRa (n : Insn) (s : State) : Issued (.vxRa n) s := ⟨_, rfl⟩
theorem issued_vxWa (n : Insn) (s : State) : Issued (.vxWa n) s := ⟨_, rfl⟩
theorem issued_vxIns (n : Insn) (s : State) : Issued (.vxIns n) s := ⟨_, rfl⟩
theorem issued_vxLmerge (n : Insn) (s : State) : Issued (.vxLmerge n) s := ⟨_, rfl⟩
theorem issued_vxLget (n : Insn) (s : State) : Issued (.vxLget n) s := ⟨_, rfl⟩
theorem issued_vxLnext (n : Insn) (s : State) : Issued (.vxLnext n) s := ⟨_, rfl⟩
theorem issued_vxLclr (n : Insn) (s : State) : Issued (.vxLclr n) s := ⟨_, rfl⟩
theorem issued_stCmd (n : Insn) (s : State) : Issued (.stCmd n) s := ⟨_, rfl⟩
theorem issued_stQuant (n : Insn) (s : State) : Issued (.stQuant n) s := ⟨_, rfl⟩
theorem issued_stAppend (n : Insn) (s : State) : Issued (.stAppend n) s := ⟨_, rfl⟩
theorem issued_stRd (n : Insn) (s : State) : Issued (.stRd n) s := ⟨_, rfl⟩
theorem issued_stLen (n : Insn) (s : State) : Issued (.stLen n) s := ⟨_, rfl⟩
theorem issued_stCommit (n : Insn) (s : State) : Issued (.stCommit n) s := ⟨_, rfl⟩
theorem issued_stAbandon (n : Insn) (s : State) : Issued (.stAbandon n) s := ⟨_, rfl⟩
theorem issued_txTok (n : Insn) (s : State) : Issued (.txTok n) s := ⟨_, rfl⟩
theorem issued_txDetok (n : Insn) (s : State) : Issued (.txDetok n) s := ⟨_, rfl⟩
theorem issued_txStop (n : Insn) (s : State) : Issued (.txStop n) s := ⟨_, rfl⟩
theorem issued_txCall (n : Insn) (s : State) : Issued (.txCall n) s := ⟨_, rfl⟩
theorem issued_txBind (n : Insn) (s : State) : Issued (.txBind n) s := ⟨_, rfl⟩
theorem issued_grMask (n : Insn) (s : State) : Issued (.grMask n) s := ⟨_, rfl⟩
theorem issued_grAdv (n : Insn) (s : State) : Issued (.grAdv n) s := ⟨_, rfl⟩
theorem issued_slMerge (n : Insn) (s : State) : Issued (.slMerge n) s := ⟨_, rfl⟩
theorem issued_slGather (n : Insn) (s : State) : Issued (.slGather n) s := ⟨_, rfl⟩
theorem issued_slDraw (n : Insn) (x) (s : State) : Issued (.slDraw n x) s := ⟨_, rfl⟩
theorem issued_slRand (n : Insn) (s : State) : Issued (.slRand n) s := ⟨_, rfl⟩
theorem issued_vsCmd (n : Insn) (s : State) : Issued (.vsCmd n) s := ⟨_, rfl⟩
theorem issued_nwSend (n : Insn) (s : State) : Issued (.nwSend n) s := ⟨_, rfl⟩
theorem issued_nwRecv (n : Insn) (s : State) : Issued (.nwRecv n) s := ⟨_, rfl⟩
theorem issued_scLaunch (n : Insn) (s : State) : Issued (.scLaunch n) s := ⟨_, rfl⟩
theorem issued_scRound (n : Insn) (s : State) : Issued (.scRound n) s := ⟨_, rfl⟩
theorem issued_scStop (n : Insn) (s : State) : Issued (.scStop n) s := ⟨_, rfl⟩

theorem issued (i : Instr) (s : State) : Issued i s :=
  match i with
  | .ctNop n => issued_ctNop n s
  | .ctBr n => issued_ctBr n s
  | .ctJmp n => issued_ctJmp n s
  | .ctCall n => issued_ctCall n s
  | .ctRet n => issued_ctRet n s
  | .ctLoop n => issued_ctLoop n s
  | .ctHalt n => issued_ctHalt n s
  | .ctTrap n => issued_ctTrap n s
  | .ctCmp n => issued_ctCmp n s
  | .ctPlog n => issued_ctPlog n s
  | .syFence n => issued_syFence n s
  | .sySig n => issued_sySig n s
  | .syWait n => issued_syWait n s
  | .syAt n => issued_syAt n s
  | .syYt n => issued_syYt n s
  | .mvLi n => issued_mvLi n s
  | .mvMov n => issued_mvMov n s
  | .mvAdd n => issued_mvAdd n s
  | .mvSub n => issued_mvSub n s
  | .mvMul n => issued_mvMul n s
  | .mvAnd n => issued_mvAnd n s
  | .mvOr n => issued_mvOr n s
  | .mvXor n => issued_mvXor n s
  | .mvShl n => issued_mvShl n s
  | .mvShr n => issued_mvShr n s
  | .mvSra n => issued_mvSra n s
  | .mvMinu n => issued_mvMinu n s
  | .mvMaxu n => issued_mvMaxu n s
  | .mvMins n => issued_mvMins n s
  | .mvMaxs n => issued_mvMaxs n s
  | .mvLd n => issued_mvLd n s
  | .mvSt n => issued_mvSt n s
  | .mvTile n => issued_mvTile n s
  | .mvTget n => issued_mvTget n s
  | .mvCopy n => issued_mvCopy n s
  | .mvBcast n => issued_mvBcast n s
  | .mvGetl n => issued_mvGetl n s
  | .mvSetl n => issued_mvSetl n s
  | .mvSend n => issued_mvSend n s
  | .mvRecv n => issued_mvRecv n s
  | .mxMma n => issued_mxMma n s
  | .mxLd n => issued_mxLd n s
  | .mxSt n => issued_mxSt n s
  | .mxZero n => issued_mxZero n s
  | .vxFma n => issued_vxFma n s
  | .vxAdd n => issued_vxAdd n s
  | .vxSub n => issued_vxSub n s
  | .vxMul n => issued_vxMul n s
  | .vxMax n => issued_vxMax n s
  | .vxMin n => issued_vxMin n s
  | .vxNeg n => issued_vxNeg n s
  | .vxAbs n => issued_vxAbs n s
  | .vxExp n => issued_vxExp n s
  | .vxLog n => issued_vxLog n s
  | .vxRcp n => issued_vxRcp n s
  | .vxRsqrt n => issued_vxRsqrt n s
  | .vxRedSum n => issued_vxRedSum n s
  | .vxRedMax n => issued_vxRedMax n s
  | .vxRedMin n => issued_vxRedMin n s
  | .vxCvt n => issued_vxCvt n s
  | .vxRa n => issued_vxRa n s
  | .vxWa n => issued_vxWa n s
  | .vxIns n => issued_vxIns n s
  | .vxLmerge n => issued_vxLmerge n s
  | .vxLget n => issued_vxLget n s
  | .vxLnext n => issued_vxLnext n s
  | .vxLclr n => issued_vxLclr n s
  | .stCmd n => issued_stCmd n s
  | .stQuant n => issued_stQuant n s
  | .stAppend n => issued_stAppend n s
  | .stRd n => issued_stRd n s
  | .stLen n => issued_stLen n s
  | .stCommit n => issued_stCommit n s
  | .stAbandon n => issued_stAbandon n s
  | .txTok n => issued_txTok n s
  | .txDetok n => issued_txDetok n s
  | .txStop n => issued_txStop n s
  | .txCall n => issued_txCall n s
  | .txBind n => issued_txBind n s
  | .grMask n => issued_grMask n s
  | .grAdv n => issued_grAdv n s
  | .slMerge n => issued_slMerge n s
  | .slGather n => issued_slGather n s
  | .slDraw n x => issued_slDraw n x s
  | .slRand n => issued_slRand n s
  | .vsCmd n => issued_vsCmd n s
  | .nwSend n => issued_nwSend n s
  | .nwRecv n => issued_nwRecv n s
  | .scLaunch n => issued_scLaunch n s
  | .scRound n => issued_scRound n s
  | .scStop n => issued_scStop n s
  | .stallCreate _ => True.intro
  | .stallQuery _ => True.intro
  | .stallConfig _ => True.intro
  | .stallPark _ => True.intro
  | .parkWritesDone _ => True.intro
  | .stallRevive _ => True.intro
  | .reviveReadsDone _ _ _ => True.intro
  | .reviveRetry _ => True.intro
  | .stallMigrate _ => True.intro
  | .stallResume _ => True.intro
  | .stallRetire _ => True.intro
  | .stallFree _ => True.intro
  | .retireHoldExpiry _ => True.intro
  | .stallForget _ => True.intro
  | .booksAudit _ => True.intro
  | .booksAuditCompare _ => True.intro
  | .waitTimeout _ => True.intro
  | .journalRecordWrite _ _ _ => True.intro
  | .compositionPoint _ _ => True.intro
  | .layerRelocateDone _ _ => True.intro
  | .roundLaunch _ => True.intro
  | .roundEnd _ => True.intro
  | .resultReceived _ => True.intro
  | .announceReceived _ => True.intro
  | .prepareReceived _ _ => True.intro
  | .preparedReceived _ => True.intro
  | .commitReceived _ => True.intro
  | .committedReceived _ => True.intro
  | .abortReceived _ => True.intro
  | .sourcePrepLeaseExpiry _ => True.intro
  | .sourceCommitLeaseExpiry _ => True.intro
  | .destLeaseExpiry _ => True.intro
  | .ownerQueryRetry _ => True.intro
  | .leaseRenewSend _ => True.intro
  | .leaseRenewReceived _ => True.intro
  | .fetchReceived _ => True.intro
  | .fetchRefusedReceived _ => True.intro
  | .redirectReceived _ => True.intro
  | .ownerQueryReceived _ => True.intro
  | .ownerAnswerReceived _ => True.intro
  | .orphanTimeout _ => True.intro
  | .ownerNoticeReceived _ => True.intro
  | .grMaskReady _ _ => True.intro
  | .outputQueueRoom _ => True.intro
  | .textBind _ => True.intro
  | .txCfgWrite _ _ => True.intro
  | .txTWrite _ _ _ => True.intro
  | .select _ => True.intro
  | .vsInit _ => True.intro
  | .vsInsert _ => True.intro
  | .vsDelete _ => True.intro
  | .vsQuery _ => True.intro
  | .vsMerge _ => True.intro
  | .vsMergeStart _ => True.intro
  | .vsMergeCommit _ => True.intro
  | .memScrub _ => True.intro
  | .shedCompact _ => True.intro
  | .memSpare _ => True.intro
  | .patrolScrubBlock _ _ _ _ => True.intro
  | .channelCopyDone _ => True.intro
  | .evacTimeExpiry _ _ => True.intro
  | .shedPortTrain => True.intro
  | .shedPortTrainDone _ _ => True.intro
  | .shedWearMove _ => True.intro
  | .shedReadDisturbMove _ _ _ _ => True.intro
  | .shedScrub _ _ => True.intro
  | .pfEnable _ => True.intro
  | .pfLayerStart _ _ => True.intro
  | .pfObjectArrived _ _ => True.intro
  | .ctxLoad _ => True.intro
  | .ctxLaunch _ => True.intro
  | .ctxStop _ => True.intro
  | .ctxQuery _ => True.intro
  | .ctxFree _ => True.intro
  | .contextLaunchAt _ => True.intro
  | .runLimitExpiry _ => True.intro
  | .sliceEntryStart _ => True.intro
  | .switchWindowOpen _ => True.intro
  | .tallyWaitTimeout _ => True.intro
  | .syAtResume _ _ => True.intro
  | .aisleMessageArrive _ => True.intro
  | .nwRecvTimeout _ _ => True.intro
  | .eRequestComplete _ => True.intro
  | .tenantTeardown _ => True.intro
  | .tnCtrlWrite _ _ => True.intro
  | .schPartWrite _ _ => True.intro
  | .schSliceWrite _ _ _ => True.intro
  | .schLatencyWrite _ _ => True.intro
  | .accountPeriodEnd => True.intro
  | .tnPeriodWrite _ => True.intro
  | .tnGrantWrite _ _ => True.intro
  | .nop _ => True.intro
  | .opQuery _ => True.intro
  | .opSuspend _ => True.intro
  | .opResume _ => True.intro
  | .opCancel _ => True.intro
  | .opRelease _ => True.intro
  | .opSafePoint _ => True.intro
  | .opHoldExpiry _ => True.intro
  | .tier1Alloc _ => True.intro
  | .tier1Free _ => True.intro
  | .tier1Write _ => True.intro
  | .tier1Read _ => True.intro
  | .portDetach _ => True.intro
  | .sqTailDoorbell _ _ _ => True.intro
  | .cqHeadDoorbell _ _ _ => True.intro
  | .qCtrlWrite _ _ => True.intro
  | .queueIdle _ => True.intro
  | .commandFetch _ _ => True.intro
  | .msixCoalesceExpiry _ => True.intro
  | .gcPortBindWrite _ _ _ => True.intro
  | .hostLinkUp _ _ _ => True.intro
  | .hostLinkLoss _ => True.intro
  | .functionLevelReset _ => True.intro
  | .d3hotEntry _ => True.intro
  | .d0Return _ => True.intro
  | .fatalEvent _ => True.intro
  | .spdmRequest _ => True.intro
  | .tdispLockInterface _ => True.intro
  | .mstDatagramReceive _ _ => True.intro
  | .ackReceived _ => True.intro
  | .acceptReceived _ => True.intro
  | .retransmitTimer _ _ => True.intro
  | .acceptTimer _ => True.intro
  | .endpointTimeout _ _ => True.intro
  | .waggleReceived _ => True.intro
  | .waggleRefuseReceived _ => True.intro
  | .helloSend => True.intro
  | .helloReceived _ => True.intro
  | .memberMissTimeout _ => True.intro
  | .portTransmit _ => True.intro
  | .tsRefillTick => True.intro
  | .tsRateWrite _ _ _ _ _ => True.intro
  | .gateEntryBoundary _ => True.intro
  | .gateLoad _ _ => True.intro
  | .gateCancel _ _ => True.intro
  | .gateTakeover _ => True.intro
  | .mapSet _ => True.intro
  | .laneSpare _ => True.intro
  | .netLaneFail _ _ => True.intro
  | .netLinkUp _ => True.intro
  | .netLinkDown _ => True.intro
  | .neighborSolicitation _ _ => True.intro
  | .icmpEchoRequest _ _ _ => True.intro
  | .ptpMessage _ => True.intro
  | .macsecFrame _ _ => True.intro
  | .ytRun _ => True.intro
  | .ytTick => True.intro
  | .ppsEdge => True.intro
  | .ppsMissing => True.intro
  | .tlHostSig _ => True.intro
  | .tlBindWrite _ _ => True.intro
  | .tlSnapSelWrite _ => True.intro
  | .nwFlowSelWrite _ => True.intro
  | .secKeyLoad _ => True.intro
  | .secKeyClear _ => True.intro
  | .secModelImport _ => True.intro
  | .secCertLoad _ => True.intro
  | .secScrubCert _ => True.intro
  | .secRandom _ => True.intro
  | .entropyHealthFail => True.intro
  | .secCommit _ => True.intro
  | .stlCommit _ => True.intro
  | .schCtxCommit _ => True.intro
  | .nwCommit _ => True.intro
  | .shCommit _ => True.intro
  | .pfCommit _ => True.intro
  | .gcPortCommit _ => True.intro
  | .ytCommit _ => True.intro
  | .ckCommit _ => True.intro
  | .pwCommit _ => True.intro
  | .cpCommit _ => True.intro
  | .stlDirtyLimitWrite _ => True.intro
  | .kvShapeWrite _ _ => True.intro
  | .devRstRelease => True.intro
  | .romDone _ => True.intro
  | .buLoadStart _ => True.intro
  | .buLoadDone _ => True.intro
  | .buGo _ => True.intro
  | .buTrainDone _ => True.intro
  | .buTestDone _ _ => True.intro
  | .buReadyReq _ => True.intro
  | .buStepTimeout _ => True.intro
  | .monitorWindowEnd _ => True.intro
  | .missingEdge _ => True.intro
  | .ckReturn _ => True.intro
  | .ckRateClr _ => True.intro
  | .fmeasStart _ => True.intro
  | .fmeasDone _ => True.intro
  | .ckPaceWrite _ _ => True.intro
  | .paceTargetChange _ _ => True.intro
  | .pacePoll _ _ => True.intro
  | .paceSettleTimeout _ => True.intro
  | .avsbusDone _ _ => True.intro
  | .gateIdleSleep _ => True.intro
  | .gateIdleDeep _ => True.intro
  | .gateWake _ => True.intro
  | .gateScheduledWake _ => True.intro
  | .pwarnAssert => True.intro
  | .powerSafe => True.intro
  | .parkLate => True.intro
  | .pwarnDeassert => True.intro
  | .pwResumeExpiry => True.intro
  | .pwrgdFall => True.intro
  | .telemetrySample _ => True.intro
  | .droopSample _ => True.intro
  | .supplyLimitRelax _ => True.intro
  | .overvolt _ => True.intro
  | .brownout _ => True.intro
  | .thermalStep _ => True.intro
  | .handshakeTimeout _ => True.intro
  | .repairWindowRestart => True.intro
  | .selfTestPeriod _ => True.intro
  | .rpRetire _ => True.intro
  | .selfTest _ => True.intro
  | .rpLogAckWrite _ => True.intro
  | .cpTake _ => True.intro
  | .cpPeriodicTrigger => True.intro
  | .cpFreezeDone => True.intro
  | .cpDrainDone => True.intro
  | .cpWriteDone => True.intro
  | .cpRestore _ => True.intro
  | .cpRestoreReadsDone _ => True.intro
  | .cpMirror _ => True.intro
  | .cpUnmirror _ => True.intro
  | .ringHeadWrite _ _ => True.intro
  | .ringCtrlWrite _ _ => True.intro
  | .evMaskWrite _ _ => True.intro
  | .flagClear _ _ => True.intro
  | .ringCoalesceExpiry _ => True.intro
  | .i3cRead _ => True.intro
  | .registerWrite _ _ => True.intro
  | .devRstAssert => True.intro
  | .quarantineScrubDone _ _ => True.intro
  | .aisleLinkFail _ => True.intro
  | .dramChannelTrainFail _ _ _ => True.intro
  | .shedPortDown _ => True.intro
  | .groomPairDisagree _ => True.intro
  | .tdispStartInterface _ => True.intro
  | .tdispStopInterface _ => True.intro
  | .ptpSourceLoss => True.intro
  | .mkaLivePeerLoss _ => True.intro
  | .hostCompletionTimeout _ => True.intro
  | .cpMirrorCopyDone _ => True.intro
  | .selfTestUnitDone _ _ _ => True.intro
  | .modelImportChunkDone _ _ => True.intro
  | .compactStallDone _ _ => True.intro

/-- Every Trondi instruction is issued in one way, with an effect of its own. -/
theorem exec_trondi (i : Instr) (s : State) {n : Insn} {cls op : Nat} {sh : Shape} (ht : trondi i = some (n, cls, op, sh)) :
    ∃ body, exec i s = .next (s.runInsn n cls op sh body) := by
  have h := issued i s
  unfold Issued at h
  rw [ht] at h
  exact h

/-- A request with room for it. -/
theorem request_room {s : State} {n : Insn} {y : UnitX} {pair : Bool} {c : Cmd} {r : Option Nat} {act : State → State} (h : y.reqs.length < 8) :
    s.request n y pair c r act = .done (act (asking n y pair c r s)) ((act (asking n y pair c r s)).unit n.slot n.unit) none := by
  unfold State.request
  rw [if_neg (by omega)]
  rfl

/-- An engine's request with room for it, the engine there and enabled. -/
theorem engine_acts {s : State} {n : Insn} {y : UnitX} {pair : Bool} {kind : Nat} {en : RegField} {act : State → Cmd → State} (h : y.reqs.length < 8)
    (hk : (asking n y pair (s.hubCmd n) none s).kindLost kind = false) (he : (asking n y pair (s.hubCmd n) none s).on en = true) :
    s.engine n y pair kind en act = .done (act (asking n y pair (s.hubCmd n) none s) (s.hubCmd n))
      ((act (asking n y pair (s.hubCmd n) none s) (s.hubCmd n)).unit n.slot n.unit) none := by
  unfold State.engine
  rw [request_room h]
  simp [hk, he]

/-- The same with the engine disabled. -/
theorem engine_off {s : State} {n : Insn} {y : UnitX} {pair : Bool} {kind : Nat} {en : RegField} {act : State → Cmd → State} (h : y.reqs.length < 8)
    (hk : (asking n y pair (s.hubCmd n) none s).kindLost kind = false) (he : (asking n y pair (s.hubCmd n) none s).on en = false) :
    s.engine n y pair kind en act = .done ((asking n y pair (s.hubCmd n) none s).complete (s.hubCmd n) CS.notReady)
      (((asking n y pair (s.hubCmd n) none s).complete (s.hubCmd n) CS.notReady).unit n.slot n.unit) none := by
  unfold State.engine
  rw [request_room h]
  simp [hk, he]

/-- Asking an engine changes no context's tenant. -/
@[simp] theorem asking_tenant (n : Insn) (y : UnitX) (pair : Bool) (c : Cmd) (r : Option Nat) (s : State) :
    ((asking n y pair c r s).context n.slot).tenant = (s.context n.slot).tenant := by
  unfold asking State.setUnit
  rw [context_setContext_same]

theorem next_congr {a b : State} (h : a = b) : (Host.Outcome.next a : Host.Outcome State Fault Refusal) = .next b := congrArg _ h

end Sys2Proof.Laws
end

