-- ==== Sys2Proof/Machine/RegRead.lean ====
section
/-! DEFINITION. What a read of a register returns (R5 to R7, R384, R385, R514, R613): a register that shows other state is computed from it. The opcode table
has no command for a read. -/

namespace Sys2Proof.Machine

/-- The mailbox of a queue (R403). -/
def State.mailbox (s : State) (q : Nat) : Nat :=
  let x := s.io.queue q
  match x.records.find? (fun r => r.1 = s.get (qCqHead q)) with
  | some r => if r.2 / 2 ^ 40 % 2 = 1 then r.2 else r.2 + 2 ^ 40
  | none => x.lastSeq

/-- SH_WEAR of a port (R137, R139). -/
def ShedPort.wear (x : ShedPort) : Nat :=
  match x.blocks.map (·.erases) with
  | [] => 0
  | e :: es => es.foldl min e + es.foldl max e * 2 ^ 16 + x.permille * 2 ^ 32

/-- The granted and remaining tokens of a tenant: until the first period's end they read all ones while UNLIMITED is 1 (R379). -/
def State.tokensShown (s : State) (t : Nat) (f : RegField) : Nat :=
  if s.firstPeriod && s.on (Fld.TN_GRANT_UNLIMITED t) then unlimitedTokens else s.get f

/-- The single registers that show other state. -/
def State.viewSingle (s : State) (off : Nat) : Option Nat :=
  if off = Reg.STL_DIRTY_LIMIT then some s.dirtyLimit
  else if off = Reg.VS_CAP_USED then some s.vsCapUsed
  else if off = Reg.SCH_CTX_LIVE then some (sparseCount (fun x => decide (x.state ≠ .free)) s.contexts)
  else if off = Reg.YT_NOW then some s.now
  else if off = Reg.TL_INFLIGHT then some 0
  else if off = Reg.GC_OP_LIVE then some (sparseCount (fun x => x.live) s.ops)
  else if off = Reg.EV_NMI then some s.nmi.toNat
  else if off = Reg.SEC_SERIAL then some Config.serial.toNat
  else none

/-- The arrays of registers that show other state: base, strides and counts, and the value for the indices. -/
def viewArrays : List (Nat × List (Nat × Nat) × (State → (Nat → Nat) → Nat)) := [
  (Reg.STL_STATE_CNT 0, [(8, 9)], fun s i => s.slotsIn (stallStateOf (i 0))),
  (Reg.STL_PG 0 0, [(0x40, 16), (8, 5)], fun s i => s.pageBook (i 0) (i 1)),
  (Reg.KV_SHAPE_CAP 0, [(8, 16)], fun s i =>
    let k := i 0
    if s.on (Fld.KV_SHAPE_VALID k) then
      shapeCapOf (s.get (Fld.KV_SHAPE_PAGE_MIN k)) (s.get (Fld.KV_SHAPE_PAGE_MAX k)) (s.shapeRec k) + s.shapeRec k * 2 ^ 32
    else 0),
  (Reg.KV_SHAPE_USE 0, [(8, 16)], fun s i => s.shapeUse (i 0)),
  (Reg.HB_POISON 0, [(8, 16)], fun s i => (sparseGet [] s.t1.poison (i 0)).length),
  (Reg.SH_BOOK 0 0, [(0x40, 8), (8, 5)], fun s i => (s.shedPort (i 0)).book (i 1)),
  (Reg.SH_WEAR 0, [(8, 8)], fun s i => (s.shedPort (i 0)).wear),
  (Reg.TN_USE 0, [(0x80, 256)], fun s i => s.tenantStalls (i 0) + s.tenantContexts (i 0) * 2 ^ 32),
  (Reg.TN_GRANTED 0, [(0x80, 256)], fun s i => s.tokensShown (i 0) (Fld.TN_GRANTED_TOKENS (i 0))),
  (Reg.TN_REMAINING 0, [(0x80, 256)], fun s i => s.tokensShown (i 0) (Fld.TN_REMAINING_TOKENS (i 0))),
  (Reg.TS_TOKENS 0 0 0, [(0x10000, 8), (0x100, 256), (0x20, 8)], fun s i =>
    let q := s.tqueue (2048 * i 0 + 8 * i 1 + i 2)
    q.committed / 8000 + q.peak / 8000 * 2 ^ 32),
  (Reg.HQ_MBOX 0 0 0, [(0x10000, 256), (0x400, 16), (8, 4)], fun s i => s.mailbox (16 * i 0 + i 1) / 2 ^ (64 * i 2)),
  (Reg.GC_MQ_MBOX 0 0, [(0x100, 4), (8, 4)], fun s i => s.mailbox (4096 + i 0) / 2 ^ (64 * i 1))]

/-- What the registers that show other state read as. -/
def State.viewRegister (s : State) (off : Nat) : Option Nat :=
  match s.viewSingle off with
  | some v => some v
  | none => viewArrays.findSome? (fun a =>
      if off < a.1 then none else (arrayIndex a.2.1 (off - a.1)).map (fun i => a.2.2 s (fun k => i.getD k 0)))

/-- The Survey's records, which lie from SV_RECORDS.OFFSET (R483). -/
def State.surveyWord (s : State) (off : Nat) : Option Nat :=
  let base := s.get Fld.SV_RECORDS_OFFSET
  if s.surveyBuilt && decide (base ≤ off) && decide (off < base + 32 * svCount) then
    some (recGet (s.surveyRecord ((off - base) / 32)) ((off - base) % 32) 8)
  else none

/-- What a register reads as (R5, R613): WO and reserved bits hold 0. -/
def State.readRegister (s : State) (off : Nat) : Word :=
  match s.surveyWord off with
  | some v => BitVec.ofNat 64 v
  | none => match s.viewRegister off with
    | some v => BitVec.ofNat 64 v
    | none => s.reg off

/-- What an access of a register returns (R5): the whole of it, or, of 32 bits, the lower or the upper half addressed, of a W1C register as of any other. -/
def State.readHalf (s : State) (off : Nat) (half : Option Bool) : Word :=
  match half with
  | none => s.readRegister off
  | some false => s.readRegister off &&& 0xFFFFFFFF
  | some true => s.readRegister off >>> 32

/-- What a read on port `n` returns, or none where the port answers with Unsupported Request (R385). A port that may not reach the offset reads 0
(R384), and in FAILED only the BU_ registers and the Survey read (R514). -/
def State.portRead (s : State) (n off : Nat) (half : Option Bool) : Option Word :=
  if s.ideBlocked n then none
  else if s.get Fld.BU_STATE_STATE = 8 && !(decide (off < 0x400000) || (decide (0x440000 ≤ off) && decide (off < 0x450000))) then some 0
  else if s.reaches n off then some (s.readHalf off half)
  else some 0

end Sys2Proof.Machine
end

