-- ==== Sys2Proof/Tests/Slice0.lean ====
section
/-! SUPPORT. Tests of the model, each a named theorem: ill-formed commands that the check refuses, a concrete state that meets the
hypotheses of each statement, and single steps whose results the spec gives. -/

namespace Sys2Proof.Tests

open Sys2Proof.Machine Sys2Proof.Safety

set_option Elab.async false

/-! ### Terms for the tests -/

/-- A command of tenant queue 0 with all operands 0. -/
def okCmd : Cmd := ⟨.queue 0, 0, 0, 0, 0, 0, 0, 0, [], none⟩

/-- A 64-bit write of 0 on port 0. -/
def okWrite : RegWrite := ⟨0, none, 0⟩

/-- An instruction of slot 0, unit 0, with all fields 0. -/
def okInsn : Insn := ⟨0, 0, 0, 0, 0, 0, 0, 0, 0, 0, 0⟩

/-- A message from device 1 to device 0. -/
def okMsg : Msg := { type := 0, src := 1, dst := 0 }

def okPtp : PtpMsg := ⟨0, 0, false, .peerRequest 0⟩

def okSpdm : SpdmReq := ⟨0, none, .getVersion⟩

def okRom : RomResult := ⟨true, true, [], [], 0⟩

def okWindow : MonitorWindow := ⟨[0, 0, 0, 0, 0], [], 0, 0⟩

def okFound : ShedFound := ⟨true, true, 16384, 2048, 0, 0, 1, 0, 1, 1, 1, [], [], [], []⟩

/-! ### The check of well-formed commands: one ill-formed term per check, and a well-formed term of every row -/

theorem test_wf_refuses_0 : ([
  .stallCreate { okCmd with issuer := .queue 4100 },
  .stallCreate { okCmd with issuer := .hub 4096 0 },
  .stallCreate { okCmd with issuer := .hub 0 128 },
  .stallQuery { okCmd with issuer := .queue 4100 },
  .stallConfig { okCmd with issuer := .queue 4100 },
  .stallPark { okCmd with issuer := .queue 4100 },
  .parkWritesDone 4194304,
  .stallRevive { okCmd with issuer := .queue 4100 },
  .reviveReadsDone 4194304 none true,
  .reviveRetry 4194304,
  .stallMigrate { okCmd with issuer := .queue 4100 },
  .stallResume { okCmd with issuer := .queue 4100 },
  .stallRetire { okCmd with issuer := .queue 4100 },
  .stallFree { okCmd with issuer := .queue 4100 },
  .retireHoldExpiry 4194304,
  .stallForget { okCmd with issuer := .queue 4100 },
  .booksAudit { okCmd with issuer := .queue 4100 },
  .booksAuditCompare 4096,
  .waitTimeout 4194304,
  .journalRecordWrite 4194304 0 none,
  .compositionPoint 256 [],
  .compositionPoint 0 [(4194304, [])],
  .compositionPoint 0 [(0, List.replicate 16 0)],
  .layerRelocateDone 4194304 0,
  .layerRelocateDone 0 256,
  .roundLaunch 256,
  .roundEnd 256,
  .resultReceived { okMsg with type := 256 },
  .resultReceived { okMsg with src := 65536 },
  .resultReceived { okMsg with dst := 65536 }] : List Instr).all (fun c => !c.wf) = true := by decide +kernel

theorem test_wf_refuses_1 : ([
  .resultReceived { okMsg with tenant := 256 },
  .announceReceived { okMsg with type := 256 },
  .prepareReceived { okMsg with type := 256 } true,
  .preparedReceived { okMsg with type := 256 },
  .commitReceived { okMsg with type := 256 },
  .committedReceived { okMsg with type := 256 },
  .abortReceived { okMsg with type := 256 },
  .sourcePrepLeaseExpiry 4194304,
  .sourceCommitLeaseExpiry 4194304,
  .destLeaseExpiry 4194304,
  .ownerQueryRetry 4194304,
  .leaseRenewSend 4194304,
  .leaseRenewReceived { okMsg with type := 256 },
  .fetchReceived { okMsg with type := 256 },
  .fetchRefusedReceived { okMsg with type := 256 },
  .redirectReceived { okMsg with type := 256 },
  .ownerQueryReceived { okMsg with type := 256 },
  .ownerAnswerReceived { okMsg with type := 256 },
  .orphanTimeout 4194304,
  .ownerNoticeReceived { okMsg with type := 256 },
  .stCmd { okInsn with slot := 4096 },
  .stCmd { okInsn with unit := 8192 },
  .stQuant { okInsn with slot := 4096 },
  .stAppend { okInsn with slot := 4096 },
  .stRd { okInsn with slot := 4096 },
  .stLen { okInsn with slot := 4096 },
  .stCommit { okInsn with slot := 4096 },
  .stAbandon { okInsn with slot := 4096 },
  .grMaskReady 4194304 0,
  .grMaskReady 0 17] : List Instr).all (fun c => !c.wf) = true := by decide +kernel

theorem test_wf_refuses_2 : ([
  .outputQueueRoom 4194304,
  .textBind { okCmd with issuer := .queue 4100 },
  .txCfgWrite { okWrite with port := 4 } 0,
  .txCfgWrite okWrite 256,
  .txTWrite { okWrite with port := 4 } 0 1,
  .txTWrite okWrite 256 1,
  .txTWrite okWrite 0 0,
  .txTWrite okWrite 0 7,
  .select { okCmd with issuer := .queue 4100 },
  .vsInit { okCmd with issuer := .queue 4100 },
  .vsInsert { okCmd with issuer := .queue 4100 },
  .vsDelete { okCmd with issuer := .queue 4100 },
  .vsQuery { okCmd with issuer := .queue 4100 },
  .vsMerge { okCmd with issuer := .queue 4100 },
  .vsMergeStart 4096,
  .vsMergeCommit 4096,
  .memScrub { okCmd with issuer := .queue 4100 },
  .shedCompact { okCmd with issuer := .queue 4100 },
  .memSpare { okCmd with issuer := .queue 4100 },
  .patrolScrubBlock (some 4096) 0 0 none,
  .patrolScrubBlock none 16 0 none,
  .patrolScrubBlock none 0 17 none,
  .channelCopyDone 16,
  .evacTimeExpiry 16 0,
  .evacTimeExpiry 0 16,
  .shedPortTrainDone 8 okFound,
  .shedWearMove 8,
  .shedReadDisturbMove 8 0 0 true,
  .shedScrub 8 [],
  .pfEnable { okWrite with port := 4 }] : List Instr).all (fun c => !c.wf) = true := by decide +kernel

theorem test_wf_refuses_3 : ([
  .pfLayerStart ⟨256, 0⟩ [],
  .pfLayerStart ⟨0, 256⟩ [],
  .pfObjectArrived 16777216 [],
  .ctxLoad { okCmd with issuer := .queue 4100 },
  .ctxLaunch { okCmd with issuer := .queue 4100 },
  .ctxStop { okCmd with issuer := .queue 4100 },
  .ctxQuery { okCmd with issuer := .queue 4100 },
  .ctxFree { okCmd with issuer := .queue 4100 },
  .contextLaunchAt 4096,
  .runLimitExpiry 4096,
  .sliceEntryStart 32,
  .switchWindowOpen 32,
  .ctNop { okInsn with slot := 4096 },
  .ctBr { okInsn with slot := 4096 },
  .ctJmp { okInsn with slot := 4096 },
  .ctCall { okInsn with slot := 4096 },
  .ctRet { okInsn with slot := 4096 },
  .ctLoop { okInsn with slot := 4096 },
  .ctHalt { okInsn with slot := 4096 },
  .ctTrap { okInsn with slot := 4096 },
  .ctCmp { okInsn with slot := 4096 },
  .ctPlog { okInsn with slot := 4096 },
  .syFence { okInsn with slot := 4096 },
  .sySig { okInsn with slot := 4096 },
  .syWait { okInsn with slot := 4096 },
  .syAt { okInsn with slot := 4096 },
  .syAtResume 4096 0,
  .syAtResume 0 8192,
  .syYt { okInsn with slot := 4096 },
  .mvLi { okInsn with slot := 4096 }] : List Instr).all (fun c => !c.wf) = true := by decide +kernel

theorem test_wf_refuses_4 : ([
  .mvMov { okInsn with slot := 4096 },
  .mvAdd { okInsn with slot := 4096 },
  .mvSub { okInsn with slot := 4096 },
  .mvMul { okInsn with slot := 4096 },
  .mvAnd { okInsn with slot := 4096 },
  .mvOr { okInsn with slot := 4096 },
  .mvXor { okInsn with slot := 4096 },
  .mvShl { okInsn with slot := 4096 },
  .mvShr { okInsn with slot := 4096 },
  .mvSra { okInsn with slot := 4096 },
  .mvMinu { okInsn with slot := 4096 },
  .mvMaxu { okInsn with slot := 4096 },
  .mvMins { okInsn with slot := 4096 },
  .mvMaxs { okInsn with slot := 4096 },
  .mvLd { okInsn with slot := 4096 },
  .mvSt { okInsn with slot := 4096 },
  .mvTile { okInsn with slot := 4096 },
  .mvTget { okInsn with slot := 4096 },
  .mvCopy { okInsn with slot := 4096 },
  .mvBcast { okInsn with slot := 4096 },
  .mvGetl { okInsn with slot := 4096 },
  .mvSetl { okInsn with slot := 4096 },
  .mvSend { okInsn with slot := 4096 },
  .mvRecv { okInsn with slot := 4096 },
  .mxMma { okInsn with slot := 4096 },
  .mxLd { okInsn with slot := 4096 },
  .mxSt { okInsn with slot := 4096 },
  .mxZero { okInsn with slot := 4096 },
  .vxFma { okInsn with slot := 4096 },
  .vxAdd { okInsn with slot := 4096 }] : List Instr).all (fun c => !c.wf) = true := by decide +kernel

theorem test_wf_refuses_5 : ([
  .vxSub { okInsn with slot := 4096 },
  .vxMul { okInsn with slot := 4096 },
  .vxMax { okInsn with slot := 4096 },
  .vxMin { okInsn with slot := 4096 },
  .vxNeg { okInsn with slot := 4096 },
  .vxAbs { okInsn with slot := 4096 },
  .vxExp { okInsn with slot := 4096 },
  .vxLog { okInsn with slot := 4096 },
  .vxRcp { okInsn with slot := 4096 },
  .vxRsqrt { okInsn with slot := 4096 },
  .vxRedSum { okInsn with slot := 4096 },
  .vxRedMax { okInsn with slot := 4096 },
  .vxRedMin { okInsn with slot := 4096 },
  .vxCvt { okInsn with slot := 4096 },
  .vxRa { okInsn with slot := 4096 },
  .vxWa { okInsn with slot := 4096 },
  .vxIns { okInsn with slot := 4096 },
  .vxLmerge { okInsn with slot := 4096 },
  .vxLget { okInsn with slot := 4096 },
  .vxLnext { okInsn with slot := 4096 },
  .vxLclr { okInsn with slot := 4096 },
  .txTok { okInsn with slot := 4096 },
  .txDetok { okInsn with slot := 4096 },
  .txStop { okInsn with slot := 4096 },
  .txCall { okInsn with slot := 4096 },
  .txBind { okInsn with slot := 4096 },
  .grMask { okInsn with slot := 4096 },
  .grAdv { okInsn with slot := 4096 },
  .slMerge { okInsn with slot := 4096 },
  .slGather { okInsn with slot := 4096 }] : List Instr).all (fun c => !c.wf) = true := by decide +kernel

theorem test_wf_refuses_6 : ([
  .slDraw { okInsn with slot := 4096 } true,
  .slRand { okInsn with slot := 4096 },
  .vsCmd { okInsn with slot := 4096 },
  .nwSend { okInsn with slot := 4096 },
  .nwRecv { okInsn with slot := 4096 },
  .nwRecvTimeout 4096 0,
  .nwRecvTimeout 0 8192,
  .scLaunch { okInsn with slot := 4096 },
  .scRound { okInsn with slot := 4096 },
  .scStop { okInsn with slot := 4096 },
  .tenantTeardown { okCmd with issuer := .queue 4100 },
  .tnCtrlWrite { okWrite with port := 4 } 0,
  .tnCtrlWrite okWrite 256,
  .schPartWrite { okWrite with port := 4 } 0,
  .schPartWrite okWrite 32,
  .schSliceWrite { okWrite with port := 4 } 0 none,
  .schSliceWrite okWrite 32 none,
  .schSliceWrite okWrite 0 (some 16),
  .schLatencyWrite { okWrite with port := 4 } 0,
  .schLatencyWrite okWrite 256,
  .tnPeriodWrite { okWrite with port := 4 },
  .tnGrantWrite { okWrite with port := 4 } 0,
  .tnGrantWrite okWrite 256,
  .nop { okCmd with issuer := .queue 4100 },
  .opQuery { okCmd with issuer := .queue 4100 },
  .opSuspend { okCmd with issuer := .queue 4100 },
  .opResume { okCmd with issuer := .queue 4100 },
  .opCancel { okCmd with issuer := .queue 4100 },
  .opRelease { okCmd with issuer := .queue 4100 },
  .opSafePoint 4096] : List Instr).all (fun c => !c.wf) = true := by decide +kernel

theorem test_wf_refuses_7 : ([
  .opHoldExpiry 4096,
  .tier1Alloc { okCmd with issuer := .queue 4100 },
  .tier1Free { okCmd with issuer := .queue 4100 },
  .tier1Write { okCmd with issuer := .queue 4100 },
  .tier1Read { okCmd with issuer := .queue 4100 },
  .portDetach { okCmd with issuer := .queue 4100 },
  .sqTailDoorbell 4 0 0,
  .sqTailDoorbell 0 4100 0,
  .sqTailDoorbell 0 0 4294967296,
  .cqHeadDoorbell 4 0 0,
  .cqHeadDoorbell 0 4100 0,
  .cqHeadDoorbell 0 0 4294967296,
  .qCtrlWrite { okWrite with port := 4 } 0,
  .qCtrlWrite okWrite 4100,
  .queueIdle 4100,
  .commandFetch 4 none,
  .commandFetch 0 (some [0]),
  .msixCoalesceExpiry 4100,
  .gcPortBindWrite { okWrite with port := 4 } 0 0,
  .gcPortBindWrite okWrite 4 0,
  .gcPortBindWrite okWrite 0 4,
  .hostLinkUp 4 0 0,
  .hostLinkUp 0 17 0,
  .hostLinkLoss 4,
  .functionLevelReset 4,
  .d3hotEntry 4,
  .d0Return 4,
  .fatalEvent 65536,
  .spdmRequest { okSpdm with port := 4 },
  .tdispLockInterface 4] : List Instr).all (fun c => !c.wf) = true := by decide +kernel

theorem test_wf_refuses_8 : ([
  .mstDatagramReceive 8 [],
  .mstDatagramReceive 0 (List.replicate 8321 0),
  .ackReceived { okMsg with type := 256 },
  .acceptReceived { okMsg with type := 256 },
  .endpointTimeout 256 true,
  .waggleReceived { okMsg with type := 256 },
  .waggleRefuseReceived { okMsg with type := 256 },
  .helloReceived { okMsg with type := 256 },
  .memberMissTimeout 65536,
  .portTransmit 8,
  .tsRateWrite { okWrite with port := 4 } 0 0 0 true,
  .tsRateWrite okWrite 8 0 0 true,
  .tsRateWrite okWrite 0 256 0 true,
  .tsRateWrite okWrite 0 0 8 true,
  .gateEntryBoundary 8,
  .gateLoad { okWrite with port := 4 } 0,
  .gateLoad okWrite 8,
  .gateCancel { okWrite with port := 4 } 0,
  .gateCancel okWrite 8,
  .gateTakeover 8,
  .mapSet { okCmd with issuer := .queue 4100 },
  .laneSpare { okCmd with issuer := .queue 4100 },
  .netLaneFail 8 0,
  .netLaneFail 0 4,
  .netLinkUp 8,
  .netLinkDown 8,
  .neighborSolicitation 8 0,
  .icmpEchoRequest 8 0 [],
  .ptpMessage { okPtp with port := 8 },
  .ptpMessage { okPtp with domain := 256 }] : List Instr).all (fun c => !c.wf) = true := by decide +kernel

theorem test_wf_refuses_9 : ([
  .macsecFrame 8 (.mka 0 true),
  .ytRun { okWrite with port := 4 },
  .tlHostSig { okWrite with port := 4 },
  .tlBindWrite { okWrite with port := 4 } 0,
  .tlBindWrite okWrite 8192,
  .tlSnapSelWrite { okWrite with port := 4 },
  .nwFlowSelWrite { okWrite with port := 4 },
  .secKeyLoad { okCmd with issuer := .queue 4100 },
  .secKeyClear { okCmd with issuer := .queue 4100 },
  .secModelImport { okCmd with issuer := .queue 4100 },
  .secCertLoad { okCmd with issuer := .queue 4100 },
  .secScrubCert { okCmd with issuer := .queue 4100 },
  .secRandom { okCmd with issuer := .queue 4100 },
  .secCommit { okWrite with port := 4 },
  .stlCommit { okWrite with port := 4 },
  .schCtxCommit { okWrite with port := 4 },
  .nwCommit { okWrite with port := 4 },
  .shCommit { okWrite with port := 4 },
  .pfCommit { okWrite with port := 4 },
  .gcPortCommit { okWrite with port := 4 },
  .ytCommit { okWrite with port := 4 },
  .ckCommit { okWrite with port := 4 },
  .pwCommit { okWrite with port := 4 },
  .cpCommit { okWrite with port := 4 },
  .stlDirtyLimitWrite { okWrite with port := 4 },
  .kvShapeWrite { okWrite with port := 4 } 0,
  .kvShapeWrite okWrite 16,
  .romDone { okRom with lost := [3] },
  .romDone { okRom with silent := [3] },
  .buLoadStart { okWrite with port := 4 }] : List Instr).all (fun c => !c.wf) = true := by decide +kernel

theorem test_wf_refuses_10 : ([
  .buGo { okWrite with port := 4 },
  .buTrainDone [⟨9, 0, 0, 0⟩],
  .buTrainDone [⟨0, 16, 0, 0⟩],
  .buTrainDone [⟨0, 0, 8704, 0⟩],
  .buTrainDone [⟨0, 0, 0, 256⟩],
  .buTestDone [⟨9, 0, 0, 0⟩] [],
  .buTestDone [] [65536],
  .buReadyReq { okWrite with port := 4 },
  .buStepTimeout 9,
  .monitorWindowEnd { okWindow with counts := [] },
  .monitorWindowEnd { okWindow with stable := [5] },
  .missingEdge 5,
  .ckReturn { okWrite with port := 4 },
  .ckRateClr { okWrite with port := 4 },
  .fmeasStart { okWrite with port := 4 },
  .fmeasDone 18446744073709551616,
  .ckPaceWrite { okWrite with port := 4 } 0,
  .ckPaceWrite okWrite 8,
  .paceTargetChange { okWrite with port := 4 } 0,
  .paceTargetChange okWrite 17,
  .pacePoll 17 0,
  .paceSettleTimeout 17,
  .avsbusDone 17 true,
  .gateIdleSleep 37,
  .gateIdleDeep 37,
  .gateWake 37,
  .gateScheduledWake 37,
  .telemetrySample [⟨22, 0, 0, 0, false⟩],
  .droopSample [(17, 0)],
  .supplyLimitRelax 17] : List Instr).all (fun c => !c.wf) = true := by decide +kernel

theorem test_wf_refuses_11 : ([
  .overvolt 17,
  .brownout 17,
  .thermalStep [(17, 0)],
  .handshakeTimeout (.cell 32 0),
  .handshakeTimeout (.cell 0 272),
  .handshakeTimeout (.tally 8704),
  .handshakeTimeout (.groom 2),
  .handshakeTimeout (.key 10),
  .handshakeTimeout (.sequencer 32),
  .handshakeTimeout (.engine 256 0),
  .handshakeTimeout (.engine 0 256),
  .handshakeTimeout (.hostPort 4),
  .handshakeTimeout (.aisle 16),
  .selfTestPeriod [.hostPort 4],
  .rpRetire { okCmd with issuer := .queue 4100 },
  .selfTest { okCmd with issuer := .queue 4100 },
  .rpLogAckWrite { okWrite with port := 4 },
  .cpTake { okCmd with issuer := .queue 4100 },
  .cpRestore { okCmd with issuer := .queue 4100 },
  .cpMirror { okCmd with issuer := .queue 4100 },
  .cpUnmirror { okCmd with issuer := .queue 4100 },
  .ringHeadWrite { okWrite with port := 4 } 0,
  .ringHeadWrite okWrite 260,
  .ringCtrlWrite { okWrite with port := 4 } 0,
  .ringCtrlWrite okWrite 260,
  .evMaskWrite { okWrite with port := 4 } 0,
  .evMaskWrite okWrite 64,
  .flagClear { okWrite with port := 4 } 0,
  .flagClear okWrite 268435456,
  .ringCoalesceExpiry 260] : List Instr).all (fun c => !c.wf) = true := by decide +kernel

theorem test_wf_refuses_12 : ([
  .i3cRead 268435456,
  .registerWrite { okWrite with port := 4 } 0,
  .registerWrite okWrite 268435456,
  .quarantineScrubDone 0 0,
  .quarantineScrubDone 268435456 1,
  .aisleLinkFail 16,
  .dramChannelTrainFail 16 0 true,
  .dramChannelTrainFail 0 17 true,
  .shedPortDown 8,
  .groomPairDisagree 2,
  .tdispStartInterface 4,
  .tdispStopInterface 4,
  .mkaLivePeerLoss 8,
  .hostCompletionTimeout (.fetch 4100),
  .hostCompletionTimeout (.record 4100),
  .hostCompletionTimeout (.data { okCmd with issuer := .queue 4100 }),
  .selfTestUnitDone 4096 (.aisle 0) false,
  .selfTestUnitDone 0 (.groom 2) false,
  .modelImportChunkDone 4096 none,
  .compactStallDone (some 4096) 0,
  .compactStallDone none 4194304] : List Instr).all (fun c => !c.wf) = true := by decide +kernel

theorem test_wf_accepts_0 : ([
  .stallCreate okCmd,
  .stallQuery okCmd,
  .stallConfig okCmd,
  .stallPark okCmd,
  .parkWritesDone 0,
  .stallRevive okCmd,
  .reviveReadsDone 0 none true,
  .reviveRetry 0,
  .stallMigrate okCmd,
  .stallResume okCmd,
  .stallRetire okCmd,
  .stallFree okCmd,
  .retireHoldExpiry 0,
  .stallForget okCmd,
  .booksAudit okCmd,
  .booksAuditCompare 0,
  .waitTimeout 0,
  .journalRecordWrite 0 0 none,
  .compositionPoint 0 [],
  .layerRelocateDone 0 0,
  .roundLaunch 0,
  .roundEnd 0,
  .resultReceived okMsg,
  .announceReceived okMsg,
  .prepareReceived okMsg true,
  .preparedReceived okMsg,
  .commitReceived okMsg,
  .committedReceived okMsg,
  .abortReceived okMsg,
  .sourcePrepLeaseExpiry 0] : List Instr).all Instr.wf = true := by decide +kernel

theorem test_wf_accepts_1 : ([
  .sourceCommitLeaseExpiry 0,
  .destLeaseExpiry 0,
  .ownerQueryRetry 0,
  .leaseRenewSend 0,
  .leaseRenewReceived okMsg,
  .fetchReceived okMsg,
  .fetchRefusedReceived okMsg,
  .redirectReceived okMsg,
  .ownerQueryReceived okMsg,
  .ownerAnswerReceived okMsg,
  .orphanTimeout 0,
  .ownerNoticeReceived okMsg,
  .stCmd okInsn,
  .stQuant okInsn,
  .stAppend okInsn,
  .stRd okInsn,
  .stLen okInsn,
  .stCommit okInsn,
  .stAbandon okInsn,
  .grMaskReady 0 0,
  .outputQueueRoom 0,
  .textBind okCmd,
  .txCfgWrite okWrite 0,
  .txTWrite okWrite 0 1,
  .select okCmd,
  .vsInit okCmd,
  .vsInsert okCmd,
  .vsDelete okCmd,
  .vsQuery okCmd,
  .vsMerge okCmd] : List Instr).all Instr.wf = true := by decide +kernel

theorem test_wf_accepts_2 : ([
  .vsMergeStart 0,
  .vsMergeCommit 0,
  .memScrub okCmd,
  .shedCompact okCmd,
  .memSpare okCmd,
  .patrolScrubBlock none 0 0 none,
  .channelCopyDone 0,
  .evacTimeExpiry 0 0,
  .shedPortTrain,
  .shedPortTrainDone 0 okFound,
  .shedWearMove 0,
  .shedReadDisturbMove 0 0 0 true,
  .shedScrub 0 [],
  .pfEnable okWrite,
  .pfLayerStart ⟨0, 0⟩ [],
  .pfObjectArrived 0 [],
  .ctxLoad okCmd,
  .ctxLaunch okCmd,
  .ctxStop okCmd,
  .ctxQuery okCmd,
  .ctxFree okCmd,
  .contextLaunchAt 0,
  .runLimitExpiry 0,
  .sliceEntryStart 0,
  .switchWindowOpen 0,
  .ctNop okInsn,
  .ctBr okInsn,
  .ctJmp okInsn,
  .ctCall okInsn,
  .ctRet okInsn] : List Instr).all Instr.wf = true := by decide +kernel

theorem test_wf_accepts_3 : ([
  .ctLoop okInsn,
  .ctHalt okInsn,
  .ctTrap okInsn,
  .ctCmp okInsn,
  .ctPlog okInsn,
  .syFence okInsn,
  .sySig okInsn,
  .syWait okInsn,
  .tallyWaitTimeout 0,
  .syAt okInsn,
  .syAtResume 0 0,
  .syYt okInsn,
  .mvLi okInsn,
  .mvMov okInsn,
  .mvAdd okInsn,
  .mvSub okInsn,
  .mvMul okInsn,
  .mvAnd okInsn,
  .mvOr okInsn,
  .mvXor okInsn,
  .mvShl okInsn,
  .mvShr okInsn,
  .mvSra okInsn,
  .mvMinu okInsn,
  .mvMaxu okInsn,
  .mvMins okInsn,
  .mvMaxs okInsn,
  .mvLd okInsn,
  .mvSt okInsn,
  .mvTile okInsn] : List Instr).all Instr.wf = true := by decide +kernel

theorem test_wf_accepts_4 : ([
  .mvTget okInsn,
  .mvCopy okInsn,
  .mvBcast okInsn,
  .mvGetl okInsn,
  .mvSetl okInsn,
  .mvSend okInsn,
  .mvRecv okInsn,
  .aisleMessageArrive 0,
  .mxMma okInsn,
  .mxLd okInsn,
  .mxSt okInsn,
  .mxZero okInsn,
  .vxFma okInsn,
  .vxAdd okInsn,
  .vxSub okInsn,
  .vxMul okInsn,
  .vxMax okInsn,
  .vxMin okInsn,
  .vxNeg okInsn,
  .vxAbs okInsn,
  .vxExp okInsn,
  .vxLog okInsn,
  .vxRcp okInsn,
  .vxRsqrt okInsn,
  .vxRedSum okInsn,
  .vxRedMax okInsn,
  .vxRedMin okInsn,
  .vxCvt okInsn,
  .vxRa okInsn,
  .vxWa okInsn] : List Instr).all Instr.wf = true := by decide +kernel

theorem test_wf_accepts_5 : ([
  .vxIns okInsn,
  .vxLmerge okInsn,
  .vxLget okInsn,
  .vxLnext okInsn,
  .vxLclr okInsn,
  .txTok okInsn,
  .txDetok okInsn,
  .txStop okInsn,
  .txCall okInsn,
  .txBind okInsn,
  .grMask okInsn,
  .grAdv okInsn,
  .slMerge okInsn,
  .slGather okInsn,
  .slDraw okInsn true,
  .slRand okInsn,
  .vsCmd okInsn,
  .nwSend okInsn,
  .nwRecv okInsn,
  .nwRecvTimeout 0 0,
  .scLaunch okInsn,
  .scRound okInsn,
  .scStop okInsn,
  .eRequestComplete 0,
  .tenantTeardown okCmd,
  .tnCtrlWrite okWrite 0,
  .schPartWrite okWrite 0,
  .schSliceWrite okWrite 0 none,
  .schLatencyWrite okWrite 0,
  .accountPeriodEnd] : List Instr).all Instr.wf = true := by decide +kernel

theorem test_wf_accepts_6 : ([
  .tnPeriodWrite okWrite,
  .tnGrantWrite okWrite 0,
  .nop okCmd,
  .opQuery okCmd,
  .opSuspend okCmd,
  .opResume okCmd,
  .opCancel okCmd,
  .opRelease okCmd,
  .opSafePoint 0,
  .opHoldExpiry 0,
  .tier1Alloc okCmd,
  .tier1Free okCmd,
  .tier1Write okCmd,
  .tier1Read okCmd,
  .portDetach okCmd,
  .sqTailDoorbell 0 0 0,
  .cqHeadDoorbell 0 0 0,
  .qCtrlWrite okWrite 0,
  .queueIdle 0,
  .commandFetch 0 none,
  .msixCoalesceExpiry 0,
  .gcPortBindWrite okWrite 0 0,
  .hostLinkUp 0 0 0,
  .hostLinkLoss 0,
  .functionLevelReset 0,
  .d3hotEntry 0,
  .d0Return 0,
  .fatalEvent 0,
  .spdmRequest okSpdm,
  .tdispLockInterface 0] : List Instr).all Instr.wf = true := by decide +kernel

theorem test_wf_accepts_7 : ([
  .mstDatagramReceive 0 [],
  .ackReceived okMsg,
  .acceptReceived okMsg,
  .retransmitTimer 0 0,
  .acceptTimer 0,
  .endpointTimeout 0 true,
  .waggleReceived okMsg,
  .waggleRefuseReceived okMsg,
  .helloSend,
  .helloReceived okMsg,
  .memberMissTimeout 0,
  .portTransmit 0,
  .tsRefillTick,
  .tsRateWrite okWrite 0 0 0 true,
  .gateEntryBoundary 0,
  .gateLoad okWrite 0,
  .gateCancel okWrite 0,
  .gateTakeover 0,
  .mapSet okCmd,
  .laneSpare okCmd,
  .netLaneFail 0 0,
  .netLinkUp 0,
  .netLinkDown 0,
  .neighborSolicitation 0 0,
  .icmpEchoRequest 0 0 [],
  .ptpMessage okPtp,
  .macsecFrame 0 (.mka 0 true),
  .ytRun okWrite,
  .ytTick,
  .ppsEdge] : List Instr).all Instr.wf = true := by decide +kernel

theorem test_wf_accepts_8 : ([
  .ppsMissing,
  .tlHostSig okWrite,
  .tlBindWrite okWrite 0,
  .tlSnapSelWrite okWrite,
  .nwFlowSelWrite okWrite,
  .secKeyLoad okCmd,
  .secKeyClear okCmd,
  .secModelImport okCmd,
  .secCertLoad okCmd,
  .secScrubCert okCmd,
  .secRandom okCmd,
  .entropyHealthFail,
  .secCommit okWrite,
  .stlCommit okWrite,
  .schCtxCommit okWrite,
  .nwCommit okWrite,
  .shCommit okWrite,
  .pfCommit okWrite,
  .gcPortCommit okWrite,
  .ytCommit okWrite,
  .ckCommit okWrite,
  .pwCommit okWrite,
  .cpCommit okWrite,
  .stlDirtyLimitWrite okWrite,
  .kvShapeWrite okWrite 0,
  .devRstRelease,
  .romDone okRom,
  .buLoadStart okWrite,
  .buLoadDone none,
  .buGo okWrite] : List Instr).all Instr.wf = true := by decide +kernel

theorem test_wf_accepts_9 : ([
  .buTrainDone [],
  .buTestDone [] [],
  .buReadyReq okWrite,
  .buStepTimeout 0,
  .monitorWindowEnd okWindow,
  .missingEdge 0,
  .ckReturn okWrite,
  .ckRateClr okWrite,
  .fmeasStart okWrite,
  .fmeasDone 0,
  .ckPaceWrite okWrite 0,
  .paceTargetChange okWrite 0,
  .pacePoll 0 0,
  .paceSettleTimeout 0,
  .avsbusDone 0 true,
  .gateIdleSleep 0,
  .gateIdleDeep 0,
  .gateWake 0,
  .gateScheduledWake 0,
  .pwarnAssert,
  .powerSafe,
  .parkLate,
  .pwarnDeassert,
  .pwResumeExpiry,
  .pwrgdFall,
  .telemetrySample [],
  .droopSample [],
  .supplyLimitRelax 0,
  .overvolt 0,
  .brownout 0] : List Instr).all Instr.wf = true := by decide +kernel

theorem test_wf_accepts_10 : ([
  .thermalStep [],
  .handshakeTimeout (.aisle 0),
  .repairWindowRestart,
  .selfTestPeriod [],
  .rpRetire okCmd,
  .selfTest okCmd,
  .rpLogAckWrite okWrite,
  .cpTake okCmd,
  .cpPeriodicTrigger,
  .cpFreezeDone,
  .cpDrainDone,
  .cpWriteDone,
  .cpRestore okCmd,
  .cpRestoreReadsDone none,
  .cpMirror okCmd,
  .cpUnmirror okCmd,
  .ringHeadWrite okWrite 0,
  .ringCtrlWrite okWrite 0,
  .evMaskWrite okWrite 0,
  .flagClear okWrite 0,
  .ringCoalesceExpiry 0,
  .i3cRead 0,
  .registerWrite okWrite 0,
  .devRstAssert,
  .quarantineScrubDone 0 1,
  .aisleLinkFail 0,
  .dramChannelTrainFail 0 0 true,
  .shedPortDown 0,
  .groomPairDisagree 0,
  .tdispStartInterface 0] : List Instr).all Instr.wf = true := by decide +kernel

theorem test_wf_accepts_11 : ([
  .tdispStopInterface 0,
  .ptpSourceLoss,
  .mkaLivePeerLoss 0,
  .hostCompletionTimeout (.fetch 0),
  .cpMirrorCopyDone 0,
  .selfTestUnitDone 0 (.aisle 0) true,
  .modelImportChunkDone 0 none,
  .compactStallDone none 0] : List Instr).all Instr.wf = true := by decide +kernel

/-! ### States for the witnesses -/

/-- The state after reset with some registers set. -/
def st (regs : List (RegField × Nat)) : State := regs.foldl (fun s p => s.put p.1 p.2) State.reset

/-- Operand bytes of a command: offset, bytes, value (R395). -/
def operands (l : List (Nat × Nat × Nat)) : BitVec 256 := BitVec.ofNat 256 ((l.map (fun e => e.2.2 % 256 ^ e.2.1 * 256 ^ (e.1 - 32))).sum)

/-- Tenant 0 enabled, every Hive there, the first 4,096 granules the tenant's, all Combs in partition 0, one channel of Hive 0 in use. -/
def tn : State :=
  { st [(Fld.TN_CTRL_EN 0, 1), (Fld.STL_CTRL_EN, 1), (Fld.SCH_PART_COMBS 0, 0xFFFFFFFF), (Fld.HB_CH_LOGICAL 0 0, 0), (Fld.HB_CH_STATE 0 0, 0)] with
    t1 := { absent := 0, runs := [⟨0, 4096, .tenant 0 none⟩] } }

/-- A command of tenant 0's first queue with a handle, addresses and operands. -/
def cmd (handle addrA addrB : Nat) (ops : List (Nat × Nat × Nat)) : Cmd :=
  { okCmd with handle := BitVec.ofNat 64 handle, addrA := BitVec.ofNat 64 addrA, addrB := BitVec.ofNat 64 addrB, ops := operands ops }

/-- The same on the management queue of port 0. -/
def mcmd (handle addrA addrB : Nat) (ops : List (Nat × Nat × Nat)) : Cmd := { cmd handle addrA addrB ops with issuer := .queue 4096 }

theorem acc {s : State} {c : Cmd} {k : QueueKind} {f : Bool} (h : (!s.fenceWaits c && (s.gate c k f).isNone) = true) : Accepted s c k f := by
  simp only [Bool.and_eq_true, Bool.not_eq_true', Option.isNone_iff_eq_none] at h
  exact h

theorem held {s : State} {c : Cmd} {k : QueueKind} {f : Bool} (h : (!s.fenceWaits c && (s.gate c k f).isNone && !s.freezing) = true) :
    AcceptedHeld s c k f := by
  simp only [Bool.and_eq_true, Bool.not_eq_true', Option.isNone_iff_eq_none] at h
  exact ⟨h.1, fun _ => h.2⟩

theorem onStall {s : State} {c : Cmd} {i : Nat} {r : Bool} (h : (!s.fenceWaits c && (s.gate c .tenant false).isNone && !s.freezing) = true)
    (h2 : s.checkHandle ((s.issuerTenant c.issuer).getD 0) c.handle.toNat r = .ok i ∧ s.on Fld.STL_CTRL_EN = true ∧ s.indexLost i = false) :
    OnStall s c i r := ⟨held h, h2⟩

/-- The management port may write any register: port 0 holds MGMT. -/
def mg (regs : List (RegField × Nat)) : State := st ((Fld.GC_PORT_CFG_MGMT 0, 1) :: regs)

theorem may {s : State} {w : RegWrite} {off : Nat}
    (h : (!s.ideBlocked w.port && (s.get Fld.BU_STATE_STATE != 8) && s.reaches w.port off) = true) : MayWrite s w off := by
  simp only [Bool.and_eq_true, Bool.not_eq_true', bne_iff_ne, ne_eq] at h
  exact ⟨h.1.1, fun e => absurd e h.1.2, h.2⟩

/-- A 64-bit write of a value on port 0. -/
def wr (v : Nat) : RegWrite := ⟨0, none, BitVec.ofNat 64 v⟩

theorem isOk {ε α : Type} {e : Except ε α} {i : α} (h : e.toOption = some i) : e = .ok i := by
  cases e <;> simp_all [Except.toOption]

theorem isErr {ε α : Type} {e : Except ε α} {i : ε} (h : (match e with | .error x => some x | .ok _ => none) = some i) : e = .error i := by
  cases e <;> simp_all

/-- A K48 or a K32: 3 or 2 GiB a channel. -/
theorem channel_cases : channelBytes = 3221225472 ∨ channelBytes = 2147483648 := by
  unfold channelBytes
  by_cases h : Config.isK48 = true <;> simp [h]

theorem hive_room : 2 ^ 35 ≤ hiveBytes := by
  unfold hiveBytes
  have := channel_cases
  omega

theorem isLow {s : State} {a n : Nat} (h : (s.redirects.isEmpty && decide (a / 2 ^ 40 = 0) && decide (a % 2 ^ 36 + n ≤ 2 ^ 35) && !s.hiveAbsent (hiveOf a)) = true) :
    s.addrOk a n = true := by
  simp only [Bool.and_eq_true, decide_eq_true_eq] at h
  have hr := hive_room
  have hl : offsetOf a + n ≤ hiveBytes := by unfold offsetOf; omega
  simp only [State.addrOk, h.1.1.1, h.1.1.2, h.2, hl, if_true, decide_true, Bool.and_true]

theorem owns {s : State} {t a n : Nat} (h : (s.redirects.isEmpty && decide (a / 2 ^ 40 = 0) && decide (a % 2 ^ 36 + n ≤ 2 ^ 35) && !s.hiveAbsent (hiveOf a)) = true)
    (h2 : (List.range ((a + n + 4095) / 4096 - a / 4096)).all (fun i => s.granuleOf t (a / 4096 + i)) = true) : s.tenantOwns t a n = true := by
  rw [State.tenantOwns, isLow h, h2]; rfl

theorem ownsNot {s : State} {t a n : Nat} (h2 : (List.range ((a + n + 4095) / 4096 - a / 4096)).all (fun i => s.granuleOf t (a / 4096 + i)) = false) :
    s.tenantOwns t a n = false := by
  rw [State.tenantOwns, h2, Bool.and_false]

/-- Hive 0 has room for a granule where nothing is allocated and its channel 0 is in use. -/
theorem room {s : State} {o : Owner} (h : s.t1.runs = [] ∧ sparseGet 0 s.t1.rotor 0 = 0 ∧ s.units.evacuating = [])
    (h2 : s.hiveAbsent 0 = false ∧ (s.physicalChannel 0 0).isSome = true) : (s.alloc 0 1 1 o).isSome = true := by
  have hc : 1 ≤ channelGranules := by unfold channelGranules; have := channel_cases; omega
  have hplace : s.placeInChannel 0 0 1 1 = some 0 := by
    have hc0 : 0 < channelGranules := hc
    simp [State.placeInChannel, h.1, alignUp, Tier1.allFree, hc0, List.filter]
  have hp : (s.place 0 1 1).isSome = true := by
    rw [State.place, h2.1, if_neg (by decide), List.findSome?_isSome_iff]
    exact ⟨0, by decide, by simp [h.2.1, h.2.2, h2.2, hplace]⟩
  unfold State.alloc
  cases hq : s.place 0 1 1 <;> simp_all

/-- Hive 0 has no room where one owner holds everything. -/
theorem noRoom {s : State} {n : Nat} {o p : Owner} (h : s.t1.runs = [⟨0, 2 ^ 28, p⟩]) (h2 : 0 < n) : s.alloc 0 n 1 o = none := by
  have hc := channel_cases
  have hplace : ∀ c, c < 16 → s.placeInChannel 0 c n 1 = none := by
    intro c hc16
    have h3 : ∀ a, a < 2 ^ 28 → s.t1.allFree a n = false := by
      intro a ha
      simp [Tier1.allFree, h]
      omega
    have h4 : channelGranules ≤ 786432 := by unfold channelGranules; omega
    have : ∀ a ∈ ((0 * 2 ^ 36 + c * channelBytes) / 4096 :: s.t1.runs.map (fun r => r.start + r.len)).map (alignUp 1),
        ¬ ((0 * 2 ^ 36 + c * channelBytes) / 4096 ≤ a ∧ a + n ≤ (0 * 2 ^ 36 + c * channelBytes) / 4096 + channelGranules ∧ s.t1.allFree a n = true) := by
      intro a _ hx
      have hb : (0 * 2 ^ 36 + c * channelBytes) / 4096 ≤ 15 * 786432 := by
        rcases hc with e | e <;> rw [e] <;> omega
      rw [h3 a (by omega)] at hx
      exact absurd hx.2.2 (by decide)
    simp only [State.placeInChannel]
    rw [List.filter_eq_nil_iff.mpr (fun a ha => by simpa using this a ha)]
    rfl
  have hp : s.place 0 n 1 = none := by
    unfold State.place
    split
    · rfl
    · rw [List.findSome?_eq_none_iff]
      intro i hi
      dsimp only
      split
      · exact hplace _ (Nat.mod_lt _ (by decide))
      · rfl
  simp [State.alloc, hp]

/-- Whether the blocks of a range lie in channel 0 of Hive 0, in use, with no error and no poison, clear or written in the domain. -/
def soundRead (s : State) (d a n : Nat) : Bool :=
  !s.overWeights a n && (s.physicalChannel 0 0).isSome && s.redirects.isEmpty && s.t1.errors.isEmpty && s.t1.poison.isEmpty &&
    (blocksOf a n).all (fun b => decide (64 * b < 2 ^ 31) &&
      (s.blockDomain b == none || (s.blockDomain b == some d && sparseGet [] s.t1.keyed b == s.domainKeys d)))

/-- A block read with nothing to correct is served from where it is. -/
theorem quietBlock {s : State} {d b : Nat} (hb : 64 * b < 2 ^ 31) (hp : (s.physicalChannel 0 0).isSome = true) (hr : s.redirects = [])
    (he : s.t1.errors = []) (ho : s.t1.poison = [])
    (hd : s.blockDomain b = none ∨ s.blockDomain b = some d ∧ sparseGet [] s.t1.keyed b = s.domainKeys d) :
    s.servedAt (64 * b) / 64 = b ∧ s.sourceBlock d b = b ∧ (s.blockRead d b = .clear ∨ s.blockRead d b = .data) := by
  have hc := channel_cases
  have hs : s.servedAt (64 * b) / 64 = b := by simp [State.servedAt, hr]
  have hv : hiveOf (64 * b) = 0 := by unfold hiveOf; omega
  have hn : channelOf (64 * b) = 0 := by unfold channelOf offsetOf; rcases hc with e | e <;> rw [e] <;> omega
  have hread : s.blockRead d b = .clear ∨ s.blockRead d b = .data := by
    have hw : s.isPoisoned b = false := by simp [State.isPoisoned, ho, sparseGet]
    obtain ⟨p, hp⟩ := Option.isSome_iff_exists.mp hp
    rcases hd with hd | ⟨hd, hk⟩
    · simp [State.blockRead, hv, hn, hp, hd, he, sparseGet]
    · simp [State.blockRead, hv, hn, hp, hd, hk, he, sparseGet, hw]
  refine ⟨hs, ?_, hread⟩
  rcases hread with h | h <;> simp [State.sourceBlock, hs, h, BlockRead.status]

theorem goodBlock {s : State} {d b : Nat} (hb : 64 * b < 2 ^ 31) (hp : (s.physicalChannel 0 0).isSome = true) (hr : s.redirects = [])
    (he : s.t1.errors = []) (ho : s.t1.poison = [])
    (hd : s.blockDomain b = none ∨ s.blockDomain b = some d ∧ sparseGet [] s.t1.keyed b = s.domainKeys d) : s.blockStatus d b = none := by
  obtain ⟨-, h2, h3⟩ := quietBlock hb hp hr he ho hd
  rw [State.blockStatus, h2]
  rcases h3 with h3 | h3 <;> rw [h3] <;> rfl

/-- Such a read changes nothing. -/
theorem quietBlockRead {s : State} {d b : Nat} (hb : 64 * b < 2 ^ 31) (hp : (s.physicalChannel 0 0).isSome = true) (hr : s.redirects = [])
    (he : s.t1.errors = []) (ho : s.t1.poison = [])
    (hd : s.blockDomain b = none ∨ s.blockDomain b = some d ∧ sparseGet [] s.t1.keyed b = s.domainKeys d) : s.afterBlockRead d b = s := by
  obtain ⟨h1, h2, h3⟩ := quietBlock hb hp hr he ho hd
  simp only [State.afterBlockRead, h1, h2, if_pos, State.afterBlock]
  rcases h3 with h3 | h3 <;> rw [h3] <;> rfl

/-- A read that the books and the stored bytes allow: what it delivers. -/
theorem readOk {s : State} {d a n : Nat} (h : (s.redirects.isEmpty && decide (a / 2 ^ 40 = 0) && decide (a % 2 ^ 36 + n ≤ 2 ^ 35) && !s.hiveAbsent (hiveOf a)) = true)
    (h2 : soundRead s d a n = true) : s.readT1 d a n = .ok (s.servedBytes d a n) := by
  simp only [soundRead, Bool.and_eq_true, Bool.not_eq_true', List.isEmpty_iff, List.all_eq_true, decide_eq_true_eq, Bool.or_eq_true, beq_iff_eq] at h2
  obtain ⟨⟨⟨⟨⟨hw, hp⟩, hr⟩, he⟩, ho⟩, hd⟩ := h2
  have hf : (blocksOf a n).findSome? (s.blockStatus d) = none := by
    rw [List.findSome?_eq_none_iff]
    exact fun b hb => goodBlock (hd b hb).1 hp hr he ho (hd b hb).2
  rw [State.readT1, hw, if_neg (by decide), State.readBlocks, isLow h, hf]
  rfl

/-- A read of a Hub thread in its tenant's memory. -/
theorem hubRead {s : State} {c : Cmd} {slot unit d e a n : Nat} (hi : c.issuer = .hub slot unit) (ht : (s.context slot).tenant = e)
    (h : (s.redirects.isEmpty && decide (a / 2 ^ 40 = 0) && decide (a % 2 ^ 36 + n ≤ 2 ^ 35) && !s.hiveAbsent (hiveOf a)) = true)
    (h2 : (List.range ((a + n + 4095) / 4096 - a / 4096)).all (fun i => s.granuleOf e (a / 4096 + i)) = true)
    (h3 : soundRead s e a n = true) :
    s.readIn c a d n = .ok (s.servedBytes e a n) := by
  subst ht
  simp only [State.readIn, hi, owns h h2, if_true]
  exact readOk h h3


/-! ### Instructions fetched and executed -/

/-- A read of the code copy delivers the word `w` at an address. -/
abbrev Coded (s : State) (a w : Nat) : Prop :=
  (s.redirects.isEmpty && decide (a / 2 ^ 40 = 0) && decide (a % 2 ^ 36 + 16 ≤ 2 ^ 35) && !s.hiveAbsent (hiveOf a)) = true ∧
    soundRead s 544 a 16 = true ∧ (s.redirects.isEmpty && s.mirrors.isEmpty) = true ∧ recGet (s.rawBytes a 16) 0 16 = w

theorem fetched {s : State} {k u w : Nat} (h : Coded s ((s.context k).codeAt + (s.unit k u).pc) w) : s.fetchWord k u = .ok w := by
  rw [State.fetchWord, readOk h.1 h.2.1, State.servedBytes, if_pos h.2.2.1]
  dsimp only
  rw [h.2.2.2]

/-- Whether an instruction executes, as a truth value. -/
def runs (i : Instr) (s : State) : Bool :=
  match trondi i with
  | none => false
  | some (n, cls, op, sh) =>
    (s.canIssue n && (decide ((s.unit n.slot n.unit).pc + 16 ≤ (s.context n.slot).codeBytes) && (decide ((s.unit n.slot n.unit).pc % 16 = 0) &&
      decide (Coded s ((s.context n.slot).codeAt + (s.unit n.slot n.unit).pc) (insnWord cls op n))))) &&
    (sideOk (s.context n.slot).hub sh.side && (staticOk (s.context n.slot).hub sh n && (predicateOn (s.unit n.slot n.unit) n &&
      (!(touched sh n).any (fun r => (s.unit n.slot n.unit).reqs.any (fun q => (pendingRegs q).contains r)) &&
      decide (((seen n cls s).context n.slot).state = .running)))))

theorem exe {i : Instr} {s : State} (h : runs i s = true) : Executes i s := by
  revert h
  unfold runs Executes Fetches
  cases ht : trondi i with
  | none => simp
  | some t =>
    obtain ⟨n, cls, op, sh⟩ := t
    simp only [Bool.and_eq_true, Bool.not_eq_true', decide_eq_true_eq]
    rintro ⟨⟨h1, h2, h3, h4⟩, h5⟩
    exact ⟨⟨h1, h2, h3, fetched h4⟩, h5⟩

/-- A state with an instruction's word at the PC of its unit (R255, R269). -/
def placed (i : Instr) (s : State) : State :=
  match trondi i with
  | none => s
  | some (n, cls, op, _) =>
    let at_ := (s.context n.slot).codeAt + (s.unit n.slot n.unit).pc
    { s with t1 := { s.t1 with bytes := s.t1.bytes ++ (bytesOf 16 (insnWord cls op n)).zipIdx.map (fun e => (at_ + e.2, e.1)) } }

theorem exeAll {l : List Instr} {s : State} (h : l.all (fun i => runs i (placed i s)) = true) : ∀ i ∈ l, Executes i (placed i s) :=
  fun i hi => exe (List.all_eq_true.mp h i hi)

/-- What an instruction's own effect starts from where its word stands at the PC. -/
def seenAt (i : Instr) (s : State) : State :=
  match trondi i with
  | none => s
  | some (n, cls, _, _) => seen n cls (placed i s)

/-- A state with a word at the first address of the code of `cell` and `thread`. -/
def coded (w : Nat) (s : State) : State :=
  { s with t1 := { s.t1 with bytes := (bytesOf 16 w).zipIdx.map (fun e => (0x100000 + e.2, e.1)) } }

/-- Slot 0 runs a context of tenant 0 with 64 bytes of code, on the Cells of partition 0; its Cell 0 has the registers given. -/
def cell (y : UnitX) : State :=
  { tn with contexts := [(0, { state := .running, codeAt := 0x100000, codeBytes := 64, onCells := true, units := [(0, y)] })] }

/-- The same as Hub thread 0. -/
def thread (y : UnitX) : State :=
  { tn with contexts := [(0, { state := .running, hub := true, codeAt := 0x100000, codeBytes := 64, units := [(0, y)] })] }

/-- An instruction's fields. -/
def ins (flags d a b c : Nat) (imm : Nat) : Insn :=
  ⟨0, 0, 0, BitVec.ofNat 8 flags, BitVec.ofNat 8 d, BitVec.ofNat 8 a, BitVec.ofNat 8 b, BitVec.ofNat 8 c, 0, BitVec.ofNat 64 imm, 0⟩
/-! ### Witnesses: the machine, its queues and ports -/

def oneNop : State := { State.reset with pending := [.nop okCmd] }

theorem witness_CanonicalFormsKept : Canonical oneNop ∧ ∃ t, Steps oneNop t := ⟨by unfold Canonical; decide +kernel, _, rfl⟩

theorem witness_EveryQueueDrains : Canonical oneNop ∧ oneNop.pending.length = 1 := by unfold Canonical; decide +kernel

theorem witness_CommandsWriteTheirFieldsOnly : ∃ t, exec (.nop okCmd) State.reset = .next t := ⟨_, rfl⟩

theorem witness_StepTakesOneCommand : QueueWf oneNop ∧ ∃ t, Steps oneNop t := ⟨by unfold QueueWf; decide +kernel, _, rfl⟩

theorem witness_StepRunsFrontCommand : State.reset.pending = [] := rfl

/-- Queue 0 has another command first in progress. -/
def behind : State := { tn with io := tn.io.setQueue 0 { inProgress := [{ okCmd with tag := 1 }] } }

/-- Tenant 0 confidential, with no port listed. -/
def confidential : State := (tn.put (Fld.SEC_CONF_CONFIDENTIAL 0) 1).put (Fld.SEC_CONF_PORTS 0) 0

theorem witness_QueueChecksInOrder :
    behind.fenceWaits { okCmd with flags := 1 } = true ∧
    (State.reset.fenceWaits okCmd = false ∧ State.reset.get (Fld.TN_CTRL_EN (0 / 16)) = 0) ∧
    (confidential.fenceWaits okCmd = false ∧ confidential.get (Fld.TN_CTRL_EN (0 / 16)) = 1 ∧
      confidential.portAllowed (0 / 16) (confidential.io.queuePort 0) = false) ∧
    (tn.fenceWaits { okCmd with flags := 2 } = false ∧ tn.get (Fld.TN_CTRL_EN (0 / 16)) = 1 ∧ tn.portAllowed (0 / 16) (tn.io.queuePort 0) = true ∧
      2 ≤ ({ okCmd with flags := 2 } : Cmd).flags.toNat) ∧
    (tn.fenceWaits { okCmd with flags := 1 } = false ∧ ({ okCmd with flags := 1 } : Cmd).flags.toNat < 2) ∧
    (tn.fenceWaits { okCmd with issuer := .queue 4096 } = false ∧ 2 ≤ ({ okCmd with issuer := .queue 4096, flags := 2 } : Cmd).flags.toNat) ∧
    queueTenant 4095 = some 255 ∧ queueTenant 4096 = none := by decide +kernel

theorem witness_CheckpointHoldsQueuedCommands :
    (1 ≤ (st [(Fld.CP_STATUS_PHASE, 1)]).get Fld.CP_STATUS_PHASE ∧ (st [(Fld.CP_STATUS_PHASE, 4)]).get Fld.CP_STATUS_PHASE ≤ 4) ∧
    State.reset.get Fld.CP_STATUS_PHASE = 0 ∧ 4 < (st [(Fld.CP_STATUS_PHASE, 5)]).get Fld.CP_STATUS_PHASE := by decide +kernel

/-- An operation of tenant 0's queue 0 in slot 0. -/
def opIn (o : OpState) (opcode phase : Nat) (suspend cancel : Option Cmd) : State :=
  { tn with ops := [(0, { live := true, st := o, opcode := opcode, cmd := some okCmd, phase := phase, suspendCmd := suspend, cancelCmd := cancel })] }

theorem witness_OperationCommands :
    Accepted tn okCmd .both true ∧ Accepted (opIn .queued 0x30 0 none none) (cmd 0x1000 0 0 []) .both false ∧
    (opIn .queued 0x30 0 none none).checkOpHandle (cmd 0x1000 0 0 []) = .ok 0 ∧
    (opIn .queued 0x30 0 none none).checkOpHandle (cmd 0 0 0 []) = .error CS.badHandle ∧
    ((neverSuspended 0x30 = false ∧ ((opIn .queued 0x30 0 none none).op 0).st = .queued) ∧
    (((opIn .running 0x30 0 none none).op 0).st = .running ∧ (opIn .running 0x30 0 none none).opHasSafePoint 0 = true) ∧
    neverSuspended 0x80 = true ∧ ((opIn .done 0x30 0 none none).op 0).st ∈ [OpState.done, .cancelled, .failed] ∧
    ((opIn .suspending 0x30 0 none none).op 0).cancelCmd = none ∧
    (opIn .running 0x30 0 none none).opCancellable 0 = true ∧ (opIn .running 0x90 4 none none).opCancellable 0 = false ∧
    (let s := opIn .suspending 0x30 0 (some okCmd) none;
      (s.op 0).live = true ∧ (s.op 0).st = .suspending ∧ s.opHasSafePoint 0 = true ∧ (s.op 0).cancelCmd = none ∧ (s.op 0).suspendCmd = some okCmd) ∧
    (let s := opIn .suspending 0x30 0 none (some okCmd);
      (s.op 0).live = true ∧ (s.op 0).st = .suspending ∧ (s.op 0).cancelCmd = some okCmd ∧ s.opCancellable 0 = true) ∧
    (let s := { opIn .done 0x30 0 none none with yt := { count := 2 ^ 60 } };
      (s.op 0).live = true ∧ (s.op 0).st.ended = true ∧ (s.op 0).endYt + s.get Fld.GC_OP_HOLD_NS ≤ s.now)) :=
  ⟨acc (by decide +kernel), acc (by decide +kernel), isOk (by decide +kernel), isErr (by decide +kernel), by decide +kernel⟩

/-- Room for a granule, or none; granules freed; a transfer of 64 bytes to the tenant's last 64; lengths at the edges. -/
theorem witness_HostMemoryCommands :
    AcceptedHeld tn (cmd 0 0 0 [(32, 1, 0), (36, 4, 1)]) .tenant false ∧
    (({ tn with t1 := { absent := 0 } }).alloc 0 1 1 (.tenant 0 none)).isSome = true ∧
    ({ tn with t1 := { absent := 0, runs := [⟨0, 2 ^ 28, .device 0⟩] } }).alloc 0 1 1 (.tenant 0 none) = none ∧
    tn.addrOk 0 (4096 * 4096) = true ∧ tn.tenantOwns 0 (4096 * 4096 - 64) 64 = true ∧ tn.tenantOwns 0 (4096 * 4096 - 64) 128 = false ∧
    (tn.partitionHive 0 0 = true ∧ tn.overMirror 0 (4096 * 4096) true = false ∧
      tn.t1.allOwned (fun o => match o with | .tenant u _ => decide (u = 0) | _ => false) 0 4096 = true) ∧
    (let c := cmd 0 0 (4096 * 4096 - 64) [(32, 4, 64)];
      transferOk c = true ∧ tn.overMirror (4096 * 4096 - 64) 64 false = false ∧ tn.isDetached c = false ∧ c.busFail = none) ∧
    transferOk (cmd 0 0 0 [(32, 4, 0)]) = false ∧ transferOk (cmd 0 0 0 [(32, 4, 63)]) = false ∧
    (let c := cmd 0 (4096 * 4096 - 64) 0 [(32, 4, 64)];
      transferOk c = true ∧ tn.overWeights (4096 * 4096 - 64) 64 = false) ∧
    (let s := tn.put (Fld.TN_CTRL_MODEL_EN 0) 1;
      s.get (Fld.TN_CTRL_MODEL_EN 0) = 1 ∧ tn.get (Fld.TN_CTRL_MODEL_EN 0) = 0 ∧ (opByte (cmd 0 0 0 [(33, 1, 1)]) 33).testBit 0 = true) ∧
    ({ tn with allocStopped := true } : State).allocStopped = true ∧ (tn.put (Fld.SCH_PART_COMBS 0) 1).roomiest ((tn.put (Fld.SCH_PART_COMBS 0) 1).partitionHive 0) = some 0 :=
  ⟨held (by decide +kernel), room (by decide) (by decide +kernel), noRoom rfl (by decide), isLow (by decide +kernel), owns (by decide +kernel) (by decide +kernel),
    ownsNot (by decide +kernel), by decide +kernel⟩


/-- A block of the tenant's that nothing has written is read. -/
theorem witness_HostMemoryCommands_read : tn.goodPrefix 0 (blocksOf (4096 * 4096 - 64) 64) = 64 ∧
    (tn.afterRead 0 (4096 * 4096 - 64) 64).checkPoison = tn ∧ tn.isDetached (cmd 0 (4096 * 4096 - 64) 0 [(32, 4, 64)]) = false := by
  have h : tn.blockStatus 0 262143 = none := goodBlock (by decide) (by decide +kernel) rfl rfl rfl (.inl (by decide +kernel))
  have hq : tn.afterBlockRead 0 262143 = tn := quietBlockRead (by decide) (by decide +kernel) rfl rfl rfl (.inl (by decide +kernel))
  have hb : blocksOf (4096 * 4096 - 64) 64 = [262143] := by decide +kernel
  exact ⟨by simp [State.goodPrefix, hb, h], by simp only [State.afterRead, hb, List.foldl, hq]; rfl, by decide +kernel⟩

/-- Queue 0 enabled on port 0, whose link is up, with rings of 16 entries and tenant 0 bound; `tail` commands put by the host. -/
def qs (tail : Nat) : State :=
  st [(Fld.GC_PORT_STATE_LINK 0, 2), (Fld.GC_PORT_BIND_TENANTS 0 0, 1), (qEn 0, 1), (qPort 0, 0), (qSqLog2 0, 4), (qCqLog2 0, 4), (qPhase 0, 1),
    (qSqTail 0, tail), (qCqTail 0, 3)]

theorem witness_QueueDoorbells :
    (qs 0).ideBlocked 0 = false ∧ (qs 0).doorbellOk 0 0 = true ∧ 15 < 2 ^ (qs 0).get (qSqLog2 0) ∧ 2 ^ (qs 0).get (qSqLog2 0) ≤ 16 ∧
    (let size := 2 ^ (qs 0).get (qCqLog2 0);
      3 < size ∧ (3 + size - (qs 0).get (qCqHead 0)) % size ≤ ((qs 0).get (qCqTail 0) + size - (qs 0).get (qCqHead 0)) % size ∧
      ((qs 0).get (qCqTail 0) + size - (qs 0).get (qCqHead 0)) % size < (4 + size - (qs 0).get (qCqHead 0)) % size) ∧
    (qs 0).doorbellOk 1 0 = false := by decide +kernel

/-- The management port may write queue 0; its rings have sizes 2^4 and 2^16 and tenant 0 is bound there. -/
def idle : State := mg [(Fld.GC_PORT_BIND_TENANTS 0 0, 1), (qSqLog2 0, 4), (qCqLog2 0, 16), (qIdle 0, 1)]

theorem witness_QueueEnableAndIdle :
    MayWrite idle (wr 1) (queueBase 0 + 0x18) ∧
    (fieldGet (blend (idle.reg (queueBase 0 + 0x18)) (writeBits (wr 1)) (writeMask (wr 1))) 0 1 = 1 ∧ idle.get (qEn 0) = 0 ∧
      (idle.get (qSqBase 0) % 4096 = 0 ∧ idle.get (qCqBase 0) % 4096 = 0 ∧ 4 ≤ idle.get (qSqLog2 0) ∧ idle.get (qSqLog2 0) ≤ 16 ∧
        4 ≤ idle.get (qCqLog2 0) ∧ idle.get (qCqLog2 0) ≤ 16 ∧ idle.get (qIdle 0) = 1) ∧
      idle.bound (wr 1).port (0 / 16) = true ∧ idle.portAllowed (0 / 16) (wr 1).port = true) ∧
    (4 ≤ (idle.put (qSqLog2 0) 3).get (qSqLog2 0) → False) ∧
    ((idle.put (qEn 0) 1).get (qEn 0) = 1 ∧ ((idle.put (qEn 0) 1).io.queue 0).inProgress = [] ∧
      fieldGet (blend ((idle.put (qEn 0) 1).reg (queueBase 0 + 0x18)) (writeBits (wr 0)) (writeMask (wr 0))) 0 1 = 0) ∧
    (let s := idle.put Fld.BU_STATE_STATE 7;
      s.portMgmt 0 = true ∧ s.get Fld.BU_STATE_STATE = 7) :=
  ⟨may (by decide +kernel), by decide +kernel⟩

theorem witness_QueueEnableAndIdle_busy :
    ((behind.put (qEn 0) 1).get (qEn 0) = 1 ∧ ((behind.put (qEn 0) 1).io.queue 0).inProgress ≠ []) := by decide +kernel

theorem witness_CommandsFetchedInTurn :
    (qs 1).io.portUp 0 = true ∧ (qs 1).io.fatal = false ∧ (qs 1).ideBlocked 0 = false ∧ (qs 1).io.nextQueue 0 = some 0 ∧
    (qs 0).io.nextQueue 0 = none ∧ tenantOpcodes.contains (recGet (List.replicate 64 0) 0 1) = true ∧
    (let s := { (qs 1).put (qIrqEn 0) 1 with io := ((qs 1).put (qIrqEn 0) 1).io.setQueue 0 { unsignalled := 1 } };
      s.io.noStream (s.io.queuePort 0) = false ∧ s.get (qIrqEn 0) = 1 ∧ (s.io.queue 0).unsignalled ≠ 0 ∧ (s.io.queue 0).firstUnsignalled + 1000 * s.get (qCoalUs 0) ≤ s.now) := by decide +kernel

theorem witness_RecordsWrittenWithPhase :
    (qs 0).io.fatal = false ∧ (qs 0).io.noStream ((qs 0).io.queuePort 0) = false ∧ (qs 0).io.detached.find? (fun d => d.2 = coreOf okCmd) = none ∧ (qs 0).io.get (qEn 0) = 1 ∧
    ((qs 0).io.get (qCqTail 0) + 1) % 2 ^ (qs 0).io.get (qCqLog2 0) = 4 ∧
    (((qs 0).put (qCqTail 0) 15).io.get (qCqTail 0) + 1) % 2 ^ (qs 0).io.get (qCqLog2 0) = 0 := by decide +kernel

/-- Port 0's link in a state. -/
def link (n x : Nat) : State := st [(Fld.GC_PORT_STATE_LINK n, x)]

/-- Bring-up has reached ROM. -/
def rom (regs : List (RegField × Nat)) : State := mg ((Fld.BU_STATE_STATE, 1) :: regs)

theorem witness_PortsAttachAndDetach :
    Accepted State.reset (mcmd 0 0 0 [(32, 1, 1)]) .mgmt false ∧ MayWrite (mg []) (wr 1) (Reg.GC_PORT_BIND 0 0) ∧
    (opByte (mcmd 0 0 0 [(32, 1, 1)]) 32 = 1 ∧ (State.reset.newOp (mcmd 0 0 0 [(32, 1, 1)]) 0x0C [1]).isSome = true ∧
      4 ≤ opByte (mcmd 0 0 0 [(32, 1, 4)]) 32 ∧ opByte (mcmd 0 0 0 []) 32 = 0) ∧
    (let s := (rom []).put (Fld.CK_GATE_RUN_EN (17 + 3)) 1;
      s.io.fatal = false ∧ (s.get Fld.CK_MON_STATUS_FAILED).testBit 0 = false ∧ (s.get Fld.CK_MON_STATUS_FALLBACK).testBit 0 = false ∧
      s.units.hostLost.testBit 3 = false ∧ s.on (Fld.CK_GATE_RUN_EN (17 + 3)) = true ∧ s.get Fld.BU_STATE_STATE ≠ 0 ∧ s.get (Fld.GC_PORT_STATE_LINK 3) < 2 ∧
        s.get Fld.BU_STATE_STATE ≠ 8) ∧
    (link 3 2).get (Fld.GC_PORT_STATE_LINK 3) = 2 ∧ (link 3 3).get (Fld.GC_PORT_STATE_LINK 3) = 3 ∧
    ((st [(Fld.GC_PORT_STATE_TDI 0, 1)]).get (Fld.GC_PORT_STATE_TDI 0) = 1 ∧ (mg []).get (Fld.GC_PORT_STATE_TDI 0) = 0) ∧
    (qs 0).get (qEn 0) = 1 ∧
    (let s := { tn with io := tn.io.setQueue 0 { inProgress := [okCmd] } };
      (s.io.queue 0).inProgress.contains (coreOf okCmd) = true) :=
  ⟨acc (by decide +kernel), may (by decide +kernel), by decide +kernel⟩

theorem witness_EventsCountedAndFlagged :
    eventFlag 0x0306 = some (Reg.TL_FLAGS, 0, Reg.TL_FLAG_COUNT, 0) ∧ eventClass 0x0306 = some .error ∧
    (st [(⟨Reg.EV_MASK (0x0306 / 64), 0x0306 % 64, 1⟩, 1)]).io.masked 0x0306 = true ∧ eventClass 0 = none ∧
    eventClass 0xFFFF = none ∧ eventsFatal.all (fun c => decide (eventClass c = some .fatal)) = true ∧ eventsFatal ≠ [] ∧
    State.reset.get Fld.EV_FATAL_VALID = 0 ∧ (st [(Fld.EV_FATAL_VALID, 1)]).get Fld.EV_FATAL_VALID = 1 := by decide +kernel

/-- Ring 4 of tenant 0: sizes, enables and marks. -/
def ringState (regs : List (RegField × Nat)) : State := mg ((ringLog2 4, 6) :: (Fld.GC_PORT_BIND_TENANTS 0 0, 1) :: regs)

theorem witness_EventRegisterWrites :
    MayWrite (ringState []) (wr 0) (ringBase 4 + 24) ∧ MayWrite (ringState []) (wr 1) (ringBase 4 + 16) ∧ MayWrite (mg []) (wr 0) (Reg.EV_MASK 63) ∧
    MayWrite (mg []) (wr 1) Reg.TL_FLAGS ∧
    (let s := ringState [(ringTail 4, 1)];
      let size := 2 ^ s.get (ringLog2 4);
      (1 < size ∧ (1 + size - s.get (ringHead 4)) % size ≤ (s.get (ringTail 4) + size - s.get (ringHead 4)) % size) ∧
      ¬ (2 < size ∧ (2 + size - s.get (ringHead 4)) % size ≤ (s.get (ringTail 4) + size - s.get (ringHead 4)) % size)) ∧
    (let s := ringState [];
      let u := s.put (ringIrqEn 4) 0;
      fieldGet (blend (s.reg (ringBase 4 + 16)) (writeBits (wr 1)) (writeMask (wr 1))) 0 1 = 1 ∧
      fieldGet (blend (s.reg (ringBase 4 + 16)) (writeBits (wr 0)) (writeMask (wr 0))) 0 1 = 0 ∧
      u.get (ringEn 4) = 0 ∧ (u.get (ringAddr 4) % 4096 = 0 ∧ 6 ≤ u.get (ringLog2 4) ∧ u.get (ringLog2 4) ≤ 16) ∧
      ringTenant 4 = some 0 ∧ (u.bound 0 0 && u.portAllowed 0 0) = true ∧ ¬ 6 ≤ (u.put (ringLog2 4) 5).get (ringLog2 4)) ∧
    (regRow? Reg.TL_FLAGS).any (fun r => r.w1c != 0) = true ∧
    (let s := { st [(ringIrqEn 4, 1)] with io := { (st [(ringIrqEn 4, 1)]).io with rings := [(4, { unsignalled := 1 })] } };
      s.io.fatal = false ∧ s.io.noStream (s.get (ringPort 4)) = false ∧ s.get (ringIrqEn 4) = 1 ∧ (s.io.ring 4).unsignalled ≠ 0 ∧
      (s.io.ring 4).firstUnsignalled + 1000 * s.get (ringCoalUs 4) ≤ s.now) ∧
    (rom []).get Fld.BU_STATE_STATE ≠ 0 ∧ State.reset.get Fld.BU_STATE_STATE = 0 ∧ i3cReadable 0 = false :=
  ⟨may (by decide +kernel), may (by decide +kernel), may (by decide +kernel), may (by decide +kernel), by decide +kernel⟩

/-- A register row with one bit of each kind. -/
def kinds : RegRow := { base := 0, dims := [], rw := 1, lck := 2, w1c := 4, w1s := 8, commit := none }

theorem witness_RegisterAccessCodes :
    (kinds.rw.testBit 0 && kinds.lck.testBit 1 && kinds.w1c.testBit 2 && kinds.w1s.testBit 3 && !kinds.rw.testBit 63) = true ∧
    kinds.w1c.testBit 0 = false ∧ ({ wr 0 with half := some true } : RegWrite).half = some (decide (31 < 32)) ∧
    ({ wr 0 with half := some false } : RegWrite).half = some (decide (32 < 32)) ∧
    (let s := st [(Fld.GC_PORT_CFG_IDE_REQ 0, 1)];
      s.ideBlocked (wr 0).port = true) := by decide +kernel

theorem isNone {α : Type} {o : Option α} (h : o.isNone = true) : o = none := by simpa using h

theorem witness_RegisterAccessCodes_write :
    effectRegs.find? (fun e => e.1 = Reg.GC_OP_HOLD) = none ∧ clippedRegs.find? (fun e => e.1 = Reg.GC_OP_HOLD) = none ∧
    gatedEnables.find? (fun f => f.off = Reg.GC_OP_HOLD) = none ∧ (mg []).writeArrays (wr 1) Reg.GC_OP_HOLD = none ∧
    MayWrite (mg []) (wr 1) Reg.GC_OP_HOLD ∧ ((regRow? Reg.GC_OP_HOLD).any (fun r => r.w1c = 0) = true ∧
    (let s := st [(Fld.GC_PORT_CTRL_COMMIT, 1)];
      s.ideBlocked 1 = false ∧ s.get Fld.BU_STATE_STATE ≠ 8 ∧ s.reaches 1 Reg.GC_OP_HOLD = false)) :=
  ⟨isNone (by decide +kernel), isNone (by decide +kernel), isNone (by decide +kernel), isNone (by decide +kernel), may (by decide +kernel), by decide +kernel⟩

/-! ### Witnesses: Trondi instructions -/

/-- At the last word of the code. -/
theorem witness_ControlInstructions :
    ∀ i ∈ [.ctNop (ins 0 255 255 255 255 0), .ctBr (ins 0 255 255 255 255 16), .ctJmp (ins 0 255 31 255 255 0),
      .ctCall (ins 0 255 255 255 255 16), .ctRet (ins 0 255 255 255 255 0), .ctLoop (ins 0 31 255 255 255 0), .ctHalt (ins 0 255 255 255 255 7),
      .ctTrap (ins 0 255 255 255 255 7), .ctCmp (ins 5 0x4F 0 0xFE 255 1), .ctPlog (ins 3 0x4F 0x40 0x41 255 0)],
    Executes i (placed i (cell { pc := 48 })) := exeAll (by decide +kernel)

/-- Words that are no ct.nop: class 0, a Hub class in a Cell, opcode 10 of CT, and ct.br. -/
theorem otherWords :
    (∀ w ∈ [0, 0x18 * 2 ^ 122, 2 ^ 122 + 10 * 2 ^ 112, insnWord 1 1 (ins 0 255 255 255 255 16)], (coded w (cell {})).fetchWord 0 0 = .ok w) ∧
      (classSide 0 = none ∧ classSide 0x18 = some .hub ∧ sideOk false .hub = false ∧ opDefined 1 10 = false ∧ opDefined 1 1 = true ∧
        subReserved 4 2 13 = true ∧ insnWord 1 0 (ins 0 255 255 255 255 0) / 2 ^ 112 % 2 ^ 10 = 0) := by
  constructor
  · intro w hw
    simp only [List.mem_cons, List.not_mem_nil, or_false] at hw
    obtain rfl | rfl | rfl | rfl := hw <;> exact fetched (by decide +kernel)
  · decide +kernel

theorem witness_IssueChecksInOrder :
    State.reset.canIssue (ins 0 255 255 255 255 0) = false ∧
    ((cell { pc := 64 }).canIssue (ins 0 255 255 255 255 0) = true ∧ ((cell {}).context 0).codeBytes < 49 + 16 ∧ 8 % 16 ≠ 0) ∧
    (let s := seenAt (.ctNop (ins 0 255 255 255 255 0)) (cell {});
      s.canIssue (ins 0 255 255 255 255 0) = true ∧ Coded s 0x100000 (insnWord 1 0 (ins 0 255 255 255 255 0)) ∧
        sideOk false .cell = true ∧ staticOk false {} (ins 1 255 255 255 255 0) = false ∧ staticOk false {} (ins 0 255 255 255 255 0) = true ∧
        predicateOn (s.unit 0 0) { ins 0 255 255 255 255 0 with pred := 1 } = false) ∧
    (let s := cell { reqs := [⟨3, false, okCmd, none⟩] };
      predicateOn (s.unit 0 0) (ins 0 3 255 255 255 5) = true ∧
        (touched { d := .s, imm := true } (ins 0 3 255 255 255 5)).any (fun r => (s.unit 0 0).reqs.any (fun q => (pendingRegs q).contains r)) = true) := by
  decide +kernel

/-- Where another context's save area lies over the code, the fetch faults. -/
theorem witness_IssueChecksInOrder_unread :
    let s : State := { cell {} with contexts := (cell {}).contexts ++ [(1, { weighted := true, saves := [(0, 0x100000)] })] }
    s.canIssue (ins 0 255 255 255 255 0) = true ∧ s.fetchWord 0 0 = .error 0x0B := by
  refine ⟨by decide +kernel, ?_⟩
  rw [State.fetchWord, State.readT1, if_pos (by decide +kernel)]
  decide +kernel

/-- Tally 0 is tenant 0's. -/
def tallied (y : UnitX) : State := ((cell y).put Fld.TL_CTRL_EN 1).put (Fld.TL_BIND_EN 0) 1

theorem witness_SyncInstructions :
    (∀ i ∈ [.syFence (ins 0 255 255 255 255 0), .sySig (ins 0 1 0 0xFE 255 1), .syWait (ins 0 1 0 0xFE 2 1), .syAt (ins 0 1 0xFE 255 255 5),
      .syYt (ins 0 1 255 255 255 0)], Executes i (placed i (tallied {}))) ∧
    (let s := seenAt (.sySig (ins 0 1 0 0xFE 255 1)) (tallied {});
      s.tallyCheck 0 0 1 = none ∧ (s.tallyEcc 0 0).tallyCheck 0 0 1 = none ∧ s.now < 5 ∧
        ((seenAt (.sySig (ins 0 1 0 0xFE 255 1)) (cell {})).tallyCheck 0 0 1).isSome = true) ∧
    (let s := { cell { wait := some (.at_ 5 1) } with yt := { count := 5 } };
      (s.unit 0 0).wait = some (.at_ 5 1) ∧ 5 ≤ s.now) ∧ (cell { wait := some (.at_ 5 1) }).now < 5 :=
  ⟨exeAll (by decide +kernel), by decide +kernel⟩

theorem witness_ScalarMoves :
    ∀ i ∈ [.mvLi (ins 0 31 255 255 255 5), .mvMov (ins 0 0x20 0x2F 255 255 0), .mvAdd (ins 0 0 1 2 255 0), .mvSub (ins 0 0 1 2 255 0),
      .mvMul (ins 0 0 1 2 255 0), .mvAnd (ins 0 0 1 2 255 0), .mvOr (ins 0 0 1 2 255 0), .mvXor (ins 0 0 1 2 255 0),
      .mvShl (ins 0 0 1 0xFE 255 64), .mvShr (ins 0 0 1 2 255 0), .mvSra (ins 0 0 1 2 255 0), .mvMinu (ins 0 0 1 2 255 0),
      .mvMaxu (ins 0 0 1 2 255 0), .mvMins (ins 0 0 1 2 255 0), .mvMaxs (ins 0 0 1 2 255 0), .mvTile (ins 0 0x37 1 2 255 0),
      .mvTget (ins 1 0 0x30 255 255 0), .mvBcast (ins 0 0x20 1 255 255 0), .mvGetl (ins 0 0 0x20 255 255 63), .mvSetl (ins 0 0x20 1 255 255 63)],
    Executes i (placed i (cell {})) := exeAll (by decide +kernel)

/-- A descriptor of 2 rows of 16 FP32 elements, 64 bytes apart, at a scratchpad address. -/
def tile2 (base format : Nat) : BitVec 128 :=
  BitVec.ofNat 128 (base + format * 2 ^ 48 + 1 * 2 ^ 52 + 2 * 2 ^ 64 + 16 * 2 ^ 80 + 64 * 2 ^ 96)

/-- Registers 1 to 3: a scratchpad address, a length, a receiver; tiles 0 to 2: FP32, FP32, 16-bit. -/
def memUnit : UnitX :=
  { s := [(1, 0x1000000000000000), (2, 16), (3, 0x6000000000000000)], t := [(0, tile2 0 0), (1, tile2 4096 0), (2, tile2 8192 1)] }

/-- A message of some bytes for Cell 0 from itself. -/
def aisled (arrived : Bool) (len : Nat) : State :=
  { cell memUnit with aisle := [⟨0, false, 0, 0, 0, 0, 0, List.replicate len 0, arrived⟩] }

/-- What mv.ld, mv.st, mv.send, mv.recv and mv.copy start from. -/
def ldAt : State := seenAt (.mvLd (ins 3 4 1 255 255 0)) (cell memUnit)

def stAt : State := seenAt (.mvSt (ins 4 255 1 0x20 255 0)) (cell memUnit)

def sendAt : State := seenAt (.mvSend (ins 0 255 1 2 3 0)) (cell memUnit)

def recvAt (arrived : Bool) (len : Nat) : State := seenAt (.mvRecv (ins 0 255 1 2 3 0)) (aisled arrived len)

def copyAt (d : Nat) : State := seenAt (.mvCopy (ins 0 d 0x30 255 255 0)) (cell memUnit)

theorem witness_MemoryInstructions :
    (∀ i ∈ [.mvLd (ins 3 4 1 255 255 0), .mvSt (ins 4 255 1 0x20 255 0), .mvSend (ins 0 255 1 2 3 0), .mvRecv (ins 0 255 1 2 3 0),
      .mvCopy (ins 0 0x31 0x30 255 255 0), .mvCopy (ins 0 0x32 0x30 255 255 0)], Executes i (placed i (cell memUnit))) ∧
    (∀ i ∈ [.mvRecv (ins 0 255 1 2 3 0)], Executes i (placed i (aisled true 16))) ∧
    ldAt.access (ins 3 4 1 255 255 0) (memAddr memUnit (ins 3 4 1 255 255 0)) (widthOf 3) (widthOf 3) false = .ok (.own 0) ∧
    ldAt.access (ins 0 255 1 2 255 0) 0x103FFFFFFFFFFFFF 8 8 false = .error 0x04 ∧
    stAt.access (ins 4 255 1 0x20 255 0) (memAddr memUnit (ins 4 255 1 0x20 255 0)) 256 (widthOf 4) true = .ok (.own 0) ∧
    sendAt.access (ins 0 255 1 2 3 0) 0x1000000000000000 16 1 false = .ok (.own 0) ∧
    (recvAt true 16).access (ins 0 255 1 2 3 0) 0x1000000000000000 16 1 true = .ok (.own 0) ∧
    ((memUnit.num (ins 0 255 1 2 3 0) 3 / 2 ^ 60 = 6 ∧ memUnit.num (ins 0 255 1 2 3 0) 3 % 2 ^ 60 / 2 ^ 48 = 0 ∧ aisleLength 16 = true ∧
      aisleLength 65536 = true ∧ aisleLength 0 = false) ∧
    sendAt.aislePeer 0 0 = some (0, 0) ∧
    (recvAt false 16).aisle.findIdx? (aisleMatch 0 0 0 ((recvAt false 16).fromSender 0 0)) = none ∧
    (recvAt true 16).aisle.findIdx? (aisleMatch 0 0 0 ((recvAt true 16).fromSender 0 0)) = some 0 ∧
    ((recvAt true 32).aisle[0]?.map (fun m => m.bytes.length)) = some 32 ∧
    ((copyAt 0x31).tileRows (ins 0 0x31 0x30 255 255 0) (tileOf (tile2 0 0)) false).toOption.isSome = true ∧
    ((copyAt 0x31).tileRows (ins 0 0x31 0x30 255 255 0) (tileOf (tile2 4096 0)) true).toOption.isSome = true ∧
    ((copyAt 0x32).tileRows (ins 0 0x32 0x30 255 255 0) (tileOf (tile2 8192 1)) true).toOption.isSome = true ∧
    ((copyAt 0x31).tileRows (ins 0 0x31 0x30 255 255 0) (tileOf 0) false).toOption.isSome = false ∧
    ((aisled false 16).aisle[0]?.map (fun m => m.arrived)) = some false) :=
  ⟨exeAll (by decide +kernel), exeAll (by decide +kernel), isOk (by decide +kernel), isErr (by decide +kernel), isOk (by decide +kernel),
    isOk (by decide +kernel), isOk (by decide +kernel), by decide +kernel⟩

/-- A read of the unit's own memory answers its bytes and changes nothing. -/
theorem witness_MemoryInstructions_own : ldAt.readPlace (ins 3 4 1 255 255 0) memUnit (.own 0) 8 = (ldAt, .ok (List.replicate 8 0)) := by
  rw [State.readPlace]
  exact Prod.ext rfl (isOk (by decide +kernel))

/-- A sender with no message on the way holds a credit; one with as many on the way as the receiver takes, and one more, holds none (R15). -/
theorem witness_MemoryInstructions_credit :
    sendAt.aisleCredit 0 0 = true ∧
      ({ sendAt with aisle := List.replicate (Config.aisleCredits + 1) ⟨0, false, 0, 0, 0, 0, 0, [], false⟩ } : State).aisleCredit 0 0 = false := by
  have h : sendAt.aisle = [] := by decide +kernel
  simp [State.aisleCredit, h]

/-- Tiles 0 and 1 of 2 by 16 FP16 elements, 32 bytes a row; accumulator 0. -/
def matUnit : UnitX := { t := [(0, tile2 0 1), (1, tile2 4096 1)], s := [(1, 4032)] }

theorem witness_AccumulatorInstructions :
    (∀ i ∈ [.mxZero (ins 0 0x3B 255 255 255 0), .mxMma { ins 2 0x38 0x30 0x31 255 0 with fmt := 1 }, .mxLd (ins 0 0x38 0x30 255 255 0),
      .mxSt (ins 0 0x30 0x38 255 255 0), .vxRa (ins 0 0x20 0x38 1 255 0), .vxWa (ins 0 0x38 0x20 0xFE 255 4033),
      .vxCvt { ins 0 0x20 0x21 255 255 0 with fmt := 1 }, .vxCvt { ins 1 0x20 0x21 255 255 0 with fmt := 10 }], Executes i (placed i (cell matUnit))) ∧
    (((cell matUnit).tileRows (ins 0 0 0 0 0 0) (tileOf (tile2 0 1)) false).toOption.isSome = true ∧
    ((cell matUnit).tileRows (ins 0 0 0 0 0 0) (tileOf (tile2 4096 1)) true).toOption.isSome = true ∧
    (mmaTiles { ins 2 0x38 0x30 0x31 255 0 with fmt := 1 } (tileOf (tile2 0 1)) (tileOf (tile2 4096 1)) true).isSome = true ∧
    mmaTiles { ins 0 0x38 0x30 0x31 255 0 with fmt := 1 } (tileOf (tile2 0 1)) (tileOf (tile2 4096 1)) false = none ∧
    accTile (tileOf (tile2 0 1)) = true ∧ accTile (tileOf (tile2 0 11)) = false ∧ 4032 % 64 = 0 ∧ 4032 + 64 ≤ 4096 ∧ 4033 % 64 ≠ 0 ∧ 4096 < 4096 + 64) :=
  ⟨exeAll (by decide +kernel), by decide +kernel⟩

theorem witness_LaneInstructions :
    ∀ i ∈ [.vxFma (ins 0 0x20 0x21 0x22 0x23 0), .vxAdd (ins 0 0x20 0x20 0x20 255 0), .vxSub (ins 0 0x20 0x21 1 255 0), .vxMul (ins 0 0x20 0x21 0x22 255 0),
      .vxMax (ins 0 0x20 0x21 0x22 255 0), .vxMin (ins 0 0x2F 0x2F 0x2F 255 0), .vxNeg (ins 0 0x20 0x21 255 255 0), .vxAbs (ins 0 0x20 0x21 255 255 0),
      .vxExp (ins 0 0x20 0x21 255 255 0), .vxLog (ins 0 0x20 0x21 255 255 0), .vxRcp (ins 0 0x20 0x21 255 255 0), .vxRsqrt (ins 0 0x20 0x21 255 255 0),
      .vxRedSum (ins 0 0 0x21 255 255 0), .vxRedMax (ins 0 31 0x21 255 255 0), .vxRedMin (ins 0 1 0x21 255 255 0)],
    Executes i (placed i (cell {})) := exeAll (by decide +kernel)

/-- Register 1 names a Cell, register 2 a scratchpad address. -/
def listUnit (v : Nat) : UnitX := { s := [(1, BitVec.ofNat 64 v), (2, 0x1000000000000000)] }

/-- All 64 slots of the list hold minus infinity, as a cleared list's do. -/
def cleared : UnitX :=
  { acc := (List.range 128).map (fun i => (0xFC00 + 16 * (i / 2) + 2 + i % 2, if i % 2 = 0 then 0x80 else 0xFF)) }

/-- Partition 0 has Comb 0 alone. -/
def oneComb (s : State) : State := s.put (Fld.SCH_PART_COMBS 0) 1

theorem witness_ListInstructions :
    (∀ i ∈ [.vxIns (ins 0 255 0x20 0xFE 255 5), .vxLmerge (ins 0 255 1 255 255 0), .vxLget (ins 0 3 2 255 255 0), .vxLnext (ins 0 255 255 255 255 0),
      .vxLclr (ins 0 255 255 255 255 0)], Executes i (placed i (cell (listUnit 0)))) ∧
    (cell (listUnit 0)).access (ins 0 3 2 255 255 0) 0x1000000000000000 1024 1 true = .ok (.own 0) ∧
    ((cell (listUnit 0)).cellAbsent 0 = false ∧ (cell (listUnit 0)).mergeAllowed 0 0 0 = true ∧
    (oneComb (cell (listUnit 256))).mergeAllowed 0 0 256 = false ∧ (cell (listUnit 0)).cellAbsent 256 = false ∧
    (let s := { cell (listUnit 1) with units := { absentCells := [1] } };
      (s.get (Fld.SCH_PART_COMBS 0)).testBit 0 = true ∧ s.cellAbsent 1 = true) ∧
    ranked cleared.list = []) :=
  ⟨exeAll (by decide +kernel), isOk (by decide +kernel), by decide +kernel⟩

theorem ranked_last {l : List Entry} (h : l.any Entry.valid = true) : ∃ e, (ranked l).getLast? = some e := by
  have hins : ∀ (e : Entry) (r : List Entry), rankInsert e r ≠ [] := by
    intro e r
    cases r with
    | nil => simp [rankInsert]
    | cons a r => unfold rankInsert; split <;> simp
  have hfold : ∀ (m r : List Entry), r ≠ [] ∨ m ≠ [] → m.foldl (fun r e => rankInsert e r) r ≠ [] := by
    intro m
    induction m with
    | nil => intro r h; simpa using h
    | cons a m ih => intro r _; exact ih _ (.inl (hins a r))
  have hne : ranked l ≠ [] := hfold _ _ (.inr (by
    rw [List.any_eq_true] at h
    obtain ⟨e, he, hv⟩ := h
    exact List.ne_nil_of_mem (List.mem_filter.mpr ⟨he, hv⟩)))
  exact ⟨_, List.getLast?_eq_some_getLast hne⟩

theorem witness_ListInstructions_some : ∃ e, (ranked (listUnit 0).list).getLast? = some e := ranked_last (by decide +kernel)

theorem witness_RegisterFileFrames : ((({} : UnitX).setS 31 7).sreg 31 = 7) ∧ ({} : UnitX).pred 0 = true ∧ (({} : UnitX).setP 15 true).pred 15 = true := by
  decide +kernel

/-! ### Witnesses: requests of Hub threads, and the stall instructions of Cells -/

/-- The handle of stall 0 of tenant 0 in its first generation. -/
def hnd : Nat := 2 ^ 22

/-- A session stall of tenant 0 with one layer of 36-byte records, one page and one record, which no step runs. -/
def session (x : StallState) : Stall :=
  { state := x, handle := hnd, headerAt := 0, poolSlot := some 0, epoch := 1,
    hdr := { handle := hnd, committedLen := 1, specLen := 1, lengthCap := 100, epoch := 1 },
    table := some ⟨0, 0, 0, 0, 100, 36, 1, 0, [⟨0, [⟨8192, 0, 0, 0⟩], 1⟩]⟩ }

/-- A step with two drafts, no draw and no held commit. -/
def step2 : StepX := ⟨1, [], 0, [5, 6], false, 0, none, [], [], false, ⟨0, [], {}, [], 0⟩, [], 0, none, []⟩

/-- The same stall, RUNNING in such a step. -/
def running : Stall := { session .running with step := some step2 }

/-- A state with that stall in slot 0. -/
def withStall (x : Stall) (s : State) : State := { s with stalls := [(0, x)] }

/-- Block `blk` of tenant 0's memory holds one byte, the others zero. -/
def holding (blk v : Nat) (s : State) : State :=
  { s with t1 := { s.t1 with bytes := [(64 * blk, BitVec.ofNat 8 v)], domains := [(blk, 1)] } }

/-- Registers 1 to 3: a scratchpad address, another, the stall's handle. -/
def stallUnit : UnitX := { s := [(1, 0x1000000000000000), (2, 0x1000000000002000), (3, BitVec.ofNat 64 hnd)] }

/-- Registers 1 to 3: small numbers that are positions, addresses or tokens, and the stall's handle. -/
def hubUnit (a b : Nat) : UnitX := { s := [(1, BitVec.ofNat 64 a), (2, BitVec.ofNat 64 b), (3, BitVec.ofNat 64 hnd)] }

/-- The engines of the Hub enabled. -/
def engines (s : State) : State := ((s.put Fld.TX_CTRL_EN 1).put Fld.GR_CTRL_EN 1).put Fld.SEL_CTRL_EN 1

def hubCell : State := withStall running (cell stallUnit)

def hubThread : State := withStall running (thread (hubUnit 2 128))

/-- The layer of `session`. -/
def layer0 : Layer := ⟨0, [⟨8192, 0, 0, 0⟩], 1⟩

def table0 : PageTable := ⟨0, 0, 0, 0, 100, 36, 1, 0, [layer0]⟩

/-- What st.quant, st.append, st.rd, st.cmd and st.commit start from. -/
def quantAt : State := seenAt (.stQuant (ins 0 4 1 2 3 256)) hubCell

def appendAt : State := seenAt (.stAppend (ins 0 4 1 255 3 0)) hubCell

def rdAt : State := seenAt (.stRd (ins 0 4 1 0 3 256)) hubCell

def stCmdAt : State := seenAt (.stCmd (ins 0 4 1 2 255 0)) (holding 1 0x22 (thread (hubUnit 64 128)))

def commitAt : State := seenAt (.stCommit (ins 0 4 1 2 3 0)) hubThread

/-- The stall command of a 64-byte block in the tenant's memory. -/
theorem blockRead {s : State} {n : Insn} {a v : Nat} (h : (s.redirects.isEmpty && decide (a / 2 ^ 40 = 0) && decide (a % 2 ^ 36 + 64 ≤ 2 ^ 35) &&
    !s.hiveAbsent (hiveOf a)) = true) (h2 : (List.range ((a + 64 + 4095) / 4096 - a / 4096)).all (fun i => s.granuleOf 0 (a / 4096 + i)) = true)
    (h3 : soundRead s 0 a 64 = true) (h4 : (s.context n.slot).tenant = 0 ∧ (s.hubCmd n).issuer = .hub n.slot n.unit ∧ recGet (s.servedBytes 0 a 64) 0 1 = v) :
    ∃ b, s.readIn (s.hubCmd n) a 0 64 = .ok b ∧ recGet b 0 1 = v :=
  ⟨_, hubRead h4.2.1 h4.1 h h2 h3, h4.2.2⟩

theorem readOne {s : State} {t pos : Nat} {p : PageTable} {l : Layer} {g : Page} {j k : Nat} {b : List Byte} (h : linkedPage p l pos = some (g, j, k))
    (hb : s.readT1 t (g.addr + 64 + k * p.recBytes) p.recBytes = .ok b) : ∃ u, s.readRecords t p l pos 1 = (u, .ok ([b], [g.scale])) := by
  refine ⟨((s.afterRead t (g.addr + 64 + k * p.recBytes) p.recBytes).checkPoison), ?_⟩
  simp [State.readRecords, h, hb, Except.map]

/-- Whether an effect ends without a fault. -/
def didDone : Did → Bool
  | .done _ _ none => true
  | _ => false

theorem witness_StallEngineInstructions :
    (∀ i ∈ [.stQuant (ins 0 4 1 2 3 256), .stAppend (ins 0 4 1 255 3 0), .stRd (ins 0 4 1 0 3 256), .stLen (ins 2 4 255 255 3 0)],
      Executes i (placed i hubCell)) ∧
    (∀ i ∈ [.stCmd (ins 0 4 1 2 255 0), .stCommit (ins 0 4 1 2 3 0), .stAbandon (ins 0 4 255 255 3 0), .stLen (ins 3 4 255 255 3 0)],
      Executes i (placed i hubThread)) ∧
    quantAt.stallLayer (ins 0 4 1 2 3 256) hnd 0 = .ok (0, table0, layer0) ∧ appendAt.stallLayer (ins 0 4 1 255 3 0) hnd 0 = .ok (0, table0, layer0) ∧
    rdAt.stallLayer (ins 0 4 1 0 3 256) hnd 0 = .ok (0, table0, layer0) ∧
    (withStall (session .hot) (cell stallUnit)).stallLayer (ins 0 4 1 2 3 0) hnd 0 = .error CS.notReady ∧
    (seenAt (.stLen (ins 2 4 255 255 3 0)) hubCell).checkHandle 0 hnd false = .ok 0 ∧
    quantAt.access (ins 0 4 1 2 3 256) 0x1000000000000000 (4 * (36 * 16 / 9)) 1 false = .ok (.own 0) ∧
    appendAt.access (ins 0 4 1 255 3 0) 0x1000000000000000 52 1 false = .ok (.own 0) ∧
    (asking (ins 0 4 1 2 3 0) (hubUnit 2 128) false (commitAt.hubCmd (ins 0 4 1 2 3 0)) none commitAt).runningStall
      (commitAt.hubCmd (ins 0 4 1 2 3 0)) hnd = .ok 0 ∧
    (didDone (quantAt.writeScr (ins 0 4 1 2 3 256) stallUnit 0x1000000000002000 (List.replicate 52 0) 0) = true ∧
      didDone (rdAt.writeScr (ins 0 4 1 0 3 256) stallUnit 0x1000000000000000 (List.replicate 52 0) 0) = true ∧
      1 < tokenLimit running ∧ tokenLimit running = 100 ∧ linkedPage table0 layer0 1 = some (⟨8192, 0, 0, 0⟩, 0, 1) ∧
      quantAt.outputRoom 0 = true ∧
      (let s := { hubCell with net := { hubCell.net with queues := [(0, { items := [⟨0, 0, 0, 0, true, okMsg, 2 ^ 40, none, false, 0, none, []⟩] })] } };
        s.outputRoom 0 = false) ∧
      stepStatuses.contains 0 = true ∧ (hubUnit 2 128).num (ins 0 4 1 2 3 0) 1 ≤ step2.drafts.length ∧ step2.held = none) :=
  ⟨exeAll (by decide +kernel), exeAll (by decide +kernel), isOk (by decide +kernel), isOk (by decide +kernel), isOk (by decide +kernel),
    isErr (by decide +kernel), isOk (by decide +kernel), isOk (by decide +kernel), isOk (by decide +kernel), isOk (by decide +kernel), by decide +kernel⟩

theorem witness_StallEngineInstructions_reads :
    (∃ u r, rdAt.readRecords 0 table0 layer0 0 1 = (u, .ok r)) ∧
    (∃ b, stCmdAt.readIn (stCmdAt.hubCmd (ins 0 4 1 2 255 0)) 64 0 64 = .ok b ∧ recGet b 0 1 = 0x22) ∧ stCmdAt.tenantOwns 0 128 32 = true := by
  refine ⟨?_, blockRead (by decide +kernel) (by decide +kernel) (by decide +kernel) (by decide +kernel), owns (by decide +kernel) (by decide +kernel)⟩
  obtain ⟨u, h⟩ := readOne (s := rdAt) (t := 0) (p := table0) (l := layer0) (pos := 0) (g := ⟨8192, 0, 0, 0⟩) (j := 0) (k := 0) (by decide +kernel)
    (readOk (by decide +kernel) (by decide +kernel))
  exact ⟨u, _, h⟩

/-- A Hub thread with the engines enabled, the stall RUNNING, its text bound to byte mode. -/
def texting (a b : Nat) : State := engines (withStall running (thread (hubUnit a b)))

/-- What tx.tok, tx.bind, gr.mask, gr.adv and sl.draw start from. -/
def tokAt (flags : Nat) : State := seenAt (.txTok (ins flags 4 1 2 3 0)) (holding 1 65 (texting 64 1))

def bindAt : State := seenAt (.txBind (ins 0 4 1 255 255 0)) (holding 1 0x40 (texting 64 0))

def detokAt : State := seenAt (.txDetok (ins 0 4 1 2 3 0)) (texting 320 128)

def maskAt' : State := seenAt (.grMask (ins 1 4 1 2 3 0)) (texting 2 128)

def drawAt' : State := seenAt (.slDraw (ins 0 4 1 2 3 2) false) (texting 2 128)

theorem witness_TextAndGrammarInstructions :
    (∀ i ∈ [.txTok (ins 0 4 1 2 3 0), .txTok (ins 1 4 1 255 3 0), .txDetok (ins 0 4 1 2 3 0), .txStop (ins 0 4 1 255 3 0), .txCall (ins 0 4 1 255 3 0),
      .txBind (ins 0 4 1 255 255 0), .grMask (ins 1 4 1 2 3 0), .grAdv (ins 0 4 1 255 3 0)], Executes i (placed i (texting 2 128))) ∧
    (tokAt 0).inputStall 0 hnd = .ok 0 ∧ (tokAt 1).checkHandle 0 hnd false = .ok 0 ∧
    maskAt'.runningStall (maskAt'.hubCmd (ins 1 4 1 2 3 0)) hnd = .ok 0 ∧ detokAt.liveStall (detokAt.hubCmd (ins 0 4 1 2 3 0)) hnd = .ok 0 ∧
    detokAt.usableToken 0 320 = .error (0x0808, CS.badCommand) ∧
    detokAt.tenantOwns 0 128 255 = true ∧ maskAt'.tenantOwns 0 128 ((320 + 7) / 8) = true ∧
    (tokAt 0).readIn ((tokAt 0).hubCmd (ins 0 4 1 2 3 0)) 64 0 1 = .ok ((tokAt 0).servedBytes 0 64 1) ∧
    (∃ b, bindAt.readIn (bindAt.hubCmd (ins 0 4 1 255 255 0)) 64 0 64 = .ok b ∧ recGet b 0 1 = 0x40) ∧
    ((tokAt 0).kindLost 1 = false ∧ maskAt'.kindLost 2 = false ∧ (tokAt 0).on Fld.TX_CTRL_EN = true ∧
      maskAt'.on Fld.GR_CTRL_EN = true ∧ ((tokAt 0).put Fld.TX_CTRL_EN 0).on Fld.TX_CTRL_EN = false ∧
      1 ≤ (tokAt 0).get Fld.TX_INPUT_BYTES_BYTES ∧ maskAt'.vocabSize 0 = 320 ∧ 2 ≤ step2.drafts.length ∧
      8 ≤ (List.replicate 8 (⟨4, false, okCmd, none⟩ : Request)).length ∧ ((tokAt 0).stall 0).state = .running ∧
      ((withStall (session .waiting) (tokAt 0)).stall 0).state ≠ .running ∧ ((maskAt'.stall 0).step).isSome = true) :=
  ⟨exeAll (by decide +kernel), isOk (by decide +kernel), isOk (by decide +kernel), isOk (by decide +kernel), isOk (by decide +kernel),
    isErr (by decide +kernel), owns (by decide +kernel) (by decide +kernel),
    owns (by decide +kernel) (by decide +kernel), hubRead rfl (by decide +kernel) (by decide +kernel) (by decide +kernel) (by decide +kernel),
    blockRead (by decide +kernel) (by decide +kernel) (by decide +kernel) (by decide +kernel), by decide +kernel⟩

/-- A tool result of no bytes, delivered at address 64. -/
def delivered : State := seenAt (.txTok (ins 1 4 1 255 3 0))
  { texting 64 0 with t1 := { (texting 64 0).t1 with bytes := [(65, 0x14)], domains := [(1, 0)] } }

theorem witness_TextAndGrammarInstructions_result : ∃ m, delivered.deliveredMsg 0 64 = .ok m ∧ m.type = 0x14 := by
  have hs : delivered.servedBytes 0 64 64 = 0 :: 0x14 :: List.replicate 62 0 := by decide +kernel
  have he : delivered.readT1 0 (64 + 64) 0 = .ok (delivered.servedBytes 0 (64 + 64) 0) := readOk (by decide +kernel) (by decide +kernel)
  have ho : delivered.tenantOwns 0 64 64 = true := owns (by decide +kernel) (by decide +kernel)
  have hr : delivered.readT1 0 64 64 = .ok (delivered.servedBytes 0 64 64) := readOk (by decide +kernel) (by decide +kernel)
  have hn : 8192 * recGet (delivered.servedBytes 0 64 64) 12 4 + recGet (delivered.servedBytes 0 64 64) 10 2 = 0 := by rw [hs]; decide +kernel
  unfold State.deliveredMsg
  rw [ho, if_neg (by decide), hr]
  dsimp only
  rw [hn, he, ho, if_neg (by decide)]
  refine ⟨_, rfl, ?_⟩
  rw [hs]
  decide +kernel

theorem witness_SelectionAndSearchInstructions :
    Accepted tn (cmd 0 0 0 []) .tenant false ∧
    (∀ i ∈ [.slMerge (ins 0 4 1 255 255 0), .slGather (ins 0 4 1 2 3 1), .slDraw (ins 0 4 1 2 3 2) false, .slDraw (ins 1 4 1 2 3 0) true,
      .slRand (ins 0 30 1 2 3 5), .vsCmd (ins 0 4 1 2 255 0)], Executes i (placed i (texting 2 128))) ∧
    (asking (ins 0 4 1 2 3 2) (hubUnit 2 128) true okCmd none drawAt').runningStall (drawAt'.hubCmd (ins 0 4 1 2 3 2)) hnd = .ok 0 ∧
    drawAt'.tenantOwns 0 128 32 = true ∧
    (let s := seenAt (.vsCmd (ins 0 4 1 2 255 0)) (holding 1 0x60 (texting 64 128));
      ∃ b, s.readIn (s.hubCmd (ins 0 4 1 2 255 0)) 64 0 64 = .ok b ∧ recGet b 0 1 = 0x60) ∧
    (drawAt'.kindLost 4 = false ∧ drawAt'.on Fld.SEL_CTRL_EN = true ∧
      (ins 0 4 1 2 3 2).imm.toNat % 16 ≤ (((drawAt'.stall 0).step.map (·.drafts)).getD []).length) ∧
    (let s := withStall { running with hdr := { running.hdr with grImage := 64 } } (texting 2 128);
      (s.stall 0).hdr.grImage ≠ 0) ∧ running.hdr.grImage = 0 :=
  ⟨acc (by decide +kernel), exeAll (by decide +kernel), isOk (by decide +kernel), owns (by decide +kernel) (by decide +kernel),
    blockRead (by decide +kernel) (by decide +kernel) (by decide +kernel) (by decide +kernel), by decide +kernel⟩

/-- Hub thread 0 with the network and the scheduler enabled. -/
def netHub (a b c : Nat) : State :=
  ((thread { s := [(1, BitVec.ofNat 64 a), (2, BitVec.ofNat 64 b), (3, BitVec.ofNat 64 c)] }).put Fld.NW_CTRL_EN 1).put Fld.SCH_CTRL_EN 1

/-- What nw.send and nw.recv start from. -/
def nwAt : State := seenAt (.nwSend (ins 0 4 1 2 3 0x80)) (holding 1 7 (netHub 64 64 0))

theorem witness_NetworkAndSchedulerInstructions :
    (∀ i ∈ [.nwSend (ins 0 4 1 2 3 0x80), .nwRecv (ins 0 4 1 2 3 0), .scLaunch (ins 0 4 1 2 3 0), .scStop (ins 0 4 1 255 255 0),
      .scRound (ins 0 4 1 2 255 0)], Executes i (placed i (netHub 64 64 0))) ∧
    nwAt.readIn (nwAt.hubCmd (ins 0 4 1 2 3 0x80)) 64 0 64 = .ok (nwAt.servedBytes 0 64 64) ∧ nwAt.readT1 0 64 64 = .ok (nwAt.servedBytes 0 64 64) ∧
    nwAt.tenantOwns 0 64 64 = true ∧ (netHub (4096 * 4096) 64 0).tenantOwns 0 (4096 * 4096) 64 = false ∧
    (nwAt.kindLost 6 = false ∧ nwAt.on Fld.NW_CTRL_EN = true ∧ nwAt.on Fld.SCH_CTRL_EN = true ∧
      0x80 ≤ (ins 0 4 1 2 3 0x80).imm.toNat % 256 ∧ (ins 0 4 1 2 3 0xBF).imm.toNat % 256 < 0xC0 ∧
      nwAt.net.recvWaits.any (fun w => w.1 = 0) = false ∧ nwAt.inboxOf 0 = [] ∧
      (let s := { nwAt with net := { nwAt.net with inbox := [(0, [okMsg])] } };
        s.inboxOf 0 = [okMsg]) ∧
      (let s := { netHub 64 64 5 with yt := { count := 5 } };
        (netHub 64 64 5).now < 5 ∧ 5 ≤ s.now) ∧
      ((thread { wait := some (.inbox 64 64 5 4) }).unit 0 0).wait = some (.inbox 64 64 5 4)) :=
  ⟨exeAll (by decide +kernel), hubRead rfl (by decide +kernel) (by decide +kernel) (by decide +kernel) (by decide +kernel),
    readOk (by decide +kernel) (by decide +kernel),
    owns (by decide +kernel) (by decide +kernel), ownsNot (by decide +kernel), by decide +kernel⟩

/-! ### Witnesses: stalls -/

/-- A list that gives every number below `n` the same value. -/
theorem filled_get {α : Type} (d x : α) : ∀ (n a j : Nat), a ≤ j → j < a + n → sparseGet d ((List.range' a n).map (fun i => (i, x))) j = x := by
  intro n
  induction n with
  | zero => intro a j h1 h2; omega
  | succ n ih =>
    intro a j h1 h2
    simp only [List.range', List.map, sparseGet]
    split
    · rfl
    · exact ih (a + 1) j (by omega) (by omega)

/-- The books of Hive 0 lie low: every run ends at or below granule `k`, and channel 0 alone is in use. -/
structure LowBooks (s : State) (k : Nat) : Prop where
  runs : ∀ r ∈ s.t1.runs, r.start + r.len ≤ k
  there : s.hiveAbsent 0 = false
  used : (s.physicalChannel 0 0).isSome = true
  other : ∀ c < 16, c ≠ 0 → s.physicalChannel 0 c = none
  evac : s.units.evacuating = []

theorem alignUp_bound (a x : Nat) (h : 0 < a) : x ≤ alignUp a x ∧ alignUp a x ≤ x + a := by
  have h1 : a ≠ 0 := by omega
  have h2 := Nat.div_mul_le_self (x + a - 1) a
  have h3 : x + a - 1 < ((x + a - 1) / a + 1) * a := by
    rw [Nat.mul_comm]; exact Nat.lt_mul_div_succ _ h
  have h4 : ((x + a - 1) / a + 1) * a = (x + a - 1) / a * a + a := Nat.succ_mul _ _
  simp only [alignUp, h1, if_false]
  omega

theorem maxEnd (l : List Run) : ∃ e, (e = 0 ∨ ∃ r ∈ l, r.start + r.len = e) ∧ ∀ r ∈ l, r.start + r.len ≤ e := by
  induction l with
  | nil => exact ⟨0, .inl rfl, by simp⟩
  | cons a l ih =>
    obtain ⟨e, h1, h2⟩ := ih
    by_cases h : e ≤ a.start + a.len
    · exact ⟨a.start + a.len, .inr ⟨a, List.mem_cons_self, rfl⟩, fun r hr => by
        rcases List.mem_cons.mp hr with rfl | hr
        · exact Nat.le_refl _
        · exact Nat.le_trans (h2 r hr) h⟩
    · refine ⟨e, ?_, fun r hr => ?_⟩
      · rcases h1 with h1 | ⟨r, hr, h1⟩
        · exact .inl h1
        · exact .inr ⟨r, List.mem_cons_of_mem _ hr, h1⟩
      · rcases List.mem_cons.mp hr with rfl | hr
        · omega
        · exact h2 r hr

/-- The least of a list that is not empty, as the placement folds it. -/
theorem fold_min (l : List Nat) : ∀ o : Option Nat, (o ≠ none ∨ l ≠ []) → ∃ a, l.foldl (fun best a => match best with | none => some a | some b => some (min a b)) o = some a ∧
    (a ∈ l ∨ o = some a) := by
  induction l with
  | nil =>
    intro o h
    cases o with
    | none => simp at h
    | some b => exact ⟨b, rfl, .inr rfl⟩
  | cons x l ih =>
    intro o _
    obtain ⟨a, ha, hm⟩ := ih (match o with | none => some x | some b => some (min x b)) (.inl (by cases o <;> simp))
    refine ⟨a, by cases o <;> exact ha, ?_⟩
    rcases hm with hm | hm
    · exact .inl (List.mem_cons_of_mem _ hm)
    · cases o with
      | none => simp only [Option.some.injEq] at hm; exact .inl (by simp [hm])
      | some b =>
        simp only [Option.some.injEq] at hm
        rcases Nat.le_total x b with h | h
        · exact .inl (by rw [Nat.min_eq_left h] at hm; simp [hm])
        · exact .inr (by rw [Nat.min_eq_right h] at hm; rw [hm])

theorem placeLow {s : State} {k n a : Nat} (h : LowBooks s k) (ha : 0 < a) (hk : k + n + a ≤ 524288) :
    ∃ g, s.placeInChannel 0 0 n a = some g ∧ g ≤ k + a := by
  have hc : 524288 ≤ channelGranules := by unfold channelGranules; have := channel_cases; omega
  obtain ⟨e, he, hmax⟩ := maxEnd s.t1.runs
  have hek : e ≤ k := by
    rcases he with rfl | ⟨r, hr, rfl⟩
    · exact Nat.zero_le _
    · exact h.runs r hr
  have hb := alignUp_bound a e ha
  have hstart : ∀ x ∈ ((0 : Nat) :: s.t1.runs.map (fun r => r.start + r.len)).map (alignUp a), x ≤ k + a := by
    intro x hx
    obtain ⟨y, hy, rfl⟩ := List.mem_map.mp hx
    have := alignUp_bound a y ha
    rcases List.mem_cons.mp hy with rfl | hy
    · omega
    · obtain ⟨r, hr, rfl⟩ := List.mem_map.mp hy
      have := h.runs r hr
      omega
  have hz : (0 * 2 ^ 36 + 0 * channelBytes) / 4096 = 0 := by simp
  have hin : alignUp a e ∈ (((0 : Nat) :: s.t1.runs.map (fun r => r.start + r.len)).map (alignUp a)).filter
      (fun x => 0 ≤ x ∧ x + n ≤ 0 + channelGranules ∧ s.t1.allFree x n) := by
    rw [List.mem_filter]
    refine ⟨List.mem_map.mpr ⟨e, ?_, rfl⟩, ?_⟩
    · rcases he with rfl | ⟨r, hr, rfl⟩
      · exact List.mem_cons_self
      · exact List.mem_cons_of_mem _ (List.mem_map.mpr ⟨r, hr, rfl⟩)
    · have hfree : s.t1.allFree (alignUp a e) n = true := by
        rw [Tier1.allFree, List.all_eq_true]
        intro r hr
        have := hmax r hr
        simp only [Bool.or_eq_true, decide_eq_true_eq]
        omega
      exact decide_eq_true ⟨Nat.zero_le _, by omega, hfree⟩
  obtain ⟨g, hg, hm⟩ := fold_min _ none (.inr (List.ne_nil_of_mem hin))
  refine ⟨g, ?_, ?_⟩
  · simp only [State.placeInChannel, hz]
    exact hg
  · rcases hm with hm | hm
    · exact hstart g (List.mem_filter.mp hm).1
    · cases hm

theorem allocLow {s : State} {k n a : Nat} (o : Owner) (h : LowBooks s k) (hn : 0 < n) (ha : 0 < a) (hk : k + n + a ≤ 524288) :
    ∃ g t, s.alloc 0 n a o = some (g, t) ∧ LowBooks t (k + n + a) ∧ t.io = s.io := by
  obtain ⟨g, hg, hgk⟩ := placeLow h ha hk
  have hp : s.place 0 n a = some g := by
    have hsome : (s.place 0 n a).isSome = true := by
      rw [State.place, h.there, if_neg (by decide), List.findSome?_isSome_iff]
      refine ⟨(16 - sparseGet 0 s.t1.rotor 0 % 16) % 16, List.mem_range.mpr (Nat.mod_lt _ (by decide)), ?_⟩
      have hc : (sparseGet 0 s.t1.rotor 0 + (16 - sparseGet 0 s.t1.rotor 0 % 16) % 16) % 16 = 0 := by omega
      simp [hc, h.used, h.evac, hg]
    obtain ⟨x, hx⟩ := Option.isSome_iff_exists.mp hsome
    have hx2 := hx
    rw [State.place, h.there, if_neg (by decide)] at hx2
    obtain ⟨i, _, hi⟩ := List.exists_of_findSome?_eq_some hx2
    dsimp only at hi
    split at hi
    · rename_i hcond
      have hc0 : (sparseGet 0 s.t1.rotor 0 + i) % 16 = 0 := by
        refine Decidable.byContradiction (fun hne => ?_)
        simp [h.other _ (Nat.mod_lt _ (by decide)) hne] at hcond
      rw [hc0, hg] at hi
      rw [hx, ← hi]
    · cases hi
  refine ⟨g, { s with t1 := { s.t1.own g n o with
      rotor := sparsePut 0 0 ((channelOf (4096 * g) + 1) % 16) s.t1.rotor } }, by simp only [State.alloc, hp], ?_⟩
  have hne : n ≠ 0 := by omega
  have hab : (s.t1.own g n o).absent = s.t1.absent := by simp [Tier1.own, hne, Tier1.free]
  refine ⟨⟨?_, by simpa [State.hiveAbsent, hab] using h.there, h.used, h.other, h.evac⟩, rfl⟩
  intro r hr
  simp only [Tier1.own, hne, if_false, Tier1.free] at hr
  rcases List.mem_cons.mp hr with rfl | hr
  · show g + n ≤ k + n + a
    omega
  · obtain ⟨q, hq, hr⟩ := List.mem_flatMap.mp hr
    have hqk := h.runs q hq
    simp only [cutRun] at hr
    rcases List.mem_append.mp hr with hr | hr <;> split at hr <;> simp only [List.mem_singleton, List.not_mem_nil] at hr <;> subst hr <;> dsimp only <;> omega

/-- A session with one layer of one page finds its structures where the books lie low. -/
theorem newTableLow {s : State} {k i shape : Nat} (h : LowBooks s k) (hk : k ≤ 500000)
    (hr : s.get (Fld.KV_SHAPE_LAYERS shape) = 1 ∧ s.get (Fld.KV_SHAPE_PAGE_MIN shape) = 0 ∧ s.get (Fld.KV_SHAPE_PAGE_MAX shape) = 0) :
    (s.newTable i 0 shape).isSome = true := by
  obtain ⟨g1, t1, e1, l1, io1⟩ := allocLow (n := 2) (a := 2) (.stall i) h (by decide) (by decide) (by omega)
  obtain ⟨g2, t2, e2, l2, io2⟩ := allocLow (n := 1) (a := 1) (.stall i) l1 (by decide) (by decide) (by omega)
  obtain ⟨g3, t3, e3, l3, io3⟩ := allocLow (n := 1) (a := 1) (.stall i) l2 (by decide) (by decide) (by omega)
  have hl : t1.get (Fld.KV_SHAPE_LAYERS shape) = 1 := by simpa [State.get, io1] using hr.1
  simp [State.newTable, e1, hl, hr.2.1, hr.2.2, State.newLayers, State.takeLayer, e2, pagesFor, State.takePages, pageCode, pageGranules, e3]

theorem search_none {p : Nat → Bool} : ∀ (n i : Nat), (∀ j, i ≤ j → j < i + n → p j = false) → searchFrom p i n = none := by
  intro n
  induction n with
  | zero => intro i _; rfl
  | succ n ih =>
    intro i h
    rw [searchFrom, h i (Nat.le_refl _) (by omega), if_neg (by decide)]
    exact ih (i + 1) (fun j h1 h2 => h j (by omega) (by omega))

/-- Channel 0 of Hive 0 is the only one in use. -/
theorem onlyChannel0 {s : State} (h0 : s.get (Fld.HB_CH_LOGICAL 0 0) = 0)
    (h : ∀ p < 17, p ≠ 0 → 16 ≤ s.get (Fld.HB_CH_LOGICAL 0 p)) : ∀ c < 16, c ≠ 0 → s.physicalChannel 0 c = none := by
  intro c hc hne
  rw [State.physicalChannel, firstBelow]
  refine search_none 17 0 (fun p _ hp => ?_)
  by_cases h1 : p = 0
  · subst h1
    simp only [h0, decide_eq_false_iff_not]
    exact fun e => hne e.1.symm
  · have := h p (by omega) h1
    simp only [decide_eq_false_iff_not]
    exact fun e => by omega

/-- All that a session of tenant 0 needs: the engines, a shape of one layer, quota and pool for one stall, dirty memory, nothing allocated. -/
def ready : State :=
  [(Fld.KV_CTRL_EN, 1), (Fld.KV_SHAPE_LAYERS 0, 1), (Fld.KV_SHAPE_VALID 0, 1), (Fld.TX_CTRL_EN, 1), (Fld.TX_CFG_VALID 0, 1), (Fld.SEL_CTRL_EN, 1),
    (Fld.STL_DIRTY_MAX_MAX, 0x4000000), (Fld.STL_HDR_SLOTS_SLOTS, 1), (Fld.TN_QUOTA_STALLS 0, 1)].foldl (fun (s : State) p => s.put p.1 p.2) tn

theorem ready_low : LowBooks ready 4096 :=
  ⟨by decide +kernel, by decide +kernel, by decide +kernel, onlyChannel0 (by decide +kernel) (by decide +kernel), rfl⟩

/-- A session's creation: home Hive 0, seed 1. -/
def creation : Cmd := cmd 0 0 0 [(48, 16, 1)]

theorem witness_StallCreation :
    AcceptedHeld ready creation .tenant false ∧ ((ready.createSeed creation).2.newTable 0 0 (ready.tenantShape 0)).isSome = true ∧
    (ready.createFieldsOk creation 0 = true ∧ ready.createEnabled creation 0 = true ∧ ready.get Fld.STL_CTRL_HOLD_CREATE = 0 ∧
      ready.tenantStalls 0 < ready.get (Fld.TN_QUOTA_STALLS 0) ∧ (ready.stall 0).state = .free ∧ ready.freePoolSlot = some 0 ∧
      opByte creation 35 = 0 ∧ ready.fullHive 0 0 = true ∧ ready.allocStopped = false ∧ creation.addrA = 0 ∧ creation.addrB = 0) ∧
    (ready.createFieldsOk (cmd 0 0 0 [(32, 1, 3)]) 0 = false ∧ ready.createFieldsOk (cmd 0 0 0 [(33, 1, 7)]) 0 = true ∧ tn.createEnabled creation 0 = false) ∧
    (ready.put Fld.STL_CTRL_HOLD_CREATE 1).get Fld.STL_CTRL_HOLD_CREATE = 1 ∧
    (let s := withStall (session .hot) ready;
      s.get (Fld.TN_QUOTA_STALLS 0) ≤ s.tenantStalls 0) ∧
    (ready.put Fld.STL_HDR_SLOTS_SLOTS 0).freePoolSlot = none := by
  refine ⟨held (by decide +kernel), ?_, by decide +kernel⟩
  have hs : (ready.createSeed creation).2 = ready := by
    have : opU128 creation 48 ≠ 0 := by decide +kernel
    simp [State.createSeed, this]
  have ht : ready.tenantShape 0 = 0 := by decide +kernel
  rw [hs, ht]
  exact newTableLow ready_low (by decide) (by decide +kernel)

/-- A directory with no FREE slot. -/
theorem witness_StallCreation_full :
    ∀ i < stallSlots, (({ ready with stalls := (List.range' 0 stallSlots).map (fun i => (i, session .hot)) } : State).stall i).state ≠ .free := by
  intro i hi
  simp only [State.stall]
  rw [filled_get _ _ _ _ _ (Nat.zero_le _) (by omega)]
  decide

/-- A command on stall 0 of tenant 0. -/
def on (ops : List (Nat × Nat × Nat)) : Cmd := cmd hnd 0 0 ops

/-- A stall whose header lies in the Shed, with the header record in its journal, damaged or not. -/
def away (damage : Option Nat) (x : Stall) : Stall :=
  let y : Stall := { x with location := 1, poolSlot := none, table := none, hdr := { x.hdr with kind := 2, journalSeq := 1, shedRoot := 2 ^ 29 * 5 } }
  { y with journal := [⟨hnd, 1, 0, 1, .header y.hdr, 2 ^ 29 * 5, 0, 0, tn.shedKeys 0, damage⟩] }

/-- Port 0 in write service, with an open band of 16 MiB. -/
def written (s : State) : State :=
  let u := (s.put (Fld.SH_PORT_INFO_IN_SERVICE 0) 1).put (Fld.SH_PORT_INFO_PAGES 0) 64
  { u with shed := [(0, { openBand := some 0, bands := [(0, {})] })] }

theorem witness_StallStateCommands :
    OnStall (withStall (session .remote) tn) (on []) 0 true ∧ OnStall (withStall (session .running) tn) (on []) 0 false ∧
    OnStall (withStall (session .hot) tn) (on []) 0 false ∧ OnStall (withStall (session .parked) tn) (on [(34, 1, 0xFF)]) 0 false ∧
    OnStall (withStall (session .retired) tn) (on []) 0 false ∧ OnStall (withStall (session .waiting) tn) (on [(32, 2, 1), (40, 1, 7)]) 0 false ∧
    OnStall (withStall (session .orphaned) tn) (on []) 0 false ∧
    ((busyOpcode (session .remote) = none ∧ opZero (on []) 32 63 = true ∧ (on []).addrA = 0) ∧
      (session .running).hdr.kind ≠ 1 ∧ opByte (on [(34, 1, 15)]) 34 < 16 ∧ opByte (on [(34, 1, 0xFF)]) 34 = 0xFF ∧ opU32 (on []) 32 = 0 ∧
      (let c := on [(32, 2, 1), (40, 1, 7)];
        opU16 c 32 = 1 ∧ opZero c 34 39 = true ∧ opZero c 60 63 = true ∧ opByte c 40 ≤ 7) ∧ (session .waiting).heldInput = []) := by
  refine ⟨onStall (by decide +kernel) ?_, onStall (by decide +kernel) ?_, onStall (by decide +kernel) ?_, onStall (by decide +kernel) ?_,
    onStall (by decide +kernel) ?_, onStall (by decide +kernel) ?_, onStall (by decide +kernel) ?_, by decide +kernel⟩ <;>
    exact ⟨isOk (by decide +kernel), by decide +kernel⟩

/-- The headers that can be read and those that cannot; a PARKED stall with no pool slot, with no Hive for its table, and with room for both. -/
theorem witness_StallStateCommands_header :
    (((withStall (session .hot) tn).healHeader 0).checkPoison.headerStatus 0 = none ∧
      ((withStall (away (some CS.integrity) (session .parked)) (written tn)).healHeader 0).checkPoison.headerStatus 0 = some CS.integrity ∧
      (withStall (away none (session .parked)) tn).headerStatus 0 = some CS.uncorrectable ∧
      (withStall (away none (session .parked)) (written tn)).headerStatus 0 = none) ∧
    (withStall (session .parked) tn).takeSlot 0 = none ∧
    (let s := withStall (away none (session .parked)) (written ready);
      (s.takeSlot 0).isSome = true ∧ s.headerStatus 0 = none ∧ (s.takeSlot 0).any (fun u => (u.takeTable 0 0xFF).isSome) = true) ∧
    (let s := withStall { session .parked with poolSlot := none, table := none } (ready.put (Fld.SCH_PART_COMBS 0) 0);
      (s.takeSlot 0).any (fun u => (u.takeTable 0 0xFF).isNone) = true ∧ s.headerStatus 0 = none) ∧
    (let s := withStall { session .retired with table := none } tn;
      s.merging 0 = false ∧ busyOpcode (s.stall 0) = none) := by decide +kernel

/-- A revive for a command, with the header's record in the Shed. -/
def reviving : Stall :=
  let x := away none (session .parked)
  { x with revive := some ⟨.command okCmd, true, 0xFF⟩, hdr := { x.hdr with flags := 128 } }

/-- A stall for which an accepted tool result waits. -/
def deferredResult : Stall := { away none (session .parked) with result := some ⟨7, some 5⟩ }

theorem witness_StallEngineEvents :
    (let s := (written (withStall { session .hot with park := some ⟨.hot, none, 1⟩ } tn)).tend 0;
      (s.stall 0).park = some ⟨.hot, none, 1⟩ ∧ (s.journalUpTo 0 1 1).any (fun u => (u.sealImage 0 1).isSome) = true) ∧
    (let s := withStall reviving (written tn);
      (s.stall 0).revive = some ⟨.command okCmd, true, 0xFF⟩ ∧ s.allocStopped = false ∧ s.on Fld.PW_STATUS_PARKING = false ∧ (s.stall 0).result = none ∧
        (headerRecord ((s.loseRevive 0 none true).stall 0)).bind (s.loseRevive 0 none true).recordStatus = none ∧
        (headerRecord ((s.loseRevive 0 none false).stall 0)).bind (s.loseRevive 0 none false).recordStatus = some CS.integrity ∧
        ((s.loseRevive 0 none true).reviveImage 0 ((s.readRevive 0 none true).usable 0)).any (fun r => r.2.isNone) = true) ∧
    (let s := withStall deferredResult (written ready);
      (s.stall 0).result = some ⟨7, some 5⟩ ∧ s.now < 5 ∧ busyOpcode (s.stall 0) = none ∧ (s.stall 0).state = .parked ∧
        (({ s with yt := { count := 5 } } : State)).now = 5 ∧ (withStall deferredResult (written tn)).takeSlot 0 = none ∧
        (let w := s.setStall 0 { s.stall 0 with result := some ⟨7, none⟩ };
          w.headerStatus 0 = none ∧ (w.takeSlot 0).any (fun u => (u.takeTable 0 0xFF).isSome) = true)) ∧
    (let s := { withStall { session .retired with retiredAt := 0 } tn with yt := { count := 2 ^ 62 } };
      (s.stall 0).state = .retired ∧ s.merging 0 = false ∧ (s.stall 0).retiredAt + s.get Fld.STL_RETIRE_HOLD_NS ≤ s.now) ∧
    (withStall (session .retired) tn).now < 0 + (withStall (session .retired) tn).get Fld.STL_RETIRE_HOLD_NS ∧
    (let x := { session .waiting with hdr := { (session .waiting).hdr with waitTimeout := 7 } };
      flagOn x 4 = false ∧ busyOpcode x = none ∧ x.hdr.kind ≠ 1 ∧ x.heldInput = [] ∧ x.hdr.waitStart + 7 ≤ 7 ∧ 6 < x.hdr.waitStart + 7) ∧
    flagOn { session .waiting with hdr := { (session .waiting).hdr with flags := 16 } } 4 = true ∧
    (let s := (written (withStall (session .hot) tn)).tend 0;
      (written (withStall (session .hot) tn)).writablePorts ≠ 0 ∧ (markFor (s.stall 0) 1).isSome = true ∧
        (markFor (s.stall 0) 1).all (fun m => decide ((s.stall 0).hdr.journalLen < m.len) &&
          (s.journalAt 0 0 m.step m.sampleCtr (.latent (s.runsOf 0 0 m.len m.nextInput))).isSome) = true) ∧
    (withStall (session .hot) tn).writablePorts = 0 ∧
    (let s := (withStall { session .hot with relocs := [⟨0, 1, 4096, []⟩] } tn).tend 0;
      (s.stall 0).relocs.find? (fun q => decide (q.layer = 0)) = some ⟨0, 1, 4096, []⟩ ∧ ((s.stall 0).table.bind (·.layers[0]?)).isSome = true) ∧
    (({ tn with t1 := { tn.t1 with runs := [⟨0, 8, .quarantine⟩] } } : State).t1.allOwned Owner.isQuarantine 0 8 = true ∧
      tn.t1.allOwned Owner.isQuarantine 0 1 = false) := by decide +kernel

/-- A grant of tenant 0 that nothing accounts for. -/
def unbooked : State := st [(Fld.TN_PERIOD_NO_COUNT, 1), (Fld.TN_GRANTED_TOKENS 0, 1)]

theorem sum_pos {a : Nat} {l : List Nat} (h : 0 < a) : (a :: l).foldl (· + ·) 0 ≠ 0 := by
  have : ∀ (l : List Nat) (n : Nat), n ≤ l.foldl (· + ·) n := by
    intro l
    induction l with
    | nil => exact fun n => Nat.le_refl n
    | cons b l ih => exact fun n => Nat.le_trans (Nat.le_add_right n b) (ih (n + b))
  have := this l (0 + a)
  rw [List.foldl_cons]
  omega

theorem unbooked_imbalance : unbooked.budgetImbalance ≠ 0 := by
  unfold State.budgetImbalance
  rw [if_neg (by decide +kernel), show List.range 256 = 0 :: List.range' 1 255 by decide +kernel, List.map_cons]
  exact sum_pos (by decide +kernel)

theorem witness_BooksAudit :
    AcceptedHeld tn okCmd .tenant false ∧
    (opZero (cmd 0 0 0 [(63, 1, 1)]) 32 63 = false ∧ opZero okCmd 32 63 = true ∧ (tn.put Fld.STL_CTRL_EN 0).get Fld.STL_CTRL_EN = 0 ∧
      tn.get Fld.STL_CTRL_EN = 1 ∧ (tn.op 0).live = false ∧ ((opIn .running 0x2A 0 none none).op 0).opcode = 0x2A ∧
      State.reset.booksQuiet = true ∧ State.reset.pageImbalance = 0 ∧ State.reset.budgetImbalance = 0 ∧
      (st [(Fld.TN_QUEUED_TOKENS 0, 1)]).booksQuiet = false) ∧
    unbooked.budgetImbalance ≠ 0 ∧
    ∀ j < 4096, (({ tn with ops := (List.range' 0 4096).map (fun i => (i, { live := true })) } : State).op j).live = true := by
  refine ⟨held (by decide +kernel), by decide +kernel, unbooked_imbalance, fun j hj => ?_⟩
  simp only [State.op]
  rw [filled_get _ _ _ _ _ (Nat.zero_le _) (by omega)]

/-- A message from device 1 about the stall of slot 0. -/
def about (msgId aux : Nat) (payload : List Byte) : Msg := { type := 0, src := 1, dst := 0, handle := hnd, msgId := msgId, aux := aux, payload := payload }

/-- A PARKED job stall with a pool slot free for it, waiting for call 9, that an announcement may revive. -/
def parkedJob : Stall := { session .parked with poolSlot := none, hdr := { (session .parked).hdr with kind := 2, flags := 2, toolCallId := 9 } }

theorem witness_AnnouncementRevives :
    (let s := withStall parkedJob ready;
      s.slotOf (about 9 0 []).handle = some 0 ∧ (s.stall 0).state = .parked ∧ flagOn (s.stall 0) 1 = true ∧ (s.stall 0).hdr.toolCallId = (about 9 0 []).msgId ∧
        (about 9 0 []).msgId ≠ 0 ∧ busyOpcode (s.stall 0) = none ∧ (s.stall 0).result = none ∧ s.headerStatus 0 = none ∧
        (s.takeSlot 0).any (fun u => (u.takeTable 0 0xFF).isSome) = true ∧
        ((withStall parkedJob tn).takeSlot 0).bind (fun u => u.takeTable 0 0xFF) = none ∧
        (withStall (away (some CS.integrity) parkedJob) (written ready)).headerStatus 0 = some CS.integrity) ∧
    (let x := away none (session .parked);
      let s := withStall { x with revive := some ⟨.announce, false, 0xFF⟩, hdr := { x.hdr with flags := 128 } } (written tn);
      (s.stall 0).revive = some ⟨.announce, false, 0xFF⟩ ∧ s.allocStopped = false ∧ s.on Fld.PW_STATUS_PARKING = false ∧ (s.stall 0).result = none ∧
        (let w := s.loseRevive 0 none true;
          (headerRecord (w.stall 0)).bind w.recordStatus = none ∧
            (w.reviveImage 0 ((s.readRevive 0 none true).usable 0)).any (fun r => r.2.isNone) = true)) ∧
    ((session .hot).state ≠ .parked ∧ flagOn (session .parked) 1 = false ∧ parkedJob.hdr.toolCallId ≠ (about 8 0 []).msgId ∧ (session .parked).hdr.toolCallId = 0) := by
  decide +kernel

/-- A WAITING stall whose call 9 is open. -/
def calling : Stall := { session .waiting with inputGranules := [100], hdr := { (session .waiting).hdr with toolCallId := 9 } }

/-- A REMOTE stall that device 1 owns as its handle 77, on which a fetch waits. -/
def fetching : Stall := { session .remote with ownerDev := 1, headerAt := 77, fetchCmd := some okCmd }

theorem witness_ToolResults :
    (st [(Fld.CP_STATUS_PHASE, 4)]).freezing = true ∧ (tn.freezing = false ∧ tn.slotOf hnd = none) ∧
    (let s := withStall calling (written (tn.put Fld.TX_CTRL_EN 1));
      s.slotOf (about 9 0 [65]).handle = some 0 ∧ flagOn (s.stall 0) 6 = false ∧ (s.stall 0).hdr.toolCallId = 9 ∧ s.writablePorts ≠ 0 ∧
        (s.stall 0).heldInput = [] ∧ (s.stall 0).result = none ∧ [65].length ≤ s.get Fld.TX_INPUT_BYTES_BYTES) ∧
    (let s := withStall calling (written (tn.put Fld.TX_CTRL_EN 1));
      let m := about 9 0 [65];
      (s.journalIf 0 0 (.input (s.inputBase 0) true m.payload)).any (fun v =>
        let u := (v.sendAccept m 0).updHdr 0 (fun h => { h with toolCallId := 0 });
        (match u.tokeniseInput 0 true m.payload with
          | .ok (toks, bad) => !bad && ((u.lookInput 0 [m.payload]).queueTokens 0 toks).isSome
          | .error _ => false)) = true) ∧
    (session .remote).state = .remote ∧ (session .moving).state = .moving ∧ (session .hot).hdr.toolCallId = 0 ∧
    (withStall (session .hot) tn).slotOf (about hnd 0 []).msgId = some 0 ∧ ({ session .hot with hdr := { (session .hot).hdr with kind := 1 } } : Stall).hdr.kind = 1 ∧
    (busyOpcode (session .hot) = none ∧ (session .running).hdr.kind ≠ 1 ∧ ((withStall (session .hot) tn).intoPool 0).toOption.isSome = true ∧
      ((withStall (session .parked) tn).intoPool 0).toOption.isNone = true) ∧
    (withStall fetching tn).fetchSlot 1 77 = some 0 ∧ ((withStall fetching tn).stall 0).fetchCmd = some okCmd ∧ tn.fetchSlot 1 77 = none ∧
    (let s := withStall (session .hot) tn;
      let m := about 5 6 ([1, 0, 0, 0] ++ bytesOf 8 hnd);
      let u := s.repoint (recGet m.payload 2 2) (recGet m.payload 4 8) (recGet m.payload 0 2) m.msgId (some m.aux);
      recGet m.payload 0 2 ≠ u.deviceId ∧ u.noticeSlot 1 5 0 hnd = some 0 ∧ (u.stall 0).state = .hot ∧ (u.stall 0).epoch ≤ m.aux) ∧
    recGet (about 5 6 [0, 0, 2, 0]).payload 0 2 = tn.deviceId := by decide +kernel

/-- The source of a migration in a phase, its lease ended at 5, device 1 its peer. -/
def leaving (phase : Nat) (op : Option Nat) : Stall :=
  { session .moving with
    leaseExpiry := 5
    mig := some ⟨op, false, 0, 0, 77⟩
    hdr := { (session .moving).hdr with migRole := 1, migPhase := phase, peerDev := 1, priorState := 1 } }

/-- The destination's copy in a state. -/
def arriving (x : StallState) : Stall :=
  { session x with
    leaseExpiry := 5
    mig := some ⟨none, false, 0, 0, 77⟩
    hdr := { (session x).hdr with migRole := 2, peerDev := 1 } }

/-- The migration's operation in slot 0, suspended. -/
def suspendedMig (x : Stall) : State := { opIn .suspended 0x25 0 none none with stalls := [(0, x)] }

theorem witness_MigrationHandshake :
    OnStall (withStall (session .hot) tn) (on [(32, 2, 1)]) 0 false ∧ OnStall (withStall (session .running) tn) (on [(32, 2, 1)]) 0 false ∧
    ((opU16 (on [(32, 2, 4095)]) 32 < 4096 ∧ opByte (on [(34, 1, 1)]) 34 ≤ 1 ∧ opZero (on [(32, 2, 1)]) 35 63 = true ∧ (tn.op 0).live = false ∧
      busyOpcode (session .hot) = none ∧ ((withStall (session .hot) tn).intoPool 0).toOption.isSome = true ∧
      ((withStall (session .parked) tn).intoPool 0).toOption.isNone = true ∧
      (((withStall (session .hot) tn).beginOp (on [(32, 2, 1)]) 0x25 [0] true (fun _ t => t)).intoPool 0).toOption.isSome = true) ∧
    (let s := withStall (arriving .moving) tn;
      s.freezing = false ∧ s.destCopy 1 77 = some 0 ∧ tn.destCopy 1 77 = none ∧ (s.stall 0).state = .moving ∧ s.slotOf 77 = none) ∧
    (let m : Msg := { about 77 0 [] with image := some ({}, []) };
      m.image = some ({}, []) ∧ tn.get Fld.STL_CTRL_EN = 1 ∧ State.reset.get Fld.STL_CTRL_EN = 0) ∧
    (let s := withStall (leaving 1 none) tn;
      s.freezing = false ∧ s.allocStopped = false ∧ ({ s with allocStopped := true } : State).allocStopped = true ∧
        s.slotOf hnd = some 0 ∧ (s.stall 0).hdr.migRole = 1 ∧ (s.stall 0).hdr.peerDev = (about hnd 0 []).src ∧ (s.stall 0).hdr.migPhase = 1 ∧
        (s.stall 0).hdr.priorState = 1) ∧
    (leaving 3 none).hdr.migPhase = 3 ∧
    (let s := suspendedMig (leaving 1 (some 0));
      (s.op 0).st = .suspended ∧ ((s.stall 0).mig.bind (·.op)) = some 0) ∧ tn.slotOf hnd = none) := by
  refine ⟨onStall (by decide +kernel) ?_, onStall (by decide +kernel) ?_, by decide +kernel⟩ <;>
    exact ⟨isOk (by decide +kernel), by decide +kernel⟩

/-- Yard Time at a count. -/
def atYt (n : Nat) (s : State) : State := { s with yt := { s.yt with count := n } }

theorem witness_LeasesAndOrphans :
    (let s := withStall (leaving 1 none) tn;
      (s.stall 0).mig = some ⟨none, false, 0, 0, 77⟩ ∧ (atYt 4 s).now < (s.stall 0).leaseExpiry ∧ (s.stall 0).leaseExpiry ≤ (atYt 5 s).now) ∧
    (let s := atYt (2 ^ 62) (withStall (leaving 3 none) tn);
      s.isDown 1 = false ∧ 0 + s.get Fld.STL_LEASE_PREP_NS / 4 ≤ s.now ∧
        ({ s with net := { s.net with members := [(1, { down := true })] } } : State).isDown 1 = true) ∧
    (arriving .moving).hdr.migRole = 2 ∧ (arriving .moving).leaseExpiry = 5 ∧
    (let s := atYt (2 ^ 62) (suspendedMig (leaving 1 (some 0)));
      (s.op 0).st = .suspended ∧ 0 + s.get Fld.STL_LEASE_PREP_NS / 4 ≤ s.now) ∧
    (let s := withStall { session .remote with ownerDev := 1 } tn;
      s.askedSlot (about hnd 0 []) = some 0 ∧ (s.stall 0).state = .remote ∧ (s.stall 0).ownerDev = (about hnd 0 []).src ∧ (s.stall 0).deferred = [] ∧
        tn.askedSlot (about hnd 0 []) = none) ∧
    (let x : Stall := { session .orphaned with location := 2, ownerDev := 1, headerAt := 77 };
      let m := about 77 2 [1, 0];
      (withStall x tn).peerSlot 1 77 = some 0 ∧ recGet m.payload 0 1 ≠ 7 ∧ recGet m.payload 1 1 = 0 ∧ x.hdr.epoch < m.aux) ∧
    (let x : Stall := { session .orphaned with hdr := { (session .orphaned).hdr with priorState := 4 } };
      (withStall x tn).now < x.hdr.orphanSince + tn.get Fld.STL_ORPHAN_TIMEOUT_NS ∧ x.hdr.orphanSince + tn.get Fld.STL_ORPHAN_TIMEOUT_NS ≤ 2 ^ 62 ∧
        x.copies = [] ∧ x.hdr.priorState = 4 ∧ ((withStall x tn).takeOwnership 0 2).isSome = true) := by decide +kernel

/-! ### Witnesses: vector search, text and shape registers -/

/-- A read of the device for itself that the stored bytes allow. -/
theorem blocksRead {s : State} {d a n : Nat} (h : (s.redirects.isEmpty && decide (a / 2 ^ 40 = 0) && decide (a % 2 ^ 36 + n ≤ 2 ^ 35) && !s.hiveAbsent (hiveOf a)) = true)
    (h2 : soundRead s d a n = true) : s.readBlocks d a n = .ok (s.servedBytes d a n) := by
  have := readOk h h2
  simp only [soundRead, Bool.and_eq_true, Bool.not_eq_true'] at h2
  rwa [State.readT1, h2.1.1.1.1.1, if_neg (by decide)] at this

/-- A query of the index in slot 0: one shard of codes of 64 bits at 65536 and metadata at 69632, snapshot 0. -/
def ask (mask match_ : Nat) : VsAsk := ⟨0, 0, ⟨6, 8, 1, 1, 0, 2, 1, [⟨0, 4, 2, 0, 65536, 69632, [], 0, 0, []⟩]⟩, 0, [], 1, 16, mask, match_⟩

/-- Code 0 inserted at generation 0, deleted at 1, tags 1. -/
def tagged : State :=
  { tn with t1 := { tn.t1 with bytes := [(65536, 5), (69640, 1), (69648, 1)], domains := [(1024, 1), (1088, 1)] } }

theorem witness_TagFilter :
    tagged.vsCode 0 (ask 0 0).r 0 0 = .ok (tagged.servedBytes 0 65536 8) ∧
    tagged.vsMeta 0 (ask 0 0).r 0 0 = .ok (vsMetaOf (tagged.servedBytes 0 69632 32)) ∧
    (let x := vsMetaOf (tagged.servedBytes 0 69632 32);
      x.insGen ≤ (ask 0 0).snap ∧ (ask 0 0).snap < x.delGen ∧ (ask 0 0).mask = 0 ∧ x.tags &&& (ask 1 1).mask = (ask 1 1).match_ ∧
        (ask 1 0).mask ≠ 0 ∧ x.tags &&& (ask 1 0).mask ≠ (ask 1 0).match_) := by
  refine ⟨blocksRead (by decide +kernel) (by decide +kernel), ?_, by decide +kernel⟩
  have : tagged.readBlocks 0 69632 32 = .ok (tagged.servedBytes 0 69632 32) := blocksRead (by decide +kernel) (by decide +kernel)
  simp only [State.vsMeta]
  exact congrArg (Except.map vsMetaOf) this

/-- An index of tenant 0 with its root at 65536, or none. -/
def index (root : Nat) : Stall := { session .hot with hdr := { (session .hot).hdr with kind := 1, ptRoot := root }, poolSlot := none }

/-- The index of slot 0, its root's bytes from offset to value. -/
def indexed (root : List (Nat × Nat)) : State :=
  let s := withStall (index 65536) (tn.put Fld.VS_CTRL_EN 1)
  { s with t1 := { s.t1 with bytes := root.map (fun b => (65536 + b.1, BitVec.ofNat 8 b.2)), domains := [(1024, 1), (1025, 1)] } }

/-- Codes of 64 bits, degree 8, side lists of 2, GEN 1; one shard, of 3 codes, that holds one, in its side list. -/
def oneShard : State := indexed [(4, 6), (5, 8), (6, 1), (8, 1), (17, 1), (20, 2), (68, 3), (72, 1), (76, 1)]

/-- The same with nothing in it. -/
def emptyShard : State := indexed [(4, 6), (5, 8), (6, 1), (8, 1), (17, 1), (20, 2), (68, 3)]

/-- The root that the bytes at 65536 spell. -/
def rootAt (s : State) : VsRoot := vsRootOf (s.servedBytes 0 65536 4096)

theorem rootRead {s : State} {i : Nat} (h : (s.stallTenant i = 0 ∧ (s.stall i).hdr.ptRoot = 65536) ∧
    (s.redirects.isEmpty && decide (65536 / 2 ^ 40 = 0) && decide (65536 % 2 ^ 36 + 4096 ≤ 2 ^ 35) && !s.hiveAbsent (hiveOf 65536)) = true ∧
    soundRead s 0 65536 4096 = true) : s.vsRoot i = .ok (rootAt s) := by
  rw [State.vsRoot, h.1.1, h.1.2, blocksRead h.2.1 h.2.2]
  rfl

theorem areaLow {s : State} {k i n : Nat} (h : LowBooks s k) (hn : n ≤ 4096) (hk : k ≤ 500000) :
    ∃ a t, s.vsArea i 0 n = some (a, t) ∧ LowBooks t (k + 2) ∧ t.io = s.io := by
  have hc : max 1 (ceilDiv n 4096) = 1 := by
    unfold ceilDiv
    omega
  obtain ⟨g, t, e, l, io⟩ := allocLow (n := 1) (a := 1) (.stall i) h (by decide) (by decide) (by omega)
  exact ⟨4096 * g, t, by simp [State.vsArea, hc, State.allocWide, e], l, io⟩

/-- An empty index slot, its tenant's granules low. -/
def bare : State := withStall (index 0) (tn.put Fld.VS_CTRL_EN 1)

theorem bare_low : LowBooks bare 4096 :=
  ⟨by decide +kernel, by decide +kernel, by decide +kernel, onlyChannel0 (by decide +kernel) (by decide +kernel), rfl⟩

/-- VS_INIT: codes of 64 bits, degree 8, Hive 0. -/
def initCmd (cap : Nat) : Cmd := on [(32, 1, 6), (33, 1, 8), (34, 2, 1), (36, 4, cap), (40, 4, 1)]

theorem witness_VectorSearchCommands_init :
    AcceptedHeld bare (initCmd 1) .tenant false ∧ bare.checkHandle 0 hnd false = .ok 0 ∧
    ((bare.stall 0).hdr.kind = 1 ∧ bare.kindLost 3 = false ∧ bare.indexLost 0 = false ∧ (bare.stall 0).state = .hot ∧ (bare.stall 0).hdr.ptRoot = 0 ∧
      bare.get Fld.VS_CTRL_EN = 1 ∧ (bare.put Fld.VS_CTRL_EN 0).get Fld.VS_CTRL_EN = 0 ∧ bare.vsInitFields (initCmd 1) = true ∧
      bare.allocStopped = false ∧ (initCmd 1).addrA = 0 ∧ bare.vsCapUsed + 1 * ((List.range 16).filter (opU16 (initCmd 1) 34).testBit).length ≤ 2 ^ 32) ∧
    (∃ root u shards v, bare.vsArea 0 0 4096 = some (root, u) ∧ u.vsShards 0 1 1 8 8 [0] = some (shards, v)) := by
  refine ⟨held (by decide +kernel), isOk (by decide +kernel), by decide +kernel, ?_⟩
  obtain ⟨a0, t0, e0, l0, _⟩ := areaLow (i := 0) (n := 4096) bare_low (by decide) (by decide)
  obtain ⟨a1, t1, e1, l1, _⟩ := areaLow (i := 0) (n := 8) l0 (by decide) (by decide)
  obtain ⟨a2, t2, e2, l2, _⟩ := areaLow (i := 0) (n := 32) l1 (by decide) (by decide)
  obtain ⟨a3, t3, e3, l3, _⟩ := areaLow (i := 0) (n := 32) l2 (by decide) (by decide)
  obtain ⟨a4, t4, e4, l4, _⟩ := areaLow (i := 0) (n := 32) l3 (by decide) (by decide)
  obtain ⟨a5, t5, e5, l5, _⟩ := areaLow (i := 0) (n := 4) l4 (by decide) (by decide)
  obtain ⟨a6, t6, e6, l6, _⟩ := areaLow (i := 0) (n := 512) l5 (by decide) (by decide)
  exact ⟨a0, t0, [⟨0, 1, 0, 0, a1, a2, [a3, a4], a5, a6, [0, 0]⟩], t6, e0, by simp [State.vsShards, State.vsShardAreas, e1, e2, e3, e4, e5, e6]⟩

/-- An empty index slot beside an index of 2^32 − 1 codes. -/
def crowded : State := { indexed [] with stalls := [(0, index 0), (1, { index 65536 with vsCap := 2 ^ 32 - 1 })] }

theorem witness_VectorSearchCommands_full :
    AcceptedHeld crowded (initCmd 2) .tenant false ∧ crowded.checkHandle 0 hnd false = .ok 0 ∧
    (crowded.kindLost 3 = false ∧ crowded.indexLost 0 = false ∧ crowded.vsInitFields (initCmd 2) = true ∧ crowded.allocStopped = false) ∧
    2 ^ 32 < crowded.vsCapUsed + 2 * ((List.range 16).filter (opU16 (initCmd 2) 34).testBit).length ∧
    bare.graphImage 0 (4096 * 4096) 6 1 8 1 = .error (CS.badCommand, true) := by
  refine ⟨held (by decide +kernel), isOk (by decide +kernel), by decide +kernel, by decide +kernel, ?_⟩
  have h : bare.tenantOwns 0 (4096 * 4096) 64 = false := ownsNot (by decide +kernel)
  simp [State.graphImage, State.vsImageBytes, h]

theorem witness_VectorSearchCommands :
    oneShard.vsRoot 0 = .ok (rootAt oneShard) ∧ emptyShard.vsRoot 0 = .ok (rootAt emptyShard) ∧
    (∀ c ∈ [on [(32, 4, 1), (36, 4, 16)], on [(32, 4, 1), (36, 1, 0)], on [(32, 4, 16)]],
      (!oneShard.fenceWaits c && (oneShard.gate c .tenant false).isNone && !oneShard.freezing) = true) ∧
    oneShard.checkHandle 0 hnd false = .ok 0 ∧
    (oneShard.get Fld.VS_CTRL_EN = 1 ∧ (oneShard.stall 0).hdr.ptRoot ≠ 0 ∧ oneShard.t1.poison = [] ∧ oneShard.kindLost 3 = false ∧
      oneShard.indexLost 0 = false ∧ isIndex (oneShard.stall 0) = true) ∧
    (insertShard (rootAt oneShard) 0 = some 0 ∧ insertShard (rootAt oneShard) 0xFF = some 0 ∧ (rootAt oneShard).shards.length ≤ 1 ∧
      (let h := (rootAt oneShard).shard 0;
        h.cap < h.count + 3 ∧ h.count + 2 ≤ h.cap ∧ (rootAt oneShard).sideCap < h.sideCount + 2 ∧ h.sideCount + 1 ≤ (rootAt oneShard).sideCap) ∧
      ((oneShard.readIn (on [(32, 4, 1)]) 0 0 (1 * (rootAt oneShard).codeBytes)).toOption).isSome = true ∧ (on []).addrB = 0) ∧
    (((oneShard.readIn (on [(32, 4, 1)]) 0 0 4).toOption).map (fun b => words4 1 b) = some [0] ∧
      words4 1 (([1, 0, 0, 0] : List Byte)) = [1] ∧ ((rootAt oneShard).shard 0).count ≤ 1 ∧ ((rootAt emptyShard).shard 0).count ≤ 0) ∧
    (let c := on [(32, 4, 1), (36, 4, 16), (48, 1, 1)];
      oneShard.isDetached c = false ∧ c.busFail = none ∧ opU32 c 32 = 1 ∧ opU32 c 36 = 16 ∧ (∀ h ∈ (rootAt emptyShard).shards, h.count = 0) ∧
        (opByte c 48).testBit 0 = true ∧ ((emptyShard.readIn c 0 0 (rootAt emptyShard).codeBytes).toOption).isSome = true) ∧
    (16 ≤ opU32 (on [(32, 4, 16)]) 32 ∧ oneShard.merging 0 = false ∧ (oneShard.op 0).live = false) ∧
    (let o (x : OpState) : State := { oneShard with ops := [(0, { live := true, st := x, opcode := 0x64, args := [0, 128, 0, hnd] })] };
      ((o .queued).op 0).live = true ∧ ((o .queued).op 0).st = .queued ∧ ((o .running).op 0).st = .running ∧ ((o .running).op 0).args = [0, 128, 0, hnd] ∧
        (o .running).mergeIndex 0 = some 0) ∧
    oneShard.metasFail 0 (rootAt oneShard) [5] = none := by
  exact ⟨rootRead (by decide +kernel), rootRead (by decide +kernel), by decide +kernel, isOk (by decide +kernel), by decide +kernel⟩

/-- A poisoned block that was written cannot be read. -/
theorem badBlock {s : State} {d b e : Nat} (h : s.redirects = [] ∧ s.mirrors = []) (hp : s.isPoisoned b = true) (hd : s.blockDomain b = some e) :
    s.blockStatus d b = some CS.uncorrectable := by
  have hs : s.servedAt (64 * b) / 64 = b := by simp [State.servedAt, h.1]
  have hr : s.blockRead d b = .poisoned := by
    unfold State.blockRead
    dsimp only
    split
    · rfl
    · simp only [hd]
  simp [State.blockStatus, State.sourceBlock, hs, hr, BlockRead.status, State.mirrorBlock, h.2]

/-- The metadata of code 0 lies in a poisoned block. -/
theorem witness_VectorSearchCommands_unread :
    let s := { oneShard with t1 := { oneShard.t1 with poison := [(0, [0])], domains := (0, 1) :: oneShard.t1.domains } }
    s.metasFail 0 (rootAt oneShard) [0] = some CS.uncorrectable := by
  intro s
  have hf : [0].filter (rootAt oneShard).issued = [0] := by decide +kernel
  have ha : ((rootAt oneShard).shard 0).metaAt = 0 := by decide +kernel
  have hb : s.blockStatus 0 0 = some CS.uncorrectable := badBlock ⟨rfl, rfl⟩ (by decide +kernel) (by decide +kernel : s.blockDomain 0 = some 0)
  have hk : blocksOf 0 32 = [0] := by decide +kernel
  have hr : s.readBlocks 0 0 32 = .error CS.uncorrectable := by
    rw [State.readBlocks, isLow (by decide +kernel), hk]
    simp [hb]
  simp [State.metasFail, hf, State.vsMeta, ha, hr, Except.map]

/-- The merge of an index that holds nothing reads its one shard and writes it. -/
theorem witness_VectorSearchCommands_merge :
    ∃ shards v, emptyShard.mergeShards 0 0 128 (rootAt emptyShard) (List.range (rootAt emptyShard).shards.length) = .ok (shards, v) := by
  have hr : (List.range (rootAt emptyShard).shards.length) = [0] := by decide +kernel
  have h1 : emptyShard.readBlocks 0 0 0 = .ok (emptyShard.servedBytes 0 0 0) := blocksRead (by decide +kernel) (by decide +kernel)
  have hs : emptyShard.vsSide 0 (rootAt emptyShard) 0 = .ok (words4 0 (emptyShard.servedBytes 0 0 0)) := by
    have ha : ((rootAt emptyShard).shard 0).side = 0 ∧ ((rootAt emptyShard).shard 0).sideCount = 0 := by decide +kernel
    simp only [State.vsSide, ha.1, ha.2, h1]
    rfl
  have he : emptyShard.vsEntry 0 (rootAt emptyShard) 0 (rootAt emptyShard).active = .ok ((words4 0 (emptyShard.servedBytes 0 0 0)).map (· % 2 ^ 28)) := by
    have ha : ((rootAt emptyShard).shard 0).entry = 0 ∧ (rootAt emptyShard).active = 0 ∧ ((rootAt emptyShard).shard 0).entries.getD 0 0 = 0 := by decide +kernel
    simp only [State.vsEntry, ha.1, ha.2.1, ha.2.2, h1]
    rfl
  have hc : ((rootAt emptyShard).shard 0).count = 0 := by decide +kernel
  have hm : ∃ q, emptyShard.mergeShard 0 0 128 0 (rootAt emptyShard) = .ok q := by
    simp only [State.mergeShard, hs, he, hc]
    exact ⟨_, rfl⟩
  obtain ⟨q, hq⟩ := hm
  exact ⟨[q.1], q.2, by rw [hr]; simp only [State.mergeShards, hq]; rfl⟩

theorem witness_TextAndShapeRegisters_bind :
    OnStall (withStall (session .hot) tn) (on [(32, 1, 7)]) 0 false ∧
    (let s := withStall (session .hot) tn;
      opByte (on [(32, 1, 7)]) 32 < 8 ∧ s.kindLost 1 = false ∧ (opByte (on [(32, 1, 7)]) 32).testBit 0 = true ∧ (on [(32, 1, 7)]).addrA = 0 ∧
        (cmd hnd 128 0 [(32, 1, 1)]).addrA ≠ 0 ∧ s.get Fld.GR_CTRL_EN = 0 ∧ (s.put Fld.GR_CTRL_EN 1).get Fld.GR_CTRL_EN = 1 ∧ busyOpcode (s.stall 0) = none) ∧
    (withStall (session .hot) tn).grammarImage 0 128 = .error CS.badCommand := by
  refine ⟨onStall (by decide +kernel) ⟨isOk (by decide +kernel), by decide +kernel⟩, by decide +kernel, ?_⟩
  rw [State.grammarImage, readOk (by decide +kernel) (by decide +kernel)]
  exact isErr (by decide +kernel)

theorem witness_TextAndShapeRegisters :
    MayWrite (mg []) (wr 2) (Reg.TX_CFG 0) ∧ MayWrite (mg []) (wr 2) (Reg.TX_CFG 255 + 8 * 6) ∧ MayWrite (mg []) (wr 2) (Reg.KV_SHAPE 15) ∧
    MayWrite (mg []) (wr 0) Reg.STL_DIRTY_LIMIT ∧
    ((withStall (session .hot) (mg [])).liveSession 0 = true ∧ (mg []).liveSession 0 = false ∧
      ((mg []).store (wr 0) (Reg.TX_CFG 0)).get (Fld.TX_CFG_VALID 0) = 0) ∧
    (∃ v, ((mg []).store (wr v) (Reg.TX_CFG 0)).get (Fld.TX_CFG_VALID 0) = 1 ∧ ((mg []).store (wr v) (Reg.TX_CFG 0)).tableMode 0 = true ∧
      ((mg []).store (wr v) (Reg.TX_CFG 0)).textConfigOk 0 = false) ∧
    ((withStall { session .hot with shape := 0 } (mg [])).shapeUse 0 ≠ 0 ∧ (mg []).shapeUse 0 = 0) ∧
    (∃ v, ((mg []).store (wr v) (Reg.KV_SHAPE 15)).shapeOk 15 = true) ∧ ((mg []).store (wr 0) (Reg.KV_SHAPE 15)).shapeOk 15 = false := by
  refine ⟨may (by decide +kernel), may (by decide +kernel), may (by decide +kernel), may (by decide +kernel), by decide +kernel, ⟨0x600000, ?_⟩, by decide +kernel,
    ⟨0x20200010, ?_⟩, by decide +kernel⟩ <;> decide +kernel
/-! ### Witnesses: memory tiers -/

/-- Port 0 in write service with a closed band half superseded, and a stall with an extent in it. -/
def stale : State :=
  let s := written (withStall { session .hot with extents := [(2 ^ 29 * 5, 4096)] } tn)
  { s with shed := [(0, { bands := [(5, ⟨[], 8192, 4096⟩)], blocks := (List.range 32).map (fun i => ⟨i % 16, .valid, 0, 0⟩), goodAtTrain := 32 })] }

/-- Channel 0 of Hive 0 with block 1 at some count of wrong bytes, the patrol at it. -/
def patrolling (wrong : Nat) : State :=
  let s := tn.put Fld.HB_CTRL_SCRUB_EN 1
  { s with t1 := { s.t1 with errors := [(1, (wrong, 1))], scrubAt := [(0, 1)] } }

theorem witness_MemoryTierCommands :
    (∀ c ∈ [cmd 0 0 0 [], cmd 0 0 0 [(32, 1, 16)], cmd 0 0 0 [(33, 1, 1)], cmd 0 0 0 [(32, 1, 1)]], Accepted tn c .tenant false) ∧
    ((tn.op 0).live = false ∧ opZero okCmd 33 63 = true ∧ tn.patrolled 0 ≠ [] ∧ State.reset.patrolled 0 = [] ∧
      (opByte (cmd 0 0 0 [(32, 1, 16)]) 32 = 16 ∧ opZero (cmd 0 0 0 [(33, 1, 1)]) 33 63 = false) ∧ opZero okCmd 35 63 = true ∧
      opZero okCmd 34 63 = true ∧ tn.hiveAbsent 0 = false ∧ tn.physicalChannel 0 0 = some 0 ∧ tn.get (Fld.HB_CH_STATE 0 0) ≠ 2 ∧
      (tn.put (Fld.HB_CH_STATE 0 0) 2).physicalChannel 0 0 = some 0 ∧ (tn.put (Fld.HB_CH_STATE 0 0) 2).get (Fld.HB_CH_STATE 0 0) = 2 ∧
      State.reset.hiveAbsent 0 = true) ∧
    (∀ w ∈ [1, 2, 3], let s := patrolling w;
      s.get Fld.HB_CTRL_SCRUB_EN = 1 ∧ (s.patrolled 0).contains 0 = true ∧ s.get Fld.PW_STATUS_PARKING = 0 ∧ s.get (Fld.CK_GATE_STATE 0) = 0 ∧
        s.servesChannel 0 0 = some 0 ∧ sparseGet 0 s.t1.scrubAt 0 = 1 ∧ sparseGet (0, 0) s.t1.errors 1 = (w, 1)) ∧
    (1 + 1 < channelBytes / 64 ∧ (0 * 2 ^ 36 + 0 * channelBytes) / 64 + 1 = 1) ∧
    ((tn.put Fld.PW_STATUS_PARKING 1).get Fld.PW_STATUS_PARKING = 1 ∧ (∀ q < 17, tn.get (Fld.HB_CH_STATE 0 q) ≠ 2) ∧
      (let s := tn.put (Fld.HB_CH_STATE 0 0) 2;
        (∀ j < 0, s.get (Fld.HB_CH_STATE 0 j) ≠ 2) ∧ s.freezing = false ∧ s.units.copied.contains (16 * 0 + s.get (Fld.HB_CH_LOGICAL 0 0)) = false) ∧
      (let s := { atYt 5 tn with units := { tn.units with evacuating := [(0, 5)] } };
        (16 * 0 + 0, 5) ∈ s.units.evacuating ∧ 5 ≤ s.now ∧ (atYt 4 s).now < 5) ∧
      tn.servesChannel 0 0 = some 0 ∧
      (let s := tn.put (Fld.HB_CH_STATE 0 16) 1;
        s.hiveAbsent 0 = false ∧ s.get (Fld.HB_CH_STATE 0 16) = 1 ∧ (s.put (Fld.HB_CH_LOGICAL 0 16) 16).servesChannel 0 16 = none) ∧
      (st [(Fld.CP_STATUS_PHASE, 4)]).freezing = true) ∧
    (let s := { stale with ops := [(0, { live := true, st := .running, opcode := 0x31, args := [5] })] };
      (s.op 0).live = true ∧ (s.op 0).opcode = 0x31 ∧ (s.op 0).st = .running ∧ (s.stall 0).state = .hot ∧ (s.stall 0).park = none ∧ (s.stall 0).revive = none ∧
        (s.stall 0).mig = none ∧ s.freezing = false ∧ s.get Fld.PW_STATUS_PARKING = 0 ∧ 0 ∈ s.stallsIn (s.op 0).args) := by
  refine ⟨?_, by decide +kernel, by decide +kernel, ?_, by decide +kernel⟩
  · intro c hc
    simp only [List.mem_cons, List.not_mem_nil, or_false] at hc
    rcases hc with rfl | rfl | rfl | rfl <;> exact acc (by decide +kernel)
  · have := channel_cases
    omega

theorem witness_MemoryTierCommands_compact :
    stale.stallsIn (stale.compactionBands (opByte (cmd 0 0 0 [(32, 1, 255)]) 32) (opU16 (cmd 0 0 0 [(32, 1, 255)]) 33)) ≠ [] := by
  have h : ((List.range 8).filter (fun p => (255 : Nat).testBit p && stale.portWritable p)).flatMap stale.staleBands = [(4096, 0, 5)] := by decide +kernel
  have h2 : opByte (cmd 0 0 0 [(32, 1, 255)]) 32 = 255 ∧ opU16 (cmd 0 0 0 [(32, 1, 255)]) 33 = 0 := by decide +kernel
  rw [h2.1, h2.2]
  simp only [State.compactionBands, h, List.mergeSort_singleton]
  decide +kernel

/-- Port 0 is short of free bands, so that its stale band is compacted on its own. -/
theorem witness_MemoryTierCommands_gc :
    0 ∈ stale.stallsIn (((List.range 8).filter (fun p => stale.portWritable p && stale.gcLow p)).flatMap (fun p => stale.compactionBands (2 ^ p) 0)) := by
  have hp : (List.range 8).filter (fun p => stale.portWritable p && stale.gcLow p) = [0] := by decide +kernel
  have h : ((List.range 8).filter (fun p => (2 ^ 0 : Nat).testBit p && stale.portWritable p)).flatMap stale.staleBands = [(4096, 0, 5)] := by decide +kernel
  rw [hp]
  simp only [List.flatMap_cons, List.flatMap_nil, State.compactionBands, h, List.mergeSort_singleton]
  decide +kernel

/-- A Shed port whose part trained, with its blocks. -/
def shedBlocks (l : List EraseBlock) : State := { written tn with shed := [(0, { training := true, trained := true, blocks := l, scrubDue := 5 })] }

theorem witness_ShedPortEvents :
    (let s := st [(Fld.SH_CTRL_COMMIT, 1), (Fld.SEC_DOM_INSTALLED 545, 1), (Fld.SH_CTRL_PORT_EN, 1)];
      s.get Fld.SH_CTRL_COMMIT = 1 ∧ s.get (Fld.SEC_DOM_INSTALLED 545) = 1 ∧ (s.get Fld.SH_CTRL_PORT_EN).testBit 0 = true ∧
        (s.get Fld.SH_CTRL_PORT_EN).testBit 1 = false) ∧
    State.reset.get Fld.SH_CTRL_COMMIT = 0 ∧
    (let s := { tn with shed := [(7, { training := true })] };
      (s.shedPort 7).training = true ∧ (s.shedPort 7).trained = false ∧ (s.shedPort 6).training = false) ∧
    (partFits { okFound with targets := 0 } = false ∧ partFits okFound = true ∧ okFound.slots = []) ∧ ((written tn).portReadable 0 = true ∧ tn.portReadable 0 = false) ∧
    (tn.put Fld.PW_STATUS_PARKING 1).get Fld.PW_STATUS_PARKING = 1 ∧
    (let s := shedBlocks [⟨0, .valid, 0, 0⟩, ⟨0, .free, 65535, 0⟩];
      let x := s.shedPort 0;
      s.get Fld.PW_STATUS_PARKING = 0 ∧ s.portWritable 0 = true ∧
        s.get Fld.SH_WEAR_SPREAD_ERASES < ((x.blocks.filter (fun b => decide (b.state ≠ .bad))).map (·.erases)).foldl max 0 -
          ((x.blocks.filter (fun b => decide (b.state ≠ .bad))).map (·.erases)).foldl min (((x.blocks.filter (fun b => decide (b.state ≠ .bad))).map (·.erases)).headD 0) ∧
        x.best (fun b => decide (b.state = .valid)) (fun a b => decide (a < b)) = some 0 ∧ x.blocks[0]? = some ⟨0, .valid, 0, 0⟩ ∧
        x.best (fun d => decide (d.state = .free) && decide (d.channel = 0)) (fun a b => decide (b < a)) = some 1 ∧ s.portReadable 0 = true ∧
        0 + (s.get Fld.SH_RD_LIMIT_READS - 1) < s.get Fld.SH_RD_LIMIT_READS ∧ s.get Fld.SH_RD_LIMIT_READS ≤ 0 + s.get Fld.SH_RD_LIMIT_READS ∧
        freshBlock (({ x with blocks := x.blocks.modify 0 (fun b => { b with reads := b.reads + 7 }) } : ShedPort).withFresh 0).blocks 0 = some 1 ∧
        (atYt 4 s).now < x.scrubDue ∧ x.scrubDue ≤ (atYt 5 s).now ∧ (∀ b ∈ x.blocks, b.reads + 1 < s.get Fld.SH_RD_LIMIT_READS)) := by
  decide +kernel

/-- An object table of one entry at 65536, read by the device: 64 bytes of layer 3, of a class, in Hive 0. -/
def objects (cls : Nat) (r : Resident) : State :=
  let s := [(Fld.PF_CTRL_EN, 1), (Fld.PF_OBJ_COUNT_COUNT, 1), (Fld.PF_OBJ_BASE_BASE, 65536)].foldl (fun (s : State) p => s.put p.1 p.2) tn
  { s with
    t1 := { s.t1 with bytes := [(65552, 64), (65556, 3), (65557, BitVec.ofNat 8 cls), (65560, 1)], domains := [(1024, 545)] }
    prefetch := { objects := [(0, r)] } }

theorem entryRead {s : State} {e : PfEntry} (h : s.get Fld.PF_OBJ_COUNT_COUNT = 1 ∧ s.get Fld.PF_OBJ_BASE_BASE + 32 * 0 = 65536)
    (h2 : (s.redirects.isEmpty && decide (65536 / 2 ^ 40 = 0) && decide (65536 % 2 ^ 36 + 32 ≤ 2 ^ 35) && !s.hiveAbsent (hiveOf 65536)) = true)
    (h3 : soundRead s 544 65536 32 = true)
    (h4 : (fun r => (⟨recGet r 0 8, recGet r 8 8, recGet r 16 4, recGet r 20 1, recGet r 21 1, recGet r 22 2, recGet r 24 2, recGet r 26 1, recGet r 27 1⟩ : PfEntry))
      (s.servedBytes 544 65536 32) = e) :
    s.pfEntry 0 = some e := by
  simp only [State.pfEntry, h.1, h.2, readOk h2 h3]
  exact congrArg some h4

/-- The entry of `objects`. -/
def entry (cls : Nat) : PfEntry := ⟨0, 0, 64, 3, cls, 0, 1, 0, 0⟩

/-- A pinned object on its way: layer 3 starts and waits for it. -/
def onItsWay : State := objects 0 { copies := [(0, 0)], loading := true }

/-- A promotable object in Tier 1, and one that is not. -/
def held2 : State := objects 2 { copies := [(0, 0)] }

def unread (cls : Nat) : State := objects cls {}

theorem entries : onItsWay.pfEntry 0 = some (entry 0) ∧ held2.pfEntry 0 = some (entry 2) ∧ (unread 0).pfEntry 0 = some (entry 0) :=
  ⟨entryRead (by decide +kernel) (by decide +kernel) (by decide +kernel) (by decide +kernel),
    entryRead (by decide +kernel) (by decide +kernel) (by decide +kernel) (by decide +kernel),
    entryRead (by decide +kernel) (by decide +kernel) (by decide +kernel) (by decide +kernel)⟩

theorem witness_PrefetchUnit :
    (onItsWay.pfEntry 0 = some (entry 0) ∧ onItsWay.pfObjects = [(0, entry 0)] ∧ onItsWay.pfReady 0 = false ∧ onItsWay.pfLoad 0 = onItsWay) ∧
    (held2.pfReady 0 = true ∧ (held2.resident 0).loading = false) ∧
    ((unread 0).pfReady 0 = false ∧ (((unread 0).pfLoad 0).resident 0).loading = true) ∧
    ((unread 2).get Fld.PF_CTRL_EN = 1 ∧ State.reset.get Fld.PF_CTRL_EN = 0 ∧ (unread 2).get Fld.PW_STATUS_PARKING = 0 ∧
      (st [(Fld.PF_CTRL_EN, 1)]).get Fld.PF_OBJ_COUNT_COUNT = 0 ∧ ((unread 2).resident 0).loading = false ∧
      (onItsWay.resident 0).loading = true ∧ (onItsWay.resident 0).copies = [(0, 0)] ∧ onItsWay.prefetch.waits = [] ∧
      (∀ p < 8, (entry 0).ports.testBit p = true → onItsWay.portReadable p = true) ∧
      ({ onItsWay with prefetch := { onItsWay.prefetch with waits := [⟨0, 3, 0, [0]⟩] } } : State).prefetch.waits = [⟨0, 3, 0, [0]⟩]) ∧
    MayWrite (mg []) (wr 1) Reg.PF_CTRL ∧
    (let s := mg [(Fld.BU_STATE_STATE, 7)];
      ((s.store (wr 1) Reg.PF_CTRL).enGate Fld.PF_CTRL_EN).get Fld.PF_CTRL_EN = 1 ∧ s.get Fld.PF_CTRL_EN = 0 ∧
        ((s.store (wr 1) Reg.PF_CTRL).enGate Fld.PF_CTRL_EN).get Fld.PW_STATUS_PARKING = 0) := by
  obtain ⟨h1, h2, h3⟩ := entries
  have hl : (onItsWay.resident 0).loading = true := by decide +kernel
  have hn : onItsWay.get Fld.PF_OBJ_COUNT_COUNT = 1 := by decide +kernel
  refine ⟨⟨h1, ?_, by simp [State.pfReady, hl], by simp [State.pfLoad, hl]⟩, ⟨?_, by decide +kernel⟩, ?_, by decide +kernel, may (by decide +kernel), by decide +kernel⟩
  · simp only [State.pfObjects, hn, show List.range 1 = [0] from rfl, List.filterMap, h1, Option.map]
  · simp only [State.pfReady, h2]
    decide +kernel
  · have hr : (unread 0).pfReady 0 = false := by
      simp only [State.pfReady, h3]
      decide +kernel
    refine ⟨hr, ?_⟩
    simp only [State.pfLoad, hr, h3]
    decide +kernel

/-! ### Witnesses: contexts, slices, rounds, tenants -/

/-- Reading sound blocks leaves nothing behind. -/
theorem quietRead {s : State} {d a n : Nat} (h2 : soundRead s d a n = true) : (s.afterRead d a n).checkPoison = s := by
  simp only [soundRead, Bool.and_eq_true, Bool.not_eq_true', List.isEmpty_iff, List.all_eq_true, decide_eq_true_eq, Bool.or_eq_true, beq_iff_eq] at h2
  obtain ⟨⟨⟨⟨⟨-, hp⟩, hr⟩, he⟩, ho⟩, hd⟩ := h2
  have hf : s.afterRead d a n = s := by
    unfold State.afterRead
    revert hd
    generalize blocksOf a n = l
    induction l with
    | nil => intro _; rfl
    | cons b l ih =>
      intro hd
      have hb := hd b List.mem_cons_self
      rw [List.foldl_cons, quietBlockRead hb.1 hp hr he ho hb.2]
      exact ih (fun x hx => hd x (List.mem_cons_of_mem _ hx))
  rw [hf, State.checkPoison, ho]
  rfl

/-- Contexts enabled, one slot, Hub thread 0 bound to tenant 0 with a quota of one, Hive 0 alone in its partition; an image of 16 bytes of code at 65536. -/
def loadable : State :=
  let s := [(Fld.SCH_CTX_CTRL_EN, 1), (Fld.SCH_CTX_SLOTS_SLOTS, 1), (Fld.SCH_HUBTHR_BOUND 0, 1), (Fld.TN_QUOTA_CONTEXTS 0, 1),
    (Fld.SCH_PART_COMBS 0, 3)].foldl (fun (s : State) p => s.put p.1 p.2) tn
  { s with t1 := { s.t1 with
      bytes := [(65536, 0x44), (65537, 0x4E), (65538, 0x52), (65539, 0x54), (65540, 1), (65541, 1), (65544, 16), (65560, 64), (65600, 7)]
      domains := [(1024, 1), (1025, 1)] } }

/-- The same with no room. -/
def loadableFull : State := { loadable with t1 := { loadable.t1 with runs := [⟨0, 2 ^ 28, .tenant 0 none⟩] } }

theorem loadable_low : LowBooks loadable 4096 :=
  ⟨by decide +kernel, by decide +kernel, by decide +kernel, onlyChannel0 (by decide +kernel) (by decide +kernel), rfl⟩

/-- The load of that image. -/
def loadSpec : LoadSpec :=
  ⟨0, 65536, 1, 16, 0, 0, false, 0, loadable.servedBytes 0 65536 64, loadable.servedBytes 0 65600 16⟩

theorem witness_ContextCommands_load :
    AcceptedHeld loadable (cmd 0 65536 0 []) .tenant false ∧ loadable.tenantOwns 0 (4096 * 4096) 64 = false ∧
    (∀ s ∈ [loadable, loadableFull], (s.afterRead 0 65536 64).checkPoison = s ∧ (s.afterRead 0 65600 16).checkPoison = s ∧
      s.tenantOwns 0 65536 64 = true ∧ s.readT1 0 65536 64 = .ok loadSpec.header ∧ s.tenantOwns 0 (65536 + 64) 16 = true ∧
      s.loadPlace (cmd 0 65536 0 []) 0 1 = .ok 0 ∧ s.readT1 0 (65536 + 64) 16 = .ok loadSpec.bytes ∧ s.allocStopped = false ∧
      s.tenantContexts 0 < s.get (Fld.TN_QUOTA_CONTEXTS 0) ∧ 0 < s.get Fld.SCH_CTX_SLOTS_SLOTS ∧ (s.context 0).state = .free) ∧
    imageHeader loadSpec.header = some (1, 16, 0, 0, 64) ∧ (∃ u, loadable.loadInto 0 loadSpec = some u) ∧ loadableFull.loadInto 0 loadSpec = none := by
  refine ⟨held (by decide +kernel), ownsNot (by decide +kernel), ?_, by decide +kernel, ?_, ?_⟩
  · intro s hs
    simp only [List.mem_cons, List.not_mem_nil, or_false] at hs
    rcases hs with rfl | rfl <;> exact ⟨quietRead (by decide +kernel), quietRead (by decide +kernel), owns (by decide +kernel) (by decide +kernel),
      readOk (by decide +kernel) (by decide +kernel), owns (by decide +kernel) (by decide +kernel), isOk (by decide +kernel),
      readOk (by decide +kernel) (by decide +kernel), by decide +kernel⟩
  · obtain ⟨g1, t1, e1, l1, _⟩ := allocLow (n := 1) (a := 1) (.device 544) loadable_low (by decide) (by decide) (by omega)
    obtain ⟨g2, t2, e2, _, _⟩ := allocLow (n := 18) (a := 1) (.context 0) l1 (by decide) (by decide) (by omega)
    have hh : hiveOf loadSpec.image = 0 ∧ ceilDiv loadSpec.code 4096 = 1 ∧ saveBytes true / 4096 = 18 ∧ loadSpec.shared / 65536 = 0 ∧ loadSpec.kind = 1 := by decide +kernel
    have hr : loadable.roomiest (loadable.partitionHive loadSpec.tenant) = some 0 := by decide +kernel
    exact ⟨_, by simp [State.loadInto, hh, e1, hr, State.takeSaves, e2, State.takeWindow]; rfl⟩
  · have hh : hiveOf loadSpec.image = 0 ∧ ceilDiv loadSpec.code 4096 = 1 := by decide +kernel
    have := noRoom (s := loadableFull) (n := 1) (o := .device 544) rfl (by decide)
    simp [State.loadInto, hh, this]

/-- Slot 0 holds a context. -/
def withContext (x : Context) : State := { loadable with contexts := [(0, x)] }

/-- The handle of the context of slot 0 of tenant 0 in its first generation. -/
def ctxCmd (ops : List (Nat × Nat × Nat)) : Cmd := cmd 4096 0 0 ops

/-- A Hub context in a state. -/
def hubCtx (x : CtxState) : Context := { state := x, hub := true, launchYt := 5000, runLimit := 7 }

theorem witness_ContextTransitionsRefused :
    AcceptedHeld (withContext (hubCtx .running)) (ctxCmd []) .tenant false ∧ (withContext (hubCtx .running)).get Fld.SCH_CTX_CTRL_EN = 1 ∧
    (withContext (hubCtx .running)).checkContext 0 4096 = .ok 0 ∧ (withContext (hubCtx .halted)).checkContext 0 4096 = .ok 0 ∧
    (hubCtx .running).state ∉ [CtxState.loaded, .halted, .stopped] ∧ (hubCtx .halted).state ∉ [CtxState.armed, .running, .switched] ∧
    (hubCtx .running).state ∉ [CtxState.loaded, .halted, .stopped, .faulted] ∧ AcceptedHeld (withContext (hubCtx .halted)) (ctxCmd []) .tenant false :=
  ⟨held (by decide +kernel), by decide +kernel, isOk (by decide +kernel), isOk (by decide +kernel), by decide, by decide, by decide, held (by decide +kernel)⟩

/-- A Cell context of partition 0 in a state, that its Cells hold ready or that waits. -/
def cellCtx (x : CtxState) (there : Bool) : Context := { state := x, partition := 0, launchYt := 50, onCells := there, ready := there }

/-- Partition 0 in the first of two entries of 50,000 ns for tenant 0, at a count. -/
def sliced (x : Context) (at_ : Nat) : State :=
  atYt at_ { withContext x with parts := [(0, { entries := [(0, 50000), (0, 50000)], begun := true })] }

theorem witness_ContextCommands :
    (∀ x ∈ [CtxState.loaded, .armed, .running, .faulted],
      (!(withContext (hubCtx x)).fenceWaits (ctxCmd []) && ((withContext (hubCtx x)).gate (ctxCmd []) .tenant false).isNone && !(withContext (hubCtx x)).freezing) = true ∧
      (withContext (hubCtx x)).checkContext 0 4096 = .ok 0) ∧
    ((withContext (hubCtx .loaded)).threadBound 0 0 = true ∧ (opByte (ctxCmd []) 48).testBit 0 = false ∧ opU64 (ctxCmd []) 32 = 0 ∧
      (withContext (hubCtx .loaded)).now + 2000 ≤ opU64 (ctxCmd [(32, 8, 2000)]) 32 ∧ opU64 (ctxCmd [(32, 8, 2000)]) 32 ≠ barrierCount ∧
      0 < opU64 (ctxCmd [(32, 8, 1999)]) 32 ∧ opU64 (ctxCmd [(32, 8, 1999)]) 32 < (withContext (hubCtx .loaded)).now + 2000 ∧
      (hubCtx .armed).waitCmd = none ∧ opU64 (ctxCmd [(32, 8, barrierCount)]) 32 = barrierCount ∧ (withContext (hubCtx .loaded)).get Fld.YT_CTRL_BARRIER_EN = 0 ∧
      ((withContext (cellCtx .loaded false)).put Fld.YT_CTRL_BARRIER_EN 1).get Fld.YT_CTRL_BARRIER_EN = 1 ∧ (cellCtx .loaded false).hub = false ∧
      (opByte (ctxCmd [(48, 1, 1)]) 48).testBit 0 = true ∧
      ((withContext (hubCtx .armed)).put (Fld.SCH_HUBTHR_BOUND 0) 0).threadBound 0 0 = false) ∧
    (∃ u, (withContext (hubCtx .loaded)).writeOut (ctxCmd []) 0 ((withContext (hubCtx .loaded)).statusBlock 0) = .ok u) ∧
    ((hubCtx .armed).barrier = false ∧ (atYt 4999 (withContext (hubCtx .armed))).now < (hubCtx .armed).launchYt ∧
      (hubCtx .armed).launchYt ≤ (atYt 5000 (withContext (hubCtx .armed))).now ∧ (hubCtx .loaded).state ≠ .armed ∧
      (hubCtx .running).launchYt + (hubCtx .running).runLimit ≤ (atYt 5007 (withContext (hubCtx .running))).now ∧
      (atYt 5006 (withContext (hubCtx .running))).now < (hubCtx .running).launchYt + (hubCtx .running).runLimit ∧
      (withContext (hubCtx .running)).freezing = false) ∧
    tn.nextEntry 0 = none ∧
    (∀ b ∈ [true, false], ∀ n ∈ [0, 50000], (((sliced (cellCtx .switched b) n).nextEntry 0).map (fun e => (entryTenant e.1, e.2, entryEnd e.1))) = some (some 0, 50000, 100000)) ∧
    ((sliced (cellCtx .armed false) 0).get (Fld.SCH_SWITCH_NS 0) < 50000 ∧
      (sliced (cellCtx .armed false) 50000).pickContext 0 100000 (fun y => decide (y.tenant = 0)) = some 0 ∧
      (sliced (cellCtx .switched true) 50000).onPartition 0 = some 0 ∧ (sliced (cellCtx .armed true) 50000).onPartition 0 = some 0 ∧
      (sliced (cellCtx .loaded false) 50000).onPartition 0 = none ∧
      (sliced (cellCtx .loaded false) 50000).pickContext 0 100000 (fun y => decide (y.tenant = 0)) = none ∧ (cellCtx .armed true).ready = true ∧ (cellCtx .armed true).launchYt ≤ (sliced (cellCtx .armed true) 50000).now ∧
      (sliced (cellCtx .armed true) 50000).freezing = false) := by
  refine ⟨?_, by decide +kernel, ⟨_, isOk rfl⟩, by decide +kernel⟩
  intro x hx
  simp only [List.mem_cons, List.not_mem_nil, or_false] at hx
  rcases hx with rfl | rfl | rfl | rfl <;> exact ⟨by decide +kernel, isOk (by decide +kernel)⟩

/-- A round of tenant 0 that waits for its launch count 100, its descriptor naming context 0. -/
def waitingRound : RoundWait := ⟨0, 0, okCmd, 0, 100, [0, 16], []⟩

/-- A round in flight on context 0. -/
def flying : Flight := ⟨7, 100, 0, [], false, false, 0xFFFFFFFF, false⟩

/-- Tenant 0's rounds at a count, its context in a state, no stall. -/
def rounds (w : Option RoundWait) (f : Option Flight) (x : CtxState) (at_ : Nat) : State :=
  atYt at_ { (withContext (hubCtx x)).put (Fld.SCH_ROUND_CFG_LEAD 0) 10 with rounds := [(0, { waiting := w, flight := f })] }

theorem witness_RoundEvents :
    ((tn.roundOf 0).waiting = none ∧ (tn.roundOf 0).flight = none ∧ (∀ x ∈ tn.net.shares, tn.now < x.2.2) ∧
      tn.get Fld.PW_STATUS_PARKING = 0 ∧ (tn.launchShares.roundOf 0).flight = none ∧
      ((rounds none (some flying) .loaded 99).launchShares.roundOf 0).flight = some flying ∧ (rounds none (some flying) .loaded 99).launchShares.now < flying.launch ∧
      flying.launch ≤ (rounds none (some flying) .loaded 100).launchShares.now) ∧
    (let s := rounds (some waitingRound) none .loaded 89;
      (s.roundOf 0).waiting = some waitingRound ∧ s.now + s.get (Fld.SCH_ROUND_CFG_LEAD 0) < waitingRound.launch) ∧
    (let s := rounds (some waitingRound) none .loaded 90;
      s.freezing = false ∧ s.get Fld.PW_STATUS_PARKING = 0 ∧ s.get Fld.PW_STATUS_SAFE = 0 ∧ waitingRound.launch ≤ s.now + s.get (Fld.SCH_ROUND_CFG_LEAD 0) ∧
        s.now ≤ waitingRound.launch ∧ (s.roundOf 0).flight = none ∧ s.bindSpares = s ∧ (∀ e ∈ s.stalls, isCandidate 0 e.2 = false) ∧ waitingRound.peers = []) ∧
    (rounds (some waitingRound) none .loaded 90).checkContext 0 (recGet waitingRound.body 0 8) = .ok 0 ∧
    (rounds (some waitingRound) none .faulted 90).checkContext 0 (recGet waitingRound.body 0 8) = .ok 0 ∧
    waitingRound.launch < (rounds (some waitingRound) none .loaded 101).now ∧
    ((rounds (some waitingRound) (some flying) .loaded 100).roundOf 0).flight = some flying ∧
    ((rounds none (some flying) .loaded 99).now < flying.launch ∧ flying.launch ≤ (rounds none (some flying) .loaded 100).now ∧
      (rounds none (some flying) .running 100).roundOver flying = false ∧ (rounds none (some flying) .halted 100).roundOver flying = true ∧
      flying.doneTally = 0xFFFFFFFF ∧
      (let s := (rounds none (some flying) .halted 200).put (Fld.SCH_LATENCY_GOAL 0) 99;
        0 < s.get (Fld.SCH_LATENCY_GOAL 0) ∧ s.get (Fld.SCH_LATENCY_GOAL 0) < s.now - flying.launch) ∧
      (rounds none (some flying) .halted 200).get (Fld.SCH_LATENCY_GOAL 0) = 0) :=
  ⟨by decide +kernel, by decide +kernel, by decide +kernel, isOk (by decide +kernel), isOk (by decide +kernel), by decide +kernel⟩

theorem witness_TenancyRegisters :
    Accepted tn (mcmd 0 0 0 [(32, 1, 7), (33, 1, 1)]) .mgmt false ∧ (opByte (mcmd 0 0 0 [(32, 1, 7), (33, 1, 1)]) 32 = 7 ∧ (tn.op 0).live = false) ∧
    MayWrite (mg []) (wr 1) (Reg.TN_CTRL 255) ∧ MayWrite (mg []) (wr 1) (Reg.SCH_PART 31) ∧ MayWrite (mg []) (wr 1) (Reg.SCH_SLICE 31 15) ∧
    MayWrite (mg []) (wr 1) (Reg.SCH_LATENCY 255) ∧ MayWrite (mg []) (wr 1) Reg.TN_PERIOD ∧ MayWrite (mg []) (wr 1) (Reg.TN_GRANT 255) ∧
    (0 < ({ mg [] with contexts := [(0, hubCtx .loaded)] } : State).tenantContexts 0 ∧ (mg []).tenantContexts 0 = 0 ∧ (mg []).domainInstalled 0 = false) ∧
    (∃ q < 256, (mg [(Fld.TN_CTRL_EN 3, 1)]).get (Fld.TN_CTRL_EN q) = 1 ∧ (mg [(Fld.TN_CTRL_EN 3, 1)]).get (Fld.TN_CTRL_PARTITION q) = 0) ∧
    (let s := mg [];
      (∀ x ∈ s.contexts, x.2.hub = true ∨ x.2.state = .free ∨ x.2.partition ≠ 0) ∧ (∀ q < 256, s.get (Fld.TN_CTRL_EN q) = 0 ∨ s.get (Fld.TN_CTRL_PARTITION q) ≠ 0)) ∧
    (let s := mg [];
      s.wouldGet (wr (2 ^ 32)) (Fld.SCH_PART_VALID 0) = 1 ∧ s.get (Fld.SCH_PART_VALID 0) = 0 ∧ s.combsOk 0 (s.wouldGet (wr (2 ^ 32)) (Fld.SCH_PART_COMBS 0)) = false) ∧
    (let s := { mg [] with parts := [(31, { entries := [(0, 50000)] })] };
      (s.part 31).entries ≠ [] ∧ s.wouldGet (wr 0) (Fld.SCH_SLICE_DURATION 31 15) = 0 ∧ s.wouldGet (wr (2 ^ 32)) (Fld.SCH_SLICE_DURATION 31 15) ≠ 0) ∧
    ((mg []).wouldGet (wr 0) (Fld.SCH_LATENCY_GOAL 255) = 0 ∧ ∃ v, (mg []).wouldGet (wr v) (Fld.SCH_LATENCY_GOAL 255) ≠ 0) ∧
    (State.reset.get Fld.YT_CTRL_RUN = 0 ∧
      (let s := atYt 5 { st [(Fld.YT_CTRL_RUN, 1), (Fld.TN_GRANT_UNLIMITED 0, 0)] with periodEnd := 5 };
        s.get Fld.YT_CTRL_RUN = 1 ∧ s.periodEnd ≤ s.now ∧ (atYt 4 s).now < s.periodEnd ∧ s.get (Fld.TN_GRANT_UNLIMITED 0) = 0) ∧
      (st [(Fld.TN_GRANT_UNLIMITED 0, 1)]).get (Fld.TN_GRANT_UNLIMITED 0) = 1) := by
  refine ⟨acc (by decide +kernel), by decide +kernel, may (by decide +kernel), may (by decide +kernel), may (by decide +kernel), may (by decide +kernel),
    may (by decide +kernel), may (by decide +kernel), by decide +kernel, ⟨3, by decide +kernel⟩, by decide +kernel, by decide +kernel, by decide +kernel,
    ⟨by decide +kernel, 2 ^ 32 - 1, by decide +kernel⟩, by decide +kernel⟩
/-! ### Witnesses: the network, traffic, Yard Time -/

/-- The 64-byte header of a datagram with no payload, followed by `more` bytes that its PAYLOAD_LEN and protection count. -/
def dgram (type flags src dst tenant seq len more : Nat) : List Byte :=
  [1, BitVec.ofNat 8 type, 0, BitVec.ofNat 8 flags] ++ bytesOf 2 src ++ bytesOf 2 dst ++ [BitVec.ofNat 8 tenant, 0] ++ bytesOf 2 len ++ bytesOf 4 0 ++
    bytesOf 8 seq ++ List.replicate (40 + more) 0

theorem openPlain {s : State} {b : List Byte} (h : (recGet b 3 1).testBit 1 = false ∧ (!yardType (recGet b 1 1) && s.on (Fld.SEC_TNET_REQUIRE (recGet b 8 1))) = false) :
    s.openDatagram b = some ⟨recGet b 16 8, recGet b 12 4, (recGet b 3 1).testBit 0, none, messageOf b ((b.drop 64).take (recGet b 10 2))⟩ := by
  simp only [State.openDatagram, h.1, h.2]
  rfl

theorem openSealed {s : State} {b : List Byte} (h : (recGet b 3 1).testBit 1 = true ∧ s.on (Fld.SEC_JOB_INSTALLED (recGet b 9 1)) = false) : s.openDatagram b = none := by
  simp [State.openDatagram, h.1, h.2]

/-- The network enabled, port 0 up. -/
def wired : State := (tn.put Fld.NW_CTRL_EN 1).put (Fld.NW_PORT_STATE_LINK 0) 2

/-- A datagram sent, in flight to device 1 as number 5, last sent at 7. -/
def sentDatagram (queued : Bool) : Datagram := { peer := 1, tenant := 0, seq := 5, seg := 0, last := true, msg := okMsg, bytes := 112, queued := queued, sentAt := some 7 }

/-- A datagram whose PREPARE is of the stall `hnd`, not yet sent. -/
def transferDatagram (queued : Bool) : Datagram :=
  { sentDatagram queued with sentAt := none, msg := { okMsg with type := 1, msgId := hnd } }

/-- Policing on at port 0 for tenant 0, its bucket empty. -/
def policing : State := wired.put (Fld.TS_POLICE_EN 0 0) 1

/-- One flow, with device 1. -/
def withFlow (x : Flow) (s : State) : State := { s with net := { s.net with flows := [(1, x)] } }

theorem witness_SessionTransport :
    (State.reset.get Fld.NW_CTRL_EN = 0 ∧ wired.get Fld.NW_CTRL_EN = 1 ∧ wired.get (Fld.NW_PORT_STATE_LINK 0) = 2 ∧ wired.get (Fld.NW_PORT_STATE_LINK 1) ≠ 2 ∧
      headerOk [] = false ∧ headerOk (dgram 1 1 1 0 0 5 0 0) = true ∧ headerOk (dgram 0x80 1 1 0 1 5 0 0) = true ∧ headerOk (dgram 1 1 1 9 0 5 0 0) = true ∧
      headerOk (dgram 1 3 1 0 0 5 12 28) = true ∧ wired.get (Fld.TS_POLICE_EN 0 0) = 0 ∧ wired.get (Fld.TS_POLICE_EN 0 1) = 0) ∧
    wired.openDatagram (dgram 1 3 1 0 0 5 12 28) = none ∧
    ((policing.policed 0 (dgram 1 1 1 0 0 5 0 0)).2 = false ∧ (dgram 1 1 1 0 0 5 0 0).length = 64) ∧
    (∃ a, wired.openDatagram ((dgram 1 1 1 0 0 5 0 0).set 12 1) = some a ∧ (withFlow { parts := [{ sentDatagram false with msg := a.msg }] } wired).segmentBad 1 a = true) ∧
    (∃ a, wired.openDatagram (dgram 1 1 1 9 0 5 0 0) = some a ∧ a.msg.dst ≠ wired.deviceId) ∧
    (∃ a, wired.openDatagram (dgram 0x80 1 1 0 1 5 0 0) = some a ∧ a.msg.dst = wired.deviceId ∧ wired.segmentBad 1 a = false ∧ yardType a.msg.type = false ∧
      wired.get (Fld.TN_CTRL_EN a.msg.tenant) = 0) ∧
    (∃ a, wired.openDatagram (dgram 1 1 1 0 0 5 0 0) = some a ∧ a.msg.dst = wired.deviceId ∧ wired.segmentBad 1 a = false ∧
      wired.get (Fld.TN_CTRL_EN a.msg.tenant) = 1 ∧ 1 ≤ a.msg.type ∧ a.msg.type ≤ 0x0C ∧ (wired.hear 1).freezing = false ∧ flowKey a.msg.src a.msg.tenant = 1 ∧
      a.seq ∉ ((wired.hear 1).flow 1).seen ∧ a.seq ∈ (((withFlow { seen := [5] } wired).hear 1).flow 1).seen ∧ ((wired.hear 1).flow 1).parts = [] ∧ a.last = true ∧ a.seg = 0) ∧
    ((wired.flow 1).waiting = [] ∧ wired.net.rounds.contains (1, 5) = false ∧
      ({ wired with net := { wired.net with rounds := [(1, 5)] } } : State).net.rounds.contains (1, 5) = true ∧
      (about 5 0 []).aux < wired.now + wired.get Fld.YT_WAGGLE_LEAD_NS ∧ wired.now + wired.get Fld.YT_WAGGLE_LEAD_NS ≤ (about 5 (wired.get Fld.YT_WAGGLE_LEAD_NS) []).aux) ∧
    ((∀ d ∈ (wired.flow 1).unacked, d.seq ≠ 5) ∧
      (∀ q, let s := withFlow { unacked := [transferDatagram q] } wired;
        (s.flow 1).unacked.find? (fun d => d.seq = 5) = some (transferDatagram q) ∧ (transferDatagram q).sentAt = none ∧
          s.transferPaused (transferDatagram q).msg = false) ∧
      (suspendedMig (leaving 1 (some 0))).transferPaused (transferDatagram false).msg = true ∧
      (let s := withFlow { unacked := [sentDatagram false] } wired;
        (s.flow 1).unacked.find? (fun d => d.seq = 5) = some (sentDatagram false) ∧ (sentDatagram false).sentAt = some 7 ∧ (sentDatagram true).queued = true ∧
          s.now < 7 + s.get Fld.NW_RETX_NS ∧ 7 + s.get Fld.NW_RETX_NS ≤ (atYt (7 + s.get Fld.NW_RETX_NS) s).now)) ∧
    (let s := { wired with net := { wired.net with unaccepted := [(okMsg, 7)] } };
      s.net.unaccepted.length ≤ 1 ∧ s.net.unaccepted[0]? = some (okMsg, 7) ∧ s.now < 7 + s.get Fld.NW_ACCEPT_NS ∧
        7 + s.get Fld.NW_ACCEPT_NS ≤ (atYt (7 + s.get Fld.NW_ACCEPT_NS) s).now) ∧
    ((wired.flow (flowKey 0xF000 0)).unacked = [] ∧ (wired.flow (flowKey 0xF000 0)).waiting = [] ∧
      (let s := { wired with net := { wired.net with flows := [(flowKey 0xF001 0, { unacked := [sentDatagram false], lastAck := 7 })] } };
        (s.flow (flowKey 0xF001 0)).unacked ≠ [] ∧ 7 + s.get Fld.NW_EP_TIMEOUT_NS ≤ (atYt (7 + s.get Fld.NW_EP_TIMEOUT_NS) s).now)) ∧
    MayWrite (mg []) (wr 1) Reg.NW_FLOW_SEL := by
  refine ⟨by decide +kernel, openSealed (by decide +kernel), by decide +kernel, ?_, ?_, ?_, ?_, ?_⟩
  · exact ⟨_, openPlain (by decide +kernel), by decide +kernel⟩
  · exact ⟨_, openPlain (by decide +kernel), by decide +kernel⟩
  · exact ⟨_, openPlain (by decide +kernel), by decide +kernel⟩
  · exact ⟨_, openPlain (by decide +kernel), by decide +kernel⟩
  · exact ⟨by decide +kernel, by decide +kernel, by decide +kernel, by decide +kernel, may (by decide +kernel)⟩

/-- A Yard map at 65536 of which device 1 is a member, HELLOs sent since 5. -/
def mapped : State :=
  let s := (wired.put Fld.NW_CTRL_COMMIT 1).put Fld.NW_MAP_BASE_BASE 65536
  { s with
    t1 := { s.t1 with bytes := [(65536 + 32 + 19, 1)] }
    net := { s.net with helloStart := some 5, helloSent := some 5 } }

/-- A map entry with a byte of host data in its FLAGS. -/
def mapCmd (count flags : Nat) : Cmd := { mcmd 0 0 0 [(34, 2, count)] with data := List.replicate 19 0 ++ [BitVec.ofNat 8 flags] }

theorem witness_YardMembership :
    (tn.net.helloStart = none ∧ mapped.net.helloStart = some 5) ∧
    (let p := mapped.get Fld.NW_HELLO_PERIOD;
      0 < p ∧ mapped.net.helloSent = some 5 ∧ ((atYt (4 + p) mapped).now - 5) / p ≤ (5 - 5) / p ∧ (5 - 5) / p < ((atYt (5 + p) mapped).now - 5) / p ∧
        (let s := { mapped with net := { mapped.net with helloSent := none } };
          s.net.helloSent = none)) ∧
    (let miss := mapped.get Fld.NW_HELLO_MISS * mapped.get Fld.NW_HELLO_PERIOD;
      1 ≠ mapped.deviceId ∧ mapped.isMember 1 = true ∧ (mapped.member 1).absent = false ∧ max (mapped.member 1).heard 5 + miss ≤ (atYt (5 + miss) mapped).now ∧
        (atYt (4 + miss) mapped).now < max (mapped.member 1).heard 5 + miss ∧ mapped.isMember 2 = false) ∧
    ((about 5 0 []).src ≠ (mapped.hear 1).deviceId ∧ (mapped.hear 1).isMember 1 = true ∧ (about 5 0 []).aux = (mapped.hear 1).get Fld.NW_MAP_GEN_GEN ∧
      (about 5 1 []).aux ≠ (mapped.hear 1).get Fld.NW_MAP_GEN_GEN) ∧
    Accepted mapped (mapCmd 0 0) .mgmt false ∧ Accepted mapped (mapCmd 1 1) .mgmt false ∧
    (opU16 (mapCmd 0 0) 34 = 0 ∧ 1 ≤ opU16 (mapCmd 1 1) 34 ∧ opU16 (mapCmd 1 1) 32 + opU16 (mapCmd 1 1) 34 ≤ 4096 ∧ tn.get Fld.NW_CTRL_COMMIT = 0 ∧
      mapped.get Fld.NW_CTRL_COMMIT = 1) ∧
    mapped.readIn { mapCmd 1 1 with busFail := some 0 } 0 0 32 = .error CS.fault ∧
    (∃ b, mapped.readIn (mapCmd 1 2) 0 0 32 = .ok b ∧ ∃ k < opU16 (mapCmd 1 2) 34, 2 ≤ recGet b (32 * k + 19) 1) ∧
    (∃ b, mapped.readIn (mapCmd 1 1) 0 0 32 = .ok b ∧
      ∀ k < opU16 (mapCmd 1 1) 34, recGet b (32 * k + 19) 1 < 2 ∧ ((b.drop (32 * k + 20)).take 12).all (· = 0) = true) :=
  ⟨by decide +kernel, by decide +kernel, by decide +kernel, by decide +kernel, acc (by decide +kernel), acc (by decide +kernel), by decide +kernel,
    isErr (by decide +kernel), ⟨List.replicate 19 0 ++ [2] ++ List.replicate 12 0, isOk (by decide +kernel), 0, by decide +kernel⟩,
    ⟨List.replicate 19 0 ++ [1] ++ List.replicate 12 0, isOk (by decide +kernel), by decide +kernel⟩⟩

/-- Port 0 up with a datagram in tenant 0's queue of class 0, the scheduler enabled. -/
def queued : State :=
  let s := wired.put Fld.TS_CTRL_EN 1
  { s with net := { s.net with queues := [(0, { items := [sentDatagram true], head := some (0, 0), committed := 2 ^ 40, peak := 2 ^ 40 })] } }

/-- A gate list of port 0 that starts at 5, pending or not. -/
def gated (pending at_ : Nat) : State := atYt at_ (mg [(Fld.TS_GATE_START_NS 0, 5), (Fld.TS_GATE_CTRL_PENDING 0, pending)])

/-- Lane 32 wired to port 0 and free. -/
def spared : State := (wired.put (Fld.NW_LANE_WIRED 32) 3).put (Fld.NW_LANE_STATE 32) 1

theorem witness_TrafficAndLinks :
    ((tn.netUp 0 = false ∧ wired.netUp 0 = true) ∧
      (let s := { wired with net := { wired.net with control := [(0, [sentDatagram true])] } };
        (s.controlOf 0).find? s.keyReady = some (sentDatagram true)) ∧
      (wired.controlOf 0).find? wired.keyReady = none ∧ wired.get Fld.TS_CTRL_EN = 0 ∧ queued.get Fld.TS_CTRL_EN = 1 ∧
      (wired.put Fld.TS_CTRL_EN 1).nextHead 0 = none ∧ queued.nextHead 0 = some (0, true)) ∧
    (let n := tn.get Fld.TS_REFILL_NS;
      tn.now / n * n ≤ tn.net.refillAt ∧ tn.net.refillAt < (atYt n tn).now / n * n) ∧
    MayWrite (mg []) (wr 1) (Reg.TS_RATE 7 255 7) ∧ MayWrite (mg []) (wr 1) (Reg.TS_DEPTH 7 255 7) ∧ MayWrite (gated 0 4) (wr 1) (Reg.TS_GATE_CTRL 0) ∧
    ((writeBits (wr 1)).toNat.testBit 0 = true ∧ (writeBits (wr 1)).toNat.testBit 1 = false ∧ (writeBits (wr 2)).toNat.testBit 0 = false ∧
      (writeBits (wr 2)).toNat.testBit 1 = true) ∧
    (let v := (gated 0 4).store (wr 1) (Reg.TS_GATE_CTRL 0);
      v.get (Fld.TS_GATE_CTRL_PENDING 0) = 0 ∧ v.now < v.get (Fld.TS_GATE_START_NS 0)) ∧
    (let v := (gated 0 5).store (wr 1) (Reg.TS_GATE_CTRL 0);
      v.get (Fld.TS_GATE_START_NS 0) ≤ v.now) ∧
    ((gated 1 4).store (wr 2) (Reg.TS_GATE_CTRL 0)).get (Fld.TS_GATE_CTRL_PENDING 0) = 1 ∧
    ((gated 1 4).get (Fld.TS_GATE_CTRL_PENDING 0) = 1 ∧ (gated 1 4).now < (gated 1 4).get (Fld.TS_GATE_START_NS 0) ∧
      (gated 1 5).get (Fld.TS_GATE_START_NS 0) ≤ (gated 1 5).now ∧ gateAt (tn.gateOf 0) tn.now = none ∧
      gateAt ⟨[(255, 10), (1, 10)], 5⟩ 15 = some (1, 1, 25)) ∧
    ((wired.put (Fld.NW_PORT_STATE_LINK 0) 1).get (Fld.NW_PORT_STATE_LINK 0) = 1 ∧ wired.get (Fld.NW_PORT_STATE_LINK 0) ≠ 1 ∧
      (wired.get Fld.CK_MON_STATUS_FAILED).testBit 1 = false ∧ (wired.get Fld.CK_MON_STATUS_FALLBACK).testBit 1 = false ∧
      (∀ i < 4, 4 * 0 + i ∉ wired.units.absentLanes) ∧ (∀ e ∈ wired.net.laneCmd, e.1 ≠ 0) ∧
      ({ wired with net := { wired.net with laneCmd := [(0, okCmd)] } } : State).net.laneCmd = [(0, okCmd)] ∧ spared.laneSpare 0 = some 32 ∧
      wired.laneSpare 0 = none ∧ 4 * 0 + 3 ∉ wired.units.absentLanes ∧ ({ wired.units with absentLanes := [3] } : Units).absentLanes = [4 * 0 + 3]) ∧
    Accepted wired (mcmd 0 0 0 [(32, 1, 7), (33, 1, 3)]) .mgmt false ∧
    (opByte (mcmd 0 0 0 [(32, 1, 8)]) 32 = 8 ∧ opByte (mcmd 0 0 0 [(33, 1, 4)]) 33 = 4 ∧ opByte (mcmd 0 0 0 []) 32 = 0 ∧
      wired.laneSpare (opByte (mcmd 0 0 0 []) 32) = none ∧ spared.laneSpare (opByte (mcmd 0 0 0 []) 32) = some 32) ∧
    (wired.ownAddress (wired.portAddr 0) = some 0 ∧ wired.ownAddress 1 = none) := by
  refine ⟨by decide +kernel, by decide +kernel, may (by decide +kernel), may (by decide +kernel), may (by decide +kernel), by decide +kernel, by decide +kernel,
    by decide +kernel, by decide +kernel, by decide +kernel, by decide +kernel, acc (by decide +kernel), by decide +kernel⟩

/-- Yard Time running from a source on port 0, its last master set. -/
def timed (src : Nat) (master : Option (Nat × Nat)) : State :=
  let s := mg [(Fld.YT_CTRL_RUN, 1), (Fld.YT_CTRL_SRC, src), (Fld.YT_PTP_PORTS, 1), (Fld.YT_PTP_DELAY, 1)]
  { s with yt := { s.yt with ptpMaster := master } }

/-- Yard Time from the PTP master 4, a Sync without its origin time in hand, a delay request out, a peer's answer in hand. -/
def asking (delay : Nat) : State :=
  let s := (timed 2 (some (4, 9))).put Fld.YT_PTP_DELAY delay
  { s with yt := { s.yt with ptpSync := some (6, 70), ptpAsked := some (8, 60), ptpPeer := some (65, 90) } }

/-- Tally 7 bound to tenant 0 and enabled. -/
def tallyState : State := mg [(Fld.TL_CTRL_EN, 1), (Fld.TL_BIND_EN 7, 1)]

theorem witness_YardTimeAndTallyRegisters :
    (State.reset.get Fld.YT_CTRL_RUN = 0 ∧ (timed 1 none).get Fld.YT_CTRL_RUN = 1 ∧ -1000000000 ≤ (timed 1 none).ratePpb) ∧
    MayWrite (mg []) (wr 1) Reg.YT_CTRL ∧
    (∃ n, ((mg []).store (wr n) Reg.YT_CTRL).get Fld.YT_CTRL_RUN = 1 ∧ ((mg []).store (wr n) Reg.YT_CTRL).get Fld.YT_CTRL_SRC = 0) ∧
    (((mg []).store (wr 0) Reg.YT_CTRL).get Fld.YT_CTRL_RUN = 0) ∧
    ((timed 1 none).get Fld.YT_CTRL_SRC = 1 ∧ (timed 3 none).get Fld.YT_CTRL_SRC = 3 ∧ (timed 3 none).yt.ptpMaster = none ∧
      (atYt 1500000000 (timed 1 none)).now % 1000000000 ≤ 500000000 ∧ 500000000 < (atYt 1500000001 (timed 1 none)).now % 1000000000 ∧
      (let s := timed 1 none;
        let v := ((s.put Fld.YT_PPS_STAMP_NS s.now).setYt { s.yt with lastPps := some s.now }).put Fld.YT_STATUS_HOLDOVER 0;
        0 ≤ v.get Fld.YT_LOCK_LIMIT_NS ∧ ({ s.yt with lockRun := 15 } : YardTime).lockRun = 15 ∧
          s.get Fld.YT_STATUS_FALLBACK = 0 ∧ (s.get Fld.CK_MON_STATUS_FAILED).testBit 2 = false)) ∧
    (let s := atYt 1500000000 (timed 1 none);
      s.get Fld.YT_STATUS_HOLDOVER = 0 ∧ s.yt.lastPps.getD (s.get Fld.YT_SET_NS) + 1500000000 ≤ s.now ∧
        (timed 1 none).now < (timed 1 none).yt.lastPps.getD ((timed 1 none).get Fld.YT_SET_NS) + 1500000000) ∧
    (let s := timed 2 (some (4, 9));
      s.get Fld.YT_CTRL_SRC = 2 ∧ (s.get Fld.CK_MON_STATUS_FALLBACK).testBit 1 = false ∧ (s.get Fld.CK_MON_STATUS_FAILED).testBit 1 = false ∧
        (s.get Fld.YT_PTP_PORTS).testBit 0 = true ∧ s.get Fld.YT_PTP_DOMAIN = 0 ∧ s.yt.ptpMaster = some (4, 9) ∧ s.get Fld.YT_PTP_DELAY = 1) ∧
    ((timed 2 none).yt.ptpMaster = none ∧ ((4 : Nat) = 4 ∨ (10 : Nat) < 9) ∧ (5 : Nat) ≠ 4 ∧ (9 : Nat) ≤ 9) ∧
    (∀ delay < 2, let s := asking delay;
      s.get Fld.YT_CTRL_SRC = 2 ∧ (s.get Fld.CK_MON_STATUS_FALLBACK).testBit 1 = false ∧ (s.get Fld.CK_MON_STATUS_FAILED).testBit 1 = false ∧
        (s.get Fld.YT_PTP_PORTS).testBit 0 = true ∧ s.get Fld.YT_PTP_DOMAIN = 0 ∧ s.yt.ptpMaster.map (·.1) = some 4 ∧ s.yt.ptpMaster.map (·.1) ≠ some 5 ∧
        s.yt.ptpSync = some (6, 70) ∧ s.yt.ptpSync.map (·.1) ≠ some 7 ∧ s.yt.ptpAsked = some (8, 60) ∧ s.yt.ptpPeer = some (65, 90) ∧
        s.get Fld.YT_PTP_DELAY = delay ∧ ∃ e : Bool, s.get Fld.YT_PTP_TRANSPORT = 1 ↔ e = true) ∧
    ((timed 1 none).get Fld.YT_CTRL_SRC < 2 ∧ (∃ e : Bool, (timed 2 none).get Fld.YT_PTP_TRANSPORT = 1 ↔ (⟨0, 0, e, .peerRequest 0⟩ : PtpMsg).ethernet = true)) ∧
    MayWrite (mg []) (wr 1) Reg.TL_HOST_SIG ∧
    (tallyState.tallyCheck (tallyState.get (Fld.TL_BIND_TENANT 7)) 7 1 = none ∧ (tallyState.signal 7 1).1 = CS.ok ∧ (mg []).tallyCheck 0 7 1 = some CS.notReady ∧
      ((tallyState.setTally 7 { sig := 0xFFFFFFFF }).tallyCheck 0 7 1 = none ∧ ((tallyState.setTally 7 { sig := 0xFFFFFFFF }).signal 7 1).1 ≠ CS.ok) ∧
      (writeBits (wr 0x10007)).toNat % 8192 = 7 ∧ (writeBits (wr 0x10007)).toNat / 2 ^ 16 % 65536 = 1) ∧
    MayWrite tallyState (wr 0) (Reg.TL_BIND 8191) ∧
    (tallyState.get (Fld.TL_BIND_EN 7) = 1 ∧ tallyState.wouldGet (wr 0) (Fld.TL_BIND_EN 7) = 0 ∧
      tallyState.wouldGet (wr 0) (Fld.TL_BIND_TENANT 8191) = tallyState.get (Fld.TL_BIND_TENANT 8191) ∧ tallyState.get (Fld.TL_BIND_EN 8191) = 0 ∧
      ∃ n, tallyState.wouldGet (wr n) (Fld.TL_BIND_TENANT 7) ≠ tallyState.get (Fld.TL_BIND_TENANT 7)) ∧
    MayWrite (mg []) (wr 1) Reg.TL_SNAP_SEL := by
  refine ⟨by decide +kernel, may (by decide +kernel), ⟨1, by decide +kernel⟩, by decide +kernel, by decide +kernel, by decide +kernel, by decide +kernel,
    by decide +kernel, by decide +kernel, ?_,
    may (by decide +kernel), by decide +kernel, may (by decide +kernel), ⟨by decide +kernel, by decide +kernel, by decide +kernel, by decide +kernel, 0xFF, by decide +kernel⟩,
    may (by decide +kernel)⟩
  exact ⟨by decide +kernel, decide ((timed 2 none).get Fld.YT_PTP_TRANSPORT = 1), by simp⟩
/-! ### Witnesses: security -/

theorem slice (pre b post : List Byte) : tabulate b.length (fun i => (pre ++ (b ++ post)).getD (pre.length + i) 0) = b := by
  apply List.ext_getElem
  · simp [tabulate]
  · intro i h1 h2
    simp [tabulate, List.getD_eq_getElem?_getD, List.getElem?_append, h2]

/-- What the host returns where the bus does not fail. -/
theorem hostRead {s : State} {c : Cmd} {q a : Nat} (pre b post : List Byte) (hi : c.issuer = .queue q) (h : s.isDetached c = false ∧ c.busFail = none)
    (hd : c.data = pre ++ (b ++ post)) : s.readIn c a pre.length b.length = .ok b := by
  simp only [State.readIn, hi, h.1, h.2, hd, slice]
  rfl

theorem bytes_nat : ∀ n v : Nat, natOfBytes (bytesOf n v) = v % 256 ^ n := by
  intro n
  induction n with
  | zero => intro v; simp [bytesOf, natOfBytes, Nat.mod_one]
  | succ n ih =>
    intro v
    have h : (BitVec.ofNat 8 v).toNat = v % 256 := by simp
    rw [bytesOf, natOfBytes, h, ih, Nat.pow_succ, Nat.mul_comm (256 ^ n) 256, Nat.mod_mul]

/-- A key blob (R455) with no policy mask. -/
def blob (kind target serial : Nat) (policy allow : List Byte) : List Byte :=
  bytesOf 4 0x4B424C42 ++ ([1, BitVec.ofNat 8 kind] ++ (bytesOf 2 target ++ (bytesOf 8 serial ++ (bytesOf 8 0 ++ (policy ++ (allow ++ List.replicate 224 0))))))

theorem sha384_length (l : List Byte) : (Config.sha384 l).length = 48 := by simp [Config.sha384]

theorem blob_serial (kind target n : Nat) (p a : List Byte) (h : n < 2 ^ 64) : recGet (blob kind target n p a) 8 8 = n := by
  have : ((blob kind target n p a).drop 8).take 8 = bytesOf 8 n := by simp [blob, bytesOf]
  rw [recGet, this, bytes_nat, Nat.mod_eq_of_lt (by omega)]

theorem blob_policy (kind target n : Nat) (p a : List Byte) (h : p.length = 48) : ((blob kind target n p a).drop 24).take 48 = p := by
  have : (blob kind target n p a).drop 24 = p ++ (a ++ List.replicate 224 0) := by simp [blob, bytesOf]
  rw [this, ← h, List.take_left']
  rfl

theorem blob_allow (kind target n : Nat) (p a : List Byte) (h : p.length = 48 ∧ a.length = 48) : ((blob kind target n p a).drop 72).take 48 = a := by
  have h1 : (blob kind target n p a).drop 24 = p ++ (a ++ List.replicate 224 0) := by simp [blob, bytesOf]
  have h2 : (blob kind target n p a).drop 72 = a ++ List.replicate 224 0 := by
    have : (blob kind target n p a).drop 72 = ((blob kind target n p a).drop 24).drop 48 := by rw [List.drop_drop]
    rw [this, h1, ← h.1, List.drop_left']
    rfl
  rw [h2, ← h.2, List.take_left']
  rfl

theorem blob_length (kind target n : Nat) (p a : List Byte) (h : p.length = 48 ∧ a.length = 48) : (blob kind target n p a).length = 344 := by
  simp only [blob, bytesOf, List.length_append, List.length_cons, List.length_nil, List.length_replicate, h.1, h.2]

/-- A blob of the device's own serial number whose policy digest, over no measurement, is right. -/
def goodBlob (kind target : Nat) (allow : List Byte) : List Byte := blob kind target Config.serial.toNat (Config.sha384 []) allow

/-- A command of the management queue that brings data. -/
def bringing (n : Nat) (data : List Byte) : Cmd := { mcmd 0 0 0 [(32, 1, n)] with data := data }

/-- Security committed. -/
def secured : State := mg [(Fld.SEC_CTRL_COMMIT, 1)]

/-- The same from tenant 0's queue, security committed. -/
def ownSecured : State := tn.put Fld.SEC_CTRL_COMMIT 1

theorem bringing_accepted (n : Nat) (hn : n ∈ [0, 1, 17]) (data : List Byte) : Accepted secured (bringing n data) .both true := by
  have h : secured.fenceWaits (bringing n data) = secured.fenceWaits (bringing n []) ∧ secured.gate (bringing n data) .both true = secured.gate (bringing n []) .both true := ⟨rfl, rfl⟩
  rw [Accepted, h.1, h.2]
  have : ∀ n ∈ [0, 1, 17], (!secured.fenceWaits (bringing n []) && (secured.gate (bringing n []) .both true).isNone) = true := by decide +kernel
  exact acc (this n hn)

theorem ownBringing_accepted (data : List Byte) : Accepted ownSecured { cmd 0 0 0 [(32, 1, 1)] with data := data } .both false := by
  have h : ∀ d, ownSecured.fenceWaits { cmd 0 0 0 [(32, 1, 1)] with data := d } = ownSecured.fenceWaits (cmd 0 0 0 [(32, 1, 1)]) ∧
      ownSecured.gate { cmd 0 0 0 [(32, 1, 1)] with data := d } .both false = ownSecured.gate (cmd 0 0 0 [(32, 1, 1)]) .both false := fun _ => ⟨rfl, rfl⟩
  rw [Accepted, (h data).1, (h data).2]
  exact acc (by decide +kernel)

/-- The key blobs of a yard key, an own serial number, another; of a model domain with its list of one digest. The outcomes of the cipher and of the digest are
opaque: a blob unwraps or does not. -/
theorem witness_SecurityCommands_blob :
    (∀ n ∈ [0, 1, 17], ∀ data, Accepted secured (bringing n data) .both true) ∧
    ((∀ data, Accepted ownSecured { cmd 0 0 0 [(32, 1, 1)] with data := data } .both false) ∧ ownSecured.issuerTenant (cmd 0 0 0 []).issuer = some 0) ∧
    (secured.readIn { bringing 1 [] with busFail := some 0 } 0 0 344 = .error CS.fault ∧ secured.readIn { bringing 1 [] with busFail := some 350 } 0 344 48 = .error CS.fault) ∧
    (∀ a, a.length = 48 → secured.readIn (bringing 1 (goodBlob 6 255 a)) 0 0 344 = .ok (goodBlob 6 255 a)) ∧
    blobMalformed [] = true ∧ blobMalformed (goodBlob 6 255 (List.replicate 48 0)) = false ∧
    blobMalformed (goodBlob 2 0 (Config.sha384 (List.replicate 48 7))) = false ∧ (∀ kind target, blobAllowed none kind target = true) ∧
    blobAllowed (some 0) 6 255 = false ∧
    (∀ kind target a, recGet (goodBlob kind target a) 8 8 = Config.serial.toNat) ∧
    recGet (blob 6 255 ((Config.serial.toNat + 1) % 2 ^ 64) (Config.sha384 []) []) 8 8 ≠ Config.serial.toNat ∧
    (secured.get Fld.SEC_CTRL_COMMIT = 1 ∧ (mg []).get Fld.SEC_CTRL_COMMIT = 0) ∧
    (∀ kind target a, ((goodBlob kind target a).drop 24).take 48 = secured.policyDigest 0) ∧
    (secured.readIn (bringing 1 (goodBlob 2 0 (Config.sha384 (List.replicate 48 7)) ++ List.replicate 48 7)) 0 344 48 = .ok (List.replicate 48 7) ∧
      ((goodBlob 2 0 (Config.sha384 (List.replicate 48 7))).drop 72).take 48 = Config.sha384 (List.replicate 48 7)) ∧
    (secured.blobTaken 6 255 = false ∧ (secured.put (Fld.SEC_DOM_INSTALLED 0) 1).blobTaken 0 0 = true) := by
  have hl := sha384_length
  refine ⟨bringing_accepted, ⟨ownBringing_accepted, rfl⟩, ⟨isErr (by decide +kernel), isErr (by decide +kernel)⟩, ?_, by decide +kernel, by decide +kernel, by decide +kernel, fun _ _ => rfl, by decide +kernel,
    fun k t a => blob_serial k t _ _ _ Config.serial.isLt, ?_, by decide +kernel, ?_, ⟨?_, blob_allow _ _ _ _ _ ⟨hl _, hl _⟩⟩, by decide +kernel⟩
  · intro a ha
    have := hostRead (s := secured) (a := 0) (c := bringing 1 (goodBlob 6 255 a)) (q := 4096) [] (goodBlob 6 255 a) [] rfl ⟨by rfl, rfl⟩ (by simp [bringing])
    rwa [goodBlob, blob_length _ _ _ _ _ ⟨hl _, ha⟩] at this
  · rw [blob_serial _ _ _ _ _ (Nat.mod_lt _ (by decide))]
    have := Config.serial.isLt
    omega
  · intro kind target a
    have hp : secured.policyDigest 0 = Config.sha384 [] := by
      have : (List.range 10).filter (Nat.testBit 0) = [] := by decide
      rw [State.policyDigest, this]
      rfl
    rw [hp]
    exact blob_policy _ _ _ _ _ (hl _)
  · have h := hostRead (s := secured) (a := 0) (c := bringing 1 (goodBlob 2 0 (Config.sha384 (List.replicate 48 7)) ++ List.replicate 48 7)) (q := 4096)
      (goodBlob 2 0 (Config.sha384 (List.replicate 48 7))) (List.replicate 48 7) [] rfl ⟨by rfl, rfl⟩ (by simp only [bringing, List.append_nil])
    have h3 : (goodBlob 2 0 (Config.sha384 (List.replicate 48 7))).length = 344 := blob_length _ _ _ _ _ ⟨hl _, hl _⟩
    have h4 : (List.replicate 48 (7 : Byte)).length = 48 := List.length_replicate
    rw [← h3]
    exact h4 ▸ h

/-- Port 0 up with SPDM sessions. -/
def spdmPort (l : List SpdmSession) : State :=
  let s := mg [(Fld.GC_PORT_STATE_LINK 0, 2), (Fld.SEC_STATE_CERT_LOADED, 1)]
  { s with sec := { s.sec with sessions := [(0, l)] } }

/-- Four sessions of a port. -/
def fourSessions : List SpdmSession := [⟨0, true, none⟩, ⟨1, false, none⟩, ⟨2, true, none⟩, ⟨3, true, none⟩]

/-- Network port 0 under MACsec with its CAK and peers. -/
def macsec (peers : List Nat) : State :=
  let s := mg [(Fld.SEC_NET_MODE, 1), (Fld.SEC_MACSEC_EN 0, 1), (Fld.SEC_MACSEC_CAK_LOADED 0, 1)]
  { s with sec := { s.sec with peers := [(0, peers)] } }

theorem witness_SecurityCommands_sessions :
    ((mg []).io.portUp 0 = false ∧ (spdmPort []).io.portUp 0 = true ∧ (∀ x ∈ (spdmPort fourSessions).sessionsOf 0, x.id ≠ 4) ∧
      needsCert (.keyExchange 0) = true ∧ (mg []).get Fld.SEC_STATE_CERT_LOADED = 0 ∧ (spdmPort []).get Fld.SEC_STATE_CERT_LOADED = 1 ∧
      measureIndices 10 ≠ [] ∧ ((spdmPort []).sessionsOf 0).length < 4 ∧ 4 ≤ ((spdmPort fourSessions).sessionsOf 0).length ∧
      (fourSessions.drop 1).find? (fun x => x.id = 1) = some ⟨1, false, none⟩ ∧ ((spdmPort fourSessions).sessionsOf 0).find? (fun x => x.id = 0) = some ⟨0, true, none⟩) ∧
    ((mg []).get (Fld.GC_PORT_STATE_TDI 0) = 0 ∧ (mg [(Fld.GC_PORT_STATE_TDI 0, 1)]).get (Fld.GC_PORT_STATE_TDI 0) = 1 ∧
      (mg [(Fld.GC_PORT_STATE_TDI 3, 2)]).get (Fld.GC_PORT_STATE_TDI 3) = 2) ∧
    ((mg []).secyRuns 0 = false ∧ (macsec []).secyRuns 0 = true ∧ (9 : BitVec 64).toNat ∉ (macsec (List.range' 10 63)).peersOf 0 ∧
      ((macsec (List.range' 10 63)).peersOf 0).length < 64 ∧ (9 : BitVec 64).toNat ∉ (macsec (List.range' 10 64)).peersOf 0 ∧
      64 ≤ ((macsec (List.range' 10 64)).peersOf 0).length ∧ (macsec []).peersOf 0 = [] ∧ (macsec [7]).peersOf 0 ≠ [] ∧
      (7 : BitVec 64).toNat ∈ (macsec [7]).peersOf 0) := by decide +kernel

/-- Port 0 in write service with a free block on each channel, two bands' capacity; the keys of model domain 512. -/
def importable : State :=
  let s := mg [(Fld.SH_PORT_INFO_IN_SERVICE 0, 1), (Fld.SH_PORT_INFO_PAGES 0, 1), (Fld.SEC_DOM_INSTALLED 512, 1)]
  { s with shed := [(0, { goodAtTrain := 40, blocks := (List.range 16).map (fun c => ⟨c, .free, 0, 0⟩) })] }

/-- An import in operation slot 0, nothing written. -/
def importingOf (len parking : Nat) : State :=
  let s := importable.put Fld.PW_STATUS_PARKING parking
  { s with
    ops := [(0, { live := true, st := .running, opcode := 0xA2 })]
    sec := { s.sec with imports := [⟨0, 512, 0, len, 0, [(0, 0)], false⟩] } }

/-- One of 128 bytes. -/
def importing (parking : Nat) : State := importingOf 128 parking

theorem witness_SecurityCommands :
    (Accepted secured (mcmd 0 0 0 [(32, 1, 1)]) .mgmt false ∧ Accepted (mg []) (mcmd 0 0 0 [(32, 1, 1)]) .mgmt false ∧ (mg []).get Fld.SEC_CTRL_COMMIT = 0 ∧
      Accepted secured (mcmd 0 0 0 []) .mgmt false ∧ secured.readIn { mcmd 0 0 0 [(36, 4, 16)] with busFail := some 0 } 0 0 16 = .error CS.fault) ∧ Accepted secured (mcmd 0 0 0 [(36, 4, 16)]) .both false ∧
    AcceptedHeld importable (mcmd 0 0 0 [(32, 2, 512), (34, 1, 1), (40, 8, 64)]) .mgmt false ∧
    (blobTargetOk 7 0 = false ∧ blobTargetOk 0 255 = true ∧ (mg [(Fld.TN_CTRL_EN 0, 1)]).keyInUse 0 0 = true ∧ (mg []).keyInUse 0 0 = false ∧
      opByte (mcmd 0 0 0 [(32, 1, 2)]) 32 = 2 ∧ opByte (mcmd 0 0 0 [(32, 1, 1)]) 32 = 1 ∧ opByte (mcmd 0 0 0 []) 32 = 0) ∧
    (∃ b, secured.readIn (mcmd 0 0 0 [(36, 4, 16)]) 0 0 (opU32 (mcmd 0 0 0 [(36, 4, 16)]) 36) = .ok b) ∧
    (sparseGet [] secured.sec.certs 0 = [] ∧
      (let s := { secured with sec := { secured.sec with certs := [(0, [1])] } };
        sparseGet [] s.sec.certs 0 ≠ [] ∧ ∃ u, s.writeOut (mcmd 0 0 0 []) 0 (sparseGet [] s.sec.certs 0) = .ok u)) ∧
    (opU32 (mcmd 0 0 0 [(36, 4, 15)]) 36 < 16 ∧ opU32 (mcmd 0 0 0 [(36, 4, 16)]) 36 = 16 ∧
      ∃ u, (secured.drawRandom 2 []).2.writeOut (mcmd 0 0 0 [(36, 4, 16)]) 0 (secured.drawRandom 2 []).1 = .ok u) ∧
    (let c := mcmd 0 0 0 [(32, 2, 512), (34, 1, 1), (40, 8, 64)];
      opU16 c 32 = 512 ∧ (List.range 8).filter (opByte c 34).testBit = [0] ∧ opU64 c 40 = 64 ∧ importable.domainInstalled 512 = true ∧
        importable.domainInstalled 513 = false ∧ importable.portWritable 0 = true ∧ importable.portWritable 1 = false ∧
        ((importable.takeStripes [0] 64).map (fun r => (r.1, (r.2.op 0).live)) = some ([(0, 0)], false)) ∧ (importable.takeStripes [0] (2 ^ 40) = none) ∧
        opU64 (mcmd 0 0 0 []) 40 = 0) ∧
    (secured.sec.imports.find? (fun x => x.op = 0 && x.live) = none ∧
      (importing 0).sec.imports.find? (fun x => x.op = 0 && x.live) = some ⟨0, 512, 0, 128, 0, [(0, 0)], false⟩ ∧ (importing 1).get Fld.PW_STATUS_PARKING = 1 ∧
      (importing 0).get Fld.PW_STATUS_PARKING = 0 ∧ ((importing 0).op 0).st = .running ∧ (2 ^ 20 : Nat) < 2 ^ 21 ∧
      (importingOf (2 ^ 21) 0).sec.imports.find? (fun x => x.op = 0 && x.live) = some ⟨0, 512, 0, 2 ^ 21, 0, [(0, 0)], false⟩ ∧
      ((importing 0).put (Fld.SEC_DOM_INSTALLED 512) 0).domainInstalled 512 = false) ∧
    ((st []).unitsRun = false ∧ (st [(Fld.BU_STATE_STATE, 6)]).unitsRun = true) := by
  refine ⟨⟨acc (by decide +kernel), acc (by decide +kernel), by decide +kernel, acc (by decide +kernel), isErr (by decide +kernel)⟩, acc (by decide +kernel), held (by decide +kernel), by decide +kernel, ⟨_, rfl⟩, ⟨by decide +kernel, by decide +kernel, ⟨_, rfl⟩⟩,
    ⟨by decide +kernel, by decide +kernel, ⟨_, rfl⟩⟩, by decide +kernel⟩
/-! ### Witnesses: bring-up -/

/-- A range of Hive 0 in channel 0 that nothing owns may be placed. -/
theorem placeLowly {s : State} {a n : Nat} (h : (decide (n ≠ 0) && decide (a + n ≤ 2 ^ 31) && !s.hiveAbsent 0 && (s.physicalChannel 0 0).isSome &&
    s.t1.allFree (a / 4096) ((a + n - 1) / 4096 - a / 4096 + 1)) = true) : s.placeable a n = true := by
  simp only [Bool.and_eq_true, decide_eq_true_eq, Bool.not_eq_true'] at h
  obtain ⟨⟨⟨⟨hn, ha⟩, hh⟩, hp⟩, hf⟩ := h
  have hc := channel_cases
  have hr := hive_room
  have hv : hiveOf a = 0 := by unfold hiveOf; omega
  have ho : offsetOf a + n ≤ hiveBytes := by unfold offsetOf; omega
  have h4 : a / 2 ^ 40 = 0 := by omega
  simp only [State.placeable, hv, hn, ho, hh, hf, h4, ne_eq, not_false_eq_true, decide_true, Bool.not_false, Bool.and_self, Bool.true_and, List.all_eq_true,
    List.mem_range, Bool.or_eq_true, decide_eq_true_eq]
  intro c hc16
  by_cases h0 : c = 0
  · subst h0
    exact .inl (.inl hp)
  · refine .inl (.inr ?_)
    have : channelBytes ≤ c * channelBytes := Nat.le_mul_of_pos_left _ (by omega)
    omega

/-- The state of bring-up. -/
def bring (state : Nat) : State := mg [(Fld.BU_STATE_STATE, state)]

/-- A load of an image of 64 bytes in progress. -/
def loadingImage : State := { bring 2 with bu := { loading := some (2, 0, 64) } }

/-- The end of a step leaves no condition of R507 changed. -/
theorem steppedMinimum (s : State) : (s.stepEnded 4).belowMinimum = s.belowMinimum := by
  have hg : ∀ g : RegField, g.off ≠ Reg.BU_STEP_US 4 → (s.stepEnded 4).get g = s.get g := fun g h => Laws.get_put_other _ _ _ _ (.inl h)
  have hl : ∀ a b, (s.stepEnded 4).get (Fld.HB_CH_LOGICAL a b) = s.get (Fld.HB_CH_LOGICAL a b) := fun a b => hg _ (by simp only [Reg.HB_CH, Reg.BU_STEP_US]; omega)
  have hs : ∀ a b, (s.stepEnded 4).get (Fld.HB_CH_STATE a b) = s.get (Fld.HB_CH_STATE a b) := fun a b => hg _ (by simp only [Reg.HB_CH, Reg.BU_STEP_US]; omega)
  have hc : ∀ h, (s.stepEnded 4).channelsInUse h = s.channelsInUse h := fun h => by simp only [State.channelsInUse, State.physicalChannel, hl, hs]
  have hp : ∀ n, (s.stepEnded 4).io.portUp n = s.io.portUp n := fun n => by
    have : (s.stepEnded 4).get (Fld.GC_PORT_STATE_LINK n) = s.get (Fld.GC_PORT_STATE_LINK n) := hg _ (by simp only [Reg.GC_PORT_STATE, Reg.BU_STEP_US]; omega)
    simp only [Io.portUp]
    exact congrArg (fun v => decide (v = 2)) this
  have hb : (s.stepEnded 4).get Fld.BU_STRAP_PORT = s.get Fld.BU_STRAP_PORT := hg _ (by decide)
  simp only [State.belowMinimum, hc, hp, hb]
  rfl

theorem allGood {n : Nat} {good : Nat → Bool} {spares : List Nat} (h : ∀ i < n, good i = true) : bindSpareUnits n good spares = ([], []) := by
  have : (List.range n).filter (fun i => !good i) = [] := by
    rw [List.filter_eq_nil_iff]
    intro i hi
    simp [h i (List.mem_range.mp hi)]
  simp [bindSpareUnits, this]

theorem fold_get {α : Type} (g : RegField) (f : State → α → State) : ∀ (l : List α) (s : State), (∀ s, ∀ a ∈ l, (f s a).get g = s.get g) → (l.foldl f s).get g = s.get g := by
  intro l
  induction l with
  | nil => intro s _; rfl
  | cons a l ih =>
    intro s h
    rw [List.foldl_cons, ih _ (fun s b hb => h s b (List.mem_cons_of_mem _ hb)), h s a List.mem_cons_self]

theorem put_get (s : State) (f g : RegField) (x : Nat) (h : g.off ≠ f.off) : (s.put f x).get g = s.get g := Laws.get_put_other _ _ _ _ (.inl h)

/-- Binding the channels of another Hive leaves those of Hive 0. -/
theorem bind_other {s : State} {h p : Nat} {g : RegField} (hh : h ≠ 0) (hp : p < 17) (hg : g.off = Reg.HB_CH 0 p) : (s.bindChannels h).get g = s.get g := by
  have ho : ∀ q, g.off ≠ Reg.HB_CH h q ∨ 17 ≤ q := fun q => by
    rw [hg]
    simp only [Reg.HB_CH]
    omega
  have h16 : g.off ≠ Reg.HB_CH h 16 := by have := ho 16; omega
  have hf2 : ((List.range 16).foldl (fun (t : State) p =>
      if s.unitGood 1 h p then (t.put (Fld.HB_CH_LOGICAL h p) p).put (Fld.HB_CH_STATE h p) 0
      else (t.put (Fld.HB_CH_LOGICAL h p) 31).put (Fld.HB_CH_STATE h p) 4) s).get g = s.get g := by
    refine fold_get g _ _ _ (fun t a ha => ?_)
    have := List.mem_range.mp ha
    have hne : g.off ≠ Reg.HB_CH h a := by have := ho a; omega
    split <;> rw [put_get _ _ _ _ hne, put_get _ _ _ _ hne]
  unfold State.bindChannels
  dsimp only
  split <;> rw [put_get _ _ _ _ h16, put_get _ _ _ _ h16, hf2]

theorem search_same {p q : Nat → Bool} : ∀ (n i : Nat), (∀ j, i ≤ j → j < i + n → p j = q j) → searchFrom p i n = searchFrom q i n := by
  intro n
  induction n with
  | zero => intro i _; rfl
  | succ n ih =>
    intro i h
    rw [searchFrom, searchFrom, h i (Nat.le_refl _) (by omega), ih (i + 1) (fun j h1 h2 => h j (by omega) (by omega))]

theorem channels_of {u v : State} (h : ∀ g : RegField, ∀ p < 17, g.off = Reg.HB_CH 0 p → u.get g = v.get g) : u.channelsInUse 0 = v.channelsInUse 0 := by
  simp only [State.channelsInUse, State.physicalChannel, firstBelow]
  refine congrArg List.length (List.filter_congr (fun c _ => congrArg Option.isSome (search_same 17 0 (fun j _ hj => ?_))))
  rw [h (Fld.HB_CH_LOGICAL 0 j) j (by omega) rfl, h (Fld.HB_CH_STATE 0 j) j (by omega) rfl]

/-- Every Hive's channels bound: Hive 0 has as many in use as its own binding gives it. -/
theorem bound_channels (s : State) : ((List.range 16).foldl (fun (s : State) h => s.bindChannels h) s).channelsInUse 0 = (s.bindChannels 0).channelsInUse 0 := by
  have h0 : List.range 16 = 0 :: List.range' 1 15 := by decide
  rw [h0, List.foldl_cons]
  refine channels_of (fun g p hp hg => fold_get g _ _ _ (fun t h hh => bind_other ?_ hp hg))
  have := (List.mem_range'_1.mp hh).1
  omega

theorem even_sum (l : List Nat) : ∀ m, m % 2 = 0 → (∀ h ∈ l, h ≠ 0) → (l.foldl (fun m h => m + 2 ^ h) m) % 2 = 0 := by
  induction l with
  | nil => intro m hm _; exact hm
  | cons a l ih =>
    intro m hm h
    rw [List.foldl_cons]
    refine ih _ ?_ (fun x hx => h x (List.mem_cons_of_mem _ hx))
    have ha := h a List.mem_cons_self
    obtain ⟨b, rfl⟩ : ∃ b, a = b + 1 := ⟨a - 1, by omega⟩
    rw [Nat.pow_succ]
    omega

/-- The conditions of R507 where Hive 0 serves and nothing is lost. -/
theorem minimumOf {v : State} (hu : v.units.groom = some 0 ∧ v.units.enginesLost = [] ∧ v.units.hostLost = 0 ∧ v.units.absentCells = [])
    (hd : v.hiveAbsent 0 = false) (hc : 4 ≤ v.channelsInUse 0) : v.belowMinimum = 0 := by
  have he : ∀ k i, v.engineLost k i = false := fun k i => by simp [State.engineLost, hu.2.1]
  have hcell : ∀ c < 2, v.cellsInComb c = 256 := fun c hc => by
    have : c / 2 = 0 := by omega
    simp [State.cellsInComb, this, hd, hu.2.2.2]
  have hhive : ((List.range 16).any (fun h => !v.hiveAbsent h && decide (4 ≤ v.channelsInUse h) &&
      (decide (16 ≤ v.cellsInComb (2 * h)) || decide (16 ≤ v.cellsInComb (2 * h + 1))))) = true := by
    rw [List.any_eq_true]
    exact ⟨0, by decide, by simp [hd, hc, hcell]⟩
  have hport : ((List.range 4).any (fun n => !v.units.hostLost.testBit n && (decide (n ≠ v.get Fld.BU_STRAP_PORT) || v.io.portUp n))) = true := by
    rw [List.any_eq_true]
    by_cases h : v.get Fld.BU_STRAP_PORT = 0
    · exact ⟨1, by decide, by simp [hu.2.2.1, h]⟩
    · exact ⟨0, by decide, by simp [hu.2.2.1, Ne.symm h]⟩
  simp only [State.belowMinimum, hhive, hport, he, hu.1]
  rfl

theorem fold_units {α : Type} (f : State → α → State) (hf : ∀ s a, (f s a).units = s.units) : ∀ (l : List α) (s : State), (l.foldl f s).units = s.units := by
  intro l
  induction l with
  | nil => intro s; rfl
  | cons a l ih => intro s; rw [List.foldl_cons, ih, hf]

/-- The channels of dead Hives marked absent. -/
def unbound (l : List Nat) (w : State) : State :=
  l.foldl (fun s h => (List.range 17).foldl (fun s p => (s.put (Fld.HB_CH_LOGICAL h p) 31).put (Fld.HB_CH_STATE h p) 5) s) w

theorem unbound_units (l : List Nat) (w : State) : (unbound l w).units = w.units := by
  refine fold_units _ (fun s h => ?_) l w
  exact fold_units (fun s p => (s.put (Fld.HB_CH_LOGICAL h p) 31).put (Fld.HB_CH_STATE h p) 5) (fun _ _ => rfl) _ s

/-- The same where other Hives are dead. -/
theorem minimumLeft {w : State} {l : List Nat} {a : Nat} (h0 : 0 ∉ l) (ha : a.testBit 0 = false)
    (hu : w.units.groom = some 0 ∧ w.units.enginesLost = [] ∧ w.units.hostLost = 0 ∧ w.units.absentCells = []) (hc : 4 ≤ w.channelsInUse 0) :
    ({ unbound l w with t1 := { (unbound l w).t1 with absent := a } } : State).belowMinimum = 0 := by
  have hch : (unbound l w).channelsInUse 0 = w.channelsInUse 0 := by
    refine channels_of (fun g p hp hg => fold_get g _ _ _ (fun t h hh => fold_get g _ _ _ (fun u q hq => ?_)))
    have hne : h ≠ 0 := fun e => h0 (e ▸ hh)
    have ho : g.off ≠ Reg.HB_CH h q := by
      rw [hg]
      simp only [Reg.HB_CH]
      have := List.mem_range.mp hq
      omega
    rw [put_get _ _ _ _ ho, put_get _ _ _ _ ho]
  refine minimumOf ?_ ha ?_
  · show (unbound l w).units.groom = some 0 ∧ (unbound l w).units.enginesLost = [] ∧ (unbound l w).units.hostLost = 0 ∧ (unbound l w).units.absentCells = []
    rw [unbound_units]
    exact hu
  · exact hch ▸ hc

/-- Nothing found failed, and Hive 0's channels bound: the minimum of R507 is met. -/
theorem minimumMet {s : State} (hr : s.bu = {}) (hc : 4 ≤ (s.bindChannels 0).channelsInUse 0) : (s.bindUnits []).belowMinimum = 0 := by
  have hb : ∀ t : State, ∀ h, (t.bindChannels h).bu = t.bu := by
    intro t h
    have : ∀ (g : Nat → Bool) (l : List Nat) (u : State), (l.foldl (fun (t : State) p =>
        if g p then (t.put (Fld.HB_CH_LOGICAL h p) p).put (Fld.HB_CH_STATE h p) 0
        else (t.put (Fld.HB_CH_LOGICAL h p) 31).put (Fld.HB_CH_STATE h p) 4) u).bu = u.bu := by
      intro g l
      induction l with
      | nil => intro u; rfl
      | cons a l ih => intro u; rw [List.foldl_cons, ih]; split <;> rfl
    unfold State.bindChannels
    dsimp only
    split <;> exact this _ _ _
  have hz : ((List.range 16).foldl (fun (s : State) h => s.bindChannels h) s).bu = {} := by
    have : ∀ (l : List Nat) (u : State), (l.foldl (fun (s : State) h => s.bindChannels h) u).bu = u.bu := by
      intro l
      induction l with
      | nil => intro u; rfl
      | cons a l ih => intro u; rw [List.foldl_cons, ih, hb]
    rw [this, hr]
  rw [← bound_channels] at hc
  revert hz hc
  unfold State.bindUnits
  generalize (List.range 16).foldl (fun (s : State) h => s.bindChannels h) s = z
  intro hc hz
  have hg : ∀ k h u, z.unitGood k h u = true := fun k h u => by simp [State.unitGood, hz]
  have hcomb : ∀ c, z.bindComb c = ([], []) := fun c => by
    simp only [State.bindComb, allGood (fun i (_ : i < 256) => hg _ _ _)]
    rfl
  have hbad : ∀ k f, z.badUnits k f = [] := fun k f => by simp [State.badUnits, hz]
  have hdead : z.hiveDead 0 = false := by
    have h4 : decide (4 ≤ z.channelsInUse 0) = true := decide_eq_true hc
    simp [State.hiveDead, hg, h4, State.combOut, hcomb]
  have hd : (((List.range 16).filter (fun h => z.hiveDead h)).foldl (fun m h => m + 2 ^ h) 0).testBit 0 = false := by
    have he := even_sum ((List.range 16).filter (fun h => z.hiveDead h)) 0 rfl (fun h hh h0 => by
      rw [h0, List.mem_filter, hdead] at hh
      exact absurd hh.2 (by decide))
    rw [Nat.testBit_zero, he]
    rfl
  have ht2 : bindSpareUnits 8192 (fun _ => true) ((List.range 512).map (fun k => 8192 + k)) = ([], []) := allGood (fun _ _ => rfl)
  have hk2 : bindSpareUnits 8 (fun _ => true) [8, 9] = ([], []) := allGood (fun _ _ => rfl)
  have h0 : 0 ∉ (List.range 16).filter (fun h => z.hiveDead h) := fun h => by
    rw [List.mem_filter, hdead] at h
    exact absurd h.2 (by decide)
  simp only [hcomb, hbad, hg, ht2, hk2]
  exact minimumLeft h0 hd ⟨rfl, rfl, rfl, rfl⟩ hc

theorem lostEngine {s : State} (h : s.engineLost 7 0 = true) : s.belowMinimum ≠ 0 := by
  have : ∀ a b c d e : Bool, ((([a, true, b, c, d, e] : List Bool).zipIdx).foldl (fun m e => if e.1 then m + 2 ^ e.2 else m) 0) ≠ 0 := by decide
  simp only [State.belowMinimum, h]
  exact this _ _ _ _ _

/-- The engines found failed are lost. -/
theorem engines_lost (s : State) (l : List Nat) : ∃ k, (s.bindUnits l).units.enginesLost = (k ++ l).eraseDups := by
  unfold State.bindUnits
  generalize (List.range 16).foldl (fun (s : State) h => s.bindChannels h) s = z
  refine ⟨z.badUnits 6 (fun _ u => u), ?_⟩
  show (unbound _ _).units.enginesLost = _
  rw [unbound_units]
  rw [fold_units (fun s l => s.retireLane l) (fun _ _ => rfl), fold_units (fun s n => s.put (Fld.TL_BIND_ABSENT n) 1) (fun _ _ => rfl)]
  rfl

theorem witness_CommitsAndBringUp_test :
    (((((bring 4).recordFound []).bindUnits []).stepEnded 4).belowMinimum = 0) ∧
    ((((bring 4).recordFound []).bindUnits [256 * 7]).stepEnded 4).belowMinimum ≠ 0 := by
  rw [steppedMinimum, steppedMinimum]
  refine ⟨minimumMet rfl (by decide +kernel), lostEngine ?_⟩
  obtain ⟨k, hk⟩ := engines_lost ((bring 4).recordFound []) [256 * 7]
  rw [State.engineLost, hk]
  simp

theorem witness_CommitsAndBringUp :
    ({ State.reset with t1 := { absent := 0 } } : State).placeable 0 0 = false ∧
    ({ tn with t1 := { absent := 0 } } : State).placeable 65536 64 = true ∧
    (MayWrite (bring 7) (wr 0) Reg.STL_CTRL ∧ (bring 7).get Fld.STL_CTRL_EN = 0 ∧
      (∀ b ∈ [0, 2 ^ 38], (((bring 7).put Fld.STL_DIR_BASE2_BASE b).directoriesTogether = decide (b = 0)))) ∧
    (MayWrite (bring 7) (wr 2) Reg.CK_CTRL ∧ MayWrite (bring 7) (wr 4) Reg.CK_CTRL ∧ (writeBits (wr 4)).toNat.testBit 2 = true) ∧
    (let v := ((bring 7).store (wr 1) Reg.PF_CTRL).enGate Fld.PF_CTRL_EN;
      (bring 7).get Fld.PF_CTRL_EN = 0 ∧ v.get Fld.PF_CTRL_EN = 1 ∧ v.get Fld.PW_STATUS_PARKING = 0) ∧
    (MayWrite loadingImage (wr 258) Reg.BU_LOAD_CMD ∧ (loadingImage.storePut (wr 258) Fld.BU_LOAD_CMD_START 0).get Fld.BU_STATE_STATE = 2 ∧
      2 < ((bring 2).storePut (wr 259) Fld.BU_LOAD_CMD_START 0).get Fld.BU_LOAD_CMD_KIND ∧ MayWrite (bring 2) (wr 259) Reg.BU_LOAD_CMD ∧
      MayWrite (bring 2) (wr 2) Reg.BU_LOAD_CMD ∧ MayWrite (bring 6) (wr 2) Reg.BU_CTRL ∧ (bring 5).topologyAccepted = true) ∧
    (∀ b, Config.imageSigned b = true → loadFault 0 b = none) ∧
    MayWrite (mg [(Fld.BU_STATE_STATE, 7), (Fld.STL_CTRL_EN, 1)]) (wr 2) Reg.STL_CTRL ∧ MayWrite (bring 7) (wr 2) Reg.SCH_CTX_CTRL ∧
    MayWrite (bring 7) (wr 1) Reg.NW_CTRL ∧ MayWrite (bring 7) (wr 1) Reg.SH_CTRL ∧ MayWrite (bring 7) (wr 1) Reg.PW_CTRL ∧ MayWrite (bring 7) (wr 1) Reg.CP_CTRL ∧
    MayWrite (bring 7) (wr 1) Reg.CK_CTRL ∧ MayWrite (bring 7) (wr 1) Reg.PF_CTRL ∧ MayWrite (bring 7) (wr 1) Reg.GC_PORT_CTRL ∧
    MayWrite (bring 7) (wr 1) Reg.SEC_CTRL ∧ MayWrite (bring 2) (wr 258) Reg.BU_LOAD_CMD ∧ MayWrite (bring 2) (wr 1) Reg.BU_CTRL ∧
    (∃ n, let v := (mg [(Fld.BU_STATE_STATE, 7), (Fld.STL_CTRL_EN, 1)]).store (wr n) Reg.STL_CTRL;
      v.get Fld.BU_STATE_STATE = 7 ∧ v.get Fld.STL_CTRL_COMMIT = 1 ∧ (bring 7).get Fld.STL_CTRL_COMMIT = 0) ∧
    (∃ n, let v := (bring 7).store (wr n) Reg.SCH_CTX_CTRL;
      v.get Fld.BU_STATE_STATE = 7 ∧ v.get Fld.SCH_CTX_CTRL_COMMIT = 1 ∧ (bring 7).get Fld.SCH_CTX_CTRL_COMMIT = 0) ∧
    (∃ n, let v := (bring 7).store (wr n) Reg.NW_CTRL;
      v.get Fld.BU_STATE_STATE = 7 ∧ v.get Fld.NW_CTRL_COMMIT = 1 ∧ (bring 7).get Fld.NW_CTRL_COMMIT = 0 ∧ (bring 7).get Fld.NW_CTRL_EN = 0) ∧
    ((writeBits (wr 1)).toNat.testBit 0 = true ∧ (writeBits (wr 1)).toNat.testBit 1 = false ∧ (writeBits (wr 1)).toNat.testBit 2 = false ∧
      (writeBits (wr 2)).toNat.testBit 0 = false ∧ (writeBits (wr 2)).toNat.testBit 1 = true ∧ (writeBits (wr 258)).toNat.testBit 8 = true ∧
      (mg [(Fld.PF_CTRL_EN, 1)]).get Fld.PF_CTRL_EN = 1 ∧ ((bring 7).store (wr 1) Reg.PF_CTRL).get Fld.BU_STATE_STATE = 7) ∧
    ((bring 7).get Fld.SEC_CTRL_COMMIT = 0 ∧ (bring 7).wouldGet (wr 1) Fld.SEC_CTRL_COMMIT = 1 ∧ (bring 7).wouldGet (wr 0) Fld.SEC_CTRL_COMMIT = 0 ∧
      ((bring 7).store (wr 0) Reg.GC_PORT_CTRL).get Fld.GC_PORT_CTRL_COMMIT = 0 ∧
      ∀ n < 4, let v := (bring 7).store (wr 1) Reg.GC_PORT_CTRL;
        v.get (Fld.GC_PORT_CFG_MGMT n) = 1 ∨ (v.get (qEn (4096 + n)) ≠ 1 ∧ v.get (ringEn n) ≠ 1)) ∧
    ((bring 1).get Fld.BU_STATE_STATE = 1 ∧ (bring 2).get Fld.BU_STATE_STATE = 2 ∧ (bring 3).get Fld.BU_STATE_STATE = 3 ∧ (bring 4).get Fld.BU_STATE_STATE = 4 ∧
      (bring 5).get Fld.BU_STATE_STATE = 5 ∧ (bring 6).get Fld.BU_STATE_STATE = 6) ∧
    (let v := ((bring 2).put Fld.BU_LOAD_LEN_BYTES 64).storePut (wr 258) Fld.BU_LOAD_CMD_START 0;
      v.get Fld.BU_STATE_STATE = 2 ∧ v.get Fld.BU_LOAD_CMD_KIND = 2 ∧ v.get Fld.BU_LOAD_LEN_BYTES = 64 ∧ (bring 2).get Fld.BU_LOAD_CMD_START = 0 ∧
        ((bring 2).storePut (wr 258) Fld.BU_LOAD_CMD_START 0).get Fld.BU_LOAD_LEN_BYTES < 64 ∧ (bring 2).bu.loading = none ∧
        loadingImage.bu.loading = some (2, 0, 64)) ∧
    loadFault 2 (tabulate 64 (fun i => ([] : List Byte).getD i 0)) = some (3, 0) ∧
    ((bring 2).get Fld.BU_LOAD_CMD_LOADED ≠ 7 ∧ ((bring 2).put Fld.BU_LOAD_CMD_LOADED 7).get Fld.BU_LOAD_CMD_LOADED = 7 ∧
      ((bring 5).put (Fld.BU_TOPO_EXP_DIGEST 5) 1).topologyAccepted = false ∧ (bring 6).readyMissing ≠ 0 ∧
      (mg [(Fld.BU_STATE_STATE, 6), (Fld.GC_PORT_CTRL_COMMIT, 1), (Fld.SEC_CTRL_COMMIT, 1), (Fld.YT_CTRL_RUN, 1), (Fld.SH_CTRL_COMMIT, 1)]).readyMissing = 0 ∧
      (bring 1).inStep 0 = true ∧ (bring 1).inStep 2 = false) := by
  refine ⟨by decide +kernel, placeLowly (by decide +kernel), ⟨may (by decide +kernel), by decide +kernel, ?_⟩,
    ⟨may (by decide +kernel), may (by decide +kernel), by decide +kernel⟩, by decide +kernel,
    ⟨may (by decide +kernel), by decide +kernel, by decide +kernel, may (by decide +kernel), may (by decide +kernel), may (by decide +kernel), by decide +kernel⟩,
    fun b h => by simp [loadFault, h], may (by decide +kernel), may (by decide +kernel), may (by decide +kernel), may (by decide +kernel),
    may (by decide +kernel), may (by decide +kernel), may (by decide +kernel), may (by decide +kernel), may (by decide +kernel), may (by decide +kernel),
    may (by decide +kernel), may (by decide +kernel), ⟨2, by decide +kernel⟩, ⟨2, by decide +kernel⟩, ⟨2, by decide +kernel⟩, by decide +kernel⟩
  intro b hb
  revert b
  decide +kernel
/-! ### Witnesses: clocks and power -/

/-- The state of service with registers set. -/
def serving (regs : List (RegField × Nat)) : State := mg ((Fld.BU_STATE_STATE, 7) :: regs)

/-- A pace move of domain 16 to 700 mV, written or not. -/
def pacing (written : Bool) : State :=
  { serving [(Fld.CK_PACE_SETTLE_TOL_MV, 10)] with ck := { State.reset.ck with moves := [(16, ⟨3, 700, false, written⟩)] } }

theorem witness_ClocksAndPower_clocks :
    State.reset.monitorRuns = false ∧ (serving []).monitorRuns = true ∧ (serving []).sourceFailed 3 = false ∧
    (serving [(Fld.CK_MON_STATUS_FAILED, 8)]).sourceFailed 3 = true ∧ (serving [(Fld.CK_MON_STATUS_FAILED, 8)]).monitorRuns = true ∧
    MayWrite (serving []) (wr 4) Reg.CK_CTRL ∧ MayWrite (serving []) (wr 2) Reg.CK_CTRL ∧
    ((writeBits (wr 4)).toNat.testBit 1 = false ∧ (writeBits (wr 4)).toNat.testBit 2 = true) ∧
    ((writeBits (wr 2)).toNat.testBit 1 = true ∧ (writeBits (wr 2)).toNat.testBit 2 = false) ∧
    MayWrite (serving []) (wr 0x110) Reg.CK_FMEAS_CTRL ∧ (writeBits (wr 0x110)).toNat.testBit 4 = true ∧
    ((serving []).store (wr 0x110) Reg.CK_FMEAS_CTRL).get Fld.CK_FMEAS_CTRL_GATE ≠ 0 ∧
    (serving [(Fld.CK_FMEAS_CTRL_DONE, 1)]).get Fld.CK_FMEAS_CTRL_DONE = 1 ∧ (serving [(Fld.CK_FMEAS_CTRL_DONE, 0)]).get Fld.CK_FMEAS_CTRL_DONE = 0 ∧
    MayWrite (serving []) (wr 0) (Reg.CK_PACE 7) ∧
    (serving []).paceTableOk 7 550 800 = true ∧ (serving []).paceTableOk 7 499 800 = false ∧
    MayWrite (serving []) (wr 4) (Reg.CK_PACE_CTL 16) ∧
    (let v := (serving []).store (wr 4) (Reg.CK_PACE_CTL 16); v.paceTarget 16 = v.get (Fld.CK_PACE_STATE_CUR 16) ∨ v.paceMove 16 = none) ∧
    (let v := (serving [(Fld.CK_PACE_STATE_CUR 16, 7)]).store (wr 4) (Reg.CK_PACE_CTL 16); v.paceMove 16 = none ∧ v.paceTarget 16 < v.get (Fld.CK_PACE_STATE_CUR 16)) ∧
    (let v := (serving [(Fld.CK_PACE_STATE_CUR 16, 0)]).store (wr 4) (Reg.CK_PACE_CTL 16); v.paceMove 16 = none ∧ v.get (Fld.CK_PACE_STATE_CUR 16) < v.paceTarget 16) ∧
    (let v := (serving [(Fld.CK_PACE_STATE_CUR 16, 4), (Fld.CK_PACE_STATE_VFAIL 16, 1)]).store (wr 4) (Reg.CK_PACE_CTL 16);
      v.paceMove 16 = none ∧ v.paceTarget 16 = v.get (Fld.CK_PACE_STATE_CUR 16) ∧
        (v.put (Fld.CK_PACE_STATE_TARGET 16) (v.paceTarget 16)).get (Fld.CK_PACE_STATE_VFAIL 16) = 1) ∧
    (serving []).paceMove 16 = none ∧ (pacing false).paceMove 16 = some ⟨3, 700, false, false⟩ ∧ (pacing true).paceMove 16 = some ⟨3, 700, false, true⟩ ∧
    (pacing true).get Fld.CK_PACE_SETTLE_TOL_MV = 10 ∧
    (∀ g < 37, (serving []).get (Fld.CK_GATE_RUN_EN g) = 1 ∧ (serving []).get (Fld.CK_GATE_STATE g) = 0) ∧
    (let v := serving [(Fld.CK_GATE_SLEEP_EN 36, 1), (Fld.CK_GATE_DEEP_EN 36, 1), (Fld.CK_GATE_STATE 0, 1), (Fld.CK_GATE_STATE 36, 0)];
      v.get (Fld.CK_GATE_SLEEP_EN 36) = 1 ∧ v.get (Fld.CK_GATE_DEEP_EN 36) = 1 ∧ v.get (Fld.CK_GATE_STATE 36) ≤ 1 ∧ v.get (Fld.CK_GATE_STATE 0) = 1) ∧
    (serving [(Fld.CK_GATE_STATE 36, 2)]).get (Fld.CK_GATE_STATE 36) = 2 := by
  refine ⟨by decide +kernel, by decide +kernel, by decide +kernel, by decide +kernel, by decide +kernel, may (by decide +kernel), may (by decide +kernel),
    by decide +kernel, by decide +kernel, may (by decide +kernel), by decide +kernel, by decide +kernel, by decide +kernel, by decide +kernel, may (by decide +kernel),
    by decide +kernel, by decide +kernel, may (by decide +kernel), by decide +kernel⟩

/-- A park in progress with a step that waits for room. -/
def parkingHeld : State :=
  { serving [(Fld.PW_STATUS_PARKING, 1)] with
    stalls := [(0, { ({} : Stall) with step := some ⟨1, [], 0, [], false, 0, none, [], [], false, ⟨0, [], {}, [], 0⟩, [], 0, some ⟨0, 0, 0, 0, 0, okCmd⟩, []⟩ })] }

theorem witness_ClocksAndPower_power :
    (State.reset.get Fld.BU_STATE_STATE = 0 ∧ State.reset.unitsRun = false ∧ (serving []).unitsRun = true ∧ ((serving []).thermal 16 899).unitsRun = true ∧
      (serving []).get Fld.BU_STATE_STATE ≠ 0 ∧ (serving []).get Fld.PW_STATUS_WARN = 0 ∧
      (serving [(Fld.PW_STATUS_WARN, 1)]).get Fld.PW_STATUS_WARN = 1) ∧
    ((((((serving [(Fld.PW_STATUS_PARKING, 1)]).put Fld.PW_STATUS_WARN 1).put Fld.PW_STATUS_HOLD 0).put Fld.PW_WARN_YT_NS
        (serving [(Fld.PW_STATUS_PARKING, 1)]).now).raise { code := 0x0201 }).get Fld.PW_STATUS_PARKING = 1 ∧
      (((((serving []).put Fld.PW_STATUS_WARN 1).put Fld.PW_STATUS_HOLD 0).put Fld.PW_WARN_YT_NS (serving []).now).raise { code := 0x0201 }).get
        Fld.PW_STATUS_PARKING = 0) ∧
    (let v := serving [(Fld.PW_STATUS_PARKING, 1)];
      v.get Fld.PW_STATUS_PARKING = 1 ∧ v.get Fld.PW_STATUS_SAFE = 0 ∧ v.stalls = [] ∧ v.get Fld.STL_DIRTY_NOW_NOW = 0 ∧
        v.now < v.get Fld.PW_WARN_YT_NS + 9500000) ∧
    (let v : State := { serving [(Fld.PW_STATUS_PARKING, 1)] with yt := { State.reset.yt with count := 9500000 } };
      v.get Fld.PW_STATUS_PARKING = 1 ∧ v.get Fld.PW_STATUS_SAFE = 0 ∧ v.get Fld.PW_WARN_YT_NS + 9500000 ≤ v.now) ∧
    (∀ dirty < 2,
      let v := serving [(Fld.PW_STATUS_PARKING, 1), (Fld.STL_DIRTY_NOW_NOW, dirty)];
      v.get Fld.PW_STATUS_PARKING = 1 ∧ v.get Fld.PW_STATUS_SAFE = 0 ∧ v.stalls.any (fun e => emitting e.2) = false ∧
        (v.toSeal.foldl (fun u i => u.sealStall i) v).get Fld.STL_DIRTY_NOW_NOW = dirty) ∧
    parkingHeld.stalls.any (fun e => emitting e.2) = true ∧
    (let v := serving [(Fld.PW_STATUS_HOLD, 1), (Fld.PW_STATUS_SAFE, 1), (Fld.PW_RESUME_NS, 0)];
      v.get Fld.PW_STATUS_HOLD = 1 ∧ v.get Fld.PW_STATUS_SAFE = 1 ∧ v.pw.roseAt + v.get Fld.PW_RESUME_NS ≤ v.now) ∧
    (let v := serving [(Fld.PW_STATUS_HOLD, 1), (Fld.PW_STATUS_SAFE, 1), (Fld.PW_RESUME_NS, 1)]; v.now < v.pw.roseAt + v.get Fld.PW_RESUME_NS) ∧
    ((bring 1).get Fld.BU_STATE_STATE < 2 ∧ (bring 8).get Fld.BU_STATE_STATE = 8 ∧ 2 ≤ (bring 2).get Fld.BU_STATE_STATE ∧ (serving []).get Fld.BU_STATE_STATE ≤ 7) ∧
    (let v := serving [(Fld.CK_PACE_STATE_VID_AT 16, 700), (Fld.PW_SAG_MV, 50), (Fld.PW_SAG_COUNT, 1)];
      let u := ({ v with yt := { State.reset.yt with count := 1000000 } } : State);
      v.get (Fld.CK_PACE_STATE_VID_AT 16) ≤ 650 + v.get Fld.PW_SAG_MV ∧ 649 + v.get Fld.PW_SAG_MV < v.get (Fld.CK_PACE_STATE_VID_AT 16) ∧
        (u.sagOf 16).ms ≠ u.now / 1000000 ∧ 1 ≤ v.get Fld.PW_SAG_COUNT) ∧
    (let v := serving [(Fld.PW_LIMITS_SUPPLY 16, 7)];
      let u := ({ v with yt := { State.reset.yt with count := 100000000 } } : State);
      (serving []).get (Fld.PW_LIMITS_SUPPLY 16) = 0 ∧ v.now < (v.sagOf 16).stood + 100000000 ∧ 0 < u.get (Fld.PW_LIMITS_SUPPLY 16) ∧
        (u.sagOf 16).stood + 100000000 ≤ u.now) ∧
    ((899 : Int) < 10 * ((serving []).get Fld.PW_TJ_WARN_C : Int) - 10 * ((serving []).get Fld.PW_TJ_HYST_C : Int) ∧ (899 : Int) < 1100) := by
  decide +kernel
/-! ### Witnesses: repair -/

/-- In service with the smallest working set of R507, the Groom firmware on processor 0 and no spare for it. -/
def smallest : State :=
  let s := serving (List.flatten ((List.range 4).map (fun c => [(Fld.HB_CH_LOGICAL 0 c, c), (Fld.HB_CH_STATE 0 c, 0)])) ++ [(Fld.RP_CTRL_TEST_EN, 1)])
  { s with t1 := { s.t1 with absent := 0xFFFE }, units := { s.units with groom := some 0, badGroom := [1] } }

/-- The same with its spare Groom processor. -/
def smallestSpared : State := { smallest with units := { smallest.units with badGroom := [] } }

/-- A self-test in operation slot 0 with units left to test. -/
def selfTesting (left : List Part) : State :=
  { smallest with tests := [⟨0, left, 0, 0⟩], ops := [(0, { smallest.op 0 with live := true, opcode := 0xC1, st := .running })] }

/-- RP_RETIRE of a unit by kind, Hive and number. -/
def retire (kind hive unit : Nat) : Cmd := mcmd 0 0 0 [(32, 1, kind), (33, 1, hive), (34, 2, unit)]

theorem witness_RepairCommands :
    (State.reset.inService = false ∧ smallest.inService = true ∧ handshakes (.groom 0) = false ∧ handshakes (.hostPort 0) = true ∧
      smallest.hiveAbsent 15 = true ∧ smallest.hiveAbsent 0 = false) ∧
    (smallest.now / smallest.get Fld.RP_WINDOW_NS * smallest.get Fld.RP_WINDOW_NS ≤ smallest.units.corrAt ∧
      (let v : State := { smallest with yt := { smallest.yt with count := smallest.get Fld.RP_WINDOW_NS } };
        v.units.corrAt < v.now / v.get Fld.RP_WINDOW_NS * v.get Fld.RP_WINDOW_NS)) ∧
    (let p (v : State) : Nat := max 1 (v.get Fld.RP_TEST_PERIOD_NS);
      (serving [(Fld.RP_CTRL_TEST_EN, 0)]).get Fld.RP_CTRL_TEST_EN = 0 ∧ smallest.get Fld.RP_CTRL_TEST_EN = 1 ∧ smallest.now / p smallest * p smallest ≤ smallest.units.testAt ∧
      (let v : State := { smallest with yt := { smallest.yt with count := p smallest } }; v.inService = true ∧ v.units.testAt < v.now / p v * p v)) ∧
    (Accepted smallest (retire 4 255 0) .mgmt false ∧ Accepted smallest (retire 0 16 0) .mgmt false ∧ Accepted smallestSpared (retire 4 255 1) .mgmt false) ∧
    (retiredUnit (retire 0 16 0) = none ∧ retiredUnit (retire 0 15 544) = none ∧ retiredUnit (retire 0 15 543) = some (.cell 31 271) ∧
      retiredUnit (retire 4 255 0) = some (.groom 0) ∧ retiredUnit (retire 4 255 1) = some (.groom 1) ∧ opZero (retire 4 255 0) 38 63 = true ∧
      retiredUnit (mcmd 0 0 0 [(32, 1, 4), (33, 1, 255), (38, 1, 1)]) = some (.groom 0) ∧ opZero (mcmd 0 0 0 [(32, 1, 4), (33, 1, 255), (38, 1, 1)]) 38 63 = false) ∧
    (smallest.workingSet = true ∧ (smallest.judge (.groom 0) 7).workingSet = false ∧ (smallestSpared.judge (.groom 0) 7).workingSet = true ∧
      (smallestSpared.judge (.groom 1) 7).workingSet = true ∧ State.reset.workingSet = false ∧ smallestSpared.served (.groom 0) = some 0 ∧ smallestSpared.served (.groom 1) = none) ∧
    (opByte (mcmd 0 0 0 [(32, 1, 32)]) 32 = 32 ∧ opByte (mcmd 0 0 0 [(32, 1, 31)]) 32 < 32 ∧ opZero (mcmd 0 0 0 [(33, 1, 1)]) 33 63 = false ∧
      opZero (mcmd 0 0 0 [(32, 1, 4)]) 33 63 = true ∧ (smallest.op 0).live = false) ∧
    (smallest.freeSpares 4 ++ (if (4).testBit 4 then smallest.idleCells else []) = [] ∧ smallestSpared.freeSpares 4 ++ (if (4).testBit 4 then smallestSpared.idleCells else []) = [.groom 1]) ∧
    ((selfTesting [.groom 1]).tests.find? (fun t => t.op = 1) = none ∧ (selfTesting [.groom 1]).tests.find? (fun t => t.op = 0) = some ⟨0, [.groom 1], 0, 0⟩ ∧
      ((selfTesting [.groom 1]).op 0).st = .running ∧ Part.groom 0 ∉ [Part.groom 1] ∧ [Part.groom 1].erase (.groom 1) = [] ∧
      [Part.groom 1, .key 9].erase (.groom 1) ≠ []) ∧
    MayWrite smallest (wr 1) Reg.RP_LOG_ACK := by
  refine ⟨by decide +kernel, by decide +kernel, by decide +kernel, ⟨acc (by decide +kernel), acc (by decide +kernel), acc (by decide +kernel)⟩, by decide +kernel,
    by decide +kernel, by decide +kernel, by decide +kernel, by decide +kernel, may (by decide +kernel)⟩
/-! ### Witnesses: checkpoints -/

/-- Checkpoints enabled, with port 0 in write service for the slots. -/
def saving (phase : Nat) : State :=
  serving [(Fld.CP_CTRL_EN, 1), (Fld.CP_STATUS_PHASE, phase), (Fld.CP_SLOT_CFG_PORTS, 1), (Fld.CP_SLOT_CFG_BANDS, 256), (Fld.SH_PORT_INFO_IN_SERVICE 0, 1),
    (Fld.SH_PORT_INFO_PAGES 0, 2048)]

/-- A checkpoint of step 5 into slot 1 in operation slot 0, at a phase. -/
def taking (phase : Nat) : State :=
  let s := saving phase
  { s with cp := { s.cp with op := some 0, slot := 1, step := 5 } }

/-- An empty checkpoint of step 5. -/
def emptyImage : CpImage := { (saving 0).cpImage with step := 5, shards := [], dir := [], yard := [], serial := Config.serial.toNat }

/-- The empty checkpoint valid in slot 1, with the restore reading it or not. -/
def stored (phase : Nat) : State :=
  let s := (taking phase).put (Fld.CP_SLOT_STATE_VALID 1) 1
  { s with cpSlots := [(1, emptyImage)] }

theorem witness_CheckpointCommands_take :
    (Accepted (saving 0) (mcmd 0 0 0 [(40, 1, 1)]) .mgmt false ∧ Accepted (saving 0) (mcmd 0 0 0 [(32, 8, 7)]) .mgmt false ∧
      Accepted (saving 0) (mcmd 0 0 0 []) .mgmt false ∧ Accepted (saving 0) (mcmd 0 0 0 [(32, 1, 3)]) .mgmt false ∧
      Accepted (saving 0) (mcmd 0 0 0 [(32, 1, 2), (33, 1, 1)]) .mgmt false ∧ Accepted (serving []) (mcmd 0 0 0 []) .mgmt false ∧ Accepted (taking 5) (mcmd 0 0 0 []) .mgmt false) ∧
    (opZero (mcmd 0 0 0 [(40, 1, 1)]) 40 63 = false ∧ opZero (mcmd 0 0 0 [(32, 8, 7)]) 40 63 = true ∧ opU64 (mcmd 0 0 0 [(32, 8, 7)]) 32 = 7 ∧
      opU64 (mcmd 0 0 0 []) 32 = 0 ∧ (saving 0).cp.op = none ∧ (saving 0).get Fld.PW_STATUS_PARKING = 0 ∧ (saving 0).get Fld.CP_CTRL_EN = 1 ∧
      (serving []).get Fld.CP_CTRL_EN = 0 ∧ ((saving 0).op 0).live = false) ∧
    (opByte (mcmd 0 0 0 [(32, 1, 3)]) 32 = 3 ∧ opByte (mcmd 0 0 0 [(32, 1, 2), (33, 1, 1)]) 32 < 3 ∧ opByte (mcmd 0 0 0 [(32, 1, 2), (33, 1, 1)]) 33 < 2 ∧
      opZero (mcmd 0 0 0 [(32, 1, 2), (33, 1, 1)]) 34 39 = true ∧ opZero (mcmd 0 0 0 [(32, 1, 2), (33, 1, 1)]) 48 63 = true) ∧
    ((saving 0).notFresh = false ∧ (taking 5).notFresh = true) ∧
    (let p := serving [(Fld.CP_TRIG_PERIODIC, 1), (Fld.CP_PERIOD_NS, 1000)];
      State.reset.get Fld.CP_TRIG_PERIODIC = 0 ∧ p.get Fld.CP_TRIG_PERIODIC = 1 ∧ p.get Fld.CP_PERIOD_NS = 1000 ∧ p.now / 1000 * 1000 ≤ p.cp.periodAt ∧
      (let v : State := { p with yt := { p.yt with count := 1000 } }; v.cp.periodAt < v.now / 1000 * 1000)) ∧
    ((saving 0).get Fld.CP_STATUS_PHASE ≠ 1 ∧ (taking 1).get Fld.CP_STATUS_PHASE = 1 ∧ (taking 1).frozen = true ∧
      ({ taking 1 with stalls := [(0, { state := .running })] } : State).frozen = false ∧ (taking 2).get Fld.CP_STATUS_PHASE = 2 ∧
      (taking 2).get Fld.STL_DIRTY_NOW_NOW = 0 ∧ ((taking 2).put Fld.STL_DIRTY_NOW_NOW 1).get Fld.STL_DIRTY_NOW_NOW ≠ 0) ∧
    ((taking 3).cp.op = some 0 ∧ (taking 3).get Fld.CP_STATUS_PHASE = 3 ∧ (taking 5).get Fld.CP_STATUS_PHASE = 5 ∧
      ((taking 3).put Fld.CP_SLOT_CFG_BANDS 0).slotRoom < ((taking 3).put Fld.CP_SLOT_CFG_BANDS 0).cpBytes ∧ (taking 3).cpBytes ≤ (taking 3).slotRoom) := by
  refine ⟨⟨acc (by decide +kernel), acc (by decide +kernel), acc (by decide +kernel), acc (by decide +kernel), acc (by decide +kernel), acc (by decide +kernel),
      acc (by decide +kernel)⟩, by decide +kernel⟩

theorem witness_CheckpointCommands_restore :
    (let s : State := { stored 0 with cp := {} };
      s.notFresh = false ∧ s.restoreSlot 0 = some 1 ∧ s.restoreSlot 2 = some 1 ∧ s.cpValid 1 = true ∧
      s.cpSlots.find? (fun e => e.1 = 1) = some (1, emptyImage) ∧ s.imageFails 1 5 false emptyImage = none) ∧
    ((stored 5).cp.op = some 0 ∧ (stored 5).cpSlots.find? (fun e => e.1 = (stored 5).cp.slot) = some (1, emptyImage) ∧ (stored 5).get Fld.CP_STATUS_PHASE = 5) := by
  refine ⟨⟨by decide +kernel, by decide +kernel, by decide +kernel, by decide +kernel, rfl, ?_⟩, by decide +kernel, rfl, by decide +kernel⟩
  have h2 : ((stored 0).get Fld.STL_DIR_BASE_BASE, (stored 0).get Fld.STL_DIR_BASE2_BASE, (stored 0).get Fld.STL_HDR_POOL_BASE, (stored 0).get Fld.STL_HDR_SLOTS_SLOTS) =
      (emptyImage.dirBase, emptyImage.dirBase2, emptyImage.hdrPool, emptyImage.hdrSlots) := by decide +kernel
  simp only [Prod.mk.injEq] at h2
  have hs : emptyImage.serial = Config.serial.toNat := rfl
  have hx : emptyImage.step = 5 := rfl
  have hl : emptyImage.shards = [] := rfl
  have hg : ∀ g : RegField, ({ stored 0 with cp := {} } : State).get g = (stored 0).get g := fun _ => rfl
  simp [State.imageFails, State.readShards, hs, hx, hl, hg, h2.1, h2.2.1, h2.2.2.1, h2.2.2.2]

/-- A job with granules of tenant 0 in Hives 0 and 1. -/
def jobs : State :=
  let s := withStall { session .hot with hdr := { (session .hot).hdr with kind := 2 } } tn
  { s with t1 := { s.t1 with runs := [⟨0, 16, .tenant 0 none⟩, ⟨2 ^ 24, 16, .tenant 0 none⟩] } }

/-- CP_MIRROR of granules of Hive 0 to Hive 1. -/
def mirrorCmd (n : Nat) : Cmd := cmd hnd 0 (2 ^ 36) [(36, 4, n)]

/-- A pair whose copy is under way, and one that is mirrored. -/
def pairs : State := { jobs with mirrors := [⟨0, 0, 0, 0, 2 ^ 36, 4096, false, some okCmd⟩, ⟨1, 0, 0, 4096, 2 ^ 36 + 4096, 4096, true, none⟩] }

/-- As many pairs as there can be, away from the granules above. -/
def allPairs : State := { jobs with mirrors := List.replicate 4096 ⟨7, 0, 0, 2 ^ 20, 2 ^ 36 + 2 ^ 20, 4096, true, none⟩ }

theorem mirrorOk {s : State} {a n : Nat} (h : (s.redirects.isEmpty && decide (a / 2 ^ 40 = 0) && decide (a % 2 ^ 36 + 4096 * n ≤ 2 ^ 35) && !s.hiveAbsent (hiveOf a)) = true)
    (h2 : (decide (a % 4096 = 0) && s.t1.allOwned (fun o => o = .tenant 0 none) (a / 4096) n &&
      decide (hiveOf (s.servedAt a) = hiveOf (s.servedAt (a + 4096 * n - 1)))) = true) : s.mirrorRange 0 a n = true := by
  simp only [Bool.and_eq_true] at h2
  simp only [State.mirrorRange, isLow h, h2.1.1, h2.1.2, h2.2, Bool.and_self]

theorem witness_CheckpointCommands_mirror :
    (Accepted jobs (mirrorCmd 16) .tenant false ∧ Accepted jobs (mirrorCmd 0) .tenant false ∧ Accepted pairs (cmd 0 0 0 [(32, 4, 1)]) .tenant false ∧
      Accepted pairs (cmd 0 0 0 [(32, 4, 2)]) .tenant false) ∧
    (jobs.checkHandle ((jobs.issuerTenant (mirrorCmd 16).issuer).getD 0) (mirrorCmd 16).handle.toNat false = .ok 0 ∧ (jobs.stall 0).hdr.kind = 2 ∧
      (tn.issuerTenant (mirrorCmd 16).issuer).getD 0 = 0 ∧ (mirrorCmd 16).addrA.toNat = 0 ∧ (mirrorCmd 16).addrB.toNat = 2 ^ 36 ∧ opU32 (mirrorCmd 16) 36 = 16 ∧
      opU32 (mirrorCmd 0) 36 = 0 ∧ opZero (mirrorCmd 16) 32 35 = true ∧ opZero (mirrorCmd 16) 40 63 = true ∧ jobs.mirrors = [] ∧
      hiveOf (jobs.servedAt 0) ≠ hiveOf (jobs.servedAt (2 ^ 36)) ∧ hiveOf (jobs.servedAt 0) = hiveOf (jobs.servedAt 4096)) ∧
    (jobs.mirrorRange 0 0 16 = true ∧ jobs.mirrorRange 0 (2 ^ 36) 16 = true ∧ jobs.mirrorRange 0 1 1 = false) ∧
    ((∀ m ∈ pairs.mirrors, m.num ≠ opU32 (cmd 0 0 0 [(32, 4, 2)]) 32) ∧ opZero (cmd 0 0 0 [(32, 4, 1)]) 36 63 = true ∧
      (∃ m ∈ pairs.mirrors, m.num = opU32 (cmd 0 0 0 [(32, 4, 1)]) 32 ∧ m.tenant = 0)) ∧
    (Accepted pairs (mirrorCmd 16) .tenant false ∧ pairs.checkHandle 0 (mirrorCmd 16).handle.toNat false = .ok 0 ∧
      ∃ m ∈ pairs.mirrors, ∃ x ∈ [0, 2 ^ 36], ∃ y ∈ [m.primary, m.mirror], y < x + 4096 * 16 ∧ x < y + m.len) ∧
    (Accepted allPairs (mirrorCmd 16) .tenant false ∧ allPairs.checkHandle 0 (mirrorCmd 16).handle.toNat false = .ok 0 ∧ 4096 ≤ allPairs.mirrors.length ∧
      allPairs.mirrorRange 0 0 16 = true ∧ allPairs.mirrorRange 0 (2 ^ 36) 16 = true ∧
      ∀ m ∈ allPairs.mirrors, ∀ x ∈ [0, 2 ^ 36], ∀ y ∈ [m.primary, m.mirror], x + 4096 * 16 ≤ y ∨ y + m.len ≤ x) ∧
    (pairs.mirrors.find? (fun m => decide (m.num = 1) && !m.ready) = none ∧
      pairs.mirrors.find? (fun m => decide (m.num = 0) && !m.ready) = some ⟨0, 0, 0, 0, 2 ^ 36, 4096, false, some okCmd⟩) := by
  refine ⟨⟨acc (by decide +kernel), acc (by decide +kernel), acc (by decide +kernel), acc (by decide +kernel)⟩, ⟨isOk (by decide +kernel), by decide +kernel⟩,
    ⟨mirrorOk (by decide +kernel) (by decide +kernel), mirrorOk (by decide +kernel) (by decide +kernel), ?_⟩, by decide +kernel,
    ⟨acc (by decide +kernel), isOk (by decide +kernel), by decide +kernel⟩,
    ⟨acc (by decide +kernel), isOk (by decide +kernel), Nat.le_of_eq List.length_replicate.symm, mirrorOk (by decide +kernel) (by decide +kernel),
      mirrorOk (by decide +kernel) (by decide +kernel), fun m hm => ?_⟩, by decide +kernel⟩
  · simp [State.mirrorRange]
  · rw [List.eq_of_mem_replicate hm]
    decide +kernel

/-! ### Single steps and values -/

/-- An empty queue: the block idles. -/
theorem test_idle : step State.reset = .next State.reset := rfl

/-- FP16 1.0 and -2.0 (R305). -/
theorem test_fp16_decode : fp16.decode 0x3C00 = .num false 1024 (-10) ∧ fp16.encode (.num true 1 1) = 0xC000 := by decide +kernel

/-- Ties to even: 1 + 2^-8 and 1 + 3·2^-8 in BF16 (R311). -/
theorem test_bf16_ties : bf16.encode (fp32.decode 0x3F808000) = 0x3F80 ∧ bf16.encode (fp32.decode 0x3F818000) = 0x3F82 := by decide +kernel

/-- The largest FP8 E4M3 value is 448, and more saturates (R312). -/
theorem test_e4m3_max : fp8e4m3.encode (.num false 448 0) = 0x7E ∧ fp8e4m3.encode (.num false 1 20) = 0x7E := by decide +kernel

/-- The encoded CK_PACE words of power-up, and a table that rises is not stored (R526). -/
theorem test_pace_table : (List.range 8).map (fun l => State.reset.reg (Reg.CK_PACE l)) =
    [0x08340320, 0x079E02EE, 0x070802D0, 0x067202B2, 0x05DC0294, 0x05140276, 0x044C0258, 0x03200226] ∧
    State.reset.paceTableOk 4 691 1500 = false := by decide +kernel

/-- An OVERVOLT of domain 3 puts its SUPPLY limit to 7 (R550). -/
theorem test_overvolt : (match execOvervolt 3 (serving []) with | .next s => s.get (Fld.PW_LIMITS_SUPPLY 3) | _ => 0) = 7 := by decide +kernel

/-- A gating group without work for SLEEP_NS sleeps where SLEEP_EN is 1 (R534). -/
theorem test_gate_sleep : (match execGateIdleSleep 5 (serving [(Fld.CK_GATE_SLEEP_EN 5, 1)]) with | .next s => s.get (Fld.CK_GATE_STATE 5) | _ => 0) = 1 := by
  decide +kernel

end Sys2Proof.Tests
end

section
/-! The scope of the model: every step keeps the canonical forms, and what the state after power-up holds. -/

namespace Sys2Proof.Proofs

open Sys2Proof Sys2Proof.Machine Sys2Proof.Safety Sys2Proof.Laws

/-! ### Steps keep the canonical forms -/

/-- What is kept of the register file and of Tier 1 carries the canonical form over. -/
theorem canonical_of_kept {l : List StateField} {s t : State} (hk : Kept l s t) (hs : Canonical s) : Canonical t := by
  obtain ⟨-, hio, ht1⟩ := hk
  obtain ⟨hregs, hbytes⟩ := hs
  exact ⟨hio.keep hregs, ht1.keep hbytes⟩

/-- A command that answers a next state keeps what its row does not name. -/
theorem kept_of_exec {c : Instr} {s t : State} (h : exec c s = .next t) : Kept (touches c) s t := by
  obtain ⟨u, hu, hk⟩ := exec_kept c s
  obtain rfl : u = t := Host.Outcome.next.inj (hu.symm.trans h)
  exact hk

/-- All a step can do: idle on an empty queue, or run the front command with the queue's rest. -/
theorem steps_cases {s t : State} (h : Steps s t) :
    (s.pending = [] ∧ t = s) ∨
      ∃ c rest, s.pending = c :: rest ∧ exec c { s with pending := rest } = .next t ∧ Kept (touches c) { s with pending := rest } t := by
  unfold Steps step at h
  cases hp : s.pending with
  | nil =>
    rw [hp] at h
    exact .inl ⟨rfl, (Host.Outcome.next.inj h).symm⟩
  | cons c rest =>
    rw [hp] at h
    exact .inr ⟨c, rest, rfl, h, kept_of_exec h⟩

/-- Settles O2: a step idles or runs one command, and every command keeps the canonical forms. -/
theorem canonicalFormsKept : Obligations.CanonicalFormsKept := by
  intro s t hs hstep
  obtain ⟨-, rfl⟩ | ⟨c, rest, -, -, hk⟩ := steps_cases hstep
  · exact hs
  · -- taking the command off the queue changes neither the registers nor Tier 1
    have hrest : Canonical { s with pending := rest } := hs
    exact canonical_of_kept hk hrest

/-! ### The state after power-up -/

/-- Settles O7: no register is listed, Tier 1 lists no byte, and no command waits. -/
theorem canonicalAtReset : Obligations.CanonicalAtReset := by
  have hempty : State.reset.pending = [] := rfl
  refine ⟨⟨rfl, rfl⟩, ?_, hempty⟩
  intro c hc
  rw [hempty] at hc
  exact absurd hc List.not_mem_nil

/-- A field of a register after power-up is that field of the register's value of R8. -/
theorem reset_get_of_word {off : Nat} {w : Word} (h : regReset off = w) {lo width : Nat} :
    State.reset.get ⟨off, lo, width⟩ = fieldGet w lo width := by
  subst h
  rfl

/-! The values of R8 of the registers that stand once per channel, tenant, lane, port, domain or gating group. -/

theorem regReset_HB_CH : ∀ h < 16, ∀ c < 17, regReset (Reg.HB_CH h c) = 0x1F := by decide +kernel

theorem regReset_SCH_CAP : ∀ t < 256, regReset (Reg.SCH_CAP t) = 0xFFFF := by decide +kernel

theorem regReset_TN_QUOTA : ∀ t < 256, regReset (Reg.TN_QUOTA t) = 0x100000400000 := by decide +kernel

theorem regReset_TN_CTRL : ∀ t < 256, regReset (Reg.TN_CTRL t) = 0 := by decide +kernel

/-- Lane `l` below 32 is lane `l % 4` of port `l / 4`, in use. -/
theorem regReset_NW_LANE : ∀ l < 32, regReset (Reg.NW_LANE l) = BitVec.ofNat 64 (l / 4 + 16 * (l % 4)) := by decide +kernel

/-- The four lanes above are spares of no port. -/
theorem regReset_NW_LANE_spare : ∀ l < 4, regReset (Reg.NW_LANE (32 + l)) = 0x4F := by decide +kernel

theorem regReset_TS_WEIGHT_first_last :
    ∀ p < 8, ∀ k < 8, regReset (Reg.TS_WEIGHT p 0 k) = 1 ∧ regReset (Reg.TS_WEIGHT p 255 k) = 1 := by decide +kernel

theorem regReset_SEC_MACSEC : ∀ p < 8, regReset (Reg.SEC_MACSEC p) = 0x800 := by decide +kernel

theorem regReset_CK_PACE_CTL : ∀ d < 17, regReset (Reg.CK_PACE_CTL d) = 4 := by decide +kernel

theorem regReset_CK_GATE : ∀ g < 37, regReset (Reg.CK_GATE g) = 1 := by decide +kernel

/-- The port and the lane in the word of lane `l` are read back. -/
theorem fieldGet_laneWord :
    ∀ l < 32, fieldGet (BitVec.ofNat 64 (l / 4 + 16 * (l % 4))) 0 4 = l / 4 ∧
      fieldGet (BitVec.ofNat 64 (l / 4 + 16 * (l % 4))) 4 2 = l % 4 ∧ fieldGet (BitVec.ofNat 64 (l / 4 + 16 * (l % 4))) 6 2 = 0 := by decide +kernel

/-- Settles O60: the registers that stand once by their values of R8, those that stand in arrays by the word of every index,
and what the block holds by the model's empty lists. -/
theorem afterPowerUp : Obligations.AfterPowerUp := by
  refine ⟨?stalls, ?memory, ?textAndTime, ?tenancy, ?network, ?security, ?clocks, ?powerAndRepair, ?nothingHeld⟩
  case stalls => decide +kernel
  case memory =>
    refine ⟨by decide +kernel, by decide +kernel, by decide +kernel, by decide +kernel, fun h hh c hc => ?_⟩
    have word := regReset_HB_CH h hh c hc
    exact ⟨reset_get_of_word word, reset_get_of_word word⟩
  case textAndTime => decide +kernel
  case tenancy =>
    refine ⟨by decide +kernel, by decide +kernel, fun t ht => ?_⟩
    have quota := regReset_TN_QUOTA t ht
    exact ⟨reset_get_of_word (regReset_SCH_CAP t ht), reset_get_of_word quota, reset_get_of_word quota,
      reset_get_of_word (regReset_TN_CTRL t ht)⟩
  case network =>
    refine ⟨by decide +kernel, by decide +kernel, by decide +kernel, fun l hl => ?_, fun l hl => ?_, fun p hp k hk => ?_⟩
    · have word := regReset_NW_LANE l hl
      obtain ⟨port, lane, state⟩ := fieldGet_laneWord l hl
      exact ⟨(reset_get_of_word word).trans port, (reset_get_of_word word).trans lane, (reset_get_of_word word).trans state⟩
    · have word := regReset_NW_LANE_spare l hl
      exact ⟨reset_get_of_word word, reset_get_of_word word⟩
    · obtain ⟨first, last⟩ := regReset_TS_WEIGHT_first_last p hp k hk
      exact ⟨reset_get_of_word first, reset_get_of_word last⟩
  case security =>
    refine ⟨fun p hp => ?_, by decide +kernel⟩
    have word := regReset_SEC_MACSEC p hp
    exact ⟨reset_get_of_word word, reset_get_of_word word⟩
  case clocks =>
    refine ⟨by decide +kernel, by decide +kernel, by decide +kernel, by decide +kernel, fun d hd => ?_, fun g hg => ?_⟩
    · have word := regReset_CK_PACE_CTL d hd
      exact ⟨reset_get_of_word word, reset_get_of_word word⟩
    · have word := regReset_CK_GATE g hg
      exact ⟨reset_get_of_word word, reset_get_of_word word, reset_get_of_word word⟩
  case powerAndRepair => decide +kernel
  case nothingHeld =>
    exact ⟨rfl, rfl, rfl, rfl, rfl, rfl, rfl, rfl, rfl, rfl, rfl, rfl, rfl, rfl, rfl, rfl, rfl, rfl, rfl, rfl⟩

end Sys2Proof.Proofs
end

section
/-! SUPPORT. What the memory tier commands share: registers and ports read back after an update, a search that ends at a known place, and a
long operation started in a known slot. -/

namespace Sys2Proof.Proofs

open Sys2Proof Sys2Proof.Machine Sys2Proof.Safety Sys2Proof.Laws

/-! ### Registers and slots read back -/

theorem on_of_one {s : State} {f : RegField} (h : s.get f = 1) : s.on f = true := decide_eq_true h

theorem on_of_ne {s : State} {f : RegField} (h : s.get f ≠ 1) : s.on f = false := decide_eq_false h

theorem on_of_zero {s : State} {f : RegField} (h : s.get f = 0) : s.on f = false := on_of_ne (by omega)

/-- States with one register file read the same fields. -/
theorem get_of_io {s t : State} (h : t.io = s.io) (f : RegField) : t.get f = s.get f := congrArg (·.get f) h

theorem state_get_put_same (s : State) (f : RegField) (x : Nat) (h : f.lo + f.width ≤ 64) : (s.put f x).get f = x % 2 ^ f.width :=
  get_put_same s.io f x h

theorem state_get_put_other (s : State) (f g : RegField) (x : Nat) (h : g.off ≠ f.off ∨ g.lo + g.width ≤ f.lo ∨ f.lo + f.width ≤ g.lo) :
    (s.put f x).get g = s.get g := get_put_other s.io f g x h

theorem state_get_bump_same (s : State) (f : RegField) (n : Nat) (h : f.lo + f.width ≤ 64) :
    (s.bump f n).get f = (s.get f + n) % 2 ^ f.width := get_bump_same s.io f n h

@[simp] theorem shedPort_setShedPort_same (s : State) (p : Nat) (x : ShedPort) : (s.setShedPort p x).shedPort p = x :=
  sparseGet_put_same _ _ _ _

theorem shedPort_setShedPort_other (s : State) (p q : Nat) (x : ShedPort) (h : q ≠ p) : (s.setShedPort p x).shedPort q = s.shedPort q :=
  sparseGet_put_other _ _ _ _ _ _ h

@[simp] theorem resident_setResident_same (s : State) (k : Nat) (r : Resident) : (s.setResident k r).resident k = r :=
  sparseGet_put_same _ _ _ _

/-! ### Searches -/

theorem searchFrom_eq_none {p : Nat → Bool} (n i : Nat) (h : ∀ j, i ≤ j → j < i + n → p j = false) : searchFrom p i n = none := by
  induction n generalizing i with
  | zero => rfl
  | succ n ih =>
    have rest := ih (i + 1) (fun j hj hn => h j (by omega) (by omega))
    simp [searchFrom, h i (by omega) (by omega), rest]

theorem searchFrom_eq_some {p : Nat → Bool} {k : Nat} (n i : Nat) (hk : p k = true) (hi : i ≤ k) (hn : k < i + n)
    (h : ∀ j, i ≤ j → j < k → p j = false) : searchFrom p i n = some k := by
  induction n generalizing i with
  | zero => omega
  | succ n ih =>
    by_cases hik : i = k
    · simp [searchFrom, hik, hk]
    · have rest := ih (i + 1) (by omega) (by omega) (fun j hj hjk => h j (by omega) hjk)
      simp [searchFrom, h i (by omega) (by omega), rest]

theorem firstBelow_eq_none {p : Nat → Bool} {n : Nat} (h : ∀ j < n, p j = false) : firstBelow p n = none :=
  searchFrom_eq_none n 0 (fun j _ hj => h j (by omega))

theorem firstBelow_eq_some {p : Nat → Bool} {n k : Nat} (hk : p k = true) (hn : k < n) (h : ∀ j < k, p j = false) : firstBelow p n = some k :=
  searchFrom_eq_some n 0 hk (by omega) (by omega) (fun j _ hj => h j hj)

/-! ### A long operation started (R406, R407) -/

/-- The state with the operation of a command in slot `k`, RUNNING, before the command is answered. -/
def startedOp (s : State) (c : Cmd) (k opcode : Nat) (args : List Nat) : State :=
  (s.setOp k { (s.op k) with
    live := true, st := .queued, opcode := opcode, cmd := some c, args := args,
    session := match (some c).map Cmd.issuer with | some (.queue q) => (s.io.queue q).session | _ => 0, owner := s.opOwner (some c),
    progress := 0, phase := 0, started := false, changedYt := s.now, endYt := 0, suspendCmd := none, cancelCmd := none }).moveOp k .running

/-- `k` is the lowest FREE operation slot. -/
def LowestFree (s : State) (k : Nat) : Prop := k < 4096 ∧ (s.op k).live = false ∧ ∀ j < k, (s.op j).live = true

/-- A long operation starts in the lowest FREE slot, answers its handle, and goes on to its own effect. -/
theorem beginOp_lowestFree {s : State} {k : Nat} (h : LowestFree s k) (c : Cmd) (opcode : Nat) (args : List Nat) (body : Nat → State → State) :
    s.beginOp c opcode args false body =
      body k ((startedOp s c k opcode args).complete c CS.ok ((startedOp s c k opcode args).opHandle k)) := by
  obtain ⟨hk, hfree, hlive⟩ := h
  have hfirst : firstBelow (fun i => !(s.op i).live) 4096 = some k :=
    firstBelow_eq_some (by simp [hfree]) hk (fun j hj => by simp [hlive j hj])
  unfold State.beginOp State.newOp State.newOpFor
  rw [hfirst]
  rfl

@[simp] theorem startedOp_shed (s : State) (c : Cmd) (k opcode : Nat) (args : List Nat) : (startedOp s c k opcode args).shed = s.shed := rfl
@[simp] theorem startedOp_stalls (s : State) (c : Cmd) (k opcode : Nat) (args : List Nat) : (startedOp s c k opcode args).stalls = s.stalls := rfl

/-- What slot `k` holds of an operation just started. -/
theorem startedOp_op (s : State) (c : Cmd) (k opcode : Nat) (args : List Nat) :
    ((startedOp s c k opcode args).op k).st = .running ∧ ((startedOp s c k opcode args).op k).opcode = opcode ∧
      ((startedOp s c k opcode args).op k).args = args := by
  simp [startedOp, State.moveOp]

/-- A completion writes the queue's record or the thread's answer, and nothing else. -/
@[simp] theorem complete_ops (s : State) (c : Cmd) (status r0 r1 r2 : Nat) : (s.complete c status r0 r1 r2).ops = s.ops :=
  (State.complete_frame s c status r0 r1 r2).1.1 .ops (by decide)
@[simp] theorem complete_shed (s : State) (c : Cmd) (status r0 r1 r2 : Nat) : (s.complete c status r0 r1 r2).shed = s.shed :=
  (State.complete_frame s c status r0 r1 r2).1.1 .shed (by decide)
@[simp] theorem complete_stalls (s : State) (c : Cmd) (status r0 r1 r2 : Nat) : (s.complete c status r0 r1 r2).stalls = s.stalls :=
  (State.complete_frame s c status r0 r1 r2).1.1 .stalls (by decide)
@[simp] theorem complete_op (s : State) (c : Cmd) (status r0 r1 r2 i : Nat) : (s.complete c status r0 r1 r2).op i = s.op i := by
  simp [State.op]

end Sys2Proof.Proofs
end

section
/-! The memory tiers' commands and events: patrol scrub, sparing, evacuation and compaction (R120, R128 to R131, R141, R147). -/

namespace Sys2Proof.Proofs

open Sys2Proof Sys2Proof.Machine Sys2Proof.Safety Sys2Proof.Laws

/-! ### MEM_SCRUB (R147) -/

/-- The channels that a patrol of some Hives reads, each named by 17 × Hive + channel. -/
def scrubKeys (s : State) (hives : List Nat) : List Nat := hives.flatMap (fun g => (s.patrolled g).map (17 * g + ·))

/-- The patrol of the channels named goes back to their first blocks. -/
def restartScrub (keys : List Nat) (u : State) : State :=
  { u with t1 := { u.t1 with scrubAt := keys.foldl (fun m k => sparseErase k m) u.t1.scrubAt } }

theorem memScrub_bad {s : State} {c : Cmd} (ha : Accepted s c .tenant false)
    (hbad : 16 ≤ opByte c 32 ∧ opByte c 32 ≠ 0xFF ∨ opZero c 33 63 = false) : exec (.memScrub c) s = .next (s.refuse c CS.badCommand) := by
  show next (s.runCmd c _ _ _) = _
  rw [runCmd_accepted ha]
  simp [hbad]

/-- MEM_SCRUB of valid operands starts its operation, or is refused where no channel is patrolled. -/
theorem memScrub_starts {s : State} {c : Cmd} {hives : List Nat} (ha : Accepted s c .tenant false) (hz : opZero c 33 63 = true)
    (hvalid : opByte c 32 < 16 ∨ opByte c 32 = 0xFF) (hh : hives = if opByte c 32 = 0xFF then List.range 16 else [opByte c 32]) :
    exec (.memScrub c) s = .next (if scrubKeys s hives = [] then s.refuse c CS.absentUnit
      else s.beginOp c 0x30 (scrubKeys s hives) false (fun _ => restartScrub (scrubKeys s hives))) := by
  have hok : ¬ (16 ≤ opByte c 32 ∧ opByte c 32 ≠ 0xFF) := by omega
  show next (s.runCmd c _ _ _) = _
  rw [runCmd_accepted ha]
  simp only [← hh, hok, hz, decide_false, Bool.not_true, Bool.or_self, Bool.false_eq_true, if_false, List.isEmpty_iff]
  rfl

theorem sparseGet_eraseAll {α : Type} (d : α) (keys : List Nat) (m : List (Nat × α)) (k : Nat) (h : k ∈ keys ∨ sparseGet d m k = d) :
    sparseGet d (keys.foldl (fun m k => sparseErase k m) m) k = d := by
  induction keys generalizing m with
  | nil => simpa using h
  | cons j keys ih =>
    refine ih _ ?_
    by_cases hk : k = j
    · exact .inr (hk ▸ sparseGet_erase_same d k m)
    · rw [sparseGet_erase_other d j k m hk]
      simpa [hk] using h

/-- MEM_SCRUB of one Hive: a RUNNING operation over its patrolled channels, each from its first block. -/
theorem memScrub_runs {s : State} {c : Cmd} {k h : Nat} (ha : Accepted s c .tenant false) (hfree : LowestFree s k) (hh : opByte c 32 = h)
    (hlt : h < 16) (hz : opZero c 33 63 = true) (hp : s.patrolled h ≠ []) :
    ∃ t u : State, exec (.memScrub c) s = .next u ∧ u.io = (t.complete c CS.ok (t.opHandle k)).io ∧ t.io = s.io ∧
      (u.op k).st = .running ∧ (u.op k).opcode = 0x30 ∧ (u.op k).args = (s.patrolled h).map (17 * h + ·) ∧
      (∀ q ∈ s.patrolled h, sparseGet 0 u.t1.scrubAt (17 * h + q) = 0) := by
  have hkeys : scrubKeys s [h] = (s.patrolled h).map (17 * h + ·) := by simp [scrubKeys]
  have hne : scrubKeys s [h] ≠ [] := by simpa [hkeys] using hp
  have hstart := memScrub_starts (hives := [h]) ha hz (by omega) (by rw [hh, if_neg (by omega)])
  rw [if_neg hne, beginOp_lowestFree hfree] at hstart
  obtain ⟨hst, hop, hargs⟩ := startedOp_op s c k 0x30 (scrubKeys s [h])
  refine ⟨startedOp s c k 0x30 (scrubKeys s [h]), _, hstart, rfl, rfl, ?_, ?_, ?_, fun q hq => ?_⟩
  · exact (congrArg OpSlot.st (complete_op ..)).trans hst
  · exact (congrArg OpSlot.opcode (complete_op ..)).trans hop
  · exact ((congrArg OpSlot.args (complete_op ..)).trans hargs).trans hkeys
  · exact sparseGet_eraseAll 0 _ _ _ (.inl (hkeys ▸ List.mem_map_of_mem hq))

/-! ### SHED_COMPACT (R141) -/

theorem shedCompact_bad {s : State} {c : Cmd} (ha : Accepted s c .tenant false) (hz : opZero c 35 63 = false) :
    exec (.shedCompact c) s = .next (s.refuse c CS.badCommand) := by
  show next (s.runCmd c _ _ _) = _
  rw [runCmd_accepted ha]
  simp [hz]

theorem shedCompact_starts {s : State} {c : Cmd} (ha : Accepted s c .tenant false) (hz : opZero c 35 63 = true) :
    exec (.shedCompact c) s = .next (s.beginOp c 0x31 (s.compactionBands (opByte c 32) (opU16 c 33)) false (fun op u =>
      if u.stallsIn (u.op op).args = [] then u.endOp op .done CS.ok else u)) := by
  show next (s.runCmd c _ _ _) = _
  rw [runCmd_accepted ha]
  simp only [hz, Bool.not_true, Bool.false_eq_true, if_false, List.isEmpty_iff]

theorem shedCompact_runs {s : State} {c : Cmd} {k : Nat} (ha : Accepted s c .tenant false) (hfree : LowestFree s k) (hz : opZero c 35 63 = true)
    (hs : s.stallsIn (s.compactionBands (opByte c 32) (opU16 c 33)) ≠ []) :
    ∃ u : State, exec (.shedCompact c) s = .next u ∧
      (u.op k).st = .running ∧ (u.op k).opcode = 0x31 ∧ (u.op k).args = s.compactionBands (opByte c 32) (opU16 c 33) ∧ u.shed = s.shed := by
  obtain ⟨hst, hop, hargs⟩ := startedOp_op s c k 0x31 (s.compactionBands (opByte c 32) (opU16 c 33))
  have hstart := shedCompact_starts ha hz
  rw [beginOp_lowestFree hfree] at hstart
  have hstalls : ∀ u : State, u.stalls = s.stalls → ∀ bands, u.stallsIn bands = s.stallsIn bands := fun u hu bands => by
    simp [State.stallsIn, hu]
  rw [complete_op, hargs, hstalls _ (by simp), if_neg hs] at hstart
  exact ⟨_, hstart, by rwa [complete_op], by rwa [complete_op], by rwa [complete_op], by simp⟩

/-! ### MEM_SPARE (R130, R147) -/

theorem memSpare_absent {s : State} {c : Cmd} (ha : Accepted s c .tenant false) (hh : opByte c 32 < 16) (hc : opByte c 33 < 16)
    (hz : opZero c 34 63 = true) (habs : s.hiveAbsent (opByte c 32) = true) : exec (.memSpare c) s = .next (s.refuse c CS.absentUnit) := by
  show next (s.runCmd c _ _ _) = _
  rw [runCmd_accepted ha]
  simp [hz, habs, Nat.not_le.mpr hh, Nat.not_le.mpr hc]

/-- MEM_SPARE of a channel in service is refused while it is copied, and else starts its operation. -/
theorem memSpare_serving {s : State} {c : Cmd} {q : Nat} (ha : Accepted s c .tenant false) (hh : opByte c 32 < 16) (hc : opByte c 33 < 16)
    (hz : opZero c 34 63 = true) (hin : s.hiveAbsent (opByte c 32) = false) (hq : s.physicalChannel (opByte c 32) (opByte c 33) = some q) :
    exec (.memSpare c) s = .next (if s.get (Fld.HB_CH_STATE (opByte c 32) q) = 2 then s.refuse c CS.notReady
      else s.beginOp c 0x32 [opByte c 32, opByte c 33] false (fun op s =>
        if s.on Fld.PW_STATUS_PARKING then s
        else (s.startSparing (opByte c 32) (opByte c 33)).getD ((s.loseChannel (opByte c 32) (opByte c 33) true).endOp op .failed CS.noResource))) := by
  show next (s.runCmd c _ _ _) = _
  rw [runCmd_accepted ha]
  simp only [hz, hin, hq, Nat.not_le.mpr hh, Nat.not_le.mpr hc, decide_false, Bool.not_true, Option.isNone_some, Option.any_some, decide_eq_true_eq,
    Bool.or_self, Bool.false_eq_true, if_false]
  split
  · rfl
  · refine congrArg next (congrArg (s.beginOp c 0x32 _ false) (funext fun op => funext fun u => ?_))
    cases u.startSparing (opByte c 32) (opByte c 33) <;> rfl

/-! ### PATROL_SCRUB_BLOCK (R128) -/

/-- The patrol reads physical channel `p` of Hive `h`: no power warning stands, and the Hive's clocks run. -/
def PatrolReads (s : State) (h p : Nat) : Prop :=
  h < 16 ∧ (s.patrolled h).contains p = true ∧ s.get Fld.PW_STATUS_PARKING = 0 ∧ s.get (Fld.CK_GATE_STATE h) = 0

/-- The block at which the patrol of a channel stands. -/
def patrolAt (s : State) (h p : Nat) : Nat := sparseGet 0 s.t1.scrubAt (17 * h + p)

/-- The patrol's block is the channel's last. -/
def patrolLast (s : State) (h p : Nat) : Bool := decide (channelBytes / 64 ≤ patrolAt s h p + 1)

/-- The next block scrubbed, the counts of a pass starting at 0, and the patrol moved on. -/
def patrolScrubbed (s : State) (h p : Nat) (bad : Option (Nat × Nat)) : State :=
  let v := (if patrolAt s h p = 0 then (s.put (Fld.HB_CH_CORR h p) 0).put (Fld.HB_CH_UNCORR h p) 0 else s).scrubBlock h p (patrolAt s h p) bad
  { v with t1 := { v.t1 with
      scrubAt := sparsePut 0 (17 * h + p) (if patrolLast s h p = true then 0 else patrolAt s h p + 1) v.t1.scrubAt } }

/-- The same, with what the channel's counts and the poison tables start. -/
def patrolStepped (s : State) (h p : Nat) (bad : Option (Nat × Nat)) : State := ((patrolScrubbed s h p bad).checkChannel h p).checkPoison

theorem patrolScrubBlock_rests {s : State} {h p : Nat} (hr : 16 ≤ h ∨ s.get Fld.PW_STATUS_PARKING = 1) (src : Option Nat) (bad : Option (Nat × Nat)) :
    exec (.patrolScrubBlock src h p bad) s = .next s := by
  show execPatrolScrubBlock src h p bad s = _
  unfold execPatrolScrubBlock
  obtain hh | hp := hr
  · simp [hh]
  · simp [on_of_one hp]

theorem patrolScrubBlock_periodic {s : State} {h p : Nat} (hr : PatrolReads s h p) (hen : s.get Fld.HB_CTRL_SCRUB_EN = 1) (bad : Option (Nat × Nat)) :
    exec (.patrolScrubBlock none h p bad) s = .next (patrolStepped s h p bad) := by
  obtain ⟨hh, hin, hp, hg⟩ := hr
  show execPatrolScrubBlock none h p bad s = _
  unfold execPatrolScrubBlock
  simp only [on_of_one hen, on_of_zero hp, hin, hg, Nat.not_le.mpr hh, Bool.not_true, decide_false, ne_eq, not_true_eq_false, Bool.or_self,
    Bool.false_eq_true, if_false]
  rfl

theorem patrolScrubBlock_operation {s : State} {h p op : Nat} (hr : PatrolReads s h p) (bad : Option (Nat × Nat)) (hlive : (s.op op).live = true)
    (hop : (s.op op).opcode = 0x30) (hst : (s.op op).st = .running) (hargs : (s.op op).args.contains (17 * h + p) = true) :
    exec (.patrolScrubBlock (some op) h p bad) s = .next (
      let x := patrolStepped s h p bad
      let left := (x.op op).args.filter (fun a => !(patrolLast s h p && decide (a = 17 * h + p)))
      let y := x.setOp op { x.op op with args := left }
      if left = [] then y.endOp op .done CS.ok else y) := by
  obtain ⟨hh, hin, hp, hg⟩ := hr
  show execPatrolScrubBlock (some op) h p bad s = _
  unfold execPatrolScrubBlock
  simp only [hlive, hop, hst, hargs, on_of_zero hp, hin, hg, Nat.not_le.mpr hh, Bool.not_true, decide_true, decide_false, Bool.and_self, ne_eq,
    not_true_eq_false, Bool.or_self, Bool.false_eq_true, if_false, List.isEmpty_iff]
  rfl

/-- A channel's block of at most two wrong bytes: corrected, and counted. -/
theorem scrubBlock_corrects {s : State} {h p c k : Nat} {w : Nat × Nat} (hc : s.servesChannel h p = some c)
    (hw : sparseGet (0, 0) s.t1.errors ((h * 2 ^ 36 + c * channelBytes) / 64 + k) = w) (h1 : 1 ≤ w.1) (h2 : w.1 ≤ 2) :
    sparseGet (0, 0) (s.scrubBlock h p k none).t1.errors ((h * 2 ^ 36 + c * channelBytes) / 64 + k) = (0, w.2) ∧
      (s.scrubBlock h p k none).get (Fld.HB_CH_CORR h p) = (s.get (Fld.HB_CH_CORR h p) + 1) % 2 ^ 32 := by
  unfold State.scrubBlock
  simp only [hc, Option.getD_none, hw, Nat.not_lt.mpr h2, show w.1 ≠ 0 by omega, h2, if_false, if_true]
  exact ⟨sparseGet_put_same _ _ _ _, get_bump_same s.io _ 1 (by show 8 + 32 ≤ 64; omega)⟩

/-- A channel's block of more wrong bytes: counted, and put in the poison table. -/
theorem scrubBlock_poisons {s : State} {h p c k : Nat} {w : Nat × Nat} (hc : s.servesChannel h p = some c)
    (hw : sparseGet (0, 0) s.t1.errors ((h * 2 ^ 36 + c * channelBytes) / 64 + k) = w) (h2 : 2 < w.1) :
    ∃ v : State, v.get (Fld.HB_CH_UNCORR h p) = (s.get (Fld.HB_CH_UNCORR h p) + 1) % 2 ^ 16 ∧ v.t1.poison = s.t1.poison ∧
      s.scrubBlock h p k none = v.addPoison ((h * 2 ^ 36 + c * channelBytes) / 64 + k) := by
  unfold State.scrubBlock
  simp only [hc, Option.getD_none, hw, h2, show w.1 ≠ 0 by omega, Nat.not_le.mpr h2, if_false, if_true]
  refine ⟨State.bump { s with t1 := { s.t1 with errors := sparsePut (0, 0) ((h * 2 ^ 36 + c * channelBytes) / 64 + k) w s.t1.errors } }
    (Fld.HB_CH_UNCORR h p) 1, get_bump_same s.io _ 1 (by show 40 + 16 ≤ 64; omega), rfl, rfl⟩

/-- A block that is neither a channel's first nor its last, scrubbed in the periodic pass. -/
theorem patrolScrubbed_between {s : State} {h p n : Nat} (hn : sparseGet 0 s.t1.scrubAt (17 * h + p) = n) (h0 : n ≠ 0)
    (hl : n + 1 < channelBytes / 64) (bad : Option (Nat × Nat)) :
    sparseGet 0 (patrolScrubbed s h p bad).t1.scrubAt (17 * h + p) = n + 1 ∧
      (patrolScrubbed s h p bad).io = (s.scrubBlock h p n bad).io ∧
      (patrolScrubbed s h p bad).t1.errors = (s.scrubBlock h p n bad).t1.errors ∧
      (patrolScrubbed s h p bad).t1.poison = (s.scrubBlock h p n bad).t1.poison := by
  have hat : patrolAt s h p = n := hn
  have hlast : patrolLast s h p = false := decide_eq_false (by omega)
  unfold patrolScrubbed
  simp only [hat, h0, hlast, if_false, Bool.false_eq_true, sparseGet_put_same, and_self]

theorem patrolScrubBlock_between {s : State} {h p ch b n : Nat} {w : Nat × Nat} (hr : PatrolReads s h p) (hen : s.get Fld.HB_CTRL_SCRUB_EN = 1)
    (hc : s.servesChannel h p = some ch) (hn : sparseGet 0 s.t1.scrubAt (17 * h + p) = n) (h0 : n ≠ 0) (hl : n + 1 < channelBytes / 64)
    (hb : b = (h * 2 ^ 36 + ch * channelBytes) / 64 + n) (hw : sparseGet (0, 0) s.t1.errors b = w) (h1 : 1 ≤ w.1) :
    ∃ u : State, exec (.patrolScrubBlock none h p none) s = .next (u.checkChannel h p).checkPoison ∧
      sparseGet 0 u.t1.scrubAt (17 * h + p) = n + 1 ∧
      (w.1 ≤ 2 → sparseGet (0, 0) u.t1.errors b = (0, w.2) ∧ u.get (Fld.HB_CH_CORR h p) = (s.get (Fld.HB_CH_CORR h p) + 1) % 2 ^ 32) ∧
      (2 < w.1 → ∃ v : State, v.get (Fld.HB_CH_UNCORR h p) = (s.get (Fld.HB_CH_UNCORR h p) + 1) % 2 ^ 16 ∧ v.t1.poison = s.t1.poison ∧
        u.t1.poison = (v.addPoison b).t1.poison ∧ u.io = (v.addPoison b).io) := by
  subst hb
  obtain ⟨hat, hio, herr, hpoison⟩ := patrolScrubbed_between hn h0 hl none
  refine ⟨patrolScrubbed s h p none, patrolScrubBlock_periodic hr hen none, hat, fun h2 => ?_, fun h2 => ?_⟩
  · rw [herr, get_of_io hio]
    exact scrubBlock_corrects hc hw h1 h2
  · obtain ⟨v, hv, hvp, hadd⟩ := scrubBlock_poisons hc hw h2
    exact ⟨v, hv, hvp, hadd ▸ hpoison, hadd ▸ hio⟩

/-! ### CHANNEL_COPY_DONE, EVAC_TIME_EXPIRY, DRAM_CHANNEL_TRAIN_FAIL (R129 to R131) -/

theorem channelCopyDone_idle {s : State} {h : Nat} (hq : ∀ q < 17, s.get (Fld.HB_CH_STATE h q) ≠ 2) : exec (.channelCopyDone h) s = .next s := by
  have hnone : firstBelow (fun p => decide (s.get (Fld.HB_CH_STATE h p) = 2)) 17 = none := firstBelow_eq_none (fun q hq' => decide_eq_false (hq q hq'))
  show execChannelCopyDone h s = _
  unfold execChannelCopyDone
  rw [hnone]
  split <;> rfl

theorem foldl_addPoison_units (l : List (Nat × (Nat × Nat))) (s : State) : (l.foldl (fun s e => s.addPoison e.1) s).units = s.units :=
  (Kept.foldl (l := [.io, .t1]) (bs := l) (Kept.refl s) (fun t e => State.addPoison_frame t e.1)).1.1 .units (by decide)

theorem channelCopyDone_marks {s : State} {h q : Nat} (hlt : q < 17) (hq : s.get (Fld.HB_CH_STATE h q) = 2)
    (hmin : ∀ j < q, s.get (Fld.HB_CH_STATE h j) ≠ 2) (hp : s.get Fld.PW_STATUS_PARKING = 0) (hf : s.freezing = false)
    (hnew : s.units.copied.contains (16 * h + s.get (Fld.HB_CH_LOGICAL h q)) = false) :
    ∃ t : State, exec (.channelCopyDone h) s = .next t ∧ t.units.copied = s.units.copied ++ [16 * h + s.get (Fld.HB_CH_LOGICAL h q)] := by
  have hsome : firstBelow (fun p => decide (s.get (Fld.HB_CH_STATE h p) = 2)) 17 = some q :=
    firstBelow_eq_some (decide_eq_true hq) hlt (fun j hj => decide_eq_false (hmin j hj))
  show ∃ t, execChannelCopyDone h s = .next t ∧ _
  unfold execChannelCopyDone
  simp only [hsome, on_of_zero hp, hf, hnew, Bool.or_self, Bool.false_eq_true, if_false]
  exact ⟨_, rfl, congrArg (·.copied ++ _) (foldl_addPoison_units _ s)⟩

theorem evacTimeExpiry_due {s : State} {h ch at_ : Nat} (hin : (16 * h + ch, at_) ∈ s.units.evacuating) (hat : at_ ≤ s.now) :
    exec (.evacTimeExpiry h ch) s = .next (s.retireChannel h ch) :=
  congrArg next (if_pos (List.any_eq_true.mpr ⟨_, hin, by simp [hat]⟩))

theorem evacTimeExpiry_early {s : State} {h ch : Nat} (hlate : ∀ e ∈ s.units.evacuating, e.1 = 16 * h + ch → s.now < e.2) :
    exec (.evacTimeExpiry h ch) s = .next s := by
  refine congrArg next (if_neg fun hany => ?_)
  obtain ⟨e, he, hdue⟩ := List.any_eq_true.mp hany
  simp only [Bool.and_eq_true, decide_eq_true_eq] at hdue
  have := hlate e he hdue.1
  omega

theorem dramChannelTrainFail_serving {s : State} {h p ch : Nat} (b : Bool) (hh : h < 16) (hin : s.hiveAbsent h = false)
    (hc : s.servesChannel h p = some ch) : exec (.dramChannelTrainFail h p b) s = .next (s.autoSpare h ch b) := by
  show execDramChannelTrainFail h p b s = _
  unfold execDramChannelTrainFail
  simp [Nat.not_le.mpr hh, hin, hc]

theorem dramChannelTrainFail_spare {s : State} {h p : Nat} (b : Bool) (hh : h < 16) (hin : s.hiveAbsent h = false)
    (hc : s.servesChannel h p = none) (hst : s.get (Fld.HB_CH_STATE h p) = 1) : exec (.dramChannelTrainFail h p b) s =
      .next ((s.put (Fld.HB_CH_STATE h p) 4).spareFailed [svStack h, svSpareChannel h] (repairEntry 1 h p 8)) := by
  show execDramChannelTrainFail h p b s = _
  unfold execDramChannelTrainFail
  simp [Nat.not_le.mpr hh, hin, hc, hst]

/-! ### COMPACT_STALL_DONE (R141) -/

/-- The bands that the ports short of free bands compact on their own. -/
def gcBands (s : State) : List Nat := ((List.range 8).filter (fun p => s.portWritable p && s.gcLow p)).flatMap (fun p => s.compactionBands (2 ^ p) 0)

/-- Stall `i` may be compacted: it stands in no park, revive, migration or step, and neither a checkpoint nor a power warning holds the writer. -/
def Compactable (s : State) (i : Nat) : Prop :=
  (s.stall i).state ∈ [StallState.hot, .waiting, .parked, .orphaned] ∧ (s.stall i).park = none ∧ (s.stall i).revive = none ∧
    (s.stall i).mig = none ∧ s.freezing = false ∧ s.get Fld.PW_STATUS_PARKING = 0

/-- A stall looked at and its journal consolidated, where the Shed has room. -/
def compacted (s : State) (i : Nat) : State := ((s.tend i).consolidate i).getD (s.tend i)

theorem compactStallDone_held {s : State} (hh : s.freezing = true ∨ s.get Fld.PW_STATUS_PARKING = 1) (src : Option Nat) (i : Nat) :
    exec (.compactStallDone src i) s = .next s := by
  show execCompactStallDone src i s = _
  unfold execCompactStallDone
  obtain hf | hp := hh
  · simp [hf]
  · simp [on_of_one hp]

theorem compactStallDone_elsewhere {s : State} {i : Nat} (hi : i ∉ s.stallsIn (gcBands s)) : exec (.compactStallDone none i) s = .next s := by
  have hi' : (s.stallsIn (gcBands s)).contains i = false := by simpa using hi
  show execCompactStallDone none i s = _
  unfold execCompactStallDone
  unfold gcBands at hi'
  simp only [hi', Bool.not_false, Bool.or_true, if_true]

theorem compactStallDone_own {s : State} {i : Nat} (hc : Compactable s i) (hi : i ∈ s.stallsIn (gcBands s)) :
    exec (.compactStallDone none i) s = .next (compacted s i) := by
  obtain ⟨hst, hpark, hrev, hmig, hf, hp⟩ := hc
  have hi' : (s.stallsIn (gcBands s)).contains i = true := List.contains_iff_mem.mpr hi
  show execCompactStallDone none i s = _
  unfold execCompactStallDone
  unfold gcBands at hi'
  simp only [List.contains_iff_mem.mpr hst, hpark, hrev, hmig, hf, on_of_zero hp, hi', Option.isNone_none, Bool.and_self, Bool.not_true, Bool.or_self,
    Bool.false_eq_true, if_false]
  rfl

theorem compactStallDone_operation {s : State} {i op : Nat} (hc : Compactable s i) (hlive : (s.op op).live = true) (hop : (s.op op).opcode = 0x31)
    (hrun : (s.op op).st = .running) (hi : i ∈ s.stallsIn (s.op op).args) :
    exec (.compactStallDone (some op) i) s =
      .next (if (compacted s i).stallsIn (s.op op).args = [] then (compacted s i).endOp op .done CS.ok else compacted s i) := by
  obtain ⟨hst, hpark, hrev, hmig, hf, hp⟩ := hc
  show execCompactStallDone (some op) i s = _
  unfold execCompactStallDone
  simp only [List.contains_iff_mem.mpr hst, hpark, hrev, hmig, hf, on_of_zero hp, hlive, hop, hrun, List.contains_iff_mem.mpr hi, decide_true,
    Option.isNone_none, Bool.and_self, if_true, Bool.not_true, Bool.or_self, Bool.false_eq_true, if_false, List.isEmpty_iff]
  rfl

/-- Settles O44: an accepted command by what its operands allow and the lowest FREE slot, an event by what stands in its way. -/
theorem memoryTierCommands : Obligations.MemoryTierCommands := by
  intro c s k h p
  refine ⟨fun ha hk hfree hlive => ?commands, ?between, ?patrol, ?rests, ?idle, ?copied, ?due, ?early, ?serving, ?spare, ?held, ?own, ?operation⟩
  case commands =>
    have hlow : LowestFree s k := ⟨hk, hfree, hlive⟩
    refine ⟨fun hh hlt hz => ⟨fun hp => ?scrubAbsent, memScrub_runs ha hlow hh hlt hz⟩, memScrub_bad ha,
      fun hall hz => ⟨fun hk => ?allAbsent, fun hk => ?all⟩, shedCompact_bad ha, shedCompact_starts ha, shedCompact_runs ha hlow,
      fun ch q hh hlt hc hclt hz hin hq => ⟨fun hst => ?copying, fun hst => ?spares⟩,
      fun ch hh hlt hc hclt hz habs => ?spareAbsent⟩
    case scrubAbsent =>
      have hkeys : scrubKeys s [h] = [] := by simp [scrubKeys, hp]
      have hstart := memScrub_starts (hives := [h]) ha hz (by omega) (by rw [hh, if_neg (by omega)])
      rwa [if_pos hkeys] at hstart
    case allAbsent => exact (memScrub_starts ha hz (.inr hall) (if_pos hall).symm).trans (congrArg next (if_pos hk))
    case all => exact (memScrub_starts ha hz (.inr hall) (if_pos hall).symm).trans (congrArg next (if_neg hk))
    case copying =>
      subst hh hc
      exact (memSpare_serving ha hlt hclt hz hin hq).trans (congrArg next (if_pos hst))
    case spares =>
      subst hh hc
      exact (memSpare_serving ha hlt hclt hz hin hq).trans (congrArg next (if_neg hst))
    case spareAbsent =>
      subst hh hc
      exact memSpare_absent ha hlt hclt hz habs
  case between =>
    intro ch b n w hh hen hin hp hg hc hn h0 hl hb hw h1
    exact patrolScrubBlock_between ⟨hh, hin, hp, hg⟩ hen hc hn h0 hl hb hw h1
  case patrol =>
    intro src bad hh hin hp hg
    have hr : PatrolReads s h p := ⟨hh, hin, hp, hg⟩
    refine ⟨fun hsrc hen => ?_, fun op hsrc hlive hop hst hargs => ?_⟩
    · subst hsrc
      exact patrolScrubBlock_periodic hr hen bad
    · subst hsrc
      exact patrolScrubBlock_operation hr bad hlive hop hst hargs
  case rests => exact fun src bad hr => patrolScrubBlock_rests hr src bad
  case idle => exact channelCopyDone_idle
  case copied => exact fun q => channelCopyDone_marks
  case due => exact fun ch at_ => evacTimeExpiry_due
  case early => exact fun ch => evacTimeExpiry_early
  case serving => exact fun b ch => dramChannelTrainFail_serving b
  case spare => exact dramChannelTrainFail_spare
  case held => exact fun src i hh => compactStallDone_held hh src i
  case own =>
    exact fun i => ⟨compactStallDone_elsewhere, fun hi hst hpark hrev hmig hf hp => compactStallDone_own ⟨hst, hpark, hrev, hmig, hf, hp⟩ hi⟩
  case operation =>
    exact fun op i hlive hop hrun hst hpark hrev hmig hf hp hi => compactStallDone_operation ⟨hst, hpark, hrev, hmig, hf, hp⟩ hlive hop hrun hi

end Sys2Proof.Proofs
end

section
/-! The Shed's ports: training, service, wear levelling, read disturb and scrub (R60, R132, R137 to R139, R510). -/

namespace Sys2Proof.Proofs

open Sys2Proof Sys2Proof.Machine Sys2Proof.Safety Sys2Proof.Laws

/-! ### SHED_PORT_TRAIN (R510) -/

/-- Port `q` marked as training where PORT_EN names it. -/
def markTraining (s : State) (q : Nat) : State :=
  if (s.get Fld.SH_CTRL_PORT_EN).testBit q then s.setShedPort q { s.shedPort q with training := true } else s

@[simp] theorem markTraining_io (s : State) (q : Nat) : (markTraining s q).io = s.io := by
  unfold markTraining
  split <;> rfl

theorem markTraining_shedPort (s : State) (p q : Nat) :
    (markTraining s q).shedPort p =
      if p = q ∧ (s.get Fld.SH_CTRL_PORT_EN).testBit p = true then { s.shedPort p with training := true } else s.shedPort p := by
  unfold markTraining
  by_cases hpq : p = q
  · subst hpq
    split <;> simp [*]
  · split <;> simp [hpq, shedPort_setShedPort_other _ _ _ _ hpq]

theorem foldl_markTraining_io (l : List Nat) (s : State) : (l.foldl markTraining s).io = s.io := by
  induction l generalizing s with
  | nil => rfl
  | cons q l ih => simp [ih]

theorem foldl_markTraining_shedPort (l : List Nat) (s : State) (p : Nat) :
    (l.foldl markTraining s).shedPort p =
      if p ∈ l ∧ (s.get Fld.SH_CTRL_PORT_EN).testBit p = true then { s.shedPort p with training := true } else s.shedPort p := by
  induction l generalizing s with
  | nil => simp
  | cons q l ih =>
    rw [List.foldl_cons, ih, get_of_io (markTraining_io s q), markTraining_shedPort]
    by_cases hb : (s.get Fld.SH_CTRL_PORT_EN).testBit p = true
    · by_cases hq : p = q
      · subst hq
        simp [hb]
      · simp [hb, hq]
    · simp [hb]

theorem shedPortTrain_marks {s : State} (hc : s.get Fld.SH_CTRL_COMMIT = 1) (hd : s.get (Fld.SEC_DOM_INSTALLED 545) = 1) :
    exec .shedPortTrain s = .next ((List.range 8).foldl markTraining s) := by
  show execShedPortTrain s = _
  unfold execShedPortTrain
  rw [on_of_one hc, on_of_one hd]
  rfl

theorem shedPortTrain_idle {s : State} (h : s.get Fld.SH_CTRL_COMMIT = 0 ∨ s.get (Fld.SEC_DOM_INSTALLED 545) = 0) :
    exec .shedPortTrain s = .next s := by
  show execShedPortTrain s = _
  unfold execShedPortTrain
  obtain h | h := h <;> simp [on_of_zero h]

/-! ### STL_DIRTY_MAX (R60) -/

theorem dirtyMaxNow_congr {s t : State} (h : ∀ q < 8, t.get (Fld.SH_PORT_INFO_IN_SERVICE q) = s.get (Fld.SH_PORT_INFO_IN_SERVICE q)) :
    t.dirtyMaxNow = s.dirtyMaxNow := by
  have hports : (List.range 8).filter (fun p => t.portWritable p) = (List.range 8).filter (fun p => s.portWritable p) :=
    List.filter_congr (fun q hq => by simp [State.portWritable, State.on, h q (List.mem_range.mp hq)])
  simp only [State.dirtyMaxNow, State.writablePorts, hports]

/-- A recomputed STL_DIRTY_MAX changes no other register. -/
theorem recomputeDirtyMax_get (s : State) (f : RegField) (h : f.off ≠ Reg.STL_DIRTY_MAX) : s.recomputeDirtyMax.get f = s.get f :=
  state_get_put_other _ _ _ _ (.inl h)

theorem recomputeDirtyMax_inService (s : State) {q : Nat} (hq : q < 8) :
    s.recomputeDirtyMax.get (Fld.SH_PORT_INFO_IN_SERVICE q) = s.get (Fld.SH_PORT_INFO_IN_SERVICE q) :=
  recomputeDirtyMax_get s _ (by show 0x01200100 + 0x8 * q ≠ 0x01800028; omega)

theorem recomputeDirtyMax_max (s : State) : s.recomputeDirtyMax.get Fld.STL_DIRTY_MAX_MAX = s.recomputeDirtyMax.dirtyMaxNow % 2 ^ 48 := by
  rw [dirtyMaxNow_congr (fun q hq => recomputeDirtyMax_inService s hq)]
  exact state_get_put_same _ _ _ (by decide)

/-! ### SHED_PORT_TRAIN_DONE (R132, R139) -/

theorem shedPortTrainDone_idle {s : State} {p : Nat} (h : 8 ≤ p ∨ (s.shedPort p).training = false ∨ (s.shedPort p).trained = true) (f : ShedFound) :
    exec (.shedPortTrainDone p f) s = .next s := by
  show execShedPortTrainDone p f s = _
  unfold execShedPortTrainDone
  obtain h | h | h := h <;> simp [h]

theorem shedPortTrainDone_unfit {s : State} {p : Nat} {f : ShedFound} (hp : p < 8) (ht : (s.shedPort p).training = true)
    (hn : (s.shedPort p).trained = false) (hf : partFits f = false) : exec (.shedPortTrainDone p f) s =
      .next ((s.setShedPort p { s.shedPort p with trained := true }).raise { code := 0x0506, subject := p }) := by
  show execShedPortTrainDone p f s = _
  unfold execShedPortTrainDone
  simp [Nat.not_le.mpr hp, ht, hn, hf]

/-- The port's translation layer and its INFO as training reads them back. -/
def portInfo (s : State) (p : Nat) (f : ShedFound) : State :=
  let s := s.setShedPort p (trainedPort p f)
  let s := (s.put (Fld.SH_PORT_INFO_PAGES p) f.pages).put (Fld.SH_PORT_INFO_TR_US p) f.trUs
  ((s.put (Fld.SH_PORT_INFO_TARGETS p) f.targets).put (Fld.SH_PORT_INFO_LUNS p) f.luns).put (Fld.SH_PORT_INFO_PLANES p) f.planes

/-- The port in write service, with STL_DIRTY_MAX anew. -/
def portInService (s : State) (p : Nat) (f : ShedFound) : State := ((portInfo s p f).put (Fld.SH_PORT_INFO_IN_SERVICE p) 1).recomputeDirtyMax

/-- The same, its first scrub one period on. -/
def portEntered (s : State) (p : Nat) (f : ShedFound) : State :=
  let u := portInService s p f
  u.setShedPort p { u.shedPort p with scrubDue := u.now + u.get Fld.SH_SCRUB_PERIOD_NS }

theorem shedPortTrainDone_fits {s : State} {p : Nat} {f : ShedFound} (hp : p < 8) (ht : (s.shedPort p).training = true)
    (hn : (s.shedPort p).trained = false) (hf : partFits f = true) : exec (.shedPortTrainDone p f) s =
      .next (((f.slots.filter (fun e => decide (e.1 < 2))).foldl (fun u e => u.foundSlot e) (portEntered s p f)).survey [svShed p]) := by
  show execShedPortTrainDone p f s = _
  unfold execShedPortTrainDone
  simp only [Nat.not_le.mpr hp, ht, hn, hf, decide_false, Bool.not_true, Bool.or_self, Bool.false_eq_true, if_false]
  rfl

theorem portInService_shedPort (s : State) (p : Nat) (f : ShedFound) : (portInService s p f).shedPort p = trainedPort p f :=
  shedPort_setShedPort_same s p _

theorem portInService_period (s : State) (p : Nat) (f : ShedFound) :
    (portInService s p f).get Fld.SH_SCRUB_PERIOD_NS = s.get Fld.SH_SCRUB_PERIOD_NS := by
  have hne : Fld.SH_SCRUB_PERIOD_NS.off ≠ Reg.SH_PORT_INFO p := by show 0x01200018 ≠ 0x01200100 + 0x8 * p; omega
  have hput : ∀ (u : State) (lo width x : Nat), (u.put ⟨Reg.SH_PORT_INFO p, lo, width⟩ x).get Fld.SH_SCRUB_PERIOD_NS = u.get Fld.SH_SCRUB_PERIOD_NS :=
    fun u lo width x => state_get_put_other u _ _ x (.inl hne)
  unfold portInService portInfo
  rw [recomputeDirtyMax_get _ _ (by decide)]
  simp only [hput]
  rfl

theorem portEntered_io (s : State) (p : Nat) (f : ShedFound) : (portEntered s p f).io = (portInService s p f).io := rfl

theorem portEntered_inService (s : State) {p : Nat} (f : ShedFound) (hp : p < 8) : (portEntered s p f).get (Fld.SH_PORT_INFO_IN_SERVICE p) = 1 := by
  rw [get_of_io (portEntered_io s p f), portInService, recomputeDirtyMax_inService _ hp, state_get_put_same _ _ _ (by show 42 + 1 ≤ 64; omega)]
  rfl

theorem portEntered_dirtyMax (s : State) (p : Nat) (f : ShedFound) :
    (portEntered s p f).get Fld.STL_DIRTY_MAX_MAX = (portEntered s p f).dirtyMaxNow % 2 ^ 48 := by
  rw [get_of_io (portEntered_io s p f), dirtyMaxNow_congr (fun q _ => get_of_io (portEntered_io s p f) _), portInService, recomputeDirtyMax_max]

theorem portEntered_shedPort (s : State) (p : Nat) (f : ShedFound) :
    (portEntered s p f).shedPort p = { trainedPort p f with scrubDue := s.now + s.get Fld.SH_SCRUB_PERIOD_NS } := by
  unfold portEntered
  rw [shedPort_setShedPort_same, portInService_shedPort, portInService_period]
  rfl

/-! ### SHED_PORT_DOWN (R132) -/

theorem shedPortDown_unreadable {s : State} {p : Nat} (h : s.portReadable p = false) : exec (.shedPortDown p) s = .next s := by
  show execShedPortDown p s = _
  unfold execShedPortDown
  simp [h]

/-- The port out of service, with STL_DIRTY_MAX anew. -/
def outOfService (s : State) (p : Nat) : State :=
  ((s.put (Fld.SH_PORT_INFO_IN_SERVICE p) 0).put (Fld.SH_PORT_INFO_READ_ONLY p) 0).recomputeDirtyMax

theorem shedPortDown_leaves {s : State} {p : Nat} (hp : p < 8) (h : s.portReadable p = true) :
    let u := ((outOfService s p).survey [svShed p]).raise { code := 0x0506, subject := p }
    exec (.shedPortDown p) s = .next ((u.stalls.map (·.1)).foldl (fun s i => s.rewriteLost i) u) := by
  show execShedPortDown p s = _
  unfold execShedPortDown
  simp only [hp, h, decide_true, Bool.and_self, if_true]
  rfl

theorem outOfService_unreadable (s : State) {p : Nat} (hp : p < 8) : (outOfService s p).portReadable p = false := by
  have hoff : Reg.SH_PORT_INFO p ≠ Reg.STL_DIRTY_MAX := by show 0x01200100 + 0x8 * p ≠ 0x01800028; omega
  have hin : (outOfService s p).get (Fld.SH_PORT_INFO_IN_SERVICE p) = 0 := by
    unfold outOfService
    rw [recomputeDirtyMax_get _ _ hoff, state_get_put_other _ _ _ _ (.inr (.inl (by show 42 + 1 ≤ 43; omega))),
      state_get_put_same _ _ _ (by show 42 + 1 ≤ 64; omega)]
    rfl
  have hread : (outOfService s p).get (Fld.SH_PORT_INFO_READ_ONLY p) = 0 := by
    unfold outOfService
    rw [recomputeDirtyMax_get _ _ hoff, state_get_put_same _ _ _ (by show 43 + 1 ≤ 64; omega)]
    rfl
  simp [State.portReadable, State.portWritable, on_of_zero hin, on_of_zero hread]

/-! ### SHED_WEAR_MOVE (R137) -/

/-- The erase counts of a port's blocks that are not bad. -/
def eraseCounts (x : ShedPort) : List Nat := (x.blocks.filter (fun b => decide (b.state ≠ .bad))).map (·.erases)

/-- How far the most erased of them is from the least erased. -/
def wearSpread (x : ShedPort) : Nat := (eraseCounts x).foldl max 0 - (eraseCounts x).foldl min ((eraseCounts x).headD 0)

theorem shedWearMove_rests {s : State} {p : Nat}
    (h : s.get Fld.PW_STATUS_PARKING = 1 ∨ wearSpread (s.shedPort p) ≤ s.get Fld.SH_WEAR_SPREAD_ERASES) : exec (.shedWearMove p) s = .next s := by
  refine congrArg next (if_pos ?_)
  obtain h | h := h
  · simp [on_of_one h]
  · exact Bool.or_eq_true_iff.mpr (.inr (decide_eq_true h))

theorem shedWearMove_moves {s : State} {p k j : Nat} {b : EraseBlock} (hp : s.get Fld.PW_STATUS_PARKING = 0) (hw : s.portWritable p = true)
    (hs : s.get Fld.SH_WEAR_SPREAD_ERASES < wearSpread (s.shedPort p))
    (hk : (s.shedPort p).best (fun b => decide (b.state = .valid)) (fun a b => decide (a < b)) = some k)
    (hb : (s.shedPort p).blocks[k]? = some b)
    (hj : (s.shedPort p).best (fun d => decide (d.state = .free) && decide (d.channel = b.channel)) (fun a b => decide (b < a)) = some j) :
    exec (.shedWearMove p) s = .next ((s.setShedPort p ((s.shedPort p).moveBlock k j .stale)).raise
      { code := 0x0501, subject := p, object := ((s.shedPort p).blockAddress p k).getD 0 }) := by
  have hgo : ¬ (!s.portWritable p || s.on Fld.PW_STATUS_PARKING || decide (wearSpread (s.shedPort p) ≤ s.get Fld.SH_WEAR_SPREAD_ERASES)) = true := by
    simp [hw, on_of_zero hp, hs]
  refine (congrArg next (if_neg hgo)).trans (congrArg next ?_)
  simp only [hk, hb, Option.map_some, Option.getD_some, hj]

/-! ### SHED_READ_DISTURB_MOVE (R138) -/

/-- `n` more reads counted on block `k`. -/
def readsAdded (x : ShedPort) (k n : Nat) : ShedPort := { x with blocks := x.blocks.modify k (fun b => { b with reads := b.reads + n }) }

theorem readsAdded_block (x : ShedPort) (k n : Nat) : (readsAdded x k n).blocks[k]? = (x.blocks[k]?).map (fun b => { b with reads := b.reads + n }) := by
  simp [readsAdded]

/-- A read counts its reads, and moves the block at the limit, or on a bad read. -/
theorem shedReadDisturbMove_reads {s : State} {p k n : Nat} {bad : Bool} (hp : s.get Fld.PW_STATUS_PARKING = 0) (hr : s.portReadable p = true) :
    exec (.shedReadDisturbMove p k n bad) s = .next (match (s.shedPort p).blocks[k]? with
      | none => s.setShedPort p (readsAdded (s.shedPort p) k n)
      | some b => if (s.get Fld.SH_RD_LIMIT_READS ≤ b.reads + n ∨ bad = true) ∧ s.portWritable p = true
        then (s.setShedPort p (readsAdded (s.shedPort p) k n)).disturbMove p k else s.setShedPort p (readsAdded (s.shedPort p) k n)) := by
  have hblock : ((s.setShedPort p (readsAdded (s.shedPort p) k n)).shedPort p).blocks[k]? =
      ((s.shedPort p).blocks[k]?).map (fun b => { b with reads := b.reads + n }) := by
    rw [shedPort_setShedPort_same, readsAdded_block]
  show execShedReadDisturbMove p k n bad s = _
  unfold execShedReadDisturbMove
  unfold readsAdded at hblock
  simp only [hr, on_of_zero hp, Bool.not_true, Bool.or_self, Bool.false_eq_true, if_false, hblock]
  cases (s.shedPort p).blocks[k]? with
  | none => rfl
  | some b =>
    have hwrite : (s.setShedPort p (readsAdded (s.shedPort p) k n)).portWritable p = s.portWritable p := rfl
    have hlimit : (s.setShedPort p (readsAdded (s.shedPort p) k n)).get Fld.SH_RD_LIMIT_READS = s.get Fld.SH_RD_LIMIT_READS := rfl
    unfold readsAdded at hwrite hlimit
    simp only [Option.map_some, hwrite, hlimit, Bool.and_eq_true, Bool.or_eq_true, decide_eq_true_eq]
    rfl

/-- A valid block moves onto the fresh block of its channel. -/
theorem disturbMove_valid {u : State} {p k j : Nat} {b : EraseBlock} (hb : (u.shedPort p).blocks[k]? = some b) (hv : b.state = .valid)
    (hj : freshBlock ((u.shedPort p).withFresh b.channel).blocks b.channel = some j) :
    u.disturbMove p k = (u.setShedPort p (((u.shedPort p).withFresh b.channel).moveBlock k j .stale)).raise
      { code := 0x0501, subject := p, object := ((u.shedPort p).blockAddress p k).getD 0 } := by
  unfold State.disturbMove
  simp only [hb, hj, hv, if_true]

theorem portReadable_of_writable {s : State} {p : Nat} (h : s.portWritable p = true) : s.portReadable p = true := by
  simp [State.portReadable, h]

theorem shedReadDisturbMove_moves {s : State} {p k n j : Nat} {b : EraseBlock} {bad : Bool} (hp : s.get Fld.PW_STATUS_PARKING = 0)
    (hw : s.portWritable p = true) (hb : (s.shedPort p).blocks[k]? = some b) (hv : b.state = .valid)
    (hat : s.get Fld.SH_RD_LIMIT_READS ≤ b.reads + n ∨ bad = true)
    (hj : freshBlock ((readsAdded (s.shedPort p) k n).withFresh b.channel).blocks b.channel = some j) :
    ∃ t : State, t.io = s.io ∧ t.shedPort p = ((readsAdded (s.shedPort p) k n).withFresh b.channel).moveBlock k j .stale ∧
      exec (.shedReadDisturbMove p k n bad) s =
        .next (t.raise { code := 0x0501, subject := p, object := ((s.shedPort p).blockAddress p k).getD 0 }) := by
  have hport := shedPort_setShedPort_same s p (readsAdded (s.shedPort p) k n)
  have hmove : (s.setShedPort p (readsAdded (s.shedPort p) k n)).disturbMove p k = _ :=
    disturbMove_valid (b := { b with reads := b.reads + n }) (by rw [hport, readsAdded_block, hb]; rfl) hv (by rw [hport]; exact hj)
  have hexec := shedReadDisturbMove_reads (k := k) (n := n) (bad := bad) hp (portReadable_of_writable hw)
  simp only [hb, hat, hw, and_self, if_true, hmove, hport] at hexec
  exact ⟨(s.setShedPort p (readsAdded (s.shedPort p) k n)).setShedPort p (((readsAdded (s.shedPort p) k n).withFresh b.channel).moveBlock k j .stale),
    rfl, shedPort_setShedPort_same _ _ _, hexec⟩

/-! ### SHED_SCRUB (R138) -/

/-- Every valid block read once more. -/
def readOnce (blocks : List EraseBlock) : List EraseBlock := blocks.map (fun b => if b.state = .valid then { b with reads := b.reads + 1 } else b)

/-- A port's valid blocks read by the scrub, the next one a period on. -/
def scrubRead (s : State) (p : Nat) : State :=
  s.setShedPort p { s.shedPort p with blocks := readOnce (s.shedPort p).blocks, scrubDue := s.now + s.get Fld.SH_SCRUB_PERIOD_NS }

theorem shedScrub_rests {s : State} {p : Nat} (h : s.now < (s.shedPort p).scrubDue ∨ s.get Fld.PW_STATUS_PARKING = 1) (l : List Nat) :
    exec (.shedScrub p l) s = .next s := by
  refine congrArg next (if_pos ?_)
  obtain h | h := h
  · simp [h]
  · simp [on_of_one h]

theorem shedScrub_due {s : State} {p : Nat} (hp : s.get Fld.PW_STATUS_PARKING = 0) (hw : s.portWritable p = true)
    (hd : (s.shedPort p).scrubDue ≤ s.now) (l : List Nat) :
    exec (.shedScrub p l) s = .next (((List.range (s.shedPort p).blocks.length).filter (fun k => l.contains k ||
      ((readOnce (s.shedPort p).blocks)[k]?).any (fun b => decide (s.get Fld.SH_RD_LIMIT_READS ≤ b.reads)))).foldl
        (fun v k => v.disturbMove p k) (scrubRead s p)) := by
  have hport : (scrubRead s p).shedPort p =
      { s.shedPort p with blocks := readOnce (s.shedPort p).blocks, scrubDue := s.now + s.get Fld.SH_SCRUB_PERIOD_NS } := shedPort_setShedPort_same _ _ _
  show execShedScrub p l s = _
  unfold execShedScrub
  unfold scrubRead readOnce at hport
  simp only [hw, on_of_zero hp, Nat.not_lt.mpr hd, Bool.not_true, decide_false, Bool.or_self, Bool.false_eq_true, if_false, hport]
  rfl

theorem readOnce_below {blocks : List EraseBlock} {limit : Nat} (h : ∀ b ∈ blocks, b.reads + 1 < limit) (k : Nat) :
    ((readOnce blocks)[k]?).any (fun b => decide (limit ≤ b.reads)) = false := by
  unfold readOnce
  rw [List.getElem?_map]
  cases hk : blocks[k]? with
  | none => rfl
  | some b =>
    have hb := h b (List.mem_of_getElem? hk)
    refine decide_eq_false ?_
    show ¬ limit ≤ (if b.state = .valid then { b with reads := b.reads + 1 } else b).reads
    split
    · exact Nat.not_le.mpr hb
    · omega

theorem readOnce_states (blocks : List EraseBlock) : (readOnce blocks).map (·.state) = blocks.map (·.state) := by
  simp only [readOnce, List.map_map]
  refine List.map_congr_left (fun b _ => ?_)
  simp only [Function.comp]
  split <;> rfl

/-- Settles O45: each event by the state of its port and by what stands in its way. -/
theorem shedPortEvents : Obligations.ShedPortEvents := by
  intro s p x
  refine ⟨fun hc hd => ?train, shedPortTrain_idle, fun f hp ht hn => ?trained, fun f h => shedPortTrainDone_idle h f, fun hp hr => ?down,
    shedPortDown_unreadable, shedWearMove_rests, fun k j b => shedWearMove_moves, fun k n bad hp hr => ?reads, fun k n b hp hr hb hlim => ?below,
    fun k n b j bad => shedReadDisturbMove_moves, fun l hp hw hd => shedScrub_due hp hw hd l, fun l h => shedScrub_rests h l, fun hp hw hd hlim => ?scrub⟩
  case train =>
    have hport := foldl_markTraining_shedPort (List.range 8) s p
    refine ⟨_, shedPortTrain_marks hc hd, fun hp hen => ?_, fun hen => ?_, foldl_markTraining_io _ s⟩
    · rw [hport, if_pos ⟨List.mem_range.mpr hp, hen⟩]
    · rw [hport, if_neg (by simp [hen])]
  case trained =>
    exact ⟨shedPortTrainDone_unfit hp ht hn, fun hf =>
      ⟨portEntered s p f, shedPortTrainDone_fits hp ht hn hf, portEntered_inService s f hp, portEntered_dirtyMax s p f, portEntered_shedPort s p f⟩⟩
  case down => exact ⟨shedPortDown_leaves hp hr, outOfService_unreadable s hp, recomputeDirtyMax_max _, rfl⟩
  case reads =>
    have hexec := shedReadDisturbMove_reads (k := k) (n := n) (bad := bad) hp hr
    exact ⟨fun hb => by rw [hexec, hb]; rfl, fun b hb => by rw [hexec, hb]; rfl⟩
  case below =>
    have hexec := shedReadDisturbMove_reads (k := k) (n := n) (bad := false) hp hr
    have hno : ¬ ((s.get Fld.SH_RD_LIMIT_READS ≤ b.reads + n ∨ false = true) ∧ s.portWritable p = true) := by
      rintro ⟨hle | hbad, -⟩
      · omega
      · exact absurd hbad Bool.false_ne_true
    simp only [show (s.shedPort p).blocks[k]? = some b from hb, if_neg hno] at hexec
    refine ⟨_, hexec, ?_, rfl⟩
    rw [shedPort_setShedPort_same, readsAdded_block, show (s.shedPort p).blocks[k]? = some b from hb]
    rfl
  case scrub =>
    have hexec := shedScrub_due hp hw hd []
    have hnone : (List.range (s.shedPort p).blocks.length).filter (fun k => [].contains k ||
        ((readOnce (s.shedPort p).blocks)[k]?).any (fun b => decide (s.get Fld.SH_RD_LIMIT_READS ≤ b.reads))) = [] :=
      List.filter_eq_nil_iff.mpr (fun k _ => by
        simp only [List.contains_nil, Bool.false_or, readOnce_below (blocks := (s.shedPort p).blocks) hlim k, Bool.false_eq_true, not_false_iff])
    rw [hnone] at hexec
    have hport : (scrubRead s p).shedPort p = _ := shedPort_setShedPort_same _ _ _
    exact ⟨_, hexec, congrArg ShedPort.scrubDue hport, (congrArg (fun y => y.blocks.map (·.state)) hport).trans (readOnce_states _), rfl⟩

end Sys2Proof.Proofs
end

section
/-! The prefetch unit: a layer's start, the selection and arrival of objects, and the write that enables it (R143 to R145). -/

namespace Sys2Proof.Proofs

open Sys2Proof Sys2Proof.Machine Sys2Proof.Safety Sys2Proof.Laws

/-! ### PF_LAYER_START (R144, R145) -/

/-- The objects of the tenant's model, as a layer's start reads the table. -/
def layerObjects (s : State) (tn : Nat) : List (Nat × PfEntry) :=
  s.pfTableRead.pfObjects.filter (fun o => decide (o.2.model = s.pfTableRead.get (Fld.TN_CTRL_MODEL tn)))

/-- Those of the layer that the router selects. -/
def layerChosen (s : State) (tn n : Nat) (l : List Nat) : List (Nat × PfEntry) :=
  (layerObjects s tn).filter (fun o => decide (o.2.cls = 2) && decide (o.2.layer = n) && l.contains o.2.expert)

/-- The streamed objects of earlier layers given up. -/
def layerDropped (s : State) (tn n : Nat) : State :=
  ((layerObjects s tn).filter (fun o => decide (o.2.cls = 1) && decide (o.2.layer < n))).foldl (fun s o => s.pfUnuse tn o.1) s.pfTableRead

/-- Then those of the layer and of the layer ahead streamed, its pinned ones loaded, and the chosen ones selected. -/
def layerPrepared (s : State) (tn n : Nat) (l : List Nat) : State :=
  let ahead := n + (layerDropped s tn n).get Fld.PF_DISTANCE_LAYERS
  let streamed := ((layerObjects s tn).filter (fun o => decide (o.2.cls = 1) && decide (o.2.layer = n ∨ o.2.layer = ahead))).foldl
    (fun s o => s.pfStream tn o.1) (layerDropped s tn n)
  let pinned := ((layerObjects s tn).filter (fun o => decide (o.2.cls = 0) && decide (o.2.layer = n))).foldl (fun s o => s.pfLoad o.1) streamed
  (layerChosen s tn n l).foldl (fun s o => s.pfSelect o.1) pinned

/-- The objects that the layer needs and that are not in Tier 1 yet. -/
def layerLate (s : State) (tn n : Nat) (l : List Nat) : List Nat :=
  ((((layerObjects s tn).filter (fun o => decide (o.2.cls ≤ 1 ∧ o.2.layer = n))) ++ layerChosen s tn n l).map (·.1)).filter
    (fun k => !(layerPrepared s tn n l).pfReady k)

/-- A layer's wait put behind those that stand. -/
def awaiting (x : PfWait) (v : State) : State := { v with prefetch := { v.prefetch with waits := v.prefetch.waits ++ [x] } }

theorem awaiting_waits (x : PfWait) (v : State) : (awaiting x v).prefetch.waits = v.prefetch.waits ++ [x] := rfl
theorem awaiting_objects (x : PfWait) (v : State) : (awaiting x v).prefetch.objects = v.prefetch.objects := rfl
theorem awaiting_io (x : PfWait) (v : State) : (awaiting x v).io = v.io := rfl
theorem awaiting_t1 (x : PfWait) (v : State) : (awaiting x v).t1 = v.t1 := rfl

theorem pfLayerStart_rests {s : State} (h : s.get Fld.PF_CTRL_EN = 0 ∨ s.get Fld.PW_STATUS_PARKING = 1) (r : RoundLayer) (l : List Nat) :
    exec (.pfLayerStart r l) s = .next s := by
  refine congrArg next (if_pos ?_)
  obtain h | h := h
  · simp [on_of_zero h]
  · simp [on_of_one h]

/-- A layer's start prepares its objects, and waits for those that are late. -/
theorem pfLayerStart_prepares {s : State} (hen : s.get Fld.PF_CTRL_EN = 1) (hp : s.get Fld.PW_STATUS_PARKING = 0) (tn n : Nat) (l : List Nat) :
    exec (.pfLayerStart ⟨tn, n⟩ l) s = .next (if (layerLate s tn n l).isEmpty then layerPrepared s tn n l
      else awaiting ⟨tn, n, (layerPrepared s tn n l).now, layerLate s tn n l⟩ (layerPrepared s tn n l)) := by
  have hgo : ¬ (!s.on Fld.PF_CTRL_EN || s.on Fld.PW_STATUS_PARKING) = true := by simp [on_of_one hen, on_of_zero hp]
  show execPfLayerStart ⟨tn, n⟩ l s = _
  unfold execPfLayerStart
  rw [if_neg hgo]
  extract_lets u objs dropped streamed pinned chosen v needed late
  have hv : layerPrepared s tn n l = v := rfl
  have hl : layerLate s tn n l = late := rfl
  rw [hv, hl]
  rfl

/-! ### A promotable object selected (R145) -/

theorem pfSelect_hit {s : State} {k : Nat} (hr : s.pfReady k = true) :
    (s.pfSelect k).get Fld.PF_HIT_COUNT = (s.get Fld.PF_HIT_COUNT + 1) % 2 ^ 64 ∧ ((s.pfSelect k).resident k).lastUsed = s.prefetch.round := by
  have hload : s.pfLoad k = s := by simp [State.pfLoad, hr]
  unfold State.pfSelect
  simp only [hr, Bool.or_true, if_true, hload, resident_setResident_same]
  exact ⟨state_get_bump_same s _ 1 (by decide), rfl⟩

theorem pfSelect_miss {s : State} {k : Nat} (hl : (s.resident k).loading = false) (hr : s.pfReady k = false)
    (hload : ((s.pfLoad k).resident k).loading = true) :
    (s.pfSelect k).get Fld.PF_MISS_COUNT = ((s.pfLoad k).get Fld.PF_MISS_COUNT + 1) % 2 ^ 64 ∧
      ((s.pfSelect k).resident k).lastUsed = (s.pfLoad k).prefetch.round := by
  unfold State.pfSelect
  simp only [hl, hr, Bool.or_self, Bool.false_eq_true, if_false, hload, if_true, resident_setResident_same]
  exact ⟨state_get_bump_same (s.pfLoad k) _ 1 (by decide), rfl⟩

/-! ### PF_OBJECT_ARRIVED (R144) -/

theorem pfObjectArrived_rests {s : State} {k : Nat}
    (h : (s.resident k).loading = false ∨ s.pfEntry k = none ∨ s.get Fld.PW_STATUS_PARKING = 1) (l : List (Nat × List Byte)) :
    exec (.pfObjectArrived k l) s = .next s := by
  show execPfObjectArrived k l s = _
  unfold execPfObjectArrived
  cases he : s.pfEntry k with
  | none => rfl
  | some e =>
    obtain h | h | h := h
    · simp [h]
    · simp [he] at h
    · simp [on_of_one h]

/-- The stripe of a copy's Hive written where the copy lies. -/
def landStripe (e : PfEntry) (l : List (Nat × List Byte)) (u : State) (c : Nat × Nat) : State :=
  match l.find? (fun d => decide (d.1 = c.1)) with
  | some d => u.writeT1 (512 + e.model) c.2 (d.2.take e.bytes)
  | none => u

/-- Object `k` is on its way, no power warning stands, and the ports of its image can be read. -/
def Arriving (s : State) (k : Nat) (e : PfEntry) : Prop :=
  s.pfEntry k = some e ∧ (s.resident k).loading = true ∧ s.get Fld.PW_STATUS_PARKING = 0 ∧
    ∀ p < 8, e.ports.testBit p = true → s.portReadable p = true

theorem pfObjectArrived_lands {s : State} {k : Nat} {e : PfEntry} (ha : Arriving s k e) (l : List (Nat × List Byte)) :
    exec (.pfObjectArrived k l) s = .next
      ((((s.resident k).copies.foldl (landStripe e l) s).setResident k { s.resident k with loading := false }).pfArrived k) := by
  obtain ⟨he, hl, hp, hports⟩ := ha
  have hall : (List.range 8).all (fun p => !e.ports.testBit p || s.portReadable p) = true :=
    List.all_eq_true.mpr (fun p hp8 => by
      cases hb : e.ports.testBit p with
      | false => rfl
      | true => simp [hports p (List.mem_range.mp hp8) hb])
  show execPfObjectArrived k l s = _
  unfold execPfObjectArrived
  simp only [he, hl, on_of_zero hp, hall, Bool.not_true, Bool.or_self, Bool.false_eq_true, if_false]
  rfl

/-- The one stripe of an object with one copy. -/
theorem landStripe_one (e : PfEntry) (s : State) (n a : Nat) (d : List Byte) :
    [(n, a)].foldl (landStripe e [(n, d)]) s = s.writeT1 (512 + e.model) a (d.take e.bytes) := by
  simp [landStripe]

theorem writeT1_prefetch (s : State) (domain addr : Nat) (bytes : List Byte) : (s.writeT1 domain addr bytes).prefetch = s.prefetch :=
  (State.writeT1_frame s domain addr bytes).1.1 .prefetch (by decide)

/-- No layer waits for the object: its arrival ends no wait. -/
theorem pfArrived_unawaited {s : State} {k : Nat} (h : ∀ x ∈ s.prefetch.waits, k ∉ x.objects ∧ x.objects ≠ []) : s.pfArrived k = s := by
  have hmap : s.prefetch.waits.map (fun w => { w with objects := w.objects.filter (· ≠ k) }) = s.prefetch.waits := by
    refine (List.map_congr_left (fun w hw => ?_)).trans (List.map_id' _)
    have hkeep : w.objects.filter (· ≠ k) = w.objects :=
      List.filter_eq_self.mpr (fun j hj => decide_eq_true (fun hjk => (h w hw).1 (hjk ▸ hj)))
    rw [hkeep]
  have hstay : s.prefetch.waits.filter (fun w => !w.objects.isEmpty) = s.prefetch.waits :=
    List.filter_eq_self.mpr (fun w hw => by simpa using (h w hw).2)
  have hended : s.prefetch.waits.filter (fun w => w.objects.isEmpty) = [] :=
    List.filter_eq_nil_iff.mpr (fun w hw => by simpa using (h w hw).2)
  unfold State.pfArrived
  simp only [hmap, hstay, hended]
  rfl

/-- The last object that the one waiting layer waits for: its wait ends, is counted, and is told. -/
theorem pfArrived_last {s : State} {k a : Nat} {x : PfWait} (hw : s.prefetch.waits = [x]) (ho : x.objects = [k])
    (ha : ((s.resident k).copies.head?.map (·.2)).getD 0 = a) :
    s.pfArrived k = (State.bump { s with prefetch := { s.prefetch with waits := [] } } Fld.PF_WAIT_NS_NS (s.now - x.since)).raise
      { code := 0x0507, subject := 256 * hiveOf a + channelOf a, object := a } := by
  unfold State.pfArrived
  simp only [hw, ho, ha, ne_eq, decide_not, decide_true, Bool.not_true, Bool.false_eq_true, not_false_eq_true, List.map_cons, List.map_nil,
    List.filter_cons_of_neg, List.filter_cons_of_pos, List.filter_nil, List.isEmpty_nil, List.foldl_cons, List.foldl_nil]
  rfl

theorem pfObjectArrived_unawaited {s : State} {k n a : Nat} {e : PfEntry} {d : List Byte} (ha : Arriving s k e) (hc : (s.resident k).copies = [(n, a)])
    (hw : ∀ x ∈ s.prefetch.waits, k ∉ x.objects ∧ x.objects ≠ []) :
    exec (.pfObjectArrived k [(n, d)]) s =
      .next ((s.writeT1 (512 + e.model) a (d.take e.bytes)).setResident k { s.resident k with loading := false }) := by
  rw [pfObjectArrived_lands ha, hc, landStripe_one]
  refine congrArg next (pfArrived_unawaited fun x hx => hw x ?_)
  rwa [← writeT1_prefetch s]

theorem pfObjectArrived_last {s : State} {k n a : Nat} {e : PfEntry} {d : List Byte} {x : PfWait} (ha : Arriving s k e)
    (hc : (s.resident k).copies = [(n, a)]) (hw : s.prefetch.waits = [x]) (ho : x.objects = [k]) :
    let t := (s.writeT1 (512 + e.model) a (d.take e.bytes)).setResident k { s.resident k with loading := false }
    ∃ v : State, v.prefetch.waits = [] ∧ v.t1 = t.t1 ∧
      v.get Fld.PF_WAIT_NS_NS = (t.get Fld.PF_WAIT_NS_NS + (t.now - x.since)) % 2 ^ 64 ∧
      exec (.pfObjectArrived k [(n, d)]) s =
        .next (v.raise { code := 0x0507, subject := 256 * hiveOf a + channelOf a, object := a }) := by
  intro t
  have hexec := pfObjectArrived_lands ha [(n, d)]
  rw [hc, landStripe_one] at hexec
  have hwaits : t.prefetch.waits = [x] := (congrArg Prefetch.waits (writeT1_prefetch s _ _ _)).trans hw
  have hcopy : ((t.resident k).copies.head?.map (·.2)).getD 0 = a := by
    rw [resident_setResident_same]
    simp [hc]
  have hlast := pfArrived_last hwaits ho hcopy
  refine ⟨State.bump { t with prefetch := { t.prefetch with waits := [] } } Fld.PF_WAIT_NS_NS (t.now - x.since), rfl, rfl,
    state_get_bump_same _ _ _ (by decide), ?_⟩
  rw [← hlast, hexec]

/-! ### PF_ENABLE (R144) -/

/-- The write that its port may make is stored, and reads the pinned objects where it sets EN and no power warning stands. -/
theorem pfEnable_may {s : State} {w : RegWrite} (h : MayWrite s w Reg.PF_CTRL) :
    exec (.pfEnable w) s = .next (
      let u := (s.store w Reg.PF_CTRL).enGate Fld.PF_CTRL_EN
      if s.on Fld.PF_CTRL_EN || !u.on Fld.PF_CTRL_EN || u.on Fld.PW_STATUS_PARKING then u
      else (u.pfObjects.filter (fun o => decide (o.2.cls = 0))).foldl (fun s o => s.pfLoad o.1) u.pfTableRead) :=
  congrArg next (fromPort_may h)

/-- Settles O46: a layer's start, a selection, an arrival and the write of PF_CTRL, each by whether the unit acts on it. -/
theorem prefetchUnit : Obligations.PrefetchUnit := by
  intro s tn n k e d a w
  refine ⟨fun h l => pfLayerStart_rests h _ l, fun l hen hp => ?layer, fun _ => pfSelect_hit, pfSelect_miss, fun l h => pfObjectArrived_rests h l,
    fun l he hl hp hports => pfObjectArrived_lands ⟨he, hl, hp, hports⟩ l, fun he hl hp hports hc => ?oneCopy, fun hmay => ?enable⟩
  case layer =>
    intro u objs ahead dropped streamed pinned chosen v late
    have hv : layerPrepared s tn n l = v := rfl
    have hl : layerLate s tn n l = late := rfl
    have hexec := pfLayerStart_prepares hen hp tn n l
    rw [hv, hl] at hexec
    exact ⟨fun hlate => hexec.trans (congrArg next (if_pos (List.isEmpty_iff.mpr hlate))), fun hlate =>
      ⟨awaiting ⟨tn, n, v.now, late⟩ v, hexec.trans (congrArg next (if_neg (mt List.isEmpty_iff.mp hlate))), awaiting_waits _ v,
        awaiting_objects _ v, awaiting_io _ v, awaiting_t1 _ v⟩⟩
  case oneCopy =>
    have harr : Arriving s k e := ⟨he, hl, hp, hports⟩
    exact ⟨pfObjectArrived_unawaited harr hc, fun x => pfObjectArrived_last harr hc⟩
  case enable =>
    have hexec := pfEnable_may hmay
    refine ⟨fun hon => hexec.trans (congrArg next (if_pos ?_)), fun hoff hset hp => hexec.trans (congrArg next (if_neg ?_)),
      fun hoff hno => hexec.trans (congrArg next (if_pos ?_))⟩
    · simp [on_of_one hon]
    · simp [on_of_zero hoff, on_of_one hset, on_of_zero hp]
    · obtain hno | hno := hno
      · simp [on_of_zero hno]
      · simp [on_of_one hno]

end Sys2Proof.Proofs
end

section
/-! SUPPORT. What an executing Trondi instruction leaves, by what its own effect answers, and what a request spelt by a block in memory hands to its
engine (R255, R258, R278, R279). -/

namespace Sys2Proof.Proofs

open Sys2Proof Sys2Proof.Machine Sys2Proof.Safety Sys2Proof.Laws

/-- `i` executes from `s`, and its own effect starts from the state `t` with its unit `y`. -/
def ExecutesIn (i : Instr) (n : Insn) (cls : Nat) (s t : State) (y : UnitX) : Prop :=
  Executes i s ∧ seen n cls s = t ∧ t.unit n.slot n.unit = y

variable {i : Instr} {n : Insn} {cls op : Nat} {sh : Shape} {s t u : State} {y z : UnitX} {body : State → UnitX → Did}

theorem runInsn_retires (h : ExecutesIn i n cls s t y) (hi : trondi i = some (n, cls, op, sh)) (hb : body t y = .done u z none) :
    s.runInsn n cls op sh body = u.retire n.slot n.unit (y.pc + 16) z := by
  obtain ⟨he, rfl, rfl⟩ := h
  rw [runInsn_executes body he hi, hb]
  rfl

theorem runInsn_faults {cause addr : Nat} (h : ExecutesIn i n cls s t y) (hi : trondi i = some (n, cls, op, sh))
    (hb : body t y = .fault u cause addr) (hc : cause ≠ rereadWait) :
    s.runInsn n cls op sh body = u.faultContext n.slot n.unit cause addr (insnWord cls op n) := by
  obtain ⟨he, rfl, rfl⟩ := h
  rw [runInsn_executes body he hi, hb]
  exact if_neg hc

/-- An instruction whose request an engine took: the engine's state stands, and the unit goes on. -/
theorem runInsn_issues (h : ExecutesIn i n cls s t y) (hi : trondi i = some (n, cls, op, sh))
    (hb : body t y = .done u (u.unit n.slot n.unit) none) : s.runInsn n cls op sh body = issuedAt n y u :=
  runInsn_retires h hi hb

/-- A request with room for it, its engine there and enabled, leaves what the engine does of it. -/
theorem runInsn_engine {pair : Bool} {kind : Nat} {en : RegField} {act : State → Cmd → State} (h : ExecutesIn i n cls s t y)
    (hi : trondi i = some (n, cls, op, sh)) (hb : body t y = t.engine n y pair kind en act) (hroom : y.reqs.length < 8)
    (hkind : t.kindLost kind = false) (hen : t.on en = true) (hact : act (asking n y pair (t.hubCmd n) none t) (t.hubCmd n) = u) :
    s.runInsn n cls op sh body = issuedAt n y u := by
  subst hact
  exact runInsn_issues h hi (hb.trans (engine_acts hroom hkind hen))

/-- Bytes written at an address whose access passes. -/
theorem writing_ok {addr : Word} {align : Nat} {bytes : List Byte} {p : Place} (h : s.access n addr bytes.length align true = .ok p) :
    s.writing n y addr align bytes = .done (s.writePlace n y p bytes).1 (s.writePlace n y p bytes).2 none := by
  unfold State.writing
  rw [h]

/-- A block that is read, with an opcode that fits and a record address of the tenant's, reaches its engine. -/
theorem blockRequest_acts {pair : Bool} {record : Option Nat} {opOk : Nat → Bool} {act : State → Nat → Cmd → State} {b : List Byte}
    (hroom : y.reqs.length < 8) (hread : s.readIn (s.hubCmd n) (y.num n n.a) 0 64 = .ok b)
    (hu : (s.afterRead (s.context n.slot).tenant (y.num n n.a) 64).checkPoison = u)
    (hrec : ∀ a, record = some a → u.tenantOwns (s.context n.slot).tenant a 32 = true) (hop : opOk (recGet b 0 1) = true) :
    let v := act (asking n y pair (blockCmd n b) record u) (recGet b 0 1) (blockCmd n b)
    s.blockRequest n y pair record opOk act = .done v (v.unit n.slot n.unit) none := by
  intro v
  subst hu
  unfold State.blockRequest
  simp only [hread, hop, request_room hroom]
  cases record with
  | none => rfl
  | some a => simp [hrec a rfl, v]

end Sys2Proof.Proofs
end

section
/-! A Cell's list: what vx.ins, vx.lmerge, vx.lget, vx.lnext and vx.lclr leave in it (R189, R190, R194, R289, R292). -/

namespace Sys2Proof.Proofs

open Sys2Proof Sys2Proof.Machine Sys2Proof.Safety Sys2Proof.Laws

variable {n : Insn} {s t : State} {y : UnitX}

/-! ### vx.lmerge (R190, R289) -/

/-- A Cell of the partition in the Hive of the one that merges, and ABSENT. -/
theorem vxLmerge_absent (h : ExecutesIn (.vxLmerge n) n 9 s t y) {v : Nat} (hv : y.num n n.a = v) (hhive : v / 512 = n.unit / 512)
    (hcomb : (t.get (Fld.SCH_PART_COMBS (t.context n.slot).partition)).testBit (v / 256) = true) (habs : t.cellAbsent v = true) :
    exec (.vxLmerge n) s = .next (t.faultContext n.slot n.unit 0x0C v (insnWord 9 0x11 n)) := by
  subst hv
  exact next_congr (runInsn_faults h rfl (if_pos (by simp only [hhive, hcomb, habs, decide_true, Bool.and_self])) (by decide))

theorem vxLmerge_refused (h : ExecutesIn (.vxLmerge n) n 9 s t y) {v : Nat} (hv : y.num n n.a = v) (habs : t.cellAbsent v = false)
    (hno : t.mergeAllowed n.slot n.unit v = false) :
    exec (.vxLmerge n) s = .next (t.faultContext n.slot n.unit 0x04 v (insnWord 9 0x11 n)) := by
  subst hv
  refine next_congr (runInsn_faults h rfl ((if_neg ?_).trans (if_pos ?_)) (by decide))
  · simp [habs]
  · simp [hno]

theorem vxLmerge_merges (h : ExecutesIn (.vxLmerge n) n 9 s t y) {v : Nat} (hv : y.num n n.a = v) (habs : t.cellAbsent v = false)
    (hmay : t.mergeAllowed n.slot n.unit v = true) :
    exec (.vxLmerge n) s = .next (t.retire n.slot n.unit (y.pc + 16)
      (y.putList (ranked (y.list ++ (if v = n.unit then y else t.unit n.slot v).list)))) := by
  subst hv
  refine next_congr (runInsn_retires h rfl ((if_neg ?_).trans (if_neg ?_)))
  · simp [habs]
  · simp [hmay]

/-! ### vx.lget, vx.lnext (R194, R292) -/

/-- The 64 slots go to a scratchpad address whose access passes, and their count to D. -/
theorem vxLget_writes (h : ExecutesIn (.vxLget n) n 9 s t y) {bytes : List Byte} (hbytes : (padTo 64 (ranked y.list)).flatMap entryBytes = bytes)
    {p : Place} (hspace : (y.sreg n.a.toNat).toNat / 2 ^ 60 = 1) (hp : t.access n (y.sreg n.a.toNat) bytes.length 1 true = .ok p) :
    exec (.vxLget n) s = .next ((t.writePlace n y p bytes).1.retire n.slot n.unit (y.pc + 16)
      ((t.writePlace n y p bytes).2.put n.d (ranked y.list).length)) := by
  subst hbytes
  refine next_congr (runInsn_retires h rfl ((if_neg (not_not_intro hspace)).trans ?_))
  rw [writing_ok hp]

theorem vxLnext_empty (h : ExecutesIn (.vxLnext n) n 9 s t y) (hlast : (ranked y.list).getLast? = none) :
    exec (.vxLnext n) s = .next (t.retire n.slot n.unit (y.pc + 16) (y.putList [])) :=
  next_congr (runInsn_retires h rfl (by simp only [hlast]))

theorem vxLnext_lowers (h : ExecutesIn (.vxLnext n) n 9 s t y) {e : Entry} (hlast : (ranked y.list).getLast? = some e) :
    exec (.vxLnext n) s = .next (t.retire n.slot n.unit (y.pc + 16) ((y.putFloor e).putList [])) :=
  next_congr (runInsn_retires h rfl (by simp only [hlast]))

/-- Settles O28: vx.ins and vx.lclr act on the list alone; vx.lmerge goes by the Cell it names, vx.lnext by the list's last entry. -/
theorem listInstructions : Obligations.ListInstructions := by
  intro n s t y v shard values offered gives
  refine ⟨?ins, ?merges, ?refused, ?absent, ?lget, ?empty, ?lowers, ?lclr⟩
  case ins => exact fun he => next_congr (runInsn_retires ⟨he, rfl, rfl⟩ rfl rfl)
  case merges => exact fun habs hmay he => vxLmerge_merges ⟨he, rfl, rfl⟩ rfl habs hmay
  case refused => exact fun habs hno he => vxLmerge_refused ⟨he, rfl, rfl⟩ rfl habs hno
  case absent => exact fun hhive hcomb habs he => vxLmerge_absent ⟨he, rfl, rfl⟩ rfl hhive hcomb habs
  case lget => exact fun p hspace hp he => vxLget_writes ⟨he, rfl, rfl⟩ rfl hspace hp
  case empty => exact fun hlast he => vxLnext_empty ⟨he, rfl, rfl⟩ hlast
  case lowers => exact fun e hlast he => vxLnext_lowers ⟨he, rfl, rfl⟩ hlast
  case lclr => exact fun he => next_congr (runInsn_retires ⟨he, rfl, rfl⟩ rfl rfl)

end Sys2Proof.Proofs
end

section
/-! Selection and search requests: SELECT, the class SL and vs.cmd (R177, R196 to R206, R299, R301). -/

namespace Sys2Proof.Proofs

open Sys2Proof Sys2Proof.Machine Sys2Proof.Safety Sys2Proof.Laws

variable {n : Insn} {s t u : State} {y : UnitX} {b : List Byte}

/-! ### Requests spelt by a block: sl.merge, vs.cmd (R299, R301) -/

/-- The block of a merge is read, and its lists merged. -/
theorem slMerge_merges (h : ExecutesIn (.slMerge n) n 0x1A s t y) (hroom : y.reqs.length < 8)
    (hread : t.readIn (t.hubCmd n) (y.num n n.a) 0 64 = .ok b)
    (hu : (t.afterRead (t.context n.slot).tenant (y.num n n.a) 64).checkPoison = u) :
    let c := blockCmd n b
    let v := asking n y true c none u
    let r := v.selectLists (v.context n.slot).tenant 0 true (opU32 c 32) (opU32 c 36) (opByte c 40) (opU32 c 44) c.addrA.toNat c.addrB.toNat
    exec (.slMerge n) s = .next (issuedAt n y (r.1.complete c r.2.1 r.2.2.1)) :=
  next_congr (runInsn_issues h rfl (blockRequest_acts hroom hread hu nofun rfl))

/-- A search command spelt by a block goes to the engine, its completion record at B. -/
theorem vsCmd_searches (h : ExecutesIn (.vsCmd n) n 0x1B s t y) (hroom : y.reqs.length < 8)
    (hread : t.readIn (t.hubCmd n) (y.num n n.a) 0 64 = .ok b)
    (hu : (t.afterRead (t.context n.slot).tenant (y.num n n.a) 64).checkPoison = u)
    (hown : u.tenantOwns (t.context n.slot).tenant (y.num n n.b) 32 = true) (hop : 0x60 ≤ recGet b 0 1 ∧ recGet b 0 1 ≤ 0x64) :
    exec (.vsCmd n) s =
      .next (issuedAt n y ((asking n y true (blockCmd n b) (some (y.num n n.b)) u).vsOpcode (recGet b 0 1) (blockCmd n b))) := by
  refine next_congr (runInsn_issues h rfl (blockRequest_acts hroom hread hu (fun a ha => ?_) (decide_eq_true hop)))
  obtain rfl := Option.some.inj ha
  exact hown

/-! ### sl.gather, sl.draw (R177, R196, R202, R203, R299) -/

theorem slGather_gathers (h : ExecutesIn (.slGather n) n 0x1A s t y) (hroom : y.reqs.length < 8) (hkind : t.kindLost 4 = false)
    (hen : t.on Fld.SEL_CTRL_EN = true) :
    let v := asking n y false (t.hubCmd n) none t
    let r := v.gatherResult (v.context n.slot).tenant (y.num n n.a) (y.num n n.b) (y.num n n.c) (n.imm.toNat % 2 ^ 13)
    exec (.slGather n) s = .next (issuedAt n y (r.1.complete (t.hubCmd n) r.2)) :=
  next_congr (runInsn_engine h rfl rfl hroom hkind hen rfl)

/-- Selection takes a draw for the stall `i`: RUNNING, a position among its drafts, and a profile that is the step's own, at no address of Tier 1, or
the tenant's. -/
def Drawable (v : State) (c : Cmd) (n : Insn) (y : UnitX) (tenant i : Nat) : Prop :=
  v.runningStall c (y.num n n.c) = .ok i ∧ n.imm.toNat % 16 ≤ (((v.stall i).step.map (·.drafts)).getD []).length ∧
    ((v.stall i).step.any (fun p => decide (p.profileAt = y.num n n.b)) = true ∨ v.addrOk (y.num n n.b) 32 = false ∨
      v.tenantOwns tenant (y.num n n.b) 32 = true)

/-- The state with a draw of the stall `i` among those that wait for the mask of their position, counted and told. -/
def drawWaiting (u : State) (i : Nat) (q : DrawWait) : State :=
  ((u.setStall i { u.stall i with step := (u.stall i).step.map (fun p => { p with waits := p.waits ++ [q] }) }).bump
    Fld.GR_LATE_CNT_COUNT 1).stallEvent 0x0804 i

/-- A draw that selection takes, its profile read: it waits where its mask is late and the stall has a grammar, and is answered where not. -/
def drawTaken (u : State) (c : Cmd) (n : Insn) (y : UnitX) (late : Bool) (i : Nat) (profile : Option (List Byte)) : State :=
  if late && (u.stall i).hdr.grImage ≠ 0 then
    drawWaiting u i ⟨n.slot, n.unit, coreOf c, n.imm.toNat % 16, y.num n n.a, flagBit n 0, profile, u.now⟩
  else
    let r := u.drawAt i (n.imm.toNat % 16) (y.num n n.a) (flagBit n 0) profile
    r.1.complete c r.2.1 r.2.2

theorem drawTaken_answers {c : Cmd} {late : Bool} {i : Nat} {w : Option (List Byte)} (h : late = false ∨ (u.stall i).hdr.grImage = 0) :
    let r := u.drawAt i (n.imm.toNat % 16) (y.num n n.a) (flagBit n 0) w
    drawTaken u c n y late i w = r.1.complete c r.2.1 r.2.2 :=
  if_neg (by obtain h | h := h <;> simp [h])

theorem drawTaken_waits {c : Cmd} {late : Bool} {i : Nat} {w : Option (List Byte)} (hl : late = true) (hg : (u.stall i).hdr.grImage ≠ 0) :
    drawTaken u c n y late i w =
      drawWaiting u i ⟨n.slot, n.unit, coreOf c, n.imm.toNat % 16, y.num n n.a, flagBit n 0, w, u.now⟩ :=
  if_pos (by simp [hl, hg])

theorem slDraw_takes {late : Bool} {i : Nat} (h : ExecutesIn (.slDraw n late) n 0x1A s t y) (hroom : y.reqs.length < 8)
    (hkind : t.kindLost 4 = false) (hen : t.on Fld.SEL_CTRL_EN = true)
    (hd : Drawable (asking n y true (t.hubCmd n) none t) (t.hubCmd n) n y (t.context n.slot).tenant i) :
    let v := asking n y true (t.hubCmd n) none t
    exec (.slDraw n late) s = .next (issuedAt n y
      (drawTaken (v.drawProfile i (y.num n n.b)).1 (t.hubCmd n) n y late i (v.drawProfile i (y.num n n.b)).2)) := by
  intro v
  obtain ⟨hrun, hpos, hprofile⟩ := hd
  have htaken : ¬ (decide ((((v.stall i).step.map (·.drafts)).getD []).length < n.imm.toNat % 16) ||
      (!(v.stall i).step.any (fun p => decide (p.profileAt = y.num n n.b)) && v.addrOk (y.num n n.b) 32 &&
        !v.tenantOwns (v.context n.slot).tenant (y.num n n.b) 32)) = true := by
    rw [asking_tenant]
    obtain hp | hp | hp := hprofile <;> simp [v, hp, Nat.not_lt.mpr hpos]
  refine next_congr (runInsn_engine h rfl rfl hroom hkind hen ?_)
  simp only [hrun]
  exact if_neg htaken

/-- Settles O31: SELECT by its own effect; a block's request by the block that is read; a gathering and a draw by what selection
answers. -/
theorem selectionAndSearchInstructions : Obligations.SelectionAndSearchInstructions := by
  refine ⟨fun c s hacc => next_congr (runCmd_accepted hacc), fun n s => ⟨?classSL, ?vsCmd⟩⟩
  case classSL =>
    intro t y d c gives
    refine ⟨fun b u hroom hread hu he => slMerge_merges ⟨he, rfl, rfl⟩ hroom hread hu, fun hroom hkind hen =>
      ⟨fun he => slGather_gathers ⟨he, rfl, rfl⟩ hroom hkind hen, ?draw⟩, fun he => next_congr (runInsn_retires ⟨he, rfl, rfl⟩ rfl rfl)⟩
    case draw =>
      intro i late v j hrun hpos hprofile u w
      have htakes (he : Executes (.slDraw n late) s) := slDraw_takes ⟨he, rfl, rfl⟩ hroom hkind hen ⟨hrun, hpos, hprofile⟩
      exact ⟨fun hready he => (htakes he).trans (next_congr (congrArg (issuedAt n y) (drawTaken_answers hready))),
        fun hl hg he => (htakes he).trans (next_congr (congrArg (issuedAt n y) (drawTaken_waits hl hg)))⟩
  case vsCmd =>
    intro t y b u he hroom hread hu hown hlo hhi
    exact vsCmd_searches ⟨he, rfl, rfl⟩ hroom hread hu hown ⟨hlo, hhi⟩

end Sys2Proof.Proofs
end

section
/-! The tag filter of a query: what one comparison offers to the result list (R216, R221, R224). -/

namespace Sys2Proof.Proofs

open Sys2Proof Sys2Proof.Machine Sys2Proof.Safety Sys2Proof.Laws

variable {a : VsRun} {q : VsAsk} {k n : Nat} {code : List Byte} {x : VsMeta}

theorem visible_iff (x : VsMeta) (snap : Nat) : x.visible snap = true ↔ x.insGen ≤ snap ∧ snap < x.delGen := decide_eq_true_iff

theorem passes_iff (q : VsAsk) (tags : Nat) : q.passes tags = true ↔ q.mask = 0 ∨ tags &&& q.mask = q.match_ := by
  simp [VsAsk.passes]

/-- A code whose bytes and metadata are read is compared, and is offered to the result list if it is visible and passes the filter. -/
theorem strain_of_read (hcode : a.s.vsCode q.t q.r k n = .ok code) (hmeta : a.s.vsMeta q.t q.r k n = .ok x) :
    (a.strain q k n).2 = some (vsDistance q.code code) ∧
    (a.strain q k n).1.best = if x.visible q.snap && q.passes x.tags then vsOffer q.k (vsDistance q.code code, n) a.best else a.best := by
  simp [VsRun.strain, hcode, hmeta]

theorem strain_offers (hcode : a.s.vsCode q.t q.r k n = .ok code) (hmeta : a.s.vsMeta q.t q.r k n = .ok x)
    (hvisible : x.visible q.snap = true) (hpasses : q.passes x.tags = true) :
    (a.strain q k n).1.best = vsOffer q.k (vsDistance q.code code, n) a.best := by
  simp [strain_of_read hcode hmeta, hvisible, hpasses]

/-- A code that fails the filter leaves the result list as it was, whether or not it is visible (R222). -/
theorem strain_filtered (hcode : a.s.vsCode q.t q.r k n = .ok code) (hmeta : a.s.vsMeta q.t q.r k n = .ok x)
    (hfails : ¬ q.passes x.tags = true) : (a.strain q k n).1.best = a.best := by
  simp [strain_of_read hcode hmeta, hfails]

/-- Settles O41: a code that is read is compared, and a visible one offered exactly where the mask is 0 or its tags match. -/
theorem tagFilter : Obligations.TagFilter := by
  intro a q k n code x hcode hmeta hins hdel
  have hvisible : x.visible q.snap = true := (visible_iff x q.snap).2 ⟨hins, hdel⟩
  refine ⟨fun hmask => ?unmasked, fun hmatch => ?matching, fun hmask hmatch => ?failing, (strain_of_read hcode hmeta).1⟩
  case unmasked => exact strain_offers hcode hmeta hvisible ((passes_iff q x.tags).2 (.inl hmask))
  case matching => exact strain_offers hcode hmeta hvisible ((passes_iff q x.tags).2 (.inr hmatch))
  case failing => exact strain_filtered hcode hmeta fun hpasses => ((passes_iff q x.tags).1 hpasses).elim hmask hmatch

end Sys2Proof.Proofs
end

section
/-! A unit's registers: what a write leaves in the register written, in the others of its kind, and in the rest of the unit (R238, R239, R271). -/

namespace Sys2Proof.Proofs

open Sys2Proof Sys2Proof.Machine Sys2Proof.Safety Sys2Proof.Laws

variable {i j : Nat}

/-! ### Scalar and tile registers -/

@[simp] theorem sreg_setS_same (y : UnitX) (i : Nat) (v : Word) : (y.setS i v).sreg i = v := sparseGet_put_same _ _ _ _

theorem sreg_setS_other (y : UnitX) (v : Word) (h : j ≠ i) : (y.setS i v).sreg j = y.sreg j := sparseGet_put_other _ _ _ _ _ _ h

@[simp] theorem tile_setT_same (y : UnitX) (i : Nat) (v : BitVec 128) : (y.setT i v).tile i = v := sparseGet_put_same _ _ _ _

theorem tile_setT_other (y : UnitX) (v : BitVec 128) (h : j ≠ i) : (y.setT i v).tile j = y.tile j := sparseGet_put_other _ _ _ _ _ _ h

/-! ### Vector registers -/

/-- Lanes of 64 to a register: one lane written is that lane of that register. -/
theorem vlane_setLane (y : UnitX) (v : BitVec 32) {r l q m : Nat} (hl : l < 64) (hm : m < 64) :
    (y.setLane r l v).vlane q m = if q = r ∧ m = l then v else y.vlane q m := by
  split
  next h =>
    obtain ⟨rfl, rfl⟩ := h
    exact sparseGet_put_same _ _ _ _
  next h => exact sparseGet_put_other _ _ _ _ _ _ (by omega)

theorem vlane_foldl_setLane (f : Nat → BitVec 32) {ls : List Nat} {r q m : Nat} (hls : ∀ l ∈ ls, l < 64) (hm : m < 64) (y : UnitX) :
    (ls.foldl (fun x l => x.setLane r l (f l)) y).vlane q m = if q = r ∧ m ∈ ls then f m else y.vlane q m := by
  induction ls generalizing y with
  | nil => simp
  | cons l ls ih =>
    rw [List.foldl_cons, ih (fun k hk => hls k (List.mem_cons_of_mem _ hk)), vlane_setLane y _ (hls l List.mem_cons_self) hm]
    by_cases hq : q = r <;> by_cases hml : m = l <;> simp [hq, hml]

theorem vlane_setV (y : UnitX) (f : Nat → BitVec 32) {r q m : Nat} (hm : m < 64) :
    (y.setV r f).vlane q m = if q = r then f m else y.vlane q m := by
  rw [UnitX.setV, vlane_foldl_setLane f (fun l => List.mem_range.mp) hm]
  simp [hm]

theorem foldl_setLane_frame (f : Nat → BitVec 32) (r : Nat) (ls : List Nat) (y : UnitX) (w : List (Nat × BitVec 32)) :
    { ls.foldl (fun x l => x.setLane r l (f l)) y with v := w } = { y with v := w } := by
  induction ls generalizing y with
  | nil => rfl
  | cons l ls ih => exact ih (y.setLane r l (f l))

/-! ### Predicate registers -/

theorem testBit_add_two_pow_other {p b k : Nat} (h : p.testBit b = false) (hk : k ≠ b) : (p + 2 ^ b).testBit k = p.testBit k := by
  induction b generalizing p k with
  | zero =>
    obtain ⟨k, rfl⟩ := Nat.exists_eq_succ_of_ne_zero hk
    have heven : p % 2 = 0 := by simpa [Nat.testBit_zero] using h
    have hhalf : (p + 2 ^ 0) / 2 = p / 2 := by omega
    rw [Nat.testBit_add_one, hhalf, ← Nat.testBit_add_one]
  | succ b ih =>
    have htwice : 2 ^ (b + 1) = 2 * 2 ^ b := by ring
    cases k with
    | zero =>
      have hparity : (p + 2 ^ (b + 1)) % 2 = p % 2 := by omega
      simp only [Nat.testBit_zero, hparity]
    | succ k =>
      have hhalf : (p + 2 ^ (b + 1)) / 2 = p / 2 + 2 ^ b := by omega
      rw [Nat.testBit_add_one] at h
      rw [Nat.testBit_add_one, Nat.testBit_add_one, hhalf, ih h (by omega)]

/-- A flag bit set to a value: a clear one is added, a set one taken off, and no other bit moves. -/
theorem testBit_setFlagBit (b : Nat) (v : Bool) (p k : Nat) : (setFlagBit b v p).testBit k = if k = b then v else p.testBit k := by
  unfold setFlagBit
  by_cases hsame : p.testBit b = v
  · rw [if_pos hsame]
    split
    · subst k
      exact hsame
    · rfl
  · rw [if_neg hsame]
    cases v with
    | true =>
      have hclear : p.testBit b = false := by simpa using hsame
      rw [if_pos rfl]
      split
      · subst k
        simp [Nat.add_comm p, Nat.testBit_two_pow_add_eq, hclear]
      · next hk => exact testBit_add_two_pow_other hclear hk
    | false =>
      have hset : p.testBit b = true := by simpa using hsame
      obtain ⟨q, rfl⟩ := Nat.exists_eq_add_of_le' (Nat.ge_two_pow_of_testBit hset)
      have hclear : q.testBit b = false := by simpa [Nat.add_comm q, Nat.testBit_two_pow_add_eq] using hset
      rw [if_neg Bool.false_ne_true, Nat.add_sub_cancel]
      split
      · subst k
        exact hclear
      · next hk => exact (testBit_add_two_pow_other hclear hk).symm

@[simp] theorem setP_zero (y : UnitX) (v : Bool) : y.setP 0 v = y := if_pos rfl

theorem setP_of_ne_zero (y : UnitX) (v : Bool) (h : i ≠ 0) : y.setP i v = { y with p := setFlagBit i v y.p } := if_neg h

theorem pred_setP_same (y : UnitX) (v : Bool) (h : i ≠ 0) : (y.setP i v).pred i = v := by
  rw [setP_of_ne_zero y v h]
  simp [UnitX.pred, h, testBit_setFlagBit]

theorem pred_setP_other (y : UnitX) (v : Bool) (h : j ≠ i) : (y.setP i v).pred j = y.pred j := by
  by_cases hi : i = 0
  · rw [hi, setP_zero]
  · rw [setP_of_ne_zero y v hi]
    simp [UnitX.pred, h, testBit_setFlagBit]

theorem setP_frame (y : UnitX) (i : Nat) (v : Bool) : { y.setP i v with p := y.p } = y := by
  by_cases hi : i = 0
  · rw [hi, setP_zero]
  · rw [setP_of_ne_zero y v hi]

/-- Settles O24: each kind of register by its own write, vector registers lane by lane and predicates bit by bit. -/
theorem registerFileFrames : Obligations.RegisterFileFrames := by
  intro y i
  refine ⟨fun v => ⟨sreg_setS_same y i v, fun j => sreg_setS_other y v, rfl⟩,
    fun v => ⟨tile_setT_same y i v, fun j => tile_setT_other y v, rfl⟩,
    fun f => ⟨fun l hl => ?written, fun j l hj _ hl => ?others, foldl_setLane_frame f i _ y y.v⟩,
    fun v => ⟨pred_setP_same y v, fun j => pred_setP_other y v, setP_frame y i v⟩, setP_zero y, rfl⟩
  case written => rw [vlane_setV y f hl, if_pos rfl]
  case others => rw [vlane_setV y f hl, if_neg hj]

end Sys2Proof.Proofs
end

section
/-! How a Trondi instruction is issued: the checks of R275 in their order, and what each leaves where it fails (R248, R255, R256, R259,
R276, R277). -/

namespace Sys2Proof.Proofs

open Sys2Proof Sys2Proof.Machine Sys2Proof.Safety Sys2Proof.Laws

variable {s : State} {n : Insn} {cls op w : Nat} {sh : Shape} {body : State → UnitX → Did}

/-! ### Fetch -/

/-- The unit of `n` can issue, its PC names a word of the code, and fetching that word answers `r`. -/
def FetchAnswers (s : State) (n : Insn) (r : Except Nat Nat) : Prop :=
  s.canIssue n = true ∧ (s.unit n.slot n.unit).pc + 16 ≤ (s.context n.slot).codeBytes ∧ (s.unit n.slot n.unit).pc % 16 = 0 ∧
    s.fetchWord n.slot n.unit = r

theorem runInsn_held (h : s.canIssue n = false) : s.runInsn n cls op sh body = s := by
  unfold State.runInsn
  simp [h]

theorem runInsn_outside (h : s.canIssue n = true)
    (hpc : (s.context n.slot).codeBytes < (s.unit n.slot n.unit).pc + 16 ∨ (s.unit n.slot n.unit).pc % 16 ≠ 0) :
    s.runInsn n cls op sh body = s.faultContext n.slot n.unit 0x10 (s.unit n.slot n.unit).pc 0 := by
  unfold State.runInsn
  unfold State.unit at hpc ⊢
  simp [h, hpc]

theorem runInsn_unreadable {cause : Nat} (h : FetchAnswers s n (.error cause)) :
    s.runInsn n cls op sh body = s.faultContext n.slot n.unit cause ((s.context n.slot).codeAt + (s.unit n.slot n.unit).pc) 0 := by
  obtain ⟨hissue, hin, halign, hw⟩ := h
  unfold State.runInsn
  unfold State.unit at hin halign ⊢
  simp [hissue, Nat.not_lt.mpr hin, halign, hw]

theorem runInsn_anotherWord (h : FetchAnswers s n (.ok w)) (hne : w ≠ insnWord cls op n) :
    s.runInsn n cls op sh body = s.otherWord n w := by
  obtain ⟨hissue, hin, halign, hw⟩ := h
  unfold State.runInsn
  unfold State.unit at hin halign
  simp [hissue, Nat.not_lt.mpr hin, halign, hw, hne]

/-! ### Another instruction's word -/

theorem otherWord_reservedClass (h : classSide (w / 2 ^ 122) = none) : s.otherWord n w = s.faultContext n.slot n.unit 0x01 0 w := by
  simp only [State.otherWord, h]

theorem otherWord_wrongSide {side : CtxSide} (h : classSide (w / 2 ^ 122) = some side) (hside : sideOk (s.context n.slot).hub side = false) :
    s.otherWord n w = s.faultContext n.slot n.unit 0x02 0 w := by
  simp only [State.otherWord, h, hside, Bool.not_false, if_true]

/-- The word's opcode is none of its class, or it selects a reserved operation of a shared opcode. -/
def ReservedOp (w : Nat) : Prop :=
  opDefined (w / 2 ^ 122) (w / 2 ^ 112 % 2 ^ 10) = false ∨ subReserved (w / 2 ^ 122) (w / 2 ^ 112 % 2 ^ 10) (w / 2 ^ 100 % 2 ^ 8) = true

theorem otherWord_reservedOp {side : CtxSide} (h : classSide (w / 2 ^ 122) = some side) (hside : sideOk (s.context n.slot).hub side = true)
    (hop : ReservedOp w) : s.otherWord n w = s.faultContext n.slot n.unit 0x01 0 w := by
  have hor : (!opDefined (w / 2 ^ 122) (w / 2 ^ 112 % 2 ^ 10) ||
      subReserved (w / 2 ^ 122) (w / 2 ^ 112 % 2 ^ 10) (w / 2 ^ 100 % 2 ^ 8)) = true := by
    obtain hdefined | hsub := hop
    · simp only [hdefined, Bool.not_false, Bool.true_or]
    · simp only [hsub, Bool.or_true]
  simp only [State.otherWord, h, hside, hor, Bool.not_true, Bool.false_eq_true, if_false, if_true]

theorem otherWord_left {side : CtxSide} (h : classSide (w / 2 ^ 122) = some side) (hside : sideOk (s.context n.slot).hub side = true)
    (hop : ¬ ReservedOp w) : s.otherWord n w = s := by
  simp only [ReservedOp, not_or, Bool.not_eq_false, Bool.not_eq_true] at hop
  obtain ⟨hdefined, hsub⟩ := hop
  simp only [State.otherWord, h, hside, hdefined, hsub, Bool.not_true, Bool.or_self, Bool.false_eq_true, if_false]

/-! ### The checks of the instruction's own word -/

/-- A register that the instruction names waits for the answer of a request (R277). -/
def namesPending (s : State) (n : Insn) (sh : Shape) : Bool :=
  (touched sh n).any (fun r => (s.unit n.slot n.unit).reqs.any (fun q => (pendingRegs q).contains r))

/-- From its fetch on, an instruction meets R275's checks in this order. -/
theorem runInsn_of_fetches (h : Fetches n cls op s) : s.runInsn n cls op sh body =
    if sideOk (s.context n.slot).hub sh.side = false then s.faultContext n.slot n.unit 0x02 0 (insnWord cls op n)
    else if staticOk (s.context n.slot).hub sh n = false then s.faultContext n.slot n.unit 0x01 0 (insnWord cls op n)
    else if predicateOn (s.unit n.slot n.unit) n = false then s.retire n.slot n.unit ((s.unit n.slot n.unit).pc + 16) (s.unit n.slot n.unit)
    else if namesPending s n sh = true then s
    else if ((seen n cls s).context n.slot).state ≠ .running then seen n cls s
    else didEnd n cls op ((seen n cls s).unit n.slot n.unit) (body (seen n cls s) ((seen n cls s).unit n.slot n.unit)) := by
  obtain ⟨hissue, hin, halign, hw⟩ := h
  unfold State.runInsn namesPending
  unfold State.unit at hin halign ⊢
  simp only [hissue, Nat.not_lt.mpr hin, halign, hw, Bool.not_true, Bool.not_eq_true', Bool.false_eq_true, decide_false, Bool.or_self, ne_eq,
    not_true_eq_false, if_false]
  rfl

theorem runInsn_wrongSide (h : Fetches n cls op s) (hside : sideOk (s.context n.slot).hub sh.side = false) :
    s.runInsn n cls op sh body = s.faultContext n.slot n.unit 0x02 0 (insnWord cls op n) := by
  rw [runInsn_of_fetches h, if_pos hside]

theorem runInsn_badEncoding (h : Fetches n cls op s) (hside : sideOk (s.context n.slot).hub sh.side = true)
    (hok : staticOk (s.context n.slot).hub sh n = false) :
    s.runInsn n cls op sh body = s.faultContext n.slot n.unit 0x01 0 (insnWord cls op n) := by
  rw [runInsn_of_fetches h, if_neg (by simp [hside]), if_pos hok]

theorem runInsn_predicatedOff (h : Fetches n cls op s) (hside : sideOk (s.context n.slot).hub sh.side = true)
    (hok : staticOk (s.context n.slot).hub sh n = true) (hp : predicateOn (s.unit n.slot n.unit) n = false) :
    s.runInsn n cls op sh body = s.retire n.slot n.unit ((s.unit n.slot n.unit).pc + 16) (s.unit n.slot n.unit) := by
  rw [runInsn_of_fetches h, if_neg (by simp [hside]), if_neg (by simp [hok]), if_pos hp]

theorem runInsn_waitsForAnswer (h : Fetches n cls op s) (hside : sideOk (s.context n.slot).hub sh.side = true)
    (hok : staticOk (s.context n.slot).hub sh n = true) (hp : predicateOn (s.unit n.slot n.unit) n = true) (hreg : namesPending s n sh = true) :
    s.runInsn n cls op sh body = s := by
  rw [runInsn_of_fetches h, if_neg (by simp [hside]), if_neg (by simp [hok]), if_neg (by simp [hp]), if_pos hreg]

/-- Settles O21: every Trondi instruction is issued in one way, and each check of that way leaves what its case says. -/
theorem issueChecksInOrder : Obligations.IssueChecksInOrder := by
  intro i s n cls op sh hi x y
  obtain ⟨body, hexec⟩ := exec_trondi i s hi
  rw [hexec]
  refine ⟨fun h => next_congr (runInsn_held h), fun h hpc => next_congr (runInsn_outside h hpc),
    fun h hside => next_congr (runInsn_wrongSide h hside), fun h hside hok => next_congr (runInsn_badEncoding h hside hok),
    fun cause h hin halign hw => next_congr (runInsn_unreadable ⟨h, hin, halign, hw⟩), fun w h hin halign hw hne => ?another,
    fun h hside hok hp => next_congr (runInsn_predicatedOff h hside hok hp),
    fun h hside hok hp hreg => next_congr (runInsn_waitsForAnswer h hside hok hp hreg)⟩
  case another =>
    rw [runInsn_anotherWord ⟨h, hin, halign, hw⟩ hne]
    exact ⟨fun hclass => next_congr (otherWord_reservedClass hclass), fun side hclass =>
      ⟨fun hside => next_congr (otherWord_wrongSide hclass hside), fun hside hop => next_congr (otherWord_reservedOp hclass hside hop),
        fun hside hop => next_congr (otherWord_left hclass hside hop)⟩⟩

end Sys2Proof.Proofs
end

section
/-! Control and sync instructions, and the rows that end sync's waits (R245, R278, R280 to R282, R339, R345, R346). -/

namespace Sys2Proof.Proofs

open Sys2Proof Sys2Proof.Machine Sys2Proof.Safety Sys2Proof.Laws

variable {i : Instr} {n : Insn} {cls op : Nat} {sh : Shape} {s t u : State} {y z : UnitX} {body : State → UnitX → Did}

/-! ### Effects that end otherwise than at the next word -/

theorem runInsn_branches {target : Nat} (h : ExecutesIn i n cls s t y) (hi : trondi i = some (n, cls, op, sh))
    (hb : body t y = .done u z (some target)) : s.runInsn n cls op sh body = u.retire n.slot n.unit target z := by
  obtain ⟨he, rfl, rfl⟩ := h
  rw [runInsn_executes body he hi, hb]
  rfl

theorem runInsn_holds (h : ExecutesIn i n cls s t y) (hi : trondi i = some (n, cls, op, sh)) (hb : body t y = .hold u) :
    s.runInsn n cls op sh body = u := by
  obtain ⟨he, rfl, rfl⟩ := h
  rw [runInsn_executes body he hi, hb]
  rfl

/-! ### CT (R280, R281) -/

theorem ctCall_pushes (h : ExecutesIn (.ctCall n) n 1 s t y) :
    exec (.ctCall n) s = .next (if 16 ≤ y.ret.length then t.faultContext n.slot n.unit 0x0D 0 (insnWord 1 3 n)
      else t.retire n.slot n.unit (branchTo y n) { y with ret := (y.pc + 16) :: y.ret }) := by
  split
  · next hfull => exact next_congr (runInsn_faults h rfl (if_pos hfull) (by decide))
  · next hroom => exact next_congr (runInsn_branches h rfl (if_neg hroom))

theorem ctRet_empty (h : ExecutesIn (.ctRet n) n 1 s t y) (hret : y.ret = []) :
    exec (.ctRet n) s = .next (t.faultContext n.slot n.unit 0x0D 0 (insnWord 1 4 n)) :=
  next_congr (runInsn_faults h rfl (by simp only [hret]) (by decide))

theorem ctRet_pops {r : Nat} {rest : List Nat} (h : ExecutesIn (.ctRet n) n 1 s t y) (hret : y.ret = r :: rest) :
    exec (.ctRet n) s = .next (t.retire n.slot n.unit r { y with ret := rest }) :=
  next_congr (runInsn_branches h rfl (by simp only [hret]))

theorem ctLoop_counts (h : ExecutesIn (.ctLoop n) n 1 s t y) :
    exec (.ctLoop n) s = .next (t.retire n.slot n.unit (if y.sreg n.d.toNat - 1 = 0 then y.pc + 16 else branchTo y n)
      (y.setS n.d.toNat (y.sreg n.d.toNat - 1))) := by
  split
  · next hdone => exact next_congr (runInsn_retires h rfl (by simp only [hdone, if_true]))
  · next htaken => exact next_congr (runInsn_branches h rfl (by simp only [htaken, if_false]))

/-- Settles O20: each control instruction by what its own effect answers. -/
theorem controlInstructions : Obligations.ControlInstructions := by
  intro n s t y gives
  refine ⟨fun he => next_congr (runInsn_retires ⟨he, rfl, rfl⟩ rfl rfl), fun he => next_congr (runInsn_branches ⟨he, rfl, rfl⟩ rfl rfl),
    fun he => next_congr (runInsn_branches ⟨he, rfl, rfl⟩ rfl rfl), fun he => ctCall_pushes ⟨he, rfl, rfl⟩, fun he => ?ret,
    fun he => ctLoop_counts ⟨he, rfl, rfl⟩, fun he => next_congr (runInsn_holds ⟨he, rfl, rfl⟩ rfl rfl),
    fun he => next_congr (runInsn_faults ⟨he, rfl, rfl⟩ rfl rfl (by decide)), fun he => next_congr (runInsn_retires ⟨he, rfl, rfl⟩ rfl rfl),
    fun he => next_congr (runInsn_retires ⟨he, rfl, rfl⟩ rfl rfl)⟩
  case ret =>
    have hin : ExecutesIn (.ctRet n) n 1 s t y := ⟨he, rfl, rfl⟩
    cases hret : y.ret with
    | nil => exact ctRet_empty hin hret
    | cons r rest => exact ctRet_pops hin hret

/-! ### SY (R282, R345) -/

/-- The first check of R343 that an operation of `n` fails in the state `t`: on the tally that it names in A, by the count that it names in B. -/
def tallyStatus (t : State) (n : Insn) (y : UnitX) : Option Nat := t.tallyCheck (t.context n.slot).tenant (y.num n n.a) (y.num n n.b)

theorem sySig_refused {st : Nat} (h : ExecutesIn (.sySig n) n 2 s t y) (hst : tallyStatus t n y = some st) :
    exec (.sySig n) s = .next (t.retire n.slot n.unit (y.pc + 16) (y.put n.d st)) := by
  unfold tallyStatus at hst
  exact next_congr (runInsn_retires h rfl (by simp only [hst]))

theorem syWait_refused {st : Nat} (h : ExecutesIn (.syWait n) n 2 s t y) (hst : tallyStatus t n y = some st) :
    exec (.syWait n) s = .next (t.retire n.slot n.unit (y.pc + 16) (y.put n.d st)) := by
  unfold tallyStatus at hst
  exact next_congr (runInsn_retires h rfl (by simp only [hst]))

theorem sySig_signals (h : ExecutesIn (.sySig n) n 2 s t y) (hu : t.tallyEcc (y.num n n.a) n.ecc = u) (hbefore : tallyStatus t n y = none)
    (hafter : tallyStatus u n y = none) :
    exec (.sySig n) s = .next ((u.signal (y.num n n.a) (y.num n n.b)).2.retire n.slot n.unit (y.pc + 16)
      (((u.signal (y.num n n.a) (y.num n n.b)).2.unit n.slot n.unit).put n.d (u.signal (y.num n n.a) (y.num n n.b)).1)) := by
  subst hu
  unfold tallyStatus at hbefore hafter
  exact next_congr (runInsn_retires h rfl (by simp only [hbefore, hafter]))

theorem syWait_queues (h : ExecutesIn (.syWait n) n 2 s t y) (hu : t.tallyEcc (y.num n n.a) n.ecc = u) (hbefore : tallyStatus t n y = none)
    (hafter : tallyStatus u n y = none) :
    let k := y.num n n.a
    let v := u.setUnit n.slot n.unit { y with wait := some (.tally k (y.num n n.b) (y.num n n.c) n.d.toNat) }
    exec (.syWait n) s =
      .next ((v.setTally k { v.tally k with queue := (v.tally k).queue ++ [⟨n.slot, n.unit, y.num n n.b, y.num n n.c⟩] }).serveTally k) := by
  subst hu
  unfold tallyStatus at hbefore hafter
  exact next_congr (runInsn_holds h rfl (by simp only [hbefore, hafter]))

theorem syAt_come (h : ExecutesIn (.syAt n) n 2 s t y) (hnow : y.num n n.a ≤ t.now) :
    exec (.syAt n) s = .next (t.retire n.slot n.unit (y.pc + 16) (y.put n.d t.now)) :=
  next_congr (runInsn_retires h rfl (if_pos hnow))

theorem syAt_waits (h : ExecutesIn (.syAt n) n 2 s t y) (hnow : t.now < y.num n n.a) :
    exec (.syAt n) s = .next (t.setUnit n.slot n.unit { y with wait := some (.at_ (y.num n n.a) n.d.toNat) }) :=
  next_congr (runInsn_holds h rfl (if_neg (Nat.not_le.mpr hnow)))

/-! ### The rows that end waits (R278, R339) -/

theorem syAtResume_come {slot unit count d : Nat} (hw : (s.unit slot unit).wait = some (.at_ count d)) (hnow : count ≤ s.now) :
    exec (.syAtResume slot unit) s =
      .next (s.retire slot unit ((s.unit slot unit).pc + 16) ((s.unit slot unit).setS d (BitVec.ofNat 64 s.now))) := by
  show execSyAtResume slot unit s = _
  simp [execSyAtResume, hw, hnow, next]

theorem syAtResume_early {slot unit count d : Nat} (hw : (s.unit slot unit).wait = some (.at_ count d)) (hnow : s.now < count) :
    exec (.syAtResume slot unit) s = .next s := by
  show execSyAtResume slot unit s = _
  simp [execSyAtResume, hw, Nat.not_le.mpr hnow, next]

theorem eRequestComplete_delivers {k : Nat} {w : Answer} (hw : s.answers[k]? = some w) :
    exec (.eRequestComplete k) s = .next ({ s with answers := s.answers.eraseIdx k }.deliverAnswer w) := by
  show execERequestComplete k s = _
  simp [execERequestComplete, hw, next]

/-- Settles O22: each sync instruction by the tally's status or the count, and the ends of waits by what waits. -/
theorem syncInstructions : Obligations.SyncInstructions := by
  refine ⟨fun n s => ?instructions, fun k slot unit count d s =>
    ⟨rfl, syAtResume_come, syAtResume_early, fun w => eRequestComplete_delivers⟩⟩
  case instructions =>
    intro t y k c u gives
    refine ⟨fun he => next_congr (runInsn_retires ⟨he, rfl, rfl⟩ rfl rfl),
      fun st hst => ⟨fun he => sySig_refused ⟨he, rfl, rfl⟩ hst, fun he => syWait_refused ⟨he, rfl, rfl⟩ hst⟩,
      fun hbefore hafter => ⟨fun he => sySig_signals ⟨he, rfl, rfl⟩ rfl hbefore hafter,
        fun he => syWait_queues ⟨he, rfl, rfl⟩ rfl hbefore hafter⟩,
      fun hnow he => syAt_come ⟨he, rfl, rfl⟩ hnow, fun hnow he => syAt_waits ⟨he, rfl, rfl⟩ hnow,
      fun he => next_congr (runInsn_retires ⟨he, rfl, rfl⟩ rfl rfl)⟩

end Sys2Proof.Proofs
end

section
/-! Contexts: what the context commands, launches, run limits and slice entries leave in a slot (R237, R250 to R255, R361 to R363). -/

namespace Sys2Proof.Proofs

open Sys2Proof Sys2Proof.Machine Sys2Proof.Safety Sys2Proof.Laws

variable {s u v w : State} {c : Cmd} {k p : Nat}

/-! ### Context slots read back -/

@[simp] theorem complete_context (s : State) (c : Cmd) (status r0 r1 r2 i : Nat) : (s.complete c status r0 r1 r2).context i = s.context i := by
  have hcontexts : (s.complete c status r0 r1 r2).contexts = s.contexts := (State.complete_frame s c status r0 r1 r2).1.1 .contexts (by decide)
  simp only [State.context, hcontexts]

/-- A context command reaches its own effect on slot `k`: it is accepted, contexts are enabled, and its handle names the slot. -/
def OnContext (s : State) (c : Cmd) (k : Nat) : Prop :=
  AcceptedHeld s c .tenant false ∧ s.get Fld.SCH_CTX_CTRL_EN = 1 ∧ s.checkContext ((s.issuerTenant c.issuer).getD 0) c.handle.toNat = .ok k

/-! ### CTX_LOAD (R248, R250) -/

/-- The context that a load leaves in its slot, in the terms of what it is loaded from; its generation is the slot's. -/
theorem loadInto_context {l : LoadSpec} (h : s.loadInto k l = some u) :
    (u.context k).state = .loaded ∧ (u.context k).tenant = l.tenant ∧ (u.context k).entry = l.entry ∧ (u.context k).gen = (s.context k).gen := by
  unfold State.loadInto at h
  dsimp only at h
  split at h
  · contradiction
  next g s₁ hcode =>
    split at h
    · contradiction
    next saves s₂ hsaves =>
      obtain ⟨s₃, hwindow, rfl⟩ := Option.map_eq_some_iff.mp h
      have hcontexts : s₃.contexts = s.contexts :=
        ((State.takeWindow_frame _ _ _ _ _ _ hwindow).1.1 .contexts (by decide)).trans
          (((State.takeSaves_frame _ _ _ _ _ hsaves).1.1 .contexts (by decide)).trans ((State.alloc_frame _ _ _ _ _ hcode).1.1 .contexts (by decide)))
      rw [context_setContext_same]
      exact ⟨rfl, rfl, rfl, congrArg (fun m => (sparseGet ({} : Context) m k).gen) hcontexts⟩

/-- Tenant `t` may load one more context, and `k` is the lowest FREE slot. -/
def LoadRoom (s : State) (t k : Nat) : Prop :=
  s.allocStopped = false ∧ s.tenantContexts t < s.get (Fld.TN_QUOTA_CONTEXTS t) ∧ k < s.get Fld.SCH_CTX_SLOTS_SLOTS ∧ (s.context k).state = .free ∧
    ∀ j < k, (s.context j).state ≠ .free

theorem firstFree_of_loadRoom {t : Nat} (h : LoadRoom s t k) :
    firstBelow (fun i => decide ((s.context i).state = .free)) (s.get Fld.SCH_CTX_SLOTS_SLOTS) = some k := by
  obtain ⟨-, -, hslot, hfree, hlower⟩ := h
  exact firstBelow_eq_some (decide_eq_true hfree) hslot (fun j hj => decide_eq_false (hlower j hj))

theorem loadContext_loads {l : LoadSpec} (h : LoadRoom s l.tenant k) (hl : s.loadInto k l = some u) :
    s.loadContext c l = u.complete c CS.ok (u.contextHandle k) := by
  have hfirst := firstFree_of_loadRoom h
  obtain ⟨hstopped, hquota, -⟩ := h
  unfold State.loadContext
  simp [hstopped, show ¬ s.get (Fld.TN_QUOTA_CONTEXTS l.tenant) < s.tenantContexts l.tenant + 1 by omega, hfirst, hl]

theorem loadContext_full {l : LoadSpec} (h : LoadRoom s l.tenant k) (hl : s.loadInto k l = none) :
    s.loadContext c l = s.complete c CS.noResource := by
  have hfirst := firstFree_of_loadRoom h
  obtain ⟨hstopped, hquota, -⟩ := h
  unfold State.loadContext
  simp [hstopped, show ¬ s.get (Fld.TN_QUOTA_CONTEXTS l.tenant) < s.tenantContexts l.tenant + 1 by omega, hfirst, hl]

theorem ctxLoad_notOwned (ha : AcceptedHeld s c .tenant false) (hen : s.get Fld.SCH_CTX_CTRL_EN = 1)
    (hown : s.tenantOwns ((s.issuerTenant c.issuer).getD 0) c.addrA.toNat 64 = false) :
    exec (.ctxLoad c) s = .next (s.complete c CS.badCommand) := by
  show next (s.runHeld c _ _ _) = _
  rw [runHeld_accepts ha]
  simp [on_of_one hen, hown]

/-- An image whose header and code are read, with a place for it, goes on to its slot. -/
theorem ctxLoad_reads {t a kind code entry shared off place : Nat} {header bytes : List Byte} (ha : AcceptedHeld s c .tenant false)
    (hen : s.get Fld.SCH_CTX_CTRL_EN = 1) (ht : (s.issuerTenant c.issuer).getD 0 = t) (haddr : c.addrA.toNat = a)
    (hv : v = (s.afterRead t a 64).checkPoison) (hw : w = (v.afterRead t (a + off) code).checkPoison)
    (hown : s.tenantOwns t a 64 = true) (hread : s.readT1 t a 64 = .ok header)
    (himage : imageHeader header = some (kind, code, entry, shared, off)) (hcode : v.tenantOwns t (a + off) code = true)
    (hplace : v.loadPlace c t kind = .ok place) (hbytes : v.readT1 t (a + off) code = .ok bytes) :
    exec (.ctxLoad c) s = .next (w.loadContext c ⟨t, a, kind, code, entry, shared, (opByte c 36).testBit 0, place, header, bytes⟩) := by
  subst ht haddr hv hw
  show next (s.runHeld c _ _ _) = _
  rw [runHeld_accepts ha]
  simp only [on_of_one hen, hown, hread, himage, hcode, hplace, hbytes, Bool.not_true, Bool.false_eq_true, if_false]

/-! ### CTX_LAUNCH (R237, R253, R342) -/

/-- Slot `k` holds a context that a launch may arm: LOADED, HALTED or STOPPED, and a Hub one on a thread bound to its tenant. -/
def Launchable (s : State) (k : Nat) : Prop :=
  (s.context k).state ∈ [CtxState.loaded, .halted, .stopped] ∧
    ((s.context k).hub = true → s.threadBound (s.context k).tenant (s.context k).thread = true)

/-- The state with slot `k` ARMED for the count `at_`; `l` is the count that the launch named. -/
def armed (s : State) (k l limit arg : Nat) (wait : Option Cmd) (at_ : Nat) : State :=
  let x := s.context k
  s.setContext k { x with
    state := .armed, launchYt := at_, runLimit := limit, arg := arg, barrier := decide (l = barrierCount), waitCmd := wait,
    fault := {}, haltCode := 0, onCells := false, ready := false, weighted := x.weighted }

theorem armed_context (s : State) (k l limit arg : Nat) (wait : Option Cmd) (at_ : Nat) :
    let x := (armed s k l limit arg wait at_).context k
    x.state = .armed ∧ x.launchYt = at_ ∧ x.runLimit = limit ∧ x.arg = arg ∧ x.barrier = decide (l = barrierCount) ∧ x.waitCmd = wait := by
  intro x
  have hx : x = _ := context_setContext_same s k _
  rw [hx]
  exact ⟨rfl, rfl, rfl, rfl, rfl, rfl⟩

variable {l limit arg at_ st : Nat} {wait : Option Cmd}

theorem arm_notReady (h : (s.context k).state ∉ [CtxState.loaded, .halted, .stopped]) :
    s.arm k l limit arg wait = .error (CS.notReady, ctxStateCode (s.context k).state) :=
  if_pos (by simpa using h)

/-- No thread stands in the way of a launch of a Launchable context. -/
theorem launchable_thread (h : Launchable s k) :
    ((s.context k).hub && !s.threadBound (s.context k).tenant (s.context k).thread) = false := by
  obtain ⟨-, hthread⟩ := h
  cases hh : (s.context k).hub with
  | false => rfl
  | true => simp [hthread hh]

theorem arm_arms (h : Launchable s k) (hcount : s.launchCount k l = .ok at_) :
    s.arm k l limit arg wait = .ok (armed s k l limit arg wait at_, if l = barrierCount then l else at_) := by
  have hst := List.contains_iff_mem.mpr h.1
  unfold State.arm
  simp only [hst, launchable_thread h, hcount, Bool.not_true, Bool.false_eq_true, if_false]
  rfl

theorem arm_badCount (h : Launchable s k) (hcount : s.launchCount k l = .error st) : s.arm k l limit arg wait = .error (st, 0) := by
  have hst := List.contains_iff_mem.mpr h.1
  unfold State.arm
  simp only [hst, launchable_thread h, hcount, Bool.not_true, Bool.false_eq_true, if_false]

theorem launchCount_zero (s : State) (k : Nat) : s.launchCount k 0 = .ok (s.now + 2000) := rfl

theorem launchCount_later (hlater : s.now + 2000 ≤ l) (hbar : l ≠ barrierCount) : s.launchCount k l = .ok l := by
  simp [State.launchCount, hbar, show l ≠ 0 by omega, Nat.not_lt.mpr hlater]

theorem launchCount_early (hpos : 0 < l) (hearly : l < s.now + 2000) (hbar : l ≠ barrierCount) : s.launchCount k l = .error CS.timeout := by
  simp [State.launchCount, hbar, Nat.ne_of_gt hpos, hearly]

theorem launchCount_barrier (hen : s.get Fld.YT_CTRL_BARRIER_EN = 1) (hcell : (s.context k).hub = false) :
    s.launchCount k barrierCount = .ok s.now := by
  simp [State.launchCount, on_of_one hen, hcell]

theorem launchCount_barrier_refused (h : s.get Fld.YT_CTRL_BARRIER_EN = 0 ∨ (s.context k).hub = true) :
    s.launchCount k barrierCount = .error CS.badCommand := by
  obtain h | h := h
  · simp [State.launchCount, on_of_zero h]
  · simp [State.launchCount, h]

/-- The command that a launch leaves with its context: the launch itself where it has WAIT. -/
def launchWait (c : Cmd) : Option Cmd := if (opByte c 48).testBit 0 then some c else none

theorem ctxLaunch_refused {e : Nat × Nat} (h : OnContext s c k)
    (harm : s.arm k (opU64 c 32) (opU64 c 40) c.addrA.toNat (launchWait c) = .error e) :
    exec (.ctxLaunch c) s = .next (s.complete c e.1 e.2) := by
  obtain ⟨ha, hen, hk⟩ := h
  unfold launchWait at harm
  show next (s.runHeld c _ _ _) = _
  rw [runHeld_accepts ha]
  simp only [State.launch, on_of_one hen, hk, harm, Bool.not_true, Bool.false_and, Bool.false_eq_true, if_false]

theorem ctxLaunch_armed (h : OnContext s c k) (hl : Launchable s k) (hcount : s.launchCount k (opU64 c 32) = .ok at_) :
    let t := armed s k (opU64 c 32) (opU64 c 40) c.addrA.toNat (launchWait c) at_
    exec (.ctxLaunch c) s = .next (if (opByte c 48).testBit 0 then t
      else t.complete c CS.ok (if opU64 c 32 = barrierCount then opU64 c 32 else at_)) := by
  obtain ⟨ha, hen, hk⟩ := h
  have harm := arm_arms (limit := opU64 c 40) (arg := c.addrA.toNat) (wait := launchWait c) hl hcount
  unfold launchWait at harm ⊢
  show next (s.runHeld c _ _ _) = _
  rw [runHeld_accepts ha]
  simp only [State.launch, on_of_one hen, hk, harm, Bool.not_true, Bool.false_and, Bool.false_eq_true, if_false]

/-- Without WAIT the launch is answered with its count. -/
theorem ctxLaunch_answers (h : OnContext s c k) (hl : Launchable s k) (hwait : (opByte c 48).testBit 0 = false)
    (hcount : s.launchCount k (opU64 c 32) = .ok at_) :
    exec (.ctxLaunch c) s = .next ((armed s k (opU64 c 32) (opU64 c 40) c.addrA.toNat (launchWait c) at_).complete c CS.ok
      (if opU64 c 32 = barrierCount then opU64 c 32 else at_)) :=
  (ctxLaunch_armed h hl hcount).trans (next_congr (if_neg (by simp [hwait])))

/-- With WAIT it stays with its context. -/
theorem ctxLaunch_waits (h : OnContext s c k) (hl : Launchable s k) (hwait : (opByte c 48).testBit 0 = true)
    (hcount : s.launchCount k (opU64 c 32) = .ok at_) :
    exec (.ctxLaunch c) s = .next (armed s k (opU64 c 32) (opU64 c 40) c.addrA.toNat (some c) at_) := by
  have hsome : launchWait c = some c := if_pos hwait
  exact (ctxLaunch_armed h hl hcount).trans (next_congr ((if_pos hwait).trans (by rw [hsome])))

theorem ctxLaunch_badCount (h : OnContext s c k) (hl : Launchable s k) (hcount : s.launchCount k (opU64 c 32) = .error st) :
    exec (.ctxLaunch c) s = .next (s.complete c st) :=
  ctxLaunch_refused (e := (st, 0)) h (arm_badCount hl hcount)

/-! ### CTX_STOP (R237) -/

theorem stopContext_parts (s : State) (k : Nat) : (s.stopContext k).parts = s.parts := (State.stopContext_frame s k).1.1 .parts (by decide)

theorem ctxStop_stops (h : OnContext s c k) (hst : (s.context k).state ∈ [CtxState.armed, .running, .switched]) :
    exec (.ctxStop c) s = .next ((if (s.context k).hub = false ∧ (s.context k).onCells = true ∧ (s.part (s.context k).partition).entries = [] then
      (s.stopContext k).cellsFreed (s.context k).partition (s.context k).tenant else s.stopContext k).complete c CS.ok) := by
  obtain ⟨ha, hen, hk⟩ := h
  show next (s.runHeld c _ _ _) = _
  rw [runHeld_accepts ha]
  simp only [State.stop, on_of_one hen, hk, List.contains_iff_mem.mpr hst, stopContext_parts, Bool.not_true, Bool.false_eq_true, if_false]
  refine congrArg (fun t : State => next (t.complete c CS.ok)) (if_congr ?_ rfl rfl)
  simp [State.part, and_assoc]

theorem ctxStop_notReady (h : OnContext s c k) (hst : (s.context k).state ∉ [CtxState.armed, .running, .switched]) :
    exec (.ctxStop c) s = .next (s.complete c CS.notReady (ctxStateCode (s.context k).state)) := by
  obtain ⟨ha, hen, hk⟩ := h
  show next (s.runHeld c _ _ _) = _
  rw [runHeld_accepts ha]
  have hno : [CtxState.armed, .running, .switched].contains (s.context k).state = false := by simpa using hst
  simp only [State.stop, on_of_one hen, hk, hno, Bool.not_true, Bool.not_false, Bool.false_eq_true, if_false, if_true]

theorem stopContext_armed (h : (s.context k).state = .armed) : ((s.stopContext k).context k).state = .loaded := by
  unfold State.stopContext
  simp only [h]
  split <;> simp

theorem stopContext_started (h : (s.context k).state ∈ [CtxState.running, .switched]) : ((s.stopContext k).context k).state = .stopped := by
  have hraise : ∀ (t : State) (e : Event), (t.raise e).context k = t.context k := fun _ _ => rfl
  simp only [List.mem_cons, List.not_mem_nil, or_false] at h
  unfold State.stopContext
  obtain h | h := h <;> simp only [h] <;> split <;> simp [hraise]

/-! ### CTX_QUERY, CTX_FREE (R237, R252) -/

theorem ctxQuery_answers (h : OnContext s c k) (hout : s.writeOut c c.addrA.toNat (s.statusBlock k) = .ok u) :
    exec (.ctxQuery c) s = .next (u.complete c CS.ok (ctxStateCode (u.context k).state)) := by
  obtain ⟨⟨ha, -⟩, hen, hk⟩ := h
  show next (s.runCmd c _ _ _) = _
  rw [runCmd_accepted ha]
  simp [on_of_one hen, hk, hout]

theorem ctxFree_frees (h : OnContext s c k) (hst : (s.context k).state ∈ [CtxState.loaded, .halted, .stopped, .faulted]) :
    exec (.ctxFree c) s = .next ((s.freeContext k).complete c CS.ok) := by
  obtain ⟨ha, hen, hk⟩ := h
  show next (s.runHeld c _ _ _) = _
  rw [runHeld_accepts ha]
  simp only [on_of_one hen, hk, List.contains_iff_mem.mpr hst, Bool.not_true, Bool.false_eq_true, if_false, if_true]

theorem ctxFree_notReady (h : OnContext s c k) (hst : (s.context k).state ∉ [CtxState.loaded, .halted, .stopped, .faulted]) :
    exec (.ctxFree c) s = .next (s.complete c CS.notReady (ctxStateCode (s.context k).state)) := by
  obtain ⟨ha, hen, hk⟩ := h
  show next (s.runHeld c _ _ _) = _
  rw [runHeld_accepts ha]
  have hno : [CtxState.loaded, .halted, .stopped, .faulted].contains (s.context k).state = false := by simpa using hst
  simp only [on_of_one hen, hk, hno, Bool.not_true, Bool.false_eq_true, if_false]

theorem freeContext_io (s : State) (k : Nat) : (s.freeContext k).io = s.io := (State.freeContext_frame s k).1.1 .io (by decide)

theorem freeContext_context (s : State) (k : Nat) :
    (s.freeContext k).context k = { gen := if (s.context k).gen + 1 = 2 ^ 32 then 1 else (s.context k).gen + 1 } :=
  context_setContext_same _ _ _

/-- Settles O47: each command by its own refusal, the state's code in result word 0. -/
theorem contextTransitionsRefused : Obligations.ContextTransitionsRefused := by
  intro c s k ha hen hk
  have h : OnContext s c k := ⟨ha, hen, hk⟩
  refine ⟨fun hst => ctxLaunch_refused (e := (_, _)) h (arm_notReady hst), ctxStop_notReady h, ctxFree_notReady h, fun hrun => ?running⟩
  case running =>
    have hrefused := ctxFree_notReady h (by simp [hrun])
    rwa [hrun] at hrefused

/-! ### Starts and run limits (R240, R253 to R255) -/

theorem startContext_state (s : State) (k : Nat) : ((s.startContext k).context k).state = .running := by
  unfold State.startContext
  rw [context_setContext_same]

theorem startContext_hubUnit (hhub : (s.context k).hub = true) (hbar : (s.context k).barrier = false) :
    unitGet ((s.startContext k).context k) (s.context k).thread = s.entryUnit k (s.context k).thread := by
  have hunits : s.contextUnits k = [(s.context k).thread] := if_pos hhub
  unfold State.startContext
  rw [context_setContext_same]
  simp [hbar, hunits, unitGet]

theorem startContext_io (s : State) (k : Nat) : (s.startContext k).io = s.io := (State.startContext_frame s k).1.1 .io (by decide)
theorem startContext_t1 (s : State) (k : Nat) : (s.startContext k).t1 = s.t1 := (State.startContext_frame s k).1.1 .t1 (by decide)

/-- A prepared context that is ARMED is started where its launch count has come. -/
theorem runPrepared_armed (hst : (s.context k).state = .armed) (hnow : (s.context k).launchYt ≤ s.now) : s.runPrepared k = s.startContext k := by
  simp [State.runPrepared, hst, hnow]

theorem runPrepared_switched (hst : (s.context k).state = .switched) : s.runPrepared k = s.resumeContext k := by
  simp [State.runPrepared, hst]

theorem contextLaunchAt_early (h : (s.context k).state ≠ .armed ∨ s.now < (s.context k).launchYt) : exec (.contextLaunchAt k) s = .next s := by
  refine next_congr (if_pos ?_)
  obtain h | h := h <;> simp [h]

/-- The count of an ARMED context has come, and no checkpoint is being taken. -/
def LaunchDue (s : State) (k : Nat) : Prop := (s.context k).state = .armed ∧ s.freezing = false ∧ (s.context k).launchYt ≤ s.now

theorem contextLaunchAt_hub (h : LaunchDue s k) (hhub : (s.context k).hub = true) :
    exec (.contextLaunchAt k) s = .next (if s.threadBound (s.context k).tenant (s.context k).thread then s.startContext k else s) := by
  obtain ⟨hst, hf, hnow⟩ := h
  show next (s.launchAt k) = _
  simp [State.launchAt, hst, hf, Nat.not_lt.mpr hnow, hhub]

theorem contextLaunchAt_prepared (h : LaunchDue s k) (hhub : (s.context k).hub = false) (hon : (s.context k).onCells = true)
    (hready : (s.context k).ready = true) : exec (.contextLaunchAt k) s = .next (s.startContext k) := by
  obtain ⟨hst, hf, hnow⟩ := h
  show next (s.launchAt k) = _
  simp [State.launchAt, hst, hf, Nat.not_lt.mpr hnow, hhub, hon, hready, runPrepared_armed hst hnow]

theorem runLimitExpiry_faults (hst : (s.context k).state ∈ [CtxState.running, .switched]) (hlimit : (s.context k).runLimit ≠ 0)
    (hnow : (s.context k).launchYt + (s.context k).runLimit ≤ s.now) :
    exec (.runLimitExpiry k) s = .next (s.faultContext k ((s.contextUnits k).headD 0) 0x0E 0 0) := by
  refine next_congr (if_pos ?_)
  simp only [List.contains_iff_mem.mpr hst, hlimit, hnow, ne_eq, not_false_eq_true, decide_true, Bool.and_self]

theorem runLimitExpiry_rests (h : (s.context k).state ∉ [CtxState.running, .switched] ∨ (s.context k).runLimit = 0 ∨
    s.now < (s.context k).launchYt + (s.context k).runLimit) : exec (.runLimitExpiry k) s = .next s := by
  refine next_congr (if_neg ?_)
  obtain h | h | h := h
  · have hno : [CtxState.running, .switched].contains (s.context k).state = false := by simpa using h
    simp only [hno, Bool.false_and, Bool.false_eq_true, not_false_eq_true]
  · simp [h]
  · simp [Nat.not_le.mpr h]

/-! ### Slices (R361 to R363) -/

/-- The context brought onto the Cells is on them and ready. -/
theorem prepare_context (s : State) (p k : Nat) : ((s.prepare p k).context k).onCells = true ∧ ((s.prepare p k).context k).ready = true := by
  unfold State.prepare
  rw [context_setContext_same]
  exact ⟨rfl, rfl⟩

theorem switchWindowOpen_noEntry (h : s.nextEntry p = none) : exec (.switchWindowOpen p) s = .next s := by
  show execSwitchWindowOpen p s = _
  simp [execSwitchWindowOpen, h, next]

/-- The next entry of partition `p` is `x`, of tenant `tn`, at the count `at_`, and no checkpoint is being taken. -/
def EntryAhead (s : State) (p : Nat) (x : PartX) (at_ tn : Nat) : Prop :=
  s.nextEntry p = some (x, at_) ∧ entryTenant x = some tn ∧ s.freezing = false

/-- The context of the entry's tenant that is taken for the entry. -/
def entryContext (s : State) (p : Nat) (x : PartX) (tn : Nat) : Option Nat := s.pickContext p (entryEnd x) (fun y => decide (y.tenant = tn))

variable {x : PartX} {tn : Nat}

theorem switchWindowOpen_early (h : EntryAhead s p x at_ tn) (hnow : s.now + s.get (Fld.SCH_SWITCH_NS p) < at_) :
    exec (.switchWindowOpen p) s = .next s := by
  obtain ⟨hnext, -, hf⟩ := h
  show execSwitchWindowOpen p s = _
  simp [execSwitchWindowOpen, hnext, hnow, next]

theorem switchWindowOpen_prepares (h : EntryAhead s p x at_ tn) (hnow : at_ ≤ s.now + s.get (Fld.SCH_SWITCH_NS p))
    (hpick : entryContext s p x tn = some k) :
    exec (.switchWindowOpen p) s = .next (if (s.context k).onCells = true then s else s.prepare p k) := by
  obtain ⟨hnext, htenant, hf⟩ := h
  unfold entryContext at hpick
  show execSwitchWindowOpen p s = _
  simp [execSwitchWindowOpen, hnext, htenant, hf, Nat.not_lt.mpr hnow, hpick, next]

theorem sliceEntryStart_early (h : EntryAhead s p x at_ tn) (hnow : s.now < at_) : exec (.sliceEntryStart p) s = .next s := by
  obtain ⟨hnext, -, hf⟩ := h
  show execSliceEntryStart p s = _
  simp [execSliceEntryStart, hnext, hf, hnow, next]

/-! A partition's entry is neither its contexts nor the count. -/

theorem setPart_onPartition (s : State) (p q : Nat) (x : PartX) : (s.setPart p x).onPartition q = s.onPartition q := rfl
theorem setPart_context (s : State) (p k : Nat) (x : PartX) : (s.setPart p x).context k = s.context k := rfl
theorem setPart_pickContext (s : State) (p q e : Nat) (x : PartX) (f : Context → Bool) :
    (s.setPart p x).pickContext q e f = s.pickContext q e f := rfl

theorem sliceEntryStart_prepared (h : EntryAhead s p x at_ tn) (hnow : at_ ≤ s.now) (hon : s.onPartition p = some k)
    (hready : (s.context k).ready = true) : exec (.sliceEntryStart p) s = .next ((s.setPart p x).runPrepared k) := by
  obtain ⟨hnext, htenant, hf⟩ := h
  show execSliceEntryStart p s = _
  simp [execSliceEntryStart, hnext, htenant, hf, Nat.not_lt.mpr hnow, setPart_onPartition, setPart_context, hon, hready, next]

theorem sliceEntryStart_idle (h : EntryAhead s p x at_ tn) (hnow : at_ ≤ s.now) (hon : s.onPartition p = none)
    (hpick : entryContext s p x tn = none) : exec (.sliceEntryStart p) s = .next (s.setPart p x) := by
  obtain ⟨hnext, htenant, hf⟩ := h
  unfold entryContext at hpick
  show execSliceEntryStart p s = _
  simp [execSliceEntryStart, hnext, htenant, hf, Nat.not_lt.mpr hnow, setPart_onPartition, setPart_pickContext, hon, hpick, next]

/-! ### The statement's parts, assembled -/

/-- The launches of a context that may be armed, by the count that they name. -/
theorem ctxLaunch_byCount (h : OnContext s c k) (hl : Launchable s k) (hwait : (opByte c 48).testBit 0 = false) :
    (opU64 c 32 = 0 → ∃ u : State, exec (.ctxLaunch c) s = .next (u.complete c CS.ok (s.now + 2000)) ∧ (u.context k).state = .armed ∧
      (u.context k).launchYt = s.now + 2000 ∧ (u.context k).runLimit = opU64 c 40 ∧ (u.context k).arg = c.addrA.toNat) ∧
    (s.now + 2000 ≤ opU64 c 32 → opU64 c 32 ≠ barrierCount → ∃ u : State, exec (.ctxLaunch c) s = .next (u.complete c CS.ok (opU64 c 32)) ∧
      (u.context k).state = .armed ∧ (u.context k).launchYt = opU64 c 32) ∧
    (0 < opU64 c 32 → opU64 c 32 < s.now + 2000 → opU64 c 32 ≠ barrierCount → exec (.ctxLaunch c) s = .next (s.complete c CS.timeout)) ∧
    (opU64 c 32 = barrierCount → s.get Fld.YT_CTRL_BARRIER_EN = 1 → (s.context k).hub = false → ∃ u : State,
      exec (.ctxLaunch c) s = .next (u.complete c CS.ok barrierCount) ∧ (u.context k).state = .armed ∧ (u.context k).barrier = true) ∧
    (opU64 c 32 = barrierCount → (s.get Fld.YT_CTRL_BARRIER_EN = 0 ∨ (s.context k).hub = true) →
      exec (.ctxLaunch c) s = .next (s.complete c CS.badCommand)) := by
  refine ⟨fun hzero => ?now, fun hlater hbar => ?later, fun hpos hearly hbar => ctxLaunch_badCount h hl (launchCount_early hpos hearly hbar),
    fun hbar hen hcell => ?barrier, fun hbar hno => ctxLaunch_badCount h hl (hbar ▸ launchCount_barrier_refused hno)⟩
  case now =>
    have hexec := ctxLaunch_answers h hl hwait (hzero ▸ launchCount_zero s k)
    rw [if_neg (by rw [hzero]; decide)] at hexec
    obtain ⟨hst, hyt, hlimit, harg, -, -⟩ := armed_context s k (opU64 c 32) (opU64 c 40) c.addrA.toNat (launchWait c) (s.now + 2000)
    exact ⟨_, hexec, hst, hyt, hlimit, harg⟩
  case later =>
    have hexec := ctxLaunch_answers h hl hwait (launchCount_later hlater hbar)
    rw [if_neg hbar] at hexec
    obtain ⟨hst, hyt, -⟩ := armed_context s k (opU64 c 32) (opU64 c 40) c.addrA.toNat (launchWait c) (opU64 c 32)
    exact ⟨_, hexec, hst, hyt⟩
  case barrier =>
    have hexec := ctxLaunch_answers h hl hwait (hbar ▸ launchCount_barrier hen hcell)
    rw [if_pos hbar, hbar] at hexec
    obtain ⟨hst, -, -, -, hbarrier, -⟩ := armed_context s k barrierCount (opU64 c 40) c.addrA.toNat (launchWait c) s.now
    exact ⟨_, hexec, hst, hbarrier.trans (decide_eq_true rfl)⟩

/-- With WAIT, at once or at a later count, the command stays with the ARMED context. -/
theorem ctxLaunch_keepsWaiting (h : OnContext s c k) (hl : Launchable s k) (hwait : (opByte c 48).testBit 0 = true)
    (hcount : opU64 c 32 = 0 ∨ s.now + 2000 ≤ opU64 c 32 ∧ opU64 c 32 ≠ barrierCount) :
    ∃ u : State, exec (.ctxLaunch c) s = .next u ∧ (u.context k).state = .armed ∧ (u.context k).waitCmd = some c := by
  obtain ⟨at_, hat⟩ : ∃ at_, s.launchCount k (opU64 c 32) = .ok at_ := by
    obtain hzero | ⟨hlater, hbar⟩ := hcount
    · exact ⟨_, hzero ▸ launchCount_zero s k⟩
    · exact ⟨_, launchCount_later hlater hbar⟩
  obtain ⟨hst, -, -, -, -, hcmd⟩ := armed_context s k (opU64 c 32) (opU64 c 40) c.addrA.toNat (some c) at_
  exact ⟨_, ctxLaunch_waits h hl hwait hat, hst, hcmd⟩

/-- Settles O48: each command by its own effect on its slot, each event by what the slot or the partition's next entry holds. -/
theorem contextCommands : Obligations.ContextCommands := by
  intro c s k t a
  refine ⟨fun ha hen => ⟨ctxLoad_notOwned ha hen, ?load, fun hk => ?onSlot⟩,
    fun hst hf => ⟨fun hnow => contextLaunchAt_early (.inr hnow), ?unbound, ?hub, ?cells⟩,
    fun hst => contextLaunchAt_early (.inl hst), runLimitExpiry_faults, runLimitExpiry_rests, fun p => switchWindowOpen_noEntry, ?entries⟩
  case load =>
    intro header bytes kind code entry shared off place v w hv hw hown hread himage hcode hplace hbytes hstopped hquota hslot hfree hlower
    have hexec := ctxLoad_reads ha hen rfl rfl hv hw hown hread himage hcode hplace hbytes
    have hroom : LoadRoom w t k := ⟨hstopped, hquota, hslot, hfree, hlower⟩
    exact ⟨fun u hu => ⟨hexec.trans (next_congr (loadContext_loads hroom hu)), loadInto_context hu⟩,
      fun hnone => hexec.trans (next_congr (loadContext_full hroom hnone))⟩
  case onSlot =>
    have h : OnContext s c k := ⟨ha, hen, hk⟩
    exact ⟨fun hst hthread => ctxLaunch_byCount h ⟨hst, hthread⟩, fun hst hthread => ctxLaunch_keepsWaiting h ⟨hst, hthread⟩,
      fun hst => ⟨ctxStop_stops h hst, stopContext_armed, stopContext_started⟩, fun u => ctxQuery_answers h,
      fun hst => ⟨_, ctxFree_frees h hst, by rw [freeContext_context], by rw [freeContext_context], freeContext_io s k⟩⟩
  case unbound =>
    exact fun hnow hhub hno => (contextLaunchAt_hub ⟨hst, hf, hnow⟩ hhub).trans (next_congr (if_neg (by simp [hno])))
  case hub =>
    exact fun hnow hhub hbound => ⟨_, (contextLaunchAt_hub ⟨hst, hf, hnow⟩ hhub).trans (next_congr (if_pos hbound)), startContext_state s k,
      startContext_io s k, startContext_t1 s k, startContext_hubUnit hhub⟩
  case cells =>
    exact fun hnow hhub hon hready => ⟨contextLaunchAt_prepared ⟨hst, hf, hnow⟩ hhub hon hready, startContext_state s k⟩
  case entries =>
    intro p x at_ tn hnext htenant hf
    have h : EntryAhead s p x at_ tn := ⟨hnext, htenant, hf⟩
    refine ⟨switchWindowOpen_early h, fun hnow hpick => ?window, sliceEntryStart_early h,
      fun hnow hon hready hst => (sliceEntryStart_prepared h hnow hon hready).trans (next_congr (runPrepared_switched hst)),
      fun hnow hon hready hst hdue => (sliceEntryStart_prepared h hnow hon hready).trans (next_congr (runPrepared_armed hst hdue)),
      sliceEntryStart_idle h⟩
    case window =>
      have hexec := switchWindowOpen_prepares h hnow hpick
      exact ⟨fun hon => hexec.trans (next_congr (if_pos hon)), fun hoff =>
        ⟨hexec.trans (next_congr (if_neg (by simp [hoff]))), prepare_context s p k⟩⟩

end Sys2Proof.Proofs
end

section
/-! Scalar moves and the lane operations and reductions: each writes its register and nothing else of its unit (R283, R284, R289, R290, R322). -/

namespace Sys2Proof.Proofs

open Sys2Proof Sys2Proof.Machine Sys2Proof.Safety Sys2Proof.Laws

variable {i : Instr} {n : Insn} {s t : State} {y : UnitX}

/-! ### Operations that share an opcode -/

/-- Selecting an operation by its FLAGS bits changes neither what an instruction finds nor its unit. -/
theorem executesIn_withSub {cls : Nat} (w sub : Nat) (h : ExecutesIn i n cls s t y) : ExecutesIn i (withSub w sub n) cls s t y := by
  obtain ⟨he, hseen, hunit⟩ := h
  exact ⟨he, hseen, hunit⟩

/-- An operation of MV's opcode 0x002, selected by four bits of FLAGS. -/
theorem runAlu_writes {sub : Nat} {f : Word → Word → Word} (h : ExecutesIn i n 4 s t y)
    (hi : trondi i = some (withSub 4 sub n, 4, 2, trondi.aluShape)) :
    s.runAlu n sub f = t.retire n.slot n.unit (y.pc + 16) (y.setS n.d.toNat (f (y.src n n.a) (y.src n n.b))) := by
  unfold State.runAlu
  exact runInsn_retires (executesIn_withSub 4 sub h) hi rfl

/-- A lane operation of two operands, selected by three bits of FLAGS. -/
theorem runLanes_writes {sub : Nat} {f : Nat → Nat → Nat} (h : ExecutesIn i n 9 s t y)
    (hi : trondi i = some (withSub 3 sub n, 9, 1, trondi.laneShape)) :
    s.runLanes n sub f = t.retire n.slot n.unit (y.pc + 16) (y.putLanes n.d (fun l => f (y.lane n.a l) (y.lane n.b l))) := by
  unfold State.runLanes
  exact runInsn_retires (executesIn_withSub 3 sub h) hi rfl

/-- A lane operation of one operand, selected by `w` bits of FLAGS. -/
theorem runMap_writes {op w sub : Nat} {f : Nat → Nat} (h : ExecutesIn i n 9 s t y)
    (hi : trondi i = some (withSub w sub n, 9, op, { side := .cell, d := .v, a := .v, flags := 2 ^ w - 1 })) :
    s.runMap n op w sub f = t.retire n.slot n.unit (y.pc + 16) (y.putLanes n.d (fun l => f (y.lane n.a l))) := by
  unfold State.runMap
  exact runInsn_retires (executesIn_withSub w sub h) hi rfl

/-- A reduction, selected by two bits of FLAGS. -/
theorem runReduce_writes {sub : Nat} {f : Nat → Nat → Nat} (h : ExecutesIn i n 9 s t y)
    (hi : trondi i = some (withSub 2 sub n, 9, 3, { side := .cell, d := .s, a := .v, flags := 3 })) :
    s.runReduce n sub f =
      t.retire n.slot n.unit (y.pc + 16) (y.put n.d ((treeReduce f 6 ((List.range 64).map (y.lane n.a))).headD 0)) := by
  unfold State.runReduce
  exact runInsn_retires (executesIn_withSub 2 sub h) hi rfl

/-- Settles O23: the thirteen operations by the opcode they share, every other move by its own effect. -/
theorem scalarMoves : Obligations.ScalarMoves := by
  intro n s t y a b leaves
  refine ⟨?li, ?mov, ?add, ?sub, ?mul, ?and, ?or, ?xor, ?shl, ?shr, ?sra, ?minu, ?maxu, ?mins, ?maxs, ?tile, ?tget, ?bcast, ?getl, ?setl⟩
  case li | mov | tile | tget | bcast | getl | setl => exact fun he => next_congr (runInsn_retires ⟨he, rfl, rfl⟩ rfl rfl)
  case add | sub | mul | and | or | xor | shl | shr | sra | minu | maxu | mins | maxs =>
    exact fun he => next_congr (runAlu_writes ⟨he, rfl, rfl⟩ rfl)

/-- Settles O27: each lane operation by its number of operands, each reduction by the tree that all three share. -/
theorem laneInstructions : Obligations.LaneInstructions := by
  intro n s t y a b lanes reduces
  refine ⟨?fma, ?add, ?sub, ?mul, ?max, ?min, ?neg, ?abs, ?exp, ?log, ?rcp, ?rsqrt, ?redSum, ?redMax, ?redMin⟩
  case fma => exact fun he => next_congr (runInsn_retires ⟨he, rfl, rfl⟩ rfl rfl)
  case add | sub | mul | max | min => exact fun he => next_congr (runLanes_writes ⟨he, rfl, rfl⟩ rfl)
  case neg | abs | exp | log | rcp | rsqrt => exact fun he => next_congr (runMap_writes ⟨he, rfl, rfl⟩ rfl)
  case redSum | redMax | redMin => exact fun he => next_congr (runReduce_writes ⟨he, rfl, rfl⟩ rfl)

end Sys2Proof.Proofs
end

section
/-! MX, and the accumulator and conversion rows of VX (R287 to R289, R291, R318 to R321). -/

namespace Sys2Proof.Proofs

open Sys2Proof Sys2Proof.Machine Sys2Proof.Safety Sys2Proof.Laws

variable {n : Insn} {s t u v : State} {y : UnitX} {a b d : Tile}

/-- A tile whose rows have places and can be read goes on to its use. -/
theorem withTile_reads {use : State → List (List Byte) → Did} {places : List Place} {rows : List (List Byte)}
    (hplaces : t.tileRows n a false = .ok places) (hrows : t.readRows n y (rowBytes a.format a.cols) places = (u, .ok rows)) :
    t.withTile n y a use = use u rows := by
  unfold State.withTile
  simp only [hplaces, hrows]

/-! ### mx.mma (R287, R288, R318 to R320) -/

/-- The two tile operands of a product, A and B, as the unit's registers describe them. -/
def MmaOperands (n : Insn) (y : UnitX) (a b : Tile) : Prop :=
  tileOf (y.tile (n.a.toNat - 0x30)) = a ∧ tileOf (y.tile (n.b.toNat - 0x30)) = b

theorem mxMma_outside (h : ExecutesIn (.mxMma n) n 8 s t y) (hab : MmaOperands n y a b) (hspace : a.space ≠ 1 ∨ b.space ≠ 1) :
    exec (.mxMma n) s = .next (t.faultContext n.slot n.unit 0x09 0 (insnWord 8 0 n)) := by
  obtain ⟨rfl, rfl⟩ := hab
  exact next_congr (runInsn_faults h rfl (if_pos (by simpa using hspace)) (by decide))

/-- Both tiles of a product lie in the scratchpad, at places that can be reached. -/
def Reached (t : State) (n : Insn) (a b : Tile) (ra rb : List Place) : Prop :=
  a.space = 1 ∧ b.space = 1 ∧ t.tileRows n a false = .ok ra ∧ t.tileRows n b false = .ok rb

theorem mxMma_unfit {ra rb : List Place} (h : ExecutesIn (.mxMma n) n 8 s t y) (hab : MmaOperands n y a b) (hr : Reached t n a b ra rb)
    (hfit : mmaTiles n a b (flagBit n 1) = none) :
    exec (.mxMma n) s = .next (t.faultContext n.slot n.unit 0x09 0 (insnWord 8 0 n)) := by
  obtain ⟨rfl, rfl⟩ := hab
  obtain ⟨ha, hb, hra, hrb⟩ := hr
  exact next_congr (runInsn_faults h rfl ((if_neg (by simp [ha, hb])).trans (by simp only [hra, hrb, hfit])) (by decide))

/-- The columns of the right operand: B's rows where B is transposed, its columns where not. -/
def mmaRight (n : Insn) (b : Tile) (rows : List (List Byte)) : List (List FVal) :=
  if flagBit n 1 then rows.map (rowValues b.format b.cols) else columns b.cols (rows.map (rowValues b.format b.cols))

/-- Every output element of a product onto accumulator `i`, row by row, and how often it was clamped. -/
def mmaOutputs (isInt : Bool) (g i : Nat) (z : UnitX) (left right : List (List FVal)) : List (Nat × Nat) :=
  (left.flatMap (fun r => right.map (fun c => (r, c)))).zipIdx.map (fun e => mmaElement isInt g (z.accGet i e.2) e.1.1 e.1.2)

theorem mxMma_multiplies {ra rb : List Place} {rowsA rowsB : List (List Byte)} {g : Nat} {isInt : Bool} (h : ExecutesIn (.mxMma n) n 8 s t y)
    (hab : MmaOperands n y a b) (hr : Reached t n a b ra rb) (hfit : mmaTiles n a b (flagBit n 1) = some (g, isInt))
    (hreadA : t.readRows n y (rowBytes a.format a.cols) ra = (u, .ok rowsA)) (hrb : u.tileRows n b false = .ok rb)
    (hreadB : u.readRows n y (rowBytes b.format b.cols) rb = (v, .ok rowsB)) :
    let i := n.d.toNat - 0x38
    let z := (if flagBit n 0 then y.accZero i else y).accType i isInt
    let out := mmaOutputs isInt g i z (rowsA.map (rowValues a.format a.cols)) (mmaRight n b rowsB)
    exec (.mxMma n) s = .next ((v.bump Fld.GC_SAT_CNT_COUNT ((out.map (·.2)).foldl (· + ·) 0)).retire n.slot n.unit (y.pc + 16)
      (z.accPut i 0 (out.map (·.1)))) := by
  obtain ⟨rfl, rfl⟩ := hab
  obtain ⟨ha, hb, hra, hrb'⟩ := hr
  refine next_congr (runInsn_retires h rfl ((if_neg (by simp [ha, hb])).trans ?_))
  simp only [hra, hrb', hfit]
  exact (withTile_reads hra hreadA).trans (withTile_reads hrb hreadB)

/-! ### mx.ld, mx.st (R287, R321) -/

theorem mxLd_outside (h : ExecutesIn (.mxLd n) n 8 s t y) (ha : tileOf (y.tile (n.a.toNat - 0x30)) = a) (hspace : a.space ≠ 1) :
    exec (.mxLd n) s = .next (t.faultContext n.slot n.unit 0x09 0 (insnWord 8 1 n)) := by
  subst ha
  exact next_congr (runInsn_faults h rfl (if_pos hspace) (by decide))

theorem mxLd_loads {ra : List Place} {rows : List (List Byte)} (h : ExecutesIn (.mxLd n) n 8 s t y)
    (ha : tileOf (y.tile (n.a.toNat - 0x30)) = a) (hspace : a.space = 1) (hra : t.tileRows n a false = .ok ra) (hfit : accTile a = true)
    (hread : t.readRows n y (rowBytes a.format a.cols) ra = (u, .ok rows)) :
    let isInt := decide (a.format = 9 ∨ a.format = 10)
    exec (.mxLd n) s = .next (u.retire n.slot n.unit (y.pc + 16) ((y.accType (n.d.toNat - 0x38) isInt).accPut (n.d.toNat - 0x38) 0
      ((rows.flatMap (rowValues a.format a.cols)).map (fun v => if isInt then (toSignedInt 32 v).1 else toF32 v)))) := by
  subst ha
  refine next_congr (runInsn_retires h rfl ((if_neg (not_not_intro hspace)).trans ?_))
  simp only [hra, hfit, Bool.not_true, Bool.false_eq_true, if_false]
  exact withTile_reads hra hread

theorem mxSt_outside (h : ExecutesIn (.mxSt n) n 8 s t y) (hd : tileOf (y.tile (n.d.toNat - 0x30)) = d) (hspace : d.space ≠ 1) :
    exec (.mxSt n) s = .next (t.faultContext n.slot n.unit 0x09 0 (insnWord 8 2 n)) := by
  subst hd
  exact next_congr (runInsn_faults h rfl (if_pos hspace) (by decide))

theorem mxSt_unfit {rd : List Place} (h : ExecutesIn (.mxSt n) n 8 s t y) (hd : tileOf (y.tile (n.d.toNat - 0x30)) = d) (hspace : d.space = 1)
    (hrd : t.tileRows n d true = .ok rd) (hfit : accTile d = false) :
    exec (.mxSt n) s = .next (t.faultContext n.slot n.unit 0x09 0 (insnWord 8 2 n)) := by
  subst hd
  refine next_congr (runInsn_faults h rfl ((if_neg (not_not_intro hspace)).trans ?_) (by decide))
  simp only [hrd, hfit, Bool.not_false, if_true]

/-- The values of an accumulator's first elements, in the rows that the tile `d` has. -/
def accRows (y : UnitX) (i : Nat) (d : Tile) : List (List FVal) :=
  (List.range d.rows).map (fun r => (List.range d.cols).map (fun c => y.accValue i (r * d.cols + c)))

theorem mxSt_stores {rd : List Place} {z : UnitX} (h : ExecutesIn (.mxSt n) n 8 s t y) (hd : tileOf (y.tile (n.d.toNat - 0x30)) = d)
    (hspace : d.space = 1) (hrd : t.tileRows n d true = .ok rd) (hfit : accTile d = true)
    (hwrite : t.writeTile n y d rd (accRows y (n.a.toNat - 0x38) d) = .done u z none) :
    exec (.mxSt n) s = .next (u.retire n.slot n.unit (y.pc + 16) z) := by
  subst hd
  refine next_congr (runInsn_retires h rfl ((if_neg (not_not_intro hspace)).trans ?_))
  simp only [hrd, hfit, Bool.not_true, Bool.false_eq_true, if_false]
  exact hwrite

/-! ### vx.ra, vx.wa, vx.cvt (R289, R291, R312) -/

theorem accRange_inside {e : Nat} (haligned : e % 64 = 0) (hin : e + 64 ≤ 4096) : accRange e = true := decide_eq_true ⟨haligned, hin⟩

theorem accRange_outside {e : Nat} (h : e % 64 ≠ 0 ∨ 4096 < e + 64) : accRange e = false := decide_eq_false (by omega)

theorem vxRa_moves (h : ExecutesIn (.vxRa n) n 9 s t y) (hin : accRange (y.num n n.b) = true) :
    exec (.vxRa n) s = .next (t.retire n.slot n.unit (y.pc + 16)
      (y.putLanes n.d (fun l => y.accGet (n.a.toNat - 0x38) (y.num n n.b + l)))) :=
  next_congr (runInsn_retires h rfl (if_neg (by simp [hin])))

theorem vxWa_moves (h : ExecutesIn (.vxWa n) n 9 s t y) (hin : accRange (y.num n n.b) = true) :
    exec (.vxWa n) s = .next (t.retire n.slot n.unit (y.pc + 16)
      (y.accPut (n.d.toNat - 0x38) (y.num n n.b) ((List.range 64).map (y.lane n.a)))) :=
  next_congr (runInsn_retires h rfl (if_neg (by simp [hin])))

theorem vxRa_outside (h : ExecutesIn (.vxRa n) n 9 s t y) (hout : accRange (y.num n n.b) = false) :
    exec (.vxRa n) s = .next (t.faultContext n.slot n.unit 0x04 (y.num n n.b) (insnWord 9 5 n)) :=
  next_congr (runInsn_faults h rfl (if_pos (by simp [hout])) (by decide))

theorem vxWa_outside (h : ExecutesIn (.vxWa n) n 9 s t y) (hout : accRange (y.num n n.b) = false) :
    exec (.vxWa n) s = .next (t.faultContext n.slot n.unit 0x04 (y.num n n.b) (insnWord 9 6 n)) :=
  next_congr (runInsn_faults h rfl (if_pos (by simp [hout])) (by decide))

/-- Settles O26: each MX instruction by where its tiles lie and whether they fit, vx.ra and vx.wa by the index, vx.cvt by its
direction. -/
theorem accumulatorInstructions : Obligations.AccumulatorInstructions := by
  refine fun n s => ⟨?classMX, ?classVX⟩
  case classMX =>
    intro t y a b d i gives
    refine ⟨?zero, ?mmaOutside, ?ldOutside, ?stOutside, ?multiplies, ?mmaUnfit, ?loads, ?stores, ?stUnfit⟩
    case zero => exact fun he => next_congr (runInsn_retires ⟨he, rfl, rfl⟩ rfl rfl)
    case mmaOutside => exact fun hspace he => mxMma_outside ⟨he, rfl, rfl⟩ ⟨rfl, rfl⟩ hspace
    case ldOutside => exact fun hspace he => mxLd_outside ⟨he, rfl, rfl⟩ rfl hspace
    case stOutside => exact fun hspace he => mxSt_outside ⟨he, rfl, rfl⟩ rfl hspace
    case multiplies =>
      exact fun ra rb u v rowsA rowsB g isInt ha hb hra hrb hfit hreadA hrb' hreadB he =>
        mxMma_multiplies ⟨he, rfl, rfl⟩ ⟨rfl, rfl⟩ ⟨ha, hb, hra, hrb⟩ hfit hreadA hrb' hreadB
    case mmaUnfit => exact fun ra rb ha hb hra hrb hfit he => mxMma_unfit ⟨he, rfl, rfl⟩ ⟨rfl, rfl⟩ ⟨ha, hb, hra, hrb⟩ hfit
    case loads => exact fun ra u rows hspace hra hfit hread he => mxLd_loads ⟨he, rfl, rfl⟩ rfl hspace hra hfit hread
    case stores => exact fun rd u z hspace hrd hfit hwrite he => mxSt_stores ⟨he, rfl, rfl⟩ rfl hspace hrd hfit hwrite
    case stUnfit => exact fun rd hspace hrd hfit he => mxSt_unfit ⟨he, rfl, rfl⟩ rfl hspace hrd hfit
  case classVX =>
    intro t y e gives
    refine ⟨?inside, ?outside, ?unpack, ?pack⟩
    case inside =>
      exact fun haligned hin => ⟨fun he => vxRa_moves ⟨he, rfl, rfl⟩ (accRange_inside haligned hin),
        fun he => vxWa_moves ⟨he, rfl, rfl⟩ (accRange_inside haligned hin)⟩
    case outside =>
      exact fun hout => ⟨fun he => vxRa_outside ⟨he, rfl, rfl⟩ (accRange_outside hout),
        fun he => vxWa_outside ⟨he, rfl, rfl⟩ (accRange_outside hout)⟩
    case unpack => exact fun hunpack he => next_congr (runInsn_retires ⟨he, rfl, rfl⟩ rfl (if_pos hunpack))
    case pack => exact fun hpack he => next_congr (runInsn_retires ⟨he, rfl, rfl⟩ rfl (if_neg (by simp [hpack])))

end Sys2Proof.Proofs
end

section
/-! Network and scheduler instructions: a message sent, a message received or waited for, and the requests to the scheduler (R302 to R304, R368). -/

namespace Sys2Proof.Proofs

open Sys2Proof Sys2Proof.Machine Sys2Proof.Safety Sys2Proof.Laws

variable {n : Insn} {s t : State} {y : UnitX} {b : List Byte} {d : Nat}

/-! ### nw.send (R302, R422, R424) -/

/-- What the network takes of a send: a tenant type, no handle or one that names a stall, and a payload that is read. -/
def Sendable (v : State) (c : Cmd) (n : Insn) (y : UnitX) (tenant : Nat) (payload : List Byte) : Prop :=
  (0x80 ≤ n.imm.toNat % 256 ∧ n.imm.toNat % 256 < 0xC0) ∧ (y.num n n.c = 0 ∨ ∃ i, v.checkHandle tenant (y.num n n.c) true = .ok i) ∧
    v.readIn c (y.num n n.a) 0 (y.num n n.b) = .ok payload

theorem nwSend_sends (h : ExecutesIn (.nwSend n) n 0x20 s t y) (hroom : y.reqs.length < 8) (hkind : t.kindLost 6 = false)
    (hen : t.on Fld.NW_CTRL_EN = true) (hd : (t.context n.slot).tenant = d)
    (hsend : Sendable (asking n y false (t.hubCmd n) none t) (t.hubCmd n) n y d b) :
    let v := asking n y false (t.hubCmd n) none t
    let u := (v.afterRead d (y.num n n.a) (y.num n n.b)).checkPoison
    let dest := u.sendTarget (y.num n n.c)
    let id := dest.1.drawFree
    let m : Msg := { type := n.imm.toNat % 256, src := u.deviceId, dst := dest.2.1, tenant := d, handle := dest.2.2, msgId := id.1.toNat, payload := b }
    exec (.nwSend n) s = .next (issuedAt n y (((id.2.send m).awaitAccept m).complete (t.hubCmd n) CS.ok)) := by
  subst hd
  obtain ⟨⟨hlow, hhigh⟩, hhandle, hread⟩ := hsend
  refine next_congr (runInsn_engine h rfl rfl hroom hkind hen ?_)
  have htype : ¬ (decide (n.imm.toNat % 256 < 0x80) || decide (0xC0 ≤ n.imm.toNat % 256)) = true := by
    simp [Nat.not_lt.mpr hlow, Nat.not_le.mpr hhigh]
  simp only [asking_tenant]
  refine (if_neg htype).trans ?_
  obtain hnone | ⟨i, hstall⟩ := hhandle
  · simp only [hnone, if_true, hread]
  · simp only [hstall, ite_self, hread]

/-! ### nw.recv and the deadline of its wait (R303) -/

theorem nwRecv_notOwned (h : ExecutesIn (.nwRecv n) n 0x20 s t y)
    (hown : t.tenantOwns (t.context n.slot).tenant (y.num n n.a) (y.num n n.b) = false) :
    exec (.nwRecv n) s = .next (t.retire n.slot n.unit (y.pc + 16) (recvResult y n.d.toNat CS.badCommand 0)) :=
  next_congr (runInsn_retires h rfl (if_pos (by simp [hown])))

/-- An earlier receive of the tenant `d` waits. -/
def inboxAwaited (t : State) (d : Nat) : Bool := t.net.recvWaits.any (fun w => w.1 = d)

theorem nwRecv_takes {m : Msg} {rest : List Msg} (h : ExecutesIn (.nwRecv n) n 0x20 s t y) (hd : (t.context n.slot).tenant = d)
    (hown : t.tenantOwns d (y.num n n.a) (y.num n n.b) = true) (hwaits : inboxAwaited t d = false) (hinbox : t.inboxOf d = m :: rest) :
    let r := t.takeMessage d (y.num n n.a) (y.num n n.b) m rest
    exec (.nwRecv n) s = .next (r.1.retire n.slot n.unit (y.pc + 16) (recvResult y n.d.toNat r.2.1 r.2.2)) := by
  subst hd
  unfold inboxAwaited at hwaits
  refine next_congr (runInsn_retires h rfl ((if_neg (by simp [hown])).trans ?_))
  simp only [hwaits, hinbox]

/-- What a receive leaves that no message answers: CS_TIMEOUT with a free second result at a deadline past, else a wait behind the earlier ones. -/
def recvUnanswered (t : State) (n : Insn) (y : UnitX) (d : Nat) : Did :=
  if y.num n n.c ≠ 0 && decide (y.num n n.c ≤ t.now) then .done t.drawFree.2 (recvResult y n.d.toNat CS.timeout t.drawFree.1.toNat) none
  else
    let u := t.setUnit n.slot n.unit { y with wait := some (.inbox (y.num n n.a) (y.num n n.b) (y.num n n.c) n.d.toNat) }
    .hold { u with net := { u.net with recvWaits := u.net.recvWaits ++ [(d, n.slot, n.unit)] } }

/-- No message answers a receive of the tenant `d`: an earlier one waits, or the inbox is empty. -/
def Unanswered (t : State) (d : Nat) : Prop := inboxAwaited t d = true ∨ t.inboxOf d = []

theorem nwRecv_unanswered (h : ExecutesIn (.nwRecv n) n 0x20 s t y) (hd : (t.context n.slot).tenant = d)
    (hown : t.tenantOwns d (y.num n n.a) (y.num n n.b) = true) (hno : Unanswered t d) :
    exec (.nwRecv n) s = .next (didEnd n 0x20 1 y (recvUnanswered t n y d)) := by
  obtain ⟨he, rfl, rfl⟩ := h
  subst hd
  refine next_congr ((runInsn_executes _ he rfl).trans (congrArg (didEnd n 0x20 1 _) ((if_neg (by simp [hown])).trans ?_)))
  unfold Unanswered inboxAwaited at hno
  split
  · next m rest hwaits hinbox => simp [hwaits, hinbox] at hno
  · rfl

theorem recvUnanswered_late (hset : y.num n n.c ≠ 0) (hpast : y.num n n.c ≤ t.now) :
    recvUnanswered t n y d = .done t.drawFree.2 (recvResult y n.d.toNat CS.timeout t.drawFree.1.toNat) none :=
  if_pos (by simp [hset, hpast])

theorem recvUnanswered_waits (h : y.num n n.c = 0 ∨ t.now < y.num n n.c) :
    let u := t.setUnit n.slot n.unit { y with wait := some (.inbox (y.num n n.a) (y.num n n.b) (y.num n n.c) n.d.toNat) }
    recvUnanswered t n y d = .hold { u with net := { u.net with recvWaits := u.net.recvWaits ++ [(d, n.slot, n.unit)] } } :=
  if_neg (by obtain h | h := h <;> simp [h])

theorem nwRecvTimeout_due {slot unit a l deadline : Nat} (hw : (s.unit slot unit).wait = some (.inbox a l deadline d)) (hset : deadline ≠ 0)
    (hpast : deadline ≤ s.now) :
    exec (.nwRecvTimeout slot unit) s = .next (s.drawFree.2.endRecv slot unit d CS.timeout s.drawFree.1.toNat) := by
  show execNwRecvTimeout slot unit s = _
  simp [execNwRecvTimeout, hw, hset, hpast, next]

theorem nwRecvTimeout_early {slot unit a l deadline : Nat} (hw : (s.unit slot unit).wait = some (.inbox a l deadline d))
    (h : deadline = 0 ∨ s.now < deadline) : exec (.nwRecvTimeout slot unit) s = .next s := by
  show execNwRecvTimeout slot unit s = _
  obtain h | h := h <;> simp [execNwRecvTimeout, hw, h, next]

/-! ### sc.launch, sc.stop, sc.round (R304, R368) -/

/-- The scheduler takes a launch or a stop as soon as there is room for the request. -/
theorem scLaunch_launches (h : ExecutesIn (.scLaunch n) n 0x21 s t y) (hroom : y.reqs.length < 8) :
    let v := asking n y true (t.hubCmd n) none t
    exec (.scLaunch n) s = .next (issuedAt n y
      (v.launch (t.hubCmd n) (v.context n.slot).tenant (y.num n n.a) (y.num n n.b) 0 (y.num n n.c) false true)) :=
  next_congr (runInsn_issues h rfl (request_room hroom))

theorem scStop_stops (h : ExecutesIn (.scStop n) n 0x21 s t y) (hroom : y.reqs.length < 8) :
    let v := asking n y false (t.hubCmd n) none t
    exec (.scStop n) s = .next (issuedAt n y (v.stop (t.hubCmd n) (v.context n.slot).tenant (y.num n n.a))) :=
  next_congr (runInsn_issues h rfl (request_room hroom))

/-- An enabled scheduler takes a round whose descriptor is the tenant's and is read. -/
theorem scRound_issues (h : ExecutesIn (.scRound n) n 0x21 s t y) (hroom : y.reqs.length < 8) {v : State}
    (hv : asking n y true (t.hubCmd n) none t = v) (hen : v.on Fld.SCH_CTRL_EN = true)
    (hown : v.tenantOwns (t.context n.slot).tenant (y.num n n.a) 64 = true)
    (hread : v.readT1 (t.context n.slot).tenant (y.num n n.a) 64 = .ok b) :
    exec (.scRound n) s = .next (issuedAt n y ((v.afterRead (t.context n.slot).tenant (y.num n n.a) 64).checkPoison.issueRound
      ⟨n.slot, n.unit, coreOf (t.hubCmd n), y.num n n.a, y.num n n.b, [], []⟩ (t.context n.slot).tenant b)) := by
  refine next_congr (runInsn_issues h rfl ((request_room hroom).trans ?_))
  simp only [hv, hen, hown, hread, Bool.not_true, Bool.false_eq_true, if_false]

/-- Settles O32: a send by what the network takes, a receive by its buffer, the inbox and the deadline, a request to the scheduler by the room for
it. -/
theorem networkAndSchedulerInstructions : Obligations.NetworkAndSchedulerInstructions := by
  refine ⟨fun n s => ⟨?classNW, ?classSC⟩, fun slot unit a l d deadline s hw => ⟨nwRecvTimeout_due hw, nwRecvTimeout_early hw⟩⟩
  case classNW =>
    intro t y d c gives
    refine ⟨?sends, fun hown => ⟨?takes, fun hno => ?unanswered⟩, ?notOwned⟩
    case sends =>
      exact fun b hroom hkind hen hlow hhigh hhandle hread he =>
        nwSend_sends ⟨he, rfl, rfl⟩ hroom hkind hen rfl ⟨⟨hlow, hhigh⟩, hhandle, hread⟩
    case takes => exact fun m rest hwaits hinbox he => nwRecv_takes ⟨he, rfl, rfl⟩ rfl hown hwaits hinbox
    case unanswered =>
      have hends (he : Executes (.nwRecv n) s) := nwRecv_unanswered ⟨he, rfl, rfl⟩ rfl hown hno
      exact ⟨fun hset hpast he => (hends he).trans (next_congr (congrArg (didEnd n 0x20 1 y) (recvUnanswered_late hset hpast))),
        fun hwait he => (hends he).trans (next_congr (congrArg (didEnd n 0x20 1 y) (recvUnanswered_waits hwait)))⟩
    case notOwned => exact fun hown he => nwRecv_notOwned ⟨he, rfl, rfl⟩ hown
  case classSC =>
    intro t y d c gives hroom
    refine ⟨?launches, ?stops, ?issues⟩
    case launches => exact fun he => scLaunch_launches ⟨he, rfl, rfl⟩ hroom
    case stops => exact fun he => scStop_stops ⟨he, rfl, rfl⟩ hroom
    case issues => exact fun b hen hown hread he => scRound_issues ⟨he, rfl, rfl⟩ hroom rfl hen hown hread

end Sys2Proof.Proofs
end

section
/-! The session transport: datagrams that arrive, what acknowledges or accepts them, their timers, Waggles, and the register that latches a flow
(R340, R341, R421 to R428, R440, R470). -/

namespace Sys2Proof.Proofs

open Sys2Proof Sys2Proof.Machine Sys2Proof.Safety Sys2Proof.Laws

variable {s : State} {p k q : Nat} {b : List Byte} {a : Arrived} {m : Msg} {d : Datagram}

/-! ### Flows read back -/

@[simp] theorem flow_setFlow_same (s : State) (k : Nat) (x : Flow) : (s.setFlow k x).flow k = x := sparseGet_put_same _ _ _ _

theorem sparseInsert_insert_self {α : Type} (k : Nat) (x : α) (l : List (Nat × α)) : sparseInsert k x (sparseInsert k x l) = sparseInsert k x l := by
  induction l with
  | nil => simp [sparseInsert]
  | cons e l ih =>
    obtain ⟨j, v⟩ := e
    by_cases hlt : k < j
    · simp [sparseInsert, hlt]
    · by_cases heq : k = j
      · simp [sparseInsert, heq]
      · simp [sparseInsert, hlt, heq, ih]

/-- What a key holds, put once more, changes nothing. -/
theorem sparsePut_put_self {α : Type} [DecidableEq α] (d : α) (k : Nat) (x : α) (l : List (Nat × α)) :
    sparsePut d k x (sparsePut d k x l) = sparsePut d k x l := by
  by_cases hx : x = d
  · simp [sparsePut, hx, sparseErase]
  · simp [sparsePut, hx, sparseInsert_insert_self]

theorem setFlow_setFlow_self (s : State) (k : Nat) (x : Flow) : (s.setFlow k x).setFlow k x = s.setFlow k x :=
  congrArg (fun l => ({ s with net := { s.net with flows := l } } : State)) (sparsePut_put_self _ _ _ _)

/-- A flow where nothing waits for a credit is left as it was set. -/
theorem pump_setFlow_nothing {x : Flow} (h : x.waiting = []) (s : State) (k : Nat) : ((s.setFlow k x).pump k).flow k = x := by
  have hflow : ((s.setFlow k x).pump k).flow k = { x with waiting := [] } := by simp [State.pump, h]
  rw [hflow, ← h]

/-! ### MST_DATAGRAM_RECEIVE: the checks in their order (R427, R440, R469, R470) -/

/-- The network is enabled and port `p` is up. -/
def Listening (s : State) (p : Nat) : Prop := s.get Fld.NW_CTRL_EN = 1 ∧ s.get (Fld.NW_PORT_STATE_LINK p) = 2

theorem mstDatagramReceive_deaf (h : s.get Fld.NW_CTRL_EN = 0 ∨ s.get (Fld.NW_PORT_STATE_LINK p) ≠ 2) (b : List Byte) :
    exec (.mstDatagramReceive p b) s = .next s := by
  refine congrArg next (if_pos ?_)
  obtain h | h := h
  · simp [on_of_zero h]
  · simp [State.netUp, h]

theorem policed_unpoliced (h : isControl (recGet b 1 1) = true ∨ s.get (Fld.TS_POLICE_EN p (recGet b 8 1)) = 0) : s.policed p b = (s, true) := by
  refine if_pos ?_
  obtain h | h := h
  · simp [h]
  · simp [on_of_zero h]

theorem mstDatagramReceive_malformed (h : Listening s p) (hb : headerOk b = false) : exec (.mstDatagramReceive p b) s = .next (s.badMessage p b) := by
  obtain ⟨hen, hlink⟩ := h
  show execMstDatagramReceive p b s = _
  simp [execMstDatagramReceive, on_of_one hen, State.netUp, hlink, hb]

theorem mstDatagramReceive_policed (h : Listening s p) (hb : headerOk b = true) (hp : (s.policed p b).2 = false) :
    exec (.mstDatagramReceive p b) s = .next (s.policed p b).1 := by
  obtain ⟨hen, hlink⟩ := h
  show execMstDatagramReceive p b s = _
  simp [execMstDatagramReceive, on_of_one hen, State.netUp, hlink, hb, hp]

/-- A port that listens lets a datagram with a good header through, and policing leaves the state `u`. -/
def LetThrough (s : State) (p : Nat) (b : List Byte) (u : State) : Prop := Listening s p ∧ headerOk b = true ∧ s.policed p b = (u, true)

theorem mstDatagramReceive_unopened {u : State} (h : LetThrough s p b u) (ho : u.openDatagram b = none) :
    exec (.mstDatagramReceive p b) s = .next (u.badMessage p b) := by
  obtain ⟨⟨hen, hlink⟩, hb, hp⟩ := h
  show execMstDatagramReceive p b s = _
  simp [execMstDatagramReceive, on_of_one hen, State.netUp, hlink, hb, hp, ho]

/-- The datagram is let through and opened as `a`. -/
def Opened (s : State) (p : Nat) (b : List Byte) (u : State) (a : Arrived) : Prop := LetThrough s p b u ∧ u.openDatagram b = some a

/-- What is judged of a datagram that was opened: where it is meant to go, and for whom. -/
theorem mstDatagramReceive_opened {u : State} (h : Opened s p b u a) : exec (.mstDatagramReceive p b) s = .next (
    if a.msg.dst ≠ u.deviceId || u.segmentBad (flowKey a.msg.src a.msg.tenant) a then u.badMessage p b
    else if !yardType a.msg.type && !u.on (Fld.TN_CTRL_EN a.msg.tenant) then u.bump (Fld.NW_STAT_COUNT 3) 1
    else u.accept p a) := by
  obtain ⟨⟨⟨hen, hlink⟩, hb, hp⟩, ho⟩ := h
  show execMstDatagramReceive p b s = _
  simp [execMstDatagramReceive, on_of_one hen, State.netUp, hlink, hb, hp, ho]

theorem mstDatagramReceive_misplaced {u : State} (h : Opened s p b u a)
    (hbad : a.msg.dst ≠ u.deviceId ∨ u.segmentBad (flowKey a.msg.src a.msg.tenant) a = true) :
    exec (.mstDatagramReceive p b) s = .next (u.badMessage p b) :=
  (mstDatagramReceive_opened h).trans (congrArg next (if_pos (by simpa using hbad)))

/-- The datagram is meant for this device, and its segment lies within its message. -/
def ForDevice (s : State) (p : Nat) (b : List Byte) (u : State) (a : Arrived) : Prop :=
  Opened s p b u a ∧ a.msg.dst = u.deviceId ∧ u.segmentBad (flowKey a.msg.src a.msg.tenant) a = false

theorem mstDatagramReceive_disabledTenant {u : State} (h : ForDevice s p b u a) (hy : yardType a.msg.type = false)
    (hen : u.get (Fld.TN_CTRL_EN a.msg.tenant) = 0) : exec (.mstDatagramReceive p b) s = .next (u.bump (Fld.NW_STAT_COUNT 3) 1) := by
  obtain ⟨ho, hdst, hseg⟩ := h
  rw [mstDatagramReceive_opened ho, if_neg (by simp [hdst, hseg]), if_pos (by simp [hy, on_of_zero hen])]

theorem mstDatagramReceive_accepts {u : State} (h : ForDevice s p b u a)
    (hen : yardType a.msg.type = true ∨ u.get (Fld.TN_CTRL_EN a.msg.tenant) = 1) : exec (.mstDatagramReceive p b) s = .next (u.accept p a) := by
  obtain ⟨ho, hdst, hseg⟩ := h
  rw [mstDatagramReceive_opened ho, if_neg (by simp [hdst, hseg]), if_neg]
  obtain hy | hen := hen
  · simp [hy]
  · simp [on_of_one hen]

/-! ### A datagram accepted: repeated or new (R421, R423, R585) -/

/-- A device message of TYPE 01H to 0CH that no checkpoint holds. -/
def DeviceMessage (s : State) (a : Arrived) : Prop := (1 ≤ a.msg.type ∧ a.msg.type ≤ 0x0C) ∧ (s.hear a.msg.src).freezing = false

/-- The flow `x` after a datagram of number `q` was moved out of its buffer. -/
def flowReceived (x : Flow) (q : Nat) : Flow := { x with seen := (q :: x.seen).take 65536, freed := x.freed + 1 }

theorem accept_deviceMessage (h : DeviceMessage s a) (p : Nat) :
    let v := s.hear a.msg.src
    let k := flowKey a.msg.src a.msg.tenant
    s.accept p a = if (v.flow k).seen.contains a.seq then (v.bump (Fld.NW_STAT_COUNT 1) 1).acknowledge a k
      else ((v.setFlow k (flowReceived (v.flow k) a.seq)).takeSegment p k a).acknowledge a k := by
  obtain ⟨⟨hlow, hhigh⟩, hfree⟩ := h
  have hack : a.msg.type ≠ 0x40 := by omega
  unfold State.accept
  simp only [hack, hfree, Bool.false_and, Bool.false_eq_true, if_false]
  rfl

theorem consume_deviceMessage (s : State) (p : Nat) {m : Msg} (h : m.type ≤ 0x0C) : s.consume p m = s := by
  have htype : m.type ≠ 0x14 ∧ m.type ≠ 0x10 ∧ m.type ≠ 0x11 ∧ m.type ≠ 0x12 ∧ m.type ≠ 0x16 ∧ ¬ 0x80 ≤ m.type := by omega
  simp [State.consume, htype]

/-- The one segment of a message is the message, and no segment is kept. -/
theorem takeSegment_whole (hparts : (s.flow k).parts = []) (hlast : a.last = true) (hseg : a.seg = 0) (p : Nat) :
    s.takeSegment p k a = (s.setFlow k { s.flow k with parts := [] }).consume p a.msg := by
  simp [State.takeSegment, hparts, hlast, hseg, sameMessage]

theorem accept_repeated (h : DeviceMessage s a) (p : Nat) (hseen : a.seq ∈ ((s.hear a.msg.src).flow (flowKey a.msg.src a.msg.tenant)).seen) :
    s.accept p a = ((s.hear a.msg.src).bump (Fld.NW_STAT_COUNT 1) 1).acknowledge a (flowKey a.msg.src a.msg.tenant) :=
  (accept_deviceMessage h p).trans (if_pos (List.contains_iff_mem.mpr hseen))

theorem accept_new {v : State} (h : DeviceMessage s a) (p : Nat) (hv : s.hear a.msg.src = v) (hk : flowKey a.msg.src a.msg.tenant = k)
    (hnew : a.seq ∉ (v.flow k).seen) (hparts : (v.flow k).parts = []) (hlast : a.last = true) (hseg : a.seg = 0) :
    s.accept p a = (v.setFlow k { v.flow k with
      seen := (a.seq :: (v.flow k).seen).take 65536, freed := (v.flow k).freed + 1, parts := [] }).acknowledge a k := by
  subst hv hk
  have hwhole : flowReceived ((s.hear a.msg.src).flow (flowKey a.msg.src a.msg.tenant)) a.seq =
      { flowReceived ((s.hear a.msg.src).flow (flowKey a.msg.src a.msg.tenant)) a.seq with parts := [] } := by
    rw [← hparts]
    rfl
  rw [accept_deviceMessage h p, if_neg (by simpa using hnew), takeSegment_whole (by simpa [flowReceived] using hparts) hlast hseg,
    consume_deviceMessage _ _ h.1.2, flow_setFlow_same, hwhole, setFlow_setFlow_self]
  rfl

/-! ### Acknowledgement and acceptance (R423 to R425) -/

theorem ackReceived_removes (s : State) (m : Msg) :
    let v := s.hear m.src
    let k := flowKey m.src m.tenant
    let named := (List.range (m.payload.length / 8)).map (fun i => recGet m.payload (8 * i) 8)
    let left := (v.flow k).unacked.filter (fun d => !named.contains d.seq)
    let z := v.unqueue (fun d => decide (flowKey d.peer d.tenant = k) && named.contains d.seq && decide (d.msg.type ≠ 0x40))
    exec (.ackReceived m) s = .next ((z.setFlow k
      { v.flow k with unacked := left, freedIn := max (v.flow k).freedIn (min m.aux (v.flow k).sent),
                      lastAck := if left.length < (v.flow k).unacked.length then z.now else (v.flow k).lastAck }).pump k) := rfl

/-- A message that an ACCEPT names: sent to its sender, with its number and tenant. -/
theorem acceptReceived_ends (s : State) (m : Msg) : ∃ u : State, exec (.acceptReceived m) s = .next u ∧ (∀ e, e ∈ u.net.unaccepted ↔
    e ∈ (s.hear m.src).net.unaccepted ∧ ¬ (e.1.dst = m.src ∧ e.1.msgId = m.msgId ∧ e.1.tenant = m.tenant)) :=
  ⟨_, rfl, fun e => by rw [List.mem_filter, Bool.not_eq_true', decide_eq_false_iff_not]⟩

/-! ### Waggles (R340, R341, R428) -/

theorem waggleReceived_copy (h : (s.hear m.src).net.rounds.contains (m.src, m.msgId) = true) : exec (.waggleReceived m) s = .next (s.hear m.src) :=
  congrArg next (if_pos h)

/-- The state after a Waggle's sender was heard and its round noted as judged. -/
def waggleJudged (s : State) (m : Msg) : State :=
  { s.hear m.src with net := { (s.hear m.src).net with rounds := (m.src, m.msgId) :: (s.hear m.src).net.rounds } }

theorem waggleReceived_early (hnew : (s.hear m.src).net.rounds.contains (m.src, m.msgId) = false)
    (hlead : (s.hear m.src).now + (s.hear m.src).get Fld.YT_WAGGLE_LEAD_NS ≤ m.aux) : exec (.waggleReceived m) s =
      .next { waggleJudged s m with net := { (waggleJudged s m).net with shares := (s.hear m.src).net.shares ++ [(m.src, m.msgId, m.aux)] } } :=
  congrArg next ((if_neg (by simpa using hnew)).trans (if_pos hlead))

theorem waggleReceived_late (hnew : (s.hear m.src).net.rounds.contains (m.src, m.msgId) = false)
    (hlead : m.aux < (s.hear m.src).now + (s.hear m.src).get Fld.YT_WAGGLE_LEAD_NS) : exec (.waggleReceived m) s =
      .next (((waggleJudged s m).sendDevice 0x21 m.src 0 0 m.msgId (s.hear m.src).now).raise { code := 0x0305, detail := [m.msgId, m.src] }) :=
  congrArg next ((if_neg (by simpa using hnew)).trans (if_neg (Nat.not_le.mpr hlead)))

/-! ### The timers (R423, R424, R426) -/

theorem retransmitTimer_gone (h : ∀ d ∈ (s.flow k).unacked, d.seq ≠ q) : exec (.retransmitTimer k q) s = .next s := by
  have hnone : (s.flow k).unacked.find? (fun d => decide (d.seq = q)) = none := List.find?_eq_none.mpr (fun d hd => by simpa using h d hd)
  show execRetransmitTimer k q s = _
  simp only [execRetransmitTimer, hnone]

/-- A datagram that is unacknowledged is put on a port again where it is due. -/
theorem retransmitTimer_unacked (h : (s.flow k).unacked.find? (fun d => d.seq = q) = some d) :
    exec (.retransmitTimer k q) s = .next (if s.retxDue d then s.enqueue d else s) := by
  show execRetransmitTimer k q s = _
  simp only [execRetransmitTimer, h]

theorem retransmitTimer_due (h : (s.flow k).unacked.find? (fun d => d.seq = q) = some d) (hdue : s.retxDue d = true) :
    exec (.retransmitTimer k q) s = .next (s.enqueue d) := (retransmitTimer_unacked h).trans (congrArg next (if_pos hdue))

theorem retransmitTimer_early (h : (s.flow k).unacked.find? (fun d => d.seq = q) = some d) (hdue : s.retxDue d = false) :
    exec (.retransmitTimer k q) s = .next s := (retransmitTimer_unacked h).trans (congrArg next (if_neg (by simp [hdue])))

theorem retxDue_unsent (h : d.sentAt = none) : s.retxDue d = (!d.queued && !s.transferPaused d.msg) := by
  simp only [State.retxDue, h]

theorem retxDue_sent {t : Nat} (h : d.sentAt = some t) : s.retxDue d = (!d.queued && decide (t + s.get Fld.NW_RETX_NS ≤ s.now)) := by
  simp only [State.retxDue, h]

theorem acceptTimer_none (h : s.net.unaccepted.length ≤ k) : exec (.acceptTimer k) s = .next s := by
  show execAcceptTimer k s = _
  simp only [execAcceptTimer, List.getElem?_eq_none h]

/-- A message that is not accepted is sent again, whole, once NW_ACCEPT has passed. -/
theorem acceptTimer_unaccepted {t : Nat} (h : s.net.unaccepted[k]? = some (m, t)) : exec (.acceptTimer k) s = .next (
    if s.now < t + s.get Fld.NW_ACCEPT_NS then s
    else ({ s with net := { s.net with unaccepted := s.net.unaccepted.set k (m, s.now) } } : State).send m) := by
  show execAcceptTimer k s = _
  simp only [execAcceptTimer, h]

theorem endpointTimeout_rests {t peer : Nat} {tool : Bool} (hpeer : (if tool = true then 0xF001 else 0xF000) = peer)
    (h : (s.flow (flowKey peer t)).unacked = [] ∧ (s.flow (flowKey peer t)).waiting = [] ∨
      s.now < (s.flow (flowKey peer t)).lastAck + s.get Fld.NW_EP_TIMEOUT_NS) : exec (.endpointTimeout t tool) s = .next s := by
  subst hpeer
  refine congrArg next (if_pos ?_)
  obtain ⟨hu, hw⟩ | h := h
  · simp [hu, hw]
  · exact Bool.or_eq_true_iff.mpr (.inr (decide_eq_true h))

theorem endpointTimeout_resets {t peer : Nat} {tool : Bool} (hpeer : (if tool = true then 0xF001 else 0xF000) = peer)
    (hout : (s.flow (flowKey peer t)).unacked ≠ [] ∨ (s.flow (flowKey peer t)).waiting ≠ [])
    (hlate : (s.flow (flowKey peer t)).lastAck + s.get Fld.NW_EP_TIMEOUT_NS ≤ s.now) : exec (.endpointTimeout t tool) s =
      .next ((s.resetFlow (flowKey peer t)).raise { code := 0x0B07, tenant := some t, detail := [peer] }) := by
  subst hpeer
  refine congrArg next (if_neg fun hrest => ?_)
  obtain hidle | hearly := Bool.or_eq_true_iff.mp hrest
  · obtain ⟨hu, hw⟩ := Bool.and_eq_true_iff.mp hidle
    exact hout.elim (fun h => h (List.isEmpty_iff.mp hu)) (fun h => h (List.isEmpty_iff.mp hw))
  · exact absurd (of_decide_eq_true hearly) (Nat.not_lt.mpr hlate)

/-! ### NW_FLOW_SEL (R425) -/

theorem nwFlowSelWrite_latches {w : RegWrite} (h : MayWrite s w Reg.NW_FLOW_SEL) :
    let v := s.store w Reg.NW_FLOW_SEL
    let x := v.flow (flowKey (v.get Fld.NW_FLOW_SEL_PEER) (v.get Fld.NW_FLOW_SEL_TENANT))
    exec (.nwFlowSelWrite w) s = .next (((v.put Fld.NW_FLOW_CREDITS_COUNT (v.credits x)).put Fld.NW_FLOW_INFLIGHT_COUNT (x.sent - x.freedIn)).put
      Fld.NW_FLOW_FREE_COUNT (v.get Fld.NW_CREDITS_CREDITS)) :=
  congrArg next (fromPort_may h)

/-- Settles O51: a datagram by the first check that stops it, a message of the transport by what it names, a timer by the count, and the write
of NW_FLOW_SEL by the flow that it selects. -/
theorem sessionTransport : Obligations.SessionTransport := by
  refine fun s => ⟨fun p b => ⟨?deaf, ?unpoliced, fun hen hlink => ?listening⟩, fun m => ?messages, fun k q => ?retransmit, fun k => ?acceptTimer,
    fun t tool => ?endpoint, fun w hmay => nwFlowSelWrite_latches hmay⟩
  case deaf => exact fun h => mstDatagramReceive_deaf h b
  case unpoliced => exact policed_unpoliced
  case listening =>
    refine ⟨mstDatagramReceive_malformed ⟨hen, hlink⟩, mstDatagramReceive_policed ⟨hen, hlink⟩, fun hb hp => ?_⟩
    have hthrough : LetThrough s p b (s.policed p b).1 := ⟨⟨hen, hlink⟩, hb, Prod.ext rfl hp⟩
    refine ⟨mstDatagramReceive_unopened hthrough, fun a ho => ?_⟩
    have hopened : Opened s p b (s.policed p b).1 a := ⟨hthrough, ho⟩
    refine ⟨fun hdst => mstDatagramReceive_misplaced hopened (.inl hdst), fun hseg => mstDatagramReceive_misplaced hopened (.inr hseg),
      fun hdst hseg => ?_⟩
    have hours : ForDevice s p b (s.policed p b).1 a := ⟨hopened, hdst, hseg⟩
    refine ⟨mstDatagramReceive_disabledTenant hours, mstDatagramReceive_accepts hours, fun hten hlow hhigh hfree => ?_⟩
    have htaken := mstDatagramReceive_accepts hours (.inr hten)
    have hdevice : DeviceMessage (s.policed p b).1 a := ⟨⟨hlow, hhigh⟩, hfree⟩
    exact ⟨fun hseen => htaken.trans (congrArg next (accept_repeated hdevice p hseen)),
      fun hnew hparts hlast hseg0 => htaken.trans (congrArg next (accept_new hdevice p rfl rfl hnew hparts hlast hseg0))⟩
  case messages =>
    refine ⟨ackReceived_removes s m, fun hwait => ?_, acceptReceived_ends s m, waggleReceived_copy,
      fun hnew hlead => ⟨_, waggleReceived_early hnew hlead, rfl, rfl, rfl⟩, waggleReceived_late, ⟨_, rfl, rfl, rfl⟩⟩
    refine ⟨_, ackReceived_removes s m, ?_⟩
    rw [pump_setFlow_nothing]
    · exact ⟨rfl, rfl, rfl⟩
    · exact hwait
  case retransmit =>
    refine ⟨retransmitTimer_gone, fun d hd hat => ?_, fun d at_ hd hat => ?_⟩
    · have hdue := retxDue_unsent (s := s) hat
      refine ⟨fun h => retransmitTimer_early hd (hdue.trans ?_), fun hq ht => retransmitTimer_due hd (hdue.trans (by simp [hq, ht]))⟩
      obtain h | h := h <;> simp [h]
    · have hdue := retxDue_sent (s := s) hat
      refine ⟨fun h => retransmitTimer_early hd (hdue.trans ?_), fun hq ht => retransmitTimer_due hd (hdue.trans (by simp [hq, ht]))⟩
      obtain h | h := h <;> simp [h]
  case acceptTimer =>
    exact ⟨acceptTimer_none, fun m at_ hm => ⟨fun hearly => (acceptTimer_unaccepted hm).trans (congrArg next (if_pos hearly)),
      fun hlate => (acceptTimer_unaccepted hm).trans (congrArg next (if_neg (Nat.not_lt.mpr hlate)))⟩⟩
  case endpoint => exact ⟨endpointTimeout_rests rfl, endpointTimeout_resets rfl⟩

end Sys2Proof.Proofs
end

section
/-! The Yard Time unit and the tally registers: the tick, the start of the count, pulses, PTP messages, and the host's writes to the tallies
(R331 to R336, R343 to R349, R352). -/

namespace Sys2Proof.Proofs

open Sys2Proof Sys2Proof.Machine Sys2Proof.Safety Sys2Proof.Laws

variable {s : State} {w : RegWrite} {m : PtpMsg} {n : Nat}

/-! ### YT_TICK (R331, R332) -/

theorem ytTick_stands (h : s.get Fld.YT_CTRL_RUN = 0) : exec .ytTick s = .next s := congrArg next (if_pos (by simp [on_of_zero h]))

/-- The count and its fraction in units of 10^-9 ns, one tick on. -/
def ytTicked (s : State) : Nat := ((s.yt.frac : Int) + 1000000000 + s.ratePpb).toNat

theorem ytTick_moves (h : s.get Fld.YT_CTRL_RUN = 1) : exec .ytTick s =
    .next (s.setYt { s.yt with count := s.yt.count + ytTicked s / 1000000000, frac := ytTicked s % 1000000000 }) :=
  congrArg next (if_neg (by simp [on_of_one h]))

/-- The tick loses nothing: what the fraction carries and what the count gains are the tick and its correction. -/
theorem ytTicked_exact (h : -1000000000 ≤ s.ratePpb) :
    ((s.yt.count + ytTicked s / 1000000000 : Nat) : Int) * 1000000000 + (ytTicked s % 1000000000 : Nat) =
      s.yt.count * 1000000000 + s.yt.frac + 1000000000 + s.ratePpb := by
  have htotal : (ytTicked s : Int) = s.yt.frac + 1000000000 + s.ratePpb := Int.toNat_of_nonneg (by omega)
  omega

/-! ### YT_CTRL (R331, R352, R373) -/

/-- YT_CTRL stored, YT_RATE 0 where the count follows no source. -/
def ytCtrlStored (s : State) (w : RegWrite) : State :=
  let x := s.store w Reg.YT_CTRL
  if x.get Fld.YT_CTRL_SRC = 0 then x.put Fld.YT_RATE_PPB 0 else x

/-- The count started at YT_SET, and with it the accounting period. -/
def ytStarted (v : State) : State :=
  { v.setYt { v.yt with count := v.get Fld.YT_SET_NS, frac := 0, lastPps := some (v.get Fld.YT_SET_NS) } with
    periodEnd := v.get Fld.YT_SET_NS + v.get Fld.TN_PERIOD_NS }

/-- Both commands that write YT_CTRL store it, and start the count where the write sets RUN. -/
theorem ytCtrl_write {c : Instr} (hc : c ∈ [Instr.ytRun w, .ytCommit w]) (h : MayWrite s w Reg.YT_CTRL) : exec c s =
    .next (if s.on Fld.YT_CTRL_RUN || !(ytCtrlStored s w).on Fld.YT_CTRL_RUN then ytCtrlStored s w else ytStarted (ytCtrlStored s w)) := by
  have hwrite : exec c s = .next (s.writeYtCtrl w) := by
    simp only [List.mem_cons, List.not_mem_nil, or_false] at hc
    obtain rfl | rfl := hc <;> rfl
  exact hwrite.trans (congrArg next (fromPort_may h))

theorem ytCtrl_keeps {c : Instr} (hc : c ∈ [Instr.ytRun w, .ytCommit w]) (h : MayWrite s w Reg.YT_CTRL)
    (hrun : s.get Fld.YT_CTRL_RUN = 1 ∨ (ytCtrlStored s w).get Fld.YT_CTRL_RUN = 0) : exec c s = .next (ytCtrlStored s w) := by
  rw [ytCtrl_write hc h, if_pos]
  obtain hrun | hrun := hrun
  · simp [on_of_one hrun]
  · simp [on_of_zero hrun]

theorem ytCtrl_starts {c : Instr} (hc : c ∈ [Instr.ytRun w, .ytCommit w]) (h : MayWrite s w Reg.YT_CTRL) (hstood : s.get Fld.YT_CTRL_RUN = 0)
    (hrun : (ytCtrlStored s w).get Fld.YT_CTRL_RUN = 1) : exec c s = .next (ytStarted (ytCtrlStored s w)) := by
  rw [ytCtrl_write hc h, if_neg (by simp [on_of_zero hstood, on_of_one hrun])]

/-! ### PPS_EDGE, PPS_MISSING (R333, R335, R336) -/

/-- The pulse stamped, HOLDOVER ended. -/
def ppsStamped (s : State) : State :=
  ((s.put Fld.YT_PPS_STAMP_NS s.now).setYt { s.yt with lastPps := some s.now }).put Fld.YT_STATUS_HOLDOVER 0

/-- YT_PPS is the source that disciplines the count. -/
def PpsSource (s : State) : Prop := s.get Fld.YT_CTRL_SRC = 1 ∨ (s.get Fld.YT_CTRL_SRC = 3 ∧ s.yt.ptpMaster = none)

/-- A stamp leaves every register but YT_PPS_STAMP, and of YT_STATUS the fields above HOLDOVER. -/
theorem ppsStamped_get (s : State) (g : RegField) (hstamp : g.off ≠ Reg.YT_PPS_STAMP) (hstatus : g.off ≠ Reg.YT_STATUS ∨ 2 ≤ g.lo) :
    (ppsStamped s).get g = s.get g :=
  (state_get_put_other _ _ _ _ (hstatus.imp_right .inr)).trans (state_get_put_other s _ g _ (.inl hstamp))

theorem ppsEdge_stamps (h : ¬ PpsSource s) : exec .ppsEdge s = .next (ppsStamped s) :=
  congrArg next (if_neg (by simpa [PpsSource] using h))

/-- A pulse of the source measures its distance from the nearest second. -/
theorem ppsEdge_measures (h : PpsSource s) : exec .ppsEdge s = .next ((ppsStamped s).measure
    (if s.now % 1000000000 ≤ 500000000 then -(s.now % 1000000000 : Nat) else 1000000000 - (s.now % 1000000000 : Nat))) :=
  congrArg next (if_pos (by simpa [PpsSource] using h))

/-- The 16th measurement in a row within YT_LOCK_LIMIT sets LOCKED, where neither YT_REF nor the timebase is failed. -/
theorem measure_sixteenth {v : State} {offset : Int} (hin : offset.natAbs ≤ v.get Fld.YT_LOCK_LIMIT_NS) (hsmall : offset.natAbs ≤ 1000000)
    (hrun : v.yt.lockRun = 15) (hbase : v.get Fld.YT_STATUS_FALLBACK = 0) (href : (v.get Fld.CK_MON_STATUS_FAILED).testBit 2 = false) :
    v.measure offset =
      (((v.put Fld.YT_OFFSET_NS (signedBits 64 offset)).setYt { v.yt with lockRun := 16, unlockRun := 0 }).setLocked true).steer offset := by
  have hput : ∀ g : RegField, g.off ≠ Reg.YT_OFFSET → (v.put Fld.YT_OFFSET_NS (signedBits 64 offset)).get g = v.get g :=
    fun g hg => state_get_put_other _ _ _ _ (.inl hg)
  have hlimit := hput Fld.YT_LOCK_LIMIT_NS (by decide)
  have hfallback := hput Fld.YT_STATUS_FALLBACK (by decide)
  have hfailed := hput Fld.CK_MON_STATUS_FAILED (by decide)
  have hyt : ∀ (u : State) (y : YardTime) (g : RegField), (u.setYt y).get g = u.get g := fun _ _ _ => rfl
  unfold State.measure
  simp [State.on, hyt, hlimit, hfallback, hfailed, hin, hbase, href, hrun, Nat.not_lt.mpr hsmall]

theorem ppsMissing_holds (hsrc : s.get Fld.YT_CTRL_SRC = 1 ∨ s.get Fld.YT_CTRL_SRC = 3) (hrun : s.get Fld.YT_CTRL_RUN = 1)
    (hhold : s.get Fld.YT_STATUS_HOLDOVER = 0) (hlate : s.yt.lastPps.getD (s.get Fld.YT_SET_NS) + 1500000000 ≤ s.now) :
    exec .ppsMissing s = .next ((s.put Fld.YT_STATUS_HOLDOVER 1).raise { code := 0x0304 }) :=
  congrArg next (if_pos (by simp [hsrc, on_of_one hrun, on_of_zero hhold, hlate]))

theorem ppsMissing_rests (h : s.now < s.yt.lastPps.getD (s.get Fld.YT_SET_NS) + 1500000000 ∨ s.get Fld.YT_CTRL_SRC = 0 ∨ s.get Fld.YT_CTRL_SRC = 2 ∨
    s.get Fld.YT_CTRL_RUN = 0 ∨ s.get Fld.YT_STATUS_HOLDOVER = 1) : exec .ppsMissing s = .next s := by
  refine congrArg next (if_neg ?_)
  obtain h | h | h | h | h := h
  · simp [Nat.not_le.mpr h]
  · simp [h]
  · simp [h]
  · simp [on_of_zero h]
  · simp [on_of_one h]

/-! ### PTP_MESSAGE (R333, R334, R336) -/

theorem ptpMessage_ignored (h : s.get Fld.YT_CTRL_SRC < 2 ∨ (s.get Fld.YT_PTP_PORTS).testBit m.port = false ∨ m.domain ≠ s.get Fld.YT_PTP_DOMAIN) :
    exec (.ptpMessage m) s = .next s := by
  refine congrArg next (if_pos ?_)
  obtain h | h | h := h
  · simp [show s.get Fld.YT_CTRL_SRC ≠ 2 by omega, show s.get Fld.YT_CTRL_SRC ≠ 3 by omega]
  · simp [h]
  · simp [h]

/-- PTP disciplines the count, its clock source stands, and the message came on its ports, in its domain and over its transport. -/
def PtpHeard (s : State) (m : PtpMsg) : Prop :=
  (s.get Fld.YT_CTRL_SRC = 2 ∨ s.get Fld.YT_CTRL_SRC = 3) ∧ (s.get Fld.CK_MON_STATUS_FALLBACK).testBit 1 = false ∧
    (s.get Fld.CK_MON_STATUS_FAILED).testBit 1 = false ∧ (s.get Fld.YT_PTP_PORTS).testBit m.port = true ∧ m.domain = s.get Fld.YT_PTP_DOMAIN ∧
    (s.get Fld.YT_PTP_TRANSPORT = 1 ↔ m.ethernet = true)

/-- The same as one truth value, as the message is judged. -/
def ptpPasses (s : State) (m : PtpMsg) : Bool :=
  (s.get Fld.YT_CTRL_SRC = 2 || s.get Fld.YT_CTRL_SRC = 3) && !(s.get Fld.CK_MON_STATUS_FALLBACK).testBit 1 &&
    !(s.get Fld.CK_MON_STATUS_FAILED).testBit 1 && (s.get Fld.YT_PTP_PORTS).testBit m.port && decide (m.domain = s.get Fld.YT_PTP_DOMAIN) &&
    decide (s.on Fld.YT_PTP_TRANSPORT = m.ethernet)

theorem ptpPasses_of_heard (h : PtpHeard s m) : ¬ (!ptpPasses s m) = true := by
  obtain ⟨hsrc, hbase, href, hport, hdomain, htransport⟩ := h
  have hcount : (decide (s.get Fld.YT_CTRL_SRC = 2) || decide (s.get Fld.YT_CTRL_SRC = 3)) = true := by simpa using hsrc
  have hover : s.on Fld.YT_PTP_TRANSPORT = m.ethernet := Bool.eq_iff_iff.mpr (decide_eq_true_iff.trans htransport)
  simp only [ptpPasses, hcount, hbase, href, hport, hdomain, hover, decide_true, Bool.not_false, Bool.and_self, Bool.not_true, Bool.false_eq_true,
    not_false_iff]

/-- A heard Announce selects its master where that is the one selected or ranks better. -/
theorem ptpMessage_announce {master rank : Nat} (h : PtpHeard s m) (hb : m.body = .announce master rank) : exec (.ptpMessage m) s = .next (
    if s.yt.ptpMaster.all (fun q => decide (q.1 = master) || decide (rank < q.2)) then s.selectSource (some (master, rank)) else s) := by
  refine congrArg next ((if_neg (ptpPasses_of_heard h)).trans ?_)
  rw [hb]
  cases s.yt.ptpMaster <;> rfl

/-- Any other heard message is used. -/
theorem ptpMessage_uses {b : PtpBody} {u : State} (h : PtpHeard s m) (hb : m.body = b) (hother : ∀ master rank, b ≠ .announce master rank)
    (hu : s.ptpUse m.port b = u) : exec (.ptpMessage m) s = .next u := by
  refine congrArg next ((if_neg (ptpPasses_of_heard h)).trans ?_)
  rw [hb, ← hu]
  cases b with
  | announce master rank => exact absurd rfl (hother master rank)
  | _ => rfl

theorem selectSource_yt (s : State) (x : Option (Nat × Nat)) : (s.selectSource x).yt =
    if s.yt.ptpMaster.map (·.1) = x.map (·.1) then { s.yt with ptpMaster := x }
    else { s.yt with ptpMaster := x, ptpSync := none, ptpSpan := 0, ptpAsked := none, ptpPeer := none, ptpPath := 0 } := by
  simp [State.selectSource]

@[simp] theorem selectSource_ptpMaster (s : State) (x : Option (Nat × Nat)) : (s.selectSource x).yt.ptpMaster = x := by
  rw [selectSource_yt]
  split <;> rfl

@[simp] theorem selectSource_count (s : State) (x : Option (Nat × Nat)) : (s.selectSource x).yt.count = s.yt.count := by
  rw [selectSource_yt]
  split <;> rfl

/-- `master` is the one selected. -/
def Selected (s : State) (master : Nat) : Prop := s.yt.ptpMaster.map (·.1) = some master

variable {port master seq at_ : Nat} {correction : Int}

theorem ptpUse_sync_unselected (h : ¬ Selected s master) (origin : Option Nat) : s.ptpUse port (.sync master seq origin correction) = s := if_pos h

theorem ptpUse_sync_twoStep (h : Selected s master) :
    s.ptpUse port (.sync master seq none correction) = s.setYt { s.yt with ptpSync := some (seq, s.now) } := if_neg (not_not_intro h)

theorem ptpUse_sync_oneStep {o : Nat} (h : Selected s master) : s.ptpUse port (.sync master seq (some o) correction) = s.syncAt port o s.now correction :=
  if_neg (not_not_intro h)

theorem ptpUse_followUp {origin : Nat} (h : Selected s master) (hsync : s.yt.ptpSync = some (seq, at_)) :
    s.ptpUse port (.followUp master seq origin correction) = s.syncAt port origin at_ correction := by
  unfold Selected at h
  simp [State.ptpUse, hsync, h]

theorem ptpUse_followUp_unasked {origin : Nat} (h : ¬ Selected s master ∨ s.yt.ptpSync.map (·.1) ≠ some seq) :
    s.ptpUse port (.followUp master seq origin correction) = s := by
  simp only [State.ptpUse]
  cases hsync : s.yt.ptpSync with
  | none => rfl
  | some x =>
    refine if_neg fun hboth => ?_
    obtain ⟨hsel, hseq⟩ := Bool.and_eq_true_iff.mp hboth
    obtain h | h := h
    · exact h (show s.yt.ptpMaster.map (·.1) = some master from of_decide_eq_true hsel)
    · exact h (by simpa [hsync] using hseq)

theorem ptpUse_delayResp {receipt : Nat} (h : Selected s master) (hasked : s.yt.ptpAsked = some (seq, at_)) (hd : s.get Fld.YT_PTP_DELAY = 0) :
    s.ptpUse port (.delayResp master seq receipt correction) =
      s.setYt { s.yt with ptpPath := (s.yt.ptpSpan + ((receipt : Int) - at_ - correction)) / 2 } := by
  unfold Selected at h
  simp [State.ptpUse, hasked, h, on_of_zero hd]

theorem ptpUse_peerRequest (hd : s.get Fld.YT_PTP_DELAY = 1) :
    s.ptpUse port (.peerRequest seq) = s.emit (.ptp port (bytesOf 1 3 ++ bytesOf 2 seq ++ bytesOf 8 s.now)) := if_pos (on_of_one hd)

theorem ptpUse_peerRequest_endToEnd (hd : s.get Fld.YT_PTP_DELAY = 0) : s.ptpUse port (.peerRequest seq) = s := if_neg (by simp [on_of_zero hd])

theorem ptpUse_peerResp_twoStep {r : Nat} (hasked : s.yt.ptpAsked = some (seq, at_)) (hd : s.get Fld.YT_PTP_DELAY = 1) :
    s.ptpUse port (.peerResp seq (some r) correction) = s.setYt { s.yt with ptpPeer := some (r, s.now) } := by
  simp [State.ptpUse, hasked, on_of_one hd]

theorem ptpUse_peerResp_oneStep (hasked : s.yt.ptpAsked = some (seq, at_)) (hd : s.get Fld.YT_PTP_DELAY = 1) :
    s.ptpUse port (.peerResp seq none correction) = s.setYt { s.yt with ptpPath := ((s.now : Int) - at_ - correction) / 2 } := by
  simp [State.ptpUse, hasked, on_of_one hd]

theorem ptpUse_peerFollowUp {sent : Nat} {x : Nat × Nat} (hasked : s.yt.ptpAsked = some (seq, at_)) (hpeer : s.yt.ptpPeer = some x)
    (hd : s.get Fld.YT_PTP_DELAY = 1) : s.ptpUse port (.peerFollowUp seq sent correction) =
      s.setYt { s.yt with ptpPeer := none, ptpPath := (((x.2 : Int) - at_) - ((sent : Int) - x.1) - correction) / 2 } := by
  simp [State.ptpUse, hasked, hpeer, on_of_one hd]

/-! ### TL_HOST_SIG, TL_BIND, TL_SNAP_SEL (R343 to R345, R349) -/

/-- TL_FLAGS.COUNT set and counted. -/
def countFlagged (s : State) : State := { s with io := s.io.setFlag Reg.TL_FLAGS 2 Reg.TL_FLAG_COUNT 2 }

/-- The tally and the count that a write of TL_HOST_SIG names. -/
def hostSigTally (w : RegWrite) : Nat := (writeBits w).toNat % 8192
def hostSigCount (w : RegWrite) : Nat := (writeBits w).toNat / 2 ^ 16 % 65536

/-- The checks of the tally that the host signals, in the name of the tenant it is bound to. -/
def hostSigCheck (s : State) (w : RegWrite) : Option Nat :=
  s.tallyCheck (s.get (Fld.TL_BIND_TENANT (hostSigTally w))) (hostSigTally w) (hostSigCount w)

theorem tlHostSig_refused {e : Nat} (h : MayWrite s w Reg.TL_HOST_SIG) (hc : hostSigCheck s w = some e) :
    exec (.tlHostSig w) s = .next (countFlagged s) := by
  refine congrArg next ((fromPort_may h).trans ?_)
  unfold hostSigCheck hostSigTally hostSigCount at hc
  simp only [hc]
  rfl

/-- A tally that passes its checks is signalled; a count that it cannot take is flagged. -/
theorem tlHostSig_signals (h : MayWrite s w Reg.TL_HOST_SIG) (hc : hostSigCheck s w = none) : exec (.tlHostSig w) s = .next (
    if (s.signal (hostSigTally w) (hostSigCount w)).1 = CS.ok then (s.signal (hostSigTally w) (hostSigCount w)).2
    else countFlagged (s.signal (hostSigTally w) (hostSigCount w)).2) := by
  refine congrArg next ((fromPort_may h).trans ?_)
  unfold hostSigCheck hostSigTally hostSigCount at hc
  simp only [hc]
  rfl

theorem tlBindWrite_outside (h : 8192 ≤ n) (w : RegWrite) : exec (.tlBindWrite w n) s = .next s := congrArg next (if_neg (Nat.not_lt.mpr h))

/-- The write clears the tally's EN or moves the tally to another tenant. -/
def Unbinds (s : State) (w : RegWrite) (n : Nat) : Prop :=
  s.wouldGet w (Fld.TL_BIND_TENANT n) ≠ s.get (Fld.TL_BIND_TENANT n) ∨ (s.get (Fld.TL_BIND_EN n) = 1 ∧ s.wouldGet w (Fld.TL_BIND_EN n) = 0)

theorem tlBindWrite_cancels (hn : n < 8192) (h : MayWrite s w (Reg.TL_BIND n)) (hu : Unbinds s w n) :
    exec (.tlBindWrite w n) s = .next ((s.cancelTally n (s.get (Fld.TL_BIND_TENANT n))).store w (Reg.TL_BIND n)) := by
  refine congrArg next ((if_pos hn).trans ((fromPort_may h).trans (congrArg (fun u : State => u.store w (Reg.TL_BIND n)) (if_pos ?_))))
  simpa [State.on] using hu.symm

theorem tlBindWrite_stores (hn : n < 8192) (h : MayWrite s w (Reg.TL_BIND n)) (hu : ¬ Unbinds s w n) :
    exec (.tlBindWrite w n) s = .next (s.store w (Reg.TL_BIND n)) := by
  refine congrArg next ((if_pos hn).trans ((fromPort_may h).trans (congrArg (fun u : State => u.store w (Reg.TL_BIND n)) (if_neg fun hc => hu ?_))))
  exact Or.symm (by simpa [State.on] using hc)

/-- Settles O54: the tick and the write of YT_CTRL by RUN, a pulse by the source, a PTP message by its body, and the writes to the tallies by what
they name. -/
theorem yardTimeAndTallyRegisters : Obligations.YardTimeAndTallyRegisters := by
  refine fun s => ⟨ytTick_stands, fun hrun hrate => ⟨_, ytTick_moves hrun, ytTicked_exact hrate, Nat.mod_lt _ (by decide), rfl⟩,
    fun w hmay c hc => ⟨ytCtrl_keeps hc hmay, fun hstood hrun => ⟨_, ytCtrl_starts hc hmay hstood hrun, rfl, rfl, rfl, rfl, rfl⟩⟩, ?pulse,
    ⟨ppsMissing_holds, ppsMissing_rests⟩, fun m => ⟨ptpMessage_ignored, fun hsrc hbase href hport hdomain htransport => ?message⟩, ?loss,
    fun w hmay => ?hostSig, fun w n => ⟨fun hn => tlBindWrite_outside hn w, fun hn hmay => ?bind⟩, fun w hmay => congrArg next (fromPort_may hmay)⟩
  case pulse =>
    refine ⟨ppsEdge_stamps, fun hsrc hbehind => ?_, fun hsrc hahead => ?_, fun hsrc hbehind hlimit hsmall hrun hbase href => ?_⟩
    · exact (ppsEdge_measures hsrc).trans (congrArg next (congrArg _ (if_pos hbehind)))
    · exact (ppsEdge_measures hsrc).trans (congrArg next (congrArg _ (if_neg (Nat.not_le.mpr hahead))))
    · rw [ppsEdge_measures hsrc, if_pos hbehind]
      refine congrArg next (measure_sixteenth ?_ ?_ hrun ?_ ?_)
      · rw [Int.natAbs_neg]; exact hlimit
      · rw [Int.natAbs_neg]; exact hsmall
      · exact (ppsStamped_get s _ (by decide) (.inr (by decide))).trans hbase
      · rw [ppsStamped_get s _ (by decide) (.inl (by decide))]; exact href
  case message =>
    have hheard : PtpHeard s m := ⟨hsrc, hbase, href, hport, hdomain, htransport⟩
    refine ⟨fun master rank hb hbetter => ⟨?selects, selectSource_ptpMaster s _⟩, fun master other rank best hb hq hne hbest => ?keeps,
      fun master seq origin correction hb => ?sync, fun master seq origin correction hb => ?followUp,
      fun master seq receipt correction at_ hb hsel hasked hd => ptpMessage_uses hheard hb (by simp) (ptpUse_delayResp hsel hasked hd),
      fun seq hb => ⟨fun hd => ptpMessage_uses hheard hb (by simp) (ptpUse_peerRequest hd),
        fun hd => ptpMessage_uses hheard hb (by simp) (ptpUse_peerRequest_endToEnd hd)⟩,
      fun seq receipt correction at_ hb hasked hd => ?peerResp,
      fun seq sent correction at_ x hb hasked hpeer hd => ptpMessage_uses hheard hb (by simp) (ptpUse_peerFollowUp hasked hpeer hd),
      fun hb => ptpMessage_uses hheard hb (by simp) rfl⟩
    case selects =>
      refine (ptpMessage_announce hheard hb).trans (congrArg next (if_pos ?_))
      cases hq : s.yt.ptpMaster with
      | none => rfl
      | some q => simpa using hbetter q hq
    case keeps => exact (ptpMessage_announce hheard hb).trans (congrArg next (if_neg (by simp [hq, hne, hbest])))
    case sync =>
      refine ⟨fun hsel => ptpMessage_uses hheard hb (by simp) (ptpUse_sync_unselected hsel origin), fun hsel ho => ?_, fun o hsel ho => ?_⟩
      · subst ho
        exact ptpMessage_uses hheard hb (by simp) (ptpUse_sync_twoStep hsel)
      · subst ho
        exact ptpMessage_uses hheard hb (by simp) (ptpUse_sync_oneStep hsel)
    case followUp =>
      exact ⟨fun at_ hsel hsync => ptpMessage_uses hheard hb (by simp) (ptpUse_followUp hsel hsync),
        fun h => ptpMessage_uses hheard hb (by simp) (ptpUse_followUp_unasked h)⟩
    case peerResp =>
      refine ⟨fun r hr => ?_, fun hr => ?_⟩
      · subst hr
        exact ptpMessage_uses hheard hb (by simp) (ptpUse_peerResp_twoStep hasked hd)
      · subst hr
        exact ptpMessage_uses hheard hb (by simp) (ptpUse_peerResp_oneStep hasked hd)
  case loss =>
    refine ⟨s.selectSource none, rfl, selectSource_ptpMaster s none, state_get_put_same _ _ _ (by decide), selectSource_count s none, fun hq => ?_⟩
    rw [selectSource_yt, if_neg (by simpa using hq)]
    exact ⟨rfl, rfl, rfl⟩
  case hostSig =>
    exact ⟨fun e hc => tlHostSig_refused hmay hc, fun hc hst => (tlHostSig_signals hmay hc).trans (congrArg next (if_neg hst)),
      fun hc hst => (tlHostSig_signals hmay hc).trans (congrArg next (if_pos hst))⟩
  case bind =>
    refine ⟨fun hu => tlBindWrite_cancels hn hmay hu, fun htenant hen => tlBindWrite_stores hn hmay ?_⟩
    rintro (htenant' | ⟨hon, hclear⟩)
    · exact htenant' htenant
    · obtain hoff | hkeep := hen
      · omega
      · exact hkeep hclear

end Sys2Proof.Proofs
end

section
/-! The queue of waiting commands, the model's own (log entry 1): a step takes the front one, which never stops the block, so that any queue is worked
off (R388, R396). -/

namespace Sys2Proof.Proofs

open Sys2Proof Sys2Proof.Machine Sys2Proof.Safety Sys2Proof.Laws

variable {s t : State}

theorem step_of_nil (h : s.pending = []) : step s = .next s := by
  unfold step
  rw [h]

theorem step_of_cons {c : Instr} {rest : List Instr} (h : s.pending = c :: rest) : step s = exec c { s with pending := rest } := by
  unfold step
  rw [h]

/-- Every command ends in a next state. -/
theorem exec_goes_on (c : Instr) (s : State) : ∃ t, exec c s = .next t := by
  obtain ⟨t, ht, -⟩ := exec_kept c s
  exact ⟨t, ht⟩

theorem exists_steps (s : State) : ∃ t, Steps s t := by
  cases hp : s.pending with
  | nil => exact ⟨s, step_of_nil hp⟩
  | cons c rest =>
    obtain ⟨t, ht⟩ := exec_goes_on c { s with pending := rest }
    exact ⟨t, (step_of_cons hp).trans ht⟩

/-- A step takes the front command, if any, and the command it runs leaves the queue's rest alone. -/
theorem pending_of_steps (h : Steps s t) : t.pending = s.pending.tail := by
  obtain ⟨hnil, rfl⟩ | ⟨c, rest, hp, -, ⟨-, hrest⟩, -⟩ := steps_cases h
  · rw [hnil]; rfl
  · rw [hp]; exact hrest

theorem runFor_succ_of_steps (h : Steps s t) (n : Nat) : runFor (n + 1) s = runFor n t := by
  unfold Steps at h
  rw [runFor, h]

/-- `n` waiting commands are worked off in `n` steps. -/
theorem runFor_drains (n : Nat) (s : State) (hn : s.pending.length = n) (hs : Canonical s) :
    ∃ t, runFor n s = some t ∧ t.pending = [] ∧ Canonical t := by
  induction n generalizing s with
  | zero => exact ⟨s, rfl, List.eq_nil_of_length_eq_zero hn, hs⟩
  | succ n ih =>
    obtain ⟨u, hu⟩ := exists_steps s
    have hlen : u.pending.length = n := by rw [pending_of_steps hu, List.length_tail, hn]; rfl
    obtain ⟨t, ht, hempty, hcanonical⟩ := ih u hlen (canonicalFormsKept s u hs hu)
    exact ⟨t, (runFor_succ_of_steps hu n).trans ht, hempty, hcanonical⟩

/-- Settles O3: by induction on the number of waiting commands, since every step takes one and keeps the canonical forms. -/
theorem everyQueueDrains : Obligations.EveryQueueDrains := fun s hs => runFor_drains s.pending.length s rfl hs

/-- Settles O4: the frame of each row's meaning. -/
theorem commandsWriteTheirFieldsOnly : Obligations.CommandsWriteTheirFieldsOnly := by
  intro c s t h
  obtain ⟨honly, -⟩ := kept_of_exec h
  exact honly

/-- Settles O5: no row's meaning answers a fault or a refusal. -/
theorem noCommandStops : Obligations.NoCommandStops := exec_goes_on

/-- Settles O6: what waits after a step waited before it. -/
theorem stepTakesOneCommand : Obligations.StepTakesOneCommand := by
  refine fun s t h => ⟨pending_of_steps h, fun hwf c hc => hwf c ?_⟩
  rw [pending_of_steps h] at hc
  exact List.mem_of_mem_tail hc

/-- Settles O1: by what waits. -/
theorem stepRunsFrontCommand : Obligations.StepRunsFrontCommand := ⟨fun _ _ _ => step_of_cons rfl, fun _ => step_of_nil⟩

end Sys2Proof.Proofs
end

section
/-! The host's queues: the checks of a queued command, the doorbells, and what enables and disables a queue (R355, R388 to R391, R396, R454). -/

namespace Sys2Proof.Proofs

open Sys2Proof Sys2Proof.Machine Sys2Proof.Safety Sys2Proof.Laws

variable {s : State} {c : Cmd} {q : Nat}

/-! ### The checks of a queued command (R355, R389, R396, R454) -/

theorem gate_tenantQueue (hq : c.issuer = .queue q) (ht : q < 4096) (kind : QueueKind) (free : Bool) : s.gate c kind free =
    if !s.on (Fld.TN_CTRL_EN (q / 16)) && !free then some CS.notReady
    else if !s.portAllowed (q / 16) (s.io.queuePort q) then some CS.notOwner
    else if kind = .mgmt then some CS.badCommand
    else if c.flags.toNat / 2 ≠ 0 then some CS.badCommand
    else none := by
  simp only [State.gate, hq, queueTenant, if_pos ht]

theorem gate_mgmtQueue (hq : c.issuer = .queue q) (hm : 4096 ≤ q) (kind : QueueKind) (free : Bool) : s.gate c kind free =
    if kind = .tenant then some CS.badCommand
    else if c.flags.toNat / 2 ≠ 0 then some CS.badCommand
    else none := by
  simp only [State.gate, hq, queueTenant, if_neg (Nat.not_lt.mpr hm)]

/-- TN_CTRL.EN lets a command of the tenant's queue go on. -/
theorem tenantOff_false {t : Nat} {free : Bool} (h : s.get (Fld.TN_CTRL_EN t) = 1 ∨ free = true) :
    (!s.on (Fld.TN_CTRL_EN t) && !free) = false := by
  obtain h | rfl := h
  · rw [on_of_one h]; rfl
  · exact Bool.and_false _

/-- A command that names a port its confidential tenant does not list is turned away with EV_SEC_CONF_REFUSED (R454). -/
theorem runCmd_portRefused {kind : QueueKind} {free : Bool} {body : State → State} (hq : c.issuer = .queue q) (ht : q < 4096)
    (hw : s.fenceWaits c = false) (g : s.gate c kind free = some CS.notOwner) : s.runCmd c kind free body =
      (s.raise { code := 0x0C06, tenant := some (q / 16), subject := s.io.queuePort q }).complete c CS.notOwner := by
  simp [State.runCmd, hw, g, State.turnAway, State.issuerTenant, hq, queueTenant, ht, State.complete]

/-- Settles O8: a queue's command by the first check of its kind of queue that it fails. -/
theorem queueChecksInOrder : Obligations.QueueChecksInOrder := by
  intro c kind free body s q hq
  have reserved : c.flags.toNat / 2 ≠ 0 ↔ 2 ≤ c.flags.toNat := by omega
  refine ⟨runCmd_waits, fun hw ht hen hfree => runCmd_refuses hw ?disabled (by decide),
    fun hw ht hen hport => runCmd_portRefused hq ht hw ?port, fun hw ht hen hport hbad => runCmd_refuses hw ?tenantBad (by decide),
    fun hw ht hen hport hkind hflags => runCmd_accepts hw ?tenantGood, fun hw hm hbad => runCmd_refuses hw ?mgmtBad (by decide),
    fun hw hm hkind hflags => runCmd_accepts hw ?mgmtGood⟩
  case disabled => rw [gate_tenantQueue hq ht, on_of_zero hen, hfree]; rfl
  case port => simp [gate_tenantQueue hq ht, tenantOff_false hen, hport]
  case tenantBad =>
    obtain hbad | hbad := hbad <;> simp [gate_tenantQueue hq ht, tenantOff_false hen, hport, reserved, hbad]
  case tenantGood => simp [gate_tenantQueue hq ht, tenantOff_false hen, hport, hkind, reserved, hflags]
  case mgmtBad =>
    obtain hbad | hbad := hbad <;> simp [gate_mgmtQueue hq hm, reserved, hbad]
  case mgmtGood => simp [gate_mgmtQueue hq hm, hkind, reserved, hflags]

/-! ### Doorbells (R391) -/

variable {port value : Nat}

theorem sqTailDoorbell_denied (hport : s.ideBlocked port = false) (h : s.doorbellOk port q = false) :
    exec (.sqTailDoorbell port q value) s = .next (s.deny port) :=
  congrArg next ((if_neg (by simp [hport])).trans (if_pos (by simp [h])))

theorem sqTailDoorbell_reaches (hport : s.ideBlocked port = false) (h : s.doorbellOk port q = true) :
    exec (.sqTailDoorbell port q value) s =
      .next (if 2 ^ s.get (qSqLog2 q) ≤ value % 65536 then s.queueError q 0 0 else s.put (qSqTail q) (value % 65536)) :=
  congrArg next ((if_neg (by simp [hport])).trans (if_neg (by simp [h])))

theorem cqHeadDoorbell_denied (hport : s.ideBlocked port = false) (h : s.doorbellOk port q = false) :
    exec (.cqHeadDoorbell port q value) s = .next (s.deny port) :=
  congrArg next ((if_neg (by simp [hport])).trans (if_pos (by simp [h])))

/-- How far round the completion ring of queue `q` entry `e` lies from the head. -/
def fromHead (s : State) (q e : Nat) : Nat := (e + 2 ^ s.get (qCqLog2 q) - s.get (qCqHead q)) % 2 ^ s.get (qCqLog2 q)

/-- An entry is in the completion ring, from the head to the tail. -/
def Consumable (s : State) (q e : Nat) : Prop := e < 2 ^ s.get (qCqLog2 q) ∧ fromHead s q e ≤ fromHead s q (s.get (qCqTail q))

theorem cqHeadDoorbell_moves (hport : s.ideBlocked port = false) (h : s.doorbellOk port q = true) (hv : Consumable s q (value % 65536)) :
    exec (.cqHeadDoorbell port q value) s = .next { s with io := (s.io.put (qCqHead q) (value % 65536)).setQueue q { s.io.queue q with
      records := (s.io.queue q).records.filter (fun r => decide (fromHead s q (value % 65536) ≤ fromHead s q r.1)) } } :=
  congrArg next ((if_neg (by simp [hport])).trans ((if_neg (by simp [h])).trans (if_pos hv)))

theorem cqHeadDoorbell_bad (hport : s.ideBlocked port = false) (h : s.doorbellOk port q = true) (hv : ¬ Consumable s q (value % 65536)) :
    exec (.cqHeadDoorbell port q value) s =
      .next (s.raise { code := 0x0F05, tenant := queueTenant q, subject := port, detail := [q] }) :=
  congrArg next ((if_neg (by simp [hport])).trans ((if_neg (by simp [h])).trans (if_neg hv)))

/-- Settles O12: a doorbell by whether it reaches its queue, and its value by the ring. -/
theorem queueDoorbells : Obligations.QueueDoorbells := by
  refine fun port q value s hport => ⟨fun h hv => ?_, fun h hv => ?_, fun h hv hle => ?_, fun h hv => cqHeadDoorbell_bad hport h ?_,
    fun h => ⟨sqTailDoorbell_denied hport h, cqHeadDoorbell_denied hport h⟩⟩
  · rw [sqTailDoorbell_reaches hport h, if_neg (Nat.not_le.mpr hv)]
  · rw [sqTailDoorbell_reaches hport h, if_pos hv]
  · refine ⟨_, cqHeadDoorbell_moves hport h ⟨hv, hle⟩, (get_put_same _ (qCqHead q) _ (by simp [qCqHead])).trans (Nat.mod_mod _ _), ?_, ?_⟩
    · exact congrArg QueueX.records (setQueue_queue_same _ _ _)
    · simp
  · rintro ⟨hin, hle⟩
    obtain hout | hpast := hv
    · exact absurd hin (Nat.not_lt.mpr hout)
    · exact absurd hle (Nat.not_le.mpr hpast)

variable {w : RegWrite}

/-! ### Enabling and disabling a queue (R388, R390) -/

/-- The register file and queue `q` when it starts afresh on a port: its indices and its count of completions are 0, no command is in progress, no
record stands in its ring. -/
def startQueue (q irq port : Nat) (io : Io) : Io :=
  ((((((((io.setReg (queueBase q + 0x20) 0).setReg (queueBase q + 0x48) 0).put (qEn q) 1).put (qIrqEn q) irq).put (qPhase q) 1).put (qError q) 0).put
    (qIdle q) 0).put (qPort q) port).setQueue q { session := (io.queue q).session + 1 }

theorem startQueue_control (q irq port : Nat) (io : Io) :
    (startQueue q irq port io).get (qEn q) = 1 ∧ (startQueue q irq port io).get (qIrqEn q) = irq % 2 ∧ (startQueue q irq port io).get (qPhase q) = 1 ∧
      (startQueue q irq port io).get (qError q) = 0 ∧ (startQueue q irq port io).get (qIdle q) = 0 ∧
      (startQueue q irq port io).get (qPort q) = port % 4 := by
  simp [startQueue, get_put_same, get_put_other, qEn, qIrqEn, qPhase, qError, qIdle, qPort]

theorem startQueue_reg {off : Nat} (h : off ≠ queueBase q + 0x18) (irq port : Nat) (io : Io) :
    (startQueue q irq port io).reg off = ((io.setReg (queueBase q + 0x20) 0).setReg (queueBase q + 0x48) 0).reg off := by
  simp [startQueue, reg_put_other, qEn, qIrqEn, qPhase, qError, qIdle, qPort, h]

/-- Every field of the register of indices, and of the count of completions, is 0. -/
theorem startQueue_get_zero {f : RegField} (h : f.off = queueBase q + 0x20 ∨ f.off = queueBase q + 0x48) (irq port : Nat) (io : Io) :
    (startQueue q irq port io).get f = 0 := by
  have hreg : (startQueue q irq port io).reg f.off = 0 := by
    obtain h | h := h
    · rw [startQueue_reg (by omega), reg_setReg_other _ _ _ _ (by omega), h, reg_setReg_same]
    · rw [startQueue_reg (by omega), h, reg_setReg_same]
  simp [Io.get, hreg, fieldGet]

/-- The value that a write of Q_CTRL offers. -/
def qCtrlValue (s : State) (w : RegWrite) (q : Nat) : Word := blend (s.reg (queueBase q + 0x18)) (writeBits w) (writeMask w)

/-- Queue `q` may be enabled: its bases are aligned, its rings have a size, and no command of it remains. -/
def QueueReady (s : State) (q : Nat) : Prop :=
  s.get (qSqBase q) % 4096 = 0 ∧ s.get (qCqBase q) % 4096 = 0 ∧ 4 ≤ s.get (qSqLog2 q) ∧ s.get (qSqLog2 q) ≤ 16 ∧
    4 ≤ s.get (qCqLog2 q) ∧ s.get (qCqLog2 q) ≤ 16 ∧ s.get (qIdle q) = 1

/-- Port `p` may own queue `q` (R386, R389, R454). -/
def PortOwns (s : State) (p q : Nat) : Prop :=
  (q < 4096 ∧ s.bound p (q / 16) = true ∧ s.portAllowed (q / 16) p = true) ∨
    (4096 ≤ q ∧ q - 4096 = p ∧ s.portMgmt p = true ∧ (s.get Fld.BU_STATE_STATE = 6 ∨ s.get Fld.BU_STATE_STATE = 7))

/-- The checks of a write that would set EN, as the model makes them. -/
theorem enableChecks_iff {p : Nat} : (decide (s.get (qSqBase q) % 4096 = 0) && decide (s.get (qCqBase q) % 4096 = 0) &&
    (decide (4 ≤ s.get (qSqLog2 q)) && decide (s.get (qSqLog2 q) ≤ 16)) && (decide (4 ≤ s.get (qCqLog2 q)) && decide (s.get (qCqLog2 q) ≤ 16)) &&
    decide (s.get (qIdle q) = 1) && (match queueTenant q with
      | some t => s.bound p t && s.portAllowed t p
      | none => decide (q - 4096 = p) && s.portMgmt p && decide (s.get Fld.BU_STATE_STATE = 6 ∨ s.get Fld.BU_STATE_STATE = 7))) = true ↔
    QueueReady s q ∧ PortOwns s p q := by
  by_cases h : q < 4096
  · simp [queueTenant, QueueReady, PortOwns, h, and_assoc, Nat.not_le.mpr h]
  · simp [queueTenant, QueueReady, PortOwns, h, and_assoc, Nat.le_of_not_lt h]

theorem qCtrlWrite_enables (hq : q < 4100) (h : MayWrite s w (queueBase q + 0x18)) (hen : fieldGet (qCtrlValue s w q) 0 1 = 1)
    (hwas : s.get (qEn q) = 0) (hready : QueueReady s q) (howns : PortOwns s w.port q) : exec (.qCtrlWrite w q) s =
      .next { s with io := startQueue q (fieldGet (qCtrlValue s w q) 1 1) w.port s.io } := by
  refine congrArg next ((if_pos hq).trans ?_)
  unfold State.writeQCtrl
  exact (fromPort_may h).trans ((if_pos ⟨hen, hwas⟩).trans (if_pos (enableChecks_iff.mpr ⟨hready, howns⟩)))

theorem qCtrlWrite_keeps (hq : q < 4100) (h : MayWrite s w (queueBase q + 0x18)) (hen : fieldGet (qCtrlValue s w q) 0 1 = 1)
    (hwas : s.get (qEn q) = 0) (hbad : ¬ (QueueReady s q ∧ PortOwns s w.port q)) : exec (.qCtrlWrite w q) s = .next s := by
  refine congrArg next ((if_pos hq).trans ?_)
  unfold State.writeQCtrl
  exact (fromPort_may h).trans ((if_pos ⟨hen, hwas⟩).trans (if_neg (mt enableChecks_iff.mp hbad)))

theorem qCtrlWrite_disables (hq : q < 4100) (h : MayWrite s w (queueBase q + 0x18)) (hen : fieldGet (qCtrlValue s w q) 0 1 = 0)
    (hwas : s.get (qEn q) = 1) : exec (.qCtrlWrite w q) s =
      .next { s with io := (s.io.put (qIrqEn q) (fieldGet (qCtrlValue s w q) 1 1)).stopQueue q } := by
  refine congrArg next ((if_pos hq).trans ?_)
  unfold State.writeQCtrl
  exact (fromPort_may h).trans ((if_neg (by rintro ⟨-, hwas'⟩; omega)).trans (if_pos ⟨hen, hwas⟩))

theorem stopQueue_idle {io : Io} (h : (io.queue q).inProgress = []) : io.stopQueue q = (io.put (qEn q) 0).put (qIdle q) 1 :=
  if_pos (by simp [h])

theorem stopQueue_busy {io : Io} (h : (io.queue q).inProgress ≠ []) : io.stopQueue q = io.put (qEn q) 0 :=
  if_neg (by simpa using h)

/-- A one-bit field of a word is below 2. -/
theorem fieldGet_bit_mod (v : Word) (lo : Nat) : fieldGet v lo 1 % 2 = fieldGet v lo 1 := Nat.mod_eq_of_lt (v.extractLsb' lo 1).isLt

/-- Settles O13: a write of Q_CTRL by what it asks of EN and what the queue and its port allow, QUEUE_IDLE by what is in progress. -/
theorem queueEnableAndIdle : Obligations.QueueEnableAndIdle := by
  refine fun w q s hq hmay => ⟨fun hen hwas hready howns => ?enabled, fun hen hwas hbad => qCtrlWrite_keeps hq hmay hen hwas hbad,
    fun hen hwas hnone => ?drained, fun hen hwas hsome => ?draining, fun hoff hnone => congrArg next (if_pos (by simp [hoff, hnone]))⟩
  case enabled =>
    obtain ⟨en, irq, phase, error, idle, port⟩ := startQueue_control q (fieldGet (qCtrlValue s w q) 1 1) w.port s.io
    refine ⟨_, qCtrlWrite_enables hq hmay hen hwas hready howns, en, irq.trans (fieldGet_bit_mod _ _), phase, error, idle, port,
      startQueue_get_zero (.inl rfl) _ _ _, startQueue_get_zero (.inl rfl) _ _ _, startQueue_get_zero (.inl rfl) _ _ _,
      startQueue_get_zero (.inl rfl) _ _ _, startQueue_get_zero (.inr rfl) _ _ _, ?_, ?_, fun off hctrl hindex hdone => ?_⟩
    · exact congrArg QueueX.inProgress (setQueue_queue_same _ _ _)
    · exact congrArg QueueX.records (setQueue_queue_same _ _ _)
    · refine (startQueue_reg hctrl _ _ _).trans ?_
      rw [reg_setReg_other _ _ _ _ hdone, reg_setReg_other _ _ _ _ hindex]
      rfl
  case drained =>
    have hwrite := qCtrlWrite_disables hq hmay hen hwas
    rw [stopQueue_idle (io := s.io.put (qIrqEn q) _) hnone] at hwrite
    refine ⟨_, hwrite, ?_, ?_, ?_, fun off hoff => ?_⟩
    · simp [State.get, get_put_same, get_put_other, qEn, qIdle]
    · simp [State.get, get_put_same, qIdle]
    · simp [State.get, get_put_same, get_put_other, qEn, qIdle, qIrqEn, fieldGet_bit_mod, qCtrlValue]
    · simp [State.reg, reg_put_other, qEn, qIdle, qIrqEn, hoff]
  case draining =>
    have hwrite := qCtrlWrite_disables hq hmay hen hwas
    rw [stopQueue_busy (io := s.io.put (qIrqEn q) _) hsome] at hwrite
    refine ⟨_, hwrite, ?_, ?_, fun off hoff => ?_⟩
    · simp [State.get, get_put_same, qEn]
    · simp [State.get, get_put_other, qEn, qIdle, qIrqEn]
    · simp [State.reg, reg_put_other, qEn, qIrqEn, hoff]

end Sys2Proof.Proofs
end

section
/-! Commands fetched and completed: a port's next queue, the room kept for records, and the first completion record (R392 to R395, R401, R402, R405). -/

namespace Sys2Proof.Proofs

open Sys2Proof Sys2Proof.Machine Sys2Proof.Safety Sys2Proof.Laws

variable {s : State} {q : Nat} {port : Nat}

/-! ### Fetching, and the coalescing timer (R392 to R395, R405) -/

/-- A port fetches: its link is up, no fatal event is latched, and its requests are answered. -/
def PortFetches (s : State) (port : Nat) : Prop := s.io.portUp port = true ∧ s.io.fatal = false ∧ s.ideBlocked port = false

/-- The state in which queue `q` was the last one served on its port. -/
def served (s : State) (port q : Nat) : State := { s with io := { s.io with turn := sparsePut 0 port (q + 1) s.io.turn } }

theorem served_turn (s : State) (port q : Nat) : sparseGet 0 (served s port q).io.turn port = q + 1 :=
  sparseGet_put_same 0 port (q + 1) s.io.turn

theorem commandFetch_next (h : PortFetches s port) (b : Option (List Byte)) : exec (.commandFetch port b) s =
    .next (match s.io.nextQueue port with
      | none => s
      | some q => match b with
        | none => (served s port q).queueError q 1 0
        | some b => (served s port q).fetch q b) := by
  obtain ⟨hup, hfatal, hide⟩ := h
  exact congrArg next (if_neg (by simp [hup, hfatal, hide]))

/-- The room that a command takes in the completion ring: two records for a long operation's (R393). -/
def recordsOf (b : List Byte) : Nat := if longOpcodes.contains (recGet b 0 1) then 2 else 1

/-- A fetched command of an allowed opcode stands last in progress, with room kept for its records, and the head moves on. -/
theorem fetch_allowed {b : List Byte} (h : (if q < 4096 then tenantOpcodes else mgmtOpcodes).contains (recGet b 0 1) = true) :
    s.fetch q b = { s with io := (s.io.setQueue q { s.io.queue q with
      inProgress := (s.io.queue q).inProgress ++ [commandOf q b]
      longs := if longOpcodes.contains (recGet b 0 1) then (s.io.queue q).longs ++ [commandOf q b] else (s.io.queue q).longs
      reserved := (s.io.queue q).reserved + recordsOf b }).put (qSqHead q) ((s.get (qSqHead q) + 1) % 2 ^ s.get (qSqLog2 q)) } :=
  if_pos h

/-- A request that a host port issues is sent. -/
theorem emit_request {io : Io} {o : Out} {p : Nat × Bool} (ho : o.request = some p) (hf : io.fatal = false) (hs : io.noStream p.1 = false) :
    io.emit o = { io with out := o :: io.out } := by
  simp [Io.emit, hf, ho, hs]

/-- COAL_US has passed since a queue's first record not signalled. -/
def CoalesceDue (s : State) (q : Nat) : Prop :=
  s.get (qIrqEn q) = 1 ∧ (s.io.queue q).unsignalled ≠ 0 ∧ (s.io.queue q).firstUnsignalled + 1000 * s.get (qCoalUs q) ≤ s.now

theorem msixCoalesceExpiry_signals (h : CoalesceDue s q) : exec (.msixCoalesceExpiry q) s =
    .next { s with io := (s.io.emit (.msix (s.io.queuePort q) (s.get (qVector q)))).setQueue q { s.io.queue q with unsignalled := 0 } } := by
  obtain ⟨hirq, hsome, hdue⟩ := h
  exact congrArg next (if_pos (by simp [hirq, hsome, hdue]))

/-- Settles O14: a fetch by the queue whose turn it is and what the bus answers. -/
theorem commandsFetchedInTurn : Obligations.CommandsFetchedInTurn := by
  intro port q s hup hfatal hide
  have hport : PortFetches s port := ⟨hup, hfatal, hide⟩
  refine ⟨fun hnone b => ?none, fun hnext => ⟨?fails, fun b hallowed => ?fetched⟩, fun hstream hirq hsome hdue => ?signals⟩
  case none => rw [commandFetch_next hport, hnone]
  case fails => rw [commandFetch_next hport, hnext]; rfl
  case fetched =>
    have hfetch := commandFetch_next hport (some b)
    rw [hnext] at hfetch
    refine ⟨_, hfetch.trans (congrArg next (fetch_allowed hallowed)), ?_, ?_, ?_, ?_⟩
    · exact congrArg QueueX.inProgress (setQueue_queue_same _ _ _)
    · exact congrArg QueueX.reserved (setQueue_queue_same _ _ _)
    · exact get_put_same _ (qSqHead q) _ (by simp [qSqHead])
    · exact served_turn s port q
  case signals =>
    have hsignal := msixCoalesceExpiry_signals ⟨hirq, hsome, hdue⟩
    rw [emit_request (o := .msix (s.io.queuePort q) (s.get (qVector q))) rfl hfatal hstream] at hsignal
    refine ⟨_, hsignal, rfl, ?_, rfl⟩
    exact congrArg QueueX.unsignalled (setQueue_queue_same _ _ _)

/-! ### A first completion record (R401, R402) -/

variable {io : Io}

/-- What a record written at `tail` in phase `phase` changes of its queue's registers and tables: the count of completions and the tail move on, and
the phase turns at the wrap. -/
def recordWritten (q tail phase : Nat) (x : QueueX) (io : Io) : Io :=
  let u := (io.setQueue q x).bump (qDone q) 1
  let nextTail := (tail + 1) % 2 ^ u.get (qCqLog2 q)
  if nextTail = 0 then (u.put (qCqTail q) nextTail).put (qPhase q) (1 - phase) else u.put (qCqTail q) nextTail

section recordWritten

variable (q tail phase : Nat) (x : QueueX) (io : Io)

/-- The tail and the phase by the size of the ring before the record. -/
theorem recordWritten_eq : recordWritten q tail phase x io =
    if (tail + 1) % 2 ^ io.get (qCqLog2 q) = 0 then
      (((io.setQueue q x).bump (qDone q) 1).put (qCqTail q) ((tail + 1) % 2 ^ io.get (qCqLog2 q))).put (qPhase q) (1 - phase)
    else ((io.setQueue q x).bump (qDone q) 1).put (qCqTail q) ((tail + 1) % 2 ^ io.get (qCqLog2 q)) := by
  have hsize : ((io.setQueue q x).bump (qDone q) 1).get (qCqLog2 q) = io.get (qCqLog2 q) :=
    get_bump_other _ _ _ _ (.inl (by simp [qCqLog2, qDone]))
  simp only [recordWritten, hsize]

theorem recordWritten_out : (recordWritten q tail phase x io).out = io.out := by
  rw [recordWritten_eq]; split <;> rfl

theorem recordWritten_queue : (recordWritten q tail phase x io).queue q = x := by
  rw [recordWritten_eq]; split <;> simp

theorem recordWritten_reg {off : Nat} (hctrl : off ≠ queueBase q + 0x18) (hindex : off ≠ queueBase q + 0x20) (hdone : off ≠ queueBase q + 0x48) :
    (recordWritten q tail phase x io).reg off = io.reg off := by
  rw [recordWritten_eq]; split <;> simp [reg_put_other, reg_bump_other, qPhase, qCqTail, qDone, *]

theorem recordWritten_done : (recordWritten q tail phase x io).get (qDone q) = (io.get (qDone q) + 1) % 2 ^ 64 := by
  rw [recordWritten_eq]; split <;> simp [get_put_other, get_bump_same, qPhase, qCqTail, qDone]

theorem recordWritten_tail :
    (recordWritten q tail phase x io).get (qCqTail q) = (tail + 1) % 2 ^ io.get (qCqLog2 q) % 65536 := by
  rw [recordWritten_eq]; split <;> simp [get_put_other, get_put_same, qPhase, qCqTail]

theorem recordWritten_phase : (recordWritten q tail phase x io).get (qPhase q) =
    if (tail + 1) % 2 ^ io.get (qCqLog2 q) = 0 then 1 - phase else io.get (qPhase q) := by
  have hbit : (1 - phase) % 2 = 1 - phase := by omega
  rw [recordWritten_eq]; split <;> simp [get_put_other, get_put_same, get_bump_other, qPhase, qCqTail, qDone, hbit]

end recordWritten

/-- A record, and after it perhaps an interrupt, sent by a port that may send. -/
theorem emit_record_interrupt {p : Nat} (hf : io.fatal = false) (hs : io.noStream p = false) (interrupt : Bool) (a v : Nat) (b : List Byte) :
    ∃ out, .hostWrite p a b ∈ out ∧ (if interrupt then (io.emit (.hostWrite p a b)).emit (.msix p v) else io.emit (.hostWrite p a b)) =
      { io with out := out } := by
  have hrecord : io.emit (.hostWrite p a b) = { io with out := .hostWrite p a b :: io.out } := emit_request rfl hf hs
  cases interrupt with
  | false => exact ⟨_, List.mem_cons_self, hrecord⟩
  | true =>
    refine ⟨.msix p v :: .hostWrite p a b :: io.out, by simp, ?_⟩
    rw [if_pos rfl, hrecord]
    exact emit_request rfl hf hs

/-- A record written on a queue whose port may send: the record is among what is sent, and none of the queue's commands changes. -/
theorem writeRecord_sent (hf : io.fatal = false) (hs : io.noStream (io.queuePort q) = false) (c : Cmd) (status endBit r0 r1 r2 now : Nat) :
    ∃ out x, .hostWrite (io.queuePort q) (io.get (qCqBase q) + 32 * io.get (qCqTail q))
        (bytesOf 32 (recordOf c status (io.get (qPhase q)) endBit r0 r1 r2)) ∈ out ∧ x.inProgress = (io.queue q).inProgress ∧
      io.writeRecord q c status endBit r0 r1 r2 now = recordWritten q (io.get (qCqTail q)) (io.get (qPhase q)) x { io with out := out } := by
  obtain ⟨out, hin, hsent⟩ := emit_record_interrupt hf hs _ _ _ _
  refine ⟨out, _, hin, ?_, congrArg (recordWritten q (io.get (qCqTail q)) (io.get (qPhase q)) _) hsent⟩
  simp

/-- A command of the queue completes while no fatal event is latched and it is not detached: it leaves the queue, and its record is written. -/
theorem completeQueue_writes {c : Cmd} (hf : io.fatal = false) (hd : io.detached.find? (fun d => d.2 = coreOf c) = none)
    (htakes : (io.queue q).inProgress.contains (coreOf c) = true ∨ io.get (qEn q) = 1) (release : Bool) (status r0 r1 r2 now : Nat) :
    ∃ x : QueueX, x.inProgress = (io.queue q).inProgress.erase (coreOf c) ∧
      io.completeQueue q c release status r0 r1 r2 now = (io.setQueue q x).writeRecord q c status 0 r0 r1 r2 now := by
  unfold Io.completeQueue
  rw [hf, hd]
  have hboth : ((io.queue q).inProgress.contains (coreOf c) || decide (io.get (qEn q) = 1)) = true := by simpa using htakes
  exact ⟨_, by rfl, if_pos hboth⟩

/-- Settles O15: the record is written on the queue without the command, and the tail, the phase and the count move on. -/
theorem recordsWrittenWithPhase : Obligations.RecordsWrittenWithPhase := by
  intro q c release status r0 r1 r2 now io hf hs hd htakes
  obtain ⟨x, hleft, hwrites⟩ := completeQueue_writes hf hd htakes release status r0 r1 r2 now
  obtain ⟨out, y, hin, hkept, hwritten⟩ := writeRecord_sent (io := io.setQueue q x) hf hs c status 0 r0 r1 r2 now
  rw [hwrites, hwritten]
  refine ⟨?_, fun hnext => ?_, ?_, recordWritten_done q _ _ y _, ?_, fun off => recordWritten_reg q _ _ y _⟩
  · rw [recordWritten_out]
    exact hin
  · rw [recordWritten_tail]
    exact Nat.mod_eq_of_lt hnext
  · rw [recordWritten_phase]
    rfl
  · rw [recordWritten_queue, hkept, setQueue_queue_same, hleft]

end Sys2Proof.Proofs
end

section
/-! Tier 1 from the host: TIER1_ALLOC, TIER1_FREE, TIER1_WRITE and TIER1_READ (R399, R400). -/

namespace Sys2Proof.Proofs

open Sys2Proof Sys2Proof.Machine Sys2Proof.Safety Sys2Proof.Laws

variable {s : State} {c : Cmd}

/-- The tenant in whose name a command moves memory. -/
abbrev memTenant (s : State) (c : Cmd) : Nat := (s.issuerTenant c.issuer).getD 0

/-! ### TIER1_ALLOC (R399, R47) -/

theorem tier1Alloc_stopped (ha : AcceptedHeld s c .tenant false) (hstop : s.allocStopped = true) : exec (.tier1Alloc c) s = .next s :=
  congrArg next ((runHeld_accepts ha).trans (if_pos hstop))

theorem tier1Alloc_badCount (ha : AcceptedHeld s c .tenant false) (hstop : s.allocStopped = false)
    (hn : opU32 c 36 = 0 ∨ channelGranules < opU32 c 36) : exec (.tier1Alloc c) s = .next (s.complete c CS.badCommand) :=
  congrArg next ((runHeld_accepts ha).trans ((if_neg (by simp [hstop])).trans (if_pos hn)))

/-- Allocation is not stopped, and the count of granules asked for is one a channel may hold. -/
def AllocationOpen (s : State) (c : Cmd) : Prop := s.allocStopped = false ∧ 0 < opU32 c 36 ∧ opU32 c 36 ≤ channelGranules

theorem tier1Alloc_noModel (ha : AcceptedHeld s c .tenant false) (ho : AllocationOpen s c) (hmodel : (opByte c 33).testBit 0 = true)
    (hen : s.get (Fld.TN_CTRL_MODEL_EN (memTenant s c)) = 0) : exec (.tier1Alloc c) s = .next (s.complete c CS.badCommand) := by
  obtain ⟨hstop, hpos, hmax⟩ := ho
  refine congrArg next ((runHeld_accepts ha).trans ((if_neg (by simp [hstop])).trans ((if_neg (by omega)).trans (if_pos ?_))))
  simp [hmodel, on_of_zero hen]

/-- The owner of the granules: the tenant's own domain, or its model domain where FLAGS asks for it. -/
def allocOwner (s : State) (c : Cmd) : Owner :=
  .tenant (memTenant s c) (if (opByte c 33).testBit 0 then some (s.get (Fld.TN_CTRL_MODEL (memTenant s c))) else none)

/-- Hive `h` is the one TIER1_ALLOC takes the granules from: the roomiest of the partition, or the one it names. -/
def AllocatesOn (s : State) (c : Cmd) (h : Nat) : Prop :=
  opByte c 32 = 0xFF ∧ s.roomiest (s.partitionHive (memTenant s c)) = some h ∨
    opByte c 32 = h ∧ h < 16 ∧ s.partitionHive (memTenant s c) h = true

/-- The Hive, as the model finds it. -/
theorem hive_of_allocatesOn {h : Nat} (hh : AllocatesOn s c h) :
    (if opByte c 32 = 0xFF then s.roomiest (s.partitionHive (memTenant s c))
      else if opByte c 32 < 16 ∧ s.partitionHive (memTenant s c) (opByte c 32) then some (opByte c 32) else none) = some h := by
  obtain ⟨hany, hroom⟩ | ⟨rfl, hlt, hin⟩ := hh
  · rw [if_pos hany, hroom]
  · rw [if_neg (by omega), if_pos ⟨hlt, hin⟩]

/-- An allocation on a Hive answers the run's address, or that there is no room. -/
theorem tier1Alloc_on {h : Nat} (ha : AcceptedHeld s c .tenant false) (ho : AllocationOpen s c)
    (hmodel : (opByte c 33).testBit 0 = true → s.get (Fld.TN_CTRL_MODEL_EN (memTenant s c)) = 1) (hh : AllocatesOn s c h) :
    exec (.tier1Alloc c) s = .next ((s.alloc h (opU32 c 36) 1 (allocOwner s c)).elim (s.complete c CS.noResource)
      (fun r => r.2.complete c CS.ok (4096 * r.1))) := by
  obtain ⟨hstop, hpos, hmax⟩ := ho
  have hallowed : ((opByte c 33).testBit 0 && !s.on (Fld.TN_CTRL_MODEL_EN (memTenant s c))) = false := by
    cases hm : (opByte c 33).testBit 0 with
    | false => rfl
    | true => rw [on_of_one (hmodel hm)]; rfl
  refine congrArg next ((runHeld_accepts ha).trans ((if_neg (by simp [hstop])).trans ((if_neg (by omega)).trans
    ((if_neg (by rw [hallowed]; decide)).trans ?_))))
  simp only [hive_of_allocatesOn hh, allocOwner]
  cases s.alloc h (opU32 c 36) 1 (.tenant (memTenant s c) _) <;> rfl

theorem tier1Alloc_room {h g : Nat} {u : State} {o : Owner} (ha : AcceptedHeld s c .tenant false) (ho : AllocationOpen s c)
    (hmodel : (opByte c 33).testBit 0 = true → s.get (Fld.TN_CTRL_MODEL_EN (memTenant s c)) = 1) (hh : AllocatesOn s c h)
    (howner : allocOwner s c = o) (hroom : s.alloc h (opU32 c 36) 1 o = some (g, u)) :
    exec (.tier1Alloc c) s = .next (u.complete c CS.ok (4096 * g)) := by
  rw [tier1Alloc_on ha ho hmodel hh, howner, hroom]; rfl

theorem tier1Alloc_full {h : Nat} {o : Owner} (ha : AcceptedHeld s c .tenant false) (ho : AllocationOpen s c)
    (hmodel : (opByte c 33).testBit 0 = true → s.get (Fld.TN_CTRL_MODEL_EN (memTenant s c)) = 1) (hh : AllocatesOn s c h)
    (howner : allocOwner s c = o) (hfull : s.alloc h (opU32 c 36) 1 o = none) :
    exec (.tier1Alloc c) s = .next (s.complete c CS.noResource) := by
  rw [tier1Alloc_on ha ho hmodel hh, howner, hfull]; rfl

/-! ### TIER1_FREE (R399) -/

/-- The granules that TIER1_FREE names are aligned, the tenant's, and of no mirror pair. -/
structure Freeable (s : State) (c : Cmd) : Prop where
  aligned : c.addrA.toNat % 4096 = 0
  nonempty : 0 < opU32 c 36
  inside : s.addrOk c.addrA.toNat (4096 * opU32 c 36) = true
  owned : s.t1.allOwned (fun o => match o with | .tenant u _ => decide (u = memTenant s c) | _ => false) (c.addrA.toNat / 4096) (opU32 c 36) = true
  apart : s.overMirror c.addrA.toNat (4096 * opU32 c 36) true = false

theorem tier1Free_frees (ha : AcceptedHeld s c .tenant false) (h : Freeable s c) : exec (.tier1Free c) s =
    .next ((s.quarantine (c.addrA.toNat / 4096) (opU32 c 36)).complete c CS.ok) := by
  obtain ⟨haligned, hsome, hin, howned, hapart⟩ := h
  refine congrArg next ((runHeld_accepts ha).trans (if_neg ?_))
  simp only [Bool.or_eq_true, decide_eq_true_eq, not_or, Bool.not_eq_true, Bool.not_eq_false', Decidable.not_not]
  exact ⟨⟨⟨⟨haligned, Nat.ne_of_gt hsome⟩, hin⟩, howned⟩, hapart⟩

/-! ### TIER1_WRITE, TIER1_READ (R400) -/

theorem tier1Write_bad (ha : AcceptedHeld s c .tenant false)
    (h : transferOk c = false ∨ s.tenantOwns (memTenant s c) c.addrB.toNat (opU32 c 32) = false) :
    exec (.tier1Write c) s = .next (s.complete c CS.badCommand) := by
  refine congrArg next ((runHeld_accepts ha).trans (if_pos ?_))
  obtain h | h := h <;> simp [h]

theorem tier1Read_bad (ha : AcceptedHeld s c .tenant false)
    (h : transferOk c = false ∨ s.tenantOwns (memTenant s c) c.addrA.toNat (opU32 c 32) = false) :
    exec (.tier1Read c) s = .next (s.complete c CS.badCommand) := by
  refine congrArg next ((runHeld_accepts ha).trans (if_pos ?_))
  obtain h | h := h <;> simp [h]

/-- A transfer into the tenant's own memory, apart from mirrors, that the bus does not stop, moves all its bytes. -/
theorem tier1Write_writes (ha : AcceptedHeld s c .tenant false) (hok : transferOk c = true)
    (howns : s.tenantOwns (memTenant s c) c.addrB.toNat (opU32 c 32) = true) (hapart : s.overMirror c.addrB.toNat (opU32 c 32) false = false)
    (hstays : s.isDetached c = false) (hbus : c.busFail = none) : exec (.tier1Write c) s =
      .next ((s.writeT1 (memTenant s c) c.addrB.toNat (tabulate (opU32 c 32) (fun i => c.data.getD i 0))).complete c CS.ok (opU32 c 32)) := by
  show next (s.runHeld c _ _ _) = _
  rw [runHeld_accepts ha]
  simp [hok, howns, hapart, hstays, hbus]

/-- A transfer is of at least one block. -/
theorem transferOk_pos (h : transferOk c = true) : opU32 c 32 ≠ 0 := by
  simp only [transferOk, Bool.and_eq_true, decide_eq_true_eq] at h
  omega

/-- TIER1_READ's `n` bytes are of tenant `t`, apart from mirrors and weights, and neither a block nor the bus stops them. -/
structure ReadsWhole (s : State) (c : Cmd) (t n : Nat) : Prop where
  length : opU32 c 32 = n
  transfer : transferOk c = true
  owns : s.tenantOwns t c.addrA.toNat n = true
  apart : s.overMirror c.addrA.toNat n false = false
  plain : s.overWeights c.addrA.toNat n = false
  bus : c.busFail = none
  good : s.goodPrefix t (blocksOf c.addrA.toNat n) = n

theorem tier1Read_reads {q t n : Nat} {u : State} (ha : AcceptedHeld s c .tenant false) (hq : c.issuer = .queue q) (ht : memTenant s c = t)
    (h : ReadsWhole s c t n) (hu : (s.afterRead t c.addrA.toNat n).checkPoison = u) (hstays : u.isDetached c = false) :
    exec (.tier1Read c) s = .next
      ((u.emit (.hostWrite (u.io.queuePort q) c.addrB.toNat (s.servedBytes t c.addrA.toNat n))).complete c CS.ok n) := by
  obtain ⟨rfl, hok, howns, hapart, hplain, hbus, hgood⟩ := h
  have hpos := transferOk_pos hok
  show next (s.runHeld c _ _ _) = _
  rw [runHeld_accepts ha]
  simp only [ht]
  simp [hok, howns, hapart, hplain, hbus, hgood, hu, hstays, hpos, hq]

/-- Settles O11: an allocation by its count, its domain and the room on its Hive, a free by the granules it names, and a transfer by its alignment, its
owner and what stops it. -/
theorem hostMemoryCommands : Obligations.HostMemoryCommands := by
  refine fun c s ha => ⟨fun h hh hlt hin hgo hpos hmax hown => ?own, fun hgo hpos hmax => ⟨fun hmodel hen => ?noModel, fun h hmodel hh => ?any⟩,
    fun hgo hn => tier1Alloc_badCount ha hgo hn, tier1Alloc_stopped ha,
    fun haligned hsome hin howned hapart => tier1Free_frees ha ⟨haligned, hsome, hin, howned, hapart⟩,
    fun hok howns hapart hstays hbus => tier1Write_writes ha hok howns hapart hstays hbus, tier1Write_bad ha,
    fun q n u hq hn hok howns hapart hplain hbus hgood hu hstays =>
      tier1Read_reads ha hq rfl ⟨hn, hok, howns, hapart, hplain, hbus, hgood⟩ hu hstays,
    tier1Read_bad ha⟩
  case own =>
    have howner : allocOwner s c = .tenant (memTenant s c) none := by simp [allocOwner, hown]
    have hmodel : (opByte c 33).testBit 0 = true → s.get (Fld.TN_CTRL_MODEL_EN (memTenant s c)) = 1 := fun hm => by simp [hown] at hm
    exact ⟨fun g u => tier1Alloc_room ha ⟨hgo, hpos, hmax⟩ hmodel (.inr ⟨hh, hlt, hin⟩) howner,
      tier1Alloc_full ha ⟨hgo, hpos, hmax⟩ hmodel (.inr ⟨hh, hlt, hin⟩) howner⟩
  case noModel => exact tier1Alloc_noModel ha ⟨hgo, hpos, hmax⟩ hmodel hen
  case any =>
    exact ⟨fun g u => tier1Alloc_room ha ⟨hgo, hpos, hmax⟩ hmodel hh rfl, tier1Alloc_full ha ⟨hgo, hpos, hmax⟩ hmodel hh rfl⟩

end Sys2Proof.Proofs
end

section
/-! The host ports: detach, training, resets, binding, and requests to host memory that time out (R382, R386, R387, R394, R400, R411 to R413). -/

namespace Sys2Proof.Proofs

open Sys2Proof Sys2Proof.Machine Sys2Proof.Safety Sys2Proof.Laws

variable {s : State} {c : Cmd} {n q : Nat}

/-! ### PORT_DETACH (R412) -/

theorem portDetach_bad (ha : Accepted s c .mgmt false) (hq : c.issuer = .queue q) (h : 4 ≤ opByte c 32 ∨ q - 4096 = opByte c 32) :
    exec (.portDetach c) s = .next (s.refuse c CS.badCommand) := by
  refine congrArg next ((runCmd_accepted ha).trans (if_pos ?_))
  obtain h | h := h <;> simp [hq, h]

/-- PORT_DETACH of another port starts its operation, and the operation's steps end it. -/
theorem portDetach_detaches (ha : Accepted s c .mgmt false) (hq : c.issuer = .queue q) (hother : q - 4096 ≠ n) (hn : opByte c 32 = n) (hlt : n < 4) :
    exec (.portDetach c) s = .next (s.beginOp c 0x0C [n] false (fun slot v =>
      (((((v.put (Fld.GC_PORT_STATE_LINK n) 3).detachPort n).clearBinding n).put (Fld.GC_PORT_STATE_LINK n) 0).raise
        { code := 0x0F03, subject := n }).endOp slot .done CS.ok)) := by
  subst hn
  refine congrArg next ((runCmd_accepted ha).trans (if_neg ?_))
  simp [hq, hother, hlt]

/-- A long operation that finds a FREE slot goes on to its own effect. -/
theorem beginOp_newOp {opcode slot : Nat} {args : List Nat} {u : State} (h : s.newOp c opcode args = some (slot, u)) (body : Nat → State → State) :
    s.beginOp c opcode args false body =
      body slot ((u.moveOp slot .running).complete c CS.ok ((u.moveOp slot .running).opHandle slot)) := by
  unfold State.beginOp
  rw [h]
  rfl

/-! ### Links (R411, R413) -/

/-- A port may train: no fatal event, its clocks run and did not fail, its unit is not lost, the chip is powered, its link is not up, and in FAILED it
is the bring-up port. -/
structure Trains (s : State) (n : Nat) : Prop where
  inside : n < 4
  noFatal : s.io.fatal = false
  clock : (s.get Fld.CK_MON_STATUS_FAILED).testBit 0 = false
  noFallback : (s.get Fld.CK_MON_STATUS_FALLBACK).testBit 0 = false
  here : s.units.hostLost.testBit n = false
  runs : s.on (Fld.CK_GATE_RUN_EN (17 + n)) = true
  released : s.get Fld.BU_STATE_STATE ≠ 0
  down : s.get (Fld.GC_PORT_STATE_LINK n) < 2
  bringUp : s.get Fld.BU_STATE_STATE = 8 → s.get Fld.BU_STRAP_PORT = n

theorem hostLinkUp_trains (h : Trains s n) (width rate : Nat) : exec (.hostLinkUp n width rate) s =
    .next ((((s.put (Fld.GC_PORT_STATE_LINK n) 2).put (Fld.GC_PORT_STATE_WIDTH n) width).put (Fld.GC_PORT_STATE_RATE n) rate).raise
      { code := 0x0F01, subject := n }) := by
  obtain ⟨hn, hfatal, hclock, hfallback, hhere, hruns, hreleased, hdown, hbring⟩ := h
  refine congrArg next (if_neg ?_)
  simpa [hfatal, hclock, hfallback, hhere, hruns, hreleased, hn, hdown] using hbring

theorem portUp_of_link {io : Io} (h : io.get (Fld.GC_PORT_STATE_LINK n) = 2) : io.portUp n = true := decide_eq_true h

theorem hostLinkLoss_resets (hn : n < 4) (h : s.get (Fld.GC_PORT_STATE_LINK n) ≠ 0) : exec (.hostLinkLoss n) s = .next (s.portReset n 1) :=
  congrArg next (if_neg (by simp [hn, h]))

theorem functionLevelReset_resets (hn : n < 4) (h : s.get (Fld.GC_PORT_STATE_LINK n) = 2) :
    exec (.functionLevelReset n) s = .next (s.portReset n 2) :=
  congrArg next (if_neg (by simp [hn, portUp_of_link h]))

theorem d3hotEntry_stops (hn : n < 4) (h : s.get (Fld.GC_PORT_STATE_LINK n) = 2) : exec (.d3hotEntry n) s =
    .next ({ s with io := s.io.detachCommands n }.put (Fld.GC_PORT_STATE_LINK n) 3) :=
  congrArg next (if_neg (by simp [hn, portUp_of_link h]))

theorem d0Return_resets (hn : n < 4) (h : s.get (Fld.GC_PORT_STATE_LINK n) = 3) : exec (.d0Return n) s = .next (s.portReset n 2) :=
  congrArg next (if_neg (by simp [hn, h]))

/-! ### Binding (R386, R387) -/

variable {w : RegWrite} {word : Nat}

theorem gcPortBindWrite_refused (hn : n < 4) (hword : word < 4) (h : MayWrite s w (Reg.GC_PORT_BIND n word))
    (htdi : s.get (Fld.GC_PORT_STATE_TDI n) = 1 ∨ s.get (Fld.GC_PORT_STATE_TDI n) = 2) :
    exec (.gcPortBindWrite w n word) s = .next (s.raise { code := 0x0F06, subject := n }) := by
  refine congrArg next ((if_pos ⟨hn, hword⟩).trans ?_)
  unfold State.writePortBind
  exact (fromPort_may h).trans (if_pos htdi)

/-- A tenant of a word of the binding that lost port `n`. -/
def lostPort (u : State) (n word t : Nat) : Bool := decide (t / 64 = word) && !u.bound n t

/-- The queues and then the rings of the tenants that lost port `n` stop. -/
def stopLost (n word : Nat) (u : State) : State :=
  let queues := (u.io.enabledQueues n).filter (fun q => match queueTenant q with | some t => lostPort u n word t | none => false)
  let rings := (u.io.portRings n).filter (fun r => decide (4 ≤ r) && lostPort u n word (r - 4))
  { u with io := rings.foldl (fun io r => io.stopRing r) (queues.foldl (fun io q => io.stopQueue q) u.io) }

theorem gcPortBindWrite_stores (hn : n < 4) (hword : word < 4) (h : MayWrite s w (Reg.GC_PORT_BIND n word))
    (hunlocked : s.get (Fld.GC_PORT_STATE_TDI n) ≠ 1) (hstopped : s.get (Fld.GC_PORT_STATE_TDI n) ≠ 2) :
    exec (.gcPortBindWrite w n word) s = .next (stopLost n word (s.store w (Reg.GC_PORT_BIND n word))) := by
  refine congrArg next ((if_pos ⟨hn, hword⟩).trans ?_)
  unfold State.writePortBind
  exact (fromPort_may h).trans (if_neg (not_or.mpr ⟨hunlocked, hstopped⟩))

/-! ### Requests to host memory (R382, R394, R400) -/

theorem hostCompletionTimeout_fetch (h : s.get (qEn q) = 1) : exec (.hostCompletionTimeout (.fetch q)) s = .next (s.queueError q 1 0) :=
  congrArg next (if_pos h)

theorem hostCompletionTimeout_record (h : s.get (qEn q) = 1) : exec (.hostCompletionTimeout (.record q)) s = .next (s.queueError q 2 0) :=
  congrArg next (if_pos h)

theorem hostCompletionTimeout_data (hq : c.issuer = .queue q) (h : (s.io.queue q).inProgress.contains (coreOf c) = true) :
    exec (.hostCompletionTimeout (.data c)) s = .next ((s.busFault c c.addrA.toNat).complete c CS.fault) := by
  show execHostCompletionTimeout (.data c) s = _
  simp only [execHostCompletionTimeout, hq, h, Bool.true_or, if_true]

/-- Settles O16: PORT_DETACH by the port it names, each event by its port's link (its values: log entry 59), a bind write by the TDI, and a timeout by
what was requested. -/
theorem portsAttachAndDetach : Obligations.PortsAttachAndDetach := by
  refine fun s n hn => ⟨fun c q slot u ha hq hother hbyte hop => ?detach, fun c q ha hq h => portDetach_bad ha hq h,
    fun width rate hfatal hclock hfallback hhere hruns hreleased hdown hbring =>
      hostLinkUp_trains ⟨hn, hfatal, hclock, hfallback, hhere, hruns, hreleased, hdown, hbring⟩ width rate,
    hostLinkLoss_resets hn, functionLevelReset_resets hn, d3hotEntry_stops hn, d0Return_resets hn,
    fun w word hword hmay => ⟨gcPortBindWrite_refused hn hword hmay, gcPortBindWrite_stores hn hword hmay⟩,
    fun q hen => ⟨hostCompletionTimeout_fetch hen, hostCompletionTimeout_record hen⟩, fun c q hq h => hostCompletionTimeout_data hq h⟩
  case detach => exact (portDetach_detaches ha hq hother hbyte hn).trans (congrArg next (beginOp_newOp hop _))

end Sys2Proof.Proofs
end

section
/-! Members and the Yard map: HELLOs sent, received and missed, and MAP_SET (R431 to R433, R441). -/

namespace Sys2Proof.Proofs

open Sys2Proof Sys2Proof.Machine Sys2Proof.Safety Sys2Proof.Laws

variable {s v : State} {start last d : Nat} {m : Msg} {c : Cmd} {b : List Byte}

/-! ### HELLO_SEND (R432) -/

theorem helloSend_off (h : s.net.helloStart = none) : exec .helloSend s = .next s := by
  show execHelloSend s = _
  simp only [execHelloSend, h]

theorem helloSend_early (h : s.net.helloStart = some start) (hsent : s.net.helloSent = some last)
    (hperiod : (s.now - start) / s.get Fld.NW_HELLO_PERIOD ≤ (last - start) / s.get Fld.NW_HELLO_PERIOD) : exec .helloSend s = .next s := by
  show execHelloSend s = _
  simp [execHelloSend, h, hsent, Nat.not_lt.mpr hperiod]

/-- A HELLO is due: none has been sent yet, or a later PERIOD has begun since the last. -/
def HelloDue (s : State) (start : Nat) : Prop :=
  s.net.helloSent = none ∨
    ∃ last, s.net.helloSent = some last ∧ (last - start) / s.get Fld.NW_HELLO_PERIOD < (s.now - start) / s.get Fld.NW_HELLO_PERIOD

theorem helloSend_due (h : s.net.helloStart = some start) (hdue : HelloDue s start) : exec .helloSend s = .next (
    s.otherMembers.foldl (fun u d => u.send { type := 0x30, src := u.deviceId, dst := d, aux := u.get Fld.NW_MAP_GEN_GEN, payload := s.absentBitmap })
      { s with net := { s.net with helloSent := some s.now } }) := by
  show execHelloSend s = _
  obtain hnone | ⟨last, hsent, hperiod⟩ := hdue
  · simp only [execHelloSend, h, hnone]
    rfl
  · simp only [execHelloSend, h, hsent, hperiod]
    rfl

/-! ### MEMBER_MISS_TIMEOUT (R432, R433) -/

theorem memberMissTimeout_off (h : s.net.helloStart = none) (d : Nat) : exec (.memberMissTimeout d) s = .next s := by
  show execMemberMissTimeout d s = _
  simp only [execMemberMissTimeout, h]

/-- Nothing is marked while HELLOs are sent and the device is this one, no member, absent already, or was heard in time. -/
theorem memberMissTimeout_rests (h : s.net.helloStart = some start) (hrest : d = s.deviceId ∨ s.isMember d = false ∨ (s.member d).absent = true ∨
    s.now < max (s.member d).heard start + s.get Fld.NW_HELLO_MISS * s.get Fld.NW_HELLO_PERIOD) : exec (.memberMissTimeout d) s = .next s := by
  show execMemberMissTimeout d s = _
  simp only [execMemberMissTimeout, h]
  refine congrArg next (if_pos ?_)
  obtain h | h | h | h := hrest <;> simp [h]

theorem memberMissTimeout_marks (h : s.net.helloStart = some start) (hother : d ≠ s.deviceId) (hmember : s.isMember d = true)
    (hpresent : (s.member d).absent = false) (hlate : max (s.member d).heard start + s.get Fld.NW_HELLO_MISS * s.get Fld.NW_HELLO_PERIOD ≤ s.now) :
    exec (.memberMissTimeout d) s = .next (s.setMember d { s.member d with absent := true }).weighMarks := by
  show execMemberMissTimeout d s = _
  simp only [execMemberMissTimeout, h]
  exact congrArg next (if_neg (by simp [hother, hmember, hpresent, Nat.not_lt.mpr hlate]))

/-! ### HELLO_RECEIVED (R432, R433) -/

theorem helloReceived_ignored (hv : s.hear m.src = v) (h : m.src = v.deviceId ∨ v.isMember m.src = false ∨ m.aux ≠ v.get Fld.NW_MAP_GEN_GEN) :
    exec (.helloReceived m) s = .next v := by
  show execHelloReceived m s = _
  simp only [execHelloReceived, hv]
  refine congrArg next (if_pos ?_)
  obtain h | h | h := h <;> simp [h]

theorem helloReceived_marks (hv : s.hear m.src = v) (hother : m.src ≠ v.deviceId) (hmember : v.isMember m.src = true)
    (hgen : m.aux = v.get Fld.NW_MAP_GEN_GEN) : exec (.helloReceived m) s = .next (v.setMember m.src { v.member m.src with
      marks := (List.range 4096).filter (fun d => (recGet m.payload (d / 8) 1).testBit (d % 8)) }).weighMarks := by
  show execHelloReceived m s = _
  simp only [execHelloReceived, hv]
  exact congrArg next (if_neg (by simp [hother, hmember, hgen]))

/-! ### MAP_SET (R441) -/

/-- A MAP_SET names some entries, and entries of the map. -/
def NamesEntries (c : Cmd) : Prop := 1 ≤ opU16 c 34 ∧ opU16 c 32 + opU16 c 34 ≤ 4096

theorem mapSet_badRange (ha : Accepted s c .mgmt false) (h : opU16 c 34 = 0 ∨ 4096 < opU16 c 32 + opU16 c 34) :
    exec (.mapSet c) s = .next (s.complete c CS.badCommand) := by
  refine congrArg next ((runCmd_accepted ha).trans (if_pos ?_))
  obtain h | h := h <;> simp [h]

/-- Names that lie in the map are not refused for their range. -/
theorem NamesEntries.inRange (h : NamesEntries c) :
    ¬ (decide (opU16 c 34 = 0) || decide (4096 < opU16 c 34) || decide (4096 < opU16 c 32 + opU16 c 34)) = true := by
  obtain ⟨hsome, hmap⟩ := h
  simp only [Bool.or_eq_true, decide_eq_true_eq]
  omega

theorem mapSet_uncommitted (ha : Accepted s c .mgmt false) (hr : NamesEntries c) (hcommit : s.get Fld.NW_CTRL_COMMIT = 0) :
    exec (.mapSet c) s = .next (s.complete c CS.notReady) := by
  refine congrArg next ((runCmd_accepted ha).trans ((if_neg hr.inRange).trans (if_pos ?_)))
  simp [on_of_zero hcommit]

theorem mapSet_unread {st : Nat} (ha : Accepted s c .mgmt false) (hr : NamesEntries c) (hcommit : s.get Fld.NW_CTRL_COMMIT = 1)
    (hb : s.readIn c c.addrA.toNat 0 (32 * opU16 c 34) = .error st) :
    exec (.mapSet c) s = .next ((s.readInFault c c.addrA.toNat st).complete c st) := by
  refine congrArg next ((runCmd_accepted ha).trans ((if_neg hr.inRange).trans ((if_neg ?_).trans ?_)))
  · simp [on_of_one hcommit]
  · simp only [hb]

/-- Entry `k` of the bytes read has no reserved flag and no reserved byte. -/
def entryClean (b : List Byte) (k : Nat) : Bool := decide (recGet b (32 * k + 19) 1 < 2) && ((b.drop (32 * k + 20)).take 12).all (· = 0)

/-- Entries that were read are written where all of them are clean. -/
theorem mapSet_read (ha : Accepted s c .mgmt false) (hr : NamesEntries c) (hcommit : s.get Fld.NW_CTRL_COMMIT = 1)
    (hb : s.readIn c c.addrA.toNat 0 (32 * opU16 c 34) = .ok b) : exec (.mapSet c) s = .next (
      if !(List.range (opU16 c 34)).all (entryClean b) then s.complete c CS.badCommand
      else (s.writeMap (opU16 c 32) (opU16 c 34) b).complete c CS.ok ((s.writeMap (opU16 c 32) (opU16 c 34) b).get Fld.NW_MAP_GEN_GEN)) := by
  refine congrArg next ((runCmd_accepted ha).trans ((if_neg hr.inRange).trans ((if_neg ?_).trans ?_)))
  · simp [on_of_one hcommit]
  · simp only [hb]
    rfl

theorem mapSet_badEntry (ha : Accepted s c .mgmt false) (hr : NamesEntries c) (hcommit : s.get Fld.NW_CTRL_COMMIT = 1)
    (hb : s.readIn c c.addrA.toNat 0 (32 * opU16 c 34) = .ok b)
    (hbad : ∃ k < opU16 c 34, 2 ≤ recGet b (32 * k + 19) 1 ∨ ∃ x ∈ (b.drop (32 * k + 20)).take 12, x ≠ 0) :
    exec (.mapSet c) s = .next (s.complete c CS.badCommand) := by
  refine (mapSet_read ha hr hcommit hb).trans (congrArg next (if_pos ?_))
  obtain ⟨k, hk, hbad⟩ := hbad
  have hdirty : entryClean b k = false := by
    obtain hflag | ⟨x, hx, hne⟩ := hbad
    · simp [entryClean, Nat.not_lt.mpr hflag]
    · have hbytes : ((b.drop (32 * k + 20)).take 12).all (· = 0) = false := List.all_eq_false.mpr ⟨x, hx, by simpa using hne⟩
      rw [entryClean, hbytes, Bool.and_false]
  rw [Bool.not_eq_true', List.all_eq_false]
  exact ⟨k, List.mem_range.mpr hk, by simp [hdirty]⟩

theorem mapSet_writes (ha : Accepted s c .mgmt false) (hr : NamesEntries c) (hcommit : s.get Fld.NW_CTRL_COMMIT = 1)
    (hb : s.readIn c c.addrA.toNat 0 (32 * opU16 c 34) = .ok b)
    (hclean : ∀ k < opU16 c 34, recGet b (32 * k + 19) 1 < 2 ∧ ((b.drop (32 * k + 20)).take 12).all (· = 0) = true) :
    exec (.mapSet c) s = .next ((s.writeMap (opU16 c 32) (opU16 c 34) b).complete c CS.ok
      ((s.writeMap (opU16 c 32) (opU16 c 34) b).get Fld.NW_MAP_GEN_GEN)) := by
  refine (mapSet_read ha hr hcommit hb).trans (congrArg next (if_neg ?_))
  rw [Bool.not_eq_true', Bool.not_eq_false, List.all_eq_true]
  intro k hk
  obtain ⟨hflag, hbytes⟩ := hclean k (List.mem_range.mp hk)
  rw [entryClean, hbytes, decide_eq_true hflag, Bool.and_true]

/-- Settles O52: HELLOs by the PERIOD, a member by what came from it, MAP_SET by its range, COMMIT and the entries read (MAP_SET before COMMIT,
and its fields checked first: log entry 57). -/
theorem yardMembership : Obligations.YardMembership := by
  refine fun s => ⟨fun hoff => ⟨helloSend_off hoff, memberMissTimeout_off hoff⟩, fun start hstart => ?hellos, fun m => ?received, fun c ha => ?mapSet⟩
  case hellos =>
    exact ⟨fun last => helloSend_early hstart, helloSend_due hstart, fun d => memberMissTimeout_rests hstart,
      fun d => memberMissTimeout_marks hstart⟩
  case received => exact ⟨helloReceived_ignored rfl, helloReceived_marks rfl⟩
  case mapSet =>
    refine ⟨mapSet_badRange ha, fun hsome hmap => ?_⟩
    have hr : NamesEntries c := ⟨hsome, hmap⟩
    exact ⟨mapSet_uncommitted ha hr, fun hcommit st => mapSet_unread ha hr hcommit,
      fun hcommit b hb => ⟨mapSet_badEntry ha hr hcommit hb, mapSet_writes ha hr hcommit hb⟩⟩

end Sys2Proof.Proofs
end

section
/-! Which registers an event of no tenant leaves alone (R601 to R609). -/

namespace Sys2Proof.Proofs

open Sys2Proof Sys2Proof.Machine Sys2Proof.Safety Sys2Proof.Laws

variable {off r : Nat} {e : Event} {cls : EventClass}

/-- An offset above the management rings and the units' flags, and none of a host port's GC_PORT_DROP. -/
def AsideRings (off : Nat) : Prop := 0x00C10000 ≤ off ∧ off % 0x100 ≠ 0x30

theorem AsideRings.ne_drop (h : AsideRings off) (p : Nat) : off ≠ (Fld.GC_PORT_DROP_COUNT p).off := by
  obtain ⟨-, hlow⟩ := h
  show off ≠ 0x0040A030 + 0x100 * p
  omega

theorem AsideRings.ne_ring (h : AsideRings off) (hr : r < 4) (i : Nat) (hi : i < 0x100) : off ≠ ringBase r + i := by
  obtain ⟨hhigh, -⟩ := h
  rw [ringBase, if_pos hr]
  show off ≠ 0x00801000 + 0x100 * r + i
  omega

theorem ringWrite_reg (h : AsideRings off) (hr : r < 4) (e : Event) (cls : EventClass) (seq now : Nat) (hidden : Bool) (io : Io) :
    (io.ringWrite e cls seq now r hidden).reg off = io.reg off := by
  have hlost : off ≠ (ringLost r).off := h.ne_ring hr 40 (by omega)
  have htail : off ≠ (ringTail r).off := h.ne_ring hr 32 (by omega)
  have hphase : off ≠ (ringPhase r).off := h.ne_ring hr 16 (by omega)
  have hset (q : Nat) (x : RingX) (io : Io) : (io.setRing q x).reg off = io.reg off := rfl
  unfold Io.ringWrite
  dsimp only
  split
  · rw [hset, reg_bump_other _ _ _ _ hlost]
  · split <;> split <;>
      simp only [hset, reg_put_other _ _ _ _ htail, reg_put_other _ _ _ _ hphase, emit_reg_other _ _ _ h.ne_drop]

theorem toManagement_reg (h : AsideRings off) (e : Event) (cls : EventClass) (seq now : Nat) (io : Io) :
    (io.toManagement e cls seq now).reg off = io.reg off := by
  refine List.foldlRecOn (motive := fun u : Io => u.reg off = io.reg off) _ _ rfl (fun u hu r hr => ?_)
  split
  · exact (ringWrite_reg h (List.mem_range.mp hr) _ _ _ _ _ _).trans hu
  · exact hu

/-- An event of no tenant that is neither fatal nor an NMI writes its flag and its counter, and goes to the management rings. -/
theorem raise_reg (h : AsideRings off) (hcls : eventClass e.code = some cls) (hfatal : cls ≠ .fatal) (hnmi : cls ≠ .nmi) (ht : e.tenant = none)
    (hnote : ∀ io : Io, (io.note e.code).reg off = io.reg off) (s : State) : (s.raise e).reg off = s.reg off := by
  show (Io.raise s.now e s.io).reg off = s.io.reg off
  simp only [Io.raise, hcls, if_neg hfatal, if_neg hnmi, ht]
  split
  · exact hnote _
  · exact (toManagement_reg h _ _ _ _ _).trans (hnote _)

theorem note_reg {flags bit count byte code : Nat} (hflag : eventFlag code = some (flags, bit, count, byte))
    (h : off ≠ Reg.EV_TOTAL ∧ off ≠ flags ∧ off ≠ count) (io : Io) : (io.note code).reg off = io.reg off := by
  obtain ⟨htotal, hflags, hcount⟩ := h
  simp only [Io.note, hflag, Io.setFlag]
  rw [reg_bump_other _ _ _ _ hcount, reg_put_other _ _ _ _ hflags, reg_bump_other _ _ _ _ htotal]

/-- EV_TS_GATE_LATE leaves TS_GATE_CTRL. -/
theorem raise_gateLate_pending (s : State) (p q : Nat) :
    (s.raise { code := 0x0B0C, subject := q }).get (Fld.TS_GATE_CTRL_PENDING p) = s.get (Fld.TS_GATE_CTRL_PENDING p) := by
  have haside : AsideRings (Reg.TS_GATE_CTRL p) := by simp only [AsideRings, Reg.TS_GATE_CTRL]; omega
  have hnote : ∀ io : Io, (io.note 0x0B0C).reg (Reg.TS_GATE_CTRL p) = io.reg (Reg.TS_GATE_CTRL p) :=
    note_reg (flags := Reg.TS_FLAGS) (bit := 2) (count := Reg.TS_FLAG_COUNT) (byte := 2) rfl
      (by simp only [Reg.TS_GATE_CTRL, Reg.EV_TOTAL, Reg.TS_FLAGS, Reg.TS_FLAG_COUNT]; omega)
  exact congrArg (fieldGet · 2 1) (raise_reg haside (cls := .warn) rfl (by decide) (by decide) rfl hnote s)

/-- EV_NW_LINK_UP leaves NW_PORT_STATE. -/
theorem raise_linkUp_link (s : State) (p q : Nat) :
    (s.raise { code := 0x0B01, subject := q }).get (Fld.NW_PORT_STATE_LINK p) = s.get (Fld.NW_PORT_STATE_LINK p) := by
  have haside : AsideRings (Reg.NW_PORT_STATE p) := by simp only [AsideRings, Reg.NW_PORT_STATE]; omega
  have hnote : ∀ io : Io, (io.note 0x0B01).reg (Reg.NW_PORT_STATE p) = io.reg (Reg.NW_PORT_STATE p) :=
    note_reg (flags := Reg.NW_FLAGS) (bit := 0) (count := Reg.NW_FLAG_COUNT) (byte := 0) rfl
      (by simp only [Reg.NW_PORT_STATE, Reg.EV_TOTAL, Reg.NW_FLAGS, Reg.NW_FLAG_COUNT]; omega)
  exact congrArg (fieldGet · 0 2) (raise_reg haside (cls := .info) rfl (by decide) (by decide) rfl hnote s)

end Sys2Proof.Proofs
end

section
/-! Traffic control, gate lists, links and lanes: what a port sends, refills, gate lists taken over, links lost and trained, lanes replaced, and what a
port answers (R418 to R420, R434 to R443). -/

namespace Sys2Proof.Proofs

open Sys2Proof Sys2Proof.Machine Sys2Proof.Safety Sys2Proof.Laws

variable {s v : State} {w : RegWrite} {p t k c i l : Nat}

/-! ### The best of the eligible heads (R435) -/

/-- A rank: how the head stands, its finish time, its queue, and whether it is in profile. -/
abbrev Rank := Nat × Nat × Nat × Bool

/-- Ranks go by their first three numbers, the first that differs deciding. -/
theorem rankBefore_iff (a b : Rank) :
    rankBefore a b = true ↔ a.1 < b.1 ∨ a.1 = b.1 ∧ (a.2.1 < b.2.1 ∨ a.2.1 = b.2.1 ∧ a.2.2.1 < b.2.2.1) := by
  simp only [rankBefore, Bool.or_eq_true, Bool.and_eq_true, decide_eq_true_eq]

theorem rankBefore_irrefl (a : Rank) : rankBefore a a = false := by
  rw [Bool.eq_false_iff, Ne, rankBefore_iff]
  omega

theorem rankBefore_trans {a b d : Rank} (h : rankBefore a b = true) (k : rankBefore b d = true) : rankBefore a d = true := by
  rw [rankBefore_iff] at *
  omega

/-- What does not go before `b`, where `b` goes not before `d`, does not go before `d`. -/
theorem not_rankBefore_trans {a b d : Rank} (h : rankBefore a b = false) (k : rankBefore b d = false) : rankBefore a d = false := by
  rw [Bool.eq_false_iff, Ne, rankBefore_iff] at *
  omega

/-- The better of the best rank so far and the next. -/
def betterRank (best : Option Rank) (r : Rank) : Option Rank :=
  match best with
  | none => some r
  | some b => if rankBefore r b then some r else some b

theorem nextHead_eq (s : State) (p : Nat) :
    s.nextHead p = ((s.net.queues.filterMap (s.headRank p)).foldl betterRank none).map (fun r => (r.2.2.1, r.2.2.2)) := rfl

/-- From a rank on, the search ends at that rank or a later one, and none of them goes before it. -/
theorem foldl_betterRank_some (ranks : List Rank) (b : Rank) : ∃ r ∈ b :: ranks, ranks.foldl betterRank (some b) = some r ∧
    ∀ q ∈ b :: ranks, rankBefore q r = false := by
  induction ranks generalizing b with
  | nil => exact ⟨b, List.mem_singleton_self b, rfl, by simpa using rankBefore_irrefl b⟩
  | cons x ranks ih =>
    by_cases hx : rankBefore x b = true
    · obtain ⟨r, hr, hfold, hleast⟩ := ih x
      have hb : rankBefore b r = false := by
        rw [Bool.eq_false_iff]
        intro hbr
        exact absurd (rankBefore_trans hx hbr) (Bool.eq_false_iff.mp (hleast x List.mem_cons_self))
      exact ⟨r, List.mem_cons_of_mem b hr, by simpa [betterRank, hx] using hfold, List.forall_mem_cons.mpr ⟨hb, hleast⟩⟩
    · obtain ⟨r, hr, hfold, hleast⟩ := ih b
      obtain ⟨hb, hrest⟩ := List.forall_mem_cons.mp hleast
      have hxr : rankBefore x r = false := not_rankBefore_trans (Bool.eq_false_iff.mpr hx) hb
      refine ⟨r, ?_, by simpa [betterRank, hx] using hfold, List.forall_mem_cons.mpr ⟨hb, List.forall_mem_cons.mpr ⟨hxr, hrest⟩⟩⟩
      rw [List.mem_cons] at hr ⊢
      exact hr.imp_right (List.mem_cons_of_mem x)

/-- The head that is sent has a rank that no eligible head goes before. -/
theorem nextHead_least {inside : Bool} (h : s.nextHead p = some (k, inside)) : ∃ r ∈ s.net.queues.filterMap (s.headRank p), r.2.2 = (k, inside) ∧
    ∀ q ∈ s.net.queues.filterMap (s.headRank p), rankBefore q r = false := by
  rw [nextHead_eq] at h
  cases hranks : s.net.queues.filterMap (s.headRank p) with
  | nil => simp [hranks] at h
  | cons b ranks =>
    obtain ⟨r, hr, hfold, hleast⟩ := foldl_betterRank_some ranks b
    have hbest : (b :: ranks).foldl betterRank none = some r := hfold
    rw [hranks, hbest] at h
    exact ⟨r, hr, Option.some.inj h, hleast⟩

/-! ### PORT_TRANSMIT (R434, R435) -/

theorem portTransmit_down (h : s.netUp p = false) : exec (.portTransmit p) s = .next s := congrArg next (if_pos (by simp [h]))

theorem portTransmit_control {d : Datagram} (hup : s.netUp p = true) (hd : (s.controlOf p).find? s.keyReady = some d) :
    exec (.portTransmit p) s = .next ((s.setControl p ((s.controlOf p).erase d)).transmit p d) := by
  show execPortTransmit p s = _
  simp [execPortTransmit, hup, hd]

/-- A port that is up has no control traffic to send. -/
def NoControl (s : State) (p : Nat) : Prop := s.netUp p = true ∧ (s.controlOf p).find? s.keyReady = none

theorem portTransmit_off (h : NoControl s p) (hoff : s.get Fld.TS_CTRL_EN = 0) : exec (.portTransmit p) s = .next s := by
  obtain ⟨hup, hnone⟩ := h
  show execPortTransmit p s = _
  simp [execPortTransmit, hup, hnone, on_of_zero hoff]

theorem portTransmit_nothing (h : NoControl s p) (hon : s.get Fld.TS_CTRL_EN = 1) (hhead : s.nextHead p = none) :
    exec (.portTransmit p) s = .next s := by
  obtain ⟨hup, hnone⟩ := h
  show execPortTransmit p s = _
  simp [execPortTransmit, hup, hnone, on_of_one hon, hhead]

theorem portTransmit_head {inside : Bool} (h : NoControl s p) (hon : s.get Fld.TS_CTRL_EN = 1) (hhead : s.nextHead p = some (k, inside)) :
    exec (.portTransmit p) s = .next (s.sendHead p k inside) := by
  obtain ⟨hup, hnone⟩ := h
  show execPortTransmit p s = _
  simp [execPortTransmit, hup, hnone, on_of_one hon, hhead]

/-! ### TS_REFILL_TICK and TS_RATE_WRITE (R436, R437) -/

/-- The last whole multiple of TS_REFILL. -/
def refillCount (s : State) : Nat := s.now / s.get Fld.TS_REFILL_NS * s.get Fld.TS_REFILL_NS

theorem tsRefillTick_early (h : refillCount s ≤ s.net.refillAt) : exec .tsRefillTick s = .next s := congrArg next (if_pos h)

theorem refillDue_refillAt (h : s.net.refillAt < refillCount s) : s.refillDue.net.refillAt = refillCount s := by
  refine (congrArg (fun u : State => u.net.refillAt) (if_neg (Nat.not_le.mpr h))).trans ?_
  -- neither a queue's refill nor a policing bucket's moves the count of the last refill
  refine List.foldlRecOn (motive := fun u : State => u.net.refillAt = refillCount s) _ _ ?_ (fun u hu _ _ => hu)
  exact List.foldlRecOn (motive := fun u : State => u.net.refillAt = refillCount s) _ _ rfl (fun u hu _ _ => hu)

theorem refillDue_io (s : State) : s.refillDue.io = s.io := (State.refillDue_frame s).1.1 .io (by decide)

theorem queueKey_port (ht : t < 256) (hc : c < 8) : queueKey p t c / 2048 = p := by unfold queueKey; omega
theorem queueKey_tenant (ht : t < 256) (hc : c < 8) : queueKey p t c / 8 % 256 = t := by unfold queueKey; omega
theorem queueKey_class (hc : c < 8) : queueKey p t c % 8 = c := by unfold queueKey; omega

@[simp] theorem tqueue_setTQueue_same (s : State) (k : Nat) (x : TQueue) : (s.setTQueue k x).tqueue k = x := sparseGet_put_same _ _ _ _

/-- A refill adds rate × time to the two buckets of a queue and clips them to their depths. -/
theorem refillQueue_buckets (s : State) (ht : t < 256) (hc : c < 8) :
    ((s.refillQueue (queueKey p t c)).tqueue (queueKey p t c)).committed =
        min (s.get (Fld.TS_DEPTH_CBS p t c) * (64 * 8000)) ((s.tqueue (queueKey p t c)).committed + s.get (Fld.TS_RATE_CIR p t c) * s.get Fld.TS_REFILL_NS) ∧
      ((s.refillQueue (queueKey p t c)).tqueue (queueKey p t c)).peak =
        min (s.get (Fld.TS_DEPTH_PBS p t c) * (64 * 8000)) ((s.tqueue (queueKey p t c)).peak + s.get (Fld.TS_RATE_PIR p t c) * s.get Fld.TS_REFILL_NS) := by
  simp only [State.refillQueue, tqueue_setTQueue_same, queueKey_port ht hc, queueKey_tenant ht hc, queueKey_class hc, and_self]

/-- A queue's register of rates or of depths. -/
def rateOff (p t c : Nat) (depth : Bool) : Nat := if depth then Reg.TS_DEPTH p t c else Reg.TS_RATE p t c

/-- The write takes force after the refills due before its count, or with the refill at its count. -/
theorem tsRateWrite_stores (depth : Bool) (hp : p < 8) (ht : t < 256) (hc : c < 8) (h : MayWrite s w (rateOff p t c depth)) :
    exec (.tsRateWrite w p t c depth) s = .next ((if s.now % s.get Fld.TS_REFILL_NS = 0 then s else s.refillDue).store w (rateOff p t c depth)) := by
  refine congrArg next ((if_pos ⟨hp, ht, hc⟩).trans ?_)
  unfold State.writeRate
  exact fromPort_may h

theorem tsRateWrite_nowhere (h : 8 ≤ p ∨ 256 ≤ t ∨ 8 ≤ c) (w : RegWrite) (depth : Bool) : exec (.tsRateWrite w p t c depth) s = .next s :=
  congrArg next (if_neg (by omega))

/-! ### Gate lists (R438, R439) -/

theorem gates_nowhere (h : 8 ≤ p) (w : RegWrite) :
    exec (.gateLoad w p) s = .next s ∧ exec (.gateCancel w p) s = .next s ∧ exec (.gateTakeover p) s = .next s :=
  ⟨congrArg next (if_neg (by omega)), congrArg next (if_neg (by omega)), congrArg next (if_neg (by omega))⟩

/-- What the CANCEL bit of a write does to a pending list. -/
def gateCancelled (v : State) (p : Nat) (cancel : Bool) : State :=
  if !cancel || !v.on (Fld.TS_GATE_CTRL_PENDING p) then v
  else if v.get (Fld.TS_GATE_START_NS p) ≤ v.now then v.raise { code := 0x0B0C, subject := p }
  else v.put (Fld.TS_GATE_CTRL_PENDING p) 0

/-- What the LOAD bit does where no list is pending. -/
def gateLoaded (v : State) (p : Nat) (load : Bool) : State :=
  if load && !v.on (Fld.TS_GATE_CTRL_PENDING p) then (v.put (Fld.TS_GATE_CTRL_PENDING p) 1).gateTakeover p else v

/-- The two rows store TS_GATE_CTRL, and its CANCEL bit acts before its LOAD bit. -/
theorem gateWrite_acts {a : Instr} (ha : a ∈ [Instr.gateLoad w p, .gateCancel w p]) (hp : p < 8) (h : MayWrite s w (Reg.TS_GATE_CTRL p)) :
    exec a s = .next (gateLoaded (gateCancelled (s.store w (Reg.TS_GATE_CTRL p)) p ((writeBits w).toNat.testBit 1)) p
      ((writeBits w).toNat.testBit 0)) := by
  have hwrite : exec (.gateLoad w p) s = .next (s.writeGateCtrl w p) := congrArg next (if_pos hp)
  have hsame : exec a s = exec (.gateLoad w p) s := by
    obtain rfl | rfl : a = .gateLoad w p ∨ a = .gateCancel w p := by simpa using ha
    · rfl
    · rfl
  exact hsame.trans (hwrite.trans (congrArg next (fromPort_may h)))

theorem gateCancelled_unasked (v : State) (p : Nat) : gateCancelled v p false = v := rfl

theorem gateCancelled_idle (h : v.get (Fld.TS_GATE_CTRL_PENDING p) = 0) (cancel : Bool) : gateCancelled v p cancel = v :=
  if_pos (by simp [on_of_zero h])

theorem gateCancelled_late (h : v.get (Fld.TS_GATE_CTRL_PENDING p) = 1) (hstart : v.get (Fld.TS_GATE_START_NS p) ≤ v.now) :
    gateCancelled v p true = v.raise { code := 0x0B0C, subject := p } :=
  (if_neg (by simp [on_of_one h])).trans (if_pos hstart)

theorem gateCancelled_inTime (h : v.get (Fld.TS_GATE_CTRL_PENDING p) = 1) (hstart : v.now < v.get (Fld.TS_GATE_START_NS p)) :
    gateCancelled v p true = v.put (Fld.TS_GATE_CTRL_PENDING p) 0 :=
  (if_neg (by simp [on_of_one h])).trans (if_neg (Nat.not_le.mpr hstart))

theorem gateLoaded_unasked (v : State) (p : Nat) : gateLoaded v p false = v := rfl

theorem gateLoaded_pending (h : v.get (Fld.TS_GATE_CTRL_PENDING p) = 1) (load : Bool) : gateLoaded v p load = v :=
  if_neg (by simp [on_of_one h])

theorem gateLoaded_idle (h : v.get (Fld.TS_GATE_CTRL_PENDING p) = 0) :
    gateLoaded v p true = (v.put (Fld.TS_GATE_CTRL_PENDING p) 1).gateTakeover p :=
  if_pos (by simp [on_of_zero h])

theorem gateTakeover_waits (h : s.get (Fld.TS_GATE_CTRL_PENDING p) = 0 ∨ s.now < s.get (Fld.TS_GATE_START_NS p)) : s.gateTakeover p = s := by
  refine if_pos ?_
  obtain h | h := h
  · simp [on_of_zero h]
  · simp [h]

/-- TS_GATE_CTRL holds no count. -/
theorem put_pending_start (v : State) (p x : Nat) : (v.put (Fld.TS_GATE_CTRL_PENDING p) x).get (Fld.TS_GATE_START_NS p) = v.get (Fld.TS_GATE_START_NS p) :=
  state_get_put_other _ _ _ _ (.inl (by simp only [Reg.TS_GATE_START, Reg.TS_GATE_CTRL]; omega))

/-- A list loaded before its count waits for it. -/
theorem gateLoaded_waits (h : v.get (Fld.TS_GATE_CTRL_PENDING p) = 0) (hstart : v.now < v.get (Fld.TS_GATE_START_NS p)) :
    gateLoaded v p true = v.put (Fld.TS_GATE_CTRL_PENDING p) 1 :=
  (gateLoaded_idle h).trans (gateTakeover_waits (.inr ((put_pending_start v p 1).symm ▸ hstart)))

theorem put_pending_zero (v : State) (p : Nat) : (v.put (Fld.TS_GATE_CTRL_PENDING p) 0).get (Fld.TS_GATE_CTRL_PENDING p) = 0 :=
  state_get_put_same _ _ _ (show 2 + 1 ≤ 64 by decide)

/-- A write that cancels a list in time and loads leaves it pending. -/
theorem gateLoaded_reloads (hstart : v.now < v.get (Fld.TS_GATE_START_NS p)) : gateLoaded (v.put (Fld.TS_GATE_CTRL_PENDING p) 0) p true =
    (v.put (Fld.TS_GATE_CTRL_PENDING p) 0).put (Fld.TS_GATE_CTRL_PENDING p) 1 :=
  gateLoaded_waits (put_pending_zero v p) ((put_pending_start v p 0).symm ▸ hstart)

/-- A cancellation that meets the takeover leaves the list pending, so that nothing is loaded. -/
theorem gateLoaded_late (h : v.get (Fld.TS_GATE_CTRL_PENDING p) = 1) (load : Bool) :
    gateLoaded (v.raise { code := 0x0B0C, subject := p }) p load = v.raise { code := 0x0B0C, subject := p } :=
  gateLoaded_pending ((raise_gateLate_pending v p p).trans h) load

theorem gateTakeover_rests (hp : p < 8) (h : s.get (Fld.TS_GATE_CTRL_PENDING p) = 0 ∨ s.now < s.get (Fld.TS_GATE_START_NS p)) :
    exec (.gateTakeover p) s = .next s := congrArg next ((if_pos hp).trans (gateTakeover_waits h))

@[simp] theorem gateOf_setGate_same (s : State) (p : Nat) (g : GateX) : (s.setGate p g).gateOf p = g := sparseGet_put_same _ _ _ _

theorem gateTakeover_takes (hp : p < 8) (h : s.get (Fld.TS_GATE_CTRL_PENDING p) = 1) (hstart : s.get (Fld.TS_GATE_START_NS p) ≤ s.now) :
    let g : GateX := ⟨s.pendingGate p, s.get (Fld.TS_GATE_START_NS p)⟩
    exec (.gateTakeover p) s = .next (((((s.setGate p g).put (Fld.TS_GATE_STATE_LENGTH p) g.entries.length).put (Fld.TS_GATE_STATE_INDEX p)
      (((gateAt g s.now).map (·.1)).getD 0)).put (Fld.TS_GATE_CTRL_PENDING p) 0).raise { code := 0x0B0B, subject := p }) := by
  refine congrArg next ((if_pos hp).trans ((if_neg (by simp [on_of_one h, Nat.not_lt.mpr hstart])).trans ?_))
  simp only [gateOf_setGate_same]
  rfl

theorem gateEntryBoundary_empty (h : gateAt (s.gateOf p) s.now = none) : exec (.gateEntryBoundary p) s = .next s := by
  show execGateEntryBoundary p s = _
  simp only [execGateEntryBoundary, h]

theorem gateEntryBoundary_moves {open_ until_ : Nat} (h : gateAt (s.gateOf p) s.now = some (i, open_, until_)) :
    exec (.gateEntryBoundary p) s = .next (s.put (Fld.TS_GATE_STATE_INDEX p) i) := by
  show execGateEntryBoundary p s = _
  simp only [execGateEntryBoundary, h]

/-! ### Links (R418, R443) -/

/-- The registers of a port whose link is gone: it trains again while it is enabled, and is not secured. -/
def linkGone (s : State) (p : Nat) : State :=
  (s.put (Fld.NW_PORT_STATE_LINK p) (if s.get (Fld.NW_PORT_CFG_EN p) = 1 then 1 else 0)).put (Fld.SEC_MACSEC_SECURED p) 0

/-- A link lost: what stands on a port that was up moves off it. -/
theorem linkLost_trains (s : State) (p : Nat) :
    s.linkLost p true = if s.netUp p then ((linkGone s p).raise { code := 0x0B02, subject := p }).moveOff p else linkGone s p := by
  simp only [State.linkLost, State.on, Bool.true_and, decide_eq_true_eq, linkGone]

theorem netLinkDown_loses (hp : p < 8) : exec (.netLinkDown p) s = .next (s.linkLost p true) := congrArg next (if_pos hp)

theorem netLinkDown_down (hp : p < 8) (h : s.netUp p = false) : exec (.netLinkDown p) s = .next (linkGone s p) := by
  simp [netLinkDown_loses hp, linkLost_trains, h]

theorem netLinkDown_up (hp : p < 8) (h : s.netUp p = true) :
    exec (.netLinkDown p) s = .next (((linkGone s p).raise { code := 0x0B02, subject := p }).moveOff p) := by
  simp [netLinkDown_loses hp, linkLost_trains, h]

/-- Port `p` may come up: clock source 1 has not failed and is not on the fallback, and no lane of it is lost. -/
def MayComeUp (s : State) (p : Nat) : Prop :=
  (s.get Fld.CK_MON_STATUS_FAILED).testBit 1 = false ∧ (s.get Fld.CK_MON_STATUS_FALLBACK).testBit 1 = false ∧
    ∀ i < 4, 4 * p + i ∉ s.units.absentLanes

theorem netLinkUp_idle (h : s.get (Fld.NW_PORT_STATE_LINK p) ≠ 1) : exec (.netLinkUp p) s = .next s := congrArg next (if_pos (by simp [h]))

theorem netLinkUp_stays (h : (s.get Fld.CK_MON_STATUS_FAILED).testBit 1 = true ∨ (s.get Fld.CK_MON_STATUS_FALLBACK).testBit 1 = true ∨
    ∃ i < 4, 4 * p + i ∈ s.units.absentLanes) : exec (.netLinkUp p) s = .next s := by
  refine congrArg next (if_pos ?_)
  obtain h | h | ⟨i, hi, hlane⟩ := h
  · simp [h]
  · simp [h]
  · have hlost : (List.range 4).any (fun i => s.units.absentLanes.contains (4 * p + i)) = true :=
      List.any_eq_true.mpr ⟨i, List.mem_range.mpr hi, List.contains_iff_mem.mpr hlane⟩
    rw [hlost, Bool.or_true]

/-- Port `p` up, its event raised. -/
def linkUp (s : State) (p : Nat) : State := (s.put (Fld.NW_PORT_STATE_LINK p) 2).raise { code := 0x0B01, subject := p }

/-- The LANE_SPAREs of port `p` taken off the list of those that wait. -/
def laneCmdsTaken (w : State) (p : Nat) : State := { w with net := { w.net with laneCmd := w.net.laneCmd.filter (fun e => e.1 ≠ p) } }

theorem netLinkUp_trains (hp : p < 8) (hlink : s.get (Fld.NW_PORT_STATE_LINK p) = 1) (h : MayComeUp s p) : exec (.netLinkUp p) s =
    .next (((linkUp s p).net.laneCmd.filter (fun e => e.1 = p)).foldl (fun u e => u.complete e.2 CS.ok) (laneCmdsTaken (linkUp s p) p)).resume := by
  obtain ⟨hfailed, hfallback, hlanes⟩ := h
  have hnone : (List.range 4).any (fun i => s.units.absentLanes.contains (4 * p + i)) = false :=
    List.any_eq_false.mpr (fun i hi => by simpa using hlanes i (List.mem_range.mp hi))
  exact congrArg next (if_neg (by rw [hnone]; simp [hlink, hfailed, hfallback, hp]))

theorem linkUp_link (s : State) (p : Nat) : (linkUp s p).get (Fld.NW_PORT_STATE_LINK p) = 2 :=
  (raise_linkUp_link _ p p).trans (state_get_put_same _ _ _ (show 0 + 2 ≤ 64 by decide))

/-! ### Lanes (R419) -/

theorem links_nowhere (h : 8 ≤ p) : exec (.netLinkDown p) s = .next s ∧ exec (.netLinkUp p) s = .next s ∧ ∀ i, exec (.netLaneFail p i) s = .next s :=
  ⟨congrArg next (if_neg (by omega)), congrArg next (if_pos (by simp [h])), fun _ => congrArg next (if_pos (by simp [h]))⟩

theorem netLaneFail_noLane (h : 4 ≤ i) (p : Nat) : exec (.netLaneFail p i) s = .next s := congrArg next (if_pos (by simp [h]))

theorem netLaneFail_spared (hp : p < 8) (hi : i < 4) (hl : s.laneSpare p = some l) : exec (.netLaneFail p i) s = .next (s.spareLane p i l) := by
  show execNetLaneFail p i s = _
  simp [execNetLaneFail, hl, hp, hi]

theorem netLaneFail_lost (hl : s.laneSpare p = none) (hlost : 4 * p + i ∈ s.units.absentLanes) : exec (.netLaneFail p i) s = .next s :=
  congrArg next (if_pos (by simp [hl, hlost]))

/-! What these operations leave of the units. -/

@[simp] theorem linkLost_units (s : State) (p : Nat) (train : Bool) : (s.linkLost p train).units = s.units :=
  (State.linkLost_frame s p train).1.1 .units (by decide)
@[simp] theorem survey_units (s : State) (records : List Nat) : (s.survey records).units = s.units :=
  (State.survey_frame s records).1.1 .units (by decide)
@[simp] theorem logRepair_units (s : State) (entry : Nat) : (s.logRepair entry).units = s.units :=
  (State.logRepair_frame s entry).1.1 .units (by decide)
@[simp] theorem checkMinimum_units (s : State) (entry : Nat) : (s.checkMinimum entry).units = s.units :=
  (State.checkMinimum_frame s entry).1.1 .units (by decide)
@[simp] theorem foldl_complete_units (l : List (Nat × Cmd)) (status : Nat) (s : State) :
    (l.foldl (fun s e => s.complete e.2 status) s).units = s.units :=
  (Kept.foldl (f := fun s (e : Nat × Cmd) => s.complete e.2 status) (Kept.refl s) (fun t e => State.complete_frame t e.2 status 0 0 0)).1.1 .units
    (by decide)

/-- The units with lane `n` absent, its physical lane `old` bad. -/
def laneAbsent (u : Units) (n old : Nat) : Units :=
  { u with absentLanes := u.absentLanes ++ [n], badLanes := u.badLanes.filter (· ≠ old) ++ [old], laneAt := u.laneAt.filter (fun e => e.1 ≠ n) }

/-- A lane that fails with no free wired spare is absent, and its physical lane bad. -/
theorem netLaneFail_unspared (hp : p < 8) (hi : i < 4) (hl : s.laneSpare p = none) (hhere : 4 * p + i ∉ s.units.absentLanes) :
    ∃ u : State, exec (.netLaneFail p i) s = .next u ∧ u.units = laneAbsent s.units (4 * p + i) (s.physicalLane (4 * p + i)) := by
  have hguard : ¬ (decide (8 ≤ p) || decide (4 ≤ i) || (s.units.absentLanes.contains (4 * p + i) && (s.laneSpare p).isNone)) = true := by
    simp [hp, hi, hhere]
  show ∃ u : State, execNetLaneFail p i s = .next u ∧ _
  unfold execNetLaneFail
  rw [if_neg hguard, hl]
  refine ⟨_, rfl, ?_⟩
  -- after the lane was noted absent, no operation writes the units
  refine (checkMinimum_units _ _).trans ((logRepair_units _ _).trans ((survey_units _ _).trans ((foldl_complete_units _ _ _).trans ?_)))
  exact congrArg (fun u => laneAbsent u (4 * p + i) (s.physicalLane (4 * p + i))) (linkLost_units s p false)

/-! ### LANE_SPARE (R419, R441) -/

theorem laneSpare_bad {a : Cmd} (ha : Accepted s a .mgmt false) (h : 8 ≤ opByte a 32 ∨ 4 ≤ opByte a 33) :
    exec (.laneSpare a) s = .next (s.complete a CS.badCommand) := by
  refine congrArg next ((runCmd_accepted ha).trans (if_pos ?_))
  simpa using h

/-- A LANE_SPARE names lane `i` of port `p`. -/
def NamesLane (a : Cmd) : Prop := opByte a 32 < 8 ∧ opByte a 33 < 4

theorem NamesLane.inRange {a : Cmd} (h : NamesLane a) : ¬ (decide (8 ≤ opByte a 32) || decide (4 ≤ opByte a 33)) = true := by
  simpa [NamesLane] using h

theorem laneSpare_none {a : Cmd} (ha : Accepted s a .mgmt false) (h : NamesLane a) (hl : s.laneSpare (opByte a 32) = none) :
    exec (.laneSpare a) s = .next (s.complete a CS.noResource) := by
  refine congrArg next ((runCmd_accepted ha).trans ((if_neg h.inRange).trans ?_))
  simp only [hl]

theorem laneSpare_spares {a : Cmd} (ha : Accepted s a .mgmt false) (h : NamesLane a) (hl : s.laneSpare (opByte a 32) = some l) :
    let v := s.spareLane (opByte a 32) (opByte a 33) l
    exec (.laneSpare a) s = .next { v with net := { v.net with laneCmd := v.net.laneCmd ++ [(opByte a 32, a)] } } := by
  refine congrArg next ((runCmd_accepted ha).trans ((if_neg h.inRange).trans ?_))
  simp only [hl]

/-! ### What a port answers (R420) -/

theorem answers_down (h : s.netUp p = false) (a : BitVec 128) (b : List Byte) :
    exec (.neighborSolicitation p a) s = .next s ∧ exec (.icmpEchoRequest p a b) s = .next s :=
  ⟨congrArg next (if_pos (by simp [h])), congrArg next (if_neg (by simp [h]))⟩

theorem neighborSolicitation_elsewhere {a : BitVec 128} (h : s.ownAddress a = none) (p : Nat) : exec (.neighborSolicitation p a) s = .next s := by
  show execNeighborSolicitation p a s = _
  simp [execNeighborSolicitation, h]

theorem icmpEchoRequest_elsewhere {a : BitVec 128} (h : s.ownAddress a = none) (p : Nat) (b : List Byte) : exec (.icmpEchoRequest p a b) s = .next s :=
  congrArg next (if_neg (by simp [h]))

theorem neighborSolicitation_answered {a : BitVec 128} {q : Nat} (hup : s.netUp p = true) (h : s.ownAddress a = some q) :
    exec (.neighborSolicitation p a) s = .next (s.emit (.neighborAdvert p a (s.get (Fld.NW_PORT_CFG_MAC q)))) := by
  show execNeighborSolicitation p a s = _
  simp [execNeighborSolicitation, hup, h]

theorem icmpEchoRequest_answered {a : BitVec 128} {q : Nat} (hup : s.netUp p = true) (h : s.ownAddress a = some q) (b : List Byte) :
    exec (.icmpEchoRequest p a b) s = .next (s.emit (.echoReply p b)) :=
  congrArg next (if_pos (by simp [hup, h]))

/-! ### The statement's parts, assembled -/

/-- Settles O53: a port by what stands on it, a refill by its count, a write of TS_GATE_CTRL by its CANCEL and then its LOAD, a link by LINK, a lane
by the free wired spare, and a request by the address it names (what a refill adds, the move of what waits, and lane training: log entry 58). -/
theorem trafficAndLinks : Obligations.TrafficAndLinks := by
  refine fun s p => ⟨⟨portTransmit_down, fun hup => ⟨fun d => portTransmit_control hup, fun hnone => ?queues⟩⟩,
    ⟨tsRefillTick_early, fun hdue => ⟨_, rfl, refillDue_refillAt hdue, refillDue_io s⟩, fun t c => refillQueue_buckets s, fun w t c hp ht hc => ?rates,
      fun w t c d h => tsRateWrite_nowhere h w d⟩,
    gates_nowhere, fun w hp hmay a ha => ?gateWrite,
    ⟨gateTakeover_rests, gateTakeover_takes, gateEntryBoundary_empty, fun i open_ until_ => gateEntryBoundary_moves⟩,
    ⟨links_nowhere, fun hp => ?links⟩, fun a ha => ?laneSpare, fun a b => ?answers⟩
  case queues =>
    have h : NoControl s p := ⟨hup, hnone⟩
    exact ⟨portTransmit_off h, portTransmit_nothing h, fun k inside hon hhead => ⟨portTransmit_head h hon hhead, nextHead_least hhead⟩⟩
  case rates => exact ⟨tsRateWrite_stores false hp ht hc, tsRateWrite_stores true hp ht hc⟩
  case gateWrite =>
    have hwrite := gateWrite_acts ha hp hmay
    refine ⟨fun hload hcancel => ?_, fun hload hidle => ?_, fun hload hcancel hpending => ?_, fun hload hcancel => ?_, fun hcancel hpending => ?_⟩
    · rw [hwrite, hload, hcancel, gateCancelled_unasked, gateLoaded_unasked]
    · rw [hwrite, hload, gateCancelled_idle hidle]
      exact ⟨fun hstart => congrArg next (gateLoaded_waits hidle hstart), fun _ => congrArg next (gateLoaded_idle hidle)⟩
    · rw [hwrite, hcancel, gateCancelled_unasked, gateLoaded_pending hpending]
    · rw [hwrite, hload, hcancel, gateLoaded_unasked]
      exact ⟨fun hidle => congrArg next (gateCancelled_idle hidle true), fun hpending hstart => congrArg next (gateCancelled_inTime hpending hstart)⟩
    · rw [hwrite, hcancel]
      refine ⟨fun hstart => ?_, fun hload hstart => ?_⟩
      · rw [gateCancelled_late hpending hstart, gateLoaded_late hpending]
      · rw [hload, gateCancelled_inTime hpending hstart, gateLoaded_reloads hstart]
  case links =>
    refine ⟨netLinkDown_down hp, netLinkDown_up hp, netLinkUp_idle, fun hlink hfailed hfallback hlanes => ?_, netLinkUp_stays,
      fun i hi => netLaneFail_noLane hi p, fun i l hi => netLaneFail_spared hp hi, fun i _ => netLaneFail_lost, fun i hi hl hhere => ?_⟩
    · exact ⟨netLinkUp_trains hp hlink ⟨hfailed, hfallback, hlanes⟩, linkUp_link s p⟩
    · obtain ⟨u, hu, hunits⟩ := netLaneFail_unspared hp hi hl hhere
      exact ⟨u, hu, congrArg Units.absentLanes hunits, congrArg Units.badLanes hunits⟩
  case laneSpare =>
    exact ⟨laneSpare_bad ha, fun hport hlane => laneSpare_none ha ⟨hport, hlane⟩, fun l hport hlane => laneSpare_spares ha ⟨hport, hlane⟩⟩
  case answers =>
    exact ⟨fun h => answers_down h a b, fun h => ⟨neighborSolicitation_elsewhere h p, icmpEchoRequest_elsewhere h p b⟩,
      fun q hup h => ⟨neighborSolicitation_answered hup h, icmpEchoRequest_answered hup h b⟩⟩

end Sys2Proof.Proofs
end

section
/-! SPDM over a host port, the lock of its interface, and the peers of a MACsec port (R447, R449, R451 to R453, R467, R468). -/

namespace Sys2Proof.Proofs

open Sys2Proof Sys2Proof.Machine Sys2Proof.Safety Sys2Proof.Laws

variable {s : State} {r : SpdmReq} {n p : Nat} {sci : Word}

/-! ### SPDM_REQUEST (R447, R449, R451) -/

theorem spdmRequest_unreached (h : 4 ≤ r.port ∨ s.io.portUp r.port = false) : exec (.spdmRequest r) s = .next s :=
  congrArg next (if_pos (by simpa using h))

/-- The mailbox of a port whose link is up hands the request to the responder. -/
theorem spdmRequest_reached (hp : r.port < 4) (hup : s.io.portUp r.port = true) : exec (.spdmRequest r) s = .next (s.spdm r) :=
  congrArg next (if_neg (by simp [hp, hup]))

/-- `t` is the state after one response to `r`, Tier 1 untouched. -/
def Answers (s : State) (r : SpdmReq) (t : State) : Prop := ∃ (u : State) (a : SpdmReply), t = u.spdmAnswer r a ∧ u.t1 = s.t1

theorem Answers.unchanged (a : SpdmReply) : Answers s r (s.spdmAnswer r a) := ⟨s, a, rfl, rfl⟩

theorem Answers.changed {u : State} (h : u.t1 = s.t1) (a : SpdmReply) : Answers s r (u.spdmAnswer r a) := ⟨u, a, rfl, h⟩

theorem Answers.ite {c : Prop} [Decidable c] {t u : State} (ht : Answers s r t) (hu : Answers s r u) : Answers s r (if c then t else u) := by
  split
  · exact ht
  · exact hu

theorem refreshConf_t1 (s : State) (n : Nat) : (s.refreshConf n).t1 = s.t1 := (State.refreshConf_frame s n).1.1 .t1 (by decide)

/-- Every request is answered once, whatever its body. -/
theorem spdm_answers (s : State) (r : SpdmReq) : Answers s r (s.spdm r) := by
  have keep : ∀ a, Answers s r (s.spdmAnswer r a) := .unchanged
  have refresh : ∀ l a, Answers s r (((s.setSessions r.port l).refreshConf r.port).spdmAnswer r a) := fun l => .changed (refreshConf_t1 _ _)
  unfold State.spdm
  refine .ite (keep _) (.ite (keep _) ?_)
  generalize r.body = body
  cases body with
  | getVersion | getCapabilities | negotiateAlgorithms | getDigests | other => exact keep _
  | getCertificate => exact .ite (keep _) (keep _)
  | challenge => exact .ite (keep _) (.changed rfl _)
  | getMeasurements => exact .ite (keep _) (.ite (.changed rfl _) (keep _))
  | keyExchange => exact .ite (keep _) (.ite (keep _) (.changed rfl _))
  | heartbeat | keyUpdate => exact .ite (keep _) (keep _)
  | ideKey go =>
    refine .ite (.changed ?_ _) (keep _)
    cases go <;> rfl
  | finish requester ok =>
    dsimp only
    split
    · exact keep _
    · exact .ite (keep _) (.ite (refresh _ _) (.changed rfl _))
  | endSession =>
    dsimp only
    split
    · exact keep _
    · exact .ite (refresh _ _) (keep _)

theorem spdm_unknownSession {k : Nat} (hk : r.session = some k) (hnone : ∀ x ∈ s.sessionsOf r.port, x.id ≠ k) :
    s.spdm r = s.spdmAnswer r .errorInvalid := by
  have hfind : (s.sessionsOf r.port).find? (fun x => decide (x.id = k)) = none := by simpa using hnone
  exact if_pos (by simp [hk, hfind])

theorem spdm_noCertificate (hout : r.session = none) (hneeds : needsCert r.body = true) (hcert : s.get Fld.SEC_STATE_CERT_LOADED = 0) :
    s.spdm r = s.spdmAnswer r .errorUnspecified :=
  (if_neg (by simp [hout])).trans (if_pos (by simp [hneeds, on_of_zero hcert]))

theorem spdm_version (hout : r.session = none) (hb : r.body = .getVersion) : s.spdm r = s.spdmAnswer r (.version [0x12, 0x13]) := by
  simp [State.spdm, hout, hb, needsCert]

theorem spdm_capabilities (hout : r.session = none) (hb : r.body = .getCapabilities) : s.spdm r = s.spdmAnswer r .capabilities := by
  simp [State.spdm, hout, hb, needsCert]

theorem spdm_digests (hout : r.session = none) (hb : r.body = .getDigests) :
    s.spdm r = s.spdmAnswer r (.digests (if s.get Fld.SEC_STATE_CERT_LOADED = 1 then Config.sha384 s.sec.chain else [])) := by
  simp [State.spdm, hout, hb, needsCert, State.on]

theorem spdm_measurements {i : Nat} {nonce : List Byte} (hout : r.session = none) (hb : r.body = .getMeasurements i false nonce)
    (hi : i = 0 ∨ measureIndices i ≠ []) :
    s.spdm r = s.spdmAnswer r (.measurements ((measureIndices i).map (fun k => (k, s.measurement k))) []) := by
  have hsome : i ≠ 0 → measureIndices i ≠ [] := fun h => hi.resolve_left h
  simpa [State.spdm, hout, hb, needsCert] using fun h he => absurd he (hsome h)

theorem spdm_sessionLimit (hout : r.session = none) (hb : r.body = .keyExchange 0) (hcert : s.get Fld.SEC_STATE_CERT_LOADED = 1)
    (hfull : 4 ≤ (s.sessionsOf r.port).length) : s.spdm r = s.spdmAnswer r .errorSessionLimit := by
  simp [State.spdm, hout, hb, on_of_one hcert, hfull]

theorem spdm_keyExchange (hout : r.session = none) (hb : r.body = .keyExchange 0) (hcert : s.get Fld.SEC_STATE_CERT_LOADED = 1)
    (hroom : (s.sessionsOf r.port).length < 4) :
    s.spdm r = (s.setSessions r.port (s.sessionsOf r.port ++
      [{ id := freeSession (s.sessionsOf r.port), established := false, requester := none }])).spdmAnswer r
        (.keyExchange (freeSession (s.sessionsOf r.port))) := by
  simp [State.spdm, hout, hb, on_of_one hcert, hroom]

/-- Session `x` of the port carries the request. -/
def Carries (s : State) (r : SpdmReq) (x : SpdmSession) : Prop :=
  ∃ k, r.session = some k ∧ (s.sessionsOf r.port).find? (fun y => y.id = k) = some x

theorem spdm_finish {x : SpdmSession} {who : Option (List Byte)} (h : Carries s r x) (hb : r.body = .finish who true) (hx : x.established = false) :
    s.spdm r = ((s.setSessions r.port ((s.sessionsOf r.port).map (fun (y : SpdmSession) =>
      if y.id = x.id then ({ y with established := true, requester := who } : SpdmSession) else y))).refreshConf r.port).spdmAnswer r .finish := by
  obtain ⟨k, hk, hfind⟩ := h
  simp [State.spdm, hk, hfind, hb, hx, needsCert]

theorem sessionsOf_setSessions (s : State) (n : Nat) (l : List SpdmSession) : (s.setSessions n l).sessionsOf n = l := sparseGet_put_same _ _ _ _

theorem spdm_endSession {x : SpdmSession} (h : Carries s r x) (hb : r.body = .endSession) (hx : x.established = true) :
    s.spdm r = ((s.setSessions r.port ((s.sessionsOf r.port).filter (fun y => y.id ≠ x.id))).refreshConf r.port).spdmAnswer r .ack := by
  obtain ⟨k, hk, hfind⟩ := h
  simp [State.spdm, hk, hfind, hb, hx, needsCert]

theorem spdm_ideKey {x : SpdmSession} {go : Bool} (h : Carries s r x) (hb : r.body = .ideKey go) (hx : x.established = true) :
    s.spdm r = (if go = true then s.put (Fld.GC_PORT_STATE_IDE r.port) 1 else s).spdmAnswer r .ack := by
  obtain ⟨k, hk, hfind⟩ := h
  simp [State.spdm, hk, hfind, hb, hx, needsCert]

/-! ### The interface's lock (R387, R452, R453) -/

theorem tdisp_nowhere (h : 4 ≤ n) :
    exec (.tdispLockInterface n) s = .next s ∧ exec (.tdispStartInterface n) s = .next s ∧ exec (.tdispStopInterface n) s = .next s :=
  ⟨congrArg next (if_neg (by simp [h])), congrArg next (if_neg (by simp [h])), congrArg next (if_neg (by omega))⟩

theorem tdispLock_locks (hn : n < 4) (h : s.get (Fld.GC_PORT_STATE_TDI n) = 0) : exec (.tdispLockInterface n) s = .next (s.moveTdi n 1) :=
  congrArg next (if_pos (by simp [hn, h]))

theorem tdispLock_rests (h : s.get (Fld.GC_PORT_STATE_TDI n) ≠ 0) : exec (.tdispLockInterface n) s = .next s :=
  congrArg next (if_neg (by simp [h]))

theorem tdispStart_runs (hn : n < 4) (h : s.get (Fld.GC_PORT_STATE_TDI n) = 1) : exec (.tdispStartInterface n) s = .next (s.moveTdi n 2) :=
  congrArg next (if_pos (by simp [hn, h]))

theorem tdispStart_rests (h : s.get (Fld.GC_PORT_STATE_TDI n) ≠ 1) : exec (.tdispStartInterface n) s = .next s :=
  congrArg next (if_neg (by simp [h]))

theorem tdispStop_unlocks (hn : n < 4) : exec (.tdispStopInterface n) s = .next (s.moveTdi n 0) := congrArg next (if_pos hn)

/-! ### MACSEC_FRAME and MKA_LIVE_PEER_LOSS (R467, R468) -/

theorem macsec_off (h : s.secyRuns p = false) : (∀ f, exec (.macsecFrame p f) s = .next s) ∧ exec (.mkaLivePeerLoss p) s = .next s :=
  ⟨fun _ => congrArg next (if_pos (by simp [h])), congrArg next (if_pos (by simp [h]))⟩

theorem macsecFrame_plain (p : Nat) : exec (.macsecFrame p .plain) s = .next s := congrArg next (ite_self s)

theorem macsecFrame_unverified (p : Nat) (sci : Word) :
    exec (.macsecFrame p (.mka sci false)) s = .next s ∧ exec (.macsecFrame p (.sealed sci false)) s = .next s :=
  ⟨congrArg next (ite_self s), congrArg next (ite_self s)⟩

/-- Where the SecY works, a frame that verifies is heard as its peer's. -/
theorem macsecFrame_heard {after : Bool → State} (hp : p < 8) (hruns : s.secyRuns p = true) (h : ∀ mka, s.hearPeer p sci.toNat mka = after mka) :
    exec (.macsecFrame p (.mka sci true)) s = .next (after true) ∧ exec (.macsecFrame p (.sealed sci true)) s = .next (after false) := by
  have hworks : ¬ (decide (8 ≤ p) || !s.secyRuns p) = true := by simp [hp, hruns]
  exact ⟨congrArg next ((if_neg hworks).trans (h true)), congrArg next ((if_neg hworks).trans (h false))⟩

/-- An MKA message makes its peer's SA live; a protected frame leaves that as it is. -/
def markSecured (s : State) (p : Nat) (mka : Bool) : State := if mka then s.put (Fld.SEC_MACSEC_SECURED p) 1 else s

theorem hearPeer_known {k : Nat} (h : k ∈ s.peersOf p) (mka : Bool) : s.hearPeer p k mka = markSecured s p mka := if_pos (by simpa using h)

theorem hearPeer_full {k : Nat} (h : k ∉ s.peersOf p) (hfull : 64 ≤ (s.peersOf p).length) (mka : Bool) :
    s.hearPeer p k mka = s.raise { code := 0x0C04, subject := p, detail := [k] } :=
  (if_neg (by simpa using h)).trans (if_pos hfull)

theorem hearPeer_joins {k : Nat} (h : k ∉ s.peersOf p) (hroom : (s.peersOf p).length < 64) (mka : Bool) :
    s.hearPeer p k mka = markSecured (s.setPeers p (s.peersOf p ++ [k])) p mka :=
  (if_neg (by simpa using h)).trans (if_neg (by omega))

theorem mkaLivePeerLoss_rests (h : s.peersOf p = []) : exec (.mkaLivePeerLoss p) s = .next s := congrArg next (if_pos (by simp [h]))

theorem mkaLivePeerLoss_drops (hp : p < 8) (hruns : s.secyRuns p = true) (h : s.peersOf p ≠ []) :
    exec (.mkaLivePeerLoss p) s = .next ((s.dropPeers p).raise { code := 0x0C03, subject := p }) :=
  congrArg next (if_neg (by simp [hp, hruns, h]))

end Sys2Proof.Proofs
end

section
/-! Keys, certificates, random numbers and the entropy test (R448, R455 to R459, R465, R466, R473). -/

namespace Sys2Proof.Proofs

open Sys2Proof Sys2Proof.Machine Sys2Proof.Safety Sys2Proof.Laws

variable {s : State} {c : Cmd} {b keys list : List Byte}

/-! ### SEC_KEY_LOAD (R455 to R457) -/

theorem secKeyLoad_unread {st : Nat} (ha : Accepted s c .both true) (h : s.readIn c c.addrA.toNat 0 344 = .error st) :
    exec (.secKeyLoad c) s = .next ((s.readInFault c c.addrA.toNat st).complete c st) := by
  show execSecKeyLoad c s = _
  simp only [execSecKeyLoad, h, runCmd_accepted ha]

theorem secKeyLoad_opens (ha : Accepted s c .both (blobAllowed (s.issuerTenant c.issuer) (recGet b 5 1) (recGet b 6 2)))
    (h : s.readIn c c.addrA.toNat 0 344 = .ok b) : exec (.secKeyLoad c) s = .next (s.openBlob c b) := by
  show execSecKeyLoad c s = _
  simp only [execSecKeyLoad, h, runCmd_accepted ha]

theorem openBlob_malformed (h : blobMalformed b = true) : s.openBlob c b = s.refuseBlob c b 1 CS.badCommand := if_pos h

theorem openBlob_notAllowed (hform : blobMalformed b = false)
    (h : blobAllowed (s.issuerTenant c.issuer) (recGet b 5 1) (recGet b 6 2) = false) : s.openBlob c b = s.complete c CS.badCommand :=
  (if_neg (by simp [hform])).trans (if_pos (by simp [h]))

theorem openBlob_badCount (hform : blobMalformed b = false)
    (hallowed : blobAllowed (s.issuerTenant c.issuer) (recGet b 5 1) (recGet b 6 2) = true) (hkind : recGet b 5 1 = 2)
    (h : opByte c 32 = 0 ∨ 16 < opByte c 32) : s.openBlob c b = s.complete c CS.badCommand :=
  (if_neg (by simp [hform])).trans ((if_neg (by simp [hallowed])).trans (if_pos (by simpa [hkind] using h)))

/-- The blob's form is right, its target may be loaded from here, and a model's list is of 1 to 16 digests. -/
structure BlobNamed (s : State) (c : Cmd) (b : List Byte) : Prop where
  form : blobMalformed b = false
  allowed : blobAllowed (s.issuerTenant c.issuer) (recGet b 5 1) (recGet b 6 2) = true
  count : recGet b 5 1 = 2 → 1 ≤ opByte c 32 ∧ opByte c 32 ≤ 16

/-- Such a blob gets to the check of its serial number. -/
theorem BlobNamed.passes (h : BlobNamed s c b) {t u v w : State} :
    (if blobMalformed b then t else if !blobAllowed (s.issuerTenant c.issuer) (recGet b 5 1) (recGet b 6 2) then u
      else if recGet b 5 1 = 2 && (opByte c 32 = 0 || decide (16 < opByte c 32)) then v else w) = w := by
  obtain ⟨hform, hallowed, hcount⟩ := h
  refine (if_neg (by simp [hform])).trans ((if_neg (by simp [hallowed])).trans (if_neg ?_))
  simp only [Bool.and_eq_true, Bool.or_eq_true, decide_eq_true_eq, not_and]
  intro hkind
  have := hcount hkind
  omega

theorem openBlob_otherSerial (h : BlobNamed s c b) (hserial : recGet b 8 8 ≠ Config.serial.toNat) :
    s.openBlob c b = s.refuseBlob c b 2 CS.integrity := h.passes.trans (if_pos hserial)

theorem openBlob_otherPolicy (h : BlobNamed s c b) (hserial : recGet b 8 8 = Config.serial.toNat)
    (hpolicy : s.get Fld.SEC_CTRL_COMMIT = 0 ∨ (b.drop 24).take 48 ≠ s.policyDigest (recGet b 16 8)) :
    s.openBlob c b = s.refuseBlob c b 3 CS.integrity := by
  refine h.passes.trans ((if_neg (not_not_intro hserial)).trans (if_pos ?_))
  obtain hcommit | hdigest := hpolicy
  · simp [on_of_zero hcommit]
  · simp [hdigest]

/-- The blob is for this device under the policy in force. -/
structure BlobOurs (s : State) (c : Cmd) (b : List Byte) : Prop extends BlobNamed s c b where
  serial : recGet b 8 8 = Config.serial.toNat
  commit : s.get Fld.SEC_CTRL_COMMIT = 1
  policy : (b.drop 24).take 48 = s.policyDigest (recGet b 16 8)

/-- What is left of R457 once a blob has unwrapped: its list read and compared, and its target not taken. -/
def installChecked (s : State) (c : Cmd) (b keys : List Byte) : State :=
  match (if recGet b 5 1 = 2 then s.readIn c c.addrB.toNat 344 (48 * opByte c 32) else .ok []) with
  | .error st => (s.readInFault c c.addrB.toNat st).complete c st
  | .ok list =>
    if recGet b 5 1 = 2 && Config.sha384 list ≠ (b.drop 72).take 48 then s.refuseBlob c b 5 CS.integrity
    else if s.blobTaken (recGet b 5 1) (recGet b 6 2) then s.refuseBlob c b 6 CS.notReady
    else (s.installBlob b keys list (opByte c 32)).complete c CS.ok

/-- Such a blob installs its keys after its last checks, or does not unwrap. -/
theorem openBlob_ours (h : BlobOurs s c b) :
    s.openBlob c b = (Config.unwrapBlob b).elim (s.refuseBlob c b 4 CS.integrity) (installChecked s c b) := by
  obtain ⟨hnamed, hserial, hcommit, hpolicy⟩ := h
  refine hnamed.passes.trans ((if_neg (not_not_intro hserial)).trans ((if_neg (by simp [on_of_one hcommit, hpolicy])).trans ?_))
  cases Config.unwrapBlob b <;> rfl

theorem installChecked_unread {st : Nat} (hkind : recGet b 5 1 = 2) (h : s.readIn c c.addrB.toNat 344 (48 * opByte c 32) = .error st) :
    installChecked s c b keys = (s.readInFault c c.addrB.toNat st).complete c st := by
  simp [installChecked, hkind, h]

theorem installChecked_otherList (hkind : recGet b 5 1 = 2) (h : s.readIn c c.addrB.toNat 344 (48 * opByte c 32) = .ok list)
    (hlist : Config.sha384 list ≠ (b.drop 72).take 48) : installChecked s c b keys = s.refuseBlob c b 5 CS.integrity := by
  simp [installChecked, hkind, h, hlist]

/-- The list that a blob installs with its keys: the one read for a model domain, and none for another kind. -/
def Listed (s : State) (c : Cmd) (b list : List Byte) : Prop :=
  (recGet b 5 1 = 2 ∧ s.readIn c c.addrB.toNat 344 (48 * opByte c 32) = .ok list ∧ Config.sha384 list = (b.drop 72).take 48) ∨
    (recGet b 5 1 ≠ 2 ∧ list = [])

/-- With its list in order, the blob is refused where its target is taken, and installed where it is not. -/
theorem installChecked_listed (h : Listed s c b list) : installChecked s c b keys =
    if s.blobTaken (recGet b 5 1) (recGet b 6 2) then s.refuseBlob c b 6 CS.notReady
    else (s.installBlob b keys list (opByte c 32)).complete c CS.ok := by
  obtain ⟨hkind, hread, hlist⟩ | ⟨hkind, rfl⟩ := h
  · simp [installChecked, hkind, hread, hlist]
  · simp [installChecked, hkind]

theorem installChecked_taken (h : Listed s c b list) (htaken : s.blobTaken (recGet b 5 1) (recGet b 6 2) = true) :
    installChecked s c b keys = s.refuseBlob c b 6 CS.notReady := (installChecked_listed h).trans (if_pos htaken)

theorem installChecked_installs (h : Listed s c b list) (htaken : s.blobTaken (recGet b 5 1) (recGet b 6 2) = false) :
    installChecked s c b keys = (s.installBlob b keys list (opByte c 32)).complete c CS.ok :=
  (installChecked_listed h).trans (if_neg (by simp [htaken]))

/-! ### SEC_KEY_CLEAR (R459) -/

theorem secKeyClear_bad (ha : Accepted s c .mgmt false) (h : blobTargetOk (opByte c 32) (opU16 c 33) = false) :
    exec (.secKeyClear c) s = .next (s.complete c CS.badCommand) :=
  congrArg next ((runCmd_accepted ha).trans (if_pos (by simp [h])))

theorem secKeyClear_inUse (ha : Accepted s c .mgmt false) (h : blobTargetOk (opByte c 32) (opU16 c 33) = true)
    (huse : s.keyInUse (opByte c 32) (opU16 c 33) = true) : exec (.secKeyClear c) s = .next (s.complete c CS.notReady) :=
  congrArg next ((runCmd_accepted ha).trans ((if_neg (by simp [h])).trans (if_pos huse)))

theorem secKeyClear_clears (ha : Accepted s c .mgmt false) (h : blobTargetOk (opByte c 32) (opU16 c 33) = true)
    (huse : s.keyInUse (opByte c 32) (opU16 c 33) = false) :
    exec (.secKeyClear c) s = .next ((s.clearTarget (opByte c 32) (opU16 c 33)).complete c CS.ok) :=
  congrArg next ((runCmd_accepted ha).trans ((if_neg (by simp [h])).trans (if_neg (by simp [huse]))))

/-! ### SEC_CERT_LOAD and SEC_SCRUB_CERT (R448, R473) -/

theorem secCertLoad_bad (ha : Accepted s c .mgmt false) (h : 1 < opByte c 32) : exec (.secCertLoad c) s = .next (s.complete c CS.badCommand) :=
  congrArg next ((runCmd_accepted ha).trans (if_pos h))

theorem secCertLoad_committed (ha : Accepted s c .mgmt false) (h : opByte c 32 = 1) (hcommit : s.get Fld.SEC_CTRL_COMMIT = 1) :
    exec (.secCertLoad c) s = .next (s.complete c CS.notReady) :=
  congrArg next ((runCmd_accepted ha).trans ((if_neg (by omega)).trans (if_pos (by simp [h, on_of_one hcommit]))))

/-- SEC_CERT_LOAD loads a chain, or a debug token before SEC_CTRL.COMMIT. -/
def Loadable (s : State) (c : Cmd) : Prop := opByte c 32 = 0 ∨ opByte c 32 = 1 ∧ s.get Fld.SEC_CTRL_COMMIT = 0

/-- Such a load gets to its bytes. -/
theorem Loadable.passes (h : Loadable s c) {t u v : State} :
    (if 1 < opByte c 32 then t else if opByte c 32 = 1 && s.on Fld.SEC_CTRL_COMMIT then u else v) = v := by
  obtain h | ⟨h, hcommit⟩ := h
  · simp [h]
  · simp [h, on_of_zero hcommit]

theorem secCertLoad_unread {st : Nat} (ha : Accepted s c .mgmt false) (h : Loadable s c)
    (hread : s.readIn c c.addrA.toNat 0 (opU32 c 36) = .error st) :
    exec (.secCertLoad c) s = .next ((s.readInFault c c.addrA.toNat st).complete c st) := by
  refine congrArg next ((runCmd_accepted ha).trans (h.passes.trans ?_))
  rw [hread]

theorem secCertLoad_token (ha : Accepted s c .mgmt false) (h : opByte c 32 = 1) (hcommit : s.get Fld.SEC_CTRL_COMMIT = 0)
    (hread : s.readIn c c.addrA.toNat 0 (opU32 c 36) = .ok b) : exec (.secCertLoad c) s =
      .next (if Config.tokenOk b then (s.put Fld.SEC_STATE_DEBUG_OPEN 1).complete c CS.ok else s.complete c CS.integrity) := by
  have hload : Loadable s c := .inr ⟨h, hcommit⟩
  refine congrArg next ((runCmd_accepted ha).trans (hload.passes.trans ?_))
  rw [hread]
  exact if_pos h

theorem secCertLoad_chain (ha : Accepted s c .mgmt false) (h : opByte c 32 = 0)
    (hread : s.readIn c c.addrA.toNat 0 (opU32 c 36) = .ok b) : exec (.secCertLoad c) s =
      .next (if Config.chainOk b then ((s.setSec { s.sec with chain := b }).put Fld.SEC_STATE_CERT_LOADED 1).complete c CS.ok
        else s.complete c CS.integrity) := by
  have hload : Loadable s c := .inl h
  refine congrArg next ((runCmd_accepted ha).trans (hload.passes.trans ?_))
  rw [hread]
  exact if_neg (by omega)

theorem secScrubCert_none (ha : Accepted s c .mgmt false) (h : sparseGet [] s.sec.certs (opByte c 32) = []) :
    exec (.secScrubCert c) s = .next (s.complete c CS.notReady) := by
  refine congrArg next ((runCmd_accepted ha).trans ?_)
  rw [h]

theorem secScrubCert_writes {u : State} (ha : Accepted s c .mgmt false) (hsome : sparseGet [] s.sec.certs (opByte c 32) ≠ [])
    (h : s.writeOut c c.addrA.toNat (sparseGet [] s.sec.certs (opByte c 32)) = .ok u) :
    exec (.secScrubCert c) s = .next (u.complete c CS.ok) := by
  refine congrArg next ((runCmd_accepted ha).trans ?_)
  cases hcert : sparseGet [] s.sec.certs (opByte c 32) with
  | nil => exact absurd hcert hsome
  | cons x rest => rw [hcert] at h; simp only [h]

/-! ### SEC_RANDOM and ENTROPY_HEALTH_FAIL (R465, R466) -/

theorem secRandom_bad (ha : Accepted s c .both false) (h : opU32 c 36 < 16 ∨ 4096 < opU32 c 36 ∨ opU32 c 36 % 16 ≠ 0) :
    exec (.secRandom c) s = .next (s.complete c CS.badCommand) := by
  refine congrArg next ((runCmd_accepted ha).trans (if_pos ?_))
  simpa [or_assoc] using h

theorem secRandom_draws {u : State} (ha : Accepted s c .both false) (hmin : 16 ≤ opU32 c 36) (hmax : opU32 c 36 ≤ 4096)
    (hwords : opU32 c 36 % 16 = 0)
    (h : (s.drawRandom (opU32 c 36 / 8) []).2.writeOut c c.addrA.toNat (s.drawRandom (opU32 c 36 / 8) []).1 = .ok u) :
    exec (.secRandom c) s = .next (u.complete c CS.ok) := by
  refine congrArg next ((runCmd_accepted ha).trans ((if_neg ?_).trans ?_))
  · simp only [Bool.or_eq_true, decide_eq_true_eq]
    omega
  · simp only [h]

theorem entropyHealthFail_fatal (h : s.unitsRun = true) : exec .entropyHealthFail s = .next (s.raise { code := 0x0C08 }) :=
  congrArg next (if_pos h)

theorem entropyHealthFail_rests (h : s.unitsRun = false) : exec .entropyHealthFail s = .next s := congrArg next (if_neg (by simp [h]))

end Sys2Proof.Proofs
end

section
/-! Model imports: their start and their chunks (R463, R464). -/

namespace Sys2Proof.Proofs

open Sys2Proof Sys2Proof.Machine Sys2Proof.Safety Sys2Proof.Laws

variable {s v : State} {c : Cmd} {x : ModelImport} {slot : Nat} {b plain : List Byte}

/-! ### SEC_MODEL_IMPORT (R463) -/

/-- The ports over which an import is striped. -/
abbrev importPorts (c : Cmd) : List Nat := (List.range 8).filter (opByte c 34).testBit

theorem secModelImport_bad (ha : AcceptedHeld s c .mgmt false)
    (h : opU64 c 40 = 0 ∨ opU64 c 40 % 64 ≠ 0 ∨ importPorts c = [] ∨ opU16 c 32 < 512 ∨ 543 < opU16 c 32) :
    exec (.secModelImport c) s = .next (s.refuse c CS.badCommand) := by
  refine congrArg next ((runHeld_accepts ha).trans (if_pos ?_))
  simpa only [Bool.or_eq_true, decide_eq_true_eq, List.isEmpty_iff, or_assoc] using h

/-- An import of whole blocks to a model domain over at least one port. -/
structure Importable (c : Cmd) : Prop where
  nonempty : 0 < opU64 c 40
  blocks : opU64 c 40 % 64 = 0
  ports : importPorts c ≠ []
  low : 512 ≤ opU16 c 32
  high : opU16 c 32 ≤ 543

/-- Such an import gets to the check of its domain's key. -/
theorem Importable.passes (h : Importable c) {t u : State} : (if opU64 c 40 = 0 || opU64 c 40 % 64 ≠ 0 || (importPorts c).isEmpty ||
    decide (opU16 c 32 < 512) || decide (543 < opU16 c 32) then t else u) = u := by
  obtain ⟨hlen, hblocks, hports, hlow, hhigh⟩ := h
  refine if_neg ?_
  simp only [Bool.or_eq_true, decide_eq_true_eq, List.isEmpty_iff, hports, or_false]
  omega

theorem secModelImport_noKey (ha : AcceptedHeld s c .mgmt false) (h : Importable c) (hkey : s.domainInstalled (opU16 c 32) = false) :
    exec (.secModelImport c) s = .next (s.refuse c CS.notReady) :=
  congrArg next ((runHeld_accepts ha).trans (h.passes.trans (if_pos (by simp [hkey]))))

theorem secModelImport_absent (ha : AcceptedHeld s c .mgmt false) (h : Importable c) (hkey : s.domainInstalled (opU16 c 32) = true)
    (hport : ∃ p ∈ importPorts c, s.portWritable p = false) : exec (.secModelImport c) s = .next (s.refuse c CS.absentUnit) := by
  refine congrArg next ((runHeld_accepts ha).trans (h.passes.trans ((if_neg (by simp [hkey])).trans (if_pos ?_))))
  simpa only [Bool.not_eq_true', List.all_eq_false, Bool.not_eq_true] using hport

/-- The import started, as an entry of the security state. -/
def newImport (c : Cmd) (k : Nat) (bands : List (Nat × Nat)) : ModelImport :=
  { op := k, domain := opU16 c 32, source := c.addrA.toNat, len := opU64 c 40, written := 0, bands := bands, ended := false }

/-- An import whose key and ports serve takes its bands and starts its operation. -/
theorem secModelImport_stripes (ha : AcceptedHeld s c .mgmt false) (h : Importable c) (hkey : s.domainInstalled (opU16 c 32) = true)
    (hports : ∀ p ∈ importPorts c, s.portWritable p = true) : exec (.secModelImport c) s =
      .next ((s.takeStripes (importPorts c) (opU64 c 40)).elim (s.refuse c CS.noResource) (fun r =>
        r.2.beginOp c 0xA2 [opU16 c 32] false (fun op u => u.setSec { u.sec with imports := u.sec.imports ++ [newImport c op r.1] }))) := by
  refine congrArg next ((runHeld_accepts ha).trans (h.passes.trans ((if_neg (by simp [hkey])).trans ((if_neg ?_).trans ?_))))
  · simpa only [Bool.not_eq_true', List.all_eq_false, not_exists, not_and, Decidable.not_not] using hports
  · cases s.takeStripes (importPorts c) (opU64 c 40) <;> rfl

@[simp] theorem startedOp_sec (s : State) (c : Cmd) (k opcode : Nat) (args : List Nat) : (startedOp s c k opcode args).sec = s.sec := rfl

@[simp] theorem complete_sec (s : State) (c : Cmd) (status r0 r1 r2 : Nat) : (s.complete c status r0 r1 r2).sec = s.sec :=
  (State.complete_frame s c status r0 r1 r2).1.1 .sec (by decide)

theorem startedOp_live (s : State) (c : Cmd) (k opcode : Nat) (args : List Nat) : ((startedOp s c k opcode args).op k).live = true := by
  simp [startedOp, State.moveOp]

theorem beginOp_import {k : Nat} (hk : LowestFree v k) (bands : List (Nat × Nat)) :
    v.beginOp c 0xA2 [opU16 c 32] false (fun op u => u.setSec { u.sec with imports := u.sec.imports ++ [newImport c op bands] }) =
      ((startedOp v c k 0xA2 [opU16 c 32]).complete c CS.ok ((startedOp v c k 0xA2 [opU16 c 32]).opHandle k)).setSec
        { v.sec with imports := v.sec.imports ++ [newImport c k bands] } := by
  rw [beginOp_lowestFree hk]
  simp only [complete_sec, startedOp_sec]

/-! ### MODEL_IMPORT_CHUNK_DONE (R463, R464) -/

/-- The import that runs in an operation's slot. -/
abbrev importIn (s : State) (slot : Nat) : Option ModelImport := s.sec.imports.find? (fun x => x.op = slot && x.live)

theorem modelImportChunkDone_none (h : importIn s slot = none) (b : Option (List Byte)) : exec (.modelImportChunkDone slot b) s = .next s := by
  show execModelImportChunkDone slot b s = _
  simp only [execModelImportChunkDone, h]

theorem modelImportChunkDone_parking (h : importIn s slot = some x) (hpark : s.get Fld.PW_STATUS_PARKING = 1) (b : Option (List Byte)) :
    exec (.modelImportChunkDone slot b) s = .next s := by
  show execModelImportChunkDone slot b s = _
  simp only [execModelImportChunkDone, h]
  exact congrArg next (if_pos (by simp [on_of_one hpark]))

/-- An import that runs takes its chunk. -/
theorem modelImportChunkDone_runs (h : importIn s slot = some x) (hpark : s.get Fld.PW_STATUS_PARKING = 0)
    (hst : (s.op slot).st ∈ [OpState.running, .suspending]) (b : Option (List Byte)) :
    exec (.modelImportChunkDone slot b) s = .next (s.importChunk x b) := by
  show execModelImportChunkDone slot b s = _
  simp only [execModelImportChunkDone, h]
  refine congrArg next (if_neg ?_)
  simpa [on_of_zero hpark, or_iff_not_imp_left] using hst

theorem importIn_op (h : importIn s slot = some x) : x.op = slot := by
  have := List.find?_some h
  simp only [Bool.and_eq_true, decide_eq_true_eq] at this
  exact this.1

/-- The bytes of the chunk at hand: a MiB, or what is left. -/
abbrev chunkBytes (x : ModelImport) : Nat := min (2 ^ 20) (x.len - x.written)

/-- The chunk opened under its domain's model key; nothing where the key is gone or the tag does not verify. -/
def chunkPlain (s : State) (x : ModelImport) (b : List Byte) : Option (List Byte) :=
  if s.domainInstalled x.domain = false then none
  else Config.gcmOpen (((sparseGet [] s.sec.keys (keyOfDomain x.domain)).drop 64).take 32) (bytesOf 4 0 ++ bytesOf 8 (x.written / 2 ^ 20))
    (bytesOf 2 x.domain ++ bytesOf 8 (x.written / 2 ^ 20) ++ bytesOf 8 x.len) (b.take (chunkBytes x)) ((b.drop (chunkBytes x)).take 16)

/-- A chunk sent to the Shed and counted. -/
def chunkWritten (s : State) (x : ModelImport) (plain : List Byte) : State :=
  let s := s.emit (.shedImage x.addr x.written x.domain plain)
  let done := x.written + chunkBytes x
  let y := { x with written := done, ended := decide (x.len ≤ done) }
  let s := s.setSec { s.sec with imports := s.sec.imports.map (fun z => if z.op = x.op && z.live then y else z) }
  s.setOp x.op { s.op x.op with progress := 1000 * done / x.len }

theorem chunkWritten_io (s : State) (x : ModelImport) (plain : List Byte) :
    (chunkWritten s x plain).io = (s.emit (.shedImage x.addr x.written x.domain plain)).io := rfl

theorem chunkWritten_progress (s : State) (x : ModelImport) (plain : List Byte) :
    ((chunkWritten s x plain).op x.op).progress = 1000 * (x.written + chunkBytes x) / x.len := by
  simp [chunkWritten]

/-- The chunk that opens is written, and the last one ends the import. -/
theorem importChunk_some (s : State) (x : ModelImport) (b : List Byte) : s.importChunk x (some b) =
    (chunkPlain s x b).elim ((s.raise { code := 0x0C02, subject := x.domain }).failImport x CS.integrity) (fun plain =>
      if x.len ≤ x.written + chunkBytes x then
        (chunkWritten s x plain).endOp x.op .done CS.ok x.addr (x.written + chunkBytes x)
      else chunkWritten s x plain) := by
  simp only [State.importChunk, Bool.not_eq_true']
  change (match chunkPlain s x b with | none => _ | some plain => _) = _
  cases chunkPlain s x b with
  | none => rfl
  | some plain => exact if_congr decide_eq_true_iff rfl rfl

theorem importChunk_unopened (h : chunkPlain s x b = none) :
    s.importChunk x (some b) = (s.raise { code := 0x0C02, subject := x.domain }).failImport x CS.integrity := by
  rw [importChunk_some, h]
  rfl

theorem importChunk_last (h : chunkPlain s x b = some plain) (hlast : x.len ≤ x.written + chunkBytes x) : s.importChunk x (some b) =
    (chunkWritten s x plain).endOp x.op .done CS.ok x.addr (x.written + chunkBytes x) := by
  rw [importChunk_some, h]
  exact if_pos hlast

theorem importChunk_more (h : chunkPlain s x b = some plain) (hmore : x.written + chunkBytes x < x.len) :
    s.importChunk x (some b) = chunkWritten s x plain := by
  rw [importChunk_some, h]
  exact if_neg (by omega)

/-! ### The statement's parts, assembled -/

/-- Settles O55: an SPDM request by its session and its body, an interface by its lock, a frame by its peer, a blob, a clear, a load or an import by the
first check that stops it, and a chunk by whether it opens (the SPDM errors are presumed: log entry 62; the order of a blob's checks: log entry 63). -/
theorem securityCommands : Obligations.SecurityCommands := by
  refine fun s => ⟨fun r => ⟨spdmRequest_unreached, fun hp hup => ?spdm⟩, fun n => tdisp_nowhere, fun n hn => ?tdisp,
    fun p => ⟨macsec_off, fun hp hruns => ?macsec⟩, fun c st => secKeyLoad_unread, fun c b ha hread => ?blob, fun c ha => ?mgmt,
    fun c ha => ⟨secRandom_bad ha, fun u => secRandom_draws ha⟩, fun c k ha => ?start, fun slot x => ?chunk,
    entropyHealthFail_fatal, entropyHealthFail_rests⟩
  case spdm =>
    rw [spdmRequest_reached hp hup]
    refine ⟨?answered, fun k hk hnone => congrArg next (spdm_unknownSession hk hnone), fun hout => ?outside,
      fun k x who hk hfind hb hx => ⟨_, congrArg next (spdm_finish ⟨k, hk, hfind⟩ hb hx), sessionsOf_setSessions s r.port _⟩,
      fun k x hk hfind hb hx => congrArg next (spdm_endSession ⟨k, hk, hfind⟩ hb hx),
      fun k x go hk hfind hb hx => congrArg next (spdm_ideKey ⟨k, hk, hfind⟩ hb hx)⟩
    case answered =>
      obtain ⟨u, a, hu, ht1⟩ := spdm_answers s r
      exact ⟨u, a, congrArg next hu, ht1⟩
    case outside =>
      exact ⟨fun hneeds hcert => congrArg next (spdm_noCertificate hout hneeds hcert), fun hb => congrArg next (spdm_version hout hb),
        fun hb => congrArg next (spdm_capabilities hout hb), fun hb => congrArg next (spdm_digests hout hb),
        fun i nonce hb hi => congrArg next (spdm_measurements hout hb hi), fun hb hcert =>
          ⟨fun hfull => congrArg next (spdm_sessionLimit hout hb hcert hfull), fun hroom => congrArg next (spdm_keyExchange hout hb hcert hroom)⟩⟩
  case tdisp =>
    exact ⟨fun h => ⟨tdispLock_locks hn h, tdispStart_rests (by omega)⟩, fun h => ⟨tdispStart_runs hn h, tdispLock_rests (by omega)⟩,
      fun h => ⟨tdispStart_rests (by omega), tdispLock_rests (by omega)⟩, tdispStop_unlocks hn⟩
  case macsec =>
    exact ⟨macsecFrame_plain p, macsecFrame_unverified p, fun sci hnew hroom => (macsecFrame_heard hp hruns (hearPeer_joins hnew hroom) :),
      fun sci hnew hfull => (macsecFrame_heard hp hruns (hearPeer_full hnew hfull) :),
      fun sci hknown => (macsecFrame_heard hp hruns (hearPeer_known hknown) :), mkaLivePeerLoss_rests, mkaLivePeerLoss_drops hp hruns⟩
  case blob =>
    rw [secKeyLoad_opens ha hread]
    refine ⟨fun hbad => congrArg next (openBlob_malformed hbad), fun hform hno => congrArg next (openBlob_notAllowed hform hno),
      fun hform hallowed hkind hn => congrArg next (openBlob_badCount hform hallowed hkind hn), fun hform hallowed hcount => ?_⟩
    have hnamed : BlobNamed s c b := ⟨hform, hallowed, hcount⟩
    refine ⟨fun hserial => congrArg next (openBlob_otherSerial hnamed hserial), fun hserial =>
      ⟨fun hpolicy => congrArg next (openBlob_otherPolicy hnamed hserial hpolicy), fun hcommit hpolicy => ?_⟩⟩
    rw [openBlob_ours ⟨hnamed, hserial, hcommit, hpolicy⟩]
    refine ⟨fun hnone => by rw [hnone]; rfl, fun keys hkeys => ?_⟩
    rw [hkeys]
    exact ⟨fun st hkind hlist => congrArg next (installChecked_unread hkind hlist), fun list hkind hlist =>
        ⟨fun hother => congrArg next (installChecked_otherList hkind hlist hother),
          fun hsame htaken => congrArg next (installChecked_taken (.inl ⟨hkind, hlist, hsame⟩) htaken),
          fun hsame hfree => congrArg next (installChecked_installs (.inl ⟨hkind, hlist, hsame⟩) hfree)⟩,
      fun hkind => ⟨fun htaken => congrArg next (installChecked_taken (.inr ⟨hkind, rfl⟩) htaken),
        fun hfree => congrArg next (installChecked_installs (.inr ⟨hkind, rfl⟩) hfree)⟩⟩
  case mgmt =>
    refine ⟨secKeyClear_bad ha, secKeyClear_inUse ha, secKeyClear_clears ha, secCertLoad_bad ha, secCertLoad_committed ha,
      fun st h => secCertLoad_unread ha h, fun b hread => ⟨fun h hok => ?_, fun h hno => ?_, fun h hcommit hok => ?_, fun h hcommit hno => ?_⟩,
      secScrubCert_none ha, fun u => secScrubCert_writes ha⟩
    · rw [secCertLoad_chain ha h hread, if_pos hok]
    · rw [secCertLoad_chain ha h hread, if_neg (by simp [hno])]
    · rw [secCertLoad_token ha h hcommit hread, if_pos hok]
    · rw [secCertLoad_token ha h hcommit hread, if_neg (by simp [hno])]
  case start =>
    refine ⟨secModelImport_bad ha, fun hlen hblocks hports hlow hhigh => ?_⟩
    have hfits : Importable c := ⟨hlen, hblocks, hports, hlow, hhigh⟩
    refine ⟨secModelImport_noKey ha hfits, secModelImport_absent ha hfits, fun hkey hserve => ?_⟩
    rw [secModelImport_stripes ha hfits hkey hserve]
    refine ⟨fun hnone => by rw [hnone]; rfl, fun bands v hbands hk hfree hlive => ?_⟩
    rw [hbands]
    obtain ⟨hst, hopcode, -⟩ := startedOp_op v c k 0xA2 [opU16 c 32]
    exact ⟨startedOp v c k 0xA2 [opU16 c 32], congrArg next (beginOp_import ⟨hk, hfree, hlive⟩ bands), startedOp_live v c k _ _, hopcode, hst, rfl⟩
  case chunk =>
    refine ⟨modelImportChunkDone_none, modelImportChunkDone_parking, fun h hpark hst => ?_⟩
    obtain rfl := importIn_op h
    have hruns := modelImportChunkDone_runs h hpark hst
    refine ⟨hruns none, fun b => ?_⟩
    rw [hruns (some b)]
    exact ⟨fun hplain => congrArg next (importChunk_unopened hplain),
      fun p hplain hlast => ⟨_, congrArg next (importChunk_last hplain hlast), chunkWritten_io s x p⟩,
      fun p hplain hmore => ⟨_, congrArg next (importChunk_more hplain hmore), chunkWritten_progress s x p, chunkWritten_io s x p⟩⟩

end Sys2Proof.Proofs
end

section
/-! Commits that lock their registers and own their ranges (R148, R449, R494, R497, R531, R561, R596, R632). -/

namespace Sys2Proof.Proofs

open Sys2Proof Sys2Proof.Machine Sys2Proof.Safety Sys2Proof.Laws

variable {s v : State} {w : RegWrite} {f : RegField}

/-! ### Ranges placed (R632) -/

theorem placeRanges_refused {a n : Nat} (h : s.placeable a n = false) : s.placeRanges f [(a, n)] = s.put f 0 :=
  if_neg (by simp [h])

/-- One range that may be placed belongs to the device: only the third of STL_CTRL.COMMIT is the header pool. -/
theorem placeRanges_owns {a n : Nat} (h : s.placeable a n = true) : s.placeRanges f [(a, n)] =
    { s with t1 := s.t1.own (a / 4096) ((a + n - 1) / 4096 - a / 4096 + 1) (.device 544) } := by
  have howner : rangeOwner f 0 = .device 544 := if_neg (by simp)
  simp [State.placeRanges, h, howner]

/-- A field of one bit is 0 or 1. -/
theorem get_bit (s : State) (h : f.width = 1) : s.get f = 0 ∨ s.get f = 1 := by
  have hlt : s.get f < 2 ^ f.width := ((s.io.reg f.off).extractLsb' f.lo f.width).isLt
  rw [h] at hlt
  omega

/-- A commit bit that goes from 0 to 1 places its ranges. -/
theorem commitWrite_eq (hf : f.width = 1) (ranges : State → List (Nat × Nat)) : s.commitWrite w f ranges =
    if s.get f = 0 ∧ (s.store w f.off).get f = 1 then (s.store w f.off).placeRanges f (ranges (s.store w f.off)) else s.store w f.off := by
  obtain hold | hold := get_bit s hf
  · by_cases hnew : (s.store w f.off).get f = 1 <;> simp [State.commitWrite, State.on, hold, hnew]
  · simp [State.commitWrite, State.on, hold]

/-! ### The stall directory, the context table and the Yard map (R432, R497, R632) -/

/-- STL_CTRL written, before EN is held at 0 for two copies of the directory in one Hive. -/
def stlStored (s : State) (w : RegWrite) : State :=
  (s.commitWrite w Fld.STL_CTRL_COMMIT (fun v => [(v.get Fld.STL_DIR_BASE_BASE, 2 ^ 28), (v.get Fld.STL_DIR_BASE2_BASE, 2 ^ 28),
    (v.get Fld.STL_HDR_POOL_BASE, 4096 * v.get Fld.STL_HDR_SLOTS_SLOTS)])).enGate Fld.STL_CTRL_EN

theorem stlCommit_stores (h : MayWrite s w Reg.STL_CTRL) (hkeeps : s.get Fld.STL_CTRL_EN = 1 ∨ (stlStored s w).directoriesTogether = false) :
    exec (.stlCommit w) s = .next (stlStored s w) := by
  refine congrArg next ((fromPort_may h).trans (if_neg ?_))
  obtain hon | hapart := hkeeps
  · simp [on_of_one hon]
  · intro htogether
    exact absurd (Bool.and_eq_true_iff.mp htogether).2 (Bool.eq_false_iff.mp hapart)

theorem stlCommit_together (h : MayWrite s w Reg.STL_CTRL) (hoff : s.get Fld.STL_CTRL_EN = 0)
    (htogether : (stlStored s w).directoriesTogether = true) : exec (.stlCommit w) s = .next ((stlStored s w).put Fld.STL_CTRL_EN 0) :=
  congrArg next ((fromPort_may h).trans (if_pos (Bool.and_eq_true_iff.mpr ⟨by simp [on_of_zero hoff], htogether⟩)))

/-- SCH_CTX_CTRL written. -/
def schCtxStored (s : State) (w : RegWrite) : State :=
  (s.commitWrite w Fld.SCH_CTX_CTRL_COMMIT (fun v => [(v.get Fld.SCH_CTX_BASE_BASE, alignUp 4096 (256 * v.get Fld.SCH_CTX_SLOTS_SLOTS))])).enGate
    Fld.SCH_CTX_CTRL_EN

theorem schCtxCommit_stores (h : MayWrite s w Reg.SCH_CTX_CTRL) : exec (.schCtxCommit w) s = .next (schCtxStored s w) :=
  congrArg next (fromPort_may h)

/-- NW_CTRL written. -/
def nwStored (s : State) (w : RegWrite) : State :=
  (s.commitWrite w Fld.NW_CTRL_COMMIT (fun v => [(v.get Fld.NW_MAP_BASE_BASE, 131072)])).enGate Fld.NW_CTRL_EN

/-- The HELLOs go by the count at which EN was set. -/
theorem nwCommit_stores (h : MayWrite s w Reg.NW_CTRL) : ∃ u : State, exec (.nwCommit w) s = .next u ∧ u.io = (nwStored s w).io ∧
    u.t1 = (nwStored s w).t1 ∧ u.net.helloStart = if (nwStored s w).get Fld.NW_CTRL_EN = 1 then
      (if s.get Fld.NW_CTRL_EN = 1 then (nwStored s w).net.helloStart else some (nwStored s w).now) else none := by
  refine ⟨_, congrArg next (fromPort_may h), rfl, rfl, ?_⟩
  simp only [State.on, decide_eq_true_eq]
  rfl

/-! ### Commits that only store (R148, R510, R523, R531, R532, R561, R596) -/

theorem shCommit_stores (h : MayWrite s w Reg.SH_CTRL) : exec (.shCommit w) s = .next (s.store w Reg.SH_CTRL) := congrArg next (fromPort_may h)

theorem pwCommit_stores (h : MayWrite s w Reg.PW_CTRL) : exec (.pwCommit w) s = .next (s.store w Reg.PW_CTRL) := congrArg next (fromPort_may h)

theorem cpCommit_stores (h : MayWrite s w Reg.CP_CTRL) : exec (.cpCommit w) s = .next (s.store w Reg.CP_CTRL) := congrArg next (fromPort_may h)

/-- With CLR it clears the rates first, with RETURN it then moves the sources back. -/
theorem ckCommit_stores (h : MayWrite s w Reg.CK_CTRL) : exec (.ckCommit w) s = .next (
    let x := if (writeBits w).toNat.testBit 1 = true then (s.store w Reg.CK_CTRL).clearRates else s.store w Reg.CK_CTRL
    if (writeBits w).toNat.testBit 2 = true then x.returnAll else x) := congrArg next (fromPort_may h)

/-- PF_CTRL written. -/
def pfStored (s : State) (w : RegWrite) : State := (s.store w Reg.PF_CTRL).enGate Fld.PF_CTRL_EN

theorem pfCommit_stores (h : MayWrite s w Reg.PF_CTRL)
    (hrests : s.get Fld.PF_CTRL_EN = 1 ∨ (pfStored s w).get Fld.PF_CTRL_EN = 0 ∨ (pfStored s w).get Fld.PW_STATUS_PARKING = 1) :
    exec (.pfCommit w) s = .next (pfStored s w) := by
  refine (pfEnable_may h).trans (congrArg next (if_pos ?_))
  show (s.on Fld.PF_CTRL_EN || !(pfStored s w).on Fld.PF_CTRL_EN || (pfStored s w).on Fld.PW_STATUS_PARKING) = true
  obtain hon | hoff | hpark := hrests
  · simp [on_of_one hon]
  · simp [on_of_zero hoff]
  · simp [on_of_one hpark]

theorem pfCommit_reads (h : MayWrite s w Reg.PF_CTRL) (hoff : s.get Fld.PF_CTRL_EN = 0) (hset : (pfStored s w).get Fld.PF_CTRL_EN = 1)
    (hpark : (pfStored s w).get Fld.PW_STATUS_PARKING = 0) : exec (.pfCommit w) s =
      .next (((pfStored s w).pfObjects.filter (fun o => o.2.cls = 0)).foldl (fun u o => u.pfLoad o.1) (pfStored s w).pfTableRead) := by
  refine (pfEnable_may h).trans (congrArg next (if_neg ?_))
  show ¬ (s.on Fld.PF_CTRL_EN || !(pfStored s w).on Fld.PF_CTRL_EN || (pfStored s w).on Fld.PW_STATUS_PARKING) = true
  simp [on_of_zero hoff, on_of_one hset, on_of_zero hpark]

/-! ### GC_PORT_COMMIT (R494, R603) -/

/-- The management queue and ring of a port without MGMT stop. -/
def unmanage (io : Io) (n : Nat) : Io :=
  if io.get (Fld.GC_PORT_CFG_MGMT n) = 1 then io
  else
    let io := if io.get (qEn (4096 + n)) = 1 then io.stopQueue (4096 + n) else io
    if io.get (ringEn n) = 1 then io.stopRing n else io

theorem gcPortCommit_writes (h : MayWrite s w Reg.GC_PORT_CTRL) (hv : s.store w Reg.GC_PORT_CTRL = v) : exec (.gcPortCommit w) s =
    .next (if s.on Fld.GC_PORT_CTRL_COMMIT || !v.on Fld.GC_PORT_CTRL_COMMIT then v else { v with io := (List.range 4).foldl unmanage v.io }) := by
  subst hv
  exact congrArg next (fromPort_may h)

theorem unmanage_rests {io : Io} {n : Nat}
    (h : io.get (Fld.GC_PORT_CFG_MGMT n) = 1 ∨ (io.get (qEn (4096 + n)) ≠ 1 ∧ io.get (ringEn n) ≠ 1)) : unmanage io n = io := by
  obtain hmgmt | ⟨hqueue, hring⟩ := h
  · exact if_pos hmgmt
  · simp [unmanage, hqueue, hring]

/-- Where every port with a queue or ring has MGMT, the fold stops nothing. -/
theorem foldl_unmanage_rests {io : Io}
    (h : ∀ n < 4, io.get (Fld.GC_PORT_CFG_MGMT n) = 1 ∨ (io.get (qEn (4096 + n)) ≠ 1 ∧ io.get (ringEn n) ≠ 1)) :
    (List.range 4).foldl unmanage io = io :=
  List.foldlRecOn (motive := fun x => x = io) _ _ rfl (fun x hx n hn => by rw [hx]; exact unmanage_rests (h n (List.mem_range.mp hn)))

theorem gcPortCommit_stores (h : MayWrite s w Reg.GC_PORT_CTRL) (hv : s.store w Reg.GC_PORT_CTRL = v)
    (hrests : s.get Fld.GC_PORT_CTRL_COMMIT = 1 ∨ v.get Fld.GC_PORT_CTRL_COMMIT = 0 ∨
      ∀ n < 4, v.get (Fld.GC_PORT_CFG_MGMT n) = 1 ∨ (v.get (qEn (4096 + n)) ≠ 1 ∧ v.get (ringEn n) ≠ 1)) :
    exec (.gcPortCommit w) s = .next v := by
  refine (gcPortCommit_writes h hv).trans (congrArg next ?_)
  obtain hold | hnew | hmanaged := hrests
  · exact if_pos (by simp [on_of_one hold])
  · exact if_pos (by simp [on_of_zero hnew])
  · rw [foldl_unmanage_rests hmanaged]
    exact ite_self v

theorem gcPortCommit_stops (h : MayWrite s w Reg.GC_PORT_CTRL) (hv : s.store w Reg.GC_PORT_CTRL = v)
    (hold : s.get Fld.GC_PORT_CTRL_COMMIT = 0) (hnew : v.get Fld.GC_PORT_CTRL_COMMIT = 1) :
    exec (.gcPortCommit w) s = .next { v with io := (List.range 4).foldl unmanage v.io } :=
  (gcPortCommit_writes h hv).trans (congrArg next (if_neg (by simp [on_of_zero hold, on_of_one hnew])))

/-! ### SEC_COMMIT (R449) -/

theorem secCommit_rests (h : MayWrite s w Reg.SEC_CTRL) (hrests : s.get Fld.SEC_CTRL_COMMIT = 1 ∨ s.wouldGet w Fld.SEC_CTRL_COMMIT = 0) :
    exec (.secCommit w) s = .next s := by
  refine congrArg next ((fromPort_may h).trans (if_neg ?_))
  obtain hold | hnew := hrests
  · simp [on_of_one hold]
  · simp [hnew]

theorem secCommit_fixes (h : MayWrite s w Reg.SEC_CTRL) (hold : s.get Fld.SEC_CTRL_COMMIT = 0) (hnew : s.wouldGet w Fld.SEC_CTRL_COMMIT = 1) :
    exec (.secCommit w) s = .next (((s.setSec { s.sec with
      measured := (List.range 9).map (fun i => (i + 1, s.presentMeasurement (i + 1))) }).put Fld.SEC_CTRL_COMMIT 1).put Fld.SEC_STATE_COMMITTED 1) :=
  congrArg next ((fromPort_may h).trans (if_pos (by simp [on_of_zero hold, hnew])))

end Sys2Proof.Proofs
end

section
/-! Bring-up: reset, ROM, loads, GO, READY_REQ, training, test and timeouts (R494 to R514). -/

namespace Sys2Proof.Proofs

open Sys2Proof Sys2Proof.Machine Sys2Proof.Safety Sys2Proof.Laws

variable {s v : State} {w : RegWrite}

/-! ### DEV_RST and ROM (R495, R496) -/

/-- Reset values but for the latched fatal event; what has left the device, the free values drawn and the waiting commands stand. -/
theorem deviceReset_eq (s : State) : s.deviceReset = { State.reset with
    io := { regs := s.io.regs.filter (fun e => [Reg.EV_FATAL, Reg.EV_FATAL_YT].contains e.1), out := s.io.out },
    freeIdx := s.freeIdx, pending := s.pending } := rfl

theorem romDone_elsewhere (h : s.get Fld.BU_STATE_STATE ≠ 1) (r : RomResult) : exec (.romDone r) s = .next s := congrArg next (if_pos h)

theorem romDone_crystal {r : RomResult} (h : s.get Fld.BU_STATE_STATE = 1) (hcrystal : r.crystal = false) :
    exec (.romDone r) s = .next (s.failBringUp 0x0A 0) :=
  congrArg next ((if_neg (not_not_intro h)).trans (if_pos (by simp [hcrystal])))

theorem romDone_fuses {r : RomResult} (h : s.get Fld.BU_STATE_STATE = 1) (hcrystal : r.crystal = true) (hfuses : r.fuses = false) :
    exec (.romDone r) s = .next (s.failBringUp 0x0A 1) :=
  congrArg next ((if_neg (not_not_intro h)).trans ((if_neg (by simp [hcrystal])).trans (if_pos (by simp [hfuses]))))

theorem romDone_passes {r : RomResult} (h : s.get Fld.BU_STATE_STATE = 1) (hcrystal : r.crystal = true) (hfuses : r.fuses = true) :
    exec (.romDone r) s = .next (s.romPassed r) :=
  congrArg next ((if_neg (not_not_intro h)).trans ((if_neg (by simp [hcrystal])).trans (if_neg (by simp [hfuses]))))

/-! ### BU_LOAD_START (R498) -/

/-- BU_LOAD_CMD written, START as it was. -/
def loadStored (s : State) (w : RegWrite) : State := s.storePut w Fld.BU_LOAD_CMD_START (s.get Fld.BU_LOAD_CMD_START)

theorem loadStored_bu (s : State) (w : RegWrite) : (loadStored s w).bu = s.bu := (State.storePut_frame s w _ _).1.1 .bu (by decide)

/-- A length of whole blocks, up to 16 MiB. -/
def LoadLength (n : Nat) : Prop := 64 ≤ n ∧ n ≤ 2 ^ 24 ∧ n % 64 = 0

/-- The load of an image begun. -/
def loadBegun (v : State) : State :=
  let u := (v.put Fld.BU_LOAD_CMD_START 1).put Fld.BU_LOAD_CMD_BUSY 1
  u.setBu { u.bu with loading := some (v.get Fld.BU_LOAD_CMD_KIND, u.get Fld.BU_LOAD_SRC_ADDR, v.get Fld.BU_LOAD_LEN_BYTES) }

theorem buLoadStart_stores (h : MayWrite s w Reg.BU_LOAD_CMD)
    (hrests : (writeBits w).toNat.testBit 8 = false ∨ (loadStored s w).get Fld.BU_STATE_STATE ≠ 2) :
    exec (.buLoadStart w) s = .next (loadStored s w) := by
  refine congrArg next ((fromPort_may h).trans (if_pos ?_))
  show (!(writeBits w).toNat.testBit 8 || decide ((loadStored s w).get Fld.BU_STATE_STATE ≠ 2)) = true
  obtain hstart | hstate := hrests
  · simp [hstart]
  · simp [hstate]

/-- A START in LOAD. -/
structure LoadAsked (s : State) (w : RegWrite) : Prop where
  may : MayWrite s w Reg.BU_LOAD_CMD
  start : (writeBits w).toNat.testBit 8 = true
  state : (loadStored s w).get Fld.BU_STATE_STATE = 2

/-- It is refused while a load runs, and else goes by its kind and its length. -/
theorem buLoadStart_asked (h : LoadAsked s w) (hv : loadStored s w = v) : exec (.buLoadStart w) s =
    .next (s.bu.loading.elim (if 2 < v.get Fld.BU_LOAD_CMD_KIND then v
      else if v.get Fld.BU_LOAD_LEN_BYTES < 64 || decide (2 ^ 24 < v.get Fld.BU_LOAD_LEN_BYTES) || v.get Fld.BU_LOAD_LEN_BYTES % 64 ≠ 0 then v.buErr 0x03 0
      else loadBegun v) (fun l => v.buErr 0x0B l.1)) := by
  subst hv
  obtain ⟨hmay, hstart, hstate⟩ := h
  have hgo : ¬ (!(writeBits w).toNat.testBit 8 || decide ((loadStored s w).get Fld.BU_STATE_STATE ≠ 2)) = true := by simp [hstart, hstate]
  refine congrArg next ((fromPort_may hmay).trans ((if_neg hgo).trans ?_))
  rw [← loadStored_bu s w]
  show (match (loadStored s w).bu.loading with | some l => _ | none => _) = _
  cases (loadStored s w).bu.loading <;> rfl

theorem buLoadStart_busy {l : Nat × Nat × Nat} (h : LoadAsked s w) (hv : loadStored s w = v) (hl : s.bu.loading = some l) :
    exec (.buLoadStart w) s = .next (v.buErr 0x0B l.1) := by
  rw [buLoadStart_asked h hv, hl]
  rfl

theorem buLoadStart_noKind (h : LoadAsked s w) (hv : loadStored s w = v) (hl : s.bu.loading = none) (hkind : 2 < v.get Fld.BU_LOAD_CMD_KIND) :
    exec (.buLoadStart w) s = .next v := by
  rw [buLoadStart_asked h hv, hl]
  exact congrArg next (if_pos hkind)

theorem buLoadStart_badLength (h : LoadAsked s w) (hv : loadStored s w = v) (hl : s.bu.loading = none) (hkind : v.get Fld.BU_LOAD_CMD_KIND ≤ 2)
    (hlen : ¬ LoadLength (v.get Fld.BU_LOAD_LEN_BYTES)) : exec (.buLoadStart w) s = .next (v.buErr 0x03 0) := by
  rw [buLoadStart_asked h hv, hl]
  refine congrArg next ((if_neg (by omega)).trans (if_pos ?_))
  simp only [LoadLength] at hlen
  simp only [Bool.or_eq_true, decide_eq_true_eq]
  omega

theorem buLoadStart_begins (h : LoadAsked s w) (hv : loadStored s w = v) (hl : s.bu.loading = none) (hkind : v.get Fld.BU_LOAD_CMD_KIND ≤ 2)
    (hlen : LoadLength (v.get Fld.BU_LOAD_LEN_BYTES)) : exec (.buLoadStart w) s = .next (loadBegun v) := by
  rw [buLoadStart_asked h hv, hl]
  refine congrArg next ((if_neg (by omega)).trans (if_neg ?_))
  simp only [LoadLength] at hlen
  simp only [Bool.or_eq_true, decide_eq_true_eq]
  omega

/-! ### BU_LOAD_DONE (R498 to R503) -/

theorem buLoadDone_idle (h : s.bu.loading = none) (b : Option (List Byte)) : exec (.buLoadDone b) s = .next s := by
  show execBuLoadDone b s = _
  simp only [execBuLoadDone, h]

/-- The load no longer running. -/
def loadEnded (s : State) : State := (s.setBu { s.bu with loading := none }).put Fld.BU_LOAD_CMD_BUSY 0

/-- The image that the host's bytes make up: what is missing of the length asked for reads as 0. -/
def imageRead (len : Nat) (a : List Byte) : List Byte := tabulate len (fun i => a.getD i 0)

/-- Image `kind` kept, and marked loaded. -/
def imageLoaded (v : State) (kind : Nat) (image : List Byte) : State :=
  let y := v.put Fld.BU_LOAD_CMD_LOADED (putBit (v.get Fld.BU_LOAD_CMD_LOADED) kind true)
  (y.setBu { y.bu with images := sparsePut [] kind image y.bu.images }).buErr 0 0

theorem buLoadDone_bus {kind src len : Nat} (h : s.bu.loading = some (kind, src, len)) :
    exec (.buLoadDone none) s = .next ((loadEnded s).buErr 0x04 kind) := by
  show execBuLoadDone none s = _
  simp only [execBuLoadDone, h]
  rfl

/-- The bytes that came are checked: the image is kept, or its fault reported. -/
theorem buLoadDone_checks {kind src len : Nat} (h : s.bu.loading = some (kind, src, len)) (a : List Byte) : exec (.buLoadDone (some a)) s =
    .next ((loadFault kind (imageRead len a)).elim (imageLoaded (loadEnded s) kind (imageRead len a)) (fun e => (loadEnded s).buErr e.1 e.2)) := by
  show execBuLoadDone (some a) s = _
  simp only [execBuLoadDone, h, imageRead]
  cases loadFault kind (tabulate len (fun i => a.getD i 0)) <;> rfl

theorem buLoadDone_fault {kind src len code detail : Nat} {a : List Byte} (h : s.bu.loading = some (kind, src, len))
    (hfault : loadFault kind (imageRead len a) = some (code, detail)) : exec (.buLoadDone (some a)) s = .next ((loadEnded s).buErr code detail) := by
  rw [buLoadDone_checks h, hfault]
  rfl

theorem buLoadDone_loads {kind src len : Nat} {a : List Byte} (h : s.bu.loading = some (kind, src, len))
    (hok : loadFault kind (imageRead len a) = none) :
    exec (.buLoadDone (some a)) s = .next (imageLoaded (loadEnded s) kind (imageRead len a)) := by
  rw [buLoadDone_checks h, hok]
  rfl

/-! ### GO and READY_REQ (R449, R504, R509, R511) -/

/-- Both rows that write BU_CTRL act on its GO bit and then on its READY_REQ bit. -/
theorem buCtrl_acts {c : Instr} (hc : c ∈ [Instr.buGo w, .buReadyReq w]) (h : MayWrite s w Reg.BU_CTRL)
    (hv : (if (writeBits w).toNat.testBit 0 = true then s.buGo else s) = v) :
    exec c s = .next (if (writeBits w).toNat.testBit 1 = true then v.buReady else v) := by
  have hwrite : exec c s = .next (s.writeBuCtrl w) := by
    obtain rfl | rfl : c = .buGo w ∨ c = .buReadyReq w := by simpa using hc
    · rfl
    · rfl
  subst hv
  exact hwrite.trans (congrArg next (fromPort_may h))

/-- A write that asks for GO alone. -/
theorem buGo_alone (h : MayWrite s w Reg.BU_CTRL) (hgo : (writeBits w).toNat.testBit 0 = true) (hready : (writeBits w).toNat.testBit 1 = false) :
    exec (.buGo w) s = .next s.buGo := by
  rw [buCtrl_acts List.mem_cons_self h (if_pos hgo), hready]
  rfl

/-- A write that asks for READY alone. -/
theorem buReady_alone (h : MayWrite s w Reg.BU_CTRL) (hgo : (writeBits w).toNat.testBit 0 = false)
    (hready : (writeBits w).toNat.testBit 1 = true) : exec (.buReadyReq w) s = .next s.buReady := by
  rw [buCtrl_acts (List.mem_cons_of_mem _ List.mem_cons_self) h (if_neg (by simp [hgo])), if_pos hready]

theorem buGo_elsewhere (hload : s.get Fld.BU_STATE_STATE ≠ 2) (hcompare : s.get Fld.BU_STATE_STATE ≠ 5) : s.buGo = s := by
  unfold State.buGo
  split
  · contradiction
  · contradiction
  · rfl

theorem buGo_busy {l : Nat × Nat × Nat} (hstate : s.get Fld.BU_STATE_STATE = 2) (hl : s.bu.loading = some l) : s.buGo = s.buErr 0x0B l.1 := by
  simp only [State.buGo, hstate, hl]

theorem buGo_incomplete (hstate : s.get Fld.BU_STATE_STATE = 2) (hl : s.bu.loading = none) (h : s.get Fld.BU_LOAD_CMD_LOADED ≠ 7) :
    s.buGo = s.buErr 0x05 (s.get Fld.BU_LOAD_CMD_LOADED) := by
  simp only [State.buGo, hstate, hl]
  exact if_pos h

/-- The images measured and the repairs taken from theirs. -/
def imagesTaken (s : State) : State :=
  let image (k : Nat) : List Byte := sparseGet [] s.bu.images k
  let u := s.put Fld.BU_CTRL_GO 1
  let u := u.setSec { u.sec with images := [(3, Config.sha384 (image 0)), (4, Config.sha384 (image 1)), (5, Config.sha384 (image 2))] }
  u.setBu { u.bu with repairs := repairEntries (image 2) }

theorem buGo_trains (hstate : s.get Fld.BU_STATE_STATE = 2) (hl : s.bu.loading = none) (h : s.get Fld.BU_LOAD_CMD_LOADED = 7) :
    s.buGo = (((imagesTaken s).put Fld.BU_STATE_STATE 3).stepEnded 1).buErr 0 0 := by
  simp only [State.buGo, hstate, hl]
  exact if_neg (not_not_intro h)

theorem buGo_compares (hstate : s.get Fld.BU_STATE_STATE = 5) :
    s.buGo = (if s.topologyAccepted then s.put Fld.BU_CTRL_GO 1 else s).compareTopology := by
  simp only [State.buGo, hstate]

theorem buGo_accepts (hstate : s.get Fld.BU_STATE_STATE = 5) (h : s.topologyAccepted = true) : s.buGo = (s.put Fld.BU_CTRL_GO 1).compareTopology := by
  rw [buGo_compares hstate, if_pos h]

theorem buGo_mismatch (hstate : s.get Fld.BU_STATE_STATE = 5) (h : s.topologyAccepted = false) : s.buGo = s.buErr 0x06 0 := by
  rw [buGo_compares hstate, if_neg (by simp [h])]
  exact if_neg (by simp [h])

theorem buReady_elsewhere (h : s.get Fld.BU_STATE_STATE ≠ 6) : s.buReady = s := if_pos h

theorem buReady_missing (h : s.get Fld.BU_STATE_STATE = 6) (hmissing : s.readyMissing ≠ 0) : s.buReady = s.buErr 0x07 s.readyMissing :=
  (if_neg (not_not_intro h)).trans (if_pos hmissing)

theorem buReady_readies (h : s.get Fld.BU_STATE_STATE = 6) (hmissing : s.readyMissing = 0) : s.buReady =
    (((((s.put Fld.BU_CTRL_READY_REQ 1).put Fld.BU_STATE_STATE 7).stepEnded 6).stepEnded 7).stepEnded 8).buErr 0 0 :=
  (if_neg (not_not_intro h)).trans (if_neg (not_not_intro hmissing))

/-! ### Training, test and timeouts (R505 to R509, R513, R514) -/

theorem buTrainDone_elsewhere (h : s.get Fld.BU_STATE_STATE ≠ 3) (l : List FoundUnit) : exec (.buTrainDone l) s = .next s := congrArg next (if_pos h)

theorem buTrainDone_binds (h : s.get Fld.BU_STATE_STATE = 3) (l : List FoundUnit) : exec (.buTrainDone l) s =
    .next (((((List.range 16).foldl (fun v h => v.bindChannels h) (s.recordFound l)).stepEnded 2).stepEnded 3).put Fld.BU_STATE_STATE 4) :=
  congrArg next (if_neg (not_not_intro h))

theorem buTestDone_elsewhere (h : s.get Fld.BU_STATE_STATE ≠ 4) (l : List FoundUnit) (engines : List Nat) :
    exec (.buTestDone l engines) s = .next s := congrArg next (if_pos h)

/-- What the quick test found recorded, and every unit bound. -/
def quickTested (s : State) (l : List FoundUnit) (engines : List Nat) : State := ((s.recordFound l).bindUnits engines).stepEnded 4

theorem buTestDone_below {l : List FoundUnit} {engines : List Nat} (h : s.get Fld.BU_STATE_STATE = 4)
    (hbelow : (quickTested s l engines).belowMinimum ≠ 0) : exec (.buTestDone l engines) s =
      .next ((quickTested s l engines).failBringUp 0x08 (quickTested s l engines).belowMinimum) :=
  congrArg next ((if_neg (not_not_intro h)).trans (if_pos hbelow))

theorem buTestDone_surveys {l : List FoundUnit} {engines : List Nat} (h : s.get Fld.BU_STATE_STATE = 4)
    (hbelow : (quickTested s l engines).belowMinimum = 0) : exec (.buTestDone l engines) s =
      .next ((((quickTested s l engines).buildSurvey.put Fld.BU_STATE_STATE 5).stepEnded 5).compareTopology) :=
  congrArg next ((if_neg (not_not_intro h)).trans (if_neg (not_not_intro hbelow)))

theorem buStepTimeout_fails {k : Nat} (h : s.inStep k = true) : exec (.buStepTimeout k) s = .next (s.failBringUp 0x09 k) := congrArg next (if_pos h)

theorem buStepTimeout_rests {k : Nat} (h : s.inStep k = false) : exec (.buStepTimeout k) s = .next s := congrArg next (if_neg (by simp [h]))

/-! ### The statement's parts, assembled -/

/-- Settles O56: a commit by its bit before and after the write, a reset by what it keeps, each step of bring-up by its state and what the step found (a
reserved KIND, IMAGE_FORMAT without detail, and the queues that stop at COMMIT: log entry 64). -/
theorem commitsAndBringUp : Obligations.CommitsAndBringUp := by
  refine fun s => ⟨fun f a n => ⟨placeRanges_refused, fun h => ?ranges⟩, fun w h => ?stl, fun w h => ?sch, fun w h => ?nw, fun w => ?stores,
    ⟨congrArg next (deviceReset_eq s), congrArg (fun u : State => next ((u.put Fld.BU_STATE_STATE 1).put Fld.BU_STRAP_PORT Config.strapPort.val))
      (deviceReset_eq s)⟩,
    fun r => ⟨fun h => romDone_elsewhere h r, romDone_crystal, romDone_fuses, romDone_passes⟩,
    fun w h hstart => buLoadStart_stores h (.inl hstart), fun w h hstart => ?loadStart, fun b => ⟨fun h => buLoadDone_idle h b, fun kind src len h => ?loadDone⟩,
    fun w h => ⟨fun c hc => buCtrl_acts hc h rfl, fun hgo hready => ?go, fun hgo hready => ?ready⟩,
    fun l engines => ⟨fun h => buTrainDone_elsewhere h l, fun h => buTrainDone_binds h l, fun h => buTestDone_elsewhere h l engines,
      fun h => ⟨buTestDone_below h, buTestDone_surveys h⟩⟩,
    fun k => ⟨buStepTimeout_fails, buStepTimeout_rests⟩⟩
  case ranges =>
    rw [placeRanges_owns h]
    exact ⟨rfl, rfl⟩
  case stl =>
    intro v x
    have hx : stlStored s w = x := congrArg (·.enGate Fld.STL_CTRL_EN) (commitWrite_eq rfl _)
    rw [← hx]
    exact ⟨stlCommit_stores h, stlCommit_together h⟩
  case sch => exact (schCtxCommit_stores h).trans (congrArg (fun u : State => next (u.enGate Fld.SCH_CTX_CTRL_EN)) (commitWrite_eq rfl _))
  case nw =>
    intro v x
    have hx : nwStored s w = x := congrArg (·.enGate Fld.NW_CTRL_EN) (commitWrite_eq rfl _)
    rw [← hx]
    exact nwCommit_stores h
  case stores =>
    exact ⟨shCommit_stores, pwCommit_stores, cpCommit_stores, ckCommit_stores, fun h => ⟨pfCommit_stores h, pfCommit_reads h⟩,
      fun h => gcPortCommit_stores h rfl, fun h => gcPortCommit_stops h rfl, fun h => ⟨secCommit_rests h, secCommit_fixes h⟩⟩
  case loadStart =>
    refine ⟨fun hstate => buLoadStart_stores h (.inr hstate), fun l hstate => buLoadStart_busy ⟨h, hstart, hstate⟩ rfl,
      fun hstate => buLoadStart_noKind ⟨h, hstart, hstate⟩ rfl, fun hstate hl hkind => ⟨fun hlen => ?_, fun hmin hmax hblocks => ?_⟩⟩
    · exact buLoadStart_badLength ⟨h, hstart, hstate⟩ rfl hl hkind (fun ⟨hmin, hmax, hblocks⟩ => by omega)
    · exact ⟨_, buLoadStart_begins ⟨h, hstart, hstate⟩ rfl hl hkind ⟨hmin, hmax, hblocks⟩, rfl, rfl⟩
  case loadDone =>
    refine ⟨fun hb => ?_, fun a code detail hb => ?_, fun a hb => ?_⟩
    · rw [hb]
      exact buLoadDone_bus h
    · rw [hb]
      exact buLoadDone_fault h
    · rw [hb]
      exact buLoadDone_loads h
  case go =>
    rw [buGo_alone h hgo hready]
    exact ⟨fun hload hcompare => congrArg next (buGo_elsewhere hload hcompare), fun l hstate hl => congrArg next (buGo_busy hstate hl),
      fun hstate hok => congrArg next (buGo_accepts hstate hok), fun hstate hl hloaded => congrArg next (buGo_incomplete hstate hl hloaded),
      fun hstate hl hloaded => ⟨imagesTaken s, congrArg next (buGo_trains hstate hl hloaded), rfl, rfl⟩,
      fun hstate hno => congrArg next (buGo_mismatch hstate hno)⟩
  case ready =>
    rw [buReady_alone h hgo hready]
    exact ⟨fun hstate => congrArg next (buReady_elsewhere hstate), fun hstate hmissing => congrArg next (buReady_missing hstate hmissing),
      fun hstate hmissing => congrArg next (buReady_readies hstate hmissing)⟩

end Sys2Proof.Proofs
end

section
/-! The event registers and the sideband: events counted, flagged and latched, and the writes to the rings, the masks and the flags (R414, R598 to R610, R629). -/

namespace Sys2Proof.Proofs

open Sys2Proof Sys2Proof.Machine Sys2Proof.Safety Sys2Proof.Laws

variable {s : State} {w : RegWrite} {r code : Nat}

/-! ### Where an event is flagged (R598, R609) -/

/-- An offset apart from EV_TOTAL, EV_NMI, the FATAL latch and EV_MASK: those from EV_TOTAL to EV_FATAL_YT, and the 64 from EV_MASK[0] on. -/
abbrev AsideLatch (off : Nat) : Prop := (off < Reg.EV_TOTAL ∨ Reg.EV_FLAGS ≤ off) ∧ (off < Reg.EV_MASK 0 ∨ Reg.EV_MASK 64 ≤ off)

/-- A flag's bit lies in its register and its counter in another, both apart from what an event latches or is masked by. -/
abbrev FlagPlace (p : Nat × Nat × Nat × Nat) : Prop :=
  p.2.1 < 64 ∧ p.2.2.2 < 8 ∧ p.1 ≠ p.2.2.1 ∧ AsideLatch p.1 ∧ AsideLatch p.2.2.1

/-- What a search for a flag finds is a flag's place. -/
def FlagPlaces (o : Option (Nat × Nat × Nat × Nat)) : Prop := ∀ p, o = some p → FlagPlace p

theorem flagPlaces_orElse {a b : Option (Nat × Nat × Nat × Nat)} (ha : FlagPlaces a) (hb : FlagPlaces b) : FlagPlaces (a <|> b) :=
  fun p h => (orElse_some h).elim (ha p) (hb p)

theorem flagPlaces_some {p : Nat × Nat × Nat × Nat} (h : FlagPlace p) : FlagPlaces (some p) := fun _ hp => Option.some.inj hp ▸ h

/-- A run of up to eight codes has its flags and counts side by side in two registers. -/
theorem flagPlaces_run {first n flags count : Nat} (hn : n ≤ 8) (hne : flags ≠ count) (hflags : AsideLatch flags) (hcount : AsideLatch count) :
    FlagPlaces (if first ≤ code ∧ code < first + n then some (flags, code - first, count, code - first) else none) := by
  intro p hp
  by_cases h : first ≤ code ∧ code < first + n
  · rw [if_pos h] at hp
    obtain rfl := Option.some.inj hp
    exact ⟨by show code - first < 64; omega, by show code - first < 8; omega, hne, hflags, hcount⟩
  · rw [if_neg h] at hp
    cases hp

/-- Codes with a flag of their own first, then the runs of the units. -/
theorem eventFlag_places (code : Nat) : FlagPlaces (eventFlag code) := by
  unfold eventFlag
  dsimp only
  split
  case h_15 =>
    repeat' apply flagPlaces_orElse
    all_goals exact flagPlaces_run (by decide) (by decide) (by decide) (by decide)
  all_goals exact flagPlaces_some (by decide)

/-! ### An event noted (R606, R609) -/

theorem note_reg_aside {off : Nat} (h : ¬ AsideLatch off) (htotal : off ≠ Reg.EV_TOTAL) (code : Nat) (io : Io) : (io.note code).reg off = io.reg off := by
  cases hflag : eventFlag code with
  | none =>
    simp only [Io.note, hflag]
    exact reg_bump_other _ _ _ _ htotal
  | some p =>
    obtain ⟨flags, bit, count, byte⟩ := p
    obtain ⟨-, -, -, hflags, hcount⟩ := eventFlag_places code _ hflag
    exact note_reg hflag ⟨htotal, fun he => h (he ▸ hflags), fun he => h (he ▸ hcount)⟩ io

/-- Noting an event sets its flag, and moves its counter and EV_TOTAL on. -/
theorem note_flagged {flags bit count byte : Nat} (h : eventFlag code = some (flags, bit, count, byte)) (io : Io) :
    (io.note code).get ⟨flags, bit, 1⟩ = 1 ∧ (io.note code).get ⟨count, 8 * byte, 8⟩ = (io.get ⟨count, 8 * byte, 8⟩ + 1) % 256 ∧
      (io.note code).get Fld.EV_TOTAL_COUNT = (io.get Fld.EV_TOTAL_COUNT + 1) % 2 ^ 64 := by
  obtain ⟨hbit, hbyte, hne, hflags, hcount⟩ := eventFlag_places code _ h
  have htotal : ∀ {off : Nat}, AsideLatch off → off ≠ Reg.EV_TOTAL := fun ⟨hx, _⟩ he => by subst he; revert hx; decide
  simp only at hbit hbyte hne
  simp only [Io.note, h, Io.setFlag]
  refine ⟨?_, ?_, ?_⟩
  · rw [get_bump_other _ _ _ _ (.inl hne), get_put_same _ _ _ (by show bit + 1 ≤ 64; omega)]
    rfl
  · rw [get_bump_same _ _ _ (by show 8 * byte + 8 ≤ 64; omega), get_put_other _ _ _ _ (.inl hne.symm), get_bump_other _ _ _ _ (.inl (htotal hcount))]
    rfl
  · rw [get_bump_other _ _ _ _ (.inl (htotal hcount).symm), get_put_other _ _ _ _ (.inl (htotal hflags).symm), get_bump_same _ _ _ (by decide)]

/-! ### An event raised (R414, R599, R601) -/

theorem eventClass_lt {cls : EventClass} (h : eventClass code = some cls) : code < 4096 := by
  have hinfo : ∀ k ∈ eventsInfo, k < 4096 := by decide
  have hwarn : ∀ k ∈ eventsWarn, k < 4096 := by decide
  have herror : ∀ k ∈ eventsError, k < 4096 := by decide
  have hfatal : ∀ k ∈ eventsFatal, k < 4096 := by decide
  have hnmi : ∀ k ∈ eventsNmi, k < 4096 := by decide
  by_contra hlarge
  have hout : ∀ l : List Nat, (∀ k ∈ l, k < 4096) → code ∉ l := fun l hl hc => hlarge (hl code hc)
  simp [eventClass, hout _ hinfo, hout _ hwarn, hout _ herror, hout _ hfatal, hout _ hnmi] at h

/-- Noting an event does not unmask it. -/
theorem note_masked {cls : EventClass} (h : eventClass code = some cls) (io : Io) : (io.note code).masked code = io.masked code := by
  have hlt := eventClass_lt h
  have hreg := note_reg_aside (off := Reg.EV_MASK (code / 64)) (by simp only [AsideLatch, Reg.EV_MASK]; omega)
    (by simp only [Reg.EV_MASK, Reg.EV_TOTAL]; omega) code io
  simp only [Io.masked, hreg]

theorem raise_masked {e : Event} {cls : EventClass} (h : eventClass e.code = some cls) (hfatal : cls ≠ .fatal) (hmask : s.io.masked e.code = true) :
    s.raise e = { s with io := s.io.note e.code } := by
  simp [State.raise, Io.raise, h, hfatal, note_masked h, hmask]

theorem raise_reserved {e : Event} (h : eventClass e.code = none) : s.raise e = s := by
  simp [State.raise, Io.raise, h]

theorem latchFatal_first {io : Io} {now : Nat} (h : io.get Fld.EV_FATAL_VALID = 0) :
    let u := io.latchFatal code now
    u.get Fld.EV_FATAL_VALID = 1 ∧ u.get Fld.EV_FATAL_CODE = code % 2 ^ 16 ∧ u.get Fld.EV_FATAL_YT_NS = now % 2 ^ 64 := by
  simp only [Io.latchFatal, h, Nat.zero_ne_one, if_false]
  refine ⟨?_, ?_, get_put_same _ _ _ (by decide)⟩
  · exact (get_put_other _ _ _ _ (by decide)).trans (get_put_same _ _ _ (by decide))
  · exact ((get_put_other _ _ _ _ (by decide)).trans (get_put_other _ _ _ _ (by decide))).trans (get_put_same _ _ _ (by decide))

theorem latchFatal_latched {io : Io} (h : io.get Fld.EV_FATAL_VALID = 1) (code now : Nat) : io.latchFatal code now = { io with fatal := true } := by
  simp [Io.latchFatal, h]

/-- A fatal event is noted and latched, and goes to no ring. -/
theorem fatalEvent_latches (h : eventClass code = some .fatal) :
    exec (.fatalEvent code) s = .next { s with io := (s.io.note code).latchFatal code s.now } := by
  refine congrArg next ((if_pos h).trans ?_)
  simp [State.raise, Io.raise, h]

theorem fatalEvent_rests (h : eventClass code ≠ some .fatal) : exec (.fatalEvent code) s = .next s := congrArg next (if_neg h)

/-- Noting an event leaves the FATAL latch. -/
theorem note_fatalLatch {f : RegField} (h : f.off = Reg.EV_FATAL ∨ f.off = Reg.EV_FATAL_YT) (code : Nat) (io : Io) : (io.note code).get f = io.get f := by
  have hreg : (io.note code).reg f.off = io.reg f.off := by
    obtain h | h := h <;> rw [h] <;> exact note_reg_aside (by decide) (by decide) code io
  simp only [Io.get, hreg]

/-- Settles O17: the place of every flag by the runs of codes, and an event by its class, its mask and the latch. -/
theorem eventsCountedAndFlagged : Obligations.EventsCountedAndFlagged := by
  intro s e
  refine ⟨fun flags bit count byte h => note_flagged h s.io, fun cls => raise_masked, raise_reserved, fun h => ?_, fun code => fatalEvent_rests⟩
  have hkeeps : ∀ {f : RegField}, f.off = Reg.EV_FATAL ∨ f.off = Reg.EV_FATAL_YT → (s.io.note e.code).get f = s.get f :=
    fun hf => note_fatalLatch hf e.code s.io
  refine ⟨_, fatalEvent_latches h, rfl, ?_⟩
  have hvalid := hkeeps (f := Fld.EV_FATAL_VALID) (.inl rfl)
  obtain hnone | hsome := get_bit s (f := Fld.EV_FATAL_VALID) rfl
  · obtain ⟨hv, hcode, hyt⟩ := latchFatal_first (code := e.code) (now := s.now) (hvalid.trans hnone)
    exact ⟨hv, fun _ => ⟨hcode, hyt⟩, fun h1 => absurd (h1.symm.trans hnone) (by decide)⟩
  · rw [latchFatal_latched (hvalid.trans hsome)]
    exact ⟨hvalid.trans hsome, fun h0 => absurd (h0.symm.trans hsome) (by decide), fun _ => ⟨hkeeps (.inl rfl), hkeeps (.inr rfl)⟩⟩

/-! ### The rings' registers (R603, R605, R607) -/

/-- What a write would leave in a ring's CTRL. -/
def ringCtrlValue (s : State) (w : RegWrite) (r : Nat) : Word := blend (s.reg (ringBase r + 16)) (writeBits w) (writeMask w)

/-- Whether the port of a write owns a ring: a tenant ring's tenant is bound to it and admitted on it; a management ring is the port's own. -/
def ringOwned (u : State) (w : RegWrite) (r : Nat) : Bool :=
  match ringTenant r with
  | some t => u.bound w.port t && u.portAllowed t w.port
  | none => decide (r = w.port) && u.portMgmt w.port

/-- A ring's base and size are ones that R603 enables, on a port that owns it. -/
def RingReady (u : State) (w : RegWrite) (r : Nat) : Prop :=
  u.get (ringAddr r) % 4096 = 0 ∧ 6 ≤ u.get (ringLog2 r) ∧ u.get (ringLog2 r) ≤ 16 ∧ ringOwned u w r = true

theorem ringChecks_iff {u : State} : (decide (u.get (ringAddr r) % 4096 = 0) && decide (6 ≤ u.get (ringLog2 r)) && decide (u.get (ringLog2 r) ≤ 16) &&
    ringOwned u w r) = true ↔ RingReady u w r := by
  simp only [RingReady, Bool.and_eq_true, decide_eq_true_eq, and_assoc]

theorem setRing_get (io : Io) (r : Nat) (x : RingX) (f : RegField) : (io.setRing r x).get f = io.get f := rfl

theorem setRing_ring_same (io : Io) (r : Nat) (x : RingX) : (io.setRing r x).ring r = x :=
  sparseGet_put_same ({} : RingX) r x io.rings

/-- Ring `r` as it starts on port `port`, nothing left unsignalled. -/
def startRing (r port : Nat) (io : Io) : Io :=
  ((((((io.put (ringHead r) 0).put (ringTail r) 0).put (ringLost r) 0).put (ringPhase r) 1).put (ringPort r) port).put (ringEn r) 1).setRing r {}

theorem startRing_ring (r port : Nat) (io : Io) : (startRing r port io).ring r = {} := by
  rw [startRing, setRing_ring_same]

theorem startRing_control (r port : Nat) (io : Io) : (startRing r port io).get (ringEn r) = 1 ∧ (startRing r port io).get (ringPhase r) = 1 ∧
    (startRing r port io).get (ringPort r) = port % 4 := by
  refine ⟨(setRing_get _ _ _ _).trans (get_put_same _ _ _ (by show 0 + 1 ≤ 64; omega)), ?_, ?_⟩
  · rw [startRing, setRing_get, get_put_other _ _ _ _ (by simp [ringEn, ringPhase]), get_put_other _ _ _ _ (by simp [ringPort, ringPhase]),
      get_put_same _ _ _ (by show 2 + 1 ≤ 64; omega)]
    rfl
  · rw [startRing, setRing_get, get_put_other _ _ _ _ (by simp [ringEn, ringPort]), get_put_same _ _ _ (by show 3 + 2 ≤ 64; omega)]
    rfl

theorem startRing_zero (r port : Nat) (io : Io) : (startRing r port io).get (ringHead r) = 0 ∧ (startRing r port io).get (ringTail r) = 0 ∧
    (startRing r port io).get (ringLost r) = 0 := by
  have hctrl : ∀ (io : Io) (f : RegField), f.off ≠ ringBase r + 16 →
      (((io.put (ringPhase r) 1).put (ringPort r) port).put (ringEn r) 1).get f = io.get f := fun io f h => by
    rw [get_put_other _ _ _ _ (.inl h), get_put_other _ _ _ _ (.inl h), get_put_other _ _ _ _ (.inl h)]
  refine ⟨?_, ?_, ?_⟩
  · rw [startRing, setRing_get, hctrl _ _ (by simp [ringHead]), get_put_other _ _ _ _ (by simp [ringHead, ringLost]),
      get_put_other _ _ _ _ (by simp [ringHead, ringTail]), get_put_same _ _ _ (by show 0 + 16 ≤ 64; omega)]
    rfl
  · rw [startRing, setRing_get, hctrl _ _ (by simp [ringTail]), get_put_other _ _ _ _ (by simp [ringTail, ringLost]),
      get_put_same _ _ _ (by show 0 + 16 ≤ 64; omega)]
    rfl
  · rw [startRing, setRing_get, hctrl _ _ (by simp [ringLost]), get_put_same _ _ _ (by show 0 + 64 ≤ 64; omega)]
    rfl

/-- The state with a ring's IRQ_EN as written. -/
def ringIrqStored (s : State) (w : RegWrite) (r : Nat) : State := s.put (ringIrqEn r) (fieldGet (ringCtrlValue s w r) 1 1)

theorem ringCtrlWrite_enables (hr : r < 260) (h : MayWrite s w (ringBase r + 16)) (hen : fieldGet (ringCtrlValue s w r) 0 1 = 1)
    (hoff : (ringIrqStored s w r).get (ringEn r) = 0) (hready : RingReady (ringIrqStored s w r) w r) : exec (.ringCtrlWrite w r) s =
      .next { ringIrqStored s w r with io := startRing r w.port (ringIrqStored s w r).io } :=
  congrArg next ((if_pos hr).trans ((fromPort_may h).trans ((if_pos ⟨hen, hoff⟩).trans (if_pos (ringChecks_iff.mpr hready)))))

theorem ringCtrlWrite_keeps (hr : r < 260) (h : MayWrite s w (ringBase r + 16)) (hen : fieldGet (ringCtrlValue s w r) 0 1 = 1)
    (hoff : (ringIrqStored s w r).get (ringEn r) = 0) (hnot : ¬ RingReady (ringIrqStored s w r) w r) : exec (.ringCtrlWrite w r) s =
      .next (ringIrqStored s w r) :=
  congrArg next ((if_pos hr).trans ((fromPort_may h).trans ((if_pos ⟨hen, hoff⟩).trans (if_neg (mt ringChecks_iff.mp hnot)))))

theorem ringCtrlWrite_disables (hr : r < 260) (h : MayWrite s w (ringBase r + 16)) (hen : fieldGet (ringCtrlValue s w r) 0 1 = 0) :
    exec (.ringCtrlWrite w r) s = .next ((ringIrqStored s w r).put (ringEn r) 0) := by
  have hnot : ¬ (fieldGet (ringCtrlValue s w r) 0 1 = 1 ∧ (ringIrqStored s w r).get (ringEn r) = 0) := by simp [hen]
  refine congrArg next ((if_pos hr).trans ((fromPort_may h).trans ((if_neg hnot).trans ?_)))
  show (ringIrqStored s w r).put (ringEn r) (min (fieldGet (ringCtrlValue s w r) 0 1) _) = _
  rw [hen, Nat.zero_min]

/-- An entry index in the range from HEAD to TAIL, going round. -/
def RingConsumable (s : State) (r v : Nat) : Prop :=
  v < 2 ^ s.get (ringLog2 r) ∧ (v + 2 ^ s.get (ringLog2 r) - s.get (ringHead r)) % 2 ^ s.get (ringLog2 r) ≤
    (s.get (ringTail r) + 2 ^ s.get (ringLog2 r) - s.get (ringHead r)) % 2 ^ s.get (ringLog2 r)

/-- What a write would leave in a ring's HEAD. -/
def ringHeadValue (s : State) (w : RegWrite) (r : Nat) : Nat := fieldGet (blend (s.reg (ringBase r + 24)) (writeBits w) (writeMask w)) 0 16

theorem ringHeadWrite_moves (hr : r < 260) (h : MayWrite s w (ringBase r + 24)) (hv : RingConsumable s r (ringHeadValue s w r)) :
    exec (.ringHeadWrite w r) s = .next (s.put (ringHead r) (ringHeadValue s w r)) :=
  congrArg next ((if_pos hr).trans ((fromPort_may h).trans (if_pos hv)))

theorem ringHeadWrite_ignored (hr : r < 260) (h : MayWrite s w (ringBase r + 24)) (hv : ¬ RingConsumable s r (ringHeadValue s w r)) :
    exec (.ringHeadWrite w r) s = .next s :=
  congrArg next ((if_pos hr).trans ((fromPort_may h).trans (if_neg hv)))

theorem ringCoalesceExpiry_signals (hirq : s.get (ringIrqEn r) = 1) (hsome : (s.io.ring r).unsignalled ≠ 0)
    (hdue : (s.io.ring r).firstUnsignalled + 1000 * s.get (ringCoalUs r) ≤ s.now) : exec (.ringCoalesceExpiry r) s =
      .next { s with io := (s.io.emit (.msix (s.get (ringPort r)) (s.get (ringVector r)))).setRing r { s.io.ring r with unsignalled := 0 } } :=
  congrArg next (if_pos (by simp [hirq, hsome, hdue]))

/-! ### Masks, flags and the sideband (R599, R609, R610, R629) -/

theorem evMaskWrite_stores {k : Nat} (hk : k < 64) (h : MayWrite s w (Reg.EV_MASK k)) : exec (.evMaskWrite w k) s =
    .next (s.setReg (Reg.EV_MASK k) (blend (s.reg (Reg.EV_MASK k)) (writeBits w) (writeMask w) &&& BitVec.ofNat 64 (maskBits k))) :=
  congrArg next ((if_pos hk).trans (fromPort_may h))

theorem flagClear_may {off : Nat} {row : RegRow} (hrow : regRow? off = some row) (hw1c : row.w1c ≠ 0) (h : MayWrite s w off) :
    exec (.flagClear w off) s = .next (if w.half.isSome then s else s.setReg off (s.codedWrite row (s.reg off) w)) := by
  show execFlagClear w off s = _
  simp only [execFlagClear, hrow, fromPort_may h, State.store, halfOfW1c, hw1c, ne_eq, not_false_eq_true, decide_true, Bool.true_and, if_true]

theorem i3cRead_answers (h : s.get Fld.BU_STATE_STATE ≠ 0) (off : Nat) : exec (.i3cRead off) s = .next (s.emit (.i3c (s.i3cValue off))) :=
  congrArg next (if_neg h)

theorem i3cRead_rests (h : s.get Fld.BU_STATE_STATE = 0) (off : Nat) : exec (.i3cRead off) s = .next s := congrArg next (if_pos h)

theorem i3cValue_unreadable {off : Nat} (h : i3cReadable off = false) : s.i3cValue off = 0 := if_pos (by simp [h])

/-- Settles O18: a ring's HEAD by its range, its CTRL by what R603 asks, the other writes by their access, a timer by the count. -/
theorem eventRegisterWrites : Obligations.EventRegisterWrites := by
  intro w s r hr
  refine ⟨fun h => ⟨ringHeadWrite_moves hr h, ringHeadWrite_ignored hr h⟩, fun h => ?ctrl, fun k hk h => evMaskWrite_stores hk h,
    fun off row hrow hw1c h => ?flags, fun hfatal hport hirq hsome hdue => ?coalesce, fun off h => i3cRead_answers h off,
    fun off => i3cValue_unreadable, fun h off => i3cRead_rests h off⟩
  case ctrl =>
    refine ⟨fun hen hoff hready => ?_, ringCtrlWrite_keeps hr h, ringCtrlWrite_disables hr h⟩
    obtain ⟨hone, hphase, hport⟩ := startRing_control r w.port (ringIrqStored s w r).io
    obtain ⟨hhead, htail, hlost⟩ := startRing_zero r w.port (ringIrqStored s w r).io
    exact ⟨_, ringCtrlWrite_enables hr h hen hoff hready, hone, hhead, htail, hlost, hphase, hport, startRing_ring r w.port (ringIrqStored s w r).io⟩
  case flags =>
    refine ⟨fun hhalf => ?_, fun hhalf => ?_⟩
    · rw [flagClear_may hrow hw1c h, hhalf]
      rfl
    · rw [flagClear_may hrow hw1c h, if_pos (Option.isSome_iff_ne_none.mpr hhalf)]
  case coalesce =>
    have hsent : s.io.emit (.msix (s.get (ringPort r)) (s.get (ringVector r))) =
        { s.io with out := .msix (s.get (ringPort r)) (s.get (ringVector r)) :: s.io.out } :=
      emit_request (p := (s.get (ringPort r), false)) rfl hfatal hport
    have hexpires := ringCoalesceExpiry_signals hirq hsome hdue
    rw [hsent] at hexpires
    exact ⟨_, hexpires, rfl, congrArg RingX.unsignalled (setRing_ring_same _ r _), rfl⟩

end Sys2Proof.Proofs
end

section
/-! The clocks: sources that fail and return, the frequency counter, pace and the gating groups (R521 to R535). -/

namespace Sys2Proof.Proofs

open Sys2Proof Sys2Proof.Machine Sys2Proof.Safety Sys2Proof.Laws

variable {s v : State} {w : RegWrite} {d g k l mv : Nat} {m : PaceMove}

/-! ### Sources (R521 to R523) -/

theorem monitorWindowEnd_runs (h : s.monitorRuns = true) (x : MonitorWindow) : exec (.monitorWindowEnd x) s = .next (s.windowEnd x) :=
  congrArg next (if_pos h)

theorem monitorWindowEnd_rests (h : s.monitorRuns = false) (x : MonitorWindow) : exec (.monitorWindowEnd x) s = .next s :=
  congrArg next (if_neg (by simp [h]))

theorem missingEdge_rests (h : s.monitorRuns = false ∨ 4 ≤ k) : exec (.missingEdge k) s = .next s :=
  congrArg next (if_neg (by obtain h | h := h <;> simp [h]))

theorem missingEdge_loses (h : s.monitorRuns = true) (hk : k < 4) : exec (.missingEdge k) s = .next (s.loseSource k) :=
  congrArg next (if_pos (by simp [h, hk]))

theorem loseSource_failed (h : s.sourceFailed k = true) : s.loseSource k = s := if_pos (by simp [h])

theorem loseSource_fails (hk : k < 5) (h : s.sourceFailed k = false)
    (hv : v = s.put Fld.CK_MON_STATUS_FAILED (putBit (s.get Fld.CK_MON_STATUS_FAILED) k true)) : s.loseSource k =
      ((v.setCk { v.ck with good := v.ck.good.filter (fun e => e.1 ≠ k) }).raise { code := 0x0101, subject := k, detail := [k] }).loseConsumers k := by
  subst hv
  exact if_neg (by simp [h, hk])

/-- With CLR a write of CK_CTRL clears the rates first, with RETURN it then moves the sources back, whatever it was written for. -/
theorem ckCtrl_acts {c : Instr} (hc : c ∈ [Instr.ckReturn w, .ckRateClr w]) (h : MayWrite s w Reg.CK_CTRL) : exec c s = .next (
    let x := if (writeBits w).toNat.testBit 1 = true then (s.store w Reg.CK_CTRL).clearRates else s.store w Reg.CK_CTRL
    if (writeBits w).toNat.testBit 2 = true then x.returnAll else x) := by
  have hcommit := ckCommit_stores h
  rw [List.mem_pair] at hc
  obtain rfl | rfl := hc <;> exact hcommit

/-! ### The frequency counter (R525) -/

/-- CK_FMEAS_CTRL written, a GATE of 0 stored as 1. -/
def fmeasStored (s : State) (w : RegWrite) : State :=
  let v := s.store w Reg.CK_FMEAS_CTRL
  if v.get Fld.CK_FMEAS_CTRL_GATE = 0 then v.put Fld.CK_FMEAS_CTRL_GATE 1 else v

theorem fmeasStart_starts (h : MayWrite s w Reg.CK_FMEAS_CTRL) (hstart : (writeBits w).toNat.testBit 4 = true)
    (hdone : s.get Fld.CK_FMEAS_CTRL_DONE = 1) : exec (.fmeasStart w) s = .next ((fmeasStored s w).put Fld.CK_FMEAS_CTRL_DONE 0) :=
  congrArg next ((fromPort_may h).trans (if_pos (by simp [hstart, on_of_one hdone])))

theorem fmeasStart_discarded (h : MayWrite s w Reg.CK_FMEAS_CTRL)
    (hrests : (writeBits w).toNat.testBit 4 = false ∨ s.get Fld.CK_FMEAS_CTRL_DONE = 0) : exec (.fmeasStart w) s =
      .next ((fmeasStored s w).put Fld.CK_FMEAS_CTRL_START (s.get Fld.CK_FMEAS_CTRL_START)) := by
  refine congrArg next ((fromPort_may h).trans (if_neg ?_))
  obtain hstart | hdone := hrests
  · simp [hstart]
  · simp [on_of_zero hdone]

theorem fmeasDone_rests (h : s.get Fld.CK_FMEAS_CTRL_DONE = 1) (n : Nat) : exec (.fmeasDone n) s = .next s := congrArg next (if_pos (on_of_one h))

theorem fmeasDone_counts (h : s.get Fld.CK_FMEAS_CTRL_DONE = 0) (n : Nat) : exec (.fmeasDone n) s =
    .next ((s.put Fld.CK_FMEAS_COUNT_COUNT n).put Fld.CK_FMEAS_CTRL_DONE 1) := congrArg next (if_neg (by simp [on_of_zero h]))

/-! ### Pace (R526 to R531) -/

theorem ckPaceWrite_may (hl : l < 8) (h : MayWrite s w (Reg.CK_PACE l)) : exec (.ckPaceWrite w l) s = .next (
    if s.paceTableOk l (s.wouldGet w (Fld.CK_PACE_VID_MV l)) (s.wouldGet w (Fld.CK_PACE_CAP l)) = true then s.store w (Reg.CK_PACE l) else s) :=
  congrArg next ((if_pos hl).trans (fromPort_may h))

theorem paceTargetChange_may (hd : d < 17) (h : MayWrite s w (Reg.CK_PACE_CTL d)) : exec (.paceTargetChange w d) s =
    .next ((s.store w (Reg.CK_PACE_CTL d)).startPace d) :=
  congrArg next ((if_pos hd).trans (fromPort_may h))

/-- A domain's target shown in CK_PACE_STATE. -/
def targetShown (v : State) (d : Nat) : State := v.put (Fld.CK_PACE_STATE_TARGET d) (v.paceTarget d)

/-- The target is taken up where no move is in progress, and it is not the level in force, confirmed. -/
theorem startPace_eq (v : State) (d : Nat) : v.startPace d =
    if v.paceMove d ≠ none ∨ v.paceTarget d = v.get (Fld.CK_PACE_STATE_CUR d) ∧ (targetShown v d).get (Fld.CK_PACE_STATE_VFAIL d) ≠ 1 then targetShown v d
    else if v.paceTarget d < v.get (Fld.CK_PACE_STATE_CUR d) then (targetShown v d).writeVoltage d (v.paceTarget d) true
    else (targetShown v d).slowDown d (v.paceTarget d) := by
  have hmove : (targetShown v d).paceMove d = v.paceMove d := rfl
  refine ite_congr (propext ?_) (fun _ => rfl) (fun _ => rfl)
  show ((((targetShown v d).paceMove d).isSome || (decide (v.paceTarget d = v.get (Fld.CK_PACE_STATE_CUR d)) &&
    !decide ((targetShown v d).get (Fld.CK_PACE_STATE_VFAIL d) = 1))) = true) ↔ _
  simp only [hmove, Bool.or_eq_true, Bool.and_eq_true, Option.isSome_iff_ne_none, decide_eq_true_eq, Bool.not_eq_true', decide_eq_false_iff_not, ne_eq]

theorem startPace_waits (h : v.paceMove d ≠ none ∨
      v.paceTarget d = v.get (Fld.CK_PACE_STATE_CUR d) ∧ (targetShown v d).get (Fld.CK_PACE_STATE_VFAIL d) = 0) : v.startPace d = targetShown v d :=
  (startPace_eq v d).trans (if_pos (h.imp_right (fun ⟨ht, hv⟩ => ⟨ht, by omega⟩)))

theorem startPace_faster (hidle : v.paceMove d = none) (h : v.paceTarget d < v.get (Fld.CK_PACE_STATE_CUR d)) :
    v.startPace d = (targetShown v d).writeVoltage d (v.paceTarget d) true :=
  (startPace_eq v d).trans ((if_neg (by rintro (hmove | ⟨heq, -⟩); exacts [hmove hidle, by omega])).trans (if_pos h))

/-- A slower target, or the level in force not confirmed: the cap first, then the voltage. -/
theorem startPace_slower (hidle : v.paceMove d = none) (h : v.get (Fld.CK_PACE_STATE_CUR d) < v.paceTarget d ∨
      v.paceTarget d = v.get (Fld.CK_PACE_STATE_CUR d) ∧ (targetShown v d).get (Fld.CK_PACE_STATE_VFAIL d) = 1) :
    v.startPace d = ((targetShown v d).forceLevel d (v.paceTarget d)).writeVoltage d (v.paceTarget d) false :=
  (startPace_eq v d).trans ((if_neg (by rintro (hmove | ⟨heq, hok⟩); exacts [hmove hidle, by omega])).trans (if_neg (by omega)))

theorem pace_idle (h : s.paceMove d = none) : exec (.pacePoll d mv) s = .next s ∧ exec (.paceSettleTimeout d) s = .next s ∧
    ∀ ok, exec (.avsbusDone d ok) s = .next s := by
  refine ⟨?_, ?_, fun ok => ?_⟩
  · show execPacePoll d mv s = _
    simp only [execPacePoll, h]
  · show execPaceSettleTimeout d s = _
    simp only [execPaceSettleTimeout, h]
  · show execAvsbusDone d ok s = _
    simp only [execAvsbusDone, h]

/-- A move whose voltage is not written yet heeds the end of its write alone. -/
theorem pace_unwritten (h : s.paceMove d = some m) (hw : m.written = false) :
    exec (.avsbusDone d true) s = .next (s.setMove d (some { m with written := true })) ∧ exec (.avsbusDone d false) s = .next (s.failPace d m) ∧
      exec (.paceSettleTimeout d) s = .next s ∧ exec (.pacePoll d mv) s = .next s := by
  refine ⟨?_, ?_, ?_, ?_⟩
  · show execAvsbusDone d true s = _
    simp [execAvsbusDone, h, hw]
  · show execAvsbusDone d false s = _
    simp [execAvsbusDone, h, hw]
  · show execPaceSettleTimeout d s = _
    simp [execPaceSettleTimeout, h, hw]
  · show execPacePoll d mv s = _
    simp [execPacePoll, h, hw]

theorem paceSettleTimeout_fails (h : s.paceMove d = some m) (hw : m.written = true) : exec (.paceSettleTimeout d) s = .next (s.failPace d m) := by
  show execPaceSettleTimeout d s = _
  simp [execPaceSettleTimeout, h, hw]

theorem pacePoll_confirms (h : s.paceMove d = some m) (hw : m.written = true) (hhigh : mv ≤ m.mv + s.get Fld.CK_PACE_SETTLE_TOL_MV)
    (hlow : m.mv ≤ mv + s.get Fld.CK_PACE_SETTLE_TOL_MV) : exec (.pacePoll d mv) s = .next (s.confirmPace d mv m) := by
  show execPacePoll d mv s = _
  simp [execPacePoll, h, hw, hhigh, hlow]

theorem pacePoll_waits (h : s.paceMove d = some m)
    (hout : m.mv + s.get Fld.CK_PACE_SETTLE_TOL_MV < mv ∨ mv + s.get Fld.CK_PACE_SETTLE_TOL_MV < m.mv) : exec (.pacePoll d mv) s = .next s := by
  have hnot : ¬ (m.written && decide (mv ≤ m.mv + s.get Fld.CK_PACE_SETTLE_TOL_MV) && decide (m.mv ≤ mv + s.get Fld.CK_PACE_SETTLE_TOL_MV)) = true := by
    simp only [Bool.and_eq_true, decide_eq_true_eq]
    omega
  show execPacePoll d mv s = _
  simp only [execPacePoll, h, if_neg hnot]

/-! ### Gating groups (R533 to R535) -/

theorem gateIdleSleep_sleeps (hg : g < 37) (hrun : s.get (Fld.CK_GATE_RUN_EN g) = 1) (hen : s.get (Fld.CK_GATE_SLEEP_EN g) = 1)
    (hst : s.get (Fld.CK_GATE_STATE g) = 0) : exec (.gateIdleSleep g) s = .next (s.put (Fld.CK_GATE_STATE g) 1) :=
  congrArg next (if_pos (by simp [hg, on_of_one hrun, on_of_one hen, hst]))

theorem gateIdleDeep_sleeps (hg : g < 37) (hrun : s.get (Fld.CK_GATE_RUN_EN g) = 1) (hen : s.get (Fld.CK_GATE_DEEP_EN g) = 1)
    (hst : s.get (Fld.CK_GATE_STATE g) ≤ 1) : exec (.gateIdleDeep g) s = .next (s.put (Fld.CK_GATE_STATE g) 2) :=
  congrArg next (if_pos (by simp [hg, on_of_one hrun, on_of_one hen, hst]))

theorem wakeGroup_wakes (hg : g < 37) (hst : s.get (Fld.CK_GATE_STATE g) = 1 ∨ s.get (Fld.CK_GATE_STATE g) = 2) :
    s.wakeGroup g = s.put (Fld.CK_GATE_STATE g) 0 :=
  if_pos (by simpa [hg] using hst)

theorem wakeGroup_rests (h : 37 ≤ g ∨ s.get (Fld.CK_GATE_STATE g) ≠ 1 ∧ s.get (Fld.CK_GATE_STATE g) ≠ 2) : s.wakeGroup g = s := by
  refine if_neg ?_
  obtain hg | ⟨h1, h2⟩ := h
  · simp [Nat.not_lt.mpr hg]
  · simp [h1, h2]

/-- There are 37 groups. -/
theorem gate_none (hg : 37 ≤ g) : exec (.gateIdleSleep g) s = .next s ∧ exec (.gateIdleDeep g) s = .next s ∧ exec (.gateWake g) s = .next s ∧
    exec (.gateScheduledWake g) s = .next s :=
  ⟨congrArg next (if_neg (by simp [Nat.not_lt.mpr hg])), congrArg next (if_neg (by simp [Nat.not_lt.mpr hg])),
    congrArg next (wakeGroup_rests (.inl hg)), congrArg next (wakeGroup_rests (.inl hg))⟩

end Sys2Proof.Proofs
end

section
/-! Power: the supply warning and the emergency park, telemetry, droop, over-voltage, brown-out and heat (R547 to R559). -/

namespace Sys2Proof.Proofs

open Sys2Proof Sys2Proof.Machine Sys2Proof.Safety Sys2Proof.Laws

variable {s v : State} {d mv : Nat} {t : Int}

/-! ### The supply warning (R555 to R559) -/

theorem pwarnAssert_rests (h : s.unitsRun = false ∨ s.get Fld.PW_STATUS_WARN = 1) : exec .pwarnAssert s = .next s := by
  refine congrArg next (if_pos ?_)
  obtain h | h := h
  · simp [h]
  · simp [on_of_one h]

/-- The warning latched: its count taken, and its event raised. -/
def warned (s : State) : State :=
  (((s.put Fld.PW_STATUS_WARN 1).put Fld.PW_STATUS_HOLD 0).put Fld.PW_WARN_YT_NS s.now).raise { code := 0x0201 }

/-- One sequence at a time is under way. -/
theorem pwarnAssert_latches (hruns : s.unitsRun = true) (h : s.get Fld.PW_STATUS_WARN = 0) : exec .pwarnAssert s =
    .next (if (warned s).on Fld.PW_STATUS_PARKING = true then warned s else (warned s).beginParking) :=
  congrArg next (if_neg (by simp [hruns, on_of_zero h]))

theorem pwarnDeassert_rests (h : s.unitsRun = false ∨ s.get Fld.PW_STATUS_WARN = 0) : exec .pwarnDeassert s = .next s := by
  refine congrArg next (if_pos ?_)
  obtain h | h := h
  · simp [h]
  · simp [on_of_zero h]

theorem pwarnDeassert_holds (hruns : s.unitsRun = true) (h : s.get Fld.PW_STATUS_WARN = 1) : exec .pwarnDeassert s =
    .next (((s.put Fld.PW_STATUS_WARN 0).put Fld.PW_STATUS_HOLD 1).setPw { s.pw with roseAt := s.now }) :=
  congrArg next (if_neg (by simp [hruns, on_of_one h]))

/-- SAFE reached, with its count and its event. -/
def safeReached (v : State) : State := ((v.put Fld.PW_STATUS_SAFE 1).put Fld.PW_SAFE_YT_NS v.now).raise { code := 0x0202 }

/-- The journals of the sequence sealed. -/
def journalsSealed (s : State) : State := s.toSeal.foldl (fun u i => u.sealStall i) s

/-- Outside a sequence, or once SAFE is reached, neither its end nor its limit of 9.5 ms acts. -/
theorem park_rests (h : s.get Fld.PW_STATUS_PARKING = 0 ∨ s.get Fld.PW_STATUS_SAFE = 1) :
    exec .powerSafe s = .next s ∧ exec .parkLate s = .next s := by
  obtain h | h := h
  · exact ⟨congrArg next (if_pos (by simp [on_of_zero h])), congrArg next (if_neg (by simp [on_of_zero h]))⟩
  · exact ⟨congrArg next (if_pos (by simp [on_of_one h])), congrArg next (if_neg (by simp [on_of_one h]))⟩

theorem powerSafe_emitting (h : s.stalls.any (fun e => emitting e.2) = true) : exec .powerSafe s = .next s :=
  congrArg next (if_pos (by simp [h]))

section
variable (hpark : s.get Fld.PW_STATUS_PARKING = 1) (hsafe : s.get Fld.PW_STATUS_SAFE = 0)
include hpark hsafe

theorem powerSafe_seals (h : s.stalls.any (fun e => emitting e.2) = false) : exec .powerSafe s =
    .next (if (journalsSealed s).get Fld.STL_DIRTY_NOW_NOW ≠ 0 then journalsSealed s else safeReached (journalsSealed s)) :=
  congrArg next (if_neg (by rw [h]; simp [on_of_one hpark, on_of_zero hsafe]))

theorem parkLate_raises (h : s.get Fld.PW_WARN_YT_NS + 9500000 ≤ s.now) : exec .parkLate s = .next (s.raise { code := 0x0203 }) :=
  congrArg next (if_pos (by simp [on_of_one hpark, on_of_zero hsafe, h]))

end

theorem parkLate_early (h : s.now < s.get Fld.PW_WARN_YT_NS + 9500000) : exec .parkLate s = .next s :=
  congrArg next (if_neg (by simp [Nat.not_le.mpr h]))

theorem journalsSealed_of_no_stalls (h : s.stalls = []) : journalsSealed s = s := by
  simp [journalsSealed, State.toSeal, h]

theorem pwResumeExpiry_rests
    (h : s.get Fld.PW_STATUS_HOLD = 0 ∨ s.get Fld.PW_STATUS_SAFE = 0 ∨ s.now < s.pw.roseAt + s.get Fld.PW_RESUME_NS) :
    exec .pwResumeExpiry s = .next s := by
  refine congrArg next (if_pos ?_)
  obtain h | h | h := h
  · simp [on_of_zero h]
  · simp [on_of_zero h]
  · simp [h]

theorem pwResumeExpiry_resumes (hhold : s.get Fld.PW_STATUS_HOLD = 1) (hsafe : s.get Fld.PW_STATUS_SAFE = 1)
    (h : s.pw.roseAt + s.get Fld.PW_RESUME_NS ≤ s.now) : exec .pwResumeExpiry s =
      .next ((((s.put Fld.PW_STATUS_HOLD 0).put Fld.PW_STATUS_PARKING 0).put Fld.PW_STATUS_SAFE 0).startSpares.raise { code := 0x0204 }) :=
  congrArg next (if_neg (by simp [on_of_one hhold, on_of_one hsafe, Nat.not_lt.mpr h]))

/-! ### Telemetry (R547, R551) -/

theorem telemetrySample_rests (h : s.get Fld.BU_STATE_STATE < 2 ∨ s.get Fld.BU_STATE_STATE = 8) (l : List RailReading) :
    exec (.telemetrySample l) s = .next s :=
  congrArg next (if_pos (by simp only [Bool.not_eq_true', decide_eq_false_iff_not]; omega))

theorem telemetrySample_samples (hmin : 2 ≤ s.get Fld.BU_STATE_STATE) (hmax : s.get Fld.BU_STATE_STATE ≤ 7) {l : List RailReading}
    (hv : v = (List.range 22).foldl (fun v r => v.readRail l r) s) : exec (.telemetrySample l) s =
      .next (((v.put Fld.PW_POWER_W v.sampledWatts).put Fld.PW_POWER_PEAK_W (max v.sampledWatts (v.get Fld.PW_POWER_PEAK_W))).capPower v.sampledWatts) := by
  subst hv
  exact congrArg next (if_neg (by simp [hmin, hmax]))

/-! ### Droop, over-voltage, brown-out (R548 to R550) -/

theorem droopSample_samples (h : s.unitsRun = true) (l : List (Nat × Nat)) : exec (.droopSample l) s =
    .next (l.foldl (fun u e => if e.1 < 17 then u.droop e.1 e.2 else u) s) := congrArg next (if_pos h)

theorem droopSample_rests (h : s.unitsRun = false) (l : List (Nat × Nat)) : exec (.droopSample l) s = .next s :=
  congrArg next (if_neg (by simp [h]))

theorem droopSample_one (h : 17 ≤ d ∨ s.droop d mv = s) : exec (.droopSample [(d, mv)]) s = .next s := by
  cases hruns : s.unitsRun with
  | false => exact droopSample_rests hruns _
  | true =>
    refine (droopSample_samples hruns _).trans (congrArg next ?_)
    obtain hd | hrests := h
    · exact if_neg (Nat.not_lt.mpr hd)
    · exact (ite_congr rfl (fun _ => hrests) (fun _ => rfl)).trans (ite_self s)

theorem droop_within (h : s.get (Fld.CK_PACE_STATE_VID_AT d) ≤ mv + s.get Fld.PW_SAG_MV) : s.droop d mv = s := if_pos h

@[simp] theorem sagOf_setSag (s : State) (d : Nat) (x : SagX) : (s.setSag d x).sagOf d = x := sparseGet_put_same _ _ _ _

/-- The first low sample of a millisecond is counted, and is not enough to raise the limit. -/
theorem droop_first (hlow : mv + s.get Fld.PW_SAG_MV < s.get (Fld.CK_PACE_STATE_VID_AT d)) (hms : (s.sagOf d).ms ≠ s.now / 1000000)
    (hcount : 1 ≤ s.get Fld.PW_SAG_COUNT) (hd : d < 17) :
    s.droop d mv = (s.bump (Fld.PW_DROOP_CNT_COUNT d) 1).setSag d { ms := s.now / 1000000, low := 1, stood := (s.sagOf d).stood } := by
  have hsag : (s.bump (Fld.PW_DROOP_CNT_COUNT d) 1).get Fld.PW_SAG_COUNT = s.get Fld.PW_SAG_COUNT :=
    state_get_put_other _ _ _ _ (.inl (by simp only [Reg.PW_SAG, Reg.PW_DROOP_CNT]; omega))
  have hx : (s.bump (Fld.PW_DROOP_CNT_COUNT d) 1).sagOf d = s.sagOf d := rfl
  have hnow : (s.bump (Fld.PW_DROOP_CNT_COUNT d) 1).now = s.now := rfl
  have hfew : ¬ s.get Fld.PW_SAG_COUNT < 1 := by omega
  have hnot : ¬ 1 = s.get Fld.PW_SAG_COUNT + 1 := by omega
  unfold State.droop
  rw [if_neg (Nat.not_le.mpr hlow)]
  simp only [hx, hnow, hsag, if_neg hms, if_neg hfew, hnot, decide_false, Bool.false_and, Bool.false_eq_true, if_false]

theorem supplyLimitRelax_rests (h : 17 ≤ d ∨ s.get (Fld.PW_LIMITS_SUPPLY d) = 0 ∨ s.now < (s.sagOf d).stood + 100000000) :
    exec (.supplyLimitRelax d) s = .next s := by
  refine congrArg next (if_pos ?_)
  obtain h | h | h := h <;> simp [h]

theorem supplyLimitRelax_lowers (hd : d < 17) (h : 0 < s.get (Fld.PW_LIMITS_SUPPLY d)) (hdue : (s.sagOf d).stood + 100000000 ≤ s.now) :
    exec (.supplyLimitRelax d) s =
      .next ((s.setSag d { s.sagOf d with stood := s.now }).setSupply d (s.get (Fld.PW_LIMITS_SUPPLY d) - 1)) :=
  congrArg next (if_neg (by simp [Nat.not_le.mpr hd, Nat.ne_of_gt h, Nat.not_lt.mpr hdue]))

theorem overvolt_brownout_rest (h : 17 ≤ d ∨ s.unitsRun = false) : exec (.overvolt d) s = .next s ∧ exec (.brownout d) s = .next s :=
  ⟨congrArg next (if_pos (by simpa using h)), congrArg next (if_pos (by simpa using h))⟩

theorem overvolt_limits (hd : d < 17) (h : s.unitsRun = true) : exec (.overvolt d) s =
    .next ((((s.setSag d { s.sagOf d with stood := s.now }).raise { code := 0x0206, subject := d }).cpTrigger Fld.CP_TRIG_OVERVOLT).setSupply d 7) :=
  congrArg next (if_neg (by simp [Nat.not_le.mpr hd, h]))

theorem brownout_fatal (hd : d < 17) (h : s.unitsRun = true) : exec (.brownout d) s = .next (s.raise { code := 0x0209, subject := d }) :=
  congrArg next (if_neg (by simp [Nat.not_le.mpr hd, h]))

/-! ### Heat (R552, R553) -/

theorem thermalStep_rests (h : s.get Fld.BU_STATE_STATE = 0) (l : List (Nat × Int)) : exec (.thermalStep l) s = .next s :=
  congrArg next (if_pos h)

theorem thermalStep_steps (h : s.get Fld.BU_STATE_STATE ≠ 0) {l k : List (Nat × Int)} (hk : k = l.filter (fun e => decide (e.1 < 17)))
    (hv : v = k.foldl (fun u e => u.thermal e.1 e.2) s) :
    exec (.thermalStep l) s = .next (if v.unitsRun = true then k.foldl (fun u e => u.recomputeLimit e.1) v else v) := by
  subst hk hv
  exact congrArg next (if_neg h)

/-- What a domain's temperature leaves alone. -/
theorem noteTemp_get {f : RegField} (h : f.off ≠ Reg.PW_TEMP d) (s : State) (t : Int) : (s.noteTemp d t).get f = s.get f := by
  have hput : ∀ (u : State) (lo width x : Nat), (u.put ⟨Reg.PW_TEMP d, lo, width⟩ x).get f = u.get f := fun u lo width x =>
    state_get_put_other u _ f x (.inl h)
  unfold State.noteTemp
  dsimp only
  split
  · exact (hput _ 16 16 _).trans (hput s 0 16 _)
  · exact hput s 0 16 _

/-- A domain cooler than the warning less its hysteresis: the limit goes down by one. -/
theorem stepTherm_lowers (h : t < 10 * (s.get Fld.PW_TJ_WARN_C : Int) - 10 * (s.get Fld.PW_TJ_HYST_C : Int)) :
    s.stepTherm d t = s.put (Fld.PW_LIMITS_THERM d) (s.get (Fld.PW_LIMITS_THERM d) - 1) := by
  have hcool : ¬ 10 * (s.get Fld.PW_TJ_WARN_C : Int) ≤ t := by omega
  simp only [State.stepTherm, if_neg hcool, if_pos h]

theorem thermal_cools (hruns : s.unitsRun = true)
    (h : t < 10 * (s.get Fld.PW_TJ_WARN_C : Int) - 10 * (s.get Fld.PW_TJ_HYST_C : Int)) (htrip : t < 1100) :
    s.thermal d t = (s.noteTemp d t).put (Fld.PW_LIMITS_THERM d) ((s.noteTemp d t).get (Fld.PW_LIMITS_THERM d) - 1) := by
  have hkeeps : ∀ {f : RegField}, f.off = Reg.BU_STATE ∨ f.off = Reg.PW_TJ → (s.noteTemp d t).get f = s.get f := fun hf =>
    noteTemp_get (by simp only [Reg.BU_STATE, Reg.PW_TJ, Reg.PW_TEMP] at hf ⊢; omega) s t
  have hstill : (s.noteTemp d t).unitsRun = true := by
    unfold State.unitsRun
    rw [hkeeps (.inl rfl)]
    exact hruns
  rw [← hkeeps (f := Fld.PW_TJ_WARN_C) (.inr rfl), ← hkeeps (f := Fld.PW_TJ_HYST_C) (.inr rfl)] at h
  simp only [State.thermal, hstill, if_true, if_neg (not_le.mpr htrip), stepTherm_lowers h]

/-! ### The statement's parts, assembled -/

/-- Settles O57: a source by whether it has failed, a move by its target and its voltage, a group by its state, the park by its flags, and
the limits by what is measured. -/
theorem clocksAndPower : Obligations.ClocksAndPower := by
  intro s
  refine ⟨fun x k => ?sources, fun w h => ?returns, fun w h => ⟨fmeasStart_starts h, fmeasStart_discarded h⟩,
    fun n => ⟨fun h => fmeasDone_rests h n, fun h => fmeasDone_counts h n⟩, fun w l => ?table, fun w d => ?target, fun d mv m => ?move,
    fun g => ?gates, ?park, fun l => ⟨fun h => telemetrySample_rests h l, fun hmin hmax => telemetrySample_samples hmin hmax rfl⟩,
    fun l h => droopSample_samples h l, fun l h => thermalStep_steps h rfl rfl, fun h l => thermalStep_rests h l,
    fun h d l => ⟨droopSample_rests h l, overvolt_brownout_rest (.inr h)⟩, fun d mv => ⟨fun hd => ?noDomain, fun hd => ?domain⟩⟩
  case sources =>
    refine ⟨fun h => ⟨monitorWindowEnd_rests h x, missingEdge_rests (.inl h)⟩, fun h => monitorWindowEnd_runs h x,
      fun hk => missingEdge_rests (.inr hk), fun h hk hfailed => ?_, fun h hk hsound => ?_⟩
    · exact (missingEdge_loses h hk).trans (congrArg next (loseSource_failed hfailed))
    · exact (missingEdge_loses h hk).trans (congrArg next (loseSource_fails (by omega) hsound rfl))
  case returns =>
    refine ⟨fun c hc => ckCtrl_acts hc h, fun hclr hret => ?_, fun hclr hret => ?_⟩
    · exact (ckCtrl_acts (by simp) h).trans (by simp [hclr, hret])
    · exact (ckCtrl_acts (by simp) h).trans (by simp [hclr, hret])
  case table =>
    refine ⟨fun hl => congrArg next (if_neg (Nat.not_lt.mpr hl)), fun hl h => ⟨fun hok => ?_, fun hok => ?_⟩⟩
    · exact (ckPaceWrite_may hl h).trans (congrArg next (if_pos hok))
    · exact (ckPaceWrite_may hl h).trans (congrArg next (if_neg (Bool.eq_false_iff.mp hok)))
  case target =>
    refine ⟨fun hd => congrArg next (if_neg (Nat.not_lt.mpr hd)), fun hd h => ?_⟩
    have hwrite := paceTargetChange_may hd h
    exact ⟨fun hwaits => hwrite.trans (congrArg next (startPace_waits hwaits)),
      fun hidle hfaster => hwrite.trans (congrArg next (startPace_faster hidle hfaster)),
      fun hidle hslower => hwrite.trans (congrArg next (startPace_slower hidle hslower))⟩
  case move =>
    exact ⟨pace_idle, pace_unwritten, fun h hw => ⟨paceSettleTimeout_fails h hw, pacePoll_confirms h hw, pacePoll_waits h⟩⟩
  case gates =>
    refine ⟨gate_none, fun hg hrun => ⟨gateIdleSleep_sleeps hg hrun, gateIdleDeep_sleeps hg hrun⟩, fun hg hst => ?_, fun h1 h2 => ?_⟩
    · exact ⟨congrArg next (wakeGroup_wakes hg hst), congrArg next (wakeGroup_wakes hg hst)⟩
    · exact ⟨congrArg next (wakeGroup_rests (.inr ⟨h1, h2⟩)), congrArg next (wakeGroup_rests (.inr ⟨h1, h2⟩))⟩
  case park =>
    refine ⟨pwarnAssert_rests, fun hruns h => ⟨fun hpark => ?_, fun hpark => ?_⟩, park_rests,
      fun hpark hsafe => ⟨fun hnone hclean => ?_, fun hquiet => ⟨fun hdirty => ?_, fun hclean => ?_⟩, powerSafe_emitting,
        parkLate_raises hpark hsafe, parkLate_early⟩,
      pwarnDeassert_rests, fun hruns h => ⟨_, pwarnDeassert_holds hruns h, rfl, rfl⟩, pwResumeExpiry_rests, pwResumeExpiry_resumes, rfl⟩
    · exact (pwarnAssert_latches hruns h).trans (congrArg next (if_pos (on_of_one hpark)))
    · exact (pwarnAssert_latches hruns h).trans (congrArg next (if_neg (Bool.eq_false_iff.mp (on_of_zero (s := warned s) hpark))))
    · have hseals := powerSafe_seals hpark hsafe (by simp [hnone])
      rwa [journalsSealed_of_no_stalls hnone, if_neg (not_not.mpr hclean)] at hseals
    · exact (powerSafe_seals hpark hsafe hquiet).trans (congrArg next (if_pos hdirty))
    · exact (powerSafe_seals hpark hsafe hquiet).trans (congrArg next (if_neg (not_not.mpr hclean)))
  case noDomain =>
    obtain ⟨hover, hbrown⟩ := overvolt_brownout_rest (s := s) (.inl hd)
    exact ⟨droopSample_one (.inl hd), supplyLimitRelax_rests (.inl hd), hover, hbrown⟩
  case domain =>
    refine ⟨fun h => droopSample_one (.inr (droop_within h)), fun hlow hruns hms hcount => ?_, fun h => supplyLimitRelax_rests (.inr h),
      supplyLimitRelax_lowers hd, overvolt_limits hd, brownout_fatal hd, fun t hruns hstate => ?_, fun t hruns h htrip => thermal_cools hruns h htrip⟩
    · have hdroop : exec (.droopSample [(d, mv)]) s = .next (s.droop d mv) := (droopSample_samples hruns _).trans (congrArg next (if_pos hd))
      rw [droop_first hlow hms hcount hd] at hdroop
      exact ⟨_, hdroop, rfl, by rw [sagOf_setSag], by rw [sagOf_setSag]⟩
    · have hone : [(d, t)].filter (fun e => decide (e.1 < 17)) = [(d, t)] := by simp [hd]
      exact (thermalStep_steps hstate hone.symm rfl).trans (congrArg next (if_pos hruns))

end Sys2Proof.Proofs
end

section
/-! Spares and repair: units judged failed, the repair windows, self-tests and RP_RETIRE (R564 to R575). -/

namespace Sys2Proof.Proofs

open Sys2Proof Sys2Proof.Machine Sys2Proof.Safety Sys2Proof.Laws

variable {s v : State} {c : Cmd} {w : RegWrite} {k slot h : Nat} {u : Part} {bad : Bool} {t : SelfTest}

/-! ### Units judged failed (R564 to R568) -/

theorem handshakeTimeout_judges (hunit : handshakes u = true) (hserves : s.inService = true) : exec (.handshakeTimeout u) s = .next (s.judge u 3) :=
  congrArg next (if_pos (by simp [hunit, hserves]))

theorem handshakeTimeout_rests (hrests : handshakes u = false ∨ s.inService = false) : exec (.handshakeTimeout u) s = .next s :=
  congrArg next (if_neg (by obtain hunit | hout := hrests <;> simp [*]))

theorem groomPairDisagree_judges (hserves : s.inService = true) (p : Nat) : exec (.groomPairDisagree p) s = .next (s.judge (.groom p) 5) :=
  congrArg next (if_pos hserves)

theorem groomPairDisagree_rests (hout : s.inService = false) (p : Nat) : exec (.groomPairDisagree p) s = .next s :=
  congrArg next (if_neg (by simp [hout]))

theorem aisleLinkFail_rests (hrests : s.inService = false ∨ 16 ≤ h ∨ s.hiveAbsent h = true) : exec (.aisleLinkFail h) s = .next s :=
  congrArg next (if_pos (by obtain hout | hrange | habsent := hrests <;> simp [*]))

theorem aisleLinkFail_judges (hserves : s.inService = true) (hh : h < 16) (hin : s.hiveAbsent h = false) : exec (.aisleLinkFail h) s =
    .next (s.drawFree.2.judge (.aisle h) (s.drawFree.1.toNat % 256)) :=
  congrArg next (if_neg (by simp [hserves, hin, Nat.not_le.mpr hh]))

/-! ### The counts of corrected words (R565) -/

/-- The last whole multiple of RP_WINDOW. -/
def windowStart (s : State) : Nat := s.now / s.get Fld.RP_WINDOW_NS * s.get Fld.RP_WINDOW_NS

theorem repairWindowRestart_rests (hold : windowStart s ≤ s.units.corrAt) : exec .repairWindowRestart s = .next s := congrArg next (if_pos hold)

theorem repairWindowRestart_clears (hnew : s.units.corrAt < windowStart s) : exec .repairWindowRestart s =
    .next (s.clearCorrected.updUnits (fun u => { u with corrAt := windowStart s })) := congrArg next (if_neg (Nat.not_le.mpr hnew))

/-- Every RP_CELL_CORR reads as after power-up. -/
theorem clearCorrected_regs (s : State) : ∀ e ∈ s.clearCorrected.io.regs, e.1 < Reg.RP_CELL_CORR 0 ∨ Reg.RP_CELL_CORR 8191 < e.1 := by
  intro e he
  have hkept := (List.mem_filter.mp he).2
  simp only [Bool.not_eq_true', Bool.and_eq_false_iff, decide_eq_false_iff_not, Nat.not_le] at hkept
  exact hkept

/-! ### Self-test (R571, R575) -/

/-- The last whole multiple of RP_TEST_PERIOD. -/
def testStart (s : State) : Nat := s.now / max 1 (s.get Fld.RP_TEST_PERIOD_NS) * max 1 (s.get Fld.RP_TEST_PERIOD_NS)

theorem selfTestPeriod_rests (hrests : s.inService = false ∨ s.get Fld.RP_CTRL_TEST_EN = 0 ∨ testStart s ≤ s.units.testAt) (l : List Part) :
    exec (.selfTestPeriod l) s = .next s := by
  refine congrArg next (if_pos ?_)
  show (!s.inService || !s.on Fld.RP_CTRL_TEST_EN || decide (testStart s ≤ s.units.testAt)) = true
  obtain hout | hoff | hdone := hrests
  · simp [hout]
  · simp [on_of_zero hoff]
  · simp [hdone]

theorem selfTestPeriod_tests (hserves : s.inService = true) (hen : s.get Fld.RP_CTRL_TEST_EN = 1) (hdue : s.units.testAt < testStart s)
    (l : List Part) : exec (.selfTestPeriod l) s =
      .next (((l.filter (fun u => (s.freeSpares 15).contains u)).foldl (fun v u => v.judge u 4) s).updUnits (fun u => { u with testAt := testStart s })) := by
  refine congrArg next (if_neg ?_)
  show ¬ (!s.inService || !s.on Fld.RP_CTRL_TEST_EN || decide (testStart s ≤ s.units.testAt)) = true
  simp [hserves, on_of_one hen, Nat.not_le.mpr hdue]

/-- The units that SELF_TEST names. -/
def testedUnits (s : State) (mask : Nat) : List Part := s.freeSpares mask ++ (if mask.testBit 4 then s.idleCells else [])

theorem selfTest_bad (ha : Accepted s c .mgmt false) (hbad : 32 ≤ opByte c 32 ∨ opZero c 33 63 = false) :
    exec (.selfTest c) s = .next (s.refuse c CS.badCommand) :=
  congrArg next ((runCmd_accepted ha).trans (if_pos (by simpa using hbad)))

theorem selfTest_starts (ha : Accepted s c .mgmt false) (hmask : opByte c 32 < 32) (hz : opZero c 33 63 = true) (hfree : LowestFree s k)
    (hv : v = (startedOp s c k 0xC1 [opByte c 32]).complete c CS.ok ((startedOp s c k 0xC1 [opByte c 32]).opHandle k)) :
    exec (.selfTest c) s = .next (if testedUnits s (opByte c 32) = [] then v.endOp k .done CS.ok
      else { v with tests := s.tests ++ [⟨k, testedUnits s (opByte c 32), 0, 0⟩] }) := by
  have hok : ¬ (decide (32 ≤ opByte c 32) || !opZero c 33 63) = true := by simp [hz, Nat.not_le.mpr hmask]
  have htests : v.tests = s.tests := hv ▸ (State.complete_frame _ c _ _ _ _).1.1 .tests (by decide)
  refine congrArg next ((runCmd_accepted ha).trans ((if_neg hok).trans ((beginOp_lowestFree hfree c 0xC1 [opByte c 32] _).trans ?_)))
  rw [← hv, htests]
  exact ite_congr (propext List.isEmpty_iff) (fun _ => rfl) (fun _ => rfl)

/-- A self-test with one more finding. -/
def withFinding (t : SelfTest) (u : Part) (bad : Bool) : SelfTest :=
  { t with left := t.left.erase u, tested := t.tested + 1, failed := t.failed + (if bad = true then 1 else 0) }

/-- The finding noted, and a unit found bad judged. -/
def unitTested (s : State) (slot : Nat) (t : SelfTest) (u : Part) (bad : Bool) : State :=
  let v : State := { s with tests := s.tests.filter (fun x => x.op ≠ slot) ++ [withFinding t u bad] }
  if bad = true then v.judge u 4 else v

theorem selfTestUnitDone_none (hnone : s.tests.find? (fun t => t.op = slot) = none) (u : Part) (bad : Bool) :
    exec (.selfTestUnitDone slot u bad) s = .next s := by
  show execSelfTestUnitDone slot u bad s = _
  simp only [execSelfTestUnitDone, hnone]

theorem selfTestUnitDone_rests (hsome : s.tests.find? (fun t => t.op = slot) = some t) (hrests : (s.op slot).st ≠ .running ∨ u ∉ t.left) (bad : Bool) :
    exec (.selfTestUnitDone slot u bad) s = .next s := by
  have hpos : (decide ((s.op slot).st ≠ .running) || !t.left.contains u) = true := by simpa using hrests
  show execSelfTestUnitDone slot u bad s = _
  simp only [execSelfTestUnitDone, hsome, hpos, if_true]

theorem selfTestUnitDone_tests (hsome : s.tests.find? (fun t => t.op = slot) = some t) (hrun : (s.op slot).st = .running) (hleft : u ∈ t.left)
    (bad : Bool) : exec (.selfTestUnitDone slot u bad) s =
      .next (if t.left.erase u = [] then (unitTested s slot t u bad).endTest slot .done CS.ok else unitTested s slot t u bad) := by
  have hneg : (decide ((s.op slot).st ≠ .running) || !t.left.contains u) = false := by simp [hrun, hleft]
  show execSelfTestUnitDone slot u bad s = _
  simp only [execSelfTestUnitDone, hsome, hneg, Bool.false_eq_true, if_false, List.isEmpty_iff]
  rfl

/-! ### RP_RETIRE and the repair log (R572, R573, R575) -/

theorem rpRetire_bad (ha : Accepted s c .mgmt false) (hbad : retiredUnit c = none ∨ opZero c 38 63 = false) :
    exec (.rpRetire c) s = .next (s.complete c CS.badCommand) := by
  refine congrArg next ((runCmd_accepted ha).trans ?_)
  dsimp only
  split
  · rfl
  · rename_i u hu
    have hz : opZero c 38 63 = false := hbad.resolve_left (by simp [hu])
    exact if_pos (by simp [hz])

section
variable (ha : Accepted s c .mgmt false) (hu : retiredUnit c = some u) (hz : opZero c 38 63 = true)
include ha hu hz

theorem rpRetire_last (hset : s.workingSet = true) (hbreaks : (s.judge u 7).workingSet = false) :
    exec (.rpRetire c) s = .next (s.complete c CS.noResource) := by
  refine congrArg next ((runCmd_accepted ha).trans ?_)
  simp only [hu, hz, hset, hbreaks, Bool.not_true, Bool.not_false, Bool.and_self, Bool.false_eq_true, if_false, if_true]

/-- A retirement that leaves the working set as it was answers what serves the unit's number now. -/
theorem rpRetire_retires (hkeeps : s.workingSet = false ∨ (s.judge u 7).workingSet = true) : exec (.rpRetire c) s = .next (
    match s.served u with
    | some n => (s.judge u 7).complete c CS.ok ((s.judge u 7).boundUnit u n)
    | none => (s.judge u 7).drawFree.2.complete c CS.ok (s.judge u 7).drawFree.1.toNat) := by
  have hneg : (s.workingSet && !(s.judge u 7).workingSet) = false := by obtain hset | hset := hkeeps <;> simp [hset]
  refine congrArg next ((runCmd_accepted ha).trans ?_)
  cases hserved : s.served u <;> simp only [hu, hz, hneg, hserved, Bool.not_true, Bool.false_eq_true, if_false]

end

theorem rpLogAckWrite_stores (h : MayWrite s w Reg.RP_LOG_ACK) : exec (.rpLogAckWrite w) s = .next ((s.store w Reg.RP_LOG_ACK).put Fld.RP_LOG_ACK_COUNT
    (min (s.wouldGet w Fld.RP_LOG_ACK_COUNT) (s.get Fld.RP_LOG_COUNT_WRITTEN))) := congrArg next (fromPort_may h)

/-- Settles O58: a failure by whether the device serves, a window and a period by the count, a command by what it names, a finding by its test. -/
theorem repairCommands : Obligations.RepairCommands := by
  intro s
  refine ⟨fun u p h => ?failures, ⟨repairWindowRestart_rests, fun hnew => ?window⟩,
    fun l => ⟨fun hrests => selfTestPeriod_rests hrests l, fun hserves hen hdue => selfTestPeriod_tests hserves hen hdue l⟩,
    fun c ha => ⟨fun hnone => rpRetire_bad ha (.inl hnone), fun u _ hz => rpRetire_bad ha (.inr hz), fun u hu hz => ?retires, selfTest_bad ha,
      fun k hmask hz hk hfree hlive => ?starts⟩,
    fun slot u bad => ⟨fun hnone => selfTestUnitDone_none hnone u bad, fun t hsome => ?finding⟩, fun w => rpLogAckWrite_stores⟩
  case failures =>
    exact ⟨fun hout => ⟨handshakeTimeout_rests (.inr hout), groomPairDisagree_rests hout p, aisleLinkFail_rests (.inl hout)⟩,
      fun hunit => handshakeTimeout_rests (.inl hunit), fun hserves => ⟨fun hunit => handshakeTimeout_judges hunit hserves,
        groomPairDisagree_judges hserves p, fun hrests => aisleLinkFail_rests (.inr hrests), aisleLinkFail_judges hserves⟩⟩
  case window => exact ⟨_, repairWindowRestart_clears hnew, rfl, rfl, clearCorrected_regs s, rfl, rfl⟩
  case retires =>
    refine ⟨rpRetire_last ha hu hz, fun hkeeps => ?_⟩
    have hretires := rpRetire_retires ha hu hz hkeeps
    refine ⟨fun n hserved => ?_, fun hserved => ?_⟩
    · rwa [hserved] at hretires
    · rwa [hserved] at hretires
  case starts =>
    obtain ⟨hst, hopcode, -⟩ := startedOp_op s c k 0xC1 [opByte c 32]
    have hstart := selfTest_starts ha hmask hz ⟨hk, hfree, hlive⟩ rfl
    exact ⟨startedOp s c k 0xC1 [opByte c 32], startedOp_live s c k 0xC1 [opByte c 32], hopcode, hst, rfl, rfl,
      fun hnone => hstart.trans (congrArg next (if_pos hnone)), fun hsome => hstart.trans (congrArg next (if_neg hsome))⟩
  case finding =>
    refine ⟨fun hrests => selfTestUnitDone_rests hsome hrests bad, fun hrun hleft => ⟨fun hmore => ?_, fun hlast => ?_⟩⟩
    · exact (selfTestUnitDone_tests hsome hrun hleft bad).trans (congrArg next (if_neg hmore))
    · exact (selfTestUnitDone_tests hsome hrun hleft bad).trans (congrArg next (if_pos hlast))

end Sys2Proof.Proofs
end

section
/-! Checkpoints: what they hold and how they are taken, restores, and mirrors (R578 to R595). -/

namespace Sys2Proof.Proofs

open Sys2Proof Sys2Proof.Machine Sys2Proof.Safety Sys2Proof.Laws

variable {s v : State} {c : Cmd} {k op i n t num : Nat} {m : Mirror}

/-! ### What a checkpoint holds (R585) -/

theorem freezing_iff : s.freezing = true ↔ 1 ≤ s.get Fld.CP_STATUS_PHASE ∧ s.get Fld.CP_STATUS_PHASE ≤ 4 := by
  simp [State.freezing]

/-- A command that comes from no queue, or with no checkpoint in a phase that holds it, runs as any other. -/
theorem runHeld_goes_on {c : Cmd} (h : (∃ q, c.issuer = .queue q) → s.freezing = false) (kind : QueueKind) (free : Bool) (body : State → State) :
    s.runHeld c kind free body = s.runCmd c kind free body := by
  unfold State.runHeld
  split
  case h_1 q hq => simp [h ⟨q, hq⟩]
  case h_2 => rfl

/-- Settles O9: a queue's command waits in phases 1 to 4 alone, a Hub thread's never. -/
theorem checkpointHoldsQueuedCommands : Obligations.CheckpointHoldsQueuedCommands := by
  intro c kind free body s
  refine ⟨fun q hq hmin hmax => runHeld_held hq (freezing_iff.mpr ⟨hmin, hmax⟩), fun hphase => runHeld_goes_on (fun _ => ?_) kind free body,
    fun slot unit hhub => runHeld_goes_on (fun ⟨q, hq⟩ => ?_) kind free body⟩
  · rw [← Bool.not_eq_true, freezing_iff]
    omega
  · cases hhub.symm.trans hq

/-! ### CP_TAKE and the periodic trigger (R583, R595) -/

theorem cpTake_bad (ha : Accepted s c .mgmt false) (hz : opZero c 40 63 = false) : exec (.cpTake c) s = .next (s.refuse c CS.badCommand) :=
  congrArg next ((runCmd_accepted ha).trans (if_pos (by simp [hz])))

theorem cpTake_notReady (ha : Accepted s c .mgmt false) (hz : opZero c 40 63 = true)
    (hbusy : s.cp.op ≠ none ∨ s.get Fld.PW_STATUS_PARKING = 1 ∨ s.get Fld.CP_CTRL_EN = 0) : exec (.cpTake c) s = .next (s.refuse c CS.notReady) := by
  refine congrArg next ((runCmd_accepted ha).trans ((if_neg (by simp [hz])).trans (if_pos ?_)))
  obtain hop | hpark | hoff := hbusy
  · simp [State.cpBusy, Option.isSome_iff_ne_none.mpr hop]
  · simp [on_of_one hpark]
  · simp [on_of_zero hoff]

/-- The STEP that a CP_TAKE names, or the next. -/
def takenStep (s : State) (c : Cmd) : Nat := if opU64 c 32 = 0 then s.cpNextStep else opU64 c 32

theorem cpTake_begins {w : State} (ha : Accepted s c .mgmt false) (hz : opZero c 40 63 = true) (hidle : s.cp.op = none)
    (hpark : s.get Fld.PW_STATUS_PARKING = 0) (hen : s.get Fld.CP_CTRL_EN = 1) (hfree : LowestFree s k)
    (hw : w = startedOp s c k 0x90 [s.cpTarget, takenStep s c]) :
    exec (.cpTake c) s = .next ((w.complete c CS.ok (w.opHandle k)).beginCheckpoint k s.cpTarget (takenStep s c)) := by
  have hready : ¬ (s.cpBusy || s.on Fld.PW_STATUS_PARKING || !s.on Fld.CP_CTRL_EN) = true := by
    simp [State.cpBusy, hidle, on_of_zero hpark, on_of_one hen]
  subst hw
  exact congrArg next ((runCmd_accepted ha).trans ((if_neg (by simp [hz])).trans ((if_neg hready).trans (beginOp_lowestFree hfree c _ _ _))))

/-- The last whole multiple of CP_PERIOD. -/
def cpPeriodStart (s : State) : Nat := s.now / s.get Fld.CP_PERIOD_NS * s.get Fld.CP_PERIOD_NS

theorem cpPeriodicTrigger_rests (h : s.get Fld.CP_TRIG_PERIODIC = 0 ∨ s.get Fld.CP_PERIOD_NS = 0 ∨ cpPeriodStart s ≤ s.cp.periodAt) :
    exec .cpPeriodicTrigger s = .next s := by
  refine congrArg next (if_pos ?_)
  show (!s.on Fld.CP_TRIG_PERIODIC || decide (s.get Fld.CP_PERIOD_NS = 0) || decide (cpPeriodStart s ≤ s.cp.periodAt)) = true
  obtain hoff | hnone | hdone := h
  · simp [on_of_zero hoff]
  · simp [hnone]
  · simp [hdone]

theorem cpPeriodicTrigger_triggers (hen : s.get Fld.CP_TRIG_PERIODIC = 1) (hperiod : 0 < s.get Fld.CP_PERIOD_NS) (hdue : s.cp.periodAt < cpPeriodStart s) :
    exec .cpPeriodicTrigger s = .next ({ s with cp := { s.cp with periodAt := cpPeriodStart s } }).triggerCheckpoint := by
  refine congrArg next (if_neg ?_)
  show ¬ (!s.on Fld.CP_TRIG_PERIODIC || decide (s.get Fld.CP_PERIOD_NS = 0) || decide (cpPeriodStart s ≤ s.cp.periodAt)) = true
  simp [on_of_one hen, Nat.ne_of_gt hperiod, Nat.not_le.mpr hdue]

/-! ### The phases (R584, R585) -/

theorem cpFreezeDone_rests (h : s.get Fld.CP_STATUS_PHASE ≠ 1 ∨ s.frozen = false) : exec .cpFreezeDone s = .next s :=
  congrArg next (if_pos (by simpa using h))

/-- The Cell contexts that run at the freeze. -/
def runningCells (s : State) : List Nat := (s.contexts.filter (fun e => decide (e.2.state = .running) && !e.2.hub)).map (·.1)

/-- Those contexts switched out, and kept for the end of the freeze. -/
def frozenCells (s : State) : State :=
  let u := (runningCells s).foldl (fun u slot => u.switchOut slot) s
  { u with cp := { u.cp with switched := runningCells s, yt := u.now } }

theorem cpFreezeDone_freezes (hphase : s.get Fld.CP_STATUS_PHASE = 1) (hfrozen : s.frozen = true) : exec .cpFreezeDone s =
    .next (((frozenCells s).put Fld.CP_STATUS_FROZEN 1).put Fld.CP_STATUS_PHASE 2) :=
  congrArg next (if_neg (by simp [hphase, hfrozen]))

theorem cpDrainDone_rests (h : s.get Fld.CP_STATUS_PHASE ≠ 2 ∨ s.get Fld.STL_DIRTY_NOW_NOW ≠ 0) : exec .cpDrainDone s = .next s :=
  congrArg next (if_pos (by simpa using h))

/-- The open bands closed, and their marks taken. -/
def bandsMarked (s : State) : State :=
  { s.closeBands with cp := { s.closeBands.cp with marks := (List.range 8).map (fun p => (p, (s.closeBands.shedPort p).closed)) } }

theorem cpDrainDone_drains (hphase : s.get Fld.CP_STATUS_PHASE = 2) (hclean : s.get Fld.STL_DIRTY_NOW_NOW = 0) : exec .cpDrainDone s =
    .next (((bandsMarked s).clearSlot (bandsMarked s).cp.slot).put Fld.CP_STATUS_PHASE 3) :=
  congrArg next (if_neg (by simp [hphase, hclean]))

/-- Closing the bands leaves the registers and the checkpoint's slot. -/
theorem bandsMarked_leaves (s : State) : (bandsMarked s).io = s.io ∧ (bandsMarked s).shed = s.closeBands.shed ∧ (bandsMarked s).cp.slot = s.cp.slot := by
  obtain ⟨⟨hsame, -⟩, -⟩ := State.closeBands_frame s
  have hcp : s.closeBands.cp = s.cp := hsame .cp (by decide)
  have hio : s.closeBands.io = s.io := hsame .io (by decide)
  simp only [bandsMarked, hio, hcp, and_self]

theorem cpWriteDone_idle (h : s.cp.op = none) : exec .cpWriteDone s = .next s := by
  show execCpWriteDone s = _
  simp only [execCpWriteDone, h]

theorem cpWriteDone_rests (h : s.cp.op = some op) (hphase : s.get Fld.CP_STATUS_PHASE ≠ 3) : exec .cpWriteDone s = .next s := by
  show execCpWriteDone s = _
  simp only [execCpWriteDone, h, if_pos hphase]

theorem cpWriteDone_full (h : s.cp.op = some op) (hphase : s.get Fld.CP_STATUS_PHASE = 3) (hroom : s.slotRoom < s.cpBytes) :
    exec .cpWriteDone s = .next (s.dropCheckpoint .failed CS.noResource) := by
  show execCpWriteDone s = _
  simp only [execCpWriteDone, h, if_neg (not_not.mpr hphase), if_pos hroom]

/-- The slot committed: valid with its SEQ and STEP, and the checkpoint at its end. -/
def slotCommitted (s : State) : State :=
  let u : State := { s with cpSlots := sparseInsert s.cp.slot s.cpImage s.cpSlots }
  let x := ((u.put (Fld.CP_SLOT_STATE_VALID s.cp.slot) 1).put (Fld.CP_SLOT_STATE_SEQ s.cp.slot) s.cp.seq).put (Fld.CP_SLOT_STEP_STEP s.cp.slot) s.cp.step
  { x with cp := { s.cp with op := none, lastDone := some s.now } }

theorem cpWriteDone_commits (h : s.cp.op = some op) (hphase : s.get Fld.CP_STATUS_PHASE = 3) (hroom : s.cpBytes ≤ s.slotRoom) : exec .cpWriteDone s =
    .next (((slotCommitted s).endFreeze.raise { code := 0x0E01, subject := s.cp.slot, detail := [s.cp.step] }).endOp op .done CS.ok s.cp.step s.cp.slot) := by
  show execCpWriteDone s = _
  simp only [execCpWriteDone, h, if_neg (not_not.mpr hphase), if_neg (Nat.not_lt.mpr hroom)]
  rfl

/-! ### Restore (R587 to R590, R595) -/

/-- A SLOT or SKIP_ABSENT out of range, or a reserved byte that is not 0. -/
def RestoreMalformed (c : Cmd) : Prop := 3 ≤ opByte c 32 ∨ 2 ≤ opByte c 33 ∨ opZero c 34 39 = false ∨ opZero c 48 63 = false

theorem restoreChecks_iff :
    (decide (3 ≤ opByte c 32) || decide (2 ≤ opByte c 33) || !opZero c 34 39 || !opZero c 48 63) = true ↔ RestoreMalformed c := by
  simp only [RestoreMalformed, Bool.or_eq_true, decide_eq_true_eq, Bool.not_eq_true', or_assoc]

theorem cpRestore_bad (ha : Accepted s c .mgmt false) (hbad : RestoreMalformed c) : exec (.cpRestore c) s = .next (s.refuse c CS.badCommand) :=
  congrArg next ((runCmd_accepted ha).trans (if_pos (restoreChecks_iff.mpr hbad)))

theorem cpRestore_starts {w : State} (ha : Accepted s c .mgmt false) (hok : ¬ RestoreMalformed c) (hfree : LowestFree s k)
    (hw : w = startedOp s c k 0x91 [opByte c 32]) : exec (.cpRestore c) s =
      .next ((w.complete c CS.ok (w.opHandle k)).startRestore k (opByte c 32) (opU64 c 40) (decide (opByte c 33 = 1))) := by
  subst hw
  exact congrArg next ((runCmd_accepted ha).trans ((if_neg (mt restoreChecks_iff.mp hok)).trans (beginOp_lowestFree hfree c _ _ _)))

theorem startRestore_notFresh (h : s.notFresh = true) (op which expect : Nat) (skip : Bool) : s.startRestore op which expect skip =
    (s.raise { code := 0x0E02, subject := 0, detail := [0, CS.notReady] }).endOp op .failed CS.notReady 0 0 0 := if_pos h

/-- A slot that passes every check is read in phase 5. -/
theorem startRestore_reads {which expect : Nat} {skip : Bool} {image : CpImage} (hfresh : s.notFresh = false) (hslot : s.restoreSlot which = some k)
    (hvalid : s.cpValid k = true) (hfind : s.cpSlots.find? (fun e => e.1 = k) = some (k, image)) (hpass : s.imageFails k expect skip image = none)
    (hv : v = { s with cp := { s.cp with op := some op, slot := k, step := image.step, skipAbsent := skip } }) :
    s.startRestore op which expect skip = (v.put Fld.CP_OP_HANDLE (v.opHandle op)).put Fld.CP_STATUS_PHASE 5 := by
  subst hv
  simp only [State.startRestore, hfresh, hslot, hvalid, hfind, hpass, Bool.false_eq_true, if_false, if_true]

theorem cpRestoreReadsDone_idle (h : s.cp.op = none) (bad : Option (Nat × Bool)) : exec (.cpRestoreReadsDone bad) s = .next s := by
  show execCpRestoreReadsDone bad s = _
  simp only [execCpRestoreReadsDone, h]

theorem cpRestoreReadsDone_rests (hphase : s.get Fld.CP_STATUS_PHASE ≠ 5) (bad : Option (Nat × Bool)) : exec (.cpRestoreReadsDone bad) s = .next s := by
  show execCpRestoreReadsDone bad s = _
  unfold execCpRestoreReadsDone
  split
  · rw [if_pos hphase]
  · rfl

/-- The reads of a restore at an end. -/
def readsEnded (s : State) : State := ({ s with cp := { s.cp with op := none } }).put Fld.CP_STATUS_PHASE 0

section
variable {e : Nat × CpImage} (hop : s.cp.op = some op) (hfind : s.cpSlots.find? (fun e => e.1 = s.cp.slot) = some e)
  (hphase : s.get Fld.CP_STATUS_PHASE = 5)
include hop hfind hphase

theorem cpRestoreReadsDone_restores : exec (.cpRestoreReadsDone none) s = .next (
    (((readsEnded s).restoreImage s.cp.skipAbsent e.2).autoMerges.raise { code := 0x0E04, subject := e.1, detail := [e.2.step] }).endOp op .done CS.ok
      e.2.step (e.2.shards.length - ((readsEnded s).readShards s.cp.skipAbsent e.2).length)) := by
  show execCpRestoreReadsDone none s = _
  simp only [execCpRestoreReadsDone, hop, hfind, if_neg (not_not.mpr hphase)]
  rfl

theorem cpRestoreReadsDone_fails (n : Nat) (uncorrectable : Bool) : exec (.cpRestoreReadsDone (some (n, uncorrectable))) s = .next (
    ((((readsEnded s).readShards s.cp.skipAbsent e.2).flatMap (·.runs)).take n).foldl (fun x r => x.quarantine (r.addr / 4096) r.len) (readsEnded s)
      |>.failRestore op e.1 e.2.step (if uncorrectable = true then CS.uncorrectable else CS.integrity) 0 0) := by
  show execCpRestoreReadsDone (some (n, uncorrectable)) s = _
  simp only [execCpRestoreReadsDone, hop, hfind, if_neg (not_not.mpr hphase)]
  rfl

end

/-! ### Mirrors (R591, R595) -/

/-- Whether a range of `n` granules from `x` on keeps clear of a pair's ranges. -/
def clearOf (x n : Nat) (m : Mirror) : Bool :=
  (decide (x + 4096 * n ≤ m.primary) || decide (m.primary + m.len ≤ x)) && (decide (x + 4096 * n ≤ m.mirror) || decide (m.mirror + m.len ≤ x))

theorem clearOf_iff {x : Nat} : clearOf x n m = true ↔ ∀ y ∈ [m.primary, m.mirror], x + 4096 * n ≤ y ∨ y + m.len ≤ x := by
  simp [clearOf]

/-- The fields and ranges of a CP_MIRROR of stall `i`: a tensor, 1 to 262,144 granules, and both ranges the tenant's on two Hives. -/
def MirrorNamed (s : State) (c : Cmd) (t i : Nat) : Prop :=
  (s.stall i).hdr.kind = 2 ∧ opZero c 32 35 = true ∧ opZero c 40 63 = true ∧ 1 ≤ opU32 c 36 ∧ opU32 c 36 ≤ 262144 ∧
    s.mirrorRange t c.addrA.toNat (opU32 c 36) = true ∧ s.mirrorRange t c.addrB.toNat (opU32 c 36) = true ∧
    hiveOf (s.servedAt c.addrA.toNat) ≠ hiveOf (s.servedAt c.addrB.toNat)

/-- Neither range of a CP_MIRROR meets a pair's. -/
def MirrorApart (s : State) (c : Cmd) : Prop :=
  ∀ m ∈ s.mirrors, ∀ x ∈ [c.addrA.toNat, c.addrB.toNat], ∀ y ∈ [m.primary, m.mirror], x + 4096 * opU32 c 36 ≤ y ∨ y + m.len ≤ x

/-- The checks of CP_MIRROR on what it names. -/
def mirrorRefused (s : State) (c : Cmd) (t i : Nat) : Bool :=
  (s.stall i).hdr.kind ≠ 2 || !opZero c 32 35 || !opZero c 40 63 || opU32 c 36 = 0 || 262144 < opU32 c 36 ||
    !s.mirrorRange t c.addrA.toNat (opU32 c 36) || !s.mirrorRange t c.addrB.toNat (opU32 c 36) ||
    hiveOf (s.servedAt c.addrA.toNat) = hiveOf (s.servedAt c.addrB.toNat) ||
    !s.mirrors.all (clearOf c.addrA.toNat (opU32 c 36)) || !s.mirrors.all (clearOf c.addrB.toNat (opU32 c 36))

theorem mirrorRefused_false_iff : mirrorRefused s c t i = false ↔ MirrorNamed s c t i ∧ MirrorApart s c := by
  have hapart : MirrorApart s c ↔
      s.mirrors.all (clearOf c.addrA.toNat (opU32 c 36)) = true ∧ s.mirrors.all (clearOf c.addrB.toNat (opU32 c 36)) = true := by
    simp only [MirrorApart, List.all_eq_true, clearOf_iff]
    refine ⟨fun h => ⟨fun m hm => h m hm _ (by simp), fun m hm => h m hm _ (by simp)⟩, fun ⟨hprimary, hmirror⟩ m hm x hx => ?_⟩
    obtain rfl | rfl := List.mem_pair.mp hx
    · exact hprimary m hm
    · exact hmirror m hm
  rw [hapart]
  simp only [mirrorRefused, MirrorNamed, Bool.or_eq_false_iff, Bool.not_eq_false', decide_eq_false_iff_not, ne_eq, not_not, Nat.not_lt, and_assoc,
    ← Nat.pos_iff_ne_zero, Nat.succ_le_iff]

section
variable (ha : Accepted s c .tenant false) (ht : t = (s.issuerTenant c.issuer).getD 0) (hhandle : s.checkHandle t c.handle.toNat false = .ok i)
include ha ht hhandle

theorem cpMirror_checked : exec (.cpMirror c) s = .next (
    if mirrorRefused s c t i = true then s.complete c CS.badCommand
    else if 4096 ≤ s.mirrors.length then s.complete c CS.noResource
    else s.setMirrors (s.mirrors ++ [⟨(firstBelow (fun k => !s.mirrors.any (fun m => m.num = k)) 4096).getD 0, i, t, c.addrA.toNat, c.addrB.toNat,
      4096 * opU32 c 36, false, some (coreOf c)⟩])) := by
  subst ht
  refine congrArg next ((runCmd_accepted ha).trans ?_)
  simp only [hhandle]
  rfl

theorem cpMirror_bad (hbad : ¬ (MirrorNamed s c t i ∧ MirrorApart s c)) : exec (.cpMirror c) s = .next (s.complete c CS.badCommand) :=
  (cpMirror_checked ha ht hhandle).trans (congrArg next (if_pos (Bool.not_eq_false _ ▸ mt mirrorRefused_false_iff.mp hbad)))

section
variable (hnamed : MirrorNamed s c t i) (hapart : MirrorApart s c)
include hnamed hapart

theorem cpMirror_full (hfull : 4096 ≤ s.mirrors.length) : exec (.cpMirror c) s = .next (s.complete c CS.noResource) :=
  (cpMirror_checked ha ht hhandle).trans
    (congrArg next ((if_neg (by simp [mirrorRefused_false_iff.mpr ⟨hnamed, hapart⟩])).trans (if_pos hfull)))

/-- The pair takes the lowest free number. -/
theorem cpMirror_pairs (hroom : s.mirrors.length < 4096) (hnum : num < 4096) (hfree : ∀ m ∈ s.mirrors, m.num ≠ num)
    (hlow : ∀ j < num, ∃ m ∈ s.mirrors, m.num = j) : exec (.cpMirror c) s =
      .next (s.setMirrors (s.mirrors ++ [⟨num, i, t, c.addrA.toNat, c.addrB.toNat, 4096 * opU32 c 36, false, some (coreOf c)⟩])) := by
  have hfirst : firstBelow (fun k => !s.mirrors.any (fun m => m.num = k)) 4096 = some num :=
    firstBelow_eq_some (by simpa using hfree) hnum (fun j hj => by simpa using hlow j hj)
  refine (cpMirror_checked ha ht hhandle).trans
    (congrArg next ((if_neg (by simp [mirrorRefused_false_iff.mpr ⟨hnamed, hapart⟩])).trans ((if_neg (Nat.not_le.mpr hroom)).trans ?_)))
  rw [hfirst]
  rfl

end

end

theorem cpUnmirror_bad (ha : Accepted s c .tenant false) (ht : t = (s.issuerTenant c.issuer).getD 0)
    (hbad : opZero c 36 63 = false ∨ ∀ m ∈ s.mirrors, m.num ≠ opU32 c 32 ∨ m.tenant ≠ t) : exec (.cpUnmirror c) s = .next (s.complete c CS.badCommand) := by
  subst ht
  refine congrArg next ((runCmd_accepted ha).trans (if_pos ?_))
  obtain hz | hnone := hbad
  · simp [hz]
  · have hany : s.mirrors.any (fun m => decide (m.num = opU32 c 32 ∧ m.tenant = (s.issuerTenant c.issuer).getD 0)) = false := by
      simp only [List.any_eq_false, decide_eq_true_eq, not_and_or]
      exact hnone
    simp only [hany, Bool.not_false, Bool.or_true]

theorem cpUnmirror_dissolves (ha : Accepted s c .tenant false) (ht : t = (s.issuerTenant c.issuer).getD 0) (hz : opZero c 36 63 = true)
    (hsome : ∃ m ∈ s.mirrors, m.num = opU32 c 32 ∧ m.tenant = t) : exec (.cpUnmirror c) s =
      .next ((s.dissolve (fun m => m.num = opU32 c 32)).complete c CS.ok) := by
  subst ht
  have hany : s.mirrors.any (fun m => decide (m.num = opU32 c 32 ∧ m.tenant = (s.issuerTenant c.issuer).getD 0)) = true := by
    simpa only [List.any_eq_true, decide_eq_true_eq] using hsome
  exact congrArg next ((runCmd_accepted ha).trans (if_neg (by simp only [hany, hz, Bool.not_true, Bool.or_self, Bool.false_eq_true, not_false_eq_true])))

theorem cpMirrorCopyDone_none (h : s.mirrors.find? (fun m => decide (m.num = num) && !m.ready) = none) : exec (.cpMirrorCopyDone num) s = .next s := by
  show execCpMirrorCopyDone num s = _
  simp only [execCpMirrorCopyDone, h]

/-- The pair copied and marked ready. -/
def mirrorReady (s : State) (m : Mirror) (num : Nat) : State :=
  (s.copyMirror m).setMirrors ((s.copyMirror m).mirrors.map (fun x : Mirror => if x.num = num then { x with ready := true, cmd := none } else x))

theorem cpMirrorCopyDone_completes (h : s.mirrors.find? (fun m => decide (m.num = num) && !m.ready) = some m) (hc : m.cmd = some c) :
    exec (.cpMirrorCopyDone num) s = .next ((mirrorReady s m num).complete c CS.ok num) := by
  show execCpMirrorCopyDone num s = _
  simp only [execCpMirrorCopyDone, h, hc]
  rfl

/-! ### The statement's parts, assembled -/

/-- Settles O59: a command by what it names and the lowest FREE slot, each phase by what it waits for, a restore by its checks, a pair by its
ranges and its number. -/
theorem checkpointCommands : Obligations.CheckpointCommands := by
  intro s
  refine ⟨fun c k ha => ⟨cpTake_bad ha, cpTake_notReady ha, fun hz hidle hpark hen hk hfree hlive => ?takes, cpRestore_bad ha,
      fun hwhich hskip hz hz' hk hfree hlive => ?restores⟩,
    fun op which expect skip => ⟨fun h => startRestore_notFresh h op which expect skip, fun k i hfresh hslot hvalid hfind hpass =>
      ⟨_, startRestore_reads hfresh hslot hvalid hfind hpass rfl, rfl, rfl, rfl, rfl⟩⟩,
    ⟨cpPeriodicTrigger_rests, cpPeriodicTrigger_triggers⟩, cpFreezeDone_rests, fun hphase hfrozen => ⟨_, cpFreezeDone_freezes hphase hfrozen, rfl⟩,
    cpDrainDone_rests, fun hphase hclean => ?drains, fun h => ⟨cpWriteDone_idle h, fun bad => cpRestoreReadsDone_idle h bad⟩,
    fun op h => ⟨cpWriteDone_rests h, cpWriteDone_full h,
      fun hphase hroom => ⟨slotCommitted s, cpWriteDone_commits h hphase hroom, rfl, rfl, rfl, rfl⟩,
      fun bad hphase => cpRestoreReadsDone_rests hphase bad, fun e hfind hphase =>
        ⟨cpRestoreReadsDone_restores h hfind hphase, fun n uncorrectable => cpRestoreReadsDone_fails h hfind hphase n uncorrectable⟩⟩,
    fun c i ha => ⟨fun hhandle => ?mirrors, fun hnone => cpUnmirror_bad ha rfl (.inr hnone), fun hz => cpUnmirror_bad ha rfl (.inl hz),
      cpUnmirror_dissolves ha rfl⟩,
    fun num => ⟨cpMirrorCopyDone_none, fun m c h hc => ⟨mirrorReady s m num, cpMirrorCopyDone_completes h hc, rfl, rfl⟩⟩⟩
  case takes =>
    obtain ⟨hst, hopcode, -⟩ := startedOp_op s c k 0x90 [s.cpTarget, takenStep s c]
    exact ⟨_, cpTake_begins ha hz hidle hpark hen ⟨hk, hfree, hlive⟩ rfl, startedOp_live .., hopcode, hst, rfl, rfl⟩
  case restores =>
    obtain ⟨hst, hopcode, -⟩ := startedOp_op s c k 0x91 [opByte c 32]
    have hok : ¬ RestoreMalformed c := by simp [RestoreMalformed, hz, hz', Nat.not_le.mpr hwhich, Nat.not_le.mpr hskip]
    exact ⟨_, cpRestore_starts ha hok ⟨hk, hfree, hlive⟩ rfl, startedOp_live .., hopcode, hst, rfl, rfl⟩
  case drains =>
    exact ⟨bandsMarked s, cpDrainDone_drains hphase hclean, bandsMarked_leaves s⟩
  case mirrors =>
    refine ⟨fun hbad => cpMirror_bad ha rfl hhandle ?_, fun hkind hz hz' hmin hmax hprimary hmirror hhives hapart => ?_,
      fun hmeets => cpMirror_bad ha rfl hhandle ?_⟩
    · rintro ⟨⟨hkind, -, -, hmin, hmax, hprimary, hmirror, hhives⟩, -⟩
      obtain h | h | h | h | h | h := hbad
      · exact h hkind
      · omega
      · omega
      · exact Bool.false_ne_true (h.symm.trans hprimary)
      · exact Bool.false_ne_true (h.symm.trans hmirror)
      · exact hhives h
    · have hnamed : MirrorNamed s c ((s.issuerTenant c.issuer).getD 0) i := ⟨hkind, hz, hz', hmin, hmax, hprimary, hmirror, hhives⟩
      exact ⟨cpMirror_full ha rfl hhandle hnamed hapart, fun num => cpMirror_pairs ha rfl hhandle hnamed hapart⟩
    · rintro ⟨-, hapart⟩
      obtain ⟨m, hm, x, hx, y, hy, hbelow, habove⟩ := hmeets
      have := hapart m hm x hx y hy
      omega

end Sys2Proof.Proofs
end

section
/-! SUPPORT. What the stall engine's statements share: a stall command that goes on to its own effect, the stalls that an operation leaves alone, a
flag of a header set, and what parks, revives and journals leave in the slot that they are about (R37, R48 to R51, R57). -/

namespace Sys2Proof.Proofs

open Sys2Proof Sys2Proof.Machine Sys2Proof.Safety Sys2Proof.Laws

/-! ### A command on a stall -/

/-- A stall command that fails no check does its own effect. -/
theorem stallCmd_onStall {s : State} {c : Cmd} {i : Nat} {long remoteOk : Bool} {fieldsOk : Nat → Bool} {body : Nat → State → State}
    (h : OnStall s c i remoteOk) (hf : fieldsOk i = true) : s.stallCmd c long true remoteOk fieldsOk body = body i s := by
  obtain ⟨ha, hhandle, hen, hlost⟩ := h
  simp only [State.stallCmd, State.stallCmdOn, if_true, runHeld_accepts ha, hhandle, hf, hen, hlost, Bool.not_true, Bool.not_false, Bool.and_false,
    Bool.false_eq_true, if_false]

/-- A stall is ready for a command exactly where no other is in progress on it and it stands in one of the states. -/
theorem stallReady_of {x : Stall} {l : List StallState} (hb : busyOpcode x = none) (hx : x.state ∈ l) : stallReady x l = true := by
  simp [stallReady, hb, hx]

theorem stallReady_busy {x : Stall} (l : List StallState) (hb : busyOpcode x ≠ none) : stallReady x l = false := by
  simp [stallReady, hb]

/-- A message that no checkpoint holds has its effect. -/
theorem heldMsg_goes_on {s : State} (h : s.freezing = false) (f : State → State) : s.heldMsg f = f s := by
  simp [State.heldMsg, h]

/-! ### Flags (R37) -/

@[simp] theorem setFlagBit_set (b flags : Nat) : (setFlagBit b true flags).testBit b = true := by
  cases h : flags.testBit b with
  | true => simp [setFlagBit, h]
  | false => simp [setFlagBit, h, Nat.add_comm flags, Nat.testBit_two_pow_add_eq]

/-! ### The stalls that an operation leaves alone -/

/-- States with one directory hold the same stalls. -/
theorem stall_of_stalls {s t : State} (h : t.stalls = s.stalls) (i : Nat) : t.stall i = s.stall i := congrArg (sparseGet ({} : Stall) · i) h

theorem stall_of_kept {l : List StateField} {s t : State} (h : Kept l s t) (hl : StateField.stalls ∉ l) (i : Nat) : t.stall i = s.stall i :=
  stall_of_stalls (h.1.1 .stalls hl) i

@[simp] theorem put_stall (s : State) (f : RegField) (n j : Nat) : (s.put f n).stall j = s.stall j := rfl
@[simp] theorem stallEvent_stall (s : State) (code i j : Nat) (d : List Nat) : (s.stallEvent code i d).stall j = s.stall j := rfl
@[simp] theorem complete_stall (s : State) (c : Cmd) (status r0 r1 r2 j : Nat) : (s.complete c status r0 r1 r2).stall j = s.stall j :=
  stall_of_stalls (complete_stalls s c status r0 r1 r2) j
@[simp] theorem send_stall (s : State) (m : Msg) (j : Nat) : (s.send m).stall j = s.stall j := stall_of_kept (State.send_frame s m) (by decide) j
@[simp] theorem sendDevice_stall (s : State) (type dst tenant handle msgId aux j : Nat) :
    (s.sendDevice type dst tenant handle msgId aux).stall j = s.stall j := send_stall ..
@[simp] theorem sendAccept_stall (s : State) (m : Msg) (i j : Nat) : (s.sendAccept m i).stall j = s.stall j := send_stall ..
@[simp] theorem writePageHeaders_stall (s : State) (i j : Nat) : (s.writePageHeaders i).stall j = s.stall j :=
  stall_of_kept (State.writePageHeaders_frame s i) (by decide) j
@[simp] theorem lookInput_stall (s : State) (t : Nat) (l : List (List Byte)) (j : Nat) : (s.lookInput t l).stall j = s.stall j :=
  stall_of_kept (State.lookInput_frame s t l) (by decide) j

/-- A record update of a header in a slot. -/
@[simp] theorem stall_updHdr_same (s : State) (i : Nat) (f : Header → Header) :
    (s.updHdr i f).stall i = { s.stall i with hdr := f (s.stall i).hdr } := stall_setStall_same ..

/-- Relocations abandoned leave of a stall all but its relocations. -/
@[simp] theorem stall_dropRelocs_same (s : State) (i : Nat) : (s.dropRelocs i).stall i = { s.stall i with relocs := [] } := stall_setStall_same ..

/-! ### What a park, a revive and a journal record leave in their slot -/

/-- The pages released of a stall: it has no table, relocation or input granule any more. -/
@[simp] theorem stall_releasePages_same (s : State) (i : Nat) :
    (s.releasePages i).stall i = { s.stall i with table := none, relocs := [], inputGranules := [], inputHead := 0, vsCap := 0 } := stall_setStall_same ..

/-- An image sealed lies in the Shed, its pool slot free and its table gone. -/
theorem stall_of_sealImage {s t : State} {i ports : Nat} (h : s.sealImage i ports = some t) :
    (t.stall i).location = 1 ∧ (t.stall i).poolSlot = none ∧ (t.stall i).table = none := by
  obtain ⟨u, -, rfl⟩ := Option.map_eq_some_iff.mp h
  simp

/-- A park started keeps the stall's state until its writes have ended. -/
theorem stall_startPark (s : State) (i ports : Nat) (c : Option Cmd) :
    ((s.startPark i ports c).stall i) = { s.stall i with
      relocs := [], park := some ⟨(s.stall i).state, c, if ports = 0 then (s.stall i).hdr.shedPorts else ports⟩
      hdr := { (s.stall i).hdr with flags := setFlagBit 6 true (s.stall i).hdr.flags } } := by
  simp [State.startPark]

/-- A revive that finds its pool slot, a sound header and room for its table starts. -/
theorem startRevive_starts {s u v : State} {i : Nat} {r : ReviveX} (hslot : s.takeSlot i = some u) (hhead : s.headerStatus i = none)
    (htable : u.takeTable i r.hive = some v) :
    s.startRevive i r = v.setStall i { v.stall i with
      revive := some r, hdr := { (v.stall i).hdr with flags := setFlagBit 7 true (v.stall i).hdr.flags } } := by
  simp [State.startRevive, hslot, hhead, htable]

theorem startRevive_badHeader {s u : State} {i st : Nat} {r : ReviveX} (hslot : s.takeSlot i = some u) (hhead : s.headerStatus i = some st) :
    s.startRevive i r = s.reviveAnswer r.cause st 0 := by
  simp [State.startRevive, hslot, hhead]

/-- Without a pool slot, or without room for the table of a sound header, no revive starts. -/
theorem startRevive_noSlot {s : State} {i : Nat} (r : ReviveX) (hslot : s.takeSlot i = none) : s.startRevive i r = s.reviveNoRoom i r := by
  simp [State.startRevive, hslot]

theorem startRevive_noRoom {s : State} {i : Nat} {r : ReviveX} (hhead : s.headerStatus i = none)
    (hroom : (s.takeSlot i).bind (fun u => u.takeTable i r.hive) = none) : s.startRevive i r = s.reviveNoRoom i r := by
  cases hslot : s.takeSlot i with
  | none => exact startRevive_noSlot r hslot
  | some u =>
    rw [hslot] at hroom
    simp only [Option.bind_some] at hroom
    simp only [State.startRevive, hslot, hhead, hroom]

/-- The end of a revive whose header came back sound and whose image and queue are rebuilt. -/
theorem finishRevive_rebuilt {s u : State} {i : Nat} {bad : Option Nat} {ok : Bool} {r : ReviveX} {failed : Option Nat} (hr : (s.stall i).revive = some r)
    (hhead : (headerRecord ((s.loseRevive i bad ok).stall i)).bind (s.loseRevive i bad ok).recordStatus = none)
    (himage : (s.loseRevive i bad ok).reviveImage i ((s.readRevive i bad ok).usable i) = some (u, failed)) :
    ∃ s0 : State, s.finishRevive i bad ok =
      u.enterRevived s0 i r failed (s.stall i).result.isSome (journalBytes ((s.readRevive i bad ok).usable i)) := by
  simp only [State.finishRevive, hr, hhead, himage]
  exact ⟨_, rfl⟩

theorem finishRevive_badHeader {s : State} {i st : Nat} {bad : Option Nat} {ok : Bool} {r : ReviveX} (hr : (s.stall i).revive = some r)
    (hhead : (headerRecord ((s.loseRevive i bad ok).stall i)).bind (s.loseRevive i bad ok).recordStatus = some st) :
    s.finishRevive i bad ok = ((s.loseRevive i bad ok).undoRevive i).reviveAnswer r.cause st 0 := by
  simp only [State.finishRevive, hr, hhead]

/-- Reads that come back while no audit and no power warning stands end the revive. -/
theorem reviveReadsDone_finishes {s : State} (halloc : s.allocStopped = false) (hpark : s.on Fld.PW_STATUS_PARKING = false) (i : Nat) (bad : Option Nat)
    (ok : Bool) : exec (.reviveReadsDone i bad ok) s = .next (s.finishRevive i bad ok) :=
  congrArg next (if_neg (by simp [halloc, hpark]))

/-- A stall that enters WAITING waits from now on (R52). -/
theorem stall_enterWaiting (s : State) (i : Nat) :
    (s.enterWaiting i).stall i = { s.stall i with state := .waiting, hdr := { (s.stall i).hdr with waitStart := s.now } } := by
  simp only [State.enterWaiting]
  split <;> simp

@[simp] theorem stall_enterHot (s : State) (i : Nat) : (s.enterHot i).stall i = { s.stall i with state := .hot, leftOut := 0 } := stall_setStall_same ..

end Sys2Proof.Proofs
end

section
/-! STALL_CREATE: its checks in their order, and the stall that it makes (R28, R33, R44, R46, R357, R635). -/

namespace Sys2Proof.Proofs

open Sys2Proof Sys2Proof.Machine Sys2Proof.Safety Sys2Proof.Laws

/-- The grammar image and the stop set that a session names are absent or sound, the grammar starting at `start`. -/
def ImagesSound (s : State) (c : Cmd) (t start : Nat) : Prop :=
  opByte c 32 = 0 → (c.addrA = 0 ∧ start = 0 ∨ c.addrA ≠ 0 ∧ ∃ g, s.grammarImage t c.addrA.toNat = .ok g ∧ g.start = start) ∧
    (c.addrB = 0 ∨ ∃ q, s.stopSet t c.addrB.toNat = .ok q)

section
variable {c : Cmd} {s : State} {t start : Nat}

/-- What a creation reads of a sound grammar: its first state, and 0 where it names none. -/
theorem grammarStart_of_sound (hn : ImagesSound s c t start) :
    (if decide (opByte c 32 = 0) && decide (c.addrA ≠ 0) then (s.grammarImage t c.addrA.toNat).map (·.start) else .ok 0) =
      .ok (if opByte c 32 = 0 then start else 0) := by
  by_cases hk : opByte c 32 = 0
  · rw [if_pos hk]
    obtain ⟨hA, rfl⟩ | ⟨hA, g, hg, rfl⟩ := (hn hk).1
    · exact if_neg (by simp [hA])
    · rw [if_pos (by simpa [hk] using hA), hg]
      rfl
  · rw [if_neg hk]
    exact if_neg (by simp [hk])

theorem stopSet_of_sound (hn : ImagesSound s c t start) :
    (if decide (opByte c 32 = 0) && decide (c.addrB ≠ 0) then (s.stopSet t c.addrB.toNat).map (fun _ => ()) else .ok ()) = .ok () := by
  split
  · next hread =>
    obtain ⟨hk, hB⟩ : opByte c 32 = 0 ∧ c.addrB ≠ 0 := by simpa using hread
    obtain ⟨q, hq⟩ := (hn hk).2.resolve_left hB
    rw [hq]
    rfl
  · rfl

variable (ha : AcceptedHeld s c .tenant false) (ht : t = (s.issuerTenant c.issuer).getD 0)
include ha

theorem stallCreate_stopped (halloc : s.allocStopped = true) : exec (.stallCreate c) s = .next s :=
  congrArg next ((runHeld_accepts ha).trans (if_pos halloc))

include ht

theorem stallCreate_badFields (halloc : s.allocStopped = false) (hf : s.createFieldsOk c t = false) :
    exec (.stallCreate c) s = .next (s.complete c CS.badCommand) := by
  subst ht
  refine congrArg next ((runHeld_accepts ha).trans ?_)
  simp only [halloc, hf, Bool.not_false, Bool.false_eq_true, if_false, if_true]

theorem stallCreate_disabled (halloc : s.allocStopped = false) (hf : s.createFieldsOk c t = true) (he : s.createEnabled c t = false) :
    exec (.stallCreate c) s = .next (s.complete c CS.notReady) := by
  subst ht
  refine congrArg next ((runHeld_accepts ha).trans ?_)
  simp only [halloc, hf, he, Bool.not_false, Bool.not_true, Bool.false_eq_true, if_false, if_true]

/-- Past its fields, the enables and its images a creation goes on to its resources. -/
theorem stallCreate_checked (halloc : s.allocStopped = false) (hf : s.createFieldsOk c t = true) (he : s.createEnabled c t = true)
    (hn : ImagesSound s c t start) : exec (.stallCreate c) s = .next (s.createStall c t (if opByte c 32 = 0 then start else 0)) := by
  subst ht
  refine congrArg next ((runHeld_accepts ha).trans ?_)
  simp only [halloc, hf, he, Bool.not_true, Bool.false_eq_true, if_false, grammarStart_of_sound hn, stopSet_of_sound hn]

end

/-! ### The resources of R635 step 7 -/

section
variable {s : State} {c : Cmd} {t : Nat} (start : Nat)

theorem createStall_held (h : s.get Fld.STL_CTRL_HOLD_CREATE = 1) : s.createStall c t start = s.complete c CS.noResource :=
  if_pos (on_of_one h)

theorem createStall_overQuota (h : s.get Fld.STL_CTRL_HOLD_CREATE = 0) (hq : s.get (Fld.TN_QUOTA_STALLS t) ≤ s.tenantStalls t) :
    s.createStall c t start = (s.raise { code := 0x0A05, tenant := some t }).complete c CS.noResource := by
  simp only [State.createStall, on_of_zero h, hq, Bool.false_eq_true, if_false, if_true]

theorem createStall_full (h : s.get Fld.STL_CTRL_HOLD_CREATE = 0) (hq : s.tenantStalls t < s.get (Fld.TN_QUOTA_STALLS t))
    (hfull : (∀ i < stallSlots, (s.stall i).state ≠ .free) ∨ s.freePoolSlot = none) : s.createStall c t start = s.complete c CS.noResource := by
  simp only [State.createStall, on_of_zero h, Nat.not_le.mpr hq, Bool.false_eq_true, if_false]
  obtain hslots | hpool := hfull
  · rw [firstBelow_eq_none (fun i hi => decide_eq_false (hslots i hi))]
  · rw [hpool]
    cases firstBelow (fun i => decide ((s.stall i).state = .free)) stallSlots <;> rfl

/-- The new stall as the directory takes it: HOT, at EPOCH 1, under a handle of its slot, generation, tenant and kind (R28, R33, R34). -/
def newStall (s : State) (c : Cmd) (t i h start : Nat) : Stall :=
  let shape := s.tenantShape t
  let hdr := s.newHeader c t (stallHandle i (s.stall i).gen t (opByte c 32)) h (s.createSeed c).1 start
  { gen := (s.stall i).gen, state := .hot, ownerDev := s.deviceId, epoch := 1, handle := stallHandle i (s.stall i).gen t (opByte c 32), shape := shape
    pageMin := s.get (Fld.KV_SHAPE_PAGE_MIN shape), pageMax := s.get (Fld.KV_SHAPE_PAGE_MAX shape)
    spread := s.get (Fld.KV_SHAPE_SPREAD_LOG2 shape), shedPorts := hdr.shedPorts, hdr := hdr }

/-- A session's new stall with its root table and its layers on Hive `h`. -/
def newSession (s : State) (c : Cmd) (t i h start : Nat) (p : PageTable) : Stall :=
  let x := newStall s c t i h start
  { x with table := some p, hdr := { x.hdr with ptRoot := p.addr, layerMap := List.replicate p.layers.length h } }

/-- A creation finds all that it needs beside Tier 1: no hold, quota, the lowest FREE slot `i`, a pool slot `k` and a home Hive `h`. -/
structure Creates (s : State) (c : Cmd) (t i k h : Nat) : Prop where
  hold : s.get Fld.STL_CTRL_HOLD_CREATE = 0
  quota : s.tenantStalls t < s.get (Fld.TN_QUOTA_STALLS t)
  slot : firstBelow (fun i => decide ((s.stall i).state = .free)) stallSlots = some i
  pool : s.freePoolSlot = some k
  home : (if opByte c 35 ≠ 0xFF then some (opByte c 35) else s.roomiest (if opByte c 32 = 0 then s.fullHive t else s.partitionHive t)) = some h

variable {i k h : Nat} (hc : Creates s c t i k h)
include hc

theorem createStall_other (hk : opByte c 32 ≠ 0) : s.createStall c t start =
    (((s.createSeed c).2.setStall i (newStall s c t i h start)).takePoolSlot i k).complete c CS.ok (stallHandle i (s.stall i).gen t (opByte c 32)) := by
  obtain ⟨hhold, hquota, hslot, hpool, hhome⟩ := hc
  simp only [hk, if_false, ne_eq] at hhome
  simp only [State.createStall, on_of_zero hhold, Nat.not_le.mpr hquota, hslot, hpool, hk, hhome, Bool.false_eq_true, if_false, if_true, decide_false,
    Bool.false_and, ne_eq, not_false_eq_true]
  rfl

theorem createStall_session (hk : opByte c 32 = 0) (hfull : ∃ n, n < 16 ∧ s.fullHive t n = true) {p : PageTable} {u : State}
    (htable : (s.createSeed c).2.newTable i h (s.tenantShape t) = some (p, u)) : s.createStall c t start =
      (((u.setStall i (newSession s c t i h start p)).takePoolSlot i k).writePageHeaders i).complete c CS.ok
        (stallHandle i (s.stall i).gen t (opByte c 32)) := by
  obtain ⟨hhold, hquota, hslot, hpool, hhome⟩ := hc
  have hany : (List.range 16).any (s.fullHive t) = true := by
    obtain ⟨n, hn, hf⟩ := hfull
    exact List.any_eq_true.mpr ⟨n, List.mem_range.mpr hn, hf⟩
  rw [if_pos hk] at hhome
  simp only [State.createStall, on_of_zero hhold, Nat.not_le.mpr hquota, hslot, hpool, if_pos hk, hhome, decide_eq_true hk, if_neg (not_not.mpr hk), hany,
    htable, Bool.false_eq_true, if_false, Bool.not_true, Bool.and_false]
  rfl

end

/-- What the statement says of the slot of a new stall and of the other slots. -/
def CreatedIn (s u : State) (c : Cmd) (t i k h : Nat) : Prop :=
  (u.stall i).state = .hot ∧ (u.stall i).handle = stallHandle i (s.stall i).gen t (opByte c 32) ∧ (u.stall i).epoch = 1 ∧
    (u.stall i).location = 0 ∧ (u.stall i).headerAt = s.get Fld.STL_HDR_POOL_BASE + 4096 * k ∧ (u.stall i).hdr.tenant = t ∧
    (u.stall i).hdr.priority = opByte c 33 ∧ (u.stall i).hdr.deadPolicy = opByte c 34 ∧ (u.stall i).hdr.flags = opU16 c 44 ∧
    (u.stall i).hdr.endToken = opU32 c 36 ∧ (u.stall i).hdr.homeHive = h ∧
    ((u.stall i).table.isSome = true ↔ opByte c 32 = 0) ∧ ∀ j, j ≠ i → u.stall j = s.stall j

/-- A slot given a new stall and a pool slot. -/
theorem createdIn_of {s u w : State} {c : Cmd} {t i k h start : Nat} {x : Stall} (hx : x = newStall s c t i h start ∧ opByte c 32 ≠ 0 ∨
    opByte c 32 = 0 ∧ ∃ p, x = newSession s c t i h start p) (hio : u.io = s.io) (hstalls : u.stalls = s.stalls)
    (hw : ∀ j, w.stall j = ((u.setStall i x).takePoolSlot i k).stall j) : CreatedIn s w c t i k h := by
  have hat : w.stall i = { x with poolSlot := some k, location := 0, headerAt := s.get Fld.STL_HDR_POOL_BASE + 4096 * k } := by
    rw [hw i, ← get_of_io hio]
    simp only [State.takePoolSlot, stall_setStall_same]
    rfl
  have hother : ∀ j, j ≠ i → w.stall j = s.stall j := fun j hj => by
    rw [hw j, State.takePoolSlot, stall_setStall_other _ _ _ _ hj, stall_setStall_other _ _ _ _ hj, stall_of_stalls hstalls]
  unfold CreatedIn
  rw [hat]
  obtain ⟨rfl, hk⟩ | ⟨hk, p, rfl⟩ := hx
  · exact ⟨rfl, rfl, rfl, rfl, rfl, rfl, rfl, rfl, rfl, rfl, rfl, by simp [newStall, hk], hother⟩
  · exact ⟨rfl, rfl, rfl, rfl, rfl, rfl, rfl, rfl, rfl, rfl, rfl, by simp [newSession, hk], hother⟩

/-- A creation that finds what it needs makes its stall and answers the handle. -/
theorem createStall_creates {s : State} {c : Cmd} {t i k h : Nat} (start : Nat) (hc : Creates s c t i k h)
    (hfull : opByte c 32 = 0 → ∃ n, n < 16 ∧ s.fullHive t n = true)
    (htable : opByte c 32 = 0 → ((s.createSeed c).2.newTable i h (s.tenantShape t)).isSome = true) :
    ∃ u : State, s.createStall c t start = u.complete c CS.ok (stallHandle i (s.stall i).gen t (opByte c 32)) ∧ CreatedIn s u c t i k h := by
  have hseed := State.createSeed_frame s c
  have hio : (s.createSeed c).2.io = s.io := hseed.1.1 .io (by decide)
  have hstalls : (s.createSeed c).2.stalls = s.stalls := hseed.1.1 .stalls (by decide)
  by_cases hk : opByte c 32 = 0
  · obtain ⟨⟨p, u⟩, hp⟩ := Option.isSome_iff_exists.mp (htable hk)
    have hframe := State.newTable_frame _ _ _ _ hp
    exact ⟨_, createStall_session start hc hk (hfull hk) hp, createdIn_of (.inr ⟨hk, p, rfl⟩) ((hframe.1.1 .io (by decide)).trans hio)
      ((hframe.1.1 .stalls (by decide)).trans hstalls) (fun j => writePageHeaders_stall _ i j)⟩
  · exact ⟨_, createStall_other start hc hk, createdIn_of (.inl ⟨rfl, hk⟩) hio hstalls (fun _ => rfl)⟩

/-- The home Hive: the one that the command names, or the one chosen where it names none (R44). -/
theorem homeHive_eq {c : Cmd} {h : Nat} {chosen : Option Nat} (hh : opByte c 35 = h ∧ h ≠ 0xFF ∨ opByte c 35 = 0xFF ∧ chosen = some h) :
    (if opByte c 35 ≠ 0xFF then some (opByte c 35) else chosen) = some h := by
  obtain ⟨rfl, hne⟩ | ⟨hnone, hchosen⟩ := hh
  · exact if_pos hne
  · exact (if_neg (not_not.mpr hnone)).trans hchosen

/-- Settles O33: a creation by the first check that it fails, and past them by the lowest FREE slot, the pool and the home Hive (slot, generation and
EPOCH: R30; HOT: R40). -/
theorem stallCreation : Obligations.StallCreation := by
  intro c s start ha
  refine ⟨stallCreate_stopped ha, stallCreate_badFields ha rfl, stallCreate_disabled ha rfl, fun halloc hf he hn => ?_⟩
  have hgoes := stallCreate_checked ha rfl halloc hf he hn
  generalize (if opByte c 32 = 0 then start else 0) = grStart at hgoes
  refine ⟨fun hhold => hgoes.trans (congrArg next (createStall_held _ hhold)),
    fun hhold hq => hgoes.trans (congrArg next (createStall_overQuota _ hhold hq)),
    fun hhold hq hfull => hgoes.trans (congrArg next (createStall_full _ hhold hq hfull)),
    fun i k h hhold hq hi hfree hlow hpool hhome hfull htable => ?_⟩
  have hslot : firstBelow (fun i => decide ((s.stall i).state = .free)) stallSlots = some i :=
    firstBelow_eq_some (decide_eq_true hfree) hi (fun j hj => decide_eq_false (hlow j hj))
  obtain ⟨u, hu, hcreated⟩ := createStall_creates grStart ⟨hhold, hq, hslot, hpool, homeHive_eq hhome⟩ hfull htable
  exact ⟨u, hgoes.trans (congrArg next hu), hcreated⟩

end Sys2Proof.Proofs
end

section
/-! The stall engine's own events, the announcements that revive a stall, and the audit of the books (R40, R47 to R56, R70, R90, R126). -/

namespace Sys2Proof.Proofs

open Sys2Proof Sys2Proof.Machine Sys2Proof.Safety Sys2Proof.Laws

/-! ### Parks and revives (R48, R50, R51) -/

variable {s : State} {i : Nat}

/-- A park whose journal and image the Shed takes: the stall PARKED before the park's command is answered. -/
def parkedIn (w : State) (i : Nat) : State := w.setStall i { w.stall i with state := .parked, queued := [], heldInput := [], marks := [] }

theorem parkWritesDone_parks {p : ParkX} {u w : State} (hpark : (s.stall i).park.isSome = true) (hp : ((s.tend i).stall i).park = some p)
    (hu : (s.tend i).journalUpTo i p.ports ((s.tend i).stall i).hdr.committedLen = some u) (hw : u.sealImage i p.ports = some w) :
    ∃ t : State, exec (.parkWritesDone i) s = .next t.advanceTeardowns ∧ t.stall i = (parkedIn w i).stall i := by
  have hdone : ∃ t : State, (s.tend i).finishPark i = t ∧ t.stall i = (parkedIn w i).stall i := by
    simp only [State.finishPark, hp, hu, hw, Option.bind_some]
    split
    · exact ⟨_, rfl, complete_stall ..⟩
    · exact ⟨_, rfl, rfl⟩
  obtain ⟨t, ht, hstall⟩ := hdone
  refine ⟨t, ?_, hstall⟩
  show next ((if (s.stall i).park.isSome then s.tend i else s).finishPark i).advanceTeardowns = _
  rw [if_pos hpark, ht]

theorem reviveReadsDone_command {r : ReviveX} {c : Cmd} {bad : Option Nat} {ok : Bool} {u : State} (hr : (s.stall i).revive = some r) (hc : r.cause = .command c)
    (halloc : s.allocStopped = false) (hpark : s.on Fld.PW_STATUS_PARKING = false) (hresult : (s.stall i).result = none)
    (hhead : (headerRecord ((s.loseRevive i bad ok).stall i)).bind (s.loseRevive i bad ok).recordStatus = none)
    (himage : (s.loseRevive i bad ok).reviveImage i ((s.readRevive i bad ok).usable i) = some (u, none)) :
    exec (.reviveReadsDone i bad ok) s =
      .next ((if r.toHot then u.enterHot i else u.enterWaiting i).complete c CS.ok (journalBytes ((s.readRevive i bad ok).usable i))) := by
  obtain ⟨s0, hdone⟩ := finishRevive_rebuilt hr hhead himage
  rw [reviveReadsDone_finishes halloc hpark, hdone]
  simp [State.enterRevived, hresult, hc, State.reviveAnswer]

theorem reviveReadsDone_announced {r : ReviveX} {u : State} (hr : (s.stall i).revive = some r) (hc : r.cause = .announce)
    (halloc : s.allocStopped = false) (hpark : s.on Fld.PW_STATUS_PARKING = false) (hresult : (s.stall i).result = none)
    (hhead : (headerRecord ((s.loseRevive i none true).stall i)).bind (s.loseRevive i none true).recordStatus = none)
    (himage : (s.loseRevive i none true).reviveImage i ((s.readRevive i none true).usable i) = some (u, none)) :
    exec (.reviveReadsDone i none true) s = .next (u.enterWaiting i) := by
  obtain ⟨s0, hdone⟩ := finishRevive_rebuilt hr hhead himage
  rw [reviveReadsDone_finishes halloc hpark, hdone]
  simp [State.enterRevived, hresult, hc]

/-! ### A deferred revive tried again (R51) -/

section
variable {r : ResultX} {at_ : Nat} (hr : (s.stall i).result = some r) (hat : r.retryAt = some at_)

/-- The state in which a retry begins, its result no longer due. -/
def retrying (s : State) (i : Nat) (r : ResultX) : State := s.setStall i { s.stall i with result := some { r with retryAt := none } }

include hr hat

theorem reviveRetry_early (hnow : s.now < at_) : exec (.reviveRetry i) s = .next s := by
  show execReviveRetry i s = _
  simp [execReviveRetry, hr, hat, Nat.not_le.mpr hnow]

variable (hst : (s.stall i).state = .parked) (hbusy : busyOpcode (s.stall i) = none) (hnow : at_ ≤ s.now)
  (hpark : s.on Fld.PW_STATUS_PARKING = false)
include hst hbusy hnow hpark

theorem reviveRetry_due : exec (.reviveRetry i) s = .next ((retrying s i r).startRevive i ⟨.result true, true, 0xFF⟩) := by
  have hready : stallReady (s.stall i) [.parked] = true := stallReady_of hbusy (by simp [hst])
  show execReviveRetry i s = _
  simp [execReviveRetry, hr, hat, hnow, hready, hpark, retrying]

theorem reviveRetry_starts {a u : State} (hslot : (retrying s i r).takeSlot i = some a) (hhead : (retrying s i r).headerStatus i = none)
    (htable : a.takeTable i 0xFF = some u) :
    ∃ t : State, exec (.reviveRetry i) s = .next t ∧ flagOn (t.stall i) 7 = true ∧ t.io = u.io := by
  refine ⟨_, (reviveRetry_due hr hat hst hbusy hnow hpark).trans (congrArg next (startRevive_starts hslot hhead htable)), ?_, rfl⟩
  simp [flagOn]

theorem reviveRetry_deferred (hslot : (retrying s i r).takeSlot i = none) :
    ∃ t : State, exec (.reviveRetry i) s = .next (t.stallEvent 0x0602 i) ∧
      (t.stall i).state = .parked ∧ (t.stall i).result = some { r with retryAt := some (s.now + s.get Fld.STL_REVIVE_RETRY_NS) } := by
  refine ⟨_, (reviveRetry_due hr hat hst hbusy hnow hpark).trans (congrArg next (startRevive_noSlot _ hslot)), ?_, ?_⟩
  · simp [retrying, hst]
  · simp only [retrying, stall_setStall_same, Option.map_some]
    rfl

end

/-! ### Timers (R40, R49, R52) -/

theorem freeSlot_stall (s : State) (i : Nat) :
    (s.freeSlot i).stall i = { gen := if (s.stall i).gen = 0xFFFFFFFF then 1 else (s.stall i).gen + 1 } := by
  simp [State.freeSlot]

theorem retireHoldExpiry_frees (hst : (s.stall i).state = .retired) (hmerge : s.merging i = false)
    (hnow : (s.stall i).retiredAt + s.get Fld.STL_RETIRE_HOLD_NS ≤ s.now) : exec (.retireHoldExpiry i) s = .next (s.freeSlot i) :=
  congrArg next (if_pos (by simp [hst, hmerge, hnow]))

theorem retireHoldExpiry_rests (h : (s.stall i).state ≠ .retired ∨ s.merging i = true ∨
    s.now < (s.stall i).retiredAt + s.get Fld.STL_RETIRE_HOLD_NS) : exec (.retireHoldExpiry i) s = .next s := by
  refine congrArg next (if_neg ?_)
  obtain h | h | h := h
  · simp [h]
  · simp [h]
  · simp [Nat.not_le.mpr h]

/-- The time that a WAITING stall waits (R52). -/
def waitTime (s : State) (i : Nat) : Nat :=
  if (s.stall i).hdr.waitTimeout = 0 then s.get Fld.STL_WAIT_DEFAULT_NS else (s.stall i).hdr.waitTimeout

theorem waitTimeout_parks (hst : (s.stall i).state = .waiting) (hpin : flagOn (s.stall i) 4 = false) (hbusy : busyOpcode (s.stall i) = none)
    (hkind : (s.stall i).hdr.kind ≠ 1) (hheld : (s.stall i).heldInput = []) (hset : waitTime s i ≠ 0xFFFFFFFFFFFFFFFF)
    (hdue : (s.stall i).hdr.waitStart + waitTime s i ≤ s.now) : exec (.waitTimeout i) s = .next (s.startPark i 0 none) := by
  unfold waitTime at hset hdue
  exact congrArg next (if_pos (by simp [hst, hpin, hbusy, hkind, hheld, hset, hdue]))

theorem waitTimeout_rests (h : waitTime s i = 0xFFFFFFFFFFFFFFFF ∨ s.now < (s.stall i).hdr.waitStart + waitTime s i ∨
    flagOn (s.stall i) 4 = true ∨ (s.stall i).heldInput ≠ []) : exec (.waitTimeout i) s = .next s := by
  unfold waitTime at h
  refine congrArg next (if_neg ?_)
  obtain h | h | h | h := h
  · simp [h]
  · simp [Nat.not_le.mpr h]
  · simp [h]
  · simp [h]

theorem quarantineScrubDone_frees {start len : Nat} (h : s.t1.allOwned Owner.isQuarantine start len = true) :
    exec (.quarantineScrubDone start len) s = .next (State.advanceTeardowns { s with t1 := (s.t1.clear start len).free start len }) :=
  congrArg next (if_pos h)

theorem quarantineScrubDone_rests {start len : Nat} (h : s.t1.allOwned Owner.isQuarantine start len = false) :
    exec (.quarantineScrubDone start len) s = .next s :=
  congrArg next (if_neg (by simp [h]))

/-! ### The journal and relocations (R56, R57, R90) -/

/-- A record written leaves JOURNAL_LEN and Tier 1 as they are. -/
theorem journal_keeps (s : State) (i mask : Nat) (payload : JPayload) :
    ((s.journal i mask payload).stall i).hdr.journalLen = (s.stall i).hdr.journalLen ∧ (s.journal i mask payload).t1 = s.t1 := by
  refine ⟨?_, (State.journal_frame s i mask payload).1.1 .t1 (by decide)⟩
  unfold State.journal State.journalIf State.journalAt
  dsimp only
  split
  · rfl
  · simp

/-- One record brings the journal up to the last step within the tokens named. -/
theorem journalUpTo_brings {v : State} {n mask : Nat} {m : StepMark} (hm : markFor (v.stall i) n = some m)
    (hlen : (v.stall i).hdr.journalLen < m.len)
    (hroom : (v.journalAt i mask m.step m.sampleCtr (.latent (v.runsOf i (v.stall i).hdr.journalLen m.len m.nextInput))).isSome = true) :
    ∃ u : State, v.journalUpTo i mask n = some u ∧ (u.stall i).hdr.journalLen = m.len ∧ u.t1 = v.t1 := by
  obtain ⟨u, hu⟩ := Option.isSome_iff_exists.mp hroom
  have ht1 : u.t1 = v.t1 := (State.journalAt_frame _ _ _ _ _ _ hu).1.1 .t1 (by decide)
  simp only [State.journalUpTo, hm, Nat.not_le.mpr hlen, if_false, hu, Option.map_some]
  exact ⟨_, rfl, by simp [State.setDirty], ht1⟩

/-- Stall `i` owns committed state that a Shed port in write service journals. -/
def Journals (s : State) (i : Nat) : Prop :=
  (s.stall i).state ∈ [StallState.hot, .running, .waiting] ∧ (s.stall i).hdr.kind ≠ 1 ∧ s.writablePorts ≠ 0

theorem journalRecordWrite_writes {n : Nat} (h : Journals s i) {u : State} (hu : (s.tend i).journalUpTo i 0 n = some u) :
    exec (.journalRecordWrite i n none) s = .next (u.journal i 0 (.header (u.stall i).hdr)) := by
  obtain ⟨hst, hkind, hports⟩ := h
  refine congrArg next ((if_pos (by simpa [hkind, hports] using hst)).trans ?_)
  simp [hu]

theorem journalRecordWrite_rests {n : Nat} (h : ¬ Journals s i) (bad : Option (Nat × Nat)) : exec (.journalRecordWrite i n bad) s = .next s := by
  refine congrArg next (if_neg fun hgo => h ?_)
  simpa [Journals, and_assoc] using hgo

/-- A stall whose layer has moved to where a relocation placed it. -/
def relocated (x : Stall) (p : PageTable) (layer : Nat) (r : Reloc) (fresh : Layer) : Stall :=
  { x with
    table := some { p with layers := p.layers.set layer fresh }, relocs := x.relocs.filter (fun q => decide (q.layer ≠ layer))
    hdr := { x.hdr with layerMap := x.hdr.layerMap.set layer r.hive } }

theorem layerRelocateDone_stores {layer : Nat} {r : Reloc} {p : PageTable} {l : Layer}
    (hr : ((s.tend i).stall i).relocs.find? (fun q => decide (q.layer = layer)) = some r) (hp : ((s.tend i).stall i).table = some p)
    (hl : p.layers[layer]? = some l) : ∃ (u : State) (fresh : Layer), fresh.list = r.list ∧
      exec (.layerRelocateDone i layer) s =
        .next ((u.setStall i (relocated ((s.tend i).stall i) p layer r fresh)).stallEvent 0x0705 i [layer]) := by
  show ∃ (u : State) (fresh : Layer), _ ∧ execLayerRelocateDone i layer s = _
  simp only [execLayerRelocateDone, hr, hp, hl]
  exact ⟨_, ⟨r.list, _, _⟩, rfl, rfl⟩

theorem layerRelocateDone_ends {v : State} {layer : Nat} {r : Reloc} {p : PageTable} {l : Layer} (hv : v = s.tend i)
    (hr : (v.stall i).relocs.find? (fun q => decide (q.layer = layer)) = some r) (hp : (v.stall i).table = some p) (hl : p.layers[layer]? = some l) :
    ∃ t : State, exec (.layerRelocateDone i layer) s = .next (t.stallEvent 0x0705 i [layer]) ∧
      (t.stall i).relocs = (v.stall i).relocs.filter (fun q => decide (q.layer ≠ layer)) ∧
      (t.stall i).hdr.layerMap = (v.stall i).hdr.layerMap.set layer r.hive ∧
      (((t.stall i).table.bind (·.layers[layer]?)).map Layer.list) = some r.list := by
  subst hv
  have hlt : layer < p.layers.length := (List.getElem?_eq_some_iff.mp hl).1
  obtain ⟨u, fresh, hlist, hexec⟩ := layerRelocateDone_stores hr hp hl
  exact ⟨_, hexec, by simp [relocated, hlt, hlist]⟩

/-- Settles O35: each event by whether its work is done, its time has come and the stall still stands as it did (a merge that holds a RETIRED slot: log
entry 29). -/
theorem stallEngineEvents : Obligations.StallEngineEvents := by
  intro s i
  refine ⟨fun p u w hpark hp hu hw => ?parks, fun r c bad ok hr hc halloc hpark => ⟨fun st hhead => ?lost, fun u hhead hresult himage => ?revives⟩,
    fun r at_ hr hat hst hbusy => ⟨reviveRetry_early hr hat,
      fun a u hnow hpark hslot hhead htable => reviveRetry_starts hr hat hst hbusy hnow hpark hslot hhead htable,
      fun hnow hpark hslot => reviveRetry_deferred hr hat hst hbusy hnow hpark hslot⟩,
    fun hst hmerge hnow => ⟨_, retireHoldExpiry_frees hst hmerge hnow, by simp [freeSlot_stall], by simp [freeSlot_stall]⟩, retireHoldExpiry_rests,
    fun hst hpin hbusy hkind hheld w hw => ⟨fun hset hdue => ?waited, fun h => ?waits⟩, fun h => waitTimeout_rests (.inr (.inr h)),
    fun n m hst hkind hports hm hlen hroom => ?journals, fun n b h => journalRecordWrite_rests ?_ b,
    fun layer r p l hr hp hl => layerRelocateDone_ends rfl hr hp hl, fun start len => quarantineScrubDone_frees,
    fun start len => quarantineScrubDone_rests⟩
  case parks =>
    obtain ⟨t, ht, hstall⟩ := parkWritesDone_parks hpark hp hu hw
    obtain ⟨hlocation, hpool, htable⟩ := stall_of_sealImage hw
    refine ⟨t, ht, ?_⟩
    rw [hstall]
    simp [parkedIn, hlocation, hpool, htable]
  case lost =>
    rw [reviveReadsDone_finishes halloc hpark, finishRevive_badHeader hr hhead, hc]
    rfl
  case revives => exact reviveReadsDone_command hr hc halloc hpark hresult hhead himage
  case waited =>
    subst hw
    refine ⟨_, waitTimeout_parks hst hpin hbusy hkind hheld hset hdue, ?_⟩
    rw [stall_startPark]
    exact ⟨setFlagBit_set .., hst, by simp [hst], rfl⟩
  case waits =>
    subst hw
    exact waitTimeout_rests (h.imp_right .inl)
  case journals =>
    obtain ⟨u, hu, hulen, hut1⟩ := journalUpTo_brings hm hlen hroom
    obtain ⟨hjlen, hjt1⟩ := journal_keeps u i 0 (.header (u.stall i).hdr)
    exact ⟨_, journalRecordWrite_writes ⟨hst, hkind, hports⟩ hu, hjlen.trans hulen, hjt1.trans hut1⟩
  · rintro ⟨hst, hkind, hports⟩
    obtain h | h | h := h
    · exact h hst
    · exact hkind h
    · exact hports h

/-! ### Announcements (R54) -/

section
variable {m : Msg}

/-- An announcement that finds its stall PARKED, waiting for the call and marked REVIVE_ON_ANNOUNCE. -/
structure Awaits (s : State) (i : Nat) (m : Msg) : Prop where
  slot : s.slotOf m.handle = some i
  parked : (s.stall i).state = .parked
  idle : busyOpcode (s.stall i) = none
  marked : flagOn (s.stall i) 1 = true
  call : (s.stall i).hdr.toolCallId = m.msgId
  named : m.msgId ≠ 0
  fresh : (s.stall i).result = none

theorem announceReceived_revives (h : Awaits s i m) : exec (.announceReceived m) s = .next (s.startRevive i ⟨.announce, false, 0xFF⟩) := by
  obtain ⟨hslot, hst, hbusy, hmark, hcall, hnamed, hfresh⟩ := h
  have hready : stallReady (s.stall i) [.parked] = true := stallReady_of hbusy (by simp [hst])
  show execAnnounceReceived m s = _
  simp [execAnnounceReceived, hslot, hst, hready, hmark, hcall, hnamed, hfresh]

theorem announceReceived_ignored (hslot : s.slotOf m.handle = some i) (hremote : (s.stall i).state ≠ .remote)
    (h : (s.stall i).state ≠ .parked ∨ busyOpcode (s.stall i) ≠ none ∨ flagOn (s.stall i) 1 = false ∨ (s.stall i).hdr.toolCallId ≠ m.msgId ∨
      (s.stall i).hdr.toolCallId = 0 ∨ (s.stall i).result ≠ none) : exec (.announceReceived m) s = .next s := by
  show execAnnounceReceived m s = _
  simp only [execAnnounceReceived, hslot, hremote, if_false]
  refine congrArg next (if_neg ?_)
  obtain h | h | h | h | h | h := h
  · simp [stallReady, h]
  · simp [stallReady_busy _ h]
  · simp [h]
  · simp [h]
  · simp [h]
  · simp [h]

end

/-- Settles O37: an announcement that its stall awaits starts the revive where there is room and the header is sound; every other has no effect. -/
theorem announcementRevives : Obligations.AnnouncementRevives := by
  intro m s i
  refine ⟨fun hslot hst hbusy hmark hcall hnamed hfresh => ?_, fun r u hr hc halloc hpark hresult hhead himage => ?_, announceReceived_ignored⟩
  · have hgoes := announceReceived_revives ⟨hslot, hst, hbusy, hmark, hcall, hnamed, hfresh⟩
    refine ⟨fun u v hu hhead hv => ?_, fun u st hu hhead => ?_, fun hhead hroom => ?_⟩
    · exact ⟨_, hgoes.trans (congrArg next (startRevive_starts hu hhead hv)), by simp [flagOn], by simp, rfl⟩
    · exact hgoes.trans (congrArg next (startRevive_badHeader hu hhead))
    · exact ⟨_, hgoes.trans (congrArg next (startRevive_noRoom hhead hroom)), by simp [State.reviveNoRoom, State.reviveAnswer, hst]⟩
  · refine ⟨_, reviveReadsDone_announced hr hc halloc hpark hresult hhead himage, ?_⟩
    rw [stall_enterWaiting]
    exact ⟨rfl, rfl⟩

/-! ### The audit of the books (R47, R70) -/

section
variable {c : Cmd} (ha : AcceptedHeld s c .tenant false)
include ha

theorem booksAudit_bad (hz : opZero c 32 63 = false) : exec (.booksAudit c) s = .next (s.refuse c CS.badCommand) :=
  congrArg next ((runHeld_accepts ha).trans (if_pos (by simp [hz])))

variable (hz : opZero c 32 63 = true)
include hz

theorem booksAudit_disabled (hen : s.get Fld.STL_CTRL_EN = 0) : exec (.booksAudit c) s = .next (s.refuse c CS.notReady) := by
  refine congrArg next ((runHeld_accepts ha).trans ?_)
  simp [hz, on_of_zero hen]

variable (hen : s.get Fld.STL_CTRL_EN = 1)
include hen

theorem booksAudit_begins :
    exec (.booksAudit c) s = .next (s.beginOp c 0x2A [] false (fun _ u => { u with allocStopped := true })) := by
  refine congrArg next ((runHeld_accepts ha).trans ?_)
  simp [hz, on_of_one hen]

theorem booksAudit_full (hfull : ∀ j < 4096, (s.op j).live = true) : exec (.booksAudit c) s = .next (s.refuse c CS.noResource) := by
  have hnone : firstBelow (fun j => !(s.op j).live) 4096 = none := firstBelow_eq_none (fun j hj => by simp [hfull j hj])
  refine (booksAudit_begins ha hz hen).trans (congrArg next ?_)
  simp only [State.beginOp, State.newOp, State.newOpFor, hnone]

end

section
variable {k : Nat} (hlive : (s.op k).live = true) (hop : (s.op k).opcode = 0x2A) (hst : (s.op k).st = .running) (hquiet : s.booksQuiet = true)
include hlive hop hst hquiet

theorem booksAuditCompare_balanced (hpages : s.pageImbalance = 0) (htokens : s.budgetImbalance = 0) :
    exec (.booksAuditCompare k) s = .next (({ s with allocStopped := false } : State).endOp k .done CS.ok) :=
  congrArg next ((if_pos (by simp [hlive, hop, hst, hquiet])).trans (if_pos (by simp [hpages, htokens])))

theorem booksAuditCompare_imbalanced (h : s.pageImbalance ≠ 0 ∨ s.budgetImbalance ≠ 0) : exec (.booksAuditCompare k) s =
    .next ((({ s with allocStopped := false } : State).raise { code := 0x0607, detail := [s.pageImbalance, s.budgetImbalance] }).endOp k .failed
      CS.integrity s.pageImbalance s.budgetImbalance) :=
  congrArg next ((if_pos (by simp [hlive, hop, hst, hquiet])).trans (if_neg (by simp; omega)))

end

theorem booksAuditCompare_waits (k : Nat) (h : s.booksQuiet = false) : exec (.booksAuditCompare k) s = .next s :=
  congrArg next (if_neg (by simp [h]))

/-- Settles O36: the command by its first failing check and the lowest FREE operation slot, the comparison by the books (what an imbalance ends in: log
entry 28). -/
theorem booksAudit : Obligations.BooksAudit := by
  intro c s k
  refine ⟨fun ha => ⟨booksAudit_bad ha, booksAudit_disabled ha, booksAudit_full ha, fun hz hen hk hfree hlow => ?_⟩,
    fun hlive hop hst hquiet => ⟨booksAuditCompare_balanced hlive hop hst hquiet, booksAuditCompare_imbalanced hlive hop hst hquiet⟩,
    booksAuditCompare_waits k⟩
  obtain ⟨hst, hop, -⟩ := startedOp_op s c k 0x2A []
  exact ⟨startedOp s c k 0x2A [], _,
    (booksAudit_begins ha hz hen).trans (congrArg next (beginOp_lowestFree ⟨hk, hfree, hlow⟩ c 0x2A [] _)), rfl, startedOp_live .., hst, hop, rfl⟩

end Sys2Proof.Proofs
end

section
/-! Tool results, fetches and what other devices say of a stall's owner (R55, R63, R66, R424, R429, R585). -/

namespace Sys2Proof.Proofs

open Sys2Proof Sys2Proof.Machine Sys2Proof.Safety Sys2Proof.Laws

variable {m : Msg} {s : State} {i : Nat}

/-- What a checkpoint holds back of the messages (R585). -/
theorem heldMsg_held (h : s.freezing = true) (f : State → State) : s.heldMsg f = s := if_pos h

/-! ### A tool result (R55, R63) -/

theorem resultReceived_unknown (hf : s.freezing = false) (hslot : s.slotOf m.handle = none) : exec (.resultReceived m) s = .next s := by
  refine congrArg next ((heldMsg_goes_on hf _).trans ?_)
  simp only [hslot]

section
variable (hf : s.freezing = false) (hslot : s.slotOf m.handle = some i)
include hf hslot

theorem resultReceived_remote (hst : (s.stall i).state = .remote) : exec (.resultReceived m) s = .next (s.redirect m i) := by
  refine congrArg next ((heldMsg_goes_on hf _).trans ?_)
  simp only [hslot, hst, if_true]

theorem resultReceived_running (hst : (s.stall i).state = .running) :
    exec (.resultReceived m) s = .next (s.setStall i { s.stall i with deferred := (s.stall i).deferred ++ [.result m none] }) := by
  refine congrArg next ((heldMsg_goes_on hf _).trans ?_)
  simp [hslot, hst, State.soon]

/-- A result for a stall that is neither REMOTE nor RUNNING is judged at once. -/
theorem resultReceived_judged (hremote : (s.stall i).state ≠ .remote) (hrunning : (s.stall i).state ≠ .running) :
    exec (.resultReceived m) s = .next (s.applyResult i m).1 := by
  refine congrArg next ((heldMsg_goes_on hf _).trans ?_)
  simp only [hslot, hremote, State.soon, hrunning, if_false, State.doDeferred]

end

theorem applyResult_moving (m : Msg) (hst : (s.stall i).state = .moving) : (s.applyResult i m).1 = s.bump (Fld.NW_STAT_COUNT 7) 1 := by
  simp [State.applyResult, hst, State.countRefused]

/-- A result that answers no call of its stall is counted as a stray (R424). -/
theorem applyResult_stray (hst : (s.stall i).state ∈ [StallState.hot, .waiting, .parked])
    (hcall : (s.stall i).hdr.toolCallId = 0 ∨ (s.stall i).hdr.toolCallId ≠ m.msgId) : (s.applyResult i m).1 = s.bump (Fld.NW_STAT_COUNT 0) 1 := by
  have hmoving : (s.stall i).state ≠ .moving := ne_of_mem_of_not_mem hst (by decide)
  have horphaned : (s.stall i).state ≠ .orphaned := ne_of_mem_of_not_mem hst (by decide)
  have hretired : (s.stall i).state ≠ .retired := ne_of_mem_of_not_mem hst (by decide)
  simp only [State.applyResult, hmoving, horphaned, hretired, if_false, State.countRefused]
  exact congrArg Prod.fst (if_pos (by simpa using hcall))

/-- The WAITING stall whose open call the result answers, with no park under way, no result accepted and no input held. -/
structure AwaitsResult (s : State) (i : Nat) (m : Msg) : Prop where
  waiting : (s.stall i).state = .waiting
  stays : flagOn (s.stall i) 6 = false
  call : (s.stall i).hdr.toolCallId = m.msgId
  named : m.msgId ≠ 0
  fresh : (s.stall i).result = none
  unheld : (s.stall i).heldInput = []
  fits : m.payload.length ≤ s.get Fld.TX_INPUT_BYTES_BYTES

/-- The state with a journalled result accepted and its call closed. -/
def resultAccepted (v : State) (m : Msg) (i : Nat) : State := (v.sendAccept m i).updHdr i (fun h => { h with toolCallId := 0 })

/-- A journal record changes of its stall what tells where its journal lies, and nothing else. -/
theorem stall_journalIf {v : State} {mask : Nat} {payload : JPayload} (h : s.journalIf i mask payload = some v) :
    ∃ l e p q r, v.stall i = { s.stall i with journal := l, extents := e, shedPorts := p,
                                              hdr := { (s.stall i).hdr with journalSeq := q, shedRoot := r, shedPorts := p } } := by
  unfold State.journalIf State.journalAt at h
  dsimp only at h
  split at h
  · cases h
  · cases h
    exact ⟨_, _, _, _, _, stall_setStall_same ..⟩

theorem applyResult_accepts {v : State} {toks : List Nat} {w : State} (h : AwaitsResult s i m)
    (hv : s.journalIf i 0 (.input (s.inputBase i) true m.payload) = some v)
    (htoks : (resultAccepted v m i).tokeniseInput (s.stall i).hdr.tenant true m.payload = .ok (toks, false))
    (hw : ((resultAccepted v m i).lookInput (s.stall i).hdr.tenant [m.payload]).queueTokens i toks = some w) :
    (s.applyResult i m).1 = w.enterHot i := by
  obtain ⟨hst, hpark, hcall, hnamed, hfresh, hheld, hfits⟩ := h
  obtain ⟨l, e, p, q, r, hvi⟩ := stall_journalIf hv
  have hopen : ((s.stall i).hdr.toolCallId = 0 || (s.stall i).hdr.toolCallId ≠ m.msgId) = false := by simp [hcall, hnamed]
  unfold resultAccepted at htoks hw
  simp only [State.applyResult, hst, hopen, hfresh, hpark, List.take_of_length_le hfits, hv, Nat.not_lt.mpr hfits, Option.any_none, if_false,
    Bool.false_eq_true, reduceCtorEq, State.takeResult, sendAccept_stall, hvi, hheld, List.isEmpty_nil, Bool.not_true, htoks, hw, State.noteBadToken,
    if_true]

/-- Tokens queued leave of the slot its header, and its queue with the tokens behind it. -/
theorem stall_growQueue {n : Nat} {w : State} (h : s.growQueue i n = some w) :
    ∃ g, w.stall i = { s.stall i with inputGranules := g } := by
  induction n generalizing s with
  | zero =>
    cases h
    exact ⟨_, rfl⟩
  | succ n ih =>
    rw [State.growQueue] at h
    dsimp only at h
    split at h
    · cases h
    · split at h
      · cases h
      · next g t ht =>
        obtain ⟨g', hg⟩ := ih h
        rw [stall_setStall_same, stall_of_kept (State.alloc_frame _ _ _ _ _ ht) (by decide)] at hg
        exact ⟨g', hg⟩

theorem stall_queueTokens {toks : List Nat} {w : State} (h : s.queueTokens i toks = some w) :
    (w.stall i).hdr = (s.stall i).hdr ∧ (w.stall i).queued = (s.stall i).queued ++ toks := by
  obtain ⟨u, hu, rfl⟩ := Option.map_eq_some_iff.mp h
  obtain ⟨g, hg⟩ := stall_growQueue hu
  simp [hg]

/-- The stall that an accepted result leaves: its call closed, the result's tokens behind those queued. -/
theorem resultAccepted_queued {v w : State} {toks : List Nat} {t : Nat} (hv : s.journalIf i 0 (.input (s.inputBase i) true m.payload) = some v)
    (hw : ((resultAccepted v m i).lookInput t [m.payload]).queueTokens i toks = some w) :
    ((w.enterHot i).stall i).hdr.toolCallId = 0 ∧ (w.stall i).queued = (s.stall i).queued ++ toks := by
  obtain ⟨l, e, p, q, r, hvi⟩ := stall_journalIf hv
  obtain ⟨hhdr, hqueued⟩ := stall_queueTokens hw
  simp [hhdr, hqueued, resultAccepted, hvi]

/-! ### FETCH and its refusal (R66) -/

theorem fetchReceived_unknown (hf : s.freezing = false) (hslot : s.slotOf m.msgId = none) :
    exec (.fetchReceived m) s = .next (s.sendDevice 0x07 m.src m.tenant 0 m.msgId CS.staleGeneration) := by
  refine congrArg next ((heldMsg_goes_on hf _).trans ?_)
  simp only [hslot]

section
variable (hf : s.freezing = false) (hslot : s.slotOf m.msgId = some i)
include hf hslot

theorem fetchReceived_remote (hst : (s.stall i).state = .remote) : exec (.fetchReceived m) s = .next (s.redirect m i) := by
  refine congrArg next ((heldMsg_goes_on hf _).trans ?_)
  simp only [hslot, hst, if_true]

theorem fetchReceived_answered (hst : (s.stall i).state ≠ .remote) : exec (.fetchReceived m) s = .next (s.answerFetch i m.src m.msgId) := by
  refine congrArg next ((heldMsg_goes_on hf _).trans ?_)
  simp only [hslot, hst, if_false]

end

theorem answerFetch_index (dev h : Nat) (hkind : (s.stall i).hdr.kind = 1) :
    s.answerFetch i dev h = s.sendDevice 0x07 dev (s.stall i).hdr.tenant 0 h CS.badCommand := if_pos hkind

theorem answerFetch_running (dev h : Nat) (hkind : (s.stall i).hdr.kind ≠ 1) (hst : (s.stall i).state = .running) :
    s.answerFetch i dev h = s.setStall i { s.stall i with deferred := (s.stall i).deferred ++ [.fetch dev] } := by
  simp [State.answerFetch, hkind, hst]

/-- FETCH of an idle stall: its migration to the asker starts, or is refused with what the reading of its header ends in. -/
theorem answerFetch_idle (dev h : Nat) (hkind : (s.stall i).hdr.kind ≠ 1) (hbusy : busyOpcode (s.stall i) = none)
    (hst : (s.stall i).state ∈ [StallState.hot, .waiting, .parked]) :
    (∀ u, s.intoPool i = .ok u → s.answerFetch i dev h = u.startMigration i none dev false) ∧
      ∀ st, s.intoPool i = .error st → s.answerFetch i dev h = s.sendDevice 0x07 dev (s.stall i).hdr.tenant 0 h st := by
  have horphaned : (s.stall i).state ≠ .orphaned := ne_of_mem_of_not_mem hst (by decide)
  have hrunning : (s.stall i).state ≠ .running := ne_of_mem_of_not_mem hst (by decide)
  refine ⟨fun u hu => ?_, fun st hbad => ?_⟩
  · simp only [State.answerFetch, hkind, horphaned, hrunning, stallReady_of hbusy hst, hu, if_false, if_true]
  · simp only [State.answerFetch, hkind, horphaned, hrunning, stallReady_of hbusy hst, hbad, if_false, if_true]

/-- A stall whose migration has started at its source (R62): MOVING, in phase 1, its lease running and its prior state kept. -/
theorem stall_startMigration (s : State) (i : Nat) (op : Option Nat) (dest : Nat) (park : Bool) :
    let x := (s.startMigration i op dest park).stall i
    x.state = .moving ∧ x.hdr.migRole = 1 ∧ x.hdr.migPhase = 1 ∧ x.hdr.peerDev = dest ∧ x.hdr.priorState = stateCode (s.stall i).state ∧
      x.leaseExpiry = s.now + s.get Fld.STL_LEASE_PREP_NS := by
  simp only [State.startMigration, send_stall, stall_setStall_same, stall_dropRelocs_same, true_and]
  rfl

theorem fetchRefusedReceived_ends {k : Nat} {c : Cmd} (hf : s.freezing = false) (hk : s.fetchSlot m.src m.msgId = some k)
    (hc : (s.stall k).fetchCmd = some c) : exec (.fetchRefusedReceived m) s =
      .next ((s.setStall k { s.stall k with fetchCmd := none }).complete c CS.notOwner m.src m.msgId (m.aux % 256)) := by
  refine congrArg next ((heldMsg_goes_on hf _).trans ?_)
  simp only [State.failFetch, hk, hc]

theorem fetchRefusedReceived_none (hf : s.freezing = false) (hk : s.fetchSlot m.src m.msgId = none) : exec (.fetchRefusedReceived m) s = .next s := by
  refine congrArg next ((heldMsg_goes_on hf _).trans ?_)
  simp only [State.failFetch, hk]

theorem redirectReceived_none (hf : s.freezing = false) (hk : s.fetchSlot m.src m.msgId = none) :
    exec (.redirectReceived m) s = .next (s.repoint m.src m.msgId (recGet m.payload 0 2) m.aux none) := by
  refine congrArg next ((heldMsg_goes_on hf _).trans ?_)
  simp only [hk]

/-! ### OWNER_NOTICE (R68, R429) -/

/-- The directory after a notice: entries for the old pair name the new one. -/
def noticed (s : State) (m : Msg) : State :=
  s.repoint (recGet m.payload 2 2) (recGet m.payload 4 8) (recGet m.payload 0 2) m.msgId (some m.aux)

/-- The slot of the stall that a notice is about. -/
def noticedSlot (u : State) (m : Msg) : Option Nat := u.noticeSlot (recGet m.payload 0 2) m.msgId (recGet m.payload 2 2) (recGet m.payload 4 8)

theorem ownerNoticeReceived_follows (hf : s.freezing = false)
    (h : recGet m.payload 0 2 = (noticed s m).deviceId ∨ noticedSlot (noticed s m) m = none) :
    exec (.ownerNoticeReceived m) s = .next (noticed s m) := by
  unfold noticed noticedSlot at h
  refine congrArg next ((heldMsg_goes_on hf _).trans ?_)
  have hnone : (if recGet m.payload 0 2 = (noticed s m).deviceId then none else noticedSlot (noticed s m) m) = none := by
    split
    · rfl
    · next hne => exact h.resolve_left hne
  unfold noticed noticedSlot at hnone
  simp only [hnone]
  rfl

/-- A claim of ownership at no lower epoch puts a holder that takes itself for the owner in doubt. -/
theorem ownerNoticeReceived_doubts (hf : s.freezing = false) (hother : recGet m.payload 0 2 ≠ (noticed s m).deviceId)
    (hk : noticedSlot (noticed s m) m = some i)
    (hst : ((noticed s m).stall i).state ∈ [StallState.hot, .running, .waiting, .parked]) (hepoch : ((noticed s m).stall i).epoch ≤ m.aux) :
    exec (.ownerNoticeReceived m) s =
      .next (((noticed s m).orphan i).learnCopy i ⟨recGet m.payload 0 2, m.msgId, m.aux, true⟩) := by
  have hremote : ((noticed s m).stall i).state ≠ .remote := ne_of_mem_of_not_mem hst (by decide)
  have horphaned : ((noticed s m).stall i).state ≠ .orphaned := ne_of_mem_of_not_mem hst (by decide)
  have hmoving : ((noticed s m).stall i).state ≠ .moving := ne_of_mem_of_not_mem hst (by decide)
  have hretired : ((noticed s m).stall i).state ≠ .retired := ne_of_mem_of_not_mem hst (by decide)
  refine congrArg next ((heldMsg_goes_on hf _).trans ?_)
  have hsome : (if recGet m.payload 0 2 = (noticed s m).deviceId then none else noticedSlot (noticed s m) m) = some i := (if_neg hother).trans hk
  unfold noticed at hremote horphaned hmoving hretired hepoch
  unfold noticed noticedSlot at hsome
  simp only [hsome, hremote, horphaned, hmoving, hretired, hepoch, if_false, decide_false, decide_true, Bool.false_and, Bool.false_eq_true, ne_eq,
    not_false_eq_true, Bool.and_self, if_true]
  rfl

/-- Settles O38: each message by the slot that it names and what the stall there may do (a result for a RUNNING stall: log entry 23). -/
theorem toolResults : Obligations.ToolResults := by
  intro m s
  refine ⟨fun hf k hk => ?held, resultReceived_unknown, fun i hf hslot => ⟨resultReceived_remote hf hslot, fun hst => ?moving,
      resultReceived_running hf hslot, fun hst hcall => ?stray, fun toks v u w hv hu hst hpark hcall hnamed hfresh hheld hfits htoks hw => ?accepted⟩,
    fetchReceived_unknown, fun i hf hslot => ⟨fetchReceived_remote hf hslot, fun hkind hst => ?index, fun hkind hst => ?running,
      fun hkind hbusy hst => ⟨fun u hu => ?fetched, fun st hbad => ?unread⟩⟩,
    fun k c => fetchRefusedReceived_ends, fun hf hk => ⟨redirectReceived_none hf hk, fetchRefusedReceived_none hf hk⟩,
    fun hf => ⟨ownerNoticeReceived_follows hf, fun i => ownerNoticeReceived_doubts hf⟩⟩
  case held =>
    simp only [List.mem_cons, List.not_mem_nil, or_false] at hk
    rcases hk with rfl | rfl | rfl | rfl | rfl | rfl | rfl | rfl <;> exact congrArg next (heldMsg_held hf _)
  case moving =>
    exact (resultReceived_judged hf hslot (by simp [hst]) (by simp [hst])).trans (congrArg next (applyResult_moving m hst))
  case stray =>
    exact (resultReceived_judged hf hslot (ne_of_mem_of_not_mem hst (by decide)) (ne_of_mem_of_not_mem hst (by decide))).trans
      (congrArg next (applyResult_stray hst hcall))
  case accepted =>
    subst hu
    exact ⟨(resultReceived_judged hf hslot (by simp [hst]) (by simp [hst])).trans
        (congrArg next (applyResult_accepts ⟨hst, hpark, hcall, hnamed, hfresh, hheld, hfits⟩ hv htoks hw)),
      resultAccepted_queued hv hw⟩
  case index => exact (fetchReceived_answered hf hslot hst).trans (congrArg next (answerFetch_index _ _ hkind))
  case running => exact (fetchReceived_answered hf hslot (by simp [hst])).trans (congrArg next (answerFetch_running _ _ hkind hst))
  case fetched =>
    have hanswer := (answerFetch_idle m.src m.msgId hkind hbusy hst).1 u hu
    obtain ⟨hmoving, -, hphase, hpeer, hprior, -⟩ := stall_startMigration u i none m.src false
    exact ⟨_, (fetchReceived_answered hf hslot (ne_of_mem_of_not_mem hst (by decide))).trans (congrArg next hanswer), hmoving, hpeer, hphase, hprior⟩
  case unread =>
    exact (fetchReceived_answered hf hslot (ne_of_mem_of_not_mem hst (by decide))).trans
      (congrArg next ((answerFetch_idle m.src m.msgId hkind hbusy hst).2 st hbad))

end Sys2Proof.Proofs
end

section
/-! The migration of a stall: STALL_MIGRATE and the messages between source and destination (R62 to R66). -/

namespace Sys2Proof.Proofs

open Sys2Proof Sys2Proof.Machine Sys2Proof.Safety Sys2Proof.Laws

variable {s : State} {i : Nat}

/-! ### STALL_MIGRATE (R62) -/

/-- The operation of a command in slot `k`, QUEUED, before the command is answered. -/
def queuedOp (s : State) (c : Cmd) (k opcode : Nat) (args : List Nat) : State :=
  s.setOp k { (s.op k) with
    live := true, st := .queued, opcode := opcode, cmd := some c, args := args,
    session := match (some c).map Cmd.issuer with | some (.queue q) => (s.io.queue q).session | _ => 0, owner := s.opOwner (some c),
    progress := 0, phase := 0, started := false, changedYt := s.now, endYt := 0, suspendCmd := none, cancelCmd := none }

/-- The same with the command answered: its handle stands in the completion record. -/
def queuedAnswered (s : State) (c : Cmd) (k opcode : Nat) (args : List Nat) : State :=
  (queuedOp s c k opcode args).complete c CS.ok ((queuedOp s c k opcode args).opHandle k)

/-- A long operation that waits stays QUEUED in the lowest FREE slot, its handle answered. -/
theorem beginOp_waits {k : Nat} (h : LowestFree s k) (c : Cmd) (opcode : Nat) (args : List Nat) (body : Nat → State → State) :
    s.beginOp c opcode args true body = body k (queuedAnswered s c k opcode args) := by
  obtain ⟨hk, hfree, hlive⟩ := h
  have hfirst : firstBelow (fun i => !(s.op i).live) 4096 = some k :=
    firstBelow_eq_some (by simp [hfree]) hk (fun j hj => by simp [hlive j hj])
  unfold State.beginOp State.newOp State.newOpFor
  rw [hfirst]
  rfl

@[simp] theorem queuedAnswered_stall (s : State) (c : Cmd) (k opcode : Nat) (args : List Nat) (j : Nat) :
    (queuedAnswered s c k opcode args).stall j = s.stall j := complete_stall ..

@[simp] theorem queuedAnswered_st (s : State) (c : Cmd) (k opcode : Nat) (args : List Nat) : ((queuedAnswered s c k opcode args).op k).st = .queued := by
  simp [queuedAnswered, queuedOp]

/-- A STALL_MIGRATE whose fields hold, of a stall that is no index. -/
structure Migrates (s : State) (c : Cmd) (i k : Nat) : Prop where
  accepted : OnStall s c i false
  fields : opU16 c 32 < 4096 ∧ opByte c 34 ≤ 1 ∧ opZero c 35 63 = true
  kind : (s.stall i).hdr.kind ≠ 1
  slot : LowestFree s k

section
variable {c : Cmd} {k : Nat} (h : Migrates s c i k)
include h

theorem stallMigrate_running (hst : (s.stall i).state = .running) : exec (.stallMigrate c) s =
    .next ((queuedAnswered s c k 0x25 [i]).setStall i
      { s.stall i with deferred := (s.stall i).deferred ++ [.command (0x25 + 256 * k) c] }) := by
  obtain ⟨ha, ⟨hdest, hto, hz⟩, hkind, hslot⟩ := h
  refine congrArg next ((stallCmd_onStall ha (by simp [hdest, hto, hz, hkind])).trans ?_)
  simp [hst, beginOp_waits hslot, State.nowOrDeferred, State.soon]

section
variable (hbusy : busyOpcode (s.stall i) = none) (hst : (s.stall i).state ∈ [StallState.hot, .waiting, .parked])
include hbusy hst

theorem stallMigrate_unread {st : Nat} (hbad : s.intoPool i = .error st) : exec (.stallMigrate c) s = .next (s.completeWith c true st 0 0 0) := by
  obtain ⟨ha, ⟨hdest, hto, hz⟩, hkind, -⟩ := h
  have hrunning : (s.stall i).state ≠ .running := ne_of_mem_of_not_mem hst (by decide)
  refine congrArg next ((stallCmd_onStall ha (by simp [hdest, hto, hz, hkind])).trans ?_)
  simp only [stallReady_of hbusy hst, hrunning, Bool.not_true, Bool.and_false, Bool.false_eq_true, if_false, hbad]

theorem stallMigrate_starts {u : State} (hok : (s.intoPool i).toOption.isSome = true) (hu : (queuedAnswered s c k 0x25 [i]).intoPool i = .ok u) :
    exec (.stallMigrate c) s = .next ((u.moveOp k .running).startMigration i (some k) (opU16 c 32) (decide (opByte c 34 = 1))) := by
  obtain ⟨ha, ⟨hdest, hto, hz⟩, hkind, hslot⟩ := h
  have hrunning : (s.stall i).state ≠ .running := ne_of_mem_of_not_mem hst (by decide)
  have hready := stallReady_of hbusy hst
  obtain ⟨v, hv⟩ : ∃ v, s.intoPool i = .ok v := by
    cases hp : s.intoPool i with
    | error st => simp [hp, Except.toOption] at hok
    | ok v => exact ⟨v, rfl⟩
  refine congrArg next ((stallCmd_onStall ha (by simp [hdest, hto, hz, hkind])).trans ?_)
  simp only [hready, hrunning, Bool.not_true, Bool.and_false, Bool.false_eq_true, if_false, hv, beginOp_waits hslot, State.doMigrate, queuedAnswered_st,
    queuedAnswered_stall, ne_eq, not_true_eq_false, if_true, hu]

end

end

/-- What a migration started for an operation leaves of the operation and of the stall. -/
theorem startMigration_op (u : State) (i k dest : Nat) (park : Bool) :
    (((u.moveOp k .running).startMigration i (some k) dest park).op k).st = .running := by
  have hops : ((u.moveOp k .running).startMigration i (some k) dest park).ops = (u.moveOp k .running).ops :=
    (State.send_frame _ _).1.1 .ops (by decide)
  simp only [State.op, hops]
  exact congrArg OpSlot.st (op_setOp_same ..)

/-! ### PREPARE and PREPARED (R62 steps 3 and 4) -/

section
variable {m : Msg} {image : Header × List JRecord} (hf : s.freezing = false) (himage : m.image = some image)
include hf himage

theorem prepareReceived_repeated (h : s.destCopy m.src m.msgId = some i) (b : Bool) : exec (.prepareReceived m b) s = .next s := by
  refine congrArg next ((heldMsg_goes_on hf _).trans ?_)
  simp [himage, h]

variable (hnew : s.destCopy m.src m.msgId = none)
include hnew

theorem prepareReceived_badTag : exec (.prepareReceived m false) s = .next (s.refusePrepare m CS.integrity) := by
  refine congrArg next ((heldMsg_goes_on hf _).trans ?_)
  simp [himage, hnew]

theorem prepareReceived_stopped (halloc : s.allocStopped = true) : exec (.prepareReceived m true) s = .next s := by
  refine congrArg next ((heldMsg_goes_on hf _).trans ?_)
  simp [himage, hnew, halloc]

theorem prepareReceived_disabled (halloc : s.allocStopped = false) (hen : s.get Fld.STL_CTRL_EN = 0) :
    exec (.prepareReceived m true) s = .next (s.refusePrepare m CS.notReady) := by
  refine congrArg next ((heldMsg_goes_on hf _).trans ?_)
  simp [himage, hnew, halloc, on_of_zero hen]

theorem prepareReceived_taken (halloc : s.allocStopped = false) (hen : s.get Fld.STL_CTRL_EN = 1) :
    exec (.prepareReceived m true) s = .next (s.receivePrepare m image.1 image.2 (recGet m.payload 8 1)) := by
  refine congrArg next ((heldMsg_goes_on hf _).trans ?_)
  simp [himage, hnew, halloc, on_of_one hen]

end

/-- Stall `i` as the source that a message of its destination speaks of. -/
structure SourceOf (s : State) (i : Nat) (m : Msg) (mg : MigX) : Prop where
  goes_on : s.freezing = false
  slot : s.slotOf m.msgId = some i
  mig : (s.stall i).mig = some mg
  moving : (s.stall i).state = .moving
  role : (s.stall i).hdr.migRole = 1
  peer : (s.stall i).hdr.peerDev = m.src

/-- Whether the operation of a migration is SUSPENDING or SUSPENDED (R65). -/
def suspends (s : State) (mg : MigX) : Bool :=
  match mg.op with
  | some op => (s.op op).st = .suspending || (s.op op).st = .suspended
  | none => false

section
variable {m : Msg} {mg : MigX} (h : SourceOf s i m mg)
include h

/-- The source knows the destination's handle and stands in phase 2. -/
def preparedAt (s : State) (i : Nat) (m : Msg) (mg : MigX) : State :=
  s.setStall i { s.stall i with mig := some { mg with destHandle := m.aux }, hdr := { (s.stall i).hdr with migPhase := 2 } }

theorem preparedReceived_prepared (hphase : (s.stall i).hdr.migPhase = 1) : exec (.preparedReceived m) s =
    .next (if suspends s mg then preparedAt s i m mg else (preparedAt s i m mg).sendCommit i) := by
  obtain ⟨hf, hslot, hmig, hst, hrole, hpeer⟩ := h
  refine congrArg next ((heldMsg_goes_on hf _).trans ?_)
  simp only [hslot, hmig]
  exact if_pos (by simp [hst, hrole, hpeer, hphase])

theorem committedReceived_done (hphase : (s.stall i).hdr.migPhase = 3) :
    exec (.committedReceived m) s = .next (s.sourceDone i mg.destHandle m.aux).advanceTeardowns := by
  obtain ⟨hf, hslot, hmig, hst, hrole, hpeer⟩ := h
  refine congrArg next ((heldMsg_goes_on hf _).trans ?_)
  simp [hslot, hmig, hst, hrole, hpeer, hphase]

theorem abortReceived_source : exec (.abortReceived m) s = .next (s.cancelSource i .failed (m.aux % 256)).advanceTeardowns := by
  obtain ⟨hf, hslot, hmig, hst, hrole, hpeer⟩ := h
  refine congrArg next ((heldMsg_goes_on hf _).trans ?_)
  simp [hslot, hst, hrole, hpeer, Option.filter]

end

/-- COMMIT sent: phase 3 under the commit lease, the stall MOVING still. -/
theorem stall_sendCommit {u : State} {mg : MigX} (h : (u.stall i).mig = some mg) : ((u.sendCommit i).stall i) =
    { u.stall i with leaseExpiry := u.now + u.get Fld.STL_LEASE_COMMIT_NS,
                     hdr := { (u.stall i).hdr with migPhase := 3, leaseExpiry := u.now + u.get Fld.STL_LEASE_COMMIT_NS } } := by
  simp [State.sendCommit, h]

/-! ### COMMIT, COMMITTED and ABORT (R62 steps 5 and 6, R64) -/

/-- A slot made REMOTE names the new pair. -/
theorem stall_becomeRemote (s : State) (i dev handle epoch : Nat) :
    let x := (s.becomeRemote i dev handle epoch).stall i
    x.state = .remote ∧ x.ownerDev = dev ∧ x.headerAt = handle ∧ x.epoch = epoch := by
  simp only [State.becomeRemote, stall_setStall_same, and_self]

/-- The end of a source's operation leaves the stalls as they are. -/
@[simp] theorem endMig_stall (s : State) (i : Nat) (st : OpState) (status r0 r1 j : Nat) : (s.endMig i st status r0 r1).stall j = s.stall j :=
  stall_of_kept (State.endMig_frame s i st status r0 r1) (by decide) j

/-- A source that gives its migration up returns to HOT where it was HOT, at the epoch it had. -/
theorem stall_cancelSource_hot (st : OpState) (status : Nat) (hprior : (s.stall i).hdr.priorState = 1) :
    let x := (s.cancelSource i st status).stall i
    x.state = .hot ∧ x.epoch = (s.stall i).epoch ∧ x.hdr.migRole = 0 := by
  simp only [State.cancelSource, State.backToPrior, endMig_stall, hprior, stallStateOf, State.enterState, stall_setStall_same, and_self]

theorem commitReceived_none {m : Msg} (hf : s.freezing = false) (h : s.destCopy m.src m.msgId = none) :
    exec (.commitReceived m) s = .next (s.sendAbort m.src m.tenant m.msgId CS.timeout) := by
  refine congrArg next ((heldMsg_goes_on hf _).trans ?_)
  simp only [h]

theorem preparedReceived_none {m : Msg} (hf : s.freezing = false) (h : s.slotOf m.msgId = none) :
    exec (.preparedReceived m) s = .next (s.sendAbort m.src m.tenant m.msgId CS.timeout) := by
  refine congrArg next ((heldMsg_goes_on hf _).trans ?_)
  simp only [h]

theorem commitReceived_commits {m : Msg} (hf : s.freezing = false) (h : s.destCopy m.src m.msgId = some i) (hst : (s.stall i).state = .moving) :
    exec (.commitReceived m) s = .next (s.commitDest i ((s.stall i).hdr.prepEpoch + 1)) := by
  refine congrArg next ((heldMsg_goes_on hf _).trans ?_)
  simp only [h, hst, if_true]

theorem abortReceived_frees {m : Msg} (hf : s.freezing = false) (h : s.destCopy m.src m.msgId = some i) (hst : (s.stall i).state = .moving)
    (hslot : s.slotOf m.msgId = none) : exec (.abortReceived m) s = .next (s.freeCopy i (m.aux % 256)).advanceTeardowns := by
  refine congrArg next ((heldMsg_goes_on hf _).trans ?_)
  simp only [hslot, Option.filter_none, h, hst, if_true]

/-- Settles O39: the command by what reading its stall ends in, each message by the source or the copy that it names (PREPARED for no such stall: log
entry 30). -/
theorem migrationHandshake : Obligations.MigrationHandshake := by
  intro s i
  refine ⟨fun c k ha hdest hto hz hkind hk hfree hlow => ?command, fun m image hf himage => ⟨fun h => prepareReceived_repeated hf himage h,
      fun hnew => ⟨prepareReceived_badTag hf himage hnew, prepareReceived_stopped hf himage hnew, prepareReceived_disabled hf himage hnew,
        prepareReceived_taken hf himage hnew⟩⟩,
    fun m mg hf hslot hmig hst hrole hpeer => ?source, fun m => preparedReceived_none, fun m => commitReceived_none,
    fun m hf h hst => ⟨commitReceived_commits hf h hst, abortReceived_frees hf h hst⟩⟩
  case command =>
    have hm : Migrates s c i k := ⟨ha, ⟨hdest, hto, hz⟩, hkind, ⟨hk, hfree, hlow⟩⟩
    refine ⟨fun hbusy hst => ⟨fun st => stallMigrate_unread hm hbusy hst, fun u hok hu => ?_⟩, fun hst => ?_⟩
    · rw [beginOp_waits hm.slot] at hu
      obtain ⟨hmoving, hrole, hphase, hpeer, hprior, hlease⟩ := stall_startMigration (u.moveOp k .running) i (some k) (opU16 c 32) (decide (opByte c 34 = 1))
      exact ⟨_, stallMigrate_starts hm hbusy hst hok hu, startMigration_op .., hmoving, hrole, hphase, hpeer, hprior, hlease⟩
    · refine ⟨_, stallMigrate_running hm hst, queuedAnswered_st .., ?_, ?_⟩
      · simp [hst]
      · simp
  case source =>
    have h : SourceOf s i m mg := ⟨hf, hslot, hmig, hst, hrole, hpeer⟩
    refine ⟨fun hphase hop => ⟨_, (preparedReceived_prepared h hphase).trans (congrArg next (if_neg (by simp [suspends, hop]))), ?_⟩,
      fun op hphase hop hsusp => ⟨_, (preparedReceived_prepared h hphase).trans (congrArg next (if_pos (by simp [suspends, hop, hsusp]))),
        by simp [preparedAt], rfl⟩,
      fun hphase => ⟨_, committedReceived_done h hphase, ?_⟩, fun hprior => ⟨_, abortReceived_source h, stall_cancelSource_hot .failed _ hprior⟩⟩
    · have hmig' : ((preparedAt s i m mg).stall i).mig = some { mg with destHandle := m.aux } := by simp [preparedAt]
      rw [stall_sendCommit hmig']
      exact ⟨rfl, rfl, by simp [preparedAt, hst]⟩
    · obtain ⟨hremote, howner, hhandle, hepoch⟩ := stall_becomeRemote
        (s.endMig i .done CS.ok mg.destHandle (s.stall i).hdr.peerDev) i (s.stall i).hdr.peerDev mg.destHandle m.aux
      exact ⟨hremote, howner.trans hpeer, hhandle, hepoch⟩

end Sys2Proof.Proofs
end

section
/-! TEXT_BIND, and the guarded writes of the text configuration, the shapes and the dirty limit (R41, R60, R76 to R78, R151, R152, R181). -/

namespace Sys2Proof.Proofs

open Sys2Proof Sys2Proof.Machine Sys2Proof.Safety Sys2Proof.Laws

/-! ### TEXT_BIND (R181) -/

variable {s : State} {i : Nat} {c : Cmd}

/-- Whether bit `b` of TEXT_BIND's selection is set: 0 the grammar, 1 its state kept, 2 the stop set. -/
def binds (c : Cmd) (b : Nat) : Bool := (opByte c 32).testBit b

section
variable (ha : OnStall s c i false) (hsel : opByte c 32 < 8) (hlost : s.kindLost 1 = false)
include ha hsel hlost

theorem textBind_disabled (hg : binds c 0 = true) (hA : c.addrA ≠ 0) (hen : s.get Fld.GR_CTRL_EN = 0) :
    exec (.textBind c) s = .next (s.complete c CS.notReady) := by
  unfold binds at hg
  refine congrArg next ((stallCmd_onStall ha (decide_eq_true hsel)).trans ?_)
  simp only [hlost, hg, hA, on_of_zero hen, ne_eq, not_false_eq_true, decide_true, Bool.and_self, Bool.not_false, Bool.false_eq_true, if_false, if_true]

variable (hen : binds c 0 = false ∨ c.addrA = 0 ∨ s.get Fld.GR_CTRL_EN = 1)
include hen

theorem textBind_goes_on : exec (.textBind c) s = .next (s.nowOrDeferred i 0x40 c) := by
  unfold binds at hen
  refine congrArg next ((stallCmd_onStall ha (decide_eq_true hsel)).trans ?_)
  simp only [hlost, Bool.false_eq_true, if_false]
  refine if_neg ?_
  obtain h | h | h := hen
  · simp [h]
  · simp [h]
  · simp [on_of_one h]

theorem textBind_running (hst : (s.stall i).state = .running) :
    exec (.textBind c) s = .next (s.setStall i { s.stall i with deferred := (s.stall i).deferred ++ [.command 0x40 c] }) :=
  (textBind_goes_on ha hsel hlost hen).trans (congrArg next (if_pos hst))

theorem textBind_atOnce (hst : (s.stall i).state ≠ .running) : exec (.textBind c) s = .next (s.doTextBind c i) :=
  (textBind_goes_on ha hsel hlost hen).trans (congrArg next (if_neg hst))

end

/-- The header that TEXT_BIND leaves, `start` the first state of the grammar bound. -/
def boundHeader (c : Cmd) (start : Nat) (h : Header) : Header :=
  { h with
    grImage := if binds c 0 then c.addrA.toNat else h.grImage
    grState := if binds c 0 && !binds c 1 then start else h.grState
    grSp := if binds c 0 && !binds c 1 then 0 else h.grSp
    grStack := if binds c 0 && !binds c 1 then [] else h.grStack
    stopSet := if binds c 2 then c.addrB.toNat else h.stopSet }

/-- The same as TEXT_BIND writes it: the grammar's fields, then the stop set. -/
theorem boundHeader_steps (c : Cmd) (start : Nat) (h : Header) : boundHeader c start h =
    (let h := if binds c 0 then { h with
        grImage := c.addrA.toNat, grState := if binds c 1 then h.grState else start
        grSp := if binds c 1 then h.grSp else 0, grStack := if binds c 1 then h.grStack else [] } else h
     if binds c 2 then { h with stopSet := c.addrB.toNat } else h) := by
  unfold boundHeader
  cases binds c 0 <;> cases binds c 1 <;> cases binds c 2 <;> rfl

section
variable (hst : (s.stall i).state ≠ .orphaned) (hbusy : busyOpcode (s.stall i) = none)
include hst hbusy

theorem doTextBind_malformed {st : Nat} (hg : binds c 0 = true) (hA : c.addrA ≠ 0)
    (himage : s.grammarImage (s.stall i).hdr.tenant c.addrA.toNat = .error st) :
    s.doTextBind c i = (s.stallEvent 0x0802 i).complete c st := by
  unfold binds at hg
  simp only [State.doTextBind, hst, hbusy, hg, hA, himage, ne_eq, not_false_eq_true, decide_true, Bool.and_self, if_false, if_true]

/-- TEXT_BIND of an image and a stop set that are read or absent, the state kept, if it is, being one of the grammar's. -/
theorem doTextBind_reads {g : Option GrammarImage} {q : Option (List (List Byte))}
    (himage : (if binds c 0 && c.addrA ≠ 0 then some (s.grammarImage (s.stall i).hdr.tenant c.addrA.toNat) else none) = g.map .ok)
    (hstops : (if binds c 2 && c.addrB ≠ 0 then some (s.stopSet (s.stall i).hdr.tenant c.addrB.toNat) else none) = q.map .ok)
    (hkept : ∀ x ∈ g, binds c 1 = true → (s.stall i).hdr.grState < x.states) :
    s.doTextBind c i = (s.setStall i { s.stall i with hdr := boundHeader c ((g.map (·.start)).getD 0) (s.stall i).hdr }).complete c CS.ok := by
  rw [boundHeader_steps]
  unfold binds at himage hstops hkept
  simp only [State.doTextBind, hst, hbusy, himage, hstops, if_false]
  cases g with
  | none => cases q <;> exact if_neg (by simp)
  | some x =>
    have hok : ((opByte c 32).testBit 1 && decide (x.states ≤ (s.stall i).hdr.grState)) = false := by
      simpa using hkept x rfl
    cases q <;> exact if_neg (by simp only [Option.map_some, Bool.and_assoc, hok, Bool.and_false, Bool.false_eq_true, not_false_eq_true])

theorem doTextBind_binds {g : GrammarImage} {q : List (List Byte)}
    (himage : binds c 0 = true → c.addrA ≠ 0 → s.grammarImage (s.stall i).hdr.tenant c.addrA.toNat = .ok g)
    (hstops : binds c 2 = true → c.addrB ≠ 0 → s.stopSet (s.stall i).hdr.tenant c.addrB.toNat = .ok q)
    (hkept : binds c 0 = true → c.addrA ≠ 0 → binds c 1 = true → (s.stall i).hdr.grState < g.states) :
    s.doTextBind c i = (s.setStall i { s.stall i with
      hdr := boundHeader c (if c.addrA = 0 then 0 else g.start) (s.stall i).hdr }).complete c CS.ok := by
  have hq : (if binds c 2 && c.addrB ≠ 0 then some (s.stopSet (s.stall i).hdr.tenant c.addrB.toNat) else none) =
      (if binds c 2 && c.addrB ≠ 0 then some q else none).map .ok := by
    split
    · next h =>
      simp only [Bool.and_eq_true, decide_eq_true_eq] at h
      rw [hstops h.1 h.2, Option.map_some]
    · rfl
  by_cases hg : binds c 0 = true ∧ c.addrA ≠ 0
  · obtain ⟨h0, hA⟩ := hg
    rw [if_neg hA]
    exact doTextBind_reads hst hbusy (g := some g) (by simp only [h0, hA, himage h0 hA, ne_eq, not_false_eq_true, decide_true, Bool.and_self, if_true,
      Option.map_some]) hq (by simpa using hkept h0 hA)
  · have hnone : (binds c 0 && decide (c.addrA ≠ 0)) = false := by simpa using hg
    have hreads := doTextBind_reads hst hbusy (g := none) (by simp only [hnone, Bool.false_eq_true, if_false, Option.map_none]) hq (by simp)
    rw [hreads]
    by_cases h0 : binds c 0 = true
    · rw [if_pos (not_not.mp (fun hA => hg ⟨h0, hA⟩))]
      rfl
    · simp only [boundHeader, h0, Bool.false_and, Bool.false_eq_true, if_false]

end

/-! ### The text configuration (R151, R152) -/

section
variable {w : RegWrite} {t : Nat} (ht : t < 256)
include ht

theorem txCfgWrite_written (hw : MayWrite s w (Reg.TX_CFG t)) : exec (.txCfgWrite w t) s =
    .next (if s.liveSession t then s else ((s.store w (Reg.TX_CFG t)).dropText t).checkTextConfig t) :=
  congrArg next ((if_pos ht).trans (fromPort_may hw))

theorem txTWrite_written {j : Nat} (hj : 1 ≤ j ∧ j ≤ 6) (hw : MayWrite s w (Reg.TX_CFG t + 8 * j)) : exec (.txTWrite w t j) s =
    .next (if s.liveSession t then s else ((s.store w (Reg.TX_CFG t + 8 * j)).dropText t).checkTextConfig t) :=
  congrArg next ((if_pos ⟨ht, hj⟩).trans (fromPort_may hw))

end

theorem text_outOfRange {t : Nat} (w : RegWrite) (j : Nat) (ht : 256 ≤ t) : exec (.txCfgWrite w t) s = .next s ∧ exec (.txTWrite w t j) s = .next s :=
  ⟨congrArg next (if_neg (Nat.not_lt.mpr ht)), congrArg next (if_neg (fun h => absurd h.1 (Nat.not_lt.mpr ht)))⟩

theorem checkTextConfig_unmarked {t : Nat} (h : s.get (Fld.TX_CFG_VALID t) = 0) : s.checkTextConfig t = s :=
  if_neg (by simp [on_of_zero h])

/-- A table-mode configuration that fails its check loses VALID. -/
theorem checkTextConfig_fails {t : Nat} (h : s.get (Fld.TX_CFG_VALID t) = 1) (hmode : s.tableMode t = true) (hbad : s.textConfigOk t = false) :
    s.checkTextConfig t = (s.put (Fld.TX_CFG_VALID t) 0).raise { code := 0x0807, tenant := some t } :=
  if_pos (by simp [on_of_one h, hmode, hbad])

/-! ### Shapes and the dirty limit (R60, R77, R78) -/

section
variable {w : RegWrite} {k : Nat} (hk : k < 16) (hw : MayWrite s w (Reg.KV_SHAPE k))
include hk hw

theorem kvShapeWrite_written : exec (.kvShapeWrite w k) s = .next (if s.shapeUse k ≠ 0 then s
    else if (s.store w (Reg.KV_SHAPE k)).shapeOk k then s.store w (Reg.KV_SHAPE k)
    else (s.store w (Reg.KV_SHAPE k)).put (Fld.KV_SHAPE_VALID k) 0) :=
  congrArg next ((if_pos hk).trans (fromPort_may hw))

theorem kvShapeWrite_inUse (huse : s.shapeUse k ≠ 0) : exec (.kvShapeWrite w k) s = .next s :=
  (kvShapeWrite_written hk hw).trans (congrArg next (if_pos huse))

variable (huse : s.shapeUse k = 0)
include huse

theorem kvShapeWrite_stored (hok : (s.store w (Reg.KV_SHAPE k)).shapeOk k = true) :
    exec (.kvShapeWrite w k) s = .next (s.store w (Reg.KV_SHAPE k)) :=
  (kvShapeWrite_written hk hw).trans (congrArg next ((if_neg (not_not.mpr huse)).trans (if_pos hok)))

/-- A shape that breaks a rule of R77 is stored without VALID. -/
theorem kvShapeWrite_invalid (hbad : (s.store w (Reg.KV_SHAPE k)).shapeOk k = false) : ∃ u : State, exec (.kvShapeWrite w k) s = .next u ∧
    u.get (Fld.KV_SHAPE_VALID k) = 0 := by
  refine ⟨_, (kvShapeWrite_written hk hw).trans (congrArg next ((if_neg (not_not.mpr huse)).trans (if_neg (by simp [hbad])))), ?_⟩
  exact (state_get_put_same _ _ _ (by show 63 + 1 ≤ 64; omega)).trans (Nat.zero_mod _)

end

theorem stlDirtyLimitWrite_raised {w : RegWrite} (hw : MayWrite s w Reg.STL_DIRTY_LIMIT) : exec (.stlDirtyLimitWrite w) s =
    .next ((s.store w Reg.STL_DIRTY_LIMIT).put Fld.STL_DIRTY_LIMIT_LIMIT
      (max (s.wouldGet w Fld.STL_DIRTY_LIMIT_LIMIT / 67108864 * 67108864) 67108864)) :=
  congrArg next (fromPort_may hw)

/-- Settles O43: TEXT_BIND by what it selects and what its stall may do, each write by whether its port may make it and what is in use. -/
theorem textAndShapeRegisters : Obligations.TextAndShapeRegisters := by
  intro w s t j k
  refine ⟨fun c i ha hsel hlost => ⟨textBind_disabled ha hsel hlost, fun hen => ⟨textBind_running ha hsel hlost hen,
      fun hrunning horphaned hbusy => ⟨fun st hg hA himage => ?malformed, fun g q himage hstops hkept => ?binds⟩⟩⟩,
    fun ht hw => ⟨fun hlive => ?cfgLive, fun hlive hvalid => ?cfgUnmarked, fun hlive hvalid hmode hbad => ?cfgFails⟩,
    fun ht h1 h6 hw => ⟨fun hlive => ?textLive, fun hlive => ?textStored⟩, text_outOfRange w j,
    fun hk hw => ⟨kvShapeWrite_inUse hk hw, kvShapeWrite_stored hk hw, kvShapeWrite_invalid hk hw⟩,
    fun hk => congrArg next (if_neg (Nat.not_lt.mpr hk)), fun hw => ⟨_, stlDirtyLimitWrite_raised hw, rfl⟩⟩
  case malformed =>
    exact (textBind_atOnce ha hsel hlost hen hrunning).trans (congrArg next (doTextBind_malformed horphaned hbusy hg hA himage))
  case binds =>
    exact (textBind_atOnce ha hsel hlost hen hrunning).trans (congrArg next (doTextBind_binds horphaned hbusy himage hstops hkept))
  case cfgLive => exact (txCfgWrite_written ht hw).trans (congrArg next (if_pos hlive))
  case cfgUnmarked =>
    exact (txCfgWrite_written ht hw).trans (congrArg next ((if_neg (by simp [hlive])).trans (checkTextConfig_unmarked hvalid)))
  case cfgFails =>
    exact (txCfgWrite_written ht hw).trans (congrArg next ((if_neg (by simp [hlive])).trans (checkTextConfig_fails hvalid hmode hbad)))
  case textLive => exact (txTWrite_written ht ⟨h1, h6⟩ hw).trans (congrArg next (if_pos hlive))
  case textStored => exact (txTWrite_written ht ⟨h1, h6⟩ hw).trans (congrArg next (if_neg (by simp [hlive])))

end Sys2Proof.Proofs
end
